-- ==== Sys2Proof/Word.lean ====
section
/-! DEFINITION. The word types of the model and the plainest arithmetic on their fields: bit ranges `[hi:lo]`
of spec/00_scope.md R13, saturating counts. -/

namespace Sys2Proof

/-- A register, a queue word or a semaphore: 64 bits. A 32-bit register stands zero-extended. -/
abbrev W64 := BitVec 64

/-- A 32-bit register value or vector lane. -/
abbrev W32 := BitVec 32

/-- A 64-byte item of a path, and a 64-byte line: byte 0 in bits [7:0] (R13: little-endian). -/
abbrev Item := BitVec 512

/-- A long accumulator and a full exact record (R251, R268). -/
abbrev Rec := BitVec 640

/-- One byte. -/
abbrev Byte := BitVec 8

/-- The bit range `[hi:lo]` of a word, as a number. -/
def bitsOf {w : Nat} (x : BitVec w) (hi lo : Nat) : Nat :=
  (x.toNat >>> lo) % 2 ^ (hi + 1 - lo)

/-- Bit n of a word. -/
def bitOf {w : Nat} (x : BitVec w) (n : Nat) : Bool := (x.toNat >>> n) % 2 == 1

/-- The word with the bit range `[hi:lo]` replaced by `v` (its low bits). -/
def withBits {w : Nat} (x : BitVec w) (hi lo v : Nat) : BitVec w :=
  let n := x.toNat
  let m := 2 ^ (hi + 1 - lo)
  BitVec.ofNat w (n - ((n >>> lo) % m) * 2 ^ lo + (v % m) * 2 ^ lo)

/-- A Bool as a bit. -/
def bitNat (b : Bool) : Nat := if b then 1 else 0

/-- A count that stops at `top`. -/
def satAdd (top n k : Nat) : Nat := min top (n + k)

/-- The whole-number quotient rounded up. -/
def ceilDiv (a b : Nat) : Nat := (a + b - 1) / b

end Sys2Proof
end

