-- ==== Sys2Proof/Syntax.lean ====
section
/-! DEFINITION. The commands of the Thivoef package: one constructor of `Instr` for each row of
spec/opcode_table.json, with the row's operands. What the world outside the model supplies (a measured voltage, a
partner's flit, the outcome of a self-test) is an operand. -/

namespace Sys2Proof

/-- The requester code that an access to the control aperture carries (spec/04_register_pages.md R148). -/
inductive Requester where
  | device    -- 0: mover, queue manager, remote window, device behind the root port
  | surveyor  -- 1
  | kernel    -- 2: any hart
  | host      -- 3: BAR0
  deriving DecidableEq, Repr

/-- The numeric requester code of R148. -/
def Requester.code : Requester → Nat
  | .device => 0
  | .surveyor => 1
  | .kernel => 2
  | .host => 3

/-- What a hart's own instructions have set when it makes an access: the CSRs written since its last command of this table, and
the effective privilege (0 U, 1 S, 3 M) and virtualization mode of the access. -/
structure CoreCtl where
  csrs : List (Nat × W64)
  priv : Nat
  virt : Bool
  deriving DecidableEq, Repr

/-- A vector access: the register of its first element, its active elements by index with their virtual addresses, and whether
it is fault-only-first. -/
structure VecArgs where
  vreg  : Nat
  elems : List (Nat × W64)
  first : Bool
  deriving DecidableEq, Repr

/-- A core's access of one virtual address: the state that it runs under, and the address. -/
structure CoreAt where
  ctl : CoreCtl
  va  : W64
  deriving DecidableEq, Repr

/-- A drain of a store buffer: the hart, the entry of its buffer, and the 8-byte words of that entry that leave, as a mask. -/
structure DrainArgs where
  hart  : Nat
  entry : Nat
  words : Nat
  deriving DecidableEq, Repr

/-- Which output packet commits and where (R317): the mover unit that wrote it, and the home. -/
structure CommitAt where
  mu   : Nat
  home : Nat
  deriving DecidableEq, Repr

/-- A place in the function's address space (R498): the BAR and the byte offset in it. -/
structure BarAt where
  bar : Nat
  off : Nat
  deriving DecidableEq, Repr

/-- Whether the key of a staged image and its signature are good. -/
structure ImageChecks where
  keyOk : Bool
  sigOk : Bool
  deriving DecidableEq, Repr

/-- The fields of one vector instruction word (spec/05 Table 5-4) on unit `vu` of CE number `ce` (R292). -/
structure VuArgs where
  ce  : Nat
  vu  : Nat
  fmt : Nat
  dst : Nat
  sa  : Nat
  sb  : Nat
  sc  : Nat
  imm : Nat
  deriving DecidableEq, Repr

/-- The fields of one mover descriptor (spec/05 Table 5-3) on mover `mu` of CE number `ce`. -/
structure MuArgs where
  ce      : Nat
  mu      : Nat
  operand : Nat
  flags   : Nat
  offset  : Nat
  counts  : List Nat
  strides : List Int
  deriving DecidableEq, Repr

/-- One address-generator descriptor (spec/05 Table 5-2); `counts` are Count0 to Count3 of R178, the COUNT fields plus 1. -/
structure AgArgs where
  ce      : Nat
  su      : Nat
  isWrite : Bool
  base    : Nat
  hold    : Bool
  counts  : List Nat
  strides : List Int
  deriving DecidableEq, Repr

/-- The STATE byte and the naming fields of a sync control flit (spec/16 Table 16-8). -/
structure SyncInfo where
  synced    : Bool
  master    : Bool
  candidate : Bool
  holdover  : Bool
  masterNode : Nat
  hops      : Nat
  deriving DecidableEq, Repr

/-- An exact record on a carrier that marks the form of each (spec/07 R268 to R270): the 80 bytes of the full form, or the 24 bytes
of Table 7-6. -/
inductive WireRec where
  | full (r : Rec)
  | short (b : BitVec 192)
  deriving DecidableEq, Repr

/-- A Proilad message: head (spec/16 Table 16-4) and payload. `recs` are the records that a COL_HEAD carries. -/
structure Msg where
  op       : Nat
  cls      : Nat
  vc       : Nat
  rdClass  : Nat
  replayed : Bool
  poison   : Bool
  dest     : Nat
  src      : Nat
  hops     : Nat
  arg      : Nat
  window   : Nat
  offset   : Nat
  tag      : Nat
  payload  : Item
  recs     : List WireRec
  deriving DecidableEq, Repr

/-- The header of a flit as it arrives (spec/16 Table 16-3), with the messages of its slots. -/
structure Flit where
  seq     : Nat
  ackSeq  : Nat
  ackNak  : Nat
  kind    : Nat
  crSel   : Nat
  crValid : Bool
  credit  : Nat
  slots   : List Msg
  deriving DecidableEq, Repr

/-- What an error record carries beside its code (spec/18 Table 18-2). -/
structure ErrArgs where
  code     : Nat
  unit     : Nat
  addrKind : Nat
  addr     : Nat
  detail   : Nat
  deriving DecidableEq, Repr

/-- An image as it is checked (spec/19 Table 19-8): its header's fields, `reserved` the reserved bytes taken together; whether
SHA-384 of its PUBLIC_KEY is the fused hash of its KEY_SLOT, and whether its signature verifies. -/
structure ImageInfo where
  magic      : Nat
  kind       : Nat
  keySlot    : Nat
  secVersion : Nat
  flags      : Nat
  revokeMask : Nat
  reserved   : Nat
  bodySize   : Nat
  version    : Nat
  entry      : Nat
  keyOk      : Bool
  sigOk      : Bool
  deriving DecidableEq, Repr

/-- An entry of the boot flash directory (spec/19 R678): offset, size, CRC-32, and its last 4 bytes. -/
structure FlashEntry where
  offset : Nat
  size   : Nat
  crc    : Nat
  pad    : Nat
  deriving DecidableEq, Repr

/-- The boot flash as the boot ROM finds it (spec/19 R678): whether SFDP lists the 1-1-4 and 1-4-4 read modes, the directory's
entries, and its CRC-32. -/
structure FlashDir where
  quadOut : Bool
  quadIo  : Bool
  entries : List FlashEntry
  crc     : Nat
  deriving DecidableEq, Repr

/-- The images of the two slots of boot flash (R678). -/
structure FlashSlots where
  slotA : ImageInfo
  slotB : ImageInfo
  deriving DecidableEq, Repr

/-- One DDR channel as found at training (spec/11 R393 to R395). -/
structure DdrChannel where
  dimms : Nat
  gib   : Nat
  partNo : Nat
  trained : Bool
  deriving DecidableEq, Repr

/-- The core atomics (spec/13 R457): the RISC-V AMO operations, LR and SC. -/
inductive AmoOp where
  | swap | add | xor | and | or | min | max | minu | maxu | lr | sc
  deriving DecidableEq, Repr

/-- The commands: one constructor per row of the table, in its order. -/
inductive Instr where
  -- pace and datum (spec/02)
  | datumTick
  | railVoltageChange (rail mv pace : Nat)
  | floorHalt (sheet : Nat)
  | floorResume (sheet : Nat)
  | fixedPaceWrite (rq : Requester) (value : W32)
  | fixedPaceSettled
  | paceStatusRefresh (die mv tj pace : Nat) (byLimit : Bool)
  | refclkLost
  | refclkRestored
  | syncExchange
  | syncReq (port : Nat) (info : SyncInfo) (t1 arrival : Nat)
  | syncRsp (port : Nat) (info : SyncInfo) (t1 t2 t3 t4 : Nat)
  | syncTimeout
  | dtSet (rq : Requester) (width : Nat) (value : W64)
  | dtControlWrite (rq : Requester) (value : W32)
  | capture (rq : Requester) (value : W32)
  | lowHalfRead (rq : Requester) (off : Nat)
  | latchRelease (off : Nat)
  -- queues and credits (spec/03)
  | itemSend (path : Nat) (item : Item) (first last : Bool)
  | itemRemove (path : Nat)
  | creditUpdateSend (path : Nat)
  | creditUpdateRepeat (path : Nat)
  | creditUpdate (path u : Nat) (good : Bool)
  | queueArbitration (path : Nat) (pop : Bool) (pushes : List (Nat × Item))
  | packetCommit (path : Nat) (good : Bool)
  | packetRewind (path : Nat)
  | outputPacketCommit (ce mu : Nat)
  | queuePop (rq : Requester) (off width : Nat)
  | softwarePush (rq : Requester) (queue : Nat) (item : Item)
  | queuePush (queue : Nat) (words : List W64)
  | spillControlWrite (rq : Requester) (ctx ring : Nat) (value : W64)
  | spillWrite (ctx ring : Nat)
  | spillRefill (ctx ring : Nat)
  -- register pages and the field book (spec/04)
  | registerWrite (rq : Requester) (off width : Nat) (value : W64)
  | claim (rq : Requester) (page : Nat) (value : W32)
  | release (rq : Requester) (page : Nat) (value : W32)
  | handover (rq : Requester) (page : Nat) (value : W32)
  | resetUnit (rq : Requester) (page : Nat) (value : W32)
  | quiesce (rq : Requester) (page : Nat) (value : W32)
  | enable (rq : Requester) (page : Nat) (value : W32)
  | blockDrained (page : Nat)
  | eventWindowWrite (rq : Requester) (page : Nat) (value : W32)
  | limitSlotWrite (rq : Requester) (limit slot : Nat) (value : W32)
  | fbRequest (rq : Requester) (off : Nat) (value : W32)
  | fbRequestDone (written : Bool)
  -- scratch units, movers and vector units (spec/05)
  | agDescriptor (d : AgArgs)
  | muNop (d : MuArgs)
  | load (d : MuArgs)
  | store (d : MuArgs)
  | loadExact (d : MuArgs)
  | storeExact (d : MuArgs)
  | prefetch (d : MuArgs)
  | vuNop (i : VuArgs)
  | vuAdd (i : VuArgs)
  | vuSub (i : VuArgs)
  | vuMul (i : VuArgs)
  | vuFma (i : VuArgs)
  | vuFms (i : VuArgs)
  | vuMin (i : VuArgs)
  | vuMax (i : VuArgs)
  | vuAbs (i : VuArgs)
  | vuNeg (i : VuArgs)
  | vuRcp (i : VuArgs)
  | vuRsqrt (i : VuArgs)
  | vuSqrt (i : VuArgs)
  | vuExp2 (i : VuArgs)
  | vuLog2 (i : VuArgs)
  | vuTanh (i : VuArgs)
  | vuSigmoid (i : VuArgs)
  | vuGelu (i : VuArgs)
  | vuSilu (i : VuArgs)
  | vuSinpi (i : VuArgs)
  | vuCospi (i : VuArgs)
  | vuLdexp (i : VuArgs)
  | vuCmplt (i : VuArgs)
  | vuCmple (i : VuArgs)
  | vuCmpeq (i : VuArgs)
  | vuSel (i : VuArgs)
  | vuCvtBf16 (i : VuArgs)
  | vuCvtFp16 (i : VuArgs)
  | vuCvtFp8 (i : VuArgs)
  | vuCvtFp4 (i : VuArgs)
  | vuCvtInt8 (i : VuArgs)
  | vuCvtI2f (i : VuArgs)
  | vuCvtF2i (i : VuArgs)
  | vuWiden (i : VuArgs)
  | vuMxscale (i : VuArgs)
  | vuRsum (i : VuArgs)
  | vuRmax (i : VuArgs)
  | vuRmin (i : VuArgs)
  | vuMov (i : VuArgs)
  | vuBcast (i : VuArgs)
  | vuShuf (i : VuArgs)
  | vuPack (i : VuArgs)
  | vuUnpack (i : VuArgs)
  | vuIadd (i : VuArgs)
  | vuImul (i : VuArgs)
  | vuAnd (i : VuArgs)
  | vuOr (i : VuArgs)
  | vuXor (i : VuArgs)
  | vuShl (i : VuArgs)
  | vuShr (i : VuArgs)
  -- sequencer words (spec/05 Table 5-7)
  | sqNop (ce : Nat)
  | sqEnd (ce : Nat)
  | sqPhase (ce phase : Nat)
  | sqLoop (ce target count : Nat)
  | sqFold (ce : Nat)
  | loadBarrier (ce : Nat)
  | storeBarrier (ce : Nat)
  | fullBarrier (ce : Nat)
  | waitIdle (ce : Nat)
  -- octet words and array events (spec/06)
  | octetNop (ce oct : Nat)
  | octetFormat (ce oct fa fb : Nat) (axis sharedA sharedB : Bool)
  | project (ce oct : Nat)
  | loadSr (ce oct bank : Nat)
  | pass (ce oct slot step bank : Nat) (drain : Bool) (len : Nat)
  | octetMask (ce oct mask : Nat)
  | drainIntervalExpiry (ce array : Nat)
  | feedStallStop (ce oct : Nat)
  | feedRestart (ce oct : Nat)
  | roundEnd (ce : Nat)
  | foldBoundary (ce : Nat)
  -- long store words (spec/07 Table 7-3)
  | lsNop (ce : Nat)
  | outfmt (ce fmt rounding : Nat) (sat : Bool) (shift : Int)
  | emit (ce port : Nat) (exact : Bool) (first count : Nat) (pair : Bool)
  | accept (ce port first count : Nat)
  | lsClear (ce first count : Nat)
  | lsAuto (ce port : Nat) (exact pair : Bool)
  -- CE control (spec/05)
  | ceAbort (rq : Requester) (ce : Nat) (value : W32)
  | internalAbort (ce cause : Nat)
  | chartParamWrite (rq : Requester) (ce j : Nat) (value : W64)
  | chartImageArrived (ce slot : Nat)
  -- the queue manager (spec/08)
  | doorbell (rq : Requester) (ctx ring : Nat) (value : W32)
  | descriptorFetch (ctx ring : Nat)
  | commandTranslate (id : Nat)
  | commandDispatch
  | preempt (id : Nat)
  | commandResume (id : Nat)
  | bulkAgeExpiry (ctx ring : Nat)
  | completionWrite (id : Nat)
  | ringAbort (rq : Requester) (ctx ring : Nat) (value : W32)
  | ringRestart (rq : Requester) (ctx ring : Nat) (value : W32)
  | ringConfigWrite (rq : Requester) (ctx ring : Nat) (value : W32)
  | cqHeadWrite (rq : Requester) (ctx ring : Nat) (value : W32)
  | cmdNop (id : Nat)
  | chartLoad (id : Nat)
  | run (id : Nat)
  | moveTileCopy (id : Nat)
  | moveTileMove (id : Nat)
  | moveSwitch (id : Nat)
  | reduce (id : Nat)
  | allReduce (id : Nat)
  | reduceScatter (id : Nat)
  | semSignal (id : Nat)
  | semWait (id : Nat)
  | semWaitSatisfied (id : Nat)
  | semPoll (id : Nat)
  | barrier (id : Nat)
  | remoteFence (id : Nat)
  | invalidateL1 (id : Nat)
  -- cores (spec/09, spec/12)
  | coreLoad (hart : Nat) (ctl : CoreCtl) (va : W64) (size rd : Nat) (signed : Bool) (vec : Option VecArgs)
  | coreStore (hart : Nat) (ctl : CoreCtl) (va : W64) (size : Nat) (value : W64) (vreg : Nat) (elems : Option (List (Nat × W64)))
  | storeBufferDrain (d : DrainArgs)
  | coreAmo (hart : Nat) (ctl : CoreCtl) (op : AmoOp) (va : W64) (size rd : Nat) (value : W64) (rel : Bool)
  | fence (hart pred succ : Nat)
  | fenceTso (hart : Nat)
  | fenceI (hart : Nat)
  | sfenceVma (hart : Nat)
  | cboClean (hart : Nat) (acc : CoreAt)
  | cboFlush (hart : Nat) (acc : CoreAt)
  | cboInval (hart : Nat) (acc : CoreAt)
  | cboZero (hart : Nat) (acc : CoreAt)
  | corePrefetch (hart : Nat) (acc : CoreAt) (kind : Nat)
  -- L1 and SLM (spec/10)
  | lineReturn (ce line : Nat)
  | l1Invalidate (rq : Requester) (ce : Nat) (value : W32)
  | slmPinClear (rq : Requester) (slice : Nat) (value : W32)
  | partitionWrite (rq : Requester) (quad : Nat) (value : W32)
  | partitionChangeDone (quad : Nat)
  | add64 (pa : Nat) (value : W64)
  | set64 (pa : Nat) (value : W64)
  | watch (pa id : Nat)
  | radd (pa : Nat) (record : Rec)
  -- memory controllers (spec/11)
  | hbmRequestServe (ctl pc : Nat)
  | refresh (ctl pc bank : Nat)
  | refreshRateChange (ctl temp : Nat)
  | ddrTrainingDone (chans : List DdrChannel)
  | epochEnd (ctl : Nat)
  -- hart control and interrupts (spec/12)
  | hold (rq : Requester) (cluster : Nat) (value : W32)
  | hartHeld (hart : Nat)
  | start (rq : Requester) (cluster : Nat) (value : W32)
  | ccMsgSend (rq : Requester) (cluster : Nat) (value : W32)
  | ccMsgSendM (rq : Requester) (cluster : Nat) (value : W32)
  | aplicAccess (rq : Requester) (isWrite : Bool) (value : W32)
  -- coherence (spec/13)
  | rdShared (hart pa : Nat)
  | rdOwn (hart pa : Nat)
  | upgrade (hart pa : Nat)
  | wrBack (hart pa : Nat)
  | rdCur (pa : Nat)
  | wrLine (ce mu pa : Nat) (data : Item) (poison : Bool)
  | commit (ce : Nat) (dest : CommitAt)
  | atom (pa op : Nat) (value : W64)
  | snpShare (hart pa : Nat)
  | snpInv (hart pa : Nat)
  | snpClean (hart pa : Nat)
  | lrSnoopDelayExpiry (hart : Nat)
  | filterEvictionRecall (pa : Nat)
  | bisnpInv (pa : Nat)
  | bisnpData (pa : Nat)
  | birsp (pa : Nat) (wb : Option Item)
  | hostSnoopTimeout (pa : Nat)
  | hostMemRead (hpa : Nat) (cacheIt : Bool)
  | hostMemWrite (hpa : Nat) (data : Item) (mask : W64)
  | hostSnoop (hpa : Nat)
  | hostPacketCommit (ce mu : Nat)
  | meridianDown (n : Nat)
  | bridgeDown (kind n dir : Nat)
  | bridgeLaneSpare (kind n dir lane : Nat)
  -- translation and windows (spec/14)
  | atsCompletion (ctx page : Nat) (granted writable : Bool) (hpa : Nat)
  | priResponse (ctx page code : Nat)
  | atsInvalidate (pasid page pages tag : Nat)
  | invalidateCompletion (tag : Nat)
  | xlInvGo (rq : Requester) (value : W32)
  | xlInvDone
  | xlFaultResume (rq : Requester) (value : W32)
  | xlCtxConfigWrite (rq : Requester) (ctx : Nat) (value : W32)
  | xlCtsControlWrite (rq : Requester) (value : W64)
  | windowEntryWrite (rq : Requester) (landing : Bool) (idx word : Nat) (value : W64)
  | landingCheck (m : Msg)
  | reportRecord (cause window tag : Nat) (source : Nat) (offset : Nat)
  | windowNoAnswer (tag : Nat)
  -- the host link (spec/15)
  | linkTraining (cxl rate width : Nat)
  | linkRetrain (width : Nat) (kept : Bool)
  | configRequest (isWrite : Bool) (off : Nat) (value : W32)
  | bar0Access (isWrite : Bool) (place : BarAt) (bytes : Nat) (value : W64)
  | msixVectorUnmask (vec : Nat)
  | hdmCommit (base size : Nat)
  | insetMove (rq : Requester) (value : W32)
  | insetMoveDone
  | flr
  | ltrMessage
  | perst (kind : Nat)
  | cfgRead (rq : Requester) (data : W32) (status : Nat)
  | cfgWrite (rq : Requester) (value : W32)
  | rpMmioRead (rq : Requester) (width : Nat) (data : W64)
  | rpMmioWrite (rq : Requester) (width : Nat) (value : W64)
  | rpMmioTimeout
  | cfgRetryTimeout
  | inboundRequest (isWrite : Bool) (addr bytes : Nat) (data : Item)
  | inboundMsi (addr bytes : Nat) (data : W32)
  | intxMessage (pin : Nat) (assert : Bool)
  | spdmGetVersion
  | spdmGetCapabilities
  | spdmNegotiateAlgorithms (offersP384 : Bool)
  | spdmGetDigests
  | spdmGetCertificate (slot : Nat)
  | spdmChallenge (slot : Nat)
  | spdmGetMeasurements (index : Nat)
  | spdmKeyExchange (reqId : Nat)
  | spdmFinish (session : Nat) (macGood : Bool)
  | spdmKeyUpdate (session : Nat)
  | spdmHeartbeat (session : Nat)
  | spdmEndSession (session : Nat)
  | ideKm (session stream op : Nat)
  | ideCheck (stream : Nat) (cachemem : Bool)
  -- Proilad links and the router (spec/16)
  | portTraining (port badTx badRx node partnerPort vmax vmin features rtt : Nat)
  | flitReceive (port : Nat) (f : Flit) (crcGood : Bool)
  | nakReplay (port ackSeq : Nat)
  | replayTimeout (port : Nat)
  | ackSend (port : Nat)
  | proiladCreditUpdate (port cls vc : Nat)
  | laneLockLoss (port dir lane : Nat)
  | laneDrop (port lane : Nat)
  | laneAdd (port dir lane : Nat)
  | laneRelock (port dir lane : Nat)
  | linkDown (port cause : Nat)
  | flitSilence (port : Nat)
  | portUnusable (port : Nat)
  | routeMessage (inPort : Nat) (m : Msg)
  | proiladRd (m : Msg)
  | proiladWr (m : Msg)
  | proiladWr8 (m : Msg)
  | proiladAtom (m : Msg)
  | rdata (m : Msg)
  | wrack (m : Msg)
  | colHead (m : Msg)
  | svcWr (m : Msg)
  | portButtonPress (port : Nat)
  | drain (port : Nat)
  | portDrained (port : Nat)
  | drainTimeout (port : Nat)
  | drainCancel (port : Nat)
  | plControlDrain (rq : Requester) (port : Nat) (value : W32)
  | plControlCancel (rq : Requester) (port : Nat) (value : W32)
  | plControlDisable (rq : Requester) (port : Nat) (value : W32)
  | cableRemoved (port : Nat)
  | cableInserted (port : Nat)
  | bearingWrite (rq : Requester) (value : W32)
  | nodeIdWrite (rq : Requester) (value : W32)
  | groupEntryWrite (rq : Requester) (g word : Nat) (value : W64)
  | colStepSend (id : Nat)
  | ringPhaseEnd (id : Nat)
  | ringPhaseTimeout (id : Nat)
  -- power, limits and the mailbox (spec/17)
  | voltageWrite (rail : Nat)
  | railTelemetry (rail mv amps : Nat) (settled good : Bool)
  | powerMeasure (us1 ms1 : Nat)
  | modelCalibrate
  | budgetRecompute (hbmW linkW hostW procW : Nat)
  | thermalThrottle (die tj : Nat)
  | hbmThrottle (stack temp : Nat)
  | thermalTrip (sensor : Nat)
  | thermalTripClear (hottest : Nat)
  | coolantLoss
  | flowRise
  | pwrSafeHoldResume (rq : Requester) (value : W32)
  | resumeComplete
  | contourClear (rq : Requester) (value : W32)
  | setPersonality (page : Nat) (arg : W64)
  | setPowerCap (page : Nat) (arg : W64)
  | setPaceCeiling (page : Nat) (arg : W64)
  | setThermalLimit (page : Nat) (arg : W64)
  | lowerPowerCeiling (page : Nat) (arg : W64)
  | setFixedPace (page : Nat) (arg : W64)
  | safeHoldResume (page : Nat) (arg : W64)
  | contourControl (page : Nat) (arg : W64)
  | unknownMailboxCommand (page cmd : Nat) (arg : W64)
  -- faults, sparing, service (spec/18)
  | errorLog (page : Nat) (e : ErrArgs)
  | windowEnd (page : Nat)
  | hubWatchdog (ce : Nat)
  | ceLost (ce cause : Nat)
  | surveyComplete (page failing : Nat)
  | channelSpare (stack chan : Nat)
  | channelFence (stack chan : Nat)
  | replicaRepair (pa : Nat)
  | replicaCopyArrived (pa : Nat) (data : Item) (cause : Nat)
  | replicaCommit (rq : Requester) (sheet : Nat) (value : W64)
  | stage (rq : Requester) (value : W32) (checks : ImageChecks)
  | stageDone (flashOk : Bool)
  | activate (rq : Requester) (value : W32)
  | newImageHealthy
  | fwRollback
  -- power-up, reset and readiness (spec/19)
  | coldPowerUp (dir : FlashDir) (slots : FlashSlots)
  | powerLoss (auxHeld : Bool)
  | railLoss (cause : Nat)
  | pkgOnRise
  | pkgOnFall
  | sequencerStep (kernelImg : ImageInfo)
  | descendingStep
  | flashRequest
  | flashRelease
  -- waypoints and traces (spec/20)
  | stallBegin (page port who : Nat)
  | stallEnd (page port who beats ns : Nat)
  | traceRecordWrite (tr : Nat)
  | traceEnable (rq : Requester) (tr : Nat) (value : W32)
  | trBufferWrite (rq : Requester) (tr : Nat) (value : W64)
  | trConsumedWrite (rq : Requester) (tr : Nat) (value : W64)
  -- test access (spec/20 Table 20-8)
  | tapBypass (die : Nat)
  | tapIdcode (die : Nat)
  | tapSamplePreload (die : Nat)
  | tapExtest (die : Nat)
  | tapClamp (die : Nat)
  | tapHighz (die : Nat)
  | tapWrapper (die opcode : Nat)
  | tapHbmWsp (die : Nat)
  -- operator signals and the sideband (spec/21)
  | sgpioFrame (bits : BitVec 24)
  | sgpioFault
  | pkgButtonPress
  | read32 (off : Nat)
  | read64 (off : Nat)
  | status
  | seqRequest (arg : Nat)
  -- events that end what other commands began
  | flrComplete
  | hbmTrainingDone (stack : Nat)
  | drainFlitRepeat (port : Nat)
  | drainCancelFlit (port : Nat)
  | drainRefusedFlashEnd (port : Nat)
  | i3cBroadcast
  | hdmUncommit
  | wfi (hart : Nat)
  deriving DecidableEq, Repr

end Sys2Proof
end

