-- ==== Sys2Proof/Config.lean ====
section
/-! DEFINITION. The free values of the model: values that the spec leaves open, as constants without a body. A use
applies one to the operands it depends on or to the model's own counter `Pkg.free`. -/

namespace Sys2Proof

/-- A fresh value the spec does not state, for the n-th such use (log entry 3). -/
opaque Config.freeWord : Nat → W64

/-- The byte that a byte of HBM or DDR reads as while nothing has written it since the package power-up (R664). -/
opaque Config.unwritten : Nat → Byte

/-- The depth of a credited path's receiver queue, which the spec bounds by 2 to 4,096 items (R126) and gives for few
paths. -/
opaque Config.pathDepthRaw : Nat → Nat

/-- The depth of a path whose least depth is `lo`, within the bounds of R126. -/
def Config.pathDepth (lo n : Nat) : Nat := lo + Config.pathDepthRaw n % (4097 - lo)

/-- A vector unit's choice, by opcode and input lane, among the results that R188 allows a fixed function: the same bits for
the same input. -/
opaque Config.vuFunction : Nat → W32 → W32

/-- The E8M0 scale that MXSCALE gives a block of 32 elements for a target format: the spec states no formula. -/
opaque Config.mxScale : Nat → Item → Item → Byte

/-- The set of an SLM slice that a line falls in; the spec gives the slice 2,048 sets and no index. -/
opaque Config.slmSet : Nat → Nat

/-- The bank and row of a DDR line: the controller spreads lines "by its own decode" (R394). -/
opaque Config.ddrRow : Nat → Nat

/-- A digest the spec names without computing it here: a CRC-32 or SHA-384 over data outside the model. -/
opaque Config.digest : Nat → Nat → W64

/-- The processor die's fused leakage in mW at 0.75 V and 65 °C (R595), for which the spec gives no figure. -/
opaque Config.procLeak : Nat

/-- The Subsystem ID of boot flash's system configuration (Table 15-2); the flash content is outside the model. -/
opaque Config.subsystemId : Nat

/-- The 64-bit serial number in the fuses (Table 15-3). -/
opaque Config.serial : Nat

/-- An entry of the CDAT table that the DOE answers (Table 15-3) and the handle of the next: the spec does not give its content. -/
opaque Config.cdat : Nat → Nat × List W32

end Sys2Proof
end

