-- ==== Sys2Proof/Machine/Flags.lean ====
section
/-! DEFINITION. Number formats, the one rounding, special values and the stochastic generator (spec/07). The package has
no condition flags; what a conversion reports beside its bits is the special tag (R248). -/

namespace Sys2Proof.Machine

/-- An element format (Table 7-1): significand width with the hidden bit, exponent field, bias, and whether it has
infinities and NaNs. -/
structure Fmt where
  code    : Nat
  p       : Nat
  expBits : Nat
  bias    : Nat
  hasInf  : Bool
  hasNan  : Bool
  deriving DecidableEq, Repr

/-- The format of a code of Table 7-4 (and of Table 6-2 for its plain formats); INT8 is code 5. -/
def fmtOf (code : Nat) : Fmt :=
  match code with
  | 0 => ⟨0, 2, 2, 1, false, false⟩
  | 1 => ⟨1, 4, 2, 1, false, false⟩
  | 2 => ⟨2, 3, 3, 3, false, false⟩
  | 3 => ⟨3, 4, 4, 7, false, true⟩
  | 4 => ⟨4, 3, 5, 15, true, true⟩
  | 6 => ⟨6, 8, 8, 127, true, true⟩
  | 7 => ⟨7, 11, 5, 15, true, true⟩
  | 8 => ⟨8, 24, 8, 127, true, true⟩
  | _ => ⟨5, 8, 0, 0, false, false⟩

def Fmt.manBits (f : Fmt) : Nat := f.p - 1
def Fmt.bits (f : Fmt) : Nat := if f.code = 5 then 8 else 1 + f.expBits + f.manBits
/-- The unbiased exponent of the smallest normal binade. -/
def Fmt.emin (f : Fmt) : Int := 1 - (f.bias : Int)
/-- The unbiased exponent of the largest normal binade. -/
def Fmt.emax (f : Fmt) : Int :=
  (2 ^ f.expBits - 1 : Nat) - (f.bias : Int) - (if f.hasInf then 1 else 0)
/-- The largest significand in the top binade: E4M3's all-ones significand is its NaN. -/
def Fmt.topSig (f : Fmt) : Nat := if f.code = 3 then 14 else 2 ^ f.p - 1
/-- log2 of the format's unit (R242). -/
def Fmt.unit (f : Fmt) : Int := if f.code = 5 then 0 else f.emin - (f.manBits : Int)

/-- The special tag (R248): 0 finite, 1 +Inf, 2 −Inf, 3 NaN, 4 range NaN (R252). -/
structure Elem where
  tag : Nat
  m   : Int
  deriving DecidableEq, Repr

/-- An encoding as an integer multiple of its format's unit, or its special tag (R242). -/
def decodeElem (f : Fmt) (b : Nat) : Elem :=
  if f.code = 5 then ⟨0, (BitVec.ofNat 8 b).toInt⟩
  else
    let man := b % 2 ^ f.manBits
    let e := b / 2 ^ f.manBits % 2 ^ f.expBits
    let neg := b / 2 ^ (f.manBits + f.expBits) % 2 = 1
    if f.hasInf ∧ e = 2 ^ f.expBits - 1 then (if man = 0 then ⟨if neg then 2 else 1, 0⟩ else ⟨3, 0⟩)
    else if f.code = 3 ∧ e = 15 ∧ man = 7 then ⟨3, 0⟩
    else
      let v : Int := if e = 0 then (man : Int) else ((2 ^ f.manBits + man) * 2 ^ (e - 1) : Nat)
      ⟨0, if neg then -v else v⟩

/-! ## The stochastic generator (R265) -/

def mix (z : W64) : W64 :=
  let z := (z ^^^ (z >>> 31)) * 0x8F3A61C5D2B74E19#64
  let z := (z ^^^ (z >>> 29)) * 0x5B1DE94FA36C07B3#64
  z ^^^ (z >>> 32)

/-- The four inputs of the generator but the element index (R267). -/
structure GenSeed where
  seed     : W64
  layer    : Nat
  operator : Nat
  deriving DecidableEq, Repr

def gen (g : GenSeed) (idx : Nat) : Nat :=
  let h := mix g.seed
  let h := mix (h ^^^ BitVec.ofNat 64 g.layer)
  let h := mix (h ^^^ (BitVec.ofNat 64 g.operator <<< 16))
  let h := mix (h ^^^ BitVec.ofNat 64 idx)
  (h >>> 32).toNat

/-! ## Rounding once (R261 to R263) -/

/-- Rounding modes: 0 nearest-even, 1 stochastic, 2 toward zero. -/
def applyRound (q low k mode : Nat) (g : GenSeed) (idx : Nat) : Nat :=
  if low = 0 then q
  else if mode = 0 then
    if 2 ^ (k - 1) < low ∨ (low = 2 ^ (k - 1) ∧ q % 2 = 1) then q + 1 else q
  else if mode = 1 then
    if gen g idx < low * 2 ^ 32 / 2 ^ k then q + 1 else q
  else q

/-- `split` of R261 with a signed shift. -/
def splitAt (a : Nat) (k : Int) : Nat × Nat × Nat :=
  if k ≤ 0 then (a * 2 ^ (-k).toNat, 0, 0) else (a / 2 ^ k.toNat, a % 2 ^ k.toNat, k.toNat)

def canonicalNan (f : Fmt) : Nat :=
  match f.code with
  | 8 => 0x7FC00000
  | 6 => 0x7FC0
  | 7 => 0x7E00
  | 4 => 0x7E
  | 3 => 0x7F
  | _ => 0

def signBit (f : Fmt) (neg : Bool) : Nat := if neg then 2 ^ (f.bits - 1) else 0

/-- The largest finite encoding with a sign. -/
def maxFinite (f : Fmt) (neg : Bool) : Nat :=
  if f.code = 5 then (if neg then 0x80 else 0x7F)
  else signBit f neg +
    ((f.emax + f.bias).toNat * 2 ^ f.manBits + (f.topSig - 2 ^ f.manBits))

def infinityOf (f : Fmt) (neg : Bool) : Nat := signBit f neg + (2 ^ f.expBits - 1) * 2 ^ f.manBits

/-- Overflow (Table 7-5). -/
def overflowOf (f : Fmt) (neg : Bool) (mode : Nat) (sat : Bool) : Nat :=
  if f.hasInf && !sat && mode != 2 then infinityOf f neg else maxFinite f neg

/-- Special values (Table 7-5). -/
def specialOf (f : Fmt) (tag : Nat) (sat : Bool) : Nat :=
  if 3 ≤ tag then canonicalNan f
  else if f.hasInf && !sat then infinityOf f (tag == 2) else maxFinite f (tag == 2)

/-- The value ±a × 2^e converted to a format in one rounding (R261). -/
def roundTo (f : Fmt) (neg : Bool) (a : Nat) (e : Int) (mode : Nat) (sat : Bool) (g : GenSeed) (idx : Nat) : Nat :=
  if a = 0 then 0
  else if f.code = 5 then
    let (q, low, k) := splitAt a (-e)
    let q := min (applyRound q low k mode g idx) (127 + bitNat neg)
    (if neg then 256 - q else q) % 256
  else
    let ex := max ((Nat.log2 a : Int) + e) f.emin
    let (q, low, k) := splitAt a (ex - f.p + 1 - e)
    let q := applyRound q low k mode g idx
    let (q, ex) := if q = 2 ^ f.p then (2 ^ (f.p - 1), ex + 1) else (q, ex)
    if f.emax < ex ∨ (ex = f.emax ∧ f.topSig < q) then overflowOf f neg mode sat
    else if q < 2 ^ (f.p - 1) then signBit f neg + q
    else signBit f neg + ((ex + f.bias).toNat * 2 ^ f.manBits + (q - 2 ^ (f.p - 1)))

/-- An element value m × 2^e, or a special, converted (R261, R263). -/
def convert (f : Fmt) (x : Elem) (e : Int) (mode : Nat) (sat : Bool) (g : GenSeed) (idx : Nat) : Nat :=
  if x.tag ≠ 0 then specialOf f x.tag sat else roundTo f (decide (x.m < 0)) x.m.natAbs e mode sat g idx

def noSeed : GenSeed := ⟨0, 0, 0⟩

/-! ## FP32 arithmetic (R186) -/

def fp32 : Fmt := fmtOf 8
def bf16 : Fmt := fmtOf 6
def nan32 : W32 := 0x7FC00000

def dec32 (x : W32) : Elem := decodeElem fp32 x.toNat
def isNan32 (x : W32) : Bool := (dec32 x).tag == 3
def neg32 (x : W32) : Bool := bitOf x 31

/-- A finite value m × 2^e rounded to FP32 by nearest-even, with the sign given for an exact zero. -/
def enc32 (m : Int) (e : Int) (zeroNeg : Bool) : W32 :=
  if m = 0 then BitVec.ofNat 32 (signBit fp32 zeroNeg)
  else BitVec.ofNat 32 (roundTo fp32 (decide (m < 0)) m.natAbs e 0 false noSeed 0)

def inf32 (neg : Bool) : W32 := BitVec.ofNat 32 (infinityOf fp32 neg)

/-- The sum of two tags where at least one is special (R248): NaN absorbs, opposite infinities give NaN. -/
def addTags (a b : Nat) : Nat :=
  if a = 4 ∨ b = 4 then 4 else if a = 3 ∨ b = 3 then 3
  else if a = 0 then b else if b = 0 then a else if a = b then a else 3

def tag32 (t : Nat) : W32 := if t = 1 then inf32 false else if t = 2 then inf32 true else nan32

/-- a + b (R186). -/
def fAdd (a b : W32) : W32 :=
  let x := dec32 a
  let y := dec32 b
  if x.tag ≠ 0 ∨ y.tag ≠ 0 then tag32 (addTags x.tag y.tag)
  else enc32 (x.m + y.m) (-149) (x.m == 0 && y.m == 0 && neg32 a && neg32 b)

def fNeg (a : W32) : W32 := if isNan32 a then nan32 else a ^^^ 0x80000000
def fAbs (a : W32) : W32 := if isNan32 a then nan32 else a &&& 0x7FFFFFFF
def fSub (a b : W32) : W32 := if isNan32 b then nan32 else fAdd a (b ^^^ 0x80000000)

/-- The tag of a product: NaN input, or an infinity by zero, gives NaN; an infinity by a nonzero value keeps the sign of
the product (R248). -/
def mulTag (x y : Elem) (nx ny : Bool) : Nat :=
  if x.tag = 3 ∨ y.tag = 3 then 3
  else if x.tag = 0 ∧ y.tag = 0 then 0
  else if (x.tag = 0 ∧ x.m = 0) ∨ (y.tag = 0 ∧ y.m = 0) then 3
  else if nx != ny then 2 else 1

def fMul (a b : W32) : W32 :=
  let x := dec32 a
  let y := dec32 b
  let t := mulTag x y (neg32 a) (neg32 b)
  if t ≠ 0 then tag32 t else enc32 (x.m * y.m) (-298) (neg32 a != neg32 b)

/-- a × b + c, rounded once (R186). -/
def fFma (a b c : W32) : W32 :=
  let x := dec32 a
  let y := dec32 b
  let z := dec32 c
  let t := mulTag x y (neg32 a) (neg32 b)
  if t ≠ 0 ∨ z.tag ≠ 0 then tag32 (addTags t z.tag)
  else enc32 (x.m * y.m + z.m * 2 ^ 149) (-298)
    (x.m * y.m == 0 && z.m == 0 && (neg32 a != neg32 b) && neg32 c)

def fFms (a b c : W32) : W32 := if isNan32 c then nan32 else fFma a b (c ^^^ 0x80000000)

/-- Orders two values that are not NaN: −1, 0 or 1; both infinities are beyond every finite value. -/
def cmp32 (a b : W32) : Int :=
  let x := dec32 a
  let y := dec32 b
  let v (e : Elem) : Int := if e.tag = 1 then 2 ^ 300 else if e.tag = 2 then -(2 ^ 300) else e.m
  if v x < v y then -1 else if v x = v y then 0 else 1

/-- The smaller value; of two zeros the negative one (IEEE 754 minimum); NaN if either is NaN. -/
def fMin (a b : W32) : W32 :=
  if isNan32 a || isNan32 b then nan32
  else if cmp32 a b = 0 then (if neg32 a then a else b) else if cmp32 a b < 0 then a else b

def fMax (a b : W32) : W32 :=
  if isNan32 a || isNan32 b then nan32
  else if cmp32 a b = 0 then (if neg32 a then b else a) else if cmp32 a b < 0 then b else a

/-- The integer square root, digit by digit from bit `n` down. -/
def isqrtFrom (x : Nat) (n : Nat) (acc : Nat) : Nat :=
  match n with
  | 0 => acc
  | n + 1 => if (acc + 2 ^ n) * (acc + 2 ^ n) ≤ x then isqrtFrom x n (acc + 2 ^ n) else isqrtFrom x n acc

/-- √a, correctly rounded (R188): the root of a × 2^(2j) with a sticky bit below it. -/
def fSqrt (a : W32) : W32 :=
  let x := dec32 a
  if x.tag = 3 then nan32
  else if x.tag = 0 ∧ x.m = 0 then a
  else if neg32 a then nan32
  else if x.tag = 1 then a
  else
    -- value = m × 2^-149 = (2 m × 2^202) × 2^-352; the root's unit is 2^-176
    let r := x.m.natAbs * 2 ^ 203
    let q := isqrtFrom r 260 0
    let sticky := if q * q = r then 0 else 1
    enc32 (2 * q + sticky : Nat) (-177) false

/-- An FP32 value rounded to BF16 by nearest-even, in the upper half of the lane (R187). -/
def toBf16Lane (x : W32) : W32 :=
  BitVec.ofNat 32 (convert bf16 (dec32 x) (-149) 0 false noSeed 0 * 65536)

/-- A zero of BF16 arithmetic keeps its sign; `convert` alone would give +0 (R244). -/
def roundBf16 (x : W32) : W32 := if x &&& 0x7FFFFFFF = 0 then x else toBf16Lane x

/-! ## Long accumulators (R251 to R253, R268) -/

/-- The value of a full exact record or long accumulator in units of 2 ^ −300; a pattern that is neither special nor in
the finite range is a range NaN. -/
def recElem (r : Rec) : Elem :=
  let v := r.toInt
  if v.natAbs < 2 ^ 636 then ⟨0, v⟩
  else if bitsOf r 633 0 = 0 ∧ bitsOf r 639 636 = 4 then ⟨bitsOf r 635 634 + 1, 0⟩
  else ⟨4, 0⟩

def elemRec (x : Elem) : Rec :=
  if x.tag = 0 then BitVec.ofInt 640 x.m else BitVec.ofNat 640 (2 ^ 638 + (x.tag - 1) * 2 ^ 634)

/-- Exact addition; a finite result that would reach 2 ^ 336 is a range NaN (R253). -/
def addElem (x y : Elem) : Elem :=
  if x.tag ≠ 0 ∨ y.tag ≠ 0 then ⟨addTags x.tag y.tag, 0⟩
  else if (x.m + y.m).natAbs < 2 ^ 636 then ⟨0, x.m + y.m⟩ else ⟨4, 0⟩

/-- A value m × 2 ^ e, or a special, added to a record. -/
def accAdd (r : Rec) (x : Elem) (e : Int) : Rec :=
  elemRec (addElem (recElem r) ⟨x.tag, x.m * 2 ^ (e + 300).toNat⟩)

/-- A full record as it is read in: a malformed one is the range NaN (R268). -/
def canonRec (r : Rec) : Rec := elemRec (recElem r)

/-! ## The short form (R269, R270) -/

/-- The number of trailing zero bits. -/
def trailingZeros (fuel v : Nat) : Nat :=
  match fuel with
  | 0 => 0
  | n + 1 => if v % 2 = 1 then 0 else 1 + trailingZeros n (v / 2)

/-- The anchor of a finite nonzero value. -/
def anchorOf (r : Rec) : Nat := min 480 (32 * (trailingZeros 640 r.toNat / 32))

/-- The bytes of Table 7-6: ANCHOR, WINDOW, FLAGS. -/
def shortBytes (anchor : Nat) (w : Int) (kind range : Nat) : BitVec 192 :=
  BitVec.ofNat 192 (anchor % 2 ^ 16 + (BitVec.ofInt 160 w).toNat * 2 ^ 16 + range * 2 ^ 189 + kind * 2 ^ 190)

/-- The short form of a record: zero and the special values always have one; a finite value where it is a multiple of 2 ^ ANCHOR and
the quotient fits 160 bits. -/
def shortOf (r : Rec) : Option (BitVec 192) :=
  let e := recElem r
  if e.tag ≠ 0 then some (shortBytes 0 0 (min e.tag 3) (if e.tag = 4 then 1 else 0))
  else if r = 0 then some (shortBytes 0 0 0 0)
  else
    let w := r.toInt / 2 ^ anchorOf r
    if -(2 ^ 159) ≤ w ∧ w < 2 ^ 159 ∧ w * 2 ^ anchorOf r = r.toInt then some (shortBytes (anchorOf r) w 0 0) else none

/-- A short record widened: V = W × 2 ^ ANCHOR, or its special value. An ANCHOR that Table 7-6 does not allow is taken as a range NaN,
as R268 takes a full record out of range (DEDUCED, log entry 98). -/
def widenShort (b : BitVec 192) : Rec :=
  match bitsOf b 191 190 with
  | 0 =>
    let a := bitsOf b 15 0
    if a % 32 = 0 ∧ a ≤ 480 then BitVec.ofInt 640 ((BitVec.ofNat 160 (bitsOf b 175 16)).toInt * 2 ^ a) else elemRec ⟨4, 0⟩
  | 1 => elemRec ⟨1, 0⟩
  | 2 => elemRec ⟨2, 0⟩
  | _ => elemRec ⟨if bitOf b 189 then 4 else 3, 0⟩

/-- The value of a record in either form. -/
def widenRec (w : WireRec) : Rec :=
  match w with
  | .full r => r
  | .short b => widenShort b

/-- A record as its sender puts it on a carrier: in short form where that is offered and the value fits (R270). -/
def carryRec (offer : Bool) (r : Rec) : WireRec :=
  match shortOf r with
  | some b => if offer then .short b else .full r
  | none => .full r

/-- A record on a link: in full form where the link lacks SHORT_RECORDS (R577). -/
def recOnLink (short : Bool) (w : WireRec) : WireRec := if short then w else .full (widenRec w)

end Sys2Proof.Machine
end

