-- ==== Sys2Proof/Machine/RegTable.lean ====
section
/-! DEFINITION. The control aperture: which block stands on which page (spec/22 Table 22-1), and each class's registers
with their widths, writable bits, write-one-to-clear bits and reset values (the register tables named by Table 22-3). -/

namespace Sys2Proof.Machine

/-- The block that a page belongs to: class, die and INSTANCE (Table 4-4), the page's index in the block, the block's
page count and its first page. -/
structure PageInfo where
  cls   : Nat
  die   : Nat
  inst  : Nat
  index : Nat
  count : Nat
  first : Nat
  deriving DecidableEq, Repr

/-- Bits [hi:lo] of a word set. -/
def msk (hi lo : Nat) : Nat := (2 ^ (hi + 1 - lo) - 1) * 2 ^ lo

def pgSv : Nat := 0
def pgPwr : Nat := 4
def pgDt : Nat := 5
def pgFb : Nat := 6
def pgOps : Nat := 7
def pgRt : Nat := 0x10
def pgPl (p : Nat) : Nat := 0x20 + p
def pgQm : Nat := 0x800
def pgXl : Nat := 0x840
def pgHl : Nat := 0x860
def pgDdr (c : Nat) : Nat := 0x870 + c
def pgMer (n : Nat) : Nat := 0x878 + n
def pgCc (k : Nat) : Nat := 0x880 + 2 * k
def pgTrP : Nat := 0x8A0
/-- B of Table 22-1. -/
def sheetBase (s : Nat) : Nat := 0x1000 + 0x200 * s
/-- The page of the CE whose number is 256 × sheet + 25 × q + p (R292). -/
def pgCe (n : Nat) : Nat := sheetBase (n / 256) + n % 256
/-- The page of quadrangle q of sheet s, numbered 8 × s + q. -/
def pgQd (n : Nat) : Nat := sheetBase (n / 8) + 0xD0 + n % 8
/-- The page of HBM controller i of sheet s, numbered as its stack 2 × s + i. -/
def pgHbm (n : Nat) : Nat := sheetBase (n / 2) + 0xD8 + n % 2
def pgGrt (s : Nat) : Nat := sheetBase s + 0xDA
/-- The page of trace block t: 0 to 3 on the sheets, 4 on the processor die. -/
def pgTr (t : Nat) : Nat := if t < 4 then sheetBase t + 0xDB else pgTrP
/-- The page of the SLM slice numbered 64 × sheet + INSTANCE. -/
def pgSl (n : Nat) : Nat := sheetBase (n / 64) + 0x100 + n % 64

/-- Whether a CE number names a built position. -/
def ceOk (n : Nat) : Bool := n / 256 < 4 && n % 256 < 200

/-- The quadrangle 8 × s + q that a CE belongs to. -/
def qdOfCe (n : Nat) : Nat := 8 * (n / 256) + n % 256 / 25

/-- The block of a page, by Table 22-1; none for an absent page. -/
def pageInfo (p : Nat) : Option PageInfo :=
  if p < 4 then some ⟨0x0B, 5, 0, p, 4, 0⟩
  else if p = 4 then some ⟨0x0C, 5, 0, 0, 1, 4⟩
  else if p = 5 then some ⟨0x10, 5, 0, 0, 1, 5⟩
  else if p = 6 then some ⟨0x11, 5, 0, 0, 1, 6⟩
  else if p = 7 then some ⟨0x13, 5, 0, 0, 1, 7⟩
  else if 0x10 ≤ p ∧ p < 0x18 then some ⟨0x0A, 5, 0, p - 0x10, 8, 0x10⟩
  else if 0x20 ≤ p ∧ p < 0x26 then some ⟨0x09, 5, p - 0x20, 0, 1, p⟩
  else if 0x800 ≤ p ∧ p < 0x821 then some ⟨0x0D, 4, 0, p - 0x800, 33, 0x800⟩
  else if 0x840 ≤ p ∧ p < 0x854 then some ⟨0x0E, 4, 0, p - 0x840, 20, 0x840⟩
  else if p = 0x860 then some ⟨0x08, 4, 0, 0, 1, p⟩
  else if 0x870 ≤ p ∧ p < 0x878 then some ⟨0x05, 4, p - 0x870, 0, 1, p⟩
  else if 0x878 ≤ p ∧ p < 0x87C then some ⟨0x06, 4, p - 0x878, 0, 1, p⟩
  else if 0x880 ≤ p ∧ p < 0x898 then
    some ⟨0x0F, 4, (p - 0x880) / 2, (p - 0x880) % 2, 2, p - (p - 0x880) % 2⟩
  else if p = 0x8A0 then some ⟨0x12, 4, 0, 0, 1, p⟩
  else if 0x1000 ≤ p ∧ p < 0x1800 then
    let s := (p - 0x1000) / 0x200
    let o := (p - 0x1000) % 0x200
    if o < 200 then some ⟨0x01, s, o, 0, 1, p⟩
    else if 0xD0 ≤ o ∧ o < 0xD8 then some ⟨0x02, s, o - 0xD0, 0, 1, p⟩
    else if 0xD8 ≤ o ∧ o < 0xDA then some ⟨0x04, s, o - 0xD8, 0, 1, p⟩
    else if o = 0xDA then some ⟨0x07, s, 0, 0, 1, p⟩
    else if o = 0xDB then some ⟨0x12, s, 0, 0, 1, p⟩
    else if 0x100 ≤ o ∧ o < 0x140 then some ⟨0x03, s, o - 0x100, 0, 1, p⟩
    else none
  else none

/-- The first page of every block, in page order. -/
def blockPages : List Nat :=
  [0, 4, 5, 6, 7, 0x10] ++ (List.range 6).map pgPl ++ [pgQm, pgXl, pgHl] ++ (List.range 8).map pgDdr ++
    (List.range 4).map pgMer ++ (List.range 12).map pgCc ++ [pgTrP] ++
    (List.range 4).flatMap (fun s =>
      (List.range 200).map (sheetBase s + ·) ++ (List.range 8).map (sheetBase s + 0xD0 + ·) ++
        (List.range 2).map (sheetBase s + 0xD8 + ·) ++ [sheetBase s + 0xDA, sheetBase s + 0xDB] ++
        (List.range 64).map (sheetBase s + 0x100 + ·))

/-- A register, or `n` registers `stride` bytes apart: its width in bytes, the bits a write sets (RW), the bits a write
of 1 clears (W1C), and its reset value. Bits in neither set are RO, WO or reserved. -/
structure Row where
  off    : Nat
  bytes  : Nat
  rw     : Nat
  w1c    : Nat
  reset  : Nat
  n      : Nat
  stride : Nat
  deriving DecidableEq, Repr

def ro4 (off : Nat) (reset : Nat := 0) : Row := ⟨off, 4, 0, 0, reset, 1, 4⟩
def ro8 (off : Nat) (reset : Nat := 0) : Row := ⟨off, 8, 0, 0, reset, 1, 8⟩
def rw4 (off m : Nat) (reset : Nat := 0) : Row := ⟨off, 4, m, 0, reset, 1, 4⟩
def rw8 (off m : Nat) (reset : Nat := 0) : Row := ⟨off, 8, m, 0, reset, 1, 8⟩
def many (n stride : Nat) (r : Row) : Row := { r with n := n, stride := stride }

/-- How many BLOCK bits INT_PENDING and INT_ENABLE of a page have; the others are reserved (R739, Table 22-5). -/
def blockBits (cls idx : Nat) : Nat :=
  if cls = 0x0B ∧ idx ≠ 0 then 1
  else [0, 2, 2, 1, 3, 2, 2, 2, 5, 4, 1, 2, 4, 1, 3, 1, 4, 1, 3, 3].getD cls 0

/-- The bits of INT_PENDING and INT_ENABLE that a page has (Table 4-8). -/
def intMask (cls idx : Nat) : Nat := (2 ^ blockBits cls idx - 1) * 2 ^ 16 + msk 3 0

/-- INT_PENDING and INT_ENABLE. -/
def intRows (cls idx : Nat) : List Row := [⟨0x020, 4, 0, intMask cls idx, 0, 1, 4⟩, rw4 0x024 (intMask cls idx)]

/-- The common registers of a first page (Table 4-1), but for INT_PENDING and INT_ENABLE; PAGE_STATE and PAGE_CONTROL have
their own readers. -/
def commonRows : List Row :=
  [ro4 0x000, ro4 0x004, ro4 0x008, rw4 0x00C (msk 1 0) 1, ⟨0x010, 4, 0, msk 31 31 + msk 8 8 + msk 3 0, 0, 1, 4⟩,
   rw4 0x014 (msk 8 8 + msk 2 0), ro8 0x018, rw4 0x028 (msk 31 30 + msk 26 16 + msk 10 0),
   rw4 0x02C (msk 23 0) 0x00088001, ro8 0x030, ro8 0x038, ro8 0xFF0, ro8 0xFF8]

def ceRows : List Row :=
  [ro4 0x100, ro8 0x108, ro4 0x110, ro4 0x114, ro4 0x118 2, rw4 0x11C (msk 1 0), many 4 16 (ro8 0x120),
   many 4 16 (ro4 0x128), ro4 0x160, ro4 0x164,
   rw4 0x180 (msk 7 5 + msk 2 0) 7, rw4 0x184 (msk 15 0) 0xACE1, ro4 0x188 0x6000ACE1, ro8 0x190, ro8 0x198,
   ro8 0x1A0, ro8 0x1A8, many 16 8 (rw8 0x200 (msk 63 0)), many 18 8 (ro8 0x300)]

def qdRows : List Row :=
  [ro4 0x100, ro4 0x104, ro4 0x108, rw4 0x180 (msk 4 0), rw4 0x1C0 (msk 4 0),
   rw8 0x1C8 (msk 63 54 + msk 51 21), rw8 0x1D0 (msk 63 62 + msk 51 21 + msk 14 0)]

def slRows : List Row :=
  [rw4 0x100 (msk 23 20 + msk 16 0) 0x0041ACE1, ro4 0x104 0xACE1, ro4 0x108, ro4 0x10C, ro8 0x110, ro8 0x118,
   ro8 0x120, ro8 0x128, ro8 0x130, ro4 0x138]

def hbmRows : List Row :=
  [ro4 0x100, ro4 0x104, rw4 0x108 (msk 7 0) 0x14, ro8 0x110, ro8 0x118, ro8 0x120, ro8 0x128, ro8 0x130, ro8 0x138,
   rw4 0x180 (msk 31 31 + msk 15 0) 0x1000, rw4 0x184 (msk 15 0) 0x64, ro4 0x188, ro8 0x190, ro8 0x198, ro4 0x1A0]

def ddrRows : List Row :=
  [ro4 0x100, ro4 0x104, rw4 0x108 (msk 7 0) 0x14, ro8 0x110, ro8 0x118, ro8 0x120, ro8 0x128, ro8 0x130, ro8 0x138,
   ro4 0x140]

def bridgeRows : List Row := [ro4 0x100, ro8 0x108, ro8 0x110, ro8 0x118, ro4 0x120]

def hlRows : List Row :=
  [ro4 0x100, rw4 0x104 (msk 0 0), ro4 0x108, rw8 0x110 (msk 51 30) 0x100000000000, rw8 0x118 (msk 51 30), ro4 0x120,
   ro4 0x124, ro4 0x128, ro4 0x12C, ro4 0x130, rw8 0x140 (msk 63 63 + msk 51 21 + msk 14 0), rw8 0x148 (msk 63 12),
   rw4 0x150 (msk 27 2), rw4 0x154 (msk 31 0), rw8 0x158 (msk 63 2), rw8 0x160 (msk 63 0), ro4 0x168,
   rw4 0x400 (msk 31 31 + msk 15 0) 0x1000, rw4 0x404 (msk 15 0) 0x64, ro4 0x408, ro8 0x410, ro8 0x418]

def plRows : List Row :=
  [ro4 0x100, rw4 0x104 (msk 2 2), ro4 0x108, ro4 0x10C, ro4 0x110 0x3C0000, ro4 0x114 0x3C0000, ro4 0x118, ro4 0x11C,
   ro4 0x120, ro8 0x128, ro8 0x130, ro4 0x138, ro4 0x13C, ro8 0x140, ro4 0x148, ro4 0x14C, ro4 0x150]

def rtRows : List Row :=
  [ro4 0x100, ro4 0x104, rw4 0x108 (msk 16 16 + msk 13 0), ro4 0x10C, rw4 0x110 (msk 13 0), rw4 0x114 (msk 8 0) 0x1FF,
   many 6 4 (rw4 0x118 (msk 31 31 + msk 18 16 + msk 13 0)), ro4 0x130, ro4 0x134]

/-- Landing entries (Table 14-7): IN_FLIGHT of word 1 is read-only. -/
def landRows (n : Nat) : List Row :=
  [many n 16 (rw8 0x100 (msk 63 60 + msk 51 21 + msk 14 0)), many n 16 (rw8 0x108 (msk 45 32 + msk 13 0))]

/-- Group entries (Table 16-10). -/
def groupRows (n : Nat) : List Row :=
  [many n 16 (rw8 0x100 (msk 63 63 + msk 61 48 + msk 45 32 + msk 29 16 + msk 13 0)),
   many n 16 (rw8 0x108 (msk 25 16 + msk 9 0))]

def sv0Rows : List Row := [ro4 0x100 0x01000000, ro4 0x104, ro4 0x108, ro8 0x110, many 8 4 (ro4 0x140)]
def svMboxRows : List Row := [ro4 0x100, rw8 0x108 (msk 63 0), ro4 0x110]
def svUpdRows : List Row := [ro4 0x100, ro4 0x104, rw8 0x108 (msk 51 6), rw4 0x110 (msk 22 0), ro4 0x114, ro4 0x118]

def pwrRows : List Row :=
  [ro4 0x100 0x08000000, many 5 4 (ro4 0x108), ro4 0x11C, ro4 0x120, ro4 0x124,
   rw4 0x200 (msk 16 16 + msk 7 0) 0xB4, many 5 4 (ro4 0x210), ro4 0x228,
   ro4 0x240, many 3 4 (rw4 0x244 (msk 9 0)), ro4 0x250 0x352, ro4 0x260, many 3 4 (rw4 0x264 (msk 7 0)), ro4 0x270 0xFF,
   ro4 0x280, many 3 4 (rw4 0x284 (msk 6 0)), ro4 0x290 0x61, rw4 0x2A0 (msk 0 0) 1, ro4 0x2A4, ro8 0x2A8, ro8 0x2B0,
   rw4 0x2C0 (msk 1 1), many 5 8 (ro4 0x300), many 5 8 (ro4 0x304)]

def qm0Rows : List Row :=
  [ro4 0x100, ro8 0x108, ro8 0x110, rw8 0x118 (msk 51 21 + msk 0 0), rw4 0x120 (msk 15 0) 0x64, ro4 0x124, ro4 0x128,
   ro8 0x130]
def qmRingRows : List Row :=
  [rw4 0x100 (msk 31 31 + msk 19 0), ro4 0x108, many 64 48 (rw8 0x140 (msk 56 12)),
   many 64 48 (rw8 0x148 (msk 56 12)), many 64 48 (rw8 0x150 (msk 51 12 + msk 5 0)),
   many 64 48 (rw4 0x158 (msk 31 28 + msk 20 16 + msk 12 8) 0x20040400), many 64 48 (ro4 0x15C),
   many 64 48 (rw4 0x160 (msk 15 0)), many 64 48 (rw4 0x164 (msk 31 30 + msk 26 16 + msk 10 0)),
   many 64 48 (ro4 0x168)]
def qmBellRows : List Row := [many 64 4 (ro4 0x100)]

def xl0Rows : List Row :=
  [⟨0x100, 4, 0, msk 31 31, 0, 1, 4⟩, rw8 0x108 (msk 51 21 + msk 5 0), rw8 0x110 (msk 56 12),
   rw4 0x118 (msk 29 29 + msk 19 0), ro8 0x120, ro8 0x128, ro4 0x130, ro4 0x138, ro8 0x140, ro8 0x148, ro4 0x150]
def xlCtxRows : List Row := [rw4 0x100 (msk 4 0), rw8 0x108 (msk 63 60 + msk 43 0)]
/-- Window descriptors (Table 14-6). -/
def xlWinRows (n : Nat) : List Row := [many n 8 (rw8 0x100 (msk 63 59 + msk 47 32 + msk 25 16 + msk 13 0))]

def cc0Rows : List Row := [ro4 0x100, ro4 0x104, rw4 0x108 (msk 14 2), rw4 0x10C (msk 31 0)]
def cc1Rows : List Row := [ro4 0x100, ro4 0x104, rw8 0x108 (msk 51 2), rw8 0x110 (msk 63 0)]

def dtRows : List Row :=
  [ro8 0x100, ro4 0x108 1, rw4 0x10C (msk 1 0) 2, ro8 0x110, ro4 0x118, ro4 0x11C, ro4 0x120, ro8 0x128,
   many 5 8 (ro8 0x130), ro4 0x158]

def fbRows : List Row :=
  [ro4 0x100, ro4 0x104, ro4 0x108, rw4 0x10C (msk 11 0) 0x100, ro4 0x110, ro4 0x114, ro4 0x118, rw4 0x11C (msk 7 0),
   many 4 8 (ro8 0x120)]

def trRows : List Row :=
  [rw4 0x100 (msk 31 29 + msk 5 0) 0x3F, rw8 0x108 (msk 51 12 + msk 4 0), ro8 0x110, rw8 0x118 (msk 63 0), ro4 0x120,
   rw4 0x124 (msk 19 0) 0x1000, rw4 0x128 (msk 4 0)]

def opsRows : List Row := [ro4 0x100, rw4 0x104 (msk 0 0), ro4 0x108, ro4 0x10C]

/-- The block-specific rows of a page, by class and page index (Table 22-3). -/
def blockRows (cls idx : Nat) : List Row :=
  if cls = 0x01 then ceRows
  else if cls = 0x02 then qdRows
  else if cls = 0x03 then slRows
  else if cls = 0x04 then hbmRows
  else if cls = 0x05 then ddrRows
  else if cls = 0x06 ∨ cls = 0x07 then bridgeRows
  else if cls = 0x08 then hlRows
  else if cls = 0x09 then plRows
  else if cls = 0x0A then
    if idx = 0 then rtRows else if idx ≤ 4 then landRows 240 else if idx = 5 then landRows 64 else if idx = 6 then groupRows 240 else groupRows 16
  else if cls = 0x0B then if idx = 0 then sv0Rows else if idx = 3 then svUpdRows else svMboxRows
  else if cls = 0x0C then pwrRows
  else if cls = 0x0D then if idx = 0 then qm0Rows else if idx ≤ 16 then qmRingRows else qmBellRows
  else if cls = 0x0E then
    if idx = 0 then xl0Rows else if idx ≤ 16 then xlCtxRows else if idx = 19 then xlWinRows 64 else xlWinRows 480
  else if cls = 0x0F then if idx = 0 then cc0Rows else cc1Rows
  else if cls = 0x10 then dtRows
  else if cls = 0x11 then fbRows
  else if cls = 0x12 then trRows
  else opsRows

/-- The common rows of a page: whole on a first page; on a later page the legend, the state, and the ownership bits of
PAGE_CONTROL; the interrupt registers too on surveyor pages 1 to 3 (R128, R740). -/
def pageCommon (pi : PageInfo) : List Row :=
  if pi.index = 0 then commonRows ++ intRows pi.cls 0
  else if pi.cls = 0x0B then
    [ro4 0, ro4 4, ro4 8, ro4 0xC, rw4 0x028 (msk 31 30 + msk 26 16 + msk 10 0)] ++ intRows pi.cls pi.index
  else [ro4 0, ro4 4, ro4 8, ro4 0xC]

/-- Whether a row holds the byte at page offset o. -/
def Row.holds (r : Row) (o : Nat) : Bool :=
  r.off ≤ o && (o - r.off) / r.stride < r.n && (o - r.off) % r.stride < r.bytes

/-- The row of a register at page offset o of a block's page, and the offset at which the register begins. -/
def findRow (pi : PageInfo) (o : Nat) : Option (Row × Nat) :=
  match (if o < 0x100 ∨ (pi.index = 0 ∧ 0xFF0 ≤ o) then pageCommon pi else blockRows pi.cls pi.index).find?
      (fun r => r.holds o) with
  | some r => some (r, r.off + (o - r.off) / r.stride * r.stride)
  | none => none

/-- The row of the register at an aperture offset, with the key (its first byte's aperture offset) it is held under. -/
def regRow (k : Nat) : Option (Row × Nat) :=
  match pageInfo (k / 0x1000) with
  | some pi => (findRow pi (k % 0x1000)).map (fun x => (x.1, k / 0x1000 * 0x1000 + x.2))
  | none => none

/-- The owner of a page after package power-up (Table 1-8): 1 surveyor, 2 kernel, 3 host driver. -/
def resetOwner (cls : Nat) (standalone : Bool) : Nat :=
  if cls ∈ [0x04, 0x06, 0x07, 0x09, 0x0A, 0x0B, 0x0C, 0x10, 0x11, 0x13] then 1
  else if cls ∈ [0x05, 0x0F] then 2
  else if standalone then 2 else 3

end Sys2Proof.Machine
end

