-- ==== Sys2Proof/Machine/State.lean ====
section
/-! DEFINITION. The state of the package as plain data: the register map, the queues, the state of each unit the
spec describes, memory, the messages that have left the package, and the queue of waiting commands. Every map is a
sorted list of (key, value) pairs; an unlisted key reads as the default its reader in Machine/Ops.lean names. -/

namespace Sys2Proof.Machine

/-- A sparse map: a list sorted by key, without repeats. -/
abbrev SMap (α : Type) := List (Nat × α)

/-- A register-visible queue (spec/03 R110 to R116): items oldest first, each with its sequence number and words; `bad` are the
sequence numbers of entries with an uncorrectable error (R621). -/
structure Queue where
  items   : List (Nat × List W64)
  popped  : Nat
  nextSeq : Nat
  dropped : Nat
  bad     : List Nat
  deriving DecidableEq, Repr

/-- Both ends of a credited path (R96 to R101). `items` are committed in the receiver queue, each with the sequence number that
it took at its commit (Table 3-5); `uncommitted` are those of the packet in progress, and `ended` says that its LAST item has
been written. -/
structure Path where
  sent     : Nat
  limit    : Nat
  freed    : Nat
  depth    : Nat
  discards : Nat
  lastSent : Nat
  announced : Bool
  retired  : Bool
  items    : List (Nat × Item)
  nextSeq  : Nat
  uncommitted : List Item
  ended    : Bool
  deriving DecidableEq, Repr

/-- A submission ring's spill queue of pending commands (R117 to R125): head and tail slots in registers, the region in
memory between them; `regionRd` and `regionWr` count items through the region. -/
structure Spill where
  head     : List (Nat × Item)
  tail     : List (Nat × Item)
  regionRd : Nat
  regionWr : Nat
  firstSeq : Nat
  nextSeq  : Nat
  dropped  : Nat
  deriving DecidableEq, Repr

/-- The datum, its synchronization and the beat counters (spec/02). `frac` holds the hundredths of a beat under way by die,
`heldNs` the nanoseconds in which some sheet stood halted (R65), `lostNode`, `lostDist` and `lostAt` the master that was
lost last, the hops to it and when (R88). -/
structure PaceSt where
  datum       : Nat
  running     : Bool
  beats       : SMap Nat
  frac        : SMap Nat
  heldNs      : Nat
  lostNode    : Nat
  lostDist    : Nat
  lostAt      : Nat
  everSynced  : Bool
  setLocked   : Bool
  stepAllowed : Bool
  synced1     : Bool
  goodExch    : Nat
  lastSync    : Nat
  masterNode  : Nat
  masterDist  : Nat
  syncPort    : Nat
  ctlActive   : Nat
  reqArrival  : SMap (Nat × Nat)
  latches     : SMap W32
  latchAt     : SMap Nat
  deriving DecidableEq, Repr

/-- One entry of the field book (Table 4-13); the CRC is computed when the entry is read. -/
structure FbEntry where
  datum     : Nat
  powerUp   : Nat
  setting   : Nat
  requester : Nat
  reason    : Nat
  old       : Nat
  new       : Nat
  inst      : Nat
  void      : Bool
  deriving DecidableEq, Repr

/-- A field-book request waiting or in progress (R166). `mbox` is the mailbox page that waits for its end, 0 for none. -/
structure FbReq where
  setting   : Nat
  requester : Nat
  reason    : Nat
  inst      : Nat
  value     : Nat
  mbox      : Nat
  deriving DecidableEq, Repr

/-- The fuses and the field book (Table 4-12): the home of every FB field. `serving` says that the oldest request has been
accepted and runs its three steps (R167); `unfinished` is the request of an entry with a good CRC whose fuses a power loss left
unprogrammed (R168). -/
structure FuseSt where
  personality  : Nat
  persChanges  : Nat
  ceiling      : Nat
  debugLock    : Bool
  keyRevoked   : Nat
  laneRetired  : SMap Nat
  laneRecords  : SMap Nat
  ceRetired    : SMap Nat
  ceRecords    : SMap Nat
  sparePos     : SMap Nat
  trimMv       : SMap Int
  entries      : List FbEntry
  requests     : List FbReq
  serving      : Bool
  unfinished   : Option FbReq
  deriving DecidableEq, Repr

/-- One contour table entry (R596). -/
structure Contour where
  layer    : Nat
  operator : Nat
  demand   : Nat
  samples  : Nat
  deriving DecidableEq, Repr

/-- The power controller's state beside its registers (spec/02, spec/17). Rail 0 to 3 are VDD_S0 to VDD_S3, 4 is
VDD_P; millivolts, degrees and datum nanoseconds. Budgets and demands are in mW; `thermScale` is a die's budget in
millionths of its share and `scaledAt` when it began to return (0 while throttled, plus 1); `holdCause` is 1 coolant loss or
thermal trip, 2 MERIDIANS_LOST; `heldReady` the blocks that safe hold took READY from; `meanFrom` the datum and the
hundredths of beats counted at a die's last status refresh. -/
structure PwrSt where
  railMv      : SMap Nat
  tj          : SMap Nat
  natural     : SMap Nat
  haltSince   : SMap Nat
  okSince     : SMap Nat
  meanFrom    : SMap (Nat × Nat)
  gateSet     : Nat
  gateClosed  : Bool
  settledAt   : Nat
  wanted      : SMap Nat
  lastWrite   : SMap Nat
  leak0       : SMap Nat
  demands     : SMap (Nat × Nat)
  budget      : SMap Nat
  thermScale  : SMap Nat
  scaledAt    : SMap Nat
  calibrated  : Nat
  overSince   : Option Nat
  lastOverEnd : Option Nat
  contours    : SMap Contour
  holdCause   : Nat
  flowOkSince : Option Nat
  heldReady   : List Nat
  deriving DecidableEq, Repr

/-- Boot flash and the surveyor's own state (spec/18 R650 to R654, spec/19): the images of the two slots, the active slot, the
power-up count, a power loss noted; whether AUX_PWRGD is asserted, whether both slots failed, the image that runs, the image
being staged, the old image and datum of a handover, whether the board holds the flash bus (1, R722), and by mailbox page the
party whose request it holds (R162); the flash directory with the SFDP parameters, and the lines of the read mode in use: 0 for
1-1-1, 1 for 1-1-4, 2 for 1-4-4 (R678). -/
structure BootSt where
  slotA       : Option ImageInfo
  slotB       : Option ImageInfo
  activeSlot  : Nat
  powerUps    : Nat
  lossNoted   : Option Nat
  started     : Bool
  failed      : Bool
  running     : Option ImageInfo
  staged      : Option ImageInfo
  handover    : Option (ImageInfo × Nat)
  flashOwner  : Nat
  mboxFrom    : SMap Nat
  dir         : FlashDir
  readMode    : Nat
  deriving DecidableEq, Repr

/-- The sequencer (spec/19): its signals; whether step 5 has been done in this package power-up; whether the next climb waits
for the conditions of R612; blocks whose survey was abandoned; harts held by a descent, with their states; PERST# and
PERST_OUT# asserted; lasers; memories in self-refresh. -/
structure SeqSt where
  railEnLink  : Bool
  railPgLink  : Bool
  railEnCore  : Bool
  railPgCore  : Bool
  dieReset    : Bool
  step5Done   : Bool
  climbAfter  : Bool
  resurvey    : List Nat
  heldHarts   : SMap Nat
  perst       : Bool
  perstOut    : Bool
  lasers      : Bool
  memRefresh  : Bool
  deriving DecidableEq, Repr

/-- Error handling (spec/18): handling lists by first page, trackers by first page × 4 + tracker, units whose threshold
action was taken in the window, runtime spares by bank and rows spared, spared channels by stack, marked DDR devices, replica
entries by sheet × 64 + 2 × entry + word, line repairs in progress by line (entry, home slice), CEs taken out by
quadrangle, the cause of a CE's loss (plus 1), bridge spares and DOWN by bridge, and window starts by first page. -/
structure FaultSt where
  handling  : SMap (List Nat)
  trackers  : SMap (List (Nat × Nat))
  fired     : SMap (List Nat)
  rowSpares : SMap Nat
  sparedRows : SMap Bool
  chanSpared : SMap (List Nat)
  marked    : SMap Nat
  replica   : SMap W64
  repairs   : SMap (Nat × Nat)
  ceOut     : SMap Nat
  lossCause : SMap Nat
  bridgeSpare : SMap Nat
  bridgeDown  : SMap Bool
  windowAt  : SMap Nat
  openStalls : SMap (List (Nat × Nat × Nat))
  deriving DecidableEq, Repr

/-- One trace block (spec/20): records waiting in its queue of 256, and the records dropped since the last LOST. -/
structure TraceBlk where
  queue   : List Item
  lost    : Nat
  deriving DecidableEq, Repr

/-- The interrupt files and the MSI-X structures (spec/12 R429 to R432, spec/15 R510). -/
structure IntSt where
  eip       : SMap Bool
  msixTable : SMap W32
  pba       : SMap Bool
  msixOn    : Bool
  msixMask  : Bool
  deriving DecidableEq, Repr

/-! ## Compute engines (spec/05 to spec/07, spec/10) -/

/-- A unit record of a chart (Table 5-10). -/
structure UnitRec where
  typ       : Nat
  index     : Nat
  mode      : Nat
  codeOff   : Nat
  codeSize  : Nat
  loopStart : Nat
  repeats   : Nat
  deriving DecidableEq, Repr

/-- A route record of a chart (R206). -/
structure Route where
  source : Nat
  sink   : Nat
  phases : Nat
  depth  : Nat
  deriving DecidableEq, Repr

/-- A validated chart image (Table 5-9): header, units, routes and code words. -/
structure Chart where
  version    : Nat
  crc        : Nat
  exactWide  : Bool
  stochastic : Bool
  operatorId : Nat
  longAccs   : Nat
  phases     : Nat
  size       : Nat
  units      : List UnitRec
  routes     : List Route
  code       : List W32
  deriving DecidableEq, Repr

/-- One leaf of an operand's extent as translated (R286, R481): virtual page, pages of 4 KiB, physical page (host memory
from 2 ^ 40 on), whether it may be written, whether it came over ATS and reaches the inset window, whether it bypasses the
L1 (R476), the address of its leaf entry, for a window the destination node and remote window kept at acceptance (R489),
whether an invalidation or an inset-window move has reached it since (R484, R517), and its entry of the command translation
store (R481), and the leaf entry's value (R400). -/
structure Xlate where
  va       : Nat
  pages    : Nat
  pa       : Nat
  writable : Bool
  ats      : Bool
  nc       : Bool
  pte      : Nat
  node     : Nat
  remote   : Nat
  inset    : Bool
  stale    : Bool
  entry    : Nat
  pteVal   : W64
  deriving DecidableEq, Repr

/-- A slot of the chart store (R196 to R203): state 0 EMPTY, 1 LOADING, 2 RESIDENT, 3 ACTIVE; `forCmd` is the CHART_LOAD or RUN
whose load is in progress, `va` and `pages` the image that it reads (R196); `endedAt` is the datum, plus 1, of the boundary at
which the slot last ceased to be ACTIVE (R204). -/
structure Slot where
  handle     : W64
  state      : Nat
  current    : Bool
  superseded : Bool
  chart      : Chart
  params     : SMap W64
  shadow     : SMap W64
  pendingShadow : Bool
  lastRan    : Nat
  forCmd     : Nat
  va         : Nat
  pages      : List Xlate
  endedAt    : Nat
  deriving DecidableEq, Repr

/-- A vector unit: 12 registers of 16 lanes, and the items it has output in this command. -/
structure Vu where
  regs     : SMap Item
  outCount : Nat
  deriving DecidableEq, Repr

/-- A line of an output packet (R108): its package address (host memory from 2 ^ 52 on), data, poison, whether its
operand streams (R366), the CE and mover that wrote it, whether the host link holds it exclusive (R462), and whether its packet
has committed (R109), so that it waits only for the commit to reach its home (R317). -/
structure PLine where
  pa     : Nat
  data   : Item
  poison : Bool
  stream : Bool
  ce     : Nat
  mu     : Nat
  owned  : Bool
  going  : Bool
  deriving DecidableEq, Repr

/-- A mover: lines done of its present descriptor, the lines of its open output packet, the packets closed but not yet
committed, and the lines read of the group of four records under way (R268). -/
structure Mover where
  pos    : Nat
  packet : List PLine
  closed : List (List PLine)
  raw    : List Item
  deriving DecidableEq, Repr

/-- A cell's short accumulator: body and special tag (R246 to R249). -/
structure Cell where
  tag  : Nat
  body : Int
  deriving DecidableEq, Repr

/-- A drain latch (R224, R248): the 80-bit body and the special tag of the cell; whether the body is an FP32 value (R249); else the
exponent of its unit with the block's scales, none for a NaN scale (R245, R255); and the slot it drains to. -/
structure Latch where
  tag   : Nat
  body  : Int
  f32   : Bool
  scale : Option Int
  slot  : Nat
  deriving DecidableEq, Repr

/-- An octet: its format word, mask, stationary register banks and their scales, the load in progress, the position of
its pass (`done` steps, the bank it drives, `ua` and `ub` beats used of the items at its ports, the block's scale items),
its place in a projection, its arrays' beats since a drain, slots and cells, and the drain latches that have not yet passed to
the long store (R226). -/
structure Octet where
  formatted : Bool
  fa        : Nat
  fb        : Nat
  axis      : Bool
  sharedA   : Bool
  sharedB   : Bool
  mask      : Nat
  sr        : SMap (List Item)
  loading   : List Item
  loaded    : Bool
  tiles     : Nat
  tile      : Nat
  pass      : Nat
  rounds    : Nat
  done      : Nat
  bank      : Nat
  ua        : Nat
  ub        : Nat
  scaled    : Nat
  scaleA    : Item
  scaleB    : Item
  since     : SMap Nat
  slots     : SMap Nat
  stopped   : Bool
  cells     : SMap Cell
  latches   : SMap Latch
  deriving DecidableEq, Repr

/-- The long store's conversion (Table 7-3), the EMIT words done in the command, and the emission in progress: the next
accumulator, the bits read and not yet offered, and the items offered; for AUTO also the rounds emitted. -/
structure LongSt where
  fmt      : Nat
  rounding : Nat
  sat      : Bool
  shift    : Int
  emits    : Nat
  next     : Nat
  buf      : Nat
  bufBits  : Nat
  item     : Nat
  rounds   : Nat
  deriving DecidableEq, Repr

/-- A line held by the L1 or the side buffer: its line number, data, age and pin. -/
structure CLine where
  line   : Nat
  data   : Item
  poison : Bool
  age    : Nat
  deriving DecidableEq, Repr

/-- A line request outstanding (Table 10-1): the mover it is for, whether it is a prefetch, whether the line may be kept
when it returns (R327), the SLM hint of its operand, the command's class and context, and the key of the remote read that was
sent for it, plus 1, or the number of the read of host memory issued for it (0 for neither). -/
structure Miss where
  mu   : Nat
  line : Nat
  pf   : Bool
  keep : Bool
  hint : Nat
  cls  : Nat
  ctx  : Nat
  tag  : Nat
  deriving DecidableEq, Repr

/-- A compute engine. `paused` holds at a fold boundary that FOLD_BOUNDARY has yet to serve, `loadOwed` while the chart load of a
dispatched RUN has not begun (R288). -/
structure Ce where
  cmd      : Option Nat
  lastCtx  : Option Nat
  phase    : Nat
  round    : Nat
  su       : SMap Item
  ag       : SMap (Nat × Item)
  movers   : SMap Mover
  vus      : SMap Vu
  routes   : SMap (List Item)
  octets   : SMap Octet
  long     : SMap Rec
  ls       : LongSt
  progress : SMap (Nat × Nat)
  idleMark : SMap Nat
  loops    : SMap Nat
  slots    : SMap Slot
  l1       : SMap CLine
  side     : List CLine
  misses   : List Miss
  arrived  : List (Nat × CLine)
  laterL1  : Option W64
  laterSeed : Option W64
  laterInv : Bool
  pfOn     : Bool
  pfDepth  : Nat
  preempt  : Bool
  paused   : Bool
  loadOwed : Bool
  deriving DecidableEq, Repr

/-! ## The queue manager (spec/08) and the command translation store (spec/14) -/

/-- Where an accepted command stands. -/
inductive CmdPhase where
  | translating     -- fetched, waiting for its operands' pages
  | waiting         -- accepted, in the ring's pending queue
  | running         -- dispatched
  | preempted       -- stopped at a fold, its fold record kept
  | finished        -- its status is known, its completion record is not written
  | trailing        -- its record is written, its output packets have not all committed (RELAXED, R522)
  deriving DecidableEq, Repr

/-- A command in flight: its 128-byte descriptor and all that its completion record and repetition need; the beat counters
of the four sheets at its acceptance, the order of acceptance, the service number of the doorbell that made it fetchable
(R290), the CE that it preempts (R295), and whether it was ever paused; when it came to the head of its ring, plus 1, as the
datum and as the package's timers count (R291, R65); whether a ring abort ended it (R309). Of a CHART_LOAD `foldCrc` is the
header CRC of its image. `collPhase` of a collective: 1 local, 2 ring, 3 and 4 the final parts (R576). -/
structure Cmd where
  desc      : BitVec 1024
  ctx       : Nat
  ring      : Nat
  seq       : Nat
  phase     : CmdPhase
  order     : Nat
  pages     : List (Nat × Xlate)
  noRoom    : Bool
  acceptedAt : List Nat
  acceptOrder : Nat
  bell      : Nat
  preempting : Option Nat
  wasPaused : Bool
  ces       : List Nat
  lastCe    : Nat
  status    : Nat
  detail    : Nat
  repeats   : Nat
  firstLost : Nat
  losses    : Nat
  folds     : Nat
  preemptions : Nat
  beats     : Nat
  progress  : Nat
  startBeat : Nat
  fold      : Option Nat
  foldCrc   : Nat
  requeued  : Bool
  aged      : Bool
  watching  : Bool
  waitSince : Nat
  ageFrom   : Nat
  ringAborted : Bool
  remoteLeft : Nat
  collPhase : Nat
  collStep  : Nat
  deriving DecidableEq, Repr

/-- An entry of a context's chart directory (R287): handle, the image's virtual address with its translated pages, the
header CRC and the order of its last use. -/
structure DirEnt where
  handle : W64
  va     : Nat
  pages  : List Xlate
  crc    : Nat
  used   : Nat
  deriving DecidableEq, Repr

/-- The queue manager: its commands by number, the chart directories with the entries that a failed CHART_LOAD restores,
the service numbers of doorbell writes by ring × 65,536 + the tail they left, fold records in use, the round robin's last
context and rings by class, the commands whose pages a MOVE holds (R400), the unit and SEQ of each ring's and context's
last completion, completion records written by ring, and by ring the window (plus 1) of a remote write declared
undeliverable (R325) and the node and window of the last acknowledgement. -/
structure QmSt where
  cmds      : SMap Cmd
  nextId    : Nat
  nextOrder : Nat
  dirs      : SMap (List DirEnt)
  oldDirs   : SMap (Option DirEnt)
  bells     : SMap Nat
  nextBell  : Nat
  foldUsed  : SMap Nat
  robin     : SMap Nat
  holds     : List Nat
  lastDone  : SMap (Nat × Nat)
  cqWritten : SMap Nat
  remoteFail : SMap Nat
  lastAck   : SMap (Nat × Nat)
  deriving DecidableEq, Repr

/-- An entry of the ATS cache (R477): PASID, page, the page it names and its write permission. -/
structure AtcEnt where
  pasid    : Nat
  page     : Nat
  hpage    : Nat
  writable : Bool
  deriving DecidableEq, Repr

/-- An invalidation in progress (R480, R485): its ATS tag (none for XL_INV_CONTROL), PASID or context, and page range. -/
structure InvWork where
  tag   : Option Nat
  ctx   : Nat
  page  : Nat
  pages : Nat
  deriving DecidableEq, Repr

/-- A page that waits for a resume (R487): its item's and its record's sequence numbers. -/
structure FaultWait where
  seq     : Nat
  recSeq  : Nat
  id      : Nat
  operand : Nat
  page    : Nat
  cause   : Nat
  deriving DecidableEq, Repr

/-- The translation unit (spec/14): the ATS cache, newest first; Translation Requests outstanding as (context, page, write);
page requests as (context, page, sent); pages asked for again after a page request; pages whose next answer may not be
cached, and answers good for one command only; denials as (context, page, cause); invalidations; faults waiting. -/
structure XlSt where
  atc      : List AtcEnt
  requests : List (Nat × Nat × Bool)
  pris     : List (Nat × Nat × Bool)
  retried  : List (Nat × Nat)
  noCache  : List (Nat × Nat)
  once     : List AtcEnt
  denied   : List (Nat × Nat × Nat)
  invs     : List InvWork
  waits    : List FaultWait
  deriving DecidableEq, Repr

/-! ## Homes, caches and memory controllers (spec/10, spec/11, spec/13) -/

/-- A line of a slice's cache part: its line address, age and marks; its value stands in memory. -/
structure Tag where
  line   : Nat
  age    : Nat
  pinned : Bool
  dirty  : Bool
  deriving DecidableEq, Repr

/-- What a home's filters say of a line (Table 13-1): the hart that may own it, the harts that may hold it, and the host:
0 no copy, 1 shared, 2 owned. -/
structure DirLine where
  owner   : Option Nat
  sharers : List Nat
  host    : Nat
  deriving DecidableEq, Repr

/-- A request at a home: one that waits for the host's answer (R465), or in a REQ queue for a tracker entry (R449). -/
inductive HomeReq where
  | rdShared (hart : Nat)
  | rdOwn (hart : Nat)
  | upgrade (hart : Nat)
  | rdCur
  | atom (op : Nat) (value : W64)
  deriving DecidableEq, Repr

/-- A back-invalidation: BISnpInv or BISnpData, whether it has been sent or waits behind 256 others (R466), since when, and the
requests that wait for it, each in its tracker entry (R448). -/
structure BiWait where
  inv   : Bool
  sent  : Bool
  since : Nat
  reqs  : List HomeReq
  deriving DecidableEq, Repr

/-- A SEM_WAIT's watch (R307): its command, the word's address, the value and whether equality is asked for. -/
structure Watch where
  id    : Nat
  addr  : Nat
  value : W64
  equal : Bool
  deriving DecidableEq, Repr

/-- Homes: cache tags by slice and set × 16 + way, filters by line, back-invalidations by line, watches by slice, the
output-packet lines pending at their receiving blocks, and the REQ queues: requests with their addresses by 64 × home + source
port, and the port that each home admitted last (R449). A home is numbered by its SLM slice, or 256 + L3 slice. -/
structure HomeSt where
  queues  : SMap (List (Nat × HomeReq))
  lastPort : SMap Nat
  tags    : SMap (SMap Tag)
  dir     : SMap DirLine
  bi      : SMap BiWait
  watches : SMap (List Watch)
  pend    : List PLine
  devCache : List Nat
  writer  : SMap Nat
  deriving DecidableEq, Repr

/-- A request at a memory controller: a write, its line, class (Table 11-5), bank, row and the datum of its arrival. -/
structure MemReq where
  write : Bool
  line  : Nat
  cls   : Nat
  bank  : Nat
  row   : Nat
  since : Nat
  deriving DecidableEq, Repr

/-- A pseudo-channel or DDR channel: its requests oldest first, the writes left of a batch, open rows by bank, refreshes
postponed by bank, and whether its last access was a read. -/
structure PcSt where
  reqs      : List MemReq
  batch     : Nat
  rows      : SMap Nat
  postponed : SMap Nat
  lastRead  : Bool
  deriving DecidableEq, Repr

/-- An access counter entry (R407). -/
structure AccEnt where
  page   : Nat
  reads  : Nat
  writes : Nat
  ctx    : Nat
  hot    : Bool
  deriving DecidableEq, Repr

/-- An access counter table: entries by set × 8 + way, epochs since ENABLE, and the datum at the last epoch's end. -/
structure AccSt where
  ents   : SMap AccEnt
  epochs : Nat
  since  : Nat
  deriving DecidableEq, Repr

/-- Memory controllers: channels by 64 × controller + pseudo-channel (HBM stacks 0 to 7, DDR channels 8 to 15), access
counters by block (HBM stacks 0 to 7, the host link 8), how DDR came up (0 in training, 1 up, 2 not brought up), the
channel interleave, and by controller the doubled refresh in force and the traffic throttled for heat (R607). -/
structure MemSt where
  pcs      : SMap PcSt
  acc      : SMap AccSt
  ddrPhase : Nat
  ddrHalf  : Nat
  doubled  : SMap Bool
  throttled : SMap Bool
  deriving DecidableEq, Repr

/-! ## Harts (spec/12) -/

/-- An entry of a store buffer: line, bytes and value (R425); whether it bypasses the L2 (Svpbmt, R423), and whether it is one
store of the whole line, seen whole (R419). -/
structure StoreEnt where
  pa    : Nat
  mask  : Nat
  data  : Item
  nc    : Bool
  whole : Bool
  deriving DecidableEq, Repr

/-- A leaf that a hart's translation cache holds: the first virtual page, pages of 4 KiB, first physical page, the root register
that it was walked from, and the leaf entry. -/
structure TlbEnt where
  page  : Nat
  pages : Nat
  ppage : Nat
  satp  : W64
  pte   : W64
  deriving DecidableEq, Repr

/-- A hart: store buffer oldest first; whether a FENCE that waits on earlier stores is in progress (R328); integer and vector
registers; its reservation, its delayed snoop, what its translation and instruction caches hold, its pc and machine mode as a
start leaves them, its CSRs by number (mcycle as the difference to the die's beat counter), a hold or start in progress, and the
cause and value of the exception it took last. -/
structure Hart where
  sb       : List StoreEnt
  fencing  : Bool
  x        : SMap W64
  v        : SMap (BitVec 256)
  resv     : Option Nat
  delayed  : List Nat
  tlb      : List TlbEnt
  icache   : List Nat
  pc       : Nat
  mMode    : Bool
  csr      : SMap W64
  holding  : Bool
  starting : Bool
  xcause   : Option Nat
  xtval    : W64
  deriving DecidableEq, Repr

/-- A message that has left the package, or data that a read has returned to its requester. -/
inductive OutMsg where
  | surveyorInt (page : Nat)                               -- INT_ROUTE DEST 1 (Table 4-9)
  | msix (vector : Nat)                                    -- an MSI-X message (R156, R510)
  | readData (off : Nat) (value : W64)                     -- what a register read returned
  | syncReq (port t1 : Nat)                                -- SYNC_REQ control flit (R573)
  | syncRsp (port t1 t2 t3 : Nat)                          -- SYNC_RSP control flit
  | credit (path u : Nat)                                  -- a credit update on a path (R97)
  | biSnp (pa : Nat) (inv : Bool)                          -- BISnpInv or BISnpData to the host (R465)
  | lineAck (ce mu pa : Nat)                               -- a home's acknowledgement of a pending line (R108)
  | homeData (pa : Nat) (data : Item) (poison : Bool)      -- a line supplied by its home or to the host
  | homeResult (pa : Nat) (value : W64)                    -- the RSP result of an atomic (Table 13-3)
  | atsRequest (ctx page : Nat) (write priv : Bool)        -- a Translation Request (R477)
  | priRequest (ctx page : Nat)                            -- a PRI Page Request (R478)
  | atsInvalidated (tag : Nat)                             -- an Invalidate Completion (R480)
  | aer (pa : Nat)                                         -- an uncorrectable CXL.mem error through AER (R467)
  | flit (port seq : Nat) (msgs : List Msg)                -- a payload flit, with the messages that end in it (R549)
  | ackNak (port : Nat) (nak : Bool) (seq : Nat)           -- an ACK or NAK in a flit header (R549, R551)
  | slotCredit (port cls vc u : Nat)                       -- a credit update in a flit header (R552)
  | cap (port vmax vmin features : Nat)                    -- a CAP control flit (R545)
  | laneDrop (port lane : Nat)                             -- a LANE_DROP control flit (R556)
  | laneAdd (port dir lane : Nat)                          -- a LANE_ADD control flit
  | drainFlit (port : Nat)                                 -- a DRAIN control flit (R567)
  | drainCancel (port : Nat)                               -- a DRAIN_CANCEL control flit (R570)
  | cfgRetry                                               -- a Configuration Request Retry Status completion (R503)
  | cfgData (value : W32)                                  -- the completion of a host configuration read
  | ltr (noSnoop snoop : Nat)                              -- an LTR message (R527)
  | rpConfig (addr : Nat) (write : Option W32)             -- a configuration request of the root port (R529)
  | rpMmio (addr : W64) (width : Nat) (write : Option W64) -- a memory request of the root port (R530)
  | unsupported (addr : Nat)                               -- Unsupported Request for an inbound request (R531)
  | inboundData (addr : Nat) (data : Item) (poison : Bool) -- the completion of an inbound read (R531)
  | spdm (code param : Nat) (data : W64)                   -- an SPDM response over DOE (R533)
  | bar0Data (value : W64)                                 -- the completion of a host read of BAR0 (R508)
  | sideband (status bytes value : Nat)                    -- a response on the sideband: 0 or an error, its bytes (R723)
  | sgpio (bits : BitVec 24)                               -- the lamp bits of an SGPIO frame (R714)
  deriving DecidableEq, Repr

/-- Who a remote access is for, and so what its answer does (R492, R548). -/
inductive RemoteFor where
  | moverLoad (ce : Nat)
  | moverStore (ce mu : Nat)
  | coreLoad (hart rd size : Nat) (signed : Bool) (va : W64)
  | coreStore (hart : Nat) (va : W64)
  | vecLoad (hart vreg elem size : Nat) (va : W64)
  | semSignal (id : Nat)
  | replica (pa : Nat)
  | step (id : Nat)
  deriving DecidableEq, Repr

/-- A remote access outstanding, under 2 ^ 21 × destination + TAG: its asker, the message sent, the window it went through,
the operand index, the ring of its command (1,024 for none) and the datum of its sending. -/
structure Remote where
  who     : RemoteFor
  msg     : Msg
  window  : Nat
  operand : Nat
  line    : Nat
  ring    : Nat
  since   : Nat
  deriving DecidableEq, Repr

/-- An IDE stream (spec/15 R534): keys programmed for the two directions, the secure state, and the insecure state after
a failed check. -/
structure IdeStream where
  tx       : Bool
  rx       : Bool
  secure   : Bool
  insecure : Bool
  deriving DecidableEq, Repr

/-- The host link beside its page (spec/15): the committed decoder's base, an uncommit that waits for a move (R520), the
datum of the MOVE write, host requests held by a move, configuration dwords written (endpoint and root port), whether
configuration requests are answered, an FLR in progress, the SPDM state (0 to 3) and its sessions, the IDE streams by
number, the datum and state of the last LTR message, a failed HDM commit, the datum of the link's training, and since when a
configuration request is retried; the DOE mailbox's dwords written and to be read, and its error; the CXL component registers that
the host has written; and the number of the last read of host memory issued (R524). -/
structure HlSt where
  hdmBase   : Nat
  uncommit  : Bool
  moveStart : Nat
  held      : List Instr
  cfg       : SMap W32
  rpCfg     : SMap W32
  answering : Bool
  flr       : Bool
  spdm      : Nat
  sessions  : SMap Nat
  streams   : SMap IdeStream
  ltrAt     : Option Nat
  ltrState  : Nat
  commitError : Bool
  upAt      : Nat
  retryAt   : Option Nat
  doeIn     : List W32
  doeOut    : List W32
  doeError  : Bool
  comp      : SMap W32
  lastRead  : Nat
  deriving DecidableEq, Repr

/-- A Proilad port beside its page (spec/16): whether its link is trained; SEQ to send and to expect; the replay buffer,
oldest flit first; since when the oldest flit waits and how often it was replayed; flits accepted and not acknowledged, and
the datum of the first; messages queued to go out, and received messages the router has not taken; SENT, LIMIT and FREED by
4 × class + VC (R552); whether COL goes next among REQ and COL (R554); the datum of the last flit received; when the link
went down; when the drain began and whether the partner has answered; and a refused drain's end. -/
structure PortSt where
  trained  : Bool
  nextSeq  : Nat
  expect   : Nat
  replay   : List (Nat × List Msg)
  sentAt   : Nat
  tries    : Nat
  accepted : Nat
  firstAt  : Nat
  queued   : List Msg
  rx       : List Msg
  sent     : SMap Nat
  limit    : SMap Nat
  freed    : SMap Nat
  colTurn  : Bool
  lastRx   : Nat
  downAt   : Option Nat
  drainAt  : Nat
  answered : Bool
  flashEnd : Option Nat
  deriving DecidableEq, Repr

/-- The router (spec/14, spec/16): bearing entries written; whether RT_NODE_ID is locked; remote accesses of this node and
the next TAG by destination; ports; messages of this node waiting to be routed; messages delivered here; accesses that
passed their landing check, with the address where they land (R491); the last TAGs performed by source (R563); the surveyor's
mailbox ring (R494); and collective records landed, by source, landing entry, COLLECTIVE_ID and STEP (R577). -/
structure RouterSt where
  bearing    : SMap Nat
  nodeLocked : Bool
  acc        : SMap Remote
  nextTag    : SMap Nat
  ports      : SMap PortSt
  inject     : List Msg
  arrived    : List Msg
  landed     : List (Msg × Nat)
  performed  : SMap (List Nat)
  mailbox    : List Item
  colSeen    : SMap Nat
  deriving DecidableEq, Repr

/-- The operator signals beside their page (spec/21): the datum of the last SGPIO frame that passed; by input (0 to 5 cables, 6 to
11 port buttons, 12 the package's) the passing frames in a row that differ from its recognised level; and whether the sideband
still answers as an SMBus target. -/
structure OpsSt where
  lastPass : Nat
  runs     : SMap Nat
  smbus    : Bool
  deriving DecidableEq, Repr

/-- Everything of the package but memory and the queue of commands. -/
structure Pkg where
  part       : Nat
  ddrBytes   : Nat
  disabled   : SMap Bool
  spills     : SMap Spill
  standalone : Bool
  regs       : SMap W64
  queues     : SMap Queue
  paths      : SMap Path
  pace       : PaceSt
  fuse       : FuseSt
  pwr        : PwrSt
  boot       : BootSt
  seq        : SeqSt
  fault      : FaultSt
  traces     : SMap TraceBlk
  tapIr      : SMap Nat
  ces        : SMap Ce
  qm         : QmSt
  xl         : XlSt
  home       : HomeSt
  memc       : MemSt
  harts      : SMap Hart
  aplic      : SMap W32
  hl         : HlSt
  rt         : RouterSt
  int        : IntSt
  ops        : OpsSt
  out        : List OutMsg
  free       : Nat
  deriving DecidableEq, Repr

/-- Memory: the written bytes of the package's physical address space and of host memory (addresses from
2 ^ 52 on), sorted by address, the poisoned granules by address (spec/18 R640), and the fenced HBM channels (R635) as
64 × stack + channel. -/
structure Memory where
  cells  : List Host.Cell
  poison : List Nat
  fenced : List Nat
  deriving DecidableEq, Repr

/-- The machine: the commands that wait, first in first out; memory; the rest of the package. -/
structure State where
  pending : List Instr
  mem     : Memory
  pkg     : Pkg
  deriving DecidableEq, Repr

/-- No command of this model stops with a fault: an access to an address that does not exist is the decode error of
R38, which answers with poison and an error record. Nobody raises a fault; the type has no constructor. -/
inductive Fault where
  deriving DecidableEq, Repr

/-- The refusals. -/
inductive Refusal where
  /-- Raised by `exec` for a command that has no meaning yet; safe. -/
  | notModelled (mnemonic : String)
  deriving DecidableEq, Repr

/-! ## The machine right after reset -/

def PaceSt.initial : PaceSt :=
  { datum := 0, running := false, beats := [], frac := [], heldNs := 0, lostNode := 16384, lostDist := 0, lostAt := 0, everSynced := false, setLocked := false, stepAllowed := true,
    synced1 := false, goodExch := 0, lastSync := 0, masterNode := 16384, masterDist := 0, syncPort := 0, ctlActive := 2,
    reqArrival := [], latches := [], latchAt := [] }

/-- The fuses of a package as shipped: hosted, POWER_CEILING 850 W, nothing retired, every spare at position 24 (log
entry 12). -/
def FuseSt.initial : FuseSt :=
  { personality := 0, persChanges := 0, ceiling := 850, debugLock := false, keyRevoked := 0, laneRetired := [],
    laneRecords := [], ceRetired := [], ceRecords := [], sparePos := [], trimMv := [], entries := [], requests := [], serving := false, unfinished := none }

def PwrSt.initial : PwrSt :=
  { railMv := [], tj := [], natural := [], haltSince := [], okSince := [], meanFrom := [], gateSet := 0, gateClosed := false, settledAt := 0,
    wanted := [], lastWrite := [], leak0 := [], demands := [], budget := [], thermScale := [], scaledAt := [],
    calibrated := 0, overSince := none, lastOverEnd := none, contours := [], holdCause := 0, flowOkSince := none,
    heldReady := [] }

def BootSt.initial : BootSt :=
  { slotA := none, slotB := none, activeSlot := 0, powerUps := 0, lossNoted := none, started := false, failed := false,
    running := none, staged := none, handover := none, flashOwner := 0, mboxFrom := [],
    dir := ⟨false, false, [], 0⟩, readMode := 0 }

def SeqSt.initial : SeqSt :=
  { railEnLink := false, railPgLink := false, railEnCore := false, railPgCore := false, dieReset := true,
    step5Done := false, climbAfter := false, resurvey := [], heldHarts := [], perst := false, perstOut := false,
    lasers := false, memRefresh := false }

def FaultSt.initial : FaultSt :=
  { handling := [], trackers := [], fired := [], rowSpares := [], sparedRows := [], chanSpared := [], marked := [],
    replica := [], repairs := [], ceOut := [], lossCause := [], bridgeSpare := [], bridgeDown := [], windowAt := [],
    openStalls := [] }

def IntSt.initial : IntSt := { eip := [], msixTable := [], pba := [], msixOn := false, msixMask := false }

def QmSt.initial : QmSt :=
  { cmds := [], nextId := 1, nextOrder := 0, dirs := [], oldDirs := [], bells := [], nextBell := 0, foldUsed := [],
    robin := [], holds := [], lastDone := [], cqWritten := [], remoteFail := [], lastAck := [] }

def XlSt.initial : XlSt :=
  { atc := [], requests := [], pris := [], retried := [], noCache := [], once := [], denied := [], invs := [], waits := [] }

def HomeSt.initial : HomeSt :=
  { queues := [], lastPort := [], tags := [], dir := [], bi := [], watches := [], pend := [], devCache := [], writer := [] }

def MemSt.initial : MemSt := { pcs := [], acc := [], ddrPhase := 0, ddrHalf := 0, doubled := [], throttled := [] }

def HlSt.initial : HlSt :=
  { hdmBase := 0, uncommit := false, moveStart := 0, held := [], cfg := [], rpCfg := [], answering := false, flr := false,
    spdm := 0, sessions := [], streams := [], ltrAt := none, ltrState := 0, commitError := false, upAt := 0, retryAt := none,
    doeIn := [], doeOut := [], doeError := false, comp := [], lastRead := 0 }

def RouterSt.initial : RouterSt :=
  { bearing := [], nodeLocked := false, acc := [], nextTag := [], ports := [], inject := [], arrived := [], landed := [],
    performed := [], mailbox := [], colSeen := [] }

def OpsSt.initial : OpsSt := { lastPass := 0, runs := [], smbus := true }

def Memory.empty : Memory := ⟨[], [], []⟩

/-- A package of part NH-TV1-A512-C whose AUX_PWRGD has not risen yet: every register at its reset value, nothing powered
(R671, R675). -/
def Pkg.initial : Pkg :=
  { part := 512, ddrBytes := 0, disabled := [], spills := [], standalone := false, regs := [], queues := [], paths := [],
    pace := PaceSt.initial, fuse := FuseSt.initial, pwr := PwrSt.initial, boot := BootSt.initial, seq := SeqSt.initial,
    fault := FaultSt.initial, traces := [], tapIr := [], ces := [], qm := QmSt.initial, xl := XlSt.initial,
    home := HomeSt.initial, memc := MemSt.initial, harts := [], aplic := [], hl := HlSt.initial, rt := RouterSt.initial,
    int := IntSt.initial, ops := OpsSt.initial, out := [], free := 0 }

def State.reset : State := ⟨[], Memory.empty, Pkg.initial⟩

/-- A command that changes the package and leaves memory and the queue as they are. -/
def State.onPkg (s : State) (f : Pkg → Pkg) : State := { s with pkg := f s.pkg }

end Sys2Proof.Machine
end

