-- ==== Sys2Proof/Machine/Ops.lean ====
section
/-! DEFINITION. The named operations on the package's state that every family of commands shares: sparse maps, register
reads and updates, interrupts, waypoints, error records, ownership and readiness, register-visible queues. -/

namespace Sys2Proof.Machine

/-! ## Sparse maps -/

/-- The value at a key, `d` where the key is not listed. -/
def SMap.get {α : Type} (m : SMap α) (k : Nat) (d : α) : α :=
  match m with
  | [] => d
  | (k', v) :: t => if k = k' then v else SMap.get t k d

/-- The map with the value at a key replaced, kept sorted by key. -/
def SMap.set {α : Type} (m : SMap α) (k : Nat) (v : α) : SMap α :=
  match m with
  | [] => [(k, v)]
  | (k', v') :: t =>
    if k < k' then (k, v) :: (k', v') :: t
    else if k = k' then (k, v) :: t
    else (k', v') :: SMap.set t k v

/-- The map without the keys that `f` names. -/
def SMap.drop {α : Type} (m : SMap α) (f : Nat → Bool) : SMap α := List.filter (fun x => !f x.1) m

/-! ## Registers -/

/-- The key of the register at offset `off` of page `pg`: its aperture offset. -/
def key (pg off : Nat) : Nat := pg * 0x1000 + off

/-- Whether a CE stands at its quadrangle's spare position as fused (R25). -/
def isFusedSpare (p : Pkg) (n : Nat) : Bool :=
  n % 256 % 25 == SMap.get p.fuse.sparePos (qdOfCe n) 24

/-- The fused reset values of QD_CE_ACTIVE and QD_CE_SPARE (Table 18-9): every position but the retired ones and a spare that
waits; a spare that is retired, or stands in for a retired CE, does not wait. -/
def fusedActive (p : Pkg) (qd : Nat) : Nat :=
  let out := SMap.get p.fuse.ceRetired qd 0
  let idle := if out = 0 then 2 ^ SMap.get p.fuse.sparePos qd 24 else out
  msk 24 0 - idle % 2 ^ 25

def fusedSpare (p : Pkg) (qd : Nat) : Nat :=
  SMap.get p.fuse.sparePos qd 24 + if SMap.get p.fuse.ceRetired qd 0 = 0 then 128 else 0

/-- The reset value of the register at a key: its row's (Table 22-3), the owner in PAGE_STATE (Table 1-8), ENABLE 0 on a
spare CE (Table 4-6). -/
def regReset (p : Pkg) (k : Nat) : W64 :=
  match pageInfo (k / 0x1000) with
  | none => 0
  | some pi =>
    if k % 0x1000 = 8 then BitVec.ofNat 64 (resetOwner pi.cls p.standalone * 256)
    else if k % 0x1000 = 0xC ∧ pi.cls = 0x01 ∧ isFusedSpare p (256 * pi.die + pi.inst) then 0
    else if k % 0x1000 = 0x100 ∧ pi.cls = 0x02 then BitVec.ofNat 64 (fusedActive p (8 * pi.die + pi.inst))
    else if k % 0x1000 = 0x104 ∧ pi.cls = 0x02 then BitVec.ofNat 64 (fusedSpare p (8 * pi.die + pi.inst))
    else match regRow k with
      | some (r, _) => BitVec.ofNat 64 r.reset
      | none => 0

/-- The stored value of a register. -/
def reg (p : Pkg) (k : Nat) : W64 := SMap.get p.regs k (regReset p k)

/-- The package with a register's stored value replaced. -/
def setReg (p : Pkg) (k : Nat) (v : W64) : Pkg := { p with regs := SMap.set p.regs k v }

/-- A register's stored value as a number. -/
def regN (p : Pkg) (k : Nat) : Nat := (reg p k).toNat

/-- The field [hi:lo] of a register. -/
def fld (p : Pkg) (k hi lo : Nat) : Nat := bitsOf (reg p k) hi lo

/-- Bit n of a register. -/
def bit (p : Pkg) (k n : Nat) : Bool := bitOf (reg p k) n

/-- The package with the field [hi:lo] of a register replaced. -/
def setFld (p : Pkg) (k hi lo v : Nat) : Pkg := setReg p k (withBits (reg p k) hi lo v)

/-- The package with bit n of a register replaced. -/
def setBit (p : Pkg) (k n : Nat) (b : Bool) : Pkg := setFld p k n n (bitNat b)

/-- A register that counts, saturating at `top`. -/
def bumpReg (p : Pkg) (k by' top : Nat) : Pkg := setReg p k (BitVec.ofNat 64 (satAdd top (regN p k) by'))

/-- A 64-bit counter register that wraps (R700). -/
def addReg (p : Pkg) (k by' : Nat) : Pkg := setReg p k (reg p k + BitVec.ofNat 64 by')

/-- A field that counts, saturating at its largest value. -/
def bumpFld (p : Pkg) (k hi lo : Nat) : Pkg :=
  setFld p k hi lo (satAdd (2 ^ (hi + 1 - lo) - 1) (fld p k hi lo) 1)

/-- The first page of a page's block; the page itself where it is absent. -/
def firstPage (pg : Nat) : Nat :=
  match pageInfo pg with
  | some pi => pi.first
  | none => pg

/-- The class of a page's block, 0 where it is absent. -/
def classOf (pg : Nat) : Nat :=
  match pageInfo pg with
  | some pi => pi.cls
  | none => 0

/-- The index of a page within its block. -/
def pageIndex (pg : Nat) : Nat :=
  match pageInfo pg with
  | some pi => pi.index
  | none => 0

def owner (p : Pkg) (pg : Nat) : Nat := fld p (key pg 8) 11 8
def ready (p : Pkg) (pg : Nat) : Bool := bit p (key (firstPage pg) 8) 0
def busyBit (p : Pkg) (pg : Nat) : Bool := bit p (key (firstPage pg) 8) 1
def inFault (p : Pkg) (pg : Nat) : Bool := bit p (key (firstPage pg) 8) 2
def retired (p : Pkg) (pg : Nat) : Bool := bit p (key (firstPage pg) 8) 3
def surveying (p : Pkg) (pg : Nat) : Bool := bit p (key (firstPage pg) 8) 4
def quiesced (p : Pkg) (pg : Nat) : Bool := bit p (key (firstPage pg) 0xC) 1
def enabled (p : Pkg) (pg : Nat) : Bool := bit p (key (firstPage pg) 0xC) 0

/-- Whether the die of a page has its rails (R735): pages of the sheets and of the processor die are absent while
RAIL_PG_CORE is deasserted. -/
def present (p : Pkg) (pg : Nat) : Bool :=
  match pageInfo pg with
  | none => false
  | some pi => pi.die == 5 || p.seq.railPgCore

/-! ## Messages and interrupts -/

/-- A message leaves the package. -/
def emitMsg (p : Pkg) (m : OutMsg) : Pkg := { p with out := m :: p.out }

/-- The key of one eip bit: hart, interrupt file (0 M-level, 1 S-level, 2 to 8 guest), identity. -/
def eipKey (hart file identity : Nat) : Nat := (hart * 16 + file) * 2048 + identity

/-- A message to an IMSIC file sets its eip bit (R429 to R432). -/
def setEip (p : Pkg) (hart file identity : Nat) : Pkg :=
  { p with int := { p.int with eip := SMap.set p.int.eip (eipKey hart file identity) true } }

/-- Whether a vector is masked: its Vector Control bit 0 (dword 3 of its entry, set at reset), the function's mask, or
MSI-X not enabled (R510). -/
def vectorMasked (p : Pkg) (v : Nat) : Bool :=
  p.int.msixMask || !p.int.msixOn || bitOf (SMap.get p.int.msixTable (4 * v + 3) (1 : W32)) 0

/-- An event routed to an MSI-X vector: a message, or the vector's pending bit while it is masked (R510). -/
def sendMsix (p : Pkg) (v : Nat) : Pkg :=
  if vectorMasked p v then { p with int := { p.int with pba := SMap.set p.int.pba v true } }
  else emitMsg p (.msix v)

/-- One interrupt message to the destination that a word laid out as INT_ROUTE (Table 4-9) names. -/
def deliver (p : Pkg) (pg : Nat) (route : W64) : Pkg :=
  match bitsOf route 31 30 with
  | 1 => emitMsg p (.surveyorInt pg)
  | 2 => setEip p (bitsOf route 26 16) 1 (bitsOf route 10 0)
  | 3 => sendMsix p (bitsOf route 26 16)
  | _ => p

/-- INT_PENDING and INT_ENABLE take new values; one message is sent when their common bits go from none to some
(R156). -/
def setInt (p : Pkg) (pg : Nat) (pend en : W64) : Pkg :=
  let old := reg p (key pg 0x20) &&& reg p (key pg 0x24)
  let p' := setReg (setReg p (key pg 0x20) pend) (key pg 0x24) en
  if old = 0 ∧ pend &&& en ≠ 0 then deliver p' pg (reg p (key pg 0x28)) else p'

/-- INT_PENDING bits of a page are set. -/
def raise (p : Pkg) (pg : Nat) (bits : W64) : Pkg :=
  setInt p pg (reg p (key pg 0x20) ||| bits) (reg p (key pg 0x24))

/-- INT_PENDING.BLOCK bit n of a page is set (Table 22-5). -/
def raiseBlock (p : Pkg) (pg n : Nat) : Pkg := raise p pg (BitVec.ofNat 64 (2 ^ (16 + n)))

/-! ## Harts (R415, R416) -/

def Hart.empty : Hart :=
  { sb := [], fencing := false, x := [], v := [], resv := none, delayed := [], tlb := [], icache := [], pc := 0, mMode := true,
    csr := [], holding := false, starting := false, xcause := none, xtval := 0 }
def hart (p : Pkg) (h : Nat) : Hart := SMap.get p.harts h Hart.empty
def setHart (p : Pkg) (h : Nat) (x : Hart) : Pkg := { p with harts := SMap.set p.harts h x }

/-- A CSR of a hart by its number, and a CSR taking a value. -/
def csr (p : Pkg) (h n : Nat) : W64 := SMap.get (hart p h).csr n 0
def setCsr (p : Pkg) (h n : Nat) (v : W64) : Pkg := setHart p h { hart p h with csr := SMap.set (hart p h).csr n v }

/-- mcycle and cycle count the beats of the processor die (R55, R90): the stored difference and the die's beat counter. -/
def mcycle (p : Pkg) (h : Nat) : W64 := csr p h 0xB00 + BitVec.ofNat 64 (SMap.get p.pace.beats 4 0)

/-- A FENCE of R328 waits: stores stand in the buffer, or stores to windows have not been acknowledged. -/
def fenceWaits (p : Pkg) (h : Nat) : Bool :=
  (hart p h).fencing && (!(hart p h).sb.isEmpty ||
    p.rt.acc.any (fun x => match x.2.who with | .coreStore h' _ => h' == h | _ => false))

/-- R701: the mhpmcounters of a hart whose mhpmevent selects an event count n of them, but for those that mcountinhibit stops. -/
def hartEvent (p : Pkg) (h code n : Nat) : Pkg :=
  ((List.range 32).filter (fun i => decide (3 ≤ i) && bitsOf (csr p h (0x320 + i)) 15 0 == code && !bitOf (csr p h 0x320) i)).foldl
    (fun q i => setCsr q h (0xB00 + i) (csr q h (0xB00 + i) + BitVec.ofNat 64 n)) p

/-! ## Register-visible queues -/

def Queue.empty : Queue := ⟨[], 0, 0, 0, []⟩

/-- The queue whose pop register stands at a key. -/
def queue (p : Pkg) (k : Nat) : Queue := SMap.get p.queues k Queue.empty

def setQueue (p : Pkg) (k : Nat) (q : Queue) : Pkg := { p with queues := SMap.set p.queues k q }

/-- The capacity in items of the queue whose pop register stands at page offset `off` of class `cls`: waypoint ring 64,
error record queue 32 (Table 3-5), event queue 64 (R305), fault queue 64 (R487), hot queue 64 (R410). -/
def queueCap (off : Nat) : Nat := if off = 0x18 then 32 else 64

/-- Whether the queue is KEEP_NEWEST (R115): the waypoint ring and the hot queues (R410). -/
def keepNewest (off : Nat) : Bool := off == 0x30 || off == 0x190 || off == 0x410

/-- Adds an item whose first word has its sequence number in bits [15:0] where `seqInWord` holds. -/
def Queue.add (q : Queue) (words : List W64) (seqInWord : Bool) : Queue :=
  let ws := match words with
    | w :: t => (if seqInWord then withBits w 15 0 q.nextSeq else w) :: t
    | [] => []
  { q with items := q.items ++ [(q.nextSeq, ws)], nextSeq := (q.nextSeq + 1) % 65536 }

def Queue.drop1 (q : Queue) : Queue := { q with dropped := satAdd 65535 q.dropped 1 }

/-- The oldest item that is not protected is overwritten: the head, or the item after it while the head is partly
popped (R115). -/
def Queue.overwrite (q : Queue) : Queue :=
  match q.items with
  | [] => q
  | h :: t => if q.popped = 0 then { q.drop1 with items := t } else { q.drop1 with items := h :: t.tail }

/-- Hardware pushes an item (R115): KEEP_OLDEST drops the new item when the queue is full, KEEP_NEWEST overwrites the
oldest item that is not protected. -/
def Queue.push (q : Queue) (cap : Nat) (newest : Bool) (words : List W64) (seqInWord : Bool) : Queue :=
  if q.items.length < cap then q.add words seqInWord
  else if newest then (q.overwrite).add words seqInWord
  else q.drop1

/-- The words of an entry as a pop returns them: one with an uncorrectable error is a record RECORD_CORRUPT of severity
CORRECTED that keeps its SEQ, every other field zero (R621). -/
def Queue.words (q : Queue) (seq : Nat) (ws : List W64) : List W64 :=
  if seq ∈ q.bad then BitVec.ofNat 64 (2 * 2 ^ 32 + seq % 65536) :: List.replicate (ws.length - 1) 0 else ws

/-- An entry of the queue gets an uncorrectable error. -/
def Queue.corrupt (q : Queue) (seq : Nat) : Queue :=
  if q.items.any (fun x => x.1 == seq) then { q with bad := (seq :: q.bad).eraseDups } else q

/-- A pop (R110, R111): the word returned, and the queue after it. -/
def Queue.pop (q : Queue) : W64 × Queue :=
  match q.items with
  | [] => (BitVec.ofNat 64 q.nextSeq, q)
  | (seq, raw) :: t =>
    let ws := q.words seq raw
    let w := (ws.getD q.popped 0) &&& BitVec.ofNat 64 (msk 61 0)
    let r := w ||| BitVec.ofNat 64 (2 ^ 63 + bitNat (q.popped == 0) * 2 ^ 62)
    if q.popped + 1 < ws.length then (r, { q with popped := q.popped + 1 })
    else (r, { q with items := t, popped := 0, bad := q.bad.filter (· != seq) })

/-- The queue status word (Table 3-3). -/
def Queue.status (q : Queue) (cap : Nat) : W64 :=
  let hs := match q.items with
    | (n, _) :: _ => n
    | [] => q.nextSeq
  BitVec.ofNat 64 (hs * 2 ^ 48 + q.dropped * 2 ^ 32 + bitNat (q.items.length == cap) * 2 ^ 30 + q.items.length)

/-- Hardware pushes an item to the queue at a pop register's key. -/
def pushQueue (p : Pkg) (k : Nat) (words : List W64) (seqInWord : Bool) : Pkg :=
  setQueue p k ((queue p k).push (queueCap (k % 0x1000)) (keepNewest (k % 0x1000)) words seqInWord)

/-! ## Waypoints, readiness, ownership -/

/-- A waypoint of Table 20-1 in the ring of a block's first page. -/
def waypoint (p : Pkg) (pg event sub arg : Nat) : Pkg :=
  pushQueue p (key (firstPage pg) 0x30)
    [BitVec.ofNat 64 (event % 256 * 2 ^ 48 + arg % 65536 * 2 ^ 32 + sub % 65536 * 2 ^ 16),
     BitVec.ofNat 64 (p.pace.datum % 2 ^ 62)] true

/-- READY takes a value; a change sets INT_PENDING.READY_CHANGE and pushes the waypoint (R143, Table 20-2). A block that
SV_READY_MAP shows changes that register (Tables 19-13, 22-5). -/
def setReady (p : Pkg) (pg : Nat) (b : Bool) : Pkg :=
  if ready p pg = b then p
  else
    let p1 := waypoint (raise (setBit p (key (firstPage pg) 8) 0 b) (firstPage pg) 4) pg 0x01 0 (bitNat b)
    if classOf pg ∈ [0x01, 0x04, 0x05, 0x06, 0x07, 0x08, 0x0A, 0x0D, 0x0E, 0x0F] then raiseBlock p1 pgSv 1 else p1

def setBusy (p : Pkg) (pg : Nat) (b : Bool) : Pkg := setBit p (key (firstPage pg) 8) 1 b

/-- OWNER of a page takes a value; a change sets OWNER_CHANGE, of the page itself on a first page and on surveyor pages
1 to 3, of the block's first page otherwise, and pushes the waypoint (R128, R153). -/
def setOwner (p : Pkg) (pg o : Nat) : Pkg :=
  let old := owner p pg
  if old = o then p
  else
    let ip := if classOf pg = 0x0B then pg else firstPage pg
    waypoint (raise (setFld p (key pg 8) 11 8 o) ip 2) pg 0x02 (pageIndex pg) (old * 16 + o)

/-! ## Error records (spec/18) -/

def sevCorrected : Nat := 0
def sevDeferred : Nat := 1
def sevContained : Nat := 2
def sevPackage : Nat := 3

/-- What Table 18-4 gives a code: severity and whether it counts in the counting window. -/
def codeRow (code : Nat) : Nat × Bool :=
  if code ∈ [0x10, 0x20, 0x22, 0x30, 0x40, 0x50, 0x60, 0x70, 0xB0] then (0, true)
  else if code ∈ [0x01, 0x02, 0x61, 0x62, 0x82, 0x90, 0x91, 0xC0] then (0, false)
  else if code ∈ [0x23, 0x24, 0x32, 0x33, 0x42, 0x43, 0x51, 0x63] then (2, false)
  else if code ∈ [0x72, 0x73, 0x74, 0x75] then (3, false)
  else (1, false)

/-- Where a counting record is counted per unit (Table 18-5): number of the tracker within the block, the unit's number
and the tracker's entries. The CE and blocks of no class below count the page; any other code only raises COUNT. -/
def trackOf (cls : Nat) (e : ErrArgs) : List (Nat × Nat × Nat) :=
  if cls = 0x04 then
    if e.code = 0x30 then [(0, e.addr / 2 ^ 21 % 2 ^ 16 * 1024 + e.detail % 1024, 256)] else []
  else if cls = 0x05 then
    if e.code = 0x40 then [(0, e.detail % 256, 160), (1, Config.ddrRow (e.addr / 64), 256)] else []
  else if cls = 0x09 then if e.code = 0x60 then [(0, e.detail % 32, 18)] else []
  else if cls = 0x06 ∨ cls = 0x07 then if e.code = 0x50 then [(0, e.detail % 256, 132)] else []
  else if cls = 0x0A then if e.code = 0x50 then [(e.detail / 256 % 4, e.detail % 256, 132)] else []
  else if cls = 0x03 then if e.code = 0xB0 then [(0, e.detail % 32, 32)] else []
  else if cls = 0x0C then if e.code = 0x70 then [(0, e.detail % 4, 4)] else []
  else [(0, 0, 1)]

/-- The key of a tracker, and of a unit's mark that its threshold action has been taken in this window. -/
def trackKey (pg t : Nat) : Nat := pg * 4 + t

/-- The target of an error (R622): its 64-byte line, or the unit where there is no address. -/
def errTarget (e : ErrArgs) : Nat := if e.addrKind = 0 then 2 * e.unit + 1 else 2 * (e.addr / 64)

def errLookup (l : List (Nat × Nat)) (u : Nat) : Nat :=
  match l with
  | [] => 0
  | (u', n) :: t => if u = u' then n else errLookup t u

/-- A unit's count raised by one; a tracker that is full evicts the unit held longest (R626). -/
def trackBump (cap : Nat) (l : List (Nat × Nat)) (u : Nat) : List (Nat × Nat) :=
  if l.any (fun x => x.1 == u) then l.map (fun x => if x.1 = u then (u, satAdd 255 x.2 1) else x)
  else if l.length < cap then l ++ [(u, 1)] else l.tail ++ [(u, 1)]

/-- The severity with which an error is logged, and whether it is escalated (R623). -/
def escalate (p : Pkg) (pg : Nat) (e : ErrArgs) : Nat × Bool :=
  let sev := (codeRow e.code).1
  if sev < 2 ∧ errTarget e ∈ SMap.get p.fault.handling pg [] then (sev + 1, true) else (sev, false)

/-- One tracker takes a record: its unit's count, and INT_PENDING.WINDOW_COUNT once when the count reaches THRESHOLD
(R625, R626). -/
def countUnit (pg : Nat) (p : Pkg) (x : Nat × Nat × Nat) : Pkg :=
  let k := trackKey pg x.1
  let tr := trackBump x.2.2 (SMap.get p.fault.trackers k []) x.2.1
  let fired := SMap.get p.fault.fired k []
  let p1 := { p with fault := { p.fault with trackers := SMap.set p.fault.trackers k tr } }
  if errLookup tr x.2.1 = fld p (key pg 0x2C) 23 16 ∧ x.2.1 ∉ fired then
    raise { p1 with fault := { p1.fault with fired := SMap.set p1.fault.fired k (x.2.1 :: fired) } } pg 8
  else p1

/-- The counts of a record that counts (R625, R626): COUNT of the page, and each unit's. -/
def countWindow (p : Pkg) (pg : Nat) (e : ErrArgs) : Pkg :=
  let n := fld p (key pg 0x2C) 31 24
  let p1 := bumpFld p (key pg 0x2C) 31 24
  let p2 := if n + 1 = fld p (key pg 0x2C) 23 16 then raise p1 pg 8 else p1
  (trackOf (classOf pg) e).foldl (countUnit pg) p2

/-- Whether logging this record makes the count of its unit in tracker `t` reach THRESHOLD, once in the window (R626). -/
def thresholdAt (p : Pkg) (pg t : Nat) (e : ErrArgs) : Bool :=
  (codeRow e.code).2 && (trackOf (classOf pg) e).any (fun x =>
    x.1 == t && errLookup (SMap.get p.fault.trackers (trackKey pg t) []) x.2.1 + 1 == fld p (key pg 0x2C) 23 16 &&
      !(SMap.get p.fault.fired (trackKey pg t) []).contains x.2.1)

def thresholdHit (p : Pkg) (pg : Nat) (e : ErrArgs) : Bool := thresholdAt p pg 0 e

/-- The count that a record carries (Table 18-2): its unit's, or the page's where no tracker counts its unit. -/
def recordCount (p : Pkg) (pg : Nat) (e : ErrArgs) : Nat :=
  match trackOf (classOf pg) e with
  | x :: _ => errLookup (SMap.get p.fault.trackers (trackKey pg x.1) []) x.2.1
  | [] => fld p (key pg 0x2C) 31 24

/-- A new counting window: COUNT and every unit's count start at 0 (R625). -/
def newWindow (p : Pkg) (pg : Nat) : Pkg :=
  let mine (k : Nat) : Bool := k / 4 == pg
  { setFld p (key pg 0x2C) 31 24 0 with fault := { p.fault with
      trackers := SMap.drop p.fault.trackers mine
      fired := SMap.drop p.fault.fired mine
      windowAt := SMap.set p.fault.windowAt pg p.pace.datum } }

/-- The four words of an error record (Table 18-2). -/
def errWords (sev : Nat) (esc : Bool) (e : ErrArgs) (datum count : Nat) : List W64 :=
  [BitVec.ofNat 64 (sev * 2 ^ 60 + bitNat esc * 2 ^ 59 + e.addrKind % 4 * 2 ^ 57 + e.code % 65536 * 2 ^ 32 +
     e.unit % 65536 * 2 ^ 16),
   BitVec.ofNat 64 (e.addr % 2 ^ 57), BitVec.ofNat 64 (datum % 2 ^ 62),
   BitVec.ofNat 64 (count % 65536 * 2 ^ 32 + e.detail % 2 ^ 32)]

/-- The record joins the error record queue, whose last free slot is kept for PACKAGE records; a record without room
sets OVERFLOW and counts in LOST (R620). -/
def pushRecord (p : Pkg) (pg sev : Nat) (ws : List W64) : Pkg :=
  let k := key pg 0x18
  let q := queue p k
  if q.items.length < (if sev = 3 then 32 else 31) then setQueue p k (q.add ws true)
  else setBit (bumpFld (setQueue p k q.drop1) (key pg 0x10) 30 24) (key pg 0x10) 31 true

/-- An error is logged on a block's first page (R616 to R626): the record, the severity bit of ERR_SUMMARY, the
interrupt unless masked, the window counts and the ERROR_LOGGED waypoint. `datum` is the datum the record carries. -/
def logErrAt (p : Pkg) (pg : Nat) (e : ErrArgs) (datum : Nat) : Pkg :=
  let (sev, esc) := escalate p pg e
  let counts := (codeRow e.code).2
  let p1 := if counts then countWindow p pg e else p
  let cnt := if counts then recordCount p1 pg e else 0
  let p2 := pushRecord p1 pg sev (errWords sev esc e datum cnt)
  let p3 := setBit p2 (key pg 0x10) sev true
  let p4 := if sev < 3 ∧ bit p (key pg 0x14) sev then p3 else raise p3 pg 1
  waypoint p4 pg 0x06 e.unit e.code

def logErr (p : Pkg) (pg : Nat) (e : ErrArgs) : Pkg := logErrAt p pg e p.pace.datum

/-- A target joins a block's handling list of 8, or finds it full (R622, R623). -/
def beginHandling (p : Pkg) (pg : Nat) (e : ErrArgs) : Pkg :=
  let l := SMap.get p.fault.handling pg []
  if errTarget e ∈ l ∨ 8 ≤ l.length then p
  else { p with fault := { p.fault with handling := SMap.set p.fault.handling pg (errTarget e :: l) } }

/-- A target leaves the handling list when its recovery action has completed (R622). -/
def endHandling (p : Pkg) (pg target : Nat) : Pkg :=
  { p with fault := { p.fault with
      handling := SMap.set p.fault.handling pg ((SMap.get p.fault.handling pg []).filter (· != target)) } }

/-- A foreign write (R154): the first sets FOREIGN and logs FOREIGN_WRITE on the block's first page; later ones only
count. The surplus masked by ERR_MASK[8] is the record's interrupt alone. -/
def logForeign (p : Pkg) (rq : Requester) (pg off : Nat) : Pkg :=
  let f := firstPage pg
  let p1 := bumpFld p (key f 0x10) 23 16
  if bit p (key f 0x10) 8 then p1
  else
    let e : ErrArgs := ⟨0x01, 0, 0, 0, rq.code * 2 ^ 28 + pageIndex pg * 2 ^ 16 + off % 0x1000⟩
    let p2 := setBit p1 (key f 0x10) 8 true
    if bit p (key f 0x14) 8 then
      waypoint (setBit (pushRecord p2 f 0 (errWords 0 false e p.pace.datum 0)) (key f 0x10) 0 true) f 0x06 0 0x01
    else logErr p2 f e

/-! ## Register writes -/

/-- What becomes of a register write (R36, R142, R149, R735). -/
inductive WriteFate where
  | absent
  | foreign
  | notReady
  | accepted
  deriving DecidableEq, Repr

/-- The fate of a write by `rq` at offset `off` of page `pg`. Doorbells are recorded before READY (R52). -/
def writeFate (p : Pkg) (rq : Requester) (pg off : Nat) : WriteFate :=
  if !present p pg then .absent
  else if rq.code = 0 ∨ rq.code ≠ owner p pg then .foreign
  else if 0x100 ≤ off ∧ !ready p pg ∧ !(classOf pg == 0x0D && 17 ≤ pageIndex pg) then .notReady
  else .accepted

/-- A register write applies `f` where it is accepted, is a foreign write, or is discarded. -/
def ifWrites (p : Pkg) (rq : Requester) (pg off : Nat) (f : Pkg → Pkg) : Pkg :=
  match writeFate p rq pg off with
  | .absent => p
  | .foreign => logForeign p rq pg off
  | .notReady => p
  | .accepted => f p

/-- A register takes a written value through its row's access bits (Table 0-3): RW bits take the value's, W1C bits are
cleared where the value has 1, all others keep theirs. -/
def mergeWrite (r : Row) (old value : W64) : W64 :=
  let rw := BitVec.ofNat 64 r.rw
  ((old &&& ~~~rw) ||| (value &&& rw)) &&& ~~~(value &&& BitVec.ofNat 64 r.w1c)

/-! ## Free values -/

/-- The counter of free values steps; the value itself is `Config.freeWord` of the counter read before. -/
def nextFree (p : Pkg) : Pkg := { p with free := p.free + 1 }

end Sys2Proof.Machine
end

