-- ==== Sys2Proof/Machine/Mem.lean ====
section
/-! DEFINITION. Memory: the address map (spec/01 Table 1-6), reads and writes of bytes in canonical form, and poison
(spec/18 R640 to R642). Host memory, reached over CXL.cache or by host physical address, stands from 2 ^ 52 on. -/

namespace Sys2Proof.Machine

/-- Where a package physical address leads (Table 1-6, R34, R35, R37). -/
inductive Region where
  | ddr (off : Nat)
  | hbm (sheet off : Nat)
  | slm (slice byte : Nat)
  | control (off : Nat)
  | window (w off : Nat)
  | host (hpa : Nat)
  | reserved
  deriving DecidableEq, Repr

def slmBase : Nat := 0x200000000000
def hbmBase : Nat := 0x100000000000
def ctlBase : Nat := 0x300000000000
def winBase : Nat := 0x400000000000
/-- The key at which host physical address 0 stands in this model's memory. -/
def hostBase : Nat := 2 ^ 52

def region (pa : Nat) : Region :=
  if pa < 0x20000000000 then .ddr pa
  else if hbmBase ≤ pa ∧ pa < 0x108000000000 then
    .hbm ((pa - hbmBase) / 0x2000000000) ((pa - hbmBase) % 0x2000000000)
  else if slmBase ≤ pa ∧ pa < 0x200020000000 then
    .slm ((pa - slmBase) / 0x200000) ((pa - slmBase) % 0x200000)
  else if ctlBase ≤ pa ∧ pa < 0x300004000000 then .control (pa - ctlBase)
  else if winBase ≤ pa ∧ pa < 0x800000000000 then
    .window ((pa - winBase) / 0x1000000000) ((pa - winBase) % 0x1000000000)
  else if hostBase ≤ pa then .host (pa - hostBase)
  else .reserved

/-- The ways of a slice's scratchpad part: CURRENT, or the lower of CURRENT and TARGET during a change (R363, R370).
The slice is 64 × sheet + INSTANCE, and the quadrangle 8 × sheet + q has eight slices. -/
def scratchWays (p : Pkg) (slice : Nat) : Nat :=
  let k := key (pgQd (slice / 8)) 0x180
  if bit p k 31 then min (fld p k 20 16) (fld p k 4 0) else fld p k 20 16

/-- Bytes of HBM populated per sheet (Table 1-7). -/
def hbmPerSheet (p : Pkg) : Nat := if p.part = 512 then 0x2000000000 else 0x1000000000

/-- Whether an address has memory behind it: the boot region always (R437), DDR once it is up, populated HBM, the
scratchpad part. A false answer is the decode error of R38. -/
def populated (p : Pkg) (pa : Nat) : Bool :=
  match region pa with
  | .ddr off => decide (off < 0x1000000) || (p.memc.ddrPhase == 1 && decide (off < p.ddrBytes))
  | .hbm _ off => decide (off < hbmPerSheet p)
  | .slm slice byte => decide (byte < scratchWays p slice * 131072)
  | .host _ => true
  | _ => false

/-- Whether `n` bytes from `pa` on are populated at both ends and lie in one region of memory. -/
def populatedRange (p : Pkg) (pa n : Nat) : Bool := populated p pa && populated p (pa + n - 1)

/-- Whether a region lies wholly in populated HBM or in the scratchpad part (R119, R698). A range of more than one slice
checks each slice it meets. -/
def hbmOrScratch (p : Pkg) (pa n : Nat) : Bool :=
  match region pa, region (pa + n - 1) with
  | .hbm _ _, .hbm _ _ =>
    populated p pa && populated p (pa + n - 1) &&
      (List.range 4).all (fun s =>
        let e := hbmBase + s * 0x2000000000 + hbmPerSheet p
        !(decide (pa < e) && decide (e < pa + n) && decide (hbmPerSheet p < 0x2000000000)))
  | .slm a _, .slm b e =>
    (List.range (b - a)).all (fun i => decide (scratchWays p (a + i) = 16)) && decide (e < scratchWays p b * 131072)
  | _, _ => false

/-! ## Bytes -/

/-- What an unlisted byte reads as: zero in the SLM scratchpad aperture (R372, R664); no stated value in HBM, DDR and
host memory. -/
def memDefault (a : Nat) : Option Byte :=
  if slmBase ≤ a ∧ a < 0x200020000000 then some 0 else none

/-- The written byte at an address. -/
def lookupCell (m : List Host.Cell) (a : Nat) : Option Byte :=
  match m with
  | [] => none
  | (a', b) :: t => if a = a' then some b else lookupCell t a

def eraseCell (m : List Host.Cell) (a : Nat) : List Host.Cell :=
  match m with
  | [] => []
  | (a', b) :: t => if a = a' then t else (a', b) :: eraseCell t a

/-- The byte at an address; a free value where nothing has been written and the spec states none (R664). -/
def Memory.byte (m : Memory) (a : Nat) : Byte :=
  match lookupCell m.cells a with
  | some b => b
  | none => (memDefault a).getD (Config.unwritten a)

/-- One byte written; writing what an unlisted address reads as removes the entry, so that equal memories are equal
data. -/
def setCell (m : List Host.Cell) (a : Nat) (b : Byte) : List Host.Cell :=
  if memDefault a = some b then eraseCell m a else SMap.set m a b

def Memory.setByte (m : Memory) (a : Nat) (b : Byte) : Memory := { m with cells := setCell m.cells a b }

/-- `n` bytes of a little-endian number written from an address on. -/
def Memory.write (m : Memory) (a n v : Nat) : Memory :=
  match n with
  | 0 => m
  | n + 1 => Memory.write (m.setByte a (BitVec.ofNat 8 v)) (a + 1) n (v / 256)

/-- `n` bytes read from an address on as a little-endian number. -/
def Memory.read (m : Memory) (a n : Nat) : Nat :=
  match n with
  | 0 => 0
  | n + 1 => (m.byte a).toNat + 256 * Memory.read m (a + 1) n

/-- The canonical form: addresses strictly rising, no entry equal to what an unlisted address reads as. -/
def cellsWf (m : List Host.Cell) : Bool :=
  match m with
  | [] => true
  | [(a, b)] => decide (memDefault a ≠ some b)
  | (a, b) :: (a', b') :: t => decide (memDefault a ≠ some b) && decide (a < a') && cellsWf ((a', b') :: t)

/-- A list is strictly rising. -/
def risingList (l : List Nat) : Bool :=
  match l with
  | [] => true
  | [_] => true
  | a :: b :: t => decide (a < b) && risingList (b :: t)

def Memory.wf (m : Memory) : Bool := cellsWf m.cells && risingList m.poison && risingList m.fenced

/-! ## Poison -/

/-- The poison granule of an address: 32 bytes in the scratchpad aperture, else the 64-byte line (R640). -/
def granule (a : Nat) : Nat := if slmBase ≤ a ∧ a < 0x200020000000 then a / 32 * 32 else a / 64 * 64

def insertRising (l : List Nat) (a : Nat) : List Nat :=
  match l with
  | [] => [a]
  | b :: t => if a < b then a :: b :: t else if a = b then b :: t else b :: insertRising t a

def Memory.setPoison (m : Memory) (a : Nat) : Memory := { m with poison := insertRising m.poison (granule a) }

/-- What a loss of the package's power, or a package power-up, leaves of memory: host memory, which the package does not
power (R664, R671, R749). -/
def Memory.hostOnly (m : Memory) : Memory :=
  ⟨m.cells.filter (fun c => decide (2 ^ 52 ≤ c.1)), m.poison.filter (fun g => decide (2 ^ 52 ≤ g)), []⟩

def field (a hi lo : Nat) : Nat := a / 2 ^ lo % 2 ^ (hi + 1 - lo)

/-- The stack of an HBM offset of a sheet, and the stack-local address (R34). -/
def hbmStack (s o : Nat) : Nat := 2 * s + field o 12 12
def hbmLocal (o : Nat) : Nat := field o 36 13 * 4096 + o % 4096

/-- Table 11-2: the pseudo-channel (2 × channel + PC), bank and row of a stack-local address. -/
def hbmPc (l : Nat) : Nat := 2 * (field l 11 7 ^^^ field l 24 20) + field l 6 6
def hbmBank (l : Nat) : Nat := field l 19 16 ^^^ field l 23 20
def hbmRow (l : Nat) : Nat := field l 35 20

/-- Whether the line at an address belongs to a fenced channel, whose reads return poison and whose writes are discarded
(R635). -/
def Memory.inFence (m : Memory) (a : Nat) : Bool :=
  match m.fenced with
  | [] => false
  | l => match region a with
    | .hbm s o => l.contains (64 * hbmStack s o + hbmPc (hbmLocal o) / 2)
    | _ => false

/-- Whether any of `n` bytes from `a` on is poisoned. -/
def Memory.poisoned (m : Memory) (a n : Nat) : Bool :=
  m.poison.any (fun g => decide (granule a ≤ g ∧ g < a + n)) || m.inFence a || m.inFence (a + n - 1)

/-- A write of whole granules clears their poison; a partial write leaves it (R642). -/
def Memory.clearPoison (m : Memory) (a n : Nat) : Memory :=
  { m with poison := m.poison.filter (fun g =>
      !(decide (a ≤ g) && decide (g + (if slmBase ≤ g ∧ g < 0x200020000000 then 32 else 64) ≤ a + n))) }

/-- `n` bytes of data written at `a`, clearing the poison of the granules they cover whole. -/
def Memory.store (m : Memory) (a n v : Nat) : Memory := (m.clearPoison a n).write a n v

/-- A 64-byte line read. -/
def Memory.line (m : Memory) (a : Nat) : Item := BitVec.ofNat 512 (m.read (a / 64 * 64) 64)

/-- A whole 64-byte line written at `a`, poisoned or clean. -/
def Memory.storeLine (m : Memory) (a : Nat) (v : Item) (poison : Bool) : Memory :=
  let m' := m.store (a / 64 * 64) 64 v.toNat
  if poison then
    if slmBase ≤ a ∧ a < 0x200020000000 then (m'.setPoison (a / 64 * 64)).setPoison (a / 64 * 64 + 32)
    else m'.setPoison (a / 64 * 64)
  else m'

/-- A write that reaches memory where the address is populated, and is a decode error (discarded, R38) elsewhere. -/
def storeAt (p : Pkg) (m : Memory) (pa n v : Nat) : Memory :=
  if populatedRange p pa n then m.store pa n v else m

/-- The issuing block's DEFERRED record of a decode error (R38). -/
def decodeError (p : Pkg) (pg pa : Nat) : Pkg := logErr p pg ⟨0xA0, 0, 1, pa, 0⟩

end Sys2Proof.Machine
end

