-- ==== Sys2Proof/Machine/Work.lean ====
section
/-! DEFINITION. The home of a line (spec/11, spec/13), and which blocks hold work or traffic in progress: PAGE_STATE.BUSY
(spec/04 Table 4-5). -/

namespace Sys2Proof.Machine

/-- The L3 slice of a DDR address (R445). -/
def l3Home (pa : Nat) : Nat :=
  field pa 9 6 ^^^ field pa 13 10 ^^^ field pa 17 14 ^^^ field pa 21 18 ^^^ field pa 25 22 ^^^ field pa 29 26 ^^^
    field pa 33 30 ^^^ field pa 37 34 ^^^ field pa 40 38

/-- The INSTANCE of the SLM slice that homes offset o of a sheet's HBM region (R446). -/
def slmHash (o : Nat) : Nat :=
  field o 11 6 ^^^ field o 17 12 ^^^ field o 23 18 ^^^ field o 29 24 ^^^ field o 35 30 ^^^ field o 36 36

/-- The SLM slice, numbered 64 × sheet + INSTANCE, that homes an address. -/
def homeSlice (pa : Nat) : Option Nat :=
  match region pa with
  | .hbm s o => some (64 * s + slmHash o)
  | .slm i _ => some i
  | _ => none

/-! ## The host link's device cache of 4,096 lines (R462, R501) -/

def isHostLine (l : PLine) : Bool := match region l.pa with | .host _ => true | _ => false

/-- The lines of output packets that it holds pending. -/
def hostPending (p : Pkg) : Nat := (p.home.pend.filter isHostLine).length

/-- Modified lines join the cache; the oldest beyond its room have been written back (DirtyEvict). -/
def devHold (p : Pkg) (lines : List Nat) : Pkg :=
  { p with home := { p.home with devCache := ((lines ++ p.home.devCache).eraseDups).take (4096 - hostPending p) } }

/-- Whether the host lines of a packet find room among the pending ones. -/
def hostRoom (p : Pkg) (pk : List PLine) : Bool := decide (hostPending p + (pk.filter isHostLine).length ≤ 4096)

/-! ## Written dwords of the function's configuration space -/

def setHl (p : Pkg) (x : HlSt) : Pkg := { p with hl := x }

/-- The reset values of writable dwords that are not 0, as PCI Express gives them (PRESUMED, log entry 60): Device Control, Link
Control 2, and AER's masks and severities. -/
def cfgReset (o : Nat) : W32 :=
  if o = 0x58 then 0x2810 else if o = 0x80 then 6 else if o = 0x108 then 0x400000 else if o = 0x10C then 0x462030
  else if o = 0x114 then 0xE000 else 0

def cfgStored (p : Pkg) (off : Nat) : W32 := SMap.get p.hl.cfg (off / 4) (cfgReset (off / 4 * 4))

def putCfg (p : Pkg) (off : Nat) (v : W32) : Pkg := setHl p { p.hl with cfg := SMap.set p.hl.cfg (off / 4) v }

/-- An uncorrectable error status bit of AER is set (R509, R534). -/
def setAer (p : Pkg) (n : Nat) : Pkg := putCfg p 0x104 (withBits (cfgStored p 0x104) n n 1)

/-- With HL_CONTROL.LEGACY_ORDER, whether a read of host memory issued before the one numbered `n` is outstanding (R524). -/
def readsOlder (p : Pkg) (n : Nat) : Bool :=
  bit p (key pgHl 0x104) 0 && p.ces.any (fun x => x.2.misses.any (fun m => decide (0 < m.tag ∧ m.tag < n) &&
    (match region (64 * m.line) with | .host _ => true | _ => false)))

/-! ## BUSY -/

/-- Whether a block whose BUSY bit is not stored holds work or traffic in progress. -/
def blockWork (p : Pkg) (pg : Nat) : Bool :=
  match classOf pg with
  | 0x03 =>
    let sl := 64 * ((pg - 0x1000) / 0x200) + pg % 0x100
    p.home.pend.any (fun l => homeSlice l.pa == some sl) || !(SMap.get p.home.watches sl []).isEmpty
  | 0x08 => !p.hl.held.isEmpty || bit p (key pgHl 0x120) 31
  | 0x09 =>
    match p.rt.ports.find? (fun x => x.1 == pg - pgPl 0) with
    | some (_, t) => !t.queued.isEmpty || !t.rx.isEmpty || !t.replay.isEmpty
    | none => false
  | 0x0A => !p.rt.inject.isEmpty || !p.rt.arrived.isEmpty || !p.rt.landed.isEmpty
  | 0x0B => bit p (key 1 0x110) 30 || bit p (key 2 0x110) 30 || bit p (key 3 0x118) 30
  | 0x0D => p.qm.cmds.any (fun x => x.2.phase != .trailing)
  | 0x0E => !p.xl.requests.isEmpty || !p.xl.pris.isEmpty || !p.xl.invs.isEmpty || !p.xl.waits.isEmpty
  | 0x0F =>
    p.harts.any (fun x => x.1 / 4 == (pg - pgCc 0) / 2 && !x.2.sb.isEmpty) ||
      (List.range 4).any (fun j => fld p (key pg 0x100) (8 * j + 1) (8 * j) == 1)
  | 0x11 => !p.fuse.requests.isEmpty
  | 0x12 => p.traces.any (fun x => pgTr x.1 == pg && !x.2.queue.isEmpty)
  | _ => false

/-- PAGE_STATE.BUSY of a page's block: stored for CEs and memory controllers, seen from the work itself elsewhere; 0 on a
retired block (R141). -/
def busy (p : Pkg) (pg : Nat) : Bool := (busyBit p pg || blockWork p (firstPage pg)) && !retired p pg

/-- R141, R146: a block out of service by ENABLE 0 that holds no work loses READY, and ENABLE 1 will bring it back; READY that
safe hold took counts as held. -/
def drained (p : Pkg) (pg : Nat) : Pkg :=
  if enabled p pg || busy p pg then p
  else { setReady p pg false with
    disabled := SMap.set p.disabled pg (ready p pg || SMap.get p.disabled pg false || p.pwr.heldReady.contains pg) }

/-- Every block out of service by ENABLE 0 whose work has just ended loses READY. -/
def settleDrains (p : Pkg) : Pkg :=
  (p.regs.filter (fun x => x.1 % 0x1000 == 0xC && !bitOf x.2 0)).foldl
    (fun q x => if ready q (x.1 / 0x1000) then drained q (x.1 / 0x1000) else q) p

/-- The blocks that stay READY in safe hold (R610): host link, surveyor, power controller, datum, field book, operator signals. -/
def staysReady (pg : Nat) : Bool := decide (classOf pg ∈ [0x08, 0x0B, 0x0C, 0x10, 0x11, 0x13])

/-- Safe hold, the way into or out of it, or QUIESCED keeps a block from READY (R610, R666). -/
def heldDown (p : Pkg) (pg : Nat) : Bool :=
  (fld p (key pgPwr 0x100) 31 28 != 0 || fld p (key pgSv 0x100) 31 28 == 4) && !staysReady pg

/-- READY rises on a block that has become usable; or with the end of the hold (R613, R666), or when ENABLE is set again
(R146). -/
def becomeReady (p : Pkg) (pg : Nat) : Pkg :=
  if !enabled p pg then { p with disabled := SMap.set p.disabled pg true }
  else if heldDown p pg then { p with pwr := { p.pwr with heldReady := (pg :: p.pwr.heldReady).eraseDups } }
  else setReady p pg true

/-- The slices at which lines or watches wait. -/
def slicesAtWork (p : Pkg) : List Nat :=
  ((p.home.pend.filterMap (fun l => homeSlice l.pa)) ++
    p.home.watches.filterMap (fun x => if x.2.isEmpty then none else some x.1)).eraseDups

/-- The first pages of the blocks that are BUSY. -/
def busyPages (p : Pkg) : List Nat :=
  p.regs.filterMap (fun x =>
    if x.1 % 0x1000 = 8 ∧ bitOf x.2 1 = true ∧ firstPage (x.1 / 0x1000) = x.1 / 0x1000 then some (x.1 / 0x1000) else none) ++
  ([pgSv, pgFb, pgRt] ++ (List.range 6).map pgPl ++ [pgQm, pgXl, pgHl] ++ (List.range 12).map pgCc ++
    (List.range 5).map pgTr ++ (slicesAtWork p).map pgSl).filter (blockWork p)

end Sys2Proof.Machine
end

