-- ==== Sys2Proof/Machine/Pace.lean ====
section
/-! DEFINITION. Pace, floor halts, fixed-pace mode and the datum (spec/02). -/

namespace Sys2Proof.Machine

abbrev Out := Host.Outcome State Fault Refusal

/-! ## Pace against voltage and temperature -/

/-- The 65 °C column of Table 2-1, as (mV, 0.01 Gbeat/s). -/
def sheetPaceRows : List (Nat × Nat) :=
  [(580, 122), (600, 130), (650, 150), (700, 175), (750, 200), (800, 220), (850, 240), (900, 255)]

/-- Table 2-2. -/
def procPaceRows : List (Nat × Nat) := [(650, 220), (750, 280), (850, 320), (900, 340)]

/-- A row's pace at temperature `tj`, in eighths of 0.01 Gbeat/s: 1 % less for each column above 65 °C, truncated, and
between two columns in proportion (R58, R59); above 97 °C the 65 °C value less (T − 65) ÷ 8 %, truncated. -/
def rowPace8 (v65 tj : Nat) : Nat :=
  if tj ≤ 65 then 8 * v65
  else if tj ≤ 97 then
    let j := (tj - 65) / 8
    let r := (tj - 65) % 8
    v65 * (100 - j) / 100 * (8 - r) + v65 * (100 - (j + 1)) / 100 * r
  else 8 * (v65 * (800 - (tj - 65)) / 800)

/-- The pace that a table guarantees at a voltage and temperature, interpolated between rows and truncated to
0.01 Gbeat/s (R59, R61); 0 below the first row, where none is stated. -/
def paceAt (rows : List (Nat × Nat)) (mv tj : Nat) : Nat :=
  match rows with
  | [] => 0
  | [(v, b)] => if mv < v then 0 else rowPace8 b tj / 8
  | (v1, b1) :: (v2, b2) :: t =>
    if mv < v1 then 0
    else if mv < v2 then ((v2 - mv) * rowPace8 b1 tj + (mv - v1) * rowPace8 b2 tj) / (8 * (v2 - v1))
    else paceAt ((v2, b2) :: t) mv tj

def sheetPace (mv tj : Nat) : Nat := paceAt sheetPaceRows mv tj

/-- The lowest commanded voltage in 5 mV steps from 0.60 V whose Table 2-1 pace reaches `pace`; 0.90 V where none
does (R68, R601). -/
def voltFor (pace tj : Nat) : Nat :=
  match (List.range 61).find? (fun i => pace ≤ sheetPace (600 + 5 * i) tj) with
  | some i => 600 + 5 * i
  | none => 900

def tjOf (p : Pkg) (die : Nat) : Nat := SMap.get p.pwr.tj die 65
def railOf (p : Pkg) (die : Nat) : Nat := SMap.get p.pwr.railMv die 0

/-- A sheet is halted at the floor: FLOOR_HALT (Table 2-4). -/
def halted (p : Pkg) (sheet : Nat) : Bool := bit p (key pgPwr (0x210 + 4 * sheet)) 31

/-- Whether a sheet's loops step: powered, not halted at the floor, and its beat gate not closed by safe hold or
QUIESCED (R63, R609). -/
def stepping (p : Pkg) (sheet : Nat) : Bool :=
  p.seq.railPgCore && !halted p sheet && !p.pwr.gateClosed

/-- The time by which the package's timeouts run: the datum without the nanoseconds in which some sheet stood halted, so
that no timeout expires because of a halt (R65). -/
def timerNow (p : Pkg) : Nat := p.pace.datum - p.pace.heldNs

/-! ## Limits (R159 to R163, R600) -/

/-- The registers of a limit's slots: 0 power cap, 1 pace ceiling, 2 thermal limit (Table 17-4). -/
def limitKey (limit slot : Nat) : Nat := key pgPwr (0x240 + 0x20 * limit + 4 * slot)

def limitMax (limit : Nat) : Nat := if limit = 0 then 850 else if limit = 1 then 255 else 97
def limitMin (limit : Nat) : Nat := if limit = 0 then 450 else if limit = 1 then 100 else 60

/-- A slot's value; cap slot 0 holds the field book's POWER_CEILING. -/
def slotValue (p : Pkg) (limit slot : Nat) : Nat :=
  if limit = 0 ∧ slot = 0 then p.fuse.ceiling else regN p (limitKey limit slot)

/-- R160: the lowest nonzero slot, bounded by the hardware maximum. -/
def effective (p : Pkg) (limit : Nat) : Nat :=
  (List.range 4).foldl (fun n i => if slotValue p limit i = 0 then n else min n (slotValue p limit i)) (limitMax limit)

/-! ## The pace of a die -/

def dieRows (die : Nat) : List (Nat × Nat) := if die < 4 then sheetPaceRows else procPaceRows

/-- The table's voltage at which a die with its fused trim behaves (R57). -/
def cellMv (p : Pkg) (die mv : Nat) : Nat :=
  if die < 4 then ((mv : Int) - SMap.get p.fuse.trimMv die 0).toNat else mv

/-- The pace that Tables 2-1 and 2-2 guarantee a die at a rail voltage and temperature (R57 to R61). -/
def paceFloor (p : Pkg) (die mv tj : Nat) : Nat := paceAt (dieRows die) (cellMv p die mv) tj

/-- A die's rail stands at a voltage and its hottest sensor at a temperature; its natural pace follows at once and is never
below the table's (R58 to R62). A `pace` of 0 stands for no measurement. The moment at which a rail came back to 0.60 V is
kept for R64. -/
def setDie (p : Pkg) (die mv tj pace : Nat) : Pkg :=
  let ok := if mv < 600 then 0 else if 600 ≤ railOf p die then SMap.get p.pwr.okSince die 0 else p.pace.datum + 1
  { p with pwr := { p.pwr with
      railMv := SMap.set p.pwr.railMv die mv
      tj := SMap.set p.pwr.tj die tj
      natural := SMap.set p.pwr.natural die (max pace (paceFloor p die mv tj))
      okSince := SMap.set p.pwr.okSince die ok } }

/-- What the beat gate lets a sheet step at most: SET once the gate has moved to it, and an EFFECTIVE pace ceiling (R67, R78,
R601); a die that the gate does not hold steps at its natural pace (R69). -/
def gated (p : Pkg) (die n : Nat) : Nat :=
  if 4 ≤ die then n
  else
    let c := min n (effective p 1)
    if p.pwr.gateSet = 0 then c else min c p.pwr.gateSet

/-- The pace at which a die steps now, in hundredths of a beat per nanosecond; 0 while its loops do not step. -/
def actualPace (p : Pkg) (die : Nat) : Nat :=
  if die < 4 then (if stepping p die then gated p die (SMap.get p.pwr.natural die 0) else 0)
  else if p.seq.railPgCore then SMap.get p.pwr.natural die 0 else 0

def doRailVoltageChange (rail mv pace : Nat) (p : Pkg) : Pkg :=
  if 5 ≤ rail then p else setDie p rail mv (tjOf p rail) pace

def execRailVoltageChange (rail mv pace : Nat) (s : State) : Out :=
  .next (s.onPkg (doRailVoltageChange rail mv pace))

/-- R63: below 0.58 V a sheet completes its beat, stops every handshake and sets FLOOR_HALT; all state is held. -/
def doFloorHalt (sheet : Nat) (p : Pkg) : Pkg :=
  if sheet < 4 ∧ railOf p sheet < 580 ∧ halted p sheet = false then
    { setBit p (key pgPwr (0x210 + 4 * sheet)) 31 true with
      pwr := { p.pwr with haltSince := SMap.set p.pwr.haltSince sheet p.pace.datum } }
  else p

def execFloorHalt (sheet : Nat) (s : State) : Out := .next (s.onPkg (doFloorHalt sheet))

/-- R64: a halted sheet whose rail has been at or above 0.60 V for 2 µs clears FLOOR_HALT and logs DROOP_FLOOR with the
datum and length of the halt; at THRESHOLD the sheet is guarded (R605). -/
def doFloorResume (sheet : Nat) (p : Pkg) : Pkg :=
  let ok := SMap.get p.pwr.okSince sheet 0
  if sheet < 4 ∧ halted p sheet = true ∧ ok ≠ 0 ∧ ok - 1 + 2000 ≤ p.pace.datum then
    let since := SMap.get p.pwr.haltSince sheet 0
    let e : ErrArgs := ⟨0x70, 0, 0, p.pace.datum - since, sheet⟩
    let p1 := logErrAt (setBit p (key pgPwr (0x210 + 4 * sheet)) 31 false) pgPwr e since
    if thresholdHit p pgPwr e && !bit p (key pgPwr 0x124) sheet then
      raiseBlock (setBit p1 (key pgPwr 0x124) sheet true) pgPwr 3
    else p1
  else p

def execFloorResume (sheet : Nat) (s : State) : Out := .next (s.onPkg (doFloorResume sheet))

/-! ## Fixed-pace mode -/

def fixedOn (p : Pkg) : Bool := bit p (key pgPwr 0x200) 16
def fixedSet (p : Pkg) : Nat := fld p (key pgPwr 0x200) 7 0
def fixedSettled (p : Pkg) : Bool := bit p (key pgPwr 0x200) 31

/-- The droop guard's 25 mV of a guarded sheet (R605). -/
def guardMv (p : Pkg) (sheet : Nat) : Nat := if bit p (key pgPwr 0x124) sheet then 25 else 0

/-- A chosen voltage with the fused trim and guards, within the rail's commanded range (R57, R68, R584, R605). -/
def commanded (p : Pkg) (rail mv extra : Nat) : Nat :=
  let lo := if rail < 4 then 600 else 650
  let v := (mv : Int) + (if rail < 4 then SMap.get p.fuse.trimMv rail 0 else 0) + (extra : Int) + (guardMv p rail : Int)
  min 900 (max lo v.toNat)

/-- The newest target of a rail waits for its Voltage write (R587). -/
def wantMv (p : Pkg) (rail mv : Nat) : Pkg :=
  { p with pwr := { p.pwr with wanted := SMap.set p.pwr.wanted rail mv } }

/-- The rail targets that fixed-pace mode needs: the voltage for SET, the trim and a guard of 25 mV (R68). -/
def wantFixed (p : Pkg) : Pkg :=
  (List.range 4).foldl (fun q s => wantMv q s (commanded q s (voltFor (fixedSet q) (tjOf q s)) 25)) p

/-- R70, R71: a write with SET outside 100 to 220 is discarded; any other takes effect at once and clears SETTLED. A
change that lowers the required voltage moves the gate first; one that raises it moves the rails first. -/
def putFixedPace (value : W64) (p : Pkg) : Pkg :=
  let set := bitsOf value 7 0
  if set < 100 ∨ 220 < set then p
  else
    let k := key pgPwr 0x200
    let p1 := setBit (setReg p k (mergeWrite (rw4 0x200 (msk 16 16 + msk 7 0)) (reg p k) value)) k 31 false
    if bitOf value 16 then
      let p2 := wantFixed p1
      let lowers := if p.pwr.gateSet ≠ 0 then decide (set ≤ p.pwr.gateSet)
        else (List.range 4).all (fun s =>
          SMap.get p2.pwr.wanted s 0 ≤ fld p (key pgPwr (0x300 + 8 * s)) 30 21)
      if lowers && !p.pwr.gateClosed then { p2 with pwr := { p2.pwr with gateSet := set } } else p2
    else p1

def doFixedPaceWrite (rq : Requester) (value : W32) (p : Pkg) : Pkg :=
  ifWrites p rq pgPwr 0x200 (putFixedPace (value.setWidth 64))

def execFixedPaceWrite (rq : Requester) (value : W32) (s : State) : Out :=
  .next (s.onPkg (doFixedPaceWrite rq value))

/-- A sheet's rail has reached its newest target: none waits to be written, and REACHED is set for the last one (R589). -/
def railReached (p : Pkg) (s : Nat) : Bool :=
  !p.pwr.wanted.any (fun x => x.1 == s) && bit p (key pgPwr (0x300 + 8 * s)) 31

/-- R71: rails and gate have reached the newest target; SETTLED rises. Not while safe hold keeps the gate closed. -/
def doFixedPaceSettled (p : Pkg) : Pkg :=
  if fixedSettled p = false ∧ p.pwr.gateClosed = false ∧ (List.range 4).all (railReached p) = true then
    { setBit p (key pgPwr 0x200) 31 true with
      pwr := { p.pwr with gateSet := if fixedOn p then fixedSet p else 0, settledAt := p.pace.datum } }
  else p

def execFixedPaceSettled (s : State) : Out := .next (s.onPkg doFixedPaceSettled)

/-- The hundredths of beats that a die has counted. -/
def hundredths (p : Pkg) (die : Nat) : Nat := 100 * SMap.get p.pace.beats die 0 + SMap.get p.pace.frac die 0

/-- A hart's beats with the store buffer full, and those waiting at a FENCE (Table 20-7). -/
def hartBeats (p : Pkg) (n h : Nat) : Pkg :=
  let p1 := if 64 ≤ (hart p h).sb.length then hartEvent p h 0x0B n else p
  if fenceWaits p h then hartEvent p1 h 0x0C n else p1

/-- A die steps for one nanosecond at its present pace: its beat counter, and USE_COUNTER of each of its blocks that is BUSY
(`busyOnes`), count the beats completed (R90, Table 4-1); the harts' counters of beats on the processor die. -/
def stepDie (busyOnes : List Nat) (p : Pkg) (die : Nat) : Pkg :=
  let t := SMap.get p.pace.frac die 0 + actualPace p die
  let n := t / 100
  let p1 := { p with pace := { p.pace with
    frac := SMap.set p.pace.frac die (t % 100), beats := SMap.set p.pace.beats die (SMap.get p.pace.beats die 0 + n) } }
  if n = 0 then p1
  else busyOnes.foldl (fun q pg =>
    match pageInfo pg with
    | some pi => if pi.die = die then addReg q (key pg 0x38) n else q
    | none => q) (if die = 4 then (p.harts.map (·.1)).foldl (fun q h => hartBeats q n h) p1 else p1)

/-- The mean pace of a die since its last status refresh, from the beats it counted (R74); its present pace where no
nanosecond has passed. -/
def meanPace (p : Pkg) (die : Nat) : Nat :=
  let m := SMap.get p.pwr.meanFrom die (0, 0)
  if p.pace.datum ≤ m.1 then actualPace p die else (hundredths p die - m.2) / (p.pace.datum - m.1)

/-- R74, R72: the pace status of a die is refreshed from its voltage, its hottest sensor and its mean pace since the last
refresh; `pace` is what the pace monitor measures as the die's natural pace now (R53). In settled fixed-pace mode a sheet whose
mean was below SET sets SLIP and counts in LIMIT or DROOP (R75). -/
def doPaceStatusRefresh (die mv tj pace : Nat) (byLimit : Bool) (p : Pkg) : Pkg :=
  if 5 ≤ die then p
  else
    let k := key pgPwr (0x210 + 4 * die)
    let p0 := setDie p die mv tj pace
    let mean := meanPace p0 die
    let p1 := setFld (setFld (setFld p0 k 29 20 mv) k 19 12 tj) k 9 0 (min 1023 mean)
    let whole := fixedSettled p && decide (p.pwr.settledAt + 1000 ≤ p.pace.datum)
    let slip := decide (die < 4) && fixedOn p && whole && decide (mean < fixedSet p)
    let p2 := setBit p1 k 30 slip
    let p3 := if slip then
        (if byLimit || decide (effective p 1 < fixedSet p) then bumpFld p2 (key pgPwr 0x228) 31 16
          else bumpFld p2 (key pgPwr 0x228) 15 0)
      else p2
    { p3 with pwr := { p3.pwr with meanFrom := SMap.set p3.pwr.meanFrom die (p.pace.datum, hundredths p die) } }

def execPaceStatusRefresh (die mv tj pace : Nat) (byLimit : Bool) (s : State) : Out :=
  .next (s.onPkg (doPaceStatusRefresh die mv tj pace byLimit))

/-! ## The datum -/

/-- Recovery actions that no other command ends have completed when the datum next increments; a line under replica
repair stays on its handling lists (R622). -/
def endHandlings (p : Pkg) : Pkg :=
  { p with fault := { p.fault with
      handling := p.fault.handling.map (fun (x : Nat × List Nat) =>
        (x.1, x.2.filter (fun t => t % 2 == 0 && p.fault.repairs.any (fun r => r.1 == t / 2)))) } }

/-- R82, R90: the datum increments by one; each die steps for that nanosecond; USE_COUNTER of each BUSY link-die block counts a
nanosecond; a nanosecond in which a sheet stands halted is left out of the timeouts (R65). -/
def doDatumTick (p : Pkg) : Pkg :=
  if p.pace.running then
    let held := if (List.range 4).any (halted p) then 1 else 0
    let p1 := endHandlings { p with pace := { p.pace with datum := p.pace.datum + 1, heldNs := p.pace.heldNs + held } }
    let bs := busyPages p
    bs.foldl (fun q pg => if pg < 0x26 then addReg q (key pg 0x38) 1 else q) ((List.range 5).foldl (stepDie bs) p1)
  else p

def execDatumTick (s : State) : Out := .next (s.onPkg doDatumTick)

def dtStatus : Nat := key pgDt 0x108

/-- R81: REFCLK_LOST is set and the DEFERRED record is logged. -/
def doRefclkLost (p : Pkg) : Pkg :=
  if bit p dtStatus 4 then p
  else raiseBlock (logErr (setBit p dtStatus 4 true) pgDt ⟨0x71, 0, 0, 0, 0⟩) pgDt 3

def execRefclkLost (s : State) : Out := .next (s.onPkg doRefclkLost)

/-- R81: the PLLs return to REFCLK_100. -/
def doRefclkRestored (p : Pkg) : Pkg :=
  if bit p dtStatus 4 then raiseBlock (setBit p dtStatus 4 false) pgDt 3 else p

def execRefclkRestored (s : State) : Out := .next (s.onPkg doRefclkRestored)

/-- A status bit of DT_STATUS takes a value; a change sets BLOCK bit `blk` (Table 22-5). -/
def dtFlag (p : Pkg) (n blk : Nat) (b : Bool) : Pkg :=
  if bit p dtStatus n = b then p else raiseBlock (setBit p dtStatus n b) pgDt blk

def setMaster (p : Pkg) (b : Bool) : Pkg := dtFlag p 3 2 b
def setSynced (p : Pkg) (b : Bool) : Pkg := dtFlag p 1 0 b

/-- HOLDOVER takes a value; its rise counts an entry and sets BLOCK bit 1 (R88, Table 22-5). -/
def setHoldover (p : Pkg) (b : Bool) : Pkg :=
  if bit p dtStatus 2 = b then p
  else if b then raiseBlock (bumpReg (setBit p dtStatus 2 true) (key pgDt 0x158) 1 0xFFFFFFFF) pgDt 1
  else setBit p dtStatus 2 false

def nodeId (p : Pkg) : Nat := fld p (key pgRt 0x104) 13 0
def dtMaster (p : Pkg) : Bool := bit p dtStatus 3

/-- A port is admitted, and its link has the SYNC feature (R545, R573). -/
def portAdmitted (p : Pkg) (port : Nat) : Bool := decide (port < 6) && bit p (key pgRt 0x130) port
def portSync (p : Pkg) (port : Nat) : Bool := portAdmitted p port && bit p (key (pgPl port) 0x10C) 17

/-- SYNC_ENABLE as in effect: a clearing write takes effect at the next exchange (R94). -/
def syncOn (p : Pkg) : Bool := p.pace.ctlActive / 2 % 2 == 1

/-- The node number that stands for no known master: it is above every 14-bit node ID. -/
def noNode : Nat := 16384

def isCandidate (p : Pkg) : Bool := bit p (key pgDt 0x10C) 0

/-- R83, R84, R94: the 1 ms exchange. A cleared SYNC_ENABLE takes effect; a candidate that knows no lower-ID candidate
becomes master and any other package ceases to be; each admitted link with SYNC sends its SYNC_REQ. DT_OFFSET and DT_RATE_ADJ
of a master and of a package in holdover keep what they last showed as a follower (log entry 15). -/
def doSyncExchange (p : Pkg) : Pkg :=
  if p.pace.running then
    let p0 := { p with pace := { p.pace with ctlActive := fld p (key pgDt 0x10C) 1 0 } }
    if syncOn p0 then
      let lead := isCandidate p0 && decide (nodeId p0 ≤ p0.pace.masterNode)
      let p1 := setMaster p0 lead
      let p2 := if lead then setFld (setHoldover (setSynced p1 false) false) dtStatus 15 8 0 else p1
      (List.range 6).foldl (fun q port => if portSync q port then emitMsg q (.syncReq port q.pace.datum) else q) p2
    else setFld (setHoldover (setSynced (setMaster p0 false) false) true) dtStatus 15 8 0
  else p

def execSyncExchange (s : State) : Out := .next (s.onPkg doSyncExchange)

/-- The port of the sync path to a node (R84, R89): the bearing entry's first admitted port, its PRIMARY where none is. -/
def primaryPort (p : Pkg) (node : Nat) : Nat :=
  let e := SMap.get p.rt.bearing node 0x1FF
  ([e % 8, e / 8 % 8, e / 64 % 8].find? (portAdmitted p)).getD (e % 8)

/-- A sync flit names a master: the neighbour is one itself or follows one. The spec states no criterion; that MASTER set or
HOLDOVER clear says so is the model's choice, and so is that a flit naming this very node tells it nothing (log entry 15). -/
def namesMaster (p : Pkg) (info : SyncInfo) : Bool :=
  (info.master || !info.holdover) && info.masterNode != nodeId p

/-- What a neighbour still says of a master that this package lost may be old: for 20 ms it is taken only from a neighbour
nearer that master than this package was (the model's choice, log entry 15). -/
def staleClaim (p : Pkg) (info : SyncInfo) : Bool :=
  info.masterNode == p.pace.lostNode && decide (p.pace.lostDist ≤ info.hops) &&
    decide (p.pace.datum < p.pace.lostAt + 20000000)

/-- A package follows a master over a port: HOPS is taken on the sync path, and the 10 ms of R88 start again there, from a
neighbour nearer the master (R84). -/
def takeSync (port : Nat) (info : SyncInfo) (p : Pkg) : Pkg :=
  let fresh := info.masterNode != p.pace.masterNode
  let p1 := { p with pace := { p.pace with masterNode := info.masterNode } }
  let p2 := setHoldover (setMaster p1 false) false
  if primaryPort p2 info.masterNode = port ∧ (fresh = true ∨ info.hops < p.pace.masterDist ∨ p.pace.masterDist = 0) then
    { setFld p2 dtStatus 15 8 (info.hops + 1) with
      pace := { p2.pace with syncPort := port, masterDist := info.hops + 1, lastSync := p2.pace.datum } }
  else if fresh then { p2 with pace := { p2.pace with masterDist := 0, lastSync := p2.pace.datum } }
  else p2

/-- What a sync flit of a neighbour tells (R83, R88): one that names a master at or below the known one ends holdover, and a
master that hears of a lower-ID candidate clears MASTER and follows. -/
def noteSync (port : Nat) (info : SyncInfo) (p : Pkg) : Pkg :=
  if !namesMaster p info || staleClaim p info then p
  else if dtMaster p && decide (nodeId p ≤ info.masterNode) then p
  else if info.masterNode ≤ p.pace.masterNode then takeSync port info p
  else p

/-- R573: a SYNC_REQ is timestamped and answered with one SYNC_RSP. -/
def doSyncReq (port : Nat) (info : SyncInfo) (t1 arrival : Nat) (p : Pkg) : Pkg :=
  if portSync p port && syncOn p then
    emitMsg (noteSync port info p) (.syncRsp port t1 arrival p.pace.datum)
  else p

def execSyncReq (port : Nat) (info : SyncInfo) (t1 arrival : Nat) (s : State) : Out :=
  .next (s.onPkg (doSyncReq port info t1 arrival))

/-- The offset to the master in ps that four timestamps give: half of (T2 − T1) + (T3 − T4), truncated. -/
def syncOffset (t1 t2 t3 t4 : Nat) : Int := (((t2 : Int) - t1) + ((t3 : Int) - t4)).tdiv 2

/-- A rate correction within ±200,000 ppb (R84); its value is the servo's, a free value. -/
def freeRate (n : Nat) : Int := ((Config.freeWord n).toNat % 400001 : Nat) - 200000

/-- DT_OFFSET: the offset in ps where it fits 32 bits; the spec states no value where it does not (a free value). -/
def offsetWord (off : Int) (n : Nat) : W64 :=
  if -2147483648 ≤ off ∧ off < 2147483648 then ((BitVec.ofInt 32 off).setWidth 64)
  else (Config.freeWord n).setWidth 32 |>.setWidth 64

/-- R84 to R87: a follower takes offset and rate from the neighbour nearer the master. Its one step moves the datum
forward to the master's value; after it, or once SYNCED has been set, it only slews. SYNCED rises after 16 consecutive
exchanges within ±5 ns. -/
def followMaster (off : Int) (p : Pkg) : Pkg :=
  let p1 := setReg (nextFree (nextFree p)) (key pgDt 0x118) (offsetWord off p.free)
  let p2 := setReg p1 (key pgDt 0x11C) ((BitVec.ofInt 32 (freeRate (p.free + 1))).setWidth 64)
  if p2.pace.stepAllowed && !p2.pace.synced1 && decide (1000 ≤ off) then
    { p2 with pace := { p2.pace with
        datum := p2.pace.datum + (off / 1000).toNat, stepAllowed := false, goodExch := 0 } }
  else
    let good := if -5000 ≤ off ∧ off ≤ 5000 then p2.pace.goodExch + 1 else 0
    let p3 := { p2 with pace := { p2.pace with goodExch := good } }
    if 16 ≤ good then
      let p4 := setSynced p3 true
      { p4 with pace := { p4.pace with synced1 := true, everSynced := true } }
    else p3

/-- R573: a SYNC_RSP arrives; on the sync path its timestamps feed the offset estimate. -/
def doSyncRsp (port : Nat) (info : SyncInfo) (t1 t2 t3 t4 : Nat) (p : Pkg) : Pkg :=
  if portSync p port && syncOn p then
    let p1 := noteSync port info p
    if !dtMaster p1 && decide (p1.pace.masterNode < noNode) && decide (primaryPort p1 p1.pace.masterNode = port) then
      followMaster (syncOffset t1 t2 t3 t4) p1
    else p1
  else p

def execSyncRsp (port : Nat) (info : SyncInfo) (t1 t2 t3 t4 : Nat) (s : State) : Out :=
  .next (s.onPkg (doSyncRsp port info t1 t2 t3 t4))

/-- R88: 10 ms without a sync flit; the follower clears SYNCED, sets HOLDOVER and counts the entry; its last rate
correction stays. The master it followed counts as lost. -/
def doSyncTimeout (p : Pkg) : Pkg :=
  if p.pace.running && !dtMaster p && decide (p.pace.lastSync + 10000000 ≤ p.pace.datum) then
    let p1 := setFld (setHoldover (setSynced p false) true) dtStatus 15 8 0
    { p1 with pace := { p1.pace with masterNode := noNode, masterDist := 0, goodExch := 0, lostNode := p.pace.masterNode
                                     lostDist := p.pace.masterDist, lostAt := p.pace.datum } }
  else p

def execSyncTimeout (s : State) : Out := .next (s.onPkg doSyncTimeout)

/-- R85: a single 64-bit write, as master, never SYNCED since the cold power-up, to a larger value, once. -/
def putDtSet (width : Nat) (value : W64) (p : Pkg) : Pkg :=
  if width = 8 ∧ p.pace.setLocked = false ∧ dtMaster p = true ∧ p.pace.everSynced = false ∧
      p.pace.datum < value.toNat then
    { setReg p (key pgDt 0x110) value with pace := { p.pace with datum := value.toNat, setLocked := true } }
  else p

def doDtSet (rq : Requester) (width : Nat) (value : W64) (p : Pkg) : Pkg :=
  ifWrites p rq pgDt 0x110 (putDtSet width value)

def execDtSet (rq : Requester) (width : Nat) (value : W64) (s : State) : Out :=
  .next (s.onPkg (doDtSet rq width value))

/-- R94, R83: a write of DT_CONTROL. Setting SYNC_ENABLE makes a follower that has never synchronized: SYNCED falls and must be
earned again, and the one step is allowed again; clearing takes effect at the next exchange. A write of 1 to a SYNC_ENABLE
that is 1 already sets nothing (log entry 15). -/
def putDtControl (value : W64) (p : Pkg) : Pkg :=
  let k := key pgDt 0x10C
  let old := reg p k
  let p1 := setReg p k (mergeWrite (rw4 0x10C (msk 1 0)) old value)
  let p2 := { p1 with pace := { p1.pace with lastSync := if reg p1 k = old then p.pace.lastSync else p.pace.datum } }
  if bitOf value 1 && !bitOf old 1 then
    let p3 := setSynced p2 false
    { p3 with pace := { p3.pace with
        stepAllowed := true, synced1 := false, goodExch := 0, ctlActive := bitsOf value 1 0 } }
  else p2

def doDtControlWrite (rq : Requester) (value : W32) (p : Pkg) : Pkg :=
  ifWrites p rq pgDt 0x10C (putDtControl (value.setWidth 64))

def execDtControlWrite (rq : Requester) (value : W32) (s : State) : Out :=
  .next (s.onPkg (doDtControlWrite rq value))

/-- R91: CAPTURE copies the datum and every beat counter into the snapshot registers. -/
def putCapture (value : W64) (p : Pkg) : Pkg :=
  if bitOf value 0 then
    (List.range 5).foldl
      (fun q d => setReg q (key pgDt (0x130 + 8 * d)) (BitVec.ofNat 64 (SMap.get p.pace.beats d 0)))
      (setReg p (key pgDt 0x128) (BitVec.ofNat 64 p.pace.datum))
  else p

def doCapture (rq : Requester) (value : W32) (p : Pkg) : Pkg :=
  ifWrites p rq pgDt 0x120 (putCapture (value.setWidth 64))

def execCapture (rq : Requester) (value : W32) (s : State) : Out := .next (s.onPkg (doCapture rq value))

end Sys2Proof.Machine
end

