-- ==== Sys2Proof/Machine/Operands.lean ====
section
/-! DEFINITION. The operand forms: descriptor fields and operand references (spec/08 Tables 8-1 to 8-3), the running
command of a CE, its chart's units and routes, vector lanes and registers (spec/05), memory items. -/

namespace Sys2Proof.Machine

/-! ## Descriptors -/

/-- Bytes `b` to `b + n - 1` of a descriptor, little-endian. -/
def dField (d : BitVec 1024) (b n : Nat) : Nat := bitsOf d (8 * (b + n) - 1) (8 * b)

def dOpcode (d : BitVec 1024) : Nat := dField d 1 1
def dFlags (d : BitVec 1024) : Nat := dField d 2 2
def dPrio (d : BitVec 1024) : Nat := dFlags d % 4
def dRepeatable (d : BitVec 1024) : Bool := (dFlags d).testBit 2
def dInPlace (d : BitVec 1024) : Bool := (dFlags d).testBit 3
def dFenceBefore (d : BitVec 1024) : Bool := (dFlags d).testBit 4
def dFenceAfter (d : BitVec 1024) : Bool := (dFlags d).testBit 5
def dRelaxed (d : BitVec 1024) : Bool := (dFlags d).testBit 6
def dTrace (d : BitVec 1024) : Bool := (dFlags d).testBit 7
def dLayer (d : BitVec 1024) : Nat := dField d 4 2
def dOperator (d : BitVec 1024) : Nat := dField d 6 2
def dPlace (d : BitVec 1024) : Nat := dField d 10 2
def dTag (d : BitVec 1024) : Nat := dField d 12 4
def dHandle (d : BitVec 1024) : W64 := BitVec.ofNat 64 (dField d 16 8)
def dSeed (d : BitVec 1024) : W64 := BitVec.ofNat 64 (dField d 24 8)

/-- An operand reference (Table 8-3). -/
structure OpRef where
  addr    : Nat
  format  : Nat
  write   : Bool
  rows    : Nat
  pitch   : Nat
  sheet   : Nat
  affEn   : Bool
  slm     : Nat
  deriving DecidableEq, Repr

def dOperand (d : BitVec 1024) (i : Nat) : OpRef :=
  let r := dField d (56 + 12 * i) 12
  ⟨r % 2 ^ 57, r / 2 ^ 57 % 16, r.testBit 61, r / 2 ^ 64 % 65536, r / 2 ^ 80 % 2048, r / 2 ^ 91 % 4, r.testBit 93,
    r / 2 ^ 94 % 4⟩

/-- The extent of an operand in bytes (R283). -/
def OpRef.extent (r : OpRef) : Nat := r.rows * r.pitch * 64

/-- Whether a CE number lies in a descriptor's PLACE scope (Table 8-1). -/
def inScope (place ce : Nat) : Bool :=
  let sheet := place / 4096 % 4
  let q := place / 512 % 8
  let pos := place / 16 % 32
  match place / 16384 % 4 with
  | 0 => true
  | 1 => ce / 256 == sheet
  | 2 => ce / 256 == sheet && ce % 256 / 25 == q
  | _ => ce == 256 * sheet + 25 * q + pos

def noCmd : Cmd :=
  { desc := 0, ctx := 0, ring := 0, seq := 0, phase := .finished, order := 0, pages := [], noRoom := false,
    acceptedAt := [], acceptOrder := 0, bell := 0, preempting := none, wasPaused := false, ces := [], lastCe := 0xFFFF, status := 0, detail := 0, repeats := 0, firstLost := 0, losses := 0,
    folds := 0, preemptions := 0, beats := 0, progress := 0, startBeat := 0, fold := none, foldCrc := 0,
    requeued := false, aged := false, watching := false, waitSince := 0, ageFrom := 0, ringAborted := false, remoteLeft := 0, collPhase := 0, collStep := 0 }

/-- Whether an accepted command holds a translation that must be made again (R484, R517). -/
def Cmd.stale (c : Cmd) : Bool := c.pages.any (fun x => x.2.stale)

def cmd (p : Pkg) (id : Nat) : Cmd := SMap.get p.qm.cmds id noCmd
def hasCmd (p : Pkg) (id : Nat) : Bool := p.qm.cmds.any (fun x => x.1 == id)
def setCmd (p : Pkg) (id : Nat) (c : Cmd) : Pkg := { p with qm := { p.qm with cmds := SMap.set p.qm.cmds id c } }

/-- The translation of a virtual address of an operand of a command, made before dispatch (R286). -/
def cmdXlate (c : Cmd) (operand va : Nat) : Option Xlate :=
  (c.pages.find? (fun x =>
    x.1 == operand && decide (x.2.va ≤ va / 4096) && decide (va / 4096 < x.2.va + x.2.pages))).map (·.2)

/-- The physical address that a translation gives a virtual address of its leaf. -/
def Xlate.addr (x : Xlate) (va : Nat) : Nat := x.pa * 4096 + (va - x.va * 4096)

def cmdPa (c : Cmd) (operand va : Nat) : Option Nat := (cmdXlate c operand va).map (fun x => x.addr va)

/-! ## The compute engine -/

def noChart : Chart := ⟨0, 0, false, false, 0, 0, 0, 0, [], [], []⟩
def Slot.empty : Slot := ⟨0, 0, false, false, noChart, [], [], false, 0, 0, 0, [], 0⟩
def Vu.empty : Vu := ⟨[], 0⟩
def Mover.empty : Mover := ⟨0, [], [], []⟩
def Octet.empty : Octet :=
  { formatted := false, fa := 0, fb := 0, axis := false, sharedA := false, sharedB := false, mask := 0xFF, sr := [],
    loading := [], loaded := false, tiles := 0, tile := 0, pass := 0, rounds := 0, done := 0, bank := 0,
    ua := 0, ub := 0,
    scaled := 0, scaleA := 0, scaleB := 0, since := [], slots := [], stopped := false, cells := [], latches := [] }
def LongSt.initial : LongSt := ⟨8, 0, false, 0, 0, 0, 0, 0, 0, 0⟩
def Ce.empty : Ce :=
  { cmd := none, lastCtx := none, phase := 0, round := 0, su := [], ag := [], movers := [], vus := [], routes := [],
    octets := [], long := [], ls := LongSt.initial, progress := [], idleMark := [], loops := [], slots := [], l1 := [],
    side := [], misses := [], arrived := [], laterL1 := none, laterSeed := none, laterInv := false, pfOn := true,
    pfDepth := 0, preempt := false,
    paused := false, loadOwed := false }

def ce (p : Pkg) (n : Nat) : Ce := SMap.get p.ces n Ce.empty
def setCe (p : Pkg) (n : Nat) (c : Ce) : Pkg := { p with ces := SMap.set p.ces n c }

def slot (c : Ce) (i : Nat) : Slot := SMap.get c.slots i Slot.empty
def vu (c : Ce) (i : Nat) : Vu := SMap.get c.vus i Vu.empty
def mover (c : Ce) (i : Nat) : Mover := SMap.get c.movers i Mover.empty
def octet (c : Ce) (i : Nat) : Octet := SMap.get c.octets i Octet.empty

def ceStatus (n : Nat) : Nat := key (pgCe n) 0x100
def activeSlot (p : Pkg) (n : Nat) : Nat := fld p (ceStatus n) 29 28

/-- The chart that the running command of a CE uses (R199). -/
def ceChart (p : Pkg) (n : Nat) : Chart := (slot (ce p n) (activeSlot p n)).chart

/-- Whether a CE can take a step of its running command: it runs one, its sheet's loops step, and it is neither lost,
aborted nor paused at a fold. -/
def ceLive (p : Pkg) (n : Nat) : Bool :=
  ceOk n && stepping p (n / 256) && (ce p n).cmd.isSome && !(ce p n).paused && !inFault p (pgCe n)

/-- The running command. -/
def ceCmd (p : Pkg) (n : Nat) : Cmd :=
  match (ce p n).cmd with
  | some id => cmd p id
  | none => noCmd

def genSeed (c : Cmd) : GenSeed := ⟨dSeed c.desc, dLayer c.desc, dOperator c.desc⟩

/-! ### Units -/

def unitKey (typ index : Nat) : Nat := 64 * typ + index

def findUnit (ch : Chart) (typ index : Nat) : Option UnitRec :=
  ch.units.find? (fun u => u.typ == typ && u.index == index)

/-- The code words of a unit. -/
def unitCode (ch : Chart) (u : UnitRec) : List W32 := (ch.code.drop u.codeOff).take u.codeSize

/-- Whether an octet's code holds a PROJECT word. -/
def projects (ch : Chart) (u : UnitRec) : Bool := u.typ == 1 && (unitCode ch u).any (fun w => bitsOf w 31 28 == 2)

/-- Whether the chart is a PROJECT chart: some octet's code holds a PROJECT word (R206). -/
def isProject (ch : Chart) : Bool := ch.units.any (projects ch)

/-- R234: rounds of a RUN's projection, for M, N of its descriptor and the mode of the octet that projects. -/
def roundsOf (c : Cmd) (mode : Nat) : Nat :=
  let mb := dField c.desc 32 2 / 8
  let nb := dField c.desc 34 2 / 8
  let tm := min mb 8
  let tn := if mode = 2 then min nb (64 / max tm 1) else min nb 8
  if tm = 0 ∨ tn = 0 then 0 else ceilDiv mb tm * ceilDiv nb tn

/-- The mode of the octet that projects; of the first one listed where several do. -/
def projectMode (ch : Chart) : Nat :=
  match ch.units.find? (projects ch) with
  | some u => u.mode
  | none => 0

/-- The further passes of a unit: its REPEAT, or the round count less 1 (Table 5-10, R233). -/
def unitRepeats (ch : Chart) (c : Cmd) (u : UnitRec) : Nat :=
  if u.repeats = 0xFFFFFFFF then roundsOf c (projectMode ch) - 1 else u.repeats

/-- A unit's present code word and the passes it has done. -/
def unitAt (c : Ce) (typ index : Nat) : Nat × Nat := SMap.get c.progress (unitKey typ index) (0, 0)

/-- The number a descriptor's words spell. -/
def wordsNat (l : List W32) : Nat := l.foldr (fun w acc => w.toNat + 2 ^ 32 * acc) 0

/-- The `k` code words at a unit's place, as one number: what the unit runs next (R179, R206, R233). -/
def wordsHere (p : Pkg) (n typ index k : Nat) : Nat :=
  match findUnit (ceChart p n) typ index with
  | some u => wordsNat (((unitCode (ceChart p n) u).drop (unitAt (ce p n) typ index).1).take k)
  | none => 0

/-- Whether the code word at a unit's place is `w`; the command of any other word does nothing there. -/
def atWord (p : Pkg) (n typ index w : Nat) : Bool := wordsHere p n typ index 1 == w

/-- Whether a unit has begun the word or descriptor it stands at. -/
def unitBegun (c : Ce) (typ index : Nat) : Bool :=
  match typ with
  | 1 =>
    let o := octet c index
    o.done != 0 || o.scaled != 0 || !o.loading.isEmpty || o.loaded
  | 3 => (SMap.get c.ag (2 * index) (0, 0)).1 != 0
  | 4 => (SMap.get c.ag (2 * index + 1) (0, 0)).1 != 0
  | 5 => (mover c index).pos != 0 || !(mover c index).raw.isEmpty
  | 6 => c.ls.next != 0 || c.ls.bufBits != 0
  | _ => false

/-- Whether a unit of a chart has finished the present pass: its code is done, or it stands unbegun at the start of a pass
later than the one it was in at the last WAIT_IDLE or barrier. -/
def passDone (c : Ce) (u : UnitRec) : Bool :=
  let x := unitAt c u.typ u.index
  decide (u.codeSize ≤ x.1) ||
    (x.1 == u.loopStart && decide (SMap.get c.idleMark (unitKey u.typ u.index) 0 < x.2) && !unitBegun c u.typ u.index)

/-- Whether the sequencer stands at LOAD_BARRIER, STORE_BARRIER or FULL_BARRIER. -/
def atBarrier (ch : Chart) (c : Ce) : Bool :=
  match findUnit ch 0 0 with
  | some u =>
    let i := (unitAt c 0 0).1
    decide (i < u.codeSize) && (bitsOf (ch.code.getD (u.codeOff + i) 0) 31 24 ∈ [5, 6, 7])
  | none => false

/-- Whether the CE of a running command stops at its next fold boundary: a preemption is pending, or a pause (R238, R484). -/
def holdDue (p : Pkg) (n : Nat) : Bool := (ce p n).preempt || (ceCmd p n).stale

/-- Whether a unit that makes one pass a round (R233) stands unbegun before the pass of a round whose predecessor has not ended. -/
def nextRound (c : Ce) (u : UnitRec) : Bool :=
  let x := unitAt c u.typ u.index
  u.repeats == 0xFFFFFFFF && x.1 == u.loopStart && decide (c.round < x.2) && !unitBegun c u.typ u.index

/-- Whether a unit is listed and has not finished its code; units a chart does not list are idle (R206). At a barrier
word no unit starts its next pass (R323), and with a stop due none starts the pass of the next round (R237, R238). -/
def unitMay (p : Pkg) (n typ index : Nat) : Bool :=
  let ch := ceChart p n
  let c := ce p n
  match findUnit ch typ index with
  | some u => decide ((unitAt c typ index).1 < u.codeSize) && !(typ != 0 && atBarrier ch c && passDone c u) &&
      !(holdDue p n && nextRound c u)
  | none => false

/-- A unit's code word done: the next word, or the next pass from LOOP_START, or the end of its code (R206). -/
def unitNext (u : UnitRec) (repeats words : Nat) (x : Nat × Nat) : Nat × Nat :=
  if x.1 + words < u.codeSize then (x.1 + words, x.2)
  else if x.2 < repeats then (u.loopStart, x.2 + 1)
  else (u.codeSize, x.2)

def advanceUnit (p : Pkg) (n typ index words : Nat) (c : Ce) : Ce :=
  match findUnit (ceChart p n) typ index with
  | some u =>
    let x := unitNext u (unitRepeats (ceChart p n) (ceCmd p n) u) words (unitAt c typ index)
    { c with progress := SMap.set c.progress (unitKey typ index) x }
  | none => c

/-- Whether a unit of a RUN's chart has finished its code. -/
def unitDone (c : Ce) (u : UnitRec) : Bool := decide (u.codeSize ≤ (unitAt c u.typ u.index).1)

/-! ### Routes (R174, R175) -/

def sinksOf (ch : Chart) (phase source : Nat) : List Route :=
  ch.routes.filter (fun r => r.source == source && r.phases.testBit phase)

def routeItems (c : Ce) (sink : Nat) : List Item := SMap.get c.routes sink []

/-- Whether every sink that a source feeds has a credit; a source without a route has none. -/
def hasCredit (ch : Chart) (c : Ce) (source : Nat) : Bool :=
  let rs := sinksOf ch c.phase source
  !rs.isEmpty && rs.all (fun r => decide ((routeItems c r.sink).length < r.depth))

/-- A source offers an item to all of its sinks (R175). -/
def offer (ch : Chart) (c : Ce) (source : Nat) (item : Item) : Ce :=
  let put (m : SMap (List Item)) (r : Route) : SMap (List Item) :=
    SMap.set m r.sink (SMap.get m r.sink [] ++ [item])
  { c with routes := (sinksOf ch c.phase source).foldl put c.routes }

/-- A sink takes the oldest item of its route. -/
def takeItem (c : Ce) (sink : Nat) : Option (Item × Ce) :=
  match routeItems c sink with
  | [] => none
  | x :: t => some (x, { c with routes := SMap.set c.routes sink t })

/-! ### Lanes (Table 5-5) -/

def lane (x : Item) (i : Nat) : W32 := BitVec.ofNat 32 (x.toNat / 2 ^ (32 * i))
def lanes (x : Item) : List W32 := (List.range 16).map (lane x)
def ofLanes (l : List W32) : Item := BitVec.ofNat 512 (l.foldr (fun x acc => x.toNat + 2 ^ 32 * acc) 0)

/-- The K register: the halves of chart parameters 0 to 7 of the active slot. -/
def kRegister (s : Slot) : Item :=
  BitVec.ofNat 512 ((List.range 8).foldr (fun j acc => (SMap.get s.params j 0).toNat + 2 ^ 64 * acc) 0)

/-- What a source code supplies, given the items popped from the inputs. -/
def vuSource (v : Vu) (k ia ib : Item) (code : Nat) : Item :=
  if code < 12 then SMap.get v.regs code 0
  else if code = 12 then ia else if code = 13 then ib else if code = 15 then k else 0

/-! ## Items and memory -/

/-- 80-byte record at a byte address. -/
def Memory.record (m : Memory) (a : Nat) : Rec := BitVec.ofNat 640 (m.read a 80)

end Sys2Proof.Machine
end

