-- ==== Sys2Proof/Machine/Queues.lean ====
section
/-! DEFINITION. Credited paths, packets, register-visible queues and spill queues (spec/03). A path is numbered
16 × (first page of its receiving block) + a number of its own. -/

namespace Sys2Proof.Machine

/-! ## Where an access leads -/

/-- Whether the host link reaches host memory: a link mode other than down, as an endpoint (R501, R504). -/
def hostReached (p : Pkg) : Bool := decide (fld p (key pgHl 0x100) 31 30 ≠ 0) && !p.standalone

/-- What becomes of an access that reaches an address: served; waiting by back-pressure (R65, R385, R437, R504, R609); a
decode error (R38); or sent to another package. -/
inductive Fate where
  | served
  | waits
  | decode
  | remote
  deriving DecidableEq, Repr

/-- Whether a sheet answers: powered and not halted at the floor (R63, R65). -/
def sheetUp (p : Pkg) (s : Nat) : Bool := p.seq.railPgCore && !halted p s

def fateLine (p : Pkg) (pa : Nat) : Fate :=
  match region pa with
  | .ddr off =>
    if off < 0x1000000 then .served
    else if p.memc.ddrPhase = 0 ∨ p.seq.memRefresh = true then .waits
    else if p.memc.ddrPhase = 1 ∧ off < p.ddrBytes then .served
    else .decode
  | .hbm s o =>
    if hbmPerSheet p ≤ o then .decode
    else if ready p (pgHbm (hbmStack s o)) && sheetUp p s && !p.seq.memRefresh then .served else .waits
  | .slm i b =>
    if scratchWays p i * 131072 ≤ b then .decode else if sheetUp p (i / 64) then .served else .waits
  | .host _ => if hostReached p then .served else .waits
  | .window _ _ => .remote
  | _ => .decode

/-- Whether a line is repair-pending: its home holds every request to it but a whole-line write (R645, R646). -/
def inRepair (p : Pkg) (pa : Nat) : Bool := p.fault.repairs.any (fun r => r.1 == pa / 64)

def fate (p : Pkg) (pa : Nat) : Fate := if inRepair p pa then .waits else fateLine p pa

/-! ## Credited paths -/

def pathPage (n : Nat) : Nat := n / 16

/-- The coherence message classes (Table 13-2): 0 REQ, 1 SNP, 2 RSP, 3 DATA, 4 MEM. -/
def classDepth (c : Nat) : Nat := [32, 16, 16, 32, 32].getD c 2

/-- The link-die bridges of the four sheets have no pages; their paths stand under these numbers in a page's place. -/
def linkBridgePages : Nat := 0x2000
def isLinkBridge (n : Nat) : Bool := decide (linkBridgePages ≤ pathPage n) && decide (pathPage n < linkBridgePages + 4)

/-- The depth of a path. The paths 0 and 1 of an HBM or DDR controller, the host link or a Proilad port are its synchronizing
queues, toward the PHY and from it (Table 2-6); the paths 8 × direction + class of a meridian or graticule page or a link-die
bridge are the message classes of that hop, whose depth Table 13-2 bounds from below (R451). -/
def pathDepth (n : Nat) : Nat :=
  let cls := classOf (pathPage n)
  if (cls = 0x04 ∨ cls = 0x08) ∧ n % 16 < 2 then 64
  else if cls = 0x05 ∧ n % 16 < 2 then 32
  else if cls = 0x09 ∧ n % 16 < 2 then 128
  else if cls = 0x06 ∨ cls = 0x07 ∨ isLinkBridge n = true then Config.pathDepth (classDepth (n % 8)) n
  else Config.pathDepth 2 n

/-- The paths of Table 2-6 and the class paths of a bridge hop. -/
def isFabric (n : Nat) : Bool :=
  ([0x04, 0x05, 0x08, 0x09].contains (classOf (pathPage n)) && decide (n % 16 < 2)) ||
    (([0x06, 0x07].contains (classOf (pathPage n)) || isLinkBridge n) && decide (n % 8 < 5))

/-- Whether the receiver of a path is READY; a link-die bridge while the core rails are up. -/
def pathReady (p : Pkg) (n : Nat) : Bool := if isLinkBridge n then p.seq.railPgCore else ready p (pathPage n)

def Path.initial (depth : Nat) : Path := ⟨0, 0, 0, depth, 0, 0, false, false, [], 0, [], false⟩

/-- A path on which nothing has happened since its reset: its sender holds no credit; toward a retired block it is stopped
(R101); the fabric's own paths have had their first update once their block is READY (R100, log entry 13). -/
def freshPath (p : Pkg) (n : Nat) : Path :=
  let x := Path.initial (pathDepth n)
  if retired p (pathPage n) then { x with retired := true }
  else if isFabric n && pathReady p n then { x with limit := x.depth, announced := true, lastSent := x.depth }
  else x

def path (p : Pkg) (n : Nat) : Path := SMap.get p.paths n (freshPath p n)

def setPath (p : Pkg) (n : Nat) (x : Path) : Pkg := { p with paths := SMap.set p.paths n x }

/-- Credits the sender holds (R96). -/
def Path.credits (x : Path) : Nat := (x.limit + 65536 - x.sent % 65536) % 65536

/-- The value of a credit update (R97). -/
def Path.update (x : Path) : Nat := (x.freed + x.depth) % 65536

/-- Whether an item may cross the synchronizing queue of a clocked island (R45, R76): direction 0 toward the PHY, 1 from it. -/
def islandClear (p : Pkg) (pg dir : Nat) : Bool := (path p (16 * pg + dir)).credits != 0

/-- R96, R107: an item goes out while a credit is held; FIRST begins a packet, which ends with LAST and does not outgrow the
depth; the next one begins once this has committed or was rewound. -/
def Path.send (x : Path) (item : Item) (first last : Bool) : Path :=
  if x.credits = 0 ∨ x.ended = true ∨ first ≠ x.uncommitted.isEmpty ∨ x.depth ≤ x.uncommitted.length ∨
      (last = false ∧ x.depth ≤ x.uncommitted.length + 1) then x
  else { x with sent := (x.sent + 1) % 65536, uncommitted := x.uncommitted ++ [item], ended := last }

def doItemSend (n : Nat) (item : Item) (first last : Bool) (p : Pkg) : Pkg :=
  setPath p n ((path p n).send item first last)

def execItemSend (n : Nat) (item : Item) (first last : Bool) (s : State) : Out :=
  .next (s.onPkg (doItemSend n item first last))

/-- R97: the receiver removes its oldest item, and FREED counts it. -/
def Path.remove (x : Path) : Path :=
  match x.items with
  | [] => x
  | _ :: t => { x with items := t, freed := (x.freed + 1) % 65536 }

def doItemRemove (n : Nat) (p : Pkg) : Pkg := setPath p n (path p n).remove

def execItemRemove (n : Nat) (s : State) : Out := .next (s.onPkg (doItemRemove n))

/-- R99, R100: the receiver sends one merged update after FREED has changed, and its first one when its block is
READY. -/
def doCreditUpdateSend (n : Nat) (p : Pkg) : Pkg :=
  let x := path p n
  if pathReady p n = true ∧ (x.announced = false ∨ x.update ≠ x.lastSent) then
    emitMsg (setPath p n { x with announced := true, lastSent := x.update }) (.credit n x.update)
  else p

def execCreditUpdateSend (n : Nat) (s : State) : Out := .next (s.onPkg (doCreditUpdateSend n))

/-- R99: the last update is repeated while the sender holds fewer credits than the depth. -/
def doCreditUpdateRepeat (n : Nat) (p : Pkg) : Pkg :=
  let x := path p n
  if x.announced = true ∧ x.update = x.lastSent ∧ x.credits < x.depth then emitMsg p (.credit n x.lastSent) else p

def execCreditUpdateRepeat (n : Nat) (s : State) : Out := .next (s.onPkg (doCreditUpdateRepeat n))

/-- R98: an update that passes its check code and lies within the depth of LIMIT replaces it; any other is discarded and
counted. Toward a retired receiver LIMIT stays at SENT (R101). -/
def Path.accept (x : Path) (u : Nat) (good : Bool) : Path :=
  if good = true ∧ x.retired = false ∧ (u % 65536 + 65536 - x.limit % 65536) % 65536 ≤ x.depth then
    { x with limit := u % 65536 }
  else { x with discards := x.discards + 1 }

def doCreditUpdate (n u : Nat) (good : Bool) (p : Pkg) : Pkg := setPath p n ((path p n).accept u good)

def execCreditUpdate (n u : Nat) (good : Bool) (s : State) : Out := .next (s.onPkg (doCreditUpdate n u good))

/-- Whether an aperture offset is a pop register's (Table 4-1, spec/08, spec/11, spec/14). -/
def isPopKey (k : Nat) : Bool :=
  match pageInfo (k / 0x1000) with
  | none => false
  | some pi =>
    let o := k % 0x1000
    pi.index == 0 && (o == 0x18 || o == 0x30 || (pi.cls == 0x0D && o == 0x108) || (pi.cls == 0x0E && o == 0x120) ||
      (pi.cls == 0x04 && o == 0x190) || (pi.cls == 0x08 && o == 0x410))

/-- The 64-bit words of a 64-byte item, lowest first. -/
def itemWords (i : Item) (n : Nat) : List W64 := (List.range n).map (fun j => BitVec.ofNat 64 (i.toNat / 2 ^ (64 * j)))

/-- Words of an item of the queue at a pop register: an error record has 4, every other item 2. -/
def wordsPerItem (k : Nat) : Nat :=
  let o := k % 0x1000
  if o = 0x18 then 4 else 2

/-- Inserts a push by its source port, after those of the same port (R103). -/
def insertPush (x : Nat × Item) (l : List (Nat × Item)) : List (Nat × Item) :=
  match l with
  | [] => [x]
  | y :: t => if x.1 < y.1 then x :: y :: t else y :: insertPush x t

def sortPushes (l : List (Nat × Item)) : List (Nat × Item) := l.foldl (fun acc x => insertPush x acc) []

/-- Items join the committed ones, each with the next sequence number (Table 3-5). -/
def Path.append (x : Path) (l : List Item) : Path :=
  match l with
  | [] => x
  | i :: t => Path.append { x with items := x.items ++ [(x.nextSeq, i)], nextSeq := (x.nextSeq + 1) % 65536 } t

/-- A push of a packet of one item reaches a path's queue: it takes a credit, and its own sequence number (R96, R103); without
a credit it waits at its sender. -/
def Path.land (x : Path) (item : Item) : Path :=
  if x.credits ≠ 0 ∧ x.items.length + x.uncommitted.length < x.depth then
    Path.append { x with sent := (x.sent + 1) % 65536 } [item]
  else x

/-- R102, R103: in one arbitration instant the pop is served first, then the pushes in ascending source port. The number
names a register-visible queue by its pop register, or a path. -/
def doQueueArbitration (n : Nat) (pop : Bool) (pushes : List (Nat × Item)) (p : Pkg) : Pkg :=
  if isPopKey n then
    let p1 := if pop then
        let (w, q) := (queue p n).pop
        emitMsg (setQueue p n q) (.readData n w)
      else p
    (sortPushes pushes).foldl (fun q x => pushQueue q n (itemWords x.2 (wordsPerItem n)) true) p1
  else
    let x0 := if pop then (path p n).remove else path p n
    setPath p n ((sortPushes pushes).foldl (fun x y => x.land y.2) x0)

def execQueueArbitration (n : Nat) (pop : Bool) (pushes : List (Nat × Item)) (s : State) : Out :=
  .next (s.onPkg (doQueueArbitration n pop pushes))

/-- A rewound packet vanishes and its items' credits return (R106). -/
def Path.rewind (x : Path) : Path :=
  { x with uncommitted := [], ended := false, freed := (x.freed + x.uncommitted.length) % 65536 }

/-- R105, R107: once its LAST item has been written with a good check code the whole packet becomes visible, in order, each item
taking its number; a packet that has not ended is not committed; one with a bad item is rewound. -/
def Path.commit (x : Path) (good : Bool) : Path :=
  if !good then x.rewind
  else if x.ended then ({ x with uncommitted := [], ended := false } : Path).append x.uncommitted
  else x

def doPacketCommit (n : Nat) (good : Bool) (p : Pkg) : Pkg := setPath p n ((path p n).commit good)

def execPacketCommit (n : Nat) (good : Bool) (s : State) : Out := .next (s.onPkg (doPacketCommit n good))

def doPacketRewind (n : Nat) (p : Pkg) : Pkg := setPath p n (path p n).rewind

def execPacketRewind (n : Nat) (s : State) : Out := .next (s.onPkg (doPacketRewind n))

/-- R101: every sender toward a retired block stops, and what the block had not removed is discarded. -/
def retirePaths (p : Pkg) (pg : Nat) : Pkg :=
  { p with paths := p.paths.map (fun kv =>
      if pathPage kv.1 = pg then (kv.1, { kv.2 with
        limit := kv.2.sent, retired := true, items := [], uncommitted := [], ended := false })
      else kv) }

/-- R100: both ends of every path to a block start anew. -/
def restartPaths (p : Pkg) (pg : Nat) : Pkg :=
  { p with paths := p.paths.map (fun kv =>
      if pathPage kv.1 = pg then (kv.1, { Path.initial kv.2.depth with discards := kv.2.discards }) else kv) }

/-! ## Queues that software reads -/

/-- What a pop returns without removing anything: the not-valid word with the next sequence number (R111, Table 3-2). -/
def notValid (q : Queue) : W64 := BitVec.ofNat 64 (q.nextSeq % 65536)

/-- R110 to R113: a 64-bit read by the page's owner pops one word; any other party and a queue whose block is not READY
get the not-valid word; a 32-bit read of either half returns 0 and does not pop. The word read goes back to the
requester. -/
def doQueuePop (rq : Requester) (off width : Nat) (p : Pkg) : Pkg :=
  let k := off / 8 * 8
  let pg := k / 0x1000
  if isPopKey k && present p pg then
    if width ≠ 8 then emitMsg p (.readData off 0)
    else if rq.code = 0 ∨ rq.code ≠ owner p pg ∨ (0x100 ≤ k % 0x1000 ∧ ready p pg = false) then
      emitMsg p (.readData k (notValid (queue p k)))
    else
      let (w, q) := (queue p k).pop
      emitMsg (setQueue p k q) (.readData k w)
  else p

def execQueuePop (rq : Requester) (off width : Nat) (s : State) : Out :=
  .next (s.onPkg (doQueuePop rq off width))

/-- R104: a software push lands, or is discarded and counted in DROPPED when the queue is full. -/
def doSoftwarePush (rq : Requester) (k : Nat) (item : Item) (p : Pkg) : Pkg :=
  if isPopKey k then
    ifWrites p rq (k / 0x1000) (k % 0x1000) (fun q =>
      setQueue q k ((queue q k).push (queueCap (k % 0x1000)) false (itemWords item (wordsPerItem k)) true))
  else p

def execSoftwarePush (rq : Requester) (k : Nat) (item : Item) (s : State) : Out :=
  .next (s.onPkg (doSoftwarePush rq k item))

/-- R115: hardware pushes an item under the queue's overflow policy. -/
def doQueuePush (k : Nat) (words : List W64) (p : Pkg) : Pkg :=
  if isPopKey k then pushQueue p k (words.take (wordsPerItem k)) true else p

def execQueuePush (k : Nat) (words : List W64) (s : State) : Out := .next (s.onPkg (doQueuePush k words))

/-! ## Spill queues -/

def Spill.empty : Spill := ⟨[], [], 0, 0, 0, 0, 0⟩

def spillKey (ctx ring : Nat) : Nat := key (pgQm + 1 + ctx) (0x150 + 48 * ring)
def spill (p : Pkg) (ctx ring : Nat) : Spill := SMap.get p.spills (64 * ctx + ring) Spill.empty
def setSpill (p : Pkg) (ctx ring : Nat) (x : Spill) : Pkg :=
  { p with spills := SMap.set p.spills (64 * ctx + ring) x }

def Spill.inRegion (x : Spill) : Nat := x.regionWr - x.regionRd
def Spill.depth (x : Spill) : Nat := x.head.length + x.tail.length + x.inRegion

/-- When the region is empty and the head has room, tail items pass straight to the head (R122). -/
def Spill.settle (x : Spill) : Spill :=
  if x.inRegion = 0 then
    let n := min (16 - x.head.length) x.tail.length
    { x with head := x.head ++ x.tail.take n, tail := x.tail.drop n }
  else x

/-- The fields of a spill control register (Table 3-4). -/
def spillBase (w : W64) : Nat := bitsOf w 51 12 * 4096
def spillSize (w : W64) : Nat := 2 ^ bitsOf w 5 1

/-- R125: a spill queue is full when its 32 register slots are, and its region too or ENABLE is 0; FULL reads so. -/
def Spill.full (x : Spill) (w : W64) : Bool :=
  decide (32 ≤ x.head.length + x.tail.length) && (!bitOf w 0 || decide (spillSize w ≤ x.inRegion))

/-- An item joins the queue, or is dropped and counted where the queue is full (R104, R125). While the tail's 16 slots wait for
their spill write the item waits at its sender. -/
def Spill.push (x : Spill) (w : W64) (item : Item) : Spill :=
  if x.tail.length < 16 then
    ({ x with tail := x.tail ++ [(x.nextSeq, item)], nextSeq := (x.nextSeq + 1) % 65536 } : Spill).settle
  else if x.full w then { x with dropped := satAdd 65535 x.dropped 1 }
  else x

/-- The oldest item leaves (R121); none while the head is empty and the region waits for its refill (R123). -/
def Spill.pop (x : Spill) : Option (Nat × Item) × Spill :=
  match x.head with
  | [] => (none, x)
  | i :: t => (some i, ({ x with head := t } : Spill).settle)

/-- R119: the acceptance of a write of a spill control register. -/
def putSpillControl (ctx ring : Nat) (value : W64) (p : Pkg) : Pkg :=
  let k := spillKey ctx ring
  let old := reg p k
  let new := mergeWrite (rw8 0x150 (msk 51 12 + msk 5 0)) old value
  let okEnable := decide (6 ≤ bitsOf new 5 1) && decide (bitsOf new 5 1 ≤ 20) &&
    hbmOrScratch p (spillBase new) (64 * spillSize new) && decide ((spill p ctx ring).depth ≤ 32)
  if bitOf old 0 then
    if bitOf new 0 then p
    else if (spill p ctx ring).inRegion = 0 then setReg p k new else p
  else if bitOf new 0 then (if okEnable then setReg p k new else p)
  else setReg p k new

def doSpillControlWrite (rq : Requester) (ctx ring : Nat) (value : W64) (p : Pkg) : Pkg :=
  if ctx < 16 ∧ ring < 64 then
    ifWrites p rq (pgQm + 1 + ctx) (0x150 + 48 * ring) (putSpillControl ctx ring value)
  else p

def execSpillControlWrite (rq : Requester) (ctx ring : Nat) (value : W64) (s : State) : Out :=
  .next (s.onPkg (doSpillControlWrite rq ctx ring value))

/-- The address of a slot of the region (R118). -/
def spillSlot (w : W64) (n : Nat) : Nat := spillBase w + 64 * (n % spillSize w)

/-- The items a spill write moves: 8, or as many as the region has room for (R122). -/
def spillCount (w : W64) (x : Spill) : Nat :=
  if bitOf w 0 = true ∧ 8 ≤ x.tail.length ∧ (16 ≤ x.head.length ∨ x.inRegion ≠ 0) then
    min 8 (spillSize w - x.inRegion)
  else 0

/-- Slots written one after another; a slot that is no longer populated discards its item (R35, R38). -/
def storeSlots (p : Pkg) (m : Memory) (w : W64) (at' : Nat) (items : List (Nat × Item)) : Memory :=
  match items with
  | [] => m
  | i :: t =>
    storeSlots p (if fateLine p (spillSlot w at') = .decode then m else m.storeLine (spillSlot w at') i.2 false) w (at' + 1) t

/-- The first slot of a run that makes a decode error is logged by the queue manager (R38). -/
def slotErrors (p : Pkg) (w : W64) (at' n : Nat) : Pkg :=
  match ((List.range n).map (fun i => spillSlot w (at' + i))).find? (fun a => fateLine p a == .decode) with
  | some a => decodeError p pgQm a
  | none => p

/-- Whether a run of slots waits by back-pressure: its sheet is halted or its memory not READY (R65). -/
def slotsWait (p : Pkg) (w : W64) (at' n : Nat) : Bool :=
  (List.range n).any (fun i => fateLine p (spillSlot w (at' + i)) == .waits)

/-- R122: the oldest tail items go to the region in one write. -/
def execSpillWrite (ctx ring : Nat) (s : State) : Out :=
  let w := reg s.pkg (spillKey ctx ring)
  let x := spill s.pkg ctx ring
  let n := spillCount w x
  if n = 0 ∨ slotsWait s.pkg w x.regionWr n = true then .next s
  else
    let first := match x.tail with
      | (q, _) :: _ => q
      | [] => 0
    .next { s with
      mem := storeSlots s.pkg s.mem w x.regionWr (x.tail.take n)
      pkg := setSpill (slotErrors s.pkg w x.regionWr n) ctx ring { x with
        tail := x.tail.drop n, regionWr := x.regionWr + n,
        firstSeq := if x.inRegion = 0 then first else x.firstSeq } }

/-- R122, R124: one slot read into the head; the item of a poisoned slot, and of one that makes a decode error, is discarded and
SPILL_POISON is logged. -/
def refillOne (ctx ring : Nat) (w : W64) (m : Memory) (p : Pkg) : Pkg :=
  let x := spill p ctx ring
  let a := spillSlot w x.regionRd
  let y : Spill := { x with regionRd := x.regionRd + 1, firstSeq := (x.firstSeq + 1) % 65536 }
  let e : ErrArgs := ⟨0x80, 0, 1, a, x.firstSeq⟩
  if fateLine p a = .decode then logErr (decodeError (setSpill p ctx ring y) pgQm a) pgQm e
  else if m.poisoned a 64 then logErr (setSpill p ctx ring y) pgQm e
  else setSpill p ctx ring { y with head := x.head ++ [(x.firstSeq, m.line a)] }

def refillMany (ctx ring : Nat) (w : W64) (m : Memory) (n : Nat) (p : Pkg) : Pkg :=
  match n with
  | 0 => p
  | n + 1 => refillMany ctx ring w m n (refillOne ctx ring w m p)

/-- The item of the pending queue (R280): descriptor bytes 0 to 55, the ring sequence number, the index of the command's first
entry in the command translation store. -/
def pendingItem (c : Cmd) : Item :=
  BitVec.ofNat 512 (dField c.desc 0 56 + c.seq % 65536 * 2 ^ 448 + ((c.pages.head?.map (fun x => x.2.entry)).getD 0) % 2 ^ 48 * 2 ^ 464)

/-- The waiting command of its own ring that an item names by its sequence number; 0 where none does (R120). -/
def itemCmd (p : Pkg) (ctx ring : Nat) (i : Item) : Nat :=
  match p.qm.cmds.find? (fun x => x.2.ctx == ctx && x.2.ring == ring && x.2.phase != .translating &&
      x.2.seq % 65536 == i.toNat / 2 ^ 448 % 65536) with
  | some x => x.1
  | none => 0

/-- The command at the head of a ring's pending queue. -/
def ringNext (p : Pkg) (ctx ring : Nat) : Option Nat := (spill p ctx ring).head.head?.map (fun x => itemCmd p ctx ring x.2)

/-- The command at the head of its ring notes when it came there (R291). -/
def noteHead (p : Pkg) (ctx ring : Nat) : Pkg :=
  match ringNext p ctx ring with
  | some id => if hasCmd p id && (cmd p id).waitSince == 0 then
      setCmd p id { cmd p id with waitSince := p.pace.datum + 1, ageFrom := timerNow p + 1 } else p
  | none => p

/-- Items whose commands no longer wait leave the head of a pending queue. -/
def settlePending (p : Pkg) (ctx ring fuel : Nat) : Pkg :=
  match fuel with
  | 0 => p
  | k + 1 =>
    match ringNext p ctx ring with
    | some id =>
      if hasCmd p id && (cmd p id).phase == .waiting && !(cmd p id).requeued then noteHead p ctx ring
      else settlePending (setSpill p ctx ring ((spill p ctx ring).pop).2) ctx ring k
    | none => p

/-- R122: with 8 or fewer items in the head and the region not empty, up to 8 items are read into the head. -/
def doSpillRefill (ctx ring : Nat) (m : Memory) (p : Pkg) : Pkg :=
  let x := spill p ctx ring
  let w := reg p (spillKey ctx ring)
  if x.head.length ≤ 8 ∧ x.inRegion ≠ 0 ∧ slotsWait p w x.regionRd (min 8 x.inRegion) = false then
    let q := refillMany ctx ring w m (min 8 x.inRegion) p
    settlePending (setSpill q ctx ring (spill q ctx ring).settle) ctx ring 64
  else p

def execSpillRefill (ctx ring : Nat) (s : State) : Out := .next (s.onPkg (doSpillRefill ctx ring s.mem))

end Sys2Proof.Machine
end

