-- ==== Sys2Proof/Machine/Trace.lean ====
section
/-! DEFINITION. Stalls, traces and the test access ports (spec/20). -/

namespace Sys2Proof.Machine

/-! ## Trace records (R691 to R697) -/

/-- The identities of Table 20-5. -/
def idCe (n : Nat) : Nat := 1 * 2 ^ 28 + n
def idRing (ctx ring : Nat) : Nat := 2 * 2 ^ 28 + 64 * ctx + ring
def idHart (h : Nat) : Nat := 3 * 2 ^ 28 + h
def idHost : Nat := 4 * 2 ^ 28
def idNode (n : Nat) : Nat := 5 * 2 ^ 28 + n
def idSlice (n : Nat) : Nat := 6 * 2 ^ 28 + n
def idStack (n : Nat) : Nat := 7 * 2 ^ 28 + n
def idL3 (n : Nat) : Nat := 8 * 2 ^ 28 + n
def idHostLink : Nat := 9 * 2 ^ 28

def TraceBlk.empty : TraceBlk := ⟨[], 0⟩
def trace (p : Pkg) (t : Nat) : TraceBlk := SMap.get p.traces t TraceBlk.empty
def setTrace (p : Pkg) (t : Nat) (x : TraceBlk) : Pkg := { p with traces := SMap.set p.traces t x }
def trControl (t : Nat) : Nat := key (pgTr t) 0x100

/-- A trace record (Table 20-4) without its TRACE_SEQ, which it takes when it is written. -/
def traceItem (p : Pkg) (kind : Nat) (c : Cmd) (waiter on ns object : Nat) : Item :=
  BitVec.ofNat 512 (p.pace.datum + 2 ^ 64 * (kind + 2 ^ 8 * (c.ctx % 16) + 2 ^ 16 * (c.ring % 64) +
    2 ^ 24 * (bitNat (dTrace c.desc) + 2 * bitNat (decide (0xFFFFFFFF < ns))) +
    2 ^ 32 * dLayer c.desc + 2 ^ 48 * dOperator c.desc) +
    2 ^ 128 * (waiter + 2 ^ 32 * on) + 2 ^ 192 * (min ns 0xFFFFFFFF + 2 ^ 32 * dTag c.desc) + 2 ^ 256 * (object % 2 ^ 64))

/-- A record joins the block's queue of 256, or is dropped and counted (R695). -/
def traceQueue (p : Pkg) (t : Nat) (item : Item) : Pkg :=
  let b := trace p t
  if b.queue.length < 256 then setBit (setTrace p t { b with queue := b.queue ++ [item] }) (trControl t) 27 true
  else raiseBlock (bumpReg (setTrace p t { b with lost := b.lost + 1 }) (key (pgTr t) 0x120) 1 0xFFFFFFFF) (pgTr t) 2

/-- Whether a trace block makes records of a kind whose FILTER bit is `bit'`. -/
def traceOn (p : Pkg) (t bit' : Nat) : Bool := bit p (trControl t) 31 && bit p (trControl t) bit'

/-- A command's trace record (R693): it carries TRACE or the block traces all, and the kind's FILTER bit is 1. -/
def traceCmd (p : Pkg) (t bit' kind : Nat) (c : Cmd) (waiter on ns object : Nat) : Pkg :=
  if traceOn p t bit' && (dTrace c.desc || bit p (trControl t) 29) then
    traceQueue p t (traceItem p kind c waiter on ns object)
  else p

/-- The LOST record of a block (KIND 0x0F). -/
def lostItem (p : Pkg) (n : Nat) : Item :=
  BitVec.ofNat 512 (p.pace.datum + 2 ^ 64 * 0x0F + 2 ^ 256 * n)

/-- When room has returned, one LOST record gives the number dropped since the last (R695). -/
def traceLost (p : Pkg) (t : Nat) : Pkg :=
  let b := trace p t
  if b.lost = 0 ∨ 256 ≤ b.queue.length then p
  else setTrace p t { queue := b.queue ++ [lostItem p b.lost], lost := 0 }

/-- The line that a queued record is written as: TRACE_SEQ, the block's record number since its last enable, joins it. -/
def traceLine (p : Pkg) (t : Nat) (item : Item) : Item := withBits item 383 320 (regN p (key (pgTr t) 0x110))

def trBase (w : W64) : Nat := bitsOf w 51 12 * 4096
def trSize (w : W64) : Nat := 2 ^ bitsOf w 4 0

/-- The address of the record about to be written. -/
def traceSlot (p : Pkg) (t : Nat) : Nat :=
  let w := reg p (key (pgTr t) 0x108)
  trBase w + 64 * (regN p (key (pgTr t) 0x110) % trSize w)

/-- Whether a STOP-mode buffer holds 2^LOG2_RECORDS records not yet released (R697). -/
def traceFull (p : Pkg) (t : Nat) : Bool :=
  bit p (trControl t) 30 &&
    decide (regN p (key (pgTr t) 0x118) + trSize (reg p (key (pgTr t) 0x108)) ≤ regN p (key (pgTr t) 0x110))

/-- After a record has left the queue: a LOST record if one is due; BUSY falls when nothing is queued. -/
def traceShift (p : Pkg) (t : Nat) (rest : List Item) : Pkg :=
  let p1 := setTrace p t { trace p t with queue := rest }
  let p2 := if bit p1 (trControl t) 28 then p1 else traceLost p1 t
  setBit p2 (trControl t) 27 (!(trace p2 t).queue.isEmpty)

/-- Whether a trace block writes: READY, its sheet not halted at the floor, and the home of its buffer's line taking requests (R63,
R65). -/
def traceRuns (p : Pkg) (t : Nat) : Bool :=
  decide (t < 5) && ready p (pgTr t) && (t == 4 || stepping p t) && fate p (traceSlot p t) != .waits

/-- The package after one queued record: written and TR_PRODUCED advanced past it, with the notification of
TR_NOTIFY; dropped where the STOP-mode buffer is full; a decode error clears ENABLE (Table 20-9). -/
def doTraceRecordWrite (t : Nat) (p : Pkg) : Pkg :=
  match (trace p t).queue with
  | [] => p
  | _ :: rest =>
    if traceRuns p t = false then p
    else if traceFull p t then
      let p1 := if bit p (trControl t) 28 then p else raiseBlock (setBit p (trControl t) 28 true) (pgTr t) 1
      let p2 := raiseBlock (bumpReg p1 (key (pgTr t) 0x120) 1 0xFFFFFFFF) (pgTr t) 2
      traceShift (setTrace p2 t { trace p2 t with lost := (trace p2 t).lost + 1 }) t rest
    else if populatedRange p (traceSlot p t) 64 then
      let p1 := addReg p (key (pgTr t) 0x110) 1
      let n := fld p (key (pgTr t) 0x128) 4 0
      let p2 := if n ≠ 0 ∧ regN p1 (key (pgTr t) 0x110) % 2 ^ n = 0 then raiseBlock p1 (pgTr t) 0 else p1
      traceShift p2 t rest
    else
      setBit (setBit (setTrace (decodeError p (pgTr t) (traceSlot p t)) t TraceBlk.empty) (trControl t) 31 false)
        (trControl t) 27 false

/-- R695, R696: the record's line is written at its home, in TRACE_SEQ order. -/
def execTraceRecordWrite (t : Nat) (s : State) : Out :=
  match (trace s.pkg t).queue with
  | [] => .next s
  | i :: _ =>
    if traceRuns s.pkg t && !traceFull s.pkg t && populatedRange s.pkg (traceSlot s.pkg t) 64 then
      .next { s with mem := s.mem.storeLine (traceSlot s.pkg t) (traceLine s.pkg t i) false
                     pkg := doTraceRecordWrite t s.pkg }
    else .next (s.onPkg (doTraceRecordWrite t))

/-- R698: a write of TR_CONTROL; setting ENABLE resets the record number and the trace counters. -/
def putTraceControl (t : Nat) (value : W64) (p : Pkg) : Pkg :=
  let k := trControl t
  let p1 := setReg p k (mergeWrite (rw4 0x100 (msk 31 29 + msk 5 0)) (reg p k) value)
  if bitOf value 31 then
    let z (q : Pkg) (off : Nat) : Pkg := setReg q (key (pgTr t) off) 0
    setBit (setTrace (z (z (z p1 0x110) 0x118) 0x120) t { trace p1 t with lost := 0 }) k 28 false
  else p1

def doTraceEnable (rq : Requester) (t : Nat) (value : W32) (p : Pkg) : Pkg :=
  if t < 5 then ifWrites p rq (pgTr t) 0x100 (putTraceControl t (value.setWidth 64)) else p

def execTraceEnable (rq : Requester) (t : Nat) (value : W32) (s : State) : Out :=
  .next (s.onPkg (doTraceEnable rq t value))

/-- R698: a write of TR_BUFFER is discarded while ENABLE is 1, for a LOG2_RECORDS outside 6 to 24, and for a buffer that
does not lie wholly in populated HBM or in the scratchpad part. -/
def putTrBuffer (t : Nat) (value : W64) (p : Pkg) : Pkg :=
  let k := key (pgTr t) 0x108
  let new := mergeWrite (rw8 0x108 (msk 51 12 + msk 4 0)) (reg p k) value
  if bit p (trControl t) 31 = false ∧ 6 ≤ bitsOf new 4 0 ∧ bitsOf new 4 0 ≤ 24 ∧
      hbmOrScratch p (trBase new) (64 * trSize new) = true then setReg p k new else p

def doTrBufferWrite (rq : Requester) (t : Nat) (value : W64) (p : Pkg) : Pkg :=
  if t < 5 then ifWrites p rq (pgTr t) 0x108 (putTrBuffer t value) else p

def execTrBufferWrite (rq : Requester) (t : Nat) (value : W64) (s : State) : Out :=
  .next (s.onPkg (doTrBufferWrite rq t value))

/-- R697: a write of TR_CONSUMED above TR_PRODUCED is discarded; any other frees the records below it, and a full
block then writes one LOST record and clears FULL. -/
def putTrConsumed (t : Nat) (value : W64) (p : Pkg) : Pkg :=
  if regN p (key (pgTr t) 0x110) < value.toNat then p
  else
    let p1 := setReg p (key (pgTr t) 0x118) value
    if bit p (trControl t) 28 then
      let p2 := traceLost (setBit p1 (trControl t) 28 false) t
      setBit p2 (trControl t) 27 (!(trace p2 t).queue.isEmpty)
    else p1

def doTrConsumedWrite (rq : Requester) (t : Nat) (value : W64) (p : Pkg) : Pkg :=
  if t < 5 then ifWrites p rq (pgTr t) 0x118 (putTrConsumed t value) else p

def execTrConsumedWrite (rq : Requester) (t : Nat) (value : W64) (s : State) : Out :=
  .next (s.onPkg (doTrConsumedWrite rq t value))

/-- R690: the quadrangle copies a lost CE's waypoint ring, oldest first, into its sheet's trace block. -/
def waypointDump (p : Pkg) (n : Nat) : Pkg :=
  let t := n / 256
  if traceOn p t 5 then
    (queue p (key (pgCe n) 0x30)).items.foldl (fun q i =>
      let w0 := (i.2.getD 0 0).toNat % 2 ^ 62 + 2 ^ 62 * 3
      traceQueue q t (traceItem q 0x0C noCmd (idCe n) 0 0 w0)) p
  else p

/-! ## Stalls (R688) -/

/-- Whether a block pushes stall waypoints: CE, SLM slice, queue manager (Table 20-2). -/
def stallBlock (pg : Nat) : Bool := classOf pg == 0x01 || classOf pg == 0x03 || classOf pg == 0x0D

def openStalls (p : Pkg) (pg : Nat) : List (Nat × Nat × Nat) := SMap.get p.fault.openStalls pg []
def setStalls (p : Pkg) (pg : Nat) (l : List (Nat × Nat × Nat)) : Pkg :=
  { p with fault := { p.fault with openStalls := SMap.set p.fault.openStalls pg l } }

/-- R688: a stall of 65,536 beats pushes STALL_BEGIN; a block records at most 4 open stalls. -/
def doStallBegin (pg port who : Nat) (p : Pkg) : Pkg :=
  let l := openStalls p pg
  if stallBlock pg && present p pg && decide (l.length < 4) && !(l.any (fun x => x.1 == port)) then
    let p1 := waypoint (setStalls p pg (l ++ [(port, who, p.pace.datum)])) pg 0x15 port who
    if classOf pg = 1 then raiseBlock p1 pg 1 else p1
  else p

def execStallBegin (pg port who : Nat) (s : State) : Out := .next (s.onPkg (doStallBegin pg port who))

/-- R688, R693: the item moves: STALL_END where the stall was recorded, and the CE's QUEUE_STALL record where the stall
lasted TR_STALL_MIN beats of the sheet. -/
def doStallEnd (pg port who beats ns : Nat) (p : Pkg) : Pkg :=
  let l := openStalls p pg
  let p1 := if l.any (fun x => x.1 == port) then
      waypoint (setStalls p pg (l.filter (fun x => x.1 != port))) pg 0x16 port (min 0xFFFF (beats / 65536))
    else p
  match pageInfo pg with
  | some pi =>
    if pi.cls = 1 ∧ fld p (key (pgTr pi.die) 0x124) 19 0 ≤ beats then
      let n := 256 * pi.die + pi.inst
      traceCmd p1 pi.die 2 0x06 (ceCmd p n) (idCe n) who ns (port % 65536)
    else p1
  | none => p1

def execStallEnd (pg port who beats ns : Nat) (s : State) : Out := .next (s.onPkg (doStallEnd pg port who beats ns))

/-! ## Test access (R702 to R704): dies 0 to 3 the sheets, 4 the processor die, 5 the link die -/

/-- The opcode a TAP takes: under DEBUG_LOCK every opcode but those of the first four rows of Table 20-8 selects BYPASS,
as does an opcode the die does not implement. -/
def tapOpcode (p : Pkg) (die op : Nat) : Nat :=
  if op = 0xFF ∨ op = 0x01 ∨ op = 0x02 ∨ op = 0x00 then op
  else if p.fuse.debugLock then 0xFF
  else if op = 0x03 ∨ op = 0x04 ∨ (0x10 ≤ op ∧ op ≤ 0x17) ∨ (op = 0x18 ∧ die < 4) ∨ (0x20 ≤ op ∧ op ≤ 0xFE) then op
  else 0xFF

/-- The instruction a die's TAP holds; after Test-Logic-Reset it is IDCODE. -/
def tapHeld (p : Pkg) (die : Nat) : Nat := SMap.get p.tapIr die 0x01

/-- The value of the device identification register (R704). -/
def idcode (die : Nat) : W32 := if die < 4 then 0xB7A22001 else if die = 4 then 0xB7A21001 else 0xB7A20001

/-- The length in bits of the register that an opcode selects (Table 20-8); none where the table gives none. -/
def tapLength (die op : Nat) : Option Nat :=
  if op = 0x01 then some 32
  else if op = 0x02 ∨ op = 0x00 then some (if die = 5 then 212 else if die = 4 then 1124 else 16)
  else if (0x10 ≤ op ∧ op ≤ 0x18) ∨ (0x20 ≤ op ∧ op ≤ 0xFE) then none
  else some 1

def doTap (die op : Nat) (p : Pkg) : Pkg :=
  if die < 6 then { p with tapIr := SMap.set p.tapIr die (tapOpcode p die op) } else p

def execTapBypass (die : Nat) (s : State) : Out := .next (s.onPkg (doTap die 0xFF))
def execTapIdcode (die : Nat) (s : State) : Out := .next (s.onPkg (doTap die 0x01))
def execTapSamplePreload (die : Nat) (s : State) : Out := .next (s.onPkg (doTap die 0x02))
def execTapExtest (die : Nat) (s : State) : Out := .next (s.onPkg (doTap die 0x00))
def execTapClamp (die : Nat) (s : State) : Out := .next (s.onPkg (doTap die 0x03))
def execTapHighz (die : Nat) (s : State) : Out := .next (s.onPkg (doTap die 0x04))
/-- WRAPPER has the eight opcodes 0x10 to 0x17. -/
def execTapWrapper (die opcode : Nat) (s : State) : Out := .next (s.onPkg (doTap die (0x10 + opcode % 8)))
def execTapHbmWsp (die : Nat) (s : State) : Out := .next (s.onPkg (doTap die 0x18))

end Sys2Proof.Machine
end

