-- ==== Sys2Proof/Machine/Home.lean ====
section
/-! DEFINITION. What every home does (spec/10, spec/11, spec/13): which home a line has, the cache part of the SLM slices
and its replacement, the snoop filters, the requests that reach the memory controllers, the access counters. -/

namespace Sys2Proof.Machine

/-! ## Homes (R445 to R447) -/

/-- The page of the block that homes an address; the queue manager's where it has none. -/
def homePage (pa : Nat) : Nat :=
  match homeSlice pa with
  | some i => pgSl i
  | none => match region pa with
    | .host _ => pgHl
    | _ => pgQm

/-- The identity of an address's home (Table 20-5). -/
def homeId (pa : Nat) : Nat :=
  match region pa with
  | .ddr _ => idL3 (l3Home pa)
  | .hbm s o => idSlice (64 * s + slmHash o)
  | .slm i _ => idSlice i
  | .host _ => idHost
  | _ => 0

/-- The DDR channel of an address, 8-way or 4-way within the half that came up (R394, R395). -/
def ddrChannel (p : Pkg) (pa : Nat) : Nat :=
  if p.memc.ddrHalf = 0 then field pa 10 8 ^^^ field pa 15 13 ^^^ field pa 20 18
  else 4 * (p.memc.ddrHalf - 1) + (field pa 9 8 ^^^ field pa 14 13 ^^^ field pa 19 18)

/-- A replica repair ends: its line leaves the handling lists of its home and of its controller (R622). -/
def endRepair (p : Pkg) (line : Nat) : Pkg :=
  if p.fault.repairs.any (fun r => r.1 == line) then
    let pgs := match region (line * 64) with
      | .hbm s o => [pgSl (64 * s + slmHash o), pgHbm (hbmStack s o)]
      | _ => []
    pgs.foldl (fun q pg => endHandling q pg (2 * line))
      { p with fault := { p.fault with repairs := SMap.drop p.fault.repairs (fun l => l == line) } }
  else p

/-! ## Requests to the memory controllers (R383 to R390) -/

def PcSt.empty : PcSt := ⟨[], 0, [], [], false⟩
def pcSt (p : Pkg) (k : Nat) : PcSt := SMap.get p.memc.pcs k PcSt.empty
def setPc (p : Pkg) (k : Nat) (x : PcSt) : Pkg := { p with memc := { p.memc with pcs := SMap.set p.memc.pcs k x } }

/-- The channel (64 × controller + pseudo-channel) and the request that an access of a line makes there. -/
def memReq (p : Pkg) (pa cls : Nat) (write : Bool) : Option (Nat × MemReq) :=
  match region pa with
  | .hbm s o =>
    let l := hbmLocal o
    some (64 * hbmStack s o + hbmPc l, ⟨write, pa / 64, cls, hbmBank l, hbmRow l, p.pace.datum⟩)
  | .ddr _ => some (64 * (8 + ddrChannel p pa), ⟨write, pa / 64, cls, 0, Config.ddrRow (pa / 64), p.pace.datum⟩)
  | _ => none

/-- A home sends a read or a write to its memory controller. -/
def memSend (p : Pkg) (pa cls : Nat) (write : Bool) : Pkg :=
  match memReq p pa cls write with
  | some (k, r) =>
    let x := pcSt p k
    setBusy (setPc p k { x with reqs := x.reqs ++ [r] }) (if k < 512 then pgHbm (k / 64) else pgDdr (k / 64 - 8)) true
  | none => p

/-- A DDR line read at its home reaches the controller or is held by the L3 slice, whose replacement the spec does not
give: a free value. Boot-region lines in boot-resident mode are always held (R437). -/
def ddrRead (p : Pkg) (pa cls : Nat) : Pkg :=
  if p.memc.ddrPhase ≠ 1 then p
  else
    let q := memSend p pa cls false
    { p with free := p.free + 1
             memc := if bitOf (Config.freeWord p.free) 0 then q.memc else p.memc }

/-! ## Replacement (R358 to R360) -/

/-- One step of the 16-bit Fibonacci generator with taps 16, 14, 13 and 11. -/
def lfsrStep (x : Nat) : Nat :=
  x / 2 + 32768 * ((x + x / 4 + x / 8 + x / 32) % 2)

/-- A seed loaded: 0 loads 1. -/
def lfsrSeed (x : Nat) : Nat := if x % 65536 = 0 then 1 else x % 65536

/-- A way as the choice sees it: its number, its age if it holds a line, and whether it may be chosen. -/
structure Way where
  way  : Nat
  age  : Option Nat
  free : Bool
  deriving DecidableEq, Repr

/-- The choice: the way, how much every eligible line ages first, and the generator after it. -/
structure Victim where
  way  : Nat
  aged : Nat
  lfsr : Nat
  deriving DecidableEq, Repr

/-- R358 to R360: the lowest invalid way; else RANDOM by the generator, or NRU_AGE by age. None where no way is
eligible. -/
def victim (ways : List Way) (nru : Bool) (lfsr : Nat) : Option Victim :=
  let el := ways.filter (·.free)
  match el.find? (fun w => w.age.isNone) with
  | some w => some ⟨w.way, 0, lfsr⟩
  | none =>
    match el with
    | [] => none
    | w0 :: _ =>
      if nru then
        let top := el.foldl (fun a w => max a (w.age.getD 0)) 0
        some ⟨((el.find? (fun w => w.age == some top)).getD w0).way, 3 - top, lfsr⟩
      else
        let l := lfsrStep lfsr
        some ⟨(el.getD (l % el.length) w0).way, 0, l⟩

/-! ## The cache part of a slice (R358, R363 to R366) -/

def slmSet (line : Nat) : Nat := Config.slmSet line % 2048
def tagsOf (p : Pkg) (sl : Nat) : SMap Tag := SMap.get p.home.tags sl []
def setTags (p : Pkg) (sl : Nat) (t : SMap Tag) : Pkg :=
  { p with home := { p.home with tags := SMap.set p.home.tags sl t } }

/-- The first way of the cache part that a fill may choose: beyond CURRENT and, in a change, TARGET (R358, R370). -/
def cacheFrom (p : Pkg) (sl : Nat) : Nat :=
  let k := key (pgQd (sl / 8)) 0x180
  if bit p k 31 then max (fld p k 20 16) (fld p k 4 0) else fld p k 20 16

def findTag (t : SMap Tag) (line : Nat) : Option (Nat × Tag) := t.find? (fun x => x.2.line == line)

/-- The pins of a set. -/
def pinsIn (t : SMap Tag) (set : Nat) : Nat := (t.filter (fun x => x.1 / 16 == set && x.2.pinned)).length

def waysOf (t : SMap Tag) (set from' : Nat) : List Way :=
  (List.range 16).map (fun w =>
    match t.find? (fun x => x.1 == 16 * set + w) with
    | some (_, g) => ⟨w, some g.age, decide (from' ≤ w) && !g.pinned⟩
    | none => ⟨w, none, decide (from' ≤ w)⟩)

/-- A dirty line leaves the slice for HBM. -/
def writeBack (p : Pkg) (sl line : Nat) : Pkg := memSend (addReg p (key (pgSl sl) 0x120) 1) (line * 64) 1 true

/-- Eligible lines of a set age before a choice that finds none of age 3 (R360). -/
def ageSet (t : SMap Tag) (set from' n : Nat) : SMap Tag :=
  t.map (fun x => if x.1 / 16 = set ∧ from' ≤ x.1 % 16 ∧ x.2.pinned = false then (x.1, { x.2 with age := x.2.age + n }) else x)

def countPins (p : Pkg) (sl : Nat) : Pkg :=
  setReg p (key (pgSl sl) 0x138) (BitVec.ofNat 64 (min 65535 ((tagsOf p sl).filter (fun x => x.2.pinned)).length))

/-- A line fills the cache part with an SLM hint (1 pin, 2 stream; R361, R364), dirty or clean; a set without an eligible
way is not filled, and dirty data then go to HBM. -/
def slmFill (p : Pkg) (sl line hint : Nat) (dirty : Bool) : Pkg :=
  let set := slmSet line
  let cfg := key (pgSl sl) 0x100
  let st := key (pgSl sl) 0x104
  let t := tagsOf p sl
  match victim (waysOf t set (cacheFrom p sl)) (bit p cfg 16) (fld p st 15 0) with
  | none => if dirty then writeBack p sl line else p
  | some v =>
    let p1 := match t.find? (fun x => x.1 == 16 * set + v.way) with
      | some (_, g) => if g.dirty then writeBack p sl g.line else p
      | none => p
    let pin := hint == 1 && decide (pinsIn t set < fld p cfg 23 20)
    let t1 := SMap.set (ageSet t set (cacheFrom p sl) v.aged) (16 * set + v.way) ⟨line, if hint = 2 then 3 else 0, pin, dirty⟩
    countPins (setFld (setTags p1 sl t1) st 15 0 v.lfsr) sl

/-- A homed line read: a hit of the cache part, or a read of HBM that fills it; with SCRATCH_WAYS = 16 there is no
cache part (R365). -/
def slmRead (p : Pkg) (sl pa cls hint : Nat) : Pkg :=
  let t := tagsOf p sl
  match findTag t (pa / 64) with
  | some (w, g) => addReg (setTags p sl (SMap.set t w { g with age := 0 })) (key (pgSl sl) 0x110) 1
  | none =>
    let p1 := memSend (addReg p (key (pgSl sl) 0x118) 1) pa cls false
    if 16 ≤ cacheFrom p sl then p1 else slmFill p1 sl (pa / 64) hint false

/-- A homed line written: into the cache part where it is present, else allocated; a streaming line, or one without a
cache part, writes through to HBM (R365, R366). -/
def slmWrite (p : Pkg) (sl pa : Nat) (stream : Bool) : Pkg :=
  let t := tagsOf p sl
  match findTag t (pa / 64) with
  | some (w, g) => setTags p sl (SMap.set t w { g with age := 0, dirty := true })
  | none => if stream ∨ 16 ≤ cacheFrom p sl then memSend p pa 1 true else slmFill p sl (pa / 64) 0 true

/-! ## Access counters (R407 to R410) -/

def AccSt.empty : AccSt := ⟨[], 0, 0⟩
def acc (p : Pkg) (b : Nat) : AccSt := SMap.get p.memc.acc b AccSt.empty
def setAcc (p : Pkg) (b : Nat) (x : AccSt) : Pkg := { p with memc := { p.memc with acc := SMap.set p.memc.acc b x } }

/-- The ACC_CONTROL register of a counting block: HBM stacks 0 to 7, the host link 8. -/
def accControl (b : Nat) : Nat := if b < 8 then key (pgHbm b) 0x180 else key pgHl 0x400

/-- The way an access takes: its entry's, a free way, or the way with the lowest count, lowest way on a tie. -/
def accWay (t : SMap AccEnt) (set page : Nat) : Nat × Bool :=
  match (List.range 8).find? (fun w => (SMap.get t (8 * set + w) ⟨0, 0, 0, 0, false⟩).page == page + 1) with
  | some w => (w, false)
  | none =>
    match (List.range 8).find? (fun w => !(t.any (fun x => x.1 == 8 * set + w))) with
    | some w => (w, false)
    | none =>
      let n (w : Nat) := let e := SMap.get t (8 * set + w) ⟨0, 0, 0, 0, false⟩; e.reads + e.writes
      ((List.range 8).foldl (fun best w => if n w < n best then w else best) 0, true)

/-- The two words of a hot record (Table 11-9). -/
def hotWords (b page ctx reads writes epochs : Nat) : List W64 :=
  [BitVec.ofNat 64 (bitNat (decide (b < 8)) * 2 ^ 47 + page % 2 ^ 31 * 2 ^ 16),
   BitVec.ofNat 64 ((if b < 8 then 0 else ctx % 16) * 2 ^ 58 + reads * 2 ^ 32 + writes * 2 ^ 16 + epochs % 65536)]

/-- R407, R408: one line access counted in its 2 MiB page's entry; the entry that reaches THRESHOLD pushes one hot
record. `addr` is a package address for an HBM controller, a host physical address for the host link. -/
def countAccess (p : Pkg) (b addr : Nat) (write : Bool) (ctx : Nat) : Pkg :=
  if bit p (accControl b) 31 then
    let page := field addr 51 21
    let set := field addr 30 21 % 128
    let a := acc p b
    let (w, evicts) := accWay a.ents set page
    let old := SMap.get a.ents (8 * set + w) ⟨0, 0, 0, 0, false⟩
    let e : AccEnt := if old.page = page + 1 then old else ⟨page + 1, 0, 0, 0, false⟩
    let e1 : AccEnt := { e with
      reads := if write then e.reads else satAdd 65535 e.reads 1
      writes := if write then satAdd 65535 e.writes 1 else e.writes
      ctx := ctx }
    let hot := decide (fld p (accControl b) 15 0 ≤ e1.reads + e1.writes) && !e1.hot
    let p1 := if evicts then bumpReg p (accControl b + 8) 1 0xFFFFFFFF else p
    let p2 := setAcc p1 b { a with ents := SMap.set a.ents (8 * set + w) { e1 with hot := e1.hot || hot } }
    if hot then
      raiseBlock (pushQueue p2 (accControl b + 0x10) (hotWords b page ctx e1.reads e1.writes a.epochs) true)
        (accControl b / 0x1000) (if b < 8 then 1 else 4)
    else p2
  else p

/-! ## Bridges (R469, R470, R472) -/

/-- The page of a bridge that has one: meridian n, 4 + s the graticule between sheets s and s + 1; 8 + s is the link-die bridge of
sheet s, which has none. -/
def bridgePage (b : Nat) : Nat := if b < 4 then pgMer b else pgGrt (b - 4)
def bridgeIsDown (p : Pkg) (b : Nat) : Bool :=
  if b < 8 then bit p (key (bridgePage b) 0x100) 31
  else SMap.get p.fault.bridgeDown (2 * b) false || SMap.get p.fault.bridgeDown (2 * b + 1) false

/-- One bridge on a path, and whether it is crossed toward the sheet, or toward sheet s + 1. -/
structure Hop where
  bridge : Nat
  toward : Bool
  deriving DecidableEq, Repr

/-- The graticule between a sheet and the next one, or the one before. -/
def gratUp (s : Nat) : Hop := ⟨4 + s % 4, true⟩
def gratDown (s : Nat) : Hop := ⟨4 + (s + 3) % 4, false⟩

/-- R469: the bridges from sheet `a` to sheet `b`: neighbours by their shared bridge, others through a + 1; round the other
side of the ring where a bridge of the path is DOWN. -/
def gratPath (p : Pkg) (a b : Nat) : List Hop :=
  let d := (b + 4 - a) % 4
  let up := (List.range d).map (fun i => gratUp (a + i))
  let down := (List.range ((4 - d) % 4)).map (fun i => gratDown (a + 4 - i))
  let first := if d = 3 then down else up
  if first.any (fun h => bridgeIsDown p h.bridge) then (if d = 3 then up else down) else first

/-- R470: the sheet whose meridian serves sheet n. -/
def meridianVia (p : Pkg) (n : Nat) : Nat :=
  if !bridgeIsDown p n then n else if !bridgeIsDown p ((n + 1) % 4) then (n + 1) % 4 else (n + 3) % 4

/-- R639: the sheet whose link-die bridge serves sheet n. -/
def linkVia (p : Pkg) (n : Nat) : Nat :=
  if !bridgeIsDown p (8 + n) then n else if !bridgeIsDown p (8 + (n + 1) % 4) then (n + 1) % 4 else (n + 3) % 4

/-- The bridges between the processor die (4) or the link die (5) and sheet n, outward or back. -/
def dieToSheet (p : Pkg) (die n : Nat) (toward : Bool) : List Hop :=
  let via := if die = 4 then meridianVia p n else linkVia p n
  let b := if die = 4 then via else 8 + via
  if toward then ⟨b, true⟩ :: gratPath p via n else gratPath p n via ++ [⟨b, false⟩]

/-- The sheet that traffic between the processor die and the link die crosses for an address that no sheet homes (R24): which, the
spec does not state, a free value. -/
def crossSheet (p : Pkg) : Nat := (Config.freeWord p.free).toNat % 4

/-- The bridges from a requester's die to a home's: sheets 0 to 3, 4 the processor die, 5 the link die. -/
def bridgePath (p : Pkg) (a b : Nat) : List Hop :=
  if a = b then []
  else if a < 4 then (if b < 4 then gratPath p a b else dieToSheet p b a false)
  else if b < 4 then dieToSheet p a b true
  else dieToSheet p a (crossSheet p) true ++ dieToSheet p b (crossSheet p) false

/-- Whether another path is taken than the one while no bridge is DOWN. -/
def onDetour (p : Pkg) (a b : Nat) : Bool :=
  bridgePath p a b != bridgePath { p with regs := [], fault := { p.fault with bridgeDown := [] } } a b

/-- A DATA line crosses the bridges between a requester and a home, toward the requester for a read (Table 13-6). -/
def carryLine (p : Pkg) (a b : Nat) (read : Bool) : Pkg :=
  let detour := onDetour p a b && a != 5 && b != 5
  (bridgePath p a b).foldl (fun q h =>
    let pg := bridgePage h.bridge
    if 8 ≤ h.bridge then q
    else
      let q1 := addReg q (key pg (if h.toward != read then 0x108 else 0x110)) 1
      if detour then addReg q1 (key pg 0x118) 1 else q1) (if 4 ≤ a ∧ 4 ≤ b then nextFree p else p)

/-- The die of an identity of Table 20-5: a sheet, 4 the processor die, or none of these. -/
def dieOfId (who : Nat) : Option Nat :=
  match who / 2 ^ 28 with
  | 1 => some (who % 2 ^ 28 / 256)
  | 6 => some (who % 2 ^ 28 / 64)
  | 0 => some 4
  | 2 => some 4
  | 3 => some 4
  | 4 => some 4
  | 5 => some 5
  | 8 => some 4
  | 9 => some 4
  | _ => none

/-- The die of an address's home. -/
def dieOfHome (pa : Nat) : Option Nat :=
  match region pa with
  | .ddr _ => some 4
  | .hbm s _ => some s
  | .slm i _ => some (i / 64)
  | _ => none

/-- R451: the path of a message class (Table 13-2: 0 REQ, 1 SNP, 2 RSP, 3 DATA, 4 MEM) over a hop. -/
def hopPath (h : Hop) (cls : Nat) : Nat :=
  16 * (if h.bridge < 8 then bridgePage h.bridge else linkBridgePages + (h.bridge - 8)) + (if h.toward then 0 else 8) + cls

/-- Whether every hop from one die to another holds a credit of a class. -/
def classClear (p : Pkg) (a b cls : Nat) : Bool := (bridgePath p a b).all (fun h => (path p (hopPath h cls)).credits != 0)

/-- R452, R453: a request of die a goes to the home on die b with room for every RSP and DATA that it can return; where the filter
names harts, their snoops and answers have room as well. -/
def requestClear (p : Pkg) (a b : Nat) (snoops : Bool) : Bool :=
  classClear p a b 0 && classClear p b a 2 && classClear p b a 3 &&
    (!snoops || (classClear p b 4 1 && classClear p 4 b 2 && classClear p 4 b 3))

/-- The line of an access is counted at the meridian and graticule bridges that it crosses. -/
def crossLine (p : Pkg) (who pa : Nat) (read : Bool) : Pkg :=
  match dieOfId who, dieOfHome pa with
  | some a, some b => carryLine p a b read
  | _, _ => p

/-! ## Snoop filters and back-invalidation (R448 to R467) -/

def DirLine.empty : DirLine := ⟨none, [], 0⟩
def dirLine (p : Pkg) (line : Nat) : DirLine := SMap.get p.home.dir line DirLine.empty
def setDir (p : Pkg) (line : Nat) (d : DirLine) : Pkg :=
  { p with home := { p.home with
      dir := if d = DirLine.empty then SMap.drop p.home.dir (fun k => k == line) else SMap.set p.home.dir line d } }

/-- A hart loses its reservation on a line (R332, R458). -/
def loseResv (p : Pkg) (h line : Nat) : Pkg :=
  if (hart p h).resv = some line then setHart p h { hart p h with resv := none } else p

/-- Harts that an entry names. -/
def DirLine.harts (d : DirLine) : List Nat := match d.owner with | some h => h :: d.sharers | none => d.sharers

/-- A snoop reaches a hart, which counts it, and the recall of a line that it owns (Table 20-7). -/
def snooped (p : Pkg) (line h : Nat) : Pkg :=
  let p1 := hartEvent p h 0x07 1
  if (dirLine p line).owner = some h then hartEvent p1 h 0x08 1 else p1

/-- SNP-Inv to every hart that a line's entry names but one: their copies and reservations go. -/
def snoopInv (p : Pkg) (line : Nat) (but : Option Nat) : Pkg :=
  let d := dirLine p line
  let gone := d.harts.filter (fun h => some h != but)
  let p1 := gone.foldl (fun q h => loseResv (snooped q line h) h line) p
  setDir p1 line { d with
    owner := if d.owner = but then d.owner else none
    sharers := d.sharers.filter (fun h => some h == but) }

/-- The back-invalidations that have been sent to the host. -/
def biSent (p : Pkg) : Nat := (p.home.bi.filter (fun x => x.2.sent)).length

/-- A request that needs the host's copy to go starts or joins a back-invalidation; beyond 256 outstanding it waits on SNP (R465,
R466). -/
def biStart (p : Pkg) (line : Nat) (inv : Bool) (req : Option HomeReq) : Pkg :=
  match p.home.bi.find? (fun x => x.1 == line) with
  | some (_, w) =>
    let w1 : BiWait := { w with inv := w.inv || (inv && !w.sent), reqs := w.reqs ++ req.toList }
    { p with home := { p.home with bi := SMap.set p.home.bi line w1 } }
  | none =>
    let go := decide (biSent p < 256)
    let w0 : BiWait := ⟨inv, go, timerNow p, req.toList⟩
    let p1 : Pkg := { p with home := { p.home with bi := SMap.set p.home.bi line w0 } }
    if go then emitMsg p1 (.biSnp (line * 64) inv) else p1

/-- The next back-invalidation that waited goes out. -/
def biNext (p : Pkg) : Pkg :=
  if 256 ≤ biSent p then p
  else match p.home.bi.find? (fun x => !x.2.sent) with
    | some (line, w) =>
      emitMsg { p with home := { p.home with bi := SMap.set p.home.bi line { w with sent := true, since := timerNow p } } }
        (.biSnp (line * 64) w.inv)
    | none => p

/-- Whether the home recalls a line from the host: later requests to it are served after that (R448). -/
def biBusy (p : Pkg) (line : Nat) : Bool := p.home.bi.any (fun x => x.1 == line)

/-! ## Trackers (R448, R449) -/

/-- The number of an address's home: an SLM slice, 256 + its L3 slice, or 272 for an address homed outside the package. -/
def homeNo (pa : Nat) : Nat :=
  match region pa with
  | .ddr _ => 256 + l3Home pa
  | _ => (homeSlice pa).getD 272

def trackerSize (home : Nat) : Nat := if home < 256 then 128 else 192

/-- The tracker entries in use: those of requests that wait for the host; a recall without one takes an entry itself. -/
def trackerUsed (p : Pkg) (home : Nat) : Nat :=
  ((p.home.bi.filter (fun x => homeNo (x.1 * 64) == home)).map (fun x => max 1 x.2.reqs.length)).foldl (· + ·) 0

def trackerRoom (p : Pkg) (home : Nat) : Bool := decide (272 ≤ home) || decide (trackerUsed p home < trackerSize home)

/-- Whether a request of a unit (Table 20-5) is admitted at an address's home: its classes have credits on the way, an entry is free,
and no recall of the line is in progress. -/
def reaches (p : Pkg) (who pa : Nat) : Bool :=
  trackerRoom p (homeNo pa) && !biBusy p (pa / 64) &&
    (match dieOfId who, dieOfHome pa with
    | some a, some b => requestClear p a b (!(dirLine p (pa / 64)).harts.isEmpty)
    | _, _ => true)

/-- What becomes of a request that a unit sends to an address's home; a write of a whole line does not wait for a replica repair
(R646). -/
def fateFor (p : Pkg) (who pa : Nat) (whole : Bool) : Fate :=
  match (if whole then fateLine p pa else fate p pa) with
  | .served => if reaches p who pa then .served else .waits
  | f => f

/-- RdCur at a home (Table 13-3): an owning hart is cleaned; a host owner gets BISnpData and the request waits; no
filter entry is made. `.2` is the package after it, `.1` whether the line was supplied. -/
def homeRead (p : Pkg) (pa cls hint : Nat) (wait : Option HomeReq) : Bool × Pkg :=
  let line := pa / 64
  if (dirLine p line).host = 2 then (false, biStart p line false wait)
  else
    match region pa with
    | .hbm s o => (true, slmRead p (64 * s + slmHash o) pa cls hint)
    | .ddr _ => (true, ddrRead p pa cls)
    | _ => (true, p)

/-- Whether a write or an atomic must wait until the host's copy of a line is gone. -/
def hostHolds (p : Pkg) (pa : Nat) : Bool := (dirLine p (pa / 64)).host != 0

/-- A line changed at its home: every hart's copy is invalidated and the memory-side cache takes the line. -/
def homeStore (p : Pkg) (pa : Nat) (stream : Bool) (who : Nat) : Pkg :=
  let p1 := snoopInv (endRepair p (pa / 64)) (pa / 64) none
  let p2 := match region pa with
    | .hbm s o => slmWrite p1 (64 * s + slmHash o) pa stream
    | .ddr _ => if p1.memc.ddrPhase = 1 then memSend p1 pa 1 true else p1
    | _ => p1
  { p2 with home := { p2.home with writer := SMap.set p2.home.writer (pa / 64) who } }

/-- A line sent to its home, and written there. -/
def homeWrite (p : Pkg) (pa : Nat) (stream : Bool) (who : Nat) : Pkg := homeStore (crossLine p who pa false) pa stream who

/-! ## Page-table entries (R455, R476) -/

inductive EntryRead where
  | waits
  | poison
  | entry (e : W64)
  deriving DecidableEq, Repr

/-- A walk reads the entry at an address by RdCur at its home, for the unit `who`; the home that must call the host's copy back, or
whose memory waits (R437), answers later. -/
def entryRead (p : Pkg) (m : Memory) (who a cls : Nat) : EntryRead × Pkg :=
  match fateFor p who a false with
  | .served =>
    match homeRead p a cls 0 none with
    | (false, q) => (.waits, q)
    | (true, q) =>
      (if m.poisoned a 8 then .poison else .entry (BitVec.ofNat 64 (m.read a 8)), crossLine q who a true)
  | .decode => (.poison, p)
  | _ => (.waits, p)

/-- The compare-and-swap at the entry's home that sets A and D; none while the host's copy of the line is called back. -/
def entryMark (p : Pkg) (m : Memory) (who a : Nat) (old new : W64) : Option Memory × Pkg :=
  if new = old then (some m, p)
  else if hostHolds p a then (none, biStart p (a / 64) true none)
  else (some (m.write a 8 new.toNat), homeWrite p a false who)

end Sys2Proof.Machine
end

