-- ==== Sys2Proof/Machine/CeOps.lean ====
section
/-! DEFINITION. What the families share of a CE's life and of a command's end: remote accesses, the L1's invalidation,
command boundaries (R200), stopping a command (R201), statuses (R302), unit losses (R303), queue manager events (R305). -/

namespace Sys2Proof.Machine

/-! ## Records of the translation unit (R486) -/

/-- A translation fault's CORRECTED record, and the sequence number it takes. `cause` is of Table 14-2. -/
def logXlate (p : Pkg) (ctx operand cause va : Nat) : Nat × Pkg :=
  ((queue p (key pgXl 0x18)).nextSeq,
    logErr p pgXl ⟨0x90, 0, 2, va, ctx % 16 + operand % 8 * 16 + cause % 16 * 256⟩)

/-- A window fault's record; `cause` is of Table 14-5. -/
def logWindow (p : Pkg) (ctx operand cause window va : Nat) : Pkg :=
  bumpReg (logErr p pgXl ⟨0x91, 0, 2, va, ctx % 16 + operand % 8 * 16 + cause % 16 * 256 + window % 1024 * 4096⟩)
    (key pgXl 0x150) 1 0xFFFFFFFF

/-! ## Remote accesses (R488, R548) -/

def thisNode (p : Pkg) : Nat := fld p (key pgRt 0x104) 13 0

/-- A request to another node takes the next TAG toward it, is kept until its answer, and waits for the router. -/
def remotePut (p : Pkg) (who : RemoteFor) (m : Msg) (window operand line ring : Nat) : Pkg :=
  let tag := SMap.get p.rt.nextTag m.dest 0
  let m1 : Msg := { m with tag := tag }
  let r : Remote := ⟨who, m1, window, operand, line, ring, timerNow p⟩
  { p with rt := { p.rt with
    acc := SMap.set p.rt.acc (2 ^ 21 * m.dest + tag) r
    nextTag := SMap.set p.rt.nextTag m.dest ((tag + 1) % 2 ^ 21)
    inject := p.rt.inject ++ [m1] } }

/-- A request message to a node's window; `sub` is the byte within the line. -/
def remoteSend (p : Pkg) (who : RemoteFor) (x : Xlate) (window operand line ring op arg cls : Nat) (poison : Bool)
    (payload : Item) (sub : Nat := 0) : Pkg :=
  remotePut p who { op := op, cls := 0, vc := 0, rdClass := cls, replayed := false, poison := poison, dest := x.node,
                    src := thisNode p, hops := 64, arg := arg, window := x.remote,
                    offset := line * 64 % 0x1000000000 + sub, tag := 0, payload := payload, recs := [] }
    window operand line ring

/-- Requests outstanding toward a node; a sender keeps at most 1,024 (R563). -/
def remoteCount (p : Pkg) (node : Nat) : Nat := (p.rt.acc.filter (fun x => x.1 / 2 ^ 21 == node)).length

def remotesOf (p : Pkg) (f : RemoteFor → Bool) : List (Nat × Remote) := p.rt.acc.filter (fun x => f x.2.who)

/-! ## Ring registers (Table 8-10) -/

def ringKey (ctx ring off : Nat) : Nat := key (pgQm + 1 + ctx) (0x140 + 48 * ring + off)
def ringCfg (ctx ring : Nat) : Nat := ringKey ctx ring 0x18
def ringStatus (ctx ring : Nat) : Nat := ringKey ctx ring 0x1C
def ringTail (p : Pkg) (ctx ring : Nat) : Nat := fld p (ringStatus ctx ring) 15 0
def ringHead (p : Pkg) (ctx ring : Nat) : Nat := fld p (ringStatus ctx ring) 31 16
def ringStopped (p : Pkg) (ctx ring : Nat) : Bool := bit p (ringCfg ctx ring) 27
def ringClass (p : Pkg) (ctx ring : Nat) : Nat := fld p (ringCfg ctx ring) 29 28

/-- R305: an event of the queue manager, with its interrupt. -/
def qmEvent (p : Pkg) (event unit : Nat) : Pkg :=
  raiseBlock (pushQueue p (key pgQm 0x108)
    [BitVec.ofNat 64 (event % 256 * 2 ^ 40 + unit % 2 ^ 14 * 2 ^ 16), BitVec.ofNat 64 (p.pace.datum % 2 ^ 62)] true) pgQm 0

/-- A ring stops, and the event says so (R278, R279, R294). -/
def stopRing (p : Pkg) (ctx ring : Nat) : Pkg :=
  if ringStopped p ctx ring then p
  else qmEvent (setBit p (ringCfg ctx ring) 27 true) 0x03 (64 * ctx + ring)

/-! ## The L1 (R347, R348, R351) -/

/-- Invalidate-all: every valid bit of the L1 and every entry of the side buffer clear; lines outstanding will not be
kept (R327). -/
def Ce.invalidateAll (c : Ce) : Ce :=
  { c with l1 := [], side := [], misses := c.misses.map (fun m => { m with keep := false }) }

def l1Status (n : Nat) : Nat := key (pgCe n) 0x188
def l1On (p : Pkg) (n : Nat) : Bool := bit p (l1Status n) 30

/-- What a command boundary does to the L1: a pending invalidate-all first, then ENABLE and POLICY, then the seed. -/
def l1Boundary (p : Pkg) (n : Nat) : Pkg :=
  let c := ce p n
  let c1 := if c.laterInv then c.invalidateAll else c
  let v := c.laterL1.getD (BitVec.ofNat 64 (bitNat c.pfOn * 4 + c.pfDepth * 32))
  let p1 := setCe p n { c1 with
    laterInv := false, laterL1 := none, laterSeed := none, pfOn := bitOf v 2, pfDepth := bitsOf v 7 5 }
  let p2 := match c.laterL1 with
    | some v => setBit (setBit p1 (l1Status n) 30 (bitOf v 0)) (l1Status n) 29 (bitOf v 1)
    | none => p1
  let p3 := match c.laterSeed with
    | some v => setFld p2 (l1Status n) 15 0 (lfsrSeed v.toNat)
    | none => p2
  setBit p3 (l1Status n) 31 false

/-! ## Command boundaries and the end of a command -/

/-- A slot at a command boundary: the shadow replaces the parameters, a superseded slot empties, ACTIVE ends, and when it did is
noted (R204). -/
def Slot.boundary (datum : Nat) (s : Slot) : Slot :=
  if s.superseded then Slot.empty
  else
    let s1 := if s.pendingShadow then { s with params := s.shadow, shadow := [], pendingShadow := false } else s
    if s1.state = 3 then { s1 with state := 2, endedAt := datum + 1 } else s1

/-- R200, R198, R351: the command boundary of a CE. -/
def ceBoundary (p : Pkg) (n : Nat) : Pkg :=
  let c := ce p n
  l1Boundary (setCe p n { c with slots := c.slots.map (fun x => (x.1, x.2.boundary p.pace.datum)) }) n

def sheetBeats (p : Pkg) (n : Nat) : Nat := SMap.get p.pace.beats (n / 256) 0

/-- A command's demand leaves its sheets (R599). -/
def dropDemand (p : Pkg) (id : Nat) : Pkg :=
  { p with pwr := { p.pwr with demands := SMap.drop p.pwr.demands (fun k => k == id) } }

/-- The CE has no command any more: RUNNING and BUSY fall, the boundary is taken. -/
def ceRelease (p : Pkg) (n : Nat) (c : Cmd) : Pkg :=
  let x := ce p n
  let p0 := match x.cmd with
    | some id => dropDemand p id
    | none => p
  let p1 := setCe p0 n { x with
    cmd := none, lastCtx := some c.ctx, movers := [], routes := [], misses := [], arrived := [], preempt := false,
    paused := false, loadOwed := false }
  let p2 := setReg (setFld (ceBoundary p1 n) (ceStatus n) 31 30 0) (key (pgCe n) 0x110) 0
  drained (setBusy p2 (pgCe n) false) (pgCe n)

/-- The waypoint SUB of a command (Table 20-2). -/
def cmdSub (c : Cmd) : Nat := 64 * c.ctx + c.ring

/-- The beats of the run just ended join BEATS (R750); CE_CNT_FEED_STALL takes those in which no array took products
(R700), a number that only the hardware's timing gives: a free value up to the run's beats. -/
def addCmdBeats (p : Pkg) (id n : Nat) : Pkg :=
  let c := cmd p id
  let b := sheetBeats p n - c.startBeat
  setCmd (nextFree (addReg p (key (pgCe n) 0x378) ((Config.freeWord p.free).toNat % (b + 1)))) id
    { c with beats := satAdd 0xFFFFFFFF c.beats b }

/-- A command has its status; its completion record is still to be written (R302). A repeated command that finishes is
DONE_REPEATED with the first lost CE. Its MOVE hold ends, its fold record is freed, and its item leaves the head
of its pending queue. A command completes once: one that has its status keeps it, and one whose record is written goes. -/
def finishCmd (p : Pkg) (id status detail : Nat) : Pkg :=
  let c := cmd p id
  if c.phase = .trailing then { p with qm := { p.qm with cmds := SMap.drop p.qm.cmds (fun k => k == id) } }
  else if hasCmd p id = true ∧ c.phase = .finished then p else
  let st := if status = 0 ∧ c.repeats ≠ 0 then 1 else status
  let dt := if status = 0 ∧ c.repeats ≠ 0 then c.firstLost else detail
  let q : QmSt := { p.qm with
    foldUsed := match c.fold with | some i => SMap.drop p.qm.foldUsed (fun k => k == i) | none => p.qm.foldUsed
    holds := p.qm.holds.filter (· != id) }
  settlePending (setCmd (dropDemand { p with qm := q } id) id { c with phase := .finished, status := st, detail := dt, fold := none })
    c.ctx c.ring 64

/-- A command on a CE ends with a status: its CMD_END waypoint, the CE free. -/
def endOnCe (p : Pkg) (n id status detail : Nat) : Pkg :=
  let c := cmd p id
  let p1 := waypoint (addReg (addCmdBeats p id n) (key (pgCe n) 0x380) 1) (pgCe n) 0x11 (cmdSub c) (status % 256)
  finishCmd (ceRelease p1 n c) id status detail

/-- R201 steps 1 to 3: stalls abandoned, accumulations discarded, uncommitted packets rewound (R106). -/
def ceStop (p : Pkg) (n : Nat) : Pkg :=
  let c := ce p n
  let p1 := { p with home := { p.home with pend := p.home.pend.filter (fun l => l.ce != n || l.going) } }
  setCe p1 n { c with
    movers := [], routes := [], misses := [], arrived := [], long := [], octets :=
      c.octets.map (fun x => (x.1, { x.2 with cells := [], latches := [], done := 0, loading := [] })) }

/-- R201: a running command is stopped and completes with a status. -/
def stopWith (p : Pkg) (n status detail : Nat) : Pkg :=
  match (ce p n).cmd with
  | some id => endOnCe (ceStop p n) n id status detail
  | none => p

/-! ## Unit losses (R303, R304) -/

/-- The command whose CE is lost: re-queued from its start where R303 allows it, else UNIT_LOST. -/
def lossHandle (p : Pkg) (id n : Nat) : Pkg :=
  let c := cmd p id
  if c.phase = .finished ∨ c.phase = .trailing then finishCmd p id 0 0
  else if dRepeatable c.desc && !dInPlace c.desc && !(dPlace c.desc / 16384 % 4 == 3) && decide (c.losses < 3) then
    let q : QmSt := { p.qm with
      foldUsed := match c.fold with | some i => SMap.drop p.qm.foldUsed (fun k => k == i) | none => p.qm.foldUsed }
    setCmd { p with qm := q } id { c with
      phase := .waiting, requeued := true, fold := none, progress := 0, ces := [], losses := c.losses + 1,
      repeats := satAdd 255 c.repeats 1, firstLost := if c.losses = 0 then n else c.firstLost }
  else finishCmd (setCmd p id { c with losses := c.losses + 1 }) id 0x11 n

/-- A command's run ends with the loss of its CE: packets rewound, the CE free, the command handled. -/
def loseOnCe (p : Pkg) (n : Nat) : Pkg :=
  match (ce p n).cmd with
  | some id =>
    let c := cmd p id
    let p1 := waypoint (addReg (addCmdBeats (ceStop p n) id n) (key (pgCe n) 0x380) 1) (pgCe n) 0x11 (cmdSub c) 0x11
    lossHandle (ceRelease p1 n c) id n
  | none => p

/-- The ABORT waypoint of a CE (Table 20-2): 0 CE_ABORT, 1 internal abort, 2 safe hold. -/
def abortPoint (p : Pkg) (n how : Nat) : Pkg :=
  match (ce p n).cmd with
  | some id => waypoint p (pgCe n) 0x14 (cmdSub (cmd p id)) how
  | none => p

/-- R202: the internal abort. -/
def internalAbort (p : Pkg) (n : Nat) : Pkg := loseOnCe (abortPoint p n 1) n

end Sys2Proof.Machine
end

