-- ==== Sys2Proof/Machine/Movers.lean ====
section
/-! DEFINITION. Scratch units and their address generators, the movers and the L1 (spec/05 R177 to R183, spec/09,
spec/10 R341 to R361). One command moves as many words or lines as the routes, the items and the memory allow; the
descriptor's place is kept, and the next command for the unit goes on from there. -/

namespace Sys2Proof.Machine

/-- Repeats a step while it says so, at most `n` times. -/
def iterate (f : Pkg → Bool × Pkg) (n : Nat) (p : Pkg) : Pkg :=
  match n with
  | 0 => p
  | n + 1 => if (f p).1 then iterate f n (f p).2 else (f p).2

/-- The four indices of a position in a descriptor's visit, dimension 0 innermost (R178). -/
def indices (counts : List Nat) (pos : Nat) : List Nat :=
  match counts with
  | [] => []
  | c :: t => pos % max c 1 :: indices t (pos / max c 1)

def dotStride (idx : List Nat) (strides : List Int) : Int :=
  match idx, strides with
  | i :: t, s :: u => (i : Int) * s + dotStride t u
  | _, _ => 0

def total (counts : List Nat) : Nat := counts.foldl (fun a c => a * max c 1) 1

/-! ## Address generators (R177 to R179) -/

/-- The word a descriptor visits at a position. -/
def agWord (d : AgArgs) (pos : Nat) : Nat :=
  ((d.base : Int) + dotStride (indices d.counts pos) d.strides).emod 1024 |>.toNat

def suKey (su word : Nat) : Nat := 1024 * su + word

/-- The key of a generator's progress: offers or words done, and the word held for its second offer. -/
def agKey (d : AgArgs) : Nat := 2 * d.su + bitNat d.isWrite

/-- The descriptor that four code words spell (Table 5-2). -/
def agOf (n su : Nat) (isWrite : Bool) (x : Nat) : AgArgs :=
  { ce := n, su := su, isWrite := isWrite, base := x / 2 ^ 16 % 1024, hold := x.testBit 0,
    counts := (List.range 4).map (fun j => x / 2 ^ (32 + 24 * j) % 4096 + 1),
    strides := (List.range 4).map (fun j => (BitVec.ofNat 12 (x / 2 ^ (44 + 24 * j))).toInt) }

/-- Whether the descriptor at a generator's place is this one (R179). -/
def atAg (p : Pkg) (d : AgArgs) : Bool :=
  agOf d.ce d.su d.isWrite (wordsHere p d.ce (if d.isWrite then 4 else 3) d.su 4) == d

/-- One offer of a read generator: the word at its position, twice in a row under HOLD, with the word read at the first
of the two; or one word taken by a write generator. -/
def agOne (d : AgArgs) (p : Pkg) : Bool × Pkg :=
  let n := d.ce
  let c := ce p n
  let typ := if d.isWrite then 4 else 3
  if ceLive p n && decide (d.su < 12) && unitMay p n typ d.su && atAg p d then
    let (pos, held) := SMap.get c.ag (agKey d) (0, 0)
    let per := if d.hold && !d.isWrite then 2 else 1
    let w := agWord d (pos / per)
    let last := decide (per * total d.counts ≤ pos + 1)
    let next := if last then 0 else pos + 1
    let done (c' : Ce) : Ce := if last then advanceUnit p n typ d.su 4 c' else c'
    if d.isWrite then
      match takeItem c (0x10 + d.su) with
      | none => (false, p)
      | some (x, c1) =>
        (!last, setCe p n (done { c1 with
          su := SMap.set c1.su (suKey d.su w) x, ag := SMap.set c1.ag (agKey d) (next, 0) }))
    else if hasCredit (ceChart p n) c d.su then
      let x := if per = 2 ∧ pos % 2 = 1 then held else SMap.get c.su (suKey d.su w) 0
      let c1 := offer (ceChart p n) c d.su x
      (!last, setCe p n (done { c1 with ag := SMap.set c1.ag (agKey d) (next, x) }))
    else (false, p)
  else (false, p)

def execAgDescriptor (d : AgArgs) (s : State) : Out := .next (s.onPkg (iterate (agOne d) 64))

/-! ## The L1 and the side buffer (R341 to R361) -/

def l1Find (c : Ce) (line : Nat) : Option (Nat × CLine) := c.l1.find? (fun x => x.2.line == line)
def sideFind (c : Ce) (line : Nat) : Option CLine := c.side.find? (fun x => x.line == line)

def l1Ways (c : Ce) (set : Nat) : List Way :=
  (List.range 8).map (fun w =>
    match c.l1.find? (fun x => x.1 == 8 * set + w) with
    | some (_, l) => ⟨w, some l.age, true⟩
    | none => ⟨w, none, true⟩)

/-- A line fills the L1 (R358 to R361): a streaming fill enters at age 3. -/
def l1Fill (p : Pkg) (n line hint : Nat) (data : Item) (poison : Bool) : Pkg :=
  let c := ce p n
  let set := line % 128
  match victim (l1Ways c set) (bit p (l1Status n) 29) (fld p (l1Status n) 15 0) with
  | none => p
  | some v =>
    let aged := c.l1.map (fun x => if x.1 / 8 = set then (x.1, { x.2 with age := x.2.age + v.aged }) else x)
    let l : CLine := ⟨line, data, poison, if hint = 2 then 3 else 0⟩
    setFld (setCe p n { c with l1 := SMap.set aged (8 * set + v.way) l }) (l1Status n) 15 0 v.lfsr

/-- A store's line leaves the L1 and the side buffer while the L1 is in use (R345, R349). -/
def l1Drop (p : Pkg) (n line : Nat) : Pkg :=
  if l1On p n then
    setCe p n { ce p n with
      l1 := List.filter (fun x => x.2.line != line) (ce p n).l1
      side := (ce p n).side.filter (fun l => l.line != line) }
  else p

/-- The distinct lines outstanding. -/
def missLines (c : Ce) : List Nat := (c.misses.map (·.line)).eraseDups

/-- The tag of a line request that is sent now: a number for a read of host memory (R524), else 0. -/
def readTag (p : Pkg) (line : Nat) : Nat × Pkg :=
  match region (line * 64) with
  | .host _ => (p.hl.lastRead + 1, setHl p { p.hl with lastRead := p.hl.lastRead + 1 })
  | _ => (0, p)

/-- A prefetch of a line (R353): dropped where the line is present or outstanding, while the L1 or PREFETCH_EN is off,
without a miss slot, or where no memory serves it. -/
def prefetchLine (p : Pkg) (n mu line hint cls ctx : Nat) : Pkg :=
  let c := ce p n
  if l1On p n && c.pfOn && (l1Find c line).isNone && (sideFind c line).isNone &&
      !(c.misses.any (fun m => m.line == line)) && decide ((missLines c).length < 64) &&
      (fate p (line * 64) == .served || fate p (line * 64) == .waits) then
    let t := readTag p line
    setCe t.2 n { c with misses := c.misses ++ [⟨mu, line, true, true, hint, cls, ctx, t.1⟩] }
  else p

/-- A request for a line that a mover's load needs, made once however many wait for the line (R343, R344): none while every miss
slot is taken, or while the destination node has 1,024 requests (R563). `keep` says that the L1 may take the line (R476). -/
def muRequest (p : Pkg) (n mu : Nat) (c : Cmd) (x : Xlate) (operand va : Nat) (keep : Bool) : Pkg :=
  let e := ce p n
  let line := x.addr va / 64
  let add (q : Pkg) (tag : Nat) : Pkg :=
    let e' := ce q n
    setCe q n { e' with misses := e'.misses ++ [⟨mu, line, false, keep, (dOperand c.desc operand).slm, dPrio c.desc, c.ctx, tag⟩] }
  match e.misses.find? (fun m => m.line == line) with
  | some m => add p m.tag
  | none =>
    if 64 ≤ (missLines e).length then p
    else match fate p (x.addr va) with
      | .remote =>
        if 1024 ≤ remoteCount p x.node then p
        else
          let tag := 2 ^ 21 * x.node + SMap.get p.rt.nextTag x.node 0 + 1
          remoteSend (addReg (add p tag) (key (pgCe n) 0x198) 1) (.moverLoad n) x (x.addr va / 0x1000000000 % 1024) operand line
            (64 * c.ctx + c.ring) 0x01 0 (dPrio c.desc) false 0
      | _ => addReg (add (readTag p line).2 (readTag p line).1) (key (pgCe n) 0x198) 1

/-- Whether a mover's load has a request for a line outstanding. -/
def muAwaits (e : Ce) (mu line : Nat) : Bool := e.misses.any (fun m => m.line == line && m.mu == mu && !m.pf)

/-- A load's line, or none while it must wait: a line that has returned for it; an L1 or side buffer hit; otherwise a
request (R349, R354, R357, R476). A decode error returns poison (R38). -/
def muGet (p : Pkg) (n mu : Nat) (c : Cmd) (x : Xlate) (operand va : Nat) : Option (Item × Bool) × Pkg :=
  let e := ce p n
  let pa := x.addr va
  let line := pa / 64
  let hit (q : Pkg) : Pkg := addReg q (key (pgCe n) 0x190) 1
  match e.arrived.find? (fun a => a.1 == mu && a.2.line == line) with
  | some a => (some (a.2.data, a.2.poison), setCe p n { e with arrived := e.arrived.erase a })
  | none =>
    if muAwaits e mu line then (none, p)
    else
      match fate p pa with
      | .remote => (none, muRequest p n mu c x operand va false)
      | .decode => (some (0, true), decodeError p (pgCe n) pa)
      | _ =>
        if l1On p n && !x.nc then
          match l1Find e line with
          | some (k, l) => (some (l.data, l.poison), hit (setCe p n { e with l1 := SMap.set e.l1 k { l with age := 0 } }))
          | none =>
            match sideFind e line with
            | some l =>
              let p1 := hit (addReg (setCe p n { e with side := e.side.filter (fun y => y.line != line) })
                (key (pgCe n) 0x1A0) 1)
              (some (l.data, l.poison), l1Fill p1 n line (dOperand c.desc operand).slm l.data l.poison)
            | none => (none, muRequest p n mu c x operand va true)
        else (none, muRequest p n mu c x operand va false)

/-! ## Movers (R180 to R183) -/

/-- The effective address of a mover descriptor at a position (R180). -/
def muVa (c : Cmd) (d : MuArgs) (pos : Nat) : Int :=
  ((dOperand c.desc d.operand).addr : Int) + d.offset + dotStride (indices d.counts pos) d.strides

/-- Whether a line of an operand lies inside its extent. -/
def inExtent (c : Cmd) (operand : Nat) (va : Int) : Bool :=
  let o := dOperand c.desc operand
  decide ((o.addr : Int) ≤ va) && decide (va + 64 ≤ (o.addr : Int) + o.extent)

/-- The command of a CE ends XLATE_FAULT, with the translation unit's record (R180, R486). -/
def muFault (p : Pkg) (n operand cause va : Nat) : Pkg :=
  let (seq, p1) := logXlate p (ceCmd p n).ctx operand cause va
  stopWith p1 n 0x20 (operand + seq * 65536)

/-- The descriptor that eight code words spell (Table 5-3). -/
def muOf (n mu x : Nat) : MuArgs :=
  { ce := n, mu := mu, operand := x / 2 ^ 8 % 256, flags := x / 2 ^ 16 % 256, offset := x / 2 ^ 32 % 2 ^ 32,
    counts := (List.range 4).map (fun j => x / 2 ^ (64 + 16 * j) % 65536),
    strides := (List.range 4).map (fun j => (BitVec.ofNat 32 (x / 2 ^ (128 + 32 * j))).toInt) }

/-- Whether the descriptor at a mover's place is this one, with this OP. -/
def atMu (p : Pkg) (op : Nat) (d : MuArgs) : Bool :=
  let x := wordsHere p d.ce 5 d.mu 8
  x % 256 == op && muOf d.ce d.mu x == d

def muMay (p : Pkg) (op : Nat) (d : MuArgs) : Bool :=
  ceLive p d.ce && decide (d.mu < 4) && decide (d.operand < 6) && unitMay p d.ce 5 d.mu && atMu p op d

/-- The mover's place after one line: the next position, or the end of the descriptor and the unit's next. The lines read of a
group of four records go with the group's last line. -/
def muAdvance (p : Pkg) (d : MuArgs) (c : Ce) : Bool × Ce :=
  let m := mover c d.mu
  let raw := if (m.pos + 1) % 5 = 0 then [] else m.raw
  if m.pos + 1 < total d.counts then
    (true, { c with movers := SMap.set c.movers d.mu { m with pos := m.pos + 1, raw := raw } })
  else (false, advanceUnit p d.ce 5 d.mu 8 { c with movers := SMap.set c.movers d.mu { m with pos := 0, raw := [] } })

/-- The lines that the sequential prefetcher asks for after a load at a position (R355). -/
def prefetchRun (p : Pkg) (d : MuArgs) (c : Cmd) (pos k : Nat) : Pkg :=
  match k with
  | 0 => p
  | k + 1 =>
    let q := prefetchRun p d c pos k
    let i0 := pos % max (d.counts.getD 0 1) 1
    let va := muVa c d pos + 64 * (k + 1)
    if d.strides.getD 0 0 = 64 ∧ i0 + k + 1 < d.counts.getD 0 1 ∧ inExtent c d.operand va = true then
      match cmdXlate c d.operand va.toNat with
      | some x => if x.nc then q
                  else prefetchLine q d.ce d.mu (x.addr va.toNat / 64) (dOperand c.desc d.operand).slm (dPrio c.desc) c.ctx
      | none => q
    else q

/-- The mover asks for the lines of its descriptor from position k on that are neither present nor asked for, while miss slots
are free: its accesses to different lines are performed in any order (R319; how far it runs ahead is a DESIGN CHOICE, log entry
86). -/
def readAhead (d : MuArgs) (c : Cmd) (k fuel : Nat) (p : Pkg) : Pkg :=
  match fuel with
  | 0 => p
  | f + 1 =>
    let e := ce p d.ce
    let va := muVa c d k
    if total d.counts ≤ k ∨ 64 ≤ (missLines e).length ∨ inExtent c d.operand va = false then p
    else match cmdXlate c d.operand va.toNat with
      | none => p
      | some x =>
        let line := x.addr va.toNat / 64
        let here := e.arrived.any (fun a => a.1 == d.mu && a.2.line == line) || muAwaits e d.mu line ||
          (l1Find e line).isSome || (sideFind e line).isSome
        let far := fate p (x.addr va.toNat)
        readAhead d c (k + 1) f (if here || far == .decode then p
          else muRequest p d.ce d.mu c x d.operand va.toNat (l1On p d.ce && !x.nc && far != .remote))

/-- The line at position k of a load descriptor, or none: it is awaited, or the command has stopped. -/
def readItem (d : MuArgs) (k : Nat) (p : Pkg) : Option Item × Pkg :=
  let n := d.ce
  let c := ceCmd p n
  let va := muVa c d k
  if inExtent c d.operand va then
    match cmdXlate c d.operand va.toNat with
    | none => (none, p)
    | some x =>
      match muGet p n d.mu c x d.operand va.toNat with
      | (none, q) => (none, readAhead d c (k + 1) 63 q)
      | (some (item, poison), q) =>
        if poison then (none, stopWith q n 0x10 d.operand)
        else (some item, prefetchRun (addReg q (key (pgCe n) 0x350) 1) d c k (ce q n).pfDepth)
  else (none, muFault p n d.operand 9 va.toNat)

/-- The mover offers an item and goes on to its next line. -/
def offerLine (d : MuArgs) (item : Item) (p : Pkg) : Bool × Pkg :=
  let (more, e) := muAdvance p d (offer (ceChart p d.ce) (ce p d.ce) (0x50 + d.mu) item)
  (more, setCe p d.ce e)

/-- One line of a LOAD. -/
def loadOne (d : MuArgs) (p : Pkg) : Bool × Pkg :=
  if muMay p 1 d && hasCredit (ceChart p d.ce) (ce p d.ce) (0x50 + d.mu) then
    match readItem d (mover (ce p d.ce) d.mu).pos p with
    | (some item, q) => offerLine d item q
    | (none, q) => (false, q)
  else (false, p)

def execLoad (d : MuArgs) (s : State) : Out := .next (s.onPkg (iterate (loadOne d) 64))

/-- Lines of 80-byte records back to back from their first bit on: each whole record as it is read in (R268). -/
def canonLines (l : List Item) : List Item :=
  let x := l.foldr (fun i acc => i.toNat + 2 ^ 512 * acc) 0
  let n := 512 * l.length / 640
  let y := (List.range n).foldr (fun j acc => (canonRec (BitVec.ofNat 640 (x / 2 ^ (640 * j)))).toNat + 2 ^ 640 * acc)
    (x / 2 ^ (640 * n))
  (List.range l.length).map (fun j => BitVec.ofNat 512 (if n = 0 then x / 2 ^ (512 * j) else y / 2 ^ (512 * j)))

/-- One line of a LOAD_EXACT: the lines of a descriptor hold full records back to back from its first line on, and are taken five
at a time, four records, each read in as R268 gives; a read, or an offer once the group is whole (log entry 87). -/
def loadExactOne (d : MuArgs) (p : Pkg) : Bool × Pkg :=
  let m := mover (ce p d.ce) d.mu
  let first := m.pos / 5 * 5
  let size := min 5 (total d.counts - first)
  if muMay p 3 d then
    if m.raw.length < size then
      match readItem d (first + m.raw.length) p with
      | (some item, q) =>
        let e := ce q d.ce
        (true, setCe q d.ce { e with movers := SMap.set e.movers d.mu { mover e d.mu with raw := (mover e d.mu).raw ++ [item] } })
      | (none, q) => (false, q)
    else if hasCredit (ceChart p d.ce) (ce p d.ce) (0x50 + d.mu) then
      offerLine d ((canonLines m.raw).getD (m.pos - first) 0) p
    else (false, p)
  else (false, p)

def execLoadExact (d : MuArgs) (s : State) : Out := .next (s.onPkg (iterate (loadExactOne d) 128))

/-- The lines of a packet of a store descriptor (R183). -/
def packetLines (d : MuArgs) : Nat := total (d.counts.take (d.flags % 4 + 1))

/-- A line joins an open packet; a later store to a line of the packet takes the earlier one's place (R320). -/
def packetAdd (pk : List PLine) (l : PLine) : List PLine := pk.filter (fun x => x.pa != l.pa) ++ [l]

/-- One line of a STORE or STORE_EXACT: taken from the store port into the mover's open packet, which closes with the
runs of PKT_DIM; the L1's copy goes (R345). A store through a page not translated for writing faults. -/
def storeOne (op : Nat) (d : MuArgs) (p : Pkg) : Bool × Pkg :=
  let n := d.ce
  let c := ceCmd p n
  let pos := (mover (ce p n) d.mu).pos
  if muMay p op d then
    match takeItem (ce p n) (0x54 + d.mu) with
    | none => (false, p)
    | some (item, e) =>
      let va := muVa c d pos
      if inExtent c d.operand va then
        match cmdXlate c d.operand va.toNat with
        | none => (false, p)
        | some x =>
          if x.writable then
            let pa := x.addr va.toNat
            let l : PLine := ⟨pa, item, false, (dOperand c.desc d.operand).slm == 2, n, d.mu, false, false⟩
            let m := mover e d.mu
            let open' := packetAdd m.packet l
            let m1 : Mover := if (pos + 1) % packetLines d = 0 then { m with packet := [], closed := m.closed ++ [open'] }
              else { m with packet := open' }
            let (more, e1) := muAdvance p d { e with movers := SMap.set e.movers d.mu m1 }
            (more, l1Drop (setCe p n e1) n (pa / 64))
          else (false, muFault p n d.operand 2 va.toNat)
      else (false, muFault p n d.operand 9 va.toNat)
  else (false, p)

def execStore (d : MuArgs) (s : State) : Out := .next (s.onPkg (iterate (storeOne 2 d) 64))
def execStoreExact (d : MuArgs) (s : State) : Out := .next (s.onPkg (iterate (storeOne 4 d) 64))

/-- A NOP descriptor: the unit's next descriptor. -/
def doMuNop (d : MuArgs) (p : Pkg) : Pkg :=
  if muMay p 0 d then setCe p d.ce (advanceUnit p d.ce 5 d.mu 8 (ce p d.ce)) else p

def execMuNop (d : MuArgs) (s : State) : Out := .next (s.onPkg (doMuNop d))

/-- One line of a PREFETCH descriptor; a full set of miss slots makes it wait. -/
def prefetchOne (d : MuArgs) (p : Pkg) : Bool × Pkg :=
  let n := d.ce
  let c := ceCmd p n
  let pos := (mover (ce p n) d.mu).pos
  if muMay p 5 d then
    let on := l1On p n && (ce p n).pfOn
    if on && decide (64 ≤ (missLines (ce p n)).length) then (false, p)
    else
      let va := muVa c d pos
      if on && !inExtent c d.operand va then (false, muFault p n d.operand 9 va.toNat)
      else
        let q := match cmdXlate c d.operand va.toNat with
          | some x =>
            if x.nc then p
            else prefetchLine p n d.mu (x.addr va.toNat / 64) (dOperand c.desc d.operand).slm (dPrio c.desc) c.ctx
          | none => p
        let (more, e) := muAdvance q d (ce q n)
        (more, setCe q n e)
  else (false, p)

def execPrefetch (d : MuArgs) (s : State) : Out := .next (s.onPkg (iterate (prefetchOne d) 64))

/-! ## Lines that return (R327, R356, R357) -/

/-- Puts a prefetched line into the side buffer; a full one replaces the line held longest. -/
def sideFill (p : Pkg) (n line : Nat) (data : Item) (poison : Bool) : Pkg :=
  let c := ce p n
  let l : CLine := ⟨line, data, poison, 0⟩
  if (l1Find c line).isSome ∨ (sideFind c line).isSome then p
  else if c.side.length < 16 then setCe p n { c with side := c.side ++ [l] }
  else addReg (setCe p n { c with side := c.side.tail ++ [l] }) (key (pgCe n) 0x1A8) 1

/-- A line reaches a CE for the requests with a tag: delivered to every load that waits for it; kept in the L1 if a load asked and no
invalidate-all intervened; a line asked for by a prefetch alone goes to the side buffer, or is discarded and counted. -/
def deliverLine (p : Pkg) (n line tag : Nat) (data : Item) (poison : Bool) : Pkg :=
  let c := ce p n
  let ms := c.misses.filter (fun m => m.line == line && m.tag == tag)
  let loads := ms.filter (fun m => !m.pf)
  let l : CLine := ⟨line, data, poison, 0⟩
  let p1 := setCe p n { c with
    misses := c.misses.filter (fun m => !(m.line == line && m.tag == tag))
    arrived := c.arrived ++ loads.map (fun m => (m.mu, l)) }
  match ms with
  | [] => p
  | m :: _ =>
    if loads.isEmpty then
      if m.keep && l1On p n then sideFill p1 n line data poison else addReg p1 (key (pgCe n) 0x1A8) 1
    else if ms.all (·.keep) && l1On p n then l1Fill p1 n line m.hint data poison
    else p1

/-- R327: the home supplies the line of an outstanding request (RdCur, R455), or the host does, counted (R407); a home
that must recall the host's copy, or whose memory waits, answers later; with LEGACY_ORDER reads of host memory are answered in the
order of their issue (R524). Lines of a remote window return by RDATA. -/
def doLineReturn (n line : Nat) (m : Memory) (p : Pkg) : Pkg :=
  match (ce p n).misses.find? (fun x => x.line == line) with
  | none => p
  | some x =>
    if ceOk n && fateFor p (idCe n) (line * 64) false == .served && (x.tag == 0 || readsOlder p x.tag == false) then
      let p1 := match region (line * 64) with
        | .host h => countAccess p 8 h false x.ctx
        | _ => p
      match homeRead p1 (line * 64) x.cls x.hint none with
      | (false, q) => q
      | (true, q) => deliverLine (crossLine q (idCe n) (line * 64) true) n line x.tag (m.line (line * 64)) (m.poisoned (line * 64) 64)
    else p

def execLineReturn (n line : Nat) (s : State) : Out := .next (s.onPkg (doLineReturn n line s.mem))

/-! ## Output packets (R108, R109, R313, R321) -/

/-- Every output packet of a CE has committed. -/
def packetsDone (p : Pkg) (n : Nat) : Bool :=
  (ce p n).movers.all (fun x => x.2.packet.isEmpty && x.2.closed.isEmpty) &&
    !(p.home.pend.any (fun l => l.ce == n)) &&
    !(p.rt.acc.any (fun x => match x.2.who with | .moverStore n' _ => n' == n | _ => false))

def muPending (p : Pkg) (n mu : Nat) : List PLine := p.home.pend.filter (fun l => l.ce == n && l.mu == mu)

/-- A home holds a line pending and acknowledges it. -/
def holdLine (p : Pkg) (l : PLine) : Pkg :=
  emitMsg { p with home := { p.home with pend := p.home.pend ++ [l] } } (.lineAck l.ce l.mu l.pa)

/-- The lines of the pending buffer of the slice that homes an address (SLM_PENDING). -/
def pendingAt (p : Pkg) (sl : Nat) : Nat := (p.home.pend.filter (fun l => homeSlice l.pa == some sl)).length

/-- A line whose packet has committed and that waits at a home: at the slice `home`, or at no memory. -/
def waitsAt (home : Nat) (l : PLine) : Bool :=
  l.going && !isHostLine l && (homeSlice l.pa == some home || homeSlice l.pa == none)

/-- The lines of a mover that a COMMIT writes at a home. -/
def toCommit (p : Pkg) (n mu home : Nat) : List PLine := (muPending p n mu).filter (waitsAt home)

/-- Whether a COMMIT can be served at once: no line that the host still holds (R337, R465), no memory that waits. -/
def commitReady (p : Pkg) (n mu home : Nat) : Bool :=
  (toCommit p n mu home).all (fun l => !hostHolds p l.pa && fateFor p (idCe n) l.pa true != .waits)

/-- Lines written to memory at a commit; a line without memory behind it is discarded. -/
def commitMem (p : Pkg) (ls : List PLine) (m : Memory) : Memory :=
  ls.foldl (fun m l => if fateLine p l.pa = .served then m.storeLine l.pa l.data l.poison else m) m

/-- R455: at COMMIT every hart named is invalidated, the host's copies are called back first, and the lines become
visible. -/
def commitPkg (p : Pkg) (n mu home : Nat) : Pkg :=
  let ls := toCommit p n mu home
  if commitReady p n mu home then
    let p1 := ls.foldl (fun q l =>
      if fateLine q l.pa = .served then homeWrite q l.pa l.stream (idCe n) else decodeError q (pgCe n) l.pa) p
    addReg { p1 with home := { p1.home with
        pend := p1.home.pend.filter (fun l => !(l.ce == n && l.mu == mu && waitsAt home l)) } }
      (key (pgCe n) 0x358) ls.length
  else ls.foldl (fun q l => if hostHolds q l.pa then biStart q (l.pa / 64) true none else q) p

/-- What COMMIT does (R317): the commit of a mover's packet reaches one home, whose lines are written, or wait. -/
def commitState (n mu home : Nat) (s : State) : State :=
  if commitReady s.pkg n mu home then
    { s with mem := commitMem s.pkg (toCommit s.pkg n mu home) s.mem, pkg := commitPkg s.pkg n mu home }
  else s.onPkg (fun p => commitPkg p n mu home)

/-- The translation of a command that a line was stored through. -/
def lineXlate (c : Cmd) (pa : Nat) : Option (Nat × Xlate) :=
  c.pages.find? (fun x => x.2.pa ≤ pa / 4096 && pa / 4096 < x.2.pa + x.2.pages)

/-- A line of a packet is held pending where it is received (R108): its home or the host link, which acknowledge it, or the window's
sending side (log entry 88). -/
def sendLine (p : Pkg) (c : Cmd) (l : PLine) : Pkg :=
  match region l.pa with
  | .window _ _ => { p with home := { p.home with pend := p.home.pend ++ [l] } }
  | .host h => holdLine (countAccess p 8 h true c.ctx) { l with owned := true }
  | _ => holdLine p l

/-- Whether the requests of a packet find room toward their nodes (R563). -/
def packetFits (p : Pkg) (c : Cmd) (pk : List PLine) : Bool :=
  pk.all (fun l =>
    match region l.pa, lineXlate c l.pa with
    | .window _ _, some x => decide (remoteCount p x.2.node + pk.length ≤ 1024)
    | _, _ => true)

/-- The mover's oldest closed packet goes out to its receiving blocks; its predecessor must have been acknowledged everywhere
(R321), none of its lines meets back-pressure on its way (R65, R451), and the device cache has room for its host lines (R462). -/
def sendPacket (n mu : Nat) (p : Pkg) : Pkg :=
  let c := ce p n
  let m := mover c mu
  match m.closed with
  | [] => p
  | pk :: rest =>
    if (muPending p n mu).isEmpty && (remotesOf p (fun r => r == .moverStore n mu)).isEmpty &&
        pk.all (fun l => fateFor p (idCe n) l.pa true != .waits) && hostRoom p pk then
      devHold (pk.foldl (fun q l => sendLine q (ceCmd p n) l)
        (setCe p n { c with movers := SMap.set c.movers mu { m with closed := rest } })) []
    else p

/-- Whether the receiving blocks have acknowledged every line of a mover's packet: the host link holds its lines exclusive, or whole
in link mode 1 (R462, R501). -/
def packetHeld (p : Pkg) (n mu : Nat) : Bool :=
  let ls := muPending p n mu
  !ls.isEmpty && ls.all (fun l => !l.going && (!isHostLine l || l.owned || fld p (key pgHl 0x100) 31 30 == 1)) &&
    packetFits p (ceCmd p n) ls

/-- A committed line behind a window goes to its node. -/
def sendWindow (p : Pkg) (c : Cmd) (l : PLine) : Pkg :=
  match region l.pa, lineXlate c l.pa with
  | .window w _, some x =>
    addReg (remoteSend p (.moverStore l.ce l.mu) x.2 w x.1 (l.pa / 64) (64 * c.ctx + c.ring) 0x02 0 (dPrio c.desc) l.poison l.data)
      (key (pgCe l.ce) 0x358) 1
  | _, _ => p

def isWindowLine (l : PLine) : Bool := match region l.pa with | .window _ _ => true | _ => false

/-- The packet commits: no loss rewinds it any more, its lines wait for the commit to reach their homes and the host link, and its
window lines are sent. -/
def commitPacket (n mu : Nat) (p : Pkg) : Pkg :=
  if packetHeld p n mu then
    let mine (l : PLine) : Bool := l.ce == n && l.mu == mu
    let rest := (p.home.pend.filter (fun l => !(mine l && isWindowLine l))).map (fun l =>
      if mine l then { l with going := true } else l)
    ((muPending p n mu).filter isWindowLine).foldl (fun q l => sendWindow q (ceCmd p n) l)
      { p with home := { p.home with pend := rest } }
  else p

/-- R109: a packet goes to its receiving blocks, which hold and acknowledge its lines, and commits when all of them have; its lines
become readable home by home at COMMIT, in host memory at HOST_PACKET_COMMIT, behind a window as their writes land. -/
def execOutputPacketCommit (n mu : Nat) (s : State) : Out :=
  .next (s.onPkg (fun p => commitPacket n mu (sendPacket n mu p)))

/-- The home holds an output-packet line pending and acknowledges it; a slice whose buffer of 256 is full makes it wait, and a packet
has at most 1,024 lines (R108). -/
def doWrLine (n mu pa : Nat) (data : Item) (poison : Bool) (p : Pkg) : Pkg :=
  let room := match homeSlice pa with
    | some sl => decide (pendingAt p sl < 256)
    | none => true
  if ceOk n && decide (mu < 4) && room && decide ((muPending p n mu).length < 1024) && fateFor p (idCe n) pa true == .served then
    holdLine p ⟨pa / 64 * 64, data, poison, false, n, mu, isHostLine ⟨pa, 0, false, false, n, mu, false, false⟩, false⟩
  else p

def execWrLine (n mu pa : Nat) (data : Item) (poison : Bool) (s : State) : Out :=
  .next (s.onPkg (doWrLine n mu pa data poison))

def execCommit (n : Nat) (dest : CommitAt) (s : State) : Out := .next (commitState n dest.mu dest.home s)

/-! ### Host memory (R462, R501) -/

def hostLines (p : Pkg) (n mu : Nat) : List PLine := (muPending p n mu).filter isHostLine

/-- The packet has committed and every line of it is held exclusive at once; in link mode 1 the packet is held whole in the host link. -/
def hostReady (p : Pkg) (n mu : Nat) : Bool :=
  hostReached p && (hostLines p n mu).all (·.going) && ((hostLines p n mu).all (·.owned) || fld p (key pgHl 0x100) 31 30 == 1)

/-- The packet's host lines have become modified; or the lines lost to the host are requested again. -/
def doHostPacketCommit (n mu : Nat) (p : Pkg) : Pkg :=
  let ls := hostLines p n mu
  if hostReady p n mu then
    let mine := ls.map (fun (l : PLine) => l.pa / 64)
    let rest := p.home.pend.filter (fun (l : PLine) => !(l.ce == n && l.mu == mu && isHostLine l))
    let by' := mine.foldl (fun (w : SMap Nat) (l : Nat) => SMap.set w l (idCe n)) p.home.writer
    let q : Pkg := { p with home := { p.home with pend := rest, writer := by' } }
    addReg (if fld p (key pgHl 0x100) 31 30 = 1 then q else devHold q mine) (key (pgCe n) 0x358) ls.length
  else if hostReached p then
    { p with home := { p.home with
        pend := p.home.pend.map (fun (l : PLine) => if l.ce = n ∧ l.mu = mu ∧ isHostLine l then { l with owned := true } else l) } }
  else p

/-- R462 step 3: all lines of the packet take their new values in one instant. -/
def execHostPacketCommit (n mu : Nat) (s : State) : Out :=
  if hostReady s.pkg n mu then
    .next { s with mem := (hostLines s.pkg n mu).foldl (fun (m : Memory) (l : PLine) => m.storeLine l.pa l.data l.poison) s.mem
                   pkg := doHostPacketCommit n mu s.pkg }
  else .next (s.onPkg (doHostPacketCommit n mu))

/-! ## Writes of the L1 registers (R351, R352) -/

/-- CE_L1_CONTROL: PF_DEPTH 5 to 7 discards the write; the write takes effect at the next command boundary, at once
while no command runs. -/
def putL1Control (n : Nat) (value : W64) (p : Pkg) : Pkg :=
  let k := key (pgCe n) 0x180
  if 4 < bitsOf value 7 5 then p
  else
    let v := mergeWrite (rw4 0x180 (msk 7 5 + msk 2 0)) (reg p k) value
    let c := ce p n
    let p1 := setReg p k v
    let p2 := setCe p1 n { c with laterL1 := some v, laterInv := c.laterInv || bitOf value 3 }
    let p3 := if bitOf value 3 then setBit p2 (l1Status n) 31 true else p2
    if c.cmd.isNone then l1Boundary p3 n else p3

def doL1Invalidate (rq : Requester) (n : Nat) (value : W32) (p : Pkg) : Pkg :=
  if ceOk n then ifWrites p rq (pgCe n) 0x180 (putL1Control n (value.setWidth 64)) else p

def execL1Invalidate (rq : Requester) (n : Nat) (value : W32) (s : State) : Out :=
  .next (s.onPkg (doL1Invalidate rq n value))

/-- CE_L1_SEED, timed as CE_L1_CONTROL. -/
def putL1Seed (n : Nat) (value : W64) (p : Pkg) : Pkg :=
  let k := key (pgCe n) 0x184
  let v := mergeWrite (rw4 0x184 (msk 15 0)) (reg p k) value
  let c := ce p n
  let p1 := setCe (setReg p k v) n { c with laterSeed := some v }
  if c.cmd.isNone then l1Boundary p1 n else p1

end Sys2Proof.Machine
end

