-- ==== Sys2Proof/Machine/Octet.lean ====
section
/-! DEFINITION. The octets: operand feeds, the stationary register, passes, drains and projection (spec/06 R209 to R236),
and the long accumulators that drains add to (spec/07 R246 to R255). -/

namespace Sys2Proof.Machine

/-! ## Formats of an octet (Tables 6-1, 6-2) -/

def isMx (code : Nat) : Bool := decide (8 ≤ code)
def plainCode (code : Nat) : Nat := if 8 ≤ code then code - 8 else code
def is16 (code : Nat) : Bool := code == 6 || code == 7
/-- Elements that one group takes: two nibbles of a beat, or one element. -/
def groupElems (code : Nat) : Nat := if plainCode code = 0 then 2 else 1
/-- Feed beats with data that a group takes. -/
def groupBeats (code : Nat) : Nat := if is16 code then 2 else 1

/-- The element `j` of a group from the bytes of its beats on one wire. -/
def groupRaw (code j : Nat) (bytes : List Nat) : Nat :=
  if plainCode code = 0 then bytes.getD 0 0 / 16 ^ j % 16
  else if is16 code then bytes.getD 0 0 + 256 * bytes.getD 1 0
  else bytes.getD 0 0

/-- An element's encoding as a value, its sign bit, and its significand with the weight of the significand's LSB. -/
structure Wire where
  x   : Elem
  neg : Bool
  sig : Nat
  exp : Int
  deriving DecidableEq, Repr

def wireOf (code raw : Nat) : Wire :=
  let f := fmtOf (plainCode code)
  let e := raw / 2 ^ f.manBits % 2 ^ f.expBits
  ⟨decodeElem f raw, raw.testBit (f.bits - 1), (if e = 0 then 0 else 2 ^ f.manBits) + raw % 2 ^ f.manBits,
    f.unit + ((max e 1 - 1 : Nat) : Int)⟩

def itemByte (x : Item) (b : Nat) : Nat := x.toNat / 2 ^ (8 * b) % 256

/-! ## Feeds (R214, R215) -/

/-- The byte of wire w of array a in beat u of an item. -/
def feedByte (shared : Bool) (x : Item × Nat) (a w : Nat) : Nat :=
  itemByte x.1 (if shared then 8 * x.2 + w else 8 * a + w)

/-- The next `n` beats of a feed port: each SPLIT item gives one beat, each SHARED item eight. -/
def takeBeats (n port : Nat) (shared : Bool) (c : Ce) (used : Nat) : Option (List (Item × Nat) × Ce × Nat) :=
  match n with
  | 0 => some ([], c, used)
  | n + 1 =>
    match takeItem c port with
    | none => none
    | some (x, c1) =>
      let keep := shared && decide (used < 7)
      match takeBeats n port shared (if keep then c else c1) (if keep then used + 1 else 0) with
      | none => none
      | some (l, c2, used2) => some ((x, used) :: l, c2, used2)

/-! ## The stationary register (R216 to R218) -/

/-- Items of a tile load. -/
def srItems (code : Nat) : Nat := (if is16 code then 128 else 64) + (if isMx code then 2 else 0)

/-- Slot `s` of line `l` of a bank. -/
def srSlot (items : List Item) (code l s : Nat) : Nat :=
  if is16 code then
    let x := items.getD (2 * l + s / 32) 0
    itemByte x (2 * (s % 32)) + 256 * itemByte x (2 * (s % 32) + 1)
  else if plainCode code = 0 then itemByte (items.getD l 0) (s / 2) / 16 ^ (s % 2) % 16
  else itemByte (items.getD l 0) s

/-- What the register drives on wire w of array a in contraction step u. -/
def srRaw (items : List Item) (code : Nat) (axis : Bool) (a w u : Nat) : Nat :=
  if axis then srSlot items code (8 * a + w) u else srSlot items code u (8 * a + w)

/-- The E8M0 scale of wire w of array a for the 32-element block of step u. -/
def srScale (items : List Item) (a w u : Nat) : Nat := itemByte (items.getD (64 + u / 32) 0) (8 * a + w)

/-! ## Cells (R246 to R250) -/

def cellKey (a i c : Nat) : Nat := 64 * a + 8 * i + c

/-- log2 of the product unit of two formats. -/
def productUnit (ra rb : Nat) : Int := (fmtOf (plainCode ra)).unit + (fmtOf (plainCode rb)).unit

/-- The exact product of two elements (R248). -/
def product (x y : Wire) : Elem :=
  let t := mulTag x.x y.x x.neg y.neg
  if t ≠ 0 then ⟨t, 0⟩ else ⟨0, x.x.m * y.x.m⟩

/-- The 40-bit product word of EXACT_WIDE (R250): sign, special tag, exponent, significand; of a special product the exponent and
the significand are zero. -/
def productWord (x y : Wire) : BitVec 40 :=
  let t := mulTag x.x y.x x.neg y.neg
  BitVec.ofNat 40 (bitNat (x.neg != y.neg) * 2 ^ 39 + t * 2 ^ 37 +
    if t = 0 then (BitVec.ofInt 10 (x.exp + y.exp)).toNat * 2 ^ 27 + x.sig * y.sig else 0)

/-- The value of a product word: an element, and the weight of its unit. -/
def wordElem (w : BitVec 40) : Elem × Int :=
  let m : Int := (bitsOf w 21 0 : Nat)
  if bitsOf w 38 37 = 0 then (⟨0, if bitOf w 39 then -m else m⟩, (BitVec.ofNat 10 (bitsOf w 36 27)).toInt)
  else (⟨bitsOf w 38 37, 0⟩, 0)

/-- A product joins a fixed-point cell. -/
def Cell.addFixed (c : Cell) (x : Elem) : Cell :=
  if c.tag ≠ 0 ∨ x.tag ≠ 0 then ⟨addTags c.tag x.tag, 0⟩ else ⟨0, c.body + x.m⟩

/-- R249: the FP32 value becomes fp32(acc + a × b). -/
def Cell.addDefault (c : Cell) (x : Elem) (e : Int) (neg : Bool) : Cell :=
  if c.tag ≠ 0 ∨ x.tag ≠ 0 then ⟨addTags c.tag x.tag, 0⟩
  else
    let acc : W32 := BitVec.ofInt 32 c.body
    let r := enc32 ((dec32 acc).m * 2 ^ 149 + x.m * 2 ^ (e + 298).toNat) (-298)
      ((dec32 acc).m == 0 && x.m == 0 && neg32 acc && neg)
    if (dec32 r).tag ≠ 0 then ⟨(dec32 r).tag, 0⟩ else ⟨0, r.toNat⟩

/-! ## Passes -/

/-- A pass of an octet: its mode, whether its banks are read by column, its length, the bank it drives, each array's
length (0 for one that takes no part) and slot, whether it drains at its end, and whether its drains may reach the long store
now: in a projection the slots' values of the round before have been emitted (R237). -/
structure PassArgs where
  mode  : Nat
  wide  : Bool
  len   : Nat
  bank  : Nat
  lens  : List Nat
  slots : List Nat
  drain : Bool
  free  : Bool
  deriving DecidableEq, Repr

def PassArgs.slotOf (q : PassArgs) (a : Nat) : Nat := q.slots.getD a 0
/-- Whether array a takes the step at element `u`. -/
def PassArgs.takes (q : PassArgs) (a u : Nat) : Bool := decide (u < q.lens.getD a 0)

inductive PassEnd where
  | waits
  | goes
  | ended
  | stopped
  deriving DecidableEq, Repr

/-- The codes of the row and of the column wires (R220). -/
def rowCode (o : Octet) (mode : Nat) : Nat := if mode = 1 then o.fb else o.fa
def colCode (o : Octet) (mode : Nat) : Nat := if mode = 1 then o.fa else o.fb

/-- Drain interval in beats (R225, R247). -/
def drainLimit (o : Octet) : Nat := if o.fa = 4 ∧ o.fb = 4 then 32768 else 65536

/-- The scale pair's exponent of a cell at a block's end, or none for the NaN scale 0xFF (R245, R255). -/
def cellScale (o : Octet) (mode a i c u : Nat) : Option Int :=
  if isMx o.fa then
    let items := SMap.get o.sr o.bank []
    let sa (w : Nat) : Nat := feedByte o.sharedA (o.scaleA, 0) a w
    let sb (w : Nat) : Nat := if mode = 2 then feedByte o.sharedB (o.scaleB, 0) a w else srScale items a w u
    let r := if mode = 1 then sb i else sa i
    let k := if mode = 1 then sa c else sb c
    if r = 255 ∨ k = 255 then none else some ((r : Int) - 127 + ((k : Int) - 127))
  else some 0

/-- What a cell copies into its drain latch (R224). -/
def latchOf (o : Octet) (mode a i c u slot : Nat) : Latch :=
  let x := SMap.get o.cells (cellKey a i c) ⟨0, 0⟩
  { tag := x.tag, body := x.body, f32 := is16 o.fa, slot := slot
    scale := if is16 o.fa then some 0 else (cellScale o mode a i c u).map (fun e => productUnit o.fa o.fb + e) }

/-- What a latch adds to its long accumulator (R255). -/
def Latch.value (l : Latch) : Elem × Int :=
  if l.f32 then (if l.tag ≠ 0 then (⟨l.tag, 0⟩, 0) else (⟨0, (dec32 (BitVec.ofInt 32 l.body)).m⟩, -149))
  else match l.scale with
    | none => (⟨3, 0⟩, 0)
    | some e => (⟨l.tag, l.body⟩, e)

def allCells : List (Nat × Nat) := (List.range 8).flatMap (fun i => (List.range 8).map (fun c => (i, c)))

/-- An octet's latches pass to the long store, in ascending array number and row-major cell order (R226 to R228). -/
def passLatches (c : Ce) (oct : Nat) : Ce :=
  let o := octet c oct
  let add (l : SMap Rec) (x : Nat × Latch) : SMap Rec :=
    let k := 64 * x.2.slot + x.1 % 64
    SMap.set l k (accAdd (SMap.get l k 0) x.2.value.1 x.2.value.2)
  if o.latches.isEmpty then c
  else { c with long := o.latches.foldl add c.long, octets := SMap.set c.octets oct { o with latches := [] } }

/-- Every latch of a CE that still holds a value passes it to the long store: before anything reads or adds there, and before the
next drain, for which the array holds its wires (R226). -/
def settleLatches (p : Pkg) (n : Nat) : Pkg :=
  if (ce p n).octets.all (fun x => x.2.latches.isEmpty) then p
  else setCe p n ((List.range 8).foldl passLatches (ce p n))

/-- Array a of an octet drains to a slot (R224): its cells copy their accumulators into their latches and restart. -/
def drainArray (c : Ce) (oct mode a slot u : Nat) : Ce :=
  let o := octet c oct
  let put (l : SMap Latch) (ic : Nat × Nat) : SMap Latch :=
    SMap.set l (cellKey a ic.1 ic.2) (latchOf o mode a ic.1 ic.2 u slot)
  let o1 : Octet := { o with
    cells := SMap.drop o.cells (fun k => k / 64 == a), since := SMap.set o.since a 0, latches := allCells.foldl put o.latches }
  { c with octets := SMap.set c.octets oct o1 }

/-- Drains of several arrays in one beat; a slot beyond LONG_ACC_COUNT ends the command (R227). -/
def drainMany (p : Pkg) (n oct mode u : Nat) (which : List (Nat × Nat)) : PassEnd × Pkg :=
  let top := (ceChart p n).longAccs
  if which.any (fun x => decide (top < 64 * x.2 + 64)) then (.stopped, stopWith p n 0x31 12)
  else
    let c := which.foldl (fun c x => drainArray c oct mode x.1 x.2 u) (passLatches (ce p n) oct)
    (.goes, addReg (setCe p n c) (key (pgCe n) 0x360) which.length)

/-- The operation counter of a pairing (Table 20-6). -/
def productCounter (o : Octet) (wide : Bool) : Nat :=
  let a := plainCode o.fa
  let b := plainCode o.fb
  if a = 0 then 0x300
  else if a = 5 then 0x318
  else if is16 o.fa then (if wide then 0x328 else 0x320)
  else if a = 3 ∨ a = 4 ∨ b = 3 ∨ b = 4 then 0x310
  else 0x308

/-- The products of a group counted for the arrays that took it (R700). -/
def countProducts (p : Pkg) (n : Nat) (o : Octet) (wide : Bool) (arrays : Nat) : Pkg :=
  let k := 64 * groupElems o.fa * arrays
  let p1 := addReg p (key (pgCe n) (productCounter o wide)) k
  let p2 := if isMx o.fa then addReg p1 (key (pgCe n) 0x330) k else p1
  addReg p2 (key (pgCe n) 0x370) (arrays * (if is16 o.fa then (if wide then 8 else 2) else 1))

/-- The wires of a group: rows and columns of array a, element j. -/
def groupWires (o : Octet) (mode u : Nat) (xs ys : List (Item × Nat)) (a j i c : Nat) : Wire × Wire :=
  let items := SMap.get o.sr o.bank []
  let s (w : Nat) : Wire := wireOf o.fa (groupRaw o.fa j (xs.map (fun x => feedByte o.sharedA x a w)))
  let t (w : Nat) : Wire :=
    if mode = 2 then wireOf o.fb (groupRaw o.fb j (ys.map (fun x => feedByte o.sharedB x a w)))
    else wireOf o.fb (srRaw items o.fb o.axis a w (u + j))
  if mode = 1 then (t i, s c) else (s i, t c)

/-- A cell takes the products of one group. -/
def cellTake (o : Octet) (mode u : Nat) (xs ys : List (Item × Nat)) (a i c : Nat) (x : Cell) : Cell :=
  (List.range (groupElems o.fa)).foldl (fun x j =>
    let w := groupWires o mode u xs ys a j i c
    if is16 o.fa then x.addDefault (product w.1 w.2) (productUnit o.fa o.fb) (w.1.neg != w.2.neg)
    else x.addFixed (product w.1 w.2)) x

/-- The cells of the arrays that take a group; in EXACT_WIDE a cell holds its product word, which is added to its long accumulator
within the element period (R250). -/
def takeGroup (c : Ce) (oct : Nat) (q : PassArgs) (u : Nat) (xs ys : List (Item × Nat)) : Ce :=
  let o := octet c oct
  let arrays := (List.range 8).filter (fun a => q.takes a u)
  if q.wide && is16 o.fa then
    let word (a : Nat) (ic : Nat × Nat) : BitVec 40 :=
      let w := groupWires o q.mode u xs ys a 0 ic.1 ic.2
      productWord w.1 w.2
    let add (a : Nat) (l : SMap Rec) (ic : Nat × Nat) : SMap Rec :=
      let k := 64 * q.slotOf a + 8 * ic.1 + ic.2
      SMap.set l k (accAdd (SMap.get l k 0) (wordElem (word a ic)).1 (wordElem (word a ic)).2)
    let hold (a : Nat) (m : SMap Cell) (ic : Nat × Nat) : SMap Cell :=
      SMap.set m (cellKey a ic.1 ic.2) ⟨bitsOf (word a ic) 38 37, (word a ic).toNat⟩
    { c with long := arrays.foldl (fun l a => allCells.foldl (add a) l) c.long
             octets := SMap.set c.octets oct { o with cells := arrays.foldl (fun m a => allCells.foldl (hold a) m) o.cells } }
  else
    let upd (m : SMap Cell) (a : Nat) : SMap Cell :=
      allCells.foldl (fun m ic =>
        let k := cellKey a ic.1 ic.2
        SMap.set m k (cellTake o q.mode u xs ys a ic.1 ic.2 (SMap.get m k ⟨0, 0⟩))) m
    let since := arrays.foldl (fun m a => SMap.set m a (SMap.get m a 0 + 1)) o.since
    let o1 : Octet := { o with cells := arrays.foldl upd o.cells, since := if is16 o.fa then o.since else since }
    { c with octets := SMap.set c.octets oct o1 }

/-- Where the items of an operand's scales stop: two at the streamed port, one where the other operand is held. -/
def scaleItems (mode : Nat) : Nat := if mode = 2 then 2 else 1

/-- Whether a pass must wait before its next drain, or in EXACT_WIDE before its next product words: the slots of a projection still
hold the values of the round before (R237). -/
def drainWaits (q : PassArgs) (o : Octet) (u : Nat) : Bool :=
  !q.free && (if q.len ≤ u then q.drain && !isMx o.fa
    else (q.wide && is16 o.fa) || (isMx o.fa && (u + groupElems o.fa) % 32 == 0))

/-- QM_PREEMPT_MAX takes the latency of a command that preempted, at the first array beat of its RUN (R295, log entry 95). -/
def notePreemptMax (p : Pkg) (n : Nat) : Pkg :=
  match (ce p n).cmd with
  | some id =>
    let c := cmd p id
    if c.preempting.isSome then
      let l := sheetBeats p n - c.acceptedAt.getD (n / 256) 0
      setCmd (setReg p (key pgQm 0x128) (BitVec.ofNat 64 (max (regN p (key pgQm 0x128)) (min l 0xFFFFFFFF)))) id
        { c with preempting := none }
    else p
  | none => p

def onCells (p : Pkg) (n oct : Nat) (f : SMap Cell → SMap Cell) : Pkg :=
  let c := ce p n
  setCe p n { c with octets := SMap.set c.octets oct { octet c oct with cells := f (octet c oct).cells } }

/-- One step of a pass: a scale item, or one group of elements by all arrays that take part, with the drains it brings;
or the pass's end. It waits for items, for the arrays to restart, and for a due drain (R225). An element is a whole group of the
format: in FP4 an odd LENGTH takes both nibbles of its last beat (DESIGN CHOICE, log entry 27). -/
def passStep (n oct : Nat) (q : PassArgs) (p : Pkg) : PassEnd × Pkg :=
  let c := ce p n
  let o : Octet := { octet c oct with bank := q.bank }
  let u := o.done
  let top := (ceChart p n).longAccs
  let act := (List.range 8).filter (fun a => q.takes a 0)
  if o.stopped || drainWaits q o u then (.waits, p)
  else if q.len ≤ u then
    let ended (p : Pkg) : Pkg :=
      let c := ce p n
      setCe p n { c with octets := SMap.set c.octets oct { octet c oct with done := 0, scaled := 0 } }
    if q.drain && !isMx o.fa then
      if q.wide && is16 o.fa then
        let p1 := onCells p n oct (fun _ => [])
        (.ended, ended (addReg p1 (key (pgCe n) 0x360) act.length))
      else match drainMany p n oct q.mode (u - 1) (act.map (fun a => (a, q.slotOf a))) with
        | (.goes, p1) => (.ended, ended p1)
        | r => r
    else (.ended, ended (if q.wide && is16 o.fa then onCells p n oct (fun _ => []) else p))
  else if isMx o.fa && decide (o.scaled < scaleItems q.mode) && u % 32 == 0 then
    match takeItem c (0x60 + oct) with
    | none => (.waits, p)
    | some (x, c1) =>
      let o1 : Octet := if o.scaled = 0 then { o with scaled := 1, scaleA := x } else { o with scaled := 2, scaleB := x }
      (.goes, setCe p n { c1 with octets := SMap.set c1.octets oct o1 })
  else if !is16 o.fa && (List.range 8).any (fun a => q.takes a u && decide (drainLimit o ≤ SMap.get o.since a 0)) then
    (.waits, p)
  else
    match takeBeats (groupBeats o.fa) (0x60 + oct) o.sharedA c o.ua with
    | none => (.waits, p)
    | some (xs, c1, ua) =>
      match (if q.mode = 2 then takeBeats (groupBeats o.fb) (0x68 + oct) o.sharedB c1 o.ub else some ([], c1, o.ub)) with
      | none => (.waits, p)
      | some (ys, c2, ub) =>
        let part := (List.range 8).filter (fun a => q.takes a u)
        if (q.wide && is16 o.fa) && part.any (fun a => decide (top < 64 * q.slotOf a + 64)) then
          (.stopped, stopWith p n 0x31 12)
        else
          let slots := part.foldl (fun (m : SMap Nat) (a : Nat) => SMap.set m a (q.slotOf a)) o.slots
          let o1 : Octet := { o with ua := ua, ub := ub, slots := slots }
          let c3 := takeGroup { c2 with octets := SMap.set c2.octets oct o1 } oct q u xs ys
          let next := u + groupElems o.fa
          let o2 : Octet := { octet c3 oct with done := next, scaled := if next % 32 = 0 then 0 else o.scaled }
          let p1 := countProducts (notePreemptMax (setCe p n { c3 with octets := SMap.set c3.octets oct o2 }) n) n o q.wide part.length
          if isMx o.fa && next % 32 == 0 then
            drainMany p1 n oct q.mode u (part.map (fun a => (a, q.slotOf a)))
          else (.goes, p1)

/-- Steps of a pass while it goes. -/
def passRun (n oct : Nat) (q : PassArgs) (fuel : Nat) (p : Pkg) : PassEnd × Pkg :=
  match fuel with
  | 0 => (.goes, p)
  | k + 1 =>
    match passStep n oct q p with
    | (.goes, p1) => passRun n oct q k p1
    | r => r

/-! ## Octet words (Table 6-6) -/

def octMay (p : Pkg) (n oct : Nat) : Bool := ceLive p n && decide (oct < 8) && unitMay p n 1 oct

def octMode (p : Pkg) (n oct : Nat) : Nat :=
  match findUnit (ceChart p n) 1 oct with
  | some u => u.mode
  | none => 0

/-- A word done; the mask is 0xFF again at the start of each pass of the unit. -/
def octNext (p : Pkg) (n oct : Nat) : Pkg :=
  let c := ce p n
  let c1 := advanceUnit p n 1 oct 1 c
  if (unitAt c1 1 oct).2 = (unitAt c 1 oct).2 then setCe p n c1
  else setCe p n { c1 with octets := SMap.set c1.octets oct { octet c1 oct with mask := 0xFF } }

def onOctet (p : Pkg) (n oct : Nat) (f : Octet → Octet) : Pkg :=
  let c := ce p n
  setCe p n { c with octets := SMap.set c.octets oct (f (octet c oct)) }

/-- Whether the word at an octet's place is `w` (R233). -/
def octAt (p : Pkg) (n oct w : Nat) : Bool := octMay p n oct && atWord p n 1 oct w

def doOctetNop (n oct : Nat) (p : Pkg) : Pkg := if octAt p n oct 0 then octNext p n oct else p
def execOctetNop (n oct : Nat) (s : State) : Out := .next (s.onPkg (doOctetNop n oct))

def doOctetFormat (n oct fa fb : Nat) (axis sharedA sharedB : Bool) (p : Pkg) : Pkg :=
  if octAt p n oct (2 ^ 28 + fa * 2 ^ 24 + fb * 2 ^ 20 + bitNat axis * 2 ^ 19 + bitNat sharedA * 2 ^ 18 + bitNat sharedB * 2 ^ 17) &&
      decide (fa < 13) && decide (fb < 13) then
    octNext (onOctet p n oct (fun o => { o with
      formatted := true, fa := fa, fb := fb, axis := axis, sharedA := sharedA, sharedB := sharedB })) n oct
  else p

def execOctetFormat (n oct fa fb : Nat) (axis sharedA sharedB : Bool) (s : State) : Out :=
  .next (s.onPkg (doOctetFormat n oct fa fb axis sharedA sharedB))

def doOctetMask (n oct mask : Nat) (p : Pkg) : Pkg :=
  if octAt p n oct (5 * 2 ^ 28 + mask) && decide (mask < 256) then
    octNext (onOctet p n oct (fun o => { o with mask := mask })) n oct
  else p

def execOctetMask (n oct mask : Nat) (s : State) : Out := .next (s.onPkg (doOctetMask n oct mask))

/-- One item of a tile load into a bank; `.1` is whether the bank is full. -/
def loadItem (n oct bank : Nat) (p : Pkg) : PassEnd × Pkg :=
  let c := ce p n
  match takeItem c (0x68 + oct) with
  | none => (.waits, p)
  | some (x, c1) =>
    let o := octet c1 oct
    let l := o.loading ++ [x]
    if l.length < srItems o.fb then
      (.goes, setCe p n { c1 with octets := SMap.set c1.octets oct { o with loading := l } })
    else
      let o1 : Octet := { o with loading := [], sr := SMap.set o.sr bank l }
      (.ended, setCe p n { c1 with octets := SMap.set c1.octets oct o1 })

def loadRun (n oct bank fuel : Nat) (p : Pkg) : PassEnd × Pkg :=
  match fuel with
  | 0 => (.goes, p)
  | k + 1 =>
    match loadItem n oct bank p with
    | (.goes, p1) => loadRun n oct bank k p1
    | r => r

/-- R217, R219: a bank takes a tile from the second port, unless a pass drives that bank. -/
def doLoadSr (n oct bank : Nat) (p : Pkg) : Pkg :=
  let o := octet (ce p n) oct
  if octAt p n oct (3 * 2 ^ 28 + bank * 2 ^ 27) && o.formatted && decide (bank < 2) && !(o.done != 0 && o.bank == bank && octMode p n oct != 2) then
    match loadRun n oct bank 131 p with
    | (.ended, p1) => octNext p1 n oct
    | (_, p1) => p1
  else p

def execLoadSr (n oct bank : Nat) (s : State) : Out := .next (s.onPkg (doLoadSr n oct bank))

/-- The arguments of a PASS word. -/
def passArgs (p : Pkg) (n oct slot step bank : Nat) (drain : Bool) (len : Nat) : PassArgs :=
  let o := octet (ce p n) oct
  { mode := octMode p n oct, wide := (ceChart p n).exactWide, len := len, bank := bank,
    lens := (List.range 8).map (fun a => if o.mask.testBit a then len else 0),
    slots := (List.range 8).map (fun a => (slot + (if step = 1 then 8 * a else a)) % 64), drain := drain, free := true }

/-- R220 to R228: one pass of the unmasked arrays, at most 64 elements against the stationary register (R222). -/
def doPass (n oct slot step bank : Nat) (drain : Bool) (len : Nat) (p : Pkg) : Pkg :=
  let q := passArgs p n oct slot step bank drain len
  let w := 4 * 2 ^ 28 + slot * 2 ^ 22 + step * 2 ^ 21 + bank * 2 ^ 20 + bitNat drain * 2 ^ 19 + (len - 1)
  if octAt p n oct w && (octet (ce p n) oct).formatted && decide (slot < 64 ∧ step < 2 ∧ bank < 2 ∧ 0 < len ∧ len ≤ 65536) &&
      decide (q.mode = 2 ∨ len ≤ 64) then
    match passRun n oct q (2 * len + 2) (settleLatches p n) with
    | (.ended, p1) => octNext p1 n oct
    | (_, p1) => p1
  else p

def execPass (n oct slot step bank : Nat) (drain : Bool) (len : Nat) (s : State) : Out :=
  .next (s.onPkg (doPass n oct slot step bank drain len))

/-! ## Projection (R234) -/

def pow2Floor (x : Nat) : Nat := if x = 0 then 0 else 2 ^ Nat.log2 x

/-- The shape of one round: its block origin, its blocks by row and column, and N in blocks. -/
structure Round where
  x0 : Nat
  y0 : Nat
  bm : Nat
  bn : Nat
  deriving DecidableEq, Repr

def roundShape (c : Cmd) (mode r : Nat) : Round :=
  let mb := dField c.desc 32 2 / 8
  let nb := dField c.desc 34 2 / 8
  let tm := min mb 8
  let tn := if mode = 2 then min nb (64 / max tm 1) else min nb 8
  let cn := ceilDiv nb tn
  let x0 := r / max cn 1 * tm
  let y0 := r % max cn 1 * tn
  ⟨x0, y0, min tm (mb - x0), min tn (nb - y0)⟩

def runK (c : Cmd) : Nat := dField c.desc 36 2

/-- The pass of octet `oct` in a round of MODE 2: array a's block, part of K and slot. -/
def projectPass2 (c : Cmd) (o : Octet) (wide free : Bool) (r oct : Nat) : PassArgs :=
  let s := roundShape c 2 r
  let b := s.bm * s.bn
  let q := if isMx o.fa then 32 else 8
  let ch := runK c / q
  let g := if is16 o.fa && !wide then 1 else min (pow2Floor (64 / max b 1)) (pow2Floor ch)
  let lens := (List.range 8).map (fun a =>
    let A := 8 * oct + a
    if A < g * b then q * ((A / b + 1) * ch / g - A / b * ch / g) else 0)
  { mode := 2, wide := wide, len := lens.foldl max 0, bank := 0, lens := lens,
    slots := (List.range 8).map (fun a => (8 * oct + a) % max b 1), drain := true, free := free }

/-- Pass `k` of tile `t` in a round of MODE 0 or 1. -/
def projectPassSr (c : Cmd) (o : Octet) (wide free : Bool) (mode r t k : Nat) : PassArgs :=
  let s := roundShape c mode r
  let len := min 64 (runK c - 64 * t)
  let wideDim := if mode = 0 then s.bn else s.bm
  { mode := mode, wide := wide, len := len, bank := o.tiles % 2,
    lens := (List.range 8).map (fun j => if j < wideDim then len else 0),
    slots := (List.range 8).map (fun j => if mode = 0 then 8 * k + j else 8 * j + k), drain := true, free := free }

/-- The octet's part of a round is done; after the last round its PROJECT word is. -/
def octRoundDone (p : Pkg) (n oct : Nat) (total : Nat) : PassEnd × Pkg :=
  let p1 := onOctet p n oct (fun o => { o with rounds := o.rounds + 1, tile := 0, pass := 0, loaded := false })
  if total ≤ (octet (ce p1 n) oct).rounds then (.ended, octNext p1 n oct) else (.goes, p1)

/-- Whether an octet has begun its part of a round. -/
def roundBegun (o : Octet) : Bool :=
  o.done != 0 || o.scaled != 0 || o.tile != 0 || o.pass != 0 || o.loaded || !o.loading.isEmpty

/-- Whether the long store's code holds an AUTO word. -/
def hasAuto (ch : Chart) : Bool := ch.units.any (fun u => u.typ == 6 && (unitCode ch u).any (fun w => bitsOf w 31 28 == 5))

/-- Whether the long store has emitted the slots of round `r` (R237): by AUTO; by its code, where it makes one pass a round; else
once its code is finished or no accumulator holds a value. A chart without a long store unit emits nothing (log entry 93). -/
def emittedPast (p : Pkg) (n r : Nat) : Bool :=
  let ch := ceChart p n
  let c := ce p n
  match findUnit ch 6 0 with
  | none => true
  | some u =>
    if hasAuto ch then decide (r < c.ls.rounds)
    else if u.repeats = 0xFFFFFFFF then decide (r < (unitAt c 6 0).2) || unitDone c u
    else unitDone c u || (c.long.isEmpty && c.octets.all (fun x => x.2.latches.isEmpty))

/-- Whether drains of an octet's present round may reach the long store. -/
def slotsFree (p : Pkg) (n oct : Nat) : Bool :=
  !(isProject (ceChart p n)) || (octet (ce p n) oct).rounds == 0 || emittedPast p n ((octet (ce p n) oct).rounds - 1)

/-- One step of a projection: a tile loads, a pass steps. The next round starts without waiting for the emission of the last one
while no stop is due, at most one round before the last one's end (R237); its drains wait for the emission. -/
def projectStep (n oct : Nat) (p : Pkg) : PassEnd × Pkg :=
  let c := ce p n
  let o := octet c oct
  let k := ceCmd p n
  let mode := octMode p n oct
  let total := roundsOf k mode
  let wide := (ceChart p n).exactWide
  let free := slotsFree p n oct
  if total ≤ o.rounds ∨ c.round + 1 < o.rounds ∨ (c.round < o.rounds ∧ holdDue p n = true ∧ roundBegun o = false) then (.waits, p)
  else if mode = 2 then
    let q := projectPass2 k o wide free o.rounds oct
    if q.len = 0 then octRoundDone p n oct total
    else match passStep n oct q p with
      | (.ended, p1) => octRoundDone p1 n oct total
      | r => r
  else
    let t := oct + 8 * o.tile
    if ceilDiv (runK k) 64 ≤ t then octRoundDone p n oct total
    else if !o.loaded then
      match loadItem n oct (o.tiles % 2) p with
      | (.ended, p1) => (.goes, onOctet p1 n oct (fun o => { o with loaded := true, pass := 0 }))
      | r => r
    else match passStep n oct (projectPassSr k o wide free mode o.rounds t o.pass) p with
      | (.ended, p1) =>
        let s := roundShape k mode o.rounds
        (.goes, onOctet p1 n oct (fun o =>
          if o.pass + 1 < (if mode = 0 then s.bm else s.bn) then { o with pass := o.pass + 1 }
          else { o with pass := 0, loaded := false, tile := o.tile + 1, tiles := o.tiles + 1 }))
      | r => r

def projectRun (n oct fuel : Nat) (p : Pkg) : Pkg :=
  match fuel with
  | 0 => p
  | k + 1 =>
    match projectStep n oct p with
    | (.goes, p1) => projectRun n oct k p1
    | (_, p1) => p1

def doProject (n oct : Nat) (p : Pkg) : Pkg :=
  if octAt p n oct (2 * 2 ^ 28) && (octet (ce p n) oct).formatted then projectRun n oct 65536 (settleLatches p n) else p

def execProject (n oct : Nat) (s : State) : Out := .next (s.onPkg (doProject n oct))

/-! ## Array events -/

/-- R225, R247: an array that has taken 65,536 beats without a drain, or 32,768 of an E5M2 pair, drains. -/
def doDrainIntervalExpiry (n array : Nat) (p : Pkg) : Pkg :=
  let oct := array / 8
  let a := array % 8
  let o := octet (ce p n) oct
  if ceLive p n && decide (array < 64) && decide (drainLimit o ≤ SMap.get o.since a 0) && slotsFree p n oct then
    (drainMany p n oct (octMode p n oct) (o.done - 1) [(a, SMap.get o.slots a 0)]).2
  else p

def execDrainIntervalExpiry (n array : Nat) (s : State) : Out := .next (s.onPkg (doDrainIntervalExpiry n array))

/-- Whether an octet's feed has items: its streamed port, in MODE 2 also its second port, which streams too (R215, R231). -/
def feedHas (p : Pkg) (n oct : Nat) : Bool :=
  let c := ce p n
  !(routeItems c (0x60 + oct)).isEmpty && (octMode p n oct != 2 || !(routeItems c (0x68 + oct)).isEmpty)

/-- R231: an octet whose feed has had no item for 64 beats stops its arrays, and restarts them when items return. -/
def doFeedStallStop (n oct : Nat) (p : Pkg) : Pkg :=
  if octMay p n oct && !feedHas p n oct then onOctet p n oct (fun o => { o with stopped := true }) else p

def execFeedStallStop (n oct : Nat) (s : State) : Out := .next (s.onPkg (doFeedStallStop n oct))

def doFeedRestart (n oct : Nat) (p : Pkg) : Pkg :=
  if octMay p n oct && feedHas p n oct then onOctet p n oct (fun o => { o with stopped := false }) else p

def execFeedRestart (n oct : Nat) (s : State) : Out := .next (s.onPkg (doFeedRestart n oct))

end Sys2Proof.Machine
end

