-- ==== Sys2Proof/Machine/LongStore.lean ====
section
/-! DEFINITION. The long store's code words: the conversion, emissions in items, and records taken in (spec/07 R254 to
R274). -/

namespace Sys2Proof.Machine

/-- Whether the long store stands at the code word `w` (R257). -/
def lsAt (p : Pkg) (n w : Nat) : Bool := ceLive p n && unitMay p n 6 0 && atWord p n 6 0 w

/-- A word done; the conversion is reset at each pass of the unit (Table 7-3). -/
def lsNext (p : Pkg) (n : Nat) : Pkg :=
  let c := ce p n
  let c1 := advanceUnit p n 6 0 1 c
  let ls : LongSt := { c1.ls with next := 0, buf := 0, bufBits := 0, item := 0 }
  if (unitAt c1 6 0).2 = (unitAt c 6 0).2 then setCe p n { c1 with ls := ls }
  else setCe p n { c1 with ls := { ls with fmt := 8, rounding := 0, sat := false, shift := 0 } }

def doLsNop (n : Nat) (p : Pkg) : Pkg := if lsAt p n 0 then lsNext p n else p
def execLsNop (n : Nat) (s : State) : Out := .next (s.onPkg (doLsNop n))

/-- OUTFMT sets the conversion of the emissions that follow; a reserved format or rounding is no valid word. -/
def doOutfmt (n fmt rounding : Nat) (sat : Bool) (shift : Int) (p : Pkg) : Pkg :=
  if lsAt p n (2 ^ 28 + fmt * 2 ^ 24 + rounding * 2 ^ 22 + bitNat sat * 2 ^ 21 + (BitVec.ofInt 8 shift).toNat * 2 ^ 13) &&
      decide (fmt < 9) && decide (rounding < 3) && decide (-128 ≤ shift) && decide (shift < 128) then
    let c := ce p n
    lsNext (setCe p n { c with
      ls := { c.ls with fmt := fmt, rounding := rounding, sat := sat, shift := shift } }) n
  else p

def execOutfmt (n fmt rounding : Nat) (sat : Bool) (shift : Int) (s : State) : Out :=
  .next (s.onPkg (doOutfmt n fmt rounding sat shift))

/-- The bits that an element takes in an item (R243, R259). -/
def outBits (fmt : Nat) (exact : Bool) : Nat :=
  if exact then 640
  else match fmt with
    | 0 => 4
    | 6 => 16
    | 7 => 16
    | 8 => 32
    | _ => 8

/-- One accumulator as it is emitted: rounded once under the conversion in force, or as a full record. -/
def emitValue (l : LongSt) (g : GenSeed) (exact : Bool) (r : Rec) (idx : Nat) : Nat :=
  if exact then r.toNat
  else convert (fmtOf l.fmt) (recElem r) (l.shift - 300) l.rounding l.sat g idx

/-- The values of an emission from position `ls.next` on join the buffer until an item is full or the slots end. The
accumulators read are +0 after it (R254). `at'` gives the accumulator and element index of a position. -/
def gather (exact : Bool) (g : GenSeed) (at' : Nat → Nat × Nat) (total fuel : Nat) (c : Ce) : Nat × Ce :=
  match fuel with
  | 0 => (0, c)
  | k + 1 =>
    let l := c.ls
    if 512 ≤ l.bufBits ∨ total ≤ l.next then (0, c)
    else
      let x := at' l.next
      let v := emitValue l g exact (SMap.get c.long x.1 0) x.2
      let c1 : Ce := { c with
        long := SMap.drop c.long (fun a => a == x.1)
        ls := { l with next := l.next + 1, buf := l.buf + v * 2 ^ l.bufBits, bufBits := l.bufBits + outBits l.fmt exact } }
      let r := gather exact g at' total k c1
      (r.1 + 1, r.2)

/-- The output port of an emission's item: with PAIR the items alternate between two (R259). -/
def emitPort (port item : Nat) (pair : Bool) : Nat := 0x70 + port + (if pair then item % 2 else 0)

inductive EmitEnd where
  | waits
  | goes
  | ended
  deriving DecidableEq, Repr

/-- One item of an emission; the last one is padded with zeros. -/
def emitItem (n port : Nat) (exact pair : Bool) (at' : Nat → Nat × Nat) (total : Nat) (p : Pkg) : EmitEnd × Pkg :=
  let c := ce p n
  let l := c.ls
  if total ≤ l.next ∧ l.bufBits = 0 then (.ended, p)
  else
    let out := emitPort port l.item pair
    if hasCredit (ceChart p n) c out then
      let (k, c1) := gather exact (genSeed (ceCmd p n)) at' total 129 c
      let l1 := c1.ls
      let ls : LongSt := { l1 with
        buf := l1.buf / 2 ^ 512, bufBits := l1.bufBits - 512, item := l1.item + 1 }
      let c2 := offer (ceChart p n) { c1 with ls := ls } out (BitVec.ofNat 512 l1.buf)
      (.goes, addReg (setCe p n c2) (key (pgCe n) 0x368) k)
    else (.waits, p)

def emitRun (n port : Nat) (exact pair : Bool) (at' : Nat → Nat × Nat) (total fuel : Nat) (p : Pkg) : EmitEnd × Pkg :=
  match fuel with
  | 0 => (.waits, p)
  | k + 1 =>
    match emitItem n port exact pair at' total p with
    | (.goes, p1) => emitRun n port exact pair at' total k p1
    | r => r

/-- Whether a slot range is one that a valid word names (R257). -/
def slotsOk (p : Pkg) (n first count : Nat) : Bool :=
  decide (0 < count) && decide (first + count ≤ 64) && decide (64 * (first + count) ≤ (ceChart p n).longAccs)

/-- EMIT: `count` slots from `first` on, in ascending accumulator order; the element index is 4,096 × the EMIT words done
before, plus the accumulator (R266). -/
def doEmit (n port : Nat) (exact : Bool) (first count : Nat) (pair : Bool) (p : Pkg) : Pkg :=
  let w := 2 * 2 ^ 28 + port * 2 ^ 26 + bitNat exact * 2 ^ 25 + first * 2 ^ 19 + (count - 1) * 2 ^ 13 + bitNat pair * 2 ^ 12
  if lsAt p n w && decide (port < 4) && slotsOk p n first count && !(pair && port % 2 == 1) then
    let e := (ce p n).ls.emits
    match emitRun n port exact pair (fun k => (64 * first + k, 4096 * e + (64 * first + k))) (64 * count) 5200
        (settleLatches p n) with
    | (.ended, p1) =>
      let c := ce p1 n
      lsNext (setCe p1 n { c with ls := { c.ls with emits := c.ls.emits + 1 } }) n
    | (_, p1) => p1
  else p

def execEmit (n port : Nat) (exact : Bool) (first count : Nat) (pair : Bool) (s : State) : Out :=
  .next (s.onPkg (doEmit n port exact first count pair))

/-- One record of an ACCEPT, from the bits taken so far. -/
def acceptRecord (first : Nat) (c : Ce) : Ce :=
  let l := c.ls
  let k := 64 * first + l.next
  { c with
    long := SMap.set c.long k (accAdd (SMap.get c.long k 0) (recElem (BitVec.ofNat 640 l.buf)) (-300))
    ls := { l with next := l.next + 1, buf := l.buf / 2 ^ 640, bufBits := l.bufBits - 640 } }

def acceptRun (n port first total fuel : Nat) (p : Pkg) : EmitEnd × Pkg :=
  match fuel with
  | 0 => (.waits, p)
  | k + 1 =>
    let c := ce p n
    if total ≤ c.ls.next then (.ended, p)
    else if 640 ≤ c.ls.bufBits then acceptRun n port first total k (setCe p n (acceptRecord first c))
    else match takeItem c (0x74 + port) with
      | none => (.waits, p)
      | some (x, c1) =>
        acceptRun n port first total k (setCe p n { c1 with
          ls := { c1.ls with buf := c1.ls.buf + x.toNat * 2 ^ c1.ls.bufBits, bufBits := c1.ls.bufBits + 512 } })

/-- ACCEPT takes 64 full records for each slot, back to back, and adds record j to accumulator j of the slot; a
malformed one is a range NaN (R268). -/
def doAccept (n port first count : Nat) (p : Pkg) : Pkg :=
  if lsAt p n (3 * 2 ^ 28 + port * 2 ^ 26 + first * 2 ^ 20 + (count - 1) * 2 ^ 14) && decide (port < 4) &&
      slotsOk p n first count then
    match acceptRun n port first (64 * count) 9300 (settleLatches p n) with
    | (.ended, p1) => lsNext p1 n
    | (_, p1) => p1
  else p

def execAccept (n port first count : Nat) (s : State) : Out := .next (s.onPkg (doAccept n port first count))

/-- CLEAR sets the slots' accumulators to +0. -/
def doLsClear (n first count : Nat) (p : Pkg) : Pkg :=
  if lsAt p n (4 * 2 ^ 28 + first * 2 ^ 20 + (count - 1) * 2 ^ 14) && slotsOk p n first count then
    let c := ce (settleLatches p n) n
    lsNext (setCe p n { c with
      long := SMap.drop c.long (fun a => decide (64 * first ≤ a ∧ a < 64 * (first + count))) }) n
  else p

def execLsClear (n first count : Nat) (s : State) : Out := .next (s.onPkg (doLsClear n first count))

/-! ## AUTO (R237, R259, R266) -/

/-- Every octet that projects has made its last drain of round `r`. -/
def projectedPast (p : Pkg) (n r : Nat) : Bool :=
  (ceChart p n).units.all (fun u => !projects (ceChart p n) u || decide (r < (octet (ce p n) u.index).rounds))

/-- The slots of a round in ascending order, each with the block (x, y) it holds. -/
def roundSlots (c : Cmd) (mode r : Nat) : List (Nat × Nat × Nat) :=
  let s := roundShape c mode r
  (List.range 64).filterMap (fun k =>
    if mode = 2 then if k < s.bm * s.bn then some (k, s.x0 + k / s.bn, s.y0 + k % s.bn) else none
    else if k / 8 < s.bm ∧ k % 8 < s.bn then some (k, s.x0 + k / 8, s.y0 + k % 8) else none)

/-- The accumulator and the element index m × N + n of a position in a round's emission (R266). -/
def autoAt (c : Cmd) (slots : List (Nat × Nat × Nat)) (k : Nat) : Nat × Nat :=
  let x := slots.getD (k / 64) (0, 0, 0)
  let j := k % 64
  (64 * x.1 + j, (8 * x.2.1 + j / 8) * dField c.desc 34 2 + 8 * x.2.2 + j % 8)

/-- AUTO emits the slots of each round after the round's last drain, and after the end of the round before; its word ends with the
last round. -/
def autoRun (n port : Nat) (exact pair : Bool) (fuel : Nat) (p : Pkg) : Pkg :=
  match fuel with
  | 0 => p
  | k + 1 =>
    let c := ce p n
    let x := ceCmd p n
    let mode := projectMode (ceChart p n)
    let r := c.ls.rounds
    if roundsOf x mode ≤ r then lsNext p n
    else if projectedPast p n r && decide (r ≤ c.round) then
      let slots := roundSlots x mode r
      match emitRun n port exact pair (autoAt x slots) (64 * slots.length) 5200 p with
      | (.ended, p1) =>
        let c1 := ce p1 n
        autoRun n port exact pair k (setCe p1 n { c1 with
          ls := { c1.ls with rounds := r + 1, next := 0, buf := 0, bufBits := 0, item := 0 } })
      | (_, p1) => p1
    else p

def doLsAuto (n port : Nat) (exact pair : Bool) (p : Pkg) : Pkg :=
  if lsAt p n (5 * 2 ^ 28 + port * 2 ^ 26 + bitNat exact * 2 ^ 25 + bitNat pair * 2 ^ 24) && decide (port < 4) &&
      isProject (ceChart p n) && !(pair && port % 2 == 1) then
    autoRun n port exact pair 4097 (settleLatches p n)
  else p

def execLsAuto (n port : Nat) (exact pair : Bool) (s : State) : Out := .next (s.onPkg (doLsAuto n port exact pair))

end Sys2Proof.Machine
end

