-- ==== Sys2Proof/Machine/Functions.lean ====
section
/-! DEFINITION. The fixed functions of the vector unit (spec/05 R188): the exact value in fixed point with 320 fraction
bits, and the choice of one of the floats within 2 ulp of it, the same for the same input. At infinities, poles and points outside
its domain a function gives what IEEE 754 gives it there (R186; DEDUCED, log entry 85); what GELU and SILU give for −Inf the
spec does not state: a free value of the opcode and the input. -/

namespace Sys2Proof.Machine

/-- 1.0 in fixed point. -/
def fx : Int := 2 ^ 320

def fxMul (a b : Int) : Int := a * b / fx
def fxDiv (a b : Int) : Int := a * fx / b

/-- The sum of w^k ÷ (2 k + 1) from k = 0 on, `acc` being the tail after term n. -/
def oddSeries (w : Int) : Nat → Int → Int
  | 0, acc => fx + fxMul w acc
  | k + 1, acc => oddSeries w k (fx / (2 * (k + 1) + 1 : Nat) + fxMul w acc)

/-- e^r for r from 0 to ln 2, by its power series. -/
def expSeries (r : Int) : Nat → Int → Int
  | 0, acc => acc
  | k + 1, acc => expSeries r k (fx + r * acc / (fx * (k + 1 : Nat)))

/-- sin y ÷ y as a series in w = y². -/
def sinSeries (w : Int) : Nat → Int → Int
  | 0, acc => acc
  | k + 1, acc => sinSeries w k (fx - fxMul w acc / ((2 * (k + 1)) * (2 * (k + 1) + 1) : Nat))

def fxLn2 : Int := 2 * fxMul (fx / 3) (oddSeries (fx / 9) 110 0)

/-- atan (1 ÷ n). -/
def fxAtanInv (n : Nat) : Int := fxMul (fx / n) (oddSeries (-(fx / (n * n : Nat))) 110 0)

def fxPi : Int := 4 * (4 * fxAtanInv 5 - fxAtanInv 239)

/-- e^y as m × 2^n, with m from 1 to 2 in fixed point. -/
def fxExp (y : Int) : Int × Int :=
  let n := y / fxLn2
  (expSeries (y - n * fxLn2) 80 fx, n)

/-- e^y for y at most 0. -/
def fxExpNeg (y : Int) : Int :=
  let (m, n) := fxExp y
  m / 2 ^ (-n).toNat

def fxSin (y : Int) : Int := fxMul y (sinSeries (fxMul y y) 60 fx)

def fxClamp (b : Nat) (y : Int) : Int := max (-(b * fx)) (min (b * fx) y)

/-- The float at a place of the floats in rising order, 0 being zero; `negZero` chooses the zero. -/
def floatAt (o : Int) (negZero : Bool) : W32 :=
  if o = 0 then (if negZero then 0x80000000 else 0)
  else if 0 < o then BitVec.ofNat 32 (min o.toNat 0x7F800000)
  else BitVec.ofNat 32 (0x80000000 + min (-o).toNat 0x7F800000)

/-- The value of the float at place o (from 0 on) in units of 2^-149. -/
def floatUnits (o : Nat) : Nat := if o < 2 ^ 24 then o else (2 ^ 23 + o % 2 ^ 23) * 2 ^ (o / 2 ^ 23 - 1)

/-- The place of the largest float that is not above n × 2^-149. -/
def floatPlace (n : Nat) : Nat := let s := Nat.log2 n - 23; s * 2 ^ 23 + n / 2 ^ s

/-- The distance of the float at a place, in units of 2^-1100, from x × 2^-1100. -/
def floatDist (x : Nat) (o : Int) : Nat :=
  let v : Int := (floatUnits o.natAbs * 2 ^ 951 : Nat)
  ((if o < 0 then -v else v) - x).natAbs

/-- One ulp at x × 2^-1100, in units of 2^-1100. -/
def ulpAt (x : Nat) : Nat := 2 ^ (max (Nat.log2 x - 23) 951)

/-- The places of the finite floats within 2 ulp of x × 2^-1100. -/
def placesNear (x : Nat) : List Int :=
  let o : Int := floatPlace (x / 2 ^ 951)
  ((List.range 10).map (fun (i : Nat) => o - 4 + i)).filter (fun o =>
    decide (o < 0x7F800000) && decide (floatDist x o ≤ 2 * ulpAt x))

/-- R188: the result for the input a, a float within 2 ulp of the exact value ±q × 2^e; which of them is `Config.vuFunction`'s
choice. A value that rounds to infinity gives infinity. -/
def near (op : Nat) (a : W32) (neg : Bool) (q : Nat) (e : Int) : W32 :=
  let x := q * 2 ^ (e + 1100).toNat
  let c := (Config.vuFunction op a).toNat
  if 2 ^ 951 * (2 ^ 277 - 2 ^ 252) ≤ x then inf32 neg
  else
    let l := placesNear x
    let o := l.getD (c % l.length) 0
    floatAt (if neg then -o else o) (bitOf (Config.vuFunction op a) 31)

/-- A result that the spec does not state: any NaN is canonical (R186). -/
def fixedFn (op : Nat) (a : W32) : W32 :=
  if isNan32 (Config.vuFunction op a) then nan32 else Config.vuFunction op a

/-- A fixed function: NaN for a NaN, `top` and `bottom` at +Inf and −Inf, and at the finite inputs m × 2^-149 its exact value as
sign, magnitude q and exponent e, or a result without tolerance. -/
def fixedBy (op : Nat) (top bottom : W32) (f : Int → Except W32 (Bool × Nat × Int)) (a : W32) : W32 :=
  let x := dec32 a
  if x.tag = 3 then nan32
  else if x.tag = 1 then top
  else if x.tag = 2 then bottom
  else match f x.m with
    | .ok (neg, q, e) => near op a neg q e
    | .error r => r

/-- 1.0 and −1.0. -/
def one32 (neg : Bool) : W32 := if neg then 0xBF800000 else 0x3F800000

/-- A finite input in fixed point. -/
def fxIn (m : Int) : Int := m * 2 ^ 171

/-- 1 ÷ a; at zeros and infinities as IEEE 754 division gives it. -/
def fRcp (a : W32) : W32 :=
  let x := dec32 a
  if x.tag = 3 then nan32
  else if x.tag ≠ 0 then a &&& 0x80000000
  else if x.m = 0 then inf32 (neg32 a)
  else near 0x0A a (neg32 a) (2 ^ 749 / x.m.natAbs) (-600)

def fRsqrt (a : W32) : W32 :=
  fixedBy 0x0B 0 nan32 (fun m =>
    if 0 < m then .ok (false, isqrtFrom (2 ^ 749 / m.toNat) 380 0, -300)
    else if m = 0 then .error (inf32 (neg32 a)) else .error nan32) a

def fExp2 (a : W32) : W32 :=
  fixedBy 0x0D (inf32 false) 0 (fun m =>
    let y := fxClamp 400 (fxIn m)
    let n := y / fx
    .ok (false, (expSeries (fxMul (y - n * fx) fxLn2) 80 fx).toNat, n - 320)) a

/-- log2 of a positive m × 2^-149, in fixed point. -/
def fxLog2 (m : Nat) : Int :=
  let k := Nat.log2 m
  let y : Int := (m * 2 ^ 320 / 2 ^ k : Nat)
  let z := fxDiv (y - fx) (y + fx)
  ((k : Int) - 149) * fx + fxDiv (2 * fxMul z (oddSeries (fxMul z z) 110 0)) fxLn2

def fLog2 (a : W32) : W32 :=
  fixedBy 0x0E (inf32 false) nan32 (fun m =>
    if 0 < m then .ok (decide (fxLog2 m.toNat < 0), (fxLog2 m.toNat).natAbs, -320)
    else if m = 0 then .error (inf32 true) else .error nan32) a

def fTanh (a : W32) : W32 :=
  fixedBy 0x0F (one32 false) (one32 true) (fun m =>
    let v := fxExpNeg (-fxClamp 128 (2 * fxIn (m.natAbs : Int)))
    .ok (decide (m < 0), (fxDiv (fx - v) (fx + v)).toNat, -320)) a

/-- 1 ÷ (1 + e^-y) as q × 2^e. -/
def fxSigmoid (y : Int) : Nat × Int :=
  let y := fxClamp 400 y
  if 0 ≤ y then ((fxDiv fx (fx + fxExpNeg (-y))).toNat, -320)
  else
    let (m, n) := fxExp y
    ((fxDiv m (fx + fxExpNeg y)).toNat, n - 320)

def fSigmoid (a : W32) : W32 :=
  fixedBy 0x10 (one32 false) 0 (fun m => .ok (false, (fxSigmoid (fxIn m)).1, (fxSigmoid (fxIn m)).2)) a

/-- The tanh form of GELU, a × (1 + tanh u) ÷ 2 with u = √(2 ÷ π) × (a + 0.044715 a³), is a × sigmoid (2 u). -/
def fxGelu (m : Int) : Nat × Int :=
  let a := fxClamp 64 (fxIn m)
  let c : Int := isqrtFrom ((fxDiv (8 * fx) fxPi * fx).toNat) 330 0
  fxSigmoid (fxMul c (a + fxMul a (fxMul a a) * 44715 / 1000000))

def fGelu (a : W32) : W32 :=
  fixedBy 0x11 (inf32 false) (fixedFn 0x11 a) (fun m => .ok (decide (m < 0), m.natAbs * (fxGelu m).1, (fxGelu m).2 - 149)) a

def fSilu (a : W32) : W32 :=
  fixedBy 0x12 (inf32 false) (fixedFn 0x12 a) (fun m => .ok (decide (m < 0), m.natAbs * (fxSigmoid (fxIn m)).1, (fxSigmoid (fxIn m)).2 - 149)) a

/-- sin (π r × 2^-149) for r from 0 to 2^148. -/
def fxSinPi (r : Nat) : Nat := (fxSin (fxMul fxPi (fxIn (r : Int)))).toNat

def fSinpi (a : W32) : W32 :=
  fixedBy 0x13 nan32 nan32 (fun m =>
    let r := m.natAbs % 2 ^ 150
    let f := r % 2 ^ 149
    .ok (decide (m < 0) != decide (2 ^ 149 ≤ r), fxSinPi (min f (2 ^ 149 - f)), -320)) a

def fCospi (a : W32) : W32 :=
  fixedBy 0x14 nan32 nan32 (fun m =>
    let r := m.natAbs % 2 ^ 150
    let f := min r (2 ^ 150 - r)
    .ok (decide (2 ^ 148 < f), fxSinPi (if f ≤ 2 ^ 148 then 2 ^ 148 - f else f - 2 ^ 148), -320)) a

end Sys2Proof.Machine
end

