-- ==== Sys2Proof/Machine/Vector.lean ====
section
/-! DEFINITION. The vector unit's operations (spec/05 R184 to R190, Table 5-6). -/

namespace Sys2Proof.Machine

/-- What Table 5-6 gives an OP: which of SA, SB, SC its result names, the formats it accepts (bit FMT), and the IMM bits
it names. -/
structure VuRow where
  a    : Bool
  b    : Bool
  c    : Bool
  fmts : Nat
  imm  : Nat
  deriving DecidableEq, Repr

def vuRow (op : Nat) : Option VuRow :=
  match op with
  | 0x00 => some ⟨false, false, false, 1, 0⟩
  | 0x01 => some ⟨true, true, false, 7, 0⟩
  | 0x02 => some ⟨true, true, false, 7, 0⟩
  | 0x03 => some ⟨true, true, false, 3, 0⟩
  | 0x04 => some ⟨true, true, true, 3, 0⟩
  | 0x05 => some ⟨true, true, true, 3, 0⟩
  | 0x06 => some ⟨true, true, false, 7, 0⟩
  | 0x07 => some ⟨true, true, false, 7, 0⟩
  | 0x08 => some ⟨true, false, false, 7, 0⟩
  | 0x09 => some ⟨true, false, false, 7, 0⟩
  | 0x0A => some ⟨true, false, false, 3, 0⟩
  | 0x0B => some ⟨true, false, false, 3, 0⟩
  | 0x0C => some ⟨true, false, false, 3, 0⟩
  | 0x0D => some ⟨true, false, false, 3, 0⟩
  | 0x0E => some ⟨true, false, false, 3, 0⟩
  | 0x0F => some ⟨true, false, false, 3, 0⟩
  | 0x10 => some ⟨true, false, false, 3, 0⟩
  | 0x11 => some ⟨true, false, false, 3, 0⟩
  | 0x12 => some ⟨true, false, false, 3, 0⟩
  | 0x13 => some ⟨true, false, false, 3, 0⟩
  | 0x14 => some ⟨true, false, false, 3, 0⟩
  | 0x15 => some ⟨true, true, false, 3, 0⟩
  | 0x18 => some ⟨true, true, false, 7, 0⟩
  | 0x19 => some ⟨true, true, false, 7, 0⟩
  | 0x1A => some ⟨true, true, false, 7, 0⟩
  | 0x1B => some ⟨true, true, true, 1, 0⟩
  | 0x20 => some ⟨true, false, false, 1, 3⟩
  | 0x21 => some ⟨true, false, false, 1, 3⟩
  | 0x22 => some ⟨true, false, false, 1, 7⟩
  | 0x23 => some ⟨true, false, false, 1, 3⟩
  | 0x24 => some ⟨true, false, false, 1, 3⟩
  | 0x25 => some ⟨true, false, false, 1, 0⟩
  | 0x26 => some ⟨true, false, false, 1, 3⟩
  | 0x27 => some ⟨true, false, false, 1, 7⟩
  | 0x28 => some ⟨true, true, false, 1, 3⟩
  | 0x2C => some ⟨true, false, false, 5, 0⟩
  | 0x2D => some ⟨true, false, false, 7, 0⟩
  | 0x2E => some ⟨true, false, false, 7, 0⟩
  | 0x30 => some ⟨true, false, false, 1, 0⟩
  | 0x31 => some ⟨true, false, false, 1, 15⟩
  | 0x32 => some ⟨true, true, false, 1, 0⟩
  | 0x33 => some ⟨true, false, false, 1, 63⟩
  | 0x34 => some ⟨true, false, false, 1, 63⟩
  | 0x38 => some ⟨true, true, false, 4, 0⟩
  | 0x39 => some ⟨true, true, false, 4, 0⟩
  | 0x3A => some ⟨true, true, false, 4, 0⟩
  | 0x3B => some ⟨true, true, false, 4, 0⟩
  | 0x3C => some ⟨true, true, false, 4, 0⟩
  | 0x3D => some ⟨true, false, false, 4, 31⟩
  | 0x3E => some ⟨true, false, false, 4, 63⟩
  | _ => none

/-- The rules of an IMM's values beyond its bits: reserved rounding and code values, and PACK's parts (Table 5-6). -/
def vuImmOk (op imm : Nat) : Bool :=
  if op ∈ [0x20, 0x21, 0x22, 0x23, 0x24, 0x26] then imm % 4 != 3
  else if op = 0x27 then decide (imm ≤ 5)
  else if op = 0x28 then decide (imm ≤ 2)
  else if op = 0x33 ∨ op = 0x34 then
    (imm % 8 == 0 && decide (imm / 8 < 2)) || (imm % 8 == 1 && decide (imm / 8 < 4)) || imm % 8 == 2
  else true

/-- R190: whether a vector word is valid; a word that is not makes the chart invalid, so that no unit ever runs it. -/
def vuValid (op : Nat) (i : VuArgs) : Bool :=
  match vuRow op with
  | none => false
  | some r =>
    (r.fmts / 2 ^ i.fmt % 2 == 1) && (r.a || i.sa == 0) && (r.b || i.sb == 0) && (r.c || i.sc == 0) &&
      decide (i.sa < 16) && decide (i.sb < 16) && decide (i.sc < 16) &&
      (i.dst == 14 || decide (i.dst < 12)) && (op != 0 || i.dst == 0) &&
      ((BitVec.ofNat 8 i.imm &&& ~~~(BitVec.ofNat 8 r.imm)) == 0) && decide (i.imm < 256) && vuImmOk op i.imm

/-- The inputs an instruction pops: IA or IB named by a source that its result names (R185). -/
def popsA (r : VuRow) (i : VuArgs) : Bool := (r.a && i.sa == 12) || (r.b && i.sb == 12) || (r.c && i.sc == 12)
def popsB (r : VuRow) (i : VuArgs) : Bool := (r.a && i.sa == 13) || (r.b && i.sb == 13) || (r.c && i.sc == 13)

/-- The operation counter that a vector OP counts in (Table 20-6). -/
def vuCounter (op : Nat) : Nat :=
  if (1 ≤ op ∧ op ≤ 9) ∨ op = 0x15 ∨ (0x18 ≤ op ∧ op ≤ 0x1B) ∨ (0x38 ≤ op ∧ op ≤ 0x3E) then 0x338
  else if 0x0A ≤ op ∧ op ≤ 0x14 then 0x340 else 0x348

/-- What an instruction sees: its three sources' lanes, the old destination, IMM, FMT, the element index of lane 0 and
the generator's inputs. -/
structure VuIn where
  a   : List W32
  b   : List W32
  c   : List W32
  old : List W32
  imm : Nat
  fmt : Nat
  idx : Nat
  gen : GenSeed
  deriving DecidableEq, Repr

/-- The head of a route, zero where it is not popped. -/
def headOr (c : Ce) (sink : Nat) (pop : Bool) : Item := if pop then (routeItems c sink).headD 0 else 0

def popIf (c : Ce) (sink : Nat) (pop : Bool) : Ce :=
  if pop then { c with routes := SMap.set c.routes sink (routeItems c sink).tail } else c

/-- The fields of a vector instruction (Table 5-4). -/
def vuFields (w : W32) : VuArgs :=
  ⟨0, 0, bitsOf w 25 24, bitsOf w 23 20, bitsOf w 19 16, bitsOf w 15 12, bitsOf w 11 8, bitsOf w 7 0⟩

/-- Whether the word at a vector unit's place is this instruction. -/
def atVu (p : Pkg) (op : Nat) (i : VuArgs) : Bool :=
  let w : W32 := BitVec.ofNat 32 (wordsHere p i.ce 2 i.vu 1)
  bitsOf w 31 26 == op && { vuFields w with ce := i.ce, vu := i.vu } == i

/-- R185: a vector instruction runs when every input it pops holds an item and its output, if named, holds a credit;
otherwise it waits. -/
def vuReady (p : Pkg) (op : Nat) (i : VuArgs) : Bool :=
  match vuRow op with
  | none => false
  | some r =>
    let c := ce p i.ce
    ceLive p i.ce && decide (i.vu < 16) && unitMay p i.ce 2 i.vu && atVu p op i && vuValid op i &&
      (!popsA r i || !(routeItems c (0x20 + 2 * i.vu)).isEmpty) &&
      (!popsB r i || !(routeItems c (0x21 + 2 * i.vu)).isEmpty) &&
      (i.dst != 14 || op == 0 || hasCredit (ceChart p i.ce) c (0x40 + i.vu))

/-- What an instruction that is ready sees. The old destination of a PACK whose DST is OUT is zero: the spec names no old value of an
output item, and the parts that the PACK does not write are zero in it (DESIGN CHOICE, log entry 84). -/
def vuInputs (p : Pkg) (op : Nat) (i : VuArgs) : VuIn :=
  let c := ce p i.ce
  let v := vu c i.vu
  match vuRow op with
  | none => ⟨[], [], [], [], 0, 0, 0, noSeed⟩
  | some r =>
    let ia := headOr c (0x20 + 2 * i.vu) (popsA r i)
    let ib := headOr c (0x21 + 2 * i.vu) (popsB r i)
    let k := kRegister (slot c (activeSlot p i.ce))
    ⟨lanes (vuSource v k ia ib i.sa), lanes (vuSource v k ia ib i.sb), lanes (vuSource v k ia ib i.sc),
      lanes (SMap.get v.regs i.dst 0), i.imm, i.fmt, 16 * v.outCount, genSeed (ceCmd p i.ce)⟩

/-- The CE after an instruction: inputs popped, the result in its destination (a vector register, or an item offered at
the output port), the unit's next word. -/
def vuRetire (p : Pkg) (op : Nat) (i : VuArgs) (res : Item) : Ce :=
  let c := ce p i.ce
  match vuRow op with
  | none => c
  | some r =>
    let c1 := popIf (popIf c (0x20 + 2 * i.vu) (popsA r i)) (0x21 + 2 * i.vu) (popsB r i)
    let v := vu c1 i.vu
    let c2 :=
      if op = 0 then c1
      else if i.dst = 14 then
        { offer (ceChart p i.ce) c1 (0x40 + i.vu) res with
          vus := SMap.set c1.vus i.vu { v with outCount := v.outCount + 1 } }
      else { c1 with vus := SMap.set c1.vus i.vu { v with regs := SMap.set v.regs i.dst res } }
    advanceUnit p i.ce 2 i.vu 1 c2

/-- One vector instruction whose result is `f` of what it sees; its 16 lane results count (R700). -/
def vuRun (op : Nat) (f : VuIn → List W32) (i : VuArgs) (p : Pkg) : Pkg :=
  if vuReady p op i then
    let p1 := setCe p i.ce (vuRetire p op i (ofLanes (f (vuInputs p op i))))
    if op = 0 then p1 else addReg p1 (key (pgCe i.ce) (vuCounter op)) 16
  else p

/-! ## Per-lane forms -/

/-- The BF16 value that a lane's upper half supplies (R187). -/
def bfIn (fmt : Nat) (x : W32) : W32 := if fmt = 1 then x &&& 0xFFFF0000 else x
def bfOut (fmt : Nat) (x : W32) : W32 := if fmt = 1 then roundBf16 x else x

/-- One source: an FP32 form used for FP32 and BF16, an INT32 form for FMT 2. -/
def un (f : W32 → W32) (g : W32 → W32) (x : VuIn) : List W32 :=
  x.a.map (fun a => if x.fmt = 2 then g a else bfOut x.fmt (f (bfIn x.fmt a)))

def bin (f : W32 → W32 → W32) (g : W32 → W32 → W32) (x : VuIn) : List W32 :=
  List.zipWith (fun a b => if x.fmt = 2 then g a b else bfOut x.fmt (f (bfIn x.fmt a) (bfIn x.fmt b))) x.a x.b

def tri (f : W32 → W32 → W32 → W32) (x : VuIn) : List W32 :=
  List.zipWith (fun ab c => bfOut x.fmt (f (bfIn x.fmt ab.1) (bfIn x.fmt ab.2) (bfIn x.fmt c)))
    (List.zip x.a x.b) x.c

/-- A comparison writes all ones or zero. -/
def cmpLane (f : W32 → W32 → Bool) (g : W32 → W32 → Bool) (x : VuIn) : List W32 :=
  List.zipWith (fun a b =>
    if (if x.fmt = 2 then g a b else f (bfIn x.fmt a) (bfIn x.fmt b)) then (0xFFFFFFFF : W32) else 0) x.a x.b

def sLt (a b : W32) : Bool := decide (a.toInt < b.toInt)
def fOrdered (a b : W32) : Bool := !isNan32 a && !isNan32 b

/-- 2^b applied exactly and rounded once (LDEXP). -/
def fLdexp (a b : W32) : W32 :=
  let x := dec32 a
  if x.tag = 3 then nan32
  else if x.tag ≠ 0 ∨ x.m = 0 then a
  else
    let sh := max (-600) (min 600 b.toInt)
    enc32 x.m (-149 + sh) (neg32 a)

/-- A signed integer m × 2^0 as FP32. -/
def i2f (a : W32) : W32 := enc32 a.toInt 0 false

/-- FP32 to INT32, saturating; NaN gives 0 (CVT_F2I). -/
def f2i (mode : Nat) (g : GenSeed) (idx : Nat) (a : W32) : W32 :=
  let x := dec32 a
  if x.tag = 3 then 0
  else if x.tag = 1 then 0x7FFFFFFF
  else if x.tag = 2 then 0x80000000
  else
    let (q, low, k) := splitAt x.m.natAbs 149
    let q := applyRound q low k mode g idx
    if x.m < 0 then BitVec.ofInt 32 (-(min q (2 ^ 31) : Nat)) else BitVec.ofNat 32 (min q (2 ^ 31 - 1))

/-- An FP32 lane converted to a narrow format by the procedure of R261 (R264), SHIFT 0 and SAT 0. -/
def cvtTo (f : Fmt) (x : VuIn) : List W32 :=
  x.a.zipIdx.map (fun al =>
    BitVec.ofNat 32 (convert f (dec32 al.1) (-149) (x.imm % 4) false x.gen (x.idx + al.2)))

/-- A narrow value in the low bits of a lane widened to FP32, exactly (WIDEN). -/
def widenLane (code : Nat) (a : W32) : W32 :=
  let f := fmtOf (match code with | 0 => 6 | 1 => 7 | 2 => 3 | 3 => 4 | 4 => 0 | _ => 5)
  let v := decodeElem f (a.toNat % 2 ^ f.bits)
  if v.tag ≠ 0 then tag32 v.tag
  else enc32 v.m f.unit (decide (v.m = 0) && f.code != 5 && (a.toNat / 2 ^ (f.bits - 1) % 2 == 1))

/-- R189: the fixed tree over 16 lanes. -/
def laneTree (f : W32 → W32 → W32) (l : List W32) : W32 :=
  let g (i : Nat) := l.getD i 0
  let h (o : Nat) :=
    f (f (f (g o) (g (o + 1))) (f (g (o + 2)) (g (o + 3)))) (f (f (g (o + 4)) (g (o + 5))) (f (g (o + 6)) (g (o + 7))))
  f (h 0) (h 8)

def reduceLanes (f : W32 → W32 → W32) (g : W32 → W32 → W32) (x : VuIn) : List W32 :=
  let r := if x.fmt = 2 then laneTree g x.a
    else laneTree (fun a b => bfOut x.fmt (f a b)) (x.a.map (bfIn x.fmt))
  List.replicate 16 r

def sMin (a b : W32) : W32 := if sLt b a then b else a
def sMax (a b : W32) : W32 := if sLt a b then b else a

/-- The width in bits of a PACK or UNPACK part. -/
def packWidth (imm : Nat) : Nat := match imm % 8 with | 0 => 16 | 1 => 8 | _ => 4

def packBytes (l : List W32) (w : Nat) : Nat := l.foldr (fun x acc => x.toNat % 2 ^ w + 2 ^ w * acc) 0

/-- PACK: the low bits of a's lanes fill one part of the destination; its other parts are kept. -/
def packLanes (x : VuIn) : List W32 :=
  let w := packWidth x.imm
  let part := x.imm / 8
  lanes (withBits (ofLanes x.old) (16 * w * (part + 1) - 1) (16 * w * part) (packBytes x.a w))

def unpackLanes (x : VuIn) : List W32 :=
  let w := packWidth x.imm
  let part := x.imm / 8
  (List.range 16).map (fun l => BitVec.ofNat 32 (bitsOf (ofLanes x.a) (16 * w * part + w * l + w - 1) (16 * w * part + w * l)))

/-! ## The meanings -/

def execVuNop (i : VuArgs) (s : State) : Out := .next (s.onPkg (vuRun 0x00 (fun _ => []) i))
def execVuAdd (i : VuArgs) (s : State) : Out := .next (s.onPkg (vuRun 0x01 (bin fAdd (· + ·)) i))
def execVuSub (i : VuArgs) (s : State) : Out := .next (s.onPkg (vuRun 0x02 (bin fSub (· - ·)) i))
def execVuMul (i : VuArgs) (s : State) : Out := .next (s.onPkg (vuRun 0x03 (bin fMul (· * ·)) i))
def execVuFma (i : VuArgs) (s : State) : Out := .next (s.onPkg (vuRun 0x04 (tri fFma) i))
def execVuFms (i : VuArgs) (s : State) : Out := .next (s.onPkg (vuRun 0x05 (tri fFms) i))
def execVuMin (i : VuArgs) (s : State) : Out := .next (s.onPkg (vuRun 0x06 (bin fMin sMin) i))
def execVuMax (i : VuArgs) (s : State) : Out := .next (s.onPkg (vuRun 0x07 (bin fMax sMax) i))
def execVuAbs (i : VuArgs) (s : State) : Out :=
  .next (s.onPkg (vuRun 0x08 (un fAbs (fun a => if sLt a 0 then 0 - a else a)) i))
def execVuNeg (i : VuArgs) (s : State) : Out := .next (s.onPkg (vuRun 0x09 (un fNeg (fun a => 0 - a)) i))
def execVuRcp (i : VuArgs) (s : State) : Out := .next (s.onPkg (vuRun 0x0A (un fRcp id) i))
def execVuRsqrt (i : VuArgs) (s : State) : Out := .next (s.onPkg (vuRun 0x0B (un fRsqrt id) i))
def execVuSqrt (i : VuArgs) (s : State) : Out := .next (s.onPkg (vuRun 0x0C (un fSqrt id) i))
def execVuExp2 (i : VuArgs) (s : State) : Out := .next (s.onPkg (vuRun 0x0D (un fExp2 id) i))
def execVuLog2 (i : VuArgs) (s : State) : Out := .next (s.onPkg (vuRun 0x0E (un fLog2 id) i))
def execVuTanh (i : VuArgs) (s : State) : Out := .next (s.onPkg (vuRun 0x0F (un fTanh id) i))
def execVuSigmoid (i : VuArgs) (s : State) : Out := .next (s.onPkg (vuRun 0x10 (un fSigmoid id) i))
def execVuGelu (i : VuArgs) (s : State) : Out := .next (s.onPkg (vuRun 0x11 (un fGelu id) i))
def execVuSilu (i : VuArgs) (s : State) : Out := .next (s.onPkg (vuRun 0x12 (un fSilu id) i))
def execVuSinpi (i : VuArgs) (s : State) : Out := .next (s.onPkg (vuRun 0x13 (un fSinpi id) i))
def execVuCospi (i : VuArgs) (s : State) : Out := .next (s.onPkg (vuRun 0x14 (un fCospi id) i))

/-- LDEXP takes b as an INT32 lane whatever FMT is. -/
def execVuLdexp (i : VuArgs) (s : State) : Out :=
  .next (s.onPkg (vuRun 0x15 (fun x =>
    List.zipWith (fun a b => bfOut x.fmt (fLdexp (bfIn x.fmt a) b)) x.a x.b) i))

def execVuCmplt (i : VuArgs) (s : State) : Out :=
  .next (s.onPkg (vuRun 0x18 (cmpLane (fun a b => fOrdered a b && decide (cmp32 a b < 0)) sLt) i))
def execVuCmple (i : VuArgs) (s : State) : Out :=
  .next (s.onPkg (vuRun 0x19 (cmpLane (fun a b => fOrdered a b && decide (cmp32 a b ≤ 0)) (fun a b => !sLt b a)) i))
def execVuCmpeq (i : VuArgs) (s : State) : Out :=
  .next (s.onPkg (vuRun 0x1A (cmpLane (fun a b => fOrdered a b && decide (cmp32 a b = 0)) (· == ·)) i))

/-- SEL tests c's lane bits for zero. -/
def execVuSel (i : VuArgs) (s : State) : Out :=
  .next (s.onPkg (vuRun 0x1B (fun x =>
    List.zipWith (fun ab c => if c ≠ 0 then ab.1 else ab.2) (List.zip x.a x.b) x.c) i))

def execVuCvtBf16 (i : VuArgs) (s : State) : Out := .next (s.onPkg (vuRun 0x20 (cvtTo (fmtOf 6)) i))
def execVuCvtFp16 (i : VuArgs) (s : State) : Out := .next (s.onPkg (vuRun 0x21 (cvtTo (fmtOf 7)) i))
def execVuCvtFp8 (i : VuArgs) (s : State) : Out :=
  .next (s.onPkg (vuRun 0x22 (fun x => cvtTo (fmtOf (if x.imm / 4 % 2 = 0 then 3 else 4)) x) i))
def execVuCvtFp4 (i : VuArgs) (s : State) : Out := .next (s.onPkg (vuRun 0x23 (cvtTo (fmtOf 0)) i))
def execVuCvtInt8 (i : VuArgs) (s : State) : Out := .next (s.onPkg (vuRun 0x24 (cvtTo (fmtOf 5)) i))
def execVuCvtI2f (i : VuArgs) (s : State) : Out := .next (s.onPkg (vuRun 0x25 (fun x => x.a.map i2f) i))
def execVuCvtF2i (i : VuArgs) (s : State) : Out :=
  .next (s.onPkg (vuRun 0x26 (fun x => x.a.zipIdx.map (fun al => f2i (x.imm % 4) x.gen (x.idx + al.2) al.1)) i))
def execVuWiden (i : VuArgs) (s : State) : Out :=
  .next (s.onPkg (vuRun 0x27 (fun x => x.a.map (widenLane x.imm)) i))

/-- MXSCALE: the block's E8M0 scale in bits [7:0] of every lane; the spec states no formula for it, so it is a free
value of the block and the target format. -/
def execVuMxscale (i : VuArgs) (s : State) : Out :=
  .next (s.onPkg (vuRun 0x28 (fun x =>
    List.replicate 16 ((Config.mxScale x.imm (ofLanes x.a) (ofLanes x.b)).setWidth 32)) i))

def execVuRsum (i : VuArgs) (s : State) : Out := .next (s.onPkg (vuRun 0x2C (reduceLanes fAdd (· + ·)) i))
def execVuRmax (i : VuArgs) (s : State) : Out := .next (s.onPkg (vuRun 0x2D (reduceLanes fMax sMax) i))
def execVuRmin (i : VuArgs) (s : State) : Out := .next (s.onPkg (vuRun 0x2E (reduceLanes fMin sMin) i))
def execVuMov (i : VuArgs) (s : State) : Out := .next (s.onPkg (vuRun 0x30 (fun x => x.a) i))
def execVuBcast (i : VuArgs) (s : State) : Out :=
  .next (s.onPkg (vuRun 0x31 (fun x => List.replicate 16 (x.a.getD (x.imm % 16) 0)) i))
def execVuShuf (i : VuArgs) (s : State) : Out :=
  .next (s.onPkg (vuRun 0x32 (fun x => x.b.map (fun b => x.a.getD (b.toNat % 16) 0)) i))
def execVuPack (i : VuArgs) (s : State) : Out := .next (s.onPkg (vuRun 0x33 packLanes i))
def execVuUnpack (i : VuArgs) (s : State) : Out := .next (s.onPkg (vuRun 0x34 unpackLanes i))
def execVuIadd (i : VuArgs) (s : State) : Out := .next (s.onPkg (vuRun 0x38 (bin fAdd (· + ·)) i))
def execVuImul (i : VuArgs) (s : State) : Out := .next (s.onPkg (vuRun 0x39 (bin fMul (· * ·)) i))
def execVuAnd (i : VuArgs) (s : State) : Out := .next (s.onPkg (vuRun 0x3A (bin fAdd (· &&& ·)) i))
def execVuOr (i : VuArgs) (s : State) : Out := .next (s.onPkg (vuRun 0x3B (bin fAdd (· ||| ·)) i))
def execVuXor (i : VuArgs) (s : State) : Out := .next (s.onPkg (vuRun 0x3C (bin fAdd (· ^^^ ·)) i))
def execVuShl (i : VuArgs) (s : State) : Out :=
  .next (s.onPkg (vuRun 0x3D (fun x => x.a.map (fun a : W32 => a <<< (x.imm % 32))) i))
def execVuShr (i : VuArgs) (s : State) : Out :=
  .next (s.onPkg (vuRun 0x3E (fun x => x.a.map (fun a : W32 =>
    if x.imm / 32 % 2 = 1 then a.sshiftRight (x.imm % 32) else a >>> (x.imm % 32))) i))

end Sys2Proof.Machine
end

