-- ==== Sys2Proof/Machine/Chart.lean ====
section
/-! DEFINITION. Chart images: their layout and the checks of Table 5-11 (spec/05 R183, R190, R194, R205 to R207, spec/06
R211, R222, R223, R233, spec/07 R257), and the chart store (R196 to R203). -/

namespace Sys2Proof.Machine

/-! ## Bytes of an image -/

/-- The address of a virtual address under a list of translated leaves. -/
def leafAddr (pages : List Xlate) (va : Nat) : Option Nat :=
  (pages.find? (fun x => decide (x.va ≤ va / 4096) && decide (va / 4096 < x.va + x.pages))).map (fun x => x.addr va)

/-- `n` bytes from a virtual address on, lowest first; a byte without a translation reads as zero. -/
def bytesAt (m : Memory) (pages : List Xlate) (va n : Nat) : List Nat :=
  (List.range n).map (fun i =>
    match leafAddr pages (va + i) with
    | some a => (m.byte a).toNat
    | none => 0)

/-- Whether a line of `n` bytes from a virtual address on is poisoned. -/
def poisonAt (m : Memory) (pages : List Xlate) (va n : Nat) : Bool :=
  (List.range (ceilDiv n 64)).any (fun i =>
    match leafAddr pages (va + 64 * i) with
    | some a => m.poisoned a 64
    | none => false)

/-- The little-endian number in bytes `at'` to `at' + n - 1`. -/
def leAt (b : List Nat) (at' n : Nat) : Nat := ((b.drop at').take n).foldr (fun x acc => x + 256 * acc) 0

def crcByte (c : Nat) (x : Nat) : Nat :=
  (List.range 8).foldl (fun c _ => if c % 2 = 1 then c / 2 ^^^ 0xEDB88320 else c / 2) (c ^^^ x)

/-- CRC-32 of IEEE 802.3. -/
def crc32 (b : List Nat) : Nat := b.foldl crcByte 0xFFFFFFFF ^^^ 0xFFFFFFFF

/-- The CRC over an image with its CRC field, bytes 60 to 63, taken as 0 (Table 5-9). -/
def imageCrc (b : List Nat) : Nat := crc32 (b.take 60 ++ [0, 0, 0, 0] ++ b.drop 64)

/-! ## Layout (Tables 5-9, 5-10) -/

def unitRec (b : List Nat) : UnitRec :=
  ⟨leAt b 0 1, leAt b 1 1, leAt b 2 1, leAt b 4 4, leAt b 8 2, leAt b 10 2, leAt b 12 4⟩

def parseChart (b : List Nat) : Chart :=
  let nu := leAt b 8 2
  let nr := leAt b 10 2
  let code := 64 + 16 * nu + 8 * nr
  { version := leAt b 0 1, crc := leAt b 60 4, exactWide := (leAt b 2 2).testBit 0, stochastic := (leAt b 2 2).testBit 1,
    operatorId := leAt b 32 2, longAccs := leAt b 34 2, phases := leAt b 12 1, size := leAt b 4 4,
    units := (List.range nu).map (fun i => unitRec (b.drop (64 + 16 * i))),
    routes := (List.range nr).map (fun i =>
      let r := b.drop (64 + 16 * nu + 8 * i)
      ⟨leAt r 0 1, leAt r 1 1, leAt r 2 1, leAt r 3 1⟩),
    code := (List.range (leAt b 28 4 / 4)).map (fun i => BitVec.ofNat 32 (leAt b (code + 4 * i) 4)) }

/-- Sizes, offsets and counts as in Table 5-9, reserved bytes and padding zero. -/
def headerOk (b : List Nat) : Bool :=
  let nu := leAt b 8 2
  let nr := leAt b 10 2
  let code := 64 + 16 * nu + 8 * nr
  let size := leAt b 4 4
  let csize := leAt b 28 4
  leAt b 1 1 == 64 && decide (leAt b 2 2 < 4) && decide (128 ≤ size ∧ size ≤ 65536) && size % 16 == 0 &&
    decide (1 ≤ nu ∧ nu ≤ 54) && decide (nr ≤ 512) && decide (1 ≤ leAt b 12 1 ∧ leAt b 12 1 ≤ 8) && leAt b 15 1 == 0 &&
    leAt b 16 4 == 64 && leAt b 20 4 == 64 + 16 * nu && leAt b 24 4 == code && csize % 4 == 0 &&
    decide (code + csize ≤ size) && decide (leAt b 34 2 ≤ 4096) && leAt b 36 12 == 0 && leAt b 56 4 == 0 &&
    ((b.take size).drop (code + csize)).all (· == 0) &&
    (List.range nu).all (fun i => leAt b (64 + 16 * i + 3) 1 == 0) &&
    (List.range nr).all (fun i => leAt b (64 + 16 * nu + 8 * i + 4) 4 == 0)

def unitIndexOk (u : UnitRec) : Bool :=
  match u.typ with
  | 0 => u.index == 0 && u.mode == 0
  | 1 => decide (u.index < 8) && decide (u.mode < 3)
  | 2 => decide (u.index < 16) && u.mode == 0
  | 3 => decide (u.index < 12) && u.mode == 0
  | 4 => decide (u.index < 12) && u.mode == 0
  | 5 => decide (u.index < 4) && u.mode == 0
  | 6 => u.index == 0 && u.mode == 0
  | _ => false

/-- The words of a descriptor of a unit type. -/
def wordsPer (typ : Nat) : Nat := if typ = 3 ∨ typ = 4 then 4 else if typ = 5 then 8 else 1

/-- R206: one SQ record, no unit twice, code ranges inside the code section and on descriptor boundaries. -/
def unitsOk (ch : Chart) : Bool :=
  (ch.units.filter (fun u => u.typ == 0)).length == 1 &&
    ((ch.units.map (fun u => (u.typ, u.index))).eraseDups.length == ch.units.length) &&
    ch.units.all (fun u => unitIndexOk u && decide (1 ≤ u.codeSize ∧ u.codeSize ≤ 16384) &&
      decide (u.codeOff + u.codeSize ≤ ch.code.length) && decide (u.loopStart < u.codeSize) &&
      u.codeSize % wordsPer u.typ == 0 && u.loopStart % wordsPer u.typ == 0 &&
      (u.repeats != 0xFFFFFFFF || isProject ch) && (u.typ != 0 || u.repeats == 0))

/-! ## Code words -/

def sqWordOk (ch : Chart) (u : UnitRec) (i : Nat) (w : W32) : Bool :=
  let arg := bitsOf w 23 0
  match bitsOf w 31 24 with
  | 2 => decide (arg < ch.phases)
  | 3 => decide (arg / 4096 ≤ i) && decide (arg / 4096 < u.codeSize)
  | op => decide (op ≤ 8) && arg == 0

/-- R211, R223 and reserved codes of a FORMAT word. -/
def formatOk (ch : Chart) (u : UnitRec) (w : W32) : Bool :=
  let a := bitsOf w 27 24
  let b := bitsOf w 23 20
  decide (a < 13) && decide (b < 13) && bitsOf w 16 0 == 0 &&
    ((plainCode a == 0) == (plainCode b == 0)) && (is16 a == is16 b) && (isMx a == isMx b) && ((a == 5) == (b == 5)) &&
    !(is16 a && u.mode != 2 && !ch.exactWide)

/-- Table 6-6; a FORMAT word comes before the first word that needs it, a pass keeps the lengths of R222. -/
def octWordOk (ch : Chart) (u : UnitRec) (i : Nat) (w : W32) : Bool :=
  let fmt := ((unitCode ch u).take i).reverse.find? (fun x => bitsOf x 31 28 == 1)
  let set := fmt.isSome
  let mx := fmt.any (fun x => isMx (bitsOf x 27 24))
  match bitsOf w 31 28 with
  | 0 => bitsOf w 27 0 == 0
  | 1 => formatOk ch u w
  | 2 => bitsOf w 27 0 == 0 && i + 1 == u.codeSize && u.repeats == 0 && set
  | 3 => bitsOf w 26 0 == 0 && set
  | 4 => bitsOf w 18 16 == 0 && set &&
      (if u.mode = 2 then decide (7 ≤ bitsOf w 15 0) else decide (bitsOf w 15 0 < 64)) &&
      (!mx || (bitsOf w 15 0 + 1) % 32 == 0)
  | 5 => bitsOf w 27 8 == 0
  | _ => false

def usesSeed (op imm : Nat) : Bool := (op ∈ [0x20, 0x21, 0x22, 0x23, 0x24, 0x26]) && imm % 4 == 1

def hasSource (ch : Chart) (port : Nat) : Bool := ch.routes.any (fun r => r.source == port)
def hasSink (ch : Chart) (port : Nat) : Bool := ch.routes.any (fun r => r.sink == port)

/-- R190, R257's stochastic flag, and a route for every port used. -/
def vuWordOk (ch : Chart) (u : UnitRec) (w : W32) : Bool :=
  let op := bitsOf w 31 26
  let i := vuFields w
  vuValid op i && (ch.stochastic || !usesSeed op i.imm) &&
    (match vuRow op with
     | some r => (!popsA r i || hasSink ch (0x20 + 2 * u.index)) && (!popsB r i || hasSink ch (0x21 + 2 * u.index)) &&
         (i.dst != 14 || op == 0 || hasSource ch (0x40 + u.index))
     | none => false)

def agOk (l : List W32) : Bool := let x := wordsNat l; x / 2 % 2 ^ 15 == 0 && x / 2 ^ 26 % 2 ^ 6 == 0

def muCount (x d : Nat) : Nat := x / 2 ^ (64 + 16 * d) % 65536

/-- R181, R183 and the mover checks of Table 5-11. -/
def muOk (l : List W32) : Bool :=
  let x := wordsNat l
  let op := x % 256
  let fl := x / 2 ^ 16 % 256
  let st := op == 2 || op == 4
  decide (op ≤ 5) && decide (x / 256 % 256 ≤ 5) && decide (fl < 4) && (st || fl == 0) && x / 2 ^ 24 % 256 == 0 &&
    x / 2 ^ 32 % 64 == 0 && (List.range 4).all (fun d => x / 2 ^ (128 + 32 * d) % 64 == 0 && muCount x d != 0) &&
    (!st || decide (((List.range (fl + 1)).foldl (fun a d => a * muCount x d) 1) ≤ 1024))

/-- A slot range of a long store word. -/
def lsSlots (ch : Chart) (first count : Nat) : Bool :=
  decide (first + count ≤ 64) && decide (64 * (first + count) ≤ ch.longAccs)

def lsPorts (ch : Chart) (n : Nat) (pair : Bool) : Bool :=
  !(pair && n % 2 == 1) && hasSource ch (0x70 + n) && (!pair || hasSource ch (0x71 + n))

/-- R257. -/
def lsWordOk (ch : Chart) (u : UnitRec) (i : Nat) (w : W32) : Bool :=
  match bitsOf w 31 28 with
  | 0 => bitsOf w 27 0 == 0
  | 1 => decide (bitsOf w 27 24 < 9) && bitsOf w 23 22 != 3 && bitsOf w 12 0 == 0 &&
      (ch.stochastic || bitsOf w 23 22 != 1)
  | 2 => bitsOf w 11 0 == 0 && lsSlots ch (bitsOf w 24 19) (bitsOf w 18 13 + 1) && lsPorts ch (bitsOf w 27 26) (bitOf w 12)
  | 3 => bitsOf w 13 0 == 0 && lsSlots ch (bitsOf w 25 20) (bitsOf w 19 14 + 1)
  | 4 => bitsOf w 27 26 == 0 && bitsOf w 13 0 == 0 && lsSlots ch (bitsOf w 25 20) (bitsOf w 19 14 + 1)
  | 5 => bitsOf w 23 0 == 0 && isProject ch && i + 1 == u.codeSize && u.repeats == 0 &&
      lsPorts ch (bitsOf w 27 26) (bitOf w 24)
  | _ => false

def codeOk (ch : Chart) (u : UnitRec) : Bool :=
  let l := unitCode ch u
  let each (f : Nat → W32 → Bool) : Bool := (List.range l.length).all (fun i => f i (l.getD i 0))
  match u.typ with
  | 0 => each (sqWordOk ch u)
  | 1 => each (octWordOk ch u)
  | 2 => each (fun _ w => vuWordOk ch u w)
  | 5 => (List.range (l.length / 8)).all (fun i => muOk ((l.drop (8 * i)).take 8))
  | 6 => each (lsWordOk ch u)
  | _ => (List.range (l.length / 4)).all (fun i => agOk ((l.drop (4 * i)).take 4))

/-! ## Routes -/

/-- The unit (type, index) of a source port, and of a sink port (Table 5-1). -/
def sourceUnit (port : Nat) : Option (Nat × Nat) :=
  if port < 0x0C then some (3, port)
  else if 0x40 ≤ port ∧ port < 0x50 then some (2, port - 0x40)
  else if 0x50 ≤ port ∧ port < 0x54 then some (5, port - 0x50)
  else if 0x70 ≤ port ∧ port < 0x74 then some (6, 0)
  else none

def sinkUnit (port : Nat) : Option (Nat × Nat) :=
  if 0x10 ≤ port ∧ port < 0x1C then some (4, port - 0x10)
  else if 0x20 ≤ port ∧ port < 0x40 then some (2, (port - 0x20) / 2)
  else if 0x54 ≤ port ∧ port < 0x58 then some (5, port - 0x54)
  else if 0x60 ≤ port ∧ port < 0x70 then some (1, port % 8)
  else if 0x74 ≤ port ∧ port < 0x78 then some (6, 0)
  else none

def listed (ch : Chart) (x : Option (Nat × Nat)) : Bool :=
  match x with
  | some (t, i) => (findUnit ch t i).isSome
  | none => false

def routesOk (ch : Chart) : Bool :=
  ch.routes.all (fun r => listed ch (sourceUnit r.source) && listed ch (sinkUnit r.sink) && r.phases != 0 &&
    decide (r.phases < 2 ^ ch.phases) && decide (2 ≤ r.depth ∧ r.depth ≤ 8)) &&
  (List.range ch.phases).all (fun ph =>
    let act := ch.routes.filter (fun r => r.phases.testBit ph)
    act.all (fun r => decide ((act.filter (fun x => x.source == r.source)).length ≤ 4) &&
      (act.filter (fun x => x.sink == r.sink)).length == 1))

/-- R207: the status and DETAIL of an image; 0 where it passes every check of Table 5-11. -/
def chartStatus (b : List Nat) : Nat × Nat :=
  if leAt b 0 1 ≠ 1 then (0x30, 1)
  else if leAt b 13 1 ≠ 1 then (0x30, 2)
  else if 1 < leAt b 14 1 then (0x30, 3)
  else if imageCrc b ≠ leAt b 60 4 ∨ headerOk b = false then (0x31, 9)
  else
    let ch := parseChart b
    if unitsOk ch && routesOk ch && ch.units.all (codeOk ch) then (0, 0) else (0x31, 9)

/-! ## The chart store -/

def currentSlot (c : Ce) (handle : W64) : Option Nat :=
  (c.slots.find? (fun x => x.2.handle == handle && x.2.current && (x.2.state == 2 || x.2.state == 3))).map (·.1)

def setSlot (p : Pkg) (n i : Nat) (s : Slot) : Pkg :=
  let c := ce p n
  setCe p n { c with slots := SMap.set c.slots i s }

/-- The slot that a dispatched RUN which has not started names: the one current for its handle. -/
def namedSlot (p : Pkg) (n : Nat) : Option Nat :=
  match (ce p n).cmd with
  | some id => if dOpcode (cmd p id).desc = 2 then currentSlot (ce p n) (dHandle (cmd p id).desc) else none
  | none => none

/-- R197: the slot that a load fills: the lowest EMPTY one, else the RESIDENT one whose chart ran least recently; never the one that
a dispatched RUN names. A chart that has not run since its load counts as run before all others, and of two that ran equally long
ago the lower slot goes (DESIGN CHOICE, log entry 91). -/
def loadSlot (p : Pkg) (n : Nat) : Option Nat :=
  let c := ce p n
  match (List.range 4).find? (fun i => (slot c i).state == 0) with
  | some i => some i
  | none =>
    let l := (List.range 4).filter (fun i => (slot c i).state == 2 && namedSlot p n != some i)
    match l with
    | [] => none
    | i0 :: _ => some (l.foldl (fun a i => if (slot c i).lastRan < (slot c a).lastRan then i else a) i0)

/-- Whether the slot current for a handle on a CE holds the chart with a CRC. -/
def chartCurrent (p : Pkg) (n : Nat) (handle : W64) (crc : Nat) : Bool :=
  match currentSlot (ce p n) handle with
  | some i => (slot (ce p n) i).chart.crc == crc
  | none => false

/-- A load of a chart begins on a CE for a command, from the image that the command names (R196), or its chart is current already;
none while another load runs or no slot is free. -/
def beginLoad (p : Pkg) (n id : Nat) (e : DirEnt) : Option (Bool × Pkg) :=
  if chartCurrent p n e.handle e.crc then some (true, p)
  else if (List.range 4).any (fun i => (slot (ce p n) i).state == 1) then none
  else (loadSlot p n).map (fun j => (false, setSlot p n j
    { Slot.empty with handle := e.handle, state := 1, forCmd := id, va := e.va, pages := e.pages }))

def dirOf (p : Pkg) (ctx : Nat) : List DirEnt := SMap.get p.qm.dirs ctx []
def setDirs (p : Pkg) (ctx : Nat) (l : List DirEnt) : Pkg := { p with qm := { p.qm with dirs := SMap.set p.qm.dirs ctx l } }
def dirFind (p : Pkg) (ctx : Nat) (h : W64) : Option DirEnt := (dirOf p ctx).find? (fun e => e.handle == h)

/-- The directory entry of a failed CHART_LOAD is restored, or freed if it was new (R287); an entry that a later CHART_LOAD has taken
over stays as that one left it (DESIGN CHOICE, log entry 91). -/
def restoreDir (p : Pkg) (id : Nat) : Pkg :=
  match p.qm.oldDirs.find? (fun x => x.1 == id) with
  | some (_, old) =>
    let c := cmd p id
    if (dirFind p c.ctx (dHandle c.desc)).any (fun e => e.crc == c.foldCrc && e.va == (dOperand c.desc 0).addr) then
      let rest := (dirOf p c.ctx).filter (fun e => e.handle != dHandle c.desc)
      setDirs p c.ctx (match old with | some e => e :: rest | none => rest)
    else p
  | none => p

/-- A CHART_LOAD has had all its answers: DONE, or its first failure with the directory restored. -/
def endChartLoad (p : Pkg) (id : Nat) : Pkg :=
  let c := cmd p id
  let p1 := if c.status ≠ 0 then restoreDir p id else p
  let q : QmSt := { p1.qm with oldDirs := SMap.drop p1.qm.oldDirs (fun k => k == id) }
  finishCmd { p1 with qm := q } id c.status c.detail

/-- A CE has answered a CHART_LOAD. -/
def chartLoadAnswer (p : Pkg) (id n status detail : Nat) : Pkg :=
  let c := cmd p id
  let c1 : Cmd := { c with
    ces := c.ces.filter (· != n), lastCe := n
    status := if c.status = 0 then status else c.status, detail := if c.status = 0 then detail else c.detail }
  let p1 := setCmd p id c1
  if c1.ces.isEmpty then endChartLoad p1 id else p1

/-- The validated chart takes its slot: any slot current for the handle before is superseded (R198). Its 16 parameters are zero, those
written while it was LOADING too (R200; DESIGN CHOICE, log entry 91). -/
def installChart (p : Pkg) (n i : Nat) (ch : Chart) : Pkg :=
  let c := ce p n
  let h := (slot c i).handle
  let others : SMap Slot := c.slots.map (fun (x : Nat × Slot) =>
    if x.1 ≠ i ∧ x.2.handle = h ∧ x.2.current = true then
      (x.1, if x.2.state = 3 then { x.2 with current := false, superseded := true } else Slot.empty)
    else x)
  let s : Slot := { Slot.empty with handle := h, state := 2, current := true, chart := ch, lastRan := (slot c i).lastRan }
  setCe p n { c with slots := SMap.set others i s }

/-- R198: the last byte of an image arrives: it is validated, and its slot becomes current or EMPTY. A CHART_LOAD has
one answer more; a RUN whose load failed completes with that status (R287). CE_CHART_LOADS and CE_CHART_REJECTS count every load
that ends here, also one made for a RUN, and no CHART_LOAD that finds its chart current (DESIGN CHOICE, log entry 91). -/
def doChartImageArrived (n i : Nat) (m : Memory) (p : Pkg) : Pkg :=
  let s := slot (ce p n) i
  if ceOk n && decide (i < 4) && s.state == 1 && hasCmd p s.forCmd then
    let id := s.forCmd
    let c := cmd p id
    let size := leAt (bytesAt m s.pages s.va 64) 4 4
    let b := bytesAt m s.pages s.va (max 64 (min size 65536))
    let st := if poisonAt m s.pages s.va b.length then (0x10, 0) else chartStatus b
    let p1 := if st.1 = 0 then bumpReg (installChart p n i (parseChart b)) (key (pgCe n) 0x160) 1 0xFFFFFFFF
      else raiseBlock (bumpReg (setSlot p n i Slot.empty) (key (pgCe n) 0x164) 1 0xFFFFFFFF) (pgCe n) 0
    let p2 := waypoint p1 (pgCe n) 0x13 i st.1
    if dOpcode c.desc = 1 then chartLoadAnswer p2 id n st.1 st.2
    else if st.1 = 0 then p2
    else endOnCe p2 n id st.1 st.2
  else p

def execChartImageArrived (n i : Nat) (s : State) : Out := .next (s.onPkg (doChartImageArrived n i s.mem))

/-! ## Parameters and aborts -/

/-- R200: CE_CHART_PARAMj of the slot that CE_PARAM_SLOT selects: the ACTIVE slot's shadow, or any other slot at once. A write in
the instant of the boundary that ended its being ACTIVE, at the same reading of the datum, comes after that boundary and applies at
the following one (R204; log entry 90). -/
def putChartParam (n j : Nat) (value : W64) (p : Pkg) : Pkg :=
  let c := ce p n
  let i := fld p (key (pgCe n) 0x11C) 1 0
  let s := slot c i
  let sh := SMap.set (if s.pendingShadow then s.shadow else s.params) j value
  if s.state = 3 ∨ s.endedAt = p.pace.datum + 1 then setSlot p n i { s with shadow := sh, pendingShadow := true }
  else setSlot p n i { s with params := SMap.set s.params j value, shadow := if s.pendingShadow then sh else s.shadow }

def doChartParamWrite (rq : Requester) (n j : Nat) (value : W64) (p : Pkg) : Pkg :=
  if ceOk n ∧ j < 16 then ifWrites p rq (pgCe n) (0x200 + 8 * j) (putChartParam n j value) else p

def execChartParamWrite (rq : Requester) (n j : Nat) (value : W64) (s : State) : Out :=
  .next (s.onPkg (doChartParamWrite rq n j value))

/-- R201: the running command is stopped and completes ABORTED, cause 0; without one there is no effect. -/
def putCeAbort (n : Nat) (value : W64) (p : Pkg) : Pkg :=
  if bitOf value 0 && (ce p n).cmd.isSome then stopWith (abortPoint p n 0) n 0x40 0 else p

def doCeAbort (rq : Requester) (n : Nat) (value : W32) (p : Pkg) : Pkg :=
  if ceOk n then ifWrites p rq (pgCe n) 0x114 (putCeAbort n (value.setWidth 64)) else p

def execCeAbort (rq : Requester) (n : Nat) (value : W32) (s : State) : Out := .next (s.onPkg (doCeAbort rq n value))

/-- R202: the internal abort. Cause 0 is an uncorrectable error in the ACTIVE slot, which empties it (R751); any other
cause is named by its own record. -/
def doInternalAbort (n cause : Nat) (p : Pkg) : Pkg :=
  if ceOk n && (ce p n).cmd.isSome then
    if cause = 0 then
      let i := activeSlot p n
      let p1 := logErr p (pgCe n) ⟨0x11, i, 0, 0, 1⟩
      setSlot (internalAbort p1 n) n i Slot.empty
    else internalAbort p n
  else p

def execInternalAbort (n cause : Nat) (s : State) : Out := .next (s.onPkg (doInternalAbort n cause))

end Sys2Proof.Machine
end

