-- ==== Sys2Proof/Machine/Sequencer.lean ====
section
/-! DEFINITION. The sequencer's words (spec/05 R194, R176, spec/09 R322 to R324), folds and rounds (spec/06 R237 to R240),
and the fold record (spec/08 R297, R298). -/

namespace Sys2Proof.Machine

/-- Whether the sequencer stands at the code word with an OP and an ARG (R194). -/
def sqAt (p : Pkg) (n op arg : Nat) : Bool := ceLive p n && unitMay p n 0 0 && atWord p n 0 0 (op * 2 ^ 24 + arg)

/-- The sequencer's next word. -/
def sqNext (p : Pkg) (n : Nat) : Pkg := setCe p n (advanceUnit p n 0 0 1 (ce p n))

def doSqNop (n : Nat) (p : Pkg) : Pkg := if sqAt p n 0 0 then sqNext p n else p
def execSqNop (n : Nat) (s : State) : Out := .next (s.onPkg (doSqNop n))

/-- Every unit but the sequencer has finished its code. -/
def unitsDone (p : Pkg) (n : Nat) : Bool :=
  (ceChart p n).units.all (fun u => u.typ == 0 || unitDone (ce p n) u)

/-- Whether an invalidation or a move waits for the command of a CE (R400, R484). -/
def mustPause (p : Pkg) (n : Nat) : Bool := (ceCmd p n).stale && (ceCmd p n).phase == .running

/-- R282, R522: a RELAXED command without FENCE_AFTER whose work is done has its status, and so its completion record, while its
output packets still commit; it keeps its CE until they have (log entry 92). -/
def relaxEnd (p : Pkg) (n id : Nat) : Pkg :=
  let c := cmd p id
  if dRelaxed c.desc && !dFenceAfter c.desc && c.phase == .running && !c.stale then
    let p1 := addCmdBeats p id n
    finishCmd (setCmd p1 id { cmd p1 id with startBeat := sheetBeats p1 n }) id 0 0
  else p

/-- The work of a command on a CE is done: it ends once every output packet has committed. An invalidated command first takes its
pause (R484). -/
def workEnds (p : Pkg) (n id : Nat) : Pkg :=
  if packetsDone p n then
    if mustPause p n then setCmd (setCe p n { ce p n with paused := true }) id { cmd p id with wasPaused := true }
    else endOnCe p n id 0 0
  else relaxEnd p n id

/-- END: every unit has finished and every output packet has committed; the command ends DONE. -/
def doSqEnd (n : Nat) (p : Pkg) : Pkg :=
  match (ce p n).cmd with
  | some id => if sqAt p n 1 0 && unitsDone p n then workEnds p n id else p
  | none => p

def execSqEnd (n : Nat) (s : State) : Out := .next (s.onPkg (doSqEnd n))

/-- R176: a phase change waits until every route active in the old phase and not in the new one is empty. -/
def doSqPhase (n phase : Nat) (p : Pkg) : Pkg :=
  let c := ce p n
  let ch := ceChart p n
  if sqAt p n 2 phase && decide (phase < 8 ∧ phase < ch.phases) &&
      ch.routes.all (fun r => !(r.phases.testBit c.phase && !r.phases.testBit phase) || (routeItems c r.sink).isEmpty) then
    sqNext (setCe p n { c with phase := phase }) n
  else p

def execSqPhase (n phase : Nat) (s : State) : Out := .next (s.onPkg (doSqPhase n phase))

/-- LOOP repeats the words from `target` to itself `count` more times. -/
def doSqLoop (n target count : Nat) (p : Pkg) : Pkg :=
  let c := ce p n
  let (w, pass) := unitAt c 0 0
  if sqAt p n 3 (target * 4096 + (count - 1)) && decide (target ≤ w) && decide (1 ≤ count ∧ count ≤ 4096) then
    let k := SMap.get c.loops w 0
    if k < count then
      setCe p n { c with loops := SMap.set c.loops w (k + 1), progress := SMap.set c.progress (unitKey 0 0) (target, pass) }
    else sqNext (setCe p n { c with loops := SMap.set c.loops w 0 }) n
  else p

def execSqLoop (n target count : Nat) (s : State) : Out := .next (s.onPkg (doSqLoop n target count))

/-! ## Barriers -/

/-- Every unit has finished its code for the present pass. -/
def allIdle (p : Pkg) (n : Nat) : Bool := (ceChart p n).units.all (fun u => u.typ == 0 || passDone (ce p n) u)

/-- The passes at which the units stand are marked, and the sequencer goes on. -/
def passMark (p : Pkg) (n : Nat) : Pkg :=
  let c := ce p n
  let mark (m : SMap Nat) (u : UnitRec) : SMap Nat :=
    SMap.set m (unitKey u.typ u.index) (unitAt c u.typ u.index).2
  sqNext (setCe p n { c with idleMark := (ceChart p n).units.foldl mark c.idleMark }) n

def doWaitIdle (n : Nat) (p : Pkg) : Pkg := if sqAt p n 8 0 && allIdle p n then passMark p n else p
def execWaitIdle (n : Nat) (s : State) : Out := .next (s.onPkg (doWaitIdle n))

/-- Every earlier mover load has returned its data. -/
def loadsDone (p : Pkg) (n : Nat) : Bool := (ce p n).misses.all (·.pf)

/-- An open output packet closes (R324). -/
def Mover.close (m : Mover) : Mover :=
  if m.packet.isEmpty then m else { m with packet := [], closed := m.closed ++ [m.packet] }

def closePackets (p : Pkg) (n : Nat) : Pkg :=
  let c := ce p n
  setCe p n { c with movers := c.movers.map (fun x => (x.1, x.2.close)) }

def l1Clear (p : Pkg) (n : Nat) : Pkg := setCe p n (ce p n).invalidateAll

def doLoadBarrier (n : Nat) (p : Pkg) : Pkg :=
  if sqAt p n 5 0 && allIdle p n && loadsDone p n then passMark (l1Clear p n) n else p

def execLoadBarrier (n : Nat) (s : State) : Out := .next (s.onPkg (doLoadBarrier n))

def doStoreBarrier (n : Nat) (p : Pkg) : Pkg :=
  if sqAt p n 6 0 && allIdle p n then
    let q := closePackets p n
    if packetsDone q n then passMark q n else q
  else p

def execStoreBarrier (n : Nat) (s : State) : Out := .next (s.onPkg (doStoreBarrier n))

def doFullBarrier (n : Nat) (p : Pkg) : Pkg :=
  if sqAt p n 7 0 && allIdle p n then
    let q := closePackets p n
    if packetsDone q n && loadsDone q n then passMark (l1Clear q n) n else q
  else p

def execFullBarrier (n : Nat) (s : State) : Out := .next (s.onPkg (doFullBarrier n))

/-! ## Fold boundaries -/

def ceFold (n : Nat) : Nat := key (pgCe n) 0x110

/-- A boundary is passed: CE_RUN_FOLD, CE_CNT_FOLDS and the command's FOLDS count it, and its waypoint is pushed. Where the CE stops
at it, for a preemption or a pause that is pending, FOLD_BOUNDARY serves it. -/
def passFold (p : Pkg) (n : Nat) (stops : Bool := true) : Pkg :=
  match (ce p n).cmd with
  | some id =>
    let c := cmd p id
    let hold := stops && holdDue p n
    let p1 := addReg (bumpReg p (ceFold n) 1 0xFFFFFFFF) (key (pgCe n) 0x388) 1
    let p2 := setCmd p1 id { c with folds := satAdd 65535 c.folds 1, wasPaused := c.wasPaused || (stops && c.stale) }
    let p3 := waypoint p2 (pgCe n) 0x12 (cmdSub c) (if stops && (ce p n).preempt then regN p2 (ceFold n) % 32768 + 32768 else regN p2 (ceFold n))
    if hold then setCe p3 n { ce p3 n with paused := true } else p3
  | none => p

/-- R239: FOLD waits until every octet has drained, the long store holds no unemitted value, those of an item not yet offered among
them, and every output packet so far has committed. In a PROJECT chart a FOLD word is a boundary too (DESIGN CHOICE, log entry
27). -/
def doSqFold (n : Nat) (p : Pkg) : Pkg :=
  if sqAt p n 4 0 then
    let q := settleLatches p n
    let c := ce q n
    if c.octets.all (fun x => x.2.cells.isEmpty && x.2.done == 0) && c.long.all (fun x => x.2 == 0) && c.ls.bufBits == 0 &&
        packetsDone q n then
      passFold (sqNext q n) n
    else q
  else p

def execSqFold (n : Nat) (s : State) : Out := .next (s.onPkg (doSqFold n))

/-- Whether some unit has begun the round after `r`. -/
def roundAhead (p : Pkg) (n r : Nat) : Bool :=
  let c := ce p n
  (ceChart p n).units.any (fun u =>
    if projects (ceChart p n) u then decide (r + 1 < (octet c u.index).rounds) || (decide ((octet c u.index).rounds = r + 1) && roundBegun (octet c u.index))
    else u.repeats == 0xFFFFFFFF && (let x := unitAt c u.typ u.index
      decide (r + 1 < x.2) || (x.2 == r + 1 && !unitDone c u && (x.1 != u.loopStart || unitBegun c u.typ u.index))))

/-- Whether every unit that makes one pass a round has finished the pass of round `r`. -/
def roundPassed (p : Pkg) (n r : Nat) : Bool :=
  let c := ce p n
  (ceChart p n).units.all (fun u => u.repeats != 0xFFFFFFFF || decide (r < (unitAt c u.typ u.index).2) || unitDone c u)

/-- Whether END is the sequencer's next word and its conditions hold: it is then taken before a preemption (R310). -/
def endsNow (p : Pkg) (n : Nat) : Bool := atWord p n 0 0 (2 ^ 24) && unitsDone p n && packetsDone p n

/-- R237: a round ends when its passes have drained and its slots have been emitted. Where a stop is due the boundary also waits for
the round's other units and its packets, and the CE stops there, unless a unit had begun the next round before the stop was due:
then at that round's end (R238); with END's conditions met it does not stop (R310). -/
def doRoundEnd (n : Nat) (p : Pkg) : Pkg :=
  let c := ce p n
  let ch := ceChart p n
  if ceLive p n && isProject ch && decide (c.round < roundsOf (ceCmd p n) (projectMode ch)) && projectedPast p n c.round &&
      emittedPast p n c.round && (!holdDue p n || (roundPassed p n c.round && (packetsDone p n || roundAhead p n c.round))) then
    passFold (setCe (settleLatches p n) n { ce (settleLatches p n) n with round := c.round + 1 }) n
      (!roundAhead p n c.round && !((ce p n).preempt && endsNow p n))
  else p

def execRoundEnd (n : Nat) (s : State) : Out := .next (s.onPkg (doRoundEnd n))

/-! ## Fold records (Table 8-6) -/

/-- The counts of the descriptor at a word of a generator's or mover's code. -/
def descCounts (ch : Chart) (u : UnitRec) (w : Nat) : List Nat :=
  let l := ((ch.code.drop (u.codeOff + w)).take (wordsPer u.typ))
  let x := wordsNat l
  if u.typ = 5 then (List.range 4).map (muCount x)
  else [x / 2 ^ 32 % 4096 + 1, x / 2 ^ 56 % 4096 + 1, x / 2 ^ 80 % 4096 + 1, x / 2 ^ 104 % 4096 + 1]

/-- The position that a list of indices stands for. -/
def posOf (counts idx : List Nat) : Nat :=
  match counts, idx with
  | c :: t, i :: u => i + max c 1 * posOf t u
  | _, _ => 0

/-- Loops of a sequencer's code: the indices of its LOOP words. -/
def loopWords (ch : Chart) (u : UnitRec) : List Nat :=
  (List.range u.codeSize).filter (fun i => bitsOf ((unitCode ch u).getD i 0) 31 24 == 3)

/-- The four 16-bit loop or generator counts of a unit entry. -/
def foldCounts (ch : Chart) (c : Ce) (u : UnitRec) : List Nat :=
  let w := (unitAt c u.typ u.index).1
  match u.typ with
  | 0 => ((loopWords ch u).take 4).map (fun i => SMap.get c.loops i 0)
  | 2 => [(vu c u.index).outCount, (vu c u.index).outCount / 65536, (vu c u.index).outCount / 2 ^ 32]
  | 3 => indices (descCounts ch u w) (SMap.get c.ag (2 * u.index) (0, 0)).1
  | 4 => indices (descCounts ch u w) (SMap.get c.ag (2 * u.index + 1) (0, 0)).1
  | 5 => indices (descCounts ch u w) (mover c u.index).pos
  | 6 => [c.ls.emits, c.ls.emits / 65536]
  | _ => []

def unitEntry (ch : Chart) (c : Ce) (u : UnitRec) : Nat :=
  let x := unitAt c u.typ u.index
  let f := foldCounts ch c u
  u.typ + u.index * 2 ^ 8 + x.1 % 65536 * 2 ^ 16 + x.2 % 2 ^ 32 * 2 ^ 32 +
    (List.range 4).foldl (fun a j => a + f.getD j 0 % 65536 * 2 ^ (64 + 16 * j)) 0

def parityByte (c : Ce) : Nat :=
  (List.range 8).foldl (fun a k => a + (octet c k).tiles % 2 * 2 ^ k) 0

/-- The fold record of a CE's command, as a number of 1,024 bytes. -/
def foldRecord (p : Pkg) (n : Nat) : Nat :=
  let c := ce p n
  let k := ceCmd p n
  let ch := ceChart p n
  let run := dOpcode k.desc == 2
  let units := if run then ch.units else []
  let next := if run && isProject ch then c.round else regN p (ceFold n)
  1 + (if run then 0 else dOpcode k.desc - 2) * 2 ^ 8 + units.length * 2 ^ 16 + next % 2 ^ 32 * 2 ^ 32 +
    parityByte c * 2 ^ 64 + (if run then 0 else k.progress) * 2 ^ 128 + (if run then ch.crc else 0) * 2 ^ 192 +
    (List.range units.length).foldl (fun a i =>
      a + unitEntry ch c (units.getD i ⟨0, 0, 0, 0, 0, 0, 0⟩) * 2 ^ (512 + 128 * i)) 0

/-- The last word before `w` of a unit's code that `f` picks; in a later pass the words of the loop count too. -/
def wordInForce (ch : Chart) (u : UnitRec) (w passes : Nat) (f : W32 → Bool) : Option W32 :=
  let l := unitCode ch u
  match ((l.take w).reverse).find? f with
  | some x => some x
  | none => if passes = 0 then none else (l.reverse).find? f

/-- A unit continues from its entry: its word, passes and counts; an octet has the format of its last FORMAT word, the
long store the conversion of its last OUTFMT word of the pass. -/
def resumeUnit (ch : Chart) (entry next parity : Nat) (c : Ce) : Ce :=
  let typ := entry % 256
  let idx := entry / 2 ^ 8 % 256
  let w := entry / 2 ^ 16 % 65536
  let ps := entry / 2 ^ 32 % 2 ^ 32
  let cnt := (List.range 4).map (fun j => entry / 2 ^ (64 + 16 * j) % 65536)
  match findUnit ch typ idx with
  | none => c
  | some u =>
    let c1 : Ce := { c with progress := SMap.set c.progress (unitKey typ idx) (w, ps) }
    match typ with
    | 0 =>
      let ws := (loopWords ch u).take 4
      let put (m : SMap Nat) (j : Nat) : SMap Nat := SMap.set m (ws.getD j 0) (cnt.getD j 0)
      { c1 with loops := (List.range ws.length).foldl put c1.loops }
    | 1 =>
      let o := octet c1 idx
      let o1 : Octet := match wordInForce ch u w ps (fun x => bitsOf x 31 28 == 1) with
        | some x => { o with formatted := true, fa := bitsOf x 27 24, fb := bitsOf x 23 20, axis := bitOf x 19,
                             sharedA := bitOf x 18, sharedB := bitOf x 17 }
        | none => o
      let start := if ps = 0 then 0 else u.loopStart
      let mask := match wordInForce ch { u with codeOff := u.codeOff + start, codeSize := u.codeSize - start } (w - start) 0
          (fun x => bitsOf x 31 28 == 5) with
        | some x => bitsOf x 7 0
        | none => 0xFF
      let o2 : Octet := { o1 with mask := mask, rounds := next, tiles := parity / 2 ^ idx % 2 }
      { c1 with octets := SMap.set c1.octets idx o2 }
    | 2 =>
      let v : Vu := { vu c1 idx with outCount := cnt.getD 0 0 + 65536 * cnt.getD 1 0 + 2 ^ 32 * cnt.getD 2 0 }
      { c1 with vus := SMap.set c1.vus idx v }
    | 3 => { c1 with ag := SMap.set c1.ag (2 * idx) (posOf (descCounts ch u w) cnt, 0) }
    | 4 => { c1 with ag := SMap.set c1.ag (2 * idx + 1) (posOf (descCounts ch u w) cnt, 0) }
    | 5 => { c1 with movers := SMap.set c1.movers idx { Mover.empty with pos := posOf (descCounts ch u w) cnt } }
    | 6 =>
      let start := if ps = 0 then 0 else u.loopStart
      let ls : LongSt := { LongSt.initial with emits := cnt.getD 0 0 + 65536 * cnt.getD 1 0, rounds := next }
      match wordInForce ch { u with codeOff := u.codeOff + start, codeSize := u.codeSize - start } (w - start) 0
          (fun x => bitsOf x 31 28 == 1) with
      | some x =>
        let sh : Int := (BitVec.ofNat 8 (bitsOf x 20 13)).toInt
        { c1 with ls := { ls with fmt := bitsOf x 27 24, rounding := bitsOf x 23 22, sat := bitOf x 21, shift := sh } }
      | none => { c1 with ls := ls }
    | _ => c1

/-- The units of a CE as a fold record gives them. -/
def resumeFrom (ch : Chart) (rec : Nat) (c : Ce) : Ce :=
  let next := rec / 2 ^ 32 % 2 ^ 32
  let parity := rec / 2 ^ 64 % 256
  let n := rec / 2 ^ 16 % 65536
  (List.range n).foldl (fun c i => resumeUnit ch (rec / 2 ^ (512 + 128 * i) % 2 ^ 128) next parity c) { c with round := next }

/-- Where fold record i lies. -/
def foldAddr (p : Pkg) (i : Nat) : Nat := fld p (key pgQm 0x118) 51 21 * 0x200000 + 1024 * i

/-- The lowest fold record that is not in use (R296). -/
def freeFold (p : Pkg) : Option Nat := (List.range 2048).find? (fun i => !(p.qm.foldUsed.any (fun x => x.1 == i)))

/-- The command leaves its CE preempted: its record is in use, the CE is free (R290, R296). -/
def preemptNow (p : Pkg) (n id i : Nat) : Pkg :=
  let c := cmd p id
  let q : QmSt := { p.qm with foldUsed := SMap.set p.qm.foldUsed i id }
  let p1 := addCmdBeats { p with qm := q } id n
  let c1 : Cmd := { cmd p1 id with
    phase := .preempted, fold := some i, foldCrc := (ceChart p n).crc, ces := [], lastCe := n
    preemptions := satAdd 65535 c.preemptions 1 }
  ceRelease (setCmd (bumpReg p1 (key pgQm 0x124) 1 0xFFFFFFFF) id c1) n c

/-- R484: a paused command goes on when its range has been translated again; while pages of it are missing, or a move or
an inset-window move holds them, it stays paused. The translation itself is COMMAND_TRANSLATE's. -/
def pauseEnds (p : Pkg) (n : Nat) : Pkg :=
  if (ceCmd p n).stale then p else setCe p n { ce p n with paused := false }

/-- R238: at a fold boundary with a preemption pending the CE saves its fold record and is free; with an invalidation
pending it is paused until its range is translated again. While QM_FOLD_AREA.ENABLE is 0 no command is preempted (R296): the CE
goes on, and the INTERACTIVE command waits. -/
def execFoldBoundary (n : Nat) (s : State) : Out :=
  let p := s.pkg
  match (ce p n).cmd, freeFold p with
  | some id, some i =>
    if bit p (key pgQm 0x118) 0 = false ∧ (ce p n).preempt = true ∧ ceOk n = true ∧ (ce p n).paused = true then
      .next (s.onPkg (fun p => pauseEnds (setCe p n { ce p n with preempt := false }) n))
    else if ceOk n && (ce p n).paused && (ce p n).preempt && packetsDone p n then
      .next { s with mem := storeAt p s.mem (foldAddr p i) 1024 (foldRecord p n), pkg := preemptNow p n id i }
    else .next (s.onPkg (fun p => if ceOk n && (ce p n).paused then pauseEnds p n else p))
  | _, _ => .next s

end Sys2Proof.Machine
end

