-- ==== Sys2Proof/Machine/Slm.lean ====
section
/-! DEFINITION. The SLM slices: pins, the partition and its change, and the operations of the homes' reduction units and
watch tables (spec/10 R362 to R382, spec/13 R459). -/

namespace Sys2Proof.Machine

/-! ## Pins and the partition -/

/-- R364: every pin of a slice clears. -/
def clearPins (p : Pkg) (sl : Nat) : Pkg :=
  countPins (setTags p sl ((tagsOf p sl).map (fun (x : Nat × Tag) => (x.1, { x.2 with pinned := false })))) sl

def putPinClear (sl : Nat) (value : W64) (p : Pkg) : Pkg := if bitOf value 0 then clearPins p sl else p

def doSlmPinClear (rq : Requester) (sl : Nat) (value : W32) (p : Pkg) : Pkg :=
  if sl < 256 then ifWrites p rq (pgSl sl) 0x108 (putPinClear sl (value.setWidth 64)) else p

def execSlmPinClear (rq : Requester) (sl : Nat) (value : W32) (s : State) : Out :=
  .next (s.onPkg (doSlmPinClear rq sl value))

def foldArea : Nat := key pgQm 0x118
def partKey (quad : Nat) : Nat := key (pgQd quad) 0x180

/-- Whether the fold area is enabled with its base in a quadrangle. -/
def foldIn (p : Pkg) (quad : Nat) : Bool :=
  bit p foldArea 0 && (match region (fld p foldArea 51 21 * 0x200000) with
    | .slm sl _ => sl / 8 == quad
    | _ => false)

/-- R369, R370: a write of TARGET is discarded, has no effect, or starts the change. -/
def putPartition (quad : Nat) (value : W64) (p : Pkg) : Pkg :=
  let k := partKey quad
  let t := bitsOf value 4 0
  if 16 < t ∨ bit p k 31 = true ∨ (foldIn p quad = true ∧ t < 16) then p
  else if t = fld p k 20 16 then setFld p k 4 0 t
  else setBit (setFld p k 4 0 t) k 31 true

def doPartitionWrite (rq : Requester) (quad : Nat) (value : W32) (p : Pkg) : Pkg :=
  if quad < 32 then ifWrites p rq (pgQd quad) 0x180 (putPartition quad (value.setWidth 64)) else p

def execPartitionWrite (rq : Requester) (quad : Nat) (value : W32) (s : State) : Out :=
  .next (s.onPkg (doPartitionWrite rq quad value))

/-- The converting ways of a quadrangle: from the first to before the second. -/
def converting (p : Pkg) (quad : Nat) : Nat × Nat :=
  let c := fld p (partKey quad) 20 16
  let t := fld p (partKey quad) 4 0
  (min c t, max c t)

/-- The converting ways of a slice lose their lines, dirty ones to HBM. -/
def convertSlice (lo hi sl : Nat) (p : Pkg) : Pkg :=
  let gone := (tagsOf p sl).filter (fun x => decide (lo ≤ x.1 % 16) && decide (x.1 % 16 < hi))
  let p1 := gone.foldl (fun q x => if x.2.dirty then writeBack q sl x.2.line else q) p
  countPins (setTags p1 sl (SMap.drop (tagsOf p sl) (fun k => decide (lo ≤ k % 16 ∧ k % 16 < hi)))) sl

/-- R370 steps 2 to 4. -/
def doPartitionChangeDone (quad : Nat) (p : Pkg) : Pkg :=
  let k := partKey quad
  if decide (quad < 32) && bit p k 31 then
    let w := converting p quad
    let p1 := (List.range 8).foldl (fun q i => convertSlice w.1 w.2 (8 * quad + i) q) p
    raiseBlock (setBit (setFld p1 k 20 16 (fld p k 4 0)) k 31 false) (pgQd quad) 0
  else p

/-- Whether an address is a byte of a quadrangle's converting ways. -/
def inConverting (lo hi quad a : Nat) : Bool :=
  match region a with
  | .slm sl b => sl / 8 == quad && decide (lo * 131072 ≤ b) && decide (b < hi * 131072)
  | _ => false

/-- The bytes of the converting ways are zero (R372): they leave the listed memory, and their poison with them. -/
def zeroWays (lo hi quad : Nat) (m : Memory) : Memory :=
  { m with
    cells := m.cells.filter (fun c => !inConverting lo hi quad c.1)
    poison := m.poison.filter (fun a => !inConverting lo hi quad a) }

/-- R370: the change completes; not while its sheet is halted at the floor (R63). -/
def execPartitionChangeDone (quad : Nat) (s : State) : Out :=
  if !stepping s.pkg (quad / 8) then .next s
  else if decide (quad < 32) && bit s.pkg (partKey quad) 31 then
    let w := converting s.pkg quad
    .next { s with mem := zeroWays w.1 w.2 quad s.mem, pkg := doPartitionChangeDone quad s.pkg }
  else .next (s.onPkg (doPartitionChangeDone quad))

/-! ## Atomics at the home (R374 to R377, R459) -/

/-- A line whose operation is performed at its home: the harts' copies go and the memory-side cache holds the result. -/
def homeTouch (p : Pkg) (pa who : Nat) : Pkg :=
  let p1 := match region pa with
    | .hbm s o => slmRead p (64 * s + slmHash o) pa 1 0
    | .ddr _ => ddrRead p pa 1
    | _ => p
  homeStore p1 pa false who

/-- A counter of the slice that homes an address. -/
def countAtSlice (p : Pkg) (pa off : Nat) : Pkg :=
  match homeSlice pa with
  | some sl => addReg p (key (pgSl sl) off) 1
  | none => p

/-- The DEFERRED record of an operation whose target is poisoned (R377), at the slice that homes it; the SRAM identifier is
not published (R751), a free value from 0x80 on. -/
def poisonedTarget (p : Pkg) (pa : Nat) : Pkg :=
  match homeSlice pa with
  | some sl => logErr (nextFree p) (pgSl sl) ⟨0x11, 0, 1, pa, 128 + (Config.freeWord p.free).toNat % 128⟩
  | none => p

inductive AtomEnd where
  | waits
  | done
  | refused
  deriving DecidableEq, Repr

/-- ADD64 (op 0) or SET64 (op 1) at the home of an 8-byte aligned word, for the writer `who`; `pg` logs a decode error. A
line that the host holds is called back first; the operation then runs with the request `req`, which its home has admitted. -/
def atomAt (pa op : Nat) (value : W64) (who pg : Nat) (req : Option HomeReq) (s : State) : AtomEnd × State :=
  let p := s.pkg
  if pa % 8 ≠ 0 ∨ 1 < op then (.refused, s)
  else match (if req.isSome then fate p pa else fateFor p who pa false) with
    | .waits => (.waits, s)
    | .remote => (.refused, s)
    | .decode => (.done, { s with pkg := decodeError p pg pa })
    | .served =>
      if hostHolds p pa then (.waits, { s with pkg := biStart p (pa / 64) true req })
      else
        let p1 := countAtSlice (homeTouch p pa who) pa 0x128
        if op = 0 ∧ s.mem.poisoned pa 8 = true then (.done, { s with pkg := poisonedTarget p1 pa })
        else
          let v := if op = 0 then BitVec.ofNat 64 (s.mem.read pa 8) + value else value
          (.done, { s with mem := s.mem.write pa 8 v.toNat, pkg := p1 })

def execAdd64 (pa : Nat) (value : W64) (s : State) : Out := .next (atomAt pa 0 value 0 (homePage pa) none s).2
def execSet64 (pa : Nat) (value : W64) (s : State) : Out := .next (atomAt pa 1 value 0 (homePage pa) none s).2

/-! ## RADD (R375, R376) -/

def recAdd (a b : Rec) : Rec := elemRec (addElem (recElem a) (recElem b))

/-- The second line of a record. -/
def radd2 (pa : Nat) : Nat := (pa + 79) / 64 * 64

/-- RADD of a full record at a 16-byte aligned address: both lines are recalled, and written as one. A target that is not
aligned is refused. -/
def raddAt (pa : Nat) (record : Rec) (who pg : Nat) (s : State) : AtomEnd × State :=
  let p := s.pkg
  if pa % 16 ≠ 0 then (.refused, s)
  else match fateFor p who pa false, fateFor p who (radd2 pa) false with
    | .served, .served =>
      if hostHolds p pa || hostHolds p (radd2 pa) then
        let p1 := if hostHolds p pa then biStart p (pa / 64) true none else p
        (.waits, { s with pkg := if hostHolds p (radd2 pa) then biStart p1 (radd2 pa / 64) true none else p1 })
      else
        let p1 := countAtSlice (homeTouch (homeTouch p pa who) (radd2 pa) who) pa 0x130
        if s.mem.poisoned pa 80 then (.done, { s with pkg := poisonedTarget p1 pa })
        else (.done, { s with mem := s.mem.write pa 80 (recAdd (s.mem.record pa) record).toNat, pkg := p1 })
    | .decode, _ => (.done, { s with pkg := decodeError p pg pa })
    | _, .decode => (.done, { s with pkg := decodeError p pg (radd2 pa) })
    | .remote, _ => (.refused, s)
    | _, _ => (.waits, s)

def execRadd (pa : Nat) (record : Rec) (s : State) : Out := .next (raddAt pa record 0 (homePage pa) s).2

/-! ## Watches (R307, R378) -/

/-- The watch table of an address's home: SLM slices by number, L3 slices from 1,000 on. -/
def watchKey (pa : Nat) : Nat :=
  match homeSlice pa with
  | some sl => sl
  | none => 1000 + l3Home pa

def watchesAt (p : Pkg) (k : Nat) : List Watch := SMap.get p.home.watches k []

def dropWatches (p : Pkg) (id : Nat) : Pkg :=
  { p with home := { p.home with
      watches := p.home.watches.map (fun (x : Nat × List Watch) => (x.1, x.2.filter (fun w => w.id != id))) } }

/-- A SEM_WAIT's watch joins its home's table of 64, where it has room; the command is then watching. -/
def addWatch (p : Pkg) (pa id : Nat) : Pkg :=
  let c := cmd p id
  let k := watchKey pa
  if (watchesAt p k).length < 64 then
    let w : Watch := ⟨id, pa, BitVec.ofNat 64 (dField c.desc 32 8), dField c.desc 40 1 == 1⟩
    let p1 := setCmd { p with home := { p.home with watches := SMap.set p.home.watches k (watchesAt p k ++ [w]) } } id
      { c with watching := true }
    if k < 256 ∧ (watchesAt p1 k).length = 64 then raiseBlock p1 (pgSl k) 0 else p1
  else p

/-- A SEM_WAIT that runs and does not watch yet registers its condition. -/
def doWatch (pa id : Nat) (p : Pkg) : Pkg :=
  let c := cmd p id
  if hasCmd p id && dOpcode c.desc == 6 && c.phase == .running && !c.watching && pa % 8 == 0 then addWatch p pa id else p

def execWatch (pa id : Nat) (s : State) : Out := .next (s.onPkg (doWatch pa id))

end Sys2Proof.Machine
end

