-- ==== Sys2Proof/Machine/Xlat.lean ====
section
/-! DEFINITION. The translation unit's work for commands (spec/14 R473 to R487): the walk, ATS and page requests, the command
translation store, acceptance (spec/08 R286), invalidations, faults that wait. -/

namespace Sys2Proof.Machine

/-! ## Registers -/

def xlCtx (ctx off : Nat) : Nat := key (pgXl + 1 + ctx) off
def xlSource (p : Pkg) (ctx : Nat) : Nat := fld p (xlCtx ctx 0x100) 1 0
def priEn (p : Pkg) (ctx : Nat) : Bool := bit p (xlCtx ctx 0x100) 2
def faultWait (p : Pkg) (ctx : Nat) : Bool := bit p (xlCtx ctx 0x100) 3
def supervisor (p : Pkg) (ctx : Nat) : Bool := bit p (xlCtx ctx 0x100) 4
def pasidOf (p : Pkg) (ctx : Nat) : Nat := fld p (key (pgQm + 1 + ctx) 0x100) 19 0
def priStopped (p : Pkg) : Bool := bit p (key pgXl 0x100) 31

/-! ## The inset window (R477, R515) -/

def insetControl : Nat := key pgHl 0x120
def insetMoving (p : Pkg) : Bool := bit p insetControl 31
def insetBase (p : Pkg) : Nat := regN p (key pgHl 0x110)
def insetBytes (p : Pkg) : Nat := if bit p insetControl 30 then fld p insetControl 23 16 * 2 ^ 30 else 0

/-- The package address that the inset window maps a host physical address to. -/
def insetMap (p : Pkg) (hpa : Nat) : Option Nat :=
  if p.hl.hdmBase ≤ hpa ∧ hpa < p.hl.hdmBase + insetBytes p then some (insetBase p + (hpa - p.hl.hdmBase)) else none

/-! ## Windows at the sender (R488) -/

def windowKey (w : Nat) : Nat := key (pgXl + 17 + w / 480) (0x100 + 8 * (w % 480))

/-- The cause of Table 14-5 for which the sender refuses a kind of access (0 R, 1 W, 2 A) by a context or, with none, a
hart. -/
def senderCheck (p : Pkg) (w kind : Nat) (ctx : Option Nat) : Option Nat :=
  let d := reg p (windowKey w)
  let admits := match ctx with
    | some c => bitOf d (32 + c % 16)
    | none => bitOf d 59
  if !bitOf d 63 then some 1
  else if !admits then some 2
  else if !bitOf d (62 - kind) then some 3
  else none

/-! ## The walk (R475, R476) -/

inductive PageRes where
  | ok (x : Xlate)
  | waits
  | fault (cause : Nat)
  | refused (cause window : Nat)
  deriving DecidableEq, Repr

def populatedTable (p : Pkg) (a : Nat) : Bool :=
  match region a with
  | .ddr _ => populated p a
  | .hbm _ _ => populated p a
  | _ => false

/-- What an address leads to for a leaf: DDR, HBM, the scratchpad aperture, or a window from 1 on. -/
def leafTarget (a : Nat) : Bool :=
  decide (a < 2 ^ 52) && (match region a with
    | .ddr _ => true
    | .hbm _ _ => true
    | .slm _ _ => true
    | .window w _ => decide (1 ≤ w)
    | _ => false)

def reservedPte (e : W64) (level : Nat) : Bool :=
  let leaf := bitOf e 1 || bitOf e 3
  let ppn := bitsOf e 53 10
  (bitOf e 2 && !bitOf e 1) || bitsOf e 60 54 != 0 || bitsOf e 62 61 == 3 ||
    (if leaf then
      (if bitOf e 63 then level != 0 || ppn % 16 != 8 else ppn % 512 ^ level != 0)
     else bitOf e 63 || bitsOf e 62 61 != 0 || bitOf e 4 || bitOf e 6 || bitOf e 7 || level == 0)

/-- The leaf entry with A set, and D for a page of a written operand. -/
def markAd (e : W64) (write : Bool) : W64 := e ||| BitVec.ofNat 64 (64 + (if write then 128 else 0))

/-- The checks of a leaf entry in the order of Table 14-2, and its translation. -/
def leafRes (p : Pkg) (ctx : Nat) (kind : Nat) (write : Bool) (e : W64) (level va at' : Nat) : PageRes :=
  let pages := if bitOf e 63 then 16 else 512 ^ level
  let ppn := if bitOf e 63 then bitsOf e 53 10 - 8 else bitsOf e 53 10
  let a := ppn * 4096
  if !bitOf e 1 || (write && !bitOf e 2) || (!bitOf e 4 && !supervisor p ctx) then .fault 2
  else if bitsOf e 62 61 = 2 then .fault 10
  else if !leafTarget a || !leafTarget (a + pages * 4096 - 1) then .fault 4
  else
    let vp := va / 4096 / pages * pages
    let x : Xlate := { va := vp, pages := pages, pa := ppn, writable := bitOf e 2 && write, ats := false,
                       nc := bitsOf e 62 61 == 1, pte := at', node := 0, remote := 0, inset := false, stale := false, entry := 0, pteVal := markAd e write }
    match region (a + (va / 4096 - vp) * 4096) with
    | .window w _ =>
      match senderCheck p w kind (some ctx) with
      | some c => .refused c w
      | none =>
        let d := reg p (windowKey w)
        .ok { x with node := bitsOf d 13 0, remote := bitsOf d 25 16 }
    | _ => .ok x

/-- Whether DDR answers accesses that its capacity decides: until then a walk into it waits (R437). -/
def tableWaits (p : Pkg) (a : Nat) : Bool :=
  match region a with
  | .ddr _ => fateLine p a == .waits
  | _ => false

/-- One level of the walk, in read class `cls`. A poisoned entry is taken as reserved (log entry 38). -/
def walkFrom (p : Pkg) (m : Memory) (ctx kind cls : Nat) (write : Bool) (va level table : Nat) : PageRes × Memory × Pkg :=
  if tableWaits p table then (.waits, m, p)
  else if !populatedTable p table then (.fault 11, m, p)
  else
    let at' := table + 8 * (va / 2 ^ (12 + 9 * level) % 512)
    match entryRead p m 0 at' cls with
    | (.waits, q) => (.waits, m, q)
    | (.poison, q) => (.fault 3, m, q)
    | (.entry e, q) =>
      if !bitOf e 0 then (.fault 1, m, q)
      else if reservedPte e level then (.fault 3, m, q)
      else if bitOf e 1 || bitOf e 3 then
        match leafRes p ctx kind write e level va at' with
        | .ok x =>
          match entryMark q m 0 at' e (markAd e write) with
          | (some m1, q1) => (.ok x, m1, q1)
          | (none, q1) => (.waits, m, q1)
        | r => (r, m, q)
      else match level with
        | 0 => (.fault 3, m, q)
        | l + 1 => walkFrom q m ctx kind cls write va l (bitsOf e 53 10 * 4096)

/-- The walk of a virtual page for a context. -/
def walkPage (p : Pkg) (m : Memory) (ctx kind cls : Nat) (write : Bool) (va : Nat) : PageRes × Memory × Pkg :=
  let root := reg p (xlCtx ctx 0x108)
  let mode := bitsOf root 63 60
  let top := va / 2 ^ 47 % 1024
  let canon := mode == 10 || (if xlSource p ctx = 2 then top == 1023 else top == 0 || top == 1023)
  if mode ≠ 9 ∧ mode ≠ 10 then (.fault 11, m, p)
  else if !canon then (.fault 5, m, p)
  else walkFrom p m ctx kind cls write va (mode - 6) (bitsOf root 43 0 * 4096)

/-! ## ATS and page requests (R477 to R479) -/

/-- The page requests that the host grants in the PRI capability, at most 512. -/
def priLimit (p : Pkg) : Nat := min 512 (SMap.get p.hl.cfg (0x2DC / 4) (0 : W32)).toNat

def setXl (p : Pkg) (x : XlSt) : Pkg := { p with xl := x }

/-- A Translation Request goes out. -/
def askAts (p : Pkg) (ctx page : Nat) (write : Bool) : Pkg :=
  emitMsg (addReg (setXl p { p.xl with requests := p.xl.requests ++ [(ctx, page, write)] }) (key pgXl 0x148) 1)
    (.atsRequest ctx page write (supervisor p ctx))

/-- A page request goes out where the grants leave room and requests are not stopped; else the page waits for one. -/
def askPri (p : Pkg) (ctx page : Nat) : Pkg :=
  let rest := p.xl.pris.filter (fun x => !(x.1 == ctx && x.2.1 == page))
  if priStopped p || decide (priLimit p ≤ (p.xl.pris.filter (fun x => x.2.2)).length) then
    setXl p { p.xl with pris := rest ++ [(ctx, page, false)] }
  else emitMsg (setXl p { p.xl with pris := rest ++ [(ctx, page, true)] }) (.priRequest ctx page)

/-- The translation that an ATS answer gives. -/
def atsXlate (p : Pkg) (e : AtcEnt) (write : Bool) : Option Xlate :=
  let x : Xlate := { va := e.page, pages := 1, pa := 2 ^ 40 + e.hpage, writable := e.writable && write, ats := true,
                     nc := false, pte := 0, node := 0, remote := 0, inset := false, stale := false, entry := 0, pteVal := 0 }
  match insetMap p (e.hpage * 4096) with
  | none => some x
  | some a => if insetMoving p then none else some { x with pa := a / 4096, inset := true }

/-- An ATS-served page: from an answer for this use or the cache, else it waits for its request, its page request, or the
end of an inset-window move (R517); a denial is its fault. -/
def atsPage (p : Pkg) (ctx : Nat) (write : Bool) (page : Nat) : PageRes × Pkg :=
  let id := pasidOf p ctx
  let fits (e : AtcEnt) : Bool := e.pasid == id && e.page == page && (!write || e.writable)
  match p.xl.denied.find? (fun d => d.1 == ctx && d.2.1 == page) with
  | some d => (.fault d.2.2, setXl p { p.xl with denied := p.xl.denied.erase d })
  | none =>
    match p.xl.once.find? fits with
    | some e =>
      match atsXlate p e write with
      | some x => (.ok x, setXl p { p.xl with once := p.xl.once.erase e })
      | none => (.waits, p)
    | none =>
      match p.xl.atc.find? fits with
      | some e =>
        match atsXlate p e write with
        | some x => (.ok x, addReg p (key pgXl 0x140) 1)
        | none => (.waits, p)
      | none =>
        if p.xl.requests.any (fun r => r.1 == ctx && r.2.1 == page) then (.waits, p)
        else match p.xl.pris.find? (fun r => r.1 == ctx && r.2.1 == page) with
          | some (_, _, sent) => (.waits, if sent then p else askPri p ctx page)
          | none => (.waits, askAts p ctx page write)

/-! ## One page of an operand (R473) -/

/-- Whether a MOVE holds a virtual page of a context for a command accepted later, or not accepted yet (R400). -/
def moveHolds (p : Pkg) (ctx id page : Nat) : Bool :=
  p.qm.holds.any (fun h => h != id && (cmd p h).ctx == ctx &&
    ((cmd p id).phase == .translating || decide ((cmd p h).acceptOrder < (cmd p id).acceptOrder)) &&
    (cmd p h).pages.any (fun x => decide (x.2.va ≤ page) && decide (page < x.2.va + x.2.pages)))

/-- The translation of one page: by the walk or by ATS as the context's source says. -/
def pageOf (p : Pkg) (m : Memory) (ctx kind cls : Nat) (write : Bool) (va : Nat) : PageRes × Memory × Pkg :=
  let src := xlSource p ctx
  if src = 0 ∨ (src = 2 ∧ va.testBit 56) then walkPage p m ctx kind cls write va
  else
    let (r, p1) := atsPage p ctx write (va / 4096)
    (r, m, p1)

/-- Everything that the translation of a command's pages accumulates: what became of memory and the package, the leaves
with their operands, whether some page waits, and the first fault: operand, cause, address, and window for a window
fault. -/
structure TrAcc where
  mem   : Memory
  pkg   : Pkg
  pages : List (Nat × Xlate)
  waits : Bool
  fault : Option (Nat × Nat × Nat × Option Nat)
  deriving DecidableEq, Repr

/-- The leaves of an address range of an operand, from `va` up to `stop`. -/
def trRange (id ctx operand kind : Nat) (write : Bool) (stop fuel va : Nat) (a : TrAcc) : TrAcc :=
  match fuel with
  | 0 => a
  | k + 1 =>
    if stop ≤ va ∨ a.fault.isSome then a
    else if moveHolds a.pkg ctx id (va / 4096) then
      trRange id ctx operand kind write stop k (va / 4096 * 4096 + 4096) { a with waits := true }
    else
      let (r, m, p) := pageOf a.pkg a.mem ctx kind (dPrio (cmd a.pkg id).desc) write va
      match r with
      | .ok x =>
        trRange id ctx operand kind write stop k ((x.va + x.pages) * 4096)
          { a with mem := m, pkg := p, pages := a.pages ++ [(operand, x)] }
      | .waits =>
        trRange id ctx operand kind write stop k (va / 4096 * 4096 + 4096) { a with mem := m, pkg := p, waits := true }
      | .fault c => { a with mem := m, pkg := p, fault := some (operand, c, va, none) }
      | .refused c w => { a with mem := m, pkg := p, fault := some (operand, c, va, some w) }

/-- The kind of access that an operand asks of a window: W where it is written, A for SEM_SIGNAL, else R. -/
def accessKind (c : Cmd) (operand : Nat) : Nat :=
  if dOpcode c.desc = 5 then 2 else if (dOperand c.desc operand).write then 1 else 0

/-- All operands of a command, or the stale leaves of an accepted one. -/
def trCmd (p : Pkg) (m : Memory) (id : Nat) : TrAcc :=
  let c := cmd p id
  let a0 : TrAcc := ⟨m, p, [], false, none⟩
  if c.phase = .translating then
    (List.range 6).foldl (fun a i =>
      let o := dOperand c.desc i
      if o.rows = 0 then a
      else trRange id c.ctx i (accessKind c i) o.write (o.addr + o.extent) (o.extent / 4096 + 2) o.addr a) a0
  else
    c.pages.foldl (fun a x =>
      if x.2.stale then
        trRange id c.ctx x.1 (accessKind c x.1) (dOperand c.desc x.1).write ((x.2.va + x.2.pages) * 4096) x.2.pages
          (x.2.va * 4096) a
      else { a with pages := a.pages ++ [x] }) a0

/-! ## The command translation store (R481, R482) -/

def ctsControl : Nat := key pgXl 0x108

/-- The entries in use: those of accepted commands. -/
def ctsUsed (p : Pkg) : List Nat :=
  p.qm.cmds.flatMap (fun x => if x.2.phase = .translating then [] else x.2.pages.map (fun y => y.2.entry))

def ctsSize (p : Pkg) : Nat := if bit p ctsControl 0 then 2 ^ fld p ctsControl 5 1 else 0

/-- `n` free entries, lowest first. -/
def freeEntries (used : List Nat) (n at' fuel : Nat) : List Nat :=
  match fuel with
  | 0 => []
  | k + 1 =>
    match n with
    | 0 => []
    | n' + 1 => if at' ∈ used then freeEntries used n (at' + 1) k else at' :: freeEntries used n' (at' + 1) k

/-- The store's entries written: the spec gives an entry 16 bytes and not their contents (R481), free values. -/
def writeEntries (p : Pkg) (m : Memory) (es : List Nat) : Memory × Pkg :=
  es.foldl (fun (x : Memory × Pkg) e =>
    let a := fld p ctsControl 51 21 * 0x200000 + 16 * e
    let v := (Config.freeWord x.2.free).toNat + 2 ^ 64 * (Config.freeWord (x.2.free + 1)).toNat
    (x.1.write a 16 v, nextFree (nextFree x.2))) (m, p)

/-- Leaves take store entries in their order. -/
def giveEntries (pages : List (Nat × Xlate)) (es : List Nat) : List (Nat × Xlate) :=
  match pages, es with
  | x :: t, e :: u => (x.1, { x.2 with entry := e }) :: giveEntries t u
  | _, _ => []

/-! ## Contour demands (R596 to R599) -/

def contourSet (layer operator : Nat) : Nat := (layer ^^^ operator) % 512

/-- The contour entry of a RUN, while contours are on; 612 mW without one, for other commands, and with contours off. -/
def contourEntry (p : Pkg) (c : Cmd) : Option Contour :=
  let s := contourSet (dLayer c.desc) (dOperator c.desc)
  if dOpcode c.desc = 2 ∧ bit p (key pgPwr 0x2A0) 0 = true then
    (p.pwr.contours.find? (fun x =>
      x.1 / 8 == s && x.2.layer == dLayer c.desc && x.2.operator == dOperator c.desc)).map (·.2)
  else none

def contourDemand (p : Pkg) (c : Cmd) : Nat :=
  match contourEntry p c with
  | some e => e.demand
  | none => 612

/-- The sheets of a PLACE scope, as a mask. -/
def placeSheets (place : Nat) : Nat := if place / 16384 % 4 = 0 then 15 else 2 ^ (place / 4096 % 4)

/-- A command's demand joins the sheets of a mask (R599), counted as found in the contour table or not. -/
def addDemand (p : Pkg) (id mask : Nat) (c : Cmd) : Pkg :=
  addReg { p with pwr := { p.pwr with demands := SMap.set p.pwr.demands id (mask, contourDemand p c) } }
    (key pgPwr (if (contourEntry p c).isSome then 0x2A8 else 0x2B0)) 1

/-! ## Acceptance (R286, R280, R399, R406) -/

/-- A translation fault ends a command, with its record. -/
def xlateFault (p : Pkg) (id operand cause va : Nat) : Pkg :=
  let (seq, p1) := logXlate p (cmd p id).ctx operand cause va
  match p1.ces.find? (fun x => x.2.cmd == some id) with
  | some (n, _) => stopWith p1 n 0x20 (operand + seq * 65536)
  | none => finishCmd p1 id 0x20 (operand + seq * 65536)

def windowFault (p : Pkg) (id operand cause w va : Nat) : Pkg :=
  let p1 := logWindow p (cmd p id).ctx operand cause w va
  match p1.ces.find? (fun x => x.2.cmd == some id) with
  | some (n, _) => stopWith p1 n 0x21 (operand + w * 16)
  | none => finishCmd p1 id 0x21 (operand + w * 16)

/-- R399: the reason for which a MOVE's translated extents are refused. -/
def moveReason (c : Cmd) (pages : List (Nat × Xlate)) : Option Nat :=
  let of (i : Nat) : List Xlate := (pages.filter (fun x => x.1 == i)).map (·.2)
  let whole (i : Nat) : Bool :=
    let o := dOperand c.desc i
    let l := of i
    (l.head?.map (fun x => x.va * 4096 == o.addr)).getD false &&
      (l.getLast?.map (fun x => (x.va + x.pages) * 4096 == o.addr + o.extent)).getD false
  let bad (x : Xlate) : Bool := x.ats || x.node != 0 || (match region (x.pa * 4096) with | .window _ _ => true | _ => false)
  if dOpcode c.desc ≠ 3 ∨ dField c.desc 34 1 ≠ 1 then none
  else if (of 0).any bad || (of 1).any bad || (of 0).any (·.inset) then some 6
  else if !whole 0 || !whole 1 || (of 0).map (·.pages) != (of 1).map (·.pages) || (of 0).any (fun x => x.pages == 16) then
    some 11
  else none

/-- Whether a walked source of a MOVE lies in the inset window (R399). -/
def moveInInset (p : Pkg) (c : Cmd) (pages : List (Nat × Xlate)) : Bool :=
  dOpcode c.desc == 3 && dField c.desc 34 1 == 1 && pages.any (fun x => x.1 == 0 &&
    decide (x.2.pa * 4096 < insetBase p + insetBytes p) && decide (insetBase p < (x.2.pa + x.2.pages) * 4096))

/-- A SEM_WAIT's semaphore lies in this package's DDR or HBM (Table 8-4). -/
def waitTargetOk (c : Cmd) (pages : List (Nat × Xlate)) : Bool :=
  dOpcode c.desc != 6 || pages.all (fun x => match region (x.2.pa * 4096) with
    | .ddr _ => true
    | .hbm _ _ => true
    | _ => false)

/-- R406: pages of an operand with a placement hint that lie in HBM of another sheet. -/
def affinityMisses (c : Cmd) (pages : List (Nat × Xlate)) : Nat :=
  pages.foldl (fun a x =>
    let o := dOperand c.desc x.1
    match region (x.2.pa * 4096) with
    | .hbm s _ => if o.affEn ∧ s ≠ o.sheet then
        let lo := max x.2.va (o.addr / 4096)
        let hi := min (x.2.va + x.2.pages) (ceilDiv (o.addr + o.extent) 4096)
        a + (hi - lo)
      else a
    | _ => a) 0


/-- The command joins its ring's pending queue. -/
def acceptCmd (p : Pkg) (id : Nat) (pages : List (Nat × Xlate)) : Pkg :=
  let c := cmd p id
  let c1 : Cmd := { c with
    pages := pages, phase := .waiting, noRoom := false, acceptOrder := p.qm.nextOrder, acceptedAt := (List.range 4).map (fun s => SMap.get p.pace.beats s 0) }
  let p1 := setCmd { p with qm := { p.qm with nextOrder := p.qm.nextOrder + 1 } } id c1
  let p2 := setSpill p1 c.ctx c.ring ((spill p1 c.ctx c.ring).push (reg p1 (spillKey c.ctx c.ring)) (pendingItem c1))
  let p3 := addReg p2 (key pgQm 0x130) (affinityMisses c pages)
  let hold := dOpcode c.desc == 3 && dField c.desc 34 1 == 1
  let p4 := if hold then { p3 with qm := { p3.qm with holds := p3.qm.holds ++ [id] } } else p3
  let p5 := if ringClass p c.ctx c.ring = 0 then addDemand p4 id (placeSheets (dPlace c.desc)) c else p4
  settlePending (noteHead p5 c.ctx c.ring) c.ctx c.ring 64

/-- Whether an earlier command of a ring is still to be accepted. -/
def earlierTranslating (p : Pkg) (id : Nat) : Bool :=
  let c := cmd p id
  p.qm.cmds.any (fun x => x.1 != id && x.2.ctx == c.ctx && x.2.ring == c.ring && x.2.phase == .translating &&
    decide (x.2.order < c.order))

/-- What follows when every page of a command to be accepted has its translation. -/
def tryAccept (id : Nat) (a : TrAcc) : Memory × Pkg :=
  let p := a.pkg
  let c := cmd p id
  let used := ctsUsed p
  let n := a.pages.length
  match moveReason c a.pages with
  | some r => (a.mem, finishCmd p id 0x31 r)
  | none =>
    if moveInInset p c a.pages || !waitTargetOk c a.pages then (a.mem, finishCmd p id 0x31 6)
    else if n = 0 then (a.mem, acceptCmd p id [])
    else if !bit p ctsControl 0 then (a.mem, setCmd p id { c with noRoom := true })
    else if ctsSize p < n then (a.mem, finishCmd p id 0x31 6)
    else if ctsSize p < used.length + n then (a.mem, setCmd p id { c with noRoom := true })
    else
      let es := freeEntries used n 0 (used.length + n)
      let (m, q) := writeEntries p a.mem es
      (m, acceptCmd q id (giveEntries a.pages es))

/-- R484: the stale leaves of an accepted command have been translated again, into entries of the store. -/
def retranslated (id : Nat) (a : TrAcc) : Memory × Pkg :=
  let p := a.pkg
  let c := cmd p id
  let keep := (c.pages.filter (fun x => !x.2.stale)).map (fun x => x.2.entry)
  let others := (ctsUsed p).filter (fun e => !(c.pages.any (fun x => x.2.entry == e)))
  let es := freeEntries (keep ++ others) (a.pages.length - keep.length) 0 ((keep ++ others).length + a.pages.length)
  let (m, q) := writeEntries p a.mem es
  let fill (x : List (Nat × Xlate) × List Nat) (y : Nat × Xlate) : List (Nat × Xlate) × List Nat :=
    if c.pages.any (fun z => z == y) then (x.1 ++ [y], x.2)
    else (x.1 ++ [(y.1, { y.2 with entry := x.2.headD 0 })], x.2.tail)
  let q1 := setCmd q id { cmd q id with pages := (a.pages.foldl fill ([], es)).1 }
  match q1.ces.find? (fun x => x.2.cmd == some id) with
  | some (n, x) => (m, if x.paused && !x.preempt then setCe q1 n { ce q1 n with paused := false } else q1)
  | none => (m, q1)

/-- A page that faults during acceptance waits for a resume where FAULT_WAIT asks for it and the queue has room (R487). -/
def faultItem (p : Pkg) (id operand cause va : Nat) : Pkg :=
  let c := cmd p id
  let k := key pgXl 0x120
  let seq := (queue p k).nextSeq
  let (rs, p1) := logXlate p c.ctx operand cause va
  let w0 := c.ctx * 2 ^ 44 + operand * 2 ^ 41 + cause * 2 ^ 37 + bitNat (dOperand c.desc operand).write * 2 ^ 36
  let p2 := raiseBlock (pushQueue p1 k [BitVec.ofNat 64 w0, BitVec.ofNat 64 va] true) pgXl 0
  setXl p2 { p2.xl with waits := p2.xl.waits ++ [⟨seq, rs, id, operand, va / 4096, cause⟩] }

/-- Whether a command has a page that waits for a resume. -/
def waitsResume (p : Pkg) (id : Nat) : Bool := p.xl.waits.any (fun w => w.id == id)

/-- R286: the pages of a command's operands are translated; it is then accepted, or it waits, or it completes XLATE_FAULT
or WINDOW_FAULT. An accepted command has its stale translations made again (R484). -/
def execCommandTranslate (id : Nat) (s : State) : Out :=
  let p := s.pkg
  let c := cmd p id
  let fresh := c.phase == .translating
  let running := p.ces.any (fun x => x.2.cmd == some id)
  let paused := p.ces.any (fun x => x.2.cmd == some id && x.2.paused)
  if hasCmd p id && c.phase != .finished && (fresh || c.stale) && (!running || paused) && !waitsResume p id &&
      !(fresh && (earlierTranslating p id || decide (16 ≤ (spill p c.ctx c.ring).tail.length))) then
    let a := trCmd p s.mem id
    match a.fault with
    | some (op, cause, va, none) =>
      if fresh && faultWait p c.ctx && !(xlSource p c.ctx == 1 || (xlSource p c.ctx == 2 && !va.testBit 56)) &&
          decide ((queue a.pkg (key pgXl 0x120)).items.length < 64) then
        .next { s with mem := a.mem, pkg := faultItem a.pkg id op cause va }
      else .next { s with mem := a.mem, pkg := xlateFault a.pkg id op cause va }
    | some (op, cause, va, some w) => .next { s with mem := a.mem, pkg := windowFault a.pkg id op cause w va }
    | none =>
      if a.waits then .next { s with mem := a.mem, pkg := a.pkg }
      else
        let r := if fresh then tryAccept id a else retranslated id a
        .next { s with mem := r.1, pkg := r.2 }
  else .next s

/-! ## Answers of the host -/

/-- R478: a completion grants the page, which is cached unless an invalidation crossed it, or denies it. -/
def doAtsCompletion (ctx page : Nat) (granted writable : Bool) (hpa : Nat) (p : Pkg) : Pkg :=
  match p.xl.requests.find? (fun r => r.1 == ctx && r.2.1 == page) with
  | none => p
  | some (_, _, write) =>
    let x := p.xl
    let rest := x.requests.filter (fun r => !(r.1 == ctx && r.2.1 == page))
    let again := x.retried.any (fun r => r == (ctx, page))
    let x1 : XlSt := { x with
      requests := rest, retried := x.retried.filter (· != (ctx, page)), noCache := x.noCache.filter (· != (ctx, page)) }
    let e : AtcEnt := ⟨pasidOf p ctx, page, hpa / 4096, writable⟩
    if granted && (!write || writable) then
      if x.noCache.any (fun r => r == (ctx, page)) then setXl p { x1 with once := x1.once ++ [e] }
      else setXl p { x1 with
        atc := (e :: x1.atc.filter (fun y => !(y.pasid == e.pasid && y.page == page))).take 4096 }
    else if priEn p ctx && !again then askPri (setXl p x1) ctx page
    else setXl p { x1 with denied := x1.denied ++ [(ctx, page, 6)] }

def execAtsCompletion (ctx page : Nat) (granted writable : Bool) (hpa : Nat) (s : State) : Out :=
  .next (s.onPkg (doAtsCompletion ctx page granted writable hpa))

/-- The oldest page that waits for a page request is asked for when one has been answered (R479). -/
def nextPri (p : Pkg) : Pkg :=
  match p.xl.pris.find? (fun x => !x.2.2) with
  | some (ctx, page, _) => askPri p ctx page
  | none => p

/-- R478: Success (0) sends the Translation Request once more; Invalid Request (1) and Response Failure are cause 7, and
the latter stops page requests. -/
def doPriResponse (ctx page code : Nat) (p : Pkg) : Pkg :=
  if p.xl.pris.any (fun r => r == (ctx, page, true)) then
    let x : XlSt := { p.xl with pris := p.xl.pris.filter (· != (ctx, page, true)) }
    if code = 0 then
      let q := askAts (setXl p { x with retried := x.retried ++ [(ctx, page)] }) ctx page
        (p.qm.cmds.any (fun c => c.2.ctx == ctx && (List.range 6).any (fun i =>
          let o := dOperand c.2.desc i
          o.write && decide (o.addr / 4096 ≤ page) && decide (page * 4096 < o.addr + o.extent))))
      nextPri q
    else
      let q := setXl p { x with denied := x.denied ++ [(ctx, page, 7)] }
      nextPri (if code = 1 then q else raiseBlock (setBit q (key pgXl 0x100) 31 true) pgXl 1)
  else p

def execPriResponse (ctx page code : Nat) (s : State) : Out := .next (s.onPkg (doPriResponse ctx page code))

/-! ## Invalidations (R480, R484, R485) -/

/-- Whether a leaf of a command lies in a range of pages. -/
def inPages (x : Xlate) (page pages : Nat) : Bool := decide (x.va < page + pages) && decide (page < x.va + x.pages)

/-- Marks the leaves of accepted commands that an invalidation reaches; a MOVE's own held pages wait for its switch. -/
def markStale (p : Pkg) (hit : Cmd → Bool) (page pages : Nat) : Pkg :=
  let mark (id : Nat) (c : Cmd) : Cmd :=
    if c.phase ≠ .translating ∧ c.phase ≠ .finished ∧ hit c = true ∧ id ∉ p.qm.holds then
      { c with pages := c.pages.map (fun x => if inPages x.2 page pages then (x.1, { x.2 with stale := true }) else x) }
    else c
  { p with qm := { p.qm with cmds := p.qm.cmds.map (fun x => (x.1, mark x.1 x.2)) } }

/-- Whether an invalidation reaches a PASID: its own, or with Global Invalidate, any number beyond the 20 bits of a PASID, every one
(Table 15-3). -/
def reachesPasid (want pasid : Nat) : Bool := decide (2 ^ 20 ≤ want) || pasid == want

def execAtsInvalidate (pasid page pages tag : Nat) (s : State) : Out :=
  .next (s.onPkg (fun p =>
    let x := p.xl
    let cross := (x.requests.filter (fun r => reachesPasid pasid (pasidOf p r.1) && decide (page ≤ r.2.1) &&
      decide (r.2.1 < page + pages))).map (fun r => (r.1, r.2.1))
    let x1 : XlSt := { x with
      atc := x.atc.filter (fun e => !(reachesPasid pasid e.pasid && decide (page ≤ e.page) && decide (e.page < page + pages)))
      noCache := (x.noCache ++ cross).eraseDups
      invs := x.invs ++ [⟨some tag, pasid, page, pages⟩] }
    markStale (setXl p x1) (fun c => reachesPasid pasid (pasidOf p c.ctx) && c.pages.any (fun y => y.2.ats)) page pages))

/-- Whether an invalidation's action has ended: no accepted command holds a stale leaf of its range, and no MOVE holds it. -/
def invEnded (p : Pkg) (w : InvWork) : Bool :=
  p.qm.cmds.all (fun x =>
    let hit := match w.tag with
      | some _ => reachesPasid w.ctx (pasidOf p x.2.ctx)
      | none => x.2.ctx == w.ctx
    !(hit && x.2.pages.any (fun y => (y.2.stale || p.qm.holds.any (· == x.1)) && inPages y.2 w.page w.pages)))

/-- R480: the Invalidate Completion is sent when the affected commands have been translated again. -/
def doInvalidateCompletion (tag : Nat) (p : Pkg) : Pkg :=
  match p.xl.invs.find? (fun w => w.tag == some tag) with
  | some w =>
    if invEnded p w then emitMsg (setXl p { p.xl with invs := p.xl.invs.erase w }) (.atsInvalidated tag) else p
  | none => p

def execInvalidateCompletion (tag : Nat) (s : State) : Out := .next (s.onPkg (doInvalidateCompletion tag))

def invControl : Nat := key pgXl 0x118

/-- A write of XL_INV_CONTROL: its RW fields, and with GO an invalidation of the context's range or of all of it. A write
while BUSY is discarded (R741). -/
def putInvControl (value : W64) (p : Pkg) : Pkg :=
  if bit p invControl 30 then p
  else
    let v := mergeWrite (rw4 0x118 (msk 29 29 + msk 19 0)) (reg p invControl) value
    let p1 := setReg p invControl v
    if bitOf value 31 then
      let ctx := bitsOf v 19 16
      let page := if bitOf v 29 then 0 else fld p (key pgXl 0x110) 56 12
      let pages := if bitOf v 29 then 2 ^ 45 else bitsOf v 15 0 + 1
      let x : XlSt := { p1.xl with invs := p1.xl.invs ++ [⟨none, ctx, page, pages⟩] }
      markStale (setBit (setXl p1 x) invControl 30 true) (fun c => c.ctx == ctx) page pages
    else p1

def doXlInvGo (rq : Requester) (value : W32) (p : Pkg) : Pkg :=
  ifWrites p rq pgXl 0x118 (putInvControl (value.setWidth 64))

def execXlInvGo (rq : Requester) (value : W32) (s : State) : Out := .next (s.onPkg (doXlInvGo rq value))

/-- The invalidation completes and BUSY falls. -/
def doXlInvDone (p : Pkg) : Pkg :=
  match p.xl.invs.find? (fun w => w.tag.isNone) with
  | some w => if invEnded p w then
      raiseBlock (setBit (setXl p { p.xl with invs := p.xl.invs.erase w }) invControl 30 false) pgXl 2
    else p
  | none => p

def execXlInvDone (s : State) : Out := .next (s.onPkg doXlInvDone)

/-! ## Resumes and control writes -/

/-- R487: a resume with RETRY walks the page again; without, or when the second walk faults, the command ends
XLATE_FAULT. A resume that names no waiting fault is discarded. -/
def faultResume (value : W32) (s : State) : State :=
  let p := s.pkg
  match p.xl.waits.find? (fun w => w.seq == bitsOf value 15 0) with
  | none => s
  | some w =>
    let c := cmd p w.id
    let q := setXl p { p.xl with waits := p.xl.waits.erase w }
    if bitOf value 31 then
      match walkPage q s.mem c.ctx (accessKind c w.operand) (dPrio c.desc) (dOperand c.desc w.operand).write (w.page * 4096) with
      | (.ok _, m, q1) => { s with mem := m, pkg := q1 }
      | (.fault cause, m, q1) => { s with mem := m, pkg := xlateFault q1 w.id w.operand cause (w.page * 4096) }
      | (.refused cause win, m, q1) => { s with mem := m, pkg := windowFault q1 w.id w.operand cause win (w.page * 4096) }
      | (.waits, m, q1) => { s with mem := m, pkg := setXl q1 { q1.xl with waits := p.xl.waits } }
    else { s with pkg := finishCmd q w.id 0x20 (w.operand + w.recSeq * 65536) }

def execXlFaultResume (rq : Requester) (value : W32) (s : State) : Out :=
  match writeFate s.pkg rq pgXl 0x130 with
  | .accepted => .next (faultResume value s)
  | _ => .next (s.onPkg (fun p => ifWrites p rq pgXl 0x130 id))

/-- R474. -/
def putCtxConfig (ctx : Nat) (value : W64) (p : Pkg) : Pkg :=
  let k := xlCtx ctx 0x100
  let v := mergeWrite (rw4 0x100 (msk 4 0)) (reg p k) value
  let on := bit p (key (pgQm + 1 + ctx) 0x100) 31
  let src := bitsOf v 1 0
  if src = 3 ∨ (p.standalone = true ∧ src ≠ 0) then p
  else if on ∧ (src ≠ fld p k 1 0 ∨ bitOf v 4 ≠ bit p k 4) then p
  else setReg p k v

def doXlCtxConfigWrite (rq : Requester) (ctx : Nat) (value : W32) (p : Pkg) : Pkg :=
  if ctx < 16 then ifWrites p rq (pgXl + 1 + ctx) 0x100 (putCtxConfig ctx (value.setWidth 64)) else p

def execXlCtxConfigWrite (rq : Requester) (ctx : Nat) (value : W32) (s : State) : Out :=
  .next (s.onPkg (doXlCtxConfigWrite rq ctx value))

/-- XL_CTX_ROOT keeps its value while the context is enabled (R474). -/
def putCtxRoot (ctx : Nat) (value : W64) (p : Pkg) : Pkg :=
  let k := xlCtx ctx 0x108
  if bit p (key (pgQm + 1 + ctx) 0x100) 31 then p
  else setReg p k (mergeWrite (rw8 0x108 (msk 63 60 + msk 43 0)) (reg p k) value)

/-- R481, Table 14-9: a write while entries are in use, with a size outside 16 to 22 or a region outside populated HBM is
discarded as a whole. -/
def putCtsControl (value : W64) (p : Pkg) : Pkg :=
  let v := mergeWrite (rw8 0x108 (msk 51 21 + msk 5 0)) (reg p ctsControl) value
  let n := bitsOf v 5 1
  let base := bitsOf v 51 21 * 0x200000
  let inHbm := match region base with
    | .hbm _ _ => hbmOrScratch p base (16 * 2 ^ n)
    | _ => false
  if (ctsUsed p).isEmpty && decide (16 ≤ n) && decide (n ≤ 22) && inHbm then setReg p ctsControl v else p

def doXlCtsControlWrite (rq : Requester) (value : W64) (p : Pkg) : Pkg := ifWrites p rq pgXl 0x108 (putCtsControl value)

def execXlCtsControlWrite (rq : Requester) (value : W64) (s : State) : Out :=
  .next (s.onPkg (doXlCtsControlWrite rq value))

end Sys2Proof.Machine
end

