-- ==== Sys2Proof/Machine/Coherence.lean ====
section
/-! DEFINITION. The requests and snoops of the coherence protocol (spec/13): harts' requests at their homes, the host's
back-invalidation, its CXL.mem accesses to the inset window, and its snoops of the device cache. A hart's modified line has
its value in memory already; the filters say who holds it. -/

namespace Sys2Proof.Machine

def pgOfHart (h : Nat) : Nat := pgCc (h / 4)

/-- Whether an address lies in memory that caches may hold (Table 12-3). -/
def cacheable (pa : Nat) : Bool :=
  match region pa with
  | .ddr _ => true
  | .hbm _ _ => true
  | .slm _ _ => true
  | _ => false

/-- The read that a home makes of a line for a hart. -/
def homeFetch (p : Pkg) (pa : Nat) : Pkg :=
  match region pa with
  | .hbm s o => slmRead p (64 * s + slmHash o) pa 1 0
  | .ddr _ => ddrRead p pa 1
  | _ => p

/-- The line that a home supplies. -/
def supply (p : Pkg) (m : Memory) (pa : Nat) : Pkg :=
  emitMsg p (.homeData (pa / 64 * 64) (m.line pa) (m.poisoned (pa / 64 * 64) 64))

/-- The read that a home makes of a line for a hart, with the events that the hart counts: a request to its L3 or SLM home, and a
read of DDR (Table 20-7). -/
def hartFetch (p : Pkg) (h pa : Nat) : Pkg :=
  let q := homeFetch p pa
  match region pa with
  | .ddr _ => if q.memc = p.memc then hartEvent q h 0x04 1 else hartEvent (hartEvent q h 0x04 1) h 0x05 1
  | _ => hartEvent q h 0x06 1

/-- A miss of the hart's L1D and of its L2. -/
def hartMiss (p : Pkg) (h : Nat) : Pkg := hartEvent (hartEvent p h 0x01 1) h 0x03 1

/-- RdShared (Table 13-3): an owning hart shares its line down; a host owner is called first. The hart becomes a sharer. -/
def shareAt (p : Pkg) (m : Memory) (h pa : Nat) : Bool × Pkg :=
  let line := pa / 64
  let d := dirLine p line
  if d.host = 2 then (false, biStart p line false (some (.rdShared h)))
  else
    let s := (h :: d.harts).eraseDups
    let p1 := match d.owner with
      | some o => if o = h then p else snooped p line o
      | none => p
    let p2 := crossLine (hartFetch (hartMiss p1 h) h pa) (idHart h) pa true
    (true, supply (setDir p2 line { d with owner := none, sharers := s }) m pa)

/-- RdOwn: every other holder gives up its copy, the host too; the hart becomes the owner. -/
def ownAt (p : Pkg) (m : Memory) (h pa : Nat) : Bool × Pkg :=
  let line := pa / 64
  if (dirLine p line).host ≠ 0 then (false, biStart p line true (some (.rdOwn h)))
  else
    let p1 := snoopInv (crossLine (hartFetch (hartMiss p h) h pa) (idHart h) pa true) line (some h)
    (true, supply (setDir p1 line { dirLine p1 line with owner := some h, sharers := [] }) m pa)

/-- Upgrade: a requester still named by the filter gets a grant without a line, any other the line as RdOwn. -/
def upgradeAt (p : Pkg) (m : Memory) (h pa : Nat) : Bool × Pkg :=
  let line := pa / 64
  if (dirLine p line).host = 0 ∧ h ∈ (dirLine p line).harts then
    let p1 := snoopInv (hartEvent p h (match region pa with | .ddr _ => 0x04 | _ => 0x06) 1) line (some h)
    (true, setDir p1 line { dirLine p1 line with owner := some h, sharers := [] })
  else ownAt p m h pa

/-- The memory-side cache takes a line that leaves a hart. -/
def sideTakes (p : Pkg) (pa : Nat) : Pkg :=
  match region pa with
  | .hbm s o => slmWrite p (64 * s + slmHash o) pa false
  | _ => p

/-- R455, R456: a dirty eviction of the owner is taken; one of a hart that the filter no longer names is discarded. -/
def doWrBack (h pa : Nat) (p : Pkg) : Pkg :=
  let d := dirLine p (pa / 64)
  if d.owner = some h ∧ fateFor p (idHart h) pa false = .served then
    setDir (sideTakes (crossLine p (idHart h) pa false) pa) (pa / 64) { d with owner := none }
  else p

def execWrBack (h pa : Nat) (s : State) : Out := .next (s.onPkg (doWrBack h pa))

/-- RdCur: the present line, untracked. -/
def doRdCur (pa : Nat) (m : Memory) (p : Pkg) : Pkg :=
  match homeRead p pa 1 0 (some .rdCur) with
  | (true, q) => supply q m pa
  | (false, q) => q

/-- ATOM (R459): the operation in the reduction unit; its RSP result, whose value the spec does not state, is a free
value. -/
def atomState (pa op : Nat) (value : W64) (s : State) : State :=
  match atomAt pa op value 0 (homePage pa) (some (.atom op value)) s with
  | (.done, t) => t.onPkg (fun p => emitMsg (nextFree p) (.homeResult pa (Config.freeWord p.free)))
  | (_, t) => t

/-! ## Admission (R448, R449) -/

/-- A request served at its home; one to a line that the home recalls from the host waits for that, after those before it. -/
def serveReq (pa : Nat) (r : HomeReq) (s : State) : State :=
  if biBusy s.pkg (pa / 64) then s.onPkg (fun p => biStart p (pa / 64) false (some r))
  else match r with
    | .rdShared h => s.onPkg (fun p => (shareAt p s.mem h pa).2)
    | .rdOwn h => s.onPkg (fun p => (ownAt p s.mem h pa).2)
    | .upgrade h => s.onPkg (fun p => (upgradeAt p s.mem h pa).2)
    | .rdCur => s.onPkg (doRdCur pa s.mem)
    | .atom op v => atomState pa op v s

/-- The REQ queue of a home's source port: its requests with their addresses. -/
def reqQueue (p : Pkg) (home port : Nat) : List (Nat × HomeReq) := SMap.get p.home.queues (64 * home + port) []
def setReqQueue (p : Pkg) (home port : Nat) (l : List (Nat × HomeReq)) : Pkg :=
  { p with home := { p.home with queues :=
      if l.isEmpty then SMap.drop p.home.queues (fun k => k == 64 * home + port) else SMap.set p.home.queues (64 * home + port) l } }

/-- The home has admitted a request of a port. -/
def admitted (p : Pkg) (home port : Nat) : Pkg :=
  { p with home := { p.home with lastPort := SMap.set p.home.lastPort home port } }

/-- The port whose head is admitted next: round robin after the last one (R449). -/
def nextPort (p : Pkg) (home : Nat) : Option Nat :=
  ((List.range 64).map (fun i => (SMap.get p.home.lastPort home 63 + 1 + i) % 64)).find? (fun j => !(reqQueue p home j).isEmpty)

/-- Waiting requests are admitted while the tracker has room. -/
def admitAll (home fuel : Nat) (s : State) : State :=
  match fuel with
  | 0 => s
  | k + 1 =>
    if !trackerRoom s.pkg home then s
    else match nextPort s.pkg home with
      | none => s
      | some j =>
        match reqQueue s.pkg home j with
        | [] => s
        | (pa, r) :: t => admitAll home k (serveReq pa r (s.onPkg (fun p => admitted (setReqQueue p home j t) home j)))

/-- The requests that wait in a home's REQ queues. -/
def queuedReqs (p : Pkg) (home : Nat) : Nat := ((List.range 64).map (fun j => (reqQueue p home j).length)).foldl (· + ·) 0

/-- A request joins its port's REQ queue, of 32 at the least (Table 13-2), and is admitted in its turn; one that finds the queue or
its way without a credit waits at its sender. -/
def request (who port pa : Nat) (r : HomeReq) (s : State) : State :=
  let home := homeNo pa
  let clear := match dieOfId who, dieOfHome pa with
    | some a, some b => requestClear s.pkg a b (!(dirLine s.pkg (pa / 64)).harts.isEmpty)
    | _, _ => true
  if clear && decide ((reqQueue s.pkg home port).length < 32) then
    let t := s.onPkg (fun p => setReqQueue p home port (reqQueue p home port ++ [(pa, r)]))
    admitAll home (queuedReqs t.pkg home) t
  else s

/-- The source ports of a home: the harts 0 to 47, then RdCur and ATOM requests of the other units. -/
def readPort : Nat := 48
def atomPort : Nat := 49

/-- A hart's request at a home where memory stands behind the address; a decode error supplies poison (R38). -/
def hartRequest (h pa : Nat) (r : HomeReq) (s : State) : State :=
  if decide (h < 48) && cacheable pa then
    match fate s.pkg pa with
    | .served => request (idHart h) h pa r s
    | .decode => s.onPkg (fun p => emitMsg (decodeError p (pgOfHart h) pa) (.homeData (pa / 64 * 64) 0 true))
    | _ => s
  else s

def execRdShared (h pa : Nat) (s : State) : Out := .next (hartRequest h pa (.rdShared h) s)
def execRdOwn (h pa : Nat) (s : State) : Out := .next (hartRequest h pa (.rdOwn h) s)
def execUpgrade (h pa : Nat) (s : State) : Out := .next (hartRequest h pa (.upgrade h) s)

def execRdCur (pa : Nat) (s : State) : Out :=
  match fate s.pkg pa with
  | .served => .next (request (homeId pa) readPort pa .rdCur s)
  | .decode => .next (s.onPkg (fun p => emitMsg (decodeError p (homePage pa) pa) (.homeData (pa / 64 * 64) 0 true)))
  | _ => .next s

def execAtom (pa op : Nat) (value : W64) (s : State) : Out :=
  if fate s.pkg pa = .served ∧ pa % 8 = 0 ∧ op ≤ 1 then .next (request (homeId pa) atomPort pa (.atom op value) s)
  else .next (atomState pa op value s)

/-! ## Snoops at a hart's L2 -/

/-- SNP-Share: the owner writes its line back and keeps it shared. -/
def doSnpShare (h pa : Nat) (p : Pkg) : Pkg :=
  let d := dirLine p (pa / 64)
  if d.owner = some h then
    setDir (sideTakes (snooped p (pa / 64) h) pa) (pa / 64) { d with owner := none, sharers := (h :: d.sharers).eraseDups }
  else hartEvent p h 0x07 1

def execSnpShare (h pa : Nat) (s : State) : Out := .next (s.onPkg (doSnpShare h pa))

/-- A hart gives up its copy of a line, and its reservation on it. -/
def giveUp (p : Pkg) (h line : Nat) : Pkg :=
  let d := dirLine p line
  let p1 := loseResv p h line
  let p2 := if d.owner = some h then sideTakes (crossLine p1 (idHart h) (line * 64) false) (line * 64) else p1
  setDir p2 line { d with
    owner := if d.owner = some h then none else d.owner, sharers := d.sharers.filter (· != h) }

/-- SNP-Inv: a hart that holds a reservation on the line delays its answer (R458); any other gives up its copy. -/
def doSnpInv (h pa : Nat) (p : Pkg) : Pkg :=
  let line := pa / 64
  if (hart p h).resv = some line ∧ line ∉ (hart p h).delayed then
    setHart p h { hart p h with delayed := (hart p h).delayed ++ [line] }
  else giveUp (snooped p line h) h line

def execSnpInv (h pa : Nat) (s : State) : Out := .next (s.onPkg (doSnpInv h pa))

/-- The owner writes its line back and keeps it exclusive and clean (SNP-Clean, CBO.CLEAN). -/
def cleanLine (h pa : Nat) (p : Pkg) : Pkg :=
  if (dirLine p (pa / 64)).owner = some h then sideTakes p pa else p

/-- SNP-Clean. -/
def doSnpClean (h pa : Nat) (p : Pkg) : Pkg := cleanLine h pa (snooped p (pa / 64) h)

def execSnpClean (h pa : Nat) (s : State) : Out := .next (s.onPkg (doSnpClean h pa))

/-- The snoops that a hart delayed are answered. -/
def answerDelayed (p : Pkg) (h : Nat) : Pkg :=
  let l := (hart p h).delayed
  l.foldl (fun q line => giveUp (snooped q line h) h line) (setHart p h { hart p h with delayed := [] })

/-- R458: after 64 core beats the delayed snoop is answered and the reservation is lost. -/
def doLrSnoopDelayExpiry (h : Nat) (p : Pkg) : Pkg := answerDelayed p h

def execLrSnoopDelayExpiry (h : Nat) (s : State) : Out := .next (s.onPkg (doLrSnoopDelayExpiry h))

/-- R450: the line is recalled from every hart the entry names, or the host is back-invalidated. -/
def doFilterEvictionRecall (pa : Nat) (p : Pkg) : Pkg :=
  let p1 := (dirLine p (pa / 64)).harts.foldl (fun q h => giveUp (snooped q (pa / 64) h) h (pa / 64)) p
  if (dirLine p1 (pa / 64)).host ≠ 0 then biStart p1 (pa / 64) true none else p1

def execFilterEvictionRecall (pa : Nat) (s : State) : Out := .next (s.onPkg (doFilterEvictionRecall pa))

/-! ## Back-invalidation of the host (R465 to R467) -/

def doBisnpInv (pa : Nat) (p : Pkg) : Pkg :=
  if (dirLine p (pa / 64)).host ≠ 0 then biStart p (pa / 64) true none else p

def execBisnpInv (pa : Nat) (s : State) : Out := .next (s.onPkg (doBisnpInv pa))

def doBisnpData (pa : Nat) (p : Pkg) : Pkg :=
  if (dirLine p (pa / 64)).host = 2 then biStart p (pa / 64) false none else p

def execBisnpData (pa : Nat) (s : State) : Out := .next (s.onPkg (doBisnpData pa))

/-- The answer of the host: its copy is gone, or shared after a BISnpData; the waiting requests are served in the order in which they
came, where one may wait anew for a stronger snoop; the next back-invalidation goes out, and the freed entries admit. -/
def biAnswered (pa : Nat) (w : BiWait) (s : State) : State :=
  let line := pa / 64
  let s1 := s.onPkg (fun p =>
    setDir { p with home := { p.home with bi := SMap.drop p.home.bi (fun k => k == line) } } line
      { dirLine p line with host := if w.inv then 0 else 1 })
  let s2 := (w.reqs.foldl (fun t r => serveReq (line * 64) r t) s1).onPkg biNext
  admitAll (homeNo (line * 64)) (queuedReqs s2.pkg (homeNo (line * 64))) s2

/-- R465: BIRsp arrives; a modified line was written back before it, as the snoop's data. -/
def execBirsp (pa : Nat) (wb : Option Item) (s : State) : Out :=
  match s.pkg.home.bi.find? (fun x => x.1 == pa / 64 && x.2.sent) with
  | none => .next s
  | some (_, w) =>
    let s1 := match wb with
      | some v => { s with mem := s.mem.storeLine pa v false, pkg := sideTakes s.pkg (pa / 64 * 64) }
      | none => s
    .next (biAnswered pa w s1)

/-- R467: no BIRsp within 10 ms: the host's copy is taken as gone, the line is poisoned, logged and reported. -/
def execHostSnoopTimeout (pa : Nat) (s : State) : Out :=
  match s.pkg.home.bi.find? (fun x => x.1 == pa / 64 && x.2.sent) with
  | none => .next s
  | some (_, w) =>
    if w.since + 10000000 ≤ timerNow s.pkg then
      let line := pa / 64 * 64
      let p1 := emitMsg (setAer (logErr s.pkg pgHl ⟨0x81, 0, 1, line, 0⟩) 22) (.aer line)
      let m1 := s.mem.storeLine line (s.mem.line line) true
      .next (biAnswered pa { w with inv := true } { s with mem := m1, pkg := p1 })
    else .next s

/-! ## CXL.mem accesses of the inset window (R464, R407) -/

/-- The counting block of an inset-window line: its HBM stack. -/
def countHost (p : Pkg) (pa : Nat) (write : Bool) : Pkg :=
  match region pa with
  | .hbm s o => countAccess p (hbmStack s o) pa write 0
  | _ => p

/-- The host's copy after a read that asks to cache the line: shared while a hart holds it, else owned. -/
def hostCaches (p : Pkg) (line : Nat) : Pkg :=
  let d := dirLine p line
  let s := d.harts.eraseDups
  setDir p line { owner := none, sharers := s, host := max d.host (if s.isEmpty then 2 else 1) }

/-- A host request is held: CXL.mem while the inset window moves (R517), a doorbell behind it (R336). -/
def holdRequest (p : Pkg) (c : Instr) : Pkg := { p with hl := { p.hl with held := p.hl.held ++ [c] } }

/-- Whether the inset window is held by safe hold or at QUIESCED (R610, R666). -/
def insetHeld (p : Pkg) : Bool :=
  decide (1 ≤ fld p (key pgPwr 0x100) 31 28 ∧ fld p (key pgPwr 0x100) 31 28 ≤ 2) || decide (fld p (key pgSv 0x100) 31 28 = 4)

/-- HOLD_ACCESS of a host access in safe hold: DETAIL 0 a read, 1 a write (R610). -/
def holdAccess (p : Pkg) (hpa : Nat) (write : Bool) : Pkg :=
  logErr p pgHl ⟨0x84, 0, 3, hpa / 64 * 64, bitNat write⟩

/-- A read of an inset-window line, served at its home (RdCur), counted at its stack. -/
def hostRead (hpa : Nat) (cacheIt : Bool) (m : Memory) (p : Pkg) : Pkg :=
  match insetMap p (hpa / 64 * 64) with
  | none => p
  | some pa =>
    if insetHeld p then emitMsg (holdAccess p hpa false) (.homeData pa 0 true) else
    match fateFor p idHost pa false with
    | .served =>
      let p1 := crossLine (countHost (homeFetch p pa) pa false) idHost pa true
      supply (if cacheIt then hostCaches p1 (pa / 64) else p1) m pa
    | .decode => emitMsg (decodeError p pgHl pa) (.homeData pa 0 true)
    | _ => p

def execHostMemRead (hpa : Nat) (cacheIt : Bool) (s : State) : Out :=
  if insetMoving s.pkg then .next (s.onPkg (fun p => holdRequest p (.hostMemRead hpa cacheIt)))
  else .next (s.onPkg (hostRead hpa cacheIt s.mem))

/-- The enabled bytes of a line written. -/
def writeBytes (m : Memory) (a : Nat) (data : Item) (mask : W64) : Memory :=
  if mask = BitVec.allOnes 64 then m.storeLine a data false
  else (List.range 64).foldl (fun m i => if bitOf mask i then m.setByte (a + i) (BitVec.ofNat 8 (data.toNat / 2 ^ (8 * i))) else m) m

/-- A host write, or write-back: harts' copies go, the memory-side cache takes the line, the host's entry goes. -/
def hostWrote (p : Pkg) (pa : Nat) : Pkg :=
  let p1 := homeWrite (countHost p pa true) pa false idHost
  if p1.home.bi.any (fun x => x.1 == pa / 64) then p1 else setDir p1 (pa / 64) { dirLine p1 (pa / 64) with host := 0 }

def hostWrite (hpa : Nat) (data : Item) (mask : W64) (s : State) : State :=
  match insetMap s.pkg (hpa / 64 * 64) with
  | none => s
  | some pa =>
    if insetHeld s.pkg then { s with pkg := holdAccess s.pkg hpa true } else
    match fateFor s.pkg idHost pa (mask == BitVec.allOnes 64) with
    | .served => { s with mem := writeBytes s.mem pa data mask, pkg := hostWrote s.pkg pa }
    | .decode => { s with pkg := decodeError s.pkg pgHl pa }
    | _ => s

def execHostMemWrite (hpa : Nat) (data : Item) (mask : W64) (s : State) : Out :=
  if insetMoving s.pkg then .next (s.onPkg (fun p => holdRequest p (.hostMemWrite hpa data mask)))
  else .next (hostWrite hpa data mask s)

/-- R462: a host snoop of a line in the device cache: a pending line is answered with its present host value and its
ownership is lost; a committed line is answered with its new value, which the host then holds. -/
def doHostSnoop (hpa : Nat) (m : Memory) (p : Pkg) : Pkg :=
  let pa := hostBase + hpa / 64 * 64
  let line := pa / 64
  if p.home.pend.any (fun l => decide (l.pa / 64 = line) && l.owned) then
    supply { p with home := { p.home with
      pend := p.home.pend.map (fun (l : PLine) => if l.pa / 64 = line then { l with owned := false } else l) } } m pa
  else if line ∈ p.home.devCache then
    supply { p with home := { p.home with devCache := p.home.devCache.filter (· != line) } } m pa
  else p

def execHostSnoop (hpa : Nat) (s : State) : Out := .next (s.onPkg (doHostSnoop hpa s.mem))

end Sys2Proof.Machine
end

