-- ==== Sys2Proof/Machine/QueueManager.lean ====
section
/-! DEFINITION. The queue manager's rings (spec/08): doorbells, the fetch and checks of descriptors, dispatch, preemption and
resumption, completion records, ring control. -/

namespace Sys2Proof.Machine

/-! ## Ring registers -/

def ringId (ctx ring : Nat) : Nat := 64 * ctx + ring
def ringEnabled (p : Pkg) (ctx ring : Nat) : Bool := bit p (ringCfg ctx ring) 31
def ctxEnabled (p : Pkg) (ctx : Nat) : Bool := bit p (key (pgQm + 1 + ctx) 0x100) 31

/-- A ring's depth (R278), and a completion ring's (R279): 65,535 for a size of 2^16. -/
def depthOf (log2 : Nat) : Nat := if log2 = 16 then 65535 else 2 ^ log2
def ringLog (p : Pkg) (ctx ring : Nat) : Nat := fld p (ringCfg ctx ring) 20 16
def cqLog (p : Pkg) (ctx ring : Nat) : Nat := fld p (ringCfg ctx ring) 12 8
def cqKey (ctx ring : Nat) : Nat := ringKey ctx ring 0x20

/-- The commands of a ring that have no completion record yet. -/
def ringCmds (p : Pkg) (ctx ring : Nat) : List (Nat × Cmd) :=
  p.qm.cmds.filter (fun x => x.2.ctx == ctx && x.2.ring == ring && x.2.phase != .trailing)

def ringOk (ctx ring : Nat) : Bool := decide (ctx < 16) && decide (ring < 64)

/-! ## Doorbells (R277, R278) -/

/-- A doorbell write is served: COUNT joins TAIL, or the ring overruns, stops and queues the event, also where it was stopped
before. -/
def putDoorbell (ctx ring : Nat) (value : W64) (p : Pkg) : Pkg :=
  let n := bitsOf value 15 0
  let tail := ringTail p ctx ring
  let used := (tail + 65536 - ringHead p ctx ring) % 65536
  if n = 0 then p
  else if depthOf (ringLog p ctx ring) < (used + n) % 65536 then
    qmEvent (setFld p (ringCfg ctx ring) 27 26 3) 0x03 (64 * ctx + ring)
  else
    let t := (tail + n) % 65536
    setFld { p with qm := { p.qm with
      bells := SMap.set p.qm.bells (ringId ctx ring * 65536 + t) p.qm.nextBell, nextBell := p.qm.nextBell + 1 } }
      (ringStatus ctx ring) 15 0 t

def doDoorbell (rq : Requester) (ctx ring : Nat) (value : W32) (p : Pkg) : Pkg :=
  if ringOk ctx ring then
    ifWrites p rq (pgQm + 17 + ctx) (0x100 + 4 * ring) (putDoorbell ctx ring (value.setWidth 64))
  else p

/-- Whether the host link holds CXL.mem writes that were accepted before, or host writes behind them (R336, R521). -/
def writesHeld (p : Pkg) : Bool :=
  p.hl.held.any (fun c => match c with
    | .hostMemWrite _ _ _ => true
    | .doorbell _ _ _ _ => true
    | .bar0Access _ _ _ _ => true
    | _ => false)

/-- A host's doorbell waits in the host link behind the CXL.mem writes that it holds (R336). -/
def execDoorbell (rq : Requester) (ctx ring : Nat) (value : W32) (s : State) : Out :=
  if rq = .host ∧ writesHeld s.pkg = true then .next (s.onPkg (fun p => holdRequest p (.doorbell rq ctx ring value)))
  else .next (s.onPkg (doDoorbell rq ctx ring value))

/-- The service number of the doorbell that made the descriptor at HEAD fetchable, and the bells still needed after it. -/
def bellOf (p : Pkg) (ctx ring head : Nat) : Nat :=
  let mine := p.qm.bells.filter (fun x => x.1 / 65536 == ringId ctx ring)
  let far (x : Nat × Nat) : Nat := (x.1 + 131072 - head - 1) % 65536
  match mine with
  | [] => 0
  | b :: t => (t.foldl (fun a x => if far x < far a then x else a) b).2

def dropBell (p : Pkg) (ctx ring head : Nat) : Pkg :=
  { p with qm := { p.qm with bells := SMap.drop p.qm.bells (fun k => k == ringId ctx ring * 65536 + head) } }

/-! ## The queue manager's own reads and writes of memory (R335) -/

inductive QmRead where
  | waits
  | poison
  | bytes (v : Nat)
  deriving DecidableEq, Repr

/-- Lines of a range read at their homes; false while one must be recalled from the host. -/
def readLines (p : Pkg) (pa n cls : Nat) : Bool × Pkg :=
  (List.range n).foldl (fun (x : Bool × Pkg) i =>
    let a := pa / 64 * 64 + 64 * i
    let r := homeRead x.2 a cls 0 none
    (x.1 && r.1, if r.1 then crossLine r.2 (idRing 0 0) a true else r.2)) (true, p)

/-- `n` bytes from a physical address, read from their point of visibility; with LEGACY_ORDER host memory answers after the reads of
it issued before (R524). -/
def qmRead (p : Pkg) (m : Memory) (pa n cls : Nat) : QmRead × Pkg :=
  match fateFor p (idRing 0 0) pa false with
  | .waits => (.waits, p)
  | .served =>
    if (match region pa with | .host _ => readsOlder p (p.hl.lastRead + 1) | _ => false) then (.waits, p) else
    match readLines p pa (ceilDiv n 64) cls with
    | (false, q) => (.waits, q)
    | (true, q) => (if m.poisoned pa n then .poison else .bytes (m.read pa n), q)
  | _ => (.poison, decodeError p pgQm pa)

/-! ## Descriptor checks (R285, Table 8-8) -/

def present' (d : BitVec 1024) (i : Nat) : Bool := (dOperand d i).rows != 0

def argsZero (d : BitVec 1024) (from' : Nat) : Bool := decide (56 ≤ from') || dField d from' (56 - from') == 0

def reduceCode (d : BitVec 1024) : Nat := dField d 37 1 % 16
def reduceAlgo (d : BitVec 1024) : Nat := dField d 40 1
def reduceSources (d : BitVec 1024) : Nat := dField d 36 1
def reduceRecords (d : BitVec 1024) : Nat := dField d 32 4
def reduceGroup (d : BitVec 1024) : Nat := dField d 42 2

/-- The key of word w of a group table entry (R575): 240 entries on the router's page 6, the rest on page 7. -/
def groupKey (g w : Nat) : Nat := key (pgRt + 6 + g / 240) (0x100 + 16 * (g % 240) + 8 * w)

/-- R545: a neighbour whose link lacks the COLLECTIVE feature is no ring hop. -/
def noCollective (p : Pkg) (node : Nat) : Bool :=
  (List.range 6).any (fun i =>
    let k := key (pgPl i) 0x108
    bit p k 31 && fld p k 13 0 == node && !bit p (key (pgPl i) 0x10C) 18)

/-- Reserved bits and unused fields (reason 3). -/
def reservedBad (d : BitVec 1024) : Bool :=
  let op := dOpcode d
  let args := match op with
    | 2 => !argsZero d 38
    | 3 => !argsZero d 35 || decide (1 < dField d 34 1)
    | 4 => dField d 39 1 != 0 || decide (127 < dField d 37 1) || (decide (8 < reduceCode d) && reduceCode d != 15) ||
        dField d 37 1 / 16 % 4 == 3 || (reduceAlgo d == 0 && !argsZero d 41)
    | 5 => !argsZero d 41 || decide (1 < dField d 40 1)
    | 6 => !argsZero d 41 || decide (1 < dField d 40 1)
    | 7 => !argsZero d 33 || decide (1 < dField d 32 1)
    | _ => !argsZero d 32
  dFlags d / 256 != 0 || dField d 8 1 / 16 != 0 || dField d 9 1 != 0 || dPlace d % 16 != 0 || args ||
    (op != 1 && op != 2 && dHandle d != 0) || (op != 2 && op != 4 && dSeed d != 0) ||
    (List.range 6).any (fun i => dField d (56 + 12 * i + 11) 1 / 64 == 3 || dField d (56 + 12 * i + 7) 1 / 64 != 0)

/-- The operands that an opcode uses; a RUN's are those its chart's movers name. -/
def usedOperands (d : BitVec 1024) (run : List Nat) : List Nat :=
  match dOpcode d with
  | 1 => [0]
  | 2 => run
  | 3 => [0, 1]
  | 4 => List.range (reduceSources d) ++ (if reduceAlgo d = 0 then [5] else [3, 4, 5])
  | 5 => [0]
  | 6 => [0]
  | _ => []

/-- R283: an absent operand with another field set, or a present one with a pitch of 0 (reason 6). -/
def refsBad (d : BitVec 1024) : Bool :=
  (List.range 6).any (fun i =>
    let o := dOperand d i
    (o.rows == 0 && dField d (56 + 12 * i) 12 != 0) || (o.rows != 0 && o.pitch == 0))

/-- Operands present exactly where used, and the sizes of semaphores and of a REDUCE (reason 6). -/
def operandsBad (p : Pkg) (d : BitVec 1024) (run : List Nat) : Bool :=
  let used := usedOperands d run
  let fits (i n : Nat) : Bool := decide (n ≤ (dOperand d i).extent)
  let shape := (List.range 6).any (fun i => present' d i != (i ∈ used))
  let n := reduceRecords d
  shape || (match dOpcode d with
    | 4 =>
      let s := reduceSources d
      let outBytes := if reduceCode d = 15 then 80 * n else ceilDiv (n * outBits (reduceCode d) false) 8
      s == 0 || decide (5 < s) || !(List.range s).all (fun i => fits i (80 * n)) || !fits 5 outBytes ||
        (reduceAlgo d != 0 && (decide (3 < s) || decide (2 < reduceAlgo d) || decide (1 < dField d 41 1) ||
          decide (255 < reduceGroup d) || decide (15 < dField d 44 4) || dField d 48 8 != 0 ||
          !bit p (groupKey (reduceGroup d) 0) 63 || noCollective p (fld p (groupKey (reduceGroup d) 0) 29 16) || !fits 3 (80 * n) || !fits 4 (80 * n)))
    | 5 => (dOperand d 0).rows != 1 || (dOperand d 0).pitch != 1
    | 6 => (dOperand d 0).rows != 1 || (dOperand d 0).pitch != 1
    | _ => false)

/-- The shape of a RUN (reason 8): M, N and K of a PROJECT chart, zero otherwise; WIDTH and PITCH of a MOVE_TILE. -/
def shapeBad (d : BitVec 1024) (project : Bool) : Bool :=
  let m := dField d 32 2
  let okDim (n : Nat) : Bool := n % 8 == 0 && decide (8 ≤ n) && decide (n ≤ 4096)
  match dOpcode d with
  | 2 => if project then !(okDim m && okDim (dField d 34 2) && okDim (dField d 36 2)) else dField d 32 6 != 0
  | 3 => (List.range 2).any (fun i => decide ((dOperand d i).pitch < m) ||
      (dField d 34 1 == 1 && (dOperand d i).pitch != m)) || m == 0 || decide (2047 < m) ||
      (dOperand d 0).rows != (dOperand d 1).rows
  | _ => false

/-- Alignment (reason 11): operands that movers use, and semaphores. -/
def alignBad (d : BitVec 1024) (run : List Nat) : Bool :=
  match dOpcode d with
  | 5 => (dOperand d 0).addr % 8 != 0
  | 6 => (dOperand d 0).addr % 8 != 0
  | 1 => false
  | _ => (usedOperands d run).any (fun i => (dOperand d i).addr % 64 != 0)

/-- The operands that a chart's movers name in descriptors other than NOP. -/
def chartOperands (ch : Chart) : List Nat :=
  (ch.units.flatMap (fun u =>
    if u.typ = 5 then
      (List.range (u.codeSize / 8)).filterMap (fun i =>
        let w := (ch.code.getD (u.codeOff + 8 * i) 0).toNat
        if w % 256 = 0 then none else some (w / 256 % 256))
    else [])).eraseDups

/-- The reason code for which a fetched descriptor is refused; 0 where it passes. The checks are taken in the order of
R285's list. -/
def descReason (p : Pkg) (d : BitVec 1024) (ctx ring : Nat) (chart : Option Chart) (known : Bool) : Nat :=
  let ops := match chart with
    | some ch => chartOperands ch
    | none => []
  let project := match chart with
    | some ch => isProject ch
    | none => false
  if dField d 0 1 ≠ 1 then 1
  else if 9 < dOpcode d then 2
  else if reservedBad d then 3
  else if dPrio d ≠ ringClass p ctx ring ∨ dPrio d = 3 then 4
  else if dField d 8 1 ≠ ctx then 5
  else if dOpcode d = 2 ∧ known = false then 7
  else if refsBad d ∨ ((dOpcode d ≠ 2 ∨ chart.isSome = true) ∧ operandsBad p d ops = true) then 6
  else if (dOpcode d ≠ 2 ∨ chart.isSome = true) ∧ shapeBad d project = true then 8
  else if alignBad d ops then 11
  else if dRepeatable d && dInPlace d then 14
  else if dPlace d / 16384 % 4 = 3 ∧ 24 < dPlace d / 16 % 32 then 15
  else 0

/-- The chart image that a RUN's handle names, as it stands in memory; none where it does not parse. -/
def namedChart (p : Pkg) (m : Memory) (ctx : Nat) (d : BitVec 1024) : Option Chart :=
  if dOpcode d = 2 then
    match dirFind p ctx (dHandle d) with
    | some e =>
      let size := leAt (bytesAt m e.pages e.va 64) 4 4
      let b := bytesAt m e.pages e.va (max 64 (min size 65536))
      if chartStatus b = (0, 0) then some (parseChart b) else none
    | none => none
  else none

/-! ## Fetch (R279, R280) -/

/-- Pending-queue slots of a ring that are free, counting commands still in translation. -/
def pendingRoom (p : Pkg) (ctx ring : Nat) : Bool :=
  let w := reg p (spillKey ctx ring)
  let size := 32 + (if bitOf w 0 then spillSize w else 0)
  let tr := ((ringCmds p ctx ring).filter (fun x => x.2.phase == .translating)).length
  decide ((spill p ctx ring).depth + tr < size)

/-- A completion slot is free. -/
def cqRoom (p : Pkg) (ctx ring : Nat) : Bool :=
  let used := (fld p (cqKey ctx ring) 31 16 + 65536 - fld p (cqKey ctx ring) 15 0) % 65536
  decide (used + (ringCmds p ctx ring).length < depthOf (cqLog p ctx ring))

def mayFetch (p : Pkg) (ctx ring : Nat) : Bool :=
  ringOk ctx ring && ready p pgQm && enabled p pgQm && !quiesced p pgQm && ctxEnabled p ctx && ringEnabled p ctx ring && !ringStopped p ctx ring &&
    ringHead p ctx ring != ringTail p ctx ring && pendingRoom p ctx ring && cqRoom p ctx ring &&
    !((ringCmds p ctx ring).any (fun x => x.2.noRoom))

/-- A descriptor read whole: HEAD advances, and the command is checked. -/
def fetched (p : Pkg) (m : Memory) (ctx ring : Nat) (d : BitVec 1024) : Pkg :=
  let head := ringHead p ctx ring
  let id := p.qm.nextId
  let h1 := (head + 1) % 65536
  let p1 := dropBell (setFld p (ringStatus ctx ring) 31 16 h1) ctx ring h1
  let c : Cmd := { noCmd with desc := d, ctx := ctx, ring := ring, seq := head, phase := .translating,
                              order := p.qm.nextOrder, bell := bellOf p ctx ring head }
  let p2 := setCmd { p1 with qm := { p1.qm with nextId := id + 1, nextOrder := p1.qm.nextOrder + 1 } } id c
  let r := descReason p d ctx ring (namedChart p m ctx d) (dirFind p ctx (dHandle d)).isSome
  if r = 0 then p2 else finishCmd p2 id 0x31 r

/-- The virtual address of the descriptor at HEAD. -/
def headVa (p : Pkg) (ctx ring : Nat) : Nat :=
  fld p (ringKey ctx ring 0) 56 12 * 4096 + 128 * (ringHead p ctx ring % 2 ^ ringLog p ctx ring)

def execDescriptorFetch (ctx ring : Nat) (s : State) : Out :=
  let p := s.pkg
  if mayFetch p ctx ring then
    let va := headVa p ctx ring
    match pageOf p s.mem ctx 0 (ringClass p ctx ring) false va with
    | (.waits, m, q) => .next { s with mem := m, pkg := q }
    | (.fault c, m, q) => .next { s with mem := m, pkg := stopRing (logXlate q ctx 7 c va).2 ctx ring }
    | (.refused c w, m, q) => .next { s with mem := m, pkg := stopRing (logWindow q ctx 7 c w va) ctx ring }
    | (.ok x, m, q) =>
      match qmRead q m (x.addr va) 128 (ringClass p ctx ring) with
      | (.waits, q1) => .next { s with mem := m, pkg := q1 }
      | (.poison, q1) => .next { s with mem := m, pkg := stopRing q1 ctx ring }
      | (.bytes v, q1) => .next { s with mem := m, pkg := fetched q1 m ctx ring (BitVec.ofNat 1024 v) }
  else .next s

/-! ## Order within a ring (R289) -/

/-- Commands that hold every later command of their ring until they complete. -/
def holdsRing (c : Cmd) : Bool := dFenceAfter c.desc || dOpcode c.desc ∈ [6, 7, 8]

/-- A command is held by a fence of its ring. -/
def fenceHeld (p : Pkg) (c : Cmd) : Bool :=
  (ringCmds p c.ctx c.ring).any (fun x => decide (x.2.order < c.order) && (dFenceBefore c.desc || holdsRing x.2))

/-- Whether the extents of two commands share a page. -/
def sharesPage (a b : Cmd) : Bool := a.pages.any (fun x => b.pages.any (fun y => inPages y.2 x.2.va x.2.pages))

/-- A MOVE waits for the earlier commands of its context that touch its pages (R400). -/
def moveHeld (p : Pkg) (id : Nat) (c : Cmd) : Bool :=
  dOpcode c.desc == 3 && dField c.desc 34 1 == 1 &&
    p.qm.cmds.any (fun x => x.1 != id && x.2.ctx == c.ctx && x.2.phase != .translating && x.2.phase != .finished &&
      x.2.phase != .trailing && decide (x.2.acceptOrder < c.acceptOrder) && sharesPage c x.2)

/-- The queue manager dispatches nothing: from the entry into safe hold on (R609), and between descending step 5 and the
climb back's step 5 (R665). -/
def dispatchHeld (p : Pkg) : Bool :=
  let st := fld p (key pgSv 0x100) 31 28
  let step := fld p (key pgSv 0x100) 27 24
  let hold := fld p (key pgPwr 0x100) 31 28
  hold == 1 || hold == 2 || st == 4 || (st == 3 && decide (step < 5)) ||
    (st == 1 && p.seq.step5Done && decide (step < 5))

/-- A command at the head of its ring's pending queue that may start now. -/
def mayStart (p : Pkg) (id : Nat) : Bool :=
  let c := cmd p id
  hasCmd p id && c.phase == .waiting && !c.requeued && ringNext p c.ctx c.ring == some id && ready p pgQm && !dispatchHeld p &&
    ctxEnabled p c.ctx && ringEnabled p c.ctx c.ring && !ringStopped p c.ctx c.ring && !fenceHeld p c && !c.stale &&
    !moveHeld p id c

/-- A command that ends at the queue manager leaves the head of its pending queue. -/
def finishQm (p : Pkg) (id status detail : Nat) : Pkg :=
  let c := cmd p id
  settlePending (finishCmd p id status detail) c.ctx c.ring 64

/-- A queue manager command starts: it leaves the head of its pending queue. -/
def startQm (p : Pkg) (id : Nat) : Pkg :=
  let c := cmd p id
  settlePending (setCmd p id { c with phase := .running, startBeat := p.pace.datum }) c.ctx c.ring 64

/-! ## Dispatch (R290 to R292) -/

/-- The class that a command is served in (R291). -/
def servedClass (c : Cmd) : Nat := if c.aged && dPrio c.desc == 2 then 1 else dPrio c.desc

/-- Commands that take a CE. -/
def needsCe (c : Cmd) : Bool := dOpcode c.desc ∈ [2, 3, 4]

/-- A CE that the queue manager may pick: not on a halted sheet (R63). -/
def ceFree (p : Pkg) (n : Nat) : Bool :=
  ceOk n && stepping p (n / 256) && ready p (pgCe n) && enabled p (pgCe n) && !quiesced p (pgCe n) && !retired p (pgCe n) && !inFault p (pgCe n) &&
    (ce p n).cmd.isNone

/-- The chart that a RUN needs: its directory entry's CRC. -/
def neededCrc (p : Pkg) (c : Cmd) : Option Nat := (dirFind p c.ctx (dHandle c.desc)).map (·.crc)

/-- The current slot of a CE that holds a handle's chart with a CRC (R298). -/
def chartSlot (p : Pkg) (n : Nat) (h : W64) (crc : Nat) : Option Nat :=
  match currentSlot (ce p n) h with
  | some i => if (slot (ce p n) i).chart.crc = crc then some i else none
  | none => none

/-- Whether the chart of a RUN is current on a CE. -/
def chartThere (p : Pkg) (n : Nat) (c : Cmd) : Bool :=
  dOpcode c.desc == 2 && (neededCrc p c).any (chartCurrent p n (dHandle c.desc))

/-- R292: the CE picked among those that `ok` admits: one on which the chart is current before the others; of these, one whose last
command was of the same context; of these, the lowest. -/
def pickCe (p : Pkg) (id : Nat) (ok : Nat → Bool) : Option Nat :=
  let c := cmd p id
  let l := (List.range 1024).filter (fun n => inScope (dPlace c.desc) n && ceFree p n && ok n)
  let current := l.filter (fun n => chartThere p n c)
  let l1 := if current.isEmpty then l else current
  match l1.find? (fun n => (ce p n).lastCtx == some c.ctx) with
  | some n => some n
  | none => l1.head?

/-- CEs that a preempted command of a higher class waits for and can take: the classes are served in their order (R290). -/
def awaitedAbove (p : Pkg) (cls n : Nat) : Bool :=
  p.qm.cmds.any (fun x => x.2.phase == .preempted && decide (servedClass x.2 < cls) && !x.2.stale && inScope (dPlace x.2.desc) n)

/-- CEs that no command of a class may start on, because a preempted command of that class or a higher one waits for them (R290). -/
def awaited (p : Pkg) (cls n : Nat) : Bool :=
  awaitedAbove p cls n ||
    p.qm.cmds.any (fun x => x.2.phase == .preempted && servedClass x.2 == cls && inScope (dPlace x.2.desc) n)

/-- The first of a list that has a CE. -/
def firstWithCe (p : Pkg) (ok : Nat → Bool) (l : List Nat) : Option (Nat × Nat) :=
  match l with
  | [] => none
  | id :: t =>
    match pickCe p id ok with
    | some n => some (id, n)
    | none => firstWithCe p ok t

/-- Commands that run again, or whose next phase waits, by the order of their fetch. -/
def requeuedOf (p : Pkg) (cls : Nat) : List Nat :=
  (p.qm.cmds.filter (fun x => x.2.phase == .waiting && x.2.requeued && needsCe x.2 && servedClass x.2 == cls && !x.2.stale)).map
    (·.1)

/-- Round robin: the position of a number after the last one served. -/
def after (last size n : Nat) : Nat := (n + 2 * size - last - 1) % size

def minBy (f : Nat → Nat) (l : List Nat) : Option Nat :=
  match l with
  | [] => none
  | a :: t => some (t.foldl (fun b x => if f x < f b then x else b) a)

/-- The commands not yet started of a class, one a ring. -/
def startable (p : Pkg) (cls : Nat) : List Nat :=
  (p.qm.cmds.filter (fun x => needsCe x.2 && servedClass x.2 == cls && mayStart p x.1)).map (·.1)

/-- R47, R290: a context's INTERACTIVE command starts only where no earlier one of the context waits for a CE, be that one not
started or re-queued; earlier by the doorbell that made it fetchable, then by its fetch. -/
def interactiveFirst (p : Pkg) (waiting l : List Nat) : List Nat :=
  let before (i j : Nat) : Bool := decide ((cmd p i).bell < (cmd p j).bell) ||
    ((cmd p i).bell == (cmd p j).bell && decide ((cmd p i).order < (cmd p j).order))
  l.filter (fun id => !(waiting.any (fun j => (cmd p j).ctx == (cmd p id).ctx && before j id)))

/-- The commands of a class not yet started that may start now. -/
def starters (p : Pkg) (cls : Nat) : List Nat :=
  let l := startable p cls
  if cls = 0 then interactiveFirst p (requeuedOf p 0 ++ l) l else l

/-- CEs that a command of a higher class would take (R290). -/
def wantedAbove (p : Pkg) (cls n : Nat) : Bool :=
  awaitedAbove p cls n || (List.range cls).any (fun j =>
    (requeuedOf p j ++ starters p j).any (fun id => inScope (dPlace (cmd p id).desc) n))

/-- The order in which the round robin takes the commands of a class: contexts, and rings within a context, after the last
ones served. -/
def robinKey (p : Pkg) (cls id : Nat) : Nat :=
  let c := cmd p id
  let lastCtx := SMap.get p.qm.robin (cls * 32) 15
  let lastRing := SMap.get p.qm.robin (cls * 32 + 1 + c.ctx) 63
  after lastCtx 16 c.ctx * 64 + after lastRing 64 c.ring

def sortIns (f : Nat → Nat) (x : Nat) (l : List Nat) : List Nat :=
  match l with
  | [] => [x]
  | y :: t => if f x < f y then x :: y :: t else y :: sortIns f x t

def sortBy (f : Nat → Nat) (l : List Nat) : List Nat := l.foldl (fun a x => sortIns f x a) []

/-- R290: the command and the CE of the next dispatch of a class. -/
def nextOf (p : Pkg) (cls : Nat) : Option (Nat × Nat) :=
  match firstWithCe p (fun n => !awaitedAbove p cls n) (requeuedOf p cls) with
  | some r => some r
  | none =>
    let key := if cls = 0 then (fun id => after (SMap.get p.qm.robin 0 15) 16 (cmd p id).ctx) else robinKey p cls
    firstWithCe p (fun n => cls == 0 || !awaited p cls n) (sortBy key (starters p cls))

def nextDispatch (p : Pkg) : Option (Nat × Nat) :=
  if dispatchHeld p then none else
  match nextOf p 0 with
  | some r => some r
  | none =>
    match nextOf p 1 with
    | some r => some r
    | none => nextOf p 2

/-- The context clearing of a CE (R192, R326), and the invalidation that FENCE_BEFORE asks for. -/
def clearFor (p : Pkg) (n : Nat) (c : Cmd) : Pkg :=
  let x := ce p n
  if x.lastCtx ≠ some c.ctx then
    setCe p n { x.invalidateAll with su := [], long := [] }
  else if dFenceBefore c.desc then setCe p n x.invalidateAll
  else p

/-- A command takes a CE: clearing, registers, its demand (R599), its CMD_START waypoint. A BULK command that was served as NORMAL
is BULK again (R291). -/
def takeCe (p : Pkg) (id n : Nat) : Pkg :=
  let c := cmd p id
  let p1 := clearFor p n c
  let p2 := setCe p1 n { ce p1 n with cmd := some id, phase := 0, preempt := false, paused := false }
  let p3 := setCmd p2 id { c with
    phase := .running, ces := [n], lastCe := n, startBeat := sheetBeats p n, requeued := false, aged := false }
  let p4 := setFld (setBit p3 (ceStatus n) 31 true) (ceStatus n) 19 16 c.ctx
  let p5 := setBusy (setReg p4 (key (pgCe n) 0x110) 0) (pgCe n) true
  let p6 := if dPrio c.desc = 0 then p5 else addDemand p5 id (2 ^ (n / 256)) c
  waypoint p6 (pgCe n) 0x10 (cmdSub c) c.seq

/-- A chart that is not current on the CE is loaded from the directory entry (R288); a load that cannot begin yet is owed. -/
def loadFor (p : Pkg) (id n : Nat) : Pkg :=
  let c := cmd p id
  match dirFind p c.ctx (dHandle c.desc) with
  | some e =>
    if dOpcode c.desc = 2 then
      match beginLoad p n id e with
      | some (_, q) => setCe q n { ce q n with loadOwed := false }
      | none => setCe p n { ce p n with loadOwed := true }
    else p
  | none => p

def noteRobin (p : Pkg) (c : Cmd) : Pkg :=
  let k := servedClass c * 32
  { p with qm := { p.qm with robin := SMap.set (SMap.set p.qm.robin k c.ctx) (k + 1 + c.ctx) c.ring } }

/-- A command is dispatched to a CE: from its ring, or run again. An accepted RUN whose directory entry has gone
completes BAD_DESCRIPTOR, reason 7 (R287). -/
def dispatchTo (p : Pkg) (id n : Nat) : Pkg :=
  let c := cmd p id
  if dOpcode c.desc = 2 ∧ (neededCrc p c).isNone = true then finishQm p id 0x31 7
  else
    let p1 := loadFor (takeCe (if c.requeued then p else noteRobin p c) id n) id n
    let p2 := settlePending p1 c.ctx c.ring 64
    traceCmd p2 4 3 0x07 c (idRing c.ctx c.ring) (idCe n) 0 c.seq

/-- The directory entry of a dispatched RUN is used last. -/
def touchDir (p : Pkg) (c : Cmd) : Pkg :=
  if dOpcode c.desc = 2 then
    setDirs { p with qm := { p.qm with nextOrder := p.qm.nextOrder + 1 } } c.ctx
      ((dirOf p c.ctx).map (fun e => if e.handle = dHandle c.desc then { e with used := p.qm.nextOrder } else e))
  else p

/-- R290: the queue manager serves the next command that has a CE. -/
def doCommandDispatch (p : Pkg) : Pkg :=
  match nextDispatch p with
  | some (id, n) => touchDir (dispatchTo p id n) (cmd p id)
  | none => p

def execCommandDispatch (s : State) : Out := .next (s.onPkg doCommandDispatch)

/-! ## Preemption and resumption (R293, R295, R298) -/

/-- The lowest-numbered CE in scope that runs a command of a class and is not preempted yet; a command whose status is known is
past it (R310). -/
def victimOf (p : Pkg) (place cls : Nat) : Option Nat :=
  (List.range 1024).find? (fun n => ceOk n && inScope place n && !(ce p n).preempt && !inFault p (pgCe n) &&
    (match (ce p n).cmd with
      | some id => dPrio (cmd p id).desc == cls && needsCe (cmd p id) && (cmd p id).phase == .running
      | none => false))

/-- Whether the preemption that a command has asked for is still under way. -/
def preemptOpen (p : Pkg) (c : Cmd) : Bool :=
  match c.preempting with
  | some n => (ce p n).preempt
  | none => false

/-- R293: an INTERACTIVE command that finds no free CE in scope preempts a BULK command before a NORMAL one. -/
def doPreempt (id : Nat) (p : Pkg) : Pkg :=
  let c := cmd p id
  let mine := (c.phase == .waiting && c.requeued && !dispatchHeld p) || mayStart p id
  if hasCmd p id && needsCe c && dPrio c.desc == 0 && mine && !preemptOpen p c && (pickCe p id (fun _ => true)).isNone &&
      bit p foldArea 0 then
    let v := match victimOf p (dPlace c.desc) 2 with
      | some n => some n
      | none => victimOf p (dPlace c.desc) 1
    match v with
    | some n =>
      let x := ceCmd p n
      let p1 := setCmd (setCe p n { ce p n with preempt := true }) id { c with preempting := some n }
      traceCmd p1 4 3 0x08 x (idCe n) (idRing c.ctx c.ring) 0 x.seq
    | none => p
  else p

def execPreempt (id : Nat) (s : State) : Out := .next (s.onPkg (doPreempt id))

/-- The cleared units of a CE at the start of a RUN or a resumption (R254). The stationary register banks are cleared with them
(DESIGN CHOICE, log entry 27). -/
def freshUnits (c : Ce) : Ce :=
  { c with phase := 0, round := 0, ag := [], movers := [], routes := [], octets := [], long := [], ls := LongSt.initial,
           progress := [], idleMark := [], loops := [], misses := [], arrived := [],
           vus := c.vus.map (fun (x : Nat × Vu) => (x.1, { x.2 with outCount := 0 })) }

/-- The slot becomes ACTIVE and the registers of the RUN are set. -/
def activate (p : Pkg) (n i : Nat) (c : Cmd) : Pkg :=
  let s := slot (ce p n) i
  let p1 := setSlot { p with qm := { p.qm with nextOrder := p.qm.nextOrder + 1 } } n i
    { s with state := 3, lastRan := p.qm.nextOrder + 1 }
  setFld (setFld (setReg p1 (key (pgCe n) 0x108) s.handle) (ceStatus n) 29 28 i) (ceStatus n) 15 0 (dOperator c.desc)

/-- The fold record of a resumed command is freed. -/
def freeRecord (p : Pkg) (id : Nat) : Pkg :=
  let c := cmd p id
  match c.fold with
  | some i =>
    setCmd { p with qm := { p.qm with foldUsed := SMap.drop p.qm.foldUsed (fun k => k == i) } } id { c with fold := none }
  | none => p

/-- A command that resumes on its CE reads its fold record: the units of a RUN, the progress of the others. -/
def resumeOn (p : Pkg) (m : Memory) (id n i : Nat) : Pkg :=
  let c := cmd p id
  let rec' := m.read (foldAddr p i) 1024
  if dOpcode c.desc = 2 then
    let p1 := setCe p n (resumeFrom (ceChart p n) rec' (freshUnits (ce p n)))
    freeRecord (setReg p1 (key (pgCe n) 0x110) (BitVec.ofNat 64 (rec' / 2 ^ 32 % 2 ^ 32))) id
  else
    let p1 := setCmd p id { c with progress := rec' / 2 ^ 128 % 2 ^ 64 }
    freeRecord (setReg (setCe p1 n (freshUnits (ce p1 n))) (key (pgCe n) 0x110) (BitVec.ofNat 64 (rec' / 2 ^ 32 % 2 ^ 32))) id

/-- Whether a preempted RUN's chart has been superseded (R298). -/
def superseded (p : Pkg) (c : Cmd) : Bool := dOpcode c.desc == 2 && neededCrc p c != some c.foldCrc

/-- A preempted command comes back to a CE in its scope that no command of a higher class would take (R290); it starts there at
once where its chart is current. -/
def doCommandResume (id : Nat) (m : Memory) (p : Pkg) : Pkg :=
  let c := cmd p id
  if hasCmd p id && c.phase == .preempted && !c.stale && ready p pgQm && !dispatchHeld p then
    if superseded p c then finishCmd p id 0x40 2
    else
      match pickCe p id (fun n => !wantedAbove p (servedClass c) n), c.fold with
      | some n, some i =>
        let p1 := loadFor (takeCe p id n) id n
        let next := m.read (foldAddr p i) 1024 / 2 ^ 32 % 2 ^ 32
        let p2 := traceCmd p1 4 3 0x09 c (idRing c.ctx c.ring) (idCe n) 0 next
        if dOpcode c.desc = 2 then
          match chartSlot p2 n (dHandle c.desc) c.foldCrc with
          | some j => resumeOn (activate p2 n j c) m id n i
          | none => p2
        else resumeOn p2 m id n i
      | _, _ => p
  else p

def execCommandResume (id : Nat) (s : State) : Out := .next (s.onPkg (doCommandResume id s.mem))

/-- R291: a BULK command that has waited QM_BULK_AGE ms at the head of its ring is served as NORMAL. -/
def doBulkAgeExpiry (ctx ring : Nat) (p : Pkg) : Pkg :=
  let age := fld p (key pgQm 0x120) 15 0
  match ringNext p ctx ring with
  | some id =>
    let c := cmd p id
    if ringOk ctx ring && hasCmd p id && age != 0 && dPrio c.desc == 2 && c.phase == .waiting && c.ageFrom != 0 &&
        decide (c.ageFrom - 1 + 1000000 * age ≤ timerNow p) then setCmd p id { c with aged := true }
    else p
  | none => p

def execBulkAgeExpiry (ctx ring : Nat) (s : State) : Out := .next (s.onPkg (doBulkAgeExpiry ctx ring))

/-! ## Completion records (R300 to R302) -/

/-- The 32 bytes of a completion record (Table 8-7). -/
def completionRecord (p : Pkg) (c : Cmd) : Nat :=
  let written := SMap.get p.qm.cqWritten (ringId c.ctx c.ring) 0
  let phase := 1 - written / 2 ^ cqLog p c.ctx c.ring % 2
  dTag c.desc + c.seq * 2 ^ 32 + c.status * 2 ^ 48 + (c.ring + 128 * phase) * 2 ^ 56 + c.ctx * 2 ^ 64 +
    min c.repeats 255 * 2 ^ 72 + c.lastCe * 2 ^ 80 + c.detail % 2 ^ 32 * 2 ^ 96 + p.pace.datum * 2 ^ 128 +
    min c.beats 0xFFFFFFFF * 2 ^ 192 + c.folds % 65536 * 2 ^ 224 + min c.preemptions 65535 * 2 ^ 240

def cqVa (p : Pkg) (ctx ring : Nat) : Nat :=
  fld p (ringKey ctx ring 8) 56 12 * 4096 + 32 * (fld p (cqKey ctx ring) 31 16 % 2 ^ cqLog p ctx ring)

/-- The entry of a contour set that a key takes: its own, a free way, or the way with the fewest samples (R596). -/
def contourWay (p : Pkg) (layer op : Nat) : Nat :=
  let s := contourSet layer op
  let get (w : Nat) : Contour := SMap.get p.pwr.contours (8 * s + w) ⟨0, 0, 0, 0⟩
  let has (w : Nat) : Bool := p.pwr.contours.any (fun x => x.1 == 8 * s + w)
  match (List.range 8).find? (fun w => has w && (get w).layer == layer && (get w).operator == op) with
  | some w => 8 * s + w
  | none => 8 * s + (List.range 8).foldl (fun b w => if (get w).samples < (get b).samples then w else b) 0

/-- x ÷ n rounded to the nearest whole number, halves up. -/
def roundDiv (x : Int) (n : Nat) : Int := (2 * x + n).fdiv (2 * n)

/-- R597: a RUN done in one piece after at least 4,096 beats adds its sample, which the power controller's model gives: a
free value. -/
def contourUpdate (p : Pkg) (c : Cmd) : Pkg :=
  if dOpcode c.desc = 2 ∧ c.status = 0 ∧ 4096 ≤ c.beats ∧ c.preemptions = 0 ∧ c.wasPaused = false ∧
      bit p (key pgPwr 0x2A0) 0 = true then
    let k := contourWay p (dLayer c.desc) (dOperator c.desc)
    let old := SMap.get p.pwr.contours k ⟨0, 0, 0, 0⟩
    let e : Contour := if old.layer = dLayer c.desc ∧ old.operator = dOperator c.desc then old
      else ⟨dLayer c.desc, dOperator c.desc, 0, 0⟩
    let s : Int := (Config.freeWord p.free).toNat
    let step := roundDiv (s - e.demand) (if e.samples < 8 then e.samples + 1 else 8)
    let e1 : Contour := { e with demand := ((e.demand : Int) + step).toNat, samples := satAdd 255 e.samples 1 }
    { nextFree p with pwr := { p.pwr with contours := SMap.set p.pwr.contours k e1 } }
  else p

def unitOf (c : Cmd) : Nat := if c.lastCe = 0xFFFF then idRing c.ctx c.ring else idCe c.lastCe

/-- The held commands of a ring that a completion lets go leave their FENCE_HOLD_END records (R691). -/
def holdEnds (p : Pkg) (q : Pkg) (c : Cmd) : Pkg :=
  match ringNext q c.ctx c.ring with
  | some id =>
    let x := cmd q id
    if x.phase == .waiting && fenceHeld p x && !fenceHeld q x then
      traceCmd q 4 1 0x04 x (idRing x.ctx x.ring) (unitOf c) (q.pace.datum + 1 - x.waitSince) x.seq
    else q
  | none => q

/-- Chart loads still in progress for a command end with it, their slots EMPTY. -/
def dropLoads (p : Pkg) (id : Nat) : Pkg :=
  let one (s : Slot) : Slot := if s.state = 1 ∧ s.forCmd = id then Slot.empty else s
  let each (c : Ce) : Ce := { c with slots := c.slots.map (fun (x : Nat × Slot) => (x.1, one x.2)) }
  { p with ces := p.ces.map (fun (x : Nat × Ce) => (x.1, each x.2)) }

/-- The command leaves the queue manager: counters, interrupt, trace, STOP_ON_ERROR (R294 queues no event), and ABORTING at the last
record of the aborted commands (R309). A RELAXED command that still holds its CE stays until its packets have committed. -/
def completed (p : Pkg) (id : Nat) : Pkg :=
  let c := cmd p id
  let k := cqKey c.ctx c.ring
  let r := ringId c.ctx c.ring
  let p1 := setFld p k 31 16 ((fld p k 31 16 + 1) % 65536)
  let q : QmSt := { p1.qm with
    cmds := if p.ces.any (fun x => x.2.cmd == some id) then SMap.set p1.qm.cmds id { c with phase := .trailing }
      else SMap.drop p1.qm.cmds (fun i => i == id)
    cqWritten := SMap.set p1.qm.cqWritten r (SMap.get p1.qm.cqWritten r 0 + 1)
    lastDone := SMap.set (SMap.set p1.qm.lastDone r (unitOf c, c.seq)) (1024 + c.ctx) (unitOf c, c.seq) }
  let p2 := contourUpdate (dropLoads { p1 with qm := q } id) c
  let p3 := deliver p2 pgQm (reg p2 (ringKey c.ctx c.ring 0x24))
  let p4 := traceCmd p3 4 3 0x0A c (idRing c.ctx c.ring) (if c.lastCe = 0xFFFF then 0 else idCe c.lastCe) 0
    (c.status + 256 * min c.repeats 255)
  let p5 := if 1 < c.status ∧ bit p4 (ringCfg c.ctx c.ring) 30 = true then setBit p4 (ringCfg c.ctx c.ring) 27 true else p4
  let p6 := if (ringCmds p5 c.ctx c.ring).any (·.2.ringAborted) then p5 else setBit p5 (ringCfg c.ctx c.ring) 25 false
  settleDrains (holdEnds p p6 c)

/-- The line of the record is recalled from the host before the write (R335). -/
def recordHeld (p : Pkg) (pa : Nat) : Bool := hostHolds p pa

/-- The record's write at its point of visibility. -/
def recordWrite (p : Pkg) (pa : Nat) : Pkg :=
  match region pa with
  | .host _ => devHold p [pa / 64]
  | _ => homeWrite p pa false (idRing 0 0)

/-- R301: the record is written at CQ_TAIL, CQ_TAIL advances, and then the ring's message is sent (R46). Where
the completion ring's page cannot be translated, the record waits (log entry 37). -/
def execCompletionWrite (id : Nat) (s : State) : Out :=
  let p := s.pkg
  let c := cmd p id
  if hasCmd p id && c.phase == .finished && ready p pgQm then
    let va := cqVa p c.ctx c.ring
    match pageOf p s.mem c.ctx 1 (ringClass p c.ctx c.ring) true va with
    | (.waits, m, q) => .next { s with mem := m, pkg := q }
    | (.fault e, m, q) => .next { s with mem := m, pkg := (logXlate q c.ctx 7 e va).2 }
    | (.refused e w, m, q) => .next { s with mem := m, pkg := logWindow q c.ctx 7 e w va }
    | (.ok x, m, q) =>
      let pa := x.addr va
      match fateFor q (idRing 0 0) pa false with
      | .waits => .next { s with mem := m, pkg := q }
      | .served =>
        if recordHeld q pa then .next { s with mem := m, pkg := biStart q (pa / 64) true none }
        else .next { s with mem := m.write pa 32 (completionRecord q c), pkg := completed (recordWrite q pa) id }
      | _ => .next { s with mem := m, pkg := completed (decodeError q pgQm pa) id }
  else .next s

/-! ## Ring control (R294, R309, R312, R742) -/

/-- One command of an aborted ring: pending or translating ones end, running ones are stopped; one whose status is known has
completed (R310). -/
def abortCmd (p0 : Pkg) (id : Nat) : Pkg :=
  let c : Cmd := { cmd p0 id with ringAborted := true }
  let p := setCmd p0 id c
  match c.phase with
  | .finished => p0
  | .trailing => p0
  | .running =>
    if dOpcode c.desc = 1 then
      endChartLoad (setCmd p id { c with status := 0x40, detail := 1 }) id
    else match c.ces with
    | n :: _ =>
      if (ce p n).cmd = some id then stopWith (abortPoint p n 0) n 0x40 1
      else finishCmd (dropWatches p id) id 0x40 1
    | [] => finishCmd (dropWatches p id) id 0x40 1
  | _ => finishCmd p id 0x40 1

/-- R309. -/
def ringAbort (ctx ring : Nat) (p : Pkg) : Pkg :=
  let p1 := setFld p (ringStatus ctx ring) 31 16 (ringTail p ctx ring)
  let x := spill p1 ctx ring
  let p2 := setSpill p1 ctx ring { x with head := [], tail := [], regionRd := x.regionWr }
  let ids := (ringCmds p2 ctx ring).map (·.1)
  let p3 := ids.foldl abortCmd p2
  let p4 := setXl { p3 with qm := { p3.qm with
      bells := SMap.drop p3.qm.bells (fun k => k / 65536 == ringId ctx ring) } }
    { p3.xl with waits := p3.xl.waits.filter (fun w => w.id ∉ ids) }
  setBit p4 (ringCfg ctx ring) 25 ((ringCmds p4 ctx ring).any (·.2.ringAborted))

/-- A write of QM_RING_CONTROL. -/
def putRingControl (ctx ring : Nat) (value : W64) (p : Pkg) : Pkg :=
  let p1 := if bitOf value 0 then ringAbort ctx ring p else p
  if bitOf value 1 then setFld p1 (ringCfg ctx ring) 27 26 0 else p1

def ringPage (ctx : Nat) : Nat := pgQm + 1 + ctx
def ringOff (ring off : Nat) : Nat := 0x140 + 48 * ring + off

def doRingControl (rq : Requester) (ctx ring : Nat) (value : W32) (p : Pkg) : Pkg :=
  if ringOk ctx ring then
    ifWrites p rq (ringPage ctx) (ringOff ring 0x28) (putRingControl ctx ring (value.setWidth 64))
  else p

/-- RING_CONTROL.ABORT. -/
def execRingAbort (rq : Requester) (ctx ring : Nat) (value : W32) (s : State) : Out :=
  .next (s.onPkg (doRingControl rq ctx ring value))

/-- RING_CONTROL.RESTART. -/
def execRingRestart (rq : Requester) (ctx ring : Nat) (value : W32) (s : State) : Out :=
  .next (s.onPkg (doRingControl rq ctx ring value))

/-- R312: CLASS 3 or a size outside 4 to 16 discards the write; while ENABLE is 1 CLASS and the sizes stay. -/
def putRingConfig (ctx ring : Nat) (value : W64) (p : Pkg) : Pkg :=
  let k := ringCfg ctx ring
  let old := reg p k
  let v := mergeWrite (rw4 0x158 (msk 31 28 + msk 20 16 + msk 12 8)) old value
  let size := bitsOf v 20 16
  let cq := bitsOf v 12 8
  if bitsOf v 29 28 = 3 ∨ size < 4 ∨ 16 < size ∨ cq < 4 ∨ 16 < cq then p
  else if bitOf old 31 then setReg p k (withBits (withBits (withBits v 29 28 (bitsOf old 29 28)) 20 16 (bitsOf old 20 16)) 12 8 (bitsOf old 12 8))
  else setReg p k v

def doRingConfigWrite (rq : Requester) (ctx ring : Nat) (value : W32) (p : Pkg) : Pkg :=
  if ringOk ctx ring then
    ifWrites p rq (ringPage ctx) (ringOff ring 0x18) (putRingConfig ctx ring (value.setWidth 64))
  else p

def execRingConfigWrite (rq : Requester) (ctx ring : Nat) (value : W32) (s : State) : Out :=
  .next (s.onPkg (doRingConfigWrite rq ctx ring value))

/-- QM_RING_BASE and QM_RING_CQ_BASE keep their value while the ring is enabled (R312). -/
def putRingBase (ctx ring off : Nat) (value : W64) (p : Pkg) : Pkg :=
  if ringEnabled p ctx ring then p
  else setReg p (ringKey ctx ring off) (mergeWrite (rw8 0x140 (msk 56 12)) (reg p (ringKey ctx ring off)) value)

/-- R742: CQ_HEAD moves no further than CQ_TAIL. -/
def putCqHead (ctx ring : Nat) (value : W64) (p : Pkg) : Pkg :=
  let k := cqKey ctx ring
  let old := fld p k 15 0
  let new := bitsOf value 15 0
  if (fld p k 31 16 + 65536 - old) % 65536 < (new + 65536 - old) % 65536 then p else setFld p k 15 0 new

def doCqHeadWrite (rq : Requester) (ctx ring : Nat) (value : W32) (p : Pkg) : Pkg :=
  if ringOk ctx ring then
    ifWrites p rq (ringPage ctx) (ringOff ring 0x20) (putCqHead ctx ring (value.setWidth 64))
  else p

def execCqHeadWrite (rq : Requester) (ctx ring : Nat) (value : W32) (s : State) : Out :=
  .next (s.onPkg (doCqHeadWrite rq ctx ring value))

end Sys2Proof.Machine
end

