-- ==== Sys2Proof/Machine/Commands.lean ====
section
/-! DEFINITION. The commands of the queue manager (spec/08 Table 8-4): NOP, CHART_LOAD, RUN, MOVE_TILE and its switch,
REDUCE, semaphores, barriers and fences (spec/09 R322 to R325, spec/11 R397 to R403). -/

namespace Sys2Proof.Machine

/-! ## NOP, CHART_LOAD -/

def opIs (p : Pkg) (id op : Nat) : Bool := hasCmd p id && dOpcode (cmd p id).desc == op

def doCmdNop (id : Nat) (p : Pkg) : Pkg := if opIs p id 0 && mayStart p id then finishQm p id 0 0 else p
def execCmdNop (id : Nat) (s : State) : Out := .next (s.onPkg (doCmdNop id))

/-- Handles that accepted commands of a context name. -/
def namedBy (p : Pkg) (ctx : Nat) (but : Nat) (h : W64) : Bool :=
  p.qm.cmds.any (fun x => x.1 != but && x.2.ctx == ctx && x.2.phase != .finished && x.2.phase != .trailing && x.2.phase != .translating &&
    (dOpcode x.2.desc == 1 || dOpcode x.2.desc == 2) && dHandle x.2.desc == h)

/-- R287: the directory with an entry for the handle: its own, a new one, or that of the least recently used handle that no
accepted command names. None where all 256 are named. -/
def dirAccept (p : Pkg) (ctx id : Nat) (e : DirEnt) : Option (List DirEnt) :=
  let l := dirOf p ctx
  if l.any (fun x => x.handle == e.handle) then some (e :: l.filter (fun x => x.handle != e.handle))
  else if l.length < 256 then some (e :: l)
  else
    match (l.filter (fun x => !namedBy p ctx id x.handle)) with
    | [] => none
    | a :: t =>
      let old := t.foldl (fun (b x : DirEnt) => if x.used < b.used then x else b) a
      some (e :: l.filter (fun x => x.handle != old.handle))

/-- The CEs that a CHART_LOAD or INVALIDATE_L1 reaches. -/
def scopeCes (p : Pkg) (place : Nat) : List Nat :=
  (List.range 1024).filter (fun n => ceOk n && inScope place n && ready p (pgCe n))

/-- The image that a CHART_LOAD itself names, with the CRC of its header (R196). -/
def ownEntry (c : Cmd) : DirEnt :=
  ⟨dHandle c.desc, (dOperand c.desc 0).addr, (c.pages.filter (fun x => x.1 == 0)).map (·.2), c.foldCrc, 0⟩

/-- The loads of a CHART_LOAD that can begin, begin; a CE whose chart is current answers at once, one that is lost drops
out. -/
def chartLoads (p : Pkg) (id : Nat) (ces : List Nat) : Pkg :=
  ces.foldl (fun q n =>
    if !hasCmd q id || (cmd q id).phase != .running then q
    else if !ready q (pgCe n) then chartLoadAnswer q id n 0 0
    else if (List.range 4).any (fun i => (slot (ce q n) i).state == 1 && (slot (ce q n) i).forCmd == id) then q
    else match beginLoad q n id (ownEntry (cmd q id)) with
      | some (true, r) => chartLoadAnswer r id n 0 0
      | some (false, r) => r
      | none => q) p

/-- The header of the image has been read: the command is accepted in one of the four ways, or refused. -/
def chartLoadStart (p : Pkg) (m : Memory) (id : Nat) : Pkg :=
  let c := cmd p id
  let pages := (c.pages.filter (fun x => x.1 == 0)).map (·.2)
  let va := (dOperand c.desc 0).addr
  let head := bytesAt m pages va 64
  let crc := leAt head 60 4
  if poisonAt m pages va 64 then finishQm p id 0x10 0
  else if (dOperand c.desc 0).extent < leAt head 4 4 then finishQm p id 0x31 6
  else
    match dirFind p c.ctx (dHandle c.desc) with
    | some e =>
      if e.crc = crc then finishQm p id 0 0
      else
        let new : DirEnt := { e with va := va, pages := pages, crc := crc, used := p.qm.nextOrder }
        chartLoadGo p id crc new (some e)
    | none => chartLoadGo p id crc ⟨dHandle c.desc, va, pages, crc, p.qm.nextOrder⟩ none
where
  /-- The directory takes the entry and the loads begin. -/
  chartLoadGo (p : Pkg) (id crc : Nat) (e : DirEnt) (old : Option DirEnt) : Pkg :=
    let c := cmd p id
    match dirAccept p c.ctx id e with
    | none => finishQm p id 0x31 13
    | some l =>
      let p1 := setDirs p c.ctx l
      let q : QmSt := { p1.qm with oldDirs := SMap.set p1.qm.oldDirs id old, nextOrder := p1.qm.nextOrder + 1 }
      let ces := scopeCes p (dPlace c.desc)
      let p2 := startQm (setCmd { p1 with qm := q } id { c with ces := ces, foldCrc := crc }) id
      if ces.isEmpty then endChartLoad p2 id else chartLoads p2 id ces

/-- CHART_LOAD (R287, R197): accepted from the head of its ring; its loads go on until each CE has answered. -/
def doChartLoad (id : Nat) (m : Memory) (p : Pkg) : Pkg :=
  if opIs p id 1 then
    let c := cmd p id
    if mayStart p id then chartLoadStart p m id
    else if c.phase = .running then chartLoads p id c.ces
    else p
  else p

def execChartLoad (id : Nat) (s : State) : Out := .next (s.onPkg (doChartLoad id s.mem))

/-! ## RUN -/

/-- Whether an octet's PROJECT multiplies in an MX format: that of the FORMAT word in effect there, the last before it (R234). -/
def usesMx (ch : Chart) : Bool :=
  ch.units.any (fun u => projects ch u &&
    (((unitCode ch u).takeWhile (fun w => bitsOf w 31 28 != 2)).reverse.find? (fun w => bitsOf w 31 28 == 1)).any (fun w =>
      isMx (bitsOf w 27 24) || isMx (bitsOf w 23 20)))

/-- The highest slot of round 0 over the octets that project, plus 1 (R236). -/
def slotsNeeded (c : Cmd) (ch : Chart) : Nat :=
  ((ch.units.filter (projects ch)).flatMap (fun u => roundSlots c u.mode 0)).foldl (fun a x => max a (x.1 + 1)) 0

/-- The checks that a RUN's start makes against its chart: alignment (R181), operator ID (R205), K of an MX projection
(R234), the long accumulators of round 0 (R236). -/
def runReason (c : Cmd) (ch : Chart) : Nat :=
  if (chartOperands ch).any (fun i => (dOperand c.desc i).addr % 64 != 0) then 11
  else if ch.operatorId ≠ 0 ∧ ch.operatorId ≠ dOperator c.desc then 10
  else if isProject ch && usesMx ch && dField c.desc 36 2 % 32 != 0 then 8
  else if isProject ch && decide (ch.longAccs < 64 * slotsNeeded c ch) then 12
  else 0

/-- Whether a chart load that a command asked for is in progress on a CE. -/
def loadingFor (p : Pkg) (id n : Nat) : Bool :=
  (List.range 4).any (fun i => (slot (ce p n) i).state == 1 && (slot (ce p n) i).forCmd == id)

/-- A RUN starts from its beginning with the slot that is current for its handle then (R199). -/
def runStart (id n : Nat) (p : Pkg) : Pkg :=
  let c := cmd p id
  match currentSlot (ce p n) (dHandle c.desc) with
  | none => loadFor p id n
  | some i =>
    let p1 := activate p n i c
    let r := runReason c (slot (ce p n) i).chart
    if r ≠ 0 then endOnCe p1 n id 0x31 r else setCe p1 n (freshUnits (ce p1 n))

/-- A RUN resumes from its fold record with the slot current for its handle whose CRC is CHART_CRC; where the directory now holds
another CRC its chart has been superseded (R298). -/
def runResume (id n f : Nat) (m : Memory) (p : Pkg) : Pkg :=
  let c := cmd p id
  match chartSlot p n (dHandle c.desc) c.foldCrc with
  | some i => resumeOn (activate p n i c) m id n f
  | none => if superseded p c then endOnCe p n id 0x40 2 else loadFor p id n

/-- RUN: a dispatched RUN starts on its CE, once the load that its dispatch began or owes has ended, from its beginning or from its
fold record. -/
def doRun (id : Nat) (m : Memory) (p : Pkg) : Pkg :=
  if opIs p id 2 then
    let c := cmd p id
    match c.phase, c.ces with
    | .running, n :: _ =>
      if (ce p n).cmd ≠ some id ∨ (slot (ce p n) (activeSlot p n)).state = 3 ∨ loadingFor p id n = true then p
      else if (ce p n).loadOwed then loadFor p id n
      else
        match c.fold with
        | some f => runResume id n f m p
        | none => runStart id n p
    | _, _ => p
  else p

def execRun (id : Nat) (s : State) : Out := .next (s.onPkg (doRun id s.mem))

/-! ## MOVE_TILE (R397 to R403) -/

def moveWidth (c : Cmd) : Nat := dField c.desc 32 2
def moveLines (c : Cmd) : Nat := (dOperand c.desc 0).rows * moveWidth c

/-- The virtual address of line k of the source (0) or destination (1). -/
def moveVa (c : Cmd) (operand k : Nat) : Nat :=
  let o := dOperand c.desc operand
  o.addr + 64 * (k / max (moveWidth c) 1 * o.pitch + k % max (moveWidth c) 1)

/-- The movers' open packets close. -/
def closeAll (p : Pkg) (n : Nat) : Pkg := closePackets p n

/-- One line copied from the source into the open packet of its store mover; after every 1,024th line the packets close and
a fold boundary is passed. In MOVE mode a poisoned line is copied poisoned and noted (R403). -/
def moveOne (id : Nat) (p : Pkg) : Bool × Pkg :=
  let c := cmd p id
  match c.ces with
  | [] => (false, p)
  | n :: _ =>
    let k := c.progress
    if ceLive p n = false ∨ moveLines c ≤ k then (false, p)
    else
      let va := moveVa c 0 k
      let vb := moveVa c 1 k
      match cmdXlate c 0 va, cmdXlate c 1 vb with
      | some x, some y =>
        if y.writable = false then (false, muFault p n 1 2 vb)
        else
          match muGet p n (k % 2) c x 0 va with
          | (none, q) => (false, q)
          | (some (item, poison), q) =>
            if poison && dField c.desc 34 1 == 0 then (false, stopWith q n 0x10 0)
            else
              let mu := 2 + k % 2
              let l : PLine := ⟨y.addr vb, item, poison, (dOperand c.desc 1).slm == 2, n, mu, false, false⟩
              let e := ce q n
              let mv := mover e mu
              let q1 := setCe q n { e with movers := SMap.set e.movers mu { mv with packet := mv.packet ++ [l] } }
              let c1 : Cmd := { cmd q1 id with progress := k + 1, status := if poison then 0x10 else (cmd q1 id).status }
              let q2 := l1Drop (setCmd (addReg q1 (key (pgCe n) 0x350) 1) id c1) n (l.pa / 64)
              if (k + 1) % 1024 = 0 then (false, passFold (closeAll q2 n) n)
              else if moveLines c = k + 1 then (false, closeAll q2 n)
              else (true, q2)
      | _, _ => (false, p)

/-- All lines of the command are copied and their packets have committed. -/
def moveDone (p : Pkg) (id n : Nat) : Bool := decide (moveLines (cmd p id) ≤ (cmd p id).progress) && packetsDone p n

/-- MOVE_TILE on its CE: lines are copied up to the next fold boundary; a COPY then ends. -/
def doMoveTile (id mode : Nat) (p : Pkg) : Pkg :=
  let c := cmd p id
  if opIs p id 3 && dField c.desc 34 1 == mode then
    match c.ces with
    | [] => p
    | n :: _ =>
      if (ce p n).cmd ≠ some id then p
      else
        let q := iterate (moveOne id) 1024 p
        if mode = 0 ∧ (ce q n).cmd = some id ∧ moveLines c ≤ (cmd q id).progress ∧ ceLive q n = true then workEnds q n id
        else q
  else p

def execMoveTileCopy (id : Nat) (s : State) : Out := .next (s.onPkg (doMoveTile id 0))
def execMoveTileMove (id : Nat) (s : State) : Out := .next (s.onPkg (doMoveTile id 1))

/-- The leaves of the source, each with the physical page of its counterpart, in ascending address order. -/
def switchPairs (c : Cmd) : List (Xlate × Nat) :=
  let of (i : Nat) : List Xlate := (c.pages.filter (fun x => x.1 == i)).map (·.2)
  (of 0).zip ((of 1).map (·.pa))

/-- The compare-and-swaps of R400 step 4: entries switched until one has changed (R402). The record of that change carries a
cause that the spec does not state, a free value. -/
def switchEntries (l : List (Xlate × Nat)) (m : Memory) (p : Pkg) : Bool × Memory × Pkg :=
  match l with
  | [] => (true, m, p)
  | (x, ppn) :: t =>
    if BitVec.ofNat 64 (m.read x.pte 8) = x.pteVal then
      switchEntries t (m.write x.pte 8 (withBits x.pteVal 53 10 ppn).toNat) (homeWrite p x.pte false 0)
    else (false, m, p)

/-- R400 steps 4 and 5: the switch, one atomic step for every engine command of the context, and the MOVE's end; a copy that
read poison switches nothing (R403). Entries that the host holds are recalled first. -/
def execMoveSwitch (id : Nat) (s : State) : Out :=
  let p := s.pkg
  let c := cmd p id
  match c.ces with
  | [] => .next s
  | n :: _ =>
    if opIs p id 3 && dField c.desc 34 1 == 1 && c.phase == .running && (ce p n).cmd == some id && ceLive p n &&
        moveDone p id n then
      let l := switchPairs c
      if c.status = 0x10 then .next (s.onPkg (fun p => endOnCe p n id 0x10 0))
      else if l.any (fun x => fateFor p (idRing 0 0) x.1.pte false == .waits) then .next s
      else if l.any (fun x => hostHolds p x.1.pte) then
        .next (s.onPkg (fun p => l.foldl (fun q x => if hostHolds q x.1.pte then biStart q (x.1.pte / 64) true none else q) p))
      else
        match switchEntries l s.mem p with
        | (true, m, q) => .next { s with mem := m, pkg := endOnCe q n id 0 0 }
        | (false, m, q) =>
          let (seq, q1) := logXlate (nextFree q) c.ctx 0 ((Config.freeWord q.free).toNat % 16) (dOperand c.desc 0).addr
          .next { s with mem := m, pkg := endOnCe q1 n id 0x20 (seq * 65536) }
    else .next s

/-! ## REDUCE (R284, R299) -/

/-- The CE that runs a command, or the router's collective unit in a ring phase, logs a decode error of its read (R38). -/
def readErrors (p : Pkg) (c : Cmd) (pas : List Nat) : Pkg :=
  match c.ces, pas.find? (fun x => fate p x == .decode) with
  | n :: _, some x => decodeError p (pgCe n) x
  | [], some x => decodeError p pgRt x
  | _, none => p

/-- `n` bytes of an operand from a byte offset on, read by the command's CE or the collective unit of the link die: none while a line
waits; the bytes, and whether one is poisoned. `far` says that its lines in remote windows have returned and stand in `m`. -/
def operandBytes (p : Pkg) (m : Memory) (c : Cmd) (operand off n : Nat) (far : Bool) : Option (Nat × Bool) × Pkg :=
  let pages := (c.pages.filter (fun x => x.1 == operand)).map (·.2)
  let a := (dOperand c.desc operand).addr + off
  let lines := (List.range ((a + n - 1) / 64 + 1 - a / 64)).map (fun i => (a / 64 + i) * 64)
  let pas := lines.filterMap (leafAddr pages)
  let who := match c.ces with
    | n :: _ => idCe n
    | [] => idNode 0
  if pas.any (fun x => fateFor p who x false == .waits || (!far && fate p x == .remote)) then (none, p)
  else
    let r := pas.foldl (fun (x : Bool × Pkg) pa =>
      if fate x.2 pa = .decode then (x.1, x.2)
      else
        let y := homeRead x.2 pa (dPrio c.desc) (dOperand c.desc operand).slm none
        (x.1 && y.1, if y.1 then crossLine y.2 who pa true else y.2)) (true, p)
    if r.1 then
      let bad := pas.any (fun x => fate p x == .decode || m.poisoned x 64)
      (some ((bytesAt m pages a n).foldr (fun b acc => b + 256 * acc) 0, bad), readErrors r.2 c pas)
    else (none, r.2)

/-- Record j of a list of sources added exactly; none while one waits; a poisoned source is named by its operand, and nothing
after it is read. -/
def sumRecords (p : Pkg) (m : Memory) (c : Cmd) (far : Bool) (srcs : List Nat) (j : Nat) : Option (Elem × Option Nat) × Pkg :=
  match srcs with
  | [] => (some (⟨0, 0⟩, none), p)
  | i :: t =>
    match operandBytes p m c i (80 * j) 80 far with
    | (none, q) => (none, q)
    | (some (_, true), q) => (some (⟨0, 0⟩, some i), q)
    | (some (v, false), q) =>
      match sumRecords q m c far t j with
      | (none, r) => (none, r)
      | (some (e, b), r) => (some (addElem (recElem (BitVec.ofNat 640 v)) e, b), r)

/-- What one part of a reduction does on its CE: records `first` to `first + count - 1` of the sources, summed, written as
elements of a format, as full records, or as zeros, to an operand. -/
structure Part where
  srcs  : List Nat
  dst   : Nat
  exact : Bool
  zero  : Bool
  first : Nat
  count : Nat
  deriving DecidableEq, Repr

def partBits (c : Cmd) (t : Part) : Nat := outBits (reduceCode c.desc) (t.exact || t.zero)

/-- One output element: the sum rounded once as ARGS bytes 37 and 38 say, or as a record. -/
def partValue (c : Cmd) (t : Part) (j : Nat) (e : Elem) : Nat :=
  if t.zero then 0
  else if t.exact then (elemRec e).toNat
  else
    let b := dField c.desc 37 1
    convert (fmtOf (b % 16)) e ((BitVec.ofNat 8 (dField c.desc 38 1)).toInt - 300) (b / 16 % 4) ((b / 64) % 2 == 1)
      (genSeed c) j

/-- The outputs of records `j` on, packed from the lowest bit. -/
def partOut (p : Pkg) (m : Memory) (c : Cmd) (far : Bool) (t : Part) (j n : Nat) : Option (Nat × Option Nat) × Pkg :=
  match n with
  | 0 => (some (0, none), p)
  | k + 1 =>
    match (if t.zero then (some ((⟨0, 0⟩ : Elem), none), p) else sumRecords p m c far t.srcs j) with
    | (none, q) => (none, q)
    | (some (_, some bad), q) => (some (0, some bad), q)
    | (some (e, none), q) =>
      match partOut q m c far t (j + 1) k with
      | (none, r) => (none, r)
      | (some (v, b), r) => (some (partValue c t j e + v * 2 ^ partBits c t, b), r)

/-- The lines of a batch: `bits` bits of `v` at bit offset `at'` of the destination, the bits beside them in the first and
the last line as they stand in memory. None where a line is not translated for writing. -/
def batchPackets (m : Memory) (c : Cmd) (n : Nat) (t : Part) (at' bits v : Nat) : Option (List PLine) :=
  let o := dOperand c.desc t.dst
  let start := at' / 512
  let skip := at' % 512
  let pages := (c.pages.filter (fun x => x.1 == t.dst)).map (·.2)
  let old (k : Nat) : Nat := match leafAddr pages (o.addr + 64 * k) with
    | some a => m.read a 64
    | none => 0
  let count := ceilDiv (skip + bits) 512
  let top := (skip + bits) % 512
  let last := if top = 0 then 0 else old (start + count - 1) / 2 ^ top * 2 ^ top
  let w := old start % 2 ^ skip + v * 2 ^ skip + last * 2 ^ (512 * (count - 1))
  let pl := (List.range count).filterMap (fun i =>
    match pages.find? (fun y => decide (y.va ≤ (o.addr + 64 * (start + i)) / 4096) &&
        decide ((o.addr + 64 * (start + i)) / 4096 < y.va + y.pages)) with
    | some y =>
      if y.writable then
        some (⟨y.addr (o.addr + 64 * (start + i)), BitVec.ofNat 512 (w / 2 ^ (512 * i)), false, o.slm == 2, n, 2, false, false⟩ : PLine)
      else none
    | none => none)
  if pl.length = count then some pl else none

/-- A list cut into packets of at most 1,024 lines. -/
def chunk (fuel : Nat) (l : List PLine) : List (List PLine) :=
  match fuel with
  | 0 => []
  | k + 1 => if l.isEmpty then [] else l.take 1024 :: chunk k (l.drop 1024)

/-- The lines loaded for a batch's sources. -/
def batchLoads (t : Part) (j n : Nat) : Nat := if t.zero then 0 else t.srcs.length * ceilDiv (80 * (j + n)) 64 - t.srcs.length * (80 * j / 64)

/-- The lines of a batch's sources that lie in remote windows: operand and virtual address of each. -/
def farLines (p : Pkg) (c : Cmd) (t : Part) (j k : Nat) : List (Nat × Nat) :=
  if t.zero then []
  else t.srcs.flatMap (fun i =>
    let a := (dOperand c.desc i).addr + 80 * j
    ((List.range ((a + 80 * k - 1) / 64 + 1 - a / 64)).map (fun l => (i, (a / 64 + l) * 64))).filter (fun y =>
      match cmdXlate c i y.2 with
      | some x => fate p (x.addr y.2) == .remote
      | none => false))

/-- Whether a line of a window has returned for mover 0. -/
def farHere (p : Pkg) (n : Nat) (c : Cmd) (y : Nat × Nat) : Bool :=
  match cmdXlate c y.1 y.2 with
  | some x => (ce p n).arrived.any (fun a => a.1 == 0 && a.2.line == x.addr y.2 / 64)
  | none => true

/-- Mover 0 asks for the lines of windows that have not been asked for. -/
def farAsk (n : Nat) (c : Cmd) (l : List (Nat × Nat)) (p : Pkg) : Pkg :=
  l.foldl (fun q y =>
    match cmdXlate c y.1 y.2 with
    | some x => if farHere q n c y || muAwaits (ce q n) 0 (x.addr y.2 / 64) then q
                else muRequest q n 0 c x y.1 y.2 false
    | none => q) p

/-- Memory with the lines that have returned for mover 0 at their window addresses. -/
def farMemory (e : Ce) (m : Memory) : Memory :=
  (e.arrived.filter (fun a => a.1 == 0)).foldl (fun m a => m.storeLine (64 * a.2.line) a.2.data a.2.poison) m

/-- A part goes on by the records up to its next fold boundary, every 4,096 records (R299); where sources lie in remote windows, four
records at a time, once their lines have returned. -/
def partStep (id n : Nat) (t : Part) (m0 : Memory) (p0 : Pkg) : Pkg :=
  let c := cmd p0 id
  let done := c.progress
  if t.count ≤ done ∨ ceLive p0 n = false ∨ packetsDone p0 n = false then p0
  else
    let j := t.first + done
    let all := min (t.count - done) (4096 - done % 4096)
    let far := !(farLines p0 c t j all).isEmpty
    let k := if far then min all (4 - done % 4) else all
    let wanted := if far then farLines p0 c t j k else []
    if !(wanted.all (farHere p0 n c)) then farAsk n c wanted p0 else
    let m := if far then farMemory (ce p0 n) m0 else m0
    let p := if far then setCe p0 n { ce p0 n with arrived := (ce p0 n).arrived.filter (fun a => a.1 != 0) } else p0
    match partOut p m c far t j k with
    | (none, q) => setCe q n { ce q n with arrived := (ce p0 n).arrived }
    | (some (_, some bad), q) => stopWith q n 0x10 bad
    | (some (v, none), q) =>
      let b := partBits c t
      match batchPackets m c n t (j * b) (k * b) v with
      | none => muFault q n t.dst 2 (dOperand c.desc t.dst).addr
      | some ls =>
        let e := ce q n
        let mv := mover e 2
        let q1 := setCe q n { e with movers := SMap.set e.movers 2 { mv with closed := mv.closed ++ chunk 8 ls } }
        let q2 := setCmd (addReg q1 (key (pgCe n) 0x350) (batchLoads t j k)) id { cmd q1 id with progress := done + k }
        let q3 := ls.foldl (fun r l => l1Drop r n (l.pa / 64)) q2
        if (done + k) % 4096 = 0 then passFold q3 n else q3

def partDone (p : Pkg) (id n : Nat) (t : Part) : Bool := decide (t.count ≤ (cmd p id).progress) && packetsDone p n && ceLive p n

/-- The CE of a running command. -/
def ceOf (p : Pkg) (id : Nat) : Option Nat :=
  match (cmd p id).ces with
  | n :: _ => if (ce p n).cmd = some id then some n else none
  | [] => none

def localPart (c : Cmd) : Part :=
  if reduceAlgo c.desc = 0 then
    ⟨List.range (reduceSources c.desc), 5, reduceCode c.desc == 15, false, 0, reduceRecords c.desc⟩
  else ⟨List.range (reduceSources c.desc), 3, true, false, 0, reduceRecords c.desc⟩

/-- REDUCE with ALGO 0 on its CE. -/
def doReduce (id : Nat) (m : Memory) (p : Pkg) : Pkg :=
  let c := cmd p id
  if opIs p id 4 && reduceAlgo c.desc == 0 then
    match ceOf p id with
    | none => p
    | some n =>
      let q := partStep id n (localPart c) m p
      if (ce q n).cmd == some id && decide ((localPart c).count ≤ (cmd q id).progress) && ceLive q n then workEnds q n id else q
  else p

def execReduce (id : Nat) (s : State) : Out := .next (s.onPkg (doReduce id s.mem))

/-! ## Collective REDUCE (R576): the parts on a CE -/

/-- The records of segment k of P (R577): its first record and its number of records. -/
def segment (records k size : Nat) : Nat × Nat :=
  let a := k * records / max size 1
  (a, (k + 1) * records / max size 1 - a)

def groupSize (p : Pkg) (g : Nat) : Nat := fld p (groupKey g 0) 61 48
def groupRank (p : Pkg) (g : Nat) : Nat := fld p (groupKey g 0) 45 32

/-- The part of the final phase: 3a rounds staging, all of it or the rank's own segment; 3b zeroes it. -/
def finalPart (p : Pkg) (c : Cmd) : Part :=
  let n := reduceRecords c.desc
  let g := reduceGroup c.desc
  if c.collPhase = 4 then ⟨[], 4, true, true, 0, n⟩
  else
    let s := if reduceAlgo c.desc = 2 then segment n ((groupRank p g + 1) % max (groupSize p g) 1) (groupSize p g) else (0, n)
    ⟨[4], 5, reduceCode c.desc == 15, false, s.1, s.2⟩

def collPart (p : Pkg) (c : Cmd) : Part := if 3 ≤ c.collPhase then finalPart p c else localPart c

/-- The local phase has ended: the command holds no CE in its ring phase. -/
def enterRing (p : Pkg) (id n : Nat) : Pkg :=
  let c := cmd p id
  let p1 := ceRelease (addReg (waypoint (addCmdBeats p id n) (pgCe n) 0x11 (cmdSub c) 0) (key (pgCe n) 0x380) 1) n c
  setCmd p1 id { cmd p1 id with ces := [], collPhase := 2, collStep := 0, progress := 0, waitSince := timerNow p }

/-- A collective REDUCE on a CE: its local phase, or part 3a and then 3b of its final phase. -/
def doCollective (id algo : Nat) (m : Memory) (p : Pkg) : Pkg :=
  let c := cmd p id
  if opIs p id 4 && reduceAlgo c.desc == algo && c.phase == .running then
    match ceOf p id with
    | none => p
    | some n =>
      let p0 := if c.collPhase = 0 then setCmd p id { c with collPhase := 1 } else p
      let t := collPart p0 (cmd p0 id)
      let q := partStep id n t m p0
      if hasCmd q id && (cmd q id).phase == .running && partDone q id n t then
        match (cmd q id).collPhase with
        | 3 => setCmd q id { cmd q id with collPhase := 4, progress := 0 }
        | 4 => endOnCe q n id 0 0
        | _ => enterRing q id n
      else q
  else p

def execAllReduce (id : Nat) (s : State) : Out := .next (s.onPkg (doCollective id 1 s.mem))
def execReduceScatter (id : Nat) (s : State) : Out := .next (s.onPkg (doCollective id 2 s.mem))

/-! ## Semaphores (R306, R307) -/

/-- The translated leaf and the physical address of a command's semaphore. -/
def semAddr (c : Cmd) : Option (Xlate × Nat) :=
  let va := (dOperand c.desc 0).addr
  (cmdXlate c 0 va).map (fun x => (x, x.addr va))

def semValue (c : Cmd) : W64 := BitVec.ofNat 64 (dField c.desc 32 8)

/-- The home has performed a SEM_SIGNAL: its trace record, and DONE. -/
def signalled (p : Pkg) (id pa : Nat) : Pkg :=
  let c := cmd p id
  finishQm (traceCmd p 4 0 0x02 c (idRing c.ctx c.ring) (homeId pa) 0 (dOperand c.desc 0).addr) id 0 0

/-- SEM_SIGNAL: one atomic at the semaphore's home: a slice, the host link, or through a window the peer's home. In link mode 1 a
host address needs AtomicOp Requester Enable (R501). -/
def execSemSignal (id : Nat) (s : State) : Out :=
  let p := s.pkg
  let c := cmd p id
  if opIs p id 5 && mayStart p id then
    match semAddr c with
    | none => .next s
    | some (x, pa) =>
      let op := dField c.desc 40 1
      if x.writable = false then
        let (seq, q) := logXlate p c.ctx 0 2 (dOperand c.desc 0).addr
        .next { s with pkg := finishQm q id 0x20 (seq * 65536) }
      else match region pa with
        | .window w _ =>
          if 1024 ≤ remoteCount p x.node then .next s
          else
            let item : Item := (semValue c).setWidth 512
            .next { s with pkg := startQm (remoteSend p (.semSignal id) x w 0 (pa / 64) (ringId c.ctx c.ring) 0x04 op
                      (dPrio c.desc) false item (pa % 64 / 8 * 8)) id }
        | .host _ =>
          if hostReached p ∧ fld p (key pgHl 0x100) 31 30 = 1 ∧ bitOf (cfgStored p 0x78) 6 = false then
            .next { s with pkg := finishQm p id 0x31 6 }
          else if hostReached p then
            let v := if op = 0 then BitVec.ofNat 64 (s.mem.read pa 8) + semValue c else semValue c
            let h := { p.home with writer := SMap.set p.home.writer (pa / 64) (idRing c.ctx c.ring) }
            .next { s with mem := s.mem.write pa 8 v.toNat, pkg := signalled { p with home := h } id pa }
          else .next s
        | _ =>
          match atomAt pa op (semValue c) (idRing c.ctx c.ring) pgQm none s with
          | (.done, t) => .next (t.onPkg (fun q => signalled q id pa))
          | (_, t) => .next t
  else .next s

/-- Whether a SEM_WAIT's condition holds of a value. -/
def semHolds (c : Cmd) (v : W64) : Bool :=
  if dField c.desc 40 1 = 0 then decide (semValue c ≤ v) else v == semValue c

/-- A SEM_WAIT ends: its watch goes, its trace record names the writer. -/
def semEnds (p : Pkg) (id pa status detail : Nat) : Pkg :=
  let c := cmd p id
  let p1 := dropWatches p id
  let dur := if c.phase = .running then p.pace.datum - c.startBeat else 0
  let p2 := traceCmd p1 4 0 0x01 c (idRing c.ctx c.ring) (SMap.get p.home.writer (pa / 64) 0) dur (dOperand c.desc 0).addr
  if c.phase = .running then finishCmd p2 id status detail else finishQm p2 id status detail

/-- The semaphore read at its home: ends the wait where the condition holds, else `f`. -/
def semCheck (p : Pkg) (m : Memory) (id : Nat) (f : Nat → Pkg → Pkg) : Pkg :=
  let c := cmd p id
  match semAddr c with
  | none => p
  | some (_, pa) =>
    match qmRead p m pa 8 (ringClass p c.ctx c.ring) with
    | (.waits, q) => q
    | (.poison, q) => semEnds q id pa 0x10 0
    | (.bytes v, q) => if semHolds c (BitVec.ofNat 64 v) then semEnds q id pa 0 0 else f pa q

/-- SEM_WAIT: it completes at once, or registers its watch; a full watch table leaves it polled. -/
def doSemWait (id : Nat) (m : Memory) (p : Pkg) : Pkg :=
  if opIs p id 6 && mayStart p id then semCheck p m id (fun pa q => addWatch (startQm q id) pa id) else p

def execSemWait (id : Nat) (s : State) : Out := .next (s.onPkg (doSemWait id s.mem))

/-- A write that satisfies the watched condition has become visible. -/
def doSemWaitSatisfied (id : Nat) (m : Memory) (p : Pkg) : Pkg :=
  if opIs p id 6 && (cmd p id).phase == .running && (cmd p id).watching then semCheck p m id (fun _ q => q) else p

def execSemWaitSatisfied (id : Nat) (s : State) : Out := .next (s.onPkg (doSemWaitSatisfied id s.mem))

/-- R378: the poll of a SEM_WAIT that found the watch table full. -/
def doSemPoll (id : Nat) (m : Memory) (p : Pkg) : Pkg :=
  if opIs p id 6 && (cmd p id).phase == .running && !(cmd p id).watching then semCheck p m id (fun _ q => q) else p

def execSemPoll (id : Nat) (s : State) : Out := .next (s.onPkg (doSemPoll id s.mem))

/-! ## Barriers and fences (R308, R325, R322) -/

/-- The earlier commands of a ring that have no completion record. -/
def earlierInRing (p : Pkg) (c : Cmd) : Bool := (ringCmds p c.ctx c.ring).any (fun x => decide (x.2.order < c.order))

/-- Commands of the context accepted before a command and not complete; one that was refused was never accepted. -/
def earlierInCtx (p : Pkg) (id : Nat) (c : Cmd) : Bool :=
  p.qm.cmds.any (fun x => x.1 != id && x.2.ctx == c.ctx && x.2.phase != .translating && x.2.phase != .trailing &&
    x.2.acceptOrder != 0 && decide (x.2.acceptOrder < c.acceptOrder))

/-- The trace of a wait that has ended, since the command came to the head of its ring. -/
def waitTrace (p : Pkg) (c : Cmd) (kind on object : Nat) : Pkg :=
  traceCmd p 4 1 kind c (idRing c.ctx c.ring) on (p.pace.datum + 1 - c.waitSince) object

/-- BARRIER: SCOPE 0 waits for its ring, SCOPE 1 also for its context. -/
def doBarrier (id : Nat) (p : Pkg) : Pkg :=
  let c := cmd p id
  let wide := dField c.desc 32 1 == 1
  if opIs p id 7 && mayStart p id && !earlierInRing p c && !(wide && earlierInCtx p id c) then
    let last := SMap.get p.qm.lastDone (if wide then 1024 + c.ctx else ringId c.ctx c.ring) (0, 0)
    finishQm (waitTrace p c 0x03 last.1 last.2) id 0 0
  else p

def execBarrier (id : Nat) (s : State) : Out := .next (s.onPkg (doBarrier id))

/-- REMOTE_FENCE: no earlier command of the ring is open and no remote write of the ring awaits its acknowledgement; a
write declared undeliverable ends it WINDOW_FAULT with the window. -/
def doRemoteFence (id : Nat) (p : Pkg) : Pkg :=
  let c := cmd p id
  let r := ringId c.ctx c.ring
  if opIs p id 8 && mayStart p id && !earlierInRing p c && !(p.rt.acc.any (fun x => x.2.ring == r && x.2.msg.op != 1)) then
    let w := SMap.get p.qm.remoteFail r 0
    let q : QmSt := { p.qm with remoteFail := SMap.drop p.qm.remoteFail (fun k => k == r) }
    let a := SMap.get p.qm.lastAck r (0, 0)
    let p1 := waitTrace { p with qm := q } c 0x05 (idNode a.1) a.2
    if w = 0 then finishQm p1 id 0 0 else finishQm p1 id 0x21 ((w - 1) * 16)
  else p

def execRemoteFence (id : Nat) (s : State) : Out := .next (s.onPkg (doRemoteFence id))

/-- INVALIDATE_L1 notes the CEs that have invalidated and those it waits for: the last to do so, of several the highest, is the CE of
its completion record (R300; log entry 94). -/
def noteInvalidated (p : Pkg) (id : Nat) (gone left : List Nat) : Pkg :=
  let c := cmd p id
  setCmd p id { c with ces := left, lastCe := gone.foldl max (if gone.isEmpty then c.lastCe else 0) }

/-- INVALIDATE_L1: a CE in scope invalidates at once while it runs nothing, else at its next command boundary; the command
completes when every CE has done so. -/
def doInvalidateL1 (id : Nat) (p : Pkg) : Pkg :=
  let c := cmd p id
  if opIs p id 9 && mayStart p id then
    let l := scopeCes p (dPlace c.desc)
    let wait := l.filter (fun n => (ce p n).cmd.isSome)
    let p1 := l.foldl (fun q n =>
      if (ce q n).cmd.isSome then setBit (setCe q n { ce q n with laterInv := true }) (l1Status n) 31 true
      else setCe q n (ce q n).invalidateAll) p
    let p2 := noteInvalidated p1 id (l.filter (fun n => (ce p n).cmd.isNone)) wait
    if wait.isEmpty then finishQm p2 id 0 0 else startQm p2 id
  else if opIs p id 9 && c.phase == .running then
    let left := c.ces.filter (fun n => (ce p n).laterInv)
    let q := noteInvalidated p id (c.ces.filter (fun n => !(ce p n).laterInv)) left
    if left.isEmpty then finishCmd q id 0 0 else q
  else p

def execInvalidateL1 (id : Nat) (s : State) : Out := .next (s.onPkg (doInvalidateL1 id))

end Sys2Proof.Machine
end

