-- ==== Sys2Proof/Machine/FieldBook.lean ====
section
/-! DEFINITION. The field book: requests for limited-change settings, their checks, and their end (spec/04 R164 to R172). -/

namespace Sys2Proof.Machine

/-- Answers the mailbox request of surveyor page 1 or 2 (R603): DONE, RESULT, and the page's interrupt. -/
def answerMbox (p : Pkg) (page result : Nat) : Pkg :=
  let k := key page 0x110
  raiseBlock (setFld (setBit (setBit p k 30 false) k 31 true) k 15 8 result) page 0

/-- The FB field at an aperture offset: its setting code of Table 4-12 and its INSTANCE (Table 4-13). -/
def fbField (off : Nat) : Option (Nat × Nat) :=
  if off = key pgFb 0x100 then some (1, 0)
  else if off = key pgFb 0x104 then some (2, 0)
  else if off = key pgFb 0x108 then some (6, 0)
  else
    match pageInfo (off / 0x1000) with
    | none => none
    | some pi =>
      let o := off % 0x1000
      if pi.cls = 0x09 ∧ (o = 0x118 ∨ o = 0x11C) then some (3, 2 * pi.inst + (o - 0x118) / 4)
      else if pi.cls = 0x02 ∧ o = 0x108 then some (4, 256 * pi.die + 25 * pi.inst)
      else if pi.cls = 0x0B ∧ pi.index = 0 ∧ 0x140 ≤ o ∧ o < 0x160 ∧ o % 4 = 0 then some (5, (o - 0x140) / 4)
      else none

def countOnes (n : Nat) (m : Nat) : Nat := ((List.range m).filter (fun i => n.testBit i)).length

def laneMask (f : FuseSt) (inst : Nat) : Nat := SMap.get f.laneRetired inst 0
def ceMask (f : FuseSt) (qd : Nat) : Nat := SMap.get f.ceRetired qd 0

/-- The verdict on a request (R165): a REJECT code of Table 22-9, or accepted with or without a change. -/
inductive FbVerdict where
  | reject (code : Nat)
  | same
  | accept
  deriving DecidableEq, Repr

/-- Value rules before the limit, and the limit before BOOK_FULL (R165, R168). -/
def fbLimit (f : FuseSt) (valueOk limitLeft : Bool) : FbVerdict :=
  if !valueOk then .reject 2 else if !limitLeft then .reject 1
  else if 256 ≤ f.entries.length then .reject 3 else .accept

/-- R165: a request judged against its setting's present value, values and limit (Table 4-12). -/
def fbJudge (f : FuseSt) (r : FbReq) : FbVerdict :=
  match r.setting with
  | 1 => if r.value = f.personality then .same else fbLimit f (decide (r.value ≤ 1)) (decide (f.persChanges < 4))
  | 2 => if r.value = f.ceiling then .same
         else fbLimit f (decide (450 ≤ r.value) && decide (r.value < f.ceiling) && decide ((850 - r.value) % 25 = 0)) true
  | 3 => if r.value ≤ 8 ∧ (laneMask f r.inst).testBit r.value then .same
         else fbLimit f (decide (r.value ≤ 8)) (decide (SMap.get f.laneRecords r.inst 0 < 4))
  | 4 => let qd := 8 * (r.inst / 256) + r.inst % 256 / 25
         if r.value ≤ 24 ∧ (ceMask f qd).testBit r.value then .same
         else fbLimit f (decide (r.value ≤ 24)) (decide (SMap.get f.ceRecords (r.inst / 256) 0 < 8))
  | 5 => if r.value = bitNat (f.keyRevoked.testBit r.inst) then .same
         else fbLimit f (decide (r.value = 1)) true
  | 6 => if r.value = bitNat f.debugLock then .same else fbLimit f (decide (r.value = 1)) true
  | _ => .reject 2

/-- The value an FB field reads, for OLD and NEW of an entry. -/
def fbRead (f : FuseSt) (r : FbReq) : Nat :=
  match r.setting with
  | 1 => f.personality
  | 2 => f.ceiling
  | 3 => laneMask f r.inst
  | 4 => ceMask f (8 * (r.inst / 256) + r.inst % 256 / 25)
  | 5 => bitNat (f.keyRevoked.testBit r.inst)
  | _ => bitNat f.debugLock

/-- The fuses programmed with an accepted request (R167 step 2). -/
def fbProgram (f : FuseSt) (r : FbReq) : FuseSt :=
  match r.setting with
  | 1 => { f with personality := r.value, persChanges := f.persChanges + 1 }
  | 2 => { f with ceiling := r.value }
  | 3 => { f with laneRetired := SMap.set f.laneRetired r.inst (laneMask f r.inst ||| 2 ^ r.value)
                  laneRecords := SMap.set f.laneRecords r.inst (SMap.get f.laneRecords r.inst 0 + 1) }
  | 4 => let qd := 8 * (r.inst / 256) + r.inst % 256 / 25
         { f with ceRetired := SMap.set f.ceRetired qd (ceMask f qd ||| 2 ^ r.value)
                  ceRecords := SMap.set f.ceRecords (r.inst / 256) (SMap.get f.ceRecords (r.inst / 256) 0 + 1) }
  | 5 => { f with keyRevoked := f.keyRevoked ||| 2 ^ r.inst }
  | _ => { f with debugLock := true }

def fbResult : Nat := key pgFb 0x110

/-- The mailbox result of an FB_RESULT.REJECT code (R604). -/
def fbMboxResult (reject : Nat) : Nat :=
  match reject with
  | 0 => 0
  | 2 => 2
  | 4 => 6
  | _ => 3

/-- A request ends (R171, Table 22-9): FB_RESULT, the field book page's interrupt, and the mailbox's answer where it was
made for one. -/
def fbEnd (p : Pkg) (r : FbReq) (reject entry : Nat) : Pkg :=
  let p1 := raiseBlock (setReg p fbResult
    (BitVec.ofNat 64 (2 ^ 31 + bitNat (reject == 0) * 2 ^ 30 + entry % 256 * 2 ^ 16 + reject))) pgFb 0
  let p2 := { p1 with fuse := { p1.fuse with requests := p1.fuse.requests.tail, serving := false } }
  if r.mbox = 0 then p2 else answerMbox p2 r.mbox (fbMboxResult reject)

/-- PL_LANES_TX (direction 0) or PL_LANES_RX (1) of a port. -/
def lanesKey (port dir : Nat) : Nat := key (pgPl port) (0x110 + 4 * dir)

/-- Lanes that carry data in a direction of a port. -/
def laneWidth (p : Pkg) (port dir : Nat) : Nat := countOnes (fld p (lanesKey port dir) 8 0) 9

/-- WIDTH and SPARE of PL_STATUS follow the lanes (Table 16-13). -/
def syncWidths (p : Pkg) (port : Nat) : Pkg :=
  let k := key (pgPl port) 0x100
  let p1 := setFld (setFld p k 21 18 (laneWidth p port 0)) k 17 14 (laneWidth p port 1)
  let sp (d : Nat) : Bool := fld p (lanesKey port d) 21 18 != 15
  setBit (setBit p1 k 13 (sp 0)) k 12 (sp 1)

/-- Takes a lane out of use: OUT set and USED cleared in PL_LANES_TX or RX; a spare that is retired is no spare (R558). The
port logs LANE_RETIRED. -/
def laneOut (p : Pkg) (inst lane : Nat) : Pkg :=
  let k := lanesKey (inst / 2) (inst % 2)
  let p1 := setBit (setBit p k (9 + lane) true) k lane false
  let p2 := if fld p k 21 18 = lane then setFld p1 k 21 18 15 else p1
  logErr (raiseBlock (syncWidths p2 (inst / 2)) (pgPl (inst / 2)) 1) (pgPl (inst / 2))
    ⟨0x63, 0, 0, 0, lane + 16 * (inst % 2)⟩

/-- A CE taken out of use until the next package power-up, with or without a record (R629, R630): FAULT clears, RETIRED
stays; its quadrangle's spare, if one waits, begins its survey. -/
def ceTakenOut (p : Pkg) (qd pos : Nat) : Pkg :=
  let n := 256 * (qd / 8) + 25 * (qd % 8) + pos
  let k := key (pgCe n) 8
  let qk := key (pgQd qd) 0x100
  let p1 := setBit (setBit p k 2 false) k 3 true
  let p1 := if bit p qk pos then raiseBlock p1 (pgQd qd) 1 else p1
  let p2 := setBusy (setReady { setBit p1 qk pos false with fault := { p1.fault with
      ceOut := SMap.set p1.fault.ceOut qd (SMap.get p1.fault.ceOut qd 0 ||| 2 ^ pos) } } (pgCe n) false) (pgCe n) false
  let sp := SMap.get p.fuse.sparePos qd 24
  let m := 256 * (qd / 8) + 25 * (qd % 8) + sp
  if sp = pos then setBit p2 (qk + 4) 7 false
  else if bit p (qk + 4) 7 = true ∧ surveying p2 (pgCe m) = false then
    waypoint (setBit p2 (key (pgCe m) 8) 4 true) (pgCe m) 0x04 0 0
  else p2

/-- The effect of a setting's new value beyond its fuses: lanes and CEs leave service; DEBUG_LOCK ends debug sessions
with the TAPs in Test-Logic-Reset (R683). -/
def fbEffect (p : Pkg) (r : FbReq) : Pkg :=
  match r.setting with
  | 3 => laneOut p r.inst r.value
  | 4 => ceTakenOut p (8 * (r.inst / 256) + r.inst % 256 / 25) r.value
  | 6 => { p with tapIr := [] }
  | _ => p

/-- A rejected CE_RETIRE or LANE_RETIRE whose limit is exhausted still takes the unit out of use until the next package
power-up (R558, R630). -/
def fbRejected (p : Pkg) (r : FbReq) (code : Nat) : Pkg :=
  if code = 1 ∧ (r.setting = 3 ∨ r.setting = 4) then fbEffect p r else p

/-- Requests at the front that end without an entry end at once; the first accepted one runs its three steps until
FB_REQUEST_DONE (R166, R167). -/
def fbServe (fuel : Nat) (p : Pkg) : Pkg :=
  match fuel, p.fuse.requests with
  | 0, _ => p
  | _, [] => p
  | n + 1, r :: _ =>
    match fbJudge p.fuse r with
    | .reject c => fbServe n (fbEnd (fbRejected p r c) r c 0)
    | .same => fbServe n (fbEnd p r 0 0)
    | .accept =>
      if p.fuse.serving then p
      else setBit (setBit { p with fuse := { p.fuse with serving := true } } fbResult 31 false) fbResult 30 false

/-- A request joins the queue; it is judged at once when none is in progress and no handover is (R652). -/
def fbEnqueue (p : Pkg) (r : FbReq) : Pkg :=
  let p1 := { p with fuse := { p.fuse with requests := p.fuse.requests ++ [r] } }
  if p.fuse.requests.isEmpty && p.boot.handover.isNone then fbServe 1 p1 else p1

/-- The request that a write of `value` to an FB field makes (R165, R172): the surveyor's carries FB_ATTRIBUTE, which
then resets; any other party's carries its own code and reason 0. -/
def fbRequestOf (p : Pkg) (rq : Requester) (setting inst value mbox : Nat) : FbReq :=
  let a := key pgFb 0x10C
  let v := if setting = 1 ∨ setting = 6 then value else if setting = 2 then value % 1024
    else if setting = 3 then value % 16 else if setting = 4 then value % 32 else value % 2
  let v := if setting = 1 ∨ setting = 6 then v % 2 else v
  if rq = .surveyor then ⟨setting, fld p a 11 8, fld p a 7 0, inst, v, mbox⟩
  else ⟨setting, rq.code, 0, inst, v, mbox⟩

/-- FB_ATTRIBUTE's reset value: the surveyor for itself, reason 0. -/
def fbAttribute : Nat := key pgFb 0x10C

/-- A request that the surveyor makes by itself with a reason: FB_ATTRIBUTE takes its own code and the reason for it, and returns
to its reset value with it (R170, R172). -/
def surveyorRequest (p : Pkg) (setting reason inst value : Nat) : Pkg :=
  fbEnqueue (setReg p fbAttribute 0x100) ⟨setting, 1, reason, inst, value, 0⟩

def putFbRequest (rq : Requester) (setting inst value mbox : Nat) (p : Pkg) : Pkg :=
  let r := fbRequestOf p rq setting inst value mbox
  let p1 := if rq = .surveyor then setReg p (key pgFb 0x10C) 0x100 else p
  fbEnqueue p1 r

/-- R165: the page's owner or the surveyor makes a request; any other write is foreign. A request of the surveyor to a block that
is not READY is discarded like any write of a block-specific register (R142). -/
def doFbRequest (rq : Requester) (off : Nat) (value : W32) (p : Pkg) : Pkg :=
  match fbField off with
  | none => p
  | some (setting, inst) =>
    let pg := off / 0x1000
    let f := putFbRequest rq setting inst value.toNat 0
    if rq = .surveyor ∧ present p pg = true then (if ready p pg then f p else p)
    else ifWrites p rq pg (off % 0x1000) f

/-- The entry of an accepted request (Table 4-13). -/
def fbEntryOf (p : Pkg) (r : FbReq) (void : Bool) : FbEntry :=
  ⟨p.pace.datum, p.boot.powerUps, r.setting, r.requester, r.reason, fbRead p.fuse r,
    fbRead (fbProgram p.fuse r) r, r.inst + (if r.setting = 4 then r.value else 0), void⟩

/-- R167: the request in progress appends its entry, programs the fuses and the FB field takes the new value; a failed
write leaves a void entry and ends with REJECT 4 (R168, Table 22-9); ENTRY is the index of the entry appended in both cases. The
next request is then judged. A request that has not been accepted yet has nothing to end. -/
def doFbRequestDone (written : Bool) (p : Pkg) : Pkg :=
  match p.fuse.requests, p.fuse.serving with
  | [], _ => p
  | _ :: _, false => p
  | r :: rest, true =>
    let e := fbEntryOf p r (!written)
    let idx := p.fuse.entries.length
    if written then
      let f := fbProgram p.fuse r
      let p1 := { p with fuse := { f with entries := f.entries ++ [e] } }
      fbServe rest.length (fbEnd (fbEffect p1 r) r 0 idx)
    else
      let p1 := { p with fuse := { p.fuse with entries := p.fuse.entries ++ [e] } }
      fbServe rest.length (fbEnd p1 r 4 idx)

end Sys2Proof.Machine
end

