-- ==== Sys2Proof/Machine/Links.lean ====
section
/-! DEFINITION. Proilad ports (spec/16 R541 to R560, R566 to R572): training, lanes, flits, replay, credits, link failure,
and the operator's drain. A direction is 0 for transmit and 1 for receive. -/

namespace Sys2Proof.Machine

/-! ## Ports -/

def PortSt.empty : PortSt :=
  { trained := false, nextSeq := 0, expect := 0, replay := [], sentAt := 0, tries := 0, accepted := 0, firstAt := 0,
    queued := [], rx := [], sent := [], limit := [], freed := [], colTurn := false, lastRx := 0, downAt := none,
    drainAt := 0, answered := false, flashEnd := none }

def port (p : Pkg) (i : Nat) : PortSt := SMap.get p.rt.ports i PortSt.empty
def setPort (p : Pkg) (i : Nat) (x : PortSt) : Pkg := { p with rt := { p.rt with ports := SMap.set p.rt.ports i x } }

def plStatus (i : Nat) : Nat := key (pgPl i) 0x100
def plState (p : Pkg) (i : Nat) : Nat := fld p (plStatus i) 31 28
def cable (p : Pkg) (i : Nat) : Bool := bit p (plStatus i) 27
def plDisabled (p : Pkg) (i : Nat) : Bool := bit p (key (pgPl i) 0x104) 2

/-- PL_STATUS.STATE by name. -/
def stDown : Nat := 0
def stTraining : Nat := 2
def stTrained : Nat := 3
def stAdmitted : Nat := 4
def stDraining : Nat := 5
def stDrained : Nat := 6
def stIncompatible : Nat := 7
def stRetraining : Nat := 8

/-- Table 16-7: the green and amber lamps of a state: 0 off, 1 blink, 2 solid, 3 flash. -/
def lamps (st : Nat) : Nat × Nat :=
  match st with
  | 0 => (0, 0)
  | 3 => (1, 2)
  | 4 => (2, 0)
  | 5 => (2, 1)
  | 6 => (0, 2)
  | 7 => (0, 3)
  | _ => (1, 0)

/-- STATE takes a value, and the lamps and RT_ADMITTED with it; a change sets BLOCK bit 0 and pushes STATE_CHANGE. -/
def setPlState (p : Pkg) (i st : Nat) : Pkg :=
  let k := plStatus i
  let p1 := setFld (setFld (setFld p k 31 28 st) k 25 24 (lamps st).1) k 23 22 (lamps st).2
  let p2 := setBit p1 (key pgRt 0x130) i (st == stAdmitted)
  let p3 := setPort p2 i { port p2 i with flashEnd := none }
  let p3 := if (plState p i == stAdmitted) = (st == stAdmitted) then p3 else raiseBlock p3 pgSv 1
  if plState p i = st then p3 else waypoint (raiseBlock p3 (pgPl i) 0) (pgPl i) 0x07 0 st

/-- A link over which flits pass. -/
def linkUp (p : Pkg) (i : Nat) : Bool := decide (i < 6) && (port p i).trained

/-- R566: a TRAINED port whose partner equals RT_NEIGHBOURp with AUTO is admitted once RT_NODE_ID is written (R540); a
mismatch sets BLOCK bit 3. -/
def tryAdmit (p : Pkg) (i : Nat) : Pkg :=
  let n := key pgRt (0x118 + 4 * i)
  let q := key (pgPl i) 0x108
  if plState p i = stTrained then
    if fld p n 13 0 = fld p q 13 0 ∧ fld p n 18 16 = fld p q 18 16 then
      if bit p n 31 && p.rt.nodeLocked then setPlState p i stAdmitted else p
    else raiseBlock p (pgPl i) 3
  else p

/-! ## Slots, credits, and sending (R547, R550, R552, R554) -/

/-- The record slots of a run: three short records to a slot, one full record to a slot; `run` short records stand open. -/
def recSlots (run : Nat) (l : List WireRec) : Nat :=
  match l with
  | [] => ceilDiv run 3
  | .short _ :: t => recSlots (run + 1) t
  | .full _ :: t => ceilDiv run 3 + 1 + recSlots 0 t

/-- A message as a link carries it: short records only where the link has SHORT_RECORDS (R545, R577). -/
def onLink (p : Pkg) (i : Nat) (m : Msg) : Msg :=
  { m with recs := m.recs.map (recOnLink (bit p (key (pgPl i) 0x10C) 16)) }

/-- The slots that a message takes on a link: its own, and those of its records (R577). -/
def slotsOf (p : Pkg) (i : Nat) (m : Msg) : Nat := 1 + recSlots 0 (onLink p i m).recs

def vcKey (m : Msg) : Nat := 4 * m.cls + m.vc

/-- Receive depths in slots (Table 16-6). -/
def slotDepth (k : Nat) : Nat := if 12 ≤ k then 16 else if k % 4 < 2 then 3072 else 256

/-- Credits held toward the partner for a class and VC (R96). -/
def PortSt.credits (x : PortSt) (k : Nat) : Nat :=
  (SMap.get x.limit k 0 + 65536 - SMap.get x.sent k 0) % 65536

/-- R554: of two messages the one the transmitter serves first: SVC, then RSP, then REQ and COL in turn, and within REQ LC
reads. -/
def sendRank (x : PortSt) (m : Msg) : Nat :=
  match m.cls with
  | 3 => 0
  | 1 => 1
  | 2 => if x.colTurn then 2 else 5
  | _ => if m.op = 1 ∧ m.rdClass = 0 then 3 else 4

/-- The messages that may go out: the oldest of each class and VC, with its credits (R564). -/
def canSend (p : Pkg) (i : Nat) (x : PortSt) : List Msg :=
  (x.queued.zipIdx.filter (fun y =>
    !((x.queued.take y.2).any (fun b => vcKey b == vcKey y.1)) &&
      decide (slotsOf p i y.1 ≤ x.credits (vcKey y.1)))).map (·.1)

def firstBy (f : Msg → Nat) (l : List Msg) : Option Msg :=
  match l with
  | [] => none
  | a :: t => some (t.foldl (fun b m => if f m < f b then m else b) a)

/-- The flits of one message: 3 slots each, the message listed in the last. -/
def flitsOf (seq n : Nat) (m : Msg) : List (Nat × List Msg) :=
  (List.range n).map (fun j => ((seq + j) % 65536, if j + 1 = n then [m] else []))

/-- One message leaves the port's queue in flits that the replay buffer of 2,048 keeps (R549, R550). -/
def sendOne (p : Pkg) (i : Nat) (m : Msg) : Pkg :=
  let x := port p i
  let s := slotsOf p i m
  let n := ceilDiv s 3
  let fl := flitsOf x.nextSeq n (onLink p i m)
  let p1 := setPort p i { x with
    queued := x.queued.erase m
    nextSeq := (x.nextSeq + n) % 65536
    replay := x.replay ++ fl
    sentAt := if x.replay.isEmpty then timerNow p else x.sentAt
    sent := SMap.set x.sent (vcKey m) ((SMap.get x.sent (vcKey m) 0 + s) % 65536)
    colTurn := if m.cls = 0 then true else if m.cls = 2 then false else x.colTurn }
  fl.foldl (fun q f => emitMsg q (.flit i f.1 f.2)) (addReg p1 (key (pgPl i) 0x128) n)

/-- Messages go out while credits, the replay buffer and the link allow. -/
def pump (fuel : Nat) (i : Nat) (p : Pkg) : Pkg :=
  match fuel with
  | 0 => p
  | n + 1 =>
    let x := port p i
    if x.trained then
      match firstBy (sendRank x) (canSend p i x) with
      | some m => if x.replay.length + ceilDiv (slotsOf p i m) 3 ≤ 2048 then pump n i (sendOne p i m) else p
      | none => p
    else p

def pumpAll (p : Pkg) (i : Nat) : Pkg := pump (port p i).queued.length i p

/-! ## Link failure (R560, R562) -/

/-- The state that a link's absence allows: DOWN without a cable, with DISABLE or with the lasers off; else training. -/
def untrained (p : Pkg) (i again : Nat) : Nat := if cable p i && !plDisabled p i && p.seq.lasers then again else stDown

/-- R560: the link goes down for a cause of the rule's list, 0 to 4; the record is logged and the port retrains while its
cable is present. -/
def linkDown (p : Pkg) (i cause : Nat) : Pkg :=
  let x := port p i
  let p1 := setPort p i { x with trained := false, tries := 0, downAt := if x.trained then some p.pace.datum else x.downAt }
  let p2 := logErr (bumpReg p1 (key (pgPl i) 0x14C) 1 0xFFFFFFFF) (pgPl i) ⟨0x61, 0, 0, 0, cause % 16⟩
  setPlState p2 i (untrained p2 i stRetraining)

def doLinkDown (i cause : Nat) (p : Pkg) : Pkg := if linkUp p i then linkDown p i cause else p
def execLinkDown (i cause : Nat) (s : State) : Out := .next (s.onPkg (doLinkDown i cause))

/-- R560: no flit for 10 µs. -/
def doFlitSilence (i : Nat) (p : Pkg) : Pkg :=
  if linkUp p i && decide ((port p i).lastRx + 10000 ≤ p.pace.datum) then linkDown p i 2 else p

def execFlitSilence (i : Nat) (s : State) : Out := .next (s.onPkg (doFlitSilence i))

/-- R562: messages of the replay buffer and of the queue return to the router with REPLAYED set. -/
def returnMessages (p : Pkg) (i : Nat) : Pkg :=
  let x := port p i
  let back := (x.replay.flatMap (·.2)).map (fun (m : Msg) => { m with replayed := true }) ++
    x.queued.map (fun (m : Msg) => { m with replayed := true })
  { setPort p i { x with replay := [], queued := [] } with rt :=
    { (setPort p i { x with replay := [], queued := [] }).rt with inject := p.rt.inject ++ back } }

/-- A port that has been down for 1 ms is unusable, and its messages are routed afresh. -/
def doPortUnusable (i : Nat) (p : Pkg) : Pkg :=
  match (port p i).downAt with
  | some t => if i < 6 ∧ linkUp p i = false ∧ t + 1000000 ≤ p.pace.datum then returnMessages p i else p
  | none => p

def execPortUnusable (i : Nat) (s : State) : Out := .next (s.onPkg (doPortUnusable i))

/-! ## Training (R543, R545) -/

/-- The lanes that pass in a direction: neither bad in the test nor out of use. -/
def goodLanes (p : Pkg) (i dir bad : Nat) : List Nat :=
  (List.range 9).filter (fun l => !(bad.testBit l) && !bit p (lanesKey i dir) (9 + l))

/-- The lanes of a direction after training: the eight lowest that passed carry data, a ninth is the hot spare. -/
def layLanes (p : Pkg) (i dir : Nat) (good : List Nat) : Pkg :=
  let k := lanesKey i dir
  let used := (good.take 8).foldl (fun n l => n + 2 ^ l) 0
  setFld (setFld p k 8 0 used) k 21 18 (good.getD 8 15)

/-- Link registers, sequence numbers and credits of a new link (R100, R545). -/
def freshLink (p : Pkg) (i node pport vmax common features rtt : Nat) : Pkg :=
  let x := port p i
  let p1 := setReg p (key (pgPl i) 0x108) (BitVec.ofNat 64 (2 ^ 31 + pport % 8 * 2 ^ 16 + node % 16384))
  let p2 := setReg p1 (key (pgPl i) 0x10C) (BitVec.ofNat 64 (features % 16 * 2 ^ 16 + vmax % 256 * 2 ^ 8 + common))
  let p3 := setReg p2 (key (pgPl i) 0x120) (BitVec.ofNat 64 (rtt % 2 ^ 32))
  setPort p3 i { x with
    trained := true, nextSeq := 0, expect := 0, replay := [], tries := 0, accepted := 0, sentAt := timerNow p
    queued := (x.replay.flatMap (·.2)).map (fun (m : Msg) => { m with replayed := true }) ++ x.queued
    rx := [], sent := [], freed := [], limit := (List.range 16).map (fun k => (k, slotDepth k))
    lastRx := p.pace.datum, downAt := none }

/-- R543, R545: training ends with the lanes that passed, the partner's CAP and the round trip. Fewer than 4 lanes in a
direction repeat it; versions without overlap end in INCOMPATIBLE. -/
def doPortTraining (i badTx badRx node pport vmax vmin features rtt : Nat) (p : Pkg) : Pkg :=
  let st := plState p i
  if decide (i < 6) && cable p i && !plDisabled p i && p.seq.lasers &&
      (st == 1 || st == stTraining || st == stRetraining) then
    let gt := goodLanes p i 0 badTx
    let gr := goodLanes p i 1 badRx
    if gt.length < 4 ∨ gr.length < 4 then setPlState p i stTraining
    else
      let p1 := emitMsg (syncWidths (layLanes (layLanes p i 0 gt) i 1 gr) i) (.cap i 1 1 0xF)
      let common := min 1 vmax
      if common < vmin ∨ common < 1 then setPlState p1 i stIncompatible
      else pumpAll (tryAdmit (setPlState (freshLink p1 i node pport vmax common features rtt) i stTrained) i) i
  else p

def execPortTraining (i badTx badRx node pport vmax vmin features rtt : Nat) (s : State) : Out :=
  .next (s.onPkg (doPortTraining i badTx badRx node pport vmax vmin features rtt))

/-! ## Flits, replay and credits (R549 to R552) -/

/-- An ACK_SEQ frees the flits that it covers. -/
def ackTo (p : Pkg) (i ack : Nat) : Pkg :=
  let x := port p i
  let rest := x.replay.filter (fun f => !decide ((ack + 65536 - f.1) % 65536 < 2048))
  if rest.length = x.replay.length then p
  else setPort p i { x with replay := rest, tries := 0, sentAt := timerNow p }

/-- R550: one replay, of every unacknowledged flit in order; the eighth consecutive one of a flit takes the link down
(R560). -/
def replayFlits (p : Pkg) (i : Nat) : Pkg :=
  let x := port p i
  if x.replay.isEmpty then p
  else
    let p1 := bumpReg (setPort p i { x with tries := x.tries + 1, sentAt := timerNow p }) (key (pgPl i) 0x138) 1 0xFFFFFFFF
    let p2 := x.replay.foldl (fun q f => emitMsg q (.flit i f.1 f.2)) p1
    if 8 ≤ x.tries + 1 then linkDown p2 i 1 else p2

/-- R98: a credit update within the depth of LIMIT replaces it; any other is discarded and counted. -/
def takeCredit (p : Pkg) (i k u : Nat) : Pkg :=
  let x := port p i
  let l := SMap.get x.limit k 0
  if (u % 65536 + 65536 - l) % 65536 ≤ slotDepth k then setPort p i { x with limit := SMap.set x.limit k (u % 65536) }
  else bumpReg p (key (pgPl i) 0x150) 1 0xFFFFFFFF

/-- A KIND 1 flit: the next expected SEQ is accepted; any other is discarded. -/
def takeFlit (p : Pkg) (i : Nat) (f : Flit) : Pkg :=
  let x := port p i
  if f.kind = 1 ∧ f.seq = x.expect then
    addReg (setPort p i { x with
      expect := (x.expect + 1) % 65536
      accepted := x.accepted + 1
      firstAt := if x.accepted = 0 then p.pace.datum else x.firstAt
      rx := x.rx ++ f.slots }) (key (pgPl i) 0x130) 1
  else p

/-- R549: a flit arrives. With a bad CRC it is discarded whole and answered by a NAK of the last good SEQ; of a good one
the header's acknowledgement and credit are used, and its messages where its SEQ is the next. -/
def doFlitReceive (i : Nat) (f : Flit) (good : Bool) (p : Pkg) : Pkg :=
  if linkUp p i then
    let x := port p i
    let p0 := setPort p i { x with lastRx := p.pace.datum }
    if !good then
      emitMsg (bumpReg p0 (key (pgPl i) 0x13C) 1 0xFFFFFFFF) (.ackNak i true ((x.expect + 65535) % 65536))
    else
      let p1 := if f.ackNak = 0 then p0 else ackTo p0 i f.ackSeq
      let p2 := if f.ackNak = 2 then replayFlits p1 i else p1
      let p3 := if f.crValid then takeCredit p2 i (f.crSel % 16) f.credit else p2
      pumpAll (if linkUp p3 i then takeFlit p3 i f else p3) i
  else p

def execFlitReceive (i : Nat) (f : Flit) (good : Bool) (s : State) : Out := .next (s.onPkg (doFlitReceive i f good))

def doNakReplay (i ack : Nat) (p : Pkg) : Pkg := if linkUp p i then replayFlits (ackTo p i ack) i else p
def execNakReplay (i ack : Nat) (s : State) : Out := .next (s.onPkg (doNakReplay i ack))

/-- R550: no ACK has covered the oldest flit for the round trip plus 2 µs. -/
def doReplayTimeout (i : Nat) (p : Pkg) : Pkg :=
  if linkUp p i && decide ((port p i).sentAt + regN p (key (pgPl i) 0x120) + 2000 ≤ timerNow p) then replayFlits p i else p

def execReplayTimeout (i : Nat) (s : State) : Out := .next (s.onPkg (doReplayTimeout i))

/-- R551: the ACK of the flits accepted so far. -/
def doAckSend (i : Nat) (p : Pkg) : Pkg :=
  let x := port p i
  if linkUp p i && decide (x.accepted ≠ 0) then
    emitMsg (setPort p i { x with accepted := 0 }) (.ackNak i false ((x.expect + 65535) % 65536))
  else p

def execAckSend (i : Nat) (s : State) : Out := .next (s.onPkg (doAckSend i))

/-- R552: a flit header carries a class and VC's cumulative update, FREED plus the depth (R97). -/
def doProiladCreditUpdate (i cls vc : Nat) (p : Pkg) : Pkg :=
  if linkUp p i && decide (cls < 4 ∧ vc < 4) then
    emitMsg p (.slotCredit i cls vc ((SMap.get (port p i).freed (4 * cls + vc) 0 + slotDepth (4 * cls + vc)) % 65536))
  else p

def execProiladCreditUpdate (i cls vc : Nat) (s : State) : Out := .next (s.onPkg (doProiladCreditUpdate i cls vc))

/-! ## Lanes (R556 to R559) -/

/-- A lane leaves service in a direction; below 4 lanes the link goes down. -/
def dropLane (p : Pkg) (i dir lane : Nat) : Pkg :=
  let k := lanesKey i dir
  let p1 := setBit p k lane false
  let p2 := if fld p k 21 18 = lane then setFld p1 k 21 18 15 else p1
  let p3 := raiseBlock (syncWidths p2 i) (pgPl i) 1
  if linkUp p3 i && decide (laneWidth p3 i dir < 4) then linkDown p3 i 0 else p3

/-- R556, R558: a lane loses lock or its FEC fails: striping drops it, the partner is told where this port receives on it,
LANE_LOCK is logged, and at THRESHOLD the surveyor requests its retirement. -/
def doLaneLockLoss (i dir lane : Nat) (p : Pkg) : Pkg :=
  if i < 6 ∧ dir < 2 ∧ lane < 9 ∧ (bit p (lanesKey i dir) lane = true ∨ fld p (lanesKey i dir) 21 18 = lane) then
    let e : ErrArgs := ⟨0x60, 0, 0, 0, lane + 16 * dir⟩
    let hit := thresholdHit p (pgPl i) e
    let p1 := logErr (if dir = 1 then emitMsg p (.laneDrop i lane) else p) (pgPl i) e
    let p2 := dropLane p1 i dir lane
    if hit then surveyorRequest p2 3 1 (2 * i + dir) lane else p2
  else p

def execLaneLockLoss (i dir lane : Nat) (s : State) : Out := .next (s.onPkg (doLaneLockLoss i dir lane))

/-- A LANE_DROP control flit: the sender stripes over the remaining lanes. -/
def doLaneDrop (i lane : Nat) (p : Pkg) : Pkg :=
  if linkUp p i && decide (lane < 9) && bit p (lanesKey i 0) lane then dropLane p i 0 lane else p

def execLaneDrop (i lane : Nat) (s : State) : Out := .next (s.onPkg (doLaneDrop i lane))

/-- A lane takes a logical position. -/
def addLane (p : Pkg) (i dir lane : Nat) : Pkg :=
  let k := lanesKey i dir
  let p1 := setBit p k lane true
  raiseBlock (syncWidths (if fld p k 21 18 = lane then setFld p1 k 21 18 15 else p1) i) (pgPl i) 1

/-- Whether the link adds lanes without retraining (feature LANE_ADD, R545). -/
def laneAddOn (p : Pkg) (i : Nat) : Bool := bit p (key (pgPl i) 0x10C) 19

/-- R556: at the agreed flit boundary the spare or a relocked lane takes a position below width 8. -/
def doLaneAdd (i dir lane : Nat) (p : Pkg) : Pkg :=
  if linkUp p i && decide (dir < 2 ∧ lane < 9) && laneAddOn p i && decide (laneWidth p i dir < 8) &&
      !bit p (lanesKey i dir) lane && !bit p (lanesKey i dir) (9 + lane) then
    addLane p i dir lane
  else p

def execLaneAdd (i dir lane : Nat) (s : State) : Out := .next (s.onPkg (doLaneAdd i dir lane))

/-- R557: a lane that locks again is added by LANE_ADD below width 8, else it is the new hot spare. -/
def doLaneRelock (i dir lane : Nat) (p : Pkg) : Pkg :=
  let k := lanesKey i dir
  if linkUp p i && decide (dir < 2 ∧ lane < 9) && !bit p k lane && !bit p k (9 + lane) then
    if laneWidth p i dir < 8 then
      if laneAddOn p i then addLane (emitMsg p (.laneAdd i dir lane)) i dir lane else p
    else raiseBlock (syncWidths (setFld p k 21 18 lane) i) (pgPl i) 1
  else p

def execLaneRelock (i dir lane : Nat) (s : State) : Out := .next (s.onPkg (doLaneRelock i dir lane))

/-! ## The operator's drain (R567 to R572) -/

/-- A port usable for newly routed messages: ADMITTED, or down for less than 1 ms (R561). -/
def usable (p : Pkg) (i : Nat) : Bool :=
  decide (i < 6) && (plState p i == stAdmitted ||
    (match (port p i).downAt with
     | some t => !(port p i).trained && decide (p.pace.datum < t + 1000000)
     | none => false))

/-- The ports of a bearing entry in order (Table 16-16). -/
def entryPorts (e : Nat) : List Nat := [e % 8, e / 8 % 8, e / 64 % 8]

/-- R568: whether a port's drain would leave some bearing entry with no usable port. -/
def lastPort (p : Pkg) (i : Nat) : Bool :=
  p.rt.bearing.any (fun x => (entryPorts x.2).any (· == i) && !((entryPorts x.2).any (fun j => j != i && usable p j)))

def enterDrain (p : Pkg) (i : Nat) (answered : Bool) : Pkg :=
  let p1 := setPlState p i stDraining
  emitMsg (setPort p1 i { port p1 i with drainAt := p.pace.datum, answered := answered }) (.drainFlit i)

/-- A press (R567 to R569): drains an ADMITTED port or is refused; a TRAINING or TRAINED port is DRAINED at once. -/
def press (p : Pkg) (i : Nat) : Pkg :=
  let st := plState p i
  let p0 := raiseBlock p (pgPl i) 2
  if st = stAdmitted then
    if lastPort p i then
      let p1 := setFld p0 (plStatus i) 23 22 3
      logErr (setPort p1 i { port p1 i with flashEnd := some (p.pace.datum + 5000000000) }) pgRt ⟨0x62, 0, 0, 0, i⟩
    else enterDrain p0 i false
  else if st = stTraining ∨ st = stTrained then setPlState p0 i stDrained
  else p0

/-- A recognised press of a port's button; while SGPIO_FAULT is set every button reads released (R715). -/
def doPortButtonPress (i : Nat) (p : Pkg) : Pkg := if i < 6 ∧ bit p (key pgOps 0x100) 31 = false then press p i else p
def execPortButtonPress (i : Nat) (s : State) : Out := .next (s.onPkg (doPortButtonPress i))

/-- The partner's DRAIN control flit: this port drains too and answers, or takes it as the answer to its own. -/
def doDrain (i : Nat) (p : Pkg) : Pkg :=
  if i < 6 then
    if plState p i = stAdmitted then enterDrain p i true
    else if plState p i = stDraining then setPort p i { port p i with answered := true }
    else p
  else p

def execDrain (i : Nat) (s : State) : Out := .next (s.onPkg (doDrain i))

/-- R567 step 2: the DRAIN control flit is repeated every 10 µs until answered. -/
def doDrainFlitRepeat (i : Nat) (p : Pkg) : Pkg :=
  if i < 6 ∧ plState p i = stDraining ∧ (port p i).answered = false then emitMsg p (.drainFlit i) else p

def execDrainFlitRepeat (i : Nat) (s : State) : Out := .next (s.onPkg (doDrainFlitRepeat i))

/-- R567 step 4: queues empty, every flit acknowledged, the partner's answer, and 500 ms past. -/
def doPortDrained (i : Nat) (p : Pkg) : Pkg :=
  let x := port p i
  if i < 6 ∧ plState p i = stDraining ∧ x.queued = [] ∧ x.replay = [] ∧ x.answered = true ∧
      x.drainAt + 500000000 ≤ p.pace.datum then setPlState p i stDrained
  else p

def execPortDrained (i : Nat) (s : State) : Out := .next (s.onPkg (doPortDrained i))

/-- At 2 s messages still queued return to the router (R562) and the port is DRAINED. -/
def doDrainTimeout (i : Nat) (p : Pkg) : Pkg :=
  if i < 6 ∧ plState p i = stDraining ∧ (port p i).drainAt + 2000000000 ≤ p.pace.datum then
    setPlState (returnMessages p i) i stDrained
  else p

def execDrainTimeout (i : Nat) (s : State) : Out := .next (s.onPkg (doDrainTimeout i))

/-- A drain ends: the port is admitted again where its link is trained and its partner matches, else it takes the state
that its link allows (R570). -/
def undrain (p : Pkg) (i : Nat) : Pkg :=
  if (port p i).trained then tryAdmit (setPlState p i stTrained) i else setPlState p i (untrained p i stTraining)

def draining (p : Pkg) (i : Nat) : Bool := decide (i < 6) && (plState p i == stDraining || plState p i == stDrained)

/-- R570: the 5 s hold cancels the drain and tells the partner. -/
def cancelDrain (p : Pkg) (i : Nat) : Pkg := if draining p i then undrain (emitMsg p (.drainCancel i)) i else p

def execDrainCancel (i : Nat) (s : State) : Out := .next (s.onPkg (fun p => cancelDrain p i))

def doDrainCancelFlit (i : Nat) (p : Pkg) : Pkg := if draining p i then undrain p i else p
def execDrainCancelFlit (i : Nat) (s : State) : Out := .next (s.onPkg (doDrainCancelFlit i))

/-- R568: the lamp shows the ADMITTED state again 5 s after the refusal. -/
def doDrainRefusedFlashEnd (i : Nat) (p : Pkg) : Pkg :=
  match (port p i).flashEnd with
  | some t =>
    if i < 6 ∧ t ≤ p.pace.datum then
      setPort (setFld p (plStatus i) 23 22 (lamps (plState p i)).2) i { port p i with flashEnd := none }
    else p
  | none => p

def execDrainRefusedFlashEnd (i : Nat) (s : State) : Out := .next (s.onPkg (doDrainRefusedFlashEnd i))

/-- A write of PL_CONTROL (R560, R572): DRAIN acts as a press, CANCEL as a 5-second hold; setting DISABLE takes the link
down and clearing it lets the port train. -/
def putPlControl (i : Nat) (value : W64) (p : Pkg) : Pkg :=
  let was := plDisabled p i
  let p1 := setBit p (key (pgPl i) 0x104) 2 (bitOf value 2)
  let p2 := if bitOf value 0 then press p1 i else p1
  let p3 := if bitOf value 1 then cancelDrain p2 i else p2
  if bitOf value 2 && !was then
    if linkUp p3 i then linkDown p3 i 4 else setPlState p3 i stDown
  else if was && !bitOf value 2 then setPlState p3 i (untrained p3 i stTraining)
  else p3

def doPlControl (rq : Requester) (i : Nat) (value : W32) (p : Pkg) : Pkg :=
  if i < 6 then ifWrites p rq (pgPl i) 0x104 (putPlControl i (value.setWidth 64)) else p

def execPlControlDrain (rq : Requester) (i : Nat) (value : W32) (s : State) : Out :=
  .next (s.onPkg (doPlControl rq i value))
def execPlControlCancel (rq : Requester) (i : Nat) (value : W32) (s : State) : Out :=
  .next (s.onPkg (doPlControl rq i value))
def execPlControlDisable (rq : Requester) (i : Nat) (value : W32) (s : State) : Out :=
  .next (s.onPkg (doPlControl rq i value))

/-- OPS_STATUS.CABLE of a port takes a value; a change sets BLOCK bit 2 (R729). -/
def opsCable (p : Pkg) (i : Nat) (b : Bool) : Pkg :=
  if bit p (key pgOps 0x100) (16 + i) = b then p else raiseBlock (setBit p (key pgOps 0x100) (16 + i) b) pgOps 2

/-- R571: the cable input falls: DOWN and both lamps off; out of DRAINED only a waypoint, else a link failure. -/
def cableOut (p : Pkg) (i : Nat) : Pkg :=
  if cable p i then
    let st := plState p i
    let p1 := setBit p (plStatus i) 27 false
    if st = stDown then setPlState p1 i stDown
    else if st = stDrained then setPlState (setPort p1 i { port p1 i with trained := false, downAt := none }) i stDown
    else linkDown p1 i 3
  else p

def doCableRemoved (i : Nat) (p : Pkg) : Pkg := if i < 6 then cableOut (opsCable p i false) i else p
def execCableRemoved (i : Nat) (s : State) : Out := .next (s.onPkg (doCableRemoved i))

/-- Whether the package is in safe hold or at QUIESCED, where the ports stay DOWN (R609, R665). -/
def pwrHeld (p : Pkg) : Bool :=
  decide (1 ≤ fld p (key pgPwr 0x100) 31 28) || decide (fld p (key pgSv 0x100) 31 28 = 4)

/-- The lasers come on: every port with a cable and without DISABLE trains (R543, R613, R665). -/
def portsLight (p : Pkg) : Pkg :=
  (List.range 6).foldl (fun q i =>
    if plState q i ≤ 1 ∧ cable q i = true ∧ plDisabled q i = false then setPlState q i stTraining else q)
    { p with seq := { p.seq with lasers := true } }

/-- R571: the cable input rises, and training starts by itself; before climbing step 6 the port waits in WAIT_PARTNER
(Table 19-5). -/
def cableIn (p : Pkg) (i : Nat) : Pkg :=
  if cable p i then p
  else
    let p1 := setBit p (plStatus i) 27 true
    setPlState p1 i (if !plDisabled p1 i && !p.seq.lasers && pwrHeld p = false then 1 else untrained p1 i stTraining)

def doCableInserted (i : Nat) (p : Pkg) : Pkg := if i < 6 then cableIn (opsCable p i true) i else p
def execCableInserted (i : Nat) (s : State) : Out := .next (s.onPkg (doCableInserted i))

end Sys2Proof.Machine
end

