-- ==== Sys2Proof/Machine/Router.lean ====
section
/-! DEFINITION. The router (spec/16 R538 to R540, R555, R561 to R565, R575, R583): node IDs, bearing entries, routing of
messages, undeliverable messages, and the group table. -/

namespace Sys2Proof.Machine

/-! ## The torus (R538, R539) -/

def nodeX (n : Nat) : Nat := n % 16
def nodeY (n : Nat) : Nat := n / 16 % 16
def nodeZ (n : Nat) : Nat := n / 256 % 64

/-- Whether port i of this node leads over a wrap link (Table 16-1). -/
def wrapLink (p : Pkg) (i : Nat) : Bool :=
  let s := key pgRt 0x108
  let n := thisNode p
  match i with
  | 0 => nodeX n == fld p s 3 0
  | 1 => nodeX n == 0
  | 2 => nodeY n == fld p s 7 4
  | 3 => nodeY n == 0
  | 4 => nodeZ n == fld p s 13 8
  | _ => nodeZ n == 0

/-! ## Routing (R555, R561) -/

/-- R555: the VC on which a message leaves by a port: `alt` says that it leaves by ALT1 or ALT2; it came in by port `inPort`,
6 or more for this node. -/
def nextVc (p : Pkg) (inPort out : Nat) (alt : Bool) (vc : Nat) : Nat :=
  let low := if vc < 2 ∧ alt = false then 0 else 2
  let keep := if low = 2 ∧ vc < 2 then 2 else vc
  if wrapLink p out then low + 1
  else if inPort < 6 ∧ inPort / 2 ≠ out / 2 then low
  else keep

/-- The port that a bearing entry gives: PRIMARY, else ALT1, else ALT2, the first that is usable, and whether it is an
alternate. -/
def pickPort (p : Pkg) (e : Nat) : Option (Nat × Bool) :=
  match (entryPorts e).zipIdx.find? (fun x => usable p x.1) with
  | some x => some (x.1, decide (x.2 ≠ 0))
  | none => none

/-- A report record (Table 14-4) as the payload of an SVC_WR. -/
def reportItem (p : Pkg) (cause window offset tag : Nat) : Item :=
  BitVec.ofNat 512 (1 + 2 ^ 8 * cause + 2 ^ 16 * thisNode p + 2 ^ 32 * window + 2 ^ 64 * offset + 2 ^ 128 * tag +
    2 ^ 192 * p.pace.datum)

/-- An SVC_WR to a node's mailbox, window 0. -/
def svcMsg (p : Pkg) (dest : Nat) (item : Item) : Msg :=
  { op := 8, cls := 3, vc := 0, rdClass := 0, replayed := false, poison := false, dest := dest, src := thisNode p,
    hops := 64, arg := 0, window := 0, offset := dest % 16384 * 2 ^ 22, tag := 0, payload := item, recs := [] }

/-- This node sends a message: it waits for the router. -/
def injectMsg (p : Pkg) (m : Msg) : Pkg := { p with rt := { p.rt with inject := p.rt.inject ++ [m] } }

/-- R495: a failure is reported to the node that asked. -/
def sendReport (p : Pkg) (dest cause window offset tag : Nat) : Pkg :=
  injectMsg p (svcMsg p dest (reportItem p cause window offset tag))

/-- R561, R495: an undeliverable message is discarded and counted; its source gets a report with cause 9, unless the message
is itself such a report, which is counted in RT_REPORT_LOST. -/
def undeliverable (p : Pkg) (m : Msg) : Pkg :=
  let p1 := raiseBlock (bumpReg p (key pgRt 0x10C) 1 0xFFFFFFFF) pgRt 0
  if m.op = 8 ∧ bitsOf m.payload 7 0 = 1 then bumpReg p1 (key pgRt 0x100) 1 0xFFFFFFFF
  else sendReport p1 m.src 9 m.window m.offset m.tag

/-- Where the router sends a message (R540, R561): delivered here, into the queue of a port, or discarded. -/
def routeOn (p : Pkg) (inPort : Nat) (m : Msg) : Pkg :=
  if m.dest = thisNode p then { p with rt := { p.rt with arrived := p.rt.arrived ++ [m] } }
  else
    match pickPort p (SMap.get p.rt.bearing m.dest 0x1FF) with
    | none => undeliverable p m
    | some (i, alt) =>
      if m.hops = 0 then undeliverable p m
      else
        let m1 : Msg := { m with hops := m.hops - 1, vc := nextVc p inPort i alt m.vc }
        pumpAll (setPort p i { port p i with queued := (port p i).queued ++ [m1] }) i

/-- The router takes a received message off its port, whose slots become free (R552). -/
def takeRx (p : Pkg) (i : Nat) (m : Msg) : Pkg :=
  let x := port p i
  let k := vcKey m
  setPort p i { x with
    rx := x.rx.erase m
    freed := SMap.set x.freed k ((SMap.get x.freed k 0 + slotsOf p i m) % 65536) }

/-- The oldest received message of a message's class and VC (R564). -/
def nextRx (x : PortSt) (m : Msg) : Bool := x.rx.find? (fun y => vcKey y == vcKey m) == some m

/-- R561: the router routes the next message of a class and VC that has come in by a port, or a message of this node. -/
def doRouteMessage (inPort : Nat) (m : Msg) (p : Pkg) : Pkg :=
  if inPort < 6 then if nextRx (port p inPort) m then routeOn (takeRx p inPort m) inPort m else p
  else if p.rt.inject.contains m then routeOn { p with rt := { p.rt with inject := p.rt.inject.erase m } } 6 m
  else p

def execRouteMessage (inPort : Nat) (m : Msg) (s : State) : Out := .next (s.onPkg (doRouteMessage inPort m))

/-! ## Registers (Table 16-15) -/

/-- R565: RT_BEARING_DATA replaces the indexed entry whole, and RT_BEARING_INDEX steps. -/
def putBearing (value : W64) (p : Pkg) : Pkg :=
  let k := key pgRt 0x110
  let i := fld p k 13 0
  setFld { p with rt := { p.rt with bearing := SMap.set p.rt.bearing i (bitsOf value 8 0) } } k 13 0 (i + 1)

def doBearingWrite (rq : Requester) (value : W32) (p : Pkg) : Pkg :=
  ifWrites p rq pgRt 0x114 (putBearing (value.setWidth 64))

def execBearingWrite (rq : Requester) (value : W32) (s : State) : Out := .next (s.onPkg (doBearingWrite rq value))

/-- R540: RT_NODE_ID is written once after package power-up; the router may then admit ports. -/
def putNodeId (value : W64) (p : Pkg) : Pkg :=
  if p.rt.nodeLocked then p
  else
    let p1 := { setReg p (key pgRt 0x104) (BitVec.ofNat 64 (bitsOf value 13 0)) with rt := { p.rt with nodeLocked := true } }
    (List.range 6).foldl tryAdmit p1

def doNodeIdWrite (rq : Requester) (value : W32) (p : Pkg) : Pkg :=
  ifWrites p rq pgRt 0x104 (putNodeId (value.setWidth 64))

def execNodeIdWrite (rq : Requester) (value : W32) (s : State) : Out := .next (s.onPkg (doNodeIdWrite rq value))

/-- A write of RT_NEIGHBOURp; a TRAINED port that it names is admitted (R566). -/
def putNeighbour (i : Nat) (value : W64) (p : Pkg) : Pkg :=
  let k := key pgRt (0x118 + 4 * i)
  tryAdmit (setReg p k (mergeWrite (rw4 0x118 (msk 31 31 + msk 18 16 + msk 13 0)) (reg p k) value)) i

/-- Whether a collective of a group is in its ring phase. -/
def groupBusy (p : Pkg) (g : Nat) : Bool :=
  p.qm.cmds.any (fun x => x.2.collPhase == 2 && dField x.2.desc 42 2 == g)

/-- The page offset of a word of a group entry, and its page. -/
def groupPage (g : Nat) : Nat := pgRt + 6 + g / 240
def groupOff (g word : Nat) : Nat := 0x100 + 16 * (g % 240) + 8 * (word % 2)

/-- R583: a write of a group entry, discarded while its collective is in its ring phase. -/
def putGroup (g word : Nat) (value : W64) (p : Pkg) : Pkg :=
  if groupBusy p g then p
  else
    let k := key (groupPage g) (groupOff g word)
    let m := if word % 2 = 0 then msk 63 63 + msk 61 48 + msk 45 32 + msk 29 16 + msk 13 0 else msk 25 16 + msk 9 0
    setReg p k (mergeWrite (rw8 0x100 m) (reg p k) value)

def doGroupEntryWrite (rq : Requester) (g word : Nat) (value : W64) (p : Pkg) : Pkg :=
  if g < 256 then ifWrites p rq (groupPage g) (groupOff g word) (putGroup g word value) else p

def execGroupEntryWrite (rq : Requester) (g word : Nat) (value : W64) (s : State) : Out :=
  .next (s.onPkg (doGroupEntryWrite rq g word value))

end Sys2Proof.Machine
end

