-- ==== Sys2Proof/Machine/Collective.lean ====
section
/-! DEFINITION. The ring phase of a collective REDUCE in the router's collective unit (spec/16 R574 to R579). A command in its
ring phase has `collPhase` 2; `collStep` counts its steps, `progress` the records sent of the present step, and `remoteLeft`
is 1 once the unit has taken it. -/

namespace Sys2Proof.Machine

def collId (c : Cmd) : Nat := dField c.desc 44 1 % 16

/-- WINDOWb of a collective's group entry, b being COLLECTIVE_ID bit 0. -/
def collWindow (p : Pkg) (c : Cmd) : Nat :=
  let k := groupKey (reduceGroup c.desc) 1
  if collId c % 2 = 1 then fld p k 25 16 else fld p k 9 0

def collNext (p : Pkg) (c : Cmd) : Nat := fld p (groupKey (reduceGroup c.desc) 0) 29 16
def collPrev (p : Pkg) (c : Cmd) : Nat := fld p (groupKey (reduceGroup c.desc) 0) 13 0

/-- The steps of a ring phase: P − 1 sends, the rank's own sum, and under ALL_REDUCE P − 1 sends more. -/
def ringSteps (size algo : Nat) : Nat := size - 1 + 1 + (if algo = 1 then size - 1 else 0)

/-- One step: the segment it works on, the sources it sums, and the STEP it sends as; none for the rank's own sum. -/
def ringStep (size rank t : Nat) : Nat × List Nat × Option Nat :=
  if t < size - 1 then ((rank + size - t % size) % size, [3, 4], some t)
  else if t = size - 1 then ((rank + 1) % size, [3, 4], none)
  else ((rank + 1 + size - (t - size) % size) % size, [4], some (t - 1))

/-- The STEP and segment from PREV that must have landed before a step; none for the first sends. -/
def ringAwaits (size rank t : Nat) : Option (Nat × Nat) :=
  if t = 0 ∨ t = size then none
  else if t < size then some (t - 1, (rank + size - t % size) % size)
  else some (t - 2, (rank + 1 + size - (t - size) % size) % size)

/-- Where arrivals of a collective are counted: the landing region, the source, COLLECTIVE_ID and STEP. -/
def colKey (base src cid step : Nat) : Nat := ((base / 2 ^ 21 * 2 ^ 14 + src % 2 ^ 14) * 16 + cid % 16) * 2 ^ 15 + step

/-- The physical address of a collective's staging region. -/
def stagingBase (c : Cmd) : Nat :=
  let va := (dOperand c.desc 4).addr
  match cmdXlate c 4 va with
  | some x => x.addr va
  | none => 0

def stepLanded (p : Pkg) (c : Cmd) (size step seg : Nat) : Bool :=
  decide ((segment (reduceRecords c.desc) seg size).2 ≤
    SMap.get p.rt.colSeen (colKey (stagingBase c) (collPrev p c) (collId c) step) 0)

/-- The exact sums of `n` records from j on, at their points of visibility; none while a home waits, with the operand of a
poisoned source. -/
def collRecs (p : Pkg) (m : Memory) (c : Cmd) (srcs : List Nat) (j n : Nat) : Option (List Rec × Option Nat) × Pkg :=
  match n with
  | 0 => (some ([], none), p)
  | k + 1 =>
    match sumRecords p m c false srcs j with
    | (none, q) => (none, q)
    | (some (e, bad), q) =>
      match collRecs q m c srcs (j + 1) k with
      | (none, r) => (none, r)
      | (some (l, b), r) => (some (elemRec e :: l, if bad.isSome then bad else b), r)

/-- A COL_HEAD message of a step (Table 16-5), its records in short form where SHORT_OK offers it and they fit. -/
def colMsg (p : Pkg) (c : Cmd) (add : Bool) (step j : Nat) (recs : List Rec) : Msg :=
  let d := reg p (windowKey (collWindow p c))
  { op := 7, cls := 2, vc := 0, rdClass := 0, replayed := false, poison := false, dest := bitsOf d 13 0, src := thisNode p,
    hops := 64, arg := if add then 0 else 1, window := bitsOf d 25 16, offset := 80 * j, tag := 0,
    payload := BitVec.ofNat 512 (recs.length + 2 ^ 16 * step + 2 ^ 32 * collId c)
    recs := recs.map (carryRec (dField c.desc 41 1 % 2 == 1)) }

/-- The collective ends with a status; what has landed for it is forgotten. -/
def ringForget (p : Pkg) (c : Cmd) : Pkg :=
  let k0 := colKey (stagingBase c) (collPrev p c) (collId c) 0
  { p with rt := { p.rt with colSeen := SMap.drop p.rt.colSeen (fun k => k / 2 ^ 15 == k0 / 2 ^ 15) } }

def ringFails (p : Pkg) (id status detail : Nat) : Pkg := finishCmd (ringForget p (cmd p id)) id status detail

/-- Messages of at most 256 records of a step go out while NEXT has room for requests (R563). -/
def sendStep (fuel id : Nat) (m : Memory) (p : Pkg) : Pkg :=
  match fuel with
  | 0 => p
  | f + 1 =>
    let c := cmd p id
    let size := groupSize p (reduceGroup c.desc)
    let (seg, srcs, step) := ringStep size (groupRank p (reduceGroup c.desc)) c.collStep
    let (first, count) := segment (reduceRecords c.desc) seg size
    match step with
    | none => p
    | some st =>
      if count ≤ c.progress then
        setCmd p id { c with collStep := c.collStep + 1, progress := 0, waitSince := timerNow p }
      else if 1024 ≤ remoteCount p (collNext p c) then p
      else
        let k := min 256 (count - c.progress)
        let j := first + c.progress
        match collRecs p m c srcs j k with
        | (none, q) => q
        | (some (_, some bad), q) => ringFails q id 0x10 bad
        | (some (recs, none), q) =>
          let q1 := remotePut q (.step id) (colMsg q c (srcs.length == 2) st j recs) (collWindow q c) 0 0 (64 * c.ctx + c.ring)
          sendStep f id m (setCmd q1 id { c with progress := c.progress + k })

/-- The physical address of a 16-byte piece of an operand. -/
def pieceAddr (c : Cmd) (i va : Nat) : Option Nat := leafAddr ((c.pages.filter (fun x => x.1 == i)).map (·.2)) va

/-- A record written in five 16-byte pieces at its home; a piece at an address without memory is a decode error of the collective
unit (R38). -/
def storePieces (p : Pkg) (m : Memory) (c : Cmd) (va v : Nat) (n : Nat) : Pkg × Memory :=
  match n with
  | 0 => (p, m)
  | k + 1 =>
    match pieceAddr c 4 va with
    | some pa =>
      if fate p pa = .served then
        storePieces (homeWrite p pa false (idRing c.ctx c.ring)) (m.write pa 16 v) c (va + 16) (v / 2 ^ 128) k
      else storePieces (if fate p pa = .decode then decodeError p pgRt pa else p) m c (va + 16) (v / 2 ^ 128) k
    | none => storePieces p m c (va + 16) (v / 2 ^ 128) k

def storeRecs (p : Pkg) (m : Memory) (c : Cmd) (j : Nat) (l : List Rec) : Pkg × Memory :=
  match l with
  | [] => (p, m)
  | r :: t =>
    let (q, m1) := storePieces p m c ((dOperand c.desc 4).addr + 80 * j) r.toNat 5
    storeRecs q m1 c (j + 1) t

/-- Lines of staging records that the host holds must be called back first (R465). -/
def stagingHeld (p : Pkg) (c : Cmd) (first count : Nat) : List Nat :=
  (List.range (5 * count)).filterMap (fun i =>
    match pieceAddr c 4 ((dOperand c.desc 4).addr + 80 * first + 16 * i) with
    | some pa => if hostHolds p pa then some (pa / 64) else none
    | none => none)

/-- The rank writes its own segment's sum into its staging region (R577). -/
def ownSum (id : Nat) (s : State) : State :=
  let p := s.pkg
  let c := cmd p id
  let size := groupSize p (reduceGroup c.desc)
  let (seg, srcs, _) := ringStep size (groupRank p (reduceGroup c.desc)) c.collStep
  let (first, count) := segment (reduceRecords c.desc) seg size
  let held := stagingHeld p c first count
  if held.isEmpty then
    match collRecs p s.mem c srcs first count with
    | (none, q) => { s with pkg := q }
    | (some (_, some bad), q) => { s with pkg := ringFails q id 0x10 bad }
    | (some (recs, none), q) =>
      let (q1, m1) := storeRecs q s.mem c first recs
      { s with mem := m1
               pkg := setCmd q1 id { c with collStep := c.collStep + 1, progress := 0, waitSince := timerNow p } }
  else { s with pkg := held.foldl (fun q l => biStart q l true none) p }

def inRing (p : Pkg) (id : Nat) : Bool := hasCmd p id && (cmd p id).collPhase == 2 && (cmd p id).phase == .running

/-- The collective unit runs at most 8 ring phases at once; others wait (R577). -/
def ringTaken (p : Pkg) (id : Nat) : Bool :=
  (cmd p id).remoteLeft == 1 ||
    decide ((p.qm.cmds.filter (fun x => x.2.collPhase == 2 && x.2.remoteLeft == 1)).length < 8)

/-- R577: the next step of a ring phase, once PREV's step that it builds on has landed. The window is checked as each step
is sent (R488). -/
def execColStepSend (id : Nat) (s : State) : Out :=
  let p := s.pkg
  let c := cmd p id
  let g := reduceGroup c.desc
  let size := groupSize p g
  if inRing p id && ringTaken p id && decide (c.collStep < ringSteps size (reduceAlgo c.desc)) then
    let p1 := if c.remoteLeft = 1 then p else setCmd p id { c with remoteLeft := 1, waitSince := timerNow p }
    let go := match ringAwaits size (groupRank p g) c.collStep with
      | some (st, seg) => stepLanded p c size st seg
      | none => true
    if !go then .next { s with pkg := p1 }
    else
      match (ringStep size (groupRank p g) c.collStep).2.2 with
      | none => .next (ownSum id { s with pkg := p1 })
      | some st =>
        match senderCheck p1 (collWindow p c) (if st < size - 1 then 2 else 1) (some c.ctx) with
        | some cause => .next { s with pkg := windowFault (ringForget p1 c) id 0 cause (collWindow p c) 0 }
        | none => .next { s with pkg := sendStep (reduceRecords c.desc / 256 + 2) id s.mem p1 }
  else .next s

/-- Whether every expected arrival of a ring phase has landed: the last of the all-gather; the reduce-scatter's were awaited
by the rank's own sum. -/
def ringArrived (p : Pkg) (c : Cmd) : Bool :=
  let size := groupSize p (reduceGroup c.desc)
  if reduceAlgo c.desc = 1 ∧ 2 ≤ size then
    stepLanded p c size (2 * size - 3) ((groupRank p (reduceGroup c.desc) + 2) % size)
  else true

/-- R577: every arrival has landed and every send is acknowledged; the command waits for a CE for its final phase. -/
def doRingPhaseEnd (id : Nat) (p : Pkg) : Pkg :=
  let c := cmd p id
  if inRing p id && decide (ringSteps (groupSize p (reduceGroup c.desc)) (reduceAlgo c.desc) ≤ c.collStep) &&
      ringArrived p c && (remotesOf p (fun r => r == .step id)).isEmpty then
    setCmd (ringForget p c) id { c with phase := .waiting, requeued := true, collPhase := 3, progress := 0, remoteLeft := 0 }
  else p

def execRingPhaseEnd (id : Nat) (s : State) : Out := .next (s.onPkg (doRingPhaseEnd id))

/-- A ring phase that the unit has taken waits for an arrival: of the step before its next one, or the last one of all. -/
def awaitsArrival (p : Pkg) (c : Cmd) : Bool :=
  let g := reduceGroup c.desc
  let size := groupSize p g
  c.remoteLeft == 1 &&
    (if c.collStep < ringSteps size (reduceAlgo c.desc) then
      match ringAwaits size (groupRank p g) c.collStep with
      | some (st, seg) => !stepLanded p c size st seg
      | none => false
    else !ringArrived p c)

/-- R579: a ring phase that has waited 1 s for an arrival completes WINDOW_FAULT with its window. -/
def doRingPhaseTimeout (id : Nat) (p : Pkg) : Pkg :=
  let c := cmd p id
  if inRing p id && awaitsArrival p c && decide (c.waitSince + 1000000000 ≤ timerNow p) then ringFails p id 0x21 (collWindow p c * 16) else p

def execRingPhaseTimeout (id : Nat) (s : State) : Out := .next (s.onPkg (doRingPhaseTimeout id))

end Sys2Proof.Machine
end

