-- ==== Sys2Proof/Machine/Cluster.lean ====
section
/-! DEFINITION. The core cluster pages (spec/12 R429 to R433, R441, R442): hart control, interrupt messages, and the
APLIC with the register set of AIA 1.0 for one supervisor-level domain of 31 sources. -/

namespace Sys2Proof.Machine

/-! ## Hart control -/

/-- The register and field that show a hart's state (Table 12-8): 0 HELD, 1 RUNNING, 2 WFI, 3 FAILED. -/
def hartStateKey (h : Nat) : Nat := key (pgCc (h / 4)) 0x100
def hartState (p : Pkg) (h : Nat) : Nat := fld p (hartStateKey h) (8 * (h % 4) + 1) (8 * (h % 4))
/-- A hart's state takes a value; a change sets BLOCK bit 0 of its cluster (Table 22-5). -/
def setHartState (p : Pkg) (h n : Nat) : Pkg :=
  if hartState p h = n then p
  else raiseBlock (setFld p (hartStateKey h) (8 * (h % 4) + 1) (8 * (h % 4)) n) (pgCc (h / 4)) 0

/-- Whether safe hold stops the harts (R609): PWR_STATUS.STATE is ENTERING_HOLD or SAFE_HOLD. -/
def inHold (p : Pkg) : Bool := let s := fld p (key pgPwr 0x100) 31 28; s == 1 || s == 2

/-- A hart that executes: RUNNING, not stopping for a HOLD, and not stopped by safe hold. -/
def hartRuns (p : Pkg) (h : Nat) : Bool := decide (h < 48) && hartState p h == 1 && !(hart p h).holding && !inHold p

/-- R438 step 5: the start of a hart: pc, M-mode, a0 and a1; satp, hgatp, mie, mstatus.MIE and every PMP entry off. -/
def startHart (p : Pkg) (h entry : Nat) (arg : W64) : Pkg :=
  let x := hart p h
  let csr := [0x180, 0x304, 0x3A0, 0x3A2, 0x680].foldl (fun (m : SMap W64) c => SMap.set m c 0) x.csr
  let y : Hart := { x with
    pc := entry
    mMode := true
    x := SMap.set (SMap.set x.x 10 (BitVec.ofNat 64 h)) 11 arg
    csr := SMap.set csr 0x300 (withBits (SMap.get csr 0x300 0) 3 3 0)
    fencing := false
    holding := false
    starting := false }
  setHartState (setHart p h y) h 1

/-- START of a held hart at CC_HART_ENTRY with a1 = CC_HART_ARG (R442). -/
def startFromRegs (p : Pkg) (h : Nat) : Pkg :=
  startHart p h (fld p (key (pgCc (h / 4) + 1) 0x108) 51 2 * 4) (reg p (key (pgCc (h / 4) + 1) 0x110))

/-- One hart's code of CC_HART_CONTROL: HOLD stops a running hart, whose reservation is lost; START starts a held one, or
waits for HELD while a HOLD is in progress (R441 to R443). -/
def hartCode (p : Pkg) (h code : Nat) : Pkg :=
  let x := hart p h
  if code = 1 then
    if (hartState p h = 1 ∨ hartState p h = 2) ∧ x.holding = false then
      setHart p h { x with holding := true, resv := none }
    else p
  else if code = 2 then
    if x.holding then setHart p h { x with starting := true }
    else if hartState p h = 0 then startFromRegs p h
    else p
  else p

def putHartControl (cluster : Nat) (value : W64) (p : Pkg) : Pkg :=
  (List.range 4).foldl (fun q j => hartCode q (4 * cluster + j) (bitsOf value (8 * j + 1) (8 * j))) p

def doHartControl (rq : Requester) (cluster : Nat) (value : W32) (p : Pkg) : Pkg :=
  if cluster < 12 then
    ifWrites p rq (pgCc cluster + 1) 0x104 (putHartControl cluster (value.setWidth 64))
  else p

def execHold (rq : Requester) (cluster : Nat) (value : W32) (s : State) : Out :=
  .next (s.onPkg (doHartControl rq cluster value))

def execStart (rq : Requester) (cluster : Nat) (value : W32) (s : State) : Out :=
  .next (s.onPkg (doHartControl rq cluster value))

/-! ## Messages (R430) -/

/-- A write of CC_MSG_SEND (files 1 to 8) or CC_MSG_SEND_M (file 0), discarded as a whole for a HART above 47, a FILE
outside the register's range or IDENTITY 0. -/
def putMsg (mLevel : Bool) (value : W64) (p : Pkg) : Pkg :=
  let h := bitsOf value 31 26
  let file := bitsOf value 25 22
  let id := bitsOf value 10 0
  if h < 48 ∧ id ≠ 0 ∧ (if mLevel then file = 0 else 1 ≤ file ∧ file ≤ 8) then setEip p h file id else p

def doCcMsgSend (rq : Requester) (cluster : Nat) (value : W32) (p : Pkg) : Pkg :=
  if cluster < 12 then ifWrites p rq (pgCc cluster) 0x104 (putMsg false (value.setWidth 64)) else p

def execCcMsgSend (rq : Requester) (cluster : Nat) (value : W32) (s : State) : Out :=
  .next (s.onPkg (doCcMsgSend rq cluster value))

def doCcMsgSendM (rq : Requester) (cluster : Nat) (value : W32) (p : Pkg) : Pkg :=
  if cluster < 12 then ifWrites p rq (pgCc cluster + 1) 0x100 (putMsg true (value.setWidth 64)) else p

def execCcMsgSendM (rq : Requester) (cluster : Nat) (value : W32) (s : State) : Out :=
  .next (s.onPkg (doCcMsgSendM rq cluster value))

/-! ## The APLIC (R433) -/

/-- The stored word of an APLIC register by its offset; the level of source i's input stands under 0x8000 + i. -/
def aplic (p : Pkg) (off : Nat) : W32 := SMap.get p.aplic off 0
def setAplic (p : Pkg) (off : Nat) (v : W32) : Pkg := { p with aplic := SMap.set p.aplic off v }

def apPending : Nat := 0x1C00
def apEnable : Nat := 0x1E00

/-- A source's mode (sourcecfg.SM): 0 inactive, 1 detached, 4 and 5 edges, 6 and 7 levels. -/
def apMode (p : Pkg) (i : Nat) : Nat := bitsOf (aplic p (4 * i)) 2 0

/-- The rectified input of a source. -/
def apInput (p : Pkg) (i : Nat) : Bool :=
  let high := aplic p (0x8000 + i) != 0
  match apMode p i with
  | 4 => high
  | 6 => high
  | 5 => !high
  | 7 => !high
  | _ => false

/-- A word with the bits of the sources that `f` keeps. -/
def apBits (f : Nat → Bool) : W32 := BitVec.ofNat 32 (((List.range 32).filter (fun i => decide (1 ≤ i) && f i)).foldl (fun n i => n + 2 ^ i) 0)

/-- Pending and enabled sources are forwarded as messages while domaincfg.IE is 1, and their pending bits clear. -/
def apForward (p : Pkg) : Pkg :=
  if bitOf (aplic p 0) 8 then
    (List.range 32).foldl (fun q i =>
      if i ≠ 0 ∧ bitOf (aplic q apPending) i ∧ bitOf (aplic q apEnable) i then
        let t := aplic q (0x3000 + 4 * i)
        let q1 := setAplic q apPending (withBits (aplic q apPending) i i 0)
        if bitsOf t 31 18 < 48 ∧ bitsOf t 17 12 ≤ 7 ∧ bitsOf t 10 0 ≠ 0 then
          setEip q1 (bitsOf t 31 18) (1 + bitsOf t 17 12) (bitsOf t 10 0)
        else q1
      else q) p
  else p

/-- A source's pending bit set or cleared; a level source is set only while its rectified input is high. -/
def apSet (p : Pkg) (i : Nat) (b : Bool) : Pkg :=
  if i = 0 ∨ 31 < i ∨ apMode p i = 0 ∨ (b ∧ 6 ≤ apMode p i ∧ apInput p i = false) then p
  else setAplic p apPending (withBits (aplic p apPending) i i (bitNat b))

def apEn (p : Pkg) (i : Nat) (b : Bool) : Pkg :=
  if i = 0 ∨ 31 < i ∨ apMode p i = 0 then p else setAplic p apEnable (withBits (aplic p apEnable) i i (bitNat b))

def apEach (p : Pkg) (v : W32) (f : Pkg → Nat → Pkg) : Pkg :=
  (List.range 32).foldl (fun q i => if bitOf v i then f q i else q) p

/-- A source's input takes a level: a rising rectified input sets the pending bit, and a level source's falls with it. -/
def apSource (p : Pkg) (i : Nat) (high : Bool) : Pkg :=
  let was := apInput p i
  let q := setAplic p (0x8000 + i) (if high then 1 else 0)
  let now := apInput q i
  apForward (if !was && now then apSet q i true
    else if was && !now && decide (6 ≤ apMode q i) then apSet q i false else q)

/-- A write of sourcecfg: delegation and reserved modes read back 0; an inactive source's bits and target are 0; a level
source whose rectified input is high becomes pending. -/
def apSourcecfg (p : Pkg) (i : Nat) (v : W32) : Pkg :=
  let sm := bitsOf v 2 0
  let m := if bitOf v 10 ∨ sm = 2 ∨ sm = 3 then 0 else sm
  let was := apInput p i
  let q := setAplic p (4 * i) (BitVec.ofNat 32 m)
  if m = 0 then
    setAplic (setAplic (setAplic q apPending (withBits (aplic q apPending) i i 0)) apEnable
      (withBits (aplic q apEnable) i i 0)) (0x3000 + 4 * i) 0
  else if !was && apInput q i then apSet q i true
  else q

/-- A write of an APLIC register. -/
def apWrite (p : Pkg) (off : Nat) (v : W32) : Pkg :=
  apForward (
    if off = 0 then setAplic p 0 (withBits (0 : W32) 8 8 (bitNat (bitOf v 8)))
    else if 4 ≤ off ∧ off ≤ 4 * 31 then apSourcecfg p (off / 4) v
    else if off = 0x1C00 then apEach p v (fun q i => apSet q i true)
    else if off = 0x1CDC ∨ off = 0x2000 then apSet p v.toNat true
    else if off = 0x2004 then apSet p (v.toNat / 2 ^ 24 + v.toNat / 2 ^ 16 % 256 * 2 ^ 8 + v.toNat / 2 ^ 8 % 256 * 2 ^ 16
      + v.toNat % 256 * 2 ^ 24) true
    else if off = 0x1D00 then apEach p v (fun q i => apSet q i false)
    else if off = 0x1DDC then apSet p v.toNat false
    else if off = 0x1E00 then apEach p v (fun q i => apEn q i true)
    else if off = 0x1EDC then apEn p v.toNat true
    else if off = 0x1F00 then apEach p v (fun q i => apEn q i false)
    else if off = 0x1FDC then apEn p v.toNat false
    else if off = 0x3000 then
      (if bitsOf v 31 18 < 48 ∧ bitsOf v 10 0 ≠ 0 then setEip p (bitsOf v 31 18) 1 (bitsOf v 10 0) else p)
    else if 0x3004 ≤ off ∧ off ≤ 0x3000 + 4 * 31 then
      (if apMode p ((off - 0x3000) / 4) = 0 then p
       else setAplic p off (v &&& BitVec.ofNat 32 (msk 31 12 + msk 10 0)))
    else p)

/-- What an APLIC register reads as. -/
def apRead (p : Pkg) (off : Nat) : W32 :=
  if off = 0 then aplic p 0 ||| BitVec.ofNat 32 (0x80 * 2 ^ 24 + 4)
  else if 4 ≤ off ∧ off ≤ 4 * 31 then aplic p off
  else if off = 0x1C00 then aplic p apPending
  else if off = 0x1D00 then apBits (apInput p)
  else if off = 0x1E00 then aplic p apEnable
  else if 0x3004 ≤ off ∧ off ≤ 0x3000 + 4 * 31 then aplic p off
  else 0

/-- The register that CC_APLIC_INDEX names: an offset that is a multiple of 4. -/
def apIndex (p : Pkg) : Nat := fld p (key (pgCc 0) 0x108) 14 2 * 4

/-- R433: an access to CC_APLIC_DATA of core cluster 0; a read's data go back to the requester. -/
def doAplicAccess (rq : Requester) (isWrite : Bool) (value : W32) (p : Pkg) : Pkg :=
  if isWrite then ifWrites p rq (pgCc 0) 0x10C (fun q => apWrite q (apIndex q) value)
  else if present p (pgCc 0) then
    emitMsg p (.readData (key (pgCc 0) 0x10C) (if ready p (pgCc 0) then (apRead p (apIndex p)).setWidth 64 else 0))
  else p

def execAplicAccess (rq : Requester) (isWrite : Bool) (value : W32) (s : State) : Out :=
  .next (s.onPkg (doAplicAccess rq isWrite value))

end Sys2Proof.Machine
end

