-- ==== Sys2Proof/Machine/Tiers.lean ====
section
/-! DEFINITION. The memory controllers (spec/11 R383 to R392, R407 to R413): the choice of the next request, refresh, and
the access counters' epochs and registers. Controllers 0 to 7 are the HBM stacks, 8 to 15 the DDR channels. -/

namespace Sys2Proof.Machine

/-- The page of a controller. -/
def pgMem (ctl : Nat) : Nat := if ctl < 8 then pgHbm ctl else pgDdr (ctl - 8)

/-- A pseudo-channel or channel that is built: 64 per stack, one per DDR channel. -/
def pcOk (ctl pc : Nat) : Bool := (decide (ctl < 8) && decide (pc < 64)) || (decide (8 ≤ ctl ∧ ctl < 16) && pc == 0)

/-! ## The choice of a request (R388, R390) -/

/-- Whether a request may be served now: a write waits for every earlier request of its line; a read takes an earlier
write's data from the write queue (R388). -/
def mayServe (before : List MemReq) (r : MemReq) : Bool := !r.write || !(before.any (fun b => b.line == r.line))

/-- The requests that may be served, oldest first, each with its place in the queue. -/
def servable (l : List MemReq) : List (Nat × MemReq) :=
  (l.zipIdx.filter (fun x => mayServe (l.take x.2) x.1)).map (fun x => (x.2, x.1))

/-- Row hits first, then the oldest. -/
def rowFirst (rows : SMap Nat) (l : List (Nat × MemReq)) : Option (Nat × MemReq) :=
  match l.find? (fun x => SMap.get rows x.2.bank (x.2.row + 1) == x.2.row) with
  | some x => some x
  | none => l.head?

/-- Writes in the write queue, of 32 entries; further writes wait at their homes. -/
def writesQueued (l : List MemReq) : Nat := min 32 (l.filter (·.write)).length

/-- The read of a class to serve next. -/
def readOf (x : PcSt) (cls : Nat) : Option (Nat × MemReq) :=
  rowFirst x.rows ((servable x.reqs).filter (fun y => !y.2.write && y.2.cls == cls))

/-- The six rules of R390: the request chosen, and whether a write batch is in progress. -/
def chooseReq (x : PcSt) (now age : Nat) : Option (Nat × MemReq) :=
  let can := servable x.reqs
  match can.find? (fun y => decide (age < now - y.2.since)) with
  | some y => some y
  | none =>
    let writes := can.filter (fun y => y.2.write)
    if x.batch ≠ 0 ∨ 24 ≤ writesQueued x.reqs then rowFirst x.rows writes
    else match readOf x 0 with
      | some y => some y
      | none => match readOf x 1 with
        | some y => some y
        | none => match readOf x 2 with
          | some y => some y
          | none => rowFirst x.rows writes

/-- The writes left of a batch after one request is served: a batch begins at 24 and ends when 8 writes remain. -/
def batchAfter (x : PcSt) (rest : List MemReq) : Nat :=
  if x.batch ≠ 0 ∨ 24 ≤ writesQueued x.reqs then writesQueued rest - 8 else 0

/-- The offset of the line counter that a request counts in (Table 11-11). -/
def lineCounter (r : MemReq) : Nat := if r.write then 0x128 else 0x110 + 8 * min 2 r.cls

/-- Whether a controller has a request at any of its channels. -/
def memBusy (p : Pkg) (ctl : Nat) : Bool := p.memc.pcs.any (fun x => x.1 / 64 == ctl && !x.2.reqs.isEmpty)

/-- An access of a fenced channel is logged (R635). -/
def fencedAccess (p : Pkg) (ctl pc : Nat) (r : MemReq) (m : Memory) : Pkg :=
  if m.inFence (r.line * 64) then logErr p (pgMem ctl) ⟨0x31, 0, 1, r.line * 64, pc % 64 + 64 * (r.bank % 16)⟩ else p

/-- R390: a channel chooses and serves its next request: the row opens if it is not open, and the counters of its page
count the line, the activation and a turn from read to write. -/
def doHbmRequestServe (ctl pc : Nat) (m : Memory) (p : Pkg) : Pkg :=
  let k := 64 * ctl + pc
  let x := pcSt p k
  let pg := pgMem ctl
  if pcOk ctl pc && ready p pg then
    match chooseReq x p.pace.datum (100 * fld p (key pg 0x108) 7 0) with
    | none => p
    | some (i, r) =>
      let rest := x.reqs.eraseIdx i
      let hit := SMap.get x.rows r.bank (r.row + 1) == r.row
      let p1 := addReg p (key pg (lineCounter r)) 1
      let p2 := if hit then p1 else addReg p1 (key pg 0x130) 1
      let p3 := if r.write && x.lastRead then addReg p2 (key pg 0x138) 1 else p2
      let p4 := setPc p3 k { x with
        reqs := rest, batch := batchAfter x rest, rows := SMap.set x.rows r.bank r.row, lastRead := !r.write }
      settleDrains (fencedAccess (setBusy p4 pg (memBusy p4 ctl)) ctl pc r m)
  else p

def execHbmRequestServe (ctl pc : Nat) (s : State) : Out := .next (s.onPkg (doHbmRequestServe ctl pc s.mem))

/-! ## Refresh (R387, R392) -/

/-- Whether an LC read waits for a bank. -/
def lcWaits (x : PcSt) (bank : Nat) : Bool := x.reqs.any (fun r => !r.write && r.cls == 0 && r.bank == bank)

/-- A per-bank refresh is due: it is postponed for a waiting LC read, up to 8 intervals in a row; else it closes the
bank's row and, where no LC read waits, catches up what was postponed. A change of rate applies from this interval. -/
def doRefresh (ctl pc bank : Nat) (p : Pkg) : Pkg :=
  if pcOk ctl pc then
    let k := 64 * ctl + pc
    let x := pcSt p k
    let n := SMap.get x.postponed bank 0
    let p1 := { p with memc := { p.memc with
      doubled := SMap.set p.memc.doubled ctl (bit p (key (pgMem ctl) 0x104) 23) } }
    if lcWaits x bank && decide (n < 8) then setPc p1 k { x with postponed := SMap.set x.postponed bank (n + 1) }
    else
      setPc p1 k { x with
        rows := SMap.drop x.rows (fun b => b == bank)
        postponed := if lcWaits x bank then x.postponed else SMap.drop x.postponed (fun b => b == bank) }
  else p

def execRefresh (ctl pc bank : Nat) (s : State) : Out := .next (s.onPkg (doRefresh ctl pc bank))

/-- R387, R396: the hottest sensor of a stack or of a channel's DIMMs; above 85 °C REFRESH_2X is set. -/
def noteMemTemp (p : Pkg) (ctl temp : Nat) : Pkg :=
  let k := key (pgMem ctl) 0x104
  let hot := decide (85 < temp)
  let p1 := setBit (setFld p k 31 24 temp) k 23 hot
  if bit p k 23 = hot then p1 else raiseBlock p1 (pgMem ctl) 0

def doRefreshRateChange (ctl temp : Nat) (p : Pkg) : Pkg := if ctl < 16 then noteMemTemp p ctl temp else p

def execRefreshRateChange (ctl temp : Nat) (s : State) : Out := .next (s.onPkg (doRefreshRateChange ctl temp))

/-! ## Access counters (R409) -/

/-- The length of a counting block's epoch in nanoseconds. -/
def epochNs (p : Pkg) (b : Nat) : Nat := fld p (accControl b + 4) 15 0 * 1000000

/-- R409: at the end of an epoch every count is halved, rounding down, and every HOT bit clears. -/
def doEpochEnd (b : Nat) (p : Pkg) : Pkg :=
  let a := acc p b
  if decide (b < 9) && bit p (accControl b) 31 && decide (a.since + epochNs p b ≤ p.pace.datum) then
    setAcc p b {
      ents := a.ents.map (fun x => (x.1, { x.2 with reads := x.2.reads / 2, writes := x.2.writes / 2, hot := false }))
      epochs := a.epochs + 1
      since := p.pace.datum }
  else p

def execEpochEnd (b : Nat) (s : State) : Out := .next (s.onPkg (doEpochEnd b))

/-- A write of ACC_CONTROL: THRESHOLD 0 discards it; the table is empty while ENABLE is 0 and its epochs begin when
ENABLE is set (R409, Table 11-15). -/
def putAccControl (b : Nat) (value : W64) (p : Pkg) : Pkg :=
  let k := accControl b
  if bitsOf value 15 0 = 0 then p
  else
    let p1 := setReg p k (mergeWrite (rw4 0 (msk 31 31 + msk 15 0)) (reg p k) value)
    if bitOf value 31 && bit p k 31 then p1 else setAcc p1 b ⟨[], 0, p.pace.datum⟩

/-- A write of ACC_EPOCH: EPOCH_MS 0 discards it (Table 11-16). -/
def putAccEpoch (b : Nat) (value : W64) (p : Pkg) : Pkg :=
  let k := accControl b + 4
  if bitsOf value 15 0 = 0 then p else setReg p k (mergeWrite (rw4 0 (msk 15 0)) (reg p k) value)

/-- A write of HBM_PRIO or DDR_PRIO: AGE_LIMIT 0 discards it (Table 11-14). -/
def putPrio (ctl : Nat) (value : W64) (p : Pkg) : Pkg :=
  let k := key (pgMem ctl) 0x108
  if bitsOf value 7 0 = 0 then p else setReg p k (mergeWrite (rw4 0x108 (msk 7 0)) (reg p k) value)

end Sys2Proof.Machine
end

