-- ==== Sys2Proof/Machine/Power.lean ====
section
/-! DEFINITION. The power controller (spec/17): rails and AVSBus, the envelope, the sharing of the cap, limits and their slots,
contours, thermal throttling, leaving safe hold, and the surveyor's mailbox. -/

namespace Sys2Proof.Machine

def pwrStatus : Nat := key pgPwr 0x100
/-- PWR_STATUS.STATE: 0 NORMAL, 1 ENTERING_HOLD, 2 SAFE_HOLD, 3 RESUMING. -/
def pwrState (p : Pkg) : Nat := fld p pwrStatus 31 28

/-- STATE takes a value; a change sets BLOCK bit 0 and pushes STATE_CHANGE. -/
def setPwrState (p : Pkg) (n : Nat) : Pkg :=
  if pwrState p = n then p
  else waypoint (raiseBlock (setFld p pwrStatus 31 28 n) pgPwr 0) pgPwr 0x07 0 n

/-! ## Limits (R159 to R163, R600) -/

def limitValueOk (limit v : Nat) : Bool := v == 0 || (decide (limitMin limit ≤ v) && decide (v ≤ limitMax limit))

/-- The bits of a slot: 10, 8 or 7. -/
def limitBits (limit : Nat) : Nat := if limit = 0 then 10 else if limit = 1 then 8 else 7

/-- A write of slot 1, 2 or 3 of a limit; a value outside Table 17-2 is refused. -/
def putLimit (limit slot : Nat) (value : W64) (p : Pkg) : Pkg :=
  let v := value.toNat % 2 ^ limitBits limit
  if limitValueOk limit v then setReg p (limitKey limit slot) (BitVec.ofNat 64 v) else p

def doLimitSlotWrite (rq : Requester) (limit slot : Nat) (value : W32) (p : Pkg) : Pkg :=
  if limit < 3 ∧ slot < 4 then
    ifWrites p rq pgPwr (0x240 + 0x20 * limit + 4 * slot)
      (fun q => if slot = 0 then q else putLimit limit slot (value.setWidth 64) q)
  else p

def execLimitSlotWrite (rq : Requester) (limit slot : Nat) (value : W32) (s : State) : Out :=
  .next (s.onPkg (doLimitSlotWrite rq limit slot value))

/-! ## Rails and AVSBus (R584 to R589) -/

def railKey (r : Nat) : Nat := key pgPwr (0x300 + 8 * r)

/-- R587: the newest target of a rail is written, at most once in any 50 µs. -/
def doVoltageWrite (r : Nat) (p : Pkg) : Pkg :=
  match p.pwr.wanted.find? (fun x => x.1 == r) with
  | none => p
  | some (_, mv) =>
    let due := match p.pwr.lastWrite.find? (fun x => x.1 == r) with
      | some t => decide (t.2 + 50000 ≤ p.pace.datum)
      | none => true
    if r < 5 ∧ due = true then
      let p1 := setBit (setFld p (railKey r) 30 21 mv) (railKey r) 31
        (bit p (railKey r) 31 && fld p (railKey r) 30 21 == mv)
      { p1 with pwr := { p1.pwr with
          wanted := SMap.drop p.pwr.wanted (fun k => k == r), lastWrite := SMap.set p.pwr.lastWrite r p.pace.datum } }
    else p

def execVoltageWrite (r : Nat) (s : State) : Out := .next (s.onPkg (doVoltageWrite r))

/-- R586, R589: voltage, current and status of a moved rail are read; REACHED is set where the rail has settled at the last
target written. A Voltage write that failed is counted and waits for its repetition with the newest target. -/
def doRailTelemetry (r mv amps : Nat) (settled good : Bool) (p : Pkg) : Pkg :=
  if 5 ≤ r then p
  else
    let p1 := setFld (setFld p (railKey r) 20 11 mv) (railKey r) 10 0 amps
    if good then (if settled then setBit p1 (railKey r) 31 true else p1)
    else
      let p2 := bumpFld p1 (railKey r + 4) 15 0
      if p.pwr.wanted.any (fun x => x.1 == r) then p2 else wantMv p2 r (fld p (railKey r) 30 21)

def execRailTelemetry (r mv amps : Nat) (settled good : Bool) (s : State) : Out :=
  .next (s.onPkg (doRailTelemetry r mv amps settled good))

/-! ## The envelope (R590 to R592) -/

/-- Raises or lowers the fast limiter; its rise sets BLOCK bit 2. -/
def setLimiter (p : Pkg) (b : Bool) : Pkg :=
  if bit p pwrStatus 24 = b then p
  else if b then raiseBlock (setBit p pwrStatus 24 true) pgPwr 2 else setBit p pwrStatus 24 false

/-- The longest excursion in µs, saturating. -/
def noteLongest (p : Pkg) (ns : Nat) : Pkg :=
  setFld p (key pgPwr 0x120) 15 0 (max (fld p (key pgPwr 0x120) 15 0) (min 65535 (ns / 1000)))

/-- R590: the means over the last 1 µs and 1 ms, in W. An excursion begins and ends with the 1 ms mean; the fast limiter
throttles while a bound of R590 is reached (R592). -/
def doPowerMeasure (us1 ms1 : Nat) (p : Pkg) : Pkg :=
  let eff := effective p 0
  let now := p.pace.datum
  let above := decide (eff < ms1)
  let soon := above && p.pwr.overSince.isNone && (match p.pwr.lastOverEnd with | some t => decide (now < t + 90000000) | none => false)
  let p1 := setFld p pwrStatus 9 0 (min 1023 ms1)
  let p2 := match p.pwr.overSince, above with
    | none, true =>
      { raiseBlock (bumpFld (setBit p1 pwrStatus 25 true) (key pgPwr 0x120) 31 16) pgPwr 1 with
        pwr := { p.pwr with overSince := some now } }
    | some t, true => noteLongest p1 (now - t)
    | some t, false =>
      { noteLongest (setBit p1 pwrStatus 25 false) (now - t) with
        pwr := { p.pwr with overSince := none, lastOverEnd := some now } }
    | none, false => p1
  let long := match p2.pwr.overSince with | some t => decide (t + 10000000 ≤ now) | none => false
  let again := bit p pwrStatus 24 && above
  setLimiter p2 (decide (min 1020 (eff * 12 / 10) < us1) || long || soon || again)

def execPowerMeasure (us1 ms1 : Nat) (s : State) : Out := .next (s.onPkg (doPowerMeasure us1 ms1))

/-- R590: the model is calibrated against the telemetry; the model itself is in no register. -/
def doModelCalibrate (p : Pkg) : Pkg := { p with pwr := { p.pwr with calibrated := p.pace.datum } }
def execModelCalibrate (s : State) : Out := .next (s.onPkg doModelCalibrate)

/-! ## Sharing the cap (R593 to R595) -/

/-- 2 to the power of r ÷ 20, in units of 10^-9, for r from 0 to 19. -/
def pow2Twentieths : List Nat :=
  [1000000000, 1035264924, 1071773463, 1109569472, 1148698355, 1189207115, 1231144413, 1274560627, 1319507911,
   1366040257] ++
  [1414213562, 1464085696, 1515716567, 1569168196, 1624504793, 1681792831, 1741101127, 1802500925, 1866065983,
   1931872658]

/-- A die's fused leakage at 0.75 V and 65 °C: typically 22.5 W of a sheet; the spec gives none for the processor die. -/
def leakFuse (p : Pkg) (die : Nat) : Nat := SMap.get p.pwr.leak0 die (if die < 4 then 22500 else Config.procLeak)

/-- R595: leakage in mW at a voltage and temperature. -/
def leakMw (l0 mv tj : Nat) : Nat :=
  let k := tj + 40 * 20 - 65
  l0 * mv ^ 3 * pow2Twentieths.getD (k % 20) 0 * 2 ^ (k / 20) / (750 ^ 3 * 1000000000 * 2 ^ 40)

/-- R595: a rail's modelled power in mW. -/
def railPower (rows : List (Nat × Nat)) (nominal l0 dyn mv tj : Nat) : Nat :=
  dyn * mv ^ 2 * paceAt rows mv tj / (750 ^ 2 * nominal) + leakMw l0 mv tj

/-- The highest voltage in 5 mV steps from `lo` to `hi` whose modelled power fits a budget; `lo` where none does. -/
def fitVoltage (rows : List (Nat × Nat)) (nominal l0 dyn budget tj lo hi : Nat) : Nat :=
  (((List.range ((hi - lo) / 5 + 1)).map (fun i => hi - 5 * i)).find?
    (fun mv => decide (railPower rows nominal l0 dyn mv tj ≤ budget))).getD lo

def onesIn (mask : Nat) : Nat := countOnes mask 4

/-- The contour demands on a sheet in mW: all of them, or those of INTERACTIVE commands (R594, R599). -/
def contourSum (p : Pkg) (sheet : Nat) (interactive : Bool) : Nat :=
  p.pwr.demands.foldl (fun n x =>
    if x.2.1.testBit sheet && (!interactive || dPrio (cmd p x.1).desc == 0) then n + x.2.2 / max 1 (onesIn x.2.1) else n) 0

/-- The demand of a sheet: its contours and its leakage at 0.75 V (R594). -/
def sheetDemand (p : Pkg) (sheet : Nat) : Nat := contourSum p sheet false + leakMw (leakFuse p sheet) 750 (tjOf p sheet)

def sumList (l : List Nat) : Nat := l.foldl (· + ·) 0

/-- R593: budgets of sheets 0 to 3 and of the processor (4), in mW, from the remainder R, the demands and the INTERACTIVE
demands of the sheets. -/
def shareCap (r : Int) (demand inter : List Nat) : List Nat :=
  if r ≤ 0 then [0, 0, 0, 0, 0]
  else
    let r := r.toNat
    let d (i : Nat) : Nat := demand.getD i 0
    let floor (i : Nat) : Nat := if i < 4 then 50000 else 40000
    if r < 240000 then (List.range 5).map (fun i => min (d i) (floor i * r / 240000))
    else
      let f := (List.range 5).map (fun i => min (d i) (floor i))
      let left := r - sumList f
      let want := (List.range 4).map (fun i => min (inter.getD i 0) (d i - f.getD i 0))
      let gi := if sumList want ≤ left then want else want.map (fun w => left * w / max 1 (sumList want))
      let left2 := left - sumList gi
      let got := (List.range 5).map (fun i => f.getD i 0 + gi.getD i 0)
      let unmet := (List.range 5).map (fun i => d i - got.getD i 0)
      let u := sumList unmet
      (List.range 5).map (fun i =>
        got.getD i 0 + (if u ≤ left2 then unmet.getD i 0 else left2 * unmet.getD i 0 / max 1 u))

/-- A die's thermal share in millionths: lowered while throttled, returning over 100 ms after it (R606). -/
def thermNow (p : Pkg) (die : Nat) : Nat :=
  let s := SMap.get p.pwr.thermScale die 1000000
  let t := SMap.get p.pwr.scaledAt die 0
  if s = 1000000 ∨ t = 0 then s else min 1000000 (s + (1000000 - s) * (p.pace.datum - (t - 1)) / 100000000)

/-- The voltage of a sheet for its budget, under the pace ceiling, fixed-pace mode and the thermal limit (R595, R601). In
fixed-pace mode it is R68's, unless a budget below the sheet's demand or a pace ceiling below SET asks for less (R72). -/
def sheetVoltage (p : Pkg) (s budget : Nat) : Nat :=
  let tj := tjOf p s
  let top := if thermNow p s < 1000000 then 750 else 900
  let v := fitVoltage sheetPaceRows 200 (leakFuse p s) (contourSum p s false) budget tj 600 top
  let v1 := commanded p s (if effective p 1 < 255 then min v (voltFor (effective p 1) tj) else v) 0
  if fixedOn p then
    let f := commanded p s (voltFor (fixedSet p) tj) 25
    if budget < sheetDemand p s ∨ effective p 1 < fixedSet p then min v1 f else f
  else v1

def procVoltage (p : Pkg) (demand budget : Nat) : Nat :=
  let tj := tjOf p 4
  let top := if thermNow p 4 < 1000000 then 750 else 900
  commanded p 4 (fitVoltage procPaceRows 280 (leakFuse p 4) (demand - leakMw (leakFuse p 4) 750 tj) budget tj 650 top) 0

/-- A rail's target is asked for where it differs from the last one written or waiting. -/
def target (p : Pkg) (r mv : Nat) : Pkg :=
  if p.pwr.wanted.any (fun x => x.1 == r) ∨ fld p (railKey r) 30 21 ≠ mv then wantMv p r mv else p

/-- A die's budget and the voltage that fits it. -/
def applyBudget (p : Pkg) (die demand share : Nat) : Pkg :=
  let b := share * thermNow p die / 1000000
  let p1 := setFld (setFld p (key pgPwr (0x108 + 4 * die)) 25 16 (min 1023 (demand / 1000))) (key pgPwr (0x108 + 4 * die)) 9 0
    (min 1023 (b / 1000))
  let p2 := { p1 with pwr := { p1.pwr with budget := SMap.set p1.pwr.budget die b } }
  if pwrState p = 1 ∨ pwrState p = 2 then p2
  else target p2 die (if die < 4 then sheetVoltage p2 die b else procVoltage p2 demand b)

/-- R593: every 100 µs the controller shares the cap by the measured 1 ms means (in W) of HBM, link die and host port, and by
the demands, the processor's as measured; and chooses the rails' voltages. -/
def doBudgetRecompute (hbm link host proc : Nat) (p : Pkg) : Pkg :=
  let p0 := setFld (setFld (setFld p (key pgPwr 0x11C) 29 20 (min 1023 hbm)) (key pgPwr 0x11C) 19 10 (min 1023 link))
    (key pgPwr 0x11C) 9 0 (min 1023 host)
  let r : Int := ((effective p 0 : Int) - hbm - link - host) * 1000
  let demand := (List.range 5).map (fun i => if i < 4 then sheetDemand p i else proc * 1000)
  let shares := shareCap r demand ((List.range 4).map (fun i => contourSum p i true))
  (List.range 5).foldl (fun q i => applyBudget q i (demand.getD i 0) (shares.getD i 0)) p0

def execBudgetRecompute (hbm link host proc : Nat) (s : State) : Out :=
  .next (s.onPkg (doBudgetRecompute hbm link host proc))

/-! ## Temperature (R606 to R608) -/

/-- R606: 5 % off a die's budget every 1 ms from above the limit until 2 °C below it; then the budget returns. -/
def doThermalThrottle (die tj : Nat) (p : Pkg) : Pkg :=
  if 5 ≤ die then p
  else
    let p0 := setDie p die (railOf p die) tj 0
    let lim := effective p 2
    let s := thermNow p die
    let active := decide (SMap.get p.pwr.thermScale die 1000000 < 1000000) && SMap.get p.pwr.scaledAt die 0 == 0
    if lim < tj ∨ (active ∧ lim < tj + 2) then
      let b := SMap.get p.pwr.budget die 0 * 95 / 100
      let p1 := setFld { p0 with pwr := { p0.pwr with
        thermScale := SMap.set p.pwr.thermScale die (s * 95 / 100), scaledAt := SMap.set p.pwr.scaledAt die 0
        budget := SMap.set p.pwr.budget die b } } (key pgPwr (0x108 + 4 * die)) 9 0 (min 1023 (b / 1000))
      if die < 4 ∧ pwrState p ≠ 1 ∧ pwrState p ≠ 2 then target p1 die (sheetVoltage p1 die b) else p1
    else if active then { p0 with pwr := { p0.pwr with scaledAt := SMap.set p.pwr.scaledAt die (p.pace.datum + 1) } }
    else p0

def execThermalThrottle (die tj : Nat) (s : State) : Out := .next (s.onPkg (doThermalThrottle die tj))

/-- R607: a stack above 95 °C is limited to half its bandwidth until it is below 93 °C. -/
def doHbmThrottle (stack temp : Nat) (p : Pkg) : Pkg :=
  if 8 ≤ stack then p
  else
    let p1 := noteMemTemp p stack temp
    let b := if 95 < temp then true else if temp < 93 then false else SMap.get p.memc.throttled stack false
    { p1 with memc := { p1.memc with throttled := SMap.set p1.memc.throttled stack b } }

def execHbmThrottle (stack temp : Nat) (s : State) : Out := .next (s.onPkg (doHbmThrottle stack temp))

/-- R608: THERM_TRIP_N is released when every sensor reads below 90 °C. -/
def doThermalTripClear (hottest : Nat) (p : Pkg) : Pkg := if hottest < 90 then setBit p pwrStatus 26 false else p
def execThermalTripClear (hottest : Nat) (s : State) : Out := .next (s.onPkg (doThermalTripClear hottest))

/-- R712: the rise of TRAY_FLOW_OK is recognised at once. -/
def doFlowRise (p : Pkg) : Pkg :=
  if bit p pwrStatus 27 then p
  else { setBit p pwrStatus 27 true with pwr := { p.pwr with flowOkSince := some p.pace.datum } }

def execFlowRise (s : State) : Out := .next (s.onPkg doFlowRise)

/-! ## Leaving safe hold (R612, R613) -/

/-- Every sensor reads 70 °C or below. -/
def allCool (p : Pkg) : Bool :=
  (List.range 5).all (fun d => decide (tjOf p d ≤ 70)) &&
    (List.range 8).all (fun k => decide (fld p (key (pgHbm k) 0x104) 31 24 ≤ 70))

def mayResume (p : Pkg) : Bool :=
  pwrState p == 2 && p.pwr.holdCause == 1 && allCool p && !bit p pwrStatus 26 && bit p pwrStatus 27 &&
    (match p.pwr.flowOkSince with | some t => decide (t + 1000000000 ≤ p.pace.datum) | none => false)

/-- Rails return to their targets under R593, the beat gate opens, and memories leave self-refresh (R613, R665). -/
def wake (p : Pkg) : Pkg :=
  let p2 := { p with
    pwr := { p.pwr with gateClosed := false, gateSet := if fixedOn p then fixedSet p else 0 }
    seq := { p.seq with memRefresh := false } }
  (List.range 5).foldl (fun q d =>
    target q d (if d < 4 then sheetVoltage q d (SMap.get q.pwr.budget d 0)
      else procVoltage q (1000 * fld q (key pgPwr 0x118) 25 16) (SMap.get q.pwr.budget 4 0))) p2

/-- READY rises again on the blocks that a hold took it from (R613, R666). -/
def returnReady (p : Pkg) : Pkg :=
  let p1 := p.pwr.heldReady.foldl (fun q pg =>
    if retired q pg || inFault q pg || surveying q pg then q
    else if enabled q pg then setReady q pg true
    else { q with disabled := SMap.set q.disabled pg true }) p
  { p1 with pwr := { p1.pwr with heldReady := [] } }

/-- The sequencer keeps the package at QUIESCED or below it. -/
def asleep (p : Pkg) : Bool :=
  let st := fld p (key pgSv 0x100) 31 28
  st == 4 || ((st == 3 || st == 1) && decide (fld p (key pgSv 0x100) 27 24 < 4))

/-- R613: the package wakes, harts continue, and the ports train again. A package that the sequencer keeps at QUIESCED
wakes with the climb back. -/
def resume (p : Pkg) : Pkg := if asleep p then setPwrState p 3 else portsLight (wake (setPwrState p 3))

/-- A write of PWR_SAFE_HOLD: AUTO takes its value; a write of RESUME is discarded whole unless R612's conditions hold. -/
def putSafeHold (value : W64) (p : Pkg) : Pkg :=
  let p1 := setBit p (key pgPwr 0x2C0) 1 (bitOf value 1)
  if bitOf value 0 then (if mayResume p then resume p1 else p) else p1

def doPwrSafeHoldResume (rq : Requester) (value : W32) (p : Pkg) : Pkg :=
  ifWrites p rq pgPwr 0x2C0 (putSafeHold (value.setWidth 64))

def execPwrSafeHoldResume (rq : Requester) (value : W32) (s : State) : Out :=
  .next (s.onPkg (doPwrSafeHoldResume rq value))

/-- R613: READY rises on the blocks that safe hold took it from, and STATE returns to NORMAL. -/
def doResumeComplete (p : Pkg) : Pkg :=
  if pwrState p = 3 then setPwrState (if asleep p then p else returnReady p) 0 else p

def execResumeComplete (s : State) : Out := .next (s.onPkg doResumeComplete)

/-! ## Contours (R596) -/

/-- A write of PWR_CONTOUR_CONTROL: CLEAR empties the table. -/
def putContour (value : W64) (p : Pkg) : Pkg :=
  let p1 := setBit p (key pgPwr 0x2A0) 0 (bitOf value 0)
  if bitOf value 1 then { p1 with pwr := { p1.pwr with contours := [] } } else p1

def doContourClear (rq : Requester) (value : W32) (p : Pkg) : Pkg :=
  ifWrites p rq pgPwr 0x2A0 (putContour (value.setWidth 64))

def execContourClear (rq : Requester) (value : W32) (s : State) : Out := .next (s.onPkg (doContourClear rq value))

/-! ## The surveyor's mailbox (R603, R604) -/

def mboxKey (page : Nat) : Nat := key page 0x110

/-- A write of SV_MBOX_CMD starts a request; it is discarded while one is in progress. -/
def putMboxCmd (page : Nat) (value : W64) (p : Pkg) : Pkg :=
  let k := mboxKey page
  if bit p k 30 then p
  else
    let p1 := setFld (setBit (setBit p k 30 true) k 31 false) k 7 0 (bitsOf value 7 0)
    { p1 with boot := { p1.boot with mboxFrom := SMap.set p1.boot.mboxFrom page (owner p page) } }

/-- The party that made the request on a mailbox page: the owner that wrote SV_MBOX_CMD, whoever owns the page now. -/
def mboxParty (p : Pkg) (page : Nat) : Nat := SMap.get p.boot.mboxFrom page (owner p page)

/-- A request of a command code with an argument waits on mailbox page 1 or 2, and is not yet with the field book. -/
def mboxWaits (p : Pkg) (page cmd : Nat) (arg : W64) : Bool :=
  (page == 1 || page == 2) && ready p pgSv && p.boot.handover.isNone && bit p (mboxKey page) 30 &&
    fld p (mboxKey page) 7 0 == cmd && reg p (key page 0x108) == arg && !(p.fuse.requests.any (fun r => r.mbox == page))

/-- The surveyor serves a request for a party: `who` is the page whose owner alone may ask, or none where any may; `f` gives
the result and the effect, or no result where the field book answers. -/
def serveMbox (page cmd : Nat) (arg : W64) (who : Option Nat) (f : Pkg → Option Nat × Pkg) (p : Pkg) : Pkg :=
  if mboxWaits p page cmd arg then
    let ok := match who with
      | some pg => mboxParty p page == owner p pg
      | none => true
    if !ok then answerMbox p page 4
    else match f p with
      | (some r, q) => answerMbox q page r
      | (none, q) => q
  else p

/-- A field-book request for a party (R172): FB_ATTRIBUTE takes its code and reason 0 first. -/
def fbFor (page setting value : Nat) (p : Pkg) : Option Nat × Pkg :=
  (none, putFbRequest .surveyor setting 0 value page (setReg p (key pgFb 0x10C) (BitVec.ofNat 64 (256 * mboxParty p page))))

/-- A limit for the requesting party's own slot (R162). -/
def limitFor (page limit : Nat) (arg : W64) (p : Pkg) : Option Nat × Pkg :=
  let v := arg.toNat % 2 ^ limitBits limit
  if limitValueOk limit v then (some 0, setReg p (limitKey limit (mboxParty p page)) (BitVec.ofNat 64 v)) else (some 2, p)

def execSetPersonality (page : Nat) (arg : W64) (s : State) : Out :=
  .next (s.onPkg (serveMbox page 0x01 arg (some pgHl) (fbFor page 1 (arg.toNat % 2))))
def execSetPowerCap (page : Nat) (arg : W64) (s : State) : Out :=
  .next (s.onPkg (serveMbox page 0x10 arg none (limitFor page 0 arg)))
def execSetPaceCeiling (page : Nat) (arg : W64) (s : State) : Out :=
  .next (s.onPkg (serveMbox page 0x11 arg none (limitFor page 1 arg)))
def execSetThermalLimit (page : Nat) (arg : W64) (s : State) : Out :=
  .next (s.onPkg (serveMbox page 0x12 arg none (limitFor page 2 arg)))
def execLowerPowerCeiling (page : Nat) (arg : W64) (s : State) : Out :=
  .next (s.onPkg (serveMbox page 0x13 arg (some pgHl) (fbFor page 2 (arg.toNat % 1024))))

/-- SET_FIXED_PACE: a SET outside 100 to 220 is refused with result 2. -/
def fixedFor (arg : W64) (p : Pkg) : Option Nat × Pkg :=
  if 100 ≤ bitsOf arg 7 0 ∧ bitsOf arg 7 0 ≤ 220 then (some 0, putFixedPace (arg &&& 0xFFFFFFFF) p) else (some 2, p)

def execSetFixedPace (page : Nat) (arg : W64) (s : State) : Out :=
  .next (s.onPkg (serveMbox page 0x14 arg (some pgQm) (fixedFor arg)))

/-- SAFE_HOLD_RESUME: the surveyor writes RESUME; a discarded write gives result 5 (R612). -/
def resumeFor (p : Pkg) : Option Nat × Pkg := if mayResume p then (some 0, resume p) else (some 5, p)

def execSafeHoldResume (page : Nat) (arg : W64) (s : State) : Out :=
  .next (s.onPkg (serveMbox page 0x15 arg (some pgQm) resumeFor))
def execContourControl (page : Nat) (arg : W64) (s : State) : Out :=
  .next (s.onPkg (serveMbox page 0x16 arg (some pgQm) (fun p => (some 0, putContour arg p))))

/-- The codes of Table 17-3. -/
def mboxCodes : List Nat := [0x01, 0x10, 0x11, 0x12, 0x13, 0x14, 0x15, 0x16]

def execUnknownMailboxCommand (page cmd : Nat) (arg : W64) (s : State) : Out :=
  .next (s.onPkg (fun p => if cmd ∈ mboxCodes then p else serveMbox page cmd arg none (fun q => (some 0xFF, q)) p))

end Sys2Proof.Machine
end

