-- ==== Sys2Proof/Machine/Faults.lean ====
section
/-! DEFINITION. Faults (spec/18): unit resets of a page's registers, the loss, survey and return of CEs, memory sparing,
replica repair, counting windows, and the update of surveyor firmware. -/

namespace Sys2Proof.Machine

/-! ## Unit reset of a block's registers (R147, R689) -/

/-- What a unit reset keeps of a register: all of it, OWNER alone, or nothing. USE_COUNTER, the RL fields RT_NODE_ID and
DT_SET, the CE operation counters (R700), the counts since package power-up, and what only shows the state of the sequencer,
the flash and the rails stay. -/
inductive Keep where
  | all
  | ownerOnly
  | none
  deriving DecidableEq, Repr

def keepOf (first k : Nat) : Keep :=
  let off := k % 0x1000
  if firstPage (k / 0x1000) ≠ first then .all
  else if off = 8 then .ownerOnly
  else if k = key first 0x38 then .all
  else if classOf first = 0x01 ∧ 0x300 ≤ off ∧ off < 0x390 then .all
  else if k ∈ [key pgRt 0x104, key pgDt 0x110, key pgDt 0x158, key pgHl 0x130, key pgOps 0x100, key pgOps 0x108, key pgOps 0x10C,
      key pgSv 0x100, key pgSv 0x104, key 3 0x100, key 3 0x104, key pgPwr 0x100] then .all
  else if first = pgPwr ∧ ((0x210 ≤ off ∧ off < 0x228) ∨ (0x300 ≤ off ∧ off < 0x328 ∧ off % 8 = 0)) then .all
  else .none

/-- The registers of a block at their reset values; READY and the survey bits are the caller's. -/
def resetRegs (p : Pkg) (first : Nat) : Pkg :=
  { p with regs := p.regs.filterMap (fun (x : Nat × W64) =>
      match keepOf first x.1 with
      | .all => some x
      | .ownerOnly =>
        if x.1 = key first 8 then some (x.1, BitVec.ofNat 64 (bitsOf x.2 11 8 * 256 + bitsOf x.2 0 0))
        else some (x.1, BitVec.ofNat 64 (bitsOf x.2 11 8 * 256))
      | .none => none) }

/-- The block's queues: the waypoint ring keeps its waypoints and numbers anew from 0, every other queue empties. -/
def resetQueues (p : Pkg) (first : Nat) : Pkg :=
  { p with queues := p.queues.filterMap (fun (x : Nat × Queue) =>
      if firstPage (x.1 / 0x1000) ≠ first then some x
      else if x.1 = key first 0x30 then some (x.1, { x.2 with nextSeq := 0, dropped := 0 })
      else none) }

/-- A unit reset of what every block has: registers, queues, window, handling list, stalls and paths; RESET is the first
waypoint after it, then READY falls. -/
def resetBlock (p : Pkg) (first why : Nat) : Pkg :=
  let p1 := newWindow (resetQueues (resetRegs p first) first) first
  let p2 := setStalls { p1 with fault := { p1.fault with
      handling := SMap.drop p1.fault.handling (fun k => k == first) } } first []
  setReady (waypoint (restartPaths p2 first) first 0x03 0 why) first false

/-! ## Counting windows (R625) -/

/-- The length of a page's window in ns (Table 4-10). -/
def windowNs (p : Pkg) (pg : Nat) : Nat :=
  let u := fld p (key pg 0x2C) 15 14
  fld p (key pg 0x2C) 13 0 * (if u = 0 then 1000000000 else if u = 1 then 60000000000 else 3600000000000)

/-- A window ends and the next begins. -/
def doWindowEnd (pg : Nat) (p : Pkg) : Pkg :=
  if present p pg && firstPage pg == pg &&
      decide (SMap.get p.fault.windowAt pg 0 + windowNs p pg ≤ p.pace.datum) then newWindow p pg
  else p

def execWindowEnd (pg : Nat) (s : State) : Out := .next (s.onPkg (doWindowEnd pg))

/-! ## Loss, survey and return of a CE (R627 to R631) -/

def ceQd (n : Nat) : Nat := 8 * (n / 256) + n % 256 / 25
def cePos (n : Nat) : Nat := n % 256 % 25

/-- A unit's survey begins (R628). -/
def startSurvey (p : Pkg) (pg : Nat) : Pkg := waypoint (setBit p (key pg 8) 4 true) pg 0x04 0 0

/-- The surveyor requests CE_RETIRE with a reason (R629). -/
def requestRetire (p : Pkg) (n reason : Nat) : Pkg :=
  surveyorRequest p 4 reason (256 * (n / 256) + 25 * (n % 256 / 25)) (cePos n)

/-- The quadrangle's spare, where one waits, is surveyed (R629). -/
def surveySpare (p : Pkg) (qd : Nat) : Pkg :=
  let m := 256 * (qd / 8) + 25 * (qd % 8) + SMap.get p.fuse.sparePos qd 24
  if bit p (key (pgQd qd) 0x104) 7 && !surveying p (pgCe m) then startSurvey p (pgCe m) else p

/-- The CE in isolation: its state at reset, FAULT and RETIRED read 1, its survey begins (R628). -/
def isolateCe (p : Pkg) (n : Nat) : Pkg :=
  startSurvey (setFld (resetBlock (setCe p n Ce.empty) (pgCe n) 0) (key (pgCe n) 8) 3 2 3) (pgCe n)

/-- R627: a CE is lost, with cause 0 error, 1 watchdog, 2 RESET_UNIT, 3 threshold. The record, the handling of its command
(R303), the copy of its waypoints (R690), its senders stopped (R101), UNIT_RETIRED; then its survey, or its retirement. -/
def ceLose (p : Pkg) (n cause : Nat) : Pkg :=
  if ceOk n && present p (pgCe n) && !retired p (pgCe n) then
    let p1 := logErr p (pgQd (ceQd n)) ⟨0x23, 0, 0, 0, cePos n + cause % 4 * 256⟩
    let p2 := retirePaths (waypointDump (loseOnCe p1 n) n) (pgCe n)
    let p3 := { p2 with fault := { p2.fault with lossCause := SMap.set p2.fault.lossCause n (cause + 1) } }
    let p4 := if cause = 3 then setBusy (setReady (setFld p3 (key (pgCe n) 8) 3 2 3) (pgCe n) false) (pgCe n) false
      else isolateCe p3 n
    let p5 := qmEvent p4 0x01 n
    if cause = 3 then surveySpare (requestRetire p5 n 0x01) (ceQd n) else p5
  else p

def execCeLost (n cause : Nat) (s : State) : Out :=
  .next (s.onPkg (fun p => if cause < 4 then ceLose p n cause else p))

/-- R627: the hub watchdog: a CE that holds a command made no handshake for 200,000 beats of a sheet that is not halted. -/
def execHubWatchdog (n : Nat) (s : State) : Out :=
  .next (s.onPkg (fun p => if ceOk n && (ce p n).cmd.isSome && !halted p (n / 256) then ceLose p n 1 else p))

/-- A CE enters service (R628, R629, R631): READY, its paths anew, every chart slot EMPTY. The spare takes the place of a
retired CE, with ENABLE set; a CE that had been lost, or stands in, is announced by UNIT_ADMITTED. -/
def admitCe (p : Pkg) (n : Nat) (spare : Bool) : Pkg :=
  let back := spare || retired p (pgCe n)
  let qk := key (pgQd (ceQd n)) 0x100
  let p1 := setFld (setCe p n Ce.empty) (key (pgCe n) 8) 4 2 0
  let p2 := if spare then
      raiseBlock (setBit (setBit (setBit p1 qk (cePos n) true) (qk + 4) 7 false) (key (pgCe n) 0xC) 0 true) (pgQd (ceQd n)) 1
    else p1
  let p3 := becomeReady (restartPaths p2 (pgCe n)) (pgCe n)
  let p4 := { p3 with fault := { p3.fault with lossCause := SMap.drop p3.fault.lossCause (fun k => k == n) } }
  if back then qmEvent p4 0x02 n else p4

/-- A CE's survey ends. A spare is admitted only in place of a retired CE of its quadrangle (R26). -/
def surveyCe (p : Pkg) (n failing : Nat) : Pkg :=
  let qd := ceQd n
  let p1 := waypoint (setBit p (key (pgCe n) 8) 4 false) (pgCe n) 0x05 0 failing
  if failing = 0 then
    let spare := cePos n == SMap.get p.fuse.sparePos qd 24 && bit p (key (pgQd qd) 0x104) 7
    if !spare then admitCe p1 n false
    else if SMap.get p.fault.ceOut qd 0 ≠ 0 ∨ SMap.get p.fuse.ceRetired qd 0 ≠ 0 then admitCe p1 n true
    else p1
  else
    let p2 := logErr (setFld p1 (key (pgCe n) 8) 3 2 3) (pgQd qd) ⟨0x24, 0, 0, 0, cePos n + failing % 256 * 256⟩
    let p3 := requestRetire p2 n 0x02
    if cePos n = SMap.get p.fuse.sparePos qd 24 then p3 else surveySpare p3 qd

/-- A survey ends (R628, R672): a CE is admitted or retired; any other block becomes READY where it passed, but for a core
cluster, which waits for its kernel image (Table 19-4) and whose harts report FAILED where it did not pass. -/
def doSurveyComplete (pg failing : Nat) (p : Pkg) : Pkg :=
  if present p pg && firstPage pg == pg && surveying p pg then
    if classOf pg = 0x01 then surveyCe p (256 * ((pg - 0x1000) / 0x200) + (pg - 0x1000) % 0x200) failing
    else
      let p1 := waypoint (setBit p (key pg 8) 4 false) pg 0x05 0 failing
      if failing = 0 then
        let kernel := p.seq.step5Done && decide (fld p (key pgSv 0x104) 27 24 = 0)
        if decide (classOf pg ≠ 0x0F) || kernel then becomeReady (restartPaths p1 pg) pg else restartPaths p1 pg
      else if classOf pg = 0x0F then (List.range 4).foldl (fun q j => setHartState q (2 * (pg - 0x880) + j) 3) p1
      else p1
  else p

def execSurveyComplete (pg failing : Nat) (s : State) : Out := .next (s.onPkg (doSurveyComplete pg failing))

/-! ## Field-book requests that take a unit out of use (R303, R558) -/

/-- What follows where a request has taken a CE that was in service, or a lane of a link in use, out of it. -/
def settleRetired (before : Pkg) (p : Pkg) (r : FbReq) : Pkg :=
  if r.setting = 4 then
    let n := r.inst + r.value
    if r.value < 25 ∧ retired before (pgCe n) = false ∧ retired p (pgCe n) = true then
      qmEvent (retirePaths (waypointDump (loseOnCe p n) n) (pgCe n)) 0x01 n
    else p
  else if r.setting = 3 ∧ linkUp p (r.inst / 2) = true ∧ laneWidth p (r.inst / 2) (r.inst % 2) < 4 then
    linkDown p (r.inst / 2) 0
  else p

/-- A write of an FB field, and what the request's immediate end did. -/
def fbRequest (rq : Requester) (off : Nat) (value : W32) (p : Pkg) : Pkg :=
  let q := doFbRequest rq off value p
  match fbField off with
  | some (setting, inst) => settleRetired p q (fbRequestOf p rq setting inst value.toNat 0)
  | none => q

def execFbRequest (rq : Requester) (off : Nat) (value : W32) (s : State) : Out :=
  .next (s.onPkg (fbRequest rq off value))

/-- The request in progress ends, and with it those behind it that need no entry. -/
def fbRequestDone (written : Bool) (p : Pkg) : Pkg :=
  p.fuse.requests.foldl (settleRetired p) (doFbRequestDone written p)

def execFbRequestDone (written : Bool) (s : State) : Out := .next (s.onPkg (fbRequestDone written))

/-! ## Memory sparing (R632 to R637) -/

/-- A status of spares changes (Table 22-5). -/
def spareChanged (p : Pkg) (pg : Nat) : Pkg := raiseBlock p pg (if classOf pg = 0x04 then 2 else 1)

/-- The bank and the row that an HBM record names. -/
def recBank (stack : Nat) (e : ErrArgs) : Nat := stack * 1024 + e.detail % 1024
def recRow (stack : Nat) (e : ErrArgs) : Nat := recBank stack e * 65536 + e.addr / 2 ^ 21 % 65536

/-- R633: the row is copied into a runtime spare of its bank, of which there are 4; without one it stays. -/
def rowSpare (p : Pkg) (stack : Nat) (e : ErrArgs) : Pkg :=
  let b := recBank stack e
  let used := SMap.get p.fault.rowSpares b 0
  let pg := pgHbm stack
  if used < 4 then
    let p1 := { p with fault := { p.fault with
      rowSpares := SMap.set p.fault.rowSpares b (used + 1), sparedRows := SMap.set p.fault.sparedRows (recRow stack e) true } }
    let p2 := logErr p1 pg ⟨0x32, 0, e.addrKind, e.addr, e.detail % 1024 + (3 - used) * 4096⟩
    spareChanged (bumpFld p2 (key pg 0x1A0) 15 0) pg
  else p

/-- R636: a DDR device is marked. -/
def deviceMark (p : Pkg) (pg : Nat) (e : ErrArgs) : Pkg :=
  let k := key pg 0x140
  let p1 := setFld (setFld (setBit (setBit p k 31 true) k 29 true) k 28 26 (e.detail / 32)) k 23 16 (e.detail % 32)
  let p2 := { p1 with fault := { p1.fault with marked := SMap.set p1.fault.marked (pg * 256 + e.detail % 256) 1 } }
  spareChanged (logErr p2 pg ⟨0x42, 0, e.addrKind, e.addr, e.detail % 256⟩) pg

/-- R637: a DDR row is repaired. -/
def ddrRowRepair (p : Pkg) (pg : Nat) (e : ErrArgs) : Pkg :=
  spareChanged (bumpFld (logErr p pg ⟨0x43, 0, e.addrKind, e.addr, e.detail % 256⟩) (key pg 0x140) 15 0) pg

def spareKey (stack : Nat) : Nat := key (pgHbm stack) 0x1A0

/-- R634: the stack's one spare channel takes a channel's place. -/
def channelSpare (p : Pkg) (stack chan : Nat) : Pkg :=
  let p1 := setFld (setBit p (spareKey stack) 31 true) (spareKey stack) 28 24 chan
  let p2 := { p1 with fault := { p1.fault with chanSpared := SMap.set p1.fault.chanSpared stack [chan] } }
  spareChanged (logErr p2 (pgHbm stack) ⟨0x33, 0, 0, 0, chan⟩) (pgHbm stack)

def stackSpared (p : Pkg) (stack : Nat) : Bool := !(SMap.get p.fault.chanSpared stack []).isEmpty

/-- R635: a channel that fails after its stack's spare is used: its reads return poison from now on. -/
def channelFence (stack chan : Nat) (s : State) : State :=
  { s with
    mem := { s.mem with fenced := insertRising s.mem.fenced (64 * stack + chan) }
    pkg := spareChanged (setBit s.pkg (spareKey stack) 29 true) (pgHbm stack) }

def execChannelFence (stack chan : Nat) (s : State) : Out :=
  if stack < 8 ∧ chan < 32 ∧ stackSpared s.pkg stack = true then .next (channelFence stack chan s) else .next s

/-- A channel fails: it is spared, or fenced where the spare is used. -/
def execChannelSpare (stack chan : Nat) (s : State) : Out :=
  if stack < 8 ∧ chan < 32 ∧ present s.pkg (pgHbm stack) = true then
    if stackSpared s.pkg stack then .next (channelFence stack chan s)
    else .next (s.onPkg (fun p => channelSpare p stack chan))
  else .next s

/-! ## Replica repair (R643 to R646) -/

def replicaWord (p : Pkg) (sheet j w : Nat) : W64 := SMap.get p.fault.replica (sheet * 64 + 2 * j + w) 0

/-- The range of an entry's word 0: first address and bytes. -/
def repBase (w0 : W64) : Nat := bitsOf w0 51 21 * 0x200000
def repSize (w0 : W64) : Nat := (bitsOf w0 14 0 + 1) * 0x200000

/-- R643: whether a VALID entry may be committed. -/
def replicaOk (p : Pkg) (sheet : Nat) (w0 w1 : W64) : Bool :=
  let base := hbmBase + sheet * 0x2000000000
  let inHbm := decide (base ≤ repBase w0 ∧ repBase w0 + repSize w0 ≤ base + hbmPerSheet p)
  let copy := bitsOf w1 51 21 * 0x200000
  inHbm && (bitOf w0 62 || (p.memc.ddrPhase == 1 && decide (copy + repSize w0 ≤ p.ddrBytes)))

/-- A write of QD_REPLICA_WORD0 commits the entry that QD_REPLICA_INDEX names. -/
def putReplica (sheet : Nat) (value : W64) (p : Pkg) : Pkg :=
  let pg := pgQd (8 * sheet)
  let j := fld p (key pg 0x1C0) 4 0
  let w0 := mergeWrite (rw8 0x1D0 (msk 63 62 + msk 51 21 + msk 14 0)) 0 value
  let w1 := reg p (key pg 0x1C8)
  if bitOf w0 63 && (bitOf (replicaWord p sheet j 0) 63 || !replicaOk p sheet w0 w1) then p
  else
    let r := SMap.set (SMap.set p.fault.replica (sheet * 64 + 2 * j) w0) (sheet * 64 + 2 * j + 1) w1
    setReg { p with fault := { p.fault with replica := r } } (key pg 0x1D0) w0

def execReplicaCommit (rq : Requester) (sheet : Nat) (value : W64) (s : State) : Out :=
  .next (s.onPkg (fun p => if sheet < 4 then ifWrites p rq (pgQd (8 * sheet)) 0x1D0 (putReplica sheet value) else p))

/-- The VALID entry whose range holds an HBM address. -/
def replicaOf (p : Pkg) (pa : Nat) : Option (Nat × Nat) :=
  match region pa with
  | .hbm s _ =>
    match (List.range 32).find? (fun j =>
        let w0 := replicaWord p s j 0
        bitOf w0 63 && decide (repBase w0 ≤ pa ∧ pa < repBase w0 + repSize w0)) with
    | some j => some (s, j)
    | none => none
  | _ => none

/-- Where the copy of a line stands: the offset from COPY, which is a DDR address or an offset in WINDOW. -/
def copyOf (p : Pkg) (s j pa : Nat) : Nat :=
  bitsOf (replicaWord p s j 1) 51 21 * 0x200000 + (pa / 64 * 64 - repBase (replicaWord p s j 0))

def isWindowCopy (p : Pkg) (s j : Nat) : Bool := bitOf (replicaWord p s j 0) 62

/-- The slice and controller pages of a line of HBM. -/
def linePages (pa : Nat) : List Nat :=
  match region pa with
  | .hbm s o => [pgSl (64 * s + slmHash o), pgHbm (hbmStack s o)]
  | _ => []

/-- R646: the repair fails: the line stays poisoned and REPLICA_FAILED says why. -/
def repairFails (pa j cause : Nat) (s : State) : State :=
  let p1 := endRepair s.pkg (pa / 64)
  let pg := (linePages pa).headD pgQm
  { s with mem := s.mem.setPoison pa, pkg := logErr p1 pg ⟨0xB1, 0, 1, pa / 64 * 64, j + cause % 256 * 256⟩ }

/-- R645 steps 1 and 2: the line is repair-pending and its copy is asked for: by RdCur at the DDR home, or by an RD in the
LC read class under the window's PERM_R. -/
def startRepair (pa s j : Nat) (st : State) : State :=
  let p := st.pkg
  let e : ErrArgs := ⟨0x31, 0, 1, pa, 0⟩
  let p1 := (linePages pa).foldl (fun q pg => beginHandling q pg e)
    { p with fault := { p.fault with repairs := SMap.set p.fault.repairs (pa / 64) (s, j) } }
  let c := copyOf p s j pa
  if isWindowCopy p s j then
    let w := bitsOf (replicaWord p s j 1) 63 54
    let d := reg p (windowKey w)
    if bitOf d 63 && bitOf d 62 then
      let m : Msg :=
        { op := 1, cls := 0, vc := 0, rdClass := 0, replayed := false, poison := false, dest := bitsOf d 13 0,
          src := thisNode p, hops := 64, arg := 0, window := bitsOf d 25 16, offset := c % 0x1000000000, tag := 0,
          payload := 0, recs := [] }
      { st with pkg := remotePut p1 (.replica (pa / 64 * 64)) m w 0 (c / 64) 1024 }
    else repairFails pa j 0x1 { st with pkg := p1 }
  else { st with pkg := (homeRead p1 c 0 0 none).2 }

/-- R645: a home that finds an uncorrectable line inside a VALID range begins its repair. -/
def replicaRepair (pa : Nat) (st : State) : State :=
  match replicaOf st.pkg pa with
  | some (s, j) => if inRepair st.pkg pa then st else startRepair pa s j st
  | none => st

def execReplicaRepair (pa : Nat) (s : State) : Out := .next (replicaRepair pa s)

/-- R645 step 3 and 4, R646: the copy is at the home: the clean line is written to HBM and REPLICA_REPAIRED logged, or the
repair fails with `cause` (0 none, 0xFF a poisoned copy, else of Table 14-5). -/
def repairEnds (pa : Nat) (data : Item) (cause : Nat) (s : State) : State :=
  match p.find? (fun r => r.1 == pa / 64) with
  | some (_, (_, j)) =>
    if cause = 0 then
      let p1 := memSend (endRepair s.pkg (pa / 64)) pa 1 true
      { s with
        mem := s.mem.storeLine pa data false
        pkg := logErr p1 ((linePages pa).headD pgQm) ⟨0xB0, 0, 1, pa / 64 * 64, j⟩ }
    else repairFails pa j cause s
  | none => s
where p := s.pkg.fault.repairs

/-- The copy arrives: a DDR copy is the line in memory, a window's is what the answer carries. -/
def replicaCopy (pa : Nat) (data : Item) (cause : Nat) (s : State) : State :=
  match s.pkg.fault.repairs.find? (fun r => r.1 == pa / 64) with
  | some (_, (sh, j)) =>
    if isWindowCopy s.pkg sh j then
      repairEnds pa data cause { s with pkg := { s.pkg with rt := { s.pkg.rt with
        acc := s.pkg.rt.acc.filter (fun x => x.2.who != .replica (pa / 64 * 64)) } } }
    else
      let c := copyOf s.pkg sh j pa
      if (dirLine s.pkg (c / 64)).host = 2 then s
      else if s.mem.poisoned (c / 64 * 64) 64 then repairEnds pa 0 0xFF s
      else repairEnds pa (s.mem.line c) 0 s
  | none => s

def execReplicaCopyArrived (pa : Nat) (data : Item) (cause : Nat) (s : State) : Out := .next (replicaCopy pa data cause s)

/-! ## Surveyor firmware (R650 to R654, R681) -/

def updStatus : Nat := key 3 0x118
def updBusy (p : Pkg) : Bool := bit p updStatus 30

/-- An update operation begins: 1 STAGE, 2 ACTIVATE. -/
def updStart (p : Pkg) (op : Nat) : Pkg :=
  setFld (setFld (setBit (setBit p updStatus 31 false) updStatus 30 true) updStatus 15 8 0) updStatus 7 0 op

/-- An update operation ends with a RESULT; SV_UPD_STATUS.DONE raises page 3's interrupt. -/
def updEnd (p : Pkg) (result : Nat) : Pkg :=
  raiseBlock (setFld (setBit (setBit p updStatus 31 true) updStatus 30 false) updStatus 15 8 result) 3 0

def updRefuse (p : Pkg) (op result : Nat) : Pkg := updEnd (updStart p op) result

/-- Whether STAGE's source is populated DDR or HBM throughout (R651). -/
def sourceOk (p : Pkg) : Bool :=
  let a := bitsOf (reg p (key 3 0x108)) 51 6 * 64
  let n := fld p (key 3 0x110) 22 0
  decide (1 ≤ n ∧ n ≤ 4194304) &&
    (match region a, region (a + n - 1) with
     | .ddr _, .ddr _ => populatedRange p a n
     | .hbm s _, .hbm t _ => s == t && populatedRange p a n
     | _, _ => false)

/-- Table 19-9: the result of the first check that an image of a kind, of at most `max` bytes, fails; 0 where it passes all. -/
def imageResult (f : FuseSt) (kind max : Nat) (i : ImageInfo) : Nat :=
  if i.magic ≠ 0x56470010 ∨ i.kind ≠ kind ∨ max < 128 + i.bodySize + 96 ∨ i.reserved ≠ 0 ∨ 2 ≤ i.flags ∨ 8 ≤ i.keySlot ∨
      i.revokeMask.testBit i.keySlot = true ∨ i.keyOk = false then 1
  else if f.keyRevoked.testBit i.keySlot then 2
  else if i.secVersion < countOnes f.keyRevoked 8 then 3
  else if i.sigOk then 0 else 1

def surveyorMax : Nat := 4194304
def surveyorResult (p : Pkg) (i : ImageInfo) : Nat := imageResult p.fuse 1 surveyorMax i

/-- R651: STAGE reads and checks the image `img` and begins to write the inactive slot. -/
def putStage (img : ImageInfo) (p : Pkg) : Pkg :=
  if updBusy p then p
  else if !sourceOk p then updRefuse p 1 5
  else updStart { p with boot := { p.boot with staged := some img } } 1

def inactiveSlot (p : Pkg) : Option ImageInfo := if p.boot.activeSlot = 0 then p.boot.slotB else p.boot.slotA
def activeImage (p : Pkg) : Option ImageInfo := if p.boot.activeSlot = 0 then p.boot.slotA else p.boot.slotB
def setInactive (p : Pkg) (i : Option ImageInfo) : Pkg :=
  if p.boot.activeSlot = 0 then { p with boot := { p.boot with slotB := i } }
  else { p with boot := { p.boot with slotA := i } }

def versionOf (i : Option ImageInfo) : Nat :=
  match i with
  | some x => x.version % 2 ^ 32
  | none => 0

/-! ### The boot flash directory (R678) -/

/-- The 16 bytes of each entry in turn, little-endian. -/
def dirBytes (l : List FlashEntry) : List Nat :=
  l.flatMap (fun e => [e.offset, e.size, e.crc, e.pad].flatMap (fun w => (List.range 4).map (fun i => w / 2 ^ (8 * i) % 256)))

/-- The largest content of each entry (Table 19-7). -/
def dirLargest : List Nat := [surveyorMax, surveyorMax, 4096, 16711680, 16711680, 1048576]

/-- Whether the directory passes: its six entries within their sizes, each with its 4 zero bytes, and the CRC-32 over them. -/
def dirOk (d : FlashDir) : Bool :=
  d.entries.length == 6 && (d.entries.zip dirLargest).all (fun x => decide (x.1.size ≤ x.2) && x.1.pad == 0) &&
    d.crc == crc32 (dirBytes d.entries)

/-- The fastest of the read modes that the flash lists. -/
def fastestMode (d : FlashDir) : Nat := if d.quadIo then 2 else if d.quadOut then 1 else 0

/-- The directory after a surveyor image was written to slot n, or the slot was left empty: the entry's size and its content's CRC-32,
a free value, and the directory's own CRC-32. -/
def dirWrite (p : Pkg) (n : Nat) (i : Option ImageInfo) : Pkg :=
  let e := p.boot.dir.entries.getD n ⟨0, 0, 0, 0⟩
  let e' : FlashEntry := match i with
    | some x => { e with size := 128 + x.bodySize + 96, crc := (Config.freeWord p.free).toNat % 2 ^ 32 }
    | none => { e with size := 0, crc := (Config.freeWord p.free).toNat % 2 ^ 32 }
  let l := p.boot.dir.entries.set n e'
  { nextFree p with boot := { p.boot with dir := { p.boot.dir with entries := l, crc := crc32 (dirBytes l) } } }

/-- The inactive slot's image and its directory entry are written. -/
def writeSlot (p : Pkg) (i : Option ImageInfo) : Pkg := dirWrite (setInactive p i) (1 - p.boot.activeSlot) i

/-- SV_FW_RUNNING and SV_FW_OTHER follow the running image and the inactive slot. -/
def showVersions (p : Pkg) : Pkg :=
  setReg (setReg p (key 3 0x100) (BitVec.ofNat 64 (versionOf p.boot.running))) (key 3 0x104)
    (BitVec.ofNat 64 (versionOf (inactiveSlot p)))

/-- R651: staging ends; a failed check leaves the slot, a failed flash write leaves it empty; while the board holds the
flash the result is 4 (R722). -/
def doStageDone (flashOk : Bool) (p : Pkg) : Pkg :=
  match p.boot.staged with
  | some img =>
    if updBusy p && fld p updStatus 7 0 == 1 then
      let p1 := { p with boot := { p.boot with staged := none } }
      if p.boot.flashOwner ≠ 0 then updEnd p1 4
      else if surveyorResult p img ≠ 0 then updEnd p1 (surveyorResult p img)
      else if flashOk then updEnd (showVersions (writeSlot p1 (some img))) 0
      else updEnd (showVersions (writeSlot p1 none)) 4
    else p
  | none => p

def execStageDone (flashOk : Bool) (s : State) : Out := .next (s.onPkg (doStageDone flashOk))

/-- R652: ACTIVATE hands over to the inactive slot's image; refused while PWR_STATUS.STATE is not 0 (R655), off RUN
(R684), or without an image to start. -/
def putActivate (p : Pkg) : Pkg :=
  if updBusy p then p
  else match inactiveSlot p, p.boot.running with
    | some new, some old =>
      if pwrState p ≠ 0 ∨ fld p (key pgSv 0x100) 31 28 ≠ 2 ∨ surveyorResult p new ≠ 0 then updRefuse p 2 5
      else
        let p1 := { updStart p 2 with boot := { p.boot with running := some new, handover := some (old, p.pace.datum) } }
        waypoint (showVersions p1) pgSv 0x30 0 0
    | _, _ => updRefuse p 2 5

/-- SV_UPD_CONTROL: STAGE, then ACTIVATE. -/
def putUpdControl (img : ImageInfo) (value : W64) (p : Pkg) : Pkg :=
  let p1 := if bitOf value 0 then putStage img p else p
  if bitOf value 1 then putActivate p1 else p1

/-- The image at SV_UPD_SOURCE (Table 19-8), of SV_UPD_SIZE bytes: one that does not fit in them, or that is poisoned, does not
verify. Whether its key and signature do is not the model's to compute. -/
def stagedImage (m : Memory) (p : Pkg) (keyOk sigOk : Bool) : ImageInfo :=
  let a := bitsOf (reg p (key 3 0x108)) 51 6 * 64
  let n := fld p (key 3 0x110) 22 0
  let body := m.read (a + 12) 4
  { magic := m.read a 4, kind := m.read (a + 4) 1, keySlot := m.read (a + 5) 1, secVersion := m.read (a + 6) 1
    flags := m.read (a + 7) 1, revokeMask := m.read (a + 8) 1
    reserved := m.read (a + 9) 3 + m.read (a + 24) 8
    bodySize := body, version := m.read (a + 16) 4, entry := m.read (a + 20) 4
    keyOk := keyOk, sigOk := sigOk && decide (128 + body + 96 ≤ n) && !m.poisoned a n }

def execStage (rq : Requester) (value : W32) (checks : ImageChecks) (s : State) : Out :=
  let img := stagedImage s.mem s.pkg checks.keyOk checks.sigOk
  .next (s.onPkg (fun p => ifWrites p rq 3 0x114 (putUpdControl img (value.setWidth 64))))

/-- The image that a write without a row of its own stages: whether its key and signature are good is a free value. -/
def imageAt (m : Memory) (p : Pkg) : ImageInfo :=
  stagedImage m p (bitOf (Config.freeWord p.free) 0) (bitOf (Config.freeWord p.free) 1)

def execActivate (rq : Requester) (value : W32) (s : State) : Out :=
  .next (s.onPkg (fun p => ifWrites (nextFree p) rq 3 0x114
    (putUpdControl (imageAt s.mem p) (value.setWidth 64))))

/-- Requests that waited for a handover to end are judged. -/
def resumeRequests (p : Pkg) : Pkg := fbServe (p.fuse.requests.length + 1) p

/-- R681: KEY_REVOKE for the slots of a healthy image's mask that are not revoked, and DEBUG_LOCK. -/
def keyRequests (p : Pkg) (img : ImageInfo) : Pkg :=
  let keys := (List.range 8).filter (fun k => img.revokeMask.testBit k && !p.fuse.keyRevoked.testBit k)
  let p1 := keys.foldl (fun q k => surveyorRequest q 5 3 k 1) p
  if img.flags % 2 == 1 && !p.fuse.debugLock then surveyorRequest p1 6 3 0 1 else p1

/-- R652, R681: the new image is healthy: the active slot switches, ACTIVATE is done. -/
def doNewImageHealthy (p : Pkg) : Pkg :=
  match p.boot.handover, p.boot.running with
  | some _, some img =>
    let p1 := { p with boot := { p.boot with handover := none, activeSlot := 1 - p.boot.activeSlot } }
    let p2 := updEnd (setBit (showVersions p1) updStatus 29 (decide (p1.boot.activeSlot = 1))) 0
    keyRequests (resumeRequests p2) img
  | _, _ => p

def execNewImageHealthy (s : State) : Out := .next (s.onPkg doNewImageHealthy)

/-- R653: 1 s without a healthy report: the old image runs again from the same record. -/
def doFwRollback (p : Pkg) : Pkg :=
  match p.boot.handover with
  | some (old, since) =>
    if since + 1000000000 ≤ p.pace.datum then
      let p1 := { p with boot := { p.boot with handover := none, running := some old } }
      let p2 := logErr (updEnd (showVersions p1) 6) pgSv ⟨0xC0, 0, 0, 0, versionOf p.boot.running⟩
      resumeRequests (waypoint p2 pgSv 0x30 0 1)
    else p
  | none => p

def execFwRollback (s : State) : Out := .next (s.onPkg doFwRollback)

end Sys2Proof.Machine
end

