-- ==== Sys2Proof/Machine/Landing.lean ====
section
/-! DEFINITION. Remote accesses: window descriptors and landing entries (spec/14 R488 to R498), the requests that land here,
and the answers and refusals of requests sent from here (spec/16 R548, R563). A command that names a message does nothing where
that message has not arrived. -/

namespace Sys2Proof.Machine

/-! ## Descriptors and landing entries (R490, R493, R497, R498) -/

def landingKey (r word : Nat) : Nat := key (pgRt + 1 + r / 240) (0x100 + 16 * (r % 240) + 8 * word)

/-- First address and bytes of a landing entry's range. -/
def landBase (w0 : W64) : Nat := bitsOf w0 51 21 * 0x200000
def landSize (w0 : W64) : Nat := (bitsOf w0 14 0 + 1) * 0x200000

/-- Whether a landing range lies wholly in populated DDR, populated HBM or whole scratchpad slices (R490). -/
def landRangeOk (p : Pkg) (w0 : W64) : Bool :=
  match region (landBase w0) with
  | .ddr _ => p.memc.ddrPhase == 1 && decide (landBase w0 + landSize w0 ≤ p.ddrBytes)
  | _ => hbmOrScratch p (landBase w0) (landSize w0)

/-- A descriptor is written; VALID over VALID and descriptor 0 are discarded. -/
def putDescriptor (i : Nat) (value : W64) (p : Pkg) : Pkg :=
  let k := windowKey i
  if i = 0 ∨ (bitOf value 63 = true ∧ bit p k 63 = true) then p
  else setReg p k (mergeWrite (rw8 0x100 (msk 63 59 + msk 47 32 + msk 25 16 + msk 13 0)) (reg p k) value)

/-- A word of a landing entry is written; entry 0, VALID over VALID and a VALID bad range are discarded. -/
def putLanding (r word : Nat) (value : W64) (p : Pkg) : Pkg :=
  let k := landingKey r word
  if r = 0 then p
  else if word = 0 then
    let v := mergeWrite (rw8 0x100 (msk 63 60 + msk 51 21 + msk 14 0)) 0 value
    if bitOf v 63 && (bit p k 63 || !landRangeOk p v) then p else setReg p k v
  else setReg p k (mergeWrite (rw8 0x108 (msk 45 32 + msk 13 0)) (reg p k) value)

def doWindowEntryWrite (rq : Requester) (landing : Bool) (idx word : Nat) (value : W64) (p : Pkg) : Pkg :=
  if 1024 ≤ idx ∨ 2 ≤ word then p
  else if landing then
    let k := landingKey idx word
    ifWrites p rq (k / 0x1000) (k % 0x1000) (putLanding idx word value)
  else ifWrites p rq (windowKey idx / 0x1000) (windowKey idx % 0x1000) (putDescriptor idx value)

def execWindowEntryWrite (rq : Requester) (landing : Bool) (idx word : Nat) (value : W64) (s : State) : Out :=
  .next (s.onPkg (doWindowEntryWrite rq landing idx word value))

/-! ## The landing check (R488, R491, R563) -/

/-- Records of a COL_HEAD, its STEP and COLLECTIVE_ID (Table 16-5). -/
def colCount (m : Msg) : Nat := min 256 (min (bitsOf m.payload 15 0) m.recs.length)
def colStep (m : Msg) : Nat := bitsOf m.payload 31 16
def colIdOf (m : Msg) : Nat := bitsOf m.payload 35 32

/-- The PERM bit of word 0 that a request needs: R, W, or A for atomics and COL_HEAD add. -/
def permBit (m : Msg) : Nat :=
  if m.op = 1 then 62 else if m.op = 4 ∨ (m.op = 7 ∧ m.arg = 0) then 60 else 61

/-- One past the last byte of a request's target. -/
def reachOf (m : Msg) : Nat := if m.op = 7 then m.offset + 80 * colCount m else m.offset + 1

/-- The cause of Table 14-5 for which the receiver refuses a request. -/
def landingRefusal (p : Pkg) (m : Msg) : Option Nat :=
  let w0 := reg p (landingKey m.window 0)
  let w1 := reg p (landingKey m.window 1)
  if m.window = 0 then some 6
  else if 1024 ≤ m.window ∨ bitOf w0 63 = false then some 4
  else if (m.src ^^^ bitsOf w1 13 0) &&& bitsOf w1 45 32 ≠ 0 then some 5
  else if bitOf w0 (permBit m) = false then some 6
  else if landSize w0 < reachOf m then some 7
  else none

def isRequest (m : Msg) : Bool := m.op == 1 || m.op == 2 || m.op == 3 || m.op == 4 || m.op == 7

def tagsDone (p : Pkg) (src : Nat) : List Nat := SMap.get p.rt.performed src []

/-- A response: RDATA or WRACK, with the request's TAG. -/
def respond (p : Pkg) (m : Msg) (op : Nat) (data : Item) (poison : Bool) : Pkg :=
  injectMsg p { op := op, cls := 1, vc := 0, rdClass := m.rdClass, replayed := false, poison := poison, dest := m.src,
                src := thisNode p, hops := 64, arg := 0, window := 0, offset := 0, tag := m.tag, payload := data,
                recs := [] }

def dropArrived (p : Pkg) (m : Msg) : Pkg := { p with rt := { p.rt with arrived := p.rt.arrived.erase m } }

/-- R488, R563, R495: a request that arrives is answered again where its TAG has been performed, lands, or is refused and
reported. A replayed request whose first copy has landed and is still open is dropped; a replayed RD lands again. -/
def doLandingCheck (m : Msg) (p : Pkg) : Pkg :=
  if isRequest m && p.rt.arrived.contains m then
    let p1 := dropArrived p m
    if m.replayed && p.rt.landed.any (fun x => x.1.src == m.src && x.1.tag == m.tag) then
      bumpReg p1 (key pgRt 0x134) 1 0xFFFFFFFF
    else if m.replayed && (tagsDone p m.src).contains m.tag && m.op != 1 then
      respond (bumpReg p1 (key pgRt 0x134) 1 0xFFFFFFFF) m 6 0 false
    else
      let p2 := if m.replayed && (tagsDone p m.src).contains m.tag then bumpReg p1 (key pgRt 0x134) 1 0xFFFFFFFF else p1
      match landingRefusal p m with
      | some cause => sendReport p2 m.src cause m.window m.offset m.tag
      | none =>
        let at' := landBase (reg p (landingKey m.window 0)) + m.offset
        { p2 with rt := { p2.rt with landed := p2.rt.landed ++ [(m, at')] } }
  else p

def execLandingCheck (m : Msg) (s : State) : Out := .next (s.onPkg (doLandingCheck m))

/-! ## Requests at their home (R548) -/

def landedAt (p : Pkg) (m : Msg) : Option Nat := (p.rt.landed.find? (fun x => x.1 == m)).map (·.2)

/-- A request has been performed: its TAG is remembered among its source's last 1,024, and it is answered. -/
def performed (p : Pkg) (m : Msg) (op : Nat) (data : Item) (poison : Bool) : Pkg :=
  let l := tagsDone p m.src ++ [m.tag]
  let r : RouterSt := { p.rt with
    landed := p.rt.landed.filter (fun x => x.1 != m)
    performed := SMap.set p.rt.performed m.src (l.drop (l.length - 1024)) }
  respond { p with rt := r } m op data poison

/-- RD: the line is read at its home by RdCur. -/
def execProiladRd (m : Msg) (s : State) : Out :=
  match landedAt s.pkg m with
  | some pa =>
    if m.op ≠ 1 then .next s
    else match fateFor s.pkg (idNode m.src) pa false with
      | .served =>
        match homeRead s.pkg pa m.rdClass 0 none with
        | (false, q) => .next { s with pkg := q }
        | (true, q) =>
          .next { s with pkg := performed (crossLine q (idNode m.src) pa true) m 5 (s.mem.line pa) (s.mem.poisoned (pa / 64 * 64) 64) }
      | .decode => .next { s with pkg := performed (decodeError s.pkg pgRt pa) m 5 0 true }
      | _ => .next s
  | none => .next s

/-- A write's line is written at its home, once the host's copy of it is gone. -/
def landWrite (m : Msg) (pa : Nat) (whole : Bool) (f : Memory → Memory) (s : State) : State :=
  match fateFor s.pkg (idNode m.src) pa whole with
  | .served =>
    if hostHolds s.pkg pa then { s with pkg := biStart s.pkg (pa / 64) true none }
    else { s with mem := f s.mem, pkg := performed (homeWrite s.pkg pa false (idNode m.src)) m 6 0 false }
  | .decode => { s with pkg := performed (decodeError s.pkg pgRt pa) m 6 0 false }
  | _ => s

def execProiladWr (m : Msg) (s : State) : Out :=
  match landedAt s.pkg m with
  | some pa => if m.op = 2 then .next (landWrite m pa true (fun x => x.storeLine pa m.payload m.poison) s) else .next s
  | none => .next s

/-- The bytes of a word that ARG's mask names. -/
def maskBytes (m : Msg) (pa : Nat) (x : Memory) : Memory :=
  let w := (List.range 8).foldl (fun (x : Memory) i =>
    if m.arg.testBit i then x.setByte (pa / 8 * 8 + i) (BitVec.ofNat 8 (m.payload.toNat / 2 ^ (8 * i))) else x) x
  if m.poison then w.setPoison pa else w

def execProiladWr8 (m : Msg) (s : State) : Out :=
  match landedAt s.pkg m with
  | some pa => if m.op = 3 then .next (landWrite m pa false (maskBytes m pa) s) else .next s
  | none => .next s

def execProiladAtom (m : Msg) (s : State) : Out :=
  match landedAt s.pkg m with
  | some pa =>
    if m.op = 4 then
      match atomAt pa m.arg (m.payload.setWidth 64) (idNode m.src) pgRt none s with
      | (.done, t) => .next (t.onPkg (fun q => performed q m 6 0 false))
      | (_, t) => .next t
    else .next s
  | none => .next s

/-- The lines that the records of a COL_HEAD reach. -/
def colLines (m : Msg) (pa : Nat) : List Nat :=
  (List.range (colCount m)).flatMap (fun j => [pa + 80 * j, radd2 (pa + 80 * j)])

/-- The part of a record in one line written at its home; at an address without memory the landing table logs a decode error (R38). -/
def writeRecPart (m : Msg) (pa n v : Nat) (s : State) : State :=
  if fate s.pkg pa = .decode then { s with pkg := decodeError s.pkg pgRt pa }
  else { s with mem := s.mem.write pa n v, pkg := homeWrite s.pkg pa false (idNode m.src) }

/-- A record of an all-gather written over its place, in its two lines; a malformed one as the range NaN that it is taken for
(R268). -/
def writeRec (m : Msg) (pa : Nat) (r : Rec) (s : State) : State :=
  let v := (canonRec r).toNat
  let n := 64 - pa % 64
  writeRecPart m (pa + n) (80 - n) (v / 2 ^ (8 * n)) (writeRecPart m pa n v s)

/-- The records land one by one, widened to full form (R375): added exactly, or written. -/
def landRecs (m : Msg) (pa : Nat) (l : List WireRec) (s : State) : State :=
  match l with
  | [] => s
  | w :: t =>
    landRecs m (pa + 80) t (if m.arg = 0 then (raddAt pa (widenRec w) (idNode m.src) pgRt s).2 else writeRec m pa (widenRec w) s)

/-- COL_HEAD: its records land by add or write (R577); the arrivals of its step are counted. -/
def execColHead (m : Msg) (s : State) : Out :=
  match landedAt s.pkg m with
  | some pa =>
    let lines := colLines m pa
    if m.op ≠ 7 ∨ lines.any (fun a => fateFor s.pkg (idNode m.src) a false == .waits) then .next s
    else if lines.any (hostHolds s.pkg) then
      .next (s.onPkg (fun p => lines.foldl (fun q a => if hostHolds q a then biStart q (a / 64) true none else q) p))
    else
      let t := landRecs m pa (m.recs.take (colCount m)) s
      let k := colKey (pa - m.offset) m.src (colIdOf m) (colStep m)
      .next (t.onPkg (fun p => performed { p with rt := { p.rt with
        colSeen := SMap.set p.rt.colSeen k (SMap.get p.rt.colSeen k 0 + colCount m) } } m 6 0 false))
  | none => .next s

/-! ## Answers (R492, R563) -/

def remoteKey (dest tag : Nat) : Nat := 2 ^ 21 * dest + tag % 2 ^ 21

def remoteAt (p : Pkg) (k : Nat) : Option Remote := (p.rt.acc.find? (fun x => x.1 == k)).map (·.2)

def dropRemote (p : Pkg) (k : Nat) : Pkg := { p with rt := { p.rt with acc := SMap.drop p.rt.acc (fun x => x == k) } }

/-- A hart takes a precise exception: its cause and value (R424, R492). -/
def hartFault (p : Pkg) (h cause : Nat) (va : W64) : Pkg := setHart p h { hart p h with xcause := some cause, xtval := va }

/-- An integer register of a hart takes a value; x0 reads zero. -/
def setX (p : Pkg) (h rd : Nat) (v : W64) : Pkg :=
  if rd = 0 then p else setHart p h { hart p h with x := SMap.set (hart p h).x rd v }

/-- `size` bytes of a number as a register value, sign-extended or not. -/
def loadValue (v size : Nat) (signed : Bool) : W64 :=
  let m := 2 ^ (8 * size)
  if signed && decide (m / 2 ≤ v % m) then BitVec.ofInt 64 ((v % m : Nat) - (m : Int)) else BitVec.ofNat 64 (v % m)

/-- Element `i` of `size` bytes of a vector register group takes a value (VLEN 256, R416). -/
def setElem (p : Pkg) (h vreg i size v : Nat) : Pkg :=
  let r := (vreg + i * size / 32) % 32
  let o := i * size % 32 * 8
  setHart p h { hart p h with v := SMap.set (hart p h).v r (withBits (SMap.get (hart p h).v r 0) (o + 8 * size - 1) o v) }

/-- Element `i` of a vector register group. -/
def vecElem (p : Pkg) (h vreg i size : Nat) : Nat :=
  bitsOf (SMap.get (hart p h).v ((vreg + i * size / 32) % 32) 0) (i * size % 32 * 8 + 8 * size - 1) (i * size % 32 * 8)

/-- A fault on an element of a vector access: vstart names it (R428). -/
def elemFault (p : Pkg) (h i cause : Nat) (va : W64) : Pkg := setCsr (hartFault p h cause va) h 0x008 (BitVec.ofNat 64 i)

/-- A load of a hart receives poison: counted, a precise load access fault (R424, Table 20-7). -/
def loadPoisoned (p : Pkg) (h : Nat) (va : W64) : Pkg := hartFault (hartEvent p h 0x0F 1) h 5 va

/-- What the answer of the access under key `k` does at its requester. -/
def answered (k : Nat) (r : Remote) (data : Item) (poison : Bool) (s : State) : State :=
  match r.who with
  | .moverLoad n => s.onPkg (fun p => deliverLine p n r.line (k + 1) data poison)
  | .coreLoad h rd size signed va =>
    s.onPkg (fun p =>
      if poison then loadPoisoned p h va
      else setX p h rd (loadValue (data.toNat / 2 ^ (8 * (r.msg.offset % 64))) size signed))
  | .vecLoad h vreg i size va =>
    s.onPkg (fun p =>
      if poison then elemFault (hartEvent p h 0x0F 1) h i 5 va
      else setElem p h vreg i size (data.toNat / 2 ^ (8 * (r.msg.offset % 64))))
  | .semSignal id =>
    s.onPkg (fun p =>
      let c := cmd p id
      finishQm (traceCmd p 4 0 0x02 c (idRing c.ctx c.ring) (idNode r.msg.dest) 0 (dOperand c.desc 0).addr) id 0 0)
  | .replica pa => replicaCopy pa data (if poison then 0xFF else 0) s
  | _ => s

/-- RDATA and WRACK: the access that its TAG names ends; any other is discarded. -/
def doAnswer (m : Msg) (s : State) : State :=
  if s.pkg.rt.arrived.contains m then
    let s1 := s.onPkg (fun p => dropArrived p m)
    let k := remoteKey m.src m.tag
    match remoteAt s.pkg k with
    | some r =>
      if (m.op = 5) = (r.msg.op = 1) then
        let s2 := answered k r m.payload m.poison (s1.onPkg (fun p => dropRemote p k))
        if m.op = 6 then
          s2.onPkg (fun p => { p with qm := { p.qm with lastAck := SMap.set p.qm.lastAck r.ring (m.src, r.window) } })
        else s2
      else s1
    | none => s1
  else s

def execRdata (m : Msg) (s : State) : Out := if m.op = 5 then .next (doAnswer m s) else .next s
def execWrack (m : Msg) (s : State) : Out := if m.op = 6 then .next (doAnswer m s) else .next s

/-! ## Refusals (R492, R495) -/

/-- The virtual address of a line of a command's window operand. -/
def remoteVa (c : Cmd) (r : Remote) : Nat :=
  match c.pages.find? (fun x => x.1 == r.operand && x.2.pa ≤ r.line / 64 && r.line / 64 < x.2.pa + x.2.pages) with
  | some x => (x.2.va + (r.line / 64 - x.2.pa)) * 4096 + r.line % 64 * 64
  | none => 0

/-- A mover's access is refused: its command completes WINDOW_FAULT. -/
def moverRefused (p : Pkg) (n : Nat) (r : Remote) (cause : Nat) : Pkg :=
  match (ce p n).cmd with
  | some id => windowFault p id r.operand cause r.window (remoteVa (cmd p id) r)
  | none => p

/-- A ring's remote write declared undeliverable or never answered is remembered for REMOTE_FENCE (R325). -/
def noteFail (p : Pkg) (r : Remote) (cause : Nat) : Pkg :=
  if 8 ≤ cause ∧ r.msg.op ≠ 1 then
    { p with qm := { p.qm with remoteFail := SMap.set p.qm.remoteFail r.ring (r.window + 1) } }
  else p

/-- The outcome of a refused access at its requester, with a cause of Table 14-5. -/
def refusedAt (k : Nat) (r : Remote) (cause : Nat) (s : State) : State :=
  let s1 := s.onPkg (fun p => noteFail (dropRemote p k) r cause)
  match r.who with
  | .moverLoad n => s1.onPkg (fun p => moverRefused p n r cause)
  | .moverStore n _ => s1.onPkg (fun p => moverRefused p n r cause)
  | .coreLoad h _ _ _ va => s1.onPkg (fun p => hartFault p h 5 va)
  | .vecLoad h _ i _ va => s1.onPkg (fun p => elemFault p h i 5 va)
  | .coreStore h va => s1.onPkg (fun p => logWindow p h 0 cause r.window va.toNat)
  | .semSignal id => s1.onPkg (fun p => windowFault p id 0 cause r.window (dOperand (cmd p id).desc 0).addr)
  | .replica pa => replicaCopy pa 0 cause s1
  | .step id => s1.onPkg (fun p => windowFault (ringForget p (cmd p id)) id 0 cause r.window 0)

/-- R494: a record lands in the mailbox ring of 64, KEEP_NEWEST. -/
def mailboxPut (p : Pkg) (i : Item) : Pkg :=
  let l := p.rt.mailbox ++ [i]
  { p with rt := { p.rt with mailbox := l.drop (l.length - 64) } }

/-- R495: the report unit completes the access that a report names by its tag, window and offset. -/
def reportLands (i : Item) (s : State) : State :=
  let cause := bitsOf i 15 8
  let win := bitsOf i 47 32
  let off := bitsOf i 127 64
  let tag := bitsOf i 191 128
  match s.pkg.rt.acc.find? (fun x =>
      x.1 % 2 ^ 21 == tag % 2 ^ 21 && x.2.msg.window == win && x.2.msg.offset == off &&
        (cause == 9 || x.1 / 2 ^ 21 == bitsOf i 31 16)) with
  | some (k, r) => refusedAt k r cause s
  | none => s

/-- A mailbox record lands, and a report with it. -/
def recordLands (i : Item) (s : State) : State :=
  let s1 := s.onPkg (fun p => mailboxPut p i)
  if bitsOf i 7 0 = 1 then reportLands i s1 else s1

def execSvcWr (m : Msg) (s : State) : Out :=
  if m.op = 8 ∧ s.pkg.rt.arrived.contains m = true then
    .next (recordLands m.payload (s.onPkg (fun p => dropArrived p m)))
  else .next s

/-- A landing refusal's report from a node lands here. -/
def execReportRecord (cause window tag source offset : Nat) (s : State) : Out :=
  .next (recordLands (BitVec.ofNat 512 (1 + 2 ^ 8 * (cause % 256) + 2 ^ 16 * (source % 65536) + 2 ^ 32 * (window % 65536) +
    2 ^ 64 * (offset % 2 ^ 64) + 2 ^ 128 * (tag % 2 ^ 64) + 2 ^ 192 * (s.pkg.pace.datum % 2 ^ 64))) s)

/-- R492: 100 ms without an answer: the access is refused with cause 8. `tag` is 2 ^ 21 × destination + TAG. -/
def execWindowNoAnswer (tag : Nat) (s : State) : Out :=
  match remoteAt s.pkg tag with
  | some r => if r.since + 100000000 ≤ timerNow s.pkg then .next (refusedAt tag r 8 s) else .next s
  | none => .next s

end Sys2Proof.Machine
end

