-- ==== Sys2Proof/Machine/PowerUp.lean ====
section
/-! DEFINITION. Power-up and the sequencer's climb (spec/19 R659 to R664, R668 to R682), the end of HBM and DDR training
(spec/11 R395), the kernel's hand-off (spec/12 R438 to R440), power and rail losses (R671, R749), and the flash bus (R722). -/

namespace Sys2Proof.Machine

/-! ## What loses its state with the rails (R664, R749) -/

/-- Blocks on VDD_AUX (R661). -/
def onAux (pg : Nat) : Bool := decide (pg < 8)

/-- A PL_STATUS that is reset keeps CABLE, which reads the pin. -/
def cableOnly (x : Nat × W64) : Option (Nat × W64) :=
  if classOf (x.1 / 0x1000) = 0x09 ∧ x.1 % 0x1000 = 0x100 ∧ bitOf x.2 27 = true then
    some (x.1, BitVec.ofNat 64 (2 ^ 27)) else none

/-- Everything off VDD_AUX at its reset value; USE_COUNTER clears everywhere. -/
def offAux (p : Pkg) : Pkg :=
  let keep (k : Nat) : Bool := onAux (k / 0x1000)
  let keepT (k : Nat) : Bool := onAux (k / 4)
  { p with
    ddrBytes := 0, disabled := p.disabled.filter (fun x => onAux x.1), spills := [], paths := [], traces := [], tapIr := []
    regs := p.regs.filterMap (fun (x : Nat × W64) =>
      if keep x.1 then (if x.1 % 0x1000 = 0x38 then none else some x) else cableOnly x)
    queues := p.queues.filter (fun x => keep x.1)
    fault := { FaultSt.initial with
      handling := p.fault.handling.filter (fun x => onAux x.1)
      trackers := p.fault.trackers.filter (fun x => keepT x.1)
      fired := p.fault.fired.filter (fun x => keepT x.1)
      windowAt := p.fault.windowAt.filter (fun x => onAux x.1) }
    ces := [], qm := QmSt.initial, xl := XlSt.initial, home := HomeSt.initial, memc := MemSt.initial, harts := []
    aplic := [], hl := HlSt.initial, rt := RouterSt.initial, int := IntSt.initial
    pace := { p.pace with beats := [], frac := [] }
    pwr := { p.pwr with
      railMv := [], natural := [], haltSince := [], okSince := [], meanFrom := [], gateSet := 0, gateClosed := false, wanted := []
      demands := [], thermScale := [], scaledAt := [], overSince := none, heldReady := [], holdCause := 0 }
    seq := { SeqSt.initial with climbAfter := p.seq.climbAfter, perst := p.seq.perst, perstOut := p.seq.perstOut } }

/-! ## SV_SEQ_STATUS (Table 19-12) -/

def svSeq : Nat := key pgSv 0x100
def seqState (p : Pkg) : Nat := fld p svSeq 31 28
def seqStep (p : Pkg) : Nat := fld p svSeq 27 24
def seqTarget (p : Pkg) : Nat := fld p svSeq 23 22

/-- STATE and STEP take values; a change of STATE sets BLOCK bit 0, and each change pushes SEQ_STEP (Tables 20-2, 22-5). -/
def setSeq (p : Pkg) (state step : Nat) : Pkg :=
  if seqState p = state ∧ seqStep p = step then p
  else
    let p1 := setFld (setFld p svSeq 31 28 state) svSeq 27 24 step
    waypoint (if seqState p = state then p1 else raiseBlock p1 pgSv 0) pgSv 0x31 0 (state * 16 + step)

/-- Whether the next climb may begin (R663, R670): TRAY_FLOW_OK, and after a coolant loss or trip the conditions of R612. -/
def climbOk (p : Pkg) : Bool :=
  bit p pwrStatus 27 && (!p.seq.climbAfter ||
    (allCool p && !bit p pwrStatus 26 &&
      (match p.pwr.flowOkSince with | some t => decide (t + 1000000000 ≤ p.pace.datum) | none => false)))

/-- A rest point is left where the target asks for it; a climb that must wait shows FLOW_WAIT (R661, R668). -/
def leaveRest (p : Pkg) : Pkg :=
  let t := seqTarget p
  let climb (q : Pkg) : Pkg :=
    if climbOk q then setSeq (setBit { q with seq := { q.seq with climbAfter := false } } svSeq 20 false) 1 (seqStep q)
    else setBit q svSeq 20 true
  match seqState p with
  | 0 => if t = 0 then setBit p svSeq 20 false else climb p
  | 4 => if t = 2 then climb p else if t = 0 then setSeq p 3 (seqStep p) else setBit p svSeq 20 false
  | 2 => if t = 2 then p else setSeq p 3 (seqStep p)
  | _ => p

/-- R668: the target takes a value from a source (0 pin, 1 sideband, 2 event). Without a surveyor nothing moves (R680). -/
def setTarget (p : Pkg) (t source : Nat) : Pkg :=
  if p.boot.running.isSome then leaveRest (setFld (setFld p svSeq 23 22 t) svSeq 19 18 source) else p

def execPkgOnRise (s : State) : Out := .next (s.onPkg (fun p => setTarget (setBit p svSeq 21 true) 2 0))
def execPkgOnFall (s : State) : Out := .next (s.onPkg (fun p => setTarget (setBit p svSeq 21 false) 0 0))

/-! ## Climbing step 1 (R675, R679 to R681, R168, R649) -/

def svBoot : Nat := key pgSv 0x104

/-- R680: the slot that starts: the active one, else the other; its number; none where the directory fails (R678). -/
def bootSlot (p : Pkg) : Option (Nat × ImageInfo) :=
  let of (n : Nat) : Option ImageInfo := if n = 0 then p.boot.slotA else p.boot.slotB
  let good (n : Nat) : Option (Nat × ImageInfo) :=
    match of n with
    | some i => if dirOk p.boot.dir = true ∧ surveyorResult p i = 0 then some (n, i) else none
    | none => none
  match good p.boot.activeSlot with
  | some x => some x
  | none => good (1 - p.boot.activeSlot)

/-- The surveyor READY: its pages, the datum, and the pages that it hands over (R603, R650). -/
def surveyorUp (p : Pkg) : Pkg :=
  let p1 := [pgSv, pgPwr, pgDt, pgFb, pgOps].foldl (fun q pg => setReady q pg true)
    { p with pace := { p.pace with running := true } }
  let p2 := setOwner p1 1 2
  let p3 := if p.standalone then p2 else setOwner p2 2 3
  setOwner p3 3 (resetOwner 0x08 p.standalone)

/-- R168: an entry that a power loss left with unprogrammed fuses is completed. -/
def fbResolve (p : Pkg) : Pkg :=
  match p.fuse.unfinished with
  | some r => { p with fuse := { fbProgram p.fuse r with unfinished := none } }
  | none => p

/-- R649: a power loss noted in boot flash is logged. -/
def logLoss (p : Pkg) : Pkg :=
  match p.boot.lossNoted with
  | some n => { logErr p pgPwr ⟨0x74, 0, 0, 0, n⟩ with boot := { p.boot with lossNoted := none } }
  | none => p

/-- Step 1: the boot ROM starts the surveyor, or fails, and the package stays at AUX. -/
def bootStart (p : Pkg) : Pkg :=
  match bootSlot p with
  | none => { p with boot := { p.boot with failed := true } }
  | some (n, img) =>
    let p1 := surveyorUp { p with boot := { p.boot with running := some img } }
    let v := bitNat (n == 1) * 2 ^ 31 + bitNat (n != p.boot.activeSlot) * 2 ^ 30 + 0xF * 2 ^ 24 + img.secVersion % 256 * 2 ^ 16
    let p2 := showVersions (setBit (setReg p1 svBoot (BitVec.ofNat 64 v)) updStatus 29 (p.boot.activeSlot == 1))
    keyRequests (logLoss (fbResolve p2)) img

/-- R675: what a cold power-up keeps: fuses and field book, boot flash, the part. -/
def coldPkg (p : Pkg) : Pkg :=
  { Pkg.initial with
    part := p.part, standalone := p.fuse.personality == 1, fuse := p.fuse, out := p.out, free := p.free
    seq := { SeqSt.initial with perst := p.seq.perst }
    pwr := { PwrSt.initial with flowOkSince := some 0 }
    boot := { BootSt.initial with
      slotA := p.boot.slotA, slotB := p.boot.slotB, activeSlot := p.boot.activeSlot, powerUps := p.boot.powerUps,
      lossNoted := p.boot.lossNoted, flashOwner := p.boot.flashOwner, dir := p.boot.dir } }

/-- AUX_PWRGD rises; the operands are the flash's directory and the images of its two slots, as they stand then. While the board
holds the flash the boot ROM waits (R722). -/
def execColdPowerUp (dir : FlashDir) (slots : FlashSlots) (s : State) : Out :=
  if s.pkg.boot.started then .next s
  else
    let p := coldPkg s.pkg
    let p1 := { p with boot := { p.boot with
      slotA := some slots.slotA, slotB := some slots.slotB, started := true, dir := dir, readMode := fastestMode dir } }
    .next { s with mem := s.mem.hostOnly, pkg := if p1.boot.flashOwner = 0 then bootStart p1 else p1 }

/-! ## Climbing steps 2 to 6 (Table 19-2) -/

/-- Pages of blocks that step 4 surveys. -/
def surveyPages : List Nat :=
  [pgQm, pgXl] ++ (List.range 12).map pgCc ++ (List.range 5).map pgTr ++ (List.range 32).map pgQd ++
    (List.range 256).map pgSl ++
    (List.range 4).flatMap (fun s => (List.range 200).map (fun i => pgCe (256 * s + i)))

/-- A block's ring begins with RESET, cause 2, at a package power-up (Table 20-2). -/
def powerUpMarks (p : Pkg) (pgs : List Nat) : Pkg := pgs.foldl (fun q pg => waypoint q pg 0x03 0 2) p

/-- Step 2, the package power-up (R664): the count, the pending personality, the reset; link rails and link-die pages. -/
def climb2 (s : State) : State :=
  let p := offAux s.pkg
  let p1 := setPwrState (setReg p (key pgPwr 0x124) 0) 0
  let p2 := (List.range 4).foldl (fun q n => setBit q (key pgPwr (0x210 + 4 * n)) 31 false) p1
  let p3 := { p2 with
    standalone := p.fuse.personality == 1
    boot := { p.boot with powerUps := p.boot.powerUps + 1 }
    seq := { p2.seq with railEnLink := true, railPgLink := true, perstOut := p.fuse.personality == 1 } }
  let p4 := powerUpMarks p3 (blockPages.filter (fun pg => !onAux pg))
  let p5 := (List.range 6).foldl (fun q i => if cable q i then setPlState q i 1 else q) p4
  { s with mem := s.mem.hostOnly, pkg := ([pgRt] ++ (List.range 6).map pgPl).foldl becomeReady p5 }

/-- Step 3: the core rails at 0.75 V, die resets released, bridges trained. -/
def climb3 (p : Pkg) : Pkg :=
  let p1 := (List.range 5).foldl (fun q r => setDie q r 750 (tjOf q r) 0)
    { p with seq := { p.seq with railEnCore := true, railPgCore := true, dieReset := false } }
  let p2 := (List.range 5).foldl (fun q r => setFld (setBit q (railKey r) 31 true) (railKey r) 30 21 750) p1
  ((List.range 4).map pgMer ++ (List.range 4).map pgGrt ++ [pgHl]).foldl becomeReady p2

/-- A CE that the field book retires: RETIRED, never surveyed (R630). -/
def bookRetired (p : Pkg) (pg : Nat) : Bool :=
  decide (classOf pg = 0x01) &&
    (let n := 256 * ((pg - 0x1000) / 0x200) + (pg - 0x1000) % 0x200
     (ceMask p.fuse (ceQd n)).testBit (cePos n))

/-- Step 4 after a package power-up: QD_CE_ACTIVE and SPARE from the fuses, surveys and trainings started. -/
def climb4 (p : Pkg) : Pkg :=
  let p1 := (List.range 32).foldl (fun q d =>
    setReg (setReg q (key (pgQd d) 0x100) (BitVec.ofNat 64 (fusedActive p d))) (key (pgQd d) 0x104)
      (BitVec.ofNat 64 (fusedSpare p d))) p
  surveyPages.foldl (fun q pg => if bookRetired q pg then setBit q (key pg 8) 3 true else startSurvey q pg) p1

/-- Step 4 from QUIESCED: rails, gate and memories return, and abandoned surveys start afresh (R665, R666). In safe hold
rails, gate and memories wait for the resume (R613). -/
def climbBack4 (p : Pkg) : Pkg :=
  let p1 := if inHold p then p else returnReady (wake p)
  p1.seq.resurvey.foldl startSurvey { p1 with seq := { p1.seq with resurvey := [] } }

/-- Harts that a release starts: those that passed their survey (R438). -/
def releasable (p : Pkg) : List Nat :=
  (List.range 48).filter (fun h => hartState p h == 0 && !surveying p (pgCc (h / 4)))

def imageBase : Nat := 0x10000

/-- The bytes of the hand-off block but its CRC, as a number (Table 12-4). -/
def handoffBytes (p : Pkg) (img : ImageInfo) (harts : List Nat) : Nat :=
  let mask := harts.foldl (fun n h => n + 2 ^ h) 0
  0x56470001 + 2 ^ 32 * 1 + 2 ^ 40 * bitNat p.standalone + 2 ^ 48 * harts.headD 0 + 2 ^ 64 * mask +
    2 ^ 128 * (if p.memc.ddrPhase = 1 then p.ddrBytes else 0) + 2 ^ 192 * (8 * (hbmPerSheet p / 2)) +
    2 ^ 256 * (p.pace.datum % 2 ^ 64) + 2 ^ 320 * (imageBase + img.entry) + 2 ^ 384 * imageBase +
    2 ^ 448 * (img.bodySize % 2 ^ 32) + 2 ^ 480 * (p.boot.powerUps % 2 ^ 32) + 2 ^ 512 * versionOf p.boot.running +
    2 ^ 544 * SMap.get p.pwr.natural 4 0 + 2 ^ 576 * ctlBase

/-- The CRC of the hand-off block follows its first 252 bytes. -/
def sealHandoff (m : Memory) : Memory := m.write 252 4 (crc32 ((List.range 252).map (fun i => (m.byte i).toNat)))

/-- The result of the checks of the kernel image of the personality in effect (R682). -/
def kernelResult (p : Pkg) (i : ImageInfo) : Nat := imageResult p.fuse (if p.standalone then 3 else 2) 16711680 i

/-- Step 5 after a package power-up: the kernel image is checked; where it passes, the hand-off block is written and the
harts are released in one instant, and their clusters become READY (R438, R682). -/
def climb5 (img : ImageInfo) (s : State) : State :=
  let p := setFld s.pkg svBoot 27 24 (kernelResult s.pkg img)
  let p0 := { p with seq := { p.seq with step5Done := true } }
  if kernelResult s.pkg img ≠ 0 then { s with pkg := p0 }
  else
    let hs := releasable p0
    let p1 := setFld p0 svBoot 15 8 img.secVersion
    let p2 := hs.foldl (fun q h => startHart q h (imageBase + img.entry) 0) p1
    let up := (List.range 12).filter (fun k => !surveying p2 (pgCc k))
    { s with
      mem := sealHandoff (s.mem.store 0 252 (handoffBytes p1 img hs))
      pkg := up.foldl (fun q k => becomeReady q (pgCc k)) p2 }

/-- Step 5 from QUIESCED: harts continue where they stopped. -/
def climbBack5 (p : Pkg) : Pkg :=
  p.seq.heldHarts.foldl (fun q x => setHartState q x.1 x.2) { p with seq := { p.seq with heldHarts := [] } }

/-- The climbing step after the one whose action stands. -/
def climbAct (img : ImageInfo) (s : State) : State :=
  let p := s.pkg
  match seqStep p with
  | 1 => climb2 s
  | 2 => { s with pkg := climb3 p }
  | 3 => if p.pwr.gateClosed then { s with pkg := if p.seq.step5Done then climbBack4 p else climb4 (climbBack4 p) }
         else { s with pkg := climb4 p }
  | 4 => if p.seq.step5Done then { s with pkg := climbBack5 p } else climb5 img s
  | _ => if inHold p then s else { s with pkg := portsLight p }

/-- The end of a climbing step n (R669, R670): the target is compared, and the way goes on, down, or rests at RUN. -/
def climbEnd (n : Nat) (p : Pkg) : Pkg :=
  if p.seq.climbAfter && !p.seq.step5Done then setSeq p 3 n
  else if seqTarget p = 0 then setSeq p 3 n
  else if n < 6 then setSeq p 1 n
  else leaveRest (setSeq p 2 n)

/-- R662: a climbing step completes; `kernelImg` is the kernel image of the personality in effect, for step 5. While the
board holds the flash, step 2 is not done (R722). -/
def execSequencerStep (kernelImg : ImageInfo) (s : State) : Out :=
  let s1 := if seqState s.pkg = 0 ∨ seqState s.pkg = 4 then s.onPkg leaveRest else s
  if seqState s1.pkg ≠ 1 ∨ (seqStep s1.pkg = 1 ∧ s1.pkg.boot.flashOwner ≠ 0) then .next s1
  else
    let n := seqStep s1.pkg + 1
    .next ((climbAct kernelImg s1).onPkg (climbEnd n))

/-! ## Trainings (R395, R440, R672) -/

/-- A stack's initialisation and training end: its page becomes READY. -/
def doHbmTrainingDone (stack : Nat) (p : Pkg) : Pkg :=
  if stack < 8 ∧ p.seq.railPgCore = true ∧ 4 ≤ seqStep p ∧ seqState p ≠ 4 then
    becomeReady (restartPaths p (pgHbm stack)) (pgHbm stack)
  else p

def execHbmTrainingDone (stack : Nat) (s : State) : Out := .next (s.onPkg (doHbmTrainingDone stack))

/-- Whether a channel's population is a row of Table 11-6. -/
def ddrRowOk (c : DdrChannel) : Bool :=
  (c.dimms == 1 || c.dimms == 2) && (c.gib == 32 || c.gib == 48 || c.gib == 64 || c.gib == 96 || c.gib == 128)

def samePop (a b : DdrChannel) : Bool := a.dimms == b.dimms && a.partNo == b.partNo && a.gib == b.gib

/-- R395: the reference population: the one of the most channels, on a tie that of the lowest-numbered channel. -/
def refPop (l : List DdrChannel) : DdrChannel :=
  let n (c : DdrChannel) : Nat := (l.filter (samePop c)).length
  l.foldl (fun best c => if n best < n c then c else best) (l.headD ⟨0, 0, 0, false⟩)

/-- The channels that did not fail. -/
def goodChans (l : List DdrChannel) : List Nat :=
  (l.zipIdx.filter (fun x => x.1.trained && ddrRowOk x.1 && samePop (refPop l) x.1)).map (·.2)

/-- Which channels come up: 0 all eight, 1 the half 0 to 3, 2 the half 4 to 7, 3 none. -/
def ddrOutcome (l : List DdrChannel) : Nat :=
  let ok (i : Nat) : Bool := (goodChans l).contains i
  if (List.range 8).all ok then 0
  else if (List.range 4).all ok then 1
  else if (List.range 4).all (fun i => ok (4 + i)) then 2
  else 3

/-- A channel's DDR_GEOMETRY (Table 11-19). -/
def ddrGeometry (c : DdrChannel) (inter : Nat) : Nat :=
  c.gib % 256 * 2 ^ 16 + c.dimms % 4 * 2 ^ 14 + inter * 2 ^ 12 + (if inter = 0 then 0 else 0x40)

/-- A channel's page after training: READY in a half that came up, FAULT in the other. -/
def ddrPageUp (l : List DdrChannel) (o : Nat) (q : Pkg) (c : Nat) : Pkg :=
  let ch := l.getD c ⟨0, 0, 0, false⟩
  let up := o = 0 ∨ (o = 1 ∧ c < 4) ∨ (o = 2 ∧ 4 ≤ c)
  let q1 := setReg q (key (pgDdr c) 0x100) (BitVec.ofNat 64 (ddrGeometry ch (if o = 0 then 2 else if o = 3 then 0 else 1)))
  if up then becomeReady (restartPaths q1 (pgDdr c)) (pgDdr c)
  else if o = 3 then q1 else setBit q1 (key (pgDdr c) 8) 2 true

/-- The boot-region lines as ordinary lines: DDR_BYTES and the CRC of a hand-off block already written are rewritten. -/
def handoffDdr (s : State) : State :=
  if s.pkg.seq.step5Done && decide (fld s.pkg svBoot 27 24 = 0) then
    { s with mem := sealHandoff (s.mem.store 16 8 s.pkg.ddrBytes) }
  else s

def execDdrTrainingDone (l : List DdrChannel) (s : State) : Out :=
  let p := s.pkg
  if l.length ≠ 8 ∨ p.memc.ddrPhase ≠ 0 ∨ p.seq.railPgCore = false ∨ seqStep p < 4 ∨ seqState p = 4 then .next s
  else
    let o := ddrOutcome l
    let r := refPop l
    let bytes := if o = 3 then 0 else (if o = 0 then 8 else 4) * r.dimms * r.gib * 2 ^ 30
    let p1 := { p with ddrBytes := bytes, memc := { p.memc with ddrPhase := if o = 3 then 2 else 1, ddrHalf := o % 3 } }
    let s1 := { s with pkg := (List.range 8).foldl (ddrPageUp l o) p1 }
    .next (if o = 3 then s1 else handoffDdr s1)

/-! ## Losses of power (R671, R749) -/

/-- R168: what a power loss leaves of the field-book request in progress: nothing, an entry whose fuses are unprogrammed, or a
void entry; which, is a free value. -/
def fbCut (p : Pkg) : Pkg :=
  let none' : FuseSt := { p.fuse with requests := [], serving := false }
  match p.fuse.requests, p.fuse.serving with
  | r :: _, true =>
    let k := (Config.freeWord p.free).toNat % 3
    let f : FuseSt := if k = 0 then none'
      else if k = 1 then { none' with entries := p.fuse.entries ++ [fbEntryOf p r false], unfinished := some r }
      else { none' with entries := p.fuse.entries ++ [fbEntryOf p r true] }
    { nextFree p with fuse := f }
  | _, _ => { p with fuse := none' }

/-- R671, R649: AUX_PWRGD falls: every state but the field book, boot flash and fuses is lost; with VDD_AUX held for 2 ms the
surveyor notes the loss. -/
def execPowerLoss (auxHeld : Bool) (s : State) : Out :=
  if s.pkg.boot.started then
    let p := fbCut s.pkg
    let note := if auxHeld && p.boot.running.isSome then some p.boot.powerUps else p.boot.lossNoted
    let p1 := coldPkg { p with boot := { p.boot with lossNoted := note } }
    .next { s with mem := s.mem.hostOnly, pkg := { p1 with pwr := PwrSt.initial } }
  else .next s

/-- R749: POWER_LOSS is logged, the rails go without the orderly steps, and the package waits at AUX. -/
def railsGone (p : Pkg) : Pkg :=
  let p1 := setFld (setFld (offAux p) svSeq 23 22 0) svSeq 19 18 2
  setPwrState (setBit (setSeq p1 0 1) svSeq 20 false) 0

def railLoss (s : State) : State :=
  { s with mem := s.mem.hostOnly, pkg := railsGone (logErr s.pkg pgPwr ⟨0x74, 0, 0, 0, s.pkg.boot.powerUps⟩) }

/-- Causes: 0 RAIL_PG_LINK falls, 1 RAIL_PG_CORE falls, 2 a halt of more than 10 ms, 3 a sheet rail below 0.45 V; a power
good is watched while its enable is asserted. -/
def execRailLoss (cause : Nat) (s : State) : Out :=
  let q := s.pkg.seq
  let late := (List.range 4).any (fun n =>
    halted s.pkg n && decide (SMap.get s.pkg.pwr.haltSince n 0 + 10000000 < s.pkg.pace.datum))
  let low := (List.range 4).any (fun n => decide (railOf s.pkg n < 450))
  if (cause = 0 ∧ q.railEnLink = true) ∨ (cause = 1 ∧ q.railEnCore = true) ∨
      (cause = 2 ∧ late = true) ∨ (cause = 3 ∧ q.railEnCore = true ∧ low = true) then .next (railLoss s)
  else .next s

/-! ## The flash bus (R722) -/

def doFlashRequest (p : Pkg) : Pkg := { p with boot := { p.boot with flashOwner := 1 } }
def execFlashRequest (s : State) : Out := .next (s.onPkg doFlashRequest)

/-- The link die takes the bus back; a boot ROM start that waited for it goes on. -/
def doFlashRelease (p : Pkg) : Pkg :=
  let p1 := { p with boot := { p.boot with flashOwner := 0 } }
  if p.boot.flashOwner ≠ 0 ∧ p.boot.started = true ∧ p.boot.running = none ∧ p.boot.failed = false then bootStart p1
  else p1

def execFlashRelease (s : State) : Out := .next (s.onPkg doFlashRelease)

end Sys2Proof.Machine
end

