-- ==== Sys2Proof/Machine/Views.lean ====
section
/-! DEFINITION. What a register reads as (spec/04 R36, R128 to R142, R148, spec/22): the stored value, or the value of the unit
that is the register's home. A register with a side effect on its read is in Machine/Access.lean. -/

namespace Sys2Proof.Machine

/-! ## Common registers -/

/-- PAGE_LEGEND (Table 4-2) of a present page: GEN 1, MAJOR 1, MINOR 1. -/
def pageLegend (pi : PageInfo) : Nat := pi.cls * 2 ^ 24 + pi.inst * 2 ^ 16 + 0x1101

/-- PAGE_EXTENT (Table 4-3). -/
def pageExtent (pi : PageInfo) : Nat := pi.die * 2 ^ 28 + pi.index * 2 ^ 16 + (if pi.index = 0 then pi.count else 0)

/-- PAGE_STATE: the block's bits [4:0] and the page's own OWNER (R128). -/
def pageState (p : Pkg) (pg : Nat) : Nat :=
  let k := key (firstPage pg) 8
  fld p k 4 2 * 4 + bitNat (busy p pg) * 2 + fld p k 0 0 * bitNat (enabled p pg || busy p pg) + owner p pg * 256

/-- A register of the common part; pops read as the not-valid word here. -/
def commonRead (p : Pkg) (pi : PageInfo) (pg o : Nat) : W64 :=
  if o = 0 then BitVec.ofNat 64 (pageLegend pi)
  else if o = 4 then BitVec.ofNat 64 (pageExtent pi)
  else if o = 8 then BitVec.ofNat 64 (pageState p pg)
  else if o = 0xC then (if pi.index = 0 then reg p (key pg 0xC) else 0)
  else if o = 0x18 ∨ o = 0x30 then notValid (queue p (key pg o))
  else if o = 0xFF0 then (queue p (key pg 0x18)).status 32
  else if o = 0xFF8 then (queue p (key pg 0x30)).status 64
  else reg p (key pg o)

/-! ## Field book page (Tables 4-13, 4-14) -/

/-- Bytes 0 to 27 of an entry as a number. -/
def fbBody (e : FbEntry) : Nat :=
  e.datum % 2 ^ 64 + e.powerUp % 2 ^ 32 * 2 ^ 64 + e.setting % 2 ^ 16 * 2 ^ 96 + e.requester % 256 * 2 ^ 112 +
    e.reason % 256 * 2 ^ 120 + e.old % 2 ^ 32 * 2 ^ 128 + e.new % 2 ^ 32 * 2 ^ 160 + e.inst % 2 ^ 16 * 2 ^ 192

/-- The CRC of entry i; a void entry holds one that does not fit, whose value the spec leaves open. -/
def fbCrc (i : Nat) (e : FbEntry) : Nat :=
  let good := crc32 ((List.range 28).map (fun k => fbBody e / 2 ^ (8 * k) % 256))
  if e.void then (let bad := (Config.digest 1 i).toNat % 2 ^ 32; if bad = good then good ^^^ 1 else bad) else good

/-- The 8 bytes of FB_ENTRY from byte 8 × j on. -/
def fbEntryWord (p : Pkg) (j : Nat) : W64 :=
  let i := fld p (key pgFb 0x11C) 7 0
  match p.fuse.entries.drop i with
  | e :: _ => BitVec.ofNat 64 ((fbBody e + fbCrc i e * 2 ^ 224) / 2 ^ (64 * j))
  | [] => 0

/-- FB_REMAINING. -/
def fbRemaining (f : FuseSt) : Nat :=
  (4 - f.persChanges) + (f.ceiling - 450) / 25 * 8 + (8 - countOnes f.keyRevoked 8) * 256 + bitNat (!f.debugLock) * 4096

def fbView (p : Pkg) (o : Nat) : Option Nat :=
  if o = 0x100 then some p.fuse.personality
  else if o = 0x104 then some p.fuse.ceiling
  else if o = 0x108 then some (bitNat p.fuse.debugLock)
  else if o = 0x114 then some (fbRemaining p.fuse)
  else if o = 0x118 then some p.fuse.entries.length
  else if 0x120 ≤ o ∧ o < 0x140 then some (fbEntryWord p ((o - 0x120) / 8)).toNat
  else none

/-! ## Compute engines, quadrangles, slices, memory controllers -/

/-- CE_SLOT_INFOn (Table 5-15). -/
def slotInfo (s : Slot) : Nat :=
  s.state % 4 * 2 ^ 30 + bitNat s.superseded * 2 ^ 29 + bitNat s.pendingShadow * 2 ^ 28 + s.chart.version % 256 * 2 ^ 16 +
    s.chart.size / 16 % 2 ^ 13

def ceView (p : Pkg) (n o : Nat) : Option Nat :=
  let c := ce p n
  if 0x120 ≤ o ∧ o < 0x160 then
    let s := slot c ((o - 0x120) / 16)
    some (if o % 16 = 0 then s.handle.toNat else slotInfo s)
  else if 0x200 ≤ o ∧ o < 0x280 then
    let s := slot c (fld p (key (pgCe n) 0x11C) 1 0)
    some (SMap.get (if s.pendingShadow then s.shadow else s.params) ((o - 0x200) / 8) 0).toNat
  else none

/-- QD_CE_RETIRE: the retired positions and the sheet's records (Table 18-9). -/
def ceRetireView (p : Pkg) (qd : Nat) : Nat :=
  ceMask p.fuse qd + min 8 (SMap.get p.fuse.ceRecords (qd / 8) 0) * 2 ^ 28

def slView (p : Pkg) (sl o : Nat) : Option Nat :=
  let k := key (pgQd (sl / 8)) 0x180
  if o = 0x104 then
    some (fld p k 20 16 * 2 ^ 27 + bitNat (bit p k 31) * 2 ^ 26 + min 64 (watchesAt p sl).length * 2 ^ 16 +
      fld p (key (pgSl sl) 0x104) 15 0)
  else if o = 0x10C then some (min 511 (pendingAt p sl))
  else none

def hbmGeometry (p : Pkg) : Nat := if p.part = 512 then 0x00204080 else 0x00202000

/-! ## Host link (Tables 15-7, 15-8) -/

def hlView (p : Pkg) (o : Nat) : Option Nat :=
  if o = 0x100 then
    some (fld p (key pgHl 0x100) 31 0 / 2 ^ 29 * 2 ^ 29 +
      bitNat (p.hl.streams.any (fun (x : Nat × IdeStream) => x.2.secure)) * 2 ^ 28 +
      fld p (key pgHl 0x100) 27 1 * 2 + bitNat p.standalone)
  else if o = 0x108 then some (bitNat p.standalone + 2 * p.fuse.personality)
  else if p.standalone ∧ 0x110 ≤ o ∧ o < 0x12C then some 0
  else if p.standalone = false ∧ 0x140 ≤ o ∧ o < 0x170 then some 0
  else if o = 0x154 ∨ o = 0x160 then some 0
  else if o = 0x418 then some ((queue p (key pgHl 0x410)).status 64).toNat
  else none

/-! ## Ports and router -/

/-- PL_LANE_RETIRE_TX and RX. -/
def laneRetireView (p : Pkg) (inst : Nat) : Nat := laneMask p.fuse inst + min 7 (SMap.get p.fuse.laneRecords inst 0) * 2 ^ 12

/-- Accesses in flight through a landing entry (R491). -/
def inFlight (p : Pkg) (r : Nat) : Nat := min 65535 (p.rt.landed.filter (fun x => x.1.window == r)).length

def rtView (p : Pkg) (idx pg o : Nat) : Option Nat :=
  if idx = 0 then
    if o = 0x114 then some (SMap.get p.rt.bearing (fld p (key pgRt 0x110) 13 0) 0x1FF) else none
  else if idx ≤ 5 then
    let r := 240 * (idx - 1) + (o - 0x100) / 16
    if r = 0 then some (if o % 16 = 0 then 2 ^ 63 + 2 ^ 61 else 0)
    else if o % 16 = 8 then some (fld p (key pg o) 47 0 + inFlight p r * 2 ^ 48)
    else none
  else none

/-! ## Surveyor and power controller -/

def readyBit (p : Pkg) (pg : Nat) : Nat := bitNat (present p pg && ready p pg)

/-- Bits of a run of blocks, bit i for the i-th. -/
def readyBits (p : Pkg) (pgs : List Nat) : Nat := pgs.foldr (fun pg n => readyBit p pg + 2 * n) 0

def cePages : List Nat := (List.range 4).flatMap (fun s => (List.range 200).map (fun i => pgCe (256 * s + i)))

/-- SV_READY_MAP (Table 19-13). -/
def readyMap (p : Pkg) : Nat :=
  readyBits p ((List.range 8).map pgHbm) + readyBits p ((List.range 8).map pgDdr) * 2 ^ 8 +
    readyBits p ((List.range 12).map pgCc) * 2 ^ 16 + readyBits p ((List.range 4).map pgMer) * 2 ^ 28 +
    readyBits p ((List.range 4).map pgGrt) * 2 ^ 32 + fld p (key pgRt 0x130) 5 0 * 2 ^ 36 + readyBit p pgHl * 2 ^ 42 +
    readyBit p pgQm * 2 ^ 43 + readyBit p pgXl * 2 ^ 44 + readyBit p pgRt * 2 ^ 45 +
    bitNat (p.hl.answering && !p.hl.flr) * 2 ^ 46 + (cePages.filter (fun pg => present p pg && ready p pg)).length * 2 ^ 48

def svView (p : Pkg) (idx o : Nat) : Option Nat :=
  if idx ≠ 0 then none
  else if o = 0x104 then some (fld p (key pgSv 0x104) 31 8 * 256 + p.fuse.keyRevoked % 256)
  else if o = 0x108 then some (min 0xFFFFFFFF p.boot.powerUps)
  else if o = 0x110 then some (readyMap p)
  else if 0x140 ≤ o ∧ o < 0x160 then some (bitNat (p.fuse.keyRevoked.testBit ((o - 0x140) / 4)))
  else none

def pwrView (p : Pkg) (o : Nat) : Option Nat :=
  if o = 0x240 then some p.fuse.ceiling
  else if o = 0x250 then some (effective p 0)
  else if o = 0x270 then some (effective p 1)
  else if o = 0x290 then some (effective p 2)
  else if o = 0x2A4 then some p.pwr.contours.length
  else none

/-! ## Operator signals (R717, R718, Table 21-12) -/

/-- OPS_STATUS.LAMP: the first row of Table 21-5 whose condition holds. -/
def lampCode (p : Pkg) : Nat :=
  let st := fld p (key pgSv 0x100) 31 28
  if !p.boot.started then 0
  else if p.boot.failed then 1
  else if fld p (key pgPwr 0x100) 31 28 ≠ 0 ∨ bit p (key pgPwr 0x100) 26 = true then 2
  else if bit p (key pgOps 0x104) 0 then 3
  else if st = 1 ∨ st = 3 then 4
  else if st = 0 ∨ st = 4 then 5
  else 6

def opsView (p : Pkg) (o : Nat) : Option Nat :=
  if o = 0x100 then some (fld p (key pgOps 0x100) 31 3 * 8 + lampCode p) else none

/-! ## Queue manager and translation unit -/

/-- Commands accepted and not completed, of one context or of all. -/
def inFlightCmds (p : Pkg) (ctx : Option Nat) : Nat :=
  (p.qm.cmds.filter (fun x => x.2.acceptOrder != 0 && x.2.phase != .translating && x.2.phase != .trailing && (ctx.isNone || some x.2.ctx == ctx))).length

def qmView (p : Pkg) (idx o : Nat) : Option Nat :=
  if idx = 0 then
    if o = 0x100 then
      some (min 65535 (p.qm.cmds.filter (fun x => x.2.phase == .preempted)).length * 2 ^ 16 + min 65535 (inFlightCmds p none))
    else if o = 0x110 then some ((queue p (key pgQm 0x108)).status 64).toNat
    else if o = 0x108 then some (notValid (queue p (key pgQm 0x108))).toNat
    else none
  else if idx ≤ 16 ∧ o = 0x108 then some (inFlightCmds p (some (idx - 1)))
  else none

/-- Accepted commands that hold a translation of the inset window (R480). -/
def insetHolders (p : Pkg) : Nat :=
  (p.qm.cmds.filter (fun x => x.2.phase != .translating && x.2.phase != .finished && x.2.pages.any (fun y => y.2.inset))).length

def xlView (p : Pkg) (idx o : Nat) : Option Nat :=
  if idx ≠ 0 then none
  else if o = 0x100 then some (bitNat (bit p (key pgXl 0x100) 31) * 2 ^ 31 + (ctsUsed p).length % 2 ^ 24)
  else if o = 0x120 then some (notValid (queue p (key pgXl 0x120))).toNat
  else if o = 0x128 then some ((queue p (key pgXl 0x120)).status 64).toNat
  else if o = 0x138 then some (insetHolders p)
  else none

/-! ## All registers -/

/-- The value of a block-specific register whose home is not the register map. -/
def viewOf (p : Pkg) (pi : PageInfo) (pg o : Nat) : Option Nat :=
  match pi.cls with
  | 0x01 => ceView p (256 * pi.die + pi.inst) o
  | 0x02 => if o = 0x108 then some (ceRetireView p (8 * pi.die + pi.inst))
            else if 0x1C0 ≤ o ∧ pi.inst ≠ 0 then some 0 else none
  | 0x03 => slView p (64 * pi.die + pi.inst) o
  | 0x04 => if o = 0x100 then some (hbmGeometry p)
            else if o = 0x190 then some (notValid (queue p (key pg 0x190))).toNat
            else if o = 0x198 then some ((queue p (key pg 0x190)).status 64).toNat else none
  | 0x08 => if o = 0x410 then some (notValid (queue p (key pg 0x410))).toNat else hlView p o
  | 0x09 => if o = 0x118 ∨ o = 0x11C then some (laneRetireView p (2 * pi.inst + (o - 0x118) / 4)) else none
  | 0x0A => rtView p pi.index pg o
  | 0x0B => svView p pi.index o
  | 0x0C => pwrView p o
  | 0x0D => qmView p pi.index o
  | 0x0E => xlView p pi.index o
  | 0x0F => if pi.index = 0 ∧ (o = 0x108 ∨ o = 0x10C) ∧ pi.inst ≠ 0 then some 0
            else if pi.index = 0 ∧ o = 0x10C then some (apRead p (apIndex p)).toNat else none
  | 0x10 => if o = 0x100 then some p.pace.datum else none
  | 0x11 => fbView p o
  | 0x13 => opsView p o
  | _ => none

/-- Registers whose reset value is fused or per part, which they show before READY too. -/
def isFused (pi : PageInfo) (o : Nat) : Bool :=
  (pi.cls == 0x02 && o == 0x108) || (pi.cls == 0x04 && o == 0x100) || (pi.cls == 0x09 && (o == 0x118 || o == 0x11C)) ||
    (pi.cls == 0x08 && (o == 0x108)) || (pi.cls == 0x0C && o == 0x240) || (pi.cls == 0x0B && pi.index == 0) || pi.cls == 0x11

/-- Registers that are read before READY: the doorbell pages (R52). -/
def readsEarly (pi : PageInfo) : Bool := pi.cls == 0x0D && decide (17 ≤ pi.index)

/-- The value of the register that begins at a key: an absent page and a reserved offset read 0 (R36, R139); before READY a
block-specific register reads its reset value (R142). -/
def readReg (p : Pkg) (k : Nat) : W64 :=
  let pg := k / 0x1000
  let o := k % 0x1000
  match pageInfo pg with
  | none => 0
  | some pi =>
    if !present p pg || (regRow k).isNone then 0
    else if o < 0x100 ∨ (pi.index = 0 ∧ 0xFF0 ≤ o) then commonRead p pi pg o
    else if !ready p pg && !isFused pi o && !readsEarly pi then regReset p k
    else match viewOf p pi pg o with
      | some v => BitVec.ofNat 64 v
      | none => reg p k

/-- The value that a read of `bytes` bytes at an aperture offset returns, without the side effects of some reads: a 64-bit read
of two 32-bit registers returns both. -/
def readAt (p : Pkg) (off bytes : Nat) : W64 :=
  let half (a : Nat) : Nat :=
    match regRow a with
    | some (_, k) => (readReg p k).toNat / 2 ^ (8 * (a - k)) % 2 ^ 32
    | none => 0
  if bytes = 8 then BitVec.ofNat 64 (half off + half (off + 4) * 2 ^ 32) else BitVec.ofNat 64 (half off)

end Sys2Proof.Machine
end

