-- ==== Sys2Proof/Machine/HostLink.lean ====
section
/-! DEFINITION. The host link (spec/15): training and modes, the function's configuration space, the inset window and its moves,
FLR and the conventional resets, LTR, the root port of the standalone personality, SPDM and IDE. -/

namespace Sys2Proof.Machine

def hlStatus : Nat := key pgHl 0x100
/-- HL_LINK_STATUS.MODE: 0 down, 1 PCIe, 2 CXL 2.0, 3 CXL 3.1. -/
def hlMode (p : Pkg) : Nat := fld p hlStatus 31 30

/-- The link takes a mode, rate and width; a change sets BLOCK bit 1, and a change of bits [31:24] pushes STATE_CHANGE. -/
def setLink (p : Pkg) (mode : Nat) (flit : Bool) (rate width : Nat) : Pkg :=
  let v := mode * 2 ^ 30 + bitNat flit * 2 ^ 29 + rate % 16 * 2 ^ 24 + width % 32 * 2 ^ 16
  if regN p hlStatus = v then p
  else
    let p1 := raiseBlock (setReg p hlStatus (BitVec.ofNat 64 v)) pgHl 1
    if fld p hlStatus 31 24 = v / 2 ^ 24 then p1 else waypoint p1 pgHl 0x07 0 (v / 2 ^ 24)

/-- Table 15-1: mode and flits by what the partner offers (0 no CXL, 2 CXL 2.0 only, 3 CXL 3.x) and the rate code. -/
def modeOf (cxl rate : Nat) : Option (Nat × Bool) :=
  if cxl = 0 then some (1, decide (rate = 6))
  else if rate < 5 then some (1, false)
  else if cxl = 3 then some (3, true)
  else if cxl = 2 ∧ rate = 5 then some (2, true)
  else none

/-- R499, R528: the link trains. A root port negotiates PCIe only. -/
def doLinkTraining (cxl rate width : Nat) (p : Pkg) : Pkg :=
  if ready p pgHl && hlMode p == 0 && decide (1 ≤ rate ∧ rate ≤ 6 ∧ 1 ≤ width ∧ width ≤ 16) then
    match modeOf (if p.standalone then 0 else cxl) rate with
    | some (mode, flit) =>
      setLink { setHl p { p.hl with upAt := p.pace.datum } with seq := { p.seq with perst := false } } mode flit rate width
    | none => p
  else p

def execLinkTraining (cxl rate width : Nat) (s : State) : Out := .next (s.onPkg (doLinkTraining cxl rate width))

/-- R500: a CXL link that would fall below 32 GT/s keeps 32 GT/s with at least four lanes, or goes down. -/
def doLinkRetrain (width : Nat) (kept : Bool) (p : Pkg) : Pkg :=
  if 2 ≤ hlMode p then
    if kept && decide (4 ≤ width ∧ width ≤ 16) then setLink p (hlMode p) true 5 width else setLink p 0 false 0 0
  else p

def execLinkRetrain (width : Nat) (kept : Bool) (s : State) : Out := .next (s.onPkg (doLinkRetrain width kept))

/-! ## Configuration space (R505, R506) -/

/-- The constant part of the endpoint's dwords, by offset. -/
def cfgHeader : List (Nat × Nat) :=
  [(0x000, 0x7A101FD4), (0x004, 0x00100000), (0x008, 0x12000010), (0x010, 4), (0x018, 4), (0x034, 0x40),
   (0x040, 0x00035001), (0x044, 8), (0x050, 0x8002B010), (0x054, 0x10008002), (0x05C, 0x00000106), (0x074, 0x00030800),
   (0x07C, 0x7E),   (0x0B0, 0x07FF0011), (0x0B4, 0x03FF7000), (0x0B8, 0x03FFF000)]

/-- The extended capabilities: header dwords in the order of Table 15-3, and their constant values. -/
def cfgExtended : List (Nat × Nat) :=
  [(0x100, 0x15020001), (0x150, 0x16010003), (0x160, 0x19010019), (0x190, 0x1A010025), (0x1A0, 0x1D010026),
   (0x1D0, 0x2001002A), (0x200, 0x23010031), (0x230, 0x28010027), (0x280, 0x2A010032), (0x2A0, 0x2B010018)] ++
  [(0x2B0, 0x2C01001B), (0x2B4, 0x00001404), (0x2C0, 0x2D01000F), (0x2C4, 0x60), (0x2D0, 0x2E010013), (0x2D8, 512),
   (0x2E0, 0x3001002E), (0x300, 0x38010030), (0x380, 0x3C010023), (0x384, 0x04001E98), (0x388, 0x00170000),
   (0x398, 0x10), (0x3C0, 0x3E010023), (0x3C4, 0x02001E98), (0x3C8, 0x20270007)] ++
  [(0x3E0, 0x40010023), (0x3E4, 0x02001E98), (0x3E8, 0x0008), (0x3F0, 0x00000102), (0x400, 0x41010023), (0x404, 0x01001E98),
   (0x408, 0x03010005), (0x410, 0x00010023), (0x414, 0x01001FD4), (0x418, 0x0001)]

/-- Writable bits of a dword; the error status registers of AER are write-one-to-clear. -/
def cfgMask : List (Nat × Nat) :=
  [(0x004, 0x0546), (0x00C, 0xFF), (0x010, 0xFC000000), (0x014, 0xFFFFFFFF), (0x018, 0xFFFF0000), (0x01C, 0xFFFFFFFF),
   (0x03C, 0xFF), (0x044, 3), (0x058, 0x7FFF), (0x060, 0xFFFF), (0x078, 0xFFFF), (0x080, 0xFFBF), (0x0B0, 0xC0000000),
   (0x108, 0xFFFFFFFF), (0x10C, 0xFFFFFFFF), (0x114, 0xFFFFFFFF)] ++
  [(0x118, 0x1FF), (0x2A4, 0x1FFF1FFF), (0x2B4, 0x00070000), (0x2C4, 0x801F0000), (0x2D4, 3), (0x2DC, 0xFFFFFFFF),
   (0x38C, 0xFFFF)]

def lookupN (l : List (Nat × Nat)) (k : Nat) : Nat :=
  match l.find? (fun x => x.1 == k) with
  | some x => x.2
  | none => 0

/-- Whether a non-posted request of the function is outstanding: a Translation Request, or in link mode 1 a read of host memory. -/
def pendingRequests (p : Pkg) : Bool :=
  !p.xl.requests.isEmpty || (hlMode p == 1 && p.ces.any (fun x => x.2.misses.any (fun m =>
    match region (64 * m.line) with | .host _ => true | _ => false)))

/-- A dword of the endpoint's configuration space. -/
def cfgDword (p : Pkg) (off : Nat) : W32 :=
  let o := off / 4 * 4
  let live : Nat :=
    if o = 0x2C then 0x1FD4 + Config.subsystemId % 65536 * 65536
    else if o = 0x58 then bitNat (pendingRequests p) * 2 ^ 21
    else if o = 0x60 then fld p hlStatus 27 24 * 2 ^ 16 + fld p hlStatus 20 16 * 2 ^ 20
    else if o = 0x80 then fld p hlStatus 29 29 * 2 ^ 26
    else if o = 0x2EC then bitNat p.hl.doeError * 4 + bitNat (!p.hl.doeOut.isEmpty) * 2 ^ 31
    else if o = 0x2F4 then (p.hl.doeOut.headD 0).toNat
    else if o = 0x154 then Config.serial % 2 ^ 32
    else if o = 0x158 then Config.serial / 2 ^ 32 % 2 ^ 32
    else if o = 0x418 then (match pageInfo pgHl with | some pi => pageLegend pi % 65536 * 65536 | none => 0)
    else if o = 0x41C then bitNat p.standalone + 2 * p.fuse.personality
    else 0
  BitVec.ofNat 32 (lookupN (cfgHeader ++ cfgExtended) o + live) ||| cfgStored p o

/-- Pending vectors that are no longer masked send their messages (R510). -/
def sendPending (p : Pkg) : Pkg :=
  (p.int.pba.filter (·.2)).foldl (fun q x =>
    if vectorMasked q x.1 then q
    else emitMsg { q with int := { q.int with pba := SMap.drop q.int.pba (fun k => k == x.1) } } (.msix x.1)) p

/-! ### The DOE mailbox (Table 15-3; its registers and objects as PCI Express gives them, PRESUMED, log entry 60) -/

/-- The protocols of Table 15-3: vendor and object type of each. -/
def doeProtocols : List (Nat × Nat) := [(1, 0), (1, 1), (1, 2), (0x1E98, 2)]

/-- The discovery response for an index: vendor, type, and the next index, 0 after the last. -/
def doeDiscovery (i : Nat) : Nat :=
  match doeProtocols.drop i with
  | [] => 0xFFFF
  | [(v, t)] => v + t * 2 ^ 16
  | (v, t) :: _ => v + t * 2 ^ 16 + (i + 1) * 2 ^ 24

/-- What the function answers to an object: DOE Discovery and CXL Table Access; SPDM objects are the surveyor's, whose requests are
commands of their own; none to any other. -/
def doeAnswer (x : List W32) : Option (List W32) :=
  match x with
  | h :: len :: d :: rest =>
    if (len.toNat % 2 ^ 18) ≠ rest.length + 3 then none
    else if h = 1 then some [1, 3, BitVec.ofNat 32 (doeDiscovery (d.toNat % 256))]
    else if h = 0x00010001 ∨ h = 0x00020001 then some []
    else if h = 0x00021E98 ∧ d.toNat % 65536 = 0 then
      let e := Config.cdat (d.toNat / 65536)
      some ([h, BitVec.ofNat 32 (3 + e.2.length), BitVec.ofNat 32 (e.1 % 65536 * 65536)] ++ e.2)
    else none
  | _ => none

/-- A write of the DOE control register: Abort empties the mailbox and clears the error, Go submits the object written. -/
def doeControl (p : Pkg) (value : W32) : Pkg :=
  if bitOf value 0 then setHl p { p.hl with doeIn := [], doeOut := [], doeError := false }
  else if bitOf value 31 then
    match doeAnswer p.hl.doeIn with
    | some x => setHl p { p.hl with doeIn := [], doeOut := p.hl.doeOut ++ x }
    | none => setHl p { p.hl with doeIn := [], doeError := true }
  else p

/-- A write of a dword of the DOE capability: control, the write mailbox, or the read mailbox, which goes on to its next dword. -/
def doeWrite (p : Pkg) (o : Nat) (value : W32) : Pkg :=
  if o = 0x2E8 then doeControl p value
  else if o = 0x2F0 then setHl p { p.hl with doeIn := p.hl.doeIn ++ [value] }
  else setHl p { p.hl with doeOut := p.hl.doeOut.tail }

/-- A write of a dword of the configuration space. -/
def cfgWrite (p : Pkg) (off : Nat) (value : W32) : Pkg :=
  let o := off / 4 * 4
  if o = 0x2E8 ∨ o = 0x2F0 ∨ o = 0x2F4 then doeWrite p o value else
  let m := BitVec.ofNat 32 (lookupN cfgMask o)
  let p1 := if o = 0x104 ∨ o = 0x110 then putCfg p o (cfgStored p o &&& ~~~value)
    else if m = 0 then p else putCfg p o ((cfgStored p o &&& ~~~m) ||| (value &&& m))
  if o = 0xB0 then sendPending { p1 with int := { p1.int with msixOn := bitOf value 31, msixMask := bitOf value 30 } } else p1

/-! ## What FLR and the conventional resets do to the contexts (R525 steps 2 to 5) -/

/-- Rings that an abort of all rings has something to do on. -/
def liveRings (p : Pkg) : List (Nat × Nat) :=
  ((List.range 16).flatMap (fun c => (List.range 64).map (fun r => (c, r)))).filter (fun x =>
    ringEnabled p x.1 x.2 || ringHead p x.1 x.2 != ringTail p x.1 x.2 || p.qm.cmds.any (fun y => y.2.ctx == x.1 && y.2.ring == x.2))

/-- A CE whose command has its status and still commits its output packets drops it (R201). -/
def freeTrailing (p : Pkg) (n : Nat) (c : Ce) : Pkg :=
  match c.cmd with
  | some id => ceRelease (ceStop p n) n (cmd p id)
  | none => p

/-- Every ring aborted, no record to be written, ENABLE clear. -/
def abortRings (p : Pkg) : Pkg :=
  let l := liveRings p
  let p0 := l.foldl (fun q x => ringAbort x.1 x.2 q) p
  let p1 := p0.ces.foldl (fun q x => freeTrailing q x.1 x.2) p0
  let p2 := p1.qm.cmds.foldl (fun q x => dropLoads q x.1) p1
  let p3 := { p2 with qm := { p2.qm with cmds := [], holds := [] } }
  l.foldl (fun q x => setBit (setBit q (ringCfg x.1 x.2) 25 false) (ringCfg x.1 x.2) 31 false) p3

/-- A CE whose last command belonged to a context runs the context clearing of R192. -/
def clearCe (x : Nat × Ce) : Nat × Ce :=
  if x.2.lastCtx.isSome then (x.1, { x.2.invalidateAll with su := [], long := [] }) else x

/-- Steps 2 to 5: rings and contexts, directories and translations, context clearing, the device cache. -/
def resetContexts (p : Pkg) : Pkg :=
  let p1 := abortRings p
  let p2 := (List.range 16).foldl (fun q c =>
    setBit (setReg (setReg q (xlCtx c 0x100) 0) (xlCtx c 0x108) 0) (key (pgQm + 1 + c) 0x100) 31 false) p1
  let x : XlSt := { p2.xl with
    atc := [], once := [], denied := [], waits := []
    noCache := (p2.xl.noCache ++ p2.xl.requests.map (fun r => (r.1, r.2.1))).eraseDups }
  { p2 with
    qm := { p2.qm with dirs := [], oldDirs := [] }
    xl := x
    ces := p2.ces.map clearCe
    home := { p2.home with devCache := [], pend := p2.home.pend.filter (fun l => !isHostLine l) } }

/-- The dwords that FLR leaves: AER's sticky registers, and of Device Control and Link Control the fields that PCI Express keeps
(PRESUMED, log entry 60). -/
def keptByFlr (x : Nat × W32) : Option (Nat × W32) :=
  let o := 4 * x.1
  if 0x104 ≤ o ∧ o < 0x118 ∨ o = 0x60 then some x
  else if o = 0x58 then some (x.1, (cfgReset 0x58 &&& ~~~0xE0) ||| (x.2 &&& 0xE0))
  else none

/-- The configuration space, its DOE mailbox and the MSI-X structures at their reset values; FLR leaves what PCI Express says it
leaves. -/
def resetConfig (p : Pkg) (flr : Bool) : Pkg :=
  { p with
    hl := { p.hl with
      cfg := if flr then p.hl.cfg.filterMap keptByFlr else []
      doeIn := [], doeOut := [], doeError := false }
    int := { p.int with msixTable := [], pba := [], msixOn := false, msixMask := false } }

/-- R525: Initiate Function Level Reset; configuration requests are retried until it is complete. -/
def doFlr (p : Pkg) : Pkg :=
  if p.standalone ∨ p.hl.flr = true then p
  else
    let p1 := resetConfig (resetContexts p) true
    let p2 := setHl p1 { p1.hl with flr := true, ltrAt := none }
    waypoint (if p.hl.answering then raiseBlock p2 pgSv 1 else p2) pgHl 0x03 0 1

def execFlr (s : State) : Out := .next (s.onPkg doFlr)

/-- The FLR is complete: it is counted, and BLOCK bit 2 is set (R525, R537). -/
def doFlrComplete (p : Pkg) : Pkg :=
  if p.hl.flr then
    let p1 := raiseBlock (bumpReg (setHl p { p.hl with flr := false }) (key pgHl 0x130) 1 0xFFFFFFFF) pgHl 2
    if p.hl.answering then raiseBlock p1 pgSv 1 else p1
  else p

def execFlrComplete (s : State) : Out := .next (s.onPkg doFlrComplete)

/-! ## Configuration requests (R503) -/

/-- Whether configuration requests are answered now: once answered always; 80 ms after the link is up at the latest; when
before that, is a free value. -/
def answersNow (p : Pkg) : Bool × Pkg :=
  if p.hl.answering then (true, p)
  else if ready p pgHl = false then (false, p)
  else
    let yes := decide (p.hl.upAt + 80000000 ≤ p.pace.datum) || bitOf (Config.freeWord p.free) 0
    let q := nextFree p
    (yes, if yes then raiseBlock (setHl q { q.hl with answering := true }) pgSv 1 else q)

/-- A host configuration request of a dword. -/
def doConfigRequest (isWrite : Bool) (off : Nat) (value : W32) (p : Pkg) : Pkg :=
  if p.standalone ∨ hlMode p = 0 ∨ 4096 ≤ off then p
  else
    let (yes, q) := answersNow p
    if p.hl.flr || !yes then emitMsg q .cfgRetry
    else if !isWrite then emitMsg q (.cfgData (cfgDword q off))
    else
      let q1 := cfgWrite q off value
      if off / 4 * 4 = 0x58 ∧ bitOf value 15 = true then doFlr q1 else q1

def execConfigRequest (isWrite : Bool) (off : Nat) (value : W32) (s : State) : Out :=
  .next (s.onPkg (doConfigRequest isWrite off value))

/-- R510: a vector is unmasked, and its pending message goes. -/
def unmaskVector (p : Pkg) (v : Nat) : Pkg :=
  let k := 4 * v + 3
  let w := withBits (SMap.get p.int.msixTable k (1 : W32)) 0 0 0
  sendPending { p with int := { p.int with msixTable := SMap.set p.int.msixTable k w } }

def execMsixVectorUnmask (vec : Nat) (s : State) : Out :=
  .next (s.onPkg (fun p => if vec < 2048 ∧ p.standalone = false then unmaskVector p vec else p))

/-! ## The HDM decoder and the inset window (R513 to R520) -/

/-- Whether a range of HBM from `base` on is wholly populated. -/
def insetRangeOk (p : Pkg) (base bytes : Nat) : Bool :=
  match region base with
  | .hbm _ _ => hbmOrScratch p base bytes
  | _ => false

def committed (p : Pkg) : Bool := bit p insetControl 30

/-- R513: the host commits the decoder, or the commit fails with Commit Error. -/
def doHdmCommit (base size : Nat) (p : Pkg) : Pkg :=
  if p.standalone ∨ committed p = true then p
  else if size % 2 ^ 30 = 0 ∧ 4 * 2 ^ 30 ≤ size ∧ size ≤ 64 * 2 ^ 30 ∧ insetRangeOk p (insetBase p) size = true ∧ hlMode p = 3 then
    setFld (setBit (setHl p { p.hl with hdmBase := base, commitError := false }) insetControl 30 true) insetControl 23 16
      (size / 2 ^ 30)
  else setHl p { p.hl with commitError := true }

def execHdmCommit (base size : Nat) (s : State) : Out := .next (s.onPkg (doHdmCommit base size))

/-- The decoder is no longer committed. -/
def uncommit (p : Pkg) : Pkg :=
  setFld (setBit (setHl p { p.hl with uncommit := false }) insetControl 30 false) insetControl 23 16 0

/-- R520: an uncommit during a move takes effect after it. -/
def doHdmUncommit (p : Pkg) : Pkg :=
  if committed p then (if insetMoving p then setHl p { p.hl with uncommit := true } else uncommit p) else p

def execHdmUncommit (s : State) : Out := .next (s.onPkg doHdmUncommit)

/-! ### The CXL component registers of BAR2 (R507; their layout as CXL 3.1 gives it, PRESUMED, log entry 60) -/

/-- The constant dwords: the capability header and its entries for RAS, Link, HDM Decoder (one decoder) and BI Decoder. -/
def compConst : List (Nat × Nat) :=
  [(0x1000, 0x04110001), (0x1004, 0x10020002), (0x1008, 0x18020004), (0x100C, 0x20030005), (0x1010, 0x2401000C)]

/-- The writable bits: RAS masks and severities, the decoder's base, size, control and skip, and the BI decoder's control. -/
def compMask : List (Nat × Nat) :=
  [(0x1104, 0x1FFF), (0x1108, 0x1FFF), (0x1110, 0x7F), (0x1204, 3), (0x1210, 0xF0000000), (0x1214, 0xFFFFFFFF),
   (0x1218, 0xF0000000), (0x121C, 0xFFFFFFFF), (0x1220, 0x23FF), (0x1224, 0xF0000000), (0x1228, 0xFFFFFFFF), (0x1244, 3)]

def compStored (p : Pkg) (o : Nat) : W32 :=
  SMap.get p.hl.comp (o / 4) (if o = 0x1104 ∨ o = 0x1108 then 0x1FFF else if o = 0x1110 then 0x7F else 0)

/-- A dword of the component register block; the decoder shows whether it is committed or its commit has failed. -/
def compRead (p : Pkg) (o : Nat) : W32 :=
  let live := if o = 0x1220 then bitNat (committed p) * 2 ^ 10 + bitNat p.hl.commitError * 2 ^ 11 else 0
  BitVec.ofNat 32 (lookupN compConst o + live) ||| compStored p o

/-- The decoder's base or size, whose low half stands at an offset. -/
def compPair (p : Pkg) (o : Nat) : Nat := (compStored p o).toNat + (compStored p (o + 4)).toNat * 2 ^ 32

/-- A write of a dword of the block; one of the decoder's control commits it or ends its commitment (R513). -/
def compWrite (p : Pkg) (o : Nat) (value : W32) : Pkg :=
  let m := BitVec.ofNat 32 (lookupN compMask o)
  if m = 0 then p
  else
    let p1 := setHl p { p.hl with comp := SMap.set p.hl.comp (o / 4) ((compStored p o &&& ~~~m) ||| (value &&& m)) }
    if o = 0x1220 then
      if bitOf value 9 then doHdmCommit (compPair p 0x1210) (compPair p 0x1218) p1 else doHdmUncommit p1
    else p1

/-- Writes of HL_INSET_BASE and NEXT: none in the standalone personality; BASE only while not committed (R514, R536). -/
def putInsetBase (value : W64) (p : Pkg) : Pkg :=
  if p.standalone ∨ committed p = true then p
  else setReg p (key pgHl 0x110) (mergeWrite (rw8 0x110 (msk 51 30)) (reg p (key pgHl 0x110)) value)

def putInsetNext (value : W64) (p : Pkg) : Pkg :=
  if p.standalone then p else setReg p (key pgHl 0x118) (mergeWrite (rw8 0x118 (msk 51 30)) (reg p (key pgHl 0x118)) value)

def insetNext (p : Pkg) : Nat := regN p (key pgHl 0x118)

/-- Marks the inset translations of accepted commands (R517 step 2). -/
def markInset (p : Pkg) : Pkg :=
  let mark (c : Cmd) : Cmd :=
    if c.phase ≠ .translating ∧ c.phase ≠ .finished then
      { c with pages := c.pages.map (fun x => if x.2.inset then (x.1, { x.2 with stale := true }) else x) }
    else c
  { p with qm := { p.qm with cmds := p.qm.cmds.map (fun x => (x.1, mark x.2)) } }

/-- Lines of the old range that a host filter names. -/
def insetHostLines (p : Pkg) : List Nat :=
  (p.home.dir.filter (fun x => x.2.host != 0 && decide (insetBase p ≤ 64 * x.1) &&
    decide (64 * x.1 < insetBase p + insetBytes p))).map (·.1)

/-- R517 step 4: BISnpInv for every such line, as far as 256 outstanding allow. -/
def callHost (p : Pkg) : Pkg := (insetHostLines p).foldl (fun q l => biStart q l true none) p

/-- R516: a move starts, or the write is discarded. -/
def putInsetControl (value : W64) (p : Pkg) : Pkg :=
  if bitOf value 0 && !p.standalone && committed p && !insetMoving p && decide (insetNext p % 2 ^ 30 = 0) &&
      insetRangeOk p (insetNext p) (insetBytes p) && insetNext p != insetBase p then
    callHost (markInset (setBit (setHl p { p.hl with moveStart := p.pace.datum }) insetControl 31 true))
  else p

def doInsetMove (rq : Requester) (value : W32) (p : Pkg) : Pkg :=
  ifWrites p rq pgHl 0x120 (putInsetControl (value.setWidth 64))

def execInsetMove (rq : Requester) (value : W32) (s : State) : Out := .next (s.onPkg (doInsetMove rq value))

/-- Every running command that holds an inset translation has paused (R517 step 5). -/
def holdersPaused (p : Pkg) : Bool :=
  p.ces.all (fun x =>
    match x.2.cmd with
    | some id => x.2.paused || !(cmd p id).pages.any (fun y => y.2.inset && y.2.stale)
    | none => true)

/-! ## PERST#, hot reset, DL_Down (R675, R676) -/

/-- Whether a register is one of Table 15-7 or of the host link's access counter; HL_FLR_COUNT is not reset. -/
def hlReset (k : Nat) : Bool :=
  k / 0x1000 == pgHl && decide (0x100 ≤ k % 0x1000 ∧ k % 0x1000 < 0x420) && k % 0x1000 != 0x130

def conventionalReset (p : Pkg) : Pkg :=
  let p1 := resetConfig (resetContexts (setLink p 0 false 0 0)) false
  let p2 := { p1 with
    regs := SMap.drop p1.regs hlReset
    queues := SMap.drop p1.queues (fun k => k == key pgHl 0x410)
    memc := { p1.memc with acc := SMap.drop p1.memc.acc (fun k => k == 8) }
    hl := { HlSt.initial with lastRead := p1.hl.lastRead } }
  if p.hl.answering && !p.hl.flr then raiseBlock p2 pgSv 1 else p2

/-- Kinds: 0 PERST#, 1 hot reset, 2 DL_Down. A standalone package ignores them (R677). -/
def doPerst (kind : Nat) (p : Pkg) : Pkg :=
  if p.standalone then p
  else if p.seq.railPgCore then
    { conventionalReset p with seq := { p.seq with perst := p.seq.perst || decide (kind = 0) } }
  else { p with seq := { p.seq with perst := p.seq.perst || decide (kind = 0) } }

def execPerst (kind : Nat) (s : State) : Out := .next (s.onPkg (doPerst kind))

/-! ## LTR (R527) -/

/-- The row of Table 15-4 in force. -/
def ltrRow (p : Pkg) : Nat :=
  let live := p.qm.cmds.filter (fun x => x.2.phase != .finished && x.2.phase != .trailing)
  if live.any (fun x => ringEnabled p x.2.ctx x.2.ring && ringClass p x.2.ctx x.2.ring == 0) then 0
  else if !p.qm.cmds.isEmpty then 1 else 2

/-- Nanoseconds of an LTR latency field of 13 bits: value [9:0], scale [12:10]. -/
def ltrNs (v : Nat) : Nat := v % 1024 * 32 ^ (v / 1024 % 8)

/-- The smaller of a table value and the capability's maximum. -/
def ltrSmaller (table cap : Nat) : Nat := if ltrNs cap < ltrNs table then 0x8000 + cap % 2 ^ 13 else table

/-- A message after a change of state, at most once per 100 µs. -/
def doLtrMessage (p : Pkg) : Pkg :=
  let row := ltrRow p
  let due := match p.hl.ltrAt with | some t => decide (t + 100000 ≤ p.pace.datum ∧ p.hl.ltrState ≠ row) | none => true
  if p.standalone = false ∧ hlMode p ≠ 0 ∧ p.hl.flr = false ∧ bitOf (cfgStored p 0x78) 10 = true ∧ due = true then
    let t := if row = 0 then 0x83E8 else if row = 1 then 0x8671 else 0x8BD0
    let cap := (cfgStored p 0x2A4).toNat
    let sn := ltrSmaller t (cap % 2 ^ 13)
    let ns := ltrSmaller t (cap / 2 ^ 16 % 2 ^ 13)
    let p1 := setReg (setHl p { p.hl with ltrAt := some p.pace.datum, ltrState := row }) (key pgHl 0x12C)
      (BitVec.ofNat 64 (ns * 65536 + sn))
    emitMsg p1 (.ltr ns sn)
  else p

def execLtrMessage (s : State) : Out := .next (s.onPkg doLtrMessage)

/-! ## The root port (R528 to R532) -/

/-- The constant part of the root port's dwords. -/
def rpConst : List (Nat × Nat) :=
  [(0x000, 0x7A111FD4), (0x004, 0x00100000), (0x008, 0x06040010), (0x00C, 0x00010000), (0x034, 0x40),
   (0x040, 0x00035001), (0x044, 8), (0x050, 0x00420010), (0x05C, 0x00000106), (0x100, 0x00020001)]

/-- The writable bits of the root port's dwords; the error statuses are write-one-to-clear. -/
def rpMask : List (Nat × Nat) :=
  [(0x004, 0x0546), (0x00C, 0xFF), (0x018, 0x00FFFFFF), (0x01C, 0xF0F0), (0x020, 0xFFF0FFF0), (0x024, 0xFFF0FFF0),
   (0x028, 0xFFFFFFFF), (0x02C, 0xFFFFFFFF), (0x03C, 0x005F00FF), (0x044, 3), (0x058, 0x7FFF), (0x060, 0xFFFF),
   (0x06C, 0x1F), (0x078, 0xFFFF), (0x108, 0xFFFFFFFF)] ++ [(0x10C, 0xFFFFFFFF), (0x114, 0xFFFFFFFF), (0x12C, 7)]

def rpStored (p : Pkg) (off : Nat) : W32 := SMap.get p.hl.rpCfg (off / 4) 0
def putRp (p : Pkg) (off : Nat) (v : W32) : Pkg := setHl p { p.hl with rpCfg := SMap.set p.hl.rpCfg (off / 4) v }

def rpDword (p : Pkg) (off : Nat) : W32 :=
  let live := if off = 0x60 then fld p hlStatus 27 24 * 2 ^ 16 + fld p hlStatus 20 16 * 2 ^ 20 else 0
  BitVec.ofNat 32 (lookupN rpConst off + live) ||| rpStored p off

/-- A write of the root port's own configuration; PERST_OUT# follows Secondary Bus Reset (R677). -/
def rpWrite (p : Pkg) (off : Nat) (value : W32) : Pkg :=
  let m := BitVec.ofNat 32 (lookupN rpMask off)
  let p1 := if off = 0x104 ∨ off = 0x110 ∨ off = 0x130 then putRp p off (rpStored p off &&& ~~~value)
    else if m = 0 then p else putRp p off ((rpStored p off &&& ~~~m) ||| (value &&& m))
  if off = 0x3C then { p1 with seq := { p1.seq with perstOut := bitOf value 22 } } else p1

/-- The root port logs an uncorrectable error; Root Error Status rises, and with it BLOCK bit 3 (R537). -/
def rpError (p : Pkg) (n : Nat) : Pkg :=
  let p1 := putRp p 0x104 (withBits (rpStored p 0x104) n n 1)
  let p2 := putRp p1 0x130 (rpStored p 0x130 ||| 0x24)
  if rpStored p 0x130 = 0 then raiseBlock p2 pgHl 3 else p2

/-- HL_CFG_ADDR: whether it names the root port itself, and whether a dword of bus 0 that no device answers. -/
def cfgTarget (p : Pkg) : Nat := fld p (key pgHl 0x150) 27 0
def isRootPort (a : Nat) : Bool := a / 2 ^ 12 == 0

/-- A read by the owner of the host link page of its READY root port (R529). -/
def ownsHl (p : Pkg) (rq : Requester) : Bool :=
  p.standalone && present p pgHl && ready p pgHl && rq.code != 0 && rq.code == owner p pgHl

/-- What a configuration read returns, and the package after it. `status` is the completion's: 0 successful, 2 Retry Status,
any other none. A read that is being retried returns nothing yet. -/
def cfgReadOf (rq : Requester) (data : W32) (status : Nat) (p : Pkg) : Option W32 × Pkg :=
  let a := cfgTarget p
  if !ownsHl p rq then (some 0, p)
  else if isRootPort a then (some (rpDword p (a % 2 ^ 12)), p)
  else
    let q := emitMsg p (.rpConfig a none)
    if status = 0 then (some data, setHl q { q.hl with retryAt := none })
    else if status = 2 then
      if a % 2 ^ 12 = 0 ∧ bitOf (rpStored p 0x6C) 4 = true then (some 0xFFFF0001, q)
      else (none, setHl q { q.hl with retryAt := some (p.hl.retryAt.getD p.pace.datum) })
    else (some 0xFFFFFFFF, q)

def doCfgRead (rq : Requester) (data : W32) (status : Nat) (p : Pkg) : Pkg :=
  match cfgReadOf rq data status p with
  | (some v, q) => emitMsg q (.readData (key pgHl 0x154) (v.setWidth 64))
  | (none, q) => q

def execCfgRead (rq : Requester) (data : W32) (status : Nat) (s : State) : Out := .next (s.onPkg (doCfgRead rq data status))

/-- R529: a request retried for 1 s returns all ones. -/
def doCfgRetryTimeout (p : Pkg) : Pkg :=
  match p.hl.retryAt with
  | some t =>
    if t + 1000000000 ≤ p.pace.datum then
      emitMsg (setHl p { p.hl with retryAt := none }) (.readData (key pgHl 0x154) 0xFFFFFFFF)
    else p
  | none => p

def execCfgRetryTimeout (s : State) : Out := .next (s.onPkg doCfgRetryTimeout)

/-- A write of HL_CFG_DATA. -/
def putCfgData (value : W32) (p : Pkg) : Pkg :=
  let a := cfgTarget p
  if p.standalone = false then p
  else if isRootPort a then rpWrite p (a % 2 ^ 12) value
  else emitMsg p (.rpConfig a (some value))

def execCfgWrite (rq : Requester) (value : W32) (s : State) : Out :=
  .next (s.onPkg (fun p => ifWrites p rq pgHl 0x154 (putCfgData value)))

/-- What a read of HL_RP_MMIO_DATA returns. -/
def mmioReadOf (rq : Requester) (width : Nat) (data : W64) (p : Pkg) : W64 × Pkg :=
  if ownsHl p rq then
    (data &&& BitVec.ofNat 64 (2 ^ (8 * min width 8) - 1), emitMsg p (.rpMmio (reg p (key pgHl 0x158)) width none))
  else (0, p)

def execRpMmioRead (rq : Requester) (width : Nat) (data : W64) (s : State) : Out :=
  .next (s.onPkg (fun p =>
    let (v, q) := mmioReadOf rq width data p
    emitMsg q (.readData (key pgHl 0x160) v)))

/-- A write of HL_RP_MMIO_DATA: one posted write as wide as the access. -/
def putMmioData (width : Nat) (value : W64) (p : Pkg) : Pkg :=
  if p.standalone then
    emitMsg p (.rpMmio (reg p (key pgHl 0x158)) width (some (value &&& BitVec.ofNat 64 (2 ^ (8 * min width 8) - 1))))
  else p

def execRpMmioWrite (rq : Requester) (width : Nat) (value : W64) (s : State) : Out :=
  .next (s.onPkg (fun p => ifWrites p rq pgHl 0x160 (putMmioData width value)))

/-- R530: a root-port read without a completion for 50 ms. -/
def doRpMmioTimeout (p : Pkg) : Pkg :=
  if p.standalone then emitMsg (rpError p 14) (.readData (key pgHl 0x160) (BitVec.allOnes 64)) else p

def execRpMmioTimeout (s : State) : Out := .next (s.onPkg doRpMmioTimeout)

/-- R531: a write of HL_RP_BOUNCE with ENABLE and a bad range is discarded. -/
def putBounce (value : W64) (p : Pkg) : Pkg :=
  let k := key pgHl 0x140
  let v := mergeWrite (rw8 0x140 (msk 63 63 + msk 51 21 + msk 14 0)) (reg p k) value
  let base := bitsOf v 51 21 * 0x200000
  let ok := p.memc.ddrPhase == 1 && decide (base + (bitsOf v 14 0 + 1) * 0x200000 ≤ p.ddrBytes) && decide (bitsOf v 14 0 ≠ 0)
  if p.standalone = false ∨ (bitOf v 63 = true ∧ ok = false) then p else setReg p k v

/-- Registers of the root port do nothing in the hosted personality (R536). -/
def putRootPort (off m : Nat) (value : W64) (p : Pkg) : Pkg :=
  if p.standalone then setReg p (key pgHl off) (mergeWrite (rw8 off m) (reg p (key pgHl off)) value) else p

/-- Whether an inbound access lies in the bounce window. -/
def inBounce (p : Pkg) (addr bytes : Nat) : Bool :=
  let w := reg p (key pgHl 0x140)
  let base := bitsOf w 51 21 * 0x200000
  bitOf w 63 && decide (base ≤ addr ∧ addr + bytes ≤ base + (bitsOf w 14 0 + 1) * 0x200000)

def msiBase (p : Pkg) : Nat := fld p (key pgHl 0x148) 63 12 * 4096
def inMsi (p : Pkg) (addr : Nat) : Bool := decide (msiBase p ≤ addr ∧ addr < msiBase p + 4096)

def reject (p : Pkg) : Pkg := bumpReg p (key pgHl 0x168) 1 0xFFFFFFFF

/-- R532: a write in the MSI range. -/
def msiWrite (p : Pkg) (addr bytes : Nat) (data : Nat) : Pkg :=
  let o := addr - msiBase p
  if bytes = 4 ∧ o % 64 = 0 ∧ o / 64 < 48 ∧ data % 2048 ≠ 0 then setEip p (o / 64) 1 (data % 2048) else reject p

/-- The lines of an access of up to 64 bytes. -/
def linesOf (addr bytes : Nat) : List Nat :=
  if addr / 64 = (addr + bytes - 1) / 64 then [addr / 64 * 64] else [addr / 64 * 64, (addr + bytes - 1) / 64 * 64]

/-- R531: an inbound memory request of up to 64 bytes. -/
def inbound (isWrite : Bool) (addr bytes : Nat) (data : Item) (s : State) : State :=
  let p := s.pkg
  if p.standalone = false ∨ hlMode p = 0 ∨ bytes = 0 ∨ 64 < bytes then s
  else if inBounce p addr bytes then
    let ls := linesOf addr bytes
    if ls.any (fun l => fateFor p idHostLink l false != .served) then s
    else if isWrite then
      { s with
        mem := s.mem.store addr bytes (data.toNat % 2 ^ (8 * bytes))
        pkg := ls.foldl (fun q l => homeWrite q l false idHostLink) p }
    else
      let out : OutMsg := .inboundData addr (BitVec.ofNat 512 (s.mem.read addr bytes)) (s.mem.poisoned addr bytes)
      { s with pkg := emitMsg (ls.foldl (fun q l => crossLine (homeRead q l 1 0 none).2 idHostLink l true) p) out }
  else if isWrite && inMsi p addr then { s with pkg := msiWrite p addr bytes (data.toNat % 2 ^ 32) }
  else { s with pkg := emitMsg (reject p) (.unsupported addr) }

def execInboundRequest (isWrite : Bool) (addr bytes : Nat) (data : Item) (s : State) : Out :=
  .next (inbound isWrite addr bytes data s)

def execInboundMsi (addr bytes : Nat) (data : W32) (s : State) : Out :=
  .next (inbound true addr bytes (data.setWidth 512) s)

/-- R532, R433: an INTx message drives APLIC sources 1 to 4; `pin` 0 to 3 for INTA to INTD. -/
def execIntxMessage (pin : Nat) (assert : Bool) (s : State) : Out :=
  .next (s.onPkg (fun p => if p.standalone = true ∧ pin < 4 ∧ p.seq.railPgCore = true then apSource p (pin + 1) assert else p))

/-! ## SPDM over DOE (R533) -/

/-- An SPDM response: its code, a parameter, and what it carries. -/
def respondSpdm (p : Pkg) (code param : Nat) (data : W64) : Pkg := emitMsg p (.spdm code param data)

/-- ERROR with an error code: 1 invalid request, 2 invalid session, 4 unexpected request, 6 decrypt error, 0xA session limit. -/
def spdmError (p : Pkg) (code : Nat) : Pkg := respondSpdm p 0x7F code 0

/-- A request that the surveyor serves while it runs, once the negotiation has reached a state. -/
def spdmServe (need : Nat) (f : Pkg → Pkg) (p : Pkg) : Pkg :=
  if p.boot.running.isNone then p else if need ≤ p.hl.spdm then f p else spdmError p 4

def setSpdm (p : Pkg) (n : Nat) : Pkg := setHl p { p.hl with spdm := n }

def execSpdmGetVersion (s : State) : Out :=
  .next (s.onPkg (spdmServe 0 (fun p => respondSpdm (setHl p { p.hl with spdm := 1, sessions := [] }) 0x04 0 0x12)))

def execSpdmGetCapabilities (s : State) : Out :=
  .next (s.onPkg (spdmServe 1 (fun p => respondSpdm (setSpdm p (max 2 p.hl.spdm)) 0x61 0 0)))

/-- ECDSA P-384, SHA-384, secp384r1 and AES-256-GCM, where the requester offers them. -/
def execSpdmNegotiateAlgorithms (offersP384 : Bool) (s : State) : Out :=
  .next (s.onPkg (spdmServe 2 (fun p => if offersP384 then respondSpdm (setSpdm p 3) 0x63 0 0 else spdmError p 1)))

/-- The digest of the certificate chain in slot 0, the only slot that is not empty. -/
def execSpdmGetDigests (s : State) : Out :=
  .next (s.onPkg (spdmServe 3 (fun p => respondSpdm p 0x01 1 (Config.digest 2 0))))

def execSpdmGetCertificate (slot : Nat) (s : State) : Out :=
  .next (s.onPkg (spdmServe 3 (fun p => if slot = 0 then respondSpdm p 0x02 0 (Config.digest 3 0) else spdmError p 1)))

def execSpdmChallenge (slot : Nat) (s : State) : Out :=
  .next (s.onPkg (spdmServe 3 (fun p =>
    if slot = 0 then respondSpdm (nextFree p) 0x03 0 (Config.freeWord p.free) else spdmError p 1)))

/-- Measurement n: 1 the surveyor firmware, 2 that of the other image, 3 the kernel image, 4 the settings, 5 stepping and
fuses. -/
def measurement (p : Pkg) (n : Nat) : W64 :=
  if n = 1 then Config.digest 4 (versionOf p.boot.running)
  else if n = 2 then Config.digest 4 (versionOf (inactiveSlot p))
  else if n = 3 then Config.digest 5 (bitNat p.standalone)
  else if n = 4 then BitVec.ofNat 64 (p.fuse.personality + 2 * bitNat p.fuse.debugLock + 4 * fbRemaining p.fuse)
  else Config.digest 6 p.part

/-- Index 0 asks for their number, 0xFF for all of them. -/
def doGetMeasurements (index : Nat) (p : Pkg) : Pkg :=
  if index = 0 then respondSpdm p 0x60 5 0
  else if index ≤ 5 then respondSpdm p 0x60 index (measurement p index)
  else if index = 0xFF then [1, 2, 3, 4, 5].foldl (fun q n => respondSpdm q 0x60 n (measurement p n)) p
  else spdmError p 1

def execSpdmGetMeasurements (index : Nat) (s : State) : Out := .next (s.onPkg (spdmServe 3 (doGetMeasurements index)))

/-- Two sessions at once; a session is numbered by both sides' halves. State 1 awaits FINISH, 2 is secured. -/
def doKeyExchange (reqId : Nat) (p : Pkg) : Pkg :=
  let used (r : Nat) : Bool := p.hl.sessions.any (fun x => x.1 / 65536 == r)
  match [1, 2].find? (fun r => !used r) with
  | some r =>
    let id := r * 65536 + reqId % 65536
    respondSpdm (setHl p { p.hl with sessions := SMap.set p.hl.sessions id 1 }) 0x64 id 0
  | none => spdmError p 0xA

def execSpdmKeyExchange (reqId : Nat) (s : State) : Out := .next (s.onPkg (spdmServe 3 (doKeyExchange reqId)))

def session (p : Pkg) (id : Nat) : Nat := SMap.get p.hl.sessions id 0
def dropSession (p : Pkg) (id : Nat) : Pkg := setHl p { p.hl with sessions := SMap.drop p.hl.sessions (fun k => k == id) }

def doFinish (id : Nat) (good : Bool) (p : Pkg) : Pkg :=
  if session p id ≠ 1 then spdmError p 2
  else if good then respondSpdm (setHl p { p.hl with sessions := SMap.set p.hl.sessions id 2 }) 0x65 0 0
  else spdmError (dropSession p id) 6

def execSpdmFinish (id : Nat) (good : Bool) (s : State) : Out := .next (s.onPkg (spdmServe 3 (doFinish id good)))

/-- A request within a secured session. -/
def inSession (id : Nat) (f : Pkg → Pkg) (p : Pkg) : Pkg := if session p id = 2 then f p else spdmError p 2

def execSpdmKeyUpdate (id : Nat) (s : State) : Out :=
  .next (s.onPkg (spdmServe 3 (inSession id (fun p => respondSpdm p 0x69 0 0))))
def execSpdmHeartbeat (id : Nat) (s : State) : Out :=
  .next (s.onPkg (spdmServe 3 (inSession id (fun p => respondSpdm p 0x68 0 0))))
def execSpdmEndSession (id : Nat) (s : State) : Out :=
  .next (s.onPkg (spdmServe 3 (inSession id (fun p => respondSpdm (dropSession p id) 0x6C 0 0))))

/-! ## IDE (R534) -/

def ideStream (p : Pkg) (n : Nat) : IdeStream := SMap.get p.hl.streams n ⟨false, false, false, false⟩
def setStream (p : Pkg) (n : Nat) (x : IdeStream) : Pkg := setHl p { p.hl with streams := SMap.set p.hl.streams n x }

/-- Operations: 0 the transmit key, 1 the receive key, 2 the stream goes secure, 3 it stops. Streams: 0 the link stream, 1 and
2 the selective streams, 3 CXL.cachemem. -/
def doIdeKm (stream op : Nat) (p : Pkg) : Pkg :=
  let x := ideStream p stream
  let q : Option IdeStream :=
    if op = 0 then some { x with tx := true }
    else if op = 1 then some { x with rx := true }
    else if op = 2 then (if x.tx && x.rx then some { x with secure := true, insecure := false } else none)
    else if op = 3 then some ⟨false, false, false, false⟩
    else none
  match q with
  | some y => if stream < 4 then respondSpdm (setStream p stream y) 0x7E (stream * 256 + op) 0 else spdmError p 1
  | none => spdmError p 1

def execIdeKm (id stream op : Nat) (s : State) : Out := .next (s.onPkg (spdmServe 3 (inSession id (doIdeKm stream op))))

/-- A check failure: a PCIe stream goes insecure until new keys are programmed; CXL.cachemem stays, its flit discarded. -/
def doIdeCheck (stream : Nat) (cachemem : Bool) (p : Pkg) : Pkg :=
  if (ideStream p stream).secure then
    let p1 := logErr p pgHl ⟨0x83, 0, 0, 0, stream % 256⟩
    if cachemem then p1 else setAer (setStream p1 stream ⟨false, false, false, true⟩) 28
  else p

def execIdeCheck (stream : Nat) (cachemem : Bool) (s : State) : Out := .next (s.onPkg (doIdeCheck stream cachemem))

end Sys2Proof.Machine
end

