-- ==== Sys2Proof/Machine/Pages.lean ====
section
/-! DEFINITION. Register pages (spec/04): ownership, QUIESCE, ENABLE, unit reset, the counting window's configuration, the
interrupt registers and ERR_SUMMARY. -/

namespace Sys2Proof.Machine

/-! ## Unit reset (R147) -/

/-- The queue manager's commands are lost with it: CEs stop them, loads end, nothing completes. -/
def dropCommands (p : Pkg) : Pkg :=
  let free (q : Pkg) (x : Nat × Ce) : Pkg :=
    match x.2.cmd with
    | some id => ceRelease (ceStop q x.1) x.1 (cmd q id)
    | none => q
  let p1 := p.ces.foldl free p
  let p2 := p.qm.cmds.foldl (fun q x => dropLoads q x.1) p1
  { p2 with
    qm := { QmSt.initial with nextId := p.qm.nextId }
    spills := []
    home := { p2.home with watches := [] }
    xl := { p2.xl with waits := [] }
    pwr := { p2.pwr with demands := [] } }

/-- The SEM_WAITs that watch at a slice watch no more, and register anew (R307). -/
def dropSliceWatches (p : Pkg) (sl : Nat) : Pkg :=
  let p1 := (watchesAt p sl).foldl (fun q w => setCmd q w.id { cmd q w.id with watching := false }) p
  { p1 with home := { p1.home with watches := SMap.set p1.home.watches sl [] } }

/-- A memory controller's requests and access counts are lost. -/
def dropController (p : Pkg) (ctl : Nat) : Pkg :=
  { p with memc := { p.memc with
      pcs := SMap.drop p.memc.pcs (fun k => k / 64 == ctl)
      acc := if ctl < 8 then SMap.drop p.memc.acc (fun k => k == ctl) else p.memc.acc } }

/-- The four harts of a cluster are HELD, their lines given up, their pending interrupts gone. -/
def dropHarts (p : Pkg) (cluster : Nat) : Pkg :=
  let mine (h : Nat) : Bool := h / 4 == cluster
  let lines (h : Nat) : List Nat := (p.home.dir.filter (fun x => x.2.owner == some h || x.2.sharers.contains h)).map (·.1)
  let p1 := (List.range 4).foldl (fun q j => (lines (4 * cluster + j)).foldl (fun r l => giveUp r (4 * cluster + j) l) q) p
  { p1 with
    harts := SMap.drop p1.harts mine
    int := { p1.int with eip := SMap.drop p1.int.eip (fun k => mine (k / 32768)) }
    aplic := if cluster = 0 then [] else p1.aplic }

/-- A port's link is gone; CABLE, which reads the pin, stays. -/
def resetPort (p : Pkg) (i : Nat) (wasIn : Bool) : Pkg :=
  let p1 := setBit (setPort p i PortSt.empty) (key pgRt 0x130) i false
  if wasIn then
    let p2 := setBit p1 (plStatus i) 27 true
    if p.seq.lasers then setPlState p2 i stTraining else p2
  else p1

/-- The bridges of a page: meridian n, 4 + s the graticule of sheet s, 8 + s the link-die bridge toward sheet s. -/
def bridgesOf (pg : Nat) : List Nat :=
  match pageInfo pg with
  | some pi => if pi.cls = 0x06 then [pi.inst] else if pi.cls = 0x07 then [4 + pi.die] else [8, 9, 10, 11]
  | none => []

def dropBridges (p : Pkg) (pg : Nat) : Pkg :=
  let mine (k : Nat) : Bool := (bridgesOf pg).contains (k / 2)
  { p with fault := { p.fault with
      bridgeSpare := SMap.drop p.fault.bridgeSpare mine, bridgeDown := SMap.drop p.fault.bridgeDown mine } }

/-- What a block other than a CE loses beside its registers and queues; `old` is the package before the reset. -/
def unitWork (old p : Pkg) (pi : PageInfo) : Pkg :=
  match pi.cls with
  | 0x02 => if pi.inst = 0 then
      { p with fault := { p.fault with replica := SMap.drop p.fault.replica (fun k => k / 64 == pi.die) } } else p
  | 0x03 => let sl := 64 * pi.die + pi.inst; dropSliceWatches (clearPins p sl) sl
  | 0x04 => dropController p (2 * pi.die + pi.inst)
  | 0x05 => dropController p (8 + pi.inst)
  | 0x06 => dropBridges p pi.first
  | 0x07 => dropBridges p pi.first
  | 0x08 =>
    let h := p.hl
    { p with
      hl := { HlSt.initial with cfg := h.cfg, rpCfg := h.rpCfg, spdm := h.spdm, sessions := h.sessions, streams := h.streams }
      memc := { p.memc with acc := SMap.drop p.memc.acc (fun k => k == 8) }
      home := { p.home with devCache := [] } }
  | 0x09 => resetPort p pi.inst (cable old pi.inst)
  | 0x0A =>
    let r := { p.rt with bearing := [], landed := [], mailbox := [], colSeen := [], performed := [], inject := [], arrived := [] }
    let fall (q : Pkg) (i : Nat) : Pkg := if plState q i = stAdmitted then setPlState q i stTrained else q
    (List.range 6).foldl fall (dropBridges { p with rt := r } pi.first)
  | 0x0B => setBit { p with boot := { p.boot with staged := none } } updStatus 29 (p.boot.activeSlot == 1)
  | 0x0C =>
    setFld { p with pwr := { p.pwr with contours := [], gateSet := 0 } } (key pgPwr 0x2C0) 31 16
      (fld old (key pgPwr 0x2C0) 31 16)
  | 0x0D => dropCommands p
  | 0x0E => { p with xl := XlSt.initial }
  | 0x0F => dropHarts p pi.inst
  | 0x10 =>
    { p with pace := { p.pace with
        ctlActive := 2, masterNode := noNode, goodExch := 0, latches := [], latchAt := [] } }
  | 0x11 => { p with fuse := { p.fuse with requests := [], serving := false } }
  | 0x12 => { p with traces := p.traces.filter (fun x => pgTr x.1 != pi.first) }
  | _ => p

/-- Classes with a survey of their own, beside the CE (Table 19-4). -/
def hasSurvey (cls : Nat) : Bool := [0x02, 0x03, 0x0D, 0x0E, 0x0F, 0x12].contains cls

/-- RESET_UNIT of a CE: it is lost with cause 2 (R627); a retired one stays retired, one in its survey or a waiting spare
only starts anew. -/
def resetCe (p : Pkg) (n : Nat) : Pkg :=
  let pg := pgCe n
  let anew (q : Pkg) : Pkg := resetBlock (setCe q n Ce.empty) pg 0
  let spare := cePos n == SMap.get p.fuse.sparePos (ceQd n) 24 && bit p (key (pgQd (ceQd n)) 0x104) 7
  if retired p pg && !surveying p pg then setBit (anew p) (key pg 8) 3 true
  else if retired p pg then isolateCe p n
  else if surveying p pg || spare then startSurvey (anew p) pg
  else ceLose p n 2

/-- READY after a unit reset is the reset's own: neither safe hold nor ENABLE gives it back. -/
def forgetReady (p : Pkg) (first : Nat) : Pkg :=
  { p with
    pwr := { p.pwr with heldReady := p.pwr.heldReady.filter (· != first) }
    disabled := SMap.set p.disabled first false }

/-- R147: the block's fields at their reset values, its work lost, its survey run; without a survey READY rises at once, but
on an HBM controller, whose training must end first. -/
def resetUnit (p : Pkg) (first : Nat) : Pkg :=
  match pageInfo first with
  | none => p
  | some pi =>
    if pi.cls = 0x01 then resetCe (forgetReady p first) (256 * pi.die + pi.inst)
    else
      let q := unitWork p (resetBlock (forgetReady p first) first 0) pi
      if hasSurvey pi.cls then startSurvey q first
      else if pi.cls = 0x04 then q
      else if pi.cls = 0x05 then
        if q.memc.ddrPhase = 1 ∧ (q.memc.ddrHalf = 0 ∨ pi.inst / 4 + 1 = q.memc.ddrHalf) then becomeReady q first else q
      else becomeReady q first

/-! ## PAGE_CONTROL (R144 to R146, R150, R151) -/

/-- R146: ENABLE 0 drains the block; ENABLE 1 brings READY back where ENABLE 0 took it away. -/
def putEnable (p : Pkg) (first : Nat) (was : Bool) : Pkg :=
  if was && !enabled p first then drained p first
  else if !was && enabled p first && SMap.get p.disabled first false then
    let q := { p with disabled := SMap.set p.disabled first false }
    if retired q first || inFault q first || surveying q first then q else becomeReady q first
  else p

/-- The bits of PAGE_CONTROL beside ownership, on a block's first page (R128): ENABLE and QUIESCE, then RESET_UNIT. -/
def applyControl (p : Pkg) (pg : Nat) (v : W64) : Pkg :=
  if firstPage pg = pg then
    let was := enabled p pg
    let p1 := putEnable (setFld p (key pg 0xC) 1 0 (bitsOf v 1 0)) pg was
    if bitOf v 2 then resetUnit p1 pg else p1
  else p

/-- R151: RELEASE or HANDOVER, by the owner after the write's other bits, or by the surveyor without them. -/
def giveUpPage (p : Pkg) (rq : Requester) (pg : Nat) (v : W64) : Pkg :=
  let h := bitsOf v 11 8
  if rq.code ≠ 1 ∧ (rq.code = 0 ∨ rq.code ≠ owner p pg) then logForeign p rq pg 0xC
  else if (bitOf v 4 = true ∧ h ≠ 0) ∨ 4 ≤ h ∨ (h = 3 ∧ p.standalone = true) then p
  else setOwner (if rq.code = owner p pg then applyControl p pg v else p) pg h

/-- A write of PAGE_CONTROL, served whole. The surveyor's CLAIM makes it the owner "whatever OWNER was", so that its write's
other bits are discarded on a page of its own too; another owner's CLAIM bit has no effect (R150). -/
def putPageControl (rq : Requester) (pg : Nat) (v : W64) (p : Pkg) : Pkg :=
  if !present p pg then p
  else if bitOf v 3 = true ∧ (rq.code = 1 ∨ rq.code ≠ owner p pg) then
    if rq.code = 1 ∨ (owner p pg = 0 ∧ (rq.code = 2 ∨ rq.code = 3)) then setOwner p pg rq.code
    else logForeign p rq pg 0xC
  else if bitOf v 4 = true ∨ bitsOf v 11 8 ≠ 0 then giveUpPage p rq pg v
  else if rq.code = 0 ∨ rq.code ≠ owner p pg then logForeign p rq pg 0xC
  else applyControl p pg v

def execClaim (rq : Requester) (page : Nat) (value : W32) (s : State) : Out :=
  .next (s.onPkg (putPageControl rq page (value.setWidth 64)))

def execRelease (rq : Requester) (page : Nat) (value : W32) (s : State) : Out :=
  .next (s.onPkg (putPageControl rq page (value.setWidth 64)))

def execHandover (rq : Requester) (page : Nat) (value : W32) (s : State) : Out :=
  .next (s.onPkg (putPageControl rq page (value.setWidth 64)))

def execResetUnit (rq : Requester) (page : Nat) (value : W32) (s : State) : Out :=
  .next (s.onPkg (putPageControl rq page (value.setWidth 64)))

def execQuiesce (rq : Requester) (page : Nat) (value : W32) (s : State) : Out :=
  .next (s.onPkg (putPageControl rq page (value.setWidth 64)))

def execEnable (rq : Requester) (page : Nat) (value : W32) (s : State) : Out :=
  .next (s.onPkg (putPageControl rq page (value.setWidth 64)))

/-- Whether a block has no work left: a CE holds no command, a controller no request. -/
def idle (p : Pkg) (pg : Nat) : Bool :=
  match pageInfo pg with
  | some pi =>
    if pi.cls = 0x01 then (ce p (256 * pi.die + pi.inst)).cmd.isNone
    else if pi.cls = 0x04 then !memBusy p (2 * pi.die + pi.inst)
    else if pi.cls = 0x05 then !memBusy p (8 + pi.inst)
    else !blockWork p pg
  | none => true

/-- R144, R146: a quiesced or disabled block has finished its work: BUSY falls, and READY where ENABLE is 0. -/
def doBlockDrained (pg : Nat) (p : Pkg) : Pkg :=
  if present p pg && firstPage pg == pg && (quiesced p pg || !enabled p pg) && idle p pg then
    drained (if busyBit p pg then setBusy p pg false else p) pg
  else p

def execBlockDrained (pg : Nat) (s : State) : Out := .next (s.onPkg (doBlockDrained pg))

/-! ## EVENT_WINDOW_COUNT (R158, R625) -/

/-- Whether R158 accepts a value: THRESHOLD not 0, UNIT not 3, 1 s to 604,800 s. -/
def windowOk (v : W64) : Bool :=
  let u := bitsOf v 15 14
  let secs := bitsOf v 13 0 * (if u = 0 then 1 else if u = 1 then 60 else 3600)
  bitsOf v 23 16 != 0 && u != 3 && decide (1 ≤ secs) && decide (secs ≤ 604800)

/-- An accepted write starts a new window. -/
def putEventWindow (pg : Nat) (v : W64) (p : Pkg) : Pkg :=
  if windowOk v then newWindow (setFld p (key pg 0x2C) 23 0 (bitsOf v 23 0)) pg else p

def execEventWindowWrite (rq : Requester) (page : Nat) (value : W32) (s : State) : Out :=
  .next (s.onPkg (fun p => ifWrites p rq page 0x2C (fun q =>
    if firstPage page = page then putEventWindow page (value.setWidth 64) q else q)))

/-! ## Interrupt registers and ERR_SUMMARY -/

/-- Whether a page has interrupt registers of its own: a first page, or surveyor pages 1 to 3 (R128, R740). -/
def hasInt (pg : Nat) : Bool := firstPage pg == pg || classOf pg == 0x0B

/-- The bits of a page's INT_PENDING and INT_ENABLE; the others are reserved (R138, R739). -/
def intBits (pg : Nat) : W64 :=
  match pageInfo pg with
  | some pi => BitVec.ofNat 64 (intMask pi.cls pi.index)
  | none => 0

/-- INT_PENDING: a 1 clears the bit. -/
def putIntPending (pg : Nat) (v : W64) (p : Pkg) : Pkg :=
  setInt p pg (reg p (key pg 0x20) &&& ~~~(v &&& intBits pg)) (reg p (key pg 0x24))

def putIntEnable (pg : Nat) (v : W64) (p : Pkg) : Pkg := setInt p pg (reg p (key pg 0x20)) (v &&& intBits pg)

/-- R157: whether a routing word is accepted. -/
def routeOk (p : Pkg) (v : W64) : Bool :=
  match bitsOf v 31 30 with
  | 3 => !p.standalone
  | 2 => decide (bitsOf v 26 16 ≤ 47) && bitsOf v 10 0 != 0
  | _ => true

/-- INT_ROUTE, and QM_RING_CQ_ROUTE, which is laid out as it is. -/
def putRoute (k : Nat) (v : W64) (p : Pkg) : Pkg :=
  if routeOk p v then setReg p k (v &&& BitVec.ofNat 64 (msk 31 30 + msk 26 16 + msk 10 0)) else p

/-- ERR_SUMMARY: severities clear on 1; OVERFLOW takes LOST with it, and FOREIGN its count (Table 4-7). -/
def putErrSummary (pg : Nat) (v : W64) (p : Pkg) : Pkg :=
  let k := key pg 0x10
  let old := reg p k
  let v1 := old &&& ~~~(v &&& BitVec.ofNat 64 (msk 31 31 + msk 8 8 + msk 3 0))
  let v2 := if bitOf v 31 then withBits v1 30 24 0 else v1
  setReg p k (if bitOf v 8 then withBits v2 23 16 0 else v2)

end Sys2Proof.Machine
end

