-- ==== Sys2Proof/Machine/Access.lean ====
section
/-! DEFINITION. The control aperture (spec/04, spec/22): what a read returns and does, what a write does, and the host's way to
both through BAR0 (spec/15 R508, R510). -/

namespace Sys2Proof.Machine

/-! ## Reads (R92, R148, R699) -/

/-- Whether a 64-bit register is a datum-page register or a counter, whose two halves one latch joins. -/
def isCounter (k : Nat) : Bool :=
  match pageInfo (k / 0x1000) with
  | none => false
  | some pi =>
    let o := k % 0x1000
    let within (a b : Nat) : Bool := decide (a ≤ o ∧ o ≤ b ∧ o % 8 = 0)
    (o == 0x38 && pi.index == 0) ||
      (match pi.cls with
       | 0x01 => within 0x190 0x1A8 || within 0x300 0x388
       | 0x03 => within 0x110 0x130
       | 0x04 => within 0x110 0x138
       | 0x05 => within 0x110 0x138
       | 0x06 => within 0x108 0x118
       | 0x07 => within 0x108 0x118
       | 0x09 => o == 0x128 || o == 0x130 || o == 0x140
       | 0x0C => o == 0x2A8 || o == 0x2B0
       | 0x0D => pi.index == 0 && o == 0x130
       | 0x0E => pi.index == 0 && (o == 0x140 || o == 0x148)
       | 0x10 => o == 0x100 || o == 0x110 || within 0x128 0x150
       | 0x12 => o == 0x110
       | _ => false)

/-- A 32-bit read. The low half of a counter latches the high half; the high half then reads as latched, once. -/
def readHalf (off : Nat) (p : Pkg) : W64 × Pkg :=
  let k := off / 8 * 8
  if isCounter k && off == k then
    let hi : W32 := (readAt p (k + 4) 4).setWidth 32
    (readAt p k 4, { p with pace := { p.pace with
      latches := SMap.set p.pace.latches k hi, latchAt := SMap.set p.pace.latchAt k p.pace.datum } })
  else if isCounter k then
    match p.pace.latches.find? (fun x => x.1 == k) with
    | some (_, v) =>
      (v.setWidth 64, { p with pace := { p.pace with
        latches := SMap.drop p.pace.latches (fun i => i == k), latchAt := SMap.drop p.pace.latchAt (fun i => i == k) } })
    | none => (readAt p off 4, p)
  else (readAt p off 4, p)

/-- A pop by any party (R110 to R113): the word, and the queue after it where the owner popped. -/
def popWord (rq : Requester) (k : Nat) (p : Pkg) : W64 × Pkg :=
  if present p (k / 0x1000) = false then (0, p)
  else if rq.code = 0 ∨ rq.code ≠ owner p (k / 0x1000) ∨ (0x100 ≤ k % 0x1000 ∧ ready p (k / 0x1000) = false) then
    (notValid (queue p k), p)
  else
    let (w, q) := (queue p k).pop
    (w, setQueue p k q)

/-- A read of HL_CFG_DATA whose device the command does not name: its answer, or none, is a free value (R529). -/
def cfgReadFree (rq : Requester) (p : Pkg) : W64 × Pkg :=
  let v := Config.freeWord p.free
  match cfgReadOf rq (v.setWidth 32) (v.toNat / 2 ^ 32 % 2) (nextFree p) with
  | (some x, q) => (x.setWidth 64, q)
  | (none, q) => (0xFFFFFFFF, q)

/-- A naturally aligned read of 4 or 8 bytes of the control aperture: the value returned, and the package after it. -/
def readAccess (rq : Requester) (off bytes : Nat) (p : Pkg) : W64 × Pkg :=
  let k := off / 8 * 8
  if isPopKey k then (if bytes = 8 then popWord rq k p else (0, p))
  else if off = key pgHl 0x154 ∧ bytes = 4 then cfgReadFree rq p
  else if k = key pgHl 0x160 then mmioReadOf rq bytes (Config.freeWord p.free) (nextFree p)
  else if bytes = 8 then (readAt p off 8, p)
  else readHalf off p

/-- A read answers its requester. -/
def readOut (rq : Requester) (off bytes : Nat) (p : Pkg) : Pkg :=
  let (v, q) := readAccess rq off bytes p
  emitMsg q (.readData off v)

/-- A 32-bit read, of a counter's low half or any other word. -/
def execLowHalfRead (rq : Requester) (off : Nat) (s : State) : Out :=
  .next (s.onPkg (readOut rq (off / 4 * 4) 4))

/-- A latch 1 µs old is released. -/
def doLatchRelease (off : Nat) (p : Pkg) : Pkg :=
  let k := off / 8 * 8
  if p.pace.latches.any (fun x => x.1 == k) && decide (SMap.get p.pace.latchAt k 0 + 1000 ≤ p.pace.datum) then
    { p with pace := { p.pace with
      latches := SMap.drop p.pace.latches (fun i => i == k), latchAt := SMap.drop p.pace.latchAt (fun i => i == k) } }
  else p

def execLatchRelease (off : Nat) (s : State) : Out := .next (s.onPkg (doLatchRelease off))

/-! ## Writes of one register -/

/-- A register without effects of its own takes the value through its access bits. -/
def putPlain (k : Nat) (v : W64) (p : Pkg) : Pkg :=
  match regRow k with
  | some (r, _) => setReg p k (mergeWrite r (reg p k) v)
  | none => p

/-- The common registers (Table 4-1). -/
def putCommon (pi : PageInfo) (pg o : Nat) (v : W64) (p : Pkg) : Pkg :=
  if o = 0x20 ∧ hasInt pg = true then putIntPending pg v p
  else if o = 0x24 ∧ hasInt pg = true then putIntEnable pg v p
  else if o = 0x28 ∧ hasInt pg = true then putRoute (key pg 0x28) v p
  else if pi.index ≠ 0 then p
  else if o = 0x10 then putErrSummary pg v p
  else if o = 0x14 then putPlain (key pg 0x14) v p
  else if o = 0x2C then putEventWindow pg v p
  else p

/-- SLM_CONFIG: PIN_LIMIT above 8 discards the write; SEED loads the LFSR (Table 10-11, R359). -/
def putSlmConfig (sl : Nat) (v : W64) (p : Pkg) : Pkg :=
  if 8 < bitsOf v 23 20 then p
  else setFld (putPlain (key (pgSl sl) 0x100) v p) (key (pgSl sl) 0x104) 15 0 (lfsrSeed (bitsOf v 15 0))

/-- QM_FOLD_AREA: its base must lie in the scratchpad part; ENABLE asks for the whole 2 MiB (R296, Table 10-8). -/
def putFoldArea (v : W64) (p : Pkg) : Pkg :=
  match region (bitsOf v 51 21 * 0x200000) with
  | .slm sl _ =>
    let ways := scratchWays p sl
    if ways = 0 ∨ (bitOf v 0 = true ∧ ways < 16) then p else putPlain foldArea v p
  | _ => p

/-- XL_STATUS: a 1 clears PRI_STOPPED, and the page requests that waited for it go out (R478). -/
def putXlStatus (v : W64) (p : Pkg) : Pkg :=
  if bitOf v 31 && priStopped p then
    let p1 := setBit p (key pgXl 0x100) 31 false
    (p1.xl.pris.filter (fun x => !x.2.2)).foldl (fun q x => askPri q x.1 x.2.1) p1
  else p

/-- HL_CONTROL.LEGACY_ORDER stays while a ring is enabled (R524). -/
def putLegacyOrder (v : W64) (p : Pkg) : Pkg :=
  if (List.range 16).any (fun c => (List.range 64).any (fun r => ringEnabled p c r)) then p
  else putPlain (key pgHl 0x104) v p

def putCe (n o : Nat) (v : W64) (p : Pkg) : Pkg :=
  if o = 0x114 then putCeAbort n v p
  else if o = 0x180 then putL1Control n v p
  else if o = 0x184 then putL1Seed n v p
  else if 0x200 ≤ o ∧ o < 0x280 then putChartParam n ((o - 0x200) / 8) v p
  else putPlain (key (pgCe n) o) v p

def putQd (pi : PageInfo) (o : Nat) (v : W64) (p : Pkg) : Pkg :=
  if o = 0x180 then putPartition (8 * pi.die + pi.inst) v p
  else if pi.inst ≠ 0 then p
  else if o = 0x1D0 then putReplica pi.die v p
  else putPlain (key pi.first o) v p

def putHl (o width : Nat) (v : W64) (p : Pkg) : Pkg :=
  if o = 0x104 then putLegacyOrder v p
  else if o = 0x110 then putInsetBase v p
  else if o = 0x118 then putInsetNext v p
  else if o = 0x120 then putInsetControl v p
  else if o = 0x140 then putBounce v p
  else if o = 0x148 then putRootPort 0x148 (msk 63 12) v p
  else if o = 0x150 then putRootPort 0x150 (msk 27 2) v p
  else if o = 0x154 then putCfgData (v.setWidth 32) p
  else if o = 0x158 then putRootPort 0x158 (msk 63 2) v p
  else if o = 0x160 then putMmioData width v p
  else if o = 0x400 then putAccControl 8 v p
  else if o = 0x404 then putAccEpoch 8 v p
  else p

def putRt (pi : PageInfo) (pg o : Nat) (v : W64) (p : Pkg) : Pkg :=
  if pi.index = 0 then
    if o = 0x104 then putNodeId v p
    else if o = 0x114 then putBearing v p
    else if 0x118 ≤ o ∧ o < 0x130 then putNeighbour ((o - 0x118) / 4) v p
    else putPlain (key pg o) v p
  else if pi.index ≤ 5 then putLanding (240 * (pi.index - 1) + (o - 0x100) / 16) (o % 16 / 8) v p
  else putGroup (240 * (pi.index - 6) + (o - 0x100) / 16) (o % 16 / 8) v p

def putPwr (o : Nat) (v : W64) (p : Pkg) : Pkg :=
  if o = 0x200 then putFixedPace v p
  else if 0x240 ≤ o ∧ o < 0x2A0 then
    (if o % 32 / 4 = 0 ∨ 4 ≤ o % 32 / 4 then p else putLimit ((o - 0x240) / 32) (o % 32 / 4) v p)
  else if o = 0x2A0 then putContour v p
  else if o = 0x2C0 then putSafeHold v p
  else p

def putQm (pi : PageInfo) (pg o : Nat) (v : W64) (p : Pkg) : Pkg :=
  if pi.index = 0 then (if o = 0x118 then putFoldArea v p else putPlain (key pg o) v p)
  else if 17 ≤ pi.index then putDoorbell (pi.index - 17) ((o - 0x100) / 4) v p
  else if o < 0x140 then putPlain (key pg o) v p
  else
    let c := pi.index - 1
    let r := (o - 0x140) / 48
    match (o - 0x140) % 48 with
    | 0x00 => putRingBase c r 0 v p
    | 0x08 => putRingBase c r 8 v p
    | 0x10 => putSpillControl c r v p
    | 0x18 => putRingConfig c r v p
    | 0x20 => putCqHead c r v p
    | 0x24 => putRoute (ringKey c r 0x24) v p
    | 0x28 => putRingControl c r v p
    | _ => p

def putXl (pi : PageInfo) (pg o : Nat) (v : W64) (p : Pkg) : Pkg :=
  if pi.index = 0 then
    if o = 0x100 then putXlStatus v p
    else if o = 0x108 then putCtsControl v p
    else if o = 0x118 then putInvControl v p
    else putPlain (key pg o) v p
  else if pi.index ≤ 16 then
    (if o = 0x100 then putCtxConfig (pi.index - 1) v p else putCtxRoot (pi.index - 1) v p)
  else putDescriptor (480 * (pi.index - 17) + (o - 0x100) / 8) v p

def putCc (pi : PageInfo) (pg o : Nat) (v : W64) (p : Pkg) : Pkg :=
  if pi.index = 0 then
    if o = 0x104 then putMsg false v p
    else if pi.inst ≠ 0 then p
    else if o = 0x10C then apWrite p (apIndex p) (v.setWidth 32)
    else putPlain (key pg o) v p
  else if o = 0x100 then putMsg true v p
  else if o = 0x104 then putHartControl pi.inst v p
  else putPlain (key pg o) v p

def putTr (t pg o : Nat) (v : W64) (p : Pkg) : Pkg :=
  if o = 0x100 then putTraceControl t v p
  else if o = 0x108 then putTrBuffer t v p
  else if o = 0x118 then putTrConsumed t v p
  else if o = 0x124 ∧ bitsOf v 19 0 = 0 then p
  else putPlain (key pg o) v p

/-- A block-specific register takes a whole value; `width` is the width of the access. -/
def putBlock (pi : PageInfo) (pg o width : Nat) (v : W64) (p : Pkg) : Pkg :=
  match pi.cls with
  | 0x01 => putCe (256 * pi.die + pi.inst) o v p
  | 0x02 => putQd pi o v p
  | 0x03 =>
    let sl := 64 * pi.die + pi.inst
    if o = 0x100 then putSlmConfig sl v p else if o = 0x108 then putPinClear sl v p else p
  | 0x04 =>
    let b := 2 * pi.die + pi.inst
    if o = 0x108 then putPrio b v p else if o = 0x180 then putAccControl b v p
    else if o = 0x184 then putAccEpoch b v p else p
  | 0x05 => if o = 0x108 then putPrio (8 + pi.inst) v p else p
  | 0x08 => putHl o width v p
  | 0x09 => if o = 0x104 then putPlControl pi.inst v p else p
  | 0x0A => putRt pi pg o v p
  | 0x0B => if (pi.index = 1 ∨ pi.index = 2) ∧ o = 0x100 then putMboxCmd pi.index v p else putPlain (key pg o) v p
  | 0x0C => putPwr o v p
  | 0x0D => putQm pi pg o v p
  | 0x0E => putXl pi pg o v p
  | 0x0F => putCc pi pg o v p
  | 0x10 => if o = 0x10C then putDtControl v p else if o = 0x110 then putDtSet width v p
            else if o = 0x120 then putCapture v p else p
  | 0x12 => putTr (if pi.die < 4 then pi.die else 4) pg o v p
  | _ => putPlain (key pg o) v p

/-! ## Writes (R36, R139, R149) -/

/-- One register is written whole; `off` is the aperture offset of the access, which a foreign write's record names. -/
def writeOne (rq : Requester) (off k width : Nat) (v : W64) (s : State) : State :=
  let pg := k / 0x1000
  let o := k % 0x1000
  let at' := off % 0x1000
  match pageInfo pg with
  | none => s
  | some pi =>
    if o = 0xC then s.onPkg (putPageControl rq pg v)
    else if (fbField k).isSome then s.onPkg (fbRequest rq k (v.setWidth 32))
    else if k = key pgXl 0x130 then
      match writeFate s.pkg rq pg o with
      | .accepted => faultResume (v.setWidth 32) s
      | _ => s.onPkg (fun p => ifWrites p rq pg at' id)
    else if k = key 3 0x114 then
      let img := imageAt s.mem s.pkg
      s.onPkg (fun p => ifWrites (nextFree p) rq pg at' (putUpdControl img v))
    else if o < 0x100 then s.onPkg (fun p => ifWrites p rq pg at' (putCommon pi pg o v))
    else s.onPkg (fun p => ifWrites p rq pg at' (putBlock pi pg o width v))

/-- A 32-bit write: of a 32-bit register, or of one half of a 64-bit register, whose other half keeps its value. -/
def writeHalf (rq : Requester) (off : Nat) (v : W32) (s : State) : State :=
  match regRow off with
  | some (r, k) =>
    if r.bytes = 4 ∨ k = key pgHl 0x160 then writeOne rq off k 4 (v.setWidth 64) s
    else
      let old := readReg s.pkg k
      let w := if off = k then withBits old 31 0 v.toNat else withBits old 63 32 v.toNat
      writeOne rq off k 4 w s
  | none => s.onPkg (fun p => ifWrites p rq (off / 0x1000) (off % 0x1000) id)

/-- 8 bytes over two 32-bit registers are one write, of the lower register first (log entry 18). Over PAGE_STATE and
PAGE_CONTROL, PAGE_CONTROL's half decides what the write is, for PAGE_STATE takes no writes. A foreign write is judged once; the
surveyor's takes effect in its FB fields alone (R165). -/
def writeBoth (rq : Requester) (off : Nat) (v : W64) (s : State) : State :=
  let lo : W32 := v.setWidth 32
  let hi : W32 := BitVec.ofNat 32 (v.toNat / 2 ^ 32)
  let fb (a : Nat) : Bool := rq == .surveyor && (fbField a).isSome
  if off % 0x1000 = 8 then writeHalf rq (off + 4) hi s
  else if writeFate s.pkg rq (off / 0x1000) (off % 0x1000) = .foreign then
    if fb off || fb (off + 4) then
      let s1 := if fb off then writeHalf rq off lo s else s
      if fb (off + 4) then writeHalf rq (off + 4) hi s1 else s1
    else s.onPkg (fun p => logForeign p rq (off / 0x1000) (off % 0x1000))
  else writeHalf rq (off + 4) hi (writeHalf rq off lo s)

/-- A naturally aligned write of 4 or 8 bytes of the control aperture. -/
def writeAccess (rq : Requester) (off bytes : Nat) (v : W64) (s : State) : State :=
  let wide := match regRow off with
    | some (r, k) => r.bytes == 8 && k == off
    | none => false
  if bytes = 8 ∧ wide = true then writeOne rq off off 8 v s
  else if bytes = 8 then writeBoth rq off v s
  else writeHalf rq off (v.setWidth 32) s

def naturallyAligned (off bytes : Nat) : Bool := (bytes == 4 || bytes == 8) && off % bytes == 0

/-- R149. -/
def execRegisterWrite (rq : Requester) (off width : Nat) (value : W64) (s : State) : Out :=
  if naturallyAligned off width then .next (writeAccess rq off width value s) else .next s

/-! ## BAR0 (R508, R510) -/

/-- A dword of the MSI-X table and the PBA, at BAR0 offset 0x3FF7000 + o. -/
def msixRead (p : Pkg) (o : Nat) : W32 :=
  if o < 0x8000 then SMap.get p.int.msixTable (o / 4) (if o / 4 % 4 = 3 then 1 else 0)
  else if o < 0x8100 then
    BitVec.ofNat 32 (((List.range 32).filter (fun i => SMap.get p.int.pba (8 * (o - 0x8000) + i) false)).foldl
      (fun n i => n + 2 ^ i) 0)
  else 0

/-- A write of a dword of the MSI-X table; an unmasked vector sends its pending message. -/
def msixWrite (p : Pkg) (o : Nat) (v : W32) : Pkg :=
  if o < 0x8000 then
    let w := if o / 4 % 4 = 3 then v &&& 1 else if o / 4 % 4 = 0 then v &&& ~~~3 else v
    sendPending { p with int := { p.int with msixTable := SMap.set p.int.msixTable (o / 4) w } }
  else p

/-- The record of an access that BAR0 does not serve. -/
def barSize (p : Pkg) (bytes : Nat) : Pkg := logErr p pgHl ⟨0x82, 0, 0, 0, bytes % 16⟩

def bar0Read (off bytes : Nat) (p : Pkg) : Pkg :=
  if !naturallyAligned off bytes then emitMsg (barSize p bytes) (.bar0Data 0)
  else if off < 0x3FF7000 then
    let (v, q) := readAccess .host off bytes p
    emitMsg q (.bar0Data v)
  else
    let o := off - 0x3FF7000
    let hi := if bytes = 8 then (msixRead p (o + 4)).toNat * 2 ^ 32 else 0
    emitMsg p (.bar0Data (BitVec.ofNat 64 ((msixRead p o).toNat + hi)))

def bar0Write (off bytes : Nat) (v : W64) (s : State) : State :=
  if !naturallyAligned off bytes then s.onPkg (fun p => barSize p bytes)
  else if off < 0x3FF7000 then writeAccess .host off bytes v s
  else
    let o := off - 0x3FF7000
    s.onPkg (fun p =>
      let q := msixWrite p o (v.setWidth 32)
      if bytes = 8 then msixWrite q (o + 4) (BitVec.ofNat 32 (v.toNat / 2 ^ 32)) else q)

/-- Whether an offset lies on a doorbell page (R52). -/
def isDoorbell (off : Nat) : Bool := decide (pgQm + 17 ≤ off / 0x1000 ∧ off / 0x1000 < pgQm + 33)

/-- A host access of BAR0; a doorbell waits behind the CXL.mem writes that the host link holds, and BAR0 writes behind such a
doorbell (R336, R521). -/
def bar0Access (isWrite : Bool) (off bytes : Nat) (value : W64) (s : State) : State :=
  if 0x4000000 ≤ off then s
  else if isWrite then
    let behind := s.pkg.hl.held.any (fun c => match c with
      | .doorbell _ _ _ _ => true
      | .bar0Access _ _ _ _ => true
      | _ => false)
    if behind || (isDoorbell off && writesHeld s.pkg) then
      s.onPkg (fun p => holdRequest p (.bar0Access true ⟨0, off⟩ bytes value))
    else bar0Write off bytes value s
  else s.onPkg (bar0Read off bytes)

/-- A host access of BAR2: aligned accesses of 4 and 8 bytes of the component registers; others read zero and write nothing. -/
def bar2Access (isWrite : Bool) (off bytes : Nat) (value : W64) (p : Pkg) : Pkg :=
  let ok := naturallyAligned off bytes && decide (off < 0x10000)
  if isWrite then
    if ok then
      let q := compWrite p off (value.setWidth 32)
      if bytes = 8 then compWrite q (off + 4) (BitVec.ofNat 32 (value.toNat / 2 ^ 32)) else q
    else p
  else
    let hi := if bytes = 8 then (compRead p (off + 4)).toNat * 2 ^ 32 else 0
    emitMsg p (.bar0Data (if ok then BitVec.ofNat 64 ((compRead p off).toNat + hi) else 0))

/-- The function has BARs in the hosted personality alone: BAR0, and BAR2, whose accesses have no row of their own in the table
(DESIGN CHOICE, log entry 60); an access beyond a BAR's size is no access of it. -/
def execBar0Access (isWrite : Bool) (place : BarAt) (bytes : Nat) (value : W64) (s : State) : Out :=
  if s.pkg.standalone = true then .next s
  else if place.bar = 0 then .next (bar0Access isWrite place.off bytes value s)
  else if place.bar = 2 then .next (s.onPkg (bar2Access isWrite place.off bytes value))
  else .next s

/-! ## The end of a move of the inset window (R517) -/

/-- A held host request is served at the new base, and the doorbells behind it (R517 step 6, R336). -/
def serveHeld (s : State) (c : Instr) : State :=
  match c with
  | .hostMemRead hpa cacheIt => s.onPkg (hostRead hpa cacheIt s.mem)
  | .hostMemWrite hpa data mask => hostWrite hpa data mask s
  | .doorbell rq ctx ring value => s.onPkg (doDoorbell rq ctx ring value)
  | .bar0Access _ place bytes value => bar0Write place.off bytes value s
  | _ => s

/-- Steps 5 and 6: the base takes its new value, the move is counted, and held work goes on. -/
def finishMove (s : State) : State :=
  let p := s.pkg
  let p1 := setBit (setReg p (key pgHl 0x110) (reg p (key pgHl 0x118))) insetControl 31 false
  let p2 := setReg p1 (key pgHl 0x128) (BitVec.ofNat 64 (min 0xFFFFFFFF (p.pace.datum - p.hl.moveStart)))
  let p3 := setHl p2 { p2.hl with held := [] }
  let s1 := p.hl.held.foldl serveHeld { s with pkg := p3 }
  s1.onPkg (fun q =>
    let q1 := raiseBlock (bumpReg q (key pgHl 0x124) 1 0xFFFFFFFF) pgHl 0
    if q1.hl.uncommit then uncommit q1 else q1)

def execInsetMoveDone (s : State) : Out :=
  let p := s.pkg
  if insetMoving p = false then .next s
  else if (insetHostLines p).isEmpty = false then .next (s.onPkg callHost)
  else if holdersPaused p then .next (finishMove s)
  else .next s

end Sys2Proof.Machine
end

