-- ==== Sys2Proof/Machine/CoreWalk.lean ====
section
/-! DEFINITION. From a hart's virtual address to a physical one (spec/01 R39, spec/12 R416): the CSRs that its instructions write,
the PMP, one stage or two of the Sv39, Sv48 and Sv57 formats with Svnapot, Svpbmt and Svadu, and the translation cache. -/

namespace Sys2Proof.Machine

def excLoadMisaligned : Nat := 4
def excLoadAccess : Nat := 5
def excStoreMisaligned : Nat := 6
def excStoreAccess : Nat := 7

/-- The exception causes of an access: misaligned, access fault, page fault, guest-page fault (RISC-V privileged architecture). -/
def accessCause (write : Bool) : Nat := if write then excStoreAccess else excLoadAccess
def pageCause (write : Bool) : Nat := if write then 15 else 13
def guestCause (write : Bool) : Nat := if write then 23 else 21

/-! ## CSRs -/

/-- A CSR takes the value that an instruction writes: a root register (satp, vsatp, hgatp) with a MODE that Table 12-1 does not
name keeps its own, sstatus writes SUM and MXR of mstatus, and mcycle is kept as its difference to the die's beats. -/
def csrWrite (p : Pkg) (h n : Nat) (v : W64) : Pkg :=
  if n ∈ [0x180, 0x280, 0x680] then (if bitsOf v 63 60 ∈ [0, 8, 9, 10] then setCsr p h n v else p)
  else if n = 0x100 then setCsr p h 0x300 (withBits (csr p h 0x300) 19 18 (bitsOf v 19 18))
  else if n = 0xB00 then setCsr p h n (v - BitVec.ofNat 64 (SMap.get p.pace.beats 4 0))
  else setCsr p h n v

def csrWrites (p : Pkg) (h : Nat) (l : List (Nat × W64)) : Pkg := l.foldl (fun q x => csrWrite q h x.1 x.2) p

/-! ## PMP: 16 entries, granule 4 KiB -/

def pmpCfg (p : Pkg) (h i : Nat) : Nat := bitsOf (csr p h (0x3A0 + i / 8 * 2)) (8 * (i % 8) + 7) (8 * (i % 8))
def pmpAddr (p : Pkg) (h i : Nat) : Nat := bitsOf (csr p h (0x3B0 + i)) 53 0

/-- The trailing ones of a number. -/
def trailingOnes (fuel n : Nat) : Nat :=
  match fuel with
  | 0 => 0
  | k + 1 => if n % 2 = 1 then trailingOnes k (n / 2) + 1 else 0

/-- The bytes that an entry covers: from the first to before the second; none where it is off (NA4 cannot be selected). -/
def pmpRange (p : Pkg) (h i : Nat) : Nat × Nat :=
  match pmpCfg p h i / 8 % 4 with
  | 1 => (if i = 0 then 0 else pmpAddr p h (i - 1) / 1024 * 4096, pmpAddr p h i / 1024 * 4096)
  | 3 =>
    let a := pmpAddr p h i ||| 0x1FF
    let t := trailingOnes 54 a
    (a / 2 ^ (t + 1) * 2 ^ (t + 3), a / 2 ^ (t + 1) * 2 ^ (t + 3) + 2 ^ (t + 3))
  | _ => (0, 0)

/-- Whether the PMP permits an access of a privilege: the first entry that it meets must cover all of it and permit it; none meets it
only in M-mode. -/
def pmpOk (p : Pkg) (h priv : Nat) (write : Bool) (a n : Nat) : Bool :=
  match (List.range 16).find? (fun i => decide ((pmpRange p h i).1 < a + n) && decide (a < (pmpRange p h i).2)) with
  | none => priv == 3
  | some i =>
    decide ((pmpRange p h i).1 ≤ a) && decide (a + n ≤ (pmpRange p h i).2) &&
      ((priv == 3 && !(pmpCfg p h i).testBit 7) || (pmpCfg p h i).testBit (if write then 1 else 0))

/-! ## The walk -/

/-- What a translation comes to: a physical address, and whether its page is NC or IO; a wait; or an exception's cause. -/
inductive CoreRes where
  | ok (pa : Nat) (nc : Bool)
  | waits
  | fault (cause : Nat)
  deriving DecidableEq, Repr

/-- What a stage of a walk comes to: its leaf entry and level. -/
inductive LeafRes where
  | leaf (pte : W64) (level : Nat)
  | waits
  | fault (cause : Nat)
  deriving DecidableEq, Repr

/-- An access as the checks see it: whether it writes, whether it sets A and D, whether read or write permission is enough (the
cache-block operations), and the hart with its mode. -/
structure CoreAcc where
  h     : Nat
  write : Bool
  mark  : Bool
  mgmt  : Bool
  priv  : Nat
  virt  : Bool
  deriving DecidableEq, Repr

/-- What a leaf's page of 2 ^ 12 to 2 ^ 48 bytes makes of an address: base, size and PBMT (Svnapot: 16 pages). -/
def leafPages (e : W64) (level : Nat) : Nat := if bitOf e 63 then 16 else 512 ^ level
def leafPpn (e : W64) : Nat := if bitOf e 63 then bitsOf e 53 10 - 8 else bitsOf e 53 10
def leafPa (e : W64) (level va : Nat) : Nat := leafPpn e * 4096 + va % (leafPages e level * 4096)
def leafNc (e : W64) : Bool := bitsOf e 62 61 != 0

/-- Whether a leaf permits an access, beside U. -/
def leafPermits (c : CoreAcc) (mxr : Bool) (e : W64) : Bool :=
  let r := bitOf e 1 || (mxr && bitOf e 3)
  if c.mgmt then r || bitOf e 2 else if c.write then bitOf e 2 else r

/-- The address of an entry of a table, in the address space of the stage's tables; the root of a second stage has 2,048 entries. -/
def entryAt (root2 : Bool) (top level table va : Nat) : Nat :=
  table + 8 * (va / 2 ^ (12 + 9 * level) % (if root2 && level == top then 2048 else 512))

/-- One level of one stage. `tr` gives the physical address of an entry, for reading or for setting A and D; `cause` is the stage's
page fault. Entries are read by RdCur at their homes. -/
def stageWalk (c : CoreAcc) (tr : Pkg → Memory → Nat → Bool → CoreRes × Memory × Pkg) (permits : W64 → Bool) (cause : Nat)
    (root2 : Bool) (top va level table : Nat) (p : Pkg) (m : Memory) : LeafRes × Memory × Pkg :=
  let at' := entryAt root2 top level table va
  match tr p m at' false with
  | (.waits, m1, q) => (.waits, m1, q)
  | (.fault f, m1, q) => (.fault f, m1, q)
  | (.ok a _, m1, q) =>
    if !cacheable a then (.fault (accessCause c.write), m1, q)
    else match entryRead q m1 (idHart c.h) a 1 with
      | (.waits, q1) => (.waits, m1, q1)
      | (.poison, q1) =>
        (.fault (accessCause c.write), m1, if fate q1 a = .decode then decodeError q1 (pgOfHart c.h) a else q1)
      | (.entry e, q1) =>
        if !bitOf e 0 || reservedPte e level then (.fault cause, m1, q1)
        else if bitOf e 1 || bitOf e 3 then
          if !permits e then (.fault cause, m1, q1)
          else if !c.mark || markAd e c.write = e then (.leaf e level, m1, q1)
          else match tr q1 m1 at' true with
            | (.ok _ _, m2, q2) =>
              match entryMark q2 m2 (idHart c.h) a e (markAd e c.write) with
              | (some m3, q3) => (.leaf (markAd e c.write) level, m3, q3)
              | (none, q3) => (.waits, m2, q3)
            | (.waits, m2, q2) => (.waits, m2, q2)
            | (.fault f, m2, q2) => (.fault f, m2, q2)
        else match level with
          | 0 => (.fault cause, m1, q1)
          | l + 1 => stageWalk c tr permits cause root2 top va l (bitsOf e 53 10 * 4096) q1 m1

/-- An entry of tables that stand in physical memory: the PMP judges it as an access of S-mode. -/
def tableAt (c : CoreAcc) (p : Pkg) (m : Memory) (a : Nat) (write : Bool) : CoreRes × Memory × Pkg :=
  if pmpOk p c.h 1 write a 8 then (.ok a false, m, p) else (.fault (accessCause c.write), m, p)

/-- The MODE of a root register, the level of its root table, and the table. -/
def rootMode (root : W64) : Nat := bitsOf root 63 60
def rootTop (root : W64) : Nat := rootMode root - 6
def rootTable (root : W64) : Nat := bitsOf root 43 0 * 4096

/-- The second stage: a guest physical address by hgatp, as an access of U-mode. `write` is this access's own; a fault names the
hart's access. -/
def guestXlate (c : CoreAcc) (p : Pkg) (m : Memory) (gpa : Nat) (write : Bool) : CoreRes × Memory × Pkg :=
  let root := csr p c.h 0x680
  if rootMode root = 0 then (.ok gpa false, m, p)
  else if 2 ^ (23 + 9 * rootTop root) ≤ gpa then (.fault (guestCause c.write), m, p)
  else
    let mxr := bitOf (csr p c.h 0x300) 19
    let permits (e : W64) : Bool := bitOf e 4 && leafPermits { c with write := write } mxr e
    match stageWalk { c with write := write } (tableAt c) permits (guestCause c.write) true (rootTop root) gpa (rootTop root)
        (rootTable root / 16384 * 16384) p m with
    | (.leaf e l, m1, q) => (.ok (leafPa e l gpa) (leafNc e), m1, q)
    | (.waits, m1, q) => (.waits, m1, q)
    | (.fault f, m1, q) => (.fault f, m1, q)

/-- Whether an address fits a root's format: the bits above it equal its highest. -/
def canonical (root : W64) (va : Nat) : Bool :=
  let n := 12 + 9 * (rootTop root + 1)
  let high := va / 2 ^ (n - 1)
  high == 0 || high == 2 ^ (65 - n) - 1

/-- Whether the first stage's leaf permits the access: its permissions, and U by the privilege and SUM. -/
def hartPermits (p : Pkg) (c : CoreAcc) (e : W64) : Bool :=
  let mxr := bitOf (csr p c.h 0x300) 19 || (c.virt && bitOf (csr p c.h 0x200) 19)
  let sum := bitOf (csr p c.h (if c.virt then 0x200 else 0x300)) 18
  leafPermits c mxr e && (if c.priv = 0 then bitOf e 4 else !bitOf e 4 || sum)

/-- A leaf that the translation cache holds and that serves the access: of the same root, permitted, with D set for a write. -/
def tlbFind (p : Pkg) (c : CoreAcc) (root : W64) (va : Nat) : Option TlbEnt :=
  (hart p c.h).tlb.find? (fun t => t.satp == root && decide (t.page ≤ va / 4096) && decide (va / 4096 < t.page + t.pages) &&
    hartPermits p c t.pte && (!c.write || !c.mark || bitOf t.pte 7))

/-- A leaf joins the translation cache. -/
def tlbPut (p : Pkg) (h : Nat) (root : W64) (e : W64) (level va : Nat) : Pkg :=
  let n := leafPages e level
  let t : TlbEnt := ⟨va / 4096 / n * n, n, leafPpn e, root, e⟩
  setHart p h { hart p h with tlb := (t :: (hart p h).tlb).eraseDups }

/-- The walk of the first stage, counted (Table 20-7), and the second stage of what it gives. -/
def walkStages (c : CoreAcc) (root : W64) (va : Nat) (p : Pkg) (m : Memory) : CoreRes × Memory × Pkg :=
  let p0 := hartEvent p c.h 0x0A 1
  let tr := if c.virt then guestXlate c else tableAt c
  match stageWalk c tr (hartPermits p0 c) (pageCause c.write) false (rootTop root) va (rootTop root) (rootTable root) p0 m with
  | (.leaf e l, m1, q) =>
    if c.virt then
      match guestXlate c q m1 (leafPa e l va) c.write with
      | (.ok pa nc, m2, q1) => (.ok pa (if leafNc e then true else nc), m2, q1)
      | r => r
    else (.ok (leafPa e l va) (leafNc e), m1, tlbPut q c.h root e l va)
  | (.waits, m1, q) => (.waits, m1, q)
  | (.fault f, m1, q) => (.fault f, m1, q)

/-- The physical address of an access: none translated in M-mode; by the translation cache where it still holds the leaf, which only a
free value knows; else by the walk. -/
def coreXlate (c : CoreAcc) (va : Nat) (p : Pkg) (m : Memory) : CoreRes × Memory × Pkg :=
  let root := csr p c.h (if c.virt then 0x280 else 0x180)
  if 3 ≤ c.priv then (.ok va false, m, p)
  else if rootMode root = 0 then (if c.virt then guestXlate c p m va c.write else (.ok va false, m, p))
  else if !canonical root va then (.fault (pageCause c.write), m, p)
  else match (if c.virt then none else tlbFind p c root va) with
    | some t =>
      if bitOf (Config.freeWord p.free) 0 then
        (.ok (t.ppage * 4096 + (va - t.page * 4096)) (leafNc t.pte), m, nextFree p)
      else walkStages c root va (nextFree p) m
    | none => walkStages c root va p m

/-! ## Pieces (R318) -/

/-- A piece of an access: virtual and physical address, bytes, the place of its first byte in the value, and NC. -/
structure CPiece where
  va  : Nat
  pa  : Nat
  n   : Nat
  at' : Nat
  nc  : Bool
  deriving DecidableEq, Repr

/-- The pieces of an access, split at the naturally aligned 8-byte boundary that it crosses: virtual address, bytes, place. -/
def pieces (va : W64) (size : Nat) : List (Nat × Nat × Nat) :=
  let room := 8 - va.toNat % 8
  if size ≤ room then [(va.toNat, size, 0)]
  else [(va.toNat, room, 0), ((va.toNat + room) % 2 ^ 64, size - room, room)]

inductive PiecesRes where
  | ok (l : List CPiece)
  | waits
  | fault (cause : Nat) (va : W64)
  deriving DecidableEq, Repr

/-- Every piece translated, and its permission and the PMP's checked, before any is performed (R318). -/
def xlatePieces (c : CoreAcc) (l : List (Nat × Nat × Nat)) (p : Pkg) (m : Memory) : PiecesRes × Memory × Pkg :=
  match l with
  | [] => (.ok [], m, p)
  | (va, n, at') :: t =>
    match coreXlate c va p m with
    | (.waits, m1, q) => (.waits, m1, q)
    | (.fault f, m1, q) => (.fault f (BitVec.ofNat 64 va), m1, q)
    | (.ok pa nc, m1, q) =>
      if !(pmpOk q c.h c.priv c.write pa n || (c.mgmt && pmpOk q c.h c.priv false pa n)) then (.fault (accessCause c.write) (BitVec.ofNat 64 va), m1, q)
      else match xlatePieces c t q m1 with
        | (.ok r, m2, q1) => (.ok (⟨va, pa, n, at', nc⟩ :: r), m2, q1)
        | r => r

def misaligned (va : W64) (size : Nat) : Bool := va.toNat % size != 0

/-- What Table 12-3 makes of an access by its pieces: served as memory; by the control aperture or a window; or an access
fault. -/
inductive Target where
  | memory
  | control (off : Nat)
  | window (w off : Nat)
  | accessFault
  deriving DecidableEq, Repr

def targetOf (l : List CPiece) (mis : Bool) : Target :=
  if l.all (fun x => cacheable x.pa) then .memory
  else if mis then .accessFault
  else match l with
    | [x] =>
      match region x.pa with
      | .control o => .control o
      | .window w o => if w = 0 then .accessFault else .window w o
      | _ => .accessFault
    | _ => .accessFault

end Sys2Proof.Machine
end

