-- ==== Sys2Proof/Machine/Harts.lean ====
section
/-! DEFINITION. The memory accesses of the harts (spec/09 R318, R328 to R330, spec/12 R419 to R428, R441, R444, spec/13 R457,
R458): loads and stores, scalar and vector, the store buffer, atomics, fences, cache-block operations, and the end of a HOLD.
Exception causes are those of the RISC-V privileged architecture. -/

namespace Sys2Proof.Machine

/-! ## Execution -/

/-- Whether a hart may execute an instruction: RUNNING, or in WFI, which it then has left, with no FENCE that waits. -/
def mayExecute (p : Pkg) (h : Nat) : Bool :=
  decide (h < 48) && (hartState p h == 1 || hartState p h == 2) && !(hart p h).holding && !inHold p && !fenceWaits p h

/-- The hart executes: it has left WFI, and a FENCE before this instruction is complete. -/
def executes (p : Pkg) (h : Nat) : Pkg :=
  let q := setHartState p h 1
  setHart q h { hart q h with fencing := false }

/-- The hart executes with what its own instructions have set. -/
def executesWith (p : Pkg) (h : Nat) (ctl : CoreCtl) : Pkg := csrWrites (executes p h) h ctl.csrs

def sizeOk (size : Nat) : Bool := size == 1 || size == 2 || size == 4 || size == 8

/-- The access of an instruction as the checks see it. -/
def accOf (h : Nat) (ctl : CoreCtl) (write : Bool) : CoreAcc :=
  { h := h, write := write, mark := true, mgmt := false, priv := ctl.priv, virt := ctl.virt }

/-- How an access ends: performed, still to be performed, or with an exception. -/
inductive AccEnd where
  | done
  | waits
  | fault (cause : Nat) (va : W64)
  deriving DecidableEq, Repr

/-- The exception of an access is taken. -/
def endAccess (h : Nat) (r : AccEnd × State) : State :=
  match r with
  | (.fault c va, s) => s.onPkg (fun p => hartFault p h c va)
  | (_, s) => s

/-! ## The store buffer (R318, R329, R425) -/

def StoreEnt.covers (e : StoreEnt) (pa n : Nat) : Bool :=
  e.pa == pa / 64 && (List.range n).all (fun i => e.mask.testBit (pa % 64 + i))
def StoreEnt.overlaps (e : StoreEnt) (pa n : Nat) : Bool :=
  e.pa == pa / 64 && (List.range n).any (fun i => e.mask.testBit (pa % 64 + i))

/-- The newest entry that overlaps bytes of memory. -/
def newestOverlap (l : List StoreEnt) (pa n : Nat) : Option StoreEnt := l.reverse.find? (fun e => e.overlaps pa n)

/-- A store of n bytes joins the buffer: it merges with the newest entry where that is of its line and kind. -/
def bufferStore (l : List StoreEnt) (pa n v : Nat) (nc : Bool) : List StoreEnt :=
  let sh := 8 * (pa % 64)
  let mask := (2 ^ n - 1) * 2 ^ (pa % 64)
  let keep : Item := ~~~(BitVec.ofNat 512 ((2 ^ (8 * n) - 1) * 2 ^ sh))
  let data : Item := BitVec.ofNat 512 (v % 2 ^ (8 * n) * 2 ^ sh)
  match l.reverse with
  | e :: t =>
    if e.pa = pa / 64 ∧ e.nc = nc ∧ e.whole = false then
      ({ e with mask := e.mask ||| mask, data := (e.data &&& keep) ||| data } :: t).reverse
    else l ++ [⟨pa / 64, mask, data, nc, false⟩]
  | [] => [⟨pa / 64, mask, data, nc, false⟩]

/-- The hart owns the line it is about to write: RdOwn, or Upgrade where it still holds the line; not while the request waits. -/
def ownLine (p : Pkg) (m : Memory) (h pa : Nat) : Bool × Pkg :=
  if (dirLine p (pa / 64)).owner = some h then (true, p) else upgradeAt p m h pa

/-- The line's last writer (Table 20-5). -/
def wroteBy (p : Pkg) (h line : Nat) : Pkg :=
  { p with home := { p.home with writer := SMap.set p.home.writer line (idHart h) } }

/-- The bytes of the 8-byte words that a mask of eight names. -/
def wordBytes (words : Nat) : Nat :=
  (List.range 8).foldl (fun n i => if words.testBit i then n + 255 * 2 ^ (8 * i) else n) 0

/-- What an entry may write: the named words of its bytes, all of a store that is seen whole; nothing that an older entry of the buffer
also writes. -/
def drainMask (l : List StoreEnt) (i words : Nat) (e : StoreEnt) : Nat :=
  let mask := if e.whole then e.mask else e.mask &&& wordBytes words
  if (l.take i).any (fun o => o.pa == e.pa && o.mask &&& mask != 0) then 0 else mask

/-- The buffer after bytes of entry i have left it. -/
def drained' (l : List StoreEnt) (i mask : Nat) (e : StoreEnt) : List StoreEnt :=
  if e.mask = e.mask &&& mask then l.eraseIdx i else l.set i { e with mask := e.mask - (e.mask &&& mask) }

/-- Bytes of a store reach the line that the hart owns, or under NC and IO its home (R423); false where they must wait. -/
def storeLands (h : Nat) (e : StoreEnt) (mask : Nat) (rest : List StoreEnt) (s : State) : Bool × State :=
  let pa := e.pa * 64
  let leave (p : Pkg) : Pkg := setHart p h { hart p h with sb := rest }
  let m := writeBytes s.mem pa e.data (BitVec.ofNat 64 mask)
  if e.nc = false ∧ (dirLine s.pkg e.pa).owner = some h then
    (true, { s with mem := m, pkg := wroteBy (endRepair (leave s.pkg) e.pa) h e.pa })
  else match fateFor s.pkg (idHart h) pa (mask == 2 ^ 64 - 1) with
    | .served =>
      if e.nc then
        if hostHolds s.pkg pa then (false, s.onPkg (fun p => biStart p e.pa true none))
        else (true, { s with mem := m, pkg := homeWrite (leave s.pkg) pa false (idHart h) })
      else match ownLine s.pkg s.mem h pa with
        | (true, q) => (true, { s with mem := m, pkg := wroteBy (endRepair (leave q) e.pa) h e.pa })
        | (false, q) => (false, { s with pkg := q })
    | .decode => (true, s.onPkg (fun p => decodeError (leave p) (pgOfHart h) pa))
    | _ => (false, s)

/-- Words of entry i leave the buffer and are visible; false where they must wait. -/
def drainEnt (h i words : Nat) (s : State) : Bool × State :=
  let l := (hart s.pkg h).sb
  match l[i]? with
  | none => (false, s)
  | some e =>
    let mask := drainMask l i words e
    if mask = 0 then (false, s) else storeLands h e mask (drained' l i mask e) s

/-- As much of the buffer as can leave it now, oldest store first. -/
def drainAll (fuel h : Nat) (s : State) : State :=
  match fuel with
  | 0 => s
  | f + 1 =>
    match drainEnt h 0 255 s with
    | (true, t) => drainAll f h t
    | (false, t) => t

def drainHart (h : Nat) (s : State) : State := drainAll (hart s.pkg h).sb.length h s

/-- R318, R329: a store, or some 8-byte words of it, may leave the buffer at any time. -/
def execStoreBufferDrain (d : DrainArgs) (s : State) : Out :=
  if d.hart < 48 then .next (drainEnt d.hart d.entry d.words s).2 else .next s

/-! ## Loads (R318, R422 to R425) -/

/-- What one piece of a load finds. -/
inductive Piece where
  | value (v : Nat)
  | poison
  | waits
  deriving DecidableEq, Repr

/-- What memory holds of a piece. -/
def memPiece (m : Memory) (pa n : Nat) : Piece := if m.poisoned (pa / 64 * 64) 64 then .poison else .value (m.read pa n)

/-- One piece: from one buffered store of the hart; from its L2, where a line it lacks comes from the home; under NC and IO from the
home, which keeps no record of it (R423). -/
def loadPiece (h : Nat) (x : CPiece) (m : Memory) (p : Pkg) : Piece × Pkg :=
  match newestOverlap (hart p h).sb x.pa x.n with
  | some e => if e.covers x.pa x.n then (.value (e.data.toNat / 2 ^ (8 * (x.pa % 64)) % 2 ^ (8 * x.n)), p) else (.waits, p)
  | none =>
    if x.nc = false ∧ h ∈ (dirLine p (x.pa / 64)).harts then (memPiece m x.pa x.n, p)
    else match fateFor p (idHart h) x.pa false with
      | .served =>
        match (if x.nc then homeRead p x.pa 1 0 none else shareAt p m h x.pa) with
        | (true, q) => (memPiece m x.pa x.n, if x.nc then crossLine q (idHart h) x.pa true else q)
        | (false, q) => (.waits, q)
      | .decode => (.poison, decodeError p (pgOfHart h) x.pa)
      | _ => (.waits, p)

/-- The pieces in order; a waiting piece leaves the load to be tried again, a poisoned one is a precise access fault. -/
def loadPieces (h : Nat) (sink : Nat → Pkg → Pkg) (m : Memory) (l : List CPiece) (acc : Nat) (p : Pkg) : AccEnd × Pkg :=
  match l with
  | [] => (.done, sink acc p)
  | x :: t =>
    match loadPiece h x m p with
    | (.value v, q) => loadPieces h sink m t (acc + v * 2 ^ (8 * x.at')) q
    | (.poison, q) => (.fault excLoadAccess (BitVec.ofNat 64 x.va), hartEvent q h 0x0F 1)
    | (.waits, q) => (.waits, q)

/-- The request that a hart's access to a window sends (R488, R489). -/
def windowMsg (p : Pkg) (w off op arg : Nat) (payload : Item) : Msg :=
  let d := reg p (windowKey w)
  { op := op, cls := 0, vc := 0, rdClass := 0, replayed := false, poison := false, dest := bitsOf d 13 0, src := thisNode p,
    hops := 64, arg := arg, window := bitsOf d 25 16, offset := off, tag := 0, payload := payload, recs := [] }

/-- A load from a remote window: refused at the sender, it is an access fault; else its answer goes to `who`. -/
def loadWindow (h w off : Nat) (who : RemoteFor) (va : W64) (p : Pkg) : AccEnd × Pkg :=
  match senderCheck p w 0 none with
  | some _ => (.fault excLoadAccess va, p)
  | none =>
    let m := windowMsg p w off 1 0 0
    if 1024 ≤ remoteCount p m.dest then (.waits, p) else (.done, remotePut (hartEvent p h 0x10 1) who m w 0 (off / 64) 1024)

/-- A load from the control aperture. For sizes other than 4 and 8 bytes the spec gives no value: a free one. -/
def loadControl (off size : Nat) (sink : Nat → Pkg → Pkg) (p : Pkg) : Pkg :=
  if naturallyAligned off size then
    let (v, q) := readAccess .kernel off size p
    sink v.toNat q
  else sink (Config.freeWord p.free).toNat (nextFree p)

/-- A misaligned access that is split is counted (Table 20-7). -/
def countSplit (p : Pkg) (h : Nat) (l : List (Nat × Nat × Nat)) : Pkg := if 1 < l.length then hartEvent p h 0x09 1 else p

/-- One load of `size` bytes: `sink` takes its value, `who` an answer that comes from another package. -/
def loadOnce (h : Nat) (ctl : CoreCtl) (va : W64) (size : Nat) (who : RemoteFor) (sink : Nat → Pkg → Pkg) (s : State) :
    AccEnd × State :=
  let l := pieces va size
  match xlatePieces (accOf h ctl false) l (countSplit s.pkg h l) s.mem with
  | (.waits, m, q) => (.waits, { s with mem := m, pkg := q })
  | (.fault c v, m, q) => (.fault c v, { s with mem := m, pkg := q })
  | (.ok ps, m, q) =>
    let t : State := { s with mem := m, pkg := q }
    match targetOf ps (misaligned va size) with
    | .memory => let r := loadPieces h sink m ps 0 q; (r.1, { t with pkg := r.2 })
    | .control o => (.done, { t with pkg := loadControl o size sink q })
    | .window w o => let r := loadWindow h w o who va q; (r.1, { t with pkg := r.2 })
    | .accessFault => (.fault excLoadAccess va, t)

/-! ## Stores (R318, R425) -/

/-- A store to a remote window: a refused one is discarded with the record of R486, the hart in the context's place. -/
def storeWindow (h w off size : Nat) (va : W64) (value : Nat) (p : Pkg) : AccEnd × Pkg :=
  match senderCheck p w 1 none with
  | some cause => (.done, logWindow p h 0 cause w va.toNat)
  | none =>
    let sh := off % 8
    let m := windowMsg p w (off / 8 * 8) 3 ((2 ^ size - 1) * 2 ^ sh)
      (BitVec.ofNat 512 (value % 2 ^ (8 * size) * 2 ^ (8 * sh)))
    if 1024 ≤ remoteCount p m.dest then (.waits, p)
    else (.done, remotePut (hartEvent p h 0x10 1) (.coreStore h va) m w 0 (off / 64) 1024)

/-- The pieces of a store enter the buffer where it has room for all of them. -/
def bufferPieces (h value : Nat) (l : List CPiece) (p : Pkg) : AccEnd × Pkg :=
  let sb := l.foldl (fun b x => bufferStore b x.pa x.n (value / 2 ^ (8 * x.at')) x.nc) (hart p h).sb
  if 64 < sb.length then (.waits, p) else (.done, setHart p h { hart p h with sb := sb })

/-- One store of `size` bytes; every piece is translated and permitted before any is written, so that a fault leaves memory as it
was. -/
def storeOnce (h : Nat) (ctl : CoreCtl) (va : W64) (size value : Nat) (s : State) : AccEnd × State :=
  let l := pieces va size
  match xlatePieces (accOf h ctl true) l (countSplit s.pkg h l) s.mem with
  | (.waits, m, q) => (.waits, { s with mem := m, pkg := q })
  | (.fault c v, m, q) => (.fault c v, { s with mem := m, pkg := q })
  | (.ok ps, m, q) =>
    let t : State := { s with mem := m, pkg := q }
    match targetOf ps (misaligned va size) with
    | .memory => let r := bufferPieces h value ps q; (r.1, { t with pkg := r.2 })
    | .control o =>
      (.done, if naturallyAligned o size then writeAccess .kernel o size (BitVec.ofNat 64 value) t else t)
    | .window w o => let r := storeWindow h w o size va value q; (r.1, { t with pkg := r.2 })
    | .accessFault => (.fault excStoreAccess va, t)

/-! ## Vector accesses (R428) -/

/-- The exception of element i is taken with vstart = i; of a fault-only-first load's later element none is, and vl ends before it. -/
def elemTrap (h : Nat) (a : VecArgs) (i cause : Nat) (va : W64) (s : State) : State :=
  if a.first ∧ 0 < i then s.onPkg (fun p => setCsr (setCsr p h 0xC20 (BitVec.ofNat 64 i)) h 0x008 0)
  else s.onPkg (fun p => elemFault p h i cause va)

/-- The elements from vstart on, each as a scalar access of the element width, in order. One that waits leaves the instruction to be
tried again from there. -/
def vecElems (h : Nat) (a : VecArgs) (one : Nat → W64 → State → AccEnd × State) (l : List (Nat × W64)) (s : State) : State :=
  match l with
  | [] => s.onPkg (fun p => setCsr (hartEvent p h 0x0D 1) h 0x008 0)
  | (i, va) :: t =>
    if i < (csr s.pkg h 0x008).toNat then vecElems h a one t s
    else match one i va s with
      | (.done, u) => vecElems h a one t u
      | (.waits, u) => u.onPkg (fun p => setCsr p h 0x008 (BitVec.ofNat 64 i))
      | (.fault c v, u) => elemTrap h a i c v u

/-- A load, of a register or of vector elements. -/
def coreLoad (h : Nat) (ctl : CoreCtl) (va : W64) (size rd : Nat) (signed : Bool) (vec : Option VecArgs) (s : State) : State :=
  if mayExecute s.pkg h && sizeOk size then
    let t := s.onPkg (fun p => executesWith p h ctl)
    match vec with
    | none =>
      endAccess h (loadOnce h ctl va size (.coreLoad h rd size signed va) (fun v p => setX p h rd (loadValue v size signed)) t)
    | some a =>
      vecElems h a (fun i w u =>
        loadOnce h ctl w size (.vecLoad h a.vreg i size w) (fun v p => setElem p h a.vreg i size v) u) a.elems t
  else s

def execCoreLoad (h : Nat) (ctl : CoreCtl) (va : W64) (size rd : Nat) (signed : Bool) (vec : Option VecArgs) (s : State) : Out :=
  .next (coreLoad h ctl va size rd signed vec s)

/-- A store, of a register's value or of vector elements. -/
def coreStore (h : Nat) (ctl : CoreCtl) (va : W64) (size : Nat) (value : W64) (vec : Option VecArgs) (s : State) : State :=
  if mayExecute s.pkg h && sizeOk size then
    let t := s.onPkg (fun p => executesWith p h ctl)
    match vec with
    | none => endAccess h (storeOnce h ctl va size value.toNat t)
    | some a => vecElems h a (fun i w u => storeOnce h ctl w size (vecElem u.pkg h a.vreg i size) u) a.elems t
  else s

/-- A store has no fault-only-first form. -/
def execCoreStore (h : Nat) (ctl : CoreCtl) (va : W64) (size : Nat) (value : W64) (vreg : Nat) (elems : Option (List (Nat × W64)))
    (s : State) : Out :=
  .next (coreStore h ctl va size value (elems.map (fun l => ⟨vreg, l, false⟩)) s)

/-! ## Atomics (R330, R457, R458) -/

/-- The value that an atomic stores, from the old value and the operand as `size` bytes. -/
def amoValue (op : AmoOp) (size old v : Nat) : Nat :=
  let m := 2 ^ (8 * size)
  let sx (a : Nat) : Int := if m / 2 ≤ a then (a : Int) - m else a
  match op with
  | .swap => v
  | .add => (old + v) % m
  | .xor => old ^^^ v
  | .and => old &&& v
  | .or => old ||| v
  | .min => if sx old ≤ sx v then old else v
  | .max => if sx v ≤ sx old then old else v
  | .minu => min old v
  | .maxu => max old v
  | .lr => old
  | .sc => v

/-- LR on an owned line: the load, and the reservation. -/
def loadReserved (h : Nat) (va : W64) (pa size rd : Nat) (s : State) : AccEnd × State :=
  if s.mem.poisoned (pa / 64 * 64) 64 then (.fault excLoadAccess va, s.onPkg (fun p => hartEvent p h 0x0F 1))
  else
    let v := loadValue (s.mem.read pa size) size true
    (.done, s.onPkg (fun p => let q := setX p h rd v; setHart q h { hart q h with resv := some (pa / 64) }))

/-- SC: it writes and gives 0 where the reservation on the line still stands; else it gives 1. The reservation ends. -/
def storeConditional (h pa size rd : Nat) (value : W64) (held : Bool) (s : State) : AccEnd × State :=
  let ends (p : Pkg) : Pkg := answerDelayed (setHart p h { hart p h with resv := none }) h
  if held then
    (.done, { s with
      mem := s.mem.write pa size (value.toNat % 2 ^ (8 * size))
      pkg := wroteBy (ends (setX s.pkg h rd 0)) h (pa / 64) })
  else (.done, s.onPkg (fun p => ends (setX p h rd 1)))

/-- An atomic on a line that the hart owns. -/
def atomicOn (h : Nat) (op : AmoOp) (va : W64) (pa size rd : Nat) (value : W64) (s : State) : AccEnd × State :=
  match op with
  | .lr => loadReserved h va pa size rd s
  | .sc => storeConditional h pa size rd value true s
  | _ =>
    if s.mem.poisoned (pa / 64 * 64) 64 then (.fault excStoreAccess va, s.onPkg (fun p => hartEvent p h 0x0F 1))
    else
      let old := s.mem.read pa size
      (.done, { s with
        mem := s.mem.write pa size (amoValue op size old (value.toNat % 2 ^ (8 * size)))
        pkg := wroteBy (setX s.pkg h rd (loadValue old size true)) h (pa / 64) })

/-- An aligned atomic on memory, once the hart's own stores to the line, or with rl all its stores, have left the buffer. -/
def atomicMem (h : Nat) (op : AmoOp) (va : W64) (pa size rd : Nat) (value : W64) (rel : Bool) (s : State) : AccEnd × State :=
  let mine (e : StoreEnt) : Bool := rel || e.pa == pa / 64
  let t := if (hart s.pkg h).sb.any mine then drainHart h s else s
  if (hart t.pkg h).sb.any mine then (.waits, t)
  else if op = .sc ∧ (hart t.pkg h).resv ≠ some (pa / 64) then storeConditional h pa size rd value false t
  else if (dirLine t.pkg (pa / 64)).owner = some h then atomicOn h op va pa size rd value t
  else match fateFor t.pkg (idHart h) pa false with
    | .served =>
      match ownLine t.pkg t.mem h pa with
      | (true, q) => atomicOn h op va pa size rd value { t with pkg := q }
      | (false, q) => (.waits, { t with pkg := q })
    | .decode => (.fault (accessCause (op != .lr)) va, t.onPkg (fun p => decodeError p (pgOfHart h) pa))
    | _ => (.waits, t)

def atomicOnce (h : Nat) (ctl : CoreCtl) (op : AmoOp) (va : W64) (size rd : Nat) (value : W64) (rel : Bool) (s : State) :
    AccEnd × State :=
  if misaligned va size then (.fault (if op = .lr then excLoadMisaligned else excStoreMisaligned) va, s)
  else match xlatePieces (accOf h ctl (op != .lr)) [(va.toNat, size, 0)] s.pkg s.mem with
    | (.waits, m, q) => (.waits, { s with mem := m, pkg := q })
    | (.fault c v, m, q) => (.fault c v, { s with mem := m, pkg := q })
    | (.ok [x], m, q) =>
      if cacheable x.pa then atomicMem h op va x.pa size rd value rel { s with mem := m, pkg := q }
      else (.fault (accessCause (op != .lr)) va, { s with mem := m, pkg := q })
    | (.ok _, m, q) => (.done, { s with mem := m, pkg := q })

def coreAmo (h : Nat) (ctl : CoreCtl) (op : AmoOp) (va : W64) (size rd : Nat) (value : W64) (rel : Bool) (s : State) : State :=
  if mayExecute s.pkg h && (size == 4 || size == 8) then
    endAccess h (atomicOnce h ctl op va size rd value rel (s.onPkg (fun p => executesWith p h ctl)))
  else s

def execCoreAmo (h : Nat) (ctl : CoreCtl) (op : AmoOp) (va : W64) (size rd : Nat) (value : W64) (rel : Bool) (s : State) : Out :=
  .next (coreAmo h ctl op va size rd value rel s)

/-! ## Fences (R328, R420, R426, R427) -/

/-- FENCE with w among its predecessors: the hart's earlier stores leave the buffer. It is complete when none is left and every
store to a window has been answered; until then the hart executes nothing more. -/
def fence (h pred : Nat) (s : State) : State :=
  if mayExecute s.pkg h then
    let t := s.onPkg (fun p => executes p h)
    if pred.testBit 0 then drainHart h (t.onPkg (fun p => setHart p h { hart p h with fencing := true })) else t
  else s

/-- `pred` and `succ` are the instruction's sets: i 8, o 4, r 2, w 1. -/
def execFence (h pred _succ : Nat) (s : State) : Out := .next (fence h pred s)
def execFenceTso (h : Nat) (s : State) : Out := .next (fence h 3 s)

def execFenceI (h : Nat) (s : State) : Out :=
  .next (s.onPkg (fun p => if mayExecute p h then
    let q := executes p h
    setHart q h { hart q h with icache := [] } else p))

def execSfenceVma (h : Nat) (s : State) : Out :=
  .next (s.onPkg (fun p => if mayExecute p h then
    let q := executes p h
    setHart q h { hart q h with tlb := [] } else p))

/-! ## Cache-block operations (R419, R421) -/

/-- A cache-block operation on a line: the hart's buffered stores to it leave first; an address in a reserved range is an
access fault, and one in an aperture has no copy to act on. -/
def cboOnce (h : Nat) (ctl : CoreCtl) (va : W64) (f : Nat → Pkg → Pkg) (s : State) : AccEnd × State :=
  match xlatePieces { accOf h ctl true with mgmt := true, mark := false } [(va.toNat, 1, 0)] s.pkg s.mem with
  | (.waits, m, q) => (.waits, { s with mem := m, pkg := q })
  | (.fault c v, m, q) => (.fault c v, { s with mem := m, pkg := q })
  | (.ok l, m, q) =>
    let t : State := { s with mem := m, pkg := q }
    match targetOf l false with
    | .memory =>
      let pa := (l.map (·.pa)).headD 0
      let mine (e : StoreEnt) : Bool := e.pa == pa / 64
      let u := if (hart t.pkg h).sb.any mine then drainHart h t else t
      if (hart u.pkg h).sb.any mine then (.waits, u) else (.done, u.onPkg (f pa))
    | .accessFault => (.fault excStoreAccess va, t)
    | _ => (.done, t)

def cbo (h : Nat) (ctl : CoreCtl) (va : W64) (f : Nat → Pkg → Pkg) (s : State) : State :=
  if mayExecute s.pkg h then endAccess h (cboOnce h ctl va f (s.onPkg (fun p => executesWith p h ctl))) else s

def execCboClean (h : Nat) (acc : CoreAt) (s : State) : Out := .next (cbo h acc.ctl acc.va (fun pa p => cleanLine h pa p) s)
def execCboFlush (h : Nat) (acc : CoreAt) (s : State) : Out := .next (cbo h acc.ctl acc.va (fun pa p => giveUp p h (pa / 64)) s)
def execCboInval (h : Nat) (acc : CoreAt) (s : State) : Out := .next (cbo h acc.ctl acc.va (fun pa p => giveUp p h (pa / 64)) s)

/-- A store of 64 zero bytes, seen whole, enters the buffer where it has room. -/
def bufferZero (h pa : Nat) (nc : Bool) (p : Pkg) : AccEnd × Pkg :=
  let l := (hart p h).sb
  if 64 ≤ l.length then (.waits, p)
  else (.done, setHart p h { hart p h with sb := l ++ [⟨pa / 64, 2 ^ 64 - 1, 0, nc, true⟩] })

/-- CBO.ZERO: one store of 64 zero bytes. -/
def zeroOnce (h : Nat) (ctl : CoreCtl) (va : W64) (s : State) : AccEnd × State :=
  match xlatePieces (accOf h ctl true) [(va.toNat / 64 * 64, 64, 0)] s.pkg s.mem with
  | (.waits, m, q) => (.waits, { s with mem := m, pkg := q })
  | (.fault c v, m, q) => (.fault c v, { s with mem := m, pkg := q })
  | (.ok l, m, q) =>
    match targetOf l true, l with
    | .memory, x :: _ => let r := bufferZero h x.pa x.nc q; (r.1, { s with mem := m, pkg := r.2 })
    | _, _ => (.fault excStoreAccess va, { s with mem := m, pkg := q })

def cboZero (h : Nat) (ctl : CoreCtl) (va : W64) (s : State) : State :=
  if mayExecute s.pkg h then endAccess h (zeroOnce h ctl va (s.onPkg (fun p => executesWith p h ctl))) else s

def execCboZero (h : Nat) (acc : CoreAt) (s : State) : Out := .next (cboZero h acc.ctl acc.va s)

/-- The line of a prefetch of kind R, W or I (0, 1 and 2): requested from its home where that serves it and the hart lacks it. -/
def prefetchOnce (h kind pa : Nat) (m : Memory) (p : Pkg) : Pkg :=
  let line := pa / 64
  if cacheable pa = false then p
  else
    let here := if kind = 1 then decide ((dirLine p line).owner = some h) else decide (h ∈ (dirLine p line).harts)
    let q := if here || decide (fateFor p (idHart h) pa false ≠ .served) then (here, p)
      else if kind = 1 then ownLine p m h pa else shareAt p m h pa
    if kind = 2 ∧ q.1 = true then setHart q.2 h { hart q.2 h with icache := (line :: (hart q.2 h).icache).eraseDups } else q.2

/-- PREFETCH.R, W and I: never an exception; dropped where the address is not translated, not cacheable or not served. -/
def corePrefetch (h : Nat) (ctl : CoreCtl) (va : W64) (kind : Nat) (s : State) : State :=
  if mayExecute s.pkg h then
    let t := s.onPkg (fun p => executesWith p h ctl)
    match xlatePieces { accOf h ctl (kind == 1) with mark := false } [(va.toNat, 1, 0)] t.pkg t.mem with
    | (.ok [x], m, q) => { t with mem := m, pkg := prefetchOnce h kind x.pa m q }
    | (_, m, q) => { t with mem := m, pkg := q }
  else s

def execCorePrefetch (h : Nat) (acc : CoreAt) (kind : Nat) (s : State) : Out :=
  .next (corePrefetch h acc.ctl acc.va kind s)

/-! ## HELD and WFI (R441 to R444) -/

/-- The lines that a hart's caches hold. -/
def hartLines (p : Pkg) (h : Nat) : List Nat := (p.home.dir.filter (fun x => x.2.harts.contains h)).map (·.1)

/-- The hold completes: the hart's lines are written back and given up; a START that waited applies. -/
def doHeld (h : Nat) (p : Pkg) : Pkg :=
  let p1 := (hartLines p h).foldl (fun q l => giveUp q h l) (answerDelayed p h)
  let go := (hart p1 h).starting
  let p2 := setHart (setHartState p1 h 0) h { hart p1 h with holding := false, starting := false, resv := none, icache := [] }
  if go then startFromRegs p2 h else p2

/-- R441: the store buffer drains, then the hart is HELD. -/
def execHartHeld (h : Nat) (s : State) : Out :=
  if h < 48 ∧ (hart s.pkg h).holding = true then
    let t := drainHart h s
    if (hart t.pkg h).sb.isEmpty then .next (t.onPkg (doHeld h)) else .next t
  else .next s

/-- R444. -/
def execWfi (h : Nat) (s : State) : Out :=
  .next (s.onPkg (fun p => if hartRuns p h then setHartState p h 2 else p))

end Sys2Proof.Machine
end

