-- ==== Sys2Proof/Machine/Signals.lean ====
section
/-! DEFINITION. The operator signals and the sideband (spec/21): SGPIO frames with their lamps and inputs, the package button,
and the sideband's commands. -/

namespace Sys2Proof.Machine

/-! ## Lamps (R714, R717, R718) -/

def blinkLit (t : Nat) : Bool := decide (t % 1000000000 < 500000000)
def flashLit (t : Nat) : Bool := decide (t % 250000000 < 125000000)
def heartbeatLit (t : Nat) : Bool := decide (t % 2000000000 < 100000000)
def doubleLit (t : Nat) : Bool :=
  decide (t % 1000000000 < 100000000) || decide (200000000 ≤ t % 1000000000 ∧ t % 1000000000 < 300000000)

/-- A port lamp's code: 0 off, 1 blink, 2 solid, 3 flash. -/
def portLit (code t : Nat) : Bool :=
  match code with
  | 1 => blinkLit t
  | 2 => true
  | 3 => flashLit t
  | _ => false

/-- Whether the status lamp is lit; the boot failure's pattern runs on the internal oscillator: a free value. -/
def statusLit (p : Pkg) : Bool :=
  let t := p.pace.datum
  match lampCode p with
  | 0 => false
  | 1 => bitOf (Config.freeWord p.free) 0
  | 2 => flashLit t
  | 3 => doubleLit t
  | 4 => blinkLit t
  | 5 => heartbeatLit t
  | _ => true

/-- The output bits of a frame, drive d's bit b at 3 × d + b (Table 21-4). -/
def frameOut (p : Pkg) : BitVec 24 :=
  let lamp (i : Nat) : Nat :=
    bitNat (portLit (fld p (plStatus i) 25 24) p.pace.datum) * 2 ^ (3 * i) +
      bitNat (portLit (fld p (plStatus i) 23 22) p.pace.datum) * 2 ^ (3 * i + 1)
  BitVec.ofNat 24 ((List.range 6).foldl (fun n i => n + lamp i) 0 + bitNat (statusLit p) * 2 ^ 18)

/-! ## Inputs (R715, R716) -/

def opsStatus : Nat := key pgOps 0x100

/-- Where an input's level stands in a frame and, as recognised, in OPS_STATUS: inputs 0 to 5 cables, 6 to 11 port buttons, 12
the package button. -/
def inputBit (i : Nat) : Nat := if i < 6 then 3 * i else if i < 12 then 3 * (i - 6) + 1 else 18
def statusBit (i : Nat) : Nat := if i < 6 then 16 + i else if i < 12 then 8 + (i - 6) else 30

/-- The frames of 240 µs in a row that recognise a new level: 20 ms of a button, 100 ms of a cable. -/
def framesNeeded (i : Nat) : Nat := if i < 6 then 417 else 84

def setRun (p : Pkg) (i n : Nat) : Pkg := { p with ops := { p.ops with runs := SMap.set p.ops.runs i n } }

/-- A recognised level of a button: OPS_STATUS, and PL_STATUS.BUTTON of a port's. -/
def setButton (p : Pkg) (i : Nat) (level : Bool) : Pkg :=
  let p1 := setBit p opsStatus (statusBit i) level
  if i < 12 then setBit p1 (plStatus (i - 6)) 26 level else p1

/-- One input of a passing frame. -/
def sampleInput (bits : BitVec 24) (p : Pkg) (i : Nat) : Pkg :=
  let level := bits.getLsbD (inputBit i)
  let n := SMap.get p.ops.runs i 0 + 1
  if level = bit p opsStatus (statusBit i) then setRun p i 0
  else if n < framesNeeded i then setRun p i n
  else if i < 6 then opsCable (setRun p i 0) i level
  else setButton (setRun p i 0) i level

/-- OPS_STATUS.SGPIO_FAULT takes a value; a change sets BLOCK bit 1. -/
def setSgpioFault (p : Pkg) (b : Bool) : Pkg :=
  if bit p opsStatus 31 = b then p else raiseBlock (setBit p opsStatus 31 b) pgOps 1

/-- The check inputs of drive 7 read 1, 0, 1. -/
def framePasses (bits : BitVec 24) : Bool := bits.getLsbD 21 && !bits.getLsbD 22 && bits.getLsbD 23

/-- A frame: lamps out, inputs in. -/
def doSgpioFrame (bits : BitVec 24) (p : Pkg) : Pkg :=
  if p.boot.started then
    let p1 := emitMsg p (.sgpio (frameOut p))
    let p2 := if p.boot.failed then nextFree p1 else p1
    if framePasses bits then
      let p3 := setSgpioFault p2 false
      (List.range 13).foldl (sampleInput bits) { p3 with ops := { p3.ops with lastPass := p.pace.datum } }
    else bumpReg p2 (key pgOps 0x10C) 1 0xFFFFFFFF
  else p

def execSgpioFrame (bits : BitVec 24) (s : State) : Out := .next (s.onPkg (doSgpioFrame bits))

/-- R715: 100 ms without a passing frame: every button reads released, and its run starts anew. -/
def doSgpioFault (p : Pkg) : Pkg :=
  if p.boot.started && decide (p.ops.lastPass + 100000000 ≤ p.pace.datum) then
    let p1 := setSgpioFault p true
    (List.range 7).foldl (fun q j => setButton (setRun q (6 + j) 0) (6 + j) false) p1
  else p

def execSgpioFault (s : State) : Out := .next (s.onPkg doSgpioFault)

/-- R719: a press of the package button, which is not seen while SGPIO_FAULT is set. The waypoint's argument is stated
nowhere: a free value. -/
def doPkgButtonPress (p : Pkg) : Pkg :=
  if p.boot.started && !bit p opsStatus 31 then
    let p1 := raiseBlock (bumpReg p (key pgOps 0x108) 1 0xFFFFFFFF) pgOps 0
    nextFree (waypoint p1 pgOps 0x07 0 ((Config.freeWord p.free).toNat % 65536))
  else p

def execPkgButtonPress (s : State) : Out := .next (s.onPkg doPkgButtonPress)

/-! ## The sideband (R723, R668) -/

/-- A sideband command is answered once the surveyor is READY (Table 19-5). -/
def sideband (p : Pkg) (f : Pkg → Pkg) : Pkg := if ready p pgSv then f p else p

def sidebandRead (off bytes : Nat) (p : Pkg) : Pkg :=
  if off % bytes ≠ 0 then emitMsg p (.sideband 1 0 0)
  else
    let (v, q) := readAccess .surveyor off bytes p
    emitMsg q (.sideband 0 bytes v.toNat)

def execRead32 (off : Nat) (s : State) : Out := .next (s.onPkg (fun p => sideband p (sidebandRead off 4)))
def execRead64 (off : Nat) (s : State) : Out := .next (s.onPkg (fun p => sideband p (sidebandRead off 8)))

/-- STATUS: SV_SEQ_STATUS, then SV_READY_MAP. -/
def sidebandStatus (p : Pkg) : Pkg :=
  emitMsg p (.sideband 0 12 ((readReg p (key pgSv 0x100)).toNat % 2 ^ 32 + (readReg p (key pgSv 0x110)).toNat * 2 ^ 32))

def execStatus (s : State) : Out := .next (s.onPkg (fun p => sideband p sidebandStatus))

/-- SEQ_REQUEST: a target above AUX is refused while PKG_ON is low, as is an argument that names none. -/
def seqRequest (arg : Nat) (p : Pkg) : Pkg :=
  if 2 < arg ∨ (arg ≠ 0 ∧ bit p svSeq 21 = false) then emitMsg p (.sideband 1 1 1)
  else emitMsg (setTarget p arg 1) (.sideband 0 1 0)

def execSeqRequest (arg : Nat) (s : State) : Out := .next (s.onPkg (fun p => sideband p (seqRequest arg)))

/-- The first I3C broadcast ends the target's answers as an SMBus target. -/
def doI3cBroadcast (p : Pkg) : Pkg := { p with ops := { p.ops with smbus := false } }
def execI3cBroadcast (s : State) : Out := .next (s.onPkg doI3cBroadcast)

end Sys2Proof.Machine
end

