-- ==== Sys2Proof/Machine/SafeHold.lean ====
section
/-! DEFINITION. Safe hold (spec/17 R608 to R611, R670), bridges that lose lanes or go DOWN (R469, R470, R639), the error log with
the recovery and threshold actions (spec/18 R619 to R626), and the sequencer's descent (spec/19 R665, R666, R669). -/

namespace Sys2Proof.Machine

/-! ## What safe hold and the descent do -/

/-- R611: a command stopped for safe hold: re-queued with REPEATS counting the abort, or UNIT_LOST. The abort is no loss of
R303's count. -/
def holdHandle (p : Pkg) (id n : Nat) : Pkg :=
  let c := cmd p id
  if c.phase = .finished ∨ c.phase = .trailing then finishCmd p id 0 0
  else if dRepeatable c.desc && !dInPlace c.desc && !(dPlace c.desc / 16384 % 4 == 3) then
    let q : QmSt := { p.qm with
      foldUsed := match c.fold with | some i => SMap.drop p.qm.foldUsed (fun k => k == i) | none => p.qm.foldUsed }
    setCmd { p with qm := q } id { c with
      phase := .waiting, requeued := true, fold := none, progress := 0, ces := [],
      repeats := satAdd 255 c.repeats 1, firstLost := if c.repeats = 0 then n else c.firstLost }
  else finishCmd p id 0x11 n

/-- The running command of a CE is stopped by an internal abort for safe hold (R202, R609). -/
def holdAbort (p : Pkg) (n : Nat) : Pkg :=
  match (ce p n).cmd with
  | some id =>
    let c := cmd p id
    let p1 := ceStop (abortPoint p n 2) n
    let p2 := waypoint (addReg (addCmdBeats p1 id n) (key (pgCe n) 0x380) 1) (pgCe n) 0x11 (cmdSub c) 0x11
    holdHandle (ceRelease p2 n c) id n
  | none => p

/-- Every running engine command is stopped. -/
def abortEngines (p : Pkg) : Pkg := (p.ces.map (·.1)).foldl holdAbort p

/-- Every hart's store buffer drains. -/
def drainHarts (s : State) : State := (s.pkg.harts.map (·.1)).foldl (fun t h => drainHart h t) s

/-- Lasers off: ports that are up go down with the record of a silent link, the others are DOWN (R609, R665). -/
def lasersOff (p : Pkg) : Pkg :=
  (List.range 6).foldl (fun q i => if linkUp q i then linkDown q i 2 else setPlState q i stDown)
    { p with seq := { p.seq with lasers := false } }

/-- READY falls on every other block; those that had it are remembered. -/
def readyFalls (p : Pkg) : Pkg :=
  let l := blockPages.filter (fun pg => ready p pg && !staysReady pg)
  let p1 := l.foldl (fun q pg => setReady q pg false) p
  { p1 with pwr := { p1.pwr with heldReady := (l ++ p1.pwr.heldReady).eraseDups } }

/-- Records that wait in the trace blocks' queues are dropped and counted before the blocks leave READY (Table 20-9). -/
def dropTraces (p : Pkg) : Pkg :=
  { p with traces := p.traces.map (fun (x : Nat × TraceBlk) =>
      (x.1, { x.2 with lost := x.2.lost + x.2.queue.length, queue := [] })) }

/-- Beat gate closed, VDD_S0 to VDD_S3 at 0.60 V, VDD_P at 0.65 V, memories in self-refresh. -/
def gateDown (p : Pkg) : Pkg :=
  (List.range 5).foldl (fun q r => target q r (if r < 4 then 600 else 650))
    { p with pwr := { p.pwr with gateClosed := true }, seq := { p.seq with memRefresh := true } }

/-- Table 17-6: the entry into safe hold, for cause 1 (coolant loss or trip) or 2 (MERIDIANS_LOST). An entry that stands is
not repeated. -/
def holdEntry (cause : Nat) (s : State) : State :=
  if pwrState s.pkg = 1 ∨ pwrState s.pkg = 2 then
    s.onPkg (fun p => { p with pwr := { p.pwr with holdCause := max p.pwr.holdCause cause } })
  else
    let s1 := drainHarts (s.onPkg (fun p => abortEngines (setPwrState p 1)))
    let p1 := readyFalls (dropTraces (gateDown (lasersOff s1.pkg)))
    let p2 := bumpFld p1 (key pgPwr 0x2C0) 31 16
    { s1 with pkg := setPwrState { p2 with pwr := { p2.pwr with holdCause := cause } } 2 }

/-- Descending step 3 has begun, or the package is at AUX: the core rails are down or going (R670). -/
def coreGoing (p : Pkg) : Bool :=
  seqState p == 0 || (seqState p == 3 && decide (seqStep p ≤ 3)) || (seqState p == 1 && decide (seqStep p < 2))

/-- R670, R684: what a coolant loss or trip leads to: the descent to AUX while climbing before step 5 is done; only the wait
for R612 at AUX, at QUIESCED and from descending step 3 on; else safe hold. -/
def holdEvent (s : State) : State :=
  let p := s.pkg
  let waits : Pkg := { p with seq := { p.seq with climbAfter := true } }
  if coreGoing p then { s with pkg := setBit waits svSeq 20 true }
  else if seqState p = 4 ∨ (seqState p = 1 ∧ p.seq.step5Done = false) then { s with pkg := waits }
  else holdEntry 1 s

/-- R608: a trip asserts THERM_TRIP_N and logs THERMAL_TRIP with the sensor. -/
def execThermalTrip (sensor : Nat) (s : State) : Out :=
  if s.pkg.boot.started then
    .next (holdEvent (s.onPkg (fun p => logErr (setBit p pwrStatus 26 true) pgPwr ⟨0x72, 0, 0, 0, sensor % 256⟩)))
  else .next s

/-- R609: TRAY_FLOW_OK, low for 100 µs, is recognised as deasserted. -/
def execCoolantLoss (s : State) : Out :=
  if bit s.pkg pwrStatus 27 then
    .next (holdEvent (s.onPkg (fun p =>
      let p1 := setBit p pwrStatus 27 false
      logErr { p1 with pwr := { p1.pwr with flowOkSince := none } } pgPwr ⟨0x73, 0, 0, 0, 0⟩)))
  else .next s

/-! ## Bridges (R469, R470, R639) -/

/-- The bridge of a kind: 0 meridian n, 1 graticule of sheet n, 2 the link-die bridge of sheet n. -/
def bridgeOf (kind n : Nat) : Option Nat := if kind < 3 ∧ n < 4 then some (4 * kind + n) else none

def bridgeBlock (b : Nat) : Nat := if b < 8 then bridgePage b else pgRt
def bridgeDetail (b dir : Nat) : Nat := dir % 2 * 128 + (if b < 8 then 0 else b % 4 * 256)

/-- Spares used in a direction (0 toward the sheet or sheet s + 1, 1 the other), and whether the bridge is DOWN. -/
def sparesUsed (p : Pkg) (b dir : Nat) : Nat := SMap.get p.fault.bridgeSpare (2 * b + dir % 2) 0
def bridgeLost (p : Pkg) (b : Nat) : Bool :=
  SMap.get p.fault.bridgeDown (2 * b) false || SMap.get p.fault.bridgeDown (2 * b + 1) false

/-- DETOUR and VIA of the meridians that are DOWN: the sheet whose meridian carries the detour (R470, Table 13-7). -/
def showVia (p : Pkg) : Pkg :=
  (List.range 4).foldl (fun q n =>
    let k := key (pgMer n) 0x100
    let via := meridianVia p n
    let some' := bridgeIsDown p n && !bridgeIsDown p via
    let q1 := if bit q k 30 = some' then q else raiseBlock (setBit q k 30 some') (pgMer n) 0
    setFld q1 k 29 28 (if some' then via else 0)) p

/-- A bridge goes DOWN: BRIDGE_DOWN is logged, traffic detours, and unacknowledged items are sent again; how many, only the
bridge knows: a free value. -/
def bridgeFails (p : Pkg) (b dir : Nat) : Pkg :=
  if bridgeLost p b then p
  else
    let pg := bridgeBlock b
    let p1 := logErr p pg ⟨0x51, 0, 0, 0, bridgeDetail b dir⟩
    let p2 := { p1 with fault := { p1.fault with bridgeDown := SMap.set p1.fault.bridgeDown (2 * b + dir % 2) true } }
    if b < 8 then
      let p3 := raiseBlock (setBit p2 (key pg 0x100) 31 true) pg 0
      let p4 := bumpReg (nextFree p3) (key pg 0x120) ((Config.freeWord p3.free).toNat % 2 ^ 32) 0xFFFFFFFF
      if b < 4 then showVia p4 else setBit p4 (key pg 0x100) 30 true
    else p2

/-- R470: all four meridians DOWN: MERIDIANS_LOST, and safe hold. -/
def meridiansCheck (s : State) : State :=
  if (List.range 4).all (bridgeIsDown s.pkg) ∧ s.pkg.pwr.holdCause ≠ 2 then
    holdEntry 2 (s.onPkg (fun p => logErr p pgPwr ⟨0x75, 0, 0, 0, 0xF⟩))
  else s

/-- A bridge fails; the fourth meridian brings safe hold. -/
def failBridge (b dir : Nat) (s : State) : State :=
  if s.pkg.seq.railPgCore = true ∧ bridgeLost s.pkg b = false then meridiansCheck (s.onPkg (fun p => bridgeFails p b dir)) else s

/-- MERIDIAN_DOWN names no direction: the record's is a free value. -/
def execMeridianDown (n : Nat) (s : State) : Out :=
  if n < 4 then .next (failBridge n ((Config.freeWord s.pkg.free).toNat % 2) (s.onPkg nextFree)) else .next s

/-- R639: a further lane of a direction whose two spares are used. -/
def execBridgeDown (kind n dir : Nat) (s : State) : Out :=
  match bridgeOf kind n with
  | some b => if dir < 2 ∧ 2 ≤ sparesUsed s.pkg b dir then .next (failBridge b dir s) else .next s
  | none => .next s

/-- SPARES_TOWARD or SPARES_FROM follows (Table 13-7); a change sets BLOCK bit 1. -/
def showSpares (p : Pkg) (b dir n : Nat) : Pkg :=
  if b < 8 then
    let k := key (bridgePage b) 0x100
    raiseBlock (if dir = 0 then setFld p k 15 8 n else setFld p k 7 0 n) (bridgePage b) 1
  else p

/-- A lane of a direction is replaced by a spare; without one the bridge fails. -/
def spareLane (b dir : Nat) (s : State) : State :=
  let n := sparesUsed s.pkg b dir
  if bridgeLost s.pkg b then s
  else if 2 ≤ n then failBridge b dir s
  else
    s.onPkg (fun p => showSpares { p with fault := { p.fault with
      bridgeSpare := SMap.set p.fault.bridgeSpare (2 * b + dir % 2) (n + 1) } } b dir (n + 1))

/-- R639: a failing lane: BRIDGE_LANE is logged and the spare takes its place. -/
def execBridgeLaneSpare (kind n dir lane : Nat) (s : State) : Out :=
  match bridgeOf kind n with
  | some b =>
    if dir < 2 ∧ lane < 66 ∧ s.pkg.seq.railPgCore = true then
      .next (spareLane b dir (s.onPkg (fun p => logErr p (bridgeBlock b) ⟨0x50, 0, 0, 0, lane + bridgeDetail b dir⟩)))
    else .next s
  | none => .next s

/-! ## The error log (R619 to R626) -/

/-- The classes whose blocks log a code (Table 18-4); any block where the list is empty. -/
def logsCode (code : Nat) : List Nat :=
  if code ∈ [0x20, 0x21, 0x22] then [0x01]
  else if code ∈ [0x23, 0x24] then [0x02]
  else if code ∈ [0x30, 0x31, 0x32, 0x33] then [0x04]
  else if code ∈ [0x40, 0x41, 0x42, 0x43] then [0x05]
  else if code ∈ [0x50, 0x51] then [0x06, 0x07, 0x0A]
  else if code ∈ [0x60, 0x61, 0x63] then [0x09]
  else if code = 0x62 then [0x0A]
  else if code ∈ [0x70, 0x72, 0x73, 0x74, 0x75] then [0x0C]
  else if code = 0x71 then [0x10]
  else if code ∈ [0x81, 0x82, 0x83, 0x84] then [0x08]
  else if code ∈ [0x90, 0x91] then [0x0E]
  else if code ∈ [0xB0, 0xB1] then [0x03]
  else if code = 0xC0 then [0x0B]
  else []

/-- The codes of Table 18-4. -/
def errCodes : List Nat :=
  [0x01, 0x02, 0x10, 0x11, 0x20, 0x21, 0x22, 0x23, 0x24, 0x30, 0x31, 0x32, 0x33, 0x40, 0x41, 0x42, 0x43] ++
  [0x50, 0x51, 0x60, 0x61, 0x62, 0x63, 0x70, 0x71, 0x72, 0x73, 0x74, 0x75, 0x80, 0x81, 0x82, 0x83, 0x84] ++
  [0x90, 0x91, 0xA0, 0xB0, 0xB1, 0xC0]

def blockLogs (pg code : Nat) : Bool :=
  decide (code ∈ errCodes) && ((logsCode code).isEmpty || decide (classOf pg ∈ logsCode code))

/-- R636: a correctable error in a second device of a rank with a marked one is uncorrectable. -/
def ddrCode (p : Pkg) (pg : Nat) (e : ErrArgs) : ErrArgs :=
  let d := e.detail % 256
  if classOf pg = 0x05 ∧ e.code = 0x40 ∧
      p.fault.marked.any (fun x => x.1 / 256 == pg && x.1 % 256 / 32 == d / 32 && x.1 % 256 != d) then
    { e with code := 0x41 }
  else e

/-- The line of an error with a package address is poisoned at its point of visibility, or replica repair runs (Table 18-3,
R645); a line under repair stays (Table 18-8). -/
def poisonLine (e : ErrArgs) (s : State) : State :=
  if e.addrKind = 1 ∧ populated s.pkg e.addr = true ∧ inRepair s.pkg e.addr = false then
    match replicaOf s.pkg e.addr with
    | some _ => replicaRepair e.addr s
    | none => { s with mem := s.mem.setPoison e.addr }
  else s

/-- The line is poisoned rather than repaired. -/
def willPoison (e : ErrArgs) (s : State) : Bool := (replicaOf s.pkg e.addr).isNone && !inRepair s.pkg e.addr

/-- The stack of an HBM controller page. -/
def stackOf (pg : Nat) : Nat := match pageInfo pg with | some pi => 2 * pi.die + pi.inst | none => 0

/-- Rows of a stack's channel spared since power-up (R634); a channel has two pseudo-channels. -/
def chanRows (p : Pkg) (stack chan : Nat) : Nat :=
  (p.fault.sparedRows.filter (fun x => x.1 / 65536 / 1024 == stack && x.1 / 65536 % 64 / 2 == chan)).length

/-- R633, R634: the row is spared, and at 64 spared rows its channel. -/
def spareRow (pg : Nat) (e : ErrArgs) (s : State) : State :=
  let stack := stackOf pg
  let chan := e.detail % 64 / 2
  let s1 := s.onPkg (fun p => rowSpare p stack e)
  if chanRows s.pkg stack chan = 63 ∧ chanRows s1.pkg stack chan = 64 then
    if stackSpared s1.pkg stack then channelFence stack chan s1 else s1.onPkg (fun p => channelSpare p stack chan)
  else s1

/-- What an SRAM_UNCORRECTABLE of a CE does (R202, R256, R751): a chart slot is emptied, with an internal abort where it is ACTIVE; an
accumulator that the running command uses makes an internal abort; any other array poisons the command (DEDUCED, log entry 69). -/
def ceSram (n : Nat) (e : ErrArgs) (p : Pkg) : Pkg :=
  if e.detail % 256 = 1 then
    let p1 := if (slot (ce p n) (e.unit % 4)).state = 3 then internalAbort p n else p
    setSlot p1 n (e.unit % 4) Slot.empty
  else if e.detail % 256 = 2 then if e.unit < (ceChart p n).longAccs then internalAbort p n else p
  else stopWith p n 0x10 0

/-- The CE of a CE page. -/
def ceOfPage (pg : Nat) : Nat := 256 * ((pg - 0x1000) / 0x200) + (pg - 0x1000) % 0x200

/-- The threshold action of Table 18-5 for a unit of the block's first tracker. -/
def thresholdAct (pg : Nat) (e : ErrArgs) (s : State) : State :=
  match classOf pg with
  | 0x01 => s.onPkg (fun p => ceLose p (ceOfPage pg) 3)
  | 0x04 => if e.code = 0x30 then spareRow pg e s else s
  | 0x05 => if e.code = 0x40 then s.onPkg (fun p => deviceMark p pg e) else s
  | 0x09 => if e.code = 0x60 then
      s.onPkg (fun p => surveyorRequest p 3 1 (2 * (pg - 0x20) + e.detail / 16 % 2) (e.detail % 16)) else s
  | 0x06 => if e.code = 0x50 then spareLane (pg - pgMer 0) (e.detail / 128 % 2) s else s
  | 0x07 => if e.code = 0x50 then
      spareLane (4 + (match pageInfo pg with | some pi => pi.die | none => 0)) (e.detail / 128 % 2) s else s
  | 0x0A => if e.code = 0x50 then spareLane (8 + e.detail / 256 % 4) (e.detail / 128 % 2) s else s
  | 0x0C => if e.code = 0x70 then s.onPkg (fun p =>
      if bit p (key pgPwr 0x124) (e.detail % 4) then p
      else raiseBlock (setBit p (key pgPwr 0x124) (e.detail % 4) true) pgPwr 3) else s
  | _ => s

/-- What the DEFERRED action is for an error with its own code, and for one that escalated to it: the line, or without an
address the threshold action (R623). The host link's device cache and IDE report through AER as well (R509). -/
def deferredAct (pg : Nat) (e : ErrArgs) (esc : Bool) (s : State) : State :=
  let s1 := poisonLine e s
  match e.code with
  | 0x21 => if esc then s else s.onPkg (fun p => internalAbort p (ceOfPage pg))
  | 0x11 => if classOf pg = 0x01 then s.onPkg (ceSram (ceOfPage pg) e) else if classOf pg = 0x08 then s1.onPkg (fun p => setAer p 22) else s1
  | 0x31 => if willPoison e s then spareRow pg e s1 else s1
  | 0x41 => s1.onPkg (fun p => ddrRowRepair p pg e)
  | 0x83 => s.onPkg (fun p => setAer p 28)
  | 0x84 => s
  | _ => if esc && e.addrKind == 0 then thresholdAct pg e s1 else s1

/-- The CONTAINED action: the unit is spared or retired (Table 18-3). -/
def containedAct (pg : Nat) (e : ErrArgs) (s : State) : State :=
  match classOf pg with
  | 0x01 => s.onPkg (fun p => ceLose p (ceOfPage pg) 0)
  | 0x04 => spareRow pg e (poisonLine e s)
  | 0x05 => (poisonLine e s).onPkg (fun p => ddrRowRepair p pg e)
  | _ => thresholdAct pg e (poisonLine e s)

/-- Table 18-3: the action of the severity that the record has; a threshold and an escalation of one unit are one action
(Table 18-8). An L1 or side buffer line with a parity error is discarded, and its load misses (R346). -/
def recoveryAct (pg : Nat) (e : ErrArgs) (sev : Nat) (esc hit row : Bool) (s : State) : State :=
  match sev with
  | 0 =>
    let s0 := if e.code = 0x22 ∧ e.addrKind = 1 then s.onPkg (fun p => l1Drop p (ceOfPage pg) (e.addr / 64)) else s
    let s1 := if hit then thresholdAct pg e s0 else s0
    if row then s1.onPkg (fun p => ddrRowRepair p pg e) else s1
  | 1 => deferredAct pg e esc s
  | 2 => if esc then containedAct pg e s else s
  | _ =>
    if e.code = 0x74 then { s with mem := s.mem.hostOnly, pkg := railsGone s.pkg }
    else if e.code = 0x75 then holdEntry 2 s
    else holdEvent s

/-- R619, R622, R623: the record is logged at detection, its target joins the handling list, and the recovery action runs; a
CONTAINED error's spare serves, or its unit is retired, at once, which ends its handling (Table 18-3). -/
def logAndAct (pg : Nat) (e : ErrArgs) (s : State) : State :=
  let sev := escalate s.pkg pg e
  let hit := thresholdHit s.pkg pg e
  let row := decide (classOf pg = 0x05) && thresholdAt s.pkg pg 1 e
  let p1 := logErr s.pkg pg e
  let p2 := if sev.1 < 2 then beginHandling p1 pg e else p1
  recoveryAct pg e sev.1 sev.2 hit row { s with pkg := p2 }

/-- R621: the entry of a block's error record queue whose SEQ the command carries is struck by an uncorrectable error. -/
def corruptRecord (p : Pkg) (pg seq : Nat) : Pkg :=
  let k := key pg 0x18
  setQueue p k ((queue p k).corrupt (seq % 65536))

/-- ERROR_LOG: a block that the package has logs a code that Table 18-4 gives it. RECORD_CORRUPT is no new record but what an entry
of the queue pops as, the one whose SEQ stands in the command's DETAIL (R621). -/
def execErrorLog (page : Nat) (e : ErrArgs) (s : State) : Out :=
  if present s.pkg page = true ∧ firstPage page = page ∧ blockLogs page e.code = true then
    if e.code = 0x02 then .next (s.onPkg (fun p => corruptRecord p page e.detail))
    else .next (logAndAct page (ddrCode s.pkg page e) s)
  else .next s

/-! ## The descent (R665, R666, R669) -/

/-- A hart that runs is held for the descent; the state it stopped in is kept. -/
def restHart (p : Pkg) (h : Nat) : Pkg :=
  let st := hartState p h
  if (hart p h).holding then doHeld h p
  else if st = 1 ∨ st = 2 then
    let p1 := doHeld h p
    { p1 with seq := { p1.seq with heldHarts := SMap.set p1.seq.heldHarts h st } }
  else p

/-- Descending step 5: commands stopped and harts held (R611, R441). -/
def descend5 (s : State) : State :=
  let s1 := drainHarts (s.onPkg abortEngines)
  s1.onPkg (fun p => (List.range 48).foldl restHart p)

/-- Descending step 4: surveys abandoned, memories in self-refresh, gate closed, rails low, READY gone. -/
def descend4 (p : Pkg) : Pkg :=
  let l := blockPages.filter (surveying p)
  let p1 := l.foldl (fun q pg => setBit q (key pg 8) 4 false) p
  readyFalls (dropTraces (gateDown { p1 with seq := { p1.seq with resurvey := (l ++ p1.seq.resurvey).eraseDups } }))

/-- Descending step 3: RAIL_EN_CORE deasserted and the die resets asserted. -/
def descend3 (p : Pkg) : Pkg :=
  let p1 := (pgHl :: blockPages.filter (fun pg => classOf pg = 0x06 ∨ classOf pg = 0x07)).foldl
    (fun q pg => setReady q pg false) p
  { p1 with
    seq := { p1.seq with railEnCore := false, railPgCore := false, dieReset := true }
    pwr := { p1.pwr with railMv := [], natural := [] } }

/-- The step's own action. -/
def descendAct (n : Nat) (s : State) : State :=
  match n with
  | 6 => s.onPkg lasersOff
  | 5 => descend5 s
  | 4 => s.onPkg descend4
  | 3 => s.onPkg descend3
  | 2 => { s with mem := s.mem.hostOnly, pkg := offAux s.pkg }
  | _ => s

/-- The end of descending step n: the next rest point, or on down (R669, R670). -/
def descendEnd (n : Nat) (p : Pkg) : Pkg :=
  if n = 4 then
    if seqTarget p = 0 ∨ (p.seq.climbAfter = true ∧ p.seq.step5Done = false) then setSeq p 3 3
    else leaveRest (setSeq p 4 3)
  else if n ≤ 2 then leaveRest (setSeq p 0 1)
  else setSeq p 3 (n - 1)

/-- R665: the descending step of the highest step whose action stands completes. -/
def execDescendingStep (s : State) : Out :=
  if seqState s.pkg = 3 ∧ 2 ≤ seqStep s.pkg then
    let n := seqStep s.pkg
    .next ((descendAct n s).onPkg (descendEnd n))
  else .next s

end Sys2Proof.Machine
end

