-- ==== Sys2Proof/Machine/Dispatch.lean ====
section
/-! DEFINITION. The dispatch of a command to its meaning: one arm for each row of the table. -/

namespace Sys2Proof.Machine

/-- The effect of a command on everything but the queue. -/
def exec (i : Instr) (s : State) : Host.Outcome State Fault Refusal :=
  match i with
  | .datumTick => Sys2Proof.Machine.execDatumTick s
  | .railVoltageChange rail mv pace => Sys2Proof.Machine.execRailVoltageChange rail mv pace s
  | .floorHalt sheet => Sys2Proof.Machine.execFloorHalt sheet s
  | .floorResume sheet => Sys2Proof.Machine.execFloorResume sheet s
  | .fixedPaceWrite rq value => Sys2Proof.Machine.execFixedPaceWrite rq value s
  | .fixedPaceSettled => Sys2Proof.Machine.execFixedPaceSettled s
  | .paceStatusRefresh die mv tj pace byLimit => Sys2Proof.Machine.execPaceStatusRefresh die mv tj pace byLimit s
  | .refclkLost => Sys2Proof.Machine.execRefclkLost s
  | .refclkRestored => Sys2Proof.Machine.execRefclkRestored s
  | .syncExchange => Sys2Proof.Machine.execSyncExchange s
  | .syncReq port info t1 arrival => Sys2Proof.Machine.execSyncReq port info t1 arrival s
  | .syncRsp port info t1 t2 t3 t4 => Sys2Proof.Machine.execSyncRsp port info t1 t2 t3 t4 s
  | .syncTimeout => Sys2Proof.Machine.execSyncTimeout s
  | .dtSet rq width value => Sys2Proof.Machine.execDtSet rq width value s
  | .dtControlWrite rq value => Sys2Proof.Machine.execDtControlWrite rq value s
  | .capture rq value => Sys2Proof.Machine.execCapture rq value s
  | .lowHalfRead rq off => Sys2Proof.Machine.execLowHalfRead rq off s
  | .latchRelease off => Sys2Proof.Machine.execLatchRelease off s
  | .itemSend path item first last => Sys2Proof.Machine.execItemSend path item first last s
  | .itemRemove path => Sys2Proof.Machine.execItemRemove path s
  | .creditUpdateSend path => Sys2Proof.Machine.execCreditUpdateSend path s
  | .creditUpdateRepeat path => Sys2Proof.Machine.execCreditUpdateRepeat path s
  | .creditUpdate path u good => Sys2Proof.Machine.execCreditUpdate path u good s
  | .queueArbitration path pop pushes => Sys2Proof.Machine.execQueueArbitration path pop pushes s
  | .packetCommit path good => Sys2Proof.Machine.execPacketCommit path good s
  | .packetRewind path => Sys2Proof.Machine.execPacketRewind path s
  | .outputPacketCommit ce mu => Sys2Proof.Machine.execOutputPacketCommit ce mu s
  | .queuePop rq off width => Sys2Proof.Machine.execQueuePop rq off width s
  | .softwarePush rq queue item => Sys2Proof.Machine.execSoftwarePush rq queue item s
  | .queuePush queue words => Sys2Proof.Machine.execQueuePush queue words s
  | .spillControlWrite rq ctx ring value => Sys2Proof.Machine.execSpillControlWrite rq ctx ring value s
  | .spillWrite ctx ring => Sys2Proof.Machine.execSpillWrite ctx ring s
  | .spillRefill ctx ring => Sys2Proof.Machine.execSpillRefill ctx ring s
  | .registerWrite rq off width value => Sys2Proof.Machine.execRegisterWrite rq off width value s
  | .claim rq page value => Sys2Proof.Machine.execClaim rq page value s
  | .release rq page value => Sys2Proof.Machine.execRelease rq page value s
  | .handover rq page value => Sys2Proof.Machine.execHandover rq page value s
  | .resetUnit rq page value => Sys2Proof.Machine.execResetUnit rq page value s
  | .quiesce rq page value => Sys2Proof.Machine.execQuiesce rq page value s
  | .enable rq page value => Sys2Proof.Machine.execEnable rq page value s
  | .blockDrained page => Sys2Proof.Machine.execBlockDrained page s
  | .eventWindowWrite rq page value => Sys2Proof.Machine.execEventWindowWrite rq page value s
  | .limitSlotWrite rq limit slot value => Sys2Proof.Machine.execLimitSlotWrite rq limit slot value s
  | .fbRequest rq off value => Sys2Proof.Machine.execFbRequest rq off value s
  | .fbRequestDone written => Sys2Proof.Machine.execFbRequestDone written s
  | .agDescriptor d => Sys2Proof.Machine.execAgDescriptor d s
  | .muNop d => Sys2Proof.Machine.execMuNop d s
  | .load d => Sys2Proof.Machine.execLoad d s
  | .store d => Sys2Proof.Machine.execStore d s
  | .loadExact d => Sys2Proof.Machine.execLoadExact d s
  | .storeExact d => Sys2Proof.Machine.execStoreExact d s
  | .prefetch d => Sys2Proof.Machine.execPrefetch d s
  | .vuNop v => Sys2Proof.Machine.execVuNop v s
  | .vuAdd v => Sys2Proof.Machine.execVuAdd v s
  | .vuSub v => Sys2Proof.Machine.execVuSub v s
  | .vuMul v => Sys2Proof.Machine.execVuMul v s
  | .vuFma v => Sys2Proof.Machine.execVuFma v s
  | .vuFms v => Sys2Proof.Machine.execVuFms v s
  | .vuMin v => Sys2Proof.Machine.execVuMin v s
  | .vuMax v => Sys2Proof.Machine.execVuMax v s
  | .vuAbs v => Sys2Proof.Machine.execVuAbs v s
  | .vuNeg v => Sys2Proof.Machine.execVuNeg v s
  | .vuRcp v => Sys2Proof.Machine.execVuRcp v s
  | .vuRsqrt v => Sys2Proof.Machine.execVuRsqrt v s
  | .vuSqrt v => Sys2Proof.Machine.execVuSqrt v s
  | .vuExp2 v => Sys2Proof.Machine.execVuExp2 v s
  | .vuLog2 v => Sys2Proof.Machine.execVuLog2 v s
  | .vuTanh v => Sys2Proof.Machine.execVuTanh v s
  | .vuSigmoid v => Sys2Proof.Machine.execVuSigmoid v s
  | .vuGelu v => Sys2Proof.Machine.execVuGelu v s
  | .vuSilu v => Sys2Proof.Machine.execVuSilu v s
  | .vuSinpi v => Sys2Proof.Machine.execVuSinpi v s
  | .vuCospi v => Sys2Proof.Machine.execVuCospi v s
  | .vuLdexp v => Sys2Proof.Machine.execVuLdexp v s
  | .vuCmplt v => Sys2Proof.Machine.execVuCmplt v s
  | .vuCmple v => Sys2Proof.Machine.execVuCmple v s
  | .vuCmpeq v => Sys2Proof.Machine.execVuCmpeq v s
  | .vuSel v => Sys2Proof.Machine.execVuSel v s
  | .vuCvtBf16 v => Sys2Proof.Machine.execVuCvtBf16 v s
  | .vuCvtFp16 v => Sys2Proof.Machine.execVuCvtFp16 v s
  | .vuCvtFp8 v => Sys2Proof.Machine.execVuCvtFp8 v s
  | .vuCvtFp4 v => Sys2Proof.Machine.execVuCvtFp4 v s
  | .vuCvtInt8 v => Sys2Proof.Machine.execVuCvtInt8 v s
  | .vuCvtI2f v => Sys2Proof.Machine.execVuCvtI2f v s
  | .vuCvtF2i v => Sys2Proof.Machine.execVuCvtF2i v s
  | .vuWiden v => Sys2Proof.Machine.execVuWiden v s
  | .vuMxscale v => Sys2Proof.Machine.execVuMxscale v s
  | .vuRsum v => Sys2Proof.Machine.execVuRsum v s
  | .vuRmax v => Sys2Proof.Machine.execVuRmax v s
  | .vuRmin v => Sys2Proof.Machine.execVuRmin v s
  | .vuMov v => Sys2Proof.Machine.execVuMov v s
  | .vuBcast v => Sys2Proof.Machine.execVuBcast v s
  | .vuShuf v => Sys2Proof.Machine.execVuShuf v s
  | .vuPack v => Sys2Proof.Machine.execVuPack v s
  | .vuUnpack v => Sys2Proof.Machine.execVuUnpack v s
  | .vuIadd v => Sys2Proof.Machine.execVuIadd v s
  | .vuImul v => Sys2Proof.Machine.execVuImul v s
  | .vuAnd v => Sys2Proof.Machine.execVuAnd v s
  | .vuOr v => Sys2Proof.Machine.execVuOr v s
  | .vuXor v => Sys2Proof.Machine.execVuXor v s
  | .vuShl v => Sys2Proof.Machine.execVuShl v s
  | .vuShr v => Sys2Proof.Machine.execVuShr v s
  | .sqNop ce => Sys2Proof.Machine.execSqNop ce s
  | .sqEnd ce => Sys2Proof.Machine.execSqEnd ce s
  | .sqPhase ce phase => Sys2Proof.Machine.execSqPhase ce phase s
  | .sqLoop ce target count => Sys2Proof.Machine.execSqLoop ce target count s
  | .sqFold ce => Sys2Proof.Machine.execSqFold ce s
  | .loadBarrier ce => Sys2Proof.Machine.execLoadBarrier ce s
  | .storeBarrier ce => Sys2Proof.Machine.execStoreBarrier ce s
  | .fullBarrier ce => Sys2Proof.Machine.execFullBarrier ce s
  | .waitIdle ce => Sys2Proof.Machine.execWaitIdle ce s
  | .octetNop ce oct => Sys2Proof.Machine.execOctetNop ce oct s
  | .octetFormat ce oct fa fb axis sharedA sharedB => Sys2Proof.Machine.execOctetFormat ce oct fa fb axis sharedA sharedB s
  | .project ce oct => Sys2Proof.Machine.execProject ce oct s
  | .loadSr ce oct bank => Sys2Proof.Machine.execLoadSr ce oct bank s
  | .pass ce oct slot step bank drain len => Sys2Proof.Machine.execPass ce oct slot step bank drain len s
  | .octetMask ce oct mask => Sys2Proof.Machine.execOctetMask ce oct mask s
  | .drainIntervalExpiry ce array => Sys2Proof.Machine.execDrainIntervalExpiry ce array s
  | .feedStallStop ce oct => Sys2Proof.Machine.execFeedStallStop ce oct s
  | .feedRestart ce oct => Sys2Proof.Machine.execFeedRestart ce oct s
  | .roundEnd ce => Sys2Proof.Machine.execRoundEnd ce s
  | .foldBoundary ce => Sys2Proof.Machine.execFoldBoundary ce s
  | .lsNop ce => Sys2Proof.Machine.execLsNop ce s
  | .outfmt ce fmt rounding sat shift => Sys2Proof.Machine.execOutfmt ce fmt rounding sat shift s
  | .emit ce port exact first count pair => Sys2Proof.Machine.execEmit ce port exact first count pair s
  | .accept ce port first count => Sys2Proof.Machine.execAccept ce port first count s
  | .lsClear ce first count => Sys2Proof.Machine.execLsClear ce first count s
  | .lsAuto ce port exact pair => Sys2Proof.Machine.execLsAuto ce port exact pair s
  | .ceAbort rq ce value => Sys2Proof.Machine.execCeAbort rq ce value s
  | .internalAbort ce cause => Sys2Proof.Machine.execInternalAbort ce cause s
  | .chartParamWrite rq ce j value => Sys2Proof.Machine.execChartParamWrite rq ce j value s
  | .chartImageArrived ce slot => Sys2Proof.Machine.execChartImageArrived ce slot s
  | .doorbell rq ctx ring value => Sys2Proof.Machine.execDoorbell rq ctx ring value s
  | .descriptorFetch ctx ring => Sys2Proof.Machine.execDescriptorFetch ctx ring s
  | .commandTranslate id => Sys2Proof.Machine.execCommandTranslate id s
  | .commandDispatch => Sys2Proof.Machine.execCommandDispatch s
  | .preempt id => Sys2Proof.Machine.execPreempt id s
  | .commandResume id => Sys2Proof.Machine.execCommandResume id s
  | .bulkAgeExpiry ctx ring => Sys2Proof.Machine.execBulkAgeExpiry ctx ring s
  | .completionWrite id => Sys2Proof.Machine.execCompletionWrite id s
  | .ringAbort rq ctx ring value => Sys2Proof.Machine.execRingAbort rq ctx ring value s
  | .ringRestart rq ctx ring value => Sys2Proof.Machine.execRingRestart rq ctx ring value s
  | .ringConfigWrite rq ctx ring value => Sys2Proof.Machine.execRingConfigWrite rq ctx ring value s
  | .cqHeadWrite rq ctx ring value => Sys2Proof.Machine.execCqHeadWrite rq ctx ring value s
  | .cmdNop id => Sys2Proof.Machine.execCmdNop id s
  | .chartLoad id => Sys2Proof.Machine.execChartLoad id s
  | .run id => Sys2Proof.Machine.execRun id s
  | .moveTileCopy id => Sys2Proof.Machine.execMoveTileCopy id s
  | .moveTileMove id => Sys2Proof.Machine.execMoveTileMove id s
  | .moveSwitch id => Sys2Proof.Machine.execMoveSwitch id s
  | .reduce id => Sys2Proof.Machine.execReduce id s
  | .allReduce id => Sys2Proof.Machine.execAllReduce id s
  | .reduceScatter id => Sys2Proof.Machine.execReduceScatter id s
  | .semSignal id => Sys2Proof.Machine.execSemSignal id s
  | .semWait id => Sys2Proof.Machine.execSemWait id s
  | .semWaitSatisfied id => Sys2Proof.Machine.execSemWaitSatisfied id s
  | .semPoll id => Sys2Proof.Machine.execSemPoll id s
  | .barrier id => Sys2Proof.Machine.execBarrier id s
  | .remoteFence id => Sys2Proof.Machine.execRemoteFence id s
  | .invalidateL1 id => Sys2Proof.Machine.execInvalidateL1 id s
  | .coreLoad hart ctl va size rd signed vec => Sys2Proof.Machine.execCoreLoad hart ctl va size rd signed vec s
  | .coreStore hart ctl va size value vreg elems => Sys2Proof.Machine.execCoreStore hart ctl va size value vreg elems s
  | .storeBufferDrain d => Sys2Proof.Machine.execStoreBufferDrain d s
  | .coreAmo hart ctl op va size rd value rel => Sys2Proof.Machine.execCoreAmo hart ctl op va size rd value rel s
  | .fence hart pred succ => Sys2Proof.Machine.execFence hart pred succ s
  | .fenceTso hart => Sys2Proof.Machine.execFenceTso hart s
  | .fenceI hart => Sys2Proof.Machine.execFenceI hart s
  | .sfenceVma hart => Sys2Proof.Machine.execSfenceVma hart s
  | .cboClean hart acc => Sys2Proof.Machine.execCboClean hart acc s
  | .cboFlush hart acc => Sys2Proof.Machine.execCboFlush hart acc s
  | .cboInval hart acc => Sys2Proof.Machine.execCboInval hart acc s
  | .cboZero hart acc => Sys2Proof.Machine.execCboZero hart acc s
  | .corePrefetch hart acc kind => Sys2Proof.Machine.execCorePrefetch hart acc kind s
  | .lineReturn ce line => Sys2Proof.Machine.execLineReturn ce line s
  | .l1Invalidate rq ce value => Sys2Proof.Machine.execL1Invalidate rq ce value s
  | .slmPinClear rq slice value => Sys2Proof.Machine.execSlmPinClear rq slice value s
  | .partitionWrite rq quad value => Sys2Proof.Machine.execPartitionWrite rq quad value s
  | .partitionChangeDone quad => Sys2Proof.Machine.execPartitionChangeDone quad s
  | .add64 pa value => Sys2Proof.Machine.execAdd64 pa value s
  | .set64 pa value => Sys2Proof.Machine.execSet64 pa value s
  | .watch pa id => Sys2Proof.Machine.execWatch pa id s
  | .radd pa record => Sys2Proof.Machine.execRadd pa record s
  | .hbmRequestServe ctl pc => Sys2Proof.Machine.execHbmRequestServe ctl pc s
  | .refresh ctl pc bank => Sys2Proof.Machine.execRefresh ctl pc bank s
  | .refreshRateChange ctl temp => Sys2Proof.Machine.execRefreshRateChange ctl temp s
  | .ddrTrainingDone chans => Sys2Proof.Machine.execDdrTrainingDone chans s
  | .epochEnd ctl => Sys2Proof.Machine.execEpochEnd ctl s
  | .hold rq cluster value => Sys2Proof.Machine.execHold rq cluster value s
  | .hartHeld hart => Sys2Proof.Machine.execHartHeld hart s
  | .start rq cluster value => Sys2Proof.Machine.execStart rq cluster value s
  | .ccMsgSend rq cluster value => Sys2Proof.Machine.execCcMsgSend rq cluster value s
  | .ccMsgSendM rq cluster value => Sys2Proof.Machine.execCcMsgSendM rq cluster value s
  | .aplicAccess rq isWrite value => Sys2Proof.Machine.execAplicAccess rq isWrite value s
  | .rdShared hart pa => Sys2Proof.Machine.execRdShared hart pa s
  | .rdOwn hart pa => Sys2Proof.Machine.execRdOwn hart pa s
  | .upgrade hart pa => Sys2Proof.Machine.execUpgrade hart pa s
  | .wrBack hart pa => Sys2Proof.Machine.execWrBack hart pa s
  | .rdCur pa => Sys2Proof.Machine.execRdCur pa s
  | .wrLine ce mu pa data poison => Sys2Proof.Machine.execWrLine ce mu pa data poison s
  | .commit ce dest => Sys2Proof.Machine.execCommit ce dest s
  | .atom pa op value => Sys2Proof.Machine.execAtom pa op value s
  | .snpShare hart pa => Sys2Proof.Machine.execSnpShare hart pa s
  | .snpInv hart pa => Sys2Proof.Machine.execSnpInv hart pa s
  | .snpClean hart pa => Sys2Proof.Machine.execSnpClean hart pa s
  | .lrSnoopDelayExpiry hart => Sys2Proof.Machine.execLrSnoopDelayExpiry hart s
  | .filterEvictionRecall pa => Sys2Proof.Machine.execFilterEvictionRecall pa s
  | .bisnpInv pa => Sys2Proof.Machine.execBisnpInv pa s
  | .bisnpData pa => Sys2Proof.Machine.execBisnpData pa s
  | .birsp pa wb => Sys2Proof.Machine.execBirsp pa wb s
  | .hostSnoopTimeout pa => Sys2Proof.Machine.execHostSnoopTimeout pa s
  | .hostMemRead hpa cacheIt => Sys2Proof.Machine.execHostMemRead hpa cacheIt s
  | .hostMemWrite hpa data mask => Sys2Proof.Machine.execHostMemWrite hpa data mask s
  | .hostSnoop hpa => Sys2Proof.Machine.execHostSnoop hpa s
  | .hostPacketCommit ce mu => Sys2Proof.Machine.execHostPacketCommit ce mu s
  | .meridianDown n => Sys2Proof.Machine.execMeridianDown n s
  | .bridgeDown kind n dir => Sys2Proof.Machine.execBridgeDown kind n dir s
  | .bridgeLaneSpare kind n dir lane => Sys2Proof.Machine.execBridgeLaneSpare kind n dir lane s
  | .atsCompletion ctx page granted writable hpa => Sys2Proof.Machine.execAtsCompletion ctx page granted writable hpa s
  | .priResponse ctx page code => Sys2Proof.Machine.execPriResponse ctx page code s
  | .atsInvalidate pasid page pages tag => Sys2Proof.Machine.execAtsInvalidate pasid page pages tag s
  | .invalidateCompletion tag => Sys2Proof.Machine.execInvalidateCompletion tag s
  | .xlInvGo rq value => Sys2Proof.Machine.execXlInvGo rq value s
  | .xlInvDone => Sys2Proof.Machine.execXlInvDone s
  | .xlFaultResume rq value => Sys2Proof.Machine.execXlFaultResume rq value s
  | .xlCtxConfigWrite rq ctx value => Sys2Proof.Machine.execXlCtxConfigWrite rq ctx value s
  | .xlCtsControlWrite rq value => Sys2Proof.Machine.execXlCtsControlWrite rq value s
  | .windowEntryWrite rq landing idx word value => Sys2Proof.Machine.execWindowEntryWrite rq landing idx word value s
  | .landingCheck m => Sys2Proof.Machine.execLandingCheck m s
  | .reportRecord cause window tag source offset => Sys2Proof.Machine.execReportRecord cause window tag source offset s
  | .windowNoAnswer tag => Sys2Proof.Machine.execWindowNoAnswer tag s
  | .linkTraining cxl rate width => Sys2Proof.Machine.execLinkTraining cxl rate width s
  | .linkRetrain width kept => Sys2Proof.Machine.execLinkRetrain width kept s
  | .configRequest isWrite off value => Sys2Proof.Machine.execConfigRequest isWrite off value s
  | .bar0Access isWrite place bytes value => Sys2Proof.Machine.execBar0Access isWrite place bytes value s
  | .msixVectorUnmask vec => Sys2Proof.Machine.execMsixVectorUnmask vec s
  | .hdmCommit base size => Sys2Proof.Machine.execHdmCommit base size s
  | .insetMove rq value => Sys2Proof.Machine.execInsetMove rq value s
  | .insetMoveDone => Sys2Proof.Machine.execInsetMoveDone s
  | .flr => Sys2Proof.Machine.execFlr s
  | .ltrMessage => Sys2Proof.Machine.execLtrMessage s
  | .perst kind => Sys2Proof.Machine.execPerst kind s
  | .cfgRead rq data status => Sys2Proof.Machine.execCfgRead rq data status s
  | .cfgWrite rq value => Sys2Proof.Machine.execCfgWrite rq value s
  | .rpMmioRead rq width data => Sys2Proof.Machine.execRpMmioRead rq width data s
  | .rpMmioWrite rq width value => Sys2Proof.Machine.execRpMmioWrite rq width value s
  | .rpMmioTimeout => Sys2Proof.Machine.execRpMmioTimeout s
  | .cfgRetryTimeout => Sys2Proof.Machine.execCfgRetryTimeout s
  | .inboundRequest isWrite addr bytes data => Sys2Proof.Machine.execInboundRequest isWrite addr bytes data s
  | .inboundMsi addr bytes data => Sys2Proof.Machine.execInboundMsi addr bytes data s
  | .intxMessage pin assert => Sys2Proof.Machine.execIntxMessage pin assert s
  | .spdmGetVersion => Sys2Proof.Machine.execSpdmGetVersion s
  | .spdmGetCapabilities => Sys2Proof.Machine.execSpdmGetCapabilities s
  | .spdmNegotiateAlgorithms offersP384 => Sys2Proof.Machine.execSpdmNegotiateAlgorithms offersP384 s
  | .spdmGetDigests => Sys2Proof.Machine.execSpdmGetDigests s
  | .spdmGetCertificate slot => Sys2Proof.Machine.execSpdmGetCertificate slot s
  | .spdmChallenge slot => Sys2Proof.Machine.execSpdmChallenge slot s
  | .spdmGetMeasurements index => Sys2Proof.Machine.execSpdmGetMeasurements index s
  | .spdmKeyExchange reqId => Sys2Proof.Machine.execSpdmKeyExchange reqId s
  | .spdmFinish session macGood => Sys2Proof.Machine.execSpdmFinish session macGood s
  | .spdmKeyUpdate session => Sys2Proof.Machine.execSpdmKeyUpdate session s
  | .spdmHeartbeat session => Sys2Proof.Machine.execSpdmHeartbeat session s
  | .spdmEndSession session => Sys2Proof.Machine.execSpdmEndSession session s
  | .ideKm session stream op => Sys2Proof.Machine.execIdeKm session stream op s
  | .ideCheck stream cachemem => Sys2Proof.Machine.execIdeCheck stream cachemem s
  | .portTraining port badTx badRx node partnerPort vmax vmin features rtt => Sys2Proof.Machine.execPortTraining port badTx badRx node partnerPort vmax vmin features rtt s
  | .flitReceive port f crcGood => Sys2Proof.Machine.execFlitReceive port f crcGood s
  | .nakReplay port ackSeq => Sys2Proof.Machine.execNakReplay port ackSeq s
  | .replayTimeout port => Sys2Proof.Machine.execReplayTimeout port s
  | .ackSend port => Sys2Proof.Machine.execAckSend port s
  | .proiladCreditUpdate port cls vc => Sys2Proof.Machine.execProiladCreditUpdate port cls vc s
  | .laneLockLoss port dir lane => Sys2Proof.Machine.execLaneLockLoss port dir lane s
  | .laneDrop port lane => Sys2Proof.Machine.execLaneDrop port lane s
  | .laneAdd port dir lane => Sys2Proof.Machine.execLaneAdd port dir lane s
  | .laneRelock port dir lane => Sys2Proof.Machine.execLaneRelock port dir lane s
  | .linkDown port cause => Sys2Proof.Machine.execLinkDown port cause s
  | .flitSilence port => Sys2Proof.Machine.execFlitSilence port s
  | .portUnusable port => Sys2Proof.Machine.execPortUnusable port s
  | .routeMessage inPort m => Sys2Proof.Machine.execRouteMessage inPort m s
  | .proiladRd m => Sys2Proof.Machine.execProiladRd m s
  | .proiladWr m => Sys2Proof.Machine.execProiladWr m s
  | .proiladWr8 m => Sys2Proof.Machine.execProiladWr8 m s
  | .proiladAtom m => Sys2Proof.Machine.execProiladAtom m s
  | .rdata m => Sys2Proof.Machine.execRdata m s
  | .wrack m => Sys2Proof.Machine.execWrack m s
  | .colHead m => Sys2Proof.Machine.execColHead m s
  | .svcWr m => Sys2Proof.Machine.execSvcWr m s
  | .portButtonPress port => Sys2Proof.Machine.execPortButtonPress port s
  | .drain port => Sys2Proof.Machine.execDrain port s
  | .portDrained port => Sys2Proof.Machine.execPortDrained port s
  | .drainTimeout port => Sys2Proof.Machine.execDrainTimeout port s
  | .drainCancel port => Sys2Proof.Machine.execDrainCancel port s
  | .plControlDrain rq port value => Sys2Proof.Machine.execPlControlDrain rq port value s
  | .plControlCancel rq port value => Sys2Proof.Machine.execPlControlCancel rq port value s
  | .plControlDisable rq port value => Sys2Proof.Machine.execPlControlDisable rq port value s
  | .cableRemoved port => Sys2Proof.Machine.execCableRemoved port s
  | .cableInserted port => Sys2Proof.Machine.execCableInserted port s
  | .bearingWrite rq value => Sys2Proof.Machine.execBearingWrite rq value s
  | .nodeIdWrite rq value => Sys2Proof.Machine.execNodeIdWrite rq value s
  | .groupEntryWrite rq g word value => Sys2Proof.Machine.execGroupEntryWrite rq g word value s
  | .colStepSend id => Sys2Proof.Machine.execColStepSend id s
  | .ringPhaseEnd id => Sys2Proof.Machine.execRingPhaseEnd id s
  | .ringPhaseTimeout id => Sys2Proof.Machine.execRingPhaseTimeout id s
  | .voltageWrite rail => Sys2Proof.Machine.execVoltageWrite rail s
  | .railTelemetry rail mv amps settled good => Sys2Proof.Machine.execRailTelemetry rail mv amps settled good s
  | .powerMeasure us1 ms1 => Sys2Proof.Machine.execPowerMeasure us1 ms1 s
  | .modelCalibrate => Sys2Proof.Machine.execModelCalibrate s
  | .budgetRecompute hbmW linkW hostW procW => Sys2Proof.Machine.execBudgetRecompute hbmW linkW hostW procW s
  | .thermalThrottle die tj => Sys2Proof.Machine.execThermalThrottle die tj s
  | .hbmThrottle stack temp => Sys2Proof.Machine.execHbmThrottle stack temp s
  | .thermalTrip sensor => Sys2Proof.Machine.execThermalTrip sensor s
  | .thermalTripClear hottest => Sys2Proof.Machine.execThermalTripClear hottest s
  | .coolantLoss => Sys2Proof.Machine.execCoolantLoss s
  | .flowRise => Sys2Proof.Machine.execFlowRise s
  | .pwrSafeHoldResume rq value => Sys2Proof.Machine.execPwrSafeHoldResume rq value s
  | .resumeComplete => Sys2Proof.Machine.execResumeComplete s
  | .contourClear rq value => Sys2Proof.Machine.execContourClear rq value s
  | .setPersonality page arg => Sys2Proof.Machine.execSetPersonality page arg s
  | .setPowerCap page arg => Sys2Proof.Machine.execSetPowerCap page arg s
  | .setPaceCeiling page arg => Sys2Proof.Machine.execSetPaceCeiling page arg s
  | .setThermalLimit page arg => Sys2Proof.Machine.execSetThermalLimit page arg s
  | .lowerPowerCeiling page arg => Sys2Proof.Machine.execLowerPowerCeiling page arg s
  | .setFixedPace page arg => Sys2Proof.Machine.execSetFixedPace page arg s
  | .safeHoldResume page arg => Sys2Proof.Machine.execSafeHoldResume page arg s
  | .contourControl page arg => Sys2Proof.Machine.execContourControl page arg s
  | .unknownMailboxCommand page cmd arg => Sys2Proof.Machine.execUnknownMailboxCommand page cmd arg s
  | .errorLog page e => Sys2Proof.Machine.execErrorLog page e s
  | .windowEnd page => Sys2Proof.Machine.execWindowEnd page s
  | .hubWatchdog ce => Sys2Proof.Machine.execHubWatchdog ce s
  | .ceLost ce cause => Sys2Proof.Machine.execCeLost ce cause s
  | .surveyComplete page failing => Sys2Proof.Machine.execSurveyComplete page failing s
  | .channelSpare stack chan => Sys2Proof.Machine.execChannelSpare stack chan s
  | .channelFence stack chan => Sys2Proof.Machine.execChannelFence stack chan s
  | .replicaRepair pa => Sys2Proof.Machine.execReplicaRepair pa s
  | .replicaCopyArrived pa data cause => Sys2Proof.Machine.execReplicaCopyArrived pa data cause s
  | .replicaCommit rq sheet value => Sys2Proof.Machine.execReplicaCommit rq sheet value s
  | .stage rq value checks => Sys2Proof.Machine.execStage rq value checks s
  | .stageDone flashOk => Sys2Proof.Machine.execStageDone flashOk s
  | .activate rq value => Sys2Proof.Machine.execActivate rq value s
  | .newImageHealthy => Sys2Proof.Machine.execNewImageHealthy s
  | .fwRollback => Sys2Proof.Machine.execFwRollback s
  | .coldPowerUp dir slots => Sys2Proof.Machine.execColdPowerUp dir slots s
  | .powerLoss auxHeld => Sys2Proof.Machine.execPowerLoss auxHeld s
  | .railLoss cause => Sys2Proof.Machine.execRailLoss cause s
  | .pkgOnRise => Sys2Proof.Machine.execPkgOnRise s
  | .pkgOnFall => Sys2Proof.Machine.execPkgOnFall s
  | .sequencerStep kernelImg => Sys2Proof.Machine.execSequencerStep kernelImg s
  | .descendingStep => Sys2Proof.Machine.execDescendingStep s
  | .flashRequest => Sys2Proof.Machine.execFlashRequest s
  | .flashRelease => Sys2Proof.Machine.execFlashRelease s
  | .stallBegin page port who => Sys2Proof.Machine.execStallBegin page port who s
  | .stallEnd page port who beats ns => Sys2Proof.Machine.execStallEnd page port who beats ns s
  | .traceRecordWrite tr => Sys2Proof.Machine.execTraceRecordWrite tr s
  | .traceEnable rq tr value => Sys2Proof.Machine.execTraceEnable rq tr value s
  | .trBufferWrite rq tr value => Sys2Proof.Machine.execTrBufferWrite rq tr value s
  | .trConsumedWrite rq tr value => Sys2Proof.Machine.execTrConsumedWrite rq tr value s
  | .tapBypass die => Sys2Proof.Machine.execTapBypass die s
  | .tapIdcode die => Sys2Proof.Machine.execTapIdcode die s
  | .tapSamplePreload die => Sys2Proof.Machine.execTapSamplePreload die s
  | .tapExtest die => Sys2Proof.Machine.execTapExtest die s
  | .tapClamp die => Sys2Proof.Machine.execTapClamp die s
  | .tapHighz die => Sys2Proof.Machine.execTapHighz die s
  | .tapWrapper die opcode => Sys2Proof.Machine.execTapWrapper die opcode s
  | .tapHbmWsp die => Sys2Proof.Machine.execTapHbmWsp die s
  | .sgpioFrame bits => Sys2Proof.Machine.execSgpioFrame bits s
  | .sgpioFault => Sys2Proof.Machine.execSgpioFault s
  | .pkgButtonPress => Sys2Proof.Machine.execPkgButtonPress s
  | .read32 off => Sys2Proof.Machine.execRead32 off s
  | .read64 off => Sys2Proof.Machine.execRead64 off s
  | .status => Sys2Proof.Machine.execStatus s
  | .seqRequest arg => Sys2Proof.Machine.execSeqRequest arg s
  | .flrComplete => Sys2Proof.Machine.execFlrComplete s
  | .hbmTrainingDone stack => Sys2Proof.Machine.execHbmTrainingDone stack s
  | .drainFlitRepeat port => Sys2Proof.Machine.execDrainFlitRepeat port s
  | .drainCancelFlit port => Sys2Proof.Machine.execDrainCancelFlit port s
  | .drainRefusedFlashEnd port => Sys2Proof.Machine.execDrainRefusedFlashEnd port s
  | .i3cBroadcast => Sys2Proof.Machine.execI3cBroadcast s
  | .hdmUncommit => Sys2Proof.Machine.execHdmUncommit s
  | .wfi hart => Sys2Proof.Machine.execWfi hart s

end Sys2Proof.Machine
end

