-- ==== Sys2Proof/Laws/Maps.lean ====
section
/-! SUPPORT. What the sparse maps, the rising lists and the cell lists do: one lemma for each thing that an operation can do. -/

namespace Sys2Proof.Machine

/-! ## Sparse maps -/

theorem SMap.get_set_self {α : Type} (m : SMap α) (k : Nat) (v d : α) : SMap.get (SMap.set m k v) k d = v := by
  induction m with
  | nil => simp [SMap.set, SMap.get]
  | cons x t ih =>
    obtain ⟨k', v'⟩ := x
    by_cases h1 : k < k'
    · simp [SMap.set, SMap.get, h1]
    · by_cases h2 : k = k'
      · simp [SMap.set, SMap.get, h2]
      · simp [SMap.set, SMap.get, h1, h2, ih]

theorem SMap.get_set_ne {α : Type} (m : SMap α) {k j : Nat} (v d : α) (h : j ≠ k) :
    SMap.get (SMap.set m k v) j d = SMap.get m j d := by
  induction m with
  | nil => simp [SMap.set, SMap.get, h]
  | cons x t ih =>
    obtain ⟨k', v'⟩ := x
    by_cases h1 : k < k'
    · simp [SMap.set, SMap.get, h1, h]
    · by_cases h2 : k = k'
      · subst h2; simp [SMap.set, SMap.get, h]
      · by_cases h3 : j = k' <;> simp [SMap.set, SMap.get, h1, h2, h3, ih]

theorem SMap.get_set {α : Type} (m : SMap α) (k j : Nat) (v d : α) :
    SMap.get (SMap.set m k v) j d = if j = k then v else SMap.get m j d := by
  by_cases h : j = k
  · subst h; simp [SMap.get_set_self]
  · simp [h, SMap.get_set_ne m v d h]

/-- What `set` lists: the new entry, or entries of the old map with another key. -/
theorem SMap.mem_set {α : Type} {m : SMap α} {k : Nat} {v : α} {x : Nat × α} (h : x ∈ SMap.set m k v) :
    x = (k, v) ∨ x ∈ m := by
  induction m with
  | nil => simpa [SMap.set] using h
  | cons y t ih =>
    obtain ⟨k', v'⟩ := y
    by_cases h1 : k < k'
    · simpa [SMap.set, h1] using h
    · by_cases h2 : k = k'
      · simp only [SMap.set, h2, if_true, List.mem_cons] at h ⊢
        simp only [Nat.lt_irrefl, if_false, List.mem_cons] at h
        rcases h with h | h
        · exact .inl h
        · exact .inr (.inr h)
      · simp only [SMap.set, h1, h2, if_false, List.mem_cons] at h
        rcases h with h | h
        · exact .inr (by simp [h])
        · rcases ih h with h | h
          · exact .inl h
          · exact .inr (by simp [h])

/-- `set` keeps the keys strictly rising. -/
theorem SMap.set_rising {α : Type} {m : SMap α} (k : Nat) (v : α) (h : m.Pairwise (fun x y => x.1 < y.1)) :
    (SMap.set m k v).Pairwise (fun x y => x.1 < y.1) := by
  induction m with
  | nil => simp [SMap.set]
  | cons y t ih =>
    obtain ⟨k', v'⟩ := y
    rw [List.pairwise_cons] at h
    by_cases h1 : k < k'
    · simp only [SMap.set, h1, if_true, List.pairwise_cons]
      refine ⟨fun a ha => ?_, h.1, h.2⟩
      rcases List.mem_cons.1 ha with e | ha
      · subst e; exact h1
      · exact Nat.lt_trans h1 (h.1 a ha)
    · by_cases h2 : k = k'
      · subst h2
        simp only [SMap.set, Nat.lt_irrefl, if_false, if_true, List.pairwise_cons]
        exact ⟨h.1, h.2⟩
      · simp only [SMap.set, h1, h2, if_false, List.pairwise_cons]
        refine ⟨fun a ha => ?_, ih h.2⟩
        rcases SMap.mem_set ha with e | ha
        · subst e; exact (by omega : k' < k)
        · exact h.1 a ha

/-! ## Strictly rising lists -/

theorem risingList_iff (l : List Nat) : risingList l = true ↔ l.Pairwise (· < ·) := by
  induction l with
  | nil => simp [risingList]
  | cons a t ih =>
    cases t with
    | nil => simp [risingList]
    | cons b t =>
      rw [List.pairwise_cons]
      simp only [risingList, Bool.and_eq_true, decide_eq_true_eq, ih]
      constructor
      · rintro ⟨h1, h2⟩
        refine ⟨fun x hx => ?_, h2⟩
        rcases List.mem_cons.1 hx with e | hx
        · subst e; exact h1
        · exact Nat.lt_trans h1 ((List.pairwise_cons.1 h2).1 x hx)
      · rintro ⟨h1, h2⟩
        exact ⟨h1 b (by simp), h2⟩

theorem mem_insertRising {l : List Nat} {a x : Nat} (h : x ∈ insertRising l a) : x = a ∨ x ∈ l := by
  induction l with
  | nil => simpa [insertRising] using h
  | cons b t ih =>
    by_cases h1 : a < b
    · simpa [insertRising, h1] using h
    · by_cases h2 : a = b
      · simp only [insertRising, h2, if_true, Nat.lt_irrefl, if_false] at h
        exact .inr h
      · simp only [insertRising, h1, h2, if_false, List.mem_cons] at h
        rcases h with h | h
        · exact .inr (by simp [h])
        · rcases ih h with h | h
          · exact .inl h
          · exact .inr (by simp [h])

theorem insertRising_rising {l : List Nat} (a : Nat) (h : risingList l = true) : risingList (insertRising l a) = true := by
  rw [risingList_iff] at *
  induction l with
  | nil => simp [insertRising]
  | cons b t ih =>
    have hb := List.pairwise_cons.1 h
    by_cases h1 : a < b
    · simp only [insertRising, h1, if_true, List.pairwise_cons]
      refine ⟨fun x hx => ?_, hb.1, hb.2⟩
      rcases List.mem_cons.1 hx with e | hx
      · subst e; exact h1
      · exact Nat.lt_trans h1 (hb.1 x hx)
    · by_cases h2 : a = b
      · simpa [insertRising, h1, h2] using h
      · simp only [insertRising, h1, h2, if_false, List.pairwise_cons]
        refine ⟨fun x hx => ?_, ih hb.2⟩
        rcases mem_insertRising hx with e | hx
        · subst e; omega
        · exact hb.1 x hx

theorem filter_rising {l : List Nat} (f : Nat → Bool) (h : risingList l = true) : risingList (l.filter f) = true := by
  rw [risingList_iff] at *
  exact h.filter f

/-! ## The canonical form of the cells -/

theorem cellsWf_iff (m : List Host.Cell) :
    cellsWf m = true ↔ m.Pairwise (fun x y => x.1 < y.1) ∧ ∀ x ∈ m, memDefault x.1 ≠ some x.2 := by
  induction m with
  | nil => simp [cellsWf]
  | cons x t ih =>
    obtain ⟨a, b⟩ := x
    cases t with
    | nil => simp [cellsWf]
    | cons y t =>
      obtain ⟨a', b'⟩ := y
      simp only [cellsWf, Bool.and_eq_true, decide_eq_true_eq, ih]
      constructor
      · rintro ⟨⟨h1, h2⟩, h3, h4⟩
        refine ⟨List.pairwise_cons.2 ⟨fun x hx => ?_, h3⟩, fun x hx => ?_⟩
        · rcases List.mem_cons.1 hx with e | hx
          · subst e; exact h2
          · exact Nat.lt_trans h2 ((List.pairwise_cons.1 h3).1 x hx)
        · rcases List.mem_cons.1 hx with e | hx
          · subst e; exact h1
          · exact h4 x hx
      · rintro ⟨h1, h2⟩
        have h3 := List.pairwise_cons.1 h1
        exact ⟨⟨h2 (a, b) (by simp), h3.1 (a', b') (by simp)⟩, h3.2, fun x hx => h2 x (by simp [hx])⟩

theorem eraseCell_sublist (m : List Host.Cell) (a : Nat) : (eraseCell m a).Sublist m := by
  induction m with
  | nil => simp [eraseCell]
  | cons x t ih =>
    obtain ⟨a', b⟩ := x
    by_cases h : a = a'
    · simp [eraseCell, h]
    · simpa [eraseCell, h] using ih

theorem cellsWf_sublist {l m : List Host.Cell} (hs : l.Sublist m) (h : cellsWf m = true) : cellsWf l = true := by
  rw [cellsWf_iff] at *
  exact ⟨h.1.sublist hs, fun x hx => h.2 x (hs.subset hx)⟩

theorem setCell_wf {m : List Host.Cell} (a : Nat) (b : Byte) (h : cellsWf m = true) : cellsWf (setCell m a b) = true := by
  unfold setCell
  split
  · exact cellsWf_sublist (eraseCell_sublist m a) h
  · rename_i hd
    rw [cellsWf_iff] at *
    refine ⟨SMap.set_rising a b h.1, fun x hx => ?_⟩
    rcases SMap.mem_set hx with e | hx
    · subst e; exact hd
    · exact h.2 x hx

end Sys2Proof.Machine
end

