-- ==== Sys2Proof/Laws/Memory.lean ====
section
/-! SUPPORT. The memory operations: each keeps the canonical form, and what a byte reads as after each. -/

namespace Sys2Proof.Machine

theorem Memory.wf_iff (m : Memory) :
    m.wf = true ↔ cellsWf m.cells = true ∧ risingList m.poison = true ∧ risingList m.fenced = true := by
  simp [Memory.wf, Bool.and_eq_true, and_assoc]

/-! ## Every operation keeps the canonical form -/

theorem Memory.empty_wf : Memory.empty.wf = true := by decide

theorem Memory.hostOnly_wf {m : Memory} (h : m.wf = true) : m.hostOnly.wf = true := by
  rw [Memory.wf_iff] at *
  exact ⟨cellsWf_sublist List.filter_sublist h.1, filter_rising _ h.2.1, rfl⟩

theorem Memory.setByte_wf {m : Memory} (a : Nat) (b : Byte) (h : m.wf = true) : (m.setByte a b).wf = true := by
  rw [Memory.wf_iff] at *
  exact ⟨setCell_wf a b h.1, h.2⟩

theorem Memory.write_wf {m : Memory} (a n v : Nat) (h : m.wf = true) : (m.write a n v).wf = true := by
  induction n generalizing m a v with
  | zero => exact h
  | succ n ih => exact ih _ _ (Memory.setByte_wf a _ h)

theorem Memory.setPoison_wf {m : Memory} (a : Nat) (h : m.wf = true) : (m.setPoison a).wf = true := by
  rw [Memory.wf_iff] at *
  exact ⟨h.1, insertRising_rising _ h.2.1, h.2.2⟩

theorem Memory.clearPoison_wf {m : Memory} (a n : Nat) (h : m.wf = true) : (m.clearPoison a n).wf = true := by
  rw [Memory.wf_iff] at *
  exact ⟨h.1, filter_rising _ h.2.1, h.2.2⟩

theorem Memory.store_wf {m : Memory} (a n v : Nat) (h : m.wf = true) : (m.store a n v).wf = true :=
  Memory.write_wf _ _ _ (Memory.clearPoison_wf a n h)

theorem Memory.storeLine_wf {m : Memory} (a : Nat) (v : Item) (b : Bool) (h : m.wf = true) :
    (m.storeLine a v b).wf = true := by
  unfold Memory.storeLine
  have h1 := Memory.store_wf (a / 64 * 64) 64 v.toNat h
  dsimp only
  split
  · split
    · exact Memory.setPoison_wf _ (Memory.setPoison_wf _ h1)
    · exact Memory.setPoison_wf _ h1
  · exact h1

theorem storeAt_wf (p : Pkg) {m : Memory} (pa n v : Nat) (h : m.wf = true) : (storeAt p m pa n v).wf = true := by
  unfold storeAt
  split
  · exact Memory.store_wf _ _ _ h
  · exact h

theorem Memory.fence_wf {m : Memory} (c : Nat) (h : m.wf = true) :
    ({ m with fenced := insertRising m.fenced c } : Memory).wf = true := by
  rw [Memory.wf_iff] at *
  exact ⟨h.1, h.2.1, insertRising_rising _ h.2.2⟩

/-- A fold of operations that each keep the form keeps it. -/
theorem foldl_wf {α : Type} (f : Memory → α → Memory) (hf : ∀ m a, m.wf = true → (f m a).wf = true) (l : List α)
    {m : Memory} (h : m.wf = true) : (l.foldl f m).wf = true := by
  induction l generalizing m with
  | nil => exact h
  | cons a t ih => exact ih (hf m a h)

theorem zeroWays_wf (lo hi quad : Nat) {m : Memory} (h : m.wf = true) : (zeroWays lo hi quad m).wf = true := by
  rw [Memory.wf_iff] at *
  refine ⟨cellsWf_sublist ?_ h.1, ?_, h.2.2⟩
  · exact List.filter_sublist
  · exact filter_rising _ h.2.1

/-! ## What a byte reads as -/

theorem lookupCell_eraseCell_ne (m : List Host.Cell) {a x : Nat} (h : x ≠ a) :
    lookupCell (eraseCell m a) x = lookupCell m x := by
  induction m with
  | nil => rfl
  | cons y t ih =>
    obtain ⟨a', b⟩ := y
    by_cases h1 : a = a'
    · subst h1; simp [eraseCell, lookupCell, h]
    · by_cases h2 : x = a' <;> simp [eraseCell, lookupCell, h1, h2, ih]

theorem lookupCell_set (m : List Host.Cell) (a x : Nat) (b : Byte) :
    lookupCell (SMap.set m a b) x = if x = a then some b else lookupCell m x := by
  induction m with
  | nil => simp [SMap.set, lookupCell]
  | cons y t ih =>
    obtain ⟨a', b'⟩ := y
    by_cases h1 : a < a'
    · simp [SMap.set, lookupCell, h1]
    · by_cases h2 : a = a'
      · subst h2; by_cases h3 : x = a <;> simp [SMap.set, lookupCell, h3]
      · by_cases h3 : x = a'
        · subst h3; simp [SMap.set, lookupCell, h1, h2, Ne.symm h2]
        · simp [SMap.set, lookupCell, h1, h2, h3, ih]

theorem lookupCell_setCell_ne (m : List Host.Cell) {a x : Nat} (b : Byte) (h : x ≠ a) :
    lookupCell (setCell m a b) x = lookupCell m x := by
  unfold setCell
  split
  · exact lookupCell_eraseCell_ne m h
  · rw [lookupCell_set, if_neg h]

/-- A byte beside the one written reads as before. -/
theorem Memory.byte_setByte_ne (m : Memory) {a x : Nat} (b : Byte) (h : x ≠ a) : (m.setByte a b).byte x = m.byte x := by
  simp only [Memory.byte, Memory.setByte, lookupCell_setCell_ne m.cells b h]

theorem lookupCell_erase_rising {m : List Host.Cell} (a : Nat) (h : m.Pairwise (fun x y => x.1 < y.1)) :
    lookupCell (eraseCell m a) a = none := by
  induction m with
  | nil => rfl
  | cons y t ih =>
    obtain ⟨a', b⟩ := y
    rw [List.pairwise_cons] at h
    by_cases h1 : a = a'
    · subst h1
      have : ∀ l : List Host.Cell, (∀ x ∈ l, a < x.1) → lookupCell l a = none := by
        intro l
        induction l with
        | nil => intro _; rfl
        | cons z l ihl =>
          intro hz
          obtain ⟨c, d⟩ := z
          have := hz (c, d) (by simp)
          simp only [lookupCell]
          rw [if_neg (by simp only at this; omega)]
          exact ihl (fun x hx => hz x (by simp [hx]))
      simpa [eraseCell] using this t h.1
    · simp [eraseCell, lookupCell, h1, ih h.2]

/-- In the canonical form, the byte written is read back. -/
theorem Memory.byte_setByte_self {m : Memory} (a : Nat) (b : Byte) (h : m.wf = true) : (m.setByte a b).byte a = b := by
  have hr := ((cellsWf_iff _).1 ((Memory.wf_iff m).1 h).1).1
  by_cases hd : memDefault a = some b
  · simp [Memory.byte, Memory.setByte, setCell, hd, lookupCell_erase_rising a hr]
  · simp [Memory.byte, Memory.setByte, setCell, hd, lookupCell_set]

/-- Bytes outside a write read as before. -/
theorem Memory.byte_write_out (m : Memory) (a n v x : Nat) (h : x < a ∨ a + n ≤ x) :
    (m.write a n v).byte x = m.byte x := by
  induction n generalizing m a v with
  | zero => rfl
  | succ n ih =>
    have h1 : x < a + 1 ∨ a + 1 + n ≤ x := by omega
    simp only [Memory.write]
    rw [ih _ _ _ h1, Memory.byte_setByte_ne _ _ (by omega)]

theorem Memory.byte_setPoison (m : Memory) (a x : Nat) : (m.setPoison a).byte x = m.byte x := rfl
theorem Memory.byte_clearPoison (m : Memory) (a n x : Nat) : (m.clearPoison a n).byte x = m.byte x := rfl

theorem Memory.byte_store_out (m : Memory) (a n v x : Nat) (h : x < a ∨ a + n ≤ x) :
    (m.store a n v).byte x = m.byte x := by
  unfold Memory.store
  rw [Memory.byte_write_out _ _ _ _ _ h, Memory.byte_clearPoison]

/-- Bytes outside a line that is stored read as before. -/
theorem Memory.byte_storeLine_out (m : Memory) (a : Nat) (v : Item) (b : Bool) (x : Nat) (h : x / 64 ≠ a / 64) :
    (m.storeLine a v b).byte x = m.byte x := by
  have hx : x < a / 64 * 64 ∨ a / 64 * 64 + 64 ≤ x := by omega
  unfold Memory.storeLine
  dsimp only
  split
  · split
    · rw [Memory.byte_setPoison, Memory.byte_setPoison, Memory.byte_store_out _ _ _ _ _ hx]
    · rw [Memory.byte_setPoison, Memory.byte_store_out _ _ _ _ _ hx]
  · exact Memory.byte_store_out _ _ _ _ _ hx

/-- Host memory is what such a loss leaves. -/
theorem Memory.byte_hostOnly (m : Memory) {x : Nat} (h : 2 ^ 52 ≤ x) : m.hostOnly.byte x = m.byte x := by
  have key : ∀ l : List Host.Cell, lookupCell (l.filter (fun c => decide (2 ^ 52 ≤ c.1))) x = lookupCell l x := by
    intro l
    induction l with
    | nil => rfl
    | cons y t ih =>
      obtain ⟨a, b⟩ := y
      by_cases h1 : 2 ^ 52 ≤ a
      · rw [List.filter_cons_of_pos (by simpa using h1)]
        simp only [lookupCell, ih]
      · rw [List.filter_cons_of_neg (by simpa using h1), ih]
        have hne : x ≠ a := by omega
        simp only [lookupCell, if_neg hne]
  simp only [Memory.byte, Memory.hostOnly, key]

/-- What a write of n bytes reads back as: the number's low n bytes. -/
theorem Memory.read_write {m : Memory} (a n v : Nat) (h : m.wf = true) :
    (m.write a n v).read a n = v % 256 ^ n := by
  induction n generalizing m a v with
  | zero => simp [Memory.read, Nat.mod_one]
  | succ n ih =>
    have h1 : ((m.setByte a (BitVec.ofNat 8 v)).write (a + 1) n (v / 256)).byte a = BitVec.ofNat 8 v := by
      rw [Memory.byte_write_out _ _ _ _ _ (by omega), Memory.byte_setByte_self a _ h]
    simp only [Memory.write, Memory.read, h1]
    rw [ih (a + 1) (v / 256) (Memory.setByte_wf a _ h)]
    rw [BitVec.toNat_ofNat, pow_succ' 256 n, Nat.mod_mul (a := 256)]

end Sys2Proof.Machine
end

