-- ==== Sys2Proof/Laws/State.lean ====
section
/-! SUPPORT. What each plain update of the state leaves in each field. -/

namespace Sys2Proof.Machine

/-! ## An update of the package -/

@[simp] theorem State.onPkg_pkg (s : State) (f : Pkg → Pkg) : (s.onPkg f).pkg = f s.pkg := rfl
@[simp] theorem State.onPkg_mem (s : State) (f : Pkg → Pkg) : (s.onPkg f).mem = s.mem := rfl
@[simp] theorem State.onPkg_pending (s : State) (f : Pkg → Pkg) : (s.onPkg f).pending = s.pending := rfl

/-! ## setReg -/

@[simp] theorem setReg_part (p : Pkg) (k : Nat) (v : W64) : (setReg p k v).part = p.part := rfl
@[simp] theorem setReg_ddrBytes (p : Pkg) (k : Nat) (v : W64) : (setReg p k v).ddrBytes = p.ddrBytes := rfl
@[simp] theorem setReg_disabled (p : Pkg) (k : Nat) (v : W64) : (setReg p k v).disabled = p.disabled := rfl
@[simp] theorem setReg_spills (p : Pkg) (k : Nat) (v : W64) : (setReg p k v).spills = p.spills := rfl
@[simp] theorem setReg_standalone (p : Pkg) (k : Nat) (v : W64) : (setReg p k v).standalone = p.standalone := rfl
@[simp] theorem setReg_queues (p : Pkg) (k : Nat) (v : W64) : (setReg p k v).queues = p.queues := rfl
@[simp] theorem setReg_paths (p : Pkg) (k : Nat) (v : W64) : (setReg p k v).paths = p.paths := rfl
@[simp] theorem setReg_pace (p : Pkg) (k : Nat) (v : W64) : (setReg p k v).pace = p.pace := rfl
@[simp] theorem setReg_fuse (p : Pkg) (k : Nat) (v : W64) : (setReg p k v).fuse = p.fuse := rfl
@[simp] theorem setReg_pwr (p : Pkg) (k : Nat) (v : W64) : (setReg p k v).pwr = p.pwr := rfl
@[simp] theorem setReg_boot (p : Pkg) (k : Nat) (v : W64) : (setReg p k v).boot = p.boot := rfl
@[simp] theorem setReg_seq (p : Pkg) (k : Nat) (v : W64) : (setReg p k v).seq = p.seq := rfl
@[simp] theorem setReg_fault (p : Pkg) (k : Nat) (v : W64) : (setReg p k v).fault = p.fault := rfl
@[simp] theorem setReg_traces (p : Pkg) (k : Nat) (v : W64) : (setReg p k v).traces = p.traces := rfl
@[simp] theorem setReg_tapIr (p : Pkg) (k : Nat) (v : W64) : (setReg p k v).tapIr = p.tapIr := rfl
@[simp] theorem setReg_ces (p : Pkg) (k : Nat) (v : W64) : (setReg p k v).ces = p.ces := rfl
@[simp] theorem setReg_qm (p : Pkg) (k : Nat) (v : W64) : (setReg p k v).qm = p.qm := rfl
@[simp] theorem setReg_xl (p : Pkg) (k : Nat) (v : W64) : (setReg p k v).xl = p.xl := rfl
@[simp] theorem setReg_home (p : Pkg) (k : Nat) (v : W64) : (setReg p k v).home = p.home := rfl
@[simp] theorem setReg_memc (p : Pkg) (k : Nat) (v : W64) : (setReg p k v).memc = p.memc := rfl
@[simp] theorem setReg_harts (p : Pkg) (k : Nat) (v : W64) : (setReg p k v).harts = p.harts := rfl
@[simp] theorem setReg_aplic (p : Pkg) (k : Nat) (v : W64) : (setReg p k v).aplic = p.aplic := rfl
@[simp] theorem setReg_hl (p : Pkg) (k : Nat) (v : W64) : (setReg p k v).hl = p.hl := rfl
@[simp] theorem setReg_rt (p : Pkg) (k : Nat) (v : W64) : (setReg p k v).rt = p.rt := rfl
@[simp] theorem setReg_int (p : Pkg) (k : Nat) (v : W64) : (setReg p k v).int = p.int := rfl
@[simp] theorem setReg_ops (p : Pkg) (k : Nat) (v : W64) : (setReg p k v).ops = p.ops := rfl
@[simp] theorem setReg_out (p : Pkg) (k : Nat) (v : W64) : (setReg p k v).out = p.out := rfl
@[simp] theorem setReg_free (p : Pkg) (k : Nat) (v : W64) : (setReg p k v).free = p.free := rfl

/-! ## setFld -/

@[simp] theorem setFld_part (p : Pkg) (k hi lo v : Nat) : (setFld p k hi lo v).part = p.part := rfl
@[simp] theorem setFld_ddrBytes (p : Pkg) (k hi lo v : Nat) : (setFld p k hi lo v).ddrBytes = p.ddrBytes := rfl
@[simp] theorem setFld_disabled (p : Pkg) (k hi lo v : Nat) : (setFld p k hi lo v).disabled = p.disabled := rfl
@[simp] theorem setFld_spills (p : Pkg) (k hi lo v : Nat) : (setFld p k hi lo v).spills = p.spills := rfl
@[simp] theorem setFld_standalone (p : Pkg) (k hi lo v : Nat) : (setFld p k hi lo v).standalone = p.standalone := rfl
@[simp] theorem setFld_queues (p : Pkg) (k hi lo v : Nat) : (setFld p k hi lo v).queues = p.queues := rfl
@[simp] theorem setFld_paths (p : Pkg) (k hi lo v : Nat) : (setFld p k hi lo v).paths = p.paths := rfl
@[simp] theorem setFld_pace (p : Pkg) (k hi lo v : Nat) : (setFld p k hi lo v).pace = p.pace := rfl
@[simp] theorem setFld_fuse (p : Pkg) (k hi lo v : Nat) : (setFld p k hi lo v).fuse = p.fuse := rfl
@[simp] theorem setFld_pwr (p : Pkg) (k hi lo v : Nat) : (setFld p k hi lo v).pwr = p.pwr := rfl
@[simp] theorem setFld_boot (p : Pkg) (k hi lo v : Nat) : (setFld p k hi lo v).boot = p.boot := rfl
@[simp] theorem setFld_seq (p : Pkg) (k hi lo v : Nat) : (setFld p k hi lo v).seq = p.seq := rfl
@[simp] theorem setFld_fault (p : Pkg) (k hi lo v : Nat) : (setFld p k hi lo v).fault = p.fault := rfl
@[simp] theorem setFld_traces (p : Pkg) (k hi lo v : Nat) : (setFld p k hi lo v).traces = p.traces := rfl
@[simp] theorem setFld_tapIr (p : Pkg) (k hi lo v : Nat) : (setFld p k hi lo v).tapIr = p.tapIr := rfl
@[simp] theorem setFld_ces (p : Pkg) (k hi lo v : Nat) : (setFld p k hi lo v).ces = p.ces := rfl
@[simp] theorem setFld_qm (p : Pkg) (k hi lo v : Nat) : (setFld p k hi lo v).qm = p.qm := rfl
@[simp] theorem setFld_xl (p : Pkg) (k hi lo v : Nat) : (setFld p k hi lo v).xl = p.xl := rfl
@[simp] theorem setFld_home (p : Pkg) (k hi lo v : Nat) : (setFld p k hi lo v).home = p.home := rfl
@[simp] theorem setFld_memc (p : Pkg) (k hi lo v : Nat) : (setFld p k hi lo v).memc = p.memc := rfl
@[simp] theorem setFld_harts (p : Pkg) (k hi lo v : Nat) : (setFld p k hi lo v).harts = p.harts := rfl
@[simp] theorem setFld_aplic (p : Pkg) (k hi lo v : Nat) : (setFld p k hi lo v).aplic = p.aplic := rfl
@[simp] theorem setFld_hl (p : Pkg) (k hi lo v : Nat) : (setFld p k hi lo v).hl = p.hl := rfl
@[simp] theorem setFld_rt (p : Pkg) (k hi lo v : Nat) : (setFld p k hi lo v).rt = p.rt := rfl
@[simp] theorem setFld_int (p : Pkg) (k hi lo v : Nat) : (setFld p k hi lo v).int = p.int := rfl
@[simp] theorem setFld_ops (p : Pkg) (k hi lo v : Nat) : (setFld p k hi lo v).ops = p.ops := rfl
@[simp] theorem setFld_out (p : Pkg) (k hi lo v : Nat) : (setFld p k hi lo v).out = p.out := rfl
@[simp] theorem setFld_free (p : Pkg) (k hi lo v : Nat) : (setFld p k hi lo v).free = p.free := rfl

/-! ## setBit -/

@[simp] theorem setBit_part (p : Pkg) (k n : Nat) (b : Bool) : (setBit p k n b).part = p.part := rfl
@[simp] theorem setBit_ddrBytes (p : Pkg) (k n : Nat) (b : Bool) : (setBit p k n b).ddrBytes = p.ddrBytes := rfl
@[simp] theorem setBit_disabled (p : Pkg) (k n : Nat) (b : Bool) : (setBit p k n b).disabled = p.disabled := rfl
@[simp] theorem setBit_spills (p : Pkg) (k n : Nat) (b : Bool) : (setBit p k n b).spills = p.spills := rfl
@[simp] theorem setBit_standalone (p : Pkg) (k n : Nat) (b : Bool) : (setBit p k n b).standalone = p.standalone := rfl
@[simp] theorem setBit_queues (p : Pkg) (k n : Nat) (b : Bool) : (setBit p k n b).queues = p.queues := rfl
@[simp] theorem setBit_paths (p : Pkg) (k n : Nat) (b : Bool) : (setBit p k n b).paths = p.paths := rfl
@[simp] theorem setBit_pace (p : Pkg) (k n : Nat) (b : Bool) : (setBit p k n b).pace = p.pace := rfl
@[simp] theorem setBit_fuse (p : Pkg) (k n : Nat) (b : Bool) : (setBit p k n b).fuse = p.fuse := rfl
@[simp] theorem setBit_pwr (p : Pkg) (k n : Nat) (b : Bool) : (setBit p k n b).pwr = p.pwr := rfl
@[simp] theorem setBit_boot (p : Pkg) (k n : Nat) (b : Bool) : (setBit p k n b).boot = p.boot := rfl
@[simp] theorem setBit_seq (p : Pkg) (k n : Nat) (b : Bool) : (setBit p k n b).seq = p.seq := rfl
@[simp] theorem setBit_fault (p : Pkg) (k n : Nat) (b : Bool) : (setBit p k n b).fault = p.fault := rfl
@[simp] theorem setBit_traces (p : Pkg) (k n : Nat) (b : Bool) : (setBit p k n b).traces = p.traces := rfl
@[simp] theorem setBit_tapIr (p : Pkg) (k n : Nat) (b : Bool) : (setBit p k n b).tapIr = p.tapIr := rfl
@[simp] theorem setBit_ces (p : Pkg) (k n : Nat) (b : Bool) : (setBit p k n b).ces = p.ces := rfl
@[simp] theorem setBit_qm (p : Pkg) (k n : Nat) (b : Bool) : (setBit p k n b).qm = p.qm := rfl
@[simp] theorem setBit_xl (p : Pkg) (k n : Nat) (b : Bool) : (setBit p k n b).xl = p.xl := rfl
@[simp] theorem setBit_home (p : Pkg) (k n : Nat) (b : Bool) : (setBit p k n b).home = p.home := rfl
@[simp] theorem setBit_memc (p : Pkg) (k n : Nat) (b : Bool) : (setBit p k n b).memc = p.memc := rfl
@[simp] theorem setBit_harts (p : Pkg) (k n : Nat) (b : Bool) : (setBit p k n b).harts = p.harts := rfl
@[simp] theorem setBit_aplic (p : Pkg) (k n : Nat) (b : Bool) : (setBit p k n b).aplic = p.aplic := rfl
@[simp] theorem setBit_hl (p : Pkg) (k n : Nat) (b : Bool) : (setBit p k n b).hl = p.hl := rfl
@[simp] theorem setBit_rt (p : Pkg) (k n : Nat) (b : Bool) : (setBit p k n b).rt = p.rt := rfl
@[simp] theorem setBit_int (p : Pkg) (k n : Nat) (b : Bool) : (setBit p k n b).int = p.int := rfl
@[simp] theorem setBit_ops (p : Pkg) (k n : Nat) (b : Bool) : (setBit p k n b).ops = p.ops := rfl
@[simp] theorem setBit_out (p : Pkg) (k n : Nat) (b : Bool) : (setBit p k n b).out = p.out := rfl
@[simp] theorem setBit_free (p : Pkg) (k n : Nat) (b : Bool) : (setBit p k n b).free = p.free := rfl

/-! ## bumpReg -/

@[simp] theorem bumpReg_part (p : Pkg) (k n top : Nat) : (bumpReg p k n top).part = p.part := rfl
@[simp] theorem bumpReg_ddrBytes (p : Pkg) (k n top : Nat) : (bumpReg p k n top).ddrBytes = p.ddrBytes := rfl
@[simp] theorem bumpReg_disabled (p : Pkg) (k n top : Nat) : (bumpReg p k n top).disabled = p.disabled := rfl
@[simp] theorem bumpReg_spills (p : Pkg) (k n top : Nat) : (bumpReg p k n top).spills = p.spills := rfl
@[simp] theorem bumpReg_standalone (p : Pkg) (k n top : Nat) : (bumpReg p k n top).standalone = p.standalone := rfl
@[simp] theorem bumpReg_queues (p : Pkg) (k n top : Nat) : (bumpReg p k n top).queues = p.queues := rfl
@[simp] theorem bumpReg_paths (p : Pkg) (k n top : Nat) : (bumpReg p k n top).paths = p.paths := rfl
@[simp] theorem bumpReg_pace (p : Pkg) (k n top : Nat) : (bumpReg p k n top).pace = p.pace := rfl
@[simp] theorem bumpReg_fuse (p : Pkg) (k n top : Nat) : (bumpReg p k n top).fuse = p.fuse := rfl
@[simp] theorem bumpReg_pwr (p : Pkg) (k n top : Nat) : (bumpReg p k n top).pwr = p.pwr := rfl
@[simp] theorem bumpReg_boot (p : Pkg) (k n top : Nat) : (bumpReg p k n top).boot = p.boot := rfl
@[simp] theorem bumpReg_seq (p : Pkg) (k n top : Nat) : (bumpReg p k n top).seq = p.seq := rfl
@[simp] theorem bumpReg_fault (p : Pkg) (k n top : Nat) : (bumpReg p k n top).fault = p.fault := rfl
@[simp] theorem bumpReg_traces (p : Pkg) (k n top : Nat) : (bumpReg p k n top).traces = p.traces := rfl
@[simp] theorem bumpReg_tapIr (p : Pkg) (k n top : Nat) : (bumpReg p k n top).tapIr = p.tapIr := rfl
@[simp] theorem bumpReg_ces (p : Pkg) (k n top : Nat) : (bumpReg p k n top).ces = p.ces := rfl
@[simp] theorem bumpReg_qm (p : Pkg) (k n top : Nat) : (bumpReg p k n top).qm = p.qm := rfl
@[simp] theorem bumpReg_xl (p : Pkg) (k n top : Nat) : (bumpReg p k n top).xl = p.xl := rfl
@[simp] theorem bumpReg_home (p : Pkg) (k n top : Nat) : (bumpReg p k n top).home = p.home := rfl
@[simp] theorem bumpReg_memc (p : Pkg) (k n top : Nat) : (bumpReg p k n top).memc = p.memc := rfl
@[simp] theorem bumpReg_harts (p : Pkg) (k n top : Nat) : (bumpReg p k n top).harts = p.harts := rfl
@[simp] theorem bumpReg_aplic (p : Pkg) (k n top : Nat) : (bumpReg p k n top).aplic = p.aplic := rfl
@[simp] theorem bumpReg_hl (p : Pkg) (k n top : Nat) : (bumpReg p k n top).hl = p.hl := rfl
@[simp] theorem bumpReg_rt (p : Pkg) (k n top : Nat) : (bumpReg p k n top).rt = p.rt := rfl
@[simp] theorem bumpReg_int (p : Pkg) (k n top : Nat) : (bumpReg p k n top).int = p.int := rfl
@[simp] theorem bumpReg_ops (p : Pkg) (k n top : Nat) : (bumpReg p k n top).ops = p.ops := rfl
@[simp] theorem bumpReg_out (p : Pkg) (k n top : Nat) : (bumpReg p k n top).out = p.out := rfl
@[simp] theorem bumpReg_free (p : Pkg) (k n top : Nat) : (bumpReg p k n top).free = p.free := rfl

/-! ## addReg -/

@[simp] theorem addReg_part (p : Pkg) (k n : Nat) : (addReg p k n).part = p.part := rfl
@[simp] theorem addReg_ddrBytes (p : Pkg) (k n : Nat) : (addReg p k n).ddrBytes = p.ddrBytes := rfl
@[simp] theorem addReg_disabled (p : Pkg) (k n : Nat) : (addReg p k n).disabled = p.disabled := rfl
@[simp] theorem addReg_spills (p : Pkg) (k n : Nat) : (addReg p k n).spills = p.spills := rfl
@[simp] theorem addReg_standalone (p : Pkg) (k n : Nat) : (addReg p k n).standalone = p.standalone := rfl
@[simp] theorem addReg_queues (p : Pkg) (k n : Nat) : (addReg p k n).queues = p.queues := rfl
@[simp] theorem addReg_paths (p : Pkg) (k n : Nat) : (addReg p k n).paths = p.paths := rfl
@[simp] theorem addReg_pace (p : Pkg) (k n : Nat) : (addReg p k n).pace = p.pace := rfl
@[simp] theorem addReg_fuse (p : Pkg) (k n : Nat) : (addReg p k n).fuse = p.fuse := rfl
@[simp] theorem addReg_pwr (p : Pkg) (k n : Nat) : (addReg p k n).pwr = p.pwr := rfl
@[simp] theorem addReg_boot (p : Pkg) (k n : Nat) : (addReg p k n).boot = p.boot := rfl
@[simp] theorem addReg_seq (p : Pkg) (k n : Nat) : (addReg p k n).seq = p.seq := rfl
@[simp] theorem addReg_fault (p : Pkg) (k n : Nat) : (addReg p k n).fault = p.fault := rfl
@[simp] theorem addReg_traces (p : Pkg) (k n : Nat) : (addReg p k n).traces = p.traces := rfl
@[simp] theorem addReg_tapIr (p : Pkg) (k n : Nat) : (addReg p k n).tapIr = p.tapIr := rfl
@[simp] theorem addReg_ces (p : Pkg) (k n : Nat) : (addReg p k n).ces = p.ces := rfl
@[simp] theorem addReg_qm (p : Pkg) (k n : Nat) : (addReg p k n).qm = p.qm := rfl
@[simp] theorem addReg_xl (p : Pkg) (k n : Nat) : (addReg p k n).xl = p.xl := rfl
@[simp] theorem addReg_home (p : Pkg) (k n : Nat) : (addReg p k n).home = p.home := rfl
@[simp] theorem addReg_memc (p : Pkg) (k n : Nat) : (addReg p k n).memc = p.memc := rfl
@[simp] theorem addReg_harts (p : Pkg) (k n : Nat) : (addReg p k n).harts = p.harts := rfl
@[simp] theorem addReg_aplic (p : Pkg) (k n : Nat) : (addReg p k n).aplic = p.aplic := rfl
@[simp] theorem addReg_hl (p : Pkg) (k n : Nat) : (addReg p k n).hl = p.hl := rfl
@[simp] theorem addReg_rt (p : Pkg) (k n : Nat) : (addReg p k n).rt = p.rt := rfl
@[simp] theorem addReg_int (p : Pkg) (k n : Nat) : (addReg p k n).int = p.int := rfl
@[simp] theorem addReg_ops (p : Pkg) (k n : Nat) : (addReg p k n).ops = p.ops := rfl
@[simp] theorem addReg_out (p : Pkg) (k n : Nat) : (addReg p k n).out = p.out := rfl
@[simp] theorem addReg_free (p : Pkg) (k n : Nat) : (addReg p k n).free = p.free := rfl

/-! ## bumpFld -/

@[simp] theorem bumpFld_part (p : Pkg) (k hi lo : Nat) : (bumpFld p k hi lo).part = p.part := rfl
@[simp] theorem bumpFld_ddrBytes (p : Pkg) (k hi lo : Nat) : (bumpFld p k hi lo).ddrBytes = p.ddrBytes := rfl
@[simp] theorem bumpFld_disabled (p : Pkg) (k hi lo : Nat) : (bumpFld p k hi lo).disabled = p.disabled := rfl
@[simp] theorem bumpFld_spills (p : Pkg) (k hi lo : Nat) : (bumpFld p k hi lo).spills = p.spills := rfl
@[simp] theorem bumpFld_standalone (p : Pkg) (k hi lo : Nat) : (bumpFld p k hi lo).standalone = p.standalone := rfl
@[simp] theorem bumpFld_queues (p : Pkg) (k hi lo : Nat) : (bumpFld p k hi lo).queues = p.queues := rfl
@[simp] theorem bumpFld_paths (p : Pkg) (k hi lo : Nat) : (bumpFld p k hi lo).paths = p.paths := rfl
@[simp] theorem bumpFld_pace (p : Pkg) (k hi lo : Nat) : (bumpFld p k hi lo).pace = p.pace := rfl
@[simp] theorem bumpFld_fuse (p : Pkg) (k hi lo : Nat) : (bumpFld p k hi lo).fuse = p.fuse := rfl
@[simp] theorem bumpFld_pwr (p : Pkg) (k hi lo : Nat) : (bumpFld p k hi lo).pwr = p.pwr := rfl
@[simp] theorem bumpFld_boot (p : Pkg) (k hi lo : Nat) : (bumpFld p k hi lo).boot = p.boot := rfl
@[simp] theorem bumpFld_seq (p : Pkg) (k hi lo : Nat) : (bumpFld p k hi lo).seq = p.seq := rfl
@[simp] theorem bumpFld_fault (p : Pkg) (k hi lo : Nat) : (bumpFld p k hi lo).fault = p.fault := rfl
@[simp] theorem bumpFld_traces (p : Pkg) (k hi lo : Nat) : (bumpFld p k hi lo).traces = p.traces := rfl
@[simp] theorem bumpFld_tapIr (p : Pkg) (k hi lo : Nat) : (bumpFld p k hi lo).tapIr = p.tapIr := rfl
@[simp] theorem bumpFld_ces (p : Pkg) (k hi lo : Nat) : (bumpFld p k hi lo).ces = p.ces := rfl
@[simp] theorem bumpFld_qm (p : Pkg) (k hi lo : Nat) : (bumpFld p k hi lo).qm = p.qm := rfl
@[simp] theorem bumpFld_xl (p : Pkg) (k hi lo : Nat) : (bumpFld p k hi lo).xl = p.xl := rfl
@[simp] theorem bumpFld_home (p : Pkg) (k hi lo : Nat) : (bumpFld p k hi lo).home = p.home := rfl
@[simp] theorem bumpFld_memc (p : Pkg) (k hi lo : Nat) : (bumpFld p k hi lo).memc = p.memc := rfl
@[simp] theorem bumpFld_harts (p : Pkg) (k hi lo : Nat) : (bumpFld p k hi lo).harts = p.harts := rfl
@[simp] theorem bumpFld_aplic (p : Pkg) (k hi lo : Nat) : (bumpFld p k hi lo).aplic = p.aplic := rfl
@[simp] theorem bumpFld_hl (p : Pkg) (k hi lo : Nat) : (bumpFld p k hi lo).hl = p.hl := rfl
@[simp] theorem bumpFld_rt (p : Pkg) (k hi lo : Nat) : (bumpFld p k hi lo).rt = p.rt := rfl
@[simp] theorem bumpFld_int (p : Pkg) (k hi lo : Nat) : (bumpFld p k hi lo).int = p.int := rfl
@[simp] theorem bumpFld_ops (p : Pkg) (k hi lo : Nat) : (bumpFld p k hi lo).ops = p.ops := rfl
@[simp] theorem bumpFld_out (p : Pkg) (k hi lo : Nat) : (bumpFld p k hi lo).out = p.out := rfl
@[simp] theorem bumpFld_free (p : Pkg) (k hi lo : Nat) : (bumpFld p k hi lo).free = p.free := rfl

/-! ## setQueue -/

@[simp] theorem setQueue_part (p : Pkg) (k : Nat) (q : Queue) : (setQueue p k q).part = p.part := rfl
@[simp] theorem setQueue_ddrBytes (p : Pkg) (k : Nat) (q : Queue) : (setQueue p k q).ddrBytes = p.ddrBytes := rfl
@[simp] theorem setQueue_disabled (p : Pkg) (k : Nat) (q : Queue) : (setQueue p k q).disabled = p.disabled := rfl
@[simp] theorem setQueue_spills (p : Pkg) (k : Nat) (q : Queue) : (setQueue p k q).spills = p.spills := rfl
@[simp] theorem setQueue_standalone (p : Pkg) (k : Nat) (q : Queue) : (setQueue p k q).standalone = p.standalone := rfl
@[simp] theorem setQueue_regs (p : Pkg) (k : Nat) (q : Queue) : (setQueue p k q).regs = p.regs := rfl
@[simp] theorem setQueue_paths (p : Pkg) (k : Nat) (q : Queue) : (setQueue p k q).paths = p.paths := rfl
@[simp] theorem setQueue_pace (p : Pkg) (k : Nat) (q : Queue) : (setQueue p k q).pace = p.pace := rfl
@[simp] theorem setQueue_fuse (p : Pkg) (k : Nat) (q : Queue) : (setQueue p k q).fuse = p.fuse := rfl
@[simp] theorem setQueue_pwr (p : Pkg) (k : Nat) (q : Queue) : (setQueue p k q).pwr = p.pwr := rfl
@[simp] theorem setQueue_boot (p : Pkg) (k : Nat) (q : Queue) : (setQueue p k q).boot = p.boot := rfl
@[simp] theorem setQueue_seq (p : Pkg) (k : Nat) (q : Queue) : (setQueue p k q).seq = p.seq := rfl
@[simp] theorem setQueue_fault (p : Pkg) (k : Nat) (q : Queue) : (setQueue p k q).fault = p.fault := rfl
@[simp] theorem setQueue_traces (p : Pkg) (k : Nat) (q : Queue) : (setQueue p k q).traces = p.traces := rfl
@[simp] theorem setQueue_tapIr (p : Pkg) (k : Nat) (q : Queue) : (setQueue p k q).tapIr = p.tapIr := rfl
@[simp] theorem setQueue_ces (p : Pkg) (k : Nat) (q : Queue) : (setQueue p k q).ces = p.ces := rfl
@[simp] theorem setQueue_qm (p : Pkg) (k : Nat) (q : Queue) : (setQueue p k q).qm = p.qm := rfl
@[simp] theorem setQueue_xl (p : Pkg) (k : Nat) (q : Queue) : (setQueue p k q).xl = p.xl := rfl
@[simp] theorem setQueue_home (p : Pkg) (k : Nat) (q : Queue) : (setQueue p k q).home = p.home := rfl
@[simp] theorem setQueue_memc (p : Pkg) (k : Nat) (q : Queue) : (setQueue p k q).memc = p.memc := rfl
@[simp] theorem setQueue_harts (p : Pkg) (k : Nat) (q : Queue) : (setQueue p k q).harts = p.harts := rfl
@[simp] theorem setQueue_aplic (p : Pkg) (k : Nat) (q : Queue) : (setQueue p k q).aplic = p.aplic := rfl
@[simp] theorem setQueue_hl (p : Pkg) (k : Nat) (q : Queue) : (setQueue p k q).hl = p.hl := rfl
@[simp] theorem setQueue_rt (p : Pkg) (k : Nat) (q : Queue) : (setQueue p k q).rt = p.rt := rfl
@[simp] theorem setQueue_int (p : Pkg) (k : Nat) (q : Queue) : (setQueue p k q).int = p.int := rfl
@[simp] theorem setQueue_ops (p : Pkg) (k : Nat) (q : Queue) : (setQueue p k q).ops = p.ops := rfl
@[simp] theorem setQueue_out (p : Pkg) (k : Nat) (q : Queue) : (setQueue p k q).out = p.out := rfl
@[simp] theorem setQueue_free (p : Pkg) (k : Nat) (q : Queue) : (setQueue p k q).free = p.free := rfl

/-! ## emitMsg -/

@[simp] theorem emitMsg_part (p : Pkg) (m : OutMsg) : (emitMsg p m).part = p.part := rfl
@[simp] theorem emitMsg_ddrBytes (p : Pkg) (m : OutMsg) : (emitMsg p m).ddrBytes = p.ddrBytes := rfl
@[simp] theorem emitMsg_disabled (p : Pkg) (m : OutMsg) : (emitMsg p m).disabled = p.disabled := rfl
@[simp] theorem emitMsg_spills (p : Pkg) (m : OutMsg) : (emitMsg p m).spills = p.spills := rfl
@[simp] theorem emitMsg_standalone (p : Pkg) (m : OutMsg) : (emitMsg p m).standalone = p.standalone := rfl
@[simp] theorem emitMsg_regs (p : Pkg) (m : OutMsg) : (emitMsg p m).regs = p.regs := rfl
@[simp] theorem emitMsg_queues (p : Pkg) (m : OutMsg) : (emitMsg p m).queues = p.queues := rfl
@[simp] theorem emitMsg_paths (p : Pkg) (m : OutMsg) : (emitMsg p m).paths = p.paths := rfl
@[simp] theorem emitMsg_pace (p : Pkg) (m : OutMsg) : (emitMsg p m).pace = p.pace := rfl
@[simp] theorem emitMsg_fuse (p : Pkg) (m : OutMsg) : (emitMsg p m).fuse = p.fuse := rfl
@[simp] theorem emitMsg_pwr (p : Pkg) (m : OutMsg) : (emitMsg p m).pwr = p.pwr := rfl
@[simp] theorem emitMsg_boot (p : Pkg) (m : OutMsg) : (emitMsg p m).boot = p.boot := rfl
@[simp] theorem emitMsg_seq (p : Pkg) (m : OutMsg) : (emitMsg p m).seq = p.seq := rfl
@[simp] theorem emitMsg_fault (p : Pkg) (m : OutMsg) : (emitMsg p m).fault = p.fault := rfl
@[simp] theorem emitMsg_traces (p : Pkg) (m : OutMsg) : (emitMsg p m).traces = p.traces := rfl
@[simp] theorem emitMsg_tapIr (p : Pkg) (m : OutMsg) : (emitMsg p m).tapIr = p.tapIr := rfl
@[simp] theorem emitMsg_ces (p : Pkg) (m : OutMsg) : (emitMsg p m).ces = p.ces := rfl
@[simp] theorem emitMsg_qm (p : Pkg) (m : OutMsg) : (emitMsg p m).qm = p.qm := rfl
@[simp] theorem emitMsg_xl (p : Pkg) (m : OutMsg) : (emitMsg p m).xl = p.xl := rfl
@[simp] theorem emitMsg_home (p : Pkg) (m : OutMsg) : (emitMsg p m).home = p.home := rfl
@[simp] theorem emitMsg_memc (p : Pkg) (m : OutMsg) : (emitMsg p m).memc = p.memc := rfl
@[simp] theorem emitMsg_harts (p : Pkg) (m : OutMsg) : (emitMsg p m).harts = p.harts := rfl
@[simp] theorem emitMsg_aplic (p : Pkg) (m : OutMsg) : (emitMsg p m).aplic = p.aplic := rfl
@[simp] theorem emitMsg_hl (p : Pkg) (m : OutMsg) : (emitMsg p m).hl = p.hl := rfl
@[simp] theorem emitMsg_rt (p : Pkg) (m : OutMsg) : (emitMsg p m).rt = p.rt := rfl
@[simp] theorem emitMsg_int (p : Pkg) (m : OutMsg) : (emitMsg p m).int = p.int := rfl
@[simp] theorem emitMsg_ops (p : Pkg) (m : OutMsg) : (emitMsg p m).ops = p.ops := rfl
@[simp] theorem emitMsg_free (p : Pkg) (m : OutMsg) : (emitMsg p m).free = p.free := rfl

/-! ## nextFree -/

@[simp] theorem nextFree_part (p : Pkg) : (nextFree p).part = p.part := rfl
@[simp] theorem nextFree_ddrBytes (p : Pkg) : (nextFree p).ddrBytes = p.ddrBytes := rfl
@[simp] theorem nextFree_disabled (p : Pkg) : (nextFree p).disabled = p.disabled := rfl
@[simp] theorem nextFree_spills (p : Pkg) : (nextFree p).spills = p.spills := rfl
@[simp] theorem nextFree_standalone (p : Pkg) : (nextFree p).standalone = p.standalone := rfl
@[simp] theorem nextFree_regs (p : Pkg) : (nextFree p).regs = p.regs := rfl
@[simp] theorem nextFree_queues (p : Pkg) : (nextFree p).queues = p.queues := rfl
@[simp] theorem nextFree_paths (p : Pkg) : (nextFree p).paths = p.paths := rfl
@[simp] theorem nextFree_pace (p : Pkg) : (nextFree p).pace = p.pace := rfl
@[simp] theorem nextFree_fuse (p : Pkg) : (nextFree p).fuse = p.fuse := rfl
@[simp] theorem nextFree_pwr (p : Pkg) : (nextFree p).pwr = p.pwr := rfl
@[simp] theorem nextFree_boot (p : Pkg) : (nextFree p).boot = p.boot := rfl
@[simp] theorem nextFree_seq (p : Pkg) : (nextFree p).seq = p.seq := rfl
@[simp] theorem nextFree_fault (p : Pkg) : (nextFree p).fault = p.fault := rfl
@[simp] theorem nextFree_traces (p : Pkg) : (nextFree p).traces = p.traces := rfl
@[simp] theorem nextFree_tapIr (p : Pkg) : (nextFree p).tapIr = p.tapIr := rfl
@[simp] theorem nextFree_ces (p : Pkg) : (nextFree p).ces = p.ces := rfl
@[simp] theorem nextFree_qm (p : Pkg) : (nextFree p).qm = p.qm := rfl
@[simp] theorem nextFree_xl (p : Pkg) : (nextFree p).xl = p.xl := rfl
@[simp] theorem nextFree_home (p : Pkg) : (nextFree p).home = p.home := rfl
@[simp] theorem nextFree_memc (p : Pkg) : (nextFree p).memc = p.memc := rfl
@[simp] theorem nextFree_harts (p : Pkg) : (nextFree p).harts = p.harts := rfl
@[simp] theorem nextFree_aplic (p : Pkg) : (nextFree p).aplic = p.aplic := rfl
@[simp] theorem nextFree_hl (p : Pkg) : (nextFree p).hl = p.hl := rfl
@[simp] theorem nextFree_rt (p : Pkg) : (nextFree p).rt = p.rt := rfl
@[simp] theorem nextFree_int (p : Pkg) : (nextFree p).int = p.int := rfl
@[simp] theorem nextFree_ops (p : Pkg) : (nextFree p).ops = p.ops := rfl
@[simp] theorem nextFree_out (p : Pkg) : (nextFree p).out = p.out := rfl

/-! ## setCe -/

@[simp] theorem setCe_part (p : Pkg) (n : Nat) (c : Ce) : (setCe p n c).part = p.part := rfl
@[simp] theorem setCe_ddrBytes (p : Pkg) (n : Nat) (c : Ce) : (setCe p n c).ddrBytes = p.ddrBytes := rfl
@[simp] theorem setCe_disabled (p : Pkg) (n : Nat) (c : Ce) : (setCe p n c).disabled = p.disabled := rfl
@[simp] theorem setCe_spills (p : Pkg) (n : Nat) (c : Ce) : (setCe p n c).spills = p.spills := rfl
@[simp] theorem setCe_standalone (p : Pkg) (n : Nat) (c : Ce) : (setCe p n c).standalone = p.standalone := rfl
@[simp] theorem setCe_regs (p : Pkg) (n : Nat) (c : Ce) : (setCe p n c).regs = p.regs := rfl
@[simp] theorem setCe_queues (p : Pkg) (n : Nat) (c : Ce) : (setCe p n c).queues = p.queues := rfl
@[simp] theorem setCe_paths (p : Pkg) (n : Nat) (c : Ce) : (setCe p n c).paths = p.paths := rfl
@[simp] theorem setCe_pace (p : Pkg) (n : Nat) (c : Ce) : (setCe p n c).pace = p.pace := rfl
@[simp] theorem setCe_fuse (p : Pkg) (n : Nat) (c : Ce) : (setCe p n c).fuse = p.fuse := rfl
@[simp] theorem setCe_pwr (p : Pkg) (n : Nat) (c : Ce) : (setCe p n c).pwr = p.pwr := rfl
@[simp] theorem setCe_boot (p : Pkg) (n : Nat) (c : Ce) : (setCe p n c).boot = p.boot := rfl
@[simp] theorem setCe_seq (p : Pkg) (n : Nat) (c : Ce) : (setCe p n c).seq = p.seq := rfl
@[simp] theorem setCe_fault (p : Pkg) (n : Nat) (c : Ce) : (setCe p n c).fault = p.fault := rfl
@[simp] theorem setCe_traces (p : Pkg) (n : Nat) (c : Ce) : (setCe p n c).traces = p.traces := rfl
@[simp] theorem setCe_tapIr (p : Pkg) (n : Nat) (c : Ce) : (setCe p n c).tapIr = p.tapIr := rfl
@[simp] theorem setCe_qm (p : Pkg) (n : Nat) (c : Ce) : (setCe p n c).qm = p.qm := rfl
@[simp] theorem setCe_xl (p : Pkg) (n : Nat) (c : Ce) : (setCe p n c).xl = p.xl := rfl
@[simp] theorem setCe_home (p : Pkg) (n : Nat) (c : Ce) : (setCe p n c).home = p.home := rfl
@[simp] theorem setCe_memc (p : Pkg) (n : Nat) (c : Ce) : (setCe p n c).memc = p.memc := rfl
@[simp] theorem setCe_harts (p : Pkg) (n : Nat) (c : Ce) : (setCe p n c).harts = p.harts := rfl
@[simp] theorem setCe_aplic (p : Pkg) (n : Nat) (c : Ce) : (setCe p n c).aplic = p.aplic := rfl
@[simp] theorem setCe_hl (p : Pkg) (n : Nat) (c : Ce) : (setCe p n c).hl = p.hl := rfl
@[simp] theorem setCe_rt (p : Pkg) (n : Nat) (c : Ce) : (setCe p n c).rt = p.rt := rfl
@[simp] theorem setCe_int (p : Pkg) (n : Nat) (c : Ce) : (setCe p n c).int = p.int := rfl
@[simp] theorem setCe_ops (p : Pkg) (n : Nat) (c : Ce) : (setCe p n c).ops = p.ops := rfl
@[simp] theorem setCe_out (p : Pkg) (n : Nat) (c : Ce) : (setCe p n c).out = p.out := rfl
@[simp] theorem setCe_free (p : Pkg) (n : Nat) (c : Ce) : (setCe p n c).free = p.free := rfl

@[simp] theorem ce_setCe_self (p : Pkg) (n : Nat) (c : Ce) : ce (setCe p n c) n = c := SMap.get_set_self _ _ _ _
theorem ce_setCe_ne (p : Pkg) {n j : Nat} (c : Ce) (h' : j ≠ n) : ce (setCe p n c) j = ce p j :=
  SMap.get_set_ne _ _ _ h'

/-! ## setCmd -/

@[simp] theorem setCmd_part (p : Pkg) (id : Nat) (c : Cmd) : (setCmd p id c).part = p.part := rfl
@[simp] theorem setCmd_ddrBytes (p : Pkg) (id : Nat) (c : Cmd) : (setCmd p id c).ddrBytes = p.ddrBytes := rfl
@[simp] theorem setCmd_disabled (p : Pkg) (id : Nat) (c : Cmd) : (setCmd p id c).disabled = p.disabled := rfl
@[simp] theorem setCmd_spills (p : Pkg) (id : Nat) (c : Cmd) : (setCmd p id c).spills = p.spills := rfl
@[simp] theorem setCmd_standalone (p : Pkg) (id : Nat) (c : Cmd) : (setCmd p id c).standalone = p.standalone := rfl
@[simp] theorem setCmd_regs (p : Pkg) (id : Nat) (c : Cmd) : (setCmd p id c).regs = p.regs := rfl
@[simp] theorem setCmd_queues (p : Pkg) (id : Nat) (c : Cmd) : (setCmd p id c).queues = p.queues := rfl
@[simp] theorem setCmd_paths (p : Pkg) (id : Nat) (c : Cmd) : (setCmd p id c).paths = p.paths := rfl
@[simp] theorem setCmd_pace (p : Pkg) (id : Nat) (c : Cmd) : (setCmd p id c).pace = p.pace := rfl
@[simp] theorem setCmd_fuse (p : Pkg) (id : Nat) (c : Cmd) : (setCmd p id c).fuse = p.fuse := rfl
@[simp] theorem setCmd_pwr (p : Pkg) (id : Nat) (c : Cmd) : (setCmd p id c).pwr = p.pwr := rfl
@[simp] theorem setCmd_boot (p : Pkg) (id : Nat) (c : Cmd) : (setCmd p id c).boot = p.boot := rfl
@[simp] theorem setCmd_seq (p : Pkg) (id : Nat) (c : Cmd) : (setCmd p id c).seq = p.seq := rfl
@[simp] theorem setCmd_fault (p : Pkg) (id : Nat) (c : Cmd) : (setCmd p id c).fault = p.fault := rfl
@[simp] theorem setCmd_traces (p : Pkg) (id : Nat) (c : Cmd) : (setCmd p id c).traces = p.traces := rfl
@[simp] theorem setCmd_tapIr (p : Pkg) (id : Nat) (c : Cmd) : (setCmd p id c).tapIr = p.tapIr := rfl
@[simp] theorem setCmd_ces (p : Pkg) (id : Nat) (c : Cmd) : (setCmd p id c).ces = p.ces := rfl
@[simp] theorem setCmd_xl (p : Pkg) (id : Nat) (c : Cmd) : (setCmd p id c).xl = p.xl := rfl
@[simp] theorem setCmd_home (p : Pkg) (id : Nat) (c : Cmd) : (setCmd p id c).home = p.home := rfl
@[simp] theorem setCmd_memc (p : Pkg) (id : Nat) (c : Cmd) : (setCmd p id c).memc = p.memc := rfl
@[simp] theorem setCmd_harts (p : Pkg) (id : Nat) (c : Cmd) : (setCmd p id c).harts = p.harts := rfl
@[simp] theorem setCmd_aplic (p : Pkg) (id : Nat) (c : Cmd) : (setCmd p id c).aplic = p.aplic := rfl
@[simp] theorem setCmd_hl (p : Pkg) (id : Nat) (c : Cmd) : (setCmd p id c).hl = p.hl := rfl
@[simp] theorem setCmd_rt (p : Pkg) (id : Nat) (c : Cmd) : (setCmd p id c).rt = p.rt := rfl
@[simp] theorem setCmd_int (p : Pkg) (id : Nat) (c : Cmd) : (setCmd p id c).int = p.int := rfl
@[simp] theorem setCmd_ops (p : Pkg) (id : Nat) (c : Cmd) : (setCmd p id c).ops = p.ops := rfl
@[simp] theorem setCmd_out (p : Pkg) (id : Nat) (c : Cmd) : (setCmd p id c).out = p.out := rfl
@[simp] theorem setCmd_free (p : Pkg) (id : Nat) (c : Cmd) : (setCmd p id c).free = p.free := rfl

@[simp] theorem cmd_setCmd_self (p : Pkg) (id : Nat) (c : Cmd) : cmd (setCmd p id c) id = c := SMap.get_set_self _ _ _ _
theorem cmd_setCmd_ne (p : Pkg) {id j : Nat} (c : Cmd) (h : j ≠ id) : cmd (setCmd p id c) j = cmd p j :=
  SMap.get_set_ne _ _ _ h

/-! ## setHart -/

@[simp] theorem setHart_part (p : Pkg) (h : Nat) (x : Hart) : (setHart p h x).part = p.part := rfl
@[simp] theorem setHart_ddrBytes (p : Pkg) (h : Nat) (x : Hart) : (setHart p h x).ddrBytes = p.ddrBytes := rfl
@[simp] theorem setHart_disabled (p : Pkg) (h : Nat) (x : Hart) : (setHart p h x).disabled = p.disabled := rfl
@[simp] theorem setHart_spills (p : Pkg) (h : Nat) (x : Hart) : (setHart p h x).spills = p.spills := rfl
@[simp] theorem setHart_standalone (p : Pkg) (h : Nat) (x : Hart) : (setHart p h x).standalone = p.standalone := rfl
@[simp] theorem setHart_regs (p : Pkg) (h : Nat) (x : Hart) : (setHart p h x).regs = p.regs := rfl
@[simp] theorem setHart_queues (p : Pkg) (h : Nat) (x : Hart) : (setHart p h x).queues = p.queues := rfl
@[simp] theorem setHart_paths (p : Pkg) (h : Nat) (x : Hart) : (setHart p h x).paths = p.paths := rfl
@[simp] theorem setHart_pace (p : Pkg) (h : Nat) (x : Hart) : (setHart p h x).pace = p.pace := rfl
@[simp] theorem setHart_fuse (p : Pkg) (h : Nat) (x : Hart) : (setHart p h x).fuse = p.fuse := rfl
@[simp] theorem setHart_pwr (p : Pkg) (h : Nat) (x : Hart) : (setHart p h x).pwr = p.pwr := rfl
@[simp] theorem setHart_boot (p : Pkg) (h : Nat) (x : Hart) : (setHart p h x).boot = p.boot := rfl
@[simp] theorem setHart_seq (p : Pkg) (h : Nat) (x : Hart) : (setHart p h x).seq = p.seq := rfl
@[simp] theorem setHart_fault (p : Pkg) (h : Nat) (x : Hart) : (setHart p h x).fault = p.fault := rfl
@[simp] theorem setHart_traces (p : Pkg) (h : Nat) (x : Hart) : (setHart p h x).traces = p.traces := rfl
@[simp] theorem setHart_tapIr (p : Pkg) (h : Nat) (x : Hart) : (setHart p h x).tapIr = p.tapIr := rfl
@[simp] theorem setHart_ces (p : Pkg) (h : Nat) (x : Hart) : (setHart p h x).ces = p.ces := rfl
@[simp] theorem setHart_qm (p : Pkg) (h : Nat) (x : Hart) : (setHart p h x).qm = p.qm := rfl
@[simp] theorem setHart_xl (p : Pkg) (h : Nat) (x : Hart) : (setHart p h x).xl = p.xl := rfl
@[simp] theorem setHart_home (p : Pkg) (h : Nat) (x : Hart) : (setHart p h x).home = p.home := rfl
@[simp] theorem setHart_memc (p : Pkg) (h : Nat) (x : Hart) : (setHart p h x).memc = p.memc := rfl
@[simp] theorem setHart_aplic (p : Pkg) (h : Nat) (x : Hart) : (setHart p h x).aplic = p.aplic := rfl
@[simp] theorem setHart_hl (p : Pkg) (h : Nat) (x : Hart) : (setHart p h x).hl = p.hl := rfl
@[simp] theorem setHart_rt (p : Pkg) (h : Nat) (x : Hart) : (setHart p h x).rt = p.rt := rfl
@[simp] theorem setHart_int (p : Pkg) (h : Nat) (x : Hart) : (setHart p h x).int = p.int := rfl
@[simp] theorem setHart_ops (p : Pkg) (h : Nat) (x : Hart) : (setHart p h x).ops = p.ops := rfl
@[simp] theorem setHart_out (p : Pkg) (h : Nat) (x : Hart) : (setHart p h x).out = p.out := rfl
@[simp] theorem setHart_free (p : Pkg) (h : Nat) (x : Hart) : (setHart p h x).free = p.free := rfl

@[simp] theorem hart_setHart_self (p : Pkg) (h : Nat) (x : Hart) : hart (setHart p h x) h = x := SMap.get_set_self _ _ _ _
theorem hart_setHart_ne (p : Pkg) {h j : Nat} (x : Hart) (h' : j ≠ h) : hart (setHart p h x) j = hart p j :=
  SMap.get_set_ne _ _ _ h'

/-! ## setPath -/

@[simp] theorem setPath_part (p : Pkg) (n : Nat) (x : Path) : (setPath p n x).part = p.part := rfl
@[simp] theorem setPath_ddrBytes (p : Pkg) (n : Nat) (x : Path) : (setPath p n x).ddrBytes = p.ddrBytes := rfl
@[simp] theorem setPath_disabled (p : Pkg) (n : Nat) (x : Path) : (setPath p n x).disabled = p.disabled := rfl
@[simp] theorem setPath_spills (p : Pkg) (n : Nat) (x : Path) : (setPath p n x).spills = p.spills := rfl
@[simp] theorem setPath_standalone (p : Pkg) (n : Nat) (x : Path) : (setPath p n x).standalone = p.standalone := rfl
@[simp] theorem setPath_regs (p : Pkg) (n : Nat) (x : Path) : (setPath p n x).regs = p.regs := rfl
@[simp] theorem setPath_queues (p : Pkg) (n : Nat) (x : Path) : (setPath p n x).queues = p.queues := rfl
@[simp] theorem setPath_pace (p : Pkg) (n : Nat) (x : Path) : (setPath p n x).pace = p.pace := rfl
@[simp] theorem setPath_fuse (p : Pkg) (n : Nat) (x : Path) : (setPath p n x).fuse = p.fuse := rfl
@[simp] theorem setPath_pwr (p : Pkg) (n : Nat) (x : Path) : (setPath p n x).pwr = p.pwr := rfl
@[simp] theorem setPath_boot (p : Pkg) (n : Nat) (x : Path) : (setPath p n x).boot = p.boot := rfl
@[simp] theorem setPath_seq (p : Pkg) (n : Nat) (x : Path) : (setPath p n x).seq = p.seq := rfl
@[simp] theorem setPath_fault (p : Pkg) (n : Nat) (x : Path) : (setPath p n x).fault = p.fault := rfl
@[simp] theorem setPath_traces (p : Pkg) (n : Nat) (x : Path) : (setPath p n x).traces = p.traces := rfl
@[simp] theorem setPath_tapIr (p : Pkg) (n : Nat) (x : Path) : (setPath p n x).tapIr = p.tapIr := rfl
@[simp] theorem setPath_ces (p : Pkg) (n : Nat) (x : Path) : (setPath p n x).ces = p.ces := rfl
@[simp] theorem setPath_qm (p : Pkg) (n : Nat) (x : Path) : (setPath p n x).qm = p.qm := rfl
@[simp] theorem setPath_xl (p : Pkg) (n : Nat) (x : Path) : (setPath p n x).xl = p.xl := rfl
@[simp] theorem setPath_home (p : Pkg) (n : Nat) (x : Path) : (setPath p n x).home = p.home := rfl
@[simp] theorem setPath_memc (p : Pkg) (n : Nat) (x : Path) : (setPath p n x).memc = p.memc := rfl
@[simp] theorem setPath_harts (p : Pkg) (n : Nat) (x : Path) : (setPath p n x).harts = p.harts := rfl
@[simp] theorem setPath_aplic (p : Pkg) (n : Nat) (x : Path) : (setPath p n x).aplic = p.aplic := rfl
@[simp] theorem setPath_hl (p : Pkg) (n : Nat) (x : Path) : (setPath p n x).hl = p.hl := rfl
@[simp] theorem setPath_rt (p : Pkg) (n : Nat) (x : Path) : (setPath p n x).rt = p.rt := rfl
@[simp] theorem setPath_int (p : Pkg) (n : Nat) (x : Path) : (setPath p n x).int = p.int := rfl
@[simp] theorem setPath_ops (p : Pkg) (n : Nat) (x : Path) : (setPath p n x).ops = p.ops := rfl
@[simp] theorem setPath_out (p : Pkg) (n : Nat) (x : Path) : (setPath p n x).out = p.out := rfl
@[simp] theorem setPath_free (p : Pkg) (n : Nat) (x : Path) : (setPath p n x).free = p.free := rfl

@[simp] theorem path_setPath_self (p : Pkg) (n : Nat) (x : Path) : path (setPath p n x) n = x := SMap.get_set_self _ _ _ _

/-! ## setXl -/

@[simp] theorem setXl_part (p : Pkg) (x : XlSt) : (setXl p x).part = p.part := rfl
@[simp] theorem setXl_ddrBytes (p : Pkg) (x : XlSt) : (setXl p x).ddrBytes = p.ddrBytes := rfl
@[simp] theorem setXl_disabled (p : Pkg) (x : XlSt) : (setXl p x).disabled = p.disabled := rfl
@[simp] theorem setXl_spills (p : Pkg) (x : XlSt) : (setXl p x).spills = p.spills := rfl
@[simp] theorem setXl_standalone (p : Pkg) (x : XlSt) : (setXl p x).standalone = p.standalone := rfl
@[simp] theorem setXl_regs (p : Pkg) (x : XlSt) : (setXl p x).regs = p.regs := rfl
@[simp] theorem setXl_queues (p : Pkg) (x : XlSt) : (setXl p x).queues = p.queues := rfl
@[simp] theorem setXl_paths (p : Pkg) (x : XlSt) : (setXl p x).paths = p.paths := rfl
@[simp] theorem setXl_pace (p : Pkg) (x : XlSt) : (setXl p x).pace = p.pace := rfl
@[simp] theorem setXl_fuse (p : Pkg) (x : XlSt) : (setXl p x).fuse = p.fuse := rfl
@[simp] theorem setXl_pwr (p : Pkg) (x : XlSt) : (setXl p x).pwr = p.pwr := rfl
@[simp] theorem setXl_boot (p : Pkg) (x : XlSt) : (setXl p x).boot = p.boot := rfl
@[simp] theorem setXl_seq (p : Pkg) (x : XlSt) : (setXl p x).seq = p.seq := rfl
@[simp] theorem setXl_fault (p : Pkg) (x : XlSt) : (setXl p x).fault = p.fault := rfl
@[simp] theorem setXl_traces (p : Pkg) (x : XlSt) : (setXl p x).traces = p.traces := rfl
@[simp] theorem setXl_tapIr (p : Pkg) (x : XlSt) : (setXl p x).tapIr = p.tapIr := rfl
@[simp] theorem setXl_ces (p : Pkg) (x : XlSt) : (setXl p x).ces = p.ces := rfl
@[simp] theorem setXl_qm (p : Pkg) (x : XlSt) : (setXl p x).qm = p.qm := rfl
@[simp] theorem setXl_xl (p : Pkg) (x : XlSt) : (setXl p x).xl = x := rfl
@[simp] theorem setXl_home (p : Pkg) (x : XlSt) : (setXl p x).home = p.home := rfl
@[simp] theorem setXl_memc (p : Pkg) (x : XlSt) : (setXl p x).memc = p.memc := rfl
@[simp] theorem setXl_harts (p : Pkg) (x : XlSt) : (setXl p x).harts = p.harts := rfl
@[simp] theorem setXl_aplic (p : Pkg) (x : XlSt) : (setXl p x).aplic = p.aplic := rfl
@[simp] theorem setXl_hl (p : Pkg) (x : XlSt) : (setXl p x).hl = p.hl := rfl
@[simp] theorem setXl_rt (p : Pkg) (x : XlSt) : (setXl p x).rt = p.rt := rfl
@[simp] theorem setXl_int (p : Pkg) (x : XlSt) : (setXl p x).int = p.int := rfl
@[simp] theorem setXl_ops (p : Pkg) (x : XlSt) : (setXl p x).ops = p.ops := rfl
@[simp] theorem setXl_out (p : Pkg) (x : XlSt) : (setXl p x).out = p.out := rfl
@[simp] theorem setXl_free (p : Pkg) (x : XlSt) : (setXl p x).free = p.free := rfl

/-! ## setPort -/

@[simp] theorem setPort_part (p : Pkg) (i : Nat) (x : PortSt) : (setPort p i x).part = p.part := rfl
@[simp] theorem setPort_ddrBytes (p : Pkg) (i : Nat) (x : PortSt) : (setPort p i x).ddrBytes = p.ddrBytes := rfl
@[simp] theorem setPort_disabled (p : Pkg) (i : Nat) (x : PortSt) : (setPort p i x).disabled = p.disabled := rfl
@[simp] theorem setPort_spills (p : Pkg) (i : Nat) (x : PortSt) : (setPort p i x).spills = p.spills := rfl
@[simp] theorem setPort_standalone (p : Pkg) (i : Nat) (x : PortSt) : (setPort p i x).standalone = p.standalone := rfl
@[simp] theorem setPort_regs (p : Pkg) (i : Nat) (x : PortSt) : (setPort p i x).regs = p.regs := rfl
@[simp] theorem setPort_queues (p : Pkg) (i : Nat) (x : PortSt) : (setPort p i x).queues = p.queues := rfl
@[simp] theorem setPort_paths (p : Pkg) (i : Nat) (x : PortSt) : (setPort p i x).paths = p.paths := rfl
@[simp] theorem setPort_pace (p : Pkg) (i : Nat) (x : PortSt) : (setPort p i x).pace = p.pace := rfl
@[simp] theorem setPort_fuse (p : Pkg) (i : Nat) (x : PortSt) : (setPort p i x).fuse = p.fuse := rfl
@[simp] theorem setPort_pwr (p : Pkg) (i : Nat) (x : PortSt) : (setPort p i x).pwr = p.pwr := rfl
@[simp] theorem setPort_boot (p : Pkg) (i : Nat) (x : PortSt) : (setPort p i x).boot = p.boot := rfl
@[simp] theorem setPort_seq (p : Pkg) (i : Nat) (x : PortSt) : (setPort p i x).seq = p.seq := rfl
@[simp] theorem setPort_fault (p : Pkg) (i : Nat) (x : PortSt) : (setPort p i x).fault = p.fault := rfl
@[simp] theorem setPort_traces (p : Pkg) (i : Nat) (x : PortSt) : (setPort p i x).traces = p.traces := rfl
@[simp] theorem setPort_tapIr (p : Pkg) (i : Nat) (x : PortSt) : (setPort p i x).tapIr = p.tapIr := rfl
@[simp] theorem setPort_ces (p : Pkg) (i : Nat) (x : PortSt) : (setPort p i x).ces = p.ces := rfl
@[simp] theorem setPort_qm (p : Pkg) (i : Nat) (x : PortSt) : (setPort p i x).qm = p.qm := rfl
@[simp] theorem setPort_xl (p : Pkg) (i : Nat) (x : PortSt) : (setPort p i x).xl = p.xl := rfl
@[simp] theorem setPort_home (p : Pkg) (i : Nat) (x : PortSt) : (setPort p i x).home = p.home := rfl
@[simp] theorem setPort_memc (p : Pkg) (i : Nat) (x : PortSt) : (setPort p i x).memc = p.memc := rfl
@[simp] theorem setPort_harts (p : Pkg) (i : Nat) (x : PortSt) : (setPort p i x).harts = p.harts := rfl
@[simp] theorem setPort_aplic (p : Pkg) (i : Nat) (x : PortSt) : (setPort p i x).aplic = p.aplic := rfl
@[simp] theorem setPort_hl (p : Pkg) (i : Nat) (x : PortSt) : (setPort p i x).hl = p.hl := rfl
@[simp] theorem setPort_int (p : Pkg) (i : Nat) (x : PortSt) : (setPort p i x).int = p.int := rfl
@[simp] theorem setPort_ops (p : Pkg) (i : Nat) (x : PortSt) : (setPort p i x).ops = p.ops := rfl
@[simp] theorem setPort_out (p : Pkg) (i : Nat) (x : PortSt) : (setPort p i x).out = p.out := rfl
@[simp] theorem setPort_free (p : Pkg) (i : Nat) (x : PortSt) : (setPort p i x).free = p.free := rfl

@[simp] theorem port_setPort_self (p : Pkg) (i : Nat) (x : PortSt) : port (setPort p i x) i = x := SMap.get_set_self _ _ _ _
theorem port_setPort_ne (p : Pkg) {i j : Nat} (x : PortSt) (h' : j ≠ i) : port (setPort p i x) j = port p j :=
  SMap.get_set_ne _ _ _ h'

end Sys2Proof.Machine
end

