-- ==== Sys2Proof/Laws/Ops.lean ====
section
/-! SUPPORT. What the shared operations do to registers, and what of the package they can change at all. -/

namespace Sys2Proof.Machine

/-! ## Fields of words -/

theorem withBits_toNat {w : Nat} (x : BitVec w) (hi lo v : Nat) :
    (withBits x hi lo v).toNat =
      (x.toNat - (x.toNat >>> lo) % 2 ^ (hi + 1 - lo) * 2 ^ lo + v % 2 ^ (hi + 1 - lo) * 2 ^ lo) % 2 ^ w := by
  simp [withBits, BitVec.toNat_ofNat]

/-- Division and remainder of a number whose field [lo, lo + n) is replaced. -/
theorem field_replace (x v n lo : Nat) :
    x - x / 2 ^ lo % 2 ^ n * 2 ^ lo + v % 2 ^ n * 2 ^ lo =
      x % 2 ^ lo + v % 2 ^ n * 2 ^ lo + x / 2 ^ (lo + n) * 2 ^ (lo + n) := by
  have h1 : x = x % 2 ^ lo + 2 ^ lo * (x / 2 ^ lo) := (Nat.mod_add_div x (2 ^ lo)).symm
  have h2 : x / 2 ^ lo = x / 2 ^ lo % 2 ^ n + 2 ^ n * (x / 2 ^ lo / 2 ^ n) := (Nat.mod_add_div _ _).symm
  have h3 : x / 2 ^ lo / 2 ^ n = x / 2 ^ (lo + n) := by rw [Nat.div_div_eq_div_mul, ← pow_add]
  rw [h3] at h2
  have h4 : x = x % 2 ^ lo + x / 2 ^ lo % 2 ^ n * 2 ^ lo + x / 2 ^ (lo + n) * 2 ^ (lo + n) := by
    calc x = x % 2 ^ lo + 2 ^ lo * (x / 2 ^ lo) := h1
      _ = x % 2 ^ lo + 2 ^ lo * (x / 2 ^ lo % 2 ^ n + 2 ^ n * (x / 2 ^ (lo + n))) := by rw [← h2]
      _ = _ := by rw [pow_add]; ring
  omega

/-- The field of a word that was replaced reads the new value's low bits. -/
theorem bitsOf_withBits {w : Nat} (x : BitVec w) (hi lo v : Nat) (h : hi < w) (hl : lo ≤ hi) :
    bitsOf (withBits x hi lo v) hi lo = v % 2 ^ (hi + 1 - lo) := by
  have hw : lo + (hi + 1 - lo) ≤ w := by omega
  simp only [bitsOf, withBits_toNat, Nat.shiftRight_eq_div_pow]
  rw [field_replace]
  generalize hn : hi + 1 - lo = n at *
  have hx : x.toNat < 2 ^ w := x.isLt
  have hlt : x.toNat % 2 ^ lo + v % 2 ^ n * 2 ^ lo < 2 ^ (lo + n) := by
    have h1 : x.toNat % 2 ^ lo < 2 ^ lo := Nat.mod_lt _ (by positivity)
    have h2 : v % 2 ^ n + 1 ≤ 2 ^ n := Nat.mod_lt _ (by positivity)
    calc x.toNat % 2 ^ lo + v % 2 ^ n * 2 ^ lo < 2 ^ lo + v % 2 ^ n * 2 ^ lo := by omega
      _ = (v % 2 ^ n + 1) * 2 ^ lo := by ring
      _ ≤ 2 ^ n * 2 ^ lo := Nat.mul_le_mul_right _ h2
      _ = 2 ^ (lo + n) := by rw [pow_add]; ring
  have hd : (x.toNat % 2 ^ lo + v % 2 ^ n * 2 ^ lo + x.toNat / 2 ^ (lo + n) * 2 ^ (lo + n)) < 2 ^ w := by
    have h3 : x.toNat / 2 ^ (lo + n) + 1 ≤ 2 ^ (w - (lo + n)) := by
      have : x.toNat / 2 ^ (lo + n) < 2 ^ (w - (lo + n)) := by
        rw [Nat.div_lt_iff_lt_mul (by positivity), ← pow_add]
        rwa [Nat.sub_add_cancel hw]
      omega
    calc _ < 2 ^ (lo + n) + x.toNat / 2 ^ (lo + n) * 2 ^ (lo + n) := by omega
      _ = (x.toNat / 2 ^ (lo + n) + 1) * 2 ^ (lo + n) := by ring
      _ ≤ 2 ^ (w - (lo + n)) * 2 ^ (lo + n) := Nat.mul_le_mul_right _ h3
      _ = 2 ^ w := by rw [← pow_add, Nat.sub_add_cancel hw]
  rw [Nat.mod_eq_of_lt hd, aux hlt]
where
  aux {a m n lo k : Nat} (h : a % 2 ^ lo + m % 2 ^ n * 2 ^ lo < 2 ^ (lo + n)) :
      (a % 2 ^ lo + m % 2 ^ n * 2 ^ lo + k * 2 ^ (lo + n)) / 2 ^ lo % 2 ^ n = m % 2 ^ n := by
    have h1 : a % 2 ^ lo + m % 2 ^ n * 2 ^ lo + k * 2 ^ (lo + n) = a % 2 ^ lo + 2 ^ lo * (m % 2 ^ n + k * 2 ^ n) := by
      rw [pow_add]; ring
    rw [h1, Nat.add_mul_div_left _ _ (by positivity), Nat.div_eq_of_lt (Nat.mod_lt _ (by positivity)), Nat.zero_add,
      Nat.add_mul_mod_self_right, Nat.mod_mod]

/-- A field above or below the one that was replaced keeps its value. -/
theorem bitsOf_withBits_ne {w : Nat} (x : BitVec w) (hi lo v a b : Nat) (_ : hi < w) (hl : lo ≤ hi) (hab : b ≤ a)
    (hd : a < lo ∨ hi < b) : bitsOf (withBits x hi lo v) a b = bitsOf x a b := by
  have key : ∀ i, i < lo ∨ hi < i → (withBits x hi lo v).toNat.testBit i = x.toNat.testBit i := by
    intro i hi'
    simp only [withBits_toNat, Nat.shiftRight_eq_div_pow]
    rw [field_replace]
    rw [Nat.testBit_mod_two_pow]
    by_cases hiw : i < w
    · simp only [hiw, decide_true, Bool.true_and]
      have e : x.toNat % 2 ^ lo + v % 2 ^ (hi + 1 - lo) * 2 ^ lo + x.toNat / 2 ^ (lo + (hi + 1 - lo)) * 2 ^ (lo + (hi + 1 - lo))
          = 2 ^ lo * (2 ^ (hi + 1 - lo) * (x.toNat / 2 ^ (hi + 1)) + v % 2 ^ (hi + 1 - lo)) + x.toNat % 2 ^ lo := by
        have : lo + (hi + 1 - lo) = hi + 1 := by omega
        rw [this]
        have h2 : (2 : Nat) ^ (hi + 1) = 2 ^ lo * 2 ^ (hi + 1 - lo) := by rw [← pow_add, this]
        calc _ = x.toNat % 2 ^ lo + v % 2 ^ (hi + 1 - lo) * 2 ^ lo + x.toNat / 2 ^ (hi + 1) * (2 ^ lo * 2 ^ (hi + 1 - lo)) := by
              rw [← h2]
          _ = _ := by ring
      rw [e, Nat.testBit_two_pow_mul_add _ (Nat.mod_lt _ (by positivity))]
      by_cases h3 : i < lo
      · simp [h3, Nat.testBit_mod_two_pow]
      · have h4 : hi < i := by omega
        simp only [h3, if_false]
        rw [Nat.testBit_two_pow_mul_add _ (Nat.mod_lt _ (by positivity))]
        have h5 : ¬ i - lo < hi + 1 - lo := by omega
        simp only [h5, if_false]
        rw [Nat.testBit_div_two_pow]
        congr 1
        omega
    · have : x.toNat.testBit i = false :=
        Nat.testBit_lt_two_pow (Nat.lt_of_lt_of_le x.isLt (Nat.pow_le_pow_right (by decide) (by omega)))
      simp [hiw, this]
  apply Nat.eq_of_testBit_eq
  intro i
  simp only [bitsOf, Nat.testBit_mod_two_pow, Nat.testBit_shiftRight]
  by_cases hi' : i < a + 1 - b
  · rw [key (b + i) (by omega)]
  · simp [hi']

theorem bitOf_eq_bitsOf {w : Nat} (x : BitVec w) (n : Nat) : bitOf x n = (bitsOf x n n == 1) := by
  have : n + 1 - n = 1 := by omega
  simp [bitOf, bitsOf, this]

theorem bitOf_withBits {w : Nat} (x : BitVec w) (n : Nat) (b : Bool) (h : n < w) :
    bitOf (withBits x n n (bitNat b)) n = b := by
  rw [bitOf_eq_bitsOf, bitsOf_withBits x n n _ h (Nat.le_refl n)]
  have : n + 1 - n = 1 := by omega
  cases b <;> simp [bitNat, this]

/-! ## Registers -/

theorem reg_setReg_self (p : Pkg) (k : Nat) (v : W64) : reg (setReg p k v) k = v := SMap.get_set_self _ _ _ _

theorem reg_setReg_ne (p : Pkg) {k j : Nat} (v : W64) (h : j ≠ k) : reg (setReg p k v) j = reg p j :=
  SMap.get_set_ne _ _ _ h

theorem fld_setFld_self (p : Pkg) (k hi lo v : Nat) (h : hi < 64) (hl : lo ≤ hi) :
    fld (setFld p k hi lo v) k hi lo = v % 2 ^ (hi + 1 - lo) := by
  unfold fld setFld
  rw [reg_setReg_self]
  exact bitsOf_withBits _ _ _ _ h hl

theorem fld_setFld_beside (p : Pkg) (k hi lo v a b : Nat) (h : hi < 64) (hl : lo ≤ hi) (hab : b ≤ a)
    (hd : a < lo ∨ hi < b) : fld (setFld p k hi lo v) k a b = fld p k a b := by
  unfold fld setFld
  rw [reg_setReg_self]
  exact bitsOf_withBits_ne _ _ _ _ _ _ h hl hab hd

theorem reg_setFld_ne (p : Pkg) {k j : Nat} (hi lo v : Nat) (h : j ≠ k) : reg (setFld p k hi lo v) j = reg p j :=
  reg_setReg_ne _ _ h

theorem fld_setFld_ne (p : Pkg) {k j : Nat} (hi lo v a b : Nat) (h : j ≠ k) :
    fld (setFld p k hi lo v) j a b = fld p j a b := by
  unfold fld
  rw [reg_setFld_ne p hi lo v h]

theorem bit_setBit_self (p : Pkg) (k n : Nat) (b : Bool) (h : n < 64) : bit (setBit p k n b) k n = b := by
  unfold bit setBit setFld
  rw [reg_setReg_self]
  exact bitOf_withBits _ _ _ h

theorem bit_setBit_ne (p : Pkg) {k j : Nat} (n m : Nat) (b : Bool) (h : j ≠ k) : bit (setBit p k n b) j m = bit p j m := by
  unfold bit setBit
  rw [reg_setFld_ne p _ _ _ h]

theorem bit_setFld_beside (p : Pkg) (k hi lo v n : Nat) (h : hi < 64) (hl : lo ≤ hi) (hd : n < lo ∨ hi < n) :
    bit (setFld p k hi lo v) k n = bit p k n := by
  have := fld_setFld_beside p k hi lo v n n h hl (Nat.le_refl n) hd
  unfold bit
  rw [bitOf_eq_bitsOf, bitOf_eq_bitsOf]
  unfold fld at this
  rw [this]

theorem bit_setBit_beside (p : Pkg) (k n m : Nat) (b : Bool) (h : n < 64) (hd : m ≠ n) :
    bit (setBit p k n b) k m = bit p k m :=
  bit_setFld_beside p k n n _ m h (Nat.le_refl n) (by omega)

/-! ## What an operation can change at all: everything beside the fields named is as before -/

/-- Only registers, messages, interrupt files and MSI-X pending bits change. -/
def OnlyInt (p q : Pkg) : Prop :=
  ∃ r o i, q = { p with regs := r, out := o, int := i }

/-- Only registers, queues, messages, interrupt bits and the error handling change. -/
def OnlyLog (p q : Pkg) : Prop :=
  ∃ r u f o i, q = { p with regs := r, queues := u, fault := f, out := o, int := i }

theorem OnlyInt.refl (p : Pkg) : OnlyInt p p := ⟨_, _, _, rfl⟩
theorem OnlyLog.refl (p : Pkg) : OnlyLog p p := ⟨_, _, _, _, _, rfl⟩

theorem OnlyInt.trans {p q r : Pkg} (h : OnlyInt p q) (g : OnlyInt q r) : OnlyInt p r := by
  obtain ⟨a, b, c, rfl⟩ := h
  obtain ⟨a', b', c', rfl⟩ := g
  exact ⟨a', b', c', rfl⟩

theorem OnlyLog.trans {p q r : Pkg} (h : OnlyLog p q) (g : OnlyLog q r) : OnlyLog p r := by
  obtain ⟨a, b, c, d, e, rfl⟩ := h
  obtain ⟨a', b', c', d', e', rfl⟩ := g
  exact ⟨a', b', c', d', e', rfl⟩

theorem OnlyInt.log {p q : Pkg} (h : OnlyInt p q) : OnlyLog p q := by
  obtain ⟨a, b, c, rfl⟩ := h
  exact ⟨a, p.queues, p.fault, b, c, rfl⟩

theorem setReg_only (p : Pkg) (k : Nat) (v : W64) : OnlyInt p (setReg p k v) := ⟨_, _, _, rfl⟩
theorem setFld_only (p : Pkg) (k hi lo v : Nat) : OnlyInt p (setFld p k hi lo v) := ⟨_, _, _, rfl⟩
theorem setBit_only (p : Pkg) (k n : Nat) (b : Bool) : OnlyInt p (setBit p k n b) := ⟨_, _, _, rfl⟩
theorem bumpFld_only (p : Pkg) (k hi lo : Nat) : OnlyInt p (bumpFld p k hi lo) := ⟨_, _, _, rfl⟩
theorem bumpReg_only (p : Pkg) (k n top : Nat) : OnlyInt p (bumpReg p k n top) := ⟨_, _, _, rfl⟩
theorem addReg_only (p : Pkg) (k n : Nat) : OnlyInt p (addReg p k n) := ⟨_, _, _, rfl⟩
theorem emitMsg_only (p : Pkg) (m : OutMsg) : OnlyInt p (emitMsg p m) := ⟨_, _, _, rfl⟩

theorem deliver_only (p : Pkg) (pg : Nat) (route : W64) : OnlyInt p (deliver p pg route) := by
  unfold deliver
  split
  · exact emitMsg_only _ _
  · exact ⟨_, _, _, rfl⟩
  · unfold sendMsix
    split
    · exact ⟨_, _, _, rfl⟩
    · exact emitMsg_only _ _
  · exact OnlyInt.refl p

theorem setInt_only (p : Pkg) (pg : Nat) (pend en : W64) : OnlyInt p (setInt p pg pend en) := by
  unfold setInt
  dsimp only
  split
  · exact ((setReg_only _ _ _).trans (setReg_only _ _ _)).trans (deliver_only _ _ _)
  · exact (setReg_only _ _ _).trans (setReg_only _ _ _)

theorem raise_only (p : Pkg) (pg : Nat) (bits : W64) : OnlyInt p (raise p pg bits) := setInt_only _ _ _ _
theorem raiseBlock_only (p : Pkg) (pg n : Nat) : OnlyInt p (raiseBlock p pg n) := setInt_only _ _ _ _

theorem waypoint_only (p : Pkg) (pg event sub arg : Nat) : OnlyLog p (waypoint p pg event sub arg) :=
  ⟨p.regs, _, p.fault, p.out, p.int, rfl⟩

theorem setReady_only (p : Pkg) (pg : Nat) (b : Bool) : OnlyLog p (setReady p pg b) := by
  unfold setReady
  split
  · exact OnlyLog.refl p
  · dsimp only
    have h := ((setBit_only p (key (firstPage pg) 8) 0 b).trans (raise_only _ (firstPage pg) 4)).log.trans
      (waypoint_only _ pg 0x01 0 (bitNat b))
    split
    · exact h.trans (raiseBlock_only _ _ _).log
    · exact h

theorem setOwner_only (p : Pkg) (pg o : Nat) : OnlyLog p (setOwner p pg o) := by
  unfold setOwner
  dsimp only
  split
  · exact OnlyLog.refl p
  · exact ((setFld_only _ _ _ _ _).trans (raise_only _ _ _)).log.trans (waypoint_only _ _ _ _ _)

theorem pushRecord_only (p : Pkg) (pg sev : Nat) (ws : List W64) : OnlyLog p (pushRecord p pg sev ws) := by
  unfold pushRecord
  generalize (if sev = 3 then 32 else 31) = cap
  dsimp only
  split
  · exact ⟨p.regs, _, p.fault, p.out, p.int, rfl⟩
  · exact ⟨_, _, p.fault, p.out, p.int, rfl⟩

theorem countUnit_only (pg : Nat) (p : Pkg) (x : Nat × Nat × Nat) : OnlyLog p (countUnit pg p x) := by
  unfold countUnit
  dsimp only
  split
  · exact OnlyLog.trans ⟨p.regs, p.queues, _, p.out, p.int, rfl⟩ (raise_only _ _ _).log
  · exact ⟨p.regs, p.queues, _, p.out, p.int, rfl⟩

/-- A fold of operations that each change only these changes only these. -/
theorem foldl_onlyLog {α : Type} (f : Pkg → α → Pkg) (hf : ∀ p a, OnlyLog p (f p a)) (l : List α) (p : Pkg) :
    OnlyLog p (l.foldl f p) := by
  induction l generalizing p with
  | nil => exact OnlyLog.refl p
  | cons a t ih => exact (hf p a).trans (ih (f p a))

theorem countWindow_only (p : Pkg) (pg : Nat) (e : ErrArgs) : OnlyLog p (countWindow p pg e) := by
  unfold countWindow
  dsimp only
  refine OnlyLog.trans ?_ (foldl_onlyLog (countUnit pg) (countUnit_only pg) _ _)
  split
  · exact ((bumpFld_only _ _ _ _).trans (raise_only _ _ _)).log
  · exact (bumpFld_only _ _ _ _).log

/-- An error record changes nothing but registers, queues, messages, interrupt bits and window counts. -/
theorem logErrAt_only (p : Pkg) (pg : Nat) (e : ErrArgs) (d : Nat) : OnlyLog p (logErrAt p pg e d) := by
  unfold logErrAt
  have h1 : OnlyLog p (if (codeRow e.code).2 then countWindow p pg e else p) := by
    split
    · exact countWindow_only _ _ _
    · exact OnlyLog.refl p
  dsimp only
  generalize (if (codeRow e.code).2 = true then countWindow p pg e else p) = p1 at *
  have h2 (n : Nat) (ws : List W64) : OnlyLog p (setBit (pushRecord p1 pg n ws) (key pg 0x10) n true) :=
    (h1.trans (pushRecord_only _ _ _ _)).trans (setBit_only _ _ _ _).log
  refine OnlyLog.trans ?_ (waypoint_only _ _ _ _ _)
  split
  · exact h2 _ _
  · exact (h2 _ _).trans (raise_only _ _ _).log

theorem logErr_only (p : Pkg) (pg : Nat) (e : ErrArgs) : OnlyLog p (logErr p pg e) := logErrAt_only _ _ _ _

theorem logForeign_only (p : Pkg) (rq : Requester) (pg off : Nat) : OnlyLog p (logForeign p rq pg off) := by
  unfold logForeign
  dsimp only
  split
  · exact (bumpFld_only _ _ _ _).log
  · split
    · exact (((bumpFld_only _ _ _ _).trans (setBit_only _ _ _ _)).log.trans (pushRecord_only _ _ _ _)).trans
        ((setBit_only _ _ _ _).log.trans (waypoint_only _ _ _ _ _))
    · exact ((bumpFld_only _ _ _ _).trans (setBit_only _ _ _ _)).log.trans (logErr_only _ _ _)

/-! ## Which registers they change -/

/-- A register reads from the registers, the personality and the fuses alone. -/
theorem reg_congr {p q : Pkg} (hr : q.regs = p.regs) (hs : q.standalone = p.standalone) (hf : q.fuse = p.fuse) (k : Nat) :
    reg q k = reg p k := by
  unfold reg regReset isFusedSpare fusedActive fusedSpare
  rw [hr, hs, hf]

theorem fld_congr {p q : Pkg} {k : Nat} (h : reg q k = reg p k) (hi lo : Nat) : fld q k hi lo = fld p k hi lo := by
  unfold fld; rw [h]

theorem bit_congr {p q : Pkg} {k : Nat} (h : reg q k = reg p k) (n : Nat) : bit q k n = bit p k n := by
  unfold bit; rw [h]

theorem deliver_reg (p : Pkg) (pg : Nat) (route : W64) (k : Nat) : reg (deliver p pg route) k = reg p k := by
  unfold deliver
  split
  · rfl
  · exact reg_congr rfl rfl rfl k
  · unfold sendMsix
    split
    · exact reg_congr rfl rfl rfl k
    · rfl
  · rfl

theorem setInt_reg (p : Pkg) (pg : Nat) (pend en : W64) {k : Nat} (h1 : k ≠ key pg 0x20) (h2 : k ≠ key pg 0x24) :
    reg (setInt p pg pend en) k = reg p k := by
  unfold setInt
  dsimp only
  split
  · rw [deliver_reg, reg_setReg_ne _ _ h2, reg_setReg_ne _ _ h1]
  · rw [reg_setReg_ne _ _ h2, reg_setReg_ne _ _ h1]

theorem raise_reg (p : Pkg) (pg : Nat) (bits : W64) {k : Nat} (h1 : k ≠ key pg 0x20) (h2 : k ≠ key pg 0x24) :
    reg (raise p pg bits) k = reg p k := setInt_reg _ _ _ _ h1 h2

theorem raiseBlock_reg (p : Pkg) (pg n : Nat) {k : Nat} (h1 : k ≠ key pg 0x20) (h2 : k ≠ key pg 0x24) :
    reg (raiseBlock p pg n) k = reg p k := setInt_reg _ _ _ _ h1 h2

theorem waypoint_reg (p : Pkg) (pg event sub arg k : Nat) : reg (waypoint p pg event sub arg) k = reg p k :=
  reg_congr rfl rfl rfl k

theorem pushRecord_reg (p : Pkg) (pg sev : Nat) (ws : List W64) {k : Nat} (h : k ≠ key pg 0x10) :
    reg (pushRecord p pg sev ws) k = reg p k := by
  unfold pushRecord
  generalize (if sev = 3 then 32 else 31) = cap
  dsimp only
  split
  · exact reg_congr rfl rfl rfl k
  · unfold setBit bumpFld
    rw [reg_setFld_ne _ _ _ _ h, reg_setFld_ne _ _ _ _ h]
    exact reg_congr rfl rfl rfl k

theorem countUnit_reg (pg : Nat) (p : Pkg) (x : Nat × Nat × Nat) {k : Nat} (h1 : k ≠ key pg 0x20) (h2 : k ≠ key pg 0x24) :
    reg (countUnit pg p x) k = reg p k := by
  unfold countUnit
  dsimp only
  split
  · rw [raise_reg _ _ _ h1 h2]; exact reg_congr rfl rfl rfl k
  · exact reg_congr rfl rfl rfl k

theorem countWindow_reg (p : Pkg) (pg : Nat) (e : ErrArgs) {k : Nat} (h1 : k ≠ key pg 0x20) (h2 : k ≠ key pg 0x24)
    (h3 : k ≠ key pg 0x2C) : reg (countWindow p pg e) k = reg p k := by
  have hf : ∀ (l : List (Nat × Nat × Nat)) (q : Pkg), reg (l.foldl (countUnit pg) q) k = reg q k := by
    intro l
    induction l with
    | nil => intro q; rfl
    | cons a t ih => intro q; rw [List.foldl_cons, ih, countUnit_reg _ _ _ h1 h2]
  unfold countWindow
  dsimp only
  rw [hf]
  split
  · rw [raise_reg _ _ _ h1 h2]; exact reg_setFld_ne _ _ _ _ h3
  · exact reg_setFld_ne _ _ _ _ h3

/-- An error record changes no register of any page but ERR_SUMMARY, INT_PENDING, INT_ENABLE and EVENT_WINDOW_COUNT of
its own. -/
theorem logErrAt_reg (p : Pkg) (pg : Nat) (e : ErrArgs) (d : Nat) {k : Nat} (h0 : k ≠ key pg 0x10) (h1 : k ≠ key pg 0x20)
    (h2 : k ≠ key pg 0x24) (h3 : k ≠ key pg 0x2C) : reg (logErrAt p pg e d) k = reg p k := by
  unfold logErrAt
  have e1 : reg (if (codeRow e.code).2 then countWindow p pg e else p) k = reg p k := by
    split
    · exact countWindow_reg _ _ _ h1 h2 h3
    · rfl
  dsimp only
  generalize (if (codeRow e.code).2 = true then countWindow p pg e else p) = p1 at *
  have e2 (n : Nat) (ws : List W64) : reg (setBit (pushRecord p1 pg n ws) (key pg 0x10) n true) k = reg p k := by
    unfold setBit
    rw [reg_setFld_ne _ _ _ _ h0, pushRecord_reg _ _ _ _ h0, e1]
  rw [waypoint_reg]
  split
  · exact e2 _ _
  · rw [raise_reg _ _ _ h1 h2]; exact e2 _ _

theorem logErr_reg (p : Pkg) (pg : Nat) (e : ErrArgs) {k : Nat} (h0 : k ≠ key pg 0x10) (h1 : k ≠ key pg 0x20)
    (h2 : k ≠ key pg 0x24) (h3 : k ≠ key pg 0x2C) : reg (logErr p pg e) k = reg p k := logErrAt_reg _ _ _ _ h0 h1 h2 h3

/-- READY changes PAGE_STATE of the block, and the interrupt registers of the block and of the surveyor. -/
theorem setReady_reg (p : Pkg) (pg : Nat) (b : Bool) {k : Nat} (h0 : k ≠ key (firstPage pg) 8)
    (h1 : k ≠ key (firstPage pg) 0x20) (h2 : k ≠ key (firstPage pg) 0x24) (h3 : k ≠ key pgSv 0x20) (h4 : k ≠ key pgSv 0x24) :
    reg (setReady p pg b) k = reg p k := by
  unfold setReady
  split
  · rfl
  · dsimp only
    have e1 : reg (waypoint (raise (setBit p (key (firstPage pg) 8) 0 b) (firstPage pg) 4) pg 0x01 0 (bitNat b)) k =
        reg p k := by
      rw [waypoint_reg, raise_reg _ _ _ h1 h2]
      exact reg_setFld_ne _ _ _ _ h0
    split
    · rw [raiseBlock_reg _ _ _ h3 h4]; exact e1
    · exact e1

/-- READY reads the value set. -/
theorem ready_setReady (p : Pkg) (pg : Nat) (b : Bool) :
    ready (setReady p pg b) pg = b := by
  unfold setReady
  split
  · assumption
  · dsimp only
    have e1 : ready (waypoint (raise (setBit p (key (firstPage pg) 8) 0 b) (firstPage pg) 4) pg 0x01 0 (bitNat b)) pg = b := by
      unfold ready
      rw [bit_congr (waypoint_reg _ _ _ _ _ _), bit_congr (raise_reg _ _ _ (by unfold key; omega) (by unfold key; omega))]
      exact bit_setBit_self _ _ _ _ (by decide)
    split
    · unfold ready at *
      rw [bit_congr (raiseBlock_reg _ _ _ (by unfold key; omega) (by unfold key; omega))]
      exact e1
    · exact e1

/-! ## Register writes (R127 to R131, R148, R154) -/

/-- An accepted write applies its effect. -/
theorem ifWrites_accepted {p : Pkg} {rq : Requester} {pg off : Nat} (f : Pkg → Pkg)
    (h : writeFate p rq pg off = .accepted) : ifWrites p rq pg off f = f p := by
  simp [ifWrites, h]

/-- A write that is not accepted changes nothing but what a foreign write logs. -/
theorem ifWrites_not_accepted {p : Pkg} {rq : Requester} {pg off : Nat} (f : Pkg → Pkg)
    (h : writeFate p rq pg off ≠ .accepted) : OnlyLog p (ifWrites p rq pg off f) := by
  unfold ifWrites
  split
  · exact OnlyLog.refl p
  · exact logForeign_only _ _ _ _
  · exact OnlyLog.refl p
  · rename_i he; exact absurd he h

end Sys2Proof.Machine
end

