-- ==== Sys2Proof/Safety.lean ====
section
/-! DEFINITION. What claims about runs of the block are stated with: which commands can store to memory at all, and the form
that every run keeps. -/

namespace Sys2Proof.Machine

/-- Commands of which it is stated that they never change a byte of memory, its poison or its fences. -/
def storesNothing (c : Instr) : Bool :=
  match c with
  | .outputPacketCommit .. | .spillWrite .. | .registerWrite .. | .foldBoundary .. | .descriptorFetch ..
  | .commandTranslate .. | .completionWrite .. | .moveSwitch .. | .semSignal .. | .coreStore ..
  | .storeBufferDrain .. | .coreLoad .. | .cboZero .. | .corePrefetch .. | .rdShared .. | .rdOwn .. | .upgrade .. | .rdCur ..
  | .coreAmo .. | .fence .. | .fenceTso .. | .cboClean .. | .cboFlush .. | .cboInval ..
  | .partitionChangeDone .. | .add64 .. | .set64 .. | .radd .. | .ddrTrainingDone .. | .hartHeld .. | .commit ..
  | .atom .. | .birsp .. | .hostSnoopTimeout .. | .hostMemWrite .. | .hostPacketCommit .. | .meridianDown ..
  | .bridgeDown .. | .bridgeLaneSpare .. | .xlFaultResume .. | .reportRecord .. | .windowNoAnswer .. | .bar0Access ..
  | .insetMoveDone | .inboundRequest .. | .inboundMsi .. | .proiladWr .. | .proiladWr8 .. | .proiladAtom ..
  | .rdata .. | .wrack .. | .colHead .. | .svcWr .. | .colStepSend .. | .thermalTrip .. | .coolantLoss | .errorLog ..
  | .channelSpare .. | .channelFence .. | .replicaRepair .. | .replicaCopyArrived .. | .coldPowerUp ..
  | .powerLoss .. | .railLoss .. | .sequencerStep .. | .descendingStep | .traceRecordWrite .. => false
  | .datumTick | .railVoltageChange .. | .floorHalt .. | .floorResume .. | .fixedPaceWrite .. | .fixedPaceSettled
  | .paceStatusRefresh .. | .refclkLost | .refclkRestored | .syncExchange | .syncReq .. | .syncRsp .. | .syncTimeout
  | .dtSet .. | .dtControlWrite .. | .capture .. | .lowHalfRead .. | .latchRelease .. | .itemSend .. | .itemRemove ..
  | .creditUpdateSend .. | .creditUpdateRepeat .. | .creditUpdate .. | .queueArbitration .. | .packetCommit ..
  | .packetRewind .. | .queuePop .. | .softwarePush .. | .queuePush .. | .spillControlWrite .. | .spillRefill ..
  | .claim .. | .release .. | .handover .. | .resetUnit .. | .quiesce .. | .enable .. | .blockDrained ..
  | .eventWindowWrite .. | .limitSlotWrite .. | .fbRequest .. | .fbRequestDone .. | .agDescriptor .. | .muNop ..
  | .load .. | .store .. | .loadExact .. | .storeExact .. | .prefetch .. | .vuNop .. | .vuAdd .. | .vuSub ..
  | .vuMul .. | .vuFma .. | .vuFms .. | .vuMin .. | .vuMax .. | .vuAbs .. | .vuNeg .. | .vuRcp .. | .vuRsqrt ..
  | .vuSqrt .. | .vuExp2 .. | .vuLog2 .. | .vuTanh .. | .vuSigmoid .. | .vuGelu .. | .vuSilu .. | .vuSinpi ..
  | .vuCospi .. | .vuLdexp .. | .vuCmplt .. | .vuCmple .. | .vuCmpeq .. | .vuSel .. | .vuCvtBf16 .. | .vuCvtFp16 ..
  | .vuCvtFp8 .. | .vuCvtFp4 .. | .vuCvtInt8 .. | .vuCvtI2f .. | .vuCvtF2i .. | .vuWiden .. | .vuMxscale ..
  | .vuRsum .. | .vuRmax .. | .vuRmin .. | .vuMov .. | .vuBcast .. | .vuShuf .. | .vuPack .. | .vuUnpack ..
  | .vuIadd .. | .vuImul .. | .vuAnd .. | .vuOr .. | .vuXor .. | .vuShl .. | .vuShr .. | .sqNop .. | .sqEnd ..
  | .sqPhase .. | .sqLoop .. | .sqFold .. | .loadBarrier .. | .storeBarrier .. | .fullBarrier .. | .waitIdle ..
  | .octetNop .. | .octetFormat .. | .project .. | .loadSr .. | .pass .. | .octetMask .. | .drainIntervalExpiry ..
  | .feedStallStop .. | .feedRestart .. | .roundEnd .. | .lsNop .. | .outfmt .. | .emit .. | .accept .. | .lsClear ..
  | .lsAuto .. | .ceAbort .. | .internalAbort .. | .chartParamWrite .. | .chartImageArrived .. | .doorbell ..
  | .commandDispatch | .preempt .. | .commandResume .. | .bulkAgeExpiry .. | .ringAbort .. | .ringRestart ..
  | .ringConfigWrite .. | .cqHeadWrite .. | .cmdNop .. | .chartLoad .. | .run .. | .moveTileCopy ..
  | .moveTileMove .. | .reduce .. | .allReduce .. | .reduceScatter .. | .semWait .. | .semWaitSatisfied ..
  | .semPoll .. | .barrier .. | .remoteFence .. | .invalidateL1 .. | .fenceI .. | .sfenceVma ..
  | .lineReturn .. | .l1Invalidate .. | .slmPinClear .. | .partitionWrite ..
  | .watch .. | .hbmRequestServe .. | .refresh .. | .refreshRateChange .. | .epochEnd .. | .hold .. | .start ..
  | .ccMsgSend .. | .ccMsgSendM .. | .aplicAccess .. | .wrBack ..
  | .wrLine .. | .snpShare .. | .snpInv .. | .snpClean .. | .lrSnoopDelayExpiry ..
  | .filterEvictionRecall .. | .bisnpInv .. | .bisnpData .. | .hostMemRead .. | .hostSnoop .. | .atsCompletion ..
  | .priResponse .. | .atsInvalidate .. | .invalidateCompletion .. | .xlInvGo .. | .xlInvDone | .xlCtxConfigWrite ..
  | .xlCtsControlWrite .. | .windowEntryWrite .. | .landingCheck .. | .linkTraining .. | .linkRetrain ..
  | .configRequest .. | .msixVectorUnmask .. | .hdmCommit .. | .insetMove .. | .flr | .ltrMessage | .perst ..
  | .cfgRead .. | .cfgWrite .. | .rpMmioRead .. | .rpMmioWrite .. | .rpMmioTimeout | .cfgRetryTimeout
  | .intxMessage .. | .spdmGetVersion | .spdmGetCapabilities | .spdmNegotiateAlgorithms .. | .spdmGetDigests
  | .spdmGetCertificate .. | .spdmChallenge .. | .spdmGetMeasurements .. | .spdmKeyExchange .. | .spdmFinish ..
  | .spdmKeyUpdate .. | .spdmHeartbeat .. | .spdmEndSession .. | .ideKm .. | .ideCheck .. | .portTraining ..
  | .flitReceive .. | .nakReplay .. | .replayTimeout .. | .ackSend .. | .proiladCreditUpdate .. | .laneLockLoss ..
  | .laneDrop .. | .laneAdd .. | .laneRelock .. | .linkDown .. | .flitSilence .. | .portUnusable ..
  | .routeMessage .. | .proiladRd .. | .portButtonPress .. | .drain .. | .portDrained .. | .drainTimeout ..
  | .drainCancel .. | .plControlDrain .. | .plControlCancel .. | .plControlDisable .. | .cableRemoved ..
  | .cableInserted .. | .bearingWrite .. | .nodeIdWrite .. | .groupEntryWrite .. | .ringPhaseEnd ..
  | .ringPhaseTimeout .. | .voltageWrite .. | .railTelemetry .. | .powerMeasure .. | .modelCalibrate
  | .budgetRecompute .. | .thermalThrottle .. | .hbmThrottle .. | .thermalTripClear .. | .flowRise
  | .pwrSafeHoldResume .. | .resumeComplete | .contourClear .. | .setPersonality .. | .setPowerCap ..
  | .setPaceCeiling .. | .setThermalLimit .. | .lowerPowerCeiling .. | .setFixedPace .. | .safeHoldResume ..
  | .contourControl .. | .unknownMailboxCommand .. | .windowEnd .. | .hubWatchdog .. | .ceLost ..
  | .surveyComplete .. | .replicaCommit .. | .stage .. | .stageDone .. | .activate .. | .newImageHealthy
  | .fwRollback | .pkgOnRise | .pkgOnFall | .flashRequest | .flashRelease | .stallBegin .. | .stallEnd ..
  | .traceEnable .. | .trBufferWrite .. | .trConsumedWrite .. | .tapBypass .. | .tapIdcode .. | .tapSamplePreload ..
  | .tapExtest .. | .tapClamp .. | .tapHighz .. | .tapWrapper .. | .tapHbmWsp .. | .sgpioFrame .. | .sgpioFault
  | .pkgButtonPress | .read32 .. | .read64 .. | .status | .seqRequest .. | .flrComplete | .hbmTrainingDone ..
  | .drainFlitRepeat .. | .drainCancelFlit .. | .drainRefusedFlashEnd .. | .i3cBroadcast | .hdmUncommit | .wfi .. => true

/-- The one CE that a command of a chart's units, of its L1 or of its chart store acts on. -/
def engineOf (c : Instr) : Option Nat :=
  match c with
  | .vuNop i | .vuAdd i | .vuSub i | .vuMul i | .vuFma i | .vuFms i | .vuMin i | .vuMax i | .vuAbs i | .vuNeg i
  | .vuRcp i | .vuRsqrt i | .vuSqrt i | .vuExp2 i | .vuLog2 i | .vuTanh i | .vuSigmoid i | .vuGelu i | .vuSilu i
  | .vuSinpi i | .vuCospi i | .vuLdexp i | .vuCmplt i | .vuCmple i | .vuCmpeq i | .vuSel i | .vuCvtBf16 i
  | .vuCvtFp16 i | .vuCvtFp8 i | .vuCvtFp4 i | .vuCvtInt8 i | .vuCvtI2f i | .vuCvtF2i i | .vuWiden i | .vuMxscale i
  | .vuRsum i | .vuRmax i | .vuRmin i | .vuMov i | .vuBcast i | .vuShuf i | .vuPack i | .vuUnpack i | .vuIadd i
  | .vuImul i | .vuAnd i | .vuOr i | .vuXor i | .vuShl i | .vuShr i => some i.ce
  | .muNop d | .load d | .store d | .loadExact d | .storeExact d | .prefetch d => some d.ce
  | .agDescriptor d => some d.ce
  | .sqNop n | .sqPhase n _ | .sqLoop n _ _ | .loadBarrier n | .storeBarrier n | .fullBarrier n | .waitIdle n
  | .octetNop n _ | .octetFormat n _ _ _ _ _ _ | .project n _ | .loadSr n _ _ | .pass n _ _ _ _ _ _ | .octetMask n _ _
  | .drainIntervalExpiry n _ | .feedStallStop n _ | .feedRestart n _ | .roundEnd n | .lsNop n | .outfmt n _ _ _ _
  | .emit n _ _ _ _ _ | .accept n _ _ _ | .lsClear n _ _ | .lsAuto n _ _ _ | .lineReturn n _ => some n
  | _ => none

/-- A state whose memory is in its canonical form. -/
def Sound (s : State) : Prop := s.mem.wf = true

/-! ## Vector instructions -/

/-- What a vector instruction left: its destination register, or the item it offered last on its output's first route. -/
def vuLeft (s t : State) (i : VuArgs) : Item :=
  if i.dst = 14 then
    match sinksOf (ceChart s.pkg i.ce) (ce s.pkg i.ce).phase (0x40 + i.vu) with
    | r :: _ => (routeItems (ce t.pkg i.ce) r.sink).getLastD 0
    | [] => 0
  else SMap.get (vu (ce t.pkg i.ce) i.vu).regs i.dst 0

/-- Lane l of the sources a, b and c that an instruction of opcode `op` sees (R185). -/
def srcA (s : State) (op : Nat) (i : VuArgs) (l : Nat) : W32 := (vuInputs s.pkg op i).a.getD l 0
def srcB (s : State) (op : Nat) (i : VuArgs) (l : Nat) : W32 := (vuInputs s.pkg op i).b.getD l 0
def srcC (s : State) (op : Nat) (i : VuArgs) (l : Nat) : W32 := (vuInputs s.pkg op i).c.getD l 0

/-- Unit `index` of type `typ` of CE n is done with the `words` code words it stood at in s: in t it stands at the next one,
at the start of its next pass, or at the end of its code (R206). -/
def MovedOn (s t : State) (n typ index words : Nat) : Prop :=
  ∀ u, findUnit (ceChart s.pkg n) typ index = some u →
    unitAt (ce t.pkg n) typ index =
      unitNext u (unitRepeats (ceChart s.pkg n) (ceCmd s.pkg n) u) words (unitAt (ce s.pkg n) typ index)

/-- Every sink that a source of CE n feeds in s holds `x` as its newest item in t (R175). -/
def Offered (s t : State) (n source : Nat) (x : Item) : Prop :=
  ∀ r ∈ sinksOf (ceChart s.pkg n) (ce s.pkg n).phase source, (routeItems (ce t.pkg n) r.sink).getLast? = some x

/-- The step from s to t is a vector instruction of opcode `op` whose result has `f l` in lane l: every lane of its destination,
no other vector register and no other CE changed, 16 lane results counted (R700), memory as it was, the unit at its next
word. -/
def VuLanes (op : Nat) (s t : State) (i : VuArgs) (f : Nat → W32) : Prop :=
  t.mem = s.mem ∧ (∀ l, l < 16 → lane (vuLeft s t i) l = f l) ∧
  (∀ d, d < 12 → d ≠ i.dst → SMap.get (vu (ce t.pkg i.ce) i.vu).regs d 0 = SMap.get (vu (ce s.pkg i.ce) i.vu).regs d 0) ∧
  (∀ n, n ≠ i.ce → ce t.pkg n = ce s.pkg n) ∧
  (∀ k, reg t.pkg k = if k = key (pgCe i.ce) (vuCounter op) then reg s.pkg k + 16 else reg s.pkg k) ∧
  MovedOn s t i.ce 2 i.vu 1

/-- Whenever the vector instruction `c`, of opcode `op`, is ready (R185), `exec` answers a next state in which its result has
`f s i l` in lane l and nothing else changed but what `VuLanes` names. -/
def VuGives (op : Nat) (c : VuArgs → Instr) (f : State → VuArgs → Nat → W32) : Prop :=
  ∀ (s : State) (i : VuArgs), vuReady s.pkg op i = true →
    ∃ t, exec (c i) s = Host.Outcome.next t ∧ VuLanes op s t i (f s i)

/-- A lane of an operation on one or two sources that is `g` on INT32 (FMT 2) and `f` on FP32, or on the BF16 values of the
lanes' upper halves with its result rounded to BF16 (FMT 1, R187). -/
def lane1 (op : Nat) (f g : W32 → W32) (s : State) (i : VuArgs) (l : Nat) : W32 :=
  let a := srcA s op i l
  if i.fmt = 2 then g a else bfOut i.fmt (f (bfIn i.fmt a))

def lane2 (op : Nat) (f g : W32 → W32 → W32) (s : State) (i : VuArgs) (l : Nat) : W32 :=
  let a := srcA s op i l
  let b := srcB s op i l
  if i.fmt = 2 then g a b else bfOut i.fmt (f (bfIn i.fmt a) (bfIn i.fmt b))

/-- A lane of a comparison: all ones where it holds, zero elsewhere. -/
def laneIf (op : Nat) (f g : W32 → W32 → Bool) (s : State) (i : VuArgs) (l : Nat) : W32 :=
  let a := srcA s op i l
  let b := srcB s op i l
  if (if i.fmt = 2 then g a b else f (bfIn i.fmt a) (bfIn i.fmt b)) = true then 0xFFFFFFFF else 0

/-- An FP32 lane converted to a narrow format by R261 with the rounding of IMM [1:0], at its element's place in the command. -/
def laneCvt (op : Nat) (fmt : VuArgs → Nat) (s : State) (i : VuArgs) (l : Nat) : W32 :=
  BitVec.ofNat 32 (convert (fmtOf (fmt i)) (dec32 (srcA s op i l)) (-149) (i.imm % 4) false
    (genSeed (ceCmd s.pkg i.ce)) (16 * (vu (ce s.pkg i.ce) i.vu).outCount + l))

end Sys2Proof.Machine
end

