-- ==== Sys2Proof/WellFormed.lean ====
section
/-! DEFINITION. Well-formed commands: every operand that names a unit names one that the package has (spec/01, spec/04 R125).
A command is total on the others too: its meaning leaves the state as it was, or acts as its rule says. -/

namespace Sys2Proof

/-- A CE number 256 × sheet + 25 × quadrangle + position (R292). -/
def isCe (n : Nat) : Bool := decide (n / 256 < 4) && decide (n % 256 < 200)
def isHart (n : Nat) : Bool := decide (n < 48)
/-- A page of the control aperture's 64 MiB. -/
def isPage (n : Nat) : Bool := decide (n < 16384)
def isCtx (n : Nat) : Bool := decide (n < 16)
def isRing (n : Nat) : Bool := decide (n < 64)
def isPort (n : Nat) : Bool := decide (n < 6)
def isSheet (n : Nat) : Bool := decide (n < 4)
def isStack (n : Nat) : Bool := decide (n < 8)
/-- An HBM stack 0 to 7, or a DDR channel 8 to 15. -/
def isController (n : Nat) : Bool := decide (n < 16)
/-- A block with access counters: the eight HBM stacks and the host link (R407). -/
def isCounterBlock (n : Nat) : Bool := decide (n < 9)
def isChannel (n : Nat) : Bool := decide (n < 32)
def isCluster (n : Nat) : Bool := decide (n < 12)
def isQuad (n : Nat) : Bool := decide (n < 32)
def isSlice (n : Nat) : Bool := decide (n < 256)
def isTrace (n : Nat) : Bool := decide (n < 5)
def isMover (n : Nat) : Bool := decide (n < 4)
def isVu (n : Nat) : Bool := decide (n < 16)
def isSu (n : Nat) : Bool := decide (n < 12)
def isOctet (n : Nat) : Bool := decide (n < 8)
/-- A rail, or its die: sheets 0 to 3, the processor die 4. -/
def isRail (n : Nat) : Bool := decide (n < 5)
def isTapDie (n : Nat) : Bool := decide (n < 6)
def isLimit (n : Nat) : Bool := decide (n < 3)
/-- The width of a register access in bytes (R127). -/
def isWidth (n : Nat) : Bool := n == 4 || n == 8
/-- Lanes of the host link in use: 1 to 16 (Table 15-8). -/
def isLanes (n : Nat) : Bool := decide (1 ≤ n ∧ n ≤ 16)
/-- An output or input port of the long store (Table 5-1). -/
def isStorePort (n : Nat) : Bool := decide (n < 4)
def isDir (n : Nat) : Bool := decide (n < 2)
/-- A port lane: eight and a spare. -/
def isLane (n : Nat) : Bool := decide (n < 9)
/-- A bridge lane: 64 and two spares (R639). -/
def isBridgeLane (n : Nat) : Bool := decide (n < 66)
/-- The fields of a message head fit Table 16-4. -/
def isMsg (m : Msg) : Bool :=
  decide (m.op < 16) && decide (m.dest < 16384) && decide (m.src < 16384) && decide (m.hops < 256) && decide (m.offset < 2 ^ 36)

/-- Every operand that names a unit names one of the package. -/
def Instr.wf (i : Instr) : Bool :=
  match i with
  | .datumTick | .fixedPaceWrite _ _ | .fixedPaceSettled | .refclkLost | .refclkRestored | .syncExchange
  | .syncTimeout | .dtControlWrite _ _ | .capture _ _ | .lowHalfRead _ _ | .latchRelease _ | .itemSend _ _ _ _
  | .itemRemove _ | .creditUpdateSend _ | .creditUpdateRepeat _ | .creditUpdate _ _ _ | .queueArbitration _ _ _
  | .packetCommit _ _ | .packetRewind _ | .softwarePush _ _ _ | .queuePush _ _ | .fbRequest _ _ _ | .fbRequestDone _
  | .commandTranslate _ | .commandDispatch | .preempt _ | .commandResume _ | .completionWrite _ | .cmdNop _
  | .chartLoad _ | .run _ | .moveTileCopy _ | .moveTileMove _ | .moveSwitch _ | .reduce _ | .allReduce _
  | .reduceScatter _ | .semSignal _ | .semWait _ | .semWaitSatisfied _ | .semPoll _ | .barrier _ | .remoteFence _
  | .invalidateL1 _ | .add64 _ _ | .set64 _ _ | .watch _ _ | .radd _ _ | .ddrTrainingDone _ | .aplicAccess _ _ _
  | .rdCur _ | .atom _ _ _ | .filterEvictionRecall _ | .bisnpInv _ | .bisnpData _ | .birsp _ _ | .hostSnoopTimeout _
  | .hostMemRead _ _ | .hostMemWrite _ _ _ | .hostSnoop _ | .meridianDown _ | .atsInvalidate _ _ _ _
  | .invalidateCompletion _ | .xlInvGo _ _ | .xlInvDone | .xlFaultResume _ _ | .xlCtsControlWrite _ _
  | .windowEntryWrite _ _ _ _ _ | .reportRecord _ _ _ _ _ | .windowNoAnswer _ | .configRequest _ _ _
  | .bar0Access _ _ _ _ | .msixVectorUnmask _ | .hdmCommit _ _ | .insetMove _ _ | .insetMoveDone | .flr | .ltrMessage
  | .perst _ | .cfgRead _ _ _ | .cfgWrite _ _ | .rpMmioTimeout | .cfgRetryTimeout | .inboundRequest _ _ _ _
  | .inboundMsi _ _ _ | .intxMessage _ _ | .spdmGetVersion | .spdmGetCapabilities | .spdmNegotiateAlgorithms _
  | .spdmGetDigests | .spdmGetCertificate _ | .spdmChallenge _ | .spdmGetMeasurements _ | .spdmKeyExchange _
  | .spdmFinish _ _ | .spdmKeyUpdate _ | .spdmHeartbeat _ | .spdmEndSession _ | .ideKm _ _ _ | .ideCheck _ _
  | .bearingWrite _ _ | .nodeIdWrite _ _ | .groupEntryWrite _ _ _ _ | .colStepSend _ | .ringPhaseEnd _
  | .ringPhaseTimeout _ | .powerMeasure _ _ | .modelCalibrate | .budgetRecompute _ _ _ _ | .thermalTrip _
  | .thermalTripClear _ | .coolantLoss | .flowRise | .pwrSafeHoldResume _ _ | .resumeComplete | .contourClear _ _
  | .replicaRepair _ | .replicaCopyArrived _ _ _ | .stage _ _ _ | .stageDone _ | .activate _ _ | .newImageHealthy
  | .fwRollback | .coldPowerUp _ _ | .powerLoss _ | .railLoss _ | .pkgOnRise | .pkgOnFall | .sequencerStep _
  | .descendingStep | .flashRequest | .flashRelease | .sgpioFrame _ | .sgpioFault | .pkgButtonPress | .read32 _
  | .read64 _ | .status | .seqRequest _ | .flrComplete | .i3cBroadcast | .hdmUncommit => true
  | .railVoltageChange rail _ _ | .voltageWrite rail | .railTelemetry rail _ _ _ _ => isRail rail
  | .floorHalt sheet | .floorResume sheet | .replicaCommit _ sheet _ => isSheet sheet
  | .paceStatusRefresh die _ _ _ _ | .thermalThrottle die _ => isRail die
  | .syncReq port _ _ _ | .syncRsp port _ _ _ _ _ | .portTraining port _ _ _ _ _ _ _ _ | .flitReceive port _ _
  | .nakReplay port _ | .replayTimeout port | .ackSend port | .proiladCreditUpdate port _ _ | .linkDown port _
  | .flitSilence port | .portUnusable port | .portButtonPress port | .drain port | .portDrained port
  | .drainTimeout port | .drainCancel port | .plControlDrain _ port _ | .plControlCancel _ port _
  | .plControlDisable _ port _ | .cableRemoved port | .cableInserted port | .drainFlitRepeat port
  | .drainCancelFlit port | .drainRefusedFlashEnd port => isPort port
  | .linkTraining _ _ lanes | .linkRetrain lanes _ => isLanes lanes
  | .dtSet _ width _ | .queuePop _ _ width | .registerWrite _ _ width _ | .rpMmioRead _ width _ | .rpMmioWrite _ width _ => isWidth width
  | .commit ce dest => isCe ce && isMover dest.mu
  | .outputPacketCommit ce mu | .wrLine ce mu _ _ _ | .hostPacketCommit ce mu => isCe ce && isMover mu
  | .spillControlWrite _ ctx ring _ | .spillWrite ctx ring | .spillRefill ctx ring | .doorbell _ ctx ring _
  | .descriptorFetch ctx ring | .bulkAgeExpiry ctx ring | .ringAbort _ ctx ring _ | .ringRestart _ ctx ring _
  | .ringConfigWrite _ ctx ring _ | .cqHeadWrite _ ctx ring _ => isCtx ctx && isRing ring
  | .claim _ page _ | .release _ page _ | .handover _ page _ | .resetUnit _ page _ | .quiesce _ page _
  | .enable _ page _ | .blockDrained page | .eventWindowWrite _ page _ | .setPersonality page _ | .setPowerCap page _
  | .setPaceCeiling page _ | .setThermalLimit page _ | .lowerPowerCeiling page _ | .setFixedPace page _
  | .safeHoldResume page _ | .contourControl page _ | .unknownMailboxCommand page _ _ | .errorLog page _
  | .windowEnd page | .surveyComplete page _ => isPage page
  | .limitSlotWrite _ limit _ _ => isLimit limit
  | .agDescriptor d => isCe d.ce && isSu d.su
  | .muNop d | .load d | .store d | .loadExact d | .storeExact d | .prefetch d => isCe d.ce && isMover d.mu
  | .vuNop i | .vuAdd i | .vuSub i | .vuMul i | .vuFma i | .vuFms i | .vuMin i | .vuMax i | .vuAbs i | .vuNeg i
  | .vuRcp i | .vuRsqrt i | .vuSqrt i | .vuExp2 i | .vuLog2 i | .vuTanh i | .vuSigmoid i | .vuGelu i | .vuSilu i
  | .vuSinpi i | .vuCospi i | .vuLdexp i | .vuCmplt i | .vuCmple i | .vuCmpeq i | .vuSel i | .vuCvtBf16 i
  | .vuCvtFp16 i | .vuCvtFp8 i | .vuCvtFp4 i | .vuCvtInt8 i | .vuCvtI2f i | .vuCvtF2i i | .vuWiden i | .vuMxscale i
  | .vuRsum i | .vuRmax i | .vuRmin i | .vuMov i | .vuBcast i | .vuShuf i | .vuPack i | .vuUnpack i | .vuIadd i
  | .vuImul i | .vuAnd i | .vuOr i | .vuXor i | .vuShl i | .vuShr i => isCe i.ce && isVu i.vu
  | .sqNop ce | .sqEnd ce | .sqPhase ce _ | .sqLoop ce _ _ | .sqFold ce | .loadBarrier ce | .storeBarrier ce
  | .fullBarrier ce | .waitIdle ce | .drainIntervalExpiry ce _ | .roundEnd ce | .foldBoundary ce | .lsNop ce
  | .outfmt ce _ _ _ _ | .lsClear ce _ _ | .ceAbort _ ce _ | .internalAbort ce _ | .chartParamWrite _ ce _ _
  | .chartImageArrived ce _ | .lineReturn ce _ | .l1Invalidate _ ce _ | .hubWatchdog ce | .ceLost ce _ => isCe ce
  | .octetNop ce oct | .octetFormat ce oct _ _ _ _ _ | .project ce oct | .loadSr ce oct _ | .pass ce oct _ _ _ _ _
  | .octetMask ce oct _ | .feedStallStop ce oct | .feedRestart ce oct => isCe ce && isOctet oct
  | .emit ce port _ _ _ _ | .accept ce port _ _ | .lsAuto ce port _ _ => isCe ce && isStorePort port
  | .storeBufferDrain d => isHart d.hart
  | .coreLoad hart .. | .coreStore hart .. | .coreAmo hart ..
  | .fence hart _ _ | .fenceTso hart | .fenceI hart | .sfenceVma hart | .cboClean hart .. | .cboFlush hart ..
  | .cboInval hart .. | .cboZero hart .. | .corePrefetch hart .. | .hartHeld hart | .rdShared hart _ | .rdOwn hart _
  | .upgrade hart _ | .wrBack hart _ | .snpShare hart _ | .snpInv hart _ | .snpClean hart _
  | .lrSnoopDelayExpiry hart | .wfi hart => isHart hart
  | .slmPinClear _ slice _ => isSlice slice
  | .partitionWrite _ quad _ | .partitionChangeDone quad => isQuad quad
  | .hbmRequestServe ctl _ | .refresh ctl _ _ | .refreshRateChange ctl _ => isController ctl
  | .epochEnd block => isCounterBlock block
  | .hold _ cluster _ | .start _ cluster _ | .ccMsgSend _ cluster _ | .ccMsgSendM _ cluster _ => isCluster cluster
  | .bridgeDown _ _ dir => isDir dir
  | .bridgeLaneSpare _ _ dir lane => isDir dir && isBridgeLane lane
  | .atsCompletion ctx _ _ _ _ | .priResponse ctx _ _ | .xlCtxConfigWrite _ ctx _ => isCtx ctx
  | .landingCheck m | .routeMessage _ m | .proiladRd m | .proiladWr m | .proiladWr8 m | .proiladAtom m | .rdata m
  | .wrack m | .colHead m | .svcWr m => isMsg m
  | .laneLockLoss port dir lane | .laneAdd port dir lane | .laneRelock port dir lane => isPort port && isDir dir && isLane lane
  | .laneDrop port lane => isPort port && isLane lane
  | .hbmThrottle stack _ | .hbmTrainingDone stack => isStack stack
  | .channelSpare stack chan | .channelFence stack chan => isStack stack && isChannel chan
  | .stallBegin page _ _ | .stallEnd page _ _ _ _ => isPage page
  | .traceRecordWrite tr | .traceEnable _ tr _ | .trBufferWrite _ tr _ | .trConsumedWrite _ tr _ => isTrace tr
  | .tapBypass die | .tapIdcode die | .tapSamplePreload die | .tapExtest die | .tapClamp die | .tapHighz die
  | .tapWrapper die _ | .tapHbmWsp die => isTapDie die

end Sys2Proof
end

