-- ==== Sys2Proof/Certificates/Slice0/Obligations.lean ====
section
/-! DEFINITION. The statements about the block for the provers. -/

open Sys2Proof Sys2Proof.Machine

/-! ## The machine as a whole -/

/-- A step takes the command at the front of the queue and has that command's effect with the queue's rest. -/
def Obligations.StepTakesTheFrontCommand : Prop :=
  ∀ (c : Instr) (rest : List Instr) (s : State), s.pending = c :: rest →
    step s = exec c { s with pending := rest }

/-- With an empty queue the block idles (the model's choice, log entry 2), and so does the block right after reset.
The canonical form holds right after reset. -/
def Obligations.ResetIdlesWithAnEmptyCanonicalMemory : Prop :=
  ((∀ s : State, s.pending = [] → step s = .next s) ∧ step State.reset = .next State.reset) ∧
  (Sound State.reset ∧ State.reset.mem.cells = [])

/-- Every command, with any operands, in every state, answers a next state, and leaves the waiting commands as they are. -/
def Obligations.EveryCommandAnswersAndKeepsTheQueue : Prop :=
  ∀ (c : Instr) (s : State), ∃ t, exec c s = .next t ∧ t.pending = s.pending

/-- Every step keeps the memory's canonical form: strictly rising addresses, no entry that an unlisted address reads as, and
strictly rising lists of poison and of fenced channels. -/
def Obligations.EveryStepKeepsMemoryCanonical : Prop :=
  ∀ s t : State, Sound s → step s = .next t → Sound t

/-- The frame of memory: the commands that store nothing leave every byte, the poison and the fences as they are. -/
def Obligations.CommandsThatStoreNothingKeepMemory : Prop :=
  ∀ (c : Instr) (s t : State), storesNothing c = true → exec c s = .next t →
    t.mem = s.mem ∧ ∀ a, t.mem.byte a = s.mem.byte a

/-- A command of one compute engine leaves every other engine, the field book and fuses, boot flash and the surveyor's state, the
sequencer and the datum as they are. -/
def Obligations.CommandsOfOneEngineLeaveTheOthers : Prop :=
  ∀ (c : Instr) (n : Nat) (s t : State), engineOf c = some n → exec c s = .next t →
    (∀ m, m ≠ n → ce t.pkg m = ce s.pkg m) ∧ t.pkg.fuse = s.pkg.fuse ∧ t.pkg.boot = s.pkg.boot ∧ t.pkg.seq = s.pkg.seq ∧
    t.pkg.pace = s.pkg.pace

/-! ## Pace and datum (spec/02) -/

/-- R62, R63, R64: a rail stands at its new voltage and its die's natural pace is never below the table's; below 0.58 V a sheet
sets FLOOR_HALT, and every other register keeps its value; 2 µs after its rail came back to 0.60 V it clears it.
R70: a write of PWR_FIXED_PACE with SET outside 100 to 220 is discarded; any other takes effect at once and clears
SETTLED. R71: when rails and gate have reached the newest target, SETTLED rises and the gate stands at SET, or open. R74, R72: a
refresh shows a die's voltage, temperature and mean pace, and SLIP where a settled sheet's mean was below SET. -/
def Obligations.SheetsHaltAtTheFloorAndTakeFixedPaces : Prop :=
  ((∀ (s : State) (rail mv pace : Nat), rail < 5 → ∃ t, exec (.railVoltageChange rail mv pace) s = .next t ∧ t.mem = s.mem ∧
    railOf t.pkg rail = mv ∧ tjOf t.pkg rail = tjOf s.pkg rail ∧
    paceFloor s.pkg rail mv (tjOf s.pkg rail) ≤ SMap.get t.pkg.pwr.natural rail 0 ∧
    (600 ≤ mv → railOf s.pkg rail < 600 → SMap.get t.pkg.pwr.okSince rail 0 = s.pkg.pace.datum + 1) ∧
    (mv < 600 → SMap.get t.pkg.pwr.okSince rail 0 = 0) ∧ t.pkg.regs = s.pkg.regs) ∧
  (∀ (s : State) (n : Nat), n < 4 → railOf s.pkg n < 580 → halted s.pkg n = false → ∃ t, exec (.floorHalt n) s = .next t ∧
    halted t.pkg n = true ∧ SMap.get t.pkg.pwr.haltSince n 0 = s.pkg.pace.datum ∧ t.mem = s.mem ∧
    ∀ k, k ≠ key pgPwr (0x210 + 4 * n) → reg t.pkg k = reg s.pkg k) ∧
  (∀ (s : State) (n : Nat), n < 4 → halted s.pkg n = true → 0 < SMap.get s.pkg.pwr.okSince n 0 →
    SMap.get s.pkg.pwr.okSince n 0 - 1 + 2000 ≤ s.pkg.pace.datum → ∃ t, exec (.floorResume n) s = .next t ∧
    halted t.pkg n = false ∧ t.mem = s.mem)) ∧
  ((∀ (s : State) (rq : Requester) (v : W32), writeFate s.pkg rq pgPwr 0x200 = .accepted →
    (bitsOf (v.setWidth 64 : W64) 7 0 < 100 ∨ 220 < bitsOf (v.setWidth 64 : W64) 7 0) →
    exec (.fixedPaceWrite rq v) s = .next s) ∧
  (∀ (s : State) (rq : Requester) (v : W32), writeFate s.pkg rq pgPwr 0x200 = .accepted →
    100 ≤ bitsOf (v.setWidth 64 : W64) 7 0 → bitsOf (v.setWidth 64 : W64) 7 0 ≤ 220 →
    ∃ t, exec (.fixedPaceWrite rq v) s = .next t ∧ t.mem = s.mem ∧ fixedSettled t.pkg = false ∧
      fixedSet t.pkg = bitsOf (v.setWidth 64 : W64) 7 0 ∧ fixedOn t.pkg = bitOf (v.setWidth 64 : W64) 16) ∧
  (∀ s : State, fixedSettled s.pkg = false → s.pkg.pwr.gateClosed = false → (∀ n, n < 4 → railReached s.pkg n = true) →
    ∃ t, exec .fixedPaceSettled s = .next t ∧ t.mem = s.mem ∧ fixedSettled t.pkg = true ∧
      t.pkg.pwr.settledAt = s.pkg.pace.datum ∧ t.pkg.pwr.gateSet = if fixedOn s.pkg then fixedSet s.pkg else 0) ∧
  (∀ (s : State) (die mv tj pace : Nat) (b : Bool) (mean : Nat), die < 5 → mv < 1024 → tj < 256 →
    mean = meanPace (setDie s.pkg die mv tj pace) die →
    ∃ t, exec (.paceStatusRefresh die mv tj pace b) s = .next t ∧ t.mem = s.mem ∧
    tjOf t.pkg die = tj ∧ railOf t.pkg die = mv ∧ fld t.pkg (key pgPwr (0x210 + 4 * die)) 29 20 = mv ∧
    fld t.pkg (key pgPwr (0x210 + 4 * die)) 19 12 = tj ∧ fld t.pkg (key pgPwr (0x210 + 4 * die)) 9 0 = min 1023 mean ∧
    (bit t.pkg (key pgPwr (0x210 + 4 * die)) 30 = true ↔ die < 4 ∧ fixedOn s.pkg = true ∧ fixedSettled s.pkg = true ∧
      s.pkg.pwr.settledAt + 1000 ≤ s.pkg.pace.datum ∧ mean < fixedSet s.pkg)))

/-- R81: REFCLK_LOST is set and cleared. R83, R94: the 1 ms exchange takes the control word; without SYNC_ENABLE the package is no
master and in holdover, and a candidate that knows no lower-ID master becomes master. R573: a SYNC_REQ is answered with its
timestamps. R83, R84: a sync flit that names a master below the known one (the model's criterion, log entry 15) makes the
package follow it, out of holdover. R88: after 10 ms without one a follower is in holdover and not SYNCED.
R82, R85, R91, R92, R94: the datum rises by one a tick; DT_SET moves it to a larger value once, by a single 64-bit write of a
master that was never SYNCED, and is without effect otherwise; CAPTURE copies the datum and the beat counters; a 32-bit read of the
low half latches the high half, which one read returns or 1 µs releases; a cleared SYNC_ENABLE keeps its effect till the next
exchange, and a set one makes a follower that must earn SYNCED anew. -/
def Obligations.TheDatumCountsFollowsAndHoldsOver : Prop :=
  ((∀ s : State, bit s.pkg dtStatus 4 = false → ∃ t, exec .refclkLost s = .next t ∧ bit t.pkg dtStatus 4 = true ∧ t.mem = s.mem) ∧
  (∀ s : State, bit s.pkg dtStatus 4 = true → ∃ t, exec .refclkRestored s = .next t ∧ bit t.pkg dtStatus 4 = false ∧
    t.mem = s.mem) ∧
  (∀ s : State, s.pkg.pace.running = true → fld s.pkg (key pgDt 0x10C) 1 0 < 2 → ∃ t, exec .syncExchange s = .next t ∧
    t.pkg.pace.ctlActive = fld s.pkg (key pgDt 0x10C) 1 0 ∧ bit t.pkg dtStatus 3 = false ∧ bit t.pkg dtStatus 2 = true ∧
    bit t.pkg dtStatus 1 = false) ∧
  (∀ s : State, s.pkg.pace.running = true → fld s.pkg (key pgDt 0x10C) 1 0 = 3 → nodeId s.pkg ≤ s.pkg.pace.masterNode →
    ∃ t, exec .syncExchange s = .next t ∧ t.pkg.pace.ctlActive = 3 ∧ bit t.pkg dtStatus 3 = true ∧
      bit t.pkg dtStatus 2 = false ∧ bit t.pkg dtStatus 1 = false ∧ t.pkg.pace.datum = s.pkg.pace.datum) ∧
  (∀ (s : State) (i : Nat) (f : SyncInfo) (t1 a : Nat), portSync s.pkg i = true → syncOn s.pkg = true →
    ∃ t out, exec (.syncReq i f t1 a) s = .next t ∧ t.pkg.out = .syncRsp i t1 a s.pkg.pace.datum :: out ∧
      (namesMaster s.pkg f = true → staleClaim s.pkg f = false → (dtMaster s.pkg = true → f.masterNode < nodeId s.pkg) →
        f.masterNode < s.pkg.pace.masterNode → t.pkg.pace.masterNode = f.masterNode ∧
        t.pkg.pace.lastSync = s.pkg.pace.datum ∧ bit t.pkg dtStatus 2 = false ∧ bit t.pkg dtStatus 3 = false)) ∧
  (∀ (s : State) (i : Nat) (f : SyncInfo) (a b c d : Nat), portSync s.pkg i = true → syncOn s.pkg = true →
    ∃ t, exec (.syncRsp i f a b c d) s = .next t ∧ s.pkg.pace.datum ≤ t.pkg.pace.datum ∧ t.mem = s.mem ∧
      (namesMaster s.pkg f = true → staleClaim s.pkg f = false → (dtMaster s.pkg = true → f.masterNode < nodeId s.pkg) →
        f.masterNode < s.pkg.pace.masterNode → t.pkg.pace.masterNode = f.masterNode ∧
        t.pkg.pace.lastSync = s.pkg.pace.datum ∧ bit t.pkg dtStatus 2 = false ∧ bit t.pkg dtStatus 3 = false)) ∧
  (∀ s : State, s.pkg.pace.running = true → dtMaster s.pkg = false → s.pkg.pace.lastSync + 10000000 ≤ s.pkg.pace.datum →
    ∃ t, exec .syncTimeout s = .next t ∧ bit t.pkg dtStatus 2 = true ∧ bit t.pkg dtStatus 1 = false ∧
      t.pkg.pace.datum = s.pkg.pace.datum ∧ t.pkg.pace.masterNode = noNode)) ∧
  ((∀ s : State, s.pkg.pace.running = true → ∃ t, exec .datumTick s = .next t ∧
    t.pkg.pace.datum = s.pkg.pace.datum + 1 ∧ t.mem = s.mem) ∧
  (∀ (s : State) (rq : Requester) (v : W64), writeFate s.pkg rq pgDt 0x110 = .accepted → s.pkg.pace.setLocked = false →
    dtMaster s.pkg = true → s.pkg.pace.everSynced = false → s.pkg.pace.datum < v.toNat →
    ∃ t, exec (.dtSet rq 8 v) s = .next t ∧ t.pkg.pace.datum = v.toNat ∧ t.pkg.pace.setLocked = true) ∧
  (∀ (s : State) (rq : Requester) (w : Nat) (v : W64), writeFate s.pkg rq pgDt 0x110 = .accepted →
    (w ≠ 8 ∨ s.pkg.pace.setLocked = true ∨ dtMaster s.pkg = false ∨ s.pkg.pace.everSynced = true ∨
      v.toNat ≤ s.pkg.pace.datum) → exec (.dtSet rq w v) s = .next s) ∧
  (∀ (s : State) (rq : Requester) (v : W32), writeFate s.pkg rq pgDt 0x10C = .accepted →
    (bitOf (v.setWidth 64 : W64) 1 = false → ∃ t, exec (.dtControlWrite rq v) s = .next t ∧
      t.pkg.pace.ctlActive = s.pkg.pace.ctlActive ∧ bit t.pkg (key pgDt 0x10C) 1 = false) ∧
    (bitOf (v.setWidth 64 : W64) 1 = true → bit s.pkg (key pgDt 0x10C) 1 = false →
      ∃ t, exec (.dtControlWrite rq v) s = .next t ∧ syncOn t.pkg = true ∧ bit t.pkg dtStatus 1 = false ∧
        t.pkg.pace.synced1 = false ∧ t.pkg.pace.stepAllowed = true ∧ t.pkg.pace.datum = s.pkg.pace.datum)) ∧
  (∀ (s : State) (rq : Requester) (v : W32), writeFate s.pkg rq pgDt 0x120 = .accepted →
    bitOf (v.setWidth 64 : W64) 0 = true → ∃ t, exec (.capture rq v) s = .next t ∧
      reg t.pkg (key pgDt 0x128) = BitVec.ofNat 64 s.pkg.pace.datum ∧
      ∀ d, d < 5 → reg t.pkg (key pgDt (0x130 + 8 * d)) = BitVec.ofNat 64 (SMap.get s.pkg.pace.beats d 0)) ∧
  (∀ (s : State) (rq : Requester), ∃ t, exec (.lowHalfRead rq (key pgDt 0x100)) s = .next t ∧ t.mem = s.mem ∧
    t.pkg.out = .readData (key pgDt 0x100) (readAt s.pkg (key pgDt 0x100) 4) :: s.pkg.out ∧
    t.pkg.pace.latches = SMap.set s.pkg.pace.latches (key pgDt 0x100) ((readAt s.pkg (key pgDt 0x104) 4).setWidth 32)) ∧
  (∀ (s : State) (rq : Requester) (k : Nat) (x : W32), s.pkg.pace.latches.find? (fun y => y.1 == key pgDt 0x100) = some (k, x) →
    ∃ t, exec (.lowHalfRead rq (key pgDt 0x104)) s = .next t ∧ t.mem = s.mem ∧
      t.pkg.out = .readData (key pgDt 0x104) (x.setWidth 64) :: s.pkg.out ∧
      t.pkg.pace.latches.any (fun y => y.1 == key pgDt 0x100) = false) ∧
  (∀ (s : State) (off : Nat), s.pkg.pace.latches.any (fun x => x.1 == off / 8 * 8) = true →
    SMap.get s.pkg.pace.latchAt (off / 8 * 8) 0 + 1000 ≤ s.pkg.pace.datum → ∃ t, exec (.latchRelease off) s = .next t ∧
    t.pkg.pace.latches.any (fun x => x.1 == off / 8 * 8) = false ∧ t.pkg.regs = s.pkg.regs))

/-! ## Credited paths, queues and spill queues (spec/03) -/

/-- R96, R107: an item goes out while a credit is held and its packet fits the receiver, SENT counts it, and without a credit it waits.
R97: the removal of the oldest item counts in FREED. R99, R100: a receiver that is READY sends FREED plus the depth once that has
changed or was never sent, and repeats it while its sender is short of credits. R98: an update whose check code is good and that
lies within the depth of LIMIT replaces it; one with a bad check code or beyond the depth leaves LIMIT and is counted. R101: a path
toward a retired receiver takes none. R96, R98: a path on which credits held and items under way do not exceed the depth keeps
that by every one of these, so that no push finds the queue full. -/
def Obligations.CreditsLetItemsPassAndReturn : Prop :=
  (∀ (s : State) (n : Nat) (i : Item) (f l : Bool) (x : Path), x = path s.pkg n → x.credits ≠ 0 → x.ended = false →
    f = x.uncommitted.isEmpty → x.uncommitted.length + (if l then 0 else 1) < x.depth →
    ∃ t, exec (.itemSend n i f l) s = .next t ∧ t.mem = s.mem ∧ (path t.pkg n).uncommitted = x.uncommitted ++ [i] ∧
      (path t.pkg n).ended = l ∧ (path t.pkg n).sent = (x.sent + 1) % 65536 ∧ (path t.pkg n).items = x.items ∧
      (path t.pkg n).credits = x.credits - 1) ∧
  (∀ (s : State) (n : Nat) (i : Item) (f l : Bool), (path s.pkg n).credits = 0 → ∃ t, exec (.itemSend n i f l) s = .next t ∧
    path t.pkg n = path s.pkg n) ∧
  (∀ (s : State) (n q : Nat) (i : Item) (rest : List (Nat × Item)), (path s.pkg n).items = (q, i) :: rest →
    ∃ t, exec (.itemRemove n) s = .next t ∧ t.mem = s.mem ∧ (path t.pkg n).items = rest ∧
      (path t.pkg n).freed = ((path s.pkg n).freed + 1) % 65536) ∧
  (∀ (s : State) (n : Nat) (x : Path), x = path s.pkg n → pathReady s.pkg n = true →
    x.announced = false ∨ x.update ≠ x.lastSent → ∃ t, exec (.creditUpdateSend n) s = .next t ∧ t.mem = s.mem ∧
      t.pkg.out = .credit n ((x.freed + x.depth) % 65536) :: s.pkg.out ∧
      (path t.pkg n).announced = true ∧ (path t.pkg n).lastSent = (x.freed + x.depth) % 65536) ∧
  (∀ (s : State) (n : Nat), pathReady s.pkg n = false → exec (.creditUpdateSend n) s = .next s) ∧
  (∀ (s : State) (n : Nat) (x : Path), x = path s.pkg n → x.announced = true → x.update = x.lastSent →
    x.credits < x.depth → ∃ t, exec (.creditUpdateRepeat n) s = .next t ∧ t.mem = s.mem ∧
      t.pkg.out = .credit n ((x.freed + x.depth) % 65536) :: s.pkg.out ∧ path t.pkg n = x) ∧
  (∀ (s : State) (n u : Nat) (x : Path), x = path s.pkg n → u < 65536 →
    (x.retired = false → (u + 65536 - x.limit % 65536) % 65536 ≤ x.depth → ∃ t, exec (.creditUpdate n u true) s = .next t ∧
      t.mem = s.mem ∧ (path t.pkg n).limit = u ∧ (path t.pkg n).discards = x.discards) ∧
    (∀ good, good = false ∨ x.retired = true ∨ x.depth < (u + 65536 - x.limit % 65536) % 65536 →
      ∃ t, exec (.creditUpdate n u good) s = .next t ∧ t.mem = s.mem ∧ (path t.pkg n).limit = x.limit ∧
        (path t.pkg n).discards = x.discards + 1)) ∧
  (∀ (x : Path) (held : Nat), held = x.items.length + x.uncommitted.length → x.depth ≤ 4096 → x.sent < 65536 →
    x.freed < 65536 → x.limit < 65536 → x.sent = (x.freed + held) % 65536 → x.credits + held ≤ x.depth →
    (∀ i f l, (x.send i f l).credits + (x.send i f l).items.length + (x.send i f l).uncommitted.length ≤ x.depth) ∧
    x.remove.credits + x.remove.items.length + x.remove.uncommitted.length ≤ x.depth ∧
    (∀ i, (x.land i).credits + (x.land i).items.length + (x.land i).uncommitted.length ≤ x.depth) ∧
    (x.retired = false → (x.update + 65536 - x.limit) % 65536 ≤ x.depth →
      (x.accept x.update true).credits + held = x.depth))

/-- R105, R107: a packet whose LAST item has been sent becomes visible whole, in order and numbered in order, with a good check code; one
that has not ended stays hidden. R106: a rewound packet, and one with a bad check code, vanishes, and its items' credits return.
R109, R462: an output packet leaves its mover when its predecessor is acknowledged everywhere, none of its lines waits by
back-pressure and its host lines have room; it commits when every receiving block has acknowledged all of it, without a change of memory. -/
def Obligations.PacketsCommitWholeOrVanish : Prop :=
  (∀ (s : State) (n : Nat) (x : Path), x = path s.pkg n → x.ended = true →
    ∃ t, exec (.packetCommit n true) s = .next t ∧ t.mem = s.mem ∧
    (path t.pkg n).items.map (·.2) = x.items.map (·.2) ++ x.uncommitted ∧
    (path t.pkg n).items.map (·.1) =
      x.items.map (·.1) ++ (List.range x.uncommitted.length).map (fun j => if j = 0 then x.nextSeq else (x.nextSeq + j) % 65536) ∧
    (path t.pkg n).uncommitted = [] ∧ (path t.pkg n).ended = false ∧ (path t.pkg n).freed = x.freed) ∧
  (∀ (s : State) (n : Nat), (path s.pkg n).ended = false → ∃ t, exec (.packetCommit n true) s = .next t ∧ t.mem = s.mem ∧
    path t.pkg n = path s.pkg n) ∧
  (∀ (s : State) (n : Nat) (x : Path), x = path s.pkg n → ∃ t, exec (.packetRewind n) s = .next t ∧ t.mem = s.mem ∧
    (path t.pkg n).items = x.items ∧ (path t.pkg n).nextSeq = x.nextSeq ∧ (path t.pkg n).uncommitted = [] ∧
    (path t.pkg n).freed = (x.freed + x.uncommitted.length) % 65536) ∧
  (∀ (s : State) (n : Nat), exec (.packetCommit n false) s = exec (.packetRewind n) s) ∧
  (∀ (s : State) (n mu : Nat) (pk : List PLine) (rest : List (List PLine)), (mover (ce s.pkg n) mu).closed = pk :: rest →
    muPending s.pkg n mu = [] → remotesOf s.pkg (fun r => r == .moverStore n mu) = [] →
    (∀ l ∈ pk, fateFor s.pkg (idCe n) l.pa true ≠ .waits) → hostRoom s.pkg pk = true → ∃ t, exec (.outputPacketCommit n mu) s = .next t ∧
      t.mem = s.mem ∧ (mover (ce t.pkg n) mu).closed = rest) ∧
  (∀ (s : State) (n mu : Nat) (q : Pkg), q = sendPacket n mu s.pkg → packetHeld q n mu = true →
    ∃ t, exec (.outputPacketCommit n mu) s = .next t ∧ t.mem = s.mem ∧
      muPending t.pkg n mu = ((muPending q n mu).filter (fun l => !isWindowLine l)).map (fun l => { l with going := true })) ∧
  (∀ (s : State) (n mu : Nat) (q : Pkg), q = sendPacket n mu s.pkg → packetHeld q n mu = false →
    ∃ t, exec (.outputPacketCommit n mu) s = .next t ∧ t.mem = s.mem ∧ t.pkg = q)

/-- R102, Table 3-1: an arbitration instant serves the pop before the pushes. R103: pushes of one instant are taken in ascending source
port, each with its own number, while a credit is held; a path without a credit takes none. R110, R111, R112, R114: the page's
owner pops the oldest item's word, marked valid; an empty queue answers its not-valid word and a 32-bit read 0, and both keep
everything; a push takes the next sequence number. R104, R115: a full queue drops a software push and counts it, KEEP_OLDEST the new
item, KEEP_NEWEST the oldest one.
R119: an enabling write needs a size of 2^6 to 2^20 items and a populated region. R122: eight tail items go to the region in one write,
at the slots that follow the last one; a refill brings the region's oldest item to the head. R124: the item of a poisoned slot is
discarded. -/
def Obligations.QueuesPopPushDropAndSpill : Prop :=
  ((∀ (s : State) (n port : Nat) (i : Item) (x : Path), isPopKey n = false → x = path s.pkg n → x.items = [] →
    x.uncommitted = [] → 0 < x.depth → x.credits ≠ 0 → ∃ t, exec (.queueArbitration n true [(port, i)]) s = .next t ∧
      t.mem = s.mem ∧ (path t.pkg n).items = [(x.nextSeq, i)] ∧ (path t.pkg n).nextSeq = (x.nextSeq + 1) % 65536 ∧
      (path t.pkg n).sent = (x.sent + 1) % 65536) ∧
  (∀ (s : State) (n a b : Nat) (i j : Item) (x : Path), isPopKey n = false → x = path s.pkg n → a < b → 2 ≤ x.credits →
    x.items.length + x.uncommitted.length + 2 ≤ x.depth → ∃ t, exec (.queueArbitration n false [(b, j), (a, i)]) s = .next t ∧
      t.mem = s.mem ∧ (path t.pkg n).items = x.items ++ [(x.nextSeq, i), ((x.nextSeq + 1) % 65536, j)]) ∧
  (∀ (s : State) (n : Nat) (l : List (Nat × Item)), isPopKey n = false → (path s.pkg n).credits = 0 →
    ∃ t, exec (.queueArbitration n false l) s = .next t ∧ path t.pkg n = path s.pkg n) ∧
  (∀ (s : State) (k port : Nat) (i : Item), isPopKey k = true → (queue s.pkg k).items = [] →
    ∃ t, exec (.queueArbitration k true [(port, i)]) s = .next t ∧ t.mem = s.mem ∧
      t.pkg.out = .readData k (BitVec.ofNat 64 (queue s.pkg k).nextSeq) :: s.pkg.out ∧
      (queue t.pkg k).items.map (·.1) = [(queue s.pkg k).nextSeq]) ∧
  (∀ (s : State) (rq : Requester) (k : Nat), isPopKey k = true → k % 8 = 0 → k % 0x1000 < 0x100 →
    present s.pkg (k / 0x1000) = true → rq.code ≠ 0 → rq.code = owner s.pkg (k / 0x1000) →
    exec (.queuePop rq k 8) s = .next (s.onPkg (fun p =>
      emitMsg (setQueue p k ((queue p k).pop).2) (.readData k ((queue p k).pop).1)))) ∧
  (∀ (q : Queue) (seq : Nat) (w : W64) (t : List (Nat × List W64)), q.items = (seq, [w]) :: t → q.popped = 0 → seq ∉ q.bad →
    bitOf q.pop.1 63 = true ∧ bitOf q.pop.1 62 = true ∧ bitsOf q.pop.1 61 0 = bitsOf w 61 0 ∧ q.pop.2.items = t) ∧
  (∀ (s : State) (rq : Requester) (k w : Nat), isPopKey k = true → k % 8 = 0 → present s.pkg (k / 0x1000) = true → w ≠ 8 →
    ∃ t, exec (.queuePop rq k w) s = .next t ∧ t.pkg.out = .readData k 0 :: s.pkg.out ∧ t.pkg.queues = s.pkg.queues) ∧
  (∀ (s : State) (rq : Requester) (k : Nat), isPopKey k = true → k % 8 = 0 → present s.pkg (k / 0x1000) = true →
    (queue s.pkg k).items = [] → (queue s.pkg k).nextSeq < 65536 → ∃ t, exec (.queuePop rq k 8) s = .next t ∧
      t.pkg.out = .readData k (BitVec.ofNat 64 (queue s.pkg k).nextSeq) :: s.pkg.out ∧ queue t.pkg k = queue s.pkg k) ∧
  (∀ (s : State) (rq : Requester) (k : Nat) (i : Item), isPopKey k = true →
    writeFate s.pkg rq (k / 0x1000) (k % 0x1000) = .accepted →
    (queueCap (k % 0x1000) ≤ (queue s.pkg k).items.length → ∃ t, exec (.softwarePush rq k i) s = .next t ∧
      (queue t.pkg k).items = (queue s.pkg k).items ∧
      (queue t.pkg k).dropped = min 65535 ((queue s.pkg k).dropped + 1)) ∧
    ((queue s.pkg k).items.length < queueCap (k % 0x1000) → ∃ t, exec (.softwarePush rq k i) s = .next t ∧
      (queue t.pkg k).items.map (·.1) = (queue s.pkg k).items.map (·.1) ++ [(queue s.pkg k).nextSeq] ∧
      (queue t.pkg k).nextSeq = ((queue s.pkg k).nextSeq + 1) % 65536)) ∧
  (∀ (s : State) (k : Nat) (ws : List W64) (q : Queue), isPopKey k = true → q = queue s.pkg k →
    (q.items.length < queueCap (k % 0x1000) → ∃ t, exec (.queuePush k ws) s = .next t ∧ t.mem = s.mem ∧
      (queue t.pkg k).items.map (·.1) = q.items.map (·.1) ++ [q.nextSeq] ∧ (queue t.pkg k).nextSeq = (q.nextSeq + 1) % 65536) ∧
    (queueCap (k % 0x1000) ≤ q.items.length → keepNewest (k % 0x1000) = false → ∃ t, exec (.queuePush k ws) s = .next t ∧
      t.mem = s.mem ∧ (queue t.pkg k).items = q.items ∧ (queue t.pkg k).dropped = min 65535 (q.dropped + 1)) ∧
    (queueCap (k % 0x1000) ≤ q.items.length → keepNewest (k % 0x1000) = true → q.popped = 0 →
      ∃ t, exec (.queuePush k ws) s = .next t ∧ t.mem = s.mem ∧
        (queue t.pkg k).items.map (·.1) = (q.items.map (·.1)).tail ++ [q.nextSeq] ∧
        (queue t.pkg k).dropped = min 65535 (q.dropped + 1)))) ∧
  ((∀ (s : State) (rq : Requester) (c r : Nat) (v : W64), c < 16 → r < 64 →
    writeFate s.pkg rq (pgQm + 1 + c) (0x150 + 48 * r) = .accepted → bit s.pkg (spillKey c r) 0 = false → bitOf v 0 = true →
    (bitsOf v 5 1 < 6 ∨ 20 < bitsOf v 5 1 ∨ hbmOrScratch s.pkg (spillBase v) (64 * spillSize v) = false →
      exec (.spillControlWrite rq c r v) s = .next s) ∧
    (6 ≤ bitsOf v 5 1 → bitsOf v 5 1 ≤ 20 → hbmOrScratch s.pkg (spillBase v) (64 * spillSize v) = true →
      (spill s.pkg c r).depth ≤ 32 → ∃ t, exec (.spillControlWrite rq c r v) s = .next t ∧ t.mem = s.mem ∧
        bit t.pkg (spillKey c r) 0 = true ∧ spillBase (reg t.pkg (spillKey c r)) = spillBase v ∧
        spillSize (reg t.pkg (spillKey c r)) = spillSize v)) ∧
  (∀ (s : State) (c r : Nat) (w : W64) (x : Spill), w = reg s.pkg (spillKey c r) → x = spill s.pkg c r → bitOf w 0 = true →
    x.tail.length = 16 → 16 ≤ x.head.length → x.inRegion = 0 → 8 ≤ spillSize w →
    (∀ i, i < 8 → fateLine s.pkg (spillSlot w (x.regionWr + i)) = .served) → ∃ t, exec (.spillWrite c r) s = .next t ∧
      (spill t.pkg c r).tail = x.tail.drop 8 ∧ (spill t.pkg c r).regionWr = x.regionWr + 8 ∧ t.pkg.regs = s.pkg.regs ∧
      t.mem = storeSlots s.pkg s.mem w x.regionWr (x.tail.take 8)) ∧
  (∀ (s : State) (c r id : Nat) (w : W64) (x : Spill), w = reg s.pkg (spillKey c r) → x = spill s.pkg c r → x.head = [] →
    x.inRegion = 1 → x.tail = [] → fateLine s.pkg (spillSlot w x.regionRd) = .served →
    (s.mem.poisoned (spillSlot w x.regionRd) 64 = false → id = itemCmd s.pkg c r (s.mem.line (spillSlot w x.regionRd)) →
      hasCmd s.pkg id = true → (cmd s.pkg id).phase = .waiting → (cmd s.pkg id).requeued = false →
      ∃ t, exec (.spillRefill c r) s = .next t ∧ t.mem = s.mem ∧ (spill t.pkg c r).inRegion = 0 ∧
        (spill t.pkg c r).head = [(x.firstSeq, s.mem.line (spillSlot w x.regionRd))]) ∧
    (s.mem.poisoned (spillSlot w x.regionRd) 64 = true → ∃ t, exec (.spillRefill c r) s = .next t ∧ t.mem = s.mem ∧
      (spill t.pkg c r).inRegion = 0 ∧ (spill t.pkg c r).head = [] ∧
      (spill t.pkg c r).firstSeq = (x.firstSeq + 1) % 65536)))

/-! ## Register pages and the field book (spec/04) -/

/-- R149: an accepted write of a common register gives its writable bits the value written and leaves every other register. R37: a
misaligned write or one of another width than 4 or 8 bytes has no effect. R154: a write by another party is counted in
ERR_SUMMARY.FOREIGN_COUNT alone once a record of one stands.
R158: an accepted window takes its value and starts anew; a value that R158 turns away changes nothing. Table 17-1: a limit's slot
takes a value within its limit's range and no other. R165, R166: an accepted field-book request is in progress with FB_RESULT not
done. R167: its end appends the entry, programs the fuses and shows success. R168: a failed write leaves a void entry and the
setting as it was. -/
def Obligations.RegisterWritesAndSettingsReachTheirOwners : Prop :=
  ((∀ (s : State) (rq : Requester) (pg : Nat) (v : W64) (pi : PageInfo) (r : Row), pageInfo pg = some pi → pi.index = 0 →
    regRow (key pg 0x14) = some (r, key pg 0x14) → r.bytes = 4 → writeFate s.pkg rq pg 0x14 = .accepted →
    ∃ t, exec (.registerWrite rq (key pg 0x14) 4 v) s = .next t ∧ t.mem = s.mem ∧
      reg t.pkg (key pg 0x14) = mergeWrite r (reg s.pkg (key pg 0x14)) ((v.setWidth 32).setWidth 64) ∧
      ∀ k, k ≠ key pg 0x14 → reg t.pkg k = reg s.pkg k) ∧
  (∀ (s : State) (rq : Requester) (off w : Nat) (v : W64), (w ≠ 4 ∧ w ≠ 8) ∨ off % w ≠ 0 →
    exec (.registerWrite rq off w v) s = .next s) ∧
  (∀ (s : State) (rq : Requester) (pg : Nat) (v : W64) (pi : PageInfo) (r : Row), pageInfo pg = some pi → pi.index = 0 →
    regRow (key pg 0x14) = some (r, key pg 0x14) → r.bytes = 4 → writeFate s.pkg rq pg 0x14 = .foreign →
    bit s.pkg (key (firstPage pg) 0x10) 8 = true →
    exec (.registerWrite rq (key pg 0x14) 4 v) s = .next (s.onPkg (fun p => bumpFld p (key (firstPage pg) 0x10) 23 16)))) ∧
  ((∀ (s : State) (rq : Requester) (pg : Nat) (v : W32), writeFate s.pkg rq pg 0x2C = .accepted → firstPage pg = pg →
    windowOk (v.setWidth 64) = true → ∃ t, exec (.eventWindowWrite rq pg v) s = .next t ∧ t.mem = s.mem ∧
      fld t.pkg (key pg 0x2C) 23 0 = bitsOf (v.setWidth 64 : W64) 23 0 ∧ fld t.pkg (key pg 0x2C) 31 24 = 0 ∧
      SMap.get t.pkg.fault.windowAt pg 0 = s.pkg.pace.datum ∧ ∀ k, k ≠ key pg 0x2C → reg t.pkg k = reg s.pkg k) ∧
  (∀ (s : State) (rq : Requester) (pg : Nat) (v : W32), writeFate s.pkg rq pg 0x2C = .accepted →
    windowOk (v.setWidth 64) = false → exec (.eventWindowWrite rq pg v) s = .next s) ∧
  (∀ (s : State) (rq : Requester) (limit slot : Nat) (v : W32), limit < 3 → 0 < slot → slot < 4 →
    writeFate s.pkg rq pgPwr (0x240 + 0x20 * limit + 4 * slot) = .accepted →
    (limitValueOk limit (v.toNat % 2 ^ limitBits limit) = true → ∃ t, exec (.limitSlotWrite rq limit slot v) s = .next t ∧
      t.mem = s.mem ∧ reg t.pkg (limitKey limit slot) = BitVec.ofNat 64 (v.toNat % 2 ^ limitBits limit) ∧
      ∀ k, k ≠ limitKey limit slot → reg t.pkg k = reg s.pkg k) ∧
    (limitValueOk limit (v.toNat % 2 ^ limitBits limit) = false → exec (.limitSlotWrite rq limit slot v) s = .next s)) ∧
  (∀ (s : State) (v : W32), writeFate s.pkg .host pgFb 0x108 = .accepted → s.pkg.fuse.requests = [] →
    s.pkg.fuse.serving = false → s.pkg.boot.handover = none → s.pkg.fuse.debugLock = false →
    s.pkg.fuse.entries.length < 256 → v.toNat % 2 = 1 →
    ∃ t, exec (.fbRequest .host (key pgFb 0x108) v) s = .next t ∧ t.mem = s.mem ∧
      t.pkg.fuse.requests = [⟨6, 3, 0, 0, 1, 0⟩] ∧ t.pkg.fuse.serving = true ∧
      bit t.pkg fbResult 31 = false ∧ t.pkg.fuse.debugLock = false) ∧
  (∀ (s : State) (r : FbReq), s.pkg.fuse.requests = [r] → s.pkg.fuse.serving = true → r.setting = 2 → r.mbox = 0 →
    (∃ t, exec (.fbRequestDone true) s = .next t ∧ t.mem = s.mem ∧ t.pkg.fuse.ceiling = r.value ∧ t.pkg.fuse.requests = [] ∧
      t.pkg.fuse.entries = s.pkg.fuse.entries ++ [fbEntryOf s.pkg r false] ∧ bit t.pkg fbResult 31 = true ∧
      bit t.pkg fbResult 30 = true) ∧
    (∃ t, exec (.fbRequestDone false) s = .next t ∧ t.mem = s.mem ∧ t.pkg.fuse.ceiling = s.pkg.fuse.ceiling ∧
      t.pkg.fuse.requests = [] ∧ t.pkg.fuse.entries = s.pkg.fuse.entries ++ [fbEntryOf s.pkg r true] ∧
      bit t.pkg fbResult 31 = true ∧ bit t.pkg fbResult 30 = false ∧ fld t.pkg fbResult 15 0 = 4)))

/-- R150: the surveyor claims any page, the kernel and the host a page that nobody owns, and no other claim changes the owner. R151:
the owner or the surveyor releases a page, or hands it to the surveyor, the kernel or, in the hosted personality, the host. -/
def Obligations.PagesAreClaimedReleasedAndHandedOver : Prop :=
  (∀ (s : State) (rq : Requester) (pg : Nat) (v : W32), present s.pkg pg = true → bitOf (v.setWidth 64 : W64) 3 = true →
    rq.code ≠ owner s.pkg pg → (rq.code = 1 ∨ (owner s.pkg pg = 0 ∧ (rq.code = 2 ∨ rq.code = 3))) →
    ∃ t, exec (.claim rq pg v) s = .next t ∧ owner t.pkg pg = rq.code ∧ t.mem = s.mem) ∧
  (∀ (s : State) (rq : Requester) (pg : Nat) (v : W32), present s.pkg pg = true → bitOf (v.setWidth 64 : W64) 3 = true →
    rq.code ≠ owner s.pkg pg → rq.code ≠ 1 → (owner s.pkg pg ≠ 0 ∨ rq.code = 0) →
    ∃ t, exec (.claim rq pg v) s = .next t ∧ owner t.pkg pg = owner s.pkg pg ∧ t.mem = s.mem) ∧
  (∀ (s : State) (rq : Requester) (pg : Nat) (v : W32), present s.pkg pg = true → bitOf (v.setWidth 64 : W64) 3 = false →
    bitOf (v.setWidth 64 : W64) 4 = true → bitsOf (v.setWidth 64 : W64) 11 8 = 0 → rq.code ≠ 0 →
    (rq.code = owner s.pkg pg ∨ rq.code = 1) → ∃ t, exec (.release rq pg v) s = .next t ∧ owner t.pkg pg = 0 ∧
      t.mem = s.mem) ∧
  (∀ (s : State) (rq : Requester) (pg h : Nat) (v : W32), present s.pkg pg = true → bitOf (v.setWidth 64 : W64) 3 = false →
    bitOf (v.setWidth 64 : W64) 4 = false → bitsOf (v.setWidth 64 : W64) 11 8 = h → 1 ≤ h → h < 4 →
    (h = 3 → s.pkg.standalone = false) → rq.code ≠ 0 → (rq.code = owner s.pkg pg ∨ rq.code = 1) →
    ∃ t, exec (.handover rq pg v) s = .next t ∧ owner t.pkg pg = h ∧ t.mem = s.mem) ∧
  (∀ (s : State) (rq : Requester) (pg : Nat) (v : W32), present s.pkg pg = true → bitOf (v.setWidth 64 : W64) 3 = false →
    bitOf (v.setWidth 64 : W64) 4 = true ∨ bitsOf (v.setWidth 64 : W64) 11 8 ≠ 0 → rq.code ≠ 1 →
    (rq.code = 0 ∨ rq.code ≠ owner s.pkg pg) → (∃ t, exec (.release rq pg v) s = .next t ∧ owner t.pkg pg = owner s.pkg pg) ∧
      (∃ t, exec (.handover rq pg v) s = .next t ∧ owner t.pkg pg = owner s.pkg pg))

/-- R144: the owner's write of a first page sets QUIESCE and ENABLE, and a quiesced block that has drained drops BUSY and keeps READY.
R146: a disabled block that has drained drops BUSY and READY, and ENABLE raises READY again without a survey, outside safe hold
and QUIESCED. R147: RESET_UNIT runs the block's survey, or raises READY where it has none. -/
def Obligations.BlocksQuiesceDisableAndReset : Prop :=
  (∀ (s : State) (rq : Requester) (pg : Nat) (v : W32), present s.pkg pg = true → firstPage pg = pg → rq.code ≠ 0 →
    rq.code = owner s.pkg pg → bitsOf (v.setWidth 64 : W64) 4 2 = 0 → bitsOf (v.setWidth 64 : W64) 11 8 = 0 →
    ∃ t, exec (.quiesce rq pg v) s = .next t ∧ t.mem = s.mem ∧ quiesced t.pkg pg = bitOf (v.setWidth 64 : W64) 1 ∧
      enabled t.pkg pg = bitOf (v.setWidth 64 : W64) 0 ∧ owner t.pkg pg = owner s.pkg pg) ∧
  (∀ (s : State) (rq : Requester) (pg : Nat) (v : W32), present s.pkg pg = true → firstPage pg = pg → rq.code ≠ 0 →
    rq.code = owner s.pkg pg → bitsOf (v.setWidth 64 : W64) 4 0 = 1 → bitsOf (v.setWidth 64 : W64) 11 8 = 0 →
    enabled s.pkg pg = false → SMap.get s.pkg.disabled pg false = true → retired s.pkg pg = false →
    inFault s.pkg pg = false → surveying s.pkg pg = false → heldDown s.pkg pg = false →
    ∃ t, exec (.enable rq pg v) s = .next t ∧ t.mem = s.mem ∧ enabled t.pkg pg = true ∧ ready t.pkg pg = true ∧
      surveying t.pkg pg = false) ∧
  (∀ (s : State) (rq : Requester) (pg : Nat) (v : W32) (pi : PageInfo), present s.pkg pg = true → pageInfo pg = some pi →
    firstPage pg = pg → rq.code ≠ 0 → rq.code = owner s.pkg pg → bitsOf (v.setWidth 64 : W64) 4 2 = 1 →
    bitsOf (v.setWidth 64 : W64) 11 8 = 0 → pi.cls ≠ 1 → pi.cls ≠ 4 → pi.cls ≠ 5 → heldDown s.pkg pg = false →
    ∃ t, exec (.resetUnit rq pg v) s = .next t ∧ t.mem = s.mem ∧
      (if hasSurvey pi.cls = true then surveying t.pkg pg = true ∧ ready t.pkg pg = false else ready t.pkg pg = true)) ∧
  (∀ (s : State) (pg : Nat), present s.pkg pg = true → firstPage pg = pg → quiesced s.pkg pg = true →
    enabled s.pkg pg = true → idle s.pkg pg = true → ∃ t, exec (.blockDrained pg) s = .next t ∧ t.mem = s.mem ∧
      busyBit t.pkg pg = false ∧ ready t.pkg pg = ready s.pkg pg) ∧
  (∀ (s : State) (pg : Nat), present s.pkg pg = true → firstPage pg = pg → enabled s.pkg pg = false →
    idle s.pkg pg = true → ∃ t, exec (.blockDrained pg) s = .next t ∧ t.mem = s.mem ∧ busyBit t.pkg pg = false ∧
      ready t.pkg pg = false)

/-! ## Vector units (spec/05 R184 to R190, Table 5-6) -/

/-- R185, R186, R187: the arithmetic of a vector unit. FP32 is IEEE 754, BF16 is computed as FP32 and rounded, INT32 wraps.
R187, Table 5-6: INT32 sums and products wrap, logic is bit by bit, shifts take IMM [4:0] and IMM bit 5 makes a right
shift arithmetic; a NOP changes no vector register and only moves on. -/
def Obligations.VectorArithmeticAndIntegerOpsWriteTheirLanes : Prop :=
  (VuGives 0x01 .vuAdd (lane2 0x01 fAdd (· + ·)) ∧ VuGives 0x02 .vuSub (lane2 0x02 fSub (· - ·)) ∧
  VuGives 0x03 .vuMul (lane2 0x03 fMul (· * ·)) ∧
  VuGives 0x04 .vuFma (fun s i l => bfOut i.fmt
    (fFma (bfIn i.fmt (srcA s 0x04 i l)) (bfIn i.fmt (srcB s 0x04 i l)) (bfIn i.fmt (srcC s 0x04 i l)))) ∧
  VuGives 0x05 .vuFms (fun s i l => bfOut i.fmt
    (fFms (bfIn i.fmt (srcA s 0x05 i l)) (bfIn i.fmt (srcB s 0x05 i l)) (bfIn i.fmt (srcC s 0x05 i l)))) ∧
  VuGives 0x06 .vuMin (lane2 0x06 fMin (fun a b => if a.toInt ≤ b.toInt then a else b)) ∧
  VuGives 0x07 .vuMax (lane2 0x07 fMax (fun a b => if a.toInt ≤ b.toInt then b else a)) ∧
  VuGives 0x08 .vuAbs (lane1 0x08 fAbs (fun a => if a.toInt < 0 then 0 - a else a)) ∧
  VuGives 0x09 .vuNeg (lane1 0x09 fNeg (fun a => 0 - a))) ∧
  (VuGives 0x38 .vuIadd (fun s i l => srcA s 0x38 i l + srcB s 0x38 i l) ∧
  VuGives 0x39 .vuImul (fun s i l => srcA s 0x39 i l * srcB s 0x39 i l) ∧
  VuGives 0x3A .vuAnd (fun s i l => srcA s 0x3A i l &&& srcB s 0x3A i l) ∧
  VuGives 0x3B .vuOr (fun s i l => srcA s 0x3B i l ||| srcB s 0x3B i l) ∧
  VuGives 0x3C .vuXor (fun s i l => srcA s 0x3C i l ^^^ srcB s 0x3C i l) ∧
  VuGives 0x3D .vuShl (fun s i l => srcA s 0x3D i l <<< (i.imm % 32)) ∧
  VuGives 0x3E .vuShr (fun s i l => if i.imm / 32 % 2 = 1 then (srcA s 0x3E i l).sshiftRight (i.imm % 32)
    else srcA s 0x3E i l >>> (i.imm % 32)) ∧
  (∀ (s : State) (i : VuArgs), vuReady s.pkg 0x00 i = true → ∃ t, exec (.vuNop i) s = .next t ∧ t.mem = s.mem ∧
    t.pkg.regs = s.pkg.regs ∧ MovedOn s t i.ce 2 i.vu 1 ∧ vu (ce t.pkg i.ce) i.vu = vu (ce s.pkg i.ce) i.vu))

/-- R188, R186: each fixed function gives one of the floats within 2 ulp of its exact value, the same for the same input, and a canonical NaN
for a NaN; which of them, and the result where the spec states none, is free (the model's choice, log entry 4); SQRT is rounded; LDEXP scales by the lane of b.
R189, Table 5-6: the fixed reduction tree, its result in every lane; MOV, BCAST and SHUF pick lanes of a; PACK fills one
part of the destination with the low bits of a's lanes, UNPACK takes one part apart. -/
def Obligations.VectorFunctionsReductionsAndMovesWriteTheirLanes : Prop :=
  (VuGives 0x0A .vuRcp (lane1 0x0A fRcp id) ∧ VuGives 0x0B .vuRsqrt (lane1 0x0B fRsqrt id) ∧
  VuGives 0x0C .vuSqrt (lane1 0x0C fSqrt id) ∧ VuGives 0x0D .vuExp2 (lane1 0x0D fExp2 id) ∧
  VuGives 0x0E .vuLog2 (lane1 0x0E fLog2 id) ∧ VuGives 0x0F .vuTanh (lane1 0x0F fTanh id) ∧
  VuGives 0x10 .vuSigmoid (lane1 0x10 fSigmoid id) ∧ VuGives 0x11 .vuGelu (lane1 0x11 fGelu id) ∧
  VuGives 0x12 .vuSilu (lane1 0x12 fSilu id) ∧ VuGives 0x13 .vuSinpi (lane1 0x13 fSinpi id) ∧
  VuGives 0x14 .vuCospi (lane1 0x14 fCospi id) ∧
  VuGives 0x15 .vuLdexp (fun s i l => bfOut i.fmt (fLdexp (bfIn i.fmt (srcA s 0x15 i l)) (srcB s 0x15 i l)))) ∧
  (VuGives 0x2C .vuRsum (fun s i _ => if i.fmt = 2 then laneTree (· + ·) (vuInputs s.pkg 0x2C i).a
    else laneTree (fun a b => bfOut i.fmt (fAdd a b)) ((vuInputs s.pkg 0x2C i).a.map (bfIn i.fmt))) ∧
  VuGives 0x2D .vuRmax (fun s i _ => if i.fmt = 2 then laneTree sMax (vuInputs s.pkg 0x2D i).a
    else laneTree (fun a b => bfOut i.fmt (fMax a b)) ((vuInputs s.pkg 0x2D i).a.map (bfIn i.fmt))) ∧
  VuGives 0x2E .vuRmin (fun s i _ => if i.fmt = 2 then laneTree sMin (vuInputs s.pkg 0x2E i).a
    else laneTree (fun a b => bfOut i.fmt (fMin a b)) ((vuInputs s.pkg 0x2E i).a.map (bfIn i.fmt))) ∧
  VuGives 0x30 .vuMov (fun s i l => srcA s 0x30 i l) ∧
  VuGives 0x31 .vuBcast (fun s i _ => srcA s 0x31 i (i.imm % 16)) ∧
  VuGives 0x32 .vuShuf (fun s i l => srcA s 0x32 i ((srcB s 0x32 i l).toNat % 16)) ∧
  VuGives 0x33 .vuPack (fun s i l =>
    let old := SMap.get (vu (ce s.pkg i.ce) i.vu).regs i.dst 0
    let w := packWidth i.imm
    let part := i.imm / 8
    lane (withBits old (16 * w * (part + 1) - 1) (16 * w * part) (packBytes (vuInputs s.pkg 0x33 i).a w)) l) ∧
  VuGives 0x34 .vuUnpack (fun s i l =>
    let w := packWidth i.imm
    BitVec.ofNat 32 (bitsOf (ofLanes (vuInputs s.pkg 0x34 i).a) (16 * w * (i.imm / 8) + w * l + w - 1)
      (16 * w * (i.imm / 8) + w * l))))

/-- Table 5-6: comparisons write all ones or zero, SEL takes a where c is not zero (the model tests c's lane bits, log entry
5), conversions follow R261, I2F and F2I convert between INT32 and FP32, WIDEN is exact, and MXSCALE puts one scale in every
lane (a free value, log entry 4). -/
def Obligations.VectorComparisonsAndConversionsWriteTheirLanes : Prop :=
  VuGives 0x18 .vuCmplt (laneIf 0x18 (fun a b => fOrdered a b && decide (cmp32 a b < 0)) (fun a b => decide (a.toInt < b.toInt))) ∧
  VuGives 0x19 .vuCmple (laneIf 0x19 (fun a b => fOrdered a b && decide (cmp32 a b ≤ 0)) (fun a b => decide (a.toInt ≤ b.toInt))) ∧
  VuGives 0x1A .vuCmpeq (laneIf 0x1A (fun a b => fOrdered a b && decide (cmp32 a b = 0)) (fun a b => decide (a = b))) ∧
  VuGives 0x1B .vuSel (fun s i l => if srcC s 0x1B i l = 0 then srcB s 0x1B i l else srcA s 0x1B i l) ∧
  VuGives 0x20 .vuCvtBf16 (laneCvt 0x20 (fun _ => 6)) ∧ VuGives 0x21 .vuCvtFp16 (laneCvt 0x21 (fun _ => 7)) ∧
  VuGives 0x22 .vuCvtFp8 (laneCvt 0x22 (fun i => if i.imm / 4 % 2 = 0 then 3 else 4)) ∧
  VuGives 0x23 .vuCvtFp4 (laneCvt 0x23 (fun _ => 0)) ∧ VuGives 0x24 .vuCvtInt8 (laneCvt 0x24 (fun _ => 5)) ∧
  VuGives 0x25 .vuCvtI2f (fun s i l => i2f (srcA s 0x25 i l)) ∧
  VuGives 0x26 .vuCvtF2i (fun s i l => f2i (i.imm % 4) (genSeed (ceCmd s.pkg i.ce))
    (16 * (vu (ce s.pkg i.ce) i.vu).outCount + l) (srcA s 0x26 i l)) ∧
  VuGives 0x27 .vuWiden (fun s i l => widenLane i.imm (srcA s 0x27 i l)) ∧
  VuGives 0x28 .vuMxscale (fun s i _ => (Config.mxScale i.imm (ofLanes (vuInputs s.pkg 0x28 i).a)
    (ofLanes (vuInputs s.pkg 0x28 i).b)).setWidth 32)

/-! ## Scratch units, movers and the sequencer (spec/05, spec/09) -/

/-- R177 to R183, R353: at the last place of its descriptor, the one its code holds there, a generator offers or takes one word of its
scratch unit, a LOAD offers its line once the line has come, a LOAD_EXACT whose group of lines has been read offers its line with each
record of the group read in as R268 gives, a STORE or STORE_EXACT puts a line that its page lets it write into the mover's open packet,
which closes where PKT_DIM ends it, and a PREFETCH of a line that is nowhere asks for it; a NOP descriptor only goes on. None
stores to memory. -/
def Obligations.GeneratorsAndMoversMoveTheirWords : Prop :=
  (∀ (s : State) (d : AgArgs) (pos : Nat) (held : Item), d.isWrite = false → d.hold = false → d.su < 12 →
    ceLive s.pkg d.ce = true → unitMay s.pkg d.ce 3 d.su = true → atAg s.pkg d = true →
    SMap.get (ce s.pkg d.ce).ag (agKey d) (0, 0) = (pos, held) →
    total d.counts ≤ pos + 1 → hasCredit (ceChart s.pkg d.ce) (ce s.pkg d.ce) d.su = true →
    ∃ t, exec (.agDescriptor d) s = .next t ∧ t.mem = s.mem ∧ (ce t.pkg d.ce).su = (ce s.pkg d.ce).su ∧
      Offered s t d.ce d.su (SMap.get (ce s.pkg d.ce).su (suKey d.su (agWord d pos)) 0) ∧ MovedOn s t d.ce 3 d.su 4) ∧
  (∀ (s : State) (d : AgArgs) (pos : Nat) (held x : Item) (rest : List Item), d.isWrite = true → d.su < 12 →
    ceLive s.pkg d.ce = true → unitMay s.pkg d.ce 4 d.su = true → atAg s.pkg d = true →
    SMap.get (ce s.pkg d.ce).ag (agKey d) (0, 0) = (pos, held) →
    total d.counts ≤ pos + 1 → routeItems (ce s.pkg d.ce) (0x10 + d.su) = x :: rest →
    ∃ t, exec (.agDescriptor d) s = .next t ∧ t.mem = s.mem ∧ routeItems (ce t.pkg d.ce) (0x10 + d.su) = rest ∧
      SMap.get (ce t.pkg d.ce).su (suKey d.su (agWord d pos)) 0 = x ∧ MovedOn s t d.ce 4 d.su 4) ∧
  (∀ (s : State) (d : MuArgs), muMay s.pkg 0 d = true → ∃ t, exec (.muNop d) s = .next t ∧ t.mem = s.mem ∧
    MovedOn s t d.ce 5 d.mu 8 ∧ (ce t.pkg d.ce).movers = (ce s.pkg d.ce).movers) ∧
  (∀ (s : State) (d : MuArgs) (x : Xlate) (a : Nat × CLine) (va : Int), muMay s.pkg 1 d = true →
    hasCredit (ceChart s.pkg d.ce) (ce s.pkg d.ce) (0x50 + d.mu) = true →
    va = muVa (ceCmd s.pkg d.ce) d (mover (ce s.pkg d.ce) d.mu).pos → inExtent (ceCmd s.pkg d.ce) d.operand va = true →
    cmdXlate (ceCmd s.pkg d.ce) d.operand va.toNat = some x →
    (ce s.pkg d.ce).arrived.find? (fun y => y.1 == d.mu && y.2.line == x.addr va.toNat / 64) = some a →
    a.2.poison = false → total d.counts ≤ (mover (ce s.pkg d.ce) d.mu).pos + 1 →
    ∃ t, exec (.load d) s = .next t ∧ t.mem = s.mem ∧ Offered s t d.ce (0x50 + d.mu) a.2.data ∧ MovedOn s t d.ce 5 d.mu 8) ∧
  (∀ (s : State) (d : MuArgs) (m : Mover), muMay s.pkg 3 d = true → m = mover (ce s.pkg d.ce) d.mu →
    hasCredit (ceChart s.pkg d.ce) (ce s.pkg d.ce) (0x50 + d.mu) = true →
    m.raw.length = min 5 (total d.counts - m.pos / 5 * 5) → total d.counts ≤ m.pos + 1 →
    ∃ t, exec (.loadExact d) s = .next t ∧ t.mem = s.mem ∧
      Offered s t d.ce (0x50 + d.mu) ((canonLines m.raw).getD (m.pos - m.pos / 5 * 5) 0) ∧ MovedOn s t d.ce 5 d.mu 8) ∧
  (∀ (s : State) (d : MuArgs) (x : Xlate) (item : Item) (rest : List Item) (va : Int) (m : Mover) (l : PLine),
    routeItems (ce s.pkg d.ce) (0x54 + d.mu) = item :: rest → m = mover (ce s.pkg d.ce) d.mu →
    va = muVa (ceCmd s.pkg d.ce) d m.pos → inExtent (ceCmd s.pkg d.ce) d.operand va = true →
    cmdXlate (ceCmd s.pkg d.ce) d.operand va.toNat = some x → x.writable = true → total d.counts ≤ m.pos + 1 →
    l = ⟨x.addr va.toNat, item, false, (dOperand (ceCmd s.pkg d.ce).desc d.operand).slm == 2, d.ce, d.mu, false, false⟩ →
    (muMay s.pkg 2 d = true → ∃ t, exec (.store d) s = .next t ∧ t.mem = s.mem ∧ MovedOn s t d.ce 5 d.mu 8 ∧
      (mover (ce t.pkg d.ce) d.mu).closed ++ [(mover (ce t.pkg d.ce) d.mu).packet] = m.closed ++
        (if (m.pos + 1) % packetLines d = 0 then [packetAdd m.packet l, []] else [packetAdd m.packet l])) ∧
    (muMay s.pkg 4 d = true → ∃ t, exec (.storeExact d) s = .next t ∧ t.mem = s.mem ∧ MovedOn s t d.ce 5 d.mu 8 ∧
      (mover (ce t.pkg d.ce) d.mu).closed ++ [(mover (ce t.pkg d.ce) d.mu).packet] = m.closed ++
        (if (m.pos + 1) % packetLines d = 0 then [packetAdd m.packet l, []] else [packetAdd m.packet l]))) ∧
  (∀ (s : State) (d : MuArgs) (x : Xlate) (va : Int) (line : Nat), muMay s.pkg 5 d = true → l1On s.pkg d.ce = true →
    (ce s.pkg d.ce).pfOn = true → (missLines (ce s.pkg d.ce)).length < 64 →
    va = muVa (ceCmd s.pkg d.ce) d (mover (ce s.pkg d.ce) d.mu).pos → inExtent (ceCmd s.pkg d.ce) d.operand va = true →
    cmdXlate (ceCmd s.pkg d.ce) d.operand va.toNat = some x → x.nc = false → line = x.addr va.toNat / 64 →
    l1Find (ce s.pkg d.ce) line = none → sideFind (ce s.pkg d.ce) line = none →
    (ce s.pkg d.ce).misses.any (fun m => m.line == line) = false → fate s.pkg (line * 64) = .served →
    total d.counts ≤ (mover (ce s.pkg d.ce) d.mu).pos + 1 →
    ∃ t m, exec (.prefetch d) s = .next t ∧ (ce t.pkg d.ce).misses = (ce s.pkg d.ce).misses ++ [m] ∧ m.line = line ∧
      m.pf = true ∧ t.mem = s.mem ∧ MovedOn s t d.ce 5 d.mu 8)

/-- R194, R176: at the word of its code NOP goes on; END of a CE whose units are done and whose packets have committed completes the
running command and frees the CE; PHASE changes the phase when the routes it closes are empty; LOOP goes back until it has done so
COUNT times, then on.
R322 to R324: a barrier goes on once every unit has finished its pass: LOAD_BARRIER when the loads have returned, with the L1
and the side buffer invalidated; STORE_BARRIER when every packet, the open ones closed, has committed; FULL_BARRIER
both; WAIT_IDLE the units alone. While a unit has not finished its pass each of the four changes nothing. -/
def Obligations.SequencerWordsControlTheCommandAndWait : Prop :=
  ((∀ (s : State) (n : Nat), sqAt s.pkg n 0 0 = true → ∃ t, exec (.sqNop n) s = .next t ∧ MovedOn s t n 0 0 1 ∧ t.mem = s.mem ∧
    t.pkg.regs = s.pkg.regs) ∧
  (∀ (s : State) (n id : Nat), (ce s.pkg n).cmd = some id → (cmd s.pkg id).phase = .running → sqAt s.pkg n 1 0 = true →
    unitsDone s.pkg n = true → packetsDone s.pkg n = true → mustPause s.pkg n = false →
    ∃ t, exec (.sqEnd n) s = .next t ∧ t.mem = s.mem ∧
      (ce t.pkg n).cmd = none ∧ (cmd t.pkg id).phase = .finished ∧
      (cmd t.pkg id).status = if (cmd s.pkg id).repeats = 0 then 0 else 1) ∧
  (∀ (s : State) (n phase : Nat), sqAt s.pkg n 2 phase = true → phase < 8 → phase < (ceChart s.pkg n).phases →
    (∀ r ∈ (ceChart s.pkg n).routes, r.phases.testBit (ce s.pkg n).phase = true → r.phases.testBit phase = false →
      routeItems (ce s.pkg n) r.sink = []) →
    ∃ t, exec (.sqPhase n phase) s = .next t ∧ t.mem = s.mem ∧ (ce t.pkg n).phase = phase ∧ MovedOn s t n 0 0 1) ∧
  (∀ (s : State) (n target count w pass : Nat), sqAt s.pkg n 3 (target * 4096 + (count - 1)) = true →
    unitAt (ce s.pkg n) 0 0 = (w, pass) → target ≤ w → count ≤ 4096 →
    SMap.get (ce s.pkg n).loops w 0 < count → ∃ t, exec (.sqLoop n target count) s = .next t ∧ t.mem = s.mem ∧
      unitAt (ce t.pkg n) 0 0 = (target, pass) ∧ SMap.get (ce t.pkg n).loops w 0 = SMap.get (ce s.pkg n).loops w 0 + 1) ∧
  (∀ (s : State) (n target count w pass : Nat), sqAt s.pkg n 3 (target * 4096 + (count - 1)) = true →
    unitAt (ce s.pkg n) 0 0 = (w, pass) → target ≤ w → 1 ≤ count → count ≤ 4096 →
    count ≤ SMap.get (ce s.pkg n).loops w 0 → ∃ t, exec (.sqLoop n target count) s = .next t ∧ t.mem = s.mem ∧
      MovedOn s t n 0 0 1 ∧ SMap.get (ce t.pkg n).loops w 0 = 0)) ∧
  ((∀ (s : State) (n : Nat), sqAt s.pkg n 8 0 = true → allIdle s.pkg n = true → ∃ t, exec (.waitIdle n) s = .next t ∧
    MovedOn s t n 0 0 1 ∧ t.mem = s.mem) ∧
  (∀ (s : State) (n : Nat), sqAt s.pkg n 5 0 = true → allIdle s.pkg n = true → loadsDone s.pkg n = true →
    ∃ t, exec (.loadBarrier n) s = .next t ∧ MovedOn s t n 0 0 1 ∧ (ce t.pkg n).l1 = [] ∧ (ce t.pkg n).side = [] ∧
      t.mem = s.mem) ∧
  (∀ (s : State) (n : Nat), sqAt s.pkg n 6 0 = true → allIdle s.pkg n = true →
    packetsDone (closePackets s.pkg n) n = true →
    ∃ t, exec (.storeBarrier n) s = .next t ∧ MovedOn s t n 0 0 1 ∧ (ce t.pkg n).l1 = (ce s.pkg n).l1 ∧ t.mem = s.mem) ∧
  (∀ (s : State) (n : Nat), sqAt s.pkg n 7 0 = true → allIdle s.pkg n = true →
    packetsDone (closePackets s.pkg n) n = true →
    loadsDone s.pkg n = true → ∃ t, exec (.fullBarrier n) s = .next t ∧ MovedOn s t n 0 0 1 ∧ (ce t.pkg n).l1 = [] ∧
      (ce t.pkg n).side = [] ∧ t.mem = s.mem) ∧
  (∀ (s : State) (n : Nat), allIdle s.pkg n = false →
    exec (.loadBarrier n) s = .next s ∧ exec (.storeBarrier n) s = .next s ∧ exec (.fullBarrier n) s = .next s ∧
      exec (.waitIdle n) s = .next s))

/-- R237 to R240, R296, R297: a FOLD word and a round's end pass one fold boundary and count it, and the CE stops there where a
preemption or a pause is due; FOLD_BOUNDARY then writes the fold record of a preempted command and frees its CE, ends the preemption
without effect while fold records are disabled, and lets a paused command go on once its range is translated again. -/
def Obligations.FoldBoundariesCountAndPreempt : Prop :=
  (∀ (s : State) (n id : Nat) (c : Ce), (ce s.pkg n).cmd = some id → sqAt s.pkg n 4 0 = true →
    c = ce (settleLatches s.pkg n) n → c.octets.all (fun x => x.2.cells.isEmpty && x.2.done == 0) = true →
    c.long.all (fun x => x.2 == 0) = true → c.ls.bufBits = 0 → packetsDone s.pkg n = true →
    ∃ t, exec (.sqFold n) s = .next t ∧ t.mem = s.mem ∧ MovedOn s t n 0 0 1 ∧
      regN t.pkg (ceFold n) = min 0xFFFFFFFF (regN s.pkg (ceFold n) + 1) ∧
      (ce t.pkg n).paused = ((ce s.pkg n).preempt || (ceCmd s.pkg n).stale) ∧
      (cmd t.pkg id).folds = min 65535 ((cmd s.pkg id).folds + 1)) ∧
  (∀ (s : State) (n id : Nat) (ch : Chart), (ce s.pkg n).cmd = some id → ceLive s.pkg n = true → ch = ceChart s.pkg n →
    isProject ch = true → (ce s.pkg n).round < roundsOf (ceCmd s.pkg n) (projectMode ch) →
    projectedPast s.pkg n (ce s.pkg n).round = true → emittedPast s.pkg n (ce s.pkg n).round = true →
    (holdDue s.pkg n = false → ∃ t, exec (.roundEnd n) s = .next t ∧ t.mem = s.mem ∧
      (ce t.pkg n).round = (ce s.pkg n).round + 1 ∧ (ce t.pkg n).paused = false ∧
      regN t.pkg (ceFold n) = min 0xFFFFFFFF (regN s.pkg (ceFold n) + 1)) ∧
    (holdDue s.pkg n = true → roundPassed s.pkg n (ce s.pkg n).round = true → packetsDone s.pkg n = true →
      roundAhead s.pkg n (ce s.pkg n).round = false → endsNow s.pkg n = false →
      ∃ t, exec (.roundEnd n) s = .next t ∧ t.mem = s.mem ∧ (ce t.pkg n).round = (ce s.pkg n).round + 1 ∧
        (ce t.pkg n).paused = true)) ∧
  (∀ (s : State) (n id i : Nat), (ce s.pkg n).cmd = some id → freeFold s.pkg = some i → ceOk n = true →
    (ce s.pkg n).paused = true → (ce s.pkg n).preempt = true → bit s.pkg (key pgQm 0x118) 0 = true →
    packetsDone s.pkg n = true →
    ∃ t, exec (.foldBoundary n) s = .next t ∧ t.mem = storeAt s.pkg s.mem (foldAddr s.pkg i) 1024 (foldRecord s.pkg n) ∧
      (cmd t.pkg id).phase = .preempted ∧ (cmd t.pkg id).fold = some i ∧ (ce t.pkg n).cmd = none) ∧
  (∀ (s : State) (n id i : Nat), (ce s.pkg n).cmd = some id → freeFold s.pkg = some i → ceOk n = true →
    (ce s.pkg n).paused = true → (ceCmd s.pkg n).stale = false →
    ((ce s.pkg n).preempt = false ∨ bit s.pkg (key pgQm 0x118) 0 = false) →
    ∃ t, exec (.foldBoundary n) s = .next t ∧ (ce t.pkg n).paused = false ∧ (ce t.pkg n).preempt = false ∧
      (ce t.pkg n).cmd = some id ∧ t.mem = s.mem)

/-! ## Octets and the long store (spec/06, spec/07) -/

/-- R209 to R222, R248: at the word of its code an octet takes FORMAT, MASK and NOP words; a tile load ends with its last item; a pass
of one INT8 element in mode 2 gives every cell of the unmasked arrays the product of its row wire and its column wire and masked
arrays nothing.
R224 to R228, R231, R234, R247: an array at its drain interval copies its cells into its latches and restarts, and the latches, when
they pass on, join the long accumulators of its slot; an octet whose feed has no item stops and one whose feed has starts again; the
last round of a PROJECT word in which an octet has no part of K left ends the word. -/
def Obligations.OctetsLoadPassDrainAndProject : Prop :=
  ((∀ (s : State) (n oct : Nat), octAt s.pkg n oct 0 = true → ∃ t, exec (.octetNop n oct) s = .next t ∧ t.mem = s.mem ∧
    MovedOn s t n 1 oct 1 ∧
    (octet (ce t.pkg n) oct).cells = (octet (ce s.pkg n) oct).cells ∧ (ce t.pkg n).long = (ce s.pkg n).long) ∧
  (∀ (s : State) (n oct fa fb : Nat) (axis sa sb : Bool), fa < 13 → fb < 13 →
    octAt s.pkg n oct (2 ^ 28 + fa * 2 ^ 24 + fb * 2 ^ 20 + bitNat axis * 2 ^ 19 + bitNat sa * 2 ^ 18 + bitNat sb * 2 ^ 17) =
      true →
    ∃ t, exec (.octetFormat n oct fa fb axis sa sb) s = .next t ∧ t.mem = s.mem ∧ MovedOn s t n 1 oct 1 ∧
      (octet (ce t.pkg n) oct).formatted = true ∧ (octet (ce t.pkg n) oct).fa = fa ∧ (octet (ce t.pkg n) oct).fb = fb ∧
      (octet (ce t.pkg n) oct).axis = axis ∧ (octet (ce t.pkg n) oct).sharedA = sa ∧
      (octet (ce t.pkg n) oct).sharedB = sb) ∧
  (∀ (s : State) (n oct mask : Nat), octAt s.pkg n oct (5 * 2 ^ 28 + mask) = true → mask < 256 →
    ∃ t, exec (.octetMask n oct mask) s = .next t ∧ t.mem = s.mem ∧
    MovedOn s t n 1 oct 1 ∧ (octet (ce t.pkg n) oct).mask =
      if (unitAt (ce t.pkg n) 1 oct).2 = (unitAt (ce s.pkg n) 1 oct).2 then mask else 0xFF) ∧
  (∀ (s : State) (n oct bank : Nat) (x : Item) (rest : List Item) (o : Octet),
    octAt s.pkg n oct (3 * 2 ^ 28 + bank * 2 ^ 27) = true →
    o = octet (ce s.pkg n) oct → o.formatted = true → bank < 2 → o.done = 0 →
    routeItems (ce s.pkg n) (0x68 + oct) = x :: rest → o.loading.length + 1 = srItems o.fb →
    ∃ t, exec (.loadSr n oct bank) s = .next t ∧ t.mem = s.mem ∧ MovedOn s t n 1 oct 1 ∧
      SMap.get (octet (ce t.pkg n) oct).sr bank [] = o.loading ++ [x] ∧ (octet (ce t.pkg n) oct).loading = [] ∧
      routeItems (ce t.pkg n) (0x68 + oct) = rest) ∧
  (∀ (s : State) (n oct slot step bank : Nat) (x y : Item) (xs ys : List Item) (o : Octet), slot < 64 → step < 2 → bank < 2 →
    octAt s.pkg n oct (4 * 2 ^ 28 + slot * 2 ^ 22 + step * 2 ^ 21 + bank * 2 ^ 20) = true →
    o = octet (ce s.pkg n) oct → o.formatted = true → o.fa = 5 → o.fb = 5 → o.sharedA = false → o.sharedB = false →
    o.done = 0 → o.stopped = false → octMode s.pkg n oct = 2 → (∀ a, a < 8 → SMap.get o.since a 0 < 65536) →
    routeItems (ce s.pkg n) (0x60 + oct) = x :: xs → routeItems (ce s.pkg n) (0x68 + oct) = y :: ys →
    ∃ t, exec (.pass n oct slot step bank false 1) s = .next t ∧ MovedOn s t n 1 oct 1 ∧ t.mem = s.mem ∧
      routeItems (ce t.pkg n) (0x60 + oct) = xs ∧ routeItems (ce t.pkg n) (0x68 + oct) = ys ∧
      ∀ a i c, a < 8 → i < 8 → c < 8 →
        SMap.get (octet (ce t.pkg n) oct).cells (cellKey a i c) ⟨0, 0⟩ =
          if o.mask.testBit a then (SMap.get o.cells (cellKey a i c) ⟨0, 0⟩).addFixed
            (product (wireOf 5 (itemByte x (8 * a + i))) (wireOf 5 (itemByte y (8 * a + c))))
          else SMap.get o.cells (cellKey a i c) ⟨0, 0⟩)) ∧
  ((∀ (s : State) (n array : Nat) (o : Octet) (slot : Nat) (l : Latch), ceLive s.pkg n = true → array < 64 →
    o = octet (ce s.pkg n) (array / 8) → drainLimit o ≤ SMap.get o.since (array % 8) 0 → o.latches = [] →
    slotsFree s.pkg n (array / 8) = true →
    slot = SMap.get o.slots (array % 8) 0 → 64 * slot + 64 ≤ (ceChart s.pkg n).longAccs →
    ∃ t, exec (.drainIntervalExpiry n array) s = .next t ∧ t.mem = s.mem ∧
      SMap.get (octet (ce t.pkg n) (array / 8)).since (array % 8) 0 = 0 ∧
      reg t.pkg (key (pgCe n) 0x360) = reg s.pkg (key (pgCe n) 0x360) + 1 ∧
      ∀ i c, i < 8 → c < 8 →
        SMap.get (octet (ce t.pkg n) (array / 8)).cells (cellKey (array % 8) i c) ⟨0, 0⟩ = ⟨0, 0⟩ ∧
        SMap.get (octet (ce t.pkg n) (array / 8)).latches (cellKey (array % 8) i c) l =
          latchOf o (octMode s.pkg n (array / 8)) (array % 8) i c (o.done - 1) slot ∧
        SMap.get (passLatches (ce t.pkg n) (array / 8)).long (64 * slot + 8 * i + c) 0 =
          (let v := (latchOf o (octMode s.pkg n (array / 8)) (array % 8) i c (o.done - 1) slot).value
           accAdd (SMap.get (ce s.pkg n).long (64 * slot + 8 * i + c) 0) v.1 v.2)) ∧
  (∀ (s : State) (n oct : Nat), octMay s.pkg n oct = true → feedHas s.pkg n oct = false →
    ∃ t, exec (.feedStallStop n oct) s = .next t ∧ t.mem = s.mem ∧ (octet (ce t.pkg n) oct).stopped = true ∧
      (octet (ce t.pkg n) oct).cells = (octet (ce s.pkg n) oct).cells) ∧
  (∀ (s : State) (n oct : Nat), octMay s.pkg n oct = true → feedHas s.pkg n oct = true →
    ∃ t, exec (.feedRestart n oct) s = .next t ∧ t.mem = s.mem ∧ (octet (ce t.pkg n) oct).stopped = false ∧
      (octet (ce t.pkg n) oct).cells = (octet (ce s.pkg n) oct).cells) ∧
  (∀ (s : State) (n oct : Nat) (o : Octet), octAt s.pkg n oct (2 * 2 ^ 28) = true → o = octet (ce s.pkg n) oct →
    o.formatted = true →
    octMode s.pkg n oct ≠ 2 → roundsOf (ceCmd s.pkg n) (octMode s.pkg n oct) = o.rounds + 1 → o.rounds ≤ (ce s.pkg n).round →
    ceilDiv (runK (ceCmd s.pkg n)) 64 ≤ oct + 8 * o.tile →
    ∃ t, exec (.project n oct) s = .next t ∧ t.mem = s.mem ∧ (octet (ce t.pkg n) oct).rounds = o.rounds + 1 ∧
      MovedOn s t n 1 oct 1 ∧ (octet (ce t.pkg n) oct).tile = 0 ∧ (octet (ce t.pkg n) oct).cells = o.cells))

/-- R254, R257, R268, R273: at the word of its code the long store takes NOP and OUTFMT words; EMIT of one slot as FP4 fits one item
and leaves the slot's accumulators +0; ACCEPT with its last record whole adds it to its accumulator and ends; CLEAR sets its slots'
accumulators to +0 and no others; AUTO that has emitted the last round ends its word. Values in drain latches join their
accumulators first. -/
def Obligations.TheLongStoreConvertsEmitsAcceptsAndClears : Prop :=
  (∀ (s : State) (n : Nat), lsAt s.pkg n 0 = true → ∃ t, exec (.lsNop n) s = .next t ∧ MovedOn s t n 6 0 1 ∧
    (ce t.pkg n).long = (ce s.pkg n).long ∧ t.mem = s.mem) ∧
  (∀ (s : State) (n fmt rounding : Nat) (sat : Bool) (shift : Int),
    lsAt s.pkg n (2 ^ 28 + fmt * 2 ^ 24 + rounding * 2 ^ 22 + bitNat sat * 2 ^ 21 + (BitVec.ofInt 8 shift).toNat * 2 ^ 13) =
      true → fmt < 9 → rounding < 3 → -128 ≤ shift → shift < 128 →
    ∃ t, exec (.outfmt n fmt rounding sat shift) s = .next t ∧ t.mem = s.mem ∧ MovedOn s t n 6 0 1 ∧
      ((unitAt (ce t.pkg n) 6 0).2 = (unitAt (ce s.pkg n) 6 0).2 → (ce t.pkg n).ls.fmt = fmt ∧
        (ce t.pkg n).ls.rounding = rounding ∧ (ce t.pkg n).ls.sat = sat ∧ (ce t.pkg n).ls.shift = shift)) ∧
  (∀ (s : State) (n port first : Nat) (c c1 : Ce), lsAt s.pkg n (2 * 2 ^ 28 + port * 2 ^ 26 + first * 2 ^ 19) = true →
    port < 4 → slotsOk s.pkg n first 1 = true → c = ce (settleLatches s.pkg n) n →
    c.ls.fmt = 0 → c.ls.next = 0 → c.ls.buf = 0 → c.ls.bufBits = 0 →
    hasCredit (ceChart s.pkg n) (ce s.pkg n) (0x70 + port) = true →
    c1 = (gather false (genSeed (ceCmd s.pkg n))
      (fun k => (64 * first + k, 4096 * c.ls.emits + (64 * first + k))) 64 129 c).2 →
    ∃ t, exec (.emit n port false first 1 false) s = .next t ∧ t.mem = s.mem ∧ MovedOn s t n 6 0 1 ∧
      Offered s t n (0x70 + port) (BitVec.ofNat 512 c1.ls.buf) ∧ (ce t.pkg n).ls.emits = (ce s.pkg n).ls.emits + 1 ∧
      ∀ k, SMap.get (ce t.pkg n).long k 0 = if 64 * first ≤ k ∧ k < 64 * first + 64 then 0 else SMap.get c.long k 0) ∧
  (∀ (s : State) (n port first count : Nat) (c : Ce),
    lsAt s.pkg n (3 * 2 ^ 28 + port * 2 ^ 26 + first * 2 ^ 20 + (count - 1) * 2 ^ 14) = true → port < 4 →
    slotsOk s.pkg n first count = true → c = ce (settleLatches s.pkg n) n → c.ls.next + 1 = 64 * count →
    640 ≤ c.ls.bufBits →
    ∃ t, exec (.accept n port first count) s = .next t ∧ t.mem = s.mem ∧ MovedOn s t n 6 0 1 ∧
      ∀ k, SMap.get (ce t.pkg n).long k 0 =
        if k = 64 * first + c.ls.next then
          accAdd (SMap.get c.long k 0) (recElem (BitVec.ofNat 640 c.ls.buf)) (-300)
        else SMap.get c.long k 0) ∧
  (∀ (s : State) (n first count : Nat), lsAt s.pkg n (4 * 2 ^ 28 + first * 2 ^ 20 + (count - 1) * 2 ^ 14) = true →
    slotsOk s.pkg n first count = true →
    ∃ t, exec (.lsClear n first count) s = .next t ∧ t.mem = s.mem ∧ MovedOn s t n 6 0 1 ∧
      ∀ k, SMap.get (ce t.pkg n).long k 0 =
        if 64 * first ≤ k ∧ k < 64 * (first + count) then 0 else SMap.get (ce (settleLatches s.pkg n) n).long k 0) ∧
  (∀ (s : State) (n port : Nat) (ex : Bool) (r mode : Nat),
    lsAt s.pkg n (5 * 2 ^ 28 + port * 2 ^ 26 + bitNat ex * 2 ^ 25) = true → port < 4 → isProject (ceChart s.pkg n) = true →
    mode = projectMode (ceChart s.pkg n) → r = (ce s.pkg n).ls.rounds → roundsOf (ceCmd s.pkg n) mode = r + 1 →
    r ≤ (ce s.pkg n).round → projectedPast s.pkg n r = true →
    (ce s.pkg n).ls.next = 64 * (roundSlots (ceCmd s.pkg n) mode r).length → (ce s.pkg n).ls.bufBits = 0 →
    ∃ t, exec (.lsAuto n port ex false) s = .next t ∧ t.mem = s.mem ∧ MovedOn s t n 6 0 1 ∧ (ce t.pkg n).ls.rounds = r + 1)

/-- R198, R200 to R202: CE_ABORT and an internal abort stop the running command and free its CE, an internally aborted command to be
repeated where R303 allows it; a parameter write goes to the slot that CE_PARAM_SLOT selects, or to its shadow while it is ACTIVE or
in the instant in which it ceased to be; a validated image becomes its handle's current chart and is counted, an invalid one leaves
its slot empty and ends the RUN that asked for it with its status. -/
def Obligations.ChartsLoadAndCommandsAbort : Prop :=
  (∀ (s : State) (rq : Requester) (n id : Nat) (v : W32), ceOk n = true → writeFate s.pkg rq (pgCe n) 0x114 = .accepted →
    bitOf (v.setWidth 64 : W64) 0 = true → (ce s.pkg n).cmd = some id → (cmd s.pkg id).phase = .running →
    ∃ t, exec (.ceAbort rq n v) s = .next t ∧
      (ce t.pkg n).cmd = none ∧ (cmd t.pkg id).phase = .finished ∧ (cmd t.pkg id).status = 0x40 ∧ t.mem = s.mem) ∧
  (∀ (s : State) (n id cause : Nat), ceOk n = true → cause ≠ 0 → (ce s.pkg n).cmd = some id →
    (cmd s.pkg id).phase = .running →
    ∃ t, exec (.internalAbort n cause) s = .next t ∧ (ce t.pkg n).cmd = none ∧ t.mem = s.mem ∧
      (if dRepeatable (cmd s.pkg id).desc = true ∧ dInPlace (cmd s.pkg id).desc = false ∧
          dPlace (cmd s.pkg id).desc / 16384 % 4 ≠ 3 ∧ (cmd s.pkg id).losses < 3 then
        (cmd t.pkg id).phase = .waiting ∧ (cmd t.pkg id).losses = (cmd s.pkg id).losses + 1
       else (cmd t.pkg id).phase = .finished ∧ (cmd t.pkg id).status = 0x11)) ∧
  (∀ (s : State) (rq : Requester) (n j i : Nat) (v : W64), ceOk n = true → j < 16 →
    writeFate s.pkg rq (pgCe n) (0x200 + 8 * j) = .accepted → i = fld s.pkg (key (pgCe n) 0x11C) 1 0 →
    ∃ t, exec (.chartParamWrite rq n j v) s = .next t ∧ t.mem = s.mem ∧
      (if (slot (ce s.pkg n) i).state = 3 ∨ (slot (ce s.pkg n) i).endedAt = s.pkg.pace.datum + 1 then
        SMap.get (slot (ce t.pkg n) i).shadow j 0 = v ∧ (slot (ce t.pkg n) i).params = (slot (ce s.pkg n) i).params
       else SMap.get (slot (ce t.pkg n) i).params j 0 = v)) ∧
  (∀ (s : State) (n i : Nat) (e : Slot) (b : List Nat), ceOk n = true → i < 4 → e = slot (ce s.pkg n) i → e.state = 1 →
    hasCmd s.pkg e.forCmd = true → dOpcode (cmd s.pkg e.forCmd).desc = 2 →
    b = bytesAt s.mem e.pages e.va (max 64 (min (leAt (bytesAt s.mem e.pages e.va 64) 4 4) 65536)) →
    poisonAt s.mem e.pages e.va b.length = false →
    (chartStatus b = (0, 0) → ∃ t, exec (.chartImageArrived n i) s = .next t ∧ t.mem = s.mem ∧
      (slot (ce t.pkg n) i).state = 2 ∧ (slot (ce t.pkg n) i).handle = e.handle ∧
      (slot (ce t.pkg n) i).current = true ∧ (slot (ce t.pkg n) i).chart = parseChart b ∧
      regN t.pkg (key (pgCe n) 0x160) = min 0xFFFFFFFF (regN s.pkg (key (pgCe n) 0x160) + 1)) ∧
    ((chartStatus b).1 ≠ 0 → (ce s.pkg n).cmd = some e.forCmd → (cmd s.pkg e.forCmd).phase = .running →
      ∃ t, exec (.chartImageArrived n i) s = .next t ∧ t.mem = s.mem ∧ (slot (ce t.pkg n) i).state = 0 ∧
      (ce t.pkg n).cmd = none ∧
      (cmd t.pkg e.forCmd).phase = .finished ∧ (cmd t.pkg e.forCmd).status = (chartStatus b).1))

/-! ## The queue manager (spec/08) -/

/-- R277, R278: a doorbell adds COUNT to TAIL, or overruns and stops the ring with TAIL as it was; the host's waits behind the
CXL.mem writes that the host link holds (R336).
R279, R280, R285: a fetch advances HEAD and makes a command of the 128 bytes read, refused with BAD_DESCRIPTOR and its reason where a
check fails; a ring that may not fetch changes nothing. -/
def Obligations.DoorbellsAndFetchesMakeCommands : Prop :=
  (∀ (s : State) (rq : Requester) (ctx ring n : Nat) (v : W32), ringOk ctx ring = true →
    writeFate s.pkg rq (pgQm + 17 + ctx) (0x100 + 4 * ring) = .accepted → n = bitsOf (v.setWidth 64 : W64) 15 0 → n ≠ 0 →
    (rq ≠ .host ∨ writesHeld s.pkg = false) →
    ((ringTail s.pkg ctx ring + 65536 - ringHead s.pkg ctx ring) % 65536 + n) % 65536 ≤ depthOf (ringLog s.pkg ctx ring) →
    ∃ t, exec (.doorbell rq ctx ring v) s = .next t ∧ t.mem = s.mem ∧
      ringTail t.pkg ctx ring = (ringTail s.pkg ctx ring + n) % 65536 ∧ ringHead t.pkg ctx ring = ringHead s.pkg ctx ring) ∧
  (∀ (s : State) (rq : Requester) (ctx ring n : Nat) (v : W32), ringOk ctx ring = true →
    writeFate s.pkg rq (pgQm + 17 + ctx) (0x100 + 4 * ring) = .accepted → n = bitsOf (v.setWidth 64 : W64) 15 0 → n ≠ 0 →
    (rq ≠ .host ∨ writesHeld s.pkg = false) →
    depthOf (ringLog s.pkg ctx ring) < ((ringTail s.pkg ctx ring + 65536 - ringHead s.pkg ctx ring) % 65536 + n) % 65536 →
    ∃ t, exec (.doorbell rq ctx ring v) s = .next t ∧ t.mem = s.mem ∧ ringStopped t.pkg ctx ring = true ∧
      bit t.pkg (ringCfg ctx ring) 26 = true ∧ ringTail t.pkg ctx ring = ringTail s.pkg ctx ring) ∧
  (∀ (s : State) (ctx ring : Nat) (v : W32), writesHeld s.pkg = true → ∃ t, exec (.doorbell .host ctx ring v) s = .next t ∧
    t.mem = s.mem ∧ t.pkg.hl.held = s.pkg.hl.held ++ [.doorbell .host ctx ring v] ∧ t.pkg.regs = s.pkg.regs) ∧
  (∀ (s : State) (ctx ring : Nat) (x : Xlate) (m : Memory) (q q1 : Pkg) (v : Nat), mayFetch s.pkg ctx ring = true →
    pageOf s.pkg s.mem ctx 0 (ringClass s.pkg ctx ring) false (headVa s.pkg ctx ring) = (.ok x, m, q) →
    qmRead q m (x.addr (headVa s.pkg ctx ring)) 128 (ringClass s.pkg ctx ring) = (.bytes v, q1) →
    ∃ t, exec (.descriptorFetch ctx ring) s = .next t ∧ t.mem = m ∧
      ringHead t.pkg ctx ring = (ringHead q1 ctx ring + 1) % 65536 ∧
      (cmd t.pkg q1.qm.nextId).desc = BitVec.ofNat 1024 v ∧ (cmd t.pkg q1.qm.nextId).ctx = ctx ∧
      (cmd t.pkg q1.qm.nextId).ring = ring ∧
      (let r := descReason q1 (BitVec.ofNat 1024 v) ctx ring (namedChart q1 m ctx (BitVec.ofNat 1024 v))
        (dirFind q1 ctx (dHandle (BitVec.ofNat 1024 v))).isSome;
       if r = 0 then (cmd t.pkg q1.qm.nextId).phase = .translating
       else (cmd t.pkg q1.qm.nextId).phase = .finished ∧ (cmd t.pkg q1.qm.nextId).status = 0x31 ∧
         (cmd t.pkg q1.qm.nextId).detail = r)) ∧
  (∀ (s : State) (ctx ring : Nat), mayFetch s.pkg ctx ring = false → exec (.descriptorFetch ctx ring) s = .next s)

/-- R286: a command whose operands' pages have their translations is accepted into its ring's queue, with their entries in the command
translation store; one without operand pages needs none. R290, R292: the next command takes its CE. R293: an INTERACTIVE command
without a CE in its scope asks the BULK one that R293 picks to yield. R298: a preempted MOVE comes back to a CE that no command of a
higher class would take and goes on from its fold record. R291: a BULK command that has waited its age is served as NORMAL. -/
def Obligations.CommandsAreAcceptedDispatchedAndPreempted : Prop :=
  (∀ (s : State) (id : Nat) (a : TrAcc), a = trCmd s.pkg s.mem id → hasCmd s.pkg id = true →
    (cmd s.pkg id).phase = .translating → s.pkg.ces.any (fun x => x.2.cmd == some id) = false →
    waitsResume s.pkg id = false → earlierTranslating s.pkg id = false →
    (spill s.pkg (cmd s.pkg id).ctx (cmd s.pkg id).ring).tail.length < 16 → a.fault = none → a.waits = false → a.pages = [] →
    moveReason (cmd a.pkg id) [] = none →
    ∃ t, exec (.commandTranslate id) s = .next t ∧ t.mem = a.mem ∧ (cmd t.pkg id).phase = .waiting ∧
      (cmd t.pkg id).desc = (cmd a.pkg id).desc) ∧
  (∀ (s : State) (id : Nat) (a : TrAcc) (es : List Nat), a = trCmd s.pkg s.mem id → hasCmd s.pkg id = true →
    (cmd s.pkg id).phase = .translating → s.pkg.ces.any (fun x => x.2.cmd == some id) = false →
    waitsResume s.pkg id = false → earlierTranslating s.pkg id = false →
    (spill s.pkg (cmd s.pkg id).ctx (cmd s.pkg id).ring).tail.length < 16 → a.fault = none → a.waits = false → a.pages ≠ [] →
    moveReason (cmd a.pkg id) a.pages = none → moveInInset a.pkg (cmd a.pkg id) a.pages = false →
    waitTargetOk (cmd a.pkg id) a.pages = true → bit a.pkg ctsControl 0 = true →
    (ctsUsed a.pkg).length + a.pages.length ≤ ctsSize a.pkg →
    es = freeEntries (ctsUsed a.pkg) a.pages.length 0 ((ctsUsed a.pkg).length + a.pages.length) →
    ∃ t, exec (.commandTranslate id) s = .next t ∧ t.mem = (writeEntries a.pkg a.mem es).1 ∧
      (cmd t.pkg id).phase = .waiting ∧ (cmd t.pkg id).pages = giveEntries a.pages es) ∧
  (∀ (s : State) (id n : Nat), nextDispatch s.pkg = some (id, n) →
    (dOpcode (cmd s.pkg id).desc = 2 → (neededCrc s.pkg (cmd s.pkg id)).isSome = true) →
    ∃ t, exec .commandDispatch s = .next t ∧ t.mem = s.mem ∧ (ce t.pkg n).cmd = some id ∧
      (cmd t.pkg id).phase = .running ∧ (cmd t.pkg id).ces = [n] ∧ (cmd t.pkg id).desc = (cmd s.pkg id).desc) ∧
  (∀ (s : State) (id n : Nat), hasCmd s.pkg id = true → needsCe (cmd s.pkg id) = true → dPrio (cmd s.pkg id).desc = 0 →
    mayStart s.pkg id = true → preemptOpen s.pkg (cmd s.pkg id) = false → pickCe s.pkg id (fun _ => true) = none →
    bit s.pkg foldArea 0 = true → victimOf s.pkg (dPlace (cmd s.pkg id).desc) 2 = some n →
    ∃ t, exec (.preempt id) s = .next t ∧ (ce t.pkg n).preempt = true ∧ (ce t.pkg n).cmd = (ce s.pkg n).cmd ∧
      (cmd t.pkg id).preempting = some n ∧ t.mem = s.mem) ∧
  (∀ (s : State) (id n i : Nat), hasCmd s.pkg id = true → (cmd s.pkg id).phase = .preempted →
    (cmd s.pkg id).stale = false → dOpcode (cmd s.pkg id).desc = 3 → ready s.pkg pgQm = true → dispatchHeld s.pkg = false →
    pickCe s.pkg id (fun n => !wantedAbove s.pkg (servedClass (cmd s.pkg id)) n) = some n → (cmd s.pkg id).fold = some i → ∃ t, exec (.commandResume id) s = .next t ∧ t.mem = s.mem ∧ (ce t.pkg n).cmd = some id ∧
      (cmd t.pkg id).phase = .running ∧ (cmd t.pkg id).fold = none ∧
      (cmd t.pkg id).progress = s.mem.read (foldAddr s.pkg i) 1024 / 2 ^ 128 % 2 ^ 64) ∧
  (∀ (s : State) (ctx ring id : Nat), ringNext s.pkg ctx ring = some id → ringOk ctx ring = true → hasCmd s.pkg id = true →
    fld s.pkg (key pgQm 0x120) 15 0 ≠ 0 → dPrio (cmd s.pkg id).desc = 2 → (cmd s.pkg id).phase = .waiting →
    (cmd s.pkg id).ageFrom ≠ 0 →
    (cmd s.pkg id).ageFrom - 1 + 1000000 * fld s.pkg (key pgQm 0x120) 15 0 ≤ timerNow s.pkg →
    ∃ t, exec (.bulkAgeExpiry ctx ring) s = .next t ∧ servedClass (cmd t.pkg id) = 1 ∧ t.mem = s.mem)

/-- R301: a finished command's record is written at CQ_TAIL and the command, which holds no CE, is gone. R309: ABORT of
a ring without commands moves HEAD to TAIL, empties the pending queue and leaves ABORTING 0; the one waiting command of a ring it ends
ABORTED, with ABORTING set. R294:
RESTART clears STOPPED and OVERRUN and changes no other register. R312: a ring is configured while disabled. R742: CQ_HEAD moves no
further than CQ_TAIL. -/
def Obligations.RingsCompleteAbortAndRestart : Prop :=
  (∀ (s : State) (id : Nat) (x : Xlate) (m : Memory) (q : Pkg) (va : Nat), hasCmd s.pkg id = true →
    (cmd s.pkg id).phase = .finished → ready s.pkg pgQm = true → va = cqVa s.pkg (cmd s.pkg id).ctx (cmd s.pkg id).ring →
    pageOf s.pkg s.mem (cmd s.pkg id).ctx 1 (ringClass s.pkg (cmd s.pkg id).ctx (cmd s.pkg id).ring) true va = (.ok x, m, q) →
    fateFor q (idRing 0 0) (x.addr va) false = .served → s.pkg.ces.any (fun y => y.2.cmd == some id) = false →
    recordHeld q (x.addr va) = false → ∃ t, exec (.completionWrite id) s = .next t ∧
      t.mem = m.write (x.addr va) 32 (completionRecord q (cmd s.pkg id)) ∧ hasCmd t.pkg id = false) ∧
  (∀ (s : State) (rq : Requester) (ctx ring : Nat) (v : W32), ringOk ctx ring = true →
    writeFate s.pkg rq (ringPage ctx) (ringOff ring 0x28) = .accepted → bitsOf (v.setWidth 64 : W64) 1 0 = 1 →
    ringCmds s.pkg ctx ring = [] → ∃ t, exec (.ringAbort rq ctx ring v) s = .next t ∧ t.mem = s.mem ∧
      ringHead t.pkg ctx ring = ringTail s.pkg ctx ring ∧ (spill t.pkg ctx ring).depth = 0 ∧
      bit t.pkg (ringCfg ctx ring) 25 = false) ∧
  (∀ (s : State) (rq : Requester) (ctx ring id : Nat) (c : Cmd) (v : W32), ringOk ctx ring = true →
    writeFate s.pkg rq (ringPage ctx) (ringOff ring 0x28) = .accepted → bitsOf (v.setWidth 64 : W64) 1 0 = 1 →
    ringCmds s.pkg ctx ring = [(id, c)] → cmd s.pkg id = c → c.phase = .waiting →
    ∃ t, exec (.ringAbort rq ctx ring v) s = .next t ∧ t.mem = s.mem ∧ (cmd t.pkg id).phase = .finished ∧ (cmd t.pkg id).status = 0x40 ∧
      (cmd t.pkg id).detail = 1 ∧ bit t.pkg (ringCfg ctx ring) 25 = true) ∧
  (∀ (s : State) (rq : Requester) (ctx ring : Nat) (v : W32), ringOk ctx ring = true →
    writeFate s.pkg rq (ringPage ctx) (ringOff ring 0x28) = .accepted → bitsOf (v.setWidth 64 : W64) 1 0 = 2 →
    ∃ t, exec (.ringRestart rq ctx ring v) s = .next t ∧ ringStopped t.pkg ctx ring = false ∧
      bit t.pkg (ringCfg ctx ring) 26 = false ∧ (∀ k, k ≠ ringCfg ctx ring → reg t.pkg k = reg s.pkg k)) ∧
  (∀ (s : State) (rq : Requester) (ctx ring : Nat) (v : W32) (w : W64), ringOk ctx ring = true →
    writeFate s.pkg rq (ringPage ctx) (ringOff ring 0x18) = .accepted → bit s.pkg (ringCfg ctx ring) 31 = false →
    w = mergeWrite (rw4 0x158 (msk 31 28 + msk 20 16 + msk 12 8)) (reg s.pkg (ringCfg ctx ring)) (v.setWidth 64) →
    bitsOf w 29 28 ≠ 3 → 4 ≤ bitsOf w 20 16 → bitsOf w 20 16 ≤ 16 → 4 ≤ bitsOf w 12 8 → bitsOf w 12 8 ≤ 16 →
    ∃ t, exec (.ringConfigWrite rq ctx ring v) s = .next t ∧ reg t.pkg (ringCfg ctx ring) = w ∧
      ∀ k, k ≠ ringCfg ctx ring → reg t.pkg k = reg s.pkg k) ∧
  (∀ (s : State) (rq : Requester) (ctx ring old new : Nat) (v : W32), ringOk ctx ring = true →
    writeFate s.pkg rq (ringPage ctx) (ringOff ring 0x20) = .accepted → old = fld s.pkg (cqKey ctx ring) 15 0 →
    new = bitsOf (v.setWidth 64 : W64) 15 0 → ∃ t, exec (.cqHeadWrite rq ctx ring v) s = .next t ∧
      fld t.pkg (cqKey ctx ring) 15 0 =
        if (fld s.pkg (cqKey ctx ring) 31 16 + 65536 - old) % 65536 < (new + 65536 - old) % 65536 then old else new)

/-! ## Commands (spec/08, spec/09, spec/11) -/

/-- R287, R288: NOP completes at the head of its ring; a CHART_LOAD of a new handle enters the directory and begins the load of a slot of
the one CE in its scope from the image that it names (R196, R197). R199: a dispatched RUN starts with the slot current for its handle,
which becomes ACTIVE, and its units at their beginning. -/
def Obligations.NopsChartLoadsAndRunsStart : Prop :=
  (∀ (s : State) (id : Nat), opIs s.pkg id 0 = true → mayStart s.pkg id = true → ∃ t, exec (.cmdNop id) s = .next t ∧
    (cmd t.pkg id).phase = .finished ∧ (cmd t.pkg id).status = (if (cmd s.pkg id).repeats = 0 then 0 else 1) ∧
    t.mem = s.mem) ∧
  (∀ (s : State) (id n j : Nat) (c : Cmd) (pages : List Xlate) (l : List DirEnt), c = cmd s.pkg id →
    opIs s.pkg id 1 = true → mayStart s.pkg id = true → pages = (c.pages.filter (fun x => x.1 == 0)).map (·.2) →
    poisonAt s.mem pages (dOperand c.desc 0).addr 64 = false →
    leAt (bytesAt s.mem pages (dOperand c.desc 0).addr 64) 4 4 ≤ (dOperand c.desc 0).extent →
    dirFind s.pkg c.ctx (dHandle c.desc) = none →
    dirAccept s.pkg c.ctx id ⟨dHandle c.desc, (dOperand c.desc 0).addr, pages,
      leAt (bytesAt s.mem pages (dOperand c.desc 0).addr 64) 60 4, s.pkg.qm.nextOrder⟩ = some l →
    scopeCes s.pkg (dPlace c.desc) = [n] → currentSlot (ce s.pkg n) (dHandle c.desc) = none →
    (List.range 4).any (fun i => (slot (ce s.pkg n) i).state == 1) = false → loadSlot s.pkg n = some j →
    ∃ t, exec (.chartLoad id) s = .next t ∧ t.mem = s.mem ∧ dirOf t.pkg c.ctx = l ∧ (cmd t.pkg id).phase = .running ∧
      (slot (ce t.pkg n) j).state = 1 ∧ (slot (ce t.pkg n) j).handle = dHandle c.desc ∧
      (slot (ce t.pkg n) j).va = (dOperand c.desc 0).addr ∧ (slot (ce t.pkg n) j).pages = pages ∧
      (slot (ce t.pkg n) j).forCmd = id) ∧
  (∀ (s : State) (id n i : Nat) (rest : List Nat) (c : Cmd), c = cmd s.pkg id → opIs s.pkg id 2 = true →
    c.phase = .running → c.ces = n :: rest → c.fold = none → loadingFor s.pkg id n = false →
    (ce s.pkg n).loadOwed = false → currentSlot (ce s.pkg n) (dHandle c.desc) = some i → (ce s.pkg n).cmd = some id →
    (slot (ce s.pkg n) (activeSlot s.pkg n)).state ≠ 3 → runReason c (slot (ce s.pkg n) i).chart = 0 →
    ∃ t, exec (.run id) s = .next t ∧ t.mem = s.mem ∧ (slot (ce t.pkg n) i).state = 3 ∧ (ce t.pkg n).progress = [] ∧
      (ce t.pkg n).long = [] ∧ reg t.pkg (key (pgCe n) 0x108) = (slot (ce s.pkg n) i).handle ∧
      (cmd t.pkg id).phase = .running)

/-- R397, R398: a MOVE_TILE copies its last line into the open packet of its store mover, which closes with it, in both modes. R400: the
switch of a MOVE whose copy is done rewrites the leaf entries, completes the command and frees its CE. R284, R299: a reduction whose
sources lie in this package puts the sums of its last batch of records into packets of its CE and counts the records, in its three
forms. -/
def Obligations.MovesAndReductionsAdvance : Prop :=
  (∀ (s : State) (id n k : Nat) (rest : List Nat) (c : Cmd) (x y : Xlate) (a : Nat × CLine) (m : Mover) (mode : Nat)
    (l : PLine), c = cmd s.pkg id → opIs s.pkg id 3 = true → dField c.desc 34 1 = mode → mode < 2 → c.phase = .running → c.ces = n :: rest →
    (ce s.pkg n).cmd = some id → ceLive s.pkg n = true → k = c.progress → moveLines c = k + 1 → (k + 1) % 1024 ≠ 0 →
    cmdXlate c 0 (moveVa c 0 k) = some x → cmdXlate c 1 (moveVa c 1 k) = some y → y.writable = true →
    (ce s.pkg n).arrived.find? (fun z => z.1 == k % 2 && z.2.line == x.addr (moveVa c 0 k) / 64) = some a →
    a.2.poison = false → m = mover (ce s.pkg n) (2 + k % 2) →
    l = ⟨y.addr (moveVa c 1 k), a.2.data, false, (dOperand c.desc 1).slm == 2, n, 2 + k % 2, false, false⟩ →
    ((mode = 0 → ∃ t, exec (.moveTileCopy id) s = .next t ∧ t.mem = s.mem ∧ (cmd t.pkg id).progress = k + 1 ∧
       (mover (ce t.pkg n) (2 + k % 2)).closed = m.closed ++ [m.packet ++ [l]]) ∧
     (mode = 1 → ∃ t, exec (.moveTileMove id) s = .next t ∧ t.mem = s.mem ∧ (cmd t.pkg id).progress = k + 1 ∧
       (mover (ce t.pkg n) (2 + k % 2)).closed = m.closed ++ [m.packet ++ [l]]))) ∧
  (∀ (s : State) (id n : Nat) (rest : List Nat) (c : Cmd) (m : Memory) (q : Pkg), c = cmd s.pkg id →
    opIs s.pkg id 3 = true → dField c.desc 34 1 = 1 → c.phase = .running → c.ces = n :: rest → (ce s.pkg n).cmd = some id →
    ceLive s.pkg n = true → moveDone s.pkg id n = true → c.status ≠ 0x10 →
    (switchPairs c).any (fun z => fateFor s.pkg (idRing 0 0) z.1.pte false == .waits) = false →
    (switchPairs c).any (fun z => hostHolds s.pkg z.1.pte) = false →
    switchEntries (switchPairs c) s.mem s.pkg = (true, m, q) → ∃ t, exec (.moveSwitch id) s = .next t ∧ t.mem = m ∧
      (cmd t.pkg id).phase = .finished ∧ (ce t.pkg n).cmd = none) ∧
  (∀ (s : State) (id n k v : Nat) (c : Cmd) (q : Pkg) (ls : List PLine) (w : Part), c = cmd s.pkg id →
    opIs s.pkg id 4 = true → c.phase = .running → ceOf s.pkg id = some n → ceLive s.pkg n = true → packetsDone s.pkg n = true →
    w = (if reduceAlgo c.desc = 0 then localPart c else collPart s.pkg c) → (reduceAlgo c.desc ≠ 0 → c.collPhase ≠ 0) →
    k = w.count - c.progress → c.progress < w.count → c.progress % 4096 + k < 4096 →
    farLines s.pkg c w (w.first + c.progress) k = [] →
    partOut s.pkg s.mem c false w (w.first + c.progress) k = (some (v, none), q) →
    batchPackets s.mem c n w ((w.first + c.progress) * partBits c w) (k * partBits c w) v = some ls → ls ≠ [] →
    (reduceAlgo c.desc = 0 → ∃ t, exec (.reduce id) s = .next t ∧ t.mem = s.mem ∧ (cmd t.pkg id).progress = w.count ∧
      (mover (ce t.pkg n) 2).closed = (mover (ce q n) 2).closed ++ chunk 8 ls) ∧
    (reduceAlgo c.desc = 1 → ∃ t, exec (.allReduce id) s = .next t ∧ t.mem = s.mem ∧ (cmd t.pkg id).progress = w.count ∧
      (mover (ce t.pkg n) 2).closed = (mover (ce q n) 2).closed ++ chunk 8 ls) ∧
    (reduceAlgo c.desc = 2 → ∃ t, exec (.reduceScatter id) s = .next t ∧ t.mem = s.mem ∧
      (cmd t.pkg id).progress = w.count ∧ (mover (ce t.pkg n) 2).closed = (mover (ce q n) 2).closed ++ chunk 8 ls))

/-- R306: a signal of a semaphore in HBM is one atomic at its home and completes. R307, R378: a wait completes when its condition holds,
at once, when its watched word is written or at a poll, and else runs on. R308, R325: a barrier completes when the commands before it
have, a REMOTE_FENCE when no write of its ring awaits its acknowledgement, with WINDOW_FAULT where one was undeliverable, and
an INVALIDATE_L1 whose CEs run nothing invalidates them and completes. -/
def Obligations.SemaphoresBarriersAndFencesComplete : Prop :=
  (∀ (s u : State) (id pa st o : Nat) (x : Xlate), opIs s.pkg id 5 = true → mayStart s.pkg id = true →
    semAddr (cmd s.pkg id) = some (x, pa) → x.writable = true → region pa = .hbm st o →
    atomAt pa (dField (cmd s.pkg id).desc 40 1) (semValue (cmd s.pkg id))
      (idRing (cmd s.pkg id).ctx (cmd s.pkg id).ring) pgQm none s = (.done, u) →
    ∃ t, exec (.semSignal id) s = .next t ∧ t.mem = u.mem ∧ (cmd t.pkg id).phase = .finished) ∧
  (∀ (s : State) (id pa v : Nat) (x : Xlate) (q : Pkg), opIs s.pkg id 6 = true → mayStart s.pkg id = true →
    semAddr (cmd s.pkg id) = some (x, pa) →
    qmRead s.pkg s.mem pa 8 (ringClass s.pkg (cmd s.pkg id).ctx (cmd s.pkg id).ring) = (.bytes v, q) →
    ∃ t, exec (.semWait id) s = .next t ∧ t.mem = s.mem ∧
      (if semHolds (cmd s.pkg id) (BitVec.ofNat 64 v) = true then (cmd t.pkg id).phase = .finished
       else (cmd t.pkg id).phase = .running)) ∧
  (∀ (s : State) (id pa v : Nat) (x : Xlate) (q : Pkg), opIs s.pkg id 6 = true → (cmd s.pkg id).phase = .running →
    semAddr (cmd s.pkg id) = some (x, pa) →
    qmRead s.pkg s.mem pa 8 (ringClass s.pkg (cmd s.pkg id).ctx (cmd s.pkg id).ring) = (.bytes v, q) →
    semHolds (cmd s.pkg id) (BitVec.ofNat 64 v) = true →
    ((cmd s.pkg id).watching = true → ∃ t, exec (.semWaitSatisfied id) s = .next t ∧ t.mem = s.mem ∧
      (cmd t.pkg id).phase = .finished) ∧
    ((cmd s.pkg id).watching = false → ∃ t, exec (.semPoll id) s = .next t ∧ t.mem = s.mem ∧
      (cmd t.pkg id).phase = .finished)) ∧
  (∀ (s : State) (id : Nat), opIs s.pkg id 7 = true → mayStart s.pkg id = true → earlierInRing s.pkg (cmd s.pkg id) = false →
    (dField (cmd s.pkg id).desc 32 1 = 1 → earlierInCtx s.pkg id (cmd s.pkg id) = false) →
    ∃ t, exec (.barrier id) s = .next t ∧ t.mem = s.mem ∧ (cmd t.pkg id).phase = .finished) ∧
  (∀ (s : State) (id : Nat) (c : Cmd), c = cmd s.pkg id → opIs s.pkg id 8 = true → mayStart s.pkg id = true →
    earlierInRing s.pkg c = false →
    s.pkg.rt.acc.any (fun x => x.2.ring == ringId c.ctx c.ring && x.2.msg.op != 1) = false →
    ∃ t, exec (.remoteFence id) s = .next t ∧ t.mem = s.mem ∧ (cmd t.pkg id).phase = .finished ∧
      (SMap.get s.pkg.qm.remoteFail (ringId c.ctx c.ring) 0 ≠ 0 → (cmd t.pkg id).status = 0x21)) ∧
  (∀ (s : State) (id : Nat), opIs s.pkg id 9 = true → mayStart s.pkg id = true →
    (∀ n ∈ scopeCes s.pkg (dPlace (cmd s.pkg id).desc), (ce s.pkg n).cmd = none) →
    ∃ t, exec (.invalidateL1 id) s = .next t ∧ (cmd t.pkg id).phase = .finished ∧ t.mem = s.mem ∧
      ∀ n ∈ scopeCes s.pkg (dPlace (cmd s.pkg id).desc), (ce t.pkg n).l1 = [] ∧ (ce t.pkg n).side = [])

/-! ## Harts (spec/09, spec/12) -/

/-- R318, R416, R422 to R425, R428: once its address is translated and permitted, a load of a hart gives what the newest buffered store
to its bytes holds, or the line that its caches hold; a store enters the buffer; an access that is not permitted writes nothing and
takes its exception; the oldest store leaves the buffer for memory once its hart owns the line. A vector load or store of one element
ends with vstart 0, or at the element's exception with vstart its number.
R330, R457, R458: an atomic on a line that its hart owns writes its new value and gives the old one, LR reserves the line, SC writes
only under its reservation. -/
def Obligations.HartsLoadStoreAndUpdateMemory : Prop :=
  ((∀ (s : State) (h pa size rd : Nat) (ctl : CoreCtl) (va : W64) (signed : Bool) (m : Memory) (q : Pkg),
    mayExecute s.pkg h = true → sizeOk size = true → size ≤ 8 - va.toNat % 8 → cacheable pa = true →
    xlatePieces (accOf h ctl false) [(va.toNat, size, 0)] (executesWith s.pkg h ctl) s.mem =
      (.ok [⟨va.toNat, pa, size, 0, false⟩], m, q) →
    newestOverlap (hart q h).sb pa size = none → h ∈ (dirLine q (pa / 64)).harts →
    m.poisoned (pa / 64 * 64) 64 = false → 0 < rd →
    ∃ t, exec (.coreLoad h ctl va size rd signed none) s = .next t ∧ t.mem = m ∧
      SMap.get (hart t.pkg h).x rd 0 = loadValue (m.read pa size) size signed) ∧
  (∀ (s : State) (h pa size rd : Nat) (ctl : CoreCtl) (va : W64) (signed nc : Bool) (m : Memory) (q : Pkg) (e : StoreEnt),
    mayExecute s.pkg h = true → sizeOk size = true → size ≤ 8 - va.toNat % 8 → cacheable pa = true →
    xlatePieces (accOf h ctl false) [(va.toNat, size, 0)] (executesWith s.pkg h ctl) s.mem =
      (.ok [⟨va.toNat, pa, size, 0, nc⟩], m, q) →
    newestOverlap (hart q h).sb pa size = some e → e.covers pa size = true → 0 < rd →
    ∃ t, exec (.coreLoad h ctl va size rd signed none) s = .next t ∧ t.mem = m ∧
      SMap.get (hart t.pkg h).x rd 0 =
        loadValue (e.data.toNat / 2 ^ (8 * (pa % 64)) % 2 ^ (8 * size)) size signed) ∧
  (∀ (s : State) (h pa size vreg : Nat) (ctl : CoreCtl) (va value : W64) (nc : Bool) (m : Memory) (q : Pkg),
    mayExecute s.pkg h = true → sizeOk size = true → size ≤ 8 - va.toNat % 8 → cacheable pa = true →
    xlatePieces (accOf h ctl true) [(va.toNat, size, 0)] (executesWith s.pkg h ctl) s.mem =
      (.ok [⟨va.toNat, pa, size, 0, nc⟩], m, q) → (hart q h).sb.length < 64 →
    ∃ t, exec (.coreStore h ctl va size value vreg none) s = .next t ∧ t.mem = m ∧
      (hart t.pkg h).sb = bufferStore (hart q h).sb pa size value.toNat nc) ∧
  (∀ (s : State) (h size rd vreg cause : Nat) (ctl : CoreCtl) (va value v : W64) (signed write : Bool) (m : Memory) (q : Pkg),
    mayExecute s.pkg h = true → sizeOk size = true →
    xlatePieces (accOf h ctl write) (pieces va size) (countSplit (executesWith s.pkg h ctl) h (pieces va size)) s.mem =
      (.fault cause v, m, q) →
    ∃ t, exec (if write then .coreStore h ctl va size value vreg none else .coreLoad h ctl va size rd signed none) s = .next t ∧
      t.mem = m ∧ (hart t.pkg h).sb = (hart q h).sb ∧ (hart t.pkg h).x = (hart q h).x ∧
      (hart t.pkg h).xcause = some cause ∧ (hart t.pkg h).xtval = v) ∧
  (∀ (s : State) (h : Nat) (e : StoreEnt) (rest : List StoreEnt), h < 48 → (hart s.pkg h).sb = e :: rest →
    0 < e.mask → e.mask < 2 ^ 64 → e.nc = false → (dirLine s.pkg e.pa).owner = some h →
    ∃ t, exec (.storeBufferDrain ⟨h, 0, 255⟩) s = .next t ∧ (hart t.pkg h).sb = rest ∧
      t.mem = writeBytes s.mem (e.pa * 64) e.data (BitVec.ofNat 64 e.mask)) ∧
  (∀ (s t0 u : State) (h size rd i : Nat) (ctl : CoreCtl) (va w : W64) (signed : Bool) (a : VecArgs) (r : AccEnd),
    mayExecute s.pkg h = true → sizeOk size = true → t0 = s.onPkg (fun p => executesWith p h ctl) → a.elems = [(i, w)] →
    a.first = false → (csr t0.pkg h 0x008).toNat ≤ i →
    loadOnce h ctl w size (.vecLoad h a.vreg i size w) (fun v p => setElem p h a.vreg i size v) t0 = (r, u) →
    (r = .done → ∃ t, exec (.coreLoad h ctl va size rd signed (some a)) s = .next t ∧ t.mem = u.mem ∧ csr t.pkg h 0x008 = 0) ∧
    (∀ cause v, r = .fault cause v → ∃ t, exec (.coreLoad h ctl va size rd signed (some a)) s = .next t ∧ t.mem = u.mem ∧
      csr t.pkg h 0x008 = BitVec.ofNat 64 i ∧ (hart t.pkg h).xcause = some cause ∧ (hart t.pkg h).xtval = v)) ∧
  (∀ (s t0 u : State) (h size vreg i : Nat) (ctl : CoreCtl) (va w value : W64) (r : AccEnd),
    mayExecute s.pkg h = true → sizeOk size = true → t0 = s.onPkg (fun p => executesWith p h ctl) →
    (csr t0.pkg h 0x008).toNat ≤ i → storeOnce h ctl w size (vecElem t0.pkg h vreg i size) t0 = (r, u) →
    (r = .done → ∃ t, exec (.coreStore h ctl va size value vreg (some [(i, w)])) s = .next t ∧ t.mem = u.mem ∧
      csr t.pkg h 0x008 = 0 ∧ (hart t.pkg h).sb = (hart u.pkg h).sb) ∧
    (∀ cause v, r = .fault cause v → ∃ t, exec (.coreStore h ctl va size value vreg (some [(i, w)])) s = .next t ∧
      t.mem = u.mem ∧ csr t.pkg h 0x008 = BitVec.ofNat 64 i ∧ (hart t.pkg h).xcause = some cause ∧
      (hart t.pkg h).xtval = v))) ∧
  (∀ (s : State) (h pa size rd : Nat) (ctl : CoreCtl) (op : AmoOp) (va value : W64) (rel nc : Bool) (m : Memory) (q : Pkg),
    mayExecute s.pkg h = true → size = 4 ∨ size = 8 → va.toNat % size = 0 → cacheable pa = true →
    xlatePieces (accOf h ctl (op != .lr)) [(va.toNat, size, 0)] (executesWith s.pkg h ctl) s.mem =
      (.ok [⟨va.toNat, pa, size, 0, nc⟩], m, q) →
    (hart q h).sb = [] → (dirLine q (pa / 64)).owner = some h → m.poisoned (pa / 64 * 64) 64 = false → 0 < rd →
    (op ≠ .lr → op ≠ .sc → ∃ t, exec (.coreAmo h ctl op va size rd value rel) s = .next t ∧
      t.mem = m.write pa size (amoValue op size (m.read pa size) (value.toNat % 2 ^ (8 * size))) ∧
      SMap.get (hart t.pkg h).x rd 0 = loadValue (m.read pa size) size true) ∧
    (op = .lr → ∃ t, exec (.coreAmo h ctl op va size rd value rel) s = .next t ∧ t.mem = m ∧
      (hart t.pkg h).resv = some (pa / 64) ∧ SMap.get (hart t.pkg h).x rd 0 = loadValue (m.read pa size) size true) ∧
    (op = .sc → (hart q h).resv = some (pa / 64) → (hart q h).delayed = [] →
      ∃ t, exec (.coreAmo h ctl op va size rd value rel) s = .next t ∧
        t.mem = m.write pa size (value.toNat % 2 ^ (8 * size)) ∧ SMap.get (hart t.pkg h).x rd 0 = 0 ∧
        (hart t.pkg h).resv = none) ∧
    (op = .sc → (hart q h).resv ≠ some (pa / 64) → (hart q h).delayed = [] →
      ∃ t, exec (.coreAmo h ctl op va size rd value rel) s = .next t ∧ t.mem = m ∧
        SMap.get (hart t.pkg h).x rd 0 = 1))

/-- R328: a FENCE with w among its predecessors, and FENCE.TSO, write out the hart's one buffered store of a line that it owns, and a
FENCE without w writes nothing. R420, R426, R427: FENCE.I empties the hart's instruction cache and SFENCE.VMA its translation cache,
each alone. R419, R421: with the address translated and none of the hart's stores to the line buffered, a cache-block clean keeps the
line's holders and its value, flush and invalidate give the hart's copy up, zero enters the buffer as one store of 64 zero bytes; a
PREFETCH.I of a line that the hart holds puts it into the instruction cache, and one that is not translated does nothing, neither with
an exception. -/
def Obligations.FencesAndCacheBlocksActOnOneHart : Prop :=
  (∀ (s : State) (h pred succ : Nat) (e : StoreEnt), mayExecute s.pkg h = true → (hart s.pkg h).sb = [e] →
    0 < e.mask → e.mask < 2 ^ 64 → e.nc = false → (dirLine s.pkg e.pa).owner = some h →
    (pred.testBit 0 = true → ∃ t, exec (.fence h pred succ) s = .next t ∧ (hart t.pkg h).sb = [] ∧
      t.mem = writeBytes s.mem (e.pa * 64) e.data (BitVec.ofNat 64 e.mask)) ∧
    (pred.testBit 0 = false → ∃ t, exec (.fence h pred succ) s = .next t ∧ (hart t.pkg h).sb = [e] ∧ t.mem = s.mem) ∧
    (∃ t, exec (.fenceTso h) s = .next t ∧ (hart t.pkg h).sb = [] ∧
      t.mem = writeBytes s.mem (e.pa * 64) e.data (BitVec.ofNat 64 e.mask))) ∧
  (∀ (s : State) (h : Nat), mayExecute s.pkg h = true → ∃ t, exec (.fenceI h) s = .next t ∧ (hart t.pkg h).icache = [] ∧
    (hart t.pkg h).tlb = (hart s.pkg h).tlb ∧ (hart t.pkg h).sb = (hart s.pkg h).sb ∧ t.mem = s.mem) ∧
  (∀ (s : State) (h : Nat), mayExecute s.pkg h = true → ∃ t, exec (.sfenceVma h) s = .next t ∧ (hart t.pkg h).tlb = [] ∧
    (hart t.pkg h).icache = (hart s.pkg h).icache ∧ (hart t.pkg h).sb = (hart s.pkg h).sb ∧ t.mem = s.mem) ∧
  (∀ (s : State) (h pa : Nat) (ctl : CoreCtl) (va : W64) (nc : Bool) (m : Memory) (q : Pkg), mayExecute s.pkg h = true →
    cacheable pa = true →
    xlatePieces { accOf h ctl true with mgmt := true, mark := false } [(va.toNat, 1, 0)] (executesWith s.pkg h ctl) s.mem =
      (.ok [⟨va.toNat, pa, 1, 0, nc⟩], m, q) →
    (hart q h).sb.any (fun e => e.pa == pa / 64) = false →
    (∃ t, exec (.cboClean h ⟨ctl, va⟩) s = .next t ∧ t.mem = m ∧ dirLine t.pkg (pa / 64) = dirLine q (pa / 64)) ∧
    (∃ t, exec (.cboFlush h ⟨ctl, va⟩) s = .next t ∧ t.mem = m ∧ h ∉ (dirLine t.pkg (pa / 64)).harts) ∧
    (∃ t, exec (.cboInval h ⟨ctl, va⟩) s = .next t ∧ t.mem = m ∧ h ∉ (dirLine t.pkg (pa / 64)).harts)) ∧
  (∀ (s : State) (h pa : Nat) (ctl : CoreCtl) (va : W64) (nc : Bool) (m : Memory) (q : Pkg), mayExecute s.pkg h = true →
    cacheable pa = true →
    xlatePieces (accOf h ctl true) [(va.toNat / 64 * 64, 64, 0)] (executesWith s.pkg h ctl) s.mem =
      (.ok [⟨va.toNat / 64 * 64, pa, 64, 0, nc⟩], m, q) → (hart q h).sb.length < 64 →
    ∃ t, exec (.cboZero h ⟨ctl, va⟩) s = .next t ∧ t.mem = m ∧
      (hart t.pkg h).sb = (hart q h).sb ++ [⟨pa / 64, 2 ^ 64 - 1, 0, nc, true⟩]) ∧
  (∀ (s : State) (h pa : Nat) (ctl : CoreCtl) (va : W64) (nc : Bool) (m : Memory) (q : Pkg), mayExecute s.pkg h = true →
    cacheable pa = true →
    xlatePieces { accOf h ctl false with mark := false } [(va.toNat, 1, 0)] (executesWith s.pkg h ctl) s.mem =
      (.ok [⟨va.toNat, pa, 1, 0, nc⟩], m, q) → h ∈ (dirLine q (pa / 64)).harts →
    ∃ t, exec (.corePrefetch h ⟨ctl, va⟩ 2) s = .next t ∧ t.mem = m ∧
      pa / 64 ∈ (hart t.pkg h).icache ∧ (hart t.pkg h).xcause = (hart q h).xcause) ∧
  (∀ (s : State) (h cause : Nat) (ctl : CoreCtl) (va v : W64) (m : Memory) (q : Pkg), mayExecute s.pkg h = true →
    xlatePieces { accOf h ctl false with mark := false } [(va.toNat, 1, 0)] (executesWith s.pkg h ctl) s.mem =
      (.fault cause v, m, q) →
    ∃ t, exec (.corePrefetch h ⟨ctl, va⟩ 2) s = .next t ∧ t.mem = m ∧ t.pkg = q)

/-- R441 to R443: HOLD stops a running hart without its reservation; once its stores have drained it is HELD, or starts where a START
waited. R438, R442: START makes a held hart run in M-mode at its entry with its number and argument, without translation, enabled
interrupts or PMP entries. R430 to R432: a message sets the identity's pending bit in the file of the hart, one with a field outside
its range nothing. R433: the APLIC is reached through its index and data registers. R444: WFI sets a running hart's state. -/
def Obligations.HartsHoldStartAndTakeMessages : Prop :=
  (∀ (s : State) (rq : Requester) (c j : Nat) (v : W32), c < 12 → j < 4 →
    writeFate s.pkg rq (pgCc c + 1) 0x104 = .accepted → (v.setWidth 64 : W64) = BitVec.ofNat 64 (2 ^ (8 * j)) →
    hartState s.pkg (4 * c + j) = 1 → (hart s.pkg (4 * c + j)).holding = false → ∃ t, exec (.hold rq c v) s = .next t ∧
      (hart t.pkg (4 * c + j)).holding = true ∧ (hart t.pkg (4 * c + j)).resv = none ∧ t.mem = s.mem ∧
      hartState t.pkg (4 * c + j) = 1) ∧
  (∀ (s : State) (h : Nat), h < 48 → (hart s.pkg h).holding = true → (hart s.pkg h).sb = [] →
    ∃ t, exec (.hartHeld h) s = .next t ∧ (hart t.pkg h).holding = false ∧ (hart t.pkg h).resv = none ∧ t.mem = s.mem ∧
      hartState t.pkg h = if (hart s.pkg h).starting = true then 1 else 0) ∧
  (∀ (s : State) (rq : Requester) (c j h : Nat) (v : W32), c < 12 → j < 4 → h = 4 * c + j →
    writeFate s.pkg rq (pgCc c + 1) 0x104 = .accepted → (v.setWidth 64 : W64) = BitVec.ofNat 64 (2 * 2 ^ (8 * j)) →
    hartState s.pkg h = 0 → (hart s.pkg h).holding = false → ∃ t, exec (.start rq c v) s = .next t ∧ t.mem = s.mem ∧
      hartState t.pkg h = 1 ∧ (hart t.pkg h).mMode = true ∧
      (hart t.pkg h).pc = fld s.pkg (key (pgCc c + 1) 0x108) 51 2 * 4 ∧
      SMap.get (hart t.pkg h).x 10 0 = BitVec.ofNat 64 h ∧
      SMap.get (hart t.pkg h).x 11 0 = reg s.pkg (key (pgCc c + 1) 0x110) ∧
      csr t.pkg h 0x180 = 0 ∧ csr t.pkg h 0x680 = 0 ∧ csr t.pkg h 0x304 = 0 ∧ csr t.pkg h 0x3A0 = 0 ∧
      csr t.pkg h 0x3A2 = 0 ∧ bitOf (csr t.pkg h 0x300) 3 = false) ∧
  (∀ (s : State) (rq : Requester) (c h file n : Nat) (v : W32), c < 12 →
    h = bitsOf (v.setWidth 64 : W64) 31 26 → file = bitsOf (v.setWidth 64 : W64) 25 22 →
    n = bitsOf (v.setWidth 64 : W64) 10 0 →
    (writeFate s.pkg rq (pgCc c) 0x104 = .accepted → ∃ t, exec (.ccMsgSend rq c v) s = .next t ∧ t.mem = s.mem ∧
      t.pkg.int.eip = if h < 48 ∧ n ≠ 0 ∧ 1 ≤ file ∧ file ≤ 8 then SMap.set s.pkg.int.eip (eipKey h file n) true
        else s.pkg.int.eip) ∧
    (writeFate s.pkg rq (pgCc c + 1) 0x100 = .accepted → ∃ t, exec (.ccMsgSendM rq c v) s = .next t ∧ t.mem = s.mem ∧
      t.pkg.int.eip = if h < 48 ∧ n ≠ 0 ∧ file = 0 then SMap.set s.pkg.int.eip (eipKey h file n) true
        else s.pkg.int.eip)) ∧
  (∀ (s : State) (rq : Requester) (v : W32), writeFate s.pkg rq (pgCc 0) 0x10C = .accepted →
    ∃ t, exec (.aplicAccess rq true v) s = .next t ∧ t.mem = s.mem ∧
      t.pkg.aplic = (apWrite s.pkg (apIndex s.pkg) v).aplic ∧ t.pkg.regs = s.pkg.regs) ∧
  (∀ (s : State) (rq : Requester) (v : W32), present s.pkg (pgCc 0) = true → ready s.pkg (pgCc 0) = true →
    ∃ t, exec (.aplicAccess rq false v) s = .next t ∧ t.mem = s.mem ∧
      t.pkg.out = .readData (key (pgCc 0) 0x10C) ((apRead s.pkg (apIndex s.pkg)).setWidth 64) :: s.pkg.out) ∧
  (∀ (s : State) (h : Nat), hartRuns s.pkg h = true → ∃ t, exec (.wfi h) s = .next t ∧ hartState t.pkg h = 2 ∧
    hart t.pkg h = hart s.pkg h ∧ t.mem = s.mem)

/-! ## The L1 and the SLM (spec/10) -/

/-- R327, R351, R364, R369 to R372: a line that returns from its home reaches the one load that asked for it and waits no more;
INVALIDATE empties the L1 of a CE without a command, and waits for the boundary of one that runs; a pin clear unpins every line; a
new TARGET starts a partition change, whose end, on a sheet that is not halted, makes it CURRENT with the converted bytes zero and
no other byte changed.
R306, R307, R374 to R376, R459: ADD64 and SET64 write one aligned word and RADD one record at the home that serves them, and no
other byte; a watch joins its home's table of 64. -/
def Obligations.TheL1TheSlmAndItsReductionUnitsServe : Prop :=
  ((∀ (s : State) (n line : Nat) (x : Miss) (q : Pkg), ceOk n = true →
    (ce s.pkg n).misses.find? (fun y => y.line == line) = some x → x.pf = false →
    (ce s.pkg n).misses.filter (fun y => y.line == line) = [x] → fateFor s.pkg (idCe n) (line * 64) false = .served →
    (x.tag = 0 ∨ readsOlder s.pkg x.tag = false) → line * 64 < 0x10000000000000 → homeRead s.pkg (line * 64) x.cls x.hint none = (true, q) →
    ∃ t, exec (.lineReturn n line) s = .next t ∧ t.mem = s.mem ∧
      (ce t.pkg n).arrived =
        (ce s.pkg n).arrived ++ [(x.mu, ⟨line, s.mem.line (line * 64), s.mem.poisoned (line * 64) 64, 0⟩)] ∧
      (ce t.pkg n).misses.any (fun y => y.line == line) = false) ∧
  (∀ (s : State) (rq : Requester) (n : Nat) (v : W32), ceOk n = true → writeFate s.pkg rq (pgCe n) 0x180 = .accepted →
    bitsOf (v.setWidth 64 : W64) 7 5 ≤ 4 → bitOf (v.setWidth 64 : W64) 3 = true →
    ∃ t, exec (.l1Invalidate rq n v) s = .next t ∧ t.mem = s.mem ∧
      (if (ce s.pkg n).cmd = none then (ce t.pkg n).l1 = [] ∧ (ce t.pkg n).side = [] ∧ bit t.pkg (l1Status n) 31 = false
       else (ce t.pkg n).laterInv = true ∧ (ce t.pkg n).l1 = (ce s.pkg n).l1 ∧ bit t.pkg (l1Status n) 31 = true)) ∧
  (∀ (s : State) (rq : Requester) (sl : Nat) (v : W32), sl < 256 → writeFate s.pkg rq (pgSl sl) 0x108 = .accepted →
    bitOf (v.setWidth 64 : W64) 0 = true → ∃ t, exec (.slmPinClear rq sl v) s = .next t ∧ t.mem = s.mem ∧
      (tagsOf t.pkg sl).all (fun x => !x.2.pinned) = true ∧ reg t.pkg (key (pgSl sl) 0x138) = 0 ∧
      (tagsOf t.pkg sl).map (fun x => (x.1, x.2.line)) = (tagsOf s.pkg sl).map (fun x => (x.1, x.2.line))) ∧
  (∀ (s : State) (rq : Requester) (quad n : Nat) (v : W32), quad < 32 → writeFate s.pkg rq (pgQd quad) 0x180 = .accepted →
    n = bitsOf (v.setWidth 64 : W64) 4 0 → n ≤ 16 → bit s.pkg (partKey quad) 31 = false →
    (foldIn s.pkg quad = true → n = 16) → n ≠ fld s.pkg (partKey quad) 20 16 →
    ∃ t, exec (.partitionWrite rq quad v) s = .next t ∧ bit t.pkg (partKey quad) 31 = true ∧
      fld t.pkg (partKey quad) 4 0 = n ∧ fld t.pkg (partKey quad) 20 16 = fld s.pkg (partKey quad) 20 16 ∧ t.mem = s.mem) ∧
  (∀ (s : State) (quad : Nat), quad < 32 → stepping s.pkg (quad / 8) = true → bit s.pkg (partKey quad) 31 = true →
    ∃ t, exec (.partitionChangeDone quad) s = .next t ∧
      t.mem = zeroWays (converting s.pkg quad).1 (converting s.pkg quad).2 quad s.mem ∧
      bit t.pkg (partKey quad) 31 = false ∧ fld t.pkg (partKey quad) 20 16 = fld s.pkg (partKey quad) 4 0) ∧
  (∀ (lo hi quad a : Nat) (m : Memory), inConverting lo hi quad a = true → (zeroWays lo hi quad m).byte a = 0) ∧
  (∀ (lo hi quad a : Nat) (m : Memory), inConverting lo hi quad a = false → (zeroWays lo hi quad m).byte a = m.byte a)) ∧
  ((∀ (s : State) (pa : Nat) (v : W64), pa % 8 = 0 → fateFor s.pkg 0 pa false = .served → hostHolds s.pkg pa = false →
    s.mem.poisoned pa 8 = false → ∃ t, exec (.add64 pa v) s = .next t ∧
      t.mem = s.mem.write pa 8 (BitVec.ofNat 64 (s.mem.read pa 8) + v).toNat ∧
      ∀ a, a < pa ∨ pa + 8 ≤ a → t.mem.byte a = s.mem.byte a) ∧
  (∀ (s : State) (pa : Nat) (v : W64), pa % 8 = 0 → fateFor s.pkg 0 pa false = .served → hostHolds s.pkg pa = false →
    ∃ t, exec (.set64 pa v) s = .next t ∧ t.mem = s.mem.write pa 8 v.toNat ∧
      ∀ a, a < pa ∨ pa + 8 ≤ a → t.mem.byte a = s.mem.byte a) ∧
  (∀ (s : State) (pa : Nat) (r : Rec), pa % 16 = 0 → fateFor s.pkg 0 pa false = .served →
    fateFor s.pkg 0 (radd2 pa) false = .served →
    hostHolds s.pkg pa = false → hostHolds s.pkg (radd2 pa) = false → s.mem.poisoned pa 80 = false →
    ∃ t, exec (.radd pa r) s = .next t ∧ t.mem = s.mem.write pa 80 (recAdd (s.mem.record pa) r).toNat ∧
      ∀ a, a < pa ∨ pa + 80 ≤ a → t.mem.byte a = s.mem.byte a) ∧
  (∀ (s : State) (pa id : Nat), hasCmd s.pkg id = true → dOpcode (cmd s.pkg id).desc = 6 → (cmd s.pkg id).phase = .running →
    (cmd s.pkg id).watching = false → pa % 8 = 0 → (watchesAt s.pkg (watchKey pa)).length < 64 →
    ∃ t, exec (.watch pa id) s = .next t ∧ (cmd t.pkg id).watching = true ∧ t.mem = s.mem ∧
      watchesAt t.pkg (watchKey pa) = watchesAt s.pkg (watchKey pa) ++
        [⟨id, pa, BitVec.ofNat 64 (dField (cmd s.pkg id).desc 32 8), dField (cmd s.pkg id).desc 40 1 == 1⟩]))

/-! ## Memory controllers (spec/11) -/

/-- R387, R390, R392, R394, R409: a channel serves the request it has chosen with its row open and counted; a refresh closes the bank's
row, or is postponed for a waiting LC read; above 85 °C the doubled rate is set; DDR training ends once, up or not; an epoch's
end halves the counts. -/
def Obligations.ControllersServeRefreshAndCount : Prop :=
  (∀ (s : State) (ctl pc i : Nat) (r : MemReq) (x : PcSt), pcOk ctl pc = true → ready s.pkg (pgMem ctl) = true →
    x = pcSt s.pkg (64 * ctl + pc) →
    chooseReq x s.pkg.pace.datum (100 * fld s.pkg (key (pgMem ctl) 0x108) 7 0) = some (i, r) →
    ∃ t, exec (.hbmRequestServe ctl pc) s = .next t ∧ t.mem = s.mem ∧ (pcSt t.pkg (64 * ctl + pc)).reqs = x.reqs.eraseIdx i ∧
      SMap.get (pcSt t.pkg (64 * ctl + pc)).rows r.bank (r.row + 1) = r.row ∧
      (pcSt t.pkg (64 * ctl + pc)).lastRead = !r.write ∧
      reg t.pkg (key (pgMem ctl) (lineCounter r)) = reg s.pkg (key (pgMem ctl) (lineCounter r)) + 1) ∧
  (∀ (s : State) (ctl pc bank : Nat), pcOk ctl pc = true → lcWaits (pcSt s.pkg (64 * ctl + pc)) bank = false →
    ∃ t, exec (.refresh ctl pc bank) s = .next t ∧ (pcSt t.pkg (64 * ctl + pc)).rows.any (fun y => y.1 == bank) = false ∧
      SMap.get (pcSt t.pkg (64 * ctl + pc)).postponed bank 0 = 0 ∧
      (pcSt t.pkg (64 * ctl + pc)).reqs = (pcSt s.pkg (64 * ctl + pc)).reqs) ∧
  (∀ (s : State) (ctl pc bank n : Nat), pcOk ctl pc = true → lcWaits (pcSt s.pkg (64 * ctl + pc)) bank = true →
    n = SMap.get (pcSt s.pkg (64 * ctl + pc)).postponed bank 0 → n < 8 → ∃ t, exec (.refresh ctl pc bank) s = .next t ∧
      SMap.get (pcSt t.pkg (64 * ctl + pc)).postponed bank 0 = n + 1 ∧
      (pcSt t.pkg (64 * ctl + pc)).rows = (pcSt s.pkg (64 * ctl + pc)).rows) ∧
  (∀ (s : State) (ctl temp : Nat), ctl < 16 → temp < 256 → ∃ t, exec (.refreshRateChange ctl temp) s = .next t ∧
    bit t.pkg (key (pgMem ctl) 0x104) 23 = decide (85 < temp) ∧ fld t.pkg (key (pgMem ctl) 0x104) 31 24 = temp ∧
    t.mem = s.mem) ∧
  (∀ (s : State) (l : List DdrChannel), l.length = 8 → s.pkg.memc.ddrPhase = 0 → s.pkg.seq.railPgCore = true →
    4 ≤ seqStep s.pkg → seqState s.pkg ≠ 4 → ∃ t, exec (.ddrTrainingDone l) s = .next t ∧
      t.pkg.memc.ddrPhase = (if ddrOutcome l = 3 then 2 else 1) ∧ t.pkg.memc.ddrHalf = ddrOutcome l % 3 ∧
      (ddrOutcome l = 3 → t.pkg.ddrBytes = 0)) ∧
  (∀ (s : State) (b : Nat), b < 9 → bit s.pkg (accControl b) 31 = true →
    (acc s.pkg b).since + epochNs s.pkg b ≤ s.pkg.pace.datum → ∃ t, exec (.epochEnd b) s = .next t ∧
      (acc t.pkg b).epochs = (acc s.pkg b).epochs + 1 ∧ (acc t.pkg b).since = s.pkg.pace.datum ∧ t.mem = s.mem ∧
      (acc t.pkg b).ents = (acc s.pkg b).ents.map (fun x =>
        (x.1, { x.2 with reads := x.2.reads / 2, writes := x.2.writes / 2, hot := false })))

/-! ## The coherence protocol (spec/13) -/

/-- R448, R452, R454 to R456, R459, Tables 13-2 and 13-3: at a home that admits a request and where none waits before it, RdShared adds
a sharer and supplies the line, RdOwn and Upgrade make one owner and no sharer, RdCur supplies the line untracked, ATOM is one
atomic; WrBack of the owner is taken, and one of a hart that does not own the line changes nothing; WrLine is held pending and
acknowledged; COMMIT at a home writes there every line that waits for it, or none.
R450, R458, Table 13-3: SNP-Share leaves the owner a sharer, and changes no home for another hart; SNP-Clean leaves the line's entry;
SNP-Inv takes the copy of a hart without a reservation on the line, and is delayed by one with it; the end of the delay answers it,
and the reservation goes; an eviction recalls the line from every hart, and starts a back-invalidation where the host holds it. -/
def Obligations.LinesComeFromHomesAndGoToSnoops : Prop :=
  ((∀ (s : State) (h pa : Nat), h < 48 → cacheable pa = true → fateFor s.pkg (idHart h) pa false = .served → queuedReqs s.pkg (homeNo pa) = 0 →
    (dirLine s.pkg (pa / 64)).host ≠ 2 → ∃ t, exec (.rdShared h pa) s = .next t ∧ t.mem = s.mem ∧
      dirLine t.pkg (pa / 64) = { dirLine s.pkg (pa / 64) with
        owner := none, sharers := (h :: (dirLine s.pkg (pa / 64)).harts).eraseDups } ∧
      t.pkg.out.head? = some (.homeData (pa / 64 * 64) (s.mem.line pa) (s.mem.poisoned (pa / 64 * 64) 64))) ∧
  (∀ (s : State) (h pa : Nat), h < 48 → cacheable pa = true → fateFor s.pkg (idHart h) pa false = .served → queuedReqs s.pkg (homeNo pa) = 0 →
    (dirLine s.pkg (pa / 64)).host = 0 → ∃ t, exec (.rdOwn h pa) s = .next t ∧ t.mem = s.mem ∧ dirLine t.pkg (pa / 64) = ⟨some h, [], 0⟩ ∧
      t.pkg.out.head? = some (.homeData (pa / 64 * 64) (s.mem.line pa) (s.mem.poisoned (pa / 64 * 64) 64)) ∧
      ∀ g ∈ (dirLine s.pkg (pa / 64)).harts, g ≠ h → (hart t.pkg g).resv ≠ some (pa / 64)) ∧
  (∀ (s : State) (h pa : Nat), h < 48 → cacheable pa = true → fateFor s.pkg (idHart h) pa false = .served → queuedReqs s.pkg (homeNo pa) = 0 →
    (dirLine s.pkg (pa / 64)).host = 0 → h ∈ (dirLine s.pkg (pa / 64)).harts → ∃ t, exec (.upgrade h pa) s = .next t ∧ t.mem = s.mem ∧
      dirLine t.pkg (pa / 64) = ⟨some h, [], 0⟩ ∧ t.pkg.out = s.pkg.out) ∧
  (∀ (s : State) (h pa : Nat),
    ((dirLine s.pkg (pa / 64)).owner = some h → fateFor s.pkg (idHart h) pa false = .served → ∃ t, exec (.wrBack h pa) s = .next t ∧ t.mem = s.mem ∧
      dirLine t.pkg (pa / 64) = { dirLine s.pkg (pa / 64) with owner := none }) ∧
    ((dirLine s.pkg (pa / 64)).owner ≠ some h → exec (.wrBack h pa) s = .next s)) ∧
  (∀ (s : State) (pa : Nat), fateFor s.pkg (homeId pa) pa false = .served → queuedReqs s.pkg (homeNo pa) = 0 →
    (dirLine s.pkg (pa / 64)).host ≠ 2 → ∃ t, exec (.rdCur pa) s = .next t ∧ t.mem = s.mem ∧ t.pkg.home.dir = s.pkg.home.dir ∧
      t.pkg.out.head? = some (.homeData (pa / 64 * 64) (s.mem.line pa) (s.mem.poisoned (pa / 64 * 64) 64))) ∧
  (∀ (s : State) (n mu pa : Nat) (data : Item) (poison : Bool), ceOk n = true → mu < 4 →
    fateFor s.pkg (idCe n) pa true = .served → (muPending s.pkg n mu).length < 1024 →
    (∀ sl, homeSlice pa = some sl → pendingAt s.pkg sl < 256) →
    ∃ t, exec (.wrLine n mu pa data poison) s = .next t ∧ t.mem = s.mem ∧
      t.pkg.out = .lineAck n mu (pa / 64 * 64) :: s.pkg.out ∧ ∃ x : PLine, t.pkg.home.pend = s.pkg.home.pend ++ [x] ∧
        x.pa = pa / 64 * 64 ∧ x.data = data ∧ x.poison = poison ∧ x.ce = n ∧ x.mu = mu) ∧
  (∀ (s : State) (n mu home : Nat), commitReady s.pkg n mu home = true → ∃ t, exec (.commit n ⟨mu, home⟩) s = .next t ∧
    t.mem = commitMem s.pkg (toCommit s.pkg n mu home) s.mem ∧ toCommit t.pkg n mu home = []) ∧
  (∀ (s : State) (n mu home : Nat), commitReady s.pkg n mu home = false → ∃ t, exec (.commit n ⟨mu, home⟩) s = .next t ∧
    t.mem = s.mem ∧ t.pkg.home.pend = s.pkg.home.pend) ∧
  (∀ (s : State) (pa op : Nat) (v : W64), pa % 8 = 0 → op ≤ 1 →
    fateFor s.pkg (homeId pa) pa false = .served → queuedReqs s.pkg (homeNo pa) = 0 → hostHolds s.pkg pa = false →
    s.mem.poisoned pa 8 = false → ∃ t, exec (.atom pa op v) s = .next t ∧
      t.mem = s.mem.write pa 8 (if op = 0 then BitVec.ofNat 64 (s.mem.read pa 8) + v else v).toNat ∧
      ∀ a, a < pa ∨ pa + 8 ≤ a → t.mem.byte a = s.mem.byte a)) ∧
  ((∀ (s : State) (h pa : Nat), (dirLine s.pkg (pa / 64)).owner = some h →
    (∃ t, exec (.snpShare h pa) s = .next t ∧ t.mem = s.mem ∧ (dirLine t.pkg (pa / 64)).owner = none ∧
      h ∈ (dirLine t.pkg (pa / 64)).sharers) ∧
    (∃ t, exec (.snpClean h pa) s = .next t ∧ t.mem = s.mem ∧ dirLine t.pkg (pa / 64) = dirLine s.pkg (pa / 64))) ∧
  (∀ (s : State) (h pa : Nat), (dirLine s.pkg (pa / 64)).owner ≠ some h → ∃ t, exec (.snpShare h pa) s = .next t ∧
    t.mem = s.mem ∧ t.pkg.home = s.pkg.home) ∧
  (∀ (s : State) (h pa : Nat), (hart s.pkg h).resv ≠ some (pa / 64) → ∃ t, exec (.snpInv h pa) s = .next t ∧
    t.mem = s.mem ∧ h ∉ (dirLine t.pkg (pa / 64)).harts ∧
    ∀ g ∈ (dirLine s.pkg (pa / 64)).harts, g ≠ h → g ∈ (dirLine t.pkg (pa / 64)).harts) ∧
  (∀ (s : State) (h pa : Nat), (hart s.pkg h).resv = some (pa / 64) → pa / 64 ∉ (hart s.pkg h).delayed →
    ∃ t, exec (.snpInv h pa) s = .next t ∧ t.mem = s.mem ∧ dirLine t.pkg (pa / 64) = dirLine s.pkg (pa / 64) ∧
      (hart t.pkg h).delayed = (hart s.pkg h).delayed ++ [pa / 64] ∧ (hart t.pkg h).resv = some (pa / 64)) ∧
  (∀ (s : State) (h : Nat), ∃ t, exec (.lrSnoopDelayExpiry h) s = .next t ∧ t.mem = s.mem ∧ (hart t.pkg h).delayed = [] ∧
    ∀ line ∈ (hart s.pkg h).delayed, h ∉ (dirLine t.pkg line).harts ∧ (hart t.pkg h).resv ≠ some line) ∧
  (∀ (s : State) (pa : Nat), (dirLine s.pkg (pa / 64)).host = 0 → ∃ t, exec (.filterEvictionRecall pa) s = .next t ∧
    t.mem = s.mem ∧ dirLine t.pkg (pa / 64) = DirLine.empty) ∧
  (∀ (s : State) (pa : Nat), (dirLine s.pkg (pa / 64)).host ≠ 0 → s.pkg.home.bi.find? (fun x => x.1 == pa / 64) = none →
    biSent s.pkg < 256 → ∃ t, exec (.filterEvictionRecall pa) s = .next t ∧ t.mem = s.mem ∧
      (dirLine t.pkg (pa / 64)).harts = [] ∧
      t.pkg.home.bi = SMap.set s.pkg.home.bi (pa / 64) ⟨true, true, timerNow s.pkg, []⟩ ∧
      t.pkg.out = .biSnp (pa / 64 * 64) true :: s.pkg.out))

/-- R462, R464 to R467, R501, R517: with fewer than 256 outstanding, a back-invalidation snoop of a line without one is sent; the answer
takes the host's copy, or leaves it shared, writes a modified line back, and a request that waited for it is served; no answer
within 10 ms takes the copy as gone, poisons the line and reports it; host accesses of the inset window are served at the line's
home, or held while the window moves; a host snoop takes the device cache's line; the host lines of a packet that is ready change
in one instant, and those of one that is not are requested again once the host is reached. -/
def Obligations.TheHostSharesLinesBySnoops : Prop :=
  (∀ (s : State) (pa : Nat), s.pkg.home.bi.find? (fun x => x.1 == pa / 64) = none → biSent s.pkg < 256 →
    ((dirLine s.pkg (pa / 64)).host ≠ 0 → ∃ t, exec (.bisnpInv pa) s = .next t ∧ t.mem = s.mem ∧
      t.pkg.home.bi = SMap.set s.pkg.home.bi (pa / 64) ⟨true, true, timerNow s.pkg, []⟩ ∧
      t.pkg.out = .biSnp (pa / 64 * 64) true :: s.pkg.out) ∧
    ((dirLine s.pkg (pa / 64)).host = 2 → ∃ t, exec (.bisnpData pa) s = .next t ∧ t.mem = s.mem ∧
      t.pkg.home.bi = SMap.set s.pkg.home.bi (pa / 64) ⟨false, true, timerNow s.pkg, []⟩ ∧
      t.pkg.out = .biSnp (pa / 64 * 64) false :: s.pkg.out)) ∧
  (∀ (s : State) (pa k : Nat) (w : BiWait) (wb : Option Item), w.reqs = [] →
    s.pkg.home.bi.find? (fun x => x.1 == pa / 64 && x.2.sent) = some (k, w) →
    queuedReqs s.pkg (homeNo (pa / 64 * 64)) = 0 → ∃ t, exec (.birsp pa wb) s = .next t ∧
      t.mem = (match wb with | some v => s.mem.storeLine pa v false | none => s.mem) ∧
      (dirLine t.pkg (pa / 64)).host = (if w.inv then 0 else 1) ∧ t.pkg.home.bi.any (fun x => x.1 == pa / 64) = false) ∧
  (∀ (s : State) (pa k h : Nat) (w : BiWait), w.reqs = [.rdShared h] →
    s.pkg.home.bi.find? (fun x => x.1 == pa / 64 && x.2.sent) = some (k, w) →
    queuedReqs s.pkg (homeNo (pa / 64 * 64)) = 0 → s.pkg.home.bi.all (fun x => x.2.sent) = true → ∃ t, exec (.birsp pa none) s = .next t ∧ t.mem = s.mem ∧
      (dirLine t.pkg (pa / 64)).host = (if w.inv then 0 else 1) ∧ h ∈ (dirLine t.pkg (pa / 64)).sharers ∧
      t.pkg.out.head? = some (.homeData (pa / 64 * 64) (s.mem.line (pa / 64 * 64)) (s.mem.poisoned (pa / 64 * 64) 64))) ∧
  (∀ (s : State) (pa k : Nat) (w : BiWait), w.reqs = [] →
    s.pkg.home.bi.find? (fun x => x.1 == pa / 64 && x.2.sent) = some (k, w) → w.since + 10000000 ≤ timerNow s.pkg →
    queuedReqs s.pkg (homeNo (pa / 64 * 64)) = 0 → s.pkg.home.bi.all (fun x => x.2.sent) = true →
    ∃ t, exec (.hostSnoopTimeout pa) s = .next t ∧ t.mem = s.mem.storeLine (pa / 64 * 64) (s.mem.line (pa / 64 * 64)) true ∧
      (dirLine t.pkg (pa / 64)).host = 0 ∧ t.pkg.out.head? = some (.aer (pa / 64 * 64))) ∧
  (∀ (s : State) (hpa pa : Nat) (cacheIt : Bool), insetMoving s.pkg = false → insetMap s.pkg (hpa / 64 * 64) = some pa →
    insetHeld s.pkg = false → fateFor s.pkg idHost pa false = .served → ∃ t, exec (.hostMemRead hpa cacheIt) s = .next t ∧ t.mem = s.mem ∧
      t.pkg.out.head? = some (.homeData (pa / 64 * 64) (s.mem.line pa) (s.mem.poisoned (pa / 64 * 64) 64)) ∧
      (cacheIt = false → dirLine t.pkg (pa / 64) = dirLine s.pkg (pa / 64)) ∧
      (cacheIt = true → 0 < (dirLine t.pkg (pa / 64)).host ∧ (dirLine t.pkg (pa / 64)).owner = none)) ∧
  (∀ (s : State) (hpa : Nat) (cacheIt : Bool) (data : Item) (mask : W64), insetMoving s.pkg = true →
    (∃ t, exec (.hostMemRead hpa cacheIt) s = .next t ∧ t.mem = s.mem ∧
      t.pkg.hl.held = s.pkg.hl.held ++ [.hostMemRead hpa cacheIt]) ∧
    (∃ t, exec (.hostMemWrite hpa data mask) s = .next t ∧ t.mem = s.mem ∧
      t.pkg.hl.held = s.pkg.hl.held ++ [.hostMemWrite hpa data mask])) ∧
  (∀ (s : State) (hpa pa : Nat) (data : Item) (mask : W64), insetMoving s.pkg = false →
    insetMap s.pkg (hpa / 64 * 64) = some pa → insetHeld s.pkg = false →
    fateFor s.pkg idHost pa (mask == BitVec.allOnes 64) = .served → ∃ t, exec (.hostMemWrite hpa data mask) s = .next t ∧
      t.mem = writeBytes s.mem pa data mask ∧ dirLine t.pkg (pa / 64) = DirLine.empty) ∧
  (∀ (s : State) (hpa : Nat), s.pkg.home.pend.any (fun l => decide (l.pa / 64 = (hostBase + hpa / 64 * 64) / 64) && l.owned) = false →
    (hostBase + hpa / 64 * 64) / 64 ∈ s.pkg.home.devCache → ∃ t, exec (.hostSnoop hpa) s = .next t ∧ t.mem = s.mem ∧
      (hostBase + hpa / 64 * 64) / 64 ∉ t.pkg.home.devCache ∧ t.pkg.out.head? = some (.homeData
        ((hostBase + hpa / 64 * 64) / 64 * 64) (s.mem.line (hostBase + hpa / 64 * 64))
        (s.mem.poisoned ((hostBase + hpa / 64 * 64) / 64 * 64) 64))) ∧
  (∀ (s : State) (n mu : Nat), hostReady s.pkg n mu = true → ∃ t, exec (.hostPacketCommit n mu) s = .next t ∧
    t.mem = (hostLines s.pkg n mu).foldl (fun (m : Memory) (l : PLine) => m.storeLine l.pa l.data l.poison) s.mem ∧
    hostLines t.pkg n mu = []) ∧
  (∀ (s : State) (n mu : Nat), hostReady s.pkg n mu = false → ∃ t, exec (.hostPacketCommit n mu) s = .next t ∧ t.mem = s.mem ∧
    (hostReached s.pkg = true → (hostLines t.pkg n mu).all (·.owned) = true) ∧
    (hostReached s.pkg = false → t.pkg.home.pend = s.pkg.home.pend))

/-- R469, R470, R472: while another meridian is up, a bridge that fails is lost, and a meridian or graticule is DOWN in its register; a
broken lane of a direction with fewer than two spares in use takes one more, shown in the register of a meridian or graticule. -/
def Obligations.BridgesSpareLanesAndFail : Prop :=
  (∀ (s : State) (n : Nat), n < 4 → s.pkg.seq.railPgCore = true → bridgeLost s.pkg n = false →
    (∃ m, m < 4 ∧ m ≠ n ∧ bridgeIsDown s.pkg m = false) → ∃ t, exec (.meridianDown n) s = .next t ∧
      bit t.pkg (key (pgMer n) 0x100) 31 = true ∧ bridgeLost t.pkg n = true ∧ t.mem = s.mem) ∧
  (∀ (s : State) (kind n b dir : Nat), bridgeOf kind n = some b → dir < 2 → 2 ≤ sparesUsed s.pkg b dir →
    s.pkg.seq.railPgCore = true → bridgeLost s.pkg b = false → (∃ m, m < 4 ∧ m ≠ b ∧ bridgeIsDown s.pkg m = false) →
    ∃ t, exec (.bridgeDown kind n dir) s = .next t ∧ bridgeLost t.pkg b = true ∧ t.mem = s.mem ∧
      (b < 8 → bit t.pkg (key (bridgePage b) 0x100) 31 = true)) ∧
  (∀ (s : State) (kind n b dir lane : Nat), bridgeOf kind n = some b → dir < 2 → lane < 66 → s.pkg.seq.railPgCore = true →
    bridgeLost s.pkg b = false → sparesUsed s.pkg b dir < 2 → ∃ t, exec (.bridgeLaneSpare kind n dir lane) s = .next t ∧
      sparesUsed t.pkg b dir = sparesUsed s.pkg b dir + 1 ∧ bridgeLost t.pkg b = false ∧ t.mem = s.mem ∧
      (b < 8 → fld t.pkg (key (bridgePage b) 0x100) (if dir = 0 then 15 else 7) (if dir = 0 then 8 else 0) =
        sparesUsed s.pkg b dir + 1))

/-! ## Translation (spec/14) -/

/-- R478 to R480, Table 14-9: an ATS completion that grants the page fills the cache, one that denies it denies the page or asks for it
by a page request; a Success asks for the translation once more, any other response denies the page and a Response Failure stops page
requests; an invalidation of a PASID, or of all, removes matching cache entries at once, marks the leaves of running commands that
hold ATS translations, and is answered when its action has ended.
R474, R484, R485, R487, Table 14-9: a write of XL_INV_CONTROL with GO starts an invalidation whose end clears BUSY; a resume walks
the page again, and then its command waits no more, or ends its command XLATE_FAULT; a resume of no waiting fault changes nothing;
XL_CTX_CONFIG and XL_CTS_CONTROL take a value or are left as they were. -/
def Obligations.TranslationsAreFilledInvalidatedAndConfigured : Prop :=
  ((∀ (s : State) (ctx page c g hpa : Nat) (write writable : Bool),
    s.pkg.xl.requests.find? (fun r => r.1 == ctx && r.2.1 == page) = some (c, g, write) →
    ((write = true → writable = true) → s.pkg.xl.noCache.any (fun r => r == (ctx, page)) = false →
      ∃ t, exec (.atsCompletion ctx page true writable hpa) s = .next t ∧ t.mem = s.mem ∧
        t.pkg.xl.atc.head? = some ⟨pasidOf s.pkg ctx, page, hpa / 4096, writable⟩ ∧
        t.pkg.xl.requests.any (fun r => r.1 == ctx && r.2.1 == page) = false) ∧
    (priEn s.pkg ctx = false → ∃ t, exec (.atsCompletion ctx page false writable hpa) s = .next t ∧ t.mem = s.mem ∧
      t.pkg.xl.denied = s.pkg.xl.denied ++ [(ctx, page, 6)] ∧ t.pkg.xl.atc = s.pkg.xl.atc) ∧
    (priEn s.pkg ctx = true → s.pkg.xl.retried.any (fun r => r == (ctx, page)) = false → priStopped s.pkg = false →
      (s.pkg.xl.pris.filter (fun x => x.2.2)).length < priLimit s.pkg →
      ∃ t, exec (.atsCompletion ctx page false writable hpa) s = .next t ∧ t.mem = s.mem ∧
        t.pkg.out = .priRequest ctx page :: s.pkg.out ∧ (ctx, page, true) ∈ t.pkg.xl.pris)) ∧
  (∀ (s : State) (ctx page code : Nat), s.pkg.xl.pris.any (fun r => r == (ctx, page, true)) = true →
    (code = 0 → ∃ t, exec (.priResponse ctx page code) s = .next t ∧ t.mem = s.mem ∧ (ctx, page) ∈ t.pkg.xl.retried ∧
      ∃ w, (ctx, page, w) ∈ t.pkg.xl.requests ∧ .atsRequest ctx page w (supervisor s.pkg ctx) ∈ t.pkg.out) ∧
    (code ≠ 0 → ∃ t, exec (.priResponse ctx page code) s = .next t ∧ t.mem = s.mem ∧ (ctx, page, 7) ∈ t.pkg.xl.denied ∧
      (priStopped t.pkg = true ↔ priStopped s.pkg = true ∨ 1 < code))) ∧
  (∀ (s : State) (pasid page pages tag : Nat), ∃ t, exec (.atsInvalidate pasid page pages tag) s = .next t ∧
    t.mem = s.mem ∧ t.pkg.regs = s.pkg.regs ∧
    t.pkg.xl.atc = s.pkg.xl.atc.filter (fun e => !(reachesPasid pasid e.pasid && decide (page ≤ e.page) && decide (e.page < page + pages))) ∧
    t.pkg.xl.invs = s.pkg.xl.invs ++ [⟨some tag, pasid, page, pages⟩] ∧
    ∀ id, hasCmd s.pkg id = true → (cmd s.pkg id).phase = .running → id ∉ s.pkg.qm.holds →
      reachesPasid pasid (pasidOf s.pkg (cmd s.pkg id).ctx) = true → (cmd s.pkg id).pages.any (fun y => y.2.ats) = true →
      ∀ x ∈ (cmd t.pkg id).pages, inPages x.2 page pages = true → x.2.stale = true) ∧
  (∀ (s : State) (tag : Nat) (w : InvWork), s.pkg.xl.invs.find? (fun x => x.tag == some tag) = some w →
    (invEnded s.pkg w = true → ∃ t, exec (.invalidateCompletion tag) s = .next t ∧ t.mem = s.mem ∧
      t.pkg.out = .atsInvalidated tag :: s.pkg.out ∧ t.pkg.xl.invs = s.pkg.xl.invs.erase w) ∧
    (invEnded s.pkg w = false → exec (.invalidateCompletion tag) s = .next s))) ∧
  ((∀ (s : State) (rq : Requester) (v : W32), writeFate s.pkg rq pgXl 0x118 = .accepted → bit s.pkg invControl 30 = false →
    bitOf (v.setWidth 64 : W64) 31 = true → ∃ t w, exec (.xlInvGo rq v) s = .next t ∧ t.mem = s.mem ∧
      bit t.pkg invControl 30 = true ∧ t.pkg.xl.invs = s.pkg.xl.invs ++ [w] ∧ w.tag = none ∧
      w.ctx = bitsOf (v.setWidth 64 : W64) 19 16 ∧
      (bitOf (v.setWidth 64 : W64) 29 = true → w.page = 0 ∧ w.pages = 2 ^ 45) ∧
      (bitOf (v.setWidth 64 : W64) 29 = false → w.page = fld s.pkg (key pgXl 0x110) 56 12 ∧
        w.pages = bitsOf (v.setWidth 64 : W64) 15 0 + 1)) ∧
  (∀ (s : State) (w : InvWork), s.pkg.xl.invs.find? (fun x => x.tag.isNone) = some w →
    (invEnded s.pkg w = true → ∃ t, exec .xlInvDone s = .next t ∧ t.mem = s.mem ∧ bit t.pkg invControl 30 = false ∧
      t.pkg.xl.invs = s.pkg.xl.invs.erase w) ∧
    (invEnded s.pkg w = false → exec .xlInvDone s = .next s)) ∧
  (∀ (s : State) (rq : Requester) (v : W32) (w : FaultWait), writeFate s.pkg rq pgXl 0x130 = .accepted →
    s.pkg.xl.waits.find? (fun x => x.seq == bitsOf v 15 0) = some w →
    (bitOf v 31 = false → (cmd s.pkg w.id).phase = .translating → ∃ t, exec (.xlFaultResume rq v) s = .next t ∧ t.mem = s.mem ∧
      t.pkg.xl.waits = s.pkg.xl.waits.erase w ∧ (cmd t.pkg w.id).phase = .finished ∧ (cmd t.pkg w.id).status = 0x20) ∧
    (∀ (x : Xlate) (m : Memory) (q : Pkg), bitOf v 31 = true →
      walkPage (setXl s.pkg { s.pkg.xl with waits := s.pkg.xl.waits.erase w }) s.mem (cmd s.pkg w.id).ctx
        (accessKind (cmd s.pkg w.id) w.operand) (dPrio (cmd s.pkg w.id).desc) (dOperand (cmd s.pkg w.id).desc w.operand).write
        (w.page * 4096) = (.ok x, m, q) →
      ∃ t, exec (.xlFaultResume rq v) s = .next t ∧ t.mem = m ∧ t.pkg = q ∧ t.pkg.xl.waits = s.pkg.xl.waits.erase w ∧
        cmd t.pkg w.id = cmd s.pkg w.id)) ∧
  (∀ (s : State) (rq : Requester) (v : W32), writeFate s.pkg rq pgXl 0x130 = .accepted →
    s.pkg.xl.waits.find? (fun x => x.seq == bitsOf v 15 0) = none → exec (.xlFaultResume rq v) s = .next s) ∧
  (∀ (s : State) (rq : Requester) (ctx : Nat) (v : W32), ctx < 16 → writeFate s.pkg rq (pgXl + 1 + ctx) 0x100 = .accepted →
    (bitsOf (v.setWidth 64 : W64) 1 0 ≠ 3 → (s.pkg.standalone = true → bitsOf (v.setWidth 64 : W64) 1 0 = 0) →
      bit s.pkg (key (pgQm + 1 + ctx) 0x100) 31 = false → ∃ t, exec (.xlCtxConfigWrite rq ctx v) s = .next t ∧
        t.mem = s.mem ∧ fld t.pkg (xlCtx ctx 0x100) 4 0 = bitsOf (v.setWidth 64 : W64) 4 0) ∧
    (bitsOf (v.setWidth 64 : W64) 1 0 = 3 → exec (.xlCtxConfigWrite rq ctx v) s = .next s)) ∧
  (∀ (s : State) (rq : Requester) (v : W64) (a b : Nat), writeFate s.pkg rq pgXl 0x108 = .accepted →
    ((ctsUsed s.pkg).isEmpty = true → 16 ≤ bitsOf v 5 1 → bitsOf v 5 1 ≤ 22 →
      region (bitsOf v 51 21 * 0x200000) = .hbm a b →
      hbmOrScratch s.pkg (bitsOf v 51 21 * 0x200000) (16 * 2 ^ bitsOf v 5 1) = true →
      ∃ t, exec (.xlCtsControlWrite rq v) s = .next t ∧ t.mem = s.mem ∧ fld t.pkg ctsControl 51 21 = bitsOf v 51 21 ∧
        fld t.pkg ctsControl 5 0 = bitsOf v 5 0) ∧
    ((ctsUsed s.pkg).isEmpty = false ∨ bitsOf v 5 1 < 16 ∨ 22 < bitsOf v 5 1 →
      exec (.xlCtsControlWrite rq v) s = .next s)))

/-- R490 to R495, R498, Tables 14-4 to 14-7: window descriptors and landing entries take their fields unless VALID is written over
VALID, and entries 0 never; a request that arrives and is no replay lands at BASE + offset or is refused and reported with its cause;
a report record lands in the mailbox ring, and ends a hart's load that it names; a hart's load and a SEM_SIGNAL end without an answer
for 100 ms, and not before. -/
def Obligations.WindowsLandRefuseAndReport : Prop :=
  (∀ (s : State) (rq : Requester) (i word : Nat) (v : W64), i < 1024 → word < 2 →
    writeFate s.pkg rq (windowKey i / 0x1000) (windowKey i % 0x1000) = .accepted →
    (0 < i → (bitOf v 63 && bit s.pkg (windowKey i) 63) = false → ∃ t, exec (.windowEntryWrite rq false i word v) s = .next t ∧
      t.mem = s.mem ∧ fld t.pkg (windowKey i) 63 59 = bitsOf v 63 59 ∧ fld t.pkg (windowKey i) 47 32 = bitsOf v 47 32 ∧
      fld t.pkg (windowKey i) 25 16 = bitsOf v 25 16 ∧ fld t.pkg (windowKey i) 13 0 = bitsOf v 13 0) ∧
    (i = 0 ∨ (bitOf v 63 = true ∧ bit s.pkg (windowKey i) 63 = true) →
      exec (.windowEntryWrite rq false i word v) s = .next s)) ∧
  (∀ (s : State) (rq : Requester) (r : Nat) (v : W64), 0 < r → r < 1024 →
    (writeFate s.pkg rq (landingKey r 0 / 0x1000) (landingKey r 0 % 0x1000) = .accepted →
      (bitOf v 63 = true → bit s.pkg (landingKey r 0) 63 = false ∧ landRangeOk s.pkg v = true) →
      ∃ t, exec (.windowEntryWrite rq true r 0 v) s = .next t ∧ t.mem = s.mem ∧
        fld t.pkg (landingKey r 0) 63 60 = bitsOf v 63 60 ∧ fld t.pkg (landingKey r 0) 51 21 = bitsOf v 51 21 ∧
        fld t.pkg (landingKey r 0) 14 0 = bitsOf v 14 0) ∧
    (writeFate s.pkg rq (landingKey r 0 / 0x1000) (landingKey r 0 % 0x1000) = .accepted → bitOf v 63 = true →
      bit s.pkg (landingKey r 0) 63 = true → exec (.windowEntryWrite rq true r 0 v) s = .next s) ∧
    (writeFate s.pkg rq (landingKey r 1 / 0x1000) (landingKey r 1 % 0x1000) = .accepted →
      ∃ t, exec (.windowEntryWrite rq true r 1 v) s = .next t ∧ t.mem = s.mem ∧
        fld t.pkg (landingKey r 1) 45 32 = bitsOf v 45 32 ∧ fld t.pkg (landingKey r 1) 13 0 = bitsOf v 13 0)) ∧
  (∀ (s : State) (rq : Requester) (word : Nat) (v : W64), word < 2 →
    writeFate s.pkg rq (landingKey 0 word / 0x1000) (landingKey 0 word % 0x1000) = .accepted →
    exec (.windowEntryWrite rq true 0 word v) s = .next s) ∧
  (∀ (s : State) (m : Msg), isRequest m = true → s.pkg.rt.arrived.contains m = true → m.replayed = false →
    (landingRefusal s.pkg m = none → ∃ t, exec (.landingCheck m) s = .next t ∧ t.mem = s.mem ∧
      t.pkg.rt.landed = s.pkg.rt.landed ++ [(m, landBase (reg s.pkg (landingKey m.window 0)) + m.offset)] ∧
      t.pkg.rt.arrived = s.pkg.rt.arrived.erase m ∧ t.pkg.rt.inject = s.pkg.rt.inject) ∧
    (∀ cause, landingRefusal s.pkg m = some cause → ∃ t, exec (.landingCheck m) s = .next t ∧ t.mem = s.mem ∧
      t.pkg.rt.landed = s.pkg.rt.landed ∧ ∃ x : Msg, t.pkg.rt.inject = s.pkg.rt.inject ++ [x] ∧ x.dest = m.src ∧
        bitsOf x.payload 7 0 = 1 ∧ bitsOf x.payload 15 8 = cause)) ∧
  (∀ (s : State) (m : Msg), m.window = 0 → landingRefusal s.pkg m = some 6) ∧
  (∀ (s : State) (m : Msg), 0 < m.window → m.window < 1024 → bit s.pkg (landingKey m.window 0) 63 = false →
    landingRefusal s.pkg m = some 4) ∧
  (∀ (s : State) (cause window tag source offset : Nat), cause < 256 → ∃ t,
    exec (.reportRecord cause window tag source offset) s = .next t ∧ ∃ x : Item, t.pkg.rt.mailbox.getLast? = some x ∧
      bitsOf x 7 0 = 1 ∧ bitsOf x 15 8 = cause ∧ bitsOf x 31 16 = source % 65536 ∧ bitsOf x 47 32 = window % 65536 ∧
      bitsOf x 127 64 = offset % 2 ^ 64 ∧ bitsOf x 191 128 = tag % 2 ^ 64) ∧
  (∀ (s : State) (cause window tag source offset k h rd size : Nat) (signed : Bool) (va : W64) (r : Remote), cause < 256 →
    window < 65536 → source < 65536 → tag < 2 ^ 21 → offset < 2 ^ 64 → s.pkg.rt.acc.find? (fun x => x.1 % 2 ^ 21 == tag &&
      x.2.msg.window == window && x.2.msg.offset == offset && (cause == 9 || x.1 / 2 ^ 21 == source)) = some (k, r) →
    r.who = .coreLoad h rd size signed va → ∃ t, exec (.reportRecord cause window tag source offset) s = .next t ∧
      t.mem = s.mem ∧ remoteAt t.pkg k = none ∧ (hart t.pkg h).xcause = some 5 ∧ (hart t.pkg h).xtval = va) ∧
  (∀ (s : State) (tag h rd size : Nat) (signed : Bool) (va : W64) (r : Remote), remoteAt s.pkg tag = some r →
    r.who = .coreLoad h rd size signed va → r.since + 100000000 ≤ timerNow s.pkg →
    ∃ t, exec (.windowNoAnswer tag) s = .next t ∧ t.mem = s.mem ∧ remoteAt t.pkg tag = none ∧
      (hart t.pkg h).xcause = some 5 ∧ (hart t.pkg h).xtval = va) ∧
  (∀ (s : State) (tag id : Nat) (r : Remote), remoteAt s.pkg tag = some r → r.who = .semSignal id →
    r.since + 100000000 ≤ timerNow s.pkg → (cmd s.pkg id).phase = .running →
    s.pkg.ces.find? (fun x => x.2.cmd == some id) = none →
    ∃ t, exec (.windowNoAnswer tag) s = .next t ∧ t.mem = s.mem ∧ remoteAt t.pkg tag = none ∧
      (cmd t.pkg id).phase = .finished ∧ (cmd t.pkg id).status = 0x21) ∧
  (∀ (s : State) (tag : Nat) (r : Remote), remoteAt s.pkg tag = some r → timerNow s.pkg < r.since + 100000000 →
    exec (.windowNoAnswer tag) s = .next s)

/-! ## The host link (spec/15) -/

/-- R499, R500, R503, R505, R508, R510, R513, R514, R516, R517, R520: training gives the mode of Table 15-1; a retraining keeps 32 GT/s on
four lanes or more, or goes down; configuration requests are retried during an FLR and answered else, a write changing the writable
bits alone; BAR0 reaches the control aperture and the MSI-X table, a doorbell behind held CXL.mem writes is held, and BAR2 reads the
component registers (log entry 60: the bar operand and their layout are the model's); the decoder commits within its bounds and
fails outside them; a move starts where R516 admits it, and its end changes the base in one instant. -/
def Obligations.TheHostLinkTrainsAnswersAndMoves : Prop :=
  (∀ (s : State) (cxl rate width mode : Nat) (flit : Bool), ready s.pkg pgHl = true → hlMode s.pkg = 0 → 1 ≤ rate → rate ≤ 6 →
    1 ≤ width → width ≤ 16 → modeOf (if s.pkg.standalone then 0 else cxl) rate = some (mode, flit) →
    ∃ t, exec (.linkTraining cxl rate width) s = .next t ∧ hlMode t.pkg = mode ∧ bit t.pkg hlStatus 29 = flit ∧
      fld t.pkg hlStatus 27 24 = rate ∧ fld t.pkg hlStatus 20 16 = width ∧ t.mem = s.mem) ∧
  (modeOf 3 6 = some (3, true) ∧ modeOf 3 5 = some (3, true) ∧ modeOf 2 5 = some (2, true) ∧
    (∀ cxl rate, rate < 5 → modeOf cxl rate = some (1, false)) ∧ modeOf 0 6 = some (1, true) ∧ modeOf 0 5 = some (1, false)) ∧
  (∀ (s : State) (width : Nat) (kept : Bool), 2 ≤ hlMode s.pkg → ∃ t, exec (.linkRetrain width kept) s = .next t ∧
    t.mem = s.mem ∧ (kept = true ∧ 4 ≤ width ∧ width ≤ 16 →
      hlMode t.pkg = hlMode s.pkg ∧ fld t.pkg hlStatus 27 24 = 5 ∧ fld t.pkg hlStatus 20 16 = width) ∧
    (kept = false ∨ width < 4 ∨ 16 < width → hlMode t.pkg = 0)) ∧
  (∀ (s : State) (off : Nat) (v : W32), s.pkg.standalone = false → hlMode s.pkg ≠ 0 → off < 4096 → s.pkg.hl.answering = true →
    (∀ w, s.pkg.hl.flr = true → ∃ t, exec (.configRequest w off v) s = .next t ∧ t.mem = s.mem ∧
      t.pkg.out = .cfgRetry :: s.pkg.out) ∧
    (s.pkg.hl.flr = false → ∃ t, exec (.configRequest false off v) s = .next t ∧ t.mem = s.mem ∧
      t.pkg.out = .cfgData (cfgDword s.pkg off) :: s.pkg.out) ∧
    (s.pkg.hl.flr = false → off / 4 * 4 ∉ [0x104, 0x110, 0x2E8, 0x2F0, 0x2F4] → (off / 4 * 4 = 0x58 → bitOf v 15 = false) →
      ∃ t, exec (.configRequest true off v) s = .next t ∧ t.mem = s.mem ∧
        cfgStored t.pkg off = (cfgStored s.pkg off &&& ~~~(BitVec.ofNat 32 (lookupN cfgMask (off / 4 * 4)))) |||
          (v &&& BitVec.ofNat 32 (lookupN cfgMask (off / 4 * 4)))) ∧
    (s.pkg.hl.flr = false → off / 4 * 4 = 0x58 → bitOf v 15 = true → ∃ t, exec (.configRequest true off v) s = .next t ∧
      t.mem = s.mem ∧ t.pkg.hl.flr = true)) ∧
  (∀ (s : State) (off bytes : Nat) (v : W64), s.pkg.standalone = false → off < 0x4000000 →
    (naturallyAligned off bytes = false → ∃ t, exec (.bar0Access false ⟨0, off⟩ bytes v) s = .next t ∧ t.mem = s.mem ∧
      t.pkg.out.head? = some (.bar0Data 0)) ∧
    (naturallyAligned off bytes = true → off < 0x3FF7000 → ∃ t, exec (.bar0Access false ⟨0, off⟩ bytes v) s = .next t ∧
      t.mem = s.mem ∧ t.pkg.out.head? = some (.bar0Data (readAccess .host off bytes s.pkg).1)) ∧
    (naturallyAligned off bytes = true → off < 0x3FF7000 → s.pkg.hl.held = [] →
      exec (.bar0Access true ⟨0, off⟩ bytes v) s = .next (writeAccess .host off bytes v s)) ∧
    (isDoorbell off = true → writesHeld s.pkg = true → ∃ t, exec (.bar0Access true ⟨0, off⟩ bytes v) s = .next t ∧ t.mem = s.mem ∧
      t.pkg.hl.held = s.pkg.hl.held ++ [.bar0Access true ⟨0, off⟩ bytes v]) ∧
    (off % 4 = 0 → off < 0x10000 → ∃ t, exec (.bar0Access false ⟨2, off⟩ 4 v) s = .next t ∧ t.mem = s.mem ∧
      t.pkg.out = .bar0Data (BitVec.ofNat 64 (compRead s.pkg off).toNat) :: s.pkg.out)) ∧
  (∀ (s : State) (k : Nat) (v : W64), s.pkg.standalone = false → k < 8192 → k % 4 = 1 ∨ k % 4 = 2 →
    s.pkg.hl.held = [] → ∃ t, exec (.bar0Access true ⟨0, 0x3FF7000 + 4 * k⟩ 4 v) s = .next t ∧ t.mem = s.mem ∧
      SMap.get t.pkg.int.msixTable k 0 = v.setWidth 32) ∧
  (∀ (s : State) (vec : Nat), vec < 2048 → s.pkg.standalone = false → s.pkg.int.msixOn = true → s.pkg.int.msixMask = false →
    SMap.get s.pkg.int.pba vec false = true → ∃ t, exec (.msixVectorUnmask vec) s = .next t ∧ t.mem = s.mem ∧
      .msix vec ∈ t.pkg.out ∧ vectorMasked t.pkg vec = false ∧ SMap.get t.pkg.int.pba vec false = false) ∧
  (∀ (s : State) (base size : Nat), s.pkg.standalone = false → committed s.pkg = false →
    (size % 2 ^ 30 = 0 → 4 * 2 ^ 30 ≤ size → size ≤ 64 * 2 ^ 30 → insetRangeOk s.pkg (insetBase s.pkg) size = true →
      hlMode s.pkg = 3 → ∃ t, exec (.hdmCommit base size) s = .next t ∧ t.mem = s.mem ∧ committed t.pkg = true ∧
        insetBytes t.pkg = size ∧ t.pkg.hl.hdmBase = base ∧ t.pkg.hl.commitError = false) ∧
    (size % 2 ^ 30 ≠ 0 ∨ size < 4 * 2 ^ 30 ∨ 64 * 2 ^ 30 < size ∨ hlMode s.pkg ≠ 3 ∨ insetRangeOk s.pkg (insetBase s.pkg) size = false →
      ∃ t, exec (.hdmCommit base size) s = .next t ∧ t.mem = s.mem ∧ committed t.pkg = false ∧
        t.pkg.hl.commitError = true ∧ t.pkg.regs = s.pkg.regs)) ∧
  (∀ (s : State), committed s.pkg = true →
    (insetMoving s.pkg = false → ∃ t, exec .hdmUncommit s = .next t ∧ t.mem = s.mem ∧ committed t.pkg = false ∧
      insetBytes t.pkg = 0) ∧
    (insetMoving s.pkg = true → ∃ t, exec .hdmUncommit s = .next t ∧ t.mem = s.mem ∧ committed t.pkg = true ∧
      t.pkg.hl.uncommit = true)) ∧
  (∀ (s : State) (rq : Requester) (v : W32), writeFate s.pkg rq pgHl 0x120 = .accepted → bitOf v 0 = true →
    s.pkg.standalone = false →
    (committed s.pkg = true → insetMoving s.pkg = false → insetNext s.pkg % 2 ^ 30 = 0 →
      insetRangeOk s.pkg (insetNext s.pkg) (insetBytes s.pkg) = true → insetNext s.pkg ≠ insetBase s.pkg →
      ∃ t, exec (.insetMove rq v) s = .next t ∧ t.mem = s.mem ∧ insetMoving t.pkg = true ∧
        insetBase t.pkg = insetBase s.pkg ∧ t.pkg.hl.moveStart = s.pkg.pace.datum) ∧
    (committed s.pkg = false ∨ insetMoving s.pkg = true ∨ insetNext s.pkg = insetBase s.pkg →
      exec (.insetMove rq v) s = .next s)) ∧
  (∀ (s : State), insetMoving s.pkg = true → (insetHostLines s.pkg).isEmpty = true → holdersPaused s.pkg = true →
    s.pkg.hl.held = [] → ∃ t, exec .insetMoveDone s = .next t ∧ t.mem = s.mem ∧ insetMoving t.pkg = false ∧
      insetBase t.pkg = insetNext s.pkg ∧
      regN t.pkg (key pgHl 0x128) = min 0xFFFFFFFF (s.pkg.pace.datum - s.pkg.hl.moveStart))

/-- R525, R527, R537, R675, Tables 15-4 and 19-6: FLR leaves no command, directory, cached translation or MSI-X entry, disables every
context and clears its translation registers, keeps the configuration dwords of log entry 60 alone, and is counted when it is
complete; a conventional reset of a hosted package takes the link down and resets the host link but the order of reads in flight, and
a standalone package ignores it; an LTR message that is due carries the smaller of table value and capability. -/
def Obligations.ResetsOfTheFunctionClearContexts : Prop :=
  (∀ (s : State), s.pkg.standalone = false → s.pkg.hl.flr = false → ∃ t, exec .flr s = .next t ∧ t.mem = s.mem ∧
    t.pkg.hl.flr = true ∧ t.pkg.qm.cmds = [] ∧ t.pkg.qm.dirs = [] ∧ t.pkg.xl.atc = [] ∧ t.pkg.int.msixTable = [] ∧
    t.pkg.hl.cfg = s.pkg.hl.cfg.filterMap keptByFlr ∧
    ∀ c, c < 16 → bit t.pkg (key (pgQm + 1 + c) 0x100) 31 = false ∧ fld t.pkg (xlCtx c 0x100) 1 0 = 0 ∧
      reg t.pkg (xlCtx c 0x108) = 0) ∧
  (∀ (s : State), s.pkg.hl.flr = true → ∃ t, exec .flrComplete s = .next t ∧ t.mem = s.mem ∧ t.pkg.hl.flr = false ∧
    reg t.pkg (key pgHl 0x130) = BitVec.ofNat 64 (satAdd 0xFFFFFFFF (regN s.pkg (key pgHl 0x130)) 1)) ∧
  (∀ (s : State) (kind : Nat), s.pkg.standalone = false → s.pkg.seq.railPgCore = true → ∃ t, exec (.perst kind) s = .next t ∧
    t.mem = s.mem ∧ hlMode t.pkg = 0 ∧ committed t.pkg = false ∧ t.pkg.hl = { HlSt.initial with lastRead := s.pkg.hl.lastRead } ∧ t.pkg.qm.cmds = [] ∧
    t.pkg.seq.perst = (s.pkg.seq.perst || decide (kind = 0))) ∧
  (∀ (s : State) (kind : Nat), s.pkg.standalone = true → exec (.perst kind) s = .next s) ∧
  (∀ (s : State) (table : Nat), s.pkg.standalone = false → hlMode s.pkg ≠ 0 → s.pkg.hl.flr = false →
    bitOf (cfgStored s.pkg 0x78) 10 = true →
    (∀ x, s.pkg.hl.ltrAt = some x → x + 100000 ≤ s.pkg.pace.datum ∧ s.pkg.hl.ltrState ≠ ltrRow s.pkg) →
    table = (if ltrRow s.pkg = 0 then 0x83E8 else if ltrRow s.pkg = 1 then 0x8671 else 0x8BD0) →
    ∃ t sn ns, exec .ltrMessage s = .next t ∧ t.mem = s.mem ∧ t.pkg.out = .ltr ns sn :: s.pkg.out ∧
      sn = ltrSmaller table ((cfgStored s.pkg 0x2A4).toNat % 2 ^ 13) ∧
      ns = ltrSmaller table ((cfgStored s.pkg 0x2A4).toNat / 2 ^ 16 % 2 ^ 13) ∧
      regN t.pkg (key pgHl 0x12C) = ns * 65536 + sn ∧ t.pkg.hl.ltrAt = some s.pkg.pace.datum)

/-- R529 to R532: the owner of the host link page reads and writes configuration and device memory through the root port, any other
requester reads zero; timeouts return all ones; an inbound request reaches the bounce window, an inbound write the MSI range, and any
other is Unsupported and counted; INTx messages drive the APLIC's first sources. -/
def Obligations.TheRootPortSendsAndAccepts : Prop :=
  (∀ (s : State) (rq : Requester) (data : W32) (status : Nat),
    (ownsHl s.pkg rq = false → ∃ t, exec (.cfgRead rq data status) s = .next t ∧ t.mem = s.mem ∧
      t.pkg.out = .readData (key pgHl 0x154) 0 :: s.pkg.out) ∧
    (ownsHl s.pkg rq = true → isRootPort (cfgTarget s.pkg) = true → ∃ t, exec (.cfgRead rq data status) s = .next t ∧
      t.mem = s.mem ∧
      t.pkg.out = .readData (key pgHl 0x154) ((rpDword s.pkg (cfgTarget s.pkg % 2 ^ 12)).setWidth 64) :: s.pkg.out) ∧
    (ownsHl s.pkg rq = true → isRootPort (cfgTarget s.pkg) = false → status = 0 →
      ∃ t, exec (.cfgRead rq data status) s = .next t ∧ t.mem = s.mem ∧ t.pkg.out =
        .readData (key pgHl 0x154) (data.setWidth 64) :: .rpConfig (cfgTarget s.pkg) none :: s.pkg.out)) ∧
  (∀ (s : State) (rq : Requester) (v : W32), writeFate s.pkg rq pgHl 0x154 = .accepted → s.pkg.standalone = true →
    (isRootPort (cfgTarget s.pkg) = false → ∃ t, exec (.cfgWrite rq v) s = .next t ∧ t.mem = s.mem ∧
      t.pkg.out = .rpConfig (cfgTarget s.pkg) (some v) :: s.pkg.out) ∧
    (∀ off m, isRootPort (cfgTarget s.pkg) = true → off = cfgTarget s.pkg % 2 ^ 12 → off ≠ 0x104 → off ≠ 0x110 → off ≠ 0x130 →
      m = BitVec.ofNat 32 (lookupN rpMask off) → ∃ t, exec (.cfgWrite rq v) s = .next t ∧ t.mem = s.mem ∧
        rpStored t.pkg off = (rpStored s.pkg off &&& ~~~m) ||| (v &&& m))) ∧
  (∀ (s : State) (rq : Requester) (width : Nat) (v : W64), width = 4 ∨ width = 8 →
    (ownsHl s.pkg rq = true → ∃ t, exec (.rpMmioRead rq width v) s = .next t ∧ t.mem = s.mem ∧
      t.pkg.out = .readData (key pgHl 0x160) (v &&& BitVec.ofNat 64 (2 ^ (8 * width) - 1)) ::
        .rpMmio (reg s.pkg (key pgHl 0x158)) width none :: s.pkg.out) ∧
    (ownsHl s.pkg rq = false → ∃ t, exec (.rpMmioRead rq width v) s = .next t ∧ t.mem = s.mem ∧
      t.pkg.out = .readData (key pgHl 0x160) 0 :: s.pkg.out) ∧
    (writeFate s.pkg rq pgHl 0x160 = .accepted → s.pkg.standalone = true →
      ∃ t, exec (.rpMmioWrite rq width v) s = .next t ∧ t.mem = s.mem ∧ t.pkg.out = .rpMmio (reg s.pkg (key pgHl 0x158)) width
        (some (v &&& BitVec.ofNat 64 (2 ^ (8 * width) - 1))) :: s.pkg.out)) ∧
  (∀ (s : State), s.pkg.standalone = true → ∃ t, exec .rpMmioTimeout s = .next t ∧ t.mem = s.mem ∧
    bitOf (rpStored t.pkg 0x104) 14 = true ∧ t.pkg.out.head? = some (.readData (key pgHl 0x160) (BitVec.allOnes 64))) ∧
  (∀ (s : State) (since : Nat), s.pkg.hl.retryAt = some since → since + 1000000000 ≤ s.pkg.pace.datum →
    ∃ t, exec .cfgRetryTimeout s = .next t ∧ t.mem = s.mem ∧ t.pkg.hl.retryAt = none ∧
      t.pkg.out = .readData (key pgHl 0x154) 0xFFFFFFFF :: s.pkg.out) ∧
  (∀ (s : State) (addr bytes : Nat) (data : Item), s.pkg.standalone = true → hlMode s.pkg ≠ 0 → 0 < bytes → bytes ≤ 64 →
    (inBounce s.pkg addr bytes = true → (∀ l ∈ linesOf addr bytes, fateFor s.pkg idHostLink l false = .served) →
      (∃ t, exec (.inboundRequest true addr bytes data) s = .next t ∧
        t.mem = s.mem.store addr bytes (data.toNat % 2 ^ (8 * bytes))) ∧
      (∃ t, exec (.inboundRequest false addr bytes data) s = .next t ∧ t.mem = s.mem ∧ t.pkg.out.head? =
        some (.inboundData addr (BitVec.ofNat 512 (s.mem.read addr bytes)) (s.mem.poisoned addr bytes)))) ∧
    (inBounce s.pkg addr bytes = false → ∀ w, (w = true → inMsi s.pkg addr = false) →
      ∃ t, exec (.inboundRequest w addr bytes data) s = .next t ∧ t.mem = s.mem ∧
        t.pkg.out = .unsupported addr :: s.pkg.out ∧ reg t.pkg (key pgHl 0x168) =
          BitVec.ofNat 64 (satAdd 0xFFFFFFFF (regN s.pkg (key pgHl 0x168)) 1))) ∧
  (∀ (s : State) (h addr : Nat) (data : W32), s.pkg.standalone = true → hlMode s.pkg ≠ 0 → h < 48 →
    addr = msiBase s.pkg + 64 * h → inBounce s.pkg addr 4 = false → data.toNat % 2048 ≠ 0 →
    ∃ t, exec (.inboundMsi addr 4 data) s = .next t ∧ t.mem = s.mem ∧
      t.pkg.int.eip = SMap.set s.pkg.int.eip (eipKey h 1 (data.toNat % 2048)) true) ∧
  (∀ (s : State) (pin : Nat) (assert : Bool), s.pkg.standalone = true → pin < 4 → s.pkg.seq.railPgCore = true →
    ∃ t, exec (.intxMessage pin assert) s = .next t ∧ t.mem = s.mem ∧
      aplic t.pkg (0x8000 + (pin + 1)) = (if assert then 1 else 0) ∧
      (assert = true → bitOf (aplic s.pkg 0) 8 = false → apMode s.pkg (pin + 1) = 4 → aplic s.pkg (0x8000 + (pin + 1)) = 0 →
        bitOf (aplic t.pkg apPending) (pin + 1) = true))

/-- R533, Table 15-5 (the codes of SPDM 1.2 are the model's, log entry 30): the surveyor answers each request with the data
it asks for once the negotiation has come that far, keeps two sessions, and ends them.
R534, R509: a stream goes secure only with keys for both directions, programmed in a secured session; a check failure of a PCIe
stream makes it insecure and sets AER, one of CXL.cachemem leaves its stream as it is. -/
def Obligations.SpdmIsAnsweredAndIdeNeedsBothKeys : Prop :=
  (∀ (s : State), s.pkg.boot.running.isNone = false →
    (∃ t, exec .spdmGetVersion s = .next t ∧ t.mem = s.mem ∧ t.pkg.hl.spdm = 1 ∧ t.pkg.hl.sessions = [] ∧
      t.pkg.out = .spdm 0x04 0 0x12 :: s.pkg.out) ∧
    (1 ≤ s.pkg.hl.spdm → ∃ t, exec .spdmGetCapabilities s = .next t ∧ t.mem = s.mem ∧ 2 ≤ t.pkg.hl.spdm ∧
      t.pkg.out = .spdm 0x61 0 0 :: s.pkg.out) ∧
    (2 ≤ s.pkg.hl.spdm → (∃ t, exec (.spdmNegotiateAlgorithms true) s = .next t ∧ t.mem = s.mem ∧ t.pkg.hl.spdm = 3 ∧
        t.pkg.out = .spdm 0x63 0 0 :: s.pkg.out) ∧
      (∃ t, exec (.spdmNegotiateAlgorithms false) s = .next t ∧ t.pkg.hl = s.pkg.hl ∧
        t.pkg.out = .spdm 0x7F 1 0 :: s.pkg.out)) ∧
    (3 ≤ s.pkg.hl.spdm →
      (∃ t, exec .spdmGetDigests s = .next t ∧ t.mem = s.mem ∧ t.pkg.out = .spdm 0x01 1 (Config.digest 2 0) :: s.pkg.out) ∧
      (∃ t, exec (.spdmGetCertificate 0) s = .next t ∧ t.mem = s.mem ∧
        t.pkg.out = .spdm 0x02 0 (Config.digest 3 0) :: s.pkg.out) ∧
      (∃ t v, exec (.spdmChallenge 0) s = .next t ∧ t.mem = s.mem ∧ t.pkg.out = .spdm 0x03 0 v :: s.pkg.out) ∧
      (∀ index, 0 < index → index ≤ 5 → ∃ t, exec (.spdmGetMeasurements index) s = .next t ∧ t.mem = s.mem ∧
        t.pkg.out = .spdm 0x60 index (measurement s.pkg index) :: s.pkg.out) ∧
      (∀ reqId, s.pkg.hl.sessions = [] → reqId < 65536 → ∃ t, exec (.spdmKeyExchange reqId) s = .next t ∧ t.mem = s.mem ∧
        session t.pkg (65536 + reqId) = 1 ∧ t.pkg.out = .spdm 0x64 (65536 + reqId) 0 :: s.pkg.out) ∧
      (∀ id, session s.pkg id = 1 → (∃ t, exec (.spdmFinish id true) s = .next t ∧ t.mem = s.mem ∧ session t.pkg id = 2) ∧
        (∃ t, exec (.spdmFinish id false) s = .next t ∧ t.mem = s.mem ∧ session t.pkg id = 0)) ∧
      (∀ id, session s.pkg id = 2 →
        (∃ t, exec (.spdmKeyUpdate id) s = .next t ∧ t.pkg.out = .spdm 0x69 0 0 :: s.pkg.out ∧ t.pkg.hl = s.pkg.hl) ∧
        (∃ t, exec (.spdmHeartbeat id) s = .next t ∧ t.pkg.out = .spdm 0x68 0 0 :: s.pkg.out ∧ t.pkg.hl = s.pkg.hl) ∧
        (∃ t, exec (.spdmEndSession id) s = .next t ∧ t.pkg.out = .spdm 0x6C 0 0 :: s.pkg.out ∧ session t.pkg id = 0)) ∧
      (∀ id, session s.pkg id ≠ 2 → ∃ t, exec (.spdmHeartbeat id) s = .next t ∧ t.pkg.hl = s.pkg.hl ∧
        t.pkg.out = .spdm 0x7F 2 0 :: s.pkg.out))) ∧
  ((∀ (s : State) (id stream : Nat), s.pkg.boot.running.isNone = false → 3 ≤ s.pkg.hl.spdm → session s.pkg id = 2 → stream < 4 →
    (∃ t, exec (.ideKm id stream 0) s = .next t ∧ t.mem = s.mem ∧
      ideStream t.pkg stream = { ideStream s.pkg stream with tx := true }) ∧
    (∃ t, exec (.ideKm id stream 1) s = .next t ∧ t.mem = s.mem ∧
      ideStream t.pkg stream = { ideStream s.pkg stream with rx := true }) ∧
    (∃ t, exec (.ideKm id stream 2) s = .next t ∧ t.mem = s.mem ∧
      ideStream t.pkg stream = if (ideStream s.pkg stream).tx && (ideStream s.pkg stream).rx then
        { ideStream s.pkg stream with secure := true, insecure := false } else ideStream s.pkg stream) ∧
    (∃ t, exec (.ideKm id stream 3) s = .next t ∧ t.mem = s.mem ∧ ideStream t.pkg stream = ⟨false, false, false, false⟩)) ∧
  (∀ (s : State) (stream : Nat), (ideStream s.pkg stream).secure = true →
    (∃ t, exec (.ideCheck stream false) s = .next t ∧ t.mem = s.mem ∧ ideStream t.pkg stream = ⟨false, false, false, true⟩ ∧
      bitOf (cfgStored t.pkg 0x104) 28 = true) ∧
    (∃ t, exec (.ideCheck stream true) s = .next t ∧ t.mem = s.mem ∧ ideStream t.pkg stream = ideStream s.pkg stream)))

/-! ## Proilad ports (spec/16) -/

/-- R543, R545, R549 to R552, R560, R562: training ends TRAINED or ADMITTED with the partner's node and port, repeats below 4 lanes, or is
INCOMPATIBLE; a good flit with the next SEQ is accepted, another discarded, a bad one answered by a NAK; a replay sends every
unacknowledged flit in order, and the eighth in a row after a timeout takes the link down instead; flits accepted are acknowledged,
and credits updated; a link that goes down, or hears nothing for 10 µs, retrains where its cable, DISABLE and the lasers allow, and
after 1 ms its messages return to the router.
R556 to R558, R560: a lane that loses lock leaves its direction, as does one the partner drops; LANE_ADD and a relock add a lane
below width 8, at width 8 a relocked lane is the hot spare. -/
def Obligations.PortsTrainCarryFlitsAndSwapLanes : Prop :=
  ((∀ (s : State) (i badTx badRx node pport vmax vmin features rtt : Nat) (tx rx : List Nat), i < 6 → cable s.pkg i = true →
    plDisabled s.pkg i = false → s.pkg.seq.lasers = true → plState s.pkg i = 1 ∨ plState s.pkg i = 2 ∨ plState s.pkg i = 8 →
    tx = goodLanes s.pkg i 0 badTx → rx = goodLanes s.pkg i 1 badRx →
    (4 ≤ tx.length → 4 ≤ rx.length → 1 ≤ vmax → vmin ≤ 1 →
      ∃ t, exec (.portTraining i badTx badRx node pport vmax vmin features rtt) s = .next t ∧ t.mem = s.mem ∧
        (plState t.pkg i = 3 ∨ plState t.pkg i = 4) ∧ (port t.pkg i).trained = true ∧
        fld t.pkg (key (pgPl i) 0x108) 13 0 = node % 16384 ∧ fld t.pkg (key (pgPl i) 0x108) 18 16 = pport % 8) ∧
    (tx.length < 4 ∨ rx.length < 4 → ∃ t, exec (.portTraining i badTx badRx node pport vmax vmin features rtt) s = .next t ∧
      t.mem = s.mem ∧ plState t.pkg i = 2) ∧
    (4 ≤ tx.length → 4 ≤ rx.length → vmax = 0 ∨ 1 < vmin →
      ∃ t, exec (.portTraining i badTx badRx node pport vmax vmin features rtt) s = .next t ∧ t.mem = s.mem ∧
        plState t.pkg i = 7)) ∧
  (∀ (s : State) (i : Nat) (f : Flit), linkUp s.pkg i = true →
    (∃ t, exec (.flitReceive i f false) s = .next t ∧ t.mem = s.mem ∧ (port t.pkg i).rx = (port s.pkg i).rx ∧
      t.pkg.out = .ackNak i true (((port s.pkg i).expect + 65535) % 65536) :: s.pkg.out) ∧
    (f.kind = 1 → f.seq = (port s.pkg i).expect → f.ackNak = 0 → f.crValid = false →
      ∃ t, exec (.flitReceive i f true) s = .next t ∧ t.mem = s.mem ∧ (port t.pkg i).rx = (port s.pkg i).rx ++ f.slots ∧
        (port t.pkg i).expect = ((port s.pkg i).expect + 1) % 65536) ∧
    (f.kind = 1 → f.seq ≠ (port s.pkg i).expect → f.ackNak = 0 → f.crValid = false →
      ∃ t, exec (.flitReceive i f true) s = .next t ∧ t.mem = s.mem ∧ (port t.pkg i).rx = (port s.pkg i).rx ∧
        (port t.pkg i).expect = (port s.pkg i).expect)) ∧
  (∀ (s : State) (i ack : Nat) (x : PortSt), linkUp s.pkg i = true → x = port (ackTo s.pkg i ack) i → x.replay ≠ [] →
    x.tries + 1 < 8 → ∃ t, exec (.nakReplay i ack) s = .next t ∧ t.mem = s.mem ∧ (port t.pkg i).replay = x.replay ∧
      t.pkg.out = (x.replay.map (fun f => OutMsg.flit i f.1 f.2)).reverse ++ s.pkg.out) ∧
  (∀ (s : State) (i : Nat) (x : PortSt), linkUp s.pkg i = true → x = port s.pkg i → x.replay ≠ [] →
    x.sentAt + regN s.pkg (key (pgPl i) 0x120) + 2000 ≤ timerNow s.pkg →
    (x.tries + 1 < 8 → ∃ t, exec (.replayTimeout i) s = .next t ∧ t.mem = s.mem ∧ (port t.pkg i).replay = x.replay ∧
      t.pkg.out = (x.replay.map (fun f => OutMsg.flit i f.1 f.2)).reverse ++ s.pkg.out) ∧
    (x.tries + 1 = 8 → ∃ t, exec (.replayTimeout i) s = .next t ∧ t.mem = s.mem ∧ linkUp t.pkg i = false)) ∧
  (∀ (s : State) (i : Nat), linkUp s.pkg i = true → (port s.pkg i).accepted ≠ 0 → ∃ t, exec (.ackSend i) s = .next t ∧
    t.mem = s.mem ∧ (port t.pkg i).accepted = 0 ∧
    t.pkg.out = .ackNak i false (((port s.pkg i).expect + 65535) % 65536) :: s.pkg.out) ∧
  (∀ (s : State) (i cls vc k : Nat), linkUp s.pkg i = true → cls < 4 → vc < 4 → k = 4 * cls + vc →
    ∃ t, exec (.proiladCreditUpdate i cls vc) s = .next t ∧ t.mem = s.mem ∧ t.pkg.regs = s.pkg.regs ∧
      t.pkg.out = .slotCredit i cls vc ((SMap.get (port s.pkg i).freed k 0 + slotDepth k) % 65536) :: s.pkg.out) ∧
  (∀ (s : State) (i : Nat), linkUp s.pkg i = true →
    (∀ cause, ∃ t, exec (.linkDown i cause) s = .next t ∧ t.mem = s.mem ∧ linkUp t.pkg i = false ∧
      (port t.pkg i).downAt = some s.pkg.pace.datum ∧ plState t.pkg i = untrained s.pkg i 8) ∧
    ((port s.pkg i).lastRx + 10000 ≤ s.pkg.pace.datum → ∃ t, exec (.flitSilence i) s = .next t ∧ t.mem = s.mem ∧
      linkUp t.pkg i = false ∧ plState t.pkg i = untrained s.pkg i 8) ∧
    (s.pkg.pace.datum < (port s.pkg i).lastRx + 10000 → exec (.flitSilence i) s = .next s)) ∧
  (∀ (s : State) (i since : Nat), i < 6 → (port s.pkg i).downAt = some since → linkUp s.pkg i = false →
    since + 1000000 ≤ s.pkg.pace.datum → ∃ t, exec (.portUnusable i) s = .next t ∧ t.mem = s.mem ∧
      (port t.pkg i).queued = [] ∧ (port t.pkg i).replay = [] ∧ t.pkg.rt.inject = s.pkg.rt.inject ++
        ((port s.pkg i).replay.flatMap (·.2) ++ (port s.pkg i).queued).map (fun (m : Msg) => { m with replayed := true }))) ∧
  ((∀ (s : State) (i dir lane : Nat), i < 6 → dir < 2 → lane < 9 →
    bit s.pkg (lanesKey i dir) lane = true ∨ fld s.pkg (lanesKey i dir) 21 18 = lane →
    ∃ t, exec (.laneLockLoss i dir lane) s = .next t ∧ t.mem = s.mem ∧ bit t.pkg (lanesKey i dir) lane = false ∧
      fld t.pkg (lanesKey i dir) 21 18 ≠ lane) ∧
  (∀ (s : State) (i lane : Nat), linkUp s.pkg i = true → lane < 9 → bit s.pkg (lanesKey i 0) lane = true →
    ∃ t, exec (.laneDrop i lane) s = .next t ∧ t.mem = s.mem ∧ bit t.pkg (lanesKey i 0) lane = false ∧
      (∀ l, l < 9 → l ≠ lane → bit t.pkg (lanesKey i 0) l = bit s.pkg (lanesKey i 0) l)) ∧
  (∀ (s : State) (i dir lane : Nat), linkUp s.pkg i = true → dir < 2 → lane < 9 → bit s.pkg (lanesKey i dir) lane = false →
    bit s.pkg (lanesKey i dir) (9 + lane) = false →
    (laneWidth s.pkg i dir < 8 → laneAddOn s.pkg i = true →
      (∃ t, exec (.laneAdd i dir lane) s = .next t ∧ t.mem = s.mem ∧ bit t.pkg (lanesKey i dir) lane = true) ∧
      (∃ t, exec (.laneRelock i dir lane) s = .next t ∧ t.mem = s.mem ∧ bit t.pkg (lanesKey i dir) lane = true ∧
        .laneAdd i dir lane ∈ t.pkg.out)) ∧
    (8 ≤ laneWidth s.pkg i dir → ∃ t, exec (.laneRelock i dir lane) s = .next t ∧ t.mem = s.mem ∧
      fld t.pkg (lanesKey i dir) 21 18 = lane ∧ bit t.pkg (lanesKey i dir) lane = false)))

/-- R540, R548, R561, R563 (Tables 14-5 and 16-5): a message for this node arrives, another leaves by the first usable port of its
bearing entry, in its records' form on that link, or is undeliverable, counted and reported; at a home that serves it, RD returns the
line, the writes, the atomic and the records of a COL_HEAD change memory and are answered; an answer ends a hart's access that its
TAG names, and one that names none changes nothing else; a service write lands in the mailbox. -/
def Obligations.MessagesAreRoutedServedAndAnswered : Prop :=
  (∀ (s : State) (port' : Nat) (m : Msg), 6 ≤ port' → s.pkg.rt.inject.contains m = true →
    (m.dest = thisNode s.pkg → ∃ t, exec (.routeMessage port' m) s = .next t ∧ t.mem = s.mem ∧
      t.pkg.rt.arrived = s.pkg.rt.arrived ++ [m] ∧ t.pkg.rt.inject = s.pkg.rt.inject.erase m) ∧
    (∀ i alt, m.dest ≠ thisNode s.pkg → pickPort s.pkg (SMap.get s.pkg.rt.bearing m.dest 0x1FF) = some (i, alt) →
      m.hops ≠ 0 → ∃ t x, exec (.routeMessage port' m) s = .next t ∧ t.mem = s.mem ∧
        t.pkg.rt.inject = s.pkg.rt.inject.erase m ∧ x = { m with hops := m.hops - 1, vc := nextVc s.pkg 6 i alt m.vc } ∧
        (x ∈ (port t.pkg i).queued ∨ ∃ seq ms, .flit i seq ms ∈ t.pkg.out ∧ onLink s.pkg i x ∈ ms)) ∧
    (m.dest ≠ thisNode s.pkg →
      pickPort s.pkg (SMap.get s.pkg.rt.bearing m.dest 0x1FF) = none ∨ m.hops = 0 → m.op ≠ 8 →
      ∃ t x, exec (.routeMessage port' m) s = .next t ∧ t.mem = s.mem ∧
        reg t.pkg (key pgRt 0x10C) = BitVec.ofNat 64 (satAdd 0xFFFFFFFF (regN s.pkg (key pgRt 0x10C)) 1) ∧
        t.pkg.rt.inject = s.pkg.rt.inject.erase m ++ [x] ∧ x.dest = m.src ∧ bitsOf x.payload 15 0 = 0x901)) ∧
  (∀ (s : State) (i : Nat) (m : Msg), i < 6 → nextRx (port s.pkg i) m = true → m.dest = thisNode s.pkg →
    ∃ t, exec (.routeMessage i m) s = .next t ∧ t.mem = s.mem ∧ t.pkg.rt.arrived = s.pkg.rt.arrived ++ [m] ∧
      (port t.pkg i).rx = (port s.pkg i).rx.erase m) ∧
  (∀ (s : State) (m : Msg) (pa : Nat), landedAt s.pkg m = some pa →
    (m.op = 1 → fateFor s.pkg (idNode m.src) pa false = .served → (dirLine s.pkg (pa / 64)).host ≠ 2 →
      ∃ t x, exec (.proiladRd m) s = .next t ∧ t.mem = s.mem ∧ t.pkg.rt.inject = s.pkg.rt.inject ++ [x] ∧ x.op = 5 ∧
        x.dest = m.src ∧ x.tag = m.tag ∧ x.payload = s.mem.line pa ∧ x.poison = s.mem.poisoned (pa / 64 * 64) 64) ∧
    (m.op = 2 → fateFor s.pkg (idNode m.src) pa true = .served → hostHolds s.pkg pa = false →
      ∃ t x, exec (.proiladWr m) s = .next t ∧ t.mem = s.mem.storeLine pa m.payload m.poison ∧
        t.pkg.rt.inject = s.pkg.rt.inject ++ [x] ∧ x.op = 6 ∧ x.dest = m.src ∧ x.tag = m.tag) ∧
    (m.op = 3 → fateFor s.pkg (idNode m.src) pa false = .served → hostHolds s.pkg pa = false →
      ∃ t x, exec (.proiladWr8 m) s = .next t ∧ t.mem = maskBytes m pa s.mem ∧ t.pkg.rt.inject = s.pkg.rt.inject ++ [x] ∧
        x.op = 6 ∧ x.dest = m.src ∧ x.tag = m.tag ∧ ∀ a, a < pa / 8 * 8 ∨ pa / 8 * 8 + 8 ≤ a → t.mem.byte a = s.mem.byte a) ∧
    (m.op = 4 → m.arg ≤ 1 → pa % 8 = 0 → fateFor s.pkg (idNode m.src) pa false = .served → hostHolds s.pkg pa = false →
      s.mem.poisoned pa 8 = false →
      ∃ t x, exec (.proiladAtom m) s = .next t ∧ t.mem = s.mem.write pa 8 (if m.arg = 0 then
          BitVec.ofNat 64 (s.mem.read pa 8) + m.payload.setWidth 64 else m.payload.setWidth 64).toNat ∧
        t.pkg.rt.inject = s.pkg.rt.inject ++ [x] ∧ x.op = 6 ∧ x.dest = m.src ∧ x.tag = m.tag) ∧
    (m.op = 7 → (colLines m pa).any (fun a => fateFor s.pkg (idNode m.src) a false == .waits) = false → (colLines m pa).any (hostHolds s.pkg) = false →
      ∃ t x, exec (.colHead m) s = .next t ∧ t.mem = (landRecs m pa (m.recs.take (colCount m)) s).mem ∧
        t.pkg.rt.inject.getLast? = some x ∧ x.op = 6 ∧ x.dest = m.src ∧ x.tag = m.tag)) ∧
  (∀ (s : State) (m : Msg) (r : Remote) (h rd size : Nat) (signed : Bool) (va : W64), s.pkg.rt.arrived.contains m = true →
    m.op = 5 → remoteAt s.pkg (remoteKey m.src m.tag) = some r → r.msg.op = 1 → r.who = .coreLoad h rd size signed va →
    m.poison = false → 0 < rd → ∃ t, exec (.rdata m) s = .next t ∧ t.mem = s.mem ∧
      remoteAt t.pkg (remoteKey m.src m.tag) = none ∧ SMap.get (hart t.pkg h).x rd 0 =
        loadValue (m.payload.toNat / 2 ^ (8 * (r.msg.offset % 64))) size signed) ∧
  (∀ (s : State) (m : Msg) (r : Remote) (h : Nat) (va : W64), s.pkg.rt.arrived.contains m = true →
    m.op = 6 → remoteAt s.pkg (remoteKey m.src m.tag) = some r → r.msg.op ≠ 1 → r.who = .coreStore h va →
    ∃ t, exec (.wrack m) s = .next t ∧ t.mem = s.mem ∧ remoteAt t.pkg (remoteKey m.src m.tag) = none) ∧
  (∀ (s : State) (m : Msg), s.pkg.rt.arrived.contains m = true → remoteAt s.pkg (remoteKey m.src m.tag) = none →
    (m.op = 5 → ∃ t, exec (.rdata m) s = .next t ∧ t.mem = s.mem ∧ t.pkg.rt.arrived = s.pkg.rt.arrived.erase m) ∧
    (m.op = 6 → ∃ t, exec (.wrack m) s = .next t ∧ t.mem = s.mem ∧ t.pkg.rt.arrived = s.pkg.rt.arrived.erase m)) ∧
  (∀ (s : State) (m : Msg), s.pkg.rt.arrived.contains m = true → m.op = 8 → bitsOf m.payload 7 0 ≠ 1 →
    ∃ t, exec (.svcWr m) s = .next t ∧ t.mem = s.mem ∧ t.pkg.rt.mailbox.getLast? = some m.payload)

/-- R540, R565, R567 to R572, R583, R715: a press drains an admitted port or is refused, takes a port in training at once to DRAINED, and is
not seen while SGPIO_FAULT is set; the drain's end, or 2 s, is DRAINED, a cancel here or by the partner brings the port back;
PL_CONTROL does as the button and disables a port; cables bring a port down or into training; the router's registers take their
values. -/
def Obligations.PortsDrainAndTheRouterIsWritten : Prop :=
  (∀ (s : State) (i : Nat), i < 6 →
    (bit s.pkg (key pgOps 0x100) 31 = true → exec (.portButtonPress i) s = .next s) ∧
    (bit s.pkg (key pgOps 0x100) 31 = false → plState s.pkg i = 4 → lastPort s.pkg i = false → ∃ t, exec (.portButtonPress i) s = .next t ∧ t.mem = s.mem ∧
      plState t.pkg i = 5 ∧ (port t.pkg i).drainAt = s.pkg.pace.datum ∧ t.pkg.out.head? = some (.drainFlit i)) ∧
    (bit s.pkg (key pgOps 0x100) 31 = false → plState s.pkg i = 4 → lastPort s.pkg i = true → ∃ t, exec (.portButtonPress i) s = .next t ∧ t.mem = s.mem ∧
      plState t.pkg i = 4 ∧ fld t.pkg (plStatus i) 23 22 = 3 ∧
      (port t.pkg i).flashEnd = some (s.pkg.pace.datum + 5000000000)) ∧
    (bit s.pkg (key pgOps 0x100) 31 = false → plState s.pkg i = 2 ∨ plState s.pkg i = 3 → ∃ t, exec (.portButtonPress i) s = .next t ∧ t.mem = s.mem ∧
      plState t.pkg i = 6) ∧
    (plState s.pkg i = 4 → ∃ t, exec (.drain i) s = .next t ∧ t.mem = s.mem ∧ plState t.pkg i = 5 ∧
      (port t.pkg i).answered = true ∧ t.pkg.out.head? = some (.drainFlit i)) ∧
    (plState s.pkg i = 5 → (port s.pkg i).answered = false → ∃ t, exec (.drainFlitRepeat i) s = .next t ∧ t.mem = s.mem ∧
      t.pkg.out = .drainFlit i :: s.pkg.out) ∧
    (plState s.pkg i = 5 → (port s.pkg i).queued = [] → (port s.pkg i).replay = [] → (port s.pkg i).answered = true →
      (port s.pkg i).drainAt + 500000000 ≤ s.pkg.pace.datum → ∃ t, exec (.portDrained i) s = .next t ∧ t.mem = s.mem ∧
        plState t.pkg i = 6) ∧
    (plState s.pkg i = 5 → (port s.pkg i).drainAt + 2000000000 ≤ s.pkg.pace.datum → ∃ t, exec (.drainTimeout i) s = .next t ∧
      t.mem = s.mem ∧ plState t.pkg i = 6 ∧ (port t.pkg i).queued = []) ∧
    (plState s.pkg i = 5 ∨ plState s.pkg i = 6 →
      ((port s.pkg i).trained = true →
        (∃ t, exec (.drainCancel i) s = .next t ∧ t.mem = s.mem ∧ (plState t.pkg i = 3 ∨ plState t.pkg i = 4) ∧
          .drainCancel i ∈ t.pkg.out) ∧
        (∃ t, exec (.drainCancelFlit i) s = .next t ∧ t.mem = s.mem ∧ (plState t.pkg i = 3 ∨ plState t.pkg i = 4))) ∧
      ((port s.pkg i).trained = false → ∃ t, exec (.drainCancel i) s = .next t ∧ t.mem = s.mem ∧
        plState t.pkg i = untrained s.pkg i 2)) ∧
    (∀ x, (port s.pkg i).flashEnd = some x → x ≤ s.pkg.pace.datum → ∃ t, exec (.drainRefusedFlashEnd i) s = .next t ∧
      t.mem = s.mem ∧ (port t.pkg i).flashEnd = none ∧ fld t.pkg (plStatus i) 23 22 = (lamps (plState s.pkg i)).2)) ∧
  (∀ (s : State) (rq : Requester) (i : Nat) (v : W32) (b : W64), i < 6 → writeFate s.pkg rq (pgPl i) 0x104 = .accepted →
    b = v.setWidth 64 →
    (bitOf b 0 = true → bitOf b 1 = false → bitOf b 2 = plDisabled s.pkg i → plState s.pkg i = 4 → lastPort s.pkg i = false →
      ∃ t, exec (.plControlDrain rq i v) s = .next t ∧ t.mem = s.mem ∧ plState t.pkg i = 5) ∧
    (bitOf b 0 = false → bitOf b 1 = true → bitOf b 2 = plDisabled s.pkg i → plState s.pkg i = 5 ∨ plState s.pkg i = 6 →
      ∃ t, exec (.plControlCancel rq i v) s = .next t ∧ t.mem = s.mem ∧ .drainCancel i ∈ t.pkg.out ∧
        plState t.pkg i ≠ 5 ∧ plState t.pkg i ≠ 6) ∧
    (bitOf b 0 = false → bitOf b 1 = false → bitOf b 2 = true → plDisabled s.pkg i = false →
      ∃ t, exec (.plControlDisable rq i v) s = .next t ∧ t.mem = s.mem ∧ plDisabled t.pkg i = true ∧ plState t.pkg i = 0 ∧
        linkUp t.pkg i = false)) ∧
  (∀ (s : State) (i : Nat), i < 6 →
    (cable s.pkg i = true → (plState s.pkg i = 0 → (port s.pkg i).trained = false) → ∃ t, exec (.cableRemoved i) s = .next t ∧ t.mem = s.mem ∧ cable t.pkg i = false ∧
      plState t.pkg i = 0 ∧ linkUp t.pkg i = false ∧ fld t.pkg (plStatus i) 25 22 = 0) ∧
    (cable s.pkg i = false → plDisabled s.pkg i = false → s.pkg.seq.lasers = true →
      ∃ t, exec (.cableInserted i) s = .next t ∧ t.mem = s.mem ∧ cable t.pkg i = true ∧ plState t.pkg i = 2)) ∧
  (∀ (s : State) (rq : Requester) (v : W32), writeFate s.pkg rq pgRt 0x114 = .accepted → ∃ t,
    exec (.bearingWrite rq v) s = .next t ∧ t.mem = s.mem ∧
      SMap.get t.pkg.rt.bearing (fld s.pkg (key pgRt 0x110) 13 0) 0x1FF = bitsOf (v.setWidth 64 : W64) 8 0 ∧
      fld t.pkg (key pgRt 0x110) 13 0 = (fld s.pkg (key pgRt 0x110) 13 0 + 1) % 16384) ∧
  (∀ (s : State) (rq : Requester) (v : W32), writeFate s.pkg rq pgRt 0x104 = .accepted →
    (s.pkg.rt.nodeLocked = false → ∃ t, exec (.nodeIdWrite rq v) s = .next t ∧ t.mem = s.mem ∧
      thisNode t.pkg = bitsOf (v.setWidth 64 : W64) 13 0 ∧ t.pkg.rt.nodeLocked = true) ∧
    (s.pkg.rt.nodeLocked = true → exec (.nodeIdWrite rq v) s = .next s)) ∧
  (∀ (s : State) (rq : Requester) (g word k : Nat) (v : W64), g < 256 → word < 2 →
    writeFate s.pkg rq (groupPage g) (groupOff g word) = .accepted → k = key (groupPage g) (groupOff g word) →
    (groupBusy s.pkg g = false → ∃ t, exec (.groupEntryWrite rq g word v) s = .next t ∧ t.mem = s.mem ∧
      (word = 0 → fld t.pkg k 63 63 = bitsOf v 63 63 ∧ fld t.pkg k 61 48 = bitsOf v 61 48 ∧
        fld t.pkg k 45 32 = bitsOf v 45 32 ∧ fld t.pkg k 29 16 = bitsOf v 29 16 ∧ fld t.pkg k 13 0 = bitsOf v 13 0) ∧
      (word = 1 → fld t.pkg k 25 16 = bitsOf v 25 16 ∧ fld t.pkg k 9 0 = bitsOf v 9 0)) ∧
    (groupBusy s.pkg g = true → exec (.groupEntryWrite rq g word v) s = .next s))

/-! ## Collectives (spec/16 R574 to R579) -/

/-- R576, R577, R579: a ring phase that the unit has room for sends the records of its first step, at most 256, as COL_HEAD; waits for
the arrival a step builds on; in a group of one writes the rank's own sum; ends when its steps are done, its arrivals have landed
and every send is acknowledged; and after 1 s of waiting for an arrival, and not before, completes WINDOW_FAULT. -/
def Obligations.RingPhasesSendWaitAndEnd : Prop :=
  (∀ (s : State) (id size rank first count : Nat) (c0 c : Cmd) (recs : List Rec) (p q : Pkg), inRing s.pkg id = true →
    ringTaken s.pkg id = true → c0 = cmd s.pkg id → c = (if c0.remoteLeft = 1 then c0 else { c0 with remoteLeft := 1, waitSince := timerNow s.pkg }) →
    p = (if c0.remoteLeft = 1 then s.pkg else setCmd s.pkg id c) →
    size = groupSize s.pkg (reduceGroup c.desc) → rank = groupRank s.pkg (reduceGroup c.desc) → 2 ≤ size → c.collStep = 0 →
    c.progress = 0 → senderCheck p (collWindow s.pkg c) 2 (some c.ctx) = none →
    (first, count) = segment (reduceRecords c.desc) (rank % size) size → 0 < count → count ≤ 256 →
    remoteCount p (collNext p c) < 1024 → collRecs p s.mem c [3, 4] first count = (some (recs, none), q) →
    ∃ t x, exec (.colStepSend id) s = .next t ∧ t.mem = s.mem ∧ x ∈ t.pkg.rt.inject ∧
      x.op = 7 ∧ x.arg = 0 ∧ x.recs = recs.map (carryRec (dField c.desc 41 1 % 2 == 1)) ∧ x.offset = 80 * first) ∧
  (∀ (s : State) (id size rank st seg : Nat) (c : Cmd), inRing s.pkg id = true → ringTaken s.pkg id = true → c = cmd s.pkg id →
    size = groupSize s.pkg (reduceGroup c.desc) → rank = groupRank s.pkg (reduceGroup c.desc) →
    c.collStep < ringSteps size (reduceAlgo c.desc) → ringAwaits size rank c.collStep = some (st, seg) →
    stepLanded s.pkg c size st seg = false → ∃ t, exec (.colStepSend id) s = .next t ∧ t.mem = s.mem ∧
      t.pkg.rt = s.pkg.rt ∧ cmd t.pkg id =
        (if c.remoteLeft = 1 then c else { c with remoteLeft := 1, waitSince := timerNow s.pkg })) ∧
  (∀ (s : State) (id first count : Nat) (c0 c : Cmd) (recs : List Rec) (p q : Pkg), inRing s.pkg id = true →
    ringTaken s.pkg id = true → c0 = cmd s.pkg id → c = (if c0.remoteLeft = 1 then c0 else { c0 with remoteLeft := 1, waitSince := timerNow s.pkg }) →
    p = (if c0.remoteLeft = 1 then s.pkg else setCmd s.pkg id c) →
    groupSize s.pkg (reduceGroup c.desc) = 1 → c.collStep = 0 →
    (first, count) = segment (reduceRecords c.desc) ((groupRank s.pkg (reduceGroup c.desc) + 1) % 1) 1 →
    stagingHeld p c first count = [] → collRecs p s.mem c [3, 4] first count = (some (recs, none), q) →
    ∃ t, exec (.colStepSend id) s = .next t ∧ t.mem = (storeRecs q s.mem c first recs).2 ∧ (cmd t.pkg id).collStep = 1) ∧
  (∀ (s : State) (id : Nat) (c : Cmd), inRing s.pkg id = true → c = cmd s.pkg id →
    (ringSteps (groupSize s.pkg (reduceGroup c.desc)) (reduceAlgo c.desc) ≤ c.collStep → ringArrived s.pkg c = true →
      (remotesOf s.pkg (fun r => r == .step id)).isEmpty = true → ∃ t, exec (.ringPhaseEnd id) s = .next t ∧ t.mem = s.mem ∧
        (cmd t.pkg id).phase = .waiting ∧ (cmd t.pkg id).collPhase = 3) ∧
    (awaitsArrival s.pkg c = true → c.waitSince + 1000000000 ≤ timerNow s.pkg → ∃ t, exec (.ringPhaseTimeout id) s = .next t ∧ t.mem = s.mem ∧
      (cmd t.pkg id).phase = .finished ∧ (cmd t.pkg id).status = 0x21 ∧
      (cmd t.pkg id).detail = collWindow s.pkg c * 16) ∧
    (awaitsArrival s.pkg c = false ∨ timerNow s.pkg < c.waitSince + 1000000000 → exec (.ringPhaseTimeout id) s = .next s))

/-! ## Power (spec/17) -/

/-- R587, R589 to R593, R596, R606 to R608, R712: a rail is written with its newest target at most once in 50 µs; telemetry, means and
budgets stand in their registers; the limiter acts above the 1 µs bound; a die above its limit loses 5 % of its budget, a
stack above 95 °C half its bandwidth until below 93 °C. -/
def Obligations.RailsBudgetsAndTemperaturesAreFollowed : Prop :=
  (∀ (s : State) (r k mv : Nat), r < 5 → mv < 1024 → s.pkg.pwr.wanted.find? (fun x => x.1 == r) = some (k, mv) →
    ((∀ y, s.pkg.pwr.lastWrite.find? (fun x => x.1 == r) = some y → y.2 + 50000 ≤ s.pkg.pace.datum) →
      ∃ t, exec (.voltageWrite r) s = .next t ∧ t.mem = s.mem ∧ fld t.pkg (railKey r) 30 21 = mv ∧
        t.pkg.pwr.wanted.any (fun x => x.1 == r) = false ∧ SMap.get t.pkg.pwr.lastWrite r 0 = s.pkg.pace.datum) ∧
    (∀ y, s.pkg.pwr.lastWrite.find? (fun x => x.1 == r) = some y → s.pkg.pace.datum < y.2 + 50000 →
      exec (.voltageWrite r) s = .next s)) ∧
  (∀ (s : State) (r mv amps : Nat), r < 5 → mv < 1024 → amps < 2048 →
    (∃ t, exec (.railTelemetry r mv amps true true) s = .next t ∧ t.mem = s.mem ∧ fld t.pkg (railKey r) 20 11 = mv ∧
      fld t.pkg (railKey r) 10 0 = amps ∧ bit t.pkg (railKey r) 31 = true) ∧
    (∃ t, exec (.railTelemetry r mv amps false true) s = .next t ∧ t.mem = s.mem ∧ fld t.pkg (railKey r) 20 11 = mv ∧
      bit t.pkg (railKey r) 31 = bit s.pkg (railKey r) 31) ∧
    (∀ settled, ∃ t, exec (.railTelemetry r mv amps settled false) s = .next t ∧ t.mem = s.mem ∧
      fld t.pkg (railKey r + 4) 15 0 = min 65535 (fld s.pkg (railKey r + 4) 15 0 + 1) ∧
      t.pkg.pwr.wanted.any (fun x => x.1 == r) = true)) ∧
  (∀ (s : State) (us1 ms1 : Nat),
    (∃ t, exec (.powerMeasure us1 ms1) s = .next t ∧ t.mem = s.mem ∧ fld t.pkg pwrStatus 9 0 = min 1023 ms1) ∧
    (effective s.pkg 0 < ms1 → s.pkg.pwr.overSince = none → ∃ t, exec (.powerMeasure us1 ms1) s = .next t ∧
      t.pkg.pwr.overSince = some s.pkg.pace.datum ∧ bit t.pkg pwrStatus 25 = true) ∧
    (min 1020 (effective s.pkg 0 * 12 / 10) < us1 → ∃ t, exec (.powerMeasure us1 ms1) s = .next t ∧
      bit t.pkg pwrStatus 24 = true)) ∧
  (∀ (s : State), ∃ t, exec .modelCalibrate s = .next t ∧ t.mem = s.mem ∧ t.pkg.regs = s.pkg.regs ∧
    t.pkg.pwr.calibrated = s.pkg.pace.datum) ∧
  (∀ (s : State) (hbm link host proc : Nat) (r : Int) (demand shares : List Nat),
    r = ((effective s.pkg 0 : Int) - hbm - link - host) * 1000 →
    demand = (List.range 5).map (fun i => if i < 4 then sheetDemand s.pkg i else proc * 1000) →
    shares = shareCap r demand ((List.range 4).map (fun i => contourSum s.pkg i true)) →
    ∃ t, exec (.budgetRecompute hbm link host proc) s = .next t ∧ t.mem = s.mem ∧
      fld t.pkg (key pgPwr 0x11C) 29 20 = min 1023 hbm ∧ fld t.pkg (key pgPwr 0x11C) 19 10 = min 1023 link ∧
      fld t.pkg (key pgPwr 0x11C) 9 0 = min 1023 host ∧
      ∀ i, i < 5 → SMap.get t.pkg.pwr.budget i 0 = shares.getD i 0 * thermNow s.pkg i / 1000000) ∧
  (∀ (r : Int) (demand inter : List Nat), r ≤ 0 → shareCap r demand inter = [0, 0, 0, 0, 0]) ∧
  (∀ (r : Nat) (demand inter : List Nat) (i : Nat), i < 5 → (shareCap r demand inter).getD i 0 ≤ demand.getD i 0) ∧
  (∀ (s : State) (die tj : Nat), die < 5 → effective s.pkg 2 < tj → ∃ t, exec (.thermalThrottle die tj) s = .next t ∧
    t.mem = s.mem ∧ tjOf t.pkg die = tj ∧
    SMap.get t.pkg.pwr.budget die 0 = SMap.get s.pkg.pwr.budget die 0 * 95 / 100) ∧
  (∀ (s : State) (stack temp : Nat), stack < 8 → ∃ t, exec (.hbmThrottle stack temp) s = .next t ∧ t.mem = s.mem ∧
    SMap.get t.pkg.memc.throttled stack false =
      (if 95 < temp then true else if temp < 93 then false else SMap.get s.pkg.memc.throttled stack false)) ∧
  (∀ (s : State) (hottest : Nat), (hottest < 90 → ∃ t, exec (.thermalTripClear hottest) s = .next t ∧ t.mem = s.mem ∧
      bit t.pkg pwrStatus 26 = false) ∧ (90 ≤ hottest → exec (.thermalTripClear hottest) s = .next s)) ∧
  (∀ (s : State), bit s.pkg pwrStatus 27 = false → ∃ t, exec .flowRise s = .next t ∧ t.mem = s.mem ∧
    bit t.pkg pwrStatus 27 = true ∧ t.pkg.pwr.flowOkSince = some s.pkg.pace.datum) ∧
  (∀ (s : State) (rq : Requester) (v : W32), writeFate s.pkg rq pgPwr 0x2A0 = .accepted →
    ∃ t, exec (.contourClear rq v) s = .next t ∧ t.mem = s.mem ∧ bit t.pkg (key pgPwr 0x2A0) 0 = bitOf v 0 ∧
      t.pkg.pwr.contours = if bitOf v 1 then [] else s.pkg.pwr.contours)

/-- R608 to R610, R612, R613, R670: a trip or a coolant loss brings safe hold; in safe hold, at QUIESCED and from descending step 3 on it
leaves STATE and the gate and only latches or clears its status bit. RESUME is taken only under R612's conditions, a write without
RESUME only sets AUTO, and the resume's end returns STATE to NORMAL. -/
def Obligations.SafeHoldIsEnteredAndLeft : Prop :=
  (∀ (s : State) (sensor : Nat), s.pkg.boot.started = true → coreGoing s.pkg = false → seqState s.pkg ≠ 4 →
    seqState s.pkg ≠ 1 ∨ s.pkg.seq.step5Done = true → pwrState s.pkg ≠ 1 → pwrState s.pkg ≠ 2 →
    ∃ t, exec (.thermalTrip sensor) s = .next t ∧ pwrState t.pkg = 2 ∧ t.pkg.pwr.holdCause = 1 ∧
      t.pkg.pwr.gateClosed = true ∧ t.pkg.seq.memRefresh = true) ∧
  (∀ (s : State), bit s.pkg pwrStatus 27 = true → coreGoing s.pkg = false → seqState s.pkg ≠ 4 →
    seqState s.pkg ≠ 1 ∨ s.pkg.seq.step5Done = true → pwrState s.pkg ≠ 1 → pwrState s.pkg ≠ 2 →
    ∃ t, exec .coolantLoss s = .next t ∧ pwrState t.pkg = 2 ∧ t.pkg.pwr.holdCause = 1 ∧
      t.pkg.pwr.gateClosed = true ∧ t.pkg.seq.memRefresh = true) ∧
  (∀ (s : State) (sensor : Nat), s.pkg.boot.started = true → coreGoing s.pkg = true ∨ seqState s.pkg = 4 ∨
      pwrState s.pkg = 1 ∨ pwrState s.pkg = 2 → ∃ t, exec (.thermalTrip sensor) s = .next t ∧ t.mem = s.mem ∧
    bit t.pkg pwrStatus 26 = true ∧ pwrState t.pkg = pwrState s.pkg ∧ t.pkg.pwr.gateClosed = s.pkg.pwr.gateClosed) ∧
  (∀ (s : State), bit s.pkg pwrStatus 27 = true → coreGoing s.pkg = true ∨ seqState s.pkg = 4 ∨
      pwrState s.pkg = 1 ∨ pwrState s.pkg = 2 → ∃ t, exec .coolantLoss s = .next t ∧ t.mem = s.mem ∧
    bit t.pkg pwrStatus 27 = false ∧ t.pkg.pwr.flowOkSince = none ∧ pwrState t.pkg = pwrState s.pkg) ∧
  (∀ (s : State) (rq : Requester) (v : W32), writeFate s.pkg rq pgPwr 0x2C0 = .accepted →
    (bitOf v 0 = true → mayResume s.pkg = true → asleep s.pkg = false →
      ∃ t, exec (.pwrSafeHoldResume rq v) s = .next t ∧ t.mem = s.mem ∧ pwrState t.pkg = 3 ∧ t.pkg.pwr.gateClosed = false ∧
        t.pkg.seq.memRefresh = false ∧ t.pkg.seq.lasers = true) ∧
    (bitOf v 0 = true → mayResume s.pkg = false → exec (.pwrSafeHoldResume rq v) s = .next s) ∧
    (bitOf v 0 = false → ∃ t, exec (.pwrSafeHoldResume rq v) s = .next t ∧ t.mem = s.mem ∧
      t.pkg.pwr = s.pkg.pwr ∧ pwrState t.pkg = pwrState s.pkg ∧ bit t.pkg (key pgPwr 0x2C0) 1 = bitOf v 1)) ∧
  (∀ (p : Pkg), pwrState p ≠ 2 ∨ p.pwr.holdCause = 2 ∨ bit p pwrStatus 26 = true ∨ bit p pwrStatus 27 = false →
    mayResume p = false) ∧
  (∀ (s : State), pwrState s.pkg = 3 → ∃ t, exec .resumeComplete s = .next t ∧ t.mem = s.mem ∧ pwrState t.pkg = 0 ∧
    (asleep s.pkg = false → t.pkg.pwr.heldReady = []))

/-- R162, R172, R600, R602 to R604, R612, Table 17-3: the surveyor serves a waiting mailbox request for the party that made it: a limit
takes that party's slot or is refused with result 2; the commands of the host-link and queue-manager pages' owners are refused to
others with result 4; personality and power ceiling become field-book requests of that party; SET_FIXED_PACE, SAFE_HOLD_RESUME and
CONTOUR_CONTROL act, or end with result 2 or 5; and an unknown command answers 0xFF. -/
def Obligations.MailboxRequestsAreServed : Prop :=
  (∀ (s : State) (page limit cmd v : Nat) (arg : W64) (c : Instr),
    c = (if limit = 0 then .setPowerCap page arg else if limit = 1 then .setPaceCeiling page arg
      else .setThermalLimit page arg) → limit < 3 → cmd = 0x10 + limit → mboxWaits s.pkg page cmd arg = true →
    mboxParty s.pkg page < 4 → v = arg.toNat % 2 ^ limitBits limit →
    (limitValueOk limit v = true → ∃ t, exec c s = .next t ∧ t.mem = s.mem ∧
      reg t.pkg (limitKey limit (mboxParty s.pkg page)) = BitVec.ofNat 64 v ∧ bit t.pkg (mboxKey page) 31 = true ∧
      bit t.pkg (mboxKey page) 30 = false ∧ fld t.pkg (mboxKey page) 15 8 = 0) ∧
    (limitValueOk limit v = false → ∃ t, exec c s = .next t ∧ t.mem = s.mem ∧
      reg t.pkg (limitKey limit (mboxParty s.pkg page)) = reg s.pkg (limitKey limit (mboxParty s.pkg page)) ∧
      bit t.pkg (mboxKey page) 31 = true ∧ fld t.pkg (mboxKey page) 15 8 = 2)) ∧
  (∀ (s : State) (page cmd who : Nat) (arg : W64) (c : Instr), mboxWaits s.pkg page cmd arg = true →
    mboxParty s.pkg page ≠ owner s.pkg who →
    (c = .setPersonality page arg ∧ cmd = 0x01 ∧ who = pgHl) ∨ (c = .lowerPowerCeiling page arg ∧ cmd = 0x13 ∧ who = pgHl) ∨
      (c = .setFixedPace page arg ∧ cmd = 0x14 ∧ who = pgQm) ∨ (c = .safeHoldResume page arg ∧ cmd = 0x15 ∧ who = pgQm) ∨
      (c = .contourControl page arg ∧ cmd = 0x16 ∧ who = pgQm) →
    ∃ t, exec c s = .next t ∧ t.mem = s.mem ∧ t.pkg.pwr = s.pkg.pwr ∧ t.pkg.fuse = s.pkg.fuse ∧
      bit t.pkg (mboxKey page) 31 = true ∧ fld t.pkg (mboxKey page) 15 8 = 4) ∧
  (∀ (s : State) (page : Nat) (arg : W64) (r : FbReq), mboxParty s.pkg page = owner s.pkg pgHl → s.pkg.fuse.requests = [] →
    fbJudge s.pkg.fuse r = .accept →
    (mboxWaits s.pkg page 0x01 arg = true → r = ⟨1, mboxParty s.pkg page, 0, 0, arg.toNat % 2, page⟩ →
      ∃ t, exec (.setPersonality page arg) s = .next t ∧ t.mem = s.mem ∧ t.pkg.fuse.requests = [r] ∧
        bit t.pkg (mboxKey page) 30 = true) ∧
    (mboxWaits s.pkg page 0x13 arg = true → r = ⟨2, mboxParty s.pkg page, 0, 0, arg.toNat % 1024, page⟩ →
      ∃ t, exec (.lowerPowerCeiling page arg) s = .next t ∧ t.mem = s.mem ∧ t.pkg.fuse.requests = [r] ∧
        bit t.pkg (mboxKey page) 30 = true)) ∧
  (∀ (s : State) (page : Nat) (arg : W64), mboxParty s.pkg page = owner s.pkg pgQm →
    (mboxWaits s.pkg page 0x14 arg = true → 100 ≤ bitsOf arg 7 0 → bitsOf arg 7 0 ≤ 220 →
      ∃ t, exec (.setFixedPace page arg) s = .next t ∧ t.mem = s.mem ∧ fld t.pkg (key pgPwr 0x200) 7 0 = bitsOf arg 7 0 ∧
        bit t.pkg (key pgPwr 0x200) 16 = bitOf arg 16 ∧ bit t.pkg (mboxKey page) 31 = true ∧
        fld t.pkg (mboxKey page) 15 8 = 0) ∧
    (mboxWaits s.pkg page 0x14 arg = true → bitsOf arg 7 0 < 100 ∨ 220 < bitsOf arg 7 0 →
      ∃ t, exec (.setFixedPace page arg) s = .next t ∧ t.mem = s.mem ∧ t.pkg.pwr = s.pkg.pwr ∧
        fld t.pkg (mboxKey page) 15 8 = 2) ∧
    (mboxWaits s.pkg page 0x15 arg = true → mayResume s.pkg = true →
      ∃ t, exec (.safeHoldResume page arg) s = .next t ∧ t.mem = s.mem ∧ pwrState t.pkg = 3 ∧
        fld t.pkg (mboxKey page) 15 8 = 0) ∧
    (mboxWaits s.pkg page 0x15 arg = true → mayResume s.pkg = false →
      ∃ t, exec (.safeHoldResume page arg) s = .next t ∧ t.mem = s.mem ∧ t.pkg.pwr = s.pkg.pwr ∧
        fld t.pkg (mboxKey page) 15 8 = 5) ∧
    (mboxWaits s.pkg page 0x16 arg = true → ∃ t, exec (.contourControl page arg) s = .next t ∧ t.mem = s.mem ∧
      bit t.pkg (key pgPwr 0x2A0) 0 = bitOf arg 0 ∧ fld t.pkg (mboxKey page) 15 8 = 0 ∧
      t.pkg.pwr.contours = if bitOf arg 1 then [] else s.pkg.pwr.contours)) ∧
  (∀ (s : State) (page cmd : Nat) (arg : W64), cmd ∉ mboxCodes → mboxWaits s.pkg page cmd arg = true →
    ∃ t, exec (.unknownMailboxCommand page cmd arg) s = .next t ∧ t.mem = s.mem ∧ t.pkg.pwr = s.pkg.pwr ∧
      bit t.pkg (mboxKey page) 31 = true ∧ fld t.pkg (mboxKey page) 15 8 = 0xFF)

/-! ## Faults, sparing and firmware (spec/18) -/

/-- R625: a counting window that has run its length ends, and COUNT and every unit's count start at 0; one that has not goes on. R619,
R620: a correctable error that meets no threshold leaves its record, or finds the queue full. R621: RECORD_CORRUPT marks the entry
whose SEQ it carries. R637, R641: an uncorrectable DDR line is poisoned, and a row repair counted. R627 to R629: a lost CE loses READY,
reads RETIRED and, lost by cause 0 to 2, reads FAULT, loses its state and is surveyed; by a threshold it reads FAULT while its
request waits; a survey that it passes clears both and admits it where it is enabled and not held down, one that it fails leaves it
RETIRED. Another block that passes is READY. -/
def Obligations.ErrorsAreCountedAndUnitsLostSurveyedAndAdmitted : Prop :=
  (∀ (s : State) (pg : Nat), present s.pkg pg = true → firstPage pg = pg →
    SMap.get s.pkg.fault.windowAt pg 0 + windowNs s.pkg pg ≤ s.pkg.pace.datum →
    ∃ t, exec (.windowEnd pg) s = .next t ∧ t.mem = s.mem ∧ fld t.pkg (key pg 0x2C) 31 24 = 0 ∧
      SMap.get t.pkg.fault.windowAt pg 0 = s.pkg.pace.datum ∧ ∀ k, k / 4 = pg → SMap.get t.pkg.fault.trackers k [] = []) ∧
  (∀ (s : State) (pg : Nat), s.pkg.pace.datum < SMap.get s.pkg.fault.windowAt pg 0 + windowNs s.pkg pg →
    exec (.windowEnd pg) s = .next s) ∧
  (∀ (s : State) (pg : Nat) (e : ErrArgs), present s.pkg pg = true → firstPage pg = pg → blockLogs pg e.code = true →
    e.code ≠ 0x02 → ¬(e.code = 0x22 ∧ e.addrKind = 1) → ddrCode s.pkg pg e = e → escalate s.pkg pg e = (0, false) → thresholdHit s.pkg pg e = false →
    thresholdAt s.pkg pg 1 e = false → ∃ t, exec (.errorLog pg e) s = .next t ∧ t.mem = s.mem ∧
      bit t.pkg (key pg 0x10) 0 = true ∧ t.pkg.ces = s.pkg.ces ∧ t.pkg.paths = s.pkg.paths ∧
      ((queue s.pkg (key pg 0x18)).items.length < 31 →
        (queue t.pkg (key pg 0x18)).items.length = (queue s.pkg (key pg 0x18)).items.length + 1) ∧
      (31 ≤ (queue s.pkg (key pg 0x18)).items.length →
        (queue t.pkg (key pg 0x18)).items = (queue s.pkg (key pg 0x18)).items ∧ bit t.pkg (key pg 0x10) 31 = true)) ∧
  (∀ (s : State) (pg : Nat) (e : ErrArgs), present s.pkg pg = true → firstPage pg = pg → e.code = 0x02 →
    ∃ t, exec (.errorLog pg e) s = .next t ∧ t.mem = s.mem ∧
      queue t.pkg (key pg 0x18) = (queue s.pkg (key pg 0x18)).corrupt (e.detail % 65536)) ∧
  (∀ (s : State) (c : Nat) (e : ErrArgs), c < 8 → present s.pkg (pgDdr c) = true → e.code = 0x41 → e.addrKind = 1 →
    escalate s.pkg (pgDdr c) e = (1, false) → populated s.pkg e.addr = true → inRepair s.pkg e.addr = false →
    replicaOf s.pkg e.addr = none → ∃ t, exec (.errorLog (pgDdr c) e) s = .next t ∧ t.mem = s.mem.setPoison e.addr ∧
      fld t.pkg (key (pgDdr c) 0x140) 15 0 = min 65535 (fld s.pkg (key (pgDdr c) 0x140) 15 0 + 1)) ∧
  (∀ (s : State) (n cause : Nat) (c : Instr), ceOk n = true → present s.pkg (pgCe n) = true →
    retired s.pkg (pgCe n) = false →
    (c = .ceLost n cause ∧ cause < 3) ∨
      (c = .hubWatchdog n ∧ (ce s.pkg n).cmd.isSome = true ∧ halted s.pkg (n / 256) = false) →
    ∃ t, exec c s = .next t ∧ t.mem = s.mem ∧ inFault t.pkg (pgCe n) = true ∧ retired t.pkg (pgCe n) = true ∧
      surveying t.pkg (pgCe n) = true ∧ ready t.pkg (pgCe n) = false ∧ ce t.pkg n = Ce.empty) ∧
  (∀ (s : State) (n : Nat), ceOk n = true → present s.pkg (pgCe n) = true → retired s.pkg (pgCe n) = false →
    ∃ t, exec (.ceLost n 3) s = .next t ∧ t.mem = s.mem ∧ retired t.pkg (pgCe n) = true ∧ ready t.pkg (pgCe n) = false ∧
      (s.pkg.fuse.requests ≠ [] → inFault t.pkg (pgCe n) = true)) ∧
  (∀ (s : State) (n failing : Nat), ceOk n = true → present s.pkg (pgCe n) = true → surveying s.pkg (pgCe n) = true →
    cePos n ≠ SMap.get s.pkg.fuse.sparePos (ceQd n) 24 →
    (failing = 0 → ∃ t, exec (.surveyComplete (pgCe n) failing) s = .next t ∧ t.mem = s.mem ∧
      inFault t.pkg (pgCe n) = false ∧ retired t.pkg (pgCe n) = false ∧ surveying t.pkg (pgCe n) = false ∧
      ce t.pkg n = Ce.empty ∧
      (enabled s.pkg (pgCe n) = true → heldDown s.pkg (pgCe n) = false → ready t.pkg (pgCe n) = true)) ∧
    (failing ≠ 0 → ∃ t, exec (.surveyComplete (pgCe n) failing) s = .next t ∧ t.mem = s.mem ∧
      retired t.pkg (pgCe n) = true ∧ (s.pkg.fuse.requests ≠ [] → inFault t.pkg (pgCe n) = true))) ∧
  (∀ (s : State) (pg : Nat), present s.pkg pg = true → firstPage pg = pg → classOf pg ≠ 0x01 → classOf pg ≠ 0x0F →
    surveying s.pkg pg = true → enabled s.pkg pg = true → heldDown s.pkg pg = false →
    ∃ t, exec (.surveyComplete pg 0) s = .next t ∧ t.mem = s.mem ∧
      surveying t.pkg pg = false ∧ ready t.pkg pg = true)

/-- R634, R635: a failing channel takes its stack's spare; where that is used, it is fenced. R643, R645, R646: a replica entry commits
or is discarded whole; a line inside one is held in repair until its copy is written, or stays poisoned. -/
def Obligations.SparesFencesAndReplicasTakeOver : Prop :=
  (∀ (s : State) (stack chan : Nat), stack < 8 → chan < 32 → present s.pkg (pgHbm stack) = true →
    (stackSpared s.pkg stack = false → ∃ t, exec (.channelSpare stack chan) s = .next t ∧ t.mem = s.mem ∧
      bit t.pkg (spareKey stack) 31 = true ∧ fld t.pkg (spareKey stack) 28 24 = chan ∧ stackSpared t.pkg stack = true) ∧
    (stackSpared s.pkg stack = true → ∃ t, exec (.channelSpare stack chan) s = .next t ∧
      t.mem = { s.mem with fenced := insertRising s.mem.fenced (64 * stack + chan) } ∧
      bit t.pkg (spareKey stack) 29 = true)) ∧
  (∀ (s : State) (stack chan : Nat), stack < 8 → chan < 32 → stackSpared s.pkg stack = true →
    ∃ t, exec (.channelFence stack chan) s = .next t ∧
      t.mem = { s.mem with fenced := insertRising s.mem.fenced (64 * stack + chan) } ∧
      bit t.pkg (spareKey stack) 29 = true ∧
      (∀ a n sh o, region a = .hbm sh o → hbmStack sh o = stack → hbmPc (hbmLocal o) / 2 = chan →
        t.mem.poisoned a n = true)) ∧
  (∀ (s : State) (rq : Requester) (sheet j : Nat) (value w0 w1 : W64), sheet < 4 →
    writeFate s.pkg rq (pgQd (8 * sheet)) 0x1D0 = .accepted → j = fld s.pkg (key (pgQd (8 * sheet)) 0x1C0) 4 0 →
    w0 = value &&& BitVec.ofNat 64 (msk 63 62 + msk 51 21 + msk 14 0) → w1 = reg s.pkg (key (pgQd (8 * sheet)) 0x1C8) →
    (bitOf value 63 = true → bitOf (replicaWord s.pkg sheet j 0) 63 = true ∨ replicaOk s.pkg sheet w0 w1 = false →
      exec (.replicaCommit rq sheet value) s = .next s) ∧
    (bitOf value 63 = false ∨ (bitOf (replicaWord s.pkg sheet j 0) 63 = false ∧ replicaOk s.pkg sheet w0 w1 = true) →
      ∃ t, exec (.replicaCommit rq sheet value) s = .next t ∧ t.mem = s.mem ∧ replicaWord t.pkg sheet j 0 = w0 ∧
        replicaWord t.pkg sheet j 1 = w1)) ∧
  (∀ (s : State) (pa sh j : Nat), replicaOf s.pkg pa = some (sh, j) → inRepair s.pkg pa = false →
    isWindowCopy s.pkg sh j = false →
    ∃ t, exec (.replicaRepair pa) s = .next t ∧ t.mem = s.mem ∧ inRepair t.pkg pa = true) ∧
  (∀ (s : State) (pa : Nat), replicaOf s.pkg pa = none ∨ inRepair s.pkg pa = true →
    exec (.replicaRepair pa) s = .next s) ∧
  (∀ (s : State) (pa line sh j : Nat) (data : Item) (cause : Nat),
    s.pkg.fault.repairs.find? (fun r => r.1 == pa / 64) = some (line, (sh, j)) →
    (isWindowCopy s.pkg sh j = false → (dirLine s.pkg (copyOf s.pkg sh j pa / 64)).host ≠ 2 →
      s.mem.poisoned (copyOf s.pkg sh j pa / 64 * 64) 64 = false →
      ∃ t, exec (.replicaCopyArrived pa data cause) s = .next t ∧ inRepair t.pkg pa = false ∧
        t.mem = s.mem.storeLine pa (s.mem.line (copyOf s.pkg sh j pa)) false) ∧
    (isWindowCopy s.pkg sh j = false → (dirLine s.pkg (copyOf s.pkg sh j pa / 64)).host ≠ 2 →
      s.mem.poisoned (copyOf s.pkg sh j pa / 64 * 64) 64 = true →
      ∃ t, exec (.replicaCopyArrived pa data cause) s = .next t ∧ inRepair t.pkg pa = false ∧ t.mem = s.mem.setPoison pa) ∧
    (isWindowCopy s.pkg sh j = true → cause = 0 → ∃ t, exec (.replicaCopyArrived pa data cause) s = .next t ∧
      inRepair t.pkg pa = false ∧ t.mem = s.mem.storeLine pa data false) ∧
    (isWindowCopy s.pkg sh j = true → cause ≠ 0 → ∃ t, exec (.replicaCopyArrived pa data cause) s = .next t ∧
      inRepair t.pkg pa = false ∧ t.mem = s.mem.setPoison pa))

/-- R651 to R653, R678: STAGE takes the image at SV_UPD_SOURCE, or is refused with RESULT 5 for its source; it ends with RESULT 4 while the
board holds the flash, with the result of the first check that fails, or with the inactive slot written and its directory entry
with it, and leaves the running image; ACTIVATE in RUN starts the staged image, or off NORMAL is refused with RESULT 5; a healthy
image's slot becomes the active one, and after 1 s without that the old image runs again with RESULT 6. -/
def Obligations.FirmwareIsStagedHandedOverAndRolledBack : Prop :=
  (∀ (s : State) (rq : Requester) (value : W32) (keyOk sigOk : Bool), writeFate s.pkg rq 3 0x114 = .accepted →
    bitOf value 0 = true → bitOf value 1 = false → updBusy s.pkg = false →
    (sourceOk s.pkg = true → ∃ t, exec (.stage rq value ⟨keyOk, sigOk⟩) s = .next t ∧ t.mem = s.mem ∧ updBusy t.pkg = true ∧
      fld t.pkg updStatus 7 0 = 1 ∧ t.pkg.boot = { s.pkg.boot with staged := some (stagedImage s.mem s.pkg keyOk sigOk) }) ∧
    (sourceOk s.pkg = false → ∃ t, exec (.stage rq value ⟨keyOk, sigOk⟩) s = .next t ∧ t.mem = s.mem ∧ updBusy t.pkg = false ∧
      bit t.pkg updStatus 31 = true ∧ fld t.pkg updStatus 15 8 = 5 ∧ t.pkg.boot = s.pkg.boot)) ∧
  (∀ (s : State) (img : ImageInfo) (ok : Bool), s.pkg.boot.staged = some img → updBusy s.pkg = true →
    fld s.pkg updStatus 7 0 = 1 →
    (s.pkg.boot.flashOwner ≠ 0 → ∃ t, exec (.stageDone ok) s = .next t ∧ t.mem = s.mem ∧ updBusy t.pkg = false ∧
      fld t.pkg updStatus 15 8 = 4 ∧ t.pkg.boot = { s.pkg.boot with staged := none }) ∧
    (s.pkg.boot.flashOwner = 0 → surveyorResult s.pkg img ≠ 0 → ∃ t, exec (.stageDone ok) s = .next t ∧
      t.mem = s.mem ∧ fld t.pkg updStatus 15 8 = surveyorResult s.pkg img ∧ t.pkg.boot = { s.pkg.boot with staged := none }) ∧
    (s.pkg.boot.flashOwner = 0 → surveyorResult s.pkg img = 0 → ok = true → ∃ t, exec (.stageDone ok) s = .next t ∧ t.mem = s.mem ∧
      updBusy t.pkg = false ∧ bit t.pkg updStatus 31 = true ∧ fld t.pkg updStatus 15 8 = 0 ∧
      inactiveSlot t.pkg = some img ∧ activeImage t.pkg = activeImage s.pkg ∧
      t.pkg.boot.dir.crc = crc32 (dirBytes t.pkg.boot.dir.entries) ∧
      t.pkg.boot.activeSlot = s.pkg.boot.activeSlot ∧ t.pkg.boot.running = s.pkg.boot.running)) ∧
  (∀ (s : State) (rq : Requester) (value : W32) (new old : ImageInfo), writeFate s.pkg rq 3 0x114 = .accepted →
    bitOf value 0 = false → bitOf value 1 = true → updBusy s.pkg = false → inactiveSlot s.pkg = some new →
    s.pkg.boot.running = some old →
    (pwrState s.pkg = 0 → fld s.pkg (key pgSv 0x100) 31 28 = 2 → surveyorResult s.pkg new = 0 →
      ∃ t, exec (.activate rq value) s = .next t ∧ t.mem = s.mem ∧ updBusy t.pkg = true ∧ fld t.pkg updStatus 7 0 = 2 ∧
        t.pkg.boot = { s.pkg.boot with running := some new, handover := some (old, s.pkg.pace.datum) }) ∧
    (pwrState s.pkg ≠ 0 → ∃ t, exec (.activate rq value) s = .next t ∧ t.mem = s.mem ∧ updBusy t.pkg = false ∧
      fld t.pkg updStatus 15 8 = 5 ∧ t.pkg.boot = s.pkg.boot)) ∧
  (∀ (s : State) (old img : ImageInfo) (since : Nat), s.pkg.boot.handover = some (old, since) →
    s.pkg.boot.running = some img → s.pkg.fuse.requests = [] → img.revokeMask = 0 → img.flags % 2 = 0 →
    ∃ t, exec .newImageHealthy s = .next t ∧ t.mem = s.mem ∧ updBusy t.pkg = false ∧ bit t.pkg updStatus 31 = true ∧
      fld t.pkg updStatus 15 8 = 0 ∧
      t.pkg.boot = { s.pkg.boot with handover := none, activeSlot := 1 - s.pkg.boot.activeSlot }) ∧
  (∀ (s : State) (old : ImageInfo) (since : Nat), s.pkg.boot.handover = some (old, since) →
    (since + 1000000000 ≤ s.pkg.pace.datum → s.pkg.fuse.requests = [] → ∃ t, exec .fwRollback s = .next t ∧
      t.mem = s.mem ∧ updBusy t.pkg = false ∧ fld t.pkg updStatus 15 8 = 6 ∧
      t.pkg.boot = { s.pkg.boot with handover := none, running := some old }) ∧
    (s.pkg.pace.datum < since + 1000000000 → exec .fwRollback s = .next s))

/-! ## Power-up and the sequencer (spec/19) -/

/-- R671: a fall of AUX_PWRGD at any moment loses every state but the field book, boot flash and fuses (host memory, the pins, the part and
what has left the package are not the package's state), and the next power good starts at climbing step 1 with the datum at 0. -/
def Obligations.PowerLossKeepsOnlyBookFlashAndFuses : Prop :=
  ∀ (s : State) (auxHeld : Bool), s.pkg.boot.started = true → ∃ t, exec (.powerLoss auxHeld) s = .next t ∧
    t.mem = s.mem.hostOnly ∧ (∀ a, 2 ^ 52 ≤ a → t.mem.byte a = s.mem.byte a) ∧
    t.pkg = { Pkg.initial with
      part := s.pkg.part, standalone := s.pkg.fuse.personality == 1, fuse := t.pkg.fuse, boot := t.pkg.boot, out := s.pkg.out
      free := t.pkg.free, seq := { SeqSt.initial with perst := s.pkg.seq.perst } } ∧
    t.pkg.boot = { BootSt.initial with
      slotA := s.pkg.boot.slotA, slotB := s.pkg.boot.slotB, activeSlot := s.pkg.boot.activeSlot, powerUps := s.pkg.boot.powerUps
      lossNoted := t.pkg.boot.lossNoted, flashOwner := s.pkg.boot.flashOwner, dir := s.pkg.boot.dir } ∧
    s.pkg.fuse.entries <+: t.pkg.fuse.entries ∧ (s.pkg.fuse.serving = false → t.pkg.fuse = { s.pkg.fuse with requests := [] }) ∧
    t.pkg.fuse = { s.pkg.fuse with
      entries := t.pkg.fuse.entries, requests := [], serving := false, unfinished := t.pkg.fuse.unfinished } ∧
    (∀ dir a b, ∃ u, exec (.coldPowerUp dir ⟨a, b⟩) t = .next u ∧ seqState u.pkg = 0 ∧ seqStep u.pkg = 1 ∧ u.pkg.pace.datum = 0)

/-- R678, R680, R82, R661: AUX_PWRGD rises: under a directory that passes, the boot ROM starts the active slot's image, else the other's,
and the surveyor is READY with the datum running; where both fail, or the directory does, it fails, and without a surveyor no
request moves the package from AUX. R722: while the board holds the flash, the boot ROM waits, and starts when it is released.
R749, R664: a rail loss goes to AUX and waits there; memory off VDD_AUX is lost, the datum, the book and boot flash are kept. -/
def Obligations.PowerGoodBootsAndRailLossesGoToAux : Prop :=
  (∀ (s : State) (dir : FlashDir) (a b : ImageInfo), s.pkg.boot.started = false → s.pkg.boot.flashOwner = 0 →
    (dirOk dir = true → s.pkg.boot.activeSlot = 0 → surveyorResult s.pkg a = 0 → ∃ t, exec (.coldPowerUp dir ⟨a, b⟩) s = .next t ∧ t.mem = s.mem.hostOnly ∧
      t.pkg.boot.running = some a ∧ t.pkg.boot.failed = false ∧ ready t.pkg pgSv = true ∧ t.pkg.pace.running = true ∧
      t.pkg.pace.datum = 0 ∧ bit t.pkg svBoot 30 = false ∧ fld t.pkg svBoot 23 16 = a.secVersion % 256) ∧
    (dirOk dir = true → s.pkg.boot.activeSlot = 0 → surveyorResult s.pkg a ≠ 0 → surveyorResult s.pkg b = 0 →
      ∃ t, exec (.coldPowerUp dir ⟨a, b⟩) s = .next t ∧ t.mem = s.mem.hostOnly ∧
      t.pkg.boot.running = some b ∧ t.pkg.boot.failed = false ∧ ready t.pkg pgSv = true ∧ bit t.pkg svBoot 30 = true) ∧
    (dirOk dir = false ∨ (surveyorResult s.pkg a ≠ 0 ∧ surveyorResult s.pkg b ≠ 0) → ∃ t, exec (.coldPowerUp dir ⟨a, b⟩) s = .next t ∧
      t.mem = s.mem.hostOnly ∧ t.pkg.boot.running = none ∧ t.pkg.boot.failed = true ∧ ready t.pkg pgSv = false)) ∧
  (∀ (s : State) (dir : FlashDir) (a b : ImageInfo), s.pkg.boot.started = false → s.pkg.boot.flashOwner ≠ 0 →
    ∃ t, exec (.coldPowerUp dir ⟨a, b⟩) s = .next t ∧ t.pkg.boot.running = none ∧ t.pkg.boot.failed = false) ∧
  (∀ (s : State), s.pkg.boot.running = none → (∃ t, exec .pkgOnRise s = .next t ∧ seqState t.pkg = seqState s.pkg ∧
      seqTarget t.pkg = seqTarget s.pkg) ∧
    (∃ t, exec .pkgOnFall s = .next t ∧ seqState t.pkg = seqState s.pkg ∧ seqTarget t.pkg = seqTarget s.pkg)) ∧
  (∀ (s : State), ∃ t, exec .flashRequest s = .next t ∧ t.mem = s.mem ∧
    t.pkg = { s.pkg with boot := { s.pkg.boot with flashOwner := 1 } }) ∧
  (∀ (s : State), s.pkg.boot.running.isSome = true → ∃ t, exec .flashRelease s = .next t ∧ t.mem = s.mem ∧
    t.pkg = { s.pkg with boot := { s.pkg.boot with flashOwner := 0 } }) ∧
  (∀ (s : State) (img : ImageInfo), s.pkg.boot.started = true → s.pkg.boot.running = none → s.pkg.boot.failed = false →
    s.pkg.boot.flashOwner ≠ 0 → s.pkg.boot.activeSlot = 0 → s.pkg.boot.slotA = some img →
    dirOk s.pkg.boot.dir = true → surveyorResult s.pkg img = 0 →
    ∃ t, exec .flashRelease s = .next t ∧ t.mem = s.mem ∧ t.pkg.boot.running = some img ∧ t.pkg.boot.flashOwner = 0 ∧
      ready t.pkg pgSv = true) ∧
  (∀ (s : State) (cause : Nat),
    (cause = 0 ∧ s.pkg.seq.railEnLink = true) ∨ (cause = 1 ∧ s.pkg.seq.railEnCore = true) ∨
      (cause = 2 ∧ ∃ n, n < 4 ∧ halted s.pkg n = true ∧
        SMap.get s.pkg.pwr.haltSince n 0 + 10000000 < s.pkg.pace.datum) ∨
      (cause = 3 ∧ s.pkg.seq.railEnCore = true ∧ ∃ n, n < 4 ∧ railOf s.pkg n < 450) →
    ∃ t, exec (.railLoss cause) s = .next t ∧ t.mem = s.mem.hostOnly ∧ seqState t.pkg = 0 ∧ seqStep t.pkg = 1 ∧
      seqTarget t.pkg = 0 ∧ fld t.pkg svSeq 19 18 = 2 ∧ t.pkg.seq.railEnLink = false ∧ t.pkg.seq.railEnCore = false ∧
      t.pkg.seq.dieReset = true ∧ bit t.pkg (key pgPwr 0x10) 3 = true ∧ t.pkg.pace.datum = s.pkg.pace.datum ∧
      t.pkg.boot = s.pkg.boot ∧ t.pkg.fuse = s.pkg.fuse ∧ t.pkg.ces = []) ∧
  (∀ (s : State), (s.pkg.seq.railEnLink = false → exec (.railLoss 0) s = .next s) ∧
    (s.pkg.seq.railEnCore = false → exec (.railLoss 1) s = .next s))

/-- R661, R662, R664, R665, R668, R669: PKG_ON sets the target; a climb passes steps 2 to 6 in order, a descent 6 to 2, and each rests where the
target asks. Step 2 is the package power-up; step 5 writes the hand-off block and releases harts, or leaves them where the
kernel image fails its check. -/
def Obligations.TheSequencerClimbsAndDescends : Prop :=
  (∀ (s : State), s.pkg.boot.running.isSome = true →
    (seqState s.pkg = 0 → climbOk s.pkg = true → ∃ t, exec .pkgOnRise s = .next t ∧ t.mem = s.mem ∧
      seqTarget t.pkg = 2 ∧ seqState t.pkg = 1 ∧ seqStep t.pkg = seqStep s.pkg ∧ bit t.pkg svSeq 21 = true) ∧
    (seqState s.pkg = 0 → climbOk s.pkg = false → ∃ t, exec .pkgOnRise s = .next t ∧ t.mem = s.mem ∧
      seqTarget t.pkg = 2 ∧ seqState t.pkg = 0 ∧ bit t.pkg svSeq 20 = true) ∧
    (seqState s.pkg = 2 ∨ seqState s.pkg = 4 → ∃ t, exec .pkgOnFall s = .next t ∧ t.mem = s.mem ∧
      seqTarget t.pkg = 0 ∧ seqState t.pkg = 3 ∧ seqStep t.pkg = seqStep s.pkg ∧ bit t.pkg svSeq 21 = false)) ∧
  (∀ (s : State) (img : ImageInfo), seqState s.pkg = 1 → s.pkg.seq.climbAfter = false → seqTarget s.pkg ≠ 0 →
    (seqStep s.pkg = 1 → s.pkg.boot.flashOwner = 0 → ∃ t, exec (.sequencerStep img) s = .next t ∧
      t.mem = s.mem.hostOnly ∧ t.pkg.seq.railEnLink = true ∧ t.pkg.boot.powerUps = s.pkg.boot.powerUps + 1 ∧
      t.pkg.standalone = (s.pkg.fuse.personality == 1) ∧ t.pkg.ces = [] ∧ t.pkg.harts = [] ∧
      t.pkg.pace.datum = s.pkg.pace.datum ∧ ready t.pkg pgRt = true ∧ seqState t.pkg = 1 ∧ seqStep t.pkg = 2) ∧
    (seqStep s.pkg = 1 → s.pkg.boot.flashOwner ≠ 0 → exec (.sequencerStep img) s = .next s) ∧
    (seqStep s.pkg = 2 → ∃ t, exec (.sequencerStep img) s = .next t ∧ t.mem = s.mem ∧ t.pkg.seq.railEnCore = true ∧
      t.pkg.seq.railPgCore = true ∧ t.pkg.seq.dieReset = false ∧ (∀ r, r < 5 → railOf t.pkg r = 750) ∧
      seqState t.pkg = 1 ∧ seqStep t.pkg = 3) ∧
    (seqStep s.pkg = 4 → s.pkg.seq.step5Done = false → kernelResult s.pkg img = 0 → s.mem.wf = true →
      ∃ t, exec (.sequencerStep img) s = .next t ∧ t.mem.read 0 4 = 0x56470001 ∧
      (∀ a, 256 ≤ a → t.mem.byte a = s.mem.byte a) ∧ t.pkg.seq.step5Done = true ∧ fld t.pkg svBoot 27 24 = 0 ∧
      (∀ h, h ∈ releasable s.pkg → (hart t.pkg h).pc = imageBase + img.entry ∧ hartState t.pkg h = 1) ∧
      seqStep t.pkg = 5) ∧
    (seqStep s.pkg = 4 → s.pkg.seq.step5Done = false → kernelResult s.pkg img ≠ 0 → ∃ t, exec (.sequencerStep img) s = .next t ∧
      t.mem = s.mem ∧ t.pkg.harts = s.pkg.harts ∧ fld t.pkg svBoot 27 24 = kernelResult s.pkg img ∧ seqStep t.pkg = 5) ∧
    (seqStep s.pkg = 5 → seqTarget s.pkg = 2 → ∃ t, exec (.sequencerStep img) s = .next t ∧ t.mem = s.mem ∧
      (inHold s.pkg = false → t.pkg.seq.lasers = true) ∧ seqState t.pkg = 2 ∧ seqStep t.pkg = 6)) ∧
  (∀ (s : State), seqState s.pkg = 3 →
    (seqStep s.pkg = 6 → ∃ t, exec .descendingStep s = .next t ∧ t.mem = s.mem ∧ t.pkg.seq.lasers = false ∧
      seqState t.pkg = 3 ∧ seqStep t.pkg = 5) ∧
    (seqStep s.pkg = 5 → ∃ t, exec .descendingStep s = .next t ∧ seqState t.pkg = 3 ∧ seqStep t.pkg = 4) ∧
    (seqStep s.pkg = 4 → seqTarget s.pkg = 1 → s.pkg.seq.climbAfter = false → ∃ t, exec .descendingStep s = .next t ∧
      t.mem = s.mem ∧ t.pkg.pwr.gateClosed = true ∧ t.pkg.seq.memRefresh = true ∧ seqState t.pkg = 4) ∧
    (seqStep s.pkg = 4 → seqTarget s.pkg = 0 → ∃ t, exec .descendingStep s = .next t ∧ t.mem = s.mem ∧
      t.pkg.pwr.gateClosed = true ∧ seqState t.pkg = 3 ∧ seqStep t.pkg = 3) ∧
    (seqStep s.pkg = 3 → ∃ t, exec .descendingStep s = .next t ∧ t.mem = s.mem ∧ t.pkg.seq.railEnCore = false ∧
      t.pkg.seq.dieReset = true ∧ seqState t.pkg = 3 ∧ seqStep t.pkg = 2) ∧
    (seqStep s.pkg = 2 → seqTarget s.pkg = 0 → ∃ t, exec .descendingStep s = .next t ∧ t.mem = s.mem.hostOnly ∧
      t.pkg.seq.railEnLink = false ∧ t.pkg.ces = [] ∧ t.pkg.pace.datum = s.pkg.pace.datum ∧ seqState t.pkg = 0 ∧
      seqStep t.pkg = 1)) ∧
  (∀ (s : State) (stack : Nat), stack < 8 → s.pkg.seq.railPgCore = true → 4 ≤ seqStep s.pkg → seqState s.pkg ≠ 4 →
    enabled s.pkg (pgHbm stack) = true → heldDown s.pkg (pgHbm stack) = false →
    ∃ t, exec (.hbmTrainingDone stack) s = .next t ∧ t.mem = s.mem ∧
      ready t.pkg (pgHbm stack) = true)

/-! ## Stalls, traces, test access and signals (spec/20, spec/21) -/

/-- R688: a stall is recorded, at most 4 at once, and ends when its item moves. R695 to R698: a trace block writes its records' lines in order and
advances TR_PRODUCED past each; a full STOP-mode buffer drops and counts; setting ENABLE starts the numbers anew; TR_BUFFER
and TR_CONSUMED take only the writes their rules allow. -/
def Obligations.StallsAndTracesAreRecorded : Prop :=
  (∀ (s : State) (pg port who : Nat), stallBlock pg = true → present s.pkg pg = true →
    (openStalls s.pkg pg).any (fun x => x.1 == port) = false →
    ((openStalls s.pkg pg).length < 4 → ∃ t, exec (.stallBegin pg port who) s = .next t ∧ t.mem = s.mem ∧
      openStalls t.pkg pg = openStalls s.pkg pg ++ [(port, who, s.pkg.pace.datum)]) ∧
    (4 ≤ (openStalls s.pkg pg).length → exec (.stallBegin pg port who) s = .next s)) ∧
  (∀ (s : State) (pg port who beats ns : Nat), ∃ t, exec (.stallEnd pg port who beats ns) s = .next t ∧ t.mem = s.mem ∧
    openStalls t.pkg pg = (openStalls s.pkg pg).filter (fun x => x.1 != port)) ∧
  (∀ (s : State) (t : Nat) (i : Item) (rest : List Item), (trace s.pkg t).queue = i :: rest → traceRuns s.pkg t = true →
    (traceFull s.pkg t = false → populatedRange s.pkg (traceSlot s.pkg t) 64 = true → (trace s.pkg t).lost = 0 →
      ∃ u, exec (.traceRecordWrite t) s = .next u ∧
        u.mem = s.mem.storeLine (traceSlot s.pkg t) (traceLine s.pkg t i) false ∧ (trace u.pkg t).queue = rest ∧
        reg u.pkg (key (pgTr t) 0x110) = reg s.pkg (key (pgTr t) 0x110) + 1 ∧
        bit u.pkg (trControl t) 27 = !rest.isEmpty) ∧
    (traceFull s.pkg t = true → ∃ u, exec (.traceRecordWrite t) s = .next u ∧ u.mem = s.mem ∧
      reg u.pkg (key (pgTr t) 0x110) = reg s.pkg (key (pgTr t) 0x110) ∧ bit u.pkg (trControl t) 28 = true ∧
      regN u.pkg (key (pgTr t) 0x120) = min 0xFFFFFFFF (regN s.pkg (key (pgTr t) 0x120) + 1))) ∧
  (∀ (s : State) (rq : Requester) (t : Nat) (v : W32), t < 5 → writeFate s.pkg rq (pgTr t) 0x100 = .accepted →
    ∃ u, exec (.traceEnable rq t v) s = .next u ∧ u.mem = s.mem ∧ bit u.pkg (trControl t) 31 = bitOf v 31 ∧
      fld u.pkg (trControl t) 5 0 = bitsOf v 5 0 ∧ (trace u.pkg t).queue = (trace s.pkg t).queue ∧
      (bitOf v 31 = true → reg u.pkg (key (pgTr t) 0x110) = 0 ∧ reg u.pkg (key (pgTr t) 0x118) = 0 ∧
        reg u.pkg (key (pgTr t) 0x120) = 0)) ∧
  (∀ (s : State) (rq : Requester) (t : Nat) (v : W64), t < 5 → writeFate s.pkg rq (pgTr t) 0x108 = .accepted →
    (bit s.pkg (trControl t) 31 = true ∨ bitsOf v 4 0 < 6 ∨ 24 < bitsOf v 4 0 ∨
        hbmOrScratch s.pkg (trBase v) (64 * trSize v) = false → exec (.trBufferWrite rq t v) s = .next s) ∧
    (bit s.pkg (trControl t) 31 = false → 6 ≤ bitsOf v 4 0 → bitsOf v 4 0 ≤ 24 →
      hbmOrScratch s.pkg (trBase v) (64 * trSize v) = true → ∃ u, exec (.trBufferWrite rq t v) s = .next u ∧ u.mem = s.mem ∧
        trBase (reg u.pkg (key (pgTr t) 0x108)) = trBase v ∧ trSize (reg u.pkg (key (pgTr t) 0x108)) = trSize v)) ∧
  (∀ (s : State) (rq : Requester) (t : Nat) (v : W64), t < 5 → writeFate s.pkg rq (pgTr t) 0x118 = .accepted →
    (regN s.pkg (key (pgTr t) 0x110) < v.toNat → exec (.trConsumedWrite rq t v) s = .next s) ∧
    (v.toNat ≤ regN s.pkg (key (pgTr t) 0x110) → ∃ u, exec (.trConsumedWrite rq t v) s = .next u ∧ u.mem = s.mem ∧
      reg u.pkg (key (pgTr t) 0x118) = v ∧ bit u.pkg (trControl t) 28 = false))

/-- R703: each die's TAP takes the instructions of Table 20-8 and selects their registers; an opcode not listed selects BYPASS, and
under DEBUG_LOCK so does every opcode but those of the first four rows. -/
def Obligations.TapInstructionsSelectTheirRegisters : Prop :=
  (∀ (s : State) (die : Nat) (c : Instr) (op : Nat), die < 6 →
    (c, op) ∈ [(Instr.tapBypass die, 0xFF), (.tapIdcode die, 0x01), (.tapSamplePreload die, 0x02), (.tapExtest die, 0x00)] →
    ∃ t, exec c s = .next t ∧ t = { s with pkg := { s.pkg with tapIr := t.pkg.tapIr } } ∧ tapHeld t.pkg die = op) ∧
  (∀ (s : State) (die k : Nat) (c : Instr) (op : Nat), die < 6 → k < 8 →
    (c, op) ∈ [(Instr.tapClamp die, 0x03), (.tapHighz die, 0x04), (.tapWrapper die k, 0x10 + k),
      (.tapHbmWsp die, if die < 4 then 0x18 else 0xFF)] →
    ∃ t, exec c s = .next t ∧ t = { s with pkg := { s.pkg with tapIr := t.pkg.tapIr } } ∧
      tapHeld t.pkg die = if s.pkg.fuse.debugLock then 0xFF else op) ∧
  (∀ (p : Pkg) (die op : Nat), op ∉ [0xFF, 0x00, 0x01, 0x02, 0x03, 0x04] → op < 0x10 ∨ (0x18 < op ∧ op < 0x20) →
    tapOpcode p die op = 0xFF) ∧
  (∀ die, tapLength die 0xFF = some 1 ∧ tapLength die 0x01 = some 32 ∧ tapLength die 0x03 = some 1 ∧
    tapLength die 0x04 = some 1) ∧
  (∀ die, die < 4 → ∀ op, op = 0x02 ∨ op = 0x00 →
    tapLength 5 op = some 212 ∧ tapLength 4 op = some 1124 ∧ tapLength die op = some 16)

/-- R719, with R715's released buttons: a press of the package attention button, which is not seen while SGPIO_FAULT is set, counts,
sets BLOCK bit 0 and leaves a waypoint; nothing else changes but what that interrupt sends and the free-value counter. -/
def Obligations.APressOfThePackageButtonOnlyCountsAndSignals : Prop :=
  ∀ (s : State), s.pkg.boot.started = true →
    (bit s.pkg opsStatus 31 = false → ∃ t, exec .pkgButtonPress s = .next t ∧ t.mem = s.mem ∧
      regN t.pkg (key pgOps 0x108) = min 0xFFFFFFFF (regN s.pkg (key pgOps 0x108) + 1) ∧
      bit t.pkg (key pgOps 0x20) 16 = true ∧
      (∀ k, k ≠ key pgOps 0x108 → k ≠ key pgOps 0x20 → reg t.pkg k = reg s.pkg k) ∧
      (∃ w, bitsOf w 55 48 = 0x07 ∧ ∃ rest, (queue t.pkg (key pgOps 0x30)).items =
        rest ++ [((queue s.pkg (key pgOps 0x30)).nextSeq, [w, BitVec.ofNat 64 (s.pkg.pace.datum % 2 ^ 62)])]) ∧
      (∀ k, k ≠ key pgOps 0x30 → queue t.pkg k = queue s.pkg k) ∧
      t.pkg = { s.pkg with regs := t.pkg.regs, queues := t.pkg.queues, out := t.pkg.out, int := t.pkg.int, free := t.pkg.free }) ∧
    (bit s.pkg opsStatus 31 = true → exec .pkgButtonPress s = .next s)

/-- R714, R715: a frame sends the lamps; one whose check bits differ is discarded and counted, one that passes clears SGPIO_FAULT, and
100 ms without one sets it and releases every button. R668, R723: the sideband reads registers, reports the sequencer, and sets
the target or is refused; the first I3C broadcast ends SMBus. -/
def Obligations.FramesAndSidebandCommandsAreServed : Prop :=
  (∀ (s : State) (bits : BitVec 24), s.pkg.boot.started = true → s.pkg.boot.failed = false →
    ∃ t, exec (.sgpioFrame bits) s = .next t ∧ t.mem = s.mem ∧ OutMsg.sgpio (frameOut s.pkg) ∈ t.pkg.out ∧
      (framePasses bits = true → bit t.pkg opsStatus 31 = false ∧ t.pkg.ops.lastPass = s.pkg.pace.datum) ∧
      (framePasses bits = false → t.pkg.ops = s.pkg.ops ∧ reg t.pkg opsStatus = reg s.pkg opsStatus ∧
        regN t.pkg (key pgOps 0x10C) = min 0xFFFFFFFF (regN s.pkg (key pgOps 0x10C) + 1))) ∧
  (∀ (s : State), s.pkg.boot.started = true →
    (s.pkg.ops.lastPass + 100000000 ≤ s.pkg.pace.datum → ∃ t, exec .sgpioFault s = .next t ∧ t.mem = s.mem ∧
      bit t.pkg opsStatus 31 = true ∧ (∀ i, 6 ≤ i → i < 13 → bit t.pkg opsStatus (statusBit i) = false) ∧
      (∀ i, i < 6 → bit t.pkg opsStatus (statusBit i) = bit s.pkg opsStatus (statusBit i)) ∧
      (bit s.pkg opsStatus 31 = false → bit t.pkg (key pgOps 0x20) 17 = true)) ∧
    (s.pkg.pace.datum < s.pkg.ops.lastPass + 100000000 → exec .sgpioFault s = .next s)) ∧
  (∀ (s : State) (off : Nat), ready s.pkg pgSv = true →
    (off % 4 = 0 → ∃ t, exec (.read32 off) s = .next t ∧ t.mem = s.mem ∧
      t.pkg.out.head? = some (.sideband 0 4 (readAccess .surveyor off 4 s.pkg).1.toNat)) ∧
    (off % 8 = 0 → ∃ t, exec (.read64 off) s = .next t ∧ t.mem = s.mem ∧
      t.pkg.out.head? = some (.sideband 0 8 (readAccess .surveyor off 8 s.pkg).1.toNat)) ∧
    (off % 8 = 0 → isPopKey off = true → owner s.pkg (off / 0x1000) ≠ Requester.code .surveyor →
      ∃ t, exec (.read64 off) s = .next t ∧ t.pkg.queues = s.pkg.queues)) ∧
  (∀ (s : State), ready s.pkg pgSv = true → ∃ t, exec .status s = .next t ∧ t.mem = s.mem ∧
    t.pkg = { s.pkg with out := .sideband 0 12 ((readReg s.pkg (key pgSv 0x100)).toNat % 2 ^ 32 +
      (readReg s.pkg (key pgSv 0x110)).toNat * 2 ^ 32) :: s.pkg.out }) ∧
  (∀ (s : State) (arg : Nat), ready s.pkg pgSv = true → s.pkg.boot.running.isSome = true → arg < 3 →
    (arg = 0 ∨ bit s.pkg svSeq 21 = true → ∃ t, exec (.seqRequest arg) s = .next t ∧ t.mem = s.mem ∧
      seqTarget t.pkg = arg ∧ fld t.pkg svSeq 19 18 = 1 ∧ t.pkg.out.head? = some (.sideband 0 1 0)) ∧
    (arg ≠ 0 → bit s.pkg svSeq 21 = false → ∃ t, exec (.seqRequest arg) s = .next t ∧ t.mem = s.mem ∧
      t.pkg = { s.pkg with out := .sideband 1 1 1 :: s.pkg.out })) ∧
  (∀ (s : State), ∃ t, exec .i3cBroadcast s = .next t ∧ t.mem = s.mem ∧
    t.pkg = { s.pkg with ops := { s.pkg.ops with smbus := false } })
end

