-- ==== Sys2Proof/Tests/Slice0.lean ====
section
/-! SUPPORT. Tests of the model: a witness for the hypotheses of each statement, the well-formedness checks, and values of
the spec's worked examples. -/

open Sys2Proof Sys2Proof.Machine
namespace Sys2Proof.Tests

set_option linter.unusedVariables false
set_option Elab.async false

/-- A surveyor image that passes its checks. -/
def img : ImageInfo :=
  { magic := 0x56470010, kind := 1, keySlot := 0, secVersion := 1, flags := 0, revokeMask := 0, reserved := 0, bodySize := 4096,
    version := 7, entry := 64, keyOk := true, sigOk := true }

/-- A boot flash directory that passes, of six empty entries. -/
def dir0 : FlashDir :=
  let l := List.replicate 6 (⟨0, 0, 0, 0⟩ : FlashEntry)
  { quadOut := true, quadIo := true, entries := l, crc := crc32 (dirBytes l) }

/-- A package whose sequencer has climbed: rails on, surveyor running, 5 s of datum; its pages stand as at reset. -/
def base : Pkg :=
  { Pkg.initial with
    seq := { SeqSt.initial with
      railEnLink := true, railPgLink := true, railEnCore := true, railPgCore := true, dieReset := false, lasers := true }
    boot := { BootSt.initial with slotA := some img, slotB := some img, started := true, running := some img }
    pace := { PaceSt.initial with datum := 5000000000, running := true } }

/-- The state of a package to which changes are made. -/
def make (l : List (Pkg → Pkg)) : State := ⟨[], Memory.empty, l.foldl (fun p f => f p) base⟩

/-- A register of a page takes a value. -/
def put (pg off : Nat) (v : W64) (p : Pkg) : Pkg := setReg p (key pg off) v

/-- The register at a key takes a value. -/
def atKey (k : Nat) (v : W64) (p : Pkg) : Pkg := setReg p k v

/-- A page's block READY, with an owner. -/
def up (pg o : Nat) : Pkg → Pkg := put pg 8 (BitVec.ofNat 64 (256 * o + 1))

/-- CE n runs command 9 with a chart of these units, routes and code. -/
def engine (n : Nat) (us : List UnitRec) (rs : List Route) (code : List W32) (f : Ce → Ce) (g : Cmd → Cmd) (p : Pkg) : Pkg :=
  { p with
    ces := [(n, f { Ce.empty with
      cmd := some 9
      slots := [(0,
        { Slot.empty with state := 3, chart := { noChart with phases := 2, units := us, routes := rs, code := code } })] })]
    qm := { p.qm with cmds := [(9, g { noCmd with phase := .running, ces := [n] })] } }

/-- A unit whose code is the first `size` words. -/
def unit (typ index size : Nat) : UnitRec := ⟨typ, index, 0, 0, size, 0, 0⟩

/-- A descriptor whose operand 0 is `rows` rows of one line at address 0x1000, BF16, writable. -/
def desc0 (rows : Nat) : BitVec 1024 :=
  BitVec.ofNat 1024 ((0x1000 + 2 ^ 61 + rows * 2 ^ 64 + 2 ^ 80) * 2 ^ 448)

/-- Its page, at physical page 1 of the boot region. -/
def page0 : Nat × Xlate := (0, ⟨1, 1, 1, true, false, false, 0, 0, 0, false, false, 0, 0⟩)

/-- A memory in which `n` bytes from `a` on hold the little-endian number `v`. -/
def mem (a n v : Nat) : Memory := Memory.empty.write a n v

/-- A chart image of 128 bytes whose sequencer has the one word END. -/
def imageNat : Nat :=
  0x01 + 64 * 2 ^ 8 + 128 * 2 ^ 32 + 1 * 2 ^ 64 + 1 * 2 ^ 96 + 1 * 2 ^ 104 + 64 * 2 ^ 128 + 80 * 2 ^ 160 + 80 * 2 ^ 192 +
    4 * 2 ^ 224 + (1 * 2 ^ 64) * 2 ^ 512 + 0x01000000 * 2 ^ 640
def imageSealed : Nat :=
  imageNat + crc32 ((List.range 128).map (fun i => imageNat / 256 ^ i % 256)) * 2 ^ 480

/-- CE 3 loads slot 1 for command 9, a RUN; the image stands at 0x1000. -/
def loading (image : Nat) : State :=
  { make [fun p => { p with
      ces := [(3, { Ce.empty with slots := [(1, { Slot.empty with handle := 5, state := 1, forCmd := 9, va := 0x1000, pages
      := [page0.2] })] })]
      qm := { p.qm with
        cmds := [(9, { noCmd with desc := 2 * 2 ^ 8, ces := [3], phase := .running })]
        dirs := [(0, [⟨5, 0x1000, [page0.2], 0, 0⟩])] } }] with mem := mem 0x1000 128 image }

/-- Context 2 with ring 1 enabled, whose descriptors stand in host memory at page 7, translated by ATS. -/
def fetching : State :=
  { make [up pgQm 2, put pgHl 0x100 0x80000000, put (pgQm + 1 + 2) 0x100 0x80000000, put (pgXl + 1 + 2) 0x100 1,
      atKey (ringKey 2 1 0) 0x7000, atKey (ringCfg 2 1) 0x80060000, atKey (ringStatus 2 1) 1,
      fun p => { p with xl := { p.xl with atc := [⟨0, 7, 7, true⟩] } }] with
    mem := mem (2 ^ 52 + 0x7000) 128 0x100 }

/-- A descriptor of an opcode with further bits. -/
def dsc (op x : Nat) : BitVec 1024 := BitVec.ofNat 1024 (1 + op * 256 + x)

/-- The bits of operand i: `rows` rows of one line at an address, writable. -/
def opr (i addr rows : Nat) : Nat := (addr + 2 ^ 61 + rows * 2 ^ 64 + 2 ^ 80) * 2 ^ (8 * (56 + 12 * i))

/-- Operand i's page k, at physical page k. -/
def pageK (i k : Nat) : Nat × Xlate := (i, ⟨k, 1, k, true, false, false, 0, 0, 0, false, false, 0, 0⟩)

/-- Command 9 with a descriptor stands at the head of ring 1 of context 2, which are enabled. -/
def ringed (d : BitVec 1024) (g : Cmd → Cmd) (p : Pkg) : Pkg :=
  atKey (ringCfg 2 1) 0x80060600 (put (pgQm + 3) 0x100 0x80000000 (up pgQm 2 { p with
    spills := [(129, { Spill.empty with head := [(0, BitVec.ofNat 512 (9 * 2 ^ 464))] })]
    qm := { p.qm with cmds := [(9, g { noCmd with desc := d, ctx := 2, ring := 1, phase := .waiting })] } }))

/-- PLACE with SCOPE 3 names CE 0 alone. -/
def onCe0 : Nat := 3 * 2 ^ 14 * 2 ^ 80

/-- The cells of `n` bytes from `a` on holding the little-endian number `v`, in front of `l`. -/
def cellsOf (a n v : Nat) (l : List Host.Cell) : List Host.Cell :=
  match n with
  | 0 => l
  | k + 1 => (a, BitVec.ofNat 8 v) :: cellsOf (a + 1) k (v / 256) l

/-- An RD request of node 2 to window 5 of node 1. -/
def msg0 : Msg :=
  { op := 1, cls := 0, vc := 0, rdClass := 0, replayed := false, poison := false, dest := 1, src := 2, hops := 32, arg := 0,
    window := 5, offset := 64, tag := 9, payload := 0, recs := [] }

/-- The package alone, changed. -/
def make0 (l : List (Pkg → Pkg)) : Pkg := (make l).pkg

/-- A pair is its first component, where that is known, beside its second. -/
theorem pair_of_fst {α β : Type} (x : α × β) (a : α) (h : x.1 = a) : x = (a, x.2) := by cases x; cases h; rfl

/-- What a command leaves. -/
def leaves (c : Instr) (s : State) : State := match exec c s with | .next t => t | _ => State.reset

/-! ## States and operands that meet the statements' hypotheses -/

def storing : State := { make [] with mem := mem 0x1000 8 5, pending := [.set64 0x1000 7] }

theorem test_witness_StepTakesTheFrontCommand :
    ∃ (c : Instr) (rest : List Instr) (s : State), s.pending = c :: rest :=
  ⟨.set64 0x1000 7, [], storing, by decide +kernel⟩

theorem test_witness_ResetIdlesWithAnEmptyCanonicalMemory :
    ∃ (s : State), s.pending = [] :=
  ⟨State.reset, rfl⟩

theorem test_witness_EveryStepKeepsMemoryCanonical :
    ∃ (s : State) (t : State), Sound s ∧ step s = .next t :=
  ⟨storing, (leaves (.set64 0x1000 7) { storing with pending := [] }), by unfold Sound; decide +kernel, rfl⟩

theorem test_witness_CommandsThatStoreNothingKeepMemory :
    (∃ (c : Instr) (s : State) (t : State), storesNothing c = true ∧ exec c s = .next t) ∧
    (∃ (c : Instr) (s : State) (t : State) (a : Nat), storesNothing c = true ∧ exec c s = .next t) :=
  ⟨⟨.datumTick, storing, leaves .datumTick storing, by decide +kernel, rfl⟩,
    ⟨.datumTick, storing, leaves .datumTick storing, 0x2000, by decide +kernel, rfl⟩⟩

theorem test_witness_CommandsOfOneEngineLeaveTheOthers :
    (∃ (c : Instr) (n : Nat) (s : State) (t : State) (m : Nat), engineOf c = some n ∧ exec c s = .next t ∧ m ≠ n) ∧
    (∃ (c : Instr) (n : Nat) (s : State) (t : State), engineOf c = some n ∧ exec c s = .next t) ∧
    (∃ (c : Instr) (n : Nat) (s : State) (t : State), engineOf c = some n ∧ exec c s = .next t) ∧
    (∃ (c : Instr) (n : Nat) (s : State) (t : State), engineOf c = some n ∧ exec c s = .next t) ∧
    (∃ (c : Instr) (n : Nat) (s : State) (t : State), engineOf c = some n ∧ exec c s = .next t) :=
  ⟨⟨.sqNop 799, 799, make [engine 799 [unit 0 0 2] [] [0, 0] id id], leaves (.sqNop 799) (make [engine 799 [unit 0 0
      2] [] [0, 0] id id]), 3, by decide +kernel, rfl, by decide⟩,
    ⟨.sqNop 799, 799, make [engine 799 [unit 0 0 2] [] [0, 0] id id], leaves (.sqNop 799) (make [engine 799 [unit 0 0
      2] [] [0, 0] id id]), by decide +kernel, rfl⟩,
    ⟨.sqNop 799, 799, make [engine 799 [unit 0 0 2] [] [0, 0] id id], leaves (.sqNop 799) (make [engine 799 [unit 0 0
      2] [] [0, 0] id id]), by decide +kernel, rfl⟩,
    ⟨.sqNop 799, 799, make [engine 799 [unit 0 0 2] [] [0, 0] id id], leaves (.sqNop 799) (make [engine 799 [unit 0 0
      2] [] [0, 0] id id]), by decide +kernel, rfl⟩,
    ⟨.sqNop 799, 799, make [engine 799 [unit 0 0 2] [] [0, 0] id id], leaves (.sqNop 799) (make [engine 799 [unit 0 0
      2] [] [0, 0] id id]), by decide +kernel, rfl⟩⟩

def stSHATFATFP2 : State := make [put pgPwr 0x21C 0x80000000, fun p =>
  { p with pwr := { p.pwr with okSince := [(3, 4999998001)] } }]
def stSHATFATFP5 : State := make [put pgPwr 0x300 0x80000000, put pgPwr 0x308 0x80000000, put pgPwr 0x310 0x80000000, put
  pgPwr 0x318 0x80000000]

theorem test_witness_SheetsHaltAtTheFloorAndTakeFixedPaces :
    (∃ (s : State) (rail : Nat) (mv : Nat) (pace : Nat), rail < 5) ∧
    (∃ (s : State) (n : Nat), n < 4 ∧ railOf s.pkg n < 580 ∧ halted s.pkg n = false) ∧
    (∃ (s : State) (n : Nat), n < 4 ∧ halted s.pkg n = true ∧ 0 < SMap.get s.pkg.pwr.okSince n 0 ∧ SMap.get
      s.pkg.pwr.okSince n 0 - 1 + 2000 ≤ s.pkg.pace.datum) ∧
    (∃ (s : State) (rq : Requester) (v : W32), writeFate s.pkg rq pgPwr 0x200 = .accepted ∧ (bitsOf (v.setWidth 64 :
      W64) 7 0 < 100 ∨ 220 < bitsOf (v.setWidth 64 : W64) 7 0)) ∧
    (∃ (s : State) (rq : Requester) (v : W32), writeFate s.pkg rq pgPwr 0x200 = .accepted ∧ 100 ≤ bitsOf (v.setWidth 64
      : W64) 7 0 ∧ bitsOf (v.setWidth 64 : W64) 7 0 ≤ 220) ∧
    (∃ (s : State), fixedSettled s.pkg = false ∧ s.pkg.pwr.gateClosed = false ∧ (∀ n, n < 4 → railReached s.pkg n =
      true)) ∧
    (∃ (s : State) (die : Nat) (mv : Nat) (tj : Nat) (pace : Nat) (b : Bool) (mean : Nat), die < 5 ∧ mv < 1024 ∧ tj <
      256 ∧ mean = meanPace (setDie s.pkg die mv tj pace) die) :=
  ⟨⟨make [], 4, 750, 3, by decide +kernel⟩,
    ⟨make [], 3, by decide +kernel⟩,
    ⟨stSHATFATFP2, 3, by decide +kernel⟩,
    ⟨make [up pgPwr 1], .surveyor, 99, by decide +kernel⟩,
    ⟨make [up pgPwr 1], .surveyor, 0x100DC, by decide +kernel⟩,
    ⟨stSHATFATFP5, by decide +kernel⟩,
    ⟨make [], 4, 750, 70, 150, true, meanPace (setDie (make []).pkg 4 750 70 150) 4, by decide +kernel, by
      decide +kernel, by decide +kernel, rfl⟩⟩

def stTDCFAHO3 : State := make [put pgRt 0x130 0x20, put (pgPl 5) 0x10C 0x20000]
def stTDCFAHO12 : State := make [fun p =>
  { p with pace := { p.pace with latches := [(key pgDt 0x100, 1)], latchAt := [(key pgDt 0x100, 4999999000)] } }]
def stTDCFAHO16 : State := make [put pgDt 0x10C 3, fun p => { p with pace := { p.pace with masterNode := 5 } }]

theorem test_witness_TheDatumCountsFollowsAndHoldsOver :
    (∃ (s : State), bit s.pkg dtStatus 4 = false) ∧
    (∃ (s : State), bit s.pkg dtStatus 4 = true) ∧
    (∃ (s : State), s.pkg.pace.running = true ∧ fld s.pkg (key pgDt 0x10C) 1 0 < 2) ∧
    (∃ (s : State), s.pkg.pace.running = true ∧ fld s.pkg (key pgDt 0x10C) 1 0 = 3 ∧ nodeId s.pkg ≤
      s.pkg.pace.masterNode) ∧
    (∃ (s : State) (i : Nat) (f : SyncInfo) (t1 : Nat) (a : Nat), portSync s.pkg i = true ∧ syncOn s.pkg = true) ∧
    (∃ (s : State) (i : Nat) (f : SyncInfo) (a : Nat) (b : Nat) (c : Nat) (d : Nat), portSync s.pkg i = true ∧ syncOn
      s.pkg = true) ∧
    (∃ (s : State), s.pkg.pace.running = true ∧ dtMaster s.pkg = false ∧ s.pkg.pace.lastSync + 10000000 ≤
      s.pkg.pace.datum) ∧
    (∃ (s : State), s.pkg.pace.running = true) ∧
    (∃ (s : State) (rq : Requester) (v : W64), writeFate s.pkg rq pgDt 0x110 = .accepted ∧ s.pkg.pace.setLocked = false
      ∧ dtMaster s.pkg = true ∧ s.pkg.pace.everSynced = false ∧ s.pkg.pace.datum < v.toNat) ∧
    (∃ (s : State) (rq : Requester) (w : Nat) (v : W64), writeFate s.pkg rq pgDt 0x110 = .accepted ∧ (w ≠ 8 ∨
      s.pkg.pace.setLocked = true ∨ dtMaster s.pkg = false ∨ s.pkg.pace.everSynced = true ∨ v.toNat ≤ s.pkg.pace.datum)) ∧
    (∃ (s : State) (rq : Requester) (v : W32), writeFate s.pkg rq pgDt 0x10C = .accepted ∧ bitOf (v.setWidth 64 : W64)
      1 = false) ∧
    (∃ (s : State) (rq : Requester) (v : W32), writeFate s.pkg rq pgDt 0x10C = .accepted ∧ bitOf (v.setWidth 64 : W64)
      1 = true ∧ bit s.pkg (key pgDt 0x10C) 1 = false) ∧
    (∃ (s : State) (rq : Requester) (v : W32), writeFate s.pkg rq pgDt 0x120 = .accepted ∧ bitOf (v.setWidth 64 : W64)
      0 = true) ∧
    (∃ (s : State) (rq : Requester) (k : Nat) (x : W32), s.pkg.pace.latches.find? (fun y => y.1 == key pgDt 0x100) =
      some (k, x)) ∧
    (∃ (s : State) (off : Nat), s.pkg.pace.latches.any (fun x => x.1 == off / 8 * 8) = true ∧ SMap.get
      s.pkg.pace.latchAt (off / 8 * 8) 0 + 1000 ≤ s.pkg.pace.datum) :=
  ⟨⟨make [], by decide +kernel⟩,
    ⟨make [put pgDt 0x108 0x10], by decide +kernel⟩,
    ⟨make [put pgDt 0x10C 1], by decide +kernel⟩,
    ⟨stTDCFAHO16, by decide +kernel⟩,
    ⟨stTDCFAHO3, 5, ⟨true, true, true, false, 3, 4⟩, 9, 4999999000, by decide +kernel⟩,
    ⟨stTDCFAHO3, 5, ⟨true, true, true, false, 3, 4⟩, 4999990000, 4999990500, 4999990600, 4999991100, by
      decide +kernel⟩,
    ⟨make [put pgDt 0x108 2], by decide +kernel⟩,
    ⟨make [], by decide +kernel⟩,
    ⟨make [up pgDt 1, put pgDt 0x108 8], .surveyor, 5000000001, by decide +kernel⟩,
    ⟨make [up pgDt 1], .surveyor, 4, 5, by decide +kernel⟩,
    ⟨make [up pgDt 1], .surveyor, 1, by decide +kernel⟩,
    ⟨make [up pgDt 1, put pgDt 0x10C 0], .surveyor, 2, by decide +kernel⟩,
    ⟨make [up pgDt 1], .surveyor, 1, by decide +kernel⟩,
    ⟨stTDCFAHO12, .host, key pgDt 0x100, 1, by decide +kernel⟩,
    ⟨stTDCFAHO12, key pgDt 0x104, by decide +kernel⟩⟩

def stCLIPAR0 : State := make [fun p => { p with paths := [(7, { Path.initial 8 with limit := 1 })] }]
def stCLIPAR1 : State := make [fun p => { p with paths := [(7, Path.initial 8)] }]
def stCLIPAR2 : State := make [fun p => { p with paths := [(7, { Path.initial 8 with items := [(4, 5)], freed := 65535 })] }]
def stCLIPAR3 : State := make [up 0x20 1, fun p => { p with paths := [(0x200, Path.initial 8)] }]
def stCLIPAR4 : State := make [fun p =>
  { p with paths := [(7, { Path.initial 8 with announced := true, lastSent := 8, limit := 7 })] }]
def stCLIPAR5 : State := make [fun p => { p with paths := [(7, { Path.initial 8 with limit := 65530 })] }]

theorem test_witness_CreditsLetItemsPassAndReturn :
    (∃ (s : State) (n : Nat) (i : Item) (f : Bool) (l : Bool) (x : Path), x = path s.pkg n ∧ x.credits ≠ 0 ∧ x.ended =
      false ∧ f = x.uncommitted.isEmpty ∧ x.uncommitted.length + (if l then 0 else 1) < x.depth) ∧
    (∃ (s : State) (n : Nat) (i : Item) (f : Bool) (l : Bool), (path s.pkg n).credits = 0) ∧
    (∃ (s : State) (n : Nat) (q : Nat) (i : Item) (rest : List (Nat × Item)), (path s.pkg n).items = (q, i) :: rest) ∧
    (∃ (s : State) (n : Nat) (x : Path), x = path s.pkg n ∧ pathReady s.pkg n = true ∧ (x.announced = false ∨ x.update
      ≠ x.lastSent)) ∧
    (∃ (s : State) (n : Nat), pathReady s.pkg n = false) ∧
    (∃ (s : State) (n : Nat) (x : Path), x = path s.pkg n ∧ x.announced = true ∧ x.update = x.lastSent ∧ x.credits <
      x.depth) ∧
    (∃ (s : State) (n : Nat) (u : Nat) (x : Path), x = path s.pkg n ∧ u < 65536 ∧ x.retired = false ∧ (u + 65536 -
      x.limit % 65536) % 65536 ≤ x.depth) ∧
    (∃ (s : State) (n : Nat) (u : Nat) (x : Path) (good : Bool), x = path s.pkg n ∧ u < 65536 ∧ (good = false ∨
      x.retired = true ∨ x.depth < (u + 65536 - x.limit % 65536) % 65536)) ∧
    (∃ (x : Path) (held : Nat) (i : Item) (f : Bool) (l : Bool), held = x.items.length + x.uncommitted.length ∧ x.depth
      ≤ 4096 ∧ x.sent < 65536 ∧ x.freed < 65536 ∧ x.limit < 65536 ∧ x.sent = (x.freed + held) % 65536 ∧ x.credits + held
      ≤ x.depth) ∧
    (∃ (x : Path) (held : Nat), held = x.items.length + x.uncommitted.length ∧ x.depth ≤ 4096 ∧ x.sent < 65536 ∧
      x.freed < 65536 ∧ x.limit < 65536 ∧ x.sent = (x.freed + held) % 65536 ∧ x.credits + held ≤ x.depth) ∧
    (∃ (x : Path) (held : Nat) (i : Item), held = x.items.length + x.uncommitted.length ∧ x.depth ≤ 4096 ∧ x.sent <
      65536 ∧ x.freed < 65536 ∧ x.limit < 65536 ∧ x.sent = (x.freed + held) % 65536 ∧ x.credits + held ≤ x.depth) ∧
    (∃ (x : Path) (held : Nat), held = x.items.length + x.uncommitted.length ∧ x.depth ≤ 4096 ∧ x.sent < 65536 ∧
      x.freed < 65536 ∧ x.limit < 65536 ∧ x.sent = (x.freed + held) % 65536 ∧ x.credits + held ≤ x.depth ∧ x.retired =
      false ∧ (x.update + 65536 - x.limit) % 65536 ≤ x.depth) :=
  ⟨⟨stCLIPAR0, 7, 5, (path stCLIPAR0.pkg 7).uncommitted.isEmpty, true, path stCLIPAR0.pkg 7, rfl, by decide +kernel,
      by decide +kernel, rfl, by decide +kernel⟩,
    ⟨stCLIPAR1, 7, 5, true, false, by decide +kernel⟩,
    ⟨stCLIPAR2, 7, 4, 5, [], by decide +kernel⟩,
    ⟨stCLIPAR3, 0x200, path stCLIPAR3.pkg 0x200, rfl, by decide +kernel⟩,
    ⟨make [], 0x200, by decide +kernel⟩,
    ⟨stCLIPAR4, 7, path stCLIPAR4.pkg 7, rfl, by decide +kernel⟩,
    ⟨stCLIPAR5, 7, 2, path stCLIPAR5.pkg 7, rfl, by decide +kernel⟩,
    ⟨stCLIPAR5, 7, 3, path stCLIPAR5.pkg 7, true, rfl, by decide +kernel⟩,
    ⟨({ Path.initial 8 with limit := 8 }), (({ Path.initial 8 with limit := 8 }).items.length +
      ({ Path.initial 8 with limit := 8 }).uncommitted.length), 5, true, true, rfl, by decide +kernel⟩,
    ⟨({ Path.initial 8 with items := [(0, 5)], sent := 1, limit := 8 }),
      (({ Path.initial 8 with items := [(0, 5)], sent := 1, limit := 8 }).items.length +
      ({ Path.initial 8 with items := [(0, 5)], sent := 1, limit := 8 }).uncommitted.length), rfl, by decide +kernel⟩,
    ⟨({ Path.initial 8 with limit := 8 }), (({ Path.initial 8 with limit := 8 }).items.length +
      ({ Path.initial 8 with limit := 8 }).uncommitted.length), 5, rfl, by decide +kernel⟩,
    ⟨({ Path.initial 8 with items := [(0, 5)], sent := 1, limit := 4 }),
      (({ Path.initial 8 with items := [(0, 5)], sent := 1, limit := 4 }).items.length +
      ({ Path.initial 8 with items := [(0, 5)], sent := 1, limit := 4 }).uncommitted.length), rfl, by decide +kernel⟩⟩

def stPCWOV0 : State := make [fun p => { p with paths := [(7, { Path.initial 8 with uncommitted := [5, 6] })] }]
def stPCWOV3 : State := make [fun p => { p with
  home := { p.home with pend := [⟨0x1000, 9, false, false, 799, 3, false, false⟩] } }]
def stPCWOV1 : State := make [fun p => { p with paths := [(7, { Path.initial 8 with uncommitted := [5, 6], ended := true })] }]
def stPCWOV2 : State := make [up (pgHbm (hbmStack 3 0)) 2, fun p => { p with
  ces := [(799, { Ce.empty with
    movers := [(3, { Mover.empty with closed := [[⟨0x106000000000, 9, false, false, 799, 3, false, false⟩]] })] })] }]

theorem test_witness_PacketsCommitWholeOrVanish :
    (∃ (s : State) (n : Nat) (x : Path), x = path s.pkg n ∧ x.ended = true) ∧
    (∃ (s : State) (n : Nat), (path s.pkg n).ended = false) ∧
    (∃ (s : State) (n : Nat) (x : Path), x = path s.pkg n) ∧
    (∃ (s : State) (n : Nat) (mu : Nat) (pk : List PLine) (rest : List (List PLine)), (mover (ce s.pkg n) mu).closed =
      pk :: rest ∧ muPending s.pkg n mu = [] ∧ remotesOf s.pkg (fun r => r == .moverStore n mu) = [] ∧ (∀ l ∈ pk,
      fateFor s.pkg (idCe n) l.pa true ≠ .waits) ∧ hostRoom s.pkg pk = true) ∧
    (∃ (s : State) (n : Nat) (mu : Nat) (q : Pkg), q = sendPacket n mu s.pkg ∧ packetHeld q n mu = true) ∧
    (∃ (s : State) (n : Nat) (mu : Nat) (q : Pkg), q = sendPacket n mu s.pkg ∧ packetHeld q n mu = false) :=
  ⟨⟨stPCWOV1, 7, path stPCWOV1.pkg 7, rfl, by decide +kernel⟩,
    ⟨stPCWOV0, 7, by decide +kernel⟩,
    ⟨stPCWOV0, 7, path stPCWOV0.pkg 7, rfl⟩,
    ⟨stPCWOV2, 799, 3, [⟨0x106000000000, 9, false, false, 799, 3, false, false⟩], [], by decide +kernel⟩,
    ⟨stPCWOV3, 799, 3, sendPacket 799 3 stPCWOV3.pkg, rfl, by decide +kernel⟩,
    ⟨make [], 799, 3, sendPacket 799 3 (make []).pkg, rfl, by decide +kernel⟩⟩

def stQPPDAS0 : State := make [fun p => { p with paths := [(7, Path.initial 1)] }]
def stQPPDAS1 : State := make [up 0x20 1, fun p => pushQueue p (key 0x20 0x30) [1, 2] true]
def stQPPDAS3 : State := make [up 0x20 1, fun p => setQueue p (key 0x20 0x30) ⟨(List.range 64).map (fun n => (n, [])), 0,
  64, 65535, []⟩]
def stQPPDAS4 : State := make [fun p => setQueue p (key 0x20 0x30) ⟨(List.range 63).map (fun n => (n, [])), 0, 65535, 0, []⟩]
def stQPPDAS5 : State := make [up pgQm 2, put (pgQm + 16) 8 0x200]
def stQPPDAS6 : State := make [up (pgHbm 0) 2, put (pgQm + 16) (0x150 + 48 * 63) 0x10000000000D, fun p =>
  { p with
    spills := [(64 * 15 + 63, { Spill.empty with
      head := (List.range 16).map (fun n => (n, 0)), tail := (List.range 16).map (fun n => (n + 16, 7)) })] }]
def stQPPDAS7 : State := { make [up (pgHbm 0) 2, put (pgQm + 16) (0x150 + 48 * 63) 0x10000000000D, fun p =>
  { p with
    spills := [(64 * 15 + 63, { Spill.empty with regionRd := 63, regionWr := 64, firstSeq := 9 })], qm := { p.qm with
      cmds := [(9, { noCmd with ctx := 15, ring := 63, phase := .waiting })] } }] with mem := ⟨cellsOf 0x100000000FC0 64 0
        [], [], []⟩ }
def stQPPDAS8 : State := make [fun p => { p with paths := [(7, { Path.initial 1 with limit := 1 })] }]
def stCLIPAR6 : State := make [fun p => { p with paths := [(7, { Path.initial 8 with limit := 8 })] }]
def stQPPDAS9 : State := make [fun p => setQueue p (key 0x20 0x18) ⟨(List.range 32).map (fun n => (n, [])), 0, 32, 0, []⟩]
def stQPPDAS10 : State := { stQPPDAS7 with mem := stQPPDAS7.mem.setPoison 0x100000000FC0 }

theorem test_witness_QueuesPopPushDropAndSpill :
    (∃ (s : State) (n : Nat) (port : Nat) (i : Item) (x : Path), isPopKey n = false ∧ x = path s.pkg n ∧ x.items = [] ∧
      x.uncommitted = [] ∧ 0 < x.depth ∧ x.credits ≠ 0) ∧
    (∃ (s : State) (n : Nat) (a : Nat) (b : Nat) (i : Item) (j : Item) (x : Path), isPopKey n = false ∧ x = path s.pkg
      n ∧ a < b ∧ 2 ≤ x.credits ∧ x.items.length + x.uncommitted.length + 2 ≤ x.depth) ∧
    (∃ (s : State) (n : Nat) (l : List (Nat × Item)), isPopKey n = false ∧ (path s.pkg n).credits = 0) ∧
    (∃ (s : State) (rq : Requester) (k : Nat), isPopKey k = true ∧ k % 8 = 0 ∧ k % 0x1000 < 0x100 ∧ present s.pkg (k /
      0x1000) = true ∧ rq.code ≠ 0 ∧ rq.code = owner s.pkg (k / 0x1000)) ∧
    (∃ (q : Queue) (seq : Nat) (w : W64) (t : List (Nat × List W64)), q.items = (seq, [w]) :: t ∧ q.popped = 0 ∧ seq ∉
      q.bad) ∧
    (∃ (s : State) (rq : Requester) (k : Nat) (w : Nat), isPopKey k = true ∧ k % 8 = 0 ∧ present s.pkg (k / 0x1000) =
      true ∧ w ≠ 8) ∧
    (∃ (s : State) (rq : Requester) (k : Nat), isPopKey k = true ∧ k % 8 = 0 ∧ present s.pkg (k / 0x1000) = true ∧
      (queue s.pkg k).items = [] ∧ (queue s.pkg k).nextSeq < 65536) ∧
    (∃ (s : State) (rq : Requester) (k : Nat) (i : Item), isPopKey k = true ∧ writeFate s.pkg rq (k / 0x1000) (k %
      0x1000) = .accepted ∧ queueCap (k % 0x1000) ≤ (queue s.pkg k).items.length) ∧
    (∃ (s : State) (rq : Requester) (k : Nat) (i : Item), isPopKey k = true ∧ writeFate s.pkg rq (k / 0x1000) (k %
      0x1000) = .accepted ∧ (queue s.pkg k).items.length < queueCap (k % 0x1000)) ∧
    (∃ (s : State) (k : Nat) (ws : List W64) (q : Queue), isPopKey k = true ∧ q = queue s.pkg k ∧ q.items.length <
      queueCap (k % 0x1000)) ∧
    (∃ (s : State) (k : Nat) (ws : List W64) (q : Queue), isPopKey k = true ∧ q = queue s.pkg k ∧ queueCap (k % 0x1000)
      ≤ q.items.length ∧ keepNewest (k % 0x1000) = false) ∧
    (∃ (s : State) (k : Nat) (ws : List W64) (q : Queue), isPopKey k = true ∧ q = queue s.pkg k ∧ queueCap (k % 0x1000)
      ≤ q.items.length ∧ keepNewest (k % 0x1000) = true ∧ q.popped = 0) ∧
    (∃ (s : State) (rq : Requester) (c : Nat) (r : Nat) (v : W64), c < 16 ∧ r < 64 ∧ writeFate s.pkg rq (pgQm + 1 + c)
      (0x150 + 48 * r) = .accepted ∧ bit s.pkg (spillKey c r) 0 = false ∧ bitOf v 0 = true ∧ (bitsOf v 5 1 < 6 ∨ 20 <
      bitsOf v 5 1 ∨ hbmOrScratch s.pkg (spillBase v) (64 * spillSize v) = false)) ∧
    (∃ (s : State) (rq : Requester) (c : Nat) (r : Nat) (v : W64), c < 16 ∧ r < 64 ∧ writeFate s.pkg rq (pgQm + 1 + c)
      (0x150 + 48 * r) = .accepted ∧ bit s.pkg (spillKey c r) 0 = false ∧ bitOf v 0 = true ∧ 6 ≤ bitsOf v 5 1 ∧ bitsOf v
      5 1 ≤ 20 ∧ hbmOrScratch s.pkg (spillBase v) (64 * spillSize v) = true ∧ (spill s.pkg c r).depth ≤ 32) ∧
    (∃ (s : State) (c : Nat) (r : Nat) (w : W64) (x : Spill), w = reg s.pkg (spillKey c r) ∧ x = spill s.pkg c r ∧
      bitOf w 0 = true ∧ x.tail.length = 16 ∧ 16 ≤ x.head.length ∧ x.inRegion = 0 ∧ 8 ≤ spillSize w ∧ (∀ i, i < 8 →
      fateLine s.pkg (spillSlot w (x.regionWr + i)) = .served)) ∧
    (∃ (s : State) (c : Nat) (r : Nat) (id : Nat) (w : W64) (x : Spill), w = reg s.pkg (spillKey c r) ∧ x = spill s.pkg
      c r ∧ x.head = [] ∧ x.inRegion = 1 ∧ x.tail = [] ∧ fateLine s.pkg (spillSlot w x.regionRd) = .served ∧
      s.mem.poisoned (spillSlot w x.regionRd) 64 = false ∧ id = itemCmd s.pkg c r (s.mem.line (spillSlot w x.regionRd))
      ∧ hasCmd s.pkg id = true ∧ (cmd s.pkg id).phase = .waiting ∧ (cmd s.pkg id).requeued = false) ∧
    (∃ (s : State) (c : Nat) (r : Nat) (id : Nat) (w : W64) (x : Spill), w = reg s.pkg (spillKey c r) ∧ x = spill s.pkg
      c r ∧ x.head = [] ∧ x.inRegion = 1 ∧ x.tail = [] ∧ fateLine s.pkg (spillSlot w x.regionRd) = .served ∧
      s.mem.poisoned (spillSlot w x.regionRd) 64 = true) :=
  ⟨⟨stQPPDAS8, 7, 3, 5, path stQPPDAS8.pkg 7, by decide +kernel, rfl, by decide +kernel⟩,
    ⟨stCLIPAR6, 7, 2, 3, 5, 6, path stCLIPAR6.pkg 7, by decide +kernel, rfl, by decide +kernel⟩,
    ⟨stQPPDAS0, 7, [(3, 5)], by decide +kernel⟩,
    ⟨stQPPDAS1, .surveyor, key 0x20 0x30, by decide +kernel⟩,
    ⟨⟨[(9, [5])], 0, 10, 0, []⟩, 9, 5, [], by decide +kernel⟩,
    ⟨stQPPDAS1, .surveyor, key 0x20 0x30, 4, by decide +kernel⟩,
    ⟨make [], .host, key 0 0x18, by decide +kernel⟩,
    ⟨stQPPDAS3, .surveyor, key 0x20 0x30, 5, by decide +kernel⟩,
    ⟨stQPPDAS1, .surveyor, key 0x20 0x30, 5, by decide +kernel⟩,
    ⟨stQPPDAS4, key 0x20 0x30, [1], queue stQPPDAS4.pkg (key 0x20 0x30), by decide +kernel, rfl, by decide +kernel⟩,
    ⟨stQPPDAS9, key 0x20 0x18, [1], queue stQPPDAS9.pkg (key 0x20 0x18), by decide +kernel, rfl, by decide +kernel⟩,
    ⟨stQPPDAS3, key 0x20 0x30, [1], queue stQPPDAS3.pkg (key 0x20 0x30), by decide +kernel, rfl, by decide +kernel⟩,
    ⟨stQPPDAS5, .kernel, 15, 63, 0x2B, by decide +kernel⟩,
    ⟨stQPPDAS5, .kernel, 15, 63, 0x10000000000D, by decide +kernel⟩,
    ⟨stQPPDAS6, 15, 63, reg stQPPDAS6.pkg (spillKey 15 63), spill stQPPDAS6.pkg 15 63, rfl, rfl, by decide +kernel⟩,
    ⟨stQPPDAS7, 15, 63, 9, reg stQPPDAS7.pkg (spillKey 15 63), spill stQPPDAS7.pkg 15 63, rfl, rfl, by decide +kernel⟩,
    ⟨stQPPDAS10, 15, 63, 0, reg stQPPDAS10.pkg (spillKey 15 63), spill stQPPDAS10.pkg 15 63, rfl, rfl, by
      decide +kernel⟩⟩

def stRWASRTO7 : State := make [fun p => { p with fuse := { p.fuse with requests := [⟨2, 3, 0, 0, 450, 0⟩], serving := true } }]

theorem test_witness_RegisterWritesAndSettingsReachTheirOwners :
    (∃ (s : State) (rq : Requester) (pg : Nat) (v : W64) (pi : PageInfo) (r : Row), pageInfo pg = some pi ∧ pi.index =
      0 ∧ regRow (key pg 0x14) = some (r, key pg 0x14) ∧ r.bytes = 4 ∧ writeFate s.pkg rq pg 0x14 = .accepted) ∧
    (∃ (s : State) (rq : Requester) (off : Nat) (w : Nat) (v : W64), ((w ≠ 4 ∧ w ≠ 8) ∨ off % w ≠ 0)) ∧
    (∃ (s : State) (rq : Requester) (pg : Nat) (v : W64) (pi : PageInfo) (r : Row), pageInfo pg = some pi ∧ pi.index =
      0 ∧ regRow (key pg 0x14) = some (r, key pg 0x14) ∧ r.bytes = 4 ∧ writeFate s.pkg rq pg 0x14 = .foreign ∧ bit s.pkg
      (key (firstPage pg) 0x10) 8 = true) ∧
    (∃ (s : State) (rq : Requester) (pg : Nat) (v : W32), writeFate s.pkg rq pg 0x2C = .accepted ∧ firstPage pg = pg ∧
      windowOk (v.setWidth 64) = true) ∧
    (∃ (s : State) (rq : Requester) (pg : Nat) (v : W32), writeFate s.pkg rq pg 0x2C = .accepted ∧ windowOk (v.setWidth
      64) = false) ∧
    (∃ (s : State) (rq : Requester) (limit : Nat) (slot : Nat) (v : W32), limit < 3 ∧ 0 < slot ∧ slot < 4 ∧ writeFate
      s.pkg rq pgPwr (0x240 + 0x20 * limit + 4 * slot) = .accepted ∧ limitValueOk limit (v.toNat % 2 ^ limitBits limit)
      = true) ∧
    (∃ (s : State) (rq : Requester) (limit : Nat) (slot : Nat) (v : W32), limit < 3 ∧ 0 < slot ∧ slot < 4 ∧ writeFate
      s.pkg rq pgPwr (0x240 + 0x20 * limit + 4 * slot) = .accepted ∧ limitValueOk limit (v.toNat % 2 ^ limitBits limit)
      = false) ∧
    (∃ (s : State) (v : W32), writeFate s.pkg .host pgFb 0x108 = .accepted ∧ s.pkg.fuse.requests = [] ∧
      s.pkg.fuse.serving = false ∧ s.pkg.boot.handover = none ∧ s.pkg.fuse.debugLock = false ∧ s.pkg.fuse.entries.length
      < 256 ∧ v.toNat % 2 = 1) ∧
    (∃ (s : State) (r : FbReq), s.pkg.fuse.requests = [r] ∧ s.pkg.fuse.serving = true ∧ r.setting = 2 ∧ r.mbox = 0) ∧
    (∃ (s : State) (r : FbReq), s.pkg.fuse.requests = [r] ∧ s.pkg.fuse.serving = true ∧ r.setting = 2 ∧ r.mbox = 0) :=
  ⟨⟨make [up 0x20 2], .kernel, 0x20, 0x1FF, (pageInfo 0x20).getD ⟨0, 0, 0, 0, 0, 0⟩, ((regRow (key 0x20 0x14)).map
      Prod.fst).getD ⟨0, 0, 0, 0, 0, 0, 0⟩, by decide +kernel⟩,
    ⟨make [], .host, 2, 4, 1, by decide +kernel⟩,
    ⟨make [up 0x20 2, put 0x20 0x10 0x100], .host, 0x20, 0x1FF, (pageInfo 0x20).getD ⟨0, 0, 0, 0, 0, 0⟩, ((regRow (key
      0x20 0x14)).map Prod.fst).getD ⟨0, 0, 0, 0, 0, 0, 0⟩, by decide +kernel⟩,
    ⟨make [up 0x20 2], .kernel, 0x20, 0xFFFF4001, by decide +kernel⟩,
    ⟨make [up 0x20 2], .kernel, 0x20, 0xFFC001, by decide +kernel⟩,
    ⟨make [up pgPwr 1], .surveyor, 2, 3, 90, by decide +kernel⟩,
    ⟨make [up pgPwr 1], .surveyor, 2, 3, 127, by decide +kernel⟩,
    ⟨make [up pgFb 3], 1, by decide +kernel⟩,
    ⟨stRWASRTO7, ⟨2, 3, 0, 0, 450, 0⟩, by decide +kernel⟩,
    ⟨stRWASRTO7, ⟨2, 3, 0, 0, 450, 0⟩, by decide +kernel⟩⟩

theorem test_witness_PagesAreClaimedReleasedAndHandedOver :
    (∃ (s : State) (rq : Requester) (pg : Nat) (v : W32), present s.pkg pg = true ∧ bitOf (v.setWidth 64 : W64) 3 =
      true ∧ rq.code ≠ owner s.pkg pg ∧ (rq.code = 1 ∨ (owner s.pkg pg = 0 ∧ (rq.code = 2 ∨ rq.code = 3)))) ∧
    (∃ (s : State) (rq : Requester) (pg : Nat) (v : W32), present s.pkg pg = true ∧ bitOf (v.setWidth 64 : W64) 3 =
      true ∧ rq.code ≠ owner s.pkg pg ∧ rq.code ≠ 1 ∧ (owner s.pkg pg ≠ 0 ∨ rq.code = 0)) ∧
    (∃ (s : State) (rq : Requester) (pg : Nat) (v : W32), present s.pkg pg = true ∧ bitOf (v.setWidth 64 : W64) 3 =
      false ∧ bitOf (v.setWidth 64 : W64) 4 = true ∧ bitsOf (v.setWidth 64 : W64) 11 8 = 0 ∧ rq.code ≠ 0 ∧ (rq.code =
      owner s.pkg pg ∨ rq.code = 1)) ∧
    (∃ (s : State) (rq : Requester) (pg : Nat) (h : Nat) (v : W32), present s.pkg pg = true ∧ bitOf (v.setWidth 64 :
      W64) 3 = false ∧ bitOf (v.setWidth 64 : W64) 4 = false ∧ bitsOf (v.setWidth 64 : W64) 11 8 = h ∧ 1 ≤ h ∧ h < 4 ∧
      (h = 3 → s.pkg.standalone = false) ∧ rq.code ≠ 0 ∧ (rq.code = owner s.pkg pg ∨ rq.code = 1)) ∧
    (∃ (s : State) (rq : Requester) (pg : Nat) (v : W32), present s.pkg pg = true ∧ bitOf (v.setWidth 64 : W64) 3 =
      false ∧ (bitOf (v.setWidth 64 : W64) 4 = true ∨ bitsOf (v.setWidth 64 : W64) 11 8 ≠ 0) ∧ rq.code ≠ 1 ∧ (rq.code =
      0 ∨ rq.code ≠ owner s.pkg pg)) ∧
    (∃ (s : State) (rq : Requester) (pg : Nat) (v : W32), present s.pkg pg = true ∧ bitOf (v.setWidth 64 : W64) 3 =
      false ∧ (bitOf (v.setWidth 64 : W64) 4 = true ∨ bitsOf (v.setWidth 64 : W64) 11 8 ≠ 0) ∧ rq.code ≠ 1 ∧ (rq.code =
      0 ∨ rq.code ≠ owner s.pkg pg)) :=
  ⟨⟨make [put 0x20 8 0], .host, 0x20, 8, by decide +kernel⟩,
    ⟨make [put 0x20 8 0x200], .host, 0x20, 8, by decide +kernel⟩,
    ⟨make [put 0x20 8 0x200], .surveyor, 0x20, 0x10, by decide +kernel⟩,
    ⟨make [put 0x20 8 0x200], .kernel, 0x20, 3, 0x300, by decide +kernel⟩,
    ⟨make [put 0x20 8 0x200], .host, 0x20, 0x10, by decide +kernel⟩,
    ⟨make [put 0x20 8 0x200], .host, 0x20, 0x300, by decide +kernel⟩⟩

def stBQDAR1 : State := make [put 0x20 8 0x200, put 0x20 0xC 0, fun p => { p with disabled := [(0x20, true)] }]

theorem test_witness_BlocksQuiesceDisableAndReset :
    (∃ (s : State) (rq : Requester) (pg : Nat) (v : W32), present s.pkg pg = true ∧ firstPage pg = pg ∧ rq.code ≠ 0 ∧
      rq.code = owner s.pkg pg ∧ bitsOf (v.setWidth 64 : W64) 4 2 = 0 ∧ bitsOf (v.setWidth 64 : W64) 11 8 = 0) ∧
    (∃ (s : State) (rq : Requester) (pg : Nat) (v : W32), present s.pkg pg = true ∧ firstPage pg = pg ∧ rq.code ≠ 0 ∧
      rq.code = owner s.pkg pg ∧ bitsOf (v.setWidth 64 : W64) 4 0 = 1 ∧ bitsOf (v.setWidth 64 : W64) 11 8 = 0 ∧ enabled
      s.pkg pg = false ∧ SMap.get s.pkg.disabled pg false = true ∧ retired s.pkg pg = false ∧ inFault s.pkg pg = false ∧
      surveying s.pkg pg = false ∧ heldDown s.pkg pg = false) ∧
    (∃ (s : State) (rq : Requester) (pg : Nat) (v : W32) (pi : PageInfo), present s.pkg pg = true ∧ pageInfo pg = some
      pi ∧ firstPage pg = pg ∧ rq.code ≠ 0 ∧ rq.code = owner s.pkg pg ∧ bitsOf (v.setWidth 64 : W64) 4 2 = 1 ∧ bitsOf
      (v.setWidth 64 : W64) 11 8 = 0 ∧ pi.cls ≠ 1 ∧ pi.cls ≠ 4 ∧ pi.cls ≠ 5 ∧ heldDown s.pkg pg = false) ∧
    (∃ (s : State) (pg : Nat), present s.pkg pg = true ∧ firstPage pg = pg ∧ quiesced s.pkg pg = true ∧ enabled s.pkg
      pg = true ∧ idle s.pkg pg = true) ∧
    (∃ (s : State) (pg : Nat), present s.pkg pg = true ∧ firstPage pg = pg ∧ enabled s.pkg pg = false ∧ idle s.pkg pg =
      true) :=
  ⟨⟨make [up 0x20 2], .kernel, 0x20, 2, by decide +kernel⟩,
    ⟨stBQDAR1, .kernel, 0x20, 1, by decide +kernel⟩,
    ⟨make [up 0x800 2], .kernel, 0x800, 5, (pageInfo 0x800).getD ⟨0, 0, 0, 0, 0, 0⟩, by decide +kernel⟩,
    ⟨make [up 0x20 2, put 0x20 0xC 3], 0x20, by decide +kernel⟩,
    ⟨make [up 0x20 2, put 0x20 0xC 0], 0x20, by decide +kernel⟩⟩

def muCode (op : W32) : List W32 := [op, 0, 0x10001, 0x10001, 0, 0, 0, 0]
def stGAMMTW0 : State := make [engine 799 [unit 3 11 4] [⟨11, 0x20, 1, 8⟩] [0x3FF0000, 0, 0, 0] (fun c =>
  { c with su := [(suKey 11 1023, 77)] }) id]
def stGAMMTW1 : State := make [engine 799 [unit 4 11 4] [⟨3, 0x1B, 1, 8⟩] [0x3FF0000, 0, 0, 0] (fun c => { c with
  routes := [(0x1B, [55])] })
  id]
def stGAMMTW2 : State := make [engine 799 [unit 5 3 8] [] (List.replicate 8 0) id id]
def stGAMMTW3 : State := make [engine 799 [unit 5 3 8] [⟨0x53, 0x20, 1, 8⟩] (muCode 1) (fun c =>
  { c with arrived := [(3, ⟨0x40, 5, false, 0⟩)] }) (fun c => { c with desc := desc0 2, pages := [page0] })]
def stGAMMTW5 : State := make [engine 799 [unit 5 3 8] [⟨0, 0x57, 1, 8⟩] (muCode 2) (fun c => { c with
  routes := [(0x57, [5])] })
  (fun c => { c with desc := desc0 2, pages := [page0] })]
def stGAMMTW7 : State := make [put (pgCe 799) 0x188 0x40000000, engine 799 [unit 5 3 8] [] (muCode 5) id (fun c =>
  { c with desc := desc0 2, pages := [page0] })]
def stGAMMTW4 : State := make [engine 799 [unit 5 3 8] [⟨0x53, 0x20, 1, 8⟩] (muCode 3) (fun c =>
  { c with movers := [(3, { Mover.empty with raw := [0] })] }) id]
def stGAMMTW6 : State := make [engine 799 [unit 5 3 8] [⟨0, 0x57, 1, 8⟩] (muCode 4) (fun c => { c with
  routes := [(0x57, [5])] })
  (fun c => { c with desc := desc0 2, pages := [page0] })]

theorem test_witness_GeneratorsAndMoversMoveTheirWords :
    (∃ (s : State) (d : AgArgs) (pos : Nat) (held : Item), d.isWrite = false ∧ d.hold = false ∧ d.su < 12 ∧ ceLive
      s.pkg d.ce = true ∧ unitMay s.pkg d.ce 3 d.su = true ∧ atAg s.pkg d = true ∧ SMap.get (ce s.pkg d.ce).ag (agKey d)
      (0, 0) = (pos, held) ∧ total d.counts ≤ pos + 1 ∧ hasCredit (ceChart s.pkg d.ce) (ce s.pkg d.ce) d.su = true) ∧
    (∃ (s : State) (d : AgArgs) (pos : Nat) (held : Item) (x : Item) (rest : List Item), d.isWrite = true ∧ d.su < 12 ∧
      ceLive s.pkg d.ce = true ∧ unitMay s.pkg d.ce 4 d.su = true ∧ atAg s.pkg d = true ∧ SMap.get (ce s.pkg d.ce).ag
      (agKey d) (0, 0) = (pos, held) ∧ total d.counts ≤ pos + 1 ∧ routeItems (ce s.pkg d.ce) (0x10 + d.su) = x :: rest) ∧
    (∃ (s : State) (d : MuArgs), muMay s.pkg 0 d = true) ∧
    (∃ (s : State) (d : MuArgs) (x : Xlate) (a : Nat × CLine) (va : Int), muMay s.pkg 1 d = true ∧ hasCredit (ceChart
      s.pkg d.ce) (ce s.pkg d.ce) (0x50 + d.mu) = true ∧ va = muVa (ceCmd s.pkg d.ce) d (mover (ce s.pkg d.ce) d.mu).pos
      ∧ inExtent (ceCmd s.pkg d.ce) d.operand va = true ∧ cmdXlate (ceCmd s.pkg d.ce) d.operand va.toNat = some x ∧ (ce
      s.pkg d.ce).arrived.find? (fun y => y.1 == d.mu && y.2.line == x.addr va.toNat / 64) = some a ∧ a.2.poison = false
      ∧ total d.counts ≤ (mover (ce s.pkg d.ce) d.mu).pos + 1) ∧
    (∃ (s : State) (d : MuArgs) (m : Mover), muMay s.pkg 3 d = true ∧ m = mover (ce s.pkg d.ce) d.mu ∧ hasCredit
      (ceChart s.pkg d.ce) (ce s.pkg d.ce) (0x50 + d.mu) = true ∧ m.raw.length = min 5 (total d.counts - m.pos / 5 * 5)
      ∧ total d.counts ≤ m.pos + 1) ∧
    (∃ (s : State) (d : MuArgs) (x : Xlate) (item : Item) (rest : List Item) (va : Int) (m : Mover) (l : PLine),
      routeItems (ce s.pkg d.ce) (0x54 + d.mu) = item :: rest ∧ m = mover (ce s.pkg d.ce) d.mu ∧ va = muVa (ceCmd s.pkg
      d.ce) d m.pos ∧ inExtent (ceCmd s.pkg d.ce) d.operand va = true ∧ cmdXlate (ceCmd s.pkg d.ce) d.operand va.toNat =
      some x ∧ x.writable = true ∧ total d.counts ≤ m.pos + 1 ∧ l = ⟨x.addr va.toNat, item, false, (dOperand (ceCmd
      s.pkg d.ce).desc d.operand).slm == 2, d.ce, d.mu, false, false⟩ ∧ muMay s.pkg 2 d = true) ∧
    (∃ (s : State) (d : MuArgs) (x : Xlate) (item : Item) (rest : List Item) (va : Int) (m : Mover) (l : PLine),
      routeItems (ce s.pkg d.ce) (0x54 + d.mu) = item :: rest ∧ m = mover (ce s.pkg d.ce) d.mu ∧ va = muVa (ceCmd s.pkg
      d.ce) d m.pos ∧ inExtent (ceCmd s.pkg d.ce) d.operand va = true ∧ cmdXlate (ceCmd s.pkg d.ce) d.operand va.toNat =
      some x ∧ x.writable = true ∧ total d.counts ≤ m.pos + 1 ∧ l = ⟨x.addr va.toNat, item, false, (dOperand (ceCmd
      s.pkg d.ce).desc d.operand).slm == 2, d.ce, d.mu, false, false⟩ ∧ muMay s.pkg 4 d = true) ∧
    (∃ (s : State) (d : MuArgs) (x : Xlate) (va : Int) (line : Nat), muMay s.pkg 5 d = true ∧ l1On s.pkg d.ce = true ∧
      (ce s.pkg d.ce).pfOn = true ∧ (missLines (ce s.pkg d.ce)).length < 64 ∧ va = muVa (ceCmd s.pkg d.ce) d (mover (ce
      s.pkg d.ce) d.mu).pos ∧ inExtent (ceCmd s.pkg d.ce) d.operand va = true ∧ cmdXlate (ceCmd s.pkg d.ce) d.operand
      va.toNat = some x ∧ x.nc = false ∧ line = x.addr va.toNat / 64 ∧ l1Find (ce s.pkg d.ce) line = none ∧ sideFind (ce
      s.pkg d.ce) line = none ∧ (ce s.pkg d.ce).misses.any (fun m => m.line == line) = false ∧ fate s.pkg (line * 64) =
      .served ∧ total d.counts ≤ (mover (ce s.pkg d.ce) d.mu).pos + 1) :=
  ⟨⟨stGAMMTW0, ⟨799, 11, false, 1023, false, [1, 1, 1, 1], [0, 0, 0, 0]⟩, 0, 0, by decide +kernel⟩,
    ⟨stGAMMTW1, ⟨799, 11, true, 1023, false, [1, 1, 1, 1], [0, 0, 0, 0]⟩, 0, 0, 55, [], by decide +kernel⟩,
    ⟨stGAMMTW2, ⟨799, 3, 0, 0, 0, [0, 0, 0, 0], [0, 0, 0, 0]⟩, by decide +kernel⟩,
    ⟨stGAMMTW3, ⟨799, 3, 0, 0, 0, [1, 1, 1, 1], [0, 0, 0, 0]⟩, ⟨1, 1, 1, true, false, false, 0, 0, 0, false, false, 0,
      0⟩, (3, ⟨0x40, 5, false, 0⟩), (muVa (ceCmd stGAMMTW3.pkg (⟨799, 3, 0, 0, 0, [1, 1, 1, 1], [0, 0, 0, 0]⟩ :
      MuArgs).ce) (⟨799, 3, 0, 0, 0, [1, 1, 1, 1], [0, 0, 0, 0]⟩ : MuArgs) (mover (ce stGAMMTW3.pkg (⟨799, 3, 0, 0, 0,
      [1, 1, 1, 1], [0, 0, 0, 0]⟩ : MuArgs).ce) (⟨799, 3, 0, 0, 0, [1, 1, 1, 1], [0, 0, 0, 0]⟩ : MuArgs).mu).pos), by
      decide +kernel, by decide +kernel, rfl, by decide +kernel⟩,
    ⟨stGAMMTW4, ⟨799, 3, 0, 0, 0, [1, 1, 1, 1], [0, 0, 0, 0]⟩, (mover (ce stGAMMTW4.pkg (⟨799, 3, 0, 0, 0, [1, 1, 1,
      1], [0, 0, 0, 0]⟩ : MuArgs).ce) (⟨799, 3, 0, 0, 0, [1, 1, 1, 1], [0, 0, 0, 0]⟩ : MuArgs).mu), by decide +kernel,
      rfl, by decide +kernel⟩,
    ⟨stGAMMTW5, ⟨799, 3, 0, 0, 0, [1, 1, 1, 1], [0, 0, 0, 0]⟩, ⟨1, 1, 1, true, false, false, 0, 0, 0, false, false, 0,
      0⟩, 5, [], 0x1000, Mover.empty, ⟨0x1000, 5, false, false, 799, 3, false, false⟩, by decide +kernel⟩,
    ⟨stGAMMTW6, ⟨799, 3, 0, 0, 0, [1, 1, 1, 1], [0, 0, 0, 0]⟩, ⟨1, 1, 1, true, false, false, 0, 0, 0, false, false, 0,
      0⟩, 5, [], 0x1000, Mover.empty, ⟨0x1000, 5, false, false, 799, 3, false, false⟩, by decide +kernel⟩,
    ⟨stGAMMTW7, ⟨799, 3, 0, 0, 0, [1, 1, 1, 1], [0, 0, 0, 0]⟩, ⟨1, 1, 1, true, false, false, 0, 0, 0, false, false, 0,
      0⟩, 0x1000, 0x40, by decide +kernel⟩⟩

def stSWCTCAW3 : State := make [engine 799 [unit 0 0 2] [] [0, 0x3001000] (fun c =>
  { c with progress := [(unitKey 0 0, (1, 0))] }) id]
def stSWCTCAW4 : State := make [engine 799 [unit 0 0 2] [] [0, 0x3001000] (fun c =>
  { c with progress := [(unitKey 0 0, (1, 0))], loops := [(1, 1)] }) id]

theorem test_witness_SequencerWordsControlTheCommandAndWait :
    (∃ (s : State) (n : Nat), sqAt s.pkg n 0 0 = true) ∧
    (∃ (s : State) (n : Nat) (id : Nat), (ce s.pkg n).cmd = some id ∧ (cmd s.pkg id).phase = .running ∧ sqAt s.pkg n 1
      0 = true ∧ unitsDone s.pkg n = true ∧ packetsDone s.pkg n = true ∧ mustPause s.pkg n = false) ∧
    (∃ (s : State) (n : Nat) (phase : Nat), sqAt s.pkg n 2 phase = true ∧ phase < 8 ∧ phase < (ceChart s.pkg n).phases
      ∧ (∀ r ∈ (ceChart s.pkg n).routes, r.phases.testBit (ce s.pkg n).phase = true → r.phases.testBit phase = false →
      routeItems (ce s.pkg n) r.sink = [])) ∧
    (∃ (s : State) (n : Nat) (target : Nat) (count : Nat) (w : Nat) (pass : Nat), sqAt s.pkg n 3 (target * 4096 +
      (count - 1)) = true ∧ unitAt (ce s.pkg n) 0 0 = (w, pass) ∧ target ≤ w ∧ count ≤ 4096 ∧ SMap.get (ce s.pkg
      n).loops w 0 < count) ∧
    (∃ (s : State) (n : Nat) (target : Nat) (count : Nat) (w : Nat) (pass : Nat), sqAt s.pkg n 3 (target * 4096 +
      (count - 1)) = true ∧ unitAt (ce s.pkg n) 0 0 = (w, pass) ∧ target ≤ w ∧ 1 ≤ count ∧ count ≤ 4096 ∧ count ≤
      SMap.get (ce s.pkg n).loops w 0) ∧
    (∃ (s : State) (n : Nat), sqAt s.pkg n 8 0 = true ∧ allIdle s.pkg n = true) ∧
    (∃ (s : State) (n : Nat), sqAt s.pkg n 5 0 = true ∧ allIdle s.pkg n = true ∧ loadsDone s.pkg n = true) ∧
    (∃ (s : State) (n : Nat), sqAt s.pkg n 6 0 = true ∧ allIdle s.pkg n = true ∧ packetsDone (closePackets s.pkg n) n =
      true) ∧
    (∃ (s : State) (n : Nat), sqAt s.pkg n 7 0 = true ∧ allIdle s.pkg n = true ∧ packetsDone (closePackets s.pkg n) n =
      true ∧ loadsDone s.pkg n = true) ∧
    (∃ (s : State) (n : Nat), allIdle s.pkg n = false) ∧
    (∃ (s : State) (n : Nat), allIdle s.pkg n = false) ∧
    (∃ (s : State) (n : Nat), allIdle s.pkg n = false) ∧
    (∃ (s : State) (n : Nat), allIdle s.pkg n = false) :=
  ⟨⟨make [engine 799 [unit 0 0 2] [] [0, 0] id id], 799, by decide +kernel⟩,
    ⟨make [engine 799 [unit 0 0 2] [] [0x1000000, 0] id id], 799, 9, by decide +kernel⟩,
    ⟨make [engine 799 [unit 0 0 2] [] [0x2000001, 0] id id], 799, 1, by decide +kernel⟩,
    ⟨stSWCTCAW3, 799, 1, 1, 1, 0, by decide +kernel⟩,
    ⟨stSWCTCAW4, 799, 1, 1, 1, 0, by decide +kernel⟩,
    ⟨make [engine 799 [unit 0 0 2] [] [0x8000000, 0] id id], 799, by decide +kernel⟩,
    ⟨make [engine 799 [unit 0 0 2] [] [0x5000000, 0] id id], 799, by decide +kernel⟩,
    ⟨make [engine 799 [unit 0 0 2] [] [0x6000000, 0] id id], 799, by decide +kernel⟩,
    ⟨make [engine 799 [unit 0 0 2] [] [0x7000000, 0] id id], 799, by decide +kernel⟩,
    ⟨make [engine 799 [unit 0 0 2, unit 3 0 4] [] [0] id id], 799, by decide +kernel⟩,
    ⟨make [engine 799 [unit 0 0 2, unit 3 0 4] [] [0] id id], 799, by decide +kernel⟩,
    ⟨make [engine 799 [unit 0 0 2, unit 3 0 4] [] [0] id id], 799, by decide +kernel⟩,
    ⟨make [engine 799 [unit 0 0 2, unit 3 0 4] [] [0] id id], 799, by decide +kernel⟩⟩

def stFBCAP1 : State := make [engine 799 [unit 1 0 2, unit 6 0 1] [] [0, 0x20000000] (fun c =>
  { c with ls := { c.ls with rounds := 1 }, octets := [(0, { Octet.empty with rounds := 1 })] }) (fun c =>
  { c with desc := BitVec.ofNat 1024 ((8 + 8 * 65536) * 2 ^ 256), pages := [(0, { page0.2 with stale := true })] })]
def stFBCAP2 : State := make [put pgQm 0x118 1, engine 799 [unit 0 0 2] [] [0x1, 0x1] (fun c => { c with
  paused := true, preempt := true }) id]
def stFBCAP3 : State := make [engine 799 [unit 0 0 2] [] [0x1, 0x1] (fun c => { c with paused := true }) id]
def stFBCAP0 : State := make [engine 799 [unit 1 0 2, unit 6 0 1] [] [0, 0x20000000] (fun c =>
  { c with ls := { c.ls with rounds := 1 }, octets := [(0, { Octet.empty with rounds := 1 })] }) (fun c =>
  { c with desc := BitVec.ofNat 1024 ((8 + 8 * 65536) * 2 ^ 256) })]

theorem test_witness_FoldBoundariesCountAndPreempt :
    (∃ (s : State) (n : Nat) (id : Nat) (c : Ce), (ce s.pkg n).cmd = some id ∧ sqAt s.pkg n 4 0 = true ∧ c = ce
      (settleLatches s.pkg n) n ∧ c.octets.all (fun x => x.2.cells.isEmpty && x.2.done == 0) = true ∧ c.long.all (fun x
      => x.2 == 0) = true ∧ c.ls.bufBits = 0 ∧ packetsDone s.pkg n = true) ∧
    (∃ (s : State) (n : Nat) (id : Nat) (ch : Chart), (ce s.pkg n).cmd = some id ∧ ceLive s.pkg n = true ∧ ch = ceChart
      s.pkg n ∧ isProject ch = true ∧ (ce s.pkg n).round < roundsOf (ceCmd s.pkg n) (projectMode ch) ∧ projectedPast
      s.pkg n (ce s.pkg n).round = true ∧ emittedPast s.pkg n (ce s.pkg n).round = true ∧ holdDue s.pkg n = false) ∧
    (∃ (s : State) (n : Nat) (id : Nat) (ch : Chart), (ce s.pkg n).cmd = some id ∧ ceLive s.pkg n = true ∧ ch = ceChart
      s.pkg n ∧ isProject ch = true ∧ (ce s.pkg n).round < roundsOf (ceCmd s.pkg n) (projectMode ch) ∧ projectedPast
      s.pkg n (ce s.pkg n).round = true ∧ emittedPast s.pkg n (ce s.pkg n).round = true ∧ holdDue s.pkg n = true ∧
      roundPassed s.pkg n (ce s.pkg n).round = true ∧ packetsDone s.pkg n = true ∧ roundAhead s.pkg n (ce s.pkg n).round
      = false ∧ endsNow s.pkg n = false) ∧
    (∃ (s : State) (n : Nat) (id : Nat) (i : Nat), (ce s.pkg n).cmd = some id ∧ freeFold s.pkg = some i ∧ ceOk n = true
      ∧ (ce s.pkg n).paused = true ∧ (ce s.pkg n).preempt = true ∧ bit s.pkg (key pgQm 0x118) 0 = true ∧ packetsDone
      s.pkg n = true) ∧
    (∃ (s : State) (n : Nat) (id : Nat) (i : Nat), (ce s.pkg n).cmd = some id ∧ freeFold s.pkg = some i ∧ ceOk n = true
      ∧ (ce s.pkg n).paused = true ∧ (ceCmd s.pkg n).stale = false ∧ ((ce s.pkg n).preempt = false ∨ bit s.pkg (key pgQm
      0x118) 0 = false)) :=
  ⟨⟨make [engine 799 [unit 0 0 2] [] [0x4000000, 0] id id], 799, 9, ce (settleLatches (make [engine 799 [unit 0 0 2]
      [] [0x4000000, 0] id id]).pkg 799) 799, by decide +kernel, by decide +kernel, rfl, by decide +kernel⟩,
    ⟨stFBCAP0, 799, 9, ceChart stFBCAP0.pkg 799, by decide +kernel, by decide +kernel, rfl, by decide +kernel⟩,
    ⟨stFBCAP1, 799, 9, ceChart stFBCAP1.pkg 799, by decide +kernel, by decide +kernel, rfl, by decide +kernel⟩,
    ⟨stFBCAP2, 799, 9, 0, by decide +kernel⟩,
    ⟨stFBCAP3, 799, 9, 0, by decide +kernel⟩⟩

def stOLPDAP3 : State := make [engine 799 [⟨1, 7, 2, 0, 1, 0, 0⟩] [] [0x38000000] (fun c =>
  { c with
    routes := [(0x6F, [9])], octets := [(7, { Octet.empty with
      formatted := true, fa := 5, fb := 5, loading := List.replicate 63 4 })] })
  id]
def stOLPDAP4 : State := make [engine 799 [⟨1, 7, 2, 0, 1, 0, 0⟩] [] [0x40000000] (fun c =>
  { c with routes := [(0x67, [9]), (0x6F, [11])], octets := [(7, { Octet.empty with formatted := true, fa := 5, fb := 5 })] })
  id]
def stOLPDAP5 : State := make [engine 799 [unit 1 7 1] [] [] (fun c =>
  { c with octets := [(7, { Octet.empty with since := [(7, 65536)], cells := [(0, ⟨0, 0⟩)] })] }) id, fun p =>
  { p with
    ces := p.ces.map (fun x => (x.1, { x.2 with
      slots := x.2.slots.map (fun y => (y.1, { y.2 with chart := { y.2.chart with longAccs := 64 } })) })) }]
def stOLPDAP7 : State := make [engine 799 [⟨1, 7, 2, 0, 1, 0, 0⟩] [] [0] (fun c =>
  { c with routes := [(0x67, [9]), (0x6F, [9])], octets := [(7, { Octet.empty with stopped := true })] }) id]
def stOLPDAP8 : State := make [engine 799 [⟨1, 7, 0, 0, 1, 0, 0⟩] [] [0x20000000] (fun c =>
  { c with routes := [], octets := [(7, { Octet.empty with formatted := true, tile := 1 })] }) (fun c =>
  { c with desc := BitVec.ofNat 1024 ((8 + 8 * 65536 + 64 * 2 ^ 32) * 2 ^ 256) })]

theorem test_witness_OctetsLoadPassDrainAndProject :
    (∃ (s : State) (n : Nat) (oct : Nat), octAt s.pkg n oct 0 = true) ∧
    (∃ (s : State) (n : Nat) (oct : Nat) (fa : Nat) (fb : Nat) (axis : Bool) (sa : Bool) (sb : Bool), fa < 13 ∧ fb < 13
      ∧ octAt s.pkg n oct (2 ^ 28 + fa * 2 ^ 24 + fb * 2 ^ 20 + bitNat axis * 2 ^ 19 + bitNat sa * 2 ^ 18 + bitNat sb *
      2 ^ 17) = true) ∧
    (∃ (s : State) (n : Nat) (oct : Nat) (mask : Nat), octAt s.pkg n oct (5 * 2 ^ 28 + mask) = true ∧ mask < 256) ∧
    (∃ (s : State) (n : Nat) (oct : Nat) (bank : Nat) (x : Item) (rest : List Item) (o : Octet), octAt s.pkg n oct (3 *
      2 ^ 28 + bank * 2 ^ 27) = true ∧ o = octet (ce s.pkg n) oct ∧ o.formatted = true ∧ bank < 2 ∧ o.done = 0 ∧
      routeItems (ce s.pkg n) (0x68 + oct) = x :: rest ∧ o.loading.length + 1 = srItems o.fb) ∧
    (∃ (s : State) (n : Nat) (oct : Nat) (slot : Nat) (step : Nat) (bank : Nat) (x : Item) (y : Item) (xs : List Item)
      (ys : List Item) (o : Octet), slot < 64 ∧ step < 2 ∧ bank < 2 ∧ octAt s.pkg n oct (4 * 2 ^ 28 + slot * 2 ^ 22 +
      step * 2 ^ 21 + bank * 2 ^ 20) = true ∧ o = octet (ce s.pkg n) oct ∧ o.formatted = true ∧ o.fa = 5 ∧ o.fb = 5 ∧
      o.sharedA = false ∧ o.sharedB = false ∧ o.done = 0 ∧ o.stopped = false ∧ octMode s.pkg n oct = 2 ∧ (∀ a, a < 8 →
      SMap.get o.since a 0 < 65536) ∧ routeItems (ce s.pkg n) (0x60 + oct) = x :: xs ∧ routeItems (ce s.pkg n) (0x68 +
      oct) = y :: ys) ∧
    (∃ (s : State) (n : Nat) (array : Nat) (o : Octet) (slot : Nat) (l : Latch), ceLive s.pkg n = true ∧ array < 64 ∧ o
      = octet (ce s.pkg n) (array / 8) ∧ drainLimit o ≤ SMap.get o.since (array % 8) 0 ∧ o.latches = [] ∧ slotsFree
      s.pkg n (array / 8) = true ∧ slot = SMap.get o.slots (array % 8) 0 ∧ 64 * slot + 64 ≤ (ceChart s.pkg n).longAccs) ∧
    (∃ (s : State) (n : Nat) (oct : Nat), octMay s.pkg n oct = true ∧ feedHas s.pkg n oct = false) ∧
    (∃ (s : State) (n : Nat) (oct : Nat), octMay s.pkg n oct = true ∧ feedHas s.pkg n oct = true) ∧
    (∃ (s : State) (n : Nat) (oct : Nat) (o : Octet), octAt s.pkg n oct (2 * 2 ^ 28) = true ∧ o = octet (ce s.pkg n)
      oct ∧ o.formatted = true ∧ octMode s.pkg n oct ≠ 2 ∧ roundsOf (ceCmd s.pkg n) (octMode s.pkg n oct) = o.rounds + 1
      ∧ o.rounds ≤ (ce s.pkg n).round ∧ ceilDiv (runK (ceCmd s.pkg n)) 64 ≤ oct + 8 * o.tile) :=
  ⟨⟨make [engine 799 [⟨1, 7, 2, 0, 1, 0, 0⟩] [] [0] id id], 799, 7, by decide +kernel⟩,
    ⟨make [engine 799 [⟨1, 7, 2, 0, 1, 0, 0⟩] [] [0x1cca0000] id id], 799, 7, 12, 12, true, false, true, by
      decide +kernel⟩,
    ⟨make [engine 799 [⟨1, 7, 2, 0, 1, 0, 0⟩] [] [0x500000FF] id id], 799, 7, 255, by decide +kernel⟩,
    ⟨stOLPDAP3, 799, 7, 1, 9, [], octet (ce stOLPDAP3.pkg 799) 7, by decide +kernel, rfl, by decide +kernel⟩,
    ⟨stOLPDAP4, 799, 7, 0, 0, 0, 9, 11, [], [], octet (ce stOLPDAP4.pkg 799) 7, by decide +kernel, by decide +kernel,
      by decide +kernel, by decide +kernel, rfl, by decide +kernel⟩,
    ⟨stOLPDAP5, 799, 63, octet (ce stOLPDAP5.pkg 799) (63 / 8), SMap.get (octet (ce stOLPDAP5.pkg 799) (63 / 8)).slots
      (63 % 8) 0, ⟨0, 0, false, none, 0⟩, by decide +kernel, by decide +kernel, rfl, by decide +kernel, by
      decide +kernel, by decide +kernel, rfl, by decide +kernel⟩,
    ⟨make [engine 799 [⟨1, 7, 2, 0, 1, 0, 0⟩] [] [0] id id], 799, 7, by decide +kernel⟩,
    ⟨stOLPDAP7, 799, 7, by decide +kernel⟩,
    ⟨stOLPDAP8, 799, 7, octet (ce stOLPDAP8.pkg 799) 7, by decide +kernel, rfl, by decide +kernel⟩⟩

def longs (w : W32) (rs : List Route) (f : Ce → Ce) : State := make [engine 799 [⟨6, 0, 0, 0, 1, 0, 0⟩] rs [w] f id, fun p =>
  { p with
    ces := p.ces.map (fun x => (x.1, { x.2 with
      slots := x.2.slots.map (fun y => (y.1, { y.2 with chart := { y.2.chart with longAccs := 4096 } })) })) }]
def stTLSCEAAC0 : State := longs 0 [] id
def stTLSCEAAC1 : State := longs 0x18b00000 [] id
def stTLSCEAAC2 : State := longs 0x2C000000 [⟨0x73, 0x20, 3, 8⟩] (fun c => { c with ls := { c.ls with fmt := 0 } })
def stTLSCEAAC3 : State := longs 0x3fe04000 [] (fun c => { c with ls := { c.ls with next := 127, bufBits := 640, buf := 5 } })
def stTLSCEAAC4 : State := longs 0x401f8000 [] (fun c => { c with long := [(64, 9)] })
def stTLSCEAAC5 : State := make [engine 799 [⟨6, 0, 0, 0, 1, 0, 0⟩, ⟨1, 0, 0, 1, 1, 0, 0⟩] [] [0x5E000000, 0x20000000] (fun c =>
  { c with ls := { c.ls with next := 64 }, octets := [(0, { Octet.empty with rounds := 1 })] }) (fun c =>
  { c with desc := BitVec.ofNat 1024 ((8 + 8 * 65536) * 2 ^ 256) })]

theorem test_witness_TheLongStoreConvertsEmitsAcceptsAndClears :
    (∃ (s : State) (n : Nat), lsAt s.pkg n 0 = true) ∧
    (∃ (s : State) (n : Nat) (fmt : Nat) (rounding : Nat) (sat : Bool) (shift : Int), lsAt s.pkg n (2 ^ 28 + fmt * 2 ^
      24 + rounding * 2 ^ 22 + bitNat sat * 2 ^ 21 + (BitVec.ofInt 8 shift).toNat * 2 ^ 13) = true ∧ fmt < 9 ∧ rounding
      < 3 ∧ -128 ≤ shift ∧ shift < 128) ∧
    (∃ (s : State) (n : Nat) (port : Nat) (first : Nat) (c : Ce) (c1 : Ce), lsAt s.pkg n (2 * 2 ^ 28 + port * 2 ^ 26 +
      first * 2 ^ 19) = true ∧ port < 4 ∧ slotsOk s.pkg n first 1 = true ∧ c = ce (settleLatches s.pkg n) n ∧ c.ls.fmt =
      0 ∧ c.ls.next = 0 ∧ c.ls.buf = 0 ∧ c.ls.bufBits = 0 ∧ hasCredit (ceChart s.pkg n) (ce s.pkg n) (0x70 + port) =
      true ∧ c1 = (gather false (genSeed (ceCmd s.pkg n)) (fun k => (64 * first + k, 4096 * c.ls.emits + (64 * first +
      k))) 64 129 c).2) ∧
    (∃ (s : State) (n : Nat) (port : Nat) (first : Nat) (count : Nat) (c : Ce), lsAt s.pkg n (3 * 2 ^ 28 + port * 2 ^
      26 + first * 2 ^ 20 + (count - 1) * 2 ^ 14) = true ∧ port < 4 ∧ slotsOk s.pkg n first count = true ∧ c = ce
      (settleLatches s.pkg n) n ∧ c.ls.next + 1 = 64 * count ∧ 640 ≤ c.ls.bufBits) ∧
    (∃ (s : State) (n : Nat) (first : Nat) (count : Nat), lsAt s.pkg n (4 * 2 ^ 28 + first * 2 ^ 20 + (count - 1) * 2 ^
      14) = true ∧ slotsOk s.pkg n first count = true) ∧
    (∃ (s : State) (n : Nat) (port : Nat) (ex : Bool) (r : Nat) (mode : Nat), lsAt s.pkg n (5 * 2 ^ 28 + port * 2 ^ 26
      + bitNat ex * 2 ^ 25) = true ∧ port < 4 ∧ isProject (ceChart s.pkg n) = true ∧ mode = projectMode (ceChart s.pkg
      n) ∧ r = (ce s.pkg n).ls.rounds ∧ roundsOf (ceCmd s.pkg n) mode = r + 1 ∧ r ≤ (ce s.pkg n).round ∧ projectedPast
      s.pkg n r = true ∧ (ce s.pkg n).ls.next = 64 * (roundSlots (ceCmd s.pkg n) mode r).length ∧ (ce s.pkg
      n).ls.bufBits = 0) :=
  ⟨⟨stTLSCEAAC0, 799, by decide +kernel⟩,
    ⟨stTLSCEAAC1, 799, 8, 2, true, -128, by decide +kernel⟩,
    ⟨stTLSCEAAC2, 799, 3, 0, ce (settleLatches stTLSCEAAC2.pkg 799) 799, (gather false (genSeed (ceCmd stTLSCEAAC2.pkg
      799)) (fun k => (64 * 0 + k, 4096 * (ce (settleLatches stTLSCEAAC2.pkg 799) 799).ls.emits + (64 * 0 + k))) 64 129
      (ce (settleLatches stTLSCEAAC2.pkg 799) 799)).2, by decide +kernel, by decide +kernel, by decide +kernel, rfl, by
      decide +kernel, by decide +kernel, by decide +kernel, by decide +kernel, by decide +kernel, rfl⟩,
    ⟨stTLSCEAAC3, 799, 3, 62, 2, ce (settleLatches stTLSCEAAC3.pkg 799) 799, by decide +kernel, by decide +kernel, by
      decide +kernel, rfl, by decide +kernel⟩,
    ⟨stTLSCEAAC4, 799, 1, 63, by decide +kernel⟩,
    ⟨stTLSCEAAC5, 799, 3, true, 0, 0, by decide +kernel⟩⟩

def stCLACA0 : State := make [engine 799 [] [] [] id id, up (pgCe 799) 2]
def stCLACA2 : State := make [up (pgCe 799) 2, put (pgCe 799) 0x11C 3]
def stCLACA4 : State := (loading imageNat).onPkg (fun p => setCe p 3 { ce p 3 with cmd := some 9 })

theorem test_witness_ChartsLoadAndCommandsAbort :
    (∃ (s : State) (rq : Requester) (n : Nat) (id : Nat) (v : W32), ceOk n = true ∧ writeFate s.pkg rq (pgCe n) 0x114 =
      .accepted ∧ bitOf (v.setWidth 64 : W64) 0 = true ∧ (ce s.pkg n).cmd = some id ∧ (cmd s.pkg id).phase = .running) ∧
    (∃ (s : State) (n : Nat) (id : Nat) (cause : Nat), ceOk n = true ∧ cause ≠ 0 ∧ (ce s.pkg n).cmd = some id ∧ (cmd
      s.pkg id).phase = .running) ∧
    (∃ (s : State) (rq : Requester) (n : Nat) (j : Nat) (i : Nat) (v : W64), ceOk n = true ∧ j < 16 ∧ writeFate s.pkg
      rq (pgCe n) (0x200 + 8 * j) = .accepted ∧ i = fld s.pkg (key (pgCe n) 0x11C) 1 0) ∧
    (∃ (s : State) (n : Nat) (i : Nat) (e : Slot) (b : List Nat), ceOk n = true ∧ i < 4 ∧ e = slot (ce s.pkg n) i ∧
      e.state = 1 ∧ hasCmd s.pkg e.forCmd = true ∧ dOpcode (cmd s.pkg e.forCmd).desc = 2 ∧ b = bytesAt s.mem e.pages
      e.va (max 64 (min (leAt (bytesAt s.mem e.pages e.va 64) 4 4) 65536)) ∧ poisonAt s.mem e.pages e.va b.length =
      false ∧ chartStatus b = (0, 0)) ∧
    (∃ (s : State) (n : Nat) (i : Nat) (e : Slot) (b : List Nat), ceOk n = true ∧ i < 4 ∧ e = slot (ce s.pkg n) i ∧
      e.state = 1 ∧ hasCmd s.pkg e.forCmd = true ∧ dOpcode (cmd s.pkg e.forCmd).desc = 2 ∧ b = bytesAt s.mem e.pages
      e.va (max 64 (min (leAt (bytesAt s.mem e.pages e.va 64) 4 4) 65536)) ∧ poisonAt s.mem e.pages e.va b.length =
      false ∧ (chartStatus b).1 ≠ 0 ∧ (ce s.pkg n).cmd = some e.forCmd ∧ (cmd s.pkg e.forCmd).phase = .running) :=
  ⟨⟨stCLACA0, .kernel, 799, 9, 1, by decide +kernel⟩,
    ⟨stCLACA0, 799, 9, 1, by decide +kernel⟩,
    ⟨stCLACA2, .kernel, 799, 15, 3, 77, by decide +kernel⟩,
    ⟨loading imageSealed, 3, 1, slot (ce (loading imageSealed).pkg 3) 1, bytesAt (loading imageSealed).mem (slot (ce
      (loading imageSealed).pkg 3) 1).pages (slot (ce (loading imageSealed).pkg 3) 1).va (max 64 (min (leAt (bytesAt
      (loading imageSealed).mem (slot (ce (loading imageSealed).pkg 3) 1).pages (slot (ce (loading imageSealed).pkg 3)
      1).va 64) 4 4) 65536)), by decide +kernel, by decide +kernel, rfl, by decide +kernel, by decide +kernel, by
      decide +kernel, rfl, by decide +kernel⟩,
    ⟨stCLACA4, 3, 1, slot (ce stCLACA4.pkg 3) 1, bytesAt stCLACA4.mem (slot (ce stCLACA4.pkg 3) 1).pages (slot (ce
      stCLACA4.pkg 3) 1).va (max 64 (min (leAt (bytesAt stCLACA4.mem (slot (ce stCLACA4.pkg 3) 1).pages (slot (ce
      stCLACA4.pkg 3) 1).va 64) 4 4) 65536)), by decide +kernel, by decide +kernel, rfl, by decide +kernel, by
      decide +kernel, by decide +kernel, rfl, by decide +kernel⟩⟩

def stDAFMC0 : State := make [put pgQm 8 0x201, put (pgQm + 32) 8 0x200, atKey (ringCfg 15 63) 0x80100000, atKey (ringStatus
  15 63) 5]
def stDAFMC1 : State := make [put pgQm 8 0x201, put (pgQm + 32) 8 0x200, atKey (ringCfg 15 63) 0x80060000, atKey (ringStatus
  15 63) 5]

theorem test_witness_DoorbellsAndFetchesMakeCommands :
    (∃ (s : State) (rq : Requester) (ctx : Nat) (ring : Nat) (n : Nat) (v : W32), ringOk ctx ring = true ∧ writeFate
      s.pkg rq (pgQm + 17 + ctx) (0x100 + 4 * ring) = .accepted ∧ n = bitsOf (v.setWidth 64 : W64) 15 0 ∧ n ≠ 0 ∧ (rq ≠
      .host ∨ writesHeld s.pkg = false) ∧ ((ringTail s.pkg ctx ring + 65536 - ringHead s.pkg ctx ring) % 65536 + n) %
      65536 ≤ depthOf (ringLog s.pkg ctx ring)) ∧
    (∃ (s : State) (rq : Requester) (ctx : Nat) (ring : Nat) (n : Nat) (v : W32), ringOk ctx ring = true ∧ writeFate
      s.pkg rq (pgQm + 17 + ctx) (0x100 + 4 * ring) = .accepted ∧ n = bitsOf (v.setWidth 64 : W64) 15 0 ∧ n ≠ 0 ∧ (rq ≠
      .host ∨ writesHeld s.pkg = false) ∧ depthOf (ringLog s.pkg ctx ring) < ((ringTail s.pkg ctx ring + 65536 -
      ringHead s.pkg ctx ring) % 65536 + n) % 65536) ∧
    (∃ (s : State) (ctx : Nat) (ring : Nat) (v : W32), writesHeld s.pkg = true) ∧
    (∃ (s : State) (ctx : Nat) (ring : Nat) (x : Xlate) (m : Memory) (q : Pkg) (q1 : Pkg) (v : Nat), mayFetch s.pkg ctx
      ring = true ∧ pageOf s.pkg s.mem ctx 0 (ringClass s.pkg ctx ring) false (headVa s.pkg ctx ring) = (.ok x, m, q) ∧
      qmRead q m (x.addr (headVa s.pkg ctx ring)) 128 (ringClass s.pkg ctx ring) = (.bytes v, q1)) ∧
    (∃ (s : State) (ctx : Nat) (ring : Nat), mayFetch s.pkg ctx ring = false) :=
  ⟨⟨stDAFMC0, .kernel, 15, 63, 65530, 65530, by decide +kernel⟩,
    ⟨stDAFMC1, .kernel, 15, 63, 60, 60, by decide +kernel⟩,
    ⟨(make [put pgHl 0x100 0x80000000, fun p => { p with hl := { p.hl with held := [.doorbell .host 2 1 1] } }]), 2,
      1, 1, by decide +kernel⟩,
    ⟨fetching, 2, 1, ⟨7, 1, 2 ^ 40 + 7, false, true, false, 0, 0, 0, false, false, 0, 0⟩, fetching.mem, (pageOf
      fetching.pkg fetching.mem 2 0 (ringClass fetching.pkg 2 1) false (headVa fetching.pkg 2 1)).2.2, (qmRead ((pageOf
      fetching.pkg fetching.mem 2 0 (ringClass fetching.pkg 2 1) false (headVa fetching.pkg 2 1)).2.2) fetching.mem (2 ^
      52 + 0x7000) 128 0).2, 0x100, by decide +kernel⟩,
    ⟨make [], 2, 1, by decide +kernel⟩⟩

def stCAADAP0 : State := make [ringed (dsc 0 0) (fun c => { c with phase := .translating })]
def stCAADAP1 : State := make [ringed (dsc 4 onCe0) (fun x => x), up 0x1000 2]
def stCAADAP2 : State := make [ringed (dsc 4 onCe0) (fun x => x), put pgQm 0x118 1, fun p =>
  { p with
    ces := [(0, { Ce.empty with cmd := some 7 })], qm := { p.qm with
      cmds := (7, { noCmd with desc := dsc 2 (2 * 2 ^ 16), phase := .running }) :: p.qm.cmds } }]
def stCAADAP3 : State :=
  { make [ringed (dsc 3 onCe0) (fun c => { c with phase := .preempted, fold := some 0 }), up 0x1000 2, put pgQm 0x118 1] with
    mem := mem 0 1024 (3 * 2 ^ 128) }
def stCAADAP4 : State := make [ringed (dsc 2 (2 * 2 ^ 16)) (fun c => { c with waitSince := 1, ageFrom := 1 }), put pgQm 0x120
  5000]
def stCAADAP5 : State := make [ringed (dsc 1 (onCe0 + 5 * 2 ^ 128 + opr 0 0x1000 1)) (fun c => { c with
  phase := .translating }), put pgHl 0x100 0x80000000,
  put (pgXl + 3) 0x100 1, atKey ctsControl 1, fun p => { p with xl := { p.xl with atc := [⟨0, 1, 1, true⟩] } }]

theorem test_witness_CommandsAreAcceptedDispatchedAndPreempted :
    (∃ (s : State) (id : Nat) (a : TrAcc), a = trCmd s.pkg s.mem id ∧ hasCmd s.pkg id = true ∧ (cmd s.pkg id).phase =
      .translating ∧ s.pkg.ces.any (fun x => x.2.cmd == some id) = false ∧ waitsResume s.pkg id = false ∧
      earlierTranslating s.pkg id = false ∧ (spill s.pkg (cmd s.pkg id).ctx (cmd s.pkg id).ring).tail.length < 16 ∧
      a.fault = none ∧ a.waits = false ∧ a.pages = [] ∧ moveReason (cmd a.pkg id) [] = none) ∧
    (∃ (s : State) (id : Nat) (a : TrAcc) (es : List Nat), a = trCmd s.pkg s.mem id ∧ hasCmd s.pkg id = true ∧ (cmd
      s.pkg id).phase = .translating ∧ s.pkg.ces.any (fun x => x.2.cmd == some id) = false ∧ waitsResume s.pkg id =
      false ∧ earlierTranslating s.pkg id = false ∧ (spill s.pkg (cmd s.pkg id).ctx (cmd s.pkg id).ring).tail.length <
      16 ∧ a.fault = none ∧ a.waits = false ∧ a.pages ≠ [] ∧ moveReason (cmd a.pkg id) a.pages = none ∧ moveInInset
      a.pkg (cmd a.pkg id) a.pages = false ∧ waitTargetOk (cmd a.pkg id) a.pages = true ∧ bit a.pkg ctsControl 0 = true
      ∧ (ctsUsed a.pkg).length + a.pages.length ≤ ctsSize a.pkg ∧ es = freeEntries (ctsUsed a.pkg) a.pages.length 0
      ((ctsUsed a.pkg).length + a.pages.length)) ∧
    (∃ (s : State) (id : Nat) (n : Nat), nextDispatch s.pkg = some (id, n) ∧ (dOpcode (cmd s.pkg id).desc = 2 →
      (neededCrc s.pkg (cmd s.pkg id)).isSome = true)) ∧
    (∃ (s : State) (id : Nat) (n : Nat), hasCmd s.pkg id = true ∧ needsCe (cmd s.pkg id) = true ∧ dPrio (cmd s.pkg
      id).desc = 0 ∧ mayStart s.pkg id = true ∧ preemptOpen s.pkg (cmd s.pkg id) = false ∧ pickCe s.pkg id (fun _ =>
      true) = none ∧ bit s.pkg foldArea 0 = true ∧ victimOf s.pkg (dPlace (cmd s.pkg id).desc) 2 = some n) ∧
    (∃ (s : State) (id : Nat) (n : Nat) (i : Nat), hasCmd s.pkg id = true ∧ (cmd s.pkg id).phase = .preempted ∧ (cmd
      s.pkg id).stale = false ∧ dOpcode (cmd s.pkg id).desc = 3 ∧ ready s.pkg pgQm = true ∧ dispatchHeld s.pkg = false ∧
      pickCe s.pkg id (fun n => !wantedAbove s.pkg (servedClass (cmd s.pkg id)) n) = some n ∧ (cmd s.pkg id).fold = some
      i) ∧
    (∃ (s : State) (ctx : Nat) (ring : Nat) (id : Nat), ringNext s.pkg ctx ring = some id ∧ ringOk ctx ring = true ∧
      hasCmd s.pkg id = true ∧ fld s.pkg (key pgQm 0x120) 15 0 ≠ 0 ∧ dPrio (cmd s.pkg id).desc = 2 ∧ (cmd s.pkg
      id).phase = .waiting ∧ (cmd s.pkg id).ageFrom ≠ 0 ∧ (cmd s.pkg id).ageFrom - 1 + 1000000 * fld s.pkg (key pgQm
      0x120) 15 0 ≤ timerNow s.pkg) :=
  ⟨⟨stCAADAP0, 9, trCmd stCAADAP0.pkg stCAADAP0.mem 9, rfl, by decide +kernel⟩,
    ⟨stCAADAP5, 9, trCmd stCAADAP5.pkg stCAADAP5.mem 9, freeEntries (ctsUsed (trCmd stCAADAP5.pkg stCAADAP5.mem
      9).pkg) (trCmd stCAADAP5.pkg stCAADAP5.mem 9).pages.length 0 ((ctsUsed (trCmd stCAADAP5.pkg stCAADAP5.mem
      9).pkg).length + (trCmd stCAADAP5.pkg stCAADAP5.mem 9).pages.length), rfl, by decide +kernel, by decide +kernel,
      by decide +kernel, by decide +kernel, by decide +kernel, by decide +kernel, by decide +kernel, by decide +kernel,
      by decide +kernel, by decide +kernel, by decide +kernel, by decide +kernel, by decide +kernel, by decide +kernel,
      rfl⟩,
    ⟨stCAADAP1, 9, 0, by decide +kernel⟩,
    ⟨stCAADAP2, 9, 0, by decide +kernel⟩,
    ⟨stCAADAP3, 9, 0, 0, by decide +kernel⟩,
    ⟨stCAADAP4, 2, 1, 9, by decide +kernel⟩⟩

def stRCAAR0 : State :=
  { make [ringed (dsc 0 0) (fun c => { c with phase := .finished }), put pgHl 0x100 0x80000000, put (pgXl + 3) 0x100 1, atKey
    (ringKey 2 1 8) 0x8000, fun p => { p with xl := { p.xl with atc := [⟨0, 8, 8, true⟩] } }] with
      mem := mem (2 ^ 52 + 0x8000) 32 0 }
def stRCAAR1 : State := make [up pgQm 2, put (pgQm + 16) 8 0x200, atKey (ringStatus 15 63) 0x00020005]
def stRCAAR2 : State := make [put (pgQm + 3) 8 0x200, ringed (dsc 0 0) (fun x => x)]
def stRCAAR3 : State := make [up pgQm 2, put (pgQm + 16) 8 0x200, atKey (ringCfg 15 63) 0x0C000000]
def stRCAAR4 : State := make [up pgQm 2, put (pgQm + 16) 8 0x200]
def stRCAAR5 : State := make [up pgQm 2, put (pgQm + 16) 8 0x200, atKey (cqKey 15 63) 0x00020000]

theorem test_witness_RingsCompleteAbortAndRestart :
    (∃ (s : State) (id : Nat) (x : Xlate) (m : Memory) (q : Pkg) (va : Nat), hasCmd s.pkg id = true ∧ (cmd s.pkg
      id).phase = .finished ∧ ready s.pkg pgQm = true ∧ va = cqVa s.pkg (cmd s.pkg id).ctx (cmd s.pkg id).ring ∧ pageOf
      s.pkg s.mem (cmd s.pkg id).ctx 1 (ringClass s.pkg (cmd s.pkg id).ctx (cmd s.pkg id).ring) true va = (.ok x, m, q)
      ∧ fateFor q (idRing 0 0) (x.addr va) false = .served ∧ s.pkg.ces.any (fun y => y.2.cmd == some id) = false ∧
      recordHeld q (x.addr va) = false) ∧
    (∃ (s : State) (rq : Requester) (ctx : Nat) (ring : Nat) (v : W32), ringOk ctx ring = true ∧ writeFate s.pkg rq
      (ringPage ctx) (ringOff ring 0x28) = .accepted ∧ bitsOf (v.setWidth 64 : W64) 1 0 = 1 ∧ ringCmds s.pkg ctx ring =
      []) ∧
    (∃ (s : State) (rq : Requester) (ctx : Nat) (ring : Nat) (id : Nat) (c : Cmd) (v : W32), ringOk ctx ring = true ∧
      writeFate s.pkg rq (ringPage ctx) (ringOff ring 0x28) = .accepted ∧ bitsOf (v.setWidth 64 : W64) 1 0 = 1 ∧
      ringCmds s.pkg ctx ring = [(id, c)] ∧ cmd s.pkg id = c ∧ c.phase = .waiting) ∧
    (∃ (s : State) (rq : Requester) (ctx : Nat) (ring : Nat) (v : W32), ringOk ctx ring = true ∧ writeFate s.pkg rq
      (ringPage ctx) (ringOff ring 0x28) = .accepted ∧ bitsOf (v.setWidth 64 : W64) 1 0 = 2) ∧
    (∃ (s : State) (rq : Requester) (ctx : Nat) (ring : Nat) (v : W32) (w : W64), ringOk ctx ring = true ∧ writeFate
      s.pkg rq (ringPage ctx) (ringOff ring 0x18) = .accepted ∧ bit s.pkg (ringCfg ctx ring) 31 = false ∧ w = mergeWrite
      (rw4 0x158 (msk 31 28 + msk 20 16 + msk 12 8)) (reg s.pkg (ringCfg ctx ring)) (v.setWidth 64) ∧ bitsOf w 29 28 ≠ 3
      ∧ 4 ≤ bitsOf w 20 16 ∧ bitsOf w 20 16 ≤ 16 ∧ 4 ≤ bitsOf w 12 8 ∧ bitsOf w 12 8 ≤ 16) ∧
    (∃ (s : State) (rq : Requester) (ctx : Nat) (ring : Nat) (old : Nat) (new : Nat) (v : W32), ringOk ctx ring = true
      ∧ writeFate s.pkg rq (ringPage ctx) (ringOff ring 0x20) = .accepted ∧ old = fld s.pkg (cqKey ctx ring) 15 0 ∧ new
      = bitsOf (v.setWidth 64 : W64) 15 0) :=
  ⟨⟨stRCAAR0, 9, ⟨8, 1, 2 ^ 40 + 8, true, true, false, 0, 0, 0, false, false, 0, 0⟩, stRCAAR0.mem, (pageOf
      stRCAAR0.pkg stRCAAR0.mem 2 1 (ringClass stRCAAR0.pkg 2 1) true 0x8000).2.2, 0x8000, by decide +kernel⟩,
    ⟨stRCAAR1, .kernel, 15, 63, 1, by decide +kernel⟩,
    ⟨stRCAAR2, .kernel, 2, 1, 9, ({ noCmd with desc := dsc 0 0, ctx := 2, ring := 1, phase := .waiting }), 1, by
      decide +kernel⟩,
    ⟨stRCAAR3, .kernel, 15, 63, 2, by decide +kernel⟩,
    ⟨stRCAAR4, .kernel, 15, 63, 0xA0101000, mergeWrite (rw4 0x158 (msk 31 28 + msk 20 16 + msk 12 8)) (reg
      stRCAAR4.pkg (ringCfg 15 63)) 0xA0101000, by decide +kernel⟩,
    ⟨stRCAAR5, .kernel, 15, 63, 0, 2, 2, by decide +kernel⟩⟩

def stNCLARS1 : State :=
  { make [ringed (dsc 1 (onCe0 + 5 * 2 ^ 128 + opr 0 0x1000 2)) (fun c => { c with pages := [pageK 0 1] }), up 0x1000 2] with
    mem := mem 0x1000 128 imageSealed }
def stNCLARS2 : State := make [ringed (dsc 2 (onCe0 + 5 * 2 ^ 128)) (fun c => { c with phase := .running, ces := [0] }), fun
  p => { p with
    ces := [(0, { Ce.empty with
      cmd := some 9, slots := [(2, { Slot.empty with
        handle := 5, state := 2, current := true, chart := { noChart with crc := 77 } })] })], qm := { p.qm with
          dirs := [(2, [⟨5, 0x1000, [], 77, 0⟩])] } }]

theorem test_witness_NopsChartLoadsAndRunsStart :
    (∃ (s : State) (id : Nat), opIs s.pkg id 0 = true ∧ mayStart s.pkg id = true) ∧
    (∃ (s : State) (id : Nat) (n : Nat) (j : Nat) (c : Cmd) (pages : List Xlate) (l : List DirEnt), c = cmd s.pkg id ∧
      opIs s.pkg id 1 = true ∧ mayStart s.pkg id = true ∧ pages = (c.pages.filter (fun x => x.1 == 0)).map (·.2) ∧
      poisonAt s.mem pages (dOperand c.desc 0).addr 64 = false ∧ leAt (bytesAt s.mem pages (dOperand c.desc 0).addr 64)
      4 4 ≤ (dOperand c.desc 0).extent ∧ dirFind s.pkg c.ctx (dHandle c.desc) = none ∧ dirAccept s.pkg c.ctx id ⟨dHandle
      c.desc, (dOperand c.desc 0).addr, pages, leAt (bytesAt s.mem pages (dOperand c.desc 0).addr 64) 60 4,
      s.pkg.qm.nextOrder⟩ = some l ∧ scopeCes s.pkg (dPlace c.desc) = [n] ∧ currentSlot (ce s.pkg n) (dHandle c.desc) =
      none ∧ (List.range 4).any (fun i => (slot (ce s.pkg n) i).state == 1) = false ∧ loadSlot s.pkg n = some j) ∧
    (∃ (s : State) (id : Nat) (n : Nat) (i : Nat) (rest : List Nat) (c : Cmd), c = cmd s.pkg id ∧ opIs s.pkg id 2 =
      true ∧ c.phase = .running ∧ c.ces = n :: rest ∧ c.fold = none ∧ loadingFor s.pkg id n = false ∧ (ce s.pkg
      n).loadOwed = false ∧ currentSlot (ce s.pkg n) (dHandle c.desc) = some i ∧ (ce s.pkg n).cmd = some id ∧ (slot (ce
      s.pkg n) (activeSlot s.pkg n)).state ≠ 3 ∧ runReason c (slot (ce s.pkg n) i).chart = 0) :=
  ⟨⟨make [ringed (dsc 0 0) (fun x => x)], 9, by decide +kernel⟩,
    ⟨stNCLARS1, 9, 0, 0, cmd stNCLARS1.pkg 9, ((cmd stNCLARS1.pkg 9).pages.filter (fun x => x.1 == 0)).map (·.2),
      (dirAccept stNCLARS1.pkg 2 9 ⟨5, 0x1000, [(pageK 0 1).2], leAt (bytesAt stNCLARS1.mem [(pageK 0 1).2] 0x1000 64)
      60 4, 0⟩).getD [], rfl, by decide +kernel, by decide +kernel, rfl, by decide +kernel⟩,
    ⟨stNCLARS2, 9, 0, 2, [], cmd stNCLARS2.pkg 9, rfl, by decide +kernel⟩⟩

def stMARA0 : State := make [engine 0 [] [] [] (fun c => { c with arrived := [(0, ⟨0x40, 5, false, 0⟩)] }) (fun c =>
  { c with
    desc := dsc 3 (opr 0 0x1000 1 + opr 1 0x2000 1 + 2 ^ 256 + 0 * 2 ^ 272), pages := [pageK 0 1, pageK 1 2], progress := 0 })]
def stMARA1 : State := make [engine 0 [] [] [] (fun c => { c with arrived := [(0, ⟨0x40, 5, false, 0⟩)] }) (fun c =>
  { c with
    desc := dsc 3 (opr 0 0x1000 1 + opr 1 0x2000 1 + 2 ^ 256 + 1 * 2 ^ 272), pages := [pageK 0 1, pageK 1 2], progress := 0 })]
def stMARA2 : State :=
  { make [engine 0 [] [] [] (fun x => x) (fun c => { c with
    desc := dsc 3 (opr 0 0x1000 1 + opr 1 0x2000 1 + 2 ^ 256 + 2 ^ 272), pages := [(0, { (pageK 0 1).2 with
      pte := 0x3000, pteVal := 0x400 }), pageK 1 2], progress := 1 })] with mem := mem 0x3000 8 0x400 }
def pageH (i k : Nat) : Nat × Xlate := (i, { (pageK i k).2 with pa := 0x100000000 + k })
/-- CE 0 runs a reduction of two records with this ALGO, whose results go to operand `out`. -/
def reducing (out algo : Nat) : State :=
  { make [up (pgHbm (hbmStack 0 0x1000)) 2, up (pgHbm (hbmStack 0 0x2000)) 2, engine 0 [] [] [] (fun x => x) (fun c => { c
    with desc := dsc 4 (opr 0 0x1000 2 + opr out 0x2000 2 + 1 * 2 ^ 256 + 2 ^ 288 + 15 * 2 ^ 296 + algo * 2 ^ 320), pages := [pageH 0 1, pageH out 2], collPhase := 1 })] with mem := ⟨cellsOf 0x100000001000 128 7 (cellsOf 0x100000002000 128 0 []), [], []⟩ }
def stMARA3 : State := reducing 5 0
def stMARA4 : State := reducing 3 1
def stMARA5 : State := reducing 3 2

theorem test_witness_MovesAndReductionsAdvance :
    (∃ (s : State) (id : Nat) (n : Nat) (k : Nat) (rest : List Nat) (c : Cmd) (x : Xlate) (y : Xlate) (a : Nat × CLine)
      (m : Mover) (mode : Nat) (l : PLine), c = cmd s.pkg id ∧ opIs s.pkg id 3 = true ∧ dField c.desc 34 1 = mode ∧ mode
      < 2 ∧ c.phase = .running ∧ c.ces = n :: rest ∧ (ce s.pkg n).cmd = some id ∧ ceLive s.pkg n = true ∧ k = c.progress
      ∧ moveLines c = k + 1 ∧ (k + 1) % 1024 ≠ 0 ∧ cmdXlate c 0 (moveVa c 0 k) = some x ∧ cmdXlate c 1 (moveVa c 1 k) =
      some y ∧ y.writable = true ∧ (ce s.pkg n).arrived.find? (fun z => z.1 == k % 2 && z.2.line == x.addr (moveVa c 0
      k) / 64) = some a ∧ a.2.poison = false ∧ m = mover (ce s.pkg n) (2 + k % 2) ∧ l = ⟨y.addr (moveVa c 1 k),
      a.2.data, false, (dOperand c.desc 1).slm == 2, n, 2 + k % 2, false, false⟩ ∧ mode = 0) ∧
    (∃ (s : State) (id : Nat) (n : Nat) (k : Nat) (rest : List Nat) (c : Cmd) (x : Xlate) (y : Xlate) (a : Nat × CLine)
      (m : Mover) (mode : Nat) (l : PLine), c = cmd s.pkg id ∧ opIs s.pkg id 3 = true ∧ dField c.desc 34 1 = mode ∧ mode
      < 2 ∧ c.phase = .running ∧ c.ces = n :: rest ∧ (ce s.pkg n).cmd = some id ∧ ceLive s.pkg n = true ∧ k = c.progress
      ∧ moveLines c = k + 1 ∧ (k + 1) % 1024 ≠ 0 ∧ cmdXlate c 0 (moveVa c 0 k) = some x ∧ cmdXlate c 1 (moveVa c 1 k) =
      some y ∧ y.writable = true ∧ (ce s.pkg n).arrived.find? (fun z => z.1 == k % 2 && z.2.line == x.addr (moveVa c 0
      k) / 64) = some a ∧ a.2.poison = false ∧ m = mover (ce s.pkg n) (2 + k % 2) ∧ l = ⟨y.addr (moveVa c 1 k),
      a.2.data, false, (dOperand c.desc 1).slm == 2, n, 2 + k % 2, false, false⟩ ∧ mode = 1) ∧
    (∃ (s : State) (id : Nat) (n : Nat) (rest : List Nat) (c : Cmd) (m : Memory) (q : Pkg), c = cmd s.pkg id ∧ opIs
      s.pkg id 3 = true ∧ dField c.desc 34 1 = 1 ∧ c.phase = .running ∧ c.ces = n :: rest ∧ (ce s.pkg n).cmd = some id ∧
      ceLive s.pkg n = true ∧ moveDone s.pkg id n = true ∧ c.status ≠ 0x10 ∧ (switchPairs c).any (fun z => fateFor s.pkg
      (idRing 0 0) z.1.pte false == .waits) = false ∧ (switchPairs c).any (fun z => hostHolds s.pkg z.1.pte) = false ∧
      switchEntries (switchPairs c) s.mem s.pkg = (true, m, q)) ∧
    (∃ (s : State) (id : Nat) (n : Nat) (k : Nat) (v : Nat) (c : Cmd) (q : Pkg) (ls : List PLine) (w : Part), c = cmd
      s.pkg id ∧ opIs s.pkg id 4 = true ∧ c.phase = .running ∧ ceOf s.pkg id = some n ∧ ceLive s.pkg n = true ∧
      packetsDone s.pkg n = true ∧ w = (if reduceAlgo c.desc = 0 then localPart c else collPart s.pkg c) ∧ (reduceAlgo
      c.desc ≠ 0 → c.collPhase ≠ 0) ∧ k = w.count - c.progress ∧ c.progress < w.count ∧ c.progress % 4096 + k < 4096 ∧
      farLines s.pkg c w (w.first + c.progress) k = [] ∧ partOut s.pkg s.mem c false w (w.first + c.progress) k = (some
      (v, none), q) ∧ batchPackets s.mem c n w ((w.first + c.progress) * partBits c w) (k * partBits c w) v = some ls ∧
      ls ≠ [] ∧ reduceAlgo c.desc = 0) ∧
    (∃ (s : State) (id : Nat) (n : Nat) (k : Nat) (v : Nat) (c : Cmd) (q : Pkg) (ls : List PLine) (w : Part), c = cmd
      s.pkg id ∧ opIs s.pkg id 4 = true ∧ c.phase = .running ∧ ceOf s.pkg id = some n ∧ ceLive s.pkg n = true ∧
      packetsDone s.pkg n = true ∧ w = (if reduceAlgo c.desc = 0 then localPart c else collPart s.pkg c) ∧ (reduceAlgo
      c.desc ≠ 0 → c.collPhase ≠ 0) ∧ k = w.count - c.progress ∧ c.progress < w.count ∧ c.progress % 4096 + k < 4096 ∧
      farLines s.pkg c w (w.first + c.progress) k = [] ∧ partOut s.pkg s.mem c false w (w.first + c.progress) k = (some
      (v, none), q) ∧ batchPackets s.mem c n w ((w.first + c.progress) * partBits c w) (k * partBits c w) v = some ls ∧
      ls ≠ [] ∧ reduceAlgo c.desc = 1) ∧
    (∃ (s : State) (id : Nat) (n : Nat) (k : Nat) (v : Nat) (c : Cmd) (q : Pkg) (ls : List PLine) (w : Part), c = cmd
      s.pkg id ∧ opIs s.pkg id 4 = true ∧ c.phase = .running ∧ ceOf s.pkg id = some n ∧ ceLive s.pkg n = true ∧
      packetsDone s.pkg n = true ∧ w = (if reduceAlgo c.desc = 0 then localPart c else collPart s.pkg c) ∧ (reduceAlgo
      c.desc ≠ 0 → c.collPhase ≠ 0) ∧ k = w.count - c.progress ∧ c.progress < w.count ∧ c.progress % 4096 + k < 4096 ∧
      farLines s.pkg c w (w.first + c.progress) k = [] ∧ partOut s.pkg s.mem c false w (w.first + c.progress) k = (some
      (v, none), q) ∧ batchPackets s.mem c n w ((w.first + c.progress) * partBits c w) (k * partBits c w) v = some ls ∧
      ls ≠ [] ∧ reduceAlgo c.desc = 2) :=
  ⟨⟨stMARA0, 9, 0, 0, [], cmd stMARA0.pkg 9, (pageK 0 1).2, (pageK 1 2).2, (0, ⟨0x40, 5, false, 0⟩), Mover.empty, 0,
      ⟨0x2000, 5, false, false, 0, 2, false, false⟩, rfl, by decide +kernel⟩,
    ⟨stMARA1, 9, 0, 0, [], cmd stMARA1.pkg 9, (pageK 0 1).2, (pageK 1 2).2, (0, ⟨0x40, 5, false, 0⟩), Mover.empty, 1,
      ⟨0x2000, 5, false, false, 0, 2, false, false⟩, rfl, by decide +kernel⟩,
    ⟨stMARA2, 9, 0, [], cmd stMARA2.pkg 9, (switchEntries (switchPairs (cmd stMARA2.pkg 9)) stMARA2.mem
      stMARA2.pkg).2.1, (switchEntries (switchPairs (cmd stMARA2.pkg 9)) stMARA2.mem stMARA2.pkg).2.2, rfl, by
      decide +kernel⟩,
    ⟨stMARA3, 9, 0, 1, 7, cmd stMARA3.pkg 9, (partOut stMARA3.pkg stMARA3.mem (cmd stMARA3.pkg 9) false (localPart
      (cmd stMARA3.pkg 9)) ((localPart (cmd stMARA3.pkg 9)).first + (cmd stMARA3.pkg 9).progress) 1).2,
      [⟨0x100000002000, 7, false, false, 0, 2, false, false⟩, ⟨0x100000002040, 0, false, false, 0, 2, false, false⟩],
      localPart (cmd stMARA3.pkg 9), rfl, by decide +kernel, by decide +kernel, by decide +kernel, by decide +kernel, by
      decide +kernel, by decide +kernel, by decide +kernel, by decide +kernel, by decide +kernel, by decide +kernel, by
      decide +kernel, pair_of_fst _ _ (by decide +kernel), by decide +kernel⟩,
    ⟨stMARA4, 9, 0, 1, 7, cmd stMARA4.pkg 9, (partOut stMARA4.pkg stMARA4.mem (cmd stMARA4.pkg 9) false (collPart
      stMARA4.pkg (cmd stMARA4.pkg 9)) ((collPart stMARA4.pkg (cmd stMARA4.pkg 9)).first + (cmd stMARA4.pkg 9).progress)
      1).2, [⟨0x100000002000, 7, false, false, 0, 2, false, false⟩, ⟨0x100000002040, 0, false, false, 0, 2, false,
      false⟩], collPart stMARA4.pkg (cmd stMARA4.pkg 9), rfl, by decide +kernel, by decide +kernel, by decide +kernel,
      by decide +kernel, by decide +kernel, by decide +kernel, by decide +kernel, by decide +kernel, by decide +kernel,
      by decide +kernel, by decide +kernel, pair_of_fst _ _ (by decide +kernel), by decide +kernel⟩,
    ⟨stMARA5, 9, 0, 1, 7, cmd stMARA5.pkg 9, (partOut stMARA5.pkg stMARA5.mem (cmd stMARA5.pkg 9) false (collPart
      stMARA5.pkg (cmd stMARA5.pkg 9)) ((collPart stMARA5.pkg (cmd stMARA5.pkg 9)).first + (cmd stMARA5.pkg 9).progress)
      1).2, [⟨0x100000002000, 7, false, false, 0, 2, false, false⟩, ⟨0x100000002040, 0, false, false, 0, 2, false,
      false⟩], collPart stMARA5.pkg (cmd stMARA5.pkg 9), rfl, by decide +kernel, by decide +kernel, by decide +kernel,
      by decide +kernel, by decide +kernel, by decide +kernel, by decide +kernel, by decide +kernel, by decide +kernel,
      by decide +kernel, by decide +kernel, pair_of_fst _ _ (by decide +kernel), by decide +kernel⟩⟩

def stSBAFC0 : State :=
  { make [ringed (dsc 5 (opr 0 0x1008 1 + 7 * 2 ^ 256)) (fun c =>
      { c with pages := [pageH 0 1], phase := .waiting, watching := true }),
      up (pgHbm 1) 2, fun p =>
      { p with paths := [0, 10, 11].map (fun k => (16 * pgMer 0 + k, { Path.initial 32 with limit := 32 })) }] with
    mem := mem 0x100000001008 8 0 }
def stSBAFC1 : State :=
  { make [ringed (dsc 6 (opr 0 0x1008 1 + 7 * 2 ^ 256)) (fun c => { c with
    pages := [(0, (pageK 0 1).2)], phase := .waiting, watching := true }), up (pgHbm 1) 2] with mem := mem 0x1008 8 7 }
def stSBAFC2 : State :=
  { make [ringed (dsc 6 (opr 0 0x1008 1 + 7 * 2 ^ 256)) (fun c => { c with
    pages := [(0, (pageK 0 1).2)], phase := .running, watching := true }), up (pgHbm 1) 2] with mem := mem 0x1008 8 8 }
def stSBAFC3 : State :=
  { make [ringed (dsc 6 (opr 0 0x1008 1 + 7 * 2 ^ 256)) (fun c => { c with
    pages := [(0, (pageK 0 1).2)], phase := .running, watching := false }), up (pgHbm 1) 2] with mem := mem 0x1008 8 7 }
def stSBAFC4 : State := make [ringed (dsc 7 (2 ^ 256)) (fun x => x)]
def stSBAFC5 : State := make [ringed (dsc 8 0) (fun x => x), fun p =>
  { p with qm := { p.qm with remoteFail := [(129, 3)] } }]
def stSBAFC6 : State := make [ringed (dsc 9 onCe0) (fun x => x), up 0x1000 2]

theorem test_witness_SemaphoresBarriersAndFencesComplete :
    (∃ (s : State) (u : State) (id : Nat) (pa : Nat) (st : Nat) (o : Nat) (x : Xlate), opIs s.pkg id 5 = true ∧
      mayStart s.pkg id = true ∧ semAddr (cmd s.pkg id) = some (x, pa) ∧ x.writable = true ∧ region pa = .hbm st o ∧
      atomAt pa (dField (cmd s.pkg id).desc 40 1) (semValue (cmd s.pkg id)) (idRing (cmd s.pkg id).ctx (cmd s.pkg
      id).ring) pgQm none s = (.done, u)) ∧
    (∃ (s : State) (id : Nat) (pa : Nat) (v : Nat) (x : Xlate) (q : Pkg), opIs s.pkg id 6 = true ∧ mayStart s.pkg id =
      true ∧ semAddr (cmd s.pkg id) = some (x, pa) ∧ qmRead s.pkg s.mem pa 8 (ringClass s.pkg (cmd s.pkg id).ctx (cmd
      s.pkg id).ring) = (.bytes v, q)) ∧
    (∃ (s : State) (id : Nat) (pa : Nat) (v : Nat) (x : Xlate) (q : Pkg), opIs s.pkg id 6 = true ∧ (cmd s.pkg id).phase
      = .running ∧ semAddr (cmd s.pkg id) = some (x, pa) ∧ qmRead s.pkg s.mem pa 8 (ringClass s.pkg (cmd s.pkg id).ctx
      (cmd s.pkg id).ring) = (.bytes v, q) ∧ semHolds (cmd s.pkg id) (BitVec.ofNat 64 v) = true ∧ (cmd s.pkg
      id).watching = true) ∧
    (∃ (s : State) (id : Nat) (pa : Nat) (v : Nat) (x : Xlate) (q : Pkg), opIs s.pkg id 6 = true ∧ (cmd s.pkg id).phase
      = .running ∧ semAddr (cmd s.pkg id) = some (x, pa) ∧ qmRead s.pkg s.mem pa 8 (ringClass s.pkg (cmd s.pkg id).ctx
      (cmd s.pkg id).ring) = (.bytes v, q) ∧ semHolds (cmd s.pkg id) (BitVec.ofNat 64 v) = true ∧ (cmd s.pkg
      id).watching = false) ∧
    (∃ (s : State) (id : Nat), opIs s.pkg id 7 = true ∧ mayStart s.pkg id = true ∧ earlierInRing s.pkg (cmd s.pkg id) =
      false ∧ (dField (cmd s.pkg id).desc 32 1 = 1 → earlierInCtx s.pkg id (cmd s.pkg id) = false)) ∧
    (∃ (s : State) (id : Nat) (c : Cmd), c = cmd s.pkg id ∧ opIs s.pkg id 8 = true ∧ mayStart s.pkg id = true ∧
      earlierInRing s.pkg c = false ∧ s.pkg.rt.acc.any (fun x => x.2.ring == ringId c.ctx c.ring && x.2.msg.op != 1) =
      false) ∧
    (∃ (s : State) (id : Nat), opIs s.pkg id 9 = true ∧ mayStart s.pkg id = true ∧ (∀ n ∈ scopeCes s.pkg (dPlace (cmd
      s.pkg id).desc), (ce s.pkg n).cmd = none)) :=
  ⟨⟨stSBAFC0, (atomAt 0x100000001008 (dField (cmd stSBAFC0.pkg 9).desc 40 1) (semValue (cmd stSBAFC0.pkg 9))
      (idRing (cmd stSBAFC0.pkg 9).ctx (cmd stSBAFC0.pkg 9).ring) pgQm none (stSBAFC0)).2, 9, 0x100000001008, 0,
      0x1008, ⟨1, 1, 0x100000001, true, false, false, 0, 0, 0, false, false, 0, 0⟩, by decide +kernel, by
      decide +kernel, by decide +kernel, by decide +kernel, by decide +kernel, pair_of_fst _ _ (by decide +kernel)⟩,
    ⟨stSBAFC1, 9, 0x1008, 7, ⟨1, 1, 1, true, false, false, 0, 0, 0, false, false, 0, 0⟩, (qmRead stSBAFC1.pkg
      stSBAFC1.mem 0x1008 8 0).2, by decide +kernel⟩,
    ⟨stSBAFC2, 9, 0x1008, 8, ⟨1, 1, 1, true, false, false, 0, 0, 0, false, false, 0, 0⟩, (qmRead stSBAFC2.pkg
      stSBAFC2.mem 0x1008 8 0).2, by decide +kernel⟩,
    ⟨stSBAFC3, 9, 0x1008, 7, ⟨1, 1, 1, true, false, false, 0, 0, 0, false, false, 0, 0⟩, (qmRead stSBAFC3.pkg
      stSBAFC3.mem 0x1008 8 0).2, by decide +kernel⟩,
    ⟨stSBAFC4, 9, by decide +kernel⟩,
    ⟨stSBAFC5, 9, cmd stSBAFC5.pkg 9, by decide +kernel⟩,
    ⟨stSBAFC6, 9, by decide +kernel⟩⟩

def ctlM : CoreCtl := ⟨[], 3, false⟩
def ctlU : CoreCtl := ⟨[], 1, false⟩
def stHLSAUM0 : State :=
  { make [put (pgCc 0) 0x100 1, fun p => { p with
    harts := [(0, { Hart.empty with pc := 0 })], home := { p.home with dir := [(0x40, ⟨some 0, [], 0⟩)] } }] with
      mem := mem 0x1000 8 0x80 }
def stHLSAUM1 : State := make [put (pgCc 0) 0x100 1, fun p =>
  { p with
    harts := [(0, { Hart.empty with sb := [⟨0x40, 255, 0x1122, false, false⟩] })], home := { p.home with
      dir := [(0x40, ⟨some 0, [], 0⟩)] } }]
def stHLSAUM3 : State := make [put (pgCc 0) 0x100 2, fun p => { p with harts := [(0, { Hart.empty with pc := 0 })] }]
def stHLSAUM7 : State :=
  { make [put (pgCc 0) 0x100 1, fun p => { p with
    harts := [(0, { Hart.empty with resv := some 0x40 })], home := { p.home with dir := [(0x40, ⟨some 0, [], 0⟩)] } }] with
      mem := mem 0x1000 8 0x80 }

theorem test_witness_HartsLoadStoreAndUpdateMemory :
    (∃ (s : State) (h : Nat) (pa : Nat) (size : Nat) (rd : Nat) (ctl : CoreCtl) (va : W64) (signed : Bool) (m : Memory)
      (q : Pkg), mayExecute s.pkg h = true ∧ sizeOk size = true ∧ size ≤ 8 - va.toNat % 8 ∧ cacheable pa = true ∧
      xlatePieces (accOf h ctl false) [(va.toNat, size, 0)] (executesWith s.pkg h ctl) s.mem = (.ok [⟨va.toNat, pa,
      size, 0, false⟩], m, q) ∧ newestOverlap (hart q h).sb pa size = none ∧ h ∈ (dirLine q (pa / 64)).harts ∧
      m.poisoned (pa / 64 * 64) 64 = false ∧ 0 < rd) ∧
    (∃ (s : State) (h : Nat) (pa : Nat) (size : Nat) (rd : Nat) (ctl : CoreCtl) (va : W64) (signed : Bool) (nc : Bool)
      (m : Memory) (q : Pkg) (e : StoreEnt), mayExecute s.pkg h = true ∧ sizeOk size = true ∧ size ≤ 8 - va.toNat % 8 ∧
      cacheable pa = true ∧ xlatePieces (accOf h ctl false) [(va.toNat, size, 0)] (executesWith s.pkg h ctl) s.mem =
      (.ok [⟨va.toNat, pa, size, 0, nc⟩], m, q) ∧ newestOverlap (hart q h).sb pa size = some e ∧ e.covers pa size = true
      ∧ 0 < rd) ∧
    (∃ (s : State) (h : Nat) (pa : Nat) (size : Nat) (ctl : CoreCtl) (va : W64) (value : W64) (nc : Bool) (m : Memory)
      (q : Pkg), mayExecute s.pkg h = true ∧ sizeOk size = true ∧ size ≤ 8 - va.toNat % 8 ∧ cacheable pa = true ∧
      xlatePieces (accOf h ctl true) [(va.toNat, size, 0)] (executesWith s.pkg h ctl) s.mem = (.ok [⟨va.toNat, pa, size,
      0, nc⟩], m, q) ∧ (hart q h).sb.length < 64) ∧
    (∃ (s : State) (h : Nat) (size : Nat) (rd : Nat) (cause : Nat) (ctl : CoreCtl) (va : W64) (value : W64) (v : W64)
      (signed : Bool) (write : Bool) (m : Memory) (q : Pkg), mayExecute s.pkg h = true ∧ sizeOk size = true ∧
      xlatePieces (accOf h ctl write) (pieces va size) (countSplit (executesWith s.pkg h ctl) h (pieces va size)) s.mem
      = (.fault cause v, m, q)) ∧
    (∃ (s : State) (h : Nat) (e : StoreEnt) (rest : List StoreEnt), h < 48 ∧ (hart s.pkg h).sb = e :: rest ∧ 0 < e.mask
      ∧ e.mask < 2 ^ 64 ∧ e.nc = false ∧ (dirLine s.pkg e.pa).owner = some h) ∧
    (∃ (s : State) (t0 : State) (u : State) (h : Nat) (size : Nat) (rd : Nat) (i : Nat) (ctl : CoreCtl) (va : W64) (w :
      W64) (signed : Bool) (a : VecArgs) (r : AccEnd), mayExecute s.pkg h = true ∧ sizeOk size = true ∧ t0 = s.onPkg
      (fun p => executesWith p h ctl) ∧ a.elems = [(i, w)] ∧ a.first = false ∧ (csr t0.pkg h 0x008).toNat ≤ i ∧ loadOnce
      h ctl w size (.vecLoad h a.vreg i size w) (fun v p => setElem p h a.vreg i size v) t0 = (r, u) ∧ r = .done) ∧
    (∃ (s : State) (t0 : State) (u : State) (h : Nat) (size : Nat) (rd : Nat) (i : Nat) (ctl : CoreCtl) (va : W64) (w :
      W64) (signed : Bool) (a : VecArgs) (r : AccEnd) (cause : _) (v : _), mayExecute s.pkg h = true ∧ sizeOk size =
      true ∧ t0 = s.onPkg (fun p => executesWith p h ctl) ∧ a.elems = [(i, w)] ∧ a.first = false ∧ (csr t0.pkg h
      0x008).toNat ≤ i ∧ loadOnce h ctl w size (.vecLoad h a.vreg i size w) (fun v p => setElem p h a.vreg i size v) t0
      = (r, u) ∧ r = .fault cause v) ∧
    (∃ (s t0 u : State) (h size vreg i : Nat) (ctl : CoreCtl) (w : W64) (r : AccEnd), mayExecute s.pkg h = true ∧
      sizeOk size = true ∧ t0 = s.onPkg (fun p => executesWith p h ctl) ∧ (csr t0.pkg h 0x008).toNat ≤ i ∧
      storeOnce h ctl w size (vecElem t0.pkg h vreg i size) t0 = (r, u) ∧ r = .done) ∧
    (∃ (s t0 u : State) (h size vreg i : Nat) (ctl : CoreCtl) (w : W64) (r : AccEnd) (cause : _) (v : _), mayExecute s.pkg h = true ∧
      sizeOk size = true ∧ t0 = s.onPkg (fun p => executesWith p h ctl) ∧ (csr t0.pkg h 0x008).toNat ≤ i ∧
      storeOnce h ctl w size (vecElem t0.pkg h vreg i size) t0 = (r, u) ∧ r = .fault cause v) ∧
    (∃ (s : State) (h : Nat) (pa : Nat) (size : Nat) (rd : Nat) (ctl : CoreCtl) (op : AmoOp) (va : W64) (value : W64)
      (rel : Bool) (nc : Bool) (m : Memory) (q : Pkg), mayExecute s.pkg h = true ∧ (size = 4 ∨ size = 8) ∧ va.toNat %
      size = 0 ∧ cacheable pa = true ∧ xlatePieces (accOf h ctl (op != .lr)) [(va.toNat, size, 0)] (executesWith s.pkg h
      ctl) s.mem = (.ok [⟨va.toNat, pa, size, 0, nc⟩], m, q) ∧ (hart q h).sb = [] ∧ (dirLine q (pa / 64)).owner = some h
      ∧ m.poisoned (pa / 64 * 64) 64 = false ∧ 0 < rd ∧ op ≠ .lr ∧ op ≠ .sc) ∧
    (∃ (s : State) (h : Nat) (pa : Nat) (size : Nat) (rd : Nat) (ctl : CoreCtl) (op : AmoOp) (va : W64) (value : W64)
      (rel : Bool) (nc : Bool) (m : Memory) (q : Pkg), mayExecute s.pkg h = true ∧ (size = 4 ∨ size = 8) ∧ va.toNat %
      size = 0 ∧ cacheable pa = true ∧ xlatePieces (accOf h ctl (op != .lr)) [(va.toNat, size, 0)] (executesWith s.pkg h
      ctl) s.mem = (.ok [⟨va.toNat, pa, size, 0, nc⟩], m, q) ∧ (hart q h).sb = [] ∧ (dirLine q (pa / 64)).owner = some h
      ∧ m.poisoned (pa / 64 * 64) 64 = false ∧ 0 < rd ∧ op = .lr) ∧
    (∃ (s : State) (h : Nat) (pa : Nat) (size : Nat) (rd : Nat) (ctl : CoreCtl) (op : AmoOp) (va : W64) (value : W64)
      (rel : Bool) (nc : Bool) (m : Memory) (q : Pkg), mayExecute s.pkg h = true ∧ (size = 4 ∨ size = 8) ∧ va.toNat %
      size = 0 ∧ cacheable pa = true ∧ xlatePieces (accOf h ctl (op != .lr)) [(va.toNat, size, 0)] (executesWith s.pkg h
      ctl) s.mem = (.ok [⟨va.toNat, pa, size, 0, nc⟩], m, q) ∧ (hart q h).sb = [] ∧ (dirLine q (pa / 64)).owner = some h
      ∧ m.poisoned (pa / 64 * 64) 64 = false ∧ 0 < rd ∧ op = .sc ∧ (hart q h).resv = some (pa / 64) ∧ (hart q h).delayed
      = []) ∧
    (∃ (s : State) (h : Nat) (pa : Nat) (size : Nat) (rd : Nat) (ctl : CoreCtl) (op : AmoOp) (va : W64) (value : W64)
      (rel : Bool) (nc : Bool) (m : Memory) (q : Pkg), mayExecute s.pkg h = true ∧ (size = 4 ∨ size = 8) ∧ va.toNat %
      size = 0 ∧ cacheable pa = true ∧ xlatePieces (accOf h ctl (op != .lr)) [(va.toNat, size, 0)] (executesWith s.pkg h
      ctl) s.mem = (.ok [⟨va.toNat, pa, size, 0, nc⟩], m, q) ∧ (hart q h).sb = [] ∧ (dirLine q (pa / 64)).owner = some h
      ∧ m.poisoned (pa / 64 * 64) 64 = false ∧ 0 < rd ∧ op = .sc ∧ (hart q h).resv ≠ some (pa / 64) ∧ (hart q h).delayed
      = []) :=
  ⟨⟨stHLSAUM0, 0, 0x1000, 8, 31, ctlM, 0x1000, false, stHLSAUM0.mem, executesWith stHLSAUM0.pkg 0 ctlM, by
      decide +kernel⟩,
    ⟨stHLSAUM1, 0, 0x1000, 8, 31, ctlM, 0x1000, false, false, stHLSAUM1.mem, executesWith stHLSAUM1.pkg 0 ctlM, ⟨0x40,
      255, 0x1122, false, false⟩, by decide +kernel⟩,
    ⟨stHLSAUM1, 0, 0x1000, 8, ctlM, 0x1000, 7, false, stHLSAUM1.mem, executesWith stHLSAUM1.pkg 0 ctlM, by
      decide +kernel⟩,
    ⟨stHLSAUM3, 0, 8, 31, 5, ctlU, 0x1000, 7, 0x1000, false, false, stHLSAUM3.mem, executesWith stHLSAUM3.pkg 0 ctlU,
      by decide +kernel⟩,
    ⟨stHLSAUM1, 0, ⟨0x40, 255, 0x1122, false, false⟩, [], by decide +kernel⟩,
    ⟨stHLSAUM0, stHLSAUM0.onPkg (fun p => executesWith p 0 ctlM), (loadOnce 0 ctlM 0x1000 8 (.vecLoad 0 31 0 8 0x1000)
      (fun v p => setElem p 0 31 0 8 v) (stHLSAUM0.onPkg (fun p => executesWith p 0 ctlM))).2, 0, 8, 0, 0, ctlM, 0,
      0x1000, false, ⟨31, [(0, 0x1000)], false⟩, .done, rfl, by decide +kernel, rfl, rfl, rfl, by decide +kernel,
      pair_of_fst _ _ (by decide +kernel), rfl⟩,
    ⟨stHLSAUM3, stHLSAUM3.onPkg (fun p => executesWith p 0 ctlU), (loadOnce 0 ctlU 0x1000 8 (.vecLoad 0 31 0 8 0x1000)
      (fun v p => setElem p 0 31 0 8 v) (stHLSAUM3.onPkg (fun p => executesWith p 0 ctlU))).2, 0, 8, 0, 0, ctlU, 0,
      0x1000, false, ⟨31, [(0, 0x1000)], false⟩, .fault 5 0x1000, 5, 0x1000, rfl, by decide +kernel, rfl, rfl, rfl, by
      decide +kernel, pair_of_fst _ _ (by decide +kernel), rfl⟩,
    ⟨stHLSAUM0, stHLSAUM0.onPkg (fun p => executesWith p 0 ctlM),
      (storeOnce 0 ctlM 0x1000 8 (vecElem (stHLSAUM0.onPkg (fun p => executesWith p 0 ctlM)).pkg 0 31 0 8)
        (stHLSAUM0.onPkg (fun p => executesWith p 0 ctlM))).2, 0, 8, 31, 0, ctlM, 0x1000, .done, by decide +kernel, rfl, rfl,
      by decide +kernel, pair_of_fst _ _ (by decide +kernel), rfl⟩,
    ⟨stHLSAUM3, stHLSAUM3.onPkg (fun p => executesWith p 0 ctlU),
      (storeOnce 0 ctlU 0x1000 8 (vecElem (stHLSAUM3.onPkg (fun p => executesWith p 0 ctlU)).pkg 0 31 0 8)
        (stHLSAUM3.onPkg (fun p => executesWith p 0 ctlU))).2, 0, 8, 31, 0, ctlU, 0x1000, .fault 7 0x1000, 7, 0x1000, by decide +kernel, rfl, rfl,
      by decide +kernel, pair_of_fst _ _ (by decide +kernel), rfl⟩,
    ⟨stHLSAUM0, 0, 0x1000, 4, 5, ctlM, .add, 0x1000, 3, false, false, stHLSAUM0.mem, executesWith stHLSAUM0.pkg 0
      ctlM, by decide +kernel⟩,
    ⟨stHLSAUM0, 0, 0x1000, 4, 5, ctlM, .lr, 0x1000, 3, false, false, stHLSAUM0.mem, executesWith stHLSAUM0.pkg 0 ctlM,
      by decide +kernel⟩,
    ⟨stHLSAUM7, 0, 0x1000, 4, 5, ctlM, .sc, 0x1000, 3, false, false, stHLSAUM7.mem, executesWith stHLSAUM7.pkg 0 ctlM,
      by decide +kernel⟩,
    ⟨stHLSAUM0, 0, 0x1000, 4, 5, ctlM, .sc, 0x1000, 3, false, false, stHLSAUM0.mem, executesWith stHLSAUM0.pkg 0 ctlM,
      by decide +kernel⟩⟩

def stFACBAOOH0 : State := make [put (pgCc 0) 0x100 1, fun p =>
  { p with
    harts := [(0, { Hart.empty with sb := [⟨0x40, 255, 0x1122, false, false⟩] })], home := { p.home with
      dir := [(0x40, ⟨some 0, [], 0⟩)] } }]
def stFACBAOOH2 : State := make [put (pgCc 0) 0x100 1, fun p =>
  { p with harts := [(0, { Hart.empty with icache := [3], tlb := [], sb := [⟨0x40, 255, 0x1122, false, false⟩] })] }]
def stFACBAOOH4 : State := make [put (pgCc 0) 0x100 1, fun p =>
  { p with harts := [(0, { Hart.empty with pc := 0 })], home := { p.home with dir := [(0x40, ⟨some 0, [], 0⟩)] } }]

theorem test_witness_FencesAndCacheBlocksActOnOneHart :
    (∃ (s : State) (h : Nat) (pred : Nat) (succ : Nat) (e : StoreEnt), mayExecute s.pkg h = true ∧ (hart s.pkg h).sb =
      [e] ∧ 0 < e.mask ∧ e.mask < 2 ^ 64 ∧ e.nc = false ∧ (dirLine s.pkg e.pa).owner = some h ∧ pred.testBit 0 = true) ∧
    (∃ (s : State) (h : Nat) (pred : Nat) (succ : Nat) (e : StoreEnt), mayExecute s.pkg h = true ∧ (hart s.pkg h).sb =
      [e] ∧ 0 < e.mask ∧ e.mask < 2 ^ 64 ∧ e.nc = false ∧ (dirLine s.pkg e.pa).owner = some h ∧ pred.testBit 0 = false) ∧
    (∃ (s : State) (h : Nat) (pred : Nat) (succ : Nat) (e : StoreEnt), mayExecute s.pkg h = true ∧ (hart s.pkg h).sb =
      [e] ∧ 0 < e.mask ∧ e.mask < 2 ^ 64 ∧ e.nc = false ∧ (dirLine s.pkg e.pa).owner = some h) ∧
    (∃ (s : State) (h : Nat), mayExecute s.pkg h = true) ∧
    (∃ (s : State) (h : Nat), mayExecute s.pkg h = true) ∧
    (∃ (s : State) (h : Nat) (pa : Nat) (ctl : CoreCtl) (va : W64) (nc : Bool) (m : Memory) (q : Pkg), mayExecute s.pkg
      h = true ∧ cacheable pa = true ∧ xlatePieces { accOf h ctl true with mgmt := true, mark := false } [(va.toNat, 1,
      0)] (executesWith s.pkg h ctl) s.mem = (.ok [⟨va.toNat, pa, 1, 0, nc⟩], m, q) ∧ (hart q h).sb.any (fun e => e.pa
      == pa / 64) = false) ∧
    (∃ (s : State) (h : Nat) (pa : Nat) (ctl : CoreCtl) (va : W64) (nc : Bool) (m : Memory) (q : Pkg), mayExecute s.pkg
      h = true ∧ cacheable pa = true ∧ xlatePieces { accOf h ctl true with mgmt := true, mark := false } [(va.toNat, 1,
      0)] (executesWith s.pkg h ctl) s.mem = (.ok [⟨va.toNat, pa, 1, 0, nc⟩], m, q) ∧ (hart q h).sb.any (fun e => e.pa
      == pa / 64) = false) ∧
    (∃ (s : State) (h : Nat) (pa : Nat) (ctl : CoreCtl) (va : W64) (nc : Bool) (m : Memory) (q : Pkg), mayExecute s.pkg
      h = true ∧ cacheable pa = true ∧ xlatePieces { accOf h ctl true with mgmt := true, mark := false } [(va.toNat, 1,
      0)] (executesWith s.pkg h ctl) s.mem = (.ok [⟨va.toNat, pa, 1, 0, nc⟩], m, q) ∧ (hart q h).sb.any (fun e => e.pa
      == pa / 64) = false) ∧
    (∃ (s : State) (h : Nat) (pa : Nat) (ctl : CoreCtl) (va : W64) (nc : Bool) (m : Memory) (q : Pkg), mayExecute s.pkg
      h = true ∧ cacheable pa = true ∧ xlatePieces (accOf h ctl true) [(va.toNat / 64 * 64, 64, 0)] (executesWith s.pkg
      h ctl) s.mem = (.ok [⟨va.toNat / 64 * 64, pa, 64, 0, nc⟩], m, q) ∧ (hart q h).sb.length < 64) ∧
    (∃ (s : State) (h : Nat) (pa : Nat) (ctl : CoreCtl) (va : W64) (nc : Bool) (m : Memory) (q : Pkg), mayExecute s.pkg
      h = true ∧ cacheable pa = true ∧ xlatePieces { accOf h ctl false with mark := false } [(va.toNat, 1, 0)]
      (executesWith s.pkg h ctl) s.mem = (.ok [⟨va.toNat, pa, 1, 0, nc⟩], m, q) ∧ h ∈ (dirLine q (pa / 64)).harts) ∧
    (∃ (s : State) (h : Nat) (cause : Nat) (ctl : CoreCtl) (va : W64) (v : W64) (m : Memory) (q : Pkg), mayExecute
      s.pkg h = true ∧ xlatePieces { accOf h ctl false with mark := false } [(va.toNat, 1, 0)] (executesWith s.pkg h
      ctl) s.mem = (.fault cause v, m, q)) :=
  ⟨⟨stFACBAOOH0, 0, 1, 1, ⟨0x40, 255, 0x1122, false, false⟩, by decide +kernel⟩,
    ⟨stFACBAOOH0, 0, 2, 1, ⟨0x40, 255, 0x1122, false, false⟩, by decide +kernel⟩,
    ⟨stFACBAOOH0, 0, 1, 1, ⟨0x40, 255, 0x1122, false, false⟩, by decide +kernel⟩,
    ⟨stFACBAOOH2, 0, by decide +kernel⟩,
    ⟨stFACBAOOH2, 0, by decide +kernel⟩,
    ⟨stFACBAOOH4, 0, 0x103F, ctlM, 0x103F, false, stFACBAOOH4.mem, executesWith stFACBAOOH4.pkg 0 ctlM, by
      decide +kernel⟩,
    ⟨stFACBAOOH4, 0, 0x103F, ctlM, 0x103F, false, stFACBAOOH4.mem, executesWith stFACBAOOH4.pkg 0 ctlM, by
      decide +kernel⟩,
    ⟨stFACBAOOH4, 0, 0x103F, ctlM, 0x103F, false, stFACBAOOH4.mem, executesWith stFACBAOOH4.pkg 0 ctlM, by
      decide +kernel⟩,
    ⟨stFACBAOOH0, 0, 0x1000, ctlM, 0x103F, false, stFACBAOOH0.mem, executesWith stFACBAOOH0.pkg 0 ctlM, by
      decide +kernel⟩,
    ⟨stFACBAOOH4, 0, 0x103F, ctlM, 0x103F, false, stFACBAOOH4.mem, executesWith stFACBAOOH4.pkg 0 ctlM, by
      decide +kernel⟩,
    ⟨stFACBAOOH4, 0, 5, ctlU, 0x103F, 0x103F, stFACBAOOH4.mem, executesWith stFACBAOOH4.pkg 0 ctlU, by decide +kernel⟩⟩

def stHHSATM0 : State := make [put (pgCc 11) 8 0x201, put (pgCc 11 + 1) 8 0x200, put (pgCc 11) 0x100 0x01000000, fun p =>
  { p with harts := [(47, { Hart.empty with resv := some 5 })] }]
def stHHSATM1 : State := make [put (pgCc 11) 0x100 0x01000000, fun p =>
  { p with harts := [(47, { Hart.empty with holding := true, resv := some 5 })] }]
def stHHSATM2 : State := make [put (pgCc 11) 8 0x201, put (pgCc 11 + 1) 8 0x200, put (pgCc 11 + 1) 0x108 0x1004, put (pgCc
  11 + 1) 0x110 7]
def stHHSATM3 : State := make [put (pgCc 11) 8 0x201, put (pgCc 11 + 1) 8 0x200]
def stHHSATM5 : State := make [put (pgCc 0) 8 0x201, put (pgCc 0) 0x108 4]
def stHHSATM7 : State := make [put (pgCc 0) 0x100 1, fun p => { p with harts := [(0, { Hart.empty with pc := 12 })] }]
def stHHSATM4 : State := make [put (pgCc 11) 8 0x201, put (pgCc 11 + 1) 8 0x200, put (pgCc 11) 0x100 0]

theorem test_witness_HartsHoldStartAndTakeMessages :
    (∃ (s : State) (rq : Requester) (c : Nat) (j : Nat) (v : W32), c < 12 ∧ j < 4 ∧ writeFate s.pkg rq (pgCc c + 1)
      0x104 = .accepted ∧ (v.setWidth 64 : W64) = BitVec.ofNat 64 (2 ^ (8 * j)) ∧ hartState s.pkg (4 * c + j) = 1 ∧
      (hart s.pkg (4 * c + j)).holding = false) ∧
    (∃ (s : State) (h : Nat), h < 48 ∧ (hart s.pkg h).holding = true ∧ (hart s.pkg h).sb = []) ∧
    (∃ (s : State) (rq : Requester) (c : Nat) (j : Nat) (h : Nat) (v : W32), c < 12 ∧ j < 4 ∧ h = 4 * c + j ∧ writeFate
      s.pkg rq (pgCc c + 1) 0x104 = .accepted ∧ (v.setWidth 64 : W64) = BitVec.ofNat 64 (2 * 2 ^ (8 * j)) ∧ hartState
      s.pkg h = 0 ∧ (hart s.pkg h).holding = false) ∧
    (∃ (s : State) (rq : Requester) (c : Nat) (h : Nat) (file : Nat) (n : Nat) (v : W32), c < 12 ∧ h = bitsOf
      (v.setWidth 64 : W64) 31 26 ∧ file = bitsOf (v.setWidth 64 : W64) 25 22 ∧ n = bitsOf (v.setWidth 64 : W64) 10 0 ∧
      writeFate s.pkg rq (pgCc c) 0x104 = .accepted) ∧
    (∃ (s : State) (rq : Requester) (c : Nat) (h : Nat) (file : Nat) (n : Nat) (v : W32), c < 12 ∧ h = bitsOf
      (v.setWidth 64 : W64) 31 26 ∧ file = bitsOf (v.setWidth 64 : W64) 25 22 ∧ n = bitsOf (v.setWidth 64 : W64) 10 0 ∧
      writeFate s.pkg rq (pgCc c + 1) 0x100 = .accepted) ∧
    (∃ (s : State) (rq : Requester) (v : W32), writeFate s.pkg rq (pgCc 0) 0x10C = .accepted) ∧
    (∃ (s : State) (rq : Requester) (v : W32), present s.pkg (pgCc 0) = true ∧ ready s.pkg (pgCc 0) = true) ∧
    (∃ (s : State) (h : Nat), hartRuns s.pkg h = true) :=
  ⟨⟨stHHSATM0, .kernel, 11, 3, 0x01000000, by decide +kernel⟩,
    ⟨stHHSATM1, 47, by decide +kernel⟩,
    ⟨stHHSATM4, .kernel, 11, 3, 4 * 11 + 3, 0x02000000, by decide +kernel, by decide +kernel, rfl, by decide +kernel⟩,
    ⟨stHHSATM3, .kernel, 11, 47, 8, 2047, 0xBE0007FF, by decide +kernel⟩,
    ⟨stHHSATM3, .kernel, 11, 47, 0, 2047, 0xBC0007FF, by decide +kernel⟩,
    ⟨stHHSATM5, .kernel, 1, by decide +kernel⟩,
    ⟨make [put (pgCc 0) 8 0x201], .kernel, 1, by decide +kernel⟩,
    ⟨stHHSATM7, 0, by decide +kernel⟩⟩

def stTLTSAIRUS0 : State :=
  { make [up (pgHbm 0) 2, fun p => { p with
    ces := [(0, { Ce.empty with misses := [⟨1, 0x4000000000, false, true, 0, 0, 2, 0⟩] })] }] with
      mem := mem 0x100000000000 64 77 }
def stTLTSAIRUS1 : State := make [up (pgCe 967) 2, put (pgCe 967) 8 0x201, fun p =>
  { p with ces := [(967, { Ce.empty with l1 := [(3, ⟨0x40, 5, false, 0⟩)] })] }]
def stTLTSAIRUS2 : State := make [put (pgSl 255) 8 0x201, put (pgSl 255) 0x138 1, fun p =>
  { p with home := { p.home with tags := [(255, [(3, ⟨0x40, 1, true, false⟩)])] } }]
def stTLTSAIRUS4 : State := make [put (pgQd 31) 8 0x201, put (pgQd 31) 0x180 0x80000002]
def stTLTSAIRUS7 : State := { make [] with mem := mem 0xFFFFF8 8 0xFFFFFFFFFFFFFFFF }
def stTLTSAIRUS10 : State := make [ringed (dsc 6 0) (fun c => { c with phase := .running })]

theorem test_witness_TheL1TheSlmAndItsReductionUnitsServe :
    (∃ (s : State) (n : Nat) (line : Nat) (x : Miss) (q : Pkg), ceOk n = true ∧ (ce s.pkg n).misses.find? (fun y =>
      y.line == line) = some x ∧ x.pf = false ∧ (ce s.pkg n).misses.filter (fun y => y.line == line) = [x] ∧ fateFor
      s.pkg (idCe n) (line * 64) false = .served ∧ (x.tag = 0 ∨ readsOlder s.pkg x.tag = false) ∧ line * 64 <
      0x10000000000000 ∧ homeRead s.pkg (line * 64) x.cls x.hint none = (true, q)) ∧
    (∃ (s : State) (rq : Requester) (n : Nat) (v : W32), ceOk n = true ∧ writeFate s.pkg rq (pgCe n) 0x180 = .accepted
      ∧ bitsOf (v.setWidth 64 : W64) 7 5 ≤ 4 ∧ bitOf (v.setWidth 64 : W64) 3 = true) ∧
    (∃ (s : State) (rq : Requester) (sl : Nat) (v : W32), sl < 256 ∧ writeFate s.pkg rq (pgSl sl) 0x108 = .accepted ∧
      bitOf (v.setWidth 64 : W64) 0 = true) ∧
    (∃ (s : State) (rq : Requester) (quad : Nat) (n : Nat) (v : W32), quad < 32 ∧ writeFate s.pkg rq (pgQd quad) 0x180
      = .accepted ∧ n = bitsOf (v.setWidth 64 : W64) 4 0 ∧ n ≤ 16 ∧ bit s.pkg (partKey quad) 31 = false ∧ (foldIn s.pkg
      quad = true → n = 16) ∧ n ≠ fld s.pkg (partKey quad) 20 16) ∧
    (∃ (s : State) (quad : Nat), quad < 32 ∧ stepping s.pkg (quad / 8) = true ∧ bit s.pkg (partKey quad) 31 = true) ∧
    (∃ (lo : Nat) (hi : Nat) (quad : Nat) (a : Nat) (m : Memory), inConverting lo hi quad a = true) ∧
    (∃ (lo : Nat) (hi : Nat) (quad : Nat) (a : Nat) (m : Memory), inConverting lo hi quad a = false) ∧
    (∃ (s : State) (pa : Nat) (v : W64), pa % 8 = 0 ∧ fateFor s.pkg 0 pa false = .served ∧ hostHolds s.pkg pa = false ∧
      s.mem.poisoned pa 8 = false) ∧
    (∃ (s : State) (pa : Nat) (v : W64), pa % 8 = 0 ∧ fateFor s.pkg 0 pa false = .served ∧ hostHolds s.pkg pa = false) ∧
    (∃ (s : State) (pa : Nat) (r : Rec), pa % 16 = 0 ∧ fateFor s.pkg 0 pa false = .served ∧ fateFor s.pkg 0 (radd2 pa)
      false = .served ∧ hostHolds s.pkg pa = false ∧ hostHolds s.pkg (radd2 pa) = false ∧ s.mem.poisoned pa 80 = false) ∧
    (∃ (s : State) (pa : Nat) (id : Nat), hasCmd s.pkg id = true ∧ dOpcode (cmd s.pkg id).desc = 6 ∧ (cmd s.pkg
      id).phase = .running ∧ (cmd s.pkg id).watching = false ∧ pa % 8 = 0 ∧ (watchesAt s.pkg (watchKey pa)).length < 64) :=
  ⟨⟨stTLTSAIRUS0, 0, 0x4000000000, ⟨1, 0x4000000000, false, true, 0, 0, 2, 0⟩, (homeRead stTLTSAIRUS0.pkg
      0x100000000000 0 0 none).2, by decide +kernel, by decide +kernel, by decide +kernel, by decide +kernel, by
      decide +kernel, by decide +kernel, by decide +kernel, pair_of_fst _ _ (by decide +kernel)⟩,
    ⟨stTLTSAIRUS1, .kernel, 967, 0x88, by decide +kernel⟩,
    ⟨stTLTSAIRUS2, .kernel, 255, 1, by decide +kernel⟩,
    ⟨make [put (pgQd 31) 8 0x201], .kernel, 31, 16, 16, by decide +kernel⟩,
    ⟨stTLTSAIRUS4, 31, by decide +kernel⟩,
    ⟨2, 4, 31, 0x20001F000000 + 3 * 131072, mem 0x20001F000000 1 1, by decide +kernel⟩,
    ⟨2, 4, 31, 0x20001F000000 + 4 * 131072, mem (0x20001F000000 + 4 * 131072) 1 1, by decide +kernel⟩,
    ⟨stTLTSAIRUS7, 0xFFFFF8, 2, by decide +kernel⟩,
    ⟨make [], 0xFFFFF8, 2, by decide +kernel⟩,
    ⟨({ make [] with mem := mem 0x1030 80 5 }), 0x1030, 7, by decide +kernel⟩,
    ⟨stTLTSAIRUS10, 0x1008, 9, by decide +kernel⟩⟩

def stCSRAC0 : State := make [up (pgMem 15) 2, fun p =>
  { p with memc := { p.memc with pcs := [(960, ⟨[⟨false, 0x40, 0, 3, 17, 0⟩], 0, [(3, 9)], [], false⟩)] } }]
def stCSRAC1 : State := make [fun p => { p with memc := { p.memc with pcs := [(511, ⟨[], 0, [(3, 9)], [(3, 2)], false⟩)] } }]
def stCSRAC2 : State := make [fun p =>
  { p with memc := { p.memc with pcs := [(511, ⟨[⟨false, 0x40, 0, 3, 17, 0⟩], 0, [(3, 9)], [(3, 7)], false⟩)] } }]
def stCSRAC5 : State := make [put pgHl 0x400 0x80000000, put pgHl 0x404 4, fun p =>
  { p with memc := { p.memc with acc := [(8, ⟨[(9, ⟨5, 7, 3, 2, true⟩)], 4, 1000⟩)] } }]

theorem test_witness_ControllersServeRefreshAndCount :
    (∃ (s : State) (ctl : Nat) (pc : Nat) (i : Nat) (r : MemReq) (x : PcSt), pcOk ctl pc = true ∧ ready s.pkg (pgMem
      ctl) = true ∧ x = pcSt s.pkg (64 * ctl + pc) ∧ chooseReq x s.pkg.pace.datum (100 * fld s.pkg (key (pgMem ctl)
      0x108) 7 0) = some (i, r)) ∧
    (∃ (s : State) (ctl : Nat) (pc : Nat) (bank : Nat), pcOk ctl pc = true ∧ lcWaits (pcSt s.pkg (64 * ctl + pc)) bank
      = false) ∧
    (∃ (s : State) (ctl : Nat) (pc : Nat) (bank : Nat) (n : Nat), pcOk ctl pc = true ∧ lcWaits (pcSt s.pkg (64 * ctl +
      pc)) bank = true ∧ n = SMap.get (pcSt s.pkg (64 * ctl + pc)).postponed bank 0 ∧ n < 8) ∧
    (∃ (s : State) (ctl : Nat) (temp : Nat), ctl < 16 ∧ temp < 256) ∧
    (∃ (s : State) (l : List DdrChannel), l.length = 8 ∧ s.pkg.memc.ddrPhase = 0 ∧ s.pkg.seq.railPgCore = true ∧ 4 ≤
      seqStep s.pkg ∧ seqState s.pkg ≠ 4) ∧
    (∃ (s : State) (b : Nat), b < 9 ∧ bit s.pkg (accControl b) 31 = true ∧ (acc s.pkg b).since + epochNs s.pkg b ≤
      s.pkg.pace.datum) :=
  ⟨⟨stCSRAC0, 15, 0, 0, ⟨false, 0x40, 0, 3, 17, 0⟩, ⟨[⟨false, 0x40, 0, 3, 17, 0⟩], 0, [(3, 9)], [], false⟩, by
      decide +kernel⟩,
    ⟨stCSRAC1, 7, 63, 3, by decide +kernel⟩,
    ⟨stCSRAC2, 7, 63, 3, 7, by decide +kernel⟩,
    ⟨make [], 15, 255, by decide +kernel⟩,
    ⟨make [put pgSv 0x100 0x04000000], List.replicate 8 ⟨2, 64, 1, true⟩, by decide +kernel⟩,
    ⟨stCSRAC5, 8, by decide +kernel⟩⟩

def stLCFHAGTS0 : State :=
  { make [fun p => { p with home := { p.home with dir := [(0x40, ⟨some 3, [2], 0⟩)] } }] with mem := mem 0x1000 64 5 }
def stLCFHAGTS1 : State :=
  { make [fun p => { p with
    harts := [(3, { Hart.empty with resv := some 0x40 })], home := { p.home with dir := [(0x40, ⟨some 3, [2], 0⟩)] } }] with
      mem := mem 0x1000 64 5 }
def stLCFHAGTS5 : State :=
  { make [fun p => { p with home := { p.home with dir := [(0x40, ⟨some 3, [2], 1⟩)] } }] with mem := mem 0x1000 64 5 }
def stLCFHAGTS7 : State := make [up (pgHbm 0) 2, fun p => { p with
  home := { p.home with pend := [⟨0x100000000000, 9, false, false, 0, 3, true, true⟩] } }]
def stLCFHAGTS8 : State := make [up (pgHbm 0) 2, fun p => { p with
  home := { p.home with
    pend := [⟨0x100000000000, 9, false, false, 0, 3, true, true⟩], dir := [(0x4000000000, ⟨none, [], 2⟩)] } }]
def stLCFHAGTS14 : State :=
  { make [fun p => { p with
    harts := [(3, { Hart.empty with resv := some 0x40, delayed := [0x40] })], home := { p.home with
      dir := [(0x40, ⟨some 3, [2], 0⟩)] } }] with mem := mem 0x1000 64 5 }

theorem test_witness_LinesComeFromHomesAndGoToSnoops :
    (∃ (s : State) (h : Nat) (pa : Nat), h < 48 ∧ cacheable pa = true ∧ fateFor s.pkg (idHart h) pa false = .served ∧
      queuedReqs s.pkg (homeNo pa) = 0 ∧ (dirLine s.pkg (pa / 64)).host ≠ 2) ∧
    (∃ (s : State) (h : Nat) (pa : Nat), h < 48 ∧ cacheable pa = true ∧ fateFor s.pkg (idHart h) pa false = .served ∧
      queuedReqs s.pkg (homeNo pa) = 0 ∧ (dirLine s.pkg (pa / 64)).host = 0) ∧
    (∃ (s : State) (h : Nat) (pa : Nat), h < 48 ∧ cacheable pa = true ∧ fateFor s.pkg (idHart h) pa false = .served ∧
      queuedReqs s.pkg (homeNo pa) = 0 ∧ (dirLine s.pkg (pa / 64)).host = 0 ∧ h ∈ (dirLine s.pkg (pa / 64)).harts) ∧
    (∃ (s : State) (h : Nat) (pa : Nat), (dirLine s.pkg (pa / 64)).owner = some h ∧ fateFor s.pkg (idHart h) pa false =
      .served) ∧
    (∃ (s : State) (h : Nat) (pa : Nat), (dirLine s.pkg (pa / 64)).owner ≠ some h) ∧
    (∃ (s : State) (pa : Nat), fateFor s.pkg (homeId pa) pa false = .served ∧ queuedReqs s.pkg (homeNo pa) = 0 ∧
      (dirLine s.pkg (pa / 64)).host ≠ 2) ∧
    (∃ (s : State) (n : Nat) (mu : Nat) (pa : Nat) (data : Item) (poison : Bool), ceOk n = true ∧ mu < 4 ∧ fateFor
      s.pkg (idCe n) pa true = .served ∧ (muPending s.pkg n mu).length < 1024 ∧ (∀ sl, homeSlice pa = some sl →
      pendingAt s.pkg sl < 256)) ∧
    (∃ (s : State) (n : Nat) (mu : Nat) (home : Nat), commitReady s.pkg n mu home = true) ∧
    (∃ (s : State) (n : Nat) (mu : Nat) (home : Nat), commitReady s.pkg n mu home = false) ∧
    (∃ (s : State) (pa : Nat) (op : Nat) (v : W64), pa % 8 = 0 ∧ op ≤ 1 ∧ fateFor s.pkg (homeId pa) pa false = .served
      ∧ queuedReqs s.pkg (homeNo pa) = 0 ∧ hostHolds s.pkg pa = false ∧ s.mem.poisoned pa 8 = false) ∧
    (∃ (s : State) (h : Nat) (pa : Nat), (dirLine s.pkg (pa / 64)).owner = some h) ∧
    (∃ (s : State) (h : Nat) (pa : Nat), (dirLine s.pkg (pa / 64)).owner = some h) ∧
    (∃ (s : State) (h : Nat) (pa : Nat), (dirLine s.pkg (pa / 64)).owner ≠ some h) ∧
    (∃ (s : State) (h : Nat) (pa : Nat), (hart s.pkg h).resv ≠ some (pa / 64)) ∧
    (∃ (s : State) (h : Nat) (pa : Nat), (hart s.pkg h).resv = some (pa / 64) ∧ pa / 64 ∉ (hart s.pkg h).delayed) ∧
    (∃ (s : State) (pa : Nat), (dirLine s.pkg (pa / 64)).host = 0) ∧
    (∃ (s : State) (pa : Nat), (dirLine s.pkg (pa / 64)).host ≠ 0 ∧ s.pkg.home.bi.find? (fun x => x.1 == pa / 64) =
      none ∧ biSent s.pkg < 256) :=
  ⟨⟨stLCFHAGTS0, 47, 0x1008, by decide +kernel⟩,
    ⟨stLCFHAGTS0, 47, 0x1008, by decide +kernel⟩,
    ⟨stLCFHAGTS0, 2, 0x1008, by decide +kernel⟩,
    ⟨stLCFHAGTS0, 3, 0x1008, by decide +kernel⟩,
    ⟨stLCFHAGTS0, 2, 0x1008, by decide +kernel⟩,
    ⟨stLCFHAGTS5, 0x1008, by decide +kernel⟩,
    ⟨stLCFHAGTS7, 0, 3, 0x100000000000, 7, true, by decide +kernel, by decide +kernel, by decide +kernel, by
      decide +kernel, (by intro y hy; cases (show some (homeNo 0x100000000000) = some y from hy); decide +kernel)⟩,
    ⟨stLCFHAGTS7, 0, 3, homeNo 0x100000000000, by decide +kernel⟩,
    ⟨stLCFHAGTS8, 0, 3, homeNo 0x100000000000, by decide +kernel⟩,
    ⟨stLCFHAGTS0, 0x1008, 0, 7, by decide +kernel⟩,
    ⟨stLCFHAGTS0, 3, 0x1008, by decide +kernel⟩,
    ⟨stLCFHAGTS0, 3, 0x1008, by decide +kernel⟩,
    ⟨stLCFHAGTS0, 2, 0x1008, by decide +kernel⟩,
    ⟨stLCFHAGTS0, 3, 0x1008, by decide +kernel⟩,
    ⟨stLCFHAGTS1, 3, 0x1008, by decide +kernel⟩,
    ⟨stLCFHAGTS0, 0x1008, by decide +kernel⟩,
    ⟨stLCFHAGTS5, 0x1008, by decide +kernel⟩⟩

def stTHSLBS0 : State :=
  { make [fun p => { p with home := { p.home with dir := [(0x40, ⟨some 3, [2], 1⟩)] } }] with mem := mem 0x1000 64 5 }
def stTHSLBS1 : State :=
  { make [fun p => { p with home := { p.home with dir := [(0x40, ⟨none, [], 2⟩)] } }] with mem := mem 0x1000 64 5 }
def stTHSLBS2 : State :=
  { make [fun p => { p with home := { p.home with dir := [(0x40, ⟨none, [], 2⟩)], bi := [(0x40, ⟨true, true, 7, []⟩)] } }]
    with mem := mem 0x1000 64 5 }
def stTHSLBS3 : State :=
  { make [fun p => { p with
    home := { p.home with dir := [(0x40, ⟨none, [], 2⟩)], bi := [(0x40, ⟨false, true, 7, [.rdShared 3]⟩)] } }] with
      mem := mem 0x1000 64 5 }
def stTHSLBS5 : State :=
  { make [put pgHl 0x120 0x40010000, put pgHl 0x110 0, fun p => { p with
    hl := { p.hl with hdmBase := 0x100000 }, home := { p.home with dir := [(0x40, ⟨some 3, [2], 0⟩)] } }] with
      mem := mem 0x1000 64 5 }
def stTHSLBS6 : State :=
  { make [put pgHl 0x120 0xC0010000, put pgHl 0x110 0, fun p => { p with
    hl := { p.hl with hdmBase := 0x100000 }, home := { p.home with dir := [(0x40, ⟨some 3, [2], 0⟩)] } }] with
      mem := mem 0x1000 64 5 }
def stTHSLBS9 : State :=
  { make [put pgHl 0x100 0x40000000, fun p => { p with home := { p.home with devCache := [(2 ^ 52 + 0x1000) / 64] } }] with
    mem := mem (2 ^ 52 + 0x1000) 64 5 }
def stTHSLBS10 : State :=
  { make [put pgHl 0x100 0x40000000, fun p => { p with
    home := { p.home with pend := [⟨2 ^ 52 + 0x1000, 9, false, false, 0, 3, true, true⟩] } }] with
      mem := mem (2 ^ 52 + 0x1000) 64 5 }
def stTHSLBS12 : State := make [fun p => { p with
  home := { p.home with pend := [⟨2 ^ 52 + 0x1000, 9, false, false, 0, 3, false, false⟩] } }]

theorem test_witness_TheHostSharesLinesBySnoops :
    (∃ (s : State) (pa : Nat), s.pkg.home.bi.find? (fun x => x.1 == pa / 64) = none ∧ biSent s.pkg < 256 ∧ (dirLine
      s.pkg (pa / 64)).host ≠ 0) ∧
    (∃ (s : State) (pa : Nat), s.pkg.home.bi.find? (fun x => x.1 == pa / 64) = none ∧ biSent s.pkg < 256 ∧ (dirLine
      s.pkg (pa / 64)).host = 2) ∧
    (∃ (s : State) (pa : Nat) (k : Nat) (w : BiWait) (wb : Option Item), w.reqs = [] ∧ s.pkg.home.bi.find? (fun x =>
      x.1 == pa / 64 && x.2.sent) = some (k, w) ∧ queuedReqs s.pkg (homeNo (pa / 64 * 64)) = 0) ∧
    (∃ (s : State) (pa : Nat) (k : Nat) (h : Nat) (w : BiWait), w.reqs = [.rdShared h] ∧ s.pkg.home.bi.find? (fun x =>
      x.1 == pa / 64 && x.2.sent) = some (k, w) ∧ queuedReqs s.pkg (homeNo (pa / 64 * 64)) = 0 ∧ s.pkg.home.bi.all (fun
      x => x.2.sent) = true) ∧
    (∃ (s : State) (pa : Nat) (k : Nat) (w : BiWait), w.reqs = [] ∧ s.pkg.home.bi.find? (fun x => x.1 == pa / 64 &&
      x.2.sent) = some (k, w) ∧ w.since + 10000000 ≤ timerNow s.pkg ∧ queuedReqs s.pkg (homeNo (pa / 64 * 64)) = 0 ∧
      s.pkg.home.bi.all (fun x => x.2.sent) = true) ∧
    (∃ (s : State) (hpa : Nat) (pa : Nat) (cacheIt : Bool), insetMoving s.pkg = false ∧ insetMap s.pkg (hpa / 64 * 64)
      = some pa ∧ insetHeld s.pkg = false ∧ fateFor s.pkg idHost pa false = .served) ∧
    (∃ (s : State) (hpa : Nat) (cacheIt : Bool) (data : Item) (mask : W64), insetMoving s.pkg = true) ∧
    (∃ (s : State) (hpa : Nat) (cacheIt : Bool) (data : Item) (mask : W64), insetMoving s.pkg = true) ∧
    (∃ (s : State) (hpa : Nat) (pa : Nat) (data : Item) (mask : W64), insetMoving s.pkg = false ∧ insetMap s.pkg (hpa /
      64 * 64) = some pa ∧ insetHeld s.pkg = false ∧ fateFor s.pkg idHost pa (mask == BitVec.allOnes 64) = .served) ∧
    (∃ (s : State) (hpa : Nat), s.pkg.home.pend.any (fun l => decide (l.pa / 64 = (hostBase + hpa / 64 * 64) / 64) &&
      l.owned) = false ∧ (hostBase + hpa / 64 * 64) / 64 ∈ s.pkg.home.devCache) ∧
    (∃ (s : State) (n : Nat) (mu : Nat), hostReady s.pkg n mu = true) ∧
    (∃ (s : State) (n : Nat) (mu : Nat), hostReady s.pkg n mu = false) :=
  ⟨⟨stTHSLBS0, 0x1008, by decide +kernel⟩,
    ⟨stTHSLBS1, 0x1008, by decide +kernel⟩,
    ⟨stTHSLBS2, 0x1008, 0x40, ⟨true, true, 7, []⟩, some 6, by decide +kernel⟩,
    ⟨stTHSLBS3, 0x1008, 0x40, 3, ⟨false, true, 7, [.rdShared 3]⟩, by decide +kernel⟩,
    ⟨stTHSLBS2, 0x1008, 0x40, ⟨true, true, 7, []⟩, by decide +kernel⟩,
    ⟨stTHSLBS5, 0x101008, 0x1000, true, by decide +kernel⟩,
    ⟨stTHSLBS6, 0x101008, true, 5, 1, by decide +kernel⟩,
    ⟨stTHSLBS6, 0x101008, true, 5, 1, by decide +kernel⟩,
    ⟨stTHSLBS5, 0x101008, 0x1000, 9, 3, by decide +kernel⟩,
    ⟨stTHSLBS9, 0x1008, by decide +kernel⟩,
    ⟨stTHSLBS10, 0, 3, by decide +kernel⟩,
    ⟨stTHSLBS12, 0, 3, by decide +kernel⟩⟩

def stBSLAF1 : State := make [fun p => { p with fault := { p.fault with bridgeSpare := [(15, 2)] } }]
def stBSLAF2 : State := make [fun p => { p with fault := { p.fault with bridgeSpare := [(15, 1)] } }]

theorem test_witness_BridgesSpareLanesAndFail :
    (∃ (s : State) (n : Nat), n < 4 ∧ s.pkg.seq.railPgCore = true ∧ bridgeLost s.pkg n = false ∧ (∃ m, m < 4 ∧ m ≠ n ∧
      bridgeIsDown s.pkg m = false)) ∧
    (∃ (s : State) (kind : Nat) (n : Nat) (b : Nat) (dir : Nat), bridgeOf kind n = some b ∧ dir < 2 ∧ 2 ≤ sparesUsed
      s.pkg b dir ∧ s.pkg.seq.railPgCore = true ∧ bridgeLost s.pkg b = false ∧ (∃ m, m < 4 ∧ m ≠ b ∧ bridgeIsDown s.pkg
      m = false)) ∧
    (∃ (s : State) (kind : Nat) (n : Nat) (b : Nat) (dir : Nat) (lane : Nat), bridgeOf kind n = some b ∧ dir < 2 ∧ lane
      < 66 ∧ s.pkg.seq.railPgCore = true ∧ bridgeLost s.pkg b = false ∧ sparesUsed s.pkg b dir < 2) :=
  ⟨⟨make [], 3, by decide +kernel, by decide +kernel, by decide +kernel, ⟨0, by decide +kernel⟩⟩,
    ⟨stBSLAF1, 1, 3, 7, 1, by decide +kernel, by decide +kernel, by decide +kernel, by decide +kernel, by
      decide +kernel, ⟨0, by decide +kernel⟩⟩,
    ⟨stBSLAF2, 1, 3, 7, 1, 65, by decide +kernel⟩⟩

def stTAFIAC0 : State := make [fun p => { p with xl := { p.xl with requests := [(15, 5, true)] } }]
def stTAFIAC2 : State := make [fun p => { p with xl := { p.xl with requests := [(15, 5, true)] } }, put (pgXl + 16) 0x100 4,
  fun p => { p with hl := { p.hl with cfg := [(0x2DC / 4, 8)] } }]
def stTAFIAC3 : State := make [fun p => { p with xl := { p.xl with pris := [(15, 5, true)] } }]
def stTAFIAC5 : State := make [fun p => { p with xl := { p.xl with atc := [⟨0, 5, 7, true⟩, ⟨1, 5, 7, true⟩] } }]
def stTAFIAC6 : State := make [fun p => { p with xl := { p.xl with invs := [⟨some 31, 0, 5, 1⟩] } }]
def stTAFIAC7 : State := make [fun p => { p with xl := { p.xl with invs := [⟨some 31, 0, 1, 1⟩] } }, ringed (dsc 3 0) (fun c
  => { c with pages := [(0, { (pageK 0 1).2 with stale := true })] })]
def stTAFIAC8 : State := make [put pgXl 8 0x201, put pgXl 0x110 0x5000]
def stTAFIAC9 : State := make [fun p => { p with xl := { p.xl with invs := [⟨none, 0, 5, 1⟩] } }]
def stTAFIAC10 : State := make [fun p => { p with xl := { p.xl with invs := [⟨none, 2, 1, 1⟩] } }, ringed (dsc 3 0) (fun c
  => { c with pages := [(0, { (pageK 0 1).2 with stale := true })] })]
def stTAFIAC11 : State :=
  { make [put pgXl 8 0x201, put (pgXl + 3) 0x100 0, put (pgXl + 3) 0x108 0x9000000000000002, ringed (dsc 3 (opr 0 0x1000 1))
    (fun c => { c with phase := .translating }), fun p => { p with xl := { p.xl with waits := [⟨7, 8, 9, 0, 1, 1⟩] } }] with
      mem := (((mem 0x2000 8 0x0C01).write 0x3000 8 0x1001).write 0x4000 8 0x1801).write 0x6008 8 0x14D7 }
def stTAFIAC14 : State := make [put (pgXl + 16) 8 0x200, up pgXl 2]

theorem test_witness_TranslationsAreFilledInvalidatedAndConfigured :
    (∃ (s : State) (ctx : Nat) (page : Nat) (c : Nat) (g : Nat) (hpa : Nat) (write : Bool) (writable : Bool),
      s.pkg.xl.requests.find? (fun r => r.1 == ctx && r.2.1 == page) = some (c, g, write) ∧ (write = true → writable =
      true) ∧ s.pkg.xl.noCache.any (fun r => r == (ctx, page)) = false) ∧
    (∃ (s : State) (ctx : Nat) (page : Nat) (c : Nat) (g : Nat) (hpa : Nat) (write : Bool) (writable : Bool),
      s.pkg.xl.requests.find? (fun r => r.1 == ctx && r.2.1 == page) = some (c, g, write) ∧ priEn s.pkg ctx = false) ∧
    (∃ (s : State) (ctx : Nat) (page : Nat) (c : Nat) (g : Nat) (hpa : Nat) (write : Bool) (writable : Bool),
      s.pkg.xl.requests.find? (fun r => r.1 == ctx && r.2.1 == page) = some (c, g, write) ∧ priEn s.pkg ctx = true ∧
      s.pkg.xl.retried.any (fun r => r == (ctx, page)) = false ∧ priStopped s.pkg = false ∧ (s.pkg.xl.pris.filter (fun x
      => x.2.2)).length < priLimit s.pkg) ∧
    (∃ (s : State) (ctx : Nat) (page : Nat) (code : Nat), s.pkg.xl.pris.any (fun r => r == (ctx, page, true)) = true ∧
      code = 0) ∧
    (∃ (s : State) (ctx : Nat) (page : Nat) (code : Nat), s.pkg.xl.pris.any (fun r => r == (ctx, page, true)) = true ∧
      code ≠ 0) ∧
    (∃ (s : State) (tag : Nat) (w : InvWork), s.pkg.xl.invs.find? (fun x => x.tag == some tag) = some w ∧ invEnded
      s.pkg w = true) ∧
    (∃ (s : State) (tag : Nat) (w : InvWork), s.pkg.xl.invs.find? (fun x => x.tag == some tag) = some w ∧ invEnded
      s.pkg w = false) ∧
    (∃ (s : State) (rq : Requester) (v : W32), writeFate s.pkg rq pgXl 0x118 = .accepted ∧ bit s.pkg invControl 30 =
      false ∧ bitOf (v.setWidth 64 : W64) 31 = true) ∧
    (∃ (s : State) (w : InvWork), s.pkg.xl.invs.find? (fun x => x.tag.isNone) = some w ∧ invEnded s.pkg w = true) ∧
    (∃ (s : State) (w : InvWork), s.pkg.xl.invs.find? (fun x => x.tag.isNone) = some w ∧ invEnded s.pkg w = false) ∧
    (∃ (s : State) (rq : Requester) (v : W32) (w : FaultWait), writeFate s.pkg rq pgXl 0x130 = .accepted ∧
      s.pkg.xl.waits.find? (fun x => x.seq == bitsOf v 15 0) = some w ∧ bitOf v 31 = false ∧ (cmd s.pkg w.id).phase =
      .translating) ∧
    (∃ (s : State) (rq : Requester) (v : W32) (w : FaultWait) (x : Xlate) (m : Memory) (q : Pkg), writeFate s.pkg rq
      pgXl 0x130 = .accepted ∧ s.pkg.xl.waits.find? (fun x => x.seq == bitsOf v 15 0) = some w ∧ bitOf v 31 = true ∧
      walkPage (setXl s.pkg { s.pkg.xl with waits := s.pkg.xl.waits.erase w }) s.mem (cmd s.pkg w.id).ctx (accessKind
      (cmd s.pkg w.id) w.operand) (dPrio (cmd s.pkg w.id).desc) (dOperand (cmd s.pkg w.id).desc w.operand).write (w.page
      * 4096) = (.ok x, m, q)) ∧
    (∃ (s : State) (rq : Requester) (v : W32), writeFate s.pkg rq pgXl 0x130 = .accepted ∧ s.pkg.xl.waits.find? (fun x
      => x.seq == bitsOf v 15 0) = none) ∧
    (∃ (s : State) (rq : Requester) (ctx : Nat) (v : W32), ctx < 16 ∧ writeFate s.pkg rq (pgXl + 1 + ctx) 0x100 =
      .accepted ∧ bitsOf (v.setWidth 64 : W64) 1 0 ≠ 3 ∧ (s.pkg.standalone = true → bitsOf (v.setWidth 64 : W64) 1 0 =
      0) ∧ bit s.pkg (key (pgQm + 1 + ctx) 0x100) 31 = false) ∧
    (∃ (s : State) (rq : Requester) (ctx : Nat) (v : W32), ctx < 16 ∧ writeFate s.pkg rq (pgXl + 1 + ctx) 0x100 =
      .accepted ∧ bitsOf (v.setWidth 64 : W64) 1 0 = 3) ∧
    (∃ (s : State) (rq : Requester) (v : W64) (a : Nat) (b : Nat), writeFate s.pkg rq pgXl 0x108 = .accepted ∧ (ctsUsed
      s.pkg).isEmpty = true ∧ 16 ≤ bitsOf v 5 1 ∧ bitsOf v 5 1 ≤ 22 ∧ region (bitsOf v 51 21 * 0x200000) = .hbm a b ∧
      hbmOrScratch s.pkg (bitsOf v 51 21 * 0x200000) (16 * 2 ^ bitsOf v 5 1) = true) ∧
    (∃ (s : State) (rq : Requester) (v : W64) (a : Nat) (b : Nat), writeFate s.pkg rq pgXl 0x108 = .accepted ∧
      ((ctsUsed s.pkg).isEmpty = false ∨ bitsOf v 5 1 < 16 ∨ 22 < bitsOf v 5 1)) :=
  ⟨⟨stTAFIAC0, 15, 5, 15, 5, 0x7000, true, true, by decide +kernel⟩,
    ⟨stTAFIAC0, 15, 5, 15, 5, 0x7000, true, false, by decide +kernel⟩,
    ⟨stTAFIAC2, 15, 5, 15, 5, 0x7000, true, false, by decide +kernel⟩,
    ⟨stTAFIAC3, 15, 5, 0, by decide +kernel⟩,
    ⟨stTAFIAC3, 15, 5, 15, by decide +kernel⟩,
    ⟨stTAFIAC6, 31, ⟨some 31, 0, 5, 1⟩, by decide +kernel⟩,
    ⟨stTAFIAC7, 31, ⟨some 31, 0, 1, 1⟩, by decide +kernel⟩,
    ⟨stTAFIAC8, .kernel, 0x800F000F, by decide +kernel⟩,
    ⟨stTAFIAC9, ⟨none, 0, 5, 1⟩, by decide +kernel⟩,
    ⟨stTAFIAC10, ⟨none, 2, 1, 1⟩, by decide +kernel⟩,
    ⟨stTAFIAC11, .kernel, 7, ⟨7, 8, 9, 0, 1, 1⟩, by decide +kernel⟩,
    ⟨stTAFIAC11, .kernel, 0x80000007, ⟨7, 8, 9, 0, 1, 1⟩, ⟨1, 1, 5, true, false, false, 0x6008, 0, 0, false, false, 0,
      0x14D7⟩, stTAFIAC11.mem, ((walkPage (setXl stTAFIAC11.pkg
      { stTAFIAC11.pkg.xl with waits := stTAFIAC11.pkg.xl.waits.erase ⟨7, 8, 9, 0, 1, 1⟩ }) stTAFIAC11.mem 2 0 0 true
      0x1000).2.2), by decide +kernel⟩,
    ⟨stTAFIAC11, .kernel, 0x80000008, by decide +kernel⟩,
    ⟨stTAFIAC14, .kernel, 15, 0x12, by decide +kernel⟩,
    ⟨stTAFIAC14, .kernel, 15, 0x13, by decide +kernel⟩,
    ⟨make [put pgXl 8 0x201], .kernel, 0x10000000002D, 0, 0, by decide +kernel⟩,
    ⟨make [put pgXl 8 0x201], .kernel, 0x10000000002F, 0, 0, by decide +kernel⟩⟩

def stWLRAR0 : State := make [put (windowKey 1023 / 0x1000) 8 0x200, up pgXl 2]
def stWLRAR1 : State := make [put (windowKey 0 / 0x1000) 8 0x200, up pgXl 2]
def stWLRAR2 : State := make [put (landingKey 1023 0 / 0x1000) 8 0x200, put pgRt 8 0x201]
def stWLRAR3 : State := make [put (landingKey 1023 0 / 0x1000) 8 0x200, put pgRt 8 0x201, atKey (landingKey 1023 0)
  0x8000000000000000]
def stWLRAR4 : State := make [put (landingKey 1 0 / 0x1000) 8 0x200, put pgRt 8 0x201]
def stWLRAR5 : State := make [put (landingKey 0 0 / 0x1000) 8 0x200, put pgRt 8 0x201]
def stWLRAR6 : State := make [fun p => { p with rt := { p.rt with arrived := [msg0] } }, put (pgRt + 1) 0x150
  0xC000000000200000, put (pgRt + 1) 0x158 2]
def stWLRAR7 : State := make [fun p => { p with rt := { p.rt with arrived := [msg0] } }]
def stWLRAR11 : State := make [fun p =>
  { p with
    rt := { p.rt with
      acc := [(2 ^ 21 * 2 + 9, ⟨.coreLoad 47 5 8 false 0x5000, { msg0 with window := 5, offset := 64 }, 5, 0, 0, 1024, 0⟩)] } }]
def stWLRAR13 : State := make [ringed (dsc 5 0) (fun c => { c with phase := .running }), fun p =>
  { p with rt := { p.rt with acc := [(2 ^ 21 * 2 + 9, ⟨.semSignal 9, msg0, 5, 0, 0, 1024, 0⟩)] } }]
def stWLRAR14 : State := make [fun p =>
  { p with
    rt := { p.rt with
      acc := [(2 ^ 21 * 2 + 9, ⟨.coreLoad 47 5 8 false 0x5000, { msg0 with window := 5, offset := 64 }, 5, 0, 0, 1024,
        4999999999⟩)] } }]

theorem test_witness_WindowsLandRefuseAndReport :
    (∃ (s : State) (rq : Requester) (i : Nat) (word : Nat) (v : W64), i < 1024 ∧ word < 2 ∧ writeFate s.pkg rq
      (windowKey i / 0x1000) (windowKey i % 0x1000) = .accepted ∧ 0 < i ∧ (bitOf v 63 && bit s.pkg (windowKey i) 63) =
      false) ∧
    (∃ (s : State) (rq : Requester) (i : Nat) (word : Nat) (v : W64), i < 1024 ∧ word < 2 ∧ writeFate s.pkg rq
      (windowKey i / 0x1000) (windowKey i % 0x1000) = .accepted ∧ (i = 0 ∨ (bitOf v 63 = true ∧ bit s.pkg (windowKey i)
      63 = true))) ∧
    (∃ (s : State) (rq : Requester) (r : Nat) (v : W64), 0 < r ∧ r < 1024 ∧ writeFate s.pkg rq (landingKey r 0 /
      0x1000) (landingKey r 0 % 0x1000) = .accepted ∧ (bitOf v 63 = true → bit s.pkg (landingKey r 0) 63 = false) ∧
      landRangeOk s.pkg v = true) ∧
    (∃ (s : State) (rq : Requester) (r : Nat) (v : W64), 0 < r ∧ r < 1024 ∧ writeFate s.pkg rq (landingKey r 0 /
      0x1000) (landingKey r 0 % 0x1000) = .accepted ∧ bitOf v 63 = true ∧ bit s.pkg (landingKey r 0) 63 = true) ∧
    (∃ (s : State) (rq : Requester) (r : Nat) (v : W64), 0 < r ∧ r < 1024 ∧ writeFate s.pkg rq (landingKey r 1 /
      0x1000) (landingKey r 1 % 0x1000) = .accepted) ∧
    (∃ (s : State) (rq : Requester) (word : Nat) (v : W64), word < 2 ∧ writeFate s.pkg rq (landingKey 0 word / 0x1000)
      (landingKey 0 word % 0x1000) = .accepted) ∧
    (∃ (s : State) (m : Msg), isRequest m = true ∧ s.pkg.rt.arrived.contains m = true ∧ m.replayed = false ∧
      landingRefusal s.pkg m = none) ∧
    (∃ (s : State) (m : Msg) (cause : Nat), isRequest m = true ∧ s.pkg.rt.arrived.contains m = true ∧ m.replayed =
      false ∧ landingRefusal s.pkg m = some cause) ∧
    (∃ (s : State) (m : Msg), m.window = 0) ∧
    (∃ (s : State) (m : Msg), 0 < m.window ∧ m.window < 1024 ∧ bit s.pkg (landingKey m.window 0) 63 = false) ∧
    (∃ (s : State) (cause : Nat) (window : Nat) (tag : Nat) (source : Nat) (offset : Nat), cause < 256) ∧
    (∃ (s : State) (cause : Nat) (window : Nat) (tag : Nat) (source : Nat) (offset : Nat) (k : Nat) (h : Nat) (rd :
      Nat) (size : Nat) (signed : Bool) (va : W64) (r : Remote), cause < 256 ∧ window < 65536 ∧ source < 65536 ∧ tag < 2
      ^ 21 ∧ offset < 2 ^ 64 ∧ s.pkg.rt.acc.find? (fun x => x.1 % 2 ^ 21 == tag && x.2.msg.window == window &&
      x.2.msg.offset == offset && (cause == 9 || x.1 / 2 ^ 21 == source)) = some (k, r) ∧ r.who = .coreLoad h rd size
      signed va) ∧
    (∃ (s : State) (tag : Nat) (h : Nat) (rd : Nat) (size : Nat) (signed : Bool) (va : W64) (r : Remote), remoteAt
      s.pkg tag = some r ∧ r.who = .coreLoad h rd size signed va ∧ r.since + 100000000 ≤ timerNow s.pkg) ∧
    (∃ (s : State) (tag : Nat) (id : Nat) (r : Remote), remoteAt s.pkg tag = some r ∧ r.who = .semSignal id ∧ r.since +
      100000000 ≤ timerNow s.pkg ∧ (cmd s.pkg id).phase = .running ∧ s.pkg.ces.find? (fun x => x.2.cmd == some id) =
      none) ∧
    (∃ (s : State) (tag : Nat) (r : Remote), remoteAt s.pkg tag = some r ∧ timerNow s.pkg < r.since + 100000000) :=
  ⟨⟨stWLRAR0, .kernel, 1023, 1, 0xF80F000703FF3FFF, by decide +kernel⟩,
    ⟨stWLRAR1, .kernel, 0, 1, 0, by decide +kernel⟩,
    ⟨stWLRAR2, .kernel, 1023, 0xF000100000000000, by decide +kernel⟩,
    ⟨stWLRAR3, .kernel, 1023, 0x8000000000000000, by decide +kernel⟩,
    ⟨stWLRAR4, .kernel, 1, 0x00003FFF00003FFF, by decide +kernel⟩,
    ⟨stWLRAR5, .kernel, 1, 5, by decide +kernel⟩,
    ⟨stWLRAR6, msg0, by decide +kernel⟩,
    ⟨stWLRAR7, msg0, 4, by decide +kernel⟩,
    ⟨make [], ({ msg0 with window := 0 }), by decide +kernel⟩,
    ⟨make [], ({ msg0 with window := 1023 }), by decide +kernel⟩,
    ⟨make [], 9, 1023, 5, 3, 64, by decide +kernel⟩,
    ⟨stWLRAR11, 4, 5, 9, 2, 64, 2 ^ 21 * 2 + 9, 47, 5, 8, false, 0x5000, ⟨.coreLoad 47 5 8 false 0x5000,
      { msg0 with window := 5, offset := 64 }, 5, 0, 0, 1024, 0⟩, by decide +kernel⟩,
    ⟨stWLRAR11, 2 ^ 21 * 2 + 9, 47, 5, 8, false, 0x5000, ⟨.coreLoad 47 5 8 false 0x5000,
      { msg0 with window := 5, offset := 64 }, 5, 0, 0, 1024, 0⟩, by decide +kernel⟩,
    ⟨stWLRAR13, 2 ^ 21 * 2 + 9, 9, ⟨.semSignal 9, msg0, 5, 0, 0, 1024, 0⟩, by decide +kernel⟩,
    ⟨stWLRAR14, 2 ^ 21 * 2 + 9, ⟨.coreLoad 47 5 8 false 0x5000, { msg0 with window := 5, offset := 64 }, 5, 0, 0,
      1024, 4999999999⟩, by decide +kernel⟩⟩

def stTHLTAAM4 : State := make [put pgHl 0x100 0xC6100000, fun p =>
  { p with hl := { p.hl with answering := true, flr := true } }]
def stTHLTAAM5 : State := make [put pgHl 0x100 0xC6100000, fun p => { p with hl := { p.hl with answering := true } }]
def stTHLTAAM12 : State := make [fun p => { p with int := { p.int with msixOn := true, pba := [(2047, true)] } }]
def stTHLTAAM13 : State := make [put pgHl 0x100 0xC6100000, put pgHl 0x110 0x100000000000]
def stTHLTAAM17 : State := make [put pgHl 8 0x201, put pgHl 0x110 0x100000000000, put pgHl 0x118 0x102000000000, put pgHl
  0x120 0x40040000]
def stTHLTAAM18 : State := make [put pgHl 8 0x201, put pgHl 0x110 0x100000000000, put pgHl 0x118 0x100000000000, put pgHl
  0x120 0x40040000]
def stTHLTAAM19 : State := make [put pgHl 0x110 0x100000000000, put pgHl 0x118 0x102000000000, put pgHl 0x120 0xC0040000,
  fun p => { p with hl := { p.hl with moveStart := 7 } }]
def stTHLTAAM20 : State := make [fun p => { p with hl := { p.hl with held := [.doorbell .host 2 1 1] } }]

theorem test_witness_TheHostLinkTrainsAnswersAndMoves :
    (∃ (s : State) (cxl : Nat) (rate : Nat) (width : Nat) (mode : Nat) (flit : Bool), ready s.pkg pgHl = true ∧ hlMode
      s.pkg = 0 ∧ 1 ≤ rate ∧ rate ≤ 6 ∧ 1 ≤ width ∧ width ≤ 16 ∧ modeOf (if s.pkg.standalone then 0 else cxl) rate =
      some (mode, flit)) ∧
    (∃ (cxl : Bool) (rate : Nat), rate < 5) ∧
    (∃ (s : State) (width : Nat) (kept : Bool), 2 ≤ hlMode s.pkg) ∧
    (∃ (s : State) (off : Nat) (v : W32) (w : Bool), s.pkg.standalone = false ∧ hlMode s.pkg ≠ 0 ∧ off < 4096 ∧
      s.pkg.hl.answering = true ∧ s.pkg.hl.flr = true) ∧
    (∃ (s : State) (off : Nat) (v : W32), s.pkg.standalone = false ∧ hlMode s.pkg ≠ 0 ∧ off < 4096 ∧ s.pkg.hl.answering
      = true ∧ s.pkg.hl.flr = false) ∧
    (∃ (s : State) (off : Nat) (v : W32), s.pkg.standalone = false ∧ hlMode s.pkg ≠ 0 ∧ off < 4096 ∧ s.pkg.hl.answering
      = true ∧ s.pkg.hl.flr = false ∧ off / 4 * 4 ∉ [0x104, 0x110, 0x2E8, 0x2F0, 0x2F4] ∧ (off / 4 * 4 = 0x58 → bitOf v
      15 = false)) ∧
    (∃ (s : State) (off : Nat) (v : W32), s.pkg.standalone = false ∧ hlMode s.pkg ≠ 0 ∧ off < 4096 ∧ s.pkg.hl.answering
      = true ∧ s.pkg.hl.flr = false ∧ off / 4 * 4 = 0x58 ∧ bitOf v 15 = true) ∧
    (∃ (s : State) (off : Nat) (bytes : Nat) (v : W64), s.pkg.standalone = false ∧ off < 0x4000000 ∧ naturallyAligned
      off bytes = false) ∧
    (∃ (s : State) (off : Nat) (bytes : Nat) (v : W64), s.pkg.standalone = false ∧ off < 0x4000000 ∧ naturallyAligned
      off bytes = true ∧ off < 0x3FF7000) ∧
    (∃ (s : State) (off : Nat) (bytes : Nat) (v : W64), s.pkg.standalone = false ∧ off < 0x4000000 ∧ naturallyAligned
      off bytes = true ∧ off < 0x3FF7000 ∧ s.pkg.hl.held = []) ∧
    (∃ (s : State) (off : Nat) (bytes : Nat) (v : W64), s.pkg.standalone = false ∧ off < 0x4000000 ∧ isDoorbell off =
      true ∧ writesHeld s.pkg = true) ∧
    (∃ (s : State) (off : Nat) (bytes : Nat) (v : W64), s.pkg.standalone = false ∧ off < 0x4000000 ∧ off % 4 = 0 ∧ off
      < 0x10000) ∧
    (∃ (s : State) (k : Nat) (v : W64), s.pkg.standalone = false ∧ k < 8192 ∧ (k % 4 = 1 ∨ k % 4 = 2) ∧ s.pkg.hl.held =
      []) ∧
    (∃ (s : State) (vec : Nat), vec < 2048 ∧ s.pkg.standalone = false ∧ s.pkg.int.msixOn = true ∧ s.pkg.int.msixMask =
      false ∧ SMap.get s.pkg.int.pba vec false = true) ∧
    (∃ (s : State) (base : Nat) (size : Nat), s.pkg.standalone = false ∧ committed s.pkg = false ∧ size % 2 ^ 30 = 0 ∧
      4 * 2 ^ 30 ≤ size ∧ size ≤ 64 * 2 ^ 30 ∧ insetRangeOk s.pkg (insetBase s.pkg) size = true ∧ hlMode s.pkg = 3) ∧
    (∃ (s : State) (base : Nat) (size : Nat), s.pkg.standalone = false ∧ committed s.pkg = false ∧ (size % 2 ^ 30 ≠ 0 ∨
      size < 4 * 2 ^ 30 ∨ 64 * 2 ^ 30 < size ∨ hlMode s.pkg ≠ 3 ∨ insetRangeOk s.pkg (insetBase s.pkg) size = false)) ∧
    (∃ (s : State), committed s.pkg = true ∧ insetMoving s.pkg = false) ∧
    (∃ (s : State), committed s.pkg = true ∧ insetMoving s.pkg = true) ∧
    (∃ (s : State) (rq : Requester) (v : W32), writeFate s.pkg rq pgHl 0x120 = .accepted ∧ bitOf v 0 = true ∧
      s.pkg.standalone = false ∧ committed s.pkg = true ∧ insetMoving s.pkg = false ∧ insetNext s.pkg % 2 ^ 30 = 0 ∧
      insetRangeOk s.pkg (insetNext s.pkg) (insetBytes s.pkg) = true ∧ insetNext s.pkg ≠ insetBase s.pkg) ∧
    (∃ (s : State) (rq : Requester) (v : W32), writeFate s.pkg rq pgHl 0x120 = .accepted ∧ bitOf v 0 = true ∧
      s.pkg.standalone = false ∧ (committed s.pkg = false ∨ insetMoving s.pkg = true ∨ insetNext s.pkg = insetBase
      s.pkg)) ∧
    (∃ (s : State), insetMoving s.pkg = true ∧ (insetHostLines s.pkg).isEmpty = true ∧ holdersPaused s.pkg = true ∧
      s.pkg.hl.held = []) :=
  ⟨⟨make [put pgHl 8 0x201], 3, 6, 16, 3, true, by decide +kernel⟩,
    ⟨3, 4, by decide +kernel⟩,
    ⟨make [put pgHl 0x100 0xC6100000], 8, true, by decide +kernel⟩,
    ⟨stTHLTAAM4, 4095, 5, true, by decide +kernel⟩,
    ⟨stTHLTAAM5, 4, 5, by decide +kernel⟩,
    ⟨stTHLTAAM5, 4, 0xFFFFFFFF, by decide +kernel⟩,
    ⟨stTHLTAAM5, 0x5B, 0x8000, by decide +kernel⟩,
    ⟨make [], 0x3FFFFFE, 4, 5, by decide +kernel⟩,
    ⟨make [put pgQm 8 0x301], key pgQm 0x118, 4, 5, by decide +kernel⟩,
    ⟨make [put pgQm 8 0x301], key pgQm 0x118, 4, 5, by decide +kernel⟩,
    ⟨stTHLTAAM20, key (pgQm + 19) 0x100, 4, 5, by decide +kernel⟩,
    ⟨make [], 0x6000, 4, 5, by decide +kernel⟩,
    ⟨make [], 8190, 7, by decide +kernel⟩,
    ⟨stTHLTAAM12, 2047, by decide +kernel⟩,
    ⟨stTHLTAAM13, 0x4000000000, 64 * 2 ^ 30, by decide +kernel⟩,
    ⟨stTHLTAAM13, 0x4000000000, 65 * 2 ^ 30, by decide +kernel⟩,
    ⟨make [put pgHl 0x120 0x40040000], by decide +kernel⟩,
    ⟨make [put pgHl 0x120 0xC0040000], by decide +kernel⟩,
    ⟨stTHLTAAM17, .kernel, 1, by decide +kernel⟩,
    ⟨stTHLTAAM18, .kernel, 1, by decide +kernel⟩,
    ⟨stTHLTAAM19, by decide +kernel⟩⟩

def stROTFCC0 : State := make [put (pgQm + 16) 0x100 0x80000000, put (pgXl + 16) 0x100 2, put (pgXl + 16) 0x108 9, ringed
  (dsc 0 0) (fun c => c), fun p => { p with hl := { p.hl with cfg := [(1, 7), (0x41, 8)] } }]
def stROTFCC1 : State := make [fun p => { p with hl := { p.hl with flr := true } }, put pgHl 0x130 0xFFFFFFFF]
def stROTFCC2 : State := make [put pgHl 0x100 0xC6100000, ringed (dsc 0 0) (fun c => c)]
def stROTFCC3 : State := make [fun p => { p with standalone := true }]
def stROTFCC4 : State := make [put pgHl 0x100 0xC6100000, fun p =>
  { p with hl := { p.hl with cfg := [(0x1E, 0x400), (0xA9, 0x10011001)], ltrState := 5 } }, ringed (dsc 0 0) (fun c =>
  { c with phase := .finished })]

theorem test_witness_ResetsOfTheFunctionClearContexts :
    (∃ (s : State), s.pkg.standalone = false ∧ s.pkg.hl.flr = false) ∧
    (∃ (s : State), s.pkg.hl.flr = true) ∧
    (∃ (s : State) (kind : Nat), s.pkg.standalone = false ∧ s.pkg.seq.railPgCore = true) ∧
    (∃ (s : State) (kind : Nat), s.pkg.standalone = true) ∧
    (∃ (s : State) (table : Nat), s.pkg.standalone = false ∧ hlMode s.pkg ≠ 0 ∧ s.pkg.hl.flr = false ∧ bitOf (cfgStored
      s.pkg 0x78) 10 = true ∧ (∀ x, s.pkg.hl.ltrAt = some x → x + 100000 ≤ s.pkg.pace.datum ∧ s.pkg.hl.ltrState ≠ ltrRow
      s.pkg) ∧ table = (if ltrRow s.pkg = 0 then 0x83E8 else if ltrRow s.pkg = 1 then 0x8671 else 0x8BD0)) :=
  ⟨⟨stROTFCC0, by decide +kernel⟩,
    ⟨stROTFCC1, by decide +kernel⟩,
    ⟨stROTFCC2, 0, by decide +kernel⟩,
    ⟨stROTFCC3, 2, by decide +kernel⟩,
    ⟨stROTFCC4, 0x8671, by decide +kernel, by decide +kernel, by decide +kernel, by decide +kernel,
      (by intro y hy; cases (show none = some y from hy)), by decide +kernel⟩⟩

def stTRPSAA0 : State := make [fun p => { p with standalone := true }]
def stTRPSAA1 : State := make [fun p => { p with standalone := true }, put pgHl 8 0x201, put pgHl 0x150 0x04]
def stTRPSAA2 : State := make [fun p => { p with standalone := true }, put pgHl 8 0x201, put pgHl 0x150 0x100004]
def stTRPSAA5 : State := make [fun p => { p with standalone := true }, put pgHl 8 0x201, put pgHl 0x158 0x123]
def stTRPSAA9 : State := make [fun p => { p with standalone := true }, fun p =>
  { p with hl := { p.hl with retryAt := some 7 } }]
def stTRPSAA10 : State := make [fun p => { p with standalone := true }, put pgHl 0x100 0xC6100000, put pgHl 0x140
  0x8000000000000000]
def stTRPSAA11 : State :=
  { make [fun p => { p with standalone := true }, put pgHl 0x100 0xC6100000, put pgHl 0x140 0x8000000000000000] with
    mem := mem 0x103F 64 77 }
def stTRPSAA12 : State := make [fun p => { p with standalone := true }, put pgHl 0x100 0xC6100000, put pgHl 0x148 0x5000,
  put pgHl 0x168 0xFFFFFFFF]
def stTRPSAA13 : State := make [fun p => { p with standalone := true }, put pgHl 0x100 0xC6100000, put pgHl 0x148 0x5000]
def stTRPSAA14 : State := make [fun p => { p with standalone := true }, fun p => { p with aplic := [(16, 4)] }]

theorem test_witness_TheRootPortSendsAndAccepts :
    (∃ (s : State) (rq : Requester) (data : W32) (status : Nat), ownsHl s.pkg rq = false) ∧
    (∃ (s : State) (rq : Requester) (data : W32) (status : Nat), ownsHl s.pkg rq = true ∧ isRootPort (cfgTarget s.pkg)
      = true) ∧
    (∃ (s : State) (rq : Requester) (data : W32) (status : Nat), ownsHl s.pkg rq = true ∧ isRootPort (cfgTarget s.pkg)
      = false ∧ status = 0) ∧
    (∃ (s : State) (rq : Requester) (v : W32), writeFate s.pkg rq pgHl 0x154 = .accepted ∧ s.pkg.standalone = true ∧
      isRootPort (cfgTarget s.pkg) = false) ∧
    (∃ (s : State) (rq : Requester) (v : W32) (off : _) (m : _), writeFate s.pkg rq pgHl 0x154 = .accepted ∧
      s.pkg.standalone = true ∧ isRootPort (cfgTarget s.pkg) = true ∧ off = cfgTarget s.pkg % 2 ^ 12 ∧ off ≠ 0x104 ∧ off
      ≠ 0x110 ∧ off ≠ 0x130 ∧ m = BitVec.ofNat 32 (lookupN rpMask off)) ∧
    (∃ (s : State) (rq : Requester) (width : Nat) (v : W64), (width = 4 ∨ width = 8) ∧ ownsHl s.pkg rq = true) ∧
    (∃ (s : State) (rq : Requester) (width : Nat) (v : W64), (width = 4 ∨ width = 8) ∧ ownsHl s.pkg rq = false) ∧
    (∃ (s : State) (rq : Requester) (width : Nat) (v : W64), (width = 4 ∨ width = 8) ∧ writeFate s.pkg rq pgHl 0x160 =
      .accepted ∧ s.pkg.standalone = true) ∧
    (∃ (s : State), s.pkg.standalone = true) ∧
    (∃ (s : State) (since : Nat), s.pkg.hl.retryAt = some since ∧ since + 1000000000 ≤ s.pkg.pace.datum) ∧
    (∃ (s : State) (addr : Nat) (bytes : Nat) (data : Item), s.pkg.standalone = true ∧ hlMode s.pkg ≠ 0 ∧ 0 < bytes ∧
      bytes ≤ 64 ∧ inBounce s.pkg addr bytes = true ∧ (∀ l ∈ linesOf addr bytes, fateFor s.pkg idHostLink l false =
      .served)) ∧
    (∃ (s : State) (addr : Nat) (bytes : Nat) (data : Item), s.pkg.standalone = true ∧ hlMode s.pkg ≠ 0 ∧ 0 < bytes ∧
      bytes ≤ 64 ∧ inBounce s.pkg addr bytes = true ∧ (∀ l ∈ linesOf addr bytes, fateFor s.pkg idHostLink l false =
      .served)) ∧
    (∃ (s : State) (addr : Nat) (bytes : Nat) (data : Item) (w : _), s.pkg.standalone = true ∧ hlMode s.pkg ≠ 0 ∧ 0 <
      bytes ∧ bytes ≤ 64 ∧ inBounce s.pkg addr bytes = false ∧ (w = true → inMsi s.pkg addr = false)) ∧
    (∃ (s : State) (h : Nat) (addr : Nat) (data : W32), s.pkg.standalone = true ∧ hlMode s.pkg ≠ 0 ∧ h < 48 ∧ addr =
      msiBase s.pkg + 64 * h ∧ inBounce s.pkg addr 4 = false ∧ data.toNat % 2048 ≠ 0) ∧
    (∃ (s : State) (pin : Nat) (assert : Bool), s.pkg.standalone = true ∧ pin < 4 ∧ s.pkg.seq.railPgCore = true) :=
  ⟨⟨stTRPSAA0, .kernel, 5, 0, by decide +kernel⟩,
    ⟨stTRPSAA1, .kernel, 5, 0, by decide +kernel⟩,
    ⟨stTRPSAA2, .kernel, 5, 0, by decide +kernel⟩,
    ⟨stTRPSAA2, .kernel, 5, by decide +kernel⟩,
    ⟨stTRPSAA1, .kernel, 0xFFFFFFFF, 4, BitVec.ofNat 32 (lookupN rpMask 4), by decide +kernel⟩,
    ⟨stTRPSAA5, .kernel, 4, 0xFFFFFFFFFFFFFFFF, by decide +kernel⟩,
    ⟨stTRPSAA0, .kernel, 8, 5, by decide +kernel⟩,
    ⟨stTRPSAA5, .kernel, 4, 0xFFFFFFFFFFFFFFFF, by decide +kernel⟩,
    ⟨stTRPSAA0, by decide +kernel⟩,
    ⟨stTRPSAA9, 7, by decide +kernel⟩,
    ⟨stTRPSAA10, 0x103F, 64, 77, by decide +kernel⟩,
    ⟨stTRPSAA11, 0x103F, 64, 77, by decide +kernel⟩,
    ⟨stTRPSAA12, 0x6000, 64, 77, true, by decide +kernel⟩,
    ⟨stTRPSAA13, 47, 0x5000 + 64 * 47, 0x7FF, by decide +kernel⟩,
    ⟨stTRPSAA14, 3, true, by decide +kernel⟩⟩

def stSIAAINBK0 : State := make [fun p => { p with hl := { p.hl with spdm := 3, sessions := [(65543, 2)] } }]
def stSIAAINBK1 : State := make [fun p => { p with hl := { p.hl with spdm := 1, sessions := [] } }]
def stSIAAINBK2 : State := make [fun p => { p with hl := { p.hl with spdm := 2, sessions := [] } }]
def stSIAAINBK4 : State := make [fun p => { p with hl := { p.hl with spdm := 3, sessions := [] } }]
def stSIAAINBK9 : State := make [fun p => { p with hl := { p.hl with spdm := 3, sessions := [(65543, 1)] } }]
def stSIAAINBK15 : State := make [fun p =>
  { p with hl := { p.hl with spdm := 3, sessions := [(65543, 2)], streams := [(3, ⟨false, false, false, false⟩)] } }]
def stSIAAINBK16 : State := make [fun p =>
  { p with hl := { p.hl with spdm := 3, sessions := [(65543, 2)], streams := [(3, ⟨true, false, false, false⟩)] } }]
def stSIAAINBK17 : State := make [fun p =>
  { p with hl := { p.hl with spdm := 3, sessions := [(65543, 2)], streams := [(3, ⟨true, true, false, true⟩)] } }]
def stSIAAINBK18 : State := make [fun p =>
  { p with hl := { p.hl with spdm := 3, sessions := [(65543, 2)], streams := [(3, ⟨true, true, true, false⟩)] } }]

theorem test_witness_SpdmIsAnsweredAndIdeNeedsBothKeys :
    (∃ (s : State), s.pkg.boot.running.isNone = false) ∧
    (∃ (s : State), s.pkg.boot.running.isNone = false ∧ 1 ≤ s.pkg.hl.spdm) ∧
    (∃ (s : State), s.pkg.boot.running.isNone = false ∧ 2 ≤ s.pkg.hl.spdm) ∧
    (∃ (s : State), s.pkg.boot.running.isNone = false ∧ 2 ≤ s.pkg.hl.spdm) ∧
    (∃ (s : State), s.pkg.boot.running.isNone = false ∧ 3 ≤ s.pkg.hl.spdm) ∧
    (∃ (s : State), s.pkg.boot.running.isNone = false ∧ 3 ≤ s.pkg.hl.spdm) ∧
    (∃ (s : State), s.pkg.boot.running.isNone = false ∧ 3 ≤ s.pkg.hl.spdm) ∧
    (∃ (s : State) (index : _), s.pkg.boot.running.isNone = false ∧ 3 ≤ s.pkg.hl.spdm ∧ 0 < index ∧ index ≤ 5) ∧
    (∃ (s : State) (reqId : _), s.pkg.boot.running.isNone = false ∧ 3 ≤ s.pkg.hl.spdm ∧ s.pkg.hl.sessions = [] ∧ reqId
      < 65536) ∧
    (∃ (s : State) (id : _), s.pkg.boot.running.isNone = false ∧ 3 ≤ s.pkg.hl.spdm ∧ session s.pkg id = 1) ∧
    (∃ (s : State) (id : _), s.pkg.boot.running.isNone = false ∧ 3 ≤ s.pkg.hl.spdm ∧ session s.pkg id = 1) ∧
    (∃ (s : State) (id : _), s.pkg.boot.running.isNone = false ∧ 3 ≤ s.pkg.hl.spdm ∧ session s.pkg id = 2) ∧
    (∃ (s : State) (id : _), s.pkg.boot.running.isNone = false ∧ 3 ≤ s.pkg.hl.spdm ∧ session s.pkg id = 2) ∧
    (∃ (s : State) (id : _), s.pkg.boot.running.isNone = false ∧ 3 ≤ s.pkg.hl.spdm ∧ session s.pkg id = 2) ∧
    (∃ (s : State) (id : _), s.pkg.boot.running.isNone = false ∧ 3 ≤ s.pkg.hl.spdm ∧ session s.pkg id ≠ 2) ∧
    (∃ (s : State) (id : Nat) (stream : Nat), s.pkg.boot.running.isNone = false ∧ 3 ≤ s.pkg.hl.spdm ∧ session s.pkg id
      = 2 ∧ stream < 4) ∧
    (∃ (s : State) (id : Nat) (stream : Nat), s.pkg.boot.running.isNone = false ∧ 3 ≤ s.pkg.hl.spdm ∧ session s.pkg id
      = 2 ∧ stream < 4) ∧
    (∃ (s : State) (id : Nat) (stream : Nat), s.pkg.boot.running.isNone = false ∧ 3 ≤ s.pkg.hl.spdm ∧ session s.pkg id
      = 2 ∧ stream < 4) ∧
    (∃ (s : State) (id : Nat) (stream : Nat), s.pkg.boot.running.isNone = false ∧ 3 ≤ s.pkg.hl.spdm ∧ session s.pkg id
      = 2 ∧ stream < 4) ∧
    (∃ (s : State) (stream : Nat), (ideStream s.pkg stream).secure = true) ∧
    (∃ (s : State) (stream : Nat), (ideStream s.pkg stream).secure = true) :=
  ⟨⟨stSIAAINBK0, by decide +kernel⟩,
    ⟨stSIAAINBK1, by decide +kernel⟩,
    ⟨stSIAAINBK2, by decide +kernel⟩,
    ⟨stSIAAINBK2, by decide +kernel⟩,
    ⟨stSIAAINBK4, by decide +kernel⟩,
    ⟨stSIAAINBK4, by decide +kernel⟩,
    ⟨stSIAAINBK4, by decide +kernel⟩,
    ⟨stSIAAINBK4, 5, by decide +kernel⟩,
    ⟨stSIAAINBK4, 65535, by decide +kernel⟩,
    ⟨stSIAAINBK9, 65543, by decide +kernel⟩,
    ⟨stSIAAINBK9, 65543, by decide +kernel⟩,
    ⟨stSIAAINBK0, 65543, by decide +kernel⟩,
    ⟨stSIAAINBK0, 65543, by decide +kernel⟩,
    ⟨stSIAAINBK0, 65543, by decide +kernel⟩,
    ⟨stSIAAINBK9, 65543, by decide +kernel⟩,
    ⟨stSIAAINBK15, 65543, 3, by decide +kernel⟩,
    ⟨stSIAAINBK15, 65543, 3, by decide +kernel⟩,
    ⟨stSIAAINBK15, 65543, 3, by decide +kernel⟩,
    ⟨stSIAAINBK15, 65543, 3, by decide +kernel⟩,
    ⟨stSIAAINBK18, 3, by decide +kernel⟩,
    ⟨stSIAAINBK18, 3, by decide +kernel⟩⟩

def stPTCFASL3 : State := make [fun p =>
  { p with rt := { p.rt with ports := [(5, { PortSt.empty with trained := true, expect := 0 })] } }]
def stPTCFASL4 : State := make [fun p =>
  { p with rt := { p.rt with ports := [(5, { PortSt.empty with trained := true, expect := 65535 })] } }]
def stPTCFASL5 : State := make [fun p =>
  { p with rt := { p.rt with ports := [(5, { PortSt.empty with trained := true, expect := 4 })] } }]
def stPTCFASL6 : State := make [fun p =>
  { p with
    rt := { p.rt with ports := [(5, { PortSt.empty with trained := true, replay := [(3, [msg0]), (4, [])], tries := 6 })] } }]
def stPTCFASL7 : State := make [fun p =>
  { p with
    rt := { p.rt with ports := [(5, { PortSt.empty with trained := true, replay := [(3, [msg0]), (4, [])], tries := 6 })] } },
  put (pgPl 5) 0x120 100]
def stPTCFASL8 : State := make [fun p =>
  { p with
    rt := { p.rt with ports := [(5, { PortSt.empty with trained := true, replay := [(3, [msg0]), (4, [])], tries := 7 })] } },
  put (pgPl 5) 0x120 100]
def stPTCFASL9 : State := make [fun p =>
  { p with rt := { p.rt with ports := [(5, { PortSt.empty with trained := true, accepted := 3 })] } }]
def stPTCFASL12 : State := make [fun p =>
  { p with rt := { p.rt with ports := [(5, { PortSt.empty with trained := true, lastRx := 0 })] } }]
def stPTCFASL13 : State := make [fun p =>
  { p with rt := { p.rt with ports := [(5, { PortSt.empty with trained := true, lastRx := 4999995000 })] } }]
def stPTCFASL14 : State := make [fun p =>
  { p with
    rt := { p.rt with
      ports := [(5, { PortSt.empty with trained := false, downAt := some 7, queued := [msg0], replay := [(3, [msg0])] })] } }]
def stPTCFASL15 : State := make [put (pgPl 5) 0x114 0x002000FF, fun p =>
  { p with rt := { p.rt with ports := [(5, { PortSt.empty with trained := true, lastRx := 0 })] } }]
def stPTCFASL16 : State := make [put (pgPl 5) 0x110 0x1FF, fun p =>
  { p with rt := { p.rt with ports := [(5, { PortSt.empty with trained := true, lastRx := 0 })] } }]
def stPTCFASL17 : State := make [put (pgPl 5) 0x114 0x7F, put (pgPl 5) 0x10C 0x80000, fun p =>
  { p with rt := { p.rt with ports := [(5, { PortSt.empty with trained := true, expect := 0 })] } }]
def stPTCFASL19 : State := make [put (pgPl 5) 0x114 0xFF, put (pgPl 5) 0x10C 0x80000, fun p =>
  { p with rt := { p.rt with ports := [(5, { PortSt.empty with trained := true, expect := 0 })] } }]

theorem test_witness_PortsTrainCarryFlitsAndSwapLanes :
    (∃ (s : State) (i : Nat) (badTx : Nat) (badRx : Nat) (node : Nat) (pport : Nat) (vmax : Nat) (vmin : Nat) (features
      : Nat) (rtt : Nat) (tx : List Nat) (rx : List Nat), i < 6 ∧ cable s.pkg i = true ∧ plDisabled s.pkg i = false ∧
      s.pkg.seq.lasers = true ∧ (plState s.pkg i = 1 ∨ plState s.pkg i = 2 ∨ plState s.pkg i = 8) ∧ tx = goodLanes s.pkg
      i 0 badTx ∧ rx = goodLanes s.pkg i 1 badRx ∧ 4 ≤ tx.length ∧ 4 ≤ rx.length ∧ 1 ≤ vmax ∧ vmin ≤ 1) ∧
    (∃ (s : State) (i : Nat) (badTx : Nat) (badRx : Nat) (node : Nat) (pport : Nat) (vmax : Nat) (vmin : Nat) (features
      : Nat) (rtt : Nat) (tx : List Nat) (rx : List Nat), i < 6 ∧ cable s.pkg i = true ∧ plDisabled s.pkg i = false ∧
      s.pkg.seq.lasers = true ∧ (plState s.pkg i = 1 ∨ plState s.pkg i = 2 ∨ plState s.pkg i = 8) ∧ tx = goodLanes s.pkg
      i 0 badTx ∧ rx = goodLanes s.pkg i 1 badRx ∧ (tx.length < 4 ∨ rx.length < 4)) ∧
    (∃ (s : State) (i : Nat) (badTx : Nat) (badRx : Nat) (node : Nat) (pport : Nat) (vmax : Nat) (vmin : Nat) (features
      : Nat) (rtt : Nat) (tx : List Nat) (rx : List Nat), i < 6 ∧ cable s.pkg i = true ∧ plDisabled s.pkg i = false ∧
      s.pkg.seq.lasers = true ∧ (plState s.pkg i = 1 ∨ plState s.pkg i = 2 ∨ plState s.pkg i = 8) ∧ tx = goodLanes s.pkg
      i 0 badTx ∧ rx = goodLanes s.pkg i 1 badRx ∧ 4 ≤ tx.length ∧ 4 ≤ rx.length ∧ (vmax = 0 ∨ 1 < vmin)) ∧
    (∃ (s : State) (i : Nat) (f : Flit), linkUp s.pkg i = true) ∧
    (∃ (s : State) (i : Nat) (f : Flit), linkUp s.pkg i = true ∧ f.kind = 1 ∧ f.seq = (port s.pkg i).expect ∧ f.ackNak
      = 0 ∧ f.crValid = false) ∧
    (∃ (s : State) (i : Nat) (f : Flit), linkUp s.pkg i = true ∧ f.kind = 1 ∧ f.seq ≠ (port s.pkg i).expect ∧ f.ackNak
      = 0 ∧ f.crValid = false) ∧
    (∃ (s : State) (i : Nat) (ack : Nat) (x : PortSt), linkUp s.pkg i = true ∧ x = port (ackTo s.pkg i ack) i ∧
      x.replay ≠ [] ∧ x.tries + 1 < 8) ∧
    (∃ (s : State) (i : Nat) (x : PortSt), linkUp s.pkg i = true ∧ x = port s.pkg i ∧ x.replay ≠ [] ∧ x.sentAt + regN
      s.pkg (key (pgPl i) 0x120) + 2000 ≤ timerNow s.pkg ∧ x.tries + 1 < 8) ∧
    (∃ (s : State) (i : Nat) (x : PortSt), linkUp s.pkg i = true ∧ x = port s.pkg i ∧ x.replay ≠ [] ∧ x.sentAt + regN
      s.pkg (key (pgPl i) 0x120) + 2000 ≤ timerNow s.pkg ∧ x.tries + 1 = 8) ∧
    (∃ (s : State) (i : Nat), linkUp s.pkg i = true ∧ (port s.pkg i).accepted ≠ 0) ∧
    (∃ (s : State) (i : Nat) (cls : Nat) (vc : Nat) (k : Nat), linkUp s.pkg i = true ∧ cls < 4 ∧ vc < 4 ∧ k = 4 * cls +
      vc) ∧
    (∃ (s : State) (i : Nat) (cause : Nat), linkUp s.pkg i = true) ∧
    (∃ (s : State) (i : Nat), linkUp s.pkg i = true ∧ (port s.pkg i).lastRx + 10000 ≤ s.pkg.pace.datum) ∧
    (∃ (s : State) (i : Nat), linkUp s.pkg i = true ∧ s.pkg.pace.datum < (port s.pkg i).lastRx + 10000) ∧
    (∃ (s : State) (i : Nat) (since : Nat), i < 6 ∧ (port s.pkg i).downAt = some since ∧ linkUp s.pkg i = false ∧ since
      + 1000000 ≤ s.pkg.pace.datum) ∧
    (∃ (s : State) (i : Nat) (dir : Nat) (lane : Nat), i < 6 ∧ dir < 2 ∧ lane < 9 ∧ (bit s.pkg (lanesKey i dir) lane =
      true ∨ fld s.pkg (lanesKey i dir) 21 18 = lane)) ∧
    (∃ (s : State) (i : Nat) (lane : Nat), linkUp s.pkg i = true ∧ lane < 9 ∧ bit s.pkg (lanesKey i 0) lane = true) ∧
    (∃ (s : State) (i : Nat) (dir : Nat) (lane : Nat), linkUp s.pkg i = true ∧ dir < 2 ∧ lane < 9 ∧ bit s.pkg (lanesKey
      i dir) lane = false ∧ bit s.pkg (lanesKey i dir) (9 + lane) = false ∧ laneWidth s.pkg i dir < 8 ∧ laneAddOn s.pkg
      i = true) ∧
    (∃ (s : State) (i : Nat) (dir : Nat) (lane : Nat), linkUp s.pkg i = true ∧ dir < 2 ∧ lane < 9 ∧ bit s.pkg (lanesKey
      i dir) lane = false ∧ bit s.pkg (lanesKey i dir) (9 + lane) = false ∧ laneWidth s.pkg i dir < 8 ∧ laneAddOn s.pkg
      i = true) ∧
    (∃ (s : State) (i : Nat) (dir : Nat) (lane : Nat), linkUp s.pkg i = true ∧ dir < 2 ∧ lane < 9 ∧ bit s.pkg (lanesKey
      i dir) lane = false ∧ bit s.pkg (lanesKey i dir) (9 + lane) = false ∧ 8 ≤ laneWidth s.pkg i dir) :=
  ⟨⟨make [put (pgPl 5) 0x100 0x18000000], 5, 31, 0, 3, 2, 1, 1, 255, 100, goodLanes (make [put (pgPl 5) 0x100
      0x18000000]).pkg 5 0 (31), goodLanes (make [put (pgPl 5) 0x100 0x18000000]).pkg 5 1 (0), by decide +kernel⟩,
    ⟨make [put (pgPl 5) 0x100 0x28000000], 5, 63, 0, 3, 2, 1, 1, 255, 100, goodLanes (make [put (pgPl 5) 0x100
      0x28000000]).pkg 5 0 (63), goodLanes (make [put (pgPl 5) 0x100 0x28000000]).pkg 5 1 (0), by decide +kernel⟩,
    ⟨make [put (pgPl 5) 0x100 0x88000000], 5, 0, 0, 3, 2, 3, 2, 255, 100, goodLanes (make [put (pgPl 5) 0x100
      0x88000000]).pkg 5 0 (0), goodLanes (make [put (pgPl 5) 0x100 0x88000000]).pkg 5 1 (0), by decide +kernel⟩,
    ⟨stPTCFASL3, 5,
      ({ seq := 0, ackSeq := 0, ackNak := 0, kind := 1, crSel := 0, crValid := false, credit := 0, slots := [msg0] }),
      by decide +kernel⟩,
    ⟨stPTCFASL4, 5,
      ({ seq := 65535, ackSeq := 0, ackNak := 0, kind := 1, crSel := 0, crValid := false, credit := 0, slots := [msg0] }),
      by decide +kernel⟩,
    ⟨stPTCFASL5, 5,
      ({ seq := 5, ackSeq := 0, ackNak := 0, kind := 1, crSel := 0, crValid := false, credit := 0, slots := [msg0] }),
      by decide +kernel⟩,
    ⟨stPTCFASL6, 5, 2, port (ackTo stPTCFASL6.pkg 5 2) 5, by decide +kernel⟩,
    ⟨stPTCFASL7, 5, port stPTCFASL7.pkg 5, by decide +kernel, rfl, by decide +kernel⟩,
    ⟨stPTCFASL8, 5, port stPTCFASL8.pkg 5, by decide +kernel, rfl, by decide +kernel⟩,
    ⟨stPTCFASL9, 5, by decide +kernel⟩,
    ⟨stPTCFASL3, 5, 3, 3, 15, by decide +kernel⟩,
    ⟨stPTCFASL3, 5, 0, by decide +kernel⟩,
    ⟨stPTCFASL12, 5, by decide +kernel⟩,
    ⟨stPTCFASL13, 5, by decide +kernel⟩,
    ⟨stPTCFASL14, 5, 7, by decide +kernel⟩,
    ⟨stPTCFASL15, 5, 1, 8, by decide +kernel⟩,
    ⟨stPTCFASL16, 5, 8, by decide +kernel⟩,
    ⟨stPTCFASL17, 5, 1, 8, by decide +kernel⟩,
    ⟨stPTCFASL17, 5, 1, 8, by decide +kernel⟩,
    ⟨stPTCFASL19, 5, 1, 8, by decide +kernel⟩⟩

def stMARSAA0 : State := make [fun p => { p with rt := { p.rt with inject := [msg0] } }, put pgRt 0x104 1]
def stMARSAA1 : State := make [fun p =>
  { p with
    rt := { p.rt with
      inject := [{ msg0 with dest := 3 }], bearing := [(3, 5)], ports := [(5, { PortSt.empty with trained := true })] } },
  put pgRt 0x104 1, put (pgPl 5) 0x100 0x40000000]
def stMARSAA2 : State := make [fun p => { p with rt := { p.rt with inject := [{ msg0 with dest := 3 }] } }, put pgRt 0x104 1]
def stMARSAA3 : State := make [fun p =>
  { p with rt := { p.rt with ports := [(5, { PortSt.empty with trained := true, rx := [msg0] })] } }, put pgRt 0x104 1]
def linkClear (p : Pkg) : Pkg :=
  let x := { Path.initial 32 with limit := 32 }
  { up (pgHbm 0) 2 (up (pgHbm 1) 2 p) with paths := [(0x20000, x), (0x2000A, x), (0x2000B, x)] }
def stMARSAA4 : State :=
  { make [linkClear, fun p => { p with rt := { p.rt with landed := [(msg0, 0x100000001008)] } }] with
    mem := mem 0x100000001000 160 5 }
def stMARSAA5 : State :=
  { make [linkClear, fun p => { p with rt := { p.rt with landed := [({ msg0 with op := 2 }, 0x100000001000)] } }] with
    mem := mem 0x100000001000 160 5 }
def stMARSAA6 : State :=
  { make [linkClear, fun p => { p with
    rt := { p.rt with landed := [({ msg0 with op := 3, payload := 7 }, 0x100000001008)] } }] with
      mem := mem 0x100000001000 160 5 }
def stMARSAA7 : State :=
  { make [linkClear, fun p => { p with
    rt := { p.rt with landed := [({ msg0 with op := 4, payload := 7 }, 0x100000001008)] } }] with
      mem := mem 0x100000001000 160 5 }
def stMARSAA8 : State :=
  { make [linkClear, fun p => { p with
    rt := { p.rt with landed := [({ msg0 with op := 7, payload := 1, recs := [.full 7] }, 0x100000001000)] } }] with
      mem := mem 0x100000001000 160 5 }
def stMARSAA9 : State := make [fun p =>
  { p with
    rt := { p.rt with
      arrived := [{ msg0 with op := 5, payload := 0x1234 }], acc := [(2 ^ 21 * 2 + 9, ⟨.coreLoad 47 5 8 false 0x5000, { msg0
        with window := 5, offset := 64 }, 5, 0, 0, 1024, 0⟩)] } }]
def stMARSAA10 : State := make [fun p =>
  { p with
    rt := { p.rt with
      arrived := [{ msg0 with op := 6 }], acc := [(2 ^ 21 * 2 + 9, ⟨.coreStore 47 0x5000, { msg0 with op := 3 }, 5, 0, 0,
        1024, 0⟩)] } }]
def stMARSAA11 : State := make [fun p => { p with rt := { p.rt with arrived := [{ msg0 with op := 5 }] } }]
def stMARSAA12 : State := make [fun p => { p with rt := { p.rt with arrived := [{ msg0 with op := 6 }] } }]
def stMARSAA13 : State := make [fun p => { p with rt := { p.rt with arrived := [{ msg0 with op := 8, payload := 0x33 }] } }]

theorem test_witness_MessagesAreRoutedServedAndAnswered :
    (∃ (s : State) (port' : Nat) (m : Msg), 6 ≤ port' ∧ s.pkg.rt.inject.contains m = true ∧ m.dest = thisNode s.pkg) ∧
    (∃ (s : State) (port' : Nat) (m : Msg) (i : Nat) (alt : Bool), 6 ≤ port' ∧ s.pkg.rt.inject.contains m = true ∧
      m.dest ≠ thisNode s.pkg ∧ pickPort s.pkg (SMap.get s.pkg.rt.bearing m.dest 0x1FF) = some (i, alt) ∧ m.hops ≠ 0) ∧
    (∃ (s : State) (port' : Nat) (m : Msg), 6 ≤ port' ∧ s.pkg.rt.inject.contains m = true ∧ m.dest ≠ thisNode s.pkg ∧
      (pickPort s.pkg (SMap.get s.pkg.rt.bearing m.dest 0x1FF) = none ∨ m.hops = 0) ∧ m.op ≠ 8) ∧
    (∃ (s : State) (i : Nat) (m : Msg), i < 6 ∧ nextRx (port s.pkg i) m = true ∧ m.dest = thisNode s.pkg) ∧
    (∃ (s : State) (m : Msg) (pa : Nat), landedAt s.pkg m = some pa ∧ m.op = 1 ∧ fateFor s.pkg (idNode m.src) pa false
      = .served ∧ (dirLine s.pkg (pa / 64)).host ≠ 2) ∧
    (∃ (s : State) (m : Msg) (pa : Nat), landedAt s.pkg m = some pa ∧ m.op = 2 ∧ fateFor s.pkg (idNode m.src) pa true =
      .served ∧ hostHolds s.pkg pa = false) ∧
    (∃ (s : State) (m : Msg) (pa : Nat), landedAt s.pkg m = some pa ∧ m.op = 3 ∧ fateFor s.pkg (idNode m.src) pa false
      = .served ∧ hostHolds s.pkg pa = false) ∧
    (∃ (s : State) (m : Msg) (pa : Nat), landedAt s.pkg m = some pa ∧ m.op = 4 ∧ m.arg ≤ 1 ∧ pa % 8 = 0 ∧ fateFor s.pkg
      (idNode m.src) pa false = .served ∧ hostHolds s.pkg pa = false ∧ s.mem.poisoned pa 8 = false) ∧
    (∃ (s : State) (m : Msg) (pa : Nat), landedAt s.pkg m = some pa ∧ m.op = 7 ∧ (colLines m pa).any (fun a => fateFor
      s.pkg (idNode m.src) a false == .waits) = false ∧ (colLines m pa).any (hostHolds s.pkg) = false) ∧
    (∃ (s : State) (m : Msg) (r : Remote) (h : Nat) (rd : Nat) (size : Nat) (signed : Bool) (va : W64),
      s.pkg.rt.arrived.contains m = true ∧ m.op = 5 ∧ remoteAt s.pkg (remoteKey m.src m.tag) = some r ∧ r.msg.op = 1 ∧
      r.who = .coreLoad h rd size signed va ∧ m.poison = false ∧ 0 < rd) ∧
    (∃ (s : State) (m : Msg) (r : Remote) (h : Nat) (va : W64), s.pkg.rt.arrived.contains m = true ∧ m.op = 6 ∧
      remoteAt s.pkg (remoteKey m.src m.tag) = some r ∧ r.msg.op ≠ 1 ∧ r.who = .coreStore h va) ∧
    (∃ (s : State) (m : Msg), s.pkg.rt.arrived.contains m = true ∧ remoteAt s.pkg (remoteKey m.src m.tag) = none ∧ m.op
      = 5) ∧
    (∃ (s : State) (m : Msg), s.pkg.rt.arrived.contains m = true ∧ remoteAt s.pkg (remoteKey m.src m.tag) = none ∧ m.op
      = 6) ∧
    (∃ (s : State) (m : Msg), s.pkg.rt.arrived.contains m = true ∧ m.op = 8 ∧ bitsOf m.payload 7 0 ≠ 1) :=
  ⟨⟨stMARSAA0, 6, msg0, by decide +kernel⟩,
    ⟨stMARSAA1, 6, ({ msg0 with dest := 3 }), 5, false, by decide +kernel⟩,
    ⟨stMARSAA2, 6, ({ msg0 with dest := 3 }), by decide +kernel⟩,
    ⟨stMARSAA3, 5, msg0, by decide +kernel⟩,
    ⟨stMARSAA4, msg0, 0x100000001008, by decide +kernel⟩,
    ⟨stMARSAA5, ({ msg0 with op := 2 }), 0x100000001000, by decide +kernel⟩,
    ⟨stMARSAA6, ({ msg0 with op := 3, payload := 7 }), 0x100000001008, by decide +kernel⟩,
    ⟨stMARSAA7, ({ msg0 with op := 4, payload := 7 }), 0x100000001008, by decide +kernel⟩,
    ⟨stMARSAA8, ({ msg0 with op := 7, payload := 1, recs := [.full 7] }), 0x100000001000, by decide +kernel⟩,
    ⟨stMARSAA9, ({ msg0 with op := 5, payload := 0x1234 }), ⟨.coreLoad 47 5 8 false 0x5000,
      { msg0 with window := 5, offset := 64 }, 5, 0, 0, 1024, 0⟩, 47, 5, 8, false, 0x5000, by decide +kernel⟩,
    ⟨stMARSAA10, ({ msg0 with op := 6 }), ⟨.coreStore 47 0x5000, { msg0 with op := 3 }, 5, 0, 0, 1024, 0⟩, 47, 0x5000,
      by decide +kernel⟩,
    ⟨stMARSAA11, ({ msg0 with op := 5 }), by decide +kernel⟩,
    ⟨stMARSAA12, ({ msg0 with op := 6 }), by decide +kernel⟩,
    ⟨stMARSAA13, ({ msg0 with op := 8, payload := 0x33 }), by decide +kernel⟩⟩

def stPDATRIW1 : State := make [put (pgPl 5) 0x100 0x40000000, fun p =>
  { p with rt := { p.rt with bearing := [(3, 5)], ports := [(5, { PortSt.empty with trained := true })] } }]
def stPDATRIW5 : State := make [put (pgPl 5) 0x100 0x50000000, fun p =>
  { p with rt := { p.rt with  ports := [(5, { PortSt.empty with answered := true })] } }]
def stPDATRIW6 : State := make [put (pgPl 5) 0x100 0x50000000, fun p =>
  { p with rt := { p.rt with  ports := [(5, { PortSt.empty with queued := [msg0] })] } }]
def stPDATRIW7 : State := make [put (pgPl 5) 0x100 0x60000000, fun p =>
  { p with rt := { p.rt with  ports := [(5, { PortSt.empty with trained := true })] } }]
def stPDATRIW10 : State := make [put (pgPl 5) 0x100 0x40000000, fun p =>
  { p with rt := { p.rt with  ports := [(5, { PortSt.empty with flashEnd := some 7 })] } }]
def stPDATRIW11 : State := make [put (pgPl 5) 8 0x201, put (pgPl 5) 0x100 0x48000000, fun p =>
  { p with rt := { p.rt with  ports := [(5, { PortSt.empty with trained := true })] } }]
def stPDATRIW12 : State := make [put (pgPl 5) 8 0x201, put (pgPl 5) 0x100 0x68000000, fun p =>
  { p with rt := { p.rt with  ports := [(5, { PortSt.empty with trained := true })] } }]
def stPDATRIW14 : State := make [put (pgPl 5) 0x100 0x48000000, fun p =>
  { p with rt := { p.rt with  ports := [(5, { PortSt.empty with trained := true })] } }]
def stPDATRIW16 : State := make [up pgRt 2, put pgRt 8 0x201, put pgRt 0x110 16383]
def stPDATRIW18 : State := make [fun p => { p with rt := { p.rt with nodeLocked := true } }, put pgRt 8 0x201]
def stPDATRIW19 : State := make [up pgRt 2, put (groupPage 255) 8 0x200, put pgRt 8 0x201]
def stPDATRIW20 : State := make [up pgRt 2, put (groupPage 255) 8 0x200, put pgRt 8 0x201, ringed (dsc 4 (255 * 2 ^ 336))
  (fun c => { c with collPhase := 2 })]

theorem test_witness_PortsDrainAndTheRouterIsWritten :
    (∃ (s : State) (i : Nat), i < 6 ∧ bit s.pkg (key pgOps 0x100) 31 = true) ∧
    (∃ (s : State) (i : Nat), i < 6 ∧ bit s.pkg (key pgOps 0x100) 31 = false ∧ plState s.pkg i = 4 ∧ lastPort s.pkg i =
      false) ∧
    (∃ (s : State) (i : Nat), i < 6 ∧ bit s.pkg (key pgOps 0x100) 31 = false ∧ plState s.pkg i = 4 ∧ lastPort s.pkg i =
      true) ∧
    (∃ (s : State) (i : Nat), i < 6 ∧ bit s.pkg (key pgOps 0x100) 31 = false ∧ (plState s.pkg i = 2 ∨ plState s.pkg i =
      3)) ∧
    (∃ (s : State) (i : Nat), i < 6 ∧ plState s.pkg i = 4) ∧
    (∃ (s : State) (i : Nat), i < 6 ∧ plState s.pkg i = 5 ∧ (port s.pkg i).answered = false) ∧
    (∃ (s : State) (i : Nat), i < 6 ∧ plState s.pkg i = 5 ∧ (port s.pkg i).queued = [] ∧ (port s.pkg i).replay = [] ∧
      (port s.pkg i).answered = true ∧ (port s.pkg i).drainAt + 500000000 ≤ s.pkg.pace.datum) ∧
    (∃ (s : State) (i : Nat), i < 6 ∧ plState s.pkg i = 5 ∧ (port s.pkg i).drainAt + 2000000000 ≤ s.pkg.pace.datum) ∧
    (∃ (s : State) (i : Nat), i < 6 ∧ (plState s.pkg i = 5 ∨ plState s.pkg i = 6) ∧ (port s.pkg i).trained = true) ∧
    (∃ (s : State) (i : Nat), i < 6 ∧ (plState s.pkg i = 5 ∨ plState s.pkg i = 6) ∧ (port s.pkg i).trained = true) ∧
    (∃ (s : State) (i : Nat), i < 6 ∧ (plState s.pkg i = 5 ∨ plState s.pkg i = 6) ∧ (port s.pkg i).trained = false) ∧
    (∃ (s : State) (i : Nat) (x : _), i < 6 ∧ (port s.pkg i).flashEnd = some x ∧ x ≤ s.pkg.pace.datum) ∧
    (∃ (s : State) (rq : Requester) (i : Nat) (v : W32) (b : W64), i < 6 ∧ writeFate s.pkg rq (pgPl i) 0x104 =
      .accepted ∧ b = v.setWidth 64 ∧ bitOf b 0 = true ∧ bitOf b 1 = false ∧ bitOf b 2 = plDisabled s.pkg i ∧ plState
      s.pkg i = 4 ∧ lastPort s.pkg i = false) ∧
    (∃ (s : State) (rq : Requester) (i : Nat) (v : W32) (b : W64), i < 6 ∧ writeFate s.pkg rq (pgPl i) 0x104 =
      .accepted ∧ b = v.setWidth 64 ∧ bitOf b 0 = false ∧ bitOf b 1 = true ∧ bitOf b 2 = plDisabled s.pkg i ∧ (plState
      s.pkg i = 5 ∨ plState s.pkg i = 6)) ∧
    (∃ (s : State) (rq : Requester) (i : Nat) (v : W32) (b : W64), i < 6 ∧ writeFate s.pkg rq (pgPl i) 0x104 =
      .accepted ∧ b = v.setWidth 64 ∧ bitOf b 0 = false ∧ bitOf b 1 = false ∧ bitOf b 2 = true ∧ plDisabled s.pkg i =
      false) ∧
    (∃ (s : State) (i : Nat), i < 6 ∧ cable s.pkg i = true ∧ (plState s.pkg i = 0 → (port s.pkg i).trained = false)) ∧
    (∃ (s : State) (i : Nat), i < 6 ∧ cable s.pkg i = false ∧ plDisabled s.pkg i = false ∧ s.pkg.seq.lasers = true) ∧
    (∃ (s : State) (rq : Requester) (v : W32), writeFate s.pkg rq pgRt 0x114 = .accepted) ∧
    (∃ (s : State) (rq : Requester) (v : W32), writeFate s.pkg rq pgRt 0x104 = .accepted ∧ s.pkg.rt.nodeLocked = false) ∧
    (∃ (s : State) (rq : Requester) (v : W32), writeFate s.pkg rq pgRt 0x104 = .accepted ∧ s.pkg.rt.nodeLocked = true) ∧
    (∃ (s : State) (rq : Requester) (g : Nat) (word : Nat) (k : Nat) (v : W64), g < 256 ∧ word < 2 ∧ writeFate s.pkg rq
      (groupPage g) (groupOff g word) = .accepted ∧ k = key (groupPage g) (groupOff g word) ∧ groupBusy s.pkg g = false) ∧
    (∃ (s : State) (rq : Requester) (g : Nat) (word : Nat) (k : Nat) (v : W64), g < 256 ∧ word < 2 ∧ writeFate s.pkg rq
      (groupPage g) (groupOff g word) = .accepted ∧ k = key (groupPage g) (groupOff g word) ∧ groupBusy s.pkg g = true) :=
  ⟨⟨make [put pgOps 0x100 0x80000000], 5, by decide +kernel⟩,
    ⟨make [put (pgPl 5) 0x100 0x40000000], 5, by decide +kernel⟩,
    ⟨stPDATRIW1, 5, by decide +kernel⟩,
    ⟨make [put (pgPl 5) 0x100 0x30000000], 5, by decide +kernel⟩,
    ⟨make [put (pgPl 5) 0x100 0x40000000], 5, by decide +kernel⟩,
    ⟨make [put (pgPl 5) 0x100 0x50000000], 5, by decide +kernel⟩,
    ⟨stPDATRIW5, 5, by decide +kernel⟩,
    ⟨stPDATRIW6, 5, by decide +kernel⟩,
    ⟨stPDATRIW7, 5, by decide +kernel⟩,
    ⟨stPDATRIW7, 5, by decide +kernel⟩,
    ⟨make [put (pgPl 5) 0x100 0x60000000], 5, by decide +kernel⟩,
    ⟨stPDATRIW10, 5, 7, by decide +kernel⟩,
    ⟨stPDATRIW11, .kernel, 5, 1, 1, by decide +kernel⟩,
    ⟨stPDATRIW12, .kernel, 5, 2, 2, by decide +kernel⟩,
    ⟨stPDATRIW11, .kernel, 5, 4, 4, by decide +kernel⟩,
    ⟨stPDATRIW14, 5, by decide +kernel⟩,
    ⟨make [], 5, by decide +kernel⟩,
    ⟨stPDATRIW16, .kernel, 0xABC, by decide +kernel⟩,
    ⟨make [put pgRt 8 0x201], .kernel, 0xFFFF, by decide +kernel⟩,
    ⟨stPDATRIW18, .kernel, 0xFFFF, by decide +kernel⟩,
    ⟨stPDATRIW19, .kernel, 255, 1, key (groupPage 255) (groupOff 255 1), 0xFFFFFFFFFFFFFFFF, by decide +kernel⟩,
    ⟨stPDATRIW20, .kernel, 255, 1, key (groupPage 255) (groupOff 255 1), 5, by decide +kernel⟩⟩

/-- Command 9 of ring 1 of context 2 is in the ring phase of a REDUCE_SCATTER of group 5, of `size` nodes, this one of rank 0. -/
def ringPhase (size : Nat) (g : Cmd → Cmd) : State :=
  { make [up (pgHbm 0) 2, up (pgHbm 1) 2, engine 0 [] [] [] (fun c => c) (fun c => g { c with
    desc := dsc 4 (opr 3 0x3000 3 + opr 4 0x4000 3 + 2 * 2 ^ 256 + 15 * 2 ^ 296 + 2 * 2 ^ 320 + 5 * 2 ^ 336), pages := [pageH
      3 3, pageH 4 4], collPhase := 2, ctx := 2, ring := 1 }), atKey (groupKey 5 0) (BitVec.ofNat 64 (2 ^ 63 + size * 2 ^ 48
        + 0 * 2 ^ 32 + 7 * 2 ^ 16 + 8)), atKey (groupKey 5 1) (BitVec.ofNat 64 (6 * 2 ^ 16 + 5)), atKey (windowKey 5)
          (BitVec.ofNat 64 (15 * 2 ^ 60 + 4 * 2 ^ 32 + 7 * 2 ^ 16))] with
            mem := ⟨cellsOf 0x100000003000 192 7 (cellsOf 0x100000004000 192 9 []), [], []⟩ }
def stRPSWAE0 : State := ringPhase 2 (fun c => { c with remoteLeft := 1 })
def stRPSWAE1 : State := ringPhase 2 (fun c => { c with collStep := 1 })
def stRPSWAE2 : State := ringPhase 1 (fun c => { c with remoteLeft := 1 })
def stRPSWAE3 : State := ringPhase 2 (fun c => { c with collStep := 2 })
def stRPSWAE4 : State := ringPhase 2 (fun c => { c with remoteLeft := 1, collStep := 1, waitSince := 7 })
def stRPSWAE5 : State := ringPhase 2 (fun c => { c with remoteLeft := 1, waitSince := 4500000000 })

theorem test_witness_RingPhasesSendWaitAndEnd :
    (∃ (s : State) (id : Nat) (size : Nat) (rank : Nat) (first : Nat) (count : Nat) (c0 : Cmd) (c : Cmd) (recs : List
      Rec) (p : Pkg) (q : Pkg), inRing s.pkg id = true ∧ ringTaken s.pkg id = true ∧ c0 = cmd s.pkg id ∧ c = (if
      c0.remoteLeft = 1 then c0 else { c0 with remoteLeft := 1, waitSince := timerNow s.pkg }) ∧ p = (if c0.remoteLeft =
      1 then s.pkg else setCmd s.pkg id c) ∧ size = groupSize s.pkg (reduceGroup c.desc) ∧ rank = groupRank s.pkg
      (reduceGroup c.desc) ∧ 2 ≤ size ∧ c.collStep = 0 ∧ c.progress = 0 ∧ senderCheck p (collWindow s.pkg c) 2 (some
      c.ctx) = none ∧ (first, count) = segment (reduceRecords c.desc) (rank % size) size ∧ 0 < count ∧ count ≤ 256 ∧
      remoteCount p (collNext p c) < 1024 ∧ collRecs p s.mem c [3, 4] first count = (some (recs, none), q)) ∧
    (∃ (s : State) (id : Nat) (size : Nat) (rank : Nat) (st : Nat) (seg : Nat) (c : Cmd), inRing s.pkg id = true ∧
      ringTaken s.pkg id = true ∧ c = cmd s.pkg id ∧ size = groupSize s.pkg (reduceGroup c.desc) ∧ rank = groupRank
      s.pkg (reduceGroup c.desc) ∧ c.collStep < ringSteps size (reduceAlgo c.desc) ∧ ringAwaits size rank c.collStep =
      some (st, seg) ∧ stepLanded s.pkg c size st seg = false) ∧
    (∃ (s : State) (id : Nat) (first : Nat) (count : Nat) (c0 : Cmd) (c : Cmd) (recs : List Rec) (p : Pkg) (q : Pkg),
      inRing s.pkg id = true ∧ ringTaken s.pkg id = true ∧ c0 = cmd s.pkg id ∧ c = (if c0.remoteLeft = 1 then c0 else
      { c0 with remoteLeft := 1, waitSince := timerNow s.pkg }) ∧ p = (if c0.remoteLeft = 1 then s.pkg else setCmd s.pkg
      id c) ∧ groupSize s.pkg (reduceGroup c.desc) = 1 ∧ c.collStep = 0 ∧ (first, count) = segment (reduceRecords
      c.desc) ((groupRank s.pkg (reduceGroup c.desc) + 1) % 1) 1 ∧ stagingHeld p c first count = [] ∧ collRecs p s.mem c
      [3, 4] first count = (some (recs, none), q)) ∧
    (∃ (s : State) (id : Nat) (c : Cmd), inRing s.pkg id = true ∧ c = cmd s.pkg id ∧ ringSteps (groupSize s.pkg
      (reduceGroup c.desc)) (reduceAlgo c.desc) ≤ c.collStep ∧ ringArrived s.pkg c = true ∧ (remotesOf s.pkg (fun r => r
      == .step id)).isEmpty = true) ∧
    (∃ (s : State) (id : Nat) (c : Cmd), inRing s.pkg id = true ∧ c = cmd s.pkg id ∧ awaitsArrival s.pkg c = true ∧
      c.waitSince + 1000000000 ≤ timerNow s.pkg) ∧
    (∃ (s : State) (id : Nat) (c : Cmd), inRing s.pkg id = true ∧ c = cmd s.pkg id ∧ (awaitsArrival s.pkg c = false ∨
      timerNow s.pkg < c.waitSince + 1000000000)) :=
  ⟨⟨stRPSWAE0, 9, 2, 0, 0, 1, cmd stRPSWAE0.pkg 9, cmd stRPSWAE0.pkg 9, ((collRecs stRPSWAE0.pkg stRPSWAE0.mem (cmd
      stRPSWAE0.pkg 9) [3, 4] 0 1).1.map (fun x => x.1)).getD [], stRPSWAE0.pkg, (collRecs stRPSWAE0.pkg stRPSWAE0.mem
      (cmd stRPSWAE0.pkg 9) [3, 4] 0 1).2, by decide +kernel, by decide +kernel, rfl, by decide +kernel, rfl, by
      decide +kernel, by decide +kernel, by decide +kernel, by decide +kernel, by decide +kernel, by decide +kernel, by
      decide +kernel, by decide +kernel, by decide +kernel, by decide +kernel, pair_of_fst _ _ (by decide +kernel)⟩,
    ⟨stRPSWAE1, 9, 2, 0, 0, 1, cmd stRPSWAE1.pkg 9, by decide +kernel⟩,
    ⟨stRPSWAE2, 9, 0, 2, cmd stRPSWAE2.pkg 9, cmd stRPSWAE2.pkg 9, ((collRecs stRPSWAE2.pkg stRPSWAE2.mem (cmd
      stRPSWAE2.pkg 9) [3, 4] 0 2).1.map (fun x => x.1)).getD [], stRPSWAE2.pkg, (collRecs stRPSWAE2.pkg stRPSWAE2.mem
      (cmd stRPSWAE2.pkg 9) [3, 4] 0 2).2, by decide +kernel, by decide +kernel, rfl, by decide +kernel, rfl, by
      decide +kernel, by decide +kernel, by decide +kernel, by decide +kernel, pair_of_fst _ _ (by decide +kernel)⟩,
    ⟨stRPSWAE3, 9, cmd stRPSWAE3.pkg 9, by decide +kernel⟩,
    ⟨stRPSWAE4, 9, cmd stRPSWAE4.pkg 9, by decide +kernel, rfl, by decide +kernel⟩,
    ⟨stRPSWAE5, 9, cmd stRPSWAE5.pkg 9, by decide +kernel, rfl, by decide +kernel⟩⟩

def stRBATAF0 : State := make [fun p => { p with pwr := { p.pwr with wanted := [(4, 700)], railMv := [] } }]
def stRBATAF1 : State := make [fun p =>
  { p with pwr := { p.pwr with wanted := [(4, 700)], lastWrite := [(4, 4999999999)] } }]
def stRBATAF9 : State := make [fun p => { p with pwr := { p.pwr with demands := [(9, (3, 100000))] } }]
def stRBATAF17 : State := make [put pgPwr 8 0x201, fun p => { p with pwr := { p.pwr with contours := [(0, ⟨1, 2, 3, 4⟩)] } }]

theorem test_witness_RailsBudgetsAndTemperaturesAreFollowed :
    (∃ (s : State) (r : Nat) (k : Nat) (mv : Nat), r < 5 ∧ mv < 1024 ∧ s.pkg.pwr.wanted.find? (fun x => x.1 == r) =
      some (k, mv) ∧ (∀ y, s.pkg.pwr.lastWrite.find? (fun x => x.1 == r) = some y → y.2 + 50000 ≤ s.pkg.pace.datum)) ∧
    (∃ (s : State) (r : Nat) (k : Nat) (mv : Nat) (y : Nat × Nat), r < 5 ∧ mv < 1024 ∧ s.pkg.pwr.wanted.find? (fun x =>
      x.1 == r) = some (k, mv) ∧ s.pkg.pwr.lastWrite.find? (fun x => x.1 == r) = some y ∧ s.pkg.pace.datum < y.2 + 50000) ∧
    (∃ (s : State) (r : Nat) (mv : Nat) (amps : Nat), r < 5 ∧ mv < 1024 ∧ amps < 2048) ∧
    (∃ (s : State) (r : Nat) (mv : Nat) (amps : Nat), r < 5 ∧ mv < 1024 ∧ amps < 2048) ∧
    (∃ (s : State) (r : Nat) (mv : Nat) (amps : Nat) (settled : Bool), r < 5 ∧ mv < 1024 ∧ amps < 2048) ∧
    (∃ (s : State) (us1 : Nat) (ms1 : Nat), effective s.pkg 0 < ms1 ∧ s.pkg.pwr.overSince = none) ∧
    (∃ (s : State) (us1 : Nat) (ms1 : Nat), min 1020 (effective s.pkg 0 * 12 / 10) < us1) ∧
    (∃ (s : State) (hbm : Nat) (link : Nat) (host : Nat) (proc : Nat) (r : Int) (demand : List Nat) (shares : List
      Nat), r = ((effective s.pkg 0 : Int) - hbm - link - host) * 1000 ∧ demand = (List.range 5).map (fun i => if i < 4
      then sheetDemand s.pkg i else proc * 1000) ∧ shares = shareCap r demand ((List.range 4).map (fun i => contourSum
      s.pkg i true))) ∧
    (∃ (r : Int) (demand : List Nat) (inter : List Nat), r ≤ 0) ∧
    (∃ (r : Nat) (demand : List Nat) (inter : List Nat) (i : Nat), i < 5) ∧
    (∃ (s : State) (die : Nat) (tj : Nat), die < 5 ∧ effective s.pkg 2 < tj) ∧
    (∃ (s : State) (stack : Nat) (temp : Nat), stack < 8) ∧
    (∃ (s : State) (hottest : Nat), hottest < 90) ∧
    (∃ (s : State) (hottest : Nat), 90 ≤ hottest) ∧
    (∃ (s : State), bit s.pkg pwrStatus 27 = false) ∧
    (∃ (s : State) (rq : Requester) (v : W32), writeFate s.pkg rq pgPwr 0x2A0 = .accepted) :=
  ⟨⟨stRBATAF0, 4, 4, 700, by decide +kernel, by decide +kernel, by decide +kernel,
      (by intro y hy; cases (show none = some y from hy))⟩,
    ⟨stRBATAF1, 4, 4, 700, ((4, 4999999999) : Nat × Nat), by decide +kernel⟩,
    ⟨make [], 4, 1023, 2047, by decide +kernel⟩,
    ⟨make [], 4, 1023, 2047, by decide +kernel⟩,
    ⟨make [put pgPwr 0x324 65535], 4, 1023, 2047, true, by decide +kernel⟩,
    ⟨make [], 1000, 900, by decide +kernel⟩,
    ⟨make [], 1021, 100, by decide +kernel⟩,
    ⟨stRBATAF9, 40, 30, 20, 50, (((effective stRBATAF9.pkg 0 : Int) - 40 - 30 - 20) * 1000), (List.range 5).map (fun
      i => if i < 4 then sheetDemand stRBATAF9.pkg i else 50 * 1000), (shareCap (((effective stRBATAF9.pkg 0 : Int)
      - 40 - 30 - 20) * 1000) ((List.range 5).map (fun i => if i < 4 then sheetDemand stRBATAF9.pkg i else 50 * 1000))
      ((List.range 4).map (fun i => contourSum stRBATAF9.pkg i true))), by decide +kernel⟩,
    ⟨0, [1, 2, 3, 4, 5], [0, 0, 0, 0], by decide +kernel⟩,
    ⟨500000, [100000, 200000, 3000, 4000, 5000], [9, 0, 0, 0], 4, by decide +kernel⟩,
    ⟨make [], 4, 200, by decide +kernel⟩,
    ⟨make [], 7, 96, by decide +kernel⟩,
    ⟨make [put pgPwr 0x100 0x04000000], 89, by decide +kernel⟩,
    ⟨make [], 90, by decide +kernel⟩,
    ⟨make [put pgPwr 0x100 0], by decide +kernel⟩,
    ⟨stRBATAF17, .kernel, 3, by decide +kernel⟩⟩

def stSHIEAL0 : State := make [fun p => { p with seq := { p.seq with step5Done := true } }, put pgSv 0x100 0x20000000]
def stSHIEAL1 : State := make [fun p => { p with seq := { p.seq with step5Done := true } }, put pgSv 0x100 0x20000000, put
  pgPwr 0x100 0x08000000]
def stSHIEAL2 : State := make [fun p => { p with seq := { p.seq with step5Done := true } }, put pgSv 0x100 0x40000000]
def stSHIEAL3 : State := make [fun p => { p with seq := { p.seq with step5Done := true } }, put pgSv 0x100 0x40000000, put
  pgPwr 0x100 0x08000000]
def stSHIEAL4 : State := make [put pgPwr 8 0x201, fun p =>
  { p with pwr := { p.pwr with holdCause := 1, flowOkSince := some 7, gateClosed := true } }, put pgPwr 0x100 0x28000000,
  put pgSv 0x100 0x20000000]
def stSHIEAL8 : State := make [put pgPwr 0x100 0x30000000, put pgSv 0x100 0x20000000]

theorem test_witness_SafeHoldIsEnteredAndLeft :
    (∃ (s : State) (sensor : Nat), s.pkg.boot.started = true ∧ coreGoing s.pkg = false ∧ seqState s.pkg ≠ 4 ∧ (seqState
      s.pkg ≠ 1 ∨ s.pkg.seq.step5Done = true) ∧ pwrState s.pkg ≠ 1 ∧ pwrState s.pkg ≠ 2) ∧
    (∃ (s : State), bit s.pkg pwrStatus 27 = true ∧ coreGoing s.pkg = false ∧ seqState s.pkg ≠ 4 ∧ (seqState s.pkg ≠ 1
      ∨ s.pkg.seq.step5Done = true) ∧ pwrState s.pkg ≠ 1 ∧ pwrState s.pkg ≠ 2) ∧
    (∃ (s : State) (sensor : Nat), s.pkg.boot.started = true ∧ (coreGoing s.pkg = true ∨ seqState s.pkg = 4 ∨ pwrState
      s.pkg = 1 ∨ pwrState s.pkg = 2)) ∧
    (∃ (s : State), bit s.pkg pwrStatus 27 = true ∧ (coreGoing s.pkg = true ∨ seqState s.pkg = 4 ∨ pwrState s.pkg = 1 ∨
      pwrState s.pkg = 2)) ∧
    (∃ (s : State) (rq : Requester) (v : W32), writeFate s.pkg rq pgPwr 0x2C0 = .accepted ∧ bitOf v 0 = true ∧
      mayResume s.pkg = true ∧ asleep s.pkg = false) ∧
    (∃ (s : State) (rq : Requester) (v : W32), writeFate s.pkg rq pgPwr 0x2C0 = .accepted ∧ bitOf v 0 = true ∧
      mayResume s.pkg = false) ∧
    (∃ (s : State) (rq : Requester) (v : W32), writeFate s.pkg rq pgPwr 0x2C0 = .accepted ∧ bitOf v 0 = false) ∧
    (∃ (p : Pkg), (pwrState p ≠ 2 ∨ p.pwr.holdCause = 2 ∨ bit p pwrStatus 26 = true ∨ bit p pwrStatus 27 = false)) ∧
    (∃ (s : State), pwrState s.pkg = 3) :=
  ⟨⟨stSHIEAL0, 3, by decide +kernel⟩,
    ⟨stSHIEAL1, by decide +kernel⟩,
    ⟨stSHIEAL2, 3, by decide +kernel⟩,
    ⟨stSHIEAL3, by decide +kernel⟩,
    ⟨stSHIEAL4, .kernel, 1, by decide +kernel⟩,
    ⟨make [put pgPwr 8 0x201], .kernel, 1, by decide +kernel⟩,
    ⟨stSHIEAL4, .kernel, 2, by decide +kernel⟩,
    ⟨make0 [put pgPwr 0x100 0x24000000], by decide +kernel⟩,
    ⟨stSHIEAL8, by decide +kernel⟩⟩

def stMRAS0 : State := make [put pgSv 8 0x101, put 2 8 0x200, put 2 0x110 0x40000012, put 2 0x108 80]
def stMRAS1 : State := make [put pgSv 8 0x101, put 2 8 0x200, put 2 0x110 0x40000010, put 2 0x108 449]
def stMRAS2 : State := make [put pgSv 8 0x101, put 2 8 0x200, put 2 0x110 0x40000016, put 2 0x108 1, put pgQm 8 0x100]
def stMRAS3 : State := make [put pgSv 8 0x101, put 2 8 0x200, put 2 0x110 0x40000001, put 2 0x108 1, put pgHl 8 0x200]
def stMRAS4 : State := make [put pgSv 8 0x101, put 2 8 0x200, put 2 0x110 0x40000013, put 2 0x108 600, put pgHl 8 0x200]
def stMRAS5 : State := make [put pgSv 8 0x101, put 2 8 0x200, put 2 0x110 0x40000014, put 2 0x108 0x100DC, put pgQm 8 0x200]
def stMRAS6 : State := make [put pgSv 8 0x101, put 2 8 0x200, put 2 0x110 0x40000014, put 2 0x108 0x100DD, put pgQm 8 0x200]
def stMRAS7 : State := make [put pgSv 8 0x101, put 2 8 0x200, put 2 0x110 0x40000015, put 2 0x108 0, put pgQm 8 0x200, fun p
  => { p with pwr := { p.pwr with holdCause := 1, flowOkSince := some 7, gateClosed := true } }, put pgPwr 0x100 0x28000000]
def stMRAS8 : State := make [put pgSv 8 0x101, put 2 8 0x200, put 2 0x110 0x40000015, put 2 0x108 0, put pgQm 8 0x200]
def stMRAS9 : State := make [put pgSv 8 0x101, put 2 8 0x200, put 2 0x110 0x40000016, put 2 0x108 3, put pgQm 8 0x200]
def stMRAS10 : State := make [put pgSv 8 0x101, put 2 8 0x200, put 2 0x110 0x40000017, put 2 0x108 3]

theorem test_witness_MailboxRequestsAreServed :
    (∃ (s : State) (page : Nat) (limit : Nat) (cmd : Nat) (v : Nat) (arg : W64) (c : Instr), c = (if limit = 0 then
      .setPowerCap page arg else if limit = 1 then .setPaceCeiling page arg else .setThermalLimit page arg) ∧ limit < 3
      ∧ cmd = 0x10 + limit ∧ mboxWaits s.pkg page cmd arg = true ∧ mboxParty s.pkg page < 4 ∧ v = arg.toNat % 2 ^
      limitBits limit ∧ limitValueOk limit v = true) ∧
    (∃ (s : State) (page : Nat) (limit : Nat) (cmd : Nat) (v : Nat) (arg : W64) (c : Instr), c = (if limit = 0 then
      .setPowerCap page arg else if limit = 1 then .setPaceCeiling page arg else .setThermalLimit page arg) ∧ limit < 3
      ∧ cmd = 0x10 + limit ∧ mboxWaits s.pkg page cmd arg = true ∧ mboxParty s.pkg page < 4 ∧ v = arg.toNat % 2 ^
      limitBits limit ∧ limitValueOk limit v = false) ∧
    (∃ (s : State) (page : Nat) (cmd : Nat) (who : Nat) (arg : W64) (c : Instr), mboxWaits s.pkg page cmd arg = true ∧
      mboxParty s.pkg page ≠ owner s.pkg who ∧ ((c = .setPersonality page arg ∧ cmd = 0x01 ∧ who = pgHl) ∨ (c =
      .lowerPowerCeiling page arg ∧ cmd = 0x13 ∧ who = pgHl) ∨ (c = .setFixedPace page arg ∧ cmd = 0x14 ∧ who = pgQm) ∨
      (c = .safeHoldResume page arg ∧ cmd = 0x15 ∧ who = pgQm) ∨ (c = .contourControl page arg ∧ cmd = 0x16 ∧ who =
      pgQm))) ∧
    (∃ (s : State) (page : Nat) (arg : W64) (r : FbReq), mboxParty s.pkg page = owner s.pkg pgHl ∧ s.pkg.fuse.requests
      = [] ∧ fbJudge s.pkg.fuse r = .accept ∧ mboxWaits s.pkg page 0x01 arg = true ∧ r = ⟨1, mboxParty s.pkg page, 0, 0,
      arg.toNat % 2, page⟩) ∧
    (∃ (s : State) (page : Nat) (arg : W64) (r : FbReq), mboxParty s.pkg page = owner s.pkg pgHl ∧ s.pkg.fuse.requests
      = [] ∧ fbJudge s.pkg.fuse r = .accept ∧ mboxWaits s.pkg page 0x13 arg = true ∧ r = ⟨2, mboxParty s.pkg page, 0, 0,
      arg.toNat % 1024, page⟩) ∧
    (∃ (s : State) (page : Nat) (arg : W64), mboxParty s.pkg page = owner s.pkg pgQm ∧ mboxWaits s.pkg page 0x14 arg =
      true ∧ 100 ≤ bitsOf arg 7 0 ∧ bitsOf arg 7 0 ≤ 220) ∧
    (∃ (s : State) (page : Nat) (arg : W64), mboxParty s.pkg page = owner s.pkg pgQm ∧ mboxWaits s.pkg page 0x14 arg =
      true ∧ (bitsOf arg 7 0 < 100 ∨ 220 < bitsOf arg 7 0)) ∧
    (∃ (s : State) (page : Nat) (arg : W64), mboxParty s.pkg page = owner s.pkg pgQm ∧ mboxWaits s.pkg page 0x15 arg =
      true ∧ mayResume s.pkg = true) ∧
    (∃ (s : State) (page : Nat) (arg : W64), mboxParty s.pkg page = owner s.pkg pgQm ∧ mboxWaits s.pkg page 0x15 arg =
      true ∧ mayResume s.pkg = false) ∧
    (∃ (s : State) (page : Nat) (arg : W64), mboxParty s.pkg page = owner s.pkg pgQm ∧ mboxWaits s.pkg page 0x16 arg =
      true) ∧
    (∃ (s : State) (page : Nat) (cmd : Nat) (arg : W64), cmd ∉ mboxCodes ∧ mboxWaits s.pkg page cmd arg = true) :=
  ⟨⟨stMRAS0, 2, 2, 0x12, 80, 80, (if 2 = 0 then .setPowerCap 2 (80 : W64) else if 2 = 1 then .setPaceCeiling 2 (80 :
      W64) else .setThermalLimit 2 (80 : W64)), rfl, by decide +kernel⟩,
    ⟨stMRAS1, 2, 0, 0x10, 449, 449, (if 0 = 0 then .setPowerCap 2 (449 : W64) else if 0 = 1 then .setPaceCeiling 2
      (449 : W64) else .setThermalLimit 2 (449 : W64)), rfl, by decide +kernel⟩,
    ⟨stMRAS2, 2, 0x16, pgQm, 1, .contourControl 2 1, by decide +kernel⟩,
    ⟨stMRAS3, 2, 1, ⟨1, mboxParty stMRAS3.pkg 2, 0, 0, (1 : W64).toNat % 2, 2⟩, by decide +kernel, by decide +kernel,
      by decide +kernel, by decide +kernel, rfl⟩,
    ⟨stMRAS4, 2, 600, ⟨2, mboxParty stMRAS4.pkg 2, 0, 0, (600 : W64).toNat % 1024, 2⟩, by decide +kernel, by
      decide +kernel, by decide +kernel, by decide +kernel, rfl⟩,
    ⟨stMRAS5, 2, 0x100DC, by decide +kernel⟩,
    ⟨stMRAS6, 2, 0x100DD, by decide +kernel⟩,
    ⟨stMRAS7, 2, 0, by decide +kernel⟩,
    ⟨stMRAS8, 2, 0, by decide +kernel⟩,
    ⟨stMRAS9, 2, 3, by decide +kernel⟩,
    ⟨stMRAS10, 2, 0x17, 3, by decide +kernel⟩⟩

def stEACAULSAA0 : State := make [put pgXl 0x2C 0x05000001, fun p =>
  { p with fault := { p.fault with trackers := [(4 * pgXl, [(1, 2)])] } }]
def stEACAULSAA4 : State := make [put (pgCe 967) 8 0x201, fun p =>
  { p with ces := [(967, { Ce.empty with cmd := some 9 })] }]
def stEACAULSAA6 : State := make [put (pgCe 966) 8 0x21C, put (pgCe 966) 0xC 1]

theorem test_witness_ErrorsAreCountedAndUnitsLostSurveyedAndAdmitted :
    (∃ (s : State) (pg : Nat), present s.pkg pg = true ∧ firstPage pg = pg ∧ SMap.get s.pkg.fault.windowAt pg 0 +
      windowNs s.pkg pg ≤ s.pkg.pace.datum) ∧
    (∃ (s : State) (pg : Nat), s.pkg.pace.datum < SMap.get s.pkg.fault.windowAt pg 0 + windowNs s.pkg pg) ∧
    (∃ (s : State) (pg : Nat) (e : ErrArgs), present s.pkg pg = true ∧ firstPage pg = pg ∧ blockLogs pg e.code = true ∧
      e.code ≠ 0x02 ∧ ¬(e.code = 0x22 ∧ e.addrKind = 1) ∧ ddrCode s.pkg pg e = e ∧ escalate s.pkg pg e = (0, false) ∧
      thresholdHit s.pkg pg e = false ∧ thresholdAt s.pkg pg 1 e = false) ∧
    (∃ (s : State) (pg : Nat) (e : ErrArgs), present s.pkg pg = true ∧ firstPage pg = pg ∧ e.code = 0x02) ∧
    (∃ (s : State) (c : Nat) (e : ErrArgs), c < 8 ∧ present s.pkg (pgDdr c) = true ∧ e.code = 0x41 ∧ e.addrKind = 1 ∧
      escalate s.pkg (pgDdr c) e = (1, false) ∧ populated s.pkg e.addr = true ∧ inRepair s.pkg e.addr = false ∧
      replicaOf s.pkg e.addr = none) ∧
    (∃ (s : State) (n : Nat) (cause : Nat) (c : Instr), ceOk n = true ∧ present s.pkg (pgCe n) = true ∧ retired s.pkg
      (pgCe n) = false ∧ ((c = .ceLost n cause ∧ cause < 3) ∨ (c = .hubWatchdog n ∧ (ce s.pkg n).cmd.isSome = true ∧
      halted s.pkg (n / 256) = false))) ∧
    (∃ (s : State) (n : Nat), ceOk n = true ∧ present s.pkg (pgCe n) = true ∧ retired s.pkg (pgCe n) = false) ∧
    (∃ (s : State) (n : Nat) (failing : Nat), ceOk n = true ∧ present s.pkg (pgCe n) = true ∧ surveying s.pkg (pgCe n)
      = true ∧ cePos n ≠ SMap.get s.pkg.fuse.sparePos (ceQd n) 24 ∧ failing = 0) ∧
    (∃ (s : State) (n : Nat) (failing : Nat), ceOk n = true ∧ present s.pkg (pgCe n) = true ∧ surveying s.pkg (pgCe n)
      = true ∧ cePos n ≠ SMap.get s.pkg.fuse.sparePos (ceQd n) 24 ∧ failing ≠ 0) ∧
    (∃ (s : State) (pg : Nat), present s.pkg pg = true ∧ firstPage pg = pg ∧ classOf pg ≠ 0x01 ∧ classOf pg ≠ 0x0F ∧
      surveying s.pkg pg = true ∧ enabled s.pkg pg = true ∧ heldDown s.pkg pg = false) :=
  ⟨⟨stEACAULSAA0, pgXl, by decide +kernel⟩,
    ⟨make [put pgXl 0x2C 0x05000006], pgXl, by decide +kernel⟩,
    ⟨make [], pgHbm 7, ⟨0x30, 1, 1, 0x100, 0⟩, by decide +kernel⟩,
    ⟨stEACAULSAA0, pgXl, ⟨0x02, 1, 3, 0x100, 0⟩, by decide +kernel⟩,
    ⟨make [], 7, ⟨0x41, 1, 1, 0x1000, 0⟩, by decide +kernel⟩,
    ⟨stEACAULSAA4, 967, 2, .hubWatchdog 967, by decide +kernel⟩,
    ⟨make [put (pgCe 967) 8 0x201], 967, by decide +kernel⟩,
    ⟨stEACAULSAA6, 966, 0, by decide +kernel⟩,
    ⟨make [put (pgCe 966) 8 0x21C], 966, 3, by decide +kernel⟩,
    ⟨make [put pgXl 8 0x210, put pgXl 0xC 1], pgXl, by decide +kernel⟩⟩

def stSFARTO1 : State := make [fun p => { p with fault := { p.fault with chanSpared := [(7, [3])] } }]
def stSFARTO3 : State := make [up (pgQd 24) 2, put (pgQd 24) 0x1C0 31, put (pgQd 24) 0x1C8 0, fun p =>
  { p with fault := { p.fault with replica := [(254, 0x8000106000000000), (255, 0)] } }]
def stSFARTO4 : State := make [up (pgQd 24) 2, put (pgQd 24) 0x1C0 31, put (pgQd 24) 0x1C8 0]
def stSFARTO5 : State := make [fun p =>
  { p with fault := { p.fault with replica := [(254, 0x8000106000000000), (255, 0)] } }]
def stSFARTO7 : State :=
  { make [fun p => { p with
    fault := { p.fault with replica := [(254, 0x8000106000000000), (255, 0)], repairs := [(0x106000000040 / 64, (3, 31))] }
      }] with mem := { mem 0x40 64 5 with poison := [] } }
def stSFARTO8 : State :=
  { make [fun p => { p with
    fault := { p.fault with replica := [(254, 0x8000106000000000), (255, 0)], repairs := [(0x106000000040 / 64, (3, 31))] }
      }] with mem := { mem 0x40 64 5 with poison := [64] } }
def stSFARTO9 : State :=
  { make [fun p => { p with
    fault := { p.fault with replica := [(254, 0xC000106000000000), (255, 0)], repairs := [(0x106000000040 / 64, (3, 31))] }
      }] with mem := { mem 0x40 64 5 with poison := [] } }

theorem test_witness_SparesFencesAndReplicasTakeOver :
    (∃ (s : State) (stack : Nat) (chan : Nat), stack < 8 ∧ chan < 32 ∧ present s.pkg (pgHbm stack) = true ∧ stackSpared
      s.pkg stack = false) ∧
    (∃ (s : State) (stack : Nat) (chan : Nat), stack < 8 ∧ chan < 32 ∧ present s.pkg (pgHbm stack) = true ∧ stackSpared
      s.pkg stack = true) ∧
    (∃ (s : State) (stack : Nat) (chan : Nat), stack < 8 ∧ chan < 32 ∧ stackSpared s.pkg stack = true) ∧
    (∃ (s : State) (rq : Requester) (sheet : Nat) (j : Nat) (value : W64) (w0 : W64) (w1 : W64), sheet < 4 ∧ writeFate
      s.pkg rq (pgQd (8 * sheet)) 0x1D0 = .accepted ∧ j = fld s.pkg (key (pgQd (8 * sheet)) 0x1C0) 4 0 ∧ w0 = value &&&
      BitVec.ofNat 64 (msk 63 62 + msk 51 21 + msk 14 0) ∧ w1 = reg s.pkg (key (pgQd (8 * sheet)) 0x1C8) ∧ bitOf value
      63 = true ∧ (bitOf (replicaWord s.pkg sheet j 0) 63 = true ∨ replicaOk s.pkg sheet w0 w1 = false)) ∧
    (∃ (s : State) (rq : Requester) (sheet : Nat) (j : Nat) (value : W64) (w0 : W64) (w1 : W64), sheet < 4 ∧ writeFate
      s.pkg rq (pgQd (8 * sheet)) 0x1D0 = .accepted ∧ j = fld s.pkg (key (pgQd (8 * sheet)) 0x1C0) 4 0 ∧ w0 = value &&&
      BitVec.ofNat 64 (msk 63 62 + msk 51 21 + msk 14 0) ∧ w1 = reg s.pkg (key (pgQd (8 * sheet)) 0x1C8) ∧ (bitOf value
      63 = false ∨ (bitOf (replicaWord s.pkg sheet j 0) 63 = false ∧ replicaOk s.pkg sheet w0 w1 = true))) ∧
    (∃ (s : State) (pa : Nat) (sh : Nat) (j : Nat), replicaOf s.pkg pa = some (sh, j) ∧ inRepair s.pkg pa = false ∧
      isWindowCopy s.pkg sh j = false) ∧
    (∃ (s : State) (pa : Nat), (replicaOf s.pkg pa = none ∨ inRepair s.pkg pa = true)) ∧
    (∃ (s : State) (pa : Nat) (line : Nat) (sh : Nat) (j : Nat) (data : Item) (cause : Nat), s.pkg.fault.repairs.find?
      (fun r => r.1 == pa / 64) = some (line, (sh, j)) ∧ isWindowCopy s.pkg sh j = false ∧ (dirLine s.pkg (copyOf s.pkg
      sh j pa / 64)).host ≠ 2 ∧ s.mem.poisoned (copyOf s.pkg sh j pa / 64 * 64) 64 = false) ∧
    (∃ (s : State) (pa : Nat) (line : Nat) (sh : Nat) (j : Nat) (data : Item) (cause : Nat), s.pkg.fault.repairs.find?
      (fun r => r.1 == pa / 64) = some (line, (sh, j)) ∧ isWindowCopy s.pkg sh j = false ∧ (dirLine s.pkg (copyOf s.pkg
      sh j pa / 64)).host ≠ 2 ∧ s.mem.poisoned (copyOf s.pkg sh j pa / 64 * 64) 64 = true) ∧
    (∃ (s : State) (pa : Nat) (line : Nat) (sh : Nat) (j : Nat) (data : Item) (cause : Nat), s.pkg.fault.repairs.find?
      (fun r => r.1 == pa / 64) = some (line, (sh, j)) ∧ isWindowCopy s.pkg sh j = true ∧ cause = 0) ∧
    (∃ (s : State) (pa : Nat) (line : Nat) (sh : Nat) (j : Nat) (data : Item) (cause : Nat), s.pkg.fault.repairs.find?
      (fun r => r.1 == pa / 64) = some (line, (sh, j)) ∧ isWindowCopy s.pkg sh j = true ∧ cause ≠ 0) :=
  ⟨⟨make [], 7, 31, by decide +kernel⟩,
    ⟨stSFARTO1, 7, 31, by decide +kernel⟩,
    ⟨stSFARTO1, 7, 31, by decide +kernel⟩,
    ⟨stSFARTO3, .kernel, 3, 31, 0xC000106000000000, 0xC000106000000000 &&& BitVec.ofNat 64 (msk 63 62 + msk 51 21 +
      msk 14 0), 0, by decide +kernel⟩,
    ⟨stSFARTO4, .kernel, 3, 31, 0xC000106000000000, 0xC000106000000000 &&& BitVec.ofNat 64 (msk 63 62 + msk 51 21 +
      msk 14 0), 0, by decide +kernel⟩,
    ⟨stSFARTO5, 0x106000000040, 3, 31, by decide +kernel⟩,
    ⟨make [], 0x106000000040, by decide +kernel⟩,
    ⟨stSFARTO7, 0x106000000040, 0x106000000040 / 64, 3, 31, 9, 0, by decide +kernel⟩,
    ⟨stSFARTO8, 0x106000000040, 0x106000000040 / 64, 3, 31, 9, 0, by decide +kernel⟩,
    ⟨stSFARTO9, 0x106000000040, 0x106000000040 / 64, 3, 31, 9, 0, by decide +kernel⟩,
    ⟨stSFARTO9, 0x106000000040, 0x106000000040 / 64, 3, 31, 9, 5, by decide +kernel⟩⟩

def stFISHOARB0 : State := make [put 3 8 0x200, put pgSv 8 0x201, put 3 0x108 0x100, put 3 0x110 4096]
def stFISHOARB1 : State := make [put 3 8 0x200, put pgSv 8 0x201, put 3 0x108 0x100]
def stFISHOARB2 : State := make [fun p => { p with boot := { p.boot with staged := some img } }, put 3
  0x118 0x40000001, fun p => { p with boot := { p.boot with flashOwner := 1 } }]
def stFISHOARB3 : State := make [fun p => { p with boot := { p.boot with staged := some { img with keyOk := false } } }, put 3
  0x118 0x40000001]
def stFISHOARB4 : State := make [fun p => { p with boot := { p.boot with staged := some img } }, put 3
  0x118 0x40000001]
def stFISHOARB5 : State := make [put 3 8 0x200, put pgSv 8 0x201, put 3 0x108 0x100, put 3 0x110 4096, put pgSv 0x100
  0x20000000]
def stFISHOARB6 : State := make [put 3 8 0x200, put pgSv 8 0x201, put 3 0x108 0x100, put 3 0x110 4096, put pgPwr 0x100
  0x20000000]
def stFISHOARB7 : State := make [fun p => { p with boot := { p.boot with handover := some (img, 7) } }, put 3 0x118
  0x40000002]
def stFISHOARB9 : State := make [fun p => { p with boot := { p.boot with handover := some (img, 4999999999) } }, put 3 0x118
  0x40000002]

theorem test_witness_FirmwareIsStagedHandedOverAndRolledBack :
    (∃ (s : State) (rq : Requester) (value : W32) (keyOk : Bool) (sigOk : Bool), writeFate s.pkg rq 3 0x114 = .accepted
      ∧ bitOf value 0 = true ∧ bitOf value 1 = false ∧ updBusy s.pkg = false ∧ sourceOk s.pkg = true) ∧
    (∃ (s : State) (rq : Requester) (value : W32) (keyOk : Bool) (sigOk : Bool), writeFate s.pkg rq 3 0x114 = .accepted
      ∧ bitOf value 0 = true ∧ bitOf value 1 = false ∧ updBusy s.pkg = false ∧ sourceOk s.pkg = false) ∧
    (∃ (s : State) (img : ImageInfo) (ok : Bool), s.pkg.boot.staged = some img ∧ updBusy s.pkg = true ∧ fld s.pkg
      updStatus 7 0 = 1 ∧ s.pkg.boot.flashOwner ≠ 0) ∧
    (∃ (s : State) (img : ImageInfo) (ok : Bool), s.pkg.boot.staged = some img ∧ updBusy s.pkg = true ∧ fld s.pkg
      updStatus 7 0 = 1 ∧ s.pkg.boot.flashOwner = 0 ∧ surveyorResult s.pkg img ≠ 0) ∧
    (∃ (s : State) (img : ImageInfo) (ok : Bool), s.pkg.boot.staged = some img ∧ updBusy s.pkg = true ∧ fld s.pkg
      updStatus 7 0 = 1 ∧ s.pkg.boot.flashOwner = 0 ∧ surveyorResult s.pkg img = 0 ∧ ok = true) ∧
    (∃ (s : State) (rq : Requester) (value : W32) (new : ImageInfo) (old : ImageInfo), writeFate s.pkg rq 3 0x114 =
      .accepted ∧ bitOf value 0 = false ∧ bitOf value 1 = true ∧ updBusy s.pkg = false ∧ inactiveSlot s.pkg = some new ∧
      s.pkg.boot.running = some old ∧ pwrState s.pkg = 0 ∧ fld s.pkg (key pgSv 0x100) 31 28 = 2 ∧ surveyorResult s.pkg
      new = 0) ∧
    (∃ (s : State) (rq : Requester) (value : W32) (new : ImageInfo) (old : ImageInfo), writeFate s.pkg rq 3 0x114 =
      .accepted ∧ bitOf value 0 = false ∧ bitOf value 1 = true ∧ updBusy s.pkg = false ∧ inactiveSlot s.pkg = some new ∧
      s.pkg.boot.running = some old ∧ pwrState s.pkg ≠ 0) ∧
    (∃ (s : State) (old : ImageInfo) (img : ImageInfo) (since : Nat), s.pkg.boot.handover = some (old, since) ∧
      s.pkg.boot.running = some img ∧ s.pkg.fuse.requests = [] ∧ img.revokeMask = 0 ∧ img.flags % 2 = 0) ∧
    (∃ (s : State) (old : ImageInfo) (since : Nat), s.pkg.boot.handover = some (old, since) ∧ since + 1000000000 ≤
      s.pkg.pace.datum ∧ s.pkg.fuse.requests = []) ∧
    (∃ (s : State) (old : ImageInfo) (since : Nat), s.pkg.boot.handover = some (old, since) ∧ s.pkg.pace.datum < since
      + 1000000000) :=
  ⟨⟨stFISHOARB0, .kernel, 1, true, true, by decide +kernel⟩,
    ⟨stFISHOARB1, .kernel, 1, true, true, by decide +kernel⟩,
    ⟨stFISHOARB2, img, true, by decide +kernel⟩,
    ⟨stFISHOARB3, ({ img with keyOk := false }), true, by decide +kernel⟩,
    ⟨stFISHOARB4, img, true, by decide +kernel⟩,
    ⟨stFISHOARB5, .kernel, 2, img, img, by decide +kernel⟩,
    ⟨stFISHOARB6, .kernel, 2, img, img, by decide +kernel⟩,
    ⟨stFISHOARB7, img, img, 7, by decide +kernel⟩,
    ⟨stFISHOARB7, img, 7, by decide +kernel⟩,
    ⟨stFISHOARB9, img, 4999999999, by decide +kernel⟩⟩

def stPLKOBFAF0 : State := { make [] with mem := ⟨[(0x1000, 5), (2 ^ 52, 6)], [], []⟩ }

theorem test_witness_PowerLossKeepsOnlyBookFlashAndFuses :
    ∃ (s : State) (auxHeld : Bool), s.pkg.boot.started = true :=
  ⟨stPLKOBFAF0, true, by decide +kernel⟩

def stPGBARLGTA0 : State := make [fun p => { p with boot := { p.boot with started := false, running := none } }]
def stPGBARLGTA3 : State := make [fun p => { p with boot := { p.boot with started := false, running := none } }, fun p =>
  { p with boot := { p.boot with flashOwner := 1 } }]
def stPGBARLGTA4 : State := make [fun p => { p with boot := { p.boot with running := none, flashOwner := 1 } }]
def stPGBARLGTA7 : State := make [fun p => { p with boot := { p.boot with flashOwner := 1 } }]
def stPGBARLGTA10 : State := make [fun p => { p with seq := { p.seq with railEnLink := false } }]
def stPGBARLGTA11 : State := make [fun p => { p with seq := { p.seq with railEnCore := false } }]
def stPGBARLGTA8 : State := make [fun p => { p with boot := { p.boot with running := none, flashOwner := 1, dir := dir0 } }]

theorem test_witness_PowerGoodBootsAndRailLossesGoToAux :
    (∃ (s : State) (dir : FlashDir) (a : ImageInfo) (b : ImageInfo), s.pkg.boot.started = false ∧ s.pkg.boot.flashOwner
      = 0 ∧ dirOk dir = true ∧ s.pkg.boot.activeSlot = 0 ∧ surveyorResult s.pkg a = 0) ∧
    (∃ (s : State) (dir : FlashDir) (a : ImageInfo) (b : ImageInfo), s.pkg.boot.started = false ∧ s.pkg.boot.flashOwner
      = 0 ∧ dirOk dir = true ∧ s.pkg.boot.activeSlot = 0 ∧ surveyorResult s.pkg a ≠ 0 ∧ surveyorResult s.pkg b = 0) ∧
    (∃ (s : State) (dir : FlashDir) (a : ImageInfo) (b : ImageInfo), s.pkg.boot.started = false ∧ s.pkg.boot.flashOwner
      = 0 ∧ (dirOk dir = false ∨ (surveyorResult s.pkg a ≠ 0 ∧ surveyorResult s.pkg b ≠ 0))) ∧
    (∃ (s : State) (dir : FlashDir) (a : ImageInfo) (b : ImageInfo), s.pkg.boot.started = false ∧ s.pkg.boot.flashOwner
      ≠ 0) ∧
    (∃ (s : State), s.pkg.boot.running = none) ∧
    (∃ (s : State), s.pkg.boot.running = none) ∧
    (∃ (s : State), s.pkg.boot.running.isSome = true) ∧
    (∃ (s : State) (img : ImageInfo), s.pkg.boot.started = true ∧ s.pkg.boot.running = none ∧ s.pkg.boot.failed = false
      ∧ s.pkg.boot.flashOwner ≠ 0 ∧ s.pkg.boot.activeSlot = 0 ∧ s.pkg.boot.slotA = some img ∧ dirOk s.pkg.boot.dir =
      true ∧ surveyorResult s.pkg img = 0) ∧
    (∃ (s : State) (cause : Nat), ((cause = 0 ∧ s.pkg.seq.railEnLink = true) ∨ (cause = 1 ∧ s.pkg.seq.railEnCore =
      true) ∨ (cause = 2 ∧ ∃ n, n < 4 ∧ halted s.pkg n = true ∧ SMap.get s.pkg.pwr.haltSince n 0 + 10000000 <
      s.pkg.pace.datum) ∨ (cause = 3 ∧ s.pkg.seq.railEnCore = true ∧ ∃ n, n < 4 ∧ railOf s.pkg n < 450))) ∧
    (∃ (s : State), s.pkg.seq.railEnLink = false) ∧
    (∃ (s : State), s.pkg.seq.railEnCore = false) :=
  ⟨⟨stPGBARLGTA0, dir0, img, img, by decide +kernel⟩,
    ⟨stPGBARLGTA0, dir0, ({ img with keyOk := false }), img, by decide +kernel⟩,
    ⟨stPGBARLGTA0, ({ dir0 with crc := dir0.crc + 1 }), img, img, by decide +kernel⟩,
    ⟨stPGBARLGTA3, dir0, img, img, by decide +kernel⟩,
    ⟨stPGBARLGTA4, by decide +kernel⟩,
    ⟨stPGBARLGTA4, by decide +kernel⟩,
    ⟨stPGBARLGTA7, by decide +kernel⟩,
    ⟨stPGBARLGTA8, img, by decide +kernel⟩,
    ⟨make [], 1, Or.inr (Or.inl (by decide +kernel))⟩,
    ⟨stPGBARLGTA10, by decide +kernel⟩,
    ⟨stPGBARLGTA11, by decide +kernel⟩⟩

def stTSCAD0 : State := make [put pgSv 0x100 0, put pgPwr 0x100 0x08000000]
def stTSCAD1 : State := make [put pgSv 0x100 0, put pgPwr 0x100 0]
def stTSCAD3 : State := make [put pgSv 0x100 0x11800000, fun p => { p with seq := { p.seq with railEnLink := false } }]
def stTSCAD4 : State := make [put pgSv 0x100 0x11800000, fun p => { p with boot := { p.boot with flashOwner := 1 } }]
def stTSCAD8 : State := make [put pgSv 0x100 0x15800000, fun p => { p with seq := { p.seq with lasers := false } }]
def stTSCAD15 : State := make [put pgSv 0x100 0x15000000, put (pgHbm 7) 0xC 1, put (pgHbm 7) 8 0x200]

theorem test_witness_TheSequencerClimbsAndDescends :
    (∃ (s : State), s.pkg.boot.running.isSome = true ∧ seqState s.pkg = 0 ∧ climbOk s.pkg = true) ∧
    (∃ (s : State), s.pkg.boot.running.isSome = true ∧ seqState s.pkg = 0 ∧ climbOk s.pkg = false) ∧
    (∃ (s : State), s.pkg.boot.running.isSome = true ∧ (seqState s.pkg = 2 ∨ seqState s.pkg = 4)) ∧
    (∃ (s : State) (img : ImageInfo), seqState s.pkg = 1 ∧ s.pkg.seq.climbAfter = false ∧ seqTarget s.pkg ≠ 0 ∧ seqStep
      s.pkg = 1 ∧ s.pkg.boot.flashOwner = 0) ∧
    (∃ (s : State) (img : ImageInfo), seqState s.pkg = 1 ∧ s.pkg.seq.climbAfter = false ∧ seqTarget s.pkg ≠ 0 ∧ seqStep
      s.pkg = 1 ∧ s.pkg.boot.flashOwner ≠ 0) ∧
    (∃ (s : State) (img : ImageInfo), seqState s.pkg = 1 ∧ s.pkg.seq.climbAfter = false ∧ seqTarget s.pkg ≠ 0 ∧ seqStep
      s.pkg = 2) ∧
    (∃ (s : State) (img : ImageInfo), seqState s.pkg = 1 ∧ s.pkg.seq.climbAfter = false ∧ seqTarget s.pkg ≠ 0 ∧ seqStep
      s.pkg = 4 ∧ s.pkg.seq.step5Done = false ∧ kernelResult s.pkg img = 0 ∧ s.mem.wf = true) ∧
    (∃ (s : State) (img : ImageInfo), seqState s.pkg = 1 ∧ s.pkg.seq.climbAfter = false ∧ seqTarget s.pkg ≠ 0 ∧ seqStep
      s.pkg = 4 ∧ s.pkg.seq.step5Done = false ∧ kernelResult s.pkg img ≠ 0) ∧
    (∃ (s : State) (img : ImageInfo), seqState s.pkg = 1 ∧ s.pkg.seq.climbAfter = false ∧ seqTarget s.pkg ≠ 0 ∧ seqStep
      s.pkg = 5 ∧ seqTarget s.pkg = 2) ∧
    (∃ (s : State), seqState s.pkg = 3 ∧ seqStep s.pkg = 6) ∧
    (∃ (s : State), seqState s.pkg = 3 ∧ seqStep s.pkg = 5) ∧
    (∃ (s : State), seqState s.pkg = 3 ∧ seqStep s.pkg = 4 ∧ seqTarget s.pkg = 1 ∧ s.pkg.seq.climbAfter = false) ∧
    (∃ (s : State), seqState s.pkg = 3 ∧ seqStep s.pkg = 4 ∧ seqTarget s.pkg = 0) ∧
    (∃ (s : State), seqState s.pkg = 3 ∧ seqStep s.pkg = 3) ∧
    (∃ (s : State), seqState s.pkg = 3 ∧ seqStep s.pkg = 2 ∧ seqTarget s.pkg = 0) ∧
    (∃ (s : State) (stack : Nat), stack < 8 ∧ s.pkg.seq.railPgCore = true ∧ 4 ≤ seqStep s.pkg ∧ seqState s.pkg ≠ 4 ∧
      enabled s.pkg (pgHbm stack) = true ∧ heldDown s.pkg (pgHbm stack) = false) :=
  ⟨⟨stTSCAD0, by decide +kernel⟩,
    ⟨stTSCAD1, by decide +kernel⟩,
    ⟨make [put pgSv 0x100 0x46A00000], by decide +kernel⟩,
    ⟨stTSCAD3, img, by decide +kernel⟩,
    ⟨stTSCAD4, img, by decide +kernel⟩,
    ⟨make [put pgSv 0x100 0x12800000], img, by decide +kernel⟩,
    ⟨make [put pgSv 0x100 0x14800000], ({ img with kind := 2 }), by decide +kernel⟩,
    ⟨make [put pgSv 0x100 0x14800000], img, by decide +kernel⟩,
    ⟨stTSCAD8, img, by decide +kernel⟩,
    ⟨make [put pgSv 0x100 0x36000000], by decide +kernel⟩,
    ⟨make [put pgSv 0x100 0x35000000], by decide +kernel⟩,
    ⟨make [put pgSv 0x100 0x34400000], by decide +kernel⟩,
    ⟨make [put pgSv 0x100 0x34000000], by decide +kernel⟩,
    ⟨make [put pgSv 0x100 0x33000000], by decide +kernel⟩,
    ⟨make [put pgSv 0x100 0x32000000], by decide +kernel⟩,
    ⟨stTSCAD15, 7, by decide +kernel⟩⟩

def stSATAR1 : State := make [fun p =>
  { p with fault := { p.fault with openStalls := [(pgCe 967, [(1, 1, 1), (2, 1, 1), (3, 1, 1), (4, 1, 1)])] } }]
def stSATAR2 : State := make [fun p =>
  { p with fault := { p.fault with openStalls := [(pgCe 967, [(1, 1, 1), (9, 1, 1)])] } }]
def stSATAR3 : State := make [up (pgHbm 0) 2, up (pgHbm 1) 2, put (pgTr 4) 8 0x201, put (pgTr 4) 0x108 0x100000000006, put
  (pgTr 4) 0x100 0x80000000, put
  (pgTr 4) 0x110 65, fun p => { p with traces := [(4, ⟨[7], 0⟩)] }]
def stSATAR4 : State := make [up (pgHbm 0) 2, up (pgHbm 1) 2, put (pgTr 4) 8 0x201, put (pgTr 4) 0x108 0x100000000006, put
  (pgTr 4) 0x100 0xC0000000, put
  (pgTr 4) 0x110 64, fun p => { p with traces := [(4, ⟨[7], 0⟩)] }]
def stSATAR5 : State := make [put (pgTr 4) 8 0x201, put (pgTr 4) 0x108 0x100000000006, put (pgTr 4) 0x100 0, put (pgTr 4)
  0x110 64, fun p => { p with traces := [(4, ⟨[7], 0⟩)] }]
def stSATAR9 : State := make [put (pgTr 4) 8 0x201, put (pgTr 4) 0x108 0x100000000006, put (pgTr 4) 0x100 0x10000000, put
  (pgTr 4) 0x110 64, fun p => { p with traces := [(4, ⟨[7], 0⟩)] }]

theorem test_witness_StallsAndTracesAreRecorded :
    (∃ (s : State) (pg : Nat) (port : Nat) (who : Nat), stallBlock pg = true ∧ present s.pkg pg = true ∧ (openStalls
      s.pkg pg).any (fun x => x.1 == port) = false ∧ (openStalls s.pkg pg).length < 4) ∧
    (∃ (s : State) (pg : Nat) (port : Nat) (who : Nat), stallBlock pg = true ∧ present s.pkg pg = true ∧ (openStalls
      s.pkg pg).any (fun x => x.1 == port) = false ∧ 4 ≤ (openStalls s.pkg pg).length) ∧
    (∃ (s : State) (t : Nat) (i : Item) (rest : List Item), (trace s.pkg t).queue = i :: rest ∧ traceRuns s.pkg t =
      true ∧ traceFull s.pkg t = false ∧ populatedRange s.pkg (traceSlot s.pkg t) 64 = true ∧ (trace s.pkg t).lost = 0) ∧
    (∃ (s : State) (t : Nat) (i : Item) (rest : List Item), (trace s.pkg t).queue = i :: rest ∧ traceRuns s.pkg t =
      true ∧ traceFull s.pkg t = true) ∧
    (∃ (s : State) (rq : Requester) (t : Nat) (v : W32), t < 5 ∧ writeFate s.pkg rq (pgTr t) 0x100 = .accepted) ∧
    (∃ (s : State) (rq : Requester) (t : Nat) (v : W64), t < 5 ∧ writeFate s.pkg rq (pgTr t) 0x108 = .accepted ∧ (bit
      s.pkg (trControl t) 31 = true ∨ bitsOf v 4 0 < 6 ∨ 24 < bitsOf v 4 0 ∨ hbmOrScratch s.pkg (trBase v) (64 * trSize
      v) = false)) ∧
    (∃ (s : State) (rq : Requester) (t : Nat) (v : W64), t < 5 ∧ writeFate s.pkg rq (pgTr t) 0x108 = .accepted ∧ bit
      s.pkg (trControl t) 31 = false ∧ 6 ≤ bitsOf v 4 0 ∧ bitsOf v 4 0 ≤ 24 ∧ hbmOrScratch s.pkg (trBase v) (64 * trSize
      v) = true) ∧
    (∃ (s : State) (rq : Requester) (t : Nat) (v : W64), t < 5 ∧ writeFate s.pkg rq (pgTr t) 0x118 = .accepted ∧ regN
      s.pkg (key (pgTr t) 0x110) < v.toNat) ∧
    (∃ (s : State) (rq : Requester) (t : Nat) (v : W64), t < 5 ∧ writeFate s.pkg rq (pgTr t) 0x118 = .accepted ∧
      v.toNat ≤ regN s.pkg (key (pgTr t) 0x110)) :=
  ⟨⟨make [], pgCe 967, 9, 3, by decide +kernel⟩,
    ⟨stSATAR1, pgCe 967, 9, 3, by decide +kernel⟩,
    ⟨stSATAR3, 4, 7, [], by decide +kernel⟩,
    ⟨stSATAR4, 4, 7, [], by decide +kernel⟩,
    ⟨stSATAR5, .kernel, 4, 0x8000003F, by decide +kernel⟩,
    ⟨stSATAR5, .kernel, 4, 0x100000000019, by decide +kernel⟩,
    ⟨stSATAR5, .kernel, 4, 0x100000000018, by decide +kernel⟩,
    ⟨stSATAR5, .kernel, 4, 65, by decide +kernel⟩,
    ⟨stSATAR9, .kernel, 4, 64, by decide +kernel⟩⟩

theorem test_witness_TapInstructionsSelectTheirRegisters :
    (∃ (s : State) (die : Nat) (c : Instr) (op : Nat), die < 6 ∧ (c, op) ∈ [(Instr.tapBypass die, 0xFF), (.tapIdcode
      die, 0x01), (.tapSamplePreload die, 0x02), (.tapExtest die, 0x00)]) ∧
    (∃ (s : State) (die : Nat) (k : Nat) (c : Instr) (op : Nat), die < 6 ∧ k < 8 ∧ (c, op) ∈ [(Instr.tapClamp die,
      0x03), (.tapHighz die, 0x04), (.tapWrapper die k, 0x10 + k), (.tapHbmWsp die, if die < 4 then 0x18 else 0xFF)]) ∧
    (∃ (p : Pkg) (die : Nat) (op : Nat), op ∉ [0xFF, 0x00, 0x01, 0x02, 0x03, 0x04] ∧ (op < 0x10 ∨ (0x18 < op ∧ op <
      0x20))) ∧
    (∃ (die : _) (op : _), die < 4 ∧ (op = 0x02 ∨ op = 0x00)) :=
  ⟨⟨make [], 5, .tapExtest 5, 0, by decide +kernel⟩,
    ⟨make [], 4, 7, .tapHbmWsp 4, 0xFF, by decide +kernel⟩,
    ⟨make0 [], 5, 0x1F, by decide +kernel⟩,
    ⟨3, 0, by decide +kernel⟩⟩

def stAPOTPBOCAS0 : State := make [put pgOps 0x108 0xFFFFFFFF, put pgOps 0x100 0]

theorem test_witness_APressOfThePackageButtonOnlyCountsAndSignals :
    (∃ (s : State), s.pkg.boot.started = true ∧ bit s.pkg opsStatus 31 = false) ∧
    (∃ (s : State), s.pkg.boot.started = true ∧ bit s.pkg opsStatus 31 = true) :=
  ⟨⟨stAPOTPBOCAS0, by decide +kernel⟩,
    ⟨make [put pgOps 0x100 0x80000000], by decide +kernel⟩⟩

def stFASCAS2 : State := make [fun p => { p with ops := { p.ops with lastPass := 4999999999 } }]
def stFASCAS5 : State := make [put pgSv 8 0x101, put pgQm 8 0x200]
def stFASCAS7 : State := make [put pgSv 8 0x101, put pgSv 0x100 0x200000]
def stFASCAS8 : State := make [put pgSv 8 0x101, put pgSv 0x100 0]

theorem test_witness_FramesAndSidebandCommandsAreServed :
    (∃ (s : State) (bits : BitVec 24), s.pkg.boot.started = true ∧ s.pkg.boot.failed = false) ∧
    (∃ (s : State), s.pkg.boot.started = true ∧ s.pkg.ops.lastPass + 100000000 ≤ s.pkg.pace.datum) ∧
    (∃ (s : State), s.pkg.boot.started = true ∧ s.pkg.pace.datum < s.pkg.ops.lastPass + 100000000) ∧
    (∃ (s : State) (off : Nat), ready s.pkg pgSv = true ∧ off % 4 = 0) ∧
    (∃ (s : State) (off : Nat), ready s.pkg pgSv = true ∧ off % 8 = 0) ∧
    (∃ (s : State) (off : Nat), ready s.pkg pgSv = true ∧ off % 8 = 0 ∧ isPopKey off = true ∧ owner s.pkg (off /
      0x1000) ≠ Requester.code .surveyor) ∧
    (∃ (s : State), ready s.pkg pgSv = true) ∧
    (∃ (s : State) (arg : Nat), ready s.pkg pgSv = true ∧ s.pkg.boot.running.isSome = true ∧ arg < 3 ∧ (arg = 0 ∨ bit
      s.pkg svSeq 21 = true)) ∧
    (∃ (s : State) (arg : Nat), ready s.pkg pgSv = true ∧ s.pkg.boot.running.isSome = true ∧ arg < 3 ∧ arg ≠ 0 ∧ bit
      s.pkg svSeq 21 = false) :=
  ⟨⟨make [put pgOps 0x100 0x80000000], 0xA00000, by decide +kernel⟩,
    ⟨make [put pgOps 0x100 0], by decide +kernel⟩,
    ⟨stFASCAS2, by decide +kernel⟩,
    ⟨make [put pgSv 8 0x101], 0x104, by decide +kernel⟩,
    ⟨make [put pgSv 8 0x101], 0x108, by decide +kernel⟩,
    ⟨stFASCAS5, key pgQm 0x30, by decide +kernel⟩,
    ⟨make [put pgSv 8 0x101], by decide +kernel⟩,
    ⟨stFASCAS7, 2, by decide +kernel⟩,
    ⟨stFASCAS8, 2, by decide +kernel⟩⟩

/-- VU 15 of CE 799, whose registers 0 to 3, both input ports and output port hold lanes of mixed signs and sizes. -/
def vItem (k : Nat) : Item :=
  BitVec.ofNat 512 ((List.range 16).foldl
    (fun a l => a + ((0x3F800000 + 0x40000000 * (l % 3) + 0x1000000 * k + 7919 * l) % 2 ^ 32) * 2 ^ (32 * l)) 0)
def vuState (w : W32) : State :=
  make [engine 799 [unit 2 15 1] [⟨1, 0x3E, 1, 8⟩, ⟨1, 0x3F, 1, 8⟩, ⟨0x4F, 0x20, 1, 8⟩] [w]
    (fun c => { c with
      vus := [(15, { regs := [(0, vItem 0), (1, vItem 1), (2, vItem 2), (3, vItem 5)], outCount := 0 })]
      routes := [(0x3E, [vItem 3]), (0x3F, [vItem 4])] }) id]

/-- An instruction of opcode op: into register 3 from registers, or from both ports to the output. -/
def vuArg (op fmt : Nat) (ports : Bool) : VuArgs :=
  match vuRow op with
  | none => ⟨799, 15, fmt, 3, 0, 0, 0, 0⟩
  | some r =>
    ⟨799, 15, fmt, if ports then 14 else 3, if !r.a then 0 else if ports then 12 else 0,
      if !r.b then 0 else if ports then 13 else 1, if r.c then 2 else 0, 0⟩

/-- Its word (Table 5-4). -/
def vuWordOf (op : Nat) (i : VuArgs) : W32 :=
  BitVec.ofNat 32 (op * 2 ^ 26 + i.fmt * 2 ^ 24 + i.dst * 2 ^ 20 + i.sa * 2 ^ 16 + i.sb * 2 ^ 12 + i.sc * 2 ^ 8 + i.imm)

/-- Whether both forms of an instruction are ready in a state whose unit stands at its word. -/
def vuBoth (x : Nat × Nat) : Bool :=
  [false, true].all (fun b => vuReady (vuState (vuWordOf x.1 (vuArg x.1 x.2 b))).pkg x.1 (vuArg x.1 x.2 b))

theorem test_witness_VectorArithmeticAndIntegerOpsWriteTheirLanes :
    [(0x01, 0), (0x02, 0), (0x03, 0), (0x04, 0), (0x05, 0), (0x06, 0), (0x07, 0), (0x08, 0), (0x09, 0), (0x38, 2),
      (0x39, 2), (0x3A, 2), (0x3B, 2), (0x3C, 2), (0x3D, 2), (0x3E, 2)].all vuBoth = true := by
  decide +kernel

theorem test_witness_VectorFunctionsReductionsAndMovesWriteTheirLanes :
    [(0x0A, 0), (0x0B, 0), (0x0C, 0), (0x0D, 0), (0x0E, 0), (0x0F, 0), (0x10, 0), (0x11, 0), (0x12, 0), (0x13, 0),
      (0x14, 0), (0x15, 0), (0x2C, 0), (0x2D, 0), (0x2E, 0), (0x30, 0), (0x31, 0), (0x32, 0), (0x33, 0), (0x34, 0)].all
      vuBoth = true := by
  decide +kernel

theorem test_witness_VectorComparisonsAndConversionsWriteTheirLanes :
    [(0x18, 0), (0x19, 0), (0x1A, 0), (0x1B, 0), (0x20, 0), (0x21, 0), (0x22, 0), (0x23, 0), (0x24, 0), (0x25, 0),
      (0x26, 0), (0x27, 0), (0x28, 0)].all vuBoth = true := by
  decide +kernel

theorem test_witness_VectorNop :
    (∃ (s : State) (i : VuArgs), vuReady s.pkg 0x00 i = true) :=
  ⟨vuState 0, ⟨799, 15, 0, 0, 0, 0, 0, 0⟩, by decide +kernel⟩

/-! ## Well-formed commands -/

/-- One ill-formed command for each check of WellFormed.lean, at the first value past its range. -/
theorem test_wf_refuses :
    [Instr.sqNop 200, .sqNop 1024, .wfi 48, .blockDrained 16384, .xlCtxConfigWrite .kernel 16 0, .doorbell .kernel 0 64 0,
      .portDrained 6, .floorHalt 4, .hbmTrainingDone 8, .refreshRateChange 16 0, .epochEnd 9, .channelSpare 0 32,
      .hold .kernel 12 0, .partitionChangeDone 32, .slmPinClear .kernel 256 0, .traceRecordWrite 5, .commit 0 ⟨4, 0⟩,
      .muNop ⟨0, 4, 0, 0, 0, [0, 0, 0, 0], [0, 0, 0, 0]⟩, .vuNop ⟨0, 16, 0, 0, 0, 0, 0, 0⟩,
      .agDescriptor ⟨0, 12, false, 0, false, [0, 0, 0, 0], [0, 0, 0, 0]⟩, .octetNop 0 8, .emit 0 4 false 0 0 false,
      .voltageWrite 5, .tapIdcode 6, .limitSlotWrite .kernel 3 0 0, .queuePop .kernel 0x18 2, .linkRetrain 17 true,
      .linkRetrain 0 true, .bridgeDown 0 0 2, .laneDrop 0 9, .bridgeLaneSpare 0 0 0 66,
      .landingCheck { msg0 with dest := 16384 }].all (fun i => !i.wf) = true := by decide +kernel

/-- The last value in range of each check. -/
theorem test_wf_accepts :
    [Instr.sqNop 967, .wfi 47, .blockDrained 16383, .xlCtxConfigWrite .kernel 15 0, .doorbell .kernel 0 63 0, .portDrained 5,
      .floorHalt 3, .hbmTrainingDone 7, .refreshRateChange 15 0, .epochEnd 8, .channelSpare 0 31, .hold .kernel 11 0,
      .partitionChangeDone 31, .slmPinClear .kernel 255 0, .traceRecordWrite 4, .commit 0 ⟨3, 255⟩, .octetNop 0 7,
      .emit 0 3 false 0 0 false, .voltageWrite 4, .tapIdcode 5, .limitSlotWrite .kernel 2 0 0, .queuePop .kernel 0x18 8,
      .linkRetrain 16 true, .bridgeDown 0 0 1, .laneDrop 0 8, .bridgeLaneSpare 0 0 0 65, .landingCheck msg0].all
      (fun i => i.wf) = true := by decide +kernel

/-! ## Values of the spec's worked examples -/

/-- spec/04 and spec/22: CE 2.5.11 stands on page 0x1488 with legend 0x0188_1101 and extent 0x2000_0001; slice 2.0.4 on page
0x1504 with legend 0x0304_1101; the datum page reads 0x1000_1101. -/
theorem test_legends :
    pgCe (512 + 136) = 0x1488 ∧ pgSl (128 + 4) = 0x1504 ∧
    (readReg base (key 0x1488 0)).toNat = 0x01881101 ∧ (readReg base (key 0x1488 4)).toNat = 0x20000001 ∧
    (readReg base (key 0x1504 0)).toNat = 0x03041101 ∧ (readReg base (key pgDt 0)).toNat = 0x10001101 := by decide +kernel

/-- spec/02: at 0.66 V and 65 °C a sheet steps 1.55 Gbeat/s; at 105 °C and 0.75 V 1.90; cells of Table 2-1. -/
theorem test_paces :
    sheetPace 660 65 = 155 ∧ sheetPace 750 105 = 190 ∧ sheetPace 580 73 = 120 ∧ sheetPace 750 97 = 192 ∧
    sheetPace 900 97 = 244 ∧ sheetPace 695 65 = 172 ∧ sheetPace 720 65 = 185 := by decide +kernel

/-- spec/11: the address 0x0_1047_2AB3_5AC0 is on sheet 2, stack 5, pseudo-channel 1 of channel 0, bank 12, row 0x3955. -/
theorem test_hbm_address :
    region 0x10472AB35AC0 = .hbm 2 0x72AB35AC0 ∧ hbmStack 2 0x72AB35AC0 = 5 ∧ hbmLocal 0x72AB35AC0 = 0x39559AAC0 ∧
    hbmPc 0x39559AAC0 = 1 ∧ hbmBank 0x39559AAC0 = 12 ∧ hbmRow 0x39559AAC0 = 0x3955 := by decide +kernel

/-- spec/07: three products of MXFP8 elements sum to 999,424 × 2^-18; the drain adds 2^-3 of it to 3 × 2^-12, and BF16 is
0x3EF4. -/
theorem test_mxfp8_to_bf16 :
    ((((⟨0, 0⟩ : Cell).addFixed (product (wireOf 3 0x3C) (wireOf 3 0x43))).addFixed (product (wireOf 3 0x81) (wireOf 3
      0x7E))).addFixed
      (product (wireOf 3 0x44) (wireOf 3 0x24))).body = 999424 ∧
    accAdd (BitVec.ofNat 640 (3 * 2 ^ 288)) ⟨0, 999424⟩ (-21) = BitVec.ofNat 640 (1955 * 2 ^ 288) ∧
    convert bf16 ⟨0, 1955 * 2 ^ 288⟩ (-300) 0 false noSeed 0 = 0x3EF4 := by decide +kernel

/-- Table 7-5: the canonical NaNs of FP32, BF16, FP16, E5M2 and E4M3. -/
theorem test_canonical_nans : [8, 6, 7, 4, 3].map (fun c => canonicalNan (fmtOf c)) = [0x7FC00000, 0x7FC0, 0x7E00, 0x7E,
  0x7F] := by
  decide +kernel

/-- spec/17: 525 W are left of the cap; S0, S1 and S3 get 106.5 W, S2 121.4 W and the processor die 84.0 W. -/
theorem test_budgets :
    (shareCap 525000 [140000, 140000, 140000, 140000, 110000] [0, 0, 40000, 0]).map (fun x => (x + 50) / 100) =
      [1065, 1065, 1214, 1065, 840] := by decide +kernel

/-- spec/04: with cap slots 825 (a ceiling lowered once), 0, 0 and 700, EFFECTIVE is 700 W. -/
theorem test_effective_cap :
    effective (make0 [fun p => { p with fuse := { p.fuse with ceiling := 825 } }, put pgPwr 0x24C 700]) 0 = 700 := by
      decide +kernel

/-- spec/15: HPA 0x40_1234_5000 reaches 0x0_1000_1234_5000 through a window of 16 GiB at HPA 0x40_0000_0000. -/
theorem test_inset :
    insetMap (make0 [put pgHl 0x120 0x40100000, put pgHl 0x110 0x100000000000,
      fun p => { p with hl := { p.hl with hdmBase := 0x4000000000 } }]) 0x4012345000 = some 0x100012345000 := by
        decide +kernel

/-- spec/03: a sender with LIMIT 4 on a path of depth 32 takes the update 14, and then discards 10 as stale. -/
theorem test_credits :
    let x := (path (leaves (.creditUpdate 3 14 true) (make [fun p => setPath p 3
      { path p 3 with depth := 32, limit := 4 }])).pkg 3)
    x.limit = 14 ∧ (x.accept 10 true).limit = 14 ∧ (x.accept 10 true).discards = x.discards + 1 := by decide +kernel

/-- spec/05: the read generator of 64-column panels visits 0x105 at visit 129 and 0x100 at visit 512. -/
theorem test_panels :
    let d : AgArgs := ⟨0, 0, false, 0x100, false, [128, 4, 3, 1], [4, 1, 0, 0]⟩
    agWord d 129 = 0x105 ∧ agWord d 512 = 0x100 := by decide +kernel

/-- spec/21: the SGPIO frame of the worked example, first bit first: 110 000 000 100 000 000 100 000. -/
theorem test_sgpio :
    frameOut (make0 [put (pgPl 0) 0x100 0x52400000, put (pgPl 3) 0x100 0x42000000, put pgSv 0x100 0x26800000,
      fun p => { p with pace := { p.pace with datum := 12300100000 } }]) = BitVec.ofNat 24 (3 + 2 ^ 9 + 2 ^ 18) := by
        decide +kernel

/-- spec/23: the write of 16 to QD_SLM_PARTITION of quadrangle 3.7 ends with CHANGING 0 and CURRENT 16. -/
theorem test_partition :
    (reg (leaves (.partitionChangeDone 31) (leaves (.partitionWrite .kernel 31 0x10)
      (make [put (pgQd 31) 8 0x201]))).pkg (key 0x16D7 0x180)).toNat = 0x00100010 := by decide +kernel

/-- spec/23: the value 0x8008_0800 enables ring 0 of context 0 with 256 descriptors and 256 records. -/
theorem test_ring_config :
    (reg (leaves (.ringConfigWrite .kernel 0 0 0x80080800) (make [up pgQm 2, put (pgQm + 1) 8 0x200])).pkg
      (key 0x801 0x158)).toNat = 0x80080800 := by decide +kernel

end Sys2Proof.Tests
end

section
/-! The host link (spec/15): what its operations leave of the package, and the proof of O40. -/

namespace Sys2Proof.Machine

/-! ## Sparse maps and frames -/

theorem SMap.get_drop {α : Type} (m : SMap α) (f : Nat → Bool) (k : Nat) (d : α) :
    SMap.get (SMap.drop m f) k d = if f k then d else SMap.get m k d := by
  induction m with
  | nil => simp [SMap.drop, SMap.get]
  | cons x t ih =>
    obtain ⟨j, v⟩ := x
    simp only [SMap.drop] at ih ⊢
    by_cases hj : f j = true
    · rw [List.filter_cons_of_neg (by simp [hj]), ih]
      by_cases hk : k = j
      · simp [hk, hj]
      · simp [SMap.get, hk]
    · rw [List.filter_cons_of_pos (by simp [hj])]
      by_cases hk : k = j
      · simp [SMap.get, hk, hj]
      · simp [SMap.get, hk, ih]

/-- A value that is read and is not the default is listed. -/
theorem SMap.mem_of_get {α : Type} {m : SMap α} {k : Nat} {v d : α} (h : SMap.get m k d = v) (hd : v ≠ d) :
    (k, v) ∈ m := by
  induction m with
  | nil => exact absurd h.symm hd
  | cons x t ih =>
    obtain ⟨j, w⟩ := x
    by_cases hk : k = j
    · subst hk; simp [SMap.get] at h; simp [h]
    · simp only [SMap.get, hk, if_false] at h
      exact List.mem_cons_of_mem _ (ih h)

theorem OnlyLog.hl_eq {p q : Pkg} (h : OnlyLog p q) : q.hl = p.hl := by
  obtain ⟨_, _, _, _, _, rfl⟩ := h
  rfl

@[simp] theorem raiseBlock_hl (p : Pkg) (pg n : Nat) : (raiseBlock p pg n).hl = p.hl :=
  (raiseBlock_only p pg n).log.hl_eq

@[simp] theorem waypoint_hl (p : Pkg) (pg event sub arg : Nat) : (waypoint p pg event sub arg).hl = p.hl :=
  (waypoint_only p pg event sub arg).hl_eq

@[simp] theorem reg_setHl (p : Pkg) (x : HlSt) (k : Nat) : reg (setHl p x) k = reg p k := reg_congr rfl rfl rfl k

@[simp] theorem fld_setHl (p : Pkg) (x : HlSt) (k hi lo : Nat) : fld (setHl p x) k hi lo = fld p k hi lo :=
  fld_congr (reg_setHl p x k) hi lo

@[simp] theorem bit_setHl (p : Pkg) (x : HlSt) (k n : Nat) : bit (setHl p x) k n = bit p k n :=
  bit_congr (reg_setHl p x k) n

theorem State.onPkg_eq_self {s : State} {f : Pkg → Pkg} (h : f s.pkg = s.pkg) : s.onPkg f = s := by
  unfold State.onPkg
  rw [h]

/-! ## The link's mode, rate and width (R499, R500) -/

/-- The word that HL_LINK_STATUS takes (Table 15-1). -/
def linkWord (mode : Nat) (flit : Bool) (rate width : Nat) : Nat :=
  mode * 2 ^ 30 + bitNat flit * 2 ^ 29 + rate % 16 * 2 ^ 24 + width % 32 * 2 ^ 16

theorem reg_setLink (p : Pkg) (mode : Nat) (flit : Bool) (rate width : Nat) :
    reg (setLink p mode flit rate width) hlStatus = BitVec.ofNat 64 (linkWord mode flit rate width) := by
  unfold setLink
  dsimp only
  split
  · rename_i h
    rw [linkWord, ← h, regN, BitVec.ofNat_toNat, BitVec.setWidth_eq]
  · have h : reg (raiseBlock (setReg p hlStatus (BitVec.ofNat 64 (linkWord mode flit rate width))) pgHl 1) hlStatus =
        BitVec.ofNat 64 (linkWord mode flit rate width) := by
      rw [raiseBlock_reg _ _ _ (by decide) (by decide), reg_setReg_self]
    split
    · exact h
    · rw [waypoint_reg]; exact h

/-- HL_LINK_STATUS shows mode, flits, rate and width. -/
def LinkShows (p : Pkg) (mode : Nat) (flit : Bool) (rate width : Nat) : Prop :=
  hlMode p = mode ∧ bit p hlStatus 29 = flit ∧ fld p hlStatus 27 24 = rate ∧ fld p hlStatus 20 16 = width

theorem setLink_shows (p : Pkg) {mode rate width : Nat} (flit : Bool) (hm : mode < 4) (hr : rate < 16) (hw : width < 32) :
    LinkShows (setLink p mode flit rate width) mode flit rate width := by
  have hf : bitNat flit < 2 := by cases flit <;> decide
  have hb : decide (bitNat flit = 1) = flit := by cases flit <;> decide
  unfold LinkShows hlMode fld bit
  rw [reg_setLink]
  simp only [bitsOf, bitOf, linkWord, BitVec.toNat_ofNat, Nat.shiftRight_eq_div_pow]
  refine ⟨by omega, ?_, by omega, by omega⟩
  rw [show (mode * 2 ^ 30 + bitNat flit * 2 ^ 29 + rate % 16 * 2 ^ 24 + width % 32 * 2 ^ 16) % 2 ^ 64 / 2 ^ 29 % 2 =
    bitNat flit by omega]
  exact hb

theorem hlMode_lt (p : Pkg) : hlMode p < 4 := Nat.mod_lt _ (by decide)

theorem modeOf_lt {cxl rate mode : Nat} {flit : Bool} (h : modeOf cxl rate = some (mode, flit)) : mode < 4 := by
  unfold modeOf at h
  split_ifs at h <;> simp at h <;> omega

/-- Below 32 GT/s the link is a PCIe link without flits, whatever the partner offers. -/
theorem modeOf_slow (cxl : Nat) {rate : Nat} (h : rate < 5) : modeOf cxl rate = some (1, false) := by
  have h6 : rate ≠ 6 := by omega
  simp [modeOf, h, h6]

theorem doLinkTraining_shows {p : Pkg} {cxl rate width mode : Nat} {flit : Bool} (hr : ready p pgHl = true)
    (hd : hlMode p = 0) (h1 : 1 ≤ rate) (h6 : rate ≤ 6) (hw1 : 1 ≤ width) (hw : width ≤ 16)
    (hm : modeOf (if p.standalone then 0 else cxl) rate = some (mode, flit)) :
    LinkShows (doLinkTraining cxl rate width p) mode flit rate width := by
  simp only [doLinkTraining, hr, hd, h1, h6, hw1, hw, hm, beq_self_eq_true, and_self, decide_true, Bool.and_self, if_true]
  exact setLink_shows _ _ (modeOf_lt hm) (by omega) (by omega)

theorem doLinkRetrain_kept {p : Pkg} {width : Nat} (hm : 2 ≤ hlMode p) (h4 : 4 ≤ width) (h16 : width ≤ 16) :
    LinkShows (doLinkRetrain width true p) (hlMode p) true 5 width := by
  simp only [doLinkRetrain, hm, h4, h16, and_self, decide_true, Bool.and_self, if_true]
  exact setLink_shows _ _ (hlMode_lt p) (by omega) (by omega)

theorem doLinkRetrain_down {p : Pkg} {width : Nat} {kept : Bool} (hm : 2 ≤ hlMode p)
    (h : kept = false ∨ width < 4 ∨ 16 < width) : hlMode (doLinkRetrain width kept p) = 0 := by
  have hk : (kept && decide (4 ≤ width ∧ width ≤ 16)) = false := by
    rcases h with h | h
    · simp [h]
    · rw [decide_eq_false (by omega), Bool.and_false]
  simp only [doLinkRetrain, hm, hk, if_true, Bool.false_eq_true, if_false]
  exact (setLink_shows p false (by decide) (by decide) (by decide)).1

/-! ## Pending MSI-X messages (R510) -/

/-- One listed vector sends its pending message unless it is masked. -/
def sendVector (q : Pkg) (x : Nat × Bool) : Pkg :=
  if vectorMasked q x.1 then q
  else emitMsg { q with int := { q.int with pba := SMap.drop q.int.pba (fun k => k == x.1) } } (.msix x.1)

theorem sendPending_eq (p : Pkg) : sendPending p = (p.int.pba.filter (·.2)).foldl sendVector p := rfl

/-- Only pending bits and messages change. -/
def OnlyPba (p q : Pkg) : Prop := ∃ b o, q = { p with int := { p.int with pba := b }, out := o }

theorem OnlyPba.hl_eq {p q : Pkg} (h : OnlyPba p q) : q.hl = p.hl := by
  obtain ⟨_, _, rfl⟩ := h
  rfl

theorem OnlyPba.msixTable_eq {p q : Pkg} (h : OnlyPba p q) : q.int.msixTable = p.int.msixTable := by
  obtain ⟨_, _, rfl⟩ := h
  rfl

theorem OnlyPba.vectorMasked_eq {p q : Pkg} (h : OnlyPba p q) (v : Nat) : vectorMasked q v = vectorMasked p v := by
  obtain ⟨_, _, rfl⟩ := h
  rfl

theorem OnlyPba.trans {p q r : Pkg} (h : OnlyPba p q) (g : OnlyPba q r) : OnlyPba p r := by
  obtain ⟨_, _, rfl⟩ := h
  obtain ⟨b, o, rfl⟩ := g
  exact ⟨b, o, rfl⟩

theorem sendVector_only (q : Pkg) (x : Nat × Bool) : OnlyPba q (sendVector q x) := by
  unfold sendVector
  split <;> exact ⟨_, _, rfl⟩

theorem foldl_sendVector_only (l : List (Nat × Bool)) (q : Pkg) : OnlyPba q (l.foldl sendVector q) := by
  induction l generalizing q with
  | nil => exact ⟨_, _, rfl⟩
  | cons x t ih => exact (sendVector_only q x).trans (ih _)

theorem sendPending_only (p : Pkg) : OnlyPba p (sendPending p) := by
  rw [sendPending_eq]
  exact foldl_sendVector_only _ p

/-- The message of vector `v` has left, and no bit is pending for it. -/
def VectorSent (v : Nat) (q : Pkg) : Prop := .msix v ∈ q.out ∧ SMap.get q.int.pba v false = false

theorem sendVector_sends {q : Pkg} {v : Nat} (hm : vectorMasked q v = false) : VectorSent v (sendVector q (v, true)) := by
  simp [VectorSent, sendVector, hm, emitMsg, SMap.get_drop]

theorem VectorSent.sendVector {v : Nat} {q : Pkg} (h : VectorSent v q) (x : Nat × Bool) :
    VectorSent v (sendVector q x) := by
  obtain ⟨hout, hpba⟩ := h
  unfold Machine.sendVector
  split
  · exact ⟨hout, hpba⟩
  · exact ⟨List.mem_cons_of_mem _ hout, by simp [emitMsg, SMap.get_drop, hpba]⟩

theorem VectorSent.foldl {v : Nat} {q : Pkg} (h : VectorSent v q) (l : List (Nat × Bool)) :
    VectorSent v (l.foldl Machine.sendVector q) := by
  induction l generalizing q with
  | nil => exact h
  | cons x t ih => exact ih (h.sendVector x)

theorem foldl_sendVector_sends {l : List (Nat × Bool)} {q : Pkg} {v : Nat} (hm : vectorMasked q v = false)
    (hl : (v, true) ∈ l) : VectorSent v (l.foldl sendVector q) := by
  induction l generalizing q with
  | nil => cases hl
  | cons x t ih =>
    rcases List.mem_cons.1 hl with rfl | hl
    · exact (sendVector_sends hm).foldl t
    · exact ih (((sendVector_only q x).vectorMasked_eq v).trans hm) hl

/-- An unmasked vector that is pending sends its message. -/
theorem sendPending_sends {p : Pkg} {v : Nat} (hm : vectorMasked p v = false) (hp : SMap.get p.int.pba v false = true) :
    VectorSent v (sendPending p) := by
  rw [sendPending_eq]
  exact foldl_sendVector_sends hm (List.mem_filter.2 ⟨SMap.mem_of_get hp (by decide), rfl⟩)

theorem vectorMasked_unmaskVector {p : Pkg} (v : Nat) (hon : p.int.msixOn = true) (hmask : p.int.msixMask = false) :
    vectorMasked (unmaskVector p v) v = false := by
  unfold unmaskVector
  rw [(sendPending_only _).vectorMasked_eq]
  have hb (w : W32) : bitOf (withBits w 0 0 0) 0 = false := bitOf_withBits w 0 false (by decide)
  simp [vectorMasked, hon, hmask, SMap.get_set_self, hb]

theorem unmaskVector_sends {p : Pkg} {v : Nat} (hon : p.int.msixOn = true) (hmask : p.int.msixMask = false)
    (hp : SMap.get p.int.pba v false = true) : VectorSent v (unmaskVector p v) := by
  have hm := vectorMasked_unmaskVector v hon hmask
  unfold unmaskVector at hm ⊢
  rw [(sendPending_only _).vectorMasked_eq] at hm
  exact sendPending_sends hm hp

/-! ## Configuration requests (R503, R505) -/

theorem cfgStored_congr {p q : Pkg} (h : q.hl = p.hl) (off : Nat) : cfgStored q off = cfgStored p off := by
  unfold cfgStored
  rw [h]

theorem cfgStored_putCfg (p : Pkg) (off : Nat) (v : W32) : cfgStored (putCfg p (off / 4 * 4) v) off = v := by
  have h : off / 4 * 4 / 4 = off / 4 := by omega
  simp [cfgStored, putCfg, setHl, h, SMap.get_set_self]

/-- A merge through no writable bit keeps the old value. -/
theorem merge_no_bits {w : Nat} (x v : BitVec w) : (x &&& ~~~(0#w)) ||| (v &&& 0#w) = x := by simp

/-- The merge through the writable bits `m`, left out where there are none. -/
theorem cfgStored_merged (p : Pkg) (off : Nat) (m v : W32) :
    cfgStored (if m = 0 then p else putCfg p (off / 4 * 4) ((cfgStored p off &&& ~~~m) ||| (v &&& m))) off =
      (cfgStored p off &&& ~~~m) ||| (v &&& m) := by
  split
  · rename_i hm
    rw [hm]
    exact (merge_no_bits _ _).symm
  · exact cfgStored_putCfg _ _ _

/-- A dword that has no access rule of its own takes the value in its writable bits alone. -/
theorem cfgStored_cfgWrite (p : Pkg) {off : Nat} (v : W32) (h : off / 4 * 4 ∉ [0x104, 0x110, 0x2E8, 0x2F0, 0x2F4]) :
    cfgStored (cfgWrite p off v) off = (cfgStored p off &&& ~~~(BitVec.ofNat 32 (lookupN cfgMask (off / 4 * 4)))) |||
      (v &&& BitVec.ofNat 32 (lookupN cfgMask (off / 4 * 4))) := by
  simp only [List.mem_cons, List.not_mem_nil, or_false, not_or] at h
  obtain ⟨h1, h2, h3, h4, h5⟩ := h
  have hs : cfgStored p (off / 4 * 4) = cfgStored p off := by
    unfold cfgStored
    rw [show off / 4 * 4 / 4 = off / 4 by omega]
  simp only [cfgWrite, h1, h2, h3, h4, h5, or_self, if_false, hs]
  split
  · rw [cfgStored_congr ((sendPending_only _).hl_eq)]
    exact cfgStored_merged _ _ _ _
  · exact cfgStored_merged _ _ _ _

/-- A write of the dword of Device Control changes that dword alone. -/
theorem cfgWrite_deviceControl (p : Pkg) {off : Nat} (v : W32) (h : off / 4 * 4 = 0x58) :
    ∃ w, cfgWrite p off v = putCfg p 0x58 w := by
  simp only [cfgWrite, h]
  exact ⟨_, rfl⟩

theorem doFlr_starts {p : Pkg} (hs : p.standalone = false) (hf : p.hl.flr = false) : (doFlr p).hl.flr = true := by
  simp only [doFlr, hs, hf, Bool.false_eq_true, or_self, if_false, waypoint_hl]
  split <;> simp [setHl]

/-- A hosted package whose link is up answers every configuration request, from its first answer on. -/
theorem doConfigRequest_answering {p : Pkg} {off : Nat} (w : Bool) (v : W32) (hs : p.standalone = false)
    (hm : hlMode p ≠ 0) (ho : off < 4096) (ha : p.hl.answering = true) :
    doConfigRequest w off v p =
      if p.hl.flr then emitMsg p .cfgRetry
      else if w = false then emitMsg p (.cfgData (cfgDword p off))
      else if off / 4 * 4 = 0x58 ∧ bitOf v 15 = true then doFlr (cfgWrite p off v) else cfgWrite p off v := by
  have ho' : ¬ 4096 ≤ off := by omega
  cases w <;> simp [doConfigRequest, answersNow, hs, hm, ho', ha]

/-! ## BAR0 and BAR2 (R508, R510) -/

theorem exec_bar0Access {s : State} (hs : s.pkg.standalone = false) (w : Bool) (off bytes : Nat) (v : W64) :
    exec (.bar0Access w ⟨0, off⟩ bytes v) s = .next (bar0Access w off bytes v s) := by
  show execBar0Access w ⟨0, off⟩ bytes v s = _
  simp [execBar0Access, hs]

theorem exec_bar2Access {s : State} (hs : s.pkg.standalone = false) (w : Bool) (off bytes : Nat) (v : W64) :
    exec (.bar0Access w ⟨2, off⟩ bytes v) s = .next (s.onPkg (bar2Access w off bytes v)) := by
  show execBar0Access w ⟨2, off⟩ bytes v s = _
  simp [execBar0Access, hs]

theorem bar0Access_read {s : State} {off : Nat} (ho : off < 0x4000000) (bytes : Nat) (v : W64) :
    bar0Access false off bytes v s = s.onPkg (bar0Read off bytes) := by
  simp [bar0Access, Nat.not_le.2 ho]

/-- A write is served at once where nothing is held. -/
theorem bar0Access_write {s : State} {off : Nat} (ho : off < 0x4000000) (bytes : Nat) (v : W64) (hh : s.pkg.hl.held = []) :
    bar0Access true off bytes v s = bar0Write off bytes v s := by
  simp [bar0Access, Nat.not_le.2 ho, writesHeld, hh]

theorem bar0Access_doorbell_held {s : State} {off : Nat} (ho : off < 0x4000000) (bytes : Nat) (v : W64)
    (hd : isDoorbell off = true) (hw : writesHeld s.pkg = true) :
    bar0Access true off bytes v s = s.onPkg (fun p => holdRequest p (.bar0Access true ⟨0, off⟩ bytes v)) := by
  simp [bar0Access, Nat.not_le.2 ho, hd, hw]

theorem bar0Read_misaligned {off bytes : Nat} (h : naturallyAligned off bytes = false) (p : Pkg) :
    bar0Read off bytes p = emitMsg (barSize p bytes) (.bar0Data 0) := by
  simp [bar0Read, h]

theorem bar0Read_aperture {off bytes : Nat} (h : naturallyAligned off bytes = true) (ho : off < 0x3FF7000) (p : Pkg) :
    bar0Read off bytes p = emitMsg (readAccess .host off bytes p).2 (.bar0Data (readAccess .host off bytes p).1) := by
  simp [bar0Read, h, ho]

theorem bar0Write_aperture {off bytes : Nat} (h : naturallyAligned off bytes = true) (ho : off < 0x3FF7000) (v : W64)
    (s : State) : bar0Write off bytes v s = writeAccess .host off bytes v s := by
  simp [bar0Write, h, ho]

theorem bar0Write_msix {k : Nat} (v : W64) (s : State) :
    bar0Write (0x3FF7000 + 4 * k) 4 v s = s.onPkg (fun p => msixWrite p (4 * k) (v.setWidth 32)) := by
  have ha : naturallyAligned (0x3FF7000 + 4 * k) 4 = true := by
    simp only [naturallyAligned, beq_self_eq_true, Bool.true_or, Bool.true_and, beq_iff_eq]
    omega
  simp [bar0Write, ha]

/-- The address and data dwords of a vector take the value written. -/
theorem msixTable_msixWrite (p : Pkg) {k : Nat} (v : W32) (hk : k < 8192) (h : k % 4 = 1 ∨ k % 4 = 2) :
    SMap.get (msixWrite p (4 * k) v).int.msixTable k 0 = v := by
  have h1 : 4 * k < 0x8000 := by omega
  have h2 : 4 * k / 4 = k := by omega
  have h3 : k % 4 ≠ 3 := by omega
  have h4 : k % 4 ≠ 0 := by omega
  simp only [msixWrite, h1, h2, h3, h4, if_true, if_false]
  rw [(sendPending_only _).msixTable_eq]
  exact SMap.get_set_self _ _ _ _

theorem bar2Access_read {off : Nat} (h4 : off % 4 = 0) (ho : off < 0x10000) (v : W64) (p : Pkg) :
    bar2Access false off 4 v p = emitMsg p (.bar0Data (BitVec.ofNat 64 (compRead p off).toNat)) := by
  simp [bar2Access, naturallyAligned, h4, ho]

/-! ## The decoder (R513, R514, R520) -/

/-- A commit that R513 admits. -/
def CommitOk (p : Pkg) (size : Nat) : Prop :=
  size % 2 ^ 30 = 0 ∧ 4 * 2 ^ 30 ≤ size ∧ size ≤ 64 * 2 ^ 30 ∧ insetRangeOk p (insetBase p) size = true ∧ hlMode p = 3

theorem doHdmCommit_ok {p : Pkg} (base : Nat) {size : Nat} (hs : p.standalone = false) (hc : committed p = false)
    (h : CommitOk p size) :
    doHdmCommit base size p = setFld (setBit (setHl p { p.hl with hdmBase := base, commitError := false }) insetControl 30
      true) insetControl 23 16 (size / 2 ^ 30) := by
  unfold CommitOk at h
  simp only [doHdmCommit, hs, hc, Bool.false_eq_true, or_self, if_false, if_pos h]

theorem doHdmCommit_fails {p : Pkg} (base : Nat) {size : Nat} (hs : p.standalone = false) (hc : committed p = false)
    (h : ¬ CommitOk p size) : doHdmCommit base size p = setHl p { p.hl with commitError := true } := by
  unfold CommitOk at h
  simp only [doHdmCommit, hs, hc, Bool.false_eq_true, or_self, if_false, if_neg h]

/-- COMMITTED and SIZE written together (bits 30 and [23:16] of HL_INSET_CONTROL). -/
theorem committed_setSize (p : Pkg) (b : Bool) (n : Nat) :
    committed (setFld (setBit p insetControl 30 b) insetControl 23 16 n) = b := by
  unfold committed
  rw [bit_setFld_beside _ _ _ _ _ _ (by decide) (by decide) (by decide), bit_setBit_self _ _ _ _ (by decide)]

theorem insetBytes_setSize (p : Pkg) {n : Nat} (h : n < 256) :
    insetBytes (setFld (setBit p insetControl 30 true) insetControl 23 16 n) = n * 2 ^ 30 := by
  have hc := committed_setSize p true n
  unfold committed at hc
  rw [insetBytes, hc, if_pos rfl, fld_setFld_self _ _ _ _ _ (by decide) (by decide), Nat.mod_eq_of_lt (by simpa using h)]

theorem committed_uncommit (p : Pkg) : committed (uncommit p) = false := committed_setSize _ _ _

theorem insetBytes_uncommit (p : Pkg) : insetBytes (uncommit p) = 0 := by
  have hc := committed_uncommit p
  unfold committed at hc
  rw [insetBytes, hc]
  rfl

theorem reg_uncommit_ne (p : Pkg) {k : Nat} (h : k ≠ insetControl) : reg (uncommit p) k = reg p k := by
  unfold uncommit setBit
  rw [reg_setFld_ne _ _ _ _ h, reg_setFld_ne _ _ _ _ h, reg_setHl]

theorem insetMoving_uncommit (p : Pkg) : insetMoving (uncommit p) = insetMoving p := by
  unfold insetMoving uncommit
  rw [bit_setFld_beside _ _ _ _ _ _ (by decide) (by decide) (by decide),
    bit_setBit_beside _ _ _ _ _ (by decide) (by decide), bit_setHl]

/-! ## Moves of the inset window (R516, R517) -/

/-- Only the homes and messages change. -/
def OnlyHome (p q : Pkg) : Prop := ∃ h o, q = { p with home := h, out := o }

theorem biStart_only (p : Pkg) (line : Nat) (inv : Bool) (req : Option HomeReq) : OnlyHome p (biStart p line inv req) := by
  unfold biStart
  split
  · exact ⟨_, _, rfl⟩
  · dsimp only
    split <;> exact ⟨_, _, rfl⟩

theorem callHost_only (p : Pkg) : OnlyHome p (callHost p) := by
  unfold callHost
  generalize insetHostLines p = l
  induction l generalizing p with
  | nil => exact ⟨_, _, rfl⟩
  | cons a t ih =>
    obtain ⟨h, o, e⟩ := biStart_only p a true none
    obtain ⟨h', o', e'⟩ := ih (biStart p a true none)
    rw [List.foldl_cons, e', e]
    exact ⟨h', o', rfl⟩

theorem OnlyHome.reg_eq {p q : Pkg} (h : OnlyHome p q) (k : Nat) : reg q k = reg p k := by
  obtain ⟨_, _, rfl⟩ := h
  exact reg_congr rfl rfl rfl k

theorem OnlyHome.hl_eq {p q : Pkg} (h : OnlyHome p q) : q.hl = p.hl := by
  obtain ⟨_, _, rfl⟩ := h
  rfl

theorem markInset_reg (p : Pkg) (k : Nat) : reg (markInset p) k = reg p k := reg_congr rfl rfl rfl k

/-- The package in which a move has started (R517 steps 1 to 4). -/
def moveStarted (p : Pkg) : Pkg :=
  callHost (markInset (setBit (setHl p { p.hl with moveStart := p.pace.datum }) insetControl 31 true))

/-- Where R516 admits a write of START, the move starts. -/
theorem putInsetControl_starts {p : Pkg} {v : W64} (hv : bitOf v 0 = true) (hs : p.standalone = false)
    (hc : committed p = true) (hm : insetMoving p = false) (ha : insetNext p % 2 ^ 30 = 0)
    (hr : insetRangeOk p (insetNext p) (insetBytes p) = true) (hn : insetNext p ≠ insetBase p) :
    putInsetControl v p = moveStarted p := by
  simp only [putInsetControl, hv, hs, hc, hm, ha, hr, bne_iff_ne.2 hn, Bool.not_false, Bool.and_self, decide_true, if_true]
  rfl

theorem putInsetControl_discards {p : Pkg} (v : W64)
    (h : committed p = false ∨ insetMoving p = true ∨ insetNext p = insetBase p) : putInsetControl v p = p := by
  rcases h with h | h | h <;> simp [putInsetControl, h]

/-- MOVING reads 1, the base stays, and the datum of the start is kept. -/
theorem moveStarted_reads (p : Pkg) : insetMoving (moveStarted p) = true ∧ insetBase (moveStarted p) = insetBase p ∧
    (moveStarted p).hl.moveStart = p.pace.datum := by
  unfold moveStarted
  have hreg (q : Pkg) (k : Nat) : reg (callHost (markInset q)) k = reg q k := by
    rw [(callHost_only _).reg_eq, markInset_reg]
  refine ⟨?_, ?_, ?_⟩
  · rw [insetMoving, bit_congr (hreg _ _), bit_setBit_self _ _ _ _ (by decide)]
  · rw [insetBase, regN, hreg, setBit, reg_setFld_ne _ _ _ _ (by decide), reg_setHl]
    rfl
  · rw [(callHost_only _).hl_eq]
    rfl

/-- The package at the instant in which a move ends: the base, MOVING and the duration take their values. -/
def moveEnded (p : Pkg) : Pkg :=
  setReg (setBit (setReg p (key pgHl 0x110) (reg p (key pgHl 0x118))) insetControl 31 false) (key pgHl 0x128)
    (BitVec.ofNat 64 (min 0xFFFFFFFF (p.pace.datum - p.hl.moveStart)))

/-- The move is counted and reported, and an uncommit that waited for it takes effect. -/
def afterMove (q : Pkg) : Pkg :=
  let q1 := raiseBlock (bumpReg q (key pgHl 0x124) 1 0xFFFFFFFF) pgHl 0
  if q1.hl.uncommit then uncommit q1 else q1

/-- With nothing held, the end of a move serves no host request. -/
theorem finishMove_unheld {s : State} (h : s.pkg.hl.held = []) :
    finishMove s = { s with pkg := afterMove (setHl (moveEnded s.pkg) { s.pkg.hl with held := [] }) } := by
  unfold finishMove
  simp only [h, List.foldl_nil]
  rfl

theorem afterMove_reg (q : Pkg) {k : Nat} (h0 : k ≠ key pgHl 0x20) (h1 : k ≠ key pgHl 0x24) (h2 : k ≠ key pgHl 0x124)
    (h3 : k ≠ insetControl) : reg (afterMove q) k = reg q k := by
  have h : reg (raiseBlock (bumpReg q (key pgHl 0x124) 1 0xFFFFFFFF) pgHl 0) k = reg q k := by
    rw [raiseBlock_reg _ _ _ h0 h1]
    exact reg_setReg_ne _ _ h2
  unfold afterMove
  dsimp only
  split
  · rw [reg_uncommit_ne _ h3]; exact h
  · exact h

theorem afterMove_moving (q : Pkg) : insetMoving (afterMove q) = insetMoving q := by
  have h : insetMoving (raiseBlock (bumpReg q (key pgHl 0x124) 1 0xFFFFFFFF) pgHl 0) = insetMoving q := by
    unfold insetMoving
    rw [bit_congr (raiseBlock_reg _ _ _ (by decide) (by decide))]
    exact bit_congr (reg_setReg_ne _ _ (by decide)) _
  unfold afterMove
  dsimp only
  split
  · rw [insetMoving_uncommit]; exact h
  · exact h

theorem moveEnded_moving (p : Pkg) : insetMoving (moveEnded p) = false := by
  unfold insetMoving moveEnded
  rw [bit_congr (reg_setReg_ne _ _ (by decide)), bit_setBit_self _ _ _ _ (by decide)]

theorem moveEnded_base (p : Pkg) : reg (moveEnded p) (key pgHl 0x110) = reg p (key pgHl 0x118) := by
  unfold moveEnded setBit
  rw [reg_setReg_ne _ _ (by decide), reg_setFld_ne _ _ _ _ (by decide), reg_setReg_self]

theorem moveEnded_duration (p : Pkg) :
    regN (moveEnded p) (key pgHl 0x128) = min 0xFFFFFFFF (p.pace.datum - p.hl.moveStart) := by
  unfold moveEnded regN
  rw [reg_setReg_self, BitVec.toNat_ofNat]
  omega

end Sys2Proof.Machine
end

section
/-! O40, clause by clause. -/

namespace Sys2Proof.Machine

/-- R513: the decoder commits within its bounds. -/
theorem hdmCommit_commits {s : State} (base : Nat) {size : Nat} (hs : s.pkg.standalone = false) (hc : committed s.pkg = false)
    (h : CommitOk s.pkg size) :
    ∃ t, exec (.hdmCommit base size) s = .next t ∧ t.mem = s.mem ∧ committed t.pkg = true ∧
      insetBytes t.pkg = size ∧ t.pkg.hl.hdmBase = base ∧ t.pkg.hl.commitError = false := by
  refine ⟨s.onPkg (doHdmCommit base size), rfl, rfl, ?_⟩
  rw [State.onPkg_pkg, doHdmCommit_ok base hs hc h]
  obtain ⟨hmod, -, hmax, -, -⟩ := h
  refine ⟨committed_setSize _ _ _, ?_, rfl, rfl⟩
  rw [insetBytes_setSize _ (by omega)]
  omega

/-- R513: outside its bounds the commit fails. -/
theorem hdmCommit_fails {s : State} (base : Nat) {size : Nat} (hs : s.pkg.standalone = false) (hc : committed s.pkg = false)
    (h : ¬ CommitOk s.pkg size) :
    ∃ t, exec (.hdmCommit base size) s = .next t ∧ t.mem = s.mem ∧ committed t.pkg = false ∧
      t.pkg.hl.commitError = true ∧ t.pkg.regs = s.pkg.regs := by
  refine ⟨s.onPkg (doHdmCommit base size), rfl, rfl, ?_⟩
  rw [State.onPkg_pkg, doHdmCommit_fails base hs hc h]
  exact ⟨(bit_setHl _ _ _ _).trans hc, rfl, rfl⟩

/-- R520: an uncommit takes effect at once, or waits for the end of a move. -/
theorem hdmUncommit_or_waits {s : State} (hc : committed s.pkg = true) :
    (insetMoving s.pkg = false → ∃ t, exec .hdmUncommit s = .next t ∧ t.mem = s.mem ∧ committed t.pkg = false ∧
      insetBytes t.pkg = 0) ∧
    (insetMoving s.pkg = true → ∃ t, exec .hdmUncommit s = .next t ∧ t.mem = s.mem ∧ committed t.pkg = true ∧
      t.pkg.hl.uncommit = true) := by
  refine ⟨fun hm => ⟨s.onPkg doHdmUncommit, rfl, rfl, ?_⟩, fun hm => ⟨s.onPkg doHdmUncommit, rfl, rfl, ?_⟩⟩
  · simp only [State.onPkg_pkg, doHdmUncommit, hc, hm, if_true, Bool.false_eq_true, if_false]
    exact ⟨committed_uncommit _, insetBytes_uncommit _⟩
  · simp only [State.onPkg_pkg, doHdmUncommit, hc, hm, if_true]
    exact ⟨(bit_setHl _ _ _ _).trans hc, rfl⟩

/-- R516: a move starts where every condition holds; not committed, moving, or without a new base it is discarded. -/
theorem insetMove_starts_or_discards {s : State} {rq : Requester} {v : W32}
    (hw : writeFate s.pkg rq pgHl 0x120 = .accepted) (hv : bitOf v 0 = true) (hs : s.pkg.standalone = false) :
    (committed s.pkg = true → insetMoving s.pkg = false → insetNext s.pkg % 2 ^ 30 = 0 →
      insetRangeOk s.pkg (insetNext s.pkg) (insetBytes s.pkg) = true → insetNext s.pkg ≠ insetBase s.pkg →
      ∃ t, exec (.insetMove rq v) s = .next t ∧ t.mem = s.mem ∧ insetMoving t.pkg = true ∧
        insetBase t.pkg = insetBase s.pkg ∧ t.pkg.hl.moveStart = s.pkg.pace.datum) ∧
    (committed s.pkg = false ∨ insetMoving s.pkg = true ∨ insetNext s.pkg = insetBase s.pkg →
      exec (.insetMove rq v) s = .next s) := by
  have hv64 : bitOf (v.setWidth 64 : W64) 0 = true := by
    have h : (v.setWidth 64 : W64).toNat = v.toNat := by
      rw [BitVec.toNat_setWidth]
      omega
    simpa [bitOf, h] using hv
  have hdo : doInsetMove rq v s.pkg = putInsetControl (v.setWidth 64) s.pkg := ifWrites_accepted _ hw
  constructor
  · intro hc hm ha hr hn
    refine ⟨s.onPkg (doInsetMove rq v), rfl, rfl, ?_⟩
    rw [State.onPkg_pkg, hdo, putInsetControl_starts hv64 hs hc hm ha hr hn]
    exact moveStarted_reads s.pkg
  · intro h
    exact congrArg Host.Outcome.next (State.onPkg_eq_self (hdo.trans (putInsetControl_discards _ h)))

/-- R517: a move whose lines are recalled and whose holders have paused ends in one instant. -/
theorem insetMoveDone_ends {s : State} (hm : insetMoving s.pkg = true) (hl : (insetHostLines s.pkg).isEmpty = true)
    (hp : holdersPaused s.pkg = true) (hh : s.pkg.hl.held = []) :
    ∃ t, exec .insetMoveDone s = .next t ∧ t.mem = s.mem ∧ insetMoving t.pkg = false ∧
      insetBase t.pkg = insetNext s.pkg ∧
      regN t.pkg (key pgHl 0x128) = min 0xFFFFFFFF (s.pkg.pace.datum - s.pkg.hl.moveStart) := by
  have he : exec .insetMoveDone s = .next (finishMove s) := by
    show execInsetMoveDone s = _
    simp only [execInsetMoveDone, hm, hl, hp, Bool.true_eq_false, if_false, if_true]
  refine ⟨finishMove s, he, ?_⟩
  rw [finishMove_unheld hh]
  refine ⟨rfl, ?_, ?_, ?_⟩
  · exact (afterMove_moving _).trans ((bit_setHl _ _ _ _).trans (moveEnded_moving _))
  · rw [insetBase, insetNext, regN, afterMove_reg _ (by decide) (by decide) (by decide) (by decide), reg_setHl,
      moveEnded_base, regN]
  · rw [regN, afterMove_reg _ (by decide) (by decide) (by decide) (by decide), reg_setHl]
    exact moveEnded_duration _

/-- Settles O40: each clause is what the operation's own lemma above says, on the one successor that `exec` answers. -/
theorem theHostLinkTrainsAnswersAndMoves : Obligations.TheHostLinkTrainsAnswersAndMoves := by
  unfold Obligations.TheHostLinkTrainsAnswersAndMoves
  refine ⟨?training, ⟨rfl, rfl, rfl, fun cxl _ => modeOf_slow cxl, rfl, rfl⟩, ?retraining, ?config, ?bars, ?msixTable,
    ?unmask, ?commit, fun s => hdmUncommit_or_waits, fun s rq v => insetMove_starts_or_discards,
    fun s => insetMoveDone_ends⟩
  case training =>
    intro s cxl rate width mode flit hr hd h1 h6 hw1 hw hm
    obtain ⟨hmode, hflit, hrate, hwidth⟩ := doLinkTraining_shows hr hd h1 h6 hw1 hw hm
    exact ⟨_, rfl, hmode, hflit, hrate, hwidth, rfl⟩
  case retraining =>
    intro s width kept hm
    refine ⟨s.onPkg (doLinkRetrain width kept), rfl, rfl, ?_, doLinkRetrain_down hm⟩
    rintro ⟨rfl, h4, h16⟩
    obtain ⟨hmode, -, hrate, hwidth⟩ := doLinkRetrain_kept hm h4 h16
    exact ⟨hmode, hrate, hwidth⟩
  case config =>
    intro s off v hs hm ho ha
    have hdo (w : Bool) := doConfigRequest_answering w v hs hm ho ha
    refine ⟨fun w hf => ⟨_, rfl, rfl, ?_⟩, fun hf => ⟨_, rfl, rfl, ?_⟩, fun hf hoff h58 => ⟨_, rfl, rfl, ?_⟩,
      fun hf h58 h15 => ⟨_, rfl, rfl, ?_⟩⟩ <;> rw [State.onPkg_pkg, hdo]
    · simp only [hf, if_true]
      rfl
    · simp only [hf, Bool.false_eq_true, if_false, if_true]
      rfl
    · have hno : ¬ (off / 4 * 4 = 0x58 ∧ bitOf v 15 = true) := fun ⟨h, h15⟩ => by simp [h58 h] at h15
      simp only [hf, hno, Bool.false_eq_true, Bool.true_eq_false, if_false]
      exact cfgStored_cfgWrite _ _ hoff
    · obtain ⟨w, hw⟩ := cfgWrite_deviceControl s.pkg v h58
      simp only [hf, h58, h15, and_self, Bool.false_eq_true, Bool.true_eq_false, if_false, if_true, hw]
      exact doFlr_starts hs hf
  case bars =>
    intro s off bytes v hs ho
    refine ⟨fun h => ?_, fun h hap => ?_, fun h hap hh => ?_, fun hd hw => ?_, fun h4 hsz => ?_⟩
    · refine ⟨_, exec_bar0Access hs _ _ _ _, ?_⟩
      rw [bar0Access_read ho]
      exact ⟨rfl, by rw [State.onPkg_pkg, bar0Read_misaligned h]; rfl⟩
    · refine ⟨_, exec_bar0Access hs _ _ _ _, ?_⟩
      rw [bar0Access_read ho]
      exact ⟨rfl, by rw [State.onPkg_pkg, bar0Read_aperture h hap]; rfl⟩
    · rw [exec_bar0Access hs, bar0Access_write ho _ _ hh, bar0Write_aperture h hap]
    · refine ⟨_, exec_bar0Access hs _ _ _ _, ?_⟩
      rw [bar0Access_doorbell_held ho _ _ hd hw]
      exact ⟨rfl, rfl⟩
    · refine ⟨_, exec_bar2Access hs _ _ _ _, rfl, ?_⟩
      rw [State.onPkg_pkg, bar2Access_read h4 hsz]
      rfl
  case msixTable =>
    intro s k v hs hk hmod hh
    refine ⟨_, exec_bar0Access hs _ _ _ _, ?_⟩
    rw [bar0Access_write (by omega) _ _ hh, bar0Write_msix]
    exact ⟨rfl, msixTable_msixWrite _ _ hk hmod⟩
  case unmask =>
    intro s vec hvec hs hon hmask hp
    refine ⟨_, rfl, rfl, ?_⟩
    rw [State.onPkg_pkg, if_pos ⟨hvec, hs⟩]
    obtain ⟨hout, hpba⟩ := unmaskVector_sends hon hmask hp
    exact ⟨hout, vectorMasked_unmaskVector _ hon hmask, hpba⟩
  case commit =>
    intro s base size hs hc
    refine ⟨fun hmod hmin hmax hr hm => hdmCommit_commits base hs hc ⟨hmod, hmin, hmax, hr, hm⟩,
      fun h => hdmCommit_fails base hs hc ?_⟩
    rintro ⟨hmod, hmin, hmax, hr, hm⟩
    rcases h with h | h | h | h | h
    · exact h hmod
    · exact absurd hmin (Nat.not_le.2 h)
    · exact absurd hmax (Nat.not_le.2 h)
    · exact h hm
    · simp [hr] at h

end Sys2Proof.Machine
end

section
/-! Shared rules for the pace, the datum and the boot (spec/02, spec/19): what an operation on registers and records keeps of
the package, folds, fields of merged words, and registers that the fuses do not reach. -/

namespace Sys2Proof.Machine

/-! ## What a change of registers, queues and records keeps -/

theorem OnlyLog.pace_eq {p q : Pkg} (h : OnlyLog p q) : q.pace = p.pace := by
  obtain ⟨_, _, _, _, _, rfl⟩ := h
  rfl

theorem OnlyLog.boot_eq {p q : Pkg} (h : OnlyLog p q) : q.boot = p.boot := by
  obtain ⟨_, _, _, _, _, rfl⟩ := h
  rfl

theorem OnlyLog.seq_eq {p q : Pkg} (h : OnlyLog p q) : q.seq = p.seq := by
  obtain ⟨_, _, _, _, _, rfl⟩ := h
  rfl

theorem OnlyLog.fuse_eq {p q : Pkg} (h : OnlyLog p q) : q.fuse = p.fuse := by
  obtain ⟨_, _, _, _, _, rfl⟩ := h
  rfl

theorem OnlyLog.ces_eq {p q : Pkg} (h : OnlyLog p q) : q.ces = p.ces := by
  obtain ⟨_, _, _, _, _, rfl⟩ := h
  rfl

@[simp] theorem raiseBlock_pace (p : Pkg) (pg n : Nat) : (raiseBlock p pg n).pace = p.pace :=
  (raiseBlock_only p pg n).log.pace_eq

@[simp] theorem reg_emitMsg (p : Pkg) (m : OutMsg) (k : Nat) : reg (emitMsg p m) k = reg p k := reg_congr rfl rfl rfl k

/-! ## Records without registers -/

theorem reg_withPwr (p : Pkg) (x : PwrSt) (k : Nat) : reg { p with pwr := x } k = reg p k := reg_congr rfl rfl rfl k

/-- The package with the state of its pace and datum replaced. -/
def setPace (p : Pkg) (x : PaceSt) : Pkg := { p with pace := x }

@[simp] theorem setPace_pace (p : Pkg) (x : PaceSt) : (setPace p x).pace = x := rfl

@[simp] theorem reg_setPace (p : Pkg) (x : PaceSt) (k : Nat) : reg (setPace p x) k = reg p k := reg_congr rfl rfl rfl k

@[simp] theorem fld_setPace (p : Pkg) (x : PaceSt) (k hi lo : Nat) : fld (setPace p x) k hi lo = fld p k hi lo :=
  fld_congr (reg_setPace p x k) hi lo

@[simp] theorem bit_setPace (p : Pkg) (x : PaceSt) (k n : Nat) : bit (setPace p x) k n = bit p k n :=
  bit_congr (reg_setPace p x k) n

/-! ## Folds -/

/-- What every step of a fold keeps, the fold keeps. -/
theorem foldl_keeps {α β : Type} (g : Pkg → β) {f : Pkg → α → Pkg} (hf : ∀ p a, g (f p a) = g p) (l : List α) (p : Pkg) :
    g (l.foldl f p) = g p := by
  induction l generalizing p with
  | nil => rfl
  | cons a t ih => rw [List.foldl_cons, ih, hf]

theorem reg_foldl_setReg_ne {k : Nat} {f : Nat → Nat} {v : Nat → W64} {l : List Nat} (p : Pkg)
    (h : ∀ d ∈ l, k ≠ f d) : reg (l.foldl (fun q d => setReg q (f d) (v d)) p) k = reg p k := by
  induction l generalizing p with
  | nil => rfl
  | cons a t ih =>
    rw [List.foldl_cons, ih _ fun d hd => h d (List.mem_cons_of_mem _ hd), reg_setReg_ne _ _ (h a List.mem_cons_self)]

/-- A fold that writes a register for each index of a list leaves at each its own value. -/
theorem reg_foldl_setReg {f : Nat → Nat} (hf : Function.Injective f) (v : Nat → W64) {l : List Nat} (p : Pkg)
    {d : Nat} (h : d ∈ l) : reg (l.foldl (fun q d => setReg q (f d) (v d)) p) (f d) = v d := by
  induction l generalizing p with
  | nil => cases h
  | cons a t ih =>
    rw [List.foldl_cons]
    by_cases ht : d ∈ t
    · exact ih _ ht
    · obtain rfl : d = a := (List.mem_cons.1 h).resolve_right ht
      have hne : ∀ e ∈ t, f d ≠ f e := fun e he h' => ht (hf h' ▸ he)
      rw [reg_foldl_setReg_ne _ hne, reg_setReg_self]

/-! ## Fields of words -/

/-- Words that agree on a field's bits have the same field. -/
theorem bitsOf_congr {w : Nat} {x y : BitVec w} {hi lo : Nat} (h : ∀ i, lo ≤ i → i ≤ hi → x.getLsbD i = y.getLsbD i) :
    bitsOf x hi lo = bitsOf y hi lo := by
  refine Nat.eq_of_testBit_eq fun i => ?_
  simp only [bitsOf, Nat.testBit_mod_two_pow, Nat.testBit_shiftRight]
  by_cases hi' : i < hi + 1 - lo
  · have e := h (lo + i) (by omega) (by omega)
    simp only [BitVec.getLsbD] at e
    rw [e]
  · simp [hi']

/-- A merge takes the value's bits where the row's bits are writable. -/
theorem getLsbD_mergeWrite {r : Row} {i : Nat} (old v : W64) (hrw : r.rw.testBit i = true) (hw1c : r.w1c = 0)
    (hi : i < 64) : (mergeWrite r old v).getLsbD i = v.getLsbD i := by
  simp only [mergeWrite, BitVec.getLsbD_and, BitVec.getLsbD_or, BitVec.getLsbD_not, BitVec.getLsbD_ofNat, hrw, hw1c, hi]
  simp

/-- A field whose bits are all writable takes the value's field. -/
theorem bitsOf_mergeWrite {r : Row} {hi lo : Nat} (old v : W64) (h : hi < 64) (hw1c : r.w1c = 0)
    (hrw : ∀ i, lo ≤ i → i ≤ hi → r.rw.testBit i = true) : bitsOf (mergeWrite r old v) hi lo = bitsOf v hi lo :=
  bitsOf_congr fun i hlo hhi => getLsbD_mergeWrite old v (hrw i hlo hhi) hw1c (by omega)

theorem bitOf_mergeWrite {r : Row} {n : Nat} (old v : W64) (h : n < 64) (hw1c : r.w1c = 0) (hrw : r.rw.testBit n = true) :
    bitOf (mergeWrite r old v) n = bitOf v n := by
  rw [bitOf_eq_bitsOf, bitOf_eq_bitsOf, bitsOf_mergeWrite old v h hw1c]
  intro i hlo hhi
  rwa [Nat.le_antisymm hhi hlo]

end Sys2Proof.Machine
end

section
/-! The pace of the dies (spec/02 R57 to R75): what its operations leave, and the proof of O7. -/

namespace Sys2Proof.Machine

/-! ## A die's rail, temperature and natural pace (R58 to R64) -/

@[simp] theorem reg_setDie (p : Pkg) (die mv tj pace k : Nat) : reg (setDie p die mv tj pace) k = reg p k :=
  reg_withPwr _ _ k

@[simp] theorem railOf_setDie (p : Pkg) (die mv tj pace : Nat) : railOf (setDie p die mv tj pace) die = mv :=
  SMap.get_set_self _ _ _ _

@[simp] theorem tjOf_setDie (p : Pkg) (die mv tj pace : Nat) : tjOf (setDie p die mv tj pace) die = tj :=
  SMap.get_set_self _ _ _ _

theorem natural_setDie (p : Pkg) (die mv tj pace : Nat) :
    SMap.get (setDie p die mv tj pace).pwr.natural die 0 = max pace (paceFloor p die mv tj) :=
  SMap.get_set_self _ _ _ _

/-- A rail that comes back to 0.60 V notes the moment; one below it notes none. -/
theorem okSince_setDie (p : Pkg) (die mv tj pace : Nat) : SMap.get (setDie p die mv tj pace).pwr.okSince die 0 =
    if mv < 600 then 0 else if 600 ≤ railOf p die then SMap.get p.pwr.okSince die 0 else p.pace.datum + 1 :=
  SMap.get_set_self _ _ _ _

/-! ## Floor halts (R63, R64) -/

theorem doFloorHalt_halts {p : Pkg} {n : Nat} (hn : n < 4) (hr : railOf p n < 580) (hh : halted p n = false) :
    halted (doFloorHalt n p) n = true ∧ SMap.get (doFloorHalt n p).pwr.haltSince n 0 = p.pace.datum ∧
      ∀ k, k ≠ key pgPwr (0x210 + 4 * n) → reg (doFloorHalt n p) k = reg p k := by
  rw [doFloorHalt, if_pos ⟨hn, hr, hh⟩]
  refine ⟨bit_setBit_self _ _ _ _ (by decide), SMap.get_set_self _ _ _ _, fun k hk => ?_⟩
  exact (reg_withPwr _ _ k).trans (reg_setFld_ne _ _ _ _ hk)

/-- The pace status registers lie above those that a record and a guard write. -/
theorem paceStatus_ne (n : Nat) {off : Nat} (h : off < 0x210) : key pgPwr (0x210 + 4 * n) ≠ key pgPwr off := by
  unfold key
  omega

theorem doFloorResume_resumes {p : Pkg} {n : Nat} (hn : n < 4) (hh : halted p n = true)
    (hok : 0 < SMap.get p.pwr.okSince n 0) (hd : SMap.get p.pwr.okSince n 0 - 1 + 2000 ≤ p.pace.datum) :
    halted (doFloorResume n p) n = false := by
  have hne {off : Nat} (h : off < 0x210) := paceStatus_ne n h
  have hlog (e : ErrArgs) (d : Nat) :
      halted (logErrAt (setBit p (key pgPwr (0x210 + 4 * n)) 31 false) pgPwr e d) n = false := by
    unfold halted
    rw [bit_congr (logErrAt_reg _ _ _ _ (hne (by decide)) (hne (by decide)) (hne (by decide)) (hne (by decide)))]
    exact bit_setBit_self _ _ _ _ (by decide)
  simp only [doFloorResume, hn, hh, Nat.ne_of_gt hok, hd, ne_eq, not_false_eq_true, and_self, if_true]
  split
  · unfold halted
    rw [bit_congr (raiseBlock_reg _ _ _ (hne (by decide)) (hne (by decide))), bit_setBit_ne _ _ _ _ (hne (by decide))]
    exact hlog _ _
  · exact hlog _ _

/-! ## Fixed-pace mode (R70, R71) -/

theorem reg_wantFixed (p : Pkg) (k : Nat) : reg (wantFixed p) k = reg p k := by
  unfold wantFixed
  exact foldl_keeps (fun q => reg q k) (fun _ _ => reg_withPwr _ _ k) _ p

theorem putFixedPace_discards {v : W64} (p : Pkg) (h : bitsOf v 7 0 < 100 ∨ 220 < bitsOf v 7 0) : putFixedPace v p = p :=
  if_pos h

/-- The register that a write leaves: SET and the mode as written, SETTLED clear. -/
def fixedWritten (v : W64) (p : Pkg) : Pkg :=
  setBit (setReg p (key pgPwr 0x200) (mergeWrite (rw4 0x200 (msk 16 16 + msk 7 0)) (reg p (key pgPwr 0x200)) v))
    (key pgPwr 0x200) 31 false

theorem reg_putFixedPace {v : W64} (p : Pkg) (h : ¬ (bitsOf v 7 0 < 100 ∨ 220 < bitsOf v 7 0)) (k : Nat) :
    reg (putFixedPace v p) k = reg (fixedWritten v p) k := by
  have hgate (q : Pkg) (c : Bool) (x : PwrSt) : reg (if c = true then { q with pwr := x } else q) k = reg q k := by
    split
    · exact reg_withPwr q x k
    · rfl
  rw [putFixedPace, if_neg h]
  dsimp only
  split
  · exact (hgate _ _ _).trans (reg_wantFixed (fixedWritten v p) k)
  · rfl

theorem putFixedPace_takes {v : W64} (p : Pkg) (h : ¬ (bitsOf v 7 0 < 100 ∨ 220 < bitsOf v 7 0)) :
    fixedSettled (putFixedPace v p) = false ∧ fixedSet (putFixedPace v p) = bitsOf v 7 0 ∧
      fixedOn (putFixedPace v p) = bitOf v 16 := by
  have hlow : ∀ i, 0 ≤ i → i ≤ 7 → (msk 16 16 + msk 7 0).testBit i = true := by decide
  have hreg : reg (putFixedPace v p) (key pgPwr 0x200) =
      withBits (mergeWrite (rw4 0x200 (msk 16 16 + msk 7 0)) (reg p (key pgPwr 0x200)) v) 31 31 (bitNat false) := by
    rw [reg_putFixedPace p h, fixedWritten, setBit, setFld, reg_setReg_self, reg_setReg_self]
  unfold fixedSettled fixedSet fixedOn bit fld
  rw [hreg]
  refine ⟨bitOf_withBits _ 31 false (by decide), ?_, ?_⟩
  · rw [bitsOf_withBits_ne _ _ _ _ _ _ (by decide) (by decide) (by decide) (by decide)]
    exact bitsOf_mergeWrite _ _ (by decide) rfl hlow
  · rw [bitOf_eq_bitsOf, bitsOf_withBits_ne _ _ _ _ _ _ (by decide) (by decide) (by decide) (by decide),
      ← bitOf_eq_bitsOf]
    exact bitOf_mergeWrite _ _ (by decide) rfl (by decide)

theorem doFixedPaceSettled_settles {p : Pkg} (hs : fixedSettled p = false) (hg : p.pwr.gateClosed = false)
    (hr : ∀ n, n < 4 → railReached p n = true) :
    fixedSettled (doFixedPaceSettled p) = true ∧ (doFixedPaceSettled p).pwr.settledAt = p.pace.datum ∧
      (doFixedPaceSettled p).pwr.gateSet = if fixedOn p then fixedSet p else 0 := by
  have hall : (List.range 4).all (railReached p) = true :=
    List.all_eq_true.2 fun n hn => hr n (List.mem_range.1 hn)
  rw [doFixedPaceSettled, if_pos ⟨hs, hg, hall⟩]
  exact ⟨bit_setBit_self _ _ _ _ (by decide), rfl, rfl⟩

/-! ## The pace status (R72, R74, R75) -/

/-- PWR_PACE_STATUS of a die with its voltage, temperature and mean pace. -/
def paceShown (p : Pkg) (k mv tj mean : Nat) : Pkg := setFld (setFld (setFld p k 29 20 mv) k 19 12 tj) k 9 0 (min 1023 mean)

/-- A settled sheet's mean was below SET over the whole interval (R75). -/
def slips (p : Pkg) (die mean : Nat) : Bool :=
  decide (die < 4) && fixedOn p && (fixedSettled p && decide (p.pwr.settledAt + 1000 ≤ p.pace.datum)) &&
    decide (mean < fixedSet p)

/-- A refresh leaves at the die's status register what is shown, with SLIP. -/
theorem reg_doPaceStatusRefresh {die : Nat} (mv tj pace : Nat) (b : Bool) (p : Pkg) (h : die < 5) :
    reg (doPaceStatusRefresh die mv tj pace b p) (key pgPwr (0x210 + 4 * die)) =
      reg (setBit (paceShown (setDie p die mv tj pace) (key pgPwr (0x210 + 4 * die)) mv tj
        (meanPace (setDie p die mv tj pace) die)) (key pgPwr (0x210 + 4 * die)) 30
        (slips p die (meanPace (setDie p die mv tj pace) die))) (key pgPwr (0x210 + 4 * die)) := by
  have hne : key pgPwr (0x210 + 4 * die) ≠ key pgPwr 0x228 := by unfold key; omega
  rw [doPaceStatusRefresh, if_neg (by omega)]
  refine (reg_withPwr _ _ _).trans ?_
  split
  · split <;> exact reg_setFld_ne _ _ _ _ hne
  · rfl

theorem pwr_doPaceStatusRefresh {die : Nat} (mv tj pace : Nat) (b : Bool) (p : Pkg) (h : die < 5) :
    ∃ m, (doPaceStatusRefresh die mv tj pace b p).pwr = { (setDie p die mv tj pace).pwr with meanFrom := m } := by
  rw [doPaceStatusRefresh, if_neg (by omega)]
  dsimp only
  split
  · split <;> exact ⟨_, rfl⟩
  · exact ⟨_, rfl⟩

theorem doPaceStatusRefresh_stands {die : Nat} (mv tj pace : Nat) (b : Bool) (p : Pkg) (h : die < 5) :
    tjOf (doPaceStatusRefresh die mv tj pace b p) die = tj ∧ railOf (doPaceStatusRefresh die mv tj pace b p) die = mv := by
  obtain ⟨_, hpwr⟩ := pwr_doPaceStatusRefresh mv tj pace b p h
  rw [tjOf, railOf, hpwr]
  exact ⟨tjOf_setDie p die mv tj pace, railOf_setDie p die mv tj pace⟩

theorem paceShown_shows (p : Pkg) (k : Nat) {mv tj : Nat} (mean : Nat) (b : Bool) (hmv : mv < 1024) (htj : tj < 256) :
    fld (setBit (paceShown p k mv tj mean) k 30 b) k 29 20 = mv ∧
      fld (setBit (paceShown p k mv tj mean) k 30 b) k 19 12 = tj ∧
      fld (setBit (paceShown p k mv tj mean) k 30 b) k 9 0 = min 1023 mean := by
  have hmean : min 1023 mean < 1024 := by omega
  simp [setBit, paceShown, fld_setFld_beside, fld_setFld_self, Nat.mod_eq_of_lt, hmv, htj, hmean]

theorem slips_iff (p : Pkg) (die mean : Nat) : slips p die mean = true ↔
    die < 4 ∧ fixedOn p = true ∧ fixedSettled p = true ∧ p.pwr.settledAt + 1000 ≤ p.pace.datum ∧ mean < fixedSet p := by
  simp [slips, and_assoc]

/-- R74, R72: a refresh shows voltage, temperature and mean pace, and SLIP. -/
theorem paceStatusRefresh_shows (s : State) {die mv tj : Nat} (pace : Nat) (b : Bool) {mean : Nat} (h : die < 5)
    (hmv : mv < 1024) (htj : tj < 256) (hm : mean = meanPace (setDie s.pkg die mv tj pace) die) :
    ∃ t, exec (.paceStatusRefresh die mv tj pace b) s = .next t ∧ t.mem = s.mem ∧
    tjOf t.pkg die = tj ∧ railOf t.pkg die = mv ∧ fld t.pkg (key pgPwr (0x210 + 4 * die)) 29 20 = mv ∧
    fld t.pkg (key pgPwr (0x210 + 4 * die)) 19 12 = tj ∧ fld t.pkg (key pgPwr (0x210 + 4 * die)) 9 0 = min 1023 mean ∧
    (bit t.pkg (key pgPwr (0x210 + 4 * die)) 30 = true ↔ die < 4 ∧ fixedOn s.pkg = true ∧ fixedSettled s.pkg = true ∧
      s.pkg.pwr.settledAt + 1000 ≤ s.pkg.pace.datum ∧ mean < fixedSet s.pkg) := by
  obtain ⟨htj', hmv'⟩ := doPaceStatusRefresh_stands mv tj pace b s.pkg h
  have hreg := reg_doPaceStatusRefresh mv tj pace b s.pkg h
  rw [← hm] at hreg
  obtain ⟨hv, ht, hmean⟩ := paceShown_shows (setDie s.pkg die mv tj pace) (key pgPwr (0x210 + 4 * die)) mean
    (slips s.pkg die mean) hmv htj
  refine ⟨s.onPkg (doPaceStatusRefresh die mv tj pace b), rfl, rfl, htj', hmv', ?_, ?_, ?_, ?_⟩ <;> rw [State.onPkg_pkg]
  · exact (fld_congr hreg _ _).trans hv
  · exact (fld_congr hreg _ _).trans ht
  · exact (fld_congr hreg _ _).trans hmean
  · rw [bit_congr hreg, bit_setBit_self _ _ _ _ (by decide)]
    exact slips_iff _ _ _

/-- R62: a rail stands at its new voltage, and its die's natural pace follows. -/
theorem railVoltageChange_sets (s : State) {rail : Nat} (mv pace : Nat) (h : rail < 5) :
    ∃ t, exec (.railVoltageChange rail mv pace) s = .next t ∧ t.mem = s.mem ∧
    railOf t.pkg rail = mv ∧ tjOf t.pkg rail = tjOf s.pkg rail ∧
    paceFloor s.pkg rail mv (tjOf s.pkg rail) ≤ SMap.get t.pkg.pwr.natural rail 0 ∧
    (600 ≤ mv → railOf s.pkg rail < 600 → SMap.get t.pkg.pwr.okSince rail 0 = s.pkg.pace.datum + 1) ∧
    (mv < 600 → SMap.get t.pkg.pwr.okSince rail 0 = 0) ∧ t.pkg.regs = s.pkg.regs := by
  have hdo : doRailVoltageChange rail mv pace s.pkg = setDie s.pkg rail mv (tjOf s.pkg rail) pace := if_neg (by omega)
  refine ⟨s.onPkg (doRailVoltageChange rail mv pace), rfl, rfl, ?_⟩
  rw [State.onPkg_pkg, hdo, natural_setDie, okSince_setDie]
  refine ⟨railOf_setDie _ _ _ _ _, tjOf_setDie _ _ _ _ _, le_max_right _ _, fun hmv hr => ?_, fun hmv => if_pos hmv, rfl⟩
  rw [if_neg (Nat.not_lt.2 hmv), if_neg (Nat.not_le.2 hr)]

/-- Settles O7: each clause is what the operation's own lemma above says. -/
theorem sheetsHaltAtTheFloorAndTakeFixedPaces : Obligations.SheetsHaltAtTheFloorAndTakeFixedPaces := by
  unfold Obligations.SheetsHaltAtTheFloorAndTakeFixedPaces
  refine ⟨⟨fun s rail mv pace => railVoltageChange_sets s mv pace, ?halt, ?resume⟩, ?discarded, ?taken, ?settled,
    fun s die mv tj pace b mean => paceStatusRefresh_shows s pace b⟩
  case halt =>
    intro s n hn hr hh
    obtain ⟨hhalt, hsince, hregs⟩ := doFloorHalt_halts hn hr hh
    exact ⟨_, rfl, hhalt, hsince, rfl, hregs⟩
  case resume =>
    intro s n hn hh hok hd
    exact ⟨_, rfl, doFloorResume_resumes hn hh hok hd, rfl⟩
  case discarded =>
    intro s rq v hw hv
    have hdo : doFixedPaceWrite rq v s.pkg = s.pkg := (ifWrites_accepted _ hw).trans (putFixedPace_discards _ hv)
    exact congrArg Host.Outcome.next (State.onPkg_eq_self hdo)
  case taken =>
    intro s rq v hw hlo hhi
    have hdo : doFixedPaceWrite rq v s.pkg = putFixedPace (v.setWidth 64) s.pkg := ifWrites_accepted _ hw
    refine ⟨s.onPkg (doFixedPaceWrite rq v), rfl, rfl, ?_⟩
    rw [State.onPkg_pkg, hdo]
    exact putFixedPace_takes _ (by omega)
  case settled =>
    intro s hs hg hr
    exact ⟨_, rfl, rfl, doFixedPaceSettled_settles hs hg hr⟩

end Sys2Proof.Machine
end

section
/-! The datum (spec/02 R81 to R94, spec/16 R573): what its operations leave, and the proof of O8. -/

namespace Sys2Proof.Machine

/-! ## DT_STATUS -/

theorem bit_raiseBlock_dtStatus (p : Pkg) (n m : Nat) : bit (raiseBlock p pgDt n) dtStatus m = bit p dtStatus m :=
  bit_congr (raiseBlock_reg _ _ _ (by decide) (by decide)) m

theorem bit_setBit_dtStatus (p : Pkg) {n : Nat} (m : Nat) (b : Bool) (hn : n < 64) :
    bit (setBit p dtStatus n b) dtStatus m = if m = n then b else bit p dtStatus m := by
  by_cases h : m = n
  · rw [if_pos h, h]
    exact bit_setBit_self _ _ _ _ hn
  · rw [if_neg h]
    exact bit_setBit_beside _ _ _ _ _ hn h

/-- A flag that already has its value reads as if it took it. -/
theorem bit_eq_ite {p : Pkg} {n : Nat} {b : Bool} (m : Nat) (h : bit p dtStatus n = b) :
    bit p dtStatus m = if m = n then b else bit p dtStatus m := by
  by_cases hm : m = n
  · rw [if_pos hm, hm, h]
  · rw [if_neg hm]

theorem bit_dtFlag (p : Pkg) {n : Nat} (blk m : Nat) (b : Bool) (hn : n < 64) :
    bit (dtFlag p n blk b) dtStatus m = if m = n then b else bit p dtStatus m := by
  unfold dtFlag
  split
  · rename_i h
    exact bit_eq_ite m h
  · rw [bit_raiseBlock_dtStatus, bit_setBit_dtStatus _ _ _ hn]

@[simp] theorem bit_setMaster (p : Pkg) (b : Bool) (m : Nat) :
    bit (setMaster p b) dtStatus m = if m = 3 then b else bit p dtStatus m := bit_dtFlag _ _ _ _ (by decide)

@[simp] theorem bit_setSynced (p : Pkg) (b : Bool) (m : Nat) :
    bit (setSynced p b) dtStatus m = if m = 1 then b else bit p dtStatus m := bit_dtFlag _ _ _ _ (by decide)

@[simp] theorem bit_setHoldover (p : Pkg) (b : Bool) (m : Nat) :
    bit (setHoldover p b) dtStatus m = if m = 2 then b else bit p dtStatus m := by
  unfold setHoldover
  split
  · rename_i h
    exact bit_eq_ite m h
  · cases b
    · exact bit_setBit_dtStatus _ _ _ (by decide)
    · have hcount : bit (bumpReg (setBit p dtStatus 2 true) (key pgDt 0x158) 1 0xFFFFFFFF) dtStatus m =
          bit (setBit p dtStatus 2 true) dtStatus m := bit_congr (reg_setReg_ne _ _ (by decide)) m
      rw [if_pos rfl, bit_raiseBlock_dtStatus, hcount]
      exact bit_setBit_dtStatus _ _ _ (by decide)

/-- HOPS stands above the flags. -/
theorem bit_setHops (p : Pkg) (v : Nat) {m : Nat} (hm : m < 8) :
    bit (setFld p dtStatus 15 8 v) dtStatus m = bit p dtStatus m :=
  bit_setFld_beside _ _ _ _ _ _ (by decide) (by decide) (.inl hm)

@[simp] theorem dtFlag_pace (p : Pkg) (n blk : Nat) (b : Bool) : (dtFlag p n blk b).pace = p.pace := by
  unfold dtFlag
  split <;> simp

@[simp] theorem setMaster_pace (p : Pkg) (b : Bool) : (setMaster p b).pace = p.pace := dtFlag_pace _ _ _ _

@[simp] theorem setSynced_pace (p : Pkg) (b : Bool) : (setSynced p b).pace = p.pace := dtFlag_pace _ _ _ _

@[simp] theorem setHoldover_pace (p : Pkg) (b : Bool) : (setHoldover p b).pace = p.pace := by
  unfold setHoldover
  split
  · rfl
  · split <;> simp

/-! ## REFCLK (R81) -/

theorem doRefclkLost_sets {p : Pkg} (h : bit p dtStatus 4 = false) : bit (doRefclkLost p) dtStatus 4 = true := by
  rw [doRefclkLost, h, if_neg (by decide), bit_raiseBlock_dtStatus,
    bit_congr (logErr_reg _ _ _ (by decide) (by decide) (by decide) (by decide))]
  exact bit_setBit_self _ _ _ _ (by decide)

theorem doRefclkRestored_clears {p : Pkg} (h : bit p dtStatus 4 = true) : bit (doRefclkRestored p) dtStatus 4 = false := by
  rw [doRefclkRestored, h, if_pos rfl, bit_raiseBlock_dtStatus]
  exact bit_setBit_self _ _ _ _ (by decide)

/-! ## The exchange (R83, R94) -/

/-- The package once the exchange has taken the control word. -/
def withControl (p : Pkg) : Pkg := setPace p { p.pace with ctlActive := fld p (key pgDt 0x10C) 1 0 }

/-- The SYNC_REQs of the exchange: each admitted link with SYNC sends one. -/
def sendSyncReqs (p : Pkg) : Pkg :=
  (List.range 6).foldl (fun q port => if portSync q port then emitMsg q (.syncReq port q.pace.datum) else q) p

/-- A package that leads is the master, out of holdover, with HOPS 0. -/
def leads (p : Pkg) : Pkg := setFld (setHoldover (setSynced (setMaster p true) false) false) dtStatus 15 8 0

/-- A package without SYNC_ENABLE is no master and in holdover. -/
def standsAlone (p : Pkg) : Pkg := setFld (setHoldover (setSynced (setMaster p false) false) true) dtStatus 15 8 0

/-- A candidate that knows no candidate of a lower ID (R83). -/
def mayLead (p : Pkg) : Bool := isCandidate p && decide (nodeId p ≤ p.pace.masterNode)

theorem doSyncExchange_off {p : Pkg} (hr : p.pace.running = true) (hs : syncOn (withControl p) = false) :
    doSyncExchange p = standsAlone (withControl p) :=
  (if_pos hr).trans (if_neg (ne_true_of_eq_false hs))

theorem doSyncExchange_leads {p : Pkg} (hr : p.pace.running = true) (hs : syncOn (withControl p) = true)
    (hl : mayLead (withControl p) = true) : doSyncExchange p = sendSyncReqs (leads (withControl p)) := by
  have hsent : doSyncExchange p = sendSyncReqs
      (if mayLead (withControl p) = true then
        setFld (setHoldover (setSynced (setMaster (withControl p) (mayLead (withControl p))) false) false) dtStatus 15 8 0
      else setMaster (withControl p) (mayLead (withControl p))) := (if_pos hr).trans (if_pos hs)
  rw [hsent, hl, if_pos rfl]
  rfl

theorem bit_sendSyncReqs (p : Pkg) (k n : Nat) : bit (sendSyncReqs p) k n = bit p k n := by
  refine bit_congr (foldl_keeps (fun q => reg q k) (fun q a => ?_) _ p) n
  split
  · exact reg_emitMsg _ _ _
  · rfl

theorem sendSyncReqs_pace (p : Pkg) : (sendSyncReqs p).pace = p.pace := by
  refine foldl_keeps (fun q => q.pace) (fun q a => ?_) _ p
  split <;> rfl

theorem bit_leads (p : Pkg) : bit (leads p) dtStatus 3 = true ∧ bit (leads p) dtStatus 2 = false ∧
    bit (leads p) dtStatus 1 = false := by
  simp [leads, bit_setHops]

theorem bit_standsAlone (p : Pkg) : bit (standsAlone p) dtStatus 3 = false ∧ bit (standsAlone p) dtStatus 2 = true ∧
    bit (standsAlone p) dtStatus 1 = false := by
  simp [standsAlone, bit_setHops]

@[simp] theorem leads_pace (p : Pkg) : (leads p).pace = p.pace := by simp [leads]

@[simp] theorem standsAlone_pace (p : Pkg) : (standsAlone p).pace = p.pace := by simp [standsAlone]

/-- R83, R94: without SYNC_ENABLE the exchange leaves the package alone. -/
theorem syncExchange_off {p : Pkg} (hr : p.pace.running = true) (hc : fld p (key pgDt 0x10C) 1 0 < 2) :
    (doSyncExchange p).pace.ctlActive = fld p (key pgDt 0x10C) 1 0 ∧ bit (doSyncExchange p) dtStatus 3 = false ∧
      bit (doSyncExchange p) dtStatus 2 = true ∧ bit (doSyncExchange p) dtStatus 1 = false := by
  have hs : syncOn (withControl p) = false := by simp [syncOn, withControl, Nat.div_eq_of_lt hc]
  rw [doSyncExchange_off hr hs, standsAlone_pace]
  exact ⟨rfl, bit_standsAlone _⟩

/-- R83: a candidate that knows no master of a lower ID becomes master at the exchange. -/
theorem syncExchange_leads {p : Pkg} (hr : p.pace.running = true) (hc : fld p (key pgDt 0x10C) 1 0 = 3)
    (hn : nodeId p ≤ p.pace.masterNode) :
    (doSyncExchange p).pace.ctlActive = 3 ∧ bit (doSyncExchange p) dtStatus 3 = true ∧
      bit (doSyncExchange p) dtStatus 2 = false ∧ bit (doSyncExchange p) dtStatus 1 = false ∧
      (doSyncExchange p).pace.datum = p.pace.datum := by
  have hs : syncOn (withControl p) = true := by simp [syncOn, withControl, hc]
  have hcand : isCandidate (withControl p) = true := by
    unfold fld bitsOf at hc
    rw [isCandidate, withControl, bit_setPace, bit, bitOf, beq_iff_eq]
    omega
  have hnode : nodeId (withControl p) ≤ (withControl p).pace.masterNode := (fld_setPace _ _ _ _ _).le.trans hn
  have hl : mayLead (withControl p) = true := by simp [mayLead, hcand, hnode]
  rw [doSyncExchange_leads hr hs hl, sendSyncReqs_pace, leads_pace]
  simp only [bit_sendSyncReqs]
  obtain ⟨h3, h2, h1⟩ := bit_leads (withControl p)
  exact ⟨hc, h3, h2, h1, rfl⟩

/-! ## Following a master (R83, R84, R88, R573) -/

/-- From p to q the package has come to follow the master that a sync flit names, and is out of holdover. -/
def Follows (p q : Pkg) (f : SyncInfo) : Prop :=
  q.pace.masterNode = f.masterNode ∧ q.pace.lastSync = p.pace.datum ∧ bit q dtStatus 2 = false ∧ bit q dtStatus 3 = false

/-- The package once it has taken a master: MASTER and HOLDOVER clear. -/
def takesMaster (node : Nat) (p : Pkg) : Pkg :=
  setHoldover (setMaster (setPace p { p.pace with masterNode := node }) false) false

theorem takesMaster_pace (node : Nat) (p : Pkg) : (takesMaster node p).pace = { p.pace with masterNode := node } := by
  simp [takesMaster]

theorem bit_takesMaster (node : Nat) (p : Pkg) : bit (takesMaster node p) dtStatus 2 = false ∧
    bit (takesMaster node p) dtStatus 3 = false := by
  simp [takesMaster]

/-- What a flit of a master that is taken leaves: on the sync path its HOPS, port and moment too; of a new master off it, the
moment. -/
theorem takeSync_cases (port : Nat) (f : SyncInfo) (p : Pkg) :
    takeSync port f p = setPace (setFld (takesMaster f.masterNode p) dtStatus 15 8 (f.hops + 1))
      { (takesMaster f.masterNode p).pace with
        syncPort := port, masterDist := f.hops + 1, lastSync := (takesMaster f.masterNode p).pace.datum } ∨
    takeSync port f p = setPace (takesMaster f.masterNode p)
      { (takesMaster f.masterNode p).pace with masterDist := 0, lastSync := (takesMaster f.masterNode p).pace.datum } ∨
    (f.masterNode = p.pace.masterNode ∧ takeSync port f p = takesMaster f.masterNode p) := by
  unfold takeSync
  dsimp only
  split
  · exact .inl rfl
  · split
    · exact .inr (.inl rfl)
    · rename_i hfresh
      exact .inr (.inr ⟨by simpa using hfresh, rfl⟩)

theorem takeSync_follows {p : Pkg} {f : SyncInfo} (port : Nat) (h : f.masterNode ≠ p.pace.masterNode) :
    Follows p (takeSync port f p) f := by
  obtain ⟨h2, h3⟩ := bit_takesMaster f.masterNode p
  rcases takeSync_cases port f p with e | e | ⟨hold, -⟩
  · rw [Follows, e, takesMaster_pace]
    simp [bit_setHops, h2, h3]
  · rw [Follows, e, takesMaster_pace]
    simp [h2, h3]
  · exact absurd hold h

theorem takeSync_datum (port : Nat) (f : SyncInfo) (p : Pkg) : (takeSync port f p).pace.datum = p.pace.datum := by
  rcases takeSync_cases port f p with e | e | ⟨-, e⟩ <;> rw [e] <;> simp [takesMaster_pace]

theorem noteSync_datum (port : Nat) (f : SyncInfo) (p : Pkg) : (noteSync port f p).pace.datum = p.pace.datum := by
  unfold noteSync
  split
  · rfl
  · split
    · rfl
    · split
      · exact takeSync_datum _ _ _
      · rfl

/-- A flit that names a master below the known one, and below this package where it is master, is followed. -/
theorem noteSync_follows {p : Pkg} {f : SyncInfo} (port : Nat) (hn : namesMaster p f = true) (hs : staleClaim p f = false)
    (hm : dtMaster p = true → f.masterNode < nodeId p) (hl : f.masterNode < p.pace.masterNode) :
    Follows p (noteSync port f p) f := by
  have hlead : (dtMaster p && decide (nodeId p ≤ f.masterNode)) = false := by
    cases hd : dtMaster p
    · rfl
    · simpa using hm hd
  simp only [noteSync, hn, hs, hlead, hl.le, Bool.not_true, Bool.or_false, Bool.false_eq_true, if_false, if_true]
  exact takeSync_follows port hl.ne

/-- The servo's registers take their values (R84, R93). -/
def servoShown (off : Int) (p : Pkg) : Pkg :=
  setReg (setReg (nextFree (nextFree p)) (key pgDt 0x118) (offsetWord off p.free)) (key pgDt 0x11C)
    ((BitVec.ofInt 32 (freeRate (p.free + 1))).setWidth 64)

theorem bit_servoShown (off : Int) (p : Pkg) (m : Nat) : bit (servoShown off p) dtStatus m = bit p dtStatus m := by
  refine bit_congr ?_ m
  rw [servoShown, reg_setReg_ne _ _ (by decide), reg_setReg_ne _ _ (by decide)]
  exact reg_congr rfl rfl rfl _

/-- Consecutive exchanges within ±5 ns, this one counted (R87). -/
def goodExchanges (off : Int) (p : Pkg) : Nat := if -5000 ≤ off ∧ off ≤ 5000 then p.pace.goodExch + 1 else 0

/-- A follower steps, or counts the exchange and earns SYNCED with the sixteenth good one. -/
theorem followMaster_eq (off : Int) (p : Pkg) : followMaster off p =
    if (p.pace.stepAllowed && !p.pace.synced1 && decide (1000 ≤ off)) = true then
      setPace (servoShown off p)
        { p.pace with datum := p.pace.datum + (off / 1000).toNat, stepAllowed := false, goodExch := 0 }
    else if 16 ≤ goodExchanges off p then
      setPace (setSynced (setPace (servoShown off p) { p.pace with goodExch := goodExchanges off p }) true)
        { (setSynced (setPace (servoShown off p) { p.pace with goodExch := goodExchanges off p }) true).pace with
          synced1 := true, everSynced := true }
    else setPace (servoShown off p) { p.pace with goodExch := goodExchanges off p } := rfl

/-- The servo and SYNCED leave the master, its last flit, HOLDOVER and MASTER as they are; the datum moves forward. -/
theorem followMaster_keeps (off : Int) (p : Pkg) :
    p.pace.datum ≤ (followMaster off p).pace.datum ∧ (followMaster off p).pace.masterNode = p.pace.masterNode ∧
      (followMaster off p).pace.lastSync = p.pace.lastSync ∧
      ∀ m, m ≠ 1 → bit (followMaster off p) dtStatus m = bit p dtStatus m := by
  rw [followMaster_eq]
  split
  · simp [bit_servoShown]
  · split
    · simp +contextual [bit_servoShown]
    · simp [bit_servoShown]

theorem Follows.followMaster {p q : Pkg} {f : SyncInfo} (h : Follows p q f) (off : Int) :
    Follows p (Machine.followMaster off q) f := by
  obtain ⟨hnode, hsync, hhold, hmaster⟩ := h
  obtain ⟨-, hnode', hsync', hbits⟩ := followMaster_keeps off q
  exact ⟨hnode'.trans hnode, hsync'.trans hsync, (hbits 2 (by decide)).trans hhold, (hbits 3 (by decide)).trans hmaster⟩

theorem doSyncReq_answers {p : Pkg} {i : Nat} (f : SyncInfo) (t1 a : Nat) (hp : portSync p i = true) (ho : syncOn p = true) :
    doSyncReq i f t1 a p = emitMsg (noteSync i f p) (.syncRsp i t1 a p.pace.datum) := by
  simp [doSyncReq, hp, ho]

/-- A SYNC_RSP is noted; on the sync path it also feeds the servo. -/
theorem doSyncRsp_cases {p : Pkg} {i : Nat} (f : SyncInfo) (a b c d : Nat) (hp : portSync p i = true) (ho : syncOn p = true) :
    doSyncRsp i f a b c d p = noteSync i f p ∨ ∃ off, doSyncRsp i f a b c d p = followMaster off (noteSync i f p) := by
  simp only [doSyncRsp, hp, ho, Bool.and_self, if_true]
  split
  · exact .inr ⟨_, rfl⟩
  · exact .inl rfl

theorem doSyncTimeout_holdsOver {p : Pkg} (hr : p.pace.running = true) (hm : dtMaster p = false)
    (hl : p.pace.lastSync + 10000000 ≤ p.pace.datum) :
    bit (doSyncTimeout p) dtStatus 2 = true ∧ bit (doSyncTimeout p) dtStatus 1 = false ∧
      (doSyncTimeout p).pace.datum = p.pace.datum ∧ (doSyncTimeout p).pace.masterNode = noNode := by
  have hdo : doSyncTimeout p = setPace (setFld (setHoldover (setSynced p false) true) dtStatus 15 8 0)
      { p.pace with masterNode := noNode, masterDist := 0, goodExch := 0, lostNode := p.pace.masterNode
                    lostDist := p.pace.masterDist, lostAt := p.pace.datum } := by
    simp only [doSyncTimeout, hr, hm, hl, decide_true, Bool.not_false, Bool.and_self, if_true, setFld_pace,
      setHoldover_pace, setSynced_pace]
    rfl
  rw [hdo]
  simp [bit_setHops]

/-! ## The tick (R82, R90) -/

theorem hartEvent_pace (p : Pkg) (h code n : Nat) : (hartEvent p h code n).pace = p.pace := by
  unfold hartEvent
  refine foldl_keeps (fun q => q.pace) (fun q i => ?_) _ p
  rfl

theorem hartBeats_pace (p : Pkg) (n h : Nat) : (hartBeats p n h).pace = p.pace := by
  unfold hartBeats
  dsimp only
  split <;> split <;> simp only [hartEvent_pace]

/-- Counting BUSY pages leaves the datum's state. -/
theorem foldl_busy_pace (f : Pkg → Nat → Pkg) (hf : ∀ q pg, f q pg = q ∨ ∃ k n, f q pg = addReg q k n)
    (l : List Nat) (p : Pkg) : (l.foldl f p).pace = p.pace := by
  refine foldl_keeps (fun q => q.pace) (fun q pg => ?_) l p
  rcases hf q pg with h | ⟨k, n, h⟩ <;> rw [h]
  rfl

theorem stepDie_datum (bs : List Nat) (p : Pkg) (die : Nat) : (stepDie bs p die).pace.datum = p.pace.datum := by
  unfold stepDie
  dsimp only
  split
  · rfl
  · rw [foldl_busy_pace]
    · split
      · rw [foldl_keeps (fun q => q.pace) (fun q h => hartBeats_pace q _ h)]
      · rfl
    · intro q pg
      split
      · split
        · exact .inr ⟨_, _, rfl⟩
        · exact .inl rfl
      · exact .inl rfl

theorem doDatumTick_datum {p : Pkg} (h : p.pace.running = true) : (doDatumTick p).pace.datum = p.pace.datum + 1 := by
  simp only [doDatumTick, h, if_true]
  rw [foldl_busy_pace, foldl_keeps (fun q => q.pace.datum) (stepDie_datum _)]
  · rfl
  · intro q pg
    split
    · exact .inr ⟨_, _, rfl⟩
    · exact .inl rfl

/-! ## DT_SET, DT_CONTROL and CAPTURE (R85, R91, R94) -/

theorem putDtSet_moves {p : Pkg} {v : W64} (hl : p.pace.setLocked = false) (hm : dtMaster p = true)
    (he : p.pace.everSynced = false) (hv : p.pace.datum < v.toNat) :
    (putDtSet 8 v p).pace.datum = v.toNat ∧ (putDtSet 8 v p).pace.setLocked = true := by
  rw [putDtSet, if_pos ⟨rfl, hl, hm, he, hv⟩]
  exact ⟨rfl, rfl⟩

theorem putDtSet_ignored {p : Pkg} {w : Nat} {v : W64} (h : w ≠ 8 ∨ p.pace.setLocked = true ∨ dtMaster p = false ∨
    p.pace.everSynced = true ∨ v.toNat ≤ p.pace.datum) : putDtSet w v p = p := by
  refine if_neg ?_
  rintro ⟨hw, hl, hm, he, hv⟩
  rcases h with h | h | h | h | h
  · exact h hw
  · simp [hl] at h
  · simp [hm] at h
  · simp [he] at h
  · omega

/-- The control register takes the value's two bits. -/
def controlWritten (v : W64) (p : Pkg) : Pkg :=
  setReg p (key pgDt 0x10C) (mergeWrite (rw4 0x10C (msk 1 0)) (reg p (key pgDt 0x10C)) v)

theorem bit_controlWritten (v : W64) (p : Pkg) : bit (controlWritten v p) (key pgDt 0x10C) 1 = bitOf v 1 := by
  rw [bit, controlWritten, reg_setReg_self]
  exact bitOf_mergeWrite _ _ (by decide) rfl (by decide)

/-- A write that does not set SYNC_ENABLE changes the register and the moment of the last flit alone. -/
theorem putDtControl_clears {p : Pkg} {v : W64} (h : bitOf v 1 = false) :
    (putDtControl v p).pace.ctlActive = p.pace.ctlActive ∧ bit (putDtControl v p) (key pgDt 0x10C) 1 = false := by
  have hdo : ∃ n, putDtControl v p = setPace (controlWritten v p) { p.pace with lastSync := n } := by
    simp only [putDtControl, h, Bool.false_and, Bool.false_eq_true, if_false]
    exact ⟨_, rfl⟩
  obtain ⟨_, hdo⟩ := hdo
  rw [hdo, bit_setPace, bit_controlWritten]
  exact ⟨rfl, h⟩

/-- A SYNC_ENABLE that is set makes a follower that has never synchronized. -/
theorem putDtControl_enables {p : Pkg} {v : W64} (h : bitOf v 1 = true) (ho : bit p (key pgDt 0x10C) 1 = false) :
    syncOn (putDtControl v p) = true ∧ bit (putDtControl v p) dtStatus 1 = false ∧ (putDtControl v p).pace.synced1 = false ∧
      (putDtControl v p).pace.stepAllowed = true ∧ (putDtControl v p).pace.datum = p.pace.datum := by
  have hctl : bitsOf v 1 0 / 2 % 2 = 1 := by
    rw [bitOf, beq_iff_eq, Nat.shiftRight_eq_div_pow] at h
    rw [bitsOf, Nat.shiftRight_eq_div_pow]
    omega
  have hdo : ∃ n, putDtControl v p = setPace
      (setSynced (setPace (controlWritten v p) { p.pace with lastSync := n }) false)
      { p.pace with lastSync := n, stepAllowed := true, synced1 := false, goodExch := 0, ctlActive := bitsOf v 1 0 } := by
    unfold bit at ho
    simp only [putDtControl, h, ho, Bool.not_false, Bool.and_self, if_true, setSynced_pace]
    exact ⟨_, rfl⟩
  obtain ⟨_, hdo⟩ := hdo
  rw [hdo]
  simp [syncOn, hctl]

/-- The snapshot registers take the datum and every beat counter. -/
theorem putCapture_copies {p : Pkg} {v : W64} (h : bitOf v 0 = true) :
    reg (putCapture v p) (key pgDt 0x128) = BitVec.ofNat 64 p.pace.datum ∧
      ∀ d, d < 5 → reg (putCapture v p) (key pgDt (0x130 + 8 * d)) = BitVec.ofNat 64 (SMap.get p.pace.beats d 0) := by
  have hinj : Function.Injective fun d => key pgDt (0x130 + 8 * d) := by
    intro a b hab
    simp only [key] at hab
    omega
  rw [putCapture, if_pos h]
  refine ⟨?_, fun d hd => ?_⟩
  · rw [reg_foldl_setReg_ne (f := fun d => key pgDt (0x130 + 8 * d)) _ (fun d _ => by unfold key; omega),
      reg_setReg_self]
  · exact reg_foldl_setReg hinj (fun d => BitVec.ofNat 64 (SMap.get p.pace.beats d 0)) _ (List.mem_range.2 hd)

/-! ## Reads by halves (R92) -/

/-- A 32-bit read of a counter's half is neither a pop nor a read with an answer from outside. -/
theorem readAccess_half {off : Nat} (rq : Requester) (p : Pkg) (hpop : isPopKey (off / 8 * 8) = false)
    (hcfg : off ≠ key pgHl 0x154) (hmmio : off / 8 * 8 ≠ key pgHl 0x160) : readAccess rq off 4 p = readHalf off p := by
  simp [readAccess, hpop, hcfg, hmmio]

theorem readHalf_low {k : Nat} (p : Pkg) (hc : isCounter k = true) (hk : k / 8 * 8 = k) :
    readHalf k p = (readAt p k 4, { p with pace := { p.pace with
      latches := SMap.set p.pace.latches k ((readAt p (k + 4) 4).setWidth 32)
      latchAt := SMap.set p.pace.latchAt k p.pace.datum } }) := by
  simp [readHalf, hk, hc]

theorem readHalf_high {k j : Nat} {x : W32} {p : Pkg} (hc : isCounter k = true) (hk : (k + 4) / 8 * 8 = k)
    (hl : p.pace.latches.find? (fun y => y.1 == k) = some (j, x)) :
    readHalf (k + 4) p = (x.setWidth 64, { p with pace := { p.pace with
      latches := SMap.drop p.pace.latches (fun i => i == k), latchAt := SMap.drop p.pace.latchAt (fun i => i == k) } }) := by
  simp [readHalf, hk, hc, hl]

/-- A dropped key is not listed. -/
theorem SMap.any_drop_self {α : Type} (m : SMap α) (k : Nat) :
    (SMap.drop m (fun i => i == k)).any (fun x => x.1 == k) = false := by
  simp [SMap.drop]

theorem doLatchRelease_drops {p : Pkg} {off : Nat} (hl : p.pace.latches.any (fun x => x.1 == off / 8 * 8) = true)
    (ht : SMap.get p.pace.latchAt (off / 8 * 8) 0 + 1000 ≤ p.pace.datum) :
    (doLatchRelease off p).pace.latches.any (fun x => x.1 == off / 8 * 8) = false ∧
      (doLatchRelease off p).regs = p.regs := by
  simp only [doLatchRelease, hl, ht, decide_true, Bool.and_self, if_true]
  exact ⟨SMap.any_drop_self _ _, trivial⟩

/-! ## O8, clause by clause -/

/-- R573, R83: a SYNC_REQ is answered, and a nearer master is followed. -/
theorem syncReq_answers {s : State} {i : Nat} (f : SyncInfo) (t1 a : Nat) (hp : portSync s.pkg i = true)
    (ho : syncOn s.pkg = true) :
    ∃ t out, exec (.syncReq i f t1 a) s = .next t ∧ t.pkg.out = .syncRsp i t1 a s.pkg.pace.datum :: out ∧
      (namesMaster s.pkg f = true → staleClaim s.pkg f = false → (dtMaster s.pkg = true → f.masterNode < nodeId s.pkg) →
        f.masterNode < s.pkg.pace.masterNode → Follows s.pkg t.pkg f) := by
  refine ⟨s.onPkg (doSyncReq i f t1 a), (noteSync i f s.pkg).out, rfl, ?_, fun hn hs hm hl => ?_⟩ <;>
    rw [State.onPkg_pkg, doSyncReq_answers f t1 a hp ho]
  · rfl
  · obtain ⟨hnode, hsync, h2, h3⟩ := noteSync_follows i hn hs hm hl
    exact ⟨hnode, hsync, (bit_congr (reg_emitMsg _ _ _) _).trans h2, (bit_congr (reg_emitMsg _ _ _) _).trans h3⟩

/-- R573, R83: a SYNC_RSP moves the datum forward at most, and a nearer master is followed. -/
theorem syncRsp_follows {s : State} {i : Nat} (f : SyncInfo) (a b c d : Nat) (hp : portSync s.pkg i = true)
    (ho : syncOn s.pkg = true) :
    ∃ t, exec (.syncRsp i f a b c d) s = .next t ∧ s.pkg.pace.datum ≤ t.pkg.pace.datum ∧ t.mem = s.mem ∧
      (namesMaster s.pkg f = true → staleClaim s.pkg f = false → (dtMaster s.pkg = true → f.masterNode < nodeId s.pkg) →
        f.masterNode < s.pkg.pace.masterNode → Follows s.pkg t.pkg f) := by
  have hdatum := noteSync_datum i f s.pkg
  refine ⟨s.onPkg (doSyncRsp i f a b c d), rfl, ?_, rfl, fun hn hs hm hl => ?_⟩ <;> rw [State.onPkg_pkg] <;>
    rcases doSyncRsp_cases f a b c d hp ho with e | ⟨off, e⟩ <;> rw [e]
  · exact hdatum.ge
  · exact hdatum.ge.trans (followMaster_keeps off _).1
  · exact noteSync_follows i hn hs hm hl
  · exact (noteSync_follows i hn hs hm hl).followMaster off

/-- R92: a read of the low half latches the high half. -/
theorem lowHalfRead_latches (s : State) (rq : Requester) :
    ∃ t, exec (.lowHalfRead rq (key pgDt 0x100)) s = .next t ∧ t.mem = s.mem ∧
    t.pkg.out = .readData (key pgDt 0x100) (readAt s.pkg (key pgDt 0x100) 4) :: s.pkg.out ∧
    t.pkg.pace.latches = SMap.set s.pkg.pace.latches (key pgDt 0x100) ((readAt s.pkg (key pgDt 0x104) 4).setWidth 32) := by
  have hread := readAccess_half rq s.pkg (off := key pgDt 0x100) (by decide) (by decide) (by decide)
  rw [readHalf_low s.pkg (by decide) (by decide)] at hread
  have hout : readOut rq (key pgDt 0x100 / 4 * 4) 4 s.pkg =
      emitMsg (readAccess rq (key pgDt 0x100) 4 s.pkg).2 (.readData (key pgDt 0x100)
        (readAccess rq (key pgDt 0x100) 4 s.pkg).1) := rfl
  rw [hread] at hout
  refine ⟨s.onPkg (readOut rq (key pgDt 0x100 / 4 * 4) 4), rfl, rfl, ?_, ?_⟩ <;> rw [State.onPkg_pkg, hout] <;> rfl

/-- R92: one read of the high half returns what was latched. -/
theorem highHalfRead_returns (s : State) (rq : Requester) (k : Nat) (x : W32)
    (hl : s.pkg.pace.latches.find? (fun y => y.1 == key pgDt 0x100) = some (k, x)) :
    ∃ t, exec (.lowHalfRead rq (key pgDt 0x104)) s = .next t ∧ t.mem = s.mem ∧
      t.pkg.out = .readData (key pgDt 0x104) (x.setWidth 64) :: s.pkg.out ∧
      t.pkg.pace.latches.any (fun y => y.1 == key pgDt 0x100) = false := by
  have hread := readAccess_half rq s.pkg (off := key pgDt 0x104) (by decide) (by decide) (by decide)
  rw [show key pgDt 0x104 = key pgDt 0x100 + 4 from rfl, readHalf_high (by decide) (by decide) hl] at hread
  have hout : readOut rq (key pgDt 0x104 / 4 * 4) 4 s.pkg =
      emitMsg (readAccess rq (key pgDt 0x100 + 4) 4 s.pkg).2 (.readData (key pgDt 0x104)
        (readAccess rq (key pgDt 0x100 + 4) 4 s.pkg).1) := rfl
  rw [hread] at hout
  refine ⟨s.onPkg (readOut rq (key pgDt 0x104 / 4 * 4) 4), rfl, rfl, ?_, ?_⟩ <;> rw [State.onPkg_pkg, hout]
  · rfl
  · exact SMap.any_drop_self _ _

/-- Settles O8: each clause is what the operation's own lemma above says. -/
theorem theDatumCountsFollowsAndHoldsOver : Obligations.TheDatumCountsFollowsAndHoldsOver := by
  unfold Obligations.TheDatumCountsFollowsAndHoldsOver
  refine ⟨⟨?lost, ?restored, ?off, ?leads, fun s i f t1 a => syncReq_answers f t1 a,
      fun s i f a b c d => syncRsp_follows f a b c d, ?timeout⟩,
    ?tick, ?setOnce, ?setIgnored, ?control, ?capture, lowHalfRead_latches, highHalfRead_returns, ?released⟩
  case lost => exact fun s h => ⟨_, rfl, doRefclkLost_sets h, rfl⟩
  case restored => exact fun s h => ⟨_, rfl, doRefclkRestored_clears h, rfl⟩
  case off => exact fun s hr hc => ⟨_, rfl, syncExchange_off hr hc⟩
  case leads => exact fun s hr hc hn => ⟨_, rfl, syncExchange_leads hr hc hn⟩
  case timeout => exact fun s hr hm hl => ⟨_, rfl, doSyncTimeout_holdsOver hr hm hl⟩
  case tick => exact fun s hr => ⟨_, rfl, doDatumTick_datum hr, rfl⟩
  case setOnce =>
    intro s rq v hw hl hm he hv
    have hdo : doDtSet rq 8 v s.pkg = putDtSet 8 v s.pkg := ifWrites_accepted _ hw
    refine ⟨s.onPkg (doDtSet rq 8 v), rfl, ?_⟩
    rw [State.onPkg_pkg, hdo]
    exact putDtSet_moves hl hm he hv
  case setIgnored =>
    intro s rq w v hw h
    have hdo : doDtSet rq w v s.pkg = s.pkg := (ifWrites_accepted _ hw).trans (putDtSet_ignored h)
    exact congrArg Host.Outcome.next (State.onPkg_eq_self hdo)
  case control =>
    intro s rq v hw
    have hdo : doDtControlWrite rq v s.pkg = putDtControl (v.setWidth 64) s.pkg := ifWrites_accepted _ hw
    refine ⟨fun hv => ⟨s.onPkg (doDtControlWrite rq v), rfl, ?_⟩,
      fun hv ho => ⟨s.onPkg (doDtControlWrite rq v), rfl, ?_⟩⟩ <;> rw [State.onPkg_pkg, hdo]
    · exact putDtControl_clears hv
    · exact putDtControl_enables hv ho
  case capture =>
    intro s rq v hw hv
    have hdo : doCapture rq v s.pkg = putCapture (v.setWidth 64) s.pkg := ifWrites_accepted _ hw
    refine ⟨s.onPkg (doCapture rq v), rfl, ?_⟩
    rw [State.onPkg_pkg, hdo]
    exact putCapture_copies hv
  case released => exact fun s off hl ht => ⟨_, rfl, doLatchRelease_drops hl ht⟩

end Sys2Proof.Machine
end

section
/-! The boot ROM, the flash bus and rail losses (spec/19 R661 to R680, R749, spec/21 R722): what they leave, and the proof of
O55. -/

namespace Sys2Proof.Machine

/-! ## What the surveyor's start keeps -/

/-- A register of a block that is neither a CE nor a quadrangle does not read from the fuses. -/
theorem reg_congr_unfused {p q : Pkg} (hr : q.regs = p.regs) (hs : q.standalone = p.standalone) {k : Nat}
    (hk : classOf (k / 0x1000) ≠ 0x01 ∧ classOf (k / 0x1000) ≠ 0x02) : reg q k = reg p k := by
  have hreset : regReset q k = regReset p k := by
    unfold classOf at hk
    unfold regReset
    split at hk
    · rename_i pi hpi
      simp [hpi, hk, hs]
    · rename_i hpi
      simp [hpi]
  rw [reg, reg, hr, hreset]

/-- From p to q the surveyor stays as it was started: the datum's state, the running image, the verdict of the boot ROM, the
flash bus, PAGE_STATE of the surveyor and SV_BOOT_STATUS. -/
structure StartKept (p q : Pkg) : Prop where
  pace : q.pace = p.pace
  running : q.boot.running = p.boot.running
  failed : q.boot.failed = p.boot.failed
  flashOwner : q.boot.flashOwner = p.boot.flashOwner
  state : reg q (key pgSv 8) = reg p (key pgSv 8)
  status : reg q svBoot = reg p svBoot

theorem StartKept.refl (p : Pkg) : StartKept p p := ⟨rfl, rfl, rfl, rfl, rfl, rfl⟩

theorem StartKept.trans {p q r : Pkg} (h : StartKept p q) (g : StartKept q r) : StartKept p r :=
  ⟨g.pace.trans h.pace, g.running.trans h.running, g.failed.trans h.failed, g.flashOwner.trans h.flashOwner,
    g.state.trans h.state, g.status.trans h.status⟩

theorem OnlyLog.startKept {p q : Pkg} (h : OnlyLog p q) (hstate : reg q (key pgSv 8) = reg p (key pgSv 8))
    (hstatus : reg q svBoot = reg p svBoot) : StartKept p q :=
  ⟨h.pace_eq, by rw [h.boot_eq], by rw [h.boot_eq], by rw [h.boot_eq], hstate, hstatus⟩

theorem startKept_setReg (p : Pkg) {k : Nat} (v : W64) (h8 : k ≠ key pgSv 8) (hb : k ≠ svBoot) :
    StartKept p (setReg p k v) :=
  (setReg_only p k v).log.startKept (reg_setReg_ne _ _ h8.symm) (reg_setReg_ne _ _ hb.symm)

/-- New fuses change no register of the surveyor. -/
theorem startKept_withFuse (p : Pkg) (f : FuseSt) : StartKept p { p with fuse := f } :=
  ⟨rfl, rfl, rfl, rfl, reg_congr_unfused rfl rfl (by decide), reg_congr_unfused rfl rfl (by decide)⟩

theorem startKept_raiseBlock (p : Pkg) {pg : Nat} (n : Nat) (h : pg ≠ pgSv) : StartKept p (raiseBlock p pg n) := by
  have hpg : pg ≠ 0 := h
  refine (raiseBlock_only p pg n).log.startKept (raiseBlock_reg _ _ _ ?_ ?_) (raiseBlock_reg _ _ _ ?_ ?_) <;>
    simp only [svBoot, key, pgSv] <;> omega

theorem StartKept.foldl {α : Type} {f : Pkg → α → Pkg} (hf : ∀ p a, StartKept p (f p a)) (l : List α) (p : Pkg) :
    StartKept p (l.foldl f p) := by
  induction l generalizing p with
  | nil => exact .refl p
  | cons a t ih => exact (hf p a).trans (ih _)

/-! ## Field-book requests of the surveyor (R170, R681) -/

/-- A request for neither a lane nor a CE takes no unit out of use when it is rejected. -/
theorem fbRejected_eq_self (p : Pkg) {r : FbReq} (code : Nat) (h3 : r.setting ≠ 3) (h4 : r.setting ≠ 4) :
    fbRejected p r code = p := by
  simp [fbRejected, h3, h4]

theorem startKept_fbEnd (p : Pkg) {r : FbReq} (reject entry : Nat) (h : r.mbox = 0) :
    StartKept p (fbEnd p r reject entry) := by
  simp only [fbEnd, h, if_true]
  exact ((startKept_setReg p _ (by decide) (by decide)).trans (startKept_raiseBlock _ 0 (by decide))).trans
    (startKept_withFuse _ _)

theorem startKept_fbServe_one {p : Pkg} {r : FbReq} {rest : List FbReq} (hp : p.fuse.requests = r :: rest) (hm : r.mbox = 0)
    (h3 : r.setting ≠ 3) (h4 : r.setting ≠ 4) : StartKept p (fbServe 1 p) := by
  unfold fbServe
  simp only [hp]
  split
  · rw [fbRejected_eq_self _ _ h3 h4, fbServe]
    exact startKept_fbEnd p _ _ hm
  · rw [fbServe]
    exact startKept_fbEnd p _ _ hm
  · split
    · exact .refl p
    · exact ((startKept_withFuse p _).trans (startKept_setReg _ _ (by decide) (by decide))).trans
        (startKept_setReg _ _ (by decide) (by decide))

theorem startKept_surveyorRequest (p : Pkg) {setting : Nat} (reason inst value : Nat) (h3 : setting ≠ 3) (h4 : setting ≠ 4) :
    StartKept p (surveyorRequest p setting reason inst value) := by
  have hset := startKept_setReg p (k := fbAttribute) 0x100 (by decide) (by decide)
  unfold surveyorRequest fbEnqueue
  dsimp only
  split
  · rename_i h
    obtain ⟨hempty, -⟩ := Bool.and_eq_true_iff.1 h
    have hnil := List.isEmpty_iff.1 hempty
    refine (hset.trans (startKept_withFuse _ _)).trans (startKept_fbServe_one (r := ⟨setting, 1, reason, inst, value, 0⟩)
      (rest := []) ?_ rfl h3 h4)
    simp only [hnil, List.nil_append]
  · exact hset.trans (startKept_withFuse _ _)

theorem startKept_keyRequests (p : Pkg) (img : ImageInfo) : StartKept p (keyRequests p img) := by
  have hkeys (l : List Nat) : StartKept p (l.foldl (fun q k => surveyorRequest q 5 3 k 1) p) :=
    .foldl (fun q k => startKept_surveyorRequest q 3 k 1 (by decide) (by decide)) l p
  unfold keyRequests
  dsimp only
  split
  · exact (hkeys _).trans (startKept_surveyorRequest _ _ _ _ (by decide) (by decide))
  · exact hkeys _

/-! ## The start of the surveyor (R168, R603, R649, R650, R680) -/

theorem startKept_fbResolve (p : Pkg) : StartKept p (fbResolve p) := by
  unfold fbResolve
  split
  · exact startKept_withFuse _ _
  · exact .refl p

theorem startKept_withBoot (p : Pkg) {b : BootSt} (hr : b.running = p.boot.running) (hf : b.failed = p.boot.failed)
    (ho : b.flashOwner = p.boot.flashOwner) : StartKept p { p with boot := b } :=
  ⟨rfl, hr, hf, ho, reg_congr rfl rfl rfl _, reg_congr rfl rfl rfl _⟩

theorem startKept_logLoss (p : Pkg) : StartKept p (logLoss p) := by
  unfold logLoss
  split
  · rename_i n _
    have hlog : StartKept p (logErr p pgPwr ⟨0x74, 0, 0, 0, n⟩) :=
      (logErr_only _ _ _).startKept (logErr_reg _ _ _ (by decide) (by decide) (by decide) (by decide))
        (logErr_reg _ _ _ (by decide) (by decide) (by decide) (by decide))
    have hboot := (logErr_only p pgPwr ⟨0x74, 0, 0, 0, n⟩).boot_eq
    refine hlog.trans (startKept_withBoot _ ?_ ?_ ?_) <;> rw [hboot]
  · exact .refl p

theorem startKept_showVersions (p : Pkg) : StartKept p (showVersions p) :=
  (startKept_setReg p _ (by decide) (by decide)).trans (startKept_setReg _ _ (by decide) (by decide))

theorem setReady_keeps_ready {p : Pkg} {pg : Nat} (b : Bool) (h : firstPage pg ≠ pgSv) :
    ready (setReady p pg b) pgSv = ready p pgSv := by
  have hpg : firstPage pg ≠ 0 := h
  have hsv : firstPage pgSv = 0 := by decide
  unfold ready
  refine bit_congr (setReady_reg _ _ _ ?_ ?_ ?_ ?_ ?_) 0 <;> rw [hsv] <;> simp only [key, pgSv] <;> omega

theorem setOwner_keeps_ready {p : Pkg} {pg : Nat} (o : Nat) (h : pg ≠ pgSv) :
    ready (setOwner p pg o) pgSv = ready p pgSv := by
  have hpg : pg ≠ 0 := h
  have hsv : firstPage pgSv = 0 := by decide
  unfold ready setOwner
  dsimp only
  split
  · rfl
  · refine bit_congr ?_ 0
    rw [hsv, waypoint_reg, raise_reg _ _ _ (by unfold key; omega) (by unfold key; omega)]
    exact reg_setFld_ne _ _ _ _ (by unfold key; omega)

theorem surveyorUp_only (p : Pkg) : OnlyLog (setPace p { p.pace with running := true }) (surveyorUp p) := by
  unfold surveyorUp
  dsimp only
  refine OnlyLog.trans ?_ (setOwner_only _ _ _)
  have hup := (foldl_onlyLog (fun q pg => setReady q pg true) (fun q pg => setReady_only q pg true)
    [pgSv, pgPwr, pgDt, pgFb, pgOps] (setPace p { p.pace with running := true })).trans (setOwner_only _ 1 2)
  split
  · exact hup
  · exact hup.trans (setOwner_only _ _ _)

theorem surveyorUp_ready (p : Pkg) : ready (surveyorUp p) pgSv = true := by
  unfold surveyorUp
  dsimp only
  rw [setOwner_keeps_ready _ (by decide)]
  have hup : ready (setOwner ([pgSv, pgPwr, pgDt, pgFb, pgOps].foldl (fun q pg => setReady q pg true)
      (setPace p { p.pace with running := true })) 1 2) pgSv = true := by
    rw [setOwner_keeps_ready _ (by decide)]
    simp only [List.foldl_cons, List.foldl_nil]
    rw [setReady_keeps_ready _ (by decide), setReady_keeps_ready _ (by decide), setReady_keeps_ready _ (by decide),
      setReady_keeps_ready _ (by decide)]
    exact ready_setReady _ _ _
  split
  · exact hup
  · rw [setOwner_keeps_ready _ (by decide)]
    exact hup

/-- SV_BOOT_STATUS of a start from slot n (Table 19-11). -/
def bootWord (p : Pkg) (n : Nat) (img : ImageInfo) : W64 :=
  BitVec.ofNat 64
    (bitNat (n == 1) * 2 ^ 31 + bitNat (n != p.boot.activeSlot) * 2 ^ 30 + 0xF * 2 ^ 24 + img.secVersion % 256 * 2 ^ 16)

theorem bootWord_shows (p : Pkg) (n : Nat) (img : ImageInfo) :
    bitOf (bootWord p n img) 30 = (n != p.boot.activeSlot) ∧ bitsOf (bootWord p n img) 23 16 = img.secVersion % 256 := by
  have h1 : bitNat (n == 1) < 2 := by cases n == 1 <;> decide
  have h2 : bitNat (n != p.boot.activeSlot) < 2 := by cases n != p.boot.activeSlot <;> decide
  have hb : (bitNat (n != p.boot.activeSlot) == 1) = (n != p.boot.activeSlot) := by
    cases n != p.boot.activeSlot <;> decide
  simp only [bitsOf, bitOf, bootWord, BitVec.toNat_ofNat, Nat.shiftRight_eq_div_pow]
  refine ⟨?_, by omega⟩
  rw [show (bitNat (n == 1) * 2 ^ 31 + bitNat (n != p.boot.activeSlot) * 2 ^ 30 + 0xF * 2 ^ 24 +
    img.secVersion % 256 * 2 ^ 16) % 2 ^ 64 / 2 ^ 30 % 2 = bitNat (n != p.boot.activeSlot) by omega]
  exact hb

/-- The package once the surveyor of slot n is up. -/
def bootUp (p : Pkg) (n : Nat) (img : ImageInfo) : Pkg :=
  setReg (surveyorUp { p with boot := { p.boot with running := some img } }) svBoot (bootWord p n img)

theorem bootStart_keeps {p : Pkg} {n : Nat} {img : ImageInfo} (h : bootSlot p = some (n, img)) :
    StartKept (bootUp p n img) (bootStart p) := by
  have hversions := (startKept_setReg (bootUp p n img) (k := updStatus)
    (withBits (reg (bootUp p n img) updStatus) 29 29 (bitNat (p.boot.activeSlot == 1))) (by decide) (by decide)).trans
    (startKept_showVersions _)
  have hstart := ((hversions.trans (startKept_fbResolve _)).trans (startKept_logLoss _)).trans (startKept_keyRequests _ img)
  rw [bootStart, h]
  exact hstart

/-- R680: a slot that starts leaves the surveyor READY with the datum running. -/
structure Started (p q : Pkg) (n : Nat) (img : ImageInfo) : Prop where
  running : q.boot.running = some img
  failed : q.boot.failed = p.boot.failed
  flashOwner : q.boot.flashOwner = p.boot.flashOwner
  ready : Machine.ready q pgSv = true
  pace : q.pace = { p.pace with running := true }
  status : reg q svBoot = bootWord p n img

theorem bootStart_started {p : Pkg} {n : Nat} {img : ImageInfo} (h : bootSlot p = some (n, img)) :
    Started p (bootStart p) n img := by
  have hk := bootStart_keeps h
  have honly := surveyorUp_only { p with boot := { p.boot with running := some img } }
  have hboot : (bootUp p n img).boot = { p.boot with running := some img } := honly.boot_eq
  have hpace : (bootUp p n img).pace = { p.pace with running := true } := honly.pace_eq
  refine ⟨by rw [hk.running, hboot], by rw [hk.failed, hboot], by rw [hk.flashOwner, hboot], ?_, hk.pace.trans hpace, ?_⟩
  · have hready : Machine.ready (bootUp p n img) pgSv = true := by
      refine Eq.trans ?_ (surveyorUp_ready { p with boot := { p.boot with running := some img } })
      exact bit_congr (reg_setReg_ne _ _ (by decide)) 0
    exact (bit_congr hk.state 0).trans hready
  · exact hk.status.trans (reg_setReg_self _ _ _)

theorem bootStart_fails {p : Pkg} (h : bootSlot p = none) :
    bootStart p = { p with boot := { p.boot with failed := true } } := by
  rw [bootStart, h]

/-! ## The slot that starts (R678, R680) -/

theorem bootSlot_active {p : Pkg} {img : ImageInfo} (hs : p.boot.activeSlot = 0) (ha : p.boot.slotA = some img)
    (hd : dirOk p.boot.dir = true) (hr : surveyorResult p img = 0) : bootSlot p = some (0, img) := by
  simp [bootSlot, hs, ha, hd, hr]

theorem bootSlot_other {p : Pkg} {a b : ImageInfo} (hs : p.boot.activeSlot = 0) (ha : p.boot.slotA = some a)
    (hb : p.boot.slotB = some b) (hd : dirOk p.boot.dir = true) (hra : surveyorResult p a ≠ 0)
    (hrb : surveyorResult p b = 0) : bootSlot p = some (1, b) := by
  simp [bootSlot, hs, ha, hb, hd, hra, hrb]

theorem bootSlot_none {p : Pkg} {a b : ImageInfo} (ha : p.boot.slotA = some a) (hb : p.boot.slotB = some b)
    (h : dirOk p.boot.dir = false ∨ (surveyorResult p a ≠ 0 ∧ surveyorResult p b ≠ 0)) : bootSlot p = none := by
  have hslot (n : Nat) : (if n = 0 then p.boot.slotA else p.boot.slotB) = some a ∨
      (if n = 0 then p.boot.slotA else p.boot.slotB) = some b := by
    split
    · exact .inl ha
    · exact .inr hb
  obtain ⟨hbada, hbadb⟩ : ¬ (dirOk p.boot.dir = true ∧ surveyorResult p a = 0) ∧
      ¬ (dirOk p.boot.dir = true ∧ surveyorResult p b = 0) := by
    rcases h with h | ⟨hra, hrb⟩
    · simp [h]
    · exact ⟨fun h => hra h.2, fun h => hrb h.2⟩
  rcases hslot p.boot.activeSlot with h1 | h1 <;> rcases hslot (1 - p.boot.activeSlot) with h2 | h2 <;>
    simp only [bootSlot, h1, h2, hbada, hbadb, if_false]

/-! ## AUX_PWRGD rises (R661, R675, R722) -/

/-- The package as the boot ROM finds it at a cold power-up. -/
def coldStart (p : Pkg) (dir : FlashDir) (a b : ImageInfo) : Pkg :=
  { coldPkg p with boot := { (coldPkg p).boot with
      slotA := some a, slotB := some b, started := true, dir := dir, readMode := fastestMode dir } }

theorem exec_coldPowerUp {s : State} (dir : FlashDir) (a b : ImageInfo) (h : s.pkg.boot.started = false) :
    exec (.coldPowerUp dir ⟨a, b⟩) s = .next { s with
      mem := s.mem.hostOnly
      pkg := if s.pkg.boot.flashOwner = 0 then bootStart (coldStart s.pkg dir a b) else coldStart s.pkg dir a b } := by
  have hs : ¬ s.pkg.boot.started = true := by simp [h]
  exact if_neg hs

/-- With every register at its reset value the surveyor is not READY. -/
theorem not_ready_at_reset {p : Pkg} (h : p.regs = []) : ready p pgSv = false := by
  have hinfo : pageInfo (key pgSv 8 / 0x1000) = some ⟨0x0B, 5, 0, 0, 4, 0⟩ := by decide
  have howner : resetOwner 0x0B p.standalone = 1 := by simp [resetOwner]
  have hreg : reg p (key pgSv 8) = 0x100 := by
    rw [reg, h, SMap.get, regReset, hinfo]
    simp [key, pgSv, howner]
  have hsv : firstPage pgSv = pgSv := by decide
  rw [ready, hsv, bit, hreg]
  decide

/-- R680: the active slot's image starts, else the other's, else none. -/
theorem coldPowerUp_boots (s : State) (dir : FlashDir) (a b : ImageInfo) (hs : s.pkg.boot.started = false)
    (hf : s.pkg.boot.flashOwner = 0) :
    (dirOk dir = true → s.pkg.boot.activeSlot = 0 → surveyorResult s.pkg a = 0 →
      ∃ t, exec (.coldPowerUp dir ⟨a, b⟩) s = .next t ∧ t.mem = s.mem.hostOnly ∧
      t.pkg.boot.running = some a ∧ t.pkg.boot.failed = false ∧ ready t.pkg pgSv = true ∧ t.pkg.pace.running = true ∧
      t.pkg.pace.datum = 0 ∧ bit t.pkg svBoot 30 = false ∧ fld t.pkg svBoot 23 16 = a.secVersion % 256) ∧
    (dirOk dir = true → s.pkg.boot.activeSlot = 0 → surveyorResult s.pkg a ≠ 0 → surveyorResult s.pkg b = 0 →
      ∃ t, exec (.coldPowerUp dir ⟨a, b⟩) s = .next t ∧ t.mem = s.mem.hostOnly ∧
      t.pkg.boot.running = some b ∧ t.pkg.boot.failed = false ∧ ready t.pkg pgSv = true ∧ bit t.pkg svBoot 30 = true) ∧
    (dirOk dir = false ∨ (surveyorResult s.pkg a ≠ 0 ∧ surveyorResult s.pkg b ≠ 0) →
      ∃ t, exec (.coldPowerUp dir ⟨a, b⟩) s = .next t ∧ t.mem = s.mem.hostOnly ∧
      t.pkg.boot.running = none ∧ t.pkg.boot.failed = true ∧ ready t.pkg pgSv = false) := by
  have hexec := exec_coldPowerUp dir a b hs
  rw [if_pos hf] at hexec
  refine ⟨fun hd h0 hr => ⟨_, hexec, rfl, ?_⟩, fun hd h0 hra hrb => ⟨_, hexec, rfl, ?_⟩, fun h => ⟨_, hexec, rfl, ?_⟩⟩
  · obtain ⟨hrun, hfail, -, hready, hpace, hstatus⟩ :=
      bootStart_started (bootSlot_active (p := coldStart s.pkg dir a b) h0 rfl hd hr)
    obtain ⟨hword, hfld⟩ := bootWord_shows (coldStart s.pkg dir a b) 0 a
    refine ⟨hrun, hfail, hready, by rw [hpace], by rw [hpace]; rfl, ?_, ?_⟩
    · rw [bit, hstatus, hword]
      exact bne_eq_false_iff_eq.2 h0.symm
    · rw [fld, hstatus, hfld]
  · obtain ⟨hrun, hfail, -, hready, -, hstatus⟩ :=
      bootStart_started (bootSlot_other (p := coldStart s.pkg dir a b) h0 rfl rfl hd hra hrb)
    refine ⟨hrun, hfail, hready, ?_⟩
    rw [bit, hstatus, (bootWord_shows _ _ _).1]
    exact bne_iff_ne.2 (by rw [show (coldStart s.pkg dir a b).boot.activeSlot = 0 from h0]; decide)
  · have hfails := bootStart_fails (bootSlot_none (p := coldStart s.pkg dir a b) rfl rfl h)
    rw [hfails]
    exact ⟨rfl, rfl, not_ready_at_reset rfl⟩

/-- R722: while the board holds the flash the boot ROM waits. -/
theorem coldPowerUp_waits (s : State) (dir : FlashDir) (a b : ImageInfo) (hs : s.pkg.boot.started = false)
    (hf : s.pkg.boot.flashOwner ≠ 0) :
    ∃ t, exec (.coldPowerUp dir ⟨a, b⟩) s = .next t ∧ t.pkg.boot.running = none ∧ t.pkg.boot.failed = false := by
  have hexec := exec_coldPowerUp dir a b hs
  rw [if_neg hf] at hexec
  exact ⟨_, hexec, rfl, rfl⟩

/-! ## The pin without a surveyor, and the flash bus (R680, R722) -/

/-- Without a surveyor a new target shows the pin alone. -/
theorem setTarget_unstarted {p : Pkg} (b : Bool) (t source : Nat) (h : p.boot.running = none) :
    seqState (setTarget (setBit p svSeq 21 b) t source) = seqState p ∧
      seqTarget (setTarget (setBit p svSeq 21 b) t source) = seqTarget p := by
  have hpin : setTarget (setBit p svSeq 21 b) t source = setBit p svSeq 21 b := by
    simp [setTarget, h]
  rw [hpin]
  exact ⟨fld_setFld_beside _ _ _ _ _ _ _ (by decide) (by decide) (by decide) (by decide),
    fld_setFld_beside _ _ _ _ _ _ _ (by decide) (by decide) (by decide) (by decide)⟩

/-- The package once the link die holds the flash bus again. -/
def flashBack (p : Pkg) : Pkg := { p with boot := { p.boot with flashOwner := 0 } }

theorem doFlashRelease_runs {p : Pkg} (h : p.boot.running.isSome = true) : doFlashRelease p = flashBack p := by
  refine if_neg ?_
  rintro ⟨-, -, hnone, -⟩
  simp [hnone] at h

theorem doFlashRelease_starts {p : Pkg} (hs : p.boot.started = true) (hr : p.boot.running = none)
    (hf : p.boot.failed = false) (ho : p.boot.flashOwner ≠ 0) : doFlashRelease p = bootStart (flashBack p) :=
  if_pos ⟨ho, hs, hr, hf⟩

/-- R722: a start that waited for the flash goes on when it is released. -/
theorem flashRelease_starts (s : State) (img : ImageInfo) (hs : s.pkg.boot.started = true) (hr : s.pkg.boot.running = none)
    (hf : s.pkg.boot.failed = false) (ho : s.pkg.boot.flashOwner ≠ 0) (h0 : s.pkg.boot.activeSlot = 0)
    (ha : s.pkg.boot.slotA = some img) (hd : dirOk s.pkg.boot.dir = true) (hi : surveyorResult s.pkg img = 0) :
    ∃ t, exec .flashRelease s = .next t ∧ t.mem = s.mem ∧ t.pkg.boot.running = some img ∧ t.pkg.boot.flashOwner = 0 ∧
      ready t.pkg pgSv = true := by
  obtain ⟨hrun, -, hown, hready, -, -⟩ := bootStart_started (bootSlot_active (p := flashBack s.pkg) h0 ha hd hi)
  refine ⟨s.onPkg doFlashRelease, rfl, rfl, ?_⟩
  rw [State.onPkg_pkg, doFlashRelease_starts hs hr hf ho]
  exact ⟨hrun, hown, hready⟩

/-! ## STATE of the sequencer and of the power controller -/

/-- STATE and STEP take their values. -/
def seqWritten (p : Pkg) (st n : Nat) : Pkg := setFld (setFld p svSeq 31 28 st) svSeq 27 24 n

theorem setSeq_only (p : Pkg) (st n : Nat) : OnlyLog p (setSeq p st n) := by
  have hset : OnlyLog p (seqWritten p st n) := ((setFld_only p svSeq 31 28 st).trans (setFld_only _ svSeq 27 24 n)).log
  unfold setSeq
  dsimp only
  split
  · exact .refl p
  · refine OnlyLog.trans ?_ (waypoint_only _ _ _ _ _)
    split
    · exact hset
    · exact hset.trans (raiseBlock_only _ _ _).log

/-- A change of STATE or STEP writes them; its interrupt and waypoint leave every other register. -/
theorem setSeq_reg_changed {p : Pkg} {st n : Nat} (h : ¬ (seqState p = st ∧ seqStep p = n)) {k : Nat}
    (h1 : k ≠ key pgSv 0x20) (h2 : k ≠ key pgSv 0x24) : reg (setSeq p st n) k = reg (seqWritten p st n) k := by
  rw [setSeq, if_neg h]
  dsimp only
  rw [waypoint_reg]
  split
  · rfl
  · exact raiseBlock_reg _ _ _ h1 h2

theorem setSeq_reg (p : Pkg) (st n : Nat) {k : Nat} (h0 : k ≠ svSeq) (h1 : k ≠ key pgSv 0x20) (h2 : k ≠ key pgSv 0x24) :
    reg (setSeq p st n) k = reg p k := by
  by_cases h : seqState p = st ∧ seqStep p = n
  · rw [setSeq, if_pos h]
  · rw [setSeq_reg_changed h h1 h2, seqWritten, reg_setFld_ne _ _ _ _ h0, reg_setFld_ne _ _ _ _ h0]

/-- STATE and STEP read the values set, and the fields below keep theirs. -/
theorem setSeq_shows (p : Pkg) {st n : Nat} (hst : st < 16) (hn : n < 16) :
    seqState (setSeq p st n) = st ∧ seqStep (setSeq p st n) = n ∧
      ∀ hi lo, lo ≤ hi → hi < 24 → fld (setSeq p st n) svSeq hi lo = fld p svSeq hi lo := by
  by_cases h : seqState p = st ∧ seqStep p = n
  · rw [setSeq, if_pos h]
    exact ⟨h.1, h.2, fun _ _ _ _ => rfl⟩
  · have hreg := setSeq_reg_changed h (k := svSeq) (by decide) (by decide)
    refine ⟨?_, ?_, fun hi lo hl hh => ?_⟩
    · rw [seqState, fld_congr hreg, seqWritten,
        fld_setFld_beside _ _ _ _ _ _ _ (by decide) (by decide) (by decide) (by decide),
        fld_setFld_self _ _ _ _ _ (by decide) (by decide)]
      exact Nat.mod_eq_of_lt hst
    · rw [seqStep, fld_congr hreg, seqWritten, fld_setFld_self _ _ _ _ _ (by decide) (by decide)]
      exact Nat.mod_eq_of_lt hn
    · rw [fld_congr hreg, seqWritten, fld_setFld_beside _ _ _ _ _ _ _ (by decide) (by decide) hl (by omega),
        fld_setFld_beside _ _ _ _ _ _ _ (by decide) (by decide) hl (by omega)]

theorem setPwrState_only (p : Pkg) (n : Nat) : OnlyLog p (setPwrState p n) := by
  unfold setPwrState
  split
  · exact .refl p
  · exact ((setFld_only _ _ _ _ _).trans (raiseBlock_only _ _ _)).log.trans (waypoint_only _ _ _ _ _)

theorem setPwrState_reg (p : Pkg) (n : Nat) {k : Nat} (h0 : k ≠ pwrStatus) (h1 : k ≠ key pgPwr 0x20) (h2 : k ≠ key pgPwr 0x24) :
    reg (setPwrState p n) k = reg p k := by
  unfold setPwrState
  split
  · rfl
  · rw [waypoint_reg, raiseBlock_reg _ _ _ h1 h2, reg_setFld_ne _ _ _ _ h0]

/-! ## A loss of the rails (R664, R749) -/

/-- A filter of a map that keeps a key's entry and every entry's key keeps its value. -/
theorem SMap.get_filterMap {α : Type} {f : Nat × α → Option (Nat × α)} {k : Nat} (hk : ∀ v, f (k, v) = some (k, v))
    (hf : ∀ x y, f x = some y → y.1 = x.1) (m : SMap α) (d : α) : SMap.get (m.filterMap f) k d = SMap.get m k d := by
  induction m with
  | nil => rfl
  | cons x t ih =>
    obtain ⟨j, v⟩ := x
    by_cases hj : k = j
    · subst hj
      rw [List.filterMap_cons_some (hk v)]
      simp [SMap.get]
    · cases hx : f (j, v) with
      | none => rw [List.filterMap_cons_none hx, ih]; simp [SMap.get, hj]
      | some y =>
        have hy : ¬ k = y.1 := by rw [hf _ _ hx]; exact hj
        rw [List.filterMap_cons_some hx]
        simp [SMap.get, hj, hy, ih]

theorem cableOnly_key {x y : Nat × W64} (h : cableOnly x = some y) : y.1 = x.1 := by
  unfold cableOnly at h
  split at h
  · rw [← Option.some.inj h]
  · cases h

/-- A register on VDD_AUX that is no USE_COUNTER keeps its value. -/
theorem reg_offAux (p : Pkg) {k : Nat} (haux : onAux (k / 0x1000) = true) (huse : k % 0x1000 ≠ 0x38) :
    reg (offAux p) k = reg p k := by
  refine SMap.get_filterMap (fun v => ?_) (fun x y hxy => ?_) _ _
  · simp only [haux, huse, if_true, if_false]
  · dsimp only at hxy
    split at hxy
    · split at hxy
      · cases hxy
      · rw [Option.some.inj hxy]
    · exact cableOnly_key hxy

theorem railsGone_only (p : Pkg) : OnlyLog (offAux p) (railsGone p) := by
  unfold railsGone
  exact ((((setFld_only _ _ _ _ _).trans (setFld_only _ _ _ _ _)).log.trans (setSeq_only _ _ _)).trans
    (setBit_only _ _ _ _).log).trans (setPwrState_only _ _)

theorem railsGone_reg (p : Pkg) {k : Nat} (haux : onAux (k / 0x1000) = true) (huse : k % 0x1000 ≠ 0x38) (h0 : k ≠ svSeq)
    (h1 : k ≠ key pgSv 0x20) (h2 : k ≠ key pgSv 0x24) (h3 : k ≠ pwrStatus) (h4 : k ≠ key pgPwr 0x20)
    (h5 : k ≠ key pgPwr 0x24) : reg (railsGone p) k = reg p k := by
  unfold railsGone
  dsimp only
  rw [setPwrState_reg _ _ h3 h4 h5, setBit, reg_setFld_ne _ _ _ _ h0, setSeq_reg _ _ _ h0 h1 h2, reg_setFld_ne _ _ _ _ h0,
    reg_setFld_ne _ _ _ _ h0, reg_offAux _ haux huse]

/-- The sequencer waits at AUX, its target 0 set by an event. -/
theorem railsGone_waits (p : Pkg) : seqState (railsGone p) = 0 ∧ seqStep (railsGone p) = 1 ∧ seqTarget (railsGone p) = 0 ∧
    fld (railsGone p) svSeq 19 18 = 2 := by
  obtain ⟨hstate, hstep, hrest⟩ := setSeq_shows (setFld (setFld (offAux p) svSeq 23 22 0) svSeq 19 18 2) (st := 0) (n := 1)
    (by decide) (by decide)
  have hlast (hi lo : Nat) (hl : lo ≤ hi) (hd : hi < 20 ∨ 20 < lo) : fld (railsGone p) svSeq hi lo =
      fld (setSeq (setFld (setFld (offAux p) svSeq 23 22 0) svSeq 19 18 2) 0 1) svSeq hi lo := by
    unfold railsGone
    dsimp only
    rw [fld_congr (setPwrState_reg _ _ (by decide) (by decide) (by decide)), setBit,
      fld_setFld_beside _ _ _ _ _ _ _ (by decide) (by decide) hl hd]
  refine ⟨?_, ?_, ?_, ?_⟩
  · exact (hlast _ _ (by decide) (by decide)).trans hstate
  · exact (hlast _ _ (by decide) (by decide)).trans hstep
  · rw [seqTarget, hlast _ _ (by decide) (by decide), hrest _ _ (by decide) (by decide),
      fld_setFld_beside _ _ _ _ _ _ _ (by decide) (by decide) (by decide) (by decide),
      fld_setFld_self _ _ _ _ _ (by decide) (by decide)]
    rfl
  · rw [hlast _ _ (by decide) (by decide), hrest _ _ (by decide) (by decide),
      fld_setFld_self _ _ _ _ _ (by decide) (by decide)]
    rfl

/-- POWER_LOSS is a PACKAGE record. -/
theorem powerLoss_logged (p : Pkg) (n : Nat) : bit (logErr p pgPwr ⟨0x74, 0, 0, 0, n⟩) (key pgPwr 0x10) 3 = true := by
  have hsev : escalate p pgPwr ⟨0x74, 0, 0, 0, n⟩ = (3, false) := rfl
  unfold logErr logErrAt
  rw [hsev]
  dsimp only
  rw [bit_congr (waypoint_reg _ _ _ _ _ _), if_neg (by simp), bit_congr (raise_reg _ _ _ (by decide) (by decide))]
  exact bit_setBit_self _ _ _ _ (by decide)

/-- The causes of a rail loss, as the surveyor watches them (R749). -/
def LossCause (s : State) (cause : Nat) : Prop :=
  (cause = 0 ∧ s.pkg.seq.railEnLink = true) ∨ (cause = 1 ∧ s.pkg.seq.railEnCore = true) ∨
    (cause = 2 ∧ ∃ n, n < 4 ∧ halted s.pkg n = true ∧
      SMap.get s.pkg.pwr.haltSince n 0 + 10000000 < s.pkg.pace.datum) ∨
    (cause = 3 ∧ s.pkg.seq.railEnCore = true ∧ ∃ n, n < 4 ∧ railOf s.pkg n < 450)

theorem exec_railLoss {s : State} {cause : Nat} (h : LossCause s cause) : exec (.railLoss cause) s = .next (railLoss s) := by
  refine if_pos ?_
  rcases h with h | h | ⟨hc, n, hn, hh, hd⟩ | ⟨hc, he, n, hn, hr⟩
  · exact .inl h
  · exact .inr (.inl h)
  · exact .inr (.inr (.inl ⟨hc, List.any_eq_true.2 ⟨n, List.mem_range.2 hn, by simp [hh, hd]⟩⟩))
  · exact .inr (.inr (.inr ⟨hc, he, List.any_eq_true.2 ⟨n, List.mem_range.2 hn, by simp [hr]⟩⟩))

/-- R749, R664: the package waits at AUX with its rails off; the datum, boot flash and the book are kept. -/
theorem railLoss_goesToAux (s : State) (cause : Nat) (h : LossCause s cause) :
    ∃ t, exec (.railLoss cause) s = .next t ∧ t.mem = s.mem.hostOnly ∧ seqState t.pkg = 0 ∧ seqStep t.pkg = 1 ∧
      seqTarget t.pkg = 0 ∧ fld t.pkg svSeq 19 18 = 2 ∧ t.pkg.seq.railEnLink = false ∧ t.pkg.seq.railEnCore = false ∧
      t.pkg.seq.dieReset = true ∧ bit t.pkg (key pgPwr 0x10) 3 = true ∧ t.pkg.pace.datum = s.pkg.pace.datum ∧
      t.pkg.boot = s.pkg.boot ∧ t.pkg.fuse = s.pkg.fuse ∧ t.pkg.ces = [] := by
  have hlog := logErr_only s.pkg pgPwr ⟨0x74, 0, 0, 0, s.pkg.boot.powerUps⟩
  have hlogged := powerLoss_logged s.pkg s.pkg.boot.powerUps
  refine ⟨railLoss s, exec_railLoss h, rfl, ?_⟩
  unfold railLoss
  dsimp only
  generalize logErr s.pkg pgPwr ⟨0x74, 0, 0, 0, s.pkg.boot.powerUps⟩ = q at *
  have hgone := railsGone_only q
  obtain ⟨hstate, hstep, htarget, hsource⟩ := railsGone_waits q
  have herr : bit (railsGone q) (key pgPwr 0x10) 3 = bit q (key pgPwr 0x10) 3 :=
    bit_congr (railsGone_reg q (by decide) (by decide) (by decide) (by decide) (by decide) (by decide) (by decide)
      (by decide)) 3
  refine ⟨hstate, hstep, htarget, hsource, ?_, ?_, ?_, herr.trans hlogged, ?_, ?_, ?_, ?_⟩
  · rw [hgone.seq_eq]
    rfl
  · rw [hgone.seq_eq]
    rfl
  · rw [hgone.seq_eq]
    rfl
  · rw [hgone.pace_eq, ← hlog.pace_eq]
    rfl
  · exact hgone.boot_eq.trans hlog.boot_eq
  · exact hgone.fuse_eq.trans hlog.fuse_eq
  · rw [hgone.ces_eq]
    rfl

/-- Settles O55: each clause is what the operation's own lemma above says. -/
theorem powerGoodBootsAndRailLossesGoToAux : Obligations.PowerGoodBootsAndRailLossesGoToAux := by
  unfold Obligations.PowerGoodBootsAndRailLossesGoToAux
  refine ⟨coldPowerUp_boots, coldPowerUp_waits, ?unstarted, fun s => ⟨_, rfl, rfl, rfl⟩, ?released, flashRelease_starts,
    railLoss_goesToAux, ?unwatched⟩
  case unstarted =>
    exact fun s h => ⟨⟨_, rfl, setTarget_unstarted true 2 0 h⟩, ⟨_, rfl, setTarget_unstarted false 0 0 h⟩⟩
  case released =>
    exact fun s h => ⟨_, rfl, rfl, doFlashRelease_runs h⟩
  case unwatched =>
    refine fun s => ⟨fun h => if_neg ?_, fun h => if_neg ?_⟩ <;> simp [h]

end Sys2Proof.Machine
end

section
/-! Credited paths (spec/03 R96 to R107): what each operation of a path leaves of it, and the proof of O9. -/

namespace Sys2Proof.Machine

/-! ## The credits of a sender (R96) -/

/-- An item sent takes one credit. -/
theorem Path.credits_of_sent {x y : Path} (hl : y.limit = x.limit) (hs : y.sent = (x.sent + 1) % 65536)
    (hc : x.credits ≠ 0) : y.credits = x.credits - 1 := by
  unfold Path.credits at *
  rw [hl, hs]
  omega

/-- The places of the receiver queue that credits, committed items and items of the open packet take (R96). -/
def Path.pledged (x : Path) : Nat := x.credits + x.items.length + x.uncommitted.length

/-! ## An item goes out (R96, R107) -/

/-- The path after an item has gone out on a credit. -/
def Path.sentOn (x : Path) (item : Item) (last : Bool) : Path :=
  { x with sent := (x.sent + 1) % 65536, uncommitted := x.uncommitted ++ [item], ended := last }

theorem Path.credits_sentOn {x : Path} (item : Item) (last : Bool) (h : x.credits ≠ 0) :
    (x.sentOn item last).credits = x.credits - 1 := Path.credits_of_sent rfl rfl h

theorem Path.send_sends {x : Path} {last : Bool} (item : Item) (hc : x.credits ≠ 0) (he : x.ended = false)
    (hroom : x.uncommitted.length + (if last then 0 else 1) < x.depth) :
    x.send item x.uncommitted.isEmpty last = x.sentOn item last := by
  refine if_neg ?_
  rintro (h | h | h | h | ⟨rfl, h⟩)
  · exact hc h
  · simp [he] at h
  · exact h rfl
  · omega
  · simp only [Bool.false_eq_true, if_false] at hroom
    omega

theorem Path.send_waits {x : Path} (item : Item) (first last : Bool) (h : x.credits = 0) : x.send item first last = x :=
  if_pos (.inl h)

theorem Path.send_cases (x : Path) (item : Item) (first last : Bool) :
    x.send item first last = x ∨ x.credits ≠ 0 ∧ x.send item first last = x.sentOn item last := by
  unfold Path.send
  split
  next => exact .inl rfl
  next h => exact .inr ⟨fun hc => h (.inl hc), rfl⟩

theorem Path.pledged_send (x : Path) (item : Item) (first last : Bool) : (x.send item first last).pledged = x.pledged := by
  obtain h | ⟨hc, h⟩ := x.send_cases item first last
  · rw [h]
  · have hlen : (x.uncommitted ++ [item]).length = x.uncommitted.length + 1 := List.length_append
    rw [h]
    unfold Path.pledged
    rw [Path.credits_sentOn item last hc]
    simp only [Path.sentOn, hlen]
    omega

/-! ## An item is removed (R97) -/

theorem Path.remove_cons {x : Path} {i : Nat × Item} {rest : List (Nat × Item)} (h : x.items = i :: rest) :
    x.remove = { x with items := rest, freed := (x.freed + 1) % 65536 } := by
  unfold Path.remove
  rw [h]

theorem Path.remove_nil {x : Path} (h : x.items = []) : x.remove = x := by
  unfold Path.remove
  rw [h]

theorem Path.pledged_remove_le (x : Path) : x.remove.pledged ≤ x.pledged := by
  cases h : x.items with
  | nil => rw [Path.remove_nil h]
  | cons i rest =>
    rw [Path.remove_cons h]
    simp [Path.pledged, Path.credits, h]

/-! ## A packet of one item lands (R96, R103) -/

/-- The path after a push has landed on a credit. -/
def Path.landed (x : Path) (item : Item) : Path :=
  { x with sent := (x.sent + 1) % 65536, items := x.items ++ [(x.nextSeq, item)], nextSeq := (x.nextSeq + 1) % 65536 }

theorem Path.credits_landed {x : Path} (item : Item) (h : x.credits ≠ 0) : (x.landed item).credits = x.credits - 1 :=
  Path.credits_of_sent rfl rfl h

theorem Path.land_lands {x : Path} (item : Item) (hc : x.credits ≠ 0)
    (hroom : x.items.length + x.uncommitted.length < x.depth) : x.land item = x.landed item := if_pos ⟨hc, hroom⟩

theorem Path.land_waits {x : Path} (item : Item) (h : x.credits = 0) : x.land item = x := if_neg fun hc => hc.1 h

theorem Path.land_cases (x : Path) (item : Item) : x.land item = x ∨ x.credits ≠ 0 ∧ x.land item = x.landed item := by
  unfold Path.land
  split
  next h => exact .inr ⟨h.1, rfl⟩
  next => exact .inl rfl

theorem Path.pledged_land (x : Path) (item : Item) : (x.land item).pledged = x.pledged := by
  obtain h | ⟨hc, h⟩ := x.land_cases item
  · rw [h]
  · have hlen : (x.items ++ [(x.nextSeq, item)]).length = x.items.length + 1 := List.length_append
    rw [h]
    unfold Path.pledged
    rw [Path.credits_landed item hc]
    simp only [Path.landed, hlen]
    omega

/-! ## Credit updates (R97 to R101) -/

theorem Path.accept_takes {x : Path} {u : Nat} (hu : u < 65536) (hr : x.retired = false)
    (hd : (u + 65536 - x.limit % 65536) % 65536 ≤ x.depth) : x.accept u true = { x with limit := u } := by
  rw [Path.accept, Nat.mod_eq_of_lt hu, if_pos ⟨rfl, hr, hd⟩]

theorem Path.accept_discards {x : Path} {u : Nat} {good : Bool} (hu : u < 65536)
    (h : good = false ∨ x.retired = true ∨ x.depth < (u + 65536 - x.limit % 65536) % 65536) :
    x.accept u good = { x with discards := x.discards + 1 } := by
  rw [Path.accept, Nat.mod_eq_of_lt hu, if_neg]
  rintro ⟨hg, hr, hd⟩
  rcases h with h | h | h
  · simp [h] at hg
  · simp [h] at hr
  · omega

/-- The receiver's own update gives its sender a credit for each free place, since SENT is FREED and the items held. -/
theorem Path.credits_accept_update {x : Path} {held : Nat} (hl : x.limit < 65536) (hs : x.sent = (x.freed + held) % 65536)
    (hle : held ≤ x.depth) (hdepth : x.depth ≤ 4096) (hr : x.retired = false)
    (hd : (x.update + 65536 - x.limit) % 65536 ≤ x.depth) : (x.accept x.update true).credits + held = x.depth := by
  have hu : x.update < 65536 := Nat.mod_lt _ (by decide)
  rw [Path.accept_takes hu hr (by rwa [Nat.mod_eq_of_lt hl])]
  simp only [Path.credits, Path.update, hs]
  omega

theorem doCreditUpdateSend_sends {p : Pkg} {n : Nat} (hr : pathReady p n = true)
    (h : (path p n).announced = false ∨ (path p n).update ≠ (path p n).lastSent) :
    doCreditUpdateSend n p = emitMsg (setPath p n { path p n with announced := true, lastSent := (path p n).update })
      (.credit n (path p n).update) := if_pos ⟨hr, h⟩

theorem doCreditUpdateSend_unready {p : Pkg} {n : Nat} (hr : pathReady p n = false) : doCreditUpdateSend n p = p :=
  if_neg fun h => by simp [hr] at h

theorem doCreditUpdateRepeat_repeats {p : Pkg} {n : Nat} (ha : (path p n).announced = true)
    (hu : (path p n).update = (path p n).lastSent) (hc : (path p n).credits < (path p n).depth) :
    doCreditUpdateRepeat n p = emitMsg p (.credit n (path p n).update) := by
  rw [hu]
  exact if_pos ⟨ha, hu, hc⟩

@[simp] theorem path_emitMsg (p : Pkg) (m : OutMsg) (n : Nat) : path (emitMsg p m) n = path p n := rfl

/-- Settles O9: each clause is what the path's operation does; that no push finds the queue full is that none of them
raises the places pledged. -/
theorem creditsLetItemsPassAndReturn : Obligations.CreditsLetItemsPassAndReturn := by
  unfold Obligations.CreditsLetItemsPassAndReturn
  refine ⟨?goesOut, ?waits, ?removed, ?updated, ?unready, ?repeated, ?accepted, ?bounded⟩
  case goesOut =>
    rintro s n i _ l _ rfl hc he rfl hroom
    have hpath : path (doItemSend n i (path s.pkg n).uncommitted.isEmpty l s.pkg) n = (path s.pkg n).sentOn i l :=
      (path_setPath_self _ _ _).trans (Path.send_sends i hc he hroom)
    refine ⟨_, rfl, rfl, ?_⟩
    rw [State.onPkg_pkg, hpath]
    exact ⟨rfl, rfl, rfl, rfl, Path.credits_sentOn i l hc⟩
  case waits =>
    exact fun s n i f l hc => ⟨_, rfl, (path_setPath_self _ _ _).trans (Path.send_waits i f l hc)⟩
  case removed =>
    intro s n q i rest h
    have hpath : path (doItemRemove n s.pkg) n = _ := (path_setPath_self _ _ _).trans (Path.remove_cons h)
    refine ⟨_, rfl, rfl, ?_⟩
    rw [State.onPkg_pkg, hpath]
    exact ⟨rfl, rfl⟩
  case updated =>
    rintro s n _ rfl hr h
    refine ⟨_, rfl, rfl, ?_⟩
    rw [State.onPkg_pkg, doCreditUpdateSend_sends hr h, path_emitMsg, path_setPath_self]
    exact ⟨rfl, rfl, rfl⟩
  case unready =>
    exact fun s n hr => congrArg Host.Outcome.next (State.onPkg_eq_self (doCreditUpdateSend_unready hr))
  case repeated =>
    rintro s n _ rfl ha hu hc
    refine ⟨_, rfl, rfl, ?_⟩
    rw [State.onPkg_pkg, doCreditUpdateRepeat_repeats ha hu hc]
    exact ⟨rfl, path_emitMsg _ _ _⟩
  case accepted =>
    rintro s n u _ rfl hu
    refine ⟨fun hr hd => ⟨_, rfl, rfl, ?_⟩, fun good h => ⟨_, rfl, rfl, ?_⟩⟩
    · have hpath : path (doCreditUpdate n u true s.pkg) n = _ :=
        (path_setPath_self _ _ _).trans (Path.accept_takes hu hr hd)
      rw [State.onPkg_pkg, hpath]
      exact ⟨rfl, rfl⟩
    · have hpath : path (doCreditUpdate n u good s.pkg) n = _ :=
        (path_setPath_self _ _ _).trans (Path.accept_discards hu h)
      rw [State.onPkg_pkg, hpath]
      exact ⟨rfl, rfl⟩
  case bounded =>
    rintro x _ rfl hdepth - - hl hs hle
    have hpledged : x.pledged ≤ x.depth := by unfold Path.pledged; omega
    exact ⟨fun i f l => (x.pledged_send i f l).trans_le hpledged, x.pledged_remove_le.trans hpledged,
      fun i => (x.pledged_land i).trans_le hpledged,
      Path.credits_accept_update hl hs (by omega) hdepth⟩

end Sys2Proof.Machine
end

section
/-! Packets (spec/03 R105 to R109): what their commit and their rewinding leave of a path, how an output packet leaves its mover
and commits, and the proof of O10. -/

namespace Sys2Proof.Machine

/-! ## Items that join a path's committed ones (R105, R114) -/

/-- The sequence number of the j-th of several items accepted from a number on. -/
def seqAfter (n j : Nat) : Nat := if j = 0 then n else (n + j) % 65536

theorem seqAfter_zero (n : Nat) : seqAfter n 0 = n := rfl

theorem seqAfter_succ (n j : Nat) : seqAfter n (j + 1) = seqAfter ((n + 1) % 65536) j := by
  cases j with
  | zero => rfl
  | succ j =>
    simp only [seqAfter, Nat.add_one_ne_zero, if_false]
    omega

theorem seqAfter_range (n k : Nat) : (List.range (k + 1)).map (seqAfter n) =
    n :: (List.range k).map (seqAfter ((n + 1) % 65536)) := by
  rw [List.range_succ_eq_map, List.map_cons, List.map_map, seqAfter_zero]
  exact congrArg _ (List.map_congr_left fun j _ => seqAfter_succ n j)

theorem Path.append_items (x : Path) (l : List Item) :
    (x.append l).items.map (·.2) = x.items.map (·.2) ++ l ∧
    (x.append l).items.map (·.1) = x.items.map (·.1) ++ (List.range l.length).map (seqAfter x.nextSeq) := by
  induction l generalizing x with
  | nil => simp [Path.append]
  | cons i t ih =>
    rw [List.length_cons, seqAfter_range]
    simpa [Path.append] using ih { x with items := x.items ++ [(x.nextSeq, i)], nextSeq := (x.nextSeq + 1) % 65536 }

theorem Path.append_keeps (x : Path) (l : List Item) : (x.append l).uncommitted = x.uncommitted ∧
    (x.append l).ended = x.ended ∧ (x.append l).freed = x.freed := by
  induction l generalizing x with
  | nil => exact ⟨rfl, rfl, rfl⟩
  | cons i t ih => exact ih _

/-! ## Commit of a packet on a path (R105, R107) -/

theorem Path.commit_ended {x : Path} (h : x.ended = true) :
    x.commit true = ({ x with uncommitted := [], ended := false } : Path).append x.uncommitted := by
  simp [Path.commit, h]

theorem Path.commit_open {x : Path} (h : x.ended = false) : x.commit true = x := by simp [Path.commit, h]

/-! ## Output packets: how one leaves its mover (R109, R462) -/

theorem ce_congr {p q : Pkg} (h : q.ces = p.ces) (n : Nat) : ce q n = ce p n := by
  unfold ce
  rw [h]

theorem ite_keeps {β : Type} (g : Pkg → β) {c : Prop} [Decidable c] {p q : Pkg} {x : β} (hp : g p = x) (hq : g q = x) :
    g (if c then p else q) = x := by
  split
  next => exact hp
  next => exact hq

theorem countAccess_ces (p : Pkg) (b addr : Nat) (write : Bool) (ctx : Nat) :
    (countAccess p b addr write ctx).ces = p.ces := by
  have hbump (evicts : Bool) : (if evicts = true then bumpReg p (accControl b + 8) 1 0xFFFFFFFF else p).ces = p.ces :=
    ite_keeps Pkg.ces rfl rfl
  unfold countAccess
  dsimp only
  exact ite_keeps Pkg.ces
    (ite_keeps Pkg.ces ((raiseBlock_only _ _ _).log.ces_eq.trans (hbump _)) (hbump _)) rfl

theorem sendLine_ces (p : Pkg) (c : Cmd) (l : PLine) : (sendLine p c l).ces = p.ces := by
  unfold sendLine
  split
  next => rfl
  next => exact countAccess_ces _ _ _ _ _
  next => rfl

/-- The mover of a CE after its oldest closed packet has left it. -/
theorem mover_sendPacket {p : Pkg} {n mu : Nat} {pk : List PLine} {rest : List (List PLine)}
    (hm : (mover (ce p n) mu).closed = pk :: rest) (hpend : muPending p n mu = [])
    (hrem : remotesOf p (fun r => r == .moverStore n mu) = []) (hfate : ∀ l ∈ pk, fateFor p (idCe n) l.pa true ≠ .waits)
    (hroom : hostRoom p pk = true) :
    mover (ce (sendPacket n mu p) n) mu = { mover (ce p n) mu with closed := rest } := by
  have hgo : pk.all (fun l => fateFor p (idCe n) l.pa true != .waits) = true := by simpa using hfate
  have hces : (sendPacket n mu p).ces = (setCe p n { ce p n with
      movers := SMap.set (ce p n).movers mu { mover (ce p n) mu with closed := rest } }).ces := by
    simp only [sendPacket, hm, hpend, hrem, hgo, hroom, List.isEmpty_nil, Bool.and_self, if_true]
    exact foldl_keeps Pkg.ces (fun q l => sendLine_ces q _ l) pk _
  rw [ce_congr hces, ce_setCe_self]
  exact SMap.get_set_self _ _ _ _

/-! ## The commit of an output packet (R109) -/

theorem sendWindow_keeps (p : Pkg) (c : Cmd) (l : PLine) : (sendWindow p c l).ces = p.ces ∧ (sendWindow p c l).home = p.home := by
  unfold sendWindow
  split <;> exact ⟨rfl, rfl⟩

/-- A line whose packet has committed. -/
def PLine.committed (l : PLine) : PLine := { l with going := true }

/-- Whether a line is of a mover's packet. -/
def PLine.isOf (n mu : Nat) (l : PLine) : Bool := l.ce == n && l.mu == mu

/-- What the commit of a mover's packet makes of a line. -/
def PLine.commitOf (n mu : Nat) (l : PLine) : PLine := if l.isOf n mu then l.committed else l

theorem PLine.isOf_commitOf (n mu : Nat) (l : PLine) : (l.commitOf n mu).isOf n mu = l.isOf n mu := by
  unfold PLine.commitOf
  split
  next => rfl
  next => rfl

/-- What the commit leaves pending: every line but the packet's window lines, those of the packet as committed. -/
def pendAfter (n mu : Nat) (ls : List PLine) : List PLine :=
  (ls.filter (fun l => !(l.isOf n mu && isWindowLine l))).map (PLine.commitOf n mu)

theorem pendAfter_filter (n mu : Nat) (ls : List PLine) : (pendAfter n mu ls).filter (PLine.isOf n mu) =
    ((ls.filter (PLine.isOf n mu)).filter (fun l => !isWindowLine l)).map PLine.committed := by
  have hpred (l : PLine) : ((PLine.isOf n mu ∘ PLine.commitOf n mu) l && !(l.isOf n mu && isWindowLine l)) =
      (!isWindowLine l && l.isOf n mu) := by
    rw [Function.comp_apply, PLine.isOf_commitOf]
    cases l.isOf n mu <;> simp
  simp only [pendAfter, List.filter_map, List.filter_filter, hpred]
  refine List.map_congr_left fun l hl => if_pos ?_
  exact (Bool.and_eq_true_iff.1 (List.mem_filter.1 hl).2).2

theorem commitPacket_held {p : Pkg} {n mu : Nat} (h : packetHeld p n mu = true) :
    muPending (commitPacket n mu p) n mu = ((muPending p n mu).filter (fun l => !isWindowLine l)).map PLine.committed := by
  have hpend : (commitPacket n mu p).home.pend = pendAfter n mu p.home.pend := by
    rw [commitPacket, if_pos h]
    exact congrArg HomeSt.pend (foldl_keeps Pkg.home (fun q l => (sendWindow_keeps q _ l).2) _ _)
  exact (congrArg (List.filter (PLine.isOf n mu)) hpend).trans (pendAfter_filter n mu _)

theorem commitPacket_unheld {p : Pkg} {n mu : Nat} (h : packetHeld p n mu = false) : commitPacket n mu p = p :=
  if_neg (by simp [h])

theorem commitPacket_ces (p : Pkg) (n mu : Nat) : (commitPacket n mu p).ces = p.ces := by
  unfold commitPacket
  split
  next => exact foldl_keeps Pkg.ces (fun q l => (sendWindow_keeps q _ l).1) _ _
  next => rfl

/-- Settles O10: a path's packet by what `Path.commit` appends, an output packet by what its sending and its commit leave. -/
theorem packetsCommitWholeOrVanish : Obligations.PacketsCommitWholeOrVanish := by
  unfold Obligations.PacketsCommitWholeOrVanish
  refine ⟨?whole, ?hidden, ?rewound, fun _ _ => rfl, ?leaves, ?commits, ?unheld⟩
  case whole =>
    rintro s n _ rfl hend
    have hpath : path (doPacketCommit n true s.pkg) n = _ := (path_setPath_self _ _ _).trans (Path.commit_ended hend)
    refine ⟨_, rfl, rfl, ?_⟩
    rw [State.onPkg_pkg, hpath]
    obtain ⟨hitems, hseq⟩ := Path.append_items { path s.pkg n with uncommitted := [], ended := false }
      (path s.pkg n).uncommitted
    exact ⟨hitems, hseq, Path.append_keeps _ _⟩
  case hidden =>
    exact fun s n h => ⟨_, rfl, rfl, (path_setPath_self _ _ _).trans (Path.commit_open h)⟩
  case rewound =>
    rintro s n _ rfl
    have hpath : path (doPacketRewind n s.pkg) n = (path s.pkg n).rewind := path_setPath_self _ _ _
    refine ⟨_, rfl, rfl, ?_⟩
    rw [State.onPkg_pkg, hpath]
    exact ⟨rfl, rfl, rfl, rfl⟩
  case leaves =>
    intro s n mu pk rest hm hpend hrem hfate hroom
    refine ⟨_, rfl, rfl, ?_⟩
    rw [State.onPkg_pkg, ce_congr (commitPacket_ces _ n mu), mover_sendPacket hm hpend hrem hfate hroom]
  case commits =>
    rintro s n mu _ rfl h
    exact ⟨_, rfl, rfl, commitPacket_held h⟩
  case unheld =>
    rintro s n mu _ rfl h
    exact ⟨_, rfl, rfl, commitPacket_unheld h⟩

end Sys2Proof.Machine
end

section
/-! Queues (spec/03 R102, R103, R110 to R115): what an arbitration instant, a pop and a push leave of a path's queue and of a
register-visible queue. -/

namespace Sys2Proof.Machine

/-! ## Pushes of one arbitration instant (R102, R103) -/

theorem sortPushes_one (x : Nat × Item) : sortPushes [x] = [x] := rfl

theorem sortPushes_two {a b : Nat} (i j : Item) (h : a < b) : sortPushes [(b, j), (a, i)] = [(a, i), (b, j)] := by
  simp [sortPushes, insertPush, h]

theorem path_doQueueArbitration {n : Nat} (h : isPopKey n = false) (pop : Bool) (pushes : List (Nat × Item)) (p : Pkg) :
    path (doQueueArbitration n pop pushes p) n =
      (sortPushes pushes).foldl (fun x y => x.land y.2) (bif pop then (path p n).remove else path p n) := by
  cases pop <;> simp [doQueueArbitration, h]

theorem doQueueArbitration_pops {k : Nat} (h : isPopKey k = true) (pushes : List (Nat × Item)) (p : Pkg) :
    doQueueArbitration k true pushes p =
      (sortPushes pushes).foldl (fun q x => pushQueue q k (itemWords x.2 (wordsPerItem k)) true)
        (emitMsg (setQueue p k (queue p k).pop.2) (.readData k (queue p k).pop.1)) := if_pos h

/-- Pushes that find no credit wait at their senders. -/
theorem Path.foldl_land_waits {x : Path} (h : x.credits = 0) (l : List (Nat × Item)) :
    l.foldl (fun x y => x.land y.2) x = x := by
  induction l with
  | nil => rfl
  | cons y t ih => rw [List.foldl_cons, Path.land_waits _ h, ih]

/-- Two pushes that find two credits and two places land in their order. -/
theorem Path.land_land {x : Path} (i j : Item) (hc : 2 ≤ x.credits)
    (hroom : x.items.length + x.uncommitted.length + 2 ≤ x.depth) : (x.land i).land j = (x.landed i).landed j := by
  have hc1 : x.credits ≠ 0 := by omega
  have hlen : (x.landed i).items.length = x.items.length + 1 := List.length_append
  have hc2 : (x.landed i).credits ≠ 0 := by rw [Path.credits_landed i hc1]; omega
  have hroom2 : (x.landed i).items.length + (x.landed i).uncommitted.length < (x.landed i).depth := by
    rw [hlen]; simp only [Path.landed]; omega
  rw [Path.land_lands i hc1 (by omega), Path.land_lands j hc2 hroom2]

theorem Path.landed_alone {x : Path} (i : Item) (h : x.items = []) : (x.landed i).items = [(x.nextSeq, i)] := by
  rw [Path.landed, h, List.nil_append]

theorem Path.landed_two (x : Path) (i j : Item) :
    ((x.landed i).landed j).items = x.items ++ [(x.nextSeq, i), ((x.nextSeq + 1) % 65536, j)] :=
  List.append_assoc _ _ _

/-! ## Pushes to a register-visible queue (R114, R115) -/

@[simp] theorem queue_setQueue_self (p : Pkg) (k : Nat) (q : Queue) : queue (setQueue p k q) k = q := SMap.get_set_self _ _ _ _

@[simp] theorem queue_emitMsg (p : Pkg) (m : OutMsg) (k : Nat) : queue (emitMsg p m) k = queue p k := rfl

theorem queueCap_pos (off : Nat) : 0 < queueCap off := by
  unfold queueCap
  split <;> decide

theorem Queue.add_items (q : Queue) (ws : List W64) (b : Bool) :
    (q.add ws b).items.map (·.1) = q.items.map (·.1) ++ [q.nextSeq] := by
  simp [Queue.add]

theorem Queue.push_room {q : Queue} {cap : Nat} (h : q.items.length < cap) (newest : Bool) (ws : List W64) (b : Bool) :
    q.push cap newest ws b = q.add ws b := if_pos h

theorem Queue.push_oldest {q : Queue} {cap : Nat} (h : cap ≤ q.items.length) (ws : List W64) (b : Bool) :
    q.push cap false ws b = q.drop1 := by
  simp [Queue.push, Nat.not_lt.2 h]

theorem Queue.push_newest {q : Queue} {cap : Nat} (h : cap ≤ q.items.length) (ws : List W64) (b : Bool) :
    q.push cap true ws b = q.overwrite.add ws b := by
  simp [Queue.push, Nat.not_lt.2 h]

theorem Queue.overwrite_unpopped {q : Queue} (hp : q.popped = 0) (hi : q.items ≠ []) :
    q.overwrite = { q.drop1 with items := q.items.tail } := by
  cases h : q.items with
  | nil => exact absurd h hi
  | cons i t => simp [Queue.overwrite, h, hp]

theorem doQueuePush_pushes {k : Nat} (h : isPopKey k = true) (ws : List W64) (p : Pkg) :
    queue (doQueuePush k ws p) k = (queue p k).push (queueCap (k % 0x1000)) (keepNewest (k % 0x1000))
      (ws.take (wordsPerItem k)) true := by
  simp [doQueuePush, h, pushQueue]

theorem doSoftwarePush_pushes {rq : Requester} {k : Nat} {p : Pkg} (h : isPopKey k = true)
    (hw : writeFate p rq (k / 0x1000) (k % 0x1000) = .accepted) (i : Item) :
    queue (doSoftwarePush rq k i p) k =
      (queue p k).push (queueCap (k % 0x1000)) false (itemWords i (wordsPerItem k)) true := by
  rw [doSoftwarePush, if_pos h, ifWrites_accepted _ hw, queue_setQueue_self]

/-! ## Pops (R110 to R113) -/

theorem Queue.pop_nil {q : Queue} (h : q.items = []) : q.pop = (BitVec.ofNat 64 q.nextSeq, q) := by
  rw [Queue.pop, h]

theorem bitOf_eq_getLsbD {w : Nat} (x : BitVec w) (n : Nat) : bitOf x n = x.getLsbD n := by
  rw [bitOf, BitVec.getLsbD, Nat.testBit_eq_decide_div_mod_eq, Nat.shiftRight_eq_div_pow]
  rfl

/-- The word that a valid pop returns at an item's first word (Table 3-2). -/
def firstWord (w : W64) : W64 := w &&& BitVec.ofNat 64 (msk 61 0) ||| BitVec.ofNat 64 (2 ^ 63 + 2 ^ 62)

theorem firstWord_fields (w : W64) :
    bitOf (firstWord w) 63 = true ∧ bitOf (firstWord w) 62 = true ∧ bitsOf (firstWord w) 61 0 = bitsOf w 61 0 := by
  have hpayload : ∀ i : Fin 62, (BitVec.ofNat 64 (msk 61 0)).getLsbD i = true ∧
      (BitVec.ofNat 64 (2 ^ 63 + 2 ^ 62)).getLsbD i = false := by decide
  have htop : (BitVec.ofNat 64 (2 ^ 63 + 2 ^ 62)).getLsbD 63 = true ∧ (BitVec.ofNat 64 (2 ^ 63 + 2 ^ 62)).getLsbD 62 = true := by
    decide
  rw [bitOf_eq_getLsbD, bitOf_eq_getLsbD, firstWord, BitVec.getLsbD_or, BitVec.getLsbD_or, htop.1, htop.2]
  refine ⟨Bool.or_true _, Bool.or_true _, bitsOf_congr fun i _ hi => ?_⟩
  obtain ⟨hmask, hflags⟩ := hpayload ⟨i, by omega⟩
  rw [BitVec.getLsbD_or, BitVec.getLsbD_and, hmask, hflags, Bool.and_true, Bool.or_false]

theorem Queue.pop_single {q : Queue} {seq : Nat} {w : W64} {t : List (Nat × List W64)} (hi : q.items = (seq, [w]) :: t)
    (hp : q.popped = 0) (hb : seq ∉ q.bad) :
    q.pop = (firstWord w, { q with items := t, popped := 0, bad := q.bad.filter (· != seq) }) := by
  simp [Queue.pop, hi, hp, Queue.words, hb, firstWord, bitNat]

theorem doQueuePop_owner {rq : Requester} {k : Nat} {p : Pkg} (hk : isPopKey k = true) (h8 : k % 8 = 0)
    (hlow : k % 0x1000 < 0x100) (hp : present p (k / 0x1000) = true) (hrq : rq.code ≠ 0)
    (ho : rq.code = owner p (k / 0x1000)) :
    doQueuePop rq k 8 p = emitMsg (setQueue p k (queue p k).pop.2) (.readData k (queue p k).pop.1) := by
  have hoff : k / 8 * 8 = k := by omega
  have hmay : ¬(rq.code = 0 ∨ rq.code ≠ owner p (k / 0x1000) ∨ 0x100 ≤ k % 0x1000 ∧ ready p (k / 0x1000) = false) := by
    rintro (h | h | ⟨h, -⟩)
    · exact hrq h
    · exact h ho
    · omega
  simp only [doQueuePop, hoff, hk, hp, Bool.and_self, if_true, ne_eq, not_true, if_false]
  exact if_neg hmay

theorem doQueuePop_narrow {rq : Requester} {k w : Nat} {p : Pkg} (hk : isPopKey k = true) (h8 : k % 8 = 0)
    (hp : present p (k / 0x1000) = true) (hw : w ≠ 8) : doQueuePop rq k w p = emitMsg p (.readData k 0) := by
  have hoff : k / 8 * 8 = k := by omega
  simp [doQueuePop, hoff, hk, hp, hw]

/-- An empty queue answers its not-valid word to any reader and stays as it is. -/
theorem doQueuePop_empty {rq : Requester} {k : Nat} {p : Pkg} (hk : isPopKey k = true) (h8 : k % 8 = 0)
    (hp : present p (k / 0x1000) = true) (he : (queue p k).items = []) (hs : (queue p k).nextSeq < 65536) :
    (doQueuePop rq k 8 p).out = .readData k (BitVec.ofNat 64 (queue p k).nextSeq) :: p.out ∧
      queue (doQueuePop rq k 8 p) k = queue p k := by
  have hoff : k / 8 * 8 = k := by omega
  simp only [doQueuePop, hoff, hk, hp, Bool.and_self, if_true, ne_eq, not_true, if_false, Queue.pop_nil he]
  split
  next => exact ⟨by rw [notValid, Nat.mod_eq_of_lt hs]; rfl, rfl⟩
  next => exact ⟨rfl, queue_setQueue_self _ _ _⟩

end Sys2Proof.Machine
end

section
/-! Spill queues (spec/03 R117 to R124): the acceptance of ENABLE, the spill write and the refill, and the proof of O11. -/

namespace Sys2Proof.Machine

@[simp] theorem spill_setSpill_self (p : Pkg) (c r : Nat) (x : Spill) : spill (setSpill p c r x) c r = x :=
  SMap.get_set_self _ _ _ _

theorem spill_congr {p q : Pkg} (h : q.spills = p.spills) (c r : Nat) : spill q c r = spill p c r := by
  unfold spill
  rw [h]

theorem OnlyLog.spills_eq {p q : Pkg} (h : OnlyLog p q) : q.spills = p.spills := by
  obtain ⟨_, _, _, _, _, rfl⟩ := h
  rfl

/-! ## The spill control register (R117, R119) -/

/-- The spill control register's word after a write. -/
def spillMerged (old v : W64) : W64 := mergeWrite (rw8 0x150 (msk 51 12 + msk 5 0)) old v

theorem spillMerged_fields (old v : W64) : bitOf (spillMerged old v) 0 = bitOf v 0 ∧
    bitsOf (spillMerged old v) 5 1 = bitsOf v 5 1 ∧ spillBase (spillMerged old v) = spillBase v := by
  have hsize : ∀ i : Fin 6, (msk 51 12 + msk 5 0).testBit i = true := by decide
  have hbase : ∀ i : Fin 52, 12 ≤ i.val → (msk 51 12 + msk 5 0).testBit i = true := by decide
  refine ⟨bitOf_mergeWrite old v (by decide) rfl (hsize 0), ?_, ?_⟩
  · exact bitsOf_mergeWrite old v (by decide) rfl fun i _ hi => hsize ⟨i, by omega⟩
  · exact congrArg (· * 4096) (bitsOf_mergeWrite old v (by decide) rfl fun i hlo hi => hbase ⟨i, by omega⟩ hlo)

/-- The conditions of R119 for a write that sets ENABLE. -/
def SpillOk (p : Pkg) (c r : Nat) (v : W64) : Prop :=
  6 ≤ bitsOf v 5 1 ∧ bitsOf v 5 1 ≤ 20 ∧ hbmOrScratch p (spillBase v) (64 * spillSize v) = true ∧ (spill p c r).depth ≤ 32

theorem putSpillControl_enables {p : Pkg} {c r : Nat} {v : W64} (hold : bit p (spillKey c r) 0 = false)
    (hv : bitOf v 0 = true) :
    (SpillOk p c r v → putSpillControl c r v p = setReg p (spillKey c r) (spillMerged (reg p (spillKey c r)) v)) ∧
    (¬ SpillOk p c r v → putSpillControl c r v p = p) := by
  obtain ⟨hen, hsize, hbase⟩ := spillMerged_fields (reg p (spillKey c r)) v
  generalize hnew : spillMerged (reg p (spillKey c r)) v = new at *
  have hput : putSpillControl c r v p =
      if bitOf new 0 then
        if decide (6 ≤ bitsOf new 5 1) && decide (bitsOf new 5 1 ≤ 20) &&
            hbmOrScratch p (spillBase new) (64 * spillSize new) && decide ((spill p c r).depth ≤ 32)
        then setReg p (spillKey c r) new else p
      else setReg p (spillKey c r) new := by
    subst hnew
    exact if_neg (ne_true_of_eq_false hold)
  have hok : (decide (6 ≤ bitsOf v 5 1) && decide (bitsOf v 5 1 ≤ 20) && hbmOrScratch p (spillBase v) (64 * spillSize v) &&
      decide ((spill p c r).depth ≤ 32)) = true ↔ SpillOk p c r v := by
    simp [SpillOk, and_assoc]
  rw [hput, hen, hv, if_pos rfl, spillSize, hsize, hbase, ← spillSize]
  exact ⟨fun h => if_pos (hok.2 h), fun h => if_neg fun h' => h (hok.1 h')⟩

theorem doSpillControlWrite_accepted {rq : Requester} {c r : Nat} {p : Pkg} (hc : c < 16) (hr : r < 64) (v : W64)
    (hw : writeFate p rq (pgQm + 1 + c) (0x150 + 48 * r) = .accepted) :
    doSpillControlWrite rq c r v p = putSpillControl c r v p :=
  (if_pos ⟨hc, hr⟩).trans (ifWrites_accepted _ hw)

/-! ## Slots that the memory serves (R35, R65) -/

theorem slotsWait_served {p : Pkg} {w : W64} {at' n : Nat}
    (h : ∀ i, i < n → fateLine p (spillSlot w (at' + i)) = .served) : slotsWait p w at' n = false := by
  simpa [slotsWait] using fun i hi => by rw [h i hi]; decide

theorem slotErrors_served {p : Pkg} {w : W64} {at' n : Nat}
    (h : ∀ i, i < n → fateLine p (spillSlot w (at' + i)) = .served) : slotErrors p w at' n = p := by
  have hnone : ((List.range n).map (fun i => spillSlot w (at' + i))).find? (fun a => fateLine p a == .decode) = none := by
    rw [List.find?_eq_none]
    intro a ha
    obtain ⟨i, hi, rfl⟩ := List.mem_map.1 ha
    rw [h i (List.mem_range.1 hi)]
    decide
  rw [slotErrors, hnone]

/-! ## The spill write (R122) -/

/-- The oldest tail items go to the slots after the last one written. -/
theorem execSpillWrite_writes {s : State} {c r n : Nat} {w : W64} {x : Spill} (hw : w = reg s.pkg (spillKey c r))
    (hx : x = spill s.pkg c r) (hn : spillCount w x = n) (hpos : n ≠ 0)
    (h : ∀ i, i < n → fateLine s.pkg (spillSlot w (x.regionWr + i)) = .served) :
    ∃ f, execSpillWrite c r s = .next { s with
      mem := storeSlots s.pkg s.mem w x.regionWr (x.tail.take n)
      pkg := setSpill s.pkg c r { x with tail := x.tail.drop n, regionWr := x.regionWr + n, firstSeq := f } } := by
  have hgo : ¬(n = 0 ∨ slotsWait s.pkg w x.regionWr n = true) := by simp [hpos, slotsWait_served h]
  unfold execSpillWrite
  dsimp only
  rw [← hw, ← hx, hn, if_neg hgo, slotErrors_served h]
  exact ⟨_, rfl⟩

/-! ## The refill (R122, R124) -/

theorem Spill.settle_no_tail {x : Spill} (h : x.tail = []) : x.settle = x := by
  obtain ⟨head, tail, rd, wr, first, next, dropped⟩ := x
  obtain rfl : tail = [] := h
  simp [Spill.settle]

/-- The queue after its region's oldest slot has been read, before an item joins the head. -/
def Spill.slotRead (x : Spill) : Spill := { x with regionRd := x.regionRd + 1, firstSeq := (x.firstSeq + 1) % 65536 }

theorem refillOne_good {p : Pkg} {c r : Nat} {w : W64} {m : Memory} {x : Spill} (hx : spill p c r = x)
    (hs : fateLine p (spillSlot w x.regionRd) = .served) (hp : m.poisoned (spillSlot w x.regionRd) 64 = false) :
    refillOne c r w m p =
      setSpill p c r { x.slotRead with head := x.head ++ [(x.firstSeq, m.line (spillSlot w x.regionRd))] } := by
  simp [refillOne, hx, hs, hp, Spill.slotRead]

theorem spill_refillOne_poisoned {p : Pkg} {c r : Nat} {w : W64} {m : Memory} {x : Spill} (hx : spill p c r = x)
    (hs : fateLine p (spillSlot w x.regionRd) = .served) (hp : m.poisoned (spillSlot w x.regionRd) 64 = true) :
    spill (refillOne c r w m p) c r = x.slotRead := by
  have hone : refillOne c r w m p = logErr (setSpill p c r x.slotRead) pgQm
      ⟨0x80, 0, 1, spillSlot w x.regionRd, x.firstSeq⟩ := by
    simp [refillOne, hx, hs, hp, Spill.slotRead]
  rw [hone, spill_congr (logErr_only _ _ _).spills_eq, spill_setSpill_self]

theorem noteHead_spills (p : Pkg) (c r : Nat) : (noteHead p c r).spills = p.spills := by
  unfold noteHead
  split
  next => exact ite_keeps Pkg.spills rfl rfl
  next => rfl

/-- The head of the pending queue stays where its command waits. -/
theorem settlePending_waiting {p : Pkg} {c r id : Nat} (k : Nat) (hid : ringNext p c r = some id)
    (hh : hasCmd p id = true) (hw : (cmd p id).phase = .waiting) (hq : (cmd p id).requeued = false) :
    settlePending p c r (k + 1) = noteHead p c r := by
  simp [settlePending, hid, hh, hw, hq]

theorem settlePending_empty {p : Pkg} {c r : Nat} (k : Nat) (hid : ringNext p c r = none) :
    settlePending p c r (k + 1) = p := by
  simp [settlePending, hid]

section OneItemInTheRegion

variable {p : Pkg} {c r : Nat} {w : W64} {x : Spill} {m : Memory} (hw : w = reg p (spillKey c r)) (hx : x = spill p c r)
  (hh : x.head = []) (hr : x.inRegion = 1) (hs : fateLine p (spillSlot w x.regionRd) = .served)

include hw hx hh hr hs

/-- A refill of a region of one item that the memory serves reads that slot. -/
theorem doSpillRefill_one : doSpillRefill c r m p = settlePending
    (setSpill (refillOne c r w m p) c r (spill (refillOne c r w m p) c r).settle) c r 64 := by
  have hwait : slotsWait p w x.regionRd 1 = false := slotsWait_served fun i hi => by
    rwa [Nat.lt_one_iff.1 hi]
  unfold doSpillRefill
  dsimp only
  rw [← hw, ← hx, hr, Nat.min_eq_right (by decide : 1 ≤ 8)]
  exact if_pos ⟨by simp [hh], by decide, hwait⟩

variable (ht : x.tail = [])

include ht

/-- The item of a good slot comes to the head and stays there while its command waits. -/
theorem spill_doSpillRefill_good {id : Nat} (hp : m.poisoned (spillSlot w x.regionRd) 64 = false)
    (hid : id = itemCmd p c r (m.line (spillSlot w x.regionRd))) (hcmd : hasCmd p id = true)
    (hph : (cmd p id).phase = .waiting) (hrq : (cmd p id).requeued = false) :
    spill (doSpillRefill c r m p) c r =
      { x.slotRead with head := [(x.firstSeq, m.line (spillSlot w x.regionRd))] } := by
  have hsettle : ({ x.slotRead with head := [(x.firstSeq, m.line (spillSlot w x.regionRd))] } : Spill).settle = _ :=
    Spill.settle_no_tail ht
  rw [doSpillRefill_one hw hx hh hr hs, refillOne_good hx.symm hs hp, hh, List.nil_append, spill_setSpill_self, hsettle]
  generalize hy : ({ x.slotRead with head := [(x.firstSeq, m.line (spillSlot w x.regionRd))] } : Spill) = y
  have hnext : ringNext (setSpill (setSpill p c r y) c r y) c r = some id := by
    rw [ringNext, spill_setSpill_self, ← hy, hid]
    rfl
  rw [settlePending_waiting 63 hnext hcmd hph hrq, spill_congr (noteHead_spills _ _ _), spill_setSpill_self]

/-- The item of a poisoned slot is discarded. -/
theorem spill_doSpillRefill_poisoned (hp : m.poisoned (spillSlot w x.regionRd) 64 = true) :
    spill (doSpillRefill c r m p) c r = x.slotRead := by
  have hsettle : x.slotRead.settle = x.slotRead := Spill.settle_no_tail ht
  have hnext (q : Pkg) : ringNext (setSpill q c r x.slotRead) c r = none := by
    rw [ringNext, spill_setSpill_self, Spill.slotRead, hh]
    rfl
  rw [doSpillRefill_one hw hx hh hr hs, spill_refillOne_poisoned hx.symm hs hp, hsettle, settlePending_empty 63 (hnext _),
    spill_setSpill_self]

end OneItemInTheRegion

theorem Spill.inRegion_slotRead {x : Spill} (h : x.inRegion = 1) : x.slotRead.inRegion = 0 := by
  simp only [Spill.inRegion, Spill.slotRead] at h ⊢
  omega

end Sys2Proof.Machine
end

section
/-! O11, clause by clause. -/

namespace Sys2Proof.Machine

theorem queueArbitration_popsFirst {s : State} {k : Nat} (port : Nat) (i : Item) (hk : isPopKey k = true)
    (he : (queue s.pkg k).items = []) : ∃ t, exec (.queueArbitration k true [(port, i)]) s = .next t ∧ t.mem = s.mem ∧
      t.pkg.out = .readData k (BitVec.ofNat 64 (queue s.pkg k).nextSeq) :: s.pkg.out ∧
      (queue t.pkg k).items.map (·.1) = [(queue s.pkg k).nextSeq] := by
  have hdo : doQueueArbitration k true [(port, i)] s.pkg = pushQueue _ k (itemWords i (wordsPerItem k)) true :=
    doQueueArbitration_pops hk _ _
  refine ⟨s.onPkg (doQueueArbitration k true [(port, i)]), rfl, rfl, ?_⟩
  rw [State.onPkg_pkg, hdo, Queue.pop_nil he]
  refine ⟨rfl, ?_⟩
  rw [pushQueue, queue_setQueue_self, queue_emitMsg, queue_setQueue_self,
    Queue.push_room (by rw [he]; exact queueCap_pos _), Queue.add_items, he]
  rfl

theorem queuePush_byPolicy {s : State} {k : Nat} {q : Queue} (ws : List W64) (hk : isPopKey k = true)
    (hq : q = queue s.pkg k) :
    (q.items.length < queueCap (k % 0x1000) → ∃ t, exec (.queuePush k ws) s = .next t ∧ t.mem = s.mem ∧
      (queue t.pkg k).items.map (·.1) = q.items.map (·.1) ++ [q.nextSeq] ∧ (queue t.pkg k).nextSeq = (q.nextSeq + 1) % 65536) ∧
    (queueCap (k % 0x1000) ≤ q.items.length → keepNewest (k % 0x1000) = false → ∃ t, exec (.queuePush k ws) s = .next t ∧
      t.mem = s.mem ∧ (queue t.pkg k).items = q.items ∧ (queue t.pkg k).dropped = min 65535 (q.dropped + 1)) ∧
    (queueCap (k % 0x1000) ≤ q.items.length → keepNewest (k % 0x1000) = true → q.popped = 0 →
      ∃ t, exec (.queuePush k ws) s = .next t ∧ t.mem = s.mem ∧
        (queue t.pkg k).items.map (·.1) = (q.items.map (·.1)).tail ++ [q.nextSeq] ∧
        (queue t.pkg k).dropped = min 65535 (q.dropped + 1)) := by
  have hpush := doQueuePush_pushes hk ws s.pkg
  rw [← hq] at hpush
  refine ⟨fun hroom => ⟨_, rfl, rfl, ?_⟩, fun hfull hold => ⟨_, rfl, rfl, ?_⟩, fun hfull hnew hp => ⟨_, rfl, rfl, ?_⟩⟩
  · rw [State.onPkg_pkg, hpush, Queue.push_room hroom]
    exact ⟨Queue.add_items _ _ _, rfl⟩
  · rw [State.onPkg_pkg, hpush, hold, Queue.push_oldest hfull]
    exact ⟨rfl, rfl⟩
  · have hne : q.items ≠ [] := List.length_pos_iff.1 ((queueCap_pos _).trans_le hfull)
    rw [State.onPkg_pkg, hpush, hnew, Queue.push_newest hfull, Queue.add_items, Queue.overwrite_unpopped hp hne, List.map_tail]
    exact ⟨rfl, rfl⟩

theorem softwarePush_landsOrDrops {s : State} {rq : Requester} {k : Nat} (i : Item) (hk : isPopKey k = true)
    (hw : writeFate s.pkg rq (k / 0x1000) (k % 0x1000) = .accepted) :
    (queueCap (k % 0x1000) ≤ (queue s.pkg k).items.length → ∃ t, exec (.softwarePush rq k i) s = .next t ∧
      (queue t.pkg k).items = (queue s.pkg k).items ∧
      (queue t.pkg k).dropped = min 65535 ((queue s.pkg k).dropped + 1)) ∧
    ((queue s.pkg k).items.length < queueCap (k % 0x1000) → ∃ t, exec (.softwarePush rq k i) s = .next t ∧
      (queue t.pkg k).items.map (·.1) = (queue s.pkg k).items.map (·.1) ++ [(queue s.pkg k).nextSeq] ∧
      (queue t.pkg k).nextSeq = ((queue s.pkg k).nextSeq + 1) % 65536) := by
  have hpush := doSoftwarePush_pushes hk hw i
  refine ⟨fun hfull => ⟨_, rfl, ?_⟩, fun hroom => ⟨_, rfl, ?_⟩⟩
  · rw [State.onPkg_pkg, hpush, Queue.push_oldest hfull]
    exact ⟨rfl, rfl⟩
  · rw [State.onPkg_pkg, hpush, Queue.push_room hroom]
    exact ⟨Queue.add_items _ _ _, rfl⟩

theorem spillControlWrite_enables {s : State} {rq : Requester} {c r : Nat} {v : W64} (hc : c < 16) (hr : r < 64)
    (hw : writeFate s.pkg rq (pgQm + 1 + c) (0x150 + 48 * r) = .accepted) (hold : bit s.pkg (spillKey c r) 0 = false)
    (hv : bitOf v 0 = true) :
    (bitsOf v 5 1 < 6 ∨ 20 < bitsOf v 5 1 ∨ hbmOrScratch s.pkg (spillBase v) (64 * spillSize v) = false →
      exec (.spillControlWrite rq c r v) s = .next s) ∧
    (6 ≤ bitsOf v 5 1 → bitsOf v 5 1 ≤ 20 → hbmOrScratch s.pkg (spillBase v) (64 * spillSize v) = true →
      (spill s.pkg c r).depth ≤ 32 → ∃ t, exec (.spillControlWrite rq c r v) s = .next t ∧ t.mem = s.mem ∧
        bit t.pkg (spillKey c r) 0 = true ∧ spillBase (reg t.pkg (spillKey c r)) = spillBase v ∧
        spillSize (reg t.pkg (spillKey c r)) = spillSize v) := by
  have hdo := doSpillControlWrite_accepted hc hr v hw
  obtain ⟨htakes, hrefuses⟩ := putSpillControl_enables hold hv
  refine ⟨fun hbad => ?_, fun hlo hhi hmem hdepth => ⟨_, rfl, rfl, ?_⟩⟩
  · refine congrArg Host.Outcome.next (State.onPkg_eq_self (hdo.trans (hrefuses ?_)))
    rintro ⟨hlo, hhi, hmem, -⟩
    rcases hbad with h | h | h
    · omega
    · omega
    · simp [h] at hmem
  · obtain ⟨hen, hsize, hbase⟩ := spillMerged_fields (reg s.pkg (spillKey c r)) v
    rw [State.onPkg_pkg, hdo, htakes ⟨hlo, hhi, hmem, hdepth⟩, bit, reg_setReg_self]
    exact ⟨hen.trans hv, hbase, congrArg (2 ^ ·) hsize⟩

/-- Settles O11: each clause is what the path's or the queue's operation does, as stated above. -/
theorem queuesPopPushDropAndSpill : Obligations.QueuesPopPushDropAndSpill := by
  unfold Obligations.QueuesPopPushDropAndSpill
  refine ⟨⟨?popThenPush, ?inOrder, ?noCredit, fun s k port i => queueArbitration_popsFirst port i, ?owner, ?word, ?narrow,
    ?empty, fun s rq k i => softwarePush_landsOrDrops i, fun s k ws q => queuePush_byPolicy ws⟩,
    fun s rq c r v => spillControlWrite_enables, ?spillWrite, ?refill⟩
  case popThenPush =>
    rintro s n port i _ hn rfl hi hu hd hc
    have hpath : path (doQueueArbitration n true [(port, i)] s.pkg) n = (path s.pkg n).landed i := by
      rw [path_doQueueArbitration hn, cond_true, Path.remove_nil hi, sortPushes_one, List.foldl_cons, List.foldl_nil]
      exact Path.land_lands i hc (by simpa [hi, hu] using hd)
    refine ⟨_, rfl, rfl, ?_⟩
    rw [State.onPkg_pkg, hpath]
    exact ⟨Path.landed_alone i hi, rfl, rfl⟩
  case inOrder =>
    rintro s n a b i j _ hn rfl hab hc hroom
    have hpath : path (doQueueArbitration n false [(b, j), (a, i)] s.pkg) n = ((path s.pkg n).landed i).landed j := by
      rw [path_doQueueArbitration hn, sortPushes_two i j hab, cond_false, List.foldl_cons, List.foldl_cons, List.foldl_nil]
      exact Path.land_land i j hc hroom
    refine ⟨_, rfl, rfl, ?_⟩
    rw [State.onPkg_pkg, hpath]
    exact Path.landed_two _ i j
  case noCredit =>
    intro s n l hn hc
    refine ⟨_, rfl, ?_⟩
    rw [State.onPkg_pkg, path_doQueueArbitration hn, cond_false, Path.foldl_land_waits hc]
  case owner =>
    intro s rq k hk h8 hlow hp hrq ho
    exact congrArg (fun p => Host.Outcome.next { s with pkg := p }) (doQueuePop_owner hk h8 hlow hp hrq ho)
  case word =>
    intro q seq w t hi hp hb
    rw [Queue.pop_single hi hp hb]
    obtain ⟨hvalid, hfirst, hpayload⟩ := firstWord_fields w
    exact ⟨hvalid, hfirst, hpayload, rfl⟩
  case narrow =>
    intro s rq k w hk h8 hp hw
    refine ⟨_, rfl, ?_⟩
    rw [State.onPkg_pkg, doQueuePop_narrow hk h8 hp hw]
    exact ⟨rfl, rfl⟩
  case empty =>
    exact fun s rq k hk h8 hp he hs => ⟨_, rfl, doQueuePop_empty hk h8 hp he hs⟩
  case spillWrite =>
    intro s c r w x hw hx hen htail hhead hreg hsize hserved
    have hcount : spillCount w x = 8 := by simp [spillCount, hen, htail, hhead, hreg, hsize]
    obtain ⟨f, hf⟩ := execSpillWrite_writes hw hx hcount (by decide) hserved
    refine ⟨_, hf, ?_⟩
    rw [spill_setSpill_self]
    exact ⟨rfl, rfl, rfl, rfl⟩
  case refill =>
    intro s c r id w x hw hx hh hr ht hs
    refine ⟨fun hp hid hcmd hph hrq => ⟨_, rfl, rfl, ?_⟩, fun hp => ⟨_, rfl, rfl, ?_⟩⟩
    · rw [State.onPkg_pkg, spill_doSpillRefill_good hw hx hh hr hs ht hp hid hcmd hph hrq]
      exact ⟨Spill.inRegion_slotRead hr, rfl⟩
    · rw [State.onPkg_pkg, spill_doSpillRefill_poisoned hw hx hh hr hs ht hp]
      exact ⟨Spill.inRegion_slotRead hr, hh, rfl⟩

end Sys2Proof.Machine
end

section
/-! Rules for the state of a page (spec/04 R128, R141 to R143, R150): what READY, OWNER, an interrupt and a logged foreign
access leave of PAGE_STATE and of the registers beside it. -/

namespace Sys2Proof.Machine

/-! ## Offsets within a page -/

theorem key_ne {x y : Nat} (a b : Nat) (hx : x < 0x1000) (hy : y < 0x1000) (h : x ≠ y) : key a x ≠ key b y := by
  unfold key
  omega

theorem key_ne_page {a b x y : Nat} (hx : x < 0x1000) (hy : y < 0x1000) (h : a ≠ b) : key a x ≠ key b y := by
  unfold key
  omega

theorem key_mod {pg off : Nat} (h : off < 0x1000) : key pg off % 0x1000 = off := by
  unfold key
  omega

theorem key_div {pg off : Nat} (h : off < 0x1000) : key pg off / 0x1000 = pg := by
  unfold key
  omega

/-- An interrupt writes INT_PENDING and INT_ENABLE alone. -/
theorem raise_reg_off (p : Pkg) (pg : Nat) (bits : W64) (pg' : Nat) {off : Nat} (ho : off < 0x1000) (h : off ∉ [0x20, 0x24]) :
    reg (raise p pg bits) (key pg' off) = reg p (key pg' off) := by
  simp only [List.mem_cons, List.not_mem_nil, or_false, not_or] at h
  exact raise_reg _ _ _ (key_ne _ _ ho (by decide) h.1) (key_ne _ _ ho (by decide) h.2)

/-! ## READY -/

theorem setReady_reg_off (p : Pkg) (pg : Nat) (b : Bool) (pg' : Nat) {off : Nat} (ho : off < 0x1000)
    (h : off ∉ [8, 0x20, 0x24]) : reg (setReady p pg b) (key pg' off) = reg p (key pg' off) := by
  simp only [List.mem_cons, List.not_mem_nil, or_false, not_or] at h
  obtain ⟨h8, h20, h24⟩ := h
  exact setReady_reg _ _ _ (key_ne _ _ ho (by decide) h8) (key_ne _ _ ho (by decide) h20) (key_ne _ _ ho (by decide) h24)
    (key_ne _ _ ho (by decide) h20) (key_ne _ _ ho (by decide) h24)

/-- A change of READY writes bit 0 of its block's PAGE_STATE and no other PAGE_STATE. -/
theorem setReady_reg_state {p : Pkg} {pg : Nat} {b : Bool} (h : ready p pg ≠ b) (pg' : Nat) :
    reg (setReady p pg b) (key pg' 8) = reg (setBit p (key (firstPage pg) 8) 0 b) (key pg' 8) := by
  rw [setReady, if_neg h]
  dsimp only
  split
  · rw [raiseBlock, raise_reg_off _ _ _ _ (by decide) (by decide), waypoint_reg,
      raise_reg_off _ _ _ _ (by decide) (by decide)]
  · rw [waypoint_reg, raise_reg_off _ _ _ _ (by decide) (by decide)]

/-- The fields of PAGE_STATE above READY stay with a change of READY. -/
theorem fld_setReady_state (p : Pkg) (pg : Nat) (b : Bool) (pg' : Nat) {hi lo : Nat} (hlo : 1 ≤ lo) (hl : lo ≤ hi) :
    fld (setReady p pg b) (key pg' 8) hi lo = fld p (key pg' 8) hi lo := by
  by_cases h : ready p pg = b
  · rw [setReady, if_pos h]
  · rw [fld_congr (setReady_reg_state h pg'), setBit]
    by_cases hk : key pg' 8 = key (firstPage pg) 8
    · rw [hk, fld_setFld_beside _ _ _ _ _ _ _ (by decide) (by decide) hl (by omega)]
    · exact fld_setFld_ne _ _ _ _ _ _ hk

theorem bit_eq_fld (p : Pkg) (k n : Nat) : bit p k n = (fld p k n n == 1) := bitOf_eq_bitsOf _ _

/-! ## OWNER -/

theorem owner_setOwner (p : Pkg) (pg : Nat) {o : Nat} (h : o < 16) : owner (setOwner p pg o) pg = o := by
  unfold setOwner
  dsimp only
  split
  · assumption
  · rw [owner, fld_congr (waypoint_reg _ _ _ _ _ _), fld_congr (raise_reg_off _ _ _ _ (by decide) (by decide)),
      fld_setFld_self _ _ _ _ _ (by decide) (by decide)]
    exact Nat.mod_eq_of_lt h

theorem requester_code_lt (rq : Requester) : rq.code < 16 := by
  cases rq <;> decide

/-! ## Foreign accesses -/

/-- A foreign access writes ERR_SUMMARY, the interrupt registers and the counting window of its block alone. -/
theorem logForeign_reg (p : Pkg) (rq : Requester) (pg o pg' : Nat) {off : Nat} (ho : off < 0x1000)
    (h : off ∉ [0x10, 0x20, 0x24, 0x2C]) : reg (logForeign p rq pg o) (key pg' off) = reg p (key pg' off) := by
  simp only [List.mem_cons, List.not_mem_nil, or_false, not_or] at h
  obtain ⟨h10, h20, h24, h2C⟩ := h
  have hsum : key pg' off ≠ key (firstPage pg) 0x10 := key_ne _ _ ho (by decide) h10
  have hcount : reg (bumpFld p (key (firstPage pg) 0x10) 23 16) (key pg' off) = reg p (key pg' off) :=
    reg_setFld_ne _ _ _ _ hsum
  unfold logForeign
  dsimp only
  split
  · exact hcount
  · split
    · rw [waypoint_reg, setBit, reg_setFld_ne _ _ _ _ hsum, pushRecord_reg _ _ _ _ hsum, setBit,
        reg_setFld_ne _ _ _ _ hsum, hcount]
    · rw [logErr_reg _ _ _ hsum (key_ne _ _ ho (by decide) h20) (key_ne _ _ ho (by decide) h24)
        (key_ne _ _ ho (by decide) h2C), setBit, reg_setFld_ne _ _ _ _ hsum, hcount]

theorem owner_logForeign (p : Pkg) (rq : Requester) (pg o pg' : Nat) : owner (logForeign p rq pg o) pg' = owner p pg' :=
  fld_congr (logForeign_reg p rq pg o pg' (by decide) (by decide)) _ _

end Sys2Proof.Machine
end

section
/-! Ownership of pages (spec/04 R150, R151): what a write of PAGE_CONTROL with CLAIM, RELEASE or HANDOVER leaves, and the
proof of O13. -/

namespace Sys2Proof.Machine

section
variable {p : Pkg} {rq : Requester} {pg : Nat} {v : W64}

/-! ## CLAIM (R150) -/

theorem putPageControl_claims (hp : present p pg = true) (h3 : bitOf v 3 = true) (hne : rq.code ≠ owner p pg)
    (hmay : rq.code = 1 ∨ (owner p pg = 0 ∧ (rq.code = 2 ∨ rq.code = 3))) :
    putPageControl rq pg v p = setOwner p pg rq.code := by
  rw [putPageControl, if_neg (by simp [hp]), if_pos ⟨h3, .inr hne⟩, if_pos hmay]

theorem putPageControl_claim_refused (hp : present p pg = true) (h3 : bitOf v 3 = true) (hne : rq.code ≠ owner p pg)
    (h1 : rq.code ≠ 1) (hown : owner p pg ≠ 0 ∨ rq.code = 0) : putPageControl rq pg v p = logForeign p rq pg 0xC := by
  rw [putPageControl, if_neg (by simp [hp]), if_pos ⟨h3, .inr hne⟩, if_neg (by omega)]

/-! ## RELEASE and HANDOVER (R151) -/

theorem putPageControl_givesUp (hp : present p pg = true) (h3 : bitOf v 3 = false)
    (hgive : bitOf v 4 = true ∨ bitsOf v 11 8 ≠ 0) : putPageControl rq pg v p = giveUpPage p rq pg v := by
  rw [putPageControl, if_neg (by simp [hp]), if_neg (by simp [h3]), if_pos hgive]

/-- The owner or the surveyor gives the page to the party that HANDOVER names, or to nobody with RELEASE. -/
theorem owner_giveUpPage {h : Nat} (hv : bitsOf v 11 8 = h) (h4 : bitOf v 4 = true → h = 0) (hlt : h < 4)
    (hhost : h = 3 → p.standalone = false) (h0 : rq.code ≠ 0) (hmay : rq.code = owner p pg ∨ rq.code = 1) :
    owner (giveUpPage p rq pg v) pg = h := by
  have hok : ¬ ((bitOf v 4 = true ∧ h ≠ 0) ∨ 4 ≤ h ∨ (h = 3 ∧ p.standalone = true)) := by
    rintro (⟨hrel, hne⟩ | hge | ⟨heq, hs⟩)
    · exact hne (h4 hrel)
    · omega
    · simp [hhost heq] at hs
  subst hv
  rw [giveUpPage, if_neg (by omega), if_neg hok]
  exact owner_setOwner _ _ (by omega)

theorem giveUpPage_foreign (h1 : rq.code ≠ 1) (hno : rq.code = 0 ∨ rq.code ≠ owner p pg) :
    giveUpPage p rq pg v = logForeign p rq pg 0xC := by
  rw [giveUpPage]
  exact if_pos ⟨h1, hno⟩

end

/-! ## O13 -/

/-- Settles O13: a CLAIM is taken or logged as foreign; RELEASE and HANDOVER give the page to the party named or are logged. -/
theorem pagesAreClaimedReleasedAndHandedOver : Obligations.PagesAreClaimedReleasedAndHandedOver := by
  unfold Obligations.PagesAreClaimedReleasedAndHandedOver
  refine ⟨?claim, ?refused, ?release, ?handover, ?foreign⟩
  case claim =>
    intro s rq pg v hp h3 hne hmay
    refine ⟨_, rfl, ?_, rfl⟩
    rw [State.onPkg_pkg, putPageControl_claims hp h3 hne hmay]
    exact owner_setOwner _ _ (requester_code_lt rq)
  case refused =>
    intro s rq pg v hp h3 hne h1 hown
    refine ⟨_, rfl, ?_, rfl⟩
    rw [State.onPkg_pkg, putPageControl_claim_refused hp h3 hne h1 hown]
    exact owner_logForeign _ _ _ _ _
  case release =>
    intro s rq pg v hp h3 h4 hv h0 hmay
    refine ⟨_, rfl, ?_, rfl⟩
    rw [State.onPkg_pkg, putPageControl_givesUp hp h3 (.inl h4)]
    exact owner_giveUpPage hv (fun _ => rfl) (by decide) (by simp) h0 hmay
  case handover =>
    intro s rq pg h v hp h3 h4 hv hpos hlt hhost h0 hmay
    refine ⟨_, rfl, ?_, rfl⟩
    rw [State.onPkg_pkg, putPageControl_givesUp hp h3 (.inr (by omega))]
    exact owner_giveUpPage hv (by simp [h4]) hlt hhost h0 hmay
  case foreign =>
    intro s rq pg v hp h3 hgive h1 hno
    have howner : owner (putPageControl rq pg (v.setWidth 64) s.pkg) pg = owner s.pkg pg := by
      rw [putPageControl_givesUp hp h3 hgive, giveUpPage_foreign h1 hno, owner_logForeign]
    exact ⟨⟨_, rfl, howner⟩, ⟨_, rfl, howner⟩⟩

end Sys2Proof.Machine
end

section
/-! A page's READY with the work and ENABLE of its block (spec/04 R141, R144, R146): what `drained`, `becomeReady` and the
bits of PAGE_CONTROL leave. -/

namespace Sys2Proof.Machine

/-! ## Bits of a field -/

/-- A bit of a word is the bit of each field that holds it. -/
theorem bitOf_eq_testBit {w n hi lo : Nat} (x : BitVec w) (hlo : lo ≤ n) (hhi : n ≤ hi) :
    bitOf x n = (bitsOf x hi lo).testBit (n - lo) := by
  rw [bitOf_eq_getLsbD, BitVec.getLsbD, bitsOf, Nat.testBit_mod_two_pow, Nat.testBit_shiftRight, Nat.add_sub_cancel' hlo,
    decide_eq_true (by omega), Bool.true_and]

theorem bit_eq_testBit (p : Pkg) {k n hi lo : Nat} (hlo : lo ≤ n) (hhi : n ≤ hi) :
    bit p k n = (fld p k hi lo).testBit (n - lo) := bitOf_eq_testBit _ hlo hhi

/-! ## A change of READY -/

/-- From p to q nothing of the registers changes but READY of blocks and the interrupt registers. -/
structure ReadyOnly (p q : Pkg) : Prop where
  reg : ∀ pg off, off < 0x1000 → off ∉ [8, 0x20, 0x24] → reg q (key pg off) = reg p (key pg off)
  state : ∀ pg hi lo, 1 ≤ lo → lo ≤ hi → fld q (key pg 8) hi lo = fld p (key pg 8) hi lo

theorem readyOnly_of_reg {p q : Pkg} (h : ∀ k, reg q k = reg p k) : ReadyOnly p q :=
  ⟨fun _ _ _ _ => h _, fun _ _ _ _ _ => fld_congr (h _) _ _⟩

theorem ReadyOnly.refl (p : Pkg) : ReadyOnly p p := readyOnly_of_reg fun _ => rfl

theorem ReadyOnly.trans {p q r : Pkg} (h : ReadyOnly p q) (g : ReadyOnly q r) : ReadyOnly p r :=
  ⟨fun pg off ho hn => (g.reg pg off ho hn).trans (h.reg pg off ho hn),
    fun pg hi lo h1 hl => (g.state pg hi lo h1 hl).trans (h.state pg hi lo h1 hl)⟩

theorem reg_withDisabled (p : Pkg) (d : SMap Bool) (k : Nat) : reg { p with disabled := d } k = reg p k :=
  reg_congr rfl rfl rfl k

theorem setReady_readyOnly (p : Pkg) (pg : Nat) (b : Bool) : ReadyOnly p (setReady p pg b) :=
  ⟨fun pg' _ ho h => setReady_reg_off p pg b pg' ho h, fun pg' _ _ h1 hl => fld_setReady_state p pg b pg' h1 hl⟩

theorem drained_readyOnly (p : Pkg) (pg : Nat) : ReadyOnly p (drained p pg) := by
  unfold drained
  split
  · exact .refl p
  · exact (setReady_readyOnly p pg false).trans (readyOnly_of_reg (reg_withDisabled _ _))

theorem becomeReady_readyOnly (p : Pkg) (pg : Nat) : ReadyOnly p (becomeReady p pg) := by
  unfold becomeReady
  split
  · exact readyOnly_of_reg (reg_withDisabled p _)
  · split
    · exact readyOnly_of_reg (reg_withPwr p _)
    · exact setReady_readyOnly _ _ _

theorem putEnable_readyOnly (p : Pkg) (pg : Nat) (was : Bool) : ReadyOnly p (putEnable p pg was) := by
  unfold putEnable
  split
  · exact drained_readyOnly p pg
  · split
    · dsimp only
      split
      · exact readyOnly_of_reg (reg_withDisabled p _)
      · exact (readyOnly_of_reg (reg_withDisabled p _)).trans (becomeReady_readyOnly _ pg)
    · exact .refl p

section
variable {p q : Pkg}

theorem ReadyOnly.bit_control (h : ReadyOnly p q) (pg n : Nat) : bit q (key pg 0xC) n = bit p (key pg 0xC) n :=
  bit_congr (h.reg pg 0xC (by decide) (by decide)) n

theorem ReadyOnly.bit_state (h : ReadyOnly p q) (pg : Nat) {n : Nat} (hn : 1 ≤ n) :
    bit q (key pg 8) n = bit p (key pg 8) n := by
  rw [bit_eq_fld, bit_eq_fld, h.state pg n n hn (Nat.le_refl n)]

theorem ReadyOnly.owner_eq (h : ReadyOnly p q) (pg : Nat) : owner q pg = owner p pg :=
  h.state pg 11 8 (by decide) (by decide)

theorem ReadyOnly.enabled_eq (h : ReadyOnly p q) (pg : Nat) : enabled q pg = enabled p pg := h.bit_control _ 0

theorem ReadyOnly.quiesced_eq (h : ReadyOnly p q) (pg : Nat) : quiesced q pg = quiesced p pg := h.bit_control _ 1

theorem ReadyOnly.surveying_eq (h : ReadyOnly p q) (pg : Nat) : surveying q pg = surveying p pg :=
  h.bit_state _ (by decide)

theorem ReadyOnly.busyBit_eq (h : ReadyOnly p q) (pg : Nat) : busyBit q pg = busyBit p pg := h.bit_state _ (by decide)

/-- Safe hold and QUIESCED show in two status registers. -/
theorem heldDown_congr (hpwr : reg q pwrStatus = reg p pwrStatus) (hseq : reg q svSeq = reg p svSeq) (pg : Nat) :
    heldDown q pg = heldDown p pg := by
  have h1 : fld q (key pgPwr 0x100) 31 28 = fld p (key pgPwr 0x100) 31 28 := fld_congr hpwr 31 28
  have h2 : fld q (key pgSv 0x100) 31 28 = fld p (key pgSv 0x100) 31 28 := fld_congr hseq 31 28
  rw [heldDown, heldDown, h1, h2]

theorem ReadyOnly.heldDown_eq (h : ReadyOnly p q) (pg : Nat) : heldDown q pg = heldDown p pg :=
  heldDown_congr (h.reg pgPwr 0x100 (by decide) (by decide)) (h.reg pgSv 0x100 (by decide) (by decide)) pg

end

/-! ## READY follows ENABLE (R146) -/

/-- A block that is enabled and not held down becomes READY. -/
theorem becomeReady_ready {p : Pkg} {pg : Nat} (he : enabled p pg = true) (hh : heldDown p pg = false) :
    ready (becomeReady p pg) pg = true := by
  rw [becomeReady, if_neg (by simp [he]), if_neg (by simp [hh])]
  exact ready_setReady p pg true

theorem drained_of_enabled {p : Pkg} {pg : Nat} (h : enabled p pg = true) : drained p pg = p :=
  if_pos (by simp [h])

/-- A disabled block without work is not READY. -/
theorem drained_not_ready {p : Pkg} {pg : Nat} (he : enabled p pg = false) (hb : busy p pg = false) :
    ready (drained p pg) pg = false := by
  rw [drained, if_neg (by simp [he, hb])]
  exact (bit_congr (reg_withDisabled _ _ _) 0).trans (ready_setReady p pg false)

/-- ENABLE set again raises READY on a block that lost it to ENABLE 0. -/
theorem putEnable_ready {p : Pkg} {pg : Nat} (he : enabled p pg = true) (hd : SMap.get p.disabled pg false = true)
    (hr : retired p pg = false) (hf : inFault p pg = false) (hs : surveying p pg = false) (hh : heldDown p pg = false) :
    ready (putEnable p pg false) pg = true := by
  have hq (d : SMap Bool) : ReadyOnly p { p with disabled := d } := readyOnly_of_reg (reg_withDisabled p d)
  have hr' (d : SMap Bool) : retired { p with disabled := d } pg = false :=
    (bit_congr (reg_withDisabled p d _) 3).trans hr
  have hf' (d : SMap Bool) : inFault { p with disabled := d } pg = false :=
    (bit_congr (reg_withDisabled p d _) 2).trans hf
  rw [putEnable, if_neg (by simp), if_pos (by simp [he, hd])]
  dsimp only
  rw [if_neg (by simp [hr', hf', (hq _).surveying_eq, hs])]
  exact becomeReady_ready (((hq _).enabled_eq pg).trans he) (((hq _).heldDown_eq pg).trans hh)

/-! ## The bits of PAGE_CONTROL (R144) -/

/-- ENABLE and QUIESCE of a page take their values. -/
def controlSet (p : Pkg) (pg : Nat) (v : W64) : Pkg := setFld p (key pg 0xC) 1 0 (bitsOf v 1 0)

section
variable {p : Pkg} {rq : Requester} {pg : Nat} {v : W64}

theorem bit_controlSet {n : Nat} (hn : n ≤ 1) : bit (controlSet p pg v) (key pg 0xC) n = bitOf v n := by
  rw [bit_eq_testBit _ (Nat.zero_le n) hn, controlSet, fld_setFld_self _ _ _ _ _ (by decide) (by decide),
    bitOf_eq_testBit v (Nat.zero_le n) hn]
  simp [bitsOf]

theorem controlSet_reg_off (pg' : Nat) {off : Nat} (ho : off < 0x1000) (h : off ≠ 0xC) :
    reg (controlSet p pg v) (key pg' off) = reg p (key pg' off) :=
  reg_setFld_ne _ _ _ _ (key_ne _ _ ho (by decide) h)

theorem heldDown_controlSet (pg' : Nat) : heldDown (controlSet p pg v) pg' = heldDown p pg' :=
  heldDown_congr (controlSet_reg_off pgPwr (by decide) (by decide)) (controlSet_reg_off pgSv (by decide) (by decide)) pg'

theorem enabled_controlSet (hf : firstPage pg = pg) : enabled (controlSet p pg v) pg = bitOf v 0 := by
  rw [enabled, hf, bit_controlSet (by decide)]

theorem quiesced_controlSet (hf : firstPage pg = pg) : quiesced (controlSet p pg v) pg = bitOf v 1 := by
  rw [quiesced, hf, bit_controlSet (by decide)]

/-- The owner's write with neither CLAIM, RELEASE nor HANDOVER applies the bits beside ownership. -/
theorem putPageControl_applies (hp : present p pg = true) (h3 : bitOf v 3 = false) (h4 : bitOf v 4 = false)
    (hv : bitsOf v 11 8 = 0) (h0 : rq.code ≠ 0) (hown : rq.code = owner p pg) :
    putPageControl rq pg v p = applyControl p pg v := by
  rw [putPageControl, if_neg (by simp [hp]), if_neg (by simp [h3]), if_neg (by simp [h4, hv]), if_neg (by omega)]

theorem applyControl_enable (hf : firstPage pg = pg) (h2 : bitOf v 2 = false) :
    applyControl p pg v = putEnable (controlSet p pg v) pg (enabled p pg) := by
  rw [applyControl, if_pos hf]
  exact if_neg (by simp [h2])

theorem applyControl_reset (hf : firstPage pg = pg) (h2 : bitOf v 2 = true) :
    applyControl p pg v = resetUnit (putEnable (controlSet p pg v) pg (enabled p pg)) pg := by
  rw [applyControl, if_pos hf]
  exact if_pos h2

end

/-! ## A drained block (R144, R146) -/

theorem bit_setBusy_self (p : Pkg) (pg : Nat) (b : Bool) : busyBit (setBusy p pg b) pg = b :=
  bit_setBit_self _ _ _ _ (by decide)

theorem bit_setBusy_state (p : Pkg) (pg : Nat) (b : Bool) (pg' : Nat) {n : Nat} (hn : n ≠ 1) :
    bit (setBusy p pg b) (key pg' 8) n = bit p (key pg' 8) n := by
  unfold setBusy
  by_cases h : key pg' 8 = key (firstPage pg) 8
  · rw [h, bit_setBit_beside _ _ _ _ _ (by decide) hn]
  · exact bit_setBit_ne _ _ _ _ h

theorem setBusy_reg_off (p : Pkg) (pg : Nat) (b : Bool) (pg' : Nat) {off : Nat} (ho : off < 0x1000) (h : off ≠ 8) :
    reg (setBusy p pg b) (key pg' off) = reg p (key pg' off) :=
  reg_setFld_ne _ _ _ _ (key_ne _ _ ho (by decide) h)

/-- The package with BUSY of a block down. -/
def busyDown (p : Pkg) (pg : Nat) : Pkg := if busyBit p pg then setBusy p pg false else p

theorem busyBit_busyDown (p : Pkg) (pg : Nat) : busyBit (busyDown p pg) pg = false := by
  unfold busyDown
  split
  · exact bit_setBusy_self p pg false
  · simp_all

theorem bit_busyDown_state (p : Pkg) (pg pg' : Nat) {n : Nat} (hn : n ≠ 1) :
    bit (busyDown p pg) (key pg' 8) n = bit p (key pg' 8) n := by
  unfold busyDown
  split
  · exact bit_setBusy_state p pg false pg' hn
  · rfl

theorem busyDown_reg_off (p : Pkg) (pg pg' : Nat) {off : Nat} (ho : off < 0x1000) (h : off ≠ 8) :
    reg (busyDown p pg) (key pg' off) = reg p (key pg' off) := by
  unfold busyDown
  split
  · exact setBusy_reg_off p pg false pg' ho h
  · rfl

theorem busyDown_only (p : Pkg) (pg : Nat) : OnlyInt p (busyDown p pg) := by
  unfold busyDown
  split
  · exact setBit_only _ _ _ _
  · exact .refl p

/-- What is left of a block's work does not read BUSY. -/
theorem blockWork_busyDown (p : Pkg) (pg pg' : Nat) : blockWork (busyDown p pg) pg' = blockWork p pg' := by
  have hbit (a : Nat) {off : Nat} (n : Nat) (ho : off < 0x1000) (h : off ≠ 8) :
      bit (busyDown p pg) (key a off) n = bit p (key a off) n := bit_congr (busyDown_reg_off p pg a ho h) n
  have hfld (a : Nat) (hi lo : Nat) : fld (busyDown p pg) (key a 0x100) hi lo = fld p (key a 0x100) hi lo :=
    fld_congr (busyDown_reg_off p pg a (by decide) (by decide)) hi lo
  obtain ⟨r, o, i, hq⟩ := busyDown_only p pg
  unfold blockWork
  simp only [hbit _ _ (show 0x110 < 0x1000 by decide) (show 0x110 ≠ 8 by decide),
    hbit _ _ (show 0x118 < 0x1000 by decide) (show 0x118 ≠ 8 by decide),
    hbit _ _ (show 0x120 < 0x1000 by decide) (show 0x120 ≠ 8 by decide), hfld]
  rw [hq]

/-- A block that is idle has none of the work that BUSY shows. -/
theorem blockWork_of_idle {p : Pkg} {pg : Nat} (hp : present p pg = true) (h : idle p pg = true) : blockWork p pg = false := by
  unfold present at hp
  unfold idle at h
  unfold blockWork classOf
  split at hp
  · cases hp
  · rename_i pi hpi
    simp only [hpi] at h ⊢
    split at h
    · rename_i hc; simp [hc]
    · split at h
      · rename_i hc; simp [hc]
      · split at h
        · rename_i hc; simp [hc]
        · simpa [blockWork, classOf, hpi] using h

/-- A block without work, its stored BUSY down, is not busy. -/
theorem busy_busyDown {p : Pkg} {pg : Nat} (hp : present p pg = true) (hf : firstPage pg = pg) (hi : idle p pg = true) :
    busy (busyDown p pg) pg = false := by
  rw [busy, busyBit_busyDown, hf, blockWork_busyDown, blockWork_of_idle hp hi]
  rfl

theorem doBlockDrained_drains {p : Pkg} {pg : Nat} (hp : present p pg = true) (hf : firstPage pg = pg)
    (hq : quiesced p pg = true ∨ enabled p pg = false) (hi : idle p pg = true) :
    doBlockDrained pg p = drained (busyDown p pg) pg := by
  rw [doBlockDrained, if_pos (by simpa [hp, hf, hi] using hq)]
  rfl

theorem enabled_busyDown (p : Pkg) (pg : Nat) : enabled (busyDown p pg) pg = enabled p pg :=
  bit_congr (busyDown_reg_off p pg _ (by decide) (by decide)) 0

end Sys2Proof.Machine
end

section
/-! Unit reset (spec/04 R147): what the loss of a block's work keeps of READY, ENABLE and the state of the package. -/

namespace Sys2Proof.Machine

/-! ## What the loss of a block's work keeps -/

/-- From p to q no block becomes READY, no ENABLE changes, and STATE of the power controller and of the sequencer stays. -/
structure WorkLost (p q : Pkg) : Prop where
  ready : ∀ pg, bit p (key pg 8) 0 = false → bit q (key pg 8) 0 = false
  control : ∀ pg, reg q (key pg 0xC) = reg p (key pg 0xC)
  power : reg q pwrStatus = reg p pwrStatus
  seq : reg q svSeq = reg p svSeq

theorem workLost_of_reg {p q : Pkg} (h : ∀ k, reg q k = reg p k) : WorkLost p q :=
  ⟨fun _ hr => (bit_congr (h _) 0).trans hr, fun _ => h _, h _, h _⟩

theorem workLost_of_regs {p q : Pkg} (hr : q.regs = p.regs) (hs : q.standalone = p.standalone) (hf : q.fuse = p.fuse) :
    WorkLost p q := workLost_of_reg (reg_congr hr hs hf)

theorem WorkLost.refl (p : Pkg) : WorkLost p p := workLost_of_reg fun _ => rfl

theorem WorkLost.trans {p q r : Pkg} (h : WorkLost p q) (g : WorkLost q r) : WorkLost p r :=
  ⟨fun pg hr => g.ready pg (h.ready pg hr), fun pg => (g.control pg).trans (h.control pg), g.power.trans h.power,
    g.seq.trans h.seq⟩

theorem WorkLost.foldl {α : Type} {f : Pkg → α → Pkg} (hf : ∀ p a, WorkLost p (f p a)) (l : List α) (p : Pkg) :
    WorkLost p (l.foldl f p) := by
  induction l generalizing p with
  | nil => exact .refl p
  | cons a t ih => exact (hf p a).trans (ih _)

/-- A register that is neither PAGE_STATE, PAGE_CONTROL nor one of the two status registers. -/
theorem workLost_setReg (p : Pkg) {pg off : Nat} (v : W64) (ho : off < 0x1000) (h8 : off ≠ 8) (hC : off ≠ 0xC)
    (h : off ≠ 0x100 ∨ (pg ≠ pgPwr ∧ pg ≠ pgSv)) : WorkLost p (setReg p (key pg off) v) := by
  have hne {a : Nat} (hpg : off ≠ 0x100 ∨ pg ≠ a) : key a 0x100 ≠ key pg off := by
    rcases hpg with h | h
    · exact key_ne _ _ (by decide) ho h.symm
    · exact key_ne_page (by decide) ho h.symm
  refine ⟨fun _ hr => (bit_congr (reg_setReg_ne _ _ ?_) 0).trans hr, fun _ => reg_setReg_ne _ _ ?_,
    reg_setReg_ne _ _ (hne (by tauto)), reg_setReg_ne _ _ (hne (by tauto))⟩
  · exact key_ne _ _ (by decide) ho h8.symm
  · exact key_ne _ _ (by decide) ho hC.symm

theorem workLost_setReady (p : Pkg) (pg : Nat) : WorkLost p (setReady p pg false) := by
  have h := setReady_readyOnly p pg false
  refine ⟨fun pg' hr => ?_, fun pg' => h.reg pg' 0xC (by decide) (by decide), h.reg pgPwr 0x100 (by decide) (by decide),
    h.reg pgSv 0x100 (by decide) (by decide)⟩
  by_cases hp : ready p pg = false
  · rw [setReady, if_pos hp]
    exact hr
  · rw [bit_congr (setReady_reg_state hp pg')]
    by_cases hk : key pg' 8 = key (firstPage pg) 8
    · rw [hk, bit_setBit_self _ _ _ _ (by decide)]
    · rwa [bit_setBit_ne _ _ _ _ hk]

theorem workLost_drained (p : Pkg) (pg : Nat) : WorkLost p (drained p pg) := by
  unfold drained
  split
  · exact .refl p
  · exact (workLost_setReady p pg).trans (workLost_of_reg (reg_withDisabled _ _))

theorem workLost_setBusy (p : Pkg) (pg : Nat) (b : Bool) : WorkLost p (setBusy p pg b) :=
  ⟨fun pg' hr => (bit_setBusy_state p pg b pg' (by decide)).trans hr,
    fun pg' => setBusy_reg_off p pg b pg' (by decide) (by decide), setBusy_reg_off p pg b pgPwr (by decide) (by decide),
    setBusy_reg_off p pg b pgSv (by decide) (by decide)⟩

theorem workLost_raise (p : Pkg) (pg : Nat) (bits : W64) : WorkLost p (raise p pg bits) :=
  ⟨fun _ hr => (bit_congr (raise_reg_off p pg bits _ (by decide) (by decide)) 0).trans hr,
    fun _ => raise_reg_off p pg bits _ (by decide) (by decide), raise_reg_off p pg bits pgPwr (by decide) (by decide),
    raise_reg_off p pg bits pgSv (by decide) (by decide)⟩

/-! ## Lines that leave (classes 0x03 and 0x0F) -/

theorem workLost_setPc (p : Pkg) (k : Nat) (x : PcSt) : WorkLost p (setPc p k x) := workLost_of_regs rfl rfl rfl

theorem workLost_memSend (p : Pkg) (pa cls : Nat) (w : Bool) : WorkLost p (memSend p pa cls w) := by
  unfold memSend
  split
  · exact (workLost_setPc p _ _).trans (workLost_setBusy _ _ _)
  · exact .refl p

theorem workLost_writeBack (p : Pkg) (sl line : Nat) : WorkLost p (writeBack p sl line) :=
  (workLost_setReg p _ (by decide) (by decide) (by decide) (.inl (by decide))).trans (workLost_memSend _ _ _ _)

theorem workLost_setTags (p : Pkg) (sl : Nat) (t : SMap Tag) : WorkLost p (setTags p sl t) :=
  workLost_of_reg fun k => reg_congr rfl rfl rfl k

theorem workLost_countPins (p : Pkg) (sl : Nat) : WorkLost p (countPins p sl) :=
  workLost_setReg p _ (by decide) (by decide) (by decide) (.inl (by decide))

theorem workLost_slmFill (p : Pkg) (sl line hint : Nat) (dirty : Bool) : WorkLost p (slmFill p sl line hint dirty) := by
  have hfill (q : Pkg) (t : SMap Tag) (n : Nat) :
      WorkLost q (countPins (setFld (setTags q sl t) (key (pgSl sl) 0x104) 15 0 n) sl) :=
    ((workLost_setTags q sl t).trans
      (workLost_setReg _ _ (by decide) (by decide) (by decide) (.inl (by decide)))).trans (workLost_countPins _ sl)
  unfold slmFill
  dsimp only
  split
  · split
    · exact workLost_writeBack _ _ _
    · exact .refl p
  · refine WorkLost.trans ?_ (hfill _ _ _)
    split
    · split
      · exact workLost_writeBack _ _ _
      · exact .refl p
    · exact .refl p

theorem workLost_sideTakes (p : Pkg) (pa : Nat) : WorkLost p (sideTakes p pa) := by
  unfold sideTakes
  split
  · unfold slmWrite
    dsimp only
    split
    · exact workLost_setTags _ _ _
    · split
      · exact workLost_memSend _ _ _ _
      · exact workLost_slmFill _ _ _ _ _
  · exact .refl p

theorem workLost_crossLine (p : Pkg) (who pa : Nat) (read : Bool) : WorkLost p (crossLine p who pa read) := by
  have hadd (q : Pkg) (pg : Nat) {off : Nat} (h : off ∈ [0x108, 0x110, 0x118]) : WorkLost q (addReg q (key pg off) 1) := by
    simp only [List.mem_cons, List.not_mem_nil, or_false] at h
    exact workLost_setReg q _ (by omega) (by omega) (by omega) (.inl (by omega))
  unfold crossLine
  split
  · unfold carryLine
    dsimp only
    refine WorkLost.trans ?_ (.foldl (fun q h => ?_) _ _)
    · split
      · exact workLost_of_reg fun k => reg_congr rfl rfl rfl k
      · exact .refl p
    · split
      · exact .refl q
      · have hline : WorkLost q (addReg q (key (bridgePage h.bridge) (if h.toward != read then 0x108 else 0x110)) 1) :=
          hadd q _ (by split <;> decide)
        split
        · exact hline.trans (hadd _ _ (by decide))
        · exact hline
  · exact .refl p

theorem workLost_setHart (p : Pkg) (h : Nat) (x : Hart) : WorkLost p (setHart p h x) := workLost_of_regs rfl rfl rfl

theorem workLost_setDir (p : Pkg) (line : Nat) (d : DirLine) : WorkLost p (setDir p line d) := workLost_of_regs rfl rfl rfl

theorem workLost_giveUp (p : Pkg) (h line : Nat) : WorkLost p (giveUp p h line) := by
  have hresv : WorkLost p (loseResv p h line) := by
    unfold loseResv
    split
    · exact workLost_setHart _ _ _
    · exact .refl p
  unfold giveUp
  dsimp only
  refine WorkLost.trans ?_ (workLost_setDir _ _ _)
  split
  · exact (hresv.trans (workLost_crossLine _ _ _ _)).trans (workLost_sideTakes _ _)
  · exact hresv

theorem workLost_dropHarts (p : Pkg) (cluster : Nat) : WorkLost p (dropHarts p cluster) := by
  unfold dropHarts
  dsimp only
  refine (WorkLost.foldl (fun q j => ?_) (List.range 4) p).trans (workLost_of_regs rfl rfl rfl)
  exact WorkLost.foldl (fun r l => workLost_giveUp r _ l) _ q

theorem workLost_setCmd (p : Pkg) (id : Nat) (c : Cmd) : WorkLost p (setCmd p id c) := workLost_of_regs rfl rfl rfl

theorem workLost_dropSliceWatches (p : Pkg) (sl : Nat) : WorkLost p (dropSliceWatches p sl) := by
  unfold dropSliceWatches
  dsimp only
  exact (WorkLost.foldl (fun q w => workLost_setCmd q _ _) _ p).trans (workLost_of_regs rfl rfl rfl)

/-! ## Commands that leave (class 0x0D) -/

/-- A register of a CE's page with a number from 0x100 on. -/
theorem workLost_setReg_ce (p : Pkg) (n : Nat) {off : Nat} (v : W64) (ho : off < 0x1000) (h : 0x100 ≤ off) :
    WorkLost p (setReg p (key (pgCe n) off) v) := by
  refine workLost_setReg p v ho (by omega) (by omega) (.inr ?_)
  unfold pgCe sheetBase pgPwr pgSv
  omega

theorem workLost_setCe (p : Pkg) (n : Nat) (c : Ce) : WorkLost p (setCe p n c) := workLost_of_regs rfl rfl rfl

theorem workLost_l1Boundary (p : Pkg) (n : Nat) : WorkLost p (l1Boundary p n) := by
  have hfld (q : Pkg) (hi lo v : Nat) : WorkLost q (setFld q (l1Status n) hi lo v) :=
    workLost_setReg_ce q n _ (by decide) (by decide)
  have hpolicy (q : Pkg) (hq : WorkLost p q) (a b : Bool) :
      WorkLost p (setBit (setBit q (l1Status n) 30 a) (l1Status n) 29 b) :=
    (hq.trans (hfld _ _ _ _)).trans (hfld _ _ _ _)
  unfold l1Boundary
  dsimp only
  refine WorkLost.trans ?_ (hfld _ _ _ _)
  split
  · refine WorkLost.trans ?_ (hfld _ _ _ _)
    split
    · exact hpolicy _ (workLost_setCe _ _ _) _ _
    · exact workLost_setCe _ _ _
  · split
    · exact hpolicy _ (workLost_setCe _ _ _) _ _
    · exact workLost_setCe _ _ _

theorem workLost_ceRelease (p : Pkg) (n : Nat) (c : Cmd) : WorkLost p (ceRelease p n c) := by
  have hdemand : WorkLost p (match (ce p n).cmd with | some id => dropDemand p id | none => p) := by
    split
    · exact workLost_of_regs rfl rfl rfl
    · exact .refl p
  have hboundary (q : Pkg) : WorkLost q (ceBoundary q n) := by
    unfold ceBoundary
    exact (workLost_setCe q n _).trans (workLost_l1Boundary _ n)
  have hrunning (q : Pkg) : WorkLost q (setReg (setFld q (ceStatus n) 31 30 0) (key (pgCe n) 0x110) 0) :=
    (workLost_setReg_ce q n _ (by decide) (by decide)).trans (workLost_setReg_ce _ n _ (by decide) (by decide))
  unfold ceRelease
  dsimp only
  exact ((((hdemand.trans (workLost_setCe _ n _)).trans (hboundary _)).trans (hrunning _)).trans
    (workLost_setBusy _ _ _)).trans (workLost_drained _ _)

theorem workLost_dropCommands (p : Pkg) : WorkLost p (dropCommands p) := by
  have hfree (q : Pkg) (x : Nat × Ce) :
      WorkLost q (match x.2.cmd with | some id => ceRelease (ceStop q x.1) x.1 (cmd q id) | none => q) := by
    have hstop : WorkLost q (ceStop q x.1) := workLost_of_regs rfl rfl rfl
    split
    · exact hstop.trans (workLost_ceRelease _ _ _)
    · exact .refl q
  have hloads (q : Pkg) (x : Nat × Cmd) : WorkLost q (dropLoads q x.1) := workLost_of_regs rfl rfl rfl
  have hgone := (WorkLost.foldl hfree p.ces p).trans (WorkLost.foldl hloads p.qm.cmds _)
  exact hgone.trans (workLost_of_regs rfl rfl rfl)

/-! ## Ports and bridges (classes 0x06, 0x07, 0x09 and 0x0A) -/

theorem workLost_setReg_port (p : Pkg) (i : Nat) {off : Nat} (v : W64) (ho : off < 0x1000) (h : 0x100 ≤ off) :
    WorkLost p (setReg p (key (pgPl i) off) v) := by
  refine workLost_setReg p v ho (by omega) (by omega) (.inr ?_)
  unfold pgPl pgPwr pgSv
  omega

theorem workLost_setPort (p : Pkg) (i : Nat) (x : PortSt) : WorkLost p (setPort p i x) := workLost_of_regs rfl rfl rfl

theorem workLost_raiseBlock (p : Pkg) (pg n : Nat) : WorkLost p (raiseBlock p pg n) := workLost_raise _ _ _

theorem workLost_waypoint (p : Pkg) (pg event sub arg : Nat) : WorkLost p (waypoint p pg event sub arg) :=
  workLost_of_regs rfl rfl rfl

theorem workLost_admitted (p : Pkg) (i : Nat) (b : Bool) : WorkLost p (setBit p (key pgRt 0x130) i b) :=
  workLost_setReg p _ (by decide) (by decide) (by decide) (.inl (by decide))

/-- STATE of a port, its lamps and RT_ADMITTED take their values. -/
def plShown (p : Pkg) (i st : Nat) : Pkg :=
  setBit (setFld (setFld (setFld p (plStatus i) 31 28 st) (plStatus i) 25 24 (lamps st).1) (plStatus i) 23 22 (lamps st).2)
    (key pgRt 0x130) i (st == stAdmitted)

theorem workLost_plShown (p : Pkg) (i st : Nat) : WorkLost p (plShown p i st) := by
  have hfld (q : Pkg) (hi lo v : Nat) : WorkLost q (setFld q (plStatus i) hi lo v) :=
    workLost_setReg_port q i _ (by decide) (by decide)
  exact (((hfld p _ _ _).trans (hfld _ _ _ _)).trans (hfld _ _ _ _)).trans (workLost_admitted _ _ _)

theorem workLost_setPlState (p : Pkg) (i st : Nat) : WorkLost p (setPlState p i st) := by
  have hport (x : PortSt) : WorkLost p (setPort (plShown p i st) i x) :=
    (workLost_plShown p i st).trans (workLost_setPort _ _ _)
  unfold setPlState
  dsimp only
  split
  · split
    · exact hport _
    · exact (hport _).trans (workLost_raiseBlock _ _ _)
  · refine WorkLost.trans ?_ ((workLost_raiseBlock _ _ _).trans (workLost_waypoint _ _ _ _ _))
    split
    · exact hport _
    · exact (hport _).trans (workLost_raiseBlock _ _ _)

theorem workLost_resetPort (p : Pkg) (i : Nat) (wasIn : Bool) : WorkLost p (resetPort p i wasIn) := by
  have hgone : WorkLost p (setBit (setPort p i PortSt.empty) (key pgRt 0x130) i false) :=
    (workLost_setPort _ _ _).trans (workLost_admitted _ _ _)
  have hcable (q : Pkg) : WorkLost q (setBit q (plStatus i) 27 true) := workLost_setReg_port q i _ (by decide) (by decide)
  unfold resetPort
  dsimp only
  split
  · split
    · exact (hgone.trans (hcable _)).trans (workLost_setPlState _ _ _)
    · exact hgone.trans (hcable _)
  · exact hgone

/-! ## The work of any block -/

theorem workLost_router (p : Pkg) (first : Nat) (r : RouterSt) : WorkLost p ((List.range 6).foldl
    (fun q i => if plState q i = stAdmitted then setPlState q i stTrained else q) (dropBridges { p with rt := r } first)) := by
  have hdrop : WorkLost p (dropBridges { p with rt := r } first) := workLost_of_regs rfl rfl rfl
  refine hdrop.trans (.foldl (fun q i => ?_) _ _)
  split
  · exact workLost_setPlState _ _ _
  · exact .refl q

/-- R147: what a block other than a CE loses touches neither ENABLE, nor STATE of the package, and makes no block READY. -/
theorem workLost_unitWork (old p : Pkg) (pi : PageInfo) : WorkLost p (unitWork old p pi) := by
  unfold unitWork
  -- the cases stand in the order of the classes, from 0x02 on
  split
  case h_1 =>
    split
    · exact workLost_of_regs rfl rfl rfl
    · exact .refl p
  case h_2 =>
    exact ((workLost_setTags _ _ _).trans (workLost_countPins _ _)).trans (workLost_dropSliceWatches _ _)
  case h_8 => exact workLost_resetPort _ _ _
  case h_9 => exact workLost_router _ _ _
  case h_10 =>
    have hstatus (q : Pkg) (b : Bool) : WorkLost q (setBit q updStatus 29 b) :=
      workLost_setReg q (pg := 3) _ (by decide) (by decide) (by decide) (.inr (by decide))
    refine WorkLost.trans ?_ (hstatus _ _)
    exact workLost_of_regs rfl rfl rfl
  case h_11 =>
    refine WorkLost.trans ?_ (workLost_setReg _ _ (by decide) (by decide) (by decide) (.inl (by decide)))
    exact workLost_of_regs rfl rfl rfl
  case h_12 => exact workLost_dropCommands p
  case h_14 => exact workLost_dropHarts p _
  case h_16 => exact workLost_of_reg fun k => rfl
  case h_18 => exact .refl p
  all_goals exact workLost_of_regs rfl rfl rfl

end Sys2Proof.Machine
end

section
/-! QUIESCE, ENABLE, RESET_UNIT and the drain of a block (spec/04 R144, R146, R147): the registers after a unit reset, and
the proof of O14. -/

namespace Sys2Proof.Machine

/-! ## The registers of a block at reset (R147) -/

/-- A filter of a map that drops every entry of a key, and keeps the keys of the others, leaves that key unlisted. -/
theorem SMap.get_filterMap_none {α : Type} {f : Nat × α → Option (Nat × α)} {k : Nat} (hk : ∀ v, f (k, v) = none)
    (hf : ∀ x y, f x = some y → y.1 = x.1) (m : SMap α) (d : α) : SMap.get (m.filterMap f) k d = d := by
  induction m with
  | nil => rfl
  | cons x t ih =>
    obtain ⟨j, v⟩ := x
    cases hx : f (j, v) with
    | none => rw [List.filterMap_cons_none hx, ih]
    | some y =>
      have hy : k ≠ y.1 := by
        intro he
        obtain rfl : j = k := (hf _ _ hx).symm.trans he.symm
        rw [hk] at hx
        cases hx
      rw [List.filterMap_cons_some hx]
      simp [SMap.get, hy, ih]

/-- A register's entry at a unit reset of the block: kept, OWNER alone of a PAGE_STATE, or gone. -/
def resetEntry (first : Nat) (x : Nat × W64) : Option (Nat × W64) :=
  match keepOf first x.1 with
  | .all => some x
  | .ownerOnly =>
    if x.1 = key first 8 then some (x.1, BitVec.ofNat 64 (bitsOf x.2 11 8 * 256 + bitsOf x.2 0 0))
    else some (x.1, BitVec.ofNat 64 (bitsOf x.2 11 8 * 256))
  | .none => none

theorem resetRegs_regs (p : Pkg) (first : Nat) : (resetRegs p first).regs = p.regs.filterMap (resetEntry first) := rfl

theorem resetEntry_key {first : Nat} (x y : Nat × W64) (h : resetEntry first x = some y) : y.1 = x.1 := by
  unfold resetEntry at h
  split at h
  · rw [← Option.some.inj h]
  · split at h <;> rw [← Option.some.inj h]
  · cases h

theorem reg_resetRegs_kept (p : Pkg) {first k : Nat} (h : keepOf first k = .all) : reg (resetRegs p first) k = reg p k := by
  have hk (v : W64) : resetEntry first (k, v) = some (k, v) := by simp only [resetEntry, h]
  rw [reg, resetRegs_regs, SMap.get_filterMap hk resetEntry_key]
  rfl

theorem reg_resetRegs_lost (p : Pkg) {first k : Nat} (h : keepOf first k = .none) :
    reg (resetRegs p first) k = regReset p k := by
  have hk (v : W64) : resetEntry first (k, v) = none := by simp only [resetEntry, h]
  rw [reg, resetRegs_regs, SMap.get_filterMap_none hk resetEntry_key]
  rfl

/-- The status registers and counts that `keepOf` names one by one: every unit reset keeps them. -/
def keptKeys : List Nat :=
  [key pgRt 0x104, key pgDt 0x110, key pgDt 0x158, key pgHl 0x130, key pgOps 0x100, key pgOps 0x108, key pgOps 0x10C,
    key pgSv 0x100, key pgSv 0x104, key 3 0x100, key 3 0x104, key pgPwr 0x100]

/-- STATE of the sequencer and of the power controller is no block's to reset. -/
theorem keepOf_status (first : Nat) {k : Nat} (h : k = pwrStatus ∨ k = svSeq) : keepOf first k = .all := by
  have hoff : k % 0x1000 ≠ 8 := by rcases h with rfl | rfl <;> decide
  have hmem : k ∈ keptKeys := by
    rcases h with rfl | rfl <;> decide
  unfold keptKeys at hmem
  unfold keepOf
  dsimp only
  rw [if_neg hoff, if_pos hmem]
  simp

/-- PAGE_CONTROL of a block returns to its reset value. -/
theorem keepOf_control {first : Nat} (hf : firstPage first = first) : keepOf first (key first 0xC) = .none := by
  have hmem : key first 0xC ∉ keptKeys := by
    have hne (a : Nat) {y : Nat} (hy : y < 0x1000) (h : 0xC ≠ y) : key first 0xC ≠ key a y :=
      key_ne first a (by decide) hy h
    simp [keptKeys, hne]
  have huse : key first 0xC ≠ key first 0x38 := key_ne _ _ (by decide) (by decide) (by decide)
  unfold keptKeys at hmem
  unfold keepOf
  simp [key_mod (pg := first) (off := 0xC) (by decide), key_div (pg := first) (off := 0xC) (by decide), hf, hmem, huse]

/-- A block's first page has index 0 in Table 22-1. -/
theorem index_of_first {pg : Nat} {pi : PageInfo} (h : pageInfo pg = some pi) (hf : pi.first = pg) : pi.index = 0 := by
  have hite {c : Prop} [Decidable c] {a b : Option PageInfo} (ha : c → ∀ x ∈ a, x.first = pg → x.index = 0)
      (hb : ¬ c → ∀ x ∈ b, x.first = pg → x.index = 0) : ∀ x ∈ (if c then a else b), x.first = pg → x.index = 0 :=
    iteInduction (motive := fun o : Option PageInfo => ∀ x ∈ o, x.first = pg → x.index = 0) ha hb
  have hall : ∀ x ∈ pageInfo pg, x.first = pg → x.index = 0 := by
    unfold pageInfo
    repeat' refine hite (fun hc => ?_) (fun hc => ?_)
    all_goals
      intro x hx hfirst
      cases hx
    all_goals simp only at hfirst ⊢ <;> omega
  exact hall pi h hf

/-- ENABLE reads 1 at reset on every block but a CE (Table 4-6). -/
theorem regReset_control (p : Pkg) {pg : Nat} {pi : PageInfo} (h : pageInfo pg = some pi) (hf : pi.first = pg)
    (hc : pi.cls ≠ 1) : regReset p (key pg 0xC) = 1 := by
  have hrow : findRow pi 0xC = some (rw4 0x00C (msk 1 0) 1, 0xC) := by
    have hfind : (pageCommon pi).find? (fun r => r.holds 0xC) = some (rw4 0x00C (msk 1 0) 1) := by
      rw [pageCommon, if_pos (index_of_first h hf), List.find?_append]
      rfl
    unfold findRow
    rw [if_pos (.inl (by decide)), hfind]
    rfl
  unfold regReset regRow
  simp [key_mod (pg := pg) (off := 0xC) (by decide), key_div (pg := pg) (off := 0xC) (by decide), h, hc, hrow, rw4]

/-! ## A block after its reset, and after its unit reset -/

/-- Beside what the reset of a block's registers leaves, only PAGE_STATE, the interrupt registers and the window change. -/
theorem resetBlock_reg (p : Pkg) (first why pg : Nat) {off : Nat} (ho : off < 0x1000) (h : off ∉ [8, 0x20, 0x24, 0x2C]) :
    reg (resetBlock p first why) (key pg off) = reg (resetRegs p first) (key pg off) := by
  simp only [List.mem_cons, List.not_mem_nil, or_false, not_or] at h
  obtain ⟨h8, h20, h24, h2C⟩ := h
  unfold resetBlock
  dsimp only
  rw [setReady_reg_off _ _ _ _ ho (by simp [h8, h20, h24]), waypoint_reg]
  exact reg_setFld_ne (resetQueues (resetRegs p first) first) _ _ _ (key_ne pg first ho (by decide) h2C)

theorem ready_resetBlock (p : Pkg) (first why : Nat) : ready (resetBlock p first why) first = false :=
  ready_setReady _ _ _

theorem reg_forgetReady (p : Pkg) (first k : Nat) : reg (forgetReady p first) k = reg p k := reg_congr rfl rfl rfl k

/-- The package with a block reset and its work lost, before its survey. -/
def unitGone (p : Pkg) (first : Nat) (pi : PageInfo) : Pkg :=
  unitWork p (resetBlock (forgetReady p first) first 0) pi

section
variable {p : Pkg} {pg : Nat} {pi : PageInfo}

theorem ready_unitGone (hf : firstPage pg = pg) : ready (unitGone p pg pi) pg = false := by
  have h := ready_resetBlock (forgetReady p pg) pg 0
  rw [ready, hf] at h ⊢
  exact (workLost_unitWork _ _ _).ready pg h

theorem enabled_unitGone (hpi : pageInfo pg = some pi) (hf : firstPage pg = pg) (hc : pi.cls ≠ 1) :
    enabled (unitGone p pg pi) pg = true := by
  have hfirst : pi.first = pg := by simpa [firstPage, hpi] using hf
  have hreg : reg (unitGone p pg pi) (key pg 0xC) = 1 := by
    rw [unitGone, (workLost_unitWork _ _ _).control, resetBlock_reg _ _ _ _ (by decide) (by decide),
      reg_resetRegs_lost _ (keepOf_control hf), regReset_control _ hpi hfirst hc]
  rw [enabled, hf, bit, hreg]
  rfl

theorem heldDown_unitGone (pg' : Nat) : heldDown (unitGone p pg pi) pg' = heldDown p pg' := by
  have hkept {pg' : Nat} (h : key pg' 0x100 = pwrStatus ∨ key pg' 0x100 = svSeq) :
      reg (resetBlock (forgetReady p pg) pg 0) (key pg' 0x100) = reg p (key pg' 0x100) := by
    rw [resetBlock_reg _ _ _ _ (by decide) (by decide), reg_resetRegs_kept _ (keepOf_status pg h), reg_forgetReady]
  have hwork := workLost_unitWork p (resetBlock (forgetReady p pg) pg 0) pi
  exact heldDown_congr (hwork.power.trans (hkept (.inl rfl))) (hwork.seq.trans (hkept (.inr rfl))) pg'

/-- R147: a block with a survey begins it and is not READY. -/
theorem resetUnit_surveys (hpi : pageInfo pg = some pi) (hf : firstPage pg = pg) (hc : pi.cls ≠ 1)
    (hs : hasSurvey pi.cls = true) :
    surveying (resetUnit p pg) pg = true ∧ ready (resetUnit p pg) pg = false := by
  have hunit : resetUnit p pg = startSurvey (unitGone p pg pi) pg := by
    simp only [resetUnit, hpi, if_neg hc, if_pos hs]
    rfl
  have hready := ready_unitGone (p := p) (pi := pi) hf
  rw [hunit, surveying, ready, hf, startSurvey, bit_congr (waypoint_reg _ _ _ _ _ _), bit_congr (waypoint_reg _ _ _ _ _ _),
    bit_setBit_self _ _ _ _ (by decide), bit_setBit_beside _ _ _ _ _ (by decide) (by decide)]
  rw [ready, hf] at hready
  exact ⟨rfl, hready⟩

/-- R147: a block without a survey, and no memory controller, is READY at once. -/
theorem resetUnit_ready (hpi : pageInfo pg = some pi) (hf : firstPage pg = pg) (hc1 : pi.cls ≠ 1) (hc4 : pi.cls ≠ 4)
    (hc5 : pi.cls ≠ 5) (hs : hasSurvey pi.cls = false) (hh : heldDown p pg = false) :
    ready (resetUnit p pg) pg = true := by
  have hunit : resetUnit p pg = becomeReady (unitGone p pg pi) pg := by
    simp only [resetUnit, hpi, if_neg hc1, if_neg hc4, if_neg hc5, hs]
    rfl
  rw [hunit]
  exact becomeReady_ready (enabled_unitGone hpi hf hc1) ((heldDown_unitGone pg).trans hh)

end

/-! ## O14 -/

/-- ENABLE written 1 on a block that lost READY to ENABLE 0 alone. -/
theorem applyControl_enables {p : Pkg} {pg : Nat} {v : W64} (hf : firstPage pg = pg) (h2 : bitOf v 2 = false)
    (hv : bitOf v 0 = true) (he : enabled p pg = false) (hd : SMap.get p.disabled pg false = true)
    (hr : retired p pg = false) (hfault : inFault p pg = false) (hs : surveying p pg = false) (hh : heldDown p pg = false) :
    enabled (applyControl p pg v) pg = true ∧ ready (applyControl p pg v) pg = true ∧
      surveying (applyControl p pg v) pg = false := by
  have hstate (n : Nat) : bit (controlSet p pg v) (key (firstPage pg) 8) n = bit p (key (firstPage pg) 8) n :=
    bit_congr (controlSet_reg_off _ (by decide) (by decide)) n
  have hon : enabled (controlSet p pg v) pg = true := (enabled_controlSet hf).trans hv
  have hsurvey : surveying (controlSet p pg v) pg = false := (hstate 4).trans hs
  have hset := putEnable_readyOnly (controlSet p pg v) pg false
  rw [applyControl_enable hf h2, he]
  exact ⟨(hset.enabled_eq pg).trans hon,
    putEnable_ready hon hd ((hstate 3).trans hr) ((hstate 2).trans hfault) hsurvey ((heldDown_controlSet pg).trans hh),
    (hset.surveying_eq pg).trans hsurvey⟩

/-- Settles O14: the write applies its bits, a reset block is surveyed or READY, and a drained block drops BUSY, and READY where
it is disabled. -/
theorem blocksQuiesceDisableAndReset : Obligations.BlocksQuiesceDisableAndReset := by
  have hbits {v : W64} {c : Nat} (h : bitsOf v 4 2 = c) :
      bitOf v 2 = c.testBit 0 ∧ bitOf v 3 = c.testBit 1 ∧ bitOf v 4 = c.testBit 2 := by
    subst h
    exact ⟨bitOf_eq_testBit v (by decide) (by decide), bitOf_eq_testBit v (by decide) (by decide),
      bitOf_eq_testBit v (by decide) (by decide)⟩
  unfold Obligations.BlocksQuiesceDisableAndReset
  refine ⟨?quiesce, ?enable, ?reset, ?drainedQuiesced, ?drainedDisabled⟩
  case quiesce =>
    intro s rq pg v hp hf h0 hown hv hh
    obtain ⟨h2, h3, h4⟩ := hbits hv
    have hset := putEnable_readyOnly (controlSet s.pkg pg (v.setWidth 64)) pg (enabled s.pkg pg)
    refine ⟨_, rfl, rfl, ?_⟩
    rw [State.onPkg_pkg, putPageControl_applies hp h3 h4 hh h0 hown, applyControl_enable hf h2]
    exact ⟨(hset.quiesced_eq pg).trans (quiesced_controlSet hf), (hset.enabled_eq pg).trans (enabled_controlSet hf),
      (hset.owner_eq pg).trans (fld_congr (controlSet_reg_off pg (by decide) (by decide)) _ _)⟩
  case enable =>
    intro s rq pg v hp hf h0 hown hv hh he hd hr hfault hs hheld
    have hbit {n : Nat} (hn : n ≤ 4) : bitOf (v.setWidth 64 : W64) n = (1 : Nat).testBit n := by
      rw [bitOf_eq_testBit _ (Nat.zero_le n) hn, hv, Nat.sub_zero]
    refine ⟨_, rfl, rfl, ?_⟩
    rw [State.onPkg_pkg, putPageControl_applies hp (hbit (by decide)) (hbit (by decide)) hh h0 hown]
    exact applyControl_enables hf (hbit (by decide)) (hbit (by decide)) he hd hr hfault hs hheld
  case reset =>
    intro s rq pg v pi hp hpi hf h0 hown hv hh hc1 hc4 hc5 hheld
    obtain ⟨h2, h3, h4⟩ := hbits hv
    have hheld' : heldDown (putEnable (controlSet s.pkg pg (v.setWidth 64)) pg (enabled s.pkg pg)) pg = false := by
      rw [(putEnable_readyOnly _ _ _).heldDown_eq, heldDown_controlSet, hheld]
    refine ⟨_, rfl, rfl, ?_⟩
    rw [State.onPkg_pkg, putPageControl_applies hp h3 h4 hh h0 hown, applyControl_reset hf h2]
    split
    · exact resetUnit_surveys hpi hf hc1 ‹_›
    · exact resetUnit_ready hpi hf hc1 hc4 hc5 (Bool.eq_false_iff.2 ‹_›) hheld'
  case drainedQuiesced =>
    intro s pg hp hf hq he hi
    refine ⟨_, rfl, rfl, ?_⟩
    rw [State.onPkg_pkg, doBlockDrained_drains hp hf (.inl hq) hi, drained_of_enabled ((enabled_busyDown _ _).trans he)]
    exact ⟨busyBit_busyDown _ _, bit_busyDown_state _ _ _ (by decide)⟩
  case drainedDisabled =>
    intro s pg hp hf he hi
    refine ⟨_, rfl, rfl, ?_⟩
    rw [State.onPkg_pkg, doBlockDrained_drains hp hf (.inr he) hi, (drained_readyOnly _ _).busyBit_eq]
    exact ⟨busyBit_busyDown _ _, drained_not_ready ((enabled_busyDown _ _).trans he) (busy_busyDown hp hf hi)⟩

end Sys2Proof.Machine
end

section
/-! The surveyor's mailbox (spec/17 R603, R604, Table 17-3): which requests wait, how one is answered, and how one goes to
the field book (R172). -/

namespace Sys2Proof.Machine

/-! ## Answers (R604) -/

/-- An answer writes SV_MBOX_CMD and the interrupt registers of its page alone. -/
theorem answerMbox_reg (p : Pkg) {page : Nat} (result : Nat) {k : Nat} (h : k ≠ mboxKey page) (h20 : k ≠ key page 0x20)
    (h24 : k ≠ key page 0x24) : reg (answerMbox p page result) k = reg p k := by
  unfold mboxKey at h
  unfold answerMbox
  dsimp only
  rw [raiseBlock_reg _ _ _ h20 h24, reg_setFld_ne _ _ _ _ h, setBit, reg_setFld_ne _ _ _ _ h, setBit,
    reg_setFld_ne _ _ _ _ h]

theorem answerMbox_only (p : Pkg) (page result : Nat) : OnlyInt p (answerMbox p page result) :=
  (((setBit_only _ _ _ _).trans (setBit_only _ _ _ _)).trans (setFld_only _ _ _ _ _)).trans (raiseBlock_only _ _ _)

theorem OnlyInt.pwr_eq {p q : Pkg} (h : OnlyInt p q) : q.pwr = p.pwr := by
  obtain ⟨_, _, _, rfl⟩ := h
  rfl

/-- DONE reads 1, BUSY 0 and RESULT the result. -/
theorem answerMbox_shows (p : Pkg) (page : Nat) {result : Nat} (h : result < 256) :
    bit (answerMbox p page result) (mboxKey page) 31 = true ∧ bit (answerMbox p page result) (mboxKey page) 30 = false ∧
      fld (answerMbox p page result) (mboxKey page) 15 8 = result := by
  have hreg : reg (answerMbox p page result) (mboxKey page) =
      reg (setFld (setBit (setBit p (mboxKey page) 30 false) (mboxKey page) 31 true) (mboxKey page) 15 8 result)
        (mboxKey page) :=
    raiseBlock_reg _ _ _ (key_ne _ _ (by decide) (by decide) (by decide)) (key_ne _ _ (by decide) (by decide) (by decide))
  rw [bit_congr hreg, bit_congr hreg, fld_congr hreg]
  refine ⟨?_, ?_, ?_⟩
  · rw [bit_setFld_beside _ _ _ _ _ _ (by decide) (by decide) (by decide), bit_setBit_self _ _ _ _ (by decide)]
  · rw [bit_setFld_beside _ _ _ _ _ _ (by decide) (by decide) (by decide),
      bit_setBit_beside _ _ _ _ _ (by decide) (by decide), bit_setBit_self _ _ _ _ (by decide)]
  · rw [fld_setFld_self _ _ _ _ _ (by decide) (by decide)]
    exact Nat.mod_eq_of_lt h

/-! ## Requests that wait (R603) -/

section
variable {p : Pkg} {page cmd : Nat} {arg : W64}

/-- What a waiting request tells of its page and of the surveyor. -/
theorem mboxWaits_facts (h : mboxWaits p page cmd arg = true) :
    (page = 1 ∨ page = 2) ∧ p.boot.handover.isNone = true ∧ bit p (mboxKey page) 30 = true := by
  simp only [mboxWaits, Bool.and_eq_true, Bool.or_eq_true, beq_iff_eq] at h
  obtain ⟨⟨⟨⟨⟨⟨hpage, -⟩, hhandover⟩, hbusy⟩, -⟩, -⟩, -⟩ := h
  exact ⟨hpage, hhandover, hbusy⟩

/-- A mailbox page is none of the package's other pages. -/
theorem mboxWaits_page_ne (h : mboxWaits p page cmd arg = true) {pg : Nat} (hpg : 3 ≤ pg) : page ≠ pg := by
  have := (mboxWaits_facts h).1
  omega

/-- From q to t the request on a mailbox page is answered with a result; the power controller, the field book and the
registers of every page but the surveyor's stay. -/
structure Answered (page result : Nat) (q t : Pkg) : Prop where
  done : bit t (mboxKey page) 31 = true
  idle : bit t (mboxKey page) 30 = false
  result : fld t (mboxKey page) 15 8 = result
  pwr : t.pwr = q.pwr
  fuse : t.fuse = q.fuse
  reg : ∀ pg off, 3 ≤ pg → off < 0x1000 → reg t (key pg off) = reg q (key pg off)

theorem answerMbox_answered (h : mboxWaits p page cmd arg = true) (q : Pkg) {result : Nat} (hr : result < 256) :
    Answered page result q (answerMbox q page result) := by
  obtain ⟨hdone, hidle, hresult⟩ := answerMbox_shows q page hr
  have honly := answerMbox_only q page result
  refine ⟨hdone, hidle, hresult, honly.pwr_eq, honly.log.fuse_eq, fun pg off hpg ho => ?_⟩
  have hne {x : Nat} (hx : x < 0x1000) : key pg off ≠ key page x := key_ne_page ho hx (mboxWaits_page_ne h hpg).symm
  exact answerMbox_reg q result (hne (by decide)) (hne (by decide)) (hne (by decide))

variable {who : Option Nat} {f : Pkg → Option Nat × Pkg}

/-- A request of the party that may make it is served. -/
theorem serveMbox_serves (h : mboxWaits p page cmd arg = true) (hwho : ∀ pg ∈ who, mboxParty p page = owner p pg)
    {q : Pkg} {result : Nat} (hf : f p = (some result, q)) (hr : result < 256) :
    Answered page result q (serveMbox page cmd arg who f p) := by
  have hserve : serveMbox page cmd arg who f p = answerMbox q page result := by
    unfold serveMbox
    rw [if_pos h]
    cases who with
    | none => simp [hf]
    | some pg => simp [hwho pg rfl, hf]
  exact hserve ▸ answerMbox_answered h q hr

/-- A request that goes to the field book is not answered yet. -/
theorem serveMbox_hands (h : mboxWaits p page cmd arg = true) (hwho : ∀ pg ∈ who, mboxParty p page = owner p pg)
    {q : Pkg} (hf : f p = (none, q)) : serveMbox page cmd arg who f p = q := by
  unfold serveMbox
  rw [if_pos h]
  cases who with
  | none => simp [hf]
  | some pg => simp [hwho pg rfl, hf]

/-- Any other party's request ends with result 4. -/
theorem serveMbox_refuses (h : mboxWaits p page cmd arg = true) {pg : Nat} (hwho : mboxParty p page ≠ owner p pg) :
    Answered page 4 p (serveMbox page cmd arg (some pg) f p) := by
  have hserve : serveMbox page cmd arg (some pg) f p = answerMbox p page 4 := by
    unfold serveMbox
    rw [if_pos h]
    simp [hwho]
  exact hserve ▸ answerMbox_answered h p (by decide)

end

/-! ## Requests to the field book (R172) -/

/-- A first request that the field book accepts is in progress. -/
theorem fbEnqueue_accepts {p : Pkg} {r : FbReq} (hr : p.fuse.requests = []) (hh : p.boot.handover.isNone = true)
    (hj : fbJudge p.fuse r = .accept) : (fbEnqueue p r).fuse.requests = [r] ∧
      ∀ k, k ≠ fbResult → reg (fbEnqueue p r) k = reg p k := by
  have hj' : fbJudge { p.fuse with requests := [r] } r = .accept := hj
  have hrun : fbEnqueue p r = fbServe 1 { p with fuse := { p.fuse with requests := [r] } } := by
    simp [fbEnqueue, hr, hh]
  rw [hrun]
  simp only [fbServe, hj']
  split
  · exact ⟨rfl, fun k _ => rfl⟩
  · refine ⟨rfl, fun k hk => ?_⟩
    rw [setBit, reg_setFld_ne _ _ _ _ hk, setBit, reg_setFld_ne _ _ _ _ hk]
    rfl

/-- FB_ATTRIBUTE with a party and reason 0 (R172). -/
def forParty (p : Pkg) (party : Nat) : Pkg := setReg p (key pgFb 0x10C) (BitVec.ofNat 64 (256 * party))

/-- The request carries the party's code and reason 0. -/
theorem fbRequestOf_party (p : Pkg) {party setting value page : Nat} (hp : party < 16)
    (hs : setting = 1 ∧ value < 2 ∨ setting = 2 ∧ value < 1024) :
    fbRequestOf (forParty p party) .surveyor setting 0 value page = ⟨setting, party, 0, 0, value, page⟩ := by
  have hparty : fld (forParty p party) (key pgFb 0x10C) 11 8 = party := by
    rw [fld, forParty, reg_setReg_self, bitsOf, BitVec.toNat_ofNat, Nat.shiftRight_eq_div_pow]
    omega
  have hreason : fld (forParty p party) (key pgFb 0x10C) 7 0 = 0 := by
    rw [fld, forParty, reg_setReg_self, bitsOf, BitVec.toNat_ofNat, Nat.shiftRight_eq_div_pow]
    omega
  unfold fbRequestOf
  rw [if_pos rfl]
  rcases hs with ⟨rfl, hv⟩ | ⟨rfl, hv⟩ <;> simp [hparty, hreason, Nat.mod_eq_of_lt hv]

end Sys2Proof.Machine
end

section
/-! What the mailbox's commands do (spec/17 R162, R172, R596, R600, R602, R603, R612, R613), and the proof of O50. -/

namespace Sys2Proof.Machine

/-! ## The package wakes (R613) -/

theorem pwrState_setPwrState (p : Pkg) {n : Nat} (h : n < 16) : pwrState (setPwrState p n) = n := by
  unfold setPwrState
  split
  · assumption
  · rw [pwrState, fld_congr (waypoint_reg _ _ _ _ _ _), fld_congr (raiseBlock_reg _ _ _ (by decide) (by decide)),
      fld_setFld_self _ _ _ _ _ (by decide) (by decide)]
    exact Nat.mod_eq_of_lt h

/-- Waking asks for rails and opens the gate; it writes no register. -/
theorem reg_wake (p : Pkg) (k : Nat) : reg (wake p) k = reg p k := by
  have htarget (q : Pkg) (r mv : Nat) : reg (target q r mv) k = reg q k := by
    unfold target
    split
    · exact reg_withPwr q _ k
    · rfl
  unfold wake
  exact (foldl_keeps (fun q => reg q k) (fun q d => htarget q d _) _ _).trans (reg_congr rfl rfl rfl k)

theorem workLost_portsLight (p : Pkg) : WorkLost p (portsLight p) := by
  have hlasers : WorkLost p { p with seq := { p.seq with lasers := true } } := workLost_of_regs rfl rfl rfl
  refine hlasers.trans (.foldl (fun q i => ?_) _ _)
  split
  · exact workLost_setPlState _ _ _
  · exact .refl q

/-- R613: STATE reads RESUMING while the package wakes, or waits for the climb back. -/
theorem pwrState_resume (p : Pkg) : pwrState (resume p) = 3 := by
  unfold resume
  split
  · exact pwrState_setPwrState p (by decide)
  · rw [pwrState, fld_congr ((workLost_portsLight _).power.trans (reg_wake _ _))]
    exact pwrState_setPwrState p (by decide)

/-! ## The commands' effects -/

/-- The bits of a written word beyond its low 32 do not matter to a field below them. -/
theorem bitsOf_low32 (v : W64) {hi lo : Nat} (h : hi < 32) : bitsOf (v &&& 0xFFFFFFFF) hi lo = bitsOf v hi lo := by
  refine bitsOf_congr fun i _ hi' => ?_
  have hmask : (0xFFFFFFFF : W64) = BitVec.ofNat 64 (2 ^ 32 - 1) := rfl
  rw [BitVec.getLsbD_and, hmask, BitVec.getLsbD_ofNat, Nat.testBit_two_pow_sub_one]
  simp [show i < 32 by omega, show i < 64 by omega]

theorem fixedFor_takes {arg : W64} (p : Pkg) (hlo : 100 ≤ bitsOf arg 7 0) (hhi : bitsOf arg 7 0 ≤ 220) :
    ∃ q, fixedFor arg p = (some 0, q) ∧ fixedSet q = bitsOf arg 7 0 ∧ fixedOn q = bitOf arg 16 := by
  have hset : bitsOf (arg &&& 0xFFFFFFFF) 7 0 = bitsOf arg 7 0 := bitsOf_low32 arg (by decide)
  have hon : bitOf (arg &&& 0xFFFFFFFF) 16 = bitOf arg 16 := by
    rw [bitOf_eq_bitsOf, bitOf_eq_bitsOf, bitsOf_low32 arg (by decide)]
  obtain ⟨-, hset', hon'⟩ := putFixedPace_takes (v := arg &&& 0xFFFFFFFF) p (by omega)
  exact ⟨_, if_pos ⟨hlo, hhi⟩, hset'.trans hset, hon'.trans hon⟩

theorem fixedFor_refuses {arg : W64} (p : Pkg) (h : bitsOf arg 7 0 < 100 ∨ 220 < bitsOf arg 7 0) :
    fixedFor arg p = (some 2, p) := if_neg (by omega)

theorem putContour_acts (arg : W64) (p : Pkg) : bit (putContour arg p) (key pgPwr 0x2A0) 0 = bitOf arg 0 ∧
    (putContour arg p).pwr.contours = if bitOf arg 1 then [] else p.pwr.contours := by
  have henable : bit (setBit p (key pgPwr 0x2A0) 0 (bitOf arg 0)) (key pgPwr 0x2A0) 0 = bitOf arg 0 :=
    bit_setBit_self _ _ _ _ (by decide)
  unfold putContour
  dsimp only
  split
  · exact ⟨(bit_congr (reg_withPwr _ _ _) 0).trans henable, rfl⟩
  · exact ⟨henable, rfl⟩

theorem owner_lt (p : Pkg) (pg : Nat) : owner p pg < 16 := Nat.mod_lt _ (by decide)

/-- A command for the field book is in progress there, and its mailbox request goes on. -/
theorem fbCommand_requests {p : Pkg} {page cmd setting value : Nat} {arg : W64} (hw : mboxWaits p page cmd arg = true)
    (hown : mboxParty p page = owner p pgHl) (hr : p.fuse.requests = [])
    (hs : setting = 1 ∧ value < 2 ∨ setting = 2 ∧ value < 1024)
    (hj : fbJudge p.fuse ⟨setting, mboxParty p page, 0, 0, value, page⟩ = .accept) :
    let q := serveMbox page cmd arg (some pgHl) (fbFor page setting value) p
    q.fuse.requests = [⟨setting, mboxParty p page, 0, 0, value, page⟩] ∧ bit q (mboxKey page) 30 = true := by
  obtain ⟨-, hh, hbusy⟩ := mboxWaits_facts hw
  have hparty : mboxParty p page < 16 := hown ▸ owner_lt p pgHl
  have hne {off : Nat} (ho : off < 0x1000) : mboxKey page ≠ key pgFb off :=
    key_ne_page (by decide) ho (mboxWaits_page_ne hw (by decide))
  obtain ⟨hreq, hreg⟩ := fbEnqueue_accepts (p := setReg (forParty p (mboxParty p page)) (key pgFb 0x10C) 0x100) hr hh hj
  have hfor : fbFor page setting value p = (none, fbEnqueue (setReg (forParty p (mboxParty p page)) (key pgFb 0x10C) 0x100)
      ⟨setting, mboxParty p page, 0, 0, value, page⟩) := by
    rw [fbFor, ← forParty, putFbRequest, if_pos rfl, fbRequestOf_party p hparty hs]
  dsimp only
  rw [serveMbox_hands hw (by simpa using hown) hfor]
  refine ⟨hreq, ?_⟩
  rw [bit_congr (hreg _ (hne (by decide))), bit_congr (reg_setReg_ne _ _ (hne (by decide))), forParty,
    bit_congr (reg_setReg_ne _ _ (hne (by decide)))]
  exact hbusy

/-- R162: the command of a limit is served for any party. -/
theorem exec_limitCommand {limit : Nat} (h : limit < 3) (s : State) (page : Nat) (arg : W64) :
    exec (if limit = 0 then .setPowerCap page arg else if limit = 1 then .setPaceCeiling page arg
      else .setThermalLimit page arg) s =
      .next (s.onPkg (serveMbox page (0x10 + limit) arg none (limitFor page limit arg))) := by
  match limit, h with
  | 0, _ => rfl
  | 1, _ => rfl
  | 2, _ => rfl

/-! ## O50, clause by clause -/

theorem limitCommand_serves {s : State} {page limit : Nat} {arg : W64} (hl : limit < 3)
    (hw : mboxWaits s.pkg page (0x10 + limit) arg = true) (hp : mboxParty s.pkg page < 4) :
    let q := serveMbox page (0x10 + limit) arg none (limitFor page limit arg) s.pkg
    let v := arg.toNat % 2 ^ limitBits limit
    let slot := limitKey limit (mboxParty s.pkg page)
    (limitValueOk limit v = true → reg q slot = BitVec.ofNat 64 v ∧ bit q (mboxKey page) 31 = true ∧
      bit q (mboxKey page) 30 = false ∧ fld q (mboxKey page) 15 8 = 0) ∧
    (limitValueOk limit v = false → reg q slot = reg s.pkg slot ∧ bit q (mboxKey page) 31 = true ∧
      fld q (mboxKey page) 15 8 = 2) := by
  refine ⟨fun hok => ?_, fun hok => ?_⟩
  · have ht := serveMbox_serves (who := none) (f := limitFor page limit arg) hw (by simp) (if_pos hok) (by decide)
    exact ⟨(ht.reg pgPwr _ (by decide) (by omega)).trans (reg_setReg_self _ _ _), ht.done, ht.idle, ht.result⟩
  · have ht := serveMbox_serves (who := none) (f := limitFor page limit arg) hw (by simp) (if_neg (by simp [hok])) (by decide)
    exact ⟨ht.reg pgPwr _ (by decide) (by omega), ht.done, ht.result⟩

section
variable {s : State} {page : Nat} {arg : W64} (hwho : ∀ pg ∈ some pgQm, mboxParty s.pkg page = owner s.pkg pg)
include hwho

theorem setFixedPace_takes (hw : mboxWaits s.pkg page 0x14 arg = true) (hlo : 100 ≤ bitsOf arg 7 0)
    (hhi : bitsOf arg 7 0 ≤ 220) : ∃ t, exec (.setFixedPace page arg) s = .next t ∧ t.mem = s.mem ∧
      fld t.pkg (key pgPwr 0x200) 7 0 = bitsOf arg 7 0 ∧ bit t.pkg (key pgPwr 0x200) 16 = bitOf arg 16 ∧
      bit t.pkg (mboxKey page) 31 = true ∧ fld t.pkg (mboxKey page) 15 8 = 0 := by
  obtain ⟨q, hq, hset, hon⟩ := fixedFor_takes s.pkg hlo hhi
  have ht := serveMbox_serves hw hwho hq (by decide)
  have hreg := ht.reg pgPwr 0x200 (by decide) (by decide)
  exact ⟨_, rfl, rfl, (fld_congr hreg _ _).trans hset, (bit_congr hreg _).trans hon, ht.done, ht.result⟩

theorem setFixedPace_refuses (hw : mboxWaits s.pkg page 0x14 arg = true)
    (hout : bitsOf arg 7 0 < 100 ∨ 220 < bitsOf arg 7 0) : ∃ t, exec (.setFixedPace page arg) s = .next t ∧
      t.mem = s.mem ∧ t.pkg.pwr = s.pkg.pwr ∧ fld t.pkg (mboxKey page) 15 8 = 2 := by
  have ht := serveMbox_serves hw hwho (fixedFor_refuses s.pkg hout) (by decide)
  exact ⟨_, rfl, rfl, ht.pwr, ht.result⟩

theorem safeHoldResume_resumes (hw : mboxWaits s.pkg page 0x15 arg = true) (hmay : mayResume s.pkg = true) :
    ∃ t, exec (.safeHoldResume page arg) s = .next t ∧ t.mem = s.mem ∧ pwrState t.pkg = 3 ∧
      fld t.pkg (mboxKey page) 15 8 = 0 := by
  have ht := serveMbox_serves (f := resumeFor) hw hwho (if_pos hmay) (by decide)
  exact ⟨_, rfl, rfl, (fld_congr (ht.reg pgPwr 0x100 (by decide) (by decide)) 31 28).trans (pwrState_resume s.pkg), ht.result⟩

theorem safeHoldResume_refuses (hw : mboxWaits s.pkg page 0x15 arg = true) (hmay : mayResume s.pkg = false) :
    ∃ t, exec (.safeHoldResume page arg) s = .next t ∧ t.mem = s.mem ∧ t.pkg.pwr = s.pkg.pwr ∧
      fld t.pkg (mboxKey page) 15 8 = 5 := by
  have ht := serveMbox_serves (f := resumeFor) hw hwho (if_neg (by simp [hmay])) (by decide)
  exact ⟨_, rfl, rfl, ht.pwr, ht.result⟩

theorem contourControl_acts (hw : mboxWaits s.pkg page 0x16 arg = true) :
    ∃ t, exec (.contourControl page arg) s = .next t ∧ t.mem = s.mem ∧ bit t.pkg (key pgPwr 0x2A0) 0 = bitOf arg 0 ∧
      fld t.pkg (mboxKey page) 15 8 = 0 ∧ t.pkg.pwr.contours = if bitOf arg 1 then [] else s.pkg.pwr.contours := by
  have ht := serveMbox_serves (f := fun p => (some 0, putContour arg p)) hw hwho rfl (by decide)
  obtain ⟨henable, hcontours⟩ := putContour_acts arg s.pkg
  exact ⟨_, rfl, rfl, (bit_congr (ht.reg pgPwr 0x2A0 (by decide) (by decide)) 0).trans henable, ht.result,
    (congrArg PwrSt.contours ht.pwr).trans hcontours⟩

end

/-- Settles O50: the waiting request is answered with the result of its command, or goes to the field book. -/
theorem mailboxRequestsAreServed : Obligations.MailboxRequestsAreServed := by
  unfold Obligations.MailboxRequestsAreServed
  refine ⟨?limits, ?refused, ?fieldBook, ?queueManager, ?unknown⟩
  case limits =>
    rintro s page limit cmd v arg c rfl hl rfl hw hp rfl
    obtain ⟨htaken, hrefused⟩ := limitCommand_serves hl hw hp
    exact ⟨fun hok => ⟨_, exec_limitCommand hl s page arg, rfl, htaken hok⟩,
      fun hok => ⟨_, exec_limitCommand hl s page arg, rfl, hrefused hok⟩⟩
  case refused =>
    intro s page cmd who arg c hw hno hc
    obtain ⟨f, hexec⟩ : ∃ f, exec c s = .next (s.onPkg (serveMbox page cmd arg (some who) f)) := by
      rcases hc with ⟨rfl, rfl, rfl⟩ | ⟨rfl, rfl, rfl⟩ | ⟨rfl, rfl, rfl⟩ | ⟨rfl, rfl, rfl⟩ | ⟨rfl, rfl, rfl⟩
      all_goals exact ⟨_, rfl⟩
    have ht := serveMbox_refuses (f := f) hw hno
    exact ⟨_, hexec, rfl, ht.pwr, ht.fuse, ht.done, ht.result⟩
  case fieldBook =>
    intro s page arg r hown hr hj
    refine ⟨?personality, ?ceiling⟩
    case personality =>
      rintro hw rfl
      exact ⟨_, rfl, rfl, fbCommand_requests hw hown hr (.inl ⟨rfl, Nat.mod_lt _ (by decide)⟩) hj⟩
    case ceiling =>
      rintro hw rfl
      exact ⟨_, rfl, rfl, fbCommand_requests hw hown hr (.inr ⟨rfl, Nat.mod_lt _ (by decide)⟩) hj⟩
  case queueManager =>
    intro s page arg hown
    have hwho : ∀ pg ∈ some pgQm, mboxParty s.pkg page = owner s.pkg pg := by simpa using hown
    exact ⟨setFixedPace_takes hwho, setFixedPace_refuses hwho, safeHoldResume_resumes hwho, safeHoldResume_refuses hwho,
      contourControl_acts hwho⟩
  case unknown =>
    intro s page cmd arg hc hw
    have ht := serveMbox_serves (who := none) (f := fun q => (some 0xFF, q)) hw (by simp) rfl (by decide)
    refine ⟨_, rfl, rfl, ?_⟩
    rw [State.onPkg_pkg, if_neg hc]
    exact ⟨ht.pwr, ht.done, ht.result⟩

end Sys2Proof.Machine
end

section
/-! The units and routes of a compute engine (spec/05 R174, R175, R206): what a unit's next code word, an item offered and an
item taken leave of it. -/

namespace Sys2Proof.Machine

/-! ## What a CE's chart and command are read from -/

theorem ceChart_congr {p q : Pkg} {n : Nat} (hslots : (ce q n).slots = (ce p n).slots)
    (hreg : reg q (ceStatus n) = reg p (ceStatus n)) : ceChart q n = ceChart p n := by
  unfold ceChart activeSlot slot
  rw [hslots, fld_congr hreg]

theorem ceCmd_congr {p q : Pkg} {n : Nat} (hcmd : (ce q n).cmd = (ce p n).cmd) (hqm : q.qm = p.qm) :
    ceCmd q n = ceCmd p n := by
  unfold ceCmd cmd
  rw [hcmd, hqm]

@[simp] theorem reg_setCe (p : Pkg) (n : Nat) (c : Ce) (k : Nat) : reg (setCe p n c) k = reg p k := reg_congr rfl rfl rfl k

/-! ## The next code word (R206) -/

section
variable (p : Pkg) (n typ index words : Nat) (c : Ce)

theorem advanceUnit_only : ∃ x, advanceUnit p n typ index words c = { c with progress := x } := by
  unfold advanceUnit
  split
  · exact ⟨_, rfl⟩
  · exact ⟨c.progress, rfl⟩

@[simp] theorem advanceUnit_su : (advanceUnit p n typ index words c).su = c.su := by
  obtain ⟨x, h⟩ := advanceUnit_only p n typ index words c
  rw [h]

@[simp] theorem advanceUnit_movers : (advanceUnit p n typ index words c).movers = c.movers := by
  obtain ⟨x, h⟩ := advanceUnit_only p n typ index words c
  rw [h]

@[simp] theorem advanceUnit_vus : (advanceUnit p n typ index words c).vus = c.vus := by
  obtain ⟨x, h⟩ := advanceUnit_only p n typ index words c
  rw [h]

@[simp] theorem advanceUnit_routes : (advanceUnit p n typ index words c).routes = c.routes := by
  obtain ⟨x, h⟩ := advanceUnit_only p n typ index words c
  rw [h]

@[simp] theorem advanceUnit_misses : (advanceUnit p n typ index words c).misses = c.misses := by
  obtain ⟨x, h⟩ := advanceUnit_only p n typ index words c
  rw [h]

end

/-- From p to q CE n keeps its chart, its command and the places of its units. -/
structure KeepsPlace (p q : Pkg) (n : Nat) : Prop where
  chart : ceChart q n = ceChart p n
  cmd : ceCmd q n = ceCmd p n
  progress : (ce q n).progress = (ce p n).progress

theorem KeepsPlace.refl (p : Pkg) (n : Nat) : KeepsPlace p p n := ⟨rfl, rfl, rfl⟩

theorem KeepsPlace.trans {p q r : Pkg} {n : Nat} (h : KeepsPlace p q n) (g : KeepsPlace q r n) : KeepsPlace p r n :=
  ⟨g.chart.trans h.chart, g.cmd.trans h.cmd, g.progress.trans h.progress⟩

theorem keepsPlace_setCe {p : Pkg} {n : Nat} {c : Ce} (hslots : c.slots = (ce p n).slots) (hcmd : c.cmd = (ce p n).cmd)
    (hprogress : c.progress = (ce p n).progress) : KeepsPlace p (setCe p n c) n := by
  rw [← ce_setCe_self p n c] at hslots hcmd hprogress
  exact ⟨ceChart_congr hslots (reg_setCe _ _ _ _), ceCmd_congr hcmd rfl, hprogress⟩

theorem KeepsPlace.advanceUnit {p q : Pkg} {n : Nat} {c : Ce} (h : KeepsPlace p q n) (hc : c.progress = (ce q n).progress)
    (typ index words : Nat) :
    (advanceUnit q n typ index words c).progress = (advanceUnit p n typ index words (ce p n)).progress := by
  unfold Machine.advanceUnit unitAt
  rw [h.chart, h.cmd, hc, h.progress]
  split
  · rfl
  · exact hc.trans h.progress

/-- A unit whose place in t is the one that `advanceUnit` gives has moved on. -/
theorem movedOn_of_advance {s t : State} {q : Pkg} {c : Ce} {n typ index words : Nat}
    (h : (ce t.pkg n).progress = (advanceUnit q n typ index words c).progress) (hq : KeepsPlace s.pkg q n)
    (hc : c.progress = (ce q n).progress) : MovedOn s t n typ index words := by
  intro u hu
  unfold unitAt
  rw [h, hq.advanceUnit hc]
  simp only [advanceUnit, hu]
  exact SMap.get_set_self _ _ _ _

/-! ## Offers (R175) -/

/-- An item joins the route of a sink. -/
def putItem (x : Item) (m : SMap (List Item)) (r : Route) : SMap (List Item) :=
  SMap.set m r.sink (SMap.get m r.sink [] ++ [x])

theorem putItem_newest (x : Item) (m : SMap (List Item)) (r : Route) (k : Nat)
    (h : k = r.sink ∨ (SMap.get m k []).getLast? = some x) : (SMap.get (putItem x m r) k []).getLast? = some x := by
  unfold putItem
  rw [SMap.get_set]
  split
  · exact List.getLast?_concat
  · exact h.resolve_left ‹_›

theorem foldl_putItem_newest (x : Item) (k : Nat) (l : List Route) (m : SMap (List Item))
    (h : (∃ r ∈ l, k = r.sink) ∨ (SMap.get m k []).getLast? = some x) :
    (SMap.get (l.foldl (putItem x) m) k []).getLast? = some x := by
  induction l generalizing m with
  | nil => exact h.resolve_left (by simp)
  | cons a l ih =>
    refine ih (putItem x m a) ?_
    rcases h with ⟨r, hr, hk⟩ | h
    · rcases List.mem_cons.1 hr with rfl | hr
      · exact .inr (putItem_newest x m r k (.inl hk))
      · exact .inl ⟨r, hr, hk⟩
    · exact .inr (putItem_newest x m a k (.inr h))

theorem offer_eq (ch : Chart) (c : Ce) (source : Nat) (x : Item) :
    offer ch c source x = { c with routes := (sinksOf ch c.phase source).foldl (putItem x) c.routes } := rfl

/-- After an offer the newest item of each sink of the source is the one offered. -/
theorem offer_newest (ch : Chart) (c : Ce) {source : Nat} (x : Item) {r : Route} (hr : r ∈ sinksOf ch c.phase source) :
    (routeItems (offer ch c source x) r.sink).getLast? = some x :=
  foldl_putItem_newest x r.sink _ _ (.inl ⟨r, hr, rfl⟩)

theorem offered_of_routes {s t : State} {n source : Nat} {x : Item} {c : Ce} (hphase : c.phase = (ce s.pkg n).phase)
    (h : (ce t.pkg n).routes = (offer (ceChart s.pkg n) c source x).routes) : Offered s t n source x := by
  intro r hr
  unfold routeItems
  rw [h]
  exact offer_newest (ceChart s.pkg n) c x (by rwa [hphase])

theorem hasCredit_sinks {ch : Chart} {c : Ce} {source : Nat} (h : hasCredit ch c source = true) :
    sinksOf ch c.phase source ≠ [] := by
  intro hnil
  simp [hasCredit, hnil] at h

/-! ## Takes (R175) -/

theorem takeItem_cons {c : Ce} {sink : Nat} {x : Item} {rest : List Item} (h : routeItems c sink = x :: rest) :
    takeItem c sink = some (x, { c with routes := SMap.set c.routes sink rest }) := by
  simp only [takeItem, h]

end Sys2Proof.Machine
end

section
/-! Vector instructions (spec/05 R184 to R189): how lanes make up an item, what an instruction that is ready sees, and what
its result leaves of the CE. -/

namespace Sys2Proof.Machine

/-! ## Lanes of an item (Table 5-5) -/

theorem ofLanes_eq (l : List W32) : ofLanes l = BitVec.ofNat 512 (wordsNat l) := rfl

theorem wordsNat_cons (w : W32) (l : List W32) : wordsNat (w :: l) = w.toNat + 2 ^ 32 * wordsNat l := rfl

theorem wordsNat_append (l m : List W32) : wordsNat (l ++ m) = wordsNat l + 2 ^ (32 * l.length) * wordsNat m := by
  induction l with
  | nil => simp [wordsNat]
  | cons w l ih =>
    rw [List.cons_append, wordsNat_cons, ih, wordsNat_cons, List.length_cons, Nat.mul_succ, pow_add]
    ring

theorem wordsNat_drop (l : List W32) (i : Nat) : wordsNat l / 2 ^ (32 * i) = wordsNat (l.drop i) := by
  induction i generalizing l with
  | zero => simp
  | succ i ih =>
    cases l with
    | nil => simp [wordsNat]
    | cons w l =>
      have hdiv : (w.toNat + 2 ^ 32 * wordsNat l) / 2 ^ 32 = wordsNat l := by
        rw [Nat.add_mul_div_left _ _ (by decide), Nat.div_eq_of_lt w.isLt, Nat.zero_add]
      rw [wordsNat_cons, Nat.mul_succ, Nat.add_comm (32 * i), pow_add, ← Nat.div_div_eq_div_mul, hdiv, ih,
        List.drop_succ_cons]

theorem wordsNat_low (l : List W32) : BitVec.ofNat 32 (wordsNat l) = l.headD 0 := by
  cases l with
  | nil => rfl
  | cons w l =>
    apply BitVec.eq_of_toNat_eq
    rw [BitVec.toNat_ofNat, wordsNat_cons, Nat.add_mul_mod_self_left]
    exact Nat.mod_eq_of_lt w.isLt

theorem lane_ofLanes (l : List W32) {i : Nat} (hi : i < 16) : lane (ofLanes l) i = l.getD i 0 := by
  have hlow : lane (ofLanes l) i = BitVec.ofNat 32 (wordsNat l / 2 ^ (32 * i)) := by
    have hsplit : 512 = 32 * i + (512 - 32 * i) := by omega
    apply BitVec.eq_of_toNat_eq
    rw [lane, ofLanes_eq, BitVec.toNat_ofNat, BitVec.toNat_ofNat, BitVec.toNat_ofNat, hsplit, pow_add,
      Nat.mod_mul_right_div_self]
    exact Nat.mod_mod_of_dvd _ (Nat.pow_dvd_pow 2 (by omega))
  rw [hlow, wordsNat_drop, wordsNat_low]
  simp [List.headD_eq_head?_getD, List.head?_drop, List.getD_eq_getElem?_getD]

theorem wordsNat_lanes (x : Item) (n : Nat) : wordsNat ((List.range n).map (lane x)) = x.toNat % 2 ^ (32 * n) := by
  induction n with
  | zero => simp [wordsNat, Nat.mod_one]
  | succ n ih =>
    have hone : wordsNat [lane x n] = x.toNat / 2 ^ (32 * n) % 2 ^ 32 := by simp [wordsNat, lane]
    rw [List.range_succ, List.map_append, List.map_singleton, wordsNat_append, ih, List.length_map, List.length_range, hone,
      Nat.mul_succ, pow_add, Nat.mod_mul]

theorem ofLanes_lanes (x : Item) : ofLanes (lanes x) = x := by
  apply BitVec.eq_of_toNat_eq
  rw [ofLanes_eq, lanes, wordsNat_lanes, Nat.mod_eq_of_lt x.isLt]
  exact Nat.mod_eq_of_lt x.isLt

@[simp] theorem lanes_length (x : Item) : (lanes x).length = 16 := by simp [lanes]

theorem getD_lanes (x : Item) {l : Nat} (hl : l < 16) : (lanes x).getD l 0 = lane x l := by simp [lanes, hl]

/-! ## Lane by lane -/

theorem getD_map {α β : Type} (f : α → β) {a : List α} {l : Nat} (hl : l < a.length) (d : α) (e : β) :
    (a.map f).getD l e = f (a.getD l d) := by
  simp [List.getD_eq_getElem?_getD, hl]

theorem getD_zipWith {α β γ : Type} (f : α → β → γ) {a : List α} {b : List β} {l : Nat} (ha : l < a.length)
    (hb : l < b.length) (d : α) (e : β) (x : γ) : (List.zipWith f a b).getD l x = f (a.getD l d) (b.getD l e) := by
  simp [List.getD_eq_getElem?_getD, ha, hb]

/-! ## An instruction that is ready (R185) -/

/-- What R185 asks of an instruction before it runs, as far as its result depends on it. -/
structure VuRuns (p : Pkg) (op : Nat) (i : VuArgs) (r : VuRow) : Prop where
  row : vuRow op = some r
  fmt : r.fmts / 2 ^ i.fmt % 2 = 1
  credit : i.dst = 14 → op ≠ 0 → hasCredit (ceChart p i.ce) (ce p i.ce) (0x40 + i.vu) = true

theorem vuReady_runs {p : Pkg} {op : Nat} {i : VuArgs} (h : vuReady p op i = true) : ∃ r, VuRuns p op i r := by
  unfold vuReady at h
  split at h
  case h_1 => simp at h
  case h_2 r hrow =>
    simp only [Bool.and_eq_true, Bool.or_eq_true, bne_iff_ne, ne_eq, beq_iff_eq] at h
    obtain ⟨⟨⟨⟨-, hvalid⟩, -⟩, -⟩, hcredit⟩ := h
    simp only [vuValid, hrow, Bool.and_eq_true, beq_iff_eq] at hvalid
    refine ⟨r, hrow, by tauto, fun hdst hop => ?_⟩
    tauto

section
variable {p : Pkg} {op : Nat} {i : VuArgs} {r : VuRow} (h : VuRuns p op i r)
include h

theorem VuRuns.a_length : (vuInputs p op i).a.length = 16 := by simp [vuInputs, h.row]
theorem VuRuns.b_length : (vuInputs p op i).b.length = 16 := by simp [vuInputs, h.row]
theorem VuRuns.c_length : (vuInputs p op i).c.length = 16 := by simp [vuInputs, h.row]
theorem VuRuns.inputs_fmt : (vuInputs p op i).fmt = i.fmt := by simp [vuInputs, h.row]
theorem VuRuns.inputs_imm : (vuInputs p op i).imm = i.imm := by simp [vuInputs, h.row]
theorem VuRuns.inputs_old : (vuInputs p op i).old = lanes (SMap.get (vu (ce p i.ce) i.vu).regs i.dst 0) := by
  simp [vuInputs, h.row]

end

/-! ## The CE after an instruction -/

theorem popIf_only (c : Ce) (sink : Nat) (pop : Bool) : ∃ x, popIf c sink pop = { c with routes := x } := by
  unfold popIf
  split
  · exact ⟨_, rfl⟩
  · exact ⟨c.routes, rfl⟩

/-- The CE with a result in a vector register, or offered at the output port. -/
def vuPut (ch : Chart) (c : Ce) (i : VuArgs) (res : Item) : Ce :=
  let v := vu c i.vu
  if i.dst = 14 then
    { offer ch c (0x40 + i.vu) res with vus := SMap.set c.vus i.vu { v with outCount := v.outCount + 1 } }
  else { c with vus := SMap.set c.vus i.vu { v with regs := SMap.set v.regs i.dst res } }

theorem vuRetire_eq {p : Pkg} {op : Nat} {i : VuArgs} {r : VuRow} (h : VuRuns p op i r) (hop : op ≠ 0) (res : Item) :
    ∃ x, vuRetire p op i res =
      advanceUnit p i.ce 2 i.vu 1 (vuPut (ceChart p i.ce) { ce p i.ce with routes := x } i res) := by
  obtain ⟨x, hx⟩ := popIf_only (ce p i.ce) (0x20 + 2 * i.vu) (popsA r i)
  obtain ⟨y, hy⟩ := popIf_only (popIf (ce p i.ce) (0x20 + 2 * i.vu) (popsA r i)) (0x21 + 2 * i.vu) (popsB r i)
  refine ⟨y, ?_⟩
  simp only [vuRetire, h.row, if_neg hop, hy, vuPut]
  rw [hx]

theorem vuPut_progress (ch : Chart) (c : Ce) (i : VuArgs) (res : Item) : (vuPut ch c i res).progress = c.progress := by
  unfold vuPut
  dsimp only
  split <;> rfl

/-- The result's lanes stand in the destination register, or in the newest item of the output's first route. -/
theorem lane_vuLeft {s t : State} {i : VuArgs} {c : Ce} {res : Item} (hphase : c.phase = (ce s.pkg i.ce).phase)
    (hcredit : i.dst = 14 → hasCredit (ceChart s.pkg i.ce) (ce s.pkg i.ce) (0x40 + i.vu) = true)
    (hvus : (ce t.pkg i.ce).vus = (vuPut (ceChart s.pkg i.ce) c i res).vus)
    (hroutes : (ce t.pkg i.ce).routes = (vuPut (ceChart s.pkg i.ce) c i res).routes) : vuLeft s t i = res := by
  unfold vuLeft
  by_cases hdst : i.dst = 14
  · rw [vuPut, if_pos hdst] at hroutes
    rw [if_pos hdst]
    cases hsinks : sinksOf (ceChart s.pkg i.ce) (ce s.pkg i.ce).phase (0x40 + i.vu) with
    | nil => exact absurd hsinks (hasCredit_sinks (hcredit hdst))
    | cons r rs =>
      have hnew := offered_of_routes hphase hroutes r (hsinks ▸ List.mem_cons_self)
      dsimp only
      rw [List.getLastD_eq_getLast?, hnew, Option.getD_some]
  · rw [vuPut, if_neg hdst] at hvus
    rw [if_neg hdst, vu, hvus, SMap.get_set_self]
    exact SMap.get_set_self _ _ _ _

/-- No other vector register changes. -/
theorem regs_vuPut_ne (ch : Chart) (c : Ce) (i : VuArgs) (res : Item) {d : Nat} (hd : d ≠ i.dst) :
    SMap.get (vu (vuPut ch c i res) i.vu).regs d 0 = SMap.get (vu c i.vu).regs d 0 := by
  unfold vuPut vu
  dsimp only
  split
  · rw [SMap.get_set_self]
  · rw [SMap.get_set_self, SMap.get_set_ne _ _ _ hd]

theorem vuRun_ready {op : Nat} {i : VuArgs} {p : Pkg} (f : VuIn → List W32) (hr : vuReady p op i = true) (hop : op ≠ 0) :
    vuRun op f i p = addReg (setCe p i.ce (vuRetire p op i (ofLanes (f (vuInputs p op i)))))
      (key (pgCe i.ce) (vuCounter op)) 16 := by
  rw [vuRun, if_pos hr]
  exact if_neg hop

theorem ce_addReg (p : Pkg) (k by' n : Nat) : ce (addReg p k by') n = ce p n := rfl

theorem reg_addReg (p : Pkg) (k by' j : Nat) :
    reg (addReg p k by') j = if j = k then reg p j + BitVec.ofNat 64 by' else reg p j := by
  by_cases h : j = k
  · rw [if_pos h, h]
    exact reg_setReg_self _ _ _
  · rw [if_neg h]
    exact reg_setReg_ne _ _ h

/-- A vector instruction that is ready puts its function's lanes into its destination and changes nothing beside. -/
theorem vuRun_lanes {s : State} {op : Nat} {i : VuArgs} {f : VuIn → List W32} {g : Nat → W32} (hop : op ≠ 0)
    (hr : vuReady s.pkg op i = true) (hf : ∀ l, l < 16 → (f (vuInputs s.pkg op i)).getD l 0 = g l) :
    VuLanes op s (s.onPkg (vuRun op f i)) i g := by
  obtain ⟨r, hrow⟩ := vuReady_runs hr
  obtain ⟨x, hx⟩ := vuRetire_eq hrow hop (ofLanes (f (vuInputs s.pkg op i)))
  have hpkg : (s.onPkg (vuRun op f i)).pkg = _ := vuRun_ready f hr hop
  have hce : ce (s.onPkg (vuRun op f i)).pkg i.ce = _ := (congrArg (ce · i.ce) hpkg).trans
    ((ce_addReg _ _ _ _).trans ((ce_setCe_self _ _ _).trans hx))
  refine ⟨rfl, fun l hl => ?lanes, fun d _ hd => ?regs, fun n hn => ?others, fun k => ?counter, ?place⟩
  case lanes =>
    rw [lane_vuLeft (c := { ce s.pkg i.ce with routes := x }) rfl (fun hdst => hrow.credit hdst hop)
      ((congrArg Ce.vus hce).trans (advanceUnit_vus ..)) ((congrArg Ce.routes hce).trans (advanceUnit_routes ..)), lane_ofLanes _ hl, hf l hl]
  case regs =>
    rw [hce, vu, advanceUnit_vus]
    exact regs_vuPut_ne _ _ i _ hd
  case others =>
    rw [hpkg, ce_addReg, ce_setCe_ne _ _ hn]
  case counter =>
    rw [hpkg, reg_addReg, reg_setCe]
    rfl
  case place => exact movedOn_of_advance (congrArg Ce.progress hce) (.refl _ _) (vuPut_progress ..)

/-- An instruction whose function gives, for every ready state, the lanes `F` names meets R185's and R187's form. -/
theorem vuGives_of_lanes {op : Nat} {c : VuArgs → Instr} {f : VuIn → List W32} {F : State → VuArgs → Nat → W32}
    (hexec : ∀ i s, exec (c i) s = .next (s.onPkg (vuRun op f i))) (hop : op ≠ 0)
    (hf : ∀ (s : State) (i : VuArgs) (r : VuRow), VuRuns s.pkg op i r → ∀ l, l < 16 →
      (f (vuInputs s.pkg op i)).getD l 0 = F s i l) : VuGives op c F := by
  intro s i hr
  obtain ⟨r, hrow⟩ := vuReady_runs hr
  exact ⟨_, hexec i s, vuRun_lanes hop hr (hf s i r hrow)⟩

end Sys2Proof.Machine
end

section
/-! The vector operations of Table 5-6, form by form (spec/05 R185 to R189), and the proofs of O15 and O16. -/

namespace Sys2Proof.Machine

/-! ## What a lane of each form is -/

section
variable {s : State} {op : Nat} {i : VuArgs} {r : VuRow} (h : VuRuns s.pkg op i r) {l : Nat} (hl : l < 16)
include h hl

theorem getD_map_srcA (f : W32 → W32) : ((vuInputs s.pkg op i).a.map f).getD l 0 = f (srcA s op i l) :=
  getD_map f (by rwa [h.a_length]) 0 0

theorem getD_map_srcB (f : W32 → W32) : ((vuInputs s.pkg op i).b.map f).getD l 0 = f (srcB s op i l) :=
  getD_map f (by rwa [h.b_length]) 0 0

theorem getD_zip_srcAB (f : W32 → W32 → W32) :
    (List.zipWith f (vuInputs s.pkg op i).a (vuInputs s.pkg op i).b).getD l 0 = f (srcA s op i l) (srcB s op i l) :=
  getD_zipWith f (by rwa [h.a_length]) (by rwa [h.b_length]) 0 0 0

theorem un_lane (f g : W32 → W32) : (un f g (vuInputs s.pkg op i)).getD l 0 = lane1 op f g s i l := by
  rw [un, getD_map_srcA h hl, h.inputs_fmt]
  rfl

theorem bin_lane (f g : W32 → W32 → W32) : (bin f g (vuInputs s.pkg op i)).getD l 0 = lane2 op f g s i l := by
  rw [bin, getD_zip_srcAB h hl, h.inputs_fmt]
  rfl

theorem tri_lane (f : W32 → W32 → W32 → W32) : (tri f (vuInputs s.pkg op i)).getD l 0 =
    bfOut i.fmt (f (bfIn i.fmt (srcA s op i l)) (bfIn i.fmt (srcB s op i l)) (bfIn i.fmt (srcC s op i l))) := by
  have hzip : l < (List.zip (vuInputs s.pkg op i).a (vuInputs s.pkg op i).b).length := by
    simp [h.a_length, h.b_length, hl]
  have hpair := getD_zipWith Prod.mk (a := (vuInputs s.pkg op i).a) (b := (vuInputs s.pkg op i).b)
    (by rwa [h.a_length]) (by rwa [h.b_length]) 0 0 (0, 0)
  rw [tri, getD_zipWith _ hzip (by rwa [h.c_length]) (0, 0) 0, h.inputs_fmt, List.zip, hpair]
  rfl

omit h in
theorem getD_replicate_lane (x : W32) : (List.replicate 16 x).getD l 0 = x :=
  List.getD_replicate x hl

theorem reduceLanes_lane (f g : W32 → W32 → W32) : (reduceLanes f g (vuInputs s.pkg op i)).getD l 0 =
    if i.fmt = 2 then laneTree g (vuInputs s.pkg op i).a
    else laneTree (fun a b => bfOut i.fmt (f a b)) ((vuInputs s.pkg op i).a.map (bfIn i.fmt)) := by
  rw [reduceLanes, h.inputs_fmt]
  exact getD_replicate_lane hl _

theorem packLanes_lane : (packLanes (vuInputs s.pkg op i)).getD l 0 =
    lane (withBits (SMap.get (vu (ce s.pkg i.ce) i.vu).regs i.dst 0) (16 * packWidth i.imm * (i.imm / 8 + 1) - 1)
      (16 * packWidth i.imm * (i.imm / 8)) (packBytes (vuInputs s.pkg op i).a (packWidth i.imm))) l := by
  rw [packLanes, h.inputs_imm, h.inputs_old, ofLanes_lanes]
  exact getD_lanes _ hl

theorem unpackLanes_lane : (unpackLanes (vuInputs s.pkg op i)).getD l 0 =
    BitVec.ofNat 32 (bitsOf (ofLanes (vuInputs s.pkg op i).a)
      (16 * packWidth i.imm * (i.imm / 8) + packWidth i.imm * l + packWidth i.imm - 1)
      (16 * packWidth i.imm * (i.imm / 8) + packWidth i.imm * l)) := by
  rw [unpackLanes, h.inputs_imm, getD_map _ (by simpa using hl) 0]
  simp [List.getD_eq_getElem?_getD, hl]

end

/-- Operations that Table 5-6 gives INT32 alone run on FMT 2. -/
theorem VuRuns.fmt_int {p : Pkg} {op : Nat} {i : VuArgs} {r : VuRow} (h : VuRuns p op i r) (hr : r.fmts = 4) : i.fmt = 2 := by
  have hbit : (2 ^ 2).testBit i.fmt = true := by
    rw [Nat.testBit_eq_decide_div_mod_eq, ← h.fmt, hr]
    simp
  rw [Nat.testBit_two_pow] at hbit
  exact (of_decide_eq_true hbit).symm

theorem sMin_eq (a b : W32) : sMin a b = if a.toInt ≤ b.toInt then a else b := by
  by_cases h : a.toInt ≤ b.toInt
  · rw [if_pos h, sMin, if_neg (by simpa [sLt] using h)]
  · rw [if_neg h, sMin, if_pos (by simpa [sLt] using h)]

theorem sMax_eq (a b : W32) : sMax a b = if a.toInt ≤ b.toInt then b else a := by
  obtain h | h | h := lt_trichotomy a.toInt b.toInt
  · rw [if_pos h.le, sMax, if_pos (by simpa [sLt] using h)]
  · rw [BitVec.toInt_inj.1 h, sMax]
    simp
  · rw [if_neg (not_le.2 h), sMax, if_neg (by simpa [sLt] using h.le)]

/-! ## Instructions of one form -/

section
variable {op : Nat} {c : VuArgs → Instr} (hop : op ≠ 0)
include hop

theorem vuGives_un {f g : W32 → W32} (hexec : ∀ i s, exec (c i) s = .next (s.onPkg (vuRun op (un f g) i))) :
    VuGives op c (lane1 op f g) :=
  vuGives_of_lanes hexec hop fun _ _ _ h _ hl => un_lane h hl f g

theorem vuGives_bin {f g : W32 → W32 → W32} (hexec : ∀ i s, exec (c i) s = .next (s.onPkg (vuRun op (bin f g) i))) :
    VuGives op c (lane2 op f g) :=
  vuGives_of_lanes hexec hop fun _ _ _ h _ hl => bin_lane h hl f g

theorem vuGives_tri {f : W32 → W32 → W32 → W32} (hexec : ∀ i s, exec (c i) s = .next (s.onPkg (vuRun op (tri f) i))) :
    VuGives op c (fun s i l => bfOut i.fmt
      (f (bfIn i.fmt (srcA s op i l)) (bfIn i.fmt (srcB s op i l)) (bfIn i.fmt (srcC s op i l)))) :=
  vuGives_of_lanes hexec hop fun _ _ _ h _ hl => tri_lane h hl f

/-- The INT32 form of an operation that accepts FMT 2 alone. -/
theorem vuGives_int {r : VuRow} (hrow : vuRow op = some r) (hr : r.fmts = 4) {f g : W32 → W32 → W32}
    (hexec : ∀ i s, exec (c i) s = .next (s.onPkg (vuRun op (bin f g) i))) :
    VuGives op c (fun s i l => g (srcA s op i l) (srcB s op i l)) := by
  refine vuGives_of_lanes hexec hop fun s i r' h l hl => ?_
  have hint : i.fmt = 2 := h.fmt_int (by rwa [Option.some.inj (h.row.symm.trans hrow)])
  rw [bin_lane h hl, lane2]
  exact if_pos hint

theorem vuGives_map {f : VuIn → W32 → W32} {g : VuArgs → W32 → W32}
    (hexec : ∀ i s, exec (c i) s = .next (s.onPkg (vuRun op (fun x => x.a.map (f x)) i)))
    (hfg : ∀ (x : VuIn) (i : VuArgs), x.imm = i.imm → f x = g i) :
    VuGives op c (fun s i l => g i (srcA s op i l)) := by
  refine vuGives_of_lanes hexec hop fun s i r h l hl => ?_
  rw [getD_map_srcA h hl, hfg _ i h.inputs_imm]

theorem vuGives_reduce {f g : W32 → W32 → W32}
    (hexec : ∀ i s, exec (c i) s = .next (s.onPkg (vuRun op (reduceLanes f g) i))) :
    VuGives op c (fun s i _ => if i.fmt = 2 then laneTree g (vuInputs s.pkg op i).a
      else laneTree (fun a b => bfOut i.fmt (f a b)) ((vuInputs s.pkg op i).a.map (bfIn i.fmt))) :=
  vuGives_of_lanes hexec hop fun _ _ _ h _ hl => reduceLanes_lane h hl f g

end

/-! ## NOP -/

/-- A NOP that is ready leaves the CE as it was but for the unit's place. -/
theorem vuRun_nop {p : Pkg} {i : VuArgs} (hr : vuReady p 0x00 i = true) (f : VuIn → List W32) :
    vuRun 0x00 f i p = setCe p i.ce (advanceUnit p i.ce 2 i.vu 1 (ce p i.ce)) := by
  rw [vuRun, if_pos hr]
  rfl

/-- Settles O15: the arithmetic is one function of each lane's two or three sources; MIN, MAX and ABS write their comparison of
INT32 lanes in other words; the INT32 operations accept FMT 2 alone. -/
theorem vectorArithmeticAndIntegerOpsWriteTheirLanes : Obligations.VectorArithmeticAndIntegerOpsWriteTheirLanes := by
  unfold Obligations.VectorArithmeticAndIntegerOpsWriteTheirLanes
  refine ⟨⟨?add, ?sub, ?mul, ?fma, ?fms, ?min, ?max, ?abs, ?neg⟩, ?iadd, ?imul, ?and, ?or, ?xor, ?shl, ?shr, ?nop⟩
  case add => exact vuGives_bin (by decide) fun _ _ => rfl
  case sub => exact vuGives_bin (by decide) fun _ _ => rfl
  case mul => exact vuGives_bin (by decide) fun _ _ => rfl
  case fma => exact vuGives_tri (by decide) fun _ _ => rfl
  case fms => exact vuGives_tri (by decide) fun _ _ => rfl
  case min =>
    rw [← funext₂ sMin_eq]
    exact vuGives_bin (by decide) fun _ _ => rfl
  case max =>
    rw [← funext₂ sMax_eq]
    exact vuGives_bin (by decide) fun _ _ => rfl
  case abs =>
    have habs : (fun a : W32 => if a.toInt < 0 then 0 - a else a) = fun a => if sLt a 0 then 0 - a else a := by
      simp [sLt]
    rw [habs]
    exact vuGives_un (by decide) fun _ _ => rfl
  case neg => exact vuGives_un (by decide) fun _ _ => rfl
  case iadd => exact vuGives_int (by decide) rfl rfl fun _ _ => rfl
  case imul => exact vuGives_int (by decide) rfl rfl fun _ _ => rfl
  case and => exact vuGives_int (by decide) rfl rfl fun _ _ => rfl
  case or => exact vuGives_int (by decide) rfl rfl fun _ _ => rfl
  case xor => exact vuGives_int (by decide) rfl rfl fun _ _ => rfl
  case shl =>
    exact vuGives_map (g := fun i a => a <<< (i.imm % 32)) (by decide) (fun _ _ => rfl) fun _ _ himm => by rw [himm]
  case shr =>
    exact vuGives_map (g := fun i a => if i.imm / 32 % 2 = 1 then a.sshiftRight (i.imm % 32) else a >>> (i.imm % 32))
      (by decide) (fun _ _ => rfl) fun _ _ himm => by rw [himm]
  case nop =>
    intro s i hr
    have hpkg : (s.onPkg (vuRun 0x00 (fun _ => []) i)).pkg = _ := vuRun_nop hr (fun _ => [])
    have hce := (congrArg (ce · i.ce) hpkg).trans (ce_setCe_self _ _ _)
    refine ⟨_, rfl, rfl, (congrArg Pkg.regs hpkg).trans (setCe_regs _ _ _),
      movedOn_of_advance (congrArg Ce.progress hce) (.refl _ _) rfl, ?_⟩
    unfold vu
    rw [hce, advanceUnit_vus]

/-- Settles O16: functions are one lane's, reductions one value of all lanes, moves pick or cut lanes of a. -/
theorem vectorFunctionsReductionsAndMovesWriteTheirLanes : Obligations.VectorFunctionsReductionsAndMovesWriteTheirLanes := by
  unfold Obligations.VectorFunctionsReductionsAndMovesWriteTheirLanes
  refine ⟨⟨?rcp, ?rsqrt, ?sqrt, ?exp2, ?log2, ?tanh, ?sigmoid, ?gelu, ?silu, ?sinpi, ?cospi, ?ldexp⟩,
    ?rsum, ?rmax, ?rmin, ?mov, ?bcast, ?shuf, ?pack, ?unpack⟩
  case ldexp =>
    refine vuGives_of_lanes (fun _ _ => rfl) (by decide) fun s i r h l hl => ?_
    rw [getD_zip_srcAB h hl, h.inputs_fmt]
  case rsum => exact vuGives_reduce (by decide) fun _ _ => rfl
  case rmax => exact vuGives_reduce (by decide) fun _ _ => rfl
  case rmin => exact vuGives_reduce (by decide) fun _ _ => rfl
  case mov => exact vuGives_of_lanes (fun _ _ => rfl) (by decide) fun _ _ _ _ _ _ => rfl
  case bcast =>
    refine vuGives_of_lanes (fun _ _ => rfl) (by decide) fun s i r h l hl => ?_
    rw [getD_replicate_lane hl, h.inputs_imm]
    rfl
  case shuf =>
    refine vuGives_of_lanes (fun _ _ => rfl) (by decide) fun s i r h l hl => ?_
    rw [getD_map_srcB h hl]
    rfl
  case pack => exact vuGives_of_lanes (fun _ _ => rfl) (by decide) fun _ _ _ h _ hl => packLanes_lane h hl
  case unpack => exact vuGives_of_lanes (fun _ _ => rfl) (by decide) fun _ _ _ h _ hl => unpackLanes_lane h hl
  case rcp | rsqrt | sqrt | exp2 | log2 | tanh | sigmoid | gelu | silu | sinpi | cospi =>
    exact vuGives_un (by decide) fun _ _ => rfl

end Sys2Proof.Machine
end

section
/-! Address generators and movers at the last place of a descriptor (spec/05 R177 to R183, spec/07 R268, spec/10 R353): what
each takes, offers and leaves, and the proof of O18. -/

namespace Sys2Proof.Machine

theorem iterate_stops {f : Pkg → Bool × Pkg} {p q : Pkg} (h : f p = (false, q)) (n : Nat) : iterate f (n + 1) p = q := by
  simp [iterate, h]

theorem iterate_stops_pkg {f : Pkg → Bool × Pkg} {s : State} {q : Pkg} (h : f s.pkg = (false, q)) (n : Nat) :
    (s.onPkg (iterate f (n + 1))).pkg = q := iterate_stops h n

/-! ## Address generators (R177 to R179) -/

/-- The CE after a read generator's last offer. -/
def agOffered (p : Pkg) (d : AgArgs) (x : Item) : Ce :=
  advanceUnit p d.ce 3 d.su 4
    { offer (ceChart p d.ce) (ce p d.ce) d.su x with ag := SMap.set (ce p d.ce).ag (agKey d) (0, x) }

/-- The CE after a write generator's last word. -/
def agTaken (p : Pkg) (d : AgArgs) (word : Nat) (x : Item) (rest : List Item) : Ce :=
  advanceUnit p d.ce 4 d.su 4 { ce p d.ce with
    routes := SMap.set (ce p d.ce).routes (0x10 + d.su) rest
    su := SMap.set (ce p d.ce).su (suKey d.su word) x
    ag := SMap.set (ce p d.ce).ag (agKey d) (0, 0) }

section
variable {p : Pkg} {d : AgArgs} {pos : Nat} {held : Item} (hsu : d.su < 12) (hlive : ceLive p d.ce = true)
  (hat : atAg p d = true) (hag : SMap.get (ce p d.ce).ag (agKey d) (0, 0) = (pos, held)) (hlast : total d.counts ≤ pos + 1)
include hsu hlive hat hag hlast

theorem agOne_reads (hw : d.isWrite = false) (hh : d.hold = false) (hmay : unitMay p d.ce 3 d.su = true)
    (hcredit : hasCredit (ceChart p d.ce) (ce p d.ce) d.su = true) :
    agOne d p = (false, setCe p d.ce (agOffered p d (SMap.get (ce p d.ce).su (suKey d.su (agWord d pos)) 0))) := by
  simp only [agOne, hlive, hsu, hw, hh, hmay, hat, hag, hcredit, hlast, decide_true, Bool.and_self, Bool.false_and,
    Bool.false_eq_true, if_true, if_false, one_mul, Nat.div_one, Nat.reduceEqDiff, false_and]
  rfl

theorem agOne_writes (hw : d.isWrite = true) (hmay : unitMay p d.ce 4 d.su = true) {x : Item} {rest : List Item}
    (hitem : routeItems (ce p d.ce) (0x10 + d.su) = x :: rest) :
    agOne d p = (false, setCe p d.ce (agTaken p d (agWord d pos) x rest)) := by
  simp only [agOne, hlive, hsu, hw, hmay, hat, hag, takeItem_cons hitem, hlast, decide_true, Bool.and_self, Bool.not_true,
    Bool.and_false, Bool.false_eq_true, if_true, if_false, one_mul, Nat.div_one]
  rfl

end

/-! ## What leaves a CE's units where they stand -/

/-- From p to q CE n keeps its chart, its command, its phase, the places of its units and its movers. -/
structure KeepsUnits (p q : Pkg) (n : Nat) : Prop extends KeepsPlace p q n where
  phase : (ce q n).phase = (ce p n).phase
  movers : (ce q n).movers = (ce p n).movers

theorem KeepsUnits.refl (p : Pkg) (n : Nat) : KeepsUnits p p n := ⟨.refl p n, rfl, rfl⟩

theorem KeepsUnits.trans {p q r : Pkg} {n : Nat} (h : KeepsUnits p q n) (g : KeepsUnits q r n) : KeepsUnits p r n :=
  ⟨h.toKeepsPlace.trans g.toKeepsPlace, g.phase.trans h.phase, g.movers.trans h.movers⟩

/-- The lines asked for, the lines that have returned and the caches are no part of what units stand on. -/
theorem keepsUnits_lines (p : Pkg) (n : Nat) (l1 : SMap CLine) (side : List CLine) (misses : List Miss)
    (arrived : List (Nat × CLine)) :
    KeepsUnits p (setCe p n { ce p n with l1 := l1, side := side, misses := misses, arrived := arrived }) n := by
  refine ⟨keepsPlace_setCe rfl rfl rfl, ?_, ?_⟩
  · rw [ce_setCe_self]
  · rw [ce_setCe_self]

theorem keepsUnits_addReg (p : Pkg) (n : Nat) {off : Nat} (by' : Nat) (ho : off < 0x1000) (h : off ≠ 0x100) :
    KeepsUnits p (addReg p (key (pgCe n) off) by') n :=
  ⟨⟨ceChart_congr rfl (reg_setReg_ne _ _ (key_ne _ _ (by decide) ho h.symm)), ceCmd_congr rfl rfl, rfl⟩, rfl, rfl⟩

theorem keepsUnits_setHl (p : Pkg) (x : HlSt) (n : Nat) : KeepsUnits p (setHl p x) n :=
  ⟨⟨ceChart_congr rfl (reg_setHl p x _), ceCmd_congr rfl rfl, rfl⟩, rfl, rfl⟩

/-! ## Requests for lines (R353, R355) -/

theorem readTag_only (p : Pkg) (line : Nat) : ∃ x, (readTag p line).2 = setHl p x := by
  unfold readTag
  split
  · exact ⟨_, rfl⟩
  · exact ⟨p.hl, rfl⟩

/-- The package after a prefetch has asked for a line. -/
def lineAsked (p : Pkg) (n mu line hint cls ctx : Nat) : Pkg :=
  setCe (readTag p line).2 n { ce p n with
    misses := (ce p n).misses ++ [⟨mu, line, true, true, hint, cls, ctx, (readTag p line).1⟩] }

theorem keepsUnits_lineAsked (p : Pkg) (n mu line hint cls ctx : Nat) :
    KeepsUnits p (lineAsked p n mu line hint cls ctx) n := by
  obtain ⟨x, hx⟩ := readTag_only p line
  unfold lineAsked
  rw [hx]
  exact (keepsUnits_setHl p x n).trans (keepsUnits_lines (setHl p x) n (ce p n).l1 (ce p n).side _ (ce p n).arrived)

theorem prefetchLine_cases (p : Pkg) (n mu line hint cls ctx : Nat) :
    prefetchLine p n mu line hint cls ctx = lineAsked p n mu line hint cls ctx ∨
      prefetchLine p n mu line hint cls ctx = p := by
  unfold prefetchLine
  dsimp only
  split
  · exact .inl rfl
  · exact .inr rfl

theorem keepsUnits_prefetchLine (p : Pkg) (n mu line hint cls ctx : Nat) :
    KeepsUnits p (prefetchLine p n mu line hint cls ctx) n := by
  obtain h | h := prefetchLine_cases p n mu line hint cls ctx
  · rw [h]
    exact keepsUnits_lineAsked p n mu line hint cls ctx
  · rw [h]
    exact .refl p n

theorem keepsUnits_prefetchRun (p : Pkg) (d : MuArgs) (c : Cmd) (pos k : Nat) :
    KeepsUnits p (prefetchRun p d c pos k) d.ce := by
  induction k with
  | zero => exact .refl p d.ce
  | succ k ih =>
    unfold prefetchRun
    dsimp only
    split
    · split
      · split
        · exact ih
        · exact ih.trans (keepsUnits_prefetchLine _ _ _ _ _ _ _)
      · exact ih
    · exact ih

/-- A line that has returned for a load, unpoisoned, is its item. -/
theorem readItem_arrived {p : Pkg} {d : MuArgs} {k : Nat} {x : Xlate} {a : Nat × CLine} {va : Int}
    (hva : va = muVa (ceCmd p d.ce) d k) (hin : inExtent (ceCmd p d.ce) d.operand va = true)
    (hx : cmdXlate (ceCmd p d.ce) d.operand va.toNat = some x)
    (ha : (ce p d.ce).arrived.find? (fun y => y.1 == d.mu && y.2.line == x.addr va.toNat / 64) = some a)
    (hp : a.2.poison = false) : ∃ q, readItem d k p = (some a.2.data, q) ∧ KeepsUnits p q d.ce := by
  subst hva
  simp only [readItem, hin, hx, muGet, ha, hp, if_true]
  exact ⟨_, rfl, ((keepsUnits_lines p d.ce (ce p d.ce).l1 (ce p d.ce).side (ce p d.ce).misses _).trans
    (keepsUnits_addReg _ _ 1 (by decide) (by decide))).trans (keepsUnits_prefetchRun _ _ _ _ _)⟩

/-! ## The mover's place (R180) -/

theorem muAdvance_last {d : MuArgs} {c : Ce} (p : Pkg) (h : total d.counts ≤ (mover c d.mu).pos + 1) :
    muAdvance p d c = (false, advanceUnit p d.ce 5 d.mu 8
      { c with movers := SMap.set c.movers d.mu { mover c d.mu with pos := 0, raw := [] } }) := by
  rw [muAdvance, if_neg (by omega)]

/-- The last line of a descriptor is offered, and the mover goes on to its next descriptor. -/
theorem offerLine_last {s t : State} {q : Pkg} {d : MuArgs} (x : Item) (hq : KeepsUnits s.pkg q d.ce)
    (h : total d.counts ≤ (mover (ce s.pkg d.ce) d.mu).pos + 1) :
    (offerLine d x q).1 = false ∧ (t.pkg = (offerLine d x q).2 →
      Offered s t d.ce (0x50 + d.mu) x ∧ MovedOn s t d.ce 5 d.mu 8) := by
  have hm : mover (offer (ceChart q d.ce) (ce q d.ce) (0x50 + d.mu) x) d.mu = mover (ce s.pkg d.ce) d.mu := by
    rw [offer_eq, mover, hq.movers]
    rfl
  have hline := muAdvance_last (c := offer (ceChart q d.ce) (ce q d.ce) (0x50 + d.mu) x) q (by rwa [hm])
  simp only [offerLine, hline]
  refine ⟨trivial, fun ht => ?_⟩
  have hce : ce t.pkg d.ce = _ := (congrArg (ce · d.ce) ht).trans (ce_setCe_self _ _ _)
  refine ⟨offered_of_routes (c := ce q d.ce) hq.phase ?_,
    movedOn_of_advance (congrArg Ce.progress hce) hq.toKeepsPlace rfl⟩
  rw [hce, advanceUnit_routes, hq.chart]

/-! ## Stores (R183, R320) -/

/-- The mover after a line has joined its open packet at position `pos`. -/
def lineJoined (d : MuArgs) (pos : Nat) (m : Mover) (l : PLine) : Mover :=
  if (pos + 1) % packetLines d = 0 then { m with packet := [], closed := m.closed ++ [packetAdd m.packet l] }
  else { m with packet := packetAdd m.packet l }

theorem lineJoined_pos (d : MuArgs) (pos : Nat) (m : Mover) (l : PLine) : (lineJoined d pos m l).pos = m.pos := by
  unfold lineJoined
  split <;> rfl

theorem lineJoined_packets (d : MuArgs) (pos : Nat) (m : Mover) (l : PLine) :
    (lineJoined d pos m l).closed ++ [(lineJoined d pos m l).packet] = m.closed ++
      (if (pos + 1) % packetLines d = 0 then [packetAdd m.packet l, []] else [packetAdd m.packet l]) := by
  unfold lineJoined
  split
  · exact List.append_assoc _ _ _
  · rfl

theorem l1Drop_ce (p : Pkg) (n line : Nat) : (ce (l1Drop p n line) n).movers = (ce p n).movers ∧
    (ce (l1Drop p n line) n).progress = (ce p n).progress := by
  unfold l1Drop
  split
  · rw [ce_setCe_self]
    exact ⟨rfl, rfl⟩
  · exact ⟨rfl, rfl⟩

/-- The last line of a store descriptor joins the packet, and the mover goes on to its next descriptor. -/
theorem storeOne_last {s : State} {op : Nat} {d : MuArgs} {x : Xlate} {item : Item} {rest : List Item} {va : Int} {m : Mover}
    {l : PLine} (hmay : muMay s.pkg op d = true) (hitem : routeItems (ce s.pkg d.ce) (0x54 + d.mu) = item :: rest)
    (hm : m = mover (ce s.pkg d.ce) d.mu) (hva : va = muVa (ceCmd s.pkg d.ce) d m.pos)
    (hin : inExtent (ceCmd s.pkg d.ce) d.operand va = true)
    (hx : cmdXlate (ceCmd s.pkg d.ce) d.operand va.toNat = some x) (hw : x.writable = true)
    (hlast : total d.counts ≤ m.pos + 1)
    (hl : l = ⟨x.addr va.toNat, item, false, (dOperand (ceCmd s.pkg d.ce).desc d.operand).slm == 2, d.ce, d.mu, false, false⟩) :
    ∃ q, storeOne op d s.pkg = (false, q) ∧ ∀ t : State, t.pkg = q → MovedOn s t d.ce 5 d.mu 8 ∧
      (mover (ce t.pkg d.ce) d.mu).closed ++ [(mover (ce t.pkg d.ce) d.mu).packet] = m.closed ++
        (if (m.pos + 1) % packetLines d = 0 then [packetAdd m.packet l, []] else [packetAdd m.packet l]) := by
  subst hva
  let e : Ce := { ce s.pkg d.ce with
    routes := SMap.set (ce s.pkg d.ce).routes (0x54 + d.mu) rest
    movers := SMap.set (ce s.pkg d.ce).movers d.mu (lineJoined d m.pos m l) }
  have he : mover e d.mu = lineJoined d m.pos m l := SMap.get_set_self _ _ _ _
  have hadvance := muAdvance_last (c := e) s.pkg (d := d) (by rw [he, lineJoined_pos]; exact hlast)
  refine ⟨l1Drop (setCe s.pkg d.ce (muAdvance s.pkg d e).2) d.ce (x.addr (muVa (ceCmd s.pkg d.ce) d m.pos).toNat / 64),
    ?_, fun t ht => ?_⟩
  · have hfst : (muAdvance s.pkg d e).1 = false := congrArg Prod.fst hadvance
    subst hm hl
    simp only [storeOne, hmay, takeItem_cons hitem, hin, hx, hw, if_true]
    exact Prod.ext hfst rfl
  · obtain ⟨hmovers, hprogress⟩ := l1Drop_ce (setCe s.pkg d.ce (muAdvance s.pkg d e).2) d.ce
      (x.addr (muVa (ceCmd s.pkg d.ce) d m.pos).toNat / 64)
    rw [← ht, ce_setCe_self, hadvance] at hmovers hprogress
    have hmover : mover (ce t.pkg d.ce) d.mu = { lineJoined d m.pos m l with pos := 0, raw := [] } := by
      rw [mover, hmovers, advanceUnit_movers, ← he]
      exact SMap.get_set_self _ _ _ _
    refine ⟨movedOn_of_advance hprogress (.refl _ _) rfl, ?_⟩
    rw [hmover]
    exact lineJoined_packets d m.pos m l

/-! ## PREFETCH (R353) -/

/-- A PREFETCH descriptor asks for its last line where it is nowhere yet, and the mover goes on to its next descriptor. -/
theorem prefetchOne_last {s : State} {d : MuArgs} {x : Xlate} {va : Int} {line : Nat} (hmay : muMay s.pkg 5 d = true)
    (hon : l1On s.pkg d.ce = true) (hpf : (ce s.pkg d.ce).pfOn = true) (hroom : (missLines (ce s.pkg d.ce)).length < 64)
    (hva : va = muVa (ceCmd s.pkg d.ce) d (mover (ce s.pkg d.ce) d.mu).pos)
    (hin : inExtent (ceCmd s.pkg d.ce) d.operand va = true)
    (hx : cmdXlate (ceCmd s.pkg d.ce) d.operand va.toNat = some x) (hnc : x.nc = false)
    (hline : line = x.addr va.toNat / 64) (hl1 : l1Find (ce s.pkg d.ce) line = none)
    (hside : sideFind (ce s.pkg d.ce) line = none) (hmiss : (ce s.pkg d.ce).misses.any (fun m => m.line == line) = false)
    (hfate : fate s.pkg (line * 64) = .served) (hlast : total d.counts ≤ (mover (ce s.pkg d.ce) d.mu).pos + 1) :
    ∃ q m, prefetchOne d s.pkg = (false, q) ∧ (ce q d.ce).misses = (ce s.pkg d.ce).misses ++ [m] ∧ m.line = line ∧
      m.pf = true ∧ ∀ t : State, t.pkg = q → MovedOn s t d.ce 5 d.mu 8 := by
  subst hva
  let c := ceCmd s.pkg d.ce
  let hint := (dOperand c.desc d.operand).slm
  let q := lineAsked s.pkg d.ce d.mu line hint (dPrio c.desc) c.ctx
  have hasks : prefetchLine s.pkg d.ce d.mu line hint (dPrio c.desc) c.ctx = q := by
    simp [prefetchLine, hon, hpf, hl1, hside, hmiss, hroom, hfate, q, lineAsked]
  have hkeeps : KeepsUnits s.pkg q d.ce := keepsUnits_lineAsked ..
  have hmover : mover (ce q d.ce) d.mu = mover (ce s.pkg d.ce) d.mu := by rw [mover, hkeeps.movers]; rfl
  have hadvance := muAdvance_last (c := ce q d.ce) q (by rwa [hmover])
  refine ⟨setCe q d.ce (muAdvance q d (ce q d.ce)).2,
    ⟨d.mu, line, true, true, hint, dPrio c.desc, c.ctx, (readTag s.pkg line).1⟩, ?_, ?_, rfl, rfl, fun t ht => ?_⟩
  · have hfst : (muAdvance q d (ce q d.ce)).1 = false := congrArg Prod.fst hadvance
    have hfull : decide (64 ≤ (missLines (ce s.pkg d.ce)).length) = false := decide_eq_false (by omega)
    subst hline
    simp only [prefetchOne, hmay, hon, hpf, hfull, hin, hx, hnc, Bool.and_true, Bool.and_false, Bool.not_true,
      Bool.false_eq_true, if_true, if_false]
    rw [hasks]
    exact Prod.ext hfst rfl
  · rw [hadvance, ce_setCe_self, advanceUnit_misses]
    exact congrArg Ce.misses (ce_setCe_self _ _ _)
  · rw [hadvance] at ht
    have hce := (congrArg (ce · d.ce) ht).trans (ce_setCe_self _ _ _)
    exact movedOn_of_advance (congrArg Ce.progress hce) hkeeps.toKeepsPlace rfl

/-! ## O18 -/

/-- Settles O18: at a descriptor's last place each unit's one step is its last, and each clause is what that step leaves. -/
theorem generatorsAndMoversMoveTheirWords : Obligations.GeneratorsAndMoversMoveTheirWords := by
  unfold Obligations.GeneratorsAndMoversMoveTheirWords
  refine ⟨?read, ?write, ?nop, ?load, ?loadExact, ?store, ?prefetch⟩
  case read =>
    intro s d pos held hw hh hsu hlive hmay hat hag hlast hcredit
    have ht := iterate_stops_pkg (agOne_reads hsu hlive hat hag hlast hw hh hmay hcredit) 63
    have hce := (congrArg (ce · d.ce) ht).trans (ce_setCe_self _ _ _)
    exact ⟨_, rfl, rfl, (congrArg Ce.su hce).trans (advanceUnit_su ..),
      offered_of_routes rfl ((congrArg Ce.routes hce).trans (advanceUnit_routes ..)),
      movedOn_of_advance (congrArg Ce.progress hce) (.refl _ _) rfl⟩
  case write =>
    intro s d pos held x rest hw hsu hlive hmay hat hag hlast hitem
    have ht := iterate_stops_pkg (agOne_writes hsu hlive hat hag hlast hw hmay hitem) 63
    have hce := (congrArg (ce · d.ce) ht).trans (ce_setCe_self _ _ _)
    refine ⟨_, rfl, rfl, ?_, ?_, movedOn_of_advance (congrArg Ce.progress hce) (.refl _ _) rfl⟩
    · rw [routeItems, (congrArg Ce.routes hce).trans (advanceUnit_routes ..)]
      exact SMap.get_set_self _ _ _ _
    · rw [(congrArg Ce.su hce).trans (advanceUnit_su ..)]
      exact SMap.get_set_self _ _ _ _
  case nop =>
    intro s d hmay
    have ht : (s.onPkg (doMuNop d)).pkg = _ := if_pos hmay
    have hce := (congrArg (ce · d.ce) ht).trans (ce_setCe_self _ _ _)
    exact ⟨_, rfl, rfl, movedOn_of_advance (congrArg Ce.progress hce) (.refl _ _) rfl,
      (congrArg Ce.movers hce).trans (advanceUnit_movers ..)⟩
  case load =>
    intro s d x a va hmay hcredit hva hin hx ha hp hlast
    obtain ⟨q, hread, hq⟩ := readItem_arrived hva hin hx ha hp
    obtain ⟨hstop, hleaves⟩ := offerLine_last (t := s.onPkg (iterate (loadOne d) 64)) a.2.data hq hlast
    have hone : loadOne d s.pkg = (false, (offerLine d a.2.data q).2) := by
      simp only [loadOne, hmay, hcredit, hread, Bool.and_self, if_true]
      exact Prod.ext hstop rfl
    exact ⟨_, rfl, rfl, hleaves (iterate_stops_pkg hone 63)⟩
  case loadExact =>
    rintro s d _ hmay rfl hcredit hraw hlast
    let x := (canonLines (mover (ce s.pkg d.ce) d.mu).raw).getD
      ((mover (ce s.pkg d.ce) d.mu).pos - (mover (ce s.pkg d.ce) d.mu).pos / 5 * 5) 0
    obtain ⟨hstop, hleaves⟩ := offerLine_last (t := s.onPkg (iterate (loadExactOne d) 128)) x (.refl s.pkg d.ce) hlast
    have hone : loadExactOne d s.pkg = (false, (offerLine d x s.pkg).2) := by
      simp only [loadExactOne, hmay, hcredit, hraw, Nat.lt_irrefl, if_true, if_false]
      exact Prod.ext hstop rfl
    exact ⟨_, rfl, rfl, hleaves (iterate_stops_pkg hone 127)⟩
  case store =>
    intro s d x item rest va m l hitem hm hva hin hx hw hlast hl
    refine ⟨fun hmay => ?_, fun hmay => ?_⟩
    all_goals
      obtain ⟨q, hone, hleaves⟩ := storeOne_last hmay hitem hm hva hin hx hw hlast hl
      exact ⟨_, rfl, rfl, hleaves _ (iterate_stops_pkg hone 63)⟩
  case prefetch =>
    intro s d x va line hmay hon hpf hroom hva hin hx hnc hline hl1 hside hmiss hfate hlast
    obtain ⟨q, m, hone, hmisses, hm, hmpf, hleaves⟩ :=
      prefetchOne_last hmay hon hpf hroom hva hin hx hnc hline hl1 hside hmiss hfate hlast
    have ht := iterate_stops_pkg hone 63
    exact ⟨_, m, rfl, (congrArg (fun p => (ce p d.ce).misses) ht).trans hmisses, hm, hmpf, rfl, hleaves _ ht⟩

end Sys2Proof.Machine
end

section
/-! The end of a command (spec/08 R300 to R304, spec/05 R200, R201): what the head of its ring's queue, its status, and the
release of its CE leave of the commands and of the CE. -/

namespace Sys2Proof.Machine

theorem OnlyLog.qm_eq {p q : Pkg} (h : OnlyLog p q) : q.qm = p.qm := by
  obtain ⟨r, u, f, o, i, rfl⟩ := h
  rfl

theorem cmd_congr {p q : Pkg} (h : q.qm.cmds = p.qm.cmds) (id : Nat) : cmd q id = cmd p id := by
  unfold cmd
  rw [h]

theorem SMap.any_key_set {α : Type} (m : SMap α) (k j : Nat) (v : α) :
    (SMap.set m k v).any (fun x => x.1 == j) = (k == j || m.any (fun x => x.1 == j)) := by
  induction m with
  | nil => simp [SMap.set]
  | cons x t ih =>
    obtain ⟨k', v'⟩ := x
    by_cases hlt : k < k'
    · simp [SMap.set, hlt]
    · by_cases heq : k = k'
      · subst heq
        simp [SMap.set]
      · simp only [SMap.set, hlt, heq, if_false, List.any_cons, ih]
        exact Bool.or_left_comm _ _ _

theorem SMap.get_map_vals {α β : Type} (f : α → β) (m : SMap α) (k : Nat) (d : α) :
    SMap.get (m.map (fun x => (x.1, f x.2)) : SMap β) k (f d) = f (SMap.get m k d) := by
  induction m with
  | nil => rfl
  | cons x t ih =>
    obtain ⟨k', v⟩ := x
    by_cases h : k = k'
    · simp [SMap.get, h]
    · simpa [SMap.get, h] using ih

theorem hasCmd_setCmd (p : Pkg) (id : Nat) (c : Cmd) (j : Nat) : hasCmd (setCmd p id c) j = (id == j || hasCmd p j) :=
  SMap.any_key_set _ _ _ _

/-! ## Heads of pending queues (R120, R291) -/

/-- From p to q only pending queues and the times at which commands came to the head of their rings change. -/
structure OnlyHeads (p q : Pkg) : Prop where
  pkg : ∃ x y, q = { p with spills := x, qm := { p.qm with cmds := y } }
  has : ∀ id, hasCmd q id = hasCmd p id
  cmd : ∀ id, ∃ x y, cmd q id = { cmd p id with waitSince := x, ageFrom := y }

theorem OnlyHeads.refl (p : Pkg) : OnlyHeads p p := ⟨⟨_, _, rfl⟩, fun _ => rfl, fun _ => ⟨_, _, rfl⟩⟩

theorem OnlyHeads.trans {p q r : Pkg} (h : OnlyHeads p q) (g : OnlyHeads q r) : OnlyHeads p r := by
  refine ⟨?_, fun id => (g.has id).trans (h.has id), fun id => ?_⟩
  · obtain ⟨x, y, rfl⟩ := h.pkg
    obtain ⟨x', y', rfl⟩ := g.pkg
    exact ⟨x', y', rfl⟩
  · obtain ⟨x, y, hcmd⟩ := h.cmd id
    obtain ⟨x', y', gcmd⟩ := g.cmd id
    exact ⟨x', y', by rw [gcmd, hcmd]⟩

theorem noteHead_onlyHeads (p : Pkg) (ctx ring : Nat) : OnlyHeads p (noteHead p ctx ring) := by
  unfold noteHead
  split
  case h_2 => exact .refl p
  case h_1 id _ =>
    split
    case isFalse => exact .refl p
    case isTrue h =>
      simp only [Bool.and_eq_true] at h
      refine ⟨⟨_, _, rfl⟩, fun j => ?_, fun j => ?_⟩
      · rw [hasCmd_setCmd]
        by_cases hj : id = j
        · simp [← hj, h.1]
        · simp [hj]
      · by_cases hj : j = id
        · rw [hj, cmd_setCmd_self]
          exact ⟨_, _, rfl⟩
        · rw [cmd_setCmd_ne _ _ hj]
          exact ⟨_, _, rfl⟩

theorem setSpill_onlyHeads (p : Pkg) (ctx ring : Nat) (x : Spill) : OnlyHeads p (setSpill p ctx ring x) :=
  ⟨⟨_, _, rfl⟩, fun _ => rfl, fun _ => ⟨_, _, rfl⟩⟩

theorem settlePending_onlyHeads (p : Pkg) (ctx ring fuel : Nat) : OnlyHeads p (settlePending p ctx ring fuel) := by
  induction fuel generalizing p with
  | zero => exact .refl p
  | succ k ih =>
    unfold settlePending
    split
    · split
      · exact noteHead_onlyHeads p ctx ring
      · exact (setSpill_onlyHeads p ctx ring _).trans (ih _)
    · exact .refl p

theorem OnlyHeads.ce_eq {p q : Pkg} (h : OnlyHeads p q) (n : Nat) : ce q n = ce p n := by
  obtain ⟨x, y, rfl⟩ := h.pkg
  rfl

theorem OnlyHeads.reg_eq {p q : Pkg} (h : OnlyHeads p q) (k : Nat) : reg q k = reg p k := by
  obtain ⟨x, y, rfl⟩ := h.pkg
  exact reg_congr rfl rfl rfl k

theorem OnlyHeads.dirOf_eq {p q : Pkg} (h : OnlyHeads p q) (ctx : Nat) : dirOf q ctx = dirOf p ctx := by
  obtain ⟨x, y, rfl⟩ := h.pkg
  rfl

/-! ## A command has its status (R302) -/

/-- Command `id`, whose completion p's counts settle, is finished in q with a status: DONE turns into DONE_REPEATED where it was
repeated. -/
structure Finished (p q : Pkg) (id status : Nat) : Prop where
  phase : (cmd q id).phase = .finished
  status : (cmd q id).status = if status = 0 ∧ (cmd p id).repeats ≠ 0 then 1 else status

theorem Finished.done {p q : Pkg} {id : Nat} (h : Finished p q id 0) :
    (cmd q id).status = if (cmd p id).repeats = 0 then 0 else 1 := by
  rw [h.status]
  by_cases hr : (cmd p id).repeats = 0 <;> simp [hr]

theorem Finished.failed {p q : Pkg} {id status : Nat} (h : Finished p q id status) (hs : status ≠ 0) :
    (cmd q id).status = status := by
  rw [h.status, if_neg fun hz => hs hz.1]

/-- A command that runs or waits is finished with the status, and no CE changes. -/
theorem finishCmd_finishes {p : Pkg} {id : Nat} (status detail : Nat)
    (h : (cmd p id).phase = .running ∨ (cmd p id).phase = .waiting) : Finished p (finishCmd p id status detail) id status ∧
      ∀ n, ce (finishCmd p id status detail) n = ce p n := by
  have ht : (cmd p id).phase ≠ .trailing := by rcases h with h | h <;> simp [h]
  have hf : ¬ (hasCmd p id = true ∧ (cmd p id).phase = .finished) := by rcases h with h | h <;> simp [h]
  unfold finishCmd
  dsimp only
  rw [if_neg ht, if_neg hf]
  generalize hq : setCmd _ id _ = q
  have hheads := settlePending_onlyHeads q (cmd p id).ctx (cmd p id).ring 64
  obtain ⟨x, y, hcmd⟩ := hheads.cmd id
  refine ⟨⟨?_, ?_⟩, fun n => (hheads.ce_eq n).trans ?_⟩
  · rw [hcmd, ← hq, cmd_setCmd_self]
  · rw [hcmd, ← hq, cmd_setCmd_self]
  · rw [← hq]
    rfl

theorem finishQm_finishes {p : Pkg} {id : Nat} (status detail : Nat)
    (h : (cmd p id).phase = .running ∨ (cmd p id).phase = .waiting) : Finished p (finishQm p id status detail) id status := by
  obtain ⟨hfin, -⟩ := finishCmd_finishes status detail h
  obtain ⟨x, y, hcmd⟩ := (settlePending_onlyHeads (finishCmd p id status detail) (cmd p id).ctx (cmd p id).ring 64).cmd id
  refine ⟨?_, ?_⟩
  · rw [finishQm, hcmd]
    exact hfin.phase
  · rw [finishQm, hcmd]
    exact hfin.status

/-! ## The release of a CE (R200, R351) -/

theorem l1Boundary_keeps (p : Pkg) (n : Nat) : (l1Boundary p n).qm = p.qm ∧
    (ce (l1Boundary p n) n).cmd = (ce p n).cmd ∧ (ce (l1Boundary p n) n).slots = (ce p n).slots := by
  let c := ce p n
  let v := c.laterL1.getD (BitVec.ofNat 64 (bitNat c.pfOn * 4 + c.pfDepth * 32))
  let p1 := setCe p n { (if c.laterInv then c.invalidateAll else c) with
    laterInv := false, laterL1 := none, laterSeed := none, pfOn := bitOf v 2, pfDepth := bitsOf v 7 5 }
  have hregs : ∃ x, l1Boundary p n = { p1 with regs := x } := by
    unfold l1Boundary
    dsimp only
    split <;> split <;> exact ⟨_, rfl⟩
  have hce : (ce p1 n).cmd = c.cmd ∧ (ce p1 n).slots = c.slots := by
    rw [ce_setCe_self]
    by_cases hinv : c.laterInv = true
    · rw [if_pos hinv]
      exact ⟨rfl, rfl⟩
    · rw [if_neg hinv]
      exact ⟨rfl, rfl⟩
  obtain ⟨x, hx⟩ := hregs
  rw [hx]
  exact ⟨rfl, hce⟩

theorem drained_keeps (p : Pkg) (pg : Nat) : (drained p pg).qm = p.qm ∧ (drained p pg).ces = p.ces := by
  have hready := setReady_only p pg false
  unfold drained
  split
  · exact ⟨rfl, rfl⟩
  · exact ⟨hready.qm_eq, hready.ces_eq⟩

theorem ceBoundary_keeps (p : Pkg) (n : Nat) : (ceBoundary p n).qm = p.qm ∧
    (ce (ceBoundary p n) n).cmd = (ce p n).cmd ∧
    (ce (ceBoundary p n) n).slots = (ce p n).slots.map (fun x => (x.1, x.2.boundary p.pace.datum)) := by
  obtain ⟨hqm, hcmd, hslots⟩ := l1Boundary_keeps
    (setCe p n { ce p n with slots := (ce p n).slots.map (fun x => (x.1, x.2.boundary p.pace.datum)) }) n
  rw [ce_setCe_self] at hcmd hslots
  exact ⟨hqm, hcmd, hslots⟩

/-- A CE without its command, before the command boundary. -/
def ceCleared (p : Pkg) (n : Nat) (c : Cmd) : Pkg :=
  let x := ce p n
  let p0 := match x.cmd with
    | some id => dropDemand p id
    | none => p
  setCe p0 n { x with
    cmd := none, lastCtx := some c.ctx, movers := [], routes := [], misses := [], arrived := [], preempt := false,
    paused := false, loadOwed := false }

theorem ceCleared_keeps (p : Pkg) (n : Nat) (c : Cmd) : (ceCleared p n c).qm = p.qm ∧
    (ce (ceCleared p n c) n).cmd = none ∧ (ce (ceCleared p n c) n).slots = (ce p n).slots := by
  unfold ceCleared
  dsimp only
  rw [ce_setCe_self, setCe_qm]
  refine ⟨?_, rfl, rfl⟩
  split <;> rfl

/-- What a CE's page shows once it has no command: RUNNING, the fold count and BUSY fall. -/
def ceIdle (p : Pkg) (n : Nat) : Pkg :=
  setBusy (setReg (setFld p (ceStatus n) 31 30 0) (key (pgCe n) 0x110) 0) (pgCe n) false

theorem ceIdle_keeps (p : Pkg) (n : Nat) : (ceIdle p n).qm = p.qm ∧ (ceIdle p n).ces = p.ces := ⟨rfl, rfl⟩

theorem ceRelease_eq (p : Pkg) (n : Nat) (c : Cmd) :
    ceRelease p n c = drained (ceIdle (ceBoundary (ceCleared p n c) n) n) (pgCe n) := rfl

/-- A released CE has no command, its chart slots have passed the boundary, and no command changes. -/
theorem ceRelease_releases (p : Pkg) (n : Nat) (c : Cmd) : (ceRelease p n c).qm = p.qm ∧
    (ce (ceRelease p n c) n).cmd = none ∧
    ∃ datum, (ce (ceRelease p n c) n).slots = (ce p n).slots.map (fun x => (x.1, x.2.boundary datum)) := by
  obtain ⟨cqm, ccmd, cslots⟩ := ceCleared_keeps p n c
  obtain ⟨bqm, bcmd, bslots⟩ := ceBoundary_keeps (ceCleared p n c) n
  obtain ⟨dqm, dces⟩ := drained_keeps (ceIdle (ceBoundary (ceCleared p n c) n) n) (pgCe n)
  obtain ⟨iqm, ices⟩ := ceIdle_keeps (ceBoundary (ceCleared p n c) n) n
  rw [ceRelease_eq]
  have hce := ce_congr (dces.trans ices) n
  refine ⟨?_, ?_, (ceCleared p n c).pace.datum, ?_⟩
  · rw [dqm, iqm, bqm, cqm]
  · rw [hce, bcmd, ccmd]
  · rw [hce, bslots, cslots]

/-! ## A command ends on its CE (R201, R300) -/

/-- Command `id` has ended on CE n with a status: it is finished, and the CE, its slots at the boundary, has no command. -/
structure EndedOnCe (p q : Pkg) (n id status : Nat) : Prop extends Finished p q id status where
  free : (ce q n).cmd = none
  slots : ∃ datum, (ce q n).slots = (ce p n).slots.map (fun x => (x.1, x.2.boundary datum))

theorem EndedOnCe.slot_empty {p q : Pkg} {n id status i : Nat} (h : EndedOnCe p q n id status)
    (hs : slot (ce p n) i = Slot.empty) : slot (ce q n) i = Slot.empty := by
  obtain ⟨datum, hslots⟩ := h.slots
  have hmap := SMap.get_map_vals (Slot.boundary datum) (ce p n).slots i Slot.empty
  unfold slot at hs ⊢
  rw [hslots]
  rw [hs] at hmap
  exact hmap

theorem cmd_addCmdBeats (p : Pkg) (id n : Nat) : ∃ x, cmd (addCmdBeats p id n) id = { cmd p id with beats := x } :=
  ⟨_, cmd_setCmd_self _ _ _⟩

/-- The package when a run's last waypoint is pushed: the beats have joined the command's. -/
def runEnded (p : Pkg) (n id status : Nat) : Pkg :=
  waypoint (addReg (addCmdBeats p id n) (key (pgCe n) 0x380) 1) (pgCe n) 0x11 (cmdSub (cmd p id)) status

theorem cmd_runEnded (p : Pkg) (n id status : Nat) : ∃ x, cmd (runEnded p n id status) id = { cmd p id with beats := x } :=
  cmd_addCmdBeats p id n

theorem endOnCe_ends {p : Pkg} {n id : Nat} (status detail : Nat) (h : (cmd p id).phase = .running) :
    EndedOnCe p (endOnCe p n id status detail) n id status := by
  obtain ⟨hqm, hfree, hslots⟩ := ceRelease_releases (runEnded p n id (status % 256)) n (cmd p id)
  obtain ⟨x, hcmd⟩ := cmd_runEnded p n id (status % 256)
  have hrel : cmd (ceRelease (runEnded p n id (status % 256)) n (cmd p id)) id = { cmd p id with beats := x } :=
    (cmd_congr (congrArg QmSt.cmds hqm) id).trans hcmd
  obtain ⟨hfin, hces⟩ := finishCmd_finishes (p := ceRelease (runEnded p n id (status % 256)) n (cmd p id)) (id := id)
    status detail (.inl (by rw [hrel, h]))
  have hstatus := hfin.status
  rw [hrel] at hstatus
  exact ⟨⟨hfin.phase, hstatus⟩, (congrArg Ce.cmd (hces n)).trans hfree,
    hslots.imp fun _ => (congrArg Ce.slots (hces n)).trans⟩

theorem ceStop_keeps (p : Pkg) (n : Nat) : (ceStop p n).qm = p.qm ∧ (ce (ceStop p n) n).slots = (ce p n).slots := by
  unfold ceStop
  dsimp only
  rw [ce_setCe_self]
  exact ⟨rfl, rfl⟩

theorem stopWith_ends {p : Pkg} {n id : Nat} (status detail : Nat) (hc : (ce p n).cmd = some id)
    (h : (cmd p id).phase = .running) : EndedOnCe p (stopWith p n status detail) n id status := by
  obtain ⟨hqm, hslots⟩ := ceStop_keeps p n
  have hcmd : cmd (ceStop p n) id = cmd p id := cmd_congr (congrArg QmSt.cmds hqm) id
  have hends := endOnCe_ends (p := ceStop p n) (n := n) (id := id) status detail
    ((congrArg Cmd.phase hcmd).trans h)
  simp only [stopWith, hc]
  refine ⟨⟨hends.phase, ?_⟩, hends.free, ?_⟩
  · rw [hends.status, hcmd]
  · rw [← hslots]
    exact hends.slots

end Sys2Proof.Machine
end

section
/-! The sequencer's words (spec/05 R176, R194, spec/09 R322 to R324): what each leaves of its CE, and the proof of O19. -/

namespace Sys2Proof.Machine

/-! ## The sequencer's next word -/

theorem ce_sqNext (p : Pkg) (n : Nat) : ∃ x, ce (sqNext p n) n = { ce p n with progress := x } := by
  obtain ⟨x, hx⟩ := advanceUnit_only p n 0 0 1 (ce p n)
  exact ⟨x, (ce_setCe_self _ _ _).trans hx⟩

theorem sqNext_movesOn {s t : State} {q : Pkg} {n : Nat} (ht : t.pkg = sqNext q n) (hq : KeepsPlace s.pkg q n) :
    MovedOn s t n 0 0 1 := by
  have hce := (congrArg (ce · n) ht).trans (ce_setCe_self _ _ _)
  exact movedOn_of_advance (congrArg Ce.progress hce) hq rfl

/-- A barrier's or WAIT_IDLE's end leaves the CE as it was but for the marks of the passes and the sequencer's place. -/
theorem ce_passMark (p : Pkg) (n : Nat) : ∃ x y, ce (passMark p n) n = { ce p n with idleMark := x, progress := y } := by
  unfold passMark
  dsimp only
  generalize List.foldl _ _ _ = marks
  obtain ⟨x, hx⟩ := ce_sqNext (setCe p n { ce p n with idleMark := marks }) n
  exact ⟨marks, x, by rw [hx, ce_setCe_self]⟩

theorem passMark_movesOn {s t : State} {q : Pkg} {n : Nat} (ht : t.pkg = passMark q n) (hq : KeepsPlace s.pkg q n) :
    MovedOn s t n 0 0 1 :=
  sqNext_movesOn ht (hq.trans (keepsPlace_setCe rfl rfl rfl))

/-! ## Barriers (R322 to R324) -/

theorem keepsPlace_l1Clear (p : Pkg) (n : Nat) : KeepsPlace p (l1Clear p n) n := keepsPlace_setCe rfl rfl rfl

theorem keepsPlace_closePackets (p : Pkg) (n : Nat) : KeepsPlace p (closePackets p n) n := keepsPlace_setCe rfl rfl rfl

theorem ce_l1Clear (p : Pkg) (n : Nat) : ce (l1Clear p n) n = (ce p n).invalidateAll := ce_setCe_self _ _ _

theorem loadsDone_closePackets (p : Pkg) (n : Nat) : loadsDone (closePackets p n) n = loadsDone p n := by
  unfold loadsDone closePackets
  dsimp only
  rw [ce_setCe_self]

/-- After a barrier that invalidates, the L1 and the side buffer are empty. -/
theorem passMark_l1Clear_empty (p : Pkg) (n : Nat) :
    (ce (passMark (l1Clear p n) n) n).l1 = [] ∧ (ce (passMark (l1Clear p n) n) n).side = [] := by
  obtain ⟨x, y, hce⟩ := ce_passMark (l1Clear p n) n
  rw [hce, ce_l1Clear]
  exact ⟨rfl, rfl⟩

theorem l1_passMark_closePackets (p : Pkg) (n : Nat) : (ce (passMark (closePackets p n) n) n).l1 = (ce p n).l1 := by
  obtain ⟨x, y, hce⟩ := ce_passMark (closePackets p n) n
  unfold closePackets at hce ⊢
  dsimp only at hce ⊢
  rw [hce, ce_setCe_self]

/-- A barrier word or WAIT_IDLE that waits for a unit's pass changes nothing. -/
theorem barriers_wait {p : Pkg} {n : Nat} (h : allIdle p n = false) : doLoadBarrier n p = p ∧ doStoreBarrier n p = p ∧
    doFullBarrier n p = p ∧ doWaitIdle n p = p := by
  simp [doLoadBarrier, doStoreBarrier, doFullBarrier, doWaitIdle, h]

/-! ## PHASE and LOOP (R176, R194) -/

theorem doSqPhase_changes {p : Pkg} {n phase : Nat} (hat : sqAt p n 2 phase = true) (h8 : phase < 8)
    (hch : phase < (ceChart p n).phases)
    (hempty : ∀ r ∈ (ceChart p n).routes, r.phases.testBit (ce p n).phase = true → r.phases.testBit phase = false →
      routeItems (ce p n) r.sink = []) :
    doSqPhase n phase p = sqNext (setCe p n { ce p n with phase := phase }) n := by
  have hclosed : (ceChart p n).routes.all (fun r => !(r.phases.testBit (ce p n).phase && !r.phases.testBit phase) ||
      (routeItems (ce p n) r.sink).isEmpty) = true := by
    rw [List.all_eq_true]
    intro r hr
    by_cases hold : r.phases.testBit (ce p n).phase = true
    · by_cases hnew : r.phases.testBit phase = true
      · simp [hnew]
      · simp [hempty r hr hold (by simpa using hnew)]
    · simp [hold]
  rw [doSqPhase]
  exact if_pos (by rw [hat, decide_eq_true ⟨h8, hch⟩, hclosed]; rfl)

section
variable {p : Pkg} {n target count w pass : Nat} (hat : sqAt p n 3 (target * 4096 + (count - 1)) = true)
  (hw : unitAt (ce p n) 0 0 = (w, pass)) (htarget : target ≤ w) (h1 : 1 ≤ count) (hcount : count ≤ 4096)
include hat hw htarget h1 hcount

theorem doSqLoop_eq : doSqLoop n target count p =
    if SMap.get (ce p n).loops w 0 < count then setCe p n { ce p n with
      loops := SMap.set (ce p n).loops w (SMap.get (ce p n).loops w 0 + 1)
      progress := SMap.set (ce p n).progress (unitKey 0 0) (target, pass) }
    else sqNext (setCe p n { ce p n with loops := SMap.set (ce p n).loops w 0 }) n := by
  simp only [doSqLoop, hw, hat, htarget, h1, hcount, decide_true, Bool.and_self, and_self, if_true]

/-- LOOP goes back to its target and counts while it has gone back fewer than COUNT times. -/
theorem doSqLoop_back (h : SMap.get (ce p n).loops w 0 < count) :
    unitAt (ce (doSqLoop n target count p) n) 0 0 = (target, pass) ∧
      SMap.get (ce (doSqLoop n target count p) n).loops w 0 = SMap.get (ce p n).loops w 0 + 1 := by
  rw [doSqLoop_eq hat hw htarget h1 hcount, if_pos h, ce_setCe_self]
  exact ⟨SMap.get_set_self _ _ _ _, SMap.get_set_self _ _ _ _⟩

theorem doSqLoop_on (h : count ≤ SMap.get (ce p n).loops w 0) :
    doSqLoop n target count p = sqNext (setCe p n { ce p n with loops := SMap.set (ce p n).loops w 0 }) n := by
  rw [doSqLoop_eq hat hw htarget h1 hcount, if_neg (by omega)]

end

/-! ## END (R194) -/

theorem doSqEnd_ends {p : Pkg} {n id : Nat} (hc : (ce p n).cmd = some id) (hat : sqAt p n 1 0 = true)
    (hu : unitsDone p n = true) (hp : packetsDone p n = true) (hm : mustPause p n = false) :
    doSqEnd n p = endOnCe p n id 0 0 := by
  simp [doSqEnd, workEnds, hc, hat, hu, hp, hm]

/-- Settles O19: the words of the command and of its phases and loops by what each does at its place, the barriers by what they
leave once their conditions hold. -/
theorem sequencerWordsControlTheCommandAndWait : Obligations.SequencerWordsControlTheCommandAndWait := by
  unfold Obligations.SequencerWordsControlTheCommandAndWait
  refine ⟨⟨?nop, ?ends, ?phase, ?back, ?on⟩, ?waitIdle, ?load, ?store, ?full, ?waits⟩
  case nop =>
    intro s n hat
    have ht : (s.onPkg (doSqNop n)).pkg = _ := if_pos hat
    exact ⟨_, rfl, sqNext_movesOn ht (.refl _ _), rfl, (congrArg Pkg.regs ht).trans (setCe_regs _ _ _)⟩
  case ends =>
    intro s n id hc hrun hat hu hp hm
    have hend : EndedOnCe s.pkg (s.onPkg (doSqEnd n)).pkg n id 0 := by
      rw [State.onPkg_pkg, doSqEnd_ends hc hat hu hp hm]
      exact endOnCe_ends 0 0 hrun
    exact ⟨_, rfl, rfl, hend.free, hend.phase, hend.done⟩
  case phase =>
    intro s n phase hat h8 hch hempty
    have ht : (s.onPkg (doSqPhase n phase)).pkg = _ := doSqPhase_changes hat h8 hch hempty
    obtain ⟨x, hce⟩ := ce_sqNext (setCe s.pkg n { ce s.pkg n with phase := phase }) n
    rw [ce_setCe_self, ← ht] at hce
    exact ⟨_, rfl, rfl, congrArg Ce.phase hce, sqNext_movesOn ht (keepsPlace_setCe rfl rfl rfl)⟩
  case back =>
    intro s n target count w pass hat hw htarget hcount hlt
    exact ⟨_, rfl, rfl, doSqLoop_back hat hw htarget (by omega) hcount hlt⟩
  case on =>
    intro s n target count w pass hat hw htarget h1 hcount hle
    have ht : (s.onPkg (doSqLoop n target count)).pkg = _ := doSqLoop_on hat hw htarget h1 hcount hle
    obtain ⟨x, hce⟩ := ce_sqNext (setCe s.pkg n { ce s.pkg n with loops := SMap.set (ce s.pkg n).loops w 0 }) n
    rw [ce_setCe_self, ← ht] at hce
    refine ⟨_, rfl, rfl, sqNext_movesOn ht (keepsPlace_setCe rfl rfl rfl), ?_⟩
    rw [congrArg Ce.loops hce]
    exact SMap.get_set_self _ _ _ _
  case waitIdle =>
    intro s n hat hidle
    have ht : (s.onPkg (doWaitIdle n)).pkg = passMark s.pkg n := by simp [doWaitIdle, hat, hidle]
    exact ⟨_, rfl, passMark_movesOn ht (.refl _ _), rfl⟩
  case load =>
    intro s n hat hidle hloads
    have ht : (s.onPkg (doLoadBarrier n)).pkg = passMark (l1Clear s.pkg n) n := by simp [doLoadBarrier, hat, hidle, hloads]
    obtain ⟨hl1, hside⟩ := passMark_l1Clear_empty s.pkg n
    rw [← ht] at hl1 hside
    exact ⟨_, rfl, passMark_movesOn ht (keepsPlace_l1Clear _ _), hl1, hside, rfl⟩
  case store =>
    intro s n hat hidle hpackets
    have ht : (s.onPkg (doStoreBarrier n)).pkg = passMark (closePackets s.pkg n) n := by
      simp [doStoreBarrier, hat, hidle, hpackets]
    have hl1 := l1_passMark_closePackets s.pkg n
    rw [← ht] at hl1
    exact ⟨_, rfl, passMark_movesOn ht (keepsPlace_closePackets _ _), hl1, rfl⟩
  case full =>
    intro s n hat hidle hpackets hloads
    have ht : (s.onPkg (doFullBarrier n)).pkg = passMark (l1Clear (closePackets s.pkg n) n) n := by
      simp [doFullBarrier, hat, hidle, hpackets, loadsDone_closePackets, hloads]
    obtain ⟨hl1, hside⟩ := passMark_l1Clear_empty (closePackets s.pkg n) n
    rw [← ht] at hl1 hside
    exact ⟨_, rfl, passMark_movesOn ht ((keepsPlace_closePackets _ _).trans (keepsPlace_l1Clear _ _)), hl1, hside, rfl⟩
  case waits =>
    intro s n hidle
    obtain ⟨hload, hstore, hfull, hwait⟩ := barriers_wait hidle
    exact ⟨congrArg Host.Outcome.next (State.onPkg_eq_self hload), congrArg Host.Outcome.next (State.onPkg_eq_self hstore),
      congrArg Host.Outcome.next (State.onPkg_eq_self hfull), congrArg Host.Outcome.next (State.onPkg_eq_self hwait)⟩

end Sys2Proof.Machine
end

section
/-! Chart slots and aborts (spec/05 R198, R200 to R202, spec/08 R303): what an abort, a parameter write and an arrived image
leave, and the proof of O23. -/

namespace Sys2Proof.Machine

/-! ## Slots -/

theorem slot_setSlot (p : Pkg) (n i : Nat) (s : Slot) : slot (ce (setSlot p n i s) n) i = s := by
  unfold setSlot
  dsimp only
  rw [ce_setCe_self]
  exact SMap.get_set_self _ _ _ _

/-- The slot that a validated chart takes is current for the handle of its load (R198). -/
theorem slot_installChart (p : Pkg) (n i : Nat) (ch : Chart) : slot (ce (installChart p n i ch) n) i =
    { Slot.empty with handle := (slot (ce p n) i).handle, state := 2, current := true, chart := ch
                      lastRan := (slot (ce p n) i).lastRan } := by
  unfold installChart
  dsimp only
  rw [ce_setCe_self]
  exact SMap.get_set_self _ _ _ _

/-- A counter register that saturates at its 32 bits. -/
theorem regN_bumpReg (p : Pkg) (k : Nat) : regN (bumpReg p k 1 0xFFFFFFFF) k = min 0xFFFFFFFF (regN p k + 1) := by
  unfold bumpReg
  rw [regN, reg_setReg_self, satAdd, BitVec.toNat_ofNat]
  exact Nat.mod_eq_of_lt (by omega)

/-! ## Parameters (R200, R204) -/

theorem putChartParam_puts (n j : Nat) (v : W64) (p : Pkg) :
    let s := slot (ce p n) (fld p (key (pgCe n) 0x11C) 1 0)
    let s' := slot (ce (putChartParam n j v p) n) (fld p (key (pgCe n) 0x11C) 1 0)
    if s.state = 3 ∨ s.endedAt = p.pace.datum + 1 then SMap.get s'.shadow j 0 = v ∧ s'.params = s.params
    else SMap.get s'.params j 0 = v := by
  unfold putChartParam
  dsimp only
  split
  · rw [slot_setSlot]
    exact ⟨SMap.get_set_self _ _ _ _, rfl⟩
  · rw [slot_setSlot]
    exact SMap.get_set_self _ _ _ _

/-! ## Aborts (R201, R202, R303) -/

theorem abortPoint_only (p : Pkg) (n how : Nat) : ∃ x, abortPoint p n how = { p with queues := x } := by
  unfold abortPoint
  split
  · exact ⟨_, rfl⟩
  · exact ⟨p.queues, rfl⟩

theorem putCeAbort_aborts {p : Pkg} {n id : Nat} {v : W64} (hv : bitOf v 0 = true) (hc : (ce p n).cmd = some id)
    (hrun : (cmd p id).phase = .running) : (ce (putCeAbort n v p) n).cmd = none ∧
      (cmd (putCeAbort n v p) id).phase = .finished ∧ (cmd (putCeAbort n v p) id).status = 0x40 := by
  obtain ⟨x, hx⟩ := abortPoint_only p n 0
  have hput : putCeAbort n v p = stopWith { p with queues := x } n 0x40 0 := by
    rw [putCeAbort, hv, hc, hx]
    rfl
  have hends := stopWith_ends (p := { p with queues := x }) (n := n) 0x40 0 hc hrun
  rw [hput]
  exact ⟨hends.free, hends.phase, hends.failed (by decide)⟩

/-- R303: a command whose CE is lost may start again. -/
def MayRestart (c : Cmd) : Prop :=
  dRepeatable c.desc = true ∧ dInPlace c.desc = false ∧ dPlace c.desc / 16384 % 4 ≠ 3 ∧ c.losses < 3

theorem mayRestart_iff (c : Cmd) : MayRestart c ↔ (dRepeatable c.desc && !dInPlace c.desc &&
    !(dPlace c.desc / 16384 % 4 == 3) && decide (c.losses < 3)) = true := by
  simp [MayRestart, and_assoc]

section
variable {p : Pkg} {id : Nat} (n : Nat) (h : (cmd p id).phase = .running)
include h

theorem lossHandle_restarts (hr : MayRestart (cmd p id)) : (cmd (lossHandle p id n) id).phase = .waiting ∧
    (cmd (lossHandle p id n) id).losses = (cmd p id).losses + 1 ∧ ∀ m, ce (lossHandle p id n) m = ce p m := by
  rw [lossHandle, if_neg (by simp [h]), if_pos ((mayRestart_iff _).1 hr), cmd_setCmd_self]
  exact ⟨rfl, rfl, fun _ => rfl⟩

theorem lossHandle_ends (hr : ¬ MayRestart (cmd p id)) : (cmd (lossHandle p id n) id).phase = .finished ∧
    (cmd (lossHandle p id n) id).status = 0x11 ∧ ∀ m, ce (lossHandle p id n) m = ce p m := by
  have hphase : (cmd (setCmd p id { cmd p id with losses := (cmd p id).losses + 1 }) id).phase = .running := by
    rw [cmd_setCmd_self]
    exact h
  obtain ⟨hfin, hces⟩ := finishCmd_finishes 0x11 n (.inl hphase)
  rw [lossHandle, if_neg (by simp [h]), if_neg (mt (mayRestart_iff _).2 hr)]
  exact ⟨hfin.phase, hfin.failed (by decide), hces⟩

end

/-- What becomes in q of the command `c`, number `id`, whose CE is lost: it starts again, or it is UNIT_LOST. -/
def LossHandled (c : Cmd) (q : Pkg) (id : Nat) : Prop :=
  (MayRestart c → (cmd q id).phase = .waiting ∧ (cmd q id).losses = c.losses + 1) ∧
    (¬ MayRestart c → (cmd q id).phase = .finished ∧ (cmd q id).status = 0x11)

theorem lossHandle_handles {p : Pkg} {id : Nat} (n : Nat) (h : (cmd p id).phase = .running) :
    LossHandled (cmd p id) (lossHandle p id n) id ∧ ∀ m, ce (lossHandle p id n) m = ce p m := by
  by_cases hr : MayRestart (cmd p id)
  · obtain ⟨hphase, hlosses, hces⟩ := lossHandle_restarts n h hr
    exact ⟨⟨fun _ => ⟨hphase, hlosses⟩, fun hn => absurd hr hn⟩, hces⟩
  · obtain ⟨hphase, hstatus, hces⟩ := lossHandle_ends n h hr
    exact ⟨⟨fun hy => absurd hy hr, fun _ => ⟨hphase, hstatus⟩⟩, hces⟩

theorem loseOnCe_loses {p : Pkg} {n id : Nat} (hc : (ce p n).cmd = some id) (hrun : (cmd p id).phase = .running) :
    (ce (loseOnCe p n) n).cmd = none ∧ LossHandled (cmd p id) (loseOnCe p n) id := by
  obtain ⟨sqm, -⟩ := ceStop_keeps p n
  obtain ⟨rqm, rfree, -⟩ := ceRelease_releases (runEnded (ceStop p n) n id 0x11) n (cmd p id)
  obtain ⟨x, hbeats⟩ := cmd_runEnded (ceStop p n) n id 0x11
  have hcmd : cmd (ceRelease (runEnded (ceStop p n) n id 0x11) n (cmd p id)) id = { cmd p id with beats := x } := by
    rw [cmd_congr (congrArg QmSt.cmds rqm), hbeats, cmd_congr (congrArg QmSt.cmds sqm)]
  obtain ⟨hloss, hces⟩ := lossHandle_handles (p := ceRelease (runEnded (ceStop p n) n id 0x11) n (cmd p id)) (id := id) n
    ((congrArg Cmd.phase hcmd).trans hrun)
  have hlose : loseOnCe p n = lossHandle (ceRelease (runEnded (ceStop p n) n id 0x11) n (cmd p id)) id n := by
    simp only [loseOnCe, hc]
    rfl
  rw [hcmd] at hloss
  rw [hlose, hces]
  exact ⟨rfree, hloss⟩

theorem doInternalAbort_aborts {p : Pkg} {n id cause : Nat} (hok : ceOk n = true) (hcause : cause ≠ 0)
    (hc : (ce p n).cmd = some id) (hrun : (cmd p id).phase = .running) :
    (ce (doInternalAbort n cause p) n).cmd = none ∧ LossHandled (cmd p id) (doInternalAbort n cause p) id := by
  obtain ⟨x, hx⟩ := abortPoint_only p n 1
  have habort : doInternalAbort n cause p = loseOnCe { p with queues := x } n := by
    rw [doInternalAbort, hok, hc, internalAbort, hx]
    exact if_neg hcause
  rw [habort]
  exact loseOnCe_loses (p := { p with queues := x }) hc hrun

/-! ## Images (R198) -/

section
variable {p : Pkg} {m : Memory} {n i : Nat} {e : Slot} {b : List Nat} (hok : ceOk n = true) (hi : i < 4)
  (he : e = slot (ce p n) i) (hloading : e.state = 1) (hhas : hasCmd p e.forCmd = true)
  (hop : dOpcode (cmd p e.forCmd).desc = 2)
  (hb : b = bytesAt m e.pages e.va (max 64 (min (leAt (bytesAt m e.pages e.va 64) 4 4) 65536)))
  (hclean : poisonAt m e.pages e.va b.length = false)
include hok hi he hloading hhas hop hb hclean

theorem doChartImageArrived_valid (hst : chartStatus b = (0, 0)) : doChartImageArrived n i m p =
    waypoint (bumpReg (installChart p n i (parseChart b)) (key (pgCe n) 0x160) 1 0xFFFFFFFF) (pgCe n) 0x13 i 0 := by
  simp [doChartImageArrived, ← he, ← hb, hok, hi, hloading, hhas, hop, hclean, hst]

theorem doChartImageArrived_invalid (hst : (chartStatus b).1 ≠ 0) : doChartImageArrived n i m p =
    endOnCe (waypoint (raiseBlock (bumpReg (setSlot p n i Slot.empty) (key (pgCe n) 0x164) 1 0xFFFFFFFF) (pgCe n) 0)
      (pgCe n) 0x13 i (chartStatus b).1) n e.forCmd (chartStatus b).1 (chartStatus b).2 := by
  simp [doChartImageArrived, ← he, ← hb, hok, hi, hloading, hhas, hop, hclean, hst]

theorem arrivedImage_becomesCurrent (hst : chartStatus b = (0, 0)) :
    let q := doChartImageArrived n i m p
    (slot (ce q n) i).state = 2 ∧ (slot (ce q n) i).handle = e.handle ∧ (slot (ce q n) i).current = true ∧
      (slot (ce q n) i).chart = parseChart b ∧
      regN q (key (pgCe n) 0x160) = min 0xFFFFFFFF (regN p (key (pgCe n) 0x160) + 1) := by
  have hslot := slot_installChart p n i (parseChart b)
  rw [← he] at hslot
  rw [doChartImageArrived_valid hok hi he hloading hhas hop hb hclean hst]
  have hce (x : Pkg) (k off sub st : Nat) : ce (waypoint (bumpReg x k 1 0xFFFFFFFF) off 0x13 sub st) n = ce x n := rfl
  dsimp only
  rw [hce, hslot]
  refine ⟨rfl, rfl, rfl, rfl, ?_⟩
  rw [regN, waypoint_reg]
  exact regN_bumpReg _ _

theorem arrivedImage_failsItsRun (hst : (chartStatus b).1 ≠ 0)
    (hrun : (cmd p e.forCmd).phase = .running) :
    let q := doChartImageArrived n i m p
    (slot (ce q n) i).state = 0 ∧ (ce q n).cmd = none ∧ (cmd q e.forCmd).phase = .finished ∧
      (cmd q e.forCmd).status = (chartStatus b).1 := by
  dsimp only
  rw [doChartImageArrived_invalid hok hi he hloading hhas hop hb hclean hst]
  generalize hq : waypoint _ (pgCe n) 0x13 i (chartStatus b).1 = q
  have hlog : OnlyLog (setSlot p n i Slot.empty) q := hq ▸
    ((bumpReg_only _ _ _ _).trans (raiseBlock_only _ _ _)).log.trans (waypoint_only _ _ _ _ _)
  have hcmd : cmd q e.forCmd = cmd p e.forCmd := cmd_congr (congrArg QmSt.cmds hlog.qm_eq) _
  have hends := endOnCe_ends (p := q) (n := n) (chartStatus b).1 (chartStatus b).2
    ((congrArg Cmd.phase hcmd).trans hrun)
  have hempty := hends.slot_empty (i := i) (by rw [ce_congr hlog.ces_eq, slot_setSlot])
  exact ⟨congrArg Slot.state hempty, hends.free, hends.phase, hends.failed hst⟩

end

/-- Settles O23: each clause is what the operation's own lemma above says. -/
theorem chartsLoadAndCommandsAbort : Obligations.ChartsLoadAndCommandsAbort := by
  unfold Obligations.ChartsLoadAndCommandsAbort
  refine ⟨?ceAbort, ?internalAbort, ?param, ?image⟩
  case ceAbort =>
    intro s rq n id v hok hfate hv hc hrun
    obtain ⟨hfree, hphase, hstatus⟩ := putCeAbort_aborts hv hc hrun
    refine ⟨_, rfl, ?_⟩
    rw [State.onPkg_pkg, doCeAbort, if_pos hok, ifWrites_accepted _ hfate]
    exact ⟨hfree, hphase, hstatus, rfl⟩
  case internalAbort =>
    intro s n id cause hok hcause hc hrun
    obtain ⟨hfree, hloss⟩ := doInternalAbort_aborts hok hcause hc hrun
    refine ⟨_, rfl, hfree, rfl, ?_⟩
    split
    next hr => exact hloss.1 hr
    next hr => exact hloss.2 hr
  case param =>
    rintro s rq n j _ v hok hj hfate rfl
    have hput : doChartParamWrite rq n j v s.pkg = putChartParam n j v s.pkg := by
      rw [doChartParamWrite, if_pos ⟨hok, hj⟩, ifWrites_accepted _ hfate]
    refine ⟨_, rfl, rfl, ?_⟩
    rw [State.onPkg_pkg, hput]
    exact putChartParam_puts n j v s.pkg
  case image =>
    intro s n i e b hok hi he hloading hhas hop hb hclean
    exact ⟨fun hst => ⟨_, rfl, rfl, arrivedImage_becomesCurrent hok hi he hloading hhas hop hb hclean hst⟩,
      fun hst _ hrun => ⟨_, rfl, rfl, arrivedImage_failsItsRun hok hi he hloading hhas hop hb hclean hst hrun⟩⟩

end Sys2Proof.Machine
end

section
/-! NOP, CHART_LOAD and RUN (spec/08 R287, R288, spec/05 R196, R197, R199): what each leaves when it starts, and the proof of
O27. -/

namespace Sys2Proof.Machine

/-! ## A command starts at the head of its ring (R289) -/

theorem mayStart_facts {p : Pkg} {id : Nat} (h : mayStart p id = true) :
    hasCmd p id = true ∧ (cmd p id).phase = .waiting := by
  simp only [mayStart, Bool.and_eq_true, beq_iff_eq] at h
  tauto

/-- A started command runs, and otherwise only its ring's pending queue moves on. -/
theorem startQm_starts (p : Pkg) (id : Nat) :
    OnlyHeads (setCmd p id { cmd p id with phase := .running, startBeat := p.pace.datum }) (startQm p id) :=
  settlePending_onlyHeads _ _ _ _

theorem doCmdNop_finishes {p : Pkg} {id : Nat} (hop : opIs p id 0 = true) (hmay : mayStart p id = true) :
    Finished p (doCmdNop id p) id 0 := by
  obtain ⟨-, hwaiting⟩ := mayStart_facts hmay
  rw [doCmdNop, hop, hmay]
  exact finishQm_finishes 0 0 (.inr hwaiting)

/-! ## CHART_LOAD (R196, R197, R287) -/

theorem loadSlot_congr {p q : Pkg} {n : Nat} (hce : ce q n = ce p n) (hdesc : ∀ id, (cmd q id).desc = (cmd p id).desc) :
    loadSlot q n = loadSlot p n := by
  unfold loadSlot namedSlot
  simp only [hce, hdesc]

/-- A slot that loads the image of `e` for command `id`. -/
def loadingSlot (id : Nat) (e : DirEnt) : Slot :=
  { Slot.empty with handle := e.handle, state := 1, forCmd := id, va := e.va, pages := e.pages }

theorem beginLoad_begins {p : Pkg} {n id j : Nat} {e : DirEnt} (hcur : currentSlot (ce p n) e.handle = none)
    (hfree : (List.range 4).any (fun i => (slot (ce p n) i).state == 1) = false) (hslot : loadSlot p n = some j) :
    beginLoad p n id e = some (false, setSlot p n j (loadingSlot id e)) := by
  simp only [beginLoad, chartCurrent, hcur, hfree, hslot, Bool.false_eq_true, if_false]
  rfl

/-- The one load of a CHART_LOAD begins. -/
theorem chartLoads_one {p : Pkg} {n id j : Nat} (hhas : hasCmd p id = true) (hrun : (cmd p id).phase = .running)
    (hready : ready p (pgCe n) = true) (hcur : currentSlot (ce p n) (dHandle (cmd p id).desc) = none)
    (hfree : (List.range 4).any (fun i => (slot (ce p n) i).state == 1) = false) (hslot : loadSlot p n = some j) :
    chartLoads p id [n] = setSlot p n j (loadingSlot id (ownEntry (cmd p id))) := by
  have hmine : (List.range 4).any (fun i => (slot (ce p n) i).state == 1 && (slot (ce p n) i).forCmd == id) = false := by
    rw [List.any_eq_false] at hfree ⊢
    intro i hi
    simp [hfree i hi]
  have hbegin := beginLoad_begins (id := id) (e := ownEntry (cmd p id)) hcur hfree hslot
  simp only [chartLoads, List.foldl_cons, List.foldl_nil, hhas, hrun, hready, hmine, hbegin]
  rfl

/-- A CHART_LOAD whose directory has taken its entry, before it starts. -/
def loadTaken (p : Pkg) (id crc : Nat) (l : List DirEnt) (old : Option DirEnt) (ces : List Nat) : Pkg :=
  setCmd { setDirs p (cmd p id).ctx l with
    qm := { (setDirs p (cmd p id).ctx l).qm with
      oldDirs := SMap.set p.qm.oldDirs id old, nextOrder := p.qm.nextOrder + 1 } }
    id { cmd p id with ces := ces, foldCrc := crc }

theorem dirOf_loadTaken (p : Pkg) (id crc : Nat) (l : List DirEnt) (old : Option DirEnt) (ces : List Nat) :
    dirOf (loadTaken p id crc l old ces) (cmd p id).ctx = l := SMap.get_set_self _ _ _ _

theorem cmd_loadTaken_ne (p : Pkg) {id k : Nat} (crc : Nat) (l : List DirEnt) (old : Option DirEnt) (ces : List Nat)
    (h : k ≠ id) : cmd (loadTaken p id crc l old ces) k = cmd p k := cmd_setCmd_ne _ _ h

theorem chartLoadGo_one {p : Pkg} {id crc n : Nat} {e : DirEnt} {old : Option DirEnt} {l : List DirEnt}
    (hacc : dirAccept p (cmd p id).ctx id e = some l) (hscope : scopeCes p (dPlace (cmd p id).desc) = [n]) :
    chartLoadStart.chartLoadGo p id crc e old = chartLoads (startQm (loadTaken p id crc l old [n]) id) id [n] := by
  simp only [chartLoadStart.chartLoadGo, hacc, hscope]
  rfl

/-- What a CHART_LOAD of one CE leaves: its directory, itself running, and the slot of the CE that loads its image. -/
structure LoadStarted (q : Pkg) (c : Cmd) (id n j : Nat) (l : List DirEnt) : Prop where
  dir : dirOf q c.ctx = l
  phase : (cmd q id).phase = .running
  slot : slot (ce q n) j = loadingSlot id (ownEntry c)

theorem chartLoads_started {p : Pkg} {id crc n j : Nat} (l : List DirEnt) (old : Option DirEnt)
    (hready : ready p (pgCe n) = true) (hcur : currentSlot (ce p n) (dHandle (cmd p id).desc) = none)
    (hfree : (List.range 4).any (fun i => (slot (ce p n) i).state == 1) = false) (hslot : loadSlot p n = some j) :
    LoadStarted (chartLoads (startQm (loadTaken p id crc l old [n]) id) id [n]) { cmd p id with foldCrc := crc } id n j l := by
  generalize hq : loadTaken p id crc l old [n] = q
  have hheads := startQm_starts q id
  have hqid : cmd q id = { cmd p id with ces := [n], foldCrc := crc } := by rw [← hq]; exact cmd_setCmd_self _ _ _
  obtain ⟨x, y, hcmd⟩ := hheads.cmd id
  rw [cmd_setCmd_self, hqid] at hcmd
  have hce : ce (startQm q id) n = ce p n := by rw [hheads.ce_eq, ← hq]; rfl
  have hdesc (k : Nat) : (cmd (startQm q id) k).desc = (cmd p k).desc := by
    by_cases hk : k = id
    · rw [hk, hcmd]
    · obtain ⟨x', y', hother⟩ := hheads.cmd k
      rw [cmd_setCmd_ne _ _ hk, ← hq, cmd_loadTaken_ne p crc l old [n] hk] at hother
      rw [← hq, hother]
  have hregs (k : Nat) : reg (startQm q id) k = reg p k := by rw [hheads.reg_eq, ← hq]; exact reg_congr rfl rfl rfl k
  have hhas : hasCmd (startQm q id) id = true := by rw [hheads.has, hasCmd_setCmd]; simp
  have hone := chartLoads_one hhas (congrArg Cmd.phase hcmd) (by rwa [ready, bit_congr (hregs _)])
    (by rwa [hce, hdesc]) (by rwa [hce]) (by rwa [loadSlot_congr hce hdesc])
  refine ⟨?_, ?_, ?_⟩
  · rw [hone]
    refine (hheads.dirOf_eq _).trans ?_
    rw [← hq]
    exact dirOf_loadTaken p id crc l old [n]
  · rw [hone]
    exact congrArg Cmd.phase hcmd
  · rw [hone, slot_setSlot, hcmd]
    rfl

section
variable {p : Pkg} {m : Memory} {id n j : Nat} {pages : List Xlate} {l : List DirEnt}
  (hpages : pages = ((cmd p id).pages.filter (fun x => x.1 == 0)).map (·.2))
  (hclean : poisonAt m pages (dOperand (cmd p id).desc 0).addr 64 = false)
  (hsize : leAt (bytesAt m pages (dOperand (cmd p id).desc 0).addr 64) 4 4 ≤ (dOperand (cmd p id).desc 0).extent)
  (hnew : dirFind p (cmd p id).ctx (dHandle (cmd p id).desc) = none)
include hpages hclean hsize hnew

/-- A CHART_LOAD of a new handle, its header read, goes on with a new directory entry. -/
theorem chartLoadStart_new : chartLoadStart p m id =
    let crc := leAt (bytesAt m pages (dOperand (cmd p id).desc 0).addr 64) 60 4
    chartLoadStart.chartLoadGo p id crc
      ⟨dHandle (cmd p id).desc, (dOperand (cmd p id).desc 0).addr, pages, crc, p.qm.nextOrder⟩ none := by
  simp only [chartLoadStart, ← hpages, hclean, if_neg (Nat.not_lt.2 hsize), hnew, Bool.false_eq_true, if_false]

theorem doChartLoad_starts (hop : opIs p id 1 = true) (hmay : mayStart p id = true)
    (hacc : dirAccept p (cmd p id).ctx id ⟨dHandle (cmd p id).desc, (dOperand (cmd p id).desc 0).addr, pages,
      leAt (bytesAt m pages (dOperand (cmd p id).desc 0).addr 64) 60 4, p.qm.nextOrder⟩ = some l)
    (hscope : scopeCes p (dPlace (cmd p id).desc) = [n])
    (hcur : currentSlot (ce p n) (dHandle (cmd p id).desc) = none)
    (hfree : (List.range 4).any (fun i => (slot (ce p n) i).state == 1) = false) (hslot : loadSlot p n = some j) :
    LoadStarted (doChartLoad id m p) { cmd p id with
      foldCrc := leAt (bytesAt m pages (dOperand (cmd p id).desc 0).addr 64) 60 4 } id n j l := by
  have hready : ready p (pgCe n) = true := by
    have hn : n ∈ scopeCes p (dPlace (cmd p id).desc) := hscope ▸ List.mem_singleton_self n
    simp only [scopeCes, List.mem_filter, Bool.and_eq_true] at hn
    exact hn.2.2
  have hload : doChartLoad id m p = chartLoadStart p m id := by rw [doChartLoad, hop, hmay]; rfl
  rw [hload, chartLoadStart_new hpages hclean hsize hnew]
  dsimp only
  rw [chartLoadGo_one hacc hscope]
  exact chartLoads_started l none hready hcur hfree hslot

end

/-! ## RUN (R199) -/

/-- The slot that a RUN starts with is ACTIVE, CE_CHART_HANDLE reads its handle, and no command changes. -/
theorem activate_activates (p : Pkg) (n i : Nat) (c : Cmd) : (slot (ce (activate p n i c) n) i).state = 3 ∧
    reg (activate p n i c) (key (pgCe n) 0x108) = (slot (ce p n) i).handle ∧
    ∀ id, cmd (activate p n i c) id = cmd p id := by
  unfold activate
  dsimp only
  have hkey : key (pgCe n) 0x108 ≠ ceStatus n := key_ne _ _ (by decide) (by decide) (by decide)
  refine ⟨?_, ?_, fun _ => rfl⟩
  · exact congrArg Slot.state (slot_setSlot _ _ _ _)
  · rw [reg_setFld_ne _ _ _ _ hkey, reg_setFld_ne _ _ _ _ hkey]
    exact reg_setReg_self _ _ _

/-- Units at their beginning leave slots, registers and commands as they were. -/
theorem freshUnits_leaves (p : Pkg) (n : Nat) : let q := setCe p n (freshUnits (ce p n))
    (∀ i, slot (ce q n) i = slot (ce p n) i) ∧ (ce q n).progress = [] ∧ (ce q n).long = [] ∧
      (∀ k, reg q k = reg p k) ∧ ∀ id, cmd q id = cmd p id := by
  dsimp only
  rw [ce_setCe_self]
  exact ⟨fun _ => rfl, rfl, rfl, reg_setCe _ _ _, fun _ => rfl⟩

theorem doRun_starts {p : Pkg} {m : Memory} {id n i : Nat} {rest : List Nat} (hop : opIs p id 2 = true)
    (hrun : (cmd p id).phase = .running) (hces : (cmd p id).ces = n :: rest) (hfold : (cmd p id).fold = none)
    (hload : loadingFor p id n = false) (howed : (ce p n).loadOwed = false)
    (hcur : currentSlot (ce p n) (dHandle (cmd p id).desc) = some i) (hc : (ce p n).cmd = some id)
    (hact : (slot (ce p n) (activeSlot p n)).state ≠ 3) (hr : runReason (cmd p id) (slot (ce p n) i).chart = 0) :
    doRun id m p = setCe (activate p n i (cmd p id)) n (freshUnits (ce (activate p n i (cmd p id)) n)) := by
  have hready : ¬ ((ce p n).cmd ≠ some id ∨ (slot (ce p n) (activeSlot p n)).state = 3 ∨ loadingFor p id n = true) := by
    simp [hc, hact, hload]
  simp only [doRun, hop, if_true, hrun, hces, if_neg hready, howed, Bool.false_eq_true, if_false, hfold, runStart, hcur, hr,
    ne_eq, not_true_eq_false]

/-- Settles O27: NOP by the end of its command, CHART_LOAD by its one load, RUN by the slot that it makes ACTIVE. -/
theorem nopsChartLoadsAndRunsStart : Obligations.NopsChartLoadsAndRunsStart := by
  unfold Obligations.NopsChartLoadsAndRunsStart
  refine ⟨?nop, ?chartLoad, ?run⟩
  case nop =>
    intro s id hop hmay
    have hfin := doCmdNop_finishes hop hmay
    exact ⟨_, rfl, hfin.phase, hfin.done, rfl⟩
  case chartLoad =>
    rintro s id n j c pages l rfl hop hmay hpages hclean hsize hnew hacc hscope hcur hfree hslot
    have hstarted := doChartLoad_starts hpages hclean hsize hnew hop hmay hacc hscope hcur hfree hslot
    refine ⟨_, rfl, rfl, hstarted.dir, hstarted.phase, ?_⟩
    rw [State.onPkg_pkg, hstarted.slot, hpages]
    exact ⟨rfl, rfl, rfl, rfl, rfl⟩
  case run =>
    rintro s id n i rest c rfl hop hrun hces hfold hload howed hcur hc hact hr
    obtain ⟨hstate, hhandle, hcmd⟩ := activate_activates s.pkg n i (cmd s.pkg id)
    obtain ⟨fslots, fprogress, flong, freg, fcmd⟩ := freshUnits_leaves (activate s.pkg n i (cmd s.pkg id)) n
    refine ⟨_, rfl, rfl, ?_⟩
    rw [State.onPkg_pkg, doRun_starts hop hrun hces hfold hload howed hcur hc hact hr, fslots, freg, fcmd, hcmd]
    exact ⟨hstate, fprogress, flong, hhandle, hrun⟩

end Sys2Proof.Machine
end

section
/-! Fold boundaries (spec/06 R237 to R240, spec/08 R296, R297): what FOLD, a round's end and FOLD_BOUNDARY leave, and the proof of
O20. -/

namespace Sys2Proof.Machine

/-! ## Latches that settle (R226) -/

theorem passLatches_only (c : Ce) (oct : Nat) : ∃ l o, passLatches c oct = { c with long := l, octets := o } := by
  unfold passLatches
  dsimp only
  split
  · exact ⟨c.long, c.octets, rfl⟩
  · exact ⟨_, _, rfl⟩

theorem foldl_passLatches_only (l : List Nat) (c : Ce) :
    ∃ x o, l.foldl passLatches c = { c with long := x, octets := o } := by
  induction l generalizing c with
  | nil => exact ⟨c.long, c.octets, rfl⟩
  | cons oct l ih =>
    obtain ⟨x, o, hc⟩ := passLatches_only c oct
    obtain ⟨x', o', hl⟩ := ih (passLatches c oct)
    exact ⟨x', o', by rw [List.foldl_cons, hl, hc]⟩

theorem ce_settleLatches (p : Pkg) (n : Nat) : ∃ x o, ce (settleLatches p n) n = { ce p n with long := x, octets := o } := by
  unfold settleLatches
  split
  · exact ⟨(ce p n).long, (ce p n).octets, rfl⟩
  · rw [ce_setCe_self]
    exact foldl_passLatches_only _ _

theorem settleLatches_ces (p : Pkg) (n : Nat) : ∃ x, settleLatches p n = { p with ces := x } := by
  unfold settleLatches
  split
  · exact ⟨p.ces, rfl⟩
  · exact ⟨_, rfl⟩

theorem keepsPlace_settleLatches (p : Pkg) (n : Nat) : KeepsPlace p (settleLatches p n) n := by
  obtain ⟨x, hx⟩ := settleLatches_ces p n
  obtain ⟨l, o, hce⟩ := ce_settleLatches p n
  refine ⟨ceChart_congr (by rw [hce]) ?_, ceCmd_congr (by rw [hce]) (by rw [hx]), by rw [hce]⟩
  rw [hx]
  exact reg_congr rfl rfl rfl _

theorem packetsDone_settleLatches (p : Pkg) (n : Nat) : packetsDone (settleLatches p n) n = packetsDone p n := by
  obtain ⟨x, hx⟩ := settleLatches_ces p n
  obtain ⟨l, o, hce⟩ := ce_settleLatches p n
  unfold packetsDone
  rw [hce, hx]

/-! ## What a stop at a boundary depends on (R238, R484) -/

/-- From p to q nothing but CEs changes, and CE n keeps its command, its pending preemption and whether it is paused. -/
structure KeepsStop (p q : Pkg) (n : Nat) : Prop where
  ces : ∃ x, q = { p with ces := x }
  cmd : (ce q n).cmd = (ce p n).cmd
  preempt : (ce q n).preempt = (ce p n).preempt
  paused : (ce q n).paused = (ce p n).paused

theorem KeepsStop.trans {p q r : Pkg} {n : Nat} (h : KeepsStop p q n) (g : KeepsStop q r n) : KeepsStop p r n := by
  obtain ⟨x, hx⟩ := h.ces
  obtain ⟨y, hy⟩ := g.ces
  exact ⟨⟨y, by rw [hy, hx]⟩, g.cmd.trans h.cmd, g.preempt.trans h.preempt, g.paused.trans h.paused⟩

theorem keepsStop_setCe {p : Pkg} {n : Nat} {c : Ce} (hcmd : c.cmd = (ce p n).cmd) (hpreempt : c.preempt = (ce p n).preempt)
    (hpaused : c.paused = (ce p n).paused) : KeepsStop p (setCe p n c) n := by
  rw [← ce_setCe_self p n c] at hcmd hpreempt hpaused
  exact ⟨⟨_, rfl⟩, hcmd, hpreempt, hpaused⟩

theorem keepsStop_settleLatches (p : Pkg) (n : Nat) : KeepsStop p (settleLatches p n) n := by
  obtain ⟨l, o, hce⟩ := ce_settleLatches p n
  exact ⟨settleLatches_ces p n, by rw [hce], by rw [hce], by rw [hce]⟩

theorem keepsStop_sqNext (p : Pkg) (n : Nat) : KeepsStop p (sqNext p n) n := by
  obtain ⟨x, hx⟩ := advanceUnit_only p n 0 0 1 (ce p n)
  exact keepsStop_setCe (by rw [hx]) (by rw [hx]) (by rw [hx])

theorem KeepsStop.qm_eq {p q : Pkg} {n : Nat} (h : KeepsStop p q n) : q.qm = p.qm := by
  obtain ⟨x, rfl⟩ := h.ces
  rfl

theorem KeepsStop.regN_eq {p q : Pkg} {n : Nat} (h : KeepsStop p q n) (k : Nat) : regN q k = regN p k := by
  obtain ⟨x, rfl⟩ := h.ces
  exact congrArg BitVec.toNat (reg_congr rfl rfl rfl k)

theorem KeepsStop.holdDue_eq {p q : Pkg} {n : Nat} (h : KeepsStop p q n) : holdDue q n = holdDue p n := by
  unfold holdDue
  rw [h.preempt, ceCmd_congr h.cmd h.qm_eq]

theorem ceLive_not_paused {p : Pkg} {n : Nat} (h : ceLive p n = true) : (ce p n).paused = false := by
  simp only [ceLive, Bool.and_eq_true, Bool.not_eq_true'] at h
  exact h.1.2

theorem sqAt_live {p : Pkg} {n op arg : Nat} (h : sqAt p n op arg = true) : ceLive p n = true := by
  simp only [sqAt, Bool.and_eq_true] at h
  exact h.1.1

/-! ## A boundary is passed (R237, R240) -/

/-- The package after a boundary is counted and its waypoint pushed, before the CE stops there. -/
def boundaryCounted (p : Pkg) (n id : Nat) (stops : Bool) : Pkg :=
  let c := cmd p id
  let p1 := addReg (bumpReg p (ceFold n) 1 0xFFFFFFFF) (key (pgCe n) 0x388) 1
  let p2 := setCmd p1 id { c with folds := satAdd 65535 c.folds 1, wasPaused := c.wasPaused || (stops && c.stale) }
  waypoint p2 (pgCe n) 0x12 (cmdSub c)
    (if stops && (ce p n).preempt then regN p2 (ceFold n) % 32768 + 32768 else regN p2 (ceFold n))

section
variable (p : Pkg) (n id : Nat) (stops : Bool)

theorem ce_boundaryCounted : ce (boundaryCounted p n id stops) n = ce p n := rfl

theorem folds_boundaryCounted :
    (cmd (boundaryCounted p n id stops) id).folds = min 65535 ((cmd p id).folds + 1) :=
  congrArg Cmd.folds (cmd_setCmd_self _ _ _)

theorem regN_boundaryCounted :
    regN (boundaryCounted p n id stops) (ceFold n) = min 0xFFFFFFFF (regN p (ceFold n) + 1) := by
  have hkey : ceFold n ≠ key (pgCe n) 0x388 := key_ne _ _ (by decide) (by decide) (by decide)
  have hreg : reg (boundaryCounted p n id stops) (ceFold n) = reg (bumpReg p (ceFold n) 1 0xFFFFFFFF) (ceFold n) :=
    (waypoint_reg _ _ _ _ _ _).trans ((reg_congr rfl rfl rfl _).trans ((reg_addReg _ _ _ _).trans (if_neg hkey)))
  rw [regN, hreg]
  exact regN_bumpReg p (ceFold n)

end

theorem passFold_eq {p : Pkg} {n id : Nat} (stops : Bool) (hc : (ce p n).cmd = some id) : passFold p n stops =
    let q := boundaryCounted p n id stops
    if (stops && holdDue p n) = true then setCe q n { ce q n with paused := true } else q := by
  simp only [passFold, hc]
  rfl

/-- CE n, which runs command `id`, has passed one boundary from p to q: its register and its command count it, and of the CE only
the pause may change, which is taken where the boundary stops the CE and a preemption or a pause is due. -/
structure BoundaryPassed (p q : Pkg) (n id : Nat) (stops : Bool) : Prop where
  counted : regN q (ceFold n) = min 0xFFFFFFFF (regN p (ceFold n) + 1)
  folds : (cmd q id).folds = min 65535 ((cmd p id).folds + 1)
  ce_eq : ce q n = { ce p n with paused := (stops && holdDue p n) || (ce p n).paused }

theorem passFold_passes {p : Pkg} {n id : Nat} (stops : Bool) (hc : (ce p n).cmd = some id) :
    BoundaryPassed p (passFold p n stops) n id stops := by
  have hcounted := regN_boundaryCounted p n id stops
  have hfolds := folds_boundaryCounted p n id stops
  have hce := ce_boundaryCounted p n id stops
  rw [passFold_eq stops hc]
  dsimp only
  by_cases hstop : (stops && holdDue p n) = true
  · rw [if_pos hstop]
    refine ⟨?_, hfolds, ?_⟩
    · rwa [regN, reg_setCe]
    · rw [ce_setCe_self, hce, hstop, Bool.true_or]
  · rw [if_neg hstop]
    refine ⟨hcounted, hfolds, ?_⟩
    rw [hce, Bool.eq_false_of_not_eq_true hstop, Bool.false_or]

/-- A boundary passed after steps that keep what a stop depends on counts from the package before them. -/
theorem passFold_passes_after {p q : Pkg} {n id : Nat} (h : KeepsStop p q n) (stops : Bool)
    (hc : (ce p n).cmd = some id) : regN (passFold q n stops) (ceFold n) = min 0xFFFFFFFF (regN p (ceFold n) + 1) ∧
      (cmd (passFold q n stops) id).folds = min 65535 ((cmd p id).folds + 1) ∧
      ce (passFold q n stops) n = { ce q n with paused := (stops && holdDue p n) || (ce p n).paused } := by
  obtain ⟨hcounted, hfolds, hce⟩ := passFold_passes stops (h.cmd.trans hc)
  rw [h.regN_eq] at hcounted
  rw [cmd_congr (congrArg QmSt.cmds h.qm_eq)] at hfolds
  rw [h.holdDue_eq, h.paused] at hce
  exact ⟨hcounted, hfolds, hce⟩

/-! ## FOLD (R239) -/

theorem progress_sqNext (p : Pkg) (n : Nat) :
    (ce (sqNext p n) n).progress = (advanceUnit p n 0 0 1 (ce p n)).progress := congrArg Ce.progress (ce_setCe_self _ _ _)

theorem doSqFold_passes {p : Pkg} {n : Nat} (hat : sqAt p n 4 0 = true)
    (hoctets : (ce (settleLatches p n) n).octets.all (fun x => x.2.cells.isEmpty && x.2.done == 0) = true)
    (hlong : (ce (settleLatches p n) n).long.all (fun x => x.2 == 0) = true)
    (hbuf : (ce (settleLatches p n) n).ls.bufBits = 0) (hpackets : packetsDone p n = true) :
    doSqFold n p = passFold (sqNext (settleLatches p n) n) n := by
  simp only [doSqFold, hat, hoctets, hlong, hbuf, packetsDone_settleLatches, hpackets, if_true, BEq.rfl, Bool.and_self]

/-! ## The end of a round (R237, R238) -/

/-- The package after the end of a round of CE n, before the boundary is passed. -/
def roundDone (p : Pkg) (n : Nat) : Pkg :=
  setCe (settleLatches p n) n { ce (settleLatches p n) n with round := (ce p n).round + 1 }

theorem keepsStop_roundDone (p : Pkg) (n : Nat) : KeepsStop p (roundDone p n) n :=
  (keepsStop_settleLatches p n).trans (keepsStop_setCe rfl rfl rfl)

theorem round_roundDone (p : Pkg) (n : Nat) : (ce (roundDone p n) n).round = (ce p n).round + 1 :=
  congrArg Ce.round (ce_setCe_self _ _ _)

theorem doRoundEnd_passes {p : Pkg} {n : Nat} (hlive : ceLive p n = true) (hproj : isProject (ceChart p n) = true)
    (hround : (ce p n).round < roundsOf (ceCmd p n) (projectMode (ceChart p n)))
    (hpast : projectedPast p n (ce p n).round = true) (hemit : emittedPast p n (ce p n).round = true)
    (hwait : holdDue p n = true → roundPassed p n (ce p n).round = true ∧ packetsDone p n = true) :
    doRoundEnd n p =
      passFold (roundDone p n) n (!roundAhead p n (ce p n).round && !((ce p n).preempt && endsNow p n)) := by
  have hstop : (!holdDue p n || (roundPassed p n (ce p n).round &&
      (packetsDone p n || roundAhead p n (ce p n).round))) = true := by
    cases hhold : holdDue p n with
    | false => rfl
    | true =>
      obtain ⟨hunits, hpackets⟩ := hwait hhold
      rw [hunits, hpackets]
      rfl
  simp only [doRoundEnd, hlive, hproj, hround, hpast, hemit, hstop, decide_true, Bool.and_self, if_true]
  rfl

/-! ## FOLD_BOUNDARY (R238, R296, R297) -/

/-- A preempted command is out of its CE, its fold record taken. -/
theorem preemptNow_preempts (p : Pkg) (n id i : Nat) : (cmd (preemptNow p n id i) id).phase = .preempted ∧
    (cmd (preemptNow p n id i) id).fold = some i ∧ (ce (preemptNow p n id i) n).cmd = none := by
  unfold preemptNow
  dsimp only
  generalize hq : setCmd _ id _ = q
  obtain ⟨hqm, hfree, -⟩ := ceRelease_releases q n (cmd p id)
  rw [cmd_congr (congrArg QmSt.cmds hqm), ← hq, cmd_setCmd_self]
  exact ⟨rfl, rfl, hq ▸ hfree⟩

theorem pauseEnds_goesOn {p : Pkg} {n : Nat} (h : (ceCmd p n).stale = false) :
    pauseEnds p n = setCe p n { ce p n with paused := false } := by
  simp [pauseEnds, h]

section
variable {s : State} {n id i : Nat} (hc : (ce s.pkg n).cmd = some id) (hfree : freeFold s.pkg = some i)
  (hok : ceOk n = true) (hpaused : (ce s.pkg n).paused = true)
include hc hfree hok hpaused

theorem execFoldBoundary_saves (hpre : (ce s.pkg n).preempt = true) (hon : bit s.pkg (key pgQm 0x118) 0 = true)
    (hpackets : packetsDone s.pkg n = true) : execFoldBoundary n s = .next { s with
      mem := storeAt s.pkg s.mem (foldAddr s.pkg i) 1024 (foldRecord s.pkg n), pkg := preemptNow s.pkg n id i } := by
  simp [execFoldBoundary, hc, hfree, hok, hpaused, hpre, hon, hpackets]

/-- R296: while fold records are disabled the preemption ends without effect. -/
theorem execFoldBoundary_disabled (hpre : (ce s.pkg n).preempt = true) (hoff : bit s.pkg (key pgQm 0x118) 0 = false) :
    execFoldBoundary n s = .next (s.onPkg (fun p => pauseEnds (setCe p n { ce p n with preempt := false }) n)) := by
  simp [execFoldBoundary, hc, hfree, hok, hpaused, hpre, hoff]

theorem execFoldBoundary_resumes (hpre : (ce s.pkg n).preempt = false) :
    execFoldBoundary n s = .next { s with pkg := pauseEnds s.pkg n } := by
  simp [execFoldBoundary, State.onPkg, hc, hfree, hok, hpaused, hpre]

/-- A CE that does not stop for a preemption goes on with its command, no preemption pending. -/
theorem execFoldBoundary_goesOn (hfresh : (ceCmd s.pkg n).stale = false)
    (hstay : (ce s.pkg n).preempt = false ∨ bit s.pkg (key pgQm 0x118) 0 = false) :
    ∃ t, execFoldBoundary n s = .next t ∧ t.mem = s.mem ∧
      ce t.pkg n = { ce s.pkg n with preempt := false, paused := false } := by
  cases hpre : (ce s.pkg n).preempt with
  | false =>
    refine ⟨_, execFoldBoundary_resumes hc hfree hok hpaused hpre, rfl, ?_⟩
    rw [pauseEnds_goesOn hfresh, ce_setCe_self, ← hpre]
  | true =>
    have hoff := hstay.resolve_left (by simp [hpre])
    have hcmd : ceCmd (setCe s.pkg n { ce s.pkg n with preempt := false }) n = ceCmd s.pkg n :=
      ceCmd_congr (by rw [ce_setCe_self]) rfl
    refine ⟨_, execFoldBoundary_disabled hc hfree hok hpaused hpre hoff, rfl, ?_⟩
    rw [State.onPkg_pkg, pauseEnds_goesOn (by rw [hcmd, hfresh]), ce_setCe_self, ce_setCe_self]

end

/-- Settles O20: FOLD and a round's end by the boundary they pass, FOLD_BOUNDARY by whether it saves its command's fold record or
lets its CE go on. -/
theorem foldBoundariesCountAndPreempt : Obligations.FoldBoundariesCountAndPreempt := by
  unfold Obligations.FoldBoundariesCountAndPreempt
  refine ⟨?fold, ?roundEnd, ?saves, ?goesOn⟩
  case fold =>
    rintro s n id _ hc hat rfl hoctets hlong hbuf hpackets
    have ht : (s.onPkg (doSqFold n)).pkg = passFold (sqNext (settleLatches s.pkg n) n) n :=
      doSqFold_passes hat hoctets hlong hbuf hpackets
    have hstop := (keepsStop_settleLatches s.pkg n).trans (keepsStop_sqNext _ n)
    obtain ⟨hcounted, hfolds, hce⟩ := passFold_passes_after hstop true hc
    rw [← ht] at hcounted hfolds hce
    have hplace := (congrArg Ce.progress hce).trans (progress_sqNext (settleLatches s.pkg n) n)
    refine ⟨_, rfl, rfl, movedOn_of_advance hplace (keepsPlace_settleLatches _ _) rfl, hcounted, ?_, hfolds⟩
    rw [hce, ceLive_not_paused (sqAt_live hat), Bool.or_false]
    rfl
  case roundEnd =>
    rintro s n id _ hc hlive rfl hproj hround hpast hemit
    have hends := doRoundEnd_passes hlive hproj hround hpast hemit
    obtain ⟨hcounted, -, hce⟩ := passFold_passes_after (keepsStop_roundDone s.pkg n)
      (!roundAhead s.pkg n (ce s.pkg n).round && !((ce s.pkg n).preempt && endsNow s.pkg n)) hc
    rw [ceLive_not_paused hlive, Bool.or_false] at hce
    have hnext := (congrArg Ce.round hce).trans (round_roundDone s.pkg n)
    constructor
    · intro hhold
      have ht : (s.onPkg (doRoundEnd n)).pkg = _ := hends (by simp [hhold])
      refine ⟨_, rfl, rfl, ?_⟩
      rw [ht]
      exact ⟨hnext, by rw [hce, hhold, Bool.and_false], hcounted⟩
    · intro hhold hunits hpackets hahead hend
      have ht : (s.onPkg (doRoundEnd n)).pkg = _ := hends fun _ => ⟨hunits, hpackets⟩
      refine ⟨_, rfl, rfl, ?_⟩
      rw [ht]
      exact ⟨hnext, by rw [hce, hhold, hahead, hend, Bool.and_false]; rfl⟩
  case saves =>
    intro s n id i hc hfree hok hpaused hpre hon hpackets
    exact ⟨_, execFoldBoundary_saves hc hfree hok hpaused hpre hon hpackets, rfl, preemptNow_preempts s.pkg n id i⟩
  case goesOn =>
    intro s n id i hc hfree hok hpaused hfresh hstay
    obtain ⟨t, ht, hmem, hce⟩ := execFoldBoundary_goesOn hc hfree hok hpaused hfresh hstay
    refine ⟨t, ht, ?_⟩
    rw [hce]
    exact ⟨rfl, rfl, hc, hmem⟩

end Sys2Proof.Machine
end

section
/-! Comparisons, selection and conversions of the vector units (spec/05 R187, Table 5-6, spec/07 R261, R264), and the proof of
O17. -/

namespace Sys2Proof.Machine

/-! ## What a lane of each form is -/

section
variable {s : State} {op : Nat} {i : VuArgs} {r : VuRow} (h : VuRuns s.pkg op i r) {l : Nat} (hl : l < 16)
include h

theorem VuRuns.inputs_gen : (vuInputs s.pkg op i).gen = genSeed (ceCmd s.pkg i.ce) := by simp [vuInputs, h.row]

theorem VuRuns.inputs_idx : (vuInputs s.pkg op i).idx = 16 * (vu (ce s.pkg i.ce) i.vu).outCount := by
  simp [vuInputs, h.row]

include hl

theorem cmpLane_lane (f g : W32 → W32 → Bool) :
    (cmpLane f g (vuInputs s.pkg op i)).getD l 0 = laneIf op f g s i l := by
  rw [cmpLane, getD_zip_srcAB h hl, h.inputs_fmt]
  rfl

/-- A form that takes a lane of a together with its place in the item, as the rounding by the generator does. -/
theorem getD_indexed_srcA (f : W32 × Nat → W32) :
    ((vuInputs s.pkg op i).a.zipIdx.map f).getD l 0 = f (srcA s op i l, l) := by
  have ha : l < (vuInputs s.pkg op i).a.length := by rwa [h.a_length]
  rw [getD_map f (by rwa [List.length_zipIdx]) (0, 0)]
  simp [srcA, List.getD_eq_getElem?_getD, ha]

theorem cvtTo_lane {F : Fmt} {fmt : VuArgs → Nat} (hF : F = fmtOf (fmt i)) :
    (cvtTo F (vuInputs s.pkg op i)).getD l 0 = laneCvt op fmt s i l := by
  rw [cvtTo, getD_indexed_srcA h hl, h.inputs_imm, h.inputs_gen, h.inputs_idx, hF]
  rfl

/-- A form of all three sources, lane by lane. -/
theorem getD_zip_srcABC (f : W32 × W32 → W32 → W32) :
    (List.zipWith f (List.zip (vuInputs s.pkg op i).a (vuInputs s.pkg op i).b) (vuInputs s.pkg op i).c).getD l 0 =
      f (srcA s op i l, srcB s op i l) (srcC s op i l) := by
  have hzip : l < (List.zip (vuInputs s.pkg op i).a (vuInputs s.pkg op i).b).length := by
    simp [h.a_length, h.b_length, hl]
  rw [getD_zipWith f hzip (by rwa [h.c_length]) (0, 0) 0, List.zip,
    getD_zipWith Prod.mk (by rwa [h.a_length]) (by rwa [h.b_length]) 0 0]
  rfl

end

/-! ## Instructions of one form -/

section
variable {op : Nat} {c : VuArgs → Instr} (hop : op ≠ 0)
include hop

theorem vuGives_cmp {f g : W32 → W32 → Bool} (hexec : ∀ i s, exec (c i) s = .next (s.onPkg (vuRun op (cmpLane f g) i))) :
    VuGives op c (laneIf op f g) :=
  vuGives_of_lanes hexec hop fun _ _ _ h _ hl => cmpLane_lane h hl f g

theorem vuGives_cvt (fmt : Nat) (hexec : ∀ i s, exec (c i) s = .next (s.onPkg (vuRun op (cvtTo (fmtOf fmt)) i))) :
    VuGives op c (laneCvt op (fun _ => fmt)) :=
  vuGives_of_lanes hexec hop fun _ _ _ h _ hl => cvtTo_lane h hl rfl

end

/-- The INT32 order that CMPLE tests is the negation of the converse strict one. -/
theorem not_sLt_eq (a b : W32) : (!sLt b a) = decide (a.toInt ≤ b.toInt) := by
  rw [sLt, ← decide_not, decide_eq_decide, not_lt]

/-- Settles O17: comparisons and SEL are one function of each lane's sources; conversions also depend on the lane's place in the
command, which seeds their generator; MXSCALE's scale is one value of both blocks. -/
theorem vectorComparisonsAndConversionsWriteTheirLanes : Obligations.VectorComparisonsAndConversionsWriteTheirLanes := by
  unfold Obligations.VectorComparisonsAndConversionsWriteTheirLanes
  refine ⟨?cmplt, ?cmple, ?cmpeq, ?sel, ?bf16, ?fp16, ?fp8, ?fp4, ?int8, ?i2f, ?f2i, ?widen, ?mxscale⟩
  case cmplt => exact vuGives_cmp (by decide) fun _ _ => rfl
  case cmple =>
    rw [← funext₂ not_sLt_eq]
    exact vuGives_cmp (by decide) fun _ _ => rfl
  case cmpeq => exact vuGives_cmp (by decide) fun _ _ => rfl
  case sel =>
    refine vuGives_of_lanes (fun _ _ => rfl) (by decide) fun s i r h l hl => ?_
    rw [getD_zip_srcABC h hl]
    exact ite_not _ _ _
  case bf16 => exact vuGives_cvt (by decide) 6 fun _ _ => rfl
  case fp16 => exact vuGives_cvt (by decide) 7 fun _ _ => rfl
  case fp8 =>
    exact vuGives_of_lanes (fun _ _ => rfl) (by decide) fun _ _ _ h _ hl => cvtTo_lane h hl (by rw [h.inputs_imm])
  case fp4 => exact vuGives_cvt (by decide) 0 fun _ _ => rfl
  case int8 => exact vuGives_cvt (by decide) 5 fun _ _ => rfl
  case i2f => exact vuGives_map (g := fun _ => i2f) (by decide) (fun _ _ => rfl) fun _ _ _ => rfl
  case f2i =>
    refine vuGives_of_lanes (fun _ _ => rfl) (by decide) fun s i r h l hl => ?_
    rw [getD_indexed_srcA h hl, h.inputs_imm, h.inputs_gen, h.inputs_idx]
  case widen =>
    exact vuGives_map (g := fun i => widenLane i.imm) (by decide) (fun _ _ => rfl) fun _ _ himm => by rw [himm]
  case mxscale =>
    refine vuGives_of_lanes (fun _ _ => rfl) (by decide) fun s i r h l hl => ?_
    rw [getD_replicate_lane hl, h.inputs_imm]

end Sys2Proof.Machine
end

section
/-! The long store's words (spec/07 R254, R257, R259, R268, R273): what the end of each leaves of its CE, and the proof of O22. -/

namespace Sys2Proof.Machine

/-! ## The end of a word (R206, R257) -/

/-- What the end of a word of the long store leaves: CE d, for CE n of p. The conversion stays while the unit stays in its pass. -/
structure LsWordDone (p : Pkg) (n : Nat) (d : Ce) : Prop where
  progress : d.progress = (advanceUnit p n 6 0 1 (ce p n)).progress
  long : d.long = (ce p n).long
  routes : d.routes = (ce p n).routes
  emits : d.ls.emits = (ce p n).ls.emits
  rounds : d.ls.rounds = (ce p n).ls.rounds
  conversion : (unitAt d 6 0).2 = (unitAt (ce p n) 6 0).2 → d.ls.fmt = (ce p n).ls.fmt ∧
    d.ls.rounding = (ce p n).ls.rounding ∧ d.ls.sat = (ce p n).ls.sat ∧ d.ls.shift = (ce p n).ls.shift

theorem lsNext_done (p : Pkg) (n : Nat) : LsWordDone p n (ce (lsNext p n) n) := by
  obtain ⟨x, hx⟩ := advanceUnit_only p n 6 0 1 (ce p n)
  unfold lsNext
  dsimp only
  rw [hx]
  split
  case isTrue _ =>
    rw [ce_setCe_self]
    exact ⟨by rw [hx], rfl, rfl, rfl, rfl, fun _ => ⟨rfl, rfl, rfl, rfl⟩⟩
  case isFalse hpass =>
    rw [ce_setCe_self]
    exact ⟨by rw [hx], rfl, rfl, rfl, rfl, fun hsame => absurd hsame hpass⟩

/-- What the end of a word of the long store leaves, in the state that a step with that end reaches. -/
theorem lsNext_done_of {s : State} {f : Pkg → Pkg} {q : Pkg} {n : Nat} (hf : f s.pkg = lsNext q n) :
    LsWordDone q n (ce (s.onPkg f).pkg n) := by
  rw [State.onPkg_pkg, hf]
  exact lsNext_done q n

theorem lsNext_movesOn {s : State} {f : Pkg → Pkg} {q : Pkg} {n : Nat} (hf : f s.pkg = lsNext q n)
    (hq : KeepsPlace s.pkg q n) : MovedOn s (s.onPkg f) n 6 0 1 :=
  movedOn_of_advance (lsNext_done_of hf).progress hq rfl

/-! ## Latches that settle (R226) -/

theorem settleLatches_ls (p : Pkg) (n : Nat) : (ce (settleLatches p n) n).ls = (ce p n).ls := by
  obtain ⟨l, o, hce⟩ := ce_settleLatches p n
  rw [hce]

theorem settleLatches_round (p : Pkg) (n : Nat) : (ce (settleLatches p n) n).round = (ce p n).round := by
  obtain ⟨l, o, hce⟩ := ce_settleLatches p n
  rw [hce]

theorem settleLatches_phase (p : Pkg) (n : Nat) : (ce (settleLatches p n) n).phase = (ce p n).phase := by
  obtain ⟨l, o, hce⟩ := ce_settleLatches p n
  rw [hce]

theorem hasCredit_settleLatches (p : Pkg) (n : Nat) (ch : Chart) (source : Nat) :
    hasCredit ch (ce (settleLatches p n) n) source = hasCredit ch (ce p n) source := by
  obtain ⟨l, o, hce⟩ := ce_settleLatches p n
  unfold hasCredit routeItems
  rw [hce]

theorem passLatches_octet_rounds (c : Ce) (oct j : Nat) : (octet (passLatches c oct) j).rounds = (octet c j).rounds := by
  unfold passLatches
  dsimp only
  split
  · rfl
  · unfold octet
    dsimp only
    rw [SMap.get_set]
    split
    · subst j; rfl
    · rfl

theorem settleLatches_octet_rounds (p : Pkg) (n j : Nat) :
    (octet (ce (settleLatches p n) n) j).rounds = (octet (ce p n) j).rounds := by
  unfold settleLatches
  split
  · rfl
  · rw [ce_setCe_self]
    generalize ce p n = c
    induction List.range 8 generalizing c with
    | nil => rfl
    | cons oct l ih => rw [List.foldl_cons, ih, passLatches_octet_rounds]

theorem projectedPast_settleLatches (p : Pkg) (n r : Nat) : projectedPast (settleLatches p n) n r = projectedPast p n r := by
  unfold projectedPast
  rw [(keepsPlace_settleLatches p n).chart]
  simp only [settleLatches_octet_rounds]

/-! ## An emission whose values fit one item (R254, R259) -/

theorem outBits_pos (fmt : Nat) (exact : Bool) : 0 < outBits fmt exact := by
  unfold outBits
  split
  · decide
  · split <;> decide

/-- CE c after one accumulator is read: it is +0, and its value joins the buffer. -/
def valueRead (exact : Bool) (g : GenSeed) (x : Nat × Nat) (c : Ce) : Ce :=
  { c with
    long := SMap.drop c.long (fun a => a == x.1)
    ls := { c.ls with
      next := c.ls.next + 1
      buf := c.ls.buf + emitValue c.ls g exact (SMap.get c.long x.1 0) x.2 * 2 ^ c.ls.bufBits
      bufBits := c.ls.bufBits + outBits c.ls.fmt exact } }

theorem gather_step {exact : Bool} {g : GenSeed} {at' : Nat → Nat × Nat} {total fuel : Nat} {c : Ce}
    (hroom : c.ls.bufBits < 512) (hmore : c.ls.next < total) :
    (gather exact g at' total (fuel + 1) c).2 =
      (gather exact g at' total fuel (valueRead exact g (at' c.ls.next) c)).2 := by
  rw [gather]
  dsimp only
  rw [if_neg (by omega)]
  rfl

theorem gather_done {exact : Bool} {g : GenSeed} {at' : Nat → Nat × Nat} {total : Nat} (fuel : Nat) {c : Ce}
    (hnext : total ≤ c.ls.next) : (gather exact g at' total fuel c).2 = c := by
  cases fuel with
  | zero => rfl
  | succ fuel =>
    rw [gather]
    dsimp only
    rw [if_pos (.inr hnext)]

/-- From CE c to CE d the accumulators from base + ls.next up to base + total have been read into the buffer. -/
structure Gathered (base total : Nat) (c d : Ce) : Prop where
  only : ∃ l x, d = { c with long := l, ls := x }
  next : d.ls.next = total
  bufBits : d.ls.bufBits ≤ 512
  emits : d.ls.emits = c.ls.emits
  long : ∀ k, SMap.get d.long k 0 = if base + c.ls.next ≤ k ∧ k < base + total then 0 else SMap.get c.long k 0

theorem Gathered.phase {base total : Nat} {c d : Ce} (h : Gathered base total c d) : d.phase = c.phase := by
  obtain ⟨l, x, hd⟩ := h.only
  rw [hd]

theorem gathered_self {base total : Nat} {c : Ce} (hnext : c.ls.next = total) (hbits : c.ls.bufBits ≤ 512) :
    Gathered base total c c :=
  ⟨⟨c.long, c.ls, rfl⟩, hnext, hbits, rfl, fun k => (if_neg (by omega)).symm⟩

theorem Gathered.after_read {exact : Bool} {g : GenSeed} {base total idx : Nat} {c d : Ce} (hmore : c.ls.next < total)
    (h : Gathered base total (valueRead exact g (base + c.ls.next, idx) c) d) : Gathered base total c d := by
  obtain ⟨⟨l, x, hd⟩, hnext, hbits, hemits, hlong⟩ := h
  refine ⟨⟨l, x, hd⟩, hnext, hbits, hemits, fun k => ?_⟩
  rw [hlong]
  simp only [valueRead, SMap.get_drop, beq_iff_eq]
  by_cases hread : k = base + c.ls.next
  · rw [if_neg (by omega), if_pos hread, if_pos (by omega)]
  · have hrange : base + (c.ls.next + 1) ≤ k ∧ k < base + total ↔ base + c.ls.next ≤ k ∧ k < base + total := by omega
    rw [if_neg hread, if_congr hrange rfl rfl]

/-- All the values that an emission has left, where they fit one item. -/
theorem gather_gathers {exact : Bool} {g : GenSeed} {at' : Nat → Nat × Nat} {base total : Nat}
    (hat : ∀ k, (at' k).1 = base + k) (fuel : Nat) (c : Ce) (hnext : c.ls.next ≤ total) (hfuel : total ≤ c.ls.next + fuel)
    (hfit : c.ls.bufBits + (total - c.ls.next) * outBits c.ls.fmt exact ≤ 512) :
    Gathered base total c (gather exact g at' total fuel c).2 := by
  induction fuel generalizing c with
  | zero => exact gathered_self (by omega) (by omega)
  | succ fuel ih =>
    by_cases hmore : c.ls.next < total
    case neg =>
      rw [gather_done _ (by omega)]
      exact gathered_self (by omega) (by omega)
    case pos =>
      have hbits := outBits_pos c.ls.fmt exact
      have hrest : (total - c.ls.next) * outBits c.ls.fmt exact =
          (total - (c.ls.next + 1)) * outBits c.ls.fmt exact + outBits c.ls.fmt exact := by
        rw [← Nat.succ_mul]
        congr 1
        omega
      have hread : valueRead exact g (at' c.ls.next) c = valueRead exact g (base + c.ls.next, (at' c.ls.next).2) c := by
        rw [← hat]
      rw [gather_step (by omega) hmore, hread]
      refine Gathered.after_read hmore (ih _ ?_ ?_ ?_)
      · exact hmore
      · simp only [valueRead]; omega
      · simp only [valueRead]; omega

/-- The package after the item of a gathered CE has been offered at `out`. -/
def itemGone (p : Pkg) (n out : Nat) (r : Nat × Ce) : Pkg :=
  addReg (setCe p n (offer (ceChart p n) { r.2 with
    ls := { r.2.ls with buf := r.2.ls.buf / 2 ^ 512, bufBits := r.2.ls.bufBits - 512, item := r.2.ls.item + 1 } } out
      (BitVec.ofNat 512 r.2.ls.buf))) (key (pgCe n) 0x368) r.1

theorem ce_itemGone (p : Pkg) (n out : Nat) (r : Nat × Ce) :
    ce (itemGone p n out r) n = offer (ceChart p n) { r.2 with
      ls := { r.2.ls with buf := r.2.ls.buf / 2 ^ 512, bufBits := r.2.ls.bufBits - 512, item := r.2.ls.item + 1 } } out
        (BitVec.ofNat 512 r.2.ls.buf) := ce_setCe_self _ _ _

theorem keepsPlace_itemGone {p : Pkg} {n out : Nat} {r : Nat × Ce} (h : ∃ l x, r.2 = { ce p n with long := l, ls := x }) :
    KeepsPlace p (itemGone p n out r) n := by
  obtain ⟨l, x, hr⟩ := h
  refine (keepsPlace_setCe ?_ ?_ ?_).trans (keepsUnits_addReg _ n r.1 (by decide) (by decide)).toKeepsPlace
  all_goals rw [offer_eq, hr]

theorem emitItem_goes {p : Pkg} {n port total : Nat} {exact pair : Bool} {at' : Nat → Nat × Nat}
    (hmore : (ce p n).ls.next < total)
    (hcredit : hasCredit (ceChart p n) (ce p n) (emitPort port (ce p n).ls.item pair) = true) :
    emitItem n port exact pair at' total p = (.goes, itemGone p n (emitPort port (ce p n).ls.item pair)
      (gather exact (genSeed (ceCmd p n)) at' total 129 (ce p n))) := by
  unfold emitItem
  dsimp only
  rw [if_neg (by omega), if_pos hcredit]
  rfl

theorem emitItem_ended {p : Pkg} {n port total : Nat} {exact pair : Bool} {at' : Nat → Nat × Nat}
    (hnext : total ≤ (ce p n).ls.next) (hbits : (ce p n).ls.bufBits = 0) :
    emitItem n port exact pair at' total p = (.ended, p) := if_pos ⟨hnext, hbits⟩

theorem emitRun_ended {p : Pkg} {n port total : Nat} {exact pair : Bool} {at' : Nat → Nat × Nat} (fuel : Nat)
    (hnext : total ≤ (ce p n).ls.next) (hbits : (ce p n).ls.bufBits = 0) :
    emitRun n port exact pair at' total (fuel + 1) p = (.ended, p) := by
  rw [emitRun, emitItem_ended hnext hbits]

/-- An emission whose values fit one item ends when the item has gone. -/
theorem emitRun_oneItem {p : Pkg} {n port base total : Nat} {exact pair : Bool} {at' : Nat → Nat × Nat} {r : Nat × Ce}
    (fuel : Nat) (hmore : (ce p n).ls.next < total)
    (hcredit : hasCredit (ceChart p n) (ce p n) (emitPort port (ce p n).ls.item pair) = true)
    (hr : r = gather exact (genSeed (ceCmd p n)) at' total 129 (ce p n)) (hg : Gathered base total (ce p n) r.2) :
    emitRun n port exact pair at' total (fuel + 2) p =
      (.ended, itemGone p n (emitPort port (ce p n).ls.item pair) r) := by
  rw [emitRun, emitItem_goes hmore hcredit, ← hr]
  refine emitRun_ended fuel ?_ ?_
  · rw [ce_itemGone]
    exact hg.next.ge
  · rw [ce_itemGone]
    exact Nat.sub_eq_zero_of_le hg.bufBits

/-! ## EMIT (R257, R266) -/

/-- The package with one more EMIT word done. -/
def emitCounted (p : Pkg) (n : Nat) : Pkg :=
  setCe p n { ce p n with ls := { (ce p n).ls with emits := (ce p n).ls.emits + 1 } }

theorem ce_emitCounted (p : Pkg) (n : Nat) : ce (emitCounted p n) n =
    { ce p n with ls := { (ce p n).ls with emits := (ce p n).ls.emits + 1 } } := ce_setCe_self _ _ _

theorem doEmit_ends {p q : Pkg} {n port first count : Nat} {exact : Bool}
    (hat : lsAt p n (2 * 2 ^ 28 + port * 2 ^ 26 + bitNat exact * 2 ^ 25 + first * 2 ^ 19 + (count - 1) * 2 ^ 13 +
      bitNat false * 2 ^ 12) = true) (hport : port < 4) (hslots : slotsOk p n first count = true)
    (hrun : emitRun n port exact false (fun k => (64 * first + k, 4096 * (ce p n).ls.emits + (64 * first + k)))
      (64 * count) 5200 (settleLatches p n) = (.ended, q)) :
    doEmit n port exact first count false p = lsNext (emitCounted q n) n := by
  unfold doEmit
  dsimp only
  rw [hat, hslots, decide_eq_true hport, hrun]
  rfl

/-! ## ACCEPT (R268) -/

theorem get_long_acceptRecord (first : Nat) (c : Ce) (k : Nat) : SMap.get (acceptRecord first c).long k 0 =
    if k = 64 * first + c.ls.next then
      accAdd (SMap.get c.long k 0) (recElem (BitVec.ofNat 640 c.ls.buf)) (-300)
    else SMap.get c.long k 0 := by
  unfold acceptRecord
  dsimp only
  rw [SMap.get_set]
  split
  · subst k; rfl
  · rfl

theorem acceptRun_lastRecord {p : Pkg} {n port first total : Nat} (fuel : Nat) (hnext : (ce p n).ls.next + 1 = total)
    (hbits : 640 ≤ (ce p n).ls.bufBits) :
    acceptRun n port first total (fuel + 2) p = (.ended, setCe p n (acceptRecord first (ce p n))) := by
  rw [acceptRun]
  dsimp only
  rw [if_neg (by omega), if_pos hbits, acceptRun, ce_setCe_self]
  exact if_pos hnext.ge

/-! ## AUTO (R237, R266) -/

/-- The package with one more round emitted. -/
def roundEmitted (p : Pkg) (n : Nat) : Pkg :=
  setCe p n { ce p n with
    ls := { (ce p n).ls with rounds := (ce p n).ls.rounds + 1, next := 0, buf := 0, bufBits := 0, item := 0 } }

theorem rounds_roundEmitted (p : Pkg) (n : Nat) : (ce (roundEmitted p n) n).ls.rounds = (ce p n).ls.rounds + 1 :=
  congrArg (fun c : Ce => c.ls.rounds) (ce_setCe_self _ _ _)

theorem keepsPlace_roundEmitted (p : Pkg) (n : Nat) : KeepsPlace p (roundEmitted p n) n := keepsPlace_setCe rfl rfl rfl

theorem autoRun_past {p : Pkg} {n port : Nat} {exact pair : Bool} (fuel : Nat)
    (hr : roundsOf (ceCmd p n) (projectMode (ceChart p n)) ≤ (ce p n).ls.rounds) :
    autoRun n port exact pair (fuel + 1) p = lsNext p n := by
  rw [autoRun]
  exact if_pos hr

theorem autoRun_lastRound {p : Pkg} {n port : Nat} {exact pair : Bool} (fuel : Nat)
    (hr : roundsOf (ceCmd p n) (projectMode (ceChart p n)) = (ce p n).ls.rounds + 1)
    (hpast : projectedPast p n (ce p n).ls.rounds = true) (hround : (ce p n).ls.rounds ≤ (ce p n).round)
    (hnext : (ce p n).ls.next =
      64 * (roundSlots (ceCmd p n) (projectMode (ceChart p n)) (ce p n).ls.rounds).length)
    (hbits : (ce p n).ls.bufBits = 0) :
    autoRun n port exact pair (fuel + 2) p = lsNext (roundEmitted p n) n := by
  have hkeep := keepsPlace_roundEmitted p n
  have hlast : autoRun n port exact pair (fuel + 1) (roundEmitted p n) = lsNext (roundEmitted p n) n :=
    autoRun_past fuel (by rw [hkeep.cmd, hkeep.chart, rounds_roundEmitted, hr])
  rw [autoRun]
  dsimp only
  rw [if_neg (by omega), hpast, decide_eq_true hround, Bool.and_self, if_pos rfl, emitRun_ended _ hnext.ge hbits]
  exact hlast

/-! ## The words, each up to its end -/

theorem doLsNop_done {p : Pkg} {n : Nat} (hat : lsAt p n 0 = true) : doLsNop n p = lsNext p n := if_pos hat

/-- The package with the conversion that an OUTFMT word gives. -/
def outfmtSet (p : Pkg) (n fmt rounding : Nat) (sat : Bool) (shift : Int) : Pkg :=
  setCe p n { ce p n with ls := { (ce p n).ls with fmt := fmt, rounding := rounding, sat := sat, shift := shift } }

theorem doOutfmt_done {p : Pkg} {n fmt rounding : Nat} {sat : Bool} {shift : Int}
    (hat : lsAt p n (2 ^ 28 + fmt * 2 ^ 24 + rounding * 2 ^ 22 + bitNat sat * 2 ^ 21 +
      (BitVec.ofInt 8 shift).toNat * 2 ^ 13) = true) (hfmt : fmt < 9) (hround : rounding < 3) (hlow : -128 ≤ shift)
    (hhigh : shift < 128) : doOutfmt n fmt rounding sat shift p = lsNext (outfmtSet p n fmt rounding sat shift) n := by
  unfold doOutfmt
  rw [hat, decide_eq_true hfmt, decide_eq_true hround, decide_eq_true hlow, decide_eq_true hhigh]
  rfl

/-- The package with the accumulators of a range of slots at +0, after the latches have settled. -/
def cleared (p : Pkg) (n first count : Nat) : Pkg :=
  setCe p n { ce (settleLatches p n) n with
    long := SMap.drop (ce (settleLatches p n) n).long (fun a => decide (64 * first ≤ a ∧ a < 64 * (first + count))) }

theorem doLsClear_done {p : Pkg} {n first count : Nat}
    (hat : lsAt p n (4 * 2 ^ 28 + first * 2 ^ 20 + (count - 1) * 2 ^ 14) = true) (hslots : slotsOk p n first count = true) :
    doLsClear n first count p = lsNext (cleared p n first count) n := by
  unfold doLsClear
  rw [hat, hslots]
  rfl

theorem keepsPlace_cleared (p : Pkg) (n first count : Nat) : KeepsPlace p (cleared p n first count) n := by
  obtain ⟨l, o, hce⟩ := ce_settleLatches p n
  exact keepsPlace_setCe (by rw [hce]) (by rw [hce]) (by rw [hce])

theorem doAccept_done {p q : Pkg} {n port first count : Nat}
    (hat : lsAt p n (3 * 2 ^ 28 + port * 2 ^ 26 + first * 2 ^ 20 + (count - 1) * 2 ^ 14) = true) (hport : port < 4)
    (hslots : slotsOk p n first count = true)
    (hrun : acceptRun n port first (64 * count) 9300 (settleLatches p n) = (.ended, q)) :
    doAccept n port first count p = lsNext q n := by
  unfold doAccept
  rw [hat, hslots, decide_eq_true hport, hrun]
  rfl

theorem doLsAuto_runs {p : Pkg} {n port : Nat} {exact : Bool}
    (hat : lsAt p n (5 * 2 ^ 28 + port * 2 ^ 26 + bitNat exact * 2 ^ 25) = true) (hport : port < 4)
    (hproj : isProject (ceChart p n) = true) :
    doLsAuto n port exact false p = autoRun n port exact false 4097 (settleLatches p n) := by
  have hword : 5 * 2 ^ 28 + port * 2 ^ 26 + bitNat exact * 2 ^ 25 + bitNat false * 2 ^ 24 =
      5 * 2 ^ 28 + port * 2 ^ 26 + bitNat exact * 2 ^ 25 := by
    rw [show bitNat false = 0 from rfl]
    ring
  unfold doLsAuto
  rw [(congrArg (lsAt p n) hword).trans hat, decide_eq_true hport, hproj]
  exact if_pos rfl

/-! ## EMIT of one slot as FP4 -/

/-- The 64 values of a slot are 256 bits as FP4, so that its emission ends when one item has gone. -/
theorem emitRun_slotFp4 {p : Pkg} {n port base : Nat} {at' : Nat → Nat × Nat} {r : Nat × Ce} (fuel : Nat)
    (hat : ∀ k, (at' k).1 = base + k) (hfmt : (ce p n).ls.fmt = 0) (hnext : (ce p n).ls.next = 0)
    (hbits : (ce p n).ls.bufBits = 0) (hcredit : hasCredit (ceChart p n) (ce p n) (0x70 + port) = true)
    (hr : r = gather false (genSeed (ceCmd p n)) at' 64 129 (ce p n)) :
    Gathered base 64 (ce p n) r.2 ∧
      emitRun n port false false at' 64 (fuel + 2) p = (.ended, itemGone p n (0x70 + port) r) := by
  have hfit : (ce p n).ls.bufBits + (64 - (ce p n).ls.next) * outBits (ce p n).ls.fmt false ≤ 512 := by
    rw [hfmt, hnext, hbits]
    decide
  have hg : Gathered base 64 (ce p n) r.2 := by
    rw [hr]
    exact gather_gathers hat 129 _ (by omega) (by omega) hfit
  exact ⟨hg, emitRun_oneItem fuel (by omega) hcredit hr hg⟩

/-- EMIT of one slot as FP4, with the latches settled: its item has gone, and the word is counted and done. -/
theorem doEmit_slotFp4 {p : Pkg} {n port first : Nat} {r : Nat × Ce}
    (hat : lsAt p n (2 * 2 ^ 28 + port * 2 ^ 26 + first * 2 ^ 19) = true) (hport : port < 4)
    (hslots : slotsOk p n first 1 = true) (hfmt : (ce p n).ls.fmt = 0) (hnext : (ce p n).ls.next = 0)
    (hbits : (ce p n).ls.bufBits = 0) (hcredit : hasCredit (ceChart p n) (ce p n) (0x70 + port) = true)
    (hr : r = gather false (genSeed (ceCmd p n)) (fun k => (64 * first + k, 4096 * (ce p n).ls.emits + (64 * first + k)))
      64 129 (ce (settleLatches p n) n)) :
    Gathered (64 * first) 64 (ce (settleLatches p n) n) r.2 ∧
      doEmit n port false first 1 false p = lsNext (emitCounted (itemGone (settleLatches p n) n (0x70 + port) r) n) n := by
  have hsettled := keepsPlace_settleLatches p n
  have hls := settleLatches_ls p n
  have hword : 2 * 2 ^ 28 + port * 2 ^ 26 + bitNat false * 2 ^ 25 + first * 2 ^ 19 + (1 - 1) * 2 ^ 13 +
      bitNat false * 2 ^ 12 = 2 * 2 ^ 28 + port * 2 ^ 26 + first * 2 ^ 19 := by
    rw [show bitNat false = 0 from rfl]
    ring
  obtain ⟨hg, hrun⟩ := emitRun_slotFp4 (p := settleLatches p n) (r := r) (port := port) (base := 64 * first) 5198
    (at' := fun k => (64 * first + k, 4096 * (ce p n).ls.emits + (64 * first + k))) (fun _ => rfl)
    (by rw [hls, hfmt]) (by rw [hls, hnext]) (by rw [hls, hbits])
    (by rw [hsettled.chart, hasCredit_settleLatches, hcredit]) (by rw [hsettled.cmd]; exact hr)
  exact ⟨hg, doEmit_ends ((congrArg (lsAt p n) hword).trans hat) hport hslots hrun⟩

/-! ## O22 -/

/-- Settles O22: each word's effect is what it does before the word ends, and the end leaves the long store's accumulators, its
counts and the routes as they are. -/
theorem theLongStoreConvertsEmitsAcceptsAndClears : Obligations.TheLongStoreConvertsEmitsAcceptsAndClears := by
  unfold Obligations.TheLongStoreConvertsEmitsAcceptsAndClears
  refine ⟨?nop, ?outfmt, ?emit, ?accept, ?clear, ?auto⟩
  case nop =>
    intro s n hat
    have hf := doLsNop_done hat
    exact ⟨_, rfl, lsNext_movesOn hf (.refl _ _), (lsNext_done_of hf).long, rfl⟩
  case outfmt =>
    intro s n fmt rounding sat shift hat hfmt hround hlow hhigh
    have hf := doOutfmt_done hat hfmt hround hlow hhigh
    have hce : ce (outfmtSet s.pkg n fmt rounding sat shift) n = _ := ce_setCe_self _ _ _
    have hconv := (lsNext_done_of hf).conversion
    rw [hce] at hconv
    exact ⟨_, rfl, rfl, lsNext_movesOn hf (keepsPlace_setCe rfl rfl rfl), hconv⟩
  case emit =>
    rintro s n port first c c1 hat hport hslots rfl hfmt hnext - hbits hcredit rfl
    rw [settleLatches_ls] at hfmt hnext hbits ⊢
    obtain ⟨hg, hf⟩ := doEmit_slotFp4 hat hport hslots hfmt hnext hbits hcredit rfl
    generalize gather false _ _ 64 129 _ = r at hg hf ⊢
    have hkeep := (keepsPlace_settleLatches s.pkg n).trans (keepsPlace_itemGone (out := 0x70 + port) hg.only)
    have hdone := lsNext_done_of hf
    have hphase : r.2.phase = (ce s.pkg n).phase := hg.phase.trans (settleLatches_phase _ _)
    refine ⟨_, rfl, rfl, lsNext_movesOn hf (hkeep.trans (keepsPlace_setCe rfl rfl rfl)),
      offered_of_routes (c := r.2) hphase ?routes, ?emits, fun k => ?long⟩
    case routes =>
      rw [hdone.routes, ce_emitCounted, ce_itemGone, (keepsPlace_settleLatches s.pkg n).chart]
      rfl
    case emits =>
      rw [hdone.emits, ce_emitCounted, ce_itemGone, ← settleLatches_ls, ← hg.emits]
      rfl
    case long =>
      rw [hdone.long, ce_emitCounted, ce_itemGone]
      have hlong := hg.long k
      rwa [settleLatches_ls, hnext] at hlong
  case accept =>
    rintro s n port first count c hat hport hslots rfl hnext hbits
    have hkeep := keepsPlace_settleLatches s.pkg n
    have hf := doAccept_done hat hport hslots (acceptRun_lastRecord 9298 hnext hbits)
    refine ⟨_, rfl, rfl, lsNext_movesOn hf (hkeep.trans (keepsPlace_setCe rfl rfl rfl)), fun k => ?_⟩
    rw [(lsNext_done_of hf).long, ce_setCe_self]
    exact get_long_acceptRecord _ _ k
  case clear =>
    intro s n first count hat hslots
    have hf := doLsClear_done hat hslots
    have hce : ce (cleared s.pkg n first count) n = _ := ce_setCe_self _ _ _
    refine ⟨_, rfl, rfl, lsNext_movesOn hf (keepsPlace_cleared _ _ _ _), fun k => ?_⟩
    rw [(lsNext_done_of hf).long, hce]
    simp only [SMap.get_drop, decide_eq_true_eq]
  case auto =>
    rintro s n port ex r mode hat hport hproj rfl rfl hrounds hround hpast hnext hbits
    have hkeep := keepsPlace_settleLatches s.pkg n
    have hls := settleLatches_ls s.pkg n
    have hrun : autoRun n port ex false 4097 (settleLatches s.pkg n) = _ := autoRun_lastRound 4095
      (by rw [hkeep.cmd, hkeep.chart, hls, hrounds]) (by rw [projectedPast_settleLatches, hls, hpast])
      (by rw [hls, settleLatches_round]; exact hround) (by rw [hkeep.cmd, hkeep.chart, hls, hnext]) (by rw [hls, hbits])
    have hf := (doLsAuto_runs hat hport hproj).trans hrun
    refine ⟨_, rfl, rfl, lsNext_movesOn hf (hkeep.trans (keepsPlace_roundEmitted _ _)), ?_⟩
    rw [(lsNext_done_of hf).rounds, rounds_roundEmitted, hls]

end Sys2Proof.Machine
end

section
/-! A command's status and the ring registers (spec/08 R278, R294, R302): what a command that gets its status keeps of itself, of the
CEs and of the registers, what an event of the queue manager leaves of a ring's registers, and what a trace record leaves. -/

namespace Sys2Proof.Machine

/-! ## A command gets its status (R302) -/

/-- From p to q command `id` has got a status; of itself it keeps everything else but its fold record and the times at its ring's
head, and no CE and no register changes. -/
structure StatusGiven (p q : Pkg) (id status detail : Nat) : Prop where
  cmd : ∃ x y, cmd q id = { cmd p id with
    phase := .finished, fold := none, waitSince := x, ageFrom := y
    status := if status = 0 ∧ (cmd p id).repeats ≠ 0 then 1 else status
    detail := if status = 0 ∧ (cmd p id).repeats ≠ 0 then (cmd p id).firstLost else detail }
  ces : q.ces = p.ces
  reg : ∀ k, reg q k = reg p k

/-- A command that has no status yet gets the one that it finishes with. -/
theorem finishCmd_gives {p : Pkg} {id : Nat} (status detail : Nat) (ht : (cmd p id).phase ≠ .trailing)
    (hf : (cmd p id).phase ≠ .finished) : StatusGiven p (finishCmd p id status detail) id status detail := by
  unfold finishCmd
  dsimp only
  rw [if_neg ht, if_neg fun h => hf h.2]
  generalize hq : setCmd _ id _ = q
  have hheads := settlePending_onlyHeads q (cmd p id).ctx (cmd p id).ring 64
  obtain ⟨x, y, hcmd⟩ := hheads.cmd id
  refine ⟨⟨x, y, ?_⟩, ?_, fun k => (hheads.reg_eq k).trans ?_⟩
  · rw [hcmd, ← hq, cmd_setCmd_self]
  · obtain ⟨u, v, hpkg⟩ := hheads.pkg
    rw [hpkg, ← hq]
    rfl
  · rw [← hq]
    exact reg_congr rfl rfl rfl k

/-- A command that is finished has its status, whatever it was before: one whose record is written is gone, and reads as finished. -/
theorem finishCmd_phase (p : Pkg) (id status detail : Nat) : (cmd (finishCmd p id status detail) id).phase = .finished := by
  by_cases ht : (cmd p id).phase = .trailing
  · rw [finishCmd, if_pos ht, cmd]
    dsimp only
    rw [SMap.get_drop, if_pos (beq_self_eq_true id)]
    rfl
  by_cases hf : (cmd p id).phase = .finished
  · unfold finishCmd
    dsimp only
    rw [if_neg ht]
    by_cases hhas : hasCmd p id = true
    · rw [if_pos ⟨hhas, hf⟩]
      exact hf
    · rw [if_neg fun h => hhas h.1]
      obtain ⟨x, y, hcmd⟩ := (settlePending_onlyHeads _ (cmd p id).ctx (cmd p id).ring 64).cmd id
      rw [hcmd, cmd_setCmd_self]
  · obtain ⟨x, y, hcmd⟩ := (finishCmd_gives status detail ht hf).cmd
    rw [hcmd]

theorem finishQm_phase (p : Pkg) (id status detail : Nat) : (cmd (finishQm p id status detail) id).phase = .finished := by
  obtain ⟨x, y, hcmd⟩ := (settlePending_onlyHeads (finishCmd p id status detail) (cmd p id).ctx (cmd p id).ring 64).cmd id
  rw [finishQm, hcmd]
  exact finishCmd_phase p id status detail

/-! ## Registers of a ring (Table 8-10) -/

theorem ringOk_iff (ctx ring : Nat) : ringOk ctx ring = true ↔ ctx < 16 ∧ ring < 64 := by simp [ringOk]

theorem ringKey_ne {ctx ring off : Nat} (hok : ringOk ctx ring = true) (ho : off < 0x30) (pg : Nat) {x : Nat} (hx : x < 0x100) :
    ringKey ctx ring off ≠ key pg x := by
  obtain ⟨-, hring⟩ := (ringOk_iff ctx ring).1 hok
  exact key_ne _ _ (by omega) (by omega) (by omega)

theorem ringStatus_ne_ringCfg (ctx ring : Nat) : ringStatus ctx ring ≠ ringCfg ctx ring := by
  unfold ringStatus ringCfg ringKey key
  omega

theorem ringTail_lt (p : Pkg) (ctx ring : Nat) : ringTail p ctx ring < 65536 := Nat.mod_lt _ (by decide)

/-- An event of the queue manager writes the interrupt registers of its first page alone. -/
theorem qmEvent_reg (p : Pkg) (event unit : Nat) {k : Nat} (h20 : k ≠ key pgQm 0x20) (h24 : k ≠ key pgQm 0x24) :
    reg (qmEvent p event unit) k = reg p k :=
  (raiseBlock_reg _ _ _ h20 h24).trans (reg_congr rfl rfl rfl k)

/-! ## What leaves commands and CEs as they are -/

/-- From p to q no command and no CE changes. -/
structure KeepsWork (p q : Pkg) : Prop where
  qm : q.qm = p.qm
  ces : q.ces = p.ces

theorem KeepsWork.refl (p : Pkg) : KeepsWork p p := ⟨rfl, rfl⟩

theorem KeepsWork.trans {p q r : Pkg} (h : KeepsWork p q) (g : KeepsWork q r) : KeepsWork p r :=
  ⟨g.qm.trans h.qm, g.ces.trans h.ces⟩

theorem KeepsWork.cmd_eq {p q : Pkg} (h : KeepsWork p q) (id : Nat) : cmd q id = cmd p id :=
  cmd_congr (congrArg QmSt.cmds h.qm) id

theorem KeepsWork.ce_eq {p q : Pkg} (h : KeepsWork p q) (n : Nat) : ce q n = ce p n := ce_congr h.ces n

theorem OnlyLog.keepsWork {p q : Pkg} (h : OnlyLog p q) : KeepsWork p q := ⟨h.qm_eq, h.ces_eq⟩

theorem keepsWork_traceCmd (p : Pkg) (t bit' kind : Nat) (c : Cmd) (waiter on ns object : Nat) :
    KeepsWork p (traceCmd p t bit' kind c waiter on ns object) := by
  unfold traceCmd
  split
  · unfold traceQueue
    dsimp only
    split
    · exact ⟨rfl, rfl⟩
    · have hlost (x : TraceBlk) : KeepsWork p (setTrace p t x) := ⟨rfl, rfl⟩
      exact (hlost _).trans ((bumpReg_only _ _ _ _).trans (raiseBlock_only _ _ _)).log.keepsWork
  · exact .refl p

/-- A trace record writes its block's control, its count of lost records and its interrupt registers alone. -/
theorem traceCmd_reg (p : Pkg) (t bit' kind : Nat) (c : Cmd) (waiter on ns object pg : Nat) {off : Nat} (ho : off < 0x1000)
    (h : off ∉ [0x20, 0x24, 0x100, 0x120]) :
    reg (traceCmd p t bit' kind c waiter on ns object) (key pg off) = reg p (key pg off) := by
  simp only [List.mem_cons, List.not_mem_nil, or_false, not_or] at h
  obtain ⟨h20, h24, h100, h120⟩ := h
  unfold traceCmd
  split
  · unfold traceQueue
    dsimp only
    split
    · exact (reg_setFld_ne _ _ _ _ (key_ne _ _ ho (by decide) h100)).trans (reg_congr rfl rfl rfl _)
    · rw [raiseBlock_reg _ _ _ (key_ne _ _ ho (by decide) h20) (key_ne _ _ ho (by decide) h24)]
      exact (reg_setReg_ne _ _ (key_ne _ _ ho (by decide) h120)).trans (reg_congr rfl rfl rfl _)
  · rfl

end Sys2Proof.Machine
end

section
/-! Doorbells and fetches (spec/08 R277 to R280, R285, spec/09 R336): what each leaves of a ring, and the proof of O24. -/

namespace Sys2Proof.Machine

/-! ## Doorbells (R277, R278) -/

theorem execDoorbell_served {s : State} {rq : Requester} {ctx ring : Nat} {v : W32} (hok : ringOk ctx ring = true)
    (hfate : writeFate s.pkg rq (pgQm + 17 + ctx) (0x100 + 4 * ring) = .accepted)
    (hserved : rq ≠ .host ∨ writesHeld s.pkg = false) :
    execDoorbell rq ctx ring v s = .next { s with pkg := putDoorbell ctx ring (v.setWidth 64) s.pkg } := by
  have hnow : ¬ (rq = .host ∧ writesHeld s.pkg = true) := fun ⟨hhost, hheld⟩ =>
    hserved.elim (fun h => h hhost) (fun h => by simp [h] at hheld)
  have hput : doDoorbell rq ctx ring v s.pkg = putDoorbell ctx ring (v.setWidth 64) s.pkg := by
    rw [doDoorbell, if_pos hok, ifWrites_accepted _ hfate]
  rw [execDoorbell, if_neg hnow, State.onPkg, hput]

/-- A doorbell that finds room adds its COUNT to TAIL and leaves HEAD. -/
theorem putDoorbell_advances {p : Pkg} {ctx ring n : Nat} {v : W64} (hn : n = bitsOf v 15 0) (hpos : n ≠ 0)
    (hroom : ((ringTail p ctx ring + 65536 - ringHead p ctx ring) % 65536 + n) % 65536 ≤ depthOf (ringLog p ctx ring)) :
    ringTail (putDoorbell ctx ring v p) ctx ring = (ringTail p ctx ring + n) % 65536 ∧
      ringHead (putDoorbell ctx ring v p) ctx ring = ringHead p ctx ring := by
  subst hn
  unfold putDoorbell
  dsimp only
  rw [if_neg hpos, if_neg (Nat.not_lt.2 hroom)]
  refine ⟨?_, ?_⟩
  · exact (fld_setFld_self _ _ _ _ _ (by decide) (by decide)).trans (Nat.mod_mod _ _)
  · refine (fld_setFld_beside _ _ _ _ _ _ _ (by decide) (by decide) (by decide) (by decide)).trans ?_
    exact fld_congr (reg_congr rfl rfl rfl _) _ _

/-- A doorbell beyond the ring's depth stops the ring, marks the overrun, and leaves TAIL. -/
theorem putDoorbell_overruns {p : Pkg} {ctx ring n : Nat} {v : W64} (hok : ringOk ctx ring = true) (hn : n = bitsOf v 15 0)
    (hpos : n ≠ 0)
    (hfull : depthOf (ringLog p ctx ring) < ((ringTail p ctx ring + 65536 - ringHead p ctx ring) % 65536 + n) % 65536) :
    ringStopped (putDoorbell ctx ring v p) ctx ring = true ∧ bit (putDoorbell ctx ring v p) (ringCfg ctx ring) 26 = true ∧
      ringTail (putDoorbell ctx ring v p) ctx ring = ringTail p ctx ring := by
  subst hn
  have hput : putDoorbell ctx ring v p = qmEvent (setFld p (ringCfg ctx ring) 27 26 3) 0x03 (64 * ctx + ring) := by
    unfold putDoorbell
    dsimp only
    rw [if_neg hpos, if_pos hfull]
  have hreg {off : Nat} (ho : off < 0x30) : reg (putDoorbell ctx ring v p) (ringKey ctx ring off) =
      reg (setFld p (ringCfg ctx ring) 27 26 3) (ringKey ctx ring off) := by
    rw [hput]
    exact qmEvent_reg _ _ _ (ringKey_ne hok ho _ (by decide)) (ringKey_ne hok ho _ (by decide))
  have hflags : fld (setFld p (ringCfg ctx ring) 27 26 3) (ringCfg ctx ring) 27 26 = 3 :=
    fld_setFld_self _ _ _ _ _ (by decide) (by decide)
  have hbit {n : Nat} (hlo : 26 ≤ n) (hhi : n ≤ 27) :
      bit (putDoorbell ctx ring v p) (ringCfg ctx ring) n = Nat.testBit 3 (n - 26) := by
    refine (bit_congr (hreg (off := 0x18) (by decide)) n).trans ((bit_eq_testBit _ hlo hhi).trans ?_)
    exact congrArg (Nat.testBit · (n - 26)) hflags
  refine ⟨hbit (by decide) (by decide), hbit (by decide) (by decide), ?_⟩
  exact (fld_congr (hreg (off := 0x1C) (by decide)) _ _).trans (fld_setFld_ne _ _ _ _ _ _ (ringStatus_ne_ringCfg ctx ring))

/-! ## Fetches (R279, R280, R285) -/

/-- The command that a fetched descriptor makes. -/
def fetchedCmd (p : Pkg) (ctx ring : Nat) (d : BitVec 1024) : Cmd :=
  { noCmd with desc := d, ctx := ctx, ring := ring, seq := ringHead p ctx ring, phase := .translating,
               order := p.qm.nextOrder, bell := bellOf p ctx ring (ringHead p ctx ring) }

/-- The package when the command stands in it, its descriptor not yet checked. -/
def descTaken (p : Pkg) (ctx ring : Nat) (d : BitVec 1024) : Pkg :=
  let h := (ringHead p ctx ring + 1) % 65536
  let q := dropBell (setFld p (ringStatus ctx ring) 31 16 h) ctx ring h
  setCmd { q with qm := { q.qm with nextId := p.qm.nextId + 1, nextOrder := q.qm.nextOrder + 1 } } p.qm.nextId
    (fetchedCmd p ctx ring d)

theorem fetched_eq (p : Pkg) (m : Memory) (ctx ring : Nat) (d : BitVec 1024) : fetched p m ctx ring d =
    let r := descReason p d ctx ring (namedChart p m ctx d) (dirFind p ctx (dHandle d)).isSome
    if r = 0 then descTaken p ctx ring d else finishCmd (descTaken p ctx ring d) p.qm.nextId 0x31 r := rfl

theorem cmd_descTaken (p : Pkg) (ctx ring : Nat) (d : BitVec 1024) :
    cmd (descTaken p ctx ring d) p.qm.nextId = fetchedCmd p ctx ring d := cmd_setCmd_self _ _ _

theorem ringHead_descTaken (p : Pkg) (ctx ring : Nat) (d : BitVec 1024) :
    ringHead (descTaken p ctx ring d) ctx ring = (ringHead p ctx ring + 1) % 65536 := by
  refine (fld_congr (p := setFld p (ringStatus ctx ring) 31 16 ((ringHead p ctx ring + 1) % 65536))
    (reg_congr rfl rfl rfl _) _ _).trans ?_
  exact (fld_setFld_self _ _ _ _ _ (by decide) (by decide)).trans (Nat.mod_mod _ _)

/-- A fetched descriptor that fails its checks is a command finished with BAD_DESCRIPTOR and the reason. -/
theorem refused_descTaken (p : Pkg) (ctx ring : Nat) (d : BitVec 1024) (r : Nat) :
    StatusGiven (descTaken p ctx ring d) (finishCmd (descTaken p ctx ring d) p.qm.nextId 0x31 r) p.qm.nextId 0x31 r := by
  have hphase : (cmd (descTaken p ctx ring d) p.qm.nextId).phase = .translating := congrArg Cmd.phase (cmd_descTaken p ctx ring d)
  exact finishCmd_gives _ _ (by simp [hphase]) (by simp [hphase])

/-- A fetched descriptor advances HEAD and is a new command of its ring: to be translated, or refused with the reason. -/
theorem fetched_makes (p : Pkg) (m : Memory) (ctx ring : Nat) (d : BitVec 1024) :
    let q := fetched p m ctx ring d
    let r := descReason p d ctx ring (namedChart p m ctx d) (dirFind p ctx (dHandle d)).isSome
    ringHead q ctx ring = (ringHead p ctx ring + 1) % 65536 ∧ (cmd q p.qm.nextId).desc = d ∧
      (cmd q p.qm.nextId).ctx = ctx ∧ (cmd q p.qm.nextId).ring = ring ∧
      if r = 0 then (cmd q p.qm.nextId).phase = .translating
      else (cmd q p.qm.nextId).phase = .finished ∧ (cmd q p.qm.nextId).status = 0x31 ∧ (cmd q p.qm.nextId).detail = r := by
  dsimp only
  rw [fetched_eq]
  dsimp only
  generalize descReason _ _ _ _ _ _ = r
  have hhead := ringHead_descTaken p ctx ring d
  have hcmd := cmd_descTaken p ctx ring d
  by_cases hr : r = 0
  · rw [if_pos hr, if_pos hr, hcmd]
    exact ⟨hhead, rfl, rfl, rfl, rfl⟩
  · have hgiven := refused_descTaken p ctx ring d r
    obtain ⟨x, y, hfin⟩ := hgiven.cmd
    rw [hcmd] at hfin
    rw [if_neg hr, if_neg hr, hfin]
    exact ⟨(fld_congr (hgiven.reg _) _ _).trans hhead, rfl, rfl, rfl, rfl, rfl, rfl⟩

theorem execDescriptorFetch_reads {s : State} {ctx ring v : Nat} {x : Xlate} {m : Memory} {q q1 : Pkg}
    (hmay : mayFetch s.pkg ctx ring = true)
    (hpage : pageOf s.pkg s.mem ctx 0 (ringClass s.pkg ctx ring) false (headVa s.pkg ctx ring) = (.ok x, m, q))
    (hread : qmRead q m (x.addr (headVa s.pkg ctx ring)) 128 (ringClass s.pkg ctx ring) = (.bytes v, q1)) :
    execDescriptorFetch ctx ring s = .next { s with mem := m, pkg := fetched q1 m ctx ring (BitVec.ofNat 1024 v) } := by
  simp only [execDescriptorFetch, hmay, if_true, hpage, hread]

/-- Settles O24: a doorbell by the room that it finds, a fetch by the one command that its descriptor makes. -/
theorem doorbellsAndFetchesMakeCommands : Obligations.DoorbellsAndFetchesMakeCommands := by
  unfold Obligations.DoorbellsAndFetchesMakeCommands
  refine ⟨?advances, ?overruns, ?waits, ?fetch, ?none⟩
  case advances =>
    intro s rq ctx ring n v hok hfate hn hpos hserved hroom
    exact ⟨_, execDoorbell_served hok hfate hserved, rfl, putDoorbell_advances hn hpos hroom⟩
  case overruns =>
    intro s rq ctx ring n v hok hfate hn hpos hserved hfull
    exact ⟨_, execDoorbell_served hok hfate hserved, rfl, putDoorbell_overruns hok hn hpos hfull⟩
  case waits =>
    intro s ctx ring v hheld
    have hexec : execDoorbell .host ctx ring v s = .next (s.onPkg (fun p => holdRequest p (.doorbell .host ctx ring v))) :=
      if_pos ⟨rfl, hheld⟩
    exact ⟨_, hexec, rfl, rfl, rfl⟩
  case fetch =>
    intro s ctx ring x m q q1 v hmay hpage hread
    exact ⟨_, execDescriptorFetch_reads hmay hpage hread, rfl, fetched_makes q1 m ctx ring (BitVec.ofNat 1024 v)⟩
  case none =>
    intro s ctx ring hmay
    show execDescriptorFetch ctx ring s = .next s
    simp [execDescriptorFetch, hmay]

end Sys2Proof.Machine
end

section
/-! Acceptance, dispatch, preemption and resumption (spec/08 R286, R290 to R293, R298): what each leaves of its command and of the
CE, and the proof of O25. -/

namespace Sys2Proof.Machine

/-! ## Acceptance (R286) -/

/-- An accepted command joins its ring's queue with the translations of its pages; then only heads of queues move. -/
theorem acceptCmd_heads (p : Pkg) (id : Nat) (pages : List (Nat × Xlate)) : ∃ q, OnlyHeads q (acceptCmd p id pages) ∧
    cmd q id = { cmd p id with
      pages := pages, phase := .waiting, noRoom := false, acceptOrder := p.qm.nextOrder
      acceptedAt := (List.range 4).map (fun s => SMap.get p.pace.beats s 0) } := by
  refine ⟨_, (noteHead_onlyHeads _ _ _).trans (settlePending_onlyHeads _ _ _ _), ?_⟩
  split <;> split <;> exact SMap.get_set_self _ _ _ _

theorem acceptCmd_accepts (p : Pkg) (id : Nat) (pages : List (Nat × Xlate)) :
    (cmd (acceptCmd p id pages) id).phase = .waiting ∧ (cmd (acceptCmd p id pages) id).pages = pages ∧
      (cmd (acceptCmd p id pages) id).desc = (cmd p id).desc := by
  obtain ⟨q, hheads, hq⟩ := acceptCmd_heads p id pages
  obtain ⟨x, y, hcmd⟩ := hheads.cmd id
  rw [hcmd, hq]
  exact ⟨rfl, rfl, rfl⟩

theorem tryAccept_noPages {id : Nat} {a : TrAcc} (hpages : a.pages = []) (hreason : moveReason (cmd a.pkg id) [] = none) :
    tryAccept id a = (a.mem, acceptCmd a.pkg id []) := by
  simp [tryAccept, hpages, hreason, moveInInset, waitTargetOk]

theorem tryAccept_room {id : Nat} {a : TrAcc} {es : List Nat} (hpages : a.pages ≠ [])
    (hreason : moveReason (cmd a.pkg id) a.pages = none) (hinset : moveInInset a.pkg (cmd a.pkg id) a.pages = false)
    (htarget : waitTargetOk (cmd a.pkg id) a.pages = true) (hon : bit a.pkg ctsControl 0 = true)
    (hroom : (ctsUsed a.pkg).length + a.pages.length ≤ ctsSize a.pkg)
    (hes : es = freeEntries (ctsUsed a.pkg) a.pages.length 0 ((ctsUsed a.pkg).length + a.pages.length)) :
    tryAccept id a = ((writeEntries a.pkg a.mem es).1,
      acceptCmd (writeEntries a.pkg a.mem es).2 id (giveEntries a.pages es)) := by
  subst hes
  have hlen : a.pages.length ≠ 0 := fun h => hpages (List.length_eq_zero_iff.1 h)
  have hfits : ¬ ctsSize a.pkg < a.pages.length := by omega
  simp only [tryAccept, hreason, hinset, htarget, hlen, hon, hfits, Nat.not_lt.2 hroom, Bool.not_true, Bool.or_self,
    Bool.false_eq_true, if_false]

section
variable {s : State} {id : Nat} {a : TrAcc} (ha : a = trCmd s.pkg s.mem id) (hhas : hasCmd s.pkg id = true)
  (hphase : (cmd s.pkg id).phase = .translating) (hces : s.pkg.ces.any (fun x => x.2.cmd == some id) = false)
  (hresume : waitsResume s.pkg id = false) (hfirst : earlierTranslating s.pkg id = false)
  (htail : (spill s.pkg (cmd s.pkg id).ctx (cmd s.pkg id).ring).tail.length < 16) (hfault : a.fault = none)
  (hwaits : a.waits = false)
include ha hhas hphase hces hresume hfirst htail hfault hwaits

/-- A command whose pages all have their translations goes on to its acceptance. -/
theorem execCommandTranslate_accepts :
    execCommandTranslate id s = .next { s with mem := (tryAccept id a).1, pkg := (tryAccept id a).2 } := by
  subst ha
  simp [execCommandTranslate, hhas, hphase, hces, hresume, hfirst, htail, hfault, hwaits]

end

/-! ## A command takes its CE (R192, R290, R292) -/

theorem clearFor_ces (p : Pkg) (n : Nat) (c : Cmd) : ∃ x, clearFor p n c = { p with ces := x } := by
  unfold clearFor
  dsimp only
  split
  · exact ⟨_, rfl⟩
  · split
    · exact ⟨_, rfl⟩
    · exact ⟨p.ces, rfl⟩

/-- Command `id`, `c` before, runs on CE n in q, with its fold record still taken. -/
structure RunsOn (c : Cmd) (q : Pkg) (id n : Nat) : Prop where
  onCe : (ce q n).cmd = some id
  phase : (cmd q id).phase = .running
  ces : (cmd q id).ces = [n]
  desc : (cmd q id).desc = c.desc
  fold : (cmd q id).fold = c.fold

theorem RunsOn.of_keepsWork {c : Cmd} {p q : Pkg} {id n : Nat} (h : RunsOn c p id n) (hq : KeepsWork p q) :
    RunsOn c q id n := by
  have hce := hq.ce_eq n
  have hcmd := hq.cmd_eq id
  refine ⟨?_, ?_, ?_, ?_, ?_⟩
  · rw [hce, h.onCe]
  · rw [hcmd, h.phase]
  · rw [hcmd, h.ces]
  · rw [hcmd, h.desc]
  · rw [hcmd, h.fold]

theorem RunsOn.of_onlyHeads {c : Cmd} {p q : Pkg} {id n : Nat} (h : RunsOn c p id n) (hq : OnlyHeads p q) :
    RunsOn c q id n := by
  obtain ⟨x, y, hcmd⟩ := hq.cmd id
  refine ⟨?_, ?_, ?_, ?_, ?_⟩
  · rw [hq.ce_eq, h.onCe]
  · rw [hcmd, h.phase]
  · rw [hcmd, h.ces]
  · rw [hcmd, h.desc]
  · rw [hcmd, h.fold]

/-- The package when the command stands on its CE, before its registers, its demand and its waypoint. -/
def ceGiven (p : Pkg) (id n : Nat) : Pkg :=
  let c := cmd p id
  let q := clearFor p n c
  setCmd (setCe q n { ce q n with cmd := some id, phase := 0, preempt := false, paused := false }) id { c with
    phase := .running, ces := [n], lastCe := n, startBeat := sheetBeats p n, requeued := false, aged := false }

/-- What a CE's registers show of the command that it has taken. -/
def ceShows (p : Pkg) (n : Nat) (c : Cmd) : Pkg :=
  setBusy (setReg (setFld (setBit p (ceStatus n) 31 true) (ceStatus n) 19 16 c.ctx) (key (pgCe n) 0x110) 0) (pgCe n) true

theorem takeCe_eq (p : Pkg) (id n : Nat) : takeCe p id n =
    let c := cmd p id
    let q := ceShows (ceGiven p id n) n c
    waypoint (if dPrio c.desc = 0 then q else addDemand q id (2 ^ (n / 256)) c) (pgCe n) 0x10 (cmdSub c) c.seq := by
  unfold takeCe ceShows ceGiven
  rfl

theorem reg_ceGiven (p : Pkg) (id n k : Nat) : reg (ceGiven p id n) k = reg p k := by
  obtain ⟨x, hx⟩ := clearFor_ces p n (cmd p id)
  have hclear : reg (clearFor p n (cmd p id)) k = reg p k := by
    rw [hx]
    exact reg_congr rfl rfl rfl k
  exact (reg_congr (setCmd_regs _ _ _) rfl rfl k).trans ((reg_setCe _ _ _ _).trans hclear)

theorem ceGiven_runsOn (p : Pkg) (id n : Nat) : RunsOn (cmd p id) (ceGiven p id n) id n := by
  have hcmd : cmd (ceGiven p id n) id = _ := cmd_setCmd_self _ _ _
  refine ⟨congrArg Ce.cmd (ce_setCe_self _ _ _), ?_, ?_, ?_, ?_⟩ <;> rw [hcmd]

theorem takeCe_runsOn (p : Pkg) (id n : Nat) : RunsOn (cmd p id) (takeCe p id n) id n := by
  rw [takeCe_eq]
  refine RunsOn.of_keepsWork (ceGiven_runsOn p id n) ?_
  have hshows : KeepsWork (ceGiven p id n) (ceShows (ceGiven p id n) n (cmd p id)) := ⟨rfl, rfl⟩
  refine hshows.trans (KeepsWork.trans ?_ (waypoint_only _ _ _ _ _).keepsWork)
  split
  · exact .refl _
  · exact ⟨rfl, rfl⟩

/-- A command that takes a CE writes registers of the CE's page and the power controller's counters of demands. -/
theorem takeCe_reg (p : Pkg) (id n pg : Nat) {off : Nat} (ho : off < 0x1000) (h : off ∉ [8, 0x100, 0x110, 0x2A8, 0x2B0]) :
    reg (takeCe p id n) (key pg off) = reg p (key pg off) := by
  simp only [List.mem_cons, List.not_mem_nil, or_false, not_or] at h
  obtain ⟨h8, h100, h110, h2A8, h2B0⟩ := h
  have hstatus : key pg off ≠ ceStatus n := key_ne _ _ ho (by decide) h100
  have hshows : reg (ceShows (ceGiven p id n) n (cmd p id)) (key pg off) = reg p (key pg off) := by
    rw [ceShows, setBusy_reg_off _ _ _ _ ho h8, reg_setReg_ne _ _ (key_ne _ _ ho (by decide) h110),
      reg_setFld_ne _ _ _ _ hstatus, setBit, reg_setFld_ne _ _ _ _ hstatus, reg_ceGiven]
  rw [takeCe_eq, waypoint_reg]
  split
  · exact hshows
  · unfold addDemand
    refine (reg_setReg_ne _ _ ?_).trans ((reg_withPwr _ _ _).trans hshows)
    split
    · exact key_ne _ _ ho (by decide) h2A8
    · exact key_ne _ _ ho (by decide) h2B0

/-! ## The chart load of a dispatch (R288) -/

theorem beginLoad_cases {p q : Pkg} {n id : Nat} {e : DirEnt} {b : Bool} (h : beginLoad p n id e = some (b, q)) :
    q = p ∨ ∃ j x, q = setSlot p n j x := by
  unfold beginLoad at h
  split_ifs at h
  · simp only [Option.some.injEq, Prod.mk.injEq] at h
    exact .inl h.2.symm
  · simp only [Option.map_eq_some_iff, Prod.mk.injEq] at h
    obtain ⟨j, -, -, hq⟩ := h
    exact .inr ⟨j, _, hq.symm⟩

/-- Slots and a load owed are no part of what a command's run on its CE is. -/
theorem RunsOn.of_setCe {c : Cmd} {p : Pkg} {id n : Nat} {x : Ce} (h : RunsOn c p id n) (hx : x.cmd = (ce p n).cmd) :
    RunsOn c (setCe p n x) id n :=
  ⟨(congrArg Ce.cmd (ce_setCe_self _ _ _)).trans (hx.trans h.onCe), h.phase, h.ces, h.desc, h.fold⟩

theorem loadFor_runsOn {c : Cmd} {p : Pkg} {id n : Nat} (h : RunsOn c p id n) : RunsOn c (loadFor p id n) id n := by
  unfold loadFor
  dsimp only
  split
  · split
    · split
      next hload =>
        obtain rfl | ⟨j, x, rfl⟩ := beginLoad_cases hload
        · exact h.of_setCe rfl
        · exact (h.of_setCe (x := { ce p n with slots := SMap.set (ce p n).slots j x }) rfl).of_setCe rfl
      next => exact h.of_setCe rfl
    · exact h
  · exact h

/-- A command other than RUN has no chart to load. -/
theorem loadFor_noChart {p : Pkg} {id n : Nat} (h : dOpcode (cmd p id).desc ≠ 2) : loadFor p id n = p := by
  unfold loadFor
  dsimp only
  split
  · exact if_neg h
  · rfl

/-! ## Dispatch (R290) -/

theorem dispatchTo_runsOn {p : Pkg} {id n : Nat}
    (hcrc : dOpcode (cmd p id).desc = 2 → (neededCrc p (cmd p id)).isSome = true) :
    RunsOn (cmd p id) (dispatchTo p id n) id n := by
  have hgone : ¬ (dOpcode (cmd p id).desc = 2 ∧ (neededCrc p (cmd p id)).isNone = true) := by
    rintro ⟨hop, hnone⟩
    simp [Option.isNone_iff_eq_none.1 hnone] at hcrc
    exact hcrc hop
  have htaken : RunsOn (cmd p id) (takeCe (if (cmd p id).requeued then p else noteRobin p (cmd p id)) id n) id n := by
    have hcmd : cmd (if (cmd p id).requeued then p else noteRobin p (cmd p id)) id = cmd p id := ite_keeps (cmd · id) rfl rfl
    have hruns := takeCe_runsOn (if (cmd p id).requeued then p else noteRobin p (cmd p id)) id n
    rwa [hcmd] at hruns
  rw [dispatchTo, if_neg hgone]
  exact ((loadFor_runsOn htaken).of_onlyHeads (settlePending_onlyHeads _ _ _ _)).of_keepsWork
    (keepsWork_traceCmd _ _ _ _ _ _ _ _ _)

theorem touchDir_runsOn {c : Cmd} {p : Pkg} {id n : Nat} (h : RunsOn c p id n) (x : Cmd) : RunsOn c (touchDir p x) id n := by
  unfold touchDir
  split
  · exact ⟨h.onCe, h.phase, h.ces, h.desc, h.fold⟩
  · exact h

/-! ## Preemption (R293) -/

/-- An INTERACTIVE command without a CE asks the BULK victim to yield. -/
theorem doPreempt_asks {p : Pkg} {id n : Nat} (hhas : hasCmd p id = true) (hneeds : needsCe (cmd p id) = true)
    (hprio : dPrio (cmd p id).desc = 0) (hmay : mayStart p id = true) (hopen : preemptOpen p (cmd p id) = false)
    (hpick : pickCe p id (fun _ => true) = none) (harea : bit p foldArea 0 = true)
    (hvictim : victimOf p (dPlace (cmd p id).desc) 2 = some n) :
    KeepsWork (setCmd (setCe p n { ce p n with preempt := true }) id { cmd p id with preempting := some n })
      (doPreempt id p) := by
  simp only [doPreempt, hhas, hneeds, hprio, hmay, hopen, hpick, harea, hvictim, BEq.rfl, Bool.or_true, Bool.not_false,
    Option.isNone_none, Bool.and_self, if_true]
  exact keepsWork_traceCmd _ _ _ _ _ _ _ _ _

/-! ## Resumption (R298) -/

theorem freeRecord_frees {p : Pkg} {id i : Nat} (h : (cmd p id).fold = some i) :
    cmd (freeRecord p id) id = { cmd p id with fold := none } ∧ (freeRecord p id).ces = p.ces := by
  simp only [freeRecord, h]
  exact ⟨cmd_setCmd_self _ _ _, rfl⟩

/-- A command other than RUN goes on from the progress in its fold record, which is freed. -/
theorem resumeOn_goesOn {c : Cmd} {p : Pkg} (m : Memory) {id n i : Nat} (h : RunsOn c p id n) (hop : dOpcode c.desc ≠ 2)
    (hfold : c.fold = some i) : let q := resumeOn p m id n i
    (ce q n).cmd = some id ∧ (cmd q id).phase = .running ∧ (cmd q id).fold = none ∧
      (cmd q id).progress = m.read (foldAddr p i) 1024 / 2 ^ 128 % 2 ^ 64 := by
  dsimp only
  rw [resumeOn]
  dsimp only
  rw [if_neg (by rw [h.desc]; exact hop)]
  generalize hq : setReg (setCe _ n _) _ _ = q
  have hcmd : cmd q id = { cmd p id with progress := m.read (foldAddr p i) 1024 / 2 ^ 128 % 2 ^ 64 } := by
    rw [← hq]
    exact cmd_setCmd_self _ _ _
  have hce : (ce q n).cmd = some id := by
    rw [← hq]
    exact (congrArg Ce.cmd (ce_setCe_self _ _ _)).trans h.onCe
  obtain ⟨hfree, hces⟩ := freeRecord_frees (p := q) (id := id) (i := i) (by rw [hcmd]; exact h.fold.trans hfold)
  rw [hfree, ce_congr hces, hcmd]
  exact ⟨hce, h.phase, rfl, rfl⟩

theorem foldAddr_congr {p q : Pkg} (h : reg q foldArea = reg p foldArea) (i : Nat) : foldAddr q i = foldAddr p i :=
  congrArg (fun x => x * 0x200000 + 1024 * i) (fld_congr h 51 21)

/-- A preempted MOVE takes the CE that R298 picks and goes on there from its fold record. -/
theorem doCommandResume_goesOn {p : Pkg} (m : Memory) {id n i : Nat} (hhas : hasCmd p id = true)
    (hphase : (cmd p id).phase = .preempted) (hstale : (cmd p id).stale = false) (hop : dOpcode (cmd p id).desc = 3)
    (hready : ready p pgQm = true) (hheld : dispatchHeld p = false)
    (hpick : pickCe p id (fun n => !wantedAbove p (servedClass (cmd p id)) n) = some n) (hfold : (cmd p id).fold = some i) :
    let q := doCommandResume id m p
    (ce q n).cmd = some id ∧ (cmd q id).phase = .running ∧ (cmd q id).fold = none ∧
      (cmd q id).progress = m.read (foldAddr p i) 1024 / 2 ^ 128 % 2 ^ 64 := by
  have hrun : dOpcode (cmd p id).desc ≠ 2 := by simp [hop]
  have htaken := takeCe_runsOn p id n
  have hload : loadFor (takeCe p id n) id n = takeCe p id n := loadFor_noChart (by rw [htaken.desc]; exact hrun)
  have hsup : superseded p (cmd p id) = false := by simp [superseded, hop]
  simp only [doCommandResume, hhas, hphase, hstale, hready, hheld, hsup, hpick, hfold, hload, if_neg hrun, BEq.rfl,
    Bool.not_false, Bool.and_self, Bool.false_eq_true, if_true, if_false]
  generalize hq : traceCmd (takeCe p id n) _ _ _ _ _ _ _ _ = q
  have haddr : foldAddr q i = foldAddr p i := by
    refine foldAddr_congr ?_ i
    rw [← hq, foldArea, traceCmd_reg _ _ _ _ _ _ _ _ _ _ (by decide) (by decide), takeCe_reg _ _ _ _ (by decide) (by decide)]
  have hruns : RunsOn (cmd p id) q id n := hq ▸ htaken.of_keepsWork (keepsWork_traceCmd _ _ _ _ _ _ _ _ _)
  rw [← haddr]
  exact resumeOn_goesOn m hruns hrun hfold

/-! ## Age (R291) -/

theorem doBulkAgeExpiry_ages {p : Pkg} {ctx ring id : Nat} (hnext : ringNext p ctx ring = some id)
    (hok : ringOk ctx ring = true) (hhas : hasCmd p id = true) (hage : fld p (key pgQm 0x120) 15 0 ≠ 0)
    (hprio : dPrio (cmd p id).desc = 2) (hphase : (cmd p id).phase = .waiting) (hfrom : (cmd p id).ageFrom ≠ 0)
    (hlong : (cmd p id).ageFrom - 1 + 1000000 * fld p (key pgQm 0x120) 15 0 ≤ timerNow p) :
    doBulkAgeExpiry ctx ring p = setCmd p id { cmd p id with aged := true } := by
  simp [doBulkAgeExpiry, hnext, hok, hhas, hage, hprio, hphase, hfrom, hlong]

/-- Settles O25: acceptance by the entries that it gives, dispatch and resumption by the CE that the command then runs on, preemption
by the CE that it asks, age by the class that it changes. -/
theorem commandsAreAcceptedDispatchedAndPreempted : Obligations.CommandsAreAcceptedDispatchedAndPreempted := by
  unfold Obligations.CommandsAreAcceptedDispatchedAndPreempted
  refine ⟨?noPages, ?pages, ?dispatch, ?preempt, ?resume, ?age⟩
  case noPages =>
    intro s id a ha hhas hphase hces hresume hfirst htail hfault hwaits hpages hreason
    obtain ⟨hwaiting, -, hdesc⟩ := acceptCmd_accepts a.pkg id []
    refine ⟨_, execCommandTranslate_accepts ha hhas hphase hces hresume hfirst htail hfault hwaits, ?_⟩
    rw [tryAccept_noPages hpages hreason]
    exact ⟨rfl, hwaiting, hdesc⟩
  case pages =>
    intro s id a es ha hhas hphase hces hresume hfirst htail hfault hwaits hpages hreason hinset htarget hon hroom hes
    obtain ⟨hwaiting, hgiven, -⟩ := acceptCmd_accepts (writeEntries a.pkg a.mem es).2 id (giveEntries a.pages es)
    refine ⟨_, execCommandTranslate_accepts ha hhas hphase hces hresume hfirst htail hfault hwaits, ?_⟩
    rw [tryAccept_room hpages hreason hinset htarget hon hroom hes]
    exact ⟨rfl, hwaiting, hgiven⟩
  case dispatch =>
    intro s id n hnext hcrc
    have hruns : RunsOn (cmd s.pkg id) (doCommandDispatch s.pkg) id n := by
      simp only [doCommandDispatch, hnext]
      exact touchDir_runsOn (dispatchTo_runsOn hcrc) _
    exact ⟨_, rfl, rfl, hruns.onCe, hruns.phase, hruns.ces, hruns.desc⟩
  case preempt =>
    intro s id n hhas hneeds hprio hmay hopen hpick harea hvictim
    have hasks := doPreempt_asks hhas hneeds hprio hmay hopen hpick harea hvictim
    have hce := (hasks.ce_eq n).trans (ce_setCe_self _ _ _)
    have hcmd := (hasks.cmd_eq id).trans (cmd_setCmd_self _ _ _)
    refine ⟨_, rfl, ?_, ?_, congrArg Cmd.preempting hcmd, rfl⟩ <;> rw [State.onPkg_pkg, hce]
  case resume =>
    intro s id n i hhas hphase hstale hop hready hheld hpick hfold
    exact ⟨_, rfl, rfl, doCommandResume_goesOn s.mem hhas hphase hstale hop hready hheld hpick hfold⟩
  case age =>
    intro s ctx ring id hnext hok hhas hage hprio hphase hfrom hlong
    refine ⟨_, rfl, ?_, rfl⟩
    rw [State.onPkg_pkg, doBulkAgeExpiry_ages hnext hok hhas hage hprio hphase hfrom hlong, cmd_setCmd_self]
    simp [servedClass, hprio]

end Sys2Proof.Machine
end

section
/-! Accesses at homes and walks (spec/10, spec/11, spec/13, spec/14 R473 to R479): none of them changes a command or a CE. -/

namespace Sys2Proof.Machine

theorem KeepsWork.foldl {α : Type} {f : Pkg → α → Pkg} (hf : ∀ p a, KeepsWork p (f p a)) (l : List α) (p : Pkg) :
    KeepsWork p (l.foldl f p) := by
  induction l generalizing p with
  | nil => exact .refl p
  | cons a t ih => exact (hf p a).trans (ih (f p a))

/-! ## Caches and memory controllers (R358 to R366, R383) -/

theorem keepsWork_addReg (p : Pkg) (k n : Nat) : KeepsWork p (addReg p k n) := ⟨rfl, rfl⟩

theorem keepsWork_memSend (p : Pkg) (pa cls : Nat) (w : Bool) : KeepsWork p (memSend p pa cls w) := by
  unfold memSend
  split
  · exact ⟨rfl, rfl⟩
  · exact .refl p

theorem keepsWork_writeBack (p : Pkg) (sl line : Nat) : KeepsWork p (writeBack p sl line) :=
  (keepsWork_addReg p _ 1).trans (keepsWork_memSend _ _ _ _)

theorem keepsWork_setTags (p : Pkg) (sl : Nat) (t : SMap Tag) : KeepsWork p (setTags p sl t) := ⟨rfl, rfl⟩

theorem keepsWork_slmFill (p : Pkg) (sl line hint : Nat) (dirty : Bool) : KeepsWork p (slmFill p sl line hint dirty) := by
  have hfill (q : Pkg) (t : SMap Tag) (n : Nat) :
      KeepsWork q (countPins (setFld (setTags q sl t) (key (pgSl sl) 0x104) 15 0 n) sl) := ⟨rfl, rfl⟩
  unfold slmFill
  dsimp only
  split
  · split
    · exact keepsWork_writeBack _ _ _
    · exact .refl p
  · refine KeepsWork.trans ?_ (hfill _ _ _)
    split
    · split
      · exact keepsWork_writeBack _ _ _
      · exact .refl p
    · exact .refl p

theorem keepsWork_slmRead (p : Pkg) (sl pa cls hint : Nat) : KeepsWork p (slmRead p sl pa cls hint) := by
  have hmiss := (keepsWork_addReg p (key (pgSl sl) 0x118) 1).trans (keepsWork_memSend _ pa cls false)
  unfold slmRead
  dsimp only
  split
  · exact ⟨rfl, rfl⟩
  · split
    · exact hmiss
    · exact hmiss.trans (keepsWork_slmFill _ _ _ _ _)

theorem keepsWork_slmWrite (p : Pkg) (sl pa : Nat) (stream : Bool) : KeepsWork p (slmWrite p sl pa stream) := by
  unfold slmWrite
  dsimp only
  split
  · exact keepsWork_setTags _ _ _
  · split
    · exact keepsWork_memSend _ _ _ _
    · exact keepsWork_slmFill _ _ _ _ _

theorem keepsWork_ddrRead (p : Pkg) (pa cls : Nat) : KeepsWork p (ddrRead p pa cls) := by
  unfold ddrRead
  split
  · exact .refl p
  · exact ⟨rfl, rfl⟩

/-! ## Bridges, filters and recalls (R448 to R467, R469) -/

theorem keepsWork_crossLine (p : Pkg) (who pa : Nat) (read : Bool) : KeepsWork p (crossLine p who pa read) := by
  unfold crossLine
  split
  · unfold carryLine
    dsimp only
    refine KeepsWork.trans (q := if _ then _ else p) ?_ (.foldl (fun q h => ?_) _ _)
    · split <;> exact ⟨rfl, rfl⟩
    · split
      · exact .refl q
      · split <;> exact ⟨rfl, rfl⟩
  · exact .refl p

theorem keepsWork_hartEvent (p : Pkg) (h code n : Nat) : KeepsWork p (hartEvent p h code n) :=
  by
  have hcount (q : Pkg) (i : Nat) (v : W64) : KeepsWork q (setCsr q h i v) := ⟨rfl, rfl⟩
  exact .foldl (fun q i => hcount q _ _) _ p

theorem keepsWork_loseResv (p : Pkg) (h line : Nat) : KeepsWork p (loseResv p h line) := by
  unfold loseResv
  split <;> exact ⟨rfl, rfl⟩

theorem keepsWork_snooped (p : Pkg) (line h : Nat) : KeepsWork p (snooped p line h) := by
  unfold snooped
  dsimp only
  split
  · exact (keepsWork_hartEvent _ _ _ _).trans (keepsWork_hartEvent _ _ _ _)
  · exact keepsWork_hartEvent _ _ _ _

theorem keepsWork_snoopInv (p : Pkg) (line : Nat) (but : Option Nat) : KeepsWork p (snoopInv p line but) := by
  unfold snoopInv
  refine KeepsWork.trans (.foldl (fun q h => ?_) _ p) ⟨rfl, rfl⟩
  exact (keepsWork_snooped q line h).trans (keepsWork_loseResv _ _ _)

theorem keepsWork_biStart (p : Pkg) (line : Nat) (inv : Bool) (req : Option HomeReq) : KeepsWork p (biStart p line inv req) := by
  unfold biStart
  split
  · exact ⟨rfl, rfl⟩
  · dsimp only
    split <;> exact ⟨rfl, rfl⟩

theorem keepsWork_endRepair (p : Pkg) (line : Nat) : KeepsWork p (endRepair p line) := by
  have hgone (f : FaultSt) : KeepsWork p { p with fault := f } := ⟨rfl, rfl⟩
  have hended (q : Pkg) (pg : Nat) : KeepsWork q (endHandling q pg (2 * line)) := ⟨rfl, rfl⟩
  unfold endRepair
  split
  · exact (hgone _).trans (.foldl hended _ _)
  · exact .refl p

/-! ## Reads and writes at a home (Table 13-3) -/

theorem keepsWork_homeRead (p : Pkg) (pa cls hint : Nat) (wait : Option HomeReq) :
    KeepsWork p (homeRead p pa cls hint wait).2 := by
  unfold homeRead
  dsimp only
  split
  · exact keepsWork_biStart _ _ _ _
  · split
    · exact keepsWork_slmRead _ _ _ _ _
    · exact keepsWork_ddrRead _ _ _
    · exact .refl p

theorem keepsWork_homeStore (p : Pkg) (pa : Nat) (stream : Bool) (who : Nat) : KeepsWork p (homeStore p pa stream who) := by
  have hinv := (keepsWork_endRepair p (pa / 64)).trans (keepsWork_snoopInv _ (pa / 64) none)
  unfold homeStore
  refine hinv.trans (KeepsWork.trans (q := match region pa with | .hbm _ _ => _ | .ddr _ => _ | _ => _) ?_ ⟨rfl, rfl⟩)
  split
  · exact keepsWork_slmWrite _ _ _ _
  · split
    · exact keepsWork_memSend _ _ _ _
    · exact .refl _
  · exact .refl _

theorem keepsWork_homeWrite (p : Pkg) (pa : Nat) (stream : Bool) (who : Nat) : KeepsWork p (homeWrite p pa stream who) :=
  (keepsWork_crossLine p who pa false).trans (keepsWork_homeStore _ pa stream who)

/-! ## Walks and ATS (R475 to R479) -/

theorem keepsWork_entryRead (p : Pkg) (m : Memory) (who a cls : Nat) : KeepsWork p (entryRead p m who a cls).2 := by
  have hread := keepsWork_homeRead p a cls 0 none
  unfold entryRead
  split
  · split
    next hr =>
      rw [hr] at hread
      exact hread
    next hr =>
      rw [hr] at hread
      exact hread.trans (keepsWork_crossLine _ _ _ _)
  · exact .refl p
  · exact .refl p

theorem keepsWork_entryMark (p : Pkg) (m : Memory) (who a : Nat) (old new : W64) :
    KeepsWork p (entryMark p m who a old new).2 := by
  unfold entryMark
  split
  · exact .refl p
  · split
    · exact keepsWork_biStart _ _ _ _
    · exact keepsWork_homeWrite _ _ _ _

/-- A leaf entry found by a walk: the walk marks it, or reports its fault. -/
theorem keepsWork_leaf (p : Pkg) (m : Memory) (r : PageRes) (a : Nat) (old new : W64) :
    KeepsWork p (match r with
      | .ok x =>
        match entryMark p m 0 a old new with
        | (some m1, q1) => (PageRes.ok x, m1, q1)
        | (none, q1) => (PageRes.waits, m, q1)
      | r => (r, m, p)).2.2 := by
  have hmark := keepsWork_entryMark p m 0 a old new
  split
  · split
    next hm => rwa [hm] at hmark
    next hm => rwa [hm] at hmark
  · exact .refl p

/-- A walk keeps commands and CEs where what it does at the levels below keeps them. -/
theorem keepsWork_level {m : Memory} {ctx kind cls : Nat} {write : Bool} {va level : Nat} (p : Pkg) (table : Nat)
    (hbelow : ∀ l, level = l + 1 → ∀ q t, KeepsWork q (walkFrom q m ctx kind cls write va l t).2.2) :
    KeepsWork p (walkFrom p m ctx kind cls write va level table).2.2 := by
  have hread := keepsWork_entryRead p m 0 (table + 8 * (va / 2 ^ (12 + 9 * level) % 512)) cls
  rw [walkFrom.eq_def]
  split
  · exact .refl p
  split
  · exact .refl p
  dsimp only
  split
  next hr => rwa [hr] at hread
  next hr => rwa [hr] at hread
  next e q hr =>
    rw [hr] at hread
    refine hread.trans ?_
    split
    · exact .refl q
    split
    · exact .refl q
    split
    · exact keepsWork_leaf q m _ _ _ _
    split
    · exact .refl q
    · exact hbelow _ rfl q _

theorem keepsWork_walkFrom (p : Pkg) (m : Memory) (ctx kind cls : Nat) (write : Bool) (va level table : Nat) :
    KeepsWork p (walkFrom p m ctx kind cls write va level table).2.2 := by
  induction level generalizing p table with
  | zero => exact keepsWork_level p table fun l h => nomatch h
  | succ level ih => exact keepsWork_level p table fun l h => Nat.succ.inj h ▸ ih

theorem keepsWork_walkPage (p : Pkg) (m : Memory) (ctx kind cls : Nat) (write : Bool) (va : Nat) :
    KeepsWork p (walkPage p m ctx kind cls write va).2.2 := by
  unfold walkPage
  dsimp only
  generalize (_ || _ : Bool) = canon
  split
  · exact .refl p
  split
  · exact .refl p
  · exact keepsWork_walkFrom _ _ _ _ _ _ _ _ _

theorem keepsWork_askPri (p : Pkg) (ctx page : Nat) : KeepsWork p (askPri p ctx page) := by
  unfold askPri
  dsimp only
  split <;> exact ⟨rfl, rfl⟩

theorem keepsWork_askAts (p : Pkg) (ctx page : Nat) (write : Bool) : KeepsWork p (askAts p ctx page write) := ⟨rfl, rfl⟩

theorem keepsWork_atsPage (p : Pkg) (ctx : Nat) (write : Bool) (page : Nat) : KeepsWork p (atsPage p ctx write page).2 := by
  unfold atsPage
  dsimp only
  split
  · exact ⟨rfl, rfl⟩
  split
  · split
    · exact ⟨rfl, rfl⟩
    · exact .refl p
  split
  · split
    · exact ⟨rfl, rfl⟩
    · exact .refl p
  split
  · exact .refl p
  split
  · split
    · exact .refl p
    · exact keepsWork_askPri _ _ _
  · exact keepsWork_askAts _ _ _ _

/-- The translation of one page changes no command and no CE. -/
theorem keepsWork_pageOf (p : Pkg) (m : Memory) (ctx kind cls : Nat) (write : Bool) (va : Nat) :
    KeepsWork p (pageOf p m ctx kind cls write va).2.2 := by
  unfold pageOf
  dsimp only
  split
  · exact keepsWork_walkPage _ _ _ _ _ _ _
  · exact keepsWork_atsPage _ _ _ _

end Sys2Proof.Machine
end

section
/-! The end of a command at its ring, RING_CONTROL, QM_RING_CFG and CQ_HEAD (spec/08 R294, R301, R309, R312, spec/22 R742), and the
proof of O26. -/

namespace Sys2Proof.Machine

/-! ## The completion record (R301) -/

theorem keepsWork_recordWrite (p : Pkg) (pa : Nat) : KeepsWork p (recordWrite p pa) := by
  unfold recordWrite
  split
  · exact ⟨rfl, rfl⟩
  · exact keepsWork_homeWrite _ _ _ _

theorem settleDrains_qm (p : Pkg) : (settleDrains p).qm = p.qm :=
  foldl_keeps Pkg.qm (fun q _ => ite_keeps Pkg.qm (drained_keeps q _).1 rfl) _ p

theorem holdEnds_qm (p q : Pkg) (c : Cmd) : (holdEnds p q c).qm = q.qm := by
  unfold holdEnds
  split
  · exact ite_keeps Pkg.qm (keepsWork_traceCmd _ _ _ _ _ _ _ _ _).qm rfl
  · rfl

theorem contourUpdate_qm (p : Pkg) (c : Cmd) : (contourUpdate p c).qm = p.qm := ite_keeps Pkg.qm rfl rfl

theorem setBit_if_qm (c : Prop) [Decidable c] (p : Pkg) (k n : Nat) (b : Bool) : (if c then setBit p k n b else p).qm = p.qm :=
  ite_keeps Pkg.qm rfl rfl

theorem setBit_unless_qm (c : Prop) [Decidable c] (p : Pkg) (k n : Nat) (b : Bool) : (if c then p else setBit p k n b).qm = p.qm :=
  ite_keeps Pkg.qm rfl rfl

/-- A completed command that no CE holds leaves the queue manager. -/
theorem completed_drops {p : Pkg} {id : Nat} (hfree : p.ces.any (fun x => x.2.cmd == some id) = false) :
    hasCmd (completed p id) id = false := by
  have hcmds : (completed p id).qm.cmds = SMap.drop p.qm.cmds (fun i => i == id) := by
    unfold completed
    dsimp only
    rw [settleDrains_qm, holdEnds_qm, setBit_unless_qm, setBit_if_qm,
      (keepsWork_traceCmd _ _ _ _ _ _ _ _ _).qm, (deliver_only _ _ _).log.qm_eq, contourUpdate_qm]
    exact if_neg (Bool.eq_false_iff.1 hfree)
  rw [hasCmd, hcmds]
  exact SMap.any_drop_self _ _

/-- The record is written at CQ_TAIL, with what its page's walk left of memory and package. -/
theorem execCompletionWrite_served {s : State} {id va : Nat} {x : Xlate} {m : Memory} {q : Pkg} (hhas : hasCmd s.pkg id = true)
    (hfin : (cmd s.pkg id).phase = .finished) (hready : ready s.pkg pgQm = true)
    (hva : va = cqVa s.pkg (cmd s.pkg id).ctx (cmd s.pkg id).ring)
    (hpage : pageOf s.pkg s.mem (cmd s.pkg id).ctx 1 (ringClass s.pkg (cmd s.pkg id).ctx (cmd s.pkg id).ring) true va = (.ok x, m, q))
    (hfate : fateFor q (idRing 0 0) (x.addr va) false = .served) (hheld : recordHeld q (x.addr va) = false) :
    execCompletionWrite id s = .next { s with
      mem := m.write (x.addr va) 32 (completionRecord q (cmd s.pkg id)), pkg := completed (recordWrite q (x.addr va)) id } := by
  subst hva
  simp only [execCompletionWrite, hhas, hfin, hready, hpage, hfate, hheld, beq_self_eq_true, Bool.and_self, if_true,
    Bool.false_eq_true, if_false]

/-! ## RING_CONTROL (R294, R309) -/

theorem ringControl_accepted {s : State} {rq : Requester} {ctx ring : Nat} (v : W32) (hok : ringOk ctx ring = true)
    (hfate : writeFate s.pkg rq (ringPage ctx) (ringOff ring 0x28) = .accepted) :
    (s.onPkg (doRingControl rq ctx ring v)).pkg = putRingControl ctx ring (v.setWidth 64) s.pkg := by
  rw [State.onPkg_pkg, doRingControl, if_pos hok, ifWrites_accepted _ hfate]

theorem putRingControl_abort {v : W64} (hv : bitsOf v 1 0 = 1) (ctx ring : Nat) (p : Pkg) :
    putRingControl ctx ring v p = ringAbort ctx ring p := by
  have h0 : bitOf v 0 = true := by rw [bitOf_eq_testBit v (hi := 1) (lo := 0) (by decide) (by decide), hv]; decide
  have h1 : bitOf v 1 = false := by rw [bitOf_eq_testBit v (hi := 1) (lo := 0) (by decide) (by decide), hv]; decide
  rw [putRingControl, h0, h1]
  rfl

theorem putRingControl_restart {v : W64} (hv : bitsOf v 1 0 = 2) (ctx ring : Nat) (p : Pkg) :
    putRingControl ctx ring v p = setFld p (ringCfg ctx ring) 27 26 0 := by
  have h0 : bitOf v 0 = false := by rw [bitOf_eq_testBit v (hi := 1) (lo := 0) (by decide) (by decide), hv]; decide
  have h1 : bitOf v 1 = true := by rw [bitOf_eq_testBit v (hi := 1) (lo := 0) (by decide) (by decide), hv]; decide
  rw [putRingControl, h0, h1]
  rfl

/-- A ring whose pending queue an ABORT has emptied: HEAD at TAIL and no descriptor in its spill (R309). -/
def ringEmptied (ctx ring : Nat) (p : Pkg) : Pkg :=
  let p1 := setFld p (ringStatus ctx ring) 31 16 (ringTail p ctx ring)
  setSpill p1 ctx ring { spill p1 ctx ring with head := [], tail := [], regionRd := (spill p1 ctx ring).regionWr }

/-- What waits for commands `ids` of an aborted ring is dropped, its bells with it, and ABORTING stands while aborted commands
remain. -/
def abortSettled (ctx ring : Nat) (ids : List Nat) (p : Pkg) : Pkg :=
  let q := setXl { p with qm := { p.qm with bells := SMap.drop p.qm.bells (fun k => k / 65536 == ringId ctx ring) } }
    { p.xl with waits := p.xl.waits.filter (fun w => w.id ∉ ids) }
  setBit q (ringCfg ctx ring) 25 ((ringCmds q ctx ring).any (·.2.ringAborted))

theorem ringAbort_eq (ctx ring : Nat) (p : Pkg) : ringAbort ctx ring p =
    abortSettled ctx ring ((ringCmds p ctx ring).map (·.1))
      (((ringCmds p ctx ring).map (·.1)).foldl abortCmd (ringEmptied ctx ring p)) := rfl

theorem ringHead_ringEmptied (ctx ring : Nat) (p : Pkg) : ringHead (ringEmptied ctx ring p) ctx ring = ringTail p ctx ring := by
  have hset : ringHead (ringEmptied ctx ring p) ctx ring = ringTail p ctx ring % 65536 :=
    fld_setFld_self p (ringStatus ctx ring) 31 16 (ringTail p ctx ring) (by decide) (by decide)
  rw [hset]
  exact Nat.mod_eq_of_lt (ringTail_lt p ctx ring)

theorem depth_ringEmptied (ctx ring : Nat) (p : Pkg) : (spill (ringEmptied ctx ring p) ctx ring).depth = 0 := by
  rw [spill, ringEmptied, setSpill, SMap.get_set_self]
  simp [Spill.depth, Spill.inRegion]

theorem ringHead_abortSettled (ctx ring : Nat) (ids : List Nat) (p : Pkg) :
    ringHead (abortSettled ctx ring ids p) ctx ring = ringHead p ctx ring :=
  (fld_setFld_ne _ _ _ _ _ _ (ringStatus_ne_ringCfg ctx ring)).trans (fld_congr (reg_congr rfl rfl rfl _) _ _)

theorem spill_abortSettled (ctx ring : Nat) (ids : List Nat) (p : Pkg) :
    spill (abortSettled ctx ring ids p) ctx ring = spill p ctx ring := rfl

theorem bit_abortSettled (ctx ring : Nat) (ids : List Nat) (p : Pkg) :
    bit (abortSettled ctx ring ids p) (ringCfg ctx ring) 25 = (ringCmds p ctx ring).any (·.2.ringAborted) :=
  bit_setBit_self _ _ _ _ (by decide)

/-- A command of the ring that the abort has marked keeps ABORTING set. -/
theorem ringCmds_any_aborted {p : Pkg} {ctx ring id : Nat} (hctx : (cmd p id).ctx = ctx) (hring : (cmd p id).ring = ring)
    (hphase : (cmd p id).phase = .finished) (hab : (cmd p id).ringAborted = true) :
    (ringCmds p ctx ring).any (·.2.ringAborted) = true := by
  have hne : cmd p id ≠ noCmd := fun h => absurd (h ▸ hab) (by decide)
  have hmem : (id, cmd p id) ∈ p.qm.cmds := SMap.mem_of_get (d := noCmd) rfl hne
  rw [List.any_eq_true]
  refine ⟨(id, cmd p id), List.mem_filter.2 ⟨hmem, ?_⟩, hab⟩
  simp [hctx, hring, hphase]

/-- A waiting command of an aborted ring gets status 0x40 with detail 1, and is marked as aborted. -/
theorem abortCmd_waiting {p : Pkg} {id : Nat} (h : (cmd p id).phase = .waiting) :
    StatusGiven (setCmd p id { cmd p id with ringAborted := true }) (abortCmd p id) id 0x40 1 := by
  have hcmd : cmd (setCmd p id { cmd p id with ringAborted := true }) id = { cmd p id with ringAborted := true } :=
    cmd_setCmd_self _ _ _
  have habort : abortCmd p id = finishCmd (setCmd p id { cmd p id with ringAborted := true }) id 0x40 1 := by
    rw [abortCmd, h]
  rw [habort]
  refine finishCmd_gives 0x40 1 ?_ ?_ <;> rw [hcmd]
  · exact fun hp => nomatch h.symm.trans hp
  · exact fun hp => nomatch h.symm.trans hp

/-- Settles O26. A completion record is written once its page is translated and its command is then dropped; an ABORT is followed
through the emptied ring and the fold over its commands; the other writes of the ring's registers are single writes. -/
theorem ringsCompleteAbortAndRestart : Obligations.RingsCompleteAbortAndRestart := by
  unfold Obligations.RingsCompleteAbortAndRestart
  refine ⟨?completes, ?abortsEmpty, ?abortsWaiting, ?restarts, ?configures, ?cqHead⟩
  case completes =>
    intro s id x m q va hhas hfin hready hva hpage hfate hfree hheld
    refine ⟨_, execCompletionWrite_served hhas hfin hready hva hpage hfate hheld, rfl, completed_drops ?_⟩
    have hkept := keepsWork_pageOf s.pkg s.mem (cmd s.pkg id).ctx 1 (ringClass s.pkg (cmd s.pkg id).ctx (cmd s.pkg id).ring) true va
    rw [hpage] at hkept
    rw [(hkept.trans (keepsWork_recordWrite q _)).ces]
    exact hfree
  case abortsEmpty =>
    intro s rq ctx ring v hok hfate hv hnone
    refine ⟨_, rfl, rfl, ?_⟩
    have hleft : ringCmds (ringEmptied ctx ring s.pkg) ctx ring = [] := hnone
    rw [ringControl_accepted v hok hfate, putRingControl_abort hv, ringAbort_eq, hnone, List.map_nil, List.foldl_nil,
      ringHead_abortSettled, ringHead_ringEmptied, spill_abortSettled, depth_ringEmptied, bit_abortSettled, hleft]
    exact ⟨rfl, rfl, rfl⟩
  case abortsWaiting =>
    intro s rq ctx ring id c v hok hfate hv hone hc hwait
    have hmem : (id, c) ∈ ringCmds s.pkg ctx ring := hone ▸ List.mem_singleton_self _
    have hplace := (List.mem_filter.1 hmem).2
    simp only [Bool.and_eq_true, beq_iff_eq] at hplace
    obtain ⟨⟨hctx, hring⟩, -⟩ := hplace
    have hempty : cmd (ringEmptied ctx ring s.pkg) id = c := hc
    obtain ⟨y, z, hcmd⟩ := (abortCmd_waiting (id := id) (p := ringEmptied ctx ring s.pkg) (by rw [hempty, hwait])).cmd
    rw [cmd_setCmd_self, hempty] at hcmd
    refine ⟨_, rfl, rfl, ?_⟩
    rw [ringControl_accepted v hok hfate, putRingControl_abort hv, ringAbort_eq, hone, List.map_singleton,
      List.foldl_cons, List.foldl_nil]
    generalize abortCmd (ringEmptied ctx ring s.pkg) id = q at hcmd
    have hsettled : cmd (abortSettled ctx ring [id] q) id = cmd q id := rfl
    rw [hsettled, bit_abortSettled]
    refine ⟨?_, ?_, ?_, ringCmds_any_aborted (id := id) ?_ ?_ ?_ ?_⟩ <;> rw [hcmd]
    · rfl
    · rfl
    · exact hctx
    · exact hring
  case restarts =>
    intro s rq ctx ring v hok hfate hv
    refine ⟨_, rfl, ?_⟩
    rw [ringControl_accepted v hok hfate, putRingControl_restart hv]
    have hflags : fld (setFld s.pkg (ringCfg ctx ring) 27 26 0) (ringCfg ctx ring) 27 26 = 0 :=
      fld_setFld_self _ _ _ _ _ (by decide) (by decide)
    have hclear {n : Nat} (hlo : 26 ≤ n) (hhi : n ≤ 27) :
        bit (setFld s.pkg (ringCfg ctx ring) 27 26 0) (ringCfg ctx ring) n = false := by
      rw [bit_eq_testBit _ hlo hhi, hflags, Nat.zero_testBit]
    exact ⟨hclear (by decide) (by decide), hclear (by decide) (by decide), fun k hk => reg_setFld_ne _ _ _ _ hk⟩
  case configures =>
    intro s rq ctx ring v w hok hfate hoff hw hclass hsize hsize' hcq hcq'
    have hgood : ¬ (bitsOf w 29 28 = 3 ∨ bitsOf w 20 16 < 4 ∨ 16 < bitsOf w 20 16 ∨ bitsOf w 12 8 < 4 ∨
        16 < bitsOf w 12 8) := by
      omega
    have hwritable : bitOf (reg s.pkg (ringCfg ctx ring)) 31 ≠ true := Bool.eq_false_iff.1 hoff
    have hput : doRingConfigWrite rq ctx ring v s.pkg = setReg s.pkg (ringCfg ctx ring) w := by
      rw [doRingConfigWrite, if_pos hok, ifWrites_accepted _ hfate]
      unfold putRingConfig
      dsimp only
      rw [← hw, if_neg hgood, if_neg hwritable]
    refine ⟨_, rfl, ?_⟩
    rw [State.onPkg_pkg, hput]
    exact ⟨reg_setReg_self _ _ _, fun k hk => reg_setReg_ne _ _ hk⟩
  case cqHead =>
    intro s rq ctx ring old new v hok hfate hold hnew
    refine ⟨_, rfl, ?_⟩
    have hlt : new < 65536 := hnew ▸ Nat.mod_lt _ (by decide)
    rw [State.onPkg_pkg, doCqHeadWrite, if_pos hok, ifWrites_accepted _ hfate]
    unfold putCqHead
    dsimp only
    rw [← hold, ← hnew]
    split
    · exact hold.symm
    · exact (fld_setFld_self _ _ _ _ _ (by decide) (by decide)).trans (Nat.mod_eq_of_lt hlt)

end Sys2Proof.Machine
end

section
/-! MOVE_TILE and REDUCE at their last line or batch (spec/08 R284, R299, spec/11 R397 to R400): what each puts into the packets of
its CE, and the proof of O28. -/

namespace Sys2Proof.Machine

/-! ## Output packets of a CE (R108, R282) -/

/-- A CE with a closed packet at one of its movers has not committed its packets. -/
theorem packetsDone_of_closed {p : Pkg} {n mu : Nat} (h : (mover (ce p n) mu).closed ≠ []) : packetsDone p n = false := by
  have hne : mover (ce p n) mu ≠ Mover.empty := fun he => h (congrArg Mover.closed he)
  have hmem : (mu, mover (ce p n) mu) ∈ (ce p n).movers := SMap.mem_of_get rfl hne
  have hall : (ce p n).movers.all (fun x => x.2.packet.isEmpty && x.2.closed.isEmpty) = false := by
    refine List.all_eq_false.2 ⟨_, hmem, ?_⟩
    simp [h]
  rw [packetsDone, hall]
  rfl

/-- While packets have not committed, the end of a command's work leaves its progress and its CE. -/
theorem workEnds_waits {p : Pkg} {n id : Nat} (h : packetsDone p n = false) :
    (cmd (workEnds p n id) id).progress = (cmd p id).progress ∧ ce (workEnds p n id) n = ce p n := by
  rw [workEnds, h, if_neg Bool.false_ne_true, relaxEnd]
  dsimp only
  split
  next hrelaxed =>
    simp only [Bool.and_eq_true, beq_iff_eq] at hrelaxed
    obtain ⟨⟨-, hrun⟩, -⟩ := hrelaxed
    obtain ⟨b, hbeats⟩ := cmd_addCmdBeats p id n
    generalize hq : setCmd (addCmdBeats p id n) id _ = q
    have hcmd : ∃ t, cmd q id = { cmd p id with beats := b, startBeat := t } := by
      rw [← hq, cmd_setCmd_self, hbeats]
      exact ⟨_, rfl⟩
    have hces : q.ces = p.ces := by rw [← hq]; rfl
    obtain ⟨t, ht⟩ := hcmd
    have hphase : (cmd q id).phase = .running := by rw [ht]; exact hrun
    have hgives := finishCmd_gives (p := q) (id := id) 0 0 (by simp [hphase]) (by simp [hphase])
    obtain ⟨u, v, hfin⟩ := hgives.cmd
    refine ⟨?_, ce_congr (hgives.ces.trans hces) n⟩
    rw [hfin, ht]
  next => exact ⟨rfl, rfl⟩

/-- A mover whose open packet holds a line closes it behind its other packets. -/
theorem closePackets_closed {p : Pkg} {n mu : Nat} (h : (mover (ce p n) mu).packet ≠ []) :
    (mover (ce (closePackets p n) n) mu).closed = (mover (ce p n) mu).closed ++ [(mover (ce p n) mu).packet] := by
  have hmap : mover (ce (closePackets p n) n) mu = (mover (ce p n) mu).close := by
    rw [closePackets, ce_setCe_self]
    exact SMap.get_map_vals Mover.close (ce p n).movers mu Mover.empty
  rw [hmap, Mover.close, List.isEmpty_eq_false_iff.2 h]
  rfl

theorem mover_congr {e f : Ce} (h : f.movers = e.movers) (mu : Nat) : mover f mu = mover e mu := by rw [mover, mover, h]

theorem ce_setCmd (p : Pkg) (id : Nat) (c : Cmd) (n : Nat) : ce (setCmd p id c) n = ce p n := rfl

theorem cmd_setCe (p : Pkg) (n : Nat) (e : Ce) (id : Nat) : cmd (setCe p n e) id = cmd p id := rfl

theorem l1Drop_qm (p : Pkg) (n line : Nat) : (l1Drop p n line).qm = p.qm := ite_keeps Pkg.qm rfl rfl

/-! ## MOVE_TILE (R397, R398, R400) -/

/-- A mover's load of a line that has returned for it takes the line and leaves the other work of the CE. -/
theorem muGet_arrived {p : Pkg} {n mu : Nat} {x : Xlate} {va : Nat} {a : Nat × CLine}
    (h : (ce p n).arrived.find? (fun z => z.1 == mu && z.2.line == x.addr va / 64) = some a) (c : Cmd) (operand : Nat) :
    muGet p n mu c x operand va =
      (some (a.2.data, a.2.poison), setCe p n { ce p n with arrived := (ce p n).arrived.erase a }) := by
  unfold muGet
  dsimp only
  rw [h]

/-- The package when line `l` has joined the open packet of mover `mu` of CE n and its command has counted it. -/
def lineCopied (p : Pkg) (id n mu k : Nat) (l : PLine) : Pkg :=
  let m := mover (ce p n) mu
  let q := setCe p n { ce p n with movers := SMap.set (ce p n).movers mu { m with packet := m.packet ++ [l] } }
  l1Drop (setCmd (addReg q (key (pgCe n) 0x350) 1) id { cmd q id with progress := k + 1 }) n (l.pa / 64)

theorem lineCopied_mover (p : Pkg) (id n mu k : Nat) (l : PLine) : mover (ce (lineCopied p id n mu k l) n) mu =
    { mover (ce p n) mu with packet := (mover (ce p n) mu).packet ++ [l] } := by
  refine (mover_congr (l1Drop_ce _ n _).1 mu).trans ?_
  rw [ce_setCmd, ce_addReg, ce_setCe_self]
  exact SMap.get_set_self _ _ _ _

theorem lineCopied_progress (p : Pkg) (id n mu k : Nat) (l : PLine) :
    (cmd (lineCopied p id n mu k l) id).progress = k + 1 := by
  rw [lineCopied, cmd_congr (congrArg QmSt.cmds (l1Drop_qm _ _ _)), cmd_setCmd_self]

/-- The last line of a MOVE_TILE joins the open packet of its store mover, and the packets close. -/
theorem moveOne_last {p : Pkg} {id n k : Nat} {rest : List Nat} {c : Cmd} {x y : Xlate} {a : Nat × CLine} {l : PLine}
    (hc : c = cmd p id) (hces : c.ces = n :: rest) (hlive : ceLive p n = true) (hk : k = c.progress)
    (hlast : moveLines c = k + 1) (hfold : (k + 1) % 1024 ≠ 0) (hx : cmdXlate c 0 (moveVa c 0 k) = some x)
    (hy : cmdXlate c 1 (moveVa c 1 k) = some y) (hw : y.writable = true)
    (ha : (ce p n).arrived.find? (fun z => z.1 == k % 2 && z.2.line == x.addr (moveVa c 0 k) / 64) = some a)
    (hgood : a.2.poison = false)
    (hl : l = ⟨y.addr (moveVa c 1 k), a.2.data, false, (dOperand c.desc 1).slm == 2, n, 2 + k % 2, false, false⟩) :
    moveOne id p = (false,
      closeAll (lineCopied (setCe p n { ce p n with arrived := (ce p n).arrived.erase a }) id n (2 + k % 2) k l) n) := by
  have hgoes : ¬ (ceLive p n = false ∨ moveLines c ≤ k) := by
    rw [hlive, hlast]
    simp
  unfold moveOne
  dsimp only
  rw [← hc, hces]
  dsimp only
  rw [← hk, if_neg hgoes, hx, hy]
  dsimp only
  rw [hw, if_neg (by decide), muGet_arrived ha, hgood]
  dsimp only
  rw [Bool.false_and, if_neg Bool.false_ne_true, if_neg hfold, if_pos hlast, hl]
  rfl

/-- MOVE_TILE at its last line: the progress counts it, and the packet with it is closed. -/
theorem doMoveTile_last {p : Pkg} {id n k mode : Nat} {rest : List Nat} {c : Cmd} {x y : Xlate} {a : Nat × CLine} {l : PLine}
    {m : Mover} (hc : c = cmd p id) (hop : opIs p id 3 = true) (hmode : dField c.desc 34 1 = mode) (hces : c.ces = n :: rest)
    (hown : (ce p n).cmd = some id) (hlive : ceLive p n = true) (hk : k = c.progress)
    (hlast : moveLines c = k + 1) (hfold : (k + 1) % 1024 ≠ 0) (hx : cmdXlate c 0 (moveVa c 0 k) = some x)
    (hy : cmdXlate c 1 (moveVa c 1 k) = some y) (hw : y.writable = true)
    (ha : (ce p n).arrived.find? (fun z => z.1 == k % 2 && z.2.line == x.addr (moveVa c 0 k) / 64) = some a)
    (hgood : a.2.poison = false) (hm : m = mover (ce p n) (2 + k % 2))
    (hl : l = ⟨y.addr (moveVa c 1 k), a.2.data, false, (dOperand c.desc 1).slm == 2, n, 2 + k % 2, false, false⟩) :
    (cmd (doMoveTile id mode p) id).progress = k + 1 ∧
      (mover (ce (doMoveTile id mode p) n) (2 + k % 2)).closed = m.closed ++ [m.packet ++ [l]] := by
  have hstop := iterate_stops (moveOne_last hc hces hlive hk hlast hfold hx hy hw ha hgood hl) 1023
  generalize hq : lineCopied (setCe p n { ce p n with arrived := (ce p n).arrived.erase a }) id n (2 + k % 2) k l = q at hstop
  have hmover : mover (ce q n) (2 + k % 2) = { m with packet := m.packet ++ [l] } := by
    rw [← hq, lineCopied_mover, ce_setCe_self, hm]
    rfl
  have hclosed : (mover (ce (closeAll q n) n) (2 + k % 2)).closed = m.closed ++ [m.packet ++ [l]] := by
    rw [closeAll, closePackets_closed (by simp [hmover]), hmover]
  have hprogress : (cmd (closeAll q n) id).progress = k + 1 := by
    rw [closeAll, closePackets, cmd_setCe, ← hq, lineCopied_progress]
  have hwaits := workEnds_waits (p := closeAll q n) (n := n) (id := id) (packetsDone_of_closed (mu := 2 + k % 2) (by simp [hclosed]))
  unfold doMoveTile
  dsimp only
  rw [← hc, hop, hmode, hces]
  simp only [beq_self_eq_true, Bool.and_self, if_true, hown, ne_eq, not_true_eq_false, if_false, hstop]
  split
  · rw [hwaits.1, hwaits.2]
    exact ⟨hprogress, hclosed⟩
  · exact ⟨hprogress, hclosed⟩

theorem keepsWork_switchEntries (l : List (Xlate × Nat)) (m : Memory) (p : Pkg) : KeepsWork p (switchEntries l m p).2.2 := by
  induction l generalizing m p with
  | nil => exact .refl p
  | cons z t ih =>
    unfold switchEntries
    split
    · exact (keepsWork_homeWrite p _ _ _).trans (ih _ _)
    · exact .refl p

/-- The switch of a MOVE whose copy is done takes the entries' memory and ends the command on its CE. -/
theorem execMoveSwitch_done {s : State} {id n : Nat} {rest : List Nat} {c : Cmd} {m : Memory} {q : Pkg} (hc : c = cmd s.pkg id)
    (hop : opIs s.pkg id 3 = true) (hmode : dField c.desc 34 1 = 1) (hrun : c.phase = .running) (hces : c.ces = n :: rest)
    (hown : (ce s.pkg n).cmd = some id) (hlive : ceLive s.pkg n = true) (hdone : moveDone s.pkg id n = true)
    (hgood : c.status ≠ 0x10)
    (hwaits : (switchPairs c).any (fun z => fateFor s.pkg (idRing 0 0) z.1.pte false == .waits) = false)
    (hheld : (switchPairs c).any (fun z => hostHolds s.pkg z.1.pte) = false)
    (hswitch : switchEntries (switchPairs c) s.mem s.pkg = (true, m, q)) :
    execMoveSwitch id s = .next { s with mem := m, pkg := endOnCe q n id 0 0 } := by
  unfold execMoveSwitch
  dsimp only
  rw [← hc, hces]
  dsimp only
  rw [hop, hmode, hrun, hown, hlive, hdone, if_pos (by simp), if_neg hgood, hwaits, if_neg Bool.false_ne_true, hheld,
    if_neg Bool.false_ne_true, hswitch]

/-! ## REDUCE (R284, R299) -/

theorem chunk_ne_nil {ls : List PLine} (h : ls ≠ []) (k : Nat) : chunk (k + 1) ls ≠ [] := by
  rw [chunk, List.isEmpty_eq_false_iff.2 h]
  exact List.cons_ne_nil _ _

theorem l1Drops_keep (n : Nat) (ls : List PLine) (p : Pkg) :
    (ls.foldl (fun r l => l1Drop r n (l.pa / 64)) p).qm = p.qm ∧
      (ce (ls.foldl (fun r l => l1Drop r n (l.pa / 64)) p) n).movers = (ce p n).movers :=
  ⟨foldl_keeps Pkg.qm (fun q l => l1Drop_qm q n (l.pa / 64)) ls p,
    foldl_keeps (fun q => (ce q n).movers) (fun q l => (l1Drop_ce q n (l.pa / 64)).1) ls p⟩

/-- The last batch of a part whose sources lie in this package: its sums join the closed packets of mover 2, and the progress counts
its records. -/
theorem partStep_last {p q : Pkg} {mem : Memory} {id n k v : Nat} {c : Cmd} {ls : List PLine} {w : Part} (hc : c = cmd p id)
    (hlive : ceLive p n = true) (hdone : packetsDone p n = true) (hk : k = w.count - c.progress) (hleft : c.progress < w.count)
    (hfold : c.progress % 4096 + k < 4096) (hfar : farLines p c w (w.first + c.progress) k = [])
    (hout : partOut p mem c false w (w.first + c.progress) k = (some (v, none), q))
    (hls : batchPackets mem c n w ((w.first + c.progress) * partBits c w) (k * partBits c w) v = some ls) :
    (cmd (partStep id n w mem p) id).progress = w.count ∧
      (mover (ce (partStep id n w mem p) n) 2).closed = (mover (ce q n) 2).closed ++ chunk 8 ls := by
  have hgoes : ¬ (w.count ≤ c.progress ∨ ceLive p n = false ∨ packetsDone p n = false) := by
    rw [hlive, hdone]
    simp [hleft]
  have hall : min (w.count - c.progress) (4096 - c.progress % 4096) = k := by omega
  have hend : c.progress + k = w.count := by omega
  have hinside : w.count % 4096 ≠ 0 := by omega
  unfold partStep
  dsimp only
  rw [← hc, if_neg hgoes, hall, hfar]
  simp only [List.isEmpty_nil, Bool.not_true, Bool.false_eq_true, if_false, List.all_nil]
  rw [hout]
  dsimp only
  rw [hls]
  dsimp only
  rw [hend, if_neg hinside]
  obtain ⟨hqm, hmovers⟩ := l1Drops_keep n ls (setCmd (addReg (setCe q n { ce q n with
    movers := SMap.set (ce q n).movers 2 { mover (ce q n) 2 with closed := (mover (ce q n) 2).closed ++ chunk 8 ls } })
      (key (pgCe n) 0x350) (batchLoads w (w.first + c.progress) k)) id
    { cmd q id with progress := w.count })
  refine ⟨?_, ?_⟩
  · refine (congrArg Cmd.progress (cmd_congr (congrArg QmSt.cmds hqm) id)).trans ?_
    rw [cmd_setCmd_self]
  · refine (congrArg Mover.closed (mover_congr hmovers 2)).trans ?_
    rw [ce_setCmd, ce_addReg, ce_setCe_self, mover, SMap.get_set_self]

/-- After a batch whose packets have not committed, a REDUCE with ALGO 0 keeps its progress and its packets. -/
theorem doReduce_waits {p : Pkg} {id n : Nat} {mem : Memory} (hop : opIs p id 4 = true) (halgo : reduceAlgo (cmd p id).desc = 0)
    (hce : ceOf p id = some n) (hwait : packetsDone (partStep id n (localPart (cmd p id)) mem p) n = false) :
    (cmd (doReduce id mem p) id).progress = (cmd (partStep id n (localPart (cmd p id)) mem p) id).progress ∧
      ce (doReduce id mem p) n = ce (partStep id n (localPart (cmd p id)) mem p) n := by
  unfold doReduce
  dsimp only
  rw [hop, halgo, beq_self_eq_true, Bool.and_self, if_pos rfl, hce]
  dsimp only
  split
  · exact workEnds_waits hwait
  · exact ⟨rfl, rfl⟩

/-- After a batch whose packets have not committed, a collective REDUCE past its first phase keeps that batch's state. -/
theorem doCollective_waits {p : Pkg} {id n algo : Nat} {mem : Memory} (hop : opIs p id 4 = true)
    (halgo : reduceAlgo (cmd p id).desc = algo) (hrun : (cmd p id).phase = .running) (hphase : (cmd p id).collPhase ≠ 0)
    (hce : ceOf p id = some n) (hwait : packetsDone (partStep id n (collPart p (cmd p id)) mem p) n = false) :
    doCollective id algo mem p = partStep id n (collPart p (cmd p id)) mem p := by
  unfold doCollective partDone
  dsimp only
  rw [hop, halgo, hrun, beq_self_eq_true, beq_self_eq_true, Bool.and_self, Bool.and_self, if_pos rfl, hce]
  dsimp only
  rw [if_neg hphase, hwait, Bool.and_false, Bool.false_and, Bool.and_false, if_neg Bool.false_ne_true]

/-- Settles O28. The last line of a MOVE_TILE, and the last batch of a part, close packets that have yet to commit, so the command
keeps the progress that counts them; the switch of a copy that is done ends it on its CE. -/
theorem movesAndReductionsAdvance : Obligations.MovesAndReductionsAdvance := by
  unfold Obligations.MovesAndReductionsAdvance
  refine ⟨?moves, ?switches, ?reduces⟩
  case moves =>
    intro s id n k rest c x y a m mode l hc hop hmode hlt hrun hces hown hlive hk hlast hfold hx hy hw ha hgood hm hl
    have hmoved := doMoveTile_last hc hop hmode hces hown hlive hk hlast hfold hx hy hw ha hgood hm hl
    constructor
    · rintro rfl
      exact ⟨_, rfl, rfl, hmoved⟩
    · rintro rfl
      exact ⟨_, rfl, rfl, hmoved⟩
  case switches =>
    intro s id n rest c m q hc hop hmode hrun hces hown hlive hdone hgood hwaits hheld hswitch
    have hkept := keepsWork_switchEntries (switchPairs c) s.mem s.pkg
    rw [hswitch] at hkept
    obtain ⟨⟨hfin, -⟩, hfree, -⟩ := endOnCe_ends (p := q) (n := n) (id := id) 0 0 (by rw [hkept.cmd_eq, ← hc, hrun])
    have hexec := execMoveSwitch_done hc hop hmode hrun hces hown hlive hdone hgood hwaits hheld hswitch
    generalize endOnCe q n id 0 0 = r at hexec hfin hfree
    exact ⟨_, hexec, rfl, hfin, hfree⟩
  case reduces =>
    intro s id n k v c q ls w hc hop hrun hce hlive hdone hw hphase hk hleft hfold hfar hout hls hne
    obtain ⟨hprogress, hclosed⟩ := partStep_last hc hlive hdone hk hleft hfold hfar hout hls
    have hwait : packetsDone (partStep id n w s.mem s.pkg) n = false := by
      refine packetsDone_of_closed (mu := 2) ?_
      rw [hclosed]
      exact List.append_ne_nil_of_right_ne_nil _ (chunk_ne_nil hne 7)
    have hcoll {algo : Nat} (halgo : reduceAlgo c.desc = algo) (hpos : algo ≠ 0) :
        doCollective id algo s.mem s.pkg = partStep id n w s.mem s.pkg := by
      have hcollective : reduceAlgo c.desc ≠ 0 := halgo ▸ hpos
      rw [if_neg hcollective] at hw
      subst hc hw
      exact doCollective_waits hop halgo hrun (hphase hcollective) hce hwait
    refine ⟨fun halgo => ⟨_, rfl, rfl, ?_⟩, fun halgo => ⟨_, rfl, rfl, ?_⟩, fun halgo => ⟨_, rfl, rfl, ?_⟩⟩
    · rw [if_pos halgo] at hw
      subst hc hw
      obtain ⟨hkeep, hmovers⟩ := doReduce_waits hop halgo hce hwait
      rw [State.onPkg_pkg, hkeep, hmovers]
      exact ⟨hprogress, hclosed⟩
    · rw [State.onPkg_pkg, hcoll halgo (by decide)]
      exact ⟨hprogress, hclosed⟩
    · rw [State.onPkg_pkg, hcoll halgo (by decide)]
      exact ⟨hprogress, hclosed⟩

end Sys2Proof.Machine
end

section
/-! Semaphores, barriers, fences and INVALIDATE_L1 (spec/08 R306 to R308, spec/09 R325, spec/10 R378): how each ends or waits, and the
proof of O29. -/

namespace Sys2Proof.Machine

/-! ## Semaphores (R306, R307, R378) -/

/-- A signal of a semaphore in HBM that its home has performed. -/
theorem execSemSignal_hbm {s u : State} {id pa st o : Nat} {x : Xlate} (hop : opIs s.pkg id 5 = true)
    (hmay : mayStart s.pkg id = true) (haddr : semAddr (cmd s.pkg id) = some (x, pa)) (hw : x.writable = true)
    (hregion : region pa = .hbm st o)
    (hatom : atomAt pa (dField (cmd s.pkg id).desc 40 1) (semValue (cmd s.pkg id))
      (idRing (cmd s.pkg id).ctx (cmd s.pkg id).ring) pgQm none s = (.done, u)) :
    execSemSignal id s = .next (u.onPkg (fun q => signalled q id pa)) := by
  unfold execSemSignal
  dsimp only
  rw [hop, hmay, Bool.and_self, if_pos rfl, haddr]
  dsimp only
  rw [hw, if_neg (by decide), hregion]
  dsimp only
  rw [hatom]

theorem semEnds_phase (p : Pkg) (id pa status detail : Nat) : (cmd (semEnds p id pa status detail) id).phase = .finished := by
  unfold semEnds
  dsimp only
  split
  · exact finishCmd_phase _ _ _ _
  · exact finishQm_phase _ _ _ _

/-- A semaphore read at its home: the wait ends where its condition holds of the bytes, else it goes on. -/
theorem semCheck_read {p q : Pkg} {m : Memory} {id pa v : Nat} {x : Xlate} (haddr : semAddr (cmd p id) = some (x, pa))
    (hread : qmRead p m pa 8 (ringClass p (cmd p id).ctx (cmd p id).ring) = (.bytes v, q)) (f : Nat → Pkg → Pkg) :
    semCheck p m id f = if semHolds (cmd p id) (BitVec.ofNat 64 v) then semEnds q id pa 0 0 else f pa q := by
  unfold semCheck
  dsimp only
  rw [haddr]
  dsimp only
  rw [hread]

/-- A read that finds the condition ends the wait. -/
theorem semCheck_ends {p q : Pkg} {m : Memory} {id pa v : Nat} {x : Xlate} (haddr : semAddr (cmd p id) = some (x, pa))
    (hread : qmRead p m pa 8 (ringClass p (cmd p id).ctx (cmd p id).ring) = (.bytes v, q))
    (hholds : semHolds (cmd p id) (BitVec.ofNat 64 v) = true) (f : Nat → Pkg → Pkg) :
    (cmd (semCheck p m id f) id).phase = .finished := by
  rw [semCheck_read haddr hread, if_pos hholds]
  exact semEnds_phase _ _ _ _ _

theorem startQm_phase (p : Pkg) (id : Nat) : (cmd (startQm p id) id).phase = .running := by
  obtain ⟨x, y, hcmd⟩ := (startQm_starts p id).cmd id
  rw [hcmd, cmd_setCmd_self]

/-- A wait whose watch joins a table, or finds it full, runs on as before. -/
theorem addWatch_phase (p : Pkg) (pa id : Nat) : (cmd (addWatch p pa id) id).phase = (cmd p id).phase := by
  unfold addWatch
  dsimp only
  split
  · generalize hq : setCmd _ id _ = q
    have hphase : (cmd q id).phase = (cmd p id).phase := by rw [← hq, cmd_setCmd_self]
    split
    · rw [(raiseBlock_only q _ _).log.keepsWork.cmd_eq]
      exact hphase
    · exact hphase
  · rfl

/-! ## Barriers and fences (R308, R325) -/

theorem doBarrier_ends {p : Pkg} {id : Nat} (hop : opIs p id 7 = true) (hmay : mayStart p id = true)
    (hring : earlierInRing p (cmd p id) = false)
    (hctx : dField (cmd p id).desc 32 1 = 1 → earlierInCtx p id (cmd p id) = false) :
    (cmd (doBarrier id p) id).phase = .finished := by
  have hwide : (dField (cmd p id).desc 32 1 == 1 && earlierInCtx p id (cmd p id)) = false := by
    rw [Bool.and_eq_false_imp]
    exact fun h => hctx (beq_iff_eq.1 h)
  unfold doBarrier
  dsimp only
  rw [hop, hmay, hring, hwide, if_pos (by decide)]
  exact finishQm_phase _ _ _ _

/-- A REMOTE_FENCE that waits for nothing ends, with WINDOW_FAULT where a write of its ring was undeliverable. -/
theorem doRemoteFence_ends {p : Pkg} {id : Nat} (hop : opIs p id 8 = true) (hmay : mayStart p id = true)
    (hring : earlierInRing p (cmd p id) = false)
    (hacks : p.rt.acc.any (fun x => x.2.ring == ringId (cmd p id).ctx (cmd p id).ring && x.2.msg.op != 1) = false) :
    (cmd (doRemoteFence id p) id).phase = .finished ∧
      (SMap.get p.qm.remoteFail (ringId (cmd p id).ctx (cmd p id).ring) 0 ≠ 0 → (cmd (doRemoteFence id p) id).status = 0x21) := by
  unfold doRemoteFence
  dsimp only
  rw [hop, hmay, hring, hacks, if_pos (by decide)]
  generalize hq : waitTrace _ _ _ _ _ = q
  have hcmd : cmd q id = cmd p id := by
    rw [← hq, waitTrace, (keepsWork_traceCmd _ _ _ _ _ _ _ _ _).cmd_eq]
    rfl
  have hwait : (cmd q id).phase = .waiting := by
    rw [hcmd]
    exact (mayStart_facts hmay).2
  split
  next hnone => exact ⟨finishQm_phase _ _ _ _, fun h => absurd hnone h⟩
  next => exact ⟨finishQm_phase _ _ _ _, fun _ => (finishQm_finishes 0x21 _ (.inr hwait)).failed (by decide)⟩

/-! ## INVALIDATE_L1 (R346, R347) -/

/-- An INVALIDATE_L1 reaches CE n: it invalidates at once while it runs nothing, else at its next command boundary. -/
def invalidateCe (p : Pkg) (n : Nat) : Pkg :=
  if (ce p n).cmd.isSome then setBit (setCe p n { ce p n with laterInv := true }) (l1Status n) 31 true
  else setCe p n (ce p n).invalidateAll

/-- CE n holds no line in its L1 and its side buffer. -/
def L1Empty (p : Pkg) (n : Nat) : Prop := (ce p n).l1 = [] ∧ (ce p n).side = []

theorem invalidateCe_idle {p : Pkg} {n : Nat} (h : (ce p n).cmd = none) : invalidateCe p n = setCe p n (ce p n).invalidateAll := by
  rw [invalidateCe, h]
  rfl

theorem invalidateCe_qm (p : Pkg) (n : Nat) : (invalidateCe p n).qm = p.qm := by
  unfold invalidateCe
  split
  · rfl
  · rfl

theorem invalidateCe_empties {p : Pkg} {n : Nat} (h : (ce p n).cmd = none) : L1Empty (invalidateCe p n) n := by
  rw [L1Empty, invalidateCe_idle h, ce_setCe_self]
  exact ⟨rfl, rfl⟩

/-- An idle CE that invalidates leaves every CE's command and every empty L1. -/
theorem invalidateCe_keeps {p : Pkg} {a : Nat} (h : (ce p a).cmd = none) (n : Nat) :
    (ce (invalidateCe p a) n).cmd = (ce p n).cmd ∧ (L1Empty p n → L1Empty (invalidateCe p a) n) := by
  by_cases hn : n = a
  · subst hn
    refine ⟨?_, fun _ => invalidateCe_empties h⟩
    rw [invalidateCe_idle h, ce_setCe_self]
    rfl
  · rw [L1Empty, L1Empty, invalidateCe_idle h, ce_setCe_ne _ _ hn]
    exact ⟨rfl, id⟩

/-- Idle CEs that invalidate one after another end with empty L1s. -/
theorem invalidateCes_empties (l : List Nat) (p : Pkg) (h : ∀ n ∈ l, (ce p n).cmd = none) :
    (∀ n ∈ l, L1Empty (l.foldl invalidateCe p) n) ∧ ∀ n, L1Empty p n → L1Empty (l.foldl invalidateCe p) n := by
  induction l generalizing p with
  | nil => exact ⟨fun n hn => absurd hn List.not_mem_nil, fun n hn => hn⟩
  | cons a t ih =>
    have ha := h a List.mem_cons_self
    obtain ⟨htail, hkeep⟩ := ih (invalidateCe p a) fun n hn =>
      (invalidateCe_keeps ha n).1.trans (h n (List.mem_cons_of_mem a hn))
    refine ⟨fun n hn => ?_, fun n hn => hkeep n ((invalidateCe_keeps ha n).2 hn)⟩
    obtain rfl | hn := List.mem_cons.1 hn
    · exact hkeep n (invalidateCe_empties ha)
    · exact htail n hn

/-- The end of a command at the queue manager leaves every CE. -/
theorem finishQm_ce {p : Pkg} {id : Nat} (status detail : Nat) (h : (cmd p id).phase = .waiting) (n : Nat) :
    ce (finishQm p id status detail) n = ce p n :=
  ((settlePending_onlyHeads _ _ _ _).ce_eq n).trans ((finishCmd_finishes status detail (.inr h)).2 n)

/-- INVALIDATE_L1 whose CEs run nothing invalidates them and ends. -/
theorem doInvalidateL1_idle {p : Pkg} {id : Nat} (hop : opIs p id 9 = true) (hmay : mayStart p id = true)
    (hidle : ∀ n ∈ scopeCes p (dPlace (cmd p id).desc), (ce p n).cmd = none) :
    (cmd (doInvalidateL1 id p) id).phase = .finished ∧
      ∀ n ∈ scopeCes p (dPlace (cmd p id).desc), L1Empty (doInvalidateL1 id p) n := by
  have hwaits : (scopeCes p (dPlace (cmd p id).desc)).filter (fun n => (ce p n).cmd.isSome) = [] :=
    List.filter_eq_nil_iff.2 fun n hn => by simp [hidle n hn]
  have heq : doInvalidateL1 id p = finishQm (noteInvalidated ((scopeCes p (dPlace (cmd p id).desc)).foldl invalidateCe p) id
      ((scopeCes p (dPlace (cmd p id).desc)).filter (fun n => (ce p n).cmd.isNone)) []) id 0 0 := by
    unfold doInvalidateL1
    dsimp only
    rw [hop, hmay, Bool.and_self, if_pos rfl, hwaits, List.isEmpty_nil, if_pos rfl]
    rfl
  have hempty := (invalidateCes_empties _ p hidle).1
  have hqm : ((scopeCes p (dPlace (cmd p id).desc)).foldl invalidateCe p).qm = p.qm :=
    foldl_keeps Pkg.qm invalidateCe_qm _ p
  generalize (scopeCes p (dPlace (cmd p id).desc)).foldl invalidateCe p = r at heq hempty hqm
  have hwait : (cmd (noteInvalidated r id ((scopeCes p (dPlace (cmd p id).desc)).filter
      (fun n => (ce p n).cmd.isNone)) []) id).phase = .waiting := by
    rw [noteInvalidated, cmd_setCmd_self, cmd_congr (congrArg QmSt.cmds hqm)]
    exact (mayStart_facts hmay).2
  rw [heq]
  refine ⟨finishQm_phase _ _ _ _, fun n hn => ?_⟩
  rw [L1Empty, finishQm_ce 0 0 hwait]
  exact hempty n hn

/-- Settles O29. Each command ends where the queue manager finds that it waits for nothing, which gives it its status; a wait whose
condition does not hold starts and stays running behind its watch. -/
theorem semaphoresBarriersAndFencesComplete : Obligations.SemaphoresBarriersAndFencesComplete := by
  unfold Obligations.SemaphoresBarriersAndFencesComplete
  refine ⟨?signals, ?waits, ?wakes, ?barrier, ?remoteFence, ?invalidates⟩
  case signals =>
    intro s u id pa st o x hop hmay haddr hw hregion hatom
    exact ⟨_, execSemSignal_hbm hop hmay haddr hw hregion hatom, rfl, finishQm_phase _ _ _ _⟩
  case waits =>
    intro s id pa v x q hop hmay haddr hread
    refine ⟨_, rfl, rfl, ?_⟩
    rw [State.onPkg_pkg, doSemWait, hop, hmay, Bool.and_self, if_pos rfl, semCheck_read haddr hread]
    by_cases hholds : semHolds (cmd s.pkg id) (BitVec.ofNat 64 v) = true
    · rw [if_pos hholds, if_pos hholds]
      exact semEnds_phase _ _ _ _ _
    · rw [if_neg hholds, if_neg hholds]
      exact (addWatch_phase _ _ _).trans (startQm_phase q id)
  case wakes =>
    intro s id pa v x q hop hrun haddr hread hholds
    refine ⟨fun hwatch => ⟨_, rfl, rfl, ?_⟩, fun hwatch => ⟨_, rfl, rfl, ?_⟩⟩
    · rw [State.onPkg_pkg, doSemWaitSatisfied, hop, hrun, hwatch, if_pos (by decide)]
      exact semCheck_ends haddr hread hholds _
    · rw [State.onPkg_pkg, doSemPoll, hop, hrun, hwatch, if_pos (by decide)]
      exact semCheck_ends haddr hread hholds _
  case barrier =>
    intro s id hop hmay hring hctx
    exact ⟨_, rfl, rfl, doBarrier_ends hop hmay hring hctx⟩
  case remoteFence =>
    rintro s id _ rfl hop hmay hring hacks
    exact ⟨_, rfl, rfl, doRemoteFence_ends hop hmay hring hacks⟩
  case invalidates =>
    intro s id hop hmay hidle
    obtain ⟨hphase, hempty⟩ := doInvalidateL1_idle hop hmay hidle
    exact ⟨_, rfl, hphase, rfl, hempty⟩

end Sys2Proof.Machine
end

section
/-! Harts (spec/12 R416 to R425): what the state of a hart, the filter's entry of a line and the translated pieces of an access read
after the operations that the accesses of a hart share. -/

namespace Sys2Proof.Machine

/-! ## The state of a hart (R416) -/

theorem hart_congr {p q : Pkg} (h : q.harts = p.harts) (n : Nat) : hart q n = hart p n := by rw [hart, hart, h]

theorem csr_setCsr_self (p : Pkg) (h n : Nat) (v : W64) : csr (setCsr p h n v) h n = v := by
  rw [csr, setCsr, hart_setHart_self, SMap.get_set_self]

/-- Counting an event changes CSRs alone; here, not the store buffer. -/
theorem sb_hartEvent (p : Pkg) (h code n : Nat) : (hart (hartEvent p h code n) h).sb = (hart p h).sb := by
  have hcount (q : Pkg) (i : Nat) (v : W64) : (hart (setCsr q h i v) h).sb = (hart q h).sb := by
    rw [setCsr, hart_setHart_self]
  exact foldl_keeps (fun q => (hart q h).sb) (fun q i => hcount q _ _) _ p

theorem hart_setX {rd : Nat} (hrd : 0 < rd) (p : Pkg) (h : Nat) (v : W64) :
    hart (setX p h rd v) h = { hart p h with x := SMap.set (hart p h).x rd v } := by
  rw [setX, if_neg (by omega), hart_setHart_self]

theorem x_setX_self {rd : Nat} (hrd : 0 < rd) (p : Pkg) (h : Nat) (v : W64) : SMap.get (hart (setX p h rd v) h).x rd 0 = v := by
  rw [hart_setX hrd]
  exact SMap.get_set_self _ _ _ _

/-- A change of a hart's state is one of its cluster's registers. -/
theorem setHartState_only (p : Pkg) (h n : Nat) : OnlyInt p (setHartState p h n) := by
  unfold setHartState
  split
  · exact .refl p
  · exact (setFld_only _ _ _ _ _).trans (raiseBlock_only _ _ _)

theorem OnlyInt.harts_eq {p q : Pkg} (h : OnlyInt p q) : q.harts = p.harts := by
  obtain ⟨_, _, _, rfl⟩ := h
  rfl

theorem OnlyInt.home_eq {p q : Pkg} (h : OnlyInt p q) : q.home = p.home := by
  obtain ⟨_, _, _, rfl⟩ := h
  rfl

theorem hart_executes (p : Pkg) (h : Nat) : hart (executes p h) h = { hart p h with fencing := false } := by
  rw [executes, hart_setHart_self, hart_congr (setHartState_only p h 1).harts_eq]

theorem executes_home (p : Pkg) (h : Nat) : (executes p h).home = p.home := (setHartState_only p h 1).home_eq

/-! ## The filter's entry of a line (R448) -/

theorem dirLine_congr {p q : Pkg} (h : q.home.dir = p.home.dir) (line : Nat) : dirLine q line = dirLine p line := by
  rw [dirLine, dirLine, h]

theorem dirLine_setDir_self (p : Pkg) (line : Nat) (d : DirLine) : dirLine (setDir p line d) line = d := by
  by_cases hd : d = DirLine.empty
  · simp [dirLine, setDir, hd, SMap.get_drop]
  · simp [dirLine, setDir, hd, SMap.get_set_self]

/-- A hart that gives a line up is not in the line's entry. -/
theorem giveUp_leaves (p : Pkg) (h line : Nat) : h ∉ (dirLine (giveUp p h line) line).harts := by
  rw [giveUp, dirLine_setDir_self]
  by_cases howner : (dirLine p line).owner = some h
  · simp [howner, DirLine.harts]
  · cases hno : (dirLine p line).owner with
    | none => simp [DirLine.harts]
    | some o =>
      have hne : ¬ h = o := fun heq => howner (by rw [hno, heq])
      simp [DirLine.harts, hne, Ne.symm hne]

theorem memSend_home (p : Pkg) (pa cls : Nat) (write : Bool) : (memSend p pa cls write).home = p.home := by
  unfold memSend
  split <;> rfl

theorem writeBack_home (p : Pkg) (sl line : Nat) : (writeBack p sl line).home = p.home :=
  memSend_home (addReg p (key (pgSl sl) 0x120) 1) (line * 64) 1 true

theorem slmFill_dir (p : Pkg) (sl line hint : Nat) (dirty : Bool) : (slmFill p sl line hint dirty).home.dir = p.home.dir := by
  unfold slmFill
  dsimp only
  split
  · split
    · rw [writeBack_home]
    · rfl
  next v _ =>
    have hfill (q : Pkg) (t : SMap Tag) (n : Nat) :
        (countPins (setFld (setTags q sl t) (key (pgSl sl) 0x104) 15 0 n) sl).home.dir = q.home.dir := rfl
    rw [hfill]
    split
    · split
      · rw [writeBack_home]
      · rfl
    · rfl

theorem slmWrite_dir (p : Pkg) (sl pa : Nat) (stream : Bool) : (slmWrite p sl pa stream).home.dir = p.home.dir := by
  unfold slmWrite
  dsimp only
  split
  · rfl
  · split
    · rw [memSend_home]
    · exact slmFill_dir _ _ _ _ _

/-- The memory-side cache takes a line: the filters stay. -/
theorem sideTakes_dir (p : Pkg) (pa : Nat) : (sideTakes p pa).home.dir = p.home.dir := by
  unfold sideTakes
  split
  · exact slmWrite_dir _ _ _ _
  · rfl

theorem dirLine_cleanLine (h pa : Nat) (p : Pkg) (line : Nat) : dirLine (cleanLine h pa p) line = dirLine p line := by
  unfold cleanLine
  split
  · exact dirLine_congr (sideTakes_dir p pa) line
  · rfl

/-! ## Pieces of an access (R318) -/

theorem pieces_within {va : W64} {size : Nat} (hfit : size ≤ 8 - va.toNat % 8) : pieces va size = [(va.toNat, size, 0)] :=
  if_pos hfit

theorem targetOf_cacheable {x : CPiece} (hcache : cacheable x.pa = true) (mis : Bool) : targetOf [x] mis = .memory := by
  rw [targetOf, if_pos (by rw [List.all_cons, hcache]; rfl)]

/-! ## An instruction that may be executed (R416) -/

theorem coreLoad_executes {s : State} {h size : Nat} (ctl : CoreCtl) (va : W64) (rd : Nat) (signed : Bool)
    (hmay : mayExecute s.pkg h = true) (hsize : sizeOk size = true) :
    coreLoad h ctl va size rd signed none s = endAccess h (loadOnce h ctl va size (.coreLoad h rd size signed va)
      (fun v p => setX p h rd (loadValue v size signed)) (s.onPkg fun p => executesWith p h ctl)) := by
  rw [coreLoad, hmay, hsize, Bool.and_self, if_pos rfl]

theorem coreLoad_elements {s : State} {h size : Nat} (ctl : CoreCtl) (va : W64) (rd : Nat) (signed : Bool) (a : VecArgs)
    (hmay : mayExecute s.pkg h = true) (hsize : sizeOk size = true) :
    coreLoad h ctl va size rd signed (some a) s = vecElems h a (fun i w u =>
      loadOnce h ctl w size (.vecLoad h a.vreg i size w) (fun v p => setElem p h a.vreg i size v) u) a.elems
      (s.onPkg fun p => executesWith p h ctl) := by
  rw [coreLoad, hmay, hsize, Bool.and_self, if_pos rfl]

theorem coreStore_executes {s : State} {h size : Nat} (ctl : CoreCtl) (va value : W64) (hmay : mayExecute s.pkg h = true)
    (hsize : sizeOk size = true) :
    coreStore h ctl va size value none s =
      endAccess h (storeOnce h ctl va size value.toNat (s.onPkg fun p => executesWith p h ctl)) := by
  rw [coreStore, hmay, hsize, Bool.and_self, if_pos rfl]

theorem coreStore_elements {s : State} {h size : Nat} (ctl : CoreCtl) (va value : W64) (a : VecArgs)
    (hmay : mayExecute s.pkg h = true) (hsize : sizeOk size = true) :
    coreStore h ctl va size value (some a) s = vecElems h a (fun i w u =>
      storeOnce h ctl w size (vecElem u.pkg h a.vreg i size) u) a.elems (s.onPkg fun p => executesWith p h ctl) := by
  rw [coreStore, hmay, hsize, Bool.and_self, if_pos rfl]

end Sys2Proof.Machine
end

section
/-! Loads, stores and the store buffer of a hart (spec/09 R318, spec/12 R416, R422 to R425, R428): what each leaves. -/

namespace Sys2Proof.Machine

/-! ## Loads of memory (R318, R422) -/

/-- No buffered store overlaps the bytes, and the hart's caches hold the line. -/
theorem loadPiece_held {h : Nat} {x : CPiece} {m : Memory} {p : Pkg} (hnone : newestOverlap (hart p h).sb x.pa x.n = none)
    (hnc : x.nc = false) (hholds : h ∈ (dirLine p (x.pa / 64)).harts) (hclean : m.poisoned (x.pa / 64 * 64) 64 = false) :
    loadPiece h x m p = (.value (m.read x.pa x.n), p) := by
  rw [loadPiece, hnone]
  dsimp only
  rw [if_pos ⟨hnc, hholds⟩, memPiece, hclean, if_neg Bool.false_ne_true]

/-- The newest buffered store that overlaps the bytes holds all of them. -/
theorem loadPiece_buffered {h : Nat} {x : CPiece} {p : Pkg} {e : StoreEnt} (m : Memory)
    (hnewest : newestOverlap (hart p h).sb x.pa x.n = some e) (hcovers : e.covers x.pa x.n = true) :
    loadPiece h x m p = (.value (e.data.toNat / 2 ^ (8 * (x.pa % 64)) % 2 ^ (8 * x.n)), p) := by
  rw [loadPiece, hnewest]
  exact if_pos hcovers

/-- A load of one piece that finds its value gives that value. -/
theorem loadPieces_value {h pa v va size : Nat} {nc : Bool} {m : Memory} {p : Pkg} (sink : Nat → Pkg → Pkg)
    (hvalue : loadPiece h ⟨va, pa, size, 0, nc⟩ m p = (.value v, p)) :
    loadPieces h sink m [⟨va, pa, size, 0, nc⟩] 0 p = (.done, sink v p) := by
  rw [loadPieces, hvalue]
  simp [loadPieces]

section Access
variable {s : State} {h pa size v cause : Nat} {ctl : CoreCtl} {va value w : W64} {nc : Bool} {m : Memory} {q : Pkg}

theorem loadOnce_memory {who : RemoteFor} (sink : Nat → Pkg → Pkg) (hfit : size ≤ 8 - va.toNat % 8)
    (hcache : cacheable pa = true)
    (hx : xlatePieces (accOf h ctl false) [(va.toNat, size, 0)] s.pkg s.mem = (.ok [⟨va.toNat, pa, size, 0, nc⟩], m, q))
    (hvalue : loadPiece h ⟨va.toNat, pa, size, 0, nc⟩ m q = (.value v, q)) :
    loadOnce h ctl va size who sink s = (.done, { s with mem := m, pkg := sink v q }) := by
  have hone : countSplit s.pkg h [(va.toNat, size, 0)] = s.pkg := rfl
  rw [loadOnce, pieces_within hfit]
  dsimp only
  rw [hone, hx]
  dsimp only
  rw [targetOf_cacheable hcache]
  dsimp only
  rw [loadPieces_value sink hvalue]

theorem loadOnce_fault (who : RemoteFor) (sink : Nat → Pkg → Pkg)
    (hx : xlatePieces (accOf h ctl false) (pieces va size) (countSplit s.pkg h (pieces va size)) s.mem = (.fault cause w, m, q)) :
    loadOnce h ctl va size who sink s = (.fault cause w, { s with mem := m, pkg := q }) := by
  rw [loadOnce]
  dsimp only
  rw [hx]

/-- A permitted load of memory whose value is found puts it into its register. -/
theorem coreLoad_memory (rd : Nat) (signed : Bool) (hmay : mayExecute s.pkg h = true) (hsize : sizeOk size = true)
    (hfit : size ≤ 8 - va.toNat % 8) (hcache : cacheable pa = true)
    (hx : xlatePieces (accOf h ctl false) [(va.toNat, size, 0)] (executesWith s.pkg h ctl) s.mem =
      (.ok [⟨va.toNat, pa, size, 0, nc⟩], m, q))
    (hvalue : loadPiece h ⟨va.toNat, pa, size, 0, nc⟩ m q = (.value v, q)) :
    coreLoad h ctl va size rd signed none s = { s with mem := m, pkg := setX q h rd (loadValue v size signed) } := by
  rw [coreLoad_executes ctl va rd signed hmay hsize,
    loadOnce_memory (s := s.onPkg fun p => executesWith p h ctl) _ hfit hcache hx hvalue]
  rfl

/-! ## Stores (R318, R425) -/

/-- A store that joins the buffer takes at most one entry more. -/
theorem length_bufferStore (l : List StoreEnt) (a n u : Nat) (b : Bool) : (bufferStore l a n u b).length ≤ l.length + 1 := by
  unfold bufferStore
  dsimp only
  split
  next e t hrev =>
    have hlen : l.length = t.length + 1 := by rw [← List.length_reverse, hrev, List.length_cons]
    split
    · rw [List.length_reverse, List.length_cons]
      omega
    · rw [List.length_append, List.length_singleton]
  · exact Nat.succ_le_succ (Nat.zero_le _)

theorem bufferPieces_one (u va : Nat) (hroom : (hart q h).sb.length < 64) :
    bufferPieces h u [⟨va, pa, size, 0, nc⟩] q =
      (.done, setHart q h { hart q h with sb := bufferStore (hart q h).sb pa size u nc }) := by
  have hlen := length_bufferStore (hart q h).sb pa size u nc
  simp only [bufferPieces, List.foldl_cons, List.foldl_nil, Nat.mul_zero, pow_zero, Nat.div_one]
  exact if_neg (by omega)

/-- A permitted store of memory enters the buffer. -/
theorem coreStore_memory (value : W64) (hmay : mayExecute s.pkg h = true) (hsize : sizeOk size = true)
    (hfit : size ≤ 8 - va.toNat % 8) (hcache : cacheable pa = true)
    (hx : xlatePieces (accOf h ctl true) [(va.toNat, size, 0)] (executesWith s.pkg h ctl) s.mem =
      (.ok [⟨va.toNat, pa, size, 0, nc⟩], m, q)) (hroom : (hart q h).sb.length < 64) :
    coreStore h ctl va size value none s = { s with
      mem := m, pkg := setHart q h { hart q h with sb := bufferStore (hart q h).sb pa size value.toNat nc } } := by
  have hone : countSplit (executesWith s.pkg h ctl) h [(va.toNat, size, 0)] = executesWith s.pkg h ctl := rfl
  rw [coreStore_executes ctl va value hmay hsize, storeOnce, pieces_within hfit]
  dsimp only [State.onPkg_pkg, State.onPkg_mem]
  rw [hone, hx]
  dsimp only
  rw [targetOf_cacheable hcache]
  dsimp only
  rw [bufferPieces_one _ _ hroom]
  rfl

theorem storeOnce_fault (u : Nat)
    (hx : xlatePieces (accOf h ctl true) (pieces va size) (countSplit s.pkg h (pieces va size)) s.mem = (.fault cause w, m, q)) :
    storeOnce h ctl va size u s = (.fault cause w, { s with mem := m, pkg := q }) := by
  rw [storeOnce]
  dsimp only
  rw [hx]

end Access

/-! ## The store buffer drains (R318) -/

/-- Every word of an entry may leave, where no older entry stands before it. -/
theorem drainMask_oldest (l : List StoreEnt) {e : StoreEnt} (hmask : e.mask < 2 ^ 64) : drainMask l 0 255 e = e.mask := by
  have hwords : wordBytes 255 = 2 ^ 64 - 1 := by decide
  have hall : e.mask &&& wordBytes 255 = e.mask := by rw [hwords, Nat.and_two_pow_sub_one_of_lt_two_pow hmask]
  rw [drainMask, hall, ite_self, List.take_zero]
  rfl

theorem endRepair_harts (p : Pkg) (line : Nat) : (endRepair p line).harts = p.harts := by
  have hended (q : Pkg) (pg : Nat) : (endHandling q pg (2 * line)).harts = q.harts := rfl
  unfold endRepair
  split
  · exact foldl_keeps Pkg.harts hended _ _
  · rfl

/-- The oldest store, to a line that its hart owns, leaves the buffer whole and is in memory. -/
theorem drainEnt_owned {s : State} {h : Nat} {e : StoreEnt} {rest : List StoreEnt} (hsb : (hart s.pkg h).sb = e :: rest)
    (hpos : 0 < e.mask) (hmask : e.mask < 2 ^ 64) (hnc : e.nc = false) (howner : (dirLine s.pkg e.pa).owner = some h) :
    drainEnt h 0 255 s = (true, { s with
      mem := writeBytes s.mem (e.pa * 64) e.data (BitVec.ofNat 64 e.mask)
      pkg := wroteBy (endRepair (setHart s.pkg h { hart s.pkg h with sb := rest }) e.pa) h e.pa }) := by
  have hleft : drained' (e :: rest) 0 e.mask e = rest := by rw [drained', Nat.and_self, if_pos rfl, List.eraseIdx_cons_zero]
  rw [drainEnt, hsb]
  dsimp only [List.getElem?_cons_zero]
  rw [drainMask_oldest _ hmask, if_neg (by omega), hleft, storeLands]
  exact if_pos ⟨hnc, howner⟩

/-- The hart whose store has left keeps the younger ones. -/
theorem sb_storeLeft (p : Pkg) (h line : Nat) (rest : List StoreEnt) :
    (hart (wroteBy (endRepair (setHart p h { hart p h with sb := rest }) line) h line) h).sb = rest := by
  have hharts : (wroteBy (endRepair (setHart p h { hart p h with sb := rest }) line) h line).harts =
      (setHart p h { hart p h with sb := rest }).harts := endRepair_harts _ _
  rw [hart_congr hharts, hart_setHart_self]

/-! ## Vector accesses (R428) -/

section VectorOne
variable {h i : Nat} {w : W64} {a : VecArgs} {one : Nat → W64 → State → AccEnd × State} {s u : State}

theorem vecElems_one_done (hstart : (csr s.pkg h 0x008).toNat ≤ i) (hone : one i w s = (.done, u)) :
    vecElems h a one [(i, w)] s = u.onPkg fun p => setCsr (hartEvent p h 0x0D 1) h 0x008 0 := by
  rw [vecElems, if_neg (by omega), hone]
  rfl

theorem vecElems_one_fault {cause : Nat} {v : W64} (hfirst : a.first = false) (hstart : (csr s.pkg h 0x008).toNat ≤ i)
    (hone : one i w s = (.fault cause v, u)) :
    vecElems h a one [(i, w)] s = u.onPkg fun p => elemFault p h i cause v := by
  rw [vecElems, if_neg (by omega), hone]
  exact if_neg fun hff => Bool.false_ne_true (hfirst.symm.trans hff.1)

end VectorOne

/-- The end of a vector access: vstart is 0 and the store buffer stays. -/
theorem vectorEnd_facts (p : Pkg) (h : Nat) : csr (setCsr (hartEvent p h 0x0D 1) h 0x008 0) h 0x008 = 0 ∧
    (hart (setCsr (hartEvent p h 0x0D 1) h 0x008 0) h).sb = (hart p h).sb :=
  ⟨csr_setCsr_self _ _ _ _, (congrArg Hart.sb (hart_setHart_self _ _ _)).trans (sb_hartEvent _ _ _ _)⟩

/-- The exception of an element: vstart names it. -/
theorem elemFault_facts (p : Pkg) (h i cause : Nat) (v : W64) :
    csr (elemFault p h i cause v) h 0x008 = BitVec.ofNat 64 i ∧ (hart (elemFault p h i cause v) h).xcause = some cause ∧
      (hart (elemFault p h i cause v) h).xtval = v := by
  have hhart : hart (elemFault p h i cause v) h = { hart (hartFault p h cause v) h with
      csr := SMap.set (hart (hartFault p h cause v) h).csr 0x008 (BitVec.ofNat 64 i) } := hart_setHart_self _ _ _
  refine ⟨csr_setCsr_self _ _ _ _, ?_, ?_⟩ <;> rw [hhart, hartFault, hart_setHart_self]

end Sys2Proof.Machine
end

section
/-! Atomics of a hart (spec/09 R330, spec/13 R457, R458), and the proof of O30. -/

namespace Sys2Proof.Machine

section Atomic
variable {s : State} {h pa size : Nat} {ctl : CoreCtl} {op : AmoOp} {va value : W64} {rel nc : Bool} {m : Memory} {q : Pkg}

/-! ## An atomic with no store of its hart before it (R330) -/

theorem atomicMem_owned (rd : Nat) (hsb : (hart s.pkg h).sb = []) (howner : (dirLine s.pkg (pa / 64)).owner = some h)
    (hresv : op = .sc → (hart s.pkg h).resv = some (pa / 64)) :
    atomicMem h op va pa size rd value rel s = atomicOn h op va pa size rd value s := by
  simp only [atomicMem, hsb, List.any_nil, Bool.false_eq_true, if_false]
  rw [if_neg fun hlost => hlost.2 (hresv hlost.1), if_pos howner]

/-- SC without its reservation fails (R458). -/
theorem atomicMem_unreserved (rd : Nat) (hsb : (hart s.pkg h).sb = []) (hresv : (hart s.pkg h).resv ≠ some (pa / 64)) :
    atomicMem h .sc va pa size rd value rel s = storeConditional h pa size rd value false s := by
  simp only [atomicMem, hsb, List.any_nil, Bool.false_eq_true, if_false]
  exact if_pos ⟨trivial, hresv⟩

/-- A permitted aligned atomic on memory, by what it does at its line. -/
theorem coreAmo_memory (rd : Nat) (value : W64) (rel : Bool) (hmay : mayExecute s.pkg h = true) (hsize : size = 4 ∨ size = 8)
    (halign : va.toNat % size = 0) (hcache : cacheable pa = true)
    (hx : xlatePieces (accOf h ctl (op != .lr)) [(va.toNat, size, 0)] (executesWith s.pkg h ctl) s.mem =
      (.ok [⟨va.toNat, pa, size, 0, nc⟩], m, q)) :
    coreAmo h ctl op va size rd value rel s =
      endAccess h (atomicMem h op va pa size rd value rel { s with mem := m, pkg := q }) := by
  have hok : (mayExecute s.pkg h && (size == 4 || size == 8)) = true := by simp [hmay, hsize]
  have haligned : misaligned va size = false := by rw [misaligned, halign]; rfl
  rw [coreAmo, if_pos hok, atomicOnce, haligned, if_neg Bool.false_ne_true]
  dsimp only [State.onPkg_pkg, State.onPkg_mem]
  rw [hx]
  dsimp only
  rw [if_pos hcache]
  rfl

/-! ## On a line that the hart owns (R457, R458) -/

theorem atomicOn_update (rd : Nat) (hlr : op ≠ .lr) (hsc : op ≠ .sc) (hclean : s.mem.poisoned (pa / 64 * 64) 64 = false) :
    atomicOn h op va pa size rd value s = (.done, { s with
      mem := s.mem.write pa size (amoValue op size (s.mem.read pa size) (value.toNat % 2 ^ (8 * size)))
      pkg := wroteBy (setX s.pkg h rd (loadValue (s.mem.read pa size) size true)) h (pa / 64) }) := by
  unfold atomicOn
  split
  · exact absurd rfl hlr
  · exact absurd rfl hsc
  · rw [hclean, if_neg Bool.false_ne_true]

theorem loadReserved_clean (rd : Nat) (hclean : s.mem.poisoned (pa / 64 * 64) 64 = false) :
    loadReserved h va pa size rd s = (.done, s.onPkg fun p =>
      setHart (setX p h rd (loadValue (s.mem.read pa size) size true)) h
        { hart (setX p h rd (loadValue (s.mem.read pa size) size true)) h with resv := some (pa / 64) }) := by
  rw [loadReserved, hclean, if_neg Bool.false_ne_true]

/-- The reservation ends with no snoop delayed behind it: nothing else of the hart changes. -/
theorem hart_reservationEnds {p : Pkg} (hdelayed : (hart p h).delayed = []) :
    hart (answerDelayed (setHart p h { hart p h with resv := none }) h) h = { hart p h with resv := none } := by
  rw [answerDelayed]
  dsimp only
  rw [hart_setHart_self, hdelayed, List.foldl_nil, hart_setHart_self]

/-- What an SC without a delayed snoop leaves: its result in the register, and no reservation. -/
theorem storeConditional_hart (pa size : Nat) (value : W64) (held : Bool) {rd : Nat} (hrd : 0 < rd)
    (hdelayed : (hart s.pkg h).delayed = []) :
    SMap.get (hart (storeConditional h pa size rd value held s).2.pkg h).x rd 0 = (if held then 0 else 1) ∧
      (hart (storeConditional h pa size rd value held s).2.pkg h).resv = none := by
  have hends (r : W64) :
      let p := setX s.pkg h rd r
      let q := answerDelayed (setHart p h { hart p h with resv := none }) h
      SMap.get (hart q h).x rd 0 = r ∧ (hart q h).resv = none := by
    dsimp only
    rw [hart_reservationEnds (by rw [hart_setX hrd, hdelayed])]
    exact ⟨x_setX_self hrd _ _ _, rfl⟩
  cases held with
  | true => exact hends 0
  | false => exact hends 1

end Atomic

/-! ## O30 -/

/-- Settles O30: a load by where its value stands, a store by the buffer, a fault by the translation's; the oldest store by its
line's owner, a vector access by its one element, an atomic by what it does on the owned line. -/
theorem hartsLoadStoreAndUpdateMemory : Obligations.HartsLoadStoreAndUpdateMemory := by
  unfold Obligations.HartsLoadStoreAndUpdateMemory
  refine ⟨⟨?held, ?buffered, ?store, ?fault, ?drain, ?vecLoad, ?vecStore⟩, ?atomic⟩
  case held =>
    intro s h pa size rd ctl va signed m q hmay hsize hfit hcache hx hnone hholds hclean hrd
    have hfound := loadPiece_held (x := ⟨va.toNat, pa, size, 0, false⟩) hnone rfl hholds hclean
    have hload := coreLoad_memory rd signed hmay hsize hfit hcache hx hfound
    exact ⟨_, congrArg Host.Outcome.next hload, rfl, x_setX_self hrd _ _ _⟩
  case buffered =>
    intro s h pa size rd ctl va signed nc m q e hmay hsize hfit hcache hx hnewest hcovers hrd
    have hfound := loadPiece_buffered (x := ⟨va.toNat, pa, size, 0, nc⟩) m hnewest hcovers
    have hload := coreLoad_memory rd signed hmay hsize hfit hcache hx hfound
    exact ⟨_, congrArg Host.Outcome.next hload, rfl, x_setX_self hrd _ _ _⟩
  case store =>
    intro s h pa size vreg ctl va value nc m q hmay hsize hfit hcache hx hroom
    refine ⟨_, congrArg Host.Outcome.next (coreStore_memory value hmay hsize hfit hcache hx hroom), rfl, ?_⟩
    exact congrArg Hart.sb (hart_setHart_self _ _ _)
  case fault =>
    intro s h size rd vreg cause ctl va value v signed write m q hmay hsize hx
    have htaken : exec (if write then .coreStore h ctl va size value vreg none else .coreLoad h ctl va size rd signed none) s =
        .next { s with mem := m, pkg := hartFault q h cause v } := by
      cases write with
      | true =>
        refine congrArg Host.Outcome.next ((coreStore_executes ctl va value hmay hsize).trans ?_)
        rw [storeOnce_fault (s := s.onPkg fun p => executesWith p h ctl) _ hx]
        rfl
      | false =>
        refine congrArg Host.Outcome.next ((coreLoad_executes ctl va rd signed hmay hsize).trans ?_)
        rw [loadOnce_fault (s := s.onPkg fun p => executesWith p h ctl) _ _ hx]
        rfl
    refine ⟨_, htaken, rfl, ?_⟩
    dsimp only
    rw [hartFault, hart_setHart_self]
    exact ⟨rfl, rfl, rfl, rfl⟩
  case drain =>
    intro s h e rest hh hsb hpos hmask hnc howner
    have hleaves : execStoreBufferDrain ⟨h, 0, 255⟩ s = .next (drainEnt h 0 255 s).2 := if_pos hh
    rw [drainEnt_owned hsb hpos hmask hnc howner] at hleaves
    exact ⟨_, hleaves, sb_storeLeft _ _ _ _, rfl⟩
  case vecLoad =>
    intro s t0 u h size rd i ctl va w signed a r hmay hsize ht0 helems hfirst hstart hload
    have hone := coreLoad_elements ctl va rd signed a hmay hsize
    rw [helems, ← ht0] at hone
    refine ⟨?_, ?_⟩
    · rintro rfl
      rw [vecElems_one_done hstart hload] at hone
      exact ⟨_, congrArg Host.Outcome.next hone, rfl, (vectorEnd_facts _ _).1⟩
    · rintro cause v rfl
      rw [vecElems_one_fault hfirst hstart hload] at hone
      exact ⟨_, congrArg Host.Outcome.next hone, rfl, elemFault_facts _ _ _ _ _⟩
  case vecStore =>
    intro s t0 u h size vreg i ctl va w value r hmay hsize ht0 hstart hstore
    have hone := coreStore_elements ctl va value ⟨vreg, [(i, w)], false⟩ hmay hsize
    rw [← ht0] at hone
    refine ⟨?_, ?_⟩
    · rintro rfl
      rw [vecElems_one_done hstart hstore] at hone
      exact ⟨_, congrArg Host.Outcome.next hone, rfl, vectorEnd_facts _ _⟩
    · rintro cause v rfl
      rw [vecElems_one_fault rfl hstart hstore] at hone
      exact ⟨_, congrArg Host.Outcome.next hone, rfl, elemFault_facts _ _ _ _ _⟩
  case atomic =>
    intro s h pa size rd ctl op va value rel nc m q hmay hsize halign hcache hx hsb howner hclean hrd
    have hamo := coreAmo_memory rd value rel hmay hsize halign hcache hx
    refine ⟨fun hlr hsc => ?_, ?_, ?_, ?_⟩
    · rw [atomicMem_owned rd hsb howner (fun hop => absurd hop hsc), atomicOn_update rd hlr hsc hclean] at hamo
      exact ⟨_, congrArg Host.Outcome.next hamo, rfl, x_setX_self hrd _ _ _⟩
    · rintro rfl
      rw [atomicMem_owned (op := .lr) rd hsb howner nofun, atomicOn, loadReserved_clean rd hclean] at hamo
      refine ⟨_, congrArg Host.Outcome.next hamo, rfl, ?_⟩
      dsimp only [endAccess, State.onPkg_pkg]
      rw [hart_setHart_self]
      exact ⟨rfl, x_setX_self hrd _ _ _⟩
    · rintro rfl hresv hdelayed
      rw [atomicMem_owned rd hsb howner (fun _ => hresv)] at hamo
      have hends := storeConditional_hart (s := { s with mem := m, pkg := q }) pa size value true hrd hdelayed
      exact ⟨_, congrArg Host.Outcome.next hamo, rfl, hends⟩
    · rintro rfl hresv hdelayed
      rw [atomicMem_unreserved rd hsb hresv] at hamo
      have hends := storeConditional_hart (s := { s with mem := m, pkg := q }) pa size value false hrd hdelayed
      exact ⟨_, congrArg Host.Outcome.next hamo, rfl, hends.1⟩

end Sys2Proof.Machine
end

section
/-! Fences, cache-block operations and prefetches of a hart (spec/09 R328, spec/12 R419 to R421, R426, R427), and the proof of
O31. -/

namespace Sys2Proof.Machine

/-! ## Fences (R328) -/

/-- A hart with one buffered store, to a line that it owns, writes it out. -/
theorem drainHart_one {s : State} {h : Nat} {e : StoreEnt} (hsb : (hart s.pkg h).sb = [e]) (hpos : 0 < e.mask)
    (hmask : e.mask < 2 ^ 64) (hnc : e.nc = false) (howner : (dirLine s.pkg e.pa).owner = some h) :
    (hart (drainHart h s).pkg h).sb = [] ∧
      (drainHart h s).mem = writeBytes s.mem (e.pa * 64) e.data (BitVec.ofNat 64 e.mask) := by
  rw [drainHart, hsb, List.length_singleton, drainAll, drainEnt_owned hsb hpos hmask hnc howner]
  exact ⟨sb_storeLeft _ _ _ _, rfl⟩

/-- A FENCE of the hart's stores writes its one buffered store out. -/
theorem fence_writes {s : State} {h pred : Nat} {e : StoreEnt} (hw : pred.testBit 0 = true) (hmay : mayExecute s.pkg h = true)
    (hsb : (hart s.pkg h).sb = [e]) (hpos : 0 < e.mask) (hmask : e.mask < 2 ^ 64) (hnc : e.nc = false)
    (howner : (dirLine s.pkg e.pa).owner = some h) :
    (hart (fence h pred s).pkg h).sb = [] ∧
      (fence h pred s).mem = writeBytes s.mem (e.pa * 64) e.data (BitVec.ofNat 64 e.mask) := by
  have howner' : (dirLine (executes s.pkg h) e.pa).owner = some h := by
    rw [dirLine_congr (congrArg HomeSt.dir (executes_home s.pkg h)), howner]
  rw [fence, if_pos hmay]
  dsimp only
  rw [if_pos hw]
  refine drainHart_one ?_ hpos hmask hnc howner'
  rw [State.onPkg_pkg, hart_setHart_self, State.onPkg_pkg, hart_executes]
  exact hsb

theorem fence_withoutWrites {s : State} {h pred : Nat} (hw : pred.testBit 0 = false) (hmay : mayExecute s.pkg h = true) :
    fence h pred s = s.onPkg fun p => executes p h := by
  rw [fence, if_pos hmay]
  dsimp only
  rw [hw, if_neg Bool.false_ne_true]

/-! ## Cache-block operations (R419, R421) -/

section Access
variable {s : State} {h pa : Nat} {ctl : CoreCtl} {va : W64} {nc : Bool} {m : Memory} {q : Pkg}

/-- A permitted cache-block operation of memory, with no store of the hart to its line, acts on the line. -/
theorem cbo_memory (f : Nat → Pkg → Pkg) (hmay : mayExecute s.pkg h = true) (hcache : cacheable pa = true)
    (hx : xlatePieces { accOf h ctl true with mgmt := true, mark := false } [(va.toNat, 1, 0)] (executesWith s.pkg h ctl) s.mem =
      (.ok [⟨va.toNat, pa, 1, 0, nc⟩], m, q)) (hsb : (hart q h).sb.any (fun e => e.pa == pa / 64) = false) :
    cbo h ctl va f s = { s with mem := m, pkg := f pa q } := by
  rw [cbo, if_pos hmay, cboOnce]
  dsimp only [State.onPkg_pkg, State.onPkg_mem]
  rw [hx]
  dsimp only
  rw [targetOf_cacheable hcache]
  simp only [List.map_cons, List.map_nil, List.headD_cons, hsb, Bool.false_eq_true, if_false]
  rfl

theorem cboZero_memory (hmay : mayExecute s.pkg h = true) (hcache : cacheable pa = true)
    (hx : xlatePieces (accOf h ctl true) [(va.toNat / 64 * 64, 64, 0)] (executesWith s.pkg h ctl) s.mem =
      (.ok [⟨va.toNat / 64 * 64, pa, 64, 0, nc⟩], m, q)) (hroom : (hart q h).sb.length < 64) :
    cboZero h ctl va s = { s with
      mem := m, pkg := setHart q h { hart q h with sb := (hart q h).sb ++ [⟨pa / 64, 2 ^ 64 - 1, 0, nc, true⟩] } } := by
  rw [cboZero, if_pos hmay, zeroOnce]
  dsimp only [State.onPkg_pkg, State.onPkg_mem]
  rw [hx]
  dsimp only
  rw [targetOf_cacheable hcache]
  dsimp only
  rw [bufferZero, if_neg (by omega)]
  rfl

/-! ## Prefetches (R421) -/

/-- PREFETCH.I of a line that the hart holds. -/
theorem prefetchOnce_held (m : Memory) (hcache : cacheable pa = true) (hholds : h ∈ (dirLine q (pa / 64)).harts) :
    prefetchOnce h 2 pa m q = setHart q h { hart q h with icache := (pa / 64 :: (hart q h).icache).eraseDups } := by
  have hkind : ¬ (2 : Nat) = 1 := by decide
  rw [prefetchOnce]
  dsimp only
  rw [hcache, if_neg nofun, if_neg hkind, decide_eq_true hholds, Bool.true_or, if_pos rfl, if_pos ⟨rfl, rfl⟩]

theorem corePrefetch_ok (hmay : mayExecute s.pkg h = true) {x : CPiece}
    (hx : xlatePieces { accOf h ctl false with mark := false } [(va.toNat, 1, 0)] (executesWith s.pkg h ctl) s.mem =
      (.ok [x], m, q)) :
    corePrefetch h ctl va 2 s = { s with mem := m, pkg := prefetchOnce h 2 x.pa m q } := by
  have hread : (2 == 1) = false := rfl
  rw [corePrefetch, if_pos hmay, hread]
  dsimp only [State.onPkg_pkg, State.onPkg_mem]
  rw [hx]
  rfl

theorem corePrefetch_fault {cause : Nat} {v : W64} (hmay : mayExecute s.pkg h = true)
    (hx : xlatePieces { accOf h ctl false with mark := false } [(va.toNat, 1, 0)] (executesWith s.pkg h ctl) s.mem =
      (.fault cause v, m, q)) :
    corePrefetch h ctl va 2 s = { s with mem := m, pkg := q } := by
  have hread : (2 == 1) = false := rfl
  rw [corePrefetch, if_pos hmay, hread]
  dsimp only [State.onPkg_pkg, State.onPkg_mem]
  rw [hx]
  rfl

end Access

/-! ## O31 -/

/-- Settles O31: a fence by whether it drains the one store, FENCE.I and SFENCE.VMA by the cache that each empties, the cache-block
operations by what they do to their line's entry or to the buffer, PREFETCH.I by whether its line is translated. -/
theorem fencesAndCacheBlocksActOnOneHart : Obligations.FencesAndCacheBlocksActOnOneHart := by
  unfold Obligations.FencesAndCacheBlocksActOnOneHart
  refine ⟨?fences, ?fenceI, ?sfence, ?blocks, ?zero, ?prefetch, ?dropped⟩
  case fences =>
    intro s h pred succ e hmay hsb hpos hmask hnc howner
    refine ⟨fun hw => ⟨_, rfl, fence_writes hw hmay hsb hpos hmask hnc howner⟩,
      fun hw => ⟨_, congrArg Host.Outcome.next (fence_withoutWrites hw hmay), ?_, rfl⟩,
      ⟨_, rfl, fence_writes (by decide) hmay hsb hpos hmask hnc howner⟩⟩
    rw [State.onPkg_pkg, hart_executes]
    exact hsb
  case fenceI | sfence =>
    intro s h hmay
    refine ⟨_, rfl, ?_⟩
    rw [State.onPkg_pkg, if_pos hmay]
    dsimp only
    rw [hart_setHart_self, hart_executes]
    exact ⟨rfl, rfl, rfl, rfl⟩
  case blocks =>
    intro s h pa ctl va nc m q hmay hcache hx hsb
    have hcbo (f : Nat → Pkg → Pkg) := cbo_memory f hmay hcache hx hsb
    exact ⟨⟨_, congrArg Host.Outcome.next (hcbo _), rfl, dirLine_cleanLine _ _ _ _⟩,
      ⟨_, congrArg Host.Outcome.next (hcbo _), rfl, giveUp_leaves _ _ _⟩,
      ⟨_, congrArg Host.Outcome.next (hcbo _), rfl, giveUp_leaves _ _ _⟩⟩
  case zero =>
    intro s h pa ctl va nc m q hmay hcache hx hroom
    exact ⟨_, congrArg Host.Outcome.next (cboZero_memory hmay hcache hx hroom), rfl, congrArg Hart.sb (hart_setHart_self _ _ _)⟩
  case prefetch =>
    intro s h pa ctl va nc m q hmay hcache hx hholds
    have hfetched := corePrefetch_ok hmay hx
    rw [prefetchOnce_held m hcache hholds] at hfetched
    refine ⟨_, congrArg Host.Outcome.next hfetched, rfl, ?_⟩
    dsimp only
    rw [hart_setHart_self]
    exact ⟨List.mem_eraseDups.2 List.mem_cons_self, rfl⟩
  case dropped =>
    intro s h cause ctl va v m q hmay hx
    exact ⟨_, congrArg Host.Outcome.next (corePrefetch_fault hmay hx), rfl, rfl⟩

end Sys2Proof.Machine
end

section
/-! Memory controllers and channels (spec/11 R387 to R396): what the operations that they share with other blocks leave of a
channel's queue and of the line counters. -/

namespace Sys2Proof.Machine

/-! ## The state of the tiers -/

theorem OnlyLog.memc_eq {p q : Pkg} (h : OnlyLog p q) : q.memc = p.memc := by
  obtain ⟨_, _, _, _, _, rfl⟩ := h
  rfl

theorem OnlyLog.ddrBytes_eq {p q : Pkg} (h : OnlyLog p q) : q.ddrBytes = p.ddrBytes := by
  obtain ⟨_, _, _, _, _, rfl⟩ := h
  rfl

theorem pcSt_congr {p q : Pkg} (h : q.memc = p.memc) (k : Nat) : pcSt q k = pcSt p k := by rw [pcSt, pcSt, h]

@[simp] theorem pcSt_setPc_self (p : Pkg) (k : Nat) (x : PcSt) : pcSt (setPc p k x) k = x := SMap.get_set_self _ _ _ _

@[simp] theorem reg_setPc (p : Pkg) (k : Nat) (x : PcSt) (j : Nat) : reg (setPc p k x) j = reg p j := reg_congr rfl rfl rfl j

@[simp] theorem acc_setAcc_self (p : Pkg) (b : Nat) (a : AccSt) : acc (setAcc p b a) b = a := SMap.get_set_self _ _ _ _

/-! ## READY and the logs leave the tiers -/

theorem becomeReady_tiers (p : Pkg) (pg : Nat) :
    (becomeReady p pg).memc = p.memc ∧ (becomeReady p pg).ddrBytes = p.ddrBytes := by
  have hready := setReady_only p pg true
  unfold becomeReady
  split
  · exact ⟨rfl, rfl⟩
  · split
    · exact ⟨rfl, rfl⟩
    · exact ⟨hready.memc_eq, hready.ddrBytes_eq⟩

theorem drained_memc (p : Pkg) (pg : Nat) : (drained p pg).memc = p.memc :=
  ite_keeps Pkg.memc rfl (setReady_only p pg false).memc_eq

theorem settleDrains_memc (p : Pkg) : (settleDrains p).memc = p.memc :=
  foldl_keeps Pkg.memc (fun q _ => ite_keeps Pkg.memc (drained_memc q _) rfl) _ p

theorem settleDrains_reg_off (p : Pkg) (pg : Nat) {off : Nat} (ho : off < 0x1000) (h : off ∉ [8, 0x20, 0x24]) :
    reg (settleDrains p) (key pg off) = reg p (key pg off) :=
  foldl_keeps (reg · (key pg off))
    (fun q _ => ite_keeps (reg · (key pg off)) ((drained_readyOnly q _).reg pg off ho h) rfl) _ p

theorem fencedAccess_memc (p : Pkg) (ctl pc : Nat) (r : MemReq) (m : Memory) : (fencedAccess p ctl pc r m).memc = p.memc :=
  ite_keeps Pkg.memc (logErr_only _ _ _).memc_eq rfl

theorem fencedAccess_reg_off (p : Pkg) (ctl pc : Nat) (r : MemReq) (m : Memory) (pg : Nat) {off : Nat} (ho : off < 0x1000)
    (h : off ∉ [0x10, 0x20, 0x24, 0x2C]) : reg (fencedAccess p ctl pc r m) (key pg off) = reg p (key pg off) := by
  simp only [List.mem_cons, List.not_mem_nil, or_false, not_or] at h
  obtain ⟨h10, h20, h24, h2C⟩ := h
  exact ite_keeps (reg · (key pg off)) (logErr_reg _ _ _ (key_ne _ _ ho (by decide) h10) (key_ne _ _ ho (by decide) h20)
    (key_ne _ _ ho (by decide) h24) (key_ne _ _ ho (by decide) h2C)) rfl

/-! ## The line counters (Table 11-11) -/

/-- The line counters stand apart from the counters of activations and turns and from the common registers. -/
theorem lineCounter_mem (r : MemReq) : lineCounter r ∈ [0x110, 0x118, 0x120, 0x128] := by
  unfold lineCounter
  split
  · decide
  · have hcls : min 2 r.cls = 0 ∨ min 2 r.cls = 1 ∨ min 2 r.cls = 2 := by omega
    rcases hcls with h | h | h <;> rw [h] <;> decide

theorem lineCounter_lt (r : MemReq) : lineCounter r < 0x1000 :=
  (by decide : ∀ o ∈ [0x110, 0x118, 0x120, 0x128], o < 0x1000) _ (lineCounter_mem r)

theorem lineCounter_notMem (r : MemReq) : lineCounter r ∉ [8, 0x10, 0x20, 0x24, 0x2C, 0x130, 0x138] :=
  (by decide : ∀ o ∈ [0x110, 0x118, 0x120, 0x128], o ∉ [8, 0x10, 0x20, 0x24, 0x2C, 0x130, 0x138]) _ (lineCounter_mem r)

theorem reg_addReg_off (p : Pkg) (pg n pg' : Nat) {x y : Nat} (hx : x < 0x1000) (hy : y < 0x1000) (h : y ≠ x) :
    reg (addReg p (key pg x) n) (key pg' y) = reg p (key pg' y) := reg_setReg_ne _ _ (key_ne _ _ hy hx h)

end Sys2Proof.Machine
end

section
/-! A channel's service, refresh, training and access counters (spec/11 R387, R390, R392, R394, R395, R409), and the proof of
O34. -/

namespace Sys2Proof.Machine

/-! ## Service (R390) -/

/-- A channel once the request `r` at place `i` of its queue is served: the request is gone and its row is open. -/
def PcSt.served (x : PcSt) (i : Nat) (r : MemReq) : PcSt :=
  { x with
    reqs := x.reqs.eraseIdx i
    batch := batchAfter x (x.reqs.eraseIdx i)
    rows := SMap.set x.rows r.bank r.row
    lastRead := !r.write }

/-- The package with a served request counted on its controller's page: its line, and the activation and the turn from read to
write that it took. -/
def countServed (p : Pkg) (pg : Nat) (x : PcSt) (r : MemReq) : Pkg :=
  let lines := addReg p (key pg (lineCounter r)) 1
  let acts := if SMap.get x.rows r.bank (r.row + 1) == r.row then lines else addReg lines (key pg 0x130) 1
  if r.write && x.lastRead then addReg acts (key pg 0x138) 1 else acts

theorem countServed_counter (p : Pkg) (pg : Nat) (x : PcSt) (r : MemReq) :
    reg (countServed p pg x r) (key pg (lineCounter r)) = reg p (key pg (lineCounter r)) + 1 := by
  have hlt := lineCounter_lt r
  have hoff := lineCounter_notMem r
  simp only [List.mem_cons, List.not_mem_nil, or_false, not_or] at hoff
  obtain ⟨-, -, -, -, -, hact, hturn⟩ := hoff
  refine ite_keeps (reg · (key pg (lineCounter r))) ((reg_addReg_off _ _ _ _ (by decide) hlt hturn).trans ?acts) ?acts
  have hline : reg (addReg p (key pg (lineCounter r)) 1) (key pg (lineCounter r)) = reg p (key pg (lineCounter r)) + 1 :=
    reg_setReg_self _ _ _
  exact ite_keeps (reg · (key pg (lineCounter r))) hline ((reg_addReg_off _ _ _ _ (by decide) hlt hact).trans hline)

theorem doHbmRequestServe_chosen {p : Pkg} {ctl pc i : Nat} {r : MemReq} (m : Memory) (hok : pcOk ctl pc = true)
    (hready : ready p (pgMem ctl) = true)
    (hchoose : chooseReq (pcSt p (64 * ctl + pc)) p.pace.datum (100 * fld p (key (pgMem ctl) 0x108) 7 0) = some (i, r)) :
    ∃ b, doHbmRequestServe ctl pc m p = settleDrains (fencedAccess (setBusy (setPc
      (countServed p (pgMem ctl) (pcSt p (64 * ctl + pc)) r) (64 * ctl + pc) ((pcSt p (64 * ctl + pc)).served i r))
      (pgMem ctl) b) ctl pc r m) := by
  unfold doHbmRequestServe
  dsimp only
  rw [if_pos (by rw [hok, hready]; rfl), hchoose]
  exact ⟨_, rfl⟩

/-- The request chosen is served: its channel has its row open, and its page counts its line. -/
theorem doHbmRequestServe_serves {p : Pkg} {ctl pc i : Nat} {r : MemReq} (m : Memory) (hok : pcOk ctl pc = true)
    (hready : ready p (pgMem ctl) = true)
    (hchoose : chooseReq (pcSt p (64 * ctl + pc)) p.pace.datum (100 * fld p (key (pgMem ctl) 0x108) 7 0) = some (i, r)) :
    pcSt (doHbmRequestServe ctl pc m p) (64 * ctl + pc) = (pcSt p (64 * ctl + pc)).served i r ∧
      reg (doHbmRequestServe ctl pc m p) (key (pgMem ctl) (lineCounter r)) = reg p (key (pgMem ctl) (lineCounter r)) + 1 := by
  obtain ⟨b, hserve⟩ := doHbmRequestServe_chosen m hok hready hchoose
  have hlt := lineCounter_lt r
  have hoff := lineCounter_notMem r
  simp only [List.mem_cons, List.not_mem_nil, or_false, not_or] at hoff
  obtain ⟨h8, h10, h20, h24, h2C, -, -⟩ := hoff
  rw [hserve]
  constructor
  · rw [pcSt_congr (settleDrains_memc _), pcSt_congr (fencedAccess_memc _ _ _ _ _), setBusy, pcSt_congr (setBit_memc _ _ _ _),
      pcSt_setPc_self]
  · rw [settleDrains_reg_off _ _ hlt (by simp [h8, h20, h24]),
      fencedAccess_reg_off _ _ _ _ _ _ hlt (by simp [h10, h20, h24, h2C]), setBusy_reg_off _ _ _ _ hlt h8, reg_setPc]
    exact countServed_counter p _ _ r

/-! ## Refresh (R387, R392) -/

/-- That a refresh closes its bank's row is entry 47 of the assumption log. -/
theorem doRefresh_closes {p : Pkg} {ctl pc bank : Nat} (hok : pcOk ctl pc = true)
    (hwaits : lcWaits (pcSt p (64 * ctl + pc)) bank = false) :
    pcSt (doRefresh ctl pc bank p) (64 * ctl + pc) = { pcSt p (64 * ctl + pc) with
      rows := SMap.drop (pcSt p (64 * ctl + pc)).rows (fun b => b == bank)
      postponed := SMap.drop (pcSt p (64 * ctl + pc)).postponed (fun b => b == bank) } := by
  rw [doRefresh, if_pos hok]
  dsimp only
  rw [hwaits, if_neg (by simp), if_neg (by simp)]
  exact pcSt_setPc_self _ _ _

theorem doRefresh_postpones {p : Pkg} {ctl pc bank : Nat} (hok : pcOk ctl pc = true)
    (hwaits : lcWaits (pcSt p (64 * ctl + pc)) bank = true) (hn : SMap.get (pcSt p (64 * ctl + pc)).postponed bank 0 < 8) :
    pcSt (doRefresh ctl pc bank p) (64 * ctl + pc) = { pcSt p (64 * ctl + pc) with
      postponed := SMap.set (pcSt p (64 * ctl + pc)).postponed bank
        (SMap.get (pcSt p (64 * ctl + pc)).postponed bank 0 + 1) } := by
  rw [doRefresh, if_pos hok]
  dsimp only
  rw [hwaits, if_pos (by simp [hn])]
  exact pcSt_setPc_self _ _ _

/-- The temperature is shown, and the doubled rate is set where it is above 85 °C. -/
theorem noteMemTemp_shows (p : Pkg) (ctl : Nat) {temp : Nat} (h : temp < 256) :
    bit (noteMemTemp p ctl temp) (key (pgMem ctl) 0x104) 23 = decide (85 < temp) ∧
      fld (noteMemTemp p ctl temp) (key (pgMem ctl) 0x104) 31 24 = temp := by
  have hreg : reg (noteMemTemp p ctl temp) (key (pgMem ctl) 0x104) =
      reg (setBit (setFld p (key (pgMem ctl) 0x104) 31 24 temp) (key (pgMem ctl) 0x104) 23 (decide (85 < temp)))
        (key (pgMem ctl) 0x104) :=
    ite_keeps (reg · (key (pgMem ctl) 0x104)) rfl (raise_reg_off _ _ _ _ (by decide) (by decide))
  rw [bit_congr hreg, fld_congr hreg]
  refine ⟨bit_setBit_self _ _ _ _ (by decide), ?_⟩
  rw [setBit, fld_setFld_beside _ _ _ _ _ _ _ (by decide) (by decide) (by decide) (by decide),
    fld_setFld_self _ _ _ _ _ (by decide) (by decide)]
  exact Nat.mod_eq_of_lt h

/-! ## DDR training (R394, R395) -/

theorem ddrPageUp_tiers (l : List DdrChannel) (o : Nat) (p : Pkg) (c : Nat) :
    ((ddrPageUp l o p c).memc, (ddrPageUp l o p c).ddrBytes) = (p.memc, p.ddrBytes) := by
  unfold ddrPageUp
  dsimp only
  split
  · rw [(becomeReady_tiers _ _).1, (becomeReady_tiers _ _).2]
    rfl
  · split <;> rfl

/-- The training ends on a populated board with power: its phase, the half that came up and the bytes of the DDR tier. -/
theorem execDdrTrainingDone_ends {s : State} {l : List DdrChannel} (hlen : l.length = 8) (hphase : s.pkg.memc.ddrPhase = 0)
    (hrail : s.pkg.seq.railPgCore = true) (hstep : 4 ≤ seqStep s.pkg) (hstate : seqState s.pkg ≠ 4) :
    ∃ t, execDdrTrainingDone l s = .next t ∧
      t.pkg.memc = { s.pkg.memc with ddrPhase := if ddrOutcome l = 3 then 2 else 1, ddrHalf := ddrOutcome l % 3 } ∧
      (ddrOutcome l = 3 → t.pkg.ddrBytes = 0) := by
  have hpages (p : Pkg) := foldl_keeps (fun q => (q.memc, q.ddrBytes)) (ddrPageUp_tiers l (ddrOutcome l)) (List.range 8) p
  have hhandoff (u : State) : (handoffDdr u).pkg = u.pkg := by
    unfold handoffDdr
    split <;> rfl
  unfold execDdrTrainingDone
  dsimp only
  rw [if_neg (by simp [hlen, hphase, hrail, hstate]; omega)]
  refine ⟨_, rfl, ?memc, ?bytes⟩
  case memc =>
    split
    · exact congrArg Prod.fst (hpages _)
    · rw [hhandoff]
      exact congrArg Prod.fst (hpages _)
  case bytes =>
    intro hnone
    rw [if_pos hnone]
    exact (congrArg Prod.snd (hpages _)).trans (if_pos hnone)

/-! ## Access counters (R409) -/

theorem doEpochEnd_halves {p : Pkg} {b : Nat} (hb : b < 9) (hon : bit p (accControl b) 31 = true)
    (hdue : (acc p b).since + epochNs p b ≤ p.pace.datum) :
    acc (doEpochEnd b p) b =
      { ents := (acc p b).ents.map (fun x =>
          (x.1, { x.2 with reads := x.2.reads / 2, writes := x.2.writes / 2, hot := false }))
        epochs := (acc p b).epochs + 1
        since := p.pace.datum } := by
  rw [doEpochEnd]
  dsimp only
  rw [if_pos (by simp [hb, hon, hdue])]
  exact acc_setAcc_self _ _ _

/-! ## O34 -/

/-- Settles O34: a served request by its channel's state and its page's counter, a refresh by whether an LC read waits for its bank,
the rate by the temperature shown, DDR training by the state of the tiers that it leaves, an epoch's end by the counts it halves. -/
theorem controllersServeRefreshAndCount : Obligations.ControllersServeRefreshAndCount := by
  unfold Obligations.ControllersServeRefreshAndCount
  refine ⟨?serves, ?closes, ?postpones, ?rate, ?training, ?epoch⟩
  case serves =>
    rintro s ctl pc i r x hok hready rfl hchoose
    obtain ⟨hpc, hcount⟩ := doHbmRequestServe_serves s.mem hok hready hchoose
    refine ⟨_, rfl, rfl, ?_⟩
    rw [State.onPkg_pkg, hpc]
    exact ⟨rfl, SMap.get_set_self _ _ _ _, rfl, hcount⟩
  case closes =>
    intro s ctl pc bank hok hwaits
    refine ⟨_, rfl, ?_⟩
    rw [State.onPkg_pkg, doRefresh_closes hok hwaits]
    exact ⟨SMap.any_drop_self _ _, (SMap.get_drop _ (· == bank) _ _).trans (if_pos (beq_self_eq_true bank)), rfl⟩
  case postpones =>
    rintro s ctl pc bank n hok hwaits rfl hn
    refine ⟨_, rfl, ?_⟩
    rw [State.onPkg_pkg, doRefresh_postpones hok hwaits hn]
    exact ⟨SMap.get_set_self _ _ _ _, rfl⟩
  case rate =>
    intro s ctl temp hctl htemp
    refine ⟨_, rfl, ?_⟩
    rw [State.onPkg_pkg, doRefreshRateChange, if_pos hctl]
    obtain ⟨hrate, hshown⟩ := noteMemTemp_shows s.pkg ctl htemp
    exact ⟨hrate, hshown, rfl⟩
  case training =>
    intro s l hlen hphase hrail hstep hstate
    obtain ⟨t, ht, hmemc, hbytes⟩ := execDdrTrainingDone_ends hlen hphase hrail hstep hstate
    exact ⟨t, ht, congrArg MemSt.ddrPhase hmemc, congrArg MemSt.ddrHalf hmemc, hbytes⟩
  case epoch =>
    intro s b hb hon hdue
    refine ⟨_, rfl, ?_⟩
    rw [State.onPkg_pkg, doEpochEnd_halves hb hon hdue]
    exact ⟨rfl, rfl, rfl, rfl⟩

end Sys2Proof.Machine
end

section
/-! Hart control (spec/12 R438, R441 to R444): what HOLD, HELD, START and WFI leave of their hart. -/

namespace Sys2Proof.Machine

/-! ## The state of a hart (Table 12-8) -/

theorem hartState_setHartState (p : Pkg) (h : Nat) {n : Nat} (hn : n < 4) : hartState (setHartState p h n) h = n := by
  unfold setHartState
  split
  · assumption
  · rw [hartState, hartStateKey, raiseBlock, fld_congr (raise_reg_off _ _ _ _ (by decide) (by decide)),
      fld_setFld_self _ _ _ _ _ (by omega) (by omega)]
    have hwidth : 8 * (h % 4) + 1 + 1 - 8 * (h % 4) = 2 := by omega
    rw [hwidth]
    exact Nat.mod_eq_of_lt hn

theorem hartState_setHart (p : Pkg) (h : Nat) (x : Hart) (g : Nat) : hartState (setHart p h x) g = hartState p g :=
  fld_congr (reg_congr rfl rfl rfl _) _ _

theorem hart_setHartState (p : Pkg) (h n g : Nat) : hart (setHartState p h n) g = hart p g :=
  hart_congr (setHartState_only p h n).harts_eq g

/-! ## The start of a hart (R438, R442) -/

/-- A fold that sets one value at each key of a list. -/
theorem SMap.get_foldl_set {α : Type} (l : List Nat) (m : SMap α) (v d : α) (k : Nat) :
    SMap.get (l.foldl (fun m c => SMap.set m c v) m) k d = if k ∈ l then v else SMap.get m k d := by
  induction l generalizing m with
  | nil => rfl
  | cons c t ih =>
    rw [List.foldl_cons, ih, SMap.get_set]
    by_cases hk : k = c <;> simp [hk]

theorem hartState_startHart (p : Pkg) (h entry : Nat) (arg : W64) : hartState (startHart p h entry arg) h = 1 :=
  hartState_setHartState _ _ (by decide)

/-- A started hart is in M-mode at its entry, with its number in a0 and its argument in a1. -/
theorem startHart_enters (p : Pkg) (h entry : Nat) (arg : W64) :
    (hart (startHart p h entry arg) h).mMode = true ∧ (hart (startHart p h entry arg) h).pc = entry ∧
      SMap.get (hart (startHart p h entry arg) h).x 10 0 = BitVec.ofNat 64 h ∧
      SMap.get (hart (startHart p h entry arg) h).x 11 0 = arg := by
  rw [startHart, hart_setHartState, hart_setHart_self]
  exact ⟨rfl, rfl, (SMap.get_set_ne _ _ _ (by decide)).trans (SMap.get_set_self _ _ _ _), SMap.get_set_self _ _ _ _⟩

/-- A start waits for nothing more, and brings no reservation. -/
theorem startHart_settles (p : Pkg) (h entry : Nat) (arg : W64) :
    (hart (startHart p h entry arg) h).holding = false ∧
      (hart (startHart p h entry arg) h).resv = (hart p h).resv := by
  rw [startHart, hart_setHartState, hart_setHart_self]
  exact ⟨rfl, rfl⟩

/-- satp, mie, the PMP configurations and hgatp are 0 at a start. -/
theorem csr_startHart {n : Nat} (hn : n ∈ [0x180, 0x304, 0x3A0, 0x3A2, 0x680]) (p : Pkg) (h entry : Nat) (arg : W64) :
    csr (startHart p h entry arg) h n = 0 := by
  have hstatus : n ≠ 0x300 := by rintro rfl; exact absurd hn (by decide)
  rw [csr, startHart, hart_setHartState, hart_setHart_self]
  dsimp only
  rw [SMap.get_set_ne _ _ _ hstatus, SMap.get_foldl_set, if_pos hn]

/-- mstatus.MIE is 0 at a start. -/
theorem mie_startHart (p : Pkg) (h entry : Nat) (arg : W64) : bitOf (csr (startHart p h entry arg) h 0x300) 3 = false := by
  rw [csr, startHart, hart_setHartState, hart_setHart_self]
  dsimp only
  rw [SMap.get_set_self]
  exact bitOf_withBits _ 3 false (by decide)

/-! ## CC_HART_CONTROL (R441, R442) -/

/-- The fields of a word that names a code for one hart alone. -/
theorem bitsOf_oneCode : ∀ code < 4, ∀ j < 4, ∀ i < 4,
    bitsOf (BitVec.ofNat 64 (code * 2 ^ (8 * j))) (8 * i + 1) (8 * i) = if i = j then code else 0 := by
  decide

theorem hartCode_none (p : Pkg) (h : Nat) : hartCode p h 0 = p := rfl

theorem hartCode_hold {p : Pkg} {h : Nat} (hstate : hartState p h = 1) (hhold : (hart p h).holding = false) :
    hartCode p h 1 = setHart p h { hart p h with holding := true, resv := none } := by
  rw [hartCode, if_pos rfl, if_pos ⟨.inl hstate, hhold⟩]

theorem hartCode_start {p : Pkg} {h : Nat} (hstate : hartState p h = 0) (hhold : (hart p h).holding = false) :
    hartCode p h 2 = startFromRegs p h := by
  rw [hartCode, if_neg (by decide), if_pos rfl, hhold, if_neg Bool.false_ne_true, if_pos hstate]

/-- A word that names a code for one hart acts on that hart only. -/
theorem putHartControl_oneCode {code j : Nat} (hcode : code < 4) (hj : j < 4) (cluster : Nat) (p : Pkg) :
    putHartControl cluster (BitVec.ofNat 64 (code * 2 ^ (8 * j))) p = hartCode p (4 * cluster + j) code := by
  have hfields : putHartControl cluster (BitVec.ofNat 64 (code * 2 ^ (8 * j))) p =
      (List.range 4).foldl (fun q i => hartCode q (4 * cluster + i) (if i = j then code else 0)) p :=
    List.foldl_ext _ _ _ fun q i hi => by rw [bitsOf_oneCode code hcode j hj i (List.mem_range.1 hi)]
  rw [hfields]
  interval_cases j <;> simp [List.range_succ, hartCode_none]

theorem doHartControl_oneCode {p : Pkg} {rq : Requester} {cluster code j : Nat} {v : W32} (hc : cluster < 12) (hj : j < 4)
    (hw : writeFate p rq (pgCc cluster + 1) 0x104 = .accepted) (hcode : code < 4)
    (hv : (v.setWidth 64 : W64) = BitVec.ofNat 64 (code * 2 ^ (8 * j))) :
    doHartControl rq cluster v p = hartCode p (4 * cluster + j) code := by
  rw [doHartControl, if_pos hc, ifWrites_accepted _ hw, hv, putHartControl_oneCode hcode hj]

/-! ## Lines that leave a hart: the harts stay (R358, R450, R469) -/

theorem memSend_harts (p : Pkg) (pa cls : Nat) (write : Bool) : (memSend p pa cls write).harts = p.harts := by
  unfold memSend
  split <;> rfl

theorem writeBack_harts (p : Pkg) (sl line : Nat) : (writeBack p sl line).harts = p.harts :=
  memSend_harts (addReg p (key (pgSl sl) 0x120) 1) (line * 64) 1 true

theorem slmFill_harts (p : Pkg) (sl line hint : Nat) (dirty : Bool) : (slmFill p sl line hint dirty).harts = p.harts := by
  unfold slmFill
  dsimp only
  split
  · exact ite_keeps Pkg.harts (writeBack_harts p sl line) rfl
  · have hfill (q : Pkg) (t : SMap Tag) (n : Nat) :
        (countPins (setFld (setTags q sl t) (key (pgSl sl) 0x104) 15 0 n) sl).harts = q.harts := rfl
    rw [hfill]
    split
    · exact ite_keeps Pkg.harts (writeBack_harts p sl _) rfl
    · rfl

theorem slmWrite_harts (p : Pkg) (sl pa : Nat) (stream : Bool) : (slmWrite p sl pa stream).harts = p.harts := by
  unfold slmWrite
  dsimp only
  split
  · rfl
  · exact ite_keeps Pkg.harts (memSend_harts _ _ _ _) (slmFill_harts _ _ _ _ _)

theorem sideTakes_harts (p : Pkg) (pa : Nat) : (sideTakes p pa).harts = p.harts := by
  unfold sideTakes
  split
  · exact slmWrite_harts _ _ _ _
  · rfl

theorem crossLine_harts (p : Pkg) (who pa : Nat) (read : Bool) : (crossLine p who pa read).harts = p.harts := by
  unfold crossLine
  split
  · unfold carryLine
    dsimp only
    rw [foldl_keeps Pkg.harts fun q h => ?_]
    · exact ite_keeps Pkg.harts rfl rfl
    · exact ite_keeps Pkg.harts rfl (ite_keeps Pkg.harts rfl rfl)
  · rfl

/-! ## Lines that leave a hart: a START that waits still waits (R443) -/

theorem starting_hartEvent (p : Pkg) (h code n : Nat) : (hart (hartEvent p h code n) h).starting = (hart p h).starting := by
  have hcount (q : Pkg) (i : Nat) (v : W64) : (hart (setCsr q h i v) h).starting = (hart q h).starting := by
    rw [setCsr, hart_setHart_self]
  exact foldl_keeps (fun q => (hart q h).starting) (fun q i => hcount q _ _) _ p

theorem starting_snooped (p : Pkg) (line h : Nat) : (hart (snooped p line h) h).starting = (hart p h).starting :=
  ite_keeps (fun q => (hart q h).starting) ((starting_hartEvent _ _ _ _).trans (starting_hartEvent _ _ _ _))
    (starting_hartEvent _ _ _ _)

theorem starting_loseResv (p : Pkg) (h line : Nat) : (hart (loseResv p h line) h).starting = (hart p h).starting := by
  unfold loseResv
  split
  · rw [hart_setHart_self]
  · rfl

theorem starting_giveUp (p : Pkg) (h line : Nat) : (hart (giveUp p h line) h).starting = (hart p h).starting := by
  have hsent (q : Pkg) : (hart (sideTakes (crossLine q (idHart h) (line * 64) false) (line * 64)) h).starting =
      (hart q h).starting := by
    rw [hart_congr (sideTakes_harts _ _), hart_congr (crossLine_harts _ _ _ _)]
  have hdir (q : Pkg) (d : DirLine) : hart (setDir q line d) h = hart q h := rfl
  rw [giveUp, hdir]
  exact ite_keeps (fun q => (hart q h).starting) ((hsent _).trans (starting_loseResv p h line)) (starting_loseResv p h line)

theorem starting_answerDelayed (p : Pkg) (h : Nat) : (hart (answerDelayed p h) h).starting = (hart p h).starting := by
  rw [answerDelayed]
  refine (foldl_keeps (fun q => (hart q h).starting)
    (fun q line => (starting_giveUp _ h line).trans (starting_snooped q line h)) _ _).trans ?_
  rw [hart_setHart_self]

/-! ## HELD (R441, R443) -/

theorem drainHart_nil {s : State} {h : Nat} (hsb : (hart s.pkg h).sb = []) : drainHart h s = s := by
  rw [drainHart, hsb]
  rfl

/-- The hart is HELD, or has started where a START waited; it keeps no reservation. -/
theorem doHeld_ends (h : Nat) (p : Pkg) :
    (hart (doHeld h p) h).holding = false ∧ (hart (doHeld h p) h).resv = none ∧
      hartState (doHeld h p) h = if (hart p h).starting = true then 1 else 0 := by
  have hgo : (hart ((hartLines p h).foldl (fun q l => giveUp q h l) (answerDelayed p h)) h).starting = (hart p h).starting :=
    (foldl_keeps (fun q => (hart q h).starting) (fun q l => starting_giveUp q h l) _ _).trans (starting_answerDelayed p h)
  rw [doHeld]
  dsimp only
  rw [hgo]
  split
  · rw [startFromRegs]
    obtain ⟨hholding, hresv⟩ := startHart_settles (setHart _ h _) h _ _
    refine ⟨hholding, hresv.trans ?_, hartState_startHart _ _ _ _⟩
    rw [hart_setHart_self]
  · rw [hart_setHart_self, hartState_setHart]
    exact ⟨rfl, rfl, hartState_setHartState _ _ (by decide)⟩

theorem execHartHeld_drained {s : State} {h : Nat} (hh : h < 48) (hhold : (hart s.pkg h).holding = true)
    (hsb : (hart s.pkg h).sb = []) : execHartHeld h s = .next (s.onPkg (doHeld h)) := by
  rw [execHartHeld, if_pos ⟨hh, hhold⟩, drainHart_nil hsb]
  dsimp only
  rw [hsb]
  rfl

end Sys2Proof.Machine
end

section
/-! Messages to IMSIC files and accesses of the APLIC (spec/12 R430 to R433), and the proof of O32. -/

namespace Sys2Proof.Machine

/-! ## Messages (R430 to R432) -/

theorem putMsg_eip (v : W64) (p : Pkg) : (putMsg false v p).int.eip =
    if bitsOf v 31 26 < 48 ∧ bitsOf v 10 0 ≠ 0 ∧ 1 ≤ bitsOf v 25 22 ∧ bitsOf v 25 22 ≤ 8 then
      SMap.set p.int.eip (eipKey (bitsOf v 31 26) (bitsOf v 25 22) (bitsOf v 10 0)) true else p.int.eip :=
  apply_ite (fun q : Pkg => q.int.eip) _ _ _

theorem putMsg_eip_mLevel (v : W64) (p : Pkg) : (putMsg true v p).int.eip =
    if bitsOf v 31 26 < 48 ∧ bitsOf v 10 0 ≠ 0 ∧ bitsOf v 25 22 = 0 then
      SMap.set p.int.eip (eipKey (bitsOf v 31 26) (bitsOf v 25 22) (bitsOf v 10 0)) true else p.int.eip :=
  apply_ite (fun q : Pkg => q.int.eip) _ _ _

/-! ## The APLIC's registers are its own (R433) -/

@[simp] theorem setAplic_regs (p : Pkg) (off : Nat) (v : W32) : (setAplic p off v).regs = p.regs := rfl
@[simp] theorem setEip_regs (p : Pkg) (h file id : Nat) : (setEip p h file id).regs = p.regs := rfl

theorem apForward_regs (p : Pkg) : (apForward p).regs = p.regs := by
  unfold apForward
  split
  · refine foldl_keeps Pkg.regs (fun q i => ?_) _ p
    exact ite_keeps Pkg.regs (ite_keeps Pkg.regs rfl rfl) rfl
  · rfl

theorem apSet_regs (p : Pkg) (i : Nat) (b : Bool) : (apSet p i b).regs = p.regs := ite_keeps Pkg.regs rfl rfl

theorem apEn_regs (p : Pkg) (i : Nat) (b : Bool) : (apEn p i b).regs = p.regs := ite_keeps Pkg.regs rfl rfl

theorem apEach_regs {f : Pkg → Nat → Pkg} (hf : ∀ q i, (f q i).regs = q.regs) (p : Pkg) (v : W32) :
    (apEach p v f).regs = p.regs :=
  foldl_keeps Pkg.regs (fun q i => ite_keeps Pkg.regs (hf q i) rfl) _ p

theorem apSourcecfg_regs (p : Pkg) (i : Nat) (v : W32) : (apSourcecfg p i v).regs = p.regs :=
  ite_keeps Pkg.regs rfl (ite_keeps Pkg.regs (apSet_regs _ _ _) rfl)

/-- A write of an APLIC register writes no register of a page. -/
theorem apWrite_regs (p : Pkg) (off : Nat) (v : W32) : (apWrite p off v).regs = p.regs := by
  have heach (f : Pkg → Nat → Bool → Pkg) (hf : ∀ q i b, (f q i b).regs = q.regs) (b : Bool) :
      (apEach p v fun q i => f q i b).regs = p.regs := apEach_regs (fun q i => hf q i b) p v
  rw [apWrite, apForward_regs]
  simp only [apply_ite Pkg.regs, setAplic_regs, setEip_regs, apSourcecfg_regs, apSet_regs, apEn_regs, heach apSet apSet_regs,
    heach apEn apEn_regs, ite_self]

/-! ## O32 -/

/-- Settles O32: HOLD and START by the one hart that their word names, HELD by whether a START waits, a message by its fields, the
APLIC by its index register, WFI by the state that it sets. -/
theorem hartsHoldStartAndTakeMessages : Obligations.HartsHoldStartAndTakeMessages := by
  unfold Obligations.HartsHoldStartAndTakeMessages
  refine ⟨?hold, ?held, ?start, ?message, ?aplicWrite, ?aplicRead, ?wfi⟩
  case hold =>
    intro s rq c j v hc hj hw hv hstate hhold
    refine ⟨_, rfl, ?_⟩
    rw [State.onPkg_pkg, doHartControl_oneCode hc hj hw (by decide : 1 < 4) (by rw [hv, one_mul]), hartCode_hold hstate hhold,
      hart_setHart_self, hartState_setHart]
    exact ⟨rfl, rfl, rfl, hstate⟩
  case held =>
    intro s h hh hhold hsb
    obtain ⟨hholding, hresv, hstate⟩ := doHeld_ends h s.pkg
    exact ⟨_, execHartHeld_drained hh hhold hsb, hholding, hresv, rfl, hstate⟩
  case start =>
    rintro s rq c j h v hc hj rfl hw hv hstate hhold
    have hcluster : (4 * c + j) / 4 = c := by omega
    refine ⟨_, rfl, rfl, ?_⟩
    rw [State.onPkg_pkg, doHartControl_oneCode hc hj hw (by decide) hv, hartCode_start hstate hhold, startFromRegs, hcluster]
    obtain ⟨hmode, hpc, ha0, ha1⟩ := startHart_enters s.pkg (4 * c + j) (fld s.pkg (key (pgCc c + 1) 0x108) 51 2 * 4)
      (reg s.pkg (key (pgCc c + 1) 0x110))
    exact ⟨hartState_startHart _ _ _ _, hmode, hpc, ha0, ha1, csr_startHart (by decide) _ _ _ _,
      csr_startHart (by decide) _ _ _ _, csr_startHart (by decide) _ _ _ _, csr_startHart (by decide) _ _ _ _,
      csr_startHart (by decide) _ _ _ _, mie_startHart _ _ _ _⟩
  case message =>
    rintro s rq c h file n v hc rfl rfl rfl
    refine ⟨fun hw => ⟨_, rfl, rfl, ?_⟩, fun hw => ⟨_, rfl, rfl, ?_⟩⟩
    · rw [State.onPkg_pkg, doCcMsgSend, if_pos hc, ifWrites_accepted _ hw, putMsg_eip]
    · rw [State.onPkg_pkg, doCcMsgSendM, if_pos hc, ifWrites_accepted _ hw, putMsg_eip_mLevel]
  case aplicWrite =>
    intro s rq v hw
    refine ⟨_, rfl, rfl, ?_⟩
    rw [State.onPkg_pkg, doAplicAccess, if_pos rfl, ifWrites_accepted _ hw]
    exact ⟨rfl, apWrite_regs _ _ _⟩
  case aplicRead =>
    intro s rq v hpresent hready
    refine ⟨_, rfl, rfl, ?_⟩
    rw [State.onPkg_pkg, doAplicAccess, if_neg Bool.false_ne_true, if_pos hpresent, if_pos hready]
    rfl
  case wfi =>
    intro s h hruns
    refine ⟨_, rfl, ?_⟩
    rw [State.onPkg_pkg, if_pos hruns]
    exact ⟨hartState_setHartState _ _ (by decide), hart_setHartState _ _ _ _, rfl⟩

end Sys2Proof.Machine
end

section
/-! What every command keeps of the machine (spec/01, spec/11, spec/18): the queue, and the canonical form of memory. One lemma for
each operation that can store, up to the commands of the homes, the host link and the router. -/

namespace Sys2Proof.Machine

/-- From s to t the waiting commands stay, and memory keeps its canonical form. -/
def KeepsForm (s t : State) : Prop := t.pending = s.pending ∧ (s.mem.wf = true → t.mem.wf = true)

/-- A command's outcome is a next state that keeps the queue and the canonical form. -/
def Answers (s : State) (o : Out) : Prop := ∃ t, o = .next t ∧ KeepsForm s t

theorem KeepsForm.refl (s : State) : KeepsForm s s := ⟨rfl, id⟩

theorem KeepsForm.trans {s t u : State} (h : KeepsForm s t) (g : KeepsForm t u) : KeepsForm s u :=
  ⟨g.1.trans h.1, fun hs => g.2 (h.2 hs)⟩

theorem keepsForm_onPkg (s : State) (f : Pkg → Pkg) : KeepsForm s (s.onPkg f) := ⟨rfl, id⟩

theorem keepsForm_withPkg (s : State) (q : Pkg) : KeepsForm s { s with pkg := q } := ⟨rfl, id⟩

theorem keepsForm_withMem {s : State} {m : Memory} (h : s.mem.wf = true → m.wf = true) (q : Pkg) :
    KeepsForm s { s with mem := m, pkg := q } := ⟨rfl, h⟩

theorem KeepsForm.onPkg {s t : State} (h : KeepsForm s t) (f : Pkg → Pkg) : KeepsForm s (t.onPkg f) :=
  h.trans (keepsForm_onPkg t f)

theorem KeepsForm.foldl {α : Type} {f : State → α → State} (hf : ∀ s a, KeepsForm s (f s a)) (l : List α) (s : State) :
    KeepsForm s (l.foldl f s) := by
  induction l generalizing s with
  | nil => exact .refl s
  | cons a t ih => exact (hf s a).trans (ih (f s a))

theorem KeepsForm.answers {s t : State} (h : KeepsForm s t) : Answers s (.next t) := ⟨t, rfl, h⟩

theorem answers_onPkg (s : State) (f : Pkg → Pkg) : Answers s (.next (s.onPkg f)) := (keepsForm_onPkg s f).answers

theorem answers_self (s : State) : Answers s (.next s) := (KeepsForm.refl s).answers

theorem answers_withPkg (s : State) (q : Pkg) : Answers s (.next { s with pkg := q }) := (keepsForm_withPkg s q).answers

theorem answers_withMem {s : State} {m : Memory} (h : s.mem.wf = true → m.wf = true) (q : Pkg) :
    Answers s (.next { s with mem := m, pkg := q }) := (keepsForm_withMem h q).answers

/-! ## Memory operations that store several pieces -/

theorem storeSlots_wf (p : Pkg) (w : W64) (items : List (Nat × Item)) {m : Memory} (at' : Nat) (h : m.wf = true) :
    (storeSlots p m w at' items).wf = true := by
  induction items generalizing m at' with
  | nil => exact h
  | cons i t ih =>
    refine ih _ ?_
    split
    · exact h
    · exact Memory.storeLine_wf _ _ _ h

theorem commitMem_wf (p : Pkg) (ls : List PLine) {m : Memory} (h : m.wf = true) : (commitMem p ls m).wf = true :=
  foldl_wf _ (fun m l hm => by split <;> [exact Memory.storeLine_wf _ _ _ hm; exact hm]) ls h

theorem writeBytes_wf (a : Nat) (data : Item) (mask : W64) {m : Memory} (h : m.wf = true) :
    (writeBytes m a data mask).wf = true := by
  unfold writeBytes
  split
  · exact Memory.storeLine_wf _ _ _ h
  · exact foldl_wf _ (fun m i hm => by split <;> [exact Memory.setByte_wf _ _ hm; exact hm]) _ h

theorem maskBytes_wf (msg : Msg) (pa : Nat) {m : Memory} (h : m.wf = true) : (maskBytes msg pa m).wf = true := by
  unfold maskBytes
  have hw := foldl_wf (fun (x : Memory) i => if msg.arg.testBit i then
    x.setByte (pa / 8 * 8 + i) (BitVec.ofNat 8 (msg.payload.toNat / 2 ^ (8 * i))) else x)
    (fun m i hm => by split <;> [exact Memory.setByte_wf _ _ hm; exact hm]) (List.range 8) h
  dsimp only
  split
  · exact Memory.setPoison_wf _ hw
  · exact hw

theorem sealHandoff_wf {m : Memory} (h : m.wf = true) : (sealHandoff m).wf = true := Memory.write_wf _ _ _ h

theorem writeEntries_wf (p : Pkg) (es : List Nat) {m : Memory} (h : m.wf = true) : (writeEntries p m es).1.wf = true := by
  unfold writeEntries
  suffices ∀ x : Memory × Pkg, x.1.wf = true → (es.foldl _ x).1.wf = true from this (m, p) h
  induction es with
  | nil => exact fun _ hx => hx
  | cons e t ih => exact fun x hx => ih _ (Memory.write_wf _ _ _ hx)

theorem switchEntries_wf (l : List (Xlate × Nat)) {m : Memory} (p : Pkg) (h : m.wf = true) :
    (switchEntries l m p).2.1.wf = true := by
  induction l generalizing m p with
  | nil => exact h
  | cons x t ih =>
    unfold switchEntries
    split
    · exact ih _ (Memory.write_wf _ _ _ h)
    · exact h

theorem storePieces_wf (c : Cmd) (n : Nat) {m : Memory} (p : Pkg) (va v : Nat) (h : m.wf = true) :
    (storePieces p m c va v n).2.wf = true := by
  induction n generalizing m p va v with
  | zero => exact h
  | succ k ih =>
    unfold storePieces
    split
    · split
      · exact ih _ _ _ (Memory.write_wf _ _ _ h)
      · exact ih _ _ _ h
    · exact ih _ _ _ h

theorem storeRecs_wf (c : Cmd) (l : List Rec) {m : Memory} (p : Pkg) (j : Nat) (h : m.wf = true) :
    (storeRecs p m c j l).2.wf = true := by
  induction l generalizing m p j with
  | nil => exact h
  | cons r t ih => exact ih _ _ (storePieces_wf c 5 p _ _ h)

/-! ## Translations (spec/14) -/

theorem entryMark_wf {p q : Pkg} {m m1 : Memory} {who a : Nat} {old new : W64} (he : entryMark p m who a old new = (some m1, q))
    (h : m.wf = true) : m1.wf = true := by
  unfold entryMark at he
  split at he
  · cases he; exact h
  · split at he
    · cases he
    · cases he; exact Memory.write_wf _ _ _ h

/-- A walk keeps the canonical form where what it does at the level below keeps it. -/
theorem walkFrom_level_wf {ctx kind cls : Nat} {write : Bool} {va level : Nat} {m : Memory} (p : Pkg) (table : Nat)
    (h : m.wf = true)
    (hbelow : ∀ l, level = l + 1 → ∀ q t, (walkFrom q m ctx kind cls write va l t).2.1.wf = true) :
    (walkFrom p m ctx kind cls write va level table).2.1.wf = true := by
  rw [walkFrom.eq_def]
  split
  · exact h
  split
  · exact h
  dsimp only
  split
  · exact h
  · exact h
  split
  · exact h
  split
  · exact h
  split
  · split
    · split
      next hm => exact entryMark_wf hm h
      · exact h
    · exact h
  · split
    · exact h
    · exact hbelow _ rfl _ _

theorem walkFrom_wf (ctx kind cls : Nat) (write : Bool) (va level : Nat) {m : Memory} (p : Pkg) (table : Nat) (h : m.wf = true) :
    (walkFrom p m ctx kind cls write va level table).2.1.wf = true := by
  induction level generalizing p table with
  | zero => exact walkFrom_level_wf p table h fun _ hl => absurd hl (by simp)
  | succ l ih => exact walkFrom_level_wf p table h fun k hk q t => by cases hk; exact ih q t

theorem walkPage_wf (p : Pkg) (ctx kind cls : Nat) (write : Bool) (va : Nat) {m : Memory} (h : m.wf = true) :
    (walkPage p m ctx kind cls write va).2.1.wf = true := by
  unfold walkPage
  extract_lets root mode top canon
  split
  · exact h
  split
  · exact h
  · exact walkFrom_wf _ _ _ _ _ _ _ _ h

theorem pageOf_wf (p : Pkg) (ctx kind cls : Nat) (write : Bool) (va : Nat) {m : Memory} (h : m.wf = true) :
    (pageOf p m ctx kind cls write va).2.1.wf = true := by
  unfold pageOf
  dsimp only
  split
  · exact walkPage_wf _ _ _ _ _ _ h
  · exact h

theorem trRange_wf (id ctx operand kind : Nat) (write : Bool) (stop fuel va : Nat) (a : TrAcc) (h : a.mem.wf = true) :
    (trRange id ctx operand kind write stop fuel va a).mem.wf = true := by
  induction fuel generalizing va a with
  | zero => exact h
  | succ k ih =>
    have hpage := pageOf_wf a.pkg ctx kind (dPrio (cmd a.pkg id).desc) write va h
    unfold trRange
    split
    · exact h
    split
    · exact ih _ _ h
    dsimp only
    split
    · exact ih _ _ hpage
    · exact ih _ _ hpage
    · exact hpage
    · exact hpage

/-- A fold of steps that each keep the canonical form of the memory translated so far keeps it. -/
theorem foldl_trAcc_wf {α : Type} {f : TrAcc → α → TrAcc} (hf : ∀ a x, a.mem.wf = true → (f a x).mem.wf = true) (l : List α)
    {a : TrAcc} (h : a.mem.wf = true) : (l.foldl f a).mem.wf = true := by
  induction l generalizing a with
  | nil => exact h
  | cons x t ih => exact ih (hf a x h)

theorem trCmd_wf (p : Pkg) (id : Nat) {m : Memory} (h : m.wf = true) : (trCmd p m id).mem.wf = true := by
  unfold trCmd
  dsimp only
  split
  · refine foldl_trAcc_wf (fun a i ha => ?_) _ h
    split
    · exact ha
    · exact trRange_wf _ _ _ _ _ _ _ _ _ ha
  · refine foldl_trAcc_wf (fun a x ha => ?_) _ h
    split
    · exact trRange_wf _ _ _ _ _ _ _ _ _ ha
    · exact ha

theorem tryAccept_wf (id : Nat) (a : TrAcc) (h : a.mem.wf = true) : (tryAccept id a).1.wf = true := by
  unfold tryAccept
  dsimp only
  split
  · exact h
  split
  · exact h
  split
  · exact h
  split
  · exact h
  split
  · exact h
  split
  · exact h
  · exact writeEntries_wf _ _ h

theorem retranslated_wf (id : Nat) (a : TrAcc) (h : a.mem.wf = true) : (retranslated id a).1.wf = true := by
  unfold retranslated
  dsimp only
  split <;> exact writeEntries_wf _ _ h

theorem faultResume_keepsForm (value : W32) (s : State) : KeepsForm s (faultResume value s) := by
  unfold faultResume
  dsimp only
  split
  · exact .refl s
  next w _ =>
    have hwalk := walkPage_wf (setXl s.pkg { s.pkg.xl with waits := s.pkg.xl.waits.erase w }) (cmd s.pkg w.id).ctx
      (accessKind (cmd s.pkg w.id) w.operand) (dPrio (cmd s.pkg w.id).desc) (dOperand (cmd s.pkg w.id).desc w.operand).write
      (w.page * 4096) (m := s.mem)
    split
    · split
      all_goals
        next hw =>
          rw [hw] at hwalk
          exact keepsForm_withMem hwalk _
    · exact keepsForm_withPkg _ _

/-! ## Homes (spec/10, spec/13) -/

theorem atomAt_keepsForm (pa op : Nat) (value : W64) (who pg : Nat) (req : Option HomeReq) (s : State) :
    KeepsForm s (atomAt pa op value who pg req s).2 := by
  unfold atomAt
  dsimp only
  split
  · exact .refl s
  generalize (if req.isSome = true then fate s.pkg pa else fateFor s.pkg who pa false) = f
  cases f with
  | waits => exact .refl s
  | remote => exact .refl s
  | decode => exact keepsForm_withPkg _ _
  | served =>
    dsimp only
    split
    · exact keepsForm_withPkg _ _
    split
    · exact keepsForm_withPkg _ _
    · exact keepsForm_withMem (Memory.write_wf _ _ _) _

theorem raddAt_keepsForm (pa : Nat) (record : Rec) (who pg : Nat) (s : State) : KeepsForm s (raddAt pa record who pg s).2 := by
  unfold raddAt
  dsimp only
  split
  · exact .refl s
  split
  · split
    · exact keepsForm_withPkg _ _
    split
    · exact keepsForm_withPkg _ _
    · exact keepsForm_withMem (Memory.write_wf _ _ _) _
  · exact keepsForm_withPkg _ _
  · exact keepsForm_withPkg _ _
  · exact .refl s
  · exact .refl s

theorem atomState_keepsForm (pa op : Nat) (value : W64) (s : State) : KeepsForm s (atomState pa op value s) := by
  have h := atomAt_keepsForm pa op value 0 (homePage pa) (some (.atom op value)) s
  unfold atomState
  split
  next hr =>
    rw [hr] at h
    exact h.onPkg _
  next hr =>
    rw [hr] at h
    exact h

theorem serveReq_keepsForm (pa : Nat) (r : HomeReq) (s : State) : KeepsForm s (serveReq pa r s) := by
  unfold serveReq
  split
  · exact keepsForm_onPkg _ _
  · cases r with
    | atom op v => exact atomState_keepsForm pa op v s
    | _ => exact keepsForm_onPkg _ _

theorem admitAll_keepsForm (home fuel : Nat) (s : State) : KeepsForm s (admitAll home fuel s) := by
  induction fuel generalizing s with
  | zero => exact .refl s
  | succ k ih =>
    unfold admitAll
    split
    · exact .refl s
    split
    · exact .refl s
    split
    · exact .refl s
    · exact ((keepsForm_onPkg _ _).trans (serveReq_keepsForm _ _ _)).trans (ih _)

theorem request_keepsForm (who port pa : Nat) (r : HomeReq) (s : State) : KeepsForm s (request who port pa r s) := by
  unfold request
  extract_lets home clear t
  split
  · exact (keepsForm_onPkg _ _).trans (admitAll_keepsForm _ _ _)
  · exact .refl s

theorem hartRequest_keepsForm (h pa : Nat) (r : HomeReq) (s : State) : KeepsForm s (hartRequest h pa r s) := by
  unfold hartRequest
  split
  · split
    · exact request_keepsForm _ _ _ _ _
    · exact keepsForm_onPkg _ _
    · exact .refl s
  · exact .refl s

theorem biAnswered_keepsForm (pa : Nat) (w : BiWait) (s : State) : KeepsForm s (biAnswered pa w s) :=
  (((keepsForm_onPkg s _).trans (KeepsForm.foldl (fun t r => serveReq_keepsForm _ r t) w.reqs _)).onPkg biNext).trans
    (admitAll_keepsForm _ _ _)

theorem commitState_keepsForm (n mu home : Nat) (s : State) : KeepsForm s (commitState n mu home s) := by
  unfold commitState
  split
  · exact keepsForm_withMem (commitMem_wf _ _) _
  · exact keepsForm_onPkg _ _

theorem hostWrite_keepsForm (hpa : Nat) (data : Item) (mask : W64) (s : State) : KeepsForm s (hostWrite hpa data mask s) := by
  unfold hostWrite
  split
  · exact .refl s
  split
  · exact keepsForm_withPkg _ _
  split
  · exact keepsForm_withMem (writeBytes_wf _ _ _) _
  · exact keepsForm_withPkg _ _
  · exact .refl s

/-! ## Replicas, remote accesses and reports (spec/14, spec/16, spec/18) -/

theorem repairFails_keepsForm (pa j cause : Nat) (s : State) : KeepsForm s (repairFails pa j cause s) :=
  keepsForm_withMem (Memory.setPoison_wf _) _

theorem startRepair_keepsForm (pa i j : Nat) (s : State) : KeepsForm s (startRepair pa i j s) := by
  unfold startRepair
  dsimp only
  split
  · split
    · exact keepsForm_withPkg _ _
    · exact (keepsForm_withPkg _ _).trans (repairFails_keepsForm _ _ _ _)
  · exact keepsForm_withPkg _ _

theorem replicaRepair_keepsForm (pa : Nat) (s : State) : KeepsForm s (replicaRepair pa s) := by
  unfold replicaRepair
  split
  · split
    · exact .refl s
    · exact startRepair_keepsForm _ _ _ _
  · exact .refl s

theorem repairEnds_keepsForm (pa : Nat) (data : Item) (cause : Nat) (s : State) : KeepsForm s (repairEnds pa data cause s) := by
  unfold repairEnds
  split
  · split
    · exact keepsForm_withMem (Memory.storeLine_wf _ _ _) _
    · exact repairFails_keepsForm _ _ _ _
  · exact .refl s

theorem replicaCopy_keepsForm (pa : Nat) (data : Item) (cause : Nat) (s : State) : KeepsForm s (replicaCopy pa data cause s) := by
  unfold replicaCopy
  split
  · split
    · exact (keepsForm_withPkg _ _).trans (repairEnds_keepsForm _ _ _ _)
    dsimp only
    split
    · exact .refl s
    split
    · exact repairEnds_keepsForm _ _ _ _
    · exact repairEnds_keepsForm _ _ _ _
  · exact .refl s

theorem channelFence_keepsForm (stack chan : Nat) (s : State) : KeepsForm s (channelFence stack chan s) :=
  keepsForm_withMem (Memory.fence_wf _) _

theorem answered_keepsForm (k : Nat) (r : Remote) (data : Item) (poison : Bool) (s : State) :
    KeepsForm s (answered k r data poison s) := by
  unfold answered
  split
  · exact keepsForm_onPkg _ _
  · exact keepsForm_onPkg _ _
  · exact keepsForm_onPkg _ _
  · exact keepsForm_onPkg _ _
  · exact replicaCopy_keepsForm _ _ _ _
  · exact .refl s

theorem doAnswer_keepsForm (m : Msg) (s : State) : KeepsForm s (doAnswer m s) := by
  unfold doAnswer
  dsimp only
  split
  · split
    · have h (r : Remote) (t : State) : KeepsForm t (answered (remoteKey m.src m.tag) r m.payload m.poison t) :=
        answered_keepsForm _ _ _ _ _
      split
      · split
        · exact (((keepsForm_onPkg _ _).onPkg _).trans (h _ _)).onPkg _
        · exact ((keepsForm_onPkg _ _).onPkg _).trans (h _ _)
      · exact keepsForm_onPkg _ _
    · exact keepsForm_onPkg _ _
  · exact .refl s

theorem refusedAt_keepsForm (k : Nat) (r : Remote) (cause : Nat) (s : State) : KeepsForm s (refusedAt k r cause s) := by
  unfold refusedAt
  dsimp only
  split
  case h_7 => exact (keepsForm_onPkg _ _).trans (replicaCopy_keepsForm _ _ _ _)
  all_goals exact (keepsForm_onPkg _ _).onPkg _

theorem reportLands_keepsForm (i : Item) (s : State) : KeepsForm s (reportLands i s) := by
  unfold reportLands
  dsimp only
  split
  · exact refusedAt_keepsForm _ _ _ _
  · exact .refl _

theorem recordLands_keepsForm (i : Item) (s : State) : KeepsForm s (recordLands i s) := by
  unfold recordLands
  dsimp only
  split
  · exact (keepsForm_onPkg s fun p => mailboxPut p i).trans (reportLands_keepsForm _ _)
  · exact keepsForm_onPkg _ _

theorem landWrite_keepsForm (m : Msg) (pa : Nat) (whole : Bool) {f : Memory → Memory}
    (hf : ∀ x : Memory, x.wf = true → (f x).wf = true) (s : State) : KeepsForm s (landWrite m pa whole f s) := by
  unfold landWrite
  split
  · split
    · exact keepsForm_withPkg _ _
    · exact keepsForm_withMem (hf _) _
  · exact keepsForm_withPkg _ _
  · exact .refl s

theorem writeRecPart_keepsForm (m : Msg) (pa n v : Nat) (s : State) : KeepsForm s (writeRecPart m pa n v s) := by
  unfold writeRecPart
  split
  · exact keepsForm_withPkg _ _
  · exact keepsForm_withMem (Memory.write_wf _ _ _) _

theorem landRecs_keepsForm (m : Msg) (pa : Nat) (l : List WireRec) (s : State) : KeepsForm s (landRecs m pa l s) := by
  induction l generalizing pa s with
  | nil => exact .refl s
  | cons w t ih =>
    refine KeepsForm.trans ?_ (ih _ _)
    split
    · exact raddAt_keepsForm _ _ _ _ _
    · exact (writeRecPart_keepsForm _ _ _ _ _).trans (writeRecPart_keepsForm _ _ _ _ _)

theorem ownSum_keepsForm (id : Nat) (s : State) : KeepsForm s (ownSum id s) := by
  unfold ownSum
  dsimp only
  split
  · split
    · exact keepsForm_withPkg _ _
    · exact keepsForm_withPkg _ _
    · exact keepsForm_withMem (storeRecs_wf _ _ _ _) _
  · exact keepsForm_withPkg _ _

end Sys2Proof.Machine
end

section
/-! What register writes, harts, the host link, error recovery, safe hold and the sequencer keep of the queue and of memory's
canonical form (spec/04, spec/12, spec/15, spec/17 to spec/19), and the proofs of O1 to O5. -/

namespace Sys2Proof.Machine

/-! ## Register writes and BAR0 (spec/04, spec/15) -/

theorem writeOne_keepsForm (rq : Requester) (off k width : Nat) (v : W64) (s : State) :
    KeepsForm s (writeOne rq off k width v s) := by
  unfold writeOne
  dsimp only
  split
  · exact .refl s
  split
  · exact keepsForm_onPkg _ _
  split
  · exact keepsForm_onPkg _ _
  split
  · split
    · exact faultResume_keepsForm _ _
    · exact keepsForm_onPkg _ _
  split
  · exact keepsForm_onPkg _ _
  split
  · exact keepsForm_onPkg _ _
  · exact keepsForm_onPkg _ _

theorem writeHalf_keepsForm (rq : Requester) (off : Nat) (v : W32) (s : State) : KeepsForm s (writeHalf rq off v s) := by
  unfold writeHalf
  split
  · split
    · exact writeOne_keepsForm _ _ _ _ _ _
    · exact writeOne_keepsForm _ _ _ _ _ _
  · exact keepsForm_onPkg _ _

theorem writeBoth_keepsForm (rq : Requester) (off : Nat) (v : W64) (s : State) : KeepsForm s (writeBoth rq off v s) := by
  have half := writeHalf_keepsForm rq
  unfold writeBoth
  extract_lets lo hi fb
  split
  · exact half _ _ _
  split
  · split
    · have first : KeepsForm s (if fb off = true then writeHalf rq off lo s else s) := by
        split
        · exact half _ _ _
        · exact .refl s
      split
      · exact first.trans (half _ _ _)
      · exact first
    · exact keepsForm_onPkg _ _
  · exact (half _ _ _).trans (half _ _ _)

theorem writeAccess_keepsForm (rq : Requester) (off bytes : Nat) (v : W64) (s : State) :
    KeepsForm s (writeAccess rq off bytes v s) := by
  unfold writeAccess
  extract_lets wide
  split
  · exact writeOne_keepsForm _ _ _ _ _ _
  split
  · exact writeBoth_keepsForm _ _ _ _
  · exact writeHalf_keepsForm _ _ _ _

theorem bar0Write_keepsForm (off bytes : Nat) (v : W64) (s : State) : KeepsForm s (bar0Write off bytes v s) := by
  unfold bar0Write
  split
  · exact keepsForm_onPkg _ _
  split
  · exact writeAccess_keepsForm _ _ _ _ _
  · exact keepsForm_onPkg _ _

theorem bar0Access_keepsForm (isWrite : Bool) (off bytes : Nat) (v : W64) (s : State) :
    KeepsForm s (bar0Access isWrite off bytes v s) := by
  unfold bar0Access
  extract_lets behind
  split
  · exact .refl s
  split
  · split
    · exact keepsForm_onPkg _ _
    · exact bar0Write_keepsForm _ _ _ _
  · exact keepsForm_onPkg _ _

theorem serveHeld_keepsForm (s : State) (c : Instr) : KeepsForm s (serveHeld s c) := by
  unfold serveHeld
  split
  · exact keepsForm_onPkg _ _
  · exact hostWrite_keepsForm _ _ _ _
  · exact keepsForm_onPkg _ _
  · exact bar0Write_keepsForm _ _ _ _
  · exact .refl s

theorem finishMove_keepsForm (s : State) : KeepsForm s (finishMove s) :=
  ((keepsForm_withPkg s _).trans (KeepsForm.foldl serveHeld_keepsForm _ _)).onPkg _

theorem inbound_keepsForm (isWrite : Bool) (addr bytes : Nat) (data : Item) (s : State) :
    KeepsForm s (inbound isWrite addr bytes data s) := by
  unfold inbound
  dsimp only
  split
  · exact .refl s
  split
  · split
    · exact .refl s
    split
    · exact keepsForm_withMem (Memory.store_wf _ _ _) _
    · exact keepsForm_withPkg _ _
  split
  · exact keepsForm_withPkg _ _
  · exact keepsForm_withPkg _ _

/-! ## Harts: walks (spec/12, spec/14) -/

/-- A translation of table addresses keeps the canonical form. -/
def TrKeeps (tr : Pkg → Memory → Nat → Bool → CoreRes × Memory × Pkg) : Prop :=
  ∀ p m a w, m.wf = true → (tr p m a w).2.1.wf = true

/-- A stage of a walk keeps the canonical form where what it does at the level below keeps it. -/
theorem stageWalk_level_wf {c : CoreAcc} {tr : Pkg → Memory → Nat → Bool → CoreRes × Memory × Pkg} {permits : W64 → Bool}
    {cause : Nat} {root2 : Bool} {top va level : Nat} (table : Nat) (p : Pkg) {m : Memory} (htr : TrKeeps tr) (h : m.wf = true)
    (hbelow : ∀ l, level = l + 1 → ∀ t q m1, Memory.wf m1 = true →
      (stageWalk c tr permits cause root2 top va l t q m1).2.1.wf = true) :
    (stageWalk c tr permits cause root2 top va level table p m).2.1.wf = true := by
  have hat := htr p m (entryAt root2 top level table va) false h
  rw [stageWalk.eq_def]
  dsimp only
  split
  next hr => rwa [hr] at hat
  next hr => rwa [hr] at hat
  next a _ m1 q hr =>
    rw [hr] at hat
    split
    · exact hat
    split
    · exact hat
    · exact hat
    next e q1 _ =>
      have hmark := htr q1 m1 (entryAt root2 top level table va) true hat
      split
      · exact hat
      split
      · split
        · exact hat
        split
        · exact hat
        split
        next hw =>
          rw [hw] at hmark
          split
          next he => exact entryMark_wf he hmark
          · exact hmark
        next hw => rwa [hw] at hmark
        next hw => rwa [hw] at hmark
      split
      · exact hat
      · exact hbelow _ rfl _ _ _ hat

theorem stageWalk_wf (c : CoreAcc) {tr : Pkg → Memory → Nat → Bool → CoreRes × Memory × Pkg} (permits : W64 → Bool) (cause : Nat)
    (root2 : Bool) (top va level table : Nat) (p : Pkg) {m : Memory} (htr : TrKeeps tr) (h : m.wf = true) :
    (stageWalk c tr permits cause root2 top va level table p m).2.1.wf = true := by
  induction level generalizing table p m with
  | zero => exact stageWalk_level_wf table p htr h fun _ hl => absurd hl (by simp)
  | succ l ih => exact stageWalk_level_wf table p htr h fun k hk t q m1 hm => by cases hk; exact ih t q hm

theorem tableAt_keeps (c : CoreAcc) : TrKeeps (tableAt c) := fun p m a w h => by
  unfold tableAt
  split <;> exact h

theorem guestXlate_keeps (c : CoreAcc) : TrKeeps (guestXlate c) := fun p m gpa w h => by
  unfold guestXlate
  extract_lets root mxr permits
  split
  · exact h
  split
  · exact h
  have hstage := stageWalk_wf { c with write := w } permits (guestCause c.write) true (rootTop root) gpa (rootTop root)
    (rootTable root / 16384 * 16384) p (tableAt_keeps c) h
  split
  all_goals
    next hr => rwa [hr] at hstage

theorem walkStages_wf (c : CoreAcc) (root : W64) (va : Nat) (p : Pkg) {m : Memory} (h : m.wf = true) :
    (walkStages c root va p m).2.1.wf = true := by
  unfold walkStages
  extract_lets p0 tr
  have htr : TrKeeps tr := by
    unfold tr
    split
    · exact guestXlate_keeps c
    · exact tableAt_keeps c
  have hstage := stageWalk_wf c (hartPermits p0 c) (pageCause c.write) false (rootTop root) va (rootTop root) (rootTable root) p0
    htr h
  split
  next e l m1 q hr =>
    rw [hr] at hstage
    have hguest := guestXlate_keeps c q m1 (leafPa e l va) c.write hstage
    split
    · split
      next hg => rwa [hg] at hguest
      · exact hguest
    · exact hstage
  next hr => rwa [hr] at hstage
  next hr => rwa [hr] at hstage

theorem coreXlate_wf (c : CoreAcc) (va : Nat) (p : Pkg) {m : Memory} (h : m.wf = true) :
    (coreXlate c va p m).2.1.wf = true := by
  unfold coreXlate
  extract_lets root
  split
  · exact h
  split
  · split
    · exact guestXlate_keeps _ _ _ _ _ h
    · exact h
  split
  · exact h
  split
  · split
    · exact h
    · exact walkStages_wf _ _ _ _ h
  · exact walkStages_wf _ _ _ _ h

theorem xlatePieces_wf (c : CoreAcc) (l : List (Nat × Nat × Nat)) (p : Pkg) {m : Memory} (h : m.wf = true) :
    (xlatePieces c l p m).2.1.wf = true := by
  induction l generalizing p m with
  | nil => exact h
  | cons x t ih =>
    have hx := coreXlate_wf c x.1 p h
    unfold xlatePieces
    split
    next hr => rwa [hr] at hx
    next hr => rwa [hr] at hx
    next q hr =>
      rw [hr] at hx
      have ht := ih q hx
      split
      · exact hx
      split
      next hr2 => rwa [hr2] at ht
      · exact ht

/-- What a translation of pieces leaves, as a state. -/
theorem xlatePieces_keepsForm {c : CoreAcc} {l : List (Nat × Nat × Nat)} {s : State} {p : Pkg} {r : PiecesRes} {m : Memory}
    {q : Pkg} (h : xlatePieces c l p s.mem = (r, m, q)) (q' : Pkg) : KeepsForm s { s with mem := m, pkg := q' } :=
  keepsForm_withMem (fun hs => by have := xlatePieces_wf c l p hs; rwa [h] at this) q'

/-! ## Harts: stores, loads and atomics (spec/09, spec/12) -/

theorem endAccess_keepsForm {s : State} {h : Nat} {r : AccEnd × State} (hr : KeepsForm s r.2) : KeepsForm s (endAccess h r) := by
  unfold endAccess
  split
  · exact hr.onPkg _
  · exact hr

theorem storeLands_keepsForm (h : Nat) (e : StoreEnt) (mask : Nat) (rest : List StoreEnt) (s : State) :
    KeepsForm s (storeLands h e mask rest s).2 := by
  have hstore (q : Pkg) := keepsForm_withMem (s := s) (writeBytes_wf (e.pa * 64) e.data (BitVec.ofNat 64 mask)) q
  unfold storeLands
  dsimp only
  split
  · exact hstore _
  split
  · split
    · split
      · exact keepsForm_onPkg _ _
      · exact hstore _
    split
    · exact hstore _
    · exact keepsForm_withPkg _ _
  · exact keepsForm_onPkg _ _
  · exact .refl s

theorem drainEnt_keepsForm (h i words : Nat) (s : State) : KeepsForm s (drainEnt h i words s).2 := by
  unfold drainEnt
  dsimp only
  split
  · exact .refl s
  split
  · exact .refl s
  · exact storeLands_keepsForm _ _ _ _ _

theorem drainAll_keepsForm (fuel h : Nat) (s : State) : KeepsForm s (drainAll fuel h s) := by
  induction fuel generalizing s with
  | zero => exact .refl s
  | succ f ih =>
    have hd := drainEnt_keepsForm h 0 255 s
    unfold drainAll
    split
    next hr =>
      rw [hr] at hd
      exact hd.trans (ih _)
    next hr => rwa [hr] at hd

theorem drainHart_keepsForm (h : Nat) (s : State) : KeepsForm s (drainHart h s) := drainAll_keepsForm _ _ _

theorem loadOnce_keepsForm (h : Nat) (ctl : CoreCtl) (va : W64) (size : Nat) (who : RemoteFor) (sink : Nat → Pkg → Pkg)
    (s : State) : KeepsForm s (loadOnce h ctl va size who sink s).2 := by
  unfold loadOnce
  dsimp only
  split
  next hr => exact xlatePieces_keepsForm hr _
  next hr => exact xlatePieces_keepsForm hr _
  next hr => split <;> exact xlatePieces_keepsForm hr _

theorem storeOnce_keepsForm (h : Nat) (ctl : CoreCtl) (va : W64) (size value : Nat) (s : State) :
    KeepsForm s (storeOnce h ctl va size value s).2 := by
  unfold storeOnce
  dsimp only
  split
  next hr => exact xlatePieces_keepsForm hr _
  next hr => exact xlatePieces_keepsForm hr _
  next hr =>
    split
    · exact xlatePieces_keepsForm hr _
    · dsimp only
      split
      · exact (xlatePieces_keepsForm hr _).trans (writeAccess_keepsForm _ _ _ _ _)
      · exact xlatePieces_keepsForm hr _
    · exact xlatePieces_keepsForm hr _
    · exact xlatePieces_keepsForm hr _

theorem elemTrap_keepsForm (h : Nat) (a : VecArgs) (i cause : Nat) (va : W64) (s : State) :
    KeepsForm s (elemTrap h a i cause va s) := by
  unfold elemTrap
  split <;> exact keepsForm_onPkg _ _

theorem vecElems_keepsForm {h : Nat} {a : VecArgs} {one : Nat → W64 → State → AccEnd × State}
    (hone : ∀ i va s, KeepsForm s (one i va s).2) (l : List (Nat × W64)) (s : State) : KeepsForm s (vecElems h a one l s) := by
  induction l generalizing s with
  | nil => exact keepsForm_onPkg _ _
  | cons x t ih =>
    have hx := hone x.1 x.2 s
    unfold vecElems
    split
    · exact ih s
    split
    next hr =>
      rw [hr] at hx
      exact hx.trans (ih _)
    next hr =>
      rw [hr] at hx
      exact hx.onPkg _
    next hr =>
      rw [hr] at hx
      exact hx.trans (elemTrap_keepsForm _ _ _ _ _ _)

theorem coreLoad_keepsForm (h : Nat) (ctl : CoreCtl) (va : W64) (size rd : Nat) (signed : Bool) (vec : Option VecArgs)
    (s : State) : KeepsForm s (coreLoad h ctl va size rd signed vec s) := by
  unfold coreLoad
  split
  · refine (keepsForm_onPkg s fun p => executesWith p h ctl).trans ?_
    dsimp only
    split
    · exact endAccess_keepsForm (loadOnce_keepsForm _ _ _ _ _ _ _)
    · exact vecElems_keepsForm (fun _ _ _ => loadOnce_keepsForm _ _ _ _ _ _ _) _ _
  · exact .refl s

theorem coreStore_keepsForm (h : Nat) (ctl : CoreCtl) (va : W64) (size : Nat) (value : W64) (vec : Option VecArgs) (s : State) :
    KeepsForm s (coreStore h ctl va size value vec s) := by
  unfold coreStore
  split
  · refine (keepsForm_onPkg s fun p => executesWith p h ctl).trans ?_
    dsimp only
    split
    · exact endAccess_keepsForm (storeOnce_keepsForm _ _ _ _ _ _)
    · exact vecElems_keepsForm (fun _ _ _ => storeOnce_keepsForm _ _ _ _ _ _) _ _
  · exact .refl s

theorem storeConditional_keepsForm (h pa size rd : Nat) (value : W64) (held : Bool) (s : State) :
    KeepsForm s (storeConditional h pa size rd value held s).2 := by
  unfold storeConditional
  dsimp only
  split
  · exact keepsForm_withMem (Memory.write_wf _ _ _) _
  · exact keepsForm_onPkg _ _

theorem atomicOn_keepsForm (h : Nat) (op : AmoOp) (va : W64) (pa size rd : Nat) (value : W64) (s : State) :
    KeepsForm s (atomicOn h op va pa size rd value s).2 := by
  unfold atomicOn
  split
  · unfold loadReserved
    split <;> exact keepsForm_onPkg _ _
  · exact storeConditional_keepsForm _ _ _ _ _ _ _
  · split
    · exact keepsForm_onPkg _ _
    · exact keepsForm_withMem (Memory.write_wf _ _ _) _

/-- The store buffer of a hart drains where a condition asks for it. -/
theorem drainIf_keepsForm (b : Bool) (h : Nat) (s : State) : KeepsForm s (if b = true then drainHart h s else s) := by
  split
  · exact drainHart_keepsForm h s
  · exact .refl s

theorem atomicMem_keepsForm (h : Nat) (op : AmoOp) (va : W64) (pa size rd : Nat) (value : W64) (rel : Bool) (s : State) :
    KeepsForm s (atomicMem h op va pa size rd value rel s).2 := by
  unfold atomicMem
  extract_lets mine t
  have ht : KeepsForm s t := drainIf_keepsForm _ h s
  split
  · exact ht
  split
  · exact ht.trans (storeConditional_keepsForm _ _ _ _ _ _ _)
  split
  · exact ht.trans (atomicOn_keepsForm _ _ _ _ _ _ _ _)
  split
  · split
    · exact (ht.trans (keepsForm_withPkg _ _)).trans (atomicOn_keepsForm _ _ _ _ _ _ _ _)
    · exact ht.trans (keepsForm_withPkg _ _)
  · exact ht.onPkg _
  · exact ht

theorem atomicOnce_keepsForm (h : Nat) (ctl : CoreCtl) (op : AmoOp) (va : W64) (size rd : Nat) (value : W64) (rel : Bool)
    (s : State) : KeepsForm s (atomicOnce h ctl op va size rd value rel s).2 := by
  unfold atomicOnce
  split
  · exact .refl s
  split
  next hr => exact xlatePieces_keepsForm hr _
  next hr => exact xlatePieces_keepsForm hr _
  next hr =>
    split
    · exact (xlatePieces_keepsForm hr _).trans (atomicMem_keepsForm _ _ _ _ _ _ _ _ _)
    · exact xlatePieces_keepsForm hr _
  next hr => exact xlatePieces_keepsForm hr _

theorem coreAmo_keepsForm (h : Nat) (ctl : CoreCtl) (op : AmoOp) (va : W64) (size rd : Nat) (value : W64) (rel : Bool)
    (s : State) : KeepsForm s (coreAmo h ctl op va size rd value rel s) := by
  unfold coreAmo
  split
  · exact (keepsForm_onPkg s _).trans (endAccess_keepsForm (atomicOnce_keepsForm _ _ _ _ _ _ _ _ _))
  · exact .refl s

theorem fence_keepsForm (h pred : Nat) (s : State) : KeepsForm s (fence h pred s) := by
  unfold fence
  dsimp only
  split
  · split
    · exact ((keepsForm_onPkg _ _).onPkg _).trans (drainHart_keepsForm _ _)
    · exact keepsForm_onPkg _ _
  · exact .refl s

theorem cboOnce_keepsForm (h : Nat) (ctl : CoreCtl) (va : W64) (f : Nat → Pkg → Pkg) (s : State) :
    KeepsForm s (cboOnce h ctl va f s).2 := by
  unfold cboOnce
  split
  next hr => exact xlatePieces_keepsForm hr _
  next hr => exact xlatePieces_keepsForm hr _
  next hr =>
    extract_lets t
    have ht : KeepsForm s t := xlatePieces_keepsForm hr _
    split
    · rename_i pa mine u _ _
      have hu : KeepsForm s u := ht.trans (drainIf_keepsForm _ h t)
      split
      · exact hu
      · exact hu.onPkg _
    · exact ht
    · exact ht

theorem cbo_keepsForm (h : Nat) (ctl : CoreCtl) (va : W64) (f : Nat → Pkg → Pkg) (s : State) :
    KeepsForm s (cbo h ctl va f s) := by
  unfold cbo
  split
  · exact (keepsForm_onPkg s _).trans (endAccess_keepsForm (cboOnce_keepsForm _ _ _ _ _))
  · exact .refl s

theorem zeroOnce_keepsForm (h : Nat) (ctl : CoreCtl) (va : W64) (s : State) : KeepsForm s (zeroOnce h ctl va s).2 := by
  unfold zeroOnce
  split
  next hr => exact xlatePieces_keepsForm hr _
  next hr => exact xlatePieces_keepsForm hr _
  next hr => split <;> exact xlatePieces_keepsForm hr _

theorem cboZero_keepsForm (h : Nat) (ctl : CoreCtl) (va : W64) (s : State) : KeepsForm s (cboZero h ctl va s) := by
  unfold cboZero
  split
  · exact (keepsForm_onPkg s _).trans (endAccess_keepsForm (zeroOnce_keepsForm _ _ _ _))
  · exact .refl s

theorem corePrefetch_keepsForm (h : Nat) (ctl : CoreCtl) (va : W64) (kind : Nat) (s : State) :
    KeepsForm s (corePrefetch h ctl va kind s) := by
  unfold corePrefetch
  split
  · extract_lets t
    have ht : KeepsForm s t := keepsForm_onPkg _ _
    split
    next hr => exact ht.trans (xlatePieces_keepsForm hr _)
    next hr => exact ht.trans (xlatePieces_keepsForm hr _)
  · exact .refl s

/-! ## Safe hold and bridges (spec/13, spec/17) -/

theorem drainHarts_keepsForm (s : State) : KeepsForm s (drainHarts s) :=
  KeepsForm.foldl (fun t h => drainHart_keepsForm h t) _ s

theorem holdEntry_keepsForm (cause : Nat) (s : State) : KeepsForm s (holdEntry cause s) := by
  unfold holdEntry
  split
  · exact keepsForm_onPkg _ _
  · exact ((keepsForm_onPkg _ _).trans (drainHarts_keepsForm _)).trans (keepsForm_withPkg _ _)

theorem holdEvent_keepsForm (s : State) : KeepsForm s (holdEvent s) := by
  unfold holdEvent
  dsimp only
  split
  · exact keepsForm_withPkg _ _
  split
  · exact keepsForm_withPkg _ _
  · exact holdEntry_keepsForm _ _

theorem failBridge_keepsForm (b dir : Nat) (s : State) : KeepsForm s (failBridge b dir s) := by
  unfold failBridge
  split
  · refine (keepsForm_onPkg s fun p => bridgeFails p b dir).trans ?_
    unfold meridiansCheck
    split
    · exact (keepsForm_onPkg _ _).trans (holdEntry_keepsForm _ _)
    · exact .refl _
  · exact .refl s

theorem spareLane_keepsForm (b dir : Nat) (s : State) : KeepsForm s (spareLane b dir s) := by
  unfold spareLane
  dsimp only
  split
  · exact .refl s
  split
  · exact failBridge_keepsForm _ _ _
  · exact keepsForm_onPkg _ _

/-! ## Error recovery (spec/18) -/

theorem poisonLine_keepsForm (e : ErrArgs) (s : State) : KeepsForm s (poisonLine e s) := by
  unfold poisonLine
  split
  · split
    · exact replicaRepair_keepsForm _ _
    · exact keepsForm_withMem (Memory.setPoison_wf _) s.pkg
  · exact .refl s

theorem spareRow_keepsForm (pg : Nat) (e : ErrArgs) (s : State) : KeepsForm s (spareRow pg e s) := by
  unfold spareRow
  dsimp only
  split
  · split
    · exact (keepsForm_onPkg s _).trans (channelFence_keepsForm _ _ _)
    · exact (keepsForm_onPkg s _).onPkg _
  · exact keepsForm_onPkg _ _

theorem thresholdAct_keepsForm (pg : Nat) (e : ErrArgs) (s : State) : KeepsForm s (thresholdAct pg e s) := by
  have hif {c : Prop} [Decidable c] {t : State} (h : KeepsForm s t) : KeepsForm s (if c then t else s) := by
    split
    · exact h
    · exact .refl s
  unfold thresholdAct
  split
  · exact keepsForm_onPkg _ _
  · exact hif (spareRow_keepsForm _ _ _)
  · exact hif (keepsForm_onPkg _ _)
  · exact hif (keepsForm_onPkg _ _)
  · exact hif (spareLane_keepsForm _ _ _)
  · exact hif (spareLane_keepsForm _ _ _)
  · exact hif (spareLane_keepsForm _ _ _)
  · exact hif (keepsForm_onPkg _ _)
  · exact .refl s

theorem deferredAct_keepsForm (pg : Nat) (e : ErrArgs) (esc : Bool) (s : State) : KeepsForm s (deferredAct pg e esc s) := by
  have h1 := poisonLine_keepsForm e s
  unfold deferredAct
  dsimp only
  split
  · split
    · exact .refl s
    · exact keepsForm_onPkg _ _
  · split
    · exact keepsForm_onPkg _ _
    split
    · exact h1.onPkg _
    · exact h1
  · split
    · exact h1.trans (spareRow_keepsForm _ _ _)
    · exact h1
  · exact h1.onPkg _
  · exact keepsForm_onPkg _ _
  · exact .refl s
  · split
    · exact h1.trans (thresholdAct_keepsForm _ _ _)
    · exact h1

theorem containedAct_keepsForm (pg : Nat) (e : ErrArgs) (s : State) : KeepsForm s (containedAct pg e s) := by
  have h1 := poisonLine_keepsForm e s
  unfold containedAct
  split
  · exact keepsForm_onPkg _ _
  · exact h1.trans (spareRow_keepsForm _ _ _)
  · exact h1.onPkg _
  · exact h1.trans (thresholdAct_keepsForm _ _ _)

theorem recoveryAct_keepsForm (pg : Nat) (e : ErrArgs) (sev : Nat) (esc hit row : Bool) (s : State) :
    KeepsForm s (recoveryAct pg e sev esc hit row s) := by
  unfold recoveryAct
  split
  · extract_lets s0 s1
    have h0 : KeepsForm s s0 := by
      unfold s0
      split
      · exact keepsForm_onPkg _ _
      · exact .refl s
    have h1 : KeepsForm s s1 := by
      unfold s1
      split
      · exact h0.trans (thresholdAct_keepsForm _ _ _)
      · exact h0
    split
    · exact h1.onPkg _
    · exact h1
  · exact deferredAct_keepsForm _ _ _ _
  · split
    · exact containedAct_keepsForm _ _ _
    · exact .refl s
  · split
    · exact keepsForm_withMem Memory.hostOnly_wf _
    split
    · exact holdEntry_keepsForm _ _
    · exact holdEvent_keepsForm _

theorem logAndAct_keepsForm (pg : Nat) (e : ErrArgs) (s : State) : KeepsForm s (logAndAct pg e s) :=
  (keepsForm_withPkg s _).trans (recoveryAct_keepsForm _ _ _ _ _ _ _)

/-! ## The sequencer (spec/19) -/

theorem climb5_keepsForm (img : ImageInfo) (s : State) : KeepsForm s (climb5 img s) := by
  unfold climb5
  dsimp only
  split
  · exact keepsForm_withPkg _ _
  · exact keepsForm_withMem (fun h => sealHandoff_wf (Memory.store_wf _ _ _ h)) _

theorem climbAct_keepsForm (img : ImageInfo) (s : State) : KeepsForm s (climbAct img s) := by
  unfold climbAct
  dsimp only
  split
  · exact keepsForm_withMem Memory.hostOnly_wf _
  · exact keepsForm_withPkg _ _
  · split <;> exact keepsForm_withPkg _ _
  · split
    · exact keepsForm_withPkg _ _
    · exact climb5_keepsForm _ _
  · split
    · exact .refl s
    · exact keepsForm_withPkg _ _

theorem handoffDdr_keepsForm (s : State) : KeepsForm s (handoffDdr s) := by
  unfold handoffDdr
  split
  · exact keepsForm_withMem (fun h => sealHandoff_wf (Memory.store_wf _ _ _ h)) s.pkg
  · exact .refl s

theorem descend5_keepsForm (s : State) : KeepsForm s (descend5 s) := by
  unfold descend5
  exact ((keepsForm_onPkg s abortEngines).trans (drainHarts_keepsForm _)).onPkg _

theorem descendAct_keepsForm (n : Nat) (s : State) : KeepsForm s (descendAct n s) := by
  unfold descendAct
  split
  · exact keepsForm_onPkg _ _
  · exact descend5_keepsForm s
  · exact keepsForm_onPkg _ _
  · exact keepsForm_onPkg _ _
  · exact keepsForm_withMem Memory.hostOnly_wf (offAux s.pkg)
  · exact .refl s

end Sys2Proof.Machine
end

section
/-! What each command answers (spec/00, spec/01): a next state that keeps the queue and memory's canonical form, and, for the commands
that store nothing, memory as it was; the proofs of O1 to O5. -/

namespace Sys2Proof.Machine

/-! ## The commands that store -/

theorem execSpillWrite_answers (ctx ring : Nat) (s : State) : Answers s (execSpillWrite ctx ring s) := by
  unfold execSpillWrite
  extract_lets w x n
  split
  · exact answers_self s
  · exact answers_withMem (storeSlots_wf _ _ _ _) _

theorem execTraceRecordWrite_answers (t : Nat) (s : State) : Answers s (execTraceRecordWrite t s) := by
  unfold execTraceRecordWrite
  split
  · exact answers_self s
  split
  · exact answers_withMem (Memory.storeLine_wf _ _ _) _
  · exact answers_onPkg _ _

theorem execHostPacketCommit_answers (n mu : Nat) (s : State) : Answers s (execHostPacketCommit n mu s) := by
  unfold execHostPacketCommit
  split
  · exact answers_withMem (foldl_wf _ (fun _ _ => Memory.storeLine_wf _ _ _) _) _
  · exact answers_onPkg _ _

theorem execFoldBoundary_answers (n : Nat) (s : State) : Answers s (execFoldBoundary n s) := by
  unfold execFoldBoundary
  dsimp only
  split
  · split
    · exact answers_onPkg _ _
    split
    · exact answers_withMem (storeAt_wf _ _ _ _) _
    · exact answers_onPkg _ _
  · exact answers_self s

theorem execPartitionChangeDone_answers (quad : Nat) (s : State) : Answers s (execPartitionChangeDone quad s) := by
  unfold execPartitionChangeDone
  dsimp only
  split
  · exact answers_self s
  split
  · exact answers_withMem (zeroWays_wf _ _ _) _
  · exact answers_onPkg _ _

theorem execCommandTranslate_answers (id : Nat) (s : State) : Answers s (execCommandTranslate id s) := by
  have htr (p : Pkg) := trCmd_wf p id (m := s.mem)
  unfold execCommandTranslate
  extract_lets p c fresh running paused a
  split
  · split
    · split
      · exact answers_withMem (htr _) _
      · exact answers_withMem (htr _) _
    · exact answers_withMem (htr _) _
    · split
      · exact answers_withMem (htr _) _
      · refine answers_withMem (fun h => ?_) _
        show (if fresh = true then tryAccept id a else retranslated id a).1.wf = true
        split
        · exact tryAccept_wf id _ (htr _ h)
        · exact retranslated_wf id _ (htr _ h)
  · exact answers_self s

theorem execXlFaultResume_answers (rq : Requester) (value : W32) (s : State) : Answers s (execXlFaultResume rq value s) := by
  unfold execXlFaultResume
  split
  · exact (faultResume_keepsForm _ _).answers
  · exact answers_onPkg _ _

theorem execRdCur_answers (pa : Nat) (s : State) : Answers s (execRdCur pa s) := by
  unfold execRdCur
  split
  · exact (request_keepsForm _ _ _ _ _).answers
  · exact answers_onPkg _ _
  · exact answers_self s

theorem execAtom_answers (pa op : Nat) (value : W64) (s : State) : Answers s (execAtom pa op value s) := by
  unfold execAtom
  split
  · exact (request_keepsForm _ _ _ _ _).answers
  · exact (atomState_keepsForm _ _ _ _).answers

theorem execBirsp_answers (pa : Nat) (wb : Option Item) (s : State) : Answers s (execBirsp pa wb s) := by
  unfold execBirsp
  split
  · exact answers_self s
  · refine (KeepsForm.trans ?_ (biAnswered_keepsForm _ _ _)).answers
    split
    · exact keepsForm_withMem (Memory.storeLine_wf _ _ _) _
    · exact .refl s

theorem execHostSnoopTimeout_answers (pa : Nat) (s : State) : Answers s (execHostSnoopTimeout pa s) := by
  unfold execHostSnoopTimeout
  split
  · exact answers_self s
  split
  · exact ((keepsForm_withMem (Memory.storeLine_wf _ _ _) _).trans (biAnswered_keepsForm _ _ _)).answers
  · exact answers_self s

theorem execHostMemRead_answers (hpa : Nat) (cacheIt : Bool) (s : State) : Answers s (execHostMemRead hpa cacheIt s) := by
  unfold execHostMemRead
  split <;> exact answers_onPkg _ _

theorem execHostMemWrite_answers (hpa : Nat) (data : Item) (mask : W64) (s : State) :
    Answers s (execHostMemWrite hpa data mask s) := by
  unfold execHostMemWrite
  split
  · exact answers_onPkg _ _
  · exact (hostWrite_keepsForm _ _ _ _).answers

theorem execDoorbell_answers (rq : Requester) (ctx ring : Nat) (value : W32) (s : State) :
    Answers s (execDoorbell rq ctx ring value s) := by
  unfold execDoorbell
  split <;> exact answers_onPkg _ _

theorem execDescriptorFetch_answers (ctx ring : Nat) (s : State) : Answers s (execDescriptorFetch ctx ring s) := by
  unfold execDescriptorFetch
  extract_lets p va
  split
  · have hpage := pageOf_wf s.pkg ctx 0 (ringClass s.pkg ctx ring) false (headVa s.pkg ctx ring) (m := s.mem)
    split
    next hr =>
      rw [hr] at hpage
      exact answers_withMem hpage _
    next hr =>
      rw [hr] at hpage
      exact answers_withMem hpage _
    next hr =>
      rw [hr] at hpage
      exact answers_withMem hpage _
    next hr =>
      rw [hr] at hpage
      split <;> exact answers_withMem hpage _
  · exact answers_self s

theorem execCompletionWrite_answers (id : Nat) (s : State) : Answers s (execCompletionWrite id s) := by
  unfold execCompletionWrite
  extract_lets p c va
  split
  · have hpage := pageOf_wf s.pkg c.ctx 1 (ringClass s.pkg c.ctx c.ring) true (cqVa s.pkg c.ctx c.ring) (m := s.mem)
    split
    next hr =>
      rw [hr] at hpage
      exact answers_withMem hpage _
    next hr =>
      rw [hr] at hpage
      exact answers_withMem hpage _
    next hr =>
      rw [hr] at hpage
      exact answers_withMem hpage _
    next hr =>
      rw [hr] at hpage
      dsimp only
      split
      · exact answers_withMem hpage _
      · split
        · exact answers_withMem hpage _
        · exact answers_withMem (fun h => Memory.write_wf _ _ _ (hpage h)) _
      · exact answers_withMem hpage _
  · exact answers_self s

theorem execMoveSwitch_answers (id : Nat) (s : State) : Answers s (execMoveSwitch id s) := by
  unfold execMoveSwitch
  extract_lets p c
  split
  · exact answers_self s
  split
  · have hsw := switchEntries_wf (switchPairs c) s.pkg (m := s.mem)
    split
    · exact answers_onPkg _ _
    split
    · exact answers_self s
    split
    · exact answers_onPkg _ _
    split
    all_goals
      next hr =>
        rw [hr] at hsw
        exact answers_withMem hsw _
  · exact answers_self s

theorem execSemSignal_answers (id : Nat) (s : State) : Answers s (execSemSignal id s) := by
  unfold execSemSignal
  extract_lets p c
  split
  · split
    · exact answers_self s
    next pa _ =>
      split
      · exact answers_withPkg _ _
      split
      · split
        · exact answers_self s
        · exact answers_withPkg _ _
      · split
        · exact answers_withPkg _ _
        split
        · exact answers_withMem (Memory.write_wf _ _ _) _
        · exact answers_self s
      · have hatom := atomAt_keepsForm pa (dField c.desc 40 1) (semValue c) (idRing c.ctx c.ring) pgQm none s
        split
        next hr =>
          rw [hr] at hatom
          exact (hatom.onPkg _).answers
        next hr =>
          rw [hr] at hatom
          exact hatom.answers
  · exact answers_self s

theorem execColStepSend_answers (id : Nat) (s : State) : Answers s (execColStepSend id s) := by
  unfold execColStepSend
  extract_lets p c g size p1 go
  split
  · split
    · exact answers_withPkg _ _
    split
    · exact ((keepsForm_withPkg s p1).trans (ownSum_keepsForm _ _)).answers
    split
    · exact answers_withPkg _ _
    · exact answers_withPkg _ _
  · exact answers_self s

theorem execStoreBufferDrain_answers (d : DrainArgs) (s : State) : Answers s (execStoreBufferDrain d s) := by
  unfold execStoreBufferDrain
  split
  · exact (drainEnt_keepsForm _ _ _ _).answers
  · exact answers_self s

theorem execHartHeld_answers (h : Nat) (s : State) : Answers s (execHartHeld h s) := by
  unfold execHartHeld
  dsimp only
  split
  · split
    · exact ((drainHart_keepsForm _ _).onPkg _).answers
    · exact (drainHart_keepsForm _ _).answers
  · exact answers_self s

theorem execProiladRd_answers (m : Msg) (s : State) : Answers s (execProiladRd m s) := by
  unfold execProiladRd
  split
  · split
    · exact answers_self s
    split
    · split <;> exact answers_withPkg _ _
    · exact answers_withPkg _ _
    · exact answers_self s
  · exact answers_self s

theorem execProiladWr_answers (m : Msg) (s : State) : Answers s (execProiladWr m s) := by
  unfold execProiladWr
  split
  · split
    · exact (landWrite_keepsForm _ _ _ (fun _ => Memory.storeLine_wf _ _ _) _).answers
    · exact answers_self s
  · exact answers_self s

theorem execProiladWr8_answers (m : Msg) (s : State) : Answers s (execProiladWr8 m s) := by
  unfold execProiladWr8
  split
  · split
    · exact (landWrite_keepsForm _ _ _ (fun _ => maskBytes_wf _ _) _).answers
    · exact answers_self s
  · exact answers_self s

theorem execProiladAtom_answers (m : Msg) (s : State) : Answers s (execProiladAtom m s) := by
  unfold execProiladAtom
  split
  next pa _ =>
    have hatom := atomAt_keepsForm pa m.arg (m.payload.setWidth 64) (idNode m.src) pgRt none s
    split
    · split
      next hr =>
        rw [hr] at hatom
        exact (hatom.onPkg _).answers
      next hr =>
        rw [hr] at hatom
        exact hatom.answers
    · exact answers_self s
  · exact answers_self s

theorem execColHead_answers (m : Msg) (s : State) : Answers s (execColHead m s) := by
  unfold execColHead
  split
  · dsimp only
    split
    · exact answers_self s
    split
    · exact answers_onPkg _ _
    · exact ((landRecs_keepsForm _ _ _ _).onPkg _).answers
  · exact answers_self s

theorem execRdata_answers (m : Msg) (s : State) : Answers s (execRdata m s) := by
  unfold execRdata
  split
  · exact (doAnswer_keepsForm _ _).answers
  · exact answers_self s

theorem execWrack_answers (m : Msg) (s : State) : Answers s (execWrack m s) := by
  unfold execWrack
  split
  · exact (doAnswer_keepsForm _ _).answers
  · exact answers_self s

theorem execSvcWr_answers (m : Msg) (s : State) : Answers s (execSvcWr m s) := by
  unfold execSvcWr
  split
  · exact ((keepsForm_onPkg s _).trans (recordLands_keepsForm _ _)).answers
  · exact answers_self s

theorem execWindowNoAnswer_answers (tag : Nat) (s : State) : Answers s (execWindowNoAnswer tag s) := by
  unfold execWindowNoAnswer
  split
  · split
    · exact (refusedAt_keepsForm _ _ _ _).answers
    · exact answers_self s
  · exact answers_self s

theorem execRegisterWrite_answers (rq : Requester) (off width : Nat) (value : W64) (s : State) :
    Answers s (execRegisterWrite rq off width value s) := by
  unfold execRegisterWrite
  split
  · exact (writeAccess_keepsForm _ _ _ _ _).answers
  · exact answers_self s

theorem execBar0Access_answers (isWrite : Bool) (place : BarAt) (bytes : Nat) (value : W64) (s : State) :
    Answers s (execBar0Access isWrite place bytes value s) := by
  unfold execBar0Access
  split
  · exact answers_self s
  split
  · exact (bar0Access_keepsForm _ _ _ _ _).answers
  split
  · exact answers_onPkg _ _
  · exact answers_self s

theorem execInsetMoveDone_answers (s : State) : Answers s (execInsetMoveDone s) := by
  unfold execInsetMoveDone
  dsimp only
  split
  · exact answers_self s
  split
  · exact answers_onPkg _ _
  split
  · exact (finishMove_keepsForm _).answers
  · exact answers_self s

theorem execChannelFence_answers (stack chan : Nat) (s : State) : Answers s (execChannelFence stack chan s) := by
  unfold execChannelFence
  split
  · exact (channelFence_keepsForm _ _ _).answers
  · exact answers_self s

theorem execChannelSpare_answers (stack chan : Nat) (s : State) : Answers s (execChannelSpare stack chan s) := by
  unfold execChannelSpare
  split
  · split
    · exact (channelFence_keepsForm _ _ _).answers
    · exact answers_onPkg _ _
  · exact answers_self s

theorem execThermalTrip_answers (sensor : Nat) (s : State) : Answers s (execThermalTrip sensor s) := by
  unfold execThermalTrip
  split
  · exact ((keepsForm_onPkg s _).trans (holdEvent_keepsForm _)).answers
  · exact answers_self s

theorem execCoolantLoss_answers (s : State) : Answers s (execCoolantLoss s) := by
  unfold execCoolantLoss
  split
  · exact ((keepsForm_onPkg s _).trans (holdEvent_keepsForm _)).answers
  · exact answers_self s

theorem execMeridianDown_answers (n : Nat) (s : State) : Answers s (execMeridianDown n s) := by
  unfold execMeridianDown
  split
  · exact ((keepsForm_onPkg s nextFree).trans (failBridge_keepsForm _ _ _)).answers
  · exact answers_self s

theorem execBridgeDown_answers (kind n dir : Nat) (s : State) : Answers s (execBridgeDown kind n dir s) := by
  unfold execBridgeDown
  split
  · split
    · exact (failBridge_keepsForm _ _ _).answers
    · exact answers_self s
  · exact answers_self s

theorem execBridgeLaneSpare_answers (kind n dir lane : Nat) (s : State) : Answers s (execBridgeLaneSpare kind n dir lane s) := by
  unfold execBridgeLaneSpare
  split
  · split
    · exact ((keepsForm_onPkg s _).trans (spareLane_keepsForm _ _ _)).answers
    · exact answers_self s
  · exact answers_self s

theorem execErrorLog_answers (page : Nat) (e : ErrArgs) (s : State) : Answers s (execErrorLog page e s) := by
  unfold execErrorLog
  split
  · split
    · exact answers_onPkg _ _
    · exact (logAndAct_keepsForm _ _ _).answers
  · exact answers_self s

theorem execColdPowerUp_answers (dir : FlashDir) (slots : FlashSlots) (s : State) : Answers s (execColdPowerUp dir slots s) := by
  unfold execColdPowerUp
  split
  · exact answers_self s
  · exact answers_withMem Memory.hostOnly_wf _

theorem execPowerLoss_answers (auxHeld : Bool) (s : State) : Answers s (execPowerLoss auxHeld s) := by
  unfold execPowerLoss
  split
  · exact answers_withMem Memory.hostOnly_wf _
  · exact answers_self s

theorem execRailLoss_answers (cause : Nat) (s : State) : Answers s (execRailLoss cause s) := by
  unfold execRailLoss
  extract_lets q late low
  split
  · exact answers_withMem Memory.hostOnly_wf _
  · exact answers_self s

theorem execSequencerStep_answers (img : ImageInfo) (s : State) : Answers s (execSequencerStep img s) := by
  unfold execSequencerStep
  extract_lets s1
  have h1 : KeepsForm s s1 := by
    unfold s1
    split
    · exact keepsForm_onPkg _ _
    · exact .refl s
  split
  · exact h1.answers
  · exact ((h1.trans (climbAct_keepsForm _ _)).onPkg _).answers

theorem execDdrTrainingDone_answers (l : List DdrChannel) (s : State) : Answers s (execDdrTrainingDone l s) := by
  unfold execDdrTrainingDone
  extract_lets p o r bytes p1 s1
  split
  · exact answers_self s
  · refine KeepsForm.answers ?_
    split
    · exact keepsForm_withPkg _ _
    · exact (keepsForm_withPkg s _).trans (handoffDdr_keepsForm _)

theorem execDescendingStep_answers (s : State) : Answers s (execDescendingStep s) := by
  unfold execDescendingStep
  dsimp only
  split
  · exact ((descendAct_keepsForm _ _).onPkg _).answers
  · exact answers_self s

/-! ## Every command -/

/-- Every command answers a next state that keeps the queue and the canonical form. -/
theorem exec_answers (c : Instr) (s : State) : Answers s (exec c s) := by
  cases c with
  | spillWrite ctx ring => exact execSpillWrite_answers _ _ _
  | traceRecordWrite t => exact execTraceRecordWrite_answers _ _
  | commit n dest => exact (commitState_keepsForm _ _ _ _).answers
  | hostPacketCommit n mu => exact execHostPacketCommit_answers _ _ _
  | foldBoundary n => exact execFoldBoundary_answers _ _
  | partitionChangeDone quad => exact execPartitionChangeDone_answers _ _
  | add64 pa v => exact (atomAt_keepsForm _ _ _ _ _ _ _).answers
  | set64 pa v => exact (atomAt_keepsForm _ _ _ _ _ _ _).answers
  | radd pa r => exact (raddAt_keepsForm _ _ _ _ _).answers
  | commandTranslate id => exact execCommandTranslate_answers _ _
  | xlFaultResume rq v => exact execXlFaultResume_answers _ _ _
  | rdShared h pa => exact (hartRequest_keepsForm _ _ _ _).answers
  | rdOwn h pa => exact (hartRequest_keepsForm _ _ _ _).answers
  | upgrade h pa => exact (hartRequest_keepsForm _ _ _ _).answers
  | rdCur pa => exact execRdCur_answers _ _
  | atom pa op v => exact execAtom_answers _ _ _ _
  | birsp pa wb => exact execBirsp_answers _ _ _
  | hostSnoopTimeout pa => exact execHostSnoopTimeout_answers _ _
  | hostMemRead hpa cacheIt => exact execHostMemRead_answers _ _ _
  | hostMemWrite hpa data mask => exact execHostMemWrite_answers _ _ _ _
  | doorbell rq ctx ring v => exact execDoorbell_answers _ _ _ _ _
  | descriptorFetch ctx ring => exact execDescriptorFetch_answers _ _ _
  | completionWrite id => exact execCompletionWrite_answers _ _
  | moveSwitch id => exact execMoveSwitch_answers _ _
  | semSignal id => exact execSemSignal_answers _ _
  | colStepSend id => exact execColStepSend_answers _ _
  | storeBufferDrain d => exact execStoreBufferDrain_answers _ _
  | coreLoad h ctl va size rd signed vec => exact (coreLoad_keepsForm _ _ _ _ _ _ _ _).answers
  | coreStore h ctl va size v vreg elems => exact (coreStore_keepsForm _ _ _ _ _ _ _).answers
  | coreAmo h ctl op va size rd v rel => exact (coreAmo_keepsForm _ _ _ _ _ _ _ _ _).answers
  | fence h pred succ => exact (fence_keepsForm _ _ _).answers
  | fenceTso h => exact (fence_keepsForm _ _ _).answers
  | cboClean h acc => exact (cbo_keepsForm _ _ _ _ _).answers
  | cboFlush h acc => exact (cbo_keepsForm _ _ _ _ _).answers
  | cboInval h acc => exact (cbo_keepsForm _ _ _ _ _).answers
  | cboZero h acc => exact (cboZero_keepsForm _ _ _ _).answers
  | corePrefetch h acc kind => exact (corePrefetch_keepsForm _ _ _ _ _).answers
  | hartHeld h => exact execHartHeld_answers _ _
  | meridianDown n => exact execMeridianDown_answers _ _
  | bridgeDown kind n dir => exact execBridgeDown_answers _ _ _ _
  | bridgeLaneSpare kind n dir lane => exact execBridgeLaneSpare_answers _ _ _ _ _
  | registerWrite rq off width v => exact execRegisterWrite_answers _ _ _ _ _
  | bar0Access w place bytes v => exact execBar0Access_answers _ _ _ _ _
  | insetMoveDone => exact execInsetMoveDone_answers _
  | inboundRequest w addr bytes data => exact (inbound_keepsForm _ _ _ _ _).answers
  | inboundMsi addr bytes data => exact (inbound_keepsForm _ _ _ _ _).answers
  | proiladRd m => exact execProiladRd_answers _ _
  | proiladWr m => exact execProiladWr_answers _ _
  | proiladWr8 m => exact execProiladWr8_answers _ _
  | proiladAtom m => exact execProiladAtom_answers _ _
  | colHead m => exact execColHead_answers _ _
  | rdata m => exact execRdata_answers _ _
  | wrack m => exact execWrack_answers _ _
  | svcWr m => exact execSvcWr_answers _ _
  | reportRecord cause window tag source offset => exact (recordLands_keepsForm _ _).answers
  | windowNoAnswer tag => exact execWindowNoAnswer_answers _ _
  | thermalTrip sensor => exact execThermalTrip_answers _ _
  | coolantLoss => exact execCoolantLoss_answers _
  | errorLog page e => exact execErrorLog_answers _ _ _
  | channelSpare stack chan => exact execChannelSpare_answers _ _ _
  | channelFence stack chan => exact execChannelFence_answers _ _ _
  | replicaRepair pa => exact (replicaRepair_keepsForm _ _).answers
  | replicaCopyArrived pa data cause => exact (replicaCopy_keepsForm _ _ _ _).answers
  | coldPowerUp dir slots => exact execColdPowerUp_answers _ _ _
  | powerLoss auxHeld => exact execPowerLoss_answers _ _
  | railLoss cause => exact execRailLoss_answers _ _
  | sequencerStep img => exact execSequencerStep_answers _ _
  | descendingStep => exact execDescendingStep_answers _
  | ddrTrainingDone l => exact execDdrTrainingDone_answers _ _
  | _ => exact answers_onPkg _ _

theorem execHostMemRead_pkg (hpa : Nat) (cacheIt : Bool) (s : State) :
    ∃ q, execHostMemRead hpa cacheIt s = .next { s with pkg := q } := by
  unfold execHostMemRead
  split <;> exact ⟨_, rfl⟩

theorem execDoorbell_pkg (rq : Requester) (ctx ring : Nat) (value : W32) (s : State) :
    ∃ q, execDoorbell rq ctx ring value s = .next { s with pkg := q } := by
  unfold execDoorbell
  split <;> exact ⟨_, rfl⟩

theorem execProiladRd_pkg (m : Msg) (s : State) : ∃ q, execProiladRd m s = .next { s with pkg := q } := by
  unfold execProiladRd
  split
  · split
    · exact ⟨_, rfl⟩
    split
    · split <;> exact ⟨_, rfl⟩
    · exact ⟨_, rfl⟩
    · exact ⟨_, rfl⟩
  · exact ⟨_, rfl⟩

/-- A command that stores nothing answers a state with the same memory: it acts on the package alone. -/
theorem exec_storesNothing {c : Instr} (h : storesNothing c = true) (s : State) : ∃ q, exec c s = .next { s with pkg := q } := by
  cases c with
  | hostMemRead hpa cacheIt => exact execHostMemRead_pkg _ _ _
  | doorbell rq ctx ring v => exact execDoorbell_pkg _ _ _ _ _
  | proiladRd m => exact execProiladRd_pkg _ _
  | outputPacketCommit | spillWrite | registerWrite | foldBoundary | descriptorFetch | commandTranslate | completionWrite
  | moveSwitch | semSignal | coreStore | storeBufferDrain | coreLoad | cboZero | corePrefetch | rdShared | rdOwn | upgrade
  | rdCur | coreAmo | fence | fenceTso | cboClean | cboFlush | cboInval | partitionChangeDone | add64 | set64 | radd
  | ddrTrainingDone | hartHeld | commit | atom | birsp | hostSnoopTimeout | hostMemWrite | hostPacketCommit | meridianDown
  | bridgeDown | bridgeLaneSpare | xlFaultResume | reportRecord | windowNoAnswer | bar0Access | insetMoveDone | inboundRequest
  | inboundMsi | proiladWr | proiladWr8 | proiladAtom | rdata | wrack | colHead | svcWr | colStepSend | thermalTrip
  | coolantLoss | errorLog | channelSpare | channelFence | replicaRepair | replicaCopyArrived | coldPowerUp | powerLoss
  | railLoss | sequencerStep | descendingStep | traceRecordWrite =>
    exact nomatch h
  | _ => exact ⟨_, rfl⟩

/-! ## O1 to O5 -/

/-- Settles O1. -/
theorem stepTakesTheFrontCommand : Obligations.StepTakesTheFrontCommand := by
  unfold Obligations.StepTakesTheFrontCommand
  intro c rest s h
  rw [step, h]

/-- Settles O2: the reset state waits for nothing, and its memory lists nothing. -/
theorem resetIdlesWithAnEmptyCanonicalMemory : Obligations.ResetIdlesWithAnEmptyCanonicalMemory := by
  unfold Obligations.ResetIdlesWithAnEmptyCanonicalMemory
  have idles (s : State) (h : s.pending = []) : step s = .next s := by rw [step, h]
  exact ⟨⟨idles, idles State.reset rfl⟩, Memory.empty_wf, rfl⟩

/-- Settles O3, by what every command answers. -/
theorem everyCommandAnswersAndKeepsTheQueue : Obligations.EveryCommandAnswersAndKeepsTheQueue := by
  unfold Obligations.EveryCommandAnswersAndKeepsTheQueue
  intro c s
  obtain ⟨t, ht, hqueue, _⟩ := exec_answers c s
  exact ⟨t, ht, hqueue⟩

/-- Settles O4: a step idles, or has the effect of a command, and every command keeps the canonical form. -/
theorem everyStepKeepsMemoryCanonical : Obligations.EveryStepKeepsMemoryCanonical := by
  unfold Obligations.EveryStepKeepsMemoryCanonical
  intro s t hs hstep
  unfold step at hstep
  split at hstep
  · cases hstep
    exact hs
  next c rest _ =>
    obtain ⟨u, hu, _, hform⟩ := exec_answers c { s with pending := rest }
    rw [hu] at hstep
    cases hstep
    exact hform hs

/-- Settles O5: such a command acts on the package alone. -/
theorem commandsThatStoreNothingKeepMemory : Obligations.CommandsThatStoreNothingKeepMemory := by
  unfold Obligations.CommandsThatStoreNothingKeepMemory
  intro c s t hc ht
  obtain ⟨q, hq⟩ := exec_storesNothing hc s
  rw [hq] at ht
  cases ht
  exact ⟨rfl, fun _ => rfl⟩

end Sys2Proof.Machine
end

section
/-! A command of one compute engine leaves the other engines, the field book's fuses, boot flash, the sequencer and the datum as they
are (spec/05 to spec/07): one lemma per operation of a CE's units, then the proof of O6. -/

namespace Sys2Proof.Machine

/-! ## The frames -/

/-- Every CE, the fuses, boot flash and the surveyor's state, the sequencer and the datum are kept. -/
structure KeepsEngines (p q : Pkg) : Prop where
  ces : q.ces = p.ces
  fuse : q.fuse = p.fuse
  boot : q.boot = p.boot
  seq : q.seq = p.seq
  pace : q.pace = p.pace

theorem KeepsEngines.refl (p : Pkg) : KeepsEngines p p := ⟨rfl, rfl, rfl, rfl, rfl⟩

theorem KeepsEngines.trans {p q r : Pkg} (h : KeepsEngines p q) (g : KeepsEngines q r) : KeepsEngines p r :=
  ⟨g.ces.trans h.ces, g.fuse.trans h.fuse, g.boot.trans h.boot, g.seq.trans h.seq, g.pace.trans h.pace⟩

theorem OnlyLog.keepsEngines {p q : Pkg} (h : OnlyLog p q) : KeepsEngines p q := ⟨h.ces_eq, h.fuse_eq, h.boot_eq, h.seq_eq, h.pace_eq⟩

theorem OnlyHeads.keepsEngines {p q : Pkg} (h : OnlyHeads p q) : KeepsEngines p q := by
  obtain ⟨x, y, rfl⟩ := h.pkg
  exact ⟨rfl, rfl, rfl, rfl, rfl⟩

theorem KeepsEngines.foldl {α : Type} {f : Pkg → α → Pkg} (hf : ∀ p a, KeepsEngines p (f p a)) (l : List α) (p : Pkg) :
    KeepsEngines p (l.foldl f p) := by
  induction l generalizing p with
  | nil => exact .refl p
  | cons a l ih => exact (hf p a).trans (ih _)

theorem KeepsEngines.ite {c : Prop} [Decidable c] {p q r : Pkg} (h : KeepsEngines p q) (g : KeepsEngines p r) :
    KeepsEngines p (if c then q else r) := by
  split
  · exact h
  · exact g

/-- Of all engines only CE n changes; the fuses, boot flash and the surveyor's state, the sequencer and the datum are kept. -/
structure OnlyEngine (n : Nat) (p q : Pkg) : Prop where
  others : ∀ m, m ≠ n → ce q m = ce p m
  fuse : q.fuse = p.fuse
  boot : q.boot = p.boot
  seq : q.seq = p.seq
  pace : q.pace = p.pace

theorem OnlyEngine.refl (n : Nat) (p : Pkg) : OnlyEngine n p p := ⟨fun _ _ => rfl, rfl, rfl, rfl, rfl⟩

theorem OnlyEngine.trans {n : Nat} {p q r : Pkg} (h : OnlyEngine n p q) (g : OnlyEngine n q r) : OnlyEngine n p r :=
  ⟨fun m hm => (g.others m hm).trans (h.others m hm), g.fuse.trans h.fuse, g.boot.trans h.boot, g.seq.trans h.seq,
    g.pace.trans h.pace⟩

theorem KeepsEngines.only {p q : Pkg} (h : KeepsEngines p q) (n : Nat) : OnlyEngine n p q :=
  ⟨fun m _ => ce_congr h.ces m, h.fuse, h.boot, h.seq, h.pace⟩

theorem OnlyEngine.keeps {n : Nat} {p q r : Pkg} (h : OnlyEngine n p q) (g : KeepsEngines q r) : OnlyEngine n p r := h.trans (g.only n)

theorem onlyEngine_setCe (p : Pkg) (n : Nat) (c : Ce) : OnlyEngine n p (setCe p n c) :=
  ⟨fun _ hm => ce_setCe_ne p c hm, rfl, rfl, rfl, rfl⟩

theorem OnlyEngine.setCe {n : Nat} {p q : Pkg} (h : OnlyEngine n p q) (c : Ce) : OnlyEngine n p (setCe q n c) :=
  h.trans (onlyEngine_setCe q n c)

/-! ## Operations that leave every engine -/

theorem keepsEngines_addReg (p : Pkg) (k v : Nat) : KeepsEngines p (addReg p k v) := ⟨rfl, rfl, rfl, rfl, rfl⟩

theorem keepsEngines_setCmd (p : Pkg) (id : Nat) (c : Cmd) : KeepsEngines p (setCmd p id c) := ⟨rfl, rfl, rfl, rfl, rfl⟩

theorem keepsEngines_dropDemand (p : Pkg) (id : Nat) : KeepsEngines p (dropDemand p id) := ⟨rfl, rfl, rfl, rfl, rfl⟩

theorem keepsEngines_drained (p : Pkg) (pg : Nat) : KeepsEngines p (drained p pg) := by
  unfold drained
  split
  · exact .refl p
  · have hready := (setReady_only p pg false).keepsEngines
    exact ⟨hready.ces, hready.fuse, hready.boot, hready.seq, hready.pace⟩

theorem keepsEngines_settlePending (p : Pkg) (ctx ring fuel : Nat) : KeepsEngines p (settlePending p ctx ring fuel) :=
  (settlePending_onlyHeads p ctx ring fuel).keepsEngines

theorem keepsEngines_finishCmd (p : Pkg) (id status detail : Nat) : KeepsEngines p (finishCmd p id status detail) := by
  unfold finishCmd
  extract_lets c st dt q
  split
  · exact ⟨rfl, rfl, rfl, rfl, rfl⟩
  split
  · exact .refl p
  · refine KeepsEngines.trans ?_ (keepsEngines_settlePending _ _ _ _)
    exact ⟨rfl, rfl, rfl, rfl, rfl⟩

theorem keepsEngines_addCmdBeats (p : Pkg) (id n : Nat) : KeepsEngines p (addCmdBeats p id n) := ⟨rfl, rfl, rfl, rfl, rfl⟩

theorem keepsEngines_memSend (p : Pkg) (pa cls : Nat) (w : Bool) : KeepsEngines p (memSend p pa cls w) := by
  unfold memSend
  split
  · exact ⟨rfl, rfl, rfl, rfl, rfl⟩
  · exact .refl p

theorem keepsEngines_writeBack (p : Pkg) (sl line : Nat) : KeepsEngines p (writeBack p sl line) :=
  (keepsEngines_addReg p _ 1).trans (keepsEngines_memSend _ _ _ _)

theorem keepsEngines_slmFill (p : Pkg) (sl line hint : Nat) (dirty : Bool) : KeepsEngines p (slmFill p sl line hint dirty) := by
  have hfill (q : Pkg) (t : SMap Tag) (n : Nat) :
      KeepsEngines q (countPins (setFld (setTags q sl t) (key (pgSl sl) 0x104) 15 0 n) sl) := ⟨rfl, rfl, rfl, rfl, rfl⟩
  unfold slmFill
  dsimp only
  split
  · split
    · exact keepsEngines_writeBack _ _ _
    · exact .refl p
  · refine KeepsEngines.trans ?_ (hfill _ _ _)
    split
    · split
      · exact keepsEngines_writeBack _ _ _
      · exact .refl p
    · exact .refl p

theorem keepsEngines_slmRead (p : Pkg) (sl pa cls hint : Nat) : KeepsEngines p (slmRead p sl pa cls hint) := by
  have hmiss := (keepsEngines_addReg p (key (pgSl sl) 0x118) 1).trans (keepsEngines_memSend _ pa cls false)
  unfold slmRead
  dsimp only
  split
  · exact ⟨rfl, rfl, rfl, rfl, rfl⟩
  · split
    · exact hmiss
    · exact hmiss.trans (keepsEngines_slmFill _ _ _ _ _)

theorem keepsEngines_ddrRead (p : Pkg) (pa cls : Nat) : KeepsEngines p (ddrRead p pa cls) := by
  unfold ddrRead
  split
  · exact .refl p
  · exact ⟨rfl, rfl, rfl, rfl, rfl⟩

theorem keepsEngines_biStart (p : Pkg) (line : Nat) (inv : Bool) (req : Option HomeReq) : KeepsEngines p (biStart p line inv req) := by
  unfold biStart
  split
  · exact ⟨rfl, rfl, rfl, rfl, rfl⟩
  · dsimp only
    split <;> exact ⟨rfl, rfl, rfl, rfl, rfl⟩

theorem keepsEngines_homeRead (p : Pkg) (pa cls hint : Nat) (wait : Option HomeReq) :
    KeepsEngines p (homeRead p pa cls hint wait).2 := by
  unfold homeRead
  dsimp only
  split
  · exact keepsEngines_biStart _ _ _ _
  · split
    · exact keepsEngines_slmRead _ _ _ _ _
    · exact keepsEngines_ddrRead _ _ _
    · exact .refl p

theorem keepsEngines_crossLine (p : Pkg) (who pa : Nat) (read : Bool) : KeepsEngines p (crossLine p who pa read) := by
  unfold crossLine
  split
  · unfold carryLine
    dsimp only
    refine KeepsEngines.trans (q := if _ then _ else p) ?_ (.foldl (fun q h => ?_) _ _)
    · split <;> exact ⟨rfl, rfl, rfl, rfl, rfl⟩
    · split
      · exact .refl q
      · split <;> exact ⟨rfl, rfl, rfl, rfl, rfl⟩
  · exact .refl p

theorem keepsEngines_countAccess (p : Pkg) (b addr : Nat) (write : Bool) (ctx : Nat) :
    KeepsEngines p (countAccess p b addr write ctx) := by
  unfold countAccess
  split
  · have hevict (c : Prop) [Decidable c] : KeepsEngines p (if c then bumpReg p (accControl b + 8) 1 0xFFFFFFFF else p) := by
      split <;> exact ⟨rfl, rfl, rfl, rfl, rfl⟩
    have hset (q : Pkg) (x : AccSt) : KeepsEngines q (setAcc q b x) := ⟨rfl, rfl, rfl, rfl, rfl⟩
    have hpush (q : Pkg) (ws : List W64) : KeepsEngines q (pushQueue q (accControl b + 0x10) ws true) := ⟨rfl, rfl, rfl, rfl, rfl⟩
    refine KeepsEngines.ite ?_ ((hevict _).trans (hset _ _))
    exact (((hevict _).trans (hset _ _)).trans (hpush _ _)).trans (raiseBlock_only _ _ _).log.keepsEngines
  · exact .refl p

theorem keepsEngines_readTag (p : Pkg) (line : Nat) : KeepsEngines p (readTag p line).2 := by
  unfold readTag
  split <;> exact ⟨rfl, rfl, rfl, rfl, rfl⟩

theorem keepsEngines_logXlate (p : Pkg) (ctx operand cause va : Nat) : KeepsEngines p (logXlate p ctx operand cause va).2 :=
  (logErr_only _ _ _).keepsEngines

theorem keepsEngines_countProducts (p : Pkg) (n : Nat) (o : Octet) (wide : Bool) (arrays : Nat) :
    KeepsEngines p (countProducts p n o wide arrays) := by
  unfold countProducts
  dsimp only
  split <;> exact ⟨rfl, rfl, rfl, rfl, rfl⟩

theorem keepsEngines_notePreemptMax (p : Pkg) (n : Nat) : KeepsEngines p (notePreemptMax p n) := by
  unfold notePreemptMax
  split
  · dsimp only
    split
    · exact ⟨rfl, rfl, rfl, rfl, rfl⟩
    · exact .refl p
  · exact .refl p

/-! ## A command's end on its engine -/

theorem onlyEngine_l1Boundary (p : Pkg) (n : Nat) : OnlyEngine n p (l1Boundary p n) := by
  unfold l1Boundary
  extract_lets c c1 v p1 p2 p3
  have h1 : OnlyEngine n p p1 := onlyEngine_setCe _ _ _
  have h2 : OnlyEngine n p p2 := by
    unfold p2
    split
    · exact h1.keeps ⟨rfl, rfl, rfl, rfl, rfl⟩
    · exact h1
  have h3 : OnlyEngine n p p3 := by
    unfold p3
    split
    · exact h2.keeps ⟨rfl, rfl, rfl, rfl, rfl⟩
    · exact h2
  exact h3.keeps ⟨rfl, rfl, rfl, rfl, rfl⟩

theorem onlyEngine_ceCleared (p : Pkg) (n : Nat) (c : Cmd) : OnlyEngine n p (ceCleared p n c) := by
  unfold ceCleared
  dsimp only
  refine OnlyEngine.setCe ?_ _
  split
  · exact (keepsEngines_dropDemand p _).only n
  · exact .refl n p

theorem keepsEngines_ceIdle (p : Pkg) (n : Nat) : KeepsEngines p (ceIdle p n) := ⟨rfl, rfl, rfl, rfl, rfl⟩

theorem onlyEngine_ceBoundary (p : Pkg) (n : Nat) : OnlyEngine n p (ceBoundary p n) :=
  (onlyEngine_setCe p n _).trans (onlyEngine_l1Boundary _ n)

theorem onlyEngine_ceRelease (p : Pkg) (n : Nat) (c : Cmd) : OnlyEngine n p (ceRelease p n c) := by
  rw [ceRelease_eq]
  exact (((onlyEngine_ceCleared p n c).trans (onlyEngine_ceBoundary _ n)).keeps (keepsEngines_ceIdle _ n)).keeps
    (keepsEngines_drained _ _)

theorem keepsEngines_runEnded (p : Pkg) (n id status : Nat) : KeepsEngines p (runEnded p n id status) :=
  (keepsEngines_addCmdBeats p id n).trans ((keepsEngines_addReg _ _ 1).trans (waypoint_only _ _ _ _ _).keepsEngines)

theorem onlyEngine_endOnCe (p : Pkg) (n id status detail : Nat) : OnlyEngine n p (endOnCe p n id status detail) := by
  have hend : endOnCe p n id status detail =
      finishCmd (ceRelease (runEnded p n id (status % 256)) n (cmd p id)) id status detail := rfl
  rw [hend]
  exact (((keepsEngines_runEnded p n id _).only n).trans (onlyEngine_ceRelease _ n _)).keeps (keepsEngines_finishCmd _ _ _ _)

theorem keepsEngines_withHome (p : Pkg) (h : HomeSt) : KeepsEngines p { p with home := h } := ⟨rfl, rfl, rfl, rfl, rfl⟩

theorem onlyEngine_ceStop (p : Pkg) (n : Nat) : OnlyEngine n p (ceStop p n) := ((keepsEngines_withHome p _).only n).setCe _

theorem onlyEngine_stopWith (p : Pkg) (n status detail : Nat) : OnlyEngine n p (stopWith p n status detail) := by
  unfold stopWith
  split
  · exact (onlyEngine_ceStop p n).trans (onlyEngine_endOnCe _ _ _ _ _)
  · exact .refl n p

/-! ## Vector instructions and address generators -/

theorem onlyEngine_vuRun (op : Nat) (f : VuIn → List W32) (i : VuArgs) (p : Pkg) : OnlyEngine i.ce p (vuRun op f i p) := by
  unfold vuRun
  dsimp only
  split
  · split
    · exact onlyEngine_setCe _ _ _
    · exact (onlyEngine_setCe _ _ _).keeps (keepsEngines_addReg _ _ _)
  · exact .refl _ p

theorem onlyEngine_iterate {n : Nat} {f : Pkg → Bool × Pkg} (hf : ∀ p, OnlyEngine n p (f p).2) (k : Nat) (p : Pkg) :
    OnlyEngine n p (iterate f k p) := by
  induction k generalizing p with
  | zero => exact .refl n p
  | succ k ih =>
    unfold iterate
    split
    · exact (hf p).trans (ih _)
    · exact hf p

theorem onlyEngine_agOne (d : AgArgs) (p : Pkg) : OnlyEngine d.ce p (agOne d p).2 := by
  unfold agOne
  extract_lets n c typ
  split
  · dsimp only
    split
    · split
      · exact .refl _ p
      · exact onlyEngine_setCe _ _ _
    · split
      · exact onlyEngine_setCe _ _ _
      · exact .refl _ p
  · exact .refl _ p

/-! ## Movers and the L1 -/

theorem onlyEngine_l1Fill (p : Pkg) (n line hint : Nat) (data : Item) (poison : Bool) :
    OnlyEngine n p (l1Fill p n line hint data poison) := by
  unfold l1Fill
  dsimp only
  split
  · exact .refl n p
  · exact (onlyEngine_setCe p n _).keeps ⟨rfl, rfl, rfl, rfl, rfl⟩

theorem onlyEngine_l1Drop (p : Pkg) (n line : Nat) : OnlyEngine n p (l1Drop p n line) := by
  unfold l1Drop
  split
  · exact onlyEngine_setCe _ _ _
  · exact .refl n p

theorem onlyEngine_prefetchLine (p : Pkg) (n mu line hint cls ctx : Nat) :
    OnlyEngine n p (prefetchLine p n mu line hint cls ctx) := by
  unfold prefetchLine
  dsimp only
  split
  · exact ((keepsEngines_readTag p line).only n).setCe _
  · exact .refl n p

theorem onlyEngine_muRequest (p : Pkg) (n mu : Nat) (c : Cmd) (x : Xlate) (operand va : Nat) (keep : Bool) :
    OnlyEngine n p (muRequest p n mu c x operand va keep) := by
  unfold muRequest
  dsimp only
  split
  · exact onlyEngine_setCe _ _ _
  split
  · exact .refl n p
  split
  · split
    · exact .refl n p
    · exact (onlyEngine_setCe p n _).keeps ⟨rfl, rfl, rfl, rfl, rfl⟩
  · exact (((keepsEngines_readTag p _).only n).setCe _).keeps (keepsEngines_addReg _ _ 1)

theorem onlyEngine_muGet (p : Pkg) (n mu : Nat) (c : Cmd) (x : Xlate) (operand va : Nat) :
    OnlyEngine n p (muGet p n mu c x operand va).2 := by
  unfold muGet
  dsimp only
  split
  · exact onlyEngine_setCe _ _ _
  split
  · exact .refl n p
  split
  · exact onlyEngine_muRequest _ _ _ _ _ _ _ _
  · exact (logErr_only _ _ _).keepsEngines.only n
  split
  · split
    · exact (onlyEngine_setCe p n _).keeps (keepsEngines_addReg _ _ 1)
    split
    · exact (((onlyEngine_setCe p n _).keeps (keepsEngines_addReg _ _ 1)).keeps (keepsEngines_addReg _ _ 1)).trans
        (onlyEngine_l1Fill _ _ _ _ _ _)
    · exact onlyEngine_muRequest _ _ _ _ _ _ _ _
  · exact onlyEngine_muRequest _ _ _ _ _ _ _ _

theorem onlyEngine_muFault (p : Pkg) (n operand cause va : Nat) : OnlyEngine n p (muFault p n operand cause va) :=
  ((keepsEngines_logXlate p _ _ _ _).only n).trans (onlyEngine_stopWith _ _ _ _)

theorem onlyEngine_prefetchRun (p : Pkg) (d : MuArgs) (c : Cmd) (pos k : Nat) : OnlyEngine d.ce p (prefetchRun p d c pos k) := by
  induction k with
  | zero => exact .refl _ p
  | succ k ih =>
    unfold prefetchRun
    dsimp only
    split
    · split
      · split
        · exact ih
        · exact ih.trans (onlyEngine_prefetchLine _ _ _ _ _ _ _)
      · exact ih
    · exact ih

theorem onlyEngine_readAhead (d : MuArgs) (c : Cmd) (k fuel : Nat) (p : Pkg) : OnlyEngine d.ce p (readAhead d c k fuel p) := by
  induction fuel generalizing k p with
  | zero => exact .refl _ p
  | succ f ih =>
    unfold readAhead
    dsimp only
    split
    · exact .refl _ p
    split
    · exact .refl _ p
    · refine OnlyEngine.trans ?_ (ih _ _)
      split
      · exact .refl _ p
      · exact onlyEngine_muRequest _ _ _ _ _ _ _ _

theorem onlyEngine_readItem (d : MuArgs) (k : Nat) (p : Pkg) : OnlyEngine d.ce p (readItem d k p).2 := by
  unfold readItem
  dsimp only
  split
  · split
    · exact .refl _ p
    next x _ =>
      have hget := onlyEngine_muGet p d.ce d.mu (ceCmd p d.ce) x d.operand (muVa (ceCmd p d.ce) d k).toNat
      split
      next hq =>
        rw [hq] at hget
        exact hget.trans (onlyEngine_readAhead _ _ _ _ _)
      next hq =>
        rw [hq] at hget
        split
        · exact hget.trans (onlyEngine_stopWith _ _ _ _)
        · exact (hget.keeps (keepsEngines_addReg _ _ 1)).trans (onlyEngine_prefetchRun _ _ _ _ _)
  · exact onlyEngine_muFault _ _ _ _ _

theorem onlyEngine_offerLine (d : MuArgs) (item : Item) (p : Pkg) : OnlyEngine d.ce p (offerLine d item p).2 :=
  onlyEngine_setCe _ _ _

theorem onlyEngine_loadOne (d : MuArgs) (p : Pkg) : OnlyEngine d.ce p (loadOne d p).2 := by
  unfold loadOne
  split
  · have hread := onlyEngine_readItem d (mover (ce p d.ce) d.mu).pos p
    split
    next hq =>
      rw [hq] at hread
      exact hread.trans (onlyEngine_offerLine _ _ _)
    next hq =>
      rw [hq] at hread
      exact hread
  · exact .refl _ p

theorem onlyEngine_loadExactOne (d : MuArgs) (p : Pkg) : OnlyEngine d.ce p (loadExactOne d p).2 := by
  unfold loadExactOne
  extract_lets m first size
  split
  · split
    · have hread := onlyEngine_readItem d (first + m.raw.length) p
      split
      next hq =>
        rw [hq] at hread
        exact hread.setCe _
      next hq =>
        rw [hq] at hread
        exact hread
    split
    · exact onlyEngine_offerLine _ _ _
    · exact .refl _ p
  · exact .refl _ p

theorem onlyEngine_storeOne (op : Nat) (d : MuArgs) (p : Pkg) : OnlyEngine d.ce p (storeOne op d p).2 := by
  unfold storeOne
  dsimp only
  split
  · split
    · exact .refl _ p
    split
    · split
      · exact .refl _ p
      split
      · exact (onlyEngine_setCe p d.ce _).trans (onlyEngine_l1Drop _ _ _)
      · exact onlyEngine_muFault _ _ _ _ _
    · exact onlyEngine_muFault _ _ _ _ _
  · exact .refl _ p

theorem onlyEngine_doMuNop (d : MuArgs) (p : Pkg) : OnlyEngine d.ce p (doMuNop d p) := by
  unfold doMuNop
  split
  · exact onlyEngine_setCe _ _ _
  · exact .refl _ p

theorem onlyEngine_prefetchOne (d : MuArgs) (p : Pkg) : OnlyEngine d.ce p (prefetchOne d p).2 := by
  unfold prefetchOne
  dsimp only
  split
  · split
    · exact .refl _ p
    split
    · exact onlyEngine_muFault _ _ _ _ _
    · refine OnlyEngine.setCe ?_ _
      split
      · split
        · exact .refl _ p
        · exact onlyEngine_prefetchLine _ _ _ _ _ _ _
      · exact .refl _ p
  · exact .refl _ p

theorem onlyEngine_sideFill (p : Pkg) (n line : Nat) (data : Item) (poison : Bool) : OnlyEngine n p (sideFill p n line data poison) := by
  unfold sideFill
  dsimp only
  split
  · exact .refl n p
  split
  · exact onlyEngine_setCe _ _ _
  · exact (onlyEngine_setCe p n _).keeps (keepsEngines_addReg _ _ 1)

theorem onlyEngine_deliverLine (p : Pkg) (n line tag : Nat) (data : Item) (poison : Bool) :
    OnlyEngine n p (deliverLine p n line tag data poison) := by
  unfold deliverLine
  have hset (c : Ce) : OnlyEngine n p (setCe p n c) := onlyEngine_setCe p n c
  dsimp only
  split
  · exact .refl n p
  split
  · split
    · exact (hset _).trans (onlyEngine_sideFill _ _ _ _ _)
    · exact (hset _).keeps (keepsEngines_addReg _ _ 1)
  split
  · exact (hset _).trans (onlyEngine_l1Fill _ _ _ _ _ _)
  · exact hset _

theorem onlyEngine_doLineReturn (n line : Nat) (m : Memory) (p : Pkg) : OnlyEngine n p (doLineReturn n line m p) := by
  unfold doLineReturn
  split
  · exact .refl n p
  split
  · extract_lets p1
    have h1 : KeepsEngines p p1 := by
      unfold p1
      split
      · exact keepsEngines_countAccess _ _ _ _ _
      · exact .refl p
    next x _ _ =>
      have hread := h1.trans (keepsEngines_homeRead p1 (line * 64) x.cls x.hint none)
      split
      next hq =>
        rw [hq] at hread
        exact hread.only n
      next hq =>
        rw [hq] at hread
        exact ((hread.trans (keepsEngines_crossLine _ _ _ _)).only n).trans (onlyEngine_deliverLine _ _ _ _ _ _)
  · exact .refl n p

end Sys2Proof.Machine
end

section
/-! A command of one compute engine leaves the other engines: octets, the long store and the sequencer, and the proof of O6. -/

namespace Sys2Proof.Machine

/-! ## Octets -/

theorem onlyEngine_settleLatches (p : Pkg) (n : Nat) : OnlyEngine n p (settleLatches p n) := by
  unfold settleLatches
  split
  · exact .refl n p
  · exact onlyEngine_setCe _ _ _

theorem onlyEngine_drainMany (p : Pkg) (n oct mode u : Nat) (which : List (Nat × Nat)) :
    OnlyEngine n p (drainMany p n oct mode u which).2 := by
  unfold drainMany
  dsimp only
  split
  · exact onlyEngine_stopWith _ _ _ _
  · exact (onlyEngine_setCe p n _).keeps (keepsEngines_addReg _ _ _)

theorem onlyEngine_onCells (p : Pkg) (n oct : Nat) (f : SMap Cell → SMap Cell) : OnlyEngine n p (onCells p n oct f) :=
  onlyEngine_setCe _ _ _

theorem onlyEngine_passStep (n oct : Nat) (q : PassArgs) (p : Pkg) : OnlyEngine n p (passStep n oct q p).2 := by
  unfold passStep
  extract_lets c src o u top act ended
  have hended (r : Pkg) : OnlyEngine n r (ended r) := onlyEngine_setCe _ _ _
  have hcount (r : Pkg) (o : Octet) (w : Bool) (k : Nat) : OnlyEngine n r (countProducts (notePreemptMax r n) n o w k) :=
    ((keepsEngines_notePreemptMax r n).trans (keepsEngines_countProducts _ _ _ _ _)).only n
  split
  · exact .refl n p
  split
  · split
    · split
      · exact ((onlyEngine_onCells p n oct _).keeps (keepsEngines_addReg _ _ _)).trans (hended _)
      · have hdrain := onlyEngine_drainMany p n oct q.mode (u - 1) (act.map (fun a => (a, q.slotOf a)))
        split
        next hr =>
          rw [hr] at hdrain
          exact hdrain.trans (hended _)
        next => exact hdrain
    · refine OnlyEngine.trans ?_ (hended _)
      split
      · exact onlyEngine_onCells _ _ _ _
      · exact .refl n p
  split
  · split
    · exact .refl n p
    · exact onlyEngine_setCe _ _ _
  split
  · exact .refl n p
  split
  · exact .refl n p
  split
  · exact .refl n p
  dsimp only
  split
  · exact onlyEngine_stopWith _ _ _ _
  split
  · exact ((onlyEngine_setCe p n _).trans (hcount _ _ _ _)).trans (onlyEngine_drainMany _ _ _ _ _ _)
  · exact (onlyEngine_setCe p n _).trans (hcount _ _ _ _)

theorem onlyEngine_passRun (n oct : Nat) (q : PassArgs) (fuel : Nat) (p : Pkg) : OnlyEngine n p (passRun n oct q fuel p).2 := by
  induction fuel generalizing p with
  | zero => exact .refl n p
  | succ k ih =>
    have hstep := onlyEngine_passStep n oct q p
    unfold passRun
    split
    next hr =>
      rw [hr] at hstep
      exact hstep.trans (ih _)
    next => exact hstep

theorem onlyEngine_octNext (p : Pkg) (n oct : Nat) : OnlyEngine n p (octNext p n oct) := by
  unfold octNext
  dsimp only
  split <;> exact onlyEngine_setCe _ _ _

theorem onlyEngine_onOctet (p : Pkg) (n oct : Nat) (f : Octet → Octet) : OnlyEngine n p (onOctet p n oct f) :=
  onlyEngine_setCe _ _ _

theorem onlyEngine_doOctetNop (n oct : Nat) (p : Pkg) : OnlyEngine n p (doOctetNop n oct p) := by
  unfold doOctetNop
  split
  · exact onlyEngine_octNext _ _ _
  · exact .refl n p

theorem onlyEngine_doOctetFormat (n oct fa fb : Nat) (axis sharedA sharedB : Bool) (p : Pkg) :
    OnlyEngine n p (doOctetFormat n oct fa fb axis sharedA sharedB p) := by
  unfold doOctetFormat
  split
  · exact (onlyEngine_onOctet _ _ _ _).trans (onlyEngine_octNext _ _ _)
  · exact .refl n p

theorem onlyEngine_doOctetMask (n oct mask : Nat) (p : Pkg) : OnlyEngine n p (doOctetMask n oct mask p) := by
  unfold doOctetMask
  split
  · exact (onlyEngine_onOctet _ _ _ _).trans (onlyEngine_octNext _ _ _)
  · exact .refl n p

theorem onlyEngine_loadItem (n oct bank : Nat) (p : Pkg) : OnlyEngine n p (loadItem n oct bank p).2 := by
  unfold loadItem
  dsimp only
  split
  · exact .refl n p
  split <;> exact onlyEngine_setCe _ _ _

theorem onlyEngine_loadRun (n oct bank fuel : Nat) (p : Pkg) : OnlyEngine n p (loadRun n oct bank fuel p).2 := by
  induction fuel generalizing p with
  | zero => exact .refl n p
  | succ k ih =>
    have hitem := onlyEngine_loadItem n oct bank p
    unfold loadRun
    split
    next hr =>
      rw [hr] at hitem
      exact hitem.trans (ih _)
    next => exact hitem

theorem onlyEngine_doLoadSr (n oct bank : Nat) (p : Pkg) : OnlyEngine n p (doLoadSr n oct bank p) := by
  unfold doLoadSr
  dsimp only
  split
  · have hrun := onlyEngine_loadRun n oct bank 131 p
    split
    next hr =>
      rw [hr] at hrun
      exact hrun.trans (onlyEngine_octNext _ _ _)
    next hr =>
      rw [hr] at hrun
      exact hrun
  · exact .refl n p

theorem onlyEngine_doPass (n oct slot step bank : Nat) (drain : Bool) (len : Nat) (p : Pkg) :
    OnlyEngine n p (doPass n oct slot step bank drain len p) := by
  unfold doPass
  extract_lets q w
  split
  · have hrun := (onlyEngine_settleLatches p n).trans (onlyEngine_passRun n oct q (2 * len + 2) (settleLatches p n))
    split
    next hr =>
      rw [hr] at hrun
      exact hrun.trans (onlyEngine_octNext _ _ _)
    next hr =>
      rw [hr] at hrun
      exact hrun
  · exact .refl n p

theorem onlyEngine_octRoundDone (p : Pkg) (n oct total : Nat) : OnlyEngine n p (octRoundDone p n oct total).2 := by
  unfold octRoundDone
  dsimp only
  split
  · exact (onlyEngine_onOctet _ _ _ _).trans (onlyEngine_octNext _ _ _)
  · dsimp only
    exact onlyEngine_onOctet _ _ _ _

theorem onlyEngine_projectStep (n oct : Nat) (p : Pkg) : OnlyEngine n p (projectStep n oct p).2 := by
  unfold projectStep
  extract_lets c o k mode total wide free q t s
  split
  · exact .refl n p
  split
  · split
    · exact onlyEngine_octRoundDone _ _ _ _
    · have hstep := onlyEngine_passStep n oct q p
      split
      next hr =>
        rw [hr] at hstep
        exact hstep.trans (onlyEngine_octRoundDone _ _ _ _)
      next => exact hstep
  · split
    · exact onlyEngine_octRoundDone _ _ _ _
    split
    · have hitem := onlyEngine_loadItem n oct (o.tiles % 2) p
      split
      next hr =>
        rw [hr] at hitem
        dsimp only at hitem ⊢
        exact hitem.trans (onlyEngine_onOctet _ _ _ _)
      next => exact hitem
    · have hstep := onlyEngine_passStep n oct (projectPassSr k o wide free mode o.rounds t o.pass) p
      split
      next hr =>
        rw [hr] at hstep
        dsimp only at hstep ⊢
        exact hstep.trans (onlyEngine_onOctet _ _ _ _)
      next => exact hstep

theorem onlyEngine_projectRun (n oct fuel : Nat) (p : Pkg) : OnlyEngine n p (projectRun n oct fuel p) := by
  induction fuel generalizing p with
  | zero => exact .refl n p
  | succ k ih =>
    have hstep := onlyEngine_projectStep n oct p
    unfold projectRun
    split
    next hr =>
      rw [hr] at hstep
      exact hstep.trans (ih _)
    next hr =>
      rw [hr] at hstep
      exact hstep

theorem onlyEngine_doProject (n oct : Nat) (p : Pkg) : OnlyEngine n p (doProject n oct p) := by
  unfold doProject
  split
  · exact (onlyEngine_settleLatches p n).trans (onlyEngine_projectRun _ _ _ _)
  · exact .refl n p

theorem onlyEngine_doDrainIntervalExpiry (n array : Nat) (p : Pkg) : OnlyEngine n p (doDrainIntervalExpiry n array p) := by
  unfold doDrainIntervalExpiry
  dsimp only
  split
  · exact onlyEngine_drainMany _ _ _ _ _ _
  · exact .refl n p

theorem onlyEngine_doFeedStallStop (n oct : Nat) (p : Pkg) : OnlyEngine n p (doFeedStallStop n oct p) := by
  unfold doFeedStallStop
  split
  · exact onlyEngine_onOctet _ _ _ _
  · exact .refl n p

theorem onlyEngine_doFeedRestart (n oct : Nat) (p : Pkg) : OnlyEngine n p (doFeedRestart n oct p) := by
  unfold doFeedRestart
  split
  · exact onlyEngine_onOctet _ _ _ _
  · exact .refl n p

/-! ## The long store -/

theorem onlyEngine_lsNext (p : Pkg) (n : Nat) : OnlyEngine n p (lsNext p n) := by
  unfold lsNext
  dsimp only
  split <;> exact onlyEngine_setCe _ _ _

theorem onlyEngine_doLsNop (n : Nat) (p : Pkg) : OnlyEngine n p (doLsNop n p) := by
  unfold doLsNop
  split
  · exact onlyEngine_lsNext _ _
  · exact .refl n p

theorem onlyEngine_doOutfmt (n fmt rounding : Nat) (sat : Bool) (shift : Int) (p : Pkg) :
    OnlyEngine n p (doOutfmt n fmt rounding sat shift p) := by
  unfold doOutfmt
  split
  · exact (onlyEngine_setCe _ _ _).trans (onlyEngine_lsNext _ _)
  · exact .refl n p

theorem onlyEngine_emitItem (n port : Nat) (exact' pair : Bool) (at' : Nat → Nat × Nat) (total : Nat) (p : Pkg) :
    OnlyEngine n p (emitItem n port exact' pair at' total p).2 := by
  unfold emitItem
  dsimp only
  split
  · exact .refl n p
  split
  · exact (onlyEngine_setCe p n _).keeps (keepsEngines_addReg _ _ _)
  · exact .refl n p

theorem onlyEngine_emitRun (n port : Nat) (exact' pair : Bool) (at' : Nat → Nat × Nat) (total fuel : Nat) (p : Pkg) :
    OnlyEngine n p (emitRun n port exact' pair at' total fuel p).2 := by
  induction fuel generalizing p with
  | zero => exact .refl n p
  | succ k ih =>
    have hitem := onlyEngine_emitItem n port exact' pair at' total p
    unfold emitRun
    split
    next hr =>
      rw [hr] at hitem
      exact hitem.trans (ih _)
    next => exact hitem

theorem onlyEngine_doEmit (n port : Nat) (exact' : Bool) (first count : Nat) (pair : Bool) (p : Pkg) :
    OnlyEngine n p (doEmit n port exact' first count pair p) := by
  unfold doEmit
  extract_lets w e
  split
  · have hrun := (onlyEngine_settleLatches p n).trans (onlyEngine_emitRun n port exact' pair
      (fun k => (64 * first + k, 4096 * e + (64 * first + k))) (64 * count) 5200 (settleLatches p n))
    split
    next hr =>
      rw [hr] at hrun
      exact (hrun.setCe _).trans (onlyEngine_lsNext _ _)
    next hr =>
      rw [hr] at hrun
      exact hrun
  · exact .refl n p

theorem onlyEngine_acceptRun (n port first total fuel : Nat) (p : Pkg) : OnlyEngine n p (acceptRun n port first total fuel p).2 := by
  induction fuel generalizing p with
  | zero => exact .refl n p
  | succ k ih =>
    unfold acceptRun
    dsimp only
    split
    · exact .refl n p
    split
    · exact (onlyEngine_setCe _ _ _).trans (ih _)
    split
    · exact .refl n p
    · exact (onlyEngine_setCe _ _ _).trans (ih _)

theorem onlyEngine_doAccept (n port first count : Nat) (p : Pkg) : OnlyEngine n p (doAccept n port first count p) := by
  unfold doAccept
  split
  · have hrun := (onlyEngine_settleLatches p n).trans
      (onlyEngine_acceptRun n port first (64 * count) 9300 (settleLatches p n))
    split
    next hr =>
      rw [hr] at hrun
      exact hrun.trans (onlyEngine_lsNext _ _)
    next hr =>
      rw [hr] at hrun
      exact hrun
  · exact .refl n p

theorem onlyEngine_doLsClear (n first count : Nat) (p : Pkg) : OnlyEngine n p (doLsClear n first count p) := by
  unfold doLsClear
  split
  · exact (onlyEngine_setCe _ _ _).trans (onlyEngine_lsNext _ _)
  · exact .refl n p

theorem onlyEngine_autoRun (n port : Nat) (exact' pair : Bool) (fuel : Nat) (p : Pkg) :
    OnlyEngine n p (autoRun n port exact' pair fuel p) := by
  induction fuel generalizing p with
  | zero => exact .refl n p
  | succ k ih =>
    unfold autoRun
    extract_lets c x mode r slots
    split
    · exact onlyEngine_lsNext _ _
    split
    · have hrun := onlyEngine_emitRun n port exact' pair (autoAt x slots) (64 * slots.length) 5200 p
      split
      next hr =>
        rw [hr] at hrun
        exact (hrun.setCe _).trans (ih _)
      next hr =>
        rw [hr] at hrun
        exact hrun
    · exact .refl n p

theorem onlyEngine_doLsAuto (n port : Nat) (exact' pair : Bool) (p : Pkg) : OnlyEngine n p (doLsAuto n port exact' pair p) := by
  unfold doLsAuto
  split
  · exact (onlyEngine_settleLatches p n).trans (onlyEngine_autoRun _ _ _ _ _ _)
  · exact .refl n p

/-! ## The sequencer's words -/

theorem onlyEngine_sqNext (p : Pkg) (n : Nat) : OnlyEngine n p (sqNext p n) := onlyEngine_setCe _ _ _

theorem onlyEngine_passMark (p : Pkg) (n : Nat) : OnlyEngine n p (passMark p n) :=
  (onlyEngine_setCe p n _).trans (onlyEngine_sqNext _ _)

theorem onlyEngine_l1Clear (p : Pkg) (n : Nat) : OnlyEngine n p (l1Clear p n) := onlyEngine_setCe _ _ _

theorem onlyEngine_closePackets (p : Pkg) (n : Nat) : OnlyEngine n p (closePackets p n) := onlyEngine_setCe _ _ _

theorem onlyEngine_doSqNop (n : Nat) (p : Pkg) : OnlyEngine n p (doSqNop n p) := by
  unfold doSqNop
  split
  · exact onlyEngine_sqNext _ _
  · exact .refl n p

theorem onlyEngine_doSqPhase (n phase : Nat) (p : Pkg) : OnlyEngine n p (doSqPhase n phase p) := by
  unfold doSqPhase
  dsimp only
  split
  · exact (onlyEngine_setCe p n _).trans (onlyEngine_sqNext _ _)
  · exact .refl n p

theorem onlyEngine_doSqLoop (n target count : Nat) (p : Pkg) : OnlyEngine n p (doSqLoop n target count p) := by
  unfold doSqLoop
  dsimp only
  split
  · split
    · exact onlyEngine_setCe _ _ _
    · exact (onlyEngine_setCe p n _).trans (onlyEngine_sqNext _ _)
  · exact .refl n p

theorem onlyEngine_doWaitIdle (n : Nat) (p : Pkg) : OnlyEngine n p (doWaitIdle n p) := by
  unfold doWaitIdle
  split
  · exact onlyEngine_passMark _ _
  · exact .refl n p

theorem onlyEngine_doLoadBarrier (n : Nat) (p : Pkg) : OnlyEngine n p (doLoadBarrier n p) := by
  unfold doLoadBarrier
  split
  · exact (onlyEngine_l1Clear p n).trans (onlyEngine_passMark _ _)
  · exact .refl n p

theorem onlyEngine_doStoreBarrier (n : Nat) (p : Pkg) : OnlyEngine n p (doStoreBarrier n p) := by
  unfold doStoreBarrier
  split
  · dsimp only
    split
    · exact (onlyEngine_closePackets p n).trans (onlyEngine_passMark _ _)
    · exact onlyEngine_closePackets p n
  · exact .refl n p

theorem onlyEngine_doFullBarrier (n : Nat) (p : Pkg) : OnlyEngine n p (doFullBarrier n p) := by
  unfold doFullBarrier
  split
  · dsimp only
    split
    · exact ((onlyEngine_closePackets p n).trans (onlyEngine_l1Clear _ _)).trans (onlyEngine_passMark _ _)
    · exact onlyEngine_closePackets p n
  · exact .refl n p

theorem onlyEngine_passFold (p : Pkg) (n : Nat) (stops : Bool) : OnlyEngine n p (passFold p n stops) := by
  have hcount (c : Cmd) (id sub arg : Nat) : OnlyEngine n p (waypoint (setCmd (addReg (bumpReg p (ceFold n) 1 0xFFFFFFFF)
      (key (pgCe n) 0x388) 1) id c) (pgCe n) 0x12 sub arg) := by
    refine KeepsEngines.only (KeepsEngines.trans ?_ (waypoint_only _ _ _ _ _).keepsEngines) n
    exact ⟨rfl, rfl, rfl, rfl, rfl⟩
  unfold passFold
  split
  · dsimp only
    split
    · exact (hcount _ _ _ _).setCe _
    · exact hcount _ _ _ _
  · exact .refl n p

theorem onlyEngine_doRoundEnd (n : Nat) (p : Pkg) : OnlyEngine n p (doRoundEnd n p) := by
  unfold doRoundEnd
  dsimp only
  split
  · exact ((onlyEngine_settleLatches p n).setCe _).trans (onlyEngine_passFold _ _ _)
  · exact .refl n p

/-! ## O6 -/

/-- What a command of CE n answers: a state in which of all engines only CE n changed. -/
theorem exec_onlyEngine {c : Instr} {n : Nat} (h : engineOf c = some n) (s : State) :
    ∃ f, exec c s = .next (s.onPkg f) ∧ OnlyEngine n s.pkg (f s.pkg) := by
  cases c with
  | agDescriptor d => cases h; exact ⟨_, rfl, onlyEngine_iterate (onlyEngine_agOne d) _ _⟩
  | muNop d => cases h; exact ⟨_, rfl, onlyEngine_doMuNop _ _⟩
  | load d => cases h; exact ⟨_, rfl, onlyEngine_iterate (onlyEngine_loadOne d) _ _⟩
  | store d => cases h; exact ⟨_, rfl, onlyEngine_iterate (onlyEngine_storeOne _ d) _ _⟩
  | loadExact d => cases h; exact ⟨_, rfl, onlyEngine_iterate (onlyEngine_loadExactOne d) _ _⟩
  | storeExact d => cases h; exact ⟨_, rfl, onlyEngine_iterate (onlyEngine_storeOne _ d) _ _⟩
  | prefetch d => cases h; exact ⟨_, rfl, onlyEngine_iterate (onlyEngine_prefetchOne d) _ _⟩
  | sqNop => cases h; exact ⟨_, rfl, onlyEngine_doSqNop _ _⟩
  | sqPhase => cases h; exact ⟨_, rfl, onlyEngine_doSqPhase _ _ _⟩
  | sqLoop => cases h; exact ⟨_, rfl, onlyEngine_doSqLoop _ _ _ _⟩
  | loadBarrier => cases h; exact ⟨_, rfl, onlyEngine_doLoadBarrier _ _⟩
  | storeBarrier => cases h; exact ⟨_, rfl, onlyEngine_doStoreBarrier _ _⟩
  | fullBarrier => cases h; exact ⟨_, rfl, onlyEngine_doFullBarrier _ _⟩
  | waitIdle => cases h; exact ⟨_, rfl, onlyEngine_doWaitIdle _ _⟩
  | octetNop => cases h; exact ⟨_, rfl, onlyEngine_doOctetNop _ _ _⟩
  | octetFormat => cases h; exact ⟨_, rfl, onlyEngine_doOctetFormat _ _ _ _ _ _ _ _⟩
  | project => cases h; exact ⟨_, rfl, onlyEngine_doProject _ _ _⟩
  | loadSr => cases h; exact ⟨_, rfl, onlyEngine_doLoadSr _ _ _ _⟩
  | pass => cases h; exact ⟨_, rfl, onlyEngine_doPass _ _ _ _ _ _ _ _⟩
  | octetMask => cases h; exact ⟨_, rfl, onlyEngine_doOctetMask _ _ _ _⟩
  | drainIntervalExpiry => cases h; exact ⟨_, rfl, onlyEngine_doDrainIntervalExpiry _ _ _⟩
  | feedStallStop => cases h; exact ⟨_, rfl, onlyEngine_doFeedStallStop _ _ _⟩
  | feedRestart => cases h; exact ⟨_, rfl, onlyEngine_doFeedRestart _ _ _⟩
  | roundEnd => cases h; exact ⟨_, rfl, onlyEngine_doRoundEnd _ _⟩
  | lsNop => cases h; exact ⟨_, rfl, onlyEngine_doLsNop _ _⟩
  | outfmt => cases h; exact ⟨_, rfl, onlyEngine_doOutfmt _ _ _ _ _ _⟩
  | emit => cases h; exact ⟨_, rfl, onlyEngine_doEmit _ _ _ _ _ _ _⟩
  | accept => cases h; exact ⟨_, rfl, onlyEngine_doAccept _ _ _ _ _⟩
  | lsClear => cases h; exact ⟨_, rfl, onlyEngine_doLsClear _ _ _ _⟩
  | lsAuto => cases h; exact ⟨_, rfl, onlyEngine_doLsAuto _ _ _ _ _⟩
  | lineReturn => cases h; exact ⟨_, rfl, onlyEngine_doLineReturn _ _ _ _⟩
  | vuNop | vuAdd | vuSub | vuMul | vuFma | vuFms | vuMin | vuMax | vuAbs | vuNeg | vuRcp | vuRsqrt | vuSqrt | vuExp2 | vuLog2
  | vuTanh | vuSigmoid | vuGelu | vuSilu | vuSinpi | vuCospi | vuLdexp | vuCmplt | vuCmple | vuCmpeq | vuSel | vuCvtBf16
  | vuCvtFp16 | vuCvtFp8 | vuCvtFp4 | vuCvtInt8 | vuCvtI2f | vuCvtF2i | vuWiden | vuMxscale | vuRsum | vuRmax | vuRmin | vuMov
  | vuBcast | vuShuf | vuPack | vuUnpack | vuIadd | vuImul | vuAnd | vuOr | vuXor | vuShl | vuShr =>
    cases h
    exact ⟨_, rfl, onlyEngine_vuRun _ _ _ _⟩
  | _ => exact nomatch h

/-- Settles O6: every operation of a CE's units changes that CE alone among the engines. -/
theorem commandsOfOneEngineLeaveTheOthers : Obligations.CommandsOfOneEngineLeaveTheOthers := by
  unfold Obligations.CommandsOfOneEngineLeaveTheOthers
  intro c n s t hc ht
  obtain ⟨f, hf, hothers, hfuse, hboot, hseq, hpace⟩ := exec_onlyEngine hc s
  rw [hf] at ht
  cases ht
  exact ⟨hothers, hfuse, hboot, hseq, hpace⟩

end Sys2Proof.Machine
end

section
/-! TAP instructions (R703), the package attention button (R719) and the power loss (R671): the proofs of O58, O59 and O54. -/

namespace Sys2Proof.Machine

/-! ## TAP instructions -/

theorem execTap_holds (s : State) {die : Nat} (op : Nat) (h : die < 6) :
    s.onPkg (doTap die op) = { s with pkg := { s.pkg with tapIr := (s.onPkg (doTap die op)).pkg.tapIr } } ∧
      tapHeld (s.onPkg (doTap die op)).pkg die = tapOpcode s.pkg die op := by
  have hd : doTap die op s.pkg = { s.pkg with tapIr := SMap.set s.pkg.tapIr die (tapOpcode s.pkg die op) } := if_pos h
  rw [State.onPkg_pkg, hd]
  refine ⟨?_, SMap.get_set_self _ _ _ _⟩
  rw [State.onPkg, hd]

/-- The instructions of Table 20-8's first four rows are held under DEBUG_LOCK too. -/
theorem tapOpcode_open (p : Pkg) (die : Nat) {op : Nat} (h : op = 0xFF ∨ op = 0x01 ∨ op = 0x02 ∨ op = 0x00) :
    tapOpcode p die op = op := if_pos h

theorem tapOpcode_locked (p : Pkg) (die : Nat) {op : Nat} (hopen : ¬ (op = 0xFF ∨ op = 0x01 ∨ op = 0x02 ∨ op = 0x00))
    (hlisted : op = 0x03 ∨ op = 0x04 ∨ (0x10 ≤ op ∧ op ≤ 0x17) ∨ (op = 0x18 ∧ die < 4) ∨ (0x20 ≤ op ∧ op ≤ 0xFE)) :
    tapOpcode p die op = if p.fuse.debugLock then 0xFF else op := by
  rw [tapOpcode, if_neg hopen, if_pos hlisted]

theorem tapOpcode_unlisted (p : Pkg) (die : Nat) {op : Nat} (hopen : ¬ (op = 0xFF ∨ op = 0x01 ∨ op = 0x02 ∨ op = 0x00))
    (hlisted : ¬ (op = 0x03 ∨ op = 0x04 ∨ (0x10 ≤ op ∧ op ≤ 0x17) ∨ (op = 0x18 ∧ die < 4) ∨ (0x20 ≤ op ∧ op ≤ 0xFE))) :
    tapOpcode p die op = 0xFF := by
  rw [tapOpcode, if_neg hopen, if_neg hlisted, ite_self]

/-- Settles O58, by what `doTap` holds for each instruction. -/
theorem tapInstructionsSelectTheirRegisters : Obligations.TapInstructionsSelectTheirRegisters := by
  unfold Obligations.TapInstructionsSelectTheirRegisters
  refine ⟨fun s die c op hdie hc => ?_, fun s die k c op hdie hk hc => ?_, fun p die op hop hrange => ?_, fun die => ?_,
    fun die hdie op hop => ?_⟩
  · have held (op' : Nat) (hopen : op' = 0xFF ∨ op' = 0x01 ∨ op' = 0x02 ∨ op' = 0x00) := by
      have h := execTap_holds s op' hdie
      rw [tapOpcode_open _ _ hopen] at h
      exact h
    simp only [List.mem_cons, Prod.mk.injEq, List.not_mem_nil, or_false] at hc
    obtain ⟨rfl, rfl⟩ | ⟨rfl, rfl⟩ | ⟨rfl, rfl⟩ | ⟨rfl, rfl⟩ := hc <;> exact ⟨_, rfl, held _ (by decide)⟩
  · have held (op' : Nat) (hopen : ¬ (op' = 0xFF ∨ op' = 0x01 ∨ op' = 0x02 ∨ op' = 0x00))
        (hlisted : op' = 0x03 ∨ op' = 0x04 ∨ (0x10 ≤ op' ∧ op' ≤ 0x17) ∨ (op' = 0x18 ∧ die < 4) ∨ (0x20 ≤ op' ∧ op' ≤ 0xFE)) := by
      have h := execTap_holds s op' hdie
      rw [tapOpcode_locked _ _ hopen hlisted] at h
      exact h
    simp only [List.mem_cons, Prod.mk.injEq, List.not_mem_nil, or_false] at hc
    obtain ⟨rfl, rfl⟩ | ⟨rfl, rfl⟩ | ⟨rfl, rfl⟩ | ⟨rfl, rfl⟩ := hc
    · exact ⟨_, rfl, held 0x03 (by decide) (.inl rfl)⟩
    · exact ⟨_, rfl, held 0x04 (by decide) (.inr (.inl rfl))⟩
    · have hk8 : k % 8 = k := Nat.mod_eq_of_lt hk
      have h := held (0x10 + k % 8) (by omega) (by omega)
      rw [hk8] at h
      refine ⟨s.onPkg (doTap die (0x10 + k)), ?_, h⟩
      show execTapWrapper die k s = _
      rw [execTapWrapper, hk8]
    · refine ⟨_, rfl, ?_⟩
      by_cases h4 : die < 4
      · rw [if_pos h4]
        exact held 0x18 (by decide) (by omega)
      · have h := execTap_holds s 0x18 hdie
        rw [tapOpcode_unlisted _ _ (by decide) (by omega)] at h
        rw [if_neg h4, ite_self]
        exact h
  · simp only [List.mem_cons, List.not_mem_nil, or_false, not_or] at hop
    exact tapOpcode_unlisted p die (by omega) (by omega)
  · exact ⟨rfl, rfl, rfl, rfl⟩
  · have hne5 : die ≠ 5 := by omega
    have hne4 : die ≠ 4 := by omega
    obtain rfl | rfl := hop <;> simp [tapLength, hne5, hne4]

/-! ## The package attention button -/

theorem Queue.overwrite_nextSeq (q : Queue) : q.overwrite.nextSeq = q.nextSeq := by
  unfold Queue.overwrite
  split
  · rfl
  · split <;> rfl

/-- A queue that keeps the newest item takes a record as its newest, the sequence number in the record's first word. -/
theorem Queue.push_newest_last (q : Queue) (cap : Nat) (w x : W64) : ∃ rest,
    (q.push cap true [w, x] true).items = rest ++ [(q.nextSeq, [withBits w 15 0 q.nextSeq, x])] := by
  by_cases h : q.items.length < cap
  · rw [Queue.push_room h]
    exact ⟨_, rfl⟩
  · rw [Queue.push_newest (Nat.not_lt.1 h), Queue.add, Queue.overwrite_nextSeq]
    exact ⟨_, rfl⟩

/-- The first word of a waypoint record, its sequence number not yet in it (Table 20-1). -/
def waypointWord (event sub arg : Nat) : W64 :=
  BitVec.ofNat 64 (event % 256 * 2 ^ 48 + arg % 65536 * 2 ^ 32 + sub % 65536 * 2 ^ 16)

theorem waypointWord_event (event sub arg seq : Nat) : bitsOf (withBits (waypointWord event sub arg) 15 0 seq) 55 48 = event % 256 := by
  rw [bitsOf_withBits_ne _ _ _ _ _ _ (by decide) (by decide) (by decide) (by decide)]
  simp only [bitsOf, waypointWord, BitVec.toNat_ofNat, Nat.shiftRight_eq_div_pow]
  omega

/-- A waypoint is its queue's newest item: its event, and the datum of the push. -/
theorem waypoint_pushed (p : Pkg) (pg event sub arg : Nat) : ∃ w, bitsOf w 55 48 = event % 256 ∧ ∃ rest,
    (queue (waypoint p pg event sub arg) (key (firstPage pg) 0x30)).items =
      rest ++ [((queue p (key (firstPage pg) 0x30)).nextSeq, [w, BitVec.ofNat 64 (p.pace.datum % 2 ^ 62)])] := by
  have hkey : key (firstPage pg) 0x30 % 0x1000 = 0x30 := by simp only [key]; omega
  refine ⟨withBits (waypointWord event sub arg) 15 0 (queue p (key (firstPage pg) 0x30)).nextSeq, waypointWord_event _ _ _ _, ?_⟩
  rw [waypoint, pushQueue, queue_setQueue_self, hkey]
  exact Queue.push_newest_last _ _ _ _

theorem queue_waypoint_ne (p : Pkg) (pg event sub arg : Nat) {k : Nat} (h : k ≠ key (firstPage pg) 0x30) :
    queue (waypoint p pg event sub arg) k = queue p k := SMap.get_set_ne _ _ _ h

theorem OnlyInt.queue_eq {p q : Pkg} (h : OnlyInt p q) (k : Nat) : queue q k = queue p k := by
  obtain ⟨a, b, c, rfl⟩ := h
  rfl

theorem OnlyInt.datum_eq {p q : Pkg} (h : OnlyInt p q) : q.pace.datum = p.pace.datum := by rw [h.log.pace_eq]

theorem bitOf_or (x y : W64) (n : Nat) : bitOf (x ||| y) n = (bitOf x n || bitOf y n) := by
  simp only [bitOf_eq_getLsbD, BitVec.getLsbD_or]

/-- A bit that an interrupt raises is pending. -/
theorem raise_pends (p : Pkg) (pg : Nat) {bits : W64} {n : Nat} (h : bitOf bits n = true) :
    bit (raise p pg bits) (key pg 0x20) n = true := by
  have hne : key pg 0x20 ≠ key pg 0x24 := by simp only [key]; omega
  have hreg : reg (raise p pg bits) (key pg 0x20) = reg p (key pg 0x20) ||| bits := by
    unfold raise setInt
    dsimp only
    split
    · rw [deliver_reg, reg_setReg_ne _ _ hne, reg_setReg_self]
    · rw [reg_setReg_ne _ _ hne, reg_setReg_self]
  rw [bit, hreg, bitOf_or, h, Bool.or_true]

/-- What an interrupt changes of the registers: the pending bits of its page. -/
theorem raise_reg_ne (p : Pkg) (pg : Nat) (bits : W64) {k : Nat} (h : k ≠ key pg 0x20) : reg (raise p pg bits) k = reg p k := by
  by_cases h24 : k = key pg 0x24
  · unfold raise setInt
    dsimp only
    subst h24
    split
    · rw [deliver_reg, reg_setReg_self]
    · exact reg_setReg_self _ _ _
  · exact raise_reg p pg bits h h24

/-- A press that is seen: the press is counted and BLOCK bit 0 raised, before its waypoint. -/
def pressCounted (p : Pkg) : Pkg := raiseBlock (bumpReg p (key pgOps 0x108) 1 0xFFFFFFFF) pgOps 0

theorem pressCounted_only (p : Pkg) : OnlyInt p (pressCounted p) := (bumpReg_only _ _ _ _).trans (raiseBlock_only _ _ _)

theorem pressCounted_reg (p : Pkg) {k : Nat} (h20 : k ≠ key pgOps 0x20) : reg (pressCounted p) k =
    reg (bumpReg p (key pgOps 0x108) 1 0xFFFFFFFF) k := raise_reg_ne _ _ _ h20

/-- The package after a press that is seen. -/
def pressed (p : Pkg) : Pkg := nextFree (waypoint (pressCounted p) pgOps 0x07 0 ((Config.freeWord p.free).toNat % 65536))

theorem reg_nextFree (p : Pkg) (k : Nat) : reg (nextFree p) k = reg p k := reg_congr rfl rfl rfl k

theorem queue_nextFree (p : Pkg) (k : Nat) : queue (nextFree p) k = queue p k := rfl

theorem reg_pressed (p : Pkg) (k : Nat) : reg (pressed p) k = reg (pressCounted p) k := by
  rw [pressed, reg_nextFree, waypoint_reg]

theorem queue_pressed_ne (p : Pkg) {k : Nat} (h : k ≠ key pgOps 0x30) : queue (pressed p) k = queue p k := by
  have hpage : firstPage pgOps = pgOps := by decide
  rw [pressed, queue_nextFree, queue_waypoint_ne _ _ _ _ _ (by rw [hpage]; exact h), (pressCounted_only p).queue_eq]

theorem pressed_waypoint (p : Pkg) : ∃ w, bitsOf w 55 48 = 0x07 ∧ ∃ rest, (queue (pressed p) (key pgOps 0x30)).items =
    rest ++ [((queue p (key pgOps 0x30)).nextSeq, [w, BitVec.ofNat 64 (p.pace.datum % 2 ^ 62)])] := by
  have hpush := waypoint_pushed (pressCounted p) pgOps 0x07 0 ((Config.freeWord p.free).toNat % 65536)
  have hpage : firstPage pgOps = pgOps := by decide
  rw [(pressCounted_only p).queue_eq, (pressCounted_only p).datum_eq, hpage] at hpush
  rw [pressed, queue_nextFree]
  exact hpush

theorem pressed_only (p : Pkg) : pressed p = { p with
    regs := (pressed p).regs, queues := (pressed p).queues, out := (pressed p).out, int := (pressed p).int,
    free := (pressed p).free } := by
  obtain ⟨r, o, i, hq⟩ := pressCounted_only p
  unfold pressed
  rw [hq]
  rfl

/-- Settles O59: a press that is seen counts, raises its bit and leaves a waypoint; one under SGPIO_FAULT does nothing. -/
theorem aPressOfThePackageButtonOnlyCountsAndSignals : Obligations.APressOfThePackageButtonOnlyCountsAndSignals := by
  unfold Obligations.APressOfThePackageButtonOnlyCountsAndSignals
  intro s hs
  refine ⟨fun hf => ⟨s.onPkg pressed, ?_, rfl, ?_, ?_, fun k h108 h20 => ?_, pressed_waypoint s.pkg, fun k => queue_pressed_ne s.pkg,
    pressed_only s.pkg⟩, fun hf => ?_⟩
  · have hseen : (s.pkg.boot.started && !bit s.pkg opsStatus 31) = true := by simp [hs, hf]
    have hpress : doPkgButtonPress s.pkg = pressed s.pkg := if_pos hseen
    exact congrArg (fun q => Host.Outcome.next { s with pkg := q }) hpress
  · rw [State.onPkg_pkg, regN, reg_pressed, pressCounted_reg _ (by decide)]
    exact regN_bumpReg _ _
  · rw [State.onPkg_pkg, bit_congr (reg_pressed _ _)]
    exact raise_pends _ _ (by decide)
  · rw [State.onPkg_pkg, reg_pressed, pressCounted_reg _ h20]
    exact reg_setReg_ne _ _ h108
  · have hseen : ¬ (s.pkg.boot.started && !bit s.pkg opsStatus 31) = true := by simp [hf]
    have hpress : doPkgButtonPress s.pkg = s.pkg := if_neg hseen
    exact congrArg (fun q => Host.Outcome.next { s with pkg := q }) hpress

end Sys2Proof.Machine
end

section
/-! A power loss keeps the field book, boot flash and fuses alone (spec/19 R671): the proof of O54. -/

namespace Sys2Proof.Machine

/-! ## The field book's service, cut short -/

/-- What is left of the fuses f when the power goes: a record that was being written joins the field book or does not. -/
structure CutFrom (f g : FuseSt) : Prop where
  entries : f.entries <+: g.entries
  idle : f.serving = false → g = { f with requests := [] }
  rest : g = { f with entries := g.entries, requests := [], serving := false, unfinished := g.unfinished }

/-- Nothing is written where nothing is served. -/
theorem cutFrom_dropped (f : FuseSt) : CutFrom f { f with requests := [], serving := false } := by
  refine ⟨List.prefix_rfl, fun h => ?_, rfl⟩
  rw [← h]

theorem fbCut_cuts (p : Pkg) : ∃ f n, fbCut p = { p with fuse := f, free := n } ∧ CutFrom p.fuse f := by
  unfold fbCut
  split
  next hserving =>
    refine ⟨_, _, rfl, ?_⟩
    have hidle : p.fuse.serving = false → False := by simp [hserving]
    split
    · exact cutFrom_dropped _
    split
    · exact ⟨List.prefix_append _ _, fun h => (hidle h).elim, rfl⟩
    · exact ⟨List.prefix_append _ _, fun h => (hidle h).elim, rfl⟩
  next => exact ⟨_, p.free, rfl, cutFrom_dropped _⟩

/-! ## The sequencer's status at a cold start (R661) -/

theorem svSeq_setReady (p : Pkg) (pg : Nat) (b : Bool) : reg (setReady p pg b) svSeq = reg p svSeq :=
  setReady_reg_off p pg b pgSv (by decide) (by decide)

theorem svSeq_setOwner (p : Pkg) (pg o : Nat) : reg (setOwner p pg o) svSeq = reg p svSeq := by
  unfold setOwner
  dsimp only
  split
  · rfl
  · have h8 : svSeq ≠ key pg 8 := by simp only [svSeq, key]; omega
    rw [waypoint_reg, svSeq, raise_reg_off _ _ _ _ (by decide) (by decide), ← svSeq, reg_setFld_ne _ _ _ _ h8]

theorem svSeq_surveyorUp (p : Pkg) : reg (surveyorUp p) svSeq = reg p svSeq := by
  have hpages (l : List Nat) (q : Pkg) : reg (l.foldl (fun q pg => setReady q pg true) q) svSeq = reg q svSeq := by
    induction l generalizing q with
    | nil => rfl
    | cons a l ih => exact (ih _).trans (svSeq_setReady _ _ _)
  unfold surveyorUp
  dsimp only
  split
  · rw [svSeq_setOwner, svSeq_setOwner, hpages]
    exact reg_setPace _ _ _
  · rw [svSeq_setOwner, svSeq_setOwner, svSeq_setOwner, hpages]
    exact reg_setPace _ _ _

theorem svSeq_withBoot (p : Pkg) (b : BootSt) : reg { p with boot := b } svSeq = reg p svSeq := reg_congr rfl rfl rfl _

theorem svSeq_withFuse (p : Pkg) (f : FuseSt) : reg { p with fuse := f } svSeq = reg p svSeq :=
  reg_congr_unfused rfl rfl (by decide)

theorem svSeq_fbEnd (p : Pkg) {r : FbReq} (reject entry : Nat) (h : r.mbox = 0) : reg (fbEnd p r reject entry) svSeq = reg p svSeq := by
  simp only [fbEnd, h, if_true]
  rw [svSeq_withFuse, raiseBlock_reg _ _ _ (by decide) (by decide), reg_setReg_ne _ _ (by decide)]

theorem svSeq_fbServe_one {p : Pkg} {r : FbReq} {rest : List FbReq} (hp : p.fuse.requests = r :: rest) (hm : r.mbox = 0)
    (h3 : r.setting ≠ 3) (h4 : r.setting ≠ 4) : reg (fbServe 1 p) svSeq = reg p svSeq := by
  unfold fbServe
  simp only [hp]
  split
  · rw [fbRejected_eq_self _ _ h3 h4, fbServe, svSeq_fbEnd _ _ _ hm]
  · rw [fbServe, svSeq_fbEnd _ _ _ hm]
  · split
    · rfl
    · rw [setBit, setBit, reg_setFld_ne _ _ _ _ (by decide), reg_setFld_ne _ _ _ _ (by decide), svSeq_withFuse]

theorem svSeq_surveyorRequest (p : Pkg) {setting : Nat} (reason inst value : Nat) (h3 : setting ≠ 3) (h4 : setting ≠ 4) :
    reg (surveyorRequest p setting reason inst value) svSeq = reg p svSeq := by
  have hset : reg (setReg p fbAttribute 0x100) svSeq = reg p svSeq := reg_setReg_ne _ _ (by decide)
  unfold surveyorRequest fbEnqueue
  dsimp only
  split
  next h =>
    obtain ⟨hempty, -⟩ := Bool.and_eq_true_iff.1 h
    have hnil := List.isEmpty_iff.1 hempty
    refine (svSeq_fbServe_one (r := ⟨setting, 1, reason, inst, value, 0⟩) (rest := []) ?_ rfl h3 h4).trans
      ((svSeq_withFuse _ _).trans hset)
    simp only [hnil, List.nil_append]
  next => exact (svSeq_withFuse _ _).trans hset

theorem svSeq_keyRequests (p : Pkg) (img : ImageInfo) : reg (keyRequests p img) svSeq = reg p svSeq := by
  have hkeys (l : List Nat) (p : Pkg) : reg (l.foldl (fun q k => surveyorRequest q 5 3 k 1) p) svSeq = reg p svSeq := by
    induction l generalizing p with
    | nil => rfl
    | cons a l ih => exact (ih _).trans (svSeq_surveyorRequest _ _ _ _ (by decide) (by decide))
  unfold keyRequests
  dsimp only
  split
  · exact (svSeq_surveyorRequest _ _ _ _ (by decide) (by decide)).trans (hkeys _ _)
  · exact hkeys _ _

theorem svSeq_fbResolve (p : Pkg) : reg (fbResolve p) svSeq = reg p svSeq := by
  unfold fbResolve
  split
  · exact svSeq_withFuse _ _
  · rfl

theorem svSeq_logLoss (p : Pkg) : reg (logLoss p) svSeq = reg p svSeq := by
  unfold logLoss
  split
  next n _ =>
    have hlog : reg (logErr p pgPwr ⟨0x74, 0, 0, 0, n⟩) svSeq = reg p svSeq :=
      logErr_reg _ _ _ (by decide) (by decide) (by decide) (by decide)
    rw [svSeq_withBoot, hlog]
  next => rfl

theorem svSeq_showVersions (p : Pkg) : reg (showVersions p) svSeq = reg p svSeq := by
  rw [showVersions, reg_setReg_ne _ _ (by decide), reg_setReg_ne _ _ (by decide)]

theorem svSeq_setBit_upd (p : Pkg) (n : Nat) (b : Bool) : reg (setBit p updStatus n b) svSeq = reg p svSeq :=
  reg_setFld_ne _ _ _ _ (by decide)

theorem svSeq_setReg_boot (p : Pkg) (v : W64) : reg (setReg p svBoot v) svSeq = reg p svSeq := reg_setReg_ne _ _ (by decide)

theorem svSeq_bootStart (p : Pkg) : reg (bootStart p) svSeq = reg p svSeq := by
  cases h : bootSlot p with
  | none =>
    rw [bootStart_fails h]
    exact svSeq_withBoot _ _
  | some x =>
    obtain ⟨n, img⟩ := x
    rw [bootStart, h]
    rw [svSeq_keyRequests, svSeq_logLoss, svSeq_fbResolve, svSeq_showVersions, svSeq_setBit_upd, svSeq_setReg_boot, svSeq_surveyorUp,
      svSeq_withBoot]

theorem datum_bootStart (p : Pkg) : (bootStart p).pace.datum = p.pace.datum := by
  cases h : bootSlot p with
  | none => rw [bootStart_fails h]
  | some x => rw [(bootStart_started h).pace]

/-- With every register at its reset value the sequencer stands at AUX, climbing step 1. -/
theorem seq_at_reset {p : Pkg} (h : p.regs = []) : seqState p = 0 ∧ seqStep p = 1 := by
  have hinfo : pageInfo (svSeq / 0x1000) = some ⟨0x0B, 5, 0, 0, 4, 0⟩ := by decide
  have hreg : reg p svSeq = regReset p svSeq := by
    rw [reg, h]
    rfl
  have hreset : regReset p svSeq = 0x01000000 := by
    rw [regReset, hinfo]
    simp [svSeq, key, pgSv]
    decide
  rw [seqState, seqStep, fld, fld, hreg, hreset]
  decide

/-- The next power good starts at climbing step 1 with the datum at 0. -/
theorem coldPowerUp_starts {s : State} (dir : FlashDir) (a b : ImageInfo) (h : s.pkg.boot.started = false) :
    ∃ u, exec (.coldPowerUp dir ⟨a, b⟩) s = .next u ∧ seqState u.pkg = 0 ∧ seqStep u.pkg = 1 ∧ u.pkg.pace.datum = 0 := by
  obtain ⟨hstate, hstep⟩ := seq_at_reset (p := coldStart s.pkg dir a b) rfl
  refine ⟨_, exec_coldPowerUp dir a b h, ?_⟩
  split
  · exact ⟨(fld_congr (svSeq_bootStart _) _ _).trans hstate, (fld_congr (svSeq_bootStart _) _ _).trans hstep, datum_bootStart _⟩
  · exact ⟨hstate, hstep, rfl⟩

/-- Settles O54. -/
theorem powerLossKeepsOnlyBookFlashAndFuses : Obligations.PowerLossKeepsOnlyBookFlashAndFuses := by
  unfold Obligations.PowerLossKeepsOnlyBookFlashAndFuses
  intro s auxHeld hs
  obtain ⟨f, n, hcut, hentries, hidle, hrest⟩ := fbCut_cuts s.pkg
  have hexec : exec (.powerLoss auxHeld) s = execPowerLoss auxHeld s := rfl
  rw [hexec, execPowerLoss, if_pos hs]
  dsimp only
  rw [hcut]
  refine ⟨_, rfl, rfl, fun a ha => Memory.byte_hostOnly _ ha, ?_, rfl, hentries, hidle, hrest,
    fun dir a b => coldPowerUp_starts dir a b rfl⟩
  have hpersonality : f.personality = s.pkg.fuse.personality := by rw [hrest]
  rw [← hpersonality]
  rfl

end Sys2Proof.Machine
end

section
/-! SGPIO frames (R714, R715) and the sideband (R668, R723): the proof of O60. -/

namespace Sys2Proof.Machine

/-- What a command answers that acts on the package alone. -/
theorem next_onPkg {s : State} {f : Pkg → Pkg} {q : Pkg} (h : f s.pkg = q) :
    (Host.Outcome.next (s.onPkg f) : Out) = .next { s with pkg := q } := by
  rw [← h]
  rfl

/-! ## Messages that have left stay sent -/

/-- What had left the package in p has left it in q. -/
def OutKept (p q : Pkg) : Prop := ∀ m ∈ p.out, m ∈ q.out

theorem OutKept.refl (p : Pkg) : OutKept p p := fun _ => id

theorem OutKept.trans {p q r : Pkg} (h : OutKept p q) (g : OutKept q r) : OutKept p r := fun m hm => g m (h m hm)

theorem outKept_of_eq {p q : Pkg} (h : q.out = p.out) : OutKept p q := fun _ hm => h ▸ hm

theorem outKept_emitMsg (p : Pkg) (m : OutMsg) : OutKept p (emitMsg p m) := fun _ => List.mem_cons_of_mem _

theorem outKept_deliver (p : Pkg) (pg : Nat) (route : W64) : OutKept p (deliver p pg route) := by
  unfold deliver
  split
  · exact outKept_emitMsg _ _
  · exact .refl p
  · unfold sendMsix
    split
    · exact .refl p
    · exact outKept_emitMsg _ _
  · exact .refl p

theorem outKept_raise (p : Pkg) (pg : Nat) (bits : W64) : OutKept p (raise p pg bits) := by
  unfold raise setInt
  dsimp only
  split
  · exact (outKept_of_eq rfl).trans (outKept_deliver (setReg (setReg p _ _) _ _) _ _)
  · exact outKept_of_eq rfl

theorem outKept_raiseBlock (p : Pkg) (pg n : Nat) : OutKept p (raiseBlock p pg n) := outKept_raise _ _ _

/-! ## Inputs (R715, R716) -/

theorem statusBit_lt (i : Nat) (h : i < 13) : statusBit i < 31 := by
  unfold statusBit
  split
  · omega
  · split <;> omega

theorem statusBit_inj {i j : Nat} (hi : i < 13) (hj : j < 13) (h : statusBit i = statusBit j) : i = j := by
  unfold statusBit at h
  split at h
  · split at h
    · omega
    · split at h <;> omega
  · split at h
    · split at h
      · omega
      · split at h <;> omega
    · split at h
      · omega
      · split at h <;> omega

theorem opsStatus_ne_plStatus (i : Nat) : opsStatus ≠ plStatus i := by
  simp only [opsStatus, plStatus, key, pgOps, pgPl]
  omega

theorem bit_raiseBlock_opsStatus (p : Pkg) (m n : Nat) : bit (raiseBlock p pgOps m) opsStatus n = bit p opsStatus n :=
  bit_congr (raiseBlock_reg _ _ _ (by decide) (by decide)) n

theorem bit_setRun (p : Pkg) (i m k n : Nat) : bit (setRun p i m) k n = bit p k n := bit_congr (reg_congr rfl rfl rfl _) n

/-- A recognised level of a button changes its own bit of OPS_STATUS alone. -/
theorem bit_setButton (p : Pkg) {i : Nat} (level : Bool) (n : Nat) (hi : i < 13) :
    bit (setButton p i level) opsStatus n = if n = statusBit i then level else bit p opsStatus n := by
  have hlt := statusBit_lt i hi
  have hset : bit (setBit p opsStatus (statusBit i) level) opsStatus n = if n = statusBit i then level else bit p opsStatus n := by
    split
    next h =>
      rw [h]
      exact bit_setBit_self _ _ _ _ (by omega)
    next h => exact bit_setBit_beside _ _ _ _ _ (by omega) h
  unfold setButton
  dsimp only
  split
  · rw [bit_setBit_ne _ _ _ _ (opsStatus_ne_plStatus _)]
    exact hset
  · exact hset

/-- What an input leaves as it was: SGPIO_FAULT, when the last frame passed, and what has left. -/
structure FaultKept (p q : Pkg) : Prop where
  fault : bit q opsStatus 31 = bit p opsStatus 31
  lastPass : q.ops.lastPass = p.ops.lastPass
  out : OutKept p q

theorem FaultKept.refl (p : Pkg) : FaultKept p p := ⟨rfl, rfl, .refl p⟩

theorem FaultKept.trans {p q r : Pkg} (h : FaultKept p q) (g : FaultKept q r) : FaultKept p r :=
  ⟨g.fault.trans h.fault, g.lastPass.trans h.lastPass, h.out.trans g.out⟩

theorem faultKept_setRun (p : Pkg) (i n : Nat) : FaultKept p (setRun p i n) := ⟨bit_setRun _ _ _ _ _, rfl, .refl p⟩

theorem faultKept_setButton (p : Pkg) {i : Nat} (level : Bool) (hi : i < 13) : FaultKept p (setButton p i level) := by
  have hlt := statusBit_lt i hi
  refine ⟨?_, ?_, ?_⟩
  · rw [bit_setButton p level 31 hi, if_neg (by omega)]
  · unfold setButton
    dsimp only
    split <;> rfl
  · unfold setButton
    dsimp only
    split <;> exact .refl p

theorem faultKept_opsCable (p : Pkg) {i : Nat} (b : Bool) (hi : i < 6) : FaultKept p (opsCable p i b) := by
  unfold opsCable
  split
  · exact .refl p
  · refine ⟨?_, ?_, (outKept_of_eq rfl).trans (outKept_raiseBlock (setBit p _ _ _) _ _)⟩
    · rw [bit_raiseBlock_opsStatus]
      exact bit_setBit_beside _ _ _ _ _ (by omega) (by omega)
    · obtain ⟨r, o, x, hq⟩ := raiseBlock_only (setBit p (key pgOps 0x100) (16 + i) b) pgOps 2
      rw [hq]
      rfl

theorem faultKept_sampleInput (bits : BitVec 24) (p : Pkg) {i : Nat} (hi : i < 13) : FaultKept p (sampleInput bits p i) := by
  unfold sampleInput
  dsimp only
  split
  · exact faultKept_setRun _ _ _
  split
  · exact faultKept_setRun _ _ _
  split
  next h6 => exact (faultKept_setRun p i 0).trans (faultKept_opsCable _ _ h6)
  next => exact (faultKept_setRun p i 0).trans (faultKept_setButton _ _ hi)

theorem faultKept_sampleInputs (bits : BitVec 24) (l : List Nat) (hl : ∀ i ∈ l, i < 13) (p : Pkg) :
    FaultKept p (l.foldl (sampleInput bits) p) := by
  induction l generalizing p with
  | nil => exact .refl p
  | cons i l ih => exact (faultKept_sampleInput bits p (hl i (by simp))).trans (ih (fun j hj => hl j (by simp [hj])) _)

/-! ## SGPIO_FAULT -/

theorem bit_setSgpioFault (p : Pkg) (b : Bool) : bit (setSgpioFault p b) opsStatus 31 = b := by
  unfold setSgpioFault
  split
  next h => exact h
  next =>
    rw [bit_raiseBlock_opsStatus]
    exact bit_setBit_self _ _ _ _ (by decide)

theorem bit_setSgpioFault_beside (p : Pkg) (b : Bool) {n : Nat} (h : n ≠ 31) : bit (setSgpioFault p b) opsStatus n = bit p opsStatus n := by
  unfold setSgpioFault
  split
  · rfl
  · rw [bit_raiseBlock_opsStatus]
    exact bit_setBit_beside _ _ _ _ _ (by decide) h

theorem outKept_setSgpioFault (p : Pkg) (b : Bool) : OutKept p (setSgpioFault p b) := by
  unfold setSgpioFault
  split
  · exact .refl p
  · exact (outKept_of_eq rfl).trans (outKept_raiseBlock (setBit p _ _ _) _ _)

/-- A change of SGPIO_FAULT sets BLOCK bit 1. -/
theorem setSgpioFault_signals {p : Pkg} {b : Bool} (h : bit p opsStatus 31 ≠ b) : bit (setSgpioFault p b) (key pgOps 0x20) 17 = true := by
  rw [setSgpioFault, if_neg h]
  exact raise_pends _ _ (by decide)

/-- Buttons that read released. -/
def released (l : List Nat) (p : Pkg) : Pkg := l.foldl (fun q j => setButton (setRun q (6 + j) 0) (6 + j) false) p

theorem bit_released (l : List Nat) (hl : ∀ j ∈ l, j < 7) (p : Pkg) (n : Nat) :
    bit (released l p) opsStatus n = if ∃ j ∈ l, n = statusBit (6 + j) then false else bit p opsStatus n := by
  induction l generalizing p with
  | nil => simp [released]
  | cons i l ih =>
    have hi : i < 7 := hl i (by simp)
    have hone : bit (setButton (setRun p (6 + i) 0) (6 + i) false) opsStatus n =
        if n = statusBit (6 + i) then false else bit p opsStatus n := by
      rw [bit_setButton _ _ _ (by omega), bit_setRun]
    have hrest := ih (fun j hj => hl j (by simp [hj])) (setButton (setRun p (6 + i) 0) (6 + i) false)
    rw [hone] at hrest
    refine hrest.trans ?_
    by_cases hmem : ∃ j ∈ l, n = statusBit (6 + j) <;> by_cases hn : n = statusBit (6 + i) <;> simp [hmem, hn]

theorem reg_setButton_ne (p : Pkg) (i : Nat) (level : Bool) {k : Nat} (h : k ≠ opsStatus) (hp : k ≠ plStatus (i - 6)) :
    reg (setButton p i level) k = reg p k := by
  unfold setButton
  dsimp only
  split
  · rw [setBit, reg_setFld_ne _ _ _ _ hp, setBit, reg_setFld_ne _ _ _ _ h]
  · exact reg_setFld_ne _ _ _ _ h

theorem reg_released_int (l : List Nat) (p : Pkg) : reg (released l p) (key pgOps 0x20) = reg p (key pgOps 0x20) := by
  induction l generalizing p with
  | nil => rfl
  | cons i l ih =>
    refine (ih _).trans ((reg_setButton_ne _ _ _ (by decide) ?_).trans (reg_congr rfl rfl rfl _))
    simp only [plStatus, key, pgOps, pgPl]
    omega

theorem doSgpioFault_due {p : Pkg} (hs : p.boot.started = true) (h : p.ops.lastPass + 100000000 ≤ p.pace.datum) :
    doSgpioFault p = released (List.range 7) (setSgpioFault p true) := by
  have hdue : (p.boot.started && decide (p.ops.lastPass + 100000000 ≤ p.pace.datum)) = true := by simp [hs, h]
  exact if_pos hdue

theorem doSgpioFault_early {p : Pkg} (h : p.pace.datum < p.ops.lastPass + 100000000) : doSgpioFault p = p := by
  have hdue : ¬ (p.boot.started && decide (p.ops.lastPass + 100000000 ≤ p.pace.datum)) = true := by simp; omega
  exact if_neg hdue

/-- 100 ms without a passing frame set SGPIO_FAULT and release the buttons, and leave the cables as they were recognised. -/
theorem faultSet (p : Pkg) : bit (released (List.range 7) (setSgpioFault p true)) opsStatus 31 = true ∧
    (∀ i, 6 ≤ i → i < 13 → bit (released (List.range 7) (setSgpioFault p true)) opsStatus (statusBit i) = false) ∧
    (∀ i, i < 6 → bit (released (List.range 7) (setSgpioFault p true)) opsStatus (statusBit i) = bit p opsStatus (statusBit i)) := by
  have hrange : ∀ j ∈ List.range 7, j < 7 := fun j hj => List.mem_range.1 hj
  refine ⟨?_, fun i h6 h13 => ?_, fun i hi => ?_⟩
  · rw [bit_released _ hrange, if_neg, bit_setSgpioFault]
    rintro ⟨j, hj, h⟩
    have := statusBit_lt (6 + j) (by have := hrange j hj; omega)
    omega
  · rw [bit_released _ hrange, if_pos]
    exact ⟨i - 6, List.mem_range.2 (by omega), by rw [Nat.add_sub_cancel' h6]⟩
  · have hlt := statusBit_lt i (by omega)
    rw [bit_released _ hrange, if_neg, bit_setSgpioFault_beside _ _ (by omega)]
    rintro ⟨j, hj, h⟩
    have hj7 := hrange j hj
    have := statusBit_inj (by omega) (by omega) h
    omega

/-! ## Frames -/

/-- The package once a frame's lamps have left; without an image that runs, the frame takes a free value too. -/
def framed (p : Pkg) : Pkg := if p.boot.failed then nextFree (emitMsg p (.sgpio (frameOut p))) else emitMsg p (.sgpio (frameOut p))

theorem framed_works {p : Pkg} (h : p.boot.failed = false) : framed p = emitMsg p (.sgpio (frameOut p)) := by
  rw [framed, h]
  rfl

theorem doSgpioFrame_passes {p : Pkg} {bits : BitVec 24} (hs : p.boot.started = true) (h : framePasses bits = true) :
    doSgpioFrame bits p = (List.range 13).foldl (sampleInput bits)
      { setSgpioFault (framed p) false with ops := { (setSgpioFault (framed p) false).ops with lastPass := p.pace.datum } } := by
  unfold doSgpioFrame
  rw [if_pos hs]
  dsimp only
  rw [if_pos h]
  rfl

theorem doSgpioFrame_fails {p : Pkg} {bits : BitVec 24} (hs : p.boot.started = true) (h : framePasses bits = false) :
    doSgpioFrame bits p = bumpReg (framed p) (key pgOps 0x10C) 1 0xFFFFFFFF := by
  unfold doSgpioFrame
  rw [if_pos hs]
  dsimp only
  rw [if_neg (by simp [h])]
  rfl

theorem frame_passing {p : Pkg} {bits : BitVec 24} (hs : p.boot.started = true) (hf : p.boot.failed = false)
    (h : framePasses bits = true) : OutMsg.sgpio (frameOut p) ∈ (doSgpioFrame bits p).out ∧
      bit (doSgpioFrame bits p) opsStatus 31 = false ∧ (doSgpioFrame bits p).ops.lastPass = p.pace.datum := by
  rw [doSgpioFrame_passes hs h, framed_works hf]
  obtain ⟨hfault, hlast, hout⟩ := faultKept_sampleInputs bits (List.range 13) (fun i hi => List.mem_range.1 hi)
    { setSgpioFault (emitMsg p (.sgpio (frameOut p))) false with
      ops := { (setSgpioFault (emitMsg p (.sgpio (frameOut p))) false).ops with lastPass := p.pace.datum } }
  refine ⟨hout _ ?_, ?_, hlast⟩
  · exact outKept_setSgpioFault _ _ _ (List.mem_cons_self ..)
  · rw [hfault]
    exact (bit_congr (reg_congr rfl rfl rfl _) _).trans (bit_setSgpioFault _ _)

theorem frame_failing {p : Pkg} {bits : BitVec 24} (hs : p.boot.started = true) (hf : p.boot.failed = false)
    (h : framePasses bits = false) : OutMsg.sgpio (frameOut p) ∈ (doSgpioFrame bits p).out ∧
      (doSgpioFrame bits p).ops = p.ops ∧ reg (doSgpioFrame bits p) opsStatus = reg p opsStatus ∧
      regN (doSgpioFrame bits p) (key pgOps 0x10C) = min 0xFFFFFFFF (regN p (key pgOps 0x10C) + 1) := by
  rw [doSgpioFrame_fails hs h, framed_works hf]
  refine ⟨List.mem_cons_self .., rfl, ?_, ?_⟩
  · exact (reg_setReg_ne _ _ (by decide)).trans (reg_emitMsg _ _ _)
  · rw [regN_bumpReg, regN, reg_emitMsg, ← regN]

/-! ## The sideband -/

theorem sideband_ready {p : Pkg} (f : Pkg → Pkg) (h : ready p pgSv = true) : sideband p f = f p := if_pos h

theorem sidebandRead_aligned (p : Pkg) {off bytes : Nat} (h : off % bytes = 0) :
    sidebandRead off bytes p = emitMsg (readAccess .surveyor off bytes p).2 (.sideband 0 bytes (readAccess .surveyor off bytes p).1.toNat) := by
  rw [sidebandRead, if_neg (by omega)]

/-- A pop register of another owner reads without popping (R113). -/
theorem readAccess_foreign_pop {p : Pkg} {rq : Requester} {off : Nat} (h8 : off % 8 = 0) (hpop : isPopKey off = true)
    (ho : owner p (off / 0x1000) ≠ rq.code) : (readAccess rq off 8 p).2 = p := by
  have hoff : off / 8 * 8 = off := by omega
  rw [readAccess, hoff, if_pos hpop, if_pos rfl, popWord]
  split
  · rfl
  · rw [if_pos (.inr (.inl ho.symm))]

theorem seqStep_lt (p : Pkg) : seqStep p < 16 := Nat.mod_lt _ (by decide)

/-- A new state of the sequencer leaves its target and the source of its last request. -/
theorem fld_setSeq_beside (p : Pkg) {q : Pkg} {st hi lo : Nat} (hst : st < 16) (hl : lo ≤ hi) (h : hi < 24) :
    fld (setSeq q st (seqStep p)) svSeq hi lo = fld q svSeq hi lo := (setSeq_shows q hst (seqStep_lt p)).2.2 hi lo hl h

theorem fld_leaveRest_beside (p : Pkg) {hi lo : Nat} (hl : lo ≤ hi) (h : hi < 24) (h20 : hi < 20 ∨ 20 < lo) :
    fld (leaveRest p) svSeq hi lo = fld p svSeq hi lo := by
  have hbit (q : Pkg) (b : Bool) : fld (setBit q svSeq 20 b) svSeq hi lo = fld q svSeq hi lo :=
    fld_setFld_beside _ _ _ _ _ _ _ (by decide) (by decide) hl (by omega)
  have hclimb : fld (if climbOk p then
      setSeq (setBit { p with seq := { p.seq with climbAfter := false } } svSeq 20 false) 1 (seqStep p)
      else setBit p svSeq 20 true) svSeq hi lo = fld p svSeq hi lo := by
    split
    · rw [fld_setSeq_beside _ (by decide) hl h, hbit]
      exact fld_congr (reg_congr rfl rfl rfl _) _ _
    · exact hbit _ _
  unfold leaveRest
  dsimp only
  split
  · split
    · exact hbit _ _
    · exact hclimb
  · split
    · exact hclimb
    split
    · exact fld_setSeq_beside _ (by decide) hl h
    · exact hbit _ _
  · split
    · rfl
    · exact fld_setSeq_beside _ (by decide) hl h
  · rfl

theorem setTarget_sets {p : Pkg} (h : p.boot.running.isSome = true) {t source : Nat} (ht : t < 4) (hs : source < 4) :
    seqTarget (setTarget p t source) = t ∧ fld (setTarget p t source) svSeq 19 18 = source := by
  rw [setTarget, if_pos h, seqTarget, fld_leaveRest_beside _ (by decide) (by decide) (by decide),
    fld_leaveRest_beside _ (by decide) (by decide) (by decide)]
  constructor
  · rw [fld_setFld_beside _ _ _ _ _ _ _ (by decide) (by decide) (by decide) (by decide), fld_setFld_self _ _ _ _ _ (by decide) (by decide)]
    exact Nat.mod_eq_of_lt ht
  · rw [fld_setFld_self _ _ _ _ _ (by decide) (by decide)]
    exact Nat.mod_eq_of_lt hs

/-- Settles O60. -/
theorem framesAndSidebandCommandsAreServed : Obligations.FramesAndSidebandCommandsAreServed := by
  unfold Obligations.FramesAndSidebandCommandsAreServed
  refine ⟨fun s bits hs hf => ⟨_, rfl, rfl, ?_, fun h => ?_, fun h => ?_⟩, fun s hs => ⟨fun h => ?_, fun h => ?_⟩,
    fun s off hr => ⟨fun h4 => ?_, fun h8 => ?_, fun h8 hpop ho => ?_⟩, fun s hr => ?_, fun s arg hr hrun ha => ⟨fun h => ?_, fun h0 hpin => ?_⟩,
    fun s => ⟨_, rfl, rfl, rfl⟩⟩
  · cases h : framePasses bits with
    | true => exact (frame_passing hs hf h).1
    | false => exact (frame_failing hs hf h).1
  · exact (frame_passing hs hf h).2
  · exact (frame_failing hs hf h).2
  · obtain ⟨hset, hbuttons, hcables⟩ := faultSet s.pkg
    have hexec : exec .sgpioFault s = .next { s with pkg := released (List.range 7) (setSgpioFault s.pkg true) } :=
      next_onPkg (doSgpioFault_due hs h)
    refine ⟨_, hexec, rfl, hset, hbuttons, hcables, fun hclear => ?_⟩
    rw [bit_congr (reg_released_int _ _)]
    exact setSgpioFault_signals (by simp [hclear])
  · exact next_onPkg (doSgpioFault_early h)
  · refine ⟨_, rfl, rfl, ?_⟩
    rw [State.onPkg_pkg, sideband_ready _ hr, sidebandRead_aligned _ h4]
    rfl
  · refine ⟨_, rfl, rfl, ?_⟩
    rw [State.onPkg_pkg, sideband_ready _ hr, sidebandRead_aligned _ h8]
    rfl
  · refine ⟨_, rfl, ?_⟩
    rw [State.onPkg_pkg, sideband_ready _ hr, sidebandRead_aligned _ h8, readAccess_foreign_pop h8 hpop ho]
    rfl
  · refine ⟨_, rfl, rfl, ?_⟩
    rw [State.onPkg_pkg, sideband_ready _ hr]
    rfl
  · have hok : ¬ (2 < arg ∨ (arg ≠ 0 ∧ bit s.pkg svSeq 21 = false)) := by
      rintro (h2 | ⟨h0, hlow⟩)
      · omega
      · rcases h with h | h
        · exact h0 h
        · rw [h] at hlow
          cases hlow
    obtain ⟨htarget, hsource⟩ := setTarget_sets (p := s.pkg) hrun (t := arg) (source := 1) (by omega) (by decide)
    refine ⟨_, rfl, rfl, ?_⟩
    rw [State.onPkg_pkg, sideband_ready _ hr, seqRequest, if_neg hok]
    exact ⟨(fld_congr (reg_emitMsg _ _ _) _ _).trans htarget, (fld_congr (reg_emitMsg _ _ _) _ _).trans hsource, rfl⟩
  · refine ⟨_, rfl, rfl, ?_⟩
    rw [State.onPkg_pkg, sideband_ready _ hr, seqRequest, if_pos (.inr ⟨h0, hpin⟩)]
    rfl

end Sys2Proof.Machine
end

section
/-! Bridges (R469, R470, R472): the proof of O37. -/

namespace Sys2Proof.Machine

/-! ## What an error record leaves of the error handling -/

theorem OnlyInt.fault_eq {p q : Pkg} (h : OnlyInt p q) : q.fault = p.fault := by
  obtain ⟨a, b, c, rfl⟩ := h
  rfl

/-- Of the error handling only the tracked counts and what has fired change. -/
def OnlyTracks (p q : Pkg) : Prop := ∃ t f, q.fault = { p.fault with trackers := t, fired := f }

theorem OnlyTracks.refl (p : Pkg) : OnlyTracks p p := ⟨_, _, rfl⟩

theorem onlyTracks_of_eq {p q : Pkg} (h : q.fault = p.fault) : OnlyTracks p q := by
  refine ⟨p.fault.trackers, p.fault.fired, ?_⟩
  rw [h]

theorem OnlyInt.tracks {p q : Pkg} (h : OnlyInt p q) : OnlyTracks p q := onlyTracks_of_eq h.fault_eq

theorem OnlyTracks.trans {p q r : Pkg} (h : OnlyTracks p q) (g : OnlyTracks q r) : OnlyTracks p r := by
  obtain ⟨t, f, hq⟩ := h
  obtain ⟨t', f', hr⟩ := g
  exact ⟨t', f', by rw [hr, hq]⟩

theorem onlyTracks_countUnit (pg : Nat) (p : Pkg) (x : Nat × Nat × Nat) : OnlyTracks p (countUnit pg p x) := by
  unfold countUnit
  dsimp only
  split
  · exact OnlyTracks.trans ⟨_, _, rfl⟩ (raise_only _ _ _).tracks
  · exact ⟨_, _, rfl⟩

theorem onlyTracks_countWindow (p : Pkg) (pg : Nat) (e : ErrArgs) : OnlyTracks p (countWindow p pg e) := by
  have hfold (l : List (Nat × Nat × Nat)) (q : Pkg) : OnlyTracks q (l.foldl (countUnit pg) q) := by
    induction l generalizing q with
    | nil => exact .refl q
    | cons x l ih => exact (onlyTracks_countUnit pg q x).trans (ih _)
  unfold countWindow
  dsimp only
  refine OnlyTracks.trans ?_ (hfold _ _)
  split
  · exact ((bumpFld_only _ _ _ _).trans (raise_only _ _ _)).tracks
  · exact (bumpFld_only _ _ _ _).tracks

theorem onlyTracks_pushRecord (p : Pkg) (pg sev : Nat) (ws : List W64) : OnlyTracks p (pushRecord p pg sev ws) := by
  refine onlyTracks_of_eq ?_
  unfold pushRecord
  generalize (if sev = 3 then 32 else 31) = cap
  dsimp only
  split <;> rfl

theorem onlyTracks_waypoint (p : Pkg) (pg event sub arg : Nat) : OnlyTracks p (waypoint p pg event sub arg) := onlyTracks_of_eq rfl

theorem onlyTracks_logErrAt (p : Pkg) (pg : Nat) (e : ErrArgs) (d : Nat) : OnlyTracks p (logErrAt p pg e d) := by
  unfold logErrAt
  have h1 : OnlyTracks p (if (codeRow e.code).2 then countWindow p pg e else p) := by
    split
    · exact onlyTracks_countWindow _ _ _
    · exact .refl p
  dsimp only
  generalize (if (codeRow e.code).2 = true then countWindow p pg e else p) = p1 at *
  have h2 (n : Nat) (ws : List W64) : OnlyTracks p (setBit (pushRecord p1 pg n ws) (key pg 0x10) n true) :=
    (h1.trans (onlyTracks_pushRecord _ _ _ _)).trans (setBit_only _ _ _ _).tracks
  refine OnlyTracks.trans ?_ (onlyTracks_waypoint _ _ _ _ _)
  split
  · exact h2 _ _
  · exact (h2 _ _).trans (raise_only _ _ _).tracks

theorem onlyTracks_logErr (p : Pkg) (pg : Nat) (e : ErrArgs) : OnlyTracks p (logErr p pg e) := onlyTracks_logErrAt _ _ _ _

theorem OnlyTracks.bridgeDown {p q : Pkg} (h : OnlyTracks p q) : q.fault.bridgeDown = p.fault.bridgeDown := by
  obtain ⟨t, f, hq⟩ := h
  rw [hq]

theorem OnlyTracks.bridgeSpare {p q : Pkg} (h : OnlyTracks p q) : q.fault.bridgeSpare = p.fault.bridgeSpare := by
  obtain ⟨t, f, hq⟩ := h
  rw [hq]

/-- A block's own registers, from 0x100 on, keep their values when it logs an error. -/
theorem logErr_reg_own (p : Pkg) (pg : Nat) (e : ErrArgs) (pg' : Nat) {off : Nat} (ho : off < 0x1000) (h : 0x100 ≤ off) :
    reg (logErr p pg e) (key pg' off) = reg p (key pg' off) :=
  logErr_reg _ _ _ (key_ne _ _ ho (by decide) (by omega)) (key_ne _ _ ho (by decide) (by omega))
    (key_ne _ _ ho (by decide) (by omega)) (key_ne _ _ ho (by decide) (by omega))

theorem raiseBlock_reg_own (p : Pkg) (pg n : Nat) (pg' : Nat) {off : Nat} (ho : off < 0x1000) (h : 0x100 ≤ off) :
    reg (raiseBlock p pg n) (key pg' off) = reg p (key pg' off) :=
  raiseBlock_reg _ _ _ (key_ne _ _ ho (by decide) (by omega)) (key_ne _ _ ho (by decide) (by omega))

/-! ## DOWN (Table 13-7) -/

theorem key_inj {a b x y : Nat} (hx : x < 0x1000) (hy : y < 0x1000) (h : key a x = key b y) : a = b ∧ x = y := by
  simp only [key] at h
  omega

theorem bridgePage_ne {m b : Nat} (hm : m < 4) (h : m ≠ b) : bridgePage m ≠ bridgePage b := by
  unfold bridgePage pgMer pgGrt sheetBase
  split <;> split <;> omega

/-- DOWN of a page's bridge register is kept where only the bits below it are written. -/
theorem down_setFld (p : Pkg) (k hi lo v pg : Nat) (h : hi < 31) (hl : lo ≤ hi) :
    bit (setFld p k hi lo v) (key pg 0x100) 31 = bit p (key pg 0x100) 31 := by
  by_cases hk : key pg 0x100 = k
  · rw [hk, bit_setFld_beside _ _ _ _ _ _ (by omega) hl (by omega)]
  · exact bit_congr (reg_setFld_ne _ _ _ _ hk) _

theorem down_raiseBlock (p : Pkg) (pg' n pg : Nat) : bit (raiseBlock p pg' n) (key pg 0x100) 31 = bit p (key pg 0x100) 31 :=
  bit_congr (raiseBlock_reg_own _ _ _ _ (by decide) (by decide)) _

/-- What one meridian's detour signs leave: DOWN of every bridge, and the error handling. -/
theorem viaShown_keeps (q : Pkg) (k n v pg : Nat) (b : Bool) (c : Prop) [Decidable c] :
    bit (setFld (if c then q else raiseBlock (setBit q k 30 b) (pgMer n) 0) k 29 28 v) (key pg 0x100) 31 = bit q (key pg 0x100) 31 ∧
      (setFld (if c then q else raiseBlock (setBit q k 30 b) (pgMer n) 0) k 29 28 v).fault = q.fault := by
  rw [down_setFld _ _ _ _ _ _ (by decide) (by decide)]
  split
  · exact ⟨rfl, rfl⟩
  · exact ⟨(down_raiseBlock _ _ _ _).trans (down_setFld _ _ _ _ _ _ (by decide) (by decide)),
      (raiseBlock_only (setBit q k 30 b) (pgMer n) 0).fault_eq⟩

theorem showVia_keeps (p : Pkg) (pg : Nat) : bit (showVia p) (key pg 0x100) 31 = bit p (key pg 0x100) 31 ∧ (showVia p).fault = p.fault :=
  ⟨foldl_keeps (fun q => bit q (key pg 0x100) 31) (fun q n => (viaShown_keeps q _ n _ pg _ _).1) _ p,
    foldl_keeps (fun q => q.fault) (fun q n => (viaShown_keeps q _ n _ pg _ _).2) _ p⟩

/-! ## A bridge that fails (R470, R639) -/

theorem reg_withFault (p : Pkg) (f : FaultSt) (k : Nat) : reg { p with fault := f } k = reg p k := reg_congr rfl rfl rfl k

/-- The package once a bridge's failure is logged and noted. -/
def bridgeNoted (p : Pkg) (b dir : Nat) : Pkg :=
  let p1 := logErr p (bridgeBlock b) ⟨0x51, 0, 0, 0, bridgeDetail b dir⟩
  { p1 with fault := { p1.fault with bridgeDown := SMap.set p1.fault.bridgeDown (2 * b + dir % 2) true } }

theorem bridgeNoted_lost (p : Pkg) (b dir : Nat) : bridgeLost (bridgeNoted p b dir) b = true := by
  have hset (m : SMap Bool) (x : Nat) (hx : x = 2 * b + dir % 2) :
      (SMap.get (SMap.set m x true) (2 * b) false || SMap.get (SMap.set m x true) (2 * b + 1) false) = true := by
    obtain h | h : dir % 2 = 0 ∨ dir % 2 = 1 := by omega
    · rw [hx, h, Nat.add_zero, SMap.get_set_self, Bool.true_or]
    · rw [hx, h, SMap.get_set_self, Bool.or_true]
  exact hset _ _ rfl

theorem bridgeNoted_reg (p : Pkg) (b dir pg : Nat) : reg (bridgeNoted p b dir) (key pg 0x100) = reg p (key pg 0x100) := by
  rw [bridgeNoted, reg_withFault, logErr_reg_own _ _ _ _ (by decide) (by decide)]

/-- A bridge with a page of its own is DOWN there. -/
def bridgeMarked (p : Pkg) (pg : Nat) : Pkg :=
  let p3 := raiseBlock (setBit p (key pg 0x100) 31 true) pg 0
  bumpReg (nextFree p3) (key pg 0x120) ((Config.freeWord p3.free).toNat % 2 ^ 32) 0xFFFFFFFF

theorem bridgeMarked_keeps (p : Pkg) (pg pg' : Nat) : (bridgeMarked p pg).fault = p.fault ∧
    bit (bridgeMarked p pg) (key pg' 0x100) 31 = if pg' = pg then true else bit p (key pg' 0x100) 31 := by
  constructor
  · exact (raiseBlock_only (setBit p (key pg 0x100) 31 true) pg 0).fault_eq
  · have hbump (q : Pkg) (n top : Nat) : bit (bumpReg q (key pg 0x120) n top) (key pg' 0x100) 31 = bit q (key pg' 0x100) 31 :=
      bit_congr (reg_setReg_ne _ _ (key_ne _ _ (by decide) (by decide) (by decide))) _
    rw [bridgeMarked, hbump, bit_congr (reg_nextFree _ _), down_raiseBlock]
    split
    next h => rw [h, bit_setBit_self _ _ _ _ (by decide)]
    next h => exact bit_setBit_ne _ _ _ _ (key_ne_page (by decide) (by decide) h)

theorem bridgeFails_eq {p : Pkg} {b : Nat} (dir : Nat) (h : bridgeLost p b = false) : bridgeFails p b dir =
    if b < 8 then
      if b < 4 then showVia (bridgeMarked (bridgeNoted p b dir) (bridgePage b))
      else setBit (bridgeMarked (bridgeNoted p b dir) (bridgePage b)) (key (bridgePage b) 0x100) 30 true
    else bridgeNoted p b dir := by
  rw [bridgeFails, if_neg (by simp [h])]
  by_cases h8 : b < 8
  · have hblock : bridgeBlock b = bridgePage b := if_pos h8
    simp only [if_pos h8, bridgeMarked, bridgeNoted, hblock]
  · simp only [if_neg h8, bridgeNoted]

theorem bridgeLost_congr {p q : Pkg} (h : q.fault.bridgeDown = p.fault.bridgeDown) (b : Nat) : bridgeLost q b = bridgeLost p b := by
  rw [bridgeLost, h, bridgeLost]

/-- What a failing bridge leaves: it is lost, and DOWN in its register if it has one; DOWN of the others is kept. -/
theorem bridgeFails_shows {p : Pkg} {b : Nat} (dir : Nat) (h : bridgeLost p b = false) :
    bridgeLost (bridgeFails p b dir) b = true ∧ (b < 8 → bit (bridgeFails p b dir) (key (bridgePage b) 0x100) 31 = true) ∧
      ∀ pg, (b < 8 → pg ≠ bridgePage b) → bit (bridgeFails p b dir) (key pg 0x100) 31 = bit p (key pg 0x100) 31 := by
  have hlost (q : Pkg) (hq : q.fault = (bridgeNoted p b dir).fault) : bridgeLost q b = true :=
    (bridgeLost_congr (congrArg FaultSt.bridgeDown hq) b).trans (bridgeNoted_lost p b dir)
  have hmark := bridgeMarked_keeps (bridgeNoted p b dir) (bridgePage b)
  have hnoted (pg : Nat) : bit (bridgeNoted p b dir) (key pg 0x100) 31 = bit p (key pg 0x100) 31 := bit_congr (bridgeNoted_reg p b dir pg) _
  rw [bridgeFails_eq dir h]
  split
  next h8 =>
    have hvalue (q : Pkg) (hf : q.fault = (bridgeMarked (bridgeNoted p b dir) (bridgePage b)).fault)
        (hq : ∀ pg, bit q (key pg 0x100) 31 = bit (bridgeMarked (bridgeNoted p b dir) (bridgePage b)) (key pg 0x100) 31) :
        bridgeLost q b = true ∧ (b < 8 → bit q (key (bridgePage b) 0x100) 31 = true) ∧
          ∀ pg, (b < 8 → pg ≠ bridgePage b) → bit q (key pg 0x100) 31 = bit p (key pg 0x100) 31 := by
      refine ⟨hlost q (hf.trans (hmark 0).1), fun _ => ?_, fun pg hpg => ?_⟩
      · rw [hq, (hmark _).2, if_pos rfl]
      · rw [hq, (hmark _).2, if_neg (hpg h8), hnoted]
    split
    · exact hvalue _ (showVia_keeps _ 0).2 fun pg => (showVia_keeps _ pg).1
    · exact hvalue _ (setBit_only _ _ _ _).fault_eq fun pg => down_setFld _ _ _ _ _ _ (by decide) (by decide)
  next h8 => exact ⟨bridgeNoted_lost p b dir, fun h => absurd h h8, fun pg _ => hnoted pg⟩

theorem bridgeIsDown_meridian (p : Pkg) {m : Nat} (h : m < 4) : bridgeIsDown p m = bit p (key (bridgePage m) 0x100) 31 :=
  if_pos (by omega)

/-- While another meridian is up a bridge's failure is no loss of the meridians. -/
theorem failBridge_fails {s : State} {b m : Nat} (dir : Nat) (hrail : s.pkg.seq.railPgCore = true) (hb : bridgeLost s.pkg b = false)
    (hm : m < 4) (hne : m ≠ b) (hup : bridgeIsDown s.pkg m = false) : failBridge b dir s = s.onPkg (fun p => bridgeFails p b dir) := by
  obtain ⟨-, -, hothers⟩ := bridgeFails_shows dir hb
  have hstill : bridgeIsDown (bridgeFails s.pkg b dir) m = false := by
    rw [bridgeIsDown_meridian _ hm, hothers _ fun _ => bridgePage_ne hm hne, ← bridgeIsDown_meridian _ hm]
    exact hup
  rw [failBridge, if_pos ⟨hrail, hb⟩, meridiansCheck, if_neg]
  rintro ⟨hall, -⟩
  have := List.all_eq_true.1 hall m (List.mem_range.2 hm)
  rw [State.onPkg_pkg, hstill] at this
  cases this

/-! ## Spare lanes (R472) -/

theorem sparesUsed_set (p : Pkg) {q : Pkg} (b dir n : Nat) (h : q.fault.bridgeSpare = SMap.set p.fault.bridgeSpare (2 * b + dir % 2) n) :
    sparesUsed q b dir = n := by
  rw [sparesUsed, h, SMap.get_set_self]

/-- The register of a meridian or graticule shows the spares in use; the error handling is kept. -/
theorem showSpares_shows (p : Pkg) {b dir n : Nat} (hdir : dir < 2) (hn : n < 256) : (showSpares p b dir n).fault = p.fault ∧
    (b < 8 → fld (showSpares p b dir n) (key (bridgePage b) 0x100) (if dir = 0 then 15 else 7) (if dir = 0 then 8 else 0) = n) := by
  have hint (q : Pkg) : reg (raiseBlock q (bridgePage b) 1) (key (bridgePage b) 0x100) = reg q (key (bridgePage b) 0x100) :=
    raiseBlock_reg_own _ _ _ _ (by decide) (by decide)
  unfold showSpares
  split
  next h8 =>
    dsimp only
    refine ⟨?_, fun _ => ?_⟩
    · rw [(raiseBlock_only _ _ _).fault_eq]
      split <;> rfl
    · rw [fld_congr (hint _)]
      obtain rfl | rfl : dir = 0 ∨ dir = 1 := by omega
      · exact (fld_setFld_self _ _ _ _ _ (by decide) (by decide)).trans (Nat.mod_eq_of_lt hn)
      · exact (fld_setFld_self _ _ _ _ _ (by decide) (by decide)).trans (Nat.mod_eq_of_lt hn)
  next h8 => exact ⟨rfl, fun h => absurd h h8⟩

/-- A spare takes the place of a broken lane. -/
theorem spareLane_takes {s : State} {b dir : Nat} (hb : bridgeLost s.pkg b = false) (hdir : dir < 2) (hn : sparesUsed s.pkg b dir < 2) :
    sparesUsed (spareLane b dir s).pkg b dir = sparesUsed s.pkg b dir + 1 ∧ bridgeLost (spareLane b dir s).pkg b = false ∧
      (spareLane b dir s).mem = s.mem ∧
      (b < 8 → fld (spareLane b dir s).pkg (key (bridgePage b) 0x100) (if dir = 0 then 15 else 7) (if dir = 0 then 8 else 0) =
        sparesUsed s.pkg b dir + 1) := by
  unfold spareLane
  dsimp only
  rw [if_neg (by simp [hb]), if_neg (by omega), State.onPkg_pkg]
  obtain ⟨hfault, hshows⟩ := showSpares_shows (b := b) (n := sparesUsed s.pkg b dir + 1) { s.pkg with fault := { s.pkg.fault with
    bridgeSpare := SMap.set s.pkg.fault.bridgeSpare (2 * b + dir % 2) (sparesUsed s.pkg b dir + 1) } } hdir (by omega)
  refine ⟨sparesUsed_set s.pkg _ _ _ ?_, (bridgeLost_congr ?_ b).trans hb, rfl, hshows⟩
  · rw [hfault]
  · rw [hfault]

/-- Settles O37. -/
theorem bridgesSpareLanesAndFail : Obligations.BridgesSpareLanesAndFail := by
  unfold Obligations.BridgesSpareLanesAndFail
  refine ⟨fun s n hn hrail hb ⟨m, hm, hne, hup⟩ => ?_, fun s kind n b dir hbridge hdir hspares hrail hb ⟨m, hm, hne, hup⟩ => ?_,
    fun s kind n b dir lane hbridge hdir hlane hrail hb hspares => ?_⟩
  · have hup' : bridgeIsDown (s.onPkg nextFree).pkg m = false := by
      rw [bridgeIsDown_meridian _ hm] at hup ⊢
      exact (bit_congr (reg_nextFree _ _) _).trans hup
    have hexec : exec (.meridianDown n) s = execMeridianDown n s := rfl
    rw [hexec, execMeridianDown, if_pos hn, failBridge_fails (s := s.onPkg nextFree) _ hrail hb hm hne hup']
    obtain ⟨hlost, hdown, -⟩ := bridgeFails_shows (p := nextFree s.pkg) ((Config.freeWord s.pkg.free).toNat % 2) hb
    have hpage : bridgePage n = pgMer n := if_pos hn
    rw [hpage] at hdown
    exact ⟨_, rfl, hdown (by omega), hlost, rfl⟩
  · have hexec : exec (.bridgeDown kind n dir) s = execBridgeDown kind n dir s := rfl
    rw [hexec, execBridgeDown, hbridge]
    dsimp only
    rw [if_pos ⟨hdir, hspares⟩, failBridge_fails dir hrail hb hm hne hup]
    obtain ⟨hlost, hdown, -⟩ := bridgeFails_shows dir hb
    exact ⟨_, rfl, hlost, rfl, hdown⟩
  · have hexec : exec (.bridgeLaneSpare kind n dir lane) s = execBridgeLaneSpare kind n dir lane s := rfl
    rw [hexec, execBridgeLaneSpare, hbridge]
    dsimp only
    rw [if_pos ⟨hdir, hlane, hrail⟩]
    have hlog := onlyTracks_logErr s.pkg (bridgeBlock b) ⟨0x50, 0, 0, 0, lane + bridgeDetail b dir⟩
    have hused : sparesUsed (logErr s.pkg (bridgeBlock b) ⟨0x50, 0, 0, 0, lane + bridgeDetail b dir⟩) b dir = sparesUsed s.pkg b dir := by
      rw [sparesUsed, hlog.bridgeSpare, sparesUsed]
    have htakes := spareLane_takes (s := s.onPkg (fun p => logErr p (bridgeBlock b) ⟨0x50, 0, 0, 0, lane + bridgeDetail b dir⟩))
      ((bridgeLost_congr hlog.bridgeDown b).trans hb) hdir (hused.trans_lt hspares)
    rw [State.onPkg_pkg, hused] at htakes
    exact ⟨_, rfl, htakes⟩

end Sys2Proof.Machine
end

section
/-! Stalls and traces (R688, R695 to R698): the proof of O57. -/

namespace Sys2Proof.Machine

/-! ## Stalls (R688) -/

theorem openStalls_setStalls (p : Pkg) (pg : Nat) (l : List (Nat × Nat × Nat)) : openStalls (setStalls p pg l) pg = l :=
  SMap.get_set_self _ _ _ _

theorem openStalls_congr {p q : Pkg} (h : q.fault = p.fault) (pg : Nat) : openStalls q pg = openStalls p pg := by
  rw [openStalls, h, openStalls]

theorem openStalls_waypoint (p : Pkg) (pg event sub arg pg' : Nat) : openStalls (waypoint p pg event sub arg) pg' = openStalls p pg' :=
  openStalls_congr rfl pg'

theorem openStalls_raiseBlock (p : Pkg) (pg n pg' : Nat) : openStalls (raiseBlock p pg n) pg' = openStalls p pg' :=
  openStalls_congr (raiseBlock_only _ _ _).fault_eq pg'

/-- A trace record is no stall. -/
theorem openStalls_traceCmd (p : Pkg) (t bit' kind : Nat) (c : Cmd) (waiter on ns object pg : Nat) :
    openStalls (traceCmd p t bit' kind c waiter on ns object) pg = openStalls p pg := by
  unfold traceCmd
  split
  · unfold traceQueue
    dsimp only
    split
    · rfl
    · exact openStalls_raiseBlock (bumpReg (setTrace p t _) _ _ _) _ _ _
  · rfl

/-- A stall of a port without one is recorded while the block has fewer than 4. -/
theorem doStallBegin_records {p : Pkg} {pg port : Nat} (who : Nat) (hb : stallBlock pg = true) (hp : present p pg = true)
    (hport : (openStalls p pg).any (fun x => x.1 == port) = false) (hroom : (openStalls p pg).length < 4) :
    openStalls (doStallBegin pg port who p) pg = openStalls p pg ++ [(port, who, p.pace.datum)] := by
  have hrecord (q : Pkg) (h : openStalls q pg = openStalls p pg ++ [(port, who, p.pace.datum)]) :
      openStalls (if classOf pg = 1 then raiseBlock q pg 1 else q) pg = openStalls p pg ++ [(port, who, p.pace.datum)] := by
    split
    · rw [openStalls_raiseBlock, h]
    · exact h
  unfold doStallBegin
  dsimp only
  rw [if_pos (by simp [hb, hp, hport, hroom])]
  exact hrecord _ ((openStalls_waypoint _ _ _ _ _ _).trans (openStalls_setStalls _ _ _))

theorem doStallBegin_full {p : Pkg} {pg : Nat} (port who : Nat) (h : 4 ≤ (openStalls p pg).length) : doStallBegin pg port who p = p := by
  unfold doStallBegin
  dsimp only
  rw [if_neg]
  simp only [Bool.and_eq_true, decide_eq_true_eq]
  omega

/-- An item that moves ends its stall; a port without a stall has none to end. -/
theorem openStalls_doStallEnd (p : Pkg) (pg port who beats ns : Nat) :
    openStalls (doStallEnd pg port who beats ns p) pg = (openStalls p pg).filter (fun x => x.1 != port) := by
  have hend (arg : Nat) : openStalls (if (openStalls p pg).any (fun x => x.1 == port) then
      waypoint (setStalls p pg ((openStalls p pg).filter (fun x => x.1 != port))) pg 0x16 port arg else p) pg =
        (openStalls p pg).filter (fun x => x.1 != port) := by
    split
    · rw [openStalls_waypoint, openStalls_setStalls]
    next h =>
      refine (List.filter_eq_self.2 fun x hx => ?_).symm
      have hne : ¬ (x.1 == port) = true := fun he => h (List.any_eq_true.2 ⟨x, hx, he⟩)
      simpa [bne] using hne
  unfold doStallEnd
  dsimp only
  split
  · split
    · rw [openStalls_traceCmd]
      exact hend _
    · exact hend _
  · exact hend _

/-! ## Records (R695 to R697) -/

theorem trace_setTrace (p : Pkg) (t : Nat) (x : TraceBlk) : trace (setTrace p t x) t = x := SMap.get_set_self _ _ _ _

theorem reg_setTrace (p : Pkg) (t : Nat) (x : TraceBlk) (k : Nat) : reg (setTrace p t x) k = reg p k := reg_congr rfl rfl rfl k

theorem OnlyInt.trace_eq {p q : Pkg} (h : OnlyInt p q) (t : Nat) : trace q t = trace p t := by
  obtain ⟨a, b, c, rfl⟩ := h
  rfl

/-- A record leaves the queue; with none dropped, or with the buffer still full, no LOST record joins. -/
theorem traceShift_eq {p : Pkg} {t : Nat} (rest : List Item) (h : (trace p t).lost = 0 ∨ bit p (trControl t) 28 = true) :
    traceShift p t rest = setBit (setTrace p t { trace p t with queue := rest }) (trControl t) 27 (!rest.isEmpty) := by
  have hsame : (if bit (setTrace p t { trace p t with queue := rest }) (trControl t) 28 then setTrace p t { trace p t with queue := rest }
      else traceLost (setTrace p t { trace p t with queue := rest }) t) = setTrace p t { trace p t with queue := rest } := by
    rw [bit_congr (reg_setTrace _ _ _ _)]
    split
    · rfl
    next hfull =>
      have hlost : (trace p t).lost = 0 := h.resolve_right hfull
      rw [traceLost]
      dsimp only
      rw [trace_setTrace, if_pos (.inl hlost)]
  unfold traceShift
  dsimp only
  rw [hsame, trace_setTrace]

theorem trace_setBit (p : Pkg) (k n : Nat) (b : Bool) (t : Nat) : trace (setBit p k n b) t = trace p t := rfl

/-- The package once TR_PRODUCED has advanced, with the notification of TR_NOTIFY. -/
def produced (p : Pkg) (t : Nat) : Pkg :=
  let p1 := addReg p (key (pgTr t) 0x110) 1
  if fld p (key (pgTr t) 0x128) 4 0 ≠ 0 ∧ regN p1 (key (pgTr t) 0x110) % 2 ^ fld p (key (pgTr t) 0x128) 4 0 = 0 then
    raiseBlock p1 (pgTr t) 0 else p1

theorem produced_only (p : Pkg) (t : Nat) : OnlyInt p (produced p t) := by
  unfold produced
  dsimp only
  split
  · exact (addReg_only _ _ _).trans (raiseBlock_only _ _ _)
  · exact addReg_only _ _ _

theorem reg_produced (p : Pkg) (t : Nat) : reg (produced p t) (key (pgTr t) 0x110) = reg p (key (pgTr t) 0x110) + 1 := by
  have hadd : reg (addReg p (key (pgTr t) 0x110) 1) (key (pgTr t) 0x110) = reg p (key (pgTr t) 0x110) + 1 := reg_setReg_self _ _ _
  unfold produced
  dsimp only
  split
  · rw [raiseBlock_reg_own _ _ _ _ (by decide) (by decide), hadd]
  · exact hadd

theorem doTraceRecordWrite_writes {p : Pkg} {t : Nat} {i : Item} {rest : List Item} (hq : (trace p t).queue = i :: rest)
    (hr : traceRuns p t = true) (hfull : traceFull p t = false) (hmem : populatedRange p (traceSlot p t) 64 = true) :
    doTraceRecordWrite t p = traceShift (produced p t) t rest := by
  rw [doTraceRecordWrite, hq]
  dsimp only
  rw [if_neg (by simp [hr]), if_neg (by simp [hfull]), if_pos hmem, produced]

/-- A record that is written: the queue's rest is left, TR_PRODUCED advances past it, and BUSY shows the rest. -/
theorem traceRecord_written {p : Pkg} {t : Nat} {i : Item} {rest : List Item} (hq : (trace p t).queue = i :: rest)
    (hr : traceRuns p t = true) (hfull : traceFull p t = false) (hmem : populatedRange p (traceSlot p t) 64 = true)
    (hlost : (trace p t).lost = 0) : (trace (doTraceRecordWrite t p) t).queue = rest ∧
      reg (doTraceRecordWrite t p) (key (pgTr t) 0x110) = reg p (key (pgTr t) 0x110) + 1 ∧
      bit (doTraceRecordWrite t p) (trControl t) 27 = !rest.isEmpty := by
  have htr := (produced_only p t).trace_eq t
  rw [doTraceRecordWrite_writes hq hr hfull hmem, traceShift_eq rest (.inl (by rw [htr, hlost]))]
  refine ⟨?_, ?_, bit_setBit_self _ _ _ _ (by decide)⟩
  · rw [trace_setBit, trace_setTrace]
  · rw [setBit, trControl, reg_setFld_ne _ _ _ _ (key_ne _ _ (by decide) (by decide) (by decide)), reg_setTrace, reg_produced]

/-- FULL shows, and the dropped record counts. -/
def traceDropped (p : Pkg) (t : Nat) : Pkg :=
  let p1 := if bit p (trControl t) 28 then p else raiseBlock (setBit p (trControl t) 28 true) (pgTr t) 1
  let p2 := raiseBlock (bumpReg p1 (key (pgTr t) 0x120) 1 0xFFFFFFFF) (pgTr t) 2
  setTrace p2 t { trace p2 t with lost := (trace p2 t).lost + 1 }

theorem doTraceRecordWrite_drops {p : Pkg} {t : Nat} {i : Item} {rest : List Item} (hq : (trace p t).queue = i :: rest)
    (hr : traceRuns p t = true) (hfull : traceFull p t = true) : doTraceRecordWrite t p = traceShift (traceDropped p t) t rest := by
  rw [doTraceRecordWrite, hq]
  dsimp only
  rw [if_neg (by simp [hr]), if_pos hfull, traceDropped]

theorem traceDropped_shows (p : Pkg) (t : Nat) : bit (traceDropped p t) (trControl t) 28 = true ∧
    reg (traceDropped p t) (key (pgTr t) 0x110) = reg p (key (pgTr t) 0x110) ∧
    regN (traceDropped p t) (key (pgTr t) 0x120) = min 0xFFFFFFFF (regN p (key (pgTr t) 0x120) + 1) := by
  have hint (q : Pkg) (n off : Nat) (ho : off < 0x1000) (h : 0x100 ≤ off) :
      reg (raiseBlock q (pgTr t) n) (key (pgTr t) off) = reg q (key (pgTr t) off) := raiseBlock_reg_own q _ _ _ ho h
  have hbump (q : Pkg) (off : Nat) (ho : off < 0x1000) (h : off ≠ 0x120) :
      reg (bumpReg q (key (pgTr t) 0x120) 1 0xFFFFFFFF) (key (pgTr t) off) = reg q (key (pgTr t) off) :=
    reg_setReg_ne _ _ (key_ne _ _ ho (by decide) h)
  have hfull (off : Nat) (ho : off < 0x1000) (h : 0x100 < off) :
      reg (if bit p (trControl t) 28 then p else raiseBlock (setBit p (trControl t) 28 true) (pgTr t) 1) (key (pgTr t) off) =
        reg p (key (pgTr t) off) := by
    split
    · rfl
    · rw [hint _ _ _ ho (by omega)]
      exact reg_setFld_ne _ _ _ _ (key_ne _ _ ho (by decide) (by omega))
  unfold traceDropped
  dsimp only
  refine ⟨?_, ?_, ?_⟩
  · rw [bit_congr (reg_setTrace _ _ _ _), trControl, bit_congr (hint _ _ _ (by decide) (by decide)),
      bit_congr (hbump _ _ (by decide) (by decide))]
    split
    next h => exact h
    next =>
      rw [bit_congr (hint _ _ _ (by decide) (by decide))]
      exact bit_setBit_self _ _ _ _ (by decide)
  · rw [reg_setTrace, hint _ _ _ (by decide) (by decide), hbump _ _ (by decide) (by decide), hfull _ (by decide) (by decide)]
  · rw [regN, reg_setTrace, hint _ _ _ (by decide) (by decide), ← regN, regN_bumpReg, regN, hfull _ (by decide) (by decide), ← regN]

/-- A record for a full STOP-mode buffer is dropped and counted. -/
theorem traceRecord_dropped {p : Pkg} {t : Nat} {i : Item} {rest : List Item} (hq : (trace p t).queue = i :: rest)
    (hr : traceRuns p t = true) (hfull : traceFull p t = true) :
    reg (doTraceRecordWrite t p) (key (pgTr t) 0x110) = reg p (key (pgTr t) 0x110) ∧
      bit (doTraceRecordWrite t p) (trControl t) 28 = true ∧
      regN (doTraceRecordWrite t p) (key (pgTr t) 0x120) = min 0xFFFFFFFF (regN p (key (pgTr t) 0x120) + 1) := by
  obtain ⟨h28, h110, h120⟩ := traceDropped_shows p t
  have hshift (off : Nat) (ho : off < 0x1000) (h : off ≠ 0x100) (x : TraceBlk) (b : Bool) :
      reg (setBit (setTrace (traceDropped p t) t x) (trControl t) 27 b) (key (pgTr t) off) =
        reg (traceDropped p t) (key (pgTr t) off) :=
    (reg_setFld_ne _ _ _ _ (key_ne _ _ ho (by decide) h)).trans (reg_setTrace _ _ _ _)
  rw [doTraceRecordWrite_drops hq hr hfull, traceShift_eq rest (.inr h28)]
  refine ⟨?_, ?_, ?_⟩
  · rw [hshift _ (by decide) (by decide), h110]
  · rw [bit_setBit_beside _ _ _ _ _ (by decide) (by decide), bit_congr (reg_setTrace _ _ _ _), h28]
  · rw [regN, hshift _ (by decide) (by decide), ← regN, h120]

/-! ## Writes of the trace block's registers (R697, R698) -/

theorem bitOf_setWidth64 (v : W32) {n : Nat} (h : n < 32) : bitOf (v.setWidth 64 : W64) n = bitOf v n := by
  rw [bitOf_eq_getLsbD, bitOf_eq_getLsbD, BitVec.getLsbD_setWidth]
  simp only [show n < 64 by omega, decide_true, Bool.true_and]

theorem bitsOf_setWidth64 (v : W32) (hi lo : Nat) : bitsOf (v.setWidth 64 : W64) hi lo = bitsOf v hi lo := by
  have hv : (v.setWidth 64 : W64).toNat = v.toNat := by
    rw [BitVec.toNat_setWidth]
    exact Nat.mod_eq_of_lt (by omega)
  rw [bitsOf, hv, bitsOf]

/-- TR_CONTROL as a write leaves it: ENABLE, the modes and FILTER as written. -/
theorem traceControl_merged (old v : W64) : bitOf (mergeWrite (rw4 0x100 (msk 31 29 + msk 5 0)) old v) 31 = bitOf v 31 ∧
    bitsOf (mergeWrite (rw4 0x100 (msk 31 29 + msk 5 0)) old v) 5 0 = bitsOf v 5 0 := by
  have hfilter : ∀ i : Fin 6, (msk 31 29 + msk 5 0).testBit i = true := by decide
  exact ⟨bitOf_mergeWrite old v (by decide) rfl (by decide),
    bitsOf_mergeWrite old v (by decide) rfl fun i _ hi => hfilter ⟨i, by omega⟩⟩

/-- Setting ENABLE starts the record numbers and the counters anew. -/
def traceRestarted (p : Pkg) (t : Nat) : Pkg :=
  setBit (setTrace (setReg (setReg (setReg p (key (pgTr t) 0x110) 0) (key (pgTr t) 0x118) 0) (key (pgTr t) 0x120) 0) t
    { trace p t with lost := 0 }) (trControl t) 28 false

theorem traceRestarted_shows (p : Pkg) (t : Nat) : (trace (traceRestarted p t) t).queue = (trace p t).queue ∧
    bit (traceRestarted p t) (trControl t) 31 = bit p (trControl t) 31 ∧
    fld (traceRestarted p t) (trControl t) 5 0 = fld p (trControl t) 5 0 ∧ reg (traceRestarted p t) (key (pgTr t) 0x110) = 0 ∧
    reg (traceRestarted p t) (key (pgTr t) 0x118) = 0 ∧ reg (traceRestarted p t) (key (pgTr t) 0x120) = 0 := by
  have hne (x y : Nat) (hx : x < 0x1000) (hy : y < 0x1000) (h : x ≠ y) : key (pgTr t) x ≠ key (pgTr t) y := key_ne _ _ hx hy h
  have hzero (off : Nat) (ho : off < 0x1000) (h : off ≠ 0x100) : reg (traceRestarted p t) (key (pgTr t) off) =
      reg (setReg (setReg (setReg p (key (pgTr t) 0x110) 0) (key (pgTr t) 0x118) 0) (key (pgTr t) 0x120) 0) (key (pgTr t) off) :=
    (reg_setFld_ne _ _ _ _ (hne _ _ ho (by decide) h)).trans (reg_setTrace _ _ _ _)
  have hcontrol : reg (setTrace (setReg (setReg (setReg p (key (pgTr t) 0x110) 0) (key (pgTr t) 0x118) 0) (key (pgTr t) 0x120) 0) t
      { trace p t with lost := 0 }) (trControl t) = reg p (trControl t) := by
    rw [reg_setTrace, trControl, reg_setReg_ne _ _ (hne _ _ (by decide) (by decide) (by decide)),
      reg_setReg_ne _ _ (hne _ _ (by decide) (by decide) (by decide)), reg_setReg_ne _ _ (hne _ _ (by decide) (by decide) (by decide))]
  refine ⟨?_, ?_, ?_, ?_, ?_, ?_⟩
  · rw [traceRestarted, trace_setBit, trace_setTrace]
  · rw [traceRestarted, bit_setBit_beside _ _ _ _ _ (by decide) (by decide), bit_congr hcontrol]
  · rw [traceRestarted, setBit, fld_setFld_beside _ _ _ _ _ _ _ (by decide) (by decide) (by decide) (by decide), fld_congr hcontrol]
  · rw [hzero _ (by decide) (by decide), reg_setReg_ne _ _ (hne _ _ (by decide) (by decide) (by decide)),
      reg_setReg_ne _ _ (hne _ _ (by decide) (by decide) (by decide)), reg_setReg_self]
  · rw [hzero _ (by decide) (by decide), reg_setReg_ne _ _ (hne _ _ (by decide) (by decide) (by decide)), reg_setReg_self]
  · rw [hzero _ (by decide) (by decide), reg_setReg_self]

theorem putTraceControl_shows (t : Nat) (v : W64) (p : Pkg) : bit (putTraceControl t v p) (trControl t) 31 = bitOf v 31 ∧
    fld (putTraceControl t v p) (trControl t) 5 0 = bitsOf v 5 0 ∧ (trace (putTraceControl t v p) t).queue = (trace p t).queue ∧
    (bitOf v 31 = true → reg (putTraceControl t v p) (key (pgTr t) 0x110) = 0 ∧ reg (putTraceControl t v p) (key (pgTr t) 0x118) = 0 ∧
      reg (putTraceControl t v p) (key (pgTr t) 0x120) = 0) := by
  obtain ⟨henable, hfilter⟩ := traceControl_merged (reg p (trControl t)) v
  generalize hnew : mergeWrite (rw4 0x100 (msk 31 29 + msk 5 0)) (reg p (trControl t)) v = new at henable hfilter
  have hbit : bit (setReg p (trControl t) new) (trControl t) 31 = bitOf v 31 := by rw [bit, reg_setReg_self, henable]
  have hfld : fld (setReg p (trControl t) new) (trControl t) 5 0 = bitsOf v 5 0 := by rw [fld, reg_setReg_self, hfilter]
  have hput : putTraceControl t v p = if bitOf v 31 then traceRestarted (setReg p (trControl t) new) t else setReg p (trControl t) new := by
    rw [← hnew]
    rfl
  rw [hput]
  split
  next h =>
    obtain ⟨hqueue, h31, hf, hzero⟩ := traceRestarted_shows (setReg p (trControl t) new) t
    exact ⟨h31.trans hbit, hf.trans hfld, hqueue, fun _ => hzero⟩
  next h => exact ⟨hbit, hfld, rfl, fun he => absurd he h⟩

/-- TR_BUFFER as a write leaves it: the buffer's base and size as written. -/
theorem trBuffer_merged (old v : W64) : trBase (mergeWrite (rw8 0x108 (msk 51 12 + msk 4 0)) old v) = trBase v ∧
    bitsOf (mergeWrite (rw8 0x108 (msk 51 12 + msk 4 0)) old v) 4 0 = bitsOf v 4 0 := by
  have hsize : ∀ i : Fin 5, (msk 51 12 + msk 4 0).testBit i = true := by decide
  have hbase : ∀ i : Fin 52, 12 ≤ i.val → (msk 51 12 + msk 4 0).testBit i = true := by decide
  exact ⟨congrArg (· * 4096) (bitsOf_mergeWrite old v (by decide) rfl fun i hlo hi => hbase ⟨i, by omega⟩ hlo),
    bitsOf_mergeWrite old v (by decide) rfl fun i _ hi => hsize ⟨i, by omega⟩⟩

/-- The conditions of R698 for a write of TR_BUFFER. -/
def TrBufferOk (p : Pkg) (t : Nat) (v : W64) : Prop :=
  bit p (trControl t) 31 = false ∧ 6 ≤ bitsOf v 4 0 ∧ bitsOf v 4 0 ≤ 24 ∧ hbmOrScratch p (trBase v) (64 * trSize v) = true

theorem putTrBuffer_takes {p : Pkg} {t : Nat} {v : W64} :
    (TrBufferOk p t v → trBase (reg (putTrBuffer t v p) (key (pgTr t) 0x108)) = trBase v ∧
      trSize (reg (putTrBuffer t v p) (key (pgTr t) 0x108)) = trSize v) ∧ (¬ TrBufferOk p t v → putTrBuffer t v p = p) := by
  obtain ⟨hbase, hsize⟩ := trBuffer_merged (reg p (key (pgTr t) 0x108)) v
  generalize hnew : mergeWrite (rw8 0x108 (msk 51 12 + msk 4 0)) (reg p (key (pgTr t) 0x108)) v = new at hbase hsize
  have hsz : trSize new = trSize v := congrArg (2 ^ ·) hsize
  have hok : TrBufferOk p t new ↔ TrBufferOk p t v := by
    simp only [TrBufferOk, hbase, hsize, hsz]
  refine ⟨fun h => ?_, fun h => ?_⟩
  · have hput : putTrBuffer t v p = setReg p (key (pgTr t) 0x108) new := by
      rw [← hnew] at hok ⊢
      exact if_pos (hok.2 h)
    rw [hput, reg_setReg_self]
    exact ⟨hbase, hsz⟩
  · rw [← hnew] at hok
    exact if_neg fun h' => h (hok.1 h')

theorem traceLost_reg (p : Pkg) (t k : Nat) : reg (traceLost p t) k = reg p k := by
  unfold traceLost
  dsimp only
  split
  · rfl
  · exact reg_setTrace _ _ _ _

/-- A write of TR_CONSUMED that is not above TR_PRODUCED is taken, and FULL clears. -/
theorem putTrConsumed_takes {p : Pkg} {t : Nat} {v : W64} (h : v.toNat ≤ regN p (key (pgTr t) 0x110)) :
    reg (putTrConsumed t v p) (key (pgTr t) 0x118) = v ∧ bit (putTrConsumed t v p) (trControl t) 28 = false := by
  have hne : trControl t ≠ key (pgTr t) 0x118 := key_ne _ _ (by decide) (by decide) (by decide)
  rw [putTrConsumed, if_neg (by omega)]
  dsimp only
  split
  next hfull =>
    constructor
    · rw [setBit, reg_setFld_ne _ _ _ _ hne.symm, traceLost_reg, setBit, reg_setFld_ne _ _ _ _ hne.symm, reg_setReg_self]
    · rw [bit_setBit_beside _ _ _ _ _ (by decide) (by decide), bit_congr (traceLost_reg _ _ _),
        bit_setBit_self _ _ _ _ (by decide)]
  next hfull =>
    refine ⟨reg_setReg_self _ _ _, ?_⟩
    rw [bit_congr (reg_setReg_ne _ _ hne)]
    simpa using hfull

/-- Settles O57. -/
theorem stallsAndTracesAreRecorded : Obligations.StallsAndTracesAreRecorded := by
  unfold Obligations.StallsAndTracesAreRecorded
  refine ⟨fun s pg port who hb hp hport => ⟨fun hroom => ?_, fun hfull => ?_⟩, fun s pg port who beats ns => ?_,
    fun s t i rest hq hr => ⟨fun hfull hmem hlost => ?_, fun hfull => ?_⟩, fun s rq t v ht hw => ?_,
    fun s rq t v ht hw => ⟨fun hbad => ?_, fun h31 hlo hhi hmem => ?_⟩, fun s rq t v ht hw => ⟨fun hhigh => ?_, fun hok => ?_⟩⟩
  · exact ⟨_, rfl, rfl, doStallBegin_records who hb hp hport hroom⟩
  · exact next_onPkg (doStallBegin_full port who hfull)
  · exact ⟨_, rfl, rfl, openStalls_doStallEnd _ _ _ _ _ _⟩
  · have hexec : exec (.traceRecordWrite t) s = .next { s with
        mem := s.mem.storeLine (traceSlot s.pkg t) (traceLine s.pkg t i) false, pkg := doTraceRecordWrite t s.pkg } := by
      have hdo : exec (.traceRecordWrite t) s = execTraceRecordWrite t s := rfl
      rw [hdo, execTraceRecordWrite, hq]
      exact if_pos (by simp [hr, hfull, hmem])
    exact ⟨_, hexec, rfl, traceRecord_written hq hr hfull hmem hlost⟩
  · have hexec : exec (.traceRecordWrite t) s = .next (s.onPkg (doTraceRecordWrite t)) := by
      have hdo : exec (.traceRecordWrite t) s = execTraceRecordWrite t s := rfl
      rw [hdo, execTraceRecordWrite, hq]
      exact if_neg (by simp [hfull])
    exact ⟨_, hexec, rfl, traceRecord_dropped hq hr hfull⟩
  · have hdo : doTraceEnable rq t v s.pkg = putTraceControl t (v.setWidth 64) s.pkg := by
      rw [doTraceEnable, if_pos ht, ifWrites_accepted _ hw]
    have hshows := putTraceControl_shows t (v.setWidth 64) s.pkg
    rw [bitOf_setWidth64 v (by decide), bitsOf_setWidth64] at hshows
    exact ⟨_, next_onPkg hdo, rfl, hshows⟩
  · have hdo : doTrBufferWrite rq t v s.pkg = s.pkg := by
      rw [doTrBufferWrite, if_pos ht, ifWrites_accepted _ hw]
      refine putTrBuffer_takes.2 ?_
      rintro ⟨h31, hlo, hhi, hmem⟩
      rcases hbad with h | h | h | h
      · rw [h31] at h
        cases h
      · omega
      · omega
      · rw [hmem] at h
        cases h
    exact next_onPkg hdo
  · have hdo : doTrBufferWrite rq t v s.pkg = putTrBuffer t v s.pkg := by
      rw [doTrBufferWrite, if_pos ht, ifWrites_accepted _ hw]
    exact ⟨_, next_onPkg hdo, rfl, putTrBuffer_takes.1 ⟨h31, hlo, hhi, hmem⟩⟩
  · have hdo : doTrConsumedWrite rq t v s.pkg = s.pkg := by
      rw [doTrConsumedWrite, if_pos ht, ifWrites_accepted _ hw, putTrConsumed, if_pos hhigh]
    exact next_onPkg hdo
  · have hdo : doTrConsumedWrite rq t v s.pkg = putTrConsumed t v s.pkg := by
      rw [doTrConsumedWrite, if_pos ht, ifWrites_accepted _ hw]
    exact ⟨_, next_onPkg hdo, rfl, putTrConsumed_takes hok⟩

end Sys2Proof.Machine
end

section
/-! SPDM and IDE (R533, R534): the proof of O43. -/

namespace Sys2Proof.Machine

/-! ## SPDM requests -/

/-- A request that the negotiation has come far enough for is served. -/
theorem spdmServe_serves {p : Pkg} {need : Nat} (f : Pkg → Pkg) (hrun : p.boot.running.isNone = false) (h : need ≤ p.hl.spdm) :
    spdmServe need f p = f p := by
  rw [spdmServe, if_neg (by simp [hrun]), if_pos h]

theorem inSession_secured {p : Pkg} {id : Nat} (f : Pkg → Pkg) (h : session p id = 2) : inSession id f p = f p := if_pos h

theorem inSession_refuses {p : Pkg} {id : Nat} (f : Pkg → Pkg) (h : session p id ≠ 2) : inSession id f p = spdmError p 2 := if_neg h

theorem session_set (p : Pkg) (id v code param : Nat) (data : W64) :
    session (respondSpdm (setHl p { p.hl with sessions := SMap.set p.hl.sessions id v }) code param data) id = v :=
  SMap.get_set_self _ _ _ _

theorem session_dropSession (p : Pkg) (id : Nat) : session (dropSession p id) id = 0 := by
  have hdrop : session (dropSession p id) id = SMap.get (SMap.drop p.hl.sessions (fun k => k == id)) id 0 := rfl
  rw [hdrop, SMap.get_drop]
  simp

/-- The first of two sessions is numbered 1 in the upper half. -/
theorem doKeyExchange_first {p : Pkg} {reqId : Nat} (h : p.hl.sessions = []) (hr : reqId < 65536) : doKeyExchange reqId p =
    respondSpdm (setHl p { p.hl with sessions := SMap.set p.hl.sessions (65536 + reqId) 1 }) 0x64 (65536 + reqId) 0 := by
  have hfind : [1, 2].find? (fun r => !(p.hl.sessions.any fun x => x.1 / 65536 == r)) = some 1 := by
    rw [h]
    rfl
  have hid : 1 * 65536 + reqId % 65536 = 65536 + reqId := by omega
  unfold doKeyExchange
  dsimp only
  rw [hfind]
  dsimp only
  rw [hid]

theorem doFinish_good {p : Pkg} {id : Nat} (h : session p id = 1) : doFinish id true p =
    respondSpdm (setHl p { p.hl with sessions := SMap.set p.hl.sessions id 2 }) 0x65 0 0 := by
  rw [doFinish, if_neg (by simp [h]), if_pos rfl]

theorem doFinish_bad {p : Pkg} {id : Nat} (h : session p id = 1) : doFinish id false p = spdmError (dropSession p id) 6 := by
  rw [doFinish, if_neg (by simp [h]), if_neg Bool.false_ne_true]

theorem doGetMeasurements_one {p : Pkg} {index : Nat} (h0 : 0 < index) (h5 : index ≤ 5) :
    doGetMeasurements index p = respondSpdm p 0x60 index (measurement p index) := by
  rw [doGetMeasurements, if_neg (by omega), if_pos h5]

/-! ## IDE streams -/

theorem ideStream_setStream (p : Pkg) (n : Nat) (x : IdeStream) (code param : Nat) (data : W64) :
    ideStream (respondSpdm (setStream p n x) code param data) n = x := SMap.get_set_self _ _ _ _

/-- A stream goes secure with the keys of both directions, and not without them. -/
theorem ideStream_doIdeKm {p : Pkg} {stream : Nat} (h : stream < 4) :
    ideStream (doIdeKm stream 0 p) stream = { ideStream p stream with tx := true } ∧
    ideStream (doIdeKm stream 1 p) stream = { ideStream p stream with rx := true } ∧
    ideStream (doIdeKm stream 2 p) stream = (if (ideStream p stream).tx && (ideStream p stream).rx then
        { ideStream p stream with secure := true, insecure := false } else ideStream p stream) ∧
    ideStream (doIdeKm stream 3 p) stream = ⟨false, false, false, false⟩ := by
  have takes (y : IdeStream) (op : Nat) : ideStream (if stream < 4 then respondSpdm (setStream p stream y) 0x7E (stream * 256 + op) 0
      else spdmError p 1) stream = y := by
    rw [if_pos h, ideStream_setStream]
  refine ⟨takes _ 0, takes _ 1, ?_, takes _ 3⟩
  cases hkeys : (ideStream p stream).tx && (ideStream p stream).rx with
  | true =>
    have hkm : doIdeKm stream 2 p = if stream < 4 then respondSpdm (setStream p stream
        { ideStream p stream with secure := true, insecure := false }) 0x7E (stream * 256 + 2) 0 else spdmError p 1 := by
      simp [doIdeKm, hkeys]
    rw [hkm, takes]
    rfl
  | false =>
    have hkm : doIdeKm stream 2 p = spdmError p 1 := by simp [doIdeKm, hkeys]
    rw [hkm]
    rfl

theorem cfgStored_setAer (p : Pkg) (n : Nat) : cfgStored (setAer p n) 0x104 = withBits (cfgStored p 0x104) n n 1 :=
  cfgStored_putCfg p 0x104 _

/-- A check failure sets the AER bit of a PCIe stream and makes it insecure. -/
theorem doIdeCheck_pcie {p : Pkg} {stream : Nat} (h : (ideStream p stream).secure = true) :
    ideStream (doIdeCheck stream false p) stream = ⟨false, false, false, true⟩ ∧
      bitOf (cfgStored (doIdeCheck stream false p) 0x104) 28 = true := by
  have hcheck : doIdeCheck stream false p =
      setAer (setStream (logErr p pgHl ⟨0x83, 0, 0, 0, stream % 256⟩) stream ⟨false, false, false, true⟩) 28 := if_pos h
  rw [hcheck]
  refine ⟨SMap.get_set_self _ _ _ _, ?_⟩
  rw [cfgStored_setAer, bitOf_eq_bitsOf, bitsOf_withBits _ _ _ _ (by decide) (by decide)]
  rfl

theorem doIdeCheck_cachemem {p : Pkg} {stream : Nat} (h : (ideStream p stream).secure = true) :
    ideStream (doIdeCheck stream true p) stream = ideStream p stream := by
  have hcheck : doIdeCheck stream true p = logErr p pgHl ⟨0x83, 0, 0, 0, stream % 256⟩ := if_pos h
  rw [hcheck, ideStream, (logErr_only _ _ _).hl_eq, ← ideStream]

/-- Settles O43. -/
theorem spdmIsAnsweredAndIdeNeedsBothKeys : Obligations.SpdmIsAnsweredAndIdeNeedsBothKeys := by
  unfold Obligations.SpdmIsAnsweredAndIdeNeedsBothKeys
  refine ⟨fun s hrun => ⟨⟨_, next_onPkg (spdmServe_serves _ hrun (Nat.zero_le _)), rfl, rfl, rfl, rfl⟩, fun h1 => ?_, fun h2 => ?_,
    fun h3 => ?_⟩, fun s id stream hrun h3 hs hstream => ?_, fun s stream hsec => ⟨?_, ?_⟩⟩
  · exact ⟨_, next_onPkg (spdmServe_serves _ hrun h1), rfl, Nat.le_max_left _ _, rfl⟩
  · exact ⟨⟨_, next_onPkg (spdmServe_serves _ hrun h2), rfl, rfl, rfl⟩, ⟨_, next_onPkg (spdmServe_serves _ hrun h2), rfl, rfl⟩⟩
  · have serves (f : Pkg → Pkg) : spdmServe 3 f s.pkg = f s.pkg := spdmServe_serves f hrun h3
    refine ⟨⟨_, next_onPkg (serves _), rfl, rfl⟩, ⟨_, next_onPkg (serves _), rfl, rfl⟩, ⟨_, _, next_onPkg (serves _), rfl, rfl⟩,
      fun index h0 h5 => ⟨_, next_onPkg ((serves _).trans (doGetMeasurements_one h0 h5)), rfl, rfl⟩,
      fun reqId hempty hr => ⟨_, next_onPkg ((serves _).trans (doKeyExchange_first hempty hr)), rfl, session_set _ _ _ _ _ _, rfl⟩,
      fun id h1 => ⟨⟨_, next_onPkg ((serves _).trans (doFinish_good h1)), rfl, session_set _ _ _ _ _ _⟩,
        ⟨_, next_onPkg ((serves _).trans (doFinish_bad h1)), rfl, session_dropSession _ _⟩⟩,
      fun id h2 => ?_, fun id hne => ⟨_, next_onPkg ((serves _).trans (inSession_refuses _ hne)), rfl, rfl⟩⟩
    exact ⟨⟨_, next_onPkg ((serves _).trans (inSession_secured _ h2)), rfl, rfl⟩,
      ⟨_, next_onPkg ((serves _).trans (inSession_secured _ h2)), rfl, rfl⟩,
      ⟨_, next_onPkg ((serves _).trans (inSession_secured _ h2)), rfl, session_dropSession _ _⟩⟩
  · obtain ⟨htx, hrx, hsecure, hstop⟩ := ideStream_doIdeKm (p := s.pkg) hstream
    have serves (op : Nat) : spdmServe 3 (inSession id (doIdeKm stream op)) s.pkg = doIdeKm stream op s.pkg :=
      (spdmServe_serves _ hrun h3).trans (inSession_secured _ hs)
    exact ⟨⟨_, next_onPkg (serves 0), rfl, htx⟩, ⟨_, next_onPkg (serves 1), rfl, hrx⟩, ⟨_, next_onPkg (serves 2), rfl, hsecure⟩,
      ⟨_, next_onPkg (serves 3), rfl, hstop⟩⟩
  · exact ⟨_, rfl, rfl, doIdeCheck_pcie hsec⟩
  · exact ⟨_, rfl, rfl, doIdeCheck_cachemem hsec⟩

end Sys2Proof.Machine
end

section
/-! Safe hold is entered and left (R608 to R613, R670): the proof of O49. -/

namespace Sys2Proof.Machine

/-! ## Operations that leave the power and sequencer states -/

/-- The power state and the sequencer's state are kept, whatever the registers show. -/
def KeepsPower (p q : Pkg) : Prop := q.pwr = p.pwr ∧ q.seq = p.seq

theorem KeepsPower.refl (p : Pkg) : KeepsPower p p := ⟨rfl, rfl⟩

theorem KeepsPower.trans {p q r : Pkg} (h : KeepsPower p q) (g : KeepsPower q r) : KeepsPower p r :=
  ⟨g.1.trans h.1, g.2.trans h.2⟩

theorem OnlyLog.pwr_eq {p q : Pkg} (h : OnlyLog p q) : q.pwr = p.pwr := by
  obtain ⟨_, _, _, _, _, rfl⟩ := h
  rfl

theorem OnlyLog.keepsPower {p q : Pkg} (h : OnlyLog p q) : KeepsPower p q := ⟨h.pwr_eq, h.seq_eq⟩

theorem KeepsPower.foldl {α : Type} {f : Pkg → α → Pkg} (hf : ∀ p a, KeepsPower p (f p a)) (l : List α) (p : Pkg) :
    KeepsPower p (l.foldl f p) := by
  induction l generalizing p with
  | nil => exact .refl p
  | cons a l ih => exact (hf p a).trans (ih _)

theorem keepsPower_setPlState (p : Pkg) (i st : Nat) : KeepsPower p (setPlState p i st) := by
  have hint (q : Pkg) (pg n : Nat) : KeepsPower q (raiseBlock q pg n) := (raiseBlock_only q pg n).log.keepsPower
  have hshown (k : Nat) (x : PortSt) (b : Bool) : KeepsPower p (setPort (setBit (setFld (setFld (setFld p k 31 28 st) k 25 24 (lamps st).1)
      k 23 22 (lamps st).2) (key pgRt 0x130) i b) i x) := ⟨rfl, rfl⟩
  have hone (c : Prop) [Decidable c] (q : Pkg) (pg n : Nat) (h : KeepsPower p q) : KeepsPower p (if c then q else raiseBlock q pg n) := by
    split
    · exact h
    · exact h.trans (hint _ _ _)
  unfold setPlState
  dsimp only
  split
  · exact hone _ _ _ _ (hshown _ _ _)
  · exact ((hone _ _ _ _ (hshown _ _ _)).trans (hint _ _ _)).trans (waypoint_only _ _ _ _ _).keepsPower

/-- Light is switched on, and ports train: of the sequencer's state only the lasers change. -/
theorem portsLight_power (p : Pkg) : (portsLight p).pwr = p.pwr ∧ (portsLight p).seq = { p.seq with lasers := true } := by
  have hports : KeepsPower { p with seq := { p.seq with lasers := true } } (portsLight p) := by
    refine .foldl (fun q i => ?_) _ _
    split
    · exact keepsPower_setPlState _ _ _
    · exact .refl q
  exact hports

/-- A rail's new target changes what is wanted alone. -/
theorem target_power (p : Pkg) (r mv : Nat) : ∃ w, (target p r mv).pwr = { p.pwr with wanted := w } ∧ (target p r mv).seq = p.seq := by
  unfold target
  split
  · exact ⟨_, rfl, rfl⟩
  · exact ⟨p.pwr.wanted, rfl, rfl⟩

theorem targets_power (f : Pkg → Nat → Nat) (l : List Nat) (p : Pkg) : ∃ w,
    (l.foldl (fun q d => target q d (f q d)) p).pwr = { p.pwr with wanted := w } ∧
      (l.foldl (fun q d => target q d (f q d)) p).seq = p.seq := by
  induction l generalizing p with
  | nil => exact ⟨p.pwr.wanted, rfl, rfl⟩
  | cons d l ih =>
    obtain ⟨w, hpwr, hseq⟩ := ih (target p d (f p d))
    obtain ⟨w', hpwr', hseq'⟩ := target_power p d (f p d)
    exact ⟨w, hpwr.trans (by rw [hpwr']), hseq.trans hseq'⟩

/-- A package that wakes opens its gate and its memories leave self-refresh. -/
theorem wake_power (p : Pkg) : (wake p).pwr.gateClosed = false ∧ (wake p).seq.memRefresh = false := by
  obtain ⟨w, hpwr, hseq⟩ := targets_power (fun q d => if d < 4 then sheetVoltage q d (SMap.get q.pwr.budget d 0)
      else procVoltage q (1000 * fld q (key pgPwr 0x118) 25 16) (SMap.get q.pwr.budget 4 0)) (List.range 5)
    { p with
      pwr := { p.pwr with gateClosed := false, gateSet := if fixedOn p then fixedSet p else 0 }
      seq := { p.seq with memRefresh := false } }
  exact ⟨congrArg PwrSt.gateClosed hpwr, congrArg SeqSt.memRefresh hseq⟩

/-- A gate that closes takes the memories into self-refresh. -/
theorem gateDown_power (p : Pkg) : (gateDown p).pwr.gateClosed = true ∧ (gateDown p).seq.memRefresh = true := by
  obtain ⟨w, hpwr, hseq⟩ := targets_power (fun _ r => if r < 4 then 600 else 650) (List.range 5)
    { p with pwr := { p.pwr with gateClosed := true }, seq := { p.seq with memRefresh := true } }
  exact ⟨congrArg PwrSt.gateClosed hpwr, congrArg SeqSt.memRefresh hseq⟩

theorem keepsPower_setReady (p : Pkg) (pg : Nat) (b : Bool) : KeepsPower p (setReady p pg b) := (setReady_only p pg b).keepsPower

/-- READY falls: of the power state only the blocks remembered change. -/
theorem readyFalls_power (p : Pkg) : (readyFalls p).pwr.gateClosed = p.pwr.gateClosed ∧ (readyFalls p).seq = p.seq := by
  obtain ⟨hpwr, hseq⟩ := KeepsPower.foldl (f := fun q pg => setReady q pg false) (fun q pg => keepsPower_setReady q pg false)
    (blockPages.filter (fun pg => ready p pg && !staysReady pg)) p
  have hgate : (readyFalls p).pwr.gateClosed =
    ((blockPages.filter (fun pg => ready p pg && !staysReady pg)).foldl (fun q pg => setReady q pg false) p).pwr.gateClosed := rfl
  exact ⟨hgate.trans (congrArg PwrSt.gateClosed hpwr), hseq⟩

theorem keepsPower_setPwrState (p : Pkg) (n : Nat) : KeepsPower p (setPwrState p n) := (setPwrState_only p n).keepsPower

/-! ## The event (R608, R609) -/

/-- A cause of safe hold, as the power state remembers it. -/
def withHoldCause (cause : Nat) (p : Pkg) : Pkg := { p with pwr := { p.pwr with holdCause := cause } }

theorem keepsPower_dropTraces (p : Pkg) : KeepsPower p (dropTraces p) := ⟨rfl, rfl⟩

theorem holdCaused_power (cause : Nat) (q : Pkg) (k hi lo : Nat) :
    (setPwrState (withHoldCause cause (bumpFld q k hi lo)) 2).pwr = { q.pwr with holdCause := cause } ∧
      (setPwrState (withHoldCause cause (bumpFld q k hi lo)) 2).seq = q.seq :=
  keepsPower_setPwrState (withHoldCause cause (bumpFld q k hi lo)) 2

/-- What safe hold makes of a package whose harts are drained. -/
def holdTaken (cause : Nat) (p : Pkg) : Pkg :=
  setPwrState (withHoldCause cause (bumpFld (readyFalls (dropTraces (gateDown (lasersOff p)))) (key pgPwr 0x2C0) 31 16)) 2

theorem holdEntry_pkg {s : State} (cause : Nat) (h : ¬ (pwrState s.pkg = 1 ∨ pwrState s.pkg = 2)) :
    (holdEntry cause s).pkg = holdTaken cause (drainHarts (s.onPkg fun p => abortEngines (setPwrState p 1))).pkg := by
  rw [holdEntry, if_neg h]
  rfl

theorem holdTaken_power (cause : Nat) (p : Pkg) : (holdTaken cause p).pwr.holdCause = cause ∧
    (holdTaken cause p).pwr.gateClosed = true ∧ (holdTaken cause p).seq.memRefresh = true := by
  obtain ⟨hgate, hrefresh⟩ := gateDown_power (lasersOff p)
  obtain ⟨hready, hseq⟩ := readyFalls_power (dropTraces (gateDown (lasersOff p)))
  obtain ⟨hpwr, hseq'⟩ := holdCaused_power cause (readyFalls (dropTraces (gateDown (lasersOff p)))) (key pgPwr 0x2C0) 31 16
  rw [holdTaken, hpwr, hseq', hseq, (keepsPower_dropTraces _).2]
  rw [(keepsPower_dropTraces _).1] at hready
  refine ⟨?_, ?_, hrefresh⟩
  · rfl
  · dsimp only
    rw [hready, hgate]

/-- A package that has neither entered safe hold nor is about to. -/
theorem holdEntry_enters {s : State} (cause : Nat) (h1 : pwrState s.pkg ≠ 1) (h2 : pwrState s.pkg ≠ 2) :
    pwrState (holdEntry cause s).pkg = 2 ∧ (holdEntry cause s).pkg.pwr.holdCause = cause ∧
      (holdEntry cause s).pkg.pwr.gateClosed = true ∧ (holdEntry cause s).pkg.seq.memRefresh = true := by
  rw [holdEntry_pkg cause (by simp [h1, h2])]
  exact ⟨pwrState_setPwrState _ (by decide), holdTaken_power cause _⟩

/-- An event leads to safe hold where the core rails are up, and nothing else waits for R612. -/
theorem holdEvent_enters {s : State} (hcore : coreGoing s.pkg = false) (h4 : seqState s.pkg ≠ 4)
    (h5 : seqState s.pkg ≠ 1 ∨ s.pkg.seq.step5Done = true) : holdEvent s = holdEntry 1 s := by
  unfold holdEvent
  dsimp only
  rw [if_neg (by simp [hcore]), if_neg]
  rintro (h | ⟨h1, hd⟩)
  · exact h4 h
  · rcases h5 with h5 | h5
    · exact h5 h1
    · rw [h5] at hd
      cases hd

/-- What an event leaves where it only waits for R612, or where safe hold stands: memory, the gate, and the state that is shown. -/
theorem holdEvent_waits {s : State} (h : coreGoing s.pkg = true ∨ seqState s.pkg = 4 ∨ pwrState s.pkg = 1 ∨ pwrState s.pkg = 2) :
    (holdEvent s).mem = s.mem ∧ reg (holdEvent s).pkg pwrStatus = reg s.pkg pwrStatus ∧
      (holdEvent s).pkg.pwr.gateClosed = s.pkg.pwr.gateClosed ∧ (holdEvent s).pkg.pwr.flowOkSince = s.pkg.pwr.flowOkSince := by
  have hseq (x : SeqSt) : reg { s.pkg with seq := x } pwrStatus = reg s.pkg pwrStatus := reg_congr rfl rfl rfl _
  unfold holdEvent
  dsimp only
  split
  · exact ⟨rfl, (reg_setFld_ne _ _ _ _ (by decide)).trans (hseq _), rfl, rfl⟩
  split
  · exact ⟨rfl, hseq _, rfl, rfl⟩
  next hgoing hwaits =>
    have hstands : pwrState s.pkg = 1 ∨ pwrState s.pkg = 2 := by
      rcases h with h | h | h
      · exact absurd h hgoing
      · exact absurd (.inl h) hwaits
      · exact h
    rw [holdEntry, if_pos hstands]
    exact ⟨rfl, reg_withPwr _ _ _, rfl, rfl⟩

/-- What the log of an event leaves: the sequencer, and the power state's number. -/
structure EventLogged (p q : Pkg) : Prop where
  svSeq : reg q svSeq = reg p svSeq
  state : pwrState q = pwrState p
  seq : q.seq = p.seq
  gate : q.pwr.gateClosed = p.pwr.gateClosed

theorem EventLogged.coreGoing {p q : Pkg} (h : EventLogged p q) : Machine.coreGoing q = Machine.coreGoing p := by
  rw [Machine.coreGoing, Machine.coreGoing, seqState, seqState, seqStep, seqStep, fld_congr h.svSeq, fld_congr h.svSeq]

theorem EventLogged.seqState {p q : Pkg} (h : EventLogged p q) : Machine.seqState q = Machine.seqState p := fld_congr h.svSeq _ _

/-- A trip's log: THERM_TRIP shows. -/
def tripLogged (sensor : Nat) (p : Pkg) : Pkg := logErr (setBit p pwrStatus 26 true) pgPwr ⟨0x72, 0, 0, 0, sensor % 256⟩

/-- The instant from which coolant flowed is forgotten. -/
def withoutFlow (p : Pkg) : Pkg := { p with pwr := { p.pwr with flowOkSince := none } }

/-- A coolant loss's log: the flow no longer shows. -/
def flowLogged (p : Pkg) : Pkg :=
  logErr (withoutFlow (setBit p pwrStatus 27 false)) pgPwr ⟨0x73, 0, 0, 0, 0⟩

theorem logErr_pwrStatus (p : Pkg) (e : ErrArgs) : reg (logErr p pgPwr e) pwrStatus = reg p pwrStatus :=
  logErr_reg_own _ _ _ pgPwr (by decide) (by decide)

theorem logErr_svSeq (p : Pkg) (e : ErrArgs) : reg (logErr p pgPwr e) svSeq = reg p svSeq :=
  logErr_reg_own _ _ _ pgSv (by decide) (by decide)

theorem pwrState_setBit (p : Pkg) {n : Nat} (b : Bool) (h : n < 28) : pwrState (setBit p pwrStatus n b) = pwrState p :=
  fld_setFld_beside _ _ _ _ _ _ _ (by omega) (by omega) (by decide) (by omega)

theorem tripLogged_logs (sensor : Nat) (p : Pkg) : EventLogged p (tripLogged sensor p) ∧ bit (tripLogged sensor p) pwrStatus 26 = true := by
  obtain ⟨hpwr, hseq⟩ := (logErr_only (setBit p pwrStatus 26 true) pgPwr ⟨0x72, 0, 0, 0, sensor % 256⟩).keepsPower
  refine ⟨⟨(logErr_svSeq _ _).trans (reg_setFld_ne _ _ _ _ (by decide)), ?_, hseq, congrArg PwrSt.gateClosed hpwr⟩, ?_⟩
  · exact (fld_congr (logErr_pwrStatus _ _) _ _).trans (pwrState_setBit _ _ (by decide))
  · exact (bit_congr (logErr_pwrStatus _ _) _).trans (bit_setBit_self _ _ _ _ (by decide))

theorem flowLogged_logs (p : Pkg) : EventLogged p (flowLogged p) ∧ bit (flowLogged p) pwrStatus 27 = false ∧
    (flowLogged p).pwr.flowOkSince = none := by
  have hlow (k : Nat) : reg (withoutFlow (setBit p pwrStatus 27 false)) k = reg (setBit p pwrStatus 27 false) k := reg_withPwr _ _ k
  obtain ⟨hpwr, hseq⟩ := (logErr_only (withoutFlow (setBit p pwrStatus 27 false)) pgPwr ⟨0x73, 0, 0, 0, 0⟩).keepsPower
  refine ⟨⟨?_, ?_, hseq, ?_⟩, ?_, ?_⟩
  · rw [flowLogged, logErr_svSeq, hlow]
    exact reg_setFld_ne _ _ _ _ (by decide)
  · rw [pwrState, flowLogged, fld_congr (logErr_pwrStatus _ _), fld_congr (hlow _)]
    exact pwrState_setBit _ _ (by decide)
  · rw [flowLogged, hpwr]
    rfl
  · rw [flowLogged, bit_congr (logErr_pwrStatus _ _), bit_congr (hlow _)]
    exact bit_setBit_self _ _ _ _ (by decide)
  · rw [flowLogged, hpwr]
    rfl

theorem exec_thermalTrip {s : State} (sensor : Nat) (h : s.pkg.boot.started = true) :
    exec (.thermalTrip sensor) s = .next (holdEvent (s.onPkg (tripLogged sensor))) := if_pos h

theorem exec_coolantLoss {s : State} (h : bit s.pkg pwrStatus 27 = true) :
    exec .coolantLoss s = .next (holdEvent (s.onPkg flowLogged)) := if_pos h

/-- An event whose log leaves the sequencer and the state leads to safe hold as the event itself would. -/
theorem holdEvent_logged {s : State} {f : Pkg → Pkg} (hlog : EventLogged s.pkg (f s.pkg)) (hcore : coreGoing s.pkg = false)
    (h4 : seqState s.pkg ≠ 4) (h5 : seqState s.pkg ≠ 1 ∨ s.pkg.seq.step5Done = true) (h1 : pwrState s.pkg ≠ 1) (h2 : pwrState s.pkg ≠ 2) :
    pwrState (holdEvent (s.onPkg f)).pkg = 2 ∧ (holdEvent (s.onPkg f)).pkg.pwr.holdCause = 1 ∧
      (holdEvent (s.onPkg f)).pkg.pwr.gateClosed = true ∧ (holdEvent (s.onPkg f)).pkg.seq.memRefresh = true := by
  rw [holdEvent_enters]
  · exact holdEntry_enters 1 (by rw [State.onPkg_pkg, hlog.state]; exact h1) (by rw [State.onPkg_pkg, hlog.state]; exact h2)
  · rw [State.onPkg_pkg, hlog.coreGoing, hcore]
  · rw [State.onPkg_pkg, hlog.seqState]
    exact h4
  · rw [State.onPkg_pkg, hlog.seqState, hlog.seq]
    exact h5

/-- An event only waits: the state that is shown and the gate are those before it. -/
theorem holdEvent_latched {s : State} {f : Pkg → Pkg} (hlog : EventLogged s.pkg (f s.pkg))
    (h : coreGoing s.pkg = true ∨ seqState s.pkg = 4 ∨ pwrState s.pkg = 1 ∨ pwrState s.pkg = 2) :
    (holdEvent (s.onPkg f)).mem = s.mem ∧ (∀ n, bit (holdEvent (s.onPkg f)).pkg pwrStatus n = bit (f s.pkg) pwrStatus n) ∧
      pwrState (holdEvent (s.onPkg f)).pkg = pwrState s.pkg ∧
      (holdEvent (s.onPkg f)).pkg.pwr.gateClosed = s.pkg.pwr.gateClosed ∧
      (holdEvent (s.onPkg f)).pkg.pwr.flowOkSince = (f s.pkg).pwr.flowOkSince := by
  obtain ⟨hmem, hreg, hgate, hflow⟩ := holdEvent_waits (s := s.onPkg f)
    (by rw [State.onPkg_pkg, hlog.coreGoing, hlog.seqState, hlog.state]; exact h)
  exact ⟨hmem, fun n => bit_congr hreg n, (fld_congr hreg _ _).trans hlog.state, hgate.trans hlog.gate, hflow⟩

/-! ## The way out (R612, R613) -/

theorem resume_awake {p : Pkg} (h : asleep p = false) : pwrState (resume p) = 3 ∧ (resume p).pwr.gateClosed = false ∧
    (resume p).seq.memRefresh = false ∧ (resume p).seq.lasers = true := by
  have hresume : resume p = portsLight (wake (setPwrState p 3)) := by rw [resume, if_neg (by simp [h])]
  obtain ⟨hgate, hrefresh⟩ := wake_power (setPwrState p 3)
  obtain ⟨hpwr, hseq⟩ := portsLight_power (wake (setPwrState p 3))
  refine ⟨pwrState_resume p, ?_, ?_, ?_⟩
  · rw [hresume, hpwr, hgate]
  · rw [hresume, hseq]
    exact hrefresh
  · rw [hresume, hseq]

theorem doPwrSafeHoldResume_accepted {p : Pkg} {rq : Requester} {v : W32} (h : writeFate p rq pgPwr 0x2C0 = .accepted) :
    doPwrSafeHoldResume rq v p = if bitOf v 0 then (if mayResume p then resume (setBit p (key pgPwr 0x2C0) 1 (bitOf v 1)) else p)
      else setBit p (key pgPwr 0x2C0) 1 (bitOf v 1) := by
  rw [doPwrSafeHoldResume, ifWrites_accepted _ h, putSafeHold, bitOf_setWidth64 v (by decide), bitOf_setWidth64 v (by decide)]

/-- READY rises again on the blocks that were held; they are remembered no more. -/
theorem returnReady_heldReady (p : Pkg) : (returnReady p).pwr.heldReady = [] := rfl

theorem doResumeComplete_ends {p : Pkg} (h : pwrState p = 3) : pwrState (doResumeComplete p) = 0 ∧
    (asleep p = false → (doResumeComplete p).pwr.heldReady = []) := by
  rw [doResumeComplete, if_pos h]
  refine ⟨pwrState_setPwrState _ (by decide), fun hawake => ?_⟩
  rw [(keepsPower_setPwrState _ _).1, if_neg (by simp [hawake]), returnReady_heldReady]

theorem mayResume_refused {p : Pkg} (h : pwrState p ≠ 2 ∨ p.pwr.holdCause = 2 ∨ bit p pwrStatus 26 = true ∨ bit p pwrStatus 27 = false) :
    mayResume p = false := by
  cases hmay : mayResume p with
  | false => rfl
  | true =>
    simp only [mayResume, Bool.and_eq_true, beq_iff_eq, Bool.not_eq_true'] at hmay
    obtain ⟨⟨⟨⟨⟨hstate, hcause⟩, -⟩, htrip⟩, hflow⟩, -⟩ := hmay
    rcases h with h | h | h | h
    · exact absurd hstate h
    · omega
    · rw [htrip] at h
      cases h
    · rw [hflow] at h
      cases h

/-- Settles O49. -/
theorem safeHoldIsEnteredAndLeft : Obligations.SafeHoldIsEnteredAndLeft := by
  unfold Obligations.SafeHoldIsEnteredAndLeft
  refine ⟨fun s sensor hs hcore h4 h5 h1 h2 => ⟨_, exec_thermalTrip sensor hs,
      holdEvent_logged (tripLogged_logs sensor s.pkg).1 hcore h4 h5 h1 h2⟩,
    fun s hf hcore h4 h5 h1 h2 => ⟨_, exec_coolantLoss hf, holdEvent_logged (flowLogged_logs s.pkg).1 hcore h4 h5 h1 h2⟩,
    fun s sensor hs hw => ?_, fun s hf hw => ?_, fun s rq v hw => ⟨fun h0 hmay hawake => ?_, fun h0 hmay => ?_, fun h0 => ?_⟩,
    fun p => mayResume_refused, fun s h => ⟨_, rfl, rfl, doResumeComplete_ends h⟩⟩
  · obtain ⟨hlog, h26⟩ := tripLogged_logs sensor s.pkg
    obtain ⟨hmem, hbits, hstate, hgate, -⟩ := holdEvent_latched hlog hw
    exact ⟨_, exec_thermalTrip sensor hs, hmem, (hbits 26).trans h26, hstate, hgate⟩
  · obtain ⟨hlog, h27, hnone⟩ := flowLogged_logs s.pkg
    obtain ⟨hmem, hbits, hstate, -, hflow⟩ := holdEvent_latched hlog hw
    exact ⟨_, exec_coolantLoss hf, hmem, (hbits 27).trans h27, hflow.trans hnone, hstate⟩
  · have hdo := doPwrSafeHoldResume_accepted (v := v) hw
    rw [if_pos h0, if_pos hmay] at hdo
    have hasleep : asleep (setBit s.pkg (key pgPwr 0x2C0) 1 (bitOf v 1)) = false := by
      have hreg : reg (setBit s.pkg (key pgPwr 0x2C0) 1 (bitOf v 1)) (key pgSv 0x100) = reg s.pkg (key pgSv 0x100) :=
        reg_setFld_ne _ _ _ _ (by decide)
      rw [asleep, fld_congr hreg, fld_congr hreg, ← asleep, hawake]
    exact ⟨_, next_onPkg hdo, rfl, resume_awake hasleep⟩
  · have hdo := doPwrSafeHoldResume_accepted (v := v) hw
    rw [if_pos h0, if_neg (by simp [hmay])] at hdo
    exact next_onPkg hdo
  · have hdo := doPwrSafeHoldResume_accepted (v := v) hw
    rw [if_neg (by simp [h0])] at hdo
    exact ⟨_, next_onPkg hdo, rfl, rfl, fld_congr (reg_setFld_ne _ _ _ _ (by decide)) _ _, bit_setBit_self _ _ _ _ (by decide)⟩

end Sys2Proof.Machine
end

section
/-! Rails, telemetry, budgets, limiters and temperatures (R587 to R608, R712): the proof of O48. -/

namespace Sys2Proof.Machine

/-! ## Rails (R587, R589) -/

theorem railKey_next (r : Nat) : railKey r ≠ railKey r + 4 := by omega

theorem doVoltageWrite_writes {p : Pkg} {r k mv : Nat} (hr : r < 5) (hmv : mv < 1024)
    (hw : p.pwr.wanted.find? (fun x => x.1 == r) = some (k, mv))
    (hd : ∀ y, p.pwr.lastWrite.find? (fun x => x.1 == r) = some y → y.2 + 50000 ≤ p.pace.datum) :
    fld (doVoltageWrite r p) (railKey r) 30 21 = mv ∧ (doVoltageWrite r p).pwr.wanted.any (fun x => x.1 == r) = false ∧
      SMap.get (doVoltageWrite r p).pwr.lastWrite r 0 = p.pace.datum := by
  have hdue : (match p.pwr.lastWrite.find? (fun x => x.1 == r) with
      | some t => decide (t.2 + 50000 ≤ p.pace.datum) | none => true) = true := by
    cases hl : p.pwr.lastWrite.find? (fun x => x.1 == r) with
    | none => rfl
    | some y => exact decide_eq_true (hd y hl)
  unfold doVoltageWrite
  simp only [hw]
  rw [if_pos ⟨hr, hdue⟩]
  refine ⟨?_, SMap.any_drop_self _ _, SMap.get_set_self _ _ _ _⟩
  rw [fld_congr (reg_withPwr _ _ _), setBit, fld_setFld_beside _ _ _ _ _ _ _ (by decide) (by decide) (by decide) (by decide),
    fld_setFld_self _ _ _ _ _ (by decide) (by decide)]
  exact Nat.mod_eq_of_lt hmv

theorem doVoltageWrite_early {p : Pkg} {r : Nat} {y : Nat × Nat} (hl : p.pwr.lastWrite.find? (fun x => x.1 == r) = some y)
    (hy : p.pace.datum < y.2 + 50000) : doVoltageWrite r p = p := by
  unfold doVoltageWrite
  split
  · rfl
  · simp only [hl]
    exact if_neg (by simp; omega)

/-- What a reading of a rail shows: its voltage and its current. -/
theorem telemetry_shown (p : Pkg) (r : Nat) {mv amps : Nat} (hmv : mv < 1024) (ha : amps < 2048) :
    fld (setFld (setFld p (railKey r) 20 11 mv) (railKey r) 10 0 amps) (railKey r) 20 11 = mv ∧
      fld (setFld (setFld p (railKey r) 20 11 mv) (railKey r) 10 0 amps) (railKey r) 10 0 = amps ∧
      bit (setFld (setFld p (railKey r) 20 11 mv) (railKey r) 10 0 amps) (railKey r) 31 = bit p (railKey r) 31 := by
  refine ⟨?_, ?_, ?_⟩
  · rw [fld_setFld_beside _ _ _ _ _ _ _ (by decide) (by decide) (by decide) (by decide),
      fld_setFld_self _ _ _ _ _ (by decide) (by decide)]
    exact Nat.mod_eq_of_lt hmv
  · rw [fld_setFld_self _ _ _ _ _ (by decide) (by decide)]
    exact Nat.mod_eq_of_lt ha
  · rw [bit_setFld_beside _ _ _ _ _ _ (by decide) (by decide) (by decide),
      bit_setFld_beside _ _ _ _ _ _ (by decide) (by decide) (by decide)]

theorem doRailTelemetry_settled {p : Pkg} {r : Nat} (mv amps : Nat) (h : r < 5) : doRailTelemetry r mv amps true true p =
    setBit (setFld (setFld p (railKey r) 20 11 mv) (railKey r) 10 0 amps) (railKey r) 31 true := if_neg (by omega)

theorem doRailTelemetry_moving {p : Pkg} {r : Nat} (mv amps : Nat) (h : r < 5) : doRailTelemetry r mv amps false true p =
    setFld (setFld p (railKey r) 20 11 mv) (railKey r) 10 0 amps := if_neg (by omega)

/-- A Voltage write that failed is counted, and its rail has a target to be written again. -/
theorem doRailTelemetry_failed {p : Pkg} {r : Nat} (mv amps : Nat) (settled : Bool) (h : r < 5) :
    fld (doRailTelemetry r mv amps settled false p) (railKey r + 4) 15 0 = min 65535 (fld p (railKey r + 4) 15 0 + 1) ∧
      (doRailTelemetry r mv amps settled false p).pwr.wanted.any (fun x => x.1 == r) = true := by
  have hread (q : Pkg) : fld (bumpFld (setFld (setFld q (railKey r) 20 11 mv) (railKey r) 10 0 amps) (railKey r + 4) 15 0)
      (railKey r + 4) 15 0 = min 65535 (fld q (railKey r + 4) 15 0 + 1) := by
    have hne : railKey r + 4 ≠ railKey r := (railKey_next r).symm
    rw [bumpFld, fld_setFld_self _ _ _ _ _ (by decide) (by decide), fld_setFld_ne _ _ _ _ _ _ hne, fld_setFld_ne _ _ _ _ _ _ hne]
    simp only [satAdd]
    omega
  unfold doRailTelemetry
  rw [if_neg (by omega)]
  dsimp only
  rw [if_neg Bool.false_ne_true]
  split
  next hw => exact ⟨hread p, hw⟩
  · refine ⟨(fld_congr (reg_withPwr _ _ _) _ _).trans (hread p), ?_⟩
    simp only [wantMv, SMap.any_key_set]
    simp

/-! ## The envelope (R590 to R592) -/

theorem raiseBlock_pwrStatus (p : Pkg) (n : Nat) : reg (raiseBlock p pgPwr n) pwrStatus = reg p pwrStatus :=
  raiseBlock_reg_own _ _ _ pgPwr (by decide) (by decide)

theorem setLimiter_bit (p : Pkg) (b : Bool) : bit (setLimiter p b) pwrStatus 24 = b := by
  unfold setLimiter
  split
  next h => exact h
  split
  next hb =>
    rw [hb, bit_congr (raiseBlock_pwrStatus _ _)]
    exact bit_setBit_self _ _ _ _ (by decide)
  next hb =>
    rw [Bool.eq_false_iff.mpr hb]
    exact bit_setBit_self _ _ _ _ (by decide)

/-- What the limiter's rise or fall leaves. -/
theorem setLimiter_beside (p : Pkg) (b : Bool) : (∀ n, n ≠ 24 → bit (setLimiter p b) pwrStatus n = bit p pwrStatus n) ∧
    fld (setLimiter p b) pwrStatus 9 0 = fld p pwrStatus 9 0 ∧ (setLimiter p b).pwr = p.pwr := by
  have hset (c : Bool) : (∀ n, n ≠ 24 → bit (setBit p pwrStatus 24 c) pwrStatus n = bit p pwrStatus n) ∧
      fld (setBit p pwrStatus 24 c) pwrStatus 9 0 = fld p pwrStatus 9 0 :=
    ⟨fun n hn => bit_setBit_beside _ _ _ _ _ (by decide) hn, fld_setFld_beside _ _ _ _ _ _ _ (by decide) (by decide) (by decide) (by decide)⟩
  unfold setLimiter
  split
  · exact ⟨fun _ _ => rfl, rfl, rfl⟩
  split
  · exact ⟨fun n hn => (bit_congr (raiseBlock_pwrStatus _ _) n).trans ((hset true).1 n hn),
      (fld_congr (raiseBlock_pwrStatus _ _) _ _).trans (hset true).2,
      (raiseBlock_only _ _ _).log.pwr_eq⟩
  · exact ⟨(hset false).1, (hset false).2, rfl⟩

theorem noteLongest_pwrStatus (p : Pkg) (ns : Nat) : reg (noteLongest p ns) pwrStatus = reg p pwrStatus :=
  reg_setFld_ne _ _ _ _ (by decide)

/-- The 1 ms mean is shown, whatever excursion begins, goes on or ends. -/
theorem doPowerMeasure_mean (us1 ms1 : Nat) (p : Pkg) : fld (doPowerMeasure us1 ms1 p) pwrStatus 9 0 = min 1023 ms1 := by
  have hmean : fld (setFld p pwrStatus 9 0 (min 1023 ms1)) pwrStatus 9 0 = min 1023 ms1 := by
    rw [fld_setFld_self _ _ _ _ _ (by decide) (by decide)]
    omega
  have hexc (q : Pkg) (b : Bool) : fld (setBit q pwrStatus 25 b) pwrStatus 9 0 = fld q pwrStatus 9 0 :=
    fld_setFld_beside _ _ _ _ _ _ _ (by decide) (by decide) (by decide) (by decide)
  unfold doPowerMeasure
  dsimp only
  rw [(setLimiter_beside _ _).2.1]
  split
  · rw [fld_congr (reg_withPwr _ _ _), fld_congr (raiseBlock_pwrStatus _ _), bumpFld, fld_setFld_ne _ _ _ _ _ _ (by decide), hexc, hmean]
  · rw [fld_congr (noteLongest_pwrStatus _ _), hmean]
  · rw [fld_congr (reg_withPwr _ _ _), fld_congr (noteLongest_pwrStatus _ _), hexc, hmean]
  · exact hmean

/-- A package on which an excursion begins with a 1 ms mean. -/
def overBegun (ms1 : Nat) (p : Pkg) : Pkg :=
  { raiseBlock (bumpFld (setBit (setFld p pwrStatus 9 0 (min 1023 ms1)) pwrStatus 25 true) (key pgPwr 0x120) 31 16) pgPwr 1 with
    pwr := { p.pwr with overSince := some p.pace.datum } }

theorem doPowerMeasure_begins (us1 : Nat) {ms1 : Nat} {p : Pkg} (ha : effective p 0 < ms1) (ho : p.pwr.overSince = none) :
    ∃ b, doPowerMeasure us1 ms1 p = setLimiter (overBegun ms1 p) b := by
  unfold doPowerMeasure
  simp only [ho, ha, decide_true]
  exact ⟨_, rfl⟩

theorem overBegun_shows (ms1 : Nat) (p : Pkg) : bit (overBegun ms1 p) pwrStatus 25 = true := by
  rw [overBegun, bit_congr (reg_withPwr _ _ _), bit_congr (raiseBlock_pwrStatus _ _), bumpFld,
    bit_congr (reg_setFld_ne _ _ _ _ (by decide))]
  exact bit_setBit_self _ _ _ _ (by decide)

/-- A mean above the cap begins an excursion where none stands. -/
theorem doPowerMeasure_over (us1 : Nat) {ms1 : Nat} {p : Pkg} (ha : effective p 0 < ms1) (ho : p.pwr.overSince = none) :
    (doPowerMeasure us1 ms1 p).pwr.overSince = some p.pace.datum ∧ bit (doPowerMeasure us1 ms1 p) pwrStatus 25 = true := by
  obtain ⟨b, hb⟩ := doPowerMeasure_begins us1 ha ho
  obtain ⟨hbit, -, hpwr⟩ := setLimiter_beside (overBegun ms1 p) b
  rw [hb, hpwr, hbit 25 (by decide)]
  exact ⟨rfl, overBegun_shows ms1 p⟩

/-- A 1 µs mean above its bound throttles. -/
theorem doPowerMeasure_limits {us1 : Nat} (ms1 : Nat) {p : Pkg} (h : min 1020 (effective p 0 * 12 / 10) < us1) :
    bit (doPowerMeasure us1 ms1 p) pwrStatus 24 = true := by
  unfold doPowerMeasure
  dsimp only
  rw [setLimiter_bit, decide_eq_true h]
  simp only [Bool.true_or]

/-! ## Sharing the cap (R593) -/

theorem getD_map_range {n i : Nat} (f : Nat → Nat) (h : i < n) : ((List.range n).map f).getD i 0 = f i := by
  simp [List.getD, h]

/-- A share by proportion is no more than what is wanted. -/
theorem proportion_le {left total : Nat} (w : Nat) (h : left ≤ total) : left * w / max 1 total ≤ w :=
  Nat.div_le_of_le_mul (Nat.mul_le_mul_right w (h.trans (Nat.le_max_right 1 total)))

/-- What a grant in full, or by proportion, gives: no more than is wanted. -/
theorem granted_le (want : List Nat) (left i : Nat) :
    (if sumList want ≤ left then want else want.map (fun w => left * w / max 1 (sumList want))).getD i 0 ≤ want.getD i 0 := by
  split
  · exact Nat.le_refl _
  next h =>
    simp only [List.getD, List.getElem?_map]
    cases want[i]? with
    | none => exact Nat.le_refl _
    | some w => exact proportion_le w (by omega)

theorem shareCap_le (r : Nat) (demand inter : List Nat) {i : Nat} (hi : i < 5) :
    (shareCap r demand inter).getD i 0 ≤ demand.getD i 0 := by
  unfold shareCap
  split
  · have : i = 0 ∨ i = 1 ∨ i = 2 ∨ i = 3 ∨ i = 4 := by omega
    rcases this with rfl | rfl | rfl | rfl | rfl <;> exact Nat.zero_le _
  extract_lets r' d floor f left want gi left2 got unmet u
  split
  · rw [getD_map_range _ hi]
    exact Nat.min_le_left _ _
  have hf : f.getD i 0 ≤ d i := by
    rw [getD_map_range _ hi]
    exact Nat.min_le_left _ _
  have hwant : want.getD i 0 ≤ d i - f.getD i 0 := by
    by_cases h4 : i < 4
    · rw [getD_map_range _ h4]
      exact Nat.min_le_right _ _
    · rw [List.getD_eq_default _ _ (by simp [want]; omega)]
      exact Nat.zero_le _
  have hgi : gi.getD i 0 ≤ want.getD i 0 := granted_le want left i
  have hgot : got.getD i 0 = f.getD i 0 + gi.getD i 0 := getD_map_range _ hi
  have hunmet : unmet.getD i 0 = d i - got.getD i 0 := getD_map_range _ hi
  have hd : d i = demand.getD i 0 := rfl
  rw [getD_map_range _ hi]
  split
  · omega
  next hu =>
    have := proportion_le (unmet.getD i 0) (Nat.le_of_lt (Nat.lt_of_not_le hu))
    omega

/-- What one die's budget leaves: the thermal shares, the datum, and the register of the measured means. -/
theorem applyBudget_keeps (p : Pkg) {die : Nat} (demand share : Nat) (h : die < 5) :
    (applyBudget p die demand share).pwr.budget = SMap.set p.pwr.budget die (share * thermNow p die / 1000000) ∧
      (∀ i, thermNow (applyBudget p die demand share) i = thermNow p i) ∧
      reg (applyBudget p die demand share) (key pgPwr 0x11C) = reg p (key pgPwr 0x11C) := by
  have htarget (q : Pkg) (r mv : Nat) : (target q r mv).pwr.budget = q.pwr.budget ∧ (∀ i, thermNow (target q r mv) i = thermNow q i) ∧
      reg (target q r mv) (key pgPwr 0x11C) = reg q (key pgPwr 0x11C) := by
    unfold target
    split
    · exact ⟨rfl, fun _ => rfl, reg_withPwr _ _ _⟩
    · exact ⟨rfl, fun _ => rfl, rfl⟩
  have hshown (x : PwrSt) (v w : Nat) : reg { setFld (setFld p (key pgPwr (0x108 + 4 * die)) 25 16 v) (key pgPwr (0x108 + 4 * die)) 9 0 w with
      pwr := x } (key pgPwr 0x11C) = reg p (key pgPwr 0x11C) := by
    have hne : key pgPwr 0x11C ≠ key pgPwr (0x108 + 4 * die) := key_ne _ _ (by decide) (by omega) (by omega)
    rw [reg_withPwr, reg_setFld_ne _ _ _ _ hne, reg_setFld_ne _ _ _ _ hne]
  unfold applyBudget
  dsimp only
  split
  · exact ⟨rfl, fun _ => rfl, hshown _ _ _⟩
  · exact ⟨(htarget _ _ _).1, fun i => (htarget _ _ _).2.1 i, ((htarget _ _ _).2.2).trans (hshown _ _ _)⟩

theorem budgets_applied (p : Pkg) (demand share : Nat → Nat) {n : Nat} (hn : n ≤ 5) :
    (∀ i, i < n → SMap.get ((List.range n).foldl (fun q i => applyBudget q i (demand i) (share i)) p).pwr.budget i 0 =
        share i * thermNow p i / 1000000) ∧
      (∀ i, thermNow ((List.range n).foldl (fun q i => applyBudget q i (demand i) (share i)) p) i = thermNow p i) ∧
      reg ((List.range n).foldl (fun q i => applyBudget q i (demand i) (share i)) p) (key pgPwr 0x11C) = reg p (key pgPwr 0x11C) := by
  induction n with
  | zero => exact ⟨fun i hi => absurd hi (Nat.not_lt_zero i), fun _ => rfl, rfl⟩
  | succ n ih =>
    obtain ⟨hbudget, htherm, hreg⟩ := ih (by omega)
    rw [List.range_succ, List.foldl_append, List.foldl_cons, List.foldl_nil]
    obtain ⟨hset, htherm', hreg'⟩ := applyBudget_keeps ((List.range n).foldl (fun q i => applyBudget q i (demand i) (share i)) p)
      (demand n) (share n) (show n < 5 by omega)
    refine ⟨fun i hi => ?_, fun i => (htherm' i).trans (htherm i), hreg'.trans hreg⟩
    rw [hset, htherm, SMap.get_set]
    split
    next heq => rw [heq]
    · exact hbudget i (by omega)

/-- The budgets follow the shares, and the register shows the means of HBM, link and host. -/
theorem doBudgetRecompute_shares (hbm link host proc : Nat) (p : Pkg) :
    fld (doBudgetRecompute hbm link host proc p) (key pgPwr 0x11C) 29 20 = min 1023 hbm ∧
      fld (doBudgetRecompute hbm link host proc p) (key pgPwr 0x11C) 19 10 = min 1023 link ∧
      fld (doBudgetRecompute hbm link host proc p) (key pgPwr 0x11C) 9 0 = min 1023 host ∧
      ∀ i, i < 5 → SMap.get (doBudgetRecompute hbm link host proc p).pwr.budget i 0 =
        (shareCap (((effective p 0 : Int) - hbm - link - host) * 1000)
          ((List.range 5).map (fun i => if i < 4 then sheetDemand p i else proc * 1000))
          ((List.range 4).map (fun i => contourSum p i true))).getD i 0 * thermNow p i / 1000000 := by
  unfold doBudgetRecompute
  extract_lets p0 r demand shares
  obtain ⟨hbudget, -, hreg⟩ := budgets_applied p0 (fun i => demand.getD i 0) (fun i => shares.getD i 0) (Nat.le_refl 5)
  have hmod (x : Nat) : min 1023 x % 2 ^ 10 = min 1023 x := Nat.mod_eq_of_lt (by omega)
  refine ⟨?_, ?_, ?_, hbudget⟩
  · rw [fld_congr hreg, fld_setFld_beside _ _ _ _ _ _ _ (by decide) (by decide) (by decide) (by decide),
      fld_setFld_beside _ _ _ _ _ _ _ (by decide) (by decide) (by decide) (by decide),
      fld_setFld_self _ _ _ _ _ (by decide) (by decide), hmod]
  · rw [fld_congr hreg, fld_setFld_beside _ _ _ _ _ _ _ (by decide) (by decide) (by decide) (by decide),
      fld_setFld_self _ _ _ _ _ (by decide) (by decide), hmod]
  · rw [fld_congr hreg, fld_setFld_self _ _ _ _ _ (by decide) (by decide), hmod]

/-! ## Temperature (R606, R607) -/

theorem target_keeps (p : Pkg) (r mv : Nat) : (target p r mv).pwr.tj = p.pwr.tj ∧ (target p r mv).pwr.budget = p.pwr.budget := by
  obtain ⟨w, hpwr, -⟩ := target_power p r mv
  rw [hpwr]
  exact ⟨rfl, rfl⟩

theorem doThermalThrottle_lowers {p : Pkg} {die tj : Nat} (h : die < 5) (hl : effective p 2 < tj) :
    tjOf (doThermalThrottle die tj p) die = tj ∧
      SMap.get (doThermalThrottle die tj p).pwr.budget die 0 = SMap.get p.pwr.budget die 0 * 95 / 100 := by
  unfold doThermalThrottle
  rw [if_neg (by omega)]
  dsimp only
  rw [if_pos (Or.inl hl)]
  split
  · rw [tjOf, (target_keeps _ _ _).1, (target_keeps _ _ _).2]
    exact ⟨SMap.get_set_self _ _ _ _, SMap.get_set_self _ _ _ _⟩
  · exact ⟨SMap.get_set_self _ _ _ _, SMap.get_set_self _ _ _ _⟩

theorem doHbmThrottle_limits (p : Pkg) {stack : Nat} (temp : Nat) (h : stack < 8) :
    SMap.get (doHbmThrottle stack temp p).memc.throttled stack false =
      (if 95 < temp then true else if temp < 93 then false else SMap.get p.memc.throttled stack false) := by
  rw [doHbmThrottle, if_neg (by omega)]
  exact SMap.get_set_self _ _ _ _

/-! ## Contours (R596) -/

theorem doContourClear_accepted {p : Pkg} {rq : Requester} (v : W32) (h : writeFate p rq pgPwr 0x2A0 = .accepted) :
    bit (doContourClear rq v p) (key pgPwr 0x2A0) 0 = bitOf v 0 ∧
      (doContourClear rq v p).pwr.contours = if bitOf v 1 then [] else p.pwr.contours := by
  have hbit : bit (setBit p (key pgPwr 0x2A0) 0 (bitOf v 0)) (key pgPwr 0x2A0) 0 = bitOf v 0 := bit_setBit_self _ _ _ _ (by decide)
  rw [doContourClear, ifWrites_accepted _ h, putContour, bitOf_setWidth64 v (by decide), bitOf_setWidth64 v (by decide)]
  cases bitOf v 1 with
  | false => exact ⟨hbit, rfl⟩
  | true => exact ⟨(bit_congr (reg_withPwr _ _ _) _).trans hbit, rfl⟩

/-- Settles O48. -/
theorem railsBudgetsAndTemperaturesAreFollowed : Obligations.RailsBudgetsAndTemperaturesAreFollowed := by
  unfold Obligations.RailsBudgetsAndTemperaturesAreFollowed
  refine ⟨fun s r k mv hr hmv hw => ⟨fun hd => ⟨_, rfl, rfl, doVoltageWrite_writes hr hmv hw hd⟩,
      fun y hl hy => next_onPkg (doVoltageWrite_early hl hy)⟩,
    fun s r mv amps hr hmv ha => ?_,
    fun s us1 ms1 => ⟨⟨_, rfl, rfl, doPowerMeasure_mean us1 ms1 s.pkg⟩,
      fun ho hs => ⟨_, rfl, doPowerMeasure_over us1 ho hs⟩, fun h => ⟨_, rfl, doPowerMeasure_limits ms1 h⟩⟩,
    fun s => ⟨_, rfl, rfl, rfl, rfl⟩, fun s hbm link host proc r demand shares hr hdem hsh => ?_,
    fun r demand inter h => if_pos h, fun r demand inter i hi => shareCap_le r demand inter hi,
    fun s die tj h hl => ⟨_, rfl, rfl, doThermalThrottle_lowers h hl⟩,
    fun s stack temp h => ⟨_, rfl, rfl, doHbmThrottle_limits s.pkg temp h⟩,
    fun s hottest => ⟨fun h => ⟨_, next_onPkg (if_pos h), rfl, bit_setBit_self _ _ _ _ (by decide)⟩,
      fun h => next_onPkg (if_neg (by omega))⟩,
    fun s h => ⟨_, next_onPkg (if_neg (by simp [h])), rfl, ?_, rfl⟩,
    fun s rq v h => ⟨_, rfl, rfl, doContourClear_accepted v h⟩⟩
  · obtain ⟨hshown, hamps, hreached⟩ := telemetry_shown s.pkg r hmv ha
    have hbeside (hi lo : Nat) (hh : hi < 31) (hl : lo ≤ hi) (q : Pkg) : fld (setBit q (railKey r) 31 true) (railKey r) hi lo =
        fld q (railKey r) hi lo := fld_setFld_beside _ _ _ _ _ _ _ (by decide) (by decide) hl (.inl hh)
    exact ⟨⟨_, next_onPkg (doRailTelemetry_settled mv amps hr), rfl, (hbeside _ _ (by decide) (by decide) _).trans hshown,
        (hbeside _ _ (by decide) (by decide) _).trans hamps, bit_setBit_self _ _ _ _ (by decide)⟩,
      ⟨_, next_onPkg (doRailTelemetry_moving mv amps hr), rfl, hshown, hreached⟩,
      fun settled => ⟨_, rfl, rfl, doRailTelemetry_failed mv amps settled hr⟩⟩
  · subst hr hdem hsh
    exact ⟨_, rfl, rfl, doBudgetRecompute_shares hbm link host proc s.pkg⟩
  · exact (bit_congr (reg_withPwr _ _ _) _).trans (bit_setBit_self _ _ _ _ (by decide))

end Sys2Proof.Machine
end

section
/-! What a read at a home, and the traffic it makes, leaves of the package (spec/11, spec/13). -/

namespace Sys2Proof.Machine

/-- Only counters, tags, back-invalidations, the controllers' requests, messages and free values change. -/
def OnlyReads (p q : Pkg) : Prop := ∃ r t b m o f, q = { p with
  regs := r, home := { p.home with tags := t, bi := b }, memc := { p.memc with pcs := m }, out := o, free := f }

theorem OnlyReads.refl (p : Pkg) : OnlyReads p p := ⟨_, _, _, _, _, _, rfl⟩

theorem OnlyReads.trans {p q r : Pkg} (h : OnlyReads p q) (g : OnlyReads q r) : OnlyReads p r := by
  obtain ⟨_, _, _, _, _, _, rfl⟩ := h
  obtain ⟨_, _, _, _, _, _, rfl⟩ := g
  exact ⟨_, _, _, _, _, _, rfl⟩

theorem OnlyReads.foldl {α : Type} {f : Pkg → α → Pkg} (hf : ∀ p a, OnlyReads p (f p a)) (l : List α) (p : Pkg) :
    OnlyReads p (l.foldl f p) := by
  induction l generalizing p with
  | nil => exact .refl p
  | cons a l ih => exact (hf p a).trans (ih _)

theorem OnlyReads.fault_eq {p q : Pkg} (h : OnlyReads p q) : q.fault = p.fault := by
  obtain ⟨_, _, _, _, _, _, rfl⟩ := h
  rfl

theorem OnlyReads.dir_eq {p q : Pkg} (h : OnlyReads p q) : q.home.dir = p.home.dir := by
  obtain ⟨_, _, _, _, _, _, rfl⟩ := h
  rfl

theorem onlyReads_addReg (p : Pkg) (k n : Nat) : OnlyReads p (addReg p k n) := ⟨_, _, _, _, _, _, rfl⟩

theorem onlyReads_setTags (p : Pkg) (sl : Nat) (t : SMap Tag) : OnlyReads p (setTags p sl t) := ⟨_, _, _, _, _, _, rfl⟩

theorem onlyReads_memSend (p : Pkg) (pa cls : Nat) (w : Bool) : OnlyReads p (memSend p pa cls w) := by
  unfold memSend
  split
  · exact ⟨_, _, _, _, _, _, rfl⟩
  · exact .refl p

theorem onlyReads_writeBack (p : Pkg) (sl line : Nat) : OnlyReads p (writeBack p sl line) :=
  (onlyReads_addReg p _ 1).trans (onlyReads_memSend _ _ _ _)

theorem onlyReads_slmFill (p : Pkg) (sl line hint : Nat) (dirty : Bool) : OnlyReads p (slmFill p sl line hint dirty) := by
  have hfill (q : Pkg) (t : SMap Tag) (n : Nat) :
      OnlyReads q (countPins (setFld (setTags q sl t) (key (pgSl sl) 0x104) 15 0 n) sl) := ⟨_, _, _, _, _, _, rfl⟩
  unfold slmFill
  dsimp only
  split
  · split
    · exact onlyReads_writeBack _ _ _
    · exact .refl p
  · refine OnlyReads.trans ?_ (hfill _ _ _)
    split
    · split
      · exact onlyReads_writeBack _ _ _
      · exact .refl p
    · exact .refl p

theorem onlyReads_slmRead (p : Pkg) (sl pa cls hint : Nat) : OnlyReads p (slmRead p sl pa cls hint) := by
  have hmiss := (onlyReads_addReg p (key (pgSl sl) 0x118) 1).trans (onlyReads_memSend _ pa cls false)
  unfold slmRead
  dsimp only
  split
  · exact (onlyReads_setTags _ _ _).trans (onlyReads_addReg _ _ _)
  · split
    · exact hmiss
    · exact hmiss.trans (onlyReads_slmFill _ _ _ _ _)

theorem onlyReads_ddrRead (p : Pkg) (pa cls : Nat) : OnlyReads p (ddrRead p pa cls) := by
  have hsent : ∃ m, (memSend p pa cls false).memc = { p.memc with pcs := m } := by
    obtain ⟨_, _, _, m, _, _, h⟩ := onlyReads_memSend p pa cls false
    exact ⟨m, by rw [h]⟩
  unfold ddrRead
  split
  · exact .refl p
  · dsimp only
    split
    · obtain ⟨m, hm⟩ := hsent
      rw [hm]
      exact ⟨_, _, _, _, _, _, rfl⟩
    · exact ⟨_, _, _, _, _, _, rfl⟩

theorem onlyReads_biStart (p : Pkg) (line : Nat) (inv : Bool) (req : Option HomeReq) : OnlyReads p (biStart p line inv req) := by
  unfold biStart
  split
  · exact ⟨_, _, _, _, _, _, rfl⟩
  · dsimp only
    split <;> exact ⟨_, _, _, _, _, _, rfl⟩

theorem onlyReads_homeRead (p : Pkg) (pa cls hint : Nat) (wait : Option HomeReq) : OnlyReads p (homeRead p pa cls hint wait).2 := by
  unfold homeRead
  dsimp only
  split
  · exact onlyReads_biStart _ _ _ _
  · split
    · exact onlyReads_slmRead _ _ _ _ _
    · exact onlyReads_ddrRead _ _ _
    · exact .refl p

theorem onlyReads_carryLine (p : Pkg) (a b : Nat) (read : Bool) : OnlyReads p (carryLine p a b read) := by
  unfold carryLine
  dsimp only
  have hstart : OnlyReads p (if 4 ≤ a ∧ 4 ≤ b then nextFree p else p) := by
    split
    · exact ⟨_, _, _, _, _, _, rfl⟩
    · exact .refl p
  refine hstart.trans (.foldl (fun q h => ?_) _ _)
  split
  · exact .refl q
  split
  · exact (onlyReads_addReg _ _ _).trans (onlyReads_addReg _ _ _)
  · exact onlyReads_addReg _ _ _

theorem onlyReads_crossLine (p : Pkg) (who pa : Nat) (read : Bool) : OnlyReads p (crossLine p who pa read) := by
  unfold crossLine
  split
  · exact onlyReads_carryLine _ _ _ _
  · exact .refl p

theorem next_eq {s t : State} (h : s = t) : (.next s : Out) = .next t := h ▸ rfl

/-! # Spares, fences and replica ranges (R634, R635, R643 to R646): the proof of O52 -/

theorem OnlyTracks.repairs {p q : Pkg} (h : OnlyTracks p q) : q.fault.repairs = p.fault.repairs := by
  obtain ⟨t, f, hq⟩ := h
  rw [hq]

theorem OnlyTracks.chanSpared {p q : Pkg} (h : OnlyTracks p q) : q.fault.chanSpared = p.fault.chanSpared := by
  obtain ⟨t, f, hq⟩ := h
  rw [hq]

/-! ## Spares and fences (R634, R635) -/

theorem spareChanged_reg (p : Pkg) (pg pg' : Nat) {off : Nat} (ho : off < 0x1000) (h : 0x100 ≤ off) :
    reg (spareChanged p pg) (key pg' off) = reg p (key pg' off) := raiseBlock_reg_own _ _ _ _ ho h

theorem spareChanged_tracks (p : Pkg) (pg : Nat) : OnlyTracks p (spareChanged p pg) := (raiseBlock_only _ _ _).tracks

theorem channelSpare_spares (p : Pkg) (stack : Nat) {chan : Nat} (h : chan < 32) : bit (channelSpare p stack chan) (spareKey stack) 31 = true ∧
    fld (channelSpare p stack chan) (spareKey stack) 28 24 = chan ∧ stackSpared (channelSpare p stack chan) stack = true := by
  have hreg (q : Pkg) (e : ErrArgs) : reg (spareChanged (logErr q (pgHbm stack) e) (pgHbm stack)) (spareKey stack) = reg q (spareKey stack) :=
    (spareChanged_reg _ _ _ (by decide) (by decide)).trans (logErr_reg_own _ _ _ _ (by decide) (by decide))
  have htracks (q : Pkg) (e : ErrArgs) : (spareChanged (logErr q (pgHbm stack) e) (pgHbm stack)).fault.chanSpared = q.fault.chanSpared :=
    ((onlyTracks_logErr q _ e).trans (spareChanged_tracks _ _)).chanSpared
  refine ⟨?_, ?_, ?_⟩
  · rw [channelSpare, bit_congr (hreg _ _), bit_congr (reg_withFault _ _ _), bit_setFld_beside _ _ _ _ _ _ (by decide) (by decide) (by decide)]
    exact bit_setBit_self _ _ _ _ (by decide)
  · rw [channelSpare, fld_congr (hreg _ _), fld_congr (reg_withFault _ _ _), fld_setFld_self _ _ _ _ _ (by decide) (by decide)]
    exact Nat.mod_eq_of_lt h
  · rw [channelSpare, stackSpared, htracks, SMap.get_set_self]
    rfl

theorem channelFence_shows (stack chan : Nat) (s : State) : bit (channelFence stack chan s).pkg (spareKey stack) 29 = true := by
  refine (bit_congr (spareChanged_reg (setBit s.pkg (spareKey stack) 29 true) (pgHbm stack) (pgHbm stack) (by decide) (by decide)) 29).trans ?_
  exact bit_setBit_self _ _ _ _ (by decide)

theorem insertRising_has (l : List Nat) (a : Nat) : a ∈ insertRising l a := by
  induction l with
  | nil => exact List.mem_singleton_self a
  | cons b t ih =>
    unfold insertRising
    split
    · exact List.mem_cons_self
    split
    next h => exact h ▸ List.mem_cons_self
    · exact List.mem_cons_of_mem _ ih

theorem inFence_insert (m : Memory) {a sh o c : Nat} (hr : region a = .hbm sh o)
    (hc : 64 * hbmStack sh o + hbmPc (hbmLocal o) / 2 = c) : ({ m with fenced := insertRising m.fenced c } : Memory).inFence a = true := by
  have hmem : c ∈ insertRising m.fenced c := insertRising_has _ _
  unfold Memory.inFence
  dsimp only
  rw [hr]
  dsimp only
  rw [hc]
  split
  next h =>
    rw [h] at hmem
    cases hmem
  · exact List.contains_iff_mem.mpr hmem

/-- A read inside a fenced channel is poisoned. -/
theorem poisoned_fenced (m : Memory) (a n : Nat) {sh o stack chan : Nat} (hr : region a = .hbm sh o)
    (hs : hbmStack sh o = stack) (hc : hbmPc (hbmLocal o) / 2 = chan) :
    ({ m with fenced := insertRising m.fenced (64 * stack + chan) } : Memory).poisoned a n = true := by
  rw [Memory.poisoned, inFence_insert m hr (by rw [hs, hc]), Bool.or_true, Bool.true_or]

/-! ## Replica entries (R643) -/

theorem replicaWord_merged (value : W64) : mergeWrite (rw8 0x1D0 (msk 63 62 + msk 51 21 + msk 14 0)) 0 value =
    value &&& BitVec.ofNat 64 (msk 63 62 + msk 51 21 + msk 14 0) := by
  have hones (x : W64) : x &&& 18446744073709551615#64 = x := BitVec.and_allOnes
  simp [mergeWrite, rw8, hones]

/-- A write of QD_REPLICA_WORD0 that would make a second VALID entry, or one that R643 refuses, is discarded whole. -/
theorem putReplica_discards {sheet j : Nat} {value w0 w1 : W64} {p : Pkg} (hj : j = fld p (key (pgQd (8 * sheet)) 0x1C0) 4 0)
    (hw0 : w0 = value &&& BitVec.ofNat 64 (msk 63 62 + msk 51 21 + msk 14 0)) (hw1 : w1 = reg p (key (pgQd (8 * sheet)) 0x1C8))
    (hv : bitOf w0 63 = true) (h : bitOf (replicaWord p sheet j 0) 63 = true ∨ replicaOk p sheet w0 w1 = false) :
    putReplica sheet value p = p := by
  unfold putReplica
  dsimp only
  rw [replicaWord_merged, ← hj, ← hw0, ← hw1]
  refine if_pos ?_
  rw [hv, Bool.true_and, Bool.or_eq_true, Bool.not_eq_true']
  exact h

theorem putReplica_commits {sheet j : Nat} {value w0 w1 : W64} {p : Pkg} (hj : j = fld p (key (pgQd (8 * sheet)) 0x1C0) 4 0)
    (hw0 : w0 = value &&& BitVec.ofNat 64 (msk 63 62 + msk 51 21 + msk 14 0)) (hw1 : w1 = reg p (key (pgQd (8 * sheet)) 0x1C8))
    (h : bitOf w0 63 = false ∨ (bitOf (replicaWord p sheet j 0) 63 = false ∧ replicaOk p sheet w0 w1 = true)) :
    replicaWord (putReplica sheet value p) sheet j 0 = w0 ∧ replicaWord (putReplica sheet value p) sheet j 1 = w1 := by
  have hcond : ¬ (bitOf w0 63 && (bitOf (replicaWord p sheet j 0) 63 || !replicaOk p sheet w0 w1)) = true := by
    rcases h with h | ⟨h, hok⟩
    · simp [h]
    · simp [h, hok]
  unfold putReplica
  dsimp only
  rw [replicaWord_merged, ← hj, ← hw0, ← hw1, if_neg hcond]
  refine ⟨?_, ?_⟩
  · exact (SMap.get_set_ne _ _ _ (by omega)).trans (SMap.get_set_self _ _ _ _)
  · exact SMap.get_set_self _ _ _ _

/-- Bit 63 of the word is one of its writable bits. -/
theorem replicaWord_valid (value : W64) : bitOf (value &&& BitVec.ofNat 64 (msk 63 62 + msk 51 21 + msk 14 0)) 63 = bitOf value 63 := by
  have hmask : (BitVec.ofNat 64 (msk 63 62 + msk 51 21 + msk 14 0)).getLsbD 63 = true := by decide
  rw [bitOf_eq_getLsbD, bitOf_eq_getLsbD, BitVec.getLsbD_and, hmask, Bool.and_true]

/-! ## Replica repair (R645, R646) -/

theorem inRepair_congr {p q : Pkg} (h : q.fault.repairs = p.fault.repairs) (pa : Nat) : inRepair q pa = inRepair p pa := by
  rw [inRepair, inRepair, h]

theorem foldl_beginHandling_repairs (e : ErrArgs) (l : List Nat) (p : Pkg) :
    (l.foldl (fun q pg => beginHandling q pg e) p).fault.repairs = p.fault.repairs := by
  refine foldl_keeps (fun q : Pkg => q.fault.repairs) (fun q pg => ?_) l p
  unfold beginHandling
  dsimp only
  split <;> rfl

theorem startRepair_holds {s : State} {pa sh j : Nat} (h : isWindowCopy s.pkg sh j = false) :
    (startRepair pa sh j s).mem = s.mem ∧ inRepair (startRepair pa sh j s).pkg pa = true := by
  unfold startRepair
  dsimp only
  rw [if_neg (by simp [h])]
  refine ⟨rfl, ?_⟩
  rw [inRepair_congr (congrArg FaultSt.repairs (onlyReads_homeRead _ _ _ _ _).fault_eq),
    inRepair_congr (foldl_beginHandling_repairs _ _ _), inRepair, SMap.any_key_set, BEq.rfl, Bool.true_or]

theorem replicaRepair_none {s : State} {pa : Nat} (h : replicaOf s.pkg pa = none ∨ inRepair s.pkg pa = true) : replicaRepair pa s = s := by
  unfold replicaRepair
  split
  next hr =>
    rcases h with h | h
    · rw [h] at hr
      cases hr
    · exact if_pos h
  · rfl

theorem replicaRepair_starts {s : State} {pa sh j : Nat} (h : replicaOf s.pkg pa = some (sh, j)) (hr : inRepair s.pkg pa = false) :
    replicaRepair pa s = startRepair pa sh j s := by
  unfold replicaRepair
  simp only [h, hr, Bool.false_eq_true, if_false]

theorem endRepair_ends (p : Pkg) (pa : Nat) : inRepair (endRepair p (pa / 64)) pa = false := by
  have hend (l : List Nat) (q : Pkg) : (l.foldl (fun q pg => endHandling q pg (2 * (pa / 64))) q).fault.repairs = q.fault.repairs :=
    foldl_keeps (f := fun q pg => endHandling q pg (2 * (pa / 64))) (fun q : Pkg => q.fault.repairs) (fun _ _ => rfl) l q
  unfold endRepair
  dsimp only
  split
  · rw [inRepair_congr (hend _ _), inRepair]
    exact SMap.any_drop_self _ _
  next h => exact Bool.eq_false_iff.mpr h

theorem repairFails_ends (pa j cause : Nat) (s : State) : inRepair (repairFails pa j cause s).pkg pa = false ∧
    (repairFails pa j cause s).mem = s.mem.setPoison pa :=
  ⟨(inRepair_congr (onlyTracks_logErr _ _ _).repairs pa).trans (endRepair_ends _ _), rfl⟩

theorem repairEnds_good {s : State} {pa line sh j : Nat} (data : Item)
    (h : s.pkg.fault.repairs.find? (fun r => r.1 == pa / 64) = some (line, (sh, j))) :
    inRepair (repairEnds pa data 0 s).pkg pa = false ∧ (repairEnds pa data 0 s).mem = s.mem.storeLine pa data false := by
  unfold repairEnds repairEnds.p
  simp only [h, if_true, and_true]
  rw [inRepair_congr (onlyTracks_logErr _ _ _).repairs, inRepair_congr (congrArg FaultSt.repairs (onlyReads_memSend _ _ _ _).fault_eq)]
  exact endRepair_ends _ _

theorem repairEnds_bad {s : State} {pa line sh j cause : Nat} (data : Item)
    (h : s.pkg.fault.repairs.find? (fun r => r.1 == pa / 64) = some (line, (sh, j))) (hc : cause ≠ 0) :
    inRepair (repairEnds pa data cause s).pkg pa = false ∧ (repairEnds pa data cause s).mem = s.mem.setPoison pa := by
  unfold repairEnds repairEnds.p
  simp only [h, hc, if_false]
  exact repairFails_ends _ _ _ _

theorem replicaCopy_ddr {s : State} {pa line sh j : Nat} (data : Item) (cause : Nat)
    (h : s.pkg.fault.repairs.find? (fun r => r.1 == pa / 64) = some (line, (sh, j))) (hw : isWindowCopy s.pkg sh j = false)
    (hh : (dirLine s.pkg (copyOf s.pkg sh j pa / 64)).host ≠ 2) : replicaCopy pa data cause s =
      if s.mem.poisoned (copyOf s.pkg sh j pa / 64 * 64) 64 then repairEnds pa 0 0xFF s
      else repairEnds pa (s.mem.line (copyOf s.pkg sh j pa)) 0 s := by
  unfold replicaCopy
  simp only [h, hw, Bool.false_eq_true, if_false, hh]

/-- What a window's answer is taken as: the read it answers no longer stands. -/
theorem replicaCopy_window {s : State} {pa line sh j : Nat} (data : Item) (cause : Nat)
    (h : s.pkg.fault.repairs.find? (fun r => r.1 == pa / 64) = some (line, (sh, j))) (hw : isWindowCopy s.pkg sh j = true) :
    ∃ q : Pkg, q.fault = s.pkg.fault ∧ replicaCopy pa data cause s = repairEnds pa data cause { s with pkg := q } := by
  unfold replicaCopy
  simp only [h, hw, if_true]
  exact ⟨{ s.pkg with rt := { s.pkg.rt with acc := s.pkg.rt.acc.filter (fun x => x.2.who != .replica (pa / 64 * 64)) } }, rfl, rfl⟩

/-- Settles O52. -/
theorem sparesFencesAndReplicasTakeOver : Obligations.SparesFencesAndReplicasTakeOver := by
  unfold Obligations.SparesFencesAndReplicasTakeOver
  refine ⟨fun s stack chan hs hc hp => ⟨fun hn => ?_, fun hy => ?_⟩, fun s stack chan hs hc hy => ?_,
    fun s rq sheet j value w0 w1 hsheet hfate hj hw0 hw1 => ?_, fun s pa sh j hr hin hw => ?_,
    fun s pa h => next_eq (replicaRepair_none h), fun s pa line sh j data cause h => ⟨fun hw hh hp => ?_, fun hw hh hp => ?_,
      fun hw hc => ?_, fun hw hc => ?_⟩⟩
  · refine ⟨s.onPkg fun p => channelSpare p stack chan, ?_, rfl, channelSpare_spares s.pkg stack hc⟩
    rw [exec, execChannelSpare, if_pos ⟨hs, hc, hp⟩, if_neg (by simp [hn])]
  · refine ⟨channelFence stack chan s, ?_, rfl, channelFence_shows _ _ _⟩
    rw [exec, execChannelSpare, if_pos ⟨hs, hc, hp⟩, if_pos hy]
  · exact ⟨channelFence stack chan s, if_pos ⟨hs, hc, hy⟩, rfl, channelFence_shows _ _ _,
      fun a n sh o hr hst hch => poisoned_fenced s.mem a n hr hst hch⟩
  · have hput : exec (.replicaCommit rq sheet value) s = .next (s.onPkg (putReplica sheet value)) :=
      next_onPkg ((if_pos hsheet).trans (ifWrites_accepted _ hfate))
    have hvalid : bitOf w0 63 = bitOf value 63 := hw0 ▸ replicaWord_valid value
    rw [hput]
    refine ⟨fun hv h => next_onPkg (putReplica_discards hj hw0 hw1 (hvalid.trans hv) h), fun h => ⟨_, rfl, rfl, ?_⟩⟩
    rw [← hvalid] at h
    exact putReplica_commits hj hw0 hw1 h
  · exact ⟨_, next_eq (replicaRepair_starts hr hin), startRepair_holds hw⟩
  · have hcopy := replicaCopy_ddr data cause h hw hh
    rw [if_neg (by simp [hp])] at hcopy
    exact ⟨_, next_eq hcopy, repairEnds_good _ h⟩
  · have hcopy := replicaCopy_ddr data cause h hw hh
    rw [if_pos hp] at hcopy
    exact ⟨_, next_eq hcopy, repairEnds_bad 0 h (cause := 0xFF) (by decide)⟩
  · subst hc
    obtain ⟨q, hq, hcopy⟩ := replicaCopy_window data 0 h hw
    exact ⟨_, next_eq hcopy, repairEnds_good data (s := { s with pkg := q }) (by rw [hq]; exact h)⟩
  · obtain ⟨q, hq, hcopy⟩ := replicaCopy_window data cause h hw
    exact ⟨_, next_eq hcopy, repairEnds_bad data (s := { s with pkg := q }) (by rw [hq]; exact h) hc⟩

end Sys2Proof.Machine
end

section
/-! The root port (R529 to R532): the proof of O42. -/

namespace Sys2Proof.Machine

/-! ## Configuration and device memory (R529, R530) -/

theorem doCfgRead_other {p : Pkg} {rq : Requester} (data : W32) (status : Nat) (h : ownsHl p rq = false) :
    doCfgRead rq data status p = emitMsg p (.readData (key pgHl 0x154) 0) := by
  simp [doCfgRead, cfgReadOf, h]

theorem doCfgRead_rootPort {p : Pkg} {rq : Requester} (data : W32) (status : Nat) (h : ownsHl p rq = true)
    (hr : isRootPort (cfgTarget p) = true) : doCfgRead rq data status p =
      emitMsg p (.readData (key pgHl 0x154) ((rpDword p (cfgTarget p % 2 ^ 12)).setWidth 64)) := by
  simp [doCfgRead, cfgReadOf, h, hr]

theorem doCfgRead_device {p : Pkg} {rq : Requester} (data : W32) (h : ownsHl p rq = true) (hr : isRootPort (cfgTarget p) = false) :
    (doCfgRead rq data 0 p).out = .readData (key pgHl 0x154) (data.setWidth 64) :: .rpConfig (cfgTarget p) none :: p.out := by
  simp only [doCfgRead, cfgReadOf, h, hr, Bool.not_true, Bool.false_eq_true, if_false, if_true]
  rfl

theorem rpStored_putRp (p : Pkg) (off : Nat) (v : W32) : rpStored (putRp p off v) off = v := SMap.get_set_self _ _ _ _

/-- A write of a dword of the root port that is no error status: its writable bits take the value. -/
theorem rpWrite_stores (p : Pkg) (v : W32) {off : Nat} (h1 : off ≠ 0x104) (h2 : off ≠ 0x110) (h3 : off ≠ 0x130) :
    rpStored (rpWrite p off v) off = (rpStored p off &&& ~~~BitVec.ofNat 32 (lookupN rpMask off)) |||
      (v &&& BitVec.ofNat 32 (lookupN rpMask off)) := by
  have hseq (c : Prop) [Decidable c] (q : Pkg) (x : SeqSt) : rpStored (if c then { q with seq := x } else q) off = rpStored q off := by
    split <;> rfl
  unfold rpWrite
  dsimp only
  rw [hseq, if_neg (by simp [h1, h2, h3])]
  split
  next hm =>
    have hones (x : W32) : x &&& 4294967295#32 = x := BitVec.and_allOnes
    simp [hm, hones]
  · exact rpStored_putRp _ _ _

theorem rpError_logs (p : Pkg) {n : Nat} (h : n < 32) : bitOf (rpStored (rpError p n) 0x104) n = true := by
  have hraise (q : Pkg) : rpStored (raiseBlock q pgHl 3) 0x104 = rpStored q 0x104 := by
    have hhl : (raiseBlock q pgHl 3).hl = q.hl := (raiseBlock_only q pgHl 3).log.hl_eq
    rw [rpStored, rpStored, hhl]
  have hput (q : Pkg) (v : W32) : rpStored (putRp q 0x130 v) 0x104 = rpStored q 0x104 := SMap.get_set_ne _ _ _ (by decide)
  have hset : bitOf (rpStored (putRp p 0x104 (withBits (rpStored p 0x104) n n 1)) 0x104) n = true := by
    rw [rpStored_putRp]
    exact bitOf_withBits _ _ true h
  unfold rpError
  dsimp only
  split
  · rw [hraise, hput, hset]
  · rw [hput, hset]

theorem doRpMmioTimeout_standalone {p : Pkg} (h : p.standalone = true) :
    doRpMmioTimeout p = emitMsg (rpError p 14) (.readData (key pgHl 0x160) (BitVec.allOnes 64)) := if_pos h

theorem doCfgRetryTimeout_due {p : Pkg} {since : Nat} (h : p.hl.retryAt = some since) (hd : since + 1000000000 ≤ p.pace.datum) :
    doCfgRetryTimeout p = emitMsg (setHl p { p.hl with retryAt := none }) (.readData (key pgHl 0x154) 0xFFFFFFFF) := by
  simp only [doCfgRetryTimeout, h, hd, if_true]

/-! ## Inbound requests (R531, R532) -/

theorem linesOf_served {p : Pkg} {addr bytes : Nat} (h : ∀ l ∈ linesOf addr bytes, fateFor p idHostLink l false = .served) :
    (linesOf addr bytes).any (fun l => fateFor p idHostLink l false != .served) = false := by
  rw [List.any_eq_false]
  intro l hl
  rw [h l hl]
  decide

section
variable {s : State} {addr bytes : Nat} (hs : s.pkg.standalone = true) (hm : hlMode s.pkg ≠ 0) (h0 : 0 < bytes) (h64 : bytes ≤ 64)
include hs hm h0 h64

theorem inbound_admits : ¬ (s.pkg.standalone = false ∨ hlMode s.pkg = 0 ∨ bytes = 0 ∨ 64 < bytes) := by
  rw [hs]
  rintro (h | h | h | h)
  · cases h
  · exact hm h
  · omega
  · omega

theorem inbound_write (data : Item) (hb : inBounce s.pkg addr bytes = true)
    (hl : ∀ l ∈ linesOf addr bytes, fateFor s.pkg idHostLink l false = .served) :
    (inbound true addr bytes data s).mem = s.mem.store addr bytes (data.toNat % 2 ^ (8 * bytes)) := by
  unfold inbound
  dsimp only
  rw [if_neg (inbound_admits hs hm h0 h64), if_pos hb, if_neg (by simp [linesOf_served hl]), if_pos rfl]

theorem inbound_read (data : Item) (hb : inBounce s.pkg addr bytes = true)
    (hl : ∀ l ∈ linesOf addr bytes, fateFor s.pkg idHostLink l false = .served) :
    (inbound false addr bytes data s).mem = s.mem ∧ (inbound false addr bytes data s).pkg.out.head? =
      some (.inboundData addr (BitVec.ofNat 512 (s.mem.read addr bytes)) (s.mem.poisoned addr bytes)) := by
  unfold inbound
  dsimp only
  rw [if_neg (inbound_admits hs hm h0 h64), if_pos hb, if_neg (by simp [linesOf_served hl]), if_neg Bool.false_ne_true]
  exact ⟨rfl, rfl⟩

theorem inbound_rejects (data : Item) {w : Bool} (hb : inBounce s.pkg addr bytes = false) (hw : w = true → inMsi s.pkg addr = false) :
    inbound w addr bytes data s = { s with pkg := emitMsg (reject s.pkg) (.unsupported addr) } := by
  unfold inbound
  dsimp only
  rw [if_neg (inbound_admits hs hm h0 h64), if_neg (by simp [hb]), if_neg]
  cases w with
  | false => simp
  | true => simp [hw rfl]

theorem inbound_msi (data : Item) (hb : inBounce s.pkg addr bytes = false) (hi : inMsi s.pkg addr = true) :
    inbound true addr bytes data s = { s with pkg := msiWrite s.pkg addr bytes (data.toNat % 2 ^ 32) } := by
  unfold inbound
  dsimp only
  rw [if_neg (inbound_admits hs hm h0 h64), if_neg (by simp [hb]), if_pos (by simp [hi])]

end

theorem reject_counts (p : Pkg) (a : Nat) : reg (emitMsg (reject p) (.unsupported a)) (key pgHl 0x168) =
    BitVec.ofNat 64 (satAdd 0xFFFFFFFF (regN p (key pgHl 0x168)) 1) := by
  rw [reg_emitMsg, reject, bumpReg, reg_setReg_self]

/-- A 4-byte write of a number at a hart's place in the MSI range sets its pending bit. -/
theorem msiWrite_pends {p : Pkg} {h id : Nat} (hh : h < 48) (hid : id % 2048 ≠ 0) :
    msiWrite p (msiBase p + 64 * h) 4 id = setEip p h 1 (id % 2048) := by
  have hoff : msiBase p + 64 * h - msiBase p = 64 * h := by omega
  have hdiv : 64 * h / 64 = h := by omega
  rw [msiWrite, hoff, hdiv, if_pos ⟨rfl, by omega, hh, hid⟩]

/-! ## INTx (R532, R433) -/

theorem aplic_setAplic_self (p : Pkg) (off : Nat) (v : W32) : aplic (setAplic p off v) off = v := SMap.get_set_self _ _ _ _

theorem aplic_setAplic_ne (p : Pkg) {off off' : Nat} (v : W32) (h : off' ≠ off) : aplic (setAplic p off v) off' = aplic p off' :=
  SMap.get_set_ne _ _ _ h

theorem aplic_apSet_ne (p : Pkg) (i : Nat) (b : Bool) {off : Nat} (h : off ≠ apPending) : aplic (apSet p i b) off = aplic p off := by
  unfold apSet
  split
  · rfl
  · exact aplic_setAplic_ne _ _ h

theorem aplic_apForward_ne (p : Pkg) {off : Nat} (h : off ≠ apPending) : aplic (apForward p) off = aplic p off := by
  unfold apForward
  split
  · refine foldl_keeps (fun q => aplic q off) (fun q i => ?_) _ p
    split
    · dsimp only
      split
      · exact aplic_setAplic_ne _ _ h
      · exact aplic_setAplic_ne _ _ h
    · rfl
  · rfl

/-- A source's input shows the level that it was given. -/
theorem apSource_level (p : Pkg) {i : Nat} (high : Bool) : aplic (apSource p i high) (0x8000 + i) = if high then 1 else 0 := by
  have hne : 0x8000 + i ≠ apPending := by
    unfold apPending
    omega
  have hset (q : Pkg) (b c : Prop) [Decidable b] [Decidable c] : aplic (if b then apSet q i true else if c then apSet q i false else q)
      (0x8000 + i) = aplic q (0x8000 + i) := by
    split
    · exact aplic_apSet_ne _ _ _ hne
    split
    · exact aplic_apSet_ne _ _ _ hne
    · rfl
  unfold apSource
  dsimp only
  rw [aplic_apForward_ne _ hne, hset, aplic_setAplic_self]

/-- A rising edge at a source in mode 4 pends, while messages are not forwarded. -/
theorem apSource_pends {p : Pkg} {i : Nat} (hi : 0 < i) (hi' : i ≤ 4) (hie : bitOf (aplic p 0) 8 = false) (hmode : apMode p i = 4)
    (hlow : aplic p (0x8000 + i) = 0) : bitOf (aplic (apSource p i true) apPending) i = true := by
  have hmode' : apMode (setAplic p (0x8000 + i) 1) i = 4 := by
    rw [apMode, aplic_setAplic_ne _ _ (by omega)]
    exact hmode
  have hwas : apInput p i = false := by
    simp [apInput, hmode, hlow]
  have hnow : apInput (setAplic p (0x8000 + i) 1) i = true := by
    rw [apInput, hmode', aplic_setAplic_self]
    rfl
  have hset : apSet (setAplic p (0x8000 + i) 1) i true = setAplic (setAplic p (0x8000 + i) 1) apPending
      (withBits (aplic (setAplic p (0x8000 + i) 1) apPending) i i 1) := by
    rw [apSet, hmode', if_neg (by omega)]
    rfl
  have hoff : bitOf (aplic (apSet (setAplic p (0x8000 + i) 1) i true) 0) 8 = false := by
    rw [aplic_apSet_ne _ _ _ (by decide), aplic_setAplic_ne _ _ (by omega)]
    exact hie
  unfold apSource
  simp only [hwas, hnow, Bool.not_false, Bool.and_true, if_true]
  rw [apForward, if_neg (Bool.eq_false_iff.mp hoff), hset, aplic_setAplic_self]
  exact bitOf_withBits _ _ true (by omega)

/-- Settles O42. -/
theorem theRootPortSendsAndAccepts : Obligations.TheRootPortSendsAndAccepts := by
  unfold Obligations.TheRootPortSendsAndAccepts
  refine ⟨fun s rq data status => ⟨fun h => ⟨_, next_onPkg (doCfgRead_other data status h), rfl, rfl⟩,
      fun h hr => ⟨_, next_onPkg (doCfgRead_rootPort data status h hr), rfl, rfl⟩, fun h hr h0 => ?_⟩,
    fun s rq v hw hs => ⟨fun hr => ?_, fun off m hr hoff h1 h2 h3 hm => ?_⟩,
    fun s rq width v hw => ⟨fun h => ?_, fun h => ?_, fun hf hs => ?_⟩,
    fun s hs => ⟨_, next_onPkg (doRpMmioTimeout_standalone hs), rfl, rpError_logs s.pkg (by decide), rfl⟩,
    fun s since h hd => ⟨_, next_onPkg (doCfgRetryTimeout_due h hd), rfl, rfl, rfl⟩,
    fun s addr bytes data hs hm h0 h64 => ⟨fun hb hl => ⟨⟨_, rfl, inbound_write hs hm h0 h64 data hb hl⟩,
      ⟨_, rfl, inbound_read hs hm h0 h64 data hb hl⟩⟩, fun hb w hw => ⟨_, next_eq (inbound_rejects hs hm h0 h64 data hb hw), rfl, rfl,
        reject_counts s.pkg addr⟩⟩,
    fun s h addr data hs hm hh ha hb hid => ?_, fun s pin assert hs hp hc => ?_⟩
  · subst h0
    exact ⟨_, rfl, rfl, doCfgRead_device data h hr⟩
  · refine ⟨_, next_onPkg ((ifWrites_accepted _ hw).trans ((if_neg (by simp [hs])).trans (if_neg (by simp [hr])))), rfl, rfl⟩
  · refine ⟨_, next_onPkg ((ifWrites_accepted _ hw).trans ((if_neg (by simp [hs])).trans (if_pos hr))), rfl, ?_⟩
    subst hoff hm
    exact rpWrite_stores s.pkg v h1 h2 h3
  · have hmin : min width 8 = width := by omega
    have hread : mmioReadOf rq width v s.pkg = (v &&& BitVec.ofNat 64 (2 ^ (8 * width) - 1),
        emitMsg s.pkg (.rpMmio (reg s.pkg (key pgHl 0x158)) width none)) := by rw [mmioReadOf, if_pos h, hmin]
    refine ⟨_, rfl, rfl, ?_⟩
    rw [State.onPkg_pkg, hread]
    rfl
  · have hread : mmioReadOf rq width v s.pkg = (0, s.pkg) := if_neg (by simp [h])
    refine ⟨_, rfl, rfl, ?_⟩
    rw [State.onPkg_pkg, hread]
    rfl
  · have hmin : min width 8 = width := by omega
    refine ⟨_, next_onPkg ((ifWrites_accepted _ hf).trans (if_pos hs)), rfl, ?_⟩
    rw [hmin]
    rfl
  · subst ha
    have hmsi : inMsi s.pkg (msiBase s.pkg + 64 * h) = true := decide_eq_true (by omega)
    have hdata : ((data.setWidth 512 : Item)).toNat % 2 ^ 32 = data.toNat := by
      have := data.isLt
      rw [BitVec.toNat_setWidth]
      omega
    refine ⟨_, next_eq (inbound_msi hs hm (by decide) (by decide) _ hb hmsi), rfl, ?_⟩
    rw [hdata, msiWrite_pends hh hid]
    rfl
  · refine ⟨_, next_onPkg (if_pos ⟨hs, hp, hc⟩), rfl, apSource_level s.pkg assert, fun ha hie hmode hlow => ?_⟩
    subst ha
    exact apSource_pends (by omega) (by omega) hie hmode hlow

end Sys2Proof.Machine
end

section
/-! Function-level and conventional resets (R525, R527, R537, R675): the proof of O41. -/

namespace Sys2Proof.Machine

/-! ## What ends a command leaves of the host link and the router -/

theorem OnlyLog.standalone_eq {p q : Pkg} (h : OnlyLog p q) : q.standalone = p.standalone := by
  obtain ⟨_, _, _, _, _, rfl⟩ := h
  rfl

theorem OnlyLog.rt_eq {p q : Pkg} (h : OnlyLog p q) : q.rt = p.rt := by
  obtain ⟨_, _, _, _, _, rfl⟩ := h
  rfl

/-- The host link's and the router's states and the personality are kept. -/
structure KeepsLink (p q : Pkg) : Prop where
  hl : q.hl = p.hl
  rt : q.rt = p.rt
  standalone : q.standalone = p.standalone

theorem KeepsLink.refl (p : Pkg) : KeepsLink p p := ⟨rfl, rfl, rfl⟩

theorem KeepsLink.trans {p q r : Pkg} (h : KeepsLink p q) (g : KeepsLink q r) : KeepsLink p r :=
  ⟨g.hl.trans h.hl, g.rt.trans h.rt, g.standalone.trans h.standalone⟩

theorem KeepsLink.foldl {α : Type} {f : Pkg → α → Pkg} (hf : ∀ p a, KeepsLink p (f p a)) (l : List α) (p : Pkg) :
    KeepsLink p (l.foldl f p) := by
  induction l generalizing p with
  | nil => exact .refl p
  | cons a l ih => exact (hf p a).trans (ih _)

theorem OnlyLog.keepsLink {p q : Pkg} (h : OnlyLog p q) : KeepsLink p q := ⟨h.hl_eq, h.rt_eq, h.standalone_eq⟩

theorem keepsLink_finishCmd (p : Pkg) (id status detail : Nat) : KeepsLink p (finishCmd p id status detail) := by
  have hsettle (q : Pkg) (ctx ring k : Nat) : KeepsLink q (settlePending q ctx ring k) := by
    obtain ⟨x, y, h⟩ := (settlePending_onlyHeads q ctx ring k).pkg
    rw [h]
    exact ⟨rfl, rfl, rfl⟩
  unfold finishCmd
  extract_lets c st dt q
  split
  · exact ⟨rfl, rfl, rfl⟩
  split
  · exact .refl p
  · refine KeepsLink.trans ?_ (hsettle _ _ _ _)
    exact ⟨rfl, rfl, rfl⟩

theorem keepsLink_ceBoundary (p : Pkg) (n : Nat) : KeepsLink p (ceBoundary p n) := by
  unfold ceBoundary l1Boundary
  extract_lets c0 c c1 v p1 p2 p3
  have h2 : KeepsLink p p2 := by
    unfold p2
    split <;> exact ⟨rfl, rfl, rfl⟩
  have h3 : KeepsLink p p3 := by
    unfold p3
    split
    · exact ⟨h2.hl, h2.rt, h2.standalone⟩
    · exact h2
  exact ⟨h3.hl, h3.rt, h3.standalone⟩

theorem keepsLink_drained (p : Pkg) (pg : Nat) : KeepsLink p (drained p pg) := by
  unfold drained
  split
  · exact .refl p
  · have hready := (setReady_only p pg false).keepsLink
    exact ⟨hready.hl, hready.rt, hready.standalone⟩

theorem keepsLink_ceRelease (p : Pkg) (n : Nat) (c : Cmd) : KeepsLink p (ceRelease p n c) := by
  have hclear : KeepsLink p (ceCleared p n c) := by
    unfold ceCleared
    dsimp only
    split <;> exact ⟨rfl, rfl, rfl⟩
  have hidle (q : Pkg) : KeepsLink q (ceIdle q n) := ⟨rfl, rfl, rfl⟩
  rw [ceRelease_eq]
  exact ((hclear.trans (keepsLink_ceBoundary _ n)).trans (hidle _)).trans (keepsLink_drained _ _)

theorem keepsLink_ceStop (p : Pkg) (n : Nat) : KeepsLink p (ceStop p n) := ⟨rfl, rfl, rfl⟩

theorem keepsLink_dropWatches (p : Pkg) (id : Nat) : KeepsLink p (dropWatches p id) := ⟨rfl, rfl, rfl⟩

theorem keepsLink_setCmd (p : Pkg) (id : Nat) (c : Cmd) : KeepsLink p (setCmd p id c) := ⟨rfl, rfl, rfl⟩

theorem keepsLink_stopWith (p : Pkg) (n status detail : Nat) : KeepsLink p (stopWith p n status detail) := by
  have hend (q : Pkg) (id : Nat) : KeepsLink q (endOnCe q n id status detail) := by
    have hcount : KeepsLink q (addReg (addCmdBeats q id n) (key (pgCe n) 0x380) 1) := ⟨rfl, rfl, rfl⟩
    have hrun : KeepsLink q (runEnded q n id (status % 256)) := by
      unfold runEnded
      exact hcount.trans (waypoint_only _ _ _ _ _).keepsLink
    exact (hrun.trans (keepsLink_ceRelease _ n (cmd q id))).trans (keepsLink_finishCmd _ id status detail)
  unfold stopWith
  split
  · exact (keepsLink_ceStop p n).trans (hend _ _)
  · exact .refl p

theorem keepsLink_withQm (p : Pkg) (m : QmSt) : KeepsLink p { p with qm := m } := ⟨rfl, rfl, rfl⟩

theorem keepsLink_dropLoads (p : Pkg) (id : Nat) : KeepsLink p (dropLoads p id) := by
  unfold dropLoads
  exact ⟨rfl, rfl, rfl⟩

theorem keepsLink_setBit (p : Pkg) (k n : Nat) (b : Bool) : KeepsLink p (setBit p k n b) := ⟨rfl, rfl, rfl⟩

theorem keepsLink_endChartLoad (p : Pkg) (id : Nat) : KeepsLink p (endChartLoad p id) := by
  have hdir (q : Pkg) : KeepsLink q (restoreDir q id) := by
    unfold restoreDir
    split
    · dsimp only
      split <;> exact ⟨rfl, rfl, rfl⟩
    · exact .refl q
  unfold endChartLoad
  extract_lets c p1 q
  have h1 : KeepsLink p p1 := by
    unfold p1
    split
    · exact hdir p
    · exact .refl p
  refine KeepsLink.trans ?_ (keepsLink_finishCmd _ _ _ _)
  exact ⟨h1.hl, h1.rt, h1.standalone⟩

theorem keepsLink_abortCmd (p : Pkg) (id : Nat) : KeepsLink p (abortCmd p id) := by
  have habort (q : Pkg) (n : Nat) : KeepsLink q (abortPoint q n 0) := by
    unfold abortPoint
    split
    · exact (waypoint_only _ _ _ _ _).keepsLink
    · exact .refl q
  unfold abortCmd
  extract_lets c0 c q
  have hq : KeepsLink p q := keepsLink_setCmd _ _ _
  have hwatch : KeepsLink p (finishCmd (dropWatches q id) id 0x40 1) :=
    (hq.trans (keepsLink_dropWatches q id)).trans (keepsLink_finishCmd _ _ _ _)
  split
  · exact .refl p
  · exact .refl p
  · split
    · exact (hq.trans (keepsLink_setCmd _ _ _)).trans (keepsLink_endChartLoad _ id)
    split
    · split
      · exact hq.trans ((habort _ _).trans (keepsLink_stopWith _ _ _ _))
      · exact hwatch
    · exact hwatch
  · exact hq.trans (keepsLink_finishCmd _ _ _ _)

theorem keepsLink_ringAbort (ctx ring : Nat) (p : Pkg) : KeepsLink p (ringAbort ctx ring p) := by
  unfold ringAbort
  extract_lets p1 x p2 ids p3 m y p4
  have h2 : KeepsLink p p2 := ⟨rfl, rfl, rfl⟩
  have h3 : KeepsLink p2 p3 := .foldl (fun q id => keepsLink_abortCmd q id) _ _
  have h4 : KeepsLink p3 p4 := ⟨rfl, rfl, rfl⟩
  exact ((h2.trans h3).trans h4).trans (keepsLink_setBit _ _ _ _)

theorem keepsLink_freeTrailing (p : Pkg) (n : Nat) (c : Ce) : KeepsLink p (freeTrailing p n c) := by
  unfold freeTrailing
  split
  · exact (keepsLink_ceStop p n).trans (keepsLink_ceRelease _ n _)
  · exact .refl p

theorem keepsLink_abortRings (p : Pkg) : KeepsLink p (abortRings p) := by
  unfold abortRings
  extract_lets l p0 p1 p2 m p3
  clear_value l
  have h0 : KeepsLink p p0 := by
    refine KeepsLink.foldl (fun q x => ?_) l p
    exact keepsLink_ringAbort _ _ _
  clear_value p0
  have h1 : KeepsLink p0 p1 := by
    refine KeepsLink.foldl (fun q x => ?_) p0.ces p0
    exact keepsLink_freeTrailing _ _ _
  clear_value p1
  have h2 : KeepsLink p1 p2 := by
    refine KeepsLink.foldl (fun q x => ?_) p1.qm.cmds p1
    exact keepsLink_dropLoads _ _
  clear_value p2
  have h3 : KeepsLink p2 p3 := keepsLink_withQm _ _
  clear_value p3
  refine ((h0.trans h1).trans (h2.trans h3)).trans (.foldl (fun q x => ?_) l p3)
  exact (keepsLink_setBit q _ _ _).trans (keepsLink_setBit _ _ _ _)

/-! ## FLR (R525) -/

theorem abortRings_cmds (p : Pkg) : (abortRings p).qm.cmds = [] := by
  unfold abortRings
  extract_lets l p0 p1 p2 m p3
  have h3 : p3.qm.cmds = [] := rfl
  clear_value l p0 p1 p2 m p3
  rw [← h3]
  refine foldl_keeps (fun q : Pkg => q.qm.cmds) (fun q x => ?_) l p3
  rfl

/-- A context disabled, its translation registers clear. -/
def contextCleared (p : Pkg) (c : Nat) : Pkg :=
  setBit (setReg (setReg p (xlCtx c 0x100) 0) (xlCtx c 0x108) 0) (key (pgQm + 1 + c) 0x100) 31 false

/-- What a reset of the function leaves of a context. -/
def ContextClear (p : Pkg) (c : Nat) : Prop :=
  bit p (key (pgQm + 1 + c) 0x100) 31 = false ∧ fld p (xlCtx c 0x100) 1 0 = 0 ∧ reg p (xlCtx c 0x108) = 0

theorem ContextClear.of_reg {p q : Pkg} {c : Nat} (h : ContextClear p c)
    (hreg : ∀ pg off, off < 0x1000 → 0x100 ≤ off → reg q (key pg off) = reg p (key pg off)) : ContextClear q c := by
  obtain ⟨henable, hmode, hroot⟩ := h
  exact ⟨(bit_congr (hreg _ _ (by decide) (by decide)) _).trans henable, (fld_congr (hreg _ _ (by decide) (by decide)) _ _).trans hmode,
    (hreg _ _ (by decide) (by decide)).trans hroot⟩

theorem contextCleared_reg_ne (p : Pkg) {c k : Nat} (h1 : k ≠ xlCtx c 0x100) (h2 : k ≠ xlCtx c 0x108) (h3 : k ≠ key (pgQm + 1 + c) 0x100) :
    reg (contextCleared p c) k = reg p k := by
  rw [contextCleared, setBit, reg_setFld_ne _ _ _ _ h3, reg_setReg_ne _ _ h2, reg_setReg_ne _ _ h1]

theorem contextCleared_clears (p : Pkg) (c : Nat) : ContextClear (contextCleared p c) c := by
  have hpage : pgXl + 1 + c ≠ pgQm + 1 + c := by
    unfold pgXl pgQm
    omega
  have hx (off : Nat) (ho : off < 0x1000) : xlCtx c off ≠ key (pgQm + 1 + c) 0x100 := key_ne_page ho (by decide) hpage
  have hroot : xlCtx c 0x100 ≠ xlCtx c 0x108 := key_ne _ _ (by decide) (by decide) (by decide)
  refine ⟨bit_setBit_self _ _ _ _ (by decide), ?_, ?_⟩
  · rw [contextCleared, setBit, fld_setFld_ne _ _ _ _ _ _ (hx _ (by decide)), fld, reg_setReg_ne _ _ hroot, reg_setReg_self]
    decide
  · rw [contextCleared, setBit, reg_setFld_ne _ _ _ _ (hx _ (by decide)), reg_setReg_self]

/-- Contexts cleared after another leave it clear. -/
theorem ContextClear.cleared {p : Pkg} {c d : Nat} (h : ContextClear p c) (hc : c < 16) (hd : d < 16) (hne : c ≠ d) :
    ContextClear (contextCleared p d) c := by
  have hqm (off : Nat) (ho : off < 0x1000) : key (pgQm + 1 + c) 0x100 ≠ xlCtx d off := by
    refine key_ne_page (by decide) ho ?_
    unfold pgXl pgQm
    omega
  have hxl (off : Nat) (ho : off < 0x1000) : xlCtx c off ≠ key (pgQm + 1 + d) 0x100 := by
    refine key_ne_page ho (by decide) ?_
    unfold pgXl pgQm
    omega
  have hxx (off off' : Nat) (ho : off < 0x1000) (ho' : off' < 0x1000) : xlCtx c off ≠ xlCtx d off' :=
    key_ne_page ho ho' (by omega)
  have hqq : key (pgQm + 1 + c) 0x100 ≠ key (pgQm + 1 + d) 0x100 := key_ne_page (by decide) (by decide) (by omega)
  obtain ⟨henable, hmode, hroot⟩ := h
  refine ⟨?_, ?_, ?_⟩
  · rw [bit_congr (contextCleared_reg_ne p (hqm _ (by decide)) (hqm _ (by decide)) hqq), henable]
  · rw [fld_congr (contextCleared_reg_ne p (hxx _ _ (by decide) (by decide)) (hxx _ _ (by decide) (by decide)) (hxl _ (by decide))), hmode]
  · rw [contextCleared_reg_ne p (hxx _ _ (by decide) (by decide)) (hxx _ _ (by decide) (by decide)) (hxl _ (by decide)), hroot]

theorem contexts_cleared (p : Pkg) {n : Nat} (hn : n ≤ 16) : ∀ c, c < n → ContextClear ((List.range n).foldl contextCleared p) c := by
  induction n with
  | zero => exact fun c hc => absurd hc (Nat.not_lt_zero c)
  | succ n ih =>
    intro c hc
    rw [List.range_succ, List.foldl_append, List.foldl_cons, List.foldl_nil]
    by_cases heq : c = n
    · exact heq ▸ contextCleared_clears _ c
    · exact (ih (by omega) c (by omega)).cleared (by omega) (by omega) heq

/-- The directories, the cached translations and the device cache of a package whose contexts are disabled go. -/
def contextsEmptied (q : Pkg) : Pkg :=
  { q with
    qm := { q.qm with dirs := [], oldDirs := [] }
    xl := { q.xl with
      atc := [], once := [], denied := [], waits := []
      noCache := (q.xl.noCache ++ q.xl.requests.map (fun r => (r.1, r.2.1))).eraseDups }
    ces := q.ces.map clearCe
    home := { q.home with devCache := [], pend := q.home.pend.filter (fun l => !isHostLine l) } }

theorem resetContexts_eq (p : Pkg) : resetContexts p = contextsEmptied ((List.range 16).foldl contextCleared (abortRings p)) := by
  unfold resetContexts
  generalize abortRings p = q
  generalize List.range 16 = l
  rfl

theorem keepsLink_contextsEmptied (q : Pkg) : KeepsLink q (contextsEmptied q) := ⟨rfl, rfl, rfl⟩

theorem keepsLink_resetContexts (p : Pkg) : KeepsLink p (resetContexts p) := by
  rw [resetContexts_eq]
  refine ((keepsLink_abortRings p).trans (.foldl (fun q c => ?_) _ _)).trans (keepsLink_contextsEmptied _)
  exact ⟨rfl, rfl, rfl⟩

theorem resetContexts_empties (p : Pkg) : (resetContexts p).qm.dirs = [] ∧ (resetContexts p).xl.atc = [] := by
  rw [resetContexts_eq]
  generalize (List.range 16).foldl contextCleared (abortRings p) = q
  exact ⟨rfl, rfl⟩

theorem resetContexts_cmds (p : Pkg) : (resetContexts p).qm.cmds = [] := by
  have hfold (l : List Nat) : (l.foldl contextCleared (abortRings p)).qm.cmds = (abortRings p).qm.cmds :=
    foldl_keeps (f := contextCleared) (fun q : Pkg => q.qm.cmds) (fun _ _ => rfl) l _
  have hempty (q : Pkg) : (contextsEmptied q).qm.cmds = q.qm.cmds := rfl
  rw [resetContexts_eq, hempty, hfold, abortRings_cmds]

theorem resetContexts_contexts (p : Pkg) {c : Nat} (h : c < 16) : ContextClear (resetContexts p) c := by
  have hempty (q : Pkg) (k : Nat) : reg (contextsEmptied q) k = reg q k := reg_congr rfl rfl rfl k
  rw [resetContexts_eq]
  exact (contexts_cleared (abortRings p) (Nat.le_refl 16) c h).of_reg fun _ _ _ _ => hempty _ _

/-! ## The signals of a reset -/

/-- A reset's signal to the surveyor, where it answered the host. -/
theorem raiseBlock_msixTable (p : Pkg) (pg n : Nat) : (raiseBlock p pg n).int.msixTable = p.int.msixTable := by
  have hdeliver (q : Pkg) (w : W64) : (deliver q pg w).int.msixTable = q.int.msixTable := by
    unfold deliver
    split
    · rfl
    · rfl
    · unfold sendMsix
      split <;> rfl
    · rfl
  unfold raiseBlock raise setInt
  dsimp only
  split
  · rw [hdeliver]
    rfl
  · rfl

/-- FLR has begun on a package whose contexts are reset: the configuration is reset, and configuration requests are retried. -/
def flrBegun (q : Pkg) : Pkg := setHl (resetConfig q true) { (resetConfig q true).hl with flr := true, ltrAt := none }

theorem flrBegun_keeps (q : Pkg) : (flrBegun q).hl.flr = true ∧ (flrBegun q).hl.cfg = q.hl.cfg.filterMap keptByFlr ∧ (flrBegun q).qm = q.qm ∧
    (flrBegun q).xl = q.xl ∧ (flrBegun q).int.msixTable = [] ∧ ∀ k, reg (flrBegun q) k = reg q k :=
  ⟨rfl, rfl, rfl, rfl, rfl, reg_congr rfl rfl rfl⟩

theorem doFlr_eq {p : Pkg} (hs : p.standalone = false) (hf : p.hl.flr = false) : doFlr p =
    waypoint (if p.hl.answering then raiseBlock (flrBegun (resetContexts p)) pgSv 1 else flrBegun (resetContexts p)) pgHl 0x03 0 1 := by
  rw [doFlr, if_neg (by simp [hs, hf])]
  generalize resetContexts p = q
  rfl

/-- What the signals of FLR leave. -/
theorem flrSignalled (q : Pkg) (b : Bool) (t : Pkg) (h : t = waypoint (if b then raiseBlock q pgSv 1 else q) pgHl 0x03 0 1) :
    t.hl = q.hl ∧ t.qm = q.qm ∧ t.xl = q.xl ∧ t.int.msixTable = q.int.msixTable ∧
      ∀ pg off, off < 0x1000 → 0x100 ≤ off → reg t (key pg off) = reg q (key pg off) := by
  subst h
  cases b with
  | false => exact ⟨rfl, rfl, rfl, rfl, fun _ _ _ _ => waypoint_reg _ _ _ _ _ _⟩
  | true =>
    obtain ⟨r, u, f, o, i, heq⟩ := (raiseBlock_only q pgSv 1).log.trans (waypoint_only _ pgHl 0x03 0 1)
    refine ⟨raiseBlock_hl _ _ _, ?_, ?_, raiseBlock_msixTable _ _ _, fun pg off ho h =>
      (waypoint_reg _ _ _ _ _ _).trans (raiseBlock_reg_own _ _ _ _ ho h)⟩
    · exact (congrArg Pkg.qm heq :)
    · exact (congrArg Pkg.xl heq :)

theorem doFlr_clears {p : Pkg} (hs : p.standalone = false) (hf : p.hl.flr = false) :
    (doFlr p).hl.flr = true ∧ (doFlr p).qm.cmds = [] ∧ (doFlr p).qm.dirs = [] ∧ (doFlr p).xl.atc = [] ∧ (doFlr p).int.msixTable = [] ∧
      (doFlr p).hl.cfg = p.hl.cfg.filterMap keptByFlr ∧ ∀ c, c < 16 → ContextClear (doFlr p) c := by
  obtain ⟨hhl, hqm, hxl, hmsix, hreg⟩ := flrSignalled (flrBegun (resetContexts p)) p.hl.answering (doFlr p) (doFlr_eq hs hf)
  obtain ⟨hdirs, hatc⟩ := resetContexts_empties p
  obtain ⟨hflr, hcfg, hqm', hxl', hmsix', hreg'⟩ := flrBegun_keeps (resetContexts p)
  rw [hhl, hqm, hxl, hmsix, hqm', hxl', hcfg, (keepsLink_resetContexts p).hl]
  exact ⟨hflr, resetContexts_cmds p, hdirs, hatc, hmsix', rfl,
    fun c hc => (resetContexts_contexts p hc).of_reg fun pg off ho h => (hreg pg off ho h).trans (hreg' _)⟩

theorem doFlrComplete_counts {p : Pkg} (h : p.hl.flr = true) : (doFlrComplete p).hl.flr = false ∧
    reg (doFlrComplete p) (key pgHl 0x130) = BitVec.ofNat 64 (satAdd 0xFFFFFFFF (regN p (key pgHl 0x130)) 1) := by
  have hraise (q : Pkg) (pg n : Nat) : reg (raiseBlock q pg n) (key pgHl 0x130) = reg q (key pgHl 0x130) :=
    raiseBlock_reg_own _ _ _ _ (by decide) (by decide)
  have hcount (q : Pkg) : reg (bumpReg q (key pgHl 0x130) 1 0xFFFFFFFF) (key pgHl 0x130) =
      BitVec.ofNat 64 (satAdd 0xFFFFFFFF (regN q (key pgHl 0x130)) 1) := reg_setReg_self _ _ _
  unfold doFlrComplete
  rw [if_pos h]
  dsimp only
  split
  · rw [raiseBlock_hl, raiseBlock_hl, hraise, hraise, hcount]
    exact ⟨rfl, rfl⟩
  · rw [raiseBlock_hl, hraise, hcount]
    exact ⟨rfl, rfl⟩

/-! ## Conventional resets (R675) -/

theorem setLink_hl (p : Pkg) (mode : Nat) (flit : Bool) (rate width : Nat) : (setLink p mode flit rate width).hl = p.hl := by
  have hraise (q : Pkg) : (raiseBlock q pgHl 1).hl = q.hl := raiseBlock_hl _ _ _
  unfold setLink
  dsimp only
  split
  · rfl
  · split
    · rw [hraise]
      rfl
    · rw [waypoint_hl, hraise]
      rfl

/-- A conventional reset of a package whose contexts are reset, before the surveyor's signal. -/
def linkReset (q : Pkg) : Pkg :=
  let p1 := resetConfig q false
  { p1 with
    regs := SMap.drop p1.regs hlReset
    queues := SMap.drop p1.queues (fun k => k == key pgHl 0x410)
    memc := { p1.memc with acc := SMap.drop p1.memc.acc (fun k => k == 8) }
    hl := { HlSt.initial with lastRead := p1.hl.lastRead } }

theorem conventionalReset_eq (p : Pkg) : conventionalReset p = if p.hl.answering && !p.hl.flr then
    raiseBlock (linkReset (resetContexts (setLink p 0 false 0 0))) pgSv 1 else linkReset (resetContexts (setLink p 0 false 0 0)) := by
  rfl

theorem linkReset_reg (q : Pkg) {k : Nat} (h : hlReset k = true) : reg (linkReset q) k = regReset (linkReset q) k := by
  have hdrop : reg (linkReset q) k = SMap.get (SMap.drop q.regs hlReset) k (regReset (linkReset q) k) := rfl
  rw [hdrop, SMap.get_drop, if_pos h]

/-- The link's status and the inset window's control read 0 after a reset. -/
theorem regReset_link (p : Pkg) : regReset p hlStatus = 0 ∧ regReset p insetControl = 0 := by
  have hinfo : pageInfo (hlStatus / 0x1000) = some ⟨8, 4, 0, 0, 1, 2144⟩ ∧ pageInfo (insetControl / 0x1000) = some ⟨8, 4, 0, 0, 1, 2144⟩ := by
    decide
  constructor
  · rw [regReset, hinfo.1]
    simp [hlStatus, key, pgHl]
    decide
  · rw [regReset, hinfo.2]
    simp [insetControl, key, pgHl]
    decide

theorem conventionalReset_resets (p : Pkg) : (conventionalReset p).hl = { HlSt.initial with lastRead := p.hl.lastRead } ∧
    (conventionalReset p).qm.cmds = [] ∧ reg (conventionalReset p) hlStatus = 0 ∧ reg (conventionalReset p) insetControl = 0 := by
  have hhl : (resetContexts (setLink p 0 false 0 0)).hl = p.hl := ((keepsLink_resetContexts _).hl).trans (setLink_hl _ _ _ _ _)
  have hcmds := resetContexts_cmds (setLink p 0 false 0 0)
  rw [conventionalReset_eq]
  generalize resetContexts (setLink p 0 false 0 0) = q at hhl hcmds
  have hlink : (linkReset q).hl = { HlSt.initial with lastRead := p.hl.lastRead } := by
    rw [← hhl]
    rfl
  have hstatus : reg (linkReset q) hlStatus = 0 := (linkReset_reg q (by decide)).trans (regReset_link _).1
  have hcontrol : reg (linkReset q) insetControl = 0 := (linkReset_reg q (by decide)).trans (regReset_link _).2
  split
  · obtain ⟨r, o, i, heq⟩ := raiseBlock_only (linkReset q) pgSv 1
    exact ⟨(raiseBlock_hl _ _ _).trans hlink, (congrArg (fun x : Pkg => x.qm.cmds) heq).trans hcmds,
      (raiseBlock_reg_own _ _ _ pgHl (by decide) (by decide)).trans hstatus,
      (raiseBlock_reg_own _ _ _ pgHl (by decide) (by decide)).trans hcontrol⟩
  · exact ⟨hlink, hcmds, hstatus, hcontrol⟩

theorem doPerst_hosted {p : Pkg} (kind : Nat) (hs : p.standalone = false) (hc : p.seq.railPgCore = true) : doPerst kind p =
    { conventionalReset p with seq := { p.seq with perst := p.seq.perst || decide (kind = 0) } } := by
  rw [doPerst, if_neg (by simp [hs]), if_pos hc]

theorem doPerst_resets {p : Pkg} (kind : Nat) (hs : p.standalone = false) (hc : p.seq.railPgCore = true) :
    hlMode (doPerst kind p) = 0 ∧ committed (doPerst kind p) = false ∧ (doPerst kind p).hl = { HlSt.initial with lastRead := p.hl.lastRead } ∧
      (doPerst kind p).qm.cmds = [] ∧ (doPerst kind p).seq.perst = (p.seq.perst || decide (kind = 0)) := by
  obtain ⟨hhl, hcmds, hstatus, hcontrol⟩ := conventionalReset_resets p
  rw [doPerst_hosted kind hs hc]
  generalize conventionalReset p = q at *
  have hseq (x : SeqSt) (k : Nat) : reg { q with seq := x } k = reg q k := reg_congr rfl rfl rfl k
  refine ⟨?_, ?_, hhl, hcmds, rfl⟩
  · rw [hlMode, fld, hseq, hstatus]
    decide
  · rw [committed, bit, hseq, hcontrol]
    decide

/-! ## LTR (R527) -/

theorem doLtrMessage_due {p : Pkg} (hs : p.standalone = false) (hm : hlMode p ≠ 0) (hf : p.hl.flr = false)
    (hc : bitOf (cfgStored p 0x78) 10 = true)
    (hd : ∀ x, p.hl.ltrAt = some x → x + 100000 ≤ p.pace.datum ∧ p.hl.ltrState ≠ ltrRow p) {table sn ns : Nat}
    (ht : table = (if ltrRow p = 0 then 0x83E8 else if ltrRow p = 1 then 0x8671 else 0x8BD0))
    (hsn : sn = ltrSmaller table ((cfgStored p 0x2A4).toNat % 2 ^ 13))
    (hns : ns = ltrSmaller table ((cfgStored p 0x2A4).toNat / 2 ^ 16 % 2 ^ 13)) :
    doLtrMessage p = emitMsg (setReg (setHl p { p.hl with ltrAt := some p.pace.datum, ltrState := ltrRow p }) (key pgHl 0x12C)
      (BitVec.ofNat 64 (ns * 65536 + sn))) (.ltr ns sn) := by
  have hdue : (match p.hl.ltrAt with
      | some t => decide (t + 100000 ≤ p.pace.datum ∧ p.hl.ltrState ≠ ltrRow p) | none => true) = true := by
    cases h : p.hl.ltrAt with
    | none => rfl
    | some x => exact decide_eq_true (hd x h)
  subst hsn hns ht
  exact if_pos ⟨hs, hm, hf, hc, hdue⟩

/-- An LTR latency has at most 16 bits. -/
theorem ltrSmaller_lt {table : Nat} (cap : Nat) (h : table < 65536) : ltrSmaller table cap < 65536 := by
  unfold ltrSmaller
  split
  · have := Nat.mod_lt cap (show 0 < 2 ^ 13 by decide)
    omega
  · exact h

/-- Settles O41. -/
theorem resetsOfTheFunctionClearContexts : Obligations.ResetsOfTheFunctionClearContexts := by
  unfold Obligations.ResetsOfTheFunctionClearContexts
  refine ⟨fun s hs hf => ⟨_, rfl, rfl, doFlr_clears hs hf⟩, fun s hf => ⟨_, rfl, rfl, doFlrComplete_counts hf⟩,
    fun s kind hs hc => ⟨_, rfl, rfl, doPerst_resets kind hs hc⟩, fun s kind hs => next_onPkg (if_pos hs),
    fun s table hs hm hf hc hd ht => ?_⟩
  have hltr := doLtrMessage_due hs hm hf hc hd ht rfl rfl
  have htable : table < 65536 := by
    rw [ht]
    split
    · decide
    split <;> decide
  refine ⟨_, _, _, next_onPkg hltr, rfl, rfl, rfl, rfl, ?_, rfl⟩
  have hsn := ltrSmaller_lt ((cfgStored s.pkg 0x2A4).toNat % 2 ^ 13) htable
  have hns := ltrSmaller_lt ((cfgStored s.pkg 0x2A4).toNat / 2 ^ 16 % 2 ^ 13) htable
  rw [regN, reg_emitMsg, reg_setReg_self, BitVec.toNat_ofNat]
  exact Nat.mod_eq_of_lt (by omega)

end Sys2Proof.Machine
end

section
/-! What a store at a home, its snoops and a walk leave of the package (spec/13, R475, R476). -/

namespace Sys2Proof.Machine

/-- Only registers, homes, memory controllers, harts, the error handling, messages and free values change. -/
def OnlyServes (p q : Pkg) : Prop := ∃ r h m x f o n, q = { p with
  regs := r, home := h, memc := m, harts := x, fault := f, out := o, free := n }

theorem OnlyServes.refl (p : Pkg) : OnlyServes p p := ⟨_, _, _, _, _, _, _, rfl⟩

theorem OnlyServes.trans {p q r : Pkg} (h : OnlyServes p q) (g : OnlyServes q r) : OnlyServes p r := by
  obtain ⟨_, _, _, _, _, _, _, rfl⟩ := h
  obtain ⟨_, _, _, _, _, _, _, rfl⟩ := g
  exact ⟨_, _, _, _, _, _, _, rfl⟩

theorem OnlyServes.foldl {α : Type} {f : Pkg → α → Pkg} (hf : ∀ p a, OnlyServes p (f p a)) (l : List α) (p : Pkg) :
    OnlyServes p (l.foldl f p) := by
  induction l generalizing p with
  | nil => exact .refl p
  | cons a l ih => exact (hf p a).trans (ih _)

theorem OnlyReads.serves {p q : Pkg} (h : OnlyReads p q) : OnlyServes p q := by
  obtain ⟨_, _, _, _, _, _, rfl⟩ := h
  exact ⟨_, _, _, _, _, _, _, rfl⟩

theorem OnlyServes.xl_eq {p q : Pkg} (h : OnlyServes p q) : q.xl = p.xl := by
  obtain ⟨_, _, _, _, _, _, _, rfl⟩ := h
  rfl

theorem OnlyServes.qm_eq {p q : Pkg} (h : OnlyServes p q) : q.qm = p.qm := by
  obtain ⟨_, _, _, _, _, _, _, rfl⟩ := h
  rfl

theorem OnlyServes.rt_eq {p q : Pkg} (h : OnlyServes p q) : q.rt = p.rt := by
  obtain ⟨_, _, _, _, _, _, _, rfl⟩ := h
  rfl

theorem onlyServes_setHart (p : Pkg) (h : Nat) (x : Hart) : OnlyServes p (setHart p h x) := ⟨_, _, _, _, _, _, _, rfl⟩

theorem onlyServes_setDir (p : Pkg) (line : Nat) (d : DirLine) : OnlyServes p (setDir p line d) := ⟨_, _, _, _, _, _, _, rfl⟩

theorem onlyServes_hartEvent (p : Pkg) (h code n : Nat) : OnlyServes p (hartEvent p h code n) := by
  unfold hartEvent
  refine OnlyServes.foldl (fun q i => ?_) _ p
  exact onlyServes_setHart _ _ _

theorem onlyServes_loseResv (p : Pkg) (h line : Nat) : OnlyServes p (loseResv p h line) := by
  unfold loseResv
  split
  · exact onlyServes_setHart _ _ _
  · exact .refl p

theorem onlyServes_snooped (p : Pkg) (line h : Nat) : OnlyServes p (snooped p line h) := by
  unfold snooped
  dsimp only
  split
  · exact (onlyServes_hartEvent _ _ _ _).trans (onlyServes_hartEvent _ _ _ _)
  · exact onlyServes_hartEvent _ _ _ _

theorem onlyServes_snoopInv (p : Pkg) (line : Nat) (but : Option Nat) : OnlyServes p (snoopInv p line but) := by
  unfold snoopInv
  dsimp only
  refine OnlyServes.trans (.foldl (fun q h => ?_) _ p) (onlyServes_setDir _ _ _)
  exact (onlyServes_snooped q line h).trans (onlyServes_loseResv _ _ _)

theorem onlyServes_endRepair (p : Pkg) (line : Nat) : OnlyServes p (endRepair p line) := by
  unfold endRepair
  dsimp only
  split
  · refine OnlyServes.trans ?_ (.foldl (fun q pg => ?_) _ _)
    · exact ⟨_, _, _, _, _, _, _, rfl⟩
    · exact ⟨_, _, _, _, _, _, _, rfl⟩
  · exact .refl p

theorem onlyServes_slmWrite (p : Pkg) (sl pa : Nat) (stream : Bool) : OnlyServes p (slmWrite p sl pa stream) := by
  unfold slmWrite
  dsimp only
  split
  · exact (onlyReads_setTags _ _ _).serves
  split
  · exact (onlyReads_memSend _ _ _ _).serves
  · exact (onlyReads_slmFill _ _ _ _ _).serves

theorem onlyServes_withHome (p : Pkg) (h : HomeSt) : OnlyServes p { p with home := h } := ⟨_, _, _, _, _, _, _, rfl⟩

theorem onlyServes_homeStore (p : Pkg) (pa : Nat) (stream : Bool) (who : Nat) : OnlyServes p (homeStore p pa stream who) := by
  have hinv := (onlyServes_endRepair p (pa / 64)).trans (onlyServes_snoopInv _ (pa / 64) none)
  unfold homeStore
  extract_lets p1 p2
  have h2 : OnlyServes p1 p2 := by
    unfold p2
    split
    · exact onlyServes_slmWrite _ _ _ _
    · split
      · exact (onlyReads_memSend _ _ _ _).serves
      · exact .refl _
    · exact .refl _
  exact (hinv.trans h2).trans (onlyServes_withHome _ _)

theorem onlyServes_homeWrite (p : Pkg) (pa : Nat) (stream : Bool) (who : Nat) : OnlyServes p (homeWrite p pa stream who) :=
  (onlyReads_crossLine p who pa false).serves.trans (onlyServes_homeStore _ pa stream who)

theorem onlyServes_entryRead (p : Pkg) (m : Memory) (who a cls : Nat) : OnlyServes p (entryRead p m who a cls).2 := by
  have hread := (onlyReads_homeRead p a cls 0 none).serves
  unfold entryRead
  split
  · split
    next hr =>
      rw [hr] at hread
      exact hread
    next hr =>
      rw [hr] at hread
      exact hread.trans (onlyReads_crossLine _ _ _ _).serves
  · exact .refl p
  · exact .refl p

theorem onlyServes_entryMark (p : Pkg) (m : Memory) (who a : Nat) (old new : W64) : OnlyServes p (entryMark p m who a old new).2 := by
  unfold entryMark
  split
  · exact .refl p
  split
  · exact (onlyReads_biStart _ _ _ _).serves
  · exact onlyServes_homeWrite _ _ _ _

/-- A walk keeps what it keeps at the levels below, and what its reads and marks keep. -/
theorem onlyServes_level {m : Memory} {ctx kind cls : Nat} {write : Bool} {va level : Nat} (p : Pkg) (table : Nat)
    (hbelow : ∀ l, level = l + 1 → ∀ q t, OnlyServes q (walkFrom q m ctx kind cls write va l t).2.2) :
    OnlyServes p (walkFrom p m ctx kind cls write va level table).2.2 := by
  have hread := onlyServes_entryRead p m 0 (table + 8 * (va / 2 ^ (12 + 9 * level) % 512)) cls
  rw [walkFrom.eq_def]
  split
  · exact .refl p
  split
  · exact .refl p
  dsimp only
  split
  next hr => rwa [hr] at hread
  next hr => rwa [hr] at hread
  next e q hr =>
    rw [hr] at hread
    refine hread.trans ?_
    have hmark := onlyServes_entryMark q m 0 (table + 8 * (va / 2 ^ (12 + 9 * level) % 512)) e (markAd e write)
    split
    · exact .refl q
    split
    · exact .refl q
    split
    · split
      · split
        next hm => rwa [hm] at hmark
        next hm => rwa [hm] at hmark
      · exact .refl q
    split
    · exact .refl q
    · exact hbelow _ rfl q _

theorem onlyServes_walkFrom (p : Pkg) (m : Memory) (ctx kind cls : Nat) (write : Bool) (va level table : Nat) :
    OnlyServes p (walkFrom p m ctx kind cls write va level table).2.2 := by
  induction level generalizing p table with
  | zero => exact onlyServes_level p table fun l h => nomatch h
  | succ level ih => exact onlyServes_level p table fun l h => Nat.succ.inj h ▸ ih

theorem onlyServes_walkPage (p : Pkg) (m : Memory) (ctx kind cls : Nat) (write : Bool) (va : Nat) :
    OnlyServes p (walkPage p m ctx kind cls write va).2.2 := by
  unfold walkPage
  extract_lets root mode top canon
  split
  · exact .refl p
  split
  · exact .refl p
  · exact onlyServes_walkFrom _ _ _ _ _ _ _ _ _

end Sys2Proof.Machine
end

section
/-! Translations are filled, requested, invalidated and configured (R474 to R487): the proof of O38. -/

namespace Sys2Proof.Machine

/-! ## ATS completions (R478) -/

section
variable {p : Pkg} {ctx page c g hpa : Nat} {write writable : Bool}
  (hreq : p.xl.requests.find? (fun r => r.1 == ctx && r.2.1 == page) = some (c, g, write))
include hreq

theorem doAtsCompletion_grants (hw : write = true → writable = true) (hcross : p.xl.noCache.any (fun r => r == (ctx, page)) = false) :
    (doAtsCompletion ctx page true writable hpa p).xl.atc.head? = some ⟨pasidOf p ctx, page, hpa / 4096, writable⟩ ∧
      (doAtsCompletion ctx page true writable hpa p).xl.requests.any (fun r => r.1 == ctx && r.2.1 == page) = false := by
  have hgrant : (true && (!write || writable)) = true := by
    cases write with
    | false => rfl
    | true => simp [hw rfl]
  have hgone : (p.xl.requests.filter (fun r => !(r.1 == ctx && r.2.1 == page))).any (fun r => r.1 == ctx && r.2.1 == page) = false := by
    rw [List.any_eq_false]
    intro r hr
    have hkept := (List.mem_filter.mp hr).2
    intro hb
    rw [hb] at hkept
    cases hkept
  unfold doAtsCompletion
  simp only [hreq, hgrant, hcross, Bool.false_eq_true, if_true, if_false]
  exact ⟨rfl, hgone⟩

theorem doAtsCompletion_denies (hpri : priEn p ctx = false) :
    (doAtsCompletion ctx page false writable hpa p).xl.denied = p.xl.denied ++ [(ctx, page, 6)] ∧
      (doAtsCompletion ctx page false writable hpa p).xl.atc = p.xl.atc := by
  unfold doAtsCompletion
  simp only [hreq, hpri, Bool.false_and, Bool.false_eq_true, if_false]
  exact ⟨rfl, rfl⟩

theorem doAtsCompletion_asks (hpri : priEn p ctx = true) (hre : p.xl.retried.any (fun r => r == (ctx, page)) = false) :
    ∃ x : XlSt, x.pris = p.xl.pris ∧ doAtsCompletion ctx page false writable hpa p = askPri (setXl p x) ctx page := by
  unfold doAtsCompletion
  simp only [hreq, hpri, hre, Bool.false_and, Bool.not_false, Bool.and_true, Bool.false_eq_true, if_false, if_true]
  refine ⟨_, ?_, rfl⟩
  rfl

end

theorem askPri_sends {p : Pkg} {x : XlSt} (ctx page : Nat) (hx : x.pris = p.xl.pris) (hs : priStopped p = false)
    (hroom : (p.xl.pris.filter (fun x => x.2.2)).length < priLimit p) :
    (askPri (setXl p x) ctx page).out = .priRequest ctx page :: p.out ∧ (ctx, page, true) ∈ (askPri (setXl p x) ctx page).xl.pris := by
  have hcond : ¬ (priStopped (setXl p x) || decide (priLimit (setXl p x) ≤ ((setXl p x).xl.pris.filter (fun x => x.2.2)).length)) = true := by
    have hstop : priStopped (setXl p x) = false := hs
    have hpris : (setXl p x).xl.pris = p.xl.pris := hx
    have hlimit : priLimit (setXl p x) = priLimit p := rfl
    rw [hstop, hpris, hlimit]
    simp only [Bool.false_or, decide_eq_true_eq]
    omega
  unfold askPri
  dsimp only
  rw [if_neg hcond]
  exact ⟨rfl, List.mem_append_right _ (List.mem_singleton_self _)⟩

/-! ## Responses to page requests (R478, R479) -/

/-- A page request keeps everything of the translation unit but the page requests; messages only join. -/
theorem askPri_keeps (p : Pkg) (ctx page : Nat) : (∃ l, (askPri p ctx page).xl = { p.xl with pris := l }) ∧
    (askPri p ctx page).regs = p.regs ∧ (askPri p ctx page).standalone = p.standalone ∧ (askPri p ctx page).fuse = p.fuse ∧
      OutKept p (askPri p ctx page) := by
  unfold askPri
  dsimp only
  split
  · exact ⟨⟨_, rfl⟩, rfl, rfl, rfl, fun _ h => h⟩
  · exact ⟨⟨_, rfl⟩, rfl, rfl, rfl, fun _ h => List.mem_cons_of_mem _ h⟩

theorem nextPri_keeps (p : Pkg) : (∃ l, (nextPri p).xl = { p.xl with pris := l }) ∧ (∀ k, reg (nextPri p) k = reg p k) ∧ OutKept p (nextPri p) := by
  unfold nextPri
  split
  · obtain ⟨hxl, hregs, hstand, hfuse, hout⟩ := askPri_keeps p _ _
    exact ⟨hxl, reg_congr hregs hstand hfuse, hout⟩
  · exact ⟨⟨p.xl.pris, rfl⟩, fun _ => rfl, fun _ h => h⟩

/-- A Translation Request is sent once more, whatever page request then goes out. -/
theorem askedAgain {q : Pkg} {ctx page : Nat} (w : Bool) (hr : (ctx, page) ∈ q.xl.retried) :
    (ctx, page) ∈ (nextPri (askAts q ctx page w)).xl.retried ∧ ∃ w', (ctx, page, w') ∈ (nextPri (askAts q ctx page w)).xl.requests ∧
      .atsRequest ctx page w' (supervisor q ctx) ∈ (nextPri (askAts q ctx page w)).out := by
  obtain ⟨⟨l, hxl⟩, -, hout⟩ := nextPri_keeps (askAts q ctx page w)
  rw [hxl]
  exact ⟨hr, w, List.mem_append_right _ (List.mem_singleton_self _), hout _ List.mem_cons_self⟩

theorem doPriResponse_success {p : Pkg} {ctx page : Nat} (h : p.xl.pris.any (fun r => r == (ctx, page, true)) = true) :
    (ctx, page) ∈ (doPriResponse ctx page 0 p).xl.retried ∧ ∃ w, (ctx, page, w) ∈ (doPriResponse ctx page 0 p).xl.requests ∧
      .atsRequest ctx page w (supervisor p ctx) ∈ (doPriResponse ctx page 0 p).out := by
  unfold doPriResponse
  rw [if_pos h, if_pos rfl]
  dsimp only
  exact askedAgain _ (List.mem_append_right _ (List.mem_singleton_self _))

theorem raiseBlock_xl (p : Pkg) (pg n : Nat) : (raiseBlock p pg n).xl = p.xl := by
  obtain ⟨_, _, _, h⟩ := raiseBlock_only p pg n
  rw [h]

theorem priStopped_congr {p q : Pkg} (h : reg q (key pgXl 0x100) = reg p (key pgXl 0x100)) : priStopped q = priStopped p := bit_congr h 31

theorem doPriResponse_fails {p : Pkg} {ctx page code : Nat} (h : p.xl.pris.any (fun r => r == (ctx, page, true)) = true) (hc : code ≠ 0) :
    (ctx, page, 7) ∈ (doPriResponse ctx page code p).xl.denied ∧
      (priStopped (doPriResponse ctx page code p) = true ↔ priStopped p = true ∨ 1 < code) := by
  have hmem : (ctx, page, 7) ∈ p.xl.denied ++ [(ctx, page, 7)] := List.mem_append_right _ (List.mem_singleton_self _)
  have hset (x : XlSt) (k : Nat) : reg (setXl p x) k = reg p k := reg_congr rfl rfl rfl k
  unfold doPriResponse
  rw [if_pos h, if_neg hc]
  dsimp only
  split
  next h1 =>
    obtain ⟨⟨l, hxl⟩, hreg, -⟩ := nextPri_keeps (setXl p { p.xl with
      pris := p.xl.pris.filter (· != (ctx, page, true)), denied := p.xl.denied ++ [(ctx, page, 7)] })
    rw [hxl, priStopped_congr ((hreg _).trans (hset _ _))]
    exact ⟨hmem, ⟨.inl, fun h => h.elim id (by omega)⟩⟩
  next h1 =>
    obtain ⟨⟨l, hxl⟩, hreg, -⟩ := nextPri_keeps (raiseBlock (setBit (setXl p { p.xl with
      pris := p.xl.pris.filter (· != (ctx, page, true)), denied := p.xl.denied ++ [(ctx, page, 7)] }) (key pgXl 0x100) 31 true) pgXl 1)
    have hstop := priStopped_congr ((hreg (key pgXl 0x100)).trans (raiseBlock_reg_own _ _ _ _ (by decide) (by decide)))
    rw [hxl, raiseBlock_xl, hstop, priStopped, bit_setBit_self _ _ _ _ (by decide)]
    exact ⟨hmem, ⟨fun _ => .inr (by omega), fun _ => rfl⟩⟩

/-! ## Invalidations (R480, R484, R485) -/

/-- A map that keeps keys and changes values by them changes what a present key names. -/
theorem SMap.get_map_keyed {α : Type} (f : Nat → α → α) {m : SMap α} {k : Nat} (d : α) (h : m.any (fun x => x.1 == k) = true) :
    SMap.get (m.map (fun x => (x.1, f x.1 x.2)) : SMap α) k d = f k (SMap.get m k d) := by
  induction m with
  | nil => cases h
  | cons x t ih =>
    obtain ⟨k', v⟩ := x
    by_cases hk : k = k'
    · simp [SMap.get, hk]
    · have ht : List.any t (fun x => x.1 == k) = true := by simpa [Ne.symm hk] using h
      simpa [SMap.get, hk] using ih ht

/-- What an invalidation makes of a command that it reaches. -/
def marked (page pages : Nat) (c : Cmd) : Cmd :=
  { c with pages := c.pages.map (fun x => if inPages x.2 page pages then (x.1, { x.2 with stale := true }) else x) }

theorem marked_stale {page pages : Nat} {c : Cmd} {x : Nat × Xlate} (hx : x ∈ (marked page pages c).pages)
    (hin : inPages x.2 page pages = true) : x.2.stale = true := by
  obtain ⟨y, -, hy⟩ := List.mem_map.mp hx
  split at hy
  · rw [← hy]
  next hout =>
    rw [← hy] at hin
    exact absurd hin hout

theorem markStale_marks {p : Pkg} {hit : Cmd → Bool} (page pages : Nat) {id : Nat} (hhas : hasCmd p id = true)
    (hphase : (cmd p id).phase = .running) (hhit : hit (cmd p id) = true) (hhold : id ∉ p.qm.holds) :
    cmd (markStale p hit page pages) id = marked page pages (cmd p id) := by
  unfold markStale
  extract_lets mark m
  have hget : cmd { p with qm := { m with cmds := p.qm.cmds.map (fun x => (x.1, mark x.1 x.2)) } } id = mark id (cmd p id) :=
    SMap.get_map_keyed mark noCmd hhas
  rw [hget]
  have hpass : (cmd p id).phase ≠ .translating ∧ (cmd p id).phase ≠ .finished ∧ hit (cmd p id) = true ∧ id ∉ p.qm.holds := by
    rw [hphase]
    exact ⟨by decide, by decide, hhit, hhold⟩
  exact if_pos hpass

theorem markStale_setXl_marks {p : Pkg} (y : XlSt) {hit : Cmd → Bool} (page pages : Nat) {id : Nat} (hhas : hasCmd p id = true)
    (hphase : (cmd p id).phase = .running) (hhit : hit (cmd p id) = true) (hhold : id ∉ p.qm.holds) :
    cmd (markStale (setXl p y) hit page pages) id = marked page pages (cmd p id) :=
  markStale_marks (p := setXl p y) page pages hhas hphase hhit hhold

theorem doInvalidateCompletion_ends {p : Pkg} {tag : Nat} {w : InvWork} (h : p.xl.invs.find? (fun x => x.tag == some tag) = some w)
    (he : invEnded p w = true) :
    doInvalidateCompletion tag p = emitMsg (setXl p { p.xl with invs := p.xl.invs.erase w }) (.atsInvalidated tag) := by
  simp only [doInvalidateCompletion, h, he, if_true]

theorem doInvalidateCompletion_waits {p : Pkg} {tag : Nat} {w : InvWork} (h : p.xl.invs.find? (fun x => x.tag == some tag) = some w)
    (he : invEnded p w = false) : doInvalidateCompletion tag p = p := by
  simp only [doInvalidateCompletion, h, he, Bool.false_eq_true, if_false]

/-- The bits of XL_INV_CONTROL that a write sets. -/
theorem invControl_merged (old v : W64) : bitsOf (mergeWrite (rw4 0x118 (msk 29 29 + msk 19 0)) old v) 19 16 = bitsOf v 19 16 ∧
    bitsOf (mergeWrite (rw4 0x118 (msk 29 29 + msk 19 0)) old v) 15 0 = bitsOf v 15 0 ∧
      bitOf (mergeWrite (rw4 0x118 (msk 29 29 + msk 19 0)) old v) 29 = bitOf v 29 :=
  ⟨bitsOf_mergeWrite _ _ (by decide) rfl (by decide), bitsOf_mergeWrite _ _ (by decide) rfl (by decide),
    bitOf_mergeWrite _ _ (by decide) rfl (by decide)⟩

/-- A write of GO starts the invalidation that its fields, with the page register, name. -/
theorem putInvControl_goes {p : Pkg} {v : W64} (hb : bit p invControl 30 = false) (hv : bitOf v 31 = true) :
    bit (putInvControl v p) invControl 30 = true ∧ (putInvControl v p).xl.invs = p.xl.invs ++
      [⟨none, bitsOf v 19 16, if bitOf v 29 then 0 else fld p (key pgXl 0x110) 56 12, if bitOf v 29 then 2 ^ 45 else bitsOf v 15 0 + 1⟩] := by
  obtain ⟨hctx, hpages, hall⟩ := invControl_merged (reg p invControl) v
  have hmark (q : Pkg) (hit : Cmd → Bool) (page pages : Nat) :
      reg (markStale q hit page pages) invControl = reg q invControl ∧ (markStale q hit page pages).xl = q.xl :=
    ⟨reg_congr rfl rfl rfl _, rfl⟩
  unfold putInvControl
  dsimp only
  rw [if_neg (by simp [hb]), if_pos hv, hctx, hpages, hall, bit_congr (hmark _ _ _ _).1, (hmark _ _ _ _).2]
  exact ⟨bit_setBit_self _ _ _ _ (by decide), rfl⟩

theorem doXlInvDone_ends {p : Pkg} {w : InvWork} (h : p.xl.invs.find? (fun x => x.tag.isNone) = some w) (he : invEnded p w = true) :
    bit (doXlInvDone p) invControl 30 = false ∧ (doXlInvDone p).xl.invs = p.xl.invs.erase w := by
  have hraise (q : Pkg) : reg (raiseBlock q pgXl 2) invControl = reg q invControl := raiseBlock_reg_own _ _ _ pgXl (by decide) (by decide)
  simp only [doXlInvDone, h, he, if_true]
  rw [bit_congr (hraise _), raiseBlock_xl]
  exact ⟨bit_setBit_self _ _ _ _ (by decide), rfl⟩

theorem doXlInvDone_waits {p : Pkg} {w : InvWork} (h : p.xl.invs.find? (fun x => x.tag.isNone) = some w) (he : invEnded p w = false) :
    doXlInvDone p = p := by
  simp only [doXlInvDone, h, he, Bool.false_eq_true, if_false]

/-! ## Resumes and control writes (R474, R481, R487) -/

theorem finishCmd_xl (p : Pkg) (id status detail : Nat) : (finishCmd p id status detail).xl = p.xl := by
  have hsettle (q : Pkg) (ctx ring k : Nat) : (settlePending q ctx ring k).xl = q.xl := by
    obtain ⟨x, y, h⟩ := (settlePending_onlyHeads q ctx ring k).pkg
    rw [h]
  unfold finishCmd
  extract_lets c st dt q
  split
  · rfl
  split
  · rfl
  · rw [hsettle]
    rfl

theorem execXlFaultResume_accepted {s : State} {rq : Requester} (v : W32) (h : writeFate s.pkg rq pgXl 0x130 = .accepted) :
    exec (.xlFaultResume rq v) s = .next (faultResume v s) := by
  have hexec : exec (.xlFaultResume rq v) s = execXlFaultResume rq v s := rfl
  simp only [hexec, execXlFaultResume, h]

theorem faultResume_none {s : State} {v : W32} (h : s.pkg.xl.waits.find? (fun x => x.seq == bitsOf v 15 0) = none) :
    faultResume v s = s := by
  simp only [faultResume, h]

section
variable {s : State} {v : W32} {w : FaultWait} (hw : s.pkg.xl.waits.find? (fun x => x.seq == bitsOf v 15 0) = some w)
include hw

/-- A resume without RETRY ends the command XLATE_FAULT. -/
theorem faultResume_ends (hv : bitOf v 31 = false) (hp : (cmd s.pkg w.id).phase = .translating) :
    (faultResume v s).mem = s.mem ∧ (faultResume v s).pkg.xl.waits = s.pkg.xl.waits.erase w ∧
      (cmd (faultResume v s).pkg w.id).phase = .finished ∧ (cmd (faultResume v s).pkg w.id).status = 0x20 := by
  have hkept : cmd (setXl s.pkg { s.pkg.xl with waits := s.pkg.xl.waits.erase w }) w.id = cmd s.pkg w.id := rfl
  have hresume : faultResume v s = { s with
      pkg := finishCmd (setXl s.pkg { s.pkg.xl with waits := s.pkg.xl.waits.erase w }) w.id 0x20 (w.operand + w.recSeq * 65536) } := by
    simp only [faultResume, hw, hv, Bool.false_eq_true, if_false]
  obtain ⟨x, y, hcmd⟩ := (finishCmd_gives (p := setXl s.pkg { s.pkg.xl with waits := s.pkg.xl.waits.erase w }) (id := w.id) 0x20
    (w.operand + w.recSeq * 65536) (by rw [hkept, hp]; decide) (by rw [hkept, hp]; decide)).cmd
  rw [hresume]
  refine ⟨rfl, congrArg XlSt.waits (finishCmd_xl _ _ _ _), finishCmd_phase _ _ _ _, ?_⟩
  simpa using congrArg Cmd.status hcmd

/-- A resume with RETRY walks the page again; its fault no longer waits where the walk succeeds. -/
theorem faultResume_retries {x : Xlate} {m : Memory} {q : Pkg} (hv : bitOf v 31 = true)
    (hwalk : walkPage (setXl s.pkg { s.pkg.xl with waits := s.pkg.xl.waits.erase w }) s.mem (cmd s.pkg w.id).ctx
      (accessKind (cmd s.pkg w.id) w.operand) (dPrio (cmd s.pkg w.id).desc) (dOperand (cmd s.pkg w.id).desc w.operand).write
      (w.page * 4096) = (.ok x, m, q)) :
    faultResume v s = { s with mem := m, pkg := q } ∧ q.xl.waits = s.pkg.xl.waits.erase w ∧ cmd q w.id = cmd s.pkg w.id := by
  have hserves := onlyServes_walkPage (setXl s.pkg { s.pkg.xl with waits := s.pkg.xl.waits.erase w }) s.mem (cmd s.pkg w.id).ctx
    (accessKind (cmd s.pkg w.id) w.operand) (dPrio (cmd s.pkg w.id).desc) (dOperand (cmd s.pkg w.id).desc w.operand).write (w.page * 4096)
  rw [hwalk] at hserves
  refine ⟨?_, congrArg XlSt.waits hserves.xl_eq, cmd_congr (congrArg QmSt.cmds hserves.qm_eq) w.id⟩
  simp only [faultResume, hw, hv, if_true, hwalk]

end

theorem putCtxConfig_takes {ctx : Nat} {v : W64} {p : Pkg} (h3 : bitsOf v 1 0 ≠ 3) (hs : p.standalone = true → bitsOf v 1 0 = 0)
    (hoff : bit p (key (pgQm + 1 + ctx) 0x100) 31 = false) : fld (putCtxConfig ctx v p) (xlCtx ctx 0x100) 4 0 = bitsOf v 4 0 := by
  have hsrc : bitsOf (mergeWrite (rw4 0x100 (msk 4 0)) (reg p (xlCtx ctx 0x100)) v) 1 0 = bitsOf v 1 0 :=
    bitsOf_mergeWrite _ _ (by decide) rfl (by decide)
  have hall : bitsOf (mergeWrite (rw4 0x100 (msk 4 0)) (reg p (xlCtx ctx 0x100)) v) 4 0 = bitsOf v 4 0 :=
    bitsOf_mergeWrite _ _ (by decide) rfl (by decide)
  unfold putCtxConfig
  dsimp only
  rw [hsrc, if_neg, if_neg (fun h => by rw [hoff] at h; exact absurd h.1 (by decide)), fld, reg_setReg_self, hall]
  rintro (h | ⟨hst, hne⟩)
  · exact h3 h
  · exact hne (hs hst)

theorem putCtxConfig_reserved {ctx : Nat} {v : W64} (p : Pkg) (h3 : bitsOf v 1 0 = 3) : putCtxConfig ctx v p = p := by
  have hsrc : bitsOf (mergeWrite (rw4 0x100 (msk 4 0)) (reg p (xlCtx ctx 0x100)) v) 1 0 = bitsOf v 1 0 :=
    bitsOf_mergeWrite _ _ (by decide) rfl (by decide)
  unfold putCtxConfig
  dsimp only
  rw [hsrc, if_pos (.inl h3)]

/-- The fields of XL_CTS_CONTROL that a write sets. -/
theorem ctsControl_merged (old v : W64) : bitsOf (mergeWrite (rw8 0x108 (msk 51 21 + msk 5 0)) old v) 51 21 = bitsOf v 51 21 ∧
    bitsOf (mergeWrite (rw8 0x108 (msk 51 21 + msk 5 0)) old v) 5 0 = bitsOf v 5 0 ∧
      bitsOf (mergeWrite (rw8 0x108 (msk 51 21 + msk 5 0)) old v) 5 1 = bitsOf v 5 1 :=
  ⟨bitsOf_mergeWrite _ _ (by decide) rfl (by decide), bitsOf_mergeWrite _ _ (by decide) rfl (by decide),
    bitsOf_mergeWrite _ _ (by decide) rfl (by decide)⟩

theorem putCtsControl_takes {v : W64} {p : Pkg} {a b : Nat} (he : (ctsUsed p).isEmpty = true) (h16 : 16 ≤ bitsOf v 5 1)
    (h22 : bitsOf v 5 1 ≤ 22) (hr : region (bitsOf v 51 21 * 0x200000) = .hbm a b)
    (hp : hbmOrScratch p (bitsOf v 51 21 * 0x200000) (16 * 2 ^ bitsOf v 5 1) = true) :
    fld (putCtsControl v p) ctsControl 51 21 = bitsOf v 51 21 ∧ fld (putCtsControl v p) ctsControl 5 0 = bitsOf v 5 0 := by
  obtain ⟨hbase, hlow, hsize⟩ := ctsControl_merged (reg p ctsControl) v
  unfold putCtsControl
  simp only [hbase, hsize, hr, hp, he, h16, h22, decide_true, Bool.and_true, if_true, fld, reg_setReg_self, hlow, and_self]

theorem putCtsControl_refuses {v : W64} {p : Pkg} (h : (ctsUsed p).isEmpty = false ∨ bitsOf v 5 1 < 16 ∨ 22 < bitsOf v 5 1) :
    putCtsControl v p = p := by
  obtain ⟨-, -, hsize⟩ := ctsControl_merged (reg p ctsControl) v
  unfold putCtsControl
  extract_lets w n base inHbm
  have hn : n = bitsOf v 5 1 := hsize
  refine if_neg fun hall => ?_
  simp only [Bool.and_eq_true, decide_eq_true_eq] at hall
  obtain ⟨⟨⟨hempty, hlow⟩, hhigh⟩, -⟩ := hall
  rcases h with h | h | h
  · rw [h] at hempty
    cases hempty
  · omega
  · omega

/-- Settles O38. -/
theorem translationsAreFilledInvalidatedAndConfigured : Obligations.TranslationsAreFilledInvalidatedAndConfigured := by
  unfold Obligations.TranslationsAreFilledInvalidatedAndConfigured
  refine ⟨⟨fun s ctx page c g hpa write writable hreq => ⟨fun hw hcross => ⟨_, rfl, rfl, doAtsCompletion_grants hreq hw hcross⟩,
        fun hpri => ⟨_, rfl, rfl, doAtsCompletion_denies hreq hpri⟩, fun hpri hre hstop hroom => ?_⟩,
      fun s ctx page code h => ⟨fun h0 => ?_, fun hc => ⟨_, rfl, rfl, doPriResponse_fails h hc⟩⟩,
      fun s pasid page pages tag => ⟨_, rfl, rfl, rfl, rfl, rfl, fun id hhas hphase hhold hreach hats x hx hin => ?_⟩,
      fun s tag w h => ⟨fun he => ⟨_, next_onPkg (doInvalidateCompletion_ends h he), rfl, rfl, rfl⟩,
        fun he => next_onPkg (doInvalidateCompletion_waits h he)⟩⟩,
    fun s rq v hf hb hv => ?_, fun s w h => ⟨fun he => ⟨_, rfl, rfl, doXlInvDone_ends h he⟩,
      fun he => next_onPkg (doXlInvDone_waits h he)⟩,
    fun s rq v w hf hw => ⟨fun hv hp => ⟨_, execXlFaultResume_accepted v hf, faultResume_ends hw hv hp⟩, fun x m q hv hwalk => ?_⟩,
    fun s rq v hf hw => (execXlFaultResume_accepted v hf).trans (next_eq (faultResume_none hw)),
    fun s rq ctx v hc hf => ⟨fun h3 hs hoff => ?_, fun h3 => ?_⟩, fun s rq v a b hf => ⟨fun he h16 h22 hr hp => ?_, fun h => ?_⟩⟩
  · obtain ⟨y, hy, hask⟩ := doAtsCompletion_asks (hpa := hpa) (writable := writable) hreq hpri hre
    refine ⟨_, next_onPkg hask, rfl, ?_⟩
    exact askPri_sends ctx page hy hstop hroom
  · subst h0
    exact ⟨_, rfl, rfl, doPriResponse_success h⟩
  · rw [State.onPkg_pkg] at hx
    dsimp only at hx
    rw [markStale_setXl_marks _ page pages hhas hphase (by rw [Bool.and_eq_true]; exact ⟨hreach, hats⟩) hhold] at hx
    exact marked_stale hx hin
  · obtain ⟨hbusy, hinvs⟩ := putInvControl_goes (v := v.setWidth 64) hb hv
    refine ⟨_, _, next_onPkg (ifWrites_accepted _ hf), rfl, hbusy, hinvs, rfl, rfl, fun h => ?_, fun h => ?_⟩
    · exact ⟨if_pos h, if_pos h⟩
    · exact ⟨if_neg (by simp [h]), if_neg (by simp [h])⟩
  · obtain ⟨hresume, hwaits, hcmd⟩ := faultResume_retries hw hv hwalk
    exact ⟨_, (execXlFaultResume_accepted v hf).trans (next_eq hresume), rfl, rfl, hwaits, hcmd⟩
  · exact ⟨_, next_onPkg ((if_pos hc).trans (ifWrites_accepted _ hf)), rfl, putCtxConfig_takes h3 hs hoff⟩
  · exact next_onPkg ((if_pos hc).trans ((ifWrites_accepted _ hf).trans (putCtxConfig_reserved s.pkg h3)))
  · exact ⟨_, next_onPkg (ifWrites_accepted _ hf), rfl, putCtsControl_takes he h16 h22 hr hp⟩
  · exact next_onPkg ((ifWrites_accepted _ hf).trans (putCtsControl_refuses h))

end Sys2Proof.Machine
end

section
/-! Windows send, land, refuse and report accesses (R490 to R495, R498): the proof of O39. -/

namespace Sys2Proof.Machine

/-! ## Descriptors and landing entries (R490, R493, R498) -/

theorem doWindowEntryWrite_descriptor {p : Pkg} {rq : Requester} {i word : Nat} (v : W64) (hi : i < 1024) (hw : word < 2)
    (hf : writeFate p rq (windowKey i / 0x1000) (windowKey i % 0x1000) = .accepted) :
    doWindowEntryWrite rq false i word v p = putDescriptor i v p := by
  rw [doWindowEntryWrite, if_neg (by omega), if_neg Bool.false_ne_true, ifWrites_accepted _ hf]

theorem doWindowEntryWrite_landing {p : Pkg} {rq : Requester} {r word : Nat} (v : W64) (hr : r < 1024) (hw : word < 2)
    (hf : writeFate p rq (landingKey r word / 0x1000) (landingKey r word % 0x1000) = .accepted) :
    doWindowEntryWrite rq true r word v p = putLanding r word v p := by
  rw [doWindowEntryWrite, if_neg (by omega), if_pos rfl]
  exact ifWrites_accepted _ hf

theorem putDescriptor_takes {i : Nat} {v : W64} {p : Pkg} (hi : 0 < i) (h : (bitOf v 63 && bit p (windowKey i) 63) = false) :
    fld (putDescriptor i v p) (windowKey i) 63 59 = bitsOf v 63 59 ∧ fld (putDescriptor i v p) (windowKey i) 47 32 = bitsOf v 47 32 ∧
      fld (putDescriptor i v p) (windowKey i) 25 16 = bitsOf v 25 16 ∧ fld (putDescriptor i v p) (windowKey i) 13 0 = bitsOf v 13 0 := by
  have hcond : ¬ (i = 0 ∨ (bitOf v 63 = true ∧ bit p (windowKey i) 63 = true)) := by
    rintro (h0 | ⟨h1, h2⟩)
    · omega
    · rw [h1, h2] at h
      cases h
  unfold putDescriptor
  dsimp only
  rw [if_neg hcond, fld, fld, fld, fld, reg_setReg_self]
  exact ⟨bitsOf_mergeWrite _ _ (by decide) rfl (by decide), bitsOf_mergeWrite _ _ (by decide) rfl (by decide),
    bitsOf_mergeWrite _ _ (by decide) rfl (by decide), bitsOf_mergeWrite _ _ (by decide) rfl (by decide)⟩

theorem putDescriptor_discards {i : Nat} {v : W64} {p : Pkg} (h : i = 0 ∨ (bitOf v 63 = true ∧ bit p (windowKey i) 63 = true)) :
    putDescriptor i v p = p := if_pos h

/-- The fields of a landing entry's word 0 that a write sets. -/
theorem landing_merged (old v : W64) : bitsOf (mergeWrite (rw8 0x100 (msk 63 60 + msk 51 21 + msk 14 0)) old v) 63 60 = bitsOf v 63 60 ∧
    bitsOf (mergeWrite (rw8 0x100 (msk 63 60 + msk 51 21 + msk 14 0)) old v) 51 21 = bitsOf v 51 21 ∧
    bitsOf (mergeWrite (rw8 0x100 (msk 63 60 + msk 51 21 + msk 14 0)) old v) 14 0 = bitsOf v 14 0 ∧
      bitOf (mergeWrite (rw8 0x100 (msk 63 60 + msk 51 21 + msk 14 0)) old v) 63 = bitOf v 63 :=
  ⟨bitsOf_mergeWrite _ _ (by decide) rfl (by decide), bitsOf_mergeWrite _ _ (by decide) rfl (by decide),
    bitsOf_mergeWrite _ _ (by decide) rfl (by decide), bitOf_mergeWrite _ _ (by decide) rfl (by decide)⟩

/-- Whether a range may land goes by its base and its size. (The definition is unfolded before it is applied: applied to a word,
it would have the kernel compare a symbolic address with the borders of the regions.) -/
theorem landRangeOk_congr {v w : W64} (p : Pkg) (hb : bitsOf w 51 21 = bitsOf v 51 21) (hs : bitsOf w 14 0 = bitsOf v 14 0) :
    landRangeOk p w = landRangeOk p v := by
  have hbase : landBase w = landBase v := by rw [landBase, landBase, hb]
  have hsize : landSize w = landSize v := by rw [landSize, landSize, hs]
  have key : ∀ f, f = landRangeOk → f p w = f p v := by
    delta landRangeOk
    rintro f rfl
    beta_reduce
    rw [hbase, hsize]
  exact key _ rfl

theorem putLanding_takes {r : Nat} {v : W64} {p : Pkg} (hr : 0 < r)
    (h : bitOf v 63 = true → bit p (landingKey r 0) 63 = false ∧ landRangeOk p v = true) :
    fld (putLanding r 0 v p) (landingKey r 0) 63 60 = bitsOf v 63 60 ∧ fld (putLanding r 0 v p) (landingKey r 0) 51 21 = bitsOf v 51 21 ∧
      fld (putLanding r 0 v p) (landingKey r 0) 14 0 = bitsOf v 14 0 := by
  obtain ⟨hperm, hbase, hsize, hvalid⟩ := landing_merged 0 v
  have hcond : ¬ (bitOf v 63 && (bit p (landingKey r 0) 63 || !landRangeOk p v)) = true := by
    cases hv : bitOf v 63 with
    | false => simp
    | true =>
      obtain ⟨hfree, hok⟩ := h hv
      simp [hfree, hok]
  unfold putLanding
  dsimp only
  rw [if_neg (by omega), if_pos rfl, hvalid, landRangeOk_congr p hbase hsize, if_neg hcond, fld, fld, fld, reg_setReg_self]
  exact ⟨hperm, hbase, hsize⟩

theorem putLanding_valid {r : Nat} {v : W64} {p : Pkg} (hv : bitOf v 63 = true) (h : bit p (landingKey r 0) 63 = true) :
    putLanding r 0 v p = p := by
  obtain ⟨-, -, -, hvalid⟩ := landing_merged 0 v
  unfold putLanding
  dsimp only
  split
  · rfl
  · rw [if_pos rfl, hvalid, if_pos (by simp [hv, h])]

theorem putLanding_zero (word : Nat) (v : W64) (p : Pkg) : putLanding 0 word v p = p := by
  unfold putLanding
  exact if_pos rfl

theorem putLanding_source {r : Nat} {v : W64} (p : Pkg) (hr : 0 < r) :
    fld (putLanding r 1 v p) (landingKey r 1) 45 32 = bitsOf v 45 32 ∧ fld (putLanding r 1 v p) (landingKey r 1) 13 0 = bitsOf v 13 0 := by
  unfold putLanding
  dsimp only
  rw [if_neg (by omega), if_neg (by decide), fld, fld, reg_setReg_self]
  exact ⟨bitsOf_mergeWrite _ _ (by decide) rfl (by decide), bitsOf_mergeWrite _ _ (by decide) rfl (by decide)⟩

/-! ## Requests that arrive (R491, R495) -/

/-- The fields of a report of a refusal at this node. -/
theorem reportItem_names (p : Pkg) {cause : Nat} (window offset tag : Nat) (hc : cause < 256) :
    bitsOf (reportItem p cause window offset tag) 7 0 = 1 ∧ bitsOf (reportItem p cause window offset tag) 15 8 = cause := by
  unfold reportItem bitsOf
  rw [BitVec.toNat_ofNat]
  constructor <;> omega

theorem landingRefusal_lt {p : Pkg} {m : Msg} {cause : Nat} (h : landingRefusal p m = some cause) : cause < 256 := by
  unfold landingRefusal at h
  dsimp only at h
  split at h
  · cases h; decide
  split at h
  · cases h; decide
  split at h
  · cases h; decide
  split at h
  · cases h; decide
  split at h
  · cases h; decide
  · cases h

section
variable {p : Pkg} {m : Msg} (hreq : isRequest m = true) (harr : p.rt.arrived.contains m = true) (hrep : m.replayed = false)
include hreq harr hrep

theorem doLandingCheck_lands (h : landingRefusal p m = none) : (doLandingCheck m p).rt = { p.rt with
    arrived := p.rt.arrived.erase m, landed := p.rt.landed ++ [(m, landBase (reg p (landingKey m.window 0)) + m.offset)] } := by
  unfold doLandingCheck
  simp only [hreq, harr, hrep, Bool.true_and, if_true, Bool.false_and, Bool.false_eq_true, if_false, h]
  rfl

theorem doLandingCheck_refuses {cause : Nat} (h : landingRefusal p m = some cause) :
    doLandingCheck m p = sendReport (dropArrived p m) m.src cause m.window m.offset m.tag := by
  unfold doLandingCheck
  simp only [hreq, harr, hrep, Bool.true_and, if_true, Bool.false_and, Bool.false_eq_true, if_false, h]

end

/-! ## Reports that land (R494, R495) -/

theorem mailboxPut_last (p : Pkg) (i : Item) : (mailboxPut p i).rt.mailbox.getLast? = some i := by
  have hdrop : (p.rt.mailbox ++ [i]).drop ((p.rt.mailbox ++ [i]).length - 64) =
      p.rt.mailbox.drop ((p.rt.mailbox ++ [i]).length - 64) ++ [i] :=
    List.drop_append_of_le_length (by simp only [List.length_append, List.length_singleton]; omega)
  have hput : (mailboxPut p i).rt.mailbox = (p.rt.mailbox ++ [i]).drop ((p.rt.mailbox ++ [i]).length - 64) := rfl
  rw [hput, hdrop, List.getLast?_append]
  rfl

theorem keepsLink_logWindow (p : Pkg) (ctx operand cause window va : Nat) : KeepsLink p (logWindow p ctx operand cause window va) := by
  have hlog := (logErr_only p pgXl ⟨0x91, 0, 2, va, ctx % 16 + operand % 8 * 16 + cause % 16 * 256 + window % 1024 * 4096⟩).keepsLink
  exact ⟨hlog.hl, hlog.rt, hlog.standalone⟩

theorem keepsLink_windowFault (p : Pkg) (id operand cause w va : Nat) : KeepsLink p (windowFault p id operand cause w va) := by
  have hlog := keepsLink_logWindow p (cmd p id).ctx operand cause w va
  unfold windowFault
  dsimp only
  split
  · exact hlog.trans (keepsLink_stopWith _ _ _ _)
  · exact hlog.trans (keepsLink_finishCmd _ _ _ _)

/-- A replica's copy leaves the mailbox. -/
theorem replicaCopy_mailbox (pa : Nat) (data : Item) (cause : Nat) (s : State) :
    (replicaCopy pa data cause s).pkg.rt.mailbox = s.pkg.rt.mailbox := by
  have hfails (u : State) (j c : Nat) : (repairFails pa j c u).pkg.rt.mailbox = u.pkg.rt.mailbox :=
    congrArg RouterSt.mailbox (((logErr_only _ _ _).rt_eq).trans (onlyServes_endRepair _ _).rt_eq)
  have hends (u : State) (x : Item) (c : Nat) : (repairEnds pa x c u).pkg.rt.mailbox = u.pkg.rt.mailbox := by
    unfold repairEnds
    split
    · split
      · exact congrArg RouterSt.mailbox ((logErr_only _ _ _).rt_eq.trans (((onlyReads_memSend _ _ _ _).serves.rt_eq).trans
          (onlyServes_endRepair _ _).rt_eq))
      · exact hfails _ _ _
    · rfl
  unfold replicaCopy
  split
  · split
    · exact hends _ _ _
    dsimp only
    split
    · rfl
    split
    · exact hends _ _ _
    · exact hends _ _ _
  · rfl

/-- Whatever a refusal does at its requester, it leaves the mailbox. -/
theorem refusedAt_mailbox (k : Nat) (r : Remote) (cause : Nat) (s : State) :
    (refusedAt k r cause s).pkg.rt.mailbox = s.pkg.rt.mailbox := by
  have hnote (p : Pkg) : (noteFail p r cause).rt = p.rt := by
    unfold noteFail
    split <;> rfl
  have hstart : (noteFail (dropRemote s.pkg k) r cause).rt.mailbox = s.pkg.rt.mailbox :=
    (congrArg RouterSt.mailbox (hnote (dropRemote s.pkg k))).trans rfl
  have hlink {p q : Pkg} (h : KeepsLink p q) : q.rt.mailbox = p.rt.mailbox := congrArg RouterSt.mailbox h.rt
  have hmover (p : Pkg) (n : Nat) : (moverRefused p n r cause).rt.mailbox = p.rt.mailbox := by
    unfold moverRefused
    split
    · exact hlink (keepsLink_windowFault _ _ _ _ _ _)
    · rfl
  unfold refusedAt
  dsimp only
  split
  · exact (hmover _ _).trans hstart
  · exact (hmover _ _).trans hstart
  · exact hstart
  · exact hstart
  · exact (hlink (keepsLink_logWindow _ _ _ _ _ _)).trans hstart
  · exact (hlink (keepsLink_windowFault _ _ _ _ _ _)).trans hstart
  · exact (replicaCopy_mailbox _ _ _ _).trans hstart
  · exact (hlink (keepsLink_windowFault _ _ _ _ _ _)).trans hstart

theorem reportLands_mailbox (i : Item) (s : State) : (reportLands i s).pkg.rt.mailbox = s.pkg.rt.mailbox := by
  unfold reportLands
  dsimp only
  split
  · exact refusedAt_mailbox _ _ _ _
  · rfl

theorem recordLands_mailbox (i : Item) (s : State) : (recordLands i s).pkg.rt.mailbox.getLast? = some i := by
  unfold recordLands
  dsimp only
  split
  · rw [reportLands_mailbox]
    exact mailboxPut_last _ _
  · exact mailboxPut_last _ _

/-- The record of a landing refusal at another node (R494). -/
def reportRecord (cause window tag source offset datum : Nat) : Item :=
  BitVec.ofNat 512 (1 + 2 ^ 8 * (cause % 256) + 2 ^ 16 * (source % 65536) + 2 ^ 32 * (window % 65536) +
    2 ^ 64 * (offset % 2 ^ 64) + 2 ^ 128 * (tag % 2 ^ 64) + 2 ^ 192 * (datum % 2 ^ 64))

theorem reportRecord_names (cause window tag source offset datum : Nat) :
    bitsOf (reportRecord cause window tag source offset datum) 7 0 = 1 ∧
    bitsOf (reportRecord cause window tag source offset datum) 15 8 = cause % 256 ∧
    bitsOf (reportRecord cause window tag source offset datum) 31 16 = source % 65536 ∧
    bitsOf (reportRecord cause window tag source offset datum) 47 32 = window % 65536 ∧
    bitsOf (reportRecord cause window tag source offset datum) 127 64 = offset % 2 ^ 64 ∧
      bitsOf (reportRecord cause window tag source offset datum) 191 128 = tag % 2 ^ 64 := by
  unfold reportRecord bitsOf
  rw [BitVec.toNat_ofNat]
  have hc := Nat.mod_lt cause (show 0 < 256 by decide)
  have hs := Nat.mod_lt source (show 0 < 65536 by decide)
  have hw := Nat.mod_lt window (show 0 < 65536 by decide)
  have ho := Nat.mod_lt offset (show 0 < 2 ^ 64 by decide)
  have ht := Nat.mod_lt tag (show 0 < 2 ^ 64 by decide)
  have hd := Nat.mod_lt datum (show 0 < 2 ^ 64 by decide)
  generalize cause % 256 = c at *
  generalize source % 65536 = a at *
  generalize window % 65536 = w at *
  generalize offset % 2 ^ 64 = o at *
  generalize tag % 2 ^ 64 = g at *
  generalize datum % 2 ^ 64 = d at *
  simp only [Nat.shiftRight_eq_div_pow]
  refine ⟨?_, ?_, ?_, ?_, ?_, ?_⟩ <;> omega

theorem exec_reportRecord (cause window tag source offset : Nat) (s : State) : exec (.reportRecord cause window tag source offset) s =
    .next (recordLands (reportRecord cause window tag source offset s.pkg.pace.datum) s) := rfl

theorem remoteAt_dropRemote (p : Pkg) (k : Nat) : remoteAt (dropRemote p k) k = none := by
  have hfind : (SMap.drop p.rt.acc (fun x => x == k)).find? (fun x => x.1 == k) = none := by
    rw [List.find?_eq_none]
    intro x hx
    have hkept := (List.mem_filter.mp hx).2
    intro hb
    have hdrop : (!(x.1 == k)) = true := hkept
    rw [hb] at hdrop
    cases hdrop
  have hat : remoteAt (dropRemote p k) k = ((SMap.drop p.rt.acc (fun x => x == k)).find? (fun x => x.1 == k)).map (·.2) := rfl
  rw [hat, hfind]
  rfl

theorem remoteAt_congr {p q : Pkg} (h : q.rt = p.rt) (k : Nat) : remoteAt q k = remoteAt p k := by rw [remoteAt, remoteAt, h]

theorem noteFail_keeps (p : Pkg) (r : Remote) (cause : Nat) : (noteFail p r cause).rt = p.rt ∧ (noteFail p r cause).qm.cmds = p.qm.cmds ∧
    (noteFail p r cause).ces = p.ces := by
  unfold noteFail
  split <;> exact ⟨rfl, rfl, rfl⟩

/-- A hart's load that is refused ends in a precise load access fault. -/
theorem refusedAt_coreLoad {r : Remote} {h rd size : Nat} {signed : Bool} {va : W64} (k cause : Nat) (s : State)
    (hr : r.who = .coreLoad h rd size signed va) : (refusedAt k r cause s).mem = s.mem ∧ remoteAt (refusedAt k r cause s).pkg k = none ∧
      (hart (refusedAt k r cause s).pkg h).xcause = some 5 ∧ (hart (refusedAt k r cause s).pkg h).xtval = va := by
  unfold refusedAt
  simp only [hr]
  refine ⟨rfl, ?_, ?_, ?_⟩
  · exact (remoteAt_congr (noteFail_keeps _ _ _).1 k).trans (remoteAt_dropRemote _ _)
  · rw [State.onPkg_pkg, hartFault, hart_setHart_self]
  · rw [State.onPkg_pkg, hartFault, hart_setHart_self]

/-- A report ends the hart's load that it names. -/
theorem report_ends {s : State} {cause window tag source offset k : Nat} {r : Remote}
    (hc : cause < 256) (hw : window < 65536) (hs : source < 65536) (ht : tag < 2 ^ 21) (ho : offset < 2 ^ 64)
    (hfind : s.pkg.rt.acc.find? (fun x => x.1 % 2 ^ 21 == tag && x.2.msg.window == window && x.2.msg.offset == offset &&
      (cause == 9 || x.1 / 2 ^ 21 == source)) = some (k, r)) :
    recordLands (reportRecord cause window tag source offset s.pkg.pace.datum) s =
      refusedAt k r cause (s.onPkg fun p => mailboxPut p (reportRecord cause window tag source offset s.pkg.pace.datum)) := by
  obtain ⟨h1, hcause, hsource, hwindow, hoffset, htag⟩ := reportRecord_names cause window tag source offset s.pkg.pace.datum
  rw [Nat.mod_eq_of_lt hc] at hcause
  rw [Nat.mod_eq_of_lt hs] at hsource
  rw [Nat.mod_eq_of_lt hw] at hwindow
  rw [Nat.mod_eq_of_lt ho] at hoffset
  rw [Nat.mod_eq_of_lt (by omega)] at htag
  have htag' : tag % 2 ^ 21 = tag := Nat.mod_eq_of_lt ht
  generalize reportRecord cause window tag source offset s.pkg.pace.datum = i at *
  have hacc : (s.onPkg fun p => mailboxPut p i).pkg.rt.acc = s.pkg.rt.acc := rfl
  unfold recordLands
  dsimp only
  rw [if_pos h1]
  unfold reportLands
  simp only [hcause, hsource, hwindow, hoffset, htag, htag', hacc, hfind]

/-! ## No answer (R492) -/

theorem execWindowNoAnswer_late {s : State} {tag : Nat} {r : Remote} (h : remoteAt s.pkg tag = some r)
    (hd : r.since + 100000000 ≤ timerNow s.pkg) : exec (.windowNoAnswer tag) s = .next (refusedAt tag r 8 s) := by
  have hexec : exec (.windowNoAnswer tag) s = execWindowNoAnswer tag s := rfl
  simp only [hexec, execWindowNoAnswer, h, hd, if_true]

theorem execWindowNoAnswer_early {s : State} {tag : Nat} {r : Remote} (h : remoteAt s.pkg tag = some r)
    (hd : timerNow s.pkg < r.since + 100000000) : exec (.windowNoAnswer tag) s = .next s := by
  have hexec : exec (.windowNoAnswer tag) s = execWindowNoAnswer tag s := rfl
  simp only [hexec, execWindowNoAnswer, h, Nat.not_le.mpr hd, if_false]

/-- A SEM_SIGNAL that is refused completes WINDOW_FAULT. -/
theorem refusedAt_semSignal {r : Remote} {id : Nat} (k cause : Nat) {s : State} (hr : r.who = .semSignal id)
    (hp : (cmd s.pkg id).phase = .running) (hce : s.pkg.ces.find? (fun x => x.2.cmd == some id) = none) :
    (refusedAt k r cause s).mem = s.mem ∧ remoteAt (refusedAt k r cause s).pkg k = none ∧
      (cmd (refusedAt k r cause s).pkg id).phase = .finished ∧ (cmd (refusedAt k r cause s).pkg id).status = 0x21 := by
  obtain ⟨hrt, hcmds, hces⟩ := noteFail_keeps (dropRemote s.pkg k) r cause
  unfold refusedAt
  simp only [hr, State.onPkg_pkg, State.onPkg_mem, true_and]
  generalize noteFail (dropRemote s.pkg k) r cause = q at *
  have hlog (operand w va : Nat) : OnlyLog q (logWindow q (cmd q id).ctx operand cause w va) := by
    unfold logWindow
    exact (logErr_only _ _ _).trans (setReg_only _ _ _).log
  have hphase (operand w va : Nat) : (cmd (logWindow q (cmd q id).ctx operand cause w va) id).phase = .running := by
    have hcmd : cmd (logWindow q (cmd q id).ctx operand cause w va) id = cmd s.pkg id :=
      cmd_congr ((congrArg QmSt.cmds (hlog operand w va).qm_eq).trans hcmds) id
    rw [hcmd, hp]
  have hces' (operand w va : Nat) : (logWindow q (cmd q id).ctx operand cause w va).ces.find? (fun x => x.2.cmd == some id) = none := by
    rw [(hlog operand w va).ces_eq, hces]
    exact hce
  refine ⟨?_, ?_, ?_⟩
  · exact (remoteAt_congr (keepsLink_windowFault _ _ _ _ _ _).rt k).trans ((remoteAt_congr hrt k).trans (remoteAt_dropRemote _ _))
  · simp only [windowFault, hces']
    exact finishCmd_phase _ _ _ _
  · simp only [windowFault, hces']
    have hfin := (finishCmd_finishes 0x21 (0 + r.window * 16) (.inl (hphase 0 r.window (dOperand (cmd q id).desc 0).addr))).1
    exact hfin.failed (by decide)

/-- Settles O39. -/
theorem windowsLandRefuseAndReport : Obligations.WindowsLandRefuseAndReport := by
  unfold Obligations.WindowsLandRefuseAndReport
  refine ⟨fun s rq i word v hi hw hf => ⟨fun h0 hv => ⟨_, next_onPkg (doWindowEntryWrite_descriptor v hi hw hf), rfl, putDescriptor_takes h0 hv⟩,
      fun h => next_onPkg ((doWindowEntryWrite_descriptor v hi hw hf).trans (putDescriptor_discards h))⟩,
    fun s rq r v h0 hr => ⟨fun hf h => ⟨_, next_onPkg (doWindowEntryWrite_landing v hr (by decide) hf), rfl, putLanding_takes h0 h⟩,
      fun hf hv h => next_onPkg ((doWindowEntryWrite_landing v hr (by decide) hf).trans (putLanding_valid hv h)),
      fun hf => ⟨_, next_onPkg (doWindowEntryWrite_landing v hr (by decide) hf), rfl, putLanding_source s.pkg h0⟩⟩,
    fun s rq word v hw hf => next_onPkg ((doWindowEntryWrite_landing v (by decide) hw hf).trans (putLanding_zero word v s.pkg)),
    fun s m hreq harr hrep => ⟨fun h => ?_, fun cause h => ?_⟩, fun s m h => if_pos h, fun s m h0 hw hv => ?_,
    fun s cause window tag source offset hc => ⟨_, exec_reportRecord _ _ _ _ _ _, _, recordLands_mailbox _ _, ?_⟩,
    fun s cause window tag source offset k h rd size signed va r hc hw hs ht ho hfind hr => ?_,
    fun s tag h rd size signed va r hat hr hd => ⟨_, execWindowNoAnswer_late hat hd, refusedAt_coreLoad tag 8 s hr⟩,
    fun s tag id r hat hr hd hp hce => ⟨_, execWindowNoAnswer_late hat hd, refusedAt_semSignal tag 8 hr hp hce⟩,
    fun s tag r hat hd => execWindowNoAnswer_early hat hd⟩
  · have hlands := doLandingCheck_lands hreq harr hrep h
    refine ⟨_, rfl, rfl, ?_⟩
    rw [State.onPkg_pkg, hlands]
    exact ⟨rfl, rfl, rfl⟩
  · obtain ⟨hkind, hcause⟩ := reportItem_names (dropArrived s.pkg m) m.window m.offset m.tag (landingRefusal_lt h)
    exact ⟨_, next_onPkg (doLandingCheck_refuses hreq harr hrep h), rfl, rfl, _, rfl, rfl, hkind, hcause⟩
  · have hvalid : bitOf (reg s.pkg (landingKey m.window 0)) 63 = false := hv
    rw [landingRefusal, if_neg (by omega), if_pos (.inr hvalid)]
  · obtain ⟨h1, hcause, hrest⟩ := reportRecord_names cause window tag source offset s.pkg.pace.datum
    exact ⟨h1, hcause.trans (Nat.mod_eq_of_lt hc), hrest⟩
  · refine ⟨_, (exec_reportRecord _ _ _ _ _ _).trans (next_eq (report_ends hc hw hs ht ho hfind)), ?_⟩
    exact refusedAt_coreLoad k cause _ hr

end Sys2Proof.Machine
end

section
/-! Ring phases of a collective (R576, R577, R579): the proof of O47. -/

namespace Sys2Proof.Machine

/-! ## The unit takes a ring phase -/

/-- The command of a ring phase once the unit has taken it. -/
def ringCmd (p : Pkg) (id : Nat) : Cmd :=
  if (cmd p id).remoteLeft = 1 then cmd p id else { cmd p id with remoteLeft := 1, waitSince := timerNow p }

/-- The package once the unit has taken the ring phase of command `id`. -/
def ringTook (p : Pkg) (id : Nat) : Pkg := if (cmd p id).remoteLeft = 1 then p else
  setCmd p id { cmd p id with remoteLeft := 1, waitSince := timerNow p }

theorem cmd_ringTook (p : Pkg) (id : Nat) : cmd (ringTook p id) id = ringCmd p id := by
  unfold ringTook
  split
  case isTrue h => rw [ringCmd, if_pos h]
  case isFalse h => rw [ringCmd, if_neg h, cmd_setCmd_self]

theorem ringTook_fld (p : Pkg) (id k hi lo : Nat) : fld (ringTook p id) k hi lo = fld p k hi lo := by
  unfold ringTook
  split <;> rfl

theorem ringTook_rt (p : Pkg) (id : Nat) : (ringTook p id).rt = p.rt := by
  unfold ringTook
  split <;> rfl

theorem eq_ringTook {p q : Pkg} {id : Nat} {c : Cmd} (hc : c = ringCmd p id)
    (hq : q = if (cmd p id).remoteLeft = 1 then p else setCmd p id c) : q = ringTook p id := by
  rw [hq, ringTook]
  split
  case isTrue => rfl
  case isFalse h => rw [hc, ringCmd, if_neg h]

/-- Taking a ring phase changes neither what the command is nor how far it is. -/
theorem ringCmd_keeps (p : Pkg) (id : Nat) : (ringCmd p id).desc = (cmd p id).desc ∧ (ringCmd p id).ctx = (cmd p id).ctx ∧
    (ringCmd p id).ring = (cmd p id).ring ∧ (ringCmd p id).collStep = (cmd p id).collStep ∧
    (ringCmd p id).progress = (cmd p id).progress := by
  unfold ringCmd
  split <;> exact ⟨rfl, rfl, rfl, rfl, rfl⟩

section
variable {s : State} {id size rank : Nat} {c : Cmd} (hc : c = cmd s.pkg id) (hsize : size = groupSize s.pkg (reduceGroup c.desc))
  (hrank : rank = groupRank s.pkg (reduceGroup c.desc)) (hin : inRing s.pkg id = true) (htaken : ringTaken s.pkg id = true)
  (hleft : c.collStep < ringSteps size (reduceAlgo c.desc))
include hc hsize hrank hin htaken hleft

/-- A step that builds on an arrival waits until it has landed. -/
theorem execColStepSend_waits {st seg : Nat} (hon : ringAwaits size rank c.collStep = some (st, seg))
    (hnot : stepLanded s.pkg c size st seg = false) : execColStepSend id s = .next { s with pkg := ringTook s.pkg id } := by
  subst hc hsize hrank
  unfold execColStepSend
  dsimp only
  rw [hin, htaken, decide_eq_true hleft, hon, if_pos (show (true && true && true) = true from rfl)]
  dsimp only
  have hwait : (!stepLanded s.pkg (cmd s.pkg id) (groupSize s.pkg (reduceGroup (cmd s.pkg id).desc)) st seg) = true := by
    rw [hnot]
    rfl
  exact (if_pos hwait).trans rfl

/-- A step that builds on none and sends none is the rank's own sum. -/
theorem execColStepSend_sums (hon : ringAwaits size rank c.collStep = none) (hown : (ringStep size rank c.collStep).2.2 = none) :
    execColStepSend id s = .next (ownSum id { s with pkg := ringTook s.pkg id }) := by
  subst hc hsize hrank
  unfold execColStepSend
  dsimp only
  rw [hin, htaken, decide_eq_true hleft, hon, hown, if_pos (show (true && true && true) = true from rfl)]
  rfl

/-- A step that builds on none sends its records where the window lets it. -/
theorem execColStepSend_sends {st : Nat} (hon : ringAwaits size rank c.collStep = none)
    (hsends : (ringStep size rank c.collStep).2.2 = some st)
    (hcheck : senderCheck (ringTook s.pkg id) (collWindow s.pkg c) (if st < size - 1 then 2 else 1) (some c.ctx) = none) :
    execColStepSend id s = .next { s with pkg := sendStep (reduceRecords c.desc / 256 + 2) id s.mem (ringTook s.pkg id) } := by
  subst hc hsize hrank
  unfold execColStepSend
  dsimp only
  rw [hin, htaken, decide_eq_true hleft, hon, hsends, if_pos (show (true && true && true) = true from rfl)]
  dsimp only
  rw [ringTook] at hcheck
  rw [hcheck]
  rfl
end

/-! ## What reading a collective's sources leaves -/

theorem OnlyServes.keepsLink {p q : Pkg} (h : OnlyServes p q) : KeepsLink p q := by
  obtain ⟨_, _, _, _, _, _, _, rfl⟩ := h
  exact ⟨rfl, rfl, rfl⟩

theorem keepsLink_readErrors (p : Pkg) (c : Cmd) (pas : List Nat) : KeepsLink p (readErrors p c pas) := by
  unfold readErrors
  split
  · exact (logErr_only _ _ _).keepsLink
  · exact (logErr_only _ _ _).keepsLink
  · exact .refl p

theorem keepsLink_operandBytes (p : Pkg) (m : Memory) (c : Cmd) (operand off n : Nat) (far : Bool) :
    KeepsLink p (operandBytes p m c operand off n far).2 := by
  unfold operandBytes
  extract_lets pages a lines pas who r
  have hr : KeepsLink p r.2 := by
    refine List.foldlRecOn pas _ (motive := fun x : Bool × Pkg => KeepsLink p x.2) (.refl p) fun (x : Bool × Pkg) hx pa _ => ?_
    split
    · exact hx
    · have hserve := (onlyReads_homeRead x.2 pa (dPrio c.desc) (dOperand c.desc operand).slm none).serves.keepsLink
      dsimp only
      split
      · exact hx.trans (hserve.trans (onlyReads_crossLine _ _ _ _).serves.keepsLink)
      · exact hx.trans hserve
  clear_value r
  split
  · exact .refl p
  split
  · exact hr.trans (keepsLink_readErrors _ _ _)
  · exact hr

theorem keepsLink_sumRecords (m : Memory) (c : Cmd) (far : Bool) (srcs : List Nat) (j : Nat) (p : Pkg) :
    KeepsLink p (sumRecords p m c far srcs j).2 := by
  induction srcs generalizing p with
  | nil => exact .refl p
  | cons i t ih =>
    have hread := keepsLink_operandBytes p m c i (80 * j) 80 far
    unfold sumRecords
    split
    case h_1 heq => rwa [heq] at hread
    case h_2 heq => rwa [heq] at hread
    case h_3 q heq =>
      rw [heq] at hread
      have hrest := ih q
      split
      case h_1 heq' =>
        rw [heq'] at hrest
        exact hread.trans hrest
      case h_2 heq' =>
        rw [heq'] at hrest
        exact hread.trans hrest

theorem keepsLink_collRecs (m : Memory) (c : Cmd) (srcs : List Nat) (j n : Nat) (p : Pkg) :
    KeepsLink p (collRecs p m c srcs j n).2 := by
  induction n generalizing p j with
  | zero => exact .refl p
  | succ n ih =>
    have hsum := keepsLink_sumRecords m c false srcs j p
    unfold collRecs
    split
    case h_1 heq => rwa [heq] at hsum
    case h_2 q heq =>
      rw [heq] at hsum
      have hrest := ih (j + 1) q
      split
      case h_1 heq' =>
        rw [heq'] at hrest
        exact hsum.trans hrest
      case h_2 heq' =>
        rw [heq'] at hrest
        exact hsum.trans hrest

/-! ## The records of a step go out (R577) -/

theorem ringFails_inject (p : Pkg) (id status detail : Nat) : (ringFails p id status detail).rt.inject = p.rt.inject :=
  (congrArg RouterSt.inject (keepsLink_finishCmd (ringForget p (cmd p id)) id status detail).rt).trans rfl

theorem mem_inject_remotePut {x : Msg} {p : Pkg} (who : RemoteFor) (m : Msg) (window operand line ring : Nat) (h : x ∈ p.rt.inject) :
    x ∈ (remotePut p who m window operand line ring).rt.inject := List.mem_append_left _ h

/-- A message that waits to be injected waits on while a step sends. -/
theorem mem_inject_sendStep {x : Msg} (fuel id : Nat) (m : Memory) {p : Pkg} (h : x ∈ p.rt.inject) :
    x ∈ (sendStep fuel id m p).rt.inject := by
  induction fuel generalizing p with
  | zero => exact h
  | succ f ih =>
    have hread {srcs : List Nat} {j k : Nat} {r : Option (List Rec × Option Nat)} {q : Pkg}
        (heq : collRecs p m (cmd p id) srcs j k = (r, q)) : x ∈ q.rt.inject := by
      have hkeeps := (keepsLink_collRecs m (cmd p id) srcs j k p).rt
      rw [heq] at hkeeps
      rwa [hkeeps]
    unfold sendStep
    dsimp only
    split
    · exact h
    split
    · exact h
    split
    · exact h
    split
    case h_1 heq => exact hread heq
    case h_2 heq => exact (ringFails_inject _ _ _ _).symm ▸ hread heq
    case h_3 heq => exact ih (mem_inject_remotePut _ _ _ _ _ _ (hread heq))

/-- The first records of a step, where they are readable, go out as one message. -/
theorem sendStep_sends {fuel id st size : Nat} {m : Memory} {p q : Pkg} {srcs : List Nat} {c : Cmd} {seg first count : Nat}
    {recs : List Rec} (hc : c = cmd p id)
    (hsize : size = groupSize p (reduceGroup c.desc))
    (hstep : ringStep size (groupRank p (reduceGroup c.desc)) c.collStep = (seg, srcs, some st))
    (hseg : segment (reduceRecords c.desc) seg size = (first, count)) (hprogress : c.progress = 0) (hcount : 0 < count) (hmost : count ≤ 256)
    (hroom : remoteCount p (collNext p c) < 1024) (hrecs : collRecs p m c srcs first count = (some (recs, none), q)) :
    ∃ tag, { colMsg q c (srcs.length == 2) st first recs with tag := tag } ∈ (sendStep (fuel + 1) id m p).rt.inject := by
  subst hc hsize
  unfold sendStep
  dsimp only
  rw [hstep]
  dsimp only
  rw [hseg]
  dsimp only
  rw [if_neg (by omega), if_neg (by omega), hprogress, Nat.sub_zero, Nat.min_eq_right hmost, Nat.add_zero, hrecs]
  exact ⟨_, mem_inject_sendStep _ _ _ (List.mem_append_right _ (List.mem_singleton_self _))⟩

/-! ## The rank's own sum, the end and the wait (R577, R579) -/

theorem ownSum_stores {s : State} {id size seg first count : Nat} {srcs : List Nat} {st : Option Nat} {c : Cmd}
    {recs : List Rec} {q : Pkg} (hc : c = cmd s.pkg id)
    (hsize : size = groupSize s.pkg (reduceGroup c.desc))
    (hstep : ringStep size (groupRank s.pkg (reduceGroup c.desc)) c.collStep = (seg, srcs, st))
    (hseg : segment (reduceRecords c.desc) seg size = (first, count)) (hheld : stagingHeld s.pkg c first count = [])
    (hrecs : collRecs s.pkg s.mem c srcs first count = (some (recs, none), q)) :
    (ownSum id s).mem = (storeRecs q s.mem c first recs).2 ∧ (cmd (ownSum id s).pkg id).collStep = c.collStep + 1 := by
  subst hc hsize
  unfold ownSum
  dsimp only
  rw [hstep]
  dsimp only
  rw [hseg]
  dsimp only
  rw [hheld, if_pos List.isEmpty_nil, hrecs]
  dsimp only
  rw [cmd_setCmd_self]
  exact ⟨rfl, rfl⟩

theorem inRing_running {p : Pkg} {id : Nat} (h : inRing p id = true) : (cmd p id).phase = .running := by
  simp only [inRing, Bool.and_eq_true, beq_iff_eq] at h
  exact h.2

theorem doRingPhaseEnd_ends {p : Pkg} {id : Nat} (hin : inRing p id = true)
    (hdone : ringSteps (groupSize p (reduceGroup (cmd p id).desc)) (reduceAlgo (cmd p id).desc) ≤ (cmd p id).collStep)
    (harr : ringArrived p (cmd p id) = true) (hacked : (remotesOf p (fun r => r == .step id)).isEmpty = true) :
    (cmd (doRingPhaseEnd id p) id).phase = .waiting ∧ (cmd (doRingPhaseEnd id p) id).collPhase = 3 := by
  unfold doRingPhaseEnd
  dsimp only
  rw [hin, decide_eq_true hdone, harr, hacked, if_pos (show (true && true && true && true) = true from rfl), cmd_setCmd_self]
  exact ⟨rfl, rfl⟩

theorem ringFails_gives {p : Pkg} {id status : Nat} (detail : Nat) (hin : inRing p id = true) (hs : status ≠ 0) :
    (cmd (ringFails p id status detail) id).phase = .finished ∧ (cmd (ringFails p id status detail) id).status = status ∧
      (cmd (ringFails p id status detail) id).detail = detail := by
  have hrun := inRing_running hin
  have hforget : cmd (ringForget p (cmd p id)) id = cmd p id := rfl
  obtain ⟨⟨x, y, hcmd⟩, -, -⟩ := finishCmd_gives (p := ringForget p (cmd p id)) (id := id) status detail
    (by rw [hforget, hrun]; decide) (by rw [hforget, hrun]; decide)
  rw [ringFails, hcmd]
  exact ⟨rfl, if_neg fun h => hs h.1, if_neg fun h => hs h.1⟩

theorem doRingPhaseTimeout_fails {p : Pkg} {id : Nat} (hin : inRing p id = true) (hawaits : awaitsArrival p (cmd p id) = true)
    (hlate : (cmd p id).waitSince + 1000000000 ≤ timerNow p) :
    doRingPhaseTimeout id p = ringFails p id 0x21 (collWindow p (cmd p id) * 16) := by
  unfold doRingPhaseTimeout
  dsimp only
  rw [hin, hawaits, decide_eq_true hlate]
  exact if_pos rfl

theorem doRingPhaseTimeout_waits {p : Pkg} {id : Nat}
    (h : awaitsArrival p (cmd p id) = false ∨ timerNow p < (cmd p id).waitSince + 1000000000) : doRingPhaseTimeout id p = p := by
  unfold doRingPhaseTimeout
  refine if_neg fun hcond => ?_
  rw [Bool.and_eq_true, Bool.and_eq_true, decide_eq_true_iff] at hcond
  obtain ⟨⟨-, hawaits⟩, hlate⟩ := hcond
  rcases h with h | h
  · rw [h] at hawaits
    cases hawaits
  · omega

/-- Settles O47. -/
theorem ringPhasesSendWaitAndEnd : Obligations.RingPhasesSendWaitAndEnd := by
  refine ⟨?_, ?_, ?_, ?_⟩
  · rintro s id size rank first count _ c recs p q hin htaken rfl hc hp hsize hrank htwo hstep hprogress hcheck hseg
      hcount hmost hroom hrecs
    have hp : p = ringTook s.pkg id := eq_ringTook hc hp
    have hc : c = ringCmd s.pkg id := hc
    obtain ⟨hdesc, hctx, -, hat, -⟩ := ringCmd_keeps s.pkg id
    rw [← hc] at hdesc hctx hat
    subst hp
    have hcol : collWindow s.pkg c = collWindow s.pkg (cmd s.pkg id) := by
      unfold collWindow collId
      rw [hdesc]
    have hsends : ringStep size rank 0 = (rank % size, [3, 4], some 0) := by
      rw [ringStep, if_pos (by omega), Nat.zero_mod, Nat.sub_zero, Nat.add_mod_right]
    have hexec := execColStepSend_sends (c := cmd s.pkg id) (st := 0) rfl (hdesc ▸ hsize) (hdesc ▸ hrank) hin htaken
      (by rw [← hat, hstep, ringSteps]; omega) (by rw [← hat, hstep]; exact if_pos (.inl rfl)) (by rw [← hat, hstep, hsends])
      (by rw [if_pos (by omega), ← hctx, ← hcol]; exact hcheck)
    obtain ⟨tag, hmem⟩ := sendStep_sends (fuel := reduceRecords (cmd s.pkg id).desc / 256 + 1) (hc.trans (cmd_ringTook _ _).symm)
      (hsize.trans (ringTook_fld _ _ _ _ _).symm) (by rw [hstep, groupRank, ringTook_fld, ← groupRank, ← hrank]; exact hsends) hseg.symm
      hprogress hcount hmost hroom hrecs
    exact ⟨_, _, hexec, rfl, hmem, rfl, rfl, rfl, rfl⟩
  · rintro s id size rank st seg _ hin htaken rfl rfl rfl hleft hon hnot
    have hwaits := execColStepSend_waits rfl rfl rfl hin htaken hleft hon hnot
    exact ⟨_, hwaits, rfl, ringTook_rt _ _, cmd_ringTook _ _⟩
  · rintro s id first count _ c recs p q hin htaken rfl hc hp hsize hstep hseg hheld hrecs
    have hp : p = ringTook s.pkg id := eq_ringTook hc hp
    have hc : c = ringCmd s.pkg id := hc
    obtain ⟨hdesc, -, -, hat, -⟩ := ringCmd_keeps s.pkg id
    rw [← hc] at hdesc hat
    subst hp
    have hexec := execColStepSend_sums (c := cmd s.pkg id) rfl (hdesc ▸ hsize.symm) rfl hin htaken
      (by rw [← hat, hstep, ringSteps]; omega) (by rw [← hat, hstep]; exact if_pos (.inl rfl)) (by rw [← hat, hstep]; rfl)
    obtain ⟨hmem, hdone⟩ := ownSum_stores (s := { s with pkg := ringTook s.pkg id }) (st := none)
      (srcs := [3, 4]) (hc.trans (cmd_ringTook _ _).symm) (size := 1) (hsize.symm.trans (ringTook_fld _ _ _ _ _).symm) (by rw [hstep]; rfl)
      (by rw [groupRank, ringTook_fld, ← groupRank]; exact hseg.symm) hheld hrecs
    exact ⟨_, hexec, hmem, hdone.trans (by rw [hstep])⟩
  · rintro s id _ hin rfl
    refine ⟨fun hdone harr hacked => ⟨_, rfl, rfl, doRingPhaseEnd_ends hin hdone harr hacked⟩, fun hawaits hlate => ?_,
      fun h => next_onPkg (doRingPhaseTimeout_waits h)⟩
    exact ⟨_, next_onPkg (doRingPhaseTimeout_fails hin hawaits hlate), rfl, ringFails_gives _ hin (by decide)⟩

end Sys2Proof.Machine
end

section
/-! What the operations of an optical port change and keep: the layer under O44 to O46. -/

namespace Sys2Proof.Machine

/-! ## Notices: what an interrupt, a waypoint or an error record leaves -/

/-- q differs from p in what interrupts, waypoints and error records change; no register of a block from 0x100 on is among that. -/
structure OnlyNotes (p q : Pkg) : Prop where
  log : OnlyLog p q
  reg : ∀ pg off, 0x100 ≤ off → off < 0x1000 → reg q (key pg off) = reg p (key pg off)

theorem OnlyNotes.refl (p : Pkg) : OnlyNotes p p := ⟨.refl p, fun _ _ _ _ => rfl⟩

theorem OnlyNotes.trans {p q r : Pkg} (h : OnlyNotes p q) (g : OnlyNotes q r) : OnlyNotes p r :=
  ⟨h.log.trans g.log, fun pg off h1 h2 => (g.reg pg off h1 h2).trans (h.reg pg off h1 h2)⟩

theorem onlyNotes_raiseBlock (p : Pkg) (pg n : Nat) : OnlyNotes p (raiseBlock p pg n) :=
  ⟨(raiseBlock_only _ _ _).log, fun pg' _ h1 h2 => raiseBlock_reg_own p pg n pg' h2 h1⟩

theorem onlyNotes_waypoint (p : Pkg) (pg event sub arg : Nat) : OnlyNotes p (waypoint p pg event sub arg) :=
  ⟨waypoint_only _ _ _ _ _, fun _ _ _ _ => waypoint_reg _ _ _ _ _ _⟩

theorem onlyNotes_logErr (p : Pkg) (pg : Nat) (e : ErrArgs) : OnlyNotes p (logErr p pg e) :=
  ⟨logErr_only _ _ _, fun pg' _ h1 h2 => logErr_reg_own p pg e pg' h2 h1⟩

theorem OnlyNotes.port_eq {p q : Pkg} (h : OnlyNotes p q) (i : Nat) : port q i = port p i := by rw [port, port, h.log.rt_eq]

theorem OnlyNotes.status_eq {p q : Pkg} (h : OnlyNotes p q) (i : Nat) :
    Machine.reg q (plStatus i) = Machine.reg p (plStatus i) :=
  h.reg (pgPl i) 0x100 (by decide) (by decide)

theorem reg_setPort (p : Pkg) (i : Nat) (x : PortSt) (k : Nat) : reg (setPort p i x) k = reg p k := reg_congr rfl rfl rfl k

/-! ## STATE of a port (Tables 16-7, 16-13) -/

/-- STATE is set with nothing but notices beside what it shows. -/
theorem setPlState_notes (p : Pkg) (i st : Nat) :
    OnlyNotes (setPort (plShown p i st) i { port p i with flashEnd := none }) (setPlState p i st) := by
  have hone (c : Prop) [Decidable c] (q : Pkg) (pg n : Nat) : OnlyNotes q (if c then q else raiseBlock q pg n) := by
    split
    · exact .refl q
    · exact onlyNotes_raiseBlock _ _ _
  unfold setPlState
  dsimp only
  split
  · exact hone _ _ _ _
  · exact ((hone _ _ _ _).trans (onlyNotes_raiseBlock _ _ _)).trans (onlyNotes_waypoint _ _ _ _ _)

theorem plStatus_ne_admitted (i : Nat) : plStatus i ≠ key pgRt 0x130 := key_ne _ _ (by decide) (by decide) (by decide)

theorem fld_setPlState (p : Pkg) (i st hi lo : Nat) : fld (setPlState p i st) (plStatus i) hi lo =
    fld (setFld (setFld (setFld p (plStatus i) 31 28 st) (plStatus i) 25 24 (lamps st).1) (plStatus i) 23 22 (lamps st).2) (plStatus i) hi lo := by
  rw [fld_congr ((setPlState_notes p i st).status_eq i), fld_congr (reg_setPort _ _ _ _), plShown]
  exact fld_setFld_ne _ _ _ _ _ _ (plStatus_ne_admitted i)

theorem plState_setPlState (p : Pkg) (i : Nat) {st : Nat} (h : st < 16) : plState (setPlState p i st) i = st := by
  rw [plState, fld_setPlState, fld_setFld_beside _ _ _ _ _ _ _ (by decide) (by decide) (by decide) (by decide),
    fld_setFld_beside _ _ _ _ _ _ _ (by decide) (by decide) (by decide) (by decide), fld_setFld_self _ _ _ _ _ (by decide) (by decide)]
  exact Nat.mod_eq_of_lt h

/-- Both lamps are off when a port is DOWN. -/
theorem lamps_setPlState_down (p : Pkg) (i : Nat) : fld (setPlState p i 0) (plStatus i) 25 22 = 0 := by
  have hgreen : fld (setPlState p i 0) (plStatus i) 25 24 = 0 := by
    rw [fld_setPlState, fld_setFld_beside _ _ _ _ _ _ _ (by decide) (by decide) (by decide) (by decide),
      fld_setFld_self _ _ _ _ _ (by decide) (by decide)]
    rfl
  have hamber : fld (setPlState p i 0) (plStatus i) 23 22 = 0 := by
    rw [fld_setPlState, fld_setFld_self _ _ _ _ _ (by decide) (by decide)]
    rfl
  unfold fld bitsOf at *
  rw [Nat.shiftRight_eq_div_pow] at *
  omega

theorem cable_setPlState (p : Pkg) (i st : Nat) : cable (setPlState p i st) i = cable p i := by
  have hbit : fld (setPlState p i st) (plStatus i) 27 27 = fld p (plStatus i) 27 27 := by
    rw [fld_setPlState, fld_setFld_beside _ _ _ _ _ _ _ (by decide) (by decide) (by decide) (by decide),
      fld_setFld_beside _ _ _ _ _ _ _ (by decide) (by decide) (by decide) (by decide),
      fld_setFld_beside _ _ _ _ _ _ _ (by decide) (by decide) (by decide) (by decide)]
  rw [fld, fld] at hbit
  rw [cable, cable, bit, bit, bitOf_eq_bitsOf, bitOf_eq_bitsOf, hbit]

theorem reg_setPlState (p : Pkg) (i st : Nat) {pg off : Nat} (h1 : 0x100 ≤ off) (h2 : off < 0x1000) (hs : key pg off ≠ plStatus i)
    (ha : key pg off ≠ key pgRt 0x130) : reg (setPlState p i st) (key pg off) = reg p (key pg off) := by
  rw [(setPlState_notes p i st).reg pg off h1 h2, reg_setPort, plShown, setBit, reg_setFld_ne _ _ _ _ ha, reg_setFld_ne _ _ _ _ hs,
    reg_setFld_ne _ _ _ _ hs, reg_setFld_ne _ _ _ _ hs]

theorem rt_setPlState (p : Pkg) (i st : Nat) :
    (setPlState p i st).rt = { p.rt with ports := SMap.set p.rt.ports i { port p i with flashEnd := none } } :=
  (setPlState_notes p i st).log.rt_eq

theorem port_setPlState (p : Pkg) (i st : Nat) : port (setPlState p i st) i = { port p i with flashEnd := none } := by
  rw [port, rt_setPlState, SMap.get_set_self]

theorem seq_setPlState (p : Pkg) (i st : Nat) : (setPlState p i st).seq = p.seq := (setPlState_notes p i st).log.seq_eq

theorem outKept_waypoint (p : Pkg) (pg event sub arg : Nat) : OutKept p (waypoint p pg event sub arg) := outKept_of_eq rfl

theorem outKept_setPlState (p : Pkg) (i st : Nat) : OutKept p (setPlState p i st) := by
  have hone (c : Prop) [Decidable c] (q : Pkg) (pg n : Nat) (h : q.out = p.out) : OutKept p (if c then q else raiseBlock q pg n) := by
    split
    · exact outKept_of_eq h
    · exact (outKept_of_eq h).trans (outKept_raiseBlock _ _ _)
  unfold setPlState
  dsimp only
  split
  · exact hone _ _ _ _ rfl
  · refine OutKept.trans ?_ ((outKept_raiseBlock _ _ _).trans (outKept_waypoint _ _ _ _ _))
    exact hone _ _ _ _ rfl

theorem plControl_ne_status (i : Nat) : key (pgPl i) 0x104 ≠ plStatus i := key_ne _ _ (by decide) (by decide) (by decide)

theorem plControl_ne_admitted (i : Nat) : key (pgPl i) 0x104 ≠ key pgRt 0x130 := key_ne _ _ (by decide) (by decide) (by decide)

theorem plDisabled_setPlState (p : Pkg) (i st : Nat) : plDisabled (setPlState p i st) i = plDisabled p i := by
  have hreg : reg (setPlState p i st) (key (pgPl i) 0x104) = reg p (key (pgPl i) 0x104) :=
    reg_setPlState p i st (by decide) (by decide) (plControl_ne_status i) (plControl_ne_admitted i)
  rw [plDisabled, plDisabled, bit_congr hreg]

theorem linkUp_setPlState (p : Pkg) (i st : Nat) : linkUp (setPlState p i st) i = linkUp p i := by rw [linkUp, linkUp, port_setPlState]

/-- The state that a link's absence allows goes by the cable, DISABLE and the lasers. -/
theorem untrained_congr {p q : Pkg} {i : Nat} (hs : reg q (plStatus i) = reg p (plStatus i))
    (hc : reg q (key (pgPl i) 0x104) = reg p (key (pgPl i) 0x104)) (hl : q.seq = p.seq) (again : Nat) :
    untrained q i again = untrained p i again := by
  unfold untrained cable plDisabled bit
  rw [hs, hc, hl]

theorem untrained_cases (p : Pkg) (i again : Nat) : untrained p i again = again ∨ untrained p i again = 0 := by
  unfold untrained
  split
  · exact .inl rfl
  · exact .inr rfl

theorem untrained_lt (p : Pkg) (i : Nat) {again : Nat} (h : again < 16) : untrained p i again < 16 := by
  rcases untrained_cases p i again with he | he <;> omega

/-! ## Admission and link failure (R560, R566) -/

theorem tryAdmit_cases (p : Pkg) (i : Nat) :
    tryAdmit p i = p ∨ tryAdmit p i = setPlState p i 4 ∨ tryAdmit p i = raiseBlock p (pgPl i) 3 := by
  unfold tryAdmit
  dsimp only
  split
  · split
    · split
      · exact .inr (.inl rfl)
      · exact .inl rfl
    · exact .inr (.inr rfl)
  · exact .inl rfl

theorem tryAdmit_state {p : Pkg} {i : Nat} (h : plState p i = 3) : plState (tryAdmit p i) i = 3 ∨ plState (tryAdmit p i) i = 4 := by
  rcases tryAdmit_cases p i with he | he | he
  · exact .inl (by rw [he, h])
  · exact .inr (by rw [he, plState_setPlState _ _ (by decide)])
  · exact .inl (by rw [he, plState, fld_congr ((onlyNotes_raiseBlock _ _ _).status_eq i), ← plState, h])

theorem reg_tryAdmit (p : Pkg) (i : Nat) {pg off : Nat} (h1 : 0x100 ≤ off) (h2 : off < 0x1000) (hs : key pg off ≠ plStatus i)
    (ha : key pg off ≠ key pgRt 0x130) : reg (tryAdmit p i) (key pg off) = reg p (key pg off) := by
  rcases tryAdmit_cases p i with he | he | he
  · rw [he]
  · rw [he, reg_setPlState _ _ _ h1 h2 hs ha]
  · rw [he, raiseBlock_reg_own _ _ _ _ h2 h1]

theorem rt_tryAdmit (p : Pkg) (i : Nat) : ∃ x, (tryAdmit p i).rt = { p.rt with ports := x } := by
  rcases tryAdmit_cases p i with he | he | he
  · exact ⟨_, by rw [he]⟩
  · exact ⟨_, by rw [he, rt_setPlState]⟩
  · exact ⟨p.rt.ports, by rw [he, (onlyNotes_raiseBlock _ _ _).log.rt_eq]⟩

theorem port_tryAdmit (p : Pkg) (i : Nat) : ∃ x, port (tryAdmit p i) i = { port p i with flashEnd := x } := by
  rcases tryAdmit_cases p i with he | he | he
  · exact ⟨_, by rw [he]⟩
  · exact ⟨_, by rw [he, port_setPlState]⟩
  · exact ⟨_, by rw [he, (onlyNotes_raiseBlock _ _ _).port_eq]⟩

theorem outKept_tryAdmit (p : Pkg) (i : Nat) : OutKept p (tryAdmit p i) := by
  rcases tryAdmit_cases p i with he | he | he <;> rw [he]
  · exact .refl p
  · exact outKept_setPlState _ _ _
  · exact outKept_raiseBlock _ _ _

/-- A port whose link has gone down. -/
def lostPort (p : Pkg) (i : Nat) : PortSt :=
  { port p i with trained := false, tries := 0, downAt := if (port p i).trained then some p.pace.datum else (port p i).downAt }

/-- What a link failure leaves before STATE is set: the link is down, counted and logged. -/
def linkLost (p : Pkg) (i cause : Nat) : Pkg :=
  logErr (bumpReg (setPort p i (lostPort p i)) (key (pgPl i) 0x14C) 1 0xFFFFFFFF) (pgPl i) ⟨0x61, 0, 0, 0, cause % 16⟩

theorem linkLost_reg (p : Pkg) (i cause : Nat) {pg off : Nat} (h1 : 0x100 ≤ off) (h2 : off < 0x1000) (hne : off ≠ 0x14C) :
    reg (linkLost p i cause) (key pg off) = reg p (key pg off) := by
  rw [linkLost, logErr_reg_own _ _ _ _ h2 h1, bumpReg, reg_setReg_ne _ _ (key_ne _ _ h2 (by decide) hne), reg_setPort]

theorem linkLost_rt (p : Pkg) (i cause : Nat) : (linkLost p i cause).rt = (setPort p i (lostPort p i)).rt := (logErr_only _ _ _).rt_eq

theorem linkDown_eq (p : Pkg) (i cause : Nat) : linkDown p i cause = setPlState (linkLost p i cause) i (untrained p i 8) := by
  have hsame : untrained (linkLost p i cause) i 8 = untrained p i 8 :=
    untrained_congr (linkLost_reg p i cause (pg := pgPl i) (by decide) (by decide) (by decide))
      (linkLost_reg p i cause (by decide) (by decide) (by decide)) (logErr_only _ _ _).seq_eq 8
  rw [← hsame]
  rfl

theorem linkDown_state (p : Pkg) (i cause : Nat) : plState (linkDown p i cause) i = untrained p i 8 := by
  rw [linkDown_eq, plState_setPlState _ _ (untrained_lt p i (by decide))]

theorem linkDown_port (p : Pkg) (i cause : Nat) : port (linkDown p i cause) i = { lostPort p i with flashEnd := none } := by
  have hlost : port (linkLost p i cause) i = lostPort p i := by rw [port, linkLost_rt, ← port, port_setPort_self]
  rw [linkDown_eq, port_setPlState, hlost]

theorem linkDown_linkUp (p : Pkg) (i cause : Nat) : linkUp (linkDown p i cause) i = false := by
  rw [linkUp, linkDown_port]
  exact Bool.and_false _

theorem linkDown_reg (p : Pkg) (i cause : Nat) {pg off : Nat} (h1 : 0x100 ≤ off) (h2 : off < 0x1000) (hs : off ≠ 0x100)
    (ha : off ≠ 0x130) (hc : off ≠ 0x14C) : reg (linkDown p i cause) (key pg off) = reg p (key pg off) := by
  rw [linkDown_eq, reg_setPlState _ _ _ h1 h2 (key_ne _ _ h2 (by decide) hs) (key_ne _ _ h2 (by decide) ha), linkLost_reg _ _ _ h1 h2 hc]

end Sys2Proof.Machine
end

section
/-! Ports drain, cables come and go, and the router's registers are written (R540, R565 to R572, R583): the proof of O46. -/

namespace Sys2Proof.Machine

/-! ## A press (R567 to R569) -/

theorem reg_enterDrain (p : Pkg) (i : Nat) (answered : Bool) (k : Nat) :
    reg (enterDrain p i answered) k = reg (setPlState p i stDraining) k := reg_congr rfl rfl rfl k

theorem enterDrain_state (p : Pkg) (i : Nat) (answered : Bool) : plState (enterDrain p i answered) i = 5 := by
  rw [plState, fld_congr (reg_enterDrain _ _ _ _), ← plState, plState_setPlState _ _ (by decide)]
  rfl

theorem enterDrain_port (p : Pkg) (i : Nat) (answered : Bool) : (port (enterDrain p i answered) i).drainAt = p.pace.datum ∧
    (port (enterDrain p i answered) i).answered = answered := by
  have hport : port (enterDrain p i answered) i =
      { port (setPlState p i stDraining) i with drainAt := p.pace.datum, answered := answered } := port_setPort_self _ _ _
  rw [hport]
  exact ⟨rfl, rfl⟩

section
variable {p : Pkg} {i : Nat}

theorem press_drains (h : plState p i = 4) (hlast : lastPort p i = false) : press p i = enterDrain (raiseBlock p (pgPl i) 2) i false := by
  unfold press
  dsimp only
  have hat : plState p i = stAdmitted := h
  rw [if_pos hat, if_neg (Bool.eq_false_iff.mp hlast)]

theorem press_drained (h : plState p i = 2 ∨ plState p i = 3) : press p i = setPlState (raiseBlock p (pgPl i) 2) i 6 := by
  unfold press
  dsimp only
  have hat : plState p i = stTraining ∨ plState p i = stTrained := h
  rw [if_neg (by rcases h with h | h <;> rw [h] <;> decide), if_pos hat]
  rfl

/-- What a refused press shows. -/
def pressRefused (p : Pkg) (i : Nat) : Pkg :=
  let p1 := setFld (raiseBlock p (pgPl i) 2) (plStatus i) 23 22 3
  setPort p1 i { port p1 i with flashEnd := some (p.pace.datum + 5000000000) }

theorem press_refused (h : plState p i = 4) (hlast : lastPort p i = true) : press p i = logErr (pressRefused p i) pgRt ⟨0x62, 0, 0, 0, i⟩ := by
  unfold press
  dsimp only
  have hat : plState p i = stAdmitted := h
  rw [if_pos hat, if_pos hlast]
  rfl

theorem pressRefused_shows (h : plState p i = 4) (hlast : lastPort p i = true) : plState (press p i) i = 4 ∧
    fld (press p i) (plStatus i) 23 22 = 3 ∧ (port (press p i) i).flashEnd = some (p.pace.datum + 5000000000) := by
  have hnote := onlyNotes_logErr (pressRefused p i) pgRt ⟨0x62, 0, 0, 0, i⟩
  have hshown (hi lo : Nat) : fld (pressRefused p i) (plStatus i) hi lo =
      fld (setFld (raiseBlock p (pgPl i) 2) (plStatus i) 23 22 3) (plStatus i) hi lo := fld_congr (reg_setPort _ _ _ _) _ _
  rw [press_refused h hlast, plState, fld_congr (hnote.status_eq i), fld_congr (hnote.status_eq i), hnote.port_eq, hshown, hshown]
  refine ⟨?_, fld_setFld_self _ _ _ _ _ (by decide) (by decide), ?_⟩
  · rw [fld_setFld_beside _ _ _ _ _ _ _ (by decide) (by decide) (by decide) (by decide),
      fld_congr ((onlyNotes_raiseBlock _ _ _).status_eq i), ← plState, h]
  · rw [pressRefused, port_setPort_self]
end

/-- Whether a port is a destination's last goes by the bearing entries, the ports and their states. -/
theorem lastPort_congr {p q : Pkg} (hrt : q.rt = p.rt) (hpace : q.pace = p.pace) (hs : ∀ j, plState q j = plState p j) (i : Nat) :
    lastPort q i = lastPort p i := by
  have hport (j : Nat) : port q j = port p j := by rw [port, port, hrt]
  have husable (j : Nat) : usable q j = usable p j := by rw [usable, usable, hs, hport, hpace]
  unfold lastPort
  simp only [hrt, husable]

/-! ## The drain's course and its end (R567, R570) -/

theorem doPortButtonPress_released {p : Pkg} {i : Nat} (h : bit p (key pgOps 0x100) 31 = true) : doPortButtonPress i p = p :=
  if_neg fun hc => Bool.noConfusion (hc.2.symm.trans h)

section
variable {p : Pkg} {i : Nat} (hi : i < 6)
include hi

theorem doPortButtonPress_seen (h : bit p (key pgOps 0x100) 31 = false) : doPortButtonPress i p = press p i := if_pos ⟨hi, h⟩

theorem doDrain_enters (h : plState p i = 4) : doDrain i p = enterDrain p i true := by
  have hat : plState p i = stAdmitted := h
  rw [doDrain, if_pos hi, if_pos hat]

theorem doDrainFlitRepeat_sends (h : plState p i = 5) (ha : (port p i).answered = false) :
    doDrainFlitRepeat i p = emitMsg p (.drainFlit i) := if_pos ⟨hi, h, ha⟩

theorem doPortDrained_ends (h : plState p i = 5) (hq : (port p i).queued = []) (hr : (port p i).replay = [])
    (ha : (port p i).answered = true) (hd : (port p i).drainAt + 500000000 ≤ p.pace.datum) : doPortDrained i p = setPlState p i 6 :=
  if_pos ⟨hi, h, hq, hr, ha, hd⟩

theorem doDrainTimeout_ends (h : plState p i = 5) (hd : (port p i).drainAt + 2000000000 ≤ p.pace.datum) :
    doDrainTimeout i p = setPlState (returnMessages p i) i 6 := if_pos ⟨hi, h, hd⟩

theorem draining_of_state (h : plState p i = 5 ∨ plState p i = 6) : draining p i = true := by
  rw [draining, decide_eq_true hi]
  rcases h with h | h <;> rw [h] <;> rfl
end

theorem returnMessages_port (p : Pkg) (i : Nat) : port (returnMessages p i) i = { port p i with replay := [], queued := [] } :=
  SMap.get_set_self _ _ _ _

theorem undrain_trained {p : Pkg} {i : Nat} (h : (port p i).trained = true) :
    plState (undrain p i) i = 3 ∨ plState (undrain p i) i = 4 := by
  rw [undrain, if_pos h]
  exact tryAdmit_state (plState_setPlState _ _ (by decide))

theorem undrain_untrained {p : Pkg} {i : Nat} (h : (port p i).trained = false) : plState (undrain p i) i = untrained p i 2 := by
  rw [undrain, if_neg (Bool.eq_false_iff.mp h), plState_setPlState _ _ (untrained_lt _ _ (by decide))]
  rfl

theorem outKept_undrain (p : Pkg) (i : Nat) : OutKept p (undrain p i) := by
  unfold undrain
  split
  · exact (outKept_setPlState _ _ _).trans (outKept_tryAdmit _ _)
  · exact outKept_setPlState _ _ _

/-- A drain that ends leaves the port neither draining nor drained. -/
theorem undrain_state (p : Pkg) (i : Nat) : plState (undrain p i) i ≠ 5 ∧ plState (undrain p i) i ≠ 6 := by
  cases h : (port p i).trained with
  | true =>
    rcases undrain_trained h with he | he <;> rw [he] <;> decide
  | false =>
    rw [undrain_untrained h]
    rcases untrained_cases p i 2 with he | he <;> rw [he] <;> decide

theorem cancelDrain_eq {p : Pkg} {i : Nat} (h : draining p i = true) : cancelDrain p i = undrain (emitMsg p (.drainCancel i)) i := if_pos h

theorem cancelDrain_trained {p : Pkg} {i : Nat} (h : draining p i = true) (ht : (port p i).trained = true) :
    plState (cancelDrain p i) i = 3 ∨ plState (cancelDrain p i) i = 4 := by
  rw [cancelDrain_eq h]
  exact undrain_trained ht

theorem cancelDrain_untrained {p : Pkg} {i : Nat} (h : draining p i = true) (ht : (port p i).trained = false) :
    plState (cancelDrain p i) i = untrained p i 2 := by
  have hsame : untrained (emitMsg p (.drainCancel i)) i 2 = untrained p i 2 := untrained_congr (reg_emitMsg _ _ _) (reg_emitMsg _ _ _) rfl 2
  have hport : (port (emitMsg p (.drainCancel i)) i).trained = false := ht
  rw [cancelDrain_eq h, undrain_untrained hport, hsame]

theorem mem_out_cancelDrain {p : Pkg} {i : Nat} (h : draining p i = true) : .drainCancel i ∈ (cancelDrain p i).out := by
  rw [cancelDrain_eq h]
  exact outKept_undrain _ _ _ List.mem_cons_self

theorem doDrainRefusedFlashEnd_shows {p : Pkg} {i x : Nat} (hi : i < 6) (h : (port p i).flashEnd = some x) (hx : x ≤ p.pace.datum) :
    (port (doDrainRefusedFlashEnd i p) i).flashEnd = none ∧
      fld (doDrainRefusedFlashEnd i p) (plStatus i) 23 22 = (lamps (plState p i)).2 := by
  have heq : doDrainRefusedFlashEnd i p =
      setPort (setFld p (plStatus i) 23 22 (lamps (plState p i)).2) i { port p i with flashEnd := none } := by
    unfold doDrainRefusedFlashEnd
    rw [h]
    exact if_pos ⟨hi, hx⟩
  have hlamp : (lamps (plState p i)).2 % 2 ^ (23 + 1 - 22) = (lamps (plState p i)).2 := by
    refine Nat.mod_eq_of_lt ?_
    unfold lamps
    split <;> decide
  rw [heq, port_setPort_self, fld_congr (reg_setPort _ _ _ _), fld_setFld_self _ _ _ _ _ (by decide) (by decide), hlamp]
  exact ⟨rfl, rfl⟩

/-! ## PL_CONTROL (R560, R572) -/

section
variable {p : Pkg} {i : Nat} {b : W64}

theorem putPlControl_presses (h0 : bitOf b 0 = true) (h1 : bitOf b 1 = false) (h2 : bitOf b 2 = plDisabled p i) :
    putPlControl i b p = press (setBit p (key (pgPl i) 0x104) 2 (plDisabled p i)) i := by
  unfold putPlControl
  dsimp only
  rw [h0, h1, h2]
  cases plDisabled p i <;> rfl

theorem putPlControl_cancels (h0 : bitOf b 0 = false) (h1 : bitOf b 1 = true) (h2 : bitOf b 2 = plDisabled p i) :
    putPlControl i b p = cancelDrain (setBit p (key (pgPl i) 0x104) 2 (plDisabled p i)) i := by
  unfold putPlControl
  dsimp only
  rw [h0, h1, h2]
  cases plDisabled p i <;> rfl

theorem putPlControl_disables (h0 : bitOf b 0 = false) (h1 : bitOf b 1 = false) (h2 : bitOf b 2 = true) (hwas : plDisabled p i = false)
    {p1 : Pkg} (hp1 : p1 = setBit p (key (pgPl i) 0x104) 2 true) :
    putPlControl i b p = if linkUp p1 i then linkDown p1 i 4 else setPlState p1 i stDown := by
  subst hp1
  unfold putPlControl
  dsimp only
  rw [h0, h1, h2, hwas]
  rfl
end

/-- A write of PL_CONTROL shows in no port's state by itself. -/
theorem plState_setDisable (p : Pkg) (i : Nat) (b : Bool) (j : Nat) : plState (setBit p (key (pgPl i) 0x104) 2 b) j = plState p j :=
  fld_setFld_ne _ _ _ _ _ _ (key_ne _ _ (by decide) (by decide) (by decide))

theorem press_sameDisable {p : Pkg} {i : Nat} {b : Bool} (h : plState p i = 4) (hlast : lastPort p i = false) :
    plState (press (setBit p (key (pgPl i) 0x104) 2 b) i) i = 5 := by
  have hsame : lastPort (setBit p (key (pgPl i) 0x104) 2 b) i = lastPort p i :=
    lastPort_congr (p := p) (q := setBit p (key (pgPl i) 0x104) 2 b) rfl rfl (plState_setDisable p i b) i
  rw [press_drains ((plState_setDisable p i b i).trans h) (hsame.trans hlast), enterDrain_state]

theorem cancel_sameDisable {p : Pkg} {i : Nat} {b : Bool} (hi : i < 6) (h : plState p i = 5 ∨ plState p i = 6) :
    .drainCancel i ∈ (cancelDrain (setBit p (key (pgPl i) 0x104) 2 b) i).out ∧
      plState (cancelDrain (setBit p (key (pgPl i) 0x104) 2 b) i) i ≠ 5 ∧
      plState (cancelDrain (setBit p (key (pgPl i) 0x104) 2 b) i) i ≠ 6 := by
  rw [← plState_setDisable p i b i] at h
  have hdraining := draining_of_state hi h
  refine ⟨mem_out_cancelDrain hdraining, ?_⟩
  rw [cancelDrain_eq hdraining]
  exact undrain_state _ _

/-- A port that is disabled is DOWN, its link too. -/
theorem disabled_down {p : Pkg} {i : Nat} (h : plDisabled p i = true) {q : Pkg}
    (hq : q = if linkUp p i then linkDown p i 4 else setPlState p i stDown) :
    plDisabled q i = true ∧ plState q i = 0 ∧ linkUp q i = false := by
  subst hq
  split
  case isTrue =>
    refine ⟨?_, ?_, linkDown_linkUp _ _ _⟩
    · have hreg : reg (linkDown p i 4) (key (pgPl i) 0x104) = reg p (key (pgPl i) 0x104) :=
        linkDown_reg _ _ _ (by decide) (by decide) (by decide) (by decide) (by decide)
      rw [plDisabled, bit_congr hreg, ← plDisabled, h]
    · rw [linkDown_state, untrained, h, Bool.not_true, Bool.and_false, Bool.false_and]
      rfl
  case isFalse hdown =>
    rw [plDisabled_setPlState, plState_setPlState _ _ (by decide), linkUp_setPlState]
    exact ⟨h, rfl, Bool.eq_false_iff.mpr hdown⟩

/-! ## Cables (R571) -/

theorem opsCable_reg (p : Pkg) (i : Nat) (b : Bool) {pg off : Nat} (h1 : 0x100 ≤ off) (h2 : off < 0x1000) (hne : pg ≠ pgOps) :
    reg (opsCable p i b) (key pg off) = reg p (key pg off) := by
  unfold opsCable
  split
  · rfl
  · rw [raiseBlock_reg_own _ _ _ _ h2 h1, setBit, reg_setFld_ne _ _ _ _ (key_ne_page h2 (by decide) hne)]

theorem opsCable_rt (p : Pkg) (i : Nat) (b : Bool) : (opsCable p i b).rt = p.rt := by
  unfold opsCable
  split
  · rfl
  · exact (raiseBlock_only _ _ _).log.rt_eq

theorem opsCable_seq (p : Pkg) (i : Nat) (b : Bool) : (opsCable p i b).seq = p.seq := by
  unfold opsCable
  split
  · rfl
  · exact (raiseBlock_only _ _ _).log.seq_eq

theorem pgPl_ne_pgOps (i : Nat) : pgPl i ≠ pgOps := by
  unfold pgPl pgOps
  omega

theorem opsCable_status (p : Pkg) (i : Nat) (b : Bool) : reg (opsCable p i b) (plStatus i) = reg p (plStatus i) :=
  opsCable_reg p i b (by decide) (by decide) (pgPl_ne_pgOps i)

/-- A port without cable and link is DOWN with its lamps off. -/
theorem setPlState_unplugged {q : Pkg} {i : Nat} (hc : cable q i = false) (hl : linkUp q i = false) : cable (setPlState q i 0) i = false ∧
    plState (setPlState q i 0) i = 0 ∧ linkUp (setPlState q i 0) i = false ∧ fld (setPlState q i 0) (plStatus i) 25 22 = 0 :=
  ⟨(cable_setPlState _ _ _).trans hc, plState_setPlState _ _ (by decide), (linkUp_setPlState _ _ _).trans hl, lamps_setPlState_down _ _⟩

theorem cableOut_unplugs {p : Pkg} {i : Nat} (hc : cable p i = true) (ht : plState p i = 0 → (port p i).trained = false) :
    cable (cableOut p i) i = false ∧ plState (cableOut p i) i = 0 ∧ linkUp (cableOut p i) i = false ∧
      fld (cableOut p i) (plStatus i) 25 22 = 0 := by
  unfold cableOut
  dsimp only
  rw [if_pos hc]
  generalize hq : setBit p (plStatus i) 27 false = q
  have hport : port q i = port p i := by rw [← hq]; rfl
  have hout : cable q i = false := by rw [cable, ← hq, bit_setBit_self _ _ _ _ (by decide)]
  split
  case isTrue h =>
    exact setPlState_unplugged hout (by rw [linkUp, hport, ht h, Bool.and_false])
  split
  · refine setPlState_unplugged ?_ ?_
    · rw [cable, bit_congr (reg_setPort _ _ _ _), ← cable, hout]
    · rw [linkUp, port_setPort_self]
      exact Bool.and_false _
  · have hlost : cable (linkLost q i 3) i = false := by
      have hreg : reg (linkLost q i 3) (plStatus i) = reg q (plStatus i) := linkLost_reg _ _ _ (by decide) (by decide) (by decide)
      rw [cable, bit_congr hreg, ← cable, hout]
    have hdown : linkUp (linkLost q i 3) i = false := by
      rw [linkUp, port, linkLost_rt, ← port, port_setPort_self]
      exact Bool.and_false _
    have hstate : untrained q i 8 = 0 := by
      rw [untrained, hout]
      rfl
    rw [linkDown_eq, hstate]
    exact setPlState_unplugged hlost hdown

theorem cableIn_trains {p : Pkg} {i : Nat} (hc : cable p i = false) (hd : plDisabled p i = false) (hl : p.seq.lasers = true) :
    cable (cableIn p i) i = true ∧ plState (cableIn p i) i = 2 := by
  unfold cableIn
  dsimp only
  rw [if_neg (Bool.eq_false_iff.mp hc)]
  generalize hq : setBit p (plStatus i) 27 true = q
  have hin : cable q i = true := by rw [cable, ← hq, bit_setBit_self _ _ _ _ (by decide)]
  have hdis : plDisabled q i = false := by
    rw [plDisabled, ← hq, bit_setBit_ne _ _ _ _ (plControl_ne_status i), ← plDisabled, hd]
  have hlight : q.seq.lasers = true := by rw [← hq]; exact hl
  have htrain : untrained q i stTraining = 2 := by
    rw [untrained, hin, hdis, hlight]
    rfl
  rw [hl, htrain, Bool.not_true, Bool.and_false, Bool.false_and, if_neg Bool.false_ne_true]
  exact ⟨(cable_setPlState _ _ _).trans hin, plState_setPlState _ _ (by decide)⟩

/-! ## The router's registers (R540, R565, R583) -/

theorem putBearing_shows (v : W64) (p : Pkg) : SMap.get (putBearing v p).rt.bearing (fld p (key pgRt 0x110) 13 0) 0x1FF = bitsOf v 8 0 ∧
    fld (putBearing v p) (key pgRt 0x110) 13 0 = (fld p (key pgRt 0x110) 13 0 + 1) % 16384 :=
  ⟨SMap.get_set_self _ _ _ _, fld_setFld_self _ _ _ _ _ (by decide) (by decide)⟩

theorem foldl_tryAdmit_node (l : List Nat) (p : Pkg) : thisNode (l.foldl tryAdmit p) = thisNode p ∧
    (l.foldl tryAdmit p).rt.nodeLocked = p.rt.nodeLocked := by
  induction l generalizing p with
  | nil => exact ⟨rfl, rfl⟩
  | cons i t ih =>
    obtain ⟨hnode, hlocked⟩ := ih (tryAdmit p i)
    obtain ⟨x, hrt⟩ := rt_tryAdmit p i
    have hreg : reg (tryAdmit p i) (key pgRt 0x104) = reg p (key pgRt 0x104) :=
      reg_tryAdmit p i (by decide) (by decide) (key_ne _ _ (by decide) (by decide) (by decide)) (by decide)
    rw [List.foldl_cons, hnode, hlocked, thisNode, thisNode, fld_congr hreg, hrt]
    exact ⟨rfl, rfl⟩

theorem putNodeId_writes {v : W64} {p : Pkg} (h : p.rt.nodeLocked = false) :
    thisNode (putNodeId v p) = bitsOf v 13 0 ∧ (putNodeId v p).rt.nodeLocked = true := by
  unfold putNodeId
  dsimp only
  rw [if_neg (Bool.eq_false_iff.mp h)]
  generalize hq : ({ setReg p (key pgRt 0x104) (BitVec.ofNat 64 (bitsOf v 13 0)) with rt := { p.rt with nodeLocked := true } } : Pkg) = q
  obtain ⟨hnode, hlocked⟩ := foldl_tryAdmit_node (List.range 6) q
  have hreg : reg q (key pgRt 0x104) = BitVec.ofNat 64 (bitsOf v 13 0) := by
    rw [← hq]
    exact reg_setReg_self _ _ _
  have hlt : bitsOf v 13 0 < 16384 := Nat.mod_lt _ (by decide)
  have hread : bitsOf (BitVec.ofNat 64 (bitsOf v 13 0) : W64) 13 0 = bitsOf v 13 0 := by
    generalize bitsOf v 13 0 = n at *
    rw [bitsOf, BitVec.toNat_ofNat, Nat.shiftRight_zero]
    omega
  refine ⟨?_, ?_⟩
  · rw [hnode, thisNode, fld, hreg, hread]
  · rw [hlocked, ← hq]

theorem putGroup_free {g word : Nat} {v : W64} {p : Pkg} (h : groupBusy p g = false) {k : Nat} (hk : k = key (groupPage g) (groupOff g word)) :
    reg (putGroup g word v p) k = mergeWrite (rw8 0x100 (if word % 2 = 0 then msk 63 63 + msk 61 48 + msk 45 32 + msk 29 16 + msk 13 0
      else msk 25 16 + msk 9 0)) (reg p k) v := by
  subst hk
  unfold putGroup
  dsimp only
  rw [if_neg (Bool.eq_false_iff.mp h), reg_setReg_self]

theorem putGroup_first {g : Nat} {v : W64} {p : Pkg} (h : groupBusy p g = false) {k : Nat} (hk : k = key (groupPage g) (groupOff g 0)) :
    fld (putGroup g 0 v p) k 63 63 = bitsOf v 63 63 ∧ fld (putGroup g 0 v p) k 61 48 = bitsOf v 61 48 ∧
      fld (putGroup g 0 v p) k 45 32 = bitsOf v 45 32 ∧ fld (putGroup g 0 v p) k 29 16 = bitsOf v 29 16 ∧
      fld (putGroup g 0 v p) k 13 0 = bitsOf v 13 0 := by
  rw [fld, fld, fld, fld, fld, putGroup_free h hk]
  exact ⟨bitsOf_mergeWrite _ _ (by decide) rfl (by decide), bitsOf_mergeWrite _ _ (by decide) rfl (by decide),
    bitsOf_mergeWrite _ _ (by decide) rfl (by decide), bitsOf_mergeWrite _ _ (by decide) rfl (by decide),
    bitsOf_mergeWrite _ _ (by decide) rfl (by decide)⟩

theorem putGroup_second {g : Nat} {v : W64} {p : Pkg} (h : groupBusy p g = false) {k : Nat} (hk : k = key (groupPage g) (groupOff g 1)) :
    fld (putGroup g 1 v p) k 25 16 = bitsOf v 25 16 ∧ fld (putGroup g 1 v p) k 9 0 = bitsOf v 9 0 := by
  rw [fld, fld, putGroup_free h hk]
  exact ⟨bitsOf_mergeWrite _ _ (by decide) rfl (by decide), bitsOf_mergeWrite _ _ (by decide) rfl (by decide)⟩

/-- Settles O46. -/
theorem portsDrainAndTheRouterIsWritten : Obligations.PortsDrainAndTheRouterIsWritten := by
  refine ⟨fun s i hi => ⟨fun h => next_onPkg (doPortButtonPress_released h), fun hseen h hlast => ?_, fun hseen h hlast => ?_,
      fun hseen h => ?_, fun h => ?_, fun h ha => ?_, fun h hq hr ha hd => ?_, fun h hd => ?_, fun h => ⟨fun ht => ⟨?_, ?_⟩, fun ht => ?_⟩,
      fun x hx hle => ⟨_, rfl, rfl, doDrainRefusedFlashEnd_shows hi hx hle⟩⟩,
    fun s rq i v b hi hf hb => ?_, fun s i hi => ⟨fun hc ht => ?_, fun hc hd hl => ?_⟩, fun s rq v hf => ?_,
    fun s rq v hf => ⟨fun hfree => ?_, fun hlocked => ?_⟩,
    fun s rq g word k v hg hw hf hk => ⟨fun hfree => ?_, fun hbusy => ?_⟩⟩
  · have hpress := (doPortButtonPress_seen hi hseen).trans (press_drains h hlast)
    have hpace : (raiseBlock s.pkg (pgPl i) 2).pace = s.pkg.pace := (raiseBlock_only _ _ _).log.pace_eq
    obtain ⟨hat, -⟩ := enterDrain_port (raiseBlock s.pkg (pgPl i) 2) i false
    exact ⟨_, next_onPkg hpress, rfl, enterDrain_state _ _ _, hat.trans (by rw [hpace]), rfl⟩
  · exact ⟨_, next_onPkg (doPortButtonPress_seen hi hseen), rfl, pressRefused_shows h hlast⟩
  · have hpress := (doPortButtonPress_seen hi hseen).trans (press_drained h)
    exact ⟨_, next_onPkg hpress, rfl, plState_setPlState _ _ (by decide)⟩
  · obtain ⟨-, hanswered⟩ := enterDrain_port s.pkg i true
    exact ⟨_, next_onPkg (doDrain_enters hi h), rfl, enterDrain_state _ _ _, hanswered, rfl⟩
  · exact ⟨_, next_onPkg (doDrainFlitRepeat_sends hi h ha), rfl, rfl⟩
  · exact ⟨_, next_onPkg (doPortDrained_ends hi h hq hr ha hd), rfl, plState_setPlState _ _ (by decide)⟩
  · refine ⟨_, next_onPkg (doDrainTimeout_ends hi h hd), rfl, plState_setPlState _ _ (by decide), ?_⟩
    rw [port_setPlState, returnMessages_port]
  · have hdraining := draining_of_state hi h
    exact ⟨_, rfl, rfl, cancelDrain_trained hdraining ht, mem_out_cancelDrain hdraining⟩
  · exact ⟨_, next_onPkg (if_pos (draining_of_state hi h)), rfl, undrain_trained ht⟩
  · exact ⟨_, rfl, rfl, cancelDrain_untrained (draining_of_state hi h) ht⟩
  · subst hb
    have hwrite : doPlControl rq i v s.pkg = putPlControl i (v.setWidth 64) s.pkg := (if_pos hi).trans (ifWrites_accepted _ hf)
    refine ⟨fun h0 h1 h2 h hlast => ?_, fun h0 h1 h2 h => ?_, fun h0 h1 h2 hwas => ?_⟩
    · exact ⟨_, next_onPkg (hwrite.trans (putPlControl_presses h0 h1 h2)), rfl, press_sameDisable h hlast⟩
    · exact ⟨_, next_onPkg (hwrite.trans (putPlControl_cancels h0 h1 h2)), rfl, cancel_sameDisable hi h⟩
    · refine ⟨_, next_onPkg (hwrite.trans (putPlControl_disables h0 h1 h2 hwas rfl)), rfl, disabled_down ?_ rfl⟩
      exact bit_setBit_self _ _ _ _ (by decide)
  · have hcable : cable (opsCable s.pkg i false) i = true := (bit_congr (opsCable_status _ _ _) _).trans hc
    have hstate : plState (opsCable s.pkg i false) i = plState s.pkg i := fld_congr (opsCable_status _ _ _) _ _
    have hport : port (opsCable s.pkg i false) i = port s.pkg i := by rw [port, opsCable_rt, ← port]
    exact ⟨_, next_onPkg (if_pos hi), rfl, cableOut_unplugs hcable (by rw [hstate, hport]; exact ht)⟩
  · have hcable : cable (opsCable s.pkg i true) i = false := (bit_congr (opsCable_status _ _ _) _).trans hc
    have hdis : plDisabled (opsCable s.pkg i true) i = false :=
      (bit_congr (opsCable_reg _ _ _ (by decide) (by decide) (pgPl_ne_pgOps i)) _).trans hd
    exact ⟨_, next_onPkg (if_pos hi), rfl, cableIn_trains hcable hdis (by rw [opsCable_seq, hl])⟩
  · exact ⟨_, next_onPkg (ifWrites_accepted _ hf), rfl, putBearing_shows _ _⟩
  · exact ⟨_, next_onPkg (ifWrites_accepted _ hf), rfl, putNodeId_writes hfree⟩
  · exact next_onPkg ((ifWrites_accepted _ hf).trans (if_pos hlocked))
  · refine ⟨_, next_onPkg ((if_pos hg).trans (ifWrites_accepted _ hf)), rfl, ?_, ?_⟩
    · rintro rfl
      exact putGroup_first hfree hk
    · rintro rfl
      exact putGroup_second hfree hk
  · exact next_onPkg ((if_pos hg).trans ((ifWrites_accepted _ hf).trans (if_pos hbusy)))

end Sys2Proof.Machine
end

section
/-! Optical ports train, carry flits and swap lanes (R543 to R562): the proof of O44. -/

namespace Sys2Proof.Machine

/-! ## Messages go out (R549, R550) -/

/-- Flits sent one after another. -/
theorem emitFlits_eq (i : Nat) (l : List (Nat × List Msg)) (p : Pkg) : l.foldl (fun q f => emitMsg q (.flit i f.1 f.2)) p =
    { p with out := (l.map (fun f => OutMsg.flit i f.1 f.2)).reverse ++ p.out } := by
  induction l generalizing p with
  | nil => rfl
  | cons f t ih =>
    rw [List.foldl_cons, ih, List.map_cons, List.reverse_cons, List.append_assoc]
    rfl

/-- What sending from port i's queue can change: the queue, the replay buffer and the counts of what was sent; from p to q every
message sent is sent still. -/
structure OnlySends (p q : Pkg) (i : Nat) : Prop where
  port : ∃ a b c d e f, port q i = { port p i with queued := a, nextSeq := b, replay := c, sentAt := d, sent := e, colTurn := f }
  reg : ∀ pg off, off < 0x1000 → off ≠ 0x128 → reg q (key pg off) = reg p (key pg off)
  rt : ∃ x, q.rt = { p.rt with ports := x }
  out : OutKept p q

theorem OnlySends.refl (p : Pkg) (i : Nat) : OnlySends p p i :=
  ⟨⟨_, _, _, _, _, _, rfl⟩, fun _ _ _ _ => rfl, ⟨_, rfl⟩, .refl p⟩

theorem OnlySends.trans {p q r : Pkg} {i : Nat} (h : OnlySends p q i) (g : OnlySends q r i) : OnlySends p r i := by
  obtain ⟨⟨_, _, _, _, _, _, hport⟩, hreg, ⟨_, hrt⟩, hout⟩ := h
  obtain ⟨⟨a, b, c, d, e, f, gport⟩, greg, ⟨x, grt⟩, gout⟩ := g
  refine ⟨⟨a, b, c, d, e, f, ?_⟩, fun pg off h1 h2 => (greg pg off h1 h2).trans (hreg pg off h1 h2), ⟨x, ?_⟩, hout.trans gout⟩
  · rw [gport, hport]
  · rw [grt, hrt]

theorem onlySends_sendOne (p : Pkg) (i : Nat) (m : Msg) : OnlySends p (sendOne p i m) i := by
  unfold sendOne
  dsimp only
  rw [emitFlits_eq]
  refine ⟨⟨_, _, _, _, _, _, port_setPort_self _ _ _⟩, fun pg off h1 h2 => ?_, ⟨_, rfl⟩, fun x hx => List.mem_append_right _ hx⟩
  exact (reg_setReg_ne _ _ (key_ne _ _ h1 (by decide) h2)).trans (reg_setPort _ _ _ _)

theorem onlySends_pump (fuel i : Nat) (p : Pkg) : OnlySends p (pump fuel i p) i := by
  induction fuel generalizing p with
  | zero => exact .refl p i
  | succ n ih =>
    unfold pump
    dsimp only
    split
    · split
      · split
        · exact (onlySends_sendOne _ _ _).trans (ih _)
        · exact .refl p i
      · exact .refl p i
    · exact .refl p i

theorem onlySends_pumpAll (p : Pkg) (i : Nat) : OnlySends p (pumpAll p i) i := onlySends_pump _ _ _

theorem OnlySends.state_eq {p q : Pkg} {i : Nat} (h : OnlySends p q i) : plState q i = plState p i :=
  fld_congr (h.reg (pgPl i) 0x100 (by decide) (by decide)) _ _

theorem OnlySends.trained_eq {p q : Pkg} {i : Nat} (h : OnlySends p q i) : (Machine.port q i).trained = (Machine.port p i).trained := by
  obtain ⟨_, _, _, _, _, _, hport⟩ := h.port
  rw [hport]

theorem OnlySends.taken_eq {p q : Pkg} {i : Nat} (h : OnlySends p q i) : (Machine.port q i).rx = (Machine.port p i).rx ∧
    (Machine.port q i).expect = (Machine.port p i).expect := by
  obtain ⟨_, _, _, _, _, _, hport⟩ := h.port
  rw [hport]
  exact ⟨rfl, rfl⟩

/-! ## Training (R543, R545) -/

section
variable {p : Pkg} {i badTx badRx node pport vmax vmin features rtt : Nat} (hi : i < 6) (hc : cable p i = true) (hd : plDisabled p i = false)
  (hl : p.seq.lasers = true) (hs : plState p i = 1 ∨ plState p i = 2 ∨ plState p i = 8)
include hi hc hd hl hs

theorem mayTrain : (decide (i < 6) && cable p i && !plDisabled p i && p.seq.lasers &&
    (plState p i == 1 || plState p i == stTraining || plState p i == stRetraining)) = true := by
  rw [decide_eq_true hi, hc, hd, hl]
  rcases hs with h | h | h <;> rw [h] <;> rfl

theorem doPortTraining_repeats (h : (goodLanes p i 0 badTx).length < 4 ∨ (goodLanes p i 1 badRx).length < 4) :
    doPortTraining i badTx badRx node pport vmax vmin features rtt p = setPlState p i 2 := by
  unfold doPortTraining
  dsimp only
  rw [if_pos (mayTrain hi hc hd hl hs), if_pos h]
  rfl

/-- The lanes that a training has laid, and the port's own CAP sent. -/
def lanesLaid (p : Pkg) (i badTx badRx : Nat) : Pkg :=
  emitMsg (syncWidths (layLanes (layLanes p i 0 (goodLanes p i 0 badTx)) i 1 (goodLanes p i 1 badRx)) i) (.cap i 1 1 0xF)

section
variable (ht : 4 ≤ (goodLanes p i 0 badTx).length) (hr : 4 ≤ (goodLanes p i 1 badRx).length)
include ht hr

theorem doPortTraining_incompatible (h : vmax = 0 ∨ 1 < vmin) :
    doPortTraining i badTx badRx node pport vmax vmin features rtt p = setPlState (lanesLaid p i badTx badRx) i 7 := by
  unfold doPortTraining
  dsimp only
  rw [if_pos (mayTrain hi hc hd hl hs), if_neg (by omega), if_pos (by omega)]
  rfl

theorem doPortTraining_trains (h1 : 1 ≤ vmax) (h2 : vmin ≤ 1) : doPortTraining i badTx badRx node pport vmax vmin features rtt p =
    pumpAll (tryAdmit (setPlState (freshLink (lanesLaid p i badTx badRx) i node pport vmax (min 1 vmax) features rtt) i stTrained) i) i := by
  unfold doPortTraining
  dsimp only
  rw [if_pos (mayTrain hi hc hd hl hs), if_neg (by omega), if_neg (by omega)]
  rfl
end
end

theorem freshLink_partner (p : Pkg) (i node pport vmax common features rtt : Nat) :
    reg (freshLink p i node pport vmax common features rtt) (key (pgPl i) 0x108) =
      BitVec.ofNat 64 (2 ^ 31 + pport % 8 * 2 ^ 16 + node % 16384) := by
  unfold freshLink
  dsimp only
  rw [reg_setPort, reg_setReg_ne _ _ (key_ne _ _ (by decide) (by decide) (by decide)),
    reg_setReg_ne _ _ (key_ne _ _ (by decide) (by decide) (by decide)), reg_setReg_self]

theorem partner_fields (node pport : Nat) : bitsOf (BitVec.ofNat 64 (2 ^ 31 + pport % 8 * 2 ^ 16 + node % 16384)) 13 0 = node % 16384 ∧
    bitsOf (BitVec.ofNat 64 (2 ^ 31 + pport % 8 * 2 ^ 16 + node % 16384)) 18 16 = pport % 8 := by
  unfold bitsOf
  rw [BitVec.toNat_ofNat, Nat.shiftRight_eq_div_pow, Nat.shiftRight_eq_div_pow]
  omega

/-- A link that has trained: the state, the link, and the partner's node and port. -/
theorem trained_shows (p : Pkg) (i node pport vmax common features rtt : Nat) {q : Pkg}
    (hq : q = pumpAll (tryAdmit (setPlState (freshLink p i node pport vmax common features rtt) i stTrained) i) i) :
    (plState q i = 3 ∨ plState q i = 4) ∧ (port q i).trained = true ∧ fld q (key (pgPl i) 0x108) 13 0 = node % 16384 ∧
      fld q (key (pgPl i) 0x108) 18 16 = pport % 8 := by
  subst hq
  generalize hl : freshLink p i node pport vmax common features rtt = l
  have hsend := onlySends_pumpAll (tryAdmit (setPlState l i stTrained) i) i
  have hs : key (pgPl i) 0x108 ≠ plStatus i := key_ne _ _ (by decide) (by decide) (by decide)
  have ha : key (pgPl i) 0x108 ≠ key pgRt 0x130 := key_ne _ _ (by decide) (by decide) (by decide)
  have hreg : reg (pumpAll (tryAdmit (setPlState l i stTrained) i) i) (key (pgPl i) 0x108) =
      BitVec.ofNat 64 (2 ^ 31 + pport % 8 * 2 ^ 16 + node % 16384) := by
    rw [hsend.reg _ _ (by decide) (by decide), reg_tryAdmit _ _ (by decide) (by decide) hs ha,
      reg_setPlState _ _ _ (by decide) (by decide) hs ha, ← hl, freshLink_partner]
  have htrained : (port l i).trained = true := by
    rw [← hl, freshLink, port_setPort_self]
  obtain ⟨x, hport⟩ := port_tryAdmit (setPlState l i stTrained) i
  rw [fld, fld, hreg, hsend.state_eq, hsend.trained_eq, hport]
  refine ⟨tryAdmit_state (plState_setPlState _ _ (by decide)), ?_, partner_fields node pport⟩
  rw [port_setPlState, htrained]

/-! ## Flits, replays and credits (R549 to R552) -/

section
variable {p : Pkg} {i : Nat} {f : Flit} (h : linkUp p i = true)
include h

theorem doFlitReceive_bad : doFlitReceive i f false p =
    emitMsg (bumpReg (setPort p i { port p i with lastRx := p.pace.datum }) (key (pgPl i) 0x13C) 1 0xFFFFFFFF)
      (.ackNak i true (((port p i).expect + 65535) % 65536)) := by
  unfold doFlitReceive
  rw [if_pos h]
  rfl

theorem doFlitReceive_good (ha : f.ackNak = 0) (hc : f.crValid = false) : doFlitReceive i f true p =
    pumpAll (takeFlit (setPort p i { port p i with lastRx := p.pace.datum }) i f) i := by
  have hup : linkUp (setPort p i { port p i with lastRx := p.pace.datum }) i = true := by
    rw [linkUp, port_setPort_self, ← h]
    rfl
  unfold doFlitReceive
  extract_lets x p0 p1 p2 p3
  have h1 : p1 = p0 := if_pos ha
  have h2 : p2 = p0 := (if_neg (by rw [ha]; decide)).trans h1
  have h3 : p3 = p0 := (if_neg (Bool.eq_false_iff.mp hc)).trans h2
  rw [if_pos h, if_neg (by decide), h3, if_pos hup]
end

theorem takeFlit_next {p : Pkg} {i : Nat} {f : Flit} (hk : f.kind = 1) (hseq : f.seq = (port p i).expect) :
    (port (takeFlit p i f) i).rx = (port p i).rx ++ f.slots ∧
      (port (takeFlit p i f) i).expect = ((port p i).expect + 1) % 65536 := by
  have hport : port (takeFlit p i f) i = { port p i with
      expect := ((port p i).expect + 1) % 65536
      accepted := (port p i).accepted + 1
      firstAt := if (port p i).accepted = 0 then p.pace.datum else (port p i).firstAt
      rx := (port p i).rx ++ f.slots } := by
    unfold takeFlit
    dsimp only
    rw [if_pos ⟨hk, hseq⟩]
    exact port_setPort_self _ _ _
  rw [hport]
  exact ⟨rfl, rfl⟩

theorem takeFlit_other {p : Pkg} {i : Nat} {f : Flit} (hseq : f.seq ≠ (port p i).expect) : takeFlit p i f = p :=
  if_neg fun h => hseq h.2

section
variable {p : Pkg} {i : Nat} {f : Flit}

/-- A good flit with the next SEQ, on a link that has just been heard. -/
theorem heard_next (hk : f.kind = 1) (hseq : f.seq = (port p i).expect) :
    (port (pumpAll (takeFlit (setPort p i { port p i with lastRx := p.pace.datum }) i f) i) i).rx = (port p i).rx ++ f.slots ∧
      (port (pumpAll (takeFlit (setPort p i { port p i with lastRx := p.pace.datum }) i f) i) i).expect =
        ((port p i).expect + 1) % 65536 := by
  have hport := port_setPort_self p i { port p i with lastRx := p.pace.datum }
  generalize setPort p i { port p i with lastRx := p.pace.datum } = q at *
  obtain ⟨hrx, hexpect⟩ := (onlySends_pumpAll (takeFlit q i f) i).taken_eq
  obtain ⟨hrx', hexpect'⟩ := takeFlit_next (p := q) (i := i) hk (by rw [hport, hseq])
  rw [hrx, hexpect, hrx', hexpect', hport]
  exact ⟨rfl, rfl⟩

/-- A good flit with another SEQ is discarded. -/
theorem heard_other (hseq : f.seq ≠ (port p i).expect) :
    (port (pumpAll (takeFlit (setPort p i { port p i with lastRx := p.pace.datum }) i f) i) i).rx = (port p i).rx ∧
      (port (pumpAll (takeFlit (setPort p i { port p i with lastRx := p.pace.datum }) i f) i) i).expect = (port p i).expect := by
  have hport := port_setPort_self p i { port p i with lastRx := p.pace.datum }
  generalize setPort p i { port p i with lastRx := p.pace.datum } = q at *
  obtain ⟨hrx, hexpect⟩ := (onlySends_pumpAll (takeFlit q i f) i).taken_eq
  rw [hrx, hexpect, takeFlit_other (p := q) (by rw [hport]; exact hseq), hport]
  exact ⟨rfl, rfl⟩
end

/-- A port whose replay goes out. -/
def replaying (p : Pkg) (i : Nat) : Pkg :=
  { bumpReg (setPort p i { port p i with tries := (port p i).tries + 1, sentAt := timerNow p }) (key (pgPl i) 0x138) 1 0xFFFFFFFF with
    out := ((port p i).replay.map (fun f => OutMsg.flit i f.1 f.2)).reverse ++ p.out }

theorem replayFlits_eq {p : Pkg} {i : Nat} (h : (port p i).replay ≠ []) :
    replayFlits p i = if 8 ≤ (port p i).tries + 1 then linkDown (replaying p i) i 1 else replaying p i := by
  have hsome : ¬ (port p i).replay.isEmpty = true := fun he => h (List.isEmpty_iff.mp he)
  unfold replayFlits
  dsimp only
  rw [if_neg hsome, emitFlits_eq]
  rfl

theorem replaying_port (p : Pkg) (i : Nat) :
    port (replaying p i) i = { port p i with tries := (port p i).tries + 1, sentAt := timerNow p } := port_setPort_self _ _ _

theorem replayFlits_sends {p : Pkg} {i : Nat} (h : (port p i).replay ≠ []) (ht : (port p i).tries + 1 < 8) :
    (port (replayFlits p i) i).replay = (port p i).replay ∧
      (replayFlits p i).out = ((port p i).replay.map (fun f => OutMsg.flit i f.1 f.2)).reverse ++ p.out := by
  rw [replayFlits_eq h, if_neg (by omega), replaying_port]
  exact ⟨rfl, rfl⟩

theorem replayFlits_fails {p : Pkg} {i : Nat} (h : (port p i).replay ≠ []) (ht : (port p i).tries + 1 = 8) :
    linkUp (replayFlits p i) i = false := by
  rw [replayFlits_eq h, if_pos (by omega), linkDown_linkUp]

theorem ackTo_out (p : Pkg) (i ack : Nat) : (ackTo p i ack).out = p.out := by
  unfold ackTo
  dsimp only
  split <;> rfl

theorem trained_of_linkUp {p : Pkg} {i : Nat} (h : linkUp p i = true) : (port p i).trained = true := by
  rw [linkUp, Bool.and_eq_true] at h
  exact h.2

theorem linkDown_downAt {p : Pkg} {i : Nat} (h : linkUp p i = true) (cause : Nat) :
    (port (linkDown p i cause) i).downAt = some p.pace.datum := by
  rw [linkDown_port]
  exact if_pos (trained_of_linkUp h)

theorem returnMessages_inject (p : Pkg) (i : Nat) : (returnMessages p i).rt.inject = p.rt.inject ++
    ((port p i).replay.flatMap (·.2) ++ (port p i).queued).map (fun (m : Msg) => { m with replayed := true }) := by
  rw [List.map_append]
  rfl

/-! ## Lanes (R556 to R558) -/

theorem syncWidths_reg (p : Pkg) (i : Nat) {k : Nat} (h : k ≠ key (pgPl i) 0x100) : reg (syncWidths p i) k = reg p k := by
  unfold syncWidths
  dsimp only
  rw [setBit, setBit, reg_setFld_ne _ _ _ _ h, reg_setFld_ne _ _ _ _ h, reg_setFld_ne _ _ _ _ h, reg_setFld_ne _ _ _ _ h]

/-- A lane carries nothing in a direction, and is not its spare. -/
def LaneGone (p : Pkg) (i dir lane : Nat) : Prop := bit p (lanesKey i dir) lane = false ∧ fld p (lanesKey i dir) 21 18 ≠ lane

theorem LaneGone.congr {p q : Pkg} {i dir lane : Nat} (h : LaneGone p i dir lane) (hreg : reg q (lanesKey i dir) = reg p (lanesKey i dir)) :
    LaneGone q i dir lane := by
  obtain ⟨hbit, hspare⟩ := h
  exact ⟨(bit_congr hreg _).trans hbit, by rwa [fld_congr hreg]⟩

/-- The lane's register without the lane. -/
def laneCleared (p : Pkg) (k lane : Nat) (spare : Nat) : Pkg :=
  if spare = lane then setFld (setBit p k lane false) k 21 18 15 else setBit p k lane false

theorem laneCleared_gone {p : Pkg} {i dir lane spare : Nat} (hl : lane < 9) (hs : spare = fld p (lanesKey i dir) 21 18) :
    LaneGone (laneCleared p (lanesKey i dir) lane spare) i dir lane := by
  have hclear : bit (setBit p (lanesKey i dir) lane false) (lanesKey i dir) lane = false := bit_setBit_self _ _ _ _ (by omega)
  unfold LaneGone laneCleared
  split
  case isTrue =>
    rw [fld_setFld_self _ _ _ _ _ (by decide) (by decide), bit_setFld_beside _ _ _ _ _ _ (by decide) (by decide) (by omega)]
    exact ⟨hclear, by omega⟩
  case isFalse h =>
    rw [setBit, fld_setFld_beside _ _ _ _ _ _ _ (by omega) (by omega) (by decide) (by omega), ← setBit, ← hs]
    exact ⟨hclear, h⟩

theorem laneCleared_others (p : Pkg) (k : Nat) {lane l : Nat} (spare : Nat) (hlane : lane < 9) (hl : l < 9) (hne : l ≠ lane) :
    bit (laneCleared p k lane spare) k l = bit p k l := by
  have hkept : bit (setBit p k lane false) k l = bit p k l := bit_setBit_beside _ _ _ _ _ (by omega) hne
  unfold laneCleared
  split
  · rw [bit_setFld_beside _ _ _ _ _ _ (by decide) (by decide) (by omega), hkept]
  · exact hkept

section
variable {i dir : Nat} (hdir : dir < 2)
include hdir

theorem lanesKey_ne_status : lanesKey i dir ≠ key (pgPl i) 0x100 := key_ne _ _ (by omega) (by decide) (by omega)

theorem reg_synced (p : Pkg) : reg (raiseBlock (syncWidths p i) (pgPl i) 1) (lanesKey i dir) = reg p (lanesKey i dir) := by
  have hraise : reg (raiseBlock (syncWidths p i) (pgPl i) 1) (lanesKey i dir) = reg (syncWidths p i) (lanesKey i dir) :=
    raiseBlock_reg_own _ _ _ _ (by omega) (by omega)
  rw [hraise, syncWidths_reg _ _ (lanesKey_ne_status hdir)]

theorem dropLane_reg (p : Pkg) (lane : Nat) : reg (dropLane p i dir lane) (lanesKey i dir) =
    reg (laneCleared p (lanesKey i dir) lane (fld p (lanesKey i dir) 21 18)) (lanesKey i dir) := by
  generalize hq : raiseBlock (syncWidths (laneCleared p (lanesKey i dir) lane (fld p (lanesKey i dir) 21 18)) i) (pgPl i) 1 = q
  have heq : dropLane p i dir lane = if linkUp q i && decide (laneWidth q i dir < 4) then linkDown q i 0 else q := by
    rw [← hq]
    rfl
  have hdown : reg (linkDown q i 0) (lanesKey i dir) = reg q (lanesKey i dir) :=
    linkDown_reg _ _ _ (by omega) (by omega) (by omega) (by omega) (by omega)
  have hkept : reg q (lanesKey i dir) = reg (laneCleared p (lanesKey i dir) lane (fld p (lanesKey i dir) 21 18)) (lanesKey i dir) := by
    rw [← hq, reg_synced hdir]
  rw [heq]
  split
  · rw [hdown, hkept]
  · exact hkept

theorem dropLane_gone (p : Pkg) {lane : Nat} (hl : lane < 9) : LaneGone (dropLane p i dir lane) i dir lane :=
  (laneCleared_gone hl rfl).congr (dropLane_reg hdir p lane)

/-- A retirement of the lane leaves it out of use as well (R558). -/
theorem laneOut_gone (p : Pkg) {lane : Nat} (hl : lane < 9) : LaneGone (laneOut p (2 * i + dir) lane) i dir lane := by
  have hport : (2 * i + dir) / 2 = i := by omega
  have hdirection : (2 * i + dir) % 2 = dir := by omega
  have hout : laneOut p (2 * i + dir) lane = logErr (raiseBlock (syncWidths (laneCleared (setBit p (lanesKey i dir) (9 + lane) true)
      (lanesKey i dir) lane (fld p (lanesKey i dir) 21 18)) i) (pgPl i) 1) (pgPl i) ⟨0x63, 0, 0, 0, lane + 16 * dir⟩ := by
    unfold laneOut
    rw [hport, hdirection]
    rfl
  have hspare : fld p (lanesKey i dir) 21 18 = fld (setBit p (lanesKey i dir) (9 + lane) true) (lanesKey i dir) 21 18 :=
    (fld_setFld_beside _ _ _ _ _ _ _ (by omega) (by omega) (by decide) (by omega)).symm
  refine (laneCleared_gone hl hspare).congr ?_
  rw [hout]
  exact (logErr_reg_own _ _ _ _ (by omega) (by omega)).trans (reg_synced hdir _)
end

/-! The surveyor's request at the threshold judges the lane's retirement, and takes it out of use where its limit is used up. -/

section
variable {i dir : Nat} (hi : i < 6) (hdir : dir < 2)
include hi hdir

theorem lane_reg_congr {p q : Pkg} (hr : q.regs = p.regs) (hs : q.standalone = p.standalone) :
    reg q (lanesKey i dir) = reg p (lanesKey i dir) := by
  have hdiv : lanesKey i dir / 0x1000 = pgPl i := by
    unfold lanesKey key
    omega
  have hclass : classOf (pgPl i) = 9 := by
    have hall : ∀ j, j < 6 → classOf (pgPl j) = 9 := by decide
    exact hall i hi
  exact reg_congr_unfused hr hs (by rw [hdiv, hclass]; decide)

theorem lanesKey_ne_fieldBook {off : Nat} (ho : off < 0x1000) : lanesKey i dir ≠ key pgFb off :=
  key_ne_page (by omega) ho (by unfold pgPl pgFb; omega)

theorem fbEnd_lane (p : Pkg) {r : FbReq} (reject entry : Nat) (h : r.mbox = 0) :
    reg (fbEnd p r reject entry) (lanesKey i dir) = reg p (lanesKey i dir) := by
  simp only [fbEnd, h, if_true]
  have hfuse (q : Pkg) (f : FuseSt) : reg { q with fuse := f } (lanesKey i dir) = reg q (lanesKey i dir) := lane_reg_congr hi hdir rfl rfl
  have hraise (q : Pkg) : reg (raiseBlock q pgFb 0) (lanesKey i dir) = reg q (lanesKey i dir) :=
    raiseBlock_reg_own _ _ _ _ (by omega) (by omega)
  have hresult : lanesKey i dir ≠ fbResult := lanesKey_ne_fieldBook hi hdir (by decide)
  rw [hfuse, hraise, reg_setReg_ne _ _ hresult]

theorem LaneGone.served {p : Pkg} {lane : Nat} {r : FbReq} (hl : lane < 9) (hp : p.fuse.requests = [r])
    (hr : r = ⟨3, 1, 1, 2 * i + dir, lane, 0⟩) (h : LaneGone p i dir lane) : LaneGone (fbServe 1 p) i dir lane := by
  have hmbox : r.mbox = 0 := by rw [hr]
  unfold fbServe
  simp only [hp]
  split
  case h_1 c _ =>
    rw [fbServe]
    refine LaneGone.congr ?_ (fbEnd_lane hi hdir _ c 0 hmbox)
    unfold fbRejected
    split
    · rw [hr]
      exact laneOut_gone hdir p hl
    · exact h
  case h_2 =>
    rw [fbServe]
    exact h.congr (fbEnd_lane hi hdir _ 0 0 hmbox)
  case h_3 =>
    have hresult : lanesKey i dir ≠ fbResult := lanesKey_ne_fieldBook hi hdir (by decide)
    split
    · exact h
    · refine h.congr ?_
      rw [setBit, setBit, reg_setFld_ne _ _ _ _ hresult, reg_setFld_ne _ _ _ _ hresult]
      exact lane_reg_congr hi hdir rfl rfl

theorem LaneGone.requested {p : Pkg} {lane : Nat} (hl : lane < 9) (h : LaneGone p i dir lane) :
    LaneGone (surveyorRequest p 3 1 (2 * i + dir) lane) i dir lane := by
  have hset : LaneGone (setReg p fbAttribute 0x100) i dir lane := h.congr (reg_setReg_ne _ _ (lanesKey_ne_fieldBook hi hdir (by decide)))
  have hfuse {q : Pkg} (f : FuseSt) (g : LaneGone q i dir lane) : LaneGone { q with fuse := f } i dir lane :=
    g.congr (lane_reg_congr hi hdir rfl rfl)
  unfold surveyorRequest fbEnqueue
  dsimp only
  split
  case isTrue hc =>
    obtain ⟨hempty, -⟩ := Bool.and_eq_true_iff.1 hc
    have hnil := List.isEmpty_iff.1 hempty
    refine LaneGone.served hi hdir hl (r := ⟨3, 1, 1, 2 * i + dir, lane, 0⟩) ?_ rfl (hfuse _ hset)
    simp only [hnil, List.nil_append]
  case isFalse => exact hfuse _ hset
end

theorem doLaneLockLoss_drops {p : Pkg} {i dir lane : Nat} (hi : i < 6) (hdir : dir < 2) (hl : lane < 9)
    (h : bit p (lanesKey i dir) lane = true ∨ fld p (lanesKey i dir) 21 18 = lane) : LaneGone (doLaneLockLoss i dir lane p) i dir lane := by
  unfold doLaneLockLoss
  dsimp only
  rw [if_pos ⟨hi, hdir, hl, h⟩]
  split
  · exact (dropLane_gone hdir _ hl).requested hi hdir hl
  · exact dropLane_gone hdir _ hl

theorem addLane_reg {i dir : Nat} (hdir : dir < 2) (p : Pkg) (lane : Nat) : bit (addLane p i dir lane) (lanesKey i dir) lane =
    bit (if fld p (lanesKey i dir) 21 18 = lane then setFld (setBit p (lanesKey i dir) lane true) (lanesKey i dir) 21 18 15
      else setBit p (lanesKey i dir) lane true) (lanesKey i dir) lane := bit_congr (reg_synced hdir _) _

theorem addLane_adds {i dir lane : Nat} (hdir : dir < 2) (hl : lane < 9) (p : Pkg) :
    bit (addLane p i dir lane) (lanesKey i dir) lane = true := by
  have hset : bit (setBit p (lanesKey i dir) lane true) (lanesKey i dir) lane = true := bit_setBit_self _ _ _ _ (by omega)
  rw [addLane_reg hdir]
  split
  · rw [bit_setFld_beside _ _ _ _ _ _ (by decide) (by decide) (by omega), hset]
  · exact hset

section
variable {p : Pkg} {i dir lane : Nat} (hup : linkUp p i = true) (hdir : dir < 2) (hl : lane < 9) (hfree : bit p (lanesKey i dir) lane = false)
  (hin : bit p (lanesKey i dir) (9 + lane) = false)
include hup hdir hl hfree hin

theorem doLaneAdd_adds (hon : laneAddOn p i = true) (hw : laneWidth p i dir < 8) : doLaneAdd i dir lane p = addLane p i dir lane := by
  refine if_pos ?_
  rw [hup, hon, hfree, hin, decide_eq_true hw, decide_eq_true ⟨hdir, hl⟩]
  rfl

theorem mayRelock : (linkUp p i && decide (dir < 2 ∧ lane < 9) && !bit p (lanesKey i dir) lane && !bit p (lanesKey i dir) (9 + lane)) = true := by
  rw [hup, hfree, hin, decide_eq_true ⟨hdir, hl⟩]
  rfl

theorem doLaneRelock_adds (hon : laneAddOn p i = true) (hw : laneWidth p i dir < 8) :
    doLaneRelock i dir lane p = addLane (emitMsg p (.laneAdd i dir lane)) i dir lane := by
  unfold doLaneRelock
  dsimp only
  rw [if_pos (mayRelock hup hdir hl hfree hin), if_pos hw, if_pos hon]

theorem doLaneRelock_spares (hw : 8 ≤ laneWidth p i dir) : fld (doLaneRelock i dir lane p) (lanesKey i dir) 21 18 = lane ∧
    bit (doLaneRelock i dir lane p) (lanesKey i dir) lane = false := by
  unfold doLaneRelock
  dsimp only
  rw [if_pos (mayRelock hup hdir hl hfree hin), if_neg (by omega), fld_congr (reg_synced hdir _), bit_congr (reg_synced hdir _),
    fld_setFld_self _ _ _ _ _ (by decide) (by decide), bit_setFld_beside _ _ _ _ _ _ (by decide) (by decide) (by omega)]
  exact ⟨by omega, hfree⟩
end

theorem outKept_addLane (p : Pkg) (i dir lane : Nat) : OutKept p (addLane p i dir lane) := by
  unfold addLane
  dsimp only
  refine OutKept.trans (outKept_of_eq ?_) (outKept_raiseBlock _ _ _)
  split <;> rfl

/-- Settles O44. -/
theorem portsTrainCarryFlitsAndSwapLanes : Obligations.PortsTrainCarryFlitsAndSwapLanes := by
  refine ⟨⟨fun s i badTx badRx node pport vmax vmin features rtt tx rx hi hc hd hl hs htx hrx => ?_, fun s i f h => ?_,
      fun s i ack x h hx hne ht => ?_, fun s i x h hx hne hlate => ?_, fun s i h hn => ?_, fun s i cls vc k h hcls hvc hk => ?_,
      fun s i h => ?_, fun s i since hi hat hdown hlate => ?_⟩,
    fun s i dir lane hi hdir hl h => ⟨_, rfl, rfl, doLaneLockLoss_drops hi hdir hl h⟩, fun s i lane h hl hb => ?_,
    fun s i dir lane h hdir hl hfree hin => ?_⟩
  · subst htx hrx
    refine ⟨fun ht hr h1 h2 => ?_, fun h => ?_, fun ht hr h => ?_⟩
    · exact ⟨_, next_onPkg (doPortTraining_trains hi hc hd hl hs ht hr h1 h2), rfl, trained_shows _ _ _ _ _ _ _ _ rfl⟩
    · exact ⟨_, next_onPkg (doPortTraining_repeats hi hc hd hl hs h), rfl, plState_setPlState _ _ (by decide)⟩
    · exact ⟨_, next_onPkg (doPortTraining_incompatible hi hc hd hl hs ht hr h), rfl, plState_setPlState _ _ (by decide)⟩
  · refine ⟨⟨_, next_onPkg (doFlitReceive_bad h), rfl, ?_, rfl⟩, fun hk hseq ha hc => ?_, fun hk hseq ha hc => ?_⟩
    · exact (congrArg PortSt.rx (port_setPort_self s.pkg i { port s.pkg i with lastRx := s.pkg.pace.datum }) :)
    · exact ⟨_, next_onPkg (doFlitReceive_good h ha hc), rfl, heard_next hk hseq⟩
    · exact ⟨_, next_onPkg (doFlitReceive_good h ha hc), rfl, heard_other hseq⟩
  · subst hx
    obtain ⟨hreplay, hout⟩ := replayFlits_sends hne ht
    exact ⟨_, next_onPkg (if_pos h), rfl, hreplay, hout.trans (by rw [ackTo_out])⟩
  · subst hx
    have hreplays : doReplayTimeout i s.pkg = replayFlits s.pkg i := if_pos (by rw [h, decide_eq_true hlate]; rfl)
    exact ⟨fun ht => ⟨_, next_onPkg hreplays, rfl, replayFlits_sends hne ht⟩,
      fun ht => ⟨_, next_onPkg hreplays, rfl, replayFlits_fails hne ht⟩⟩
  · have hacks : doAckSend i s.pkg = emitMsg (setPort s.pkg i { port s.pkg i with accepted := 0 })
        (.ackNak i false (((port s.pkg i).expect + 65535) % 65536)) := if_pos (by rw [h, decide_eq_true hn]; rfl)
    exact ⟨_, next_onPkg hacks, rfl, (congrArg PortSt.accepted (port_setPort_self s.pkg i { port s.pkg i with accepted := 0 }) :), rfl⟩
  · subst hk
    exact ⟨_, next_onPkg (if_pos (by rw [h, decide_eq_true ⟨hcls, hvc⟩]; rfl)), rfl, rfl, rfl⟩
  · refine ⟨fun cause => ⟨_, next_onPkg (if_pos h), rfl, linkDown_linkUp _ _ _, linkDown_downAt h cause, linkDown_state _ _ _⟩,
      fun hlate => ⟨_, next_onPkg (if_pos (by rw [h, decide_eq_true hlate]; rfl)), rfl, linkDown_linkUp _ _ _, linkDown_state _ _ _⟩,
      fun hsoon => next_onPkg (if_neg ?_)⟩
    rw [Bool.and_eq_true, decide_eq_true_iff]
    omega
  · have hreturns : doPortUnusable i s.pkg = returnMessages s.pkg i := by
      unfold doPortUnusable
      rw [hat]
      exact if_pos ⟨hi, hdown, hlate⟩
    have hport := returnMessages_port s.pkg i
    exact ⟨_, next_onPkg hreturns, rfl, congrArg PortSt.queued hport, congrArg PortSt.replay hport, returnMessages_inject _ _⟩
  · have hdrops : doLaneDrop i lane s.pkg = dropLane s.pkg i 0 lane := if_pos (by rw [h, decide_eq_true hl, hb]; rfl)
    obtain ⟨hgone, -⟩ := dropLane_gone (i := i) (dir := 0) (by decide) s.pkg hl
    refine ⟨_, next_onPkg hdrops, rfl, hgone, fun l hl' hne => ?_⟩
    exact (bit_congr (dropLane_reg (by decide) _ _) _).trans (laneCleared_others _ _ _ hl hl' hne)
  · refine ⟨fun hw hon => ⟨?_, ?_⟩, fun hw => ⟨_, rfl, rfl, doLaneRelock_spares h hdir hl hfree hin hw⟩⟩
    · exact ⟨_, next_onPkg (doLaneAdd_adds h hdir hl hfree hin hon hw), rfl, addLane_adds hdir hl _⟩
    · exact ⟨_, next_onPkg (doLaneRelock_adds h hdir hl hfree hin hon hw), rfl, addLane_adds hdir hl _,
        outKept_addLane _ _ _ _ _ List.mem_cons_self⟩

end Sys2Proof.Machine
end

section
/-! Torus messages are routed, served and answered (R540, R548, R561, R563): the proof of O45. -/

namespace Sys2Proof.Machine

/-! ## Routing (R555, R561) -/

theorem pickPort_congr {p q : Pkg} (hport : ∀ i, port q i = port p i) (hstate : ∀ i, plState q i = plState p i) (hpace : q.pace = p.pace)
    (e : Nat) : pickPort q e = pickPort p e := by
  have husable (i : Nat) : usable q i = usable p i := by rw [usable, usable, hstate, hport, hpace]
  unfold pickPort
  simp only [husable]

theorem routeOn_here {p : Pkg} {inPort : Nat} {m : Msg} (h : m.dest = thisNode p) :
    routeOn p inPort m = { p with rt := { p.rt with arrived := p.rt.arrived ++ [m] } } := if_pos h

theorem routeOn_leaves {p : Pkg} {inPort i : Nat} {alt : Bool} {m : Msg} (h : m.dest ≠ thisNode p)
    (hpick : pickPort p (SMap.get p.rt.bearing m.dest 0x1FF) = some (i, alt)) (hhops : m.hops ≠ 0) :
    routeOn p inPort m = pumpAll (setPort p i { port p i with
      queued := (port p i).queued ++ [{ m with hops := m.hops - 1, vc := nextVc p inPort i alt m.vc }] }) i := by
  unfold routeOn
  rw [if_neg h, hpick]
  exact if_neg hhops

theorem routeOn_fails {p : Pkg} {inPort : Nat} {m : Msg} (h : m.dest ≠ thisNode p)
    (hnone : pickPort p (SMap.get p.rt.bearing m.dest 0x1FF) = none ∨ m.hops = 0) : routeOn p inPort m = undeliverable p m := by
  unfold routeOn
  rw [if_neg h]
  cases hpick : pickPort p (SMap.get p.rt.bearing m.dest 0x1FF) with
  | none => rfl
  | some x =>
    rcases hnone with hnone | hnone
    · rw [hpick] at hnone
      cases hnone
    · exact if_pos hnone

theorem slotsOf_pos (p : Pkg) (i : Nat) (m : Msg) : 0 < ceilDiv (slotsOf p i m) 3 := by
  unfold ceilDiv slotsOf
  omega

theorem onLink_congr {p q : Pkg} {i : Nat} (h : reg q (key (pgPl i) 0x10C) = reg p (key (pgPl i) 0x10C)) (m : Msg) :
    onLink q i m = onLink p i m := by rw [onLink, onLink, bit_congr h]

/-- A message waits at a port, or has gone out on its link. -/
def Leaves (p q : Pkg) (i : Nat) (x : Msg) : Prop :=
  x ∈ (port q i).queued ∨ ∃ seq ms, .flit i seq ms ∈ q.out ∧ onLink p i x ∈ ms

/-- The last of a message's flits carries it. -/
theorem flitsOf_last {n : Nat} (hn : 0 < n) (seq : Nat) (m : Msg) : ((seq + (n - 1)) % 65536, [m]) ∈ flitsOf seq n m := by
  refine List.mem_map.mpr ⟨n - 1, List.mem_range.mpr (by omega), ?_⟩
  rw [if_pos (by omega)]

theorem sendOne_queued (p : Pkg) (i : Nat) (m : Msg) : (port (sendOne p i m) i).queued = (port p i).queued.erase m := by
  unfold sendOne
  dsimp only
  rw [emitFlits_eq]
  exact congrArg PortSt.queued (port_setPort_self p i _)

theorem sendOne_sends (p : Pkg) (i : Nat) (m : Msg) : ∃ seq ms, .flit i seq ms ∈ (sendOne p i m).out ∧ onLink p i m ∈ ms := by
  unfold sendOne
  dsimp only
  rw [emitFlits_eq]
  exact ⟨_, _, List.mem_append_left _ (List.mem_reverse.mpr (List.mem_map_of_mem (flitsOf_last (slotsOf_pos p i m) _ _))),
    List.mem_singleton_self _⟩

theorem sendOne_leaves {p : Pkg} {i : Nat} {m x : Msg} (h : x ∈ (port p i).queued) : Leaves p (sendOne p i m) i x := by
  by_cases hx : x = m
  · rw [hx]
    exact .inr (sendOne_sends p i m)
  · refine .inl ?_
    rw [sendOne_queued]
    exact (List.mem_erase_of_ne hx).mpr h

theorem pump_leaves (fuel i : Nat) {p : Pkg} {x : Msg} (h : x ∈ (port p i).queued) : Leaves p (pump fuel i p) i x := by
  induction fuel generalizing p with
  | zero => exact .inl h
  | succ n ih =>
    unfold pump
    dsimp only
    split
    · split
      · rename_i m _
        split
        · have hsend := onlySends_sendOne p i m
          have hrest := onlySends_pump n i (sendOne p i m)
          rcases sendOne_leaves (m := m) h with hq | ⟨seq, ms, hout, hmem⟩
          · have hlink : onLink (sendOne p i m) i x = onLink p i x := onLink_congr (hsend.reg _ _ (by decide) (by decide)) _
            rcases ih hq with hq' | ⟨seq, ms, hout, hmem⟩
            · exact .inl hq'
            · exact .inr ⟨seq, ms, hout, hlink ▸ hmem⟩
          · exact .inr ⟨seq, ms, hrest.out _ hout, hmem⟩
        · exact .inl h
      · exact .inl h
    · exact .inl h

/-! A message of this node is routed. -/

/-- The router takes a message of this node. -/
def uninjected (p : Pkg) (m : Msg) : Pkg := { p with rt := { p.rt with inject := p.rt.inject.erase m } }

theorem reg_uninjected (p : Pkg) (m : Msg) (k : Nat) : reg (uninjected p m) k = reg p k := reg_congr rfl rfl rfl k

theorem thisNode_uninjected (p : Pkg) (m : Msg) : thisNode (uninjected p m) = thisNode p := fld_congr (reg_uninjected _ _ _) _ _

theorem pickPort_uninjected (p : Pkg) (m : Msg) (e : Nat) : pickPort (uninjected p m) e = pickPort p e :=
  pickPort_congr (q := uninjected p m) (p := p) (fun _ => rfl) (fun _ => fld_congr (reg_uninjected _ _ _) _ _) rfl e

theorem nextVc_congr {p q : Pkg} (h : ∀ k, reg q k = reg p k) (inPort out : Nat) (alt : Bool) (vc : Nat) :
    nextVc q inPort out alt vc = nextVc p inPort out alt vc := by
  have hwrap : wrapLink q out = wrapLink p out := by
    unfold wrapLink thisNode fld
    simp only [h]
  unfold nextVc
  rw [hwrap]

section
variable {p : Pkg} {port' : Nat} {m : Msg} (hport : 6 ≤ port') (hin : p.rt.inject.contains m = true)
include hport hin

theorem doRouteMessage_own : doRouteMessage port' m p = routeOn (uninjected p m) 6 m := by
  unfold doRouteMessage
  rw [if_neg (by omega), if_pos hin]
  rfl

theorem route_here (h : m.dest = thisNode p) : (doRouteMessage port' m p).rt =
    { p.rt with inject := p.rt.inject.erase m, arrived := p.rt.arrived ++ [m] } := by
  rw [doRouteMessage_own hport hin, routeOn_here (h.trans (thisNode_uninjected p m).symm)]
  rfl

theorem route_leaves {i : Nat} {alt : Bool} (h : m.dest ≠ thisNode p)
    (hpick : pickPort p (SMap.get p.rt.bearing m.dest 0x1FF) = some (i, alt)) (hhops : m.hops ≠ 0) {x : Msg}
    (hx : x = { m with hops := m.hops - 1, vc := nextVc p 6 i alt m.vc }) :
    (doRouteMessage port' m p).rt.inject = p.rt.inject.erase m ∧ Leaves p (doRouteMessage port' m p) i x := by
  have hroute := routeOn_leaves (p := uninjected p m) (inPort := 6) (m := m) (i := i) (alt := alt)
    (by rw [thisNode_uninjected]; exact h) ((pickPort_uninjected p m _).trans hpick) hhops
  rw [nextVc_congr (reg_uninjected p m), ← hx] at hroute
  generalize hq : setPort (uninjected p m) i { port (uninjected p m) i with queued := (port (uninjected p m) i).queued ++ [x] } = q at hroute
  have hqueued : x ∈ (port q i).queued := by
    rw [← hq, port_setPort_self]
    exact List.mem_append_right _ (List.mem_singleton_self x)
  have hinject : q.rt.inject = p.rt.inject.erase m := by rw [← hq]; rfl
  have hlink : onLink q i x = onLink p i x := by
    rw [← hq]
    exact onLink_congr ((reg_setPort _ _ _ _).trans (reg_uninjected _ _ _)) _
  rw [doRouteMessage_own hport hin, hroute]
  obtain ⟨y, hrt⟩ := (onlySends_pumpAll q i).rt
  refine ⟨by rw [hrt, hinject], ?_⟩
  rcases pump_leaves (port q i).queued.length i hqueued with hwaits | ⟨seq, ms, hout, hmem⟩
  · exact .inl hwaits
  · exact .inr ⟨seq, ms, hout, hlink ▸ hmem⟩

theorem route_fails (h : m.dest ≠ thisNode p) (hnone : pickPort p (SMap.get p.rt.bearing m.dest 0x1FF) = none ∨ m.hops = 0) :
    doRouteMessage port' m p = undeliverable (uninjected p m) m := by
  rw [doRouteMessage_own hport hin]
  refine routeOn_fails (by rw [thisNode_uninjected]; exact h) ?_
  rw [pickPort_uninjected]
  exact hnone
end

/-- A message that no port takes is counted, and reported to its source with cause 9. -/
theorem undeliverable_reports {p : Pkg} {m : Msg} (hop : m.op ≠ 8) :
    reg (undeliverable p m) (key pgRt 0x10C) = BitVec.ofNat 64 (satAdd 0xFFFFFFFF (regN p (key pgRt 0x10C)) 1) ∧
    ∃ x, (undeliverable p m).rt.inject = p.rt.inject ++ [x] ∧ x.dest = m.src ∧ bitsOf x.payload 15 0 = 0x901 := by
  unfold undeliverable
  dsimp only
  rw [if_neg fun h => hop h.1]
  generalize hq : raiseBlock (bumpReg p (key pgRt 0x10C) 1 0xFFFFFFFF) pgRt 0 = q
  have hnote := onlyNotes_raiseBlock (bumpReg p (key pgRt 0x10C) 1 0xFFFFFFFF) pgRt 0
  rw [hq] at hnote
  refine ⟨?_, svcMsg q m.src (reportItem q 9 m.window m.offset m.tag), ?_, rfl, ?_⟩
  · have hsent : reg (sendReport q m.src 9 m.window m.offset m.tag) (key pgRt 0x10C) = reg q (key pgRt 0x10C) := reg_congr rfl rfl rfl _
    rw [hsent, hnote.reg _ _ (by decide) (by decide), bumpReg, reg_setReg_self]
  · rw [sendReport, injectMsg]
    dsimp only
    rw [hnote.log.rt_eq]
    rfl
  · have hpayload : (svcMsg q m.src (reportItem q 9 m.window m.offset m.tag)).payload = reportItem q 9 m.window m.offset m.tag := rfl
    rw [hpayload, reportItem, bitsOf, BitVec.toNat_ofNat]
    omega

/-- A message for this node that comes in by a port arrives, and leaves the port. -/
theorem route_received {p : Pkg} {i : Nat} {m : Msg} (hi : i < 6) (hnext : nextRx (port p i) m = true) (hdest : m.dest = thisNode p) :
    (doRouteMessage i m p).rt.arrived = p.rt.arrived ++ [m] ∧ (port (doRouteMessage i m p) i).rx = (port p i).rx.erase m := by
  have hnode : thisNode (takeRx p i m) = thisNode p := fld_congr (reg_setPort _ _ _ _) _ _
  have hroute : doRouteMessage i m p = routeOn (takeRx p i m) i m := by
    unfold doRouteMessage
    rw [if_pos hi, if_pos hnext]
  rw [hroute, routeOn_here (hdest.trans hnode.symm)]
  exact ⟨rfl, congrArg PortSt.rx (port_setPort_self p i _)⟩

/-! ## Requests at their home (R548) -/

theorem homeRead_ready {p : Pkg} {pa : Nat} (cls hint : Nat) (wait : Option HomeReq) (h : (dirLine p (pa / 64)).host ≠ 2) :
    (homeRead p pa cls hint wait).1 = true := by
  unfold homeRead
  dsimp only
  rw [if_neg h]
  split <;> rfl

/-- A request that has been performed is answered, whatever its performance served. -/
theorem performed_answers {p q : Pkg} (hrt : q.rt = p.rt) (m : Msg) (op : Nat) (data : Item) (poison : Bool) :
    ∃ x, (performed q m op data poison).rt.inject = p.rt.inject ++ [x] ∧ x.op = op ∧ x.dest = m.src ∧ x.tag = m.tag ∧
      x.payload = data ∧ x.poison = poison := by
  rw [← hrt]
  exact ⟨_, rfl, rfl, rfl, rfl, rfl, rfl⟩

theorem onlyServes_homeTouch (p : Pkg) (pa who : Nat) : OnlyServes p (homeTouch p pa who) := by
  unfold homeTouch
  extract_lets p1
  have h1 : OnlyServes p p1 := by
    unfold p1
    split
    · exact (onlyReads_slmRead _ _ _ _ _).serves
    · exact (onlyReads_ddrRead _ _ _).serves
    · exact .refl p
  exact h1.trans (onlyServes_homeStore _ _ _ _)

theorem onlyServes_countAtSlice (p : Pkg) (pa off : Nat) : OnlyServes p (countAtSlice p pa off) := by
  unfold countAtSlice
  split
  · exact (onlyReads_addReg _ _ _).serves
  · exact .refl p

theorem landWrite_serves {s : State} {m : Msg} {pa : Nat} {whole : Bool} (f : Memory → Memory)
    (hfate : fateFor s.pkg (idNode m.src) pa whole = .served)
    (hhost : hostHolds s.pkg pa = false) : landWrite m pa whole f s =
      { s with mem := f s.mem, pkg := performed (homeWrite s.pkg pa false (idNode m.src)) m 6 0 false } := by
  unfold landWrite
  rw [hfate]
  exact if_neg (Bool.eq_false_iff.mp hhost)

section
variable {s : State} {m : Msg} {pa : Nat} (hat : landedAt s.pkg m = some pa)
include hat

theorem execProiladRd_serves (hop : m.op = 1) (hfate : fateFor s.pkg (idNode m.src) pa false = .served)
    (hhost : (dirLine s.pkg (pa / 64)).host ≠ 2) : ∃ q, OnlyServes s.pkg q ∧ execProiladRd m s = .next { s with
      pkg := performed q m 5 (s.mem.line pa) (s.mem.poisoned (pa / 64 * 64) 64) } := by
  have hready := homeRead_ready m.rdClass 0 none hhost
  have hread := (onlyReads_homeRead s.pkg pa m.rdClass 0 none).serves
  unfold execProiladRd
  rw [hat]
  dsimp only
  rw [if_neg (by omega), hfate]
  dsimp only
  split
  case h_1 heq =>
    rw [heq] at hready
    cases hready
  case h_2 q heq =>
    rw [heq] at hread
    exact ⟨_, hread.trans (onlyReads_crossLine _ _ _ _).serves, rfl⟩

theorem execProiladWr_serves (hop : m.op = 2) (hfate : fateFor s.pkg (idNode m.src) pa true = .served) (hhost : hostHolds s.pkg pa = false) :
    execProiladWr m s = .next { s with
      mem := s.mem.storeLine pa m.payload m.poison, pkg := performed (homeWrite s.pkg pa false (idNode m.src)) m 6 0 false } := by
  unfold execProiladWr
  rw [hat]
  dsimp only
  rw [if_pos hop, landWrite_serves _ hfate hhost]

theorem execProiladWr8_serves (hop : m.op = 3) (hfate : fateFor s.pkg (idNode m.src) pa false = .served) (hhost : hostHolds s.pkg pa = false) :
    execProiladWr8 m s = .next { s with
      mem := maskBytes m pa s.mem, pkg := performed (homeWrite s.pkg pa false (idNode m.src)) m 6 0 false } := by
  unfold execProiladWr8
  rw [hat]
  dsimp only
  rw [if_pos hop, landWrite_serves _ hfate hhost]

theorem execProiladAtom_serves (hop : m.op = 4) (harg : m.arg ≤ 1) (hpa : pa % 8 = 0)
    (hfate : fateFor s.pkg (idNode m.src) pa false = .served) (hhost : hostHolds s.pkg pa = false) (hclean : s.mem.poisoned pa 8 = false) :
    execProiladAtom m s = .next { s with
      mem := s.mem.write pa 8 (if m.arg = 0 then BitVec.ofNat 64 (s.mem.read pa 8) + m.payload.setWidth 64 else m.payload.setWidth 64).toNat
      pkg := performed (countAtSlice (homeTouch s.pkg pa (idNode m.src)) pa 0x128) m 6 0 false } := by
  have hatom : atomAt pa m.arg (m.payload.setWidth 64) (idNode m.src) pgRt none s = (.done, { s with
      mem := s.mem.write pa 8 (if m.arg = 0 then BitVec.ofNat 64 (s.mem.read pa 8) + m.payload.setWidth 64 else m.payload.setWidth 64).toNat
      pkg := countAtSlice (homeTouch s.pkg pa (idNode m.src)) pa 0x128 }) := by
    unfold atomAt
    dsimp only
    rw [if_neg (by omega), if_neg (by decide), hfate]
    dsimp only
    rw [if_neg (Bool.eq_false_iff.mp hhost), if_neg fun h => Bool.noConfusion (hclean.symm.trans h.2)]
  unfold execProiladAtom
  rw [hat]
  dsimp only
  rw [if_pos hop, hatom]
  rfl

theorem execColHead_serves (hop : m.op = 7) (hwaits : (colLines m pa).any (fun a => fateFor s.pkg (idNode m.src) a false == .waits) = false)
    (hhost : (colLines m pa).any (hostHolds s.pkg) = false) : ∃ q, execColHead m s = .next { landRecs m pa (m.recs.take (colCount m)) s with
      pkg := performed q m 6 0 false } := by
  unfold execColHead
  rw [hat]
  dsimp only
  rw [if_neg (by rw [hwaits, hop]; simp), if_neg (Bool.eq_false_iff.mp hhost)]
  exact ⟨_, rfl⟩
end

/-- A masked write changes the bytes of its word alone. -/
theorem maskBytes_out (m : Msg) {pa a : Nat} (x : Memory) (h : a < pa / 8 * 8 ∨ pa / 8 * 8 + 8 ≤ a) :
    (maskBytes m pa x).byte a = x.byte a := by
  have hfold : ((List.range 8).foldl (fun (x : Memory) i =>
      if m.arg.testBit i then x.setByte (pa / 8 * 8 + i) (BitVec.ofNat 8 (m.payload.toNat / 2 ^ (8 * i))) else x) x).byte a = x.byte a := by
    refine List.foldlRecOn (List.range 8) _ (motive := fun y : Memory => y.byte a = x.byte a) rfl fun (y : Memory) hy i hi => ?_
    have hi := List.mem_range.mp hi
    split
    · rw [Memory.byte_setByte_ne _ _ (by omega), hy]
    · exact hy
  unfold maskBytes
  dsimp only
  split
  · rw [Memory.byte_setPoison, hfold]
  · exact hfold

/-! ## Answers (R492, R563) -/

section
variable {s : State} {m : Msg} (harr : s.pkg.rt.arrived.contains m = true)
include harr

/-- An answer ends the access that its TAG names. -/
theorem doAnswer_ends {r : Remote} (hat : remoteAt s.pkg (remoteKey m.src m.tag) = some r) (hkind : (m.op = 5) = (r.msg.op = 1)) :
    doAnswer m s =
      if m.op = 6 then
        (answered (remoteKey m.src m.tag) r m.payload m.poison
          { s with pkg := dropRemote (dropArrived s.pkg m) (remoteKey m.src m.tag) }).onPkg fun p =>
            { p with qm := { p.qm with lastAck := SMap.set p.qm.lastAck r.ring (m.src, r.window) } }
      else answered (remoteKey m.src m.tag) r m.payload m.poison
        { s with pkg := dropRemote (dropArrived s.pkg m) (remoteKey m.src m.tag) } := by
  unfold doAnswer
  dsimp only
  rw [if_pos harr, hat]
  exact if_pos hkind

/-- An answer that names no access is discarded. -/
theorem doAnswer_discards (hat : remoteAt s.pkg (remoteKey m.src m.tag) = none) : doAnswer m s = { s with pkg := dropArrived s.pkg m } := by
  unfold doAnswer
  dsimp only
  rw [if_pos harr, hat]
  rfl
end

/-- The data of a hart's load reaches its register. -/
theorem answered_coreLoad (k : Nat) {r : Remote} {h rd size : Nat} {signed : Bool} {va : W64} (data : Item) (s : State)
    (hr : r.who = .coreLoad h rd size signed va) (hrd : 0 < rd) : (answered k r data false s).mem = s.mem ∧
      (answered k r data false s).pkg.rt = s.pkg.rt ∧ SMap.get (hart (answered k r data false s).pkg h).x rd 0 =
        loadValue (data.toNat / 2 ^ (8 * (r.msg.offset % 64))) size signed := by
  have hset : answered k r data false s = { s with
      pkg := setX s.pkg h rd (loadValue (data.toNat / 2 ^ (8 * (r.msg.offset % 64))) size signed) } := by
    unfold answered
    rw [hr]
    rfl
  have hx (v : W64) : setX s.pkg h rd v = setHart s.pkg h { hart s.pkg h with x := SMap.set (hart s.pkg h).x rd v } := if_neg (by omega)
  rw [hset, hx, hart_setHart_self]
  exact ⟨rfl, rfl, SMap.get_set_self _ _ _ _⟩

theorem answered_coreStore (k : Nat) {r : Remote} {h : Nat} {va : W64} (data : Item) (poison : Bool) (s : State)
    (hr : r.who = .coreStore h va) : answered k r data poison s = s := by
  unfold answered
  rw [hr]

/-- Settles O45. -/
theorem messagesAreRoutedServedAndAnswered : Obligations.MessagesAreRoutedServedAndAnswered := by
  refine ⟨fun s port' m hport hin => ⟨fun hdest => ?_, fun i alt hdest hpick hhops => ?_, fun hdest hnone hop => ?_⟩,
    fun s i m hi hnext hdest => ⟨_, rfl, rfl, route_received hi hnext hdest⟩,
    fun s m pa hat => ⟨fun hop hfate hhost => ?_, fun hop hfate hhost => ?_, fun hop hfate hhost => ?_,
      fun hop harg hpa hfate hhost hclean => ?_, fun hop hwaits hhost => ?_⟩,
    fun s m r h rd size signed va harr hop hat hmsg hr hp hrd => ?_, fun s m r h va harr hop hat hmsg hr => ?_,
    fun s m harr hat => ⟨fun hop => ?_, fun hop => ?_⟩, fun s m harr hop hkind => ?_⟩
  · have hrt := route_here hport hin hdest
    exact ⟨_, rfl, rfl, congrArg RouterSt.arrived hrt, congrArg RouterSt.inject hrt⟩
  · obtain ⟨hinject, hleaves⟩ := route_leaves hport hin hdest hpick hhops rfl
    exact ⟨_, _, rfl, rfl, hinject, rfl, hleaves⟩
  · obtain ⟨hcount, x, hsent, hx⟩ := undeliverable_reports (p := uninjected s.pkg m) hop
    exact ⟨_, x, next_onPkg (route_fails hport hin hdest hnone), rfl, hcount.trans (by rw [regN, reg_uninjected, ← regN]), hsent, hx⟩
  · obtain ⟨q, hq, hserves⟩ := execProiladRd_serves hat hop hfate hhost
    obtain ⟨x, hsent, hx⟩ := performed_answers hq.rt_eq m 5 (s.mem.line pa) (s.mem.poisoned (pa / 64 * 64) 64)
    exact ⟨_, x, hserves, rfl, hsent, hx⟩
  · obtain ⟨x, hsent, hxop, hxdest, hxtag, -⟩ := performed_answers (onlyServes_homeWrite s.pkg pa false (idNode m.src)).rt_eq m 6 0 false
    exact ⟨_, x, execProiladWr_serves hat hop hfate hhost, rfl, hsent, hxop, hxdest, hxtag⟩
  · obtain ⟨x, hsent, hxop, hxdest, hxtag, -⟩ := performed_answers (onlyServes_homeWrite s.pkg pa false (idNode m.src)).rt_eq m 6 0 false
    exact ⟨_, x, execProiladWr8_serves hat hop hfate hhost, rfl, hsent, hxop, hxdest, hxtag, fun a ha => maskBytes_out m s.mem ha⟩
  · have hserve := (onlyServes_homeTouch s.pkg pa (idNode m.src)).trans (onlyServes_countAtSlice _ pa 0x128)
    obtain ⟨x, hsent, hxop, hxdest, hxtag, -⟩ := performed_answers hserve.rt_eq m 6 0 false
    exact ⟨_, x, execProiladAtom_serves hat hop harg hpa hfate hhost hclean, rfl, hsent, hxop, hxdest, hxtag⟩
  · obtain ⟨q, hserves⟩ := execColHead_serves hat hop hwaits hhost
    obtain ⟨x, hsent, hxop, hxdest, hxtag, -⟩ := performed_answers (p := q) rfl m 6 0 false
    exact ⟨_, x, hserves, rfl, by rw [hsent]; exact List.getLast?_concat, hxop, hxdest, hxtag⟩
  · have hends := (doAnswer_ends harr hat (propext ⟨fun _ => hmsg, fun _ => hop⟩)).trans (if_neg (by omega))
    rw [hp] at hends
    obtain ⟨hmem, hrt, hx⟩ := answered_coreLoad (remoteKey m.src m.tag) m.payload
      { s with pkg := dropRemote (dropArrived s.pkg m) (remoteKey m.src m.tag) } hr hrd
    exact ⟨_, (if_pos hop).trans (next_eq hends), hmem, (remoteAt_congr hrt _).trans (remoteAt_dropRemote _ _), hx⟩
  · have hends := (doAnswer_ends harr hat (propext ⟨fun h => by omega, fun h => absurd h hmsg⟩)).trans (if_pos hop)
    rw [answered_coreStore _ _ _ _ hr] at hends
    exact ⟨_, (if_pos hop).trans (next_eq hends), rfl, remoteAt_dropRemote _ _⟩
  · exact ⟨_, (if_pos hop).trans (next_eq (doAnswer_discards harr hat)), rfl, rfl⟩
  · exact ⟨_, (if_pos hop).trans (next_eq (doAnswer_discards harr hat)), rfl, rfl⟩
  · refine ⟨_, if_pos ⟨hop, harr⟩, ?_⟩
    rw [recordLands, if_neg hkind]
    exact ⟨rfl, mailboxPut_last _ _⟩

end Sys2Proof.Machine
end

section
/-! Firmware is staged, handed over to and rolled back (R651 to R653, R678): the proof of O53. -/

namespace Sys2Proof.Machine

/-! ## SV_UPD_STATUS (Table 18-10) -/

theorem updStart_shows (p : Pkg) {op : Nat} (h : op < 256) : updBusy (updStart p op) = true ∧ fld (updStart p op) updStatus 7 0 = op := by
  unfold updStart updBusy
  refine ⟨?_, (fld_setFld_self _ _ _ _ _ (by decide) (by decide)).trans (Nat.mod_eq_of_lt h)⟩
  rw [bit_setFld_beside _ _ _ _ _ _ (by decide) (by decide) (by decide), bit_setFld_beside _ _ _ _ _ _ (by decide) (by decide) (by decide),
    bit_setBit_self _ _ _ _ (by decide)]

/-- An update that ends is DONE with its RESULT. -/
theorem updEnd_shows (p : Pkg) {result : Nat} (h : result < 256) : updBusy (updEnd p result) = false ∧ bit (updEnd p result) updStatus 31 = true ∧
    fld (updEnd p result) updStatus 15 8 = result := by
  have hreg (q : Pkg) : reg (raiseBlock q 3 0) updStatus = reg q updStatus := raiseBlock_reg_own _ _ _ 3 (by decide) (by decide)
  unfold updEnd updBusy
  rw [bit_congr (hreg _), bit_congr (hreg _), fld_congr (hreg _), fld_setFld_self _ _ _ _ _ (by decide) (by decide)]
  refine ⟨?_, ?_, Nat.mod_eq_of_lt h⟩
  · rw [bit_setFld_beside _ _ _ _ _ _ (by decide) (by decide) (by decide), bit_setBit_self _ _ _ _ (by decide)]
  · rw [bit_setFld_beside _ _ _ _ _ _ (by decide) (by decide) (by decide), bit_setBit_beside _ _ _ _ _ (by decide) (by decide),
      bit_setBit_self _ _ _ _ (by decide)]

theorem updEnd_boot (p : Pkg) (result : Nat) : (updEnd p result).boot = p.boot := (raiseBlock_only _ _ _).log.boot_eq

theorem updEnd_fuse (p : Pkg) (result : Nat) : (updEnd p result).fuse = p.fuse := (raiseBlock_only _ _ _).log.fuse_eq

theorem imageResult_lt (f : FuseSt) (kind max : Nat) (i : ImageInfo) : imageResult f kind max i < 256 := by
  unfold imageResult
  split
  · decide
  split
  · decide
  split
  · decide
  split <;> decide

/-! ## STAGE (R651) -/

section
variable {p : Pkg} {img : ImageInfo} {v : W64}

theorem putUpdControl_stages (h0 : bitOf v 0 = true) (h1 : bitOf v 1 = false) : putUpdControl img v p = putStage img p := by
  unfold putUpdControl
  rw [h0, h1]
  rfl

theorem putUpdControl_activates (h0 : bitOf v 0 = false) (h1 : bitOf v 1 = true) : putUpdControl img v p = putActivate p := by
  unfold putUpdControl
  rw [h0, h1]
  rfl

theorem putStage_begins (hidle : updBusy p = false) (hsrc : sourceOk p = true) :
    putStage img p = updStart { p with boot := { p.boot with staged := some img } } 1 := by
  unfold putStage
  rw [hidle, hsrc]
  rfl

theorem putStage_refuses (hidle : updBusy p = false) (hsrc : sourceOk p = false) : putStage img p = updRefuse p 1 5 := by
  unfold putStage
  rw [hidle, hsrc]
  rfl
end

section
variable {p : Pkg} {img : ImageInfo} {ok : Bool} (hstaged : p.boot.staged = some img) (hbusy : updBusy p = true)
  (hop : fld p updStatus 7 0 = 1)
include hstaged hbusy hop

theorem doStageDone_cases {p1 : Pkg} (hp1 : p1 = { p with boot := { p.boot with staged := none } }) : doStageDone ok p =
    if p.boot.flashOwner ≠ 0 then updEnd p1 4
    else if surveyorResult p img ≠ 0 then updEnd p1 (surveyorResult p img)
    else if ok then updEnd (showVersions (writeSlot p1 (some img))) 0
    else updEnd (showVersions (writeSlot p1 none)) 4 := by
  subst hp1
  unfold doStageDone
  rw [hstaged]
  dsimp only
  rw [hbusy, hop]
  rfl
end

/-- A slot that is written is the inactive one, and its entry is in the directory. -/
theorem writeSlot_shows (p : Pkg) (i : Option ImageInfo) : inactiveSlot (writeSlot p i) = i ∧ activeImage (writeSlot p i) = activeImage p ∧
    (writeSlot p i).boot.dir.crc = crc32 (dirBytes (writeSlot p i).boot.dir.entries) ∧
    (writeSlot p i).boot.activeSlot = p.boot.activeSlot ∧ (writeSlot p i).boot.running = p.boot.running := by
  by_cases h : p.boot.activeSlot = 0
  · have hset : setInactive p i = { p with boot := { p.boot with slotB := i } } := if_pos h
    rw [writeSlot, hset, inactiveSlot, activeImage, activeImage, if_pos h]
    exact ⟨if_pos h, if_pos h, rfl, rfl, rfl⟩
  · have hset : setInactive p i = { p with boot := { p.boot with slotA := i } } := if_neg h
    rw [writeSlot, hset, inactiveSlot, activeImage, activeImage, if_neg h]
    exact ⟨if_neg h, if_neg h, rfl, rfl, rfl⟩

/-- The images and the directory are read off the boot flash's state. -/
theorem slots_congr {p q : Pkg} (h : q.boot = p.boot) : inactiveSlot q = inactiveSlot p ∧ activeImage q = activeImage p := by
  unfold inactiveSlot activeImage
  rw [h]
  exact ⟨rfl, rfl⟩

/-! ## ACTIVATE, the healthy image and the roll-back (R652, R653) -/

theorem showVersions_reg (p : Pkg) : reg (showVersions p) updStatus = reg p updStatus := by
  rw [showVersions, reg_setReg_ne _ _ (by decide), reg_setReg_ne _ _ (by decide)]

section
variable {p : Pkg} {new old : ImageInfo} (hidle : updBusy p = false) (hnew : inactiveSlot p = some new) (hold : p.boot.running = some old)
include hidle hnew hold

theorem putActivate_hands (hpwr : pwrState p = 0) (hrun : fld p (key pgSv 0x100) 31 28 = 2) (hres : surveyorResult p new = 0) :
    putActivate p = waypoint (showVersions { updStart p 2 with
      boot := { p.boot with running := some new, handover := some (old, p.pace.datum) } }) pgSv 0x30 0 0 := by
  unfold putActivate
  rw [if_neg (Bool.eq_false_iff.mp hidle), hnew, hold]
  exact if_neg (by omega)

theorem putActivate_refuses (hpwr : pwrState p ≠ 0) : putActivate p = updRefuse p 2 5 := by
  unfold putActivate
  rw [if_neg (Bool.eq_false_iff.mp hidle), hnew, hold]
  exact if_pos (.inl hpwr)
end

theorem reg_withBoot (p : Pkg) (b : BootSt) (k : Nat) : reg { p with boot := b } k = reg p k := reg_congr rfl rfl rfl k

theorem handedOver_shows (p : Pkg) (b : BootSt) : updBusy (waypoint (showVersions { updStart p 2 with boot := b }) pgSv 0x30 0 0) = true ∧
    fld (waypoint (showVersions { updStart p 2 with boot := b }) pgSv 0x30 0 0) updStatus 7 0 = 2 := by
  have hreg : reg (waypoint (showVersions { updStart p 2 with boot := b }) pgSv 0x30 0 0) updStatus = reg (updStart p 2) updStatus := by
    rw [waypoint_reg, showVersions_reg, reg_withBoot]
  rw [updBusy, bit_congr hreg, fld_congr hreg]
  exact updStart_shows p (by decide)

theorem resumeRequests_none {p : Pkg} (h : p.fuse.requests = []) : resumeRequests p = p := by
  unfold resumeRequests
  rw [h]
  unfold fbServe
  rw [h]

theorem keyRequests_none {p : Pkg} {img : ImageInfo} (hk : img.revokeMask = 0) (hf : img.flags % 2 = 0) : keyRequests p img = p := by
  have hkeys : (List.range 8).filter (fun k => img.revokeMask.testBit k && !p.fuse.keyRevoked.testBit k) = [] := by
    rw [hk]
    exact List.filter_eq_nil_iff.mpr fun k _ => by rw [Nat.zero_testBit]; exact Bool.false_ne_true
  unfold keyRequests
  dsimp only
  rw [hkeys, hf]
  rfl

theorem doNewImageHealthy_ends {p : Pkg} {x : ImageInfo × Nat} {img : ImageInfo} (hh : p.boot.handover = some x) (hr : p.boot.running = some img)
    (hreq : p.fuse.requests = []) (hk : img.revokeMask = 0) (hf : img.flags % 2 = 0) {p1 : Pkg}
    (hp1 : p1 = { p with boot := { p.boot with handover := none, activeSlot := 1 - p.boot.activeSlot } }) :
    doNewImageHealthy p = updEnd (setBit (showVersions p1) updStatus 29 (decide (p1.boot.activeSlot = 1))) 0 := by
  subst hp1
  unfold doNewImageHealthy
  rw [hh, hr]
  dsimp only
  rw [resumeRequests_none (by rw [updEnd_fuse]; exact hreq), keyRequests_none hk hf]

/-- What a roll-back leaves: the old image runs, and the update is done with RESULT 6. -/
def rolledBack (p : Pkg) (old : ImageInfo) : Pkg :=
  waypoint (logErr (updEnd (showVersions { p with boot := { p.boot with handover := none, running := some old } }) 6) pgSv
    ⟨0xC0, 0, 0, 0, versionOf p.boot.running⟩) pgSv 0x30 0 1

theorem rolledBack_log (p : Pkg) (old : ImageInfo) :
    OnlyNotes (updEnd (showVersions { p with boot := { p.boot with handover := none, running := some old } }) 6) (rolledBack p old) :=
  (onlyNotes_logErr _ _ _).trans (onlyNotes_waypoint _ _ _ _ _)

theorem doFwRollback_late {p : Pkg} {old : ImageInfo} {since : Nat} (hh : p.boot.handover = some (old, since))
    (hlate : since + 1000000000 ≤ p.pace.datum) (hreq : p.fuse.requests = []) : doFwRollback p = rolledBack p old := by
  have hnone : (rolledBack p old).fuse.requests = [] := by
    rw [(rolledBack_log p old).log.fuse_eq, updEnd_fuse]
    exact hreq
  unfold doFwRollback
  rw [hh]
  exact (if_pos hlate).trans (resumeRequests_none hnone)

theorem doFwRollback_early {p : Pkg} {old : ImageInfo} {since : Nat} (hh : p.boot.handover = some (old, since))
    (hearly : p.pace.datum < since + 1000000000) : doFwRollback p = p := by
  unfold doFwRollback
  rw [hh]
  exact if_neg (by omega)

theorem rolledBack_shows (p : Pkg) (old : ImageInfo) : updBusy (rolledBack p old) = false ∧ fld (rolledBack p old) updStatus 15 8 = 6 ∧
    (rolledBack p old).boot = { p.boot with handover := none, running := some old } := by
  have hlog := rolledBack_log p old
  have hreg := hlog.reg 3 0x118 (by decide) (by decide)
  obtain ⟨hbusy, -, hresult⟩ := updEnd_shows (showVersions { p with boot := { p.boot with handover := none, running := some old } })
    (result := 6) (by decide)
  refine ⟨(bit_congr hreg _).trans hbusy, (fld_congr hreg _ _).trans hresult, ?_⟩
  rw [hlog.log.boot_eq, updEnd_boot]
  rfl

theorem writeFate_nextFree (p : Pkg) (rq : Requester) (pg off : Nat) : writeFate (nextFree p) rq pg off = writeFate p rq pg off := by
  have howner : owner (nextFree p) pg = owner p pg := fld_congr (reg_nextFree _ _) _ _
  have hready : ready (nextFree p) pg = ready p pg := bit_congr (reg_nextFree _ _) _
  unfold writeFate
  rw [howner, hready]
  rfl

/-- Settles O53. -/
theorem firmwareIsStagedHandedOverAndRolledBack : Obligations.FirmwareIsStagedHandedOverAndRolledBack := by
  refine ⟨fun s rq value keyOk sigOk hf h0 h1 hidle => ⟨fun hsrc => ?_, fun hsrc => ?_⟩,
    fun s img ok hstaged hbusy hop => ⟨fun hheld => ?_, fun hheld hbad => ?_, fun hheld hgood hok => ?_⟩,
    fun s rq value new old hf h0 h1 hidle hnew hold => ?_,
    fun s old img since hh hr hreq hk hflags => ?_, fun s old since hh => ⟨fun hlate hreq => ?_, fun hearly => ?_⟩⟩
  · have hput := (putUpdControl_stages (p := s.pkg) (img := stagedImage s.mem s.pkg keyOk sigOk) ((bitOf_setWidth64 value (by decide)).trans h0)
      ((bitOf_setWidth64 value (by decide)).trans h1)).trans (putStage_begins hidle hsrc)
    obtain ⟨hbusy, hop⟩ := updStart_shows { s.pkg with boot := { s.pkg.boot with staged := some (stagedImage s.mem s.pkg keyOk sigOk) } }
      (op := 1) (by decide)
    exact ⟨_, next_onPkg ((ifWrites_accepted _ hf).trans hput), rfl, hbusy, hop, rfl⟩
  · have hput := (putUpdControl_stages (p := s.pkg) (img := stagedImage s.mem s.pkg keyOk sigOk) ((bitOf_setWidth64 value (by decide)).trans h0)
      ((bitOf_setWidth64 value (by decide)).trans h1)).trans (putStage_refuses hidle hsrc)
    obtain ⟨hbusy, hdone, hresult⟩ := updEnd_shows (updStart s.pkg 1) (result := 5) (by decide)
    exact ⟨_, next_onPkg ((ifWrites_accepted _ hf).trans hput), rfl, hbusy, hdone, hresult, updEnd_boot _ _⟩
  · have hends := (doStageDone_cases (ok := ok) hstaged hbusy hop rfl).trans (if_pos hheld)
    obtain ⟨hdone, -, hresult⟩ := updEnd_shows { s.pkg with boot := { s.pkg.boot with staged := none } } (result := 4) (by decide)
    exact ⟨_, next_onPkg hends, rfl, hdone, hresult, updEnd_boot _ _⟩
  · have hends := (doStageDone_cases (ok := ok) hstaged hbusy hop rfl).trans ((if_neg (not_not_intro hheld)).trans (if_pos hbad))
    obtain ⟨-, -, hresult⟩ := updEnd_shows { s.pkg with boot := { s.pkg.boot with staged := none } }
      (imageResult_lt s.pkg.fuse 1 surveyorMax img)
    exact ⟨_, next_onPkg hends, rfl, hresult, updEnd_boot _ _⟩
  · have hends := (doStageDone_cases (ok := ok) hstaged hbusy hop rfl).trans
      ((if_neg (not_not_intro hheld)).trans ((if_neg (not_not_intro hgood)).trans (if_pos hok)))
    obtain ⟨himage, hactive, hcrc, hslot, hrunning⟩ := writeSlot_shows { s.pkg with boot := { s.pkg.boot with staged := none } } (some img)
    generalize writeSlot { s.pkg with boot := { s.pkg.boot with staged := none } } (some img) = w at *
    obtain ⟨hdone, hbit, hresult⟩ := updEnd_shows (showVersions w) (result := 0) (by decide)
    have hboot : (updEnd (showVersions w) 0).boot = w.boot := updEnd_boot _ _
    obtain ⟨hi, ha⟩ := slots_congr hboot
    refine ⟨_, next_onPkg hends, rfl, hdone, hbit, hresult, hi.trans himage, ha.trans hactive, ?_, ?_, ?_⟩
    · rw [hboot, hcrc]
    · rw [hboot, hslot]
    · rw [hboot, hrunning]
  · have hfree : writeFate (nextFree s.pkg) rq 3 0x114 = .accepted := (writeFate_nextFree _ _ _ _).trans hf
    have hstill : updBusy (nextFree s.pkg) = false := (bit_congr (reg_nextFree _ _) _).trans hidle
    have hput := (ifWrites_accepted _ hfree).trans (putUpdControl_activates (p := nextFree s.pkg) (img := imageAt s.mem s.pkg)
      ((bitOf_setWidth64 value (by decide)).trans h0) ((bitOf_setWidth64 value (by decide)).trans h1))
    refine ⟨fun hpwr hrun hres => ?_, fun hpwr => ?_⟩
    · obtain ⟨hbusy, hop⟩ := handedOver_shows (nextFree s.pkg)
        { s.pkg.boot with running := some new, handover := some (old, s.pkg.pace.datum) }
      exact ⟨_, next_onPkg (hput.trans (putActivate_hands hstill hnew hold hpwr hrun hres)), rfl, hbusy, hop, rfl⟩
    · obtain ⟨hdone, -, hresult⟩ := updEnd_shows (updStart (nextFree s.pkg) 2) (result := 5) (by decide)
      exact ⟨_, next_onPkg (hput.trans (putActivate_refuses hstill hnew hold hpwr)), rfl, hdone, hresult, updEnd_boot _ _⟩
  · obtain ⟨hbusy, hdone, hresult⟩ := updEnd_shows (setBit (showVersions { s.pkg with boot := { s.pkg.boot with
      handover := none, activeSlot := 1 - s.pkg.boot.activeSlot } }) updStatus 29 (decide (1 - s.pkg.boot.activeSlot = 1)))
      (result := 0) (by decide)
    exact ⟨_, next_onPkg (doNewImageHealthy_ends hh hr hreq hk hflags rfl), rfl, hbusy, hdone, hresult, updEnd_boot _ _⟩
  · exact ⟨_, next_onPkg (doFwRollback_late hh hlate hreq), rfl, rolledBack_shows _ _⟩
  · exact next_onPkg (doFwRollback_early hh hearly)

end Sys2Proof.Machine
end

section
/-! Errors are counted; CEs are lost, surveyed and admitted (R619 to R629): the layer of PAGE_STATE, and the proof of O51. -/

namespace Sys2Proof.Machine

/-! ## The page of a CE -/

section
variable {n : Nat} (h : ceOk n = true)
include h

theorem pgCe_bounds : n / 256 < 4 ∧ n % 256 < 200 := by
  simpa [ceOk] using h

theorem pageInfo_pgCe : pageInfo (pgCe n) = some ⟨0x01, n / 256, n % 256, 0, 1, pgCe n⟩ := by
  obtain ⟨hs, ho⟩ := pgCe_bounds h
  have hpage : pgCe n = 0x1000 + 0x200 * (n / 256) + n % 256 := rfl
  have hsheet : (pgCe n - 0x1000) / 0x200 = n / 256 := by omega
  have hce : (pgCe n - 0x1000) % 0x200 = n % 256 := by omega
  unfold pageInfo
  iterate 14 rw [if_neg (by omega)]
  rw [if_pos (by omega)]
  dsimp only
  rw [hsheet, hce, if_pos ho]

theorem firstPage_pgCe : firstPage (pgCe n) = pgCe n := by rw [firstPage, pageInfo_pgCe h]

theorem classOf_pgCe : classOf (pgCe n) = 1 := by rw [classOf, pageInfo_pgCe h]

theorem ceOfPage_pgCe : 256 * ((pgCe n - 0x1000) / 0x200) + (pgCe n - 0x1000) % 0x200 = n := by
  obtain ⟨hs, ho⟩ := pgCe_bounds h
  have hpage : pgCe n = 0x1000 + 0x200 * (n / 256) + n % 256 := rfl
  omega

/-- The place of a CE in its quadrangle names the CE. -/
theorem ce_of_place : 256 * (ceQd n / 8) + 25 * (ceQd n % 8) + cePos n = n := by
  obtain ⟨hs, ho⟩ := pgCe_bounds h
  unfold ceQd cePos
  omega

theorem ceQd_of_inst : 8 * ((256 * (n / 256) + 25 * (n % 256 / 25)) / 256) + (256 * (n / 256) + 25 * (n % 256 / 25)) % 256 / 25 = ceQd n := by
  obtain ⟨hs, ho⟩ := pgCe_bounds h
  unfold ceQd
  omega
end

/-! ## What leaves PAGE_STATE and the engines as they are -/

/-- From p to q no PAGE_STATE changes, and no CE. -/
structure KeepsStates (p q : Pkg) : Prop where
  state : ∀ pg, reg q (key pg 8) = reg p (key pg 8)
  ces : q.ces = p.ces

theorem KeepsStates.refl (p : Pkg) : KeepsStates p p := ⟨fun _ => rfl, rfl⟩

theorem KeepsStates.trans {p q r : Pkg} (h : KeepsStates p q) (g : KeepsStates q r) : KeepsStates p r :=
  ⟨fun pg => (g.state pg).trans (h.state pg), g.ces.trans h.ces⟩

theorem keepsStates_raiseBlock (p : Pkg) (pg n : Nat) : KeepsStates p (raiseBlock p pg n) :=
  ⟨fun pg' => raise_reg_off _ _ _ pg' (by decide) (by decide), (raiseBlock_only _ _ _).log.ces_eq⟩

theorem keepsStates_waypoint (p : Pkg) (pg event sub arg : Nat) : KeepsStates p (waypoint p pg event sub arg) :=
  ⟨fun _ => waypoint_reg _ _ _ _ _ _, rfl⟩

theorem keepsStates_logErr (p : Pkg) (pg : Nat) (e : ErrArgs) : KeepsStates p (logErr p pg e) :=
  ⟨fun _ => logErr_reg _ _ _ (key_ne _ _ (by decide) (by decide) (by decide)) (key_ne _ _ (by decide) (by decide) (by decide))
    (key_ne _ _ (by decide) (by decide) (by decide)) (key_ne _ _ (by decide) (by decide) (by decide)), (logErr_only _ _ _).ces_eq⟩

theorem keepsStates_qmEvent (p : Pkg) (event unit : Nat) : KeepsStates p (qmEvent p event unit) := by
  unfold qmEvent
  refine KeepsStates.trans ?_ (keepsStates_raiseBlock _ _ _)
  exact ⟨fun _ => reg_congr rfl rfl rfl _, rfl⟩

theorem keepsStates_setReg (p : Pkg) {pg off : Nat} (v : W64) (ho : off < 0x1000) (h : off ≠ 8) : KeepsStates p (setReg p (key pg off) v) :=
  ⟨fun pg' => reg_setReg_ne _ _ (key_ne pg' pg (by decide) ho (Ne.symm h)), rfl⟩

theorem keepsStates_setFld (p : Pkg) {pg off : Nat} (hi lo v : Nat) (ho : off < 0x1000) (h : off ≠ 8) :
    KeepsStates p (setFld p (key pg off) hi lo v) := keepsStates_setReg p _ ho h

/-- PAGE_STATE's reset value goes by no fuse. -/
theorem state_congr {p q : Pkg} (hr : q.regs = p.regs) (hs : q.standalone = p.standalone) (pg : Nat) : reg q (key pg 8) = reg p (key pg 8) := by
  have hreset : regReset q (key pg 8) = regReset p (key pg 8) := by
    unfold regReset
    rw [key_div (by decide), key_mod (by decide)]
    split
    · rfl
    · rw [if_pos rfl, if_pos rfl, hs]
  rw [reg, reg, hr, hreset]

theorem keepsStates_withFuse (p : Pkg) (f : FuseSt) : KeepsStates p { p with fuse := f } :=
  ⟨fun pg => state_congr (p := p) (q := { p with fuse := f }) rfl rfl pg, rfl⟩

theorem keepsStates_withFault (p : Pkg) (f : FaultSt) : KeepsStates p { p with fault := f } := ⟨fun _ => reg_congr rfl rfl rfl _, rfl⟩

section
variable {p q : Pkg} {n : Nat} (h : KeepsStates p q) (pg : Nat)
include h

theorem KeepsStates.ready_eq : ready q pg = ready p pg := bit_congr (h.state _) _
theorem KeepsStates.retired_eq : retired q pg = retired p pg := bit_congr (h.state _) _
theorem KeepsStates.inFault_eq : inFault q pg = inFault p pg := bit_congr (h.state _) _
theorem KeepsStates.surveying_eq : surveying q pg = surveying p pg := bit_congr (h.state _) _

theorem KeepsStates.ce_eq (n : Nat) : ce q n = ce p n := by rw [ce, h.ces, ← ce]
end

/-! ## The loss of a CE (R627 to R629) -/

section
variable {n : Nat} (hn : ceOk n = true)
include hn

/-- A CE in isolation is at reset, in FAULT, RETIRED and under survey. -/
theorem isolateCe_shows (p : Pkg) : inFault (isolateCe p n) (pgCe n) = true ∧ retired (isolateCe p n) (pgCe n) = true ∧
    surveying (isolateCe p n) (pgCe n) = true ∧ ready (isolateCe p n) (pgCe n) = false ∧ ce (isolateCe p n) n = Ce.empty := by
  have hready := ready_resetBlock (setCe p n Ce.empty) (pgCe n) 0
  have hces : (resetBlock (setCe p n Ce.empty) (pgCe n) 0).ces = (setCe p n Ce.empty).ces := (setReady_only _ _ _).ces_eq
  unfold isolateCe startSurvey
  generalize resetBlock (setCe p n Ce.empty) (pgCe n) 0 = q at *
  have hboth : fld (setFld q (key (pgCe n) 8) 3 2 3) (key (pgCe n) 8) 3 2 = 3 := fld_setFld_self _ _ _ _ _ (by decide) (by decide)
  have htwo : bit (setFld q (key (pgCe n) 8) 3 2 3) (key (pgCe n) 8) 2 = true := by
    rw [bit_eq_testBit (hi := 3) (lo := 2) _ (by decide) (by decide), hboth]
    rfl
  have hthree : bit (setFld q (key (pgCe n) 8) 3 2 3) (key (pgCe n) 8) 3 = true := by
    rw [bit_eq_testBit (hi := 3) (lo := 2) _ (by decide) (by decide), hboth]
    rfl
  rw [(keepsStates_waypoint _ _ _ _ _).inFault_eq, (keepsStates_waypoint _ _ _ _ _).retired_eq,
    (keepsStates_waypoint _ _ _ _ _).surveying_eq, (keepsStates_waypoint _ _ _ _ _).ready_eq, (keepsStates_waypoint _ _ _ _ _).ce_eq,
    inFault, retired, surveying, ready, firstPage_pgCe hn]
  rw [ready, firstPage_pgCe hn] at hready
  refine ⟨?_, ?_, bit_setBit_self _ _ _ _ (by decide), ?_, ?_⟩
  · rw [bit_setBit_beside _ _ _ _ _ (by decide) (by decide), htwo]
  · rw [bit_setBit_beside _ _ _ _ _ (by decide) (by decide), hthree]
  · rw [bit_setBit_beside _ _ _ _ _ (by decide) (by decide), bit_setFld_beside _ _ _ _ _ _ (by decide) (by decide) (by decide), hready]
  · have hce : ce (setBit (setFld q (key (pgCe n) 8) 3 2 3) (key (pgCe n) 8) 4 true) n = ce q n := rfl
    rw [hce, ce, hces, ← ce, ce_setCe_self]

theorem ceLose_isolates {p : Pkg} {cause : Nat} (hp : present p (pgCe n) = true) (hr : retired p (pgCe n) = false) (hc : cause ≠ 3) :
    ∃ q, ceLose p n cause = qmEvent (isolateCe q n) 0x01 n := by
  unfold ceLose
  dsimp only
  rw [hn, hp, hr, if_neg hc, if_neg hc]
  exact ⟨_, rfl⟩
end

theorem keepsStates_fbEnd (p : Pkg) {r : FbReq} (reject entry : Nat) (h : r.mbox = 0) : KeepsStates p (fbEnd p r reject entry) := by
  unfold fbEnd
  extract_lets p1 p2
  have h1 : KeepsStates p p1 := (keepsStates_setReg p _ (by decide) (by decide)).trans (keepsStates_raiseBlock _ _ _)
  rw [if_pos h]
  exact h1.trans (keepsStates_withFuse p1 _)

theorem keepsStates_resultCleared (p : Pkg) : KeepsStates p (setBit (setBit p fbResult 31 false) fbResult 30 false) :=
  (keepsStates_setFld p _ _ _ (by decide) (by decide)).trans (keepsStates_setFld (setBit p fbResult 31 false) _ _ _ (by decide) (by decide))

/-- A CE is out of use: RETIRED, and, where it is idle, not READY. -/
def OutOfUse (idle : Prop) (p : Pkg) (n : Nat) : Prop := retired p (pgCe n) = true ∧ (idle → ready p (pgCe n) = false)

theorem OutOfUse.congr {idle : Prop} {p q : Pkg} {n : Nat} (h : OutOfUse idle p n) (hk : KeepsStates p q) : OutOfUse idle q n := by
  obtain ⟨hr, hready⟩ := h
  exact ⟨(hk.retired_eq _).trans hr, fun hi => (hk.ready_eq _).trans (hready hi)⟩

/-- A bit of a PAGE_STATE is set beside the bit in question. -/
theorem bit_setState (p : Pkg) (pg pg' : Nat) {a b : Nat} (x : Bool) (ha : a < 64) (h : b ≠ a) :
    bit (setBit p (key pg 8) a x) (key pg' 8) b = bit p (key pg' 8) b := by
  by_cases hk : key pg' 8 = key pg 8
  · rw [hk, bit_setBit_beside _ _ _ _ _ ha h]
  · exact bit_setBit_ne _ _ _ _ hk

theorem OutOfUse.setState {idle : Prop} {p : Pkg} {n : Nat} (h : OutOfUse idle p n) (pg : Nat) {a : Nat} (x : Bool) (ha : a < 64)
    (h0 : a ≠ 0) (h3 : a ≠ 3) : OutOfUse idle (setBit p (key pg 8) a x) n := by
  obtain ⟨hr, hready⟩ := h
  exact ⟨(bit_setState _ _ _ _ ha (Ne.symm h3)).trans hr, fun hi => (bit_setState _ _ _ _ ha (Ne.symm h0)).trans (hready hi)⟩

theorem outOfUse_notReady {idle : Prop} {p : Pkg} {n : Nat} (h : retired p (pgCe n) = true) :
    OutOfUse idle (setReady p (pgCe n) false) n := by
  have hbit : retired (setReady p (pgCe n) false) (pgCe n) = retired p (pgCe n) := by
    rw [retired, retired, bit_eq_fld, bit_eq_fld, fld_setReady_state _ _ _ _ (by decide) (by decide)]
  exact ⟨hbit.trans h, fun _ => ready_setReady _ _ _⟩

/-! ## Retirement (R629, R630) -/

theorem OutOfUse.spareSurveyed {idle : Prop} {p : Pkg} {n : Nat} (h : OutOfUse idle p n) (qd : Nat) :
    OutOfUse idle (surveySpare p qd) n := by
  unfold surveySpare
  dsimp only
  split
  · exact (h.setState _ true (by decide) (by decide) (by decide)).congr (keepsStates_waypoint _ _ _ _ _)
  · exact h

theorem inFault_surveySpare (p : Pkg) (qd pg : Nat) : inFault (surveySpare p qd) pg = inFault p pg := by
  unfold surveySpare
  dsimp only
  split
  · exact ((keepsStates_waypoint _ _ _ _ _).inFault_eq _).trans (bit_setState _ _ _ _ (by decide) (by decide))
  · rfl

section
variable {n : Nat} (hn : ceOk n = true)
include hn

/-- A CE that a request has taken out of use is out of use. -/
theorem ceTakenOut_out (idle : Prop) (p : Pkg) : OutOfUse idle (ceTakenOut p (ceQd n) (cePos n)) n := by
  have hce := ce_of_place hn
  unfold ceTakenOut
  rw [hce]
  extract_lets m k qk p1 p1' q f p2 sp m'
  have h1 : retired p1 (pgCe n) = true := by
    rw [retired, firstPage_pgCe hn]
    exact bit_setBit_self _ _ _ _ (by decide)
  have h1' : retired p1' (pgCe n) = true := by
    unfold p1'
    split
    · rw [(keepsStates_raiseBlock _ _ _).retired_eq, h1]
    · exact h1
  clear_value p1'
  have hq : KeepsStates p1' q := keepsStates_setFld _ _ _ _ (by decide) (by decide)
  have hout : OutOfUse idle p2 n := ((outOfUse_notReady ((hq.trans (keepsStates_withFault q _)).retired_eq _ |>.trans h1'))).setState _
    false (by decide) (by decide) (by decide)
  clear_value p2
  have hqk : qk + 4 = key (pgQd (ceQd n)) 0x104 := by unfold qk key; omega
  rw [hqk]
  split
  · exact hout.congr (keepsStates_setFld _ _ _ _ (by decide) (by decide))
  split
  · exact (hout.setState _ true (by decide) (by decide) (by decide)).congr (keepsStates_waypoint _ _ _ _ _)
  · exact hout

/-- The request that retires a CE, and the surveyor's own end of it where it is the only one. -/
theorem OutOfUse.served {idle : Prop} {p : Pkg} {r : FbReq} {reason : Nat} (hp : p.fuse.requests = [r])
    (hr : r = ⟨4, 1, reason, 256 * (n / 256) + 25 * (n % 256 / 25), cePos n, 0⟩) (h : OutOfUse idle p n) :
    OutOfUse idle (fbServe 1 p) n := by
  have hmbox : r.mbox = 0 := by rw [hr]
  unfold fbServe
  simp only [hp]
  split
  case h_1 c _ =>
    rw [fbServe]
    refine OutOfUse.congr ?_ (keepsStates_fbEnd _ c 0 hmbox)
    unfold fbRejected
    split
    · have hout := ceTakenOut_out hn idle p
      rw [← ceQd_of_inst hn] at hout
      rw [hr]
      exact hout
    · exact h
  case h_2 =>
    rw [fbServe]
    exact h.congr (keepsStates_fbEnd _ 0 0 hmbox)
  case h_3 =>
    split
    · exact h
    · exact h.congr ((keepsStates_withFuse p _).trans (keepsStates_resultCleared _))

theorem OutOfUse.requested {idle : Prop} {p : Pkg} (h : OutOfUse idle p n) (reason : Nat) :
    OutOfUse idle (requestRetire p n reason) n := by
  have hset : OutOfUse idle (setReg p fbAttribute 0x100) n := h.congr (keepsStates_setReg p _ (by decide) (by decide))
  unfold requestRetire surveyorRequest fbEnqueue
  dsimp only
  split
  case isTrue hc =>
    obtain ⟨hempty, -⟩ := Bool.and_eq_true_iff.1 hc
    have hnil := List.isEmpty_iff.1 hempty
    refine OutOfUse.served hn (reason := reason) ?_ rfl (hset.congr (keepsStates_withFuse _ _))
    simp only [hnil, List.nil_append]
  case isFalse => exact hset.congr (keepsStates_withFuse _ _)
end

/-- Behind another request the retirement waits, and nothing of the CE changes. -/
theorem keepsStates_requestRetire {p : Pkg} (n reason : Nat) (h : p.fuse.requests ≠ []) : KeepsStates p (requestRetire p n reason) := by
  have hsome : (setReg p fbAttribute 0x100).fuse.requests.isEmpty = false := by
    rw [Bool.eq_false_iff]
    exact fun he => h (List.isEmpty_iff.mp he)
  unfold requestRetire surveyorRequest fbEnqueue
  dsimp only
  rw [hsome, Bool.false_and, if_neg Bool.false_ne_true]
  exact (keepsStates_setReg p _ (by decide) (by decide)).trans (keepsStates_withFuse _ _)

/-! ## Losses and surveys -/

theorem onlyEngine_loseOnCe (p : Pkg) (n : Nat) : OnlyEngine n p (loseOnCe p n) := by
  have hloss (q : Pkg) (id : Nat) : KeepsEngines q (lossHandle q id n) := by
    unfold lossHandle
    dsimp only
    split
    · exact keepsEngines_finishCmd _ _ _ _
    split
    · exact ⟨rfl, rfl, rfl, rfl, rfl⟩
    · exact (keepsEngines_setCmd q id _).trans (keepsEngines_finishCmd _ _ _ _)
  unfold loseOnCe
  split
  · rename_i id _
    refine OnlyEngine.keeps (OnlyEngine.trans ?_ (onlyEngine_ceRelease _ n _)) (hloss _ id)
    refine OnlyEngine.keeps ?_ (waypoint_only _ _ _ _ _).keepsEngines
    exact ((onlyEngine_ceStop p n).keeps (keepsEngines_addCmdBeats _ id n)).keeps (keepsEngines_addReg _ _ 1)
  · exact .refl n p

theorem waypointDump_fuse (p : Pkg) (n : Nat) : (waypointDump p n).fuse = p.fuse := by
  unfold waypointDump
  dsimp only
  split
  · refine foldl_keeps Pkg.fuse (fun q i => ?_) _ p
    unfold traceQueue
    dsimp only
    split
    · rfl
    · exact (raiseBlock_only _ _ _).log.fuse_eq
  · rfl

section
variable {n : Nat} (hn : ceOk n = true) {p : Pkg} (hp : present p (pgCe n) = true)
include hn hp

/-- A CE that its threshold retires. -/
theorem ceLose_retires (hr : retired p (pgCe n) = false) : ∃ q, q.fuse = p.fuse ∧ ceLose p n 3 =
    surveySpare (requestRetire (qmEvent (setBusy (setReady (setFld q (key (pgCe n) 8) 3 2 3) (pgCe n) false) (pgCe n) false) 0x01 n)
      n 0x01) (ceQd n) := by
  unfold ceLose
  dsimp only
  rw [hn, hp, hr, if_pos rfl]
  refine ⟨_, ?_, rfl⟩
  exact (waypointDump_fuse _ n).trans ((onlyEngine_loseOnCe _ n).fuse.trans (logErr_only _ _ _).fuse_eq)
end

/-- FAULT and RETIRED are set together. -/
theorem bits_faultRetired (p : Pkg) (pg : Nat) : bit (setFld p (key pg 8) 3 2 3) (key pg 8) 2 = true ∧
    bit (setFld p (key pg 8) 3 2 3) (key pg 8) 3 = true := by
  have hboth : fld (setFld p (key pg 8) 3 2 3) (key pg 8) 3 2 = 3 := fld_setFld_self _ _ _ _ _ (by decide) (by decide)
  rw [bit_eq_testBit (hi := 3) (lo := 2) _ (by decide) (by decide), bit_eq_testBit (hi := 3) (lo := 2) _ (by decide) (by decide), hboth]
  exact ⟨rfl, rfl⟩

theorem bit_setReady_state (p : Pkg) (pg : Nat) (b : Bool) (pg' : Nat) {n : Nat} (h : 1 ≤ n) :
    bit (setReady p pg b) (key pg' 8) n = bit p (key pg' 8) n := by
  rw [bit_eq_fld, bit_eq_fld, fld_setReady_state _ _ _ _ h (Nat.le_refl n)]

section
variable {n : Nat} (hn : ceOk n = true) {p : Pkg}
include hn

/-- What a CE lost by its threshold reads. -/
theorem ceLose_threshold (hp : present p (pgCe n) = true) (hr : retired p (pgCe n) = false) : OutOfUse True (ceLose p n 3) n ∧
    (p.fuse.requests ≠ [] → inFault (ceLose p n 3) (pgCe n) = true) := by
  obtain ⟨q, hfuse, hlose⟩ := ceLose_retires hn hp hr
  obtain ⟨hfault, hretired⟩ := bits_faultRetired q (pgCe n)
  have hfirst := firstPage_pgCe hn
  generalize hm : setBusy (setReady (setFld q (key (pgCe n) 8) 3 2 3) (pgCe n) false) (pgCe n) false = m at hlose
  have hout : OutOfUse True m n := by
    rw [← hm]
    refine (outOfUse_notReady ?_).setState _ false (by decide) (by decide) (by decide)
    rw [retired, hfirst, hretired]
  have hmfault : inFault m (pgCe n) = true := by
    rw [← hm, inFault, setBusy, bit_setState _ _ _ _ (by decide) (by decide), bit_setReady_state _ _ _ _ (by decide), hfirst, hfault]
  have hmfuse : (qmEvent m 0x01 n).fuse = p.fuse := by
    rw [← hm, ← hfuse]
    refine (raiseBlock_only _ _ _).log.fuse_eq.trans ?_
    exact (setReady_only (setFld q (key (pgCe n) 8) 3 2 3) (pgCe n) false).fuse_eq
  have hevent := keepsStates_qmEvent m 0x01 n
  rw [hlose]
  refine ⟨((hout.congr hevent).requested hn 0x01).spareSurveyed _, fun hreq => ?_⟩
  rw [inFault_surveySpare, (keepsStates_requestRetire n 0x01 (by rw [hmfuse]; exact hreq)).inFault_eq, hevent.inFault_eq, hmfault]

/-- A CE in its own place that fails its survey is retired. -/
theorem surveyCe_fails {failing : Nat} (hplace : cePos n ≠ SMap.get p.fuse.sparePos (ceQd n) 24) (hf : failing ≠ 0) :
    retired (surveyCe p n failing) (pgCe n) = true ∧ (p.fuse.requests ≠ [] → inFault (surveyCe p n failing) (pgCe n) = true) := by
  have hfirst := firstPage_pgCe hn
  obtain ⟨hfault, hretired⟩ := bits_faultRetired (waypoint (setBit p (key (pgCe n) 8) 4 false) (pgCe n) 0x05 0 failing) (pgCe n)
  have hfuse : (setFld (waypoint (setBit p (key (pgCe n) 8) 4 false) (pgCe n) 0x05 0 failing) (key (pgCe n) 8) 3 2 3).fuse = p.fuse := rfl
  unfold surveyCe
  dsimp only
  rw [if_neg hf, if_neg hplace]
  generalize setFld (waypoint (setBit p (key (pgCe n) 8) 4 false) (pgCe n) 0x05 0 failing) (key (pgCe n) 8) 3 2 3 = q at *
  have hlog := keepsStates_logErr q (pgQd (ceQd n)) ⟨0x24, 0, 0, 0, cePos n + failing % 256 * 256⟩
  have hout : OutOfUse False q n := ⟨by rw [retired, hfirst, hretired], False.elim⟩
  obtain ⟨hstays, -⟩ := ((hout.congr hlog).requested hn 0x02).spareSurveyed (ceQd n)
  refine ⟨hstays, fun hreq => ?_⟩
  rw [inFault_surveySpare, (keepsStates_requestRetire n 0x02 (by rw [(logErr_only _ _ _).fuse_eq, hfuse]; exact hreq)).inFault_eq,
    hlog.inFault_eq, inFault, hfirst, hfault]
end

/-- A CE in its own place that passes its survey is admitted. -/
theorem surveyCe_passes {n : Nat} {p : Pkg} (hplace : cePos n ≠ SMap.get p.fuse.sparePos (ceQd n) 24) :
    surveyCe p n 0 = admitCe (waypoint (setBit p (key (pgCe n) 8) 4 false) (pgCe n) 0x05 0 0) n false := by
  have hspare : (cePos n == SMap.get p.fuse.sparePos (ceQd n) 24 && bit p (key (pgQd (ceQd n)) 0x104) 7) = false := by
    rw [beq_eq_false_iff_ne.mpr hplace, Bool.false_and]
  unfold surveyCe
  dsimp only
  rw [if_pos rfl, hspare]
  rfl

/-! ## Admission (R628, R631) -/

theorem becomeReady_ces (p : Pkg) (pg : Nat) : (becomeReady p pg).ces = p.ces := by
  unfold becomeReady
  split
  · rfl
  split
  · rfl
  · exact (setReady_only _ _ _).ces_eq

theorem reg_restartPaths (p : Pkg) (pg k : Nat) : reg (restartPaths p pg) k = reg p k := reg_congr rfl rfl rfl k

/-- Another register of a page than PAGE_STATE, and those that READY waits for, go by no bit of a PAGE_STATE. -/
theorem readies_congr {p q : Pkg} (h : ∀ pg off, off < 0x1000 → off ≠ 8 → reg q (key pg off) = reg p (key pg off)) (pg : Nat) :
    enabled q pg = enabled p pg ∧ heldDown q pg = heldDown p pg :=
  ⟨bit_congr (h _ 0xC (by decide) (by decide)) _, heldDown_congr (h 4 0x100 (by decide) (by decide)) (h pgSv 0x100 (by decide) (by decide)) pg⟩

theorem becomeReady_readies {p q : Pkg} {pg : Nat} (h : ∀ pg off, off < 0x1000 → off ≠ 8 → reg q (key pg off) = reg p (key pg off))
    (he : enabled p pg = true) (hh : heldDown p pg = false) : ready (becomeReady q pg) pg = true := by
  obtain ⟨henabled, hheld⟩ := readies_congr h pg
  exact becomeReady_ready (henabled.trans he) (hheld.trans hh)

section
variable {n : Nat} (hn : ceOk n = true) (p : Pkg)
include hn

theorem admitCe_shows : inFault (admitCe p n false) (pgCe n) = false ∧ retired (admitCe p n false) (pgCe n) = false ∧
    surveying (admitCe p n false) (pgCe n) = false ∧ ce (admitCe p n false) n = Ce.empty ∧
    (enabled p (pgCe n) = true → heldDown p (pgCe n) = false → ready (admitCe p n false) (pgCe n) = true) := by
  have hfirst := firstPage_pgCe hn
  generalize hq : restartPaths (setFld (setCe p n Ce.empty) (key (pgCe n) 8) 4 2 0) (pgCe n) = q
  have hzero : fld q (key (pgCe n) 8) 4 2 = 0 := by
    rw [← hq, fld_congr (reg_restartPaths _ _ _)]
    exact fld_setFld_self _ _ _ _ _ (by decide) (by decide)
  have hbit {b : Nat} (h2 : 2 ≤ b) (h4 : b ≤ 4) : bit q (key (pgCe n) 8) b = false := by
    rw [bit_eq_testBit (hi := 4) (lo := 2) _ h2 h4, hzero, Nat.zero_testBit]
  have hbeside (pg off : Nat) (ho : off < 0x1000) (h8 : off ≠ 8) : reg q (key pg off) = reg p (key pg off) := by
    rw [← hq, reg_restartPaths, reg_setFld_ne _ _ _ _ (key_ne _ _ ho (by decide) h8)]
    exact reg_congr rfl rfl rfl _
  have honly := becomeReady_readyOnly q (pgCe n)
  have hces : ce (becomeReady q (pgCe n)) n = Ce.empty := by
    rw [ce, becomeReady_ces, ← hq]
    exact SMap.get_set_self _ _ _ _
  have hready := becomeReady_readies (pg := pgCe n) hbeside
  have hstate {b : Nat} (h2 : 2 ≤ b) (h4 : b ≤ 4) : bit (becomeReady q (pgCe n)) (key (pgCe n) 8) b = false := by
    rw [honly.bit_state _ (by omega), hbit h2 h4]
  have hend : ∃ f, KeepsStates { becomeReady q (pgCe n) with fault := f } (admitCe p n false) := by
    unfold admitCe
    dsimp only
    rw [if_neg Bool.false_ne_true, hq]
    split
    · exact ⟨_, keepsStates_qmEvent _ _ _⟩
    · exact ⟨_, .refl _⟩
  generalize becomeReady q (pgCe n) = r at *
  obtain ⟨f, hend⟩ := hend
  have hkeeps := (keepsStates_withFault r f).trans hend
  rw [hkeeps.inFault_eq, hkeeps.retired_eq, hkeeps.surveying_eq, hkeeps.ready_eq, hkeeps.ce_eq, inFault, retired, surveying, hfirst]
  exact ⟨hstate (by decide) (by decide), hstate (by decide) (by decide), hstate (by decide) (by decide), hces, hready⟩

theorem doSurveyComplete_ce {p : Pkg} (hp : present p (pgCe n) = true) (hs : surveying p (pgCe n) = true) (failing : Nat) :
    doSurveyComplete (pgCe n) failing p = surveyCe p n failing := by
  unfold doSurveyComplete
  rw [hp, firstPage_pgCe hn, beq_self_eq_true, hs, classOf_pgCe hn, ceOfPage_pgCe hn]
  rfl
end

/-- A block beside CEs and core clusters that passes its survey is READY, where it is enabled and not held down. -/
theorem doSurveyComplete_block {p : Pkg} {pg : Nat} (hp : present p pg = true) (hf : firstPage pg = pg) (h1 : classOf pg ≠ 0x01)
    (hF : classOf pg ≠ 0x0F) (hs : surveying p pg = true) (he : enabled p pg = true) (hh : heldDown p pg = false) :
    surveying (doSurveyComplete pg 0 p) pg = false ∧ ready (doSurveyComplete pg 0 p) pg = true := by
  generalize hq : restartPaths (waypoint (setBit p (key pg 8) 4 false) pg 0x05 0 0) pg = q
  have hdone : doSurveyComplete pg 0 p = becomeReady q pg := by
    unfold doSurveyComplete
    dsimp only
    rw [hp, hf, beq_self_eq_true, hs, if_neg h1, if_pos rfl, decide_eq_true hF, ← hq]
    rfl
  have hbeside (pg' off : Nat) (ho : off < 0x1000) (h8 : off ≠ 8) : reg q (key pg' off) = reg p (key pg' off) := by
    rw [← hq, reg_restartPaths, waypoint_reg, setBit, reg_setFld_ne _ _ _ _ (key_ne _ _ ho (by decide) h8)]
  rw [hdone]
  refine ⟨?_, becomeReady_readies hbeside he hh⟩
  rw [(becomeReady_readyOnly q pg).surveying_eq, ← hq, surveying, hf, bit_congr (reg_restartPaths _ _ _), bit_congr (waypoint_reg _ _ _ _ _ _)]
  exact bit_setBit_self _ _ _ _ (by decide)

end Sys2Proof.Machine
end

section
/-! Errors are counted, and units are lost, surveyed and admitted (R619 to R641): the proof of O51. -/

namespace Sys2Proof.Machine

/-! ## Counting windows (R625) -/

theorem newWindow_starts (p : Pkg) (pg : Nat) : fld (newWindow p pg) (key pg 0x2C) 31 24 = 0 ∧
    SMap.get (newWindow p pg).fault.windowAt pg 0 = p.pace.datum ∧ ∀ k, k / 4 = pg → SMap.get (newWindow p pg).fault.trackers k [] = [] := by
  refine ⟨?_, SMap.get_set_self _ _ _ _, fun k hk => ?_⟩
  · have hreg : reg (newWindow p pg) (key pg 0x2C) = reg (setFld p (key pg 0x2C) 31 24 0) (key pg 0x2C) := reg_congr rfl rfl rfl _
    rw [fld_congr hreg, fld_setFld_self _ _ _ _ _ (by decide) (by decide), Nat.zero_mod]
  · have hdrop : (newWindow p pg).fault.trackers = SMap.drop p.fault.trackers (fun k => k / 4 == pg) := rfl
    rw [hdrop, SMap.get_drop, if_pos (beq_iff_eq.mpr hk)]

/-! ## A correctable error's record (R619, R620) -/

theorem OnlyInt.queues_eq {p q : Pkg} (h : OnlyInt p q) : q.queues = p.queues := by
  obtain ⟨_, _, _, rfl⟩ := h
  rfl

theorem OnlyLog.paths_eq {p q : Pkg} (h : OnlyLog p q) : q.paths = p.paths := by
  obtain ⟨_, _, _, _, _, rfl⟩ := h
  rfl

theorem countWindow_queues (p : Pkg) (pg : Nat) (e : ErrArgs) : (countWindow p pg e).queues = p.queues := by
  have hunit (q : Pkg) (x : Nat × Nat × Nat) : (countUnit pg q x).queues = q.queues := by
    unfold countUnit
    dsimp only
    split
    · exact (raise_only _ _ _).queues_eq
    · rfl
  unfold countWindow
  dsimp only
  refine (foldl_keeps Pkg.queues hunit _ _).trans ?_
  split
  · exact (raise_only _ _ _).queues_eq
  · rfl

/-- A record of a correctable error: what it counts, the record in the queue or dropped, its bit, and what tells of it. -/
theorem logErr_correctable {p : Pkg} {pg : Nat} {e : ErrArgs} (hsev : escalate p pg e = (0, false)) : ∃ p1 ws r, p1.queues = p.queues ∧
    OnlyInt (setBit (pushRecord p1 pg 0 ws) (key pg 0x10) 0 true) r ∧
    reg r (key pg 0x10) = reg (setBit (pushRecord p1 pg 0 ws) (key pg 0x10) 0 true) (key pg 0x10) ∧
    logErr p pg e = waypoint r pg 0x06 e.unit e.code := by
  unfold logErr logErrAt
  rw [hsev]
  dsimp only
  generalize hp1 : (if (codeRow e.code).2 = true then countWindow p pg e else p) = p1
  have hqueues : p1.queues = p.queues := by
    rw [← hp1]
    split
    · exact countWindow_queues _ _ _
    · rfl
  split
  · exact ⟨p1, _, _, hqueues, .refl _, rfl, rfl⟩
  · exact ⟨p1, _, _, hqueues, raise_only _ _ _, raise_reg _ _ _ (key_ne _ _ (by decide) (by decide) (by decide))
      (key_ne _ _ (by decide) (by decide) (by decide)), rfl⟩

/-- A correctable record goes into a queue that has room beside the place that a FATAL one keeps. -/
theorem pushRecord_room {p : Pkg} {pg : Nat} {ws : List W64} (h : (queue p (key pg 0x18)).items.length < 31) :
    (queue (pushRecord p pg 0 ws) (key pg 0x18)).items.length = (queue p (key pg 0x18)).items.length + 1 := by
  unfold pushRecord
  dsimp only
  rw [if_pos (show _ < if (0 : Nat) = 3 then 32 else 31 from h), queue_setQueue_self]
  exact List.length_append

/-- A queue without room drops the record, and says so. -/
theorem pushRecord_full {p : Pkg} {pg : Nat} {ws : List W64} (h : 31 ≤ (queue p (key pg 0x18)).items.length) :
    (queue (pushRecord p pg 0 ws) (key pg 0x18)).items = (queue p (key pg 0x18)).items ∧
      bit (pushRecord p pg 0 ws) (key pg 0x10) 31 = true := by
  unfold pushRecord
  dsimp only
  rw [if_neg (show ¬ _ < if (0 : Nat) = 3 then 32 else 31 from Nat.not_lt.mpr h)]
  exact ⟨(congrArg Queue.items (queue_setQueue_self p (key pg 0x18) (queue p (key pg 0x18)).drop1) :), bit_setBit_self _ _ _ _ (by decide)⟩

theorem logErr_shows {p : Pkg} {pg : Nat} {e : ErrArgs} (hsev : escalate p pg e = (0, false)) (hf : firstPage pg = pg) :
    bit (logErr p pg e) (key pg 0x10) 0 = true ∧
    ((queue p (key pg 0x18)).items.length < 31 →
      (queue (logErr p pg e) (key pg 0x18)).items.length = (queue p (key pg 0x18)).items.length + 1) ∧
    (31 ≤ (queue p (key pg 0x18)).items.length →
      (queue (logErr p pg e) (key pg 0x18)).items = (queue p (key pg 0x18)).items ∧ bit (logErr p pg e) (key pg 0x10) 31 = true) := by
  obtain ⟨p1, ws, r, hqueues, honly, hreg, hlog⟩ := logErr_correctable hsev
  have hold : queue p1 (key pg 0x18) = queue p (key pg 0x18) := by rw [queue, queue, hqueues]
  have hrecord : key pg 0x18 ≠ key (firstPage pg) 0x30 := by
    rw [hf]
    exact key_ne _ _ (by decide) (by decide) (by decide)
  have hnew : queue (logErr p pg e) (key pg 0x18) = queue (pushRecord p1 pg 0 ws) (key pg 0x18) := by
    rw [hlog, queue_waypoint_ne _ _ _ _ _ hrecord, queue, honly.queues_eq]
    rfl
  have hbit (b : Nat) : bit (logErr p pg e) (key pg 0x10) b = bit (setBit (pushRecord p1 pg 0 ws) (key pg 0x10) 0 true) (key pg 0x10) b := by
    rw [hlog, bit_congr (waypoint_reg _ _ _ _ _ _), bit_congr hreg]
  rw [hnew, hbit, hbit, ← hold]
  refine ⟨bit_setBit_self _ _ _ _ (by decide), pushRecord_room, fun hfull => ?_⟩
  obtain ⟨hitems, hbit⟩ := pushRecord_full (ws := ws) hfull
  exact ⟨hitems, (bit_setBit_beside _ _ _ _ _ (by decide) (by decide)).trans hbit⟩

/-! ## Handling -/

theorem beginHandling_fault (p : Pkg) (pg : Nat) (e : ErrArgs) : ∃ l, beginHandling p pg e = { p with fault := { p.fault with handling := l } } := by
  unfold beginHandling
  dsimp only
  split
  · exact ⟨p.fault.handling, rfl⟩
  · exact ⟨_, rfl⟩

/-- The package once an error of a severity that is handled is in its log and on its block's handling list. -/
def logged (p : Pkg) (pg : Nat) (e : ErrArgs) : Pkg := beginHandling (logErr p pg e) pg e

theorem logged_fault (p : Pkg) (pg : Nat) (e : ErrArgs) : ∃ f, logged p pg e = { logErr p pg e with fault := f } ∧
    f.repairs = p.fault.repairs ∧ f.replica = p.fault.replica := by
  obtain ⟨l, hl⟩ := beginHandling_fault (logErr p pg e) pg e
  obtain ⟨t, f, hf⟩ := onlyTracks_logErr p pg e
  refine ⟨_, hl, ?_⟩
  rw [hf]
  exact ⟨rfl, rfl⟩

theorem logged_reg (p : Pkg) (pg : Nat) (e : ErrArgs) (k : Nat) : reg (logged p pg e) k = reg (logErr p pg e) k := by
  obtain ⟨f, hf, -⟩ := logged_fault p pg e
  rw [hf, reg_withFault]

theorem logAndAct_correctable {s : State} {pg : Nat} {e : ErrArgs} (hline : ¬(e.code = 0x22 ∧ e.addrKind = 1))
    (hsev : escalate s.pkg pg e = (0, false)) (hhit : thresholdHit s.pkg pg e = false) (hrow : thresholdAt s.pkg pg 1 e = false) :
    logAndAct pg e s = { s with pkg := logged s.pkg pg e } := by
  unfold logAndAct
  rw [hsev, hhit, hrow, Bool.and_false]
  exact if_neg hline

/-! ## An uncorrectable line of the DDR memory (R637) -/

theorem poisonLine_poisons {e : ErrArgs} {s : State} (hkind : e.addrKind = 1) (hmem : populated s.pkg e.addr = true)
    (hrep : inRepair s.pkg e.addr = false) (hof : replicaOf s.pkg e.addr = none) :
    poisonLine e s = { s with mem := s.mem.setPoison e.addr } := by
  unfold poisonLine
  rw [if_pos ⟨hkind, hmem, hrep⟩, hof]

theorem populated_congr {p q : Pkg} (hc : q.memc = p.memc) (hd : q.ddrBytes = p.ddrBytes) (hp : q.part = p.part)
    (hr : ∀ pg, reg q (key pg 0x180) = reg p (key pg 0x180)) (pa : Nat) : populated q pa = populated p pa := by
  have hways (slice : Nat) : scratchWays q slice = scratchWays p slice := by
    unfold scratchWays
    dsimp only
    rw [bit_congr (hr _), fld_congr (hr _), fld_congr (hr _)]
  unfold populated hbmPerSheet
  simp only [hways, hc, hd, hp]

theorem replicaOf_congr {p q : Pkg} (h : q.fault.replica = p.fault.replica) (pa : Nat) : replicaOf q pa = replicaOf p pa := by
  unfold replicaOf replicaWord
  rw [h]

theorem poisonLine_logged {s : State} {pg : Nat} {e : ErrArgs} (hkind : e.addrKind = 1) (hmem : populated s.pkg e.addr = true)
    (hrep : inRepair s.pkg e.addr = false) (hof : replicaOf s.pkg e.addr = none) :
    poisonLine e { s with pkg := logged s.pkg pg e } = { s with pkg := logged s.pkg pg e, mem := s.mem.setPoison e.addr } := by
  obtain ⟨f, hf, hrepairs, hreplica⟩ := logged_fault s.pkg pg e
  have hreg (pg' : Nat) : reg (logged s.pkg pg e) (key pg' 0x180) = reg s.pkg (key pg' 0x180) :=
    (logged_reg _ _ _ _).trans (logErr_reg_own _ _ _ _ (by decide) (by decide))
  have hsame : populated (logged s.pkg pg e) e.addr = populated s.pkg e.addr := by
    obtain ⟨_, _, _, _, _, hlog⟩ := logErr_only s.pkg pg e
    refine populated_congr ?_ ?_ ?_ hreg _ <;> rw [hf, hlog]
  refine poisonLine_poisons hkind (hsame.trans hmem) ((inRepair_congr ?_ _).trans hrep) ((replicaOf_congr ?_ _).trans hof)
  · rw [hf, hrepairs]
  · rw [hf, hreplica]

theorem fld_bumpFld_self (p : Pkg) (k : Nat) : fld (bumpFld p k 15 0) k 15 0 = min 65535 (fld p k 15 0 + 1) := by
  rw [bumpFld, fld_setFld_self _ _ _ _ _ (by decide) (by decide)]
  exact Nat.mod_eq_of_lt (Nat.lt_of_le_of_lt (Nat.min_le_left _ _) (by decide))

theorem ddrRowRepair_counts (p : Pkg) (pg : Nat) (e : ErrArgs) :
    fld (ddrRowRepair p pg e) (key pg 0x140) 15 0 = min 65535 (fld p (key pg 0x140) 15 0 + 1) := by
  rw [ddrRowRepair, fld_congr (spareChanged_reg _ _ _ (by decide) (by decide)), fld_bumpFld_self,
    fld_congr (logErr_reg_own _ _ _ _ (by decide) (by decide))]

theorem logAndAct_ddrLine {s : State} {pg : Nat} {e : ErrArgs} (hcode : e.code = 0x41) (hkind : e.addrKind = 1)
    (hsev : escalate s.pkg pg e = (1, false)) (hmem : populated s.pkg e.addr = true)
    (hrep : inRepair s.pkg e.addr = false) (hof : replicaOf s.pkg e.addr = none) :
    logAndAct pg e s = { s with mem := s.mem.setPoison e.addr, pkg := ddrRowRepair (logged s.pkg pg e) pg e } := by
  have hline := poisonLine_logged (pg := pg) hkind hmem hrep hof
  have hact : logAndAct pg e s = deferredAct pg e false { s with pkg := logged s.pkg pg e } := by
    unfold logAndAct
    rw [hsev]
    rfl
  rw [hact, deferredAct, hline, hcode]
  rfl

theorem ddrPage {c : Nat} (h : c < 8) : firstPage (pgDdr c) = pgDdr c ∧ classOf (pgDdr c) = 5 := by
  have hall : ∀ c : Fin 8, firstPage (pgDdr c) = pgDdr c ∧ classOf (pgDdr c) = 5 := by decide
  exact hall ⟨c, h⟩

/-! ## The commands -/

theorem execErrorLog_logs {s : State} {pg : Nat} {e : ErrArgs} (hp : present s.pkg pg = true) (hf : firstPage pg = pg)
    (hlogs : blockLogs pg e.code = true) (hcode : e.code ≠ 0x02) :
    execErrorLog pg e s = .next (logAndAct pg (ddrCode s.pkg pg e) s) := by
  rw [execErrorLog, if_pos ⟨hp, hf, hlogs⟩, if_neg hcode]

theorem execErrorLog_corrupts {s : State} {pg : Nat} {e : ErrArgs} (hp : present s.pkg pg = true) (hf : firstPage pg = pg)
    (hcode : e.code = 0x02) : execErrorLog pg e s = .next (s.onPkg (fun p => corruptRecord p pg e.detail)) := by
  have hlogs : blockLogs pg e.code = true := by
    rw [hcode]
    rfl
  rw [execErrorLog, if_pos ⟨hp, hf, hlogs⟩, if_pos hcode]

/-- A CE lost otherwise than by its threshold is isolated: by its loss's cause, or by its hub's watchdog. -/
theorem exec_isolates {s : State} {n cause : Nat} {c : Instr} (hn : ceOk n = true) (hp : present s.pkg (pgCe n) = true)
    (hr : retired s.pkg (pgCe n) = false) (hc : (c = .ceLost n cause ∧ cause < 3) ∨
      (c = .hubWatchdog n ∧ (ce s.pkg n).cmd.isSome = true ∧ halted s.pkg (n / 256) = false)) :
    ∃ q, exec c s = .next (s.onPkg fun _ => qmEvent (isolateCe q n) 0x01 n) := by
  rcases hc with ⟨rfl, hcause⟩ | ⟨rfl, hcmd, hhalt⟩
  · obtain ⟨q, hq⟩ := ceLose_isolates hn hp hr (cause := cause) (by omega)
    refine ⟨q, next_onPkg ?_⟩
    rw [if_pos (Nat.lt_succ_of_lt hcause), hq]
  · obtain ⟨q, hq⟩ := ceLose_isolates hn hp hr (cause := 1) (by decide)
    refine ⟨q, next_onPkg ?_⟩
    rw [hn, hcmd, hhalt, ← hq]
    rfl

/-- Settles O51. -/
theorem errorsAreCountedAndUnitsLostSurveyedAndAdmitted : Obligations.ErrorsAreCountedAndUnitsLostSurveyedAndAdmitted := by
  unfold Obligations.ErrorsAreCountedAndUnitsLostSurveyedAndAdmitted
  refine ⟨?_, ?_, ?_, ?_, ?_, ?_, ?_, ?_, ?_⟩
  · intro s pg hp hf hrun
    refine ⟨_, next_onPkg (q := newWindow s.pkg pg) ?_, rfl, newWindow_starts _ _⟩
    unfold doWindowEnd
    rw [hp, hf, beq_self_eq_true, decide_eq_true hrun]
    rfl
  · intro s pg hrun
    refine next_eq (State.onPkg_eq_self (f := doWindowEnd pg) ?_)
    unfold doWindowEnd
    rw [decide_eq_false (Nat.not_le.mpr hrun), Bool.and_false]
    rfl
  · intro s pg e hp hf hlogs hcode hline hddr hsev hhit hrow
    obtain ⟨hbit, hroom, hfull⟩ := logErr_shows hsev hf
    obtain ⟨f, hlogged, -⟩ := logged_fault s.pkg pg e
    have hact : exec (.errorLog pg e) s = .next { s with pkg := logged s.pkg pg e } := by
      refine (execErrorLog_logs hp hf hlogs hcode).trans ?_
      rw [hddr, logAndAct_correctable hline hsev hhit hrow]
    have hreg := logged_reg s.pkg pg e
    have hqueue (k : Nat) : queue (logged s.pkg pg e) k = queue (logErr s.pkg pg e) k := by
      rw [hlogged]
      rfl
    refine ⟨_, hact, rfl, (bit_congr (hreg _) _).trans hbit, ?_, ?_, ?_, ?_⟩
    · rw [hlogged]
      exact (logErr_only _ _ _).ces_eq
    · rw [hlogged]
      exact (logErr_only _ _ _).paths_eq
    · intro h
      rw [hqueue, hroom h]
    · intro h
      rw [hqueue, bit_congr (hreg _)]
      exact hfull h
  · intro s pg e hp hf hcode
    exact ⟨_, execErrorLog_corrupts hp hf hcode, rfl, queue_setQueue_self _ _ _⟩
  · intro s c e hc hp hcode hkind hsev hmem hrep hof
    obtain ⟨hfirst, hclass⟩ := ddrPage hc
    have hlogs : blockLogs (pgDdr c) e.code = true := by
      unfold blockLogs
      rw [hclass, hcode]
      rfl
    have hcode2 : ddrCode s.pkg (pgDdr c) e = e := by
      unfold ddrCode
      exact if_neg (by simp [hcode])
    have hact := execErrorLog_logs hp hfirst hlogs (by rw [hcode]; decide)
    rw [hcode2, logAndAct_ddrLine hcode hkind hsev hmem hrep hof] at hact
    refine ⟨_, hact, rfl, ?_⟩
    have hcount := ddrRowRepair_counts (logged s.pkg (pgDdr c) e) (pgDdr c) e
    rw [fld_congr (logged_reg _ _ _ _), fld_congr (logErr_reg_own _ _ _ _ (by decide) (by decide))] at hcount
    exact hcount
  · intro s n cause c hn hp hr hc
    obtain ⟨q, hq⟩ := exec_isolates hn hp hr hc
    have hkeeps := keepsStates_qmEvent (isolateCe q n) 0x01 n
    have hshows := isolateCe_shows hn q
    rw [← hkeeps.inFault_eq, ← hkeeps.retired_eq, ← hkeeps.surveying_eq, ← hkeeps.ready_eq, ← hkeeps.ce_eq] at hshows
    exact ⟨_, hq, rfl, hshows⟩
  · intro s n hn hp hr
    obtain ⟨⟨hretired, hready⟩, hfault⟩ := ceLose_threshold hn hp hr
    exact ⟨_, rfl, rfl, hretired, hready trivial, hfault⟩
  · intro s n failing hn hp hs hplace
    have hact : exec (.surveyComplete (pgCe n) failing) s = .next (s.onPkg fun p => surveyCe p n failing) :=
      next_onPkg (doSurveyComplete_ce hn hp hs failing)
    refine ⟨?_, fun hf => ⟨_, hact, rfl, surveyCe_fails hn hplace hf⟩⟩
    rintro rfl
    refine ⟨_, hact, rfl, ?_⟩
    rw [State.onPkg_pkg, surveyCe_passes hplace]
    obtain ⟨hfault, hretired, hsurvey, hce, hready⟩ := admitCe_shows hn (waypoint (setBit s.pkg (key (pgCe n) 8) 4 false) (pgCe n) 0x05 0 0)
    refine ⟨hfault, hretired, hsurvey, hce, fun he hh => ?_⟩
    have hbeside (pg off : Nat) (ho : off < 0x1000) (h8 : off ≠ 8) :
        reg (waypoint (setBit s.pkg (key (pgCe n) 8) 4 false) (pgCe n) 0x05 0 0) (key pg off) = reg s.pkg (key pg off) := by
      rw [waypoint_reg, setBit, reg_setFld_ne _ _ _ _ (key_ne _ _ ho (by decide) h8)]
    obtain ⟨henabled, hheld⟩ := readies_congr hbeside (pgCe n)
    exact hready (henabled.trans he) (hheld.trans hh)
  · intro s pg hp hf h1 hF hs he hh
    exact ⟨_, rfl, rfl, doSurveyComplete_block hp hf h1 hF hs he hh⟩

end Sys2Proof.Machine
end

section
/-! The sequencer's climb and descent (R661, R662, R664, R665, R668, R669): the proof of O56. -/

namespace Sys2Proof.Machine

/-! ## SV_SEQ_STATUS -/

theorem fld_withSeq (p : Pkg) (x : SeqSt) (k hi lo : Nat) : fld { p with seq := x } k hi lo = fld p k hi lo :=
  fld_congr (reg_congr rfl rfl rfl k) hi lo

theorem bit_withSeq (p : Pkg) (x : SeqSt) (k n : Nat) : bit { p with seq := x } k n = bit p k n := bit_congr (reg_congr rfl rfl rfl k) n

/-- Whether a climb may begin is no matter of the sequencer's own register. -/
theorem climbOk_congr {p q : Pkg} (hreg : ∀ pg off, off < 0x1000 → off ≠ 0x100 ∨ pg ≠ pgSv → reg q (key pg off) = reg p (key pg off))
    (hseq : q.seq = p.seq) (hpwr : q.pwr = p.pwr) (hpace : q.pace = p.pace) : climbOk q = climbOk p := by
  have hst : reg q pwrStatus = reg p pwrStatus := hreg pgPwr 0x100 (by decide) (.inr (by decide))
  have hhbm (k : Nat) : reg q (key (pgHbm k) 0x104) = reg p (key (pgHbm k) 0x104) := hreg _ _ (by decide) (.inl (by decide))
  have hcool : allCool q = allCool p := by
    unfold allCool tjOf
    simp only [hpwr, fld_congr (hhbm _)]
  unfold climbOk
  rw [bit_congr hst, bit_congr hst, hseq, hcool, hpwr, hpace]

theorem climbOk_target (p : Pkg) (b : Bool) (t source : Nat) :
    climbOk (setFld (setFld (setBit p svSeq 21 b) svSeq 23 22 t) svSeq 19 18 source) = climbOk p := by
  refine climbOk_congr (fun pg off ho h => ?_) rfl rfl rfl
  have hne : key pg off ≠ svSeq := by
    rcases h with h | h
    · exact key_ne _ _ ho (by decide) h
    · exact key_ne_page ho (by decide) h
  rw [reg_setFld_ne _ _ _ _ hne, reg_setFld_ne _ _ _ _ hne, setBit, reg_setFld_ne _ _ _ _ hne]

/-- The package with PKG_ON and a target that the pin asks for. -/
def pinned (p : Pkg) (b : Bool) (t : Nat) : Pkg := setFld (setFld (setBit p svSeq 21 b) svSeq 23 22 t) svSeq 19 18 0

theorem pinned_shows (p : Pkg) (b : Bool) {t : Nat} (ht : t < 4) : seqState (pinned p b t) = seqState p ∧ seqStep (pinned p b t) = seqStep p ∧
    seqTarget (pinned p b t) = t ∧ bit (pinned p b t) svSeq 21 = b := by
  unfold pinned
  have hbeside (hi lo : Nat) (hl : lo ≤ hi) (h : 23 < lo) : fld (pinned p b t) svSeq hi lo = fld p svSeq hi lo := by
    unfold pinned
    rw [fld_setFld_beside _ _ _ _ _ _ _ (by decide) (by decide) hl (by omega), fld_setFld_beside _ _ _ _ _ _ _ (by decide) (by decide) hl
      (by omega), setBit, fld_setFld_beside _ _ _ _ _ _ _ (by decide) (by decide) hl (by omega)]
  refine ⟨hbeside _ _ (by decide) (by decide), hbeside _ _ (by decide) (by decide), ?_, ?_⟩
  · rw [seqTarget, fld_setFld_beside _ _ _ _ _ _ _ (by decide) (by decide) (by decide) (by decide),
      fld_setFld_self _ _ _ _ _ (by decide) (by decide)]
    exact Nat.mod_eq_of_lt ht
  · rw [bit_setFld_beside _ _ _ _ _ _ (by decide) (by decide) (by decide), bit_setFld_beside _ _ _ _ _ _ (by decide) (by decide) (by decide)]
    exact bit_setBit_self _ _ _ _ (by decide)

theorem setTarget_pin {p : Pkg} (b : Bool) (t : Nat) (h : p.boot.running.isSome = true) :
    setTarget (setBit p svSeq 21 b) t 0 = leaveRest (pinned p b t) := if_pos h

/-! ## Rest points (R661, R668) -/

/-- The package that starts to climb. -/
def climbing (p : Pkg) : Pkg := setSeq (setBit { p with seq := { p.seq with climbAfter := false } } svSeq 20 false) 1 (seqStep p)

theorem leaveRest_climbs {p : Pkg} (hs : seqState p = 0) (ht : seqTarget p ≠ 0) (hc : climbOk p = true) : leaveRest p = climbing p := by
  unfold leaveRest
  dsimp only
  rw [hs]
  exact (if_neg ht).trans (if_pos hc)

theorem leaveRest_waits {p : Pkg} (hs : seqState p = 0) (ht : seqTarget p ≠ 0) (hc : climbOk p = false) :
    leaveRest p = setBit p svSeq 20 true := by
  unfold leaveRest
  dsimp only
  rw [hs]
  exact (if_neg ht).trans (if_neg (by simp [hc]))

theorem leaveRest_falls {p : Pkg} (hs : seqState p = 2 ∨ seqState p = 4) (ht : seqTarget p = 0) : leaveRest p = setSeq p 3 (seqStep p) := by
  unfold leaveRest
  dsimp only
  rw [ht]
  rcases hs with hs | hs <;> rw [hs] <;> rfl

theorem leaveRest_aux {p : Pkg} (hs : seqState p = 0) (ht : seqTarget p = 0) : leaveRest p = setBit p svSeq 20 false := by
  unfold leaveRest
  dsimp only
  rw [hs, ht]
  rfl

theorem leaveRest_run {p : Pkg} (hs : seqState p = 2) (ht : seqTarget p = 2) : leaveRest p = p := by
  unfold leaveRest
  dsimp only
  rw [hs, ht]
  rfl

theorem leaveRest_quiesced {p : Pkg} (hs : seqState p = 4) (ht : seqTarget p = 1) : leaveRest p = setBit p svSeq 20 false := by
  unfold leaveRest
  dsimp only
  rw [hs, ht]
  rfl

/-- FLOW_WAIT stands beside the other fields. -/
theorem fld_flowWait (p : Pkg) (b : Bool) {hi lo : Nat} (hl : lo ≤ hi) (h : hi < 20 ∨ 20 < lo) :
    fld (setBit p svSeq 20 b) svSeq hi lo = fld p svSeq hi lo := fld_setFld_beside _ _ _ _ _ _ _ (by decide) (by decide) hl (by omega)

theorem seqTarget_setSeq (p : Pkg) {st n : Nat} (hst : st < 16) (hn : n < 16) : seqTarget (setSeq p st n) = seqTarget p :=
  (setSeq_shows p hst hn).2.2 _ _ (by decide) (by decide)

theorem bit_setSeq (p : Pkg) {st n b : Nat} (hst : st < 16) (hn : n < 16) (hb : b < 24) :
    bit (setSeq p st n) svSeq b = bit p svSeq b := by
  rw [bit_eq_fld, bit_eq_fld, (setSeq_shows p hst hn).2.2 _ _ (Nat.le_refl b) hb]

theorem climbing_shows (p : Pkg) : seqTarget (climbing p) = seqTarget p ∧ seqState (climbing p) = 1 ∧ seqStep (climbing p) = seqStep p ∧
    bit (climbing p) svSeq 21 = bit p svSeq 21 := by
  have hstep := seqStep_lt p
  obtain ⟨hstate, hnew, -⟩ := setSeq_shows (setBit { p with seq := { p.seq with climbAfter := false } } svSeq 20 false) (st := 1)
    (by decide) hstep
  refine ⟨?_, hstate, hnew, ?_⟩
  · rw [climbing, seqTarget_setSeq _ (by decide) hstep, seqTarget, fld_flowWait _ _ (by decide) (by decide), fld_withSeq]
    rfl
  · rw [climbing, bit_setSeq _ (by decide) hstep (by decide), bit_setBit_beside _ _ _ _ _ (by decide) (by decide), bit_withSeq]

/-! ## The end of a step (R669, R670) -/

section
variable {p : Pkg} {n : Nat} (hc : p.seq.climbAfter = false)
include hc

theorem climbEnd_goesOn (ht : seqTarget p ≠ 0) (hn : n < 6) : climbEnd n p = setSeq p 1 n := by
  unfold climbEnd
  rw [hc, if_neg (show ¬ (false && _) = true from Bool.false_ne_true), if_neg ht, if_pos hn]

theorem climbEnd_runs (ht : seqTarget p = 2) : climbEnd 6 p = setSeq p 2 6 := by
  obtain ⟨hstate, -, -⟩ := setSeq_shows p (st := 2) (n := 6) (by decide) (by decide)
  unfold climbEnd
  rw [hc, if_neg (show ¬ (false && _) = true from Bool.false_ne_true), if_neg (by omega), if_neg (by decide),
    leaveRest_run hstate ((seqTarget_setSeq p (by decide) (by decide)).trans ht)]

end

/-- The climbing step after the one whose action stands, on a package that climbs. -/
theorem exec_climbs {s : State} {img : ImageInfo} {n : Nat} {p : Pkg} (hs : seqState s.pkg = 1) (hn : seqStep s.pkg = n)
    (hflash : n = 1 → s.pkg.boot.flashOwner = 0) (hend : climbEnd (n + 1) (climbAct img s).pkg = p) :
    exec (.sequencerStep img) s = .next { climbAct img s with pkg := p } := by
  have hrest : ¬ (seqState s.pkg = 0 ∨ seqState s.pkg = 4) := by omega
  have hgo : ¬ (seqState s.pkg ≠ 1 ∨ (seqStep s.pkg = 1 ∧ s.pkg.boot.flashOwner ≠ 0)) := by
    rintro (h | ⟨h, hf⟩)
    · exact h hs
    · exact hf (hflash (hn.symm.trans h))
  have hexec : exec (.sequencerStep img) s = execSequencerStep img s := rfl
  rw [hexec, execSequencerStep, if_neg hrest, ← hend, ← hn]
  exact if_neg hgo

theorem exec_flashHeld {s : State} {img : ImageInfo} (hs : seqState s.pkg = 1) (hn : seqStep s.pkg = 1) (hf : s.pkg.boot.flashOwner ≠ 0) :
    exec (.sequencerStep img) s = .next s := by
  have hrest : ¬ (seqState s.pkg = 0 ∨ seqState s.pkg = 4) := by omega
  have hexec : exec (.sequencerStep img) s = execSequencerStep img s := rfl
  rw [hexec, execSequencerStep, if_neg hrest]
  exact if_pos (.inr ⟨hn, hf⟩)

/-- What a climbing step of a package in p, with its end, leaves of its action's result q. -/
structure GoesOn (n : Nat) (q r : Pkg) : Prop where
  log : OnlyLog q r
  state : seqState r = 1
  step : seqStep r = n
  reg : ∀ k, k ≠ svSeq → k ≠ key pgSv 0x20 → k ≠ key pgSv 0x24 → reg r k = reg q k

theorem exec_goesOn {s t : State} {img : ImageInfo} {n : Nat} (hs : seqState s.pkg = 1) (hn : seqStep s.pkg = n)
    (hflash : n = 1 → s.pkg.boot.flashOwner = 0) (hlt : n < 5) (hact : climbAct img s = t) (hc : t.pkg.seq.climbAfter = false)
    (ht : seqTarget t.pkg ≠ 0) : ∃ r, exec (.sequencerStep img) s = .next { t with pkg := r } ∧ GoesOn (n + 1) t.pkg r := by
  obtain ⟨hstate, hstep, -⟩ := setSeq_shows t.pkg (st := 1) (n := n + 1) (by decide) (by omega)
  refine ⟨setSeq t.pkg 1 (n + 1), ?_, setSeq_only _ _ _, hstate, hstep, fun _ => setSeq_reg _ _ _⟩
  rw [← hact] at hc ht ⊢
  exact exec_climbs hs hn hflash (climbEnd_goesOn hc ht (by omega))

/-! ## Step 2, the package power-up (R664) -/

/-- From p to q the package's parts, its clock and the sequencer's state stay, and its two states in the registers. -/
structure PartsKept (p q : Pkg) : Prop where
  seq : q.seq = p.seq
  boot : q.boot = p.boot
  standalone : q.standalone = p.standalone
  ces : q.ces = p.ces
  harts : q.harts = p.harts
  pace : q.pace = p.pace

theorem PartsKept.refl (p : Pkg) : PartsKept p p := ⟨rfl, rfl, rfl, rfl, rfl, rfl⟩

theorem PartsKept.trans {p q r : Pkg} (h : PartsKept p q) (g : PartsKept q r) : PartsKept p r :=
  ⟨g.seq.trans h.seq, g.boot.trans h.boot, g.standalone.trans h.standalone, g.ces.trans h.ces, g.harts.trans h.harts, g.pace.trans h.pace⟩

theorem OnlyLog.partsKept {p q : Pkg} (h : OnlyLog p q) : PartsKept p q := by
  obtain ⟨_, _, _, _, _, rfl⟩ := h
  exact ⟨rfl, rfl, rfl, rfl, rfl, rfl⟩

theorem PartsKept.foldl {α : Type} {f : Pkg → α → Pkg} (hf : ∀ p a, PartsKept p (f p a)) (l : List α) (p : Pkg) :
    PartsKept p (l.foldl f p) := by
  induction l generalizing p with
  | nil => exact .refl p
  | cons a l ih => exact (hf p a).trans (ih _)

theorem partsKept_setPlState (p : Pkg) (i st : Nat) : PartsKept p (setPlState p i st) :=
  PartsKept.trans (q := setPort (plShown p i st) i { port p i with flashEnd := none }) ⟨rfl, rfl, rfl, rfl, rfl, rfl⟩
    (setPlState_notes p i st).log.partsKept

theorem partsKept_becomeReady (p : Pkg) (pg : Nat) : PartsKept p (becomeReady p pg) := by
  unfold becomeReady
  split
  · exact ⟨rfl, rfl, rfl, rfl, rfl, rfl⟩
  split
  · exact ⟨rfl, rfl, rfl, rfl, rfl, rfl⟩
  · exact (setReady_only _ _ _).partsKept

/-- A block that is READY stays so while other blocks become READY. -/
theorem ready_becomeReady {p : Pkg} {pg : Nat} (h : ready p pg = true) (pg' : Nat) : ready (becomeReady p pg') pg = true := by
  unfold becomeReady
  split
  · exact (bit_congr (reg_withDisabled p _ _) 0).trans h
  split
  · exact (bit_congr (reg_withPwr p _ _) 0).trans h
  · by_cases hr : ready p pg' = true
    · exact (congrArg (ready · pg) (if_pos hr)).trans h
    · rw [ready, bit_congr (setReady_reg_state hr _)]
      by_cases hk : key (firstPage pg) 8 = key (firstPage pg') 8
      · rw [hk, bit_setBit_self _ _ _ _ (by decide)]
      · rwa [bit_setBit_ne _ _ _ _ hk]

theorem ready_becomeReadys {p : Pkg} {pg : Nat} (h : ready p pg = true) (l : List Nat) : ready (l.foldl becomeReady p) pg = true := by
  induction l generalizing p with
  | nil => exact h
  | cons a l ih => exact ih (ready_becomeReady h a)

/-- The router's page is enabled as the package power-up leaves it. -/
theorem enabled_router_offAux (p : Pkg) : enabled (offAux p) pgRt = true := by
  have hfirst : firstPage pgRt = pgRt := by decide
  have hinfo : pageInfo (key pgRt 0xC / 0x1000) = some ⟨0x0A, 5, 0, 0, 8, 0x10⟩ := by decide
  have hdrops (v : W64) : (if onAux (key pgRt 0xC / 0x1000) then (if key pgRt 0xC % 0x1000 = 0x38 then none else some (key pgRt 0xC, v))
      else cableOnly (key pgRt 0xC, v)) = none :=
    (if_neg (show ¬ onAux (key pgRt 0xC / 0x1000) = true by decide)).trans
      (if_neg fun h => absurd (show classOf (key pgRt 0xC / 0x1000) = 0x09 from h.1) (by decide))
  have hkeys (x y : Nat × W64) (h : (if onAux (x.1 / 0x1000) then (if x.1 % 0x1000 = 0x38 then none else some x) else cableOnly x) = some y) :
      y.1 = x.1 := by
    split at h
    · split at h
      · cases h
      · rw [Option.some.inj h]
    · exact cableOnly_key h
  have hreset : reg (offAux p) (key pgRt 0xC) = regReset (offAux p) (key pgRt 0xC) := SMap.get_filterMap_none hdrops hkeys p.regs _
  have hone : regReset (offAux p) (key pgRt 0xC) = 1 := by
    rw [regReset, hinfo]
    simp [key, pgRt]
    decide
  rw [enabled, hfirst, bit, hreset, hone]
  decide

/-- The power controller at a package power-up. -/
def powerReset (p : Pkg) : Pkg :=
  (List.range 4).foldl (fun q n => setBit q (key pgPwr (0x210 + 4 * n)) 31 false)
    (setPwrState (setReg (offAux p) (key pgPwr 0x124) 0) 0)

/-- The package q with what a power-up of p changes beside its registers. -/
def powered (p q : Pkg) : Pkg :=
  { q with
    standalone := p.fuse.personality == 1
    boot := { p.boot with powerUps := p.boot.powerUps + 1 }
    seq := { q.seq with railEnLink := true, railPgLink := true, perstOut := p.fuse.personality == 1 } }

/-- The package at step 2 before its ports train and its pages become READY. -/
def poweredUp (p : Pkg) : Pkg := powered p (powerReset p)

/-- The package at step 2 with its ports in training. -/
def portsTrain (p : Pkg) : Pkg :=
  (List.range 6).foldl (fun q i => if cable q i then setPlState q i 1 else q)
    (powerUpMarks (poweredUp p) (blockPages.filter (fun pg => !onAux pg)))

theorem climb2_eq (s : State) : climb2 s = { s with
    mem := s.mem.hostOnly, pkg := ([pgRt] ++ (List.range 6).map pgPl).foldl becomeReady (portsTrain s.pkg) } := rfl

theorem portsTrain_kept (p : Pkg) : PartsKept (poweredUp p) (portsTrain p) := by
  refine PartsKept.trans (q := powerUpMarks (poweredUp p) (blockPages.filter (fun pg => !onAux pg))) ?_ ?_
  · exact .foldl (fun q pg => (waypoint_only _ _ _ _ _).partsKept) _ _
  · refine .foldl (fun q i => ?_) _ _
    split
    · exact partsKept_setPlState _ _ _
    · exact .refl q

theorem portsTrain_work (p : Pkg) : WorkLost (poweredUp p) (portsTrain p) := by
  refine WorkLost.trans (q := powerUpMarks (poweredUp p) (blockPages.filter (fun pg => !onAux pg))) ?_ ?_
  · exact .foldl (fun q pg => workLost_waypoint _ _ _ _ _) _ _
  · refine .foldl (fun q i => ?_) _ _
    split
    · exact workLost_setPlState _ _ _
    · exact .refl q

/-- Whether the package stands alone shows in the reset values of PAGE_STATE alone. -/
theorem reg_standalone {p q : Pkg} (hr : q.regs = p.regs) (hf : q.fuse = p.fuse) {pg off : Nat} (ho : off < 0x1000) (h8 : off ≠ 8) :
    reg q (key pg off) = reg p (key pg off) := by
  have hreset : regReset q (key pg off) = regReset p (key pg off) := by
    unfold regReset isFusedSpare fusedActive fusedSpare
    rw [key_div ho, key_mod ho, hf]
    split
    · rfl
    · rw [if_neg h8, if_neg h8]
  rw [reg, reg, hr, hreset]

theorem limitersCleared_reg (p : Pkg) {pg off : Nat} (ho : off < 0x210 ∨ pg ≠ pgPwr) (h1 : off < 0x1000) :
    reg ((List.range 4).foldl (fun q n => setBit q (key pgPwr (0x210 + 4 * n)) 31 false) p) (key pg off) = reg p (key pg off) := by
  have hone (q : Pkg) (n : Nat) (hn : n < 4) : reg (setBit q (key pgPwr (0x210 + 4 * n)) 31 false) (key pg off) = reg q (key pg off) := by
    refine reg_setFld_ne _ _ _ _ ?_
    rcases ho with ho | ho
    · exact key_ne _ _ h1 (by omega) (by omega)
    · exact key_ne_page h1 (by omega) ho
  exact (hone _ 3 (by decide)).trans ((hone _ 2 (by decide)).trans ((hone _ 1 (by decide)).trans (hone _ 0 (by decide))))

theorem reg_powered (p q : Pkg) {pg off : Nat} (ho : off < 0x1000) (h8 : off ≠ 8) :
    reg (powered p q) (key pg off) = reg q (key pg off) :=
  reg_standalone (p := q) (q := powered p q) rfl rfl ho h8

/-- The power-up leaves a register of VDD_AUX as it is, and one beside it at reset, but for the power controller's own. -/
theorem poweredUp_reg (p : Pkg) {pg off : Nat} (h1 : off < 0x1000) (h8 : off ≠ 8) (hown : pg ≠ pgPwr) :
    reg (poweredUp p) (key pg off) = reg (offAux p) (key pg off) := by
  have hne (off' : Nat) (h : off' < 0x1000) : key pg off ≠ key pgPwr off' := key_ne_page h1 h hown
  rw [poweredUp, reg_powered p _ h1 h8, powerReset, limitersCleared_reg _ (.inr hown) h1,
    setPwrState_reg _ _ (hne 0x100 (by decide)) (hne 0x20 (by decide)) (hne 0x24 (by decide)), reg_setReg_ne _ _ (hne 0x124 (by decide))]

theorem poweredUp_power (p : Pkg) : pwrState (poweredUp p) = 0 := by
  have hstatus : reg (poweredUp p) pwrStatus = reg (setPwrState (setReg (offAux p) (key pgPwr 0x124) 0) 0) pwrStatus :=
    (reg_powered p (powerReset p) (by decide) (by decide)).trans (limitersCleared_reg _ (.inl (by decide)) (by decide))
  rw [pwrState, fld_congr hstatus]
  exact pwrState_setPwrState _ (by decide)

theorem poweredUp_seq (p : Pkg) : reg (poweredUp p) svSeq = reg p svSeq :=
  (poweredUp_reg p (by decide) (by decide) (by decide)).trans (reg_offAux p (by decide) (by decide))

theorem powerReset_parts (p : Pkg) : PartsKept (offAux p) (powerReset p) := by
  have hreset := ((setReg_only (offAux p) (key pgPwr 0x124) 0).log.trans (setPwrState_only _ 0)).partsKept
  exact hreset.trans (.foldl (fun q n => (setBit_only q _ _ _).log.partsKept) _ _)

theorem offAux_parts (p : Pkg) : (offAux p).seq.climbAfter = p.seq.climbAfter ∧ (offAux p).ces = [] ∧ (offAux p).harts = [] ∧
    (offAux p).pace.datum = p.pace.datum := ⟨rfl, rfl, rfl, rfl⟩

/-- What the power-up leaves of the package. -/
theorem powered_parts {p q : Pkg} (h : PartsKept (offAux p) q) : (powered p q).seq.railEnLink = true ∧
    (powered p q).seq.climbAfter = p.seq.climbAfter ∧ (powered p q).boot.powerUps = p.boot.powerUps + 1 ∧
    (powered p q).standalone = (p.fuse.personality == 1) ∧ (powered p q).ces = [] ∧ (powered p q).harts = [] ∧
    (powered p q).pace.datum = p.pace.datum := by
  obtain ⟨hafter, hnoCes, hnoHarts, hdatum⟩ := offAux_parts p
  obtain ⟨hseq, -, -, hces, hharts, hpace⟩ := h
  rw [← hseq] at hafter
  rw [← hpace] at hdatum
  exact ⟨rfl, hafter, rfl, rfl, hces.trans hnoCes, hharts.trans hnoHarts, hdatum⟩

theorem poweredUp_parts (p : Pkg) : (poweredUp p).seq.railEnLink = true ∧ (poweredUp p).seq.climbAfter = p.seq.climbAfter ∧
    (poweredUp p).boot.powerUps = p.boot.powerUps + 1 ∧ (poweredUp p).standalone = (p.fuse.personality == 1) ∧
    (poweredUp p).ces = [] ∧ (poweredUp p).harts = [] ∧ (poweredUp p).pace.datum = p.pace.datum := powered_parts (powerReset_parts p)

/-- A package that climbs to step 2 is powered up, with its router READY. -/
theorem climb2_shows {s : State} (hs : seqState s.pkg = 1) : (climb2 s).mem = s.mem.hostOnly ∧ PartsKept (poweredUp s.pkg) (climb2 s).pkg ∧
    reg (climb2 s).pkg svSeq = reg s.pkg svSeq ∧ ready (climb2 s).pkg pgRt = true := by
  obtain ⟨-, hcontrol, hpower, hseq⟩ := portsTrain_work s.pkg
  have hpages (l : List Nat) (q : Pkg) : PartsKept q (l.foldl becomeReady q) := .foldl partsKept_becomeReady l q
  have hpagesSeq (l : List Nat) (q : Pkg) : reg (l.foldl becomeReady q) svSeq = reg q svSeq :=
    foldl_keeps (reg · svSeq) (fun q pg => (becomeReady_readyOnly q pg).reg pgSv 0x100 (by decide) (by decide)) l q
  have henabled : enabled (portsTrain s.pkg) pgRt = true := by
    have hfirst : firstPage pgRt = pgRt := by decide
    have hoff := enabled_router_offAux s.pkg
    rw [enabled, hfirst] at hoff ⊢
    rw [bit_congr (hcontrol pgRt), bit_congr (poweredUp_reg _ (by decide) (by decide) (by decide)), hoff]
  have hheld : heldDown (portsTrain s.pkg) pgRt = false := by
    have hzero : pwrState (portsTrain s.pkg) = 0 := (fld_congr hpower 31 28).trans (poweredUp_power _)
    rw [pwrState, pwrStatus] at hzero
    have hone : seqState (portsTrain s.pkg) = 1 := (fld_congr (hseq.trans (poweredUp_seq _)) 31 28).trans hs
    rw [seqState, svSeq] at hone
    rw [heldDown, hzero, hone]
    rfl
  rw [climb2_eq]
  generalize (List.range 6).map pgPl = l
  rw [List.singleton_append]
  exact ⟨rfl, (portsTrain_kept _).trans (hpages _ _), (hpagesSeq _ _).trans (hseq.trans (poweredUp_seq _)),
    ready_becomeReadys (becomeReady_ready henabled hheld) _⟩

end Sys2Proof.Machine
end

section
/-! The sequencer's steps 3 to 6 and its descent (R662, R665, R668, R669, R682): the proof of O56. -/

namespace Sys2Proof.Machine

/-! ## Step 3, the core rails -/

/-- A sheet rail brought to 0.75 V. -/
def raiseRail (p : Pkg) (r : Nat) : Pkg := setDie p r 750 (tjOf p r) 0

/-- The request for a sheet rail's 0.75 V. -/
def askRail (p : Pkg) (r : Nat) : Pkg := setFld (setBit p (railKey r) 31 true) (railKey r) 30 21 750

theorem railOf_raiseRail (p : Pkg) (d r : Nat) : railOf (raiseRail p d) r = if r = d then 750 else railOf p r := SMap.get_set _ _ _ _ _

theorem railOf_raiseRails (l : List Nat) (p : Pkg) (r : Nat) : railOf (l.foldl raiseRail p) r = if r ∈ l then 750 else railOf p r := by
  induction l generalizing p with
  | nil => rfl
  | cons d l ih =>
    rw [List.foldl_cons, ih, railOf_raiseRail]
    by_cases hd : r = d <;> simp [hd]

theorem railOf_askRail (p : Pkg) (d r : Nat) : railOf (askRail p d) r = railOf p r := rfl

theorem partsKept_raiseRail (p : Pkg) (r : Nat) : PartsKept p (raiseRail p r) := ⟨rfl, rfl, rfl, rfl, rfl, rfl⟩

theorem partsKept_askRail (p : Pkg) (r : Nat) : PartsKept p (askRail p r) :=
  ((setBit_only _ _ _ _).trans (setFld_only _ _ _ _ _)).log.partsKept

theorem svSeq_raiseRail (p : Pkg) (r : Nat) : reg (raiseRail p r) svSeq = reg p svSeq := reg_congr rfl rfl rfl _

theorem svSeq_askRail (p : Pkg) (r : Nat) : reg (askRail p r) svSeq = reg p svSeq := by
  have hne : svSeq ≠ railKey r := by simp only [svSeq, railKey, key, pgSv, pgPwr]; omega
  rw [askRail, reg_setFld_ne _ _ _ _ hne, setBit, reg_setFld_ne _ _ _ _ hne]

theorem railOf_becomeReady (p : Pkg) (pg r : Nat) : railOf (becomeReady p pg) r = railOf p r := by
  unfold becomeReady
  split
  · rfl
  split
  · rfl
  · rw [railOf, (setReady_only _ _ _).pwr_eq, railOf]

theorem svSeq_becomeReady (p : Pkg) (pg : Nat) : reg (becomeReady p pg) svSeq = reg p svSeq :=
  (becomeReady_readyOnly p pg).reg pgSv 0x100 (by decide) (by decide)

/-- The core rails on, the die resets released. -/
def coreUp (p : Pkg) : Pkg := { p with seq := { p.seq with railEnCore := true, railPgCore := true, dieReset := false } }

/-- Sheet rails brought to 0.75 V, and the requests for it. -/
def railsSet (l : List Nat) (p : Pkg) : Pkg := l.foldl askRail (l.foldl raiseRail p)

theorem climb3_eq (p : Pkg) : climb3 p =
    ((List.range 4).map pgMer ++ (List.range 4).map pgGrt ++ [pgHl]).foldl becomeReady (railsSet (List.range 5) (coreUp p)) := rfl

theorem railOf_railsSet {l : List Nat} (p : Pkg) {r : Nat} (h : r ∈ l) : railOf (railsSet l p) r = 750 := by
  rw [railsSet, foldl_keeps (railOf · r) (fun q d => railOf_askRail q d r), railOf_raiseRails, if_pos h]

theorem partsKept_railsSet (l : List Nat) (p : Pkg) : PartsKept p (railsSet l p) :=
  PartsKept.trans (.foldl partsKept_raiseRail l p) (.foldl partsKept_askRail l _)

theorem svSeq_railsSet (l : List Nat) (p : Pkg) : reg (railsSet l p) svSeq = reg p svSeq :=
  (foldl_keeps (reg · svSeq) svSeq_askRail l _).trans (foldl_keeps (reg · svSeq) svSeq_raiseRail l p)

theorem climb3_shows (p : Pkg) : (climb3 p).seq = { p.seq with railEnCore := true, railPgCore := true, dieReset := false } ∧
    (∀ r, r < 5 → railOf (climb3 p) r = 750) ∧ reg (climb3 p) svSeq = reg p svSeq := by
  have hset (r : Nat) := railOf_railsSet (l := List.range 5) (coreUp p) (r := r)
  have hparts := partsKept_railsSet (List.range 5) (coreUp p)
  have hseq := svSeq_railsSet (List.range 5) (coreUp p)
  rw [climb3_eq]
  generalize (List.range 4).map pgMer ++ (List.range 4).map pgGrt ++ [pgHl] = l
  generalize railsSet (List.range 5) (coreUp p) = q at *
  refine ⟨(PartsKept.foldl partsKept_becomeReady l q).seq.trans hparts.seq, fun r hr => ?_, ?_⟩
  · exact (foldl_keeps (railOf · r) (fun q pg => railOf_becomeReady q pg r) l q).trans (hset r (List.mem_range.mpr hr))
  · exact (foldl_keeps (reg · svSeq) svSeq_becomeReady l q).trans (hseq.trans (reg_congr rfl rfl rfl _))

/-! ## Step 5, the hand-off to the kernel (R438, R439, R682) -/

theorem Memory.read_congr {m m' : Memory} (n : Nat) {a : Nat} (h : ∀ x, a ≤ x → x < a + n → m'.byte x = m.byte x) : m'.read a n = m.read a n := by
  induction n generalizing a with
  | zero => rfl
  | succ n ih =>
    rw [Memory.read, Memory.read, h a (Nat.le_refl a) (by omega), ih fun x h1 h2 => h x (by omega) (by omega)]

/-- A shorter read is the low part of a longer one. -/
theorem Memory.read_prefix (m : Memory) (a n k : Nat) : m.read a n = m.read a (n + k) % 256 ^ n := by
  induction n generalizing a with
  | zero => rw [Memory.read, Nat.pow_zero, Nat.mod_one]
  | succ n ih =>
    have hlt := (m.byte a).isLt
    have hnext : n + 1 + k = n + k + 1 := by omega
    rw [hnext, Memory.read, Memory.read, ih, pow_succ', Nat.mod_mul, Nat.add_mul_mod_self_left, Nat.mod_eq_of_lt hlt,
      Nat.add_mul_div_left _ _ (by decide), Nat.div_eq_of_lt hlt, Nat.zero_add]

theorem handoffBytes_magic (p : Pkg) (img : ImageInfo) (harts : List Nat) : handoffBytes p img harts % 256 ^ 4 = 0x56470001 := by
  unfold handoffBytes
  dsimp only
  generalize harts.foldl (fun n h => n + 2 ^ h) 0 = mask
  generalize (if p.memc.ddrPhase = 1 then p.ddrBytes else 0) = ddr
  generalize hbmPerSheet p / 2 = hbm
  generalize p.pace.datum % 2 ^ 64 = datum
  generalize img.bodySize % 2 ^ 32 = size
  generalize p.boot.powerUps % 2 ^ 32 = ups
  generalize versionOf p.boot.running = version
  omega

theorem handoff_written {m : Memory} (h : m.wf = true) {v : Nat} (hv : v % 256 ^ 4 = 0x56470001) :
    (sealHandoff (m.store 0 252 v)).read 0 4 = 0x56470001 ∧ ∀ a, 256 ≤ a → (sealHandoff (m.store 0 252 v)).byte a = m.byte a := by
  refine ⟨?_, fun a ha => ?_⟩
  · have hseal : (sealHandoff (m.store 0 252 v)).read 0 4 = (m.store 0 252 v).read 0 4 :=
      Memory.read_congr 4 fun x _ hx => Memory.byte_write_out _ _ _ _ _ (.inl (by omega))
    rw [hseal, Memory.read_prefix _ 0 4 248, Memory.store, Memory.read_write _ _ _ (Memory.clearPoison_wf _ _ h),
      Nat.mod_mod_of_dvd _ (Nat.pow_dvd_pow 256 (by decide)), hv]
  · exact (Memory.byte_write_out _ _ _ _ _ (.inr (by omega))).trans (Memory.byte_store_out _ _ _ _ _ (.inr (by omega)))

/-- The state of one hart stands beside that of another. -/
theorem hartState_setHartState_ne (p : Pkg) {g h : Nat} (n : Nat) (hne : g ≠ h) :
    hartState (setHartState p h n) g = hartState p g := by
  unfold setHartState
  split
  · rfl
  · refine (fld_congr (raiseBlock_reg_own _ _ _ _ (by decide) (by decide)) _ _).trans ?_
    by_cases hk : hartStateKey g = hartStateKey h
    · have hpage := (key_inj (by decide) (by decide) hk).1
      have hcluster : g / 4 = h / 4 := by
        unfold pgCc at hpage
        omega
      rw [hartState, ← hk, hartStateKey, hcluster, fld_setFld_beside _ _ _ _ _ _ _ (by omega) (by omega) (by omega) (by omega)]
    · exact fld_setFld_ne _ _ _ _ _ _ hk

theorem startHart_beside (p : Pkg) {g h : Nat} (entry : Nat) (arg : W64) (hne : g ≠ h) :
    hart (startHart p h entry arg) g = hart p g ∧ hartState (startHart p h entry arg) g = hartState p g := by
  unfold startHart
  dsimp only
  rw [hart_setHartState, hart_setHart_ne _ _ hne, hartState_setHartState_ne _ _ hne, hartState_setHart]
  exact ⟨rfl, rfl⟩

/-- Harts released together each start at the entry. -/
theorem startHarts_start (l : List Nat) (hnodup : l.Nodup) (entry : Nat) (p : Pkg) {h : Nat} :
    (h ∈ l → (hart (l.foldl (fun q h => startHart q h entry 0) p) h).pc = entry ∧
      hartState (l.foldl (fun q h => startHart q h entry 0) p) h = 1) ∧
    (h ∉ l → hart (l.foldl (fun q h => startHart q h entry 0) p) h = hart p h ∧
      hartState (l.foldl (fun q h => startHart q h entry 0) p) h = hartState p h) := by
  induction l generalizing p with
  | nil => exact ⟨fun hm => absurd hm List.not_mem_nil, fun _ => ⟨rfl, rfl⟩⟩
  | cons g l ih =>
    obtain ⟨hnot, hnodup⟩ := List.nodup_cons.mp hnodup
    obtain ⟨hin, hout⟩ := ih hnodup (startHart p g entry 0)
    refine ⟨fun hm => ?_, fun hm => ?_⟩
    · by_cases hmem : h ∈ l
      · exact hin hmem
      · obtain rfl : h = g := (List.mem_cons.mp hm).resolve_right hmem
        obtain ⟨hsame, hstate⟩ := hout hmem
        rw [List.foldl_cons, hsame, hstate]
        exact ⟨(startHart_enters _ _ _ _).2.1, hartState_startHart _ _ _ _⟩
    · obtain ⟨hne, hmem⟩ := not_or.mp (mt List.mem_cons.mpr hm)
      obtain ⟨hsame, hstate⟩ := hout hmem
      obtain ⟨hhart, hst⟩ := startHart_beside p entry 0 hne
      rw [List.foldl_cons, hsame, hstate]
      exact ⟨hhart, hst⟩

/-- A hart's start writes no register of a page of VDD_AUX. -/
theorem startHart_reg (p : Pkg) (h entry : Nat) (arg : W64) {pg off : Nat} (hpg : pg < 8) (h1 : 0x100 ≤ off) (h2 : off < 0x1000) :
    reg (startHart p h entry arg) (key pg off) = reg p (key pg off) := by
  have hne : key pg off ≠ hartStateKey h := key_ne_page h2 (by decide) (by unfold pgCc; omega)
  have hset (q : Pkg) : reg (setHartState q h 1) (key pg off) = reg q (key pg off) := by
    unfold setHartState
    split
    · rfl
    · exact (raiseBlock_reg_own _ _ _ _ h2 h1).trans (reg_setFld_ne _ _ _ _ hne)
  exact (hset _).trans (reg_congr rfl rfl rfl _)

theorem startHart_seq (p : Pkg) (h entry : Nat) (arg : W64) : (startHart p h entry arg).seq = p.seq := (setHartState_only _ h 1).log.seq_eq

/-- The kernel's result in SV_BOOT_STATUS, and step 5 noted as done. -/
def kernelChecked (p : Pkg) (img : ImageInfo) : Pkg :=
  { setFld p svBoot 27 24 (kernelResult p img) with seq := { p.seq with step5Done := true } }

/-- The kernel that starts, with its security version shown. -/
def kernelNoted (p : Pkg) (img : ImageInfo) : Pkg := setFld (kernelChecked p img) svBoot 15 8 img.secVersion

theorem kernelChecked_reg (p : Pkg) (img : ImageInfo) {k : Nat} (h : k ≠ svBoot) : reg (kernelChecked p img) k = reg p k :=
  (reg_congr rfl rfl rfl k : reg (kernelChecked p img) k = reg (setFld p svBoot 27 24 (kernelResult p img)) k).trans
    (reg_setFld_ne _ _ _ _ h)

theorem kernelChecked_result (p : Pkg) (img : ImageInfo) : fld (kernelChecked p img) svBoot 27 24 = kernelResult p img % 16 := by
  exact (fld_withSeq _ _ _ _ _).trans (fld_setFld_self _ _ _ _ _ (by decide) (by decide))

theorem kernelNoted_reg (p : Pkg) (img : ImageInfo) {k : Nat} (h : k ≠ svBoot) : reg (kernelNoted p img) k = reg p k :=
  (reg_setFld_ne _ _ _ _ h).trans (kernelChecked_reg p img h)

theorem releasable_checked (p : Pkg) (img : ImageInfo) : releasable (kernelChecked p img) = releasable p := by
  have hreg (pg off : Nat) (ho : off < 0x1000) (h : off ≠ 0x104) : reg (kernelChecked p img) (key pg off) = reg p (key pg off) :=
    kernelChecked_reg p img (key_ne _ _ ho (by decide) h)
  have hstate (h : Nat) : hartState (kernelChecked p img) h = hartState p h := fld_congr (hreg _ _ (by decide) (by decide)) _ _
  have hsurvey (pg : Nat) : surveying (kernelChecked p img) pg = surveying p pg := bit_congr (hreg _ _ (by decide) (by decide)) _
  unfold releasable
  simp only [hstate, hsurvey]

/-- The harts released at a kernel's entry. -/
def hartsReleased (p : Pkg) (entry : Nat) (l : List Nat) : Pkg := l.foldl (fun q h => startHart q h entry 0) p

/-- The clusters of a list READY. -/
def clustersReady (l : List Nat) (p : Pkg) : Pkg := l.foldl (fun q k => becomeReady q (pgCc k)) p

theorem climb5_releases {s : State} {img : ImageInfo} (h : kernelResult s.pkg img = 0) : ∃ v l, v % 256 ^ 4 = 0x56470001 ∧
    climb5 img s = { s with
      mem := sealHandoff (s.mem.store 0 252 v)
      pkg := clustersReady l (hartsReleased (kernelNoted s.pkg img) (imageBase + img.entry) (releasable s.pkg)) } := by
  refine ⟨_, (List.range 12).filter fun k => !surveying (hartsReleased (kernelNoted s.pkg img) (imageBase + img.entry)
    (releasable s.pkg)) (pgCc k), handoffBytes_magic (kernelNoted s.pkg img) img (releasable s.pkg), ?_⟩
  rw [← releasable_checked s.pkg img, climb5]
  exact if_neg (not_not_intro h)

theorem climb5_holds {s : State} {img : ImageInfo} (h : kernelResult s.pkg img ≠ 0) :
    climb5 img s = { s with pkg := kernelChecked s.pkg img } := if_pos h

theorem clustersReady_parts (l : List Nat) (p : Pkg) : PartsKept p (clustersReady l p) := .foldl (fun q k => partsKept_becomeReady q (pgCc k)) l p

theorem clustersReady_reg (l : List Nat) (p : Pkg) (pg : Nat) {off : Nat} (h1 : 0x100 ≤ off) (h2 : off < 0x1000) :
    reg (clustersReady l p) (key pg off) = reg p (key pg off) := by
  have hoff : off ∉ [8, 0x20, 0x24] := by
    simp only [List.mem_cons, List.not_mem_nil, or_false]
    omega
  exact foldl_keeps (reg · (key pg off)) (fun q k => (becomeReady_readyOnly q (pgCc k)).reg pg off h2 hoff) l p

theorem hartsReleased_reg (p : Pkg) (entry : Nat) (l : List Nat) {pg off : Nat} (hpg : pg < 8) (h1 : 0x100 ≤ off) (h2 : off < 0x1000) :
    reg (hartsReleased p entry l) (key pg off) = reg p (key pg off) :=
  foldl_keeps (reg · (key pg off)) (fun q h => startHart_reg q h entry 0 hpg h1 h2) l p

theorem hartsReleased_seq (p : Pkg) (entry : Nat) (l : List Nat) : (hartsReleased p entry l).seq = p.seq :=
  foldl_keeps (fun q : Pkg => q.seq) (fun q h => startHart_seq q h entry 0) l p

theorem releasable_nodup (p : Pkg) : (releasable p).Nodup := List.Nodup.filter _ List.nodup_range

/-- What the release at step 5 leaves in the package. -/
theorem released_shows {p : Pkg} {img : ImageInfo} (h0 : kernelResult p img = 0) {l : List Nat} {q : Pkg}
    (hq : q = clustersReady l (hartsReleased (kernelNoted p img) (imageBase + img.entry) (releasable p))) :
    q.seq = { p.seq with step5Done := true } ∧ reg q svSeq = reg p svSeq ∧ fld q svBoot 27 24 = 0 ∧
      ∀ h ∈ releasable p, (hart q h).pc = imageBase + img.entry ∧ hartState q h = 1 := by
  have hparts := clustersReady_parts l (hartsReleased (kernelNoted p img) (imageBase + img.entry) (releasable p))
  have hreg (pg : Nat) {off : Nat} (h1 : 0x100 ≤ off) (h2 : off < 0x1000) :=
    clustersReady_reg l (hartsReleased (kernelNoted p img) (imageBase + img.entry) (releasable p)) pg h1 h2
  rw [← hq] at hparts hreg
  refine ⟨hparts.seq.trans (hartsReleased_seq _ _ _), ?_, ?_, fun h hh => ?_⟩
  · exact (hreg pgSv (by decide) (by decide)).trans ((hartsReleased_reg _ _ _ (by decide) (by decide) (by decide)).trans
      (kernelNoted_reg p img (by decide)))
  · have hboot : reg q svBoot = reg (kernelNoted p img) svBoot :=
      (hreg pgSv (by decide) (by decide)).trans (hartsReleased_reg _ _ _ (by decide) (by decide) (by decide))
    rw [fld_congr hboot, kernelNoted, fld_setFld_beside _ _ _ _ _ _ _ (by decide) (by decide) (by decide) (by decide),
      kernelChecked_result, h0]
  · obtain ⟨hpc, hstate⟩ := (startHarts_start (releasable p) (releasable_nodup p) (imageBase + img.entry) (kernelNoted p img) (h := h)).1 hh
    have hsame : hart q h = hart (hartsReleased (kernelNoted p img) (imageBase + img.entry) (releasable p)) h := hart_congr hparts.harts h
    have hst : hartState q h = hartState (hartsReleased (kernelNoted p img) (imageBase + img.entry) (releasable p)) h :=
      fld_congr (hreg _ (by decide) (by decide)) _ _
    rw [hsame, hst]
    exact ⟨hpc, hstate⟩

/-! ## The descent (R665, R669) -/

theorem exec_descends {s u : State} {n : Nat} {p : Pkg} (hs : seqState s.pkg = 3) (hn : seqStep s.pkg = n) (h2 : 2 ≤ n)
    (hact : descendAct n s = u) (hend : descendEnd n u.pkg = p) : exec .descendingStep s = .next { u with pkg := p } := by
  have hexec : exec .descendingStep s = execDescendingStep s := rfl
  rw [hexec, execDescendingStep, if_pos ⟨hs, by omega⟩, ← hend, ← hact, ← hn]
  rfl

/-- A descending step that goes on down. -/
theorem descendEnd_goesOn {n : Nat} (p : Pkg) (h4 : n ≠ 4) (h2 : 2 < n) : descendEnd n p = setSeq p 3 (n - 1) := by
  unfold descendEnd
  rw [if_neg h4, if_neg (by omega)]

theorem descendEnd_aux {p : Pkg} (ht : seqTarget p = 0) : descendEnd 2 p = setBit (setSeq p 0 1) svSeq 20 false := by
  obtain ⟨hstate, -, -⟩ := setSeq_shows p (st := 0) (n := 1) (by decide) (by decide)
  exact leaveRest_aux hstate ((seqTarget_setSeq p (by decide) (by decide)).trans ht)

theorem descendEnd_down {p : Pkg} (ht : seqTarget p = 0) : descendEnd 4 p = setSeq p 3 3 := by
  rw [descendEnd, if_pos rfl, if_pos (.inl ht)]

theorem descendEnd_quiesced {p : Pkg} (ht : seqTarget p = 1) (hc : p.seq.climbAfter = false) :
    descendEnd 4 p = setBit (setSeq p 4 3) svSeq 20 false := by
  obtain ⟨hstate, -, -⟩ := setSeq_shows p (st := 4) (n := 3) (by decide) (by decide)
  have hgo : ¬ (seqTarget p = 0 ∨ (p.seq.climbAfter = true ∧ p.seq.step5Done = false)) := by
    simp [ht, hc]
  rw [descendEnd, if_pos rfl, if_neg hgo]
  exact (leaveRest_quiesced hstate ((seqTarget_setSeq p (by decide) (by decide)).trans ht))

theorem linkDown_seq (p : Pkg) (i cause : Nat) : (linkDown p i cause).seq = p.seq := by
  rw [linkDown_eq, seq_setPlState]
  exact (logErr_only _ _ _).seq_eq

/-- Every laser goes out, and with it every link. -/
theorem lasersOff_seq (p : Pkg) : (lasersOff p).seq = { p.seq with lasers := false } := by
  have hport (q : Pkg) (i : Nat) : (if linkUp q i then linkDown q i 2 else setPlState q i stDown).seq = q.seq := by
    split
    · exact linkDown_seq _ _ _
    · exact seq_setPlState _ _ _
  exact foldl_keeps (fun q : Pkg => q.seq) hport (List.range 6) { p with seq := { p.seq with lasers := false } }

theorem reg_gateDown (p : Pkg) (k : Nat) : reg (gateDown p) k = reg p k := by
  have htarget (q : Pkg) (r mv : Nat) : reg (target q r mv) k = reg q k := by
    unfold target
    split
    · exact reg_withPwr q _ k
    · rfl
  exact (foldl_keeps (reg · k) (fun q r => htarget q r _) _ _).trans (reg_congr rfl rfl rfl k)

theorem gateDown_seq (p : Pkg) : (gateDown p).seq = { p.seq with memRefresh := true } := by
  obtain ⟨w, -, hseq⟩ := targets_power (fun _ r => if r < 4 then 600 else 650) (List.range 5)
    { p with pwr := { p.pwr with gateClosed := true }, seq := { p.seq with memRefresh := true } }
  exact hseq

theorem svSeq_readyFalls (p : Pkg) : reg (readyFalls p) svSeq = reg p svSeq :=
  (reg_withPwr _ _ _).trans (foldl_keeps (reg · svSeq) (fun q pg => svSeq_setReady q pg false) _ p)

/-- The surveys of a list given up. -/
def surveysStopped (l : List Nat) (p : Pkg) : Pkg := l.foldl (fun q pg => setBit q (key pg 8) 4 false) p

/-- The surveys that a descent abandons are remembered. -/
def resurveys (l : List Nat) (p : Pkg) : Pkg := { p with seq := { p.seq with resurvey := (l ++ p.seq.resurvey).eraseDups } }

/-- Descending step 4 where the surveys of a list are given up. -/
def quieted (l : List Nat) (p : Pkg) : Pkg := readyFalls (dropTraces (gateDown (resurveys l (surveysStopped l p))))

theorem descend4_eq (p : Pkg) : descend4 p = quieted (blockPages.filter (surveying p)) p := rfl

theorem surveysStopped_keeps (l : List Nat) (p : Pkg) : (surveysStopped l p).seq = p.seq ∧ reg (surveysStopped l p) svSeq = reg p svSeq := by
  have hparts : PartsKept p (surveysStopped l p) := .foldl (fun q pg => (setBit_only _ _ _ _).log.partsKept) l p
  have hreg (q : Pkg) (pg : Nat) : reg (setBit q (key pg 8) 4 false) svSeq = reg q svSeq :=
    reg_setFld_ne _ _ _ _ (key_ne _ _ (by decide) (by decide) (by decide))
  exact ⟨hparts.seq, foldl_keeps (reg · svSeq) hreg l p⟩

theorem quieted_shows (l : List Nat) (p : Pkg) : (quieted l p).pwr.gateClosed = true ∧ (quieted l p).seq.memRefresh = true ∧
    (quieted l p).seq.climbAfter = p.seq.climbAfter ∧ reg (quieted l p) svSeq = reg p svSeq := by
  obtain ⟨hstopped, hreg⟩ := surveysStopped_keeps l p
  unfold quieted
  generalize surveysStopped l p = r at *
  have hafter : (resurveys l r).seq.climbAfter = p.seq.climbAfter := (congrArg SeqSt.climbAfter hstopped :)
  have hsv : reg (resurveys l r) svSeq = reg p svSeq := (reg_congr rfl rfl rfl _ : reg (resurveys l r) svSeq = reg r svSeq).trans hreg
  generalize resurveys l r = q at *
  obtain ⟨hdown, -⟩ := gateDown_power q
  have hrefresh := gateDown_seq q
  have hsvDown := (reg_gateDown q svSeq).trans hsv
  generalize gateDown q = g at *
  obtain ⟨hgate, hseq⟩ := readyFalls_power (dropTraces g)
  have htraces : reg (dropTraces g) svSeq = reg g svSeq := reg_congr rfl rfl rfl _
  rw [svSeq_readyFalls, htraces, hsvDown, hseq]
  exact ⟨hgate.trans hdown, (congrArg SeqSt.memRefresh hrefresh :), (congrArg SeqSt.climbAfter hrefresh :).trans hafter, rfl⟩

end Sys2Proof.Machine
end

section
/-! The proof of O56. -/

namespace Sys2Proof.Machine

/-! ## What each climbing step does -/

section
variable {s : State} {img : ImageInfo}

theorem climbAct_two (h : seqStep s.pkg = 1) : climbAct img s = climb2 s := by
  rw [climbAct, h]
  rfl

theorem climbAct_three (h : seqStep s.pkg = 2) : climbAct img s = { s with pkg := climb3 s.pkg } := by
  rw [climbAct, h]
  rfl

theorem climbAct_five (h : seqStep s.pkg = 4) (hd : s.pkg.seq.step5Done = false) : climbAct img s = climb5 img s := by
  rw [climbAct, h]
  exact if_neg (by simp [hd])

theorem climbAct_six (h : seqStep s.pkg = 5) : climbAct img s = if inHold s.pkg then s else { s with pkg := portsLight s.pkg } := by
  rw [climbAct, h]
  rfl
end

theorem target_congr {p q : Pkg} (h : reg q svSeq = reg p svSeq) : seqTarget q = seqTarget p := fld_congr h 23 22

/-- Light at step 6 leaves the sequencer's register, and its state but for the lasers. -/
theorem climbAct_light {s : State} (img : ImageInfo) (h : seqStep s.pkg = 5) : (climbAct img s).mem = s.mem ∧
    (climbAct img s).pkg.seq.climbAfter = s.pkg.seq.climbAfter ∧ reg (climbAct img s).pkg svSeq = reg s.pkg svSeq ∧
    (inHold s.pkg = false → (climbAct img s).pkg.seq.lasers = true) := by
  rw [climbAct_six h]
  have hlight := (portsLight_power s.pkg).2
  split
  next hhold => exact ⟨rfl, rfl, rfl, fun hout => absurd hhold (by simp [hout])⟩
  next => exact ⟨rfl, (congrArg SeqSt.climbAfter hlight :), (workLost_portsLight s.pkg).seq, fun _ => (congrArg SeqSt.lasers hlight :)⟩

/-- A check's result fits its field. -/
theorem imageResult_small (f : FuseSt) (kind max : Nat) (i : ImageInfo) : imageResult f kind max i < 16 := by
  unfold imageResult
  split
  · exact Nat.one_lt_ofNat
  split
  · decide
  split
  · decide
  · split <;> decide

/-! ## PKG_ON (R661, R668) -/

section
variable {s : State} (hrun : s.pkg.boot.running.isSome = true)
include hrun

theorem pkgOn_climbs (h0 : seqState s.pkg = 0) (hok : climbOk s.pkg = true) : ∃ t, exec .pkgOnRise s = .next t ∧ t.mem = s.mem ∧
    seqTarget t.pkg = 2 ∧ seqState t.pkg = 1 ∧ seqStep t.pkg = seqStep s.pkg ∧ bit t.pkg svSeq 21 = true := by
  obtain ⟨hstate, hstep, htarget, hpin⟩ := pinned_shows s.pkg true (t := 2) (by decide)
  obtain ⟨htarget', hstate', hstep', hpin'⟩ := climbing_shows (pinned s.pkg true 2)
  exact ⟨_, next_onPkg ((setTarget_pin true 2 hrun).trans (leaveRest_climbs (hstate.trans h0) (by omega) ((climbOk_target _ _ _ _).trans hok))),
    rfl, htarget'.trans htarget, hstate', hstep'.trans hstep, hpin'.trans hpin⟩

theorem pkgOn_waits (h0 : seqState s.pkg = 0) (hwait : climbOk s.pkg = false) : ∃ t, exec .pkgOnRise s = .next t ∧ t.mem = s.mem ∧
    seqTarget t.pkg = 2 ∧ seqState t.pkg = 0 ∧ bit t.pkg svSeq 20 = true := by
  obtain ⟨hstate, -, htarget, -⟩ := pinned_shows s.pkg true (t := 2) (by decide)
  refine ⟨_, next_onPkg ((setTarget_pin true 2 hrun).trans (leaveRest_waits (hstate.trans h0) (by omega)
    ((climbOk_target _ _ _ _).trans hwait))), rfl, ?_, ?_, bit_setBit_self _ _ _ _ (by decide)⟩
  · exact (fld_flowWait _ _ (by decide) (by decide)).trans htarget
  · exact (fld_flowWait _ _ (by decide) (by decide)).trans (hstate.trans h0)

theorem pkgOff_descends (hrest : seqState s.pkg = 2 ∨ seqState s.pkg = 4) : ∃ t, exec .pkgOnFall s = .next t ∧ t.mem = s.mem ∧
    seqTarget t.pkg = 0 ∧ seqState t.pkg = 3 ∧ seqStep t.pkg = seqStep s.pkg ∧ bit t.pkg svSeq 21 = false := by
  obtain ⟨hstate, hstep, htarget, hpin⟩ := pinned_shows s.pkg false (t := 0) (by decide)
  rw [← hstate] at hrest
  have hlt := seqStep_lt (pinned s.pkg false 0)
  obtain ⟨hstate', hstep', -⟩ := setSeq_shows (pinned s.pkg false 0) (st := 3) (by decide) hlt
  exact ⟨_, next_onPkg ((setTarget_pin false 0 hrun).trans (leaveRest_falls hrest htarget)), rfl,
    (seqTarget_setSeq _ (by decide) hlt).trans htarget, hstate', hstep'.trans hstep, (bit_setSeq _ (by decide) hlt (by decide)).trans hpin⟩
end

/-! ## The climb (R662, R664, R669) -/

section
variable {s : State} (img : ImageInfo) (hs : seqState s.pkg = 1) (hc : s.pkg.seq.climbAfter = false) (ht : seqTarget s.pkg ≠ 0)
include hs hc ht

theorem step2_powersUp (hn : seqStep s.pkg = 1) (hflash : s.pkg.boot.flashOwner = 0) : ∃ t, exec (.sequencerStep img) s = .next t ∧
    t.mem = s.mem.hostOnly ∧ t.pkg.seq.railEnLink = true ∧ t.pkg.boot.powerUps = s.pkg.boot.powerUps + 1 ∧
    t.pkg.standalone = (s.pkg.fuse.personality == 1) ∧ t.pkg.ces = [] ∧ t.pkg.harts = [] ∧
    t.pkg.pace.datum = s.pkg.pace.datum ∧ ready t.pkg pgRt = true ∧ seqState t.pkg = 1 ∧ seqStep t.pkg = 2 := by
  obtain ⟨hmem, hparts, hseq, hready⟩ := climb2_shows hs
  obtain ⟨hlink, hafter, hups, halone, hces, hharts, hdatum⟩ := poweredUp_parts s.pkg
  have hact := climbAct_two (img := img) hn
  have hcool : (climb2 s).pkg.seq.climbAfter = false := (congrArg SeqSt.climbAfter hparts.seq).trans (hafter.trans hc)
  generalize climb2 s = u at *
  obtain ⟨r, hexec, hlog, hstate, hstep, hreg⟩ := exec_goesOn hs hn (fun _ => hflash) (by decide) hact hcool
    ((target_congr hseq).trans_ne ht)
  generalize poweredUp s.pkg = q at *
  obtain ⟨gseq, gboot, galone, gces, gharts, gpace⟩ := hparts.trans hlog.partsKept
  refine ⟨_, hexec, hmem, (congrArg SeqSt.railEnLink gseq).trans hlink, (congrArg BootSt.powerUps gboot).trans hups,
    galone.trans halone, gces.trans hces, gharts.trans hharts, (congrArg PaceSt.datum gpace).trans hdatum, ?_, hstate, hstep⟩
  exact (bit_congr (hreg _ (by decide) (by decide) (by decide)) 0).trans hready

theorem step3_raisesRails (hn : seqStep s.pkg = 2) : ∃ t, exec (.sequencerStep img) s = .next t ∧ t.mem = s.mem ∧
    t.pkg.seq.railEnCore = true ∧ t.pkg.seq.railPgCore = true ∧ t.pkg.seq.dieReset = false ∧ (∀ r, r < 5 → railOf t.pkg r = 750) ∧
    seqState t.pkg = 1 ∧ seqStep t.pkg = 3 := by
  obtain ⟨hseq, hrails, hsv⟩ := climb3_shows s.pkg
  have hact := climbAct_three (img := img) hn
  generalize climb3 s.pkg = q at *
  obtain ⟨r, hexec, hlog, hstate, hstep, -⟩ := exec_goesOn hs hn (fun h => by omega) (by decide) hact
    ((congrArg SeqSt.climbAfter hseq).trans hc) ((target_congr hsv).trans_ne ht)
  have gseq := hlog.seq_eq.trans hseq
  refine ⟨_, hexec, rfl, congrArg SeqSt.railEnCore gseq, congrArg SeqSt.railPgCore gseq, congrArg SeqSt.dieReset gseq, fun d hd => ?_,
    hstate, hstep⟩
  exact (congrArg (fun x : PwrSt => SMap.get x.railMv d 0) hlog.pwr_eq).trans (hrails d hd)

theorem step5_releases (hn : seqStep s.pkg = 4) (hd : s.pkg.seq.step5Done = false) (hk : kernelResult s.pkg img = 0) (hwf : s.mem.wf = true) :
    ∃ t, exec (.sequencerStep img) s = .next t ∧ t.mem.read 0 4 = 0x56470001 ∧ (∀ a, 256 ≤ a → t.mem.byte a = s.mem.byte a) ∧
      t.pkg.seq.step5Done = true ∧ fld t.pkg svBoot 27 24 = 0 ∧
      (∀ h, h ∈ releasable s.pkg → (hart t.pkg h).pc = imageBase + img.entry ∧ hartState t.pkg h = 1) ∧ seqStep t.pkg = 5 := by
  obtain ⟨v, l, hv, hrel⟩ := climb5_releases hk
  obtain ⟨hmagic, hbytes⟩ := handoff_written hwf hv
  have hact := (climbAct_five (img := img) hn hd).trans hrel
  generalize hq : clustersReady l (hartsReleased (kernelNoted s.pkg img) (imageBase + img.entry) (releasable s.pkg)) = q at hact
  obtain ⟨hseq, hsv, hboot, hharts⟩ := released_shows hk hq.symm
  obtain ⟨r, hexec, hlog, hstate, hstep, hreg⟩ := exec_goesOn hs hn (fun h => by omega) (by decide) hact
    ((congrArg SeqSt.climbAfter hseq).trans hc) ((target_congr hsv).trans_ne ht)
  refine ⟨_, hexec, hmagic, hbytes, congrArg SeqSt.step5Done (hlog.seq_eq.trans hseq),
    (fld_congr (hreg _ (by decide) (by decide) (by decide)) _ _).trans hboot, fun h hh => ?_, hstep⟩
  obtain ⟨hpc, hrun⟩ := hharts h hh
  have hst : reg r (hartStateKey h) = reg q (hartStateKey h) := hreg _ (key_ne_page (by decide) (by decide) (by unfold pgCc pgSv; omega))
    (key_ne _ _ (by decide) (by decide) (by decide)) (key_ne _ _ (by decide) (by decide) (by decide))
  exact ⟨(congrArg Hart.pc (hart_congr hlog.partsKept.harts h)).trans hpc, (fld_congr hst _ _).trans hrun⟩

theorem step5_holds (hn : seqStep s.pkg = 4) (hd : s.pkg.seq.step5Done = false) (hk : kernelResult s.pkg img ≠ 0) :
    ∃ t, exec (.sequencerStep img) s = .next t ∧ t.mem = s.mem ∧ t.pkg.harts = s.pkg.harts ∧
      fld t.pkg svBoot 27 24 = kernelResult s.pkg img ∧ seqStep t.pkg = 5 := by
  have hlt : kernelResult s.pkg img < 16 := imageResult_small _ _ _ _
  have hact := (climbAct_five (img := img) hn hd).trans (climb5_holds hk)
  have hsv : reg (kernelChecked s.pkg img) svSeq = reg s.pkg svSeq := kernelChecked_reg _ _ (by decide)
  have hresult := kernelChecked_result s.pkg img
  obtain ⟨r, hexec, hlog, hstate, hstep, hreg⟩ := exec_goesOn hs hn (fun h => by omega) (by decide) hact hc ((target_congr hsv).trans_ne ht)
  refine ⟨_, hexec, rfl, hlog.partsKept.harts, ?_, hstep⟩
  exact ((fld_congr (hreg svBoot (by decide) (by decide) (by decide)) _ _).trans hresult).trans (Nat.mod_eq_of_lt hlt)

omit ht in
theorem step6_runs (hn : seqStep s.pkg = 5) (ht2 : seqTarget s.pkg = 2) : ∃ t, exec (.sequencerStep img) s = .next t ∧ t.mem = s.mem ∧
    (inHold s.pkg = false → t.pkg.seq.lasers = true) ∧ seqState t.pkg = 2 ∧ seqStep t.pkg = 6 := by
  obtain ⟨hmem, hafter, hsv, hlight⟩ := climbAct_light img hn
  obtain ⟨hstate, hstep, -⟩ := setSeq_shows (climbAct img s).pkg (st := 2) (n := 6) (by decide) (by decide)
  refine ⟨_, exec_climbs hs hn (fun h => by omega) (climbEnd_runs (hafter.trans hc) ((target_congr hsv).trans ht2)), hmem, fun hout => ?_,
    hstate, hstep⟩
  exact (congrArg SeqSt.lasers (setSeq_only _ _ _).seq_eq).trans (hlight hout)
end

/-! ## The descent (R665, R669) -/

theorem descendAct_four (s : State) : ∃ q, descendAct 4 s = { s with pkg := q } ∧ q.pwr.gateClosed = true ∧ q.seq.memRefresh = true ∧
    q.seq.climbAfter = s.pkg.seq.climbAfter ∧ seqTarget q = seqTarget s.pkg := by
  have hact : descendAct 4 s = { s with pkg := descend4 s.pkg } := rfl
  obtain ⟨hgate, hrefresh, hafter, hsv⟩ := quieted_shows (blockPages.filter (surveying s.pkg)) s.pkg
  rw [descend4_eq] at hact
  generalize quieted (blockPages.filter (surveying s.pkg)) s.pkg = q at *
  exact ⟨q, hact, hgate, hrefresh, hafter, target_congr hsv⟩

section
variable {s : State} (hs : seqState s.pkg = 3)
include hs

theorem descend_lasers (hn : seqStep s.pkg = 6) : ∃ t, exec .descendingStep s = .next t ∧ t.mem = s.mem ∧ t.pkg.seq.lasers = false ∧
    seqState t.pkg = 3 ∧ seqStep t.pkg = 5 := by
  have hact : descendAct 6 s = { s with pkg := lasersOff s.pkg } := rfl
  have hseq := lasersOff_seq s.pkg
  generalize lasersOff s.pkg = q at *
  obtain ⟨hstate, hstep, -⟩ := setSeq_shows q (st := 3) (n := 5) (by decide) (by decide)
  exact ⟨_, exec_descends hs hn (by decide) hact (descendEnd_goesOn q (by decide) (by decide)), rfl,
    congrArg SeqSt.lasers ((setSeq_only q 3 5).seq_eq.trans hseq), hstate, hstep⟩

theorem descend_stops (hn : seqStep s.pkg = 5) : ∃ t, exec .descendingStep s = .next t ∧ seqState t.pkg = 3 ∧ seqStep t.pkg = 4 := by
  generalize hact : descendAct 5 s = u
  obtain ⟨hstate, hstep, -⟩ := setSeq_shows u.pkg (st := 3) (n := 4) (by decide) (by decide)
  exact ⟨_, exec_descends hs hn (by decide) hact (descendEnd_goesOn u.pkg (by decide) (by decide)), hstate, hstep⟩

theorem descend_quiesces (hn : seqStep s.pkg = 4) (ht : seqTarget s.pkg = 1) (hc : s.pkg.seq.climbAfter = false) :
    ∃ t, exec .descendingStep s = .next t ∧ t.mem = s.mem ∧ t.pkg.pwr.gateClosed = true ∧ t.pkg.seq.memRefresh = true ∧ seqState t.pkg = 4 := by
  obtain ⟨q, hact, hgate, hrefresh, hafter, htarget⟩ := descendAct_four s
  obtain ⟨hstate, -, -⟩ := setSeq_shows q (st := 4) (n := 3) (by decide) (by decide)
  have honly := setSeq_only q 4 3
  refine ⟨_, exec_descends hs hn (by decide) hact (descendEnd_quiesced (htarget.trans ht) (hafter.trans hc)), rfl,
    (congrArg PwrSt.gateClosed honly.pwr_eq).trans hgate, (congrArg SeqSt.memRefresh honly.seq_eq).trans hrefresh, ?_⟩
  exact (fld_flowWait _ _ (by decide) (by decide)).trans hstate

theorem descend_closes (hn : seqStep s.pkg = 4) (ht : seqTarget s.pkg = 0) : ∃ t, exec .descendingStep s = .next t ∧ t.mem = s.mem ∧
    t.pkg.pwr.gateClosed = true ∧ seqState t.pkg = 3 ∧ seqStep t.pkg = 3 := by
  obtain ⟨q, hact, hgate, -, -, htarget⟩ := descendAct_four s
  obtain ⟨hstate, hstep, -⟩ := setSeq_shows q (st := 3) (n := 3) (by decide) (by decide)
  exact ⟨_, exec_descends hs hn (by decide) hact (descendEnd_down (htarget.trans ht)), rfl,
    (congrArg PwrSt.gateClosed (setSeq_only q 3 3).pwr_eq).trans hgate, hstate, hstep⟩

theorem descend_core (hn : seqStep s.pkg = 3) : ∃ t, exec .descendingStep s = .next t ∧ t.mem = s.mem ∧ t.pkg.seq.railEnCore = false ∧
    t.pkg.seq.dieReset = true ∧ seqState t.pkg = 3 ∧ seqStep t.pkg = 2 := by
  have hact : descendAct 3 s = { s with pkg := descend3 s.pkg } := rfl
  have hrail : (descend3 s.pkg).seq.railEnCore = false := rfl
  have hreset : (descend3 s.pkg).seq.dieReset = true := rfl
  generalize descend3 s.pkg = q at *
  obtain ⟨hstate, hstep, -⟩ := setSeq_shows q (st := 3) (n := 2) (by decide) (by decide)
  have hseq := (setSeq_only q 3 2).seq_eq
  exact ⟨_, exec_descends hs hn (by decide) hact (descendEnd_goesOn q (by decide) (by decide)), rfl,
    (congrArg SeqSt.railEnCore hseq).trans hrail, (congrArg SeqSt.dieReset hseq).trans hreset, hstate, hstep⟩

theorem descend_aux (hn : seqStep s.pkg = 2) (ht : seqTarget s.pkg = 0) : ∃ t, exec .descendingStep s = .next t ∧ t.mem = s.mem.hostOnly ∧
    t.pkg.seq.railEnLink = false ∧ t.pkg.ces = [] ∧ t.pkg.pace.datum = s.pkg.pace.datum ∧ seqState t.pkg = 0 ∧ seqStep t.pkg = 1 := by
  have hact : descendAct 2 s = { s with mem := s.mem.hostOnly, pkg := offAux s.pkg } := rfl
  have htarget : seqTarget (offAux s.pkg) = seqTarget s.pkg := target_congr (reg_offAux _ (by decide) (by decide))
  have hlink : (offAux s.pkg).seq.railEnLink = false := rfl
  obtain ⟨-, hnoCes, -, hdatum⟩ := offAux_parts s.pkg
  generalize offAux s.pkg = q at *
  obtain ⟨hstate, hstep, -⟩ := setSeq_shows q (st := 0) (n := 1) (by decide) (by decide)
  obtain ⟨hseq, -, -, hces, -, hpace⟩ := (setSeq_only q 0 1).partsKept
  refine ⟨_, exec_descends hs hn (by decide) hact (descendEnd_aux (htarget.trans ht)), rfl,
    (congrArg SeqSt.railEnLink hseq).trans hlink, hces.trans hnoCes, (congrArg PaceSt.datum hpace).trans hdatum, ?_, ?_⟩
  · exact (fld_flowWait _ _ (by decide) (by decide)).trans hstate
  · exact (fld_flowWait _ _ (by decide) (by decide)).trans hstep
end

/-- Settles O56. -/
theorem theSequencerClimbsAndDescends : Obligations.TheSequencerClimbsAndDescends := by
  unfold Obligations.TheSequencerClimbsAndDescends
  refine ⟨fun s hrun => ⟨pkgOn_climbs hrun, pkgOn_waits hrun, pkgOff_descends hrun⟩, fun s img hs hc ht => ⟨step2_powersUp img hs hc ht,
    exec_flashHeld hs, step3_raisesRails img hs hc ht, step5_releases img hs hc ht, step5_holds img hs hc ht, step6_runs img hs hc⟩,
    fun s hs => ⟨descend_lasers hs, descend_stops hs, descend_quiesces hs, descend_closes hs, descend_core hs, descend_aux hs⟩, ?_⟩
  intro s stack hstack hpg hstep hstate he hh
  refine ⟨_, next_onPkg (if_pos ⟨hstack, hpg, hstep, hstate⟩), rfl, ?_⟩
  exact becomeReady_readies (fun pg off _ _ => reg_restartPaths s.pkg (pgHbm stack) (key pg off)) he hh

end Sys2Proof.Machine
end

section
/-! What the traffic of a line and its snoops leave of a home (spec/13 R448 to R459). -/

namespace Sys2Proof.Machine

/-! ## The traffic of a line -/

/-- From p to q a line has been fetched, carried or written back: beside the homes' cache parts, the harts' counters and the controllers,
nothing of a home or of a hart changes, and nothing leaves. -/
structure MovesLine (p q : Pkg) : Prop where
  home : ∃ t, q.home = { p.home with tags := t }
  out : q.out = p.out
  pace : q.pace = p.pace
  harts : ∀ h, ∃ c, hart q h = { hart p h with csr := c }

theorem MovesLine.refl (p : Pkg) : MovesLine p p := ⟨⟨_, rfl⟩, rfl, rfl, fun _ => ⟨_, rfl⟩⟩

theorem MovesLine.trans {p q r : Pkg} (h : MovesLine p q) (g : MovesLine q r) : MovesLine p r := by
  obtain ⟨⟨t, hhome⟩, hout, hpace, hharts⟩ := h
  obtain ⟨⟨u, ghome⟩, gout, gpace, gharts⟩ := g
  refine ⟨⟨u, ?_⟩, gout.trans hout, gpace.trans hpace, fun n => ?_⟩
  · rw [ghome, hhome]
  · obtain ⟨c, hc⟩ := hharts n
    obtain ⟨d, hd⟩ := gharts n
    exact ⟨d, by rw [hd, hc]⟩

theorem MovesLine.foldl {α : Type} {f : Pkg → α → Pkg} (hf : ∀ p a, MovesLine p (f p a)) (l : List α) (p : Pkg) :
    MovesLine p (l.foldl f p) := by
  induction l generalizing p with
  | nil => exact .refl p
  | cons a l ih => exact (hf p a).trans (ih _)

section
variable {p q : Pkg} (h : MovesLine p q)
include h

theorem MovesLine.dir : q.home.dir = p.home.dir := by
  obtain ⟨t, ht⟩ := h.home
  rw [ht]

theorem MovesLine.dirLine_eq (line : Nat) : dirLine q line = dirLine p line := dirLine_congr h.dir line

theorem MovesLine.resv (n : Nat) : (hart q n).resv = (hart p n).resv := by
  obtain ⟨c, hc⟩ := h.harts n
  rw [hc]

theorem MovesLine.delayed (n : Nat) : (hart q n).delayed = (hart p n).delayed := by
  obtain ⟨c, hc⟩ := h.harts n
  rw [hc]
end

theorem movesLine_addReg (p : Pkg) (k n : Nat) : MovesLine p (addReg p k n) := ⟨⟨_, rfl⟩, rfl, rfl, fun _ => ⟨_, rfl⟩⟩

theorem movesLine_setTags (p : Pkg) (sl : Nat) (t : SMap Tag) : MovesLine p (setTags p sl t) := ⟨⟨_, rfl⟩, rfl, rfl, fun _ => ⟨_, rfl⟩⟩

theorem movesLine_memSend (p : Pkg) (pa cls : Nat) (w : Bool) : MovesLine p (memSend p pa cls w) := by
  unfold memSend
  split
  · exact ⟨⟨_, rfl⟩, rfl, rfl, fun _ => ⟨_, rfl⟩⟩
  · exact .refl p

theorem movesLine_writeBack (p : Pkg) (sl line : Nat) : MovesLine p (writeBack p sl line) :=
  (movesLine_addReg p _ 1).trans (movesLine_memSend _ _ _ _)

theorem movesLine_slmFill (p : Pkg) (sl line hint : Nat) (dirty : Bool) : MovesLine p (slmFill p sl line hint dirty) := by
  have hfill (q : Pkg) (t : SMap Tag) (n : Nat) : MovesLine q (countPins (setFld (setTags q sl t) (key (pgSl sl) 0x104) 15 0 n) sl) :=
    ⟨⟨_, rfl⟩, rfl, rfl, fun _ => ⟨_, rfl⟩⟩
  unfold slmFill
  dsimp only
  split
  · split
    · exact movesLine_writeBack _ _ _
    · exact .refl p
  · refine MovesLine.trans ?_ (hfill _ _ _)
    split
    · split
      · exact movesLine_writeBack _ _ _
      · exact .refl p
    · exact .refl p

theorem movesLine_slmRead (p : Pkg) (sl pa cls hint : Nat) : MovesLine p (slmRead p sl pa cls hint) := by
  have hmiss := (movesLine_addReg p (key (pgSl sl) 0x118) 1).trans (movesLine_memSend _ pa cls false)
  unfold slmRead
  dsimp only
  split
  · exact (movesLine_setTags _ _ _).trans (movesLine_addReg _ _ _)
  · split
    · exact hmiss
    · exact hmiss.trans (movesLine_slmFill _ _ _ _ _)

theorem movesLine_slmWrite (p : Pkg) (sl pa : Nat) (stream : Bool) : MovesLine p (slmWrite p sl pa stream) := by
  unfold slmWrite
  dsimp only
  split
  · exact movesLine_setTags _ _ _
  split
  · exact movesLine_memSend _ _ _ _
  · exact movesLine_slmFill _ _ _ _ _

theorem movesLine_ddrRead (p : Pkg) (pa cls : Nat) : MovesLine p (ddrRead p pa cls) := by
  unfold ddrRead
  split
  · exact .refl p
  · exact ⟨⟨_, rfl⟩, rfl, rfl, fun _ => ⟨_, rfl⟩⟩

theorem movesLine_homeFetch (p : Pkg) (pa : Nat) : MovesLine p (homeFetch p pa) := by
  unfold homeFetch
  split
  · exact movesLine_slmRead _ _ _ _ _
  · exact movesLine_ddrRead _ _ _
  · exact .refl p

theorem movesLine_carryLine (p : Pkg) (a b : Nat) (read : Bool) : MovesLine p (carryLine p a b read) := by
  have hstart : MovesLine p (if 4 ≤ a ∧ 4 ≤ b then nextFree p else p) := by
    split
    · exact ⟨⟨_, rfl⟩, rfl, rfl, fun _ => ⟨_, rfl⟩⟩
    · exact .refl p
  unfold carryLine
  dsimp only
  refine hstart.trans (.foldl (fun q h => ?_) _ _)
  split
  · exact .refl q
  split
  · exact (movesLine_addReg _ _ _).trans (movesLine_addReg _ _ _)
  · exact movesLine_addReg _ _ _

theorem movesLine_crossLine (p : Pkg) (who pa : Nat) (read : Bool) : MovesLine p (crossLine p who pa read) := by
  unfold crossLine
  split
  · exact movesLine_carryLine _ _ _ _
  · exact .refl p

theorem movesLine_setCsr (p : Pkg) (h n : Nat) (v : W64) : MovesLine p (setCsr p h n v) := by
  refine ⟨⟨_, rfl⟩, rfl, rfl, fun g => ?_⟩
  by_cases hg : g = h
  · exact ⟨_, by rw [hg, setCsr, hart_setHart_self]⟩
  · exact ⟨_, by rw [setCsr, hart_setHart_ne _ _ hg]⟩

theorem movesLine_hartEvent (p : Pkg) (h code n : Nat) : MovesLine p (hartEvent p h code n) :=
  .foldl (fun q _ => movesLine_setCsr q h _ _) _ p

theorem movesLine_hartMiss (p : Pkg) (h : Nat) : MovesLine p (hartMiss p h) := (movesLine_hartEvent _ _ _ _).trans (movesLine_hartEvent _ _ _ _)

theorem movesLine_hartFetch (p : Pkg) (h pa : Nat) : MovesLine p (hartFetch p h pa) := by
  have hfetch := movesLine_homeFetch p pa
  unfold hartFetch
  dsimp only
  split
  · split
    · exact hfetch.trans (movesLine_hartEvent _ _ _ _)
    · exact (hfetch.trans (movesLine_hartEvent _ _ _ _)).trans (movesLine_hartEvent _ _ _ _)
  · exact hfetch.trans (movesLine_hartEvent _ _ _ _)

theorem movesLine_snooped (p : Pkg) (line h : Nat) : MovesLine p (snooped p line h) := by
  unfold snooped
  dsimp only
  split
  · exact (movesLine_hartEvent _ _ _ _).trans (movesLine_hartEvent _ _ _ _)
  · exact movesLine_hartEvent _ _ _ _

theorem movesLine_sideTakes (p : Pkg) (pa : Nat) : MovesLine p (sideTakes p pa) := by
  unfold sideTakes
  split
  · exact movesLine_slmWrite _ _ _ _
  · exact .refl p

/-! ## What waits at the homes -/

/-- From p to q the pending lines, the recalls from the host and the queued requests stay, and nothing leaves. -/
structure KeepsWaiting (p q : Pkg) : Prop where
  pend : q.home.pend = p.home.pend
  bi : q.home.bi = p.home.bi
  queues : q.home.queues = p.home.queues
  out : q.out = p.out
  pace : q.pace = p.pace

theorem KeepsWaiting.refl (p : Pkg) : KeepsWaiting p p := ⟨rfl, rfl, rfl, rfl, rfl⟩

theorem KeepsWaiting.trans {p q r : Pkg} (h : KeepsWaiting p q) (g : KeepsWaiting q r) : KeepsWaiting p r :=
  ⟨g.pend.trans h.pend, g.bi.trans h.bi, g.queues.trans h.queues, g.out.trans h.out, g.pace.trans h.pace⟩

theorem KeepsWaiting.foldl {α : Type} {f : Pkg → α → Pkg} (hf : ∀ p a, KeepsWaiting p (f p a)) (l : List α) (p : Pkg) :
    KeepsWaiting p (l.foldl f p) := by
  induction l generalizing p with
  | nil => exact .refl p
  | cons a l ih => exact (hf p a).trans (ih _)

theorem MovesLine.waiting {p q : Pkg} (h : MovesLine p q) : KeepsWaiting p q := by
  obtain ⟨⟨t, ht⟩, hout, hpace, -⟩ := h
  refine ⟨?_, ?_, ?_, hout, hpace⟩ <;> rw [ht]

theorem keepsWaiting_setDir (p : Pkg) (line : Nat) (d : DirLine) : KeepsWaiting p (setDir p line d) := ⟨rfl, rfl, rfl, rfl, rfl⟩

theorem keepsWaiting_loseResv (p : Pkg) (h line : Nat) : KeepsWaiting p (loseResv p h line) := by
  unfold loseResv
  split
  · exact ⟨rfl, rfl, rfl, rfl, rfl⟩
  · exact .refl p

theorem keepsWaiting_giveUp (p : Pkg) (h line : Nat) : KeepsWaiting p (giveUp p h line) := by
  have hlost := keepsWaiting_loseResv p h line
  unfold giveUp
  dsimp only
  split
  · exact ((hlost.trans (movesLine_crossLine _ _ _ _).waiting).trans (movesLine_sideTakes _ _).waiting).trans (keepsWaiting_setDir _ _ _)
  · exact hlost.trans (keepsWaiting_setDir _ _ _)

theorem keepsWaiting_snoopInv (p : Pkg) (line : Nat) (but : Option Nat) : KeepsWaiting p (snoopInv p line but) := by
  unfold snoopInv
  dsimp only
  refine KeepsWaiting.trans (.foldl (fun q h => ?_) _ p) (keepsWaiting_setDir _ _ _)
  exact (movesLine_snooped q line h).waiting.trans (keepsWaiting_loseResv _ _ _)

theorem keepsWaiting_endRepair (p : Pkg) (line : Nat) : KeepsWaiting p (endRepair p line) := by
  unfold endRepair
  dsimp only
  split
  · refine KeepsWaiting.trans (q := { p with fault := { p.fault with repairs := SMap.drop p.fault.repairs (fun l => l == line) } })
      ⟨rfl, rfl, rfl, rfl, rfl⟩ (.foldl (fun q pg => ?_) _ _)
    exact ⟨rfl, rfl, rfl, rfl, rfl⟩
  · exact .refl p

theorem keepsWaiting_homeStore (p : Pkg) (pa : Nat) (stream : Bool) (who : Nat) : KeepsWaiting p (homeStore p pa stream who) := by
  have hinv := (keepsWaiting_endRepair p (pa / 64)).trans (keepsWaiting_snoopInv _ (pa / 64) none)
  have hwriter (q : Pkg) (w : SMap Nat) : KeepsWaiting q { q with home := { q.home with writer := w } } := ⟨rfl, rfl, rfl, rfl, rfl⟩
  unfold homeStore
  extract_lets p1 p2
  have h2 : KeepsWaiting p1 p2 := by
    unfold p2
    split
    · exact (movesLine_slmWrite _ _ _ _).waiting
    · split
      · exact (movesLine_memSend _ _ _ _).waiting
      · exact .refl _
    · exact .refl _
  exact (hinv.trans h2).trans (hwriter _ _)

theorem keepsWaiting_homeWrite (p : Pkg) (pa : Nat) (stream : Bool) (who : Nat) : KeepsWaiting p (homeWrite p pa stream who) :=
  (movesLine_crossLine p who pa false).waiting.trans (keepsWaiting_homeStore _ pa stream who)

/-! ## Reservations that go -/

theorem loseResv_loses (p : Pkg) (h line : Nat) : (hart (loseResv p h line) h).resv ≠ some line := by
  unfold loseResv
  split
  · rw [hart_setHart_self]
    exact nofun
  · assumption

/-- From p to q no hart comes to hold a reservation. -/
def NoNewResv (p q : Pkg) : Prop := ∀ g line, (hart p g).resv ≠ some line → (hart q g).resv ≠ some line

theorem NoNewResv.trans {p q r : Pkg} (h : NoNewResv p q) (g : NoNewResv q r) : NoNewResv p r := fun n l hn => g n l (h n l hn)

theorem NoNewResv.foldl {α : Type} {f : Pkg → α → Pkg} (hf : ∀ p a, NoNewResv p (f p a)) (l : List α) (p : Pkg) :
    NoNewResv p (l.foldl f p) := by
  induction l generalizing p with
  | nil => exact fun _ _ => id
  | cons a l ih => exact (hf p a).trans (ih _)

theorem MovesLine.noNewResv {p q : Pkg} (h : MovesLine p q) : NoNewResv p q := fun n l hn => by rwa [h.resv]

theorem noNewResv_loseResv (p : Pkg) (h line : Nat) : NoNewResv p (loseResv p h line) := by
  intro g l hg
  unfold loseResv
  split
  · by_cases hgh : g = h
    · rw [hgh, hart_setHart_self]
      exact nofun
    · rwa [hart_setHart_ne _ _ hgh]
  · exact hg

theorem noNewResv_setDir (p : Pkg) (line : Nat) (d : DirLine) : NoNewResv p (setDir p line d) := fun _ _ => id

/-! ## Entries of a filter (R448, R450) -/

theorem DirLine.mem_harts {d : DirLine} {g : Nat} : g ∈ d.harts ↔ d.owner = some g ∨ g ∈ d.sharers := by
  unfold DirLine.harts
  cases d.owner with
  | none => simp
  | some o => simp [eq_comm]

theorem DirLine.eq_empty {d : DirLine} (hh : d.harts = []) (h0 : d.host = 0) : d = DirLine.empty := by
  obtain ⟨owner, sharers, host⟩ := d
  cases owner with
  | none =>
    obtain rfl : sharers = [] := hh
    obtain rfl : host = 0 := h0
    rfl
  | some o => cases hh

theorem dirLine_setDir_ne (p : Pkg) {line l : Nat} (d : DirLine) (h : l ≠ line) : dirLine (setDir p line d) l = dirLine p l := by
  by_cases hd : d = DirLine.empty
  · simp [dirLine, setDir, hd, SMap.get_drop, h]
  · simp [dirLine, setDir, hd, SMap.get_set_ne _ _ _ h]

/-- The entry of a hart that has given its line up. -/
theorem dirLine_giveUp (p : Pkg) (h line : Nat) : dirLine (giveUp p h line) line = { dirLine p line with
    owner := if (dirLine p line).owner = some h then none else (dirLine p line).owner
    sharers := (dirLine p line).sharers.filter (· != h) } := dirLine_setDir_self _ _ _

theorem mem_giveUp (p : Pkg) (h line g : Nat) : g ∈ (dirLine (giveUp p h line) line).harts ↔ g ∈ (dirLine p line).harts ∧ g ≠ h := by
  rw [dirLine_giveUp, DirLine.mem_harts, DirLine.mem_harts]
  by_cases howner : (dirLine p line).owner = some h
  · simp only [howner, if_true, List.mem_filter, bne_iff_ne]
    grind
  · simp only [if_neg howner, List.mem_filter, bne_iff_ne]
    grind

theorem dirLine_loseResv (p : Pkg) (h line l : Nat) : dirLine (loseResv p h line) l = dirLine p l := by
  unfold loseResv
  split <;> rfl

theorem dirLine_giveUp_ne (p : Pkg) (h : Nat) {line l : Nat} (hl : l ≠ line) : dirLine (giveUp p h line) l = dirLine p l := by
  unfold giveUp
  dsimp only
  rw [dirLine_setDir_ne _ _ hl]
  split
  · rw [(movesLine_sideTakes _ _).dirLine_eq, (movesLine_crossLine _ _ _ _).dirLine_eq, dirLine_loseResv]
  · exact dirLine_loseResv _ _ _ _

theorem noNewResv_giveUp (p : Pkg) (h line : Nat) : NoNewResv p (giveUp p h line) := by
  have hlost := noNewResv_loseResv p h line
  unfold giveUp
  dsimp only
  split
  · exact ((hlost.trans (movesLine_crossLine _ _ _ _).noNewResv).trans (movesLine_sideTakes _ _).noNewResv).trans (noNewResv_setDir _ _ _)
  · exact hlost.trans (noNewResv_setDir _ _ _)

theorem giveUp_loses (p : Pkg) (h line : Nat) : (hart (giveUp p h line) h).resv ≠ some line := by
  have hlost := loseResv_loses p h line
  unfold giveUp
  dsimp only
  split
  · exact (movesLine_sideTakes _ _).noNewResv _ _ ((movesLine_crossLine _ _ _ _).noNewResv _ _ hlost)
  · exact hlost

theorem delayed_loseResv (p : Pkg) (h line g : Nat) : (hart (loseResv p h line) g).delayed = (hart p g).delayed := by
  unfold loseResv
  split
  · by_cases hg : g = h
    · rw [hg, hart_setHart_self]
    · rw [hart_setHart_ne _ _ hg]
  · rfl

theorem delayed_giveUp (p : Pkg) (h line g : Nat) : (hart (giveUp p h line) g).delayed = (hart p g).delayed := by
  have hlost := delayed_loseResv p h line g
  have hdir (q : Pkg) (d : DirLine) : hart (setDir q line d) g = hart q g := rfl
  unfold giveUp
  dsimp only
  rw [hdir]
  split
  · rw [(movesLine_sideTakes _ _).delayed, (movesLine_crossLine _ _ _ _).delayed, hlost]
  · exact hlost

/-! ## Harts that are snooped one after the other -/

/-- A snoop that a hart answers by giving the line up. -/
def snoopedOut (line : Nat) (p : Pkg) (h : Nat) : Pkg := giveUp (snooped p line h) h line

theorem keepsWaiting_snoopedOut (line : Nat) (p : Pkg) (h : Nat) : KeepsWaiting p (snoopedOut line p h) :=
  (movesLine_snooped p line h).waiting.trans (keepsWaiting_giveUp _ _ _)

theorem mem_snoopedOut (line : Nat) (p : Pkg) (h g : Nat) :
    g ∈ (dirLine (snoopedOut line p h) line).harts ↔ g ∈ (dirLine p line).harts ∧ g ≠ h := by
  rw [snoopedOut, mem_giveUp, (movesLine_snooped p line h).dirLine_eq]

theorem host_snoopedOut (line : Nat) (p : Pkg) (h : Nat) : (dirLine (snoopedOut line p h) line).host = (dirLine p line).host := by
  rw [snoopedOut, dirLine_giveUp, (movesLine_snooped p line h).dirLine_eq]

/-- The harts of a list that are snooped are in the line's entry no more; the others stay in it, and so does the host. -/
theorem snoopedOut_list (line : Nat) (l : List Nat) (p : Pkg) : (∀ g, g ∈ (dirLine (l.foldl (snoopedOut line) p) line).harts ↔
    g ∈ (dirLine p line).harts ∧ g ∉ l) ∧ (dirLine (l.foldl (snoopedOut line) p) line).host = (dirLine p line).host := by
  refine ⟨fun g => ?_, foldl_keeps (fun q => (dirLine q line).host) (host_snoopedOut line) l p⟩
  induction l generalizing p with
  | nil => simp
  | cons h l ih => rw [List.foldl_cons, ih, mem_snoopedOut, List.mem_cons, not_or, and_assoc]

/-- The lines of a list that a hart is snooped for: it is in none of their entries, and holds no reservation on them. -/
theorem linesGivenUp (h : Nat) (l : List Nat) (p : Pkg) {line : Nat}
    (hl : line ∈ l ∨ (h ∉ (dirLine p line).harts ∧ (hart p h).resv ≠ some line)) :
    h ∉ (dirLine (l.foldl (fun q line => snoopedOut line q h) p) line).harts ∧
      (hart (l.foldl (fun q line => snoopedOut line q h) p) h).resv ≠ some line := by
  induction l generalizing p with
  | nil => exact hl.resolve_left List.not_mem_nil
  | cons x l ih =>
    refine ih (snoopedOut x p h) ?_
    by_cases hx : line = x
    · subst hx
      exact .inr ⟨fun hm => ((mem_snoopedOut line p h h).mp hm).2 rfl, giveUp_loses _ _ _⟩
    · refine hl.imp (fun hm => (List.mem_cons.mp hm).resolve_left hx) fun ⟨hout, hresv⟩ => ⟨?_, ?_⟩
      · rwa [snoopedOut, dirLine_giveUp_ne _ _ hx, (movesLine_snooped p x h).dirLine_eq]
      · exact noNewResv_giveUp _ _ _ _ _ ((movesLine_snooped p x h).noNewResv _ _ hresv)

/-- What a snoop of every hart but one leaves of the line's entry. -/
theorem dirLine_snoopInv (p : Pkg) (line : Nat) (but : Option Nat) : dirLine (snoopInv p line but) line = { dirLine p line with
    owner := if (dirLine p line).owner = but then (dirLine p line).owner else none
    sharers := (dirLine p line).sharers.filter (fun h => some h == but) } := dirLine_setDir_self _ _ _

/-- A hart whose copy a snoop takes holds no reservation on the line. -/
theorem snoopInv_loses {p : Pkg} {line g : Nat} {but : Option Nat} (hg : g ∈ (dirLine p line).harts) (hne : some g ≠ but) :
    (hart (snoopInv p line but) g).resv ≠ some line := by
  have hfold (l : List Nat) (q : Pkg) (h : g ∈ l ∨ (hart q g).resv ≠ some line) :
      (hart (l.foldl (fun q h => loseResv (snooped q line h) h line) q) g).resv ≠ some line := by
    induction l generalizing q with
    | nil => exact h.resolve_left List.not_mem_nil
    | cons x l ih =>
      refine ih _ ?_
      by_cases hx : g = x
      · subst hx
        exact .inr (loseResv_loses _ _ _)
      · exact h.imp (fun hm => (List.mem_cons.mp hm).resolve_left hx) fun hresv =>
          noNewResv_loseResv _ _ _ _ _ ((movesLine_snooped q line x).noNewResv _ _ hresv)
  exact hfold _ p (.inl (List.mem_filter.mpr ⟨hg, bne_iff_ne.mpr hne⟩))

end Sys2Proof.Machine
end

section
/-! Homes answer coherence requests, and snoops take lines back (R448 to R459): the proof of O35. -/

namespace Sys2Proof.Machine

/-! ## Admission (R448, R449) -/

theorem foldl_add_eq_zero (l : List Nat) (n : Nat) : l.foldl (· + ·) n = 0 ↔ n = 0 ∧ ∀ x ∈ l, x = 0 := by
  induction l generalizing n with
  | nil => simp
  | cons a l ih =>
    rw [List.foldl_cons, ih, Nat.add_eq_zero_iff, List.forall_mem_cons, and_assoc]

/-- A home where nothing waits has empty REQ queues. -/
theorem reqQueue_nil {p : Pkg} {home j : Nat} (h : queuedReqs p home = 0) (hj : j < 64) : reqQueue p home j = [] := by
  obtain ⟨-, hall⟩ := (foldl_add_eq_zero _ _).mp h
  exact List.eq_nil_of_length_eq_zero (hall _ (List.mem_map.mpr ⟨j, List.mem_range.mpr hj, rfl⟩))

/-- Where the only element of a list with a property is one of it, a search finds it. -/
theorem find?_eq_some_unique {α : Type} {l : List α} {f : α → Bool} {a : α} (ha : a ∈ l) (hf : ∀ b ∈ l, f b = true ↔ b = a) :
    l.find? f = some a := by
  cases hfind : l.find? f with
  | none => exact absurd ((hf a ha).mpr rfl) (List.find?_eq_none.mp hfind a ha)
  | some b => rw [(hf b (List.mem_of_find?_eq_some hfind)).mp (List.find?_some hfind)]

section
variable {p : Pkg} {home port pa : Nat} {r : HomeReq} (hq : queuedReqs p home = 0)
include hq

/-- A request that comes where none waits is alone in the queues. -/
theorem reqQueue_arrived {j : Nat} (hj : j < 64) :
    reqQueue (setReqQueue p home port [(pa, r)]) home j = if j = port then [(pa, r)] else [] := by
  by_cases h : j = port
  · subst h
    rw [if_pos rfl]
    exact SMap.get_set_self _ _ _ _
  · rw [if_neg h]
    exact (SMap.get_set_ne _ _ _ (by omega)).trans (reqQueue_nil hq hj)

theorem queuedReqs_arrived (hport : port < 64) : queuedReqs (setReqQueue p home port [(pa, r)]) home = 1 := by
  have hone : ∀ i : Fin 64, ((List.range 64).map (fun j => if j = i.val then 1 else 0)).foldl (· + ·) 0 = 1 := by decide
  have hlen : (List.range 64).map (fun j => (reqQueue (setReqQueue p home port [(pa, r)]) home j).length) =
      (List.range 64).map (fun j => if j = port then 1 else 0) := by
    refine List.map_congr_left fun j hj => ?_
    rw [reqQueue_arrived hq (List.mem_range.mp hj)]
    split <;> rfl
  rw [queuedReqs, hlen]
  exact hone ⟨port, hport⟩

theorem nextPort_arrived (hport : port < 64) : nextPort (setReqQueue p home port [(pa, r)]) home = some port := by
  refine find?_eq_some_unique ?_ fun j hj => ?_
  · generalize SMap.get (setReqQueue p home port [(pa, r)]).home.lastPort home 63 = last
    exact List.mem_map.mpr ⟨(port + 64 - (last + 1) % 64) % 64, List.mem_range.mpr (Nat.mod_lt _ (by decide)), by omega⟩
  · obtain ⟨i, -, rfl⟩ := List.mem_map.mp hj
    rw [reqQueue_arrived hq (Nat.mod_lt _ (by decide))]
    split <;> simp [*]
end

/-- From p to q requests have joined their queues or left them. -/
structure QueuesOnly (p q : Pkg) : Prop where
  rest : q = { p with home := q.home }
  dir : q.home.dir = p.home.dir
  bi : q.home.bi = p.home.bi

section
variable {p q : Pkg} (h : QueuesOnly p q)
include h

theorem QueuesOnly.dirLine_eq (line : Nat) : dirLine q line = dirLine p line := dirLine_congr h.dir line

theorem QueuesOnly.busy (line : Nat) : biBusy q line = biBusy p line := by rw [biBusy, h.bi, ← biBusy]

theorem QueuesOnly.out : q.out = p.out := by rw [h.rest]

theorem QueuesOnly.fate_eq (pa : Nat) : fate q pa = fate p pa := by
  rw [h.rest]
  rfl
end

/-- Whether the classes of a request and of its answers have credits on the way to an address's home. -/
def wayClear (p : Pkg) (who pa : Nat) : Bool :=
  match dieOfId who, dieOfHome pa with
  | some a, some b => requestClear p a b (!(dirLine p (pa / 64)).harts.isEmpty)
  | _, _ => true

theorem reaches_eq (p : Pkg) (who pa : Nat) : reaches p who pa = (trackerRoom p (homeNo pa) && !biBusy p (pa / 64) && wayClear p who pa) := rfl

theorem request_eq (who port pa : Nat) (r : HomeReq) (s : State) : request who port pa r s =
    if wayClear s.pkg who pa && decide ((reqQueue s.pkg (homeNo pa) port).length < 32) then
      admitAll (homeNo pa) (queuedReqs (setReqQueue s.pkg (homeNo pa) port (reqQueue s.pkg (homeNo pa) port ++ [(pa, r)])) (homeNo pa))
        { s with pkg := setReqQueue s.pkg (homeNo pa) port (reqQueue s.pkg (homeNo pa) port ++ [(pa, r)]) }
    else s := rfl

/-- A home with room admits the head of the next port. -/
theorem admitAll_one {s : State} {home j pa : Nat} {r : HomeReq} {t : List (Nat × HomeReq)} (hroom : trackerRoom s.pkg home = true)
    (hport : nextPort s.pkg home = some j) (hhead : reqQueue s.pkg home j = (pa, r) :: t) :
    admitAll home 1 s = serveReq pa r (s.onPkg fun p => admitted (setReqQueue p home j t) home j) := by
  rw [admitAll, hroom, hport]
  dsimp only
  rw [hhead]
  rfl

/-- A request that reaches a home where none waits is admitted at once. -/
theorem request_admits {s : State} {who port pa : Nat} (r : HomeReq) (hclear : reaches s.pkg who pa = true)
    (hq : queuedReqs s.pkg (homeNo pa) = 0) (hport : port < 64) :
    ∃ q, QueuesOnly s.pkg q ∧ request who port pa r s = serveReq pa r { s with pkg := q } := by
  rw [reaches_eq, Bool.and_eq_true, Bool.and_eq_true] at hclear
  obtain ⟨⟨hroom, -⟩, hway⟩ := hclear
  have hhead : reqQueue (setReqQueue s.pkg (homeNo pa) port [(pa, r)]) (homeNo pa) port = (pa, r) :: [] := by
    rw [reqQueue_arrived hq hport, if_pos rfl]
  have hadmit := admitAll_one (s := { s with pkg := setReqQueue s.pkg (homeNo pa) port [(pa, r)] }) hroom (nextPort_arrived hq hport) hhead
  refine ⟨admitted (setReqQueue (setReqQueue s.pkg (homeNo pa) port [(pa, r)]) (homeNo pa) port []) (homeNo pa) port, ⟨rfl, rfl, rfl⟩, ?_⟩
  rw [request_eq, reqQueue_nil hq hport, hway, List.nil_append, queuedReqs_arrived hq hport]
  exact hadmit

section
variable {q : Pkg} {pa : Nat} (h : biBusy q (pa / 64) = false) (s : State)
include h

theorem serveReq_rdShared (n : Nat) : serveReq pa (.rdShared n) { s with pkg := q } = { s with pkg := (shareAt q s.mem n pa).2 } :=
  if_neg (Bool.eq_false_iff.mp h)

theorem serveReq_rdOwn (n : Nat) : serveReq pa (.rdOwn n) { s with pkg := q } = { s with pkg := (ownAt q s.mem n pa).2 } :=
  if_neg (Bool.eq_false_iff.mp h)

theorem serveReq_upgrade (n : Nat) : serveReq pa (.upgrade n) { s with pkg := q } = { s with pkg := (upgradeAt q s.mem n pa).2 } :=
  if_neg (Bool.eq_false_iff.mp h)

theorem serveReq_rdCur : serveReq pa .rdCur { s with pkg := q } = { s with pkg := doRdCur pa s.mem q } := if_neg (Bool.eq_false_iff.mp h)

theorem serveReq_atom (op : Nat) (v : W64) : serveReq pa (.atom op v) { s with pkg := q } = atomState pa op v { s with pkg := q } :=
  if_neg (Bool.eq_false_iff.mp h)
end

theorem fateFor_served {p : Pkg} {who pa : Nat} (h : fateFor p who pa false = .served) : fate p pa = .served ∧ reaches p who pa = true := by
  have hfate : fateFor p who pa false = match fate p pa with
      | .served => if reaches p who pa then .served else .waits
      | f => f := rfl
  cases hf : fate p pa <;> rw [hf] at hfate <;> rw [hfate] at h
  case served =>
    refine ⟨rfl, ?_⟩
    by_contra hr
    rw [if_neg hr] at h
    cases h
  all_goals cases h

theorem reaches_free {p : Pkg} {who pa : Nat} (h : reaches p who pa = true) : biBusy p (pa / 64) = false := by
  rw [reaches_eq, Bool.and_eq_true, Bool.and_eq_true, Bool.not_eq_true'] at h
  exact h.1.2

/-- A hart's request that its home admits at once. -/
theorem hartRequest_admits {s : State} {h pa : Nat} (r : HomeReq) (hh : h < 48) (hcache : cacheable pa = true)
    (hfate : fateFor s.pkg (idHart h) pa false = .served) (hq : queuedReqs s.pkg (homeNo pa) = 0) :
    ∃ q, QueuesOnly s.pkg q ∧ biBusy q (pa / 64) = false ∧ hartRequest h pa r s = serveReq pa r { s with pkg := q } := by
  obtain ⟨hserved, hreach⟩ := fateFor_served hfate
  obtain ⟨q, honly, hadmit⟩ := request_admits r hreach hq (port := h) (by omega)
  refine ⟨q, honly, (honly.busy _).trans (reaches_free hreach), ?_⟩
  rw [← hadmit, hartRequest, decide_eq_true hh, hcache, hserved]
  rfl

/-! ## Reads and grants (Table 13-3) -/

section
variable {p : Pkg} {h pa : Nat}

theorem shareAt_shares (m : Memory) (h : Nat) (hhost : (dirLine p (pa / 64)).host ≠ 2) : ∃ q, MovesLine p q ∧ (shareAt p m h pa).2 =
    supply (setDir q (pa / 64) { dirLine p (pa / 64) with owner := none, sharers := (h :: (dirLine p (pa / 64)).harts).eraseDups }) m pa := by
  have hsnooped (o : Option Nat) : MovesLine p (match o with | some o => if o = h then p else snooped p (pa / 64) o | none => p) := by
    split
    · split
      · exact .refl p
      · exact movesLine_snooped _ _ _
    · exact .refl p
  unfold shareAt
  dsimp only
  rw [if_neg hhost]
  exact ⟨_, ((hsnooped _).trans ((movesLine_hartMiss _ h).trans (movesLine_hartFetch _ h pa))).trans (movesLine_crossLine _ _ _ _), rfl⟩

/-- A hart that a home makes the owner of a line, after the line's traffic. -/
def owns (q : Pkg) (h line : Nat) : Pkg :=
  setDir (snoopInv q line (some h)) line { dirLine (snoopInv q line (some h)) line with owner := some h, sharers := [] }

theorem owns_entry {q : Pkg} (hq : MovesLine p q) (h : Nat) {line : Nat} (hhost : (dirLine p line).host = 0) :
    dirLine (owns q h line) line = ⟨some h, [], 0⟩ ∧
      ∀ g ∈ (dirLine p line).harts, g ≠ h → (hart (owns q h line) g).resv ≠ some line := by
  have hsame := hq.dirLine_eq line
  refine ⟨?_, fun g hg hne => ?_⟩
  · rw [owns, dirLine_setDir_self, dirLine_snoopInv, hsame]
    exact congrArg (fun n => (⟨some h, [], n⟩ : DirLine)) hhost
  · rw [← hsame] at hg
    exact noNewResv_setDir _ _ _ _ _ (snoopInv_loses hg fun heq => hne (Option.some.inj heq))

theorem ownAt_owns (m : Memory) (h : Nat) (hhost : (dirLine p (pa / 64)).host = 0) :
    ∃ q, MovesLine p q ∧ (ownAt p m h pa).2 = supply (owns q h (pa / 64)) m pa := by
  unfold ownAt
  dsimp only
  rw [if_neg (not_not_intro hhost)]
  exact ⟨_, ((movesLine_hartMiss _ h).trans (movesLine_hartFetch _ h pa)).trans (movesLine_crossLine _ _ _ _), rfl⟩

theorem upgradeAt_owns (m : Memory) (hhost : (dirLine p (pa / 64)).host = 0) (hmem : h ∈ (dirLine p (pa / 64)).harts) :
    ∃ q, MovesLine p q ∧ (upgradeAt p m h pa).2 = owns q h (pa / 64) := by
  unfold upgradeAt
  dsimp only
  rw [if_pos ⟨hhost, hmem⟩]
  exact ⟨_, movesLine_hartEvent _ _ _ _, rfl⟩

theorem owns_waiting (q : Pkg) (h line : Nat) : KeepsWaiting q (owns q h line) := (keepsWaiting_snoopInv _ _ _).trans (keepsWaiting_setDir _ _ _)

theorem doRdCur_supplies (m : Memory) (hhost : (dirLine p (pa / 64)).host ≠ 2) : ∃ q, q.home.dir = p.home.dir ∧ doRdCur pa m p = supply q m pa := by
  have hready := homeRead_ready 1 0 (some .rdCur) hhost
  have hdir := (onlyReads_homeRead p pa 1 0 (some .rdCur)).dir_eq
  unfold doRdCur
  split
  next heq => exact ⟨_, by rwa [heq] at hdir, rfl⟩
  next heq =>
    rw [heq] at hready
    cases hready
end

/-! ## Pending lines (R108, R455) -/

theorem doWrLine_holds {p : Pkg} {n mu pa : Nat} {data : Item} {poison : Bool} (hn : ceOk n = true) (hmu : mu < 4)
    (hfate : fateFor p (idCe n) pa true = .served) (hlen : (muPending p n mu).length < 1024)
    (hroom : ∀ sl, homeSlice pa = some sl → pendingAt p sl < 256) : ∃ own, doWrLine n mu pa data poison p =
      holdLine p ⟨pa / 64 * 64, data, poison, false, n, mu, own, false⟩ := by
  refine ⟨_, if_pos ?_⟩
  rw [hn, hfate, decide_eq_true hmu, decide_eq_true hlen]
  split
  next sl hsl => simp only [hroom sl hsl, decide_true, beq_self_eq_true, Bool.and_self]
  next => rfl

theorem OnlyLog.home_eq {p q : Pkg} (h : OnlyLog p q) : q.home = p.home := by
  obtain ⟨_, _, _, _, _, rfl⟩ := h
  rfl

/-- A commit that is ready takes its lines from the home. -/
theorem toCommit_committed {p : Pkg} {n mu home : Nat} (h : commitReady p n mu home = true) : toCommit (commitPkg p n mu home) n mu home = [] := by
  have hline (q : Pkg) (l : PLine) : (if fateLine q l.pa = .served then homeWrite q l.pa l.stream (idCe n)
      else decodeError q (pgCe n) l.pa).home.pend = q.home.pend := by
    split
    · exact (keepsWaiting_homeWrite _ _ _ _).pend
    · exact congrArg HomeSt.pend (logErr_only q (pgCe n) ⟨0xA0, 0, 1, l.pa, 0⟩).home_eq
  have hpend := foldl_keeps (fun q : Pkg => q.home.pend) hline (toCommit p n mu home) p
  unfold commitPkg
  dsimp only
  rw [if_pos h]
  generalize (toCommit p n mu home).foldl _ p = q at *
  have hleft : toCommit (addReg { q with home := { q.home with
      pend := q.home.pend.filter (fun l => !(l.ce == n && l.mu == mu && waitsAt home l)) } } (key (pgCe n) 0x358)
      (toCommit p n mu home).length) n mu home =
    ((q.home.pend.filter (fun l => !(l.ce == n && l.mu == mu && waitsAt home l))).filter (fun l => l.ce == n && l.mu == mu)).filter
      (waitsAt home) := rfl
  rw [hleft, List.filter_filter, List.filter_filter, List.filter_eq_nil_iff]
  intro l _
  cases l.ce == n <;> cases l.mu == mu <;> cases waitsAt home l <;> decide

theorem commitPkg_waits {p : Pkg} {n mu home : Nat} (h : commitReady p n mu home = false) :
    (commitPkg p n mu home).home.pend = p.home.pend := by
  have hline (q : Pkg) (l : PLine) : (if hostHolds q l.pa then biStart q (l.pa / 64) true none else q).home.pend = q.home.pend := by
    split
    · obtain ⟨_, _, _, _, _, _, heq⟩ := onlyReads_biStart q (l.pa / 64) true none
      rw [heq]
    · rfl
  unfold commitPkg
  dsimp only
  rw [if_neg (Bool.eq_false_iff.mp h)]
  exact foldl_keeps (fun q : Pkg => q.home.pend) hline _ p

/-! ## Atomics (R459) -/

theorem atomAt_performs {s : State} {pa op : Nat} {v : W64} {who pg : Nat} (r : HomeReq) (hpa : pa % 8 = 0) (hop : op ≤ 1)
    (hfate : fate s.pkg pa = .served) (hhost : hostHolds s.pkg pa = false) (hclean : s.mem.poisoned pa 8 = false) :
    atomAt pa op v who pg (some r) s = (.done, { s with
      mem := s.mem.write pa 8 (if op = 0 then BitVec.ofNat 64 (s.mem.read pa 8) + v else v).toNat
      pkg := countAtSlice (homeTouch s.pkg pa who) pa 0x128 }) := by
  unfold atomAt
  dsimp only
  rw [if_neg (by omega), if_pos (show (some r).isSome = true from rfl), hfate]
  dsimp only
  rw [if_neg (Bool.eq_false_iff.mp hhost), if_neg fun h => Bool.noConfusion (hclean.symm.trans h.2)]

theorem atomState_performs {s : State} {pa op : Nat} {v : W64} (hpa : pa % 8 = 0) (hop : op ≤ 1)
    (hfate : fate s.pkg pa = .served) (hhost : hostHolds s.pkg pa = false) (hclean : s.mem.poisoned pa 8 = false) :
    (atomState pa op v s).mem = s.mem.write pa 8 (if op = 0 then BitVec.ofNat 64 (s.mem.read pa 8) + v else v).toNat := by
  unfold atomState
  rw [atomAt_performs _ hpa hop hfate hhost hclean]
  rfl

/-! ## Snoops -/

theorem doFilterEvictionRecall_eq (pa : Nat) (p : Pkg) : doFilterEvictionRecall pa p =
    if (dirLine ((dirLine p (pa / 64)).harts.foldl (snoopedOut (pa / 64)) p) (pa / 64)).host ≠ 0 then
      biStart ((dirLine p (pa / 64)).harts.foldl (snoopedOut (pa / 64)) p) (pa / 64) true none
    else (dirLine p (pa / 64)).harts.foldl (snoopedOut (pa / 64)) p := rfl

/-- An eviction recalls the line from every hart. -/
theorem recalled_harts (p : Pkg) (line : Nat) : (dirLine ((dirLine p line).harts.foldl (snoopedOut line) p) line).harts = [] ∧
    (dirLine ((dirLine p line).harts.foldl (snoopedOut line) p) line).host = (dirLine p line).host := by
  obtain ⟨hmem, hhost⟩ := snoopedOut_list line (dirLine p line).harts p
  refine ⟨List.eq_nil_iff_forall_not_mem.mpr fun g hg => ?_, hhost⟩
  obtain ⟨hin, hout⟩ := (hmem g).mp hg
  exact hout hin

/-- A recall of a line without one in progress goes out while fewer than 256 have. -/
theorem biStart_sends {p : Pkg} {line : Nat} (inv : Bool) (hnone : p.home.bi.find? (fun x => x.1 == line) = none) (hroom : biSent p < 256) :
    biStart p line inv none = emitMsg { p with home := { p.home with bi := SMap.set p.home.bi line ⟨inv, true, timerNow p, []⟩ } }
      (.biSnp (line * 64) inv) := by
  unfold biStart
  rw [hnone]
  dsimp only
  rw [decide_eq_true hroom]
  rfl

theorem answerDelayed_eq (p : Pkg) (h : Nat) : answerDelayed p h =
    (hart p h).delayed.foldl (fun q line => snoopedOut line q h) (setHart p h { hart p h with delayed := [] }) := rfl

theorem delayed_snoopedOut (line : Nat) (p : Pkg) (h g : Nat) : (hart (snoopedOut line p h) g).delayed = (hart p g).delayed :=
  (delayed_giveUp _ _ _ _).trans ((movesLine_snooped p line h).delayed g)

/-! ## The commands -/

section
variable {s : State} {h pa : Nat}

theorem doWrBack_takes {p : Pkg} (howner : (dirLine p (pa / 64)).owner = some h) (hfate : fateFor p (idHart h) pa false = .served) :
    doWrBack h pa p = setDir (sideTakes (crossLine p (idHart h) pa false) pa) (pa / 64) { dirLine p (pa / 64) with owner := none } :=
  if_pos ⟨howner, hfate⟩

theorem doSnpShare_shares {p : Pkg} (howner : (dirLine p (pa / 64)).owner = some h) : doSnpShare h pa p =
    setDir (sideTakes (snooped p (pa / 64) h) pa) (pa / 64)
      { dirLine p (pa / 64) with owner := none, sharers := (h :: (dirLine p (pa / 64)).sharers).eraseDups } := if_pos howner

theorem doSnpShare_other {p : Pkg} (howner : (dirLine p (pa / 64)).owner ≠ some h) : (doSnpShare h pa p).home = p.home := by
  have hevent : doSnpShare h pa p = hartEvent p h 0x07 1 := if_neg howner
  have hcount (q : Pkg) (n : Nat) (v : W64) : (setCsr q h n v).home = q.home := rfl
  rw [hevent]
  exact foldl_keeps (fun q : Pkg => q.home) (fun q i => hcount q _ _) _ p

theorem doSnpInv_givesUp {p : Pkg} (hresv : (hart p h).resv ≠ some (pa / 64)) : doSnpInv h pa p = snoopedOut (pa / 64) p h :=
  if_neg fun hc => hresv hc.1

theorem doSnpInv_delays {p : Pkg} (hresv : (hart p h).resv = some (pa / 64)) (hdelayed : pa / 64 ∉ (hart p h).delayed) :
    doSnpInv h pa p = setHart p h { hart p h with delayed := (hart p h).delayed ++ [pa / 64] } := if_pos ⟨hresv, hdelayed⟩

theorem rdShared_answers (hh : h < 48) (hcache : cacheable pa = true) (hfate : fateFor s.pkg (idHart h) pa false = .served)
    (hq : queuedReqs s.pkg (homeNo pa) = 0) (hhost : (dirLine s.pkg (pa / 64)).host ≠ 2) : ∃ t, exec (.rdShared h pa) s = .next t ∧
    t.mem = s.mem ∧ dirLine t.pkg (pa / 64) = { dirLine s.pkg (pa / 64) with
      owner := none, sharers := (h :: (dirLine s.pkg (pa / 64)).harts).eraseDups } ∧
    t.pkg.out.head? = some (.homeData (pa / 64 * 64) (s.mem.line pa) (s.mem.poisoned (pa / 64 * 64) 64)) := by
  obtain ⟨p, honly, hfree, hadmit⟩ := hartRequest_admits (.rdShared h) hh hcache hfate hq
  rw [← honly.dirLine_eq] at hhost ⊢
  obtain ⟨q, -, hshare⟩ := shareAt_shares s.mem h hhost
  rw [serveReq_rdShared hfree, hshare] at hadmit
  exact ⟨_, next_eq hadmit, rfl, dirLine_setDir_self _ _ _, rfl⟩

theorem rdOwn_answers (hh : h < 48) (hcache : cacheable pa = true) (hfate : fateFor s.pkg (idHart h) pa false = .served)
    (hq : queuedReqs s.pkg (homeNo pa) = 0) (hhost : (dirLine s.pkg (pa / 64)).host = 0) : ∃ t, exec (.rdOwn h pa) s = .next t ∧
    t.mem = s.mem ∧ dirLine t.pkg (pa / 64) = ⟨some h, [], 0⟩ ∧
    t.pkg.out.head? = some (.homeData (pa / 64 * 64) (s.mem.line pa) (s.mem.poisoned (pa / 64 * 64) 64)) ∧
    ∀ g ∈ (dirLine s.pkg (pa / 64)).harts, g ≠ h → (hart t.pkg g).resv ≠ some (pa / 64) := by
  obtain ⟨p, honly, hfree, hadmit⟩ := hartRequest_admits (.rdOwn h) hh hcache hfate hq
  rw [← honly.dirLine_eq] at hhost ⊢
  obtain ⟨q, hmoves, hown⟩ := ownAt_owns s.mem h hhost
  obtain ⟨hentry, hresv⟩ := owns_entry hmoves h hhost
  rw [serveReq_rdOwn hfree, hown] at hadmit
  exact ⟨_, next_eq hadmit, rfl, hentry, rfl, hresv⟩

theorem upgrade_answers (hh : h < 48) (hcache : cacheable pa = true) (hfate : fateFor s.pkg (idHart h) pa false = .served)
    (hq : queuedReqs s.pkg (homeNo pa) = 0) (hhost : (dirLine s.pkg (pa / 64)).host = 0) (hmem : h ∈ (dirLine s.pkg (pa / 64)).harts) :
    ∃ t, exec (.upgrade h pa) s = .next t ∧ t.mem = s.mem ∧ dirLine t.pkg (pa / 64) = ⟨some h, [], 0⟩ ∧ t.pkg.out = s.pkg.out := by
  obtain ⟨p, honly, hfree, hadmit⟩ := hartRequest_admits (.upgrade h) hh hcache hfate hq
  rw [← honly.dirLine_eq] at hhost hmem
  obtain ⟨q, hmoves, hown⟩ := upgradeAt_owns s.mem hhost hmem
  rw [serveReq_upgrade hfree, hown] at hadmit
  exact ⟨_, next_eq hadmit, rfl, (owns_entry hmoves h hhost).1, (owns_waiting q h _).out.trans (hmoves.out.trans honly.out)⟩

theorem rdCur_answers (hfate : fateFor s.pkg (homeId pa) pa false = .served) (hq : queuedReqs s.pkg (homeNo pa) = 0)
    (hhost : (dirLine s.pkg (pa / 64)).host ≠ 2) : ∃ t, exec (.rdCur pa) s = .next t ∧ t.mem = s.mem ∧ t.pkg.home.dir = s.pkg.home.dir ∧
      t.pkg.out.head? = some (.homeData (pa / 64 * 64) (s.mem.line pa) (s.mem.poisoned (pa / 64 * 64) 64)) := by
  obtain ⟨hserved, hreach⟩ := fateFor_served hfate
  obtain ⟨p, honly, hadmit⟩ := request_admits (port := readPort) .rdCur hreach hq (by decide)
  rw [← honly.dirLine_eq] at hhost
  obtain ⟨q, hdir, hcur⟩ := doRdCur_supplies s.mem hhost
  rw [serveReq_rdCur ((honly.busy _).trans (reaches_free hreach)), hcur] at hadmit
  have hexec : execRdCur pa s = .next (request (homeId pa) readPort pa .rdCur s) := by rw [execRdCur, hserved]
  exact ⟨_, hexec.trans (next_eq hadmit), rfl, hdir.trans honly.dir, rfl⟩

theorem atom_answers {op : Nat} (v : W64) (hpa : pa % 8 = 0) (hop : op ≤ 1) (hfate : fateFor s.pkg (homeId pa) pa false = .served)
    (hq : queuedReqs s.pkg (homeNo pa) = 0) (hhost : hostHolds s.pkg pa = false) (hclean : s.mem.poisoned pa 8 = false) :
    ∃ t, exec (.atom pa op v) s = .next t ∧
      t.mem = s.mem.write pa 8 (if op = 0 then BitVec.ofNat 64 (s.mem.read pa 8) + v else v).toNat ∧
      ∀ a, a < pa ∨ pa + 8 ≤ a → t.mem.byte a = s.mem.byte a := by
  obtain ⟨hserved, hreach⟩ := fateFor_served hfate
  obtain ⟨p, honly, hadmit⟩ := request_admits (port := atomPort) (.atom op v) hreach hq (by decide)
  rw [hostHolds, ← honly.dirLine_eq] at hhost
  have hmem := atomState_performs (s := { s with pkg := p }) (v := v) hpa hop ((honly.fate_eq pa).trans hserved) hhost hclean
  rw [serveReq_atom ((honly.busy _).trans (reaches_free hreach))] at hadmit
  have hexec : execAtom pa op v s = .next (request (homeId pa) atomPort pa (.atom op v) s) := if_pos ⟨hserved, hpa, hop⟩
  generalize atomState pa op v { s with pkg := p } = t at *
  refine ⟨_, hexec.trans (next_eq hadmit), hmem, fun x hx => ?_⟩
  rw [hmem]
  exact Memory.byte_write_out _ _ _ _ _ hx

theorem snpShare_shares (howner : (dirLine s.pkg (pa / 64)).owner = some h) : ∃ t, exec (.snpShare h pa) s = .next t ∧ t.mem = s.mem ∧
    (dirLine t.pkg (pa / 64)).owner = none ∧ h ∈ (dirLine t.pkg (pa / 64)).sharers := by
  refine ⟨_, next_onPkg (doSnpShare_shares howner), rfl, ?_⟩
  rw [dirLine_setDir_self]
  exact ⟨rfl, List.mem_eraseDups.mpr (List.mem_cons_self ..)⟩

theorem snpClean_keeps : ∃ t, exec (.snpClean h pa) s = .next t ∧ t.mem = s.mem ∧ dirLine t.pkg (pa / 64) = dirLine s.pkg (pa / 64) :=
  ⟨_, rfl, rfl, (dirLine_cleanLine _ _ _ _).trans ((movesLine_snooped _ _ _).dirLine_eq _)⟩

theorem snpInv_takes (hresv : (hart s.pkg h).resv ≠ some (pa / 64)) : ∃ t, exec (.snpInv h pa) s = .next t ∧ t.mem = s.mem ∧
    h ∉ (dirLine t.pkg (pa / 64)).harts ∧ ∀ g ∈ (dirLine s.pkg (pa / 64)).harts, g ≠ h → g ∈ (dirLine t.pkg (pa / 64)).harts := by
  have hmem := mem_snoopedOut (pa / 64) s.pkg h
  exact ⟨_, next_onPkg (doSnpInv_givesUp hresv), rfl, fun hm => ((hmem h).mp hm).2 rfl, fun g hg hne => (hmem g).mpr ⟨hg, hne⟩⟩

theorem snpInv_waits (hresv : (hart s.pkg h).resv = some (pa / 64)) (hdelayed : pa / 64 ∉ (hart s.pkg h).delayed) :
    ∃ t, exec (.snpInv h pa) s = .next t ∧ t.mem = s.mem ∧ dirLine t.pkg (pa / 64) = dirLine s.pkg (pa / 64) ∧
      (hart t.pkg h).delayed = (hart s.pkg h).delayed ++ [pa / 64] ∧ (hart t.pkg h).resv = some (pa / 64) := by
  refine ⟨_, next_onPkg (doSnpInv_delays hresv hdelayed), rfl, rfl, ?_⟩
  rw [hart_setHart_self]
  exact ⟨rfl, hresv⟩

theorem delay_ends (s : State) (h : Nat) : ∃ t, exec (.lrSnoopDelayExpiry h) s = .next t ∧ t.mem = s.mem ∧ (hart t.pkg h).delayed = [] ∧
    ∀ line ∈ (hart s.pkg h).delayed, h ∉ (dirLine t.pkg line).harts ∧ (hart t.pkg h).resv ≠ some line := by
  refine ⟨_, next_onPkg (f := doLrSnoopDelayExpiry h) (answerDelayed_eq s.pkg h), rfl, ?_, fun line hline => linesGivenUp h _ _ (.inl hline)⟩
  rw [foldl_keeps (fun q => (hart q h).delayed) (fun q line => delayed_snoopedOut line q h h), hart_setHart_self]

theorem eviction_empties (hhost : (dirLine s.pkg (pa / 64)).host = 0) : ∃ t, exec (.filterEvictionRecall pa) s = .next t ∧
    t.mem = s.mem ∧ dirLine t.pkg (pa / 64) = DirLine.empty := by
  obtain ⟨hharts, hkept⟩ := recalled_harts s.pkg (pa / 64)
  have h0 := hkept.trans hhost
  exact ⟨_, next_onPkg ((doFilterEvictionRecall_eq _ _).trans (if_neg (not_not_intro h0))), rfl, DirLine.eq_empty hharts h0⟩

theorem eviction_recalls (hhost : (dirLine s.pkg (pa / 64)).host ≠ 0) (hnone : s.pkg.home.bi.find? (fun x => x.1 == pa / 64) = none)
    (hroom : biSent s.pkg < 256) : ∃ t, exec (.filterEvictionRecall pa) s = .next t ∧ t.mem = s.mem ∧
      (dirLine t.pkg (pa / 64)).harts = [] ∧ t.pkg.home.bi = SMap.set s.pkg.home.bi (pa / 64) ⟨true, true, timerNow s.pkg, []⟩ ∧
      t.pkg.out = .biSnp (pa / 64 * 64) true :: s.pkg.out := by
  obtain ⟨hharts, hkept⟩ := recalled_harts s.pkg (pa / 64)
  have hwait : KeepsWaiting s.pkg ((dirLine s.pkg (pa / 64)).harts.foldl (snoopedOut (pa / 64)) s.pkg) :=
    .foldl (keepsWaiting_snoopedOut _) _ _
  have hact := (doFilterEvictionRecall_eq pa s.pkg).trans (if_pos (by rw [hkept]; exact hhost))
  generalize (dirLine s.pkg (pa / 64)).harts.foldl (snoopedOut (pa / 64)) s.pkg = q at *
  have htimer : timerNow q = timerNow s.pkg := by rw [timerNow, timerNow, hwait.pace]
  rw [biStart_sends true (by rw [hwait.bi]; exact hnone) (by rw [biSent, hwait.bi]; exact hroom), hwait.bi, htimer] at hact
  exact ⟨_, next_onPkg hact, rfl, hharts, rfl, congrArg (OutMsg.biSnp (pa / 64 * 64) true :: ·) hwait.out⟩
end

/-- Settles O35. -/
theorem linesComeFromHomesAndGoToSnoops : Obligations.LinesComeFromHomesAndGoToSnoops := by
  unfold Obligations.LinesComeFromHomesAndGoToSnoops
  refine ⟨⟨fun _ _ _ => rdShared_answers, fun _ _ _ => rdOwn_answers, fun _ _ _ => upgrade_answers, ?wrBack, fun _ _ => rdCur_answers, ?wrLine,
    ?commits, ?waits, fun _ _ _ v => atom_answers v⟩, fun _ _ _ howner => ⟨snpShare_shares howner, snpClean_keeps⟩, ?other,
    fun _ _ _ => snpInv_takes, fun _ _ _ => snpInv_waits, delay_ends, fun _ _ => eviction_empties, fun _ _ => eviction_recalls⟩
  case wrBack =>
    intro s h pa
    exact ⟨fun howner hfate => ⟨_, next_onPkg (doWrBack_takes howner hfate), rfl, dirLine_setDir_self _ _ _⟩,
      fun howner => next_onPkg (f := doWrBack h pa) (if_neg fun hc => howner hc.1)⟩
  case wrLine =>
    intro s n mu pa data poison hn hmu hfate hlen hroom
    obtain ⟨own, hholds⟩ := doWrLine_holds (data := data) (poison := poison) hn hmu hfate hlen hroom
    exact ⟨_, next_onPkg hholds, rfl, rfl, _, rfl, rfl, rfl, rfl, rfl, rfl⟩
  case commits =>
    intro s n mu home hready
    exact ⟨_, next_eq (if_pos hready), rfl, toCommit_committed hready⟩
  case waits =>
    intro s n mu home hready
    exact ⟨_, next_eq (if_neg (Bool.eq_false_iff.mp hready)), rfl, commitPkg_waits hready⟩
  case other =>
    intro s h pa howner
    exact ⟨_, rfl, rfl, doSnpShare_other howner⟩

end Sys2Proof.Machine
end

section
/-! The host and the package share lines by back-invalidation and host snoops (R462 to R467, R501, R517): the proof of O36. -/

namespace Sys2Proof.Machine

/-! ## Recalls from the host -/

/-- A home where nothing waits admits nothing. -/
theorem admitAll_none {s : State} {home : Nat} (h : queuedReqs s.pkg home = 0) : admitAll home (queuedReqs s.pkg home) s = s := by
  rw [h]
  rfl

theorem queuedReqs_congr {p q : Pkg} (h : q.home.queues = p.home.queues) (home : Nat) : queuedReqs q home = queuedReqs p home := by
  unfold queuedReqs reqQueue
  rw [h]

theorem biNext_allSent {p : Pkg} (h : p.home.bi.all (fun x => x.2.sent) = true) : biNext p = p := by
  have hnone : p.home.bi.find? (fun x => !x.2.sent) = none := by simpa using h
  unfold biNext
  rw [hnone]
  exact ite_self p

/-- The next recall of a home changes its entry of the recalls alone, and starts none for a line that has none. -/
theorem biNext_home (p : Pkg) : ∃ b, (biNext p).home = { p.home with bi := b } ∧
    ∀ line, biBusy p line = false → biBusy (biNext p) line = false := by
  unfold biNext
  split
  · exact ⟨_, rfl, fun _ => id⟩
  · split
    next k w hfind =>
      refine ⟨_, rfl, fun line hline => ?_⟩
      have hk : (k == line) = false := by
        by_contra hk
        exact absurd (List.any_eq_true.mpr ⟨_, List.mem_of_find?_eq_some hfind, Bool.not_eq_false _ ▸ hk⟩) (Bool.eq_false_iff.mp hline)
      exact (SMap.any_key_set _ _ _ _).trans (by rw [hk]; exact hline)
    · exact ⟨_, rfl, fun _ => id⟩

/-- The host's copy of a line after its answer: gone, or shared. -/
def hostLeft (line : Nat) (inv : Bool) (p : Pkg) : Pkg :=
  setDir { p with home := { p.home with bi := SMap.drop p.home.bi (fun k => k == line) } } line
    { dirLine p line with host := if inv then 0 else 1 }

section
variable (line : Nat) (inv : Bool) (p : Pkg)

theorem dirLine_hostLeft : dirLine (hostLeft line inv p) line = { dirLine p line with host := if inv then 0 else 1 } := dirLine_setDir_self _ _ _

theorem biBusy_hostLeft : biBusy (hostLeft line inv p) line = false := SMap.any_drop_self _ _

theorem allSent_hostLeft (h : p.home.bi.all (fun x => x.2.sent) = true) : (hostLeft line inv p).home.bi.all (fun x => x.2.sent) = true :=
  List.all_eq_true.mpr fun x hx => List.all_eq_true.mp h x (List.mem_of_mem_filter hx)
end

theorem biAnswered_eq (pa : Nat) (w : BiWait) (s : State) : biAnswered pa w s =
    admitAll (homeNo (pa / 64 * 64))
      (queuedReqs ((w.reqs.foldl (fun t r => serveReq (pa / 64 * 64) r t) (s.onPkg (hostLeft (pa / 64) w.inv))).onPkg biNext).pkg
        (homeNo (pa / 64 * 64)))
      ((w.reqs.foldl (fun t r => serveReq (pa / 64 * 64) r t) (s.onPkg (hostLeft (pa / 64) w.inv))).onPkg biNext) := rfl

/-- An answer for which no request waits. -/
theorem biAnswered_none {s : State} {pa : Nat} {w : BiWait} (hreqs : w.reqs = []) (hq : queuedReqs s.pkg (homeNo (pa / 64 * 64)) = 0) :
    biAnswered pa w s = { s with pkg := biNext (hostLeft (pa / 64) w.inv s.pkg) } := by
  obtain ⟨b, hb, -⟩ := biNext_home (hostLeft (pa / 64) w.inv s.pkg)
  have hqueues : (biNext (hostLeft (pa / 64) w.inv s.pkg)).home.queues = s.pkg.home.queues := by
    rw [hb]
    rfl
  rw [biAnswered_eq, hreqs]
  exact admitAll_none ((queuedReqs_congr hqueues _).trans hq)

/-- An answer after which the line's one waiting request is served, where every other recall has been sent. -/
theorem biAnswered_one {s t : State} {pa : Nat} {w : BiWait} {r : HomeReq} (hreqs : w.reqs = [r])
    (hserve : serveReq (pa / 64 * 64) r { s with pkg := hostLeft (pa / 64) w.inv s.pkg } = t)
    (hwait : t.pkg.home.queues = s.pkg.home.queues) (hbi : t.pkg.home.bi.all (fun x => x.2.sent) = true)
    (hq : queuedReqs s.pkg (homeNo (pa / 64 * 64)) = 0) : biAnswered pa w s = t := by
  have hnext : t.onPkg biNext = t := by
    rw [State.onPkg, biNext_allSent hbi]
  rw [biAnswered_eq, hreqs]
  have hfold : [r].foldl (fun t r => serveReq (pa / 64 * 64) r t) (s.onPkg (hostLeft (pa / 64) w.inv)) = t := hserve
  rw [hfold, hnext]
  exact admitAll_none ((queuedReqs_congr hwait _).trans hq)

/-- A hart's read of a line that no recall holds adds a sharer. -/
theorem serveReq_shares {s : State} {p : Pkg} {line : Nat} (h : Nat) (hfree : biBusy p line = false) (hhost : (dirLine p line).host ≠ 2) :
    ∃ q, KeepsWaiting p q ∧ (dirLine q line).host = (dirLine p line).host ∧ h ∈ (dirLine q line).sharers ∧
      serveReq (line * 64) (.rdShared h) { s with pkg := p } = { s with pkg := supply q s.mem (line * 64) } := by
  have hline : line * 64 / 64 = line := Nat.mul_div_cancel _ (by decide)
  obtain ⟨q, hmoves, hshare⟩ := shareAt_shares (pa := line * 64) s.mem h (by rwa [hline])
  have hserve := serveReq_rdShared (pa := line * 64) (by rwa [hline]) s h
  rw [hshare, hline] at hserve
  refine ⟨_, hmoves.waiting.trans (keepsWaiting_setDir _ _ _), ?_, ?_, hserve⟩ <;> rw [dirLine_setDir_self]
  exact List.mem_eraseDups.mpr (List.mem_cons_self ..)

/-- The report of a recall without an answer. -/
def snoopUnanswered (p : Pkg) (line : Nat) : Pkg := emitMsg (setAer (logErr p pgHl ⟨0x81, 0, 1, line, 0⟩) 22) (.aer line)

theorem snoopUnanswered_home (p : Pkg) (line : Nat) : (snoopUnanswered p line).home = p.home := by
  have hreport (q : Pkg) : (emitMsg (setAer q 22) (.aer line)).home = q.home := rfl
  rw [snoopUnanswered, hreport, (logErr_only p pgHl _).home_eq]

theorem snoopUnanswered_out (p : Pkg) (line : Nat) : (snoopUnanswered p line).out.head? = some (.aer line) := by
  have hreport (q : Pkg) : (emitMsg (setAer q 22) (.aer line)).out.head? = some (.aer line) := rfl
  rw [snoopUnanswered, hreport]

section
variable {s : State} {pa k : Nat} {w : BiWait} (hfind : s.pkg.home.bi.find? (fun x => x.1 == pa / 64 && x.2.sent) = some (k, w))
include hfind

theorem execBirsp_data (v : Item) : execBirsp pa (some v) s =
    .next (biAnswered pa w { s with mem := s.mem.storeLine pa v false, pkg := sideTakes s.pkg (pa / 64 * 64) }) := by
  unfold execBirsp
  rw [hfind]

theorem execBirsp_clean : execBirsp pa none s = .next (biAnswered pa w s) := by
  unfold execBirsp
  rw [hfind]

theorem birsp_answers (wb : Option Item) (hreqs : w.reqs = []) (hq : queuedReqs s.pkg (homeNo (pa / 64 * 64)) = 0) :
    ∃ t, exec (.birsp pa wb) s = .next t ∧
      t.mem = (match wb with | some v => s.mem.storeLine pa v false | none => s.mem) ∧
      (dirLine t.pkg (pa / 64)).host = (if w.inv then 0 else 1) ∧ t.pkg.home.bi.any (fun x => x.1 == pa / 64) = false := by
  have hleft (p : Pkg) : (dirLine (biNext (hostLeft (pa / 64) w.inv p)) (pa / 64)).host = (if w.inv then 0 else 1) ∧
      biBusy (biNext (hostLeft (pa / 64) w.inv p)) (pa / 64) = false := by
    obtain ⟨b, hb, hfree⟩ := biNext_home (hostLeft (pa / 64) w.inv p)
    have hdir : dirLine (biNext (hostLeft (pa / 64) w.inv p)) (pa / 64) = dirLine (hostLeft (pa / 64) w.inv p) (pa / 64) :=
      dirLine_congr (by rw [hb]) _
    exact ⟨by rw [hdir, dirLine_hostLeft], hfree _ (biBusy_hostLeft _ _ _)⟩
  cases wb with
  | none => exact ⟨_, (execBirsp_clean hfind).trans (next_eq (biAnswered_none hreqs hq)), rfl, hleft _⟩
  | some v =>
    have hq' := (queuedReqs_congr (movesLine_sideTakes s.pkg (pa / 64 * 64)).waiting.queues _).trans hq
    exact ⟨_, (execBirsp_data hfind v).trans (next_eq (biAnswered_none hreqs hq')), rfl, hleft _⟩

theorem birsp_serves {h : Nat} (hreqs : w.reqs = [.rdShared h]) (hq : queuedReqs s.pkg (homeNo (pa / 64 * 64)) = 0)
    (hsent : s.pkg.home.bi.all (fun x => x.2.sent) = true) : ∃ t, exec (.birsp pa none) s = .next t ∧ t.mem = s.mem ∧
      (dirLine t.pkg (pa / 64)).host = (if w.inv then 0 else 1) ∧ h ∈ (dirLine t.pkg (pa / 64)).sharers ∧
      t.pkg.out.head? = some (.homeData (pa / 64 * 64) (s.mem.line (pa / 64 * 64)) (s.mem.poisoned (pa / 64 * 64) 64)) := by
  have hhost : (dirLine (hostLeft (pa / 64) w.inv s.pkg) (pa / 64)).host = if w.inv then 0 else 1 := by rw [dirLine_hostLeft]
  have hne : (dirLine (hostLeft (pa / 64) w.inv s.pkg) (pa / 64)).host ≠ 2 := by
    rw [hhost]
    cases w.inv <;> decide
  obtain ⟨q, hkeeps, hkept, hmem, hserve⟩ := serveReq_shares (s := s) h (biBusy_hostLeft _ _ _) hne
  have hbi := allSent_hostLeft (pa / 64) w.inv s.pkg hsent
  rw [← hkeeps.bi] at hbi
  have hone := biAnswered_one hreqs hserve hkeeps.queues hbi hq
  refine ⟨_, (execBirsp_clean hfind).trans (next_eq hone), rfl, hkept.trans hhost, hmem, ?_⟩
  rw [supply, Nat.mul_div_cancel _ (by decide)]
  rfl

theorem execHostSnoopTimeout_ends (htime : w.since + 10000000 ≤ timerNow s.pkg) : execHostSnoopTimeout pa s =
    .next (biAnswered pa { w with inv := true }
      { s with mem := s.mem.storeLine (pa / 64 * 64) (s.mem.line (pa / 64 * 64)) true, pkg := snoopUnanswered s.pkg (pa / 64 * 64) }) := by
  unfold execHostSnoopTimeout
  rw [hfind]
  dsimp only
  rw [if_pos htime, snoopUnanswered]

theorem timeout_poisons (hreqs : w.reqs = []) (htime : w.since + 10000000 ≤ timerNow s.pkg)
    (hq : queuedReqs s.pkg (homeNo (pa / 64 * 64)) = 0) (hsent : s.pkg.home.bi.all (fun x => x.2.sent) = true) :
    ∃ t, exec (.hostSnoopTimeout pa) s = .next t ∧ t.mem = s.mem.storeLine (pa / 64 * 64) (s.mem.line (pa / 64 * 64)) true ∧
      (dirLine t.pkg (pa / 64)).host = 0 ∧ t.pkg.out.head? = some (.aer (pa / 64 * 64)) := by
  have hexec := execHostSnoopTimeout_ends hfind htime
  have hhome := snoopUnanswered_home s.pkg (pa / 64 * 64)
  have hout := snoopUnanswered_out s.pkg (pa / 64 * 64)
  generalize snoopUnanswered s.pkg (pa / 64 * 64) = p at *
  have hq' : queuedReqs p (homeNo (pa / 64 * 64)) = 0 := (queuedReqs_congr (congrArg HomeSt.queues hhome) _).trans hq
  generalize s.mem.storeLine (pa / 64 * 64) (s.mem.line (pa / 64 * 64)) true = m at *
  have hans := biAnswered_none (s := { s with mem := m, pkg := p }) (w := { w with inv := true }) hreqs hq'
  rw [biNext_allSent (allSent_hostLeft _ _ _ (by rwa [hhome]))] at hans
  refine ⟨_, hexec.trans (next_eq hans), rfl, ?_, hout⟩
  rw [dirLine_hostLeft]
  rfl
end

/-! ## Accesses of the inset window (R464) -/

theorem countAccess_home (p : Pkg) (b addr : Nat) (write : Bool) (ctx : Nat) : (countAccess p b addr write ctx).home = p.home := by
  have hbump (evicts : Bool) : (if evicts = true then bumpReg p (accControl b + 8) 1 0xFFFFFFFF else p).home = p.home :=
    ite_keeps Pkg.home rfl rfl
  unfold countAccess
  dsimp only
  exact ite_keeps Pkg.home (ite_keeps Pkg.home ((raiseBlock_only _ _ _).home_eq.trans (hbump _)) (hbump _)) rfl

theorem countHost_home (p : Pkg) (pa : Nat) (write : Bool) : (countHost p pa write).home = p.home := by
  unfold countHost
  split
  · exact countAccess_home _ _ _ _ _
  · rfl

/-- A line that the host reads and caches is in its entry, and no hart owns it. -/
theorem hostCaches_entry (p : Pkg) (line : Nat) :
    0 < (dirLine (hostCaches p line) line).host ∧ (dirLine (hostCaches p line) line).owner = none := by
  unfold hostCaches
  dsimp only
  rw [dirLine_setDir_self]
  refine ⟨?_, rfl⟩
  dsimp only
  split <;> omega

theorem hostRead_supplies {p : Pkg} {hpa pa : Nat} {m : Memory} (hmap : insetMap p (hpa / 64 * 64) = some pa) (hheld : insetHeld p = false)
    (hfate : fateFor p idHost pa false = .served) : ∃ q, (∀ line, dirLine q line = dirLine p line) ∧
      ∀ cacheIt, hostRead hpa cacheIt m p = supply (if cacheIt then hostCaches q (pa / 64) else q) m pa := by
  refine ⟨crossLine (countHost (homeFetch p pa) pa false) idHost pa true, fun line => ?_, fun cacheIt => ?_⟩
  · rw [(movesLine_crossLine _ _ _ _).dirLine_eq, dirLine_congr (congrArg HomeSt.dir (countHost_home _ _ _)),
      (movesLine_homeFetch _ _).dirLine_eq]
  · unfold hostRead
    rw [hmap]
    dsimp only
    rw [hheld, hfate]
    rfl

theorem hostMemRead_answers {s : State} {hpa pa : Nat} (cacheIt : Bool) (hmoving : insetMoving s.pkg = false)
    (hmap : insetMap s.pkg (hpa / 64 * 64) = some pa) (hheld : insetHeld s.pkg = false) (hfate : fateFor s.pkg idHost pa false = .served) :
    ∃ t, exec (.hostMemRead hpa cacheIt) s = .next t ∧ t.mem = s.mem ∧
      t.pkg.out.head? = some (.homeData (pa / 64 * 64) (s.mem.line pa) (s.mem.poisoned (pa / 64 * 64) 64)) ∧
      (cacheIt = false → dirLine t.pkg (pa / 64) = dirLine s.pkg (pa / 64)) ∧
      (cacheIt = true → 0 < (dirLine t.pkg (pa / 64)).host ∧ (dirLine t.pkg (pa / 64)).owner = none) := by
  obtain ⟨q, hdir, hread⟩ := hostRead_supplies (m := s.mem) hmap hheld hfate
  have hexec : exec (.hostMemRead hpa cacheIt) s = .next (s.onPkg (hostRead hpa cacheIt s.mem)) := if_neg (Bool.eq_false_iff.mp hmoving)
  refine ⟨_, hexec.trans (next_onPkg (hread cacheIt)), rfl, rfl, ?_, ?_⟩
  · rintro rfl
    exact hdir _
  · rintro rfl
    exact hostCaches_entry q _

theorem held_host_requests {s : State} (hmoving : insetMoving s.pkg = true) (hpa : Nat) (cacheIt : Bool) (data : Item) (mask : W64) :
    (∃ t, exec (.hostMemRead hpa cacheIt) s = .next t ∧ t.mem = s.mem ∧ t.pkg.hl.held = s.pkg.hl.held ++ [.hostMemRead hpa cacheIt]) ∧
    (∃ t, exec (.hostMemWrite hpa data mask) s = .next t ∧ t.mem = s.mem ∧
      t.pkg.hl.held = s.pkg.hl.held ++ [.hostMemWrite hpa data mask]) := by
  have hread : exec (.hostMemRead hpa cacheIt) s = .next (s.onPkg fun p => holdRequest p (.hostMemRead hpa cacheIt)) := if_pos hmoving
  have hwrite : exec (.hostMemWrite hpa data mask) s = .next (s.onPkg fun p => holdRequest p (.hostMemWrite hpa data mask)) := if_pos hmoving
  exact ⟨⟨_, hread, rfl, rfl⟩, ⟨_, hwrite, rfl, rfl⟩⟩

theorem endRepair_home (p : Pkg) (line : Nat) : (endRepair p line).home = p.home := by
  have hend (q : Pkg) (pg : Nat) : (endHandling q pg (2 * line)).home = q.home := rfl
  unfold endRepair
  dsimp only
  split
  · exact foldl_keeps Pkg.home hend _ _
  · rfl

/-- A write at a line's home takes the copy of every hart. -/
theorem dirLine_homeWrite (p : Pkg) (pa : Nat) (stream : Bool) (who : Nat) : dirLine (homeWrite p pa stream who) (pa / 64) =
    ⟨none, [], (dirLine p (pa / 64)).host⟩ := by
  have hempty (d : DirLine) : ({ d with
      owner := if d.owner = none then d.owner else none
      sharers := d.sharers.filter (fun h => some h == none) } : DirLine) = ⟨none, [], d.host⟩ := by
    obtain ⟨owner, sharers, host⟩ := d
    cases owner <;> simp
  have hrepair := dirLine_congr (congrArg HomeSt.dir (endRepair_home (crossLine p who pa false) (pa / 64))) (pa / 64)
  have hsnoop := (dirLine_snoopInv (endRepair (crossLine p who pa false) (pa / 64)) (pa / 64) none).trans (hempty _)
  rw [hrepair, (movesLine_crossLine _ _ _ _).dirLine_eq] at hsnoop
  rw [← hsnoop, homeWrite, homeStore]
  dsimp only
  generalize snoopInv _ _ _ = q
  have hwriter (r : Pkg) (w : SMap Nat) : dirLine { r with home := { r.home with writer := w } } (pa / 64) = dirLine r (pa / 64) := rfl
  rw [hwriter]
  split
  · exact (movesLine_slmWrite _ _ _ _).dirLine_eq _
  · split
    · exact (movesLine_memSend _ _ _ _).dirLine_eq _
    · rfl
  · rfl

theorem fateFor_reaches {p : Pkg} {who pa : Nat} {whole : Bool} (h : fateFor p who pa whole = .served) : reaches p who pa = true := by
  unfold fateFor at h
  split at h
  · by_contra hr
    rw [if_neg hr] at h
    cases h
  next hnot => exact absurd h hnot

theorem hostWrote_entry {p : Pkg} {pa : Nat} (hfree : biBusy p (pa / 64) = false) : dirLine (hostWrote p pa) (pa / 64) = DirLine.empty := by
  have hbi : (homeWrite (countHost p pa true) pa false idHost).home.bi = p.home.bi :=
    (keepsWaiting_homeWrite _ _ _ _).bi.trans (congrArg HomeSt.bi (countHost_home _ _ _))
  have hentry := dirLine_homeWrite (countHost p pa true) pa false idHost
  unfold hostWrote
  dsimp only
  rw [if_neg (by rw [hbi]; exact Bool.eq_false_iff.mp hfree), dirLine_setDir_self, hentry]
  rfl

theorem hostMemWrite_stores {s : State} {hpa pa : Nat} {data : Item} {mask : W64} (hmoving : insetMoving s.pkg = false)
    (hmap : insetMap s.pkg (hpa / 64 * 64) = some pa) (hheld : insetHeld s.pkg = false)
    (hfate : fateFor s.pkg idHost pa (mask == BitVec.allOnes 64) = .served) : ∃ t, exec (.hostMemWrite hpa data mask) s = .next t ∧
      t.mem = writeBytes s.mem pa data mask ∧ dirLine t.pkg (pa / 64) = DirLine.empty := by
  have hexec : exec (.hostMemWrite hpa data mask) s = .next (hostWrite hpa data mask s) := if_neg (Bool.eq_false_iff.mp hmoving)
  have hwrite : hostWrite hpa data mask s = { s with mem := writeBytes s.mem pa data mask, pkg := hostWrote s.pkg pa } := by
    unfold hostWrite
    rw [hmap]
    dsimp only
    rw [hheld, hfate]
    rfl
  exact ⟨_, hexec.trans (next_eq hwrite), rfl, hostWrote_entry (reaches_free (fateFor_reaches hfate))⟩

/-! ## The device cache (R462, R501) -/

theorem doHostSnoop_gives {p : Pkg} {hpa : Nat} (m : Memory)
    (hpend : p.home.pend.any (fun l => decide (l.pa / 64 = (hostBase + hpa / 64 * 64) / 64) && l.owned) = false)
    (hcached : (hostBase + hpa / 64 * 64) / 64 ∈ p.home.devCache) : doHostSnoop hpa m p =
      supply { p with home := { p.home with devCache := p.home.devCache.filter (· != (hostBase + hpa / 64 * 64) / 64) } } m
        (hostBase + hpa / 64 * 64) := (if_neg (Bool.eq_false_iff.mp hpend)).trans (if_pos hcached)

/-- The home without the host lines of a packet. -/
def packetGone (n mu : Nat) (l : List PLine) : List PLine := l.filter (fun x => !(x.ce == n && x.mu == mu && isHostLine x))

theorem packetGone_none (n mu : Nat) (l : List PLine) :
    (((packetGone n mu l).filter (fun x => x.ce == n && x.mu == mu)).filter isHostLine) = [] := by
  unfold packetGone
  rw [List.filter_filter, List.filter_filter, List.filter_eq_nil_iff]
  intro x _
  cases x.ce == n <;> cases x.mu == mu <;> cases isHostLine x <;> decide

theorem hostLines_committed {p : Pkg} {n mu : Nat} (h : hostReady p n mu = true) : hostLines (doHostPacketCommit n mu p) n mu = [] := by
  have hpend : (doHostPacketCommit n mu p).home.pend = packetGone n mu p.home.pend := by
    unfold doHostPacketCommit
    dsimp only
    rw [if_pos h]
    exact ite_keeps (fun q => q.home.pend) rfl rfl
  rw [hostLines, muPending, hpend]
  exact packetGone_none n mu _

theorem hostLines_asked {p : Pkg} {n mu : Nat} (h : hostReady p n mu = false) :
    (hostReached p = true → (hostLines (doHostPacketCommit n mu p) n mu).all (·.owned) = true) ∧
      (hostReached p = false → (doHostPacketCommit n mu p).home.pend = p.home.pend) := by
  unfold doHostPacketCommit
  dsimp only
  rw [if_neg (Bool.eq_false_iff.mp h)]
  refine ⟨fun hreach => ?_, fun hreach => by rw [if_neg (Bool.eq_false_iff.mp hreach)]⟩
  rw [if_pos hreach, List.all_eq_true]
  intro x hx
  obtain ⟨hmu, hhost⟩ := List.mem_filter.mp hx
  obtain ⟨hmem, hmine⟩ := List.mem_filter.mp hmu
  obtain ⟨y, -, rfl⟩ := List.mem_map.mp hmem
  by_cases hy : y.ce = n ∧ y.mu = mu ∧ isHostLine y
  · rw [if_pos hy]
  · rw [if_neg hy] at hmine hhost
    rw [Bool.and_eq_true, beq_iff_eq, beq_iff_eq] at hmine
    exact absurd ⟨hmine.1, hmine.2, hhost⟩ hy

theorem bisnp_sends {s : State} {pa : Nat} (hnone : s.pkg.home.bi.find? (fun x => x.1 == pa / 64) = none) (hroom : biSent s.pkg < 256) :
    ((dirLine s.pkg (pa / 64)).host ≠ 0 → ∃ t, exec (.bisnpInv pa) s = .next t ∧ t.mem = s.mem ∧
      t.pkg.home.bi = SMap.set s.pkg.home.bi (pa / 64) ⟨true, true, timerNow s.pkg, []⟩ ∧
      t.pkg.out = .biSnp (pa / 64 * 64) true :: s.pkg.out) ∧
    ((dirLine s.pkg (pa / 64)).host = 2 → ∃ t, exec (.bisnpData pa) s = .next t ∧ t.mem = s.mem ∧
      t.pkg.home.bi = SMap.set s.pkg.home.bi (pa / 64) ⟨false, true, timerNow s.pkg, []⟩ ∧
      t.pkg.out = .biSnp (pa / 64 * 64) false :: s.pkg.out) := by
  have hinv (h : (dirLine s.pkg (pa / 64)).host ≠ 0) : doBisnpInv pa s.pkg = biStart s.pkg (pa / 64) true none := if_pos h
  have hdata (h : (dirLine s.pkg (pa / 64)).host = 2) : doBisnpData pa s.pkg = biStart s.pkg (pa / 64) false none := if_pos h
  exact ⟨fun h => ⟨_, next_onPkg ((hinv h).trans (biStart_sends true hnone hroom)), rfl, rfl, rfl⟩,
    fun h => ⟨_, next_onPkg ((hdata h).trans (biStart_sends false hnone hroom)), rfl, rfl, rfl⟩⟩

/-- Settles O36. -/
theorem theHostSharesLinesBySnoops : Obligations.TheHostSharesLinesBySnoops := by
  unfold Obligations.TheHostSharesLinesBySnoops
  refine ⟨fun _ _ => bisnp_sends, fun _ _ _ _ wb hreqs hfind => birsp_answers hfind wb hreqs,
    fun _ _ _ _ _ hreqs hfind => birsp_serves hfind hreqs, fun _ _ _ _ hreqs hfind htime => timeout_poisons hfind hreqs htime,
    fun _ _ _ cacheIt => hostMemRead_answers cacheIt, fun _ hpa cacheIt data mask hmoving => held_host_requests hmoving hpa cacheIt data mask,
    fun _ _ _ _ _ => hostMemWrite_stores, ?snoop, ?commits, ?waits⟩
  case snoop =>
    intro s hpa hpend hcached
    refine ⟨_, next_onPkg (doHostSnoop_gives s.mem hpend hcached), rfl, ?_, rfl⟩
    exact fun hin => bne_iff_ne.mp (List.mem_filter.mp hin).2 rfl
  case commits =>
    intro s n mu hready
    have hexec : exec (.hostPacketCommit n mu) s = .next { s with
        mem := (hostLines s.pkg n mu).foldl (fun (m : Memory) (l : PLine) => m.storeLine l.pa l.data l.poison) s.mem
        pkg := doHostPacketCommit n mu s.pkg } := if_pos hready
    exact ⟨_, hexec, rfl, hostLines_committed hready⟩
  case waits =>
    intro s n mu hready
    have hexec : exec (.hostPacketCommit n mu) s = .next (s.onPkg (doHostPacketCommit n mu)) := if_neg (Bool.eq_false_iff.mp hready)
    exact ⟨_, hexec, rfl, hostLines_asked hready⟩

end Sys2Proof.Machine
end

section
/-! The L1, the SLM and its reduction units (R327, R351, R364, R369 to R378): the proof of O33. -/

namespace Sys2Proof.Machine

/-! ## A line that returns (R327) -/

theorem OnlyReads.ces_eq {p q : Pkg} (h : OnlyReads p q) : q.ces = p.ces := by
  obtain ⟨_, _, _, _, _, _, rfl⟩ := h
  rfl

theorem l1Fill_loads (p : Pkg) (n line hint : Nat) (data : Item) (poison : Bool) :
    (ce (l1Fill p n line hint data poison) n).arrived = (ce p n).arrived ∧
      (ce (l1Fill p n line hint data poison) n).misses = (ce p n).misses := by
  have hfilled (l : SMap CLine) (v : Nat) : ce (setFld (setCe p n { ce p n with l1 := l }) (l1Status n) 15 0 v) n =
      { ce p n with l1 := l } := ce_setCe_self _ _ _
  unfold l1Fill
  dsimp only
  split
  · exact ⟨rfl, rfl⟩
  · rw [hfilled]
    exact ⟨rfl, rfl⟩

/-- A line that one load alone waits for reaches it, and is waited for no more. -/
theorem deliverLine_one {p : Pkg} {n line tag : Nat} {x : Miss} (data : Item) (poison : Bool) (hload : x.pf = false)
    (hone : (ce p n).misses.filter (fun m => m.line == line && m.tag == tag) = [x]) :
    (ce (deliverLine p n line tag data poison) n).arrived = (ce p n).arrived ++ [(x.mu, ⟨line, data, poison, 0⟩)] ∧
      (ce (deliverLine p n line tag data poison) n).misses = (ce p n).misses.filter (fun m => !(m.line == line && m.tag == tag)) := by
  have hloads : [x].filter (fun m => !m.pf) = [x] := by simp [hload]
  unfold deliverLine
  dsimp only
  rw [hone, hloads]
  dsimp only
  rw [if_neg (show ¬[x].isEmpty = true from Bool.false_ne_true)]
  split
  · obtain ⟨harrived, hmisses⟩ := l1Fill_loads (setCe p n { ce p n with
        misses := (ce p n).misses.filter (fun m => !(m.line == line && m.tag == tag))
        arrived := (ce p n).arrived ++ [x].map (fun m => (m.mu, ⟨line, data, poison, 0⟩)) }) n line x.hint data poison
    exact ⟨harrived.trans (by rw [ce_setCe_self]; rfl), hmisses.trans (by rw [ce_setCe_self])⟩
  · rw [ce_setCe_self]
    exact ⟨rfl, rfl⟩

/-- A home that supplies a line does not wait for the host's copy. -/
theorem host_of_homeRead {p q : Pkg} {pa cls hint : Nat} {wait : Option HomeReq} (h : homeRead p pa cls hint wait = (true, q)) :
    (dirLine p (pa / 64)).host ≠ 2 := by
  intro hhost
  unfold homeRead at h
  dsimp only at h
  rw [if_pos hhost] at h
  cases h

/-- What a home that is asked for a line of a CE's load does. -/
def lineServed (n line : Nat) (x : Miss) (m : Memory) (p : Pkg) : Pkg :=
  match homeRead p (line * 64) x.cls x.hint none with
  | (false, q) => q
  | (true, q) => deliverLine (crossLine q (idCe n) (line * 64) true) n line x.tag (m.line (line * 64)) (m.poisoned (line * 64) 64)

theorem lineServed_delivers {p : Pkg} {n line : Nat} {x : Miss} (m : Memory) (hhost : (dirLine p (line * 64 / 64)).host ≠ 2) :
    ∃ q, q.ces = p.ces ∧ lineServed n line x m p =
      deliverLine q n line x.tag (m.line (line * 64)) (m.poisoned (line * 64) 64) := by
  have hread := homeRead_ready x.cls x.hint none hhost
  have honly := (onlyReads_homeRead p (line * 64) x.cls x.hint none).ces_eq
  unfold lineServed
  split
  next heq =>
    rw [heq] at hread
    cases hread
  next heq =>
    rw [heq] at honly
    exact ⟨_, (onlyReads_crossLine _ _ _ _).ces_eq.trans honly, rfl⟩

theorem doLineReturn_delivers {p : Pkg} {n line : Nat} {x : Miss} (m : Memory) (hn : ceOk n = true)
    (hfind : (ce p n).misses.find? (fun y => y.line == line) = some x) (hfate : fateFor p (idCe n) (line * 64) false = .served)
    (htag : x.tag = 0 ∨ readsOlder p x.tag = false) (hhost : (dirLine p (line * 64 / 64)).host ≠ 2) :
    ∃ q, q.ces = p.ces ∧ doLineReturn n line m p = deliverLine q n line x.tag (m.line (line * 64)) (m.poisoned (line * 64) 64) := by
  have hgo : (ceOk n && fateFor p (idCe n) (line * 64) false == .served && (x.tag == 0 || readsOlder p x.tag == false)) = true := by
    rw [hn, hfate]
    rcases htag with h | h <;> simp [h]
  have hcounted (r : Pkg) (hces : r.ces = p.ces) (hhome : r.home = p.home) : ∃ q, q.ces = p.ces ∧ lineServed n line x m r =
      deliverLine q n line x.tag (m.line (line * 64)) (m.poisoned (line * 64) 64) := by
    obtain ⟨q, hq, hserved⟩ := lineServed_delivers m (p := r) (by rwa [dirLine_congr (congrArg HomeSt.dir hhome)])
    exact ⟨q, hq.trans hces, hserved⟩
  unfold doLineReturn
  rw [hfind]
  dsimp only
  rw [if_pos hgo]
  cases region (line * 64) with
  | host h => exact hcounted _ (countAccess_ces _ _ _ _ _) (countAccess_home _ _ _ _ _)
  | _ => exact hcounted _ rfl rfl

theorem lineReturn_arrives {s : State} {n line : Nat} {x : Miss} {q : Pkg} (hn : ceOk n = true)
    (hfind : (ce s.pkg n).misses.find? (fun y => y.line == line) = some x) (hload : x.pf = false)
    (hone : (ce s.pkg n).misses.filter (fun y => y.line == line) = [x]) (hfate : fateFor s.pkg (idCe n) (line * 64) false = .served)
    (htag : x.tag = 0 ∨ readsOlder s.pkg x.tag = false) (hread : homeRead s.pkg (line * 64) x.cls x.hint none = (true, q)) :
    ∃ t, exec (.lineReturn n line) s = .next t ∧ t.mem = s.mem ∧
      (ce t.pkg n).arrived = (ce s.pkg n).arrived ++ [(x.mu, ⟨line, s.mem.line (line * 64), s.mem.poisoned (line * 64) 64, 0⟩)] ∧
      (ce t.pkg n).misses.any (fun y => y.line == line) = false := by
  obtain ⟨r, hces, hreturn⟩ := doLineReturn_delivers s.mem hn hfind hfate htag (host_of_homeRead hread)
  have htagged : (ce r n).misses.filter (fun y => y.line == line && y.tag == x.tag) = [x] := by
    have hboth := List.filter_filter (p := fun y : Miss => y.tag == x.tag) (q := fun y => y.line == line) (l := (ce s.pkg n).misses)
    rw [hone] at hboth
    simp only [Bool.and_comm (_ == line), ce_congr hces, ← hboth]
    simp
  obtain ⟨harrived, hmisses⟩ := deliverLine_one (s.mem.line (line * 64)) (s.mem.poisoned (line * 64) 64) hload htagged
  refine ⟨_, next_onPkg hreturn, rfl, harrived.trans (by rw [ce_congr hces]), ?_⟩
  rw [hmisses, ce_congr hces, List.any_eq_false]
  intro y hy hline
  obtain ⟨hmem, hgone⟩ := List.mem_filter.mp hy
  have hx : y ∈ [x] := by rw [← hone]; exact List.mem_filter.mpr ⟨hmem, hline⟩
  obtain rfl := List.mem_singleton.mp hx
  rw [hline, beq_self_eq_true] at hgone
  cases hgone

/-! ## The L1's registers (R351) -/

/-- A boundary at which an invalidation waits empties the L1. -/
theorem l1Boundary_empties {p : Pkg} {n : Nat} (h : (ce p n).laterInv = true) : (ce (l1Boundary p n) n).l1 = [] ∧
    (ce (l1Boundary p n) n).side = [] ∧ bit (l1Boundary p n) (l1Status n) 31 = false := by
  have hpolicy (q : Pkg) (a b : Bool) : (setBit (setBit q (l1Status n) 30 a) (l1Status n) 29 b).ces = q.ces := rfl
  unfold l1Boundary
  extract_lets c c1 v p1 p2 p3
  have hp2 : p2.ces = p1.ces := by
    unfold p2
    split <;> rfl
  have hp3 : p3.ces = p1.ces := by
    unfold p3
    split <;> exact hp2
  have hc1 : c1 = c.invalidateAll := if_pos h
  have hce : ce (setBit p3 (l1Status n) 31 false) n = { c.invalidateAll with
      laterInv := false, laterL1 := none, laterSeed := none, pfOn := bitOf v 2, pfDepth := bitsOf v 7 5 } := by
    rw [← hc1]
    exact (ce_congr hp3 n).trans (ce_setCe_self _ _ _)
  rw [hce]
  exact ⟨rfl, rfl, bit_setBit_self _ _ _ _ (by decide)⟩

/-- A CE whose L1 is to be emptied at its next boundary, after a write of CE_L1_CONTROL. -/
def l1Asked (n : Nat) (w : W64) (p : Pkg) : Pkg :=
  setBit (setCe (setReg p (key (pgCe n) 0x180) w) n { ce p n with laterL1 := some w, laterInv := true }) (l1Status n) 31 true

theorem ce_l1Asked (n : Nat) (w : W64) (p : Pkg) : ce (l1Asked n w p) n = { ce p n with laterL1 := some w, laterInv := true } := by
  have hbit (q : Pkg) : ce (setBit q (l1Status n) 31 true) n = ce q n := rfl
  rw [l1Asked, hbit, ce_setCe_self]

theorem putL1Control_asks {p : Pkg} {n : Nat} {v : W64} (hdepth : bitsOf v 7 5 ≤ 4) (hinv : bitOf v 3 = true) :
    ∃ w, putL1Control n v p = if (ce p n).cmd.isNone then l1Boundary (l1Asked n w p) n else l1Asked n w p := by
  unfold putL1Control
  dsimp only
  rw [if_neg (Nat.not_lt.mpr hdepth), hinv, Bool.or_true, if_pos rfl]
  exact ⟨_, rfl⟩

theorem putL1Control_invalidates {p : Pkg} {n : Nat} {v : W64} (hdepth : bitsOf v 7 5 ≤ 4) (hinv : bitOf v 3 = true) :
    if (ce p n).cmd = none then (ce (putL1Control n v p) n).l1 = [] ∧ (ce (putL1Control n v p) n).side = [] ∧
      bit (putL1Control n v p) (l1Status n) 31 = false
    else (ce (putL1Control n v p) n).laterInv = true ∧ (ce (putL1Control n v p) n).l1 = (ce p n).l1 ∧
      bit (putL1Control n v p) (l1Status n) 31 = true := by
  obtain ⟨w, hput⟩ := putL1Control_asks (p := p) (n := n) hdepth hinv
  rw [hput]
  cases (ce p n).cmd with
  | none => exact l1Boundary_empties (by rw [ce_l1Asked])
  | some id =>
    have hasked := ce_l1Asked n w p
    exact ⟨(congrArg Ce.laterInv hasked :), (congrArg Ce.l1 hasked :), bit_setBit_self _ _ _ _ (by decide)⟩

theorem l1Invalidate_empties {s : State} {rq : Requester} {n : Nat} {v : W32} (hn : ceOk n = true)
    (hfate : writeFate s.pkg rq (pgCe n) 0x180 = .accepted) (hdepth : bitsOf (v.setWidth 64 : W64) 7 5 ≤ 4)
    (hinv : bitOf (v.setWidth 64 : W64) 3 = true) : ∃ t, exec (.l1Invalidate rq n v) s = .next t ∧ t.mem = s.mem ∧
      (if (ce s.pkg n).cmd = none then (ce t.pkg n).l1 = [] ∧ (ce t.pkg n).side = [] ∧ bit t.pkg (l1Status n) 31 = false
       else (ce t.pkg n).laterInv = true ∧ (ce t.pkg n).l1 = (ce s.pkg n).l1 ∧ bit t.pkg (l1Status n) 31 = true) := by
  have hput : doL1Invalidate rq n v s.pkg = putL1Control n (v.setWidth 64) s.pkg := (if_pos hn).trans (ifWrites_accepted _ hfate)
  exact ⟨_, next_onPkg hput, rfl, putL1Control_invalidates hdepth hinv⟩

/-! ## Pins and the partition (R364, R369 to R372) -/

theorem clearPins_unpins (p : Pkg) (sl : Nat) : (tagsOf (clearPins p sl) sl).all (fun x => !x.2.pinned) = true ∧
    reg (clearPins p sl) (key (pgSl sl) 0x138) = 0 ∧
    (tagsOf (clearPins p sl) sl).map (fun x => (x.1, x.2.line)) = (tagsOf p sl).map (fun x => (x.1, x.2.line)) := by
  have htags : tagsOf (clearPins p sl) sl = (tagsOf p sl).map (fun x => (x.1, { x.2 with pinned := false })) := SMap.get_set_self _ _ _ _
  have hcount : reg (clearPins p sl) (key (pgSl sl) 0x138) =
      BitVec.ofNat 64 (min 65535 ((tagsOf (clearPins p sl) sl).filter (fun x => x.2.pinned)).length) := reg_setReg_self _ _ _
  rw [hcount, htags]
  refine ⟨?_, ?_, ?_⟩
  · simp
  · simp [List.filter_map, Function.comp_def]
  · simp [Function.comp_def]

theorem slmPinClear_unpins {s : State} {rq : Requester} {sl : Nat} {v : W32} (hsl : sl < 256)
    (hfate : writeFate s.pkg rq (pgSl sl) 0x108 = .accepted) (hclear : bitOf (v.setWidth 64 : W64) 0 = true) :
    ∃ t, exec (.slmPinClear rq sl v) s = .next t ∧ t.mem = s.mem ∧
      (tagsOf t.pkg sl).all (fun x => !x.2.pinned) = true ∧ reg t.pkg (key (pgSl sl) 0x138) = 0 ∧
      (tagsOf t.pkg sl).map (fun x => (x.1, x.2.line)) = (tagsOf s.pkg sl).map (fun x => (x.1, x.2.line)) := by
  have hput : doSlmPinClear rq sl v s.pkg = clearPins s.pkg sl :=
    (if_pos hsl).trans ((ifWrites_accepted _ hfate).trans (if_pos hclear))
  exact ⟨_, next_onPkg hput, rfl, clearPins_unpins s.pkg sl⟩

theorem partitionWrite_starts {s : State} {rq : Requester} {quad n : Nat} {v : W32} (hquad : quad < 32)
    (hfate : writeFate s.pkg rq (pgQd quad) 0x180 = .accepted) (hval : n = bitsOf (v.setWidth 64 : W64) 4 0) (hn : n ≤ 16)
    (hidle : bit s.pkg (partKey quad) 31 = false) (hfold : foldIn s.pkg quad = true → n = 16) (hnew : n ≠ fld s.pkg (partKey quad) 20 16) :
    ∃ t, exec (.partitionWrite rq quad v) s = .next t ∧ bit t.pkg (partKey quad) 31 = true ∧
      fld t.pkg (partKey quad) 4 0 = n ∧ fld t.pkg (partKey quad) 20 16 = fld s.pkg (partKey quad) 20 16 ∧ t.mem = s.mem := by
  have hput : doPartitionWrite rq quad v s.pkg = putPartition quad (v.setWidth 64) s.pkg :=
    (if_pos hquad).trans (ifWrites_accepted _ hfate)
  have hstart : putPartition quad (v.setWidth 64) s.pkg = setBit (setFld s.pkg (partKey quad) 4 0 n) (partKey quad) 31 true := by
    unfold putPartition
    dsimp only
    rw [← hval, if_neg (by rintro (h | h | ⟨h, h'⟩); exacts [by omega, Bool.noConfusion (hidle.symm.trans h), by have := hfold h; omega]),
      if_neg hnew]
  refine ⟨_, next_onPkg (hput.trans hstart), bit_setBit_self _ _ _ _ (by decide), ?_, ?_, rfl⟩
  · rw [setBit, fld_setFld_beside _ _ _ _ _ _ _ (by decide) (by decide) (by decide) (by decide),
      fld_setFld_self _ _ _ _ _ (by decide) (by decide)]
    omega
  · rw [setBit, fld_setFld_beside _ _ _ _ _ _ _ (by decide) (by decide) (by decide) (by decide),
      fld_setFld_beside _ _ _ _ _ _ _ (by decide) (by decide) (by decide) (by decide)]

/-- A quadrangle's partition register after its change. -/
def partitioned (quad target : Nat) (p : Pkg) : Pkg :=
  raiseBlock (setBit (setFld p (partKey quad) 20 16 target) (partKey quad) 31 false) (pgQd quad) 0

theorem partitioned_current (quad : Nat) {target : Nat} (p : Pkg) (h : target < 32) :
    bit (partitioned quad target p) (partKey quad) 31 = false ∧ fld (partitioned quad target p) (partKey quad) 20 16 = target := by
  have hreg : reg (partitioned quad target p) (partKey quad) =
      reg (setBit (setFld p (partKey quad) 20 16 target) (partKey quad) 31 false) (partKey quad) :=
    raise_reg_off _ _ _ _ (by decide) (by decide)
  refine ⟨(bit_congr hreg 31).trans (bit_setBit_self _ _ _ _ (by decide)), (fld_congr hreg 20 16).trans ?_⟩
  rw [setBit, fld_setFld_beside _ _ _ _ _ _ _ (by decide) (by decide) (by decide) (by decide),
    fld_setFld_self _ _ _ _ _ (by decide) (by decide)]
  exact Nat.mod_eq_of_lt h

theorem doPartitionChangeDone_ends {quad : Nat} {p : Pkg} (hgo : (decide (quad < 32) && bit p (partKey quad) 31) = true) :
    ∃ q, doPartitionChangeDone quad p = partitioned quad (fld p (partKey quad) 4 0) q := by
  unfold doPartitionChangeDone
  dsimp only
  rw [if_pos hgo]
  exact ⟨_, rfl⟩

theorem partitionChange_ends {s : State} {quad : Nat} (hquad : quad < 32) (hstep : stepping s.pkg (quad / 8) = true)
    (hbusy : bit s.pkg (partKey quad) 31 = true) : ∃ t, exec (.partitionChangeDone quad) s = .next t ∧
      t.mem = zeroWays (converting s.pkg quad).1 (converting s.pkg quad).2 quad s.mem ∧
      bit t.pkg (partKey quad) 31 = false ∧ fld t.pkg (partKey quad) 20 16 = fld s.pkg (partKey quad) 4 0 := by
  have hgo : (decide (quad < 32) && bit s.pkg (partKey quad) 31) = true := by rw [decide_eq_true hquad, hbusy, Bool.and_self]
  obtain ⟨q, hdone⟩ := doPartitionChangeDone_ends hgo
  have hexec : execPartitionChangeDone quad s = .next { s with
      mem := zeroWays (converting s.pkg quad).1 (converting s.pkg quad).2 quad s.mem
      pkg := partitioned quad (fld s.pkg (partKey quad) 4 0) q } := by
    unfold execPartitionChangeDone
    rw [hstep, if_neg (by decide), if_pos hgo, hdone]
  exact ⟨_, hexec, rfl, partitioned_current quad q (Nat.mod_lt _ (by decide))⟩

theorem lookupCell_filter (m : List Host.Cell) (f : Nat → Bool) (a : Nat) :
    lookupCell (m.filter fun c => f c.1) a = if f a then lookupCell m a else none := by
  induction m with
  | nil => simp [lookupCell]
  | cons c t ih =>
    obtain ⟨a', b⟩ := c
    by_cases hf : f a' = true <;> by_cases ha : a = a' <;> simp_all [lookupCell]

/-- An address of the converting ways that is not listed reads as zero. -/
theorem memDefault_converting {lo hi quad a : Nat} (h : inConverting lo hi quad a = true) : memDefault a = some 0 := by
  have hslm : ∀ sl b, region a = .slm sl b → slmBase ≤ a ∧ a < 0x200020000000 := by
    intro sl b hregion
    unfold region at hregion
    by_contra hout
    rw [if_neg hout] at hregion
    split_ifs at hregion
  unfold inConverting at h
  split at h
  next heq => exact if_pos (hslm _ _ heq)
  next => cases h

theorem zeroWays_zero {lo hi quad a : Nat} (m : Memory) (h : inConverting lo hi quad a = true) : (zeroWays lo hi quad m).byte a = 0 := by
  unfold Memory.byte zeroWays
  dsimp only
  rw [lookupCell_filter m.cells (fun x => !inConverting lo hi quad x), h, memDefault_converting h]
  rfl

theorem zeroWays_keeps {lo hi quad a : Nat} (m : Memory) (h : inConverting lo hi quad a = false) :
    (zeroWays lo hi quad m).byte a = m.byte a := by
  unfold Memory.byte zeroWays
  dsimp only
  rw [lookupCell_filter m.cells (fun x => !inConverting lo hi quad x), h]
  rfl

/-! ## Reduction units and watches (R374 to R376, R459, R307, R378) -/

/-- An atomic without a waiting request, at the home that serves it. -/
theorem atomAt_serves {s : State} {pa op : Nat} {v : W64} {who pg : Nat} (hpa : pa % 8 = 0) (hop : op ≤ 1)
    (hfate : fateFor s.pkg who pa false = .served) (hhost : hostHolds s.pkg pa = false) (hclean : op = 0 → s.mem.poisoned pa 8 = false) :
    (atomAt pa op v who pg none s).2.mem = s.mem.write pa 8 (if op = 0 then BitVec.ofNat 64 (s.mem.read pa 8) + v else v).toNat := by
  unfold atomAt
  dsimp only
  rw [if_neg (by omega), if_neg (show ¬(none : Option HomeReq).isSome = true from Bool.false_ne_true), hfate]
  dsimp only
  rw [if_neg (Bool.eq_false_iff.mp hhost), if_neg fun h => Bool.noConfusion ((hclean h.1).symm.trans h.2)]

section
variable {s : State} {pa : Nat}

theorem add64_adds (v : W64) (hpa : pa % 8 = 0) (hfate : fateFor s.pkg 0 pa false = .served) (hhost : hostHolds s.pkg pa = false)
    (hclean : s.mem.poisoned pa 8 = false) : ∃ t, exec (.add64 pa v) s = .next t ∧
      t.mem = s.mem.write pa 8 (BitVec.ofNat 64 (s.mem.read pa 8) + v).toNat ∧
      ∀ a, a < pa ∨ pa + 8 ≤ a → t.mem.byte a = s.mem.byte a := by
  have hmem := atomAt_serves (op := 0) (v := v) (pg := homePage pa) hpa (by decide) hfate hhost fun _ => hclean
  refine ⟨_, rfl, hmem, fun a ha => ?_⟩
  rw [hmem]
  exact Memory.byte_write_out _ _ _ _ _ ha

theorem set64_sets (v : W64) (hpa : pa % 8 = 0) (hfate : fateFor s.pkg 0 pa false = .served) (hhost : hostHolds s.pkg pa = false) :
    ∃ t, exec (.set64 pa v) s = .next t ∧ t.mem = s.mem.write pa 8 v.toNat ∧
      ∀ a, a < pa ∨ pa + 8 ≤ a → t.mem.byte a = s.mem.byte a := by
  have hmem := atomAt_serves (op := 1) (v := v) (pg := homePage pa) hpa (by decide) hfate hhost nofun
  refine ⟨_, rfl, hmem, fun a ha => ?_⟩
  rw [hmem]
  exact Memory.byte_write_out _ _ _ _ _ ha

theorem raddAt_serves {who pg : Nat} (r : Rec) (hpa : pa % 16 = 0) (hfate : fateFor s.pkg who pa false = .served)
    (hfate2 : fateFor s.pkg who (radd2 pa) false = .served) (hhost : hostHolds s.pkg pa = false)
    (hhost2 : hostHolds s.pkg (radd2 pa) = false) (hclean : s.mem.poisoned pa 80 = false) :
    (raddAt pa r who pg s).2.mem = s.mem.write pa 80 (recAdd (s.mem.record pa) r).toNat := by
  unfold raddAt
  dsimp only
  rw [if_neg (not_not_intro hpa), hfate, hfate2]
  dsimp only
  rw [hhost, hhost2, if_neg (by decide), if_neg (Bool.eq_false_iff.mp hclean)]

theorem radd_adds (r : Rec) (hpa : pa % 16 = 0) (hfate : fateFor s.pkg 0 pa false = .served)
    (hfate2 : fateFor s.pkg 0 (radd2 pa) false = .served) (hhost : hostHolds s.pkg pa = false)
    (hhost2 : hostHolds s.pkg (radd2 pa) = false) (hclean : s.mem.poisoned pa 80 = false) :
    ∃ t, exec (.radd pa r) s = .next t ∧ t.mem = s.mem.write pa 80 (recAdd (s.mem.record pa) r).toNat ∧
      ∀ a, a < pa ∨ pa + 80 ≤ a → t.mem.byte a = s.mem.byte a := by
  have hmem := raddAt_serves (pg := homePage pa) r hpa hfate hfate2 hhost hhost2 hclean
  refine ⟨_, rfl, hmem, fun a ha => ?_⟩
  rw [hmem]
  exact Memory.byte_write_out _ _ _ _ _ ha
end

/-- A watch that joins its home's table. -/
theorem addWatch_joins {p : Pkg} {pa id : Nat} (h : (watchesAt p (watchKey pa)).length < 64) :
    (cmd (addWatch p pa id) id).watching = true ∧ watchesAt (addWatch p pa id) (watchKey pa) = watchesAt p (watchKey pa) ++
      [⟨id, pa, BitVec.ofNat 64 (dField (cmd p id).desc 32 8), dField (cmd p id).desc 40 1 == 1⟩] := by
  unfold addWatch
  extract_lets c k w _ p1
  have hcmd : cmd p1 id = { c with watching := true } := cmd_setCmd_self _ _ _
  have hwatches : watchesAt p1 k = watchesAt p k ++ [w] := SMap.get_set_self _ _ _ _
  rw [if_pos h]
  split
  · have hraise := raiseBlock_only p1 (pgSl k) 0
    have hsame : watchesAt (raiseBlock p1 (pgSl k) 0) k = watchesAt p1 k := congrArg (fun x : HomeSt => SMap.get x.watches k []) hraise.home_eq
    exact ⟨by rw [cmd_congr (congrArg QmSt.cmds hraise.log.qm_eq), hcmd], hsame.trans hwatches⟩
  · exact ⟨by rw [hcmd], hwatches⟩

theorem watch_joins {s : State} {pa id : Nat} (hcmd : hasCmd s.pkg id = true) (hop : dOpcode (cmd s.pkg id).desc = 6)
    (hphase : (cmd s.pkg id).phase = .running) (hnew : (cmd s.pkg id).watching = false) (hpa : pa % 8 = 0)
    (hroom : (watchesAt s.pkg (watchKey pa)).length < 64) : ∃ t, exec (.watch pa id) s = .next t ∧ (cmd t.pkg id).watching = true ∧
      t.mem = s.mem ∧ watchesAt t.pkg (watchKey pa) = watchesAt s.pkg (watchKey pa) ++
        [⟨id, pa, BitVec.ofNat 64 (dField (cmd s.pkg id).desc 32 8), dField (cmd s.pkg id).desc 40 1 == 1⟩] := by
  obtain ⟨hwatching, hjoins⟩ := addWatch_joins (id := id) hroom
  have hadd : doWatch pa id s.pkg = addWatch s.pkg pa id := if_pos (by rw [hcmd, hop, hphase, hnew, hpa]; rfl)
  exact ⟨_, next_onPkg hadd, hwatching, rfl, hjoins⟩

/-- Settles O33. -/
theorem theL1TheSlmAndItsReductionUnitsServe : Obligations.TheL1TheSlmAndItsReductionUnitsServe := by
  unfold Obligations.TheL1TheSlmAndItsReductionUnitsServe
  refine ⟨⟨?line, fun _ _ _ _ => l1Invalidate_empties, fun _ _ _ _ => slmPinClear_unpins, fun _ _ _ _ _ => partitionWrite_starts,
    fun _ _ => partitionChange_ends, fun _ _ _ _ => zeroWays_zero, fun _ _ _ _ => zeroWays_keeps⟩, fun _ _ => add64_adds,
    fun _ _ => set64_sets, fun _ _ => radd_adds, fun _ _ _ => watch_joins⟩
  case line =>
    intro s n line x q hn hfind hload hone hfate htag _ hread
    exact lineReturn_arrives hn hfind hload hone hfate htag hread

end Sys2Proof.Machine
end

section
/-! Octets: their words, tile loads, feeds and projections (R209 to R222, R231, R234). -/

namespace Sys2Proof.Machine

/-! ## The end of a word (R206, R212) -/

/-- From p to q CE n keeps its chart, what its command asks for and the places of its units. -/
structure StaysAt (p q : Pkg) (n : Nat) : Prop where
  chart : ceChart q n = ceChart p n
  desc : (ceCmd q n).desc = (ceCmd p n).desc
  progress : (ce q n).progress = (ce p n).progress

theorem KeepsPlace.stays {p q : Pkg} {n : Nat} (h : KeepsPlace p q n) : StaysAt p q n := ⟨h.chart, congrArg Cmd.desc h.cmd, h.progress⟩

theorem StaysAt.trans {p q r : Pkg} {n : Nat} (h : StaysAt p q n) (g : StaysAt q r n) : StaysAt p r n :=
  ⟨g.chart.trans h.chart, g.desc.trans h.desc, g.progress.trans h.progress⟩

/-- The repeats of a unit depend on its command's descriptor alone. -/
theorem unitRepeats_congr {c d : Cmd} (h : d.desc = c.desc) (ch : Chart) (u : UnitRec) : unitRepeats ch d u = unitRepeats ch c u := by
  unfold unitRepeats roundsOf
  rw [h]

/-- What the end of a word of an octet leaves: CE d, for CE n of p. The mask stays while the unit stays in its pass. -/
structure OctetWordDone (p : Pkg) (n oct : Nat) (d : Ce) : Prop where
  progress : d.progress = (advanceUnit p n 1 oct 1 (ce p n)).progress
  long : d.long = (ce p n).long
  routes : d.routes = (ce p n).routes
  octet : octet d oct = { octet (ce p n) oct with
    mask := if (unitAt d 1 oct).2 = (unitAt (ce p n) 1 oct).2 then (octet (ce p n) oct).mask else 0xFF }

theorem octNext_done (p : Pkg) (n oct : Nat) : OctetWordDone p n oct (ce (octNext p n oct) n) := by
  obtain ⟨x, hx⟩ := advanceUnit_only p n 1 oct 1 (ce p n)
  unfold octNext
  dsimp only
  rw [hx]
  by_cases hpass : (unitAt { ce p n with progress := x } 1 oct).2 = (unitAt (ce p n) 1 oct).2
  · rw [if_pos hpass, ce_setCe_self]
    exact ⟨by rw [hx], rfl, rfl, congrArg (fun m => { octet (ce p n) oct with mask := m }) (if_pos hpass).symm⟩
  · rw [if_neg hpass, ce_setCe_self]
    refine ⟨by rw [hx], rfl, rfl, (SMap.get_set_self _ _ _ _).trans ?_⟩
    exact congrArg (fun m => { octet (ce p n) oct with mask := m }) (if_neg hpass).symm

section
variable {s : State} {f : Pkg → Pkg} {q : Pkg} {n oct : Nat} (hf : f s.pkg = octNext q n oct)
include hf

theorem octNext_done_of : OctetWordDone q n oct (ce (s.onPkg f).pkg n) := by
  rw [State.onPkg_pkg, hf]
  exact octNext_done q n oct

theorem octNext_movesOn (hq : StaysAt s.pkg q n) : MovedOn s (s.onPkg f) n 1 oct 1 := by
  intro u hu
  have hprogress := (octNext_done_of hf).progress
  unfold unitAt
  rw [hprogress, ← unitRepeats_congr hq.desc, ← hq.progress]
  rw [← hq.chart] at hu ⊢
  simp only [advanceUnit, hu]
  exact SMap.get_set_self _ _ _ _
end

/-! ## Changes of one octet -/

theorem octet_onOctet (p : Pkg) (n oct : Nat) (f : Octet → Octet) : octet (ce (onOctet p n oct f) n) oct = f (octet (ce p n) oct) := by
  rw [onOctet, ce_setCe_self]
  exact SMap.get_set_self _ _ _ _

theorem keepsPlace_onOctet (p : Pkg) (n oct : Nat) (f : Octet → Octet) : KeepsPlace p (onOctet p n oct f) n := keepsPlace_setCe rfl rfl rfl

theorem passLatches_octet (c : Ce) (oct j : Nat) : ∃ l, octet (passLatches c oct) j = { octet c j with latches := l } := by
  unfold passLatches
  dsimp only
  split
  · exact ⟨_, rfl⟩
  · by_cases hj : j = oct
    · exact ⟨[], by rw [hj]; exact SMap.get_set_self _ _ _ _⟩
    · exact ⟨_, SMap.get_set_ne _ _ _ hj⟩

/-- Latches that settle leave the rest of every octet. -/
theorem settleLatches_octet (p : Pkg) (n j : Nat) : ∃ l, octet (ce (settleLatches p n) n) j = { octet (ce p n) j with latches := l } := by
  unfold settleLatches
  split
  · exact ⟨_, rfl⟩
  · rw [ce_setCe_self]
    generalize ce p n = c
    induction List.range 8 generalizing c with
    | nil => exact ⟨_, rfl⟩
    | cons oct l ih =>
      obtain ⟨a, ha⟩ := passLatches_octet c oct j
      obtain ⟨b, hb⟩ := ih (passLatches c oct)
      exact ⟨b, by rw [List.foldl_cons, hb, ha]⟩

theorem settleLatches_routes (p : Pkg) (n : Nat) : (ce (settleLatches p n) n).routes = (ce p n).routes := by
  obtain ⟨l, o, hce⟩ := ce_settleLatches p n
  rw [hce]

/-! ## Words that only set an octet -/

section
variable {s : State} {n oct : Nat}

theorem octetNop_ends (h : octAt s.pkg n oct 0 = true) : ∃ t, exec (.octetNop n oct) s = .next t ∧ t.mem = s.mem ∧
    MovedOn s t n 1 oct 1 ∧ (octet (ce t.pkg n) oct).cells = (octet (ce s.pkg n) oct).cells ∧ (ce t.pkg n).long = (ce s.pkg n).long := by
  have hword : doOctetNop n oct s.pkg = octNext s.pkg n oct := if_pos h
  have hdone := octNext_done_of hword
  exact ⟨_, rfl, rfl, octNext_movesOn hword (KeepsPlace.refl _ _).stays, (congrArg Octet.cells hdone.octet :), hdone.long⟩

theorem octetFormat_formats {fa fb : Nat} {axis sa sb : Bool} (hfa : fa < 13) (hfb : fb < 13)
    (h : octAt s.pkg n oct (2 ^ 28 + fa * 2 ^ 24 + fb * 2 ^ 20 + bitNat axis * 2 ^ 19 + bitNat sa * 2 ^ 18 + bitNat sb * 2 ^ 17) = true) :
    ∃ t, exec (.octetFormat n oct fa fb axis sa sb) s = .next t ∧ t.mem = s.mem ∧ MovedOn s t n 1 oct 1 ∧
      (octet (ce t.pkg n) oct).formatted = true ∧ (octet (ce t.pkg n) oct).fa = fa ∧ (octet (ce t.pkg n) oct).fb = fb ∧
      (octet (ce t.pkg n) oct).axis = axis ∧ (octet (ce t.pkg n) oct).sharedA = sa ∧ (octet (ce t.pkg n) oct).sharedB = sb := by
  have hword : doOctetFormat n oct fa fb axis sa sb s.pkg = octNext (onOctet s.pkg n oct fun o => { o with
      formatted := true, fa := fa, fb := fb, axis := axis, sharedA := sa, sharedB := sb }) n oct :=
    if_pos (by rw [h, decide_eq_true hfa, decide_eq_true hfb]; rfl)
  have hoctet := (octNext_done_of hword).octet
  rw [octet_onOctet] at hoctet
  refine ⟨_, rfl, rfl, octNext_movesOn hword (keepsPlace_onOctet _ _ _ _).stays, ?_⟩
  exact ⟨congrArg Octet.formatted hoctet, congrArg Octet.fa hoctet, congrArg Octet.fb hoctet, congrArg Octet.axis hoctet,
    congrArg Octet.sharedA hoctet, congrArg Octet.sharedB hoctet⟩

theorem octetMask_masks {mask : Nat} (h : octAt s.pkg n oct (5 * 2 ^ 28 + mask) = true) (hmask : mask < 256) :
    ∃ t, exec (.octetMask n oct mask) s = .next t ∧ t.mem = s.mem ∧ MovedOn s t n 1 oct 1 ∧ (octet (ce t.pkg n) oct).mask =
      if (unitAt (ce t.pkg n) 1 oct).2 = (unitAt (ce s.pkg n) 1 oct).2 then mask else 0xFF := by
  have hword : doOctetMask n oct mask s.pkg = octNext (onOctet s.pkg n oct fun o => { o with mask := mask }) n oct :=
    if_pos (by rw [h, decide_eq_true hmask]; rfl)
  have hplace := keepsPlace_onOctet s.pkg n oct fun o => { o with mask := mask }
  have hoctet := congrArg Octet.mask (octNext_done_of hword).octet
  have hunit : unitAt (ce (onOctet s.pkg n oct fun o => { o with mask := mask }) n) 1 oct = unitAt (ce s.pkg n) 1 oct := by
    rw [unitAt, hplace.progress, ← unitAt]
  rw [octet_onOctet, hunit] at hoctet
  exact ⟨_, rfl, rfl, octNext_movesOn hword hplace.stays, hoctet⟩

theorem feedStall_stops (hmay : octMay s.pkg n oct = true) (hfeed : feedHas s.pkg n oct = false) :
    ∃ t, exec (.feedStallStop n oct) s = .next t ∧ t.mem = s.mem ∧ (octet (ce t.pkg n) oct).stopped = true ∧
      (octet (ce t.pkg n) oct).cells = (octet (ce s.pkg n) oct).cells := by
  have hstop : doFeedStallStop n oct s.pkg = onOctet s.pkg n oct fun o => { o with stopped := true } := if_pos (by rw [hmay, hfeed]; rfl)
  refine ⟨_, next_onPkg hstop, rfl, ?_⟩
  rw [octet_onOctet]
  exact ⟨rfl, rfl⟩

theorem feed_restarts (hmay : octMay s.pkg n oct = true) (hfeed : feedHas s.pkg n oct = true) :
    ∃ t, exec (.feedRestart n oct) s = .next t ∧ t.mem = s.mem ∧ (octet (ce t.pkg n) oct).stopped = false ∧
      (octet (ce t.pkg n) oct).cells = (octet (ce s.pkg n) oct).cells := by
  have hstart : doFeedRestart n oct s.pkg = onOctet s.pkg n oct fun o => { o with stopped := false } := if_pos (by rw [hmay, hfeed]; rfl)
  refine ⟨_, next_onPkg hstart, rfl, ?_⟩
  rw [octet_onOctet]
  exact ⟨rfl, rfl⟩

/-! ## Tile loads (R216 to R219) -/

/-- An octet whose bank has taken the last item of its tile. -/
def tileLoaded (p : Pkg) (n oct bank : Nat) (x : Item) (rest : List Item) : Pkg :=
  setCe p n { ce p n with
    routes := SMap.set (ce p n).routes (0x68 + oct) rest
    octets := SMap.set (ce p n).octets oct { octet (ce p n) oct with
      loading := [], sr := SMap.set (octet (ce p n) oct).sr bank ((octet (ce p n) oct).loading ++ [x]) } }

theorem keepsPlace_tileLoaded (p : Pkg) (n oct bank : Nat) (x : Item) (rest : List Item) :
    KeepsPlace p (tileLoaded p n oct bank x rest) n := keepsPlace_setCe rfl rfl rfl

theorem loadItem_last {p : Pkg} {bank : Nat} {x : Item} {rest : List Item} (hitems : routeItems (ce p n) (0x68 + oct) = x :: rest)
    (hlast : (octet (ce p n) oct).loading.length + 1 = srItems (octet (ce p n) oct).fb) :
    loadItem n oct bank p = (.ended, tileLoaded p n oct bank x rest) := by
  have hoctet : octet { ce p n with routes := SMap.set (ce p n).routes (0x68 + oct) rest } oct = octet (ce p n) oct := rfl
  unfold loadItem
  dsimp only
  rw [takeItem_cons hitems]
  dsimp only
  rw [hoctet, if_neg (by rw [List.length_append, List.length_singleton]; omega)]
  rfl

theorem loadRun_ended {p q : Pkg} {bank : Nat} (fuel : Nat) (h : loadItem n oct bank p = (.ended, q)) :
    loadRun n oct bank (fuel + 1) p = (.ended, q) := by
  rw [loadRun, h]

theorem loadSr_loads {bank : Nat} {x : Item} {rest : List Item} (h : octAt s.pkg n oct (3 * 2 ^ 28 + bank * 2 ^ 27) = true)
    (hformat : (octet (ce s.pkg n) oct).formatted = true) (hbank : bank < 2) (hdone : (octet (ce s.pkg n) oct).done = 0)
    (hitems : routeItems (ce s.pkg n) (0x68 + oct) = x :: rest)
    (hlast : (octet (ce s.pkg n) oct).loading.length + 1 = srItems (octet (ce s.pkg n) oct).fb) :
    ∃ t, exec (.loadSr n oct bank) s = .next t ∧ t.mem = s.mem ∧ MovedOn s t n 1 oct 1 ∧
      SMap.get (octet (ce t.pkg n) oct).sr bank [] = (octet (ce s.pkg n) oct).loading ++ [x] ∧ (octet (ce t.pkg n) oct).loading = [] ∧
      routeItems (ce t.pkg n) (0x68 + oct) = rest := by
  have hword : doLoadSr n oct bank s.pkg = octNext (tileLoaded s.pkg n oct bank x rest) n oct := by
    unfold doLoadSr
    dsimp only
    rw [if_pos (by rw [h, hformat, hdone, decide_eq_true hbank]; rfl), loadRun_ended 130 (loadItem_last hitems hlast)]
  have hdone := octNext_done_of hword
  have hoctet := hdone.octet
  have hloaded : octet (ce (tileLoaded s.pkg n oct bank x rest) n) oct = { octet (ce s.pkg n) oct with
      loading := [], sr := SMap.set (octet (ce s.pkg n) oct).sr bank ((octet (ce s.pkg n) oct).loading ++ [x]) } := by
    rw [tileLoaded, ce_setCe_self]
    exact SMap.get_set_self _ _ _ _
  rw [hloaded] at hoctet
  refine ⟨_, rfl, rfl, octNext_movesOn hword (keepsPlace_tileLoaded _ _ _ _ _ _).stays, ?_, (congrArg Octet.loading hoctet :), ?_⟩
  · rw [congrArg Octet.sr hoctet]
    exact SMap.get_set_self _ _ _ _
  · rw [routeItems, hdone.routes, tileLoaded, ce_setCe_self]
    exact SMap.get_set_self _ _ _ _

/-! ## The last round of a projection (R234) -/

/-- An octet that has done its part of a round. -/
def roundCounted (p : Pkg) (n oct : Nat) : Pkg :=
  onOctet p n oct fun o => { o with rounds := o.rounds + 1, tile := 0, pass := 0, loaded := false }

theorem octRoundDone_last {p : Pkg} {total : Nat} (h : total = (octet (ce p n) oct).rounds + 1) :
    octRoundDone p n oct total = (.ended, octNext (roundCounted p n oct) n oct) := by
  have hrounds : (octet (ce (roundCounted p n oct) n) oct).rounds = (octet (ce p n) oct).rounds + 1 := by rw [roundCounted, octet_onOctet]
  exact if_pos (h.trans hrounds.symm).le

theorem projectRun_ended {p q : Pkg} (fuel : Nat) (h : projectStep n oct p = (.ended, q)) : projectRun n oct (fuel + 1) p = q := by
  rw [projectRun, h]

/-- The last round of an octet with no part of K left. -/
theorem projectStep_last {p : Pkg} (hmode : octMode p n oct ≠ 2) (hlast : roundsOf (ceCmd p n) (octMode p n oct) = (octet (ce p n) oct).rounds + 1)
    (hround : (octet (ce p n) oct).rounds ≤ (ce p n).round)
    (hk : ceilDiv (runK (ceCmd p n)) 64 ≤ oct + 8 * (octet (ce p n) oct).tile) :
    projectStep n oct p = (.ended, octNext (roundCounted p n oct) n oct) := by
  unfold projectStep
  dsimp only
  rw [if_neg (by omega), if_neg hmode, if_pos hk]
  exact octRoundDone_last hlast

theorem octMode_stays {p q : Pkg} (h : StaysAt p q n) : octMode q n oct = octMode p n oct := by
  unfold octMode
  rw [h.chart]

theorem project_ends (h : octAt s.pkg n oct (2 * 2 ^ 28) = true) (hformat : (octet (ce s.pkg n) oct).formatted = true)
    (hmode : octMode s.pkg n oct ≠ 2) (hlast : roundsOf (ceCmd s.pkg n) (octMode s.pkg n oct) = (octet (ce s.pkg n) oct).rounds + 1)
    (hround : (octet (ce s.pkg n) oct).rounds ≤ (ce s.pkg n).round)
    (hk : ceilDiv (runK (ceCmd s.pkg n)) 64 ≤ oct + 8 * (octet (ce s.pkg n) oct).tile) :
    ∃ t, exec (.project n oct) s = .next t ∧ t.mem = s.mem ∧ (octet (ce t.pkg n) oct).rounds = (octet (ce s.pkg n) oct).rounds + 1 ∧
      MovedOn s t n 1 oct 1 ∧ (octet (ce t.pkg n) oct).tile = 0 ∧ (octet (ce t.pkg n) oct).cells = (octet (ce s.pkg n) oct).cells := by
  have hplace := keepsPlace_settleLatches s.pkg n
  obtain ⟨l, hsettled⟩ := settleLatches_octet s.pkg n oct
  have hstep : projectStep n oct (settleLatches s.pkg n) = (.ended, octNext (roundCounted (settleLatches s.pkg n) n oct) n oct) := by
    refine projectStep_last ?_ ?_ ?_ ?_
    · rwa [octMode_stays hplace.stays]
    · rw [hplace.cmd, octMode_stays hplace.stays, hsettled]
      exact hlast
    · rw [settleLatches_round, hsettled]
      exact hround
    · rw [hplace.cmd, hsettled]
      exact hk
  have hword : doProject n oct s.pkg = octNext (roundCounted (settleLatches s.pkg n) n oct) n oct :=
    (if_pos (by rw [h, hformat]; rfl)).trans (projectRun_ended 65535 hstep)
  have hoctet := (octNext_done_of hword).octet
  rw [roundCounted, octet_onOctet, hsettled] at hoctet
  exact ⟨_, rfl, rfl, (congrArg Octet.rounds hoctet :), octNext_movesOn hword (hplace.trans (keepsPlace_onOctet _ _ _ _)).stays,
    (congrArg Octet.tile hoctet :), (congrArg Octet.cells hoctet :)⟩
end

end Sys2Proof.Machine
end

section
/-! Octets: a pass (R220 to R225, R248). -/

namespace Sys2Proof.Machine

/-! ## Folds that change one entry per step -/

/-- A fold of which one step alone changes what `k` reads as. -/
theorem get_foldl_step {ι α : Type} [DecidableEq ι] {g : SMap α → ι → SMap α} {k : Nat} {d : α} {y : ι} {F : α → α} (l : List ι)
    (hg : ∀ x ∈ l, ∀ m, SMap.get (g m x) k d = if x = y then F (SMap.get m k d) else SMap.get m k d) (hl : l.Nodup) (m : SMap α) :
    SMap.get (l.foldl g m) k d = if y ∈ l then F (SMap.get m k d) else SMap.get m k d := by
  induction l generalizing m with
  | nil => rfl
  | cons x l ih =>
    obtain ⟨hx, hl⟩ := List.nodup_cons.mp hl
    rw [List.foldl_cons, ih (fun z hz => hg z (List.mem_cons_of_mem x hz)) hl, hg x (List.mem_cons_self ..)]
    by_cases hxy : x = y
    · subst hxy
      rw [if_neg hx, if_pos rfl, if_pos (List.mem_cons_self ..)]
    · have hmem : y ∈ x :: l ↔ y ∈ l := by simp [Ne.symm hxy]
      rw [if_neg hxy, if_congr hmem rfl rfl]

theorem allCells_nodup : allCells.Nodup := by decide

theorem mem_allCells {i c : Nat} : (i, c) ∈ allCells ↔ i < 8 ∧ c < 8 := by
  simp [allCells]

/-- The cells of an array have keys of their own. -/
theorem cellKey_inj {a b i j c d : Nat} (hi : i < 8) (hc : c < 8) (hj : j < 8) (hd : d < 8) :
    cellKey a i c = cellKey b j d ↔ a = b ∧ (i, c) = (j, d) := by
  unfold cellKey
  rw [Prod.mk.injEq]
  omega

/-! ## The cells of a group (R220, R248) -/

/-- The cells after array a has taken a group. -/
def arrayTakes (o : Octet) (mode u : Nat) (xs ys : List (Item × Nat)) (m : SMap Cell) (a : Nat) : SMap Cell :=
  allCells.foldl (fun m ic => SMap.set m (cellKey a ic.1 ic.2)
    (cellTake o mode u xs ys a ic.1 ic.2 (SMap.get m (cellKey a ic.1 ic.2) ⟨0, 0⟩))) m

theorem get_arrayTakes (o : Octet) (mode u : Nat) (xs ys : List (Item × Nat)) (m : SMap Cell) (b : Nat) {a i c : Nat} (hi : i < 8)
    (hc : c < 8) : SMap.get (arrayTakes o mode u xs ys m b) (cellKey a i c) ⟨0, 0⟩ =
      if b = a then cellTake o mode u xs ys a i c (SMap.get m (cellKey a i c) ⟨0, 0⟩) else SMap.get m (cellKey a i c) ⟨0, 0⟩ := by
  have hset (m : SMap Cell) {x : Nat × Nat} (hx : x ∈ allCells) (v : Cell) :
      SMap.get (SMap.set m (cellKey b x.1 x.2) v) (cellKey a i c) ⟨0, 0⟩ =
        if b = a ∧ x = (i, c) then v else SMap.get m (cellKey a i c) ⟨0, 0⟩ := by
    obtain ⟨hx1, hx2⟩ := mem_allCells.mp hx
    rw [SMap.get_set]
    exact if_congr (eq_comm.trans (cellKey_inj hx1 hx2 hi hc)) rfl rfl
  by_cases hab : b = a
  · subst hab
    rw [if_pos rfl]
    refine (get_foldl_step (y := (i, c)) (F := cellTake o mode u xs ys b i c) allCells (fun x hx m => ?_) allCells_nodup m).trans
      (if_pos (mem_allCells.mpr ⟨hi, hc⟩))
    rw [hset m hx]
    by_cases hxy : x = (i, c)
    · rw [if_pos ⟨rfl, hxy⟩, if_pos hxy, hxy]
    · rw [if_neg fun h => hxy h.2, if_neg hxy]
  · rw [if_neg hab]
    refine (get_foldl_step (y := (i, c)) (F := id) allCells (fun x hx m => ?_) allCells_nodup m).trans (ite_self _)
    rw [hset m hx, if_neg fun h => hab h.1]
    exact (ite_self _).symm

/-- The cells of an octet after the arrays of a list have taken a group. -/
theorem get_arraysTake (o : Octet) (mode u : Nat) (xs ys : List (Item × Nat)) {l : List Nat} (hl : l.Nodup) (m : SMap Cell) {a i c : Nat}
    (hi : i < 8) (hc : c < 8) : SMap.get (l.foldl (arrayTakes o mode u xs ys) m) (cellKey a i c) ⟨0, 0⟩ =
      if a ∈ l then cellTake o mode u xs ys a i c (SMap.get m (cellKey a i c) ⟨0, 0⟩) else SMap.get m (cellKey a i c) ⟨0, 0⟩ :=
  get_foldl_step l (fun b _ m => get_arrayTakes o mode u xs ys m b hi hc) hl m

/-- CE c with a new state of one octet. -/
def withOctet (c : Ce) (oct : Nat) (o : Octet) : Ce := { c with octets := SMap.set c.octets oct o }

theorem octet_withOctet (c : Ce) (oct : Nat) (o : Octet) : octet (withOctet c oct o) oct = o := SMap.get_set_self _ _ _ _

theorem takeGroup_cells {c : Ce} {oct : Nat} (q : PassArgs) (u : Nat) (xs ys : List (Item × Nat)) (h : is16 (octet c oct).fa = false) :
    ∃ since, takeGroup c oct q u xs ys = withOctet c oct { octet c oct with
      cells := ((List.range 8).filter (fun a => q.takes a u)).foldl (arrayTakes (octet c oct) q.mode u xs ys) (octet c oct).cells
      since := since } := by
  unfold takeGroup
  dsimp only
  rw [h, Bool.and_false]
  exact ⟨_, rfl⟩

/-- One INT8 element of a split feed in mode 2: a cell adds the product of its row and its column wire. -/
theorem cellTake_int8 {o : Octet} (hfa : o.fa = 5) (hfb : o.fb = 5) (hsa : o.sharedA = false) (hsb : o.sharedB = false) (x y : Item)
    (ua ub a i c : Nat) (v : Cell) : cellTake o 2 0 [(x, ua)] [(y, ub)] a i c v =
      v.addFixed (product (wireOf 5 (itemByte x (8 * a + i))) (wireOf 5 (itemByte y (8 * a + c)))) := by
  unfold cellTake groupWires
  rw [hfa, hfb, hsa, hsb]
  rfl

/-! ## The steps of a pass (R220 to R225) -/

theorem takeBeats_split {c : Ce} {port : Nat} {x : Item} {rest : List Item} (used : Nat) (h : routeItems c port = x :: rest) :
    takeBeats 1 port false c used = some ([(x, used)], { c with routes := SMap.set c.routes port rest }, 0) := by
  rw [takeBeats, takeItem_cons h]
  rfl

theorem drainWaits_free {q : PassArgs} (h : q.free = true) (o : Octet) (u : Nat) : drainWaits q o u = false := by
  rw [drainWaits, h]
  rfl

theorem notePreemptMax_ces (p : Pkg) (n : Nat) : (notePreemptMax p n).ces = p.ces := by
  unfold notePreemptMax
  dsimp only
  split
  · split <;> rfl
  · rfl

theorem staysAt_notePreemptMax (p : Pkg) (n : Nat) : StaysAt p (notePreemptMax p n) n := by
  have hset (id : Nat) (v : W64) (c : Cmd) (hcmd : (ce p n).cmd = some id) (hc : c.desc = (cmd p id).desc) :
      StaysAt p (setCmd (setReg p (key pgQm 0x128) v) id c) n := by
    refine ⟨ceChart_congr rfl (reg_setReg_ne _ _ (key_ne _ _ (by decide) (by decide) (by decide))), ?_, rfl⟩
    have hq : (ce (setCmd (setReg p (key pgQm 0x128) v) id c) n).cmd = some id := hcmd
    rw [ceCmd, ceCmd, hq, hcmd]
    exact (congrArg Cmd.desc (cmd_setCmd_self _ _ _)).trans hc
  unfold notePreemptMax
  dsimp only
  split
  next id hcmd =>
    split
    · exact hset id _ _ hcmd rfl
    · exact (KeepsPlace.refl _ _).stays
  next => exact (KeepsPlace.refl _ _).stays

theorem countProducts_ces (p : Pkg) (n : Nat) (o : Octet) (wide : Bool) (arrays : Nat) : (countProducts p n o wide arrays).ces = p.ces := by
  unfold countProducts
  dsimp only
  split <;> rfl

theorem staysAt_countProducts (p : Pkg) (n : Nat) (o : Octet) (wide : Bool) (arrays : Nat) : StaysAt p (countProducts p n o wide arrays) n := by
  have hcounter : productCounter o wide < 0x1000 ∧ productCounter o wide ≠ 0x100 := by
    unfold productCounter
    dsimp only
    split_ifs <;> decide
  have hadd (q : Pkg) (k : Nat) {off : Nat} (ho : off < 0x1000) (h : off ≠ 0x100) : StaysAt q (addReg q (key (pgCe n) off) k) n :=
    (keepsUnits_addReg q n k ho h).toKeepsPlace.stays
  unfold countProducts
  dsimp only
  refine StaysAt.trans ?_ (hadd _ _ (by decide) (by decide))
  split
  · exact (hadd _ _ hcounter.1 hcounter.2).trans (hadd _ _ (by decide) (by decide))
  · exact hadd _ _ hcounter.1 hcounter.2

/-- An octet that takes INT8 elements of split feeds and may begin a pass. -/
structure Int8Ready (o : Octet) : Prop where
  fa : o.fa = 5
  fb : o.fb = 5
  sharedA : o.sharedA = false
  sharedB : o.sharedB = false
  done : o.done = 0
  stopped : o.stopped = false
  since : ∀ a, a < 8 → SMap.get o.since a 0 < 65536

/-- A CE after its octet `oct`, then o, has taken the first element of a pass. -/
def groupTook (c : Ce) (oct : Nat) (q : PassArgs) (o : Octet) (xs ys : List (Item × Nat)) : Ce :=
  let d := takeGroup (withOctet c oct o) oct q 0 xs ys
  withOctet d oct { octet d oct with done := 1, scaled := o.scaled }

theorem groupTook_int8 (c : Ce) (oct : Nat) (q : PassArgs) {o : Octet} (xs ys : List (Item × Nat)) (hfa : o.fa = 5) :
    ∃ os since, groupTook c oct q o xs ys = { c with octets := os } ∧ octet (groupTook c oct q o xs ys) oct = { o with
      cells := ((List.range 8).filter (fun a => q.takes a 0)).foldl (arrayTakes o q.mode 0 xs ys) o.cells
      since := since, done := 1 } := by
  obtain ⟨since, htake⟩ := takeGroup_cells (c := withOctet c oct o) (oct := oct) q 0 xs ys (by rw [octet_withOctet, hfa]; rfl)
  rw [octet_withOctet] at htake
  unfold groupTook
  dsimp only
  rw [htake, octet_withOctet, octet_withOctet]
  exact ⟨_, since, rfl, rfl⟩

section
variable {p : Pkg} {n oct : Nat} {q : PassArgs} {x y : Item} {xs ys : List Item} (hmode : q.mode = 2) (hlen : q.len = 1)
  (hfree : q.free = true) (hready : Int8Ready (octet (ce p n) oct)) (hx : routeItems (ce p n) (0x60 + oct) = x :: xs)
  (hy : routeItems (ce p n) (0x68 + oct) = y :: ys)
include hmode hlen hfree hready hx hy

theorem passStep_int8 : ∃ slots o wide k, passStep n oct q p = (.goes, countProducts (notePreemptMax (setCe p n
    (groupTook { ce p n with routes := SMap.set (SMap.set (ce p n).routes (0x60 + oct) xs) (0x68 + oct) ys } oct q
      { octet (ce p n) oct with bank := q.bank, ua := 0, ub := 0, slots := slots } [(x, (octet (ce p n) oct).ua)]
      [(y, (octet (ce p n) oct).ub)])) n) n o wide k) := by
  obtain ⟨hfa, hfb, hsa, hsb, hdone, hstopped, hsince⟩ := hready
  have hrest : routeItems { ce p n with routes := SMap.set (ce p n).routes (0x60 + oct) xs } (0x68 + oct) = y :: ys :=
    (SMap.get_set_ne _ _ _ (by omega)).trans hy
  unfold passStep
  extract_lets c _ o u top act ended p1 part slots next
  have hu : u = 0 := hdone
  have hlimit : drainLimit o = 65536 := if_neg fun hc => absurd (hfa.symm.trans hc.1) (by decide)
  have hshort : (List.range 8).any (fun a => q.takes a u && decide (drainLimit o ≤ SMap.get o.since a 0)) = false := by
    rw [List.any_eq_false]
    intro a ha
    have hless : ¬drainLimit o ≤ SMap.get o.since a 0 := by
      rw [hlimit]
      exact Nat.not_le.mpr (hsince a (List.mem_range.mp ha))
    simp [hless]
  have ha : takeBeats (groupBeats o.fa) (0x60 + oct) o.sharedA c o.ua =
      some ([(x, o.ua)], { ce p n with routes := SMap.set (ce p n).routes (0x60 + oct) xs }, 0) := by
    rw [show o.fa = 5 from hfa, show o.sharedA = false from hsa]
    exact takeBeats_split _ hx
  have hb : takeBeats (groupBeats o.fb) (0x68 + oct) o.sharedB { ce p n with routes := SMap.set (ce p n).routes (0x60 + oct) xs } o.ub =
      some ([(y, o.ub)], { ce p n with routes := SMap.set (SMap.set (ce p n).routes (0x60 + oct) xs) (0x68 + oct) ys }, 0) := by
    rw [show o.fb = 5 from hfb, show o.sharedB = false from hsb]
    exact takeBeats_split _ hrest
  have hmx : isMx o.fa = false := congrArg isMx hfa
  have h16 : is16 o.fa = false := congrArg is16 hfa
  have hnext : next = 1 := by rw [show next = u + groupElems o.fa from rfl, hu, show o.fa = 5 from hfa]; rfl
  have hgo : (o.stopped || drainWaits q o u) = false := by rw [show o.stopped = false from hstopped, drainWaits_free hfree]; rfl
  rw [hgo, hshort, hmx, h16, hlen, if_neg (by decide), if_neg (by rw [hu]; decide), if_neg (by simp), if_neg (by simp), ha]
  dsimp only
  rw [if_pos hmode, hb]
  dsimp only
  rw [if_neg (by simp), if_neg (by simp), hnext, hu]
  exact ⟨_, _, _, _, rfl⟩

/-- From p to r an octet has taken the first element of an INT8 pass: x from its streamed port and y from its second. -/
structure ElementTaken (p r : Pkg) (n oct : Nat) (q : PassArgs) (x y : Item) (xs ys : List Item) : Prop where
  stays : StaysAt p r n
  rows : routeItems (ce r n) (0x60 + oct) = xs
  cols : routeItems (ce r n) (0x68 + oct) = ys
  done : (octet (ce r n) oct).done = 1
  stopped : (octet (ce r n) oct).stopped = false
  fa : (octet (ce r n) oct).fa = 5
  cells : ∀ a i c, i < 8 → c < 8 → SMap.get (octet (ce r n) oct).cells (cellKey a i c) ⟨0, 0⟩ =
    if a ∈ (List.range 8).filter (fun a => q.takes a 0) then (SMap.get (octet (ce p n) oct).cells (cellKey a i c) ⟨0, 0⟩).addFixed
      (product (wireOf 5 (itemByte x (8 * a + i))) (wireOf 5 (itemByte y (8 * a + c))))
    else SMap.get (octet (ce p n) oct).cells (cellKey a i c) ⟨0, 0⟩

theorem passStep_element : ∃ r, passStep n oct q p = (.goes, r) ∧ ElementTaken p r n oct q x y xs ys := by
  obtain ⟨slots, o, wide, k, hstep⟩ := passStep_int8 hmode hlen hfree hready hx hy
  obtain ⟨hfa, hfb, hsa, hsb, -, hstopped, -⟩ := hready
  obtain ⟨os, since, hce, hoctet⟩ := groupTook_int8
    { ce p n with routes := SMap.set (SMap.set (ce p n).routes (0x60 + oct) xs) (0x68 + oct) ys } oct q
    (o := { octet (ce p n) oct with bank := q.bank, ua := 0, ub := 0, slots := slots }) [(x, (octet (ce p n) oct).ua)]
    [(y, (octet (ce p n) oct).ub)] hfa
  generalize groupTook _ oct q _ _ _ = g at *
  have hr : ce (countProducts (notePreemptMax (setCe p n g) n) n o wide k) n = g :=
    (ce_congr ((countProducts_ces _ _ _ _ _).trans (notePreemptMax_ces _ _)) n).trans (ce_setCe_self _ _ _)
  have hstays : StaysAt p (setCe p n g) n := (keepsPlace_setCe (by rw [hce]) (by rw [hce]) (by rw [hce])).stays
  refine ⟨_, hstep, (hstays.trans (staysAt_notePreemptMax _ _)).trans (staysAt_countProducts _ _ _ _ _), ?_, ?_, ?_, ?_, ?_,
    fun a i c hi hc => ?_⟩
  all_goals rw [hr]
  · rw [hce]
    exact (SMap.get_set_ne _ _ _ (by omega)).trans (SMap.get_set_self _ _ _ _)
  · rw [hce]
    exact SMap.get_set_self _ _ _ _
  · rw [hoctet]
  · rw [hoctet]
    exact hstopped
  · rw [hoctet]
    exact hfa
  · rw [hoctet, hmode]
    exact (get_arraysTake _ 2 0 _ _ (List.nodup_range.filter _) _ hi hc).trans
      (if_congr Iff.rfl (cellTake_int8 hfa hfb hsa hsb x y _ _ a i c _) rfl)
end

/-- An octet after a pass that does not drain. -/
def passEnded (p : Pkg) (n oct : Nat) : Pkg := setCe p n (withOctet (ce p n) oct { octet (ce p n) oct with done := 0, scaled := 0 })

theorem keepsPlace_passEnded (p : Pkg) (n oct : Nat) : KeepsPlace p (passEnded p n oct) n := keepsPlace_setCe rfl rfl rfl

theorem passStep_ends {p : Pkg} {n oct : Nat} {q : PassArgs} (hlen : q.len = 1) (hdrain : q.drain = false) (hfree : q.free = true)
    (hdone : (octet (ce p n) oct).done = 1) (hstopped : (octet (ce p n) oct).stopped = false) (hfa : (octet (ce p n) oct).fa = 5) :
    passStep n oct q p = (.ended, passEnded p n oct) := by
  unfold passStep
  extract_lets c _ o u top act ended
  have h16 : is16 o.fa = false := congrArg is16 hfa
  have hgo : (o.stopped || drainWaits q o u) = false := by rw [show o.stopped = false from hstopped, drainWaits_free hfree]; rfl
  have hover : q.len ≤ u := (hlen.trans hdone.symm).le
  rw [hgo, if_neg (by decide), if_pos hover, hdrain, if_neg (by simp), h16, if_neg (by simp)]
  rfl

theorem passRun_element {p r t : Pkg} {n oct : Nat} {q : PassArgs} (fuel : Nat) (h : passStep n oct q p = (.goes, r))
    (g : passStep n oct q r = (.ended, t)) : passRun n oct q (fuel + 2) p = (.ended, t) := by
  rw [passRun, h]
  dsimp only
  rw [passRun, g]

/-- The arrays that take a PASS of one element: the unmasked ones. -/
theorem mem_takes {p : Pkg} {n oct slot step bank a : Nat} (ha : a < 8) :
    a ∈ (List.range 8).filter (fun a => (passArgs p n oct slot step bank false 1).takes a 0) ↔ (octet (ce p n) oct).mask.testBit a = true := by
  have hlens : (passArgs p n oct slot step bank false 1).lens.getD a 0 = if (octet (ce p n) oct).mask.testBit a then 1 else 0 := by
    simp [passArgs, ha]
  rw [List.mem_filter, PassArgs.takes, hlens, decide_eq_true_iff]
  by_cases h : (octet (ce p n) oct).mask.testBit a = true <;> simp [h, ha]

theorem pass_takes {s : State} {n oct slot step bank : Nat} {x y : Item} {xs ys : List Item} (hslot : slot < 64) (hstep : step < 2)
    (hbank : bank < 2) (hat : octAt s.pkg n oct (4 * 2 ^ 28 + slot * 2 ^ 22 + step * 2 ^ 21 + bank * 2 ^ 20) = true)
    (hformat : (octet (ce s.pkg n) oct).formatted = true) (hready : Int8Ready (octet (ce s.pkg n) oct)) (hmode : octMode s.pkg n oct = 2)
    (hx : routeItems (ce s.pkg n) (0x60 + oct) = x :: xs) (hy : routeItems (ce s.pkg n) (0x68 + oct) = y :: ys) :
    ∃ t, exec (.pass n oct slot step bank false 1) s = .next t ∧ MovedOn s t n 1 oct 1 ∧ t.mem = s.mem ∧
      routeItems (ce t.pkg n) (0x60 + oct) = xs ∧ routeItems (ce t.pkg n) (0x68 + oct) = ys ∧
      ∀ a i c, a < 8 → i < 8 → c < 8 → SMap.get (octet (ce t.pkg n) oct).cells (cellKey a i c) ⟨0, 0⟩ =
        if (octet (ce s.pkg n) oct).mask.testBit a then (SMap.get (octet (ce s.pkg n) oct).cells (cellKey a i c) ⟨0, 0⟩).addFixed
          (product (wireOf 5 (itemByte x (8 * a + i))) (wireOf 5 (itemByte y (8 * a + c))))
        else SMap.get (octet (ce s.pkg n) oct).cells (cellKey a i c) ⟨0, 0⟩ := by
  have hplace := keepsPlace_settleLatches s.pkg n
  obtain ⟨l, hsettled⟩ := settleLatches_octet s.pkg n oct
  have hroutes (k : Nat) : routeItems (ce (settleLatches s.pkg n) n) k = routeItems (ce s.pkg n) k := by
    rw [routeItems, settleLatches_routes, ← routeItems]
  have hready' : Int8Ready (octet (ce (settleLatches s.pkg n) n) oct) := by
    obtain ⟨hfa, hfb, hsa, hsb, hdone, hstopped, hsince⟩ := hready
    rw [hsettled]
    exact ⟨hfa, hfb, hsa, hsb, hdone, hstopped, hsince⟩
  obtain ⟨r, hfirst, htaken⟩ := passStep_element (q := passArgs s.pkg n oct slot step bank false 1) hmode rfl rfl hready'
    ((hroutes _).trans hx) ((hroutes _).trans hy)
  have hlast := passStep_ends (q := passArgs s.pkg n oct slot step bank false 1) rfl rfl rfl htaken.done htaken.stopped htaken.fa
  have hword : doPass n oct slot step bank false 1 s.pkg = octNext (passEnded r n oct) n oct := by
    have hargs : decide (slot < 64 ∧ step < 2 ∧ bank < 2 ∧ 0 < 1 ∧ 1 ≤ 65536) = true :=
      decide_eq_true ⟨hslot, hstep, hbank, by decide, by decide⟩
    have hshort : decide ((passArgs s.pkg n oct slot step bank false 1).mode = 2 ∨ 1 ≤ 64) = true := decide_eq_true (.inr (by decide))
    have hcode (w : Nat) : w + bitNat false * 2 ^ 19 + (1 - 1) = w := by simp [bitNat]
    unfold doPass
    dsimp only
    rw [hcode, hat, hformat, hargs, hshort, if_pos (by decide), passRun_element 2 hfirst hlast]
  have hdone := octNext_done_of hword
  have hended : ce (passEnded r n oct) n = withOctet (ce r n) oct { octet (ce r n) oct with done := 0, scaled := 0 } := ce_setCe_self _ _ _
  have hoctet := hdone.octet
  have hroutes' : (ce (s.onPkg (doPass n oct slot step bank false 1)).pkg n).routes = (ce r n).routes := hdone.routes.trans (by rw [hended]; rfl)
  rw [hended, octet_withOctet] at hoctet
  refine ⟨_, rfl, octNext_movesOn hword ((hplace.stays.trans htaken.stays).trans (keepsPlace_passEnded _ _ _).stays), rfl, ?_, ?_,
    fun a i c ha hi hc => ?_⟩
  · rw [routeItems, hroutes']
    exact htaken.rows
  · rw [routeItems, hroutes']
    exact htaken.cols
  · have hcells := htaken.cells a i c hi hc
    rw [hsettled, if_congr (mem_takes ha) rfl rfl] at hcells
    rw [hoctet]
    exact hcells

end Sys2Proof.Machine
end

section
/-! Octets: a drain at its interval (R224 to R228, R247): the rest of the proof of O21. -/

namespace Sys2Proof.Machine

/-! ## Entries set in rising order -/

theorem SMap.set_last {α : Type} {m : SMap α} {k : Nat} (v : α) (h : ∀ x ∈ m, x.1 < k) : SMap.set m k v = m ++ [(k, v)] := by
  induction m with
  | nil => rfl
  | cons x t ih =>
    have hx := h x (List.mem_cons_self ..)
    rw [SMap.set, if_neg (by omega), if_neg (by omega), ih fun y hy => h y (List.mem_cons_of_mem x hy)]
    rfl

theorem SMap.foldl_set_rising {ι α : Type} {key : ι → Nat} (val : ι → α) {l : List ι} (hl : l.Pairwise fun x y => key x < key y)
    {m : SMap α} (hm : ∀ x ∈ m, ∀ y ∈ l, x.1 < key y) :
    l.foldl (fun m x => SMap.set m (key x) (val x)) m = m ++ l.map fun x => (key x, val x) := by
  induction l generalizing m with
  | nil => exact (List.append_nil m).symm
  | cons x l ih =>
    obtain ⟨hx, hl⟩ := List.pairwise_cons.mp hl
    rw [List.foldl_cons, SMap.set_last _ fun y hy => hm y hy x (List.mem_cons_self ..), ih hl, List.append_assoc]
    · rfl
    · intro y hy z hz
      rcases List.mem_append.mp hy with h | h
      · exact hm y h z (List.mem_cons_of_mem x hz)
      · obtain rfl := List.mem_singleton.mp h
        exact hx z hz

theorem allCells_rising (a : Nat) : allCells.Pairwise fun x y => cellKey a x.1 x.2 < cellKey a y.1 y.2 := by
  have hrising : allCells.Pairwise fun x y => 8 * x.1 + x.2 < 8 * y.1 + y.2 := by decide
  refine hrising.imp fun h => ?_
  unfold cellKey
  omega

/-! ## The latches of an array (R224) -/

/-- The latches of an array that has drained to a slot. -/
def drainedLatches (o : Octet) (mode a u slot : Nat) : SMap Latch :=
  allCells.map fun ic => (cellKey a ic.1 ic.2, latchOf o mode a ic.1 ic.2 u slot)

theorem foldl_latches (o : Octet) (mode a u slot : Nat) :
    allCells.foldl (fun m ic => SMap.set m (cellKey a ic.1 ic.2) (latchOf o mode a ic.1 ic.2 u slot)) [] =
      drainedLatches o mode a u slot :=
  SMap.foldl_set_rising (fun ic : Nat × Nat => latchOf o mode a ic.1 ic.2 u slot) (allCells_rising a) fun _ h => absurd h List.not_mem_nil

theorem drainArray_eq {c : Ce} {oct : Nat} (mode a slot u : Nat) (h : (octet c oct).latches = []) : drainArray c oct mode a slot u =
    withOctet c oct { octet c oct with
      cells := SMap.drop (octet c oct).cells (fun k => k / 64 == a), since := SMap.set (octet c oct).since a 0
      latches := drainedLatches (octet c oct) mode a u slot } := by
  unfold drainArray
  dsimp only
  rw [h, foldl_latches]
  rfl

theorem get_drainedLatches (o : Octet) (mode a u slot : Nat) (l : Latch) {i c : Nat} (hi : i < 8) (hc : c < 8) :
    SMap.get (drainedLatches o mode a u slot) (cellKey a i c) l = latchOf o mode a i c u slot := by
  rw [← foldl_latches]
  refine (get_foldl_step (y := (i, c)) (F := fun _ => latchOf o mode a i c u slot) allCells (fun x hx m => ?_) allCells_nodup []).trans
    (if_pos (mem_allCells.mpr ⟨hi, hc⟩))
  obtain ⟨hx1, hx2⟩ := mem_allCells.mp hx
  rw [SMap.get_set]
  by_cases hxy : x = (i, c)
  · rw [hxy, if_pos rfl, if_pos rfl]
  · rw [if_neg fun h => hxy ((cellKey_inj hi hc hx1 hx2).mp h).2.symm, if_neg hxy]

/-- What a latch adds to the long accumulators. -/
def latchAdds (l : SMap Rec) (x : Nat × Latch) : SMap Rec :=
  SMap.set l (64 * x.2.slot + x.1 % 64) (accAdd (SMap.get l (64 * x.2.slot + x.1 % 64) 0) x.2.value.1 x.2.value.2)

/-- The latches of an array, when they pass on, join the long accumulators of its slot. -/
theorem get_drainedLatches_adds (o : Octet) (mode a u slot : Nat) (m : SMap Rec) {i c : Nat} (hi : i < 8) (hc : c < 8) :
    SMap.get ((drainedLatches o mode a u slot).foldl latchAdds m) (64 * slot + 8 * i + c) 0 =
      accAdd (SMap.get m (64 * slot + 8 * i + c) 0) (latchOf o mode a i c u slot).value.1 (latchOf o mode a i c u slot).value.2 := by
  rw [drainedLatches, List.foldl_map]
  refine (get_foldl_step (y := (i, c)) (F := fun r => accAdd r (latchOf o mode a i c u slot).value.1 (latchOf o mode a i c u slot).value.2)
    allCells (fun x hx m => ?_) allCells_nodup m).trans (if_pos (mem_allCells.mpr ⟨hi, hc⟩))
  obtain ⟨hx1, hx2⟩ := mem_allCells.mp hx
  have hplace (j d : Nat) (hj : j < 8) (hd : d < 8) : 64 * slot + cellKey a j d % 64 = 64 * slot + 8 * j + d := by
    unfold cellKey
    omega
  have hslot : (latchOf o mode a x.1 x.2 u slot).slot = slot := rfl
  rw [latchAdds, hslot, hplace _ _ hx1 hx2, SMap.get_set]
  by_cases hxy : x = (i, c)
  · rw [hxy, if_pos rfl, if_pos rfl]
  · have hne : ¬64 * slot + 8 * i + c = 64 * slot + 8 * x.1 + x.2 := fun h => hxy (Prod.ext (by dsimp only; omega) (by dsimp only; omega))
    rw [if_neg hne, if_neg hxy]

theorem long_passLatches {c : Ce} {oct : Nat} (h : (octet c oct).latches.isEmpty = false) :
    (passLatches c oct).long = (octet c oct).latches.foldl latchAdds c.long := by
  unfold passLatches
  dsimp only
  rw [h]
  rfl

/-! ## The drain of one array (R224, R227) -/

theorem passLatches_empty {c : Ce} {oct : Nat} (h : (octet c oct).latches = []) : passLatches c oct = c := by
  unfold passLatches
  dsimp only
  rw [h]
  rfl

theorem drainMany_one {p : Pkg} {n oct slot : Nat} (mode u a : Nat) (hslot : 64 * slot + 64 ≤ (ceChart p n).longAccs)
    (hlatches : (octet (ce p n) oct).latches = []) : (drainMany p n oct mode u [(a, slot)]).2 =
      addReg (setCe p n (drainArray (ce p n) oct mode a slot u)) (key (pgCe n) 0x360) 1 := by
  have hroom : [(a, slot)].any (fun x => decide ((ceChart p n).longAccs < 64 * x.2 + 64)) = false := by
    simpa using hslot
  unfold drainMany
  dsimp only
  rw [hroom, passLatches_empty hlatches]
  rfl

theorem drainInterval_drains {s : State} {n array : Nat} (l : Latch) (hlive : ceLive s.pkg n = true) (harray : array < 64)
    (hdue : drainLimit (octet (ce s.pkg n) (array / 8)) ≤ SMap.get (octet (ce s.pkg n) (array / 8)).since (array % 8) 0)
    (hlatches : (octet (ce s.pkg n) (array / 8)).latches = []) (hfree : slotsFree s.pkg n (array / 8) = true) {slot : Nat}
    (hslot : slot = SMap.get (octet (ce s.pkg n) (array / 8)).slots (array % 8) 0) (hroom : 64 * slot + 64 ≤ (ceChart s.pkg n).longAccs) :
    ∃ t, exec (.drainIntervalExpiry n array) s = .next t ∧ t.mem = s.mem ∧
      SMap.get (octet (ce t.pkg n) (array / 8)).since (array % 8) 0 = 0 ∧
      reg t.pkg (key (pgCe n) 0x360) = reg s.pkg (key (pgCe n) 0x360) + 1 ∧
      ∀ i c, i < 8 → c < 8 →
        SMap.get (octet (ce t.pkg n) (array / 8)).cells (cellKey (array % 8) i c) ⟨0, 0⟩ = ⟨0, 0⟩ ∧
        SMap.get (octet (ce t.pkg n) (array / 8)).latches (cellKey (array % 8) i c) l =
          latchOf (octet (ce s.pkg n) (array / 8)) (octMode s.pkg n (array / 8)) (array % 8) i c
            ((octet (ce s.pkg n) (array / 8)).done - 1) slot ∧
        SMap.get (passLatches (ce t.pkg n) (array / 8)).long (64 * slot + 8 * i + c) 0 =
          (let v := (latchOf (octet (ce s.pkg n) (array / 8)) (octMode s.pkg n (array / 8)) (array % 8) i c
            ((octet (ce s.pkg n) (array / 8)).done - 1) slot).value
           accAdd (SMap.get (ce s.pkg n).long (64 * slot + 8 * i + c) 0) v.1 v.2) := by
  have hdrain : doDrainIntervalExpiry n array s.pkg = (drainMany s.pkg n (array / 8) (octMode s.pkg n (array / 8))
      ((octet (ce s.pkg n) (array / 8)).done - 1) [(array % 8, slot)]).2 := by
    unfold doDrainIntervalExpiry
    dsimp only
    rw [hlive, hfree, decide_eq_true harray, decide_eq_true hdue, ← hslot]
    rfl
  rw [drainMany_one _ _ _ hroom hlatches] at hdrain
  generalize octMode s.pkg n (array / 8) = mode at *
  generalize hu : (octet (ce s.pkg n) (array / 8)).done - 1 = u at *
  have hce : ce (addReg (setCe s.pkg n (drainArray (ce s.pkg n) (array / 8) mode (array % 8) slot u)) (key (pgCe n) 0x360) 1) n =
      drainArray (ce s.pkg n) (array / 8) mode (array % 8) slot u := ce_setCe_self _ _ _
  have harrayed := drainArray_eq (oct := array / 8) mode (array % 8) slot u hlatches
  have hlong : (drainArray (ce s.pkg n) (array / 8) mode (array % 8) slot u).long = (ce s.pkg n).long := rfl
  refine ⟨_, next_onPkg hdrain, rfl, ?_, ?_, fun i c hi hc => ⟨?_, ?_, ?_⟩⟩
  · rw [hce, harrayed, octet_withOctet]
    exact SMap.get_set_self _ _ _ _
  · rw [reg_addReg, if_pos rfl, reg_setCe]
    rfl
  · rw [hce, harrayed, octet_withOctet]
    have harray : cellKey (array % 8) i c / 64 = array % 8 := by
      unfold cellKey
      omega
    exact (SMap.get_drop _ (fun k => k / 64 == array % 8) _ _).trans (if_pos (beq_iff_eq.mpr harray))
  · rw [hce, harrayed, octet_withOctet]
    exact get_drainedLatches _ _ _ _ _ _ hi hc
  · have hoctet : (octet (drainArray (ce s.pkg n) (array / 8) mode (array % 8) slot u) (array / 8)).latches =
        drainedLatches (octet (ce s.pkg n) (array / 8)) mode (array % 8) u slot := by rw [harrayed, octet_withOctet]
    rw [hce, long_passLatches (by rw [hoctet]; rfl), hoctet, hlong]
    exact get_drainedLatches_adds _ _ _ _ _ _ hi hc

/-- Settles O21. -/
theorem octetsLoadPassDrainAndProject : Obligations.OctetsLoadPassDrainAndProject := by
  unfold Obligations.OctetsLoadPassDrainAndProject
  refine ⟨⟨fun _ _ _ => octetNop_ends, fun _ _ _ _ _ _ _ _ => octetFormat_formats, fun _ _ _ _ => octetMask_masks, ?load, ?pass⟩,
    ?drain, fun _ _ _ => feedStall_stops, fun _ _ _ => feed_restarts, ?project⟩
  case load =>
    rintro s n oct bank x rest _ hat rfl hformat hbank hdone hitems hlast
    exact loadSr_loads hat hformat hbank hdone hitems hlast
  case pass =>
    rintro s n oct slot step bank x y xs ys _ hslot hstep hbank hat rfl hformat hfa hfb hsa hsb hdone hstopped hmode hsince hx hy
    exact pass_takes hslot hstep hbank hat hformat ⟨hfa, hfb, hsa, hsb, hdone, hstopped, hsince⟩ hmode hx hy
  case drain =>
    rintro s n array _ slot l hlive harray rfl hdue hlatches hfree hslot hroom
    exact drainInterval_drains l hlive harray hdue hlatches hfree hslot hroom
  case project =>
    rintro s n oct _ hat rfl hformat hmode hlast hround hk
    exact project_ends hat hformat hmode hlast hround hk

end Sys2Proof.Machine
end
